-- ==== Sys2Proof/Word.lean ====
section
/-! DEFINITION. The word types of the device: registers are 64 bits wide (R6), memory is bytes, a vector lane is 32 bits. -/

namespace Sys2Proof

/-- A 64-bit register or memory word (R6). -/
abbrev Word := BitVec 64

/-- One byte of any memory of the device. -/
abbrev Byte := BitVec 8

/-- One 32-bit lane of a vector register (R24, R215). -/
abbrev Lane := BitVec 32

/-- A chamber vector register: 128 lanes (R24). -/
abbrev Lanes := Vector Lane 128

/-- A helictite vector register: 16 lanes (R215). -/
abbrev HLanes := Vector Lane 16

end Sys2Proof
end

