-- ==== Sys2Proof/Syntax.lean ====
section
/-! DEFINITION. The commands of the device: one constructor per row of the operation table, with the operands it carries, and the slots of a Eucen bundle. -/

namespace Sys2Proof

/-- The operand fields of the C slot (R39). -/
structure COps where
  guard  : BitVec 4
  dev    : BitVec 8
  cc     : BitVec 2
  i      : Bool
  sval   : BitVec 5
  imm16  : BitVec 16
  sreg   : BitVec 5
  target : BitVec 12
  deriving DecidableEq, Repr

/-- The operand fields of the S slot (R41). -/
structure SOps where
  guard : BitVec 4
  dst   : BitVec 5
  sa    : BitVec 5
  sb    : BitVec 5
  i     : Bool
  imm32 : BitVec 32
  deriving DecidableEq, Repr

/-- The operand fields of the L slot (R42). -/
structure LOps where
  guard : BitVec 4
  dsc   : BitVec 4
  dst   : BitVec 5
  sa    : BitVec 5
  tag   : BitVec 3
  xmode : BitVec 2
  xslot : Bool
  imm32 : BitVec 32
  deriving DecidableEq, Repr

/-- The operand fields of the M slot (R44). -/
structure MOps where
  guard  : BitVec 4
  atype  : BitVec 4
  wtype  : BitVec 4
  arr    : BitVec 2
  zero   : Bool
  maskz  : Bool
  msk    : Bool
  swap   : Bool
  sact   : BitVec 5
  srows  : BitVec 5
  sacc   : BitVec 5
  smask  : BitVec 5
  spitch : BitVec 5
  deriving DecidableEq, Repr

/-- The operand fields of the V slot (R46). -/
structure VOps where
  guard : BitVec 4
  vd    : BitVec 5
  va    : BitVec 5
  vb    : BitVec 5
  vc    : BitVec 5
  typ   : BitVec 4
  sreg  : BitVec 5
  tt    : Bool
  arr   : Bool
  idx   : BitVec 7
  deriving DecidableEq, Repr

/-- The operand fields of the T slot (R48). -/
structure TOps where
  guard  : BitVec 4
  dsc    : BitVec 4
  sa     : BitVec 5
  sb     : BitVec 5
  tag    : BitVec 3
  otype  : BitVec 4
  ieee   : Bool
  arr    : Bool
  stats  : Bool
  sscale : BitVec 5
  vs     : BitVec 5
  imm32  : BitVec 32
  deriving DecidableEq, Repr

/-- A Eucen bundle: an opcode and operand fields for each of the six slots (R36, R37). -/
structure Bundle where
  cop : BitVec 8
  c   : COps
  sop : BitVec 8
  s   : SOps
  lop : BitVec 8
  l   : LOps
  mop : BitVec 8
  m   : MOps
  vop : BitVec 8
  v   : VOps
  top : BitVec 8
  t   : TOps
  deriving DecidableEq, Repr

/-- The bundle whose bits are all zero (R37). -/
def Bundle.zero : Bundle :=
  { cop := 0, c := ⟨0, 0, 0, false, 0, 0, 0, 0⟩, sop := 0, s := ⟨0, 0, 0, 0, false, 0⟩
    lop := 0, l := ⟨0, 0, 0, 0, 0, 0, false, 0⟩, mop := 0, m := ⟨0, 0, 0, 0, false, false, false, false, 0, 0, 0, 0, 0⟩
    vop := 0, v := ⟨0, 0, 0, 0, 0, 0, 0, false, false, 0⟩, top := 0, t := ⟨0, 0, 0, 0, 0, 0, false, false, false, 0, 0, 0⟩ }

/-- An ECC error that an access finds (R26, R94): in a local-memory bank 0 to 31, or bundle memory 32; single or double bit. -/
structure Upset where
  bank   : Fin 33
  double : Bool
  deriving DecidableEq, Repr

/-- An ECC error that a read of an accumulator or of a weight buffer finds (R94): the array, the physical accumulator row in use, single or double bit. -/
structure AccUpset where
  arrB   : Bool
  row    : BitVec 10
  double : Bool
  deriving DecidableEq, Repr

/-- What a consumer's comparison of a granule's check finds as the granule arrives (R373, R374): it agrees; it differs, with the check
computed, and that of the second copy agrees; both differ. -/
inductive Arrival where
  | ok
  | again (found : BitVec 32)
  | bad (found : BitVec 32)
  deriving DecidableEq, Repr

/-- What a granule request finds: ECC errors of its accesses to local memory, and to the accumulators it reads (R26, R94); and what a load
finds as its granule arrives. -/
structure Errors where
  upsets    : List Upset
  accUpsets : List AccUpset
  arrival   : Arrival
  deriving DecidableEq, Repr

/-- A tag that clears: which of the chamber's outstanding operations completes, and the ECC errors that its last local accesses find. -/
structure TagDone where
  op     : Fin 32
  upsets : List Upset
  deriving DecidableEq, Repr

/-- A bundle at issue: its slots, and the ECC errors that its reads of local, bundle and accumulator memory find. -/
structure Issue where
  bundle : Bundle
  upsets : List Upset
  accUpsets : List AccUpset
  deriving DecidableEq, Repr

/-- The operand fields of a helictite instruction (R216). -/
structure HOps where
  d   : BitVec 4
  a   : BitVec 4
  b   : BitVec 4
  c   : BitVec 4
  mod : BitVec 8
  imm : BitVec 32
  deriving DecidableEq, Repr

/-- The kinds of packet on a link (R327). -/
inductive LinkKind where
  | write | readReq | readResp | post | done
  deriving DecidableEq, Repr

/-- A packet as it comes in on a port (R327, R328): its header fields with the HCRC, its granules with the check flit's entries, and
what FEC reports of its codewords: symbols corrected, and codewords that it could not correct (R332, R352). -/
structure InPacket where
  vl     : Fin 4
  recipe : BitVec 2
  hops   : BitVec 4
  src    : BitVec 8
  dst    : BitVec 8
  poison : BitVec 16
  addr   : BitVec 48
  xfer   : BitVec 24
  pkt    : BitVec 24
  npkt   : BitVec 24
  psig   : BitVec 12
  pen    : Bool
  set    : Bool
  value  : BitVec 64
  dtype  : BitVec 4
  rowlen : BitVec 16
  opid   : BitVec 32
  ngran  : Fin 17
  data   : List (List Byte)
  lseq   : BitVec 12
  hcrc   : BitVec 32
  checks : List (BitVec 32)
  corr   : BitVec 16
  uncorr : BitVec 8
  deriving DecidableEq, Repr

/-- What one training attempt of a port finds (R323, R324): the power class that the module of a long-reach port declares, none where
it is absent; the lanes that pass here and those that pass at the peer, both in the order after polarity and reversal are put right; and
whether FEC locks and the lanes are deskewed. -/
structure TrainEnd where
  modClass : Option (BitVec 4)
  here     : BitVec 8
  there    : BitVec 8
  locked   : Bool
  deriving DecidableEq, Repr

/-- What training exchanges with the peer (R324, R330): its node and port, its reserved buffers by VL. -/
structure Peer where
  node     : BitVec 8
  port     : BitVec 3
  reserved : List (Fin 65)
  deriving DecidableEq, Repr

/-- A request to an arbiter (R354, R355, R361): its requester's ID, its beats, whether it is locked, and at a shaft the layer and bank it is
for. -/
structure ArbReq where
  id     : BitVec 3
  beats  : BitVec 8
  locked : Bool
  layer  : Fin 12
  bank   : BitVec 4
  deriving DecidableEq, Repr

/-- Where a job comes from: the unit's ring, or the head of its internal queue (R341, R279). -/
inductive JobSrc where
  | ring
  | queue
  deriving DecidableEq, Repr

/-- What a controller's read of a granule finds (R210): words corrected, and a double-bit error or a check mismatch with the check it
computed. -/
inductive ReadBad where
  | none
  | double
  | mismatch (found : BitVec 32)
  deriving DecidableEq, Repr

/-- A merge of bytes into a granule (R207): their offset in it, and what the controller's read of the old granule finds. -/
structure MergeRead where
  off       : BitVec 8
  corrected : BitVec 8
  bad       : ReadBad
  deriving DecidableEq, Repr

/-- How the host means to cache a line it reads (R399): not at all, shared, or with write permission (R418). -/
inductive CacheIntent where
  | none | shared | owned
  deriving DecidableEq, Repr

/-- What COPY_IN reads for one destination granule (R405, R409): the bytes, and whether a host line of them is poisoned. -/
structure CopyPiece where
  bytes  : List Byte
  poison : Bool
  deriving DecidableEq, Repr

/-- What the twin partner's side shows at pairing (R431, R477): its node, its own and peer windows in GiB, TWIN_CUR and TWIN_MIN of
its image, and its TWN_STATE.STATE. -/
structure Partner where
  node     : BitVec 8
  ownBase  : BitVec 11
  ownGib   : BitVec 11
  peerBase : BitVec 11
  peerGib  : BitVec 11
  cur      : BitVec 16
  min      : BitVec 16
  state    : BitVec 3
  deriving DecidableEq, Repr

/-- Bytes of the boot flash from an offset (R422). -/
structure FlashPiece where
  off   : BitVec 28
  bytes : List Byte
  deriving DecidableEq, Repr

/-- What a cold boot meets (R421 to R435): what the board's flash holds beside what the device has written there; for each bank whether
it can be read and whether its signature verifies; whether the key nodes pass; the chambers whose built-in test fails. -/
structure BootCheck where
  fitted   : List FlashPiece
  readable : BitVec 2
  sigOk    : BitVec 2
  keysOk   : Bool
  failed   : BitVec 28
  deriving DecidableEq, Repr

/-- What the governor's sensors show at the end of an interval (R462, R464): the averages of PL1 and PL2, the power of the last 100 µs and
the last VDD_CORE current sample, in mW and mA, and the hottest logic and DRAM sensors, in 1/16 degree. -/
structure GovSample where
  pl1   : BitVec 24
  pl2   : BitVec 24
  power : BitVec 24
  icc   : BitVec 24
  logic : BitVec 12
  dram  : BitVec 12
  deriving DecidableEq, Repr

/-- A host's access to its register windows: a read or a write of some bytes of BAR0, which is register space (R6, R394), or of BAR2 (R395),
and the programming of an HDM decoder of BAR2's component registers, whose layout the spec does not give: base, size, granularity and ways
as CXL codes them, and commit (R391, R398). The operation table has a row for a register write alone; the others come with the same command
(log entries 19 and 85). -/
inductive RegAccess where
  | read (size : BitVec 4)
  | write (size : BitVec 4) (v : Word)
  | bar2Read (size : BitVec 4)
  | bar2Write (size : BitVec 4) (v : Word)
  | decoder (d : Fin 2) (base size : Word) (gran ways : BitVec 4) (commit : Bool)
  deriving DecidableEq, Repr

/-- The commands, in the order of the operation table. -/
inductive Instr where
  | nop (ch : Fin 28) (slot : Fin 6) (i : Issue)  -- NOP (R37)
  | br (ch : Fin 28) (o : COps) (i : Issue)  -- BR (R39)
  | brS (ch : Fin 28) (o : COps) (i : Issue)  -- BR_S (R39)
  | call (ch : Fin 28) (o : COps) (i : Issue)  -- CALL (R39)
  | ret (ch : Fin 28) (o : COps) (i : Issue)  -- RET (R39)
  | halt (ch : Fin 28) (o : COps) (i : Issue)  -- HALT (R39)
  | postSigSet (ch : Fin 28) (o : COps) (i : Issue)  -- POST_SIG_SET (R52)
  | postSigAdd (ch : Fin 28) (o : COps) (i : Issue)  -- POST_SIG_ADD (R52)
  | waitSigGe (ch : Fin 28) (o : COps) (i : Issue)  -- WAIT_SIG_GE (R35)
  | waitSigEq (ch : Fin 28) (o : COps) (i : Issue)  -- WAIT_SIG_EQ (R35)
  | waitTag (ch : Fin 28) (o : COps) (i : Issue)  -- WAIT_TAG (R39)
  | fence (ch : Fin 28) (o : COps) (i : Issue)  -- FENCE (R39)
  | add (ch : Fin 28) (o : SOps) (i : Issue)  -- ADD (R41)
  | sub (ch : Fin 28) (o : SOps) (i : Issue)  -- SUB (R41)
  | and (ch : Fin 28) (o : SOps) (i : Issue)  -- AND (R41)
  | or (ch : Fin 28) (o : SOps) (i : Issue)  -- OR (R41)
  | xor (ch : Fin 28) (o : SOps) (i : Issue)  -- XOR (R41)
  | shl (ch : Fin 28) (o : SOps) (i : Issue)  -- SHL (R41)
  | shr (ch : Fin 28) (o : SOps) (i : Issue)  -- SHR (R41)
  | sra (ch : Fin 28) (o : SOps) (i : Issue)  -- SRA (R41)
  | mul (ch : Fin 28) (o : SOps) (i : Issue)  -- MUL (R41)
  | min (ch : Fin 28) (o : SOps) (i : Issue)  -- MIN (R41)
  | max (ch : Fin 28) (o : SOps) (i : Issue)  -- MAX (R41)
  | liL (ch : Fin 28) (o : SOps) (i : Issue)  -- LI_L (R41)
  | liH (ch : Fin 28) (o : SOps) (i : Issue)  -- LI_H (R41)
  | cmpEq (ch : Fin 28) (o : SOps) (i : Issue)  -- CMP_EQ (R41)
  | cmpNe (ch : Fin 28) (o : SOps) (i : Issue)  -- CMP_NE (R41)
  | cmpLt (ch : Fin 28) (o : SOps) (i : Issue)  -- CMP_LT (R41)
  | cmpGe (ch : Fin 28) (o : SOps) (i : Issue)  -- CMP_GE (R41)
  | cmpLtu (ch : Fin 28) (o : SOps) (i : Issue)  -- CMP_LTU (R41)
  | cmpGeu (ch : Fin 28) (o : SOps) (i : Issue)  -- CMP_GEU (R41)
  | pand (ch : Fin 28) (o : SOps) (i : Issue)  -- PAND (R41)
  | por (ch : Fin 28) (o : SOps) (i : Issue)  -- POR (R41)
  | pxor (ch : Fin 28) (o : SOps) (i : Issue)  -- PXOR (R41)
  | dscBase (ch : Fin 28) (o : SOps) (i : Issue)  -- DSC_BASE (R41)
  | dscAdd (ch : Fin 28) (o : SOps) (i : Issue)  -- DSC_ADD (R41)
  | rdCyc (ch : Fin 28) (o : SOps) (i : Issue)  -- RD_CYC (R41)
  | ldS (ch : Fin 28) (o : LOps) (i : Issue)  -- LD_S (R42)
  | ldV (ch : Fin 28) (o : LOps) (i : Issue)  -- LD_V (R42)
  | ldD (ch : Fin 28) (o : LOps) (i : Issue)  -- LD_D (R42)
  | ldT (ch : Fin 28) (o : LOps) (i : Issue)  -- LD_T (R136)
  | ldW (ch : Fin 28) (o : LOps) (i : Issue)  -- LD_W (R181)
  | mma (ch : Fin 28) (o : MOps) (i : Issue)  -- MMA (R45)
  | wsw (ch : Fin 28) (o : MOps) (i : Issue)  -- WSW (R44)
  | vaddF32 (ch : Fin 28) (o : VOps) (i : Issue)  -- VADD_F32 (R113)
  | vsubF32 (ch : Fin 28) (o : VOps) (i : Issue)  -- VSUB_F32 (R113)
  | vmulF32 (ch : Fin 28) (o : VOps) (i : Issue)  -- VMUL_F32 (R113)
  | vfmaF32 (ch : Fin 28) (o : VOps) (i : Issue)  -- VFMA_F32 (R113)
  | vmaxF32 (ch : Fin 28) (o : VOps) (i : Issue)  -- VMAX_F32 (R113)
  | vminF32 (ch : Fin 28) (o : VOps) (i : Issue)  -- VMIN_F32 (R113)
  | vaddI32 (ch : Fin 28) (o : VOps) (i : Issue)  -- VADD_I32 (R46)
  | vsubI32 (ch : Fin 28) (o : VOps) (i : Issue)  -- VSUB_I32 (R46)
  | vand (ch : Fin 28) (o : VOps) (i : Issue)  -- VAND (R46)
  | vor (ch : Fin 28) (o : VOps) (i : Issue)  -- VOR (R46)
  | vxor (ch : Fin 28) (o : VOps) (i : Issue)  -- VXOR (R46)
  | vcmpLtF32 (ch : Fin 28) (o : VOps) (i : Issue)  -- VCMP_LT_F32 (R113)
  | vcmpEqF32 (ch : Fin 28) (o : VOps) (i : Issue)  -- VCMP_EQ_F32 (R113)
  | vsel (ch : Fin 28) (o : VOps) (i : Issue)  -- VSEL (R46)
  | vbcast (ch : Fin 28) (o : VOps) (i : Issue)  -- VBCAST (R46)
  | vredAddF32 (ch : Fin 28) (o : VOps) (i : Issue)  -- VRED_ADD_F32 (R114)
  | vredMaxF32 (ch : Fin 28) (o : VOps) (i : Issue)  -- VRED_MAX_F32 (R114)
  | vrcp (ch : Fin 28) (o : VOps) (i : Issue)  -- VRCP (R115)
  | vrsqrt (ch : Fin 28) (o : VOps) (i : Issue)  -- VRSQRT (R115)
  | vexp (ch : Fin 28) (o : VOps) (i : Issue)  -- VEXP (R115)
  | vlog (ch : Fin 28) (o : VOps) (i : Issue)  -- VLOG (R115)
  | cvtSat (ch : Fin 28) (o : VOps) (i : Issue)  -- CVT_SAT (R117)
  | cvtIeee (ch : Fin 28) (o : VOps) (i : Issue)  -- CVT_IEEE (R117)
  | cvtUp (ch : Fin 28) (o : VOps) (i : Issue)  -- CVT_UP (R119)
  | trnW (ch : Fin 28) (o : VOps) (i : Issue)  -- TRN_W (R150)
  | trnR (ch : Fin 28) (o : VOps) (i : Issue)  -- TRN_R (R150)
  | movAcc (ch : Fin 28) (o : VOps) (i : Issue)  -- MOV_ACC (R46)
  | stS (ch : Fin 28) (o : TOps) (i : Issue)  -- ST_S (R48)
  | stV (ch : Fin 28) (o : TOps) (i : Issue)  -- ST_V (R48)
  | stD (ch : Fin 28) (o : TOps) (i : Issue)  -- ST_D (R48)
  | stT (ch : Fin 28) (o : TOps) (i : Issue)  -- ST_T (R138)
  | stAdd (ch : Fin 28) (o : TOps) (i : Issue)  -- ST_ADD (R143)
  | stAcc (ch : Fin 28) (o : TOps) (i : Issue)  -- ST_ACC (R121)
  | stAccAdd (ch : Fin 28) (o : TOps) (i : Issue)  -- ST_ACC_ADD (R121)
  | mv (ch : Fin 28) (o : TOps) (i : Issue)  -- MV (R48)
  | tagClear (ch : Fin 28) (done : TagDone)  -- TAG_CLEAR (R32)
  | descriptorRequest (ch : Fin 28) (found : Errors)  -- DESCRIPTOR_REQUEST (R149)
  | weightTileReady (ch : Fin 28)  -- WEIGHT_TILE_READY (R77)
  | swap (ch : Fin 28)  -- SWAP (R79)
  | vectorEntry (ch : Fin 28) (arrB : Bool) (upsets : List Upset) (accUpsets : List AccUpset)  -- VECTOR_ENTRY (R83)
  | accumulatorRowWrite (ch : Fin 28) (arrB : Bool) (accUpsets : List AccUpset)  -- ACCUMULATOR_ROW_WRITE (R91)
  | storeRerun (ch : Fin 28)  -- STORE_RERUN (R123)
  | waitTimeout (ch : Fin 28)  -- WAIT_TIMEOUT (R55)
  | chamberHalt (ch : Fin 28)  -- CHAMBER_HALT (R60)
  | chamberStart (ch : Fin 28) (host : Bool) (pc : BitVec 12) (args : List Word)  -- CHAMBER_START (R57)
  | chamberStop (ch : Fin 28) (host : Bool)  -- CHAMBER_STOP (R58)
  | chamberReset (ch : Fin 28) (host : Bool)  -- CHAMBER_RESET (R58)
  | glbSigWrite (n : BitVec 12) (v : Word)  -- GLB_SIG_WRITE (R50)
  | bundleWindowWrite (ch : Fin 28) (idx : BitVec 15) (v : Word)  -- BUNDLE_WINDOW_WRITE (R65)
  | regionTableWrite (ch : Fin 28) (host : Bool) (idx : BitVec 9) (v : Word)  -- REGION_TABLE_WRITE (R153)
  | registerWrite (off : BitVec 27) (acc : RegAccess)  -- REGISTER_WRITE (R7)
  | chamberRetirement (failed : BitVec 28)  -- CHAMBER_RETIREMENT (R68)
  | keeperChamberRetirement (failed : BitVec 28)  -- KEEPER_CHAMBER_RETIREMENT (R71)
  | build (ch : Fin 28)  -- BUILD (R192)
  | code (ch : Fin 28)  -- CODE (R193)
  | loadTable (ch : Fin 28)  -- LOAD_TABLE (R195)
  | tableSlotWrite (ch : Fin 28)  -- TABLE_SLOT_WRITE (R195)
  | coderEnable (ch : Fin 28)  -- CODER_ENABLE (R190)
  | siphonEnable  -- SIPHON_ENABLE (R160)
  | siphonDisable  -- SIPHON_DISABLE (R180)
  | route  -- ROUTE (R168)
  | combine  -- COMBINE (R174)
  | bondedRead (g : BitVec 40) (corrected : BitVec 8) (bad : ReadBad)  -- BONDED_READ (R210)
  | bondedWrite (g : BitVec 40) (data : List Byte)  -- BONDED_WRITE (R211)
  | partialWriteMerge (g : BitVec 40) (m : MergeRead) (data : List Byte)  -- PARTIAL_WRITE_MERGE (R207)
  | refresh (seg : Fin 1152) (bank : Fin 16)  -- REFRESH (R208)
  | refreshRateChange (layer : Fin 12) (deg : BitVec 12)  -- REFRESH_RATE_CHANGE (R209)
  | patrolScrub (g : BitVec 40) (corrected : BitVec 8) (bad : ReadBad)  -- PATROL_SCRUB (R212)
  | rowMove (seg : Fin 1152) (bank : Fin 16) (row : Fin 2048)  -- ROW_MOVE (R213)
  | helictiteJobStart (src : JobSrc)  -- HELICTITE_JOB_START (R224)
  | helictiteJobEnd (k : BitVec 11)  -- HELICTITE_JOB_END (R224)
  | hlcEnable  -- HLC_ENABLE (R222)
  | hlcDisable  -- HLC_DISABLE (R235)
  | hNop (hel : Fin 1152) (o : HOps)  -- H_NOP (R217)
  | hEnd (hel : Fin 1152) (o : HOps)  -- H_END (R217)
  | hBr (hel : Fin 1152) (o : HOps)  -- H_BR (R217)
  | hBz (hel : Fin 1152) (o : HOps)  -- H_BZ (R217)
  | hBnz (hel : Fin 1152) (o : HOps)  -- H_BNZ (R217)
  | hBlt (hel : Fin 1152) (o : HOps)  -- H_BLT (R217)
  | hDbnz (hel : Fin 1152) (o : HOps)  -- H_DBNZ (R217)
  | hTrap (hel : Fin 1152) (o : HOps)  -- H_TRAP (R217)
  | hAdd (hel : Fin 1152) (o : HOps)  -- H_ADD (R217)
  | hSub (hel : Fin 1152) (o : HOps)  -- H_SUB (R217)
  | hMul (hel : Fin 1152) (o : HOps)  -- H_MUL (R217)
  | hAnd (hel : Fin 1152) (o : HOps)  -- H_AND (R217)
  | hOr (hel : Fin 1152) (o : HOps)  -- H_OR (R217)
  | hXor (hel : Fin 1152) (o : HOps)  -- H_XOR (R217)
  | hShl (hel : Fin 1152) (o : HOps)  -- H_SHL (R217)
  | hShr (hel : Fin 1152) (o : HOps)  -- H_SHR (R217)
  | hAddi (hel : Fin 1152) (o : HOps)  -- H_ADDI (R217)
  | hLi (hel : Fin 1152) (o : HOps)  -- H_LI (R217)
  | hLih (hel : Fin 1152) (o : HOps)  -- H_LIH (R217)
  | hDivu (hel : Fin 1152) (o : HOps)  -- H_DIVU (R217)
  | hRemu (hel : Fin 1152) (o : HOps)  -- H_REMU (R217)
  | hLv (hel : Fin 1152) (o : HOps)  -- H_LV (R220)
  | hSv (hel : Fin 1152) (o : HOps)  -- H_SV (R220)
  | hLvh (hel : Fin 1152) (o : HOps)  -- H_LVH (R217)
  | hSvh (hel : Fin 1152) (o : HOps)  -- H_SVH (R217)
  | hLx (hel : Fin 1152) (o : HOps)  -- H_LX (R217)
  | hSx (hel : Fin 1152) (o : HOps)  -- H_SX (R217)
  | hVadd (hel : Fin 1152) (o : HOps)  -- H_VADD (R218)
  | hVsub (hel : Fin 1152) (o : HOps)  -- H_VSUB (R218)
  | hVmul (hel : Fin 1152) (o : HOps)  -- H_VMUL (R218)
  | hVfma (hel : Fin 1152) (o : HOps)  -- H_VFMA (R218)
  | hVmax (hel : Fin 1152) (o : HOps)  -- H_VMAX (R217)
  | hVmin (hel : Fin 1152) (o : HOps)  -- H_VMIN (R217)
  | hVabs (hel : Fin 1152) (o : HOps)  -- H_VABS (R217)
  | hVneg (hel : Fin 1152) (o : HOps)  -- H_VNEG (R217)
  | hVdotBf2 (hel : Fin 1152) (o : HOps)  -- H_VDOT_BF2 (R217)
  | hVcmpLt (hel : Fin 1152) (o : HOps)  -- H_VCMP_LT (R217)
  | hVsel (hel : Fin 1152) (o : HOps)  -- H_VSEL (R217)
  | hVbcast (hel : Fin 1152) (o : HOps)  -- H_VBCAST (R217)
  | hVredAdd (hel : Fin 1152) (o : HOps)  -- H_VRED_ADD (R217)
  | hVredMax (hel : Fin 1152) (o : HOps)  -- H_VRED_MAX (R217)
  | hVlane (hel : Fin 1152) (o : HOps)  -- H_VLANE (R217)
  | hVrcp (hel : Fin 1152) (o : HOps)  -- H_VRCP (R217)
  | hVrsqrt (hel : Fin 1152) (o : HOps)  -- H_VRSQRT (R217)
  | hVexp (hel : Fin 1152) (o : HOps)  -- H_VEXP (R217)
  | hVlog (hel : Fin 1152) (o : HOps)  -- H_VLOG (R217)
  | hVcvtF2i (hel : Fin 1152) (o : HOps)  -- H_VCVT_F2I (R217)
  | hVcvtI2f (hel : Fin 1152) (o : HOps)  -- H_VCVT_I2F (R217)
  | hVaddI32 (hel : Fin 1152) (o : HOps)  -- H_VADD_I32 (R217)
  | hVmovx (hel : Fin 1152) (o : HOps)  -- H_VMOVX (R217)
  | hVinsx (hel : Fin 1152) (o : HOps)  -- H_VINSX (R217)
  | hRg (hel : Fin 1152) (o : HOps)  -- H_RG (R219)
  | hWg (hel : Fin 1152) (o : HOps)  -- H_WG (R230)
  | hRgComplete (hel : Fin 1152) (slot : Fin 8)  -- H_RG_COMPLETE (R220)
  | hClm (hel : Fin 1152) (o : HOps)  -- H_CLM (R226)
  | claimEffect (hel : Fin 1152)  -- CLAIM_EFFECT (R226)
  | hRel (hel : Fin 1152) (o : HOps)  -- H_REL (R217)
  | hYld (hel : Fin 1152) (o : HOps)  -- H_YLD (R228)
  | forcedRowBoundary (hel : Fin 1152)  -- FORCED_ROW_BOUNDARY (R228)
  | hFence (hel : Fin 1152) (o : HOps)  -- H_FENCE (R217)
  | hXsend (hel : Fin 1152) (o : HOps)  -- H_XSEND (R232)
  | hXrecv (hel : Fin 1152) (o : HOps)  -- H_XRECV (R217)
  | hXrecvTimeout (hel : Fin 1152)  -- H_XRECV_TIMEOUT (R221)
  | hXcount (hel : Fin 1152) (o : HOps)  -- H_XCOUNT (R217)
  | hPost (hel : Fin 1152) (o : HOps)  -- H_POST (R217)
  | register (src : JobSrc)  -- REGISTER (R244)
  | deregister (src : JobSrc)  -- DEREGISTER (R244)
  | pin (src : JobSrc)  -- PIN (R244)
  | unpin (src : JobSrc)  -- UNPIN (R244)
  | prefetch (src : JobSrc)  -- PREFETCH (R257)
  | demote (src : JobSrc)  -- DEMOTE (R256)
  | release (src : JobSrc)  -- RELEASE (R244)
  | query (src : JobSrc)  -- QUERY (R246)
  | drain (src : JobSrc)  -- DRAIN (R262)
  | drainCancel (src : JobSrc)  -- DRAIN_CANCEL (R263)
  | flsEnable  -- FLS_ENABLE (R242)
  | epochEnd  -- EPOCH_END (R248)
  | moveStart  -- MOVE_START (R254)
  | moveSwitch (k : Fin 8)  -- MOVE_SWITCH (R253)
  | prefetchLate (obj : BitVec 16)  -- PREFETCH_LATE (R258)
  | wantedExpire (obj : BitVec 16)  -- WANTED_EXPIRE (R257)
  | waitingWriteResume  -- WAITING_WRITE_RESUME (R240)
  | drainComplete  -- DRAIN_COMPLETE (R263)
  | cartridgeFailure (m : Fin 6)  -- CARTRIDGE_FAILURE (R264)
  | stepAccept  -- STEP_ACCEPT (R268)
  | microbatchAdmit  -- MICROBATCH_ADMIT (R280)
  | instanceDispatch  -- INSTANCE_DISPATCH (R278)
  | instanceComplete (k : BitVec 16)  -- INSTANCE_COMPLETE (R278)
  | ringBlockSend (r : Fin 4)  -- RING_BLOCK_SEND (R288)
  | gatherIssue (e : BitVec 8)  -- GATHER_ISSUE (R286)
  | gatherLanded (e : BitVec 8)  -- GATHER_LANDED (R285)
  | queueSlotSend (q : Fin 8)  -- QUEUE_SLOT_SEND (R289)
  | stepComplete  -- STEP_COMPLETE (R293)
  | stepFail  -- STEP_FAIL (R294)
  | stallTimeout  -- STALL_TIMEOUT (R294)
  | runonExpire  -- RUNON_EXPIRE (R294)
  | trvAbort  -- TRV_ABORT (R296)
  | keeperStart (fresh : Bool) (table : BitVec 48)  -- KEEPER_START (R315)
  | keeperStop  -- KEEPER_STOP (R320)
  | keeperUpdate (peer : Bool) (i : Fin 8)  -- KEEPER_UPDATE (R316)
  | keeperPublish (peer : Bool)  -- KEEPER_PUBLISH (R316)
  | portTraining (port : Fin 8) (e : TrainEnd) (peer : Peer)  -- PORT_TRAINING (R324)
  | portRetrain (port : Fin 8)  -- PORT_RETRAIN (R325)
  | portRetry (port : Fin 8)  -- PORT_RETRY (R326)
  | portReset (port : Fin 8)  -- PORT_RESET (R326)
  | linkWrite (port : Fin 8) (k : InPacket)  -- LINK_WRITE (R337)
  | linkReadReq (port : Fin 8) (k : InPacket)  -- LINK_READ_REQ (R337)
  | linkReadResp (port : Fin 8) (k : InPacket)  -- LINK_READ_RESP (R343)
  | linkPost (port : Fin 8) (k : InPacket)  -- LINK_POST (R53)
  | linkDone (port : Fin 8) (k : InPacket)  -- LINK_DONE (R343)
  | packetForward (port : Fin 8) (kind : LinkKind) (k : InPacket)  -- PACKET_FORWARD (R331)
  | controlFlit (port : Fin 8) (credits : List (BitVec 7)) (ack : BitVec 12) (nak : Bool)  -- CONTROL_FLIT (R328)
  | controlFlitInsert (port : Fin 8)  -- CONTROL_FLIT_INSERT (R322)
  | cuEnable (unit : Fin 2)  -- CU_ENABLE (R341)
  | put (unit : Fin 2) (src : JobSrc)  -- PUT (R342)
  | get (unit : Fin 2) (src : JobSrc)  -- GET (R342)
  | gather (unit : Fin 2) (src : JobSrc)  -- GATHER (R342)
  | redscat (unit : Fin 2) (src : JobSrc) (opid : BitVec 32)  -- REDSCAT (R345)
  | dispatch (unit : Fin 2) (src : JobSrc)  -- DISPATCH (R342)
  | arbiterBeat (arb : Fin 110) (req : BitVec 8)  -- ARBITER_BEAT (R357)
  | arbiterDecision (arb : Fin 110) (rs : List ArbReq)  -- ARBITER_DECISION (R358)
  | grantWithdraw (arb : Fin 110)  -- GRANT_WITHDRAW (R362)
  | arbNextWrite (v : Word)  -- ARB_NEXT_WRITE (R366)
  | arbTableActivate (set : Fin 10)  -- ARB_TABLE_ACTIVATE (R366)
  | arbTableWrite (set : Fin 10) (t : Fin 4) (j : Fin 5) (v : Word)  -- ARB_TABLE_WRITE (R367)
  | hostLinkTrain (width : BitVec 8) (rate : BitVec 8) (flit : Bool) (cxl : Bool)  -- HOST_LINK_TRAIN (R391)
  | hostLinkReset (cause : Fin 3)  -- HOST_LINK_RESET (R416)
  | hostMemRead (line : BitVec 35) (intent : CacheIntent)  -- HOST_MEM_READ (R400)
  | hostMemWrite (line : BitVec 35) (data : List Byte)  -- HOST_MEM_WRITE (R400)
  | bisnpResponse (line : BitVec 35)  -- BISNP_RESPONSE (R399)
  | biTimeout  -- BI_TIMEOUT (R401)
  | doorbellWake (tail : Word) (head : Word)  -- DOORBELL_WAKE (R403)
  | ledgerNop (rec : List Word)  -- LEDGER_NOP (R405)
  | ledgerStep (rec : List Word)  -- LEDGER_STEP (R405)
  | ledgerWrite (rec : List Word)  -- LEDGER_WRITE (R405)
  | copyIn (rec : List Word) (data : List CopyPiece)  -- COPY_IN (R405)
  | copyOut (rec : List Word) (n : BitVec 16)  -- COPY_OUT (R405)
  | recordComplete  -- RECORD_COMPLETE (R407)
  | irqHoldoffExpire  -- IRQ_HOLDOFF_EXPIRE (R396)
  | uioWrite (addr : BitVec 48) (data : List Byte)  -- UIO_WRITE (R411)
  | uioRead (addr : BitVec 48) (len : BitVec 16)  -- UIO_READ (R411)
  | status  -- STATUS (R414)
  | attach (tail : Word) (head : Word)  -- ATTACH (R415)
  | detach  -- DETACH (R414)
  | selftest (failed : BitVec 28)  -- SELFTEST (R414)
  | retire  -- RETIRE (R414)
  | imgBegin  -- IMG_BEGIN (R432)
  | imgData  -- IMG_DATA (R432)
  | imgCommit (sigOk : Bool)  -- IMG_COMMIT (R432)
  | imageFlashWrite (sigOk : Bool) (readable : Bool)  -- IMAGE_FLASH_WRITE (R433)
  | attest (sig : List Byte)  -- ATTEST (R437)
  | bottomTreeBuild  -- BOTTOM_TREE_BUILD (R435)
  | coldRestart  -- COLD_RESTART (R414)
  | bypass (tdi : Word)  -- BYPASS (R438)
  | idcode  -- IDCODE (R438)
  | samplePreload (pins : Nat) (preload : Nat)  -- SAMPLE_PRELOAD (R438)
  | extest (pins : Nat) (preload : Nat)  -- EXTEST (R438)
  | jtagPrivateAccess (addr : BitVec 48) (write : Option Word)  -- JTAG_PRIVATE_ACCESS (R440)
  | debugDataAccess (write : Option Word)  -- DEBUG_DATA_ACCESS (R439)
  | powerOn (auxAbsent : Bool)  -- POWER_ON (R446)
  | pwrRstNAssert  -- PWR_RST_N_ASSERT (R446)
  | coldBoot (c : BootCheck)  -- COLD_BOOT (R431)
  | referenceLoss  -- REFERENCE_LOSS (R445)
  | railUndervoltage (rail : BitVec 4)  -- RAIL_UNDERVOLTAGE (R460)
  | coreResetLevel (mv : BitVec 16)  -- CORE_RESET_LEVEL (R459)
  | dipStart (mv : BitVec 16)  -- DIP_START (R456)
  | dipEnd (minMv : BitVec 16) (mv : BitVec 16)  -- DIP_END (R457)
  | brownRelease  -- BROWN_RELEASE (R458)
  | pstateRequest (req : BitVec 2)  -- PSTATE_REQUEST (R454)
  | dozeEntry  -- DOZE_ENTRY (R454)
  | keepEntry  -- KEEP_ENTRY (R455)
  | powerStateExit  -- POWER_STATE_EXIT (R455)
  | governorInterval (g : GovSample)  -- GOVERNOR_INTERVAL (R464)
  | iccExcess (ma : BitVec 24)  -- ICC_EXCESS (R464)
  | govLimitWrite (therm : Bool) (v : Word)  -- GOV_LIMIT_WRITE (R462)
  | thermalTrip (logic : BitVec 12) (dram : BitVec 12)  -- THERMAL_TRIP (R465)
  | slotButtonPress (m : Fin 6)  -- SLOT_BUTTON_PRESS (R471)
  | latchClose (m : Fin 6)  -- LATCH_CLOSE (R473)
  | cartridgeAddComplete (m : Fin 6) (c128 : Bool)  -- CARTRIDGE_ADD_COMPLETE (R473)
  | cartridgeAddFail (m : Fin 6) (cause : Fin 4)  -- CARTRIDGE_ADD_FAIL (R474)
  | latchOpen (m : Fin 6)  -- LATCH_OPEN (R472)
  | cartridgeRemoved (m : Fin 6)  -- CARTRIDGE_REMOVED (R472)
  | deviceButtonPress (partnerPaired : Bool) (partnerHeld : Bool)  -- DEVICE_BUTTON_PRESS (R475)
  | twinPairing (p : Partner)  -- TWIN_PAIRING (R477)
  | mirrorCopy  -- MIRROR_COPY (R478)
  | markReceive (stamp : BitVec 32) (handover : Bool)  -- MARK_RECEIVE (R480)
  | commitAck  -- COMMIT_ACK (R480)
  | heartbeatSend  -- HEARTBEAT_SEND (R481)
  | heartbeatReceive (st : BitVec 3)  -- HEARTBEAT_RECEIVE (R481)
  | heartbeatTimeout  -- HEARTBEAT_TIMEOUT (R481)
  | twinTakeover  -- TWIN_TAKEOVER (R481)
  | handoverMark  -- HANDOVER_MARK (R482)
  | handoverComplete  -- HANDOVER_COMPLETE (R482)
  | resyncStart (p : Partner)  -- RESYNC_START (R483)
  | resyncFinish  -- RESYNC_FINISH (R483)
  | hWgComplete (hel : Fin 1152) (slot : Fin 8)  -- H_WG_COMPLETE (R220)
  | buttonRelease (which : Fin 7)  -- BUTTON_RELEASE (R467)
  | cartridgeInserted (m : Fin 6)  -- CARTRIDGE_INSERTED (R467)
  | codePatternEnd (which : Fin 7)  -- CODE_PATTERN_END (R468)
  deriving DecidableEq, Repr

end Sys2Proof
end

