-- ==== Sys2Proof/Decode.lean ====
section
/-! DEFINITION. The reading of command words by the operation table's bits. The table gives no row any bits: its rows are operations and events of a block, so no word spells a command. -/

namespace Sys2Proof

/-- The command that a word spells by the table's bits: none, since the table gives no bits. -/
def decodeTableWord (_nbits _w : Nat) : Option Instr := none

end Sys2Proof
end

