-- ==== Sys2Proof/Machine/Bits.lean ====
section
/-! DEFINITION. Bit fields, byte order (little-endian, R36, R101, R133), sign extension, the CRC-32C check (R370) and lane lists. -/

namespace Sys2Proof.Machine

open Sys2Proof

/-- Bits `hi` down to `lo` of a number, right-aligned (the `[hi:lo]` of R5). -/
def bits (x hi lo : Nat) : Nat := x / 2 ^ lo % 2 ^ (hi + 1 - lo)

/-- One bit of a number as a truth value. -/
def bit (x i : Nat) : Bool := x / 2 ^ i % 2 == 1

/-- `x` with bits `hi` down to `lo` replaced by the low bits of `v`. -/
def setBits (x hi lo v : Nat) : Nat :=
  x - bits x hi lo * 2 ^ lo + v % 2 ^ (hi + 1 - lo) * 2 ^ lo

/-- 1 for true, 0 for false: a one-bit field's value. -/
def b2n (b : Bool) : Nat := if b then 1 else 0

/-- The two's-complement value of the low `w` bits of `x`. -/
def signedOf (w x : Nat) : Int :=
  let y := x % 2 ^ w
  if y < 2 ^ (w - 1) then (y : Int) else (y : Int) - 2 ^ w

/-- The low `w` bits of an integer in two's complement, as a number. -/
def wrap (w : Nat) (x : Int) : Nat := (x % (2 ^ w : Int)).toNat

/-- The sum of a counter and `n`, saturating at `2^w - 1`. -/
def satAdd (w x n : Nat) : Nat := if x + n < 2 ^ w then x + n else 2 ^ w - 1

/-- The number in a little-endian byte list. -/
def leNat : List Byte → Nat
  | [] => 0
  | b :: bs => b.toNat + 256 * leNat bs

/-- The `n` low bytes of a number, little-endian. -/
def leBytes : Nat → Nat → List Byte
  | 0, _ => []
  | n + 1, x => BitVec.ofNat 8 x :: leBytes n (x / 256)

/-- 64-bit word `i` of a byte list holding little-endian words. -/
def wordAt (bs : List Byte) (i : Nat) : Nat := leNat ((bs.drop (8 * i)).take 8)

/-- A list of numbers as little-endian 64-bit words. -/
def wordsToBytes (ws : List Nat) : List Byte := ws.flatMap (leBytes 8)

/-- `n` copies of a zero byte. -/
def zeroBytes (n : Nat) : List Byte := List.replicate n 0

/-- One bit step of the reflected CRC-32C (polynomial 0x1EDC_6F41, R370). -/
def crcStep (c : BitVec 32) : BitVec 32 :=
  if c.getLsbD 0 then (c >>> 1) ^^^ 0x82F63B78#32 else c >>> 1

/-- One byte of the reflected CRC-32C (R370). -/
def crcByte (c : BitVec 32) (b : Byte) : BitVec 32 :=
  let x := c ^^^ b.setWidth 32
  crcStep (crcStep (crcStep (crcStep (crcStep (crcStep (crcStep (crcStep x)))))))

/-- The CRC-32C of a byte list in address order (R370). -/
def crc32c (bs : List Byte) : BitVec 32 :=
  (bs.foldl crcByte 0xFFFFFFFF#32) ^^^ 0xFFFFFFFF#32

/-- A 128-lane vector built lane by lane. -/
def mkLanes (f : Nat → Lane) : Lanes := ⟨⟨(List.range 128).map f⟩, by simp⟩

/-- Lane `i` of a vector register. -/
def lane (v : Lanes) (i : Nat) : Lane := v.toList.getD i 0

/-- A 16-lane helictite vector built lane by lane. -/
def mkHLanes (f : Nat → Lane) : HLanes := ⟨⟨(List.range 16).map f⟩, by simp⟩

/-- Lane `i` of a helictite vector register. -/
def hlane (v : HLanes) (i : Nat) : Lane := v.toList.getD i 0

/-- The smallest `i < n` that satisfies `p`. -/
def firstBelow (n : Nat) (p : Nat → Bool) : Option Nat := (List.range n).find? p

/-- Ceiling division. -/
def cdiv (a b : Nat) : Nat := (a + b - 1) / b

end Sys2Proof.Machine
end

