-- ==== Sys2Proof/Machine/Map.lean ====
section
/-! DEFINITION. Sparse data by key: lists of pairs with strictly rising keys, no entry equal to the default, and the byte memories built from them. -/

namespace Sys2Proof.Machine

open Sys2Proof

/-- Sparse data by key, in strictly rising key order. -/
abbrev Map (α : Type) := List (Nat × α)

/-- The entry stored at a key, if there is one. -/
def mapFind {α : Type} : Map α → Nat → Option α
  | [], _ => none
  | (k, v) :: m, key => if k = key then some v else mapFind m key

/-- The value at a key; `d` where the map lists nothing. -/
def mapGet {α : Type} (d : α) (m : Map α) (key : Nat) : α := (mapFind m key).getD d

/-- The map without its entry at a key. -/
def mapErase {α : Type} : Map α → Nat → Map α
  | [], _ => []
  | (k, v) :: m, key => if k = key then mapErase m key else (k, v) :: mapErase m key

/-- The map with an entry put at a key, in key order. -/
def mapInsert {α : Type} : Map α → Nat → α → Map α
  | [], key, x => [(key, x)]
  | (k, v) :: m, key, x =>
    if key < k then (key, x) :: (k, v) :: m
    else if key = k then (key, x) :: m
    else (k, v) :: mapInsert m key x

/-- The map with the value at a key changed; writing the default removes the entry, so equal contents are equal lists. -/
def mapSet {α : Type} [DecidableEq α] (d : α) (m : Map α) (key : Nat) (x : α) : Map α :=
  if x = d then mapErase m key else mapInsert m key x

/-- Every key of the map lies above `lo`, and the keys rise strictly. -/
def mapAbove {α : Type} : Nat → Map α → Bool
  | _, [] => true
  | lo, (k, _) :: m => decide (lo < k) && mapAbove k m

/-- The keys of the map rise strictly. -/
def mapSorted {α : Type} : Map α → Bool
  | [] => true
  | (k, _) :: m => mapAbove k m

/-- No entry of the map equals the default. -/
def mapNoDefault {α : Type} [DecidableEq α] (d : α) (m : Map α) : Bool := m.all fun e => decide (e.2 ≠ d)

/-- A byte memory: the listed bytes differ from what an unlisted address reads as, which is 0
(zero pages of R238, memories cleared at cold start under R214 and R450). -/
abbrev Memory := List Host.Cell

/-- What an unlisted address of a memory reads as. -/
def Memory.unlisted : Byte := 0

/-- The canonical form of a memory: addresses strictly rising, no entry equal to the unlisted byte. -/
def Memory.wf (m : Memory) : Bool := mapSorted m && mapNoDefault Memory.unlisted m

/-- One byte of a memory. -/
def memByte (m : Memory) (a : Nat) : Byte := mapGet Memory.unlisted m a

/-- A memory with one byte written. -/
def memSet (m : Memory) (a : Nat) (b : Byte) : Memory := mapSet Memory.unlisted m a b

/-- `n` bytes of a memory from address `a`. -/
def memRead (m : Memory) (a n : Nat) : List Byte := (List.range n).map fun i => memByte m (a + i)

/-- A memory with a byte list written from address `a`. -/
def memWrite : Memory → Nat → List Byte → Memory
  | m, _, [] => m
  | m, a, b :: bs => memWrite (memSet m a b) (a + 1) bs

/-- A memory with every byte in `[a, a + n)` zero. -/
def memClear (m : Memory) (a n : Nat) : Memory := m.filter fun e => e.1 < a || a + n ≤ e.1

/-- A little-endian number of `n` bytes in a memory. -/
def memNat (m : Memory) (a n : Nat) : Nat := leNat (memRead m a n)

end Sys2Proof.Machine
end

