-- ==== Sys2Proof/Machine/Regs.lean ====
section
/-! DEFINITION. The register map (R18, and the register tables of every chapter): the named fields of each register, and the layout the generic register access walks. -/

namespace Sys2Proof.Machine

/-- A field of a register: the register's offset in register space, the field's lowest bit and its width. -/
structure FieldRef where
  off : Nat
  lo  : Nat
  w   : Nat
  deriving DecidableEq, Repr

/-- The key under which a field's value is held: no two fields of the map share one, since a register has 64 bits. -/
def FieldRef.key (f : FieldRef) : Nat := f.off * 64 + f.lo

/-- The access codes of R7. -/
inductive Access where
  | rw | ro | wo | w1c | w1s | rwo
  deriving DecidableEq, Repr

/-- The Reset column of R9. -/
inductive ResetValue where
  | value (n : Nat) | fuse | image
  deriving DecidableEq, Repr

/-- The resets of R10, by the letters C, H, E, P, K and T. -/
inductive ResetKind where
  | cold | hostLink | chamber | port | cartridge | takeover
  deriving DecidableEq, Repr

/-- A field as a register table gives it: place, width, access, reset and the resets it is kept over. -/
structure FieldDesc where
  lo   : Nat
  w    : Nat
  acc  : Access
  rst  : ResetValue
  kept : List ResetKind
  deriving DecidableEq, Repr

/-- A register, or an array of registers: base offset, the stride and count of each index (widest first), its fields. -/
structure RegDesc where
  base   : Nat
  dims   : List (Nat × Nat)
  fields : List FieldDesc
  deriving DecidableEq, Repr

/-- Kept over chamber, port, cartridge, takeover (R10). -/
def keptEPKT : List ResetKind := [.chamber, .port, .cartridge, .takeover]
/-- Kept over hostLink, chamber, cartridge, takeover (R10). -/
def keptHEKT : List ResetKind := [.hostLink, .chamber, .cartridge, .takeover]
/-- Kept over hostLink, chamber, port, cartridge, takeover (R10). -/
def keptHEPKT : List ResetKind := [.hostLink, .chamber, .port, .cartridge, .takeover]
/-- Kept over hostLink, chamber, port, takeover (R10). -/
def keptHEPT : List ResetKind := [.hostLink, .chamber, .port, .takeover]
/-- Kept over hostLink, port, cartridge, takeover (R10). -/
def keptHPKT : List ResetKind := [.hostLink, .port, .cartridge, .takeover]
/-- Kept over no reset (R10). -/
def keptNone : List ResetKind := []

-- GLB_ID: part identity and build figures (01_device_overview.md)
def Reg.GLB_ID_CH_BUILT : FieldRef := ⟨0x0, 32, 8⟩
def Reg.GLB_ID_LAYERS : FieldRef := ⟨0x0, 24, 4⟩
def Reg.GLB_ID_STEPPING : FieldRef := ⟨0x0, 16, 8⟩
def Reg.GLB_ID_PART : FieldRef := ⟨0x0, 0, 16⟩
-- GLB_CHMAP: enabled and retired chambers (01_device_overview.md)
def Reg.GLB_CHMAP_RETIRED : FieldRef := ⟨0x8, 32, 28⟩
def Reg.GLB_CHMAP_ENABLED : FieldRef := ⟨0x8, 0, 28⟩
-- GLB_ROLE: role and twin position (01_device_overview.md)
def Reg.GLB_ROLE_SERVED : FieldRef := ⟨0x10, 12, 4⟩
def Reg.GLB_ROLE_ALONE : FieldRef := ⟨0x10, 3, 1⟩
def Reg.GLB_ROLE_SIDE : FieldRef := ⟨0x10, 2, 1⟩
def Reg.GLB_ROLE_TWIN : FieldRef := ⟨0x10, 1, 1⟩
def Reg.GLB_ROLE_KEEPER : FieldRef := ⟨0x10, 0, 1⟩
-- CHn_CTL: start, stop and reset (02_chambers.md)
def Reg.CHn_CTL_START_PC (n : Nat) : FieldRef := ⟨0x1000000 + 0x100000 * n, 32, 12⟩
def Reg.CHn_CTL_RESET (n : Nat) : FieldRef := ⟨0x1000000 + 0x100000 * n, 2, 1⟩
def Reg.CHn_CTL_STOP (n : Nat) : FieldRef := ⟨0x1000000 + 0x100000 * n, 1, 1⟩
def Reg.CHn_CTL_START (n : Nat) : FieldRef := ⟨0x1000000 + 0x100000 * n, 0, 1⟩
-- CHn_STATUS: state and identity of the chamber (02_chambers.md)
def Reg.CHn_STATUS_LOGICAL (n : Nat) : FieldRef := ⟨0x1000008 + 0x100000 * n, 32, 5⟩
def Reg.CHn_STATUS_RETIRE_PENDING (n : Nat) : FieldRef := ⟨0x1000008 + 0x100000 * n, 28, 1⟩
def Reg.CHn_STATUS_PC (n : Nat) : FieldRef := ⟨0x1000008 + 0x100000 * n, 16, 12⟩
def Reg.CHn_STATUS_STATE (n : Nat) : FieldRef := ⟨0x1000008 + 0x100000 * n, 0, 3⟩
-- CHn_CAP: chamber capability (02_chambers.md)
def Reg.CHn_CAP_EUCEN_REV (n : Nat) : FieldRef := ⟨0x1000010 + 0x100000 * n, 48, 8⟩
def Reg.CHn_CAP_COLS16_B (n : Nat) : FieldRef := ⟨0x1000010 + 0x100000 * n, 40, 8⟩
def Reg.CHn_CAP_COLS16_A (n : Nat) : FieldRef := ⟨0x1000010 + 0x100000 * n, 32, 8⟩
def Reg.CHn_CAP_LMEM_MIB (n : Nat) : FieldRef := ⟨0x1000010 + 0x100000 * n, 24, 8⟩
def Reg.CHn_CAP_LMEM_BANKS (n : Nat) : FieldRef := ⟨0x1000010 + 0x100000 * n, 16, 8⟩
def Reg.CHn_CAP_BUNDLES (n : Nat) : FieldRef := ⟨0x1000010 + 0x100000 * n, 0, 16⟩
-- CHn_HALT: cause and place of the last halt (02_chambers.md)
def Reg.CHn_HALT_SLOT (n : Nat) : FieldRef := ⟨0x1000018 + 0x100000 * n, 48, 3⟩
def Reg.CHn_HALT_NEXT_PC (n : Nat) : FieldRef := ⟨0x1000018 + 0x100000 * n, 32, 12⟩
def Reg.CHn_HALT_FAULT_PC (n : Nat) : FieldRef := ⟨0x1000018 + 0x100000 * n, 16, 12⟩
def Reg.CHn_HALT_TAG (n : Nat) : FieldRef := ⟨0x1000018 + 0x100000 * n, 8, 3⟩
def Reg.CHn_HALT_CAUSE (n : Nat) : FieldRef := ⟨0x1000018 + 0x100000 * n, 0, 8⟩
-- CHn_EXC: sticky arithmetic flags (02_chambers.md)
def Reg.CHn_EXC_RERUN (n : Nat) : FieldRef := ⟨0x1000020 + 0x100000 * n, 3, 1⟩
def Reg.CHn_EXC_FLUSH (n : Nat) : FieldRef := ⟨0x1000020 + 0x100000 * n, 2, 1⟩
def Reg.CHn_EXC_OVERFLOW (n : Nat) : FieldRef := ⟨0x1000020 + 0x100000 * n, 1, 1⟩
def Reg.CHn_EXC_INVALID (n : Nat) : FieldRef := ⟨0x1000020 + 0x100000 * n, 0, 1⟩
-- CHn_EXC_TRAP: trap enables (02_chambers.md)
def Reg.CHn_EXC_TRAP_FLUSH (n : Nat) : FieldRef := ⟨0x1000028 + 0x100000 * n, 2, 1⟩
def Reg.CHn_EXC_TRAP_OVERFLOW (n : Nat) : FieldRef := ⟨0x1000028 + 0x100000 * n, 1, 1⟩
def Reg.CHn_EXC_TRAP_INVALID (n : Nat) : FieldRef := ⟨0x1000028 + 0x100000 * n, 0, 1⟩
-- CHn_WAIT_LIMIT: wait timeout (02_chambers.md)
def Reg.CHn_WAIT_LIMIT_LIMIT_US (n : Nat) : FieldRef := ⟨0x1000030 + 0x100000 * n, 0, 32⟩
-- CHn_VIOL_COUNT: silent violations by this chamber (02_chambers.md)
def Reg.CHn_VIOL_COUNT_COUNT (n : Nat) : FieldRef := ⟨0x1000038 + 0x100000 * n, 0, 32⟩
-- CHn_LMEM_ERR: memory error counts (02_chambers.md)
def Reg.CHn_LMEM_ERR_UNCORRECTED (n : Nat) : FieldRef := ⟨0x1000040 + 0x100000 * n, 24, 8⟩
def Reg.CHn_LMEM_ERR_WORST_BANK (n : Nat) : FieldRef := ⟨0x1000040 + 0x100000 * n, 16, 6⟩
def Reg.CHn_LMEM_ERR_CORRECTED (n : Nat) : FieldRef := ⟨0x1000040 + 0x100000 * n, 0, 16⟩
-- GLB_SIGn: signal word n, n = 0..4,095 (02_chambers.md)
def Reg.GLB_SIGn_VALUE (n : Nat) : FieldRef := ⟨0x80000 + 8 * n, 0, 64⟩
-- CHn_ARR_CYC_A: vectors entered into array A (03_matrix_arrays.md)
def Reg.CHn_ARR_CYC_A_COUNT (n : Nat) : FieldRef := ⟨0x1000100 + 0x100000 * n, 0, 64⟩
-- CHn_ARR_CYC_B: vectors entered into array B (03_matrix_arrays.md)
def Reg.CHn_ARR_CYC_B_COUNT (n : Nat) : FieldRef := ⟨0x1000108 + 0x100000 * n, 0, 64⟩
-- CHn_FEED_STALL_A: feeder stalls of array A (03_matrix_arrays.md)
def Reg.CHn_FEED_STALL_A_COUNT (n : Nat) : FieldRef := ⟨0x1000110 + 0x100000 * n, 0, 64⟩
-- CHn_FEED_STALL_B: feeder stalls of array B (03_matrix_arrays.md)
def Reg.CHn_FEED_STALL_B_COUNT (n : Nat) : FieldRef := ⟨0x1000118 + 0x100000 * n, 0, 64⟩
-- CHn_WGT_WAIT: swaps waiting for weights (03_matrix_arrays.md)
def Reg.CHn_WGT_WAIT_COUNT (n : Nat) : FieldRef := ⟨0x1000120 + 0x100000 * n, 0, 64⟩
-- CHn_SWAP_COUNT: swaps performed (03_matrix_arrays.md)
def Reg.CHn_SWAP_COUNT_COUNT (n : Nat) : FieldRef := ⟨0x1000128 + 0x100000 * n, 0, 64⟩
-- CHn_MASKED_ROWS: rows skipped by masking (03_matrix_arrays.md)
def Reg.CHn_MASKED_ROWS_COUNT (n : Nat) : FieldRef := ⟨0x1000130 + 0x100000 * n, 0, 64⟩
-- CHn_WTILE: weight buffer state (03_matrix_arrays.md)
def Reg.CHn_WTILE_BANDS (n : Nat) : FieldRef := ⟨0x1000138 + 0x100000 * n, 32, 32⟩
def Reg.CHn_WTILE_SHADOW (n : Nat) : FieldRef := ⟨0x1000138 + 0x100000 * n, 12, 2⟩
def Reg.CHn_WTILE_SHADOW_TYPE (n : Nat) : FieldRef := ⟨0x1000138 + 0x100000 * n, 8, 4⟩
def Reg.CHn_WTILE_UNLOADED (n : Nat) : FieldRef := ⟨0x1000138 + 0x100000 * n, 5, 1⟩
def Reg.CHn_WTILE_VALID (n : Nat) : FieldRef := ⟨0x1000138 + 0x100000 * n, 4, 1⟩
def Reg.CHn_WTILE_TYPE (n : Nat) : FieldRef := ⟨0x1000138 + 0x100000 * n, 0, 4⟩
-- CHn_BYPASS: bypassed columns (03_matrix_arrays.md)
def Reg.CHn_BYPASS_B3_V (n : Nat) : FieldRef := ⟨0x1000140 + 0x100000 * n, 63, 1⟩
def Reg.CHn_BYPASS_B3 (n : Nat) : FieldRef := ⟨0x1000140 + 0x100000 * n, 56, 7⟩
def Reg.CHn_BYPASS_B2_V (n : Nat) : FieldRef := ⟨0x1000140 + 0x100000 * n, 55, 1⟩
def Reg.CHn_BYPASS_B2 (n : Nat) : FieldRef := ⟨0x1000140 + 0x100000 * n, 48, 7⟩
def Reg.CHn_BYPASS_B1_V (n : Nat) : FieldRef := ⟨0x1000140 + 0x100000 * n, 47, 1⟩
def Reg.CHn_BYPASS_B1 (n : Nat) : FieldRef := ⟨0x1000140 + 0x100000 * n, 40, 7⟩
def Reg.CHn_BYPASS_B0_V (n : Nat) : FieldRef := ⟨0x1000140 + 0x100000 * n, 39, 1⟩
def Reg.CHn_BYPASS_B0 (n : Nat) : FieldRef := ⟨0x1000140 + 0x100000 * n, 32, 7⟩
def Reg.CHn_BYPASS_A3_V (n : Nat) : FieldRef := ⟨0x1000140 + 0x100000 * n, 31, 1⟩
def Reg.CHn_BYPASS_A3 (n : Nat) : FieldRef := ⟨0x1000140 + 0x100000 * n, 24, 7⟩
def Reg.CHn_BYPASS_A2_V (n : Nat) : FieldRef := ⟨0x1000140 + 0x100000 * n, 23, 1⟩
def Reg.CHn_BYPASS_A2 (n : Nat) : FieldRef := ⟨0x1000140 + 0x100000 * n, 16, 7⟩
def Reg.CHn_BYPASS_A1_V (n : Nat) : FieldRef := ⟨0x1000140 + 0x100000 * n, 15, 1⟩
def Reg.CHn_BYPASS_A1 (n : Nat) : FieldRef := ⟨0x1000140 + 0x100000 * n, 8, 7⟩
def Reg.CHn_BYPASS_A0_V (n : Nat) : FieldRef := ⟨0x1000140 + 0x100000 * n, 7, 1⟩
def Reg.CHn_BYPASS_A0 (n : Nat) : FieldRef := ⟨0x1000140 + 0x100000 * n, 0, 7⟩
-- CHn_ACC_ERR: accumulator and weight-buffer error counts (03_matrix_arrays.md)
def Reg.CHn_ACC_ERR_UNCORRECTED (n : Nat) : FieldRef := ⟨0x1000148 + 0x100000 * n, 24, 8⟩
def Reg.CHn_ACC_ERR_CORRECTED (n : Nat) : FieldRef := ⟨0x1000148 + 0x100000 * n, 0, 24⟩
-- CHn_TSW_A: tile status of array A (04_arithmetic.md)
def Reg.CHn_TSW_A_ECC_ROW (n : Nat) : FieldRef := ⟨0x1000048 + 0x100000 * n, 32, 10⟩
def Reg.CHn_TSW_A_ECC (n : Nat) : FieldRef := ⟨0x1000048 + 0x100000 * n, 31, 1⟩
def Reg.CHn_TSW_A_RERUN_K (n : Nat) : FieldRef := ⟨0x1000048 + 0x100000 * n, 26, 5⟩
def Reg.CHn_TSW_A_RERUN (n : Nat) : FieldRef := ⟨0x1000048 + 0x100000 * n, 25, 1⟩
def Reg.CHn_TSW_A_OVERFLOW (n : Nat) : FieldRef := ⟨0x1000048 + 0x100000 * n, 24, 1⟩
def Reg.CHn_TSW_A_FLUSH (n : Nat) : FieldRef := ⟨0x1000048 + 0x100000 * n, 23, 1⟩
def Reg.CHn_TSW_A_NAN (n : Nat) : FieldRef := ⟨0x1000048 + 0x100000 * n, 22, 1⟩
def Reg.CHn_TSW_A_INF (n : Nat) : FieldRef := ⟨0x1000048 + 0x100000 * n, 21, 1⟩
def Reg.CHn_TSW_A_INVALID (n : Nat) : FieldRef := ⟨0x1000048 + 0x100000 * n, 20, 1⟩
def Reg.CHn_TSW_A_INV_COL (n : Nat) : FieldRef := ⟨0x1000048 + 0x100000 * n, 10, 8⟩
def Reg.CHn_TSW_A_INV_ROW (n : Nat) : FieldRef := ⟨0x1000048 + 0x100000 * n, 0, 10⟩
-- CHn_TSW_B: tile status of array B (04_arithmetic.md)
def Reg.CHn_TSW_B_ECC_ROW (n : Nat) : FieldRef := ⟨0x1000050 + 0x100000 * n, 32, 10⟩
def Reg.CHn_TSW_B_ECC (n : Nat) : FieldRef := ⟨0x1000050 + 0x100000 * n, 31, 1⟩
def Reg.CHn_TSW_B_RERUN_K (n : Nat) : FieldRef := ⟨0x1000050 + 0x100000 * n, 26, 5⟩
def Reg.CHn_TSW_B_RERUN (n : Nat) : FieldRef := ⟨0x1000050 + 0x100000 * n, 25, 1⟩
def Reg.CHn_TSW_B_OVERFLOW (n : Nat) : FieldRef := ⟨0x1000050 + 0x100000 * n, 24, 1⟩
def Reg.CHn_TSW_B_FLUSH (n : Nat) : FieldRef := ⟨0x1000050 + 0x100000 * n, 23, 1⟩
def Reg.CHn_TSW_B_NAN (n : Nat) : FieldRef := ⟨0x1000050 + 0x100000 * n, 22, 1⟩
def Reg.CHn_TSW_B_INF (n : Nat) : FieldRef := ⟨0x1000050 + 0x100000 * n, 21, 1⟩
def Reg.CHn_TSW_B_INVALID (n : Nat) : FieldRef := ⟨0x1000050 + 0x100000 * n, 20, 1⟩
def Reg.CHn_TSW_B_INV_COL (n : Nat) : FieldRef := ⟨0x1000050 + 0x100000 * n, 10, 8⟩
def Reg.CHn_TSW_B_INV_ROW (n : Nat) : FieldRef := ⟨0x1000050 + 0x100000 * n, 0, 10⟩
-- CHn_RGNi_LO: region i bounds, i = 0..255 (05_tensor_addressing.md)
def Reg.CHn_RGNi_LO_LIMIT (n i : Nat) : FieldRef := ⟨0x1001000 + 0x100000 * n + 0x10 * i, 32, 32⟩
def Reg.CHn_RGNi_LO_BASE (n i : Nat) : FieldRef := ⟨0x1001000 + 0x100000 * n + 0x10 * i, 0, 32⟩
-- CHn_RGNi_HI: region i translation and permissions, i = 0..255 (05_tensor_addressing.md)
def Reg.CHn_RGNi_HI_VALID (n i : Nat) : FieldRef := ⟨0x1001008 + 0x100000 * n + 0x10 * i, 63, 1⟩
def Reg.CHn_RGNi_HI_RD (n i : Nat) : FieldRef := ⟨0x1001008 + 0x100000 * n + 0x10 * i, 62, 1⟩
def Reg.CHn_RGNi_HI_WR (n i : Nat) : FieldRef := ⟨0x1001008 + 0x100000 * n + 0x10 * i, 61, 1⟩
def Reg.CHn_RGNi_HI_TARGET (n i : Nat) : FieldRef := ⟨0x1001008 + 0x100000 * n + 0x10 * i, 0, 32⟩
-- CHn_VIOL_LAST: last counted violation of this chamber (05_tensor_addressing.md)
def Reg.CHn_VIOL_LAST_VALID (n : Nat) : FieldRef := ⟨0x1000058 + 0x100000 * n, 63, 1⟩
def Reg.CHn_VIOL_LAST_KIND (n : Nat) : FieldRef := ⟨0x1000058 + 0x100000 * n, 52, 4⟩
def Reg.CHn_VIOL_LAST_ADDR (n : Nat) : FieldRef := ⟨0x1000058 + 0x100000 * n, 0, 48⟩
-- SIP_CTL: enable and job signal (06_sparsity_and_siphon.md)
def Reg.SIP_CTL_JOB_SIG : FieldRef := ⟨0x3800000, 32, 12⟩
def Reg.SIP_CTL_ENABLE : FieldRef := ⟨0x3800000, 0, 1⟩
-- SIP_RING: job ring (06_sparsity_and_siphon.md)
def Reg.SIP_RING_ENTRIES_M1 : FieldRef := ⟨0x3800008, 48, 16⟩
def Reg.SIP_RING_BASE : FieldRef := ⟨0x3800008, 0, 48⟩
-- SIP_MODE: default sump mode (06_sparsity_and_siphon.md)
def Reg.SIP_MODE_MODE : FieldRef := ⟨0x3800010, 0, 2⟩
-- SIP_PROGRESS: job counters (06_sparsity_and_siphon.md)
def Reg.SIP_PROGRESS_COMBINE_DONE : FieldRef := ⟨0x3800018, 32, 32⟩
def Reg.SIP_PROGRESS_ROUTE_DONE : FieldRef := ⟨0x3800018, 0, 32⟩
-- SIP_FLAGS: sticky combine flags (06_sparsity_and_siphon.md)
def Reg.SIP_FLAGS_FLUSH : FieldRef := ⟨0x3800020, 2, 1⟩
def Reg.SIP_FLAGS_OVERFLOW : FieldRef := ⟨0x3800020, 1, 1⟩
def Reg.SIP_FLAGS_INVALID : FieldRef := ⟨0x3800020, 0, 1⟩
-- SIP_DROP_COUNT: dropped pairs (06_sparsity_and_siphon.md)
def Reg.SIP_DROP_COUNT_COUNT : FieldRef := ⟨0x3800028, 0, 64⟩
-- SIP_DEFER_COUNT: deferred pairs (06_sparsity_and_siphon.md)
def Reg.SIP_DEFER_COUNT_COUNT : FieldRef := ⟨0x3800030, 0, 64⟩
-- SIP_SECOND_COUNT: wave-2 pairs (06_sparsity_and_siphon.md)
def Reg.SIP_SECOND_COUNT_COUNT : FieldRef := ⟨0x3800038, 0, 64⟩
-- SIP_BADLOGIT_COUNT: ineligible keys (06_sparsity_and_siphon.md)
def Reg.SIP_BADLOGIT_COUNT_COUNT : FieldRef := ⟨0x3800040, 0, 64⟩
-- SIP_UNROUTED_COUNT: unrouted tokens (06_sparsity_and_siphon.md)
def Reg.SIP_UNROUTED_COUNT_COUNT : FieldRef := ⟨0x3800048, 0, 64⟩
-- SIP_LAST_ERR: last failed job (06_sparsity_and_siphon.md)
def Reg.SIP_LAST_ERR_JOB : FieldRef := ⟨0x3800050, 32, 32⟩
def Reg.SIP_LAST_ERR_ENGINE : FieldRef := ⟨0x3800050, 8, 1⟩
def Reg.SIP_LAST_ERR_STATUS : FieldRef := ⟨0x3800050, 0, 8⟩
-- CHn_XC_CTL: coder enable and job signal (07_weight_compression.md)
def Reg.CHn_XC_CTL_JOB_SIG (n : Nat) : FieldRef := ⟨0x1000200 + 0x100000 * n, 32, 12⟩
def Reg.CHn_XC_CTL_ENABLE (n : Nat) : FieldRef := ⟨0x1000200 + 0x100000 * n, 0, 1⟩
-- CHn_XC_RING: coder job ring (07_weight_compression.md)
def Reg.CHn_XC_RING_ENTRIES_M1 (n : Nat) : FieldRef := ⟨0x1000208 + 0x100000 * n, 48, 16⟩
def Reg.CHn_XC_RING_BASE (n : Nat) : FieldRef := ⟨0x1000208 + 0x100000 * n, 0, 48⟩
-- CHn_XC_PROGRESS: coder progress (07_weight_compression.md)
def Reg.CHn_XC_PROGRESS_LAST_STATUS (n : Nat) : FieldRef := ⟨0x1000210 + 0x100000 * n, 32, 8⟩
def Reg.CHn_XC_PROGRESS_DONE (n : Nat) : FieldRef := ⟨0x1000210 + 0x100000 * n, 0, 32⟩
-- CHn_XT_SLOT0: table slot 0 (07_weight_compression.md)
def Reg.CHn_XT_SLOT0_TABLE_ID (n : Nat) : FieldRef := ⟨0x1000218 + 0x100000 * n, 32, 16⟩
def Reg.CHn_XT_SLOT0_NSYM (n : Nat) : FieldRef := ⟨0x1000218 + 0x100000 * n, 8, 4⟩
def Reg.CHn_XT_SLOT0_TYPE (n : Nat) : FieldRef := ⟨0x1000218 + 0x100000 * n, 4, 4⟩
def Reg.CHn_XT_SLOT0_QUEUED (n : Nat) : FieldRef := ⟨0x1000218 + 0x100000 * n, 2, 1⟩
def Reg.CHn_XT_SLOT0_PENDING (n : Nat) : FieldRef := ⟨0x1000218 + 0x100000 * n, 1, 1⟩
def Reg.CHn_XT_SLOT0_VALID (n : Nat) : FieldRef := ⟨0x1000218 + 0x100000 * n, 0, 1⟩
-- CHn_XT_SLOT1: table slot 1 (07_weight_compression.md)
def Reg.CHn_XT_SLOT1_TABLE_ID (n : Nat) : FieldRef := ⟨0x1000220 + 0x100000 * n, 32, 16⟩
def Reg.CHn_XT_SLOT1_NSYM (n : Nat) : FieldRef := ⟨0x1000220 + 0x100000 * n, 8, 4⟩
def Reg.CHn_XT_SLOT1_TYPE (n : Nat) : FieldRef := ⟨0x1000220 + 0x100000 * n, 4, 4⟩
def Reg.CHn_XT_SLOT1_QUEUED (n : Nat) : FieldRef := ⟨0x1000220 + 0x100000 * n, 2, 1⟩
def Reg.CHn_XT_SLOT1_PENDING (n : Nat) : FieldRef := ⟨0x1000220 + 0x100000 * n, 1, 1⟩
def Reg.CHn_XT_SLOT1_VALID (n : Nat) : FieldRef := ⟨0x1000220 + 0x100000 * n, 0, 1⟩
-- CHn_EXP_STALL: swaps waiting on expansion (07_weight_compression.md)
def Reg.CHn_EXP_STALL_COUNT (n : Nat) : FieldRef := ⟨0x1000228 + 0x100000 * n, 0, 64⟩
-- CHn_XP_IN: record bytes read (07_weight_compression.md)
def Reg.CHn_XP_IN_COUNT (n : Nat) : FieldRef := ⟨0x1000230 + 0x100000 * n, 0, 64⟩
-- CHn_XP_OUT: tile bytes delivered (07_weight_compression.md)
def Reg.CHn_XP_OUT_COUNT (n : Nat) : FieldRef := ⟨0x1000238 + 0x100000 * n, 0, 64⟩
-- CHn_XP_ESC: escaped blocks (07_weight_compression.md)
def Reg.CHn_XP_ESC_COUNT (n : Nat) : FieldRef := ⟨0x1000240 + 0x100000 * n, 0, 64⟩
-- CHn_XP_LAST: last malformed load (07_weight_compression.md)
def Reg.CHn_XP_LAST_VALID (n : Nat) : FieldRef := ⟨0x1000248 + 0x100000 * n, 63, 1⟩
def Reg.CHn_XP_LAST_REASON (n : Nat) : FieldRef := ⟨0x1000248 + 0x100000 * n, 56, 4⟩
def Reg.CHn_XP_LAST_TAG (n : Nat) : FieldRef := ⟨0x1000248 + 0x100000 * n, 52, 3⟩
def Reg.CHn_XP_LAST_ADDR (n : Nat) : FieldRef := ⟨0x1000248 + 0x100000 * n, 0, 48⟩
-- HLC_CTL: enable, job signal and timeout (08_bonded_memory.md)
def Reg.HLC_CTL_TIMEOUT_US : FieldRef := ⟨0x3400000, 48, 16⟩
def Reg.HLC_CTL_JOB_SIG : FieldRef := ⟨0x3400000, 32, 12⟩
def Reg.HLC_CTL_ENABLE : FieldRef := ⟨0x3400000, 0, 1⟩
-- HLC_RING: job ring (08_bonded_memory.md)
def Reg.HLC_RING_ENTRIES_M1 : FieldRef := ⟨0x3400008, 48, 16⟩
def Reg.HLC_RING_BASE : FieldRef := ⟨0x3400008, 0, 48⟩
-- HLC_PROGRESS: job counter (08_bonded_memory.md)
def Reg.HLC_PROGRESS_LAST_STATUS : FieldRef := ⟨0x3400010, 32, 8⟩
def Reg.HLC_PROGRESS_DONE : FieldRef := ⟨0x3400010, 0, 32⟩
-- HLC_FAULT: first failed target of the last failed job (08_bonded_memory.md)
def Reg.HLC_FAULT_JOB : FieldRef := ⟨0x3400018, 32, 32⟩
def Reg.HLC_FAULT_INDEX : FieldRef := ⟨0x3400018, 21, 11⟩
def Reg.HLC_FAULT_PC : FieldRef := ⟨0x3400018, 13, 8⟩
def Reg.HLC_FAULT_STATUS : FieldRef := ⟨0x3400018, 0, 8⟩
-- HLC_TEMP: stack temperature (08_bonded_memory.md)
def Reg.HLC_TEMP_HOT_LAYERS : FieldRef := ⟨0x3400020, 16, 12⟩
def Reg.HLC_TEMP_LAYER : FieldRef := ⟨0x3400020, 12, 4⟩
def Reg.HLC_TEMP_DEG : FieldRef := ⟨0x3400020, 0, 12⟩
-- HLC_ECC: correction and poison counts (08_bonded_memory.md)
def Reg.HLC_ECC_POISONED : FieldRef := ⟨0x3400028, 32, 32⟩
def Reg.HLC_ECC_CORRECTED : FieldRef := ⟨0x3400028, 0, 32⟩
-- HLC_REPAIR: row moves (08_bonded_memory.md)
def Reg.HLC_REPAIR_EXHAUSTED : FieldRef := ⟨0x3400030, 63, 1⟩
def Reg.HLC_REPAIR_MIN_FREE : FieldRef := ⟨0x3400030, 32, 8⟩
def Reg.HLC_REPAIR_MOVED : FieldRef := ⟨0x3400030, 0, 32⟩
-- HLC_CLAIM_STAT: claim effects (08_bonded_memory.md)
def Reg.HLC_CLAIM_STAT_FORCED : FieldRef := ⟨0x3400038, 32, 32⟩
def Reg.HLC_CLAIM_STAT_BACKINV : FieldRef := ⟨0x3400038, 0, 32⟩
-- HLC_DEINTi_CFG: window i shape, i = 0..3 (08_bonded_memory.md)
def Reg.HLC_DEINTi_CFG_VALID (i : Nat) : FieldRef := ⟨0x3400100 + 0x10 * i, 63, 1⟩
def Reg.HLC_DEINTi_CFG_G_LOG2 (i : Nat) : FieldRef := ⟨0x3400100 + 0x10 * i, 56, 4⟩
def Reg.HLC_DEINTi_CFG_W (i : Nat) : FieldRef := ⟨0x3400100 + 0x10 * i, 51, 5⟩
def Reg.HLC_DEINTi_CFG_POS (i : Nat) : FieldRef := ⟨0x3400100 + 0x10 * i, 47, 4⟩
def Reg.HLC_DEINTi_CFG_SIZE (i : Nat) : FieldRef := ⟨0x3400100 + 0x10 * i, 0, 41⟩
-- HLC_DEINTi_TGT: window i target, i = 0..3 (08_bonded_memory.md)
def Reg.HLC_DEINTi_TGT_TARGET (i : Nat) : FieldRef := ⟨0x3400108 + 0x10 * i, 0, 48⟩
-- HLC_DEINT_FOREIGN: foreign window accesses (08_bonded_memory.md)
def Reg.HLC_DEINT_FOREIGN_COUNT : FieldRef := ⟨0x3400140, 0, 64⟩
-- FLS_CTL: enable and command signal (09_flowstone.md)
def Reg.FLS_CTL_JOB_SIG : FieldRef := ⟨0x3000000, 32, 12⟩
def Reg.FLS_CTL_ENABLE : FieldRef := ⟨0x3000000, 0, 1⟩
-- FLS_RING: command ring (09_flowstone.md)
def Reg.FLS_RING_ENTRIES_M1 : FieldRef := ⟨0x3000008, 48, 16⟩
def Reg.FLS_RING_BASE : FieldRef := ⟨0x3000008, 0, 48⟩
-- FLS_POLICY: movement policy (09_flowstone.md)
def Reg.FLS_POLICY_AUTO : FieldRef := ⟨0x3000010, 63, 1⟩
def Reg.FLS_POLICY_HYST : FieldRef := ⟨0x3000010, 56, 4⟩
def Reg.FLS_POLICY_KEEP_US : FieldRef := ⟨0x3000010, 40, 16⟩
def Reg.FLS_POLICY_DRAIN_HEADROOM_GIB : FieldRef := ⟨0x3000010, 32, 8⟩
def Reg.FLS_POLICY_PROMOTE_MIN : FieldRef := ⟨0x3000010, 16, 16⟩
def Reg.FLS_POLICY_EPOCH_US : FieldRef := ⟨0x3000010, 0, 16⟩
-- FLS_NOW: device time (09_flowstone.md)
def Reg.FLS_NOW_US : FieldRef := ⟨0x3000018, 0, 48⟩
-- FLS_STATUS: Flowstone state (09_flowstone.md)
def Reg.FLS_STATUS_FULL : FieldRef := ⟨0x3000020, 63, 1⟩
def Reg.FLS_STATUS_OBJECTS : FieldRef := ⟨0x3000020, 16, 17⟩
def Reg.FLS_STATUS_MOVES : FieldRef := ⟨0x3000020, 0, 4⟩
-- FLS_FREE: frame counts (09_flowstone.md)
def Reg.FLS_FREE_OVERHANG : FieldRef := ⟨0x3000028, 40, 20⟩
def Reg.FLS_FREE_CART : FieldRef := ⟨0x3000028, 20, 20⟩
def Reg.FLS_FREE_BONDED : FieldRef := ⟨0x3000028, 0, 20⟩
-- FLS_DRAIN: drain state (09_flowstone.md)
def Reg.FLS_DRAIN_REMAIN : FieldRef := ⟨0x3000030, 32, 20⟩
def Reg.FLS_DRAIN_STALLED : FieldRef := ⟨0x3000030, 12, 1⟩
def Reg.FLS_DRAIN_REASON : FieldRef := ⟨0x3000030, 8, 4⟩
def Reg.FLS_DRAIN_ACTIVE : FieldRef := ⟨0x3000030, 3, 1⟩
def Reg.FLS_DRAIN_SLOT : FieldRef := ⟨0x3000030, 0, 3⟩
-- FLS_DL: deadline outcomes (09_flowstone.md)
def Reg.FLS_DL_MISS : FieldRef := ⟨0x3000038, 32, 32⟩
def Reg.FLS_DL_MET : FieldRef := ⟨0x3000038, 0, 32⟩
-- FLS_MOVED: bytes moved (09_flowstone.md)
def Reg.FLS_MOVED_COUNT : FieldRef := ⟨0x3000040, 0, 64⟩
-- FLS_DIRECT: direct-path bytes (09_flowstone.md)
def Reg.FLS_DIRECT_COUNT : FieldRef := ⟨0x3000048, 0, 64⟩
-- FLS_ELIDED: zero granules not transferred (09_flowstone.md)
def Reg.FLS_ELIDED_COUNT : FieldRef := ⟨0x3000050, 0, 64⟩
-- BMCm_STATE: slot m state (09_flowstone.md)
def Reg.BMCm_STATE_HELD (m : Nat) : FieldRef := ⟨0x5800000 + 0x40000 * m, 32, 20⟩
def Reg.BMCm_STATE_CHANNELS (m : Nat) : FieldRef := ⟨0x5800000 + 0x40000 * m, 8, 4⟩
def Reg.BMCm_STATE_KIND (m : Nat) : FieldRef := ⟨0x5800000 + 0x40000 * m, 4, 1⟩
def Reg.BMCm_STATE_STATE (m : Nat) : FieldRef := ⟨0x5800000 + 0x40000 * m, 0, 3⟩
-- BMCm_ERR: slot m errors (09_flowstone.md)
def Reg.BMCm_ERR_POISONED (m : Nat) : FieldRef := ⟨0x5800008 + 0x40000 * m, 32, 32⟩
def Reg.BMCm_ERR_CORRECTED (m : Nat) : FieldRef := ⟨0x5800008 + 0x40000 * m, 0, 32⟩
-- TRV_CTL: abort and stall limit (10_traverse.md)
def Reg.TRV_CTL_STALL_MS : FieldRef := ⟨0x3C00000, 32, 16⟩
def Reg.TRV_CTL_ABORT : FieldRef := ⟨0x3C00000, 0, 1⟩
-- TRV_STATE: state of Traverse (10_traverse.md)
def Reg.TRV_STATE_STAMP : FieldRef := ⟨0x3C00008, 32, 32⟩
def Reg.TRV_STATE_STAGE : FieldRef := ⟨0x3C00008, 8, 4⟩
def Reg.TRV_STATE_HELD : FieldRef := ⟨0x3C00008, 3, 1⟩
def Reg.TRV_STATE_STATE : FieldRef := ⟨0x3C00008, 0, 3⟩
-- TRV_PLAN: plan in use (10_traverse.md)
def Reg.TRV_PLAN_ADDR : FieldRef := ⟨0x3C00010, 0, 48⟩
-- TRV_PROGRESS: progress of the running step (10_traverse.md)
def Reg.TRV_PROGRESS_INST : FieldRef := ⟨0x3C00018, 32, 32⟩
def Reg.TRV_PROGRESS_B_DONE : FieldRef := ⟨0x3C00018, 16, 13⟩
def Reg.TRV_PROGRESS_F_DONE : FieldRef := ⟨0x3C00018, 0, 13⟩
-- TRV_LAST: outcome of the last step (10_traverse.md)
def Reg.TRV_LAST_STAMP : FieldRef := ⟨0x3C00020, 32, 32⟩
def Reg.TRV_LAST_CAUSE : FieldRef := ⟨0x3C00020, 8, 8⟩
def Reg.TRV_LAST_STATUS : FieldRef := ⟨0x3C00020, 0, 8⟩
-- TRV_FAIL: first failed instance of the last failed step (10_traverse.md)
def Reg.TRV_FAIL_CODE : FieldRef := ⟨0x3C00028, 48, 16⟩
def Reg.TRV_FAIL_PART : FieldRef := ⟨0x3C00028, 32, 12⟩
def Reg.TRV_FAIL_MB : FieldRef := ⟨0x3C00028, 16, 13⟩
def Reg.TRV_FAIL_RECOMP : FieldRef := ⟨0x3C00028, 15, 1⟩
def Reg.TRV_FAIL_ITEM : FieldRef := ⟨0x3C00028, 0, 10⟩
-- TRV_IMBAL: cycles held by send credit (10_traverse.md)
def Reg.TRV_IMBAL_COUNT : FieldRef := ⟨0x3C00030, 0, 64⟩
-- TRV_STARVE: cycles held by anything else (10_traverse.md)
def Reg.TRV_STARVE_COUNT : FieldRef := ⟨0x3C00038, 0, 64⟩
-- TRV_SWITCH: dispatches past an instance that was not ready (10_traverse.md)
def Reg.TRV_SWITCH_COUNT : FieldRef := ⟨0x3C00040, 0, 64⟩
-- TRV_GATHER: gather counts (10_traverse.md)
def Reg.TRV_GATHER_DROPPED : FieldRef := ⟨0x3C00048, 42, 21⟩
def Reg.TRV_GATHER_REGATHER : FieldRef := ⟨0x3C00048, 21, 21⟩
def Reg.TRV_GATHER_ISSUED : FieldRef := ⟨0x3C00048, 0, 21⟩
-- TRV_STEPS: step counts (10_traverse.md)
def Reg.TRV_STEPS_ENDED : FieldRef := ⟨0x3C00050, 32, 32⟩
def Reg.TRV_STEPS_COMMITTED : FieldRef := ⟨0x3C00050, 0, 32⟩
-- GLB_KPR_CTL: keeper table and start (11_optimizer_state.md)
def Reg.GLB_KPR_CTL_START : FieldRef := ⟨0x400, 63, 1⟩
def Reg.GLB_KPR_CTL_STOP : FieldRef := ⟨0x400, 62, 1⟩
def Reg.GLB_KPR_CTL_FRESH : FieldRef := ⟨0x400, 61, 1⟩
def Reg.GLB_KPR_CTL_TABLE : FieldRef := ⟨0x400, 0, 48⟩
-- GLB_KPR_STATE: service state (11_optimizer_state.md)
def Reg.GLB_KPR_STATE_VERSION : FieldRef := ⟨0x408, 32, 32⟩
def Reg.GLB_KPR_STATE_PARTNER : FieldRef := ⟨0x408, 4, 1⟩
def Reg.GLB_KPR_STATE_STATE : FieldRef := ⟨0x408, 0, 2⟩
-- GLB_KPR_LAST: last failure of the service (11_optimizer_state.md)
def Reg.GLB_KPR_LAST_STAMP : FieldRef := ⟨0x410, 32, 32⟩
def Reg.GLB_KPR_LAST_TABLE : FieldRef := ⟨0x410, 12, 1⟩
def Reg.GLB_KPR_LAST_WORKER : FieldRef := ⟨0x410, 8, 3⟩
def Reg.GLB_KPR_LAST_CAUSE : FieldRef := ⟨0x410, 0, 8⟩
-- HGPn_CFG: port configuration (12_halgar_links.md)
def Reg.HGPn_CFG_ENABLE (n : Nat) : FieldRef := ⟨0x4000000 + 0x40000 * n, 63, 1⟩
def Reg.HGPn_CFG_RESET (n : Nat) : FieldRef := ⟨0x4000000 + 0x40000 * n, 62, 1⟩
def Reg.HGPn_CFG_REACH (n : Nat) : FieldRef := ⟨0x4000000 + 0x40000 * n, 32, 2⟩
def Reg.HGPn_CFG_RES3 (n : Nat) : FieldRef := ⟨0x4000000 + 0x40000 * n, 24, 8⟩
def Reg.HGPn_CFG_RES2 (n : Nat) : FieldRef := ⟨0x4000000 + 0x40000 * n, 16, 8⟩
def Reg.HGPn_CFG_RES1 (n : Nat) : FieldRef := ⟨0x4000000 + 0x40000 * n, 8, 8⟩
def Reg.HGPn_CFG_RES0 (n : Nat) : FieldRef := ⟨0x4000000 + 0x40000 * n, 0, 8⟩
-- HGPn_STATUS: port state (12_halgar_links.md)
def Reg.HGPn_STATUS_PEER_NODE (n : Nat) : FieldRef := ⟨0x4000008 + 0x40000 * n, 40, 8⟩
def Reg.HGPn_STATUS_PEER_PORT (n : Nat) : FieldRef := ⟨0x4000008 + 0x40000 * n, 32, 3⟩
def Reg.HGPn_STATUS_TRAINS (n : Nat) : FieldRef := ⟨0x4000008 + 0x40000 * n, 16, 16⟩
def Reg.HGPn_STATUS_CAUSE (n : Nat) : FieldRef := ⟨0x4000008 + 0x40000 * n, 8, 4⟩
def Reg.HGPn_STATUS_HIGH_LANES (n : Nat) : FieldRef := ⟨0x4000008 + 0x40000 * n, 6, 1⟩
def Reg.HGPn_STATUS_STATE (n : Nat) : FieldRef := ⟨0x4000008 + 0x40000 * n, 0, 3⟩
-- HGPn_ERR: link error counts (12_halgar_links.md)
def Reg.HGPn_ERR_UNCORR (n : Nat) : FieldRef := ⟨0x4000010 + 0x40000 * n, 48, 16⟩
def Reg.HGPn_ERR_REPLAY (n : Nat) : FieldRef := ⟨0x4000010 + 0x40000 * n, 32, 16⟩
def Reg.HGPn_ERR_CORR (n : Nat) : FieldRef := ⟨0x4000010 + 0x40000 * n, 0, 32⟩
-- HGPn_LOST: packets lost at this port (12_halgar_links.md)
def Reg.HGPn_LOST_HOPS (n : Nat) : FieldRef := ⟨0x4000018 + 0x40000 * n, 32, 32⟩
def Reg.HGPn_LOST_ROUTE (n : Nat) : FieldRef := ⟨0x4000018 + 0x40000 * n, 0, 32⟩
-- HGPn_PAYLOAD: payload carried (12_halgar_links.md)
def Reg.HGPn_PAYLOAD_RX_MIB (n : Nat) : FieldRef := ⟨0x4000020 + 0x40000 * n, 32, 32⟩
def Reg.HGPn_PAYLOAD_TX_MIB (n : Nat) : FieldRef := ⟨0x4000020 + 0x40000 * n, 0, 32⟩
-- HGP0_NODE: node identity and group table (12_halgar_links.md)
def Reg.HGP0_NODE_GRP_BASE : FieldRef := ⟨0x4010000, 16, 48⟩
def Reg.HGP0_NODE_ALIAS : FieldRef := ⟨0x4010000, 8, 8⟩
def Reg.HGP0_NODE_NODE : FieldRef := ⟨0x4010000, 0, 8⟩
-- HGP0_EXPi: export window i, i = 0..7 (12_halgar_links.md)
def Reg.HGP0_EXPi_VALID (i : Nat) : FieldRef := ⟨0x4010010 + 8 * i, 63, 1⟩
def Reg.HGP0_EXPi_RD (i : Nat) : FieldRef := ⟨0x4010010 + 8 * i, 62, 1⟩
def Reg.HGP0_EXPi_WR (i : Nat) : FieldRef := ⟨0x4010010 + 8 * i, 61, 1⟩
def Reg.HGP0_EXPi_LIMIT (i : Nat) : FieldRef := ⟨0x4010010 + 8 * i, 18, 18⟩
def Reg.HGP0_EXPi_BASE (i : Nat) : FieldRef := ⟨0x4010010 + 8 * i, 0, 18⟩
-- HGP0_RTk: route to node k, k = 0..254 (12_halgar_links.md)
def Reg.HGP0_RTk_ALT_c (k c : Nat) : FieldRef := ⟨0x4010400 + 8 * k, 16 * c + 8, 8⟩
def Reg.HGP0_RTk_PRI_c (k c : Nat) : FieldRef := ⟨0x4010400 + 8 * k, 16 * c, 8⟩
-- HGPn_CU_CTL: unit enable and job signal, n = 0 or 4 (12_halgar_links.md)
def Reg.HGPn_CU_CTL_JOB_SIG (n : Nat) : FieldRef := ⟨0x4020000 + 0x100000 * n, 32, 12⟩
def Reg.HGPn_CU_CTL_ENABLE (n : Nat) : FieldRef := ⟨0x4020000 + 0x100000 * n, 0, 1⟩
-- HGPn_CU_RING: unit job ring, n = 0 or 4 (12_halgar_links.md)
def Reg.HGPn_CU_RING_ENTRIES_M1 (n : Nat) : FieldRef := ⟨0x4020008 + 0x100000 * n, 48, 16⟩
def Reg.HGPn_CU_RING_BASE (n : Nat) : FieldRef := ⟨0x4020008 + 0x100000 * n, 0, 48⟩
-- HGPn_CU_PROGRESS: unit progress and flags, n = 0 or 4 (12_halgar_links.md)
def Reg.HGPn_CU_PROGRESS_INVALID (n : Nat) : FieldRef := ⟨0x4020010 + 0x100000 * n, 63, 1⟩
def Reg.HGPn_CU_PROGRESS_OVERFLOW (n : Nat) : FieldRef := ⟨0x4020010 + 0x100000 * n, 62, 1⟩
def Reg.HGPn_CU_PROGRESS_FLUSH (n : Nat) : FieldRef := ⟨0x4020010 + 0x100000 * n, 61, 1⟩
def Reg.HGPn_CU_PROGRESS_LAST_STATUS (n : Nat) : FieldRef := ⟨0x4020010 + 0x100000 * n, 32, 8⟩
def Reg.HGPn_CU_PROGRESS_DONE (n : Nat) : FieldRef := ⟨0x4020010 + 0x100000 * n, 0, 32⟩
-- ARB_ACTIVE: tables in use (13_arbitration.md)
def Reg.ARB_ACTIVE_SET_k (k : Nat) : FieldRef := ⟨0x4800000, 2 * k, 2⟩
-- ARB_NEXT: tables requested (13_arbitration.md)
def Reg.ARB_NEXT_SET_k (k : Nat) : FieldRef := ⟨0x4800008, 2 * k, 2⟩
-- ARB_Tk_t_SLOTSj: slots 16j to 16j + 15 of table t of set k, j = 0..3 (13_arbitration.md)
def Reg.ARB_Tk_t_SLOTSj_OWNER_i (k t j i : Nat) : FieldRef := ⟨0x4810000 + 0x100 * k + 0x40 * t + 8 * j, 4 * i, 4⟩
-- ARB_Tk_t_BASE: background ranks of table t of set k (13_arbitration.md)
def Reg.ARB_Tk_t_BASE_BASE_r (k t r : Nat) : FieldRef := ⟨0x4810020 + 0x100 * k + 0x40 * t, 4 * r, 4⟩
-- ARB_CNTk_SLOT: slot-granted beats of set k (13_arbitration.md)
def Reg.ARB_CNTk_SLOT_COUNT (k : Nat) : FieldRef := ⟨0x4820000 + 0x20 * k, 0, 64⟩
-- ARB_CNTk_BG: background beats of set k (13_arbitration.md)
def Reg.ARB_CNTk_BG_COUNT (k : Nat) : FieldRef := ⟨0x4820008 + 0x20 * k, 0, 64⟩
-- ARB_CNTk_DEAD: empty beats and cut locks of set k (13_arbitration.md)
def Reg.ARB_CNTk_DEAD_CUT (k : Nat) : FieldRef := ⟨0x4820010 + 0x20 * k, 32, 32⟩
def Reg.ARB_CNTk_DEAD_DEAD (k : Nat) : FieldRef := ⟨0x4820010 + 0x20 * k, 0, 32⟩
-- ERR_STATUS: log state (14_integrity_consistency.md)
def Reg.ERR_STATUS_MAX_SEV : FieldRef := ⟨0x6800000, 32, 2⟩
def Reg.ERR_STATUS_WRITTEN : FieldRef := ⟨0x6800000, 0, 32⟩
-- ERR_LOGi_Wk: word k of entry i, i = 0..1,023, k = 0..7 (14_integrity_consistency.md)
def Reg.ERR_LOGi_Wk_WORD (i k : Nat) : FieldRef := ⟨0x6810000 + 0x40 * i + 8 * k, 0, 64⟩
-- GLB_VIOL_COUNT: silent violations outside chambers (14_integrity_consistency.md)
def Reg.GLB_VIOL_COUNT_COUNT : FieldRef := ⟨0x20, 0, 32⟩
-- GLB_VIOL_LAST: last counted violation (14_integrity_consistency.md)
def Reg.GLB_VIOL_LAST_VALID : FieldRef := ⟨0x28, 63, 1⟩
def Reg.GLB_VIOL_LAST_AGENT : FieldRef := ⟨0x28, 56, 4⟩
def Reg.GLB_VIOL_LAST_KIND : FieldRef := ⟨0x28, 52, 4⟩
def Reg.GLB_VIOL_LAST_ADDR : FieldRef := ⟨0x28, 0, 48⟩
-- HST_LINK: link and attachment state (15_host_coupling.md)
def Reg.HST_LINK_ATTACH_GEN : FieldRef := ⟨0x5000000, 48, 16⟩
def Reg.HST_LINK_UPS : FieldRef := ⟨0x5000000, 32, 16⟩
def Reg.HST_LINK_WIDTH : FieldRef := ⟨0x5000000, 8, 4⟩
def Reg.HST_LINK_RATE : FieldRef := ⟨0x5000000, 4, 4⟩
def Reg.HST_LINK_STATE : FieldRef := ⟨0x5000000, 0, 2⟩
-- HST_CFG: ingest and timing (15_host_coupling.md)
def Reg.HST_CFG_IRQ_HOLDOFF_US : FieldRef := ⟨0x5000008, 48, 16⟩
def Reg.HST_CFG_BI_TIMEOUT_MS : FieldRef := ⟨0x5000008, 32, 16⟩
def Reg.HST_CFG_INGEST_MODE : FieldRef := ⟨0x5000008, 0, 1⟩
-- HST_LEDGER_BASE: ledger (15_host_coupling.md)
def Reg.HST_LEDGER_BASE_LOG2 : FieldRef := ⟨0x5000010, 59, 5⟩
def Reg.HST_LEDGER_BASE_ADDR : FieldRef := ⟨0x5000010, 0, 52⟩
-- HST_CMPL_BASE: completion ring (15_host_coupling.md)
def Reg.HST_CMPL_BASE_LOG2 : FieldRef := ⟨0x5000018, 59, 5⟩
def Reg.HST_CMPL_BASE_ADDR : FieldRef := ⟨0x5000018, 0, 52⟩
-- HST_DOORBELL: doorbell line (15_host_coupling.md)
def Reg.HST_DOORBELL_ADDR : FieldRef := ⟨0x5000020, 0, 52⟩
-- HST_LEDGER_POS: ledger progress (15_host_coupling.md)
def Reg.HST_LEDGER_POS_HELD : FieldRef := ⟨0x5000028, 32, 8⟩
def Reg.HST_LEDGER_POS_STARTED : FieldRef := ⟨0x5000028, 0, 32⟩
-- HST_SF: snoop filter (15_host_coupling.md)
def Reg.HST_SF_BISNP : FieldRef := ⟨0x5000030, 32, 32⟩
def Reg.HST_SF_LINES : FieldRef := ⟨0x5000030, 0, 24⟩
-- HST_LOSS: last link loss (15_host_coupling.md)
def Reg.HST_LOSS_DIRTY_LINES : FieldRef := ⟨0x5000038, 32, 32⟩
def Reg.HST_LOSS_ABANDONED : FieldRef := ⟨0x5000038, 16, 16⟩
def Reg.HST_LOSS_CAUSE : FieldRef := ⟨0x5000038, 0, 3⟩
-- HST_COPY_IN: bytes copied in (15_host_coupling.md)
def Reg.HST_COPY_IN_COUNT : FieldRef := ⟨0x5000040, 0, 64⟩
-- HST_COPY_OUT: bytes copied out (15_host_coupling.md)
def Reg.HST_COPY_OUT_COUNT : FieldRef := ⟨0x5000048, 0, 64⟩
-- HST_LANDi_BASE: landing region i base, i = 0..15 (15_host_coupling.md)
def Reg.HST_LANDi_BASE_ADDR (i : Nat) : FieldRef := ⟨0x5000100 + 0x10 * i, 0, 48⟩
-- HST_LANDi_CFG: landing region i shape, i = 0..15 (15_host_coupling.md)
def Reg.HST_LANDi_CFG_VALID (i : Nat) : FieldRef := ⟨0x5000108 + 0x10 * i, 63, 1⟩
def Reg.HST_LANDi_CFG_RD (i : Nat) : FieldRef := ⟨0x5000108 + 0x10 * i, 62, 1⟩
def Reg.HST_LANDi_CFG_WR (i : Nat) : FieldRef := ⟨0x5000108 + 0x10 * i, 61, 1⟩
def Reg.HST_LANDi_CFG_NOTIFY_LOG2 (i : Nat) : FieldRef := ⟨0x5000108 + 0x10 * i, 48, 5⟩
def Reg.HST_LANDi_CFG_SIG (i : Nat) : FieldRef := ⟨0x5000108 + 0x10 * i, 32, 12⟩
def Reg.HST_LANDi_CFG_PAGES (i : Nat) : FieldRef := ⟨0x5000108 + 0x10 * i, 0, 15⟩
-- HST_LANDi_COUNT: landing region i bytes, i = 0..15 (15_host_coupling.md)
def Reg.HST_LANDi_COUNT_BYTES (i : Nat) : FieldRef := ⟨0x5000200 + 8 * i, 0, 64⟩
-- MBX_H2Dk: request word k, k = 0..7 (15_host_coupling.md)
def Reg.MBX_H2Dk_WORD (k : Nat) : FieldRef := ⟨0x5400000 + 8 * k, 0, 64⟩
-- MBX_D2Hk: response word k, k = 0..7 (15_host_coupling.md)
def Reg.MBX_D2Hk_WORD (k : Nat) : FieldRef := ⟨0x5400040 + 8 * k, 0, 64⟩
-- MBX_CTL: ownership and state (15_host_coupling.md)
def Reg.MBX_CTL_STATE : FieldRef := ⟨0x5400080, 8, 3⟩
def Reg.MBX_CTL_RSP : FieldRef := ⟨0x5400080, 1, 1⟩
def Reg.MBX_CTL_REQ : FieldRef := ⟨0x5400080, 0, 1⟩
-- SEC_BOOT: outcome of the last cold boot (16_boot_image_security.md)
def Reg.SEC_BOOT_IMG_VERSION : FieldRef := ⟨0x6C00000, 32, 32⟩
def Reg.SEC_BOOT_IMG_SVN : FieldRef := ⟨0x6C00000, 24, 7⟩
def Reg.SEC_BOOT_CAUSE_SEL : FieldRef := ⟨0x6C00000, 20, 4⟩
def Reg.SEC_BOOT_CAUSE_ALT : FieldRef := ⟨0x6C00000, 16, 4⟩
def Reg.SEC_BOOT_RECOVERY : FieldRef := ⟨0x6C00000, 2, 1⟩
def Reg.SEC_BOOT_FALLBACK : FieldRef := ⟨0x6C00000, 1, 1⟩
def Reg.SEC_BOOT_BANK : FieldRef := ⟨0x6C00000, 0, 1⟩
-- SEC_SVN: fused minimum security version (16_boot_image_security.md)
def Reg.SEC_SVN_MIN : FieldRef := ⟨0x6C00008, 0, 7⟩
-- SEC_KEYHASHk: fused image-key hash, k = 0..3 (16_boot_image_security.md)
def Reg.SEC_KEYHASHk_BYTES (k : Nat) : FieldRef := ⟨0x6C00010 + 8 * k, 0, 64⟩
-- SEC_UPD: image update (16_boot_image_security.md)
def Reg.SEC_UPD_SIZE : FieldRef := ⟨0x6C00030, 32, 32⟩
def Reg.SEC_UPD_OBJ : FieldRef := ⟨0x6C00030, 16, 16⟩
def Reg.SEC_UPD_CAUSE : FieldRef := ⟨0x6C00030, 8, 4⟩
def Reg.SEC_UPD_STATE : FieldRef := ⟨0x6C00030, 0, 3⟩
-- SEC_ATT: attestation key state (16_boot_image_security.md)
def Reg.SEC_ATT_TOP_NEXT : FieldRef := ⟨0x6C00038, 32, 21⟩
def Reg.SEC_ATT_BOTTOM_LEFT : FieldRef := ⟨0x6C00038, 16, 11⟩
def Reg.SEC_ATT_READY : FieldRef := ⟨0x6C00038, 8, 1⟩
def Reg.SEC_ATT_THERMO : FieldRef := ⟨0x6C00038, 0, 8⟩
-- SEC_DBG: debug state (16_boot_image_security.md)
def Reg.SEC_DBG_JTAG_ACTIVE : FieldRef := ⟨0x6C00040, 1, 1⟩
def Reg.SEC_DBG_CLOSED : FieldRef := ⟨0x6C00040, 0, 1⟩
-- SEC_DBG_ADDR: debug window address (16_boot_image_security.md)
def Reg.SEC_DBG_ADDR_ADDR : FieldRef := ⟨0x6C00048, 0, 48⟩
-- SEC_DBG_DATA: debug window data (16_boot_image_security.md)
def Reg.SEC_DBG_DATA_DATA : FieldRef := ⟨0x6C00050, 0, 64⟩
-- PCR_CLK: clock state (17_clocks_resets_power.md)
def Reg.PCR_CLK_PLL_BW : FieldRef := ⟨0x6400000, 8, 2⟩
def Reg.PCR_CLK_PLL_LOCK : FieldRef := ⟨0x6400000, 1, 1⟩
def Reg.PCR_CLK_REF_OK : FieldRef := ⟨0x6400000, 0, 1⟩
-- PCR_RST_CAUSE: cause of the last cold start (17_clocks_resets_power.md)
def Reg.PCR_RST_CAUSE_RAIL : FieldRef := ⟨0x6400008, 4, 4⟩
def Reg.PCR_RST_CAUSE_CAUSE : FieldRef := ⟨0x6400008, 0, 4⟩
-- PCR_PSTATE: power state (17_clocks_resets_power.md)
def Reg.PCR_PSTATE_IDLE_US : FieldRef := ⟨0x6400010, 48, 16⟩
def Reg.PCR_PSTATE_HOLD : FieldRef := ⟨0x6400010, 4, 1⟩
def Reg.PCR_PSTATE_STATE : FieldRef := ⟨0x6400010, 2, 2⟩
def Reg.PCR_PSTATE_REQ : FieldRef := ⟨0x6400010, 0, 2⟩
-- PCR_BROWN_COUNT: brownout record (17_clocks_resets_power.md)
def Reg.PCR_BROWN_COUNT_LATCHED : FieldRef := ⟨0x6400018, 63, 1⟩
def Reg.PCR_BROWN_COUNT_MIN_MV : FieldRef := ⟨0x6400018, 32, 16⟩
def Reg.PCR_BROWN_COUNT_COUNT : FieldRef := ⟨0x6400018, 0, 32⟩
-- PCR_BROWN_CTL: latch release (17_clocks_resets_power.md)
def Reg.PCR_BROWN_CTL_RELEASE : FieldRef := ⟨0x6400020, 0, 1⟩
-- PCR_GOV_CFG: governor limits (17_clocks_resets_power.md)
def Reg.PCR_GOV_CFG_TAU_MS : FieldRef := ⟨0x6400028, 48, 16⟩
def Reg.PCR_GOV_CFG_ICC_A : FieldRef := ⟨0x6400028, 32, 16⟩
def Reg.PCR_GOV_CFG_PL2_W : FieldRef := ⟨0x6400028, 16, 16⟩
def Reg.PCR_GOV_CFG_PL1_W : FieldRef := ⟨0x6400028, 0, 16⟩
-- PCR_GOV_STAT: governor state (17_clocks_resets_power.md)
def Reg.PCR_GOV_STAT_POWER_W : FieldRef := ⟨0x6400030, 48, 16⟩
def Reg.PCR_GOV_STAT_LIMITER : FieldRef := ⟨0x6400030, 32, 5⟩
def Reg.PCR_GOV_STAT_DUTY_H : FieldRef := ⟨0x6400030, 8, 7⟩
def Reg.PCR_GOV_STAT_DUTY_A : FieldRef := ⟨0x6400030, 0, 7⟩
-- PCR_THERM_CFG: temperature targets (17_clocks_resets_power.md)
def Reg.PCR_THERM_CFG_DRAM_TGT : FieldRef := ⟨0x6400038, 8, 8⟩
def Reg.PCR_THERM_CFG_LOGIC_TGT : FieldRef := ⟨0x6400038, 0, 8⟩
-- PCR_TEMP: hottest sensors (17_clocks_resets_power.md)
def Reg.PCR_TEMP_DRAM_DEG : FieldRef := ⟨0x6400040, 16, 12⟩
def Reg.PCR_TEMP_LOGIC_DEG : FieldRef := ⟨0x6400040, 0, 12⟩
-- PCR_THROTTLE: throttled cycles (17_clocks_resets_power.md)
def Reg.PCR_THROTTLE_COUNT : FieldRef := ⟨0x6400048, 0, 64⟩
-- SVC_SLOTm: slot m panel state, m = 0..5 (18_service_and_twin.md)
def Reg.SVC_SLOTm_ADD_FAIL (m : Nat) : FieldRef := ⟨0x6000000 + 8 * m, 20, 4⟩
def Reg.SVC_SLOTm_REFUSED (m : Nat) : FieldRef := ⟨0x6000000 + 8 * m, 16, 4⟩
def Reg.SVC_SLOTm_BUTTON (m : Nat) : FieldRef := ⟨0x6000000 + 8 * m, 11, 1⟩
def Reg.SVC_SLOTm_LATCH (m : Nat) : FieldRef := ⟨0x6000000 + 8 * m, 10, 1⟩
def Reg.SVC_SLOTm_PRESENT (m : Nat) : FieldRef := ⟨0x6000000 + 8 * m, 9, 1⟩
def Reg.SVC_SLOTm_FAULT_LED (m : Nat) : FieldRef := ⟨0x6000000 + 8 * m, 6, 3⟩
def Reg.SVC_SLOTm_ATTN_LED (m : Nat) : FieldRef := ⟨0x6000000 + 8 * m, 3, 3⟩
def Reg.SVC_SLOTm_PWR_LED (m : Nat) : FieldRef := ⟨0x6000000 + 8 * m, 0, 3⟩
-- SVC_DEV: device panel state (18_service_and_twin.md)
def Reg.SVC_DEV_REFUSED : FieldRef := ⟨0x6000030, 16, 4⟩
def Reg.SVC_DEV_BUTTON : FieldRef := ⟨0x6000030, 11, 1⟩
def Reg.SVC_DEV_FAULT_LED : FieldRef := ⟨0x6000030, 6, 3⟩
def Reg.SVC_DEV_ATTN_LED : FieldRef := ⟨0x6000030, 3, 3⟩
def Reg.SVC_DEV_PWR_LED : FieldRef := ⟨0x6000030, 0, 3⟩
-- SVC_EVENT: panel events (18_service_and_twin.md)
def Reg.SVC_EVENT_TWIN : FieldRef := ⟨0x6000038, 25, 1⟩
def Reg.SVC_EVENT_DEV_BTN : FieldRef := ⟨0x6000038, 24, 1⟩
def Reg.SVC_EVENT_SLOT_STATE : FieldRef := ⟨0x6000038, 16, 6⟩
def Reg.SVC_EVENT_SLOT_LATCH : FieldRef := ⟨0x6000038, 8, 6⟩
def Reg.SVC_EVENT_SLOT_BTN : FieldRef := ⟨0x6000038, 0, 6⟩
-- TWN_CFG: twin timing and partner (18_service_and_twin.md)
def Reg.TWN_CFG_DETECT_MS : FieldRef := ⟨0x7000000, 48, 16⟩
def Reg.TWN_CFG_HB_US : FieldRef := ⟨0x7000000, 32, 16⟩
def Reg.TWN_CFG_PARTNER : FieldRef := ⟨0x7000000, 0, 8⟩
-- TWN_WIN: windows, in GiB units of address bits [40:30] (18_service_and_twin.md)
def Reg.TWN_WIN_PEER_GIB : FieldRef := ⟨0x7000008, 48, 11⟩
def Reg.TWN_WIN_PEER_BASE : FieldRef := ⟨0x7000008, 32, 11⟩
def Reg.TWN_WIN_OWN_GIB : FieldRef := ⟨0x7000008, 16, 11⟩
def Reg.TWN_WIN_OWN_BASE : FieldRef := ⟨0x7000008, 0, 11⟩
-- TWN_STATE: twin state (18_service_and_twin.md)
def Reg.TWN_STATE_OWN_COMMIT : FieldRef := ⟨0x7000010, 32, 32⟩
def Reg.TWN_STATE_CAUSE : FieldRef := ⟨0x7000010, 4, 4⟩
def Reg.TWN_STATE_MISMATCH : FieldRef := ⟨0x7000010, 3, 1⟩
def Reg.TWN_STATE_STATE : FieldRef := ⟨0x7000010, 0, 3⟩
-- TWN_PEER: partner progress (18_service_and_twin.md)
def Reg.TWN_PEER_PEER_COMMIT : FieldRef := ⟨0x7000018, 32, 32⟩
def Reg.TWN_PEER_RESYNC_LEFT : FieldRef := ⟨0x7000018, 0, 20⟩
-- TWN_COUNT: twin counters (18_service_and_twin.md)
def Reg.TWN_COUNT_TAKEOVERS : FieldRef := ⟨0x7000020, 32, 32⟩
def Reg.TWN_COUNT_MIRROR_GIB : FieldRef := ⟨0x7000020, 0, 32⟩

/-- Register layout of 01_device_overview.md: GLB_ID to GLB_ROLE. -/
def regs01_0 : List RegDesc := [
  ⟨0x0, [], [⟨32, 8, .ro, .fuse, keptHEPKT⟩, ⟨24, 4, .ro, .fuse, keptHEPKT⟩, ⟨16, 8, .ro, .fuse, keptHEPKT⟩, ⟨0, 16, .ro, .fuse, keptHEPKT⟩]⟩,
  ⟨0x8, [], [⟨32, 28, .ro, .fuse, keptHEPKT⟩, ⟨0, 28, .ro, .fuse, keptHEPKT⟩]⟩,
  ⟨0x10, [], [⟨12, 4, .ro, .image, keptHEPKT⟩, ⟨3, 1, .ro, .value 0, keptHEPKT⟩, ⟨2, 1, .ro, .image, keptHEPKT⟩, ⟨1, 1, .ro, .image, keptHEPKT⟩,
      ⟨0, 1, .ro, .image, keptHEPKT⟩]⟩]

/-- Register layout of 02_chambers.md: CHn_CTL to GLB_SIGn. -/
def regs02_0 : List RegDesc := [
  ⟨0x1000000, [(0x100000, 28)], [⟨32, 12, .rw, .value 0, keptHPKT⟩, ⟨2, 1, .wo, .value 0, keptNone⟩, ⟨1, 1, .wo, .value 0, keptNone⟩,
      ⟨0, 1, .wo, .value 0, keptNone⟩]⟩,
  ⟨0x1000008, [(0x100000, 28)], [⟨32, 5, .ro, .fuse, keptHEPKT⟩, ⟨28, 1, .ro, .value 0, keptHEPKT⟩, ⟨16, 12, .ro, .value 0, keptHPKT⟩,
      ⟨0, 3, .ro, .value 1, keptHPKT⟩]⟩,
  ⟨0x1000010, [(0x100000, 28)], [⟨48, 8, .ro, .fuse, keptHEPKT⟩, ⟨40, 8, .ro, .fuse, keptHEPKT⟩, ⟨32, 8, .ro, .fuse, keptHEPKT⟩,
      ⟨24, 8, .ro, .fuse, keptHEPKT⟩, ⟨16, 8, .ro, .fuse, keptHEPKT⟩, ⟨0, 16, .ro, .fuse, keptHEPKT⟩]⟩,
  ⟨0x1000018, [(0x100000, 28)], [⟨48, 3, .ro, .value 0, keptHPKT⟩, ⟨32, 12, .ro, .value 0, keptHPKT⟩, ⟨16, 12, .ro, .value 0, keptHPKT⟩,
      ⟨8, 3, .ro, .value 0, keptHPKT⟩, ⟨0, 8, .ro, .value 0, keptHPKT⟩]⟩,
  ⟨0x1000020, [(0x100000, 28)], [⟨3, 1, .w1c, .value 0, keptHPKT⟩, ⟨2, 1, .w1c, .value 0, keptHPKT⟩, ⟨1, 1, .w1c, .value 0, keptHPKT⟩,
      ⟨0, 1, .w1c, .value 0, keptHPKT⟩]⟩,
  ⟨0x1000028, [(0x100000, 28)], [⟨2, 1, .rw, .image, keptHPKT⟩, ⟨1, 1, .rw, .image, keptHPKT⟩, ⟨0, 1, .rw, .image, keptHPKT⟩]⟩,
  ⟨0x1000030, [(0x100000, 28)], [⟨0, 32, .rw, .image, keptHPKT⟩]⟩,
  ⟨0x1000038, [(0x100000, 28)], [⟨0, 32, .ro, .value 0, keptHEPKT⟩]⟩,
  ⟨0x1000040, [(0x100000, 28)], [⟨24, 8, .ro, .value 0, keptHEPKT⟩, ⟨16, 6, .ro, .value 0, keptHEPKT⟩, ⟨0, 16, .ro, .value 0, keptHEPKT⟩]⟩,
  ⟨0x80000, [(0x8, 4096)], [⟨0, 64, .rw, .value 0, keptHEPKT⟩]⟩]

/-- Register layout of 03_matrix_arrays.md: CHn_ARR_CYC_A to CHn_ACC_ERR. -/
def regs03_0 : List RegDesc := [
  ⟨0x1000100, [(0x100000, 28)], [⟨0, 64, .rw, .value 0, keptHPKT⟩]⟩,
  ⟨0x1000108, [(0x100000, 28)], [⟨0, 64, .rw, .value 0, keptHPKT⟩]⟩,
  ⟨0x1000110, [(0x100000, 28)], [⟨0, 64, .rw, .value 0, keptHPKT⟩]⟩,
  ⟨0x1000118, [(0x100000, 28)], [⟨0, 64, .rw, .value 0, keptHPKT⟩]⟩,
  ⟨0x1000120, [(0x100000, 28)], [⟨0, 64, .rw, .value 0, keptHPKT⟩]⟩,
  ⟨0x1000128, [(0x100000, 28)], [⟨0, 64, .rw, .value 0, keptHPKT⟩]⟩,
  ⟨0x1000130, [(0x100000, 28)], [⟨0, 64, .rw, .value 0, keptHPKT⟩]⟩,
  ⟨0x1000138, [(0x100000, 28)], [⟨32, 32, .ro, .value 0, keptHPKT⟩, ⟨12, 2, .ro, .value 0, keptHPKT⟩, ⟨8, 4, .ro, .value 0, keptHPKT⟩,
      ⟨5, 1, .ro, .value 0, keptHPKT⟩, ⟨4, 1, .ro, .value 0, keptHPKT⟩, ⟨0, 4, .ro, .value 0, keptHPKT⟩]⟩,
  ⟨0x1000140, [(0x100000, 28)], [⟨63, 1, .ro, .fuse, keptHEPKT⟩, ⟨56, 7, .ro, .fuse, keptHEPKT⟩, ⟨55, 1, .ro, .fuse, keptHEPKT⟩,
      ⟨48, 7, .ro, .fuse, keptHEPKT⟩, ⟨47, 1, .ro, .fuse, keptHEPKT⟩, ⟨40, 7, .ro, .fuse, keptHEPKT⟩, ⟨39, 1, .ro, .fuse, keptHEPKT⟩,
      ⟨32, 7, .ro, .fuse, keptHEPKT⟩, ⟨31, 1, .ro, .fuse, keptHEPKT⟩, ⟨24, 7, .ro, .fuse, keptHEPKT⟩, ⟨23, 1, .ro, .fuse, keptHEPKT⟩,
      ⟨16, 7, .ro, .fuse, keptHEPKT⟩, ⟨15, 1, .ro, .fuse, keptHEPKT⟩, ⟨8, 7, .ro, .fuse, keptHEPKT⟩, ⟨7, 1, .ro, .fuse, keptHEPKT⟩,
      ⟨0, 7, .ro, .fuse, keptHEPKT⟩]⟩,
  ⟨0x1000148, [(0x100000, 28)], [⟨24, 8, .ro, .value 0, keptHEPKT⟩, ⟨0, 24, .ro, .value 0, keptHEPKT⟩]⟩]

/-- Register layout of 04_arithmetic.md: CHn_TSW_A to CHn_TSW_B. -/
def regs04_0 : List RegDesc := [
  ⟨0x1000048, [(0x100000, 28)], [⟨32, 10, .ro, .value 0, keptHPKT⟩, ⟨31, 1, .ro, .value 0, keptHPKT⟩, ⟨26, 5, .ro, .value 0, keptHPKT⟩,
      ⟨25, 1, .ro, .value 0, keptHPKT⟩, ⟨24, 1, .ro, .value 0, keptHPKT⟩, ⟨23, 1, .ro, .value 0, keptHPKT⟩, ⟨22, 1, .ro, .value 0, keptHPKT⟩,
      ⟨21, 1, .ro, .value 0, keptHPKT⟩, ⟨20, 1, .ro, .value 0, keptHPKT⟩, ⟨10, 8, .ro, .value 0, keptHPKT⟩, ⟨0, 10, .ro, .value 0, keptHPKT⟩]⟩,
  ⟨0x1000050, [(0x100000, 28)], [⟨32, 10, .ro, .value 0, keptHPKT⟩, ⟨31, 1, .ro, .value 0, keptHPKT⟩, ⟨26, 5, .ro, .value 0, keptHPKT⟩,
      ⟨25, 1, .ro, .value 0, keptHPKT⟩, ⟨24, 1, .ro, .value 0, keptHPKT⟩, ⟨23, 1, .ro, .value 0, keptHPKT⟩, ⟨22, 1, .ro, .value 0, keptHPKT⟩,
      ⟨21, 1, .ro, .value 0, keptHPKT⟩, ⟨20, 1, .ro, .value 0, keptHPKT⟩, ⟨10, 8, .ro, .value 0, keptHPKT⟩, ⟨0, 10, .ro, .value 0, keptHPKT⟩]⟩]

/-- Register layout of 05_tensor_addressing.md: CHn_RGNi_LO to CHn_VIOL_LAST. -/
def regs05_0 : List RegDesc := [
  ⟨0x1001000, [(0x100000, 28), (0x10, 256)], [⟨32, 32, .rw, .value 0, keptHPKT⟩, ⟨0, 32, .rw, .value 0, keptHPKT⟩]⟩,
  ⟨0x1001008, [(0x100000, 28), (0x10, 256)], [⟨63, 1, .rw, .value 0, keptHPKT⟩, ⟨62, 1, .rw, .value 0, keptHPKT⟩, ⟨61, 1, .rw, .value 0, keptHPKT⟩,
      ⟨0, 32, .rw, .value 0, keptHPKT⟩]⟩,
  ⟨0x1000058, [(0x100000, 28)], [⟨63, 1, .ro, .value 0, keptHEPKT⟩, ⟨52, 4, .ro, .value 0, keptHEPKT⟩, ⟨0, 48, .ro, .value 0, keptHEPKT⟩]⟩]

/-- Register layout of 06_sparsity_and_siphon.md: SIP_CTL to SIP_LAST_ERR. -/
def regs06_0 : List RegDesc := [
  ⟨0x3800000, [], [⟨32, 12, .rw, .image, keptHEPKT⟩, ⟨0, 1, .rw, .image, keptHEPKT⟩]⟩,
  ⟨0x3800008, [], [⟨48, 16, .rw, .image, keptHEPKT⟩, ⟨0, 48, .rw, .image, keptHEPKT⟩]⟩,
  ⟨0x3800010, [], [⟨0, 2, .rw, .image, keptHEPKT⟩]⟩,
  ⟨0x3800018, [], [⟨32, 32, .ro, .value 0, keptHEPKT⟩, ⟨0, 32, .ro, .value 0, keptHEPKT⟩]⟩,
  ⟨0x3800020, [], [⟨2, 1, .w1c, .value 0, keptHEPKT⟩, ⟨1, 1, .w1c, .value 0, keptHEPKT⟩, ⟨0, 1, .w1c, .value 0, keptHEPKT⟩]⟩,
  ⟨0x3800028, [], [⟨0, 64, .rw, .value 0, keptHEPKT⟩]⟩,
  ⟨0x3800030, [], [⟨0, 64, .rw, .value 0, keptHEPKT⟩]⟩,
  ⟨0x3800038, [], [⟨0, 64, .rw, .value 0, keptHEPKT⟩]⟩,
  ⟨0x3800040, [], [⟨0, 64, .rw, .value 0, keptHEPKT⟩]⟩,
  ⟨0x3800048, [], [⟨0, 64, .rw, .value 0, keptHEPKT⟩]⟩,
  ⟨0x3800050, [], [⟨32, 32, .ro, .value 0, keptHEPKT⟩, ⟨8, 1, .ro, .value 0, keptHEPKT⟩, ⟨0, 8, .ro, .value 0, keptHEPKT⟩]⟩]

/-- Register layout of 07_weight_compression.md: CHn_XC_CTL to CHn_XP_LAST. -/
def regs07_0 : List RegDesc := [
  ⟨0x1000200, [(0x100000, 28)], [⟨32, 12, .rw, .value 0, keptHEPKT⟩, ⟨0, 1, .rw, .value 0, keptHPKT⟩]⟩,
  ⟨0x1000208, [(0x100000, 28)], [⟨48, 16, .rw, .value 0, keptHEPKT⟩, ⟨0, 48, .rw, .value 0, keptHEPKT⟩]⟩,
  ⟨0x1000210, [(0x100000, 28)], [⟨32, 8, .ro, .value 0, keptHPKT⟩, ⟨0, 32, .ro, .value 0, keptHPKT⟩]⟩,
  ⟨0x1000218, [(0x100000, 28)], [⟨32, 16, .ro, .value 0, keptHPKT⟩, ⟨8, 4, .ro, .value 0, keptHPKT⟩, ⟨4, 4, .ro, .value 0, keptHPKT⟩,
      ⟨2, 1, .ro, .value 0, keptHPKT⟩, ⟨1, 1, .ro, .value 0, keptHPKT⟩, ⟨0, 1, .ro, .value 0, keptHPKT⟩]⟩,
  ⟨0x1000220, [(0x100000, 28)], [⟨32, 16, .ro, .value 0, keptHPKT⟩, ⟨8, 4, .ro, .value 0, keptHPKT⟩, ⟨4, 4, .ro, .value 0, keptHPKT⟩,
      ⟨2, 1, .ro, .value 0, keptHPKT⟩, ⟨1, 1, .ro, .value 0, keptHPKT⟩, ⟨0, 1, .ro, .value 0, keptHPKT⟩]⟩,
  ⟨0x1000228, [(0x100000, 28)], [⟨0, 64, .rw, .value 0, keptHPKT⟩]⟩,
  ⟨0x1000230, [(0x100000, 28)], [⟨0, 64, .rw, .value 0, keptHPKT⟩]⟩,
  ⟨0x1000238, [(0x100000, 28)], [⟨0, 64, .rw, .value 0, keptHPKT⟩]⟩,
  ⟨0x1000240, [(0x100000, 28)], [⟨0, 64, .rw, .value 0, keptHPKT⟩]⟩,
  ⟨0x1000248, [(0x100000, 28)], [⟨63, 1, .ro, .value 0, keptHEPKT⟩, ⟨56, 4, .ro, .value 0, keptHEPKT⟩, ⟨52, 3, .ro, .value 0, keptHEPKT⟩,
      ⟨0, 48, .ro, .value 0, keptHEPKT⟩]⟩]

/-- Register layout of 08_bonded_memory.md: HLC_CTL to HLC_DEINT_FOREIGN. -/
def regs08_0 : List RegDesc := [
  ⟨0x3400000, [], [⟨48, 16, .rw, .image, keptHEPKT⟩, ⟨32, 12, .rw, .image, keptHEPKT⟩, ⟨0, 1, .rw, .image, keptHEPKT⟩]⟩,
  ⟨0x3400008, [], [⟨48, 16, .rw, .image, keptHEPKT⟩, ⟨0, 48, .rw, .image, keptHEPKT⟩]⟩,
  ⟨0x3400010, [], [⟨32, 8, .ro, .value 0, keptHEPKT⟩, ⟨0, 32, .ro, .value 0, keptHEPKT⟩]⟩,
  ⟨0x3400018, [], [⟨32, 32, .ro, .value 0, keptHEPKT⟩, ⟨21, 11, .ro, .value 0, keptHEPKT⟩, ⟨13, 8, .ro, .value 0, keptHEPKT⟩,
      ⟨0, 8, .ro, .value 0, keptHEPKT⟩]⟩,
  ⟨0x3400020, [], [⟨16, 12, .ro, .value 0, keptHEPKT⟩, ⟨12, 4, .ro, .value 0, keptHEPKT⟩, ⟨0, 12, .ro, .value 0, keptHEPKT⟩]⟩,
  ⟨0x3400028, [], [⟨32, 32, .ro, .value 0, keptHEPKT⟩, ⟨0, 32, .ro, .value 0, keptHEPKT⟩]⟩,
  ⟨0x3400030, [], [⟨63, 1, .ro, .value 0, keptHEPKT⟩, ⟨32, 8, .ro, .fuse, keptHEPKT⟩, ⟨0, 32, .ro, .value 0, keptHEPKT⟩]⟩,
  ⟨0x3400038, [], [⟨32, 32, .rw, .value 0, keptHEPKT⟩, ⟨0, 32, .rw, .value 0, keptHEPKT⟩]⟩,
  ⟨0x3400100, [(0x10, 4)], [⟨63, 1, .rw, .value 0, keptHEPKT⟩, ⟨56, 4, .rw, .value 0, keptHEPKT⟩, ⟨51, 5, .rw, .value 0, keptHEPKT⟩,
      ⟨47, 4, .rw, .value 0, keptHEPKT⟩, ⟨0, 41, .rw, .value 0, keptHEPKT⟩]⟩,
  ⟨0x3400108, [(0x10, 4)], [⟨0, 48, .rw, .value 0, keptHEPKT⟩]⟩,
  ⟨0x3400140, [], [⟨0, 64, .rw, .value 0, keptHEPKT⟩]⟩]

/-- Register layout of 09_flowstone.md: FLS_CTL to BMCm_STATE. -/
def regs09_0 : List RegDesc := [
  ⟨0x3000000, [], [⟨32, 12, .rw, .image, keptHEPKT⟩, ⟨0, 1, .rw, .image, keptHEPKT⟩]⟩,
  ⟨0x3000008, [], [⟨48, 16, .rw, .image, keptHEPKT⟩, ⟨0, 48, .rw, .image, keptHEPKT⟩]⟩,
  ⟨0x3000010, [], [⟨63, 1, .rw, .image, keptHEPKT⟩, ⟨56, 4, .rw, .image, keptHEPKT⟩, ⟨40, 16, .rw, .image, keptHEPKT⟩,
      ⟨32, 8, .rw, .image, keptHEPKT⟩, ⟨16, 16, .rw, .image, keptHEPKT⟩, ⟨0, 16, .rw, .image, keptHEPKT⟩]⟩,
  ⟨0x3000018, [], [⟨0, 48, .ro, .value 0, keptHEPKT⟩]⟩,
  ⟨0x3000020, [], [⟨63, 1, .ro, .value 0, keptHEPKT⟩, ⟨16, 17, .ro, .value 0, keptHEPKT⟩, ⟨0, 4, .ro, .value 0, keptHEPKT⟩]⟩,
  ⟨0x3000028, [], [⟨40, 20, .ro, .value 0, keptHEPKT⟩, ⟨20, 20, .ro, .value 0, keptHEPKT⟩, ⟨0, 20, .ro, .value 0, keptHEPKT⟩]⟩,
  ⟨0x3000030, [], [⟨32, 20, .ro, .value 0, keptHEPKT⟩, ⟨12, 1, .ro, .value 0, keptHEPKT⟩, ⟨8, 4, .ro, .value 0, keptHEPKT⟩,
      ⟨3, 1, .ro, .value 0, keptHEPKT⟩, ⟨0, 3, .ro, .value 0, keptHEPKT⟩]⟩,
  ⟨0x3000038, [], [⟨32, 32, .rw, .value 0, keptHEPKT⟩, ⟨0, 32, .rw, .value 0, keptHEPKT⟩]⟩,
  ⟨0x3000040, [], [⟨0, 64, .rw, .value 0, keptHEPKT⟩]⟩,
  ⟨0x3000048, [], [⟨0, 64, .rw, .value 0, keptHEPKT⟩]⟩,
  ⟨0x3000050, [], [⟨0, 64, .rw, .value 0, keptHEPKT⟩]⟩,
  ⟨0x5800000, [(0x40000, 6)], [⟨32, 20, .ro, .value 0, keptHEPT⟩, ⟨8, 4, .ro, .value 0, keptHEPT⟩, ⟨4, 1, .ro, .value 0, keptHEPT⟩,
      ⟨0, 3, .ro, .value 0, keptHEPT⟩]⟩]

/-- Register layout of 09_flowstone.md: BMCm_ERR to BMCm_ERR. -/
def regs09_1 : List RegDesc := [
  ⟨0x5800008, [(0x40000, 6)], [⟨32, 32, .ro, .value 0, keptHEPT⟩, ⟨0, 32, .ro, .value 0, keptHEPT⟩]⟩]

/-- Register layout of 10_traverse.md: TRV_CTL to TRV_STEPS. -/
def regs10_0 : List RegDesc := [
  ⟨0x3C00000, [], [⟨32, 16, .rw, .image, keptHEPKT⟩, ⟨0, 1, .wo, .value 0, keptNone⟩]⟩,
  ⟨0x3C00008, [], [⟨32, 32, .ro, .value 0, keptHEPKT⟩, ⟨8, 4, .ro, .value 0, keptHEPKT⟩, ⟨3, 1, .ro, .value 0, keptHEPKT⟩,
      ⟨0, 3, .ro, .value 0, keptHEPKT⟩]⟩,
  ⟨0x3C00010, [], [⟨0, 48, .ro, .value 0, keptHEPKT⟩]⟩,
  ⟨0x3C00018, [], [⟨32, 32, .ro, .value 0, keptHEPKT⟩, ⟨16, 13, .ro, .value 0, keptHEPKT⟩, ⟨0, 13, .ro, .value 0, keptHEPKT⟩]⟩,
  ⟨0x3C00020, [], [⟨32, 32, .ro, .value 0, keptHEPKT⟩, ⟨8, 8, .ro, .value 0, keptHEPKT⟩, ⟨0, 8, .ro, .value 0, keptHEPKT⟩]⟩,
  ⟨0x3C00028, [], [⟨48, 16, .ro, .value 0, keptHEPKT⟩, ⟨32, 12, .ro, .value 0, keptHEPKT⟩, ⟨16, 13, .ro, .value 0, keptHEPKT⟩,
      ⟨15, 1, .ro, .value 0, keptHEPKT⟩, ⟨0, 10, .ro, .value 0, keptHEPKT⟩]⟩,
  ⟨0x3C00030, [], [⟨0, 64, .rw, .value 0, keptHEPKT⟩]⟩,
  ⟨0x3C00038, [], [⟨0, 64, .rw, .value 0, keptHEPKT⟩]⟩,
  ⟨0x3C00040, [], [⟨0, 64, .rw, .value 0, keptHEPKT⟩]⟩,
  ⟨0x3C00048, [], [⟨42, 21, .rw, .value 0, keptHEPKT⟩, ⟨21, 21, .rw, .value 0, keptHEPKT⟩, ⟨0, 21, .rw, .value 0, keptHEPKT⟩]⟩,
  ⟨0x3C00050, [], [⟨32, 32, .rw, .value 0, keptHEPKT⟩, ⟨0, 32, .rw, .value 0, keptHEPKT⟩]⟩]

/-- Register layout of 11_optimizer_state.md: GLB_KPR_CTL to GLB_KPR_LAST. -/
def regs11_0 : List RegDesc := [
  ⟨0x400, [], [⟨63, 1, .wo, .value 0, keptNone⟩, ⟨62, 1, .wo, .value 0, keptNone⟩, ⟨61, 1, .rw, .value 0, keptHEPKT⟩,
      ⟨0, 48, .rw, .value 0, keptHEPKT⟩]⟩,
  ⟨0x408, [], [⟨32, 32, .ro, .value 0, keptHEPKT⟩, ⟨4, 1, .ro, .value 0, keptHEPKT⟩, ⟨0, 2, .ro, .value 0, keptHEPKT⟩]⟩,
  ⟨0x410, [], [⟨32, 32, .ro, .value 0, keptHEPKT⟩, ⟨12, 1, .ro, .value 0, keptHEPKT⟩, ⟨8, 3, .ro, .value 0, keptHEPKT⟩,
      ⟨0, 8, .ro, .value 0, keptHEPKT⟩]⟩]

/-- Register layout of 12_halgar_links.md: HGPn_CFG to HGPn_CU_PROGRESS. -/
def regs12_0 : List RegDesc := [
  ⟨0x4000000, [(0x40000, 8)], [⟨63, 1, .rw, .image, keptHEPKT⟩, ⟨62, 1, .wo, .value 0, keptNone⟩, ⟨32, 2, .rw, .image, keptHEPKT⟩,
      ⟨24, 8, .rw, .image, keptHEPKT⟩, ⟨16, 8, .rw, .image, keptHEPKT⟩, ⟨8, 8, .rw, .image, keptHEPKT⟩, ⟨0, 8, .rw, .image, keptHEPKT⟩]⟩,
  ⟨0x4000008, [(0x40000, 8)], [⟨40, 8, .ro, .value 0, keptHEKT⟩, ⟨32, 3, .ro, .value 0, keptHEKT⟩, ⟨16, 16, .ro, .value 0, keptHEPKT⟩,
      ⟨8, 4, .ro, .value 0, keptHEKT⟩, ⟨6, 1, .ro, .value 0, keptHEKT⟩, ⟨0, 3, .ro, .value 0, keptHEKT⟩]⟩,
  ⟨0x4000010, [(0x40000, 8)], [⟨48, 16, .rw, .value 0, keptHEPKT⟩, ⟨32, 16, .rw, .value 0, keptHEPKT⟩, ⟨0, 32, .rw, .value 0, keptHEPKT⟩]⟩,
  ⟨0x4000018, [(0x40000, 8)], [⟨32, 32, .rw, .value 0, keptHEPKT⟩, ⟨0, 32, .rw, .value 0, keptHEPKT⟩]⟩,
  ⟨0x4000020, [(0x40000, 8)], [⟨32, 32, .rw, .value 0, keptHEPKT⟩, ⟨0, 32, .rw, .value 0, keptHEPKT⟩]⟩,
  ⟨0x4010000, [], [⟨16, 48, .rw, .image, keptHEPKT⟩, ⟨8, 8, .rw, .value 0, keptHEPKT⟩, ⟨0, 8, .rw, .image, keptHEPKT⟩]⟩,
  ⟨0x4010010, [(0x8, 8)], [⟨63, 1, .rw, .image, keptHEPKT⟩, ⟨62, 1, .rw, .image, keptHEPKT⟩, ⟨61, 1, .rw, .image, keptHEPKT⟩,
      ⟨18, 18, .rw, .image, keptHEPKT⟩, ⟨0, 18, .rw, .image, keptHEPKT⟩]⟩,
  ⟨0x4010400, [(0x8, 255)], [⟨8, 8, .rw, .image, keptHEPKT⟩, ⟨24, 8, .rw, .image, keptHEPKT⟩, ⟨40, 8, .rw, .image, keptHEPKT⟩,
      ⟨56, 8, .rw, .image, keptHEPKT⟩, ⟨0, 8, .rw, .image, keptHEPKT⟩, ⟨16, 8, .rw, .image, keptHEPKT⟩, ⟨32, 8, .rw, .image, keptHEPKT⟩,
      ⟨48, 8, .rw, .image, keptHEPKT⟩]⟩,
  ⟨0x4020000, [(0x100000, 2)], [⟨32, 12, .rw, .image, keptHEPKT⟩, ⟨0, 1, .rw, .image, keptHEPKT⟩]⟩,
  ⟨0x4020008, [(0x100000, 2)], [⟨48, 16, .rw, .image, keptHEPKT⟩, ⟨0, 48, .rw, .image, keptHEPKT⟩]⟩,
  ⟨0x4020010, [(0x100000, 2)], [⟨63, 1, .w1c, .value 0, keptHEPKT⟩, ⟨62, 1, .w1c, .value 0, keptHEPKT⟩, ⟨61, 1, .w1c, .value 0, keptHEPKT⟩,
      ⟨32, 8, .ro, .value 0, keptHEPKT⟩, ⟨0, 32, .ro, .value 0, keptHEPKT⟩]⟩]

/-- Register layout of 13_arbitration.md: ARB_ACTIVE to ARB_CNTk_DEAD. -/
def regs13_0 : List RegDesc := [
  ⟨0x4800000, [], [⟨0, 2, .ro, .image, keptHEPKT⟩, ⟨2, 2, .ro, .image, keptHEPKT⟩, ⟨4, 2, .ro, .image, keptHEPKT⟩, ⟨6, 2, .ro, .image, keptHEPKT⟩,
      ⟨8, 2, .ro, .image, keptHEPKT⟩, ⟨10, 2, .ro, .image, keptHEPKT⟩, ⟨12, 2, .ro, .image, keptHEPKT⟩, ⟨14, 2, .ro, .image, keptHEPKT⟩,
      ⟨16, 2, .ro, .image, keptHEPKT⟩, ⟨18, 2, .ro, .image, keptHEPKT⟩]⟩,
  ⟨0x4800008, [], [⟨0, 2, .rw, .image, keptHEPKT⟩, ⟨2, 2, .rw, .image, keptHEPKT⟩, ⟨4, 2, .rw, .image, keptHEPKT⟩, ⟨6, 2, .rw, .image, keptHEPKT⟩,
      ⟨8, 2, .rw, .image, keptHEPKT⟩, ⟨10, 2, .rw, .image, keptHEPKT⟩, ⟨12, 2, .rw, .image, keptHEPKT⟩, ⟨14, 2, .rw, .image, keptHEPKT⟩,
      ⟨16, 2, .rw, .image, keptHEPKT⟩, ⟨18, 2, .rw, .image, keptHEPKT⟩]⟩,
  ⟨0x4810000, [(0x100, 10), (0x40, 4), (0x8, 4)], [⟨0, 4, .rw, .image, keptHEPKT⟩, ⟨4, 4, .rw, .image, keptHEPKT⟩, ⟨8, 4, .rw, .image, keptHEPKT⟩,
      ⟨12, 4, .rw, .image, keptHEPKT⟩, ⟨16, 4, .rw, .image, keptHEPKT⟩, ⟨20, 4, .rw, .image, keptHEPKT⟩, ⟨24, 4, .rw, .image, keptHEPKT⟩,
      ⟨28, 4, .rw, .image, keptHEPKT⟩, ⟨32, 4, .rw, .image, keptHEPKT⟩, ⟨36, 4, .rw, .image, keptHEPKT⟩, ⟨40, 4, .rw, .image, keptHEPKT⟩,
      ⟨44, 4, .rw, .image, keptHEPKT⟩, ⟨48, 4, .rw, .image, keptHEPKT⟩, ⟨52, 4, .rw, .image, keptHEPKT⟩, ⟨56, 4, .rw, .image, keptHEPKT⟩,
      ⟨60, 4, .rw, .image, keptHEPKT⟩]⟩,
  ⟨0x4810020, [(0x100, 10), (0x40, 4)], [⟨0, 4, .rw, .image, keptHEPKT⟩, ⟨4, 4, .rw, .image, keptHEPKT⟩, ⟨8, 4, .rw, .image, keptHEPKT⟩,
      ⟨12, 4, .rw, .image, keptHEPKT⟩, ⟨16, 4, .rw, .image, keptHEPKT⟩, ⟨20, 4, .rw, .image, keptHEPKT⟩, ⟨24, 4, .rw, .image, keptHEPKT⟩,
      ⟨28, 4, .rw, .image, keptHEPKT⟩]⟩,
  ⟨0x4820000, [(0x20, 10)], [⟨0, 64, .rw, .value 0, keptHEPKT⟩]⟩,
  ⟨0x4820008, [(0x20, 10)], [⟨0, 64, .rw, .value 0, keptHEPKT⟩]⟩,
  ⟨0x4820010, [(0x20, 10)], [⟨32, 32, .rw, .value 0, keptHEPKT⟩, ⟨0, 32, .rw, .value 0, keptHEPKT⟩]⟩]

/-- Register layout of 14_integrity_consistency.md: ERR_STATUS to GLB_VIOL_LAST. -/
def regs14_0 : List RegDesc := [
  ⟨0x6800000, [], [⟨32, 2, .ro, .value 0, keptHEPKT⟩, ⟨0, 32, .ro, .value 0, keptHEPKT⟩]⟩,
  ⟨0x6810000, [(0x40, 1024), (0x8, 8)], [⟨0, 64, .ro, .value 0, keptHEPKT⟩]⟩,
  ⟨0x20, [], [⟨0, 32, .ro, .value 0, keptHEPKT⟩]⟩,
  ⟨0x28, [], [⟨63, 1, .ro, .value 0, keptHEPKT⟩, ⟨56, 4, .ro, .value 0, keptHEPKT⟩, ⟨52, 4, .ro, .value 0, keptHEPKT⟩,
      ⟨0, 48, .ro, .value 0, keptHEPKT⟩]⟩]

/-- Register layout of 15_host_coupling.md: HST_LINK to HST_LANDi_CFG. -/
def regs15_0 : List RegDesc := [
  ⟨0x5000000, [], [⟨48, 16, .ro, .value 0, keptHEPKT⟩, ⟨32, 16, .ro, .value 0, keptHEPKT⟩, ⟨8, 4, .ro, .value 0, keptEPKT⟩,
      ⟨4, 4, .ro, .value 0, keptEPKT⟩, ⟨0, 2, .ro, .value 0, keptEPKT⟩]⟩,
  ⟨0x5000008, [], [⟨48, 16, .rw, .image, keptEPKT⟩, ⟨32, 16, .rw, .image, keptEPKT⟩, ⟨0, 1, .ro, .image, keptHEPKT⟩]⟩,
  ⟨0x5000010, [], [⟨59, 5, .ro, .value 0, keptEPKT⟩, ⟨0, 52, .ro, .value 0, keptEPKT⟩]⟩,
  ⟨0x5000018, [], [⟨59, 5, .ro, .value 0, keptEPKT⟩, ⟨0, 52, .ro, .value 0, keptEPKT⟩]⟩,
  ⟨0x5000020, [], [⟨0, 52, .ro, .value 0, keptEPKT⟩]⟩,
  ⟨0x5000028, [], [⟨32, 8, .ro, .value 0, keptHEPKT⟩, ⟨0, 32, .ro, .value 0, keptEPKT⟩]⟩,
  ⟨0x5000030, [], [⟨32, 32, .rw, .value 0, keptEPKT⟩, ⟨0, 24, .ro, .value 0, keptEPKT⟩]⟩,
  ⟨0x5000038, [], [⟨32, 32, .ro, .value 0, keptHEPKT⟩, ⟨16, 16, .ro, .value 0, keptHEPKT⟩, ⟨0, 3, .ro, .value 0, keptHEPKT⟩]⟩,
  ⟨0x5000040, [], [⟨0, 64, .rw, .value 0, keptHEPKT⟩]⟩,
  ⟨0x5000048, [], [⟨0, 64, .rw, .value 0, keptHEPKT⟩]⟩,
  ⟨0x5000100, [(0x10, 16)], [⟨0, 48, .rw, .value 0, keptEPKT⟩]⟩,
  ⟨0x5000108, [(0x10, 16)], [⟨63, 1, .rw, .value 0, keptEPKT⟩, ⟨62, 1, .rw, .value 0, keptEPKT⟩, ⟨61, 1, .rw, .value 0, keptEPKT⟩,
      ⟨48, 5, .rw, .value 0, keptEPKT⟩, ⟨32, 12, .rw, .value 0, keptEPKT⟩, ⟨0, 15, .rw, .value 0, keptEPKT⟩]⟩]

/-- Register layout of 15_host_coupling.md: HST_LANDi_COUNT to MBX_CTL. -/
def regs15_1 : List RegDesc := [
  ⟨0x5000200, [(0x8, 16)], [⟨0, 64, .rw, .value 0, keptEPKT⟩]⟩,
  ⟨0x5400000, [(0x8, 8)], [⟨0, 64, .rw, .value 0, keptEPKT⟩]⟩,
  ⟨0x5400040, [(0x8, 8)], [⟨0, 64, .ro, .value 0, keptEPKT⟩]⟩,
  ⟨0x5400080, [], [⟨8, 3, .ro, .value 0, keptHEPKT⟩, ⟨1, 1, .w1c, .value 0, keptEPKT⟩, ⟨0, 1, .w1s, .value 0, keptEPKT⟩]⟩]

/-- Register layout of 16_boot_image_security.md: SEC_BOOT to SEC_DBG_DATA. -/
def regs16_0 : List RegDesc := [
  ⟨0x6C00000, [], [⟨32, 32, .ro, .value 0, keptHEPKT⟩, ⟨24, 7, .ro, .value 0, keptHEPKT⟩, ⟨20, 4, .ro, .value 0, keptHEPKT⟩,
      ⟨16, 4, .ro, .value 0, keptHEPKT⟩, ⟨2, 1, .ro, .value 0, keptHEPKT⟩, ⟨1, 1, .ro, .value 0, keptHEPKT⟩, ⟨0, 1, .ro, .value 0, keptHEPKT⟩]⟩,
  ⟨0x6C00008, [], [⟨0, 7, .ro, .fuse, keptHEPKT⟩]⟩,
  ⟨0x6C00010, [(0x8, 4)], [⟨0, 64, .ro, .fuse, keptHEPKT⟩]⟩,
  ⟨0x6C00030, [], [⟨32, 32, .ro, .value 0, keptHEPKT⟩, ⟨16, 16, .ro, .value 0, keptHEPKT⟩, ⟨8, 4, .ro, .value 0, keptHEPKT⟩,
      ⟨0, 3, .ro, .value 0, keptHEPKT⟩]⟩,
  ⟨0x6C00038, [], [⟨32, 21, .ro, .value 0, keptHEPKT⟩, ⟨16, 11, .ro, .value 0, keptHEPKT⟩, ⟨8, 1, .ro, .value 0, keptHEPKT⟩,
      ⟨0, 8, .ro, .fuse, keptHEPKT⟩]⟩,
  ⟨0x6C00040, [], [⟨1, 1, .ro, .value 0, keptHEPKT⟩, ⟨0, 1, .ro, .fuse, keptHEPKT⟩]⟩,
  ⟨0x6C00048, [], [⟨0, 48, .rw, .value 0, keptHEPKT⟩]⟩,
  ⟨0x6C00050, [], [⟨0, 64, .rw, .value 0, keptHEPKT⟩]⟩]

/-- Register layout of 17_clocks_resets_power.md: PCR_CLK to PCR_THROTTLE. -/
def regs17_0 : List RegDesc := [
  ⟨0x6400000, [], [⟨8, 2, .rw, .image, keptHEPKT⟩, ⟨1, 1, .ro, .value 0, keptHEPKT⟩, ⟨0, 1, .ro, .value 0, keptHEPKT⟩]⟩,
  ⟨0x6400008, [], [⟨4, 4, .ro, .value 0, keptHEPKT⟩, ⟨0, 4, .ro, .value 0, keptHEPKT⟩]⟩,
  ⟨0x6400010, [], [⟨48, 16, .rw, .image, keptHEPKT⟩, ⟨4, 1, .ro, .value 0, keptHEPKT⟩, ⟨2, 2, .ro, .value 0, keptHEPKT⟩,
      ⟨0, 2, .rw, .image, keptHEPKT⟩]⟩,
  ⟨0x6400018, [], [⟨63, 1, .ro, .value 0, keptHEPKT⟩, ⟨32, 16, .ro, .value 0, keptHEPKT⟩, ⟨0, 32, .ro, .value 0, keptHEPKT⟩]⟩,
  ⟨0x6400020, [], [⟨0, 1, .wo, .value 0, keptNone⟩]⟩,
  ⟨0x6400028, [], [⟨48, 16, .rw, .image, keptHEPKT⟩, ⟨32, 16, .rw, .image, keptHEPKT⟩, ⟨16, 16, .rw, .image, keptHEPKT⟩,
      ⟨0, 16, .rw, .image, keptHEPKT⟩]⟩,
  ⟨0x6400030, [], [⟨48, 16, .ro, .value 0, keptHEPKT⟩, ⟨32, 5, .ro, .value 0, keptHEPKT⟩, ⟨8, 7, .ro, .value 64, keptHEPKT⟩,
      ⟨0, 7, .ro, .value 64, keptHEPKT⟩]⟩,
  ⟨0x6400038, [], [⟨8, 8, .rw, .image, keptHEPKT⟩, ⟨0, 8, .rw, .image, keptHEPKT⟩]⟩,
  ⟨0x6400040, [], [⟨16, 12, .ro, .value 0, keptHEPKT⟩, ⟨0, 12, .ro, .value 0, keptHEPKT⟩]⟩,
  ⟨0x6400048, [], [⟨0, 64, .rw, .value 0, keptHEPKT⟩]⟩]

/-- Register layout of 18_service_and_twin.md: SVC_SLOTm to TWN_COUNT. -/
def regs18_0 : List RegDesc := [
  ⟨0x6000000, [(0x8, 6)], [⟨20, 4, .ro, .value 0, keptHEPKT⟩, ⟨16, 4, .ro, .value 0, keptHEPKT⟩, ⟨11, 1, .ro, .value 0, keptHEPKT⟩,
      ⟨10, 1, .ro, .value 0, keptHEPKT⟩, ⟨9, 1, .ro, .value 0, keptHEPKT⟩, ⟨6, 3, .ro, .value 0, keptHEPKT⟩, ⟨3, 3, .ro, .value 0, keptHEPKT⟩,
      ⟨0, 3, .ro, .value 0, keptHEPKT⟩]⟩,
  ⟨0x6000030, [], [⟨16, 4, .ro, .value 0, keptHEPKT⟩, ⟨11, 1, .ro, .value 0, keptHEPKT⟩, ⟨6, 3, .ro, .value 0, keptHEPKT⟩,
      ⟨3, 3, .ro, .value 0, keptHEPKT⟩, ⟨0, 3, .ro, .value 0, keptHEPKT⟩]⟩,
  ⟨0x6000038, [], [⟨25, 1, .w1c, .value 0, keptHEPKT⟩, ⟨24, 1, .w1c, .value 0, keptHEPKT⟩, ⟨16, 6, .w1c, .value 0, keptHEPKT⟩,
      ⟨8, 6, .w1c, .value 0, keptHEPKT⟩, ⟨0, 6, .w1c, .value 0, keptHEPKT⟩]⟩,
  ⟨0x7000000, [], [⟨48, 16, .ro, .image, keptHEPKT⟩, ⟨32, 16, .ro, .image, keptHEPKT⟩, ⟨0, 8, .ro, .image, keptHEPKT⟩]⟩,
  ⟨0x7000008, [], [⟨48, 11, .ro, .image, keptHEPKT⟩, ⟨32, 11, .ro, .image, keptHEPKT⟩, ⟨16, 11, .ro, .image, keptHEPKT⟩,
      ⟨0, 11, .ro, .image, keptHEPKT⟩]⟩,
  ⟨0x7000010, [], [⟨32, 32, .ro, .value 0, keptHEPKT⟩, ⟨4, 4, .ro, .value 0, keptHEPKT⟩, ⟨3, 1, .ro, .value 0, keptHEPKT⟩,
      ⟨0, 3, .ro, .value 0, keptHEPKT⟩]⟩,
  ⟨0x7000018, [], [⟨32, 32, .ro, .value 0, keptHEPKT⟩, ⟨0, 20, .ro, .value 0, keptHEPKT⟩]⟩,
  ⟨0x7000020, [], [⟨32, 32, .rw, .value 0, keptHEPKT⟩, ⟨0, 32, .rw, .value 0, keptHEPKT⟩]⟩]

/-- Every register of the device (R18). -/
def regLayout : List RegDesc :=
  regs01_0 ++ regs02_0 ++ regs03_0 ++ regs04_0 ++ regs05_0 ++ regs06_0 ++ regs07_0 ++ regs08_0 ++ regs09_0 ++ regs09_1 ++ regs10_0 ++ regs11_0 ++ regs12_0 ++ regs13_0 ++ regs14_0 ++ regs15_0 ++ regs15_1 ++ regs16_0 ++ regs17_0 ++ regs18_0

end Sys2Proof.Machine
end

