-- ==== Sys2Proof/Machine/State.lean ====
section
/-! DEFINITION. The state of the device as plain data: register fields, memories, chambers, helictites, and the queues and records of every engine. -/

namespace Sys2Proof.Machine

open Sys2Proof

/-- Reasons a step stops with a fault. No meaning of this model raises one: every event the spec describes has an effect (R390: the accessor of a violation is never told). Safe. -/
inductive Fault where
  /-- Raised by no meaning; kept so that the type is inhabited. Safe. -/
  | unreachable
  deriving DecidableEq, Repr

/-- Reasons a command is refused. -/
inductive Refusal where
  /-- The command has no meaning yet; raised only by an arm of exec. Safe: the machine stops where the device goes on. -/
  | notModelled (mnemonic : String)
  deriving DecidableEq, Repr

/-- A 2 MiB frame of memory (R238): bonded frame `i`, or frame `i` of the cartridge in a slot. -/
inductive Frame where
  | bonded (i : Nat)
  | cart (slot i : Nat)
  deriving DecidableEq, Repr

/-- A halt recorded but not yet entered (R60): the cause, the fields CHn_HALT will take, and what its error-log entry names. -/
structure HaltRec where
  cause   : Nat
  faultPc : Nat
  nextPc  : Nat
  tag     : Nat
  slot    : Nat
  source  : Nat
  addr    : Nat
  row     : Nat
  found   : Nat
  expected : Nat
  deriving DecidableEq, Repr

/-- A weight tile's content (R74, R182): present bands and element bits at window row * 256 + column. -/
structure WTile where
  bands : Nat
  data  : Map Nat
  deriving DecidableEq, Repr

/-- The row flags of an accumulator row (R125). -/
structure RowFlags where
  inv    : Bool
  invCol : Nat
  inf    : Bool
  nan    : Bool
  flush  : Bool
  deriving DecidableEq, Repr

/-- The sticky arithmetic flags an operation raises (R127). -/
structure Flags where
  invalid  : Bool
  overflow : Bool
  flush    : Bool
  deriving DecidableEq, Repr

/-- An entry of the array queues (R78): an mma or a wsw, with its operands as read at issue. -/
structure Mma where
  seq     : Nat
  pc      : Nat
  wsw     : Bool
  swap    : Bool
  swapped : Bool
  checked : Bool
  bad     : Bool
  atype   : Nat
  wtype   : Nat
  zero    : Bool
  maskz   : Bool
  msk     : Bool
  act     : Nat
  rows    : Nat
  acc     : Nat
  mask    : Nat
  pitch   : Nat
  inA     : Bool
  inB     : Bool
  nextA   : Nat
  endA    : Nat
  nextB   : Nat
  endB    : Nat
  startB  : Nat
  deriving DecidableEq, Repr

/-- A row on its way through an array (R91): the accumulator row it will update and what it brings. -/
structure InRow where
  seq    : Nat
  pc     : Nat
  row    : Nat
  wide   : Bool
  zero   : Bool
  vals   : List Lane
  flags  : List Flags
  deriving DecidableEq, Repr

/-- What a store's results bring to its tile status word (R126): the flags raised, whether a NaN or an infinity was produced, and the
stored row and column of the first INVALID. -/
structure StoreEv where
  flags : Flags
  nan   : Bool
  inf   : Bool
  inv   : Option (Nat × Nat)
  deriving DecidableEq, Repr

/-- A wait.sig that waits (R35, R55): since which cycle, its signal word and value, and whether it waits for equality. -/
structure WaitOn where
  since : Nat
  sig   : Nat
  value : Nat
  eq    : Bool
  deriving DecidableEq, Repr

/-- The kinds of asynchronous chamber operation (R32). -/
inductive AKind where
  | ldT | ldW | stT | stAdd | stAcc | stAccAdd | mv
  deriving DecidableEq, Repr

/-- An outstanding asynchronous operation (R32, R49), with its copied descriptor and how far it has come; the elements that have come for
local lines not complete yet, or for its tile; what the additions of a st.acc.add have shown; and the local writes that go with its tag. -/
structure AsyncOp where
  seq      : Nat
  pc       : Nat
  tag      : Nat
  kind     : AKind
  desc     : BitVec 1024
  laddr    : Nat
  src      : Nat
  len      : Nat
  otype    : Nat
  ieee     : Bool
  arr      : Nat
  stats    : Bool
  sscale   : Nat
  xmode    : Nat
  xslot    : Nat
  table    : List Byte
  tableOk  : Bool
  begun    : Bool
  count    : Nat
  mask     : Nat
  entries  : List (Option Nat)
  limit    : Nat
  pos      : Nat
  sent     : Bool
  failed   : Bool
  k        : Nat
  ovf      : Bool
  rerun    : Bool
  passEnd  : Bool
  flags    : Flags
  reason   : Nat
  buf      : List Byte
  elems    : Map Nat
  tsw      : Nat
  dest     : StoreEv
  outs     : List (Nat × List Byte)
  deriving DecidableEq, Repr

/-- A post held until the chamber's earlier stores are visible (R52). -/
structure HeldPost where
  seq   : Nat
  dev   : BitVec 8
  cc    : BitVec 2
  sig   : BitVec 12
  set   : Bool
  value : Word
  deriving DecidableEq, Repr

/-- A coder job in progress (R190, R195): a LOAD_TABLE that waits for its slot. -/
structure TableLoad where
  slot    : Nat
  bytes   : List Byte
  recAddr : Nat
  doneSig : Nat
  deriving DecidableEq, Repr

/-- A CODE job between two tiles (R193, R194): its record and signal, its source with the list's count and entries, its table, KROWS and
directory, the tiles coded and still to code, and where the next record goes. -/
structure CodeJob where
  recAddr : Nat
  sig     : Nat
  desc    : BitVec 1024
  count   : Nat
  entries : List (Option Nat)
  table   : List Byte
  krows   : Nat
  dir     : Nat
  tile    : Nat
  left    : Nat
  dst     : Nat
  waits   : List Nat
  deriving DecidableEq, Repr

/-- One chamber (R24), beside the registers of its CHn_ block. -/
structure Chamber where
  retStack : List Nat
  sregs    : Vector Word 32
  preds    : BitVec 8
  dregs    : Vector (BitVec 1024) 16
  vregs    : Vector Lanes 32
  turn     : Map (BitVec 16)
  bmem     : Memory
  lmem     : Memory
  errCount : Map Nat
  accA     : Map Lane
  accB     : Map Lane
  tagA     : Map Bool
  tagB     : Map Bool
  rowFlagsA : Map RowFlags
  rowFlagsB : Map RowFlags
  active   : WTile
  shadow   : WTile
  shadowOp : Option Nat
  loadBegin : Nat
  fedA     : Bool
  fedB     : Bool
  mmas     : List Mma
  inflightA : List InRow
  inflightB : List InRow
  ops      : List AsyncOp
  posts    : List HeldPost
  seq      : Nat
  halt     : Option HaltRec
  fenceWait : Bool
  waitSince : Option WaitOn
  resetting : Bool
  startNext : Option (Nat × List Word)
  item : Nat
  savedState : Nat
  cycBase  : Nat
  slots    : List (List Byte)
  tableLoad : Option TableLoad
  codeJob : Option CodeJob
  prog     : Option (Nat × Nat)
  rset     : Option Nat
  deriving DecidableEq, Repr

/-- The kinds of packet (R327). -/
inductive PKind where
  | write | readReq | readResp | post | done
  deriving DecidableEq, Repr

/-- A packet (R327): its header fields and its granules. -/
structure Packet where
  kind    : PKind
  vl      : Nat
  recipe  : Nat
  hops    : Nat
  src     : Nat
  dst     : Nat
  poison  : Nat
  addr    : Nat
  xfer    : Nat
  pkt     : Nat
  npkt    : Nat
  psig    : Nat
  pen     : Bool
  set     : Bool
  value   : Nat
  dtype   : Nat
  rowlen  : Nat
  opid    : Nat
  ngran   : Nat
  data    : List (List Byte)
  deriving DecidableEq, Repr

/-- A packet as it has left on a port: its LSEQ, its HCRC and the entries of its check flit (R327, R328, R332). -/
structure SentPacket where
  lseq   : Nat
  pkt    : Packet
  hcrc   : Nat
  checks : List Nat
  deriving DecidableEq, Repr

/-- A control flit that a port has sent (R328): the credits returned by VL and to the shared pool, the highest LSEQ received in order, the
NAK bit, and in the first one after training the node and the port number (R324). -/
structure CtlFlit where
  credits : Vector Nat 4
  shared  : Nat
  ack     : Nat
  nak     : Bool
  hello   : Option (Nat × Nat)
  deriving DecidableEq, Repr

/-- One Halgar port's link state beside its registers (R322, R330, R332): the packets that wait with the ingress port each holds a buffer
of, the replay buffer, the link sequence numbers, the credits held and their limits, the credits owed, the payload not yet a MiB, the flits
since the last control flit that was due, the control flits sent since cold start, the training attempts failed in a row, how often the
first packet has been replayed in a row, the cycles of the replays of the last millisecond, newest first, and whether errors made the port
retrain (R325). -/
structure Port where
  waiting  : List (Packet × Option Nat)
  replay   : List SentPacket
  nextLseq : Nat
  rxLseq   : Nat
  nak      : Bool
  reserved : Vector Nat 4
  shared   : Nat
  owed     : Vector Nat 4
  limit    : Vector Nat 4
  txBytes  : Nat
  rxBytes  : Nat
  flits    : Nat
  ctl      : List CtlFlit
  fails    : Nat
  repeats  : Nat
  replayAt : List Nat
  errs     : Bool
  deriving DecidableEq, Repr

/-- Who makes an access (R389, R377). -/
inductive Agent where
  | host | helictite | remote | unit | debug
  deriving DecidableEq, Repr

/-- An object of Flowstone (R241), and the latest deadline of its prefetches (R257). -/
structure Obj where
  id      : Nat
  base    : Nat
  size    : Nat
  pin     : Bool
  mirror  : Bool
  noheat  : Bool
  wanted  : Option Nat
  deriving DecidableEq, Repr

/-- The kinds of move (R251). -/
inductive MoveKind where
  | promotion | demotion | relocation
  deriving DecidableEq, Repr

/-- A Flowstone command that completes later (R242): the ring record it came in, or the token of an internal queue; whom it posts;
and a prefetch's deadline (R258). -/
structure Waiter where
  recAddr  : Option Nat
  token    : Nat
  sig      : Nat
  deadline : Nat
  deriving DecidableEq, Repr

/-- A queued or running move of an object, or of a page outside every object (R251, R263): its destination frames once started, the
prefetches that wait for its switch, the earliest deadline of the prefetches that asked for it and that command's number, PENDING_EVICT, and
the PIN that waits. -/
structure Move where
  obj      : Nat
  page     : Option Nat
  kind     : MoveKind
  started  : Bool
  dest     : Map Frame
  waiters  : List Waiter
  prefetch : Option Nat
  order    : Nat
  evict    : Bool
  pins     : List Waiter
  deriving DecidableEq, Repr

/-- An incoming transfer being assembled (R343, R347): the packets that have come, where the wire form is narrowed its granules, and its
writes that wait for a frame (R240). -/
structure RxXfer where
  src    : Nat
  xfer   : Nat
  first  : Packet
  got    : Nat
  grans  : Map (List Byte)
  bad    : Map Bool
  waits  : List Nat
  deriving DecidableEq, Repr

/-- An outgoing transfer of a collective job (R343), and the writes of a read that wait for a frame (R240). -/
structure TxXfer where
  xfer   : Nat
  job    : Nat
  node   : Nat
  isRead : Bool
  src    : Nat
  dst    : Nat
  npkt   : Nat
  got    : Nat
  waits  : List Nat
  deriving DecidableEq, Repr

/-- A collective job in progress (R341, R344): where its STATUS goes, whom it posts, how it stands, and whether its transfers are still being
set up. -/
structure CuJob where
  id      : Nat
  unit    : Nat
  recAddr : Option Nat
  doneSig : Option Nat
  token   : Nat
  poison  : Bool
  lost    : Bool
  starting : Bool
  deriving DecidableEq, Repr

/-- A ring reduce-scatter in progress at this member (R345): the job's record words and the ring step it is at. -/
structure RedJob where
  job    : Nat
  opid   : Nat
  words  : List Nat
  step   : Nat
  deriving DecidableEq, Repr

/-- A transfer that waits until its unit may have one more in flight (R343): a WRITE with its wire granules, or a read with its local
destination and its granules. -/
structure TxWait where
  unit  : Nat
  job   : Nat
  pkt   : Packet
  grans : List (List Byte × Bool)
  into  : Option (Nat × Nat)
  deriving DecidableEq, Repr

/-- A write that waits for a free frame (R240), with its number: its agent as GLB_VIOL_LAST.AGENT codes it, whether it is the twin
engine's, and whether its granule comes poisoned. -/
structure HeldWrite where
  id     : Nat
  addr   : Nat
  bytes  : List Byte
  agent  : Nat
  twin   : Bool
  poison : Bool
  deriving DecidableEq, Repr

/-- What ends a piece of work once its writes are visible: a post of 1 to a signal word (R177); a Siphon, coder or Flowstone job's end, a
collective job's transfer that ends, a completed transfer's PSIG and DONE, a collective job's own writes, a packet buffer returned, and the
bytes landed in a region (R163, R190, R242, R330, R343, R412). -/
inductive WorkEnd where
  | post (sig : Nat)
  | siphon (eng j a sig status bad : Nat)
  | coder (n recAddr sig status at_ : Nat)
  | flowstone (w : Waiter) (status : Nat)
  | transfer (xfer : Nat)
  | delivered (k : Packet)
  | job (id : Nat)
  | buffer (port vl : Nat)
  | landed (i n : Nat)
  deriving DecidableEq, Repr

/-- An end that waits until the held writes it names are visible (R240). -/
structure HeldEnd where
  waits : List Nat
  work  : WorkEnd
  deriving DecidableEq, Repr

/-- What waits for a free frame without a held write, because its request stays outstanding (R240): the operation of a chamber, and the
granule operation of a helictite, and the ledger's next WRITE or running COPY_IN. -/
inductive FrameWait where
  | chamber (n seq : Nat)
  | helictite (n slot : Nat)
  | ledger
  deriving DecidableEq, Repr

/-- The position of an engine on its job ring (R160): the signal's value at enable, the jobs taken, and the later jobs known to be the
other engine's, which Siphon's two engines skip (R161). -/
structure RingPos where
  v0    : Nat
  taken : Nat
  skips : List Nat
  deriving DecidableEq, Repr

/-- A remote expert's wave that Siphon has handed to a collective unit (R173): where its rows lie, and where they go. -/
structure DispatchReq where
  node   : Nat
  sig    : Nat
  rx     : Nat
  stype  : Nat
  dtype  : Nat
  rowLen : Nat
  rows   : List Nat
  deriving DecidableEq, Repr

/-- A normal access that waits for a claimed bank (R227): the granule, the bank, and since which cycle. -/
structure BankWait where
  gran  : Nat
  bank  : Nat
  since : Nat
  deriving DecidableEq, Repr

/-- A helictite's claim (R226 to R229): its byte range, the banks of its segment it names, whether it is in effect, the row open in each
bank (a bank that stands at a row boundary has none), the normal accesses that wait for one, and those that were waiting when the last
one came and are served before the helictite goes on. -/
structure Claim where
  hel     : Nat
  lo      : Nat
  hi      : Nat
  banks   : List Nat
  effect  : Bool
  rows    : Map Nat
  waiting : List BankWait
  passing : List BankWait
  deriving DecidableEq, Repr

/-- A job record in a unit's internal queue: the submitter's token and the record's words (R279, R316, R341), and how many jobs of the
unit's ring were posted before it (R279). -/
structure QueuedJob where
  token : Nat
  words : List Nat
  behind : Nat
  deriving DecidableEq, Repr

/-- An outstanding granule operation of a helictite (R219, R220): read or write, its slot, its unified address, or none for a foreign
block of a deinterleave window (R233), and the cycle it issued in. -/
structure HelOp where
  write : Bool
  slot  : Nat
  addr  : Option Nat
  since : Nat
  deriving DecidableEq, Repr

/-- How a helictite's program ended (R221, R224): STATUS, the instruction, and the code of a trap. -/
structure HelEnd where
  status : Nat
  pc     : Nat
  code   : Nat
  deriving DecidableEq, Repr

/-- One helictite (R215), with its outstanding operations, the flags it has raised, and since when it waits in xrecv. -/
structure Hel where
  pc      : Nat
  prog    : Map Word
  progId  : Nat
  xregs   : Vector Word 16
  hregs   : Vector HLanes 16
  scratch : Memory
  queue   : List Word
  ops     : List HelOp
  running : Bool
  ended   : Option HelEnd
  flags   : Flags
  xrecvAt : Option Nat
  deriving DecidableEq, Repr

/-- A running helictite job (R222 to R224): its number, where its record lies or the token of an internal job, whom it posts, its
targets, the byte ranges it holds (R255), and its first failure. -/
structure HlcJob where
  job     : Nat
  recAddr : Option Nat
  token   : Nat
  doneSig : Nat
  targets : List Nat
  holds   : List (Nat × Nat)
  fault   : Option (Nat × HelEnd)
  poisonAt : Nat
  deriving DecidableEq, Repr


/-- What arrived during Hold and takes effect at resume, in order (R461): a write to CHn_CTL (R59), a port reset, a cartridge's
latch, removal or reset, a change of power state, or a twin takeover with its cause. -/
inductive Deferred where
  | ctl (n : Nat) (agent pc : Nat) (bad reset stop start : Bool) (args : Option (List Word))
  | portReset (n : Nat)
  | latchClose (m : Nat)
  | latchOpen (m : Nat)
  | removed (m : Nat)
  | wake
  | pstate (st : Nat)
  | takeover (cause : Nat)
  deriving DecidableEq, Repr


/-- A step that waits for Traverse or runs in it (R268): its ledger record, the plan's address and the stamp n. -/
structure StepReq where
  gen   : Nat
  k     : Nat
  plan  : Nat
  stamp : Nat
  deriving DecidableEq, Repr

/-- Traverse's copy of a plan (R269 to R273): the plan's base and the words of the header and of each table's entries. -/
structure Plan where
  base   : Nat
  header : List Nat
  items  : List (List Nat)
  segs   : List Nat
  gathers : List (List Nat)
  rings  : List (List Nat)
  queues : List (List Nat)
  progs  : List (List Nat)
  deriving DecidableEq, Repr

/-- An instance of a work item (R275). -/
structure Inst where
  item   : Nat
  mb     : Nat
  part   : Nat
  hop    : Nat
  recomp : Bool
  deriving DecidableEq, Repr

/-- A running instance: on a chamber, or a helictite job known by its token (R278, R279). -/
structure RunInst where
  inst    : Inst
  chamber : Option Nat
  token   : Nat
  deriving DecidableEq, Repr

/-- A gather entry in this step (R284 to R287): its job's token and whether that is in flight, whether the copy is present or has
been dropped, and the token of the RELEASE that drops it. -/
structure GathSt where
  token   : Nat
  flying  : Bool
  present : Bool
  dropped : Bool
  release : Nat
  deriving DecidableEq, Repr

/-- How a step fails (R294): STATUS and CAUSE of TRV_LAST, and the failed instance with its code. -/
structure StepFail where
  status : Nat
  cause  : Nat
  code   : Nat
  inst   : Option Inst
  deriving DecidableEq, Repr

/-- The running step (R268 to R296): its plan; the instances completed, begun and running; the microbatches admitted (R280) and
those whose B items have been prefetched; the gathers; the ring blocks and queue slots sent, by ring or queue, number in the
step and token of the job; the ring blocks given back; the failure and when the step failed; whether its chambers have been
stopped; since when no instance runs; and, in a twin's COMMIT, how many mirror copies go ahead of the mark (R480). -/
structure Step where
  req      : StepReq
  plan     : Plan
  done     : List Inst
  begun    : List Inst
  running  : List RunInst
  admitted : Nat
  bFetched : List Nat
  gath     : Map GathSt
  ringSent : List (Nat × Nat × Nat)
  ringFreed : List (Nat × Nat)
  qSent    : List (Nat × Nat × Nat)
  fail     : Option StepFail
  failAt   : Nat
  stopped  : Bool
  idleAt   : Option Nat
  mark     : Option Nat
  deriving DecidableEq, Repr

/-- A ledger record that has started (R404, R406): its attachment and index, its operation and fields, how many bytes of a copy are
done and whether it met poison, and, once its operation has ended, its STATUS, CAUSE and CODE (R408). -/
structure LedgerRec where
  gen    : Nat
  k      : Nat
  op     : Nat
  post   : Bool
  set    : Bool
  irq    : Bool
  sig    : Nat
  value  : Nat
  tag    : Nat
  addr   : Nat
  stamp  : Nat
  haddr  : Nat
  bytes  : Nat
  copied : Nat
  poison : Bool
  status : Nat
  cause  : Nat
  code   : Nat
  deriving DecidableEq, Repr

/-- A completion that has not been written yet (R407): what it says, but for HELD and PHASE, and its record's IRQ. -/
structure Completion where
  entry   : LedgerRec
  errSeq : Nat
  deriving DecidableEq, Repr

/-- A write that the device makes to host memory (R405, R407): its host physical address, its bytes, and whether poison is indicated. -/
structure HostWrite where
  addr   : Nat
  bytes  : List Byte
  poison : Bool
  deriving DecidableEq, Repr

/-- A worker of a keeper table in the step at hand (R316): 0 waits for its gradient, 1 for the version hold, 2 its update job runs,
3 its send is in flight, 4 its send is visible; the token of the job or send, and the chamber of an update that runs on one. -/
structure KprWorker where
  stage   : Nat
  token   : Nat
  chamber : Option Nat
  deriving DecidableEq, Repr

/-- What a keeper table is doing (R315, R316, R319): the COPY passes of a fresh start, the WEIGHT passes of a takeover, or its steps. -/
inductive KprMode where
  | copy | weight | run
  deriving DecidableEq, Repr

/-- A keeper table that the service runs (R314): its address and words, the STAMP0 it counts from (of its header, or of the service
record it was resumed from, R319), the version, the workers, the mark that a twin's publication waits for (R480), and whether STOP has been
written (R320). -/
structure Keeper where
  base     : Nat
  header   : List Nat
  entries  : List (List Nat)
  stamp0   : Nat
  version  : Nat
  mode     : KprMode
  workers  : List KprWorker
  mark     : Option Nat
  stopping : Bool
  deriving DecidableEq, Repr

/-- A granted transfer of an arbiter (R358, R361): its requester, its beats and those still to come, whether it is locked and a slot
grant, and the requester's age before the grant. -/
structure Grant where
  req    : Nat
  total  : Nat
  left   : Nat
  locked : Bool
  slot   : Bool
  age    : Nat
  deriving DecidableEq, Repr

/-- An arbiter (R353, R354, R357, R358): its slot pointer, the credits and ages of its requesters, the transfer that runs, the one granted to
begin next, and the requests not granted yet, oldest first. -/
structure Arb where
  ptr    : Nat
  credit : Vector Int 8
  age    : Vector Nat 8
  run    : Option Grant
  next   : Option Grant
  queue  : List ArbReq
  deriving DecidableEq, Repr

/-- MSI-X (R395, R396): how often each vector has been raised since cold start and how often its message has been sent, the table of BAR2 as
eight words (for vector v the message's address, then its data with the vector control above it), and the pending bits. -/
structure Msix where
  raised : Map Nat
  sent   : Map Nat
  table  : Map Nat
  pba    : Nat
  deriving DecidableEq, Repr

/-- An HDM decoder (R391, R398): base and size in host physical addresses, granularity and ways as CXL codes them, and whether it is committed. -/
structure Decoder where
  base      : Nat
  size      : Nat
  gran      : Nat
  ways      : Nat
  committed : Bool
  deriving DecidableEq, Repr

/-- A line of the snoop filter (R399, R418): the order it was granted in, and whether the host holds it with write permission. -/
structure SnoopLine where
  seq : Nat
  own : Bool
  deriving DecidableEq, Repr

/-- What Lantern keeps of the booted image: TWIN_CUR and TWIN_MIN of its IDENTITY section (R425), and the SHA-256 of its bytes
0 to SIG_OFF − 1 (R437). -/
structure BootInfo where
  twinCur : Nat
  twinMin : Nat
  hash    : List Byte
  deriving DecidableEq, Repr

/-- An image staging (R432, R433): where it lies in the unified range, and how many bytes from there are sealed. -/
structure Staging where
  base  : Nat
  bytes : Nat
  deriving DecidableEq, Repr

/-- The JTAG port (R438, R440): the bits it last shifted out, the boundary register, and whether EXTEST drives the pins from it. -/
structure Jtag where
  out      : Nat
  boundary : Nat
  extest   : Bool
  deriving DecidableEq, Repr

/-- A message of the twin engine to its partner (R480 to R483): a heartbeat with TWN_STATE, a mark behind every earlier mirror write
with the stamp it commits, the final mark of a handover, an acknowledgement, and the end of a resync. -/
inductive TwinMsg where
  | heartbeat (state : Nat)
  | mark (stamp : Nat)
  | handover
  | ack (stamp : Nat)
  | paired
  deriving DecidableEq, Repr

/-- The whole state of the device, and the queue of commands that wait. -/
structure State where
  /-- The commands that wait, first in, first out. -/
  pending : List Instr
  /-- Register fields that do not hold their reset value's source: key FieldRef.key (R9). -/
  fields : Map Nat
  /-- Reset values other than 0: fuses and the constants of the Reset columns, by field key (R9). -/
  straps : Map Nat
  /-- Reset values loaded from the Mucia image, by field key (R9); empty until an image loads. -/
  image : Map Nat
  /-- ACLK cycles since cold start; FLS_NOW counts its microseconds (R267). -/
  cycle : Nat
  /-- ACLK cycles since cold start in which the chambers' clock enable was high (R41, R95, R98, R452). -/
  aclk : Nat
  /-- The model's own counter: how many free values have been drawn. -/
  freeCount : Nat
  /-- The unified range by unified address (R13, R15). -/
  mem : Memory
  /-- Poisoned granules by granule number (R375). -/
  poison : Map Bool
  /-- Granules whose Z bit is 0, by granule number (R265). -/
  nonzero : Map Bool
  /-- The frame each page holds; a page not listed is ZERO or unpopulated (R238). -/
  pages : Map Frame
  /-- Heat counters by page (R247). -/
  heat : Map Nat
  /-- Flowstone's registered objects, in rising identifier (R241). -/
  objects : List Obj
  /-- Granules whose mirror copies wait to be sent, oldest first (R478). -/
  mirrorQ : List Nat
  /-- Writes that wait for a free frame, oldest first (R240). -/
  heldWrites : List HeldWrite
  /-- Writes held so far, which numbers them. -/
  heldSeq : Nat
  /-- Ends of work that wait for held writes, oldest first (R177, R240). -/
  heldEnds : List HeldEnd
  /-- Operations whose request found no free frame and stays outstanding (R240). -/
  frameWaits : List FrameWait
  /-- The snoop filter: the lines the host holds cached (R399). -/
  snoop : Map SnoopLine
  /-- Grants made by the snoop filter so far. -/
  snoopSeq : Nat
  /-- Lines whose back-invalidation has been sent and not answered (R381, R399). -/
  biWait : List Nat
  /-- One more than the cycle in which the last violation was counted: key 0 in GLB_VIOL_COUNT, n + 1 in CHn_VIOL_COUNT (R154, R389). -/
  violAt : Map Nat
  /-- MSI-X: the vectors' raises, the table and the pending bits of BAR2 (R395, R396). -/
  irq : Msix
  /-- CXL component registers of BAR2 as last written, by word offset (R395). -/
  component : Map Nat
  /-- The HDM decoders of BAR2's component registers (R391, R395, R398). -/
  decoders : Vector Decoder 2
  /-- Chambers by physical index; one not listed is as after reset (R24). -/
  chambers : Map Chamber
  /-- Halgar ports by index; one not listed is as after a port reset (R330). -/
  ports : Map Port
  /-- Packets lost under R338 since cold start, oldest first. -/
  lost : List Packet
  /-- PREFETCH commands that Flowstone has taken, which numbers them (R254). -/
  prefetches : Nat
  /-- Queued and running moves, oldest first (R251, R254). -/
  moves : List Move
  /-- Positions of the engines on their job rings: 0 route, 1 combine, 2 helictites, 3 Flowstone, 4 CU0, 5 CU1, 8 + n the coder of chamber n (R160). -/
  rings : Map RingPos
  /-- Incoming transfers being assembled. -/
  rx : List RxXfer
  /-- Outgoing transfers in flight (R343). -/
  tx : List TxXfer
  /-- Transfers of collective jobs that wait for others to end, oldest first (R343). -/
  txWait : List TxWait
  /-- Collective jobs in progress. -/
  cuJobs : List CuJob
  /-- Ring reduce-scatters in progress (R345). -/
  redJobs : List RedJob
  /-- Transfer numbers given so far, modulo 2^24 (R327). -/
  xferSeq : Nat
  /-- STATUS of the collective jobs of internal queues, by the submitter's token (R341). -/
  cuDone : Map Nat
  /-- Waves handed to the collective units, oldest first (R173). -/
  dispatchQ : List DispatchReq
  /-- The claims that helictites hold or wait for (R226). -/
  claims : List Claim
  /-- What waits for the end of Hold, in the order it arrived (R461). -/
  deferred : List Deferred
  /-- The cycle at which Hold began. -/
  holdSince : Nat
  /-- The device has declared itself failed (R70). -/
  devFailed : Bool
  /-- A chamber pending retirement is kept in service because no spare is left (R70). -/
  keptNoSpare : Bool
  /-- The collective units' internal queue, oldest first (R341). -/
  cuQueue : List QueuedJob
  /-- Helictites by index 96L + s; one not listed is as after cold start (R201, R215). -/
  hels : Map Hel
  /-- The exchange bus of each layer (R232): the helictite that stands first in the next round, its index in the layer, and one more than
  the MCLK cycle the bus was last taken in. -/
  xbus : Map (Nat × Nat)
  /-- Helictite jobs of internal queues, oldest first (R279, R316). -/
  hlcQueue : List QueuedJob
  /-- Running helictite jobs, in start order (R223). -/
  hlcJobs : List HlcJob
  /-- STATUS of the helictite jobs of internal queues, by the submitter's token. -/
  hlcDone : Map Nat
  /-- The hottest sensor of each layer, in 1/16 degree (R209). -/
  layerTemp : Map Nat
  /-- Refreshes a claim has postponed, by segment * 16 + bank (R208). -/
  refreshOwed : Map Nat
  /-- Corrected errors since cold start, by (segment * 16 + bank) * 2048 + row (R213). -/
  rowErr : Map Nat
  /-- Spare rows used, by segment * 16 + bank (R213). -/
  rowMoved : Map Nat
  /-- Flowstone commands of internal queues, oldest first (R242). -/
  flsQueue : List QueuedJob
  /-- STATUS of the Flowstone commands of internal queues, by the submitter's token. -/
  flsDone : Map Nat
  /-- The DRAIN command that the drain in progress answers (R262). -/
  drainCmd : Option Waiter
  /-- The cycle of the button press that started the drain in progress (R471). -/
  drainPress : Option Nat
  /-- Pages whose frame went with a failed cartridge and that hold none yet (R264). -/
  lostPages : Map Bool
  /-- FLS_NOW at the last epoch end (R248). -/
  epochAt : Nat
  /-- CODE patterns that slot attention LEDs show, by slot (R468, R469). -/
  slotCode : Map Nat
  /-- The CODE pattern that the device attention LED shows; 0 none (R470). -/
  devCode : Nat
  /-- Tokens given so far to jobs of internal queues (R242, R279, R341). -/
  tokens : Nat
  /-- Steps that Lantern has queued for Traverse, oldest first (R268, R406). -/
  stepQueue : List StepReq
  /-- The step that Traverse runs (R268). -/
  trv : Option Step
  /-- Ledger records that have started and whose operation has not ended, oldest first (R406). -/
  openRecs : List LedgerRec
  /-- Ledger records whose operation has ended and that have not completed, in the order in which they ended (R407). -/
  endedRecs : List LedgerRec
  /-- Completions not written yet, in the order in which their records completed (R407, R417). -/
  heldCmpl : List Completion
  /-- TAIL as the device last read it from the doorbell line (R402). -/
  ledgerTail : Nat
  /-- CMPL_HEAD as the device last read it (R402). -/
  cmplHead : Nat
  /-- Completions written since ATTACH (R407). -/
  cmplCount : Nat
  /-- A record of the current ledger has completed with a status other than OK (R406). -/
  ledgerBad : Bool
  /-- What the device has written to host memory since cold start, oldest first; the host's memory itself lies outside the model. -/
  hostWrites : List HostWrite
  /-- The data that the device last returned to a host, debug or JTAG access, and whether poison was indicated (R400, R411, R438). -/
  hostReply : List Byte × Bool
  /-- A completion with IRQ = 1 has been written since vector 0 was last raised (R396). -/
  irqWait : Bool
  /-- The cycle at which vector 0 was last raised (R396). -/
  irqAt : Option Nat
  /-- The keeper service's own table (R315). -/
  kpr : Option Keeper
  /-- STAMP0 of the own table as the service last read it (R319). -/
  kprStamp0 : Nat
  /-- The partner's table that a surviving keeper runs (R319). -/
  kprPeer : Option Keeper
  /-- Arbiters: shafts 0 to 95, egress ports 96 to 103, mover ports 104 to 109 (R353); one not listed is as after cold start. -/
  arbs : Map Arb
  /-- The slot table that each set runs on (R365, R366). -/
  arbUse : Map Nat
  /-- Since when a back-invalidation has been outstanding with none answered (R401). -/
  biAt : Option Nat
  /-- Memory_Active of the PCIe DVSEC for CXL devices (R397). -/
  memActive : Bool
  /-- ATTACH commands carried out since cold start; HST_LINK.ATTACH_GEN is this modulo 2^16 (R415). -/
  attachments : Nat
  /-- Records of the current or last ledger that have started (R406, R415). -/
  started : Nat
  /-- A DETACH has been accepted and has not responded yet (R414). -/
  detaching : Bool
  /-- The boot flash by flash offset (R421, R422); a byte not listed is erased, 0xFF. -/
  flash : Map Byte
  /-- What Lantern keeps of the booted image (R425, R437). -/
  booted : BootInfo
  /-- The open image staging, or the one whose flash write runs (R432, R433). -/
  staging : Option Staging
  /-- The attestation counter in flash (R422, R436). -/
  attCounter : Nat
  /-- The top leaf that the current bottom tree is signed with (R435). -/
  topLeaf : Nat
  /-- DEV_ID, fused (R437, R495). -/
  devId : List Byte
  /-- The device's public attestation key (R435, R437). -/
  devKey : List Byte
  /-- The JTAG port and its boundary register (R438, R440). -/
  jtag : Jtag
  /-- A cold reset is applied and boot has not begun (R449). -/
  inReset : Bool
  /-- THERMTRIP_N is asserted, which holds the cold reset (R465). -/
  tripped : Bool
  /-- The cause latch of R449: the cause and rail of the cold reset, powered by VDD_AUX. -/
  rstLatch : Option (Nat × Nat)
  /-- VDD_CORE in millivolts, as last reported (R456, R458). -/
  vddMv : Nat
  /-- The cycles at which dips have begun, newest first, the last 16 (R458). -/
  dips : List Nat
  /-- Cycles that the conditions of Doze have held (R454). -/
  dozeIdle : Nat
  /-- Cycles that the conditions of Keep have held (R454). -/
  keepIdle : Nat
  /-- The last excess the governor lowered a duty for was a DRAM temperature (R464). -/
  govDram : Bool
  /-- A VDD_CORE current sample has exceeded ICC_A in this interval (R464). -/
  iccSeen : Bool
  /-- CTG_PWREN of each slot (R487, R488). -/
  slotPower : Map Bool
  /-- The cycle of the press that asked for the handover in progress (R475). -/
  handPress : Option Nat
  /-- The final mark of a handover has been sent (R482). -/
  handMark : Bool
  /-- What the twin engine has sent its partner beside mirror copies, oldest first (R480 to R483). -/
  twinSent : List TwinMsg
  /-- The cycle of the last heartbeat sent (R481). -/
  hbSentAt : Option Nat
  /-- The cycle at which a heartbeat last arrived, or the pair was formed (R481). -/
  hbSeenAt : Nat
  /-- A takeover that has been decided and not yet carried out, with its cause (R481). -/
  takeoverDue : Option Nat
  /-- Bytes sent by mirroring and resync that do not make up a GiB yet (TWN_COUNT.MIRROR_GIB). -/
  mirrorBytes : Nat
  /-- The device key nodes in flash have failed their check against the fused hash (R435). -/
  keyBad : Bool
  deriving DecidableEq, Repr

/-- The row flags of a row nothing has written (R125). -/
def RowFlags.reset : RowFlags := ⟨false, 0, false, false, false⟩

/-- A weight buffer half after reset (R58). -/
def WTile.reset : WTile := ⟨0, []⟩

/-- A chamber after reset: registers, turn tiles, accumulators, weight buffers and memories zero (R58, R450). -/
def Chamber.reset : Chamber :=
  { retStack := [], sregs := Vector.replicate 32 0, preds := 0, dregs := Vector.replicate 16 0
    vregs := Vector.replicate 32 (Vector.replicate 128 0), turn := [], bmem := [], lmem := [], errCount := []
    accA := [], accB := [], tagA := [], tagB := [], rowFlagsA := [], rowFlagsB := []
    active := WTile.reset, shadow := WTile.reset, shadowOp := none, loadBegin := 0, fedA := false, fedB := false
    mmas := [], inflightA := [], inflightB := [], ops := [], posts := [], seq := 0
    halt := none, fenceWait := false, waitSince := none, resetting := false, startNext := none, item := 0
    savedState := 0, cycBase := 0, slots := [[], []], tableLoad := none, codeJob := none, prog := none, rset := none }

/-- A port after a port reset (R326): nothing sent, nothing owed, no credit yet. -/
def Port.reset : Port :=
  { waiting := [], replay := [], nextLseq := 0, rxLseq := 0, nak := false
    reserved := Vector.replicate 4 0, shared := 0, owed := Vector.replicate 4 0, limit := Vector.replicate 4 0
    txBytes := 0, rxBytes := 0
    flits := 0, ctl := [], fails := 0, repeats := 0, replayAt := [], errs := false }

/-- Fuses and constant reset values of one chamber: enabled chambers 0 to 23 with LOGICAL equal to the index, spares 24 to 27
with LOGICAL 0x1F, no bypassed column (DESIGN CHOICE, log entry 3). -/
def chamberStraps (n : Nat) : Map Nat :=
  [((Reg.CHn_STATUS_STATE n).key, if n < 24 then 1 else 0),
   ((Reg.CHn_STATUS_LOGICAL n).key, if n < 24 then n else 0x1F),
   ((Reg.CHn_CAP_BUNDLES n).key, 0x1000), ((Reg.CHn_CAP_LMEM_BANKS n).key, 32), ((Reg.CHn_CAP_LMEM_MIB n).key, 16),
   ((Reg.CHn_CAP_COLS16_A n).key, 128), ((Reg.CHn_CAP_COLS16_B n).key, 128), ((Reg.CHn_CAP_EUCEN_REV n).key, 1)]

/-- The reset values that are not 0 (R9): the fuses of an RBN-T12 as shipped and the constants of the Reset columns. -/
def resetStraps : Map Nat :=
  [(Reg.GLB_ID_PART.key, 0x5412), (Reg.GLB_ID_STEPPING.key, 3), (Reg.GLB_ID_LAYERS.key, 12), (Reg.GLB_ID_CH_BUILT.key, 28),
   (Reg.GLB_CHMAP_ENABLED.key, 0xFFFFFF)]
  ++ (List.range 28).flatMap chamberStraps
  ++ [(Reg.HLC_REPAIR_MIN_FREE.key, 198)]
  ++ [(Reg.PCR_GOV_STAT_DUTY_A.key, 64), (Reg.PCR_GOV_STAT_DUTY_H.key, 64)]
  ++ [((Reg.SEC_KEYHASHk_BYTES 0).key, 0xF19FDD72581BCC5D), ((Reg.SEC_KEYHASHk_BYTES 1).key, 0x01DAEF1F1F5034C2),
      ((Reg.SEC_KEYHASHk_BYTES 2).key, 0xE1C383154E1664F6), ((Reg.SEC_KEYHASHk_BYTES 3).key, 0x31AB8875A4BE3DBB)]

/-- A helictite after cold start (R225): all of its state zero. -/
def Hel.reset : Hel :=
  { pc := 0, prog := [], progId := 0, xregs := Vector.replicate 16 0, hregs := Vector.replicate 16 (Vector.replicate 16 0)
    scratch := [], queue := [], ops := [], running := false, ended := none, flags := ⟨false, false, false⟩, xrecvAt := none }

/-- An arbiter after cold start: pointer, credits and ages zero, nothing granted. -/
def Arb.reset : Arb := { ptr := 0, credit := Vector.replicate 8 0, age := Vector.replicate 8 0, run := none, next := none, queue := [] }

/-- The MSI-X table after a reset of the HS die: every vector masked (PRESUMED, log entry 85). -/
def msixTable : Map Nat := [(1, 2 ^ 32), (3, 2 ^ 32), (5, 2 ^ 32), (7, 2 ^ 32)]

/-- MSI-X with nothing raised. -/
def Msix.reset : Msix := ⟨[], [], msixTable, 0⟩

/-- An HDM decoder that the host has not programmed. -/
def Decoder.reset : Decoder := ⟨0, 0, 0, 0, false⟩

/-- A ring position of an engine never enabled. -/
def RingPos.reset : RingPos := ⟨0, 0, []⟩

/-- Nothing booted. -/
def BootInfo.reset : BootInfo := ⟨0, 0, List.replicate 32 0⟩

/-- The JTAG port before any instruction. -/
def Jtag.reset : Jtag := ⟨0, 0, false⟩

/-- DEV_ID of the modelled part: 16 zero bytes (DESIGN CHOICE, log entry 3). -/
def zeroId : List Byte := List.replicate 16 0

/-- The public attestation key of the modelled part: 60 zero bytes (DESIGN CHOICE, log entry 3). -/
def zeroKey : List Byte := List.replicate 60 0

/-- The device right after the power-on cold reset, before boot (R446, R450): every field at its reset value, fuses as State.straps lists them, every memory and queue empty. -/
def State.reset : State :=
  { pending := []
    fields := []
    straps := resetStraps
    image := []
    cycle := 0
    aclk := 0
    freeCount := 0
    mem := []
    poison := []
    nonzero := []
    pages := []
    heat := []
    objects := []
    mirrorQ := []
    heldWrites := []
    heldSeq := 0
    heldEnds := []
    frameWaits := []
    snoop := []
    snoopSeq := 0
    biWait := []
    violAt := []
    irq := Msix.reset
    component := []
    decoders := Vector.replicate 2 Decoder.reset
    chambers := []
    ports := []
    lost := []
    prefetches := 0
    moves := []
    rings := []
    rx := []
    tx := []
    txWait := []
    cuJobs := []
    redJobs := []
    xferSeq := 0
    cuDone := []
    dispatchQ := []
    claims := []
    deferred := []
    holdSince := 0
    devFailed := false
    keptNoSpare := false
    cuQueue := []
    hels := []
    xbus := []
    hlcQueue := []
    hlcJobs := []
    hlcDone := []
    layerTemp := []
    refreshOwed := []
    rowErr := []
    rowMoved := []
    flsQueue := []
    flsDone := []
    drainCmd := none
    drainPress := none
    lostPages := []
    epochAt := 0
    slotCode := []
    devCode := 0
    tokens := 0
    stepQueue := []
    trv := none
    openRecs := []
    endedRecs := []
    heldCmpl := []
    ledgerTail := 0
    cmplHead := 0
    cmplCount := 0
    ledgerBad := false
    hostWrites := []
    hostReply := ([], false)
    irqWait := false
    irqAt := none
    kpr := none
    kprStamp0 := 0
    kprPeer := none
    arbs := []
    arbUse := []
    biAt := none
    memActive := false
    attachments := 0
    started := 0
    detaching := false
    flash := []
    booted := BootInfo.reset
    staging := none
    attCounter := 0
    topLeaf := 0
    devId := zeroId
    devKey := zeroKey
    jtag := Jtag.reset
    inReset := true
    tripped := false
    rstLatch := some (1, 0)
    vddMv := 750
    dips := []
    dozeIdle := 0
    keepIdle := 0
    govDram := false
    iccSeen := false
    slotPower := []
    handPress := none
    handMark := false
    twinSent := []
    hbSentAt := none
    hbSeenAt := 0
    takeoverDue := none
    mirrorBytes := 0
    keyBad := false }

end Sys2Proof.Machine
end

