-- ==== Sys2Proof/Machine/Packets.lean ====
section
/-! DEFINITION. Packets on the wire: the header flit, its HCRC, the check flit, and the check of a packet that comes in (R327 to R329). -/

namespace Sys2Proof.Machine

open Sys2Proof

/-- KIND of a packet (R327). -/
def PKind.code : PKind → Nat
  | .write => 1
  | .readReq => 2
  | .readResp => 3
  | .post => 4
  | .done => 5

/-- Words 0 to 6 of a packet's header flit (R327). -/
def Packet.headerWords (k : Packet) (lseq : Nat) : List Nat :=
  [k.kind.code + k.vl % 4 * 2 ^ 4 + k.recipe % 4 * 2 ^ 6 + k.ngran % 32 * 2 ^ 8 + k.hops % 16 * 2 ^ 16 + k.src % 256 * 2 ^ 24 +
     k.dst % 256 * 2 ^ 32 + k.poison % 2 ^ 16 * 2 ^ 48,
   k.addr % 2 ^ 48,
   k.xfer % 2 ^ 24 + k.pkt % 2 ^ 24 * 2 ^ 24,
   k.npkt % 2 ^ 24 + k.psig % 2 ^ 12 * 2 ^ 24 + b2n k.pen * 2 ^ 36 + b2n k.set * 2 ^ 37,
   k.value % 2 ^ 64,
   k.dtype % 16 + k.rowlen % 2 ^ 16 * 2 ^ 16,
   k.opid % 2 ^ 32 + lseq % 2 ^ 12 * 2 ^ 32]

/-- HCRC: the CRC-32C of the header's bytes 0 to 55 (R327). -/
def Packet.hcrc (k : Packet) (lseq : Nat) : BitVec 32 := crc32c (wordsToBytes (k.headerWords lseq))

/-- The entries of the check flit: the CRC-32C of each granule in order (R328). -/
def Packet.checks (k : Packet) : List (BitVec 32) := k.data.map crc32c

/-- A packet as it leaves under an LSEQ, with its checks made from its wire content (R327 to R329). -/
def Packet.sealed (k : Packet) (lseq : Nat) : SentPacket := ⟨lseq, k, (k.hcrc lseq).toNat, k.checks.map (·.toNat)⟩

/-- Flits of a packet: the header, four for each granule, and the check flit (R322). -/
def Packet.flits (k : Packet) : Nat := 4 * k.data.length + 2

/-- A packet as it came in. -/
def inPacket (kind : PKind) (k : InPacket) : Packet :=
  { kind := kind, vl := k.vl.val, recipe := k.recipe.toNat, hops := k.hops.toNat, src := k.src.toNat, dst := k.dst.toNat
    poison := k.poison.toNat, addr := k.addr.toNat, xfer := k.xfer.toNat, pkt := k.pkt.toNat, npkt := k.npkt.toNat
    psig := k.psig.toNat, pen := k.pen, set := k.set, value := k.value.toNat, dtype := k.dtype.toNat, rowlen := k.rowlen.toNat
    opid := k.opid.toNat, ngran := k.ngran.val, data := k.data }

/-- Every check of a packet that comes in passes: no uncorrectable codeword, the HCRC, and each granule's check (R329, R332). -/
def packetIntact (kind : PKind) (k : InPacket) : Bool :=
  k.uncorr == 0 && k.hcrc == (inPacket kind k).hcrc k.lseq.toNat && k.checks == (inPacket kind k).checks

end Sys2Proof.Machine
end

