-- ==== Sys2Proof/Machine/Fields.lean ====
section
/-! DEFINITION. Operations on single parts of the state: register fields, chambers, ports, violations, interrupts, the error log and signals. -/

namespace Sys2Proof.Machine

open Sys2Proof

/-! ## Register fields (R6 to R10) -/

/-- The value a field takes at every reset it does not survive: from the image, or from the fuses and constants (R9). -/
def State.resetOf (s : State) (key : Nat) : Nat := (mapFind s.image key).getD (mapGet 0 s.straps key)

/-- The current value of a register field. -/
def State.get (s : State) (f : FieldRef) : Nat := (mapFind s.fields f.key).getD (s.resetOf f.key)

/-- A register field given a value, cut to the field's width. -/
def State.put (s : State) (f : FieldRef) (v : Nat) : State :=
  { s with fields := mapInsert s.fields f.key (v % 2 ^ f.w) }

/-- A one-bit field as a truth value. -/
def State.flag (s : State) (f : FieldRef) : Bool := s.get f == 1

/-- A counter field increased, modulo its width (R98). -/
def State.count (s : State) (f : FieldRef) (n : Nat) : State := s.put f (s.get f + n)

/-- A counter field increased, saturating. -/
def State.countSat (s : State) (f : FieldRef) (n : Nat) : State := s.put f (satAdd f.w (s.get f) n)

/-- Several fields written in order. -/
def State.puts (s : State) : List (FieldRef × Nat) → State
  | [] => s
  | (f, v) :: fs => (s.put f v).puts fs

/-- FLS_NOW.US: microseconds since cold start, at 1,700 ACLK cycles each (R5, R267). -/
def State.nowUs (s : State) : Nat := s.cycle / 1700 % 2 ^ 48

/-- The next number of the model's free-value counter, and the state with it drawn. -/
def State.drawFree (s : State) : Nat × State := (s.freeCount, { s with freeCount := s.freeCount + 1 })

/-! ## Chambers -/

/-- Chamber `n`'s state beside its registers. -/
def State.ch (s : State) (n : Nat) : Chamber := mapGet Chamber.reset s.chambers n

/-- Chamber `n` replaced. -/
def State.setCh (s : State) (n : Nat) (c : Chamber) : State := { s with chambers := mapSet Chamber.reset s.chambers n c }

/-- Chamber `n` changed by a function. -/
def State.modCh (s : State) (n : Nat) (f : Chamber → Chamber) : State := s.setCh n (f (s.ch n))

/-! ## Ports -/

/-- Port `n`'s link state. -/
def State.port (s : State) (n : Nat) : Port := mapGet Port.reset s.ports n

/-- Port `n` replaced. -/
def State.setPort (s : State) (n : Nat) (p : Port) : State := { s with ports := mapSet Port.reset s.ports n p }

/-! ## Violations, interrupts and the error log -/

/-- The last violation of a counter was counted in this cycle and is of a lower KIND: it stays in the counter's LAST register (R154,
R389; log entry 77). -/
def State.keepsLast (s : State) (key : Nat) (valid kindOf : FieldRef) (kind : Nat) : Bool :=
  mapGet 0 s.violAt key == s.cycle + 1 && s.flag valid && decide (s.get kindOf < kind)

/-- A violation is counted, and recorded unless one of a lower KIND was counted in the same cycle. -/
def State.violate (s : State) (key : Nat) (count valid kindOf : FieldRef) (kind : Nat) (rest : List (FieldRef × Nat)) : State :=
  let s' := { s.countSat count 1 with violAt := mapSet 0 s.violAt key (s.cycle + 1) }
  if s.keepsLast key valid kindOf kind then s' else s'.puts ((valid, 1) :: (kindOf, kind) :: rest)

/-- A violation counted in GLB_VIOL_COUNT and recorded in GLB_VIOL_LAST (R389). -/
def State.violGlb (s : State) (agent kind addr : Nat) : State :=
  s.violate 0 Reg.GLB_VIOL_COUNT_COUNT Reg.GLB_VIOL_LAST_VALID Reg.GLB_VIOL_LAST_KIND kind
    [(Reg.GLB_VIOL_LAST_AGENT, agent), (Reg.GLB_VIOL_LAST_ADDR, addr)]

/-- A violation counted in CHn_VIOL_COUNT and recorded in CHn_VIOL_LAST (R154). -/
def State.violCh (s : State) (n kind addr : Nat) : State :=
  s.violate (n + 1) (Reg.CHn_VIOL_COUNT_COUNT n) (Reg.CHn_VIOL_LAST_VALID n) (Reg.CHn_VIOL_LAST_KIND n) kind
    [(Reg.CHn_VIOL_LAST_ADDR n, addr)]

/-- A vector is masked in the MSI-X table (PRESUMED, log entry 85). -/
def Msix.masked (m : Msix) (v : Nat) : Bool := bit (mapGet 0 m.table (2 * v + 1)) 32

/-- A vector raised: its message is sent, or held as a pending bit while the vector is masked. -/
def Msix.raise (m : Msix) (v : Nat) : Msix :=
  let m := { m with raised := mapSet 0 m.raised v (mapGet 0 m.raised v + 1) }
  if m.masked v then { m with pba := m.pba ||| 2 ^ v } else { m with sent := mapSet 0 m.sent v (mapGet 0 m.sent v + 1) }

/-- A word of the MSI-X table written: a vector that is no longer masked sends the message that was pending. -/
def Msix.writeWord (m : Msix) (i w : Nat) : Msix :=
  let v := i / 2
  let m := { m with table := mapSet 0 m.table i w }
  if bit m.pba v && !m.masked v then { m with pba := m.pba &&& (15 - 2 ^ v), sent := mapSet 0 m.sent v (mapGet 0 m.sent v + 1) } else m

/-- An MSI-X vector raised (R396). -/
def State.raiseIrq (s : State) (v : Nat) : State := { s with irq := s.irq.raise v }

/-- What an error-log entry says (R387), beside its number and time. -/
structure LogEntry where
  sev      : Nat
  kind     : Nat
  source   : Nat
  addr     : Nat := 0
  stamp    : Nat := 0
  obj      : Nat := 0xFFFF
  job      : Nat := 0
  unit     : Nat := 0
  found    : Nat := 0
  expected : Nat := 0
  detail   : Nat := 0
  deriving DecidableEq, Repr

/-- Words 0 to 6 of an error-log entry (R387). -/
def logWords (e : LogEntry) (seq time : Nat) : List Nat :=
  [2 ^ 63 + e.sev % 4 * 2 ^ 48 + e.kind % 256 * 2 ^ 40 + e.source % 256 * 2 ^ 32 + seq % 2 ^ 32,
   time % 2 ^ 48, e.addr % 2 ^ 48, e.stamp % 2 ^ 32 * 2 ^ 32 + e.obj % 2 ^ 16, e.job % 2 ^ 32 * 2 ^ 32 + e.unit % 2 ^ 16,
   e.found % 2 ^ 32 * 2 ^ 32 + e.expected % 2 ^ 32, e.detail % 2 ^ 64]

/-- The eight words of the entry are written at its index. -/
def State.putLogWords (s : State) (i : Nat) : Nat → List Nat → State
  | _, [] => s
  | k, w :: ws => (s.put (Reg.ERR_LOGi_Wk_WORD i k) w).putLogWords i (k + 1) ws

/-- Lantern writes an error-log entry (R386, R387); an entry of SEV 2 or 3 raises MSI-X vector 2 (R396). -/
def State.logErr (s : State) (e : LogEntry) : State :=
  let seq := s.get Reg.ERR_STATUS_WRITTEN
  let ws := logWords e seq s.nowUs
  let s := s.putLogWords (seq % 1024) 0 (ws ++ [(crc32c (wordsToBytes ws)).toNat])
  let s := s.count Reg.ERR_STATUS_WRITTEN 1
  let s := s.put Reg.ERR_STATUS_MAX_SEV (max e.sev (s.get Reg.ERR_STATUS_MAX_SEV))
  if 2 ≤ e.sev then s.raiseIrq 2 else s

/-- A host's write of a register that a step plan, an ENABLE or another condition of its rule locks: ignored and counted with KIND 3
(R389; log entry 78). -/
def State.lockedOut (s : State) (off : Nat) : State := s.violGlb 0 3 off

/-! ## Whether a step plan runs (R268), and the ends of Doze and Keep (R455) -/

/-- Traverse is running a step plan: its state is not IDLE (R268). -/
def State.stepRuns (s : State) : Bool := s.get Reg.TRV_STATE_STATE != 0

/-- A host raises a unit's ENABLE (R160): `rise` runs unless it is 1; while a step plan runs the write is ignored and counted (R180,
R235, R267). -/
def State.hostRaises (s : State) (en : FieldRef) (rise : State → State) : State :=
  if s.stepRuns then s.lockedOut en.off else if s.flag en then s else rise s

/-- A host clears a unit's ENABLE, unless a step plan runs. -/
def State.hostClears (s : State) (en : FieldRef) : State := if s.stepRuns then s.lockedOut en.off else s.put en 0

/-- A chamber in Doze returns to the state it held (R453). -/
def State.wakeChamber (s : State) (n : Nat) : State :=
  if s.get (Reg.CHn_STATUS_STATE n) = 6 then
    (s.put (Reg.CHn_STATUS_STATE n) (s.ch n).savedState).modCh n fun c => { c with savedState := 0 }
  else s

/-- A port powered down in Keep begins to train (R453). -/
def State.wakePort (s : State) (n : Nat) : State :=
  if s.flag (Reg.HGPn_CFG_ENABLE n) && s.get (Reg.HGPn_CFG_REACH n) != 3 then s.put (Reg.HGPn_STATUS_STATE n) 1 else s

/-- The device returns to Run (R453): chambers to their states, and from Keep the ports train. -/
def State.toRun (s : State) : State :=
  let keep := s.get Reg.PCR_PSTATE_STATE == 2
  let s := { s with dozeIdle := 0, keepIdle := 0 }
  let s := (List.range 28).foldl State.wakeChamber (s.put Reg.PCR_PSTATE_STATE 0)
  if keep then (List.range 8).foldl State.wakePort s else s

/-- Work that Doze or Keep cannot serve returns the device to Run before it is served (R455); in Hold the change waits for resume (R461). -/
def State.wake (s : State) : State :=
  if s.get Reg.PCR_PSTATE_STATE = 0 then s
  else if s.flag Reg.PCR_PSTATE_HOLD then { s with deferred := s.deferred ++ [.wake] }
  else s.toRun

/-- Only Keep is left, as for a CXL.mem access (R455). -/
def State.wakeKeep (s : State) : State := if s.get Reg.PCR_PSTATE_STATE = 2 then s.wake else s

/-- A signal word posts jobs to an enabled unit: the route and combine engines, the helictites, Flowstone, a collective unit or a
coder (R160, R190, R222, R242, R341). -/
def State.isJobSig (s : State) (n : Nat) : Bool :=
  (s.flag Reg.SIP_CTL_ENABLE && s.get Reg.SIP_CTL_JOB_SIG == n) || (s.flag Reg.HLC_CTL_ENABLE && s.get Reg.HLC_CTL_JOB_SIG == n) ||
  (s.flag Reg.FLS_CTL_ENABLE && s.get Reg.FLS_CTL_JOB_SIG == n) ||
  ([0, 1].any fun u => s.flag (Reg.HGPn_CU_CTL_ENABLE u) && s.get (Reg.HGPn_CU_CTL_JOB_SIG u) == n) ||
  ((List.range 28).any fun c => s.flag (Reg.CHn_XC_CTL_ENABLE c) && s.get (Reg.CHn_XC_CTL_JOB_SIG c) == n)

/-! ## Signals (R50, R51) -/

/-- The value of a local signal word. -/
def State.sig (s : State) (n : Nat) : Nat := s.get (Reg.GLB_SIGn_VALUE n)

/-- A post to a local signal word: set, or add modulo 2^64 (R39, R50); a post to a unit's job signal ends Doze and Keep first (R455). -/
def State.postSig (s : State) (n : Nat) (set : Bool) (v : Nat) : State :=
  (if s.isJobSig n then s.wake else s).put (Reg.GLB_SIGn_VALUE n) (if set then v else s.sig n + v)

end Sys2Proof.Machine
end

