-- ==== Sys2Proof/Machine/Frames.lean ====
section
/-! DEFINITION. Pages, frames and objects (R236 to R241), the frames a page takes (R239, R252), and the room that Flowstone makes for prefetches (R249, R257). -/

namespace Sys2Proof.Machine

open Sys2Proof

/-! ## Pages and frames (R236 to R241) -/

/-- Bytes of a page and of a frame (R237). -/
def pageBytes : Nat := 2 ^ 21

/-- The page of an address. -/
def pageOf (a : Nat) : Nat := a / pageBytes

/-- Pages in the bonded window that the part populates (R14, R236): 256 GiB with 12 layers, 176 GiB with 8. -/
def State.bondedPages (s : State) : Nat := if s.get Reg.GLB_ID_LAYERS = 12 then 131072 else 90112

/-- The slot whose window a page lies in, if it lies in a cartridge window (R236). -/
def slotOfPage (p : Nat) : Option Nat :=
  if p < 131072 then none else if p < 7 * 131072 then some (p / 131072 - 1) else none

/-- BMCm_STATE.STATE of a slot (R260). -/
def State.slotState (s : State) (m : Nat) : Nat := s.get (Reg.BMCm_STATE_STATE m)

/-- Frames of the cartridge in a slot (R3, R236): 256 GiB or 128 GiB. -/
def State.slotFrames (s : State) (m : Nat) : Nat := if s.get (Reg.BMCm_STATE_KIND m) = 0 then 131072 else 65536

/-- A page lies in a part of its window that R236 populates. -/
def State.windowPopulated (s : State) (p : Nat) : Bool :=
  match slotOfPage p with
  | none => decide (p < s.bondedPages)
  | some m => (s.slotState m == 3 || s.slotState m == 4) && decide (p % 131072 < s.slotFrames m)

/-- The frame a page holds. -/
def State.frameOf (s : State) (p : Nat) : Option Frame := mapFind s.pages p

/-- A page is populated: by its window, or because it holds a frame (R237) or lost one with its cartridge (R264). -/
def State.populatedPage (s : State) (p : Nat) : Bool := s.windowPopulated p || (s.frameOf p).isSome || mapGet false s.lostPages p

/-- An address is populated (R16, R237). -/
def State.populated (s : State) (a : Nat) : Bool := decide (a < 0x01C000000000) && s.populatedPage (pageOf a)

/-- The home frame of a page (R238). -/
def homeFrame (p : Nat) : Frame := if p < 131072 then .bonded p else .cart (p / 131072 - 1) (p % 131072)

/-- The tier of a frame: true for bonded. -/
def Frame.isBonded : Frame → Bool
  | .bonded _ => true
  | .cart _ _ => false

/-- Frames that a page holds or a move has taken (R251). -/
def State.usedFrames (s : State) : List Frame := s.pages.map (·.2) ++ s.moves.flatMap fun m => m.dest.map (·.2)

/-- A frame exists and may be given to a page: bonded, or on a cartridge IN_SERVICE (R260, R263). -/
def State.frameUsable (s : State) : Frame → Bool
  | .bonded i => decide (i < s.bondedPages)
  | .cart m i => s.slotState m == 3 && decide (i < s.slotFrames m)

/-- A frame is free. -/
def State.frameFree (s : State) (f : Frame) : Bool := s.frameUsable f && !s.usedFrames.contains f

/-- Free bonded frames (FLS_FREE.BONDED). -/
def State.freeBonded (s : State) : Nat := s.bondedPages - (s.usedFrames.filter Frame.isBonded).length

/-- Whether a frame lies on the cartridge of a slot. -/
def Frame.onSlot (m : Nat) : Frame → Bool
  | .bonded _ => false
  | .cart k _ => k == m

/-- Free frames on the cartridge of a slot; none unless it is IN_SERVICE. -/
def State.freeCart (s : State) (m : Nat) : Nat :=
  if s.slotState m = 3 then s.slotFrames m - (s.usedFrames.filter (Frame.onSlot m)).length else 0

/-- The six slots. -/
def slotList : List Nat := [0, 1, 2, 3, 4, 5]

/-- Free frames on all cartridges in service (FLS_FREE.CART). -/
def State.freeCarts (s : State) : Nat := (slotList.map s.freeCart).foldl (· + ·) 0

/-- The in-service cartridge with the most free frames, the lowest slot on ties; none if no cartridge has a free frame. -/
def State.bestCart (s : State) (excl : Option Nat) : Option Nat :=
  slotList.foldl (fun best m =>
    if excl = some m ∨ s.freeCart m = 0 then best
    else match best with
      | none => some m
      | some b => if s.freeCart b < s.freeCart m then some m else best) none

/-- The lowest index not used among frames made by `mk`. -/
def lowestFree (used : List Frame) (mk : Nat → Frame) : Nat :=
  ((List.range (used.length + 1)).find? fun i => !used.contains (mk i)).getD 0

/-- A free bonded frame, the lowest (R239 lets the device take any). -/
def State.takeBonded (s : State) : Option Frame :=
  if s.freeBonded = 0 then none else some (.bonded (lowestFree s.usedFrames .bonded))

/-- A free frame of the cartridge in a slot, the lowest. -/
def State.takeCart (s : State) (m : Nat) : Option Frame :=
  if s.freeCart m = 0 then none else some (.cart m (lowestFree s.usedFrames (.cart m)))

/-- A free frame of the in-service cartridge with the most free frames. -/
def State.takeBestCart (s : State) : Option Frame := (s.bestCart none).bind s.takeCart

/-- Whether an object covers a page. -/
def Obj.covers (o : Obj) (p : Nat) : Bool := decide (o.base / pageBytes ≤ p) && decide (p < (o.base + o.size) / pageBytes)

/-- The object that covers a page, if one does (R241). -/
def State.objectOf (s : State) (p : Nat) : Option Obj := s.objects.find? fun o => o.covers p

/-- The object identifier of an error-log entry (R387). -/
def State.objId (s : State) (a : Nat) : Nat := ((s.objectOf (pageOf a)).map (·.id)).getD 0xFFFF

/-- The object identifier of an entry that names an address, or none where that is 0 (R387). -/
def State.objAt (s : State) (a : Nat) : Nat := if a = 0 then 0xFFFF else s.objId a

/-- The pages of an object that hold a frame, with their frames. -/
def State.heldPages (s : State) (o : Obj) : List (Nat × Frame) := s.pages.filter fun e => o.covers e.1

/-- An object rests in the bonded tier: every frame it holds is bonded (R241). -/
def State.restsBonded (s : State) (o : Obj) : Bool := (s.heldPages o).all fun e => e.2.isBonded

/-- The first frame of a list of choices that exists. -/
def firstSome {α : Type} : List (Option α) → Option α
  | [] => none
  | some x :: _ => some x
  | none :: l => firstSome l

/-- The home frame of a page, if it is free. -/
def State.takeHome (s : State) (p : Nat) : Option Frame :=
  if s.frameFree (homeFrame p) then some (homeFrame p) else none

/-- The frame a ZERO page takes at a write that needs one (R239). -/
def State.chooseFrame (s : State) (p : Nat) : Option Frame :=
  let home := s.takeHome p
  match s.objectOf p with
  | some o =>
    if s.restsBonded o then
      firstSome [if (homeFrame p).isBonded then home else none, s.takeBonded, s.takeBestCart]
    else firstSome [if (homeFrame p).isBonded then none else home, s.takeBestCart, s.takeBonded]
  | none =>
    match slotOfPage p with
    | none => firstSome [home, s.takeBonded, s.takeBestCart]
    | some m => firstSome [home, s.takeCart m, s.takeBestCart, s.takeBonded]

/-! ## Objects and their moves (R249, R256) -/

/-- A registered object by its identifier. -/
def State.objById (s : State) (id : Nat) : Option Obj := s.objects.find? fun o => o.id == id

/-- An object changed by a function. -/
def State.modObj (s : State) (id : Nat) (f : Obj → Obj) : State :=
  { s with objects := s.objects.map fun o => if o.id = id then f o else o }

/-- Whether a move is of an object. -/
def Move.isOf (m : Move) (id : Nat) : Bool := m.page.isNone && m.obj == id

/-- The first move of an object: it gives the object's state (R256). -/
def State.moveOf (s : State) (id : Nat) : Option Move := s.moves.find? fun m => m.isOf id

/-- The code of a movement state (R256). -/
def MoveKind.code : MoveKind → Nat
  | .promotion => 1
  | .demotion => 2
  | .relocation => 3

/-- The movement state of an object, 0 for REST (R256). -/
def State.moveState (s : State) (id : Nat) : Nat :=
  match s.moveOf id with
  | some m => m.kind.code
  | none => 0

/-- The held pages of an object in the bonded tier, and those in the cartridge tier. -/
def State.heldIn (s : State) (o : Obj) (bonded : Bool) : List (Nat × Frame) := (s.heldPages o).filter fun e => e.2.isBonded == bonded

/-- The density of an object (R249). -/
def State.density (s : State) (o : Obj) : Nat :=
  (((s.heat.filter fun e => o.covers e.1).map (·.2)).sum) / (o.size / pageBytes)

/-- An object is wanted (R257). -/
def State.isWanted (s : State) (o : Obj) : Bool :=
  match o.wanted with
  | some d => decide (s.nowUs ≤ d + s.get Reg.FLS_POLICY_KEEP_US)
  | none => false

/-- Where an element goes in a list that rises by a key, behind its equals. -/
def insertBy {α : Type} (key : α → Nat) (x : α) : List α → List α
  | [] => [x]
  | y :: l => if key x < key y then x :: y :: l else y :: insertBy key x l

/-- A list in rising order of a key; equals keep their order. -/
def sortBy {α : Type} (key : α → Nat) (l : List α) : List α := l.foldl (fun a x => insertBy key x a) []

/-- A move is queued. -/
def State.queueMove (s : State) (m : Move) : State := { s with moves := s.moves ++ [m] }

/-- A fresh move of an object. -/
def Move.of (id : Nat) (k : MoveKind) : Move :=
  { obj := id, page := none, kind := k, started := false, dest := [], waiters := [], prefetch := none, order := 0, evict := false, pins := [] }

/-- A demotion is queued; an object that holds no frame moves nothing (R241). -/
def State.queueDemotion (s : State) (o : Obj) : State :=
  if s.heldPages o = [] then s else s.queueMove (Move.of o.id .demotion)

/-! ## Room for prefetches (R257) -/

/-- Objects a decision may demote: resting in the bonded tier with a frame, in REST, not pinned and not wanted. -/
def State.evictable (s : State) (o : Obj) : Bool :=
  s.restsBonded o && s.heldPages o != [] && s.moveState o.id == 0 && !o.pin && !s.isWanted o

/-- Objects in order until their held pages reach a need; none if they cannot. -/
def State.takeVictims (s : State) (need : Int) : List Obj → Int → Option (List Obj)
  | [], got => if need ≤ got then some [] else none
  | o :: l, got => if need ≤ got then some [] else (s.takeVictims need l (got + (s.heldPages o).length)).map (o :: ·)

/-- The bonded frames that queued and running demotions will free. -/
def State.freeing (s : State) : Nat :=
  ((s.moves.filter fun m => m.kind == .demotion && m.page.isNone).map fun m =>
    ((s.objById m.obj).map fun o => (s.heldIn o true).length).getD 0).sum

/-- The frames a promotion needs. -/
def State.promotionNeed (s : State) (m : Move) : Nat := ((s.objById m.obj).map fun o => (s.heldIn o false).length).getD 0

/-- Promotions that prefetches asked for, by deadline, ties in command order (R254). -/
def byDeadline (l : List Move) : List Move := sortBy (fun m => m.prefetch.getD 0) (sortBy Move.order l)

/-- Promotions that prefetches asked for and that have not started, in their order (R254). -/
def State.waitingPrefetches (s : State) : List Move :=
  byDeadline (s.moves.filter fun m => m.kind == .promotion && m.prefetch.isSome && !m.started)

/-- Room is made for prefetch promotions in turn: objects are demoted by ascending density when they and the free frames
suffice, and none otherwise (R257). -/
def State.roomFor : List Move → Int → State → State
  | [], _, s => s
  | m :: l, avail, s =>
    let need : Int := s.promotionNeed m
    if need ≤ avail then State.roomFor l (avail - need) s
    else match s.takeVictims need (sortBy s.density (s.objects.filter s.evictable)) avail with
      | some vs =>
        let got : Int := (vs.map fun o => (s.heldPages o).length).sum
        State.roomFor l (avail + got - need) (vs.foldl State.queueDemotion s)
      | none => State.roomFor l avail s

/-- Room is made for the prefetch promotions that wait, as decided anew (R257). -/
def State.makeRoom (s : State) : State := State.roomFor s.waitingPrefetches (s.freeBonded + s.freeing : Nat) s

/-! ## Giving a frame (R239, R240, R252) -/

/-- The second frame that a page of a moving object takes, in the tier of the new copy, where its first lies in the old one's (R252);
for a relocation, one that a relocation may take (R263). -/
def State.secondFrame (s : State) (k : MoveKind) (f : Frame) : Option Frame :=
  match k with
  | .promotion => if f.isBonded then none else s.takeBonded
  | .demotion => if f.isBonded then s.takeBestCart else none
  | .relocation => firstSome [s.takeBestCart, s.takeBonded]

/-- The other copy of a page that takes a frame while its object moves takes one too (R252). -/
def State.giveSecond (s : State) (p : Nat) (f : Frame) : State :=
  { s with moves := s.moves.map fun m =>
      if m.started ∧ m.page.isNone ∧ (s.objectOf p).map (·.id) = some m.obj then
        match s.secondFrame m.kind f with
        | some d => { m with dest := mapInsert m.dest p d }
        | none => m
      else m }

/-- A page takes a frame, and one in the other copy's tier while its object moves (R252); Flowstone decides again on the prefetches that
wait for room where that changes the count of free bonded frames (R257). -/
def State.giveFrame (s : State) (p : Nat) (f : Frame) : State :=
  let t := { s with pages := mapInsert s.pages p f, lostPages := mapErase s.lostPages p }.giveSecond p f
  if t.freeBonded = s.freeBonded then t else t.makeRoom

/-- FLS_STATUS.FULL rises, with its error-log entry (R240). -/
def State.setFull (s : State) : State :=
  if s.flag Reg.FLS_STATUS_FULL then s
  else (s.put Reg.FLS_STATUS_FULL 1).logErr { sev := 0, kind := 11, source := 9 }

end Sys2Proof.Machine
end

