-- ==== Sys2Proof/Machine/Banks.lean ====
section
/-! DEFINITION. Where a byte lies in the bonded stack (R201 to R203), and which accesses a claim holds back (R226 to R229). -/

namespace Sys2Proof.Machine

open Sys2Proof

/-! ## Places (R201 to R205) -/

/-- Exposed 1 KiB chunks per segment: E of R203. -/
def State.chunksPerSegment (s : State) : Nat := if s.get Reg.GLB_ID_LAYERS = 12 then 233017 else 240299

/-- The bonded frame address of a unified address, if its page holds a bonded frame (R204). -/
def State.bondedAddr (s : State) (a : Nat) : Option Nat :=
  match s.frameOf (pageOf a) with
  | some (.bonded i) => some (i * pageBytes + a % pageBytes)
  | _ => none

/-- Shaft of a bonded frame address (R202). -/
def shaftOf (f : Nat) : Nat := f / 1024 % 96

/-- Layer of a bonded frame address (R202). -/
def State.layerOf (s : State) (f : Nat) : Nat := f / 1024 / 96 / s.chunksPerSegment

/-- Chunk within its segment (R202). -/
def State.segChunk (s : State) (f : Nat) : Nat := f / 1024 / 96 % s.chunksPerSegment

/-- Bank of a bonded frame address (R202). -/
def State.bankOf (s : State) (f : Nat) : Nat := s.segChunk f % 16

/-- The bank group of a bank (R201). -/
def bankGroup (b : Nat) : Nat := b % 4

/-- The 1 KiB chunk of a bonded frame address within its row (R202). -/
def State.rowChunkOf (s : State) (f : Nat) : Nat := s.segChunk f / 16 % 8

/-- Row of a bonded frame address (R202). -/
def State.rowOf (s : State) (f : Nat) : Nat := s.segChunk f / 128

/-- The granule of a bonded frame address within its chunk (R202). -/
def chunkGranuleOf (f : Nat) : Nat := f % 1024 / 256

/-- The helictite index of the segment that holds a bonded frame address: 96L + s (R201). -/
def State.segmentOf (s : State) (f : Nat) : Nat := 96 * s.layerOf f + shaftOf f

/-- The first sidecar row of a bank, and the first spare row (R203). -/
def State.firstSidecar (s : State) : Nat := if s.get Reg.GLB_ID_LAYERS = 12 then 1821 else 1878
def State.firstSpare (s : State) : Nat := if s.get Reg.GLB_ID_LAYERS = 12 then 1850 else 1908

/-- Spare rows per bank (R203). -/
def State.spareRows (s : State) : Nat := 2048 - s.firstSpare

/-- The sidecar row that holds the checks of a data row (R205): 2,048 checks fill a row of 8 KiB, those of 64 data rows (DEDUCED from the
counts of R203; log entry 79). -/
def State.sidecarRow (s : State) (row : Nat) : Nat := s.firstSidecar + row / 64

/-- The key of the bank that holds a bonded frame address. -/
def State.bankKey (s : State) (f : Nat) : Nat := s.segmentOf f * 16 + s.bankOf f

/-- The banks of helictite `h`'s segment that hold a frame of a byte range (R226). -/
def State.banksOfRange (s : State) (h lo hi : Nat) : List Nat :=
  (List.range 16).filter fun b =>
    (List.range (hi / 1024 + 1 - lo / 1024)).any fun i =>
      match s.bondedAddr ((lo / 1024 + i) * 1024) with
      | some f => s.segmentOf f == h && s.bankOf f == b
      | none => false

/-! ## Claims and row boundaries (R226 to R229) -/

/-- A helictite's claim changed. -/
def State.modClaim (s : State) (n : Nat) (f : Claim → Claim) : State :=
  { s with claims := s.claims.map fun c => if c.hel = n then f c else c }

/-- The outstanding refreshes of banks are issued (R229). -/
def State.refreshBanks (s : State) (n : Nat) (banks : List Nat) : State :=
  { s with refreshOwed := banks.foldl (fun m b => mapSet 0 m (n * 16 + b) 0) s.refreshOwed }

/-- A row boundary in some banks of a claim: their rows close, and the accesses that wait for them are to be served (R228, R229). -/
def Claim.boundary (c : Claim) (banks : List Nat) : Claim :=
  { c with rows := banks.foldl mapErase c.rows
           waiting := c.waiting.filter fun w => !banks.contains w.bank
           passing := c.passing ++ c.waiting.filter fun w => banks.contains w.bank }

/-- A row boundary in some claimed banks of a helictite: the outstanding refreshes are issued first (R229). -/
def State.boundaryIn (s : State) (n : Nat) (banks : List Nat) : State := (s.modClaim n fun c => c.boundary banks).refreshBanks n banks

/-- The controller forces a row boundary in one bank (R228). -/
def State.forceBank (s : State) (n b : Nat) : State := (s.boundaryIn n [b]).count Reg.HLC_CLAIM_STAT_FORCED 1

/-- A granule of a claim's byte range (R226). -/
def Claim.inRange (c : Claim) (a : Nat) : Bool := decide (c.lo / 256 ≤ a / 256) && decide (a / 256 ≤ c.hi / 256)

/-- The claim in effect that holds back a normal access to an address, unless the access was waiting at the last row boundary (R227, R229).
The claiming helictite's own access is normal only where its granule lies outside the claimed range. -/
def State.blockingClaim (s : State) (self : Option Nat) (a : Nat) : Option Claim :=
  match s.bondedAddr a with
  | none => none
  | some f => s.claims.find? fun c =>
      c.effect && c.hel == s.segmentOf f && c.banks.contains (s.bankOf f) && !(c.passing.any fun w => w.gran == a / 256) &&
      !(self == some c.hel && c.inRange a)

/-- A normal access to an address has to wait for a claim (R227). -/
def State.claimed (s : State) (self : Option Nat) (a : Nat) : Bool := (s.blockingClaim self a).isSome

/-- A normal access waits for a claim's bank (R227). -/
def Claim.wait (c : Claim) (w : BankWait) : Claim :=
  if c.waiting.any fun x => x.gran == w.gran then c else { c with waiting := c.waiting ++ [w] }

/-- A claim notes that a normal access waits. -/
def State.noteWaiting (s : State) (self : Option Nat) (a : Nat) : State :=
  match s.blockingClaim self a, s.bondedAddr a with
  | some c, some f => s.modClaim c.hel fun c => c.wait ⟨a / 256, s.bankOf f, s.cycle⟩
  | _, _ => s

/-- A normal access that was waiting at a row boundary has been served (R229). -/
def State.passed (s : State) (a : Nat) : State :=
  if s.claims.any fun c => c.passing.any fun w => w.gran == a / 256 then
    { s with claims := s.claims.map fun c => { c with passing := c.passing.filter fun w => w.gran != a / 256 } }
  else s

/-- An access of a unit whose whole work is one command of this model: a bank whose row a claim holds open comes to a forced row boundary
first, where the access is served (R227, R228; log entry 79). -/
def State.enterBank (s : State) (a : Nat) : State :=
  match s.blockingClaim none a, s.bondedAddr a with
  | some c, some f => if (mapFind c.rows (s.bankOf f)).isSome then s.forceBank c.hel (s.bankOf f) else s
  | _, _ => s

end Sys2Proof.Machine
end

