-- ==== Sys2Proof/Machine/Ops.lean ====
section
/-! DEFINITION. Every access to the unified range: reads, writes and merges, the writes that wait for a frame, the back-invalidations and the mirror copies they need. -/

namespace Sys2Proof.Machine

open Sys2Proof

/-! ## Accesses to the unified range (R16, R207, R210, R211, R239, R247, R265) -/

/-- The granule of an address. -/
def granuleOf (a : Nat) : Nat := a / 256

/-- Whether a granule is poisoned (R375). -/
def State.poisoned (s : State) (g : Nat) : Bool := mapGet false s.poison g

/-- A granule's poison set or cleared. -/
def State.setPoison (s : State) (g : Nat) (b : Bool) : State := { s with poison := mapSet false s.poison g b }

/-- One more granule request served from a page (R247), which no longer waits for a claim (R229). -/
def State.warm (s : State) (a : Nat) : State :=
  let p := pageOf a
  let s := s.passed a
  { s with heat := mapSet 0 s.heat p (satAdd 16 (mapGet 0 s.heat p) 1) }

/-- Whether the granule of an address lies in a cartridge frame. -/
def State.onCart (s : State) (a : Nat) : Bool :=
  match s.frameOf (pageOf a) with
  | some (.cart _ _) => true
  | _ => false

/-- An address lies in the sealed staging of an image update (R433). -/
def State.sealedAt (s : State) (a : Nat) : Bool :=
  match s.staging with
  | some g => decide (g.base ≤ a) && decide (a < g.base + g.bytes)
  | none => false

/-- A read of `n` bytes inside one granule by an agent (`agent` as GLB_VIOL_LAST.AGENT codes it): the bytes, whether the granule is
poisoned, and the state with its heat and direct-path counts (R16, R247, R259, R265). An unpopulated address reads as zero, and so
does a sealed one, which is counted (R433). -/
def State.readAs (s : State) (agent a n : Nat) : List Byte × Bool × State :=
  if s.sealedAt a then (zeroBytes n, false, s.violGlb agent 0 a)
  else if s.populated a then
    let s' := s.warm a
    let s' := if s.onCart a then
        if mapGet false s.nonzero (granuleOf a) || s.poisoned (granuleOf a) then s'.count Reg.FLS_DIRECT_COUNT n
        else s'.count Reg.FLS_ELIDED_COUNT 1
      else s'
    (memRead s.mem a n, s.poisoned (granuleOf a), s')
  else (zeroBytes n, false, s)

/-- A read of `n` bytes inside one granule by an on-die unit. -/
def State.readIn (s : State) (a n : Nat) : List Byte × Bool × State := (s.enterBank a).readAs 3 a n

/-- A read of any length, granule by granule; poisoned if any granule of it is. -/
def State.readFuel : Nat → State → Nat → Nat → List Byte × Bool × State
  | 0, s, _, _ => ([], false, s)
  | fuel + 1, s, a, n =>
    if n = 0 then ([], false, s)
    else
      let k := min n (256 - a % 256)
      let (b1, p1, s) := s.readIn a k
      let (b2, p2, s) := State.readFuel fuel s (a + k) (n - k)
      (b1 ++ b2, p1 || p2, s)

/-- A read of `n` bytes from the unified range (R16). -/
def State.read (s : State) (a n : Nat) : List Byte × Bool × State := State.readFuel (n / 256 + 2) s a n

/-- How a write inside one granule ended. -/
inductive WriteEnd where
  /-- The bytes are written. -/
  | done
  /-- The address is unpopulated or unmapped, or the peer window is closed: dropped and counted (R16, R479). -/
  | dropped
  /-- A partial write onto a poisoned granule: dropped (R211). -/
  | poisoned
  /-- No frame is free: the write waits (R240). -/
  | noFrame
  deriving DecidableEq, Repr

/-- An address lies in the peer window of a twin side (R477). -/
def State.inPeerWindow (s : State) (a : Nat) : Bool :=
  let lo := s.get Reg.TWN_WIN_PEER_BASE * 2 ^ 30
  decide (lo ≤ a) && decide (a < lo + s.get Reg.TWN_WIN_PEER_GIB * 2 ^ 30)

/-- The peer window is closed to every agent but the twin engine: in PAIRED, while handing over, and in RESYNC (R479). The survivor,
whose ALONE is still 1, locks it at the end of the resync only (R483 step 3; DEDUCED, log entry 60). -/
def State.peerClosed (s : State) (a : Nat) : Bool :=
  let st := s.get Reg.TWN_STATE_STATE
  (st == 2 || st == 5 || (st == 4 && !s.flag Reg.GLB_ROLE_ALONE)) && s.inPeerWindow a

/-- An address lies in the own window of a twin side (R477). -/
def State.inOwnWindow (s : State) (a : Nat) : Bool :=
  let lo := s.get Reg.TWN_WIN_OWN_BASE * 2 ^ 30
  decide (lo ≤ a) && decide (a < lo + s.get Reg.TWN_WIN_OWN_GIB * 2 ^ 30)

/-- The twin engine copies a write at an address: to a mirrored object in the own window of a PAIRED side, which a handover keeps up to
its final mark (R478, R482), or to either window of the survivor in RESYNC (R483). -/
def State.mirrors (s : State) (a : Nat) : Bool :=
  let st := s.get Reg.TWN_STATE_STATE
  let mirrored := match s.objectOf (pageOf a) with
    | some o => o.mirror
    | none => false
  ((st == 2 || st == 5) && mirrored && s.inOwnWindow a) ||
  (st == 4 && s.flag Reg.GLB_ROLE_ALONE && (s.inOwnWindow a || s.inPeerWindow a))

/-- The twin engine notes a write that it copies. -/
def State.noteMirror (s : State) (a : Nat) : State :=
  if s.mirrors a then { s with mirrorQ := s.mirrorQ ++ [granuleOf a] } else s

/-- The bytes of a granule change in memory, with its Z bit, its poison and its mirror copy (R211, R265, R478); `whole` where the
write covers the granule. -/
def State.storeAs (s : State) (whole : Bool) (a : Nat) (bs : List Byte) : State :=
  let zero := whole && bs.all (· == 0)
  let g := granuleOf a
  let s := if zero && s.onCart a then s.count Reg.FLS_ELIDED_COUNT 1 else s
  let s := { s with mem := memWrite s.mem a bs, nonzero := mapSet false s.nonzero g (!zero) }
  let s := if whole then s.setPoison g false else s
  s.noteMirror a

/-- A byte list starting at an address is one whole granule. -/
def wholeGranule (a : Nat) (bs : List Byte) : Bool := decide (a % 256 = 0) && decide (bs.length = 256)

/-- A write inside one granule by an agent (`agent` as GLB_VIOL_LAST.AGENT codes it; `twin` for the twin engine); `whole` where it
covers the granule. -/
def State.writeAs (s : State) (agent : Nat) (twin whole : Bool) (a : Nat) (bs : List Byte) : WriteEnd × State :=
  if bs = [] then (.done, s)
  else if s.sealedAt a then (.dropped, s.violGlb agent 0 a)
  else if !s.populated a then (.dropped, s.violGlb agent 5 a)
  else if !twin && s.peerClosed a then (.dropped, s.violGlb agent 0 a)
  else if s.poisoned (granuleOf a) && !whole then (.poisoned, s.warm a)
  else if (s.frameOf (pageOf a)).isSome then (.done, (s.warm a).storeAs whole a bs)
  else if bs.all (· == 0) && !mapGet false s.lostPages (pageOf a) then
    (.done, ((if whole then s.setPoison (granuleOf a) false else s).warm a).noteMirror a)
  else match s.chooseFrame (pageOf a) with
    | some f => (.done, ((s.giveFrame (pageOf a) f).warm a).storeAs whole a bs)
    | none => (.noFrame, s.setFull)

/-- A write inside one granule. -/
def State.writeIn (s : State) (agent : Nat) (twin : Bool) (a : Nat) (bs : List Byte) : WriteEnd × State :=
  s.writeAs agent twin (wholeGranule a bs) a bs

/-- A merge into a granule (R143, R207): the granule's bytes changed by `f`, which covers all of it where `whole` holds. -/
def State.mergeIn (s : State) (agent : Nat) (whole : Bool) (g : Nat) (f : List Byte → List Byte) : WriteEnd × State :=
  s.writeAs agent false whole (256 * g) (f (memRead s.mem (256 * g) 256))

/-- Lines of a granule that the snoop filter holds (R399). -/
def State.cachedLines (s : State) (g : Nat) : List Nat :=
  [4 * g, 4 * g + 1, 4 * g + 2, 4 * g + 3].filter fun l => (mapFind s.snoop l).isSome

/-- A line leaves the snoop filter. -/
def State.dropLine (s : State) (l : Nat) : State :=
  let left := s.biWait.filter (· != l)
  { s with snoop := mapErase s.snoop l, biWait := left, biAt := if left = [] then none else s.biAt }

/-- Back-invalidations are sent for lines (R381, R399); the time of the first one that waits is kept (R401). -/
def State.sendBi (s : State) (ls : List Nat) : State :=
  if ls = [] then s else { s with biWait := s.biWait ++ ls, biAt := some (s.biAt.getD s.cycle) }

/-- The back-invalidations a write to a granule needs, sent and answered inside the step; a whole-granule write sends one
for its four lines (R381, R399). -/
def State.backInvalidate (s : State) (g : Nat) (whole : Bool) : State :=
  let ls := s.cachedLines g
  if ls = [] then s
  else (ls.foldl State.dropLine s).count Reg.HST_SF_BISNP (if whole then 1 else ls.length)

/-- A write waits for a frame (R240). -/
def State.hold (s : State) (a : Nat) (bs : List Byte) (agent : Nat) (twin poison : Bool) : State :=
  { s with heldWrites := s.heldWrites ++ [⟨s.heldSeq, a, bs, agent, twin, poison⟩], heldSeq := s.heldSeq + 1 }

/-- The writes that wait and were held from number `lo` on. -/
def State.heldSince (s : State) (lo : Nat) : List Nat := (s.heldWrites.map (·.id)).filter fun i => decide (lo ≤ i)

/-- Work ends at once where none of its writes waits for a frame, and else once the last of them is visible (R177, R240). -/
def State.endWork (s : State) (waits : List Nat) (w : WorkEnd) (now : State) : State :=
  if waits = [] then now else { s with heldEnds := s.heldEnds ++ [⟨waits, w⟩] }

/-- Work of a kind waits for held writes before it ends. -/
def State.ending (s : State) (p : WorkEnd → Bool) : Bool := s.heldEnds.any fun e => p e.work

/-- An operation's request still waits for a free frame. -/
def State.frameWaiting (s : State) : FrameWait → Bool
  | .chamber n seq => (s.ch n).ops.any fun o => o.seq == seq
  | .helictite n slot => (mapGet Hel.reset s.hels n).ops.any fun o => o.slot == slot
  | .ledger => true

/-- FLS_STATUS.FULL falls once no write waits for a frame (R240). -/
def State.settleFull (s : State) : State :=
  if s.heldWrites = [] && !s.frameWaits.any s.frameWaiting then s.put Reg.FLS_STATUS_FULL 0 else s

/-- An operation's request finds no free frame and stays outstanding (R240). -/
def State.waitFrame (s : State) (w : FrameWait) : State :=
  if s.frameWaits.contains w then s else { s with frameWaits := s.frameWaits ++ [w] }

/-- An operation's request has been served, or its operation has gone. -/
def State.gotFrame (s : State) (w : FrameWait) : State :=
  if s.frameWaits.contains w then { s with frameWaits := s.frameWaits.filter (· != w) }.settleFull else s

/-- An engine's write inside one granule: the host's lines are back-invalidated first, and a write without a frame is held (R240, R381). -/
def State.engineWriteIn (s : State) (agent : Nat) (a : Nat) (bs : List Byte) : WriteEnd × State :=
  let s := (s.enterBank a).backInvalidate (granuleOf a) (decide (a % 256 = 0) && decide (bs.length = 256))
  let (r, s) := s.writeIn agent false a bs
  if r = .noFrame then (.noFrame, s.hold a bs agent false false) else (r, s)

/-- An engine's write of any length, granule by granule; true if a poisoned granule refused part of it (R377). -/
def State.writeFuel : Nat → State → Nat → Nat → List Byte → Bool × State
  | 0, s, _, _, _ => (false, s)
  | fuel + 1, s, agent, a, bs =>
    if bs = [] then (false, s)
    else
      let k := 256 - a % 256
      let (r, s) := s.engineWriteIn agent a (bs.take k)
      let (p, s) := State.writeFuel fuel s agent (a + k) (bs.drop k)
      (decide (r = .poisoned) || p, s)

/-- An engine's write to the unified range (R207, R381): whole granules fresh, the rest merged. -/
def State.write (s : State) (agent a : Nat) (bs : List Byte) : Bool × State :=
  State.writeFuel (bs.length / 256 + 2) s agent a bs

/-- An engine's write whose poisoned destination is logged with KIND 4 and SEV 1 (R377). -/
def State.writeLogged (s : State) (source a : Nat) (bs : List Byte) : State :=
  let (p, s) := s.write 3 a bs
  if p then s.logErr { sev := 1, kind := 4, source := source, addr := a / 256 * 256, obj := s.objId a } else s

/-- A poisoned granule written whole, content and mark together, as links and the twin engine carry it (R339, R376, R478); without a
free frame it waits (R240). -/
def State.storePoisoned (s : State) (agent : Nat) (twin : Bool) (g : Nat) (bs : List Byte) : State :=
  if s.sealedAt (g * 256) then s.violGlb agent 0 (g * 256)
  else if !s.populated (g * 256) then s.violGlb agent 5 (g * 256)
  else if !twin && s.peerClosed (g * 256) then s.violGlb agent 0 (g * 256)
  else
    let s := (s.enterBank (g * 256)).backInvalidate g true
    let go := fun (s : State) =>
      { s.warm (g * 256) with mem := memWrite s.mem (g * 256) bs, nonzero := mapSet false s.nonzero g true, poison := mapSet false s.poison g true }
    if (s.frameOf (pageOf (g * 256))).isSome then (go s).noteMirror (g * 256)
    else match s.chooseFrame (pageOf (g * 256)) with
      | some f => (go (s.giveFrame (pageOf (g * 256)) f)).noteMirror (g * 256)
      | none => s.setFull.hold (g * 256) bs agent twin true

/-- Back-invalidations sent for the lines of a granule that the host holds and that are not yet asked for (R381, R399). -/
def State.askLines (s : State) (g : Nat) (whole : Bool) : State :=
  let ls := (s.cachedLines g).filter fun l => !s.biWait.contains l
  if ls = [] then s
  else (s.sendBi ls).count Reg.HST_SF_BISNP (if whole then 1 else ls.length)

/-- A little-endian word read from the unified range. -/
def State.readWord (s : State) (a : Nat) : Nat × Bool × State :=
  let (b, p, s) := s.read a 8
  (leNat b, p, s)

end Sys2Proof.Machine
end

