-- ==== Sys2Proof/Machine/Rings.lean ====
section
/-! DEFINITION. Job rings: how an engine finds its next posted record (R160, R190, R222, R242, R341). -/

namespace Sys2Proof.Machine

open Sys2Proof

/-- An engine's ring position. -/
def State.ring (s : State) (id : Nat) : RingPos := mapGet RingPos.reset s.rings id

/-- An engine's ring position replaced. -/
def State.setRing (s : State) (id : Nat) (r : RingPos) : State := { s with rings := mapSet RingPos.reset s.rings id r }

/-- ENABLE rises: the counters are zeroed and the job signal's value is recorded (R160). -/
def State.enableRing (s : State) (id jobSig : Nat) : State := s.setRing id ⟨s.sig jobSig, 0, []⟩

/-- Whether job `j` of an engine's ring is posted: the signal word is at least v0 + j + 1 (R160). -/
def State.jobPosted (s : State) (id jobSig j : Nat) : Bool := decide ((s.ring id).v0 + j + 1 ≤ s.sig jobSig)

/-- The address of record `j` of a ring: base + size * (j mod entries); the base's low 6 bits are ignored. -/
def ringAddr (base entriesM1 size j : Nat) : Nat := base / 64 * 64 + size * (j % (entriesM1 + 1))

/-- The engine takes the record at its position. -/
def State.takeJob (s : State) (id : Nat) : State :=
  let r := s.ring id
  s.setRing id { r with taken := r.taken + 1 }

end Sys2Proof.Machine
end

