-- ==== Sys2Proof/Config.lean ====
section
/-! DEFINITION. What the spec leaves open: constants with no body, so that no proof can rest on a value of them (the free values), named in the assumption log. -/

namespace Sys2Proof

/-- vrcp and the helictite vrcp on a finite nonzero input: within 1 ulp, value open between steppings (R115). -/
opaque Config.rcp : Lane → Lane

/-- vrsqrt on a finite positive input (R115). -/
opaque Config.rsqrt : Lane → Lane

/-- vexp on a finite nonzero input (R115). -/
opaque Config.exp : Lane → Lane

/-- vlog on a finite positive input (R115). -/
opaque Config.log : Lane → Lane

/-- A gate weight of R167, from SCORE, RENORM, the logit type, the logits of the token's eligible experts, those of the selected ones,
and the expert's own: within 4 ulp of the formula, value open between steppings. -/
opaque Config.gate : Bool → Bool → Nat → List Nat → List Nat → Nat → Lane

/-- What a CXL component register of BAR2 reads as, from its offset and the word last written to it, if any: the spec names the capabilities
and gives no layout (R395). -/
opaque Config.component : Nat → Option Nat → Word

/-- The value the n-th drawn open word takes. -/
opaque Config.freeWord : Nat → Word

/-- The exponent that a code of an index at or above NSYM decodes to (R186 says such SYM entries are ignored and no more). -/
opaque Config.straySym : Nat → BitVec 8

end Sys2Proof
end

