-- ==== Sys2Proof/Machine/Flags.lean ====
section
/-! DEFINITION. The arithmetic of every unit (R100 to R119, R218): decoding, exact values, round_fp32, conversions, and the flags they raise. -/

namespace Sys2Proof.Machine

open Sys2Proof

/-- No flag raised. -/
def Flags.none : Flags := ⟨false, false, false⟩

/-- INVALID alone. -/
def Flags.inv : Flags := ⟨true, false, false⟩

/-- The flags raised by either of two operations. -/
def Flags.join (a b : Flags) : Flags := ⟨a.invalid || b.invalid, a.overflow || b.overflow, a.flush || b.flush⟩

/-- The exact value of an element: a NaN, an infinity, or (-1)^neg * m * 2^e (R103, R104). -/
inductive FVal where
  | nan
  | inf (neg : Bool)
  | fin (neg : Bool) (m : Nat) (e : Int)
  deriving DecidableEq, Repr

/-- The canonical NaN of FP32 (R102). -/
def qnan32 : Lane := 0x7FC00000#32

/-- An FP32 zero of a sign. -/
def zero32 (neg : Bool) : Lane := if neg then 0x80000000#32 else 0#32

/-- An FP32 infinity of a sign. -/
def inf32 (neg : Bool) : Lane := if neg then 0xFF800000#32 else 0x7F800000#32

/-- A float of the IEEE layout with `ew` exponent and `fw` fraction bits, decoded exactly (R100, R104). -/
def decodeFloat (ew fw x : Nat) : FVal :=
  let neg := bit x (ew + fw)
  let e := bits x (ew + fw - 1) fw
  let f := x % 2 ^ fw
  let bias : Int := 2 ^ (ew - 1) - 1
  if e = 2 ^ ew - 1 then (if f = 0 then .inf neg else .nan)
  else if e = 0 then .fin neg f (1 - bias - fw)
  else .fin neg (2 ^ fw + f) ((e : Int) - bias - fw)

/-- An integer as an exact value; zero is +0 (R104). -/
def ofIntVal (v : Int) : FVal := .fin (decide (v < 0)) v.natAbs 0

/-- The bit width of an element type (R38, R100). -/
def typeBits (t : Nat) : Nat :=
  match t with
  | 0 => 32 | 1 => 16 | 2 => 16 | 3 => 8 | 4 => 4 | _ => 32

/-- A type code of R38 that is not reserved. -/
def typeOk (t : Nat) : Bool := decide (t ≤ 5)

/-- The float types of R38. -/
def typeIsFloat (t : Nat) : Bool := decide (t ≤ 2)

/-- The exact value of an element of a type (R100, R104). -/
def decodeElem (t x : Nat) : FVal :=
  match t with
  | 0 => decodeFloat 8 23 x
  | 1 => decodeFloat 8 7 x
  | 2 => decodeFloat 5 10 x
  | 3 => ofIntVal (signedOf 8 x)
  | 4 => ofIntVal (signedOf 4 x)
  | _ => ofIntVal (signedOf 32 x)

/-- The exact value of an FP32 lane. -/
def val32 (x : Lane) : FVal := decodeFloat 8 23 x.toNat

/-- `m * 2^e` as a multiple of `2^q`, to nearest with ties to even (R109, R116). -/
def roundMult (m : Nat) (e q : Int) : Nat :=
  if q ≤ e then m * 2 ^ (e - q).toNat
  else
    let d := 2 ^ (q - e).toNat
    let n := m / d
    let r := m % d
    if d < 2 * r ∨ (2 * r = d ∧ n % 2 = 1) then n + 1 else n

/-- The exponent of the leading bit of a nonzero `m * 2^e`. -/
def topExp (m : Nat) (e : Int) : Int := e + (Nat.log2 m : Int)

/-- round_fp32 of R109: 24 bits to nearest even, overflow to infinity, a result below 2^-126 flushed to zero with FLUSH. -/
def roundFp32 : FVal → Lane × Flags
  | .nan => (qnan32, .none)
  | .inf neg => (inf32 neg, .none)
  | .fin neg m e =>
    if m = 0 then (zero32 neg, .none)
    else
      let q := topExp m e - 23
      let n := roundMult m e q
      let (n, q) := if n = 2 ^ 24 then (2 ^ 23, q + 1) else (n, q)
      let x := q + 23
      if 128 ≤ x then (inf32 neg, .none)
      else if x < -126 then (zero32 neg, ⟨false, false, true⟩)
      else (BitVec.ofNat 32 (b2n neg * 2 ^ 31 + (x + 127).toNat * 2 ^ 23 + (n - 2 ^ 23)), .none)

/-- An exact product, with INVALID for zero times infinity (R105). -/
def mulVal : FVal → FVal → FVal × Flags
  | .nan, _ => (.nan, .none)
  | _, .nan => (.nan, .none)
  | .inf a, .inf b => (.inf (a != b), .none)
  | .inf a, .fin b m _ => if m = 0 then (.nan, .inv) else (.inf (a != b), .none)
  | .fin a m _, .inf b => if m = 0 then (.nan, .inv) else (.inf (a != b), .none)
  | .fin a m e, .fin b n f => (.fin (a != b) (m * n) (e + f), .none)

/-- An exact sum, with INVALID for infinities of unlike sign; an exact zero is +0 unless both are -0 (R110). -/
def addVal : FVal → FVal → FVal × Flags
  | .nan, _ => (.nan, .none)
  | _, .nan => (.nan, .none)
  | .inf a, .inf b => if a = b then (.inf a, .none) else (.nan, .inv)
  | .inf a, .fin _ _ _ => (.inf a, .none)
  | .fin _ _ _, .inf b => (.inf b, .none)
  | .fin a m e, .fin b n f =>
    let q := min e f
    let x : Int := (m * 2 ^ (e - q).toNat : Nat)
    let y : Int := (n * 2 ^ (f - q).toNat : Nat)
    let t := (if a then -x else x) + (if b then -y else y)
    if t = 0 then (.fin (a && b && decide (m = 0) && decide (n = 0)) 0 0, .none)
    else (.fin (decide (t < 0)) t.natAbs q, .none)

/-- The negative of an exact value. -/
def negVal : FVal → FVal
  | .nan => .nan
  | .inf a => .inf (!a)
  | .fin a m e => .fin (!a) m e

/-- A rounded result with the flags of its exact operation. -/
def rounded (r : FVal × Flags) : Lane × Flags :=
  let (x, f) := roundFp32 r.1
  (x, r.2.join f)

/-- FP32 add (R110, R113). -/
def fadd (a b : Lane) : Lane × Flags := rounded (addVal (val32 a) (val32 b))

/-- FP32 subtract (R113). -/
def fsub (a b : Lane) : Lane × Flags := rounded (addVal (val32 a) (negVal (val32 b)))

/-- FP32 multiply (R113). -/
def fmul (a b : Lane) : Lane × Flags := rounded (mulVal (val32 a) (val32 b))

/-- FP32 fused multiply-add with one rounding; zero times infinity raises INVALID whatever the addend (R113). -/
def ffma (a b c : Lane) : Lane × Flags :=
  let (p, f) := mulVal (val32 a) (val32 b)
  let (r, g) := addVal p (val32 c)
  rounded (r, f.join g)

/-- The order of two non-NaN values, -0 below +0 (R113): true where the first is below the second. -/
def ltVal : FVal → FVal → Bool
  | .nan, _ => false
  | _, .nan => false
  | .inf a, .inf b => a && !b
  | .inf a, .fin _ _ _ => a
  | .fin _ _ _, .inf b => !b
  | .fin a m e, .fin b n f =>
    let q := min e f
    let x : Int := (m * 2 ^ (e - q).toNat : Nat)
    let y : Int := (n * 2 ^ (f - q).toNat : Nat)
    decide ((if a then -x else x) < (if b then -y else y))

/-- Whether an exact value is a zero of negative sign. -/
def isNegZero : FVal → Bool
  | .fin true 0 _ => true
  | _ => false

/-- Whether an exact value is a NaN. -/
def isNan : FVal → Bool
  | .nan => true
  | _ => false

/-- Whether an exact value is zero. -/
def isZero : FVal → Bool
  | .fin _ 0 _ => true
  | _ => false

/-- FP32 maximum: the canonical NaN if either is NaN, -0 below +0 (R113). A subnormal result is flushed (R111). -/
def fmax (a b : Lane) : Lane × Flags :=
  let x := val32 a
  let y := val32 b
  if isNan x || isNan y then (qnan32, .none)
  else if ltVal x y || (isZero x && isZero y && isNegZero x) then roundFp32 y else roundFp32 x

/-- FP32 minimum (R113). -/
def fmin (a b : Lane) : Lane × Flags :=
  let x := val32 a
  let y := val32 b
  if isNan x || isNan y then (qnan32, .none)
  else if ltVal y x || (isZero x && isZero y && isNegZero y) then roundFp32 y else roundFp32 x

/-- All ones for true, zero for false. -/
def maskLane (b : Bool) : Lane := if b then 0xFFFFFFFF#32 else 0#32

/-- FP32 less-than; false when either is NaN, no flag (R113). -/
def fltMask (a b : Lane) : Lane := maskLane (ltVal (val32 a) (val32 b))

/-- FP32 equality; +0 equals -0, false when either is NaN (R113). -/
def feqMask (a b : Lane) : Lane :=
  let x := val32 a
  let y := val32 b
  maskLane (!isNan x && !isNan y && !ltVal x y && !ltVal y x)

/-! ## Conversions (R116 to R119) -/

/-- A float encoding of an exact value with subnormals kept, saturating or overflowing to infinity (R116, R117). -/
def toFloat (ew fw : Nat) (ieee : Bool) : FVal → Nat × Flags
  | .nan => ((2 ^ ew - 1) * 2 ^ fw + 2 ^ (fw - 1), .none)
  | .inf neg => (b2n neg * 2 ^ (ew + fw) + (2 ^ ew - 1) * 2 ^ fw, .none)
  | .fin neg m e =>
    let sgn := b2n neg * 2 ^ (ew + fw)
    if m = 0 then (sgn, .none)
    else
      let bias : Int := 2 ^ (ew - 1) - 1
      let q := max (topExp m e - fw) (1 - bias - fw)
      let n := roundMult m e q
      let (n, q) := if n = 2 ^ (fw + 1) then (2 ^ fw, q + 1) else (n, q)
      if n < 2 ^ fw then (sgn + n, .none)
      else
        let be := q + fw + bias
        if (2 ^ ew - 1 : Int) ≤ be then
          (if ieee then sgn + (2 ^ ew - 1) * 2 ^ fw else sgn + (2 ^ ew - 2) * 2 ^ fw + (2 ^ fw - 1), ⟨false, true, false⟩)
        else (sgn + be.toNat * 2 ^ fw + (n - 2 ^ fw), .none)

/-- An exact value as a `w`-bit integer, rounded to nearest even and saturated; a NaN gives 0 with INVALID (R118). -/
def toInt (w : Nat) : FVal → Nat × Flags
  | .nan => (0, .inv)
  | .inf neg => (if neg then 2 ^ (w - 1) else 2 ^ (w - 1) - 1, ⟨false, true, false⟩)
  | .fin neg m e =>
    let n := roundMult m e 0
    if neg then (if 2 ^ (w - 1) < n then (2 ^ (w - 1), ⟨false, true, false⟩) else (wrap w (-(n : Int)), .none))
    else if 2 ^ (w - 1) ≤ n then (2 ^ (w - 1) - 1, ⟨false, true, false⟩) else (n, .none)

/-- An exact FP32 value converted to an element type (R117, R118); FP32 itself keeps the value, a NaN made canonical and a
subnormal flushed. -/
def convertVal (t : Nat) (ieee : Bool) (v : FVal) : Nat × Flags :=
  match t with
  | 0 => let (x, f) := roundFp32 v; (x.toNat, f)
  | 1 => toFloat 8 7 ieee v
  | 2 => toFloat 5 10 ieee v
  | 3 => toInt 8 v
  | 4 => toInt 4 v
  | _ => toInt 32 v

/-- An FP32 lane converted to an element type (R117, R118). -/
def convert (t : Nat) (ieee : Bool) (x : Lane) : Nat × Flags := convertVal t ieee (val32 x)

/-- cvt.up: an element of a type widened to FP32 (R119). -/
def widen (t x : Nat) : Lane × Flags := roundFp32 (decodeElem t x)

/-- An exact integer saturated to a `w`-bit range, OVERFLOW where it saturates (R118, R143). -/
def satInt (w : Nat) (v : Int) : Nat × Flags :=
  if v < -(2 ^ (w - 1) : Int) then (2 ^ (w - 1), ⟨false, true, false⟩)
  else if (2 ^ (w - 1) : Int) - 1 < v then (2 ^ (w - 1) - 1, ⟨false, true, false⟩)
  else (wrap w v, .none)

/-- One addition of a store-add at the destination (R143). -/
def addElem (t : Nat) (ieee : Bool) (old src : Nat) : Nat × Flags :=
  if typeIsFloat t then
    let (a, f1) := widen t old
    let (b, f2) := widen t src
    let (r, f3) := if t = 0 then fadd (BitVec.ofNat 32 old) (BitVec.ofNat 32 src) else fadd a b
    if t = 0 then (r.toNat, f3)
    else
      let (x, f4) := convert t ieee r
      (x, ((f1.join f2).join f3).join f4)
  else satInt (typeBits t) (signedOf (typeBits t) old + signedOf (typeBits t) src)

/-! ## Chunk sums (R108) -/

/-- The chunk sum of R108: special cases first, then the 48-bit window. -/
def chunkSum (ps : List (FVal × Flags)) : Lane × Flags :=
  let fl := ps.foldl (fun f p => f.join p.2) Flags.none
  let vs := ps.map (·.1)
  if vs.any isNan then (qnan32, fl)
  else
    let pinf := vs.any (· == .inf false)
    let ninf := vs.any (· == .inf true)
    if pinf && ninf then (qnan32, fl.join .inv)
    else if pinf then (inf32 false, fl)
    else if ninf then (inf32 true, fl)
    else
      let nz := vs.filter fun v => !isZero v
      match nz with
      | [] => (zero32 (vs.all isNegZero), fl)
      | v :: _ =>
        let top := fun v => match v with
          | FVal.fin _ m e => topExp m e
          | _ => 0
        let emax := nz.foldl (fun x v => max x (top v)) (top v)
        let unit := fun v => match v with
          | FVal.fin neg m e =>
            let sh := e + 38 - emax
            let u : Int := if 0 ≤ sh then (m * 2 ^ sh.toNat : Nat) else (m / 2 ^ (-sh).toNat : Nat)
            if neg then -u else u
          | _ => 0
        let w := nz.foldl (fun (acc : Int) v => acc + unit v) 0
        if w = 0 then (zero32 false, fl)
        else
          let (r, f) := roundFp32 (.fin (decide (w < 0)) w.natAbs (emax - 38))
          (r, fl.join f)

/-! ## Reductions and library operations (R114, R115) -/

/-- One level of the pairwise tree of R114. -/
def treeLevel (op : Lane → Lane → Lane × Flags) : List Lane → List Lane × Flags
  | a :: b :: l =>
    let (r, f) := op a b
    let (rs, g) := treeLevel op l
    (r :: rs, f.join g)
  | l => (l, .none)

/-- The pairwise tree of R114, `n` levels. -/
def treeReduce (op : Lane → Lane → Lane × Flags) : Nat → List Lane → List Lane × Flags
  | 0, l => (l, .none)
  | n + 1, l =>
    let (l, f) := treeLevel op l
    let (l, g) := treeReduce op n l
    (l, f.join g)

/-- A free approximation `x` of an operation, brought to the value the spec fixes: a NaN made canonical and a subnormal flushed (R115). -/
def approx (x : Lane) : Lane × Flags := roundFp32 (val32 x)

/-- `m * 2^e` compared at a common scale: an integer proportional to it at scale `2^q`, `q` no greater than `e`. -/
def scaleTo (q : Int) (m : Nat) (e : Int) : Nat := m * 2 ^ (e - q).toNat

/-- The exponent of 1 / (m * 2^e) for a nonzero `m`. -/
def rcpExp (m : Nat) (e : Int) : Int := -(topExp m e) - (if m = 2 ^ Nat.log2 m then 0 else 1)

/-- A candidate reciprocal `n * 2^f` of `m * 2^e` lies within one ulp of the exact result (R115): |m n 2^(e+f) - 1| is at most
m * 2^e * ulp. -/
def rcpWithin (m : Nat) (e : Int) (n : Nat) (f : Int) : Bool :=
  let u := rcpExp m e - 23
  let q := min (min (e + f) 0) (e + u)
  let p := scaleTo q (m * n) (e + f)
  let one := scaleTo q 1 0
  decide ((if one ≤ p then p - one else one - p) ≤ scaleTo q m (e + u))

/-- The reciprocal truncated to 24 bits: within one ulp of the exact result. -/
def rcpTrunc (neg : Bool) (m : Nat) (e : Int) : Lane × Flags :=
  let k := Nat.log2 m + 26
  roundFp32 (.fin neg (2 ^ k / m) (-e - k))

/-- vrcp (R115): the special values; otherwise the free approximation of Config where it keeps to the bound of one ulp, and a
value within the bound where it does not. -/
def frcp (x : Lane) : Lane × Flags :=
  match val32 x with
  | .nan => (qnan32, .none)
  | .inf neg => (zero32 neg, .none)
  | .fin neg m e =>
    if m = 0 then (inf32 neg, .none)
    else match val32 (Config.rcp x) with
      | .fin neg' n f => if neg' = neg ∧ rcpWithin m e n f then approx (Config.rcp x) else rcpTrunc neg m e
      | _ => rcpTrunc neg m e

/-- The exponent of 1 / sqrt (m * 2^e) for a nonzero `m`, from the exponent of `m * 2^e` and whether it is a power of 4. -/
def rsqrtExp (m : Nat) (e : Int) : Int :=
  let t := topExp m e
  if m = 2 ^ Nat.log2 m ∧ t % 2 = 0 then -(t / 2) else -(t / 2) - 1

/-- A candidate `n * 2^f` lies within one ulp of 1 / sqrt (m * 2^e): (y - u)^2 x is at most 1, and 1 at most (y + u)^2 x. -/
def rsqrtWithin (m : Nat) (e : Int) (n : Nat) (f : Int) : Bool :=
  let u := rsqrtExp m e - 23
  let q := min f u
  let y := scaleTo q n f
  let du := scaleTo q 1 u
  let z := min (2 * q + e) 0
  decide (scaleTo z ((y - du) * (y - du) * m) (2 * q + e) ≤ scaleTo z 1 0) &&
    decide (scaleTo z 1 0 ≤ scaleTo z ((y + du) * (y + du) * m) (2 * q + e))

/-- The reciprocal square root truncated to more than 24 bits: within one ulp of the exact result. -/
def rsqrtTrunc (m : Nat) (e : Int) : Lane × Flags :=
  let (m, e) := if e % 2 = 0 then (m, e) else (2 * m, e - 1)
  let k := Nat.log2 m + 28
  roundFp32 (.fin false (Nat.sqrt (2 ^ (2 * k) / m)) (-(e / 2) - k))

/-- vrsqrt (R115). -/
def frsqrt (x : Lane) : Lane × Flags :=
  match val32 x with
  | .nan => (qnan32, .none)
  | .inf neg => if neg then (qnan32, .inv) else (zero32 false, .none)
  | .fin neg m e =>
    if m = 0 then (inf32 neg, .none)
    else if neg then (qnan32, .inv)
    else match val32 (Config.rsqrt x) with
      | .fin false n f => if rsqrtWithin m e n f then approx (Config.rsqrt x) else rsqrtTrunc m e
      | _ => rsqrtTrunc m e

/-- An FP32 result's effect on the row flags and statistics: whether a lane is infinite. -/
def laneInf (x : Lane) : Bool :=
  match val32 x with
  | .inf _ => true
  | _ => false

/-- Whether a lane is a NaN. -/
def laneNan (x : Lane) : Bool := isNan (val32 x)

end Sys2Proof.Machine
end

