-- ==== Sys2Proof/Machine/Wire.lean ====
section
/-! DEFINITION. The wire recipes of the collective units: the Hadamard rotation, row scales, narrowing and restoring (R347 to R349), and the element lists of typed memory. -/

namespace Sys2Proof.Machine

open Sys2Proof

/-- `n` elements of a type held packed in a byte list (R101), as bit patterns. -/
def unpackElems (t : Nat) (bs : List Byte) (n : Nat) : List Nat :=
  (List.range n).map fun i =>
    match typeBits t with
    | 4 => (bs.getD (i / 2) 0).toNat / 16 ^ (i % 2) % 16
    | w => leNat ((bs.drop (i * (w / 8))).take (w / 8))

/-- Elements of a type packed into bytes (R101). -/
def packElems (t : Nat) : List Nat → List Byte
  | [] => []
  | x :: xs =>
    match typeBits t with
    | 4 =>
      match xs with
      | [] => [BitVec.ofNat 8 (x % 16)]
      | y :: ys => BitVec.ofNat 8 (x % 16 + 16 * (y % 16)) :: packElems t ys
    | w => leBytes (w / 8) x ++ packElems t xs

/-- The exactly rounded quotient of two finite FP32 values, the divisor nonzero (R349). -/
def fdiv (a b : Lane) : Lane × Flags :=
  match val32 a, val32 b with
  | .fin na m e, .fin nb n f =>
    if m = 0 then (zero32 (na != nb), .none)
    else
      let k := Nat.log2 n + 30
      let q := m * 2 ^ k / n
      let r := m * 2 ^ k % n
      roundFp32 (.fin (na != nb) (2 * q + b2n (decide (r ≠ 0))) (e - f - k - 1))
  | _, _ => (qnan32, .none)

/-- One butterfly level of fwht at distance `h` (R348). -/
def fwhtLevel (h : Nat) (v : List Lane) : List Lane × Flags :=
  let rs := (List.range v.length).map fun i =>
    if i / h % 2 = 0 then fadd (v.getD i 0) (v.getD (i + h) 0) else fsub (v.getD (i - h) 0) (v.getD i 0)
  (rs.map (·.1), rs.foldl (fun f r => f.join r.2) .none)

/-- fwht over one 128-element block: the levels of distances 1 to 64 in order (R348). -/
def fwht (v : List Lane) : List Lane × Flags :=
  [1, 2, 4, 8, 16, 32, 64].foldl (fun (acc : List Lane × Flags) h =>
    let (w, f) := fwhtLevel h acc.1
    (w, acc.2.join f)) (v, .none)

/-- fwht over every 128-element block of a row. -/
def fwhtRow : Nat → List Lane → List Lane × Flags
  | 0, v => (v, .none)
  | n + 1, v =>
    let (a, f) := fwht (v.take 128)
    let (b, g) := fwhtRow n (v.drop 128)
    (a ++ b, f.join g)

/-- The magnitude of a lane. -/
def absLane (x : Lane) : Lane := x &&& 0x7FFFFFFF#32

/-- The largest magnitude of a row; NaN if any element is (R349). -/
def rowMax (v : List Lane) : Lane :=
  v.foldl (fun m x => if laneNan m || laneNan x then qnan32 else if m.toNat < (absLane x).toNat then absLane x else m) 0

/-- A row narrowed by the sender (R349): the scale and the INT8 elements. -/
def narrowRow (recipe : Nat) (y : List Lane) : Lane × List Nat × Flags :=
  let (y, f) := if recipe = 1 then fwhtRow (y.length / 128) y else (y, .none)
  let m := rowMax y
  if laneNan m || laneInf m then (qnan32, y.map fun _ => 0, f)
  else
    let (d, g) := fdiv m 0x42FE0000#32
    if isZero (val32 d) then (d, y.map fun _ => 0, f.join g)
    else (d, y.map fun x => (toInt 8 (val32 (fdiv x d).1)).1, f.join g)

/-- A row restored by the receiver (R349): FP32 elements and the flags raised. -/
def restoreRow (recipe : Nat) (d : Lane) (q : List Nat) : List Lane × Flags :=
  if laneNan d then (q.map fun _ => qnan32, .inv)
  else
    let rs := q.map fun x => rounded (mulVal (ofIntVal (signedOf 8 x)) (val32 d))
    let y := rs.map (·.1)
    let f := rs.foldl (fun f r => f.join r.2) .none
    if recipe = 1 then
      let (y, g) := fwhtRow (y.length / 128) y
      let zs := y.map fun x => fmul x 0x3C000000#32
      (zs.map (·.1), (f.join g).join (zs.foldl (fun f r => f.join r.2) .none))
    else (y, f)

/-- A byte list cut into granules of 256 bytes, the last filled with zeros. -/
def toGranules : Nat → List Byte → List (List Byte)
  | 0, _ => []
  | n + 1, bs => if bs = [] then [] else (bs.take 256 ++ zeroBytes (256 - (bs.take 256).length)) :: toGranules n (bs.drop 256)

/-- The wire granules of up to 64 narrowed rows: the granule of scales, then the rows (R347). -/
def wireGroup (rows : List (Lane × List Nat)) : List (List Byte) :=
  let scales := rows.flatMap fun r => leBytes 4 r.1.toNat
  let data := rows.flatMap fun r => r.2.map fun x => BitVec.ofNat 8 x
  (scales ++ zeroBytes (256 - scales.length)) :: toGranules (data.length / 256 + 1) data

/-- Groups of 64 rows. -/
def wireRows : Nat → List (Lane × List Nat) → List (List Byte)
  | 0, _ => []
  | n + 1, rows => if rows = [] then [] else wireGroup (rows.take 64) ++ wireRows n (rows.drop 64)

/-- Rows that the granules of a group hold: as many as fill them, up to 64. The second half of a last granule of 128-element rows holds a
row, or nothing; where its scale and its elements are zero the wire does not show which, and `odd` says (R347; log entry 80). -/
def groupRows (odd : Bool) (rowLen : Nat) (scales : List Byte) (rest : List (List Byte)) : Nat :=
  let cnt := min 64 (rest.length * 256 / rowLen)
  let lo := (cnt - 1) * rowLen
  let blank := rowLen == 128 && cnt % 2 == 0 && leNat ((scales.drop (4 * (cnt - 1))).take 4) == 0 &&
    ((rest.getD (lo / 256) []).drop (lo % 256)).all (· == 0)
  if decide (rest.length * 256 / rowLen ≤ 64) && blank && !odd then cnt - 1 else cnt

/-- Rows and their poison recovered from wire granules (R347): scale, elements, and whether the row is poisoned. -/
def unwireRows (odd : Bool) (rowLen : Nat) : Nat → List (List Byte × Bool) → List (Lane × List Nat × Bool)
  | 0, _ => []
  | n + 1, gs =>
    match gs with
    | [] => []
    | (sc, sp) :: rest =>
      let cnt := groupRows odd rowLen sc (rest.map (·.1))
      let take := cdiv (cnt * rowLen) 256
      let data := (rest.take take).flatMap (·.1)
      let rows := (List.range cnt).map fun i =>
        let lo := i * rowLen / 256
        let hi := ((i + 1) * rowLen - 1) / 256
        (BitVec.ofNat 32 (leNat ((sc.drop (4 * i)).take 4)),
          ((data.drop (i * rowLen)).take rowLen).map (·.toNat),
          sp || (((rest.take take).drop lo).take (hi + 1 - lo)).any (·.2))
      rows ++ (if cnt < 64 then [] else unwireRows odd rowLen n (rest.drop take))

end Sys2Proof.Machine
end

