-- ==== Sys2Proof/Machine/Links.lean ====
section
/-! DEFINITION. Halgar ports: routes, credits, replay, packet delivery, and the link commands (R321 to R343, R351). -/

namespace Sys2Proof.Machine

open Sys2Proof

/-! ## Nodes and routes (R333 to R335, R351) -/

/-- The device is in a brownout Hold (R456). -/
def State.held (s : State) : Bool := s.flag Reg.PCR_PSTATE_HOLD

/-- A node identifier that this device answers to: its own, 0xFF, or its alias (R333). -/
def State.isLocalNode (s : State) (d : Nat) : Bool :=
  let al := s.get Reg.HGP0_NODE_ALIAS
  d == 0xFF || d == s.get Reg.HGP0_NODE_NODE || (bit al 7 && d == al % 128 + 128)

/-- A port is UP8 or UP4. -/
def State.portUp (s : State) (n : Nat) : Bool :=
  let st := s.get (Reg.HGPn_STATUS_STATE n)
  st == 2 || st == 3

/-- A route mask as the device uses it: bit 7 clear in a twin unless the mask is the partner's (R351), cut to one die (R334). -/
def State.useMask (s : State) (dst mask : Nat) : Nat :=
  let m := if s.flag Reg.GLB_ROLE_TWIN && dst != s.get Reg.TWN_CFG_PARTNER then mask % 128 else mask
  if m % 16 = 0 then m else m % 16

/-- The ports of a mask that are up, lowest first. -/
def State.upPorts (s : State) (mask : Nat) : List Nat := (List.range 8).filter fun n => bit mask n && s.portUp n

/-- The ports a packet to a node in a class may leave on: those of PRI that are up, else those of ALT (R334). -/
def State.routePorts (s : State) (dst cls : Nat) : List Nat :=
  let p := s.upPorts (s.useMask dst (s.get (Reg.HGP0_RTk_PRI_c dst cls)))
  if p = [] then s.upPorts (s.useMask dst (s.get (Reg.HGP0_RTk_ALT_c dst cls))) else p

/-- The credits of a port for a virtual lane: reserved and shared (R330). -/
def Port.credits (p : Port) (vl : Nat) : Nat := p.reserved.toList.getD vl 0 + p.shared

/-- Whether packets of a kind spread over the ports of a mask (R335). -/
def PKind.spreads : PKind → Bool
  | .write => true
  | .readResp => true
  | _ => false

/-- The ports a packet may leave on: a post between the sides of a twin in CC3 travels on HGP7 while it is up (R351), any other packet by
its route. -/
def State.portsFor (s : State) (k : Packet) : List Nat :=
  if s.flag Reg.GLB_ROLE_TWIN && k.kind == .post && k.vl == 3 && k.dst == s.get Reg.TWN_CFG_PARTNER && s.portUp 7 then [7]
  else s.routePorts k.dst k.vl

/-- The port a packet leaves on (R335): the one with the most free credits for data, the lowest-numbered for the rest. -/
def State.pickPort (s : State) (k : PKind) (vl : Nat) : List Nat → Option Nat
  | [] => none
  | n :: ns =>
    if k.spreads then
      some (ns.foldl (fun b m => if (s.port b).credits vl < (s.port m).credits vl then m else b) n)
    else some n

/-! ## Sending (R322, R330, R332) -/

/-- A port may start a packet of a virtual lane: a credit is held and the replay buffer has room (R330, R332). -/
def Port.canSend (p : Port) (vl : Nat) : Bool := decide (0 < p.credits vl) && decide (p.replay.length < 64)

/-- A vector of four with one entry changed by a function. -/
def mod4 (v : Vector Nat 4) (i : Nat) (f : Nat → Nat) : Vector Nat 4 :=
  if h : i < 4 then v.set i (f (v[i])) else v

/-- A control flit leaves a port (R328): the credits owed, the highest LSEQ received in order, and NAK; in Hold no credit (R340). -/
def Port.sendCtl (p : Port) (held : Bool) : Port :=
  { p with ctl := p.ctl ++ [⟨if held then Vector.replicate 4 0 else p.owed, 0, (p.rxLseq + 4095) % 4096, p.nak, none⟩]
           owed := if held then p.owed else Vector.replicate 4 0, nak := false }

/-- The control flit that is due after 64 other flits is inserted, if it is (R322). -/
def Port.insertDue (p : Port) (held : Bool) : Port := if 64 ≤ p.flits then { p.sendCtl held with flits := p.flits - 64 } else p

/-- A packet's flits follow on a port, behind every control flit that is due; a packet of 16 granules leaves at most two (R322). -/
def Port.countFlits (p : Port) (held : Bool) (k : Packet) : Port :=
  let p := (p.insertDue held).insertDue held
  { p with flits := p.flits + k.flits }

/-- A packet starts on a port: a credit is used, reserved ones first, and the packet enters the replay buffer under the next LSEQ. -/
def Port.transmit (p : Port) (k : Packet) : Port :=
  let useRes := decide (0 < p.reserved.toList.getD k.vl 0)
  let p := p.countFlits false k
  { p with
    reserved := if useRes then mod4 p.reserved k.vl (· - 1) else p.reserved
    shared := if useRes then p.shared else p.shared - 1
    replay := p.replay ++ [k.sealed p.nextLseq]
    nextLseq := (p.nextLseq + 1) % 4096
    txBytes := p.txBytes + 256 * k.data.length }

/-- The waiting packets of a port leave in the order of their lanes while credits last (R331): what is left, the lanes blocked,
the port, and the ingress buffers freed. -/
def pumpWaiting (held : Bool) : List (Packet × Option Nat) → List Nat → Port → List (Option Nat × Nat) →
    List (Packet × Option Nat) × Port × List (Option Nat × Nat)
  | [], _, p, freed => ([], p, freed)
  | (k, i) :: ws, blocked, p, freed =>
    if !held && !blocked.contains k.vl && p.canSend k.vl then
      pumpWaiting held ws blocked (p.transmit k) (freed ++ [(i, k.vl)])
    else
      let (rest, p, freed) := pumpWaiting held ws (k.vl :: blocked) p freed
      ((k, i) :: rest, p, freed)

/-- An ingress buffer of a port is free again: a credit of its lane is owed to the peer (R330). -/
def State.oweCredit (s : State) (n vl : Nat) : State :=
  let p := s.port n
  s.setPort n { p with owed := mod4 p.owed vl (· + 1) }

/-- A port sends what it can; MiB counts move with the bytes sent. -/
def State.pump (s : State) (n : Nat) : State :=
  let p := s.port n
  let (w, p, freed) := pumpWaiting s.held p.waiting [] { p with waiting := [] } []
  let mib := p.txBytes / 2 ^ 20
  let s := s.setPort n { p with waiting := w, txBytes := p.txBytes % 2 ^ 20 }
  let s := s.count (Reg.HGPn_PAYLOAD_TX_MIB n) mib
  freed.foldl (fun s e => match e.1 with
    | some i => s.oweCredit i e.2
    | none => s) s

/-! ## Collective jobs' completion (R343, R344) -/

/-- The unit register block of a unit index (HGP0 for CU0, HGP4 for CU1). -/
def cuIndex (unit : Nat) : Nat := unit % 2

/-- A job's STATUS code (R344). -/
def CuJob.status (j : CuJob) : Nat := if j.lost then 4 else if j.poison then 3 else 1

/-- A collective job ends with a status: STATUS written, the progress of all sources' jobs since cold start (R352), the DONE_SIG post, the
log entry of LINK and POISON (R344). -/
def State.endCuJob (s : State) (j : CuJob) (status : Nat) : State :=
  let lo := s.heldSeq
  let s := { s with cuJobs := s.cuJobs.filter (·.id != j.id) }
  let s := match j.recAddr with
    | some a => s.writeLogged 8 (a + 7) [BitVec.ofNat 8 status]
    | none => { s with cuDone := mapInsert s.cuDone j.token status }
  let s := (s.count (Reg.HGPn_CU_PROGRESS_DONE (cuIndex j.unit)) 1).put (Reg.HGPn_CU_PROGRESS_LAST_STATUS (cuIndex j.unit)) status
  let s := if status = 3 ∨ status = 4 then
      s.logErr { sev := 2, kind := 8, source := 8, job := j.id, unit := j.unit, detail := status } else s
  match j.doneSig with
  | some sg => s.endWork (s.heldSince lo) (.post sg) (s.postSig sg false 1)
  | none => s

/-- A job has work left: a transfer in flight or waiting, a ring to go round, or a local write that waits for a frame (R240, R343). -/
def State.cuBusy (s : State) (id : Nat) : Bool :=
  s.tx.any (fun t => t.job == id) || s.txWait.any (fun t => t.job == id) || s.redJobs.any (fun r => r.job == id) ||
  s.ending (· == .job id)

/-- A job that has been set up and whose last transfer has ended is ended (R343). -/
def State.checkCuJob (s : State) (id : Nat) : State :=
  if s.cuBusy id then s
  else match s.cuJobs.find? (fun j => j.id == id) with
    | some j => if j.starting then s else s.endCuJob j j.status
    | none => s

/-- A job changed by a function. -/
def State.modCuJob (s : State) (id : Nat) (f : CuJob → CuJob) : State :=
  { s with cuJobs := s.cuJobs.map fun j => if j.id = id then f j else j }

/-- A transfer of this device has ended. -/
def State.endTx (s : State) (x : Nat) : State :=
  match s.tx.find? (fun t => t.xfer == x) with
  | some t => ({ s with tx := s.tx.filter (·.xfer != x) }).checkCuJob t.job
  | none => s

/-- A packet is lost (R338): counted at a port, logged, and its transfer failed if it is this device's WRITE or READ. -/
def State.losePacket (s : State) (n : Nat) (hops : Bool) (k : Packet) : State :=
  let s := s.count (if hops then Reg.HGPn_LOST_HOPS n else Reg.HGPn_LOST_ROUTE n) 1
  let s := s.logErr { sev := 1, kind := 6, source := 8, job := k.xfer, unit := n, addr := k.addr }
  let s := { s with lost := s.lost ++ [k] }
  if s.isLocalNode k.src && (k.kind == .write || k.kind == .readReq) then
    match s.tx.find? (fun t => t.xfer == k.xfer) with
    | some t => (s.modCuJob t.job fun j => { j with lost := true }).endTx k.xfer
    | none => s
  else s

/-- A packet without a way on is lost on the first port of its route, and frees its ingress buffer (R338). -/
def State.loseVia (s : State) (k : Packet) (ingress : Option Nat) : State :=
  let s := match ingress with
    | some i => s.oweCredit i k.vl
    | none => s
  let m := s.useMask k.dst (s.get (Reg.HGP0_RTk_PRI_c k.dst k.vl))
  s.losePacket (((List.range 8).find? fun n => bit m n).getD 0) false k

/-- A packet goes onto the queue of one of some ports, or is lost where there is none (R335, R338). -/
def State.sendOver (s : State) (ports : List Nat) (k : Packet) (ingress : Option Nat) : State :=
  match s.pickPort k.kind k.vl ports with
  | some n =>
    let p := s.port n
    (s.setPort n { p with waiting := p.waiting ++ [(k, ingress)] }).pump n
  | none => s.loseVia k ingress

/-- A packet takes its route: onto a port's queue, or lost if no port of its route is up (R334, R338). -/
def State.sendVia (s : State) (k : Packet) (ingress : Option Nat) : State := s.sendOver (s.portsFor k) k ingress

/-- The hops a packet starts with: the whole field (R327). DESIGN CHOICE, log entry 12. -/
def startHops : Nat := 15

/-- A packet header with every field zero. -/
def Packet.blank (k : PKind) : Packet :=
  { kind := k, vl := 0, recipe := 0, hops := startHops, src := 0, dst := 0, poison := 0, addr := 0, xfer := 0, pkt := 0
    npkt := 1, psig := 0, pen := false, set := false, value := 0, dtype := 0, rowlen := 0, opid := 0, ngran := 0, data := [] }

/-! ## Delivery (R337, R343) -/

/-- The lowest-numbered valid export window that contains an address (R337). -/
def State.exportWindow (s : State) (a : Nat) : Option Nat :=
  firstBelow 8 fun i => s.flag (Reg.HGP0_EXPi_VALID i) && decide (s.get (Reg.HGP0_EXPi_BASE i) ≤ a / 2 ^ 30)
    && decide (a / 2 ^ 30 ≤ s.get (Reg.HGP0_EXPi_LIMIT i))

/-- A remote access is permitted (R337). -/
def State.exported (s : State) (wr : Bool) (a : Nat) : Bool :=
  match s.exportWindow a with
  | some i => s.flag (if wr then Reg.HGP0_EXPi_WR i else Reg.HGP0_EXPi_RD i)
  | none => false

/-- A received granule is written, poisoned or not (R337, R339); `twin` for a mirror copy, which the twin engine writes (R478, R479). -/
def State.putGranule (s : State) (twin : Bool) (a : Nat) (bs : List Byte) (bad : Bool) : State :=
  if bad then s.storePoisoned 2 twin (granuleOf a) bs
  else if twin then
    match ((s.enterBank a).backInvalidate (granuleOf a) true).writeIn 2 true a (bs.take 256) with
    | (.noFrame, t) => t.hold a (bs.take 256) 2 true false
    | (_, t) => t
  else (s.write 2 a (bs.take 256)).2

/-- Received granules written one after another, with their poison bits. -/
def State.putGranules (s : State) (twin : Bool) (a : Nat) : List (List Byte × Bool) → State
  | [] => s
  | (bs, bad) :: gs => (s.putGranule twin a bs bad).putGranules twin (a + 256) gs

/-- A packet carries a mirror copy: from the twin partner in CC3 with recipe 0 (R478). -/
def State.isMirror (s : State) (k : Packet) : Bool :=
  s.flag Reg.GLB_ROLE_TWIN && k.src == s.get Reg.TWN_CFG_PARTNER && k.vl == 3 && k.recipe == 0

/-- A packet's granules with their poison bits. -/
def Packet.grans (k : Packet) : List (List Byte × Bool) :=
  (List.range k.ngran).map fun i => (((k.data.getD i []) ++ zeroBytes 256).take 256, bit k.poison i)

/-- Flags of a receiving unit (R349): recorded in its HGPn_CU_PROGRESS. -/
def State.cuFlags (s : State) (unit : Nat) (f : Flags) : State :=
  let u := cuIndex unit
  let s := if f.invalid then s.put (Reg.HGPn_CU_PROGRESS_INVALID u) 1 else s
  let s := if f.overflow then s.put (Reg.HGPn_CU_PROGRESS_OVERFLOW u) 1 else s
  if f.flush then s.put (Reg.HGPn_CU_PROGRESS_FLUSH u) 1 else s

/-- Restored rows written as DTYPE elements from an address; a poisoned row is written poisoned (R339, R349). -/
def State.putRows (s : State) (unit recipe dtype : Nat) (a : Nat) : List (Lane × List Nat × Bool) → State
  | [] => s
  | (d, q, bad) :: rows =>
    let (y, f) := restoreRow recipe d q
    let cs := y.map fun x => convert dtype false x
    let s := s.cuFlags unit (cs.foldl (fun f c => f.join c.2) f)
    let bs := packElems dtype (cs.map (·.1))
    let s := s.putGranules false a ((toGranules (bs.length / 256 + 1) bs).map fun g => (g, bad))
    s.putRows unit recipe dtype (a + bs.length) rows

/-- The record of an incoming transfer, a new one for its first packet. -/
def State.rxOf (s : State) (k : Packet) : RxXfer :=
  (s.rx.find? fun r => r.src == k.src && r.xfer == k.xfer).getD ⟨k.src, k.xfer, k, 0, [], [], []⟩

/-- The record of an incoming transfer replaced. -/
def State.setRx (s : State) (r : RxXfer) : State :=
  { s with rx := s.rx.filter (fun x => !(x.src == r.src && x.xfer == r.xfer)) ++ [r] }

/-- The record of an incoming transfer dropped. -/
def State.dropRx (s : State) (r : RxXfer) : State :=
  { s with rx := s.rx.filter fun x => !(x.src == r.src && x.xfer == r.xfer) }

/-- The granules of an assembled transfer in order, with their poison. -/
def RxXfer.all (r : RxXfer) : List (List Byte × Bool) := r.grans.map fun e => (e.2, mapGet false r.bad e.1)

/-- A transfer's granules from one packet added to its record. -/
def RxXfer.add (r : RxXfer) (k : Packet) : RxXfer :=
  (List.range k.ngran).foldl (fun r i =>
    { r with grans := mapInsert r.grans (16 * k.pkt + i) (((k.data.getD i []) ++ zeroBytes 256).take 256)
             bad := mapSet false r.bad (16 * k.pkt + i) (bit k.poison i) }) { r with got := r.got + 1 }

/-- A DONE packet, or the end of the transfer at once where the source is this device (R343). -/
def State.replyDone (s : State) (k : Packet) : State :=
  if s.isLocalNode k.src then s.endTx k.xfer
  else s.sendVia { Packet.blank .done with vl := k.vl, src := s.get Reg.HGP0_NODE_NODE, dst := k.src, xfer := k.xfer, opid := k.opid } none

/-- Those of some writes that still wait for a frame. -/
def State.stillHeld (s : State) (ids : List Nat) : List Nat := ids.filter fun i => s.heldWrites.any fun h => h.id == i

/-- A transfer is visible here whole: PSIG, then DONE (R343). -/
def State.wholeHere (s : State) (k : Packet) : State := (if k.pen then s.postSig k.psig false 1 else s).replyDone k

/-- Whether the last row of a transfer of 128-element rows was sent, where the wire shows neither (log entry 80); one free value is drawn. -/
def State.drawOddRow (s : State) : Bool × State := ((Config.freeWord s.freeCount).getLsbD 0, { s with freeCount := s.freeCount + 1 })

/-- The rows of a transfer under recipe 1 or 2, complete, are restored and written (R347, R349). -/
def State.putNarrow (s : State) (unit : Nat) (k : Packet) (r : RxXfer) : State :=
  let (odd, s) := s.drawOddRow
  s.putRows unit k.recipe k.dtype r.first.addr (unwireRows odd (k.rowlen + 1) (r.grans.length + 1) r.all)

/-- A WRITE packet for this device outside a ring reduce-scatter (R337, R343, R349): granules as they come under recipe 0, whole
rows once the transfer is complete under recipes 1 and 2; once every granule is visible, PSIG and DONE. -/
def State.deliverWrite (s : State) (unit : Nat) (k : Packet) : State :=
  let ok := s.exported true k.addr
  let s := if ok then s else s.violGlb 2 6 k.addr
  let lo := s.heldSeq
  let r := s.rxOf k
  let s := if ok && k.recipe == 0 then s.putGranules (s.isMirror k) k.addr k.grans else s
  let r := if k.recipe = 0 then { r with got := r.got + 1 } else r.add k
  if r.got < k.npkt then s.setRx { r with waits := r.waits ++ s.heldSince lo }
  else
    let s := s.dropRx r
    let s := if ok && k.recipe != 0 then s.putNarrow unit k r else s
    s.endWork (s.stillHeld r.waits ++ s.heldSince lo) (.delivered k) (s.wholeHere k)

/-- A READ_RESP for this device: written at the transfer's local destination; the transfer ends with its last one (R343). -/
def State.deliverResp (s : State) (k : Packet) : State :=
  match s.tx.find? (fun t => t.xfer == k.xfer && t.isRead) with
  | none => s
  | some t =>
    let lo := s.heldSeq
    let s := s.putGranules false (t.dst + (k.addr - t.src)) k.grans
    let s := if k.poison % 2 ^ k.ngran = 0 then s else s.modCuJob t.job fun j => { j with poison := true }
    let waits := s.stillHeld t.waits ++ s.heldSince lo
    if t.got + 1 < t.npkt then
      { s with tx := s.tx.map fun x => if x.xfer = t.xfer then { x with got := x.got + 1, waits := waits } else x }
    else s.endWork waits (.transfer t.xfer) (s.endTx t.xfer)

/-- `n` granules read for a remote device, with their poison bits (R337). -/
def State.readGranules (s : State) (a : Nat) : Nat → List (List Byte) × Nat × State
  | 0 => ([], 0, s)
  | n + 1 =>
    let (b, p, s) := (s.enterBank a).readAs 2 a 256
    let (bs, ps, s) := s.readGranules (a + 256) n
    (b :: bs, b2n p + 2 * ps, s)

/-- The READ_RESP to a READ_REQ: data where a window permits the read, zero granules otherwise (R337). The request asks for NGRAN
granules (DESIGN CHOICE, log entry 13). -/
def State.respFor (s : State) (k : Packet) : Packet × State :=
  let ok := s.exported false k.addr
  let s := if ok then s else s.violGlb 2 6 k.addr
  let (d, p, s) := if ok then s.readGranules k.addr k.ngran else (List.replicate k.ngran (zeroBytes 256), 0, s)
  ({ Packet.blank .readResp with vl := k.vl, src := k.dst, dst := k.src, addr := k.addr, xfer := k.xfer, pkt := k.pkt
                                 npkt := k.npkt, opid := k.opid, ngran := k.ngran, data := d, poison := p }, s)

/-- A READ_REQ for this device is answered (R337). -/
def State.deliverReq (s : State) (k : Packet) : State :=
  let (r, s) := s.respFor k
  if s.isLocalNode k.src then s.deliverResp r else s.sendVia r none

/-- A POST for this device (R53). -/
def State.deliverPost (s : State) (k : Packet) : State := s.postSig k.psig k.set k.value

/-- A packet leaves this device, or is delivered here if its destination is this device (R333, R481). -/
def State.send (s : State) (unit : Nat) (k : Packet) : State :=
  if s.isLocalNode k.dst then
    match k.kind with
    | .write => s.deliverWrite unit k
    | .readReq => s.deliverReq k
    | .readResp => s.deliverResp k
    | .post => s.deliverPost k
    | .done => s.endTx k.xfer
  else s.sendVia k none

/-- Packets sent one after another. -/
def State.sendAll (s : State) (unit : Nat) : List Packet → State
  | [] => s
  | k :: ks => (s.send unit k).sendAll unit ks

/-! ## Receiving (R330, R332) -/

/-- A packet comes in on an up port: FEC's counts move (R352), the next LSEQ in order with every check good is accepted, anything else sets
NAK (R332); an accepted packet's buffer is returned by what takes it (`f`). -/
def State.accept (s : State) (n : Nat) (kind : PKind) (k : InPacket) (f : State → State) : State :=
  if !s.portUp n then s
  else
    let s := (s.count (Reg.HGPn_ERR_CORR n) k.corr.toNat).count (Reg.HGPn_ERR_UNCORR n) k.uncorr.toNat
    let p := s.port n
    if !packetIntact kind k || k.lseq.toNat != p.rxLseq then s.setPort n { p with nak := true }
    else
      let rx := p.rxBytes + 256 * k.data.length
      let s := s.setPort n { p with rxLseq := (p.rxLseq + 1) % 4096, nak := false, rxBytes := rx % 2 ^ 20 }
      f (s.count (Reg.HGPn_PAYLOAD_RX_MIB n) (rx / 2 ^ 20))

/-- As `accept`, for a packet this device consumes: its buffer is free once its granules are in memory (R240, R330). -/
def State.consume (s : State) (n : Nat) (kind : PKind) (k : InPacket) (f : State → State) : State :=
  s.accept n kind k fun s =>
    if s.isLocalNode k.dst.toNat then
      let t := f s
      t.endWork (t.heldSince s.heldSeq) (.buffer n k.vl.val) (t.oweCredit n k.vl.val)
    else s.oweCredit n k.vl.val

/-! ## Ports going down and coming up (R324 to R326, R336) -/

/-- Two packets are of one source, destination and class. -/
def Packet.sameFlow (a b : Packet) : Bool := a.src == b.src && a.dst == b.dst && a.vl == b.vl

/-- A packet put before every waiting packet of its source, destination and class, or behind all where there is none (R336). -/
def putBefore (e : Packet × Option Nat) : List (Packet × Option Nat) → List (Packet × Option Nat)
  | [] => [e]
  | x :: xs => if x.1.sameFlow e.1 then e :: x :: xs else x :: putBefore e xs

/-- A packet of a port that is down is routed anew, ahead of every later one of its flow; the port does not start it yet (R336). -/
def State.placeAgain (s : State) (e : Packet × Option Nat) : State :=
  match s.pickPort e.1.kind e.1.vl (s.portsFor e.1) with
  | some n => s.setPort n { s.port n with waiting := putBefore e (s.port n).waiting }
  | none => s.loseVia e.1 e.2

/-- The packets of a port's ingress buffers that wait to be forwarded, on whichever port, are lost with it (R338). -/
def State.loseIngress (s : State) (n : Nat) : State :=
  (List.range 8).foldl (fun s m =>
    let q := s.port m
    let gone := q.waiting.filter fun e => e.2 == some n
    let s := s.setPort m { q with waiting := q.waiting.filter fun e => e.2 != some n }
    gone.foldl (fun s e => s.losePacket n false e.1) s) s

/-- A port's traffic is rerouted: the unacknowledged packets, then those that wait, keep their order and leave before later ones of their
flows; the packets in this port's ingress are lost (R336, R338). -/
def State.reroute (s : State) (n : Nat) : State :=
  let s := s.loseIngress n
  let p := s.port n
  let pkts := p.replay.map (fun e => (e.pkt, none)) ++ p.waiting
  let s := s.setPort n { Port.reset with fails := p.fails, txBytes := p.txBytes, rxBytes := p.rxBytes, ctl := p.ctl, errs := p.errs }
  (List.range 8).foldl State.pump (pkts.reverse.foldl State.placeAgain s)

/-- A port leaves its up state for another one, its traffic rerouted (R336). -/
def State.portDown (s : State) (n st : Nat) : State := (s.put (Reg.HGPn_STATUS_STATE n) st).reroute n

/-- Reserved buffers of a peer's port by lane; on HGP7 of a twin all 64 belong to VL3 (R330, R351). -/
def State.peerBuffers (s : State) (n : Nat) (pr : Peer) (vl : Nat) : Nat :=
  if n = 7 ∧ s.flag Reg.GLB_ROLE_TWIN then (if vl = 3 then 64 else 0) else (pr.reserved.getD vl 0).val

/-- This device's own buffers of a port reserved to a lane: HGPn_CFG.RESk, or on HGP7 of a twin all 64 to VL3 (R330, R351). -/
def State.ownBuffers (s : State) (n vl : Nat) : Nat :=
  if n = 7 ∧ s.flag Reg.GLB_ROLE_TWIN then (if vl = 3 then 64 else 0)
  else s.get ([Reg.HGPn_CFG_RES0 n, Reg.HGPn_CFG_RES1 n, Reg.HGPn_CFG_RES2 n, Reg.HGPn_CFG_RES3 n].getD vl (Reg.HGPn_CFG_RES0 n))

/-- Four lanes' numbers as a vector. -/
def lanes4 (f : Nat → Nat) : Vector Nat 4 := ⟨⟨[f 0, f 1, f 2, f 3]⟩, rfl⟩

/-- Buffers of 64 that no lane has to itself (R330). -/
def sharedOf (v : Vector Nat 4) : Nat := 64 - v.toList.sum

/-- A port comes up after training (R324, R330): its first control flit tells the peer who it is and which buffers it has, the peer is
recorded, and credits are initialised from the peer's buffers. -/
def State.portComesUp (s : State) (n st : Nat) (high : Bool) (pr : Peer) : State :=
  let v := lanes4 (s.peerBuffers n pr)
  let own := lanes4 (s.ownBuffers n)
  let p := s.port n
  let s := s.setPort n { p with reserved := v, limit := v, shared := sharedOf v, fails := 0, nextLseq := 0, rxLseq := 0, nak := false
                                repeats := 0, replayAt := [], errs := false
                                ctl := p.ctl ++ [⟨own, sharedOf own, 4095, false, some (s.get Reg.HGP0_NODE_NODE, n)⟩] }
  let s := s.puts [(Reg.HGPn_STATUS_STATE n, st), (Reg.HGPn_STATUS_HIGH_LANES n, b2n high), (Reg.HGPn_STATUS_CAUSE n, 0),
    (Reg.HGPn_STATUS_PEER_NODE n, pr.node.toNat), (Reg.HGPn_STATUS_PEER_PORT n, pr.port.toNat)]
  s.pump n

/-- A port stays off: in cold reset and recovery, in Keep, and on a side that is HANDED, or FENCED but for HGP7 (R430, R455, R481, R482). -/
def State.portOff (s : State) (n : Nat) : Bool :=
  let tw := s.get Reg.TWN_STATE_STATE
  s.inReset || s.flag Reg.SEC_BOOT_RECOVERY || s.get Reg.PCR_PSTATE_STATE == 2 || tw == 6 || (tw == 7 && n != 7)

/-- The CAUSE of a training attempt that fails, or the state and lane group that the port comes up with (R323, R324): a long-reach port needs
a module of power class 5 at most; all 8 lanes in both directions, else lanes 0 to 3, else lanes 4 to 7; FEC lock. -/
def trainOutcome (e : TrainEnd) (reach : Nat) : Except Nat (Nat × Bool) :=
  let ok := (e.here &&& e.there).toNat
  if reach = 2 && (match e.modClass with
    | some c => decide (5 < c.toNat)
    | none => true) then .error 4
  else if e.here = 0 then .error 1
  else if !e.locked then .error 2
  else if ok = 0xFF then .ok (2, false)
  else if ok % 16 = 0xF then .ok (3, false)
  else if ok / 16 = 0xF then .ok (3, true)
  else .error 3

/-- A training attempt has failed (R323, R326): CAUSE 4, or a third failure in a row, leaves the port FAILED; CAUSE is 5 where errors had
made it retrain (R325). -/
def State.trainFails (s : State) (n c : Nat) : State :=
  let p := s.port n
  let s := s.setPort n { p with fails := p.fails + 1 }
  if c = 4 ∨ 3 ≤ p.fails + 1 then
    s.puts [(Reg.HGPn_STATUS_STATE n, 4), (Reg.HGPn_STATUS_CAUSE n, if p.errs && c != 4 then 5 else c)]
  else s.put (Reg.HGPn_STATUS_STATE n) 1

/-- One training attempt of a port ends (R323, R324, R326). -/
def State.trainPort (s : State) (n : Nat) (e : TrainEnd) (pr : Peer) : State :=
  if s.portOff n then s
  else if !s.flag (Reg.HGPn_CFG_ENABLE n) || s.get (Reg.HGPn_CFG_REACH n) == 3 then s.put (Reg.HGPn_STATUS_STATE n) 0
  else if s.portUp n || s.get (Reg.HGPn_STATUS_STATE n) == 4 then s
  else
    let s := s.countSat (Reg.HGPn_STATUS_TRAINS n) 1
    match trainOutcome e (s.get (Reg.HGPn_CFG_REACH n)) with
    | .ok (st, high) => s.portComesUp n st high pr
    | .error c => s.trainFails n c

/-- A port reset (R326, R340, R446): the port drops, its STATUS fields return to reset, and it trains at once. -/
def State.resetPort (s : State) (n : Nat) : State :=
  let s := s.put (Reg.HGPn_STATUS_STATE n) 0
  let s := s.reroute n
  let s := s.puts [(Reg.HGPn_STATUS_PEER_NODE n, 0), (Reg.HGPn_STATUS_PEER_PORT n, 0), (Reg.HGPn_STATUS_CAUSE n, 0),
    (Reg.HGPn_STATUS_HIGH_LANES n, 0)]
  let s := s.setPort n { s.port n with fails := 0, errs := false }
  if s.flag (Reg.HGPn_CFG_ENABLE n) && s.get (Reg.HGPn_CFG_REACH n) != 3 && !s.portOff n then s.put (Reg.HGPn_STATUS_STATE n) 1 else s

/-! ## Control flits (R328, R330, R332) -/

/-- One returned credit of a lane: its reserved buffers first, the rest to the shared pool. -/
def Port.takeCredit (p : Port) (vl : Nat) : Port :=
  if p.reserved.toList.getD vl 0 < p.limit.toList.getD vl 0 then { p with reserved := mod4 p.reserved vl (· + 1) }
  else { p with shared := p.shared + 1 }

/-- `n` returned credits of a lane. -/
def Port.takeCredits (p : Port) (vl : Nat) : Nat → Port
  | 0 => p
  | n + 1 => (p.takeCredit vl).takeCredits vl n

/-- The replay buffer after every packet up to an acknowledged LSEQ has left it (R332). -/
def ackReplay (l : List SentPacket) (ack : Nat) : List SentPacket :=
  if l.any (fun e => e.lseq == ack) then (l.dropWhile fun e => e.lseq != ack).drop 1 else l

/-- ACLK cycles of a millisecond (R5). -/
def cyclesPerMs : Nat := 1700000

/-- Packets sent again from the replay buffer (R332): their flits follow, and the replays of the last millisecond and those of the first
packet in a row are counted (R325); `same` where that packet was also the first of the last replay. -/
def Port.resend (p : Port) (held same : Bool) (now : Nat) (l : List SentPacket) : Port :=
  let p := l.foldl (fun p e => p.countFlits held e.pkt) p
  { p with replay := l, repeats := if same then p.repeats + 1 else 1
           replayAt := (List.replicate l.length now ++ p.replayAt).filter fun c => decide (now - c < cyclesPerMs) }

/-- Errors make a port retrain: more than 64 replays within a millisecond, or one packet replayed 8 times in a row (R325). -/
def Port.mustRetrain (p : Port) : Bool := decide (64 < p.replayAt.length) || decide (8 ≤ p.repeats)

/-- A control flit arrives: credits, acknowledgement, and a replay from the first unacknowledged packet on NAK (R328, R332). -/
def State.controlIn (s : State) (n : Nat) (credits : List Nat) (ack : Nat) (nak : Bool) : State :=
  let p := s.port n
  let p := (List.range 4).foldl (fun p vl => p.takeCredits vl (credits.getD vl 0)) p
  let rest := ackReplay p.replay ack
  let again := nak && !rest.isEmpty
  let same := decide (rest.length = p.replay.length)
  if again then
    let q := p.resend s.held (same && p.repeats != 0) s.cycle rest
    let s := (s.setPort n q).count (Reg.HGPn_ERR_REPLAY n) rest.length
    if q.mustRetrain then (s.setPort n { q with errs := true }).portDown n 1 else s.pump n
  else (s.setPort n { p with replay := rest, repeats := if same then p.repeats else 0 }).pump n

/-! ## The commands -/

/-- A WRITE packet of a ring reduce-scatter, which goes into the unit (R345). -/
def isRingPacket (k : InPacket) : Bool := k.opid != 0

/-- LINK_READ_REQ (R337). -/
def execLinkReadReq (port : Fin 8) (k : InPacket) (s : State) : Host.Outcome State Fault Refusal :=
  .next (s.consume port.val .readReq k fun s => s.deliverReq (inPacket .readReq k))

/-- LINK_POST (R53). -/
def execLinkPost (port : Fin 8) (k : InPacket) (s : State) : Host.Outcome State Fault Refusal :=
  .next (s.consume port.val .post k fun s => s.deliverPost (inPacket .post k))

/-- PACKET_FORWARD (R331, R334, R338): stored whole, checked, HOPS decremented, and sent by its route. -/
def execPacketForward (port : Fin 8) (kind : LinkKind) (k : InPacket) (s : State) : Host.Outcome State Fault Refusal :=
  let pk := match kind with
    | .write => PKind.write
    | .readReq => .readReq
    | .readResp => .readResp
    | .post => .post
    | .done => .done
  .next (s.accept port.val pk k fun s =>
    if s.isLocalNode k.dst.toNat then s.oweCredit port.val k.vl.val
    else if k.hops.toNat ≤ 1 then (s.losePacket port.val true (inPacket pk k)).oweCredit port.val k.vl.val
    else s.sendVia { inPacket pk k with hops := k.hops.toNat - 1 } (some port.val))

/-- CONTROL_FLIT (R328, R330, R332). -/
def execControlFlit (port : Fin 8) (credits : List (BitVec 7)) (ack : BitVec 12) (nak : Bool) (s : State) : Host.Outcome State Fault Refusal :=
  .next (if s.portUp port.val then s.controlIn port.val (credits.map (·.toNat)) ack.toNat nak else s)

/-- CONTROL_FLIT_INSERT (R322, R328): the control flit that is due after 64 other flits, or an idle one, leaves with the credits owed and the
acknowledgement. A packet that starts first sends the one that is due itself (log entry 81). -/
def execControlFlitInsert (port : Fin 8) (s : State) : Host.Outcome State Fault Refusal :=
  let p := s.port port.val
  .next (if s.portUp port.val then
      s.setPort port.val (if 64 ≤ p.flits then p.insertDue s.held else p.sendCtl s.held)
    else s)

/-- PORT_TRAINING (R324). -/
def execPortTraining (port : Fin 8) (e : TrainEnd) (peer : Peer) (s : State) : Host.Outcome State Fault Refusal :=
  .next (s.trainPort port.val e peer)

/-- PORT_RETRAIN (R325, R336): a lane of an up port loses signal or lock. The retrain that replays cause begins with the control flit that
asks for the last of them. -/
def execPortRetrain (port : Fin 8) (s : State) : Host.Outcome State Fault Refusal :=
  .next (if s.portUp port.val then s.portDown port.val 1 else s)

/-- PORT_RETRY (R326). -/
def execPortRetry (port : Fin 8) (s : State) : Host.Outcome State Fault Refusal :=
  .next (if s.get (Reg.HGPn_STATUS_STATE port.val) = 4 then
      (s.setPort port.val { s.port port.val with fails := 0, errs := false }).put (Reg.HGPn_STATUS_STATE port.val) 1
    else s)

end Sys2Proof.Machine
end

