-- ==== Sys2Proof/Machine/FlowMap.lean ====
section
/-! DEFINITION. What some register fields and the panel's lights show, computed from the state (R240, R260, R263, R267, R298, R420, R468 to R470). -/

namespace Sys2Proof.Machine

open Sys2Proof

/-! ## Counts (R240, R260, R263) -/

/-- Pages that hold frames on the cartridge of a slot (BMCm_STATE.HELD). -/
def State.heldOn (s : State) (m : Nat) : Nat := (s.pages.filter fun e => e.2.onSlot m).length

/-- Populated pages outside every populated window: exiled pages (R237). -/
def State.exiledPages (s : State) : Nat :=
  ((s.pages.map (·.1)).filter fun p => !s.windowPopulated p).length +
  ((s.lostPages.map (·.1)).filter fun p => !s.windowPopulated p && (s.frameOf p).isNone).length

/-- Populated pages less frames, or 0 (FLS_FREE.OVERHANG): each populated window has as many pages as frames. -/
def State.overhang (s : State) : Nat := s.exiledPages

/-- The draining slot, if one is (FLS_DRAIN.ACTIVE). -/
def State.draining (s : State) : Option Nat := slotList.find? fun m => s.slotState m == 4

/-- Pages still holding frames on the draining cartridge (FLS_DRAIN.REMAIN). -/
def State.drainRemain (s : State) : Nat :=
  match s.draining with
  | some m => s.heldOn m
  | none => 0

/-- The drain waits for a free frame: a page of the cartridge has no destination and no frame is free (R263). -/
def State.drainStalled (s : State) : Bool :=
  match s.draining with
  | some m =>
    s.freeBonded + s.freeCarts == 0 &&
    s.pages.any fun e => e.2.onSlot m && !s.moves.any fun v => v.started && (mapFind v.dest e.1).isSome
  | none => false

/-! ## Lights (R468 to R470) -/

/-- The patterns an LED shows, coded as SVC_SLOTm and SVC_DEV read (R468, R484). -/
inductive Light where
  | off | on | slow | fast | code
  deriving DecidableEq, Repr

/-- A pattern's code in an LED field (R484). -/
def Light.value : Light → Nat
  | .off => 0
  | .on => 1
  | .slow => 2
  | .fast => 3
  | .code => 4

/-- Power, attention and fault LEDs of a slot (R469). -/
def State.slotLights (s : State) (m : Nat) : Light × Light × Light :=
  let st := s.slotState m
  let power := if st = 2 then .slow else if st = 3 ∨ st = 4 then .on else .off
  let attn := if mapGet 0 s.slotCode m ≠ 0 then .code else if st = 4 then (if s.drainStalled then .fast else .slow) else .off
  let fault := if st = 6 ∨ (st = 1 ∧ s.get (Reg.SVC_SLOTm_ADD_FAIL m) ≠ 0) then .on else .off
  (power, attn, fault)

/-- The device LEDs where no CODE is shown: the first row of R470 that applies, but for the CODE row. -/
def State.devBase (s : State) : Light × Light × Light :=
  let tw := s.get Reg.TWN_STATE_STATE
  if s.flag Reg.SEC_BOOT_RECOVERY || s.flag Reg.PCR_BROWN_COUNT_LATCHED || tw == 7 || s.devFailed then (.off, .off, .on)
  else if tw = 6 then (.off, .off, .off)
  else if s.flag Reg.TWN_STATE_MISMATCH then (.on, .off, .on)
  else if s.get Reg.MBX_CTL_STATE = 0 then (.slow, .off, .off)
  else if tw = 5 then (.on, .slow, .off)
  else if tw = 4 then (.on, .fast, .off)
  else if tw = 3 then (.on, .on, .off)
  else if s.keptNoSpare then (.on, .off, .slow)
  else (.on, .off, .off)

/-- Power, attention and fault LEDs of the device (R470): a CODE changes the attention LED alone, below the first two rows. -/
def State.devLights (s : State) : Light × Light × Light :=
  let b := s.devBase
  if s.devCode ≠ 0 ∧ b ≠ (.off, .off, .on) ∧ b ≠ (.off, .off, .off) then (b.1, .code, b.2.2) else b

/-! ## Fields whose value is the device's state itself -/

/-- Fields of Flowstone's registers that the state gives (R260, R267). -/
def State.flowField (s : State) (k : Nat) : Option Nat :=
  if k = Reg.FLS_NOW_US.key then some s.nowUs
  else if k = Reg.FLS_FREE_BONDED.key then some s.freeBonded
  else if k = Reg.FLS_FREE_CART.key then some s.freeCarts
  else if k = Reg.FLS_FREE_OVERHANG.key then some s.overhang
  else if k = Reg.FLS_STATUS_OBJECTS.key then some s.objects.length
  else if k = Reg.FLS_STATUS_MOVES.key then some (s.moves.filter (·.started)).length
  else if k = Reg.FLS_DRAIN_REMAIN.key then some s.drainRemain
  else if k = Reg.FLS_DRAIN_STALLED.key then some (b2n s.drainStalled)
  else if k = Reg.FLS_DRAIN_ACTIVE.key then some (b2n s.draining.isSome)
  else (slotList.find? fun m => k == (Reg.BMCm_STATE_HELD m).key).map s.heldOn

/-- Fields of the host's and Traverse's registers that the state gives: completions held, lines in the snoop filter, and whether Traverse
is paused or waits for the host link (R298, R420). -/
def State.hostField (s : State) (k : Nat) : Option Nat :=
  if k = Reg.HST_LEDGER_POS_HELD.key then some (min 255 s.heldCmpl.length)
  else if k = Reg.HST_SF_LINES.key then some s.snoop.length
  else if k = Reg.TRV_STATE_HELD.key then
    some (b2n (s.held || (s.get Reg.TRV_STATE_STATE == 0 && s.stepQueue.isEmpty && s.get Reg.MBX_CTL_STATE == 4)))
  else none

/-- The light fields of SVC_SLOTm and SVC_DEV (R484). -/
def State.lightField (s : State) (k : Nat) : Option Nat :=
  if k = Reg.SVC_DEV_PWR_LED.key then some s.devLights.1.value
  else if k = Reg.SVC_DEV_ATTN_LED.key then some s.devLights.2.1.value
  else if k = Reg.SVC_DEV_FAULT_LED.key then some s.devLights.2.2.value
  else firstSome (slotList.map fun m =>
    if k = (Reg.SVC_SLOTm_PWR_LED m).key then some (s.slotLights m).1.value
    else if k = (Reg.SVC_SLOTm_ATTN_LED m).key then some (s.slotLights m).2.1.value
    else if k = (Reg.SVC_SLOTm_FAULT_LED m).key then some (s.slotLights m).2.2.value
    else none)

end Sys2Proof.Machine
end

