-- ==== Sys2Proof/Machine/RegAccess.lean ====
section
/-! DEFINITION. Writes to registers by their access codes, violations of a register write, and the resets of register fields (R6 to R10, R389, R447). -/

namespace Sys2Proof.Machine

open Sys2Proof

/-! ## The layout (R18) -/

/-- An offset past a register's base is one of the array's elements. -/
def dimsMatch : List (Nat × Nat) → Nat → Bool
  | [], r => r == 0
  | (stride, count) :: ds, r => decide (r / stride < count) && dimsMatch ds (r % stride)

/-- The register at an offset of register space, if there is one. -/
def regAt (off : Nat) : Option RegDesc := regLayout.find? fun d => decide (d.base ≤ off) && dimsMatch d.dims (off - d.base)

/-- The key of a field of the register at an offset. -/
def fieldKey (off : Nat) (d : FieldDesc) : Nat := off * 64 + d.lo

/-- Fields whose value is the device's state itself: what a read returns (R260, R267, R298, R420, R484). -/
def State.derived (s : State) (off lo : Nat) : Option Nat :=
  firstSome [s.flowField (off * 64 + lo), s.hostField (off * 64 + lo), s.lightField (off * 64 + lo)]

/-- A register that reads as zero: in the block of a chamber that is OFF, all but CHn_STATUS and CHn_CAP (R66); the debug window once
debug is closed (R440); the keeper-service registers on a worker (R320). -/
def State.readsZero (s : State) (off : Nat) : Bool :=
  if 0x1000000 ≤ off ∧ off < 0x2C00000 then
    s.get (Reg.CHn_STATUS_STATE ((off - 0x1000000) / 0x100000)) == 0 && off % 0x100000 != 8 && off % 0x100000 != 0x10
  else if 0x400 ≤ off ∧ off ≤ 0x410 then !s.flag Reg.GLB_ROLE_KEEPER
  else s.flag Reg.SEC_DBG_CLOSED && (off == 0x6C00048 || off == 0x6C00050)

/-- The chamber and byte of bundle memory that an offset of register space names, if it lies in a bundle memory window (R64, R65). -/
def bundleWindow (off : Nat) : Option (Nat × Nat) :=
  let r := off % 0x100000
  if 0x1000000 ≤ off ∧ off < 0x2C00000 ∧ 0x80000 ≤ r ∧ r < 0xC0000 then some ((off - 0x1000000) / 0x100000, r - 0x80000) else none

/-- What a read returns for a field. -/
def State.fieldNow (s : State) (off : Nat) (d : FieldDesc) : Nat :=
  match d.acc with
  | .wo => 0
  | _ => if s.readsZero off then 0 else (s.derived off d.lo).getD ((mapFind s.fields (fieldKey off d)).getD (s.resetOf (fieldKey off d)))

/-- What a read of a register returns: its fields in place, reserved bits zero (R7, R8); a word of bundle memory in a chamber's window,
whatever the chamber's state, but for OFF (R65, R66). -/
def State.readReg (s : State) (off : Nat) : Nat :=
  match bundleWindow off with
  | some (n, a) => if s.readsZero off then 0 else memNat (s.ch n).bmem a 8
  | none =>
    match regAt off with
    | none => 0
    | some r => r.fields.foldl (fun x d => x + s.fieldNow off d * 2 ^ d.lo) 0

/-- An offset of register space at which nothing lies (R18). -/
def reservedOff (off : Nat) : Bool := (bundleWindow off).isNone && (regAt off).isNone

/-- An access that breaks R6 or meets nothing is an access to a reserved address (R6, R18). -/
def reservedAccess (off size : Nat) : Bool := size != 8 || off % 8 != 0 || reservedOff off

/-! ## Writes (R7, R8, R389) -/

/-- The part of a written word that a field takes. -/
def FieldDesc.part (d : FieldDesc) (w : Nat) : Nat := w / 2 ^ d.lo % 2 ^ d.w

/-- A field given a value. -/
def State.putField (s : State) (off : Nat) (d : FieldDesc) (v : Nat) : State := s.put ⟨off, d.lo, d.w⟩ v

/-- A field after a write of its register, by its access code (R7); what a WO field triggers is its register's own. -/
def State.writeField (s : State) (off w : Nat) (d : FieldDesc) : State :=
  let old := s.fieldNow off d
  let v := d.part w
  match d.acc with
  | .rw => s.putField off d v
  | .w1c => s.putField off d (old - (old &&& v))
  | .w1s => s.putField off d (old ||| v)
  | .rwo => s
  | .ro => s
  | .wo => s

/-- A write would change an RO field, or sets a reserved bit (R8). -/
def State.badWrite (s : State) (off w : Nat) (r : RegDesc) : Bool :=
  (r.fields.any fun d => (d.acc == .ro || d.acc == .rwo) && d.part w != s.fieldNow off d) ||
  w - r.fields.foldl (fun x d => x + d.part w * 2 ^ d.lo) 0 != 0

/-- A register's fields written in turn. -/
def State.writeFields (s : State) (off w : Nat) : List FieldDesc → State
  | [] => s
  | d :: ds => (s.writeField off w d).writeFields off w ds

/-- What a write breaks of R8 is counted, once (R389). -/
def State.countBad (s : State) (agent off w : Nat) : State :=
  match regAt off with
  | none => s.violGlb agent 1 off
  | some r => if s.badWrite off w r then s.violGlb agent 2 off else s

/-- The fields of the register at an offset take a written word by their access codes. -/
def State.takeWord (s : State) (off w : Nat) : State :=
  match regAt off with
  | none => s
  | some r => s.writeFields off w r.fields

/-- A write to a register by its access codes; a violation of R8 is counted once (R389). -/
def State.plainWrite (s : State) (agent off w : Nat) : State := (s.countBad agent off w).takeWord off w

/-! ## Resets of fields (R10, R447) -/

/-- Whether a field is kept over a reset. -/
def FieldDesc.keeps (d : FieldDesc) (k : ResetKind) : Bool := d.kept.contains k

/-- The field that a key names. -/
def fieldOfKey (key : Nat) : Option FieldDesc :=
  (regAt (key / 64)).bind fun r => r.fields.find? fun d => d.lo == key % 64

/-- The fields in a range of offsets return to their reset values unless they are kept over the reset (R447). -/
def State.resetRange (s : State) (k : ResetKind) (lo hi : Nat) : State :=
  { s with fields := s.fields.filter fun e =>
      let off := e.1 / 64
      decide (off < lo) || decide (hi ≤ off) ||
      (match fieldOfKey e.1 with
        | some d => d.keeps k
        | none => true) }

end Sys2Proof.Machine
end

