-- ==== Sys2Proof/Machine/Arbiter.lean ====
section
/-! DEFINITION. The arbiters of shafts, egress ports and mover ports: slot credit, background ranking, locks, withdrawal, and their tables (R353 to R369). -/

namespace Sys2Proof.Machine

open Sys2Proof

/-! ## Arbiters, sets and tables (R353, R356, R365) -/

/-- An arbiter's state. -/
def State.arb (s : State) (a : Nat) : Arb := mapGet Arb.reset s.arbs a

/-- An arbiter replaced. -/
def State.setArb (s : State) (a : Nat) (x : Arb) : State := { s with arbs := mapSet Arb.reset s.arbs a x }

/-- The table set of an arbiter: 0 for the shafts, 1 to 8 for the egress ports, 9 for the mover ports (R365). -/
def arbSet (a : Nat) : Nat := if a < 96 then 0 else if a < 104 then a - 95 else 9

/-- The arbiters of a set. -/
def setArbs (k : Nat) : List Nat := (List.range 110).filter fun a => arbSet a == k

/-- L_max of an arbiter (R353). -/
def arbLmax (a : Nat) : Nat := if 96 ≤ a ∧ a < 104 then 16 else 32

/-- The longest transfer that is not a locked sequence (R353). -/
def arbPlain (a : Nat) : Nat := if 96 ≤ a ∧ a < 104 then 16 else 4

/-- An arbiter takes locked sequences: a shaft or mover port, for a packet is never split (R353, R361). -/
def arbLocks (a : Nat) : Bool := decide (a < 96) || decide (104 ≤ a)

/-- R, the requesters of an arbiter (R354). -/
def arbReqs (a : Nat) : Nat := if a < 104 then 8 else 3

/-- The table a set runs on. -/
def State.arbTable (s : State) (k : Nat) : Nat := mapGet 0 s.arbUse k

/-- The owner code of a slot of the table in use (R356). -/
def State.slotOwner (s : State) (k slot : Nat) : Nat :=
  s.get (Reg.ARB_Tk_t_SLOTSj_OWNER_i k (s.arbTable k) (slot / 16) (slot % 16))

/-- The BASE of a requester in the table in use (R356). -/
def State.arbBase (s : State) (k r : Nat) : Nat := s.get (Reg.ARB_Tk_t_BASE_BASE_r k (s.arbTable k) r)

/-- The credit of a requester. -/
def Arb.creditOf (x : Arb) (r : Nat) : Int := x.credit.toList.getD r 0

/-- The age of a requester. -/
def Arb.ageOf (x : Arb) (r : Nat) : Nat := x.age.toList.getD r 0

/-- A vector of eight built entry by entry. -/
def mkVec8 {α : Type} (f : Nat → α) : Vector α 8 := ⟨⟨(List.range 8).map f⟩, by simp⟩

/-- The largest credit an arbiter holds, (R + 2) × L_max (R359). -/
def creditMax (a : Nat) : Int := ((arbReqs a + 2) * arbLmax a : Nat)

/-! ## A beat (R353, R357) -/

/-- A requester has a transfer in progress. -/
def Arb.inProgress (x : Arb) (r : Nat) : Bool := (x.run.map fun g => g.req == r).getD false

/-- A bank is held by a helictite claim, and not for an access that a row boundary lets pass (R227, R229). -/
def Claim.holdsBank (c : Claim) (seg bank : Nat) : Bool :=
  c.effect && c.hel == seg && c.banks.contains bank && !(c.passing.any fun w => w.bank == bank)

/-- A request may take part (R355): at a shaft no claim holds its bank, at an egress port its sender holds a credit of its lane. A bank that
refreshes, or whose timing is not met, shows no request (log entry 84). -/
def State.eligible (s : State) (a : Nat) (q : ArbReq) : Bool :=
  if a < 96 then !(s.claims.any fun c => c.holdsBank (96 * q.layer.val + a) q.bank.toNat)
  else if a < 104 then decide (0 < (s.port (a - 96)).credits (q.id.toNat % 4))
  else true

/-- A requester waits with an eligible request. -/
def State.requesting (s : State) (a r : Nat) : Bool := (s.arb a).queue.any fun q => q.id.toNat == r && s.eligible a q

/-- The owner of the current slot gains 1 in credit if it is requesting or has a transfer in progress (R357). -/
def Arb.accrue (x : Arb) (a owner : Nat) (asks : Nat → Bool) : Arb :=
  { x with credit := mkVec8 fun r =>
      if r = owner ∧ (asks r || x.inProgress r) then min (x.creditOf r + 1) (creditMax a) else x.creditOf r }

/-- The running transfer carries a beat; the one granted begins once nothing runs (R360). -/
def Arb.carry (x : Arb) : Arb :=
  let run := match x.run with
    | some g => if g.left ≤ 1 then none else some { g with left := g.left - 1 }
    | none => none
  match run with
  | some g => { x with run := some g }
  | none => { x with run := x.next, next := none }

/-- The beat that the running transfer carries is counted (R369). -/
def State.countBeat (s : State) (k : Nat) (x : Arb) : State :=
  match x.run with
  | some g => if g.slot then s.count (Reg.ARB_CNTk_SLOT_COUNT k) 1 else s.count (Reg.ARB_CNTk_BG_COUNT k) 1
  | none => s

/-- ARBITER_BEAT (R353, R357): `req` says which requesters come with a request, beside those that wait with one. -/
def execArbiterBeat (arb : Fin 110) (req : BitVec 8) (s : State) : Host.Outcome State Fault Refusal :=
  .next (
    if s.held then s
    else
      let a := arb.val
      let x := s.arb a
      let x' := (x.accrue a (s.slotOwner (arbSet a) x.ptr) fun r => bit req.toNat r || s.requesting a r).carry
      (s.setArb a { x' with ptr := (x.ptr + 1) % 64 }).countBeat (arbSet a) x)

/-! ## A decision (R357 to R361) -/

/-- The requester of a list with the greatest key, the lower ID on ties. -/
def pickMax (key : Nat → Int) (rs : List Nat) : Option Nat :=
  rs.foldl (fun b r => match b with
    | none => some r
    | some c => if key c < key r ∨ (key c = key r ∧ r < c) then some r else some c) none

/-- The oldest request of a requester in a list (R354). -/
def requestOf (rs : List ArbReq) (r : Nat) : Option ArbReq := rs.find? fun q => q.id.toNat == r

/-- The requesters that a decision considers. -/
def requesters (a : Nat) (rs : List ArbReq) : List Nat := (List.range (arbReqs a)).filter fun r => (requestOf rs r).isSome

/-- A request is a locked sequence. -/
def lockedAt (a : Nat) (q : ArbReq) : Bool := q.locked && arbLocks a

/-- The beats a request is granted: a locked one is cut after its 32nd (R361). -/
def grantBeats (a : Nat) (q : ArbReq) : Nat := max 1 (min q.beats.toNat (if lockedAt a q then 32 else arbPlain a))

/-- The requests that remain after one is granted: what a cut leaves of it keeps its place (R361). -/
def takeRequest (a : Nat) (q : ArbReq) : List ArbReq → List ArbReq
  | [] => []
  | x :: xs =>
    if x = q then (if lockedAt a q && decide (32 < q.beats.toNat) then { q with beats := q.beats - 32 } :: xs else xs)
    else x :: takeRequest a q xs

/-- The winner of a decision, and whether by slot credit (R358). -/
def State.arbWinner (s : State) (a : Nat) (x : Arb) (rs : List Nat) : Option (Nat × Bool) :=
  match pickMax x.creditOf (rs.filter fun r => decide (1 ≤ x.creditOf r)) with
  | some r => some (r, true)
  | none => (pickMax (fun r => ((s.arbBase (arbSet a) r + x.ageOf r : Nat) : Int)) rs).map fun r => (r, false)

/-- The credits and ages after a decision that `w` wins with `l` beats; a slot grant is charged at once (R357, R358). -/
def Arb.settle (x : Arb) (rs : List Nat) (w l : Nat) (slot : Bool) : Arb :=
  { x with
    credit := mkVec8 fun r =>
      if !rs.contains r then min (x.creditOf r) 0 else if r = w ∧ slot then x.creditOf r - l else x.creditOf r
    age := mkVec8 fun r => if !rs.contains r then x.ageOf r else if r = w then 0 else min 15 (x.ageOf r + 1) }

/-- An arbiter may decide: nothing granted waits, and it is idle or in its last beat (R360). -/
def Arb.mayDecide (x : Arb) : Bool :=
  x.next.isNone && (match x.run with
    | some g => decide (g.left ≤ 1)
    | none => true)

/-- ARBITER_DECISION (R354, R355, R358): `rs` lists the requests that have come since the last decision, oldest first; they join those that
wait, and each requester's oldest eligible one takes part. -/
def execArbiterDecision (arb : Fin 110) (rs : List ArbReq) (s : State) : Host.Outcome State Fault Refusal :=
  .next (
    let a := arb.val
    let x := s.arb a
    if s.held || !x.mayDecide then s
    else
      let all := x.queue ++ rs
      let can := all.filter (s.eligible a)
      let ids := requesters a can
      match s.arbWinner a x ids with
      | none => s.setArb a { x with credit := mkVec8 fun r => min (x.creditOf r) 0, queue := all }
      | some (w, slot) =>
        match requestOf can w with
        | none => s
        | some q =>
          let l := grantBeats a q
          let g : Grant := ⟨w, l, l, lockedAt a q, slot, x.ageOf w⟩
          let s := s.setArb a { x.settle ids w l slot with next := some g, queue := takeRequest a q all }
          if lockedAt a q && decide (32 < q.beats.toNat) then s.count (Reg.ARB_CNTk_DEAD_CUT (arbSet a)) 1 else s)

/-! ## Withdrawal (R362) -/

/-- A grant that has carried nothing is undone: neither charged, within the bound of R359, nor its age reset. -/
def Arb.undo (x : Arb) (a : Nat) (g : Grant) : Arb :=
  { x with
    credit := mkVec8 fun r => if r = g.req ∧ g.slot then min (x.creditOf r + g.total) (creditMax a) else x.creditOf r
    age := mkVec8 fun r => if r = g.req then g.age else x.ageOf r }

/-- GRANT_WITHDRAW (R362): a transfer granted and not begun is undone; a locked sequence that has begun gives up its remaining beats. -/
def execGrantWithdraw (arb : Fin 110) (s : State) : Host.Outcome State Fault Refusal :=
  .next (
    let a := arb.val
    let x := s.arb a
    let dead := fun (s : State) => s.count (Reg.ARB_CNTk_DEAD_DEAD (arbSet a)) 1
    if s.held then s
    else match x.next, x.run with
      | some g, _ => dead (s.setArb a { x.undo a g with next := none })
      | none, some g =>
        if g.left = g.total then dead (s.setArb a { x.undo a g with run := none })
        else if g.locked then dead (s.setArb a { x with run := none }) else s
      | none, none => s)

/-- An arbiter's credits and ages are cleared, by a port reset or a cartridge reset (R368). -/
def State.clearArb (s : State) (a : Nat) : State :=
  s.setArb a { s.arb a with credit := Vector.replicate 8 0, age := Vector.replicate 8 0 }

/-! ## Tables at run time (R366, R367) -/

/-- ARB_NEXT is copied into ARB_ACTIVE (R366). -/
def State.copyArb (s : State) : State :=
  (List.range 10).foldl (fun s k => s.put (Reg.ARB_ACTIVE_SET_k k) (s.get (Reg.ARB_NEXT_SET_k k))) s

/-- Offset of ARB_NEXT (R369). -/
def arbNextOff : Nat := 0x4800008

/-- A write of ARB_NEXT (R366): at once in force where Traverse is IDLE. -/
def State.writeArbNext (s : State) (agent w : Nat) : State :=
  let s := s.plainWrite agent arbNextOff w
  if s.get Reg.TRV_STATE_STATE = 0 then s.copyArb else s

/-- ARB_NEXT_WRITE (R366). -/
def execArbNextWrite (v : Word) (s : State) : Host.Outcome State Fault Refusal := .next (s.writeArbNext 0 v.toNat)

/-- ARB_TABLE_ACTIVATE (R366): a set whose table changes begins the new one as its pointer wraps, its credits zero and its ages kept. -/
def execArbTableActivate (set : Fin 10) (s : State) : Host.Outcome State Fault Refusal :=
  .next (
    let k := set.val
    let t := s.get (Reg.ARB_ACTIVE_SET_k k)
    if s.held || s.arbTable k == t || (s.arb ((setArbs k).headD 0)).ptr != 0 then s
    else
      (setArbs k).foldl (fun s a => s.setArb a { s.arb a with credit := Vector.replicate 8 0 }) { s with arbUse := mapSet 0 s.arbUse k t })

/-- Offset of word `j` of table `t` of set `k`: SLOTS0 to SLOTS3, then BASE (R369). -/
def arbTableOff (k t j : Nat) : Nat := 0x4800000 + 0x10000 + 0x100 * k + 0x40 * t + 8 * j

/-- A write of a slot-table register (R367): ignored and counted for the table that the set is using. -/
def State.writeArbTable (s : State) (agent k t j w : Nat) : State :=
  if t = s.arbTable k ∨ t = s.get (Reg.ARB_ACTIVE_SET_k k) then s.violGlb agent 3 (arbTableOff k t j)
  else s.plainWrite agent (arbTableOff k t j) w

/-- ARB_TABLE_WRITE (R367). -/
def execArbTableWrite (set : Fin 10) (t : Fin 4) (j : Fin 5) (v : Word) (s : State) : Host.Outcome State Fault Refusal :=
  .next (s.writeArbTable 0 set.val t.val j.val v.toNat)

end Sys2Proof.Machine
end

