-- ==== Sys2Proof/Machine/Bonded.lean ====
section
/-! DEFINITION. The bonded tier's controllers: reads with their correction and poison, whole and merged writes, refresh, temperature, scrub and row moves (R205 to R214). -/

namespace Sys2Proof.Machine

open Sys2Proof

/-! ## Places (R201 to R203) -/

/-- The key of a row of a bank. -/
def rowKey (bank row : Nat) : Nat := bank * 2048 + row

/-! ## Reads (R210, R375, R386) -/

/-- Free bytes of a granule whose every word has been overwritten with the poison code. -/
def freeGranule (n : Nat) : List Byte := (List.range 32).flatMap fun i => leBytes 8 (Config.freeWord (n + i)).toNat

/-- A granule becomes poisoned at a read: the poison code replaces its content, which the model leaves free (R210). -/
def State.poisonAt (s : State) (g : Nat) : State :=
  let bs := freeGranule s.freeCount
  { s with freeCount := s.freeCount + 32, mem := memWrite s.mem (256 * g) bs, nonzero := mapSet false s.nonzero g true
           poison := mapSet false s.poison g true }

/-- The check that the sidecar holds of a granule (R205): every write of a granule writes its data and its check together. -/
def State.checkOf (s : State) (g : Nat) : BitVec 32 := crc32c (memRead s.mem (256 * g) 256)

/-- Corrected words of a row of a bank are counted, for the device and for the row (R210, R213). -/
def State.correctedIn (s : State) (bank row corrected : Nat) : State :=
  let k := rowKey bank row
  { s.countSat Reg.HLC_ECC_CORRECTED corrected with rowErr := mapSet 0 s.rowErr k (mapGet 0 s.rowErr k + corrected) }

/-- A read finds a granule bad: it is poisoned, counted in a counter and logged by its controller (R210, R386); one poisoned already is
left as it is. -/
def State.granuleBad (s : State) (g source unit : Nat) (counter : FieldRef) (bad : ReadBad) : State :=
  let log := fun (s : State) (kind found expected : Nat) => s.logErr
    { sev := 1, kind := kind, source := source, addr := 256 * g, obj := s.objId (256 * g), unit := unit, found := found, expected := expected }
  if s.poisoned g then s
  else match bad with
    | .none => s
    | .double => log ((s.poisonAt g).countSat counter 1) 2 0 0
    | .mismatch found => log ((s.poisonAt g).countSat counter 1) 1 found.toNat (s.checkOf g).toNat

/-- What a controller's read finds (R210): corrected words are counted, for the row too; a double-bit error or a mismatch poisons the
granule, is counted and logged. -/
def State.readFinds (s : State) (a f corrected : Nat) (bad : ReadBad) : State :=
  (s.correctedIn (s.bankKey f) (s.rowOf f) corrected).granuleBad (granuleOf a) 1 0 Reg.HLC_ECC_POISONED bad

/-- What a board-memory die's read of a cartridge's granule finds: the errors that inline ECC corrected, and a granule it could not correct
or whose check differs (BMCm_ERR, R375, R387). -/
def State.cartFinds (s : State) (a m corrected : Nat) (bad : ReadBad) : State :=
  (s.countSat (Reg.BMCm_ERR_CORRECTED m) corrected).granuleBad (granuleOf a) 2 m (Reg.BMCm_ERR_POISONED m) bad

/-- An access to a granule that holds a frame: it waits for a claim on its bank; on a cartridge it goes through the slot's board-memory die
(DESIGN CHOICE, log entry 79: the command brings what either controller finds). -/
def State.granuleRead (s : State) (a corrected : Nat) (bad : ReadBad) : State :=
  match s.frameOf (pageOf a) with
  | some (.cart m _) => s.cartFinds a m corrected bad
  | some (.bonded i) => s.readFinds a (i * pageBytes + a % pageBytes) corrected bad
  | none => s

/-- BONDED_READ (R210): the granule at an address is read, with what the controller finds. An access that a claim holds back waits. -/
def execBondedRead (g : BitVec 40) (corrected : BitVec 8) (bad : ReadBad) (s : State) : Host.Outcome State Fault Refusal :=
  let a := 256 * g.toNat
  .next (if s.claimed none a then s.noteWaiting none a
    else if (s.frameOf (pageOf a)).isSome then (s.warm a).granuleRead a corrected.toNat bad
    else s)

/-- A scrub of a free bonded frame's granule at a bonded frame address: no page reads it, so that a bad one is counted and logged and poisons
nothing (R212; log entry 79). -/
def State.scrubFree (s : State) (f corrected : Nat) (bad : ReadBad) : State :=
  let s := s.correctedIn (s.bankKey f) (s.rowOf f) corrected
  let log := fun (s : State) (kind found : Nat) => (s.countSat Reg.HLC_ECC_POISONED 1).logErr
    { sev := 1, kind := kind, source := 1, addr := f / 256 * 256, found := found }
  match bad with
  | .none => s
  | .double => log s 2 0
  | .mismatch found => log s 1 found.toNat

/-- A scrub of the sidecar word that holds the checks of two granules (R205, R212): its corrected errors count for the sidecar row, and a
double-bit error leaves both granules without a check, which poisons them (log entry 79). -/
def State.scrubSidecar (s : State) (f corrected : Nat) (bad : ReadBad) : State :=
  let s := s.correctedIn (s.bankKey f) (s.sidecarRow (s.rowOf f)) corrected
  let g := f / 512 * 2
  match bad with
  | .none => s
  | b => [g, g + 1].foldl (fun s g => if (s.bondedAddr (256 * g)).isSome then s.granuleBad g 1 0 Reg.HLC_ECC_POISONED b else s) s

/-- PATROL_SCRUB (R212): as a read, with no heat counted (R247). `g` names a granule that holds a bonded frame by its unified address, one of
a free bonded frame by that of its home page, and, with bit 39 set, the sidecar word of the granule that the other bits name. -/
def execPatrolScrub (g : BitVec 40) (corrected : BitVec 8) (bad : ReadBad) (s : State) : Host.Outcome State Fault Refusal :=
  let a := 256 * (g.toNat % 2 ^ 39)
  .next (if s.claimed none a then s.noteWaiting none a
    else if g.getLsbD 39 then
      (match s.bondedAddr a with
        | some f => (s.passed a).scrubSidecar f corrected.toNat bad
        | none => s)
    else match s.bondedAddr a with
      | some f => (s.passed a).readFinds a f corrected.toNat bad
      | none => if s.frameFree (.bonded (pageOf a)) then s.scrubFree a corrected.toNat bad else s)

/-! ## Writes (R207, R211) -/

/-- A byte list of exactly `n` bytes, cut or filled with zeros. -/
def fitBytes (n : Nat) (bs : List Byte) : List Byte := (bs ++ zeroBytes n).take n

/-- A write that a claim holds back waits; any other goes on, if its page holds no cartridge frame. -/
def State.bondedWrite (s : State) (a : Nat) (bs : List Byte) : State :=
  if s.onCart a then s
  else if s.claimed none a then s.noteWaiting none a
  else s.writeLogged 1 a bs

/-- BONDED_WRITE (R211): a whole granule is written with a fresh check; its poison goes. -/
def execBondedWrite (g : BitVec 40) (data : List Byte) (s : State) : Host.Outcome State Fault Refusal :=
  .next (s.bondedWrite (256 * g.toNat) (fitBytes 256 data))

/-- PARTIAL_WRITE_MERGE (R207, R210, R211): the old granule is read and verified, with what the controller finds, and the bytes are merged
into it; onto a poisoned granule they are dropped. -/
def execPartialWriteMerge (g : BitVec 40) (m : MergeRead) (data : List Byte) (s : State) : Host.Outcome State Fault Refusal :=
  let a := 256 * g.toNat
  let s' := match s.bondedAddr a with
    | some f => if s.claimed none a then s else s.readFinds a f m.corrected.toNat m.bad
    | none => s
  .next (s'.bondedWrite (a + m.off.toNat) (data.take (256 - m.off.toNat)))

/-! ## Refresh and temperature (R208, R209) -/

/-- A claim in effect holds a row of a bank open. -/
def State.holdsRow (s : State) (seg bank : Nat) : Bool :=
  s.claims.any fun c => c.effect && c.hel == seg && (mapFind c.rows bank).isSome

/-- REFRESH (R208): a bank's refresh is done, or postponed while a claim holds its row open, four at most. -/
def execRefresh (seg : Fin 1152) (bank : Fin 16) (s : State) : Host.Outcome State Fault Refusal :=
  let k := seg.val * 16 + bank.val
  .next (if s.holdsRow seg.val bank.val then { s with refreshOwed := mapSet 0 s.refreshOwed k (min 4 (mapGet 0 s.refreshOwed k + 1)) } else s)

/-- The layer with the highest temperature of a stack of `n` layers, the lowest number on ties. -/
def hottest (n : Nat) (m : Map Nat) : Nat := (List.range n).foldl (fun b i => if mapGet 0 m b < mapGet 0 m i then i else b) 0

/-- REFRESH_RATE_CHANGE (R209): a layer's hottest sensor reads `deg` sixteenths of a degree; above 85 the layer refreshes at the doubled
rate, below 82 at the normal one. A part has no sensors in layers it lacks (R201). -/
def execRefreshRateChange (layer : Fin 12) (deg : BitVec 12) (s : State) : Host.Outcome State Fault Refusal :=
  let hot := s.get Reg.HLC_TEMP_HOT_LAYERS
  let l := layer.val
  let hot := if 85 * 16 < deg.toNat then setBits hot l l 1 else if deg.toNat < 82 * 16 then setBits hot l l 0 else hot
  let m := mapSet 0 s.layerTemp l deg.toNat
  let top := hottest (s.get Reg.GLB_ID_LAYERS) m
  .next (if s.get Reg.GLB_ID_LAYERS ≤ l then s
    else ({ s with layerTemp := m }).puts
      [(Reg.HLC_TEMP_HOT_LAYERS, hot), (Reg.HLC_TEMP_LAYER, top), (Reg.HLC_TEMP_DEG, mapGet 0 m top)])

/-! ## Row moves (R213) -/

/-- A bank has no free spare row left: EXHAUSTED is set, and an error-log entry written (R213). -/
def State.exhaust (s : State) (seg bank : Nat) : State :=
  (s.put Reg.HLC_REPAIR_EXHAUSTED 1).logErr { sev := 0, kind := 10, source := 1, unit := seg, detail := bank }

/-- ROW_MOVE (R213): a row with 16 corrected errors moves to the next spare row of its bank, at a row boundary; the move that takes the last
one exhausts the bank. A row of a bank without a free spare is not moved. Content does not change. -/
def execRowMove (seg : Fin 1152) (bank : Fin 16) (row : Fin 2048) (s : State) : Host.Outcome State Fault Refusal :=
  let b := seg.val * 16 + bank.val
  let k := rowKey b row.val
  let used := mapGet 0 s.rowMoved b
  .next (if mapGet 0 s.rowErr k < 16 || s.holdsRow seg.val bank.val then s
    else if used < s.spareRows then
      let s := { s with rowMoved := mapSet 0 s.rowMoved b (used + 1), rowErr := mapSet 0 s.rowErr k 0 }
      let s := (s.count Reg.HLC_REPAIR_MOVED 1).put Reg.HLC_REPAIR_MIN_FREE (min (s.get Reg.HLC_REPAIR_MIN_FREE) (s.spareRows - (used + 1)))
      if used + 1 = s.spareRows then s.exhaust seg.val bank.val else s
    else s)

end Sys2Proof.Machine
end

