-- ==== Sys2Proof/Machine/Collective.lean ====
section
/-! DEFINITION. The collective units: PUT, GET, GATHER, REDSCAT, DISPATCH, the ring reduce-scatter's packets, and the unit's enable (R341 to R349). -/

namespace Sys2Proof.Machine

open Sys2Proof

/-- Bits of a word of a job record. -/
def recBits (ws : List Nat) (w hi lo : Nat) : Nat := bits (ws.getD w 0) hi lo

/-- A job record as eight numbers, from the bytes of memory. -/
def recWords (bs : List Byte) (n : Nat) : List Nat := (List.range n).map (wordAt bs)

/-- The bytes of an element of a float type. -/
def floatBytes (t : Nat) : Nat := if t = 0 then 4 else 2

/-- The reserved bits of a collective job record are zero (R341). -/
def cuReservedOk (ws : List Nat) : Bool :=
  recBits ws 0 39 37 == 0 && recBits ws 0 55 45 == 0 && recBits ws 1 63 48 == 0 && recBits ws 2 63 48 == 0 &&
  recBits ws 3 63 48 == 0 && recBits ws 4 63 17 == 0 && recBits ws 5 63 48 == 0 && recBits ws 6 63 25 == 0 && ws.getD 7 0 == 0

/-- A collective job's record passes the checks of R344: no reserved bit, recipe or type, aligned sizes, G and MEMBER in range,
and what its OP allows. The chunks of a REDSCAT under recipe 1 or 2 hold whole rows, and its bands whole granules (DEDUCED, log entry 82). -/
def cuRecOk (ws : List Nat) : Bool :=
  let op := recBits ws 0 3 0
  let recipe := recBits ws 0 5 4
  let stype := recBits ws 0 11 8
  let dtype := recBits ws 0 15 12
  let g := recBits ws 0 36 32
  let bytes := recBits ws 3 47 0
  let rowlen := recBits ws 4 15 0 + 1
  let grouped := op == 3 || op == 4
  cuReservedOk ws && (1 ≤ op && op ≤ 4) && recipe != 3 && typeIsFloat stype && typeIsFloat dtype &&
  recBits ws 1 7 0 == 0 && recBits ws 2 7 0 == 0 && bytes % 256 == 0 &&
  (!grouped || (1 ≤ g && g ≤ 16 && recBits ws 0 44 40 < g && bytes % (256 * g) == 0)) &&
  (!(op == 2 || op == 3) || recipe == 0) &&
  (recipe == 0 || (rowlen % 128 == 0 && rowlen * floatBytes dtype % 256 == 0 && bytes % (rowlen * floatBytes stype) == 0 &&
    (op != 4 || bytes / g % (rowlen * floatBytes stype) == 0))) &&
  (!(op == 4 && recBits ws 4 16 16 == 1) ||
    ((bytes / g) % (8 * rowlen * floatBytes stype) == 0 && 8 * rowlen * floatBytes stype % 256 == 0 && 8 * rowlen * floatBytes dtype % 256 == 0))

/-- The job record a command serves: read from the ring, or from the head of the internal queue; with its ring address, token and poison. -/
def State.cuFetch (s : State) (unit : Nat) (src : JobSrc) : Option (List Nat × Option Nat × Nat × Bool × State) :=
  match src with
  | .queue =>
    match s.cuQueue with
    | [] => none
    | q :: qs => some (q.words, none, q.token, false, { s with cuQueue := qs })
  | .ring =>
    let u := cuIndex unit
    if s.flag (Reg.HGPn_CU_CTL_ENABLE u) && s.jobPosted (4 + u) (s.get (Reg.HGPn_CU_CTL_JOB_SIG u)) (s.ring (4 + u)).taken then
      let a := ringAddr (s.get (Reg.HGPn_CU_RING_BASE u)) (s.get (Reg.HGPn_CU_RING_ENTRIES_M1 u)) 64 (s.ring (4 + u)).taken
      let (bs, p, s) := s.read a 64
      some (recWords bs 8, some a, 0, p, s)
    else none

/-- A new transfer number (R327). -/
def State.newXfer (s : State) : Nat × State := (s.xferSeq % 2 ^ 24, { s with xferSeq := s.xferSeq + 1 })

/-- The unit may start one more transfer to a node: 32 to each, 256 in all (R343). -/
def State.mayTransfer (s : State) (node more : Nat) : Bool :=
  decide ((s.tx.filter fun t => t.node == node).length + more ≤ 32) && decide (s.tx.length + more ≤ 256)

/-- A list cut into pieces of 16. -/
def chunks16 {α : Type} : Nat → List α → List (List α)
  | 0, _ => []
  | n + 1, l => if l.isEmpty then [] else l.take 16 :: chunks16 n (l.drop 16)

/-- Poison bits of up to 16 granules. -/
def poisonBits : List (List Byte × Bool) → Nat
  | [] => 0
  | g :: gs => b2n g.2 + 2 * poisonBits gs

/-- Packets of a transfer made from its wire granules, each filled to 16 (R322); the address moves with the packets under
recipe 0 and names the first row otherwise. -/
def packetsOf (k : Packet) (gs : List (List Byte × Bool)) : List Packet :=
  let ps := chunks16 (gs.length + 1) gs
  ps.zipIdx.map fun (p, i) =>
    { k with pkt := i, npkt := ps.length, ngran := p.length, data := p.map (·.1), poison := poisonBits p
             addr := if k.recipe = 0 then k.addr + 4096 * i else k.addr }

/-- Source granules with their poison, read by a unit. -/
def State.readGrans (s : State) (a : Nat) : Nat → List (List Byte × Bool) × State
  | 0 => ([], s)
  | n + 1 =>
    let (b, p, s) := s.readIn a 256
    let (bs, s) := s.readGrans (a + 256) n
    ((b, p) :: bs, s)

/-- Whether any granule of a byte range is poisoned. -/
def anyBad (gs : List (List Byte × Bool)) (lo len : Nat) : Bool :=
  len != 0 && (((gs.drop (lo / 256)).take ((lo + len - 1) / 256 + 1 - lo / 256)).any (·.2))

/-- Rows of elements on the wire under a recipe: FP32 rows with their poison, sent as DTYPE elements (recipe 0) or narrowed rows
(recipes 1 and 2) (R339, R347, R349). -/
def wireOfRows (recipe dtype : Nat) (rows : List (List Lane × Bool)) : List (List Byte × Bool) :=
  if recipe = 0 then
    let bs := rows.flatMap fun r => packElems dtype (r.1.map fun x => (convert dtype false x).1)
    let w := (rows.headD ([], false)).1.length * floatBytes dtype
    (toGranules (bs.length / 256 + 1) bs).zipIdx.map fun (g, i) =>
      (g, w != 0 && rows.zipIdx.any fun (r, j) => r.2 && decide (j * w < 256 * (i + 1)) && decide (256 * i < (j + 1) * w))
  else
    let ns := rows.map fun r => let n := narrowRow recipe r.1; (n.1, n.2.1)
    let gs := wireRows (ns.length / 64 + 1) ns
    let len := (rows.headD ([], false)).1.length
    let per := 1 + 64 * len / 256
    gs.zipIdx.map fun (g, i) =>
      let grp := i / per
      let inRow := fun (j : Nat) =>
        if i % per = 0 then false
        else decide (j * len < 256 * (i % per)) && decide (256 * (i % per - 1) < (j + 1) * len)
      (g, ((rows.drop (64 * grp)).take 64).zipIdx.any fun (r, j) => r.2 && inRow j)

/-- Source rows read and widened: row `i` lies at `a + i * len * size`. -/
def State.readRows (s : State) (stype len : Nat) : List Nat → List (List Lane × Bool) × State
  | [] => ([], s)
  | a :: as =>
    let (b, p, s) := s.read a (len * floatBytes stype)
    let (rs, s) := s.readRows stype len as
    (((unpackElems stype b len).map fun x => (widen stype x).1, p) :: rs, s)


/-- READ_REQ packets for a range, 16 granules each. -/
def readPackets (k : Packet) (n : Nat) : List Packet :=
  (List.range (cdiv n 16)).map fun i =>
    { k with addr := k.addr + 4096 * i, pkt := i, npkt := cdiv n 16, ngran := min 16 (n - 16 * i) }

/-- A transfer is recorded and its packets or read requests sent. -/
def State.goTransfer (s : State) (t : TxWait) : State :=
  let (x, s) := s.newXfer
  let k := { t.pkt with xfer := x, src := s.get Reg.HGP0_NODE_NODE }
  match t.into with
  | none =>
    let s := { s with tx := s.tx ++ [(⟨x, t.job, k.dst, false, 0, k.addr, 0, 0, []⟩ : TxXfer)] }
    s.sendAll t.unit (packetsOf k t.grans)
  | some (dst, n) =>
    let s := { s with tx := s.tx ++ [(⟨x, t.job, k.dst, true, k.addr, dst, cdiv n 16, 0, []⟩ : TxXfer)] }
    s.sendAll t.unit (readPackets k n)

/-- A transfer starts, or waits behind those that the limits hold back (R343). -/
def State.startTransfer (s : State) (t : TxWait) : State :=
  if s.mayTransfer t.pkt.dst 1 && !s.txWait.any (fun x => x.pkt.dst == t.pkt.dst) then s.goTransfer t
  else { s with txWait := s.txWait ++ [t] }

/-- The transfers that wait start, oldest first, as far as the limits let them, and outside Hold (R343, R461). -/
def State.startTransfers (s : State) : State := if s.held then s else s.txWait.foldl State.startTransfer { s with txWait := [] }

/-- A WRITE transfer of a job; there is none without granules. -/
def State.startWrite (s : State) (unit job : Nat) (k : Packet) (gs : List (List Byte × Bool)) : State :=
  if gs.isEmpty then s else s.startTransfer ⟨unit, job, k, gs, none⟩

/-- A read transfer of a job. -/
def State.startRead (s : State) (unit job node cls src dst n : Nat) : State :=
  if n = 0 then s else s.startTransfer ⟨unit, job, { Packet.blank .readReq with vl := cls, dst := node, addr := src }, [], some (dst, n)⟩

/-- A local copy of granules, poison carried (R342, R376); whether any was poisoned. -/
def State.copyGranules (s : State) (src dst : Nat) : Nat → Bool × State
  | 0 => (false, s)
  | n + 1 =>
    let (b, p, s) := s.readIn src 256
    let s := if p then s.storePoisoned 3 false (granuleOf dst) b else (s.write 3 dst b).2
    let (q, s) := s.copyGranules (src + 256) (dst + 256) n
    (p || q, s)

/-- A job's own writes that found no frame hold its end back (R240, R343); `lo` is how many writes had been held before. -/
def State.ownWrites (s : State) (job lo : Nat) : State := s.endWork (s.heldSince lo) (.job job) s

/-- A job begins: it enters the list of jobs in progress, and its ring position moves on. -/
def State.beginCuJob (s : State) (unit : Nat) (ring : Option Nat) (token : Nat) (ws : List Nat) : Nat × State :=
  let id := s.xferSeq
  let s := { s with xferSeq := s.xferSeq + 1 }
  let s := if ring.isSome then s.takeJob (4 + cuIndex unit) else s
  let job : CuJob := ⟨id, unit, ring, if ring.isSome then some (recBits ws 6 11 0) else none, token, false, false, true⟩
  (id, { s with cuJobs := s.cuJobs ++ [job] })

/-- A job marked as having carried poison. -/
def State.markPoison (s : State) (job : Nat) (b : Bool) : State :=
  if b then s.modCuJob job fun j => { j with poison := true } else s

/-- A job's transfers have been set up: it ends once they have (R343). -/
def State.cuStarted (s : State) (job : Nat) : State := (s.modCuJob job fun j => { j with starting := false }).checkCuJob job

/-- A job refused with BAD_JOB, or ended with POISON when its record is poisoned (R344). -/
def State.refuseCuJob (s : State) (job status : Nat) : State :=
  match s.cuJobs.find? (fun j => j.id == job) with
  | some j => s.endCuJob j status
  | none => s

/-- The node of member `i` of a group (R342): byte i of entry k of the group table. -/
def State.groupNode (s : State) (k i : Nat) : Nat × State :=
  let (b, _, s) := s.read (s.get Reg.HGP0_NODE_GRP_BASE / 256 * 256 + 16 * k + i) 1
  (leNat b, s)

/-- The node whose route a job takes (R341): PUT and GET the peer; GATHER the first other member, REDSCAT the next one round the ring. -/
def State.jobNode (s : State) (ws : List Nat) : Nat × State :=
  let m := recBits ws 0 44 40
  if recBits ws 0 3 0 = 3 then s.groupNode (recBits ws 0 31 24) (if m = 0 then 1 else 0)
  else if recBits ws 0 3 0 = 4 then s.groupNode (recBits ws 0 31 24) ((m + 1) % recBits ws 0 36 32)
  else (recBits ws 0 23 16, s)

/-- The unit on whose die the ports of a route lie: those the packets would leave on, else those of the masks; the given unit where the
route names none (R334, R341). -/
def State.unitOf (s : State) (unit node cls : Nat) : Nat :=
  match s.routePorts node cls with
  | n :: _ => n / 4
  | [] =>
    let m := s.useMask node (s.get (Reg.HGP0_RTk_PRI_c node cls))
    let a := s.useMask node (s.get (Reg.HGP0_RTk_ALT_c node cls))
    match (List.range 8).find? fun n => bit (if m = 0 then a else m) n with
    | some n => n / 4
    | none => unit

/-- The unit that serves a job, to which the other one passes it (R341). -/
def State.servingUnit (s : State) (unit : Nat) (ws : List Nat) : Nat × State :=
  let (nd, s) := s.jobNode ws
  (s.unitOf unit nd (recBits ws 0 7 6), s)

/-- A job that the checks let through runs `f` on the unit that serves it; otherwise it ends at once. Nothing happens unless a record of this
OP is posted. -/
def State.runCuJob (s : State) (unit op : Nat) (src : JobSrc) (room : State → List Nat → Bool)
    (f : State → Nat → Nat → List Nat → State) : State :=
  match s.cuFetch unit src with
  | none => s
  | some (ws, ring, token, bad, s') =>
    let mine := recBits ws 0 3 0 == op || (op == 1 && (recBits ws 0 3 0 == 0 || 5 < recBits ws 0 3 0))
    if !mine then s
    else if !bad && cuRecOk ws && !room s' ws then s
    else
      let (id, s) := s'.beginCuJob unit ring token ws
      if bad then s.refuseCuJob id 3
      else if !cuRecOk ws then s.refuseCuJob id 2
      else
        let (u, s) := s.servingUnit unit ws
        (f (s.modCuJob id fun j => { j with unit := u }) u id ws).cuStarted id

/-- Whether one more transfer to the record's NODE may start. -/
def State.roomForNode (s : State) (ws : List Nat) : Bool := s.mayTransfer (recBits ws 0 23 16) 1

/-- The wire granules of a PUT (R329, R342, R347): carried unchanged under recipe 0 without a type change, made anew otherwise. -/
def State.putGrans (s : State) (ws : List Nat) : List (List Byte × Bool) × State :=
  let recipe := recBits ws 0 5 4
  let stype := recBits ws 0 11 8
  let dtype := recBits ws 0 15 12
  let src := recBits ws 1 47 0
  let bytes := recBits ws 3 47 0
  if recipe = 0 ∧ stype = dtype then s.readGrans src (bytes / 256)
  else
    let len := if recipe = 0 then 256 / floatBytes stype else recBits ws 4 15 0 + 1
    let w := len * floatBytes stype
    let (rows, s) := s.readRows stype len ((List.range (bytes / w)).map fun i => src + i * w)
    (wireOfRows recipe dtype rows, s)

/-- PUT (R342). -/
def execPut (unit : Fin 2) (src : JobSrc) (s : State) : Host.Outcome State Fault Refusal :=
  .next (s.runCuJob unit.val 1 src State.roomForNode fun s u id ws =>
    let (gs, s) := s.putGrans ws
    let s := s.markPoison id (gs.any (·.2))
    let k := { Packet.blank .write with
      vl := recBits ws 0 7 6, recipe := recBits ws 0 5 4, dst := recBits ws 0 23 16, addr := recBits ws 2 47 0
      psig := recBits ws 6 23 12, pen := recBits ws 6 24 24 == 1, dtype := recBits ws 0 15 12, rowlen := recBits ws 4 15 0 }
    s.startWrite u id k gs)

/-- GET (R342). -/
def execGet (unit : Fin 2) (src : JobSrc) (s : State) : Host.Outcome State Fault Refusal :=
  .next (s.runCuJob unit.val 2 src State.roomForNode fun s u id ws =>
    s.startRead u id (recBits ws 0 23 16) (recBits ws 0 7 6) (recBits ws 1 47 0) (recBits ws 2 47 0) (recBits ws 3 47 0 / 256))

/-- The parts of a gather from member `i` on: the own part copied, the others read (R342). -/
def State.gatherParts (s : State) (unit id : Nat) (ws : List Nat) : Nat → Nat → State
  | _, 0 => s
  | i, n + 1 =>
    let g := recBits ws 0 36 32
    let part := recBits ws 3 47 0 / g
    let dst := recBits ws 2 47 0 + i * part
    let s := if i = recBits ws 0 44 40 then
        let (bad, t) := s.copyGranules (recBits ws 1 47 0) dst (part / 256)
        (t.markPoison id bad).ownWrites id s.heldSeq
      else
        let (nd, s) := s.groupNode (recBits ws 0 31 24) i
        s.startRead unit id nd (recBits ws 0 7 6) (recBits ws 1 47 0) dst (part / 256)
    s.gatherParts unit id ws (i + 1) n

/-- GATHER (R342): the parts that the limits hold back wait (R343). -/
def execGather (unit : Fin 2) (src : JobSrc) (s : State) : Host.Outcome State Fault Refusal :=
  .next (s.runCuJob unit.val 3 src (fun _ _ => true) fun s u id ws => s.gatherParts u id ws 0 (recBits ws 0 36 32))

/-! ## Ring reduce-scatter (R345, R346) -/

/-- Elements of a row of a reduce-scatter: the record's, or a granule's under recipe 0 without bands, where rows have no part (R341, R346). -/
def redLen (ws : List Nat) : Nat :=
  if recBits ws 0 5 4 = 0 ∧ recBits ws 4 16 16 = 0 then 256 / floatBytes (recBits ws 0 11 8) else recBits ws 4 15 0 + 1

/-- The rows of chunk `c` that take part: all of them, or those of present bands (R346). -/
def State.redRows (s : State) (ws : List Nat) (c : Nat) : List Nat × State :=
  let len := redLen ws
  let per := recBits ws 3 47 0 / recBits ws 0 36 32 / (len * floatBytes (recBits ws 0 11 8))
  if recBits ws 4 16 16 = 1 then
    let lo := c * per / 8
    let (bs, _, s) := s.read (recBits ws 5 47 0 + lo / 8) (per / 64 + 2)
    ((List.range per).filter fun i => bit (bs.getD (((c * per + i) / 8) / 8 - lo / 8) 0).toNat ((c * per + i) / 8 % 8), s)
  else (List.range per, s)

/-- The own rows of a chunk, widened. -/
def State.redOwn (s : State) (ws : List Nat) (c : Nat) : List (List Lane × Bool) × State :=
  let len := redLen ws
  let w := len * floatBytes (recBits ws 0 11 8)
  let chunk := recBits ws 3 47 0 / recBits ws 0 36 32
  let (rs, s) := s.redRows ws c
  s.readRows (recBits ws 0 11 8) len (rs.map fun i => recBits ws 1 47 0 + c * chunk + i * w)

/-- Two rows added elementwise (R345), with the flags. -/
def addRow (a b : List Lane) : List Lane × Flags :=
  let rs := List.zipWith fadd a b
  (rs.map (·.1), rs.foldl (fun f r => f.join r.2) .none)

/-- A partial chunk sent on the ring to the next member. -/
def State.redSend (s : State) (unit : Nat) (r : RedJob) (c : Nat) (rows : List (List Lane × Bool)) : State :=
  let ws := r.words
  let g := recBits ws 0 36 32
  let (nd, s) := s.groupNode (recBits ws 0 31 24) ((recBits ws 0 44 40 + 1) % g)
  let k := { Packet.blank .write with
    vl := recBits ws 0 7 6, recipe := recBits ws 0 5 4, dst := nd, dtype := recBits ws 0 15 12, rowlen := recBits ws 4 15 0
    opid := r.opid, addr := c }
  s.startWrite unit r.job k (wireOfRows (recBits ws 0 5 4) (recBits ws 0 15 12) rows)

/-- Runs of consecutive numbers: first and length. -/
def runsOf : List Nat → List (Nat × Nat)
  | [] => []
  | i :: is =>
    match runsOf is with
    | (j, n) :: rs => if j = i + 1 then (i, n + 1) :: rs else (i, 1) :: (j, n) :: rs
    | [] => [(i, 1)]

/-- A run of rows written here as DTYPE elements, granule by granule, one poisoned where it holds part of a poisoned row (R339, R345); the
flags of the conversions are recorded. -/
def State.putRun (s : State) (unit dtype a : Nat) (rows : List (List Lane × Bool)) : State :=
  let cs := rows.map fun r => r.1.map fun x => convert dtype false x
  let s := s.cuFlags unit (cs.foldl (fun f c => c.foldl (fun f x => f.join x.2) f) .none)
  let bs := cs.flatMap fun c => packElems dtype (c.map (·.1))
  let w := (rows.headD ([], false)).1.length * floatBytes dtype
  (List.range (cdiv bs.length 256)).foldl (fun s i =>
    let bad := rows.zipIdx.any fun (r, j) => r.2 && decide (j * w < 256 * (i + 1)) && decide (256 * i < (j + 1) * w)
    let piece := (bs.drop (256 * i)).take 256
    if bad then s.storePoisoned 3 false (granuleOf a + i) (piece ++ zeroBytes (256 - piece.length))
    else s.writeLogged 8 (a + 256 * i) piece) s

/-- The finished chunk of this member is written here, or sent to the delivery node, one transfer for each run of present rows, the
last with PSIG (R345, R346). -/
def State.redFinish (s : State) (unit : Nat) (r : RedJob) (rows : List (List Lane × Bool)) : State :=
  let ws := r.words
  let len := redLen ws
  let dtype := recBits ws 0 15 12
  let w := len * floatBytes dtype
  let dst := recBits ws 2 47 0
  let (idx, s) := s.redRows ws (recBits ws 0 44 40)
  let s := { s with redJobs := s.redJobs.filter (·.job != r.job) }
  if recBits ws 0 23 16 = 0xFF then
    ((runsOf idx).foldl (fun s e =>
      s.putRun unit dtype (dst + e.1 * w) ((rows.drop (idx.takeWhile (· != e.1)).length).take e.2)) s).ownWrites r.job s.heldSeq
  else
    let runs := runsOf idx
    (runs.zipIdx).foldl (fun s (e : (Nat × Nat) × Nat) =>
      let first := (idx.takeWhile (· != e.1.1)).length
      let k := { Packet.blank .write with
        vl := recBits ws 0 7 6, recipe := recBits ws 0 5 4, dst := recBits ws 0 23 16, addr := dst + e.1.1 * w
        psig := recBits ws 6 23 12, pen := recBits ws 6 24 24 == 1 && e.2 + 1 == runs.length
        dtype := dtype, rowlen := recBits ws 4 15 0 }
      s.startWrite unit r.job k (wireOfRows (recBits ws 0 5 4) dtype ((rows.drop first).take e.1.2))) s

/-- The rows of a ring transfer as they arrive (R345: narrowed and restored). -/
def ringRows (ws : List Nat) (gs : List (List Byte × Bool)) : List (List Lane × Bool) × Flags :=
  let len := redLen ws
  let recipe := recBits ws 0 5 4
  let dtype := recBits ws 0 15 12
  if recipe = 0 then
    let bs := gs.flatMap (·.1)
    let w := len * floatBytes dtype
    ((List.range (bs.length / w)).map fun i =>
      ((unpackElems dtype (bs.drop (i * w)) len).map (fun x => (widen dtype x).1), anyBad gs (i * w) w), .none)
  else
    let rs := (unwireRows true len (gs.length + 1) gs).map fun (d, q, bad) => let y := restoreRow recipe d q; (y.1, bad, y.2)
    (rs.map fun r => (r.1, r.2.1), rs.foldl (fun f r => f.join r.2.2) .none)

/-- The chunk that a member adds to at a step of the ring (R345): chunk c is at member c + t, mod G, at step t. -/
def RedJob.chunk (r : RedJob) : Nat :=
  let g := recBits r.words 0 36 32
  (recBits r.words 0 44 40 + g * r.step - r.step) % g

/-- A ring transfer that has come whole is added to the own chunk and passed on, or finished (R345). -/
def State.redStep (s : State) (unit : Nat) (r : RedJob) (gs : List (List Byte × Bool)) : State :=
  let ws := r.words
  let g := recBits ws 0 36 32
  let c := r.chunk
  let (own, s) := s.redOwn ws c
  let (got, f) := ringRows ws gs
  let sums := List.zipWith (fun (a b : List Lane × Bool) => let x := addRow a.1 b.1; (x.1, a.2 || b.2, x.2)) got own
  let rows := sums.map fun x => (x.1, x.2.1)
  let s := s.cuFlags unit (sums.foldl (fun f x => f.join x.2.2) f)
  let s := s.markPoison r.job (rows.any (·.2))
  if r.step < g then
    let r' := { r with step := r.step + 1 }
    ({ s with redJobs := s.redJobs.map fun (x : RedJob) => if x.job = r.job then r' else x }).redSend unit r' c rows
  else s.redFinish unit r rows

/-- The ring transfer of a chunk, if it has come whole; its ADDR names the chunk (log entry 82). -/
def State.ringReady (s : State) (opid c : Nat) : Option RxXfer :=
  s.rx.find? fun r => r.first.opid == opid && r.first.addr == c && r.got == r.first.npkt

/-- The steps of a ring reduce-scatter for which the transfer has come whole, in turn; a chunk whose bands are all absent is not sent, and
its step is passed over (R345, R346). -/
def State.redDrain (s : State) (unit opid : Nat) : Nat → State
  | 0 => s
  | n + 1 =>
    match s.redJobs.find? fun r => r.opid == opid with
    | none => s
    | some r =>
      match s.ringReady opid r.chunk with
      | some x => (((s.dropRx x).redStep unit r x.all).checkCuJob r.job).redDrain unit opid n
      | none =>
        let (rs, t) := s.redRows r.words r.chunk
        if rs = [] then ((t.redStep unit r []).checkCuJob r.job).redDrain unit opid n else s

/-- The unit that runs a reduce-scatter. -/
def State.redUnit (s : State) (opid : Nat) : Option Nat :=
  (s.redJobs.find? fun r => r.opid == opid).bind fun r => (s.cuJobs.find? fun j => j.id == r.job).map (·.unit)

/-- A WRITE packet of a ring reduce-scatter: it goes into the unit, not to memory (R345). -/
def State.deliverRing (s : State) (unit : Nat) (k : Packet) : State :=
  let r := (s.rxOf k).add k
  let s := s.setRx r
  if r.got < k.npkt then s
  else (s.replyDone k).redDrain ((s.redUnit k.opid).getD unit) k.opid 16

/-- REDSCAT (R345): the first chunk leaves on the ring, or is finished at once by a ring of one. OPID 0 names no operation (R327): the job
has none. -/
def execRedscat (unit : Fin 2) (src : JobSrc) (opid : BitVec 32) (s : State) : Host.Outcome State Fault Refusal :=
  .next (if opid = 0 then s else s.runCuJob unit.val 4 src (fun _ _ => true) fun s u id ws =>
    let g := recBits ws 0 36 32
    let m := recBits ws 0 44 40
    let r : RedJob := ⟨id, opid.toNat, ws, 2⟩
    let s := { s with redJobs := s.redJobs ++ [r] }
    let (own, s) := s.redOwn ws ((m + g - 1) % g)
    let s := s.markPoison id (own.any (·.2))
    if g = 1 then s.redFinish u r own
    else ((s.redSend u r ((m + g - 1) % g) own).redDrain u opid.toNat g))

/-- LINK_WRITE (R337, R343): an incoming WRITE packet, into the ring reduce-scatter it names, else to memory. -/
def execLinkWrite (port : Fin 8) (k : InPacket) (s : State) : Host.Outcome State Fault Refusal :=
  .next (s.consume port.val .write k fun s =>
    if isRingPacket k then s.deliverRing (port.val / 4) (inPacket .write k) else s.deliverWrite (port.val / 4) (inPacket .write k))

/-- LINK_READ_RESP (R343): the transfers that waited for one to end start. -/
def execLinkReadResp (port : Fin 8) (k : InPacket) (s : State) : Host.Outcome State Fault Refusal :=
  .next (s.consume port.val .readResp k fun s => s.deliverResp (inPacket .readResp k)).startTransfers

/-- LINK_DONE (R343): as LINK_READ_RESP. -/
def execLinkDone (port : Fin 8) (k : InPacket) (s : State) : Host.Outcome State Fault Refusal :=
  .next (s.consume port.val .done k fun s => s.endTx k.xfer.toNat).startTransfers

/-- A collective unit's ENABLE rises: the ring starts at its first record and the job signal's value is recorded (R160, R341);
HGPn_CU_PROGRESS.DONE counts since cold start (R352) and stands. -/
def State.cuEnable (u : Nat) (s : State) : State :=
  (s.put (Reg.HGPn_CU_CTL_ENABLE u) 1).enableRing (4 + u) (s.get (Reg.HGPn_CU_CTL_JOB_SIG u))

/-- CU_ENABLE (R341): while a step plan runs the host's write is ignored and counted (R352). -/
def execCuEnable (unit : Fin 2) (s : State) : Host.Outcome State Fault Refusal :=
  .next (s.hostRaises (Reg.HGPn_CU_CTL_ENABLE unit.val) (State.cuEnable unit.val))

/-- DISPATCH (R173, R342): the oldest wave handed over by Siphon is gathered and sent under recipe 2 in CC1; one on a ring is BAD_JOB. -/
def execDispatch (unit : Fin 2) (src : JobSrc) (s : State) : Host.Outcome State Fault Refusal :=
  .next (match src with
    | .ring =>
      match s.cuFetch unit.val .ring with
      | some (ws, ring, token, _, s') =>
        if recBits ws 0 3 0 = 5 then
          let (id, s') := s'.beginCuJob unit.val ring token ws
          s'.refuseCuJob id 2
        else s
      | none => s
    | .queue =>
      match s.dispatchQ with
      | [] => s
      | d :: ds =>
        if !s.mayTransfer d.node 1 then s
        else
          let u := s.unitOf unit.val d.node 1
          let (id, s) := ({ s with dispatchQ := ds }).beginCuJob u none 0 []
          let (rows, s) := s.readRows d.stype d.rowLen d.rows
          let s := s.markPoison id (rows.any (·.2))
          let k := { Packet.blank .write with
            vl := 1, recipe := 2, dst := d.node, addr := d.rx, psig := d.sig, pen := true, dtype := d.dtype, rowlen := d.rowLen - 1 }
          let gs := wireOfRows 2 d.dtype rows
          let s := if gs.isEmpty then
              s.send u { Packet.blank .post with vl := 1, src := s.get Reg.HGP0_NODE_NODE, dst := d.node, psig := d.sig, value := 1 }
            else s.startWrite u id k gs
          s.cuStarted id)

end Sys2Proof.Machine
end

