-- ==== Sys2Proof/Machine/Layout.lean ====
section
/-! DEFINITION. How a bundle of 512 bits holds its six slots (R36, R37, R39, R41, R42, R44, R46, R48), and a 64-bit helictite instruction its fields (R216). -/

namespace Sys2Proof.Machine

open Sys2Proof

/-! ## Fields of a slot -/

/-- The field of `w` bits that begins at bit `lo`. -/
def field (w x lo : Nat) : BitVec w := BitVec.ofNat w (x / 2 ^ lo)

/-- A one-bit field. -/
def flagAt (x i : Nat) : Bool := x / 2 ^ i % 2 == 1

/-- A number made of fields, each with the bit it begins at. -/
def placed : List (Nat × Nat) → Nat
  | [] => 0
  | (v, lo) :: fs => v * 2 ^ lo + placed fs

/-! ## The slots of a bundle -/

/-- OP and the operands of a C slot (R39). -/
def readC (x : Nat) : BitVec 8 × COps :=
  (field 8 x 56, ⟨field 4 x 52, field 8 x 44, field 2 x 42, flagAt x 41, field 5 x 36, field 16 x 20, field 5 x 12, field 12 x 0⟩)

/-- OP and the operands of an S slot (R41). -/
def readS (x : Nat) : BitVec 8 × SOps :=
  (field 8 x 56, ⟨field 4 x 52, field 5 x 47, field 5 x 42, field 5 x 37, flagAt x 36, field 32 x 0⟩)

/-- OP and the operands of an L slot (R42). -/
def readL (x : Nat) : BitVec 8 × LOps :=
  (field 8 x 88, ⟨field 4 x 84, field 4 x 80, field 5 x 75, field 5 x 70, field 3 x 67, field 2 x 65, flagAt x 64, field 32 x 0⟩)

/-- OP and the operands of an M slot (R44). -/
def readM (x : Nat) : BitVec 8 × MOps :=
  (field 8 x 88, ⟨field 4 x 84, field 4 x 80, field 4 x 76, field 2 x 74, flagAt x 73, flagAt x 72, flagAt x 71, flagAt x 70,
    field 5 x 65, field 5 x 60, field 5 x 55, field 5 x 50, field 5 x 45⟩)

/-- OP and the operands of a V slot (R46). -/
def readV (x : Nat) : BitVec 8 × VOps :=
  (field 8 x 88, ⟨field 4 x 84, field 5 x 79, field 5 x 74, field 5 x 69, field 5 x 64, field 4 x 60, field 5 x 55, flagAt x 54, flagAt x 53,
    field 7 x 46⟩)

/-- OP and the operands of a T slot (R48). -/
def readT (x : Nat) : BitVec 8 × TOps :=
  (field 8 x 88, ⟨field 4 x 84, field 4 x 80, field 5 x 75, field 5 x 70, field 3 x 67, field 4 x 63, flagAt x 62, flagAt x 61, flagAt x 60,
    field 5 x 55, field 5 x 50, field 32 x 0⟩)

/-- The bundle that 512 bits hold: the slots from bits 0, 64, 128, 224, 320 and 416 on (R36). Bits that no field takes are not looked at
(R37, log entry 15). -/
def readBundle (x : Nat) : Bundle :=
  let c := readC x
  let s := readS (x / 2 ^ 64)
  let l := readL (x / 2 ^ 128)
  let m := readM (x / 2 ^ 224)
  let v := readV (x / 2 ^ 320)
  let t := readT (x / 2 ^ 416)
  { cop := c.1, c := c.2, sop := s.1, s := s.2, lop := l.1, l := l.2, mop := m.1, m := m.2, vop := v.1, v := v.2, top := t.1, t := t.2 }

/-! ## Bundles and instructions as numbers -/

/-- The bits of a C slot. -/
def wordC (op : BitVec 8) (o : COps) : Nat :=
  placed [(op.toNat, 56), (o.guard.toNat, 52), (o.dev.toNat, 44), (o.cc.toNat, 42), (b2n o.i, 41), (o.sval.toNat, 36), (o.imm16.toNat, 20),
    (o.sreg.toNat, 12), (o.target.toNat, 0)]

/-- The bits of an S slot. -/
def wordS (op : BitVec 8) (o : SOps) : Nat :=
  placed [(op.toNat, 56), (o.guard.toNat, 52), (o.dst.toNat, 47), (o.sa.toNat, 42), (o.sb.toNat, 37), (b2n o.i, 36), (o.imm32.toNat, 0)]

/-- The bits of an L slot. -/
def wordL (op : BitVec 8) (o : LOps) : Nat :=
  placed [(op.toNat, 88), (o.guard.toNat, 84), (o.dsc.toNat, 80), (o.dst.toNat, 75), (o.sa.toNat, 70), (o.tag.toNat, 67), (o.xmode.toNat, 65),
    (b2n o.xslot, 64), (o.imm32.toNat, 0)]

/-- The bits of an M slot. -/
def wordM (op : BitVec 8) (o : MOps) : Nat :=
  placed [(op.toNat, 88), (o.guard.toNat, 84), (o.atype.toNat, 80), (o.wtype.toNat, 76), (o.arr.toNat, 74), (b2n o.zero, 73), (b2n o.maskz, 72),
    (b2n o.msk, 71), (b2n o.swap, 70), (o.sact.toNat, 65), (o.srows.toNat, 60), (o.sacc.toNat, 55), (o.smask.toNat, 50), (o.spitch.toNat, 45)]

/-- The bits of a V slot. -/
def wordV (op : BitVec 8) (o : VOps) : Nat :=
  placed [(op.toNat, 88), (o.guard.toNat, 84), (o.vd.toNat, 79), (o.va.toNat, 74), (o.vb.toNat, 69), (o.vc.toNat, 64), (o.typ.toNat, 60),
    (o.sreg.toNat, 55), (b2n o.tt, 54), (b2n o.arr, 53), (o.idx.toNat, 46)]

/-- The bits of a T slot. -/
def wordT (op : BitVec 8) (o : TOps) : Nat :=
  placed [(op.toNat, 88), (o.guard.toNat, 84), (o.dsc.toNat, 80), (o.sa.toNat, 75), (o.sb.toNat, 70), (o.tag.toNat, 67), (o.otype.toNat, 63),
    (b2n o.ieee, 62), (b2n o.arr, 61), (b2n o.stats, 60), (o.sscale.toNat, 55), (o.vs.toNat, 50), (o.imm32.toNat, 0)]

/-- The 512 bits of a bundle, reserved bits zero (R36). -/
def bundleWord (b : Bundle) : Nat :=
  placed [(wordC b.cop b.c, 0), (wordS b.sop b.s, 64), (wordL b.lop b.l, 128), (wordM b.mop b.m, 224), (wordV b.vop b.v, 320),
    (wordT b.top b.t, 416)]

/-! ## Helictite instructions (R216) -/

/-- OP and the fields of a helictite instruction. -/
def readH (x : Word) : BitVec 8 × HOps :=
  (field 8 x.toNat 56, ⟨field 4 x.toNat 52, field 4 x.toNat 48, field 4 x.toNat 44, field 4 x.toNat 40, field 8 x.toNat 32, field 32 x.toNat 0⟩)

/-- The 64 bits of a helictite instruction. -/
def wordH (op : BitVec 8) (o : HOps) : Word :=
  BitVec.ofNat 64 (placed [(op.toNat, 56), (o.d.toNat, 52), (o.a.toNat, 48), (o.b.toNat, 44), (o.c.toNat, 40), (o.mod.toNat, 32),
    (o.imm.toNat, 0)])

end Sys2Proof.Machine
end

