-- ==== Sys2Proof/Machine/Helictite.lean ====
section
/-! DEFINITION. Helictites: registers and scratch, claims, granule operations, jobs, and what every instruction shares (R215 to R235, R255). -/

namespace Sys2Proof.Machine

open Sys2Proof

/-! ## State access (R215) -/

/-- Helictite `n`. -/
def State.hel (s : State) (n : Nat) : Hel := mapGet Hel.reset s.hels n

/-- Helictite `n` replaced. -/
def State.setHel (s : State) (n : Nat) (h : Hel) : State := { s with hels := mapSet Hel.reset s.hels n h }

/-- Scalar register; x0 reads as zero. -/
def Hel.x (h : Hel) (i : BitVec 4) : Word := if i = 0 then 0 else h.xregs.toList.getD i.toNat 0

/-- Scalar register written; a write to x0 is discarded. -/
def Hel.setX (h : Hel) (i : BitVec 4) (v : Word) : Hel := if i = 0 then h else { h with xregs := h.xregs.set i.toNat v (by omega) }

/-- Vector register. -/
def Hel.v (h : Hel) (i : BitVec 4) : HLanes := h.hregs.toList.getD i.toNat (Vector.replicate 16 0)

/-- Vector register written. -/
def Hel.setV (h : Hel) (i : BitVec 4) (v : HLanes) : Hel := { h with hregs := h.hregs.set i.toNat v (by omega) }

/-- The next instruction in order. -/
def Hel.next (h : Hel) : Hel := { h with pc := (h.pc + 1) % 256 }

/-- An address made of a register and the sign-extended immediate (R216). -/
def Hel.addr (h : Hel) (o : HOps) : Nat := (h.x o.a + o.imm.signExtend 64).toNat

/-! ## Claims (R226 to R229) -/

/-- The claim of a helictite. -/
def State.claimOf (s : State) (n : Nat) : Option Claim := s.claims.find? fun c => c.hel == n

/-- A claim is released: its banks come to a row boundary and serve everyone (R228). -/
def State.releaseClaim (s : State) (n : Nat) : State :=
  match s.claimOf n with
  | none => s
  | some c => ({ s with claims := s.claims.filter fun x => x.hel != n }).refreshBanks n c.banks

/-- A row boundary in every claimed bank (R228, R229). -/
def State.rowBoundary (s : State) (n : Nat) : State :=
  match s.claimOf n with
  | none => s
  | some c => if c.effect then s.boundaryIn n c.banks else s

/-- A granule of a claim: in its range, in a claimed bank of its segment (R226). -/
def State.inClaim (s : State) (c : Claim) (a : Nat) : Bool :=
  c.inRange a &&
  (match s.bondedAddr a with
    | some f => s.segmentOf f == c.hel && c.banks.contains (s.bankOf f)
    | none => false)

/-- Lines of claimed granules that the host holds cached. -/
def State.claimLines (s : State) (c : Claim) : List Nat := (s.snoop.map (·.1)).filter fun l => s.inClaim c (64 * l)

/-- Back-invalidations sent for a claim's lines, each counted (R226, R229). -/
def State.askClaim (s : State) (c : Claim) : State :=
  let ls := (s.claimLines c).filter fun l => !s.biWait.contains l
  ((s.sendBi ls).count Reg.HST_SF_BISNP ls.length).count Reg.HLC_CLAIM_STAT_BACKINV ls.length

/-! ## Programs and their end (R221, R224) -/

/-- Hold has stopped a helictite: at its next row boundary where its claim holds a row open, at once where it holds none (R225). -/
def State.helStopped (s : State) (n : Nat) : Bool :=
  s.held && !(match s.claimOf n with
    | some c => c.effect && c.rows != []
    | none => false)

/-- A helictite's next instruction may issue: a program runs, no claim is still to take effect, Hold has not stopped it (R225, R226). -/
def State.helReady (s : State) (n : Nat) : Bool :=
  (s.hel n).running && (s.hel n).ended.isNone && !s.helStopped n &&
  (match s.claimOf n with
    | some c => c.effect
    | none => true)

/-- A program ends: the claim is released, and the first failure is kept for the job (R221, R224). -/
def State.endHel (s : State) (n status code poisonAt : Nat) : State :=
  let h := s.hel n
  let e : HelEnd := ⟨status, h.pc, code⟩
  let s := (s.setHel n { h with ended := some e, xrecvAt := none }).releaseClaim n
  if status = 1 then s
  else { s with hlcJobs := s.hlcJobs.map fun j =>
      if j.targets.contains n then
        { j with fault := some (j.fault.getD (n, e)), poisonAt := if status = 3 ∧ j.poisonAt = 0 then poisonAt else j.poisonAt }
      else j }

/-- A program ends with FAULT (R221). -/
def State.helFault (s : State) (n : Nat) : State := s.endHel n 4 0 0

/-- OP and the fields of the instruction at a helictite's PC (R215, R216). -/
def State.helWord (s : State) (n : Nat) : BitVec 8 × HOps := readH (mapGet 0 (s.hel n).prog (s.hel n).pc)

/-- The opcodes of the instruction set; every other one is reserved (R217). -/
def hopOk (op : BitVec 8) : Bool :=
  let x := op.toNat
  x ≤ 7 || (0x10 ≤ x && x ≤ 0x1C) || (0x20 ≤ x && x ≤ 0x25) || (0x30 ≤ x && x ≤ 0x3E) || (0x40 ≤ x && x ≤ 0x48) ||
    x == 0x50 || x == 0x51 || (0x53 ≤ x && x ≤ 0x56) || (0x60 ≤ x && x ≤ 0x62) || x == 0x68

/-- A helictite runs the instruction at its PC and no other (R215). Where a reserved opcode stands there, whatever instruction is asked
for, the program ends with FAULT (R217, R221; log entry 35). `t` is the state with the instruction's effect. -/
def State.helAt (s : State) (n : Nat) (op : BitVec 8) (o : HOps) (t : State) : State :=
  if !s.helReady n then s
  else if s.helWord n = (op, o) then t
  else if hopOk (s.helWord n).1 then s
  else s.helFault n

/-- An instruction of a ready helictite acts; one that is not ready changes nothing. -/
def State.helDo (s : State) (n : Nat) (f : Hel → State) : State := if s.helReady n then f (s.hel n) else s

/-- An instruction that changes only its helictite's registers, then steps on. -/
def State.helReg (s : State) (n : Nat) (f : Hel → Hel) : State := s.helDo n fun h => s.setHel n (f h).next

/-- A branch. -/
def State.helBranch (s : State) (n : Nat) (o : HOps) (f : Hel → Bool × Hel) : State :=
  s.helDo n fun h =>
    let (t, h') := f h
    s.setHel n (if t then { h' with pc := o.imm.toNat % 256 } else h'.next)

/-- A lanewise result with its flags, into hD. -/
def Hel.lanes (h : Hel) (d : BitVec 4) (f : Nat → Lane × Flags) : Hel :=
  let rs := (List.range 16).map f
  { h.setV d (mkHLanes fun i => (rs.getD i (0, Flags.none)).1) with flags := rs.foldl (fun g r => g.join r.2) h.flags }

/-- A vector instruction. -/
def State.helVec (s : State) (n : Nat) (o : HOps) (f : Hel → Nat → Lane × Flags) : State := s.helReg n fun h => h.lanes o.d (f h)

/-- A reduction over 16 lanes into lane 0 (R114, R217). -/
def Hel.reduce (h : Hel) (o : HOps) (op : Lane → Lane → Lane × Flags) : Hel :=
  let (l, f) := treeReduce op 4 (h.v o.a).toList
  { h.setV o.d (mkHLanes fun i => if i = 0 then l.headD 0 else 0) with flags := h.flags.join f }

/-! ## Scratch (R217, R220, R221) -/

/-- An instruction on `k` scratch bytes: outside the 2 KiB or misaligned it faults; it waits for the granule operation that its slot's
scoreboard names (a read before a load, a write before a store). -/
def State.helScratch (s : State) (n : Nat) (o : HOps) (k : Nat) (store : Bool) (f : Hel → Nat → Hel) : State :=
  s.helDo n fun h =>
    let a := h.addr o
    if 2048 < a + k ∨ a % k ≠ 0 then s.helFault n
    else if h.ops.any (fun p => p.write == store && p.slot == a / 256) then s
    else s.setHel n (f h a).next

/-- A type code of lvh and svh: BF16 or FP16 (R217). -/
def halfType (o : HOps) : Option Nat :=
  let t := o.mod.toNat % 16
  if t = 1 ∨ t = 2 then some t else none

/-! ## Granule operations (R219, R220, R230, R233) -/

/-- Ways that a deinterleave window allows (R233). -/
def interleaveWays : List Nat := [1, 2, 3, 4, 6, 8, 12, 16]

/-- Where a helictite address leads (R219, R233): a unified address, or none for a foreign block. -/
def State.deinterleave (s : State) (a : Nat) : Option Nat :=
  if a < 0x800000000000 ∨ 0x83FFFFFFFFFF < a then some a
  else
    let i := (a - 0x800000000000) / 2 ^ 40
    let x := a % 2 ^ 40
    let gl := s.get (Reg.HLC_DEINTi_CFG_G_LOG2 i)
    let w := s.get (Reg.HLC_DEINTi_CFG_W i)
    let size := s.get (Reg.HLC_DEINTi_CFG_SIZE i)
    if !s.flag (Reg.HLC_DEINTi_CFG_VALID i) then some a
    else if gl < 8 ∨ 14 < gl ∨ !interleaveWays.contains w ∨ 2 ^ 40 < size then none
    else if size ≤ x then some a
    else
      let g := 2 ^ gl
      let blk := x / g
      if blk % w = s.get (Reg.HLC_DEINTi_CFG_POS i) then
        some (s.get (Reg.HLC_DEINTi_TGT_TARGET i) / 256 * 256 + blk / w * g + x % g)
      else none

/-- rg and wg (R217, R219 to R221): a misaligned address faults; with 8 operations outstanding, or a wg still to read the slot of an rg,
the instruction waits; else the operation starts. -/
def State.helStart (s : State) (n : Nat) (o : HOps) (write : Bool) : State :=
  s.helDo n fun h =>
    let a := h.addr o
    let slot := o.mod.toNat % 8
    if a % 256 ≠ 0 then s.helFault n
    else if 8 ≤ h.ops.length ∨ (!write ∧ h.ops.any (fun p => p.write && p.slot == slot)) then s
    else
      let t := s.deinterleave a
      let s := if t.isNone then s.count Reg.HLC_DEINT_FOREIGN_COUNT 1 else s
      s.setHel n { h.next with ops := h.ops ++ [⟨write, slot, t, s.cycle⟩] }

/-- The first outstanding operation of a direction on a slot, and whether an earlier one on its granule is still to come (R382). -/
def Hel.findOp (h : Hel) (write : Bool) (slot : Nat) : Option (HelOp × Bool) :=
  match h.ops.findIdx? fun p => p.write == write && p.slot == slot with
  | none => none
  | some i =>
    match h.ops[i]? with
    | none => none
    | some p => some (p, (h.ops.take i).any fun q => q.addr.isSome && q.addr == p.addr)

/-- An operation leaves the list of those outstanding. -/
def Hel.dropOp (h : Hel) (p : HelOp) : Hel := { h with ops := h.ops.erase p }

/-- Normal accesses to a bank of a helictite's claim are still to be served (R229). -/
def State.passingIn (s : State) (n b : Nat) : Bool := ((s.claimOf n).map fun c => c.passing.any fun w => w.bank == b).getD false

/-- A helictite's operation on a granule of its claim (R228, R229, R381): another row makes a row boundary first, in Hold one in every
claimed bank; the accesses that were waiting are served first, and lines the host has cached since are back-invalidated first. -/
def State.helOwn (s : State) (n f : Nat) (c : Claim) : Bool × State :=
  let b := s.bankOf f
  let row := s.rowOf f + 1
  let turn := ((mapFind c.rows b).map fun r => r != row).getD false
  let s := if turn then (if s.held then s.rowBoundary n else s.boundaryIn n [b]) else s
  if s.helStopped n || s.passingIn n b then (false, s)
  else if s.claimLines c ≠ [] then (false, s.askClaim c)
  else (true, s.modClaim n fun c => { c with rows := mapInsert c.rows b row })

/-- Whether a helictite's operation on an address may go on now (R227 to R229). -/
def State.helEnter (s : State) (n a : Nat) : Bool × State :=
  if s.claimed (some n) a then (false, s.noteWaiting (some n) a)
  else
    match s.claimOf n, s.bondedAddr a with
    | some c, some f => if c.effect ∧ s.inClaim c a then s.helOwn n f c else (true, s)
    | _, _ => (true, s)

/-- A near rg completes no sooner than 24 MCLK cycles after issue (R219, R220). -/
def State.tooSoon (s : State) (n : Nat) (p : HelOp) : Bool :=
  match p.addr.bind s.bondedAddr with
  | some f => s.segmentOf f == n && decide (s.cycle < p.since + 48)
  | none => false

/-- An rg completes (R217, R220, R221): its granule is in the slot; a foreign block reads as zero; a poisoned granule ends the program. -/
def State.helRead (s : State) (n slot : Nat) : State :=
  let h := s.hel n
  match h.findOp false slot with
  | none => s
  | some (p, behind) =>
    if behind || s.helStopped n || s.tooSoon n p then s
    else match p.addr with
      | none => s.setHel n { h.dropOp p with scratch := memWrite h.scratch (256 * slot) (zeroBytes 256) }
      | some a =>
        let (go, s) := s.helEnter n a
        if !go then s
        else
          let (bs, bad, s) := s.readAs 1 a 256
          if bad then
            let s := s.setHel n (h.dropOp p)
            if h.ended.isNone then s.endHel n 3 0 a else s
          else s.setHel n { h.dropOp p with scratch := memWrite h.scratch (256 * slot) bs }

/-- A wg completes (R217, R220, R230, R381): it reads its slot and the granule is written whole; a foreign write is dropped. -/
def State.helWrite (s : State) (n slot : Nat) : State :=
  let h := s.hel n
  match h.findOp true slot with
  | none => s
  | some (p, behind) =>
    if behind || s.helStopped n then s
    else match p.addr with
      | none => s.setHel n (h.dropOp p)
      | some a =>
        let (go, s) := s.helEnter n a
        if !go then s
        else if s.cachedLines (granuleOf a) ≠ [] then s.askLines (granuleOf a) true
        else
          let (r, s) := s.writeIn 1 false a (memRead h.scratch (256 * slot) 256)
          if r = .noFrame then s.waitFrame (.helictite n slot)
          else (s.setHel n (h.dropOp p)).gotFrame (.helictite n slot)

/-! ## Jobs (R222 to R224, R255) -/

/-- The targets of a job: helictites in both a named layer and a named shaft (R222). -/
def hlcTargets (ws : List Nat) : List Nat :=
  let shafts := recBits ws 1 63 0 + recBits ws 2 31 0 * 2 ^ 64
  (List.range 12).flatMap fun l =>
    if bit (recBits ws 0 35 24) l then ((List.range 96).filter fun t => bit shafts t).map fun t => 96 * l + t else []

/-- A job record that R224 refuses by itself: no target, an absent layer, or a reserved field set. -/
def State.hlcBad (s : State) (ws : List Nat) : Bool :=
  (hlcTargets ws).isEmpty || decide (2 ^ s.get Reg.GLB_ID_LAYERS ≤ recBits ws 0 35 24) || recBits ws 0 55 51 != 0 ||
  recBits ws 2 63 32 != 0 || recBits ws 3 63 48 != 0

/-- A program image (R255): its instruction count, hold entries and instructions; whether it is poisoned. -/
def State.hlcImage (s : State) (a ninstr : Nat) : Nat × List (Nat × Nat) × List Word × Bool × State :=
  let (h, p, s) := s.read a 8
  let w := leNat h
  let nh := bits w 19 16
  let (hb, q, s) := s.read (a + 64) (16 * nh)
  let (ib, r, s) := s.read (a + 64 + 64 * cdiv nh 4) (8 * ninstr)
  (bits w 8 0, (List.range nh).map fun i => (bits (wordAt hb (2 * i)) 47 0, bits (wordAt hb (2 * i + 1)) 47 0),
    (List.range ninstr).map fun i => BitVec.ofNat 64 (wordAt ib i), p || q || r, s)

/-- An object overlaps a held range (R255). -/
def Obj.overlaps (o : Obj) (r : Nat × Nat) : Bool := r.2 != 0 && decide (o.base < r.1 + r.2) && decide (r.1 < o.base + o.size)

/-- Objects that a job's ranges hold are in a move (R223). -/
def State.heldMoves (s : State) (holds : List (Nat × Nat)) : Bool :=
  s.objects.any fun o => holds.any o.overlaps && s.moves.any fun m => m.started && m.page.isNone && m.obj == o.id

/-- An object is held by a running helictite job: Flowstone starts no move of it (R223, R255). -/
def State.jobHolds (s : State) (o : Obj) : Bool := s.hlcJobs.any fun j => j.holds.any o.overlaps

/-- A target at the start of a job (R224). -/
def Hel.start (h : Hel) (n id : Nat) (prog : List Word) (args : List Word) : Hel :=
  let keep := id != 0 && id == h.progId
  let xs := fun (i : Nat) => if i = 1 then BitVec.ofNat 64 (n % 96) else if i = 2 then BitVec.ofNat 64 (n / 96)
    else if 3 ≤ i ∧ i ≤ 6 then args.getD (i - 3) 0 else 0
  { h with
    pc := 0, running := true, ended := none, flags := Flags.none, xrecvAt := none, progId := id
    prog := if keep then h.prog else prog.zipIdx.foldl (fun m (w, i) => mapSet 0 m i w) h.prog
    xregs := ⟨⟨(List.range 16).map xs⟩, by simp⟩, hregs := Vector.replicate 16 (Vector.replicate 16 0) }

/-- A job ends (R224): STATUS and FLAGS are written, an internal job reports to its submitter, DONE_SIG is posted. -/
def State.endHlcJob (s : State) (j : HlcJob) (status : Nat) (f : Flags) : State :=
  let s : State := { s with hlcJobs := s.hlcJobs.filter (·.job != j.job) }
  let s := if status = 3 then
      s.logErr { sev := 2, kind := 4, source := 5, addr := j.poisonAt, obj := s.objAt j.poisonAt, job := j.job
                 unit := (j.fault.map (·.1)).getD 0, detail := status }
    else s
  let s := match j.fault with
    | some (n, e) => s.puts
        [(Reg.HLC_FAULT_JOB, j.job), (Reg.HLC_FAULT_INDEX, n), (Reg.HLC_FAULT_PC, e.pc), (Reg.HLC_FAULT_STATUS, status)]
    | none => s
  let s := (s.count Reg.HLC_PROGRESS_DONE 1).put Reg.HLC_PROGRESS_LAST_STATUS status
  let lo := s.heldSeq
  match j.recAddr with
  | some a =>
    let s := s.writeLogged 5 (a + 6)
      [BitVec.ofNat 8 (b2n f.invalid + 2 * b2n f.overflow + 4 * b2n f.flush), BitVec.ofNat 8 status]
    s.endWork (s.heldSince lo) (.post j.doneSig) (s.postSig j.doneSig false 1)
  | none => { s with hlcDone := mapInsert s.hlcDone j.token status }

/-- The jobs posted so far to the HLC_ ring, while it is enabled (R160, R279). -/
def State.hlcPosted (s : State) : Nat := if s.flag Reg.HLC_CTL_ENABLE then s.sig (s.get Reg.HLC_CTL_JOB_SIG) - (s.ring 2).v0 else 0

/-- A job of the internal queue stands behind ring jobs that were posted before it and have not started (R279). -/
def State.behindRing (s : State) (q : QueuedJob) : Bool := decide ((s.ring 2).taken < q.behind)

/-- The ring's next job was posted after the job at the head of the internal queue (R279). -/
def State.behindQueue (s : State) : Bool := (s.hlcQueue.head?.map fun q => decide (q.behind ≤ (s.ring 2).taken)).getD false

/-- The next job record: from the ring, or the head of the internal queue, whichever was posted earlier (R279), while ENABLE is 1; its words,
address, token, poison, and the state with it taken. -/
def State.hlcFetch (s : State) (src : JobSrc) : Option (List Nat × Option Nat × Nat × Nat × Bool × State) :=
  match src with
  | .queue =>
    match s.hlcQueue with
    | [] => none
    | q :: qs =>
      if s.flag Reg.HLC_CTL_ENABLE && !s.behindRing q then some (q.words, none, q.token, 2 ^ 32 + q.token, false, { s with hlcQueue := qs })
      else none
  | .ring =>
    let j := (s.ring 2).taken
    if s.flag Reg.HLC_CTL_ENABLE && !s.behindQueue && s.jobPosted 2 (s.get Reg.HLC_CTL_JOB_SIG) j then
      let a := ringAddr (s.get Reg.HLC_RING_BASE) (s.get Reg.HLC_RING_ENTRIES_M1) 64 j
      let (bs, p, s) := s.read a 64
      some (recWords bs 8, some a, 0, j, p, s.takeJob 2)
    else none

/-- HELICTITE_JOB_START (R222 to R224): the next job, once its targets are idle and none of its held objects is in a move. -/
def execHelictiteJobStart (src : JobSrc) (s : State) : Host.Outcome State Fault Refusal :=
  .next (match s.hlcFetch src with
    | none => s
    | some (ws, ra, token, j, bad, s') =>
      let pa := recBits ws 3 47 0 / 64 * 64
      let nm1 := recBits ws 0 23 16
      let ts := hlcTargets ws
      let (ni, holds, prog, badImg, s'') := s'.hlcImage pa (nm1 + 1)
      let job : HlcJob := ⟨j, ra, token, recBits ws 0 47 36, ts, holds, none, if bad then ra.getD 0 else pa⟩
      if s.held then s
      else if bad then s'.endHlcJob job 3 Flags.none
      else if s.hlcBad ws then s'.endHlcJob job 2 Flags.none
      else if badImg then s''.endHlcJob job 3 Flags.none
      else if ni ≤ nm1 then s''.endHlcJob job 2 Flags.none
      else if ts.any (fun n => (s.hel n).running) || s.heldMoves holds then s
      else
        let args := (List.range 4).map fun i => BitVec.ofNat 64 (ws.getD (4 + i) 0)
        let s := ts.foldl (fun s n => s.setHel n ((s.hel n).start n (recBits ws 0 15 0) prog args)) s''
        { s with hlcJobs := s.hlcJobs ++ [{ job with poisonAt := 0 }] })

/-- HELICTITE_JOB_END (R224): the `k`-th running job, once every target of it has ended and its granule operations are done. -/
def execHelictiteJobEnd (k : BitVec 11) (s : State) : Host.Outcome State Fault Refusal :=
  .next (match s.hlcJobs[k.toNat]? with
    | none => s
    | some j =>
      if j.targets.all (fun n => (s.hel n).ended.isSome && (s.hel n).ops.isEmpty) && !s.held then
        let status := j.targets.foldl (fun x n => max x (((s.hel n).ended.map (·.status)).getD 0)) 0
        let f := j.targets.foldl (fun f n => f.join (s.hel n).flags) Flags.none
        let s := j.targets.foldl (fun s n => s.setHel n { s.hel n with running := false, ended := none }) s
        s.endHlcJob j status f
      else s)

/-- ENABLE rises (R160, R222); no ring job is posted before a job that waits in the internal queue. -/
def State.hlcEnable (s : State) : State :=
  { (s.puts [(Reg.HLC_CTL_ENABLE, 1), (Reg.HLC_PROGRESS_DONE, 0)]).enableRing 2 (s.get Reg.HLC_CTL_JOB_SIG) with
    hlcQueue := s.hlcQueue.map fun q => { q with behind := 0 } }

/-- HLC_ENABLE (R222, R235). -/
def execHlcEnable (s : State) : Host.Outcome State Fault Refusal := .next (s.hostRaises Reg.HLC_CTL_ENABLE State.hlcEnable)

/-- HLC_DISABLE (R235): no further job starts; the running ones end. -/
def execHlcDisable (s : State) : Host.Outcome State Fault Refusal := .next (s.hostClears Reg.HLC_CTL_ENABLE)

/-! ## Granule operations, claims and waits as commands -/

/-- H_RG_COMPLETE (R220). -/
def execHRgComplete (hel : Fin 1152) (slot : Fin 8) (s : State) : Host.Outcome State Fault Refusal := .next (s.helRead hel.val slot.val)

/-- H_WG_COMPLETE (R220). -/
def execHWgComplete (hel : Fin 1152) (slot : Fin 8) (s : State) : Host.Outcome State Fault Refusal := .next (s.helWrite hel.val slot.val)

/-- CLAIM_EFFECT (R226, R231): no line of a claimed granule is cached any more, or the snoop filter went with the link. -/
def execClaimEffect (hel : Fin 1152) (s : State) : Host.Outcome State Fault Refusal :=
  .next (match s.claimOf hel.val with
    | none => s
    | some c =>
      if c.effect || s.held then s
      else if s.claimLines c = [] then s.modClaim hel.val fun c => { c with effect := true }
      else s.askClaim c)

/-- A bank of a claim is due for a forced row boundary (R228): a normal access has waited 1,600 MCLK cycles for it, or four refreshes of
it are outstanding. -/
def State.boundaryDue (s : State) (c : Claim) (b : Nat) : Bool :=
  (c.waiting.any fun w => w.bank == b && decide (w.since + 3200 ≤ s.cycle)) || mapGet 0 s.refreshOwed (c.hel * 16 + b) == 4

/-- FORCED_ROW_BOUNDARY (R228): in every bank of the claim that is due for one. -/
def execForcedRowBoundary (hel : Fin 1152) (s : State) : Host.Outcome State Fault Refusal :=
  .next (match s.claimOf hel.val with
    | none => s
    | some c => if c.effect then (c.banks.filter (s.boundaryDue c)).foldl (fun s b => s.forceBank hel.val b) s else s)

/-- H_XRECV_TIMEOUT (R221): an xrecv that has waited longer than TIMEOUT_US faults; zero is no limit. -/
def execHXrecvTimeout (hel : Fin 1152) (s : State) : Host.Outcome State Fault Refusal :=
  let us := s.get Reg.HLC_CTL_TIMEOUT_US
  .next (match (s.hel hel.val).xrecvAt with
    | none => s
    | some t => if us ≠ 0 ∧ t + us * 1700 < s.cycle ∧ !s.held then s.helFault hel.val else s)

end Sys2Proof.Machine
end

