-- ==== Sys2Proof/Machine/Flowstone.lean ====
section
/-! DEFINITION. Flowstone: its command ring, objects, heat decisions, moves, deadlines, drains and the loss of a cartridge (R240 to R267). -/

namespace Sys2Proof.Machine

open Sys2Proof

/-! ## The panel's events (R484) -/

/-- A bit of SVC_EVENT set; a bit that rises raises MSI-X vector 3 (R484). -/
def State.panelEvent (s : State) (f : FieldRef) (i : Nat) : State :=
  if bit (s.get f) i then s else (s.put f (s.get f + 2 ^ i)).raiseIrq 3

/-- A slot's state changes (R260); CTG_PWREN is high from ADDING to DRAINING (R473, R488), and no channel is trained outside
IN_SERVICE and DRAINING (BMCm_STATE.CHANNELS). -/
def State.setSlot (s : State) (m st : Nat) : State :=
  if s.slotState m = st then s
  else
    let s := { s with slotPower := mapSet false s.slotPower m (decide (2 ≤ st) && decide (st ≤ 4)) }
    let s := if st = 3 ∨ st = 4 then s else s.put (Reg.BMCm_STATE_CHANNELS m) 0
    (s.put (Reg.BMCm_STATE_STATE m) st).panelEvent Reg.SVC_EVENT_SLOT_STATE m

/-! ## Objects (R241, R249, R256, R257) -/

/-- An object holds a page on the cartridge of a slot. -/
def State.objOnSlot (s : State) (o : Obj) (m : Nat) : Bool := (s.heldPages o).any fun e => e.2.onSlot m

/-! ## Completion of a command (R242) -/

/-- A command completes with a status: a ring's record takes it and its signal is posted; an internal queue's submitter learns it. -/
def State.completeFls (s : State) (w : Waiter) (status : Nat) : State :=
  match w.recAddr with
  | some a =>
    let t := s.writeLogged 9 (a + 7) [BitVec.ofNat 8 status]
    t.endWork (t.heldSince s.heldSeq) (.post w.sig) (t.postSig w.sig false 1)
  | none => { s with flsDone := mapInsert s.flsDone w.token status }

/-- Several commands complete with one status. -/
def State.completeAll (s : State) (ws : List Waiter) (status : Nat) : State := ws.foldl (fun s w => s.completeFls w status) s

/-- A prefetch completes with OK (R258). -/
def State.prefetchMet (s : State) (w : Waiter) : State := (s.count Reg.FLS_DL_MET 1).completeFls w 1

/-! ## Queued moves (R251, R254) -/

/-- The moves that a predicate picks are aborted: their copies are discarded and their frames freed (R253). -/
def State.abortMoves (s : State) (p : Move → Bool) : State := { s with moves := s.moves.filter fun m => !p m }

/-! ## Drains (R262, R263) -/

/-- A page-move still has work: its page lies on the draining cartridge and in no object. -/
def State.pageMoveStands (s : State) (m slot : Nat) : Bool :=
  (match s.frameOf m with
    | some f => f.onSlot slot
    | none => false) && (s.objectOf m).isNone

/-- The relocations a drain needs: one for each object in REST with a page on the cartridge, one for each such page outside every
object; those that lost their ground go (R263). -/
def State.syncDrain (s : State) : State :=
  match s.draining with
  | none => s
  | some slot =>
    let s := s.abortMoves fun m => match m.page with
      | some p => !s.pageMoveStands p slot
      | none => false
    let objs := s.objects.filter fun o => s.objOnSlot o slot && s.moveState o.id == 0
    let s := objs.foldl (fun s o => s.queueMove (Move.of o.id .relocation)) s
    let lone := (s.pages.map (·.1)).filter fun p => s.pageMoveStands p slot && !s.moves.any fun m => m.page == some p
    lone.foldl (fun s p => s.queueMove { Move.of 0 .relocation with page := some p }) s

/-- What Flowstone decides again after a change of frames, objects or moves. -/
def State.settle (s : State) : State := s.syncDrain.makeRoom

/-- A move has a destination on the cartridge of a slot. -/
def Move.goesTo (m : Move) (slot : Nat) : Bool := m.dest.any fun e => e.2.onSlot slot

/-- A refused drain records its reason (R262); the slot is recorded unless a drain is in progress. -/
def State.refuseDrain (s : State) (m reason : Nat) : State :=
  let s := s.put Reg.FLS_DRAIN_REASON reason
  if s.draining.isSome then s else s.put Reg.FLS_DRAIN_SLOT m

/-- Why a drain is refused, 0 where it is not; the first case in the order 4, 3, 2, 1 (R262). -/
def State.drainReason (s : State) (m : Nat) : Nat :=
  if s.slotState m ≠ 3 then 4
  else if s.draining.isSome then 3
  else if s.objects.any fun o => o.pin && s.objOnSlot o m then 2
  else if s.freeBonded + s.freeCarts - s.freeCart m < s.heldOn m + s.get Reg.FLS_POLICY_DRAIN_HEADROOM_GIB * 512 then 1
  else 0

/-- A drain is accepted (R262, R263). -/
def State.acceptDrain (s : State) (m : Nat) (cmd : Option Waiter) (press : Option Nat) : State :=
  let s := ((s.put Reg.FLS_DRAIN_SLOT m).abortMoves fun v => v.goesTo m).setSlot m 4
  ({ s with drainCmd := cmd, drainPress := press }).settle

/-- The DRAIN command of the drain in progress completes, if a command asked for it. -/
def State.endDrainCmd (s : State) (status : Nat) : State :=
  let c := s.drainCmd
  let s := { s with drainCmd := none, drainPress := none }
  match c with
  | some w => s.completeFls w status
  | none => s

/-- A drain is cancelled: relocations are aborted, relocated pages stay, the slot returns to IN_SERVICE (R263); a cancel by a pin
shows and records REASON 2. -/
def State.cancelDrain (s : State) (m : Nat) (byPin : Bool) : State :=
  let s := (s.abortMoves fun v => v.kind == .relocation).setSlot m 3
  let s := if byPin then { s.put Reg.FLS_DRAIN_REASON 2 with slotCode := mapSet 0 s.slotCode m 2 } else s
  (s.endDrainCmd 6).settle

/-- A pinned object's page on the draining cartridge cancels the drain (R263). -/
def State.pinCancels (s : State) (o : Obj) : State :=
  match s.draining with
  | some m => if s.objOnSlot o m then s.cancelDrain m true else s
  | none => s

/-! ## Taking a command (R242, R243, R245) -/

/-- Reserved bits of a command record are zero (R243). -/
def flsReservedOk (ws : List Nat) : Bool :=
  recBits ws 0 15 7 == 0 && recBits ws 0 55 44 == 0 && recBits ws 1 63 48 == 0 && recBits ws 2 63 48 == 0 &&
  recBits ws 3 63 48 == 0 && recBits ws 4 63 48 == 0 && ws.getD 5 0 == 0 && ws.getD 6 0 == 0 && ws.getD 7 0 == 0

/-- A PIN of the ring, or of the internal queues, waits, or a command's write waits for a frame, so that no later command of it starts
(R240, R242). -/
def State.flsBlocked (s : State) (src : JobSrc) : Bool :=
  let mine := fun (w : Waiter) => w.recAddr.isSome == (src == .ring)
  (s.moves.any fun m => m.pins.any mine) || s.ending fun e => match e with
    | .flowstone w _ => mine w
    | _ => false

/-- Flowstone reads a record: its own reads are not counted in FLS_DIRECT (R267). -/
def State.readRecordOf (s : State) (a n : Nat) : List Byte × Bool × State :=
  let (bs, p, t) := s.read a n
  (bs, p, t.put Reg.FLS_DIRECT_COUNT (s.get Reg.FLS_DIRECT_COUNT))

/-- The next command: its words, its completion, whether its record is poisoned, and the state with it taken. -/
def State.flsFetch (s : State) (src : JobSrc) : Option (List Nat × Waiter × Bool × State) :=
  if s.flsBlocked src then none
  else match src with
    | .queue =>
      match s.flsQueue with
      | [] => none
      | q :: qs => some (q.words, ⟨none, q.token, 0, recBits q.words 3 47 0⟩, false, { s with flsQueue := qs })
    | .ring =>
      let j := (s.ring 3).taken
      if s.flag Reg.FLS_CTL_ENABLE && s.jobPosted 3 (s.get Reg.FLS_CTL_JOB_SIG) j then
        let a := ringAddr (s.get Reg.FLS_RING_BASE) (s.get Reg.FLS_RING_ENTRIES_M1) 64 j
        let (bs, p, s) := s.readRecordOf a 64
        let ws := recWords bs 8
        some (ws, ⟨some a, 0, recBits ws 0 43 32, recBits ws 3 47 0⟩, p, s.takeJob 3)
      else none

/-- Operations that name an object. -/
def flsNeedsObj (op : Nat) : Bool := op == 2 || op == 3 || op == 4 || op == 5 || op == 6 || op == 8

/-- The command at the head, where it is of operation `op`, runs `f`; a poisoned record is logged and passed over, a bad one
completes with BAD_CMD (R245). A reserved operation and a poisoned record are REGISTER's. -/
def State.runFls (s : State) (src : JobSrc) (op : Nat) (f : State → List Nat → Waiter → State) : State :=
  match s.flsFetch src with
  | none => s
  | some (ws, w, bad, t) =>
    let o := recBits ws 0 3 0
    if bad then (if op = 1 then t.logErr { sev := 2, kind := 4, source := 9, addr := w.recAddr.getD 0, obj := s.objAt (w.recAddr.getD 0) } else s)
    else if o = 0 ∨ 10 < o then (if op = 1 then t.completeFls w 2 else s)
    else if o ≠ op then s
    else if !flsReservedOk ws || (flsNeedsObj op && (t.objById (recBits ws 0 31 16)).isNone) then t.completeFls w 2
    else f t ws w

/-- The object a command names. -/
def State.cmdObj (s : State) (ws : List Nat) : Obj := (s.objById (recBits ws 0 31 16)).getD ⟨0, 0, 0, false, false, false, none⟩

/-- FLS_ENABLE (R160, R242): ENABLE rises. -/
def State.flsEnable (s : State) : State := (s.put Reg.FLS_CTL_ENABLE 1).enableRing 3 (s.get Reg.FLS_CTL_JOB_SIG)

/-- FLS_ENABLE (R242): while a step plan runs the host's write is ignored and counted (R267). -/
def execFlsEnable (s : State) : Host.Outcome State Fault Refusal :=
  .next (s.hostRaises Reg.FLS_CTL_ENABLE State.flsEnable)

/-! ## The commands (R244, R256) -/

/-- An object in its place by rising identifier. -/
def insertObj (o : Obj) (l : List Obj) : List Obj := insertBy Obj.id o l

/-- An object is created (R241, R244, R478); a pinned one on the draining cartridge cancels the drain (R263). -/
def State.flsRegister (s : State) (ws : List Nat) (w : Waiter) : State :=
  let id := recBits ws 0 31 16
  let b := recBits ws 1 47 0
  let z := recBits ws 2 47 0
  if b % pageBytes ≠ 0 ∨ z % pageBytes ≠ 0 ∨ z = 0 ∨ 2 ^ 36 < z ∨ 0x01C000000000 < b + z then s.completeFls w 2
  else if (s.objById id).isSome || (s.objects.any fun o => decide (o.base < b + z) && decide (b < o.base + o.size)) then s.completeFls w 3
  else
    let out := bit (ws.getD 0 0) 5 && s.flag Reg.GLB_ROLE_TWIN && !(s.inOwnWindow b && s.inOwnWindow (b + z - 1))
    let o : Obj := ⟨id, b, z, bit (ws.getD 0 0) 4, bit (ws.getD 0 0) 5 && !out, bit (ws.getD 0 0) 6, none⟩
    let s := if out then s.violGlb 3 0 b else s
    let s := { s with objects := insertObj o s.objects }
    let s := if o.pin then s.pinCancels o else s
    s.settle.completeFls w 1

/-- REGISTER (R244). -/
def execRegister (src : JobSrc) (s : State) : Host.Outcome State Fault Refusal := .next (s.runFls src 1 State.flsRegister)

/-- An object's moves are aborted and it is removed; the prefetches and pins that wait are cancelled (R244, R256). -/
def State.flsDeregister (s : State) (ws : List Nat) (w : Waiter) : State :=
  let o := s.cmdObj ws
  let ms := s.moves.filter fun m => m.isOf o.id
  let s := s.abortMoves fun m => m.isOf o.id
  let s := { s with objects := s.objects.filter fun x => x.id != o.id }
  ((s.completeAll (ms.flatMap fun m => m.waiters ++ m.pins) 6).settle).completeFls w 1

/-- DEREGISTER (R244). -/
def execDeregister (src : JobSrc) (s : State) : Host.Outcome State Fault Refusal := .next (s.runFls src 2 State.flsDeregister)

/-- PIN by the object's state (R256): pinned at once, at the promotion's switch, or after the abort of a demotion or relocation. -/
def State.flsPin (s : State) (ws : List Nat) (w : Waiter) : State :=
  let o := s.cmdObj ws
  if s.moveState o.id = 1 then
    { s with moves := s.moves.map fun m => if m.isOf o.id then { m with pins := m.pins ++ [w] } else m }
  else
    let s := s.abortMoves fun m => m.isOf o.id && m.kind != .promotion
    let s := s.modObj o.id fun x => { x with pin := true }
    (s.pinCancels o).settle.completeFls w 1

/-- PIN (R244). -/
def execPin (src : JobSrc) (s : State) : Host.Outcome State Fault Refusal := .next (s.runFls src 3 State.flsPin)

/-- UNPIN (R244). -/
def execUnpin (src : JobSrc) (s : State) : Host.Outcome State Fault Refusal :=
  .next (s.runFls src 4 fun s ws w => ((s.modObj (s.cmdObj ws).id fun x => { x with pin := false }).settle).completeFls w 1)

/-- The later of a stored deadline and a new one. -/
def laterOf (a : Option Nat) (d : Nat) : Option Nat := some (max (a.getD 0) d)

/-- A prefetch, the `k`-th, joins a promotion: its deadline counts, the earliest first, and its place among the commands with it (R254,
R256). -/
def Move.join (m : Move) (w : Waiter) (k : Nat) : Move :=
  let first := decide (w.deadline < m.prefetch.getD (w.deadline + 1))
  { m with waiters := m.waiters ++ [w], prefetch := if first then some w.deadline else m.prefetch, order := if first then k else m.order }

/-- PREFETCH by the object's state (R256 to R258). -/
def State.flsPrefetch (s : State) (ws : List Nat) (w : Waiter) : State :=
  let o := s.cmdObj ws
  let k := s.prefetches
  let s : State := { s.modObj o.id fun x => { x with wanted := laterOf x.wanted w.deadline } with prefetches := k + 1 }
  let st := s.moveState o.id
  if st = 2 then ((s.abortMoves fun m => m.isOf o.id).settle).prefetchMet w
  else if st = 0 ∧ s.restsBonded o = true then s.settle.prefetchMet w
  else
    let s := if s.moves.any fun m => m.isOf o.id && m.kind == MoveKind.promotion then s else s.queueMove (Move.of o.id .promotion)
    ({ s with moves := s.moves.map fun (m : Move) => if m.isOf o.id && m.kind == MoveKind.promotion then m.join w k else m }).settle

/-- PREFETCH (R257). -/
def execPrefetch (src : JobSrc) (s : State) : Host.Outcome State Fault Refusal := .next (s.runFls src 5 State.flsPrefetch)

/-- DEMOTE by the object's state (R256). -/
def State.flsDemote (s : State) (ws : List Nat) (w : Waiter) : State :=
  let o := s.cmdObj ws
  let st := s.moveState o.id
  let s := if st = 1 then { s with moves := s.moves.map fun m => if m.isOf o.id then { m with evict := true } else m }
    else if s.evictable o then s.queueDemotion o else s
  s.settle.completeFls w 1

/-- DEMOTE (R244). -/
def execDemote (src : JobSrc) (s : State) : Host.Outcome State Fault Refusal := .next (s.runFls src 6 State.flsDemote)

/-- Whether a page's mirror copy is kept (R478, R483). -/
def State.mirrorsPage (s : State) (p : Nat) : Bool := s.mirrors (p * pageBytes)

/-- Every granule of a page is requested once more (R247); on a cartridge a zero write is not sent (R265). -/
def State.warmPage (s : State) (p : Nat) : State :=
  let s := { s with heat := mapSet 0 s.heat p (satAdd 16 (mapGet 0 s.heat p) 8192) }
  if s.onCart (p * pageBytes) then s.count Reg.FLS_ELIDED_COUNT 8192 else s

/-- A page is written with zero and frees its frame, and the one a move has taken for it (R244, R247, R256, R265, R379, R381). -/
def State.releasePage (s : State) (p : Nat) : State :=
  let gs := (List.range 8192).map fun i => 8192 * p + i
  let cached := (s.snoop.map fun e => e.1 / 4).filter fun g => g / 8192 == p
  let s := (cached.eraseDups.foldl (fun s g => s.backInvalidate g true) s).warmPage p
  let s : State := { s with
    mem := memClear s.mem (p * pageBytes) pageBytes
    nonzero := s.nonzero.filter fun e => e.1 / 8192 != p
    poison := s.poison.filter fun e => e.1 / 8192 != p
    pages := mapErase s.pages p, lostPages := mapErase s.lostPages p
    moves := s.moves.map fun m => { m with dest := mapErase m.dest p } }
  if s.mirrorsPage p then { s with mirrorQ := s.mirrorQ ++ gs } else s

/-- RELEASE of a range (R244): pages of a closed peer window or of a sealed staging are left alone and the request counted (R433, R479). -/
def State.flsRelease (s : State) (ws : List Nat) (w : Waiter) : State :=
  let b := recBits ws 1 47 0
  let z := recBits ws 2 47 0
  if b % pageBytes ≠ 0 ∨ z % pageBytes ≠ 0 ∨ 0x01C000000000 < b + z then s.completeFls w 2
  else
    let ps := (List.range (z / pageBytes)).map fun i => b / pageBytes + i
    let shut := ps.filter fun p => s.peerClosed (p * pageBytes) || s.sealedAt (p * pageBytes)
    let s := match shut with
      | [] => s
      | p :: _ => s.violGlb 3 0 (p * pageBytes)
    let s := (ps.filter fun p => s.populatedPage p && !s.peerClosed (p * pageBytes) && !s.sealedAt (p * pageBytes)).foldl State.releasePage s
    s.settle.completeFls w 1

/-- RELEASE (R244). -/
def execRelease (src : JobSrc) (s : State) : Host.Outcome State Fault Refusal := .next (s.runFls src 7 State.flsRelease)

/-- The four words of a QUERY result (R246). -/
def State.queryWords (s : State) (o : Obj) : List Nat :=
  let evict := ((s.moveOf o.id).map (·.evict)).getD false
  [o.base, o.size + b2n o.pin * 2 ^ 48 + b2n o.mirror * 2 ^ 49 + b2n o.noheat * 2 ^ 50,
   s.moveState o.id + b2n evict * 2 ^ 4 + b2n (s.isWanted o) * 2 ^ 5 + s.density o % 2 ^ 16 * 2 ^ 16,
   (s.heldIn o true).length % 2 ^ 16 + (s.heldIn o false).length % 2 ^ 16 * 2 ^ 16]

/-- QUERY (R246). -/
def execQuery (src : JobSrc) (s : State) : Host.Outcome State Fault Refusal :=
  .next (s.runFls src 8 fun s ws w =>
    let a := recBits ws 4 47 0
    if a % 32 ≠ 0 then s.completeFls w 2
    else
      let t := s.writeLogged 9 a (wordsToBytes (s.queryWords (s.cmdObj ws)))
      t.endWork (t.heldSince s.heldSeq) (.flowstone w 1) (t.completeFls w 1))

/-- DRAIN (R262): accepted, or refused with REFUSED. -/
def execDrain (src : JobSrc) (s : State) : Host.Outcome State Fault Refusal :=
  .next (s.runFls src 9 fun s ws w =>
    let m := recBits ws 1 2 0
    if 5 < m then s.completeFls w 2
    else if s.drainReason m = 0 then s.acceptDrain m (some w) none
    else (s.refuseDrain m (s.drainReason m)).completeFls w 5)

/-- DRAIN_CANCEL (R263); a slot that is not draining is left alone. -/
def execDrainCancel (src : JobSrc) (s : State) : Host.Outcome State Fault Refusal :=
  .next (s.runFls src 10 fun s ws w =>
    let m := recBits ws 1 2 0
    if 5 < m then s.completeFls w 2
    else (if s.slotState m = 4 then s.cancelDrain m false else s).completeFls w 1)

/-! ## Epochs (R248, R250) -/

/-- The candidates of one epoch in turn: `free` counts frames as R250 does. -/
def State.epochPromote (h : Nat) : List Obj → Int → State → State
  | [], _, s => s
  | o :: l, free, s =>
    let need : Int := (s.heldIn o false).length
    let go := fun (free : Int) (s : State) => State.epochPromote h l (free - need) (s.queueMove (Move.of o.id .promotion))
    if need ≤ free then go free s
    else
      let vs := s.objects.filter fun v => s.evictable v && !v.noheat && decide (s.density v * (8 + h) < s.density o * 8)
      match s.takeVictims need (sortBy s.density vs) free with
      | some vs => go (free + (vs.map fun v => (s.heldPages v).length).sum) (vs.foldl State.queueDemotion s)
      | none => s

/-- The decisions at an epoch's end (R250): a promotion that has not started still counts its frames as taken. -/
def State.epochDecide (s : State) : State :=
  let cands := s.objects.filter fun o => !s.restsBonded o && s.moveState o.id == 0 && !o.pin && !o.noheat &&
    decide (s.get Reg.FLS_POLICY_PROMOTE_MIN ≤ s.density o)
  let taken := ((s.moves.filter fun m => m.kind == .promotion && !m.started).map s.promotionNeed).sum
  State.epochPromote (s.get Reg.FLS_POLICY_HYST) (sortBy (fun o => 65535 - s.density o) cands)
    ((s.freeBonded : Int) - (taken : Int)) s

/-- Every page's heat is halved (R248). -/
def halveHeat (m : Map Nat) : Map Nat := (m.map fun e => (e.1, e.2 / 2)).filter fun e => e.2 != 0

/-- The end of the first epoch that has not been dealt with: the multiple of EPOCH_US after the last one (R248). -/
def State.nextEpoch (s : State) : Nat :=
  let e := s.get Reg.FLS_POLICY_EPOCH_US
  (s.epochAt / e + 1) * e

/-- EPOCH_END (R248): once FLS_NOW has come to the end of an epoch, the decisions are made and the heat is halved, one epoch at a time. -/
def execEpochEnd (s : State) : Host.Outcome State Fault Refusal :=
  .next (
    if s.get Reg.FLS_POLICY_EPOCH_US = 0 ∨ s.nowUs < s.nextEpoch then s
    else
      let s := if s.flag Reg.FLS_POLICY_AUTO then s.epochDecide else s
      ({ s with heat := halveHeat s.heat, epochAt := s.nextEpoch }).settle)

/-! ## Moves (R251 to R254) -/

/-- Slots from one on, in turn. -/
def slotsFrom (m : Nat) : List Nat := (List.range 6).map fun i => (m + i) % 6

/-- The state with a frame counted as taken, for the choice of the next one. -/
def State.reserve (s : State) (p : Nat) (f : Frame) : State :=
  s.queueMove { Move.of 65536 .relocation with started := true, dest := [(p, f)] }

/-- Destinations page by page, each chosen by `pick` from the slot to try first; none if a page finds no frame. -/
def State.placePages (pick : State → Nat → Option (Frame × Nat)) : List Nat → Nat → State → Option (Map Frame)
  | [], _, _ => some []
  | p :: ps, at_, s =>
    match pick s at_ with
    | none => none
    | some (f, nxt) => (State.placePages pick ps nxt (s.reserve p f)).map ((p, f) :: ·)

/-- A demotion's next frame: of the first cartridge in turn that has a free one (R251). -/
def State.pickInTurn (s : State) (at_ : Nat) : Option (Frame × Nat) :=
  firstSome ((slotsFrom at_).map fun m => (s.takeCart m).map fun f => (f, (m + 1) % 6))

/-- A relocation's next frame: of the cartridge with the most free frames, else bonded (R263). -/
def State.pickRelocation (s : State) : Option (Frame × Nat) := (firstSome [s.takeBestCart, s.takeBonded]).map fun f => (f, 0)

/-- The pages a move takes away from their frames (R251). -/
def State.movePages (s : State) (m : Move) : List Nat :=
  match m.page with
  | some p => if (s.frameOf p).isSome then [p] else []
  | none =>
    match s.objById m.obj with
    | none => []
    | some o =>
      ((s.heldPages o).filter fun e => match m.kind with
        | .promotion => !e.2.isBonded
        | .demotion => e.2.isBonded
        | .relocation => (s.draining.map fun k => e.2.onSlot k).getD false).map (·.1)

/-- The destination frames of a move, if enough are free (R251, R254, R263). -/
def State.planDest (s : State) (m : Move) : Option (Map Frame) :=
  let ps := s.movePages m
  match m.kind with
  | .promotion => if s.freeBonded < ps.length then none else State.placePages (fun s _ => s.takeBonded.map fun f => (f, 0)) ps 0 s
  | .demotion => if s.freeCarts < ps.length then none else State.placePages State.pickInTurn ps ((s.bestCart none).getD 0) s
  | .relocation => if s.freeCarts + s.freeBonded < ps.length then none else State.placePages (fun s _ => s.pickRelocation) ps 0 s

/-- No running helictite job holds the object of a move, and no earlier move of the object stands before it (R254). -/
def State.mayStart (s : State) (m : Move) : Bool :=
  !m.started && (m.page.isSome ||
    (s.moveOf m.obj == some m && !((s.objById m.obj).map s.jobHolds).getD false))

/-- Queued moves in the order in which they go (R254): prefetch promotions by deadline, then the rest as queued. -/
def State.startOrder (s : State) : List Move :=
  let pre := fun (m : Move) => m.kind == .promotion && m.prefetch.isSome
  byDeadline (s.moves.filter pre) ++ s.moves.filter fun m => !pre m

/-- MOVE_START (R254): the first queued move that may start takes its destination frames. -/
def execMoveStart (s : State) : Host.Outcome State Fault Refusal :=
  .next (
    if s.held || decide (8 ≤ (s.moves.filter (·.started)).length) then s
    else match s.startOrder.find? fun m => s.mayStart m && (s.planDest m).isSome with
      | none => s
      | some m =>
        match s.planDest m with
        | none => s
        | some d => ({ s with moves := s.moves.map fun x => if x = m then { m with started := true, dest := d } else x }).settle)

/-- Granules of a page that a move transfers: Z = 0, or poisoned (R251, R252). -/
def State.liveGranules (s : State) (p : Nat) : Nat :=
  (s.nonzero.filter fun e => e.1 / 8192 == p).length +
  (s.poison.filter fun e => e.1 / 8192 == p && !mapGet false s.nonzero e.1).length

/-- A page at the switch point: to its new frame, or to ZERO where every granule has Z = 1 (R251, R253). -/
def State.switchPage (s : State) (e : Nat × Frame) : State :=
  let live := s.liveGranules e.1
  let s := (s.count Reg.FLS_MOVED_COUNT (256 * live)).count Reg.FLS_ELIDED_COUNT (8192 - live)
  { s with pages := if live = 0 then mapErase s.pages e.1 else mapInsert s.pages e.1 e.2, lostPages := mapErase s.lostPages e.1 }

/-- PENDING_EVICT is decided again at the switch (R256). -/
def State.reEvict (s : State) (id : Nat) : State :=
  match s.objById id with
  | none => s
  | some o =>
    let hotter := s.objects.any fun c => !s.restsBonded c && s.moveState c.id == 0 &&
      decide (s.density o * (8 + s.get Reg.FLS_POLICY_HYST) < s.density c * 8)
    if !o.pin && !s.isWanted o && hotter && s.moveState id == 0 && s.restsBonded o then s.queueDemotion o else s

/-- The prefetches of a move whose deadlines have come complete with LATE. -/
def State.lateOnes (s : State) (m : Move) : State :=
  (m.waiters.filter fun w => decide (w.deadline ≤ s.nowUs)).foldl (fun s w => (s.count Reg.FLS_DL_MISS 1).completeFls w 4) s

/-- The switch point of a started move (R253, R256, R258): a prefetch whose deadline has come completes with LATE, any other with OK. -/
def State.switchMove (s : State) (m : Move) : State :=
  let s := { s with moves := s.moves.erase m }
  let s := m.dest.foldl State.switchPage s
  let s := (m.waiters.filter fun w => decide (s.nowUs < w.deadline)).foldl State.prefetchMet (s.lateOnes m)
  let s := if m.pins = [] then s else s.modObj m.obj fun o => { o with pin := true }
  let s := s.completeAll m.pins 1
  if m.evict then s.reEvict m.obj else s

/-- MOVE_SWITCH (R253): the `k`-th move in flight has copied everything and switches. -/
def execMoveSwitch (k : Fin 8) (s : State) : Host.Outcome State Fault Refusal :=
  .next (
    if s.held then s
    else match (s.moves.filter (·.started))[k.val]? with
      | none => s
      | some m => (s.switchMove m).settle)

/-! ## Deadlines (R257, R258) -/

/-- A move without its prefetches whose deadlines have come. -/
def Move.dropLate (now : Nat) (m : Move) : Move := { m with waiters := m.waiters.filter fun w => decide (now < w.deadline) }

/-- PREFETCH_LATE (R258): prefetches of an object whose deadlines FLS_NOW has reached. -/
def execPrefetchLate (obj : BitVec 16) (s : State) : Host.Outcome State Fault Refusal :=
  .next (
    let ms := s.moves.filter fun m => m.isOf obj.toNat
    let t := { s with moves := s.moves.map fun m => if m.isOf obj.toNat then m.dropLate s.nowUs else m }
    ms.foldl State.lateOnes t)

/-- WANTED_EXPIRE (R257): an object whose latest deadline is past by KEEP_US is wanted no more. -/
def execWantedExpire (obj : BitVec 16) (s : State) : Host.Outcome State Fault Refusal :=
  .next (
    match s.objById obj.toNat with
    | none => s
    | some o => if o.wanted.isSome && !s.isWanted o then (s.modObj o.id fun x => { x with wanted := none }).settle else s)

/-! ## The end of a drain, and the loss of a cartridge (R263, R264) -/

/-- DRAIN_COMPLETE (R263): no page holds a frame on the cartridge; its frames go and the slot becomes SAFE. -/
def execDrainComplete (s : State) : Host.Outcome State Fault Refusal :=
  .next (
    match s.draining with
    | none => s
    | some m =>
      if s.held || s.heldOn m != 0 then s
      else ((s.setSlot m 5).endDrainCmd 1).settle)

/-- Every granule of a page whose frame lay on the lost cartridge reads poisoned; the page holds no frame, or its move's (R264). -/
def State.losePage (s : State) (p : Nat) : State :=
  let s := { s with pages := mapErase s.pages p, lostPages := mapSet false s.lostPages p true }
  (List.range 8192).foldl (fun s i => s.poisonAt (8192 * p + i)) s

/-- The error-log entries of a lost cartridge (R264). -/
def State.logLoss (s : State) (objs : List Obj) (lone : List Nat) : State :=
  if objs = [] ∧ lone = [] then s.logErr { sev := 0, kind := 5, source := 9 }
  else
    let s := objs.foldl (fun s o => s.logErr { sev := 1, kind := 5, source := 9, addr := o.base, obj := o.id }) s
    match lone with
    | [] => s
    | p :: _ => s.logErr { sev := 1, kind := 5, source := 9, addr := p * pageBytes }

/-- A cartridge is lost while IN_SERVICE or DRAINING (R264): moves to it are aborted, moves from it switch with their copies
poisoned, its pages are lost and its slot becomes FAILED. -/
def State.loseCartridge (s : State) (m : Nat) : State :=
  let was := s.slotState m == 4
  let gone := (s.pages.filter fun e => e.2.onSlot m).map (·.1)
  let objs := s.objects.filter fun o => gone.any o.covers
  let lone := gone.filter fun p => (s.objectOf p).isNone
  let s := s.abortMoves fun v => v.goesTo m || (!v.started && v.kind == .relocation)
  let s := gone.foldl State.losePage s
  let s := s.countSat (Reg.BMCm_ERR_POISONED m) (8192 * gone.length)
  let s := (s.moves.filter fun v => v.started && v.dest.any fun e => gone.contains e.1).foldl State.switchMove s
  let s := (s.setSlot m 6).logLoss objs lone
  (if was then s.endDrainCmd 7 else s).settle

/-- CARTRIDGE_FAILURE (R264): the cartridge loses its power or its channels. -/
def execCartridgeFailure (m : Fin 6) (s : State) : Host.Outcome State Fault Refusal :=
  .next (if s.slotState m.val = 3 ∨ s.slotState m.val = 4 then s.loseCartridge m.val else s)

end Sys2Proof.Machine
end

