-- ==== Sys2Proof/Machine/Elementary.lean ====
section
/-! DEFINITION. exp, ln and the gate weights (R115, R167): their exact values enclosed in fixed point, and the bounds that the results keep to. -/

namespace Sys2Proof.Machine

open Sys2Proof

/-! ## Enclosures

An exact real is held as `(a, f)`: it lies within `2^32 * 2^f` of `a * 2^f`. Fixed point has 192 fraction bits, so that every FP32 value is
held exactly and an error of `2^32` units lies 136 bits below one ulp. -/

/-- Fraction bits of the fixed point. -/
def fixBits : Nat := 192

/-- `m * 2^e` in fixed point; exact from `e = -192` on. -/
def toFix (m : Nat) (e : Int) : Nat :=
  let q := e + fixBits
  if 0 ≤ q then m * 2 ^ q.toNat else m / 2 ^ (-q).toNat

/-- The sum of `t k / (2k + 1)` over `n` terms, where each `t` is the one before it times `z2` (a factor in fixed point). -/
def oddSeries (z2 : Nat) : Nat → Nat → Nat → Nat
  | 0, _, _ => 0
  | n + 1, k, t => t / (2 * k + 1) + oddSeries z2 n (k + 1) (t * z2 / 2 ^ fixBits)

/-- ln of `(1 + z) / (1 - z)` for a `z` of at most 1/3 in fixed point: twice the odd powers of `z` over their exponents. -/
def lnRatio (z : Nat) : Nat := 2 * oddSeries (z * z / 2 ^ fixBits) 64 0 z

/-- ln 2 in fixed point. -/
def lnTwo : Nat := lnRatio (2 ^ fixBits / 3)

/-- The sum of `r^k / k!` over `n` terms from the `k`-th on, `t`, in fixed point. -/
def expSeries (r : Nat) : Nat → Nat → Nat → Nat
  | 0, _, _ => 0
  | n + 1, k, t => t + expSeries r n (k + 1) (t * r / 2 ^ fixBits / (k + 1))

/-- exp of the number that `x` holds in fixed point: the power of two below it, and a fraction from 1 to 2. -/
def expFix (x : Int) : Nat × Int :=
  let k := x / (lnTwo : Int)
  (expSeries (x - k * lnTwo).toNat 56 0 (2 ^ fixBits), k - fixBits)

/-- ln of `m * 2^e` for a nonzero `m`, in fixed point. -/
def lnFix (m : Nat) (e : Int) : Int :=
  let y := toFix m (-(Nat.log2 m : Int))
  topExp m e * lnTwo + lnRatio ((y - 2 ^ fixBits) * 2 ^ fixBits / (y + 2 ^ fixBits))

/-- `n * 2^g` lies within `k` ulp, of the binade of the exact value, of every number that `(a, f)` may hold. -/
def withinUlp (k a : Nat) (f : Int) (n : Nat) (g : Int) : Bool :=
  let u := topExp (a - 2 ^ 32) f - 23
  let q := min (min f g) u
  let x := scaleTo q a f
  let y := scaleTo q n g
  decide ((if x ≤ y then y - x else x - y) + scaleTo q (2 ^ 32) f ≤ scaleTo q k u)

/-- The result of a library operation whose exact value is `(a, f)` with sign `neg` (R115, R109): infinity from 2^128 on, flushed below
2^-126, otherwise the candidate where it keeps to `k` ulp, and the rounded value where it does not. -/
def library (k : Nat) (neg : Bool) (a : Nat) (f : Int) (cand : Lane) : Lane × Flags :=
  if a = 0 ∨ topExp a f < -126 then (zero32 neg, ⟨false, false, true⟩)
  else if 128 ≤ topExp a f then (inf32 neg, .none)
  else match val32 cand with
    | .fin neg' n g => if neg' = neg ∧ withinUlp k a f n g then approx cand else roundFp32 (.fin neg a f)
    | _ => roundFp32 (.fin neg a f)

/-! ## vexp and vlog (R115) -/

/-- exp of a finite nonzero number: from a magnitude of 2^10 on it lies beyond every FP32 value. -/
def expVal (neg : Bool) (m : Nat) (e : Int) : Nat × Int :=
  if 10 ≤ topExp m e then (if neg then (0, 0) else (1, 2 ^ 10))
  else expFix (if neg then -(toFix m e : Int) else toFix m e)

/-- vexp (R115): the special values; otherwise the free approximation of Config where it keeps to the bound of two ulp. -/
def fexp (x : Lane) : Lane × Flags :=
  match val32 x with
  | .nan => (qnan32, .none)
  | .inf neg => if neg then (zero32 false, .none) else (inf32 false, .none)
  | .fin neg m e =>
    if m = 0 then (0x3F800000#32, .none)
    else
      let (a, f) := expVal neg m e
      library 2 false a f (Config.exp x)

/-- vlog (R115). ln 1 is zero, no normal value, and no bound holds there: its result is free. -/
def flog (x : Lane) : Lane × Flags :=
  match val32 x with
  | .nan => (qnan32, .none)
  | .inf neg => if neg then (qnan32, .inv) else (inf32 false, .none)
  | .fin neg m e =>
    if m = 0 then (inf32 true, .none)
    else if neg then (qnan32, .inv)
    else if x = 0x3F800000#32 then approx (Config.log x)
    else
      let l := lnFix m e
      library 2 (decide (l < 0)) l.natAbs (-fixBits) (Config.log x)

/-! ## Gate weights (R167) -/

/-- exp of a finite value that is not positive. -/
def expBelow : FVal → Nat × Int
  | .fin _ m e => if m = 0 then (2 ^ fixBits, -fixBits) else expVal true m e
  | _ => (0, 0)

/-- The larger of two finite values. -/
def maxVal (a b : FVal) : FVal := if ltVal a b then b else a

/-- The sigmoid of `l`, divided by exp of `m`, which is not above `l` where `l` is negative: 1 / (1 + exp(-l)), or
exp(l - m) / (1 + exp(l)). -/
def sigmoidOver (m l : FVal) : Nat × Int :=
  match l with
  | .fin neg n e =>
    let (b, g) := expBelow (.fin true n e)
    let den := 2 ^ fixBits + toFix b g
    if neg then
      let (a, f) := expBelow (addVal l (negVal m)).1
      (a * 2 ^ fixBits / den, f)
    else (2 ^ (2 * fixBits) / den, -fixBits)
  | _ => (0, 0)

/-- A share of a sum. -/
def shareOf (x : Nat × Int) (l : List (Nat × Int)) : Nat × Int :=
  let top := l.foldl (fun t y => if y.1 = 0 then t else max t y.2) x.2
  let sum := l.foldl (fun t y => t + y.1 / 2 ^ (top - y.2).toNat) 0
  (x.1 * 2 ^ fixBits / sum, x.2 - top - fixBits)

/-- A gate weight's exact value (R167): softmax over the eligible logits, or over the selected ones alone under RENORM; sigmoid, divided by
the sum of the selected sigmoids under RENORM. -/
def gateVal (sigmoid renorm : Bool) (el sel : List FVal) (l : FVal) : Nat × Int :=
  if sigmoid then
    if renorm then
      let m := sel.foldl maxVal l
      let m := if ltVal m (.fin false 0 0) then m else .fin false 0 0
      shareOf (sigmoidOver m l) (sel.map (sigmoidOver m))
    else sigmoidOver (.fin false 0 0) l
  else
    let xs := if renorm then sel else el
    let m := xs.foldl maxVal l
    let w := fun x => expBelow (addVal x (negVal m)).1
    shareOf (w l) (xs.map w)

/-- A gate weight (R167): the free approximation of Config where it keeps to the bound of four ulp. -/
def gateOf (sigmoid renorm : Bool) (lt : Nat) (el sel : List Nat) (x : Nat) : Lane :=
  let (a, f) := gateVal sigmoid renorm (el.map (decodeElem lt)) (sel.map (decodeElem lt)) (decodeElem lt x)
  (library 4 false a f (Config.gate sigmoid renorm lt el sel x)).1

end Sys2Proof.Machine
end

