-- ==== Sys2Proof/Machine/Operands.lean ====
section
/-! DEFINITION. The operand forms of the chamber's instructions: scalar and local operands (R41, R48, R496), descriptors and their traversal (R133 to R148), elements in memory (R101, R139), and the region table (R151, R152). -/

namespace Sys2Proof.Machine

open Sys2Proof

/-! ## Registers of a chamber -/

/-- A scalar register (R24). -/
def Chamber.sreg (c : Chamber) (i : BitVec 5) : Word := c.sregs.toList.getD i.toNat 0

/-- A scalar register written. -/
def Chamber.setS (c : Chamber) (i : BitVec 5) (x : Word) : Chamber :=
  { c with sregs := c.sregs.set i.toNat x (by have := i.isLt; omega) }

/-- A vector register. -/
def Chamber.vreg (c : Chamber) (i : BitVec 5) : Lanes := c.vregs.toList.getD i.toNat (Vector.replicate 128 0)

/-- A vector register written. -/
def Chamber.setV (c : Chamber) (i : BitVec 5) (x : Lanes) : Chamber :=
  { c with vregs := c.vregs.set i.toNat x (by have := i.isLt; omega) }

/-- A descriptor register. -/
def Chamber.dreg (c : Chamber) (i : BitVec 4) : BitVec 1024 := c.dregs.toList.getD i.toNat 0

/-- A descriptor register written. -/
def Chamber.setD (c : Chamber) (i : BitVec 4) (x : BitVec 1024) : Chamber :=
  { c with dregs := c.dregs.set i.toNat x (by have := i.isLt; omega) }

/-- A predicate; p0 reads as 1 always (R24). -/
def Chamber.pred (c : Chamber) (i : BitVec 3) : Bool := i == 0 || c.preds.getLsbD i.toNat

/-- A predicate written; a write to p0 is discarded (R24). -/
def Chamber.setP (c : Chamber) (i : BitVec 3) (b : Bool) : Chamber :=
  if i = 0 then c
  else { c with preds := (c.preds &&& ~~~(1#8 <<< i.toNat)) ||| ((BitVec.ofBool b).setWidth 8 <<< i.toNat) }

/-- A guard field: the predicate it names, exclusive-ORed with NEG (R31). -/
def Chamber.guard (c : Chamber) (g : BitVec 4) : Bool := c.pred (g.setWidth 3) != g.getLsbD 3

/-- A local address formed from a scalar and a sign-extended immediate: the full value, never wrapped (R496). -/
def Chamber.laddr (c : Chamber) (sa : BitVec 5) (imm : BitVec 32) : Int := ((c.sreg sa).toNat : Int) + imm.toInt

/-- A byte range lies within local memory (R496). -/
def inLocal (a : Int) (n : Nat) : Bool := decide (0 ≤ a) && decide (a + n ≤ 0x1000000)

/-! ## Descriptors (R133, R134) -/

/-- Word `w` of a descriptor. -/
def dWord (d : BitVec 1024) (w : Nat) : Nat := (d.extractLsb' (64 * w) 64).toNat

def dType (d : BitVec 1024) : Nat := bits (dWord d 0) 51 48
def dRank (d : BitVec 1024) : Nat := bits (dWord d 0) 54 52
def dPadw (d : BitVec 1024) : Bool := bit (dWord d 0) 56
def dList (d : BitVec 1024) : Bool := bit (dWord d 0) 57
def dList2 (d : BitVec 1024) : Bool := dList d && bit (dWord d 0) 58
def dLane (d : BitVec 1024) : Bool := bit (dWord d 0) 59
def dListDim (d : BitVec 1024) : Nat := bits (dWord d 0) 62 60
def dListAddr (d : BitVec 1024) : Nat := bits (dWord d 1) 47 6 * 64
def dPadLo (d : BitVec 1024) (i : Nat) : Nat := bits (dWord d 3) (8 * i + 7) (8 * i)
def dPadHi (d : BitVec 1024) (i : Nat) : Nat := bits (dWord d 4) (8 * i + 7) (8 * i)
def dExt (d : BitVec 1024) (i : Nat) : Nat := bits (dWord d (5 + i)) 23 0 + 1
def dStride (d : BitVec 1024) (i : Nat) : Int := signedOf 32 (bits (dWord d (5 + i)) 63 32)

/-- BASE with the bits below the element size ignored (R134). -/
def dBase (d : BitVec 1024) : Nat :=
  let b := bits (dWord d 0) 47 0
  match typeBits (dType d) with
  | 32 => b / 4 * 4
  | 16 => b / 2 * 2
  | _ => b

/-- PAD_VALUE, right-aligned to the element's width. -/
def dPadValue (d : BitVec 1024) : Nat := bits (dWord d 2) 31 0 % 2 ^ typeBits (dType d)

/-- Dimension `i` is listed (R136). -/
def dListed (d : BitVec 1024) (i : Nat) : Bool := dList d && (i == dListDim d || (dList2 d && i == dListDim d + 1))

/-- A descriptor for which an operation transfers nothing (R135). -/
def dBad (d : BitVec 1024) : Bool :=
  !typeOk (dType d) || dRank d == 0 || dRank d == 7 || (dList d && decide (dRank d ≤ dListDim d)) ||
  (dList2 d && decide (dRank d ≤ dListDim d + 1))

/-- Padding on a listed dimension (R137). -/
def dPadListed (d : BitVec 1024) : Bool :=
  (List.range 6).any fun i => dListed d i && (dPadLo d i != 0 || dPadHi d i != 0)

/-- n[i] of R136, with the list's COUNT. -/
def dN (d : BitVec 1024) (count i : Nat) : Nat :=
  if dRank d ≤ i then 1
  else if dList d && i == dListDim d then min count (dExt d i)
  else if dListed d i then 1
  else dExt d i

/-- lo[i] of R136. -/
def dLo (d : BitVec 1024) (i : Nat) : Nat := if dRank d ≤ i ∨ dListed d i then 0 else dPadLo d i

/-- hi[i] of R136. -/
def dHi (d : BitVec 1024) (i : Nat) : Nat := if dRank d ≤ i ∨ dListed d i then 0 else dPadHi d i

/-- Positions of dimension `i`, pads included. -/
def dSpan (d : BitVec 1024) (count i : Nat) : Nat := dN d count i + dLo d i + dHi d i

/-- Positions below dimension `i` in one step of it. -/
def dBelow (d : BitVec 1024) (count : Nat) : Nat → Nat
  | 0 => 1
  | i + 1 => dBelow d count i * dSpan d count i

/-- All positions of a traversal. -/
def dTotal (d : BitVec 1024) (count : Nat) : Nat := dBelow d count 6

/-- Coordinate i[k] of position `p` (R136). -/
def dCoord (d : BitVec 1024) (count p k : Nat) : Int :=
  (p / dBelow d count k % dSpan d count k : Nat) - (dLo d k : Int)

/-- A visit of a traversal (R136). -/
structure Visit where
  pad    : Bool
  skip   : Bool
  broken : Bool
  byte   : Nat
  nibble : Nat
  deriving DecidableEq, Repr

/-- The visit of position `p` (R136); `broken` where it needs a list entry that was poisoned (R147). -/
def dVisit (d : BitVec 1024) (count : Nat) (entries : List (Option Nat)) (p : Nat) : Visit :=
  let i := fun k => dCoord d count p k
  let pad := (List.range 6).any fun k => decide (i k < 0) || decide ((dN d count k : Int) ≤ i k)
  let ent := if dList d then entries.getD (i (dListDim d)).toNat (some 0) else some 0
  let e := ent.getD 0
  let c := fun k =>
    if dList d && k == dListDim d then (bits e 23 0 : Int)
    else if dList2 d && k == dListDim d + 1 then (bits e 47 24 : Int)
    else i k
  let off : Int := (List.range 6).foldl (fun x k => x + c k * dStride d k) 0
  let byteOff : Int := off * (typeBits (dType d) : Int) / 8
  { pad := pad, skip := dList d && !bit e 63, broken := ent.isNone
    byte := (((dBase d : Int) + byteOff) % 2 ^ 48).toNat, nibble := (off % 2).toNat }

/-! ## Elements in memory (R101, R139) -/

/-- An element in a byte list at byte `o`, nibble `nib`. -/
def elemAt (t : Nat) (bs : List Byte) (o nib : Nat) : Nat :=
  match typeBits t with
  | 4 => (bs.getD o 0).toNat / 16 ^ nib % 16
  | w => leNat ((bs.drop o).take (w / 8))

/-- A byte list with bytes replaced from offset `o`. -/
def patch (bs : List Byte) (o : Nat) (new : List Byte) : List Byte := bs.take o ++ new ++ bs.drop (o + new.length)

/-- A byte list with an element replaced. -/
def elemPut (t : Nat) (bs : List Byte) (o nib x : Nat) : List Byte :=
  match typeBits t with
  | 4 => patch bs o [BitVec.ofNat 8 (setBits (bs.getD o 0).toNat (4 * nib + 3) (4 * nib) x)]
  | w => patch bs o (leBytes (w / 8) x)

/-- The last local byte of position `p` from local address `la` (R139, R140). -/
def localEnd (d : BitVec 1024) (la p : Nat) : Nat :=
  if dLane d then la + 4 * p + 3
  else match typeBits (dType d) with
    | 4 => la + p / 2
    | w => la + p * (w / 8) + w / 8 - 1

/-- The source element of local position `p` (R139). -/
def localElem (d : BitVec 1024) (m : Memory) (la p : Nat) : Nat :=
  if dLane d then memNat m (la + 4 * p) 4 % 2 ^ typeBits (dType d)
  else match typeBits (dType d) with
    | 4 => (memByte m (la + p / 2)).toNat / 16 ^ (p % 2) % 16
    | w => memNat m (la + p * (w / 8)) (w / 8)

/-- Local memory with local position `p` written (R139). -/
def localPut (d : BitVec 1024) (m : Memory) (la p x : Nat) : Memory :=
  if dLane d then memWrite m (la + 4 * p) (leBytes 4 x)
  else match typeBits (dType d) with
    | 4 => memSet m (la + p / 2) (BitVec.ofNat 8 (setBits (memByte m (la + p / 2)).toNat (4 * (p % 2) + 3) (4 * (p % 2)) x))
    | w => memWrite m (la + p * (w / 8)) (leBytes (w / 8) x)

/-! ## The region table (R151, R152) -/

/-- The lowest-numbered region entry that an address matches (R151). -/
def State.regionOf (s : State) (n x : Nat) : Option Nat :=
  firstBelow 256 fun i => s.flag (Reg.CHn_RGNi_HI_VALID n i) && decide (s.get (Reg.CHn_RGNi_LO_BASE n i) ≤ x / 2 ^ 16)
    && decide (x / 2 ^ 16 ≤ s.get (Reg.CHn_RGNi_LO_LIMIT n i))

/-- The region table's answer to a request (R152). -/
inductive Region where
  | ok (a : Nat)
  | noMatch
  | denied
  deriving DecidableEq, Repr

/-- A request for read or write access to an address, translated or refused (R151, R152). -/
def State.region (s : State) (n : Nat) (rd wr : Bool) (x : Nat) : Region :=
  match s.regionOf n x with
  | none => .noMatch
  | some i =>
    if (rd && !s.flag (Reg.CHn_RGNi_HI_RD n i)) || (wr && !s.flag (Reg.CHn_RGNi_HI_WR n i)) then .denied
    else .ok (((x : Int) - s.get (Reg.CHn_RGNi_LO_BASE n i) * 2 ^ 16 + s.get (Reg.CHn_RGNi_HI_TARGET n i) * 2 ^ 16) % 2 ^ 48).toNat

/-- A refused request is counted once (R152, R154). -/
def State.countRegion (s : State) (n : Nat) (r : Region) (x : Nat) : State :=
  match r with
  | .ok _ => s
  | .noMatch => s.violCh n 1 x
  | .denied => s.violCh n 2 x

/-- A chamber unit's read of the granule of an address, through the region table: its 256 bytes, its poison, and whether the
region table let it through. -/
def State.chGranule (s : State) (n x : Nat) : List Byte × Bool × Bool × State :=
  let g := x / 256 * 256
  match s.region n true false g with
  | .ok a =>
    let (b, p, s) := s.readIn a 256
    (b, p, true, s)
  | r => (zeroBytes 256, false, false, s.countRegion n r x)

/-- A chamber unit's read of a byte range through the region table (coder, lists): bytes, poison, all regions good. -/
def State.chReadFuel : Nat → State → Nat → Nat → Nat → List Byte × Bool × Bool × State
  | 0, s, _, _, _ => ([], false, true, s)
  | fuel + 1, s, n, x, len =>
    if len = 0 then ([], false, true, s)
    else
      let k := min len (256 - x % 256)
      let (b, p, ok, s) := s.chGranule n x
      let (bs, ps, oks, s) := State.chReadFuel fuel s n (x + k) (len - k)
      ((b.drop (x % 256)).take k ++ bs, p || ps, ok && oks, s)

/-- A read of `len` bytes at a chamber address. -/
def State.chRead (s : State) (n x len : Nat) : List Byte × Bool × Bool × State := State.chReadFuel (len / 256 + 2) s n x len

/-- A chamber unit's write of a byte range through the region table. -/
def State.chWriteFuel : Nat → State → Nat → Nat → List Byte → State
  | 0, s, _, _, _ => s
  | fuel + 1, s, n, x, bs =>
    if bs = [] then s
    else
      let k := 256 - x % 256
      let s := match s.region n false true x with
        | .ok a => s.writeLogged 7 a (bs.take k)
        | r => s.countRegion n r x
      State.chWriteFuel fuel s n (x + k) (bs.drop k)

/-- A write at a chamber address. -/
def State.chWrite (s : State) (n x : Nat) (bs : List Byte) : State := State.chWriteFuel (bs.length / 256 + 2) s n x bs

end Sys2Proof.Machine
end

