-- ==== Sys2Proof/Machine/Issue.lean ====
section
/-! DEFINITION. The issue of a bundle (R27 to R49, R60, R496): decode checks, waits, precise causes, and what each slot does. -/

namespace Sys2Proof.Machine

open Sys2Proof

/-! ## Chamber status, halts and flags -/

/-- CHn_STATUS.STATE (R56): 0 OFF, 1 IDLE, 2 RUN, 3 WAIT, 4 HALT, 5 HOLD, 6 DOZE. -/
def State.chState (s : State) (n : Nat) : Nat := s.get (Reg.CHn_STATUS_STATE n)

/-- The state of a chamber but for Doze: in Doze, the state that it held (R453). -/
def State.awakeState (s : State) (n : Nat) : Nat := if s.chState n = 6 then (s.ch n).savedState else s.chState n

/-- CHn_STATUS.PC. -/
def State.chPc (s : State) (n : Nat) : Nat := s.get (Reg.CHn_STATUS_PC n)

/-- A cause that is no failure: DONE or STOPPED (R60). -/
def quietCause (c : Nat) : Bool := c == 0x01 || c == 0x0A

/-- A halt is recorded; a failure replaces DONE or STOPPED, and nothing replaces a failure (R60). -/
def Chamber.recordHalt (c : Chamber) (h : HaltRec) : Chamber :=
  match c.halt with
  | none => { c with halt := some h }
  | some o => if quietCause o.cause && !quietCause h.cause then { c with halt := some { h with nextPc := o.nextPc } } else c

/-- A halt recorded for chamber `n`. -/
def State.halt (s : State) (n : Nat) (h : HaltRec) : State := s.modCh n fun c => c.recordHalt h

/-- An imprecise failure: issue would have continued at the current PC (R60). -/
def State.fail (s : State) (n cause pc tag : Nat) (addr : Nat := 0) : State :=
  s.halt n { cause := cause, faultPc := pc, nextPc := s.chPc n, tag := tag, slot := 0, source := 3, addr := addr, row := 0
             found := 0, expected := 0 }

/-- The sticky flags that an operation raises, and the ARITH halt of a trapped one (R127, R128). -/
def State.raise (s : State) (n pc tag : Nat) (f : Flags) : State :=
  let s := if f.invalid then s.put (Reg.CHn_EXC_INVALID n) 1 else s
  let s := if f.overflow then s.put (Reg.CHn_EXC_OVERFLOW n) 1 else s
  let s := if f.flush then s.put (Reg.CHn_EXC_FLUSH n) 1 else s
  if (f.invalid && s.flag (Reg.CHn_EXC_TRAP_INVALID n)) || (f.overflow && s.flag (Reg.CHn_EXC_TRAP_OVERFLOW n))
      || (f.flush && s.flag (Reg.CHn_EXC_TRAP_FLUSH n))
  then s.fail n 0x07 pc tag else s

/-- The bank or memory with the highest corrected-error count, the lowest number on ties (R26). -/
def worstBank (m : Map Nat) : Nat :=
  (List.range 33).foldl (fun b i => if mapGet 0 m b < mapGet 0 m i then i else b) 0

/-- The local-memory bank of a byte address: its bits [10:6] (R25). -/
def lmemBank (a : Nat) : Nat := a / 64 % 32

/-- An access of `n` bytes from local address `a` touches a bank (R25). -/
def touchesBank (a n b : Nat) : Bool := (List.range (cdiv (a % 64 + n) 64)).any fun i => lmemBank (a / 64 * 64 + 64 * i) == b

/-- An error that an access to some local byte ranges can meet (R25, R26): it lies in a bank that one of them touches, or, where a
bundle is fetched, in bundle memory. -/
def upsetMeets (u : Upset) (fetch : Bool) (rs : List (Nat × Nat)) : Bool :=
  if u.bank.val = 32 then fetch else rs.any fun r => touchesBank r.1 r.2 u.bank.val

/-- One ECC error in local or bundle memory (R26): corrected and counted, or HWFAULT; 1,024 corrected errors mark the chamber for
retirement (R67). `tag` is that of the operation, 0 for a bundle's own access. -/
def State.upset (s : State) (n pc tag : Nat) (u : Upset) : State :=
  if u.double then (s.countSat (Reg.CHn_LMEM_ERR_UNCORRECTED n) 1).fail n 0x09 pc tag
  else
    let c := s.ch n
    let m := mapSet 0 c.errCount u.bank.val (satAdd 16 (mapGet 0 c.errCount u.bank.val) 1)
    let w := worstBank m
    let s := (s.setCh n { c with errCount := m }).puts
      [(Reg.CHn_LMEM_ERR_WORST_BANK n, w), (Reg.CHn_LMEM_ERR_CORRECTED n, mapGet 0 m w)]
    if 1024 ≤ mapGet 0 m w then s.put (Reg.CHn_STATUS_RETIRE_PENDING n) 1 else s

/-- The ECC errors that an access finds, in order. -/
def State.upsets (s : State) (n pc tag : Nat) : List Upset → State
  | [] => s
  | u :: us => (s.upset n pc tag u).upsets n pc tag us

/-- One ECC error in accumulator memory or a weight buffer (R94); of several double-bit errors of an array before a chamber reset, ECC_ROW
names the latest (log entry 77). -/
def State.accUpset (s : State) (n pc tag : Nat) (u : AccUpset) : State :=
  if u.double then
    ((s.countSat (Reg.CHn_ACC_ERR_UNCORRECTED n) 1).puts
      (if u.arrB then [(Reg.CHn_TSW_B_ECC n, 1), (Reg.CHn_TSW_B_ECC_ROW n, u.row.toNat)]
       else [(Reg.CHn_TSW_A_ECC n, 1), (Reg.CHn_TSW_A_ECC_ROW n, u.row.toNat)])).fail n 0x09 pc tag
  else s.countSat (Reg.CHn_ACC_ERR_CORRECTED n) 1

/-- An error that an access meets which uses some physical rows of an array (R94). -/
def accMeets (u : AccUpset) (b : Bool) (rows : List Nat) : Bool := u.arrB == b && rows.contains u.row.toNat

/-- The accumulator ECC errors that an access finds, in order. -/
def State.accUpsets (s : State) (n pc tag : Nat) : List AccUpset → State
  | [] => s
  | u :: us => (s.accUpset n pc tag u).accUpsets n pc tag us

/-! ## Posts (R50 to R53) -/

/-- A post takes effect: on a local word, or as a POST packet to the device at another node (R50, R53). -/
def State.postTo (s : State) (dev cc sig : Nat) (set : Bool) (v : Word) : State :=
  if dev = 0xFF then s.postSig sig set v.toNat
  else s.send 0 { Packet.blank .post with
    vl := cc, src := s.get Reg.HGP0_NODE_NODE, dst := dev, psig := sig, set := set, value := v.toNat }

/-- Whether an asynchronous operation writes memory: what a post and a fence wait for (R39, R52). -/
def AKind.stores : AKind → Bool
  | .ldT => false
  | .ldW => false
  | _ => true

/-- A store-like operation issued before `seq` is outstanding. -/
def Chamber.storesBefore (c : Chamber) (seq : Nat) : Bool := c.ops.any fun o => o.kind.stores && decide (o.seq < seq)

/-- The held posts whose earlier stores are all visible take effect, in issue order (R52, R53). -/
def State.releasePosts (s : State) (n : Nat) : List HeldPost → State
  | [] => s
  | p :: ps =>
    if (s.ch n).storesBefore p.seq then s
    else
      let s := s.modCh n fun c => { c with posts := c.posts.drop 1 }
      (s.postTo p.dev.toNat p.cc.toNat p.sig.toNat p.set p.value).releasePosts n ps

/-- The held posts of a chamber are tried. -/
def State.tryPosts (s : State) (n : Nat) : State := s.releasePosts n (s.ch n).posts

/-! ## Decode checks (R30) -/

/-- The scalar, predicate, descriptor or vector register that the S slot names as its destination. -/
def sDest (op : BitVec 8) (o : SOps) : Option Nat :=
  let x := op.toNat
  if (1 ≤ x ∧ x ≤ 0x0D) ∨ x = 0x24 then some o.dst.toNat
  else if (0x10 ≤ x ∧ x ≤ 0x15) ∨ (0x18 ≤ x ∧ x ≤ 0x1A) then some (32 + o.dst.toNat % 8)
  else if x = 0x20 ∨ x = 0x21 then some (64 + o.dst.toNat % 16)
  else none

/-- The register that the L slot names as its destination. -/
def lDest (op : BitVec 8) (o : LOps) : Option Nat :=
  match op.toNat with
  | 1 => some o.dst.toNat
  | 2 => some (96 + o.dst.toNat)
  | 3 => some (64 + o.dsc.toNat)
  | _ => none

/-- The vector register that the V slot names as its destination. -/
def vDest (op : BitVec 8) (o : VOps) : Option Nat :=
  if op = 0 ∨ op = 0x28 then none else some (96 + o.vd.toNat)

def cOpOk (op : BitVec 8) : Bool := let x := op.toNat; x ≤ 5 || (8 ≤ x && x ≤ 0x0D)
def sOpOk (op : BitVec 8) : Bool :=
  let x := op.toNat
  x ≤ 0x0D || (0x10 ≤ x && x ≤ 0x15) || (0x18 ≤ x && x ≤ 0x1A) || x == 0x20 || x == 0x21 || x == 0x24
def lOpOk (op : BitVec 8) : Bool := op.toNat ≤ 5
def mOpOk (op : BitVec 8) : Bool := op.toNat ≤ 2
def vOpOk (op : BitVec 8) : Bool :=
  let x := op.toNat
  x ≤ 6 || (8 ≤ x && x ≤ 0x0C) || (0x10 ≤ x && x ≤ 0x12) || (0x14 ≤ x && x ≤ 0x16) || (0x18 ≤ x && x ≤ 0x1B)
    || (0x20 ≤ x && x ≤ 0x22) || x == 0x28 || x == 0x29 || x == 0x2C
def tOpOk (op : BitVec 8) : Bool := op.toNat ≤ 8

/-- A type code is an mma operand type (R38). -/
def mmaType (t : BitVec 4) : Bool := 1 ≤ t.toNat && t.toNat ≤ 4

/-- The lowest-numbered slot that is a source of ILLEGAL, whatever the guards (R30). -/
def illegalSlot (b : Bundle) : Option Nat :=
  let dS := sDest b.sop b.s
  let dL := lDest b.lop b.l
  let dV := vDest b.vop b.v
  if !cOpOk b.cop then some 0
  else if !sOpOk b.sop then some 1
  else if !lOpOk b.lop || (dL.isSome && dL == dS) then some 2
  else if !mOpOk b.mop || (b.mop == 1 && (b.m.arr == 0 || !mmaType b.m.atype || !mmaType b.m.wtype)) then some 3
  else if !vOpOk b.vop || (0x20 ≤ b.vop.toNat && b.vop.toNat ≤ 0x22 && !typeOk b.v.typ.toNat) || (dV.isSome && dV == dL) then some 4
  else if !tOpOk b.top || ((b.top == 6 || b.top == 7) && !typeOk b.t.otype.toNat) then some 5
  else none

/-! ## Which slots take effect (R31) -/

/-- The slots of a bundle that hold an instruction whose guard is true. -/
structure Live where
  c : Bool
  s : Bool
  l : Bool
  m : Bool
  v : Bool
  t : Bool
  deriving DecidableEq, Repr

/-- The guards of a bundle, read before it issues (R28, R31). -/
def Chamber.live (c : Chamber) (b : Bundle) : Live :=
  { c := b.cop != 0 && c.guard b.c.guard, s := b.sop != 0 && c.guard b.s.guard, l := b.lop != 0 && c.guard b.l.guard
    m := b.mop != 0 && c.guard b.m.guard, v := b.vop != 0 && c.guard b.v.guard, t := b.top != 0 && c.guard b.t.guard }

/-- The value operand of post.sig and wait.sig (R39). -/
def Chamber.cValue (c : Chamber) (o : COps) : Word := if o.i then o.imm16.setWidth 64 else c.sreg o.sval

/-! ## Waits at issue (R29, R33, R35, R43, R49, R78, R85, R196) -/

/-- The array queues hold `n` entries of array A. -/
def Chamber.queueA (c : Chamber) : Nat := (c.mmas.filter (·.inA)).length
def Chamber.queueB (c : Chamber) : Nat := (c.mmas.filter (·.inB)).length

/-- An mma issued before `seq` on an array has still to write rows (R33). -/
def Chamber.rowsPending (c : Chamber) (b : Bool) (seq : Nat) : Bool :=
  (c.mmas.any fun m => !m.wsw && decide (m.seq < seq) && (if b then decide (m.nextB < m.endB) else decide (m.nextA < m.endA))) ||
  ((if b then c.inflightB else c.inflightA).any fun r => decide (r.seq < seq))

/-- Two byte ranges touch a common 64-byte line. -/
def sameLine (a n b m : Nat) : Bool :=
  n != 0 && m != 0 && decide (a / 64 ≤ (b + m - 1) / 64) && decide (b / 64 ≤ (a + n - 1) / 64)

/-- A local write lies in the read interval of an mma issued before `seq` whose feeder has not read its last vector (R85). -/
def Chamber.feedBlocked (c : Chamber) (seq lo len : Nat) : Bool :=
  c.mmas.any fun m => !m.wsw && decide (m.seq < seq) && (decide (m.nextA < m.endA) || decide (m.nextB < m.endB)) &&
    (sameLine lo len m.act ((m.rows - 1) * m.pitch + 512) || (m.msk && sameLine lo len m.mask (cdiv m.rows 8)))

/-- The local bytes that a synchronous T-slot store writes (R48). -/
def Chamber.storeRange (c : Chamber) (op : BitVec 8) (o : TOps) : Option (Int × Nat) :=
  match op.toNat with
  | 1 => some (c.laddr o.sa o.imm32, 8)
  | 2 => some (c.laddr o.sa o.imm32, 512)
  | 3 => some (c.laddr o.sa o.imm32, 128)
  | _ => none

/-- Why a bundle waits at issue. -/
inductive Wait where
  | no | sig | tag | other
  deriving DecidableEq, Repr

/-- An operation is outstanding on a tag of a mask (R39). -/
def Chamber.tagBusy (c : Chamber) (mask : Nat) : Bool := c.ops.any fun o => bit mask o.tag

/-- Asynchronous operations that a bundle would start (R49). -/
def startsAsync (b : Bundle) (v : Live) : Nat :=
  b2n (v.l && (b.lop == 4 || b.lop == 5)) + b2n (v.t && 4 ≤ b.top.toNat)

/-- What a bundle waits for at issue, if anything. -/
def State.waitsFor (s : State) (n : Nat) (b : Bundle) (v : Live) : Wait :=
  let c := s.ch n
  let val := (c.cValue b.c).toNat
  let sg := s.sig b.c.target.toNat
  if v.c && b.cop == 0x0A && decide (sg < val) then .sig
  else if v.c && b.cop == 0x0B && sg != val then .sig
  else if v.c && b.cop == 0x0C && c.tagBusy (b.c.target.toNat % 256) then .tag
  else if v.c && b.cop == 0x0D && c.storesBefore c.seq then .other
  else if v.l && b.lop == 5 && s.get (Reg.CHn_WTILE_SHADOW n) != 0 then .other
  else if v.l && b.lop == 5 && b.l.xmode == 1 &&
      s.flag (if b.l.xslot then Reg.CHn_XT_SLOT1_PENDING n else Reg.CHn_XT_SLOT0_PENDING n) then .other
  else if decide (0 < startsAsync b v) && decide (32 < c.ops.length + startsAsync b v) then .other
  else if v.m && (((b.mop == 2 || b.m.swap || b.m.arr.getLsbD 0) && decide (4 ≤ c.queueA)) ||
      ((b.mop == 2 || b.m.swap || b.m.arr.getLsbD 1) && decide (4 ≤ c.queueB))) then .other
  else if v.v && b.vop == 0x2C && c.rowsPending b.v.arr c.seq then .other
  else if v.t && (match c.storeRange b.top b.t with
      | some (a, k) => c.feedBlocked c.seq a.toNat k
      | none => false) then .other
  else .no

/-! ## Precise causes (R39, R40, R43, R45, R46, R496) -/

/-- The last accumulator row of a mode (R45). -/
def lastRow (wide : Bool) : Nat := if wide then 1023 else 511

/-- A pair runs in 16-bit mode (R106). -/
def mode16 (a w : Nat) : Bool := a ≤ 2 || w ≤ 2

/-- A pair runs in 4-bit mode (R106). -/
def mode4 (a w : Nat) : Bool := a == 4 && w == 4

/-- Rows that array A takes under ARR = 0b11 (R45). -/
def halfRows (m : Nat) : Nat := (m + 1) / 2

/-- An mma raises RANGE at issue (R45, R496). -/
def Chamber.mmaRange (c : Chamber) (o : MOps) : Bool :=
  let m := (c.sreg o.srows).toNat
  let per := if o.arr = 3 then halfRows m else m
  let act := (c.sreg o.sact).toNat / 64 * 64
  let mask := (c.sreg o.smask).toNat / 64 * 64
  m == 0 || decide (65535 < m) || decide (lastRow (mode16 o.atype.toNat o.wtype.toNat) < (c.sreg o.sacc).toNat + per - 1) ||
  !inLocal act ((m - 1) * (c.sreg o.spitch).toNat + 512) || (o.msk && !inLocal mask (cdiv m 8))

/-- RANGE before ALIGN for an access of `k` bytes at a local address. -/
def accessCause (a : Int) (k align : Nat) : Option Nat :=
  if !inLocal a k then some 0x03 else if a.toNat % align ≠ 0 then some 0x05 else none

/-- The precise cause of the C slot (R39). -/
def Chamber.cCause (c : Chamber) (op : BitVec 8) (o : COps) : Option Nat :=
  match op.toNat with
  | 2 => if 4095 < (c.sreg o.sreg).toNat then some 0x03 else none
  | 3 => if 32 ≤ c.retStack.length then some 0x04 else none
  | 4 => if c.retStack.isEmpty then some 0x04 else none
  | _ => none

/-- The precise cause of the L slot (R42, R43, R496). -/
def Chamber.lCause (c : Chamber) (op : BitVec 8) (o : LOps) : Option Nat :=
  match op.toNat with
  | 1 => accessCause (c.laddr o.sa o.imm32) 8 8
  | 2 => accessCause (c.laddr o.sa o.imm32) 512 64
  | 3 => accessCause (c.laddr o.sa o.imm32) 128 128
  | 4 => if (c.sreg o.sa).toNat % 64 ≠ 0 then some 0x05 else none
  | _ => none

/-- The precise cause of the T slot (R48, R120, R496). -/
def Chamber.tCause (c : Chamber) (op : BitVec 8) (o : TOps) : Option Nat :=
  match op.toNat with
  | 1 => accessCause (c.laddr o.sa o.imm32) 8 8
  | 2 => accessCause (c.laddr o.sa o.imm32) 512 64
  | 3 => accessCause (c.laddr o.sa o.imm32) 128 128
  | 8 =>
    let a := (c.sreg o.sa).toNat
    let b := (c.sreg o.sb).toNat
    let k := o.imm32.toNat
    if !inLocal a k || !inLocal b k then some 0x03
    else if a % 64 ≠ 0 ∨ b % 64 ≠ 0 ∨ k % 64 ≠ 0 then some 0x05 else none
  | x => if (x = 6 ∨ x = 7) ∧ !inLocal (bits (c.sreg o.sscale).toNat 23 6 * 64 : Nat) 0x2840 then some 0x03 else none

/-- A bundle at 4,095 that would leave the next PC at 4,096, or a call there (R40). -/
def pastEnd (pc : Nat) (b : Bundle) (v : Live) : Bool :=
  pc == 4095 && !(v.c && (b.cop == 1 || b.cop == 2 || b.cop == 4 || b.cop == 5))

/-- The cause, slot and NEXT_PC of a precise halt at issue; the lowest slot first (R40, R60). -/
def Chamber.precise (c : Chamber) (pc : Nat) (b : Bundle) (v : Live) : Option (Nat × Nat × Nat) :=
  if pastEnd pc b v then some (0x03, 0, 0)
  else
    match (if v.c then c.cCause b.cop b.c else none) with
    | some x => some (x, 0, pc)
    | none =>
    match (if v.l then c.lCause b.lop b.l else none) with
    | some x => some (x, 2, pc)
    | none =>
    if v.m && b.mop == 1 && c.mmaRange b.m then some (0x03, 3, pc)
    else if v.v && b.vop == 0x2C && decide (1023 < (c.sreg b.v.sreg).toNat) then some (0x03, 4, pc)
    else match (if v.t then c.tCause b.top b.t else none) with
      | some x => some (x, 5, pc)
      | none => none

/-! ## The S slot (R41) -/

/-- Operand B of the S slot: the immediate sign-extended, or a register. -/
def Chamber.sB (c : Chamber) (o : SOps) : Word := if o.i then o.imm32.signExtend 64 else c.sreg o.sb

/-- The scalar result of an S-slot opcode. -/
def scalarResult (op : Nat) (a b old : Word) (imm : BitVec 32) (cyc : Word) : Word :=
  let sh := b.toNat % 64
  match op with
  | 0x01 => a + b
  | 0x02 => a - b
  | 0x03 => a &&& b
  | 0x04 => a ||| b
  | 0x05 => a ^^^ b
  | 0x06 => a <<< sh
  | 0x07 => a >>> sh
  | 0x08 => a.sshiftRight sh
  | 0x09 => a * b
  | 0x0A => if a.slt b then a else b
  | 0x0B => if a.slt b then b else a
  | 0x0C => imm.signExtend 64
  | 0x0D => (imm ++ old.setWidth 32 : BitVec 64)
  | _ => cyc

/-- The comparison of an S-slot compare opcode. -/
def compareResult (op : Nat) (a b : Word) : Bool :=
  match op with
  | 0x10 => a == b
  | 0x11 => a != b
  | 0x12 => a.slt b
  | 0x13 => !a.slt b
  | 0x14 => a.ult b
  | _ => !a.ult b

/-- The result of a predicate opcode. -/
def predResult (op : Nat) (a b : Bool) : Bool :=
  match op with
  | 0x18 => a && b
  | 0x19 => a || b
  | _ => a != b

/-- A descriptor with its BASE field replaced (R41, R133). -/
def setBase (d : BitVec 1024) (x : Nat) : BitVec 1024 := BitVec.ofNat 1024 (setBits d.toNat 47 0 x)

/-- The S slot writes its result, computed from the registers as they stood (R28, R41). -/
def Chamber.doS (c c0 : Chamber) (op : BitVec 8) (o : SOps) (cyc : Word) : Chamber :=
  let x := op.toNat
  let a := c0.sreg o.sa
  let b := c0.sB o
  let p := o.dst.setWidth 3
  let d := o.dst.setWidth 4
  if x ≤ 0x0D ∨ x = 0x24 then c.setS o.dst (scalarResult x a b (c0.sreg o.dst) o.imm32 cyc)
  else if x ≤ 0x15 then c.setP p (compareResult x a b)
  else if x ≤ 0x1A then c.setP p (predResult x (c0.pred (o.sa.setWidth 3)) (c0.pred (o.sb.setWidth 3)))
  else if x = 0x20 then c.setD d (setBase (c0.dreg d) a.toNat)
  else c.setD d (setBase (c0.dreg d) (bits (dWord (c0.dreg d) 0) 47 0 + a.toNat))

/-! ## The L slot (R42) -/

/-- 128 lanes from 512 bytes, lane i from bytes 4i to 4i + 3. -/
def lanesOfBytes (bs : List Byte) : Lanes := mkLanes fun i => BitVec.ofNat 32 (leNat ((bs.drop (4 * i)).take 4))

/-- The 512 bytes of a vector register. -/
def bytesOfLanes (v : Lanes) : List Byte := v.toList.flatMap fun x => leBytes 4 x.toNat

/-- Nothing shown yet. -/
def StoreEv.none : StoreEv := ⟨Flags.none, false, false, Option.none⟩

/-- An asynchronous operation as it begins. -/
def AsyncOp.make (seq pc tag : Nat) (kind : AKind) (desc : BitVec 1024) : AsyncOp :=
  { seq := seq, pc := pc, tag := tag, kind := kind, desc := desc, laddr := 0, src := 0, len := 0, otype := 0, ieee := false, arr := 0
    stats := false, sscale := 0, xmode := 0, xslot := 0, table := [], tableOk := false, begun := false, count := 0, mask := 0
    entries := [], pos := 0, sent := false, failed := false, k := 0, ovf := false, rerun := false, flags := Flags.none, reason := 0
    buf := [], elems := [], tsw := 0, limit := 0, passEnd := false, dest := StoreEv.none, outs := [] }

/-- The L slot reads local memory as it stood before the bundle, or starts its asynchronous operation (R28, R42). -/
def Chamber.doL (c c0 : Chamber) (pc : Nat) (op : BitVec 8) (o : LOps) (tableOk : Bool) : Chamber :=
  let a := (c0.laddr o.sa o.imm32).toNat
  match op.toNat with
  | 1 => c.setS o.dst (BitVec.ofNat 64 (memNat c0.lmem a 8))
  | 2 => c.setV o.dst (lanesOfBytes (memRead c0.lmem a 512))
  | 3 => c.setD o.dsc (BitVec.ofNat 1024 (memNat c0.lmem a 128))
  | 4 => { c with ops := c.ops ++ [{ AsyncOp.make c0.seq pc o.tag.toNat .ldT (c0.dreg o.dsc) with laddr := (c0.sreg o.sa).toNat }] }
  | _ => { c with
      shadowOp := some c0.seq
      ops := c.ops ++ [{ AsyncOp.make c0.seq pc o.tag.toNat .ldW (c0.dreg o.dsc) with
        xmode := o.xmode.toNat, xslot := b2n o.xslot, table := c0.slots.getD (b2n o.xslot) [], tableOk := tableOk }] }

/-! ## The M slot (R44, R78) -/

/-- The queue entry of an M-slot instruction, its scalars read at issue (R78). -/
def Chamber.mmaOf (c : Chamber) (pc : Nat) (op : BitVec 8) (o : MOps) : Mma :=
  let wsw := op == 2
  let m := if wsw then 0 else (c.sreg o.srows).toNat
  let a := !wsw && o.arr.getLsbD 0
  let b := !wsw && o.arr.getLsbD 1
  let split := if a && b then halfRows m else if b then 0 else m
  let swap := wsw || o.swap
  { seq := c.seq, pc := pc, wsw := wsw, swap := swap, swapped := false, checked := false, bad := false
    atype := o.atype.toNat, wtype := o.wtype.toNat, zero := o.zero, maskz := o.maskz, msk := o.msk && !wsw
    act := (c.sreg o.sact).toNat / 64 * 64, rows := m, acc := (c.sreg o.sacc).toNat
    mask := (c.sreg o.smask).toNat / 64 * 64, pitch := (c.sreg o.spitch).toNat
    inA := a || swap, inB := (b && decide (split < m)) || swap, nextA := 0, endA := if a then split else 0
    nextB := if b then split else 0, endB := if b then m else 0, startB := split }

/-! ## The V slot (R46, R47, R113 to R119, R150) -/

/-- A lane-by-lane result with the flags of every lane. -/
def lanewise (f : Nat → Lane × Flags) : Lanes × Flags :=
  let rs := (List.range 128).map f
  (⟨⟨rs.map (·.1)⟩, by simp [rs]⟩, rs.foldl (fun g r => g.join r.2) .none)

/-- A reduction: lane 0 holds it, the other lanes are zero (R46, R114). -/
def reduced (op : Lane → Lane → Lane × Flags) (v : Lanes) : Lanes × Flags :=
  let (l, f) := treeReduce op 7 v.toList
  (mkLanes fun i => if i = 0 then l.headD 0 else 0, f)

/-- A lane operation that raises no flag. -/
def quiet (x : Lane) : Lane × Flags := (x, .none)

/-- The accumulator of an array. -/
def Chamber.acc (c : Chamber) (b : Bool) : Map Lane := if b then c.accB else c.accA

/-- An accumulator element by physical row and column (R92). -/
def Chamber.accElem (c : Chamber) (b : Bool) (row col : Nat) : Lane := mapGet 0 (c.acc b) (128 * row + col)

/-- The vector result of a V-slot opcode, and its flags. -/
def Chamber.vResult (c : Chamber) (op : Nat) (o : VOps) : Lanes × Flags :=
  let va := c.vreg o.va
  let vb := c.vreg o.vb
  let vc := c.vreg o.vc
  let a := lane va
  let b := lane vb
  let d := lane vc
  let t := o.typ.toNat
  match op with
  | 0x01 => lanewise fun i => fadd (a i) (b i)
  | 0x02 => lanewise fun i => fsub (a i) (b i)
  | 0x03 => lanewise fun i => fmul (a i) (b i)
  | 0x04 => lanewise fun i => ffma (a i) (b i) (d i)
  | 0x05 => lanewise fun i => fmax (a i) (b i)
  | 0x06 => lanewise fun i => fmin (a i) (b i)
  | 0x08 => lanewise fun i => quiet (a i + b i)
  | 0x09 => lanewise fun i => quiet (a i - b i)
  | 0x0A => lanewise fun i => quiet (a i &&& b i)
  | 0x0B => lanewise fun i => quiet (a i ||| b i)
  | 0x0C => lanewise fun i => quiet (a i ^^^ b i)
  | 0x10 => lanewise fun i => quiet (fltMask (a i) (b i))
  | 0x11 => lanewise fun i => quiet (feqMask (a i) (b i))
  | 0x12 => lanewise fun i => quiet (if d i ≠ 0 then a i else b i)
  | 0x14 => lanewise fun _ => quiet ((c.sreg o.sreg).setWidth 32)
  | 0x15 => reduced fadd va
  | 0x16 => reduced fmax va
  | 0x18 => lanewise fun i => frcp (a i)
  | 0x19 => lanewise fun i => frsqrt (a i)
  | 0x1A => lanewise fun i => fexp (a i)
  | 0x1B => lanewise fun i => flog (a i)
  | 0x20 => lanewise fun i => let r := convert t false (a i); (BitVec.ofNat 32 r.1, r.2)
  | 0x21 => lanewise fun i => let r := convert t true (a i); (BitVec.ofNat 32 r.1, r.2)
  | 0x22 => lanewise fun i => widen t ((a i).toNat % 2 ^ typeBits t)
  | 0x29 => lanewise fun i => quiet ((mapGet 0 c.turn (16384 * b2n o.tt + 128 * i + o.idx.toNat)).setWidth 32)
  | _ => lanewise fun i => quiet (c.accElem o.arr (c.sreg o.sreg).toNat i)

/-- A row of a turn tile written from the low halves of the lanes (R46, R150). -/
def turnRow (m : Map (BitVec 16)) (tt row : Nat) (v : Lanes) : Map (BitVec 16) :=
  (List.range 128).foldl (fun m i => mapSet 0 m (16384 * tt + 128 * row + i) ((lane v i).setWidth 16)) m

/-- The V slot writes its result (R46); the flags go to the caller. -/
def Chamber.doV (c c0 : Chamber) (op : BitVec 8) (o : VOps) : Chamber × Flags :=
  if op = 0x28 then ({ c with turn := turnRow c.turn (b2n o.tt) o.idx.toNat (c0.vreg o.va) }, .none)
  else
    let (r, f) := c0.vResult op.toNat o
    (c.setV o.vd r, f)

/-! ## The T slot (R48) -/

/-- The T slot stores to local memory, or starts its asynchronous operation (R48). -/
def Chamber.doT (c c0 : Chamber) (pc : Nat) (op : BitVec 8) (o : TOps) : Chamber :=
  let a := (c0.laddr o.sa o.imm32).toNat
  let mk := fun k => { AsyncOp.make c0.seq pc o.tag.toNat k (c0.dreg o.dsc) with laddr := (c0.sreg o.sa).toNat }
  let acc := fun k => { mk k with
    otype := o.otype.toNat, ieee := o.ieee, arr := b2n o.arr, stats := o.stats, sscale := (c0.sreg o.sscale).toNat }
  match op.toNat with
  | 1 => { c with lmem := memWrite c.lmem a (leBytes 8 (c0.sreg o.sb).toNat) }
  | 2 => { c with lmem := memWrite c.lmem a (bytesOfLanes (c0.vreg o.vs)) }
  | 3 => { c with lmem := memWrite c.lmem a (leBytes 128 (c0.dreg o.dsc).toNat) }
  | 4 => { c with ops := c.ops ++ [mk .stT] }
  | 5 => { c with ops := c.ops ++ [mk .stAdd] }
  | 6 => { c with ops := c.ops ++ [acc .stAcc] }
  | 7 => { c with ops := c.ops ++ [acc .stAccAdd] }
  | _ => { c with ops := c.ops ++ [{ mk .mv with src := (c0.sreg o.sb).toNat, len := o.imm32.toNat, begun := true, sent := true }] }

/-! ## The C slot (R39) -/

/-- The next PC of a bundle that issues (R34, R39). -/
def Chamber.nextPc (c : Chamber) (pc : Nat) (b : Bundle) (v : Live) : Nat :=
  if !v.c then (pc + 1) % 4096
  else match b.cop.toNat with
    | 1 => b.c.target.toNat
    | 2 => (c.sreg b.c.sreg).toNat
    | 3 => b.c.target.toNat
    | 4 => c.retStack.headD 0
    | _ => (pc + 1) % 4096

/-- The C slot's effect on the chamber: the return stack, and posts held for their stores (R39, R52). -/
def Chamber.doC (c c0 : Chamber) (pc : Nat) (op : BitVec 8) (o : COps) : Chamber :=
  match op.toNat with
  | 3 => { c with retStack := (pc + 1) :: c.retStack }
  | 4 => { c with retStack := c.retStack.drop 1 }
  | 8 => { c with posts := c.posts ++ [⟨c0.seq, o.dev, o.cc, o.target, true, c0.cValue o⟩] }
  | 9 => { c with posts := c.posts ++ [⟨c0.seq, o.dev, o.cc, o.target, false, c0.cValue o⟩] }
  | _ => c

/-! ## Issue (R27, R28) -/

/-- ACLK cycles since the chamber's last reset (R41, rd.cyc). -/
def State.chCycles (s : State) (n : Nat) : Word := BitVec.ofNat 64 (s.aclk - (s.ch n).cycBase)

/-- The chamber after every live slot of a bundle has taken effect, and the flags of its V slot (R28). -/
def Chamber.doBundle (c0 : Chamber) (pc : Nat) (b : Bundle) (v : Live) (cyc : Word) (tableOk : Bool) : Chamber × Flags :=
  let c := if v.c then c0.doC c0 pc b.cop b.c else c0
  let c := if v.s then c.doS c0 b.sop b.s cyc else c
  let c := if v.l then c.doL c0 pc b.lop b.l tableOk else c
  let c := if v.m then { c with mmas := c.mmas ++ [c0.mmaOf pc b.mop b.m] } else c
  let (c, f) := if v.v then c.doV c0 b.vop b.v else (c, .none)
  let c := if v.t then c.doT c0 pc b.top b.t else c
  ({ c with seq := c0.seq + 1, waitSince := none }, f)

/-- An ld.w begins its load: the shadow is LOADING with the descriptor's type, and the named table slot is queued (R77, R81, R195). -/
def State.beginLoad (s : State) (n : Nat) (o : LOps) (d : BitVec 1024) : State :=
  let s := s.puts [(Reg.CHn_WTILE_SHADOW n, 1), (Reg.CHn_WTILE_SHADOW_TYPE n, dType d)]
  let s := s.modCh n fun c => { c with loadBegin := s.aclk }
  if o.xmode = 1 then s.put (if o.xslot then Reg.CHn_XT_SLOT1_QUEUED n else Reg.CHn_XT_SLOT0_QUEUED n) 1 else s

/-- A bundle that passes every check takes effect whole (R27, R28). -/
def State.takeBundle (s : State) (n : Nat) (b : Bundle) (v : Live) : State :=
  let c0 := s.ch n
  let pc := s.chPc n
  let slotF := if b.l.xslot then Reg.CHn_XT_SLOT1_VALID n else Reg.CHn_XT_SLOT0_VALID n
  let (c, f) := c0.doBundle pc b v (s.chCycles n) (s.flag slotF)
  let s := s.setCh n c
  let s := if v.l && b.lop == 5 then s.beginLoad n b.l (c0.dreg b.l.dsc) else s
  let s := s.puts [(Reg.CHn_STATUS_STATE n, 2), (Reg.CHn_STATUS_PC n, c0.nextPc pc b v)]
  let s := s.raise n pc 0 f
  let s := if v.c && b.cop == 5 then
      s.halt n { cause := 0x01, faultPc := pc, nextPc := (pc + 1) % 4096, tag := 0, slot := 0, source := 3, addr := 0, row := 0, found := 0, expected := 0 }
    else s
  s.tryPosts n

/-- A chamber may issue: in RUN or WAIT, with no halt recorded, no reset under way and no Hold (R56, R58, R60, R63). -/
def State.mayIssue (s : State) (n : Nat) : Bool :=
  (s.chState n == 2 || s.chState n == 3) && (s.ch n).halt.isNone && !(s.ch n).resetting && !s.held

/-- The bundle that stands in bundle memory at a chamber's PC, 64 bytes to a bundle (R36, R64). -/
def State.fetched (s : State) (n : Nat) : Bundle := readBundle (memNat (s.ch n).bmem (64 * s.chPc n) 64)

/-- The local bytes that the synchronous loads and stores of a bundle touch (R42, R48). -/
def Chamber.touched (c : Chamber) (b : Bundle) (v : Live) : List (Nat × Nat) :=
  (match (if v.l then b.lop.toNat else 0) with
    | 1 => [((c.laddr b.l.sa b.l.imm32).toNat, 8)]
    | 2 => [((c.laddr b.l.sa b.l.imm32).toNat, 512)]
    | 3 => [((c.laddr b.l.sa b.l.imm32).toNat, 128)]
    | _ => []) ++
  (match (if v.t then c.storeRange b.top b.t else none) with
    | some (a, k) => [(a.toNat, k)]
    | none => [])

/-- What a wait.sig waits for: kept since it began to wait (R55). -/
def Chamber.waitOn (c : Chamber) (b : Bundle) (now : Nat) : WaitOn :=
  c.waitSince.getD ⟨now, b.c.target.toNat, (c.cValue b.c).toNat, b.cop == 0x0B⟩

/-- The errors that fetching a bundle at `pc` finds in bundle memory (R26). -/
def State.fetchUpsets (s : State) (n pc : Nat) (i : Issue) : State :=
  s.upsets n pc 0 (i.upsets.filter fun u => upsetMeets u true [])

/-- A bundle that passes every check takes effect, and the errors count that its accesses to local memory and to the accumulators find
(R26, R28, R94). -/
def State.runBundle (s : State) (n : Nat) (i : Issue) : State :=
  let b := i.bundle
  let pc := s.chPc n
  let v := (s.ch n).live b
  let rs := (s.ch n).touched b v
  let rows := if v.v && b.vop == 0x2C then [((s.ch n).sreg b.v.sreg).toNat] else []
  ((s.takeBundle n b v).upsets n pc 0 (i.upsets.filter fun u => upsetMeets u false rs)).accUpsets n pc 0
    (i.accUpsets.filter fun u => accMeets u b.v.arr rows)

/-- A fetched bundle is refused with a precise cause, held waiting, or taken whole. -/
def State.issueFetched (s : State) (n : Nat) (i : Issue) : State :=
  let b := i.bundle
  let pc := s.chPc n
  match illegalSlot b with
  | some k => s.halt n { cause := 0x02, faultPc := pc, nextPc := pc, tag := 0, slot := k, source := 3, addr := 0, row := 0, found := 0, expected := 0 }
  | none =>
    let v := (s.ch n).live b
    match s.waitsFor n b v with
    | .sig =>
      (s.put (Reg.CHn_STATUS_STATE n) 3).modCh n fun c => { c with waitSince := some (c.waitOn b s.cycle) }
    | .tag => s.put (Reg.CHn_STATUS_STATE n) 3
    | .other => if s.chState n = 3 then (s.put (Reg.CHn_STATUS_STATE n) 2).modCh n fun c => { c with waitSince := none } else s
    | .no =>
      match (s.ch n).precise pc b v with
      | some (cause, slot, next) =>
        s.halt n { cause := cause, faultPc := pc, nextPc := next, tag := 0, slot := slot, source := 3, addr := 0, row := 0, found := 0, expected := 0 }
      | none => s.runBundle n i

/-- A bundle comes to issue at chamber `n`: only the bundle that stands at the chamber's PC can (R34). The errors that its fetch finds
count whatever becomes of it, and a double-bit error lets it take no effect; those of its local and accumulator reads count where it takes
effect (R26, R94). -/
def State.issue (s : State) (n : Nat) (i : Issue) : State :=
  if !(s.mayIssue n && s.fetched n == i.bundle) then s
  else (if i.upsets.any fun u => u.double && u.bank.val == 32 then s else s.issueFetched n i).fetchUpsets n (s.chPc n) i

end Sys2Proof.Machine
end

