-- ==== Sys2Proof/Machine/StoreUnit.lean ====
section
/-! DEFINITION. The store unit of st.acc and st.acc.add: what each position takes from the accumulators, scales, statistics and the tile status word (R92, R93, R120 to R126, R141). -/

namespace Sys2Proof.Machine

open Sys2Proof

/-- The mode tag of the accumulator row an st.acc names: true for INT32 rows (R92). -/
def Chamber.accInt (c : Chamber) (o : AsyncOp) : Bool := mapGet false (if o.arr = 1 then c.tagB else c.tagA) o.laddr

/-- The elements per stored row that the store unit writes (R93). -/
def State.accCols (s : State) (n : Nat) (o : AsyncOp) : Nat :=
  let w := s.get (if o.arr = 1 then Reg.CHn_CAP_COLS16_B n else Reg.CHn_CAP_COLS16_A n)
  if (s.ch n).accInt o then 2 * w else w

/-- Positions of one stored row: P0 of R141. -/
def AsyncOp.p0 (o : AsyncOp) : Nat := dSpan o.desc o.count 0

/-- The physical row on which stored row `r` begins. -/
def Chamber.accPhys (c : Chamber) (o : AsyncOp) (r : Nat) : Nat := if c.accInt o then o.laddr + 2 * r else o.laddr + r

/-- Stored row `r` passes the last physical row (R141). -/
def Chamber.accPast (c : Chamber) (o : AsyncOp) (r : Nat) : Bool :=
  decide (1023 < (if c.accInt o then c.accPhys o r + 1 else c.accPhys o r))

/-- The accumulator value at stored row `r`, column `j`. -/
def Chamber.accValue (c : Chamber) (o : AsyncOp) (r j : Nat) : Lane :=
  c.accElem (o.arr == 1) (c.accPhys o r + j / 128) (j % 128)

/-- A float of the scale block. -/
def Chamber.scaleAt (c : Chamber) (o : AsyncOp) (off i : Nat) : Lane :=
  BitVec.ofNat 32 (memNat c.lmem (bits o.sscale 23 6 * 64 + off + 4 * i) 4)

/-- What the store unit makes of one element (R121). -/
structure AccOut where
  y     : Lane
  out   : Nat
  flags : Flags
  ovf   : Bool
  deriving DecidableEq, Repr

/-- The power 2^-k as FP32. -/
def pow2neg (k : Nat) : Lane := BitVec.ofNat 32 ((127 - k) * 2 ^ 23)

/-- The store unit's computation for stored row `r`, column `j` (R121); `ovf` where the conversion of a finite y overflows. -/
def Chamber.accOut (c : Chamber) (o : AsyncOp) (r j : Nat) : AccOut :=
  let acc := c.accValue o r j
  let int := c.accInt o
  let rs := o.sscale % 2 == 1
  let cs := o.sscale / 2 % 2 == 1
  let (y, f) := if int then roundFp32 (ofIntVal acc.toInt) else (acc, Flags.none)
  let (y, f) :=
    if rs && cs then
      let (m, f1) := fmul (c.scaleAt o 0x400 r) (c.scaleAt o 0 j)
      let (y, f2) := fmul y m
      (y, (f.join f1).join f2)
    else if rs then let (y, f1) := fmul y (c.scaleAt o 0x400 r); (y, f.join f1)
    else if cs then let (y, f1) := fmul y (c.scaleAt o 0 j); (y, f.join f1)
    else (y, f)
  if int && !rs && !cs && !typeIsFloat o.otype then
    let (x, g) := satInt (typeBits o.otype) acc.toInt
    ⟨y, x, f.join g, false⟩
  else
    let (z, f1) := fmul y (pow2neg o.k)
    let (x, g) := convert o.otype o.ieee z
    ⟨y, x, (f.join f1).join g, g.overflow && !laneInf y⟩

/-- maxabs of R122. -/
def maxabs (m y : Lane) : Lane :=
  if laneNan m || laneNan y then qnan32 else if (absLane y).toNat ≤ m.toNat then m else absLane y

/-- The valid positions below an operation's limit, as stored row and column, that the store unit produces (R141). -/
def State.accCells (s : State) (n : Nat) (o : AsyncOp) : List (Nat × Nat) :=
  (List.range o.limit).filterMap fun p =>
    let v := dVisit o.desc o.count o.entries p
    let j := p % o.p0
    if v.pad || v.skip || decide (s.accCols n o ≤ j) then none else some (p / o.p0, j)

/-- The largest magnitude over the cells that satisfy `f` (R122). -/
def Chamber.statOf (c : Chamber) (o : AsyncOp) (cells : List (Nat × Nat)) (f : Nat × Nat → Bool) : Lane :=
  (cells.filter f).foldl (fun m e => maxabs m (c.accOut o e.1 e.2).y) 0

/-- The local address of an offset in the scale block (R120). -/
def AsyncOp.scalePlace (o : AsyncOp) (off : Nat) : Nat := bits o.sscale 23 6 * 64 + off

/-- The flags of two physical rows that hold one stored row: columns 128 and up lie in the second (R92, R125). -/
def RowFlags.pair (a b : RowFlags) : RowFlags :=
  { inv := a.inv || b.inv, invCol := if a.inv then a.invCol else if b.inv then 128 + b.invCol else 0
    inf := a.inf || b.inf, nan := a.nan || b.nan, flush := a.flush || b.flush }

/-- The row flags that cover a stored row: those of its physical row, or of both its physical rows (R92). -/
def Chamber.rowFlagsOf (c : Chamber) (o : AsyncOp) (r : Nat) : RowFlags :=
  let rf := mapGet RowFlags.reset (if o.arr = 1 then c.rowFlagsB else c.rowFlagsA)
  if c.accInt o then (rf (c.accPhys o r)).pair (rf (c.accPhys o r + 1)) else rf (c.accPhys o r)

/-- The lower of two columns, where there are any. -/
def lowerCol : Option Nat → Option Nat → Option Nat
  | some i, some j => some (min i j)
  | some i, none => some i
  | none, j => j

/-- The column of the first INVALID of a stored row, from its row flags or the store's own events, its additions among them (R126, R143). -/
def Chamber.invCol (c : Chamber) (o : AsyncOp) (cells : List (Nat × Nat)) (r : Nat) : Option Nat :=
  let rf := c.rowFlagsOf o r
  let own := (cells.filter fun e => e.1 == r && (c.accOut o e.1 e.2).flags.invalid).map (·.2)
  let added := o.dest.inv.bind fun e => if e.1 = r then some e.2 else none
  lowerCol (lowerCol own.head? added) (if rf.inv then some rf.invCol else none)

/-- The tile status word of a completed pass (R126); what the store produces takes in the additions of a st.acc.add (R143). -/
def Chamber.tswOf (c : Chamber) (o : AsyncOp) (cells : List (Nat × Nat)) (rows : Nat) : Nat :=
  let outs := cells.map fun e => c.accOut o e.1 e.2
  let rfs := (List.range rows).map (c.rowFlagsOf o)
  let outVal := fun (x : AccOut) => if typeIsFloat o.otype then decodeElem o.otype x.out else FVal.fin false 0 0
  let isInf := fun (v : FVal) => match v with
    | .inf _ => true
    | _ => false
  let inv := (List.range rows).findSome? fun r => (c.invCol o cells r).map fun j => (r, j)
  let nan := o.dest.nan || rfs.any (·.nan) || outs.any fun x => laneNan x.y || isNan (outVal x)
  let inf := o.dest.inf || rfs.any (·.inf) || outs.any fun x => laneInf x.y || isInf (outVal x)
  let fl := o.dest.flags.flush || rfs.any (·.flush) || outs.any (·.flags.flush)
  let ovf := o.dest.flags.overflow || outs.any (·.flags.overflow)
  o.k * 2 ^ 26 + b2n o.rerun * 2 ^ 25 + b2n ovf * 2 ^ 24 + b2n fl * 2 ^ 23 + b2n nan * 2 ^ 22
    + b2n inf * 2 ^ 21 + b2n inv.isSome * 2 ^ 20 + (inv.map (·.2)).getD 0 % 256 * 2 ^ 10 + (inv.map (·.1)).getD 0 % 1024

/-- What a store writes to its scale block after its last pass, as local address and bytes: the tile status word and the zeros behind it
always, the statistics under STATS, up to the last column and row stored (R120, R122, R123). A column or row below it that holds only pad
or skip positions has the statistic +0 (log entry 77). -/
def State.scaleOuts (s : State) (n : Nat) (o : AsyncOp) : Nat × List (Nat × List Byte) :=
  let c := s.ch n
  let cells := s.accCells n o
  let rows := cdiv o.limit o.p0
  let cols := cells.foldl (fun m e => max m (e.2 + 1)) 0
  let t := c.tswOf o cells rows
  (t, (o.scalePlace 0x2800, leBytes 8 t ++ zeroBytes 56) ::
    (if o.stats then
      [(o.scalePlace 0x1400, (List.range cols).flatMap fun j => leBytes 4 (c.statOf o cells fun e => e.2 == j).toNat),
       (o.scalePlace 0x1800, (List.range rows).flatMap fun r => leBytes 4 (c.statOf o cells fun e => e.1 == r).toNat)]
    else []))

/-- Local writes made in order. -/
def memWrites (m : Memory) (ws : List (Nat × List Byte)) : Memory := ws.foldl (fun m w => memWrite m w.1 w.2) m

end Sys2Proof.Machine
end

