-- ==== Sys2Proof/Machine/Async.lean ====
section
/-! DEFINITION. The descriptor engine: how an asynchronous operation begins, forms granule requests and ends (R32, R135 to R149, R156, R182, R183). -/

namespace Sys2Proof.Machine

open Sys2Proof

/-! ## An operation begins (R135, R137, R142, R147, R156) -/

/-- Granules read through the region table from a granule-aligned address, with their poison. -/
def State.listGranules (s : State) (n x : Nat) : Nat → List (List Byte × Bool) × State
  | 0 => ([], s)
  | k + 1 =>
    let (b, p, _, s) := s.chGranule n x
    let (bs, s) := s.listGranules n (x + 256) k
    ((b, p) :: bs, s)

/-- The unified address of the granule of an untranslated address, or 0 where the region table does not give one (R387). -/
def State.unified (s : State) (n x : Nat) : Nat :=
  match s.region n true false (x / 256 * 256) with
  | .ok a => a
  | _ => 0

/-- The first `m` entries of a block list, from its granules; none where the granule is poisoned (R146, R147). -/
def listEntries (gs : List (List Byte × Bool)) (off m : Nat) : List (Option Nat) :=
  (List.range m).map fun i =>
    let b := off + 64 + 8 * i
    let g := gs.getD (b / 256) ([], false)
    if g.2 then none else some (leNat ((g.1.drop (b % 256)).take 8))

/-- Number of set bits. -/
def popCount (x : Nat) : Nat := ((List.range 32).filter fun i => bit x i).length

/-- The `k` lowest set bits of a 32-bit mask. -/
def lowBits (x k : Nat) : Nat :=
  (((List.range 32).filter fun i => bit x i).take k).foldl (fun a i => a + 2 ^ i) 0

/-- The band that the `i`-th set bit of a mask names (R156). -/
def bandAt (mask i : Nat) : Option Nat := ((List.range 32).filter fun b => bit mask b)[i]?

/-- An ld.w that walks its descriptor: the raw mode (R181, R183). -/
def AsyncOp.walks (o : AsyncOp) : Bool := o.kind != .ldW || o.xmode == 0

/-- A store of accumulator rows. -/
def AKind.isAcc (k : AKind) : Bool := k == .stAcc || k == .stAccAdd

/-- The block list of an operation is read as it begins: the header once, then every entry a position can need (R147). The
band mask of an ld.w comes from header word 1 and is cut to COUNT bits (R156, R157). A poisoned header leaves no position to transfer. -/
def State.readList (s : State) (n : Nat) (o : AsyncOp) : AsyncOp × State :=
  let a := dListAddr o.desc
  let off := a % 256
  let (h, s) := s.listGranules n (a - off) 1
  let hd := h.headD ([], false)
  if hd.2 then
    (if o.kind = .ldW then { o with failed := true, sent := true, reason := 100 } else { o with limit := 0 }, s.fail n 0x08 o.pc o.tag (s.unified n a))
  else
    let w0 := leNat ((hd.1.drop off).take 8)
    let count := w0 % 2 ^ 24
    let m := dN o.desc count (dListDim o.desc)
    let o := { o with count := count, limit := dTotal o.desc count }
    let (rest, s) := s.listGranules n (a - off + 256) ((off + 64 + 8 * m + 255) / 256 - 1)
    let es := listEntries (hd :: rest) off m
    if o.kind = .ldW then
      let mask := leNat ((hd.1.drop (off + 8)).take 4)
      let q := popCount mask
      let s := if count = q then s else s.violCh n 0 0
      ({ o with entries := es, mask := lowBits mask (min count q) }, s)
    else ({ o with entries := es }, s)

/-- An operation's first look at its descriptor: refused (it transfers nothing), or set up to be walked. A store of accumulator rows that
R135 refuses completes all the same and writes its scale block (R120); one that R142 refuses writes nothing, and leaves CHn_TSW as it
stands (log entry 77). -/
def State.beginOp (s : State) (n : Nat) (o : AsyncOp) : AsyncOp × State :=
  let o := { o with begun := true }
  if dBad o.desc then ({ o with sent := !o.kind.isAcc, failed := o.kind != .ldW && !o.kind.isAcc }, s.violCh n 4 0)
  else if o.kind.isAcc && o.otype != dType o.desc then
    ({ o with sent := true, failed := true }, s.violCh n 6 0)
  else if !o.walks then (o, s)
  else
    let s := if dPadListed o.desc then s.violCh n 5 0 else s
    if dList o.desc then s.readList n o else ({ o with limit := dTotal o.desc o.count }, s)

/-! ## Positions (R138 to R141, R182) -/

/-- What a position is to its operation. -/
inductive PosKind where
  /-- It generates a request to its address. -/
  | valid
  /-- It writes PAD_VALUE at its address (R145). -/
  | padWrite
  /-- It generates no request. -/
  | quiet
  /-- It needs a poisoned list entry (R147). -/
  | broken
  /-- Its local or accumulator side runs out (R140, R141). -/
  | past
  deriving DecidableEq, Repr

/-- Columns and rows of a raw tile (R182). -/
def tileCols (t : Nat) : Nat := if t = 1 ∨ t = 2 then 128 else 256
def tileRows (t : Nat) : Nat := if t = 4 then 256 else 128

/-- The list entry of a position of a raw ld.w supplies a band: entries past the mask's set bits are ignored (R157). -/
def AsyncOp.banded (o : AsyncOp) (p : Nat) : Bool := !dList o.desc || decide (p / o.p0 / 8 < popCount o.mask)

/-- A position of a raw ld.w fills a tile element (R157, R182). -/
def AsyncOp.fills (o : AsyncOp) (p : Nat) : Bool :=
  decide (p / o.p0 < tileRows (dType o.desc)) && decide (p % o.p0 < tileCols (dType o.desc)) && o.banded p

/-- The kind of position `p`. A position that is neither pad nor skip makes requests though its element is not stored: beyond the last
column of a store (R141), or beyond the tile of a load (R149, R182). -/
def State.posKind (s : State) (n : Nat) (o : AsyncOp) (p : Nat) : PosKind :=
  let v := dVisit o.desc o.count o.entries p
  if v.broken then .broken
  else if o.kind = .ldW then (if v.pad || v.skip || !o.banded p then .quiet else .valid)
  else if (if o.kind.isAcc then (s.ch n).accPast o (p / o.p0) else decide (0xFFFFFF < localEnd o.desc o.laddr p)) then .past
  else if v.skip then .quiet
  else if v.pad then (if dPadw o.desc && (o.kind == .stT || o.kind == .stAcc) then .padWrite else .quiet)
  else .valid

/-- A position of a store is written: of an accumulator row's, one within the last column (R93, R141), pad or not. -/
def State.stored (s : State) (n : Nat) (o : AsyncOp) (p : Nat) : Bool := !o.kind.isAcc || decide (p % o.p0 < s.accCols n o)

/-- The granule of a position's address. -/
def AsyncOp.granule (o : AsyncOp) (p : Nat) : Nat := (dVisit o.desc o.count o.entries p).byte / 256

/-- The first position from `p` on, `fuel` ahead at most, that is not quiet. -/
def State.skipQuiet (s : State) (n : Nat) (o : AsyncOp) : Nat → Nat → Nat
  | 0, p => p
  | f + 1, p => if p < o.limit ∧ s.posKind n o p = .quiet then s.skipQuiet n o f (p + 1) else p

/-- The positions that one request takes: consecutive, of one kind and in one granule (R149). -/
def State.runFrom (s : State) (n : Nat) (o : AsyncOp) (k : PosKind) (g : Nat) : Nat → Nat → List Nat
  | 0, _ => []
  | f + 1, p =>
    if p < o.limit ∧ s.posKind n o p = k ∧ o.granule p = g then p :: s.runFrom n o k g f (p + 1) else []

/-- The local side takes the pad value at the quiet positions of a load (R138, R182). -/
def AsyncOp.fillQuiet (o : AsyncOp) (ps : List Nat) : AsyncOp :=
  let pad := dPadValue o.desc
  match o.kind with
  | .ldT => { o with elems := ps.foldl (fun m p => mapInsert m p pad) o.elems }
  | .ldW =>
    { o with elems := ps.foldl (fun m p =>
        let v := dVisit o.desc o.count o.entries p
        if o.fills p then mapSet 0 m (p / o.p0 * 256 + p % o.p0) (if v.skip then 0 else pad) else m) o.elems }
  | _ => o

/-- The first local byte of position `p`. -/
def AsyncOp.localStart (o : AsyncOp) (p : Nat) : Nat :=
  if dLane o.desc then o.laddr + 4 * p else o.laddr + p * typeBits (dType o.desc) / 8

/-- The local bytes that a range of positions of an operation touches, as address and length; none for an empty range. -/
def AsyncOp.localSpan (o : AsyncOp) (p q : Nat) : Nat × Nat :=
  if q ≤ p then (o.localStart p, 0) else (o.localStart p, localEnd o.desc o.laddr (q - 1) + 1 - o.localStart p)

/-- A load's elements go to local memory line by line: those of the lines that no position from `q` on will write, or all of them at the
end, so that a line is seen whole, old or new (R32). -/
def State.flushLines (s : State) (n : Nat) (o : AsyncOp) (q : Nat) : AsyncOp × State :=
  if o.kind ≠ .ldT then (o, s)
  else
    let done := fun (e : Nat × Nat) => decide (o.limit ≤ q) || decide (o.localStart e.1 / 64 < o.localStart q / 64)
    ({ o with elems := o.elems.filter fun e => !done e },
      s.modCh n fun c => { c with lmem := (o.elems.filter done).foldl (fun m e => localPut o.desc m o.laddr e.1 e.2) c.lmem })

/-! ## Requests (R143 to R145, R149, R152) -/

/-- How a request ended. -/
inductive Sent where
  | done | waits
  deriving DecidableEq, Repr

/-- One position addresses the same element as another. -/
def sameElem (v w : Visit) : Bool := v.byte == w.byte && v.nibble == w.nibble

/-- A pad write is suppressed where one of the store's own valid positions addresses the element (R145): any position of the traversal,
one that is never transferred too (R140, R141; log entry 77). -/
def AsyncOp.owned (o : AsyncOp) (v : Visit) : Bool :=
  (List.range o.limit).any fun q =>
    let w := dVisit o.desc o.count o.entries q
    !w.pad && !w.skip && sameElem v w

/-- The element a store's position brings, with its flags and whether its conversion overflowed. -/
def State.sourceOf (s : State) (n : Nat) (o : AsyncOp) (p : Nat) : Nat × Flags × Bool :=
  if o.kind = .stAcc ∨ o.kind = .stAccAdd then
    let x := (s.ch n).accOut o (p / o.p0) (p % o.p0)
    (x.out, x.flags, x.ovf)
  else (localElem o.desc (s.ch n).lmem o.laddr p, Flags.none, false)

/-- What two parts of a store show together; the first INVALID is that of the lowest row, then the lowest column (R126). -/
def StoreEv.join (a b : StoreEv) : StoreEv :=
  { flags := a.flags.join b.flags, nan := a.nan || b.nan, inf := a.inf || b.inf
    inv := match a.inv, b.inv with
      | some x, some y => some (if y.1 < x.1 ∨ (y.1 = x.1 ∧ y.2 < x.2) then y else x)
      | some x, .none => some x
      | .none, y => y }

/-- What an addition shows that gives element `x` of a type with flags `f`, for a stored row and column (R126, R143). -/
def addEvent (t x : Nat) (f : Flags) (cell : Nat × Nat) : StoreEv :=
  let v := if typeIsFloat t then decodeElem t x else FVal.fin false 0 0
  { flags := f, nan := isNan v
    inf := (match v with
      | .inf _ => true
      | _ => false)
    inv := if f.invalid then some cell else none }

/-- An element that a request writes: its visit, the element it brings, and its stored row and column. -/
abbrev Sent1 := Visit × Nat × Nat × Nat

/-- The bytes of a granule with one element stored or added at a position's address (R143). -/
def putElem (o : AsyncOp) (add : Bool) (e : Sent1) (bs : List Byte) : List Byte × StoreEv :=
  let t := dType o.desc
  let v := e.1
  if add then
    let (x, f) := addElem t o.ieee (elemAt t bs (v.byte % 256) v.nibble) e.2.1
    (elemPut t bs (v.byte % 256) v.nibble x, addEvent t x f e.2.2)
  else (elemPut t bs (v.byte % 256) v.nibble e.2.1, StoreEv.none)

/-- The bytes of its granule that a list of elements covers, each as (byte, nibble): the whole granule or less. -/
def coversAll (t : Nat) (es : List Visit) : Bool :=
  (List.range 256).all fun b =>
    if typeBits t = 4 then
      es.any (fun v => v.byte % 256 == b && v.nibble == 0) && es.any (fun v => v.byte % 256 == b && v.nibble == 1)
    else es.any fun v => decide (v.byte % 256 ≤ b) && decide (b < v.byte % 256 + typeBits t / 8)

/-- The elements of a request put into the bytes of its granule one after another, with what the additions show. -/
def putAll (o : AsyncOp) (add : Bool) : List Sent1 → List Byte → List Byte × StoreEv
  | [], bs => (bs, StoreEv.none)
  | e :: l, bs =>
    let (bs, f) := putElem o add e bs
    let (bs, g) := putAll o add l bs
    (bs, f.join g)

/-- A unit may write a granule now: no claim holds it back and the host caches none of its lines (R227, R381). Otherwise what
has to be asked for is asked for. -/
def State.mayWrite (s : State) (a : Nat) (whole : Bool) : Bool × State :=
  if s.claimed none a then (false, s.noteWaiting none a)
  else if s.cachedLines (granuleOf a) ≠ [] then (false, s.askLines (granuleOf a) whole)
  else (true, s)

/-- OVERFLOW of a pass that may be repeated is held back (R123). -/
def AsyncOp.reruns (o : AsyncOp) : Bool := o.kind == .stAcc && o.otype == 2

/-- Flags of a store's elements: raised at once, but for the OVERFLOW of a pass that may be repeated. -/
def State.storeFlags (s : State) (n : Nat) (o : AsyncOp) (f : Flags) : State :=
  s.raise n o.pc o.tag (if o.reruns then { f with overflow := false } else f)

/-- A store's or an add's request to one granule. The untranslated address that a refused request records is its granule's (R154; log
entry 77). -/
def State.sendStore (s : State) (n : Nat) (o : AsyncOp) (pad : Bool) (ps : List Nat) : Sent × AsyncOp × State :=
  let vis := fun p => dVisit o.desc o.count o.entries p
  let cell := fun p => (p / o.p0, p % o.p0)
  let add := o.kind == .stAdd || o.kind == .stAccAdd
  let x := (ps.map o.granule).headD 0 * 256
  let ps := ps.filter fun p => s.stored n o p
  let srcs := ps.map fun p => (p, s.sourceOf n o p)
  let elems := if pad then (ps.filter fun p => !o.owned (vis p)).map fun p => (vis p, dPadValue o.desc, cell p)
    else srcs.map fun e => (vis e.1, e.2.1, cell e.1)
  let sf := if pad then Flags.none else srcs.foldl (fun f e => f.join e.2.2.1) Flags.none
  let ovf := !pad && srcs.any fun e => e.2.2.2
  let o' := { o with ovf := o.ovf || ovf, flags := o.flags.join sf }
  match s.region n add true x with
  | .ok a =>
    let whole := !add && coversAll (dType o.desc) (elems.map (·.1))
    match s.mayWrite a whole with
    | (false, s) => (.waits, o, s)
    | (true, s) =>
      if elems = [] then (.done, o', s)
      else
        let (_, e) := putAll o add elems (memRead s.mem a 256)
        let (r, s) := s.mergeIn 3 whole (granuleOf a) fun bs => (putAll o add elems bs).1
        let s := if r = .noFrame then s.waitFrame (.chamber n o.seq) else s.gotFrame (.chamber n o.seq)
        match r with
        | .noFrame => (.waits, o, s)
        | .poisoned => (.done, o', (s.storeFlags n o sf).fail n 0x08 o.pc o.tag a)
        | .dropped => (.done, o', s.storeFlags n o sf)
        | .done => (.done, { o' with dest := o'.dest.join e }, (s.storeFlags n o sf).raise n o.pc o.tag e.flags)
  | r => (.done, o', (s.countRegion n r x).storeFlags n o sf)

/-- A load's elements as their bytes come: for the tile, or for the local lines they belong to. -/
def AsyncOp.takeElems (o : AsyncOp) (ps : List Nat) (bs : List Byte) : AsyncOp :=
  let t := dType o.desc
  let val := fun p => let v := dVisit o.desc o.count o.entries p; elemAt t bs (v.byte % 256) v.nibble
  if o.kind = .ldW then
    { o with elems := (ps.filter o.fills).foldl (fun m p => mapSet 0 m (p / o.p0 * 256 + p % o.p0) (val p)) o.elems }
  else { o with elems := ps.foldl (fun m p => mapInsert m p (val p)) o.elems }

/-- A chamber's read of a granule for a load or, as `source` says, its expander, with the comparison of its check on arrival: where the
check differs the granule is read once more, and a good second copy is used and logged, while a bad one is poison to the reader (R374;
log entry 86). -/
def State.arrive (s : State) (n source a : Nat) (r : Arrival) : List Byte × Bool × State :=
  let (bs, p, s) := s.readIn a 256
  match p, r with
  | false, .again found =>
    let (bs, p, s) := s.readIn a 256
    (bs, p, s.logErr { sev := 1, kind := 3, source := source, addr := a, obj := s.objId a, unit := n, found := found.toNat
                       expected := (crc32c bs).toNat })
  | false, .bad _ => let (bs, _, s) := s.readIn a 256; (bs, true, s)
  | _, _ => (bs, p, s)

/-- A load's request to one granule: its elements go to local memory or to the shadow tile; poison halts the chamber (R377). -/
def State.sendLoad (s : State) (n : Nat) (o : AsyncOp) (ps : List Nat) (r : Arrival) : Sent × AsyncOp × State :=
  let x := (ps.map o.granule).headD 0 * 256
  match s.region n true false x with
  | .ok a =>
    if s.claimed none a then (.waits, o, s.noteWaiting none a)
    else
      let (bs, p, s) := s.arrive n 3 a r
      if p then
        let o := if o.kind = .ldW then { o with failed := true, sent := true, reason := 100 } else o
        (.done, o, s.fail n 0x08 o.pc o.tag a)
      else (.done, o.takeElems ps bs, s)
  | r => (.done, o.takeElems ps (zeroBytes 256), s.countRegion n r x)

/-! ## Records of coded and low-rank tiles (R183, R184, R197) -/

/-- LEN[b] of a coded record's header: units and ESC. -/
def recLen (hd : List Byte) (b : Nat) : Nat := leNat ((hd.drop (8 + 2 * b)).take 2)

/-- The fields of word 0 of a record header. -/
def recFormat (hd : List Byte) : Nat := bits (wordAt hd 0) 3 0
def recType (hd : List Byte) : Nat := bits (wordAt hd 0) 7 4
def recKrows (hd : List Byte) : Nat := bits (wordAt hd 0) 15 8
def recRank (hd : List Byte) : Nat := bits (wordAt hd 0) 23 16
def recTable (hd : List Byte) : Nat := bits (wordAt hd 0) 47 32

/-- A header's reserved bits are zero (R184): those it does not list for its FORMAT. -/
def recReserved (hd : List Byte) : Bool :=
  let w := wordAt hd 0
  let coded := recFormat hd == 1
  bits w 31 24 == 0 && bits w 63 48 == 0 && (if coded then bits w 23 16 == 0 else bits w 47 32 == 0) &&
  (hd.drop 24).take 40 == zeroBytes 40 &&
  (if coded then (List.range 8).all fun b => bits (recLen hd b) 14 7 == 0 else (hd.drop 8).take 16 == zeroBytes 16)

/-- KROWS, LR_RANK and LEN lie in range (R184). -/
def recRanges (hd : List Byte) : Bool :=
  let k := recKrows hd
  decide (8 ≤ k) && decide (k ≤ 128) && k % 8 == 0 &&
  (if recFormat hd = 1 then (List.range 8).all fun b =>
      let l := recLen hd b % 128
      if b < cdiv k 16 then
        decide (1 ≤ l) && decide (l ≤ 64) && (!bit (recLen hd b) 15 || 4 * min 16 (k - 16 * b) == l)
      else recLen hd b == 0
    else decide (1 ≤ recRank hd) && decide (recRank hd ≤ 64))

/-- The bytes of a record whose header is good. -/
def recBytesOf (hd : List Byte) : Nat :=
  if recFormat hd = 1 then
    64 + 64 * cdiv (recKrows hd) 16 + 64 * ((List.range 8).map fun b => recLen hd b % 128).foldl (· + ·) 0
  else 64 + 512 * recRank hd

/-- The case of R185 that a header shows, the lowest of the table's that applies; 0 for none. -/
def headerReason (o : AsyncOp) (hd : List Byte) : Nat :=
  let t := dType o.desc
  if !(t == 1 || t == 2) || recType hd != t then 1
  else if recFormat hd ≠ o.xmode then 2
  else if !recRanges hd || !recReserved hd then 4
  else if o.xmode = 1 ∧ (!o.tableOk || bits (wordAt o.table 0) 47 32 != recTable hd) then 5
  else 0

/-- The case of R185 that the descriptor and XMODE show before a record is read. -/
def descReason (o : AsyncOp) : Nat :=
  let t := dType o.desc
  if !(t == 1 || t == 2) then 1 else if o.xmode = 3 then 2 else if dList o.desc then 3 else 0

/-- The row of a tile that the byte at offset `off` of its record serves first: of a coded record a check's own row or a block's first, else
row 0 (R184; log entry 77). -/
def recRowAt (hd : List Byte) (off : Nat) : Nat :=
  let checks := 64 + 64 * cdiv (recKrows hd) 16
  if hd.length < 64 ∨ recFormat hd ≠ 1 ∨ off < 64 then 0
  else if off < checks then (off - 64) / 4
  else 16 * ((List.range 8).filter fun b =>
    decide (0 < b) && decide (checks + 64 * (((List.range b).map fun i => recLen hd i % 128).foldl (· + ·) 0) ≤ off)).length

/-- The chamber halts with POISON, and the error-log entry names the record of an ld.w and the row (R189). -/
def State.recordFails (s : State) (n : Nat) (o : AsyncOp) (row found expected : Nat) : State :=
  s.halt n { cause := 0x08, faultPc := o.pc, nextPc := s.chPc n, tag := o.tag, slot := 0, source := 4, addr := s.unified n (dBase o.desc)
             row := row, found := found, expected := expected }

/-- The next granule of a record is read, in ascending order from BASE (R183). -/
def State.readRecord (s : State) (n : Nat) (o : AsyncOp) (arr : Arrival) : Sent × AsyncOp × State :=
  let early := descReason o
  if early ≠ 0 then (.done, { o with reason := early, sent := true }, s)
  else
    let base := dBase o.desc
    let x := (base + o.buf.length) % 2 ^ 48
    match s.region n true false (x / 256 * 256) with
    | .ok a =>
      if s.claimed none a then (.waits, o, s.noteWaiting none a)
      else
        let (bs, p, s) := s.arrive n 4 a arr
        let buf := o.buf ++ bs.drop (x % 256)
        if p then (.done, { o with failed := true, sent := true, reason := 100 }, s.recordFails n o (recRowAt o.buf o.buf.length) 0 0)
        else if buf.length < 64 then (.done, { o with buf := buf }, s)
        else
          let hr := headerReason o buf
          let len := if hr = 0 ∨ hr = 5 then recBytesOf buf else 64
          let cnt := s.count (Reg.CHn_XP_IN_COUNT n) (min len buf.length - min len o.buf.length)
          if hr ≠ 0 then (.done, { o with buf := buf, reason := hr, sent := true }, cnt)
          else (.done, { o with buf := buf, sent := decide (len ≤ buf.length) }, cnt)
    | r => (.done, { o with reason := 7, sent := true }, s.countRegion n r (x / 256 * 256))

/-! ## Loads that will never become READY (R189) -/

/-- The shadow half waits for a load that will never become READY (R189). -/
def State.loadLost (s : State) (n : Nat) : Bool :=
  let c := s.ch n
  s.get (Reg.CHn_WTILE_SHADOW n) == 1 &&
  (match c.shadowOp with
    | none => true
    | some q => !c.ops.any fun o => o.kind == .ldW && o.seq == q && !o.failed)

/-- Queue entries ahead of the first swap that waits; it and everything behind it is discarded where its tile is lost (R189). -/
def State.liveMmas (s : State) (n : Nat) : List Mma :=
  if s.loadLost n then (s.ch n).mmas.takeWhile fun m => !(m.swap && !m.swapped) else (s.ch n).mmas

/-- A chamber as its other units see it: without the array entries that a lost tile discards (R189). -/
def State.liveCh (s : State) (n : Nat) : Chamber := { s.ch n with mmas := s.liveMmas n }

/-! ## The engine (R144, R149) -/

/-- A pass of an operation is over (R123, R124): after the last one the tile status word and the scale block's outputs are made, which
go to local memory with the tag (R85, R120). -/
def State.endPass (s : State) (n : Nat) (o : AsyncOp) : AsyncOp × State :=
  if !o.kind.isAcc then ({ o with sent := true }, s)
  else if o.reruns ∧ o.ovf ∧ o.k < 24 then ({ o with passEnd := true }, s)
  else
    let (t, ws) := s.scaleOuts n o
    ({ o with sent := true, passEnd := true, tsw := t, outs := ws },
      if o.reruns && o.flags.overflow then s.raise n o.pc o.tag { Flags.none with overflow := true } else s)

/-- An operation whose positions are at their end. -/
def State.checkEnd (s : State) (n : Nat) (o : AsyncOp) : AsyncOp × State :=
  let (o, s) := s.flushLines n o o.pos
  if o.sent then (o, s) else if o.limit ≤ o.pos then s.endPass n o else (o, s)

/-- The next request of an operation that walks its descriptor: quiet positions are passed, then one run is sent. Where the local side runs
out, the last byte of the first position that does not fit is recorded (R140, R154; log entry 77). -/
def State.walkOn (s : State) (n : Nat) (o : AsyncOp) (r : Arrival) : AsyncOp × State :=
  let fuel := o.limit - o.pos
  let p := s.skipQuiet n o fuel o.pos
  let ps0 := (List.range (p - o.pos)).map (o.pos + ·)
  let kind := if p < o.limit then s.posKind n o p else .quiet
  let run := if kind = .valid ∨ kind = .padWrite then s.runFrom n o kind (o.granule p) (o.limit - p) p else []
  let last := p + run.length
  let span := o.localSpan o.pos last
  if o.kind = .ldT ∧ (s.liveCh n).feedBlocked o.seq span.1 span.2 then (o, s)
  else
    let o1 := { o.fillQuiet ps0 with pos := p }
    match kind with
    | .quiet => s.checkEnd n o1
    | .broken =>
      let o2 := { o1 with limit := p, failed := o1.failed || o1.kind == .ldW, reason := if o1.kind = .ldW then 100 else o1.reason }
      let s2 := s.fail n 0x08 o.pc o.tag (s.unified n (dListAddr o.desc + 64 + 8 * (dCoord o.desc o.count p (dListDim o.desc)).toNat))
      if o.kind = .ldW then ({ o2 with sent := true }, s2) else s2.checkEnd n o2
    | .past =>
      let addr := if o.kind.isAcc then (s.ch n).accPhys o (p / o.p0) else localEnd o.desc o.laddr p
      (s.violCh n 3 addr).checkEnd n { o1 with limit := p }
    | .valid =>
      match (if o.kind = .ldT ∨ o.kind = .ldW then s.sendLoad n o1 run r else s.sendStore n o1 false run) with
      | (.waits, o2, s2) => (o2, s2)
      | (.done, o2, s2) => s2.checkEnd n { o2 with pos := last }
    | .padWrite =>
      match s.sendStore n o1 true run with
      | (.waits, o2, s2) => (o2, s2)
      | (.done, o2, s2) => s2.checkEnd n { o2 with pos := last }

/-- An operation waits for the array whose rows it reads (R33, R58): not once a chamber reset has discarded the entries. -/
def Chamber.accWaits (c : Chamber) (o : AsyncOp) : Bool := o.kind.isAcc && c.rowsPending (o.arr == 1) o.seq

/-- One step of the engine for an operation. -/
def State.advance (s : State) (n : Nat) (o : AsyncOp) (r : Arrival) : AsyncOp × State :=
  if o.passEnd || (s.liveCh n).accWaits o then (o, s)
  else
    let (o, s) := if o.begun then (o, s) else s.beginOp n o
    if o.sent then (o, s)
    else if !o.walks then
      let (_, o, s) := s.readRecord n o r
      (o, s)
    else s.walkOn n o r

/-- An operation of a chamber replaced. -/
def Chamber.setOp (c : Chamber) (o : AsyncOp) : Chamber := { c with ops := c.ops.map fun x => if x.seq = o.seq ∧ x.kind = o.kind then o else x }

/-- The operation whose requests go next: the oldest that has requests left (R144, R149). -/
def Chamber.nextOp (c : Chamber) : Option AsyncOp := c.ops.find? fun o => !o.sent

/-- The local bytes that an operation touches on its way from position `p` to `q` (R25): its scale block for a store of accumulator rows,
the bytes of the positions for the rest, nothing for an ld.w. -/
def AsyncOp.touched (o : AsyncOp) (p q : Nat) : List (Nat × Nat) :=
  if q ≤ p ∨ o.kind = .ldW then [] else if o.kind.isAcc then [(o.scalePlace 0, 0x2840)] else [o.localSpan p q]

/-- The physical accumulator rows that an operation reads on its way from position `p` to `q` (R92, R94). -/
def Chamber.accRead (c : Chamber) (o : AsyncOp) (p q : Nat) : List Nat :=
  if q ≤ p ∨ !o.kind.isAcc then []
  else (List.range ((q - 1) / o.p0 + 1 - p / o.p0)).flatMap fun i =>
    let r := c.accPhys o (p / o.p0 + i)
    if c.accInt o then [r, r + 1] else [r]

/-- DESCRIPTOR_REQUEST (R149, R152): the chamber's engine sends the next granule request; the ECC errors that its accesses to local memory
and to the accumulators find are given (R26, R94), and what a load finds as its granule arrives (R374). -/
def execDescriptorRequest (ch : Fin 28) (found : Errors) (s : State) : Host.Outcome State Fault Refusal :=
  let n := ch.val
  .next (match (s.ch n).nextOp with
    | none => s
    | some o =>
      let rows := (s.ch n).accRead o
      let (o', s) := s.advance n o found.arrival
      ((s.modCh n fun c => c.setOp o').upsets n o.pc o.tag (found.upsets.filter fun u => upsetMeets u false (o.touched o.pos o'.pos))).accUpsets n o.pc
        o.tag (found.accUpsets.filter fun u => accMeets u (o.arr == 1) (rows o.pos o'.pos)))

/-- STORE_RERUN (R123): an FP16 st.acc whose pass overflowed starts its next pass. -/
def execStoreRerun (ch : Fin 28) (s : State) : Host.Outcome State Fault Refusal :=
  .next (match (s.ch ch.val).nextOp with
    | none => s
    | some o =>
      if o.passEnd then
        (s.modCh ch.val fun c => c.setOp { o with
          passEnd := false, pos := 0, k := o.k + 8, ovf := false, rerun := true, flags := Flags.none }).put (Reg.CHn_EXC_RERUN ch.val) 1
      else s)

/-! ## Completion (R32, R129) -/

/-- CHn_TSW of the array a store named: bits [30:0] of its tile status word, ECC kept (R129). -/
def State.putTsw (s : State) (n : Nat) (o : AsyncOp) : State :=
  let t := o.tsw
  if o.arr = 1 then s.puts
    [(Reg.CHn_TSW_B_RERUN_K n, bits t 30 26), (Reg.CHn_TSW_B_RERUN n, bits t 25 25), (Reg.CHn_TSW_B_OVERFLOW n, bits t 24 24),
     (Reg.CHn_TSW_B_FLUSH n, bits t 23 23), (Reg.CHn_TSW_B_NAN n, bits t 22 22), (Reg.CHn_TSW_B_INF n, bits t 21 21),
     (Reg.CHn_TSW_B_INVALID n, bits t 20 20), (Reg.CHn_TSW_B_INV_COL n, bits t 17 10), (Reg.CHn_TSW_B_INV_ROW n, bits t 9 0)]
  else s.puts
    [(Reg.CHn_TSW_A_RERUN_K n, bits t 30 26), (Reg.CHn_TSW_A_RERUN n, bits t 25 25), (Reg.CHn_TSW_A_OVERFLOW n, bits t 24 24),
     (Reg.CHn_TSW_A_FLUSH n, bits t 23 23), (Reg.CHn_TSW_A_NAN n, bits t 22 22), (Reg.CHn_TSW_A_INF n, bits t 21 21),
     (Reg.CHn_TSW_A_INVALID n, bits t 20 20), (Reg.CHn_TSW_A_INV_COL n, bits t 17 10), (Reg.CHn_TSW_A_INV_ROW n, bits t 9 0)]

/-- An operation may complete: every request is answered, its last local writes may go (R85), a tile is READY (R77) or will never be
(R189). -/
def State.mayClear (s : State) (n : Nat) (o : AsyncOp) : Bool :=
  o.sent && (match o.kind with
    | .mv => !(s.liveCh n).feedBlocked o.seq o.laddr o.len
    | .ldW => o.failed || (s.ch n).shadowOp != some o.seq
    | _ => o.outs.all fun w => !(s.liveCh n).feedBlocked o.seq w.1 w.2.length)

/-- The local writes that go with an operation's tag: a move's, and a store's to its scale block (R32, R120). -/
def AsyncOp.lastWrites (o : AsyncOp) (m : Memory) : Memory :=
  if o.kind = .mv then memWrite m o.laddr (memRead m o.src o.len) else memWrites m o.outs

/-- An operation's last effects as its tag clears. -/
def State.clearOp (s : State) (n : Nat) (o : AsyncOp) : State :=
  let s := s.modCh n fun c => { c with lmem := o.lastWrites c.lmem }
  let s := if o.kind.isAcc && !o.failed then s.putTsw n o else s
  (s.modCh n fun c => { c with ops := c.ops.filter fun x => !(x.seq == o.seq && x.kind == o.kind) }).tryPosts n

end Sys2Proof.Machine
end

