-- ==== Sys2Proof/Machine/Expander.lean ====
section
/-! DEFINITION. The expander: raw, exponent-coded and low-rank tiles, and the moment a tile becomes READY (R77, R156 to R158, R181 to R189, R195 to R199). -/

namespace Sys2Proof.Machine

open Sys2Proof

/-! ## Exponent codes (R186, R187) -/

/-- SYM[i] of a code table, where NSYM covers it. -/
def tableSym (t : List Byte) (i : Nat) : Nat :=
  if i < bits (wordAt t 0) 11 8 then (t.getD (8 + i) 0).toNat else (Config.straySym i).toNat

/-- `k` bits of a stream from position `p`, most significant bit first (R187). -/
def msbBits (x p : Nat) : Nat → Nat
  | 0 => 0
  | k + 1 => b2n (bit x p) * 2 ^ k + msbBits x (p + 1) k

/-- One exponent field decoded at bit `p`, and the position after it (R187). -/
def decodeExp (t : List Byte) (expBits x p : Nat) : Nat × Nat :=
  if !bit x p then (tableSym t (msbBits x (p + 1) 1), p + 2)
  else if !bit x (p + 1) then (tableSym t (2 + msbBits x (p + 2) 2), p + 4)
  else if !bit x (p + 2) then (tableSym t (6 + msbBits x (p + 3) 3), p + 6)
  else (msbBits x (p + 3) expBits, p + 3 + expBits)

/-- `n` exponent fields decoded in element order, and the position after the last. -/
def decodeExps (t : List Byte) (expBits x : Nat) : Nat → Nat → List Nat × Nat
  | 0, p => ([], p)
  | n + 1, p =>
    let (e, p) := decodeExp t expBits x p
    let (es, p) := decodeExps t expBits x n p
    (e :: es, p)

/-- Bits of an exponent field of BF16 or FP16. -/
def expWidth (t : Nat) : Nat := if t = 1 then 8 else 5

/-- The bytes of a plane of `n` elements (R188). -/
def planeBytes (t n : Nat) : Nat := if t = 1 then n else n * 11 / 8

/-- Element `e` put together from its plane bits and its exponent field (R188). -/
def joinElem (t plane e x : Nat) : Nat :=
  if t = 1 then
    let b := plane / 256 ^ e % 256
    b / 128 * 2 ^ 15 + x % 256 * 2 ^ 7 + b % 128
  else
    let b := plane / 2 ^ (11 * e) % 2 ^ 11
    b / 1024 * 2 ^ 15 + x % 32 * 2 ^ 10 + b % 1024

/-- A block of `n` elements decoded: none where it is malformed (case 6 of R185). -/
def decodeBlock (t : Nat) (table : List Byte) (esc : Bool) (bs : List Byte) (n : Nat) : Option (List Nat) :=
  if esc then some ((List.range n).map fun e => leNat ((bs.drop (2 * e)).take 2))
  else
    let pb := planeBytes t n
    let stream := bs.drop pb
    let (es, used) := decodeExps table (expWidth t) (leNat stream) n 0
    if bs.length < pb ∨ 8 * stream.length < used ∨ pb + 64 * cdiv used 512 ≠ bs.length then none
    else some (es.zipIdx.map fun (x, e) => joinElem t (leNat (bs.take pb)) e x)

/-- The blocks of a coded record decoded from block `b` on, `bs` starting at it. -/
def decodeBlocks (t : Nat) (table hd : List Byte) : Nat → Nat → List Byte → Option (List Nat)
  | 0, _, _ => some []
  | k + 1, b, bs =>
    if recKrows hd ≤ 16 * b then some []
    else
      let l := recLen hd b
      match decodeBlock t table (bit l 15) (bs.take (64 * (l % 128))) (128 * min 16 (recKrows hd - 16 * b)) with
      | none => none
      | some es => (decodeBlocks t table hd k (b + 1) (bs.drop (64 * (l % 128)))).map (es ++ ·)

/-- The elements of a coded record in tile order. -/
def decodeRecord (o : AsyncOp) : Option (List Nat) :=
  decodeBlocks (dType o.desc) o.table o.buf 8 0 (o.buf.drop (64 + 64 * cdiv (recKrows o.buf) 16))

/-- Escaped blocks of a coded record. -/
def escBlocks (hd : List Byte) : Nat :=
  ((List.range 8).filter fun b => 16 * b < recKrows hd && bit (recLen hd b) 15).length

/-- The lowest row of a decoded tile whose check differs, with the check found and the one expected (R189). -/
def badRow (hd : List Byte) (es : List Nat) : Option (Nat × Nat × Nat) :=
  (List.range (recKrows hd)).findSome? fun f =>
    let found := (crc32c (((es.drop (128 * f)).take 128).flatMap (leBytes 2))).toNat
    let want := leNat ((hd.drop (64 + 4 * f)).take 4)
    if found = want then none else some (f, found, want)

/-! ## Low-rank tiles (R197, R198) -/

/-- Element `i` of the array of 16-bit elements at offset `off` of a record. -/
def recElem (bs : List Byte) (off i : Nat) : Nat := leNat ((bs.drop (off + 2 * i)).take 2)

/-- One element of the expanded tile before conversion, from k on (R198). -/
def lowRankSum (t : Nat) (bs : List Byte) (r i j : Nat) : Nat → Nat → Lane × Flags → Lane × Flags
  | 0, _, a => a
  | n + 1, k, (a, f) =>
    let u := decodeElem t (recElem bs 64 (128 * k + i))
    let v := decodeElem t (recElem bs (64 + 256 * r) (128 * k + j))
    let (p, g) := mulVal u v
    let (x, h) := if k = 0 then rounded (p, g) else
      let (y, h) := addVal (val32 a) p
      rounded (y, g.join h)
    lowRankSum t bs r i j n (k + 1) (x, f.join h)

/-- The elements of a low-rank tile by row, with the flags raised (R198). -/
def lowRankTile (o : AsyncOp) : List (Nat × Nat) × Flags :=
  let t := dType o.desc
  let r := recRank o.buf
  let cells := (List.range (recKrows o.buf)).flatMap fun i => (List.range 128).map fun j => (i, j)
  let vals := cells.map fun (i, j) =>
    let (a, f) := lowRankSum t o.buf r i j r 0 (0, Flags.none)
    let (x, g) := convert t false a
    ((i * 256 + j, x), f.join g)
  (vals.map (·.1), vals.foldl (fun f v => f.join v.2) Flags.none)

/-! ## The tile becomes READY (R77) -/

/-- The present mask of a tile of `k` filled rows without a list (R158). -/
def maskOfRows (k : Nat) : Nat := 2 ^ cdiv k 8 - 1

/-- A tile's content from (window row * 256 + column, element) pairs. -/
def tileOf (mask : Nat) (es : List (Nat × Nat)) : WTile := ⟨mask, es.foldl (fun m e => mapSet 0 m e.1 e.2) []⟩

/-- The tile of a raw load (R158, R182). -/
def rawTile (o : AsyncOp) : WTile :=
  if dList o.desc then
    tileOf o.mask (o.elems.filterMap fun e =>
      (bandAt o.mask (e.1 / 256 / 8)).map fun b => ((8 * b + e.1 / 256 % 8) * 256 + e.1 % 256, e.2))
  else tileOf (maskOfRows (min (tileRows (dType o.desc)) (cdiv o.limit o.p0))) o.elems

/-- A malformed load is counted and recorded (R185). -/
def State.malformed (s : State) (n : Nat) (o : AsyncOp) (reason : Nat) : State :=
  (s.violCh n 0 0).puts
    [(Reg.CHn_XP_LAST_VALID n, 1), (Reg.CHn_XP_LAST_REASON n, reason), (Reg.CHn_XP_LAST_TAG n, o.tag),
     (Reg.CHn_XP_LAST_ADDR n, dBase o.desc)]

/-- The tile enters the shadow half READY; no queued block names its table slot any more (R77, R195). -/
def State.tileReady (s : State) (n : Nat) (o : AsyncOp) (t : WTile) : State :=
  let s := (s.modCh n fun c => { c with shadow := t, shadowOp := none }).put (Reg.CHn_WTILE_SHADOW n) 2
  if o.xmode = 1 then s.put (if o.xslot = 1 then Reg.CHn_XT_SLOT1_QUEUED n else Reg.CHn_XT_SLOT0_QUEUED n) 0 else s

/-- A decoded row fails its check: the chamber halts with POISON and the tile never becomes READY (R189). -/
def State.rowFails (s : State) (n : Nat) (o : AsyncOp) (e : Nat × Nat × Nat) : State :=
  (s.modCh n fun c => c.setOp { o with failed := true, reason := 100 }).recordFails n o e.1 e.2.1 e.2.2

/-- The rows a compressed load delivered are counted (CHn_XP_OUT). -/
def State.delivered (s : State) (n : Nat) (o : AsyncOp) : State := s.count (Reg.CHn_XP_OUT_COUNT n) (256 * recKrows o.buf)

/-- A load whose bytes have all come is expanded. -/
def State.expand (s : State) (n : Nat) (o : AsyncOp) : State :=
  if dBad o.desc then s.tileReady n o (tileOf 0 [])
  else if o.reason ≠ 0 then (s.malformed n o o.reason).tileReady n o (tileOf 0 [])
  else if o.xmode = 0 then s.tileReady n o (rawTile o)
  else if o.xmode = 1 then
    match decodeRecord o with
    | none => (s.malformed n o 6).tileReady n o (tileOf 0 [])
    | some es =>
      let s := s.count (Reg.CHn_XP_ESC_COUNT n) (escBlocks o.buf)
      match badRow o.buf es with
      | some e => s.rowFails n o e
      | none => (s.delivered n o).tileReady n o
          (tileOf (maskOfRows (recKrows o.buf)) (es.zipIdx.map fun (x, i) => (i / 128 * 256 + i % 128, x)))
  else
    let (es, f) := lowRankTile o
    ((s.delivered n o).tileReady n o (tileOf (maskOfRows (recKrows o.buf)) es)).raise n o.pc o.tag f

/-- The load in the shadow half, once every byte of it has come. -/
def Chamber.loadedOp (c : Chamber) : Option AsyncOp :=
  match c.shadowOp with
  | none => none
  | some q => c.ops.find? fun o => o.kind == .ldW && o.seq == q && o.sent && !o.failed

/-- WEIGHT_TILE_READY (R77). -/
def execWeightTileReady (ch : Fin 28) (s : State) : Host.Outcome State Fault Refusal :=
  .next (match (s.ch ch.val).loadedOp with
    | none => s
    | some o => s.expand ch.val o)

end Sys2Proof.Machine
end

