-- ==== Sys2Proof/Machine/Matrix.lean ====
section
/-! DEFINITION. The matrix arrays: the swap, the entry of activation vectors, and the accumulator rows they write (R72 to R96, R104 to R110, R125). -/

namespace Sys2Proof.Machine

open Sys2Proof

/-! ## Queues (R78, R79) -/

/-- The entry at the head of an array's queue. -/
def Chamber.head (c : Chamber) (b : Bool) : Option Mma := c.mmas.find? fun m => if b then m.inB else m.inA

/-- A queue entry replaced, or dropped once no queue holds it. -/
def Chamber.setMma (c : Chamber) (m : Mma) : Chamber :=
  { c with mmas := (c.mmas.map fun x => if x.seq = m.seq then m else x).filter fun x => x.inA || x.inB }

/-- A queue entry dropped. -/
def Chamber.dropMma (c : Chamber) (m : Mma) : Chamber := { c with mmas := c.mmas.filter fun x => x.seq != m.seq }

/-- An earlier st.acc of an array has still to read its rows (R33). -/
def Chamber.storesPending (c : Chamber) (b : Bool) (seq : Nat) : Bool :=
  c.ops.any fun o => (o.kind == .stAcc || o.kind == .stAccAdd) && (o.arr == 1) == b && !o.sent && decide (o.seq < seq)

/-- An mma meets the interlocks of R33 on every array it feeds. -/
def Chamber.interlocked (c : Chamber) (m : Mma) : Bool :=
  (decide (0 < m.endA) && c.storesPending false m.seq) || (decide (m.startB < m.endB) && c.storesPending true m.seq)

/-- The swapping entry that stands at the head of both queues and has met its interlocks (R79), whatever the shadow. -/
def Chamber.swapper (c : Chamber) : Option Mma :=
  match c.head false, c.head true with
  | some a, some b => if a.seq = b.seq ∧ a.swap ∧ !a.swapped ∧ !c.interlocked a then some a else none
  | _, _ => none

/-! ## The tile in use (R75, R80, R81) -/

/-- Present bands of a mask. -/
def bandsOf (mask : Nat) : List Nat := (List.range 32).filter fun b => bit mask b

/-- A tile of 16-bit or 8-bit use keeps its 16 lowest bands; each cut is counted (R75). -/
def State.cutMask (s : State) (n : Nat) : State :=
  let m := (s.ch n).active.bands
  if popCount m ≤ 16 then s
  else
    let m' := lowBits m 16
    ((s.modCh n fun c => { c with active := { c.active with bands := m' } }).put (Reg.CHn_WTILE_BANDS n) m').violCh n 0 0

/-- The active tile has no type: none was swapped in since reset, or it was swapped in unloaded (R80). -/
def State.unloaded (s : State) (n : Nat) : Bool := !s.flag (Reg.CHn_WTILE_VALID n) || s.flag (Reg.CHn_WTILE_UNLOADED n)

/-- An mma meets the active tile: counted against a tile never swapped in (R80), refused where its WTYPE differs (R81), and an INT4
tile cut where the mma uses it outside 4-bit mode (R75). -/
def State.checkMma (s : State) (n : Nat) (m : Mma) : State :=
  let m' := { m with checked := true }
  if s.unloaded n then
    let s := s.modCh n fun c => c.setMma m'
    if s.flag (Reg.CHn_WTILE_VALID n) then s else s.violCh n 0 0
  else if m.wtype ≠ s.get (Reg.CHn_WTILE_TYPE n) then (s.modCh n fun c => c.dropMma m).violCh n 0 0
  else
    let s := s.modCh n fun c => c.setMma m'
    if mode4 m.atype m.wtype then s else s.cutMask n

/-- The swap itself (R79, R80): the shadow half becomes the active one. A tile of a type that no mma can use, FP32 or INT32 (log entry 24), has
its mask cut as those of BF16, FP16 and INT8 (R75; log entry 77). -/
def State.doSwap (s : State) (n : Nat) (m : Mma) : State :=
  let empty := s.get (Reg.CHn_WTILE_SHADOW n) == 0
  let t := if empty then WTile.reset else (s.ch n).shadow
  let s := s.modCh n fun c => { c with active := t, shadow := WTile.reset }
  let s := s.puts
    [(Reg.CHn_WTILE_VALID n, 1), (Reg.CHn_WTILE_UNLOADED n, b2n empty), (Reg.CHn_WTILE_TYPE n, s.get (Reg.CHn_WTILE_SHADOW_TYPE n)),
     (Reg.CHn_WTILE_SHADOW n, 0), (Reg.CHn_WTILE_BANDS n, t.bands)]
  let s := s.count (Reg.CHn_SWAP_COUNT_COUNT n) 1
  let s := if empty then s.violCh n 0 0 else if s.get (Reg.CHn_WTILE_TYPE n) = 4 then s else s.cutMask n
  if m.wsw then s.modCh n fun c => c.dropMma m
  else
    let m' := { m with swapped := true, inA := decide (m.nextA < m.endA), inB := decide (m.nextB < m.endB) }
    (s.modCh n fun c => c.setMma m').checkMma n m'

/-- SWAP (R79): the swapping entry at the head of both queues swaps once the shadow is READY, or EMPTY with no load. -/
def execSwap (ch : Fin 28) (s : State) : Host.Outcome State Fault Refusal :=
  let n := ch.val
  .next (match (s.ch n).swapper with
    | none => s
    | some m => if s.get (Reg.CHn_WTILE_SHADOW n) = 1 ∨ s.held then s else s.doSwap n m)

/-! ## Vectors (R73, R74, R83, R88 to R90, R104 to R108) -/

/-- Window rows of the present bands, in ascending order (R74). -/
def windowRows (mask : Nat) : List Nat := (bandsOf mask).flatMap fun b => (List.range 8).map (8 * b + ·)

/-- Activation element `k` of a vector (R83, R101). -/
def Chamber.actElem (c : Chamber) (m : Mma) (j k : Nat) : Nat :=
  let a := m.act + j * m.pitch
  match typeBits m.atype with
  | 16 => memNat c.lmem (a + 2 * k) 2
  | 8 => (memByte c.lmem (a + k)).toNat
  | _ => (memByte c.lmem (a + k / 2)).toNat / 16 ^ (k % 2) % 16

/-- Logical columns of an array in 16-bit mode (R73). -/
def State.arrWidth (s : State) (n : Nat) (b : Bool) : Nat :=
  s.get (if b then Reg.CHn_CAP_COLS16_B n else Reg.CHn_CAP_COLS16_A n)

/-- The signed value of an integer element. -/
def intElem (t x : Nat) : Int := signedOf (typeBits t) x

/-- What a vector brings to each column: chunk sums in 16-bit mode (R108), exact integer sums modulo 2^32 otherwise (R107);
nothing where no band is present. -/
def Chamber.vector (c : Chamber) (m : Mma) (cols j : Nat) : List (Lane × Flags) :=
  let rows := windowRows c.active.bands
  if rows = [] then []
  else
    let acts := rows.map fun k => (k, c.actElem m j k)
    (List.range cols).map fun col =>
      if mode16 m.atype m.wtype then
        chunkSum (acts.map fun e => mulVal (decodeElem m.atype e.2) (decodeElem m.wtype (mapGet 0 c.active.data (e.1 * 256 + col))))
      else
        (BitVec.ofInt 32 (acts.foldl (fun x e =>
          x + intElem m.atype e.2 * intElem m.wtype (mapGet 0 c.active.data (e.1 * 256 + col))) 0), Flags.none)

/-- Row `j` of an mma is masked (R88). -/
def Chamber.maskedRow (c : Chamber) (m : Mma) (j : Nat) : Bool := m.msk && bit (memByte c.lmem (m.mask + j / 8)).toNat (j % 8)

/-- A row on its way to the accumulators of an array. -/
def Chamber.pushRow (c : Chamber) (b : Bool) (r : InRow) : Chamber :=
  if b then { c with inflightB := c.inflightB ++ [r] } else { c with inflightA := c.inflightA ++ [r] }

/-- A vector has entered an array in this cycle (R86). -/
def Chamber.markFed (c : Chamber) (b : Bool) : Chamber := if b then { c with fedB := true } else { c with fedA := true }

/-- The next row index of an mma on an array, and where its rows end. -/
def Mma.next (m : Mma) (b : Bool) : Nat := if b then m.nextB else m.nextA
def Mma.last (m : Mma) (b : Bool) : Nat := if b then m.endB else m.endA

/-- A row passed on an array; the entry leaves the queue with its last row. -/
def Mma.pass (m : Mma) (b : Bool) : Mma :=
  if b then { m with nextB := m.nextB + 1, inB := decide (m.nextB + 1 < m.endB) }
  else { m with nextA := m.nextA + 1, inA := decide (m.nextA + 1 < m.endA) }

/-- The accumulator row of row `j` of an mma on an array (R45, R88). -/
def Mma.accRow (m : Mma) (b : Bool) (j : Nat) : Nat := m.acc + (if b then j - m.startB else j)

/-- Masked rows ahead of the next unmasked one are passed: counted, and under MASKZ sent to the zeroing port (R88, R89). -/
def State.passMasked (s : State) (n : Nat) (b : Bool) : Nat → Mma → Mma × State
  | 0, m => (m, s)
  | f + 1, m =>
    if m.next b < m.last b ∧ (s.ch n).maskedRow m (m.next b) then
      let wide := !mode16 m.atype m.wtype
      let cols := (if wide then 2 else 1) * s.arrWidth n b
      let r : InRow := ⟨m.seq, m.pc, m.accRow b (m.next b), wide, true, List.replicate cols 0, []⟩
      let s := s.count (Reg.CHn_MASKED_ROWS_COUNT n) 1
      let s := if m.maskz then s.modCh n fun c => c.pushRow b r else s
      s.passMasked n b f (m.pass b)
    else (m, s)

/-- The next unmasked vector of an mma enters array row 0. -/
def State.enterRow (s : State) (n : Nat) (b : Bool) (m : Mma) : Mma × State :=
  if m.last b ≤ m.next b then (m, s)
  else
    let wide := !mode16 m.atype m.wtype
    let cols := (if wide then 2 else 1) * s.arrWidth n b
    let vs := (s.ch n).vector m cols (m.next b)
    let vs := if vs.isEmpty && m.zero then List.replicate cols ((0 : Lane), Flags.none) else vs
    let r : InRow := ⟨m.seq, m.pc, m.accRow b (m.next b), wide, m.zero, vs.map (·.1), vs.map (·.2)⟩
    let s := s.modCh n fun c => (c.pushRow b r).markFed b
    (m.pass b, s.count (if b then Reg.CHn_ARR_CYC_B_COUNT n else Reg.CHn_ARR_CYC_A_COUNT n) 1)

/-- The head entry of an array feeds its next vector. -/
def State.feed (s : State) (n : Nat) (b : Bool) (m : Mma) : State :=
  let (m, s) := s.passMasked n b (m.last b - m.next b) m
  let (m, s) := s.enterRow n b m
  let (m, s) := s.passMasked n b (m.last b - m.next b) m
  s.modCh n fun c => c.setMma m

/-- The head entry of an array may feed: swapped if it swaps, past its interlock, and no Hold (R33, R79, R95). -/
def State.mayFeed (s : State) (n : Nat) (b : Bool) : Option Mma :=
  match (s.ch n).head b with
  | none => none
  | some m => if m.wsw || (m.swap && !m.swapped) || (s.ch n).interlocked m || s.held then none else some m

/-- The local bytes that the feeder reads for row `j` of an mma: the 512 bytes of its read interval, and its byte of the row mask (R83,
R85, R88). -/
def Mma.touched (m : Mma) (j : Nat) : List (Nat × Nat) :=
  (m.act + j * m.pitch, 512) :: (if m.msk then [(m.mask + j / 8, 1)] else [])

/-- The physical rows that an accumulator row of a mode occupies (R92). -/
def physRows (wide : Bool) (row : Nat) : List Nat := if wide then [2 * row, 2 * row + 1] else [row]

/-- VECTOR_ENTRY (R83): the feeder's next vector enters an array; the ECC errors its reads find are given (R26, R94). -/
def execVectorEntry (ch : Fin 28) (arrB : Bool) (upsets : List Upset) (accUpsets : List AccUpset) (s : State) :
    Host.Outcome State Fault Refusal :=
  let n := ch.val
  .next (match s.mayFeed n arrB with
    | none => s
    | some m =>
      let s := if m.checked then s else s.checkMma n m
      match (s.ch n).head arrB with
      | none => s
      | some h =>
        if h.seq = m.seq then
          let j := h.next arrB
          let rows := physRows (!mode16 h.atype h.wtype) (h.accRow arrB j)
          ((s.feed n arrB h).upsets n m.pc 0 (upsets.filter fun u => upsetMeets u false (h.touched j))).accUpsets n m.pc 0
            (accUpsets.filter fun u => accMeets u arrB rows)
        else s)

/-! ## Accumulator rows (R91, R92, R107, R110, R125) -/

/-- The accumulator of an array replaced. -/
def Chamber.setAcc (c : Chamber) (b : Bool) (m : Map Lane) : Chamber := if b then { c with accB := m } else { c with accA := m }

/-- The physical row and column of column `i` of an accumulator row (R92). -/
def InRow.place (r : InRow) (i : Nat) : Nat := if r.wide then 128 * (2 * r.row + i / 128) + i % 128 else 128 * r.row + i

/-- One column's new accumulator value and the flags of its column: ZERO and zero writes replace, the rest add. -/
def InRow.update (r : InRow) (old c : Lane) (f : Flags) : Lane × Flags :=
  if r.zero then (c, f)
  else if r.wide then (old + c, f)
  else
    let (x, g) := fadd old c
    (x, f.join g)

/-- The row flags after one column (R125). -/
def RowFlags.column (rf : RowFlags) (wide : Bool) (i : Nat) (x : Lane) (f : Flags) : RowFlags :=
  { inv := rf.inv || f.invalid
    invCol := if f.invalid then (if rf.inv then min rf.invCol i else i) else rf.invCol
    inf := rf.inf || (!wide && laneInf x), nan := rf.nan || (!wide && laneNan x), flush := rf.flush || f.flush }

/-- The columns of a row applied to the accumulator, with the row flags and all flags raised. -/
def InRow.apply (r : InRow) : List (Lane × Flags) → Nat → Map Lane × RowFlags × Flags → Map Lane × RowFlags × Flags
  | [], _, a => a
  | (v, f) :: vs, i, (m, rf, fl) =>
    let (x, g) := r.update (mapGet 0 m (r.place i)) v f
    r.apply vs (i + 1) (mapSet 0 m (r.place i) x, rf.column r.wide i x g, fl.join g)

/-- The physical rows that an accumulator row occupies. -/
def InRow.phys (r : InRow) : List Nat := physRows r.wide r.row

/-- Row flags cleared at physical rows, as ZERO and a zeroing write do (R125). -/
def clearFlags (m : Map RowFlags) (ps : List Nat) : Map RowFlags := ps.foldl (fun m p => mapSet RowFlags.reset m p RowFlags.reset) m

/-- A row's accumulators, mode tags and row flags written; the flags that a row raises stand at its first physical row. -/
def Chamber.writeRow (c : Chamber) (b : Bool) (r : InRow) : Chamber × Flags :=
  if r.vals = [] then (c, Flags.none)
  else
    let p := r.phys.headD 0
    let rfs := if b then c.rowFlagsB else c.rowFlagsA
    let rfs := if r.zero then clearFlags rfs r.phys else rfs
    let rf0 := mapGet RowFlags.reset rfs p
    let (m, rf, fl) := r.apply (r.vals.zipIdx.map fun (v, i) => (v, r.flags.getD i Flags.none)) 0 (c.acc b, rf0, Flags.none)
    let rfs := mapSet RowFlags.reset rfs p rf
    let tags := r.phys.foldl (fun t q => mapSet false t q r.wide) (if b then c.tagB else c.tagA)
    let c := c.setAcc b m
    (if b then { c with rowFlagsB := rfs, tagB := tags } else { c with rowFlagsA := rfs, tagA := tags }, fl)

/-- The oldest row on its way through an array, and the chamber without it. -/
def Chamber.popRow (c : Chamber) (b : Bool) : Option (InRow × Chamber) :=
  match (if b then c.inflightB else c.inflightA) with
  | [] => none
  | r :: rs => some (r, if b then { c with inflightB := rs } else { c with inflightA := rs })

/-- ACCUMULATOR_ROW_WRITE (R91): the oldest vector in an array, or masked row under MASKZ, reaches its accumulator row; the ECC
errors that the array's reads find are given (R94). -/
def execAccumulatorRowWrite (ch : Fin 28) (arrB : Bool) (accUpsets : List AccUpset) (s : State) : Host.Outcome State Fault Refusal :=
  let n := ch.val
  .next (match (s.ch n).popRow arrB with
    | none => s
    | some (r, c) =>
      let (c, f) := c.writeRow arrB r
      (((s.setCh n c).accUpsets n r.pc 0 (accUpsets.filter fun u => accMeets u arrB r.phys)).raise n r.pc 0 f))

end Sys2Proof.Machine
end

