-- ==== Sys2Proof/Machine/ChamberCtl.lean ====
section
/-! DEFINITION. Starting, stopping, resetting and halting a chamber; the clearing of tags; signal words, bundle memory and region tables written as registers (R32, R50, R55 to R66, R96, R153). -/

namespace Sys2Proof.Machine

open Sys2Proof

/-! ## Reset of a chamber (R58, R447) -/

/-- First offset of a chamber's block (R64). -/
def chBlock (n : Nat) : Nat := 0x1000000 + n * 0x100000

/-- A chamber whose issued operations are complete takes its reset values: local and bundle memory and the error counts stay (R58, R451). -/
def State.finishReset (s : State) (n : Nat) : State :=
  let c := s.ch n
  let s := s.setCh n { Chamber.reset with
    bmem := c.bmem, lmem := c.lmem, errCount := c.errCount, cycBase := s.aclk, startNext := c.startNext, prog := c.prog }
  (s.resetRange .chamber (chBlock n) (chBlock n + 0x100000)).put (Reg.CHn_STATUS_STATE n) 1

/-- The coder's running job is abandoned, without a STATUS and without a post (R194, R196). -/
def State.dropCoder (s : State) (n : Nat) : State :=
  { s.modCh n fun c => { c with tableLoad := none, codeJob := none } with heldEnds := s.heldEnds.filter fun e => match e.work with
      | .coder m _ _ _ _ => m != n
      | _ => true }

/-- A reset begins: issue stops, queued array entries are discarded with the rows that are on their way through the arrays (R96; log entry
77), issued operations go on (R58). A job of the coder is abandoned (R194, R196). -/
def State.beginReset (s : State) (n : Nat) : State :=
  let s := s.modCh n fun c => { c with resetting := true, mmas := [], inflightA := [], inflightB := [], waitSince := none }
  let s := s.dropCoder n
  if (s.ch n).ops = [] then s.finishReset n else s

/-! ## Start (R57) -/

/-- Operand words as scalar registers s1 to s8. -/
def putArgs (r : Vector Word 32) (args : List Word) : Vector Word 32 :=
  ⟨⟨r.toList.zipIdx.map fun (x, i) => if 1 ≤ i ∧ i ≤ 8 then args.getD (i - 1) 0 else x⟩, by simp⟩

/-- The chamber starts: p1 to p7 cleared, s1 to s8 loaded, PC set, state RUN (R57). -/
def State.startAt (s : State) (n pc : Nat) (args : List Word) : State :=
  let s := s.modCh n fun c =>
    { c with preds := 0, sregs := putArgs c.sregs args, startNext := none, halt := none, waitSince := none }
  s.puts [(Reg.CHn_CTL_START_PC n, pc), (Reg.CHn_STATUS_PC n, pc), (Reg.CHn_STATUS_STATE n, 2)]

/-- A start that waited for a reset or a halt to complete (R58). -/
def State.startWaiting (s : State) (n : Nat) : State :=
  match (s.ch n).startNext with
  | some (pc, args) => s.startAt n pc args
  | none => s

/-- Eight free words: the argument words of a start that carries no work item (R57 gives them no value). -/
def State.freeArgs (s : State) : List Word × State :=
  ((List.range 8).map fun i => Config.freeWord (s.freeCount + i), { s with freeCount := s.freeCount + 8 })

/-- The START bit of a write (R57, R59): from IDLE or HALT the chamber starts; in RUN or WAIT the start is ignored and counted. -/
def State.startBit (s : State) (n pc : Nat) (args : List Word) : State :=
  if s.chState n = 1 ∨ s.chState n = 4 then s.startAt n pc args else s.violCh n 0 0

/-- A write's STOP will halt the chamber. -/
def State.stops (s : State) (n : Nat) (stop : Bool) : Bool := stop && (s.chState n == 2 || s.chState n == 3) && !(s.ch n).resetting

/-- The START of a write is ignored and counted (R59): nothing in the write brings the chamber to IDLE or HALT first. -/
def State.startLost (s : State) (n : Nat) (reset stop start : Bool) : Bool :=
  start && !reset && !s.stops n stop && !(s.chState n == 1 || s.chState n == 4)

/-! ## The control register (R57 to R59) -/

/-- The STOP bit: a running chamber records STOPPED; any other is left alone (R58, R60). -/
def State.stopBit (s : State) (n : Nat) : State :=
  if (s.chState n = 2 ∨ s.chState n = 3) ∧ !(s.ch n).resetting then
    s.halt n { cause := 0x0A, faultPc := s.chPc n, nextPc := s.chPc n, tag := 0, slot := 0, source := 3, addr := 0, row := 0, found := 0, expected := 0 }
  else s

/-- RESET, STOP and START of one write, in that order, each on the state the one before it leaves (R58). A start after the reset of the
same write begins at the START_PC that the write carries, though the reset clears that field (log entry 77). -/
def State.ctlBits (s : State) (n pc : Nat) (reset stop start : Bool) (args : List Word) : State :=
  if reset then
    let s := s.modCh n fun c => { c with startNext := if start then some (pc, args) else none }
    let s := s.beginReset n
    if (s.ch n).resetting then s else s.startWaiting n
  else if s.stops n stop then
    (s.stopBit n).modCh n fun c => { c with startNext := if start then some (pc, args) else c.startNext }
  else if start then s.startBit n pc args else s

/-- A write to CHn_CTL (R57 to R59, R66, R455, R461): START_PC is stored, then the bits act. `args` are a work item's argument words;
a write without them, as the host's, loads free ones. A nonzero reserved bit (`bad`) is counted where nothing else of the write is (R8,
R389). -/
def State.writeCtl (s : State) (n agent pc : Nat) (bad reset stop start : Bool) (args : Option (List Word)) : State :=
  let s := s.wake
  if s.chState n = 0 then s.violGlb agent 0 (chBlock n)
  else
    let s := if bad && !s.startLost n reset stop start then s.violGlb agent 2 (chBlock n) else s
    let s := s.put (Reg.CHn_CTL_START_PC n) pc
    let (a, s) := match args with
      | some a => (a, s)
      | none => if start then s.freeArgs else ([], s)
    s.ctlBits n pc reset stop start a

/-- A write to CHn_CTL as it arrives: a host's while a step plan runs is ignored and counted in CHn_VIOL_COUNT, of a chamber that is OFF
too (R59, before R66; log entry 77); one to a chamber that is OFF is counted in GLB_VIOL_COUNT; one in Hold waits for resume (R461); in
recovery no chamber runs (R430). -/
def State.ctlArrives (s : State) (n agent pc : Nat) (bad reset stop start : Bool) (args : Option (List Word)) : State :=
  if agent = 0 ∧ s.stepRuns then s.violCh n 0 0
  else if s.chState n = 0 then s.violGlb agent 0 (chBlock n)
  else if s.flag Reg.SEC_BOOT_RECOVERY then s
  else if s.held then { s with deferred := s.deferred ++ [.ctl n agent pc bad reset stop start args] }
  else s.writeCtl n agent pc bad reset stop start args

/-- CHAMBER_START (R57): Lantern or Traverse writes START with the argument words, or the host without. -/
def execChamberStart (ch : Fin 28) (host : Bool) (pc : BitVec 12) (args : List Word) (s : State) : Host.Outcome State Fault Refusal :=
  .next (s.ctlArrives ch.val (if host then 0 else 3) pc.toNat false false false true (if host then none else some args))

/-- CHAMBER_STOP (R58). The write keeps START_PC. -/
def execChamberStop (ch : Fin 28) (host : Bool) (s : State) : Host.Outcome State Fault Refusal :=
  .next (s.ctlArrives ch.val (if host then 0 else 3) (s.get (Reg.CHn_CTL_START_PC ch.val)) false false true false none)

/-- CHAMBER_RESET (R58). The write keeps START_PC until the reset clears it. -/
def execChamberReset (ch : Fin 28) (host : Bool) (s : State) : Host.Outcome State Fault Refusal :=
  .next (s.ctlArrives ch.val (if host then 0 else 3) (s.get (Reg.CHn_CTL_START_PC ch.val)) false true false false none)

/-! ## Tags (R32, R129) -/

/-- A failed compressed load queues no block any more (R195). -/
def State.unqueueFailed (s : State) (n : Nat) (o : AsyncOp) : State :=
  if o.kind == .ldW && o.failed && o.xmode == 1 then
    s.put (if o.xslot = 1 then Reg.CHn_XT_SLOT1_QUEUED n else Reg.CHn_XT_SLOT0_QUEUED n) 0
  else s

/-- A chamber in reset whose last operation has completed finishes it, and starts if the write said so (R58). -/
def State.resetIfDrained (s : State) (n : Nat) : State :=
  if (s.ch n).resetting ∧ (s.ch n).ops = [] then (s.finishReset n).startWaiting n else s

/-- The local bytes that an operation's last effects touch: a move's source and destination, a store's scale block (R25). -/
def AsyncOp.lastTouched (o : AsyncOp) : List (Nat × Nat) :=
  if o.kind = .mv then [(o.src, o.len), (o.laddr, o.len)] else o.outs.map fun w => (w.1, w.2.length)

/-- TAG_CLEAR (R32, R129): the named outstanding operation completes, if every request of it is answered; the ECC errors that its last
local accesses find are given (R26). -/
def execTagClear (ch : Fin 28) (done : TagDone) (s : State) : Host.Outcome State Fault Refusal :=
  let n := ch.val
  .next (match (s.ch n).ops[done.op.val]? with
    | none => s
    | some o =>
      if s.mayClear n o then
        (((s.clearOp n o).unqueueFailed n o).upsets n o.pc o.tag (done.upsets.filter fun u => upsetMeets u false o.lastTouched)).resetIfDrained n
      else s)

/-! ## Wait timeout and halt (R55, R60, R61) -/

/-- A wait.sig is satisfied (R39). -/
def State.waitMet (s : State) (w : WaitOn) : Bool := if w.eq then s.sig w.sig == w.value else decide (w.value ≤ s.sig w.sig)

/-- WAIT_TIMEOUT (R55): a wait.sig that has waited LIMIT_US microseconds and is not satisfied halts the chamber; a limit of zero is none. A
chamber that a halt has been recorded for issues nothing any more. -/
def execWaitTimeout (ch : Fin 28) (s : State) : Host.Outcome State Fault Refusal :=
  let n := ch.val
  let limit := s.get (Reg.CHn_WAIT_LIMIT_LIMIT_US n)
  .next (match (s.ch n).waitSince with
    | none => s
    | some w =>
      if s.chState n = 3 ∧ limit ≠ 0 ∧ limit * 1700 ≤ s.cycle - w.since ∧ !s.waitMet w ∧ !s.held ∧ !(s.ch n).resetting ∧ (s.ch n).halt = none then
        s.halt n { cause := 0x06, faultPc := s.chPc n, nextPc := s.chPc n, tag := 0, slot := 0, source := 3, addr := 0, row := 0, found := 0, expected := 0 }
      else s)

/-- A chamber with a recorded halt has drained: operations, array queues and rows on their way (R60, R96). -/
def State.drained (s : State) (n : Nat) : Bool :=
  let c := s.ch n
  c.ops.isEmpty && (s.liveMmas n).isEmpty && c.inflightA.isEmpty && c.inflightB.isEmpty

/-- The error-log entry of a halt (R61, R189, R387): KIND 4 for POISON, 7 for every other failure. -/
def haltEntry (h : HaltRec) (n item stamp obj : Nat) : LogEntry :=
  { sev := 2, kind := if h.cause = 0x08 then 4 else 7, source := h.source, addr := h.addr, stamp := stamp, obj := obj, job := if h.source = 4 then h.row else item
    unit := n, found := h.found, expected := h.expected, detail := h.cause }

/-- A chamber enters HALT (R60, R61, R67): CHn_HALT is written, a failure is logged, HWFAULT asks for retirement. -/
def State.enterHalt (s : State) (n : Nat) (h : HaltRec) : State :=
  let lost := s.loadLost n
  let live := s.liveMmas n
  let s := if lost then (s.modCh n fun c => { c with mmas := live, shadow := WTile.reset, shadowOp := none }).put (Reg.CHn_WTILE_SHADOW n) 0 else s
  let s := s.puts
    [(Reg.CHn_HALT_CAUSE n, h.cause), (Reg.CHn_HALT_TAG n, h.tag), (Reg.CHn_HALT_FAULT_PC n, h.faultPc),
     (Reg.CHn_HALT_NEXT_PC n, h.nextPc), (Reg.CHn_HALT_SLOT n, h.slot), (Reg.CHn_STATUS_STATE n, 4)]
  let s := s.modCh n fun c => { c with halt := none, waitSince := none }
  let s := if quietCause h.cause then s else s.logErr (haltEntry h n (s.ch n).item (s.get Reg.TRV_STATE_STAMP) (s.objAt h.addr))
  if h.cause = 0x09 then s.put (Reg.CHn_STATUS_RETIRE_PENDING n) 1 else s

/-- CHAMBER_HALT (R60). -/
def execChamberHalt (ch : Fin 28) (s : State) : Host.Outcome State Fault Refusal :=
  let n := ch.val
  .next (match (s.ch n).halt with
    | none => s
    | some h =>
      if s.drained n && !(s.ch n).resetting && !s.held then ((s.enterHalt n h).startWaiting n) else s)

/-! ## Register-shaped memories (R50, R65, R153) -/

/-- GLB_SIG_WRITE (R50): a write to GLB_SIGn sets the signal word. -/
def execGlbSigWrite (n : BitVec 12) (v : Word) (s : State) : Host.Outcome State Fault Refusal :=
  .next (s.postSig n.toNat true v.toNat)

/-- A write of one 64-bit word of a chamber's bundle memory (R65, R66). -/
def State.writeBundle (s : State) (agent n idx : Nat) (v : Word) : State :=
  let s := s.wake
  let off := chBlock n + 0x80000 + 8 * idx
  if s.chState n = 0 then s.violGlb agent 0 off
  else if s.chState n = 1 ∨ s.chState n = 4 then
    s.modCh n fun c => { c with bmem := memWrite c.bmem (8 * idx) (leBytes 8 v.toNat), prog := none }
  else s.violCh n 0 0

/-- BUNDLE_WINDOW_WRITE (R65): word `idx` of bundle memory. -/
def execBundleWindowWrite (ch : Fin 28) (idx : BitVec 15) (v : Word) (s : State) : Host.Outcome State Fault Refusal :=
  .next (s.writeBundle 0 ch.val idx.toNat v)

/-- A write of a region-table register (R153): refused while a step plan runs (the host's), or unless the chamber is IDLE or HALT. -/
def State.writeRegion (s : State) (agent n idx : Nat) (v : Word) : State :=
  let s := s.wake
  let off := chBlock n + 0x1000 + 8 * idx
  if s.chState n = 0 then s.violGlb agent 0 off
  else if (agent = 0 ∧ s.stepRuns) ∨ ¬(s.chState n = 1 ∨ s.chState n = 4) then s.violCh n 7 off
  else (s.plainWrite agent off v.toNat).modCh n fun c => { c with rset := none }

/-- REGION_TABLE_WRITE (R153): CHn_RGNi_LO and CHn_RGNi_HI stand in turn. -/
def execRegionTableWrite (ch : Fin 28) (host : Bool) (idx : BitVec 9) (v : Word) (s : State) : Host.Outcome State Fault Refusal :=
  .next (s.writeRegion (if host then 0 else 3) ch.val idx.toNat v)

end Sys2Proof.Machine
end

