-- ==== Sys2Proof/Machine/Plan.lean ====
section
/-! DEFINITION. Step plans: their layout and checks, the instances of a step and when each is ready (R269 to R292). -/

namespace Sys2Proof.Machine

open Sys2Proof

/-! ## The header and the tables (R270 to R273) -/

/-- Every bit of a word outside the listed fields is zero. -/
def onlyBits (spans : List (Nat × Nat)) (w : Nat) : Bool :=
  w - (spans.map fun e => bits w e.1 e.2 * 2 ^ e.2).sum == 0

/-- Every word of an entry has bits in its listed fields only; words past the list are reserved. -/
def onlyFields : List (List (Nat × Nat)) → List Nat → Bool
  | _, [] => true
  | [], w :: ws => w == 0 && onlyFields [] ws
  | f :: fs, w :: ws => onlyBits f w && onlyFields fs ws

/-- A 48-bit address field alone in its word. -/
def addrField : List (Nat × Nat) := [(47, 0)]

/-- A field that fills its word. -/
def wholeWord : List (Nat × Nat) := [(63, 0)]

/-- The fields of the header (R270). -/
def headerFields : List (List (Nat × Nat)) :=
  [[(29, 0), (39, 32), (55, 48)], [(31, 0)]] ++ List.replicate 7 addrField ++
  [addrField, addrField, [(15, 0), (27, 16), (43, 32)], [(11, 0)]]

/-- The fields of a work item (R272). -/
def itemFields : List (List (Nat × Nat)) :=
  [[(5, 0), (27, 8), (43, 32), (59, 48)], [(20, 0), (44, 32), (47, 46), (55, 48)], wholeWord, wholeWord, wholeWord, wholeWord, wholeWord,
   [(11, 0)], wholeWord, [(31, 0)], [(16, 0), (47, 24)]]

/-- The fields of a segment, a gather, a ring, a queue and a program entry (R273). -/
def segFields : List (List (Nat × Nat)) := [[(16, 0)]]

/-- The fields of a gather entry (R273). -/
def gatherFields : List (List (Nat × Nat)) :=
  [wholeWord, addrField, [(12, 0), (20, 16)], [(31, 0)], [(1, 0)], addrField, addrField]

/-- The fields of a ring entry (R273). -/
def ringFields : List (List (Nat × Nat)) :=
  [[(4, 0), (33, 16)], addrField, addrField, addrField, addrField, [(11, 0), (27, 16)]]

/-- The fields of a queue entry (R273). -/
def queueFields : List (List (Nat × Nat)) :=
  [[(0, 0), (19, 8), (28, 24), (35, 32)], addrField, addrField, addrField, [(11, 0), (27, 16)], [(15, 0)]]

/-- The fields of a program entry (R273). -/
def progFields : List (List (Nat × Nat)) := [addrField, [(11, 0), (27, 16), (47, 32)]]

/-- Bytes of an entry, and the least and greatest count, of the tables in header order: item, segment, gather, ring, queue, program,
region set (R270, R272, R273). -/
def tableShape (i : Nat) : Nat × Nat × Nat :=
  [(128, 1, 1024), (8, 0, 64), (64, 0, 256), (64, 0, 4), (64, 0, 8), (16, 1, 256), (4096, 1, 16)].getD i (0, 0, 0)

/-- A list cut into entries of `k` words. -/
def entriesOf (k : Nat) : Nat → List Nat → List (List Nat)
  | 0, _ => []
  | n + 1, ws => ws.take k :: entriesOf k n (ws.drop k)

/-- Offset and count of a table, from the header. -/
def tableAt (h : List Nat) (i : Nat) : Nat × Nat := (recBits h (2 + i) 31 0, recBits h (2 + i) 47 32)

/-- A table lies within 16 MiB, and can be read; its count may lie outside its range (R274). -/
def tableFits (h : List Nat) (i : Nat) : Bool := decide ((tableAt h i).1 + (tableAt h i).2 * (tableShape i).1 ≤ 2 ^ 24)

/-- The entries of a table, none where it does not fit; whether a granule read was poisoned. -/
def State.readTable (s : State) (base : Nat) (h : List Nat) (i : Nat) : List (List Nat) × Bool × State :=
  if tableFits h i then
    let (off, n) := tableAt h i
    let size := (tableShape i).1
    let (bs, p, s) := s.read (base + off) (n * size)
    (entriesOf (size / 8) n (recWords bs (n * size / 8)), p, s)
  else ([], false, s)

/-- Traverse's copy of the plan at an address, and whether a granule of it was poisoned (R269). -/
def State.readPlan (s : State) (a : Nat) : Plan × Bool × State :=
  let (hb, p0, s) := s.read a 256
  let h := recWords hb 32
  let (it, p1, s) := s.readTable a h 0
  let (sg, p2, s) := s.readTable a h 1
  let (ga, p3, s) := s.readTable a h 2
  let (ri, p4, s) := s.readTable a h 3
  let (qu, p5, s) := s.readTable a h 4
  let (pr, p6, s) := s.readTable a h 5
  (⟨a, h, it, sg.map fun w => w.getD 0 0, ga, ri, qu, pr⟩, p0 || p1 || p2 || p3 || p4 || p5 || p6, s)

/-! ## Fields of a plan -/

/-- STAGE (R270). -/
def Plan.stage (p : Plan) : Nat := recBits p.header 0 11 8

/-- S, the number of stages. -/
def Plan.stages (p : Plan) : Nat := recBits p.header 0 15 12 + 1

/-- NMB, the microbatches of a step. -/
def Plan.nmb (p : Plan) : Nat := recBits p.header 0 28 16

/-- DEFER. -/
def Plan.defer (p : Plan) : Bool := bit (p.header.getD 0 0) 29

/-- LOOKAHEAD. -/
def Plan.lookahead (p : Plan) : Nat := recBits p.header 0 39 32

/-- STAMP0. -/
def Plan.stamp0 (p : Plan) : Nat := recBits p.header 1 31 0

/-- A work item's words. -/
def Plan.item (p : Plan) (i : Nat) : List Nat := p.items.getD i []

/-- PHASE of a work item: 1 P, 2 F, 3 B, 4 U. -/
def phaseOf (w : List Nat) : Nat := recBits w 0 2 0

/-- UNIT: a helictite item. -/
def onHelictites (w : List Nat) : Bool := recBits w 0 3 3 == 1

/-- Parts of a work item. -/
def partsOf (w : List Nat) : Nat := recBits w 0 27 16 + 1

/-- LAYER of a work item. -/
def itemLayer (w : List Nat) : Nat := recBits w 0 15 8

/-- The ring entry a work item uses. -/
def ringOf (w : List Nat) : Option Nat := if recBits w 0 58 56 = 0 then none else some (recBits w 0 58 56 - 1)

/-- The queue entry a work item writes to. -/
def sendqOf (w : List Nat) : Option Nat := if recBits w 1 3 0 = 0 then none else some (recBits w 1 3 0 - 1)

/-- The queue entry a work item reads from. -/
def recvqOf (w : List Nat) : Option Nat := if recBits w 1 7 4 = 0 then none else some (recBits w 1 7 4 - 1)

/-- The gather entry a work item reads. -/
def gathOf (w : List Nat) : Option Nat := if recBits w 0 59 59 = 1 then some (recBits w 0 55 48) else none

/-- G of a ring. -/
def Plan.ringG (p : Plan) (r : Nat) : Nat := recBits (p.rings.getD r []) 0 4 0

/-- The hops of a work item: G for a ring item, else one (R275). -/
def Plan.hops (p : Plan) (w : List Nat) : Nat :=
  match ringOf w with
  | some r => p.ringG r
  | none => 1

/-- NSLOTS of a queue. -/
def Plan.nslots (p : Plan) (q : Nat) : Nat := recBits (p.queues.getD q []) 0 28 24

/-- The segment whose KEEP is 0 that a layer lies in; a layer in no segment counts as KEEP = 1 (R273). -/
def Plan.segOf (p : Plan) (layer : Nat) : Option Nat :=
  (List.range p.segs.length).find? fun k =>
    let w := p.segs.getD k 0
    decide (bits w 7 0 ≤ layer) && decide (layer ≤ bits w 15 8) && !bit w 16

/-- An item is run again as recompute: F, RECOMP, in a segment whose KEEP is 0 (R282). -/
def Plan.recomputes (p : Plan) (w : List Nat) : Bool :=
  phaseOf w == 2 && recBits w 0 4 4 == 1 && (p.segOf (itemLayer w)).isSome

/-- Microbatches an item has instances for (R275). -/
def Plan.mbs (p : Plan) (w : List Nat) : Nat := if phaseOf w = 2 ∨ phaseOf w = 3 then p.nmb else 1

/-- How many instances a step of the plan holds (R275, R282). -/
def Plan.instCount (p : Plan) : Nat :=
  (p.items.map fun w => p.mbs w * partsOf w * p.hops w * (if p.recomputes w then 2 else 1)).sum

/-! ## The checks of CHECK (R274) -/

/-- Case 1 of R274. -/
def Plan.case1 (p : Plan) : Bool :=
  decide (p.base % 4096 ≠ 0) || recBits p.header 0 7 0 != 1 || !onlyFields headerFields p.header ||
  ((List.range 7).any fun i =>
    decide ((tableAt p.header i).1 % 64 ≠ 0) || decide (2 ^ 24 < (tableAt p.header i).1 + (tableAt p.header i).2 * (tableShape i).1)) ||
  !p.items.all (onlyFields itemFields) || !p.segs.all (fun w => onlyFields segFields [w]) ||
  !p.gathers.all (fun w => onlyFields gatherFields w && recBits w 4 1 0 != 3) || !p.rings.all (onlyFields ringFields) ||
  !p.queues.all (fun w => onlyFields queueFields w && recBits w 0 19 18 != 3 && (recBits w 0 35 32 == 1 || recBits w 0 35 32 == 2) &&
    (recBits w 0 19 18 == 0 || (recBits w 5 15 0 + 1) % 128 == 0)) ||
  !p.progs.all (onlyFields progFields)

/-- Case 2 of R274. -/
def Plan.case2 (p : Plan) : Bool :=
  decide (p.stages ≤ p.stage) || p.nmb == 0 || decide (4096 < p.nmb) || decide (63 < p.lookahead) ||
  ((List.range 7).any fun i =>
    decide ((tableAt p.header i).2 < (tableShape i).2.1) || decide ((tableShape i).2.2 < (tableAt p.header i).2)) ||
  (p.gathers.any fun w => recBits w 2 12 8 == 0 || decide (16 < recBits w 2 12 8)) ||
  (p.rings.any fun w => decide (recBits w 0 4 0 < 2) || decide (16 < recBits w 0 4 0)) ||
  (p.queues.any fun w => recBits w 0 28 24 == 0 || decide (16 < recBits w 0 28 24)) ||
  decide (2 ^ 24 < p.instCount)

/-- Case 3 of R274. -/
def Plan.case3 (p : Plan) : Bool :=
  let n := fun i => (tableAt p.header i).2
  let past := fun (o : Option Nat) (k : Nat) => match o with
    | some i => decide (k ≤ i)
    | none => false
  p.items.any fun w => decide (n 5 ≤ recBits w 0 39 32) || decide (n 6 ≤ recBits w 0 43 40) || past (ringOf w) (n 3) ||
    past (sendqOf w) (n 4) || past (recvqOf w) (n 4) || past (gathOf w) (n 2)

/-- A queue used by items of a phase. -/
def Plan.usesQueue (p : Plan) (q ph : Nat) : Bool := p.items.any fun w => phaseOf w == ph && (sendqOf w == some q || recvqOf w == some q)

/-- Case 4 of R274. -/
def Plan.case4 (p : Plan) : Bool :=
  (p.items.any fun w => phaseOf w == 0 || decide (4 < phaseOf w) ||
    (onHelictites w && ((ringOf w).isSome || (sendqOf w).isSome || (recvqOf w).isSome || recBits w 0 5 5 == 1)) ||
    (recBits w 0 4 4 == 1 && phaseOf w != 2)) ||
  (List.range 15).any fun q => p.usesQueue q 2 && p.usesQueue q 3

/-- Two segments share a layer. -/
def segsMeet (a b : Nat) : Bool := decide (bits a 7 0 ≤ bits b 15 8) && decide (bits b 7 0 ≤ bits a 15 8)

/-- Two of the segments of a list meet. -/
def anyMeet : List Nat → Bool
  | [] => false
  | w :: ws => ws.any (segsMeet w) || anyMeet ws

/-- Case 5 of R274. -/
def Plan.case5 (p : Plan) : Bool := anyMeet p.segs || p.segs.any fun w => decide (bits w 15 8 < bits w 7 0)

/-- Case 6 of R274. -/
def Plan.case6 (p : Plan) : Bool :=
  p.defer && (decide (min (p.stages - p.stage) p.nmb < 2) || p.items.any fun w => recBits w 0 5 5 == 1 && (p.segOf (itemLayer w)).isSome)

/-- The case of R274 that refuses a plan, 0 if none does; poison comes before all. -/
def Plan.refusal (p : Plan) (poison : Bool) : Nat :=
  if poison then 7 else if p.case1 then 1 else if p.case2 then 2 else if p.case3 then 3 else if p.case4 then 4
  else if p.case5 then 5 else if p.case6 then 6 else 0

/-! ## Instances (R275, R277, R282) -/

/-- The instances of an item for a microbatch, recompute or not. -/
def Plan.instsOf (p : Plan) (i mb : Nat) (rec : Bool) : List Inst :=
  (List.range (partsOf (p.item i))).flatMap fun part => (List.range (p.hops (p.item i))).map fun hop => ⟨i, mb, part, hop, rec⟩

/-- Item indices of a phase, in table order. -/
def Plan.phaseItems (p : Plan) (ph : Nat) : List Nat := (List.range p.items.length).filter fun i => phaseOf (p.item i) == ph

/-- Item indices run again as recompute in a segment, in table order (R282). -/
def Plan.recompItems (p : Plan) (k : Nat) : List Nat :=
  (List.range p.items.length).filter fun i => p.recomputes (p.item i) && p.segOf (itemLayer (p.item i)) == some k

/-- Every instance of a step in the order of R277: rank, microbatch, item, part, hop; a forward instance before the recompute of it. -/
def Plan.ranked (p : Plan) : List Inst :=
  let all := List.range p.items.length
  let pu := fun ph => (p.phaseItems ph).flatMap fun i => p.instsOf i 0 false
  let bs := (List.range p.nmb).flatMap fun mb => all.flatMap fun i =>
    (if phaseOf (p.item i) = 3 then p.instsOf i mb false else []) ++ (if p.recomputes (p.item i) then p.instsOf i mb true else [])
  let fs := (List.range p.nmb).flatMap fun mb => (p.phaseItems 2).flatMap fun i => p.instsOf i mb false
  pu 1 ++ bs ++ fs ++ pu 4

/-- Every instance of a list has completed. -/
def Step.allDone (t : Step) (l : List Inst) : Bool := l.all fun x => t.done.contains x

/-- Every part and hop of an item for a microbatch has completed. -/
def Step.itemDone (t : Step) (i mb : Nat) (rec : Bool) : Bool := t.allDone (t.plan.instsOf i mb rec)

/-- Every instance of a phase for a microbatch has completed. -/
def Step.phaseDone (t : Step) (ph mb : Nat) : Bool := (t.plan.phaseItems ph).all fun i => t.itemDone i mb false

/-- Microbatches whose instances of a phase have all completed. -/
def Step.phaseCount (t : Step) (ph : Nat) : Nat := ((List.range t.plan.nmb).filter (t.phaseDone ph)).length

/-- b of R280: microbatches whose B instances, or in a plan with no B item whose F instances, have all completed. -/
def Step.bDone (t : Step) : Nat := if t.plan.phaseItems 3 = [] then t.phaseCount 2 else t.phaseCount 3

/-- The window W (R280). -/
def Plan.window (p : Plan) : Nat := min (p.stages - p.stage) p.nmb

/-! ## Transfer counts (R288) -/

/-- n − STAMP0, negative for a stamp below STAMP0. -/
def Step.delta (t : Step) : Int := (t.req.stamp : Int) - t.plan.stamp0

/-- The uses of a ring in a step: microbatch, item, recompute, in the order in which transfers are counted. -/
def Plan.ringUses (p : Plan) (r : Nat) : List (Nat × Nat × Bool) :=
  (List.range p.nmb).flatMap fun mb => (List.range p.items.length).flatMap fun i =>
    if ringOf (p.item i) = some r ∧ mb < p.mbs (p.item i) then
      (mb, i, false) :: (if p.recomputes (p.item i) then [(mb, i, true)] else [])
    else []

/-- Place of a use among the uses of its ring. -/
def Plan.useIndex (p : Plan) (r : Nat) (u : Nat × Nat × Bool) : Nat := (p.ringUses r).findIdx fun v => v == u

/-- Number in the step of the transfer of block `h` of a use. -/
def Plan.ringNo (p : Plan) (r : Nat) (u : Nat × Nat × Bool) (h : Nat) : Nat := p.useIndex r u * (p.ringG r - 1) + h

/-- K of the `k`-th transfer of a ring in this step (R288). -/
def Step.ringK (t : Step) (r k : Nat) : Int := t.delta * ((t.plan.ringG r - 1) * (t.plan.ringUses r).length : Nat) + k

/-- K of the transfer of microbatch `mb` of a queue in this step. -/
def Step.queueK (t : Step) (mb : Nat) : Int := t.delta * t.plan.nmb + mb

/-- A signal word has reached a threshold, unsigned and modulo 2^64 (R276, R288). -/
def State.sigAtLeast (s : State) (sig : Nat) (v : Int) : Bool := decide ((v % 2 ^ 64).toNat ≤ s.sig sig)

/-- A threshold of R288 to R290: below one it is met at once, without reading the signal word. -/
def State.sigReaches (s : State) (sig : Nat) (v : Int) : Bool := decide (v < 1) || s.sigAtLeast sig v

/-- A collective job that Traverse submitted has ended. -/
def State.jobLeft (s : State) (tok : Nat) : Bool := (mapFind s.cuDone tok).isSome

/-- The token of a transfer that has been sent. -/
def tokenOf (l : List (Nat × Nat × Nat)) (r k : Nat) : Option Nat := (l.find? fun e => e.1 == r && e.2.1 == k).map (·.2.2)

/-- A transfer has left: its job has ended. -/
def State.transferLeft (s : State) (l : List (Nat × Nat × Nat)) (r k : Nat) : Bool :=
  match tokenOf l r k with
  | some tok => s.jobLeft tok
  | none => false

/-! ## Readiness (R276, R282, R292) -/

/-- The item before one in a list of indices. -/
def itemBefore (l : List Nat) (i : Nat) : Option Nat := (l.takeWhile (· != i)).getLast?

/-- The Order row of R276, and for recompute the table order within the segment (R282). -/
def Step.orderOk (t : Step) (x : Inst) : Bool :=
  let p := t.plan
  let w := p.item x.item
  let l := if x.recomp then p.recompItems ((p.segOf (itemLayer w)).getD 0) else p.phaseItems (phaseOf w)
  (match itemBefore l x.item with
    | some i => t.itemDone i x.mb x.recomp
    | none => true) &&
  (phaseOf w != 3 || itemBefore l x.item != none || t.phaseDone 2 x.mb)

/-- The Signal row of R276. -/
def State.signalOk (s : State) (t : Step) (x : Inst) : Bool :=
  let w := t.plan.item x.item
  recBits w 1 20 20 == 0 ||
  s.sigAtLeast (recBits w 1 19 8) (recBits w 2 63 0 + recBits w 3 63 32 * t.delta +
    (recBits w 3 31 0 * x.mb + recBits w 4 31 0 * x.part + recBits w 4 63 32 * x.hop : Nat))

/-- The Gather row of R276. -/
def Step.gatherOk (t : Step) (x : Inst) : Bool :=
  match gathOf (t.plan.item x.item) with
  | some e => ((mapFind t.gath e).map (·.present)).getD false
  | none => true

/-- The Ring row of R276. -/
def State.ringOk (s : State) (t : Step) (x : Inst) : Bool :=
  match ringOf (t.plan.item x.item) with
  | some r =>
    x.hop == 0 ||
    (s.sigReaches (recBits (t.plan.rings.getD r []) 5 11 0) (t.ringK r (t.plan.ringNo r (x.mb, x.item, x.recomp) (x.hop - 1)) + 1) &&
     t.done.contains { x with hop := x.hop - 1 })
  | none => true

/-- The Receive row of R276; recompute ignores RECVQ (R282). -/
def State.receiveOk (s : State) (t : Step) (x : Inst) : Bool :=
  match recvqOf (t.plan.item x.item) with
  | some q => x.recomp || s.sigReaches (recBits (t.plan.queues.getD q []) 4 11 0) (t.queueK x.mb + 1)
  | none => true

/-- The Send row of R276 (R289); recompute ignores SENDQ (R282). -/
def State.sendOk (s : State) (t : Step) (x : Inst) : Bool :=
  match sendqOf (t.plan.item x.item) with
  | some q => x.recomp || decide (x.mb < t.plan.nslots q) || s.transferLeft t.qSent q (x.mb - t.plan.nslots q)
  | none => true

/-- The U row of R276. -/
def Step.updateOk (t : Step) (x : Inst) : Bool :=
  let w := t.plan.item x.item
  phaseOf w != 4 || ((t.plan.phaseItems 3).filter fun i => itemLayer (t.plan.item i) == itemLayer w).all fun i =>
    (List.range t.plan.nmb).all fun mb => t.itemDone i mb false

/-- The item after a ROUTE item in phase F waits, in a plan with DEFER, for that ROUTE item of the next microbatch (R292). -/
def Step.deferOk (t : Step) (x : Inst) : Bool :=
  let p := t.plan
  !p.defer || x.recomp || phaseOf (p.item x.item) != 2 || decide (p.nmb ≤ x.mb + 1) ||
  (match itemBefore (p.phaseItems 2) x.item with
    | some i => recBits (p.item i) 0 5 5 == 0 || t.itemDone i (x.mb + 1) false
    | none => true)

/-- The Admission row of R276. -/
def Step.admitOk (t : Step) (x : Inst) : Bool := phaseOf (t.plan.item x.item) != 2 || decide (x.mb < t.admitted)

/-- Before the first B item of a microbatch in a segment whose KEEP is 0, the segment's recompute has completed (R282). -/
def Step.recomputeOk (t : Step) (x : Inst) : Bool :=
  let p := t.plan
  let w := p.item x.item
  phaseOf w != 3 || (match p.segOf (itemLayer w) with
    | some k => (p.recompItems k).all fun i => t.itemDone i x.mb true
    | none => true)

/-- Every condition of R276 but those of recompute and of the Send row. -/
def State.baseReady (s : State) (t : Step) (x : Inst) : Bool :=
  t.orderOk x && t.admitOk x && s.signalOk t x && t.gatherOk x && s.ringOk t x && s.receiveOk t x && t.updateOk x && t.deferOk x

/-- What releases the recompute of a segment for a microbatch (R282). -/
def State.recomputeReleased (s : State) (t : Step) (k mb : Nat) : Bool :=
  let p := t.plan
  let bs := p.phaseItems 3
  (t.begun.any fun y => y.mb == mb && !y.recomp && phaseOf (p.item y.item) == 3 &&
    decide (bits (p.segs.getD k 0) 15 8 < itemLayer (p.item y.item))) ||
  (match bs with
    | [] => false
    | i :: _ =>
      p.segOf ((bs.map fun j => itemLayer (p.item j)).foldl max 0) == some k &&
      (List.range (partsOf (p.item i))).all fun part =>
        let y : Inst := ⟨i, mb, part, 0, false⟩
        s.baseReady t y && s.sendOk t y)

/-- Every condition of R276 but the Send row. -/
def State.readyButSend (s : State) (t : Step) (x : Inst) : Bool :=
  s.baseReady t x &&
  (if x.recomp then s.recomputeReleased t ((t.plan.segOf (itemLayer (t.plan.item x.item))).getD 0) x.mb else t.recomputeOk x)

/-- An instance is ready (R276). -/
def State.ready (s : State) (t : Step) (x : Inst) : Bool := s.readyButSend t x && s.sendOk t x

/-- The instances that have not begun, in rank order. -/
def Step.waitingInsts (t : Step) : List Inst := t.plan.ranked.filter fun x => !t.begun.contains x

end Sys2Proof.Machine
end

