-- ==== Sys2Proof/Machine/Traverse.lean ====
section
/-! DEFINITION. Traverse: accepting a step, its schedule, its transfers, and how it ends (R268, R277 to R297). -/

namespace Sys2Proof.Machine

open Sys2Proof

/-! ## Submitting to other units (R242, R279, R341) -/

/-- A new token for a job of an internal queue. -/
def State.newToken (s : State) : Nat × State := (s.tokens + 1, { s with tokens := s.tokens + 1 })

/-- A Flowstone command through the internal queue (R242): its token. -/
def State.submitFls (s : State) (ws : List Nat) : Nat × State :=
  let (k, s) := s.newToken
  (k, { s with flsQueue := s.flsQueue ++ [⟨k, ws, 0⟩] })

/-- A PREFETCH with a deadline so many microseconds from now (R280, R286). -/
def State.submitPrefetch (s : State) (obj us : Nat) : State :=
  (s.submitFls [5 + obj % 2 ^ 16 * 2 ^ 16, 0, 0, (s.nowUs + us) % 2 ^ 48, 0, 0, 0, 0]).2

/-- A RELEASE of a gathered buffer (R287): its token. -/
def State.submitRelease (s : State) (base bytes : Nat) : Nat × State :=
  s.submitFls [7, base, cdiv bytes pageBytes * pageBytes, 0, 0, 0, 0, 0]

/-- A collective job through the internal queue (R341): its token. -/
def State.submitCu (s : State) (ws : List Nat) : Nat × State :=
  let (k, s) := s.newToken
  (k, { s with cuQueue := s.cuQueue ++ [⟨k, ws, 0⟩] })

/-- The words of a PUT (R341). -/
def putWords (recipe cc type node src dst bytes rowlenM1 rsig : Nat) : List Nat :=
  [1 + recipe % 4 * 2 ^ 4 + cc % 4 * 2 ^ 6 + type % 16 * 2 ^ 8 + type % 16 * 2 ^ 12 + node % 256 * 2 ^ 16,
   src % 2 ^ 48, dst % 2 ^ 48, bytes % 2 ^ 48, rowlenM1 % 2 ^ 16, 0, rsig % 2 ^ 12 * 2 ^ 12 + 2 ^ 24, 0]

/-! ## The running step -/

/-- The running step changed by a function. -/
def State.modTrv (s : State) (f : Step → Step) : State := { s with trv := s.trv.map f }

/-- The counts of TRV_PROGRESS (R298). -/
def State.progress (s : State) : State :=
  match s.trv with
  | none => s
  | some t => s.puts
      [(Reg.TRV_PROGRESS_INST, t.done.length), (Reg.TRV_PROGRESS_B_DONE, t.bDone), (Reg.TRV_PROGRESS_F_DONE, t.phaseCount 2)]

/-- Traverse may act: a step is in RUN, nothing has failed, no Hold (R294, R297). -/
def State.trvActs (s : State) : Option Step :=
  match s.trv with
  | some t => if s.get Reg.TRV_STATE_STATE = 2 ∧ t.fail = none ∧ !s.held then some t else none
  | none => none

/-- The prefetches of the items of a phase (R280). -/
def State.prefetchPhase (s : State) (t : Step) (ph : Nat) : State :=
  (t.plan.phaseItems ph).foldl (fun s i =>
    let w := t.plan.item i
    if recBits w 10 16 16 = 1 then s.submitPrefetch (recBits w 10 15 0) (recBits w 10 47 24) else s) s

/-- A failure is recorded; the first one stands (R294). -/
def Step.failWith (t : Step) (f : StepFail) : Step := { t with fail := some (t.fail.getD f) }

/-! ## The end of a step (R293, R294, R366) -/

/-- The ledger record of a step ends with its STATUS, CAUSE and CODE (R407, R408). -/
def State.endStepRec (s : State) (q : StepReq) (status cause code : Nat) : State :=
  let mine := fun (r : LedgerRec) => r.gen == q.gen && r.k == q.k
  { s with
    openRecs := s.openRecs.filter fun r => !mine r
    endedRecs := s.endedRecs ++ ((s.openRecs.filter mine).map fun r => { r with status := status, cause := cause, code := code }) }

/-- A step boundary: Traverse enters IDLE, and ARB_NEXT is copied into ARB_ACTIVE (R366). -/
def State.toIdle (s : State) : State :=
  (({ s with trv := none }).put Reg.TRV_STATE_STATE 0).copyArb

/-- Flowstone's internal queue, which carries Traverse's and the keeper service's PREFETCH and RELEASE commands, is served to its end:
none of them waits for another's completion (R242). In Hold it stands. -/
def State.serveFlsQueue (s : State) : Nat → State
  | 0 => s
  | n + 1 =>
    match s.flsQueue with
    | [] => s
    | q :: _ =>
      if s.held then s
      else (if recBits q.words 0 3 0 = 5 then s.runFls .queue 5 State.flsPrefetch else s.runFls .queue 7 State.flsRelease).serveFlsQueue n

/-- Every gathered buffer is released at the end of a step, and the releases are carried out before anything else happens (R287, R293). -/
def State.releaseAll (s : State) (p : Plan) : State :=
  let s := p.gathers.foldl (fun s w => (s.submitRelease (recBits w 0 47 0) (recBits w 1 47 0)).2) s
  s.serveFlsQueue s.flsQueue.length

/-- A step ends without commit (R294): TRV_LAST, TRV_FAIL, the counter, the log entry, and the report to Lantern. -/
def State.endFailed (s : State) (q : StepReq) (f : StepFail) : State :=
  let s := match f.inst with
    | some x => s.puts [(Reg.TRV_FAIL_CODE, f.code), (Reg.TRV_FAIL_PART, x.part), (Reg.TRV_FAIL_MB, x.mb),
        (Reg.TRV_FAIL_RECOMP, b2n x.recomp), (Reg.TRV_FAIL_ITEM, x.item)]
    | none => s
  let s := s.puts [(Reg.TRV_LAST_STAMP, q.stamp), (Reg.TRV_LAST_CAUSE, f.cause), (Reg.TRV_LAST_STATUS, f.status)]
  let s := s.count Reg.TRV_STEPS_ENDED 1
  let s := s.logErr { sev := 2, kind := 9, source := 10, stamp := q.stamp, detail := f.status + f.cause * 256 }
  (s.endStepRec q f.status f.cause (s.get Reg.TRV_FAIL_CODE)).toIdle

/-- The commit of a step, in the order of R293. -/
def State.commitStep (s : State) (t : Step) : State :=
  let h := t.plan.header
  let s := [recBits h 11 7 0, recBits h 11 15 8].foldl (fun s k =>
    if k = 0xFF then s else s.postTo k 3 (recBits h 11 27 16) false 1) s
  let s := s.releaseAll t.plan
  let s := s.postSig (recBits h 12 11 0) false 1
  let s := s.puts [(Reg.TRV_LAST_STAMP, t.req.stamp), (Reg.TRV_LAST_CAUSE, 0), (Reg.TRV_LAST_STATUS, 1)]
  let s := if s.flag Reg.GLB_ROLE_TWIN then s.put Reg.TWN_STATE_OWN_COMMIT t.req.stamp else s
  let s := s.count Reg.TRV_STEPS_COMMITTED 1
  (s.endStepRec t.req 1 0 (s.get Reg.TRV_FAIL_CODE)).toIdle

/-! ## Accepting a step (R268, R274, R280) -/

/-- A chamber pending retirement is one to retire: not the one kept for want of a spare, unless it has halted with HWFAULT (R67, R70). -/
def State.toRetire (s : State) (n : Nat) : Bool :=
  s.flag (Reg.CHn_STATUS_RETIRE_PENDING n) && bit (s.get Reg.GLB_CHMAP_ENABLED) n &&
  (!s.keptNoSpare || (s.awakeState n == 4 && s.get (Reg.CHn_HALT_CAUSE n) == 9))

/-- A chamber waits for its retirement, which holds Traverse (R68, R295). -/
def State.retireWaits (s : State) : Bool := !s.devFailed && (List.range 28).any s.toRetire

/-- Traverse accepts a step: IDLE, no Hold, no retirement due, the side not handing over, handed, fenced or failed (R68, R70, R268, R297, R481, R482). -/
def State.acceptsStep (s : State) : Bool :=
  let tw := s.get Reg.TWN_STATE_STATE
  s.get Reg.TRV_STATE_STATE == 0 && !s.held && !s.retireWaits && !s.devFailed && tw != 5 && tw != 6 && tw != 7

/-- STEP_ACCEPT (R268, R274): the next queued step is accepted and its plan checked; a refused plan ends it with BAD_PLAN. -/
def execStepAccept (s : State) : Host.Outcome State Fault Refusal :=
  .next (match s.stepQueue with
    | [] => s
    | q :: qs =>
      if !s.acceptsStep then s
      else
        let s := ({ s with stepQueue := qs }).wake.puts [(Reg.TRV_STATE_STAMP, q.stamp), (Reg.TRV_PLAN_ADDR, q.plan), (Reg.TRV_STATE_STATE, 1)]
        let (p, bad, s) := s.readPlan q.plan
        if p.refusal bad ≠ 0 then s.endFailed q ⟨2, p.refusal bad, 0, none⟩
        else
          let t : Step := { req := q, plan := p, done := [], begun := [], running := [], admitted := 0, bFetched := [], gath := []
                            ringSent := [], ringFreed := [], qSent := [], fail := none, failAt := 0, stopped := false
                            idleAt := some s.cycle, mark := none }
          let s := ({ s with trv := some t }).puts [(Reg.TRV_STATE_STAGE, p.stage), (Reg.TRV_STATE_STATE, 2)]
          ((s.prefetchPhase t 1).prefetchPhase t 4).progress)

/-- MICROBATCH_ADMIT (R280): the next forward microbatch is admitted while f − b < W. -/
def execMicrobatchAdmit (s : State) : Host.Outcome State Fault Refusal :=
  .next (match s.trvActs with
    | none => s
    | some t =>
      if t.admitted < t.plan.nmb ∧ t.plan.phaseItems 2 ≠ [] ∧ t.admitted < t.bDone + t.plan.window then
        (s.modTrv fun t => { t with admitted := t.admitted + 1 }).prefetchPhase t 2
      else s)

/-! ## Dispatch (R277 to R279) -/

/-- The chamber that has a logical index, if one is enabled with it (R20). -/
def State.physical (s : State) (l : Nat) : Option Nat :=
  (List.range 28).find? fun n => s.chState n != 0 && s.get (Reg.CHn_STATUS_LOGICAL n) == l

/-- The narrower of a chamber's two arrays. -/
def State.width (s : State) (n : Nat) : Nat := min (s.get (Reg.CHn_CAP_COLS16_A n)) (s.get (Reg.CHn_CAP_COLS16_B n))

/-- A chamber is idle: IDLE, HALT or in Doze, no reset or halt pending, and no instance on it. -/
def State.chIdle (s : State) (t : Step) (n : Nat) : Bool :=
  (s.chState n == 1 || s.chState n == 4 || s.chState n == 6) && !(s.ch n).resetting && (s.ch n).halt.isNone &&
  !t.running.any fun r => r.chamber == some n

/-- The idle chambers by logical index: logical and physical. -/
def State.idleChambers (s : State) (t : Step) : List (Nat × Nat) :=
  (List.range 32).filterMap fun l => (s.physical l).bind fun n => if s.chIdle t n then some (l, n) else none

/-- The widest idle chamber, the lowest logical index among equals (R277). -/
def State.bestChamber (s : State) (t : Step) : Option (Nat × Nat) :=
  (s.idleChambers t).foldl (fun b e => match b with
    | none => some e
    | some c => if s.width c.2 < s.width e.2 then some e else some c) none

/-- s1 of an instance (R278). -/
def argMb (x : Inst) : Nat := x.mb % 2 ^ 13 + b2n x.recomp * 2 ^ 63

/-- The ring receive slot of an instance (R278, R283). -/
def Step.ringSlot (t : Step) (x : Inst) : Nat :=
  match ringOf (t.plan.item x.item) with
  | some r => if x.hop = 0 then 0 else (t.ringK r (t.plan.ringNo r (x.mb, x.item, x.recomp) (x.hop - 1)) % 2).toNat
  | none => 0

/-- The slot of a queue that an instance's microbatch uses; 0 where it uses none. -/
def Step.queueSlot (t : Step) (q : Option Nat) (x : Inst) : Nat :=
  match q with
  | some q => if x.recomp then 0 else x.mb % t.plan.nslots q
  | none => 0

/-- s8 of an instance on a chamber (R278). -/
def State.argPlace (s : State) (t : Step) (x : Inst) (l n : Nat) : Nat :=
  let w := t.plan.item x.item
  let ph := phaseOf w
  let last := (ph == 2 || ph == 3) && x.mb + 1 == t.plan.nmb
  let deferred := t.plan.defer && recBits w 0 5 5 == 1
  l + s.width n % 256 * 2 ^ 8 + t.plan.stage * 2 ^ 16 + b2n last * 2 ^ 24 + b2n deferred * 2 ^ 25 +
  t.queueSlot (sendqOf w) x * 2 ^ 32 + t.queueSlot (recvqOf w) x * 2 ^ 40 + t.ringSlot x * 2 ^ 48

/-- The argument words s1 to s8 (R278). -/
def State.instArgs (s : State) (t : Step) (x : Inst) (l n : Nat) : List Word :=
  let w := t.plan.item x.item
  [argMb x, x.part, partsOf w % 2 ^ 13 + x.hop * 2 ^ 32, t.req.stamp,
   recBits t.plan.header 9 47 0 + x.mb * recBits t.plan.header 10 47 0, recBits w 5 63 0, recBits w 6 63 0,
   s.argPlace t x l n].map (BitVec.ofNat 64)

/-- A chamber's bundle memory holds the program of an item, loaded if it held another; true if the image is poisoned (R278). -/
def State.loadProgram (s : State) (t : Step) (n : Nat) (w : List Nat) : Bool × State :=
  let e := t.plan.progs.getD (recBits w 0 39 32) []
  let a := recBits e 0 47 0
  let nb := recBits e 1 11 0 + 1
  if (s.ch n).prog = some (a, nb) then (false, s)
  else
    let (bs, bad, s) := s.read a (64 * nb)
    if bad then (true, s) else (false, s.modCh n fun c => { c with bmem := memWrite c.bmem 0 bs, prog := some (a, nb) })

/-- Registers from an offset on take words in turn. -/
def State.loadRegs (s : State) : Nat → List Nat → State
  | _, [] => s
  | off, w :: ws =>
    (match regAt off with
      | some r => s.writeFields off w r.fields
      | none => s).loadRegs (off + 8) ws

/-- A chamber's region table holds the region set of an item, loaded if it held another; true if the set is poisoned (R278). -/
def State.loadRegions (s : State) (t : Step) (n : Nat) (w : List Nat) : Bool × State :=
  let a := t.plan.base + (tableAt t.plan.header 6).1 + 4096 * recBits w 0 43 40
  if (s.ch n).rset = some a then (false, s)
  else
    let (bs, bad, s) := s.read a 4096
    if bad then (true, s)
    else (false, (s.loadRegs (chBlock n + 0x1000) (recWords bs 512)).modCh n fun c => { c with rset := some a })

/-- An instance begins: the first B instance of a microbatch issues the prefetches of its B items (R280). -/
def State.beginInst (s : State) (t : Step) (x : Inst) (ch : Option Nat) (tok : Nat) : State :=
  let b := phaseOf (t.plan.item x.item) == 3 && !t.bFetched.contains x.mb
  let s := s.modTrv fun t => { t with
    begun := t.begun ++ [x], running := t.running ++ [⟨x, ch, tok⟩], idleAt := none
    bFetched := if b then t.bFetched ++ [x.mb] else t.bFetched }
  if b then s.prefetchPhase t 3 else s

/-- An instance starts on a chamber (R278): the loads, then the start under R57; a poisoned image or set fails the instance. -/
def State.startOnChamber (s : State) (t : Step) (x : Inst) (l n : Nat) : State :=
  let w := t.plan.item x.item
  let s := s.wake
  let (bad, s) := s.loadProgram t n w
  let (bad2, s) := if bad then (true, s) else s.loadRegions t n w
  if bad2 then
    let s := s.modCh n fun c => { c with prog := none, rset := none }
    let s := s.logErr { sev := 2, kind := 4, source := 10, stamp := t.req.stamp, job := x.item, unit := n, detail := 8 }
    s.modTrv fun t => Step.failWith { t with begun := t.begun ++ [x] } ⟨4, 1, 0x08, some x⟩
  else
    let pc := recBits (t.plan.progs.getD (recBits w 0 39 32) []) 1 27 16
    let s := s.beginInst t x (some n) 0
    let s := s.modCh n fun c => { c with item := x.item }
    s.writeCtl n 3 pc false false false true (some (s.instArgs t x l n))

/-- The job record of a helictite instance (R222, R279). -/
def Step.hlcWords (t : Step) (x : Inst) : List Nat :=
  let w := t.plan.item x.item
  let e := t.plan.progs.getD (recBits w 0 39 32) []
  [recBits e 1 47 32 + recBits e 1 7 0 * 2 ^ 16 + recBits w 7 11 0 * 2 ^ 24, recBits w 8 63 0, recBits w 9 31 0, recBits e 0 47 0,
   recBits w 5 63 0, recBits w 6 63 0, argMb x, t.req.stamp + x.part * 2 ^ 32]

/-- A helictite instance is submitted as a job (R279). -/
def State.startOnHelictites (s : State) (t : Step) (x : Inst) : State :=
  let (k, s) := s.wake.newToken
  let s : State := { s with hlcQueue := s.hlcQueue ++ [⟨k, t.hlcWords x, s.hlcPosted⟩] }
  s.beginInst t x none k

/-- INSTANCE_DISPATCH (R277 to R279): the highest-ranked ready instance that has where to run starts. A chamber's dispatch past a
chamber instance of higher rank that is not ready is counted in TRV_SWITCH. -/
def execInstanceDispatch (s : State) : Host.Outcome State Fault Refusal :=
  .next (match s.trvActs with
    | none => s
    | some t =>
      let best := s.bestChamber t
      let hel := fun (x : Inst) => onHelictites (t.plan.item x.item)
      match t.waitingInsts.find? fun x => s.ready t x && (hel x || best.isSome) with
      | none => s
      | some x =>
        if hel x then s.startOnHelictites t x
        else match best with
          | none => s
          | some (l, n) =>
            let passed := (t.waitingInsts.takeWhile (· != x)).any fun y => !hel y && !s.ready t y
            (if passed then s.count Reg.TRV_SWITCH_COUNT 1 else s).startOnChamber t x l n)

/-! ## Completion of an instance (R278, R288, R290) -/

/-- CREDSIG is posted to the peer of a receive queue once every part of the items that read a microbatch's slot has completed (R290). -/
def State.postCredit (s : State) (t : Step) (x : Inst) : State :=
  match recvqOf (t.plan.item x.item) with
  | some q =>
    let w := t.plan.queues.getD q []
    let readers := (List.range t.plan.items.length).filter fun i => recvqOf (t.plan.item i) == some q
    if !x.recomp && readers.all fun i => t.itemDone i x.mb false then
      s.postTo (recBits w 0 15 8) (recBits w 0 17 16) (recBits w 4 27 16) false 1
    else s
  | none => s

/-- The received block of hop `h` of a use may be given back: every part of the hop has completed, and the block has been forwarded
or needs no forwarding (R288). -/
def State.blockFree (s : State) (t : Step) (r : Nat) (u : Nat × Nat × Bool) (h : Nat) : Bool :=
  ((t.plan.instsOf u.2.1 u.1 u.2.2).filter fun x => x.hop == h).all (fun x => t.done.contains x) &&
  (h + 1 == t.plan.ringG r || s.transferLeft t.ringSent r (t.plan.ringNo r u h))

/-- Received ring blocks that may be given back are, with a post to FSIG on PREV (R288). -/
def State.freeBlocks (s : State) : State :=
  match s.trv with
  | none => s
  | some t =>
    (List.range t.plan.rings.length).foldl (fun s r =>
      let w := t.plan.rings.getD r []
      (t.plan.ringUses r).foldl (fun s u =>
        ((List.range (t.plan.ringG r)).drop 1).foldl (fun s h =>
          let j := t.plan.ringNo r u (h - 1)
          if !t.ringFreed.contains (r, j) && s.blockFree t r u h then
            (s.modTrv fun t => { t with ringFreed := t.ringFreed ++ [(r, j)] }).postTo (recBits w 0 31 24) (recBits w 0 33 32)
              (recBits w 5 27 16) false 1
          else s) s) s) s

/-- A running or ready instance uses a gather entry (R287). -/
def State.gatherUsed (s : State) (t : Step) (e : Nat) : Bool :=
  let uses := fun (x : Inst) => gathOf (t.plan.item x.item) == some e
  (t.running.any fun r => uses r.inst) || t.waitingInsts.any fun x => uses x && s.ready t x

/-- A present copy is dropped by a RELEASE of its buffer, and counted (R287). -/
def State.dropCopy (s : State) (t : Step) (e : Nat) : State :=
  let w := t.plan.gathers.getD e []
  let (k, s) := s.submitRelease (recBits w 0 47 0) (recBits w 1 47 0)
  (s.count Reg.TRV_GATHER_DROPPED 1).modTrv fun t => { t with
    gath := match mapFind t.gath e with
      | some g => mapInsert t.gath e { g with present := false, dropped := true, release := k }
      | none => t.gath }

/-- A KEEP = 2 copy that the completed instance used is dropped once nothing running or ready uses it (R287). -/
def State.dropUsed (s : State) (x : Inst) : State :=
  match s.trv with
  | none => s
  | some t =>
    match gathOf (t.plan.item x.item) with
    | some e =>
      if recBits (t.plan.gathers.getD e []) 4 1 0 = 2 && ((mapFind t.gath e).map (·.present)).getD false && !s.gatherUsed t e
      then s.dropCopy t e else s
    | none => s

/-- An instance completes (R272, R278): its post, the credits, the counts. -/
def State.completeInst (s : State) (x : Inst) : State :=
  let s := s.modTrv fun t => { t with done := t.done ++ [x] }
  match s.trv with
  | none => s
  | some t =>
    let w := t.plan.item x.item
    let s := if recBits w 1 44 44 = 1 then s.postTo (recBits w 1 55 48) (recBits w 1 47 46) (recBits w 1 43 32) false 1 else s
    (((s.postCredit t x).freeBlocks).dropUsed x).progress

/-- How a running instance has ended: none while it runs, else the failure of R278 and R279, if it failed. -/
def State.instEnd (s : State) (r : RunInst) : Option (Option StepFail) :=
  match r.chamber with
  | some n =>
    if s.chState n = 4 ∧ (s.ch n).halt = none then
      let cause := s.get (Reg.CHn_HALT_CAUSE n)
      let s9 := ((s.ch n).sregs[9]).toNat
      if cause ≠ 1 then some (some ⟨4, 1, cause, some r.inst⟩)
      else if s9 = 0 then some none else some (some ⟨4, 2, s9 % 2 ^ 16, some r.inst⟩)
    else none
  | none => (mapFind s.hlcDone r.token).map fun st => if st = 1 then none else some ⟨4, 3, st, some r.inst⟩

/-- INSTANCE_COMPLETE (R278, R279): the `k`-th running instance has ended; it completes or fails. -/
def execInstanceComplete (k : BitVec 16) (s : State) : Host.Outcome State Fault Refusal :=
  .next (match s.trv with
    | none => s
    | some t =>
      match t.running[k.toNat]? with
      | none => s
      | some r =>
        if s.held then s
        else match s.instEnd r with
          | none => s
          | some f =>
            let left := t.running.eraseIdx k.toNat
            let s := s.modTrv fun t => { t with running := left, idleAt := if left = [] then some s.cycle else t.idleAt }
            match f with
            | none => s.completeInst r.inst
            | some f => if s.get Reg.TRV_STATE_STATE = 2 then s.modTrv fun t => t.failWith f else s)

/-! ## Sequence rings and pipeline queues (R283, R288, R289) -/

/-- How many transfers of a ring or queue have been sent in the step. -/
def sentCount (l : List (Nat × Nat × Nat)) (r : Nat) : Nat := (l.filter fun e => e.1 == r).length

/-- Block `h` of a use is there to be sent: the own block once hop 0 is ready or has begun, a received one once it is present (R283, R288). -/
def State.blockThere (s : State) (t : Step) (r : Nat) (u : Nat × Nat × Bool) (h : Nat) : Bool :=
  if h = 0 then
    ((t.plan.instsOf u.2.1 u.1 u.2.2).filter fun x => x.hop == 0).any fun x => t.begun.contains x || s.ready t x
  else s.sigReaches (recBits (t.plan.rings.getD r []) 5 11 0) (t.ringK r (t.plan.ringNo r u (h - 1)) + 1)

/-- RING_BLOCK_SEND (R283, R288): the next block of a ring goes to NEXT's receive slot once FSIG allows. -/
def execRingBlockSend (r : Fin 4) (s : State) : Host.Outcome State Fault Refusal :=
  .next (match s.trvActs with
    | none => s
    | some t =>
      let p := t.plan
      let w := p.rings.getD r.val []
      let k := sentCount t.ringSent r.val
      let g := p.ringG r.val
      let h := k % (g - 1)
      match (p.ringUses r.val)[k / (g - 1)]? with
      | none => s.freeBlocks
      | some u =>
        if g < 2 then s
        else if s.sigReaches (recBits w 5 27 16) (t.ringK r.val k - 1) && s.blockThere t r.val u h then
          let blk := recBits w 1 47 0
          let rbuf := recBits w 4 47 0
          let src := if h = 0 then recBits w 2 47 0 + u.1 * recBits w 3 47 0 else rbuf + (t.ringK r.val (k - 1) % 2).toNat * blk
          let (tok, s) := s.submitCu (putWords 0 (recBits w 0 33 32) 1 (recBits w 0 23 16) src (rbuf + (t.ringK r.val k % 2).toNat * blk) blk 0
            (recBits w 5 11 0))
          (s.modTrv fun t => { t with ringSent := t.ringSent ++ [(r.val, k, tok)] }).freeBlocks
        else s.freeBlocks)

/-- Every item that writes a queue has completed for a microbatch. -/
def Step.slotWritten (t : Step) (q mb : Nat) : Bool :=
  let writers := (List.range t.plan.items.length).filter fun i => sendqOf (t.plan.item i) == some q
  writers != [] && writers.all fun i => t.itemDone i mb false

/-- QUEUE_SLOT_SEND (R289): the next microbatch's slot of a send queue goes to PEER once CREDSIG allows. -/
def execQueueSlotSend (q : Fin 8) (s : State) : Host.Outcome State Fault Refusal :=
  .next (match s.trvActs with
    | none => s
    | some t =>
      let w := t.plan.queues.getD q.val []
      let mb := sentCount t.qSent q.val
      let n := t.plan.nslots q.val
      if mb < t.plan.nmb ∧ recBits w 0 0 0 = 0 ∧ t.slotWritten q.val mb ∧ s.sigReaches (recBits w 4 27 16) (t.queueK mb + 1 - n) then
        let off := mb % n * recBits w 1 47 0
        let (tok, s) := s.submitCu (putWords (recBits w 0 19 18) (recBits w 0 17 16) (recBits w 0 35 32) (recBits w 0 15 8)
          (recBits w 2 47 0 + off) (recBits w 3 47 0 + off) (recBits w 1 47 0) (recBits w 5 15 0) (recBits w 4 11 0))
        s.modTrv fun t => { t with qSent := t.qSent ++ [(q.val, mb, tok)] }
      else s)

/-! ## Gathers (R284 to R287) -/

/-- The layers that F items name, in order. -/
def Plan.fLayers (p : Plan) : List Nat := ((p.phaseItems 2).map fun i => itemLayer (p.item i)).eraseDups

/-- The first gather of an entry is due: its first user's layer is among the first LOOKAHEAD + 1, or the first F instance of the
layer LOOKAHEAD places earlier has started (R286). -/
def Step.firstGatherDue (t : Step) (e : Nat) : Bool :=
  let p := t.plan
  match p.items.find? fun w => gathOf w == some e with
  | none => false
  | some w =>
    let pos := p.fLayers.findIdx fun l => l == itemLayer w
    decide (p.fLayers.length ≤ pos) || decide (pos ≤ p.lookahead) ||
    (t.begun.any fun x => !x.recomp && phaseOf (p.item x.item) == 2 &&
      itemLayer (p.item x.item) == p.fLayers.getD (pos - p.lookahead) 256)

/-- An instance waits for a dropped copy and for nothing else, or beside it for the recompute that its own readiness releases (R282,
R287). -/
def State.copyNeeded (s : State) (t : Step) (e : Nat) (g : GathSt) : Bool :=
  let t' := { t with gath := mapInsert t.gath e { g with present := true } }
  t.waitingInsts.any fun x => gathOf (t.plan.item x.item) == some e && s.sendOk t' x &&
    (if x.recomp then s.readyButSend t' x else s.baseReady t' x)

/-- A gather of an entry is due (R286, R287). -/
def State.gatherDue (s : State) (t : Step) (e : Nat) : Bool :=
  match mapFind t.gath e with
  | none => t.firstGatherDue e
  | some g => !g.flying && !g.present && g.dropped && (mapFind s.flsDone g.release).isSome && s.copyNeeded t e g

/-- Distance between two entry indices. -/
def entryGap (a b : Nat) : Nat := (a - b) + (b - a)

/-- The KEEP = 0 copies that may be dropped for room, the farthest from an entry first, the higher index on ties (R287). -/
def State.droppable (s : State) (t : Step) (e : Nat) : List Nat :=
  let l := (List.range t.plan.gathers.length).filter fun i =>
    recBits (t.plan.gathers.getD i []) 4 1 0 == 0 && ((mapFind t.gath i).map (·.present)).getD false && !s.gatherUsed t i
  (sortBy (entryGap e) l).reverse

/-- Bonded frames that the pages of a gathered buffer hold. -/
def State.bondedHeld (s : State) (base bytes : Nat) : Nat :=
  (s.pages.filter fun e => e.2.isBonded && decide (base / pageBytes ≤ e.1) && decide (e.1 < base / pageBytes + cdiv bytes pageBytes)).length

/-- Copies are dropped while the free bonded frames, with those being released, fall short (R287). -/
def State.dropFor (need : Nat) (t : Step) : List Nat → Nat → State → State
  | [], _, s => s
  | e :: es, free, s =>
    if need ≤ free then s
    else
      let w := t.plan.gathers.getD e []
      State.dropFor need t es (free + s.bondedHeld (recBits w 0 47 0) (recBits w 1 47 0)) (s.dropCopy t e)

/-- GATHER_ISSUE (R284, R286, R287): once VERSIG allows, room is made, a PREFETCH of the buffer is issued, and the gather submitted. -/
def execGatherIssue (e : BitVec 8) (s : State) : Host.Outcome State Fault Refusal :=
  .next (match s.trvActs with
    | none => s
    | some t =>
      let i := e.toNat
      if i < t.plan.gathers.length ∧ s.sigAtLeast (recBits t.plan.header 11 43 32) (t.delta + 1) ∧ s.gatherDue t i then
        let w := t.plan.gathers.getD i []
        let bytes := recBits w 1 47 0
        let again := (mapFind t.gath i).isSome
        let s := State.dropFor (cdiv bytes pageBytes + recBits t.plan.header 0 55 48 * 512) t (s.droppable t i) s.freeBonded s
        let s := s.submitPrefetch (recBits w 0 63 48) (recBits w 3 31 0)
        let shard := if t.req.stamp % 2 = 0 then recBits w 5 47 0 else recBits w 6 47 0
        let (tok, s) := s.submitCu
          [3 + 3 * 2 ^ 6 + 1 * 2 ^ 8 + 1 * 2 ^ 12 + recBits w 2 7 0 * 2 ^ 24 + recBits w 2 12 8 * 2 ^ 32 + recBits w 2 20 16 * 2 ^ 40,
           shard, recBits w 0 47 0, bytes, 0, 0, 0, 0]
        let s := (s.count Reg.TRV_GATHER_ISSUED 1).count Reg.TRV_GATHER_REGATHER (b2n again)
        s.modTrv fun t => { t with gath := mapInsert t.gath i ⟨tok, true, false, false, 0⟩ }
      else s)

/-- The stamps of the members' parts, and whether one is poisoned (R285). -/
def State.partStamps (s : State) (base len : Nat) : Nat → List Nat × Bool × State
  | 0 => ([], false, s)
  | g + 1 =>
    let (l, p, s) := s.partStamps base len g
    let (bs, q, s) := s.read (base + g * len) 4
    (l ++ [leNat bs], p || q, s)

/-- GATHER_LANDED (R285): every part has landed; the copy is present, or a stamp differs from n and the step ends with STAMP. -/
def execGatherLanded (e : BitVec 8) (s : State) : Host.Outcome State Fault Refusal :=
  .next (match s.trvActs with
    | none => s
    | some t =>
      let i := e.toNat
      match mapFind t.gath i with
      | none => s
      | some g =>
        let st := mapFind s.cuDone g.token
        if g.flying && (st == some 1 || st == some 3) then
          let w := t.plan.gathers.getD i []
          let n := recBits w 2 12 8
          let (l, bad, s) := s.partStamps (recBits w 0 47 0) (recBits w 1 47 0 / n) n
          if bad || l.any (· != t.req.stamp) then
            s.modTrv fun t => Step.failWith { t with gath := mapInsert t.gath i { g with flying := false } } ⟨5, 0, 0, none⟩
          else s.modTrv fun t => { t with gath := mapInsert t.gath i { g with flying := false, present := true } }
        else s)

/-! ## Ending a step (R293 to R296) -/

/-- Every send of R283 and R289 has left. -/
def State.sendsLeft (s : State) (t : Step) : Bool :=
  let p := t.plan
  ((List.range p.rings.length).all fun r =>
    (List.range ((p.ringG r - 1) * (p.ringUses r).length)).all fun k => s.transferLeft t.ringSent r k) &&
  ((List.range p.queues.length).all fun q =>
    !(p.items.any fun w => sendqOf w == some q) || (List.range p.nmb).all fun k => s.transferLeft t.qSent q k)

/-- The twin engine takes part in a commit: PAIRED, or handing over (R480, R482). -/
def State.twinCommits (s : State) : Bool :=
  s.flag Reg.GLB_ROLE_TWIN && (s.get Reg.TWN_STATE_STATE == 2 || s.get Reg.TWN_STATE_STATE == 5)

/-- A mark goes to the partner once no mirror copy is ahead of it (R480). -/
def State.sendMark (s : State) (ahead stamp : Nat) : State :=
  if ahead = 0 then { s with twinSent := s.twinSent ++ [.mark stamp] } else s

/-- STEP_COMPLETE (R293, R480): every instance and send is done. Traverse enters COMMIT and commits, or hands the step to the twin
engine, whose mark goes behind every mirror write already made; a FENCED side commits nothing (R481). -/
def execStepComplete (s : State) : Host.Outcome State Fault Refusal :=
  .next (match s.trvActs with
    | none => s
    | some t =>
      if t.running = [] ∧ t.allDone t.plan.ranked ∧ s.sendsLeft t then
        let s := s.freeBlocks.put Reg.TRV_STATE_STATE 4
        if s.twinCommits then
          (s.modTrv fun t => { t with mark := some s.mirrorQ.length }).sendMark s.mirrorQ.length t.req.stamp
        else if s.get Reg.TWN_STATE_STATE = 7 then (s.releaseAll t.plan).endFailed t.req ⟨4, 4, 0, none⟩
        else s.commitStep t
      else s)

/-- The chambers of a failed step that still run are stopped (R294, R296). -/
def State.stopChambers (s : State) : State :=
  match s.trv with
  | none => s
  | some t =>
    (t.running.filterMap (·.chamber)).foldl
      (fun s n => s.ctlArrives n 3 (s.get (Reg.CHn_CTL_START_PC n)) false false true false none) s

/-- The time of a failed step's programs is up: the chambers are stopped, and helictite jobs are waited for no longer (R294). -/
def State.stopStep (s : State) : State :=
  s.stopChambers.modTrv fun t => { t with stopped := true, running := t.running.filter fun r => r.chamber.isSome }

/-- A failed step enters ENDING (R294). -/
def State.beginEnding (s : State) (f : StepFail) : State :=
  (s.modTrv fun t => { Step.failWith t f with failAt := s.cycle }).put Reg.TRV_STATE_STATE 3

/-- A step in ENDING with nothing left running is reported. -/
def State.reportIfDone (s : State) : State :=
  match s.trv with
  | none => s
  | some t =>
    match t.fail with
    | some f => if s.get Reg.TRV_STATE_STATE = 3 ∧ t.running = [] then (s.releaseAll t.plan).endFailed t.req f else s
    | none => s

/-- STEP_FAIL (R294): a recorded failure ends the step: nothing further starts, and the failure is reported once nothing runs. -/
def execStepFail (s : State) : Host.Outcome State Fault Refusal :=
  .next (match s.trv with
    | none => s
    | some t =>
      if s.held then s
      else match t.fail with
        | none => s
        | some f => (if s.get Reg.TRV_STATE_STATE = 2 then s.beginEnding f else s).reportIfDone)

/-- ACLK cycles of a number of milliseconds (R5). -/
def msCycles (n : Nat) : Nat := n * 1700000

/-- STALL_TIMEOUT (R294): no instance has completed while none ran for STALL_MS. -/
def execStallTimeout (s : State) : Host.Outcome State Fault Refusal :=
  .next (match s.trvActs with
    | none => s
    | some t =>
      let ms := s.get Reg.TRV_CTL_STALL_MS
      match t.idleAt with
      | some c => if ms ≠ 0 ∧ msCycles ms ≤ s.cycle - c then (s.beginEnding ⟨6, 0, 0, none⟩).reportIfDone else s
      | none => s)

/-- RUNON_EXPIRE (R294): a failed step's programs have run on for their limit. -/
def execRunonExpire (s : State) : Host.Outcome State Fault Refusal :=
  .next (match s.trv with
    | none => s
    | some t =>
      let ms := s.get Reg.TRV_CTL_STALL_MS
      if s.get Reg.TRV_STATE_STATE = 3 ∧ !t.stopped ∧ !s.held ∧ msCycles (if ms = 0 then 100 else ms) ≤ s.cycle - t.failAt then
        s.stopStep.reportIfDone
      else s)

/-- A write of TRV_CTL.ABORT (R296): a running step, one that waits in COMMIT among them, fails with ABORTED and its chambers stop at
once; a step that has failed already keeps its first failure. Helictite jobs run on within the limit of R294. -/
def State.trvAbort (s : State) : State :=
  if s.get Reg.TRV_STATE_STATE = 2 ∨ s.get Reg.TRV_STATE_STATE = 4 then ((s.beginEnding ⟨7, 0, 0, none⟩).stopChambers).reportIfDone
  else if s.get Reg.TRV_STATE_STATE = 3 then s.stopChambers.reportIfDone
  else s

/-- TRV_ABORT (R296, R298). -/
def execTrvAbort (s : State) : Host.Outcome State Fault Refusal := .next s.trvAbort

end Sys2Proof.Machine
end

