-- ==== Sys2Proof/Machine/Keeper.lean ====
section
/-! DEFINITION. The keeper service: its table, its updates, its publications, and its record in a twin (R314 to R320). -/

namespace Sys2Proof.Machine

open Sys2Proof

/-! ## The table (R314) -/

/-- The fields of a keeper table's header. -/
def kprHeaderFields : List (List (Nat × Nat)) :=
  [[(10, 0), (12, 12), (63, 32)], addrField, [(11, 0), (27, 16), (43, 32), (49, 48)], [(31, 0)]]

/-- The fields of a keeper table's entry. -/
def kprEntryFields : List (List (Nat × Nat)) :=
  [[(7, 0), (32, 16)], addrField, addrField, addrField, addrField, addrField]

/-- Workers that a keeper table serves. -/
def Keeper.nw (k : Keeper) : Nat := recBits k.header 0 10 8 + 1

/-- A worker's entry. -/
def Keeper.entry (k : Keeper) (i : Nat) : List Nat := k.entries.getD i []

/-- A table obeys R314. -/
def Keeper.ok (k : Keeper) : Bool :=
  recBits k.header 0 7 0 == 1 && onlyFields kprHeaderFields k.header &&
  k.entries.all fun w => onlyFields kprEntryFields w && recBits w 3 7 0 == 0

/-- A worker that has done nothing for the step at hand. -/
def KprWorker.fresh : KprWorker := ⟨0, 0, none⟩

/-- The table at an address; whether a granule of it is poisoned. -/
def State.readKeeper (s : State) (a version : Nat) (mode : KprMode) : Keeper × Bool × State :=
  let (hb, p, s) := s.read a 64
  let h := recWords hb 8
  let n := recBits h 0 10 8 + 1
  let (eb, q, s) := s.read (a + 64) (64 * n)
  (⟨a, h, entriesOf 8 n (recWords eb (8 * n)), recBits h 0 63 32, version, mode, List.replicate n KprWorker.fresh, none, false⟩, p || q, s)

/-! ## The service's state (R318 to R320) -/

/-- The service record is rewritten in a twin (R319): TABLE, VERSION, STAMP0 and STATE in the first granule of the own window. -/
def State.kprRecord (s : State) : State :=
  if s.flag Reg.GLB_ROLE_TWIN then
    (s.write 3 (s.get Reg.TWN_WIN_OWN_BASE * 2 ^ 30)
      (wordsToBytes [s.get Reg.GLB_KPR_CTL_TABLE, s.get Reg.GLB_KPR_STATE_VERSION + s.kprStamp0 * 2 ^ 32, s.get Reg.GLB_KPR_STATE_STATE] ++
        zeroBytes 232)).2
  else s

/-- The service enters a state. -/
def State.kprState (s : State) (st : Nat) : State := (s.put Reg.GLB_KPR_STATE_STATE st).kprRecord

/-- One of the two tables replaced. -/
def State.setKpr (s : State) (peer : Bool) (k : Option Keeper) : State := if peer then { s with kprPeer := k } else { s with kpr := k }

/-- One of the two tables. -/
def State.kprOf (s : State) (peer : Bool) : Option Keeper := if peer then s.kprPeer else s.kpr

/-- A failed update or send puts the service in FAILED (R318). -/
def State.kprFail (s : State) (peer : Bool) (k : Keeper) (cause worker : Nat) : State :=
  let s := s.puts [(Reg.GLB_KPR_LAST_STAMP, k.version), (Reg.GLB_KPR_LAST_TABLE, b2n peer), (Reg.GLB_KPR_LAST_WORKER, worker),
    (Reg.GLB_KPR_LAST_CAUSE, cause)]
  let s := s.logErr { sev := 2, kind := 13, source := 11, stamp := k.version, unit := worker, detail := cause }
  ({ s with kpr := none, kprPeer := none }).kprState 3

/-- The service ends in OFF (R320). -/
def State.kprOff (s : State) : State := ({ s with kpr := none, kprPeer := none }).kprState 0

/-- An update job of a table runs. -/
def Keeper.jobRuns (k : Keeper) : Bool := k.workers.any fun w => w.stage == 2

/-- An update job of the service runs. -/
def State.kprJobRuns (s : State) : Bool := ((s.kpr.map Keeper.jobRuns).getD false) || ((s.kprPeer.map Keeper.jobRuns).getD false)

/-- A version is published on every worker of a table: VERSIG is posted (R315, R316). -/
def State.postVersig (s : State) (k : Keeper) : State :=
  k.entries.foldl (fun s w => s.postTo (recBits w 0 7 0) (recBits k.header 2 49 48) (recBits k.header 2 43 32) false 1) s

/-! ## Start and stop (R315, R319, R320) -/

/-- The first 2 MiB of the own window is a mirrored object (R319). -/
def State.recordMirrored (s : State) : Bool :=
  match s.objectOf (pageOf (s.get Reg.TWN_WIN_OWN_BASE * 2 ^ 30)) with
  | some o => o.mirror
  | none => false

/-- START of a service that is OFF or FAILED (R315). -/
def State.kprStart (s : State) : State :=
  let a := s.get Reg.GLB_KPR_CTL_TABLE / 64 * 64
  let fresh := s.flag Reg.GLB_KPR_CTL_FRESH
  let (k, bad, s) := s.readKeeper a 0 .copy
  let s : State := if bad then s else { s with kprStamp0 := k.stamp0 }
  if bad || !k.ok || (s.flag Reg.GLB_ROLE_TWIN && !s.recordMirrored) then
    (s.puts [(Reg.GLB_KPR_LAST_CAUSE, 1), (Reg.GLB_KPR_LAST_TABLE, 0)]).kprState 3
  else
    let k := { k with version := k.stamp0 }
    if fresh then ({ s with kpr := some k }).kprState 1
    else
      let s : State := { s with kpr := some { k with mode := .run } }
      ((s.put Reg.GLB_KPR_STATE_VERSION k.stamp0).kprState 2).postVersig k

/-- STOP (R320): the service returns to OFF once no update job runs. -/
def State.kprStop (s : State) : State :=
  if s.get Reg.GLB_KPR_STATE_STATE = 0 ∨ s.get Reg.GLB_KPR_STATE_STATE = 3 then s
  else if s.kprJobRuns then
    { s with kpr := s.kpr.map fun k => { k with stopping := true }, kprPeer := s.kprPeer.map fun k => { k with stopping := true } }
  else s.kprOff

/-- FRESH and TABLE are written, and the service record with a TABLE that changes (R319). -/
def State.putKprCtl (s : State) (fresh : Bool) (table : Nat) : State :=
  let t := s.puts [(Reg.GLB_KPR_CTL_FRESH, b2n fresh), (Reg.GLB_KPR_CTL_TABLE, table)]
  if s.get Reg.GLB_KPR_CTL_TABLE = t.get Reg.GLB_KPR_CTL_TABLE then t else t.kprRecord

/-- A write to GLB_KPR_CTL (R315, R320): on a worker, and in RUN without STOP, it is ignored and counted. -/
def State.writeKprCtl (s : State) (agent : Nat) (start stop fresh : Bool) (table : Nat) : State :=
  if !s.flag Reg.GLB_ROLE_KEEPER then s.violGlb agent 0 0x400
  else if s.get Reg.GLB_KPR_STATE_STATE = 2 then (if stop then s.kprStop else s.violGlb agent 3 0x400)
  else
    let s := s.putKprCtl fresh table
    let s := if stop then s.kprStop else s
    if start && (s.get Reg.GLB_KPR_STATE_STATE == 0 || s.get Reg.GLB_KPR_STATE_STATE == 3) then s.kprStart else s

/-- KEEPER_START (R315): a write with START = 1. -/
def execKeeperStart (fresh : Bool) (table : BitVec 48) (s : State) : Host.Outcome State Fault Refusal :=
  .next (s.writeKprCtl 0 true false fresh table.toNat)

/-- KEEPER_STOP (R320): a write with STOP = 1 that keeps the other fields. -/
def execKeeperStop (s : State) : Host.Outcome State Fault Refusal :=
  .next (s.writeKprCtl 0 false true (s.flag Reg.GLB_KPR_CTL_FRESH) (s.get Reg.GLB_KPR_CTL_TABLE))

/-! ## Updates (R305, R316, R319) -/

/-- The step whose update a table runs: VERSION, or STAMP0 in a fresh start's COPY pass. -/
def Keeper.step (k : Keeper) : Nat := k.version

/-- PHASES of the table's update jobs (R305). -/
def KprMode.phases : KprMode → Nat
  | .run => 1
  | .weight => 2
  | .copy => 3

/-- n − STAMP0 of the step at hand. -/
def Keeper.delta (k : Keeper) : Int := (k.version : Int) - k.stamp0

/-- The version that a table's sends carry: n + 1 in a step, STAMP0 in a fresh start. -/
def Keeper.sends (k : Keeper) : Nat := if k.mode = .run then (k.version + 1) % 2 ^ 32 else k.version

/-- The chamber in service on a keeper: the lowest-numbered enabled one (R71). -/
def State.kprChamber (s : State) : Option Nat := (List.range 28).find? fun n => s.chState n != 0

/-- The service may begin work on a table's next version: not stopping, the side neither handing over, handed nor fenced (R320, R481, R482). -/
def State.kprMayBegin (s : State) (k : Keeper) : Bool :=
  let tw := s.get Reg.TWN_STATE_STATE
  !k.stopping && tw != 6 && tw != 7 && (tw != 5 || k.workers.any fun w => w.stage != 0)

/-- A worker of a table replaced. -/
def Keeper.setWorker (k : Keeper) (i : Nat) (w : KprWorker) : Keeper := { k with workers := k.workers.set i w }

/-- The argument words of an update on the keeper's chamber (R305, R278): s2 to s4 part, parts and n, s6 and s7 ARG0 and ARG1. -/
def Keeper.chamberArgs (k : Keeper) (i : Nat) : List Word :=
  [0, 0, 1, k.step, 0, recBits (k.entry i) 1 47 0, k.mode.phases + 2 ^ 32, 0].map (BitVec.ofNat 64)

/-- An update job starts on the keeper's chamber: the bundle image with START_PC 0 is loaded if it holds another (R314); a poisoned
image fails the job. -/
def State.kprOnChamber (s : State) (peer : Bool) (k : Keeper) (i n : Nat) : State :=
  let a := recBits k.header 1 47 0
  let (bs, bad, s') := if (s.ch n).prog = some (a, 4096) then ([], false, s) else s.read a (64 * 4096)
  if bad then s'.kprFail peer k 2 i
  else
    let s := if (s'.ch n).prog = some (a, 4096) then s' else s'.modCh n fun c => { c with bmem := memWrite c.bmem 0 bs, prog := some (a, 4096) }
    let s := s.setKpr peer (some (k.setWorker i ⟨2, 0, some n⟩))
    s.writeCtl n 3 0 false false false true (some (k.chamberArgs i))

/-- The job record of an update on the helictites (R222, R279, R305): every helictite of the part, with the image's instruction count. -/
def State.kprHlcWords (s : State) (k : Keeper) (i : Nat) : List Nat × State :=
  let a := recBits k.header 1 47 0
  let (b, _, s) := s.readWord a
  ([(bits b 8 0 - 1) % 256 * 2 ^ 16 + (2 ^ s.get Reg.GLB_ID_LAYERS - 1) * 2 ^ 24, 2 ^ 64 - 1, 2 ^ 32 - 1, a,
    recBits (k.entry i) 1 47 0, k.mode.phases + 2 ^ 32, 0, k.step], s)

/-- An update job starts, where its unit is free (R316). -/
def State.kprStartJob (s : State) (peer : Bool) (k : Keeper) (i : Nat) : State :=
  if recBits k.header 0 12 12 = 1 then
    match s.kprChamber with
    | none => s
    | some n =>
      let free := (s.chState n == 1 || s.chState n == 4 || s.chState n == 6) && (s.ch n).halt.isNone && !(s.ch n).resetting &&
        !s.kprJobRuns && !s.held && !s.flag (Reg.CHn_STATUS_RETIRE_PENDING n)
      if free then s.wake.kprOnChamber peer k i n else s
  else
    let (ws, s) := s.wake.kprHlcWords k i
    let (tok, s) := s.newToken
    let s : State := { s with hlcQueue := s.hlcQueue ++ [⟨tok, ws, s.hlcPosted⟩] }
    s.setKpr peer (some (k.setWorker i ⟨2, tok, none⟩))

/-- How a worker's update job has ended: none while it runs, else whether it succeeded (R278, R279). -/
def State.kprJobEnd (s : State) (w : KprWorker) : Option Bool :=
  match w.chamber with
  | some n =>
    if s.chState n = 4 ∧ (s.ch n).halt = none then
      some (s.get (Reg.CHn_HALT_CAUSE n) == 1 && ((s.ch n).sregs[9]).toNat == 0)
    else none
  | none => (mapFind s.hlcDone w.token).map (· == 1)

/-- The staging buffer is stamped and sent whole to the worker's buffer of that parity (R315, R316). -/
def State.kprSend (s : State) (peer : Bool) (k : Keeper) (i : Nat) : State :=
  let w := k.entry i
  let p := k.sends % 2
  let len := recBits w 3 47 0
  let src := recBits w 2 47 0 + p * len
  let s := (s.write 3 src (leBytes 4 k.sends ++ zeroBytes 252)).2
  let dst := if p = 0 then recBits w 4 47 0 else recBits w 5 47 0
  let (tok, s) := s.newToken
  let ws := [1 + recBits k.header 2 49 48 * 2 ^ 6 + 1 * 2 ^ 8 + 1 * 2 ^ 12 + recBits w 0 7 0 * 2 ^ 16, src, dst, len, 0, 0, 0, 0]
  let s : State := { s with cuQueue := s.cuQueue ++ [⟨tok, ws, 0⟩] }
  s.setKpr peer (some (k.setWorker i ⟨3, tok, none⟩))

/-- A worker of a table goes on (R316): its gradient arrives and its state is prefetched; the version hold is met and its update
starts; the update has ended and the shard is sent; the send is visible. -/
def State.kprWork (s : State) (peer : Bool) (k : Keeper) (i : Nat) (w : KprWorker) : State :=
  let e := k.entry i
  match w.stage with
  | 0 =>
    if !s.kprMayBegin k then s
    else if k.mode ≠ .run then s.kprStartJob peer k i
    else if s.sigAtLeast (recBits k.header 2 11 0 + i) (k.delta + 1) then
      let s := if recBits e 0 32 32 = 1 then s.submitPrefetch (recBits e 0 31 16) (recBits k.header 3 31 0) else s
      s.setKpr peer (some (k.setWorker i ⟨1, 0, none⟩))
    else s
  | 1 => if !k.stopping && s.sigAtLeast (recBits k.header 2 27 16) (k.nw * k.delta) then s.kprStartJob peer k i else s
  | 2 =>
    match s.kprJobEnd w with
    | none => s
    | some ok =>
      if k.stopping then
        let s := s.setKpr peer (some (k.setWorker i KprWorker.fresh))
        if s.kprJobRuns then s else s.kprOff
      else if !ok then s.kprFail peer k 2 i
      else if k.mode = .weight then s.setKpr peer (some (k.setWorker i ⟨4, 0, none⟩))
      else s.kprSend peer k i
  | 3 =>
    match mapFind s.cuDone w.token with
    | none => s
    | some st => if st = 1 then s.setKpr peer (some (k.setWorker i ⟨4, 0, none⟩)) else s.kprFail peer k 3 i
  | _ => s

/-- KEEPER_UPDATE (R315, R316, R319): worker `i` of the own or the partner's table. -/
def execKeeperUpdate (peer : Bool) (i : Fin 8) (s : State) : Host.Outcome State Fault Refusal :=
  .next (match s.kprOf peer with
    | none => s
    | some k =>
      match k.workers[i.val]? with
      | none => s
      | some w => s.kprWork peer k i.val w)

/-! ## Publication (R315, R316, R319, R480) -/

/-- The version after a publication: STAMP0 after a fresh start, n + 1 after a step. -/
def Keeper.next (k : Keeper) : Keeper :=
  { k with version := k.sends, mode := .run, workers := k.workers.map fun _ => KprWorker.fresh, mark := none }

/-- VERSIG is posted, and the table goes on with its next step (R316). -/
def State.kprPost (s : State) (peer : Bool) (k : Keeper) : State := (s.setKpr peer (some k.next)).postVersig k

/-- VERSION advances, and with it the service record, before the post of VERSIG (R316, R319); a fresh start enters RUN (R315). -/
def State.kprAdvance (s : State) (peer : Bool) (k : Keeper) : State :=
  if peer then s
  else
    let s := s.put Reg.GLB_KPR_STATE_VERSION k.sends
    if k.mode = .copy then s.kprState 2 else s.kprRecord

/-- KEEPER_PUBLISH (R316): every worker's send is visible. In a twin the post waits for the acknowledgement of a mark sent after the
update's last write (R480); the WEIGHT passes of a takeover post nothing (R319). -/
def execKeeperPublish (peer : Bool) (s : State) : Host.Outcome State Fault Refusal :=
  .next (match s.kprOf peer with
    | none => s
    | some k =>
      if k.stopping || k.mark.isSome || !k.workers.all (fun w => w.stage == 4) then s
      else if k.mode = .weight then s.setKpr peer (some { k with mode := .run, workers := k.workers.map fun _ => KprWorker.fresh })
      else
        let s := s.kprAdvance peer k
        if s.twinCommits && k.mode == .run then
          (s.setKpr peer (some { k with mark := some s.mirrorQ.length })).sendMark s.mirrorQ.length k.sends
        else s.kprPost peer k)

end Sys2Proof.Machine
end

