-- ==== Sys2Proof/Machine/Host.lean ====
section
/-! DEFINITION. The host over CXL: the link, device memory, the snoop filter, the work ledger, ingest, and the mailbox's own commands (R391 to R419). -/

namespace Sys2Proof.Machine

open Sys2Proof

/-! ## The link (R391 to R393, R416 to R418) -/

/-- CXL.cache and CXL.mem run: HST_LINK.STATE is UP. -/
def State.linkUp (s : State) : Bool := s.get Reg.HST_LINK_STATE == 2

/-- HOST_LINK_TRAIN (R391 to R393): a link that is down trains to `width` lanes at `rate` GT/s; `flit` is the 256-byte flit mode, `cxl`
whether the host enables CXL.cache and CXL.mem. Anything the port does not support leaves the link down. -/
def execHostLinkTrain (width rate : BitVec 8) (flit cxl : Bool) (s : State) : Host.Outcome State Fault Refusal :=
  let w := width.toNat
  let r := rate.toNat
  .next (
    if s.inReset || s.get Reg.HST_LINK_STATE != 0 then s
    else if (w = 8 ∨ w = 16) ∧ (r = 32 ∨ r = 64) ∧ flit then
      (s.countSat Reg.HST_LINK_UPS 1).puts
        [(Reg.HST_LINK_WIDTH, w), (Reg.HST_LINK_RATE, r / 32), (Reg.HST_LINK_STATE, if cxl then 2 else 1)]
    else s)

/-- The copies that a link loss cuts short end with HOST_LOST (R409, R417). -/
def State.endCopies (s : State) : State :=
  let copy := fun (r : LedgerRec) => r.op == 3 || r.op == 4
  { s with
    openRecs := s.openRecs.filter fun r => !copy r
    endedRecs := s.endedRecs ++ ((s.openRecs.filter copy).map fun r => { r with status := 0x13 }) }

/-- Records of the ledger in service that have not started (R417). -/
def State.unstarted (s : State) : Nat := if s.get Reg.MBX_CTL_STATE = 3 then s.ledgerTail - s.started else 0

/-- A host-link reset (R416 to R418): the HST_ and MBX_ fields that H reaches return to their reset values, the snoop filter and BAR2 are
reset, the decoders' commit state with it (R398), copies end, unstarted records are abandoned, and everything else goes on. -/
def State.linkLoss (s : State) (cause : Nat) : State :=
  let ab := s.unstarted
  let dirty := (s.snoop.filter fun e => e.2.own).length
  let s := s.resetRange .hostLink 0x5000000 0x5800000
  let s := if 2 ≤ s.get Reg.MBX_CTL_STATE then s.put Reg.MBX_CTL_STATE 4 else s
  let s := s.puts [(Reg.HST_LOSS_DIRTY_LINES, min dirty (2 ^ 32 - 1)), (Reg.HST_LOSS_ABANDONED, min ab 65535), (Reg.HST_LOSS_CAUSE, cause)]
  let s : State := { s with
    irq := { s.irq with table := msixTable, pba := 0 }, component := [], decoders := Vector.replicate 2 Decoder.reset
    snoop := [], biWait := [], biAt := none, detaching := false, irqWait := false, irqAt := none }
  (s.gotFrame .ledger).endCopies

/-- HOST_LINK_RESET (R416): PERST#, a CXL hot reset or a link failure, as HST_LOSS.CAUSE codes them. -/
def execHostLinkReset (cause : Fin 3) (s : State) : Host.Outcome State Fault Refusal :=
  .next (if s.inReset then s else s.linkLoss (cause.val + 1))

/-! ## The snoop filter (R399, R401) -/

/-- Lines the snoop filter holds (R399). -/
def snoopLines : Nat := 8388608

/-- The line granted longest ago. -/
def oldestLine : Map SnoopLine → Option (Nat × SnoopLine)
  | [] => none
  | e :: m =>
    match oldestLine m with
    | some f => if e.2.seq < f.2.seq then some e else some f
    | none => some e

/-- The host takes a line with caching intent: a full filter gives up the line granted longest ago first (R399). -/
def State.grantLine (s : State) (l : Nat) (own : Bool) : State :=
  let s := if (mapFind s.snoop l).isNone && decide (snoopLines ≤ s.snoop.length) then
      match oldestLine s.snoop with
      | some e => (s.dropLine e.1).count Reg.HST_SF_BISNP 1
      | none => s
    else s
  { s with snoop := mapInsert s.snoop l ⟨s.snoopSeq, own⟩, snoopSeq := s.snoopSeq + 1 }

/-- BISNP_RESPONSE (R399): the host answers for a line. -/
def execBisnpResponse (line : BitVec 35) (s : State) : Host.Outcome State Fault Refusal :=
  let l := line.toNat
  .next (
    if s.biWait.contains l then
      let s := s.dropLine l
      { s with biAt := if s.biWait = [] then none else some s.cycle }
    else s)

/-- BI_TIMEOUT (R401): the host has answered no back-invalidation for BI_TIMEOUT_MS; zero is no limit. -/
def execBiTimeout (s : State) : Host.Outcome State Fault Refusal :=
  let ms := s.get Reg.HST_CFG_BI_TIMEOUT_MS
  .next (match s.biAt with
    | some t => if ms ≠ 0 ∧ msCycles ms ≤ s.cycle - t then s.linkLoss 4 else s
    | none => s)

/-! ## Device memory (R397, R400) -/

/-- Data returned to the host. -/
def State.reply (s : State) (bs : List Byte) (bad : Bool) : State := { s with hostReply := (bs, bad) }

/-- The log entry of a poisoned granule that the host, or a ledger WRITE, met (R377). -/
def State.logHostPoison (s : State) (a : Nat) : State := s.logErr { sev := 1, kind := 4, source := 13, addr := a / 256 * 256, obj := s.objId a }

/-- HOST_MEM_READ (R397 to R400): one line of device memory, with caching intent or without. An access that a claim holds back waits. -/
def execHostMemRead (line : BitVec 35) (intent : CacheIntent) (s : State) : Host.Outcome State Fault Refusal :=
  let a := 64 * line.toNat
  .next (
    if !s.linkUp then s
    else if !s.memActive then s.reply (zeroBytes 64) false
    else if s.claimed none a then s.noteWaiting none a
    else
      let (bs, bad, s) := s.wakeKeep.readAs 0 a 64
      let s := if bad then s.logHostPoison a else s
      let s := match intent with
        | .none => s
        | .shared => s.grantLine line.toNat false
        | .owned => s.grantLine line.toNat true
      s.reply bs bad)

/-- A write from the host's side, merged into its granule; dropped onto poison and logged, held without a frame (R207, R240, R377, R400). -/
def State.hostMerge (s : State) (a : Nat) (bs : List Byte) : State :=
  match s.writeIn 0 false a bs with
  | (.poisoned, t) => t.logHostPoison a
  | (.noFrame, t) => t.hold a bs 0 false false
  | (_, t) => t

/-- HOST_MEM_WRITE (R397, R400): one line. -/
def execHostMemWrite (line : BitVec 35) (data : List Byte) (s : State) : Host.Outcome State Fault Refusal :=
  let a := 64 * line.toNat
  .next (
    if !s.linkUp || !s.memActive then s
    else if s.claimed none a then s.noteWaiting none a
    else s.wakeKeep.hostMerge a (fitBytes 64 data))

/-! ## The ledger (R402 to R407) -/

/-- Vector 0 is raised for completions written with IRQ = 1, no sooner than IRQ_HOLDOFF_US after the last raise (R396). -/
def State.tryIrq (s : State) : State :=
  let free := match s.irqAt with
    | some t => decide (s.get Reg.HST_CFG_IRQ_HOLDOFF_US * 1700 ≤ s.cycle - t)
    | none => true
  if s.irqWait && free then { s.raiseIrq 0 with irqWait := false, irqAt := some s.cycle } else s

/-- IRQ_HOLDOFF_EXPIRE (R396). -/
def execIrqHoldoffExpire (s : State) : Host.Outcome State Fault Refusal := .next s.tryIrq

/-- The words of a completion record (R408). -/
def State.cmplWords (s : State) (c : Completion) : List Nat :=
  let e := c.entry
  let phase := 1 - s.cmplCount / 2 ^ s.get Reg.HST_CMPL_BASE_LOG2 % 2
  [e.status % 2 ^ 8 + e.cause % 2 ^ 8 * 2 ^ 8 + e.code % 2 ^ 16 * 2 ^ 16 + b2n (e.gen != s.attachments) * 2 ^ 32 +
     e.op % 2 ^ 8 * 2 ^ 40 + phase * 2 ^ 63,
   e.tag, e.k, (if e.op = 1 then e.stamp % 2 ^ 32 else 0) + e.gen % 2 ^ 16 * 2 ^ 48, c.errSeq % 2 ^ 32, 0, 0, 0]

/-- A completion may be written: attached, over a running link, with room in the ring (R407). -/
def State.mayComplete (s : State) : Bool :=
  s.linkUp && s.get Reg.MBX_CTL_STATE == 3 && decide (s.cmplCount < s.cmplHead + 2 ^ s.get Reg.HST_CMPL_BASE_LOG2)

/-- The oldest held completion is written. -/
def State.writeCmpl (s : State) (c : Completion) (cs : List Completion) : State :=
  let a := s.get Reg.HST_CMPL_BASE_ADDR + 64 * (s.cmplCount % 2 ^ s.get Reg.HST_CMPL_BASE_LOG2)
  { s with
    heldCmpl := cs, cmplCount := s.cmplCount + 1, irqWait := s.irqWait || c.entry.irq
    hostWrites := s.hostWrites ++ [⟨a, wordsToBytes (s.cmplWords c), false⟩] }

/-- Held completions are written while they may (R407, R415). -/
def State.writeHeld : Nat → State → State
  | 0, s => s
  | f + 1, s =>
    match s.heldCmpl with
    | [] => s
    | c :: cs => if s.mayComplete then State.writeHeld f (s.writeCmpl c cs) else s

/-! ### The mailbox's exchange (R413) -/

/-- The response words: word 0 echoes the request with RESULT; a word that no rule gives is free. RSP rises, REQ falls, vector 1 is raised. -/
def State.respond (s : State) (result : Nat) (words : List Nat) : State :=
  let n := s.freeCount
  let s := ({ s with freeCount := n + 7 }).put (Reg.MBX_D2Hk_WORD 0) (s.get (Reg.MBX_H2Dk_WORD 0) % 2 ^ 32 + result * 2 ^ 32)
  let s := s.puts ((List.range 7).map fun i => (Reg.MBX_D2Hk_WORD (i + 1), words.getD i (Config.freeWord (n + i)).toNat))
  (s.puts [(Reg.MBX_CTL_RSP, 1), (Reg.MBX_CTL_REQ, 0)]).raiseIrq 1

/-- CMD of the request. -/
def State.mbxCmd (s : State) : Nat := s.get (Reg.MBX_H2Dk_WORD 0) % 2 ^ 16

/-- A request word. -/
def State.mbxWord (s : State) (k : Nat) : Nat := s.get (Reg.MBX_H2Dk_WORD k)

/-- A request of a command is served where MBX_CTL.STATE accepts it, and answered STATE elsewhere (R414). -/
def State.mailbox (s : State) (cmd : Nat) (states : List Nat) (f : State → State) : State :=
  if s.flag Reg.MBX_CTL_REQ && s.mbxCmd == cmd then
    (if states.contains (s.get Reg.MBX_CTL_STATE) then f s else s.respond 2 [])
  else s

/-- A DETACH responds once every started record's completion is written (R414). -/
def State.finishDetach (s : State) : State :=
  if s.detaching && s.openRecs.isEmpty && s.endedRecs.isEmpty && s.heldCmpl.isEmpty then
    (({ s with detaching := false }).put Reg.MBX_CTL_STATE 4).respond 0 []
  else s

/-- Held completions are written, vector 0 raised where it may be, and a DETACH that waits for them responds. -/
def State.flushCmpl (s : State) : State := (State.writeHeld s.heldCmpl.length s).tryIrq.finishDetach

/-! ### Records -/

/-- Bits that R404 does not list are zero. -/
def recListed (ws : List Nat) : Bool :=
  recBits ws 0 15 11 == 0 && recBits ws 0 31 24 == 0 && recBits ws 2 63 48 == 0 && recBits ws 3 63 32 == 0 &&
  recBits ws 4 63 13 == 0 && recBits ws 6 63 52 == 0 && recBits ws 7 63 32 == 0

/-- A copy's host address or length is misaligned (R404, R409). -/
def copyMisaligned (ws : List Nat) : Bool := recBits ws 6 51 0 % 64 != 0 || recBits ws 7 31 0 % 64 != 0 || recBits ws 7 31 0 < 64

/-- BAD_RECORD (R409), for record `k`. -/
def recBad (ws : List Nat) (k : Nat) : Bool :=
  let op := recBits ws 0 7 0
  decide (4 < op) || !recListed ws || recBits ws 0 63 32 != k % 2 ^ 32 || decide (192 < recBits ws 0 23 16) ||
  ((op == 3 || op == 4) && copyMisaligned ws)

/-- The record as it starts (R404). -/
def State.recOf (s : State) (ws : List Nat) : LedgerRec :=
  { gen := s.attachments, k := s.started, op := recBits ws 0 7 0, post := bit (ws.getD 0 0) 9, set := bit (ws.getD 4 0) 12
    irq := bit (ws.getD 0 0) 10, sig := recBits ws 4 11 0, value := ws.getD 5 0, tag := ws.getD 1 0, addr := recBits ws 2 47 0
    stamp := recBits ws 3 31 0, haddr := recBits ws 6 51 0, bytes := recBits ws 7 31 0, copied := 0, poison := false
    status := 0, cause := 0, code := 0 }

/-- A record of the current ledger has started and not completed. -/
def State.recsOpen (s : State) : Bool := (s.openRecs ++ s.endedRecs).any fun r => r.gen == s.attachments

/-- The next record may start (R406, R407, R414, R417). -/
def State.nextStarts (s : State) (ws : List Nat) : Bool :=
  s.linkUp && s.get Reg.MBX_CTL_STATE == 3 && !s.detaching && decide (s.started < s.ledgerTail) && decide (s.heldCmpl.length < 64) &&
  !(bit (ws.getD 0 0) 8 && s.recsOpen)

/-- The next record has started. -/
def State.countStart (s : State) : State := ({ s with started := s.started + 1 }).put Reg.HST_LEDGER_POS_STARTED (s.started + 1)

/-- A record's operation has ended with a status. -/
def State.endRec (s : State) (r : LedgerRec) (status : Nat) : State := { s with endedRecs := s.endedRecs ++ [{ r with status := status }] }

/-- The next record starts: a FENCE behind a failure ends FENCED, a bad one BAD_RECORD, any other runs `f` (R406, R409). -/
def State.startRec (s : State) (ws : List Nat) (f : State → LedgerRec → State) : State :=
  let r := s.recOf ws
  if bit (ws.getD 0 0) 8 && s.ledgerBad then s.countStart.endRec r 0x14
  else if recBad ws s.started then s.countStart.endRec r 0x10
  else f s r

/-- A record's words as numbers. -/
def recNats (ws : List Word) : List Nat := ws.map (·.toNat)

/-- The next record of the ledger, where it is of operation `op`. A reserved operation is NOP's. -/
def State.ledger (s : State) (op : Nat) (ws : List Nat) (f : State → LedgerRec → State) : State :=
  let o := recBits ws 0 7 0
  if s.nextStarts ws && (o == op || (op == 0 && decide (4 < o))) then s.startRec ws f else s

/-- LEDGER_NOP (R405): the record, as the device reads it. -/
def execLedgerNop (rec : List Word) (s : State) : Host.Outcome State Fault Refusal :=
  .next (s.ledger 0 (recNats rec) fun s r => s.countStart.endRec r 1)

/-- LEDGER_STEP (R405, R406): Lantern queues the step; a keeper completes it with ROLE; a full queue, or a handover, keeps it waiting. -/
def execLedgerStep (rec : List Word) (s : State) : Host.Outcome State Fault Refusal :=
  .next (s.ledger 1 (recNats rec) fun s r =>
    if s.flag Reg.GLB_ROLE_KEEPER then s.countStart.endRec r 0x11
    else if s.stepQueue ≠ [] ∨ s.get Reg.TWN_STATE_STATE = 5 ∨ s.get Reg.TWN_STATE_STATE = 6 then s
    else
      let s := s.countStart.wake
      { s with openRecs := s.openRecs ++ [r], stepQueue := s.stepQueue ++ [⟨r.gen, r.k, r.addr, r.stamp⟩] })

/-- A write of Lantern's, granule by granule: whether a part finds no frame, the bytes written, and the state (R207, R377, R381). -/
def State.lanternWrite : Nat → State → Nat → List Byte → Bool × Nat × State
  | 0, s, _, _ => (false, 0, s)
  | f + 1, s, a, bs =>
    if bs = [] then (false, 0, s)
    else
      let k := 256 - a % 256
      let piece := bs.take k
      let (e, t) := ((s.enterBank a).backInvalidate (granuleOf a) (wholeGranule a piece)).writeIn 3 false a piece
      let t := if e = .poisoned then t.logHostPoison a else t
      let (stuck, n, t) := State.lanternWrite f t (a + k) (bs.drop k)
      (decide (e = .noFrame) || stuck, (if e = .done then piece.length else 0) + n, t)

/-- LEDGER_WRITE (R405): the inline payload at ADDR; where a page finds no frame the record waits (R240). -/
def execLedgerWrite (rec : List Word) (s : State) : Host.Outcome State Fault Refusal :=
  .next (s.ledger 2 (recNats rec) fun s r =>
    let ws := recNats rec
    let data := ((wordsToBytes (ws.drop 8)) ++ zeroBytes 192).take (recBits ws 0 23 16)
    let (stuck, n, t) := State.lanternWrite 3 s r.addr data
    if stuck then s.setFull.waitFrame .ledger else ((t.gotFrame .ledger).count Reg.HST_COPY_IN_COUNT n).countStart.endRec r 1)

/-- The oldest running copy of an operation. -/
def State.runningCopy (s : State) (op : Nat) : Option LedgerRec := s.openRecs.find? fun r => r.op == op

/-- A running copy's record replaced; a finished one ends with OK, or POISON where it met any (R409). -/
def State.putCopy (s : State) (r : LedgerRec) : State :=
  let same := fun (x : LedgerRec) => x.gen == r.gen && x.k == r.k
  if r.bytes ≤ r.copied then
    ({ s with openRecs := s.openRecs.filter fun x => !same x }).endRec r (if r.poison then 0x12 else 1)
  else { s with openRecs := s.openRecs.map fun x => if same x then r else x }

/-- A granule that has a poisoned host line is written poisoned, which is logged as the poison's origin (R386, R409). -/
def State.poisonCopied (s : State) (a : Nat) (bs : List Byte) : WriteEnd × State :=
  let g := granuleOf a
  let t := s.storePoisoned 3 false g (patch (memRead s.mem (256 * g) 256) (a % 256) bs)
  if t.heldSeq ≠ s.heldSeq then (.noFrame, s.setFull)
  else if t.poisoned g then (.done, t.logErr { sev := 1, kind := 2, source := 13, addr := 256 * g, obj := s.objId a })
  else (.dropped, t)

/-- The next piece of a COPY_IN, up to the end of one destination granule, as the host's lines give it (R405, R409). -/
def State.copyInPiece (s : State) (r : LedgerRec) (p : CopyPiece) : State :=
  let a := r.addr + r.copied
  let k := min (256 - a % 256) (r.bytes - r.copied)
  let bs := fitBytes k p.bytes
  let (e, t) := if p.poison then s.poisonCopied a bs
    else ((s.enterBank a).backInvalidate (granuleOf a) (wholeGranule a bs)).writeIn 3 false a bs
  if e = .noFrame then s.setFull.waitFrame .ledger
  else
    let t := t.gotFrame .ledger
    let t := if e = .poisoned then t.logHostPoison a else t
    let t := if e = .done then t.count Reg.HST_COPY_IN_COUNT k else t
    t.putCopy { r with copied := r.copied + k, poison := r.poison || p.poison }

/-- Pieces of the oldest running COPY_IN. -/
def State.copyInPieces (s : State) : List CopyPiece → State
  | [] => s
  | p :: ps =>
    match s.runningCopy 3 with
    | some r => (s.copyInPiece r p).copyInPieces ps
    | none => s

/-- A copy starts. -/
def State.startCopy (s : State) (op : Nat) (ws : List Nat) : State :=
  s.ledger op ws fun s r => { s.countStart with openRecs := s.openRecs ++ [r] }

/-- COPY_IN (R405): a record starts a copy, unless it is empty; then the host's data go to the oldest running COPY_IN. -/
def execCopyIn (rec : List Word) (data : List CopyPiece) (s : State) : Host.Outcome State Fault Refusal :=
  .next ((if rec = [] then s else s.startCopy 3 (recNats rec)).copyInPieces data)

/-- The next line of a COPY_OUT goes to host memory, poison indicated where it meets any (R405, R409). -/
def State.copyOutLine (s : State) (r : LedgerRec) : State :=
  let (bs, bad, s) := s.read (r.addr + r.copied) 64
  let s : State := { s with hostWrites := s.hostWrites ++ [⟨r.haddr + r.copied, bs, bad⟩] }
  (s.count Reg.HST_COPY_OUT_COUNT 64).putCopy { r with copied := r.copied + 64, poison := r.poison || bad }

/-- Lines of the oldest running COPY_OUT. -/
def State.copyOutLines : Nat → State → State
  | 0, s => s
  | n + 1, s =>
    match s.runningCopy 4 with
    | some r => State.copyOutLines n (s.copyOutLine r)
    | none => s

/-- COPY_OUT (R405): a record starts a copy, unless it is empty; then `n` lines of the oldest running COPY_OUT are written. -/
def execCopyOut (rec : List Word) (n : BitVec 16) (s : State) : Host.Outcome State Fault Refusal :=
  .next (State.copyOutLines n.toNat (if rec = [] then s else s.startCopy 4 (recNats rec)))

/-- A record completes (R407): its post, if it ended OK, then its completion behind those held. -/
def State.completeRec (s : State) (r : LedgerRec) (rs : List LedgerRec) : State :=
  let s := { s with endedRecs := rs }
  let s := if r.post && r.status == 1 then s.postSig r.sig r.set r.value else s
  { s with
    heldCmpl := s.heldCmpl ++ [⟨r, s.get Reg.ERR_STATUS_WRITTEN⟩]
    ledgerBad := s.ledgerBad || (r.status != 1 && r.gen == s.attachments) }

/-- RECORD_COMPLETE (R407): the first record whose operation has ended completes, and what may be written is. -/
def execRecordComplete (s : State) : Host.Outcome State Fault Refusal :=
  .next (match s.endedRecs with
    | [] => s.flushCmpl
    | r :: rs => (s.completeRec r rs).flushCmpl)

/-- DOORBELL_WAKE (R402, R403): the device reads the doorbell line again. -/
def execDoorbellWake (tail head : Word) (s : State) : Host.Outcome State Fault Refusal :=
  .next (
    if s.linkUp && s.get Reg.MBX_CTL_STATE == 3 then
      ({ s with ledgerTail := tail.toNat, cmplHead := head.toNat }).flushCmpl
    else s)

/-! ## Ingest (R410 to R412) -/

/-- The lowest-numbered valid landing region that contains an extent (R411). -/
def State.landRegion (s : State) (a n : Nat) : Option Nat :=
  firstBelow 16 fun i =>
    let b := s.get (Reg.HST_LANDi_BASE_ADDR i) / 2 ^ 21 * 2 ^ 21
    s.flag (Reg.HST_LANDi_CFG_VALID i) && decide (b ≤ a) && decide (a + n ≤ b + 2 ^ 21 * s.get (Reg.HST_LANDi_CFG_PAGES i))

/-- The region that permits a UIO request, in DIRECT mode (R410, R411). -/
def State.uioRegion (s : State) (wr : Bool) (a n : Nat) : Option Nat :=
  if s.flag Reg.HST_CFG_INGEST_MODE then
    (s.landRegion a n).bind fun i =>
      if s.flag (if wr then Reg.HST_LANDi_CFG_WR i else Reg.HST_LANDi_CFG_RD i) then some i else none
  else none

/-- The granules of an extent that claims hold back. -/
def State.claimedIn (s : State) (a n : Nat) : List Nat :=
  ((List.range (n / 256 + 2)).map fun i => a / 256 * 256 + 256 * i).filter fun g => decide (g < a + n) && s.claimed none g

/-- An access of several granules waits for the claims that hold them back. -/
def State.noteAll (s : State) (gs : List Nat) : State := gs.foldl (fun s g => s.noteWaiting none g) s

/-- A host-side write of any length, each line merged as a host line write is (R411). -/
def State.hostMerges : Nat → State → Nat → List Byte → State
  | 0, s, _, _ => s
  | f + 1, s, a, bs =>
    let k := 64 - a % 64
    if bs = [] then s else State.hostMerges f (s.hostMerge a (bs.take k)) (a + k) (bs.drop k)

/-- A region's bytes are counted, and a post made for each multiple of 2^NOTIFY_LOG2 that the count crosses (R412). -/
def State.countLanded (s : State) (i n : Nat) : State :=
  let c := s.get (Reg.HST_LANDi_COUNT_BYTES i)
  let m := 2 ^ s.get (Reg.HST_LANDi_CFG_NOTIFY_LOG2 i)
  let s := s.count (Reg.HST_LANDi_COUNT_BYTES i) n
  (List.range ((c + n) / m - c / m)).foldl (fun s _ => s.postSig (s.get (Reg.HST_LANDi_CFG_SIG i)) false 1) s

/-- UIO_WRITE (R410 to R412): a permitted write is merged as a host line write is, and counted once it is visible; any other is dropped and
counted as a violation. -/
def execUioWrite (addr : BitVec 48) (data : List Byte) (s : State) : Host.Outcome State Fault Refusal :=
  let a := addr.toNat
  .next (
    if !s.linkUp || !s.memActive then s
    else match s.uioRegion true a data.length with
      | none => s.violGlb 0 0 a
      | some i =>
        if s.claimedIn a data.length ≠ [] then s.noteAll (s.claimedIn a data.length)
        else
          let t := State.hostMerges (data.length / 64 + 2) s.wakeKeep a data
          t.endWork (t.heldSince s.heldSeq) (.landed i data.length) (t.countLanded i data.length))

/-- A host-side read of any length. -/
def State.hostReads : Nat → State → Nat → Nat → List Byte × Bool × State
  | 0, s, _, _ => ([], false, s)
  | f + 1, s, a, n =>
    if n = 0 then ([], false, s)
    else
      let k := min n (256 - a % 256)
      let (b, p, s) := s.readAs 0 a k
      let s := if p then s.logHostPoison a else s
      let (bs, ps, s) := State.hostReads f s (a + k) (n - k)
      (b ++ bs, p || ps, s)

/-- UIO_READ (R410, R411): a permitted read returns data, any other zero; in BOUNCE mode that is a violation, which is counted. -/
def execUioRead (addr : BitVec 48) (len : BitVec 16) (s : State) : Host.Outcome State Fault Refusal :=
  let a := addr.toNat
  let n := len.toNat
  .next (
    if !s.linkUp then s
    else if !s.memActive then s.reply (zeroBytes n) false
    else match s.uioRegion false a n with
      | none => (if s.flag Reg.HST_CFG_INGEST_MODE then s else s.violGlb 0 0 a).reply (zeroBytes n) false
      | some _ =>
        if s.claimedIn a n ≠ [] then s.noteAll (s.claimedIn a n)
        else
          let (bs, bad, s) := State.hostReads (n / 256 + 2) s.wakeKeep a n
          s.reply bs bad)

/-! ## The mailbox's commands (R413 to R415) -/

/-- Every command code of the mailbox (R414). -/
def mbxCodes : List Nat := [1, 2, 3, 0x10, 0x11, 0x20, 0x21, 0x22, 0x30, 0x41]

/-- STATUS (R414), and the answer to a code that names no command (R413). -/
def execStatus (s : State) : Host.Outcome State Fault Refusal :=
  .next (
    if s.flag Reg.MBX_CTL_REQ && !mbxCodes.contains s.mbxCmd then s.respond 1 []
    else s.mailbox 1 [1, 2, 3, 4] fun s =>
      s.respond 0 [s.get Reg.MBX_CTL_STATE, s.readReg 0x10, s.readReg 0x3C00008, s.readReg 0x3C00020, s.readReg 0x6800000])

/-- The operands of ATTACH break R415. -/
def State.attachBad (s : State) : Bool :=
  s.mbxWord 1 % 4096 != 0 || s.mbxWord 2 % 4096 != 0 || s.mbxWord 3 % 64 != 0 ||
  decide (16 < bits (s.mbxWord 4) 4 0) || decide (16 < bits (s.mbxWord 4) 12 8)

/-- ATTACH takes effect in the order of R415; `tail` and `head` are what the doorbell line holds. -/
def State.attach (s : State) (tail head : Nat) : State :=
  let before := s.get Reg.MBX_CTL_STATE
  let prev := s.started
  let s := ({ s.gotFrame .ledger with attachments := s.attachments + 1 }).puts
    [(Reg.HST_LINK_ATTACH_GEN, s.attachments + 1), (Reg.HST_LEDGER_POS_STARTED, 0),
     (Reg.HST_LEDGER_BASE_ADDR, s.mbxWord 1), (Reg.HST_LEDGER_BASE_LOG2, bits (s.mbxWord 4) 4 0),
     (Reg.HST_CMPL_BASE_ADDR, s.mbxWord 2), (Reg.HST_CMPL_BASE_LOG2, bits (s.mbxWord 4) 12 8),
     (Reg.HST_DOORBELL_ADDR, s.mbxWord 3), (Reg.MBX_CTL_STATE, 3)]
  let s := { s with started := 0, cmplCount := 0, ledgerTail := tail, cmplHead := head, ledgerBad := false }
  (s.respond 0 [before, prev, s.heldCmpl.length, s.readReg 0x3C00020]).flushCmpl

/-- ATTACH (R415). -/
def execAttach (tail head : Word) (s : State) : Host.Outcome State Fault Refusal :=
  .next (s.mailbox 2 [2, 4] fun s => if s.attachBad then s.respond 3 [] else s.attach tail.toNat head.toNat)

/-- DETACH (R414): no further record starts; the response comes once every completion is written. -/
def execDetach (s : State) : Host.Outcome State Fault Refusal :=
  .next (s.mailbox 3 [3] fun s => ({ if (s.runningCopy 3).isNone then s.gotFrame .ledger else s with detaching := true }).flushCmpl)

/-- SELFTEST (R414): `failed` are the chambers whose built-in test fails; the enabled ones among them are returned. -/
def execSelftest (failed : BitVec 28) (s : State) : Host.Outcome State Fault Refusal :=
  .next (s.mailbox 0x10 [2] fun s => s.respond 0 [failed.toNat &&& s.get Reg.GLB_CHMAP_ENABLED])

/-- RETIRE (R67, R414). -/
def execRetire (s : State) : Host.Outcome State Fault Refusal :=
  .next (s.mailbox 0x11 [2, 3, 4] fun s =>
    let n := s.mbxWord 1 % 32
    if n < 28 ∧ bit (s.get Reg.GLB_CHMAP_ENABLED) n then (s.put (Reg.CHn_STATUS_RETIRE_PENDING n) 1).respond 0 []
    else s.respond 3 [])

end Sys2Proof.Machine
end

