-- ==== Sys2Proof/Machine/Twin.lean ====
section
/-! DEFINITION. The twin engine: pairing, mirroring, marks, heartbeats, takeover, handover and resynchronisation (R477 to R483). -/

namespace Sys2Proof.Machine

open Sys2Proof

/-! ## The state of the side (R481, R484) -/

/-- TWN_STATE.STATE as the device holds it. -/
def State.twinState (s : State) : Nat := s.get Reg.TWN_STATE_STATE

/-- TWN_STATE.STATE changes, and SVC_EVENT.TWIN with it (R484). -/
def State.setTwin (s : State) (st : Nat) : State :=
  if s.twinState = st then s else (s.put Reg.TWN_STATE_STATE st).panelEvent Reg.SVC_EVENT_TWIN 0

/-- Every running chamber is stopped. -/
def State.stopAll (s : State) : State :=
  (List.range 28).foldl (fun s n =>
    if s.chState n = 2 ∨ s.chState n = 3 then s.ctlArrives n 3 (s.get (Reg.CHn_CTL_START_PC n)) false false true false none else s) s

/-- Ports go down to OFF (R481, R482). -/
def State.portsDown (s : State) (ports : List Nat) : State :=
  ports.foldl (fun s n => if s.get (Reg.HGPn_STATUS_STATE n) = 0 then s else s.portDown n 0) s

/-- A step that waits in COMMIT for its mark's acknowledgement. -/
def State.waitingStep (s : State) : Option Step :=
  match s.trv with
  | some t => if s.get Reg.TRV_STATE_STATE = 4 ∧ t.mark.isSome then some t else none
  | none => none

/-- The side enters FENCED (R481): chambers stop, ports but HGP7 go down, and nothing commits. -/
def State.enterFenced (s : State) : State :=
  let s := { s with mirrorQ := [], takeoverDue := none }
  let s := ((s.setTwin 7).stopAll).portsDown (List.range 7)
  match s.waitingStep with
  | some t => (s.releaseAll t.plan).endFailed t.req ⟨4, 4, 0, none⟩
  | none => s

/-- The side is part of a twin. -/
def State.isTwin (s : State) : Bool := s.flag Reg.GLB_ROLE_TWIN

/-! ## Pairing (R351, R431, R477) -/

/-- HGP7 is up, and the partner named by the image is at its other end (R351). -/
def State.partnerThere (s : State) : Bool := s.portUp 7 && s.get (Reg.HGPn_STATUS_PEER_NODE 7) == s.get Reg.TWN_CFG_PARTNER

/-- Two windows, in GiB, share no address. -/
def disjointWindows (b n c m : Nat) : Bool := decide (b + n ≤ c) || decide (c + m ≤ b) || n == 0 || m == 0

/-- The node this side carries as itself: a surviving side 1 answers as k until the resync ends (R481, R483). -/
def State.sideNode (s : State) : Nat :=
  let n := s.get Reg.HGP0_NODE_NODE
  if s.flag Reg.GLB_ROLE_ALONE then n % 128 + 128 * s.get Reg.GLB_ROLE_SIDE else n

/-- The nodes of the two sides are k and k + 128, by side, and the partner is the one the image names (R477). -/
def State.nodesFit (s : State) (p : Partner) : Bool :=
  let n := s.sideNode
  n / 128 == s.get Reg.GLB_ROLE_SIDE && p.node.toNat == s.get Reg.TWN_CFG_PARTNER && p.node.toNat % 128 == n % 128 && p.node.toNat != n

/-- The windows obey R477. -/
def State.windowsFit (s : State) (p : Partner) : Bool :=
  let ob := s.get Reg.TWN_WIN_OWN_BASE
  let on := s.get Reg.TWN_WIN_OWN_GIB
  let pb := s.get Reg.TWN_WIN_PEER_BASE
  let pn := s.get Reg.TWN_WIN_PEER_GIB
  disjointWindows ob on pb pn && p.peerBase.toNat == ob && p.peerGib.toNat == on && p.ownBase.toNat == pb && p.ownGib.toNat == pn

/-- The check of R477, with TWIN_CUR and TWIN_MIN of both images (R431). -/
def State.pairFits (s : State) (p : Partner) : Bool :=
  s.nodesFit p && s.windowsFit p && decide (p.min.toNat ≤ s.booted.twinCur) && decide (s.booted.twinMin ≤ p.cur.toNat)

/-- The side has booted and waits to pair, its partner in reach. -/
def State.mayPair (s : State) : Bool :=
  s.isTwin && !s.held && s.twinState == 1 && decide (2 ≤ s.get Reg.MBX_CTL_STATE) && s.partnerThere && !s.flag Reg.TWN_STATE_MISMATCH

/-- TWIN_PAIRING (R477): a side in PAIRING meets a partner that is not ALONE; a pair that breaks the rule stays in PAIRING. -/
def execTwinPairing (p : Partner) (s : State) : Host.Outcome State Fault Refusal :=
  .next (
    if !s.mayPair then s
    else if !s.pairFits p then s.put Reg.TWN_STATE_MISMATCH 1
    else if p.state = 1 ∨ p.state = 2 then { s.setTwin 2 with hbSeenAt := s.cycle } else s)

/-! ## Mirroring and marks (R478 to R480) -/

/-- A message to the partner. -/
def State.tell (s : State) (m : TwinMsg) : State := { s with twinSent := s.twinSent ++ [m] }

/-- One copy fewer goes ahead of a mark. -/
def markDown (m : Option Nat) : Option Nat := m.map (· - 1)

/-- A mark whose last copy has been sent goes out. -/
def State.tellMark (s : State) (m : Option Nat) (stamp : Nat) : State := if m = some 1 then s.tell (.mark stamp) else s

/-- Every mark has one copy fewer ahead of it. -/
def State.advanceMarks (s : State) : State :=
  let s := match s.trv with
    | some t => ({ s with trv := some { t with mark := markDown t.mark } }).tellMark t.mark t.req.stamp
    | none => s
  match s.kpr with
  | some k => ({ s with kpr := some { k with mark := markDown k.mark } }).tellMark k.mark k.sends
  | none => s

/-- A granule's mirror copy: a WRITE to the same address of the partner in CC3 with recipe 0, poison with it (R478). -/
def State.mirrorPacket (s : State) (g : Nat) : Packet :=
  { Packet.blank .write with
    vl := 3, recipe := 0, src := s.get Reg.HGP0_NODE_NODE, dst := s.get Reg.TWN_CFG_PARTNER, addr := 256 * g
    xfer := s.xferSeq % 2 ^ 24, ngran := 1, data := [memRead s.mem (256 * g) 256], poison := b2n (s.poisoned g) }

/-- Bytes sent by mirroring and resync are counted in GiB (R484). -/
def State.countMirror (s : State) (n : Nat) : State :=
  let b := s.mirrorBytes + n
  ({ s with mirrorBytes := b % 2 ^ 30 }).count Reg.TWN_COUNT_MIRROR_GIB (b / 2 ^ 30)

/-- GiB of a resync still to copy (R484), rounded up. -/
def State.resyncLeft (s : State) : State :=
  if s.twinState = 4 then s.put Reg.TWN_PEER_RESYNC_LEFT (cdiv (256 * s.mirrorQ.length) (2 ^ 30)) else s

/-- The twin engine sends copies: PAIRED, handing over, or the survivor in RESYNC (R478, R482, R483). -/
def State.copies (s : State) : Bool :=
  s.isTwin && (s.twinState == 2 || s.twinState == 5 || (s.twinState == 4 && s.flag Reg.GLB_ROLE_ALONE))

/-- The ports of mirror copies: HGP7 while it is up, else the route to the partner (R336, R351). -/
def State.mirrorPorts (s : State) (k : Packet) : List Nat := if s.portUp 7 then [7] else s.portsFor k

/-- MIRROR_COPY (R478): the oldest write waiting to be copied goes to the partner. -/
def execMirrorCopy (s : State) : Host.Outcome State Fault Refusal :=
  .next (
    if s.held || !s.copies then s
    else match s.mirrorQ with
      | [] => s
      | g :: gs =>
        let k := s.mirrorPacket g
        let s := { s with mirrorQ := gs, xferSeq := (s.xferSeq + 1) % 2 ^ 24 }
        ((s.sendOver (s.mirrorPorts k) k none).countMirror 256).advanceMarks.resyncLeft)

/-- MARK_RECEIVE (R480, R482): every mirror write ahead of the mark is visible here; the stamp is recorded and acknowledged. A final
mark asks this side to take over. -/
def execMarkReceive (stamp : BitVec 32) (handover : Bool) (s : State) : Host.Outcome State Fault Refusal :=
  .next (
    if s.held || !s.isTwin || s.twinState != 2 || s.heldWrites.any (fun h => h.twin) then s
    else if handover then { s.tell (.ack (s.get Reg.TWN_PEER_PEER_COMMIT)) with takeoverDue := some 2 }
    else (s.put Reg.TWN_PEER_PEER_COMMIT stamp.toNat).tell (.ack stamp.toNat))

/-- The keeper's publication that waits posts VERSIG (R480). -/
def State.postWaiting (s : State) : State :=
  match s.kpr with
  | some k => if k.mark.isSome then s.kprPost false k else s
  | none => s

/-- A mark of this side has been sent and awaits its acknowledgement. -/
def State.markOut (s : State) : Bool :=
  ((s.waitingStep.map fun t => t.mark == some 0).getD false) || ((s.kpr.map fun k => k.mark == some 0).getD false)

/-- COMMIT_ACK (R480): the acknowledgement of the mark commits the step, or lets the keeper post its version. -/
def execCommitAck (s : State) : Host.Outcome State Fault Refusal :=
  .next (
    if s.held || !s.twinCommits || !s.markOut then s
    else match s.waitingStep with
      | some t => s.commitStep t
      | none => s.postWaiting)

/-! ## Heartbeats (R481, R483) -/

/-- HEARTBEAT_SEND (R481): once HB_US have passed since the last one; every side that holds or has held a pair sends them. -/
def execHeartbeatSend (s : State) : Host.Outcome State Fault Refusal :=
  let due := match s.hbSentAt with
    | some t => decide (s.get Reg.TWN_CFG_HB_US * 1700 ≤ s.cycle - t)
    | none => true
  .next (
    if s.isTwin && !s.held && due && [2, 3, 4, 5, 7].contains s.twinState then
      { s.tell (.heartbeat s.twinState) with hbSentAt := some s.cycle }
    else s)

/-- The side loses its partner while in RESYNC: a survivor stays ALONE, a newcomer is FENCED (R483). -/
def State.endResync (s : State) : State :=
  if s.flag Reg.GLB_ROLE_ALONE then ({ s with mirrorQ := [] }).setTwin 3 else s.enterFenced

/-- HEARTBEAT_RECEIVE (R481, R483): the partner's TWN_STATE. -/
def execHeartbeatReceive (st : BitVec 3) (s : State) : Host.Outcome State Fault Refusal :=
  .next (
    if !s.isTwin || s.held then s
    else
      let s := { s with hbSeenAt := s.cycle }
      if s.twinState = 2 ∨ s.twinState = 5 then
        if st = 7 then { s with takeoverDue := some (s.takeoverDue.getD 3) } else if st = 3 then s.enterFenced else s
      else if s.twinState = 4 ∧ st = 7 then s.endResync else s)

/-- A port other than HGP7 is up. -/
def State.otherPortUp (s : State) : Bool := (List.range 7).any s.portUp

/-- HEARTBEAT_TIMEOUT (R481, R483): none has been heard for DETECT_MS. -/
def execHeartbeatTimeout (s : State) : Host.Outcome State Fault Refusal :=
  .next (
    if !s.isTwin || s.held || decide (s.cycle - s.hbSeenAt < msCycles (s.get Reg.TWN_CFG_DETECT_MS)) then s
    else if s.twinState = 2 ∨ s.twinState = 5 then
      if s.otherPortUp then { s with takeoverDue := some (s.takeoverDue.getD 1) } else s.enterFenced
    else if s.twinState = 4 then s.endResync else s)

/-! ## Takeover (R21, R319, R447, R481) -/

/-- The fields that a twin-takeover reset writes, in one cycle (R447). -/
def State.takeoverReset (s : State) : State :=
  let k := s.get Reg.HGP0_NODE_NODE % 128
  let s := s.puts [(Reg.GLB_ROLE_ALONE, 1), (Reg.HGP0_NODE_ALIAS, k + 128)]
  let s := if s.flag Reg.GLB_ROLE_SIDE then s.put Reg.HGP0_NODE_NODE k else s
  if s.flag Reg.GLB_ROLE_KEEPER then s.put Reg.GLB_KPR_STATE_PARTNER 1 else s

/-- The partner's table that the service record at address `a` names; a record that is not in RUN, or whose table breaks R314,
resumes none; STAMP0 and VERSION come from the record (R319). -/
def State.resumeTable (s : State) (a : Nat) : State :=
  let (bs, bad, s) := s.read a 24
  if bad || wordAt bs 2 % 4 != 2 then s
  else
    let (k, poisoned, s) := s.readKeeper (wordAt bs 0 % 2 ^ 48 / 64 * 64) (wordAt bs 1 % 2 ^ 32) .weight
    if poisoned || !k.ok then s else { s with kprPeer := some { k with stamp0 := wordAt bs 1 / 2 ^ 32 } }

/-- A surviving keeper resumes its partner's table from the service record at the base of its peer window, with a WEIGHT pass over
each worker (R319). -/
def State.takePartnerTable (s : State) : State :=
  if s.flag Reg.GLB_ROLE_KEEPER then s.resumeTable (s.get Reg.TWN_WIN_PEER_BASE * 2 ^ 30) else s

/-- The survivor takes over, in the order of R481. -/
def State.takeOver (s : State) (cause : Nat) : State :=
  let s := ({ s with mirrorQ := [], takeoverDue := none }).takeoverReset.takePartnerTable.setTwin 3
  let s := (s.put Reg.TWN_STATE_CAUSE cause).count Reg.TWN_COUNT_TAKEOVERS 1
  let s := match s.waitingStep with
    | some t => s.commitStep t
    | none => s
  s.postWaiting.logErr { sev := 3, kind := 9, source := 12, stamp := s.get Reg.TWN_PEER_PEER_COMMIT }

/-- TWIN_TAKEOVER (R461, R481): a takeover that has been decided is carried out; in Hold it waits for resume. -/
def execTwinTakeover (s : State) : Host.Outcome State Fault Refusal :=
  .next (match s.takeoverDue with
    | none => s
    | some c => if s.held then { s with takeoverDue := none, deferred := s.deferred ++ [.takeover c] } else s.takeOver c)

/-! ## Handover (R482) -/

/-- No step runs and no keeper update is short of its VERSIG post. -/
def State.sideQuiet (s : State) : Bool :=
  s.get Reg.TRV_STATE_STATE == 0 && (s.kpr.map fun k => k.mark.isNone && k.workers.all fun w => w.stage == 0).getD true

/-- HANDOVER_MARK (R482): the running step has ended, and the final mark goes behind every mirror copy. -/
def execHandoverMark (s : State) : Host.Outcome State Fault Refusal :=
  .next (
    if s.twinState = 5 ∧ !s.handMark ∧ !s.held ∧ s.sideQuiet ∧ s.mirrorQ = [] then { s.tell .handover with handMark := true } else s)

/-- HANDOVER_COMPLETE (R482): the partner has acknowledged the final mark. -/
def execHandoverComplete (s : State) : Host.Outcome State Fault Refusal :=
  .next (
    if s.twinState = 5 ∧ s.handMark ∧ !s.held then
      (({ s with handMark := false, handPress := none }).setTwin 6).portsDown (List.range 8)
    else s)

/-! ## Resynchronisation (R483) -/

/-- Granules of both windows whose Z bit is 0, in address order. -/
def State.resyncGranules (s : State) : List Nat :=
  (s.nonzero.map (·.1)).filter fun g => s.populated (256 * g) && (s.inOwnWindow (256 * g) || s.inPeerWindow (256 * g))

/-- The side may join a resync with a partner in a state: a survivor with one in PAIRING, a newcomer with a survivor, each in RESYNC if
the other was first. -/
def State.mayResync (s : State) (p : Partner) : Bool :=
  s.isTwin && !s.held && s.partnerThere && !s.flag Reg.TWN_STATE_MISMATCH &&
  ((s.twinState == 3 && (p.state == 1 || p.state == 4)) || (s.mayPair && (p.state == 3 || p.state == 4)))

/-- RESYNC_START (R483): both sides enter RESYNC once R477 holds, and the survivor queues every granule to copy. -/
def execResyncStart (p : Partner) (s : State) : Host.Outcome State Fault Refusal :=
  .next (
    if !s.mayResync p then s
    else if !s.pairFits p then s.put Reg.TWN_STATE_MISMATCH 1
    else
      let s := { s.setTwin 4 with hbSeenAt := s.cycle }
      if s.flag Reg.GLB_ROLE_ALONE then ({ s with mirrorQ := s.resyncGranules }).resyncLeft else s)

/-- RESYNC_FINISH (R483): the copy has caught up and the survivor is quiet: the alias, a side-1 NODE, ALONE and PARTNER are restored and
the pair is formed; the newcomer follows. -/
def execResyncFinish (s : State) : Host.Outcome State Fault Refusal :=
  .next (
    if s.twinState ≠ 4 ∨ s.held then s
    else if s.flag Reg.GLB_ROLE_ALONE then
      if s.mirrorQ = [] ∧ s.get Reg.TRV_STATE_STATE = 0 ∧ !s.kprJobRuns then
        let n := s.sideNode
        let s := { s with kprPeer := none }
        let s := s.puts [(Reg.HGP0_NODE_ALIAS, 0), (Reg.HGP0_NODE_NODE, n), (Reg.GLB_ROLE_ALONE, 0), (Reg.GLB_KPR_STATE_PARTNER, 0),
          (Reg.TWN_PEER_RESYNC_LEFT, 0)]
        { (s.setTwin 2).tell .paired with hbSeenAt := s.cycle }
      else s
    else { s.setTwin 2 with hbSeenAt := s.cycle })

end Sys2Proof.Machine
end

