-- ==== Sys2Proof/Machine/Retire.lean ====
section
/-! DEFINITION. Retirement: a spare chamber takes the place of one that is to be retired, on a worker and on a keeper (R67 to R71). -/

namespace Sys2Proof.Machine

open Sys2Proof

/-! ## Fuses -/

/-- A fuse-backed field takes a value that a cold start loads again (R20, R68). -/
def State.blow (s : State) (f : FieldRef) (v : Nat) : State :=
  { s.put f v with straps := mapSet 0 s.straps f.key (v % 2 ^ f.w) }

/-- A bit of a map of chambers set. -/
def withBit (m n : Nat) : Nat := if bit m n then m else m + 2 ^ n

/-- A bit of a map of chambers cleared. -/
def withoutBit (m n : Nat) : Nat := if bit m n then m - 2 ^ n else m

/-- A chamber's retirement fuse is programmed: it is enabled no more, and OFF after every reset (R20, R66). -/
def State.fuseRetired (s : State) (n : Nat) : State :=
  ((s.blow (Reg.CHn_STATUS_STATE n) 0).blow Reg.GLB_CHMAP_ENABLED (withoutBit (s.get Reg.GLB_CHMAP_ENABLED) n)).blow Reg.GLB_CHMAP_RETIRED
    (withBit (s.get Reg.GLB_CHMAP_RETIRED) n)

/-- The error-log entry of a retirement (R68). -/
def State.logRetired (s : State) (n : Nat) : State := s.logErr { sev := 0, kind := 12, source := 14, unit := n }

/-! ## Spares (R68, R71) -/

/-- Spares, lowest first: built, neither enabled nor retired. -/
def State.spares (s : State) : List Nat :=
  (List.range 28).filter fun p => !bit (s.get Reg.GLB_CHMAP_ENABLED) p && !bit (s.get Reg.GLB_CHMAP_RETIRED) p

/-- Enabled chambers of a keeper that stand in for its chamber in service, lowest first. -/
def State.gated (s : State) (n : Nat) : List Nat :=
  (List.range 28).filter fun p => bit (s.get Reg.GLB_CHMAP_ENABLED) p && p != n

/-- Candidates before the first that passes its test, and that one. -/
def testCandidates (failed : BitVec 28) : List Nat → List Nat × Option Nat
  | [] => ([], none)
  | p :: ps =>
    if bit failed.toNat p then
      let (bad, ok) := testCandidates failed ps
      (p :: bad, ok)
    else ([], some p)

/-- The region table of a chamber copied to another. -/
def State.copyRegions (s : State) (n p : Nat) : State :=
  let lo := (chBlock n + 0x1000) * 64
  let hi := (chBlock n + 0x2000) * 64
  let moved := (s.fields.filter fun e => decide (lo ≤ e.1) && decide (e.1 < hi)).map fun e => (e.1 - chBlock n * 64 + chBlock p * 64, e.2)
  moved.foldl (fun s e => { s with fields := mapInsert s.fields e.1 e.2 }) s

/-- A chamber takes the place of another: fuses, LOGICAL, region table, memories cleared; the old one is gated (R68). -/
def State.replaceChamber (s : State) (n p : Nat) : State :=
  let rset := (s.ch n).rset
  let logical := s.get (Reg.CHn_STATUS_LOGICAL n)
  let s := s.fuseRetired n
  let s := s.blow Reg.GLB_CHMAP_ENABLED (withBit (s.get Reg.GLB_CHMAP_ENABLED) p)
  let s := (s.resetRange .chamber (chBlock p) (chBlock p + 0x100000)).copyRegions n p
  let s := (s.setCh p { Chamber.reset with cycBase := s.aclk, rset := rset }).setCh n Chamber.reset
  let s := (s.blow (Reg.CHn_STATUS_LOGICAL p) logical).blow (Reg.CHn_STATUS_LOGICAL n) 0x1F
  ((s.blow (Reg.CHn_STATUS_STATE p) 1).blow (Reg.CHn_STATUS_STATE n) 0).put (Reg.CHn_STATUS_RETIRE_PENDING n) 1

/-- No chamber is left to take the place (R70): one that still runs is kept in service; after HWFAULT the device declares itself failed. R70
speaks of a worker; a keeper with no chamber left does the same (log entry 77). -/
def State.noneLeft (s : State) (n : Nat) : State :=
  if s.awakeState n = 4 ∧ s.get (Reg.CHn_HALT_CAUSE n) = 9 then
    let s := { s with devFailed := true }.logErr { sev := 3, kind := 12, source := 14, unit := n }
    if s.isTwin && s.twinState != 0 then s.enterFenced else s
  else { s with keptNoSpare := true }

/-- A chamber is retired with the first of the candidates that passes its test (R68, R70). -/
def State.retireWith (s : State) (failed : BitVec 28) (n : Nat) (cands : List Nat) : State :=
  let (bad, ok) := testCandidates failed cands
  let s := bad.foldl State.fuseRetired s
  match ok with
  | some p => bad.foldl State.logRetired ((s.replaceChamber n p).logRetired n)
  | none => bad.foldl State.logRetired (s.noneLeft n)

/-- CHAMBER_RETIREMENT (R68): at a step boundary of a worker the lowest pending chamber is retired; `failed` are the chambers whose
built-in test fails. -/
def execChamberRetirement (failed : BitVec 28) (s : State) : Host.Outcome State Fault Refusal :=
  .next (
    if s.flag Reg.GLB_ROLE_KEEPER || s.stepRuns || s.held || s.devFailed then s
    else match (List.range 28).find? s.toRetire with
      | none => s
      | some n => s.retireWith failed n s.spares)

/-- An update job of the keeper service is on a chamber. -/
def Keeper.usesChamber (k : Keeper) (n : Nat) : Bool := k.workers.any fun w => w.stage == 2 && w.chamber == some n

/-- KEEPER_CHAMBER_RETIREMENT (R71): the chamber in service is retired once no update job is on it; enabled chambers come before spares. -/
def execKeeperChamberRetirement (failed : BitVec 28) (s : State) : Host.Outcome State Fault Refusal :=
  .next (match s.kprChamber with
    | none => s
    | some n =>
      let busy := ((s.kpr.map fun k => k.usesChamber n).getD false) || ((s.kprPeer.map fun k => k.usesChamber n).getD false)
      if s.flag Reg.GLB_ROLE_KEEPER && !s.held && !s.devFailed && s.toRetire n && !busy then
        s.retireWith failed n (s.gated n ++ s.spares)
      else s)

end Sys2Proof.Machine
end

