-- ==== Sys2Proof/Machine/Service.lean ====
section
/-! DEFINITION. The service panel: buttons, latches, adding and removing a cartridge, and the device button (R467 to R476). -/

namespace Sys2Proof.Machine

open Sys2Proof

/-! ## The panel -/

/-- The boot has come past step 8, so cartridges are added and drained (R431, R474). -/
def State.inService (s : State) : Bool := decide (2 ≤ s.get Reg.MBX_CTL_STATE)

/-- Five seconds in ACLK cycles (R471, R475). -/
def fiveSeconds : Nat := msCycles 5000

/-- A time lies within five seconds before now. -/
def State.recent (s : State) (t : Option Nat) : Bool :=
  match t with
  | some c => decide (s.cycle - c ≤ fiveSeconds)
  | none => false

/-- A slot's attention LED shows CODE c (R468, R469). -/
def State.showSlotCode (s : State) (m c : Nat) : State := { s with slotCode := mapSet 0 s.slotCode m c }

/-! ## Adding (R473, R474) -/

/-- A cartridge reset (R446, R447, R450): the BMCm_ fields return to their Reset values and the slot's mover arbiter is cleared. -/
def State.resetCartridge (s : State) (m : Nat) : State :=
  ((s.setSlot m 0).resetRange .cartridge (0x5800000 + 0x40000 * m) (0x5840000 + 0x40000 * m)).clearArb (104 + m)

/-- An add begins: the slot is powered and becomes ADDING (R473). -/
def State.beginAdd (s : State) (m : Nat) : State := s.setSlot m 2

/-- A latch closes on a cartridge: a cartridge reset, then PRESENT, then an add (R473). -/
def State.closeOn (s : State) (m : Nat) : State :=
  ((((s.resetCartridge m).put (Reg.SVC_SLOTm_ADD_FAIL m) 0).setSlot m 1)).beginAdd m

/-- LATCH_CLOSE (R473): in Hold the reset and the add wait for resume (R461, R474). -/
def execLatchClose (m : Fin 6) (s : State) : Host.Outcome State Fault Refusal :=
  let m := m.val
  .next (
    if s.flag (Reg.SVC_SLOTm_LATCH m) then s
    else
      let s := (s.put (Reg.SVC_SLOTm_LATCH m) 1).panelEvent Reg.SVC_EVENT_SLOT_LATCH m
      let s := s.wake
      if s.flag (Reg.SVC_SLOTm_PRESENT m) && s.inService then
        (if s.held then { s with deferred := s.deferred ++ [.latchClose m] } else s.closeOn m)
      else s)

/-- CARTRIDGE_INSERTED (R467). -/
def execCartridgeInserted (m : Fin 6) (s : State) : Host.Outcome State Fault Refusal :=
  .next (s.put (Reg.SVC_SLOTm_PRESENT m.val) 1)

/-- CARTRIDGE_ADD_COMPLETE (R261, R473): `c128` is the kind that the EEPROM names. Adds pause in Hold (R474). -/
def execCartridgeAddComplete (m : Fin 6) (c128 : Bool) (s : State) : Host.Outcome State Fault Refusal :=
  let m := m.val
  .next (
    if s.held || s.slotState m != 2 then s
    else
      let s := s.puts [(Reg.BMCm_STATE_KIND m, b2n c128), (Reg.SVC_SLOTm_ADD_FAIL m, 0)]
      ((s.setSlot m 3).put (Reg.BMCm_STATE_CHANNELS m) 8).settle)

/-- CARTRIDGE_ADD_FAIL (R474): the cause is coded from EEPROM (0) to test (3), one less than in SVC_SLOTm.ADD_FAIL. -/
def execCartridgeAddFail (m : Fin 6) (cause : Fin 4) (s : State) : Host.Outcome State Fault Refusal :=
  let m := m.val
  .next (if s.held || s.slotState m != 2 then s else (s.put (Reg.SVC_SLOTm_ADD_FAIL m) (cause.val + 1)).setSlot m 1)

/-! ## Removing (R472) -/

/-- A cartridge leaves, or its latch opens (R472): a slot in service or draining fails at once; any other that holds one is reset and
becomes EMPTY, at resume if in Hold (R461). -/
def State.openOn (s : State) (m : Nat) (d : Deferred) : State :=
  if s.slotState m = 3 ∨ s.slotState m = 4 then s.loseCartridge m
  else if s.slotState m = 0 then s
  else if s.held then { s with deferred := s.deferred ++ [d] }
  else (s.resetCartridge m).put (Reg.SVC_SLOTm_ADD_FAIL m) 0

/-- LATCH_OPEN (R472). -/
def execLatchOpen (m : Fin 6) (s : State) : Host.Outcome State Fault Refusal :=
  .next (
    if s.flag (Reg.SVC_SLOTm_LATCH m.val) then
      (((s.put (Reg.SVC_SLOTm_LATCH m.val) 0).panelEvent Reg.SVC_EVENT_SLOT_LATCH m.val).wake).openOn m.val (.latchOpen m.val)
    else s)

/-- CARTRIDGE_REMOVED (R472): the cartridge leaves; with the latch closed this acts as its opening. -/
def execCartridgeRemoved (m : Fin 6) (s : State) : Host.Outcome State Fault Refusal :=
  .next (
    if s.flag (Reg.SVC_SLOTm_PRESENT m.val) then
      let s := s.put (Reg.SVC_SLOTm_PRESENT m.val) 0
      if s.flag (Reg.SVC_SLOTm_LATCH m.val) then s.wake.openOn m.val (.removed m.val) else s
    else s)

/-! ## Slot buttons (R467, R471) -/

/-- A press is refused: its reason is recorded and shown (R469, R471). -/
def State.refusePress (s : State) (m c : Nat) : State :=
  ((s.refuseDrain m c).put (Reg.SVC_SLOTm_REFUSED m) c).showSlotCode m c

/-- What a press does by the slot's state (R471). -/
def State.pressSlot (s : State) (m : Nat) : State :=
  let st := s.slotState m
  if st = 3 then
    (if s.drainReason m = 0 then s.acceptDrain m none (some s.cycle) else s.refusePress m (s.drainReason m))
  else if st = 4 then (if s.recent s.drainPress then s.cancelDrain m false else s)
  else if (st = 1 ∨ st = 5) ∧ s.inService then s.beginAdd m
  else s.refusePress m 4

/-- SLOT_BUTTON_PRESS (R467, R471, R472): a press counts once the button has been released. -/
def execSlotButtonPress (m : Fin 6) (s : State) : Host.Outcome State Fault Refusal :=
  .next (
    if s.flag (Reg.SVC_SLOTm_BUTTON m.val) then s
    else
      let s := (s.put (Reg.SVC_SLOTm_BUTTON m.val) 1).panelEvent Reg.SVC_EVENT_SLOT_BTN m.val
      s.wake.pressSlot m.val)

/-- BUTTON_RELEASE (R467): the button of a slot, or of the device (6). -/
def execButtonRelease (which : Fin 7) (s : State) : Host.Outcome State Fault Refusal :=
  .next (if which = 6 then s.put Reg.SVC_DEV_BUTTON 0 else s.put (Reg.SVC_SLOTm_BUTTON which.val) 0)

/-- CODE_PATTERN_END (R468): on a slot's attention LED, or the device's (6). -/
def execCodePatternEnd (which : Fin 7) (s : State) : Host.Outcome State Fault Refusal :=
  .next (if which = 6 then { s with devCode := 0 } else s.showSlotCode which.val 0)

/-! ## The device button (R475, R476) -/

/-- Why a handover is refused, 0 where it is not (R476); the first case in the order of the list. -/
def State.handoverReason (s : State) (partnerPaired partnerHeld : Bool) : Nat :=
  if !s.isTwin then 1
  else if s.flag Reg.GLB_ROLE_ALONE then 2
  else if !partnerPaired || partnerHeld then 3
  else if s.twinState ≠ 2 then 4
  else 0

/-- A handover is asked for on a twin side (R475, R476, R482). -/
def State.askHandover (s : State) (partnerPaired partnerHeld : Bool) : State :=
  let c := s.handoverReason partnerPaired partnerHeld
  if c = 0 then { s.setTwin 5 with handPress := some s.cycle, handMark := false }
  else { s.put Reg.SVC_DEV_REFUSED c with devCode := c }

/-- DEVICE_BUTTON_PRESS (R475): `partnerPaired` and `partnerHeld` are what the partner reports. -/
def execDeviceButtonPress (partnerPaired partnerHeld : Bool) (s : State) : Host.Outcome State Fault Refusal :=
  .next (
    if s.flag Reg.SVC_DEV_BUTTON then s
    else
      let s := (s.put Reg.SVC_DEV_BUTTON 1).panelEvent Reg.SVC_EVENT_DEV_BTN 0
      let s := s.wake
      if !s.isTwin then s
      else if s.twinState = 5 ∧ s.recent s.handPress ∧ !s.handMark then { s.setTwin 2 with handPress := none }
      else s.askHandover partnerPaired partnerHeld)

end Sys2Proof.Machine
end

