-- ==== Sys2Proof/Machine/Sha.lean ====
section
/-! DEFINITION. SHA-256, by which the image key and the booted image are named (R428, R437). -/

namespace Sys2Proof.Machine

open Sys2Proof

/-- The primes below 312: the first 64. -/
def smallPrimes : List Nat :=
  (List.range 312).filter fun p => decide (2 ≤ p) && (List.range 18).all fun d => decide (d < 2) || decide (p ≤ d) || p % d != 0

/-- The largest number whose `k`-th power is at most `x`, given that it is `r` plus a number below `2 ^ i`. -/
def rootFrom (k x : Nat) : Nat → Nat → Nat
  | 0, r => r
  | i + 1, r => rootFrom k x i (if (r + 2 ^ i) ^ k ≤ x then r + 2 ^ i else r)

/-- The first 32 bits of the fractional part of the `k`-th root of a number below 512. -/
def rootFraction (k p : Nat) : BitVec 32 := BitVec.ofNat 32 (rootFrom k (p * 2 ^ (32 * k)) 37 0)

/-- The constants of the rounds, from the cube roots of the first 64 primes. -/
def shaK : List (BitVec 32) := smallPrimes.map (rootFraction 3)

/-- The eight words of the hash state. -/
structure Sha where
  a : BitVec 32
  b : BitVec 32
  c : BitVec 32
  d : BitVec 32
  e : BitVec 32
  f : BitVec 32
  g : BitVec 32
  h : BitVec 32
  deriving DecidableEq, Repr

/-- The eight words in order, from a list. -/
def Sha.ofList (l : List (BitVec 32)) : Sha :=
  let x := fun i => l.getD i 0
  ⟨x 0, x 1, x 2, x 3, x 4, x 5, x 6, x 7⟩

/-- The eight words in order. -/
def Sha.list (s : Sha) : List (BitVec 32) := [s.a, s.b, s.c, s.d, s.e, s.f, s.g, s.h]

/-- The initial state, from the square roots of the first eight primes. -/
def shaInit : Sha := Sha.ofList ((smallPrimes.take 8).map (rootFraction 2))

/-- The exclusive OR of a word rotated right by some amounts. -/
def spin (x : BitVec 32) (rs : List Nat) : BitVec 32 := rs.foldl (fun y r => y ^^^ x.rotateRight r) 0

/-- Bit by bit, `y` where `x` is 1 and `z` where it is 0. -/
def pick (x y z : BitVec 32) : BitVec 32 := z ^^^ (x &&& (y ^^^ z))

/-- Bit by bit, the value that two or three of the words have. -/
def majority (x y z : BitVec 32) : BitVec 32 := (x &&& y) ||| (z &&& (x ||| y))

/-- One round with its constant and message word. -/
def shaRound (s : Sha) (k w : BitVec 32) : Sha :=
  let x := s.h + k + w + spin s.e [6, 11, 25] + pick s.e s.f s.g
  { s with a := x + spin s.a [2, 13, 22] + majority s.a s.b s.c, b := s.a, c := s.b, d := s.c, e := s.d + x, f := s.e, g := s.f, h := s.g }

/-- The next word of the message schedule from the last sixteen, newest first. -/
def shaNext (w : List (BitVec 32)) : BitVec 32 :=
  let back := fun i => w.getD (i - 1) 0
  let old := spin (back 15) [7, 18] ^^^ (back 15 >>> 3)
  let new := spin (back 2) [17, 19] ^^^ (back 2 >>> 10)
  back 16 + old + back 7 + new

/-- The message schedule extended by `n` words, newest first. -/
def shaSchedule : Nat → List (BitVec 32) → List (BitVec 32)
  | 0, w => w
  | n + 1, w => shaSchedule n (shaNext w :: w)

/-- Big-endian words of a block. -/
def shaWords : List Byte → List (BitVec 32)
  | a :: b :: c :: d :: l => (a ++ b ++ c ++ d : BitVec 32) :: shaWords l
  | _ => []

/-- One block of 64 bytes. -/
def shaBlock (s : Sha) (block : List Byte) : Sha :=
  let w := (shaSchedule 48 (shaWords block).reverse).reverse
  let t := (shaK.zip w).foldl (fun t e => shaRound t e.1 e.2) s
  Sha.ofList (List.zipWith (· + ·) s.list t.list)

/-- Blocks one after another. -/
def shaBlocks : Nat → Sha → List Byte → Sha
  | 0, s, _ => s
  | n + 1, s, bs => if bs = [] then s else shaBlocks n (shaBlock s (bs.take 64)) (bs.drop 64)

/-- The padded message: a 1 bit, zeros, and the length in bits. -/
def shaPad (bs : List Byte) : List Byte :=
  let n := bs.length
  bs ++ [0x80] ++ List.replicate ((119 - n % 64) % 64) 0 ++ (leBytes 8 (8 * n)).reverse

/-- A word as four big-endian bytes. -/
def shaBytes (w : BitVec 32) : List Byte := (leBytes 4 w.toNat).reverse

/-- The SHA-256 hash of a byte string. -/
def sha256 (bs : List Byte) : List Byte :=
  let p := shaPad bs
  (shaBlocks (p.length / 64) shaInit p).list.flatMap shaBytes

end Sys2Proof.Machine
end

