-- ==== Sys2Proof/Machine/Image.lean ====
section
/-! DEFINITION. The boot flash, the Mucia image, its verification, and its register records (R421 to R430). -/

namespace Sys2Proof.Machine

open Sys2Proof

/-! ## Flash (R421 to R423) -/

/-- A byte of the flash; an erased one reads 0xFF. -/
def erased : Byte := 0xFF

/-- Bytes of the flash from an offset. -/
def State.flashRead (s : State) (off n : Nat) : List Byte := (List.range n).map fun i => mapGet erased s.flash (off + i)

/-- Bytes programmed into the flash from an offset. -/
def flashProgram : Map Byte → Nat → List Byte → Map Byte
  | m, _, [] => m
  | m, off, b :: bs => flashProgram (mapSet erased m off b) (off + 1) bs

/-- A range of the flash erased. -/
def State.flashErase (s : State) (off n : Nat) : State :=
  { s with flash := s.flash.filter fun e => decide (e.1 < off) || decide (off + n ≤ e.1) }

/-- Flash offset of a bank (R422). -/
def bankBase (b : Nat) : Nat := 0x4000000 * (1 + b)

/-- A selector record that is valid (R423): its SEQ and bank. -/
def selectorOf (r : List Byte) : Option (Nat × Nat) :=
  let bank := leNat ((r.drop 4).take 1)
  if bank < 2 ∧ ((r.drop 5).take 55).all (· == 0) ∧ (crc32c (r.take 60)).toNat = leNat ((r.drop 60).take 4) then
    some (leNat (r.take 4), bank)
  else none

/-- Selector records that hold a programmed byte, by their place in the selector area. -/
def State.selectorPlaces (s : State) : List Nat := ((s.flash.filter fun e => decide (e.1 < 0x10000)).map fun e => e.1 / 64).eraseDups

/-- The valid selector record with the highest SEQ: its place, SEQ and bank (R423). -/
def State.selector (s : State) : Option (Nat × Nat × Nat) :=
  s.selectorPlaces.foldl (fun best i =>
    match selectorOf (s.flashRead (64 * i) 64), best with
    | none, _ => best
    | some (q, b), none => some (i, q, b)
    | some (q, b), some (j, p, c) => if p < q then some (i, q, b) else some (j, p, c)) none

/-- The selected bank; bank 0 where no record is valid (R423). -/
def State.selectedBank (s : State) : Nat :=
  match s.selector with
  | some (_, _, b) => b
  | none => 0

/-- The bytes of a selector record. -/
def selectorRecord (seq bank : Nat) : List Byte :=
  let r := leBytes 4 (seq % 2 ^ 32) ++ [BitVec.ofNat 8 bank] ++ zeroBytes 55
  r ++ leBytes 4 (crc32c r).toNat

/-- A selector record naming a bank goes to the next free place of the half in use; once that is full the other half is erased first (R423). -/
def State.select (s : State) (bank : Nat) : State :=
  let (half, seq) := match s.selector with
    | some (i, q, _) => (i / 512, q + 1)
    | none => (0, 0)
  let used := s.selectorPlaces
  match (List.range 512).find? fun i => !used.contains (512 * half + i) with
  | some i => { s with flash := flashProgram s.flash (64 * (512 * half + i)) (selectorRecord seq bank) }
  | none =>
    let other := 1 - half
    let s := s.flashErase (0x8000 * other) 0x8000
    { s with flash := flashProgram s.flash (0x8000 * other) (selectorRecord seq bank) }

/-! ## The header and the section table (R424, R425) -/

/-- The 32 words of an image's header; `rd` reads the image. -/
def imageHeader (rd : Nat → Nat → List Byte) : List Nat := recWords (rd 0 256) 32

/-- The fields of the header. -/
def imgHeaderFields : List (List (Nat × Nat)) :=
  [[(31, 0), (39, 32)], wholeWord, [(15, 0), (23, 16), (30, 24), (32, 32), (33, 33)], [(5, 0)]]

/-- SIZE. -/
def hdrSize (h : List Nat) : Nat := recBits h 1 31 0

/-- SIG_OFF. -/
def hdrSigOff (h : List Nat) : Nat := recBits h 1 63 32

/-- SVN. -/
def hdrSvn (h : List Nat) : Nat := recBits h 2 30 24

/-- A section: its type, offset and length. -/
structure Section where
  type : Nat
  off  : Nat
  len  : Nat
  deriving DecidableEq, Repr

/-- The sections that the table lists, in its order. -/
def imageSections (rd : Nat → Nat → List Byte) : List Section :=
  let n := min 32 (recBits (imageHeader rd) 3 5 0)
  let ws := recWords (rd 0x100 (16 * n)) (2 * n)
  (List.range n).map fun i => ⟨recBits ws (2 * i) 7 0, recBits ws (2 * i) 63 32, recBits ws (2 * i + 1) 31 0⟩

/-- The section of a type. -/
def sectionOf (l : List Section) (t : Nat) : Option Section := l.find? fun x => x.type == t

/-- The section types of R425. -/
def sectionTypes : List Nat := [1, 2, 3, 4, 5, 6, 7, 8, 9, 0xA, 0xB, 0xF]

/-- Sections do not overlap. -/
def disjointSections : List Section → Bool
  | [] => true
  | a :: l => (l.all fun b => decide (a.off + a.len ≤ b.off) || decide (b.off + b.len ≤ a.off)) && disjointSections l

/-- The section table obeys R424 and R425. -/
def sectionsOk (h : List Nat) (l : List Section) : Bool :=
  let n := recBits h 3 5 0
  decide (1 ≤ n) && decide (n ≤ 32) &&
  (l.all fun x => x.off % 4096 == 0 && decide (0x1000 ≤ x.off) && decide (x.off + x.len ≤ hdrSize h) && sectionTypes.contains x.type) &&
  disjointSections l && (sectionTypes.all fun t => decide ((l.filter fun x => x.type == t).length ≤ 1)) &&
  ([1, 3, 0xA, 0xF].all fun t => (sectionOf l t).isSome) &&
  ((sectionOf l 0xA).map fun x => decide (x.len ≤ 0x800000)).getD false &&
  ((sectionOf l 0xF).map fun x => x.off == hdrSigOff h).getD false

/-! ## Register records (R425, R426) -/

/-- The offset lies in a block that a section may initialise (R425). -/
def sectionMay (t off : Nat) : Bool :=
  let within := fun (lo hi : Nat) => decide (lo ≤ off) && decide (off < hi)
  let rt := within 0x4010400 0x4010C00
  if t = 2 then within 0x6400000 0x6800000
  else if t = 3 then off == 0x10 || within 0x7000000 0x7400000
  else if t = 4 then within 0x1000000 0x2C00000 || within 0x3400000 0x3800000 || within 0x5000000 0x5400000 || within 0x3C00000 0x4000000
  else if t = 5 then within 0x4000000 0x4200000 && !rt
  else if t = 6 then rt
  else if t = 7 then within 0x4800000 0x4C00000
  else if t = 8 then within 0x3000000 0x3400000
  else if t = 9 then within 0x3800000 0x3C00000
  else false

/-- Bytes of a section ahead of its register records: the first word of ROLE and of MEMORY_MAP (R425). -/
def recordsFrom (t : Nat) : Nat := if t = 3 ∨ t = 4 then 8 else 0

/-- The register records of a section: their two words. -/
def sectionRecords (rd : Nat → Nat → List Byte) (x : Section) : List (Nat × Nat) :=
  if 2 ≤ x.type ∧ x.type ≤ 9 then
    let k := recordsFrom x.type
    let n := (x.len - k) / 16
    let ws := recWords (rd (x.off + k) (16 * n)) (2 * n)
    (List.range n).map fun i => (ws.getD (2 * i) 0, ws.getD (2 * i + 1) 0)
  else []

/-- A field takes its reset value from the image. -/
def FieldDesc.fromImage (d : FieldDesc) : Bool := d.rst == .image

/-- A record names a register with an "image" field in a block its section may initialise (R426). -/
def recordOk (t : Nat) (r : Nat × Nat) : Bool :=
  let off := bits r.1 26 0
  sectionMay t off && ((regAt off).map fun d => d.fields.any FieldDesc.fromImage).getD false

/-- The offsets of the instances that a record with ALL = 1 names: every index that is 0 in its offset takes every value (R426). -/
def instancesOf : List (Nat × Nat) → Nat → List Nat
  | [], r => [r]
  | (stride, count) :: ds, r =>
    let rest := instancesOf ds (r % stride)
    if r / stride = 0 then (List.range count).flatMap fun i => rest.map (stride * i + ·) else rest.map (r / stride * stride + ·)

/-- The "image" fields of a register take a record's value. -/
def loadFields (v off : Nat) : List FieldDesc → Map Nat → Map Nat
  | [], m => m
  | d :: ds, m => loadFields v off ds (if d.fromImage then mapSet 0 m (fieldKey off d) (d.part v) else m)

/-- A register record's values join the image's (R426). -/
def loadRecord (m : Map Nat) (r : Nat × Nat) : Map Nat :=
  let off := bits r.1 26 0
  match regAt off with
  | none => m
  | some d =>
    let offs := if bit r.1 63 then (instancesOf d.dims (off - d.base)).map (d.base + ·) else [off]
    offs.foldl (fun m o => loadFields r.2 o d.fields m) m

/-- The reset values that an image gives: its records in section order, and the partner's node of its ROLE section (R425, R426). -/
def imageValues (rd : Nat → Nat → List Byte) : Map Nat :=
  (imageSections rd).foldl (fun m x =>
    let m := if x.type = 3 then mapSet 0 m Reg.TWN_CFG_PARTNER.key (wordAt (rd x.off 8) 0 % 256) else m
    (sectionRecords rd x).foldl loadRecord m) []

/-! ## Verification (R428) -/

/-- The fused hash of the image key. -/
def State.keyHash (s : State) : List Byte := [0, 1, 2, 3].flatMap fun k => leBytes 8 (s.get (Reg.SEC_KEYHASHk_BYTES k))

/-- The checks of R428 in their order: the cause of the first that fails, or 0. `sigOk` is whether the HSS signature verifies, `readable`
whether the image could be read. -/
def State.verifyImage (s : State) (rd : Nat → Nat → List Byte) (sigOk readable : Bool) : Nat :=
  if !readable then 8
  else
    let h := imageHeader rd
    let l := imageSections rd
    let sig := ((sectionOf l 0xF).map (·.len)).getD 0
    if recBits h 0 31 0 ≠ 0x4D554331 ∨ recBits h 0 39 32 ≠ 1 ∨ !onlyFields imgHeaderFields h then 1
    else if 0x4000000 < hdrSize h ∨ hdrSigOff h + sig ≠ hdrSize h then 2
    else if recBits h 2 15 0 ≠ s.get Reg.GLB_ID_PART ∨ s.get Reg.GLB_ID_STEPPING < recBits h 2 23 16 then 3
    else if !sectionsOk h l || !(l.all fun x => (sectionRecords rd x).all (recordOk x.type)) then 4
    else if sha256 (rd (hdrSigOff h) 60) ≠ s.keyHash then 5
    else if !sigOk then 6
    else if hdrSvn h < s.get Reg.SEC_SVN_MIN then 7
    else 0

/-- The bytes of the image in a bank. -/
def State.bankReader (s : State) (b : Nat) (off n : Nat) : List Byte := s.flashRead (bankBase b + off) n

/-- The check of the image in a bank. -/
def State.verifyBank (s : State) (b : Nat) (sigOk readable : Bool) : Nat := s.verifyImage (s.bankReader b) sigOk readable

end Sys2Proof.Machine
end

