-- ==== Sys2Proof/Machine/Boot.lean ====
section
/-! DEFINITION. Cold resets and their causes, and the cold boot (R429 to R431, R445 to R450, R459, R460, R465). -/

namespace Sys2Proof.Machine

open Sys2Proof

/-! ## Cold resets (R446, R449, R450) -/

/-- The panel's pins, which no reset changes: presence, latches and buttons (R467, R484). -/
def panelPins : List FieldRef :=
  slotList.flatMap (fun m => [Reg.SVC_SLOTm_BUTTON m, Reg.SVC_SLOTm_LATCH m, Reg.SVC_SLOTm_PRESENT m]) ++ [Reg.SVC_DEV_BUTTON]

/-- Every block is reset (R446, R450). Fuses, the flash, the attestation counter, the device's keys, the panel's pins, and what the device has
sent outside, stay. A further cause during a reset that is applied does not replace the first (R448, R449). -/
def State.coldReset (s : State) (cause rail : Nat) : State :=
  let t := { State.reset with
    pending := s.pending, straps := s.straps, freeCount := s.freeCount, flash := s.flash, attCounter := s.attCounter
    devId := s.devId, devKey := s.devKey, hostWrites := s.hostWrites, irq := { s.irq with table := msixTable, pba := 0 }, hostReply := s.hostReply, twinSent := s.twinSent
    tripped := s.tripped, vddMv := s.vddMv, rstLatch := if s.inReset && s.rstLatch.isSome then s.rstLatch else some (cause, rail) }
  t.puts (panelPins.map fun f => (f, s.get f))

/-- POWER_ON (R446, R449): the latch reads power-on where VDD_AUX itself was absent. -/
def execPowerOn (auxAbsent : Bool) (s : State) : Host.Outcome State Fault Refusal :=
  let t := { s.coldReset 1 0 with tripped := false }
  .next (if auxAbsent then { t with rstLatch := some (1, 0) } else t)

/-- PWR_RST_N_ASSERT (R446, R465): it ends the hold of a thermal trip, whose cause stays in the latch. -/
def execPwrRstNAssert (s : State) : Host.Outcome State Fault Refusal := .next { s.coldReset 2 0 with tripped := false }

/-- REFERENCE_LOSS (R445). -/
def execReferenceLoss (s : State) : Host.Outcome State Fault Refusal := .next (s.coldReset 5 0)

/-- RAIL_UNDERVOLTAGE (R460, R487): a rail other than VDD_CORE, by its index. -/
def execRailUndervoltage (rail : BitVec 4) (s : State) : Host.Outcome State Fault Refusal :=
  .next (if 1 ≤ rail.toNat ∧ rail.toNat ≤ 8 then s.coldReset 4 rail.toNat else s)

/-- CORE_RESET_LEVEL (R459): VDD_CORE falls below 0.66 V. -/
def execCoreResetLevel (mv : BitVec 16) (s : State) : Host.Outcome State Fault Refusal :=
  .next (if mv.toNat < 660 then { s with vddMv := mv.toNat }.coldReset 3 0 else s)

/-- THERMAL_TRIP (R465): the hottest sensors, in 1/16 degree. -/
def execThermalTrip (logic dram : BitVec 12) (s : State) : Host.Outcome State Fault Refusal :=
  .next (if 110 * 16 ≤ logic.toNat ∨ 105 * 16 ≤ dram.toNat then { s.coldReset 6 0 with tripped := true } else s)

/-! ## Cold boot (R431) -/

/-- The flash as the board presents it. -/
def State.fitFlash (s : State) (ps : List FlashPiece) : State :=
  { s with flash := ps.foldl (fun m p => flashProgram m p.off.toNat p.bytes) s.flash }

/-- Steps 1 and 2: clocks run, and the cause of the cold start is written (R431, R449). The reset has held every die, so that no command
that came while it was applied has left anything (R446, R449). -/
def State.bootStart (s : State) : State :=
  let s := s.coldReset 1 0
  let (c, r) := s.rstLatch.getD (1, 0)
  ({ s with inReset := false, rstLatch := none }).puts
    [(Reg.PCR_CLK_REF_OK, 1), (Reg.PCR_CLK_PLL_LOCK, 1), (Reg.PCR_RST_CAUSE_CAUSE, c), (Reg.PCR_RST_CAUSE_RAIL, r), (Reg.MBX_CTL_STATE, 0)]

/-- Neither bank passes: recovery (R430). -/
def State.recover (s : State) (sel alt : Nat) : State :=
  s.puts [(Reg.SEC_BOOT_CAUSE_SEL, sel), (Reg.SEC_BOOT_CAUSE_ALT, alt), (Reg.SEC_BOOT_RECOVERY, 1), (Reg.MBX_CTL_STATE, 1)]

/-- Fuses blown by an accepted image (R429, R440). -/
def State.imageFuses (s : State) (h : List Nat) : State :=
  let s := if bit (h.getD 2 0) 32 && decide (s.get Reg.SEC_SVN_MIN < hdrSvn h) then s.blow Reg.SEC_SVN_MIN (hdrSvn h) else s
  if bit (h.getD 2 0) 33 then s.blow Reg.SEC_DBG_CLOSED 1 else s

/-- The image of a bank is taken: what SEC_BOOT shows of it, what Lantern keeps of it, the fuses it asks for, and its register records. -/
def State.takeImage (s : State) (b : Nat) : State :=
  let rd := s.bankReader b
  let h := imageHeader rd
  let idw := match sectionOf (imageSections rd) 1 with
    | some x => recWords (rd x.off 16) 2
    | none => []
  let s := s.puts [(Reg.SEC_BOOT_BANK, b), (Reg.SEC_BOOT_IMG_VERSION, recBits idw 0 31 0), (Reg.SEC_BOOT_IMG_SVN, hdrSvn h)]
  let s := { s with
    booted := ⟨recBits idw 1 15 0, recBits idw 1 31 16, sha256 (rd 0 (hdrSigOff h))⟩
    image := imageValues rd }
  s.imageFuses h

/-- Cold-start retirement of a chamber whose built-in test fails (R431): a tested spare takes its place; with none left a worker declares
itself failed, as R70 has it after HWFAULT (DEDUCED, log entry 70). -/
def State.bootRetire (failed : BitVec 28) (s : State) (n : Nat) : State :=
  let (bad, ok) := testCandidates failed s.spares
  let s := bad.foldl State.fuseRetired s
  match ok with
  | some p => bad.foldl State.logRetired ((s.replaceChamber n p).logRetired n)
  | none =>
    if s.flag Reg.GLB_ROLE_KEEPER then bad.foldl State.logRetired ((s.fuseRetired n).logRetired n)
    else
      let s := ({ s with devFailed := true }.put (Reg.CHn_STATUS_RETIRE_PENDING n) 1).logErr { sev := 3, kind := 12, source := 14, unit := n }
      bad.foldl State.logRetired s

/-- Chambers in service: every enabled one of a worker, the lowest of a keeper (R22, R56, R71). -/
def State.bootChambers (s : State) : State :=
  let on := (List.range 28).filter fun n => bit (s.get Reg.GLB_CHMAP_ENABLED) n
  let on := if s.flag Reg.GLB_ROLE_KEEPER then on.take 1 else on
  (List.range 28).foldl (fun s n => s.put (Reg.CHn_STATUS_STATE n) (b2n (on.contains n))) s

/-- Ports begin to train (R324). -/
def State.bootPorts (s : State) : State :=
  (List.range 8).foldl (fun s n =>
    if s.flag (Reg.HGPn_CFG_ENABLE n) && s.get (Reg.HGPn_CFG_REACH n) != 3 then s.put (Reg.HGPn_STATUS_STATE n) 1 else s) s

/-- The helictite library is copied (R427). -/
def State.copyLibrary (s : State) (b : Nat) : State :=
  let rd := s.bankReader b
  match sectionOf (imageSections rd) 0xB, sectionOf (imageSections rd) 4 with
  | some l, some m => (s.write 3 (wordAt (rd m.off 8) 0 % 2 ^ 48) (rd l.off l.len)).2
  | _, _ => s

/-- The next top leaf (R436). -/
def State.nextLeaf (s : State) : Nat := max s.attCounter (8192 * s.get Reg.SEC_ATT_THERMO)

/-- Slots whose latch is closed on a cartridge begin their add (R474). -/
def State.bootSlots (s : State) : State :=
  slotList.foldl (fun s m => if s.flag (Reg.SVC_SLOTm_LATCH m) && s.flag (Reg.SVC_SLOTm_PRESENT m) then s.closeOn m else s) s

/-- Steps 5 to 8 with the image of a bank (R431). -/
def State.bootFrom (s : State) (b : Nat) (c : BootCheck) : State :=
  let s := s.takeImage b
  let bad := (List.range 28).filter fun n => bit (s.get Reg.GLB_CHMAP_ENABLED) n && bit c.failed.toNat n
  let s := (bad.foldl (State.bootRetire c.failed) s).bootChambers.bootPorts
  let s := { s with arbUse := (List.range 10).foldl (fun m k => mapSet 0 m k (s.get (Reg.ARB_ACTIVE_SET_k k))) [] }
  let s := (s.copyLibrary b).puts [(Reg.SEC_ATT_TOP_NEXT, s.nextLeaf), (Reg.MBX_CTL_STATE, 2)]
  let s := { s with memActive := true, keyBad := !c.keysOk }
  let s := if s.isTwin then s.setTwin 1 else s
  s.bootSlots

/-- The selected bank is verified, then the other (R430). -/
def State.bootVerified (s : State) (c : BootCheck) : State :=
  let b := s.selectedBank
  let check := fun b => s.verifyBank b (bit c.sigOk.toNat b) (bit c.readable.toNat b)
  if check b = 0 then s.bootFrom b c
  else if check (1 - b) = 0 then
    (s.puts [(Reg.SEC_BOOT_FALLBACK, 1), (Reg.SEC_BOOT_CAUSE_SEL, check b)]).bootFrom (1 - b) c
  else s.recover (check b) (check (1 - b))

/-- COLD_BOOT (R431): from a cold reset that nothing holds. -/
def execColdBoot (c : BootCheck) (s : State) : Host.Outcome State Fault Refusal :=
  .next (if s.inReset && !s.tripped then (s.fitFlash c.fitted).bootStart.bootVerified c else s)

end Sys2Proof.Machine
end

