-- ==== Sys2Proof/Machine/Coder.lean ====
section
/-! DEFINITION. The coder of a chamber: its ring, the code tables and coded records it makes, and the table slots (R186 to R196). -/

namespace Sys2Proof.Machine

open Sys2Proof

/-! ## The ring (R160, R190, R191) -/

/-- The address of the coder's next record. -/
def State.coderAddr (s : State) (n : Nat) : Nat :=
  ringAddr (s.get (Reg.CHn_XC_RING_BASE n)) (s.get (Reg.CHn_XC_RING_ENTRIES_M1 n)) 64 (s.ring (8 + n)).taken

/-- The coder has done its job's work and waits for the job's writes (R190, R240). -/
def State.coderEnding (s : State) (n : Nat) : Bool :=
  s.ending fun w => match w with
    | .coder m _ _ _ _ => m == n
    | _ => false

/-- The coder may take a job: enabled, posted, none running, the chamber neither OFF nor in reset, no Hold (R190, R194). -/
def State.coderReady (s : State) (n : Nat) : Bool :=
  s.flag (Reg.CHn_XC_CTL_ENABLE n) && s.jobPosted (8 + n) (s.get (Reg.CHn_XC_CTL_JOB_SIG n)) (s.ring (8 + n)).taken &&
  !s.coderEnding n && (s.ch n).tableLoad.isNone && (s.ch n).codeJob.isNone && !(s.ch n).resetting && s.get (Reg.CHn_STATUS_STATE n) != 0 && !s.held

/-- ENABLE rises (R160, R190). -/
def State.coderEnable (s : State) (n : Nat) : State :=
  ((s.puts [(Reg.CHn_XC_CTL_ENABLE n, 1), (Reg.CHn_XC_PROGRESS_DONE n, 0)])).enableRing (8 + n) (s.get (Reg.CHn_XC_CTL_JOB_SIG n))

/-- A coder job ends (R163, R191): STATUS is written, the job counted, DONE_SIG posted once STATUS is visible; a job ended by poison is
logged. -/
def State.endCoderJob (s : State) (n recAddr doneSig status poisonAt : Nat) : State :=
  let j := (s.ring (8 + n)).taken
  let lo := s.heldSeq
  let s := if status = 3 then s.logErr { sev := 2, kind := 4, source := 7, addr := poisonAt, obj := s.objAt poisonAt, job := j, unit := n, detail := status } else s
  let s := s.chWrite n (recAddr + 56) (leBytes 8 status)
  let s := s.takeJob (8 + n)
  let s := (s.put (Reg.CHn_XC_PROGRESS_LAST_STATUS n) status).count (Reg.CHn_XC_PROGRESS_DONE n) 1
  s.endWork (s.heldSince lo) (.post doneSig) (s.postSig doneSig false 1)

/-- A coder job ends once the writes it made are visible (R190): `waits` are those that wait for a frame. -/
def State.finishCoder (s : State) (n recAddr doneSig status poisonAt : Nat) (waits : List Nat) : State :=
  s.endWork waits (.coder n recAddr doneSig status poisonAt) (s.endCoderJob n recAddr doneSig status poisonAt)

/-- Reserved bits of a coder's record are zero (R191). -/
def coderReservedOk (ws : List Nat) : Bool :=
  recBits ws 0 7 5 == 0 && recBits ws 0 31 16 == 0 && recBits ws 0 63 48 == 0 && recBits ws 1 63 48 == 0 && recBits ws 2 63 48 == 0 &&
  recBits ws 3 63 48 == 0 && recBits ws 4 63 48 == 0 && recBits ws 5 63 24 == 0 && recBits ws 6 63 12 == 0 &&
  recBits ws 7 63 8 == 0

/-- A job of operation `op` at the head of the ring runs `f` and ends with the status it gives; nothing happens when the head is of
another operation. A record whose OP is reserved is taken by BUILD. -/
def State.runCoder (s : State) (n op : Nat) (f : State → List Nat → Nat × Nat × State) : State :=
  if !s.coderReady n then s
  else
    let a := s.coderAddr n
    let (bs, bad, _, s') := s.chRead n a 64
    let ws := recWords bs 8
    let o := recBits ws 0 3 0
    if !(o == op || (op == 1 && (o == 0 || 3 < o))) then s
    else if bad then s'.endCoderJob n a (recBits ws 6 11 0) 3 a
    else if o ≠ op ∨ !coderReservedOk ws then s'.endCoderJob n a (recBits ws 6 11 0) 2 0
    else
      let (st, at_, s'') := f s' ws
      if st = 0 then s'' else s''.finishCoder n a (recBits ws 6 11 0) st at_ (s''.heldSince s.heldSeq)

/-! ## The source (R136, R192, R193) -/

/-- The block list a source descriptor names: whether a granule of it is poisoned, COUNT and its entries (R377). -/
def State.coderList (s : State) (n : Nat) (d : BitVec 1024) : Bool × Nat × List (Option Nat) × State :=
  if !dList d then (false, 0, [], s)
  else
    let a := dListAddr d
    let (hd, p, _, s) := s.chRead n a 8
    let count := leNat hd % 2 ^ 24
    let m := dN d count (dListDim d)
    let (bs, q, _, s) := s.chRead n (a + 64) (8 * m)
    (p || q, count, (List.range m).map fun i => some (wordAt bs i), s)

/-- What one position of a source gives: nothing to count and a value for CODE, or the value of its element. -/
structure SrcElem where
  real  : Bool
  value : Nat
  deriving DecidableEq, Repr

/-- Positions `p` on of a source in traversal order, `k` of them; a run of positions in one granule makes one request. The last
granule read is carried along. A poisoned granule or list entry ends the walk with its address. -/
def State.srcWalk (s : State) (n : Nat) (d : BitVec 1024) (count : Nat) (es : List (Option Nat)) :
    Nat → Nat → Option (Nat × List Byte) → List SrcElem × Option Nat × State
  | 0, _, _ => ([], none, s)
  | k + 1, p, last =>
    if dTotal d count ≤ p then (List.replicate (k + 1) ⟨false, 0⟩, none, s)
    else
      let v := dVisit d count es p
      if v.broken then ([], some (dListAddr d), s)
      else if v.pad || v.skip then
        let (l, b, s) := s.srcWalk n d count es k (p + 1) none
        (⟨false, if v.skip then 0 else dPadValue d⟩ :: l, b, s)
      else
        let g := v.byte / 256
        let (bs, bad, s) := match last with
          | some (h, bs) => if h = g then (bs, false, s) else let (b, q, _, s) := s.chGranule n v.byte; (b, q, s)
          | none => let (b, q, _, s) := s.chGranule n v.byte; (b, q, s)
        if bad then ([], some (256 * g), s)
        else
          let (l, b, s) := s.srcWalk n d count es k (p + 1) (some (g, bs))
          (⟨true, elemAt (dType d) bs (v.byte % 256) v.nibble⟩ :: l, b, s)

/-- The source descriptor of a job, with its list; BAD_JOB where its TYPE is not BF16 or FP16 or R135 refuses it. -/
def State.srcDesc (s : State) (n a : Nat) : Nat × BitVec 1024 × State :=
  let (bs, p, _, s) := s.chRead n a 128
  let d : BitVec 1024 := BitVec.ofNat 1024 (leNat bs)
  if p then (3, d, s)
  else if dBad d then (2, d, s.violCh n 4 0)
  else if dType d ≠ 1 ∧ dType d ≠ 2 then (2, d, s)
  else (1, d, if dPadListed d then s.violCh n 5 0 else s)

/-! ## BUILD (R186, R192) -/

/-- The exponent field of a BF16 or FP16 element. -/
def expField (t x : Nat) : Nat := if t = 1 then bits x 14 7 else bits x 14 10

/-- Exponent counts of a source. -/
def expCounts (t : Nat) (l : List SrcElem) : Map Nat :=
  l.foldl (fun m e => if e.real then let k := expField t e.value; mapSet 0 m k (mapGet 0 m k + 1) else m) []

/-- One value put into a ranking: higher counts first, ties by ascending value. -/
def rankInsert (e : Nat × Nat) : List (Nat × Nat) → List (Nat × Nat)
  | [] => [e]
  | x :: l => if x.2 < e.2 ∨ (x.2 = e.2 ∧ e.1 < x.1) then e :: x :: l else x :: rankInsert e l

/-- The values in rank order. -/
def ranked (m : Map Nat) : List Nat := (m.foldl (fun l e => rankInsert e l) []).map (·.1)

/-- The 64-byte code table of R186. -/
def codeTable (t id : Nat) (syms : List Nat) : List Byte :=
  let sy := if syms = [] then [0] else syms.take 14
  leBytes 8 (3 + 16 * t + 256 * sy.length + 2 ^ 32 * id) ++ (sy.map (BitVec.ofNat 8)) ++ zeroBytes (56 - sy.length)

/-- BUILD (R192). -/
def execBuild (ch : Fin 28) (s : State) : Host.Outcome State Fault Refusal :=
  let n := ch.val
  .next (s.runCoder n 1 fun s ws =>
    let (st, d, s) := s.srcDesc n (recBits ws 1 47 0)
    if st ≠ 1 then (st, recBits ws 1 47 0, s)
    else
      let (bad, count, es, s) := s.coderList n d
      let (l, at_, s) := if bad then ([], some (dListAddr d), s) else s.srcWalk n d count es (dTotal d count) 0 none
      match at_ with
      | some a => (3, a, s)
      | none =>
        let t := dType d
        (1, 0, s.chWrite n (recBits ws 2 47 0) (codeTable t (recBits ws 0 47 32) (ranked (expCounts t l)))))

/-! ## CODE (R184, R187, R188, R193) -/

/-- `k` bits of a number, most significant first. -/
def bitsMsb (x : Nat) : Nat → List Bool
  | 0 => []
  | k + 1 => bit x k :: bitsMsb x k

/-- The index of an exponent field in a table's SYM entries. -/
def symIndex (table : List Byte) (x : Nat) : Option Nat :=
  (List.range (min 14 (bits (wordAt table 0) 11 8))).find? fun i => (table.getD (8 + i) 0).toNat == x

/-- The code of an exponent field (R187). -/
def codeExp (table : List Byte) (w x : Nat) : List Bool :=
  match symIndex table x with
  | some i =>
    if i < 2 then false :: bitsMsb i 1
    else if i < 6 then true :: false :: bitsMsb (i - 2) 2
    else true :: true :: false :: bitsMsb (i - 6) 3
  | none => true :: true :: true :: bitsMsb x w

/-- A bit list as a number, the first bit lowest. -/
def bitsNat : List Bool → Nat
  | [] => 0
  | b :: bs => b2n b + 2 * bitsNat bs

/-- The plane bits of an element: its sign and fraction (R188). -/
def planeBits (t x : Nat) : Nat := if t = 1 then bits x 15 15 * 128 + bits x 6 0 else bits x 15 15 * 1024 + bits x 9 0

/-- The plane of a block (R188). -/
def planeOf (t : Nat) (es : List Nat) : List Byte :=
  let w := if t = 1 then 8 else 11
  leBytes (planeBytes t es.length) (es.zipIdx.foldl (fun x e => x + planeBits t e.1 * 2 ^ (w * e.2)) 0)

/-- One block coded, and whether it is escaped (R188). -/
def codeBlock (t : Nat) (table : List Byte) (es : List Nat) : Bool × List Byte :=
  let code := es.flatMap fun x => codeExp table (expWidth t) (expField t x)
  let len := 64 * cdiv code.length 512
  if 2 * es.length ≤ planeBytes t es.length + len then (true, es.flatMap (leBytes 2))
  else (false, planeOf t es ++ leBytes len (bitsNat code))

/-- A tile's elements cut into blocks of 16 rows. -/
def blocksOf : Nat → List Nat → List (List Nat)
  | 0, _ => []
  | k + 1, es => if es.isEmpty then [] else es.take 2048 :: blocksOf k (es.drop 2048)

/-- The record of a tile (R184): header, checks of the uncompressed rows, blocks. -/
def codeRecord (t : Nat) (table : List Byte) (krows : Nat) (es : List Nat) : List Byte :=
  let bl := (blocksOf 8 es).map (codeBlock t table)
  let lens := bl.flatMap fun b => leBytes 2 (b.2.length / 64 + b2n b.1 * 2 ^ 15)
  let hd := leBytes 8 (1 + 16 * t + 256 * krows + 2 ^ 32 * bits (wordAt table 0) 47 32) ++ lens
  let checks := (List.range krows).flatMap fun f => leBytes 4 (crc32c (((es.drop (128 * f)).take 128).flatMap (leBytes 2))).toNat
  hd ++ zeroBytes (64 - hd.length) ++ checks ++ zeroBytes (64 * cdiv krows 16 - checks.length) ++ bl.flatMap (·.2)

/-- The next tile of a CODE job is read, coded and written with its directory entry (R193): the status, 0 while tiles are left, the
poisoned address, the job as it then stands, and the state. -/
def State.codeTile (s : State) (n : Nat) (j : CodeJob) : Nat × Nat × CodeJob × State :=
  let lo := s.heldSeq
  let (l, bad, s) := s.srcWalk n j.desc j.count j.entries (128 * j.krows) (128 * j.krows * j.tile) none
  match bad with
  | some a => (3, a, j, s)
  | none =>
    let r := codeRecord (dType j.desc) j.table j.krows (l.map (·.value))
    let s := s.chWrite n j.dst r
    let s := s.chWrite n (j.dir + 8 * j.tile) (leBytes 8 (j.dst % 2 ^ 48 + r.length / 64 * 2 ^ 48))
    (if j.left ≤ 1 then 1 else 0, 0,
      { j with tile := j.tile + 1, left := j.left - 1, dst := j.dst + r.length, waits := j.waits ++ s.heldSince lo }, s)

/-- A CODE job goes on by one tile, and ends after its last (R193, R194). -/
def State.codeOn (s : State) (n : Nat) (j : CodeJob) : State :=
  let (st, at_, j, s) := s.codeTile n j
  if st = 0 then s.modCh n fun c => { c with codeJob := some j }
  else
    let s := s.modCh n fun c => { c with codeJob := none }
    s.finishCoder n j.recAddr j.sig st at_ (j.waits.filter fun i => (s.heldWrites.map (·.id)).contains i)

/-- A table has the right FORMAT, a 16-bit float TYPE and a stated NSYM (R186). -/
def tableGood (table : List Byte) : Bool :=
  let w := wordAt table 0
  bits w 3 0 == 3 && (bits w 7 4 == 1 || bits w 7 4 == 2)

/-- A CODE job begins (R193): its checks, its source, table and list; status 0 where its tiles follow. -/
def State.codeBegin (s : State) (n : Nat) (ws : List Nat) : Nat × Nat × Option CodeJob × State :=
  let krows := recBits ws 0 15 8
  if krows < 8 ∨ 128 < krows ∨ krows % 8 ≠ 0 ∨ recBits ws 5 23 0 = 0 then (2, 0, none, s)
  else
    let (st, d, s) := s.srcDesc n (recBits ws 1 47 0)
    if st ≠ 1 then (st, recBits ws 1 47 0, none, s)
    else
      let (table, p, _, s) := s.chRead n (recBits ws 2 47 0) 64
      if p then (3, recBits ws 2 47 0, none, s)
      else if !tableGood table || bits (wordAt table 0) 7 4 != dType d then (2, 0, none, s)
      else
        let (bad, count, es, s) := s.coderList n d
        if bad then (3, dListAddr d, none, s)
        else (0, 0, some { recAddr := s.coderAddr n, sig := recBits ws 6 11 0, desc := d, count := count, entries := es, table := table
                           krows := krows, dir := recBits ws 4 47 0, tile := 0, left := recBits ws 5 23 0
                           dst := recBits ws 3 47 0 / 64 * 64, waits := [] }, s)

/-- CODE (R193): the job begins with its first tile, and every further command codes one tile more; between two tiles Hold stops it and a
chamber reset abandons it (R194). -/
def execCode (ch : Fin 28) (s : State) : Host.Outcome State Fault Refusal :=
  let n := ch.val
  .next (match (s.ch n).codeJob with
    | some j => if s.held || (s.ch n).resetting then s else s.codeOn n j
    | none => s.runCoder n 2 fun s ws =>
      match s.codeBegin n ws with
      | (st, at_, none, s) => (st, at_, s)
      | (_, _, some j, s) => (0, 0, s.codeOn n j))

/-! ## Table slots (R195, R196) -/

/-- VALID, PENDING and QUEUED of a slot. -/
def slotPending (n slot : Nat) : FieldRef := if slot = 1 then Reg.CHn_XT_SLOT1_PENDING n else Reg.CHn_XT_SLOT0_PENDING n
def slotQueued (n slot : Nat) : FieldRef := if slot = 1 then Reg.CHn_XT_SLOT1_QUEUED n else Reg.CHn_XT_SLOT0_QUEUED n
def slotValid (n slot : Nat) : FieldRef := if slot = 1 then Reg.CHn_XT_SLOT1_VALID n else Reg.CHn_XT_SLOT0_VALID n

/-- LOAD_TABLE (R195): the table is read and its slot marked PENDING; one that is poisoned or of a wrong FORMAT or TYPE ends the job
and leaves the slot not VALID. -/
def execLoadTable (ch : Fin 28) (s : State) : Host.Outcome State Fault Refusal :=
  let n := ch.val
  .next (s.runCoder n 3 fun s ws =>
    let slot := recBits ws 0 4 4
    let (table, p, _, s) := s.chRead n (recBits ws 2 47 0) 64
    if p then (3, recBits ws 2 47 0, s.put (slotValid n slot) 0)
    else if !tableGood table then (2, 0, s.put (slotValid n slot) 0)
    else
      let s := s.put (slotPending n slot) 1
      (0, 0, s.modCh n fun c => { c with tableLoad := some ⟨slot, table, s.coderAddr n, recBits ws 6 11 0⟩ }))

/-- The registers of a table slot that holds a table. -/
def slotWrites (n slot : Nat) (table : List Byte) : List (FieldRef × Nat) :=
  let w := wordAt table 0
  if slot = 1 then
    [(Reg.CHn_XT_SLOT1_TABLE_ID n, bits w 47 32), (Reg.CHn_XT_SLOT1_NSYM n, bits w 11 8), (Reg.CHn_XT_SLOT1_TYPE n, bits w 7 4),
     (Reg.CHn_XT_SLOT1_PENDING n, 0), (Reg.CHn_XT_SLOT1_VALID n, 1)]
  else
    [(Reg.CHn_XT_SLOT0_TABLE_ID n, bits w 47 32), (Reg.CHn_XT_SLOT0_NSYM n, bits w 11 8), (Reg.CHn_XT_SLOT0_TYPE n, bits w 7 4),
     (Reg.CHn_XT_SLOT0_PENDING n, 0), (Reg.CHn_XT_SLOT0_VALID n, 1)]

/-- TABLE_SLOT_WRITE (R195): once no queued block names the slot, the table is written into it and the job ends. -/
def execTableSlotWrite (ch : Fin 28) (s : State) : Host.Outcome State Fault Refusal :=
  let n := ch.val
  .next (match (s.ch n).tableLoad with
    | none => s
    | some l =>
      if s.flag (slotQueued n l.slot) || s.held then s
      else
        let s := (s.modCh n fun c => { c with tableLoad := none, slots := c.slots.set l.slot l.bytes }).puts (slotWrites n l.slot l.bytes)
        s.endCoderJob n l.recAddr l.doneSig 1 0)

/-- CODER_ENABLE (R190): ENABLE rises, the job counters are zeroed and the job signal's value recorded; while a step plan runs the write is
ignored and counted (R200). -/
def execCoderEnable (ch : Fin 28) (s : State) : Host.Outcome State Fault Refusal :=
  .next (if s.stepRuns && s.get (Reg.CHn_STATUS_STATE ch.val) != 0 then s.violCh ch.val 0 0
    else if s.flag (Reg.CHn_XC_CTL_ENABLE ch.val) || s.get (Reg.CHn_STATUS_STATE ch.val) == 0 then s else s.coderEnable ch.val)

end Sys2Proof.Machine
end

