-- ==== Sys2Proof/Machine/Control.lean ====
section
/-! DEFINITION. The instructions of the C slot (R39): each brings a bundle with itself in that slot to issue. -/

namespace Sys2Proof.Machine

open Sys2Proof

/-- The bundle of an issue with one instruction in its C slot. -/
def withC (i : Issue) (op : BitVec 8) (o : COps) : Issue :=
  { i with bundle := { i.bundle with cop := op, c := o } }

/-- The bundle of an issue with nop in one slot: 0 C, 1 S, 2 L, 3 M, 4 V, 5 T (R37). -/
def withNop (i : Issue) (slot : Fin 6) : Issue :=
  let b := i.bundle
  { i with bundle := match slot.val with
      | 0 => { b with cop := 0 }
      | 1 => { b with sop := 0 }
      | 2 => { b with lop := 0 }
      | 3 => { b with mop := 0 }
      | 4 => { b with vop := 0 }
      | _ => { b with top := 0 } }

/-- nop: the slot changes nothing; the bundle advances the program counter (R37). -/
def execNop (ch : Fin 28) (slot : Fin 6) (i : Issue) (s : State) : Host.Outcome State Fault Refusal :=
  .next (s.issue ch.val (withNop i slot))

/-- br: PC := TARGET (R34, R39). -/
def execBr (ch : Fin 28) (o : COps) (i : Issue) (s : State) : Host.Outcome State Fault Refusal :=
  .next (s.issue ch.val (withC i 0x01 o))

/-- br.s: PC := SREG, RANGE above 4,095 (R39). -/
def execBrS (ch : Fin 28) (o : COps) (i : Issue) (s : State) : Host.Outcome State Fault Refusal :=
  .next (s.issue ch.val (withC i 0x02 o))

/-- call: push PC + 1, PC := TARGET (R39, R40). -/
def execCall (ch : Fin 28) (o : COps) (i : Issue) (s : State) : Host.Outcome State Fault Refusal :=
  .next (s.issue ch.val (withC i 0x03 o))

/-- ret: PC := pop (R39). -/
def execRet (ch : Fin 28) (o : COps) (i : Issue) (s : State) : Host.Outcome State Fault Refusal :=
  .next (s.issue ch.val (withC i 0x04 o))

/-- halt: the chamber stops with cause DONE once the bundle's other slots have taken effect (R39, R60). -/
def execHalt (ch : Fin 28) (o : COps) (i : Issue) (s : State) : Host.Outcome State Fault Refusal :=
  .next (s.issue ch.val (withC i 0x05 o))

/-- post.sig.set: held until the earlier stores are visible (R39, R52, R53). -/
def execPostSigSet (ch : Fin 28) (o : COps) (i : Issue) (s : State) : Host.Outcome State Fault Refusal :=
  .next (s.issue ch.val (withC i 0x08 o))

/-- post.sig.add: as post.sig.set, adding modulo 2^64 (R39, R52, R53). -/
def execPostSigAdd (ch : Fin 28) (o : COps) (i : Issue) (s : State) : Host.Outcome State Fault Refusal :=
  .next (s.issue ch.val (withC i 0x09 o))

/-- wait.sig.ge: the bundle issues once the signal word reaches the value (R35, R39). -/
def execWaitSigGe (ch : Fin 28) (o : COps) (i : Issue) (s : State) : Host.Outcome State Fault Refusal :=
  .next (s.issue ch.val (withC i 0x0A o))

/-- wait.sig.eq: the bundle issues once the signal word equals the value (R35, R39). -/
def execWaitSigEq (ch : Fin 28) (o : COps) (i : Issue) (s : State) : Host.Outcome State Fault Refusal :=
  .next (s.issue ch.val (withC i 0x0B o))

/-- wait.tag: the bundle issues once no operation is outstanding on a named tag (R35, R39). -/
def execWaitTag (ch : Fin 28) (o : COps) (i : Issue) (s : State) : Host.Outcome State Fault Refusal :=
  .next (s.issue ch.val (withC i 0x0C o))

/-- fence: waits until every earlier store, store-add and move is visible (R39). -/
def execFence (ch : Fin 28) (o : COps) (i : Issue) (s : State) : Host.Outcome State Fault Refusal :=
  .next (s.issue ch.val (withC i 0x0D o))

end Sys2Proof.Machine
end

