-- ==== Sys2Proof/Machine/HelScalar.lean ====
section
/-! DEFINITION. The helictite instructions that branch, compute on scalars, use scratch, move granules, claim, and exchange words (R217). -/

namespace Sys2Proof.Machine

open Sys2Proof

/-- nop: nothing (R217). -/
def execHNop (hel : Fin 1152) (o : HOps) (s : State) : Host.Outcome State Fault Refusal :=
  .next (s.helAt hel.val 0x00 o <| s.helReg hel.val fun h => h)

/-- end: the claim is released and the program ends (R217). -/
def execHEnd (hel : Fin 1152) (o : HOps) (s : State) : Host.Outcome State Fault Refusal :=
  .next (s.helAt hel.val 0x01 o <| s.helDo hel.val fun _ => s.endHel hel.val 1 0 0)

/-- br: PC := IMM[7:0] (R217). -/
def execHBr (hel : Fin 1152) (o : HOps) (s : State) : Host.Outcome State Fault Refusal :=
  .next (s.helAt hel.val 0x02 o <| s.helBranch hel.val o fun h => (true, h))

/-- bz: branch if xA is zero (R217). -/
def execHBz (hel : Fin 1152) (o : HOps) (s : State) : Host.Outcome State Fault Refusal :=
  .next (s.helAt hel.val 0x03 o <| s.helBranch hel.val o fun h => (h.x o.a == 0, h))

/-- bnz: branch if xA is not zero (R217). -/
def execHBnz (hel : Fin 1152) (o : HOps) (s : State) : Host.Outcome State Fault Refusal :=
  .next (s.helAt hel.val 0x04 o <| s.helBranch hel.val o fun h => (h.x o.a != 0, h))

/-- blt: branch if xA < xB, signed (R217). -/
def execHBlt (hel : Fin 1152) (o : HOps) (s : State) : Host.Outcome State Fault Refusal :=
  .next (s.helAt hel.val 0x05 o <| s.helBranch hel.val o fun h => ((h.x o.a).slt (h.x o.b), h))

/-- dbnz: xA := xA - 1, then branch if xA is not zero (R217); x0 stays zero (R215). -/
def execHDbnz (hel : Fin 1152) (o : HOps) (s : State) : Host.Outcome State Fault Refusal :=
  .next (s.helAt hel.val 0x06 o <| s.helBranch hel.val o fun h => ((h.setX o.a (h.x o.a - 1)).x o.a != 0, h.setX o.a (h.x o.a - 1)))

/-- trap: the program ends with USER and code IMM[7:0] (R217). -/
def execHTrap (hel : Fin 1152) (o : HOps) (s : State) : Host.Outcome State Fault Refusal :=
  .next (s.helAt hel.val 0x07 o <| s.helDo hel.val fun _ => s.endHel hel.val 5 (o.imm.toNat % 256) 0)

/-- add: xD := xA + xB (R217). -/
def execHAdd (hel : Fin 1152) (o : HOps) (s : State) : Host.Outcome State Fault Refusal :=
  .next (s.helAt hel.val 0x10 o <| s.helReg hel.val fun h => h.setX o.d (h.x o.a + h.x o.b))

/-- sub: xD := xA - xB (R217). -/
def execHSub (hel : Fin 1152) (o : HOps) (s : State) : Host.Outcome State Fault Refusal :=
  .next (s.helAt hel.val 0x11 o <| s.helReg hel.val fun h => h.setX o.d (h.x o.a - h.x o.b))

/-- mul: the low 64 bits of xA times xB (R217). -/
def execHMul (hel : Fin 1152) (o : HOps) (s : State) : Host.Outcome State Fault Refusal :=
  .next (s.helAt hel.val 0x12 o <| s.helReg hel.val fun h => h.setX o.d (h.x o.a * h.x o.b))

/-- and (R217). -/
def execHAnd (hel : Fin 1152) (o : HOps) (s : State) : Host.Outcome State Fault Refusal :=
  .next (s.helAt hel.val 0x13 o <| s.helReg hel.val fun h => h.setX o.d (h.x o.a &&& h.x o.b))

/-- or (R217). -/
def execHOr (hel : Fin 1152) (o : HOps) (s : State) : Host.Outcome State Fault Refusal :=
  .next (s.helAt hel.val 0x14 o <| s.helReg hel.val fun h => h.setX o.d (h.x o.a ||| h.x o.b))

/-- xor (R217). -/
def execHXor (hel : Fin 1152) (o : HOps) (s : State) : Host.Outcome State Fault Refusal :=
  .next (s.helAt hel.val 0x15 o <| s.helReg hel.val fun h => h.setX o.d (h.x o.a ^^^ h.x o.b))

/-- shl: xA shifted left by xB[5:0] (R217). -/
def execHShl (hel : Fin 1152) (o : HOps) (s : State) : Host.Outcome State Fault Refusal :=
  .next (s.helAt hel.val 0x16 o <| s.helReg hel.val fun h => h.setX o.d (h.x o.a <<< ((h.x o.b).toNat % 64)))

/-- shr: xA shifted right, zero-filled, by xB[5:0] (R217). -/
def execHShr (hel : Fin 1152) (o : HOps) (s : State) : Host.Outcome State Fault Refusal :=
  .next (s.helAt hel.val 0x17 o <| s.helReg hel.val fun h => h.setX o.d (h.x o.a >>> ((h.x o.b).toNat % 64)))

/-- addi: xD := xA + IMM, sign-extended (R217). -/
def execHAddi (hel : Fin 1152) (o : HOps) (s : State) : Host.Outcome State Fault Refusal :=
  .next (s.helAt hel.val 0x18 o <| s.helReg hel.val fun h => h.setX o.d (h.x o.a + o.imm.signExtend 64))

/-- li: xD := IMM, sign-extended (R217). -/
def execHLi (hel : Fin 1152) (o : HOps) (s : State) : Host.Outcome State Fault Refusal :=
  .next (s.helAt hel.val 0x19 o <| s.helReg hel.val fun h => h.setX o.d (o.imm.signExtend 64))

/-- lih: xD[63:32] := IMM (R217). -/
def execHLih (hel : Fin 1152) (o : HOps) (s : State) : Host.Outcome State Fault Refusal :=
  .next (s.helAt hel.val 0x1A o <| s.helReg hel.val fun h => h.setX o.d ((o.imm ++ (h.x o.d).setWidth 32 : BitVec 64)))

/-- divu: unsigned quotient; all ones for a zero divisor (R217). -/
def execHDivu (hel : Fin 1152) (o : HOps) (s : State) : Host.Outcome State Fault Refusal :=
  .next (s.helAt hel.val 0x1B o <| s.helReg hel.val fun h => h.setX o.d (if h.x o.b = 0 then BitVec.allOnes 64 else h.x o.a / h.x o.b))

/-- remu: unsigned remainder; xA for a zero divisor (R217). -/
def execHRemu (hel : Fin 1152) (o : HOps) (s : State) : Host.Outcome State Fault Refusal :=
  .next (s.helAt hel.val 0x1C o <| s.helReg hel.val fun h => h.setX o.d (if h.x o.b = 0 then h.x o.a else h.x o.a % h.x o.b))

/-- lv: hD from 64 scratch bytes, lane i from bytes 4i to 4i + 3 (R217, R220). -/
def execHLv (hel : Fin 1152) (o : HOps) (s : State) : Host.Outcome State Fault Refusal :=
  .next (s.helAt hel.val 0x20 o <| s.helScratch hel.val o 64 false fun h a => h.setV o.d (mkHLanes fun i => BitVec.ofNat 32 (memNat h.scratch (a + 4 * i) 4)))

/-- sv: hB to 64 scratch bytes (R217, R220). -/
def execHSv (hel : Fin 1152) (o : HOps) (s : State) : Host.Outcome State Fault Refusal :=
  .next (s.helAt hel.val 0x21 o <| s.helScratch hel.val o 64 true fun h a => { h with scratch := memWrite h.scratch a ((h.v o.b).toList.flatMap fun x => leBytes 4 x.toNat) })

/-- lvh: 16 elements of type MOD[3:0] from 32 scratch bytes, widened (R119, R217); another type faults (R221). -/
def execHLvh (hel : Fin 1152) (o : HOps) (s : State) : Host.Outcome State Fault Refusal :=
  .next (s.helAt hel.val 0x22 o <| match halfType o with
    | none => s.helDo hel.val fun _ => s.helFault hel.val
    | some t => s.helScratch hel.val o 32 false fun h a => h.lanes o.d fun i => widen t (memNat h.scratch (a + 2 * i) 2))

/-- svh: 16 lanes converted to type MOD[3:0], saturating, or overflowing to infinity with MOD[4] (R117, R217). -/
def execHSvh (hel : Fin 1152) (o : HOps) (s : State) : Host.Outcome State Fault Refusal :=
  .next (s.helAt hel.val 0x23 o <| match halfType o with
    | none => s.helDo hel.val fun _ => s.helFault hel.val
    | some t => s.helScratch hel.val o 32 true fun h a =>
        let rs := (h.v o.b).toList.map fun x => convert t (o.mod.getLsbD 4) x
        { h with scratch := memWrite h.scratch a (rs.flatMap fun r => leBytes 2 r.1), flags := rs.foldl (fun f r => f.join r.2) h.flags })

/-- lx: xD from 8 scratch bytes (R217). -/
def execHLx (hel : Fin 1152) (o : HOps) (s : State) : Host.Outcome State Fault Refusal :=
  .next (s.helAt hel.val 0x24 o <| s.helScratch hel.val o 8 false fun h a => h.setX o.d (BitVec.ofNat 64 (memNat h.scratch a 8)))

/-- sx: xB to 8 scratch bytes (R217). -/
def execHSx (hel : Fin 1152) (o : HOps) (s : State) : Host.Outcome State Fault Refusal :=
  .next (s.helAt hel.val 0x25 o <| s.helScratch hel.val o 8 true fun h a => { h with scratch := memWrite h.scratch a (leBytes 8 (h.x o.b).toNat) })

/-- rg: starts reading a granule into slot MOD[2:0] (R217, R219). -/
def execHRg (hel : Fin 1152) (o : HOps) (s : State) : Host.Outcome State Fault Refusal :=
  .next (s.helAt hel.val 0x50 o <| s.helStart hel.val o false)

/-- wg: starts writing slot MOD[2:0] to a granule (R217, R219, R230). -/
def execHWg (hel : Fin 1152) (o : HOps) (s : State) : Host.Outcome State Fault Refusal :=
  .next (s.helAt hel.val 0x51 o <| s.helStart hel.val o true)

/-- clm: a claim held is released; the claim of xA to xB begins, its cached lines back-invalidated (R226). -/
def execHClm (hel : Fin 1152) (o : HOps) (s : State) : Host.Outcome State Fault Refusal :=
  .next (s.helAt hel.val 0x53 o <| s.helDo hel.val fun h =>
    let n := hel.val
    let s := s.releaseClaim n
    let lo := (h.x o.a).toNat
    let hi := (h.x o.b).toNat
    let c : Claim := ⟨n, lo, hi, s.banksOfRange n lo hi, false, [], [], []⟩
    ({ s with claims := s.claims ++ [c] }.setHel n h.next).askClaim c)

/-- rel: the claim is released (R217, R228). -/
def execHRel (hel : Fin 1152) (o : HOps) (s : State) : Host.Outcome State Fault Refusal :=
  .next (s.helAt hel.val 0x54 o <| s.helDo hel.val fun h => (s.setHel hel.val h.next).releaseClaim hel.val)

/-- yld: a row boundary in every claimed bank (R217, R228). -/
def execHYld (hel : Fin 1152) (o : HOps) (s : State) : Host.Outcome State Fault Refusal :=
  .next (s.helAt hel.val 0x55 o <| s.helDo hel.val fun h => (s.setHel hel.val h.next).rowBoundary hel.val)

/-- fence: waits until every earlier wg is visible (R217). -/
def execHFence (hel : Fin 1152) (o : HOps) (s : State) : Host.Outcome State Fault Refusal :=
  .next (s.helAt hel.val 0x56 o <| s.helDo hel.val fun h => if h.ops.any (·.write) then s else s.setHel hel.val h.next)

/-- The helictites of the layer that an xsend of helictite `n` names: xA[6:0], 0x7F for all others; a number that names no helictite sends
to none (R217, R232). -/
def State.sendTargets (s : State) (n : Nat) (o : HOps) : List Nat :=
  let t := ((s.hel n).x o.a).toNat % 128
  let l := n / 96 * 96
  if t = 127 then ((List.range 96).map (l + ·)).filter (· != n) else if t < 96 then [l + t] else []

/-- A helictite stands at an xsend whose target queues all have room (R232). -/
def State.wantsBus (s : State) (n : Nat) : Bool :=
  let w := s.helWord n
  s.helReady n && w.1 == 0x60 && (s.sendTargets n w.2).all fun m => decide ((s.hel m).queue.length < 32)

/-- The bus of helictite `n`'s layer is its own in this MCLK cycle (R232): not taken in it yet, and in round-robin order of helictite index
no other sender stands before it. -/
def State.hasBus (s : State) (n : Nat) : Bool :=
  let (first, at_) := mapGet (0, 0) s.xbus (n / 96)
  let l := n / 96 * 96
  decide (at_ ≤ s.cycle / 2) &&
  !((((List.range 96).map fun i => (first + i) % 96).takeWhile (· != n % 96)).any fun i => s.wantsBus (l + i))

/-- xsend: word xB to the helictites named; it waits for the bus, and while a target queue is full (R217, R232). -/
def execHXsend (hel : Fin 1152) (o : HOps) (s : State) : Host.Outcome State Fault Refusal :=
  .next (s.helAt hel.val 0x60 o <| s.helDo hel.val fun h =>
    let n := hel.val
    let ts := s.sendTargets n o
    if ts.any (fun m => decide (32 ≤ (s.hel m).queue.length)) || !s.hasBus n then s
    else
      let s := { s with xbus := mapSet (0, 0) s.xbus (n / 96) ((n % 96 + 1) % 96, s.cycle / 2 + 1) }
      ts.foldl (fun s m => s.setHel m { s.hel m with queue := (s.hel m).queue ++ [h.x o.b] }) (s.setHel n h.next))

/-- xrecv: xD := the oldest word in the queue; waits for one (R217). -/
def execHXrecv (hel : Fin 1152) (o : HOps) (s : State) : Host.Outcome State Fault Refusal :=
  .next (s.helAt hel.val 0x61 o <| s.helDo hel.val fun h =>
    match h.queue with
    | [] => s.setHel hel.val { h with xrecvAt := some (h.xrecvAt.getD s.cycle) }
    | w :: q => s.setHel hel.val { (h.setX o.d w).next with queue := q, xrecvAt := none })

/-- xcount: xD := the number of words waiting (R217). -/
def execHXcount (hel : Fin 1152) (o : HOps) (s : State) : Host.Outcome State Fault Refusal :=
  .next (s.helAt hel.val 0x62 o <| s.helReg hel.val fun h => h.setX o.d (BitVec.ofNat 64 h.queue.length))

/-- post: post.sig.add of xA to signal word IMM[11:0] of this device (R217). -/
def execHPost (hel : Fin 1152) (o : HOps) (s : State) : Host.Outcome State Fault Refusal :=
  .next (s.helAt hel.val 0x68 o <| s.helDo hel.val fun h => (s.setHel hel.val h.next).postSig (o.imm.toNat % 4096) false (h.x o.a).toNat)

end Sys2Proof.Machine
end

