-- ==== Sys2Proof/Machine/HelVector.lean ====
section
/-! DEFINITION. The helictite vector instructions (R217, R218). -/

namespace Sys2Proof.Machine

open Sys2Proof

/-- A BF16 half of a lane, as an exact value. -/
def bf16Half (x : Lane) (hi : Bool) : FVal := decodeElem 1 (if hi then x.toNat / 65536 else x.toNat % 65536)

/-- vdot.bf2 on one lane: exact products and sums, one rounding (R217). -/
def dotBf2 (a b c : Lane) : Lane × Flags :=
  let (p, f) := mulVal (bf16Half a false) (bf16Half b false)
  let (q, g) := mulVal (bf16Half a true) (bf16Half b true)
  let (x, e) := addVal p q
  let (y, k) := addVal (val32 c) x
  rounded (y, ((f.join g).join e).join k)

/-- vadd, lanewise FP32 (R113, R217, R218). -/
def execHVadd (hel : Fin 1152) (o : HOps) (s : State) : Host.Outcome State Fault Refusal :=
  .next (s.helAt hel.val 0x30 o <| s.helVec hel.val o fun h i => fadd (hlane (h.v o.a) i) (hlane (h.v o.b) i))

/-- vsub, lanewise FP32 (R113, R217, R218). -/
def execHVsub (hel : Fin 1152) (o : HOps) (s : State) : Host.Outcome State Fault Refusal :=
  .next (s.helAt hel.val 0x31 o <| s.helVec hel.val o fun h i => fsub (hlane (h.v o.a) i) (hlane (h.v o.b) i))

/-- vmul, lanewise FP32 (R113, R217, R218). -/
def execHVmul (hel : Fin 1152) (o : HOps) (s : State) : Host.Outcome State Fault Refusal :=
  .next (s.helAt hel.val 0x32 o <| s.helVec hel.val o fun h i => fmul (hlane (h.v o.a) i) (hlane (h.v o.b) i))

/-- vfma: hA times hB plus hC, one rounding, lanewise FP32 (R113, R217, R218). -/
def execHVfma (hel : Fin 1152) (o : HOps) (s : State) : Host.Outcome State Fault Refusal :=
  .next (s.helAt hel.val 0x33 o <| s.helVec hel.val o fun h i => ffma (hlane (h.v o.a) i) (hlane (h.v o.b) i) (hlane (h.v o.c) i))

/-- vmax, lanewise FP32 (R113, R217, R218). -/
def execHVmax (hel : Fin 1152) (o : HOps) (s : State) : Host.Outcome State Fault Refusal :=
  .next (s.helAt hel.val 0x34 o <| s.helVec hel.val o fun h i => fmax (hlane (h.v o.a) i) (hlane (h.v o.b) i))

/-- vmin, lanewise FP32 (R113, R217, R218). -/
def execHVmin (hel : Fin 1152) (o : HOps) (s : State) : Host.Outcome State Fault Refusal :=
  .next (s.helAt hel.val 0x35 o <| s.helVec hel.val o fun h i => fmin (hlane (h.v o.a) i) (hlane (h.v o.b) i))

/-- vabs: sign cleared, no flag (R217); a NaN becomes the canonical NaN (R218). -/
def execHVabs (hel : Fin 1152) (o : HOps) (s : State) : Host.Outcome State Fault Refusal :=
  .next (s.helAt hel.val 0x36 o <| s.helVec hel.val o fun h i => (if laneNan (hlane (h.v o.a) i) then qnan32 else (hlane (h.v o.a) i) &&& 0x7FFFFFFF#32, Flags.none))

/-- vneg: sign inverted, no flag (R217); a NaN becomes the canonical NaN (R218). -/
def execHVneg (hel : Fin 1152) (o : HOps) (s : State) : Host.Outcome State Fault Refusal :=
  .next (s.helAt hel.val 0x37 o <| s.helVec hel.val o fun h i => (if laneNan (hlane (h.v o.a) i) then qnan32 else (hlane (h.v o.a) i) ^^^ 0x80000000#32, Flags.none))

/-- vdot.bf2: hC plus two exact BF16 products, one rounding (R217). -/
def execHVdotBf2 (hel : Fin 1152) (o : HOps) (s : State) : Host.Outcome State Fault Refusal :=
  .next (s.helAt hel.val 0x38 o <| s.helVec hel.val o fun h i => dotBf2 (hlane (h.v o.a) i) (hlane (h.v o.b) i) (hlane (h.v o.c) i))

/-- vcmp.lt: all ones where hA < hB, else zero; NaN gives zero (R217). -/
def execHVcmpLt (hel : Fin 1152) (o : HOps) (s : State) : Host.Outcome State Fault Refusal :=
  .next (s.helAt hel.val 0x39 o <| s.helVec hel.val o fun h i => (fltMask (hlane (h.v o.a) i) (hlane (h.v o.b) i), Flags.none))

/-- vsel: hA where the lane of hC is not zero, else hB (R217). -/
def execHVsel (hel : Fin 1152) (o : HOps) (s : State) : Host.Outcome State Fault Refusal :=
  .next (s.helAt hel.val 0x3A o <| s.helVec hel.val o fun h i => (if hlane (h.v o.c) i ≠ 0 then hlane (h.v o.a) i else hlane (h.v o.b) i, Flags.none))

/-- vbcast: every lane := xA[31:0] (R217). -/
def execHVbcast (hel : Fin 1152) (o : HOps) (s : State) : Host.Outcome State Fault Refusal :=
  .next (s.helAt hel.val 0x3B o <| s.helVec hel.val o fun h _ => ((h.x o.a).setWidth 32, Flags.none))

/-- vred.add: lane 0 := the pairwise tree sum, other lanes 0 (R114, R217). -/
def execHVredAdd (hel : Fin 1152) (o : HOps) (s : State) : Host.Outcome State Fault Refusal :=
  .next (s.helAt hel.val 0x3C o <| s.helReg hel.val fun h => h.reduce o fadd)

/-- vred.max: lane 0 := the pairwise tree maximum, other lanes 0 (R114, R217). -/
def execHVredMax (hel : Fin 1152) (o : HOps) (s : State) : Host.Outcome State Fault Refusal :=
  .next (s.helAt hel.val 0x3D o <| s.helReg hel.val fun h => h.reduce o fmax)

/-- vlane: lane i := i (R217). -/
def execHVlane (hel : Fin 1152) (o : HOps) (s : State) : Host.Outcome State Fault Refusal :=
  .next (s.helAt hel.val 0x3E o <| s.helVec hel.val o fun _ i => (BitVec.ofNat 32 i, Flags.none))

/-- vrcp, with the bounds and special values of R115 (R217). -/
def execHVrcp (hel : Fin 1152) (o : HOps) (s : State) : Host.Outcome State Fault Refusal :=
  .next (s.helAt hel.val 0x40 o <| s.helVec hel.val o fun h i => frcp (hlane (h.v o.a) i))

/-- vrsqrt, with the bounds and special values of R115 (R217). -/
def execHVrsqrt (hel : Fin 1152) (o : HOps) (s : State) : Host.Outcome State Fault Refusal :=
  .next (s.helAt hel.val 0x41 o <| s.helVec hel.val o fun h i => frsqrt (hlane (h.v o.a) i))

/-- vexp, with the bounds and special values of R115 (R217). -/
def execHVexp (hel : Fin 1152) (o : HOps) (s : State) : Host.Outcome State Fault Refusal :=
  .next (s.helAt hel.val 0x42 o <| s.helVec hel.val o fun h i => fexp (hlane (h.v o.a) i))

/-- vlog, with the bounds and special values of R115 (R217). -/
def execHVlog (hel : Fin 1152) (o : HOps) (s : State) : Host.Outcome State Fault Refusal :=
  .next (s.helAt hel.val 0x43 o <| s.helVec hel.val o fun h i => flog (hlane (h.v o.a) i))

/-- vcvt.f2i: FP32 to INT32 (R118, R217). -/
def execHVcvtF2i (hel : Fin 1152) (o : HOps) (s : State) : Host.Outcome State Fault Refusal :=
  .next (s.helAt hel.val 0x44 o <| s.helVec hel.val o fun h i => let r := convert 5 false (hlane (h.v o.a) i); (BitVec.ofNat 32 r.1, r.2))

/-- vcvt.i2f: INT32 to FP32, rounded (R217). -/
def execHVcvtI2f (hel : Fin 1152) (o : HOps) (s : State) : Host.Outcome State Fault Refusal :=
  .next (s.helAt hel.val 0x45 o <| s.helVec hel.val o fun h i => roundFp32 (ofIntVal (hlane (h.v o.a) i).toInt))

/-- vadd.i32: lanewise, modulo 2^32 (R217). -/
def execHVaddI32 (hel : Fin 1152) (o : HOps) (s : State) : Host.Outcome State Fault Refusal :=
  .next (s.helAt hel.val 0x46 o <| s.helVec hel.val o fun h i => (hlane (h.v o.a) i + hlane (h.v o.b) i, Flags.none))

/-- vmovx: xD := lane MOD[3:0] of hA, zero-extended (R217). -/
def execHVmovx (hel : Fin 1152) (o : HOps) (s : State) : Host.Outcome State Fault Refusal :=
  .next (s.helAt hel.val 0x47 o <| s.helReg hel.val fun h => h.setX o.d ((hlane (h.v o.a) (o.mod.toNat % 16)).setWidth 64))

/-- vinsx: lane MOD[3:0] of hD := xA[31:0] (R217). -/
def execHVinsx (hel : Fin 1152) (o : HOps) (s : State) : Host.Outcome State Fault Refusal :=
  .next (s.helAt hel.val 0x48 o <| s.helReg hel.val fun h => h.setV o.d (mkHLanes fun i => if i = o.mod.toNat % 16 then (h.x o.a).setWidth 32 else hlane (h.v o.d) i))

end Sys2Proof.Machine
end

