-- ==== Sys2Proof/Machine/Siphon.lean ====
section
/-! DEFINITION. Siphon: its job ring, the route engine and the combine engine (R160 to R178). -/

namespace Sys2Proof.Machine

open Sys2Proof

/-! ## The ring (R160, R161, R163, R180) -/

/-- ENABLE rises: the job counters are zeroed and the job signal's value recorded, for both engines (R160). -/
def State.siphonEnable (s : State) : State :=
  let sig := s.get Reg.SIP_CTL_JOB_SIG
  ((s.puts [(Reg.SIP_CTL_ENABLE, 1), (Reg.SIP_PROGRESS_COMBINE_DONE, 0), (Reg.SIP_PROGRESS_ROUTE_DONE, 0)]).enableRing 0 sig).enableRing 1 sig

/-- SIPHON_ENABLE (R160, R180). -/
def execSiphonEnable (s : State) : Host.Outcome State Fault Refusal := .next (s.hostRaises Reg.SIP_CTL_ENABLE State.siphonEnable)

/-- SIPHON_DISABLE (R180): no job runs between two commands, so the change takes effect at once. -/
def execSiphonDisable (s : State) : Host.Outcome State Fault Refusal := .next (s.hostClears Reg.SIP_CTL_ENABLE)

/-- Siphon takes jobs: enabled, on a worker, not in Hold (R22, R160, R178). -/
def State.siphonRuns (s : State) : Bool := s.flag Reg.SIP_CTL_ENABLE && !s.flag Reg.GLB_ROLE_KEEPER && !s.held

/-- An engine's next job: the first posted record from its position on that is its own (R161). A job that the other engine has done is
skipped without a look at its record, which software may have rewritten since. -/
def State.siphonFind (s : State) (eng : Nat) : Nat → Nat → Option Nat
  | 0, _ => none
  | f + 1, j =>
    if s.jobPosted eng (s.get Reg.SIP_CTL_JOB_SIG) j then
      if (s.ring eng).skips.contains j then s.siphonFind eng f (j + 1)
      else
      let a := ringAddr (s.get Reg.SIP_RING_BASE / 128 * 128) (s.get Reg.SIP_RING_ENTRIES_M1) 128 j
      let op := (memByte s.mem a).toNat % 16
      if (op == 2) == (eng == 1) then some j else s.siphonFind eng f (j + 1)
    else none

/-- An engine has done job `j`: it stands behind it, and the other engine will skip it (R161). -/
def State.passJob (s : State) (eng j : Nat) : State :=
  let s := s.setRing eng { s.ring eng with taken := j + 1, skips := (s.ring eng).skips.filter fun k => decide (j < k) }
  let o := s.ring (1 - eng)
  if j < o.taken then s else s.setRing (1 - eng) { o with skips := o.skips ++ [j] }

/-- The end of a Siphon job (R163): STATUS and job number, counters, the log of a poisoned job, and the DONE_SIG post once STATUS is
visible (R177). -/
def State.endSiphon (s : State) (eng j a doneSig status bad : Nat) : State :=
  let lo := s.heldSeq
  let s := if status = 3 then s.logErr { sev := 2, kind := 4, source := 6, addr := bad / 256 * 256, obj := s.objAt (bad / 256 * 256), job := j, detail := status } else s
  let s := s.writeLogged 6 (a + 120) (leBytes 8 (status + j % 2 ^ 32 * 2 ^ 32))
  let s := s.passJob eng j
  let s := s.count (if eng = 0 then Reg.SIP_PROGRESS_ROUTE_DONE else Reg.SIP_PROGRESS_COMBINE_DONE) 1
  let s := if status = 1 then s else s.puts [(Reg.SIP_LAST_ERR_JOB, j), (Reg.SIP_LAST_ERR_ENGINE, eng), (Reg.SIP_LAST_ERR_STATUS, status)]
  s.endWork (s.heldSince lo) (.post doneSig) (s.postSig doneSig false 1)

/-- An engine has done its job's work and waits for the job's writes (R177, R240). -/
def State.siphonEnding (s : State) (eng : Nat) : Bool :=
  s.ending fun w => match w with
    | .siphon e _ _ _ _ _ => e == eng
    | _ => false

/-- An engine runs its next job, if one is posted: `f` gives the status, the poisoned address of a POISON job, and the state. The job ends
once every write of it is visible (R177). -/
def State.runSiphon (s : State) (eng : Nat) (waits : State → List Nat → Bool) (f : State → Nat → List Nat → Nat × Nat × State) : State :=
  if !s.siphonRuns || s.siphonEnding eng then s
  else match s.siphonFind eng (s.get Reg.SIP_RING_ENTRIES_M1 + 1 + (s.ring eng).skips.length) (s.ring eng).taken with
    | none => s
    | some j =>
      let a := ringAddr (s.get Reg.SIP_RING_BASE / 128 * 128) (s.get Reg.SIP_RING_ENTRIES_M1) 128 j
      let (bs, bad, s') := s.read a 128
      let ws := recWords bs 16
      if waits s ws then s
      else
        let (st, at_, s'') := if bad then (3, a, s') else f s' j ws
        let sig := recBits ws 8 11 0
        s''.endWork (s''.heldSince s.heldSeq) (.siphon eng j a sig st at_) (s''.endSiphon eng j a sig st at_)

/-! ## The expert table (R164) -/

/-- An entry of the expert table. -/
structure Expert where
  valid  : Bool
  dev    : Nat
  list   : Nat
  capOvr : Nat
  rx     : Nat
  ret    : Nat
  sig    : Nat
  deriving DecidableEq, Repr

/-- An entry from its 32 bytes. -/
def expertOf (bs : List Byte) : Expert :=
  let w := wordAt bs
  { valid := bit (w 0) 63, dev := bits (w 0) 55 48, list := bits (w 0) 47 0 / 64 * 64, capOvr := bits (w 1) 63 48, rx := bits (w 1) 47 0
    ret := bits (w 2) 47 0, sig := bits (w 3) 11 0 }

/-- The expert table's entries; one in a poisoned granule is not valid. -/
def State.expertTable (s : State) (a n : Nat) : List Expert × Bool × State :=
  let (bs, bad, s') := s.read a (32 * n)
  ((List.range n).map fun e =>
    let x := expertOf ((bs.drop (32 * e)).take 32)
    if s.poisoned (granuleOf (a + 32 * e)) then { x with valid := false } else x, bad, s')

/-! ## Selection (R165 to R167) -/

/-- A logit, its exact value and its selection key. -/
structure Logit where
  expert : Nat
  raw    : Nat
  key    : FVal
  deriving DecidableEq, Repr

/-- An exact value is finite. -/
def isFinite : FVal → Bool
  | .fin _ _ _ => true
  | _ => false

/-- The key of a logit (R165). -/
def keyOf (l : FVal) (bias : Option Lane) : FVal :=
  match bias with
  | none => l
  | some b => val32 (rounded (addVal l (val32 b))).1

/-- The ineligible keys that R165 counts: NaN, +inf, or -inf made of a finite logit. -/
def badKey (l k : FVal) : Bool :=
  match k with
  | .nan => true
  | .inf neg => !neg || isFinite l
  | .fin _ _ _ => false

/-- A candidate put into a ranking: larger keys first, equal ones by ascending expert (R166). -/
def rankLogit (x : Logit) : List Logit → List Logit
  | [] => [x]
  | y :: l => if ltVal y.key x.key then x :: y :: l else y :: rankLogit x l

/-- One (token, expert) pair on its way through admission. -/
structure Pair where
  carried : Bool
  tok     : Nat
  c1      : Nat
  rank    : Nat
  expert  : Nat
  gate    : Lane
  out     : Nat
  deriving DecidableEq, Repr

/-- The pairs of one token, by rank, and the count of bad keys (R165 to R167). -/
def selectToken (ws : List Nat) (ex : List Expert) (bias : List Nat) (row : List Nat) (t : Nat) : List Pair × Nat :=
  let lt := recBits ws 0 7 4
  let all := (ex.zip row).zipIdx.filterMap fun (x, e) =>
    if x.1.valid then
      let l := decodeElem lt x.2
      let b := if recBits ws 0 14 14 = 1 then some (BitVec.ofNat 32 (bias.getD e 0)) else none
      some (l, (⟨e, x.2, keyOf l b⟩ : Logit))
    else none
  let el := (all.filter fun x => isFinite x.2.key).map (·.2)
  let sel := (el.foldl (fun l x => rankLogit x l) []).take (recBits ws 0 11 8)
  let raws := fun (l : List Logit) => l.map (·.raw)
  let g := fun (x : Logit) =>
    gateOf (recBits ws 0 13 13 == 1) (recBits ws 0 12 12 == 1) lt (raws el) (raws sel) x.raw
  (sel.zipIdx.map fun (x, r) =>
      { carried := false, tok := t, c1 := recBits ws 6 63 48, rank := r, expert := x.expert, gate := g x
        out := recBits ws 10 47 0 + t * recBits ws 11 31 0 },
    (all.filter fun x => badKey x.1 x.2.key).length)

/-- Every token's pairs, the bad keys and unrouted tokens counted, the poisoned address if a logit row is poisoned. -/
def State.selectAll (s : State) (ws : List Nat) (ex : List Expert) (bias : List Nat) : Nat → Nat → List (List Pair) × Option Nat × State
  | 0, _ => ([], none, s)
  | k + 1, t =>
    let lt := recBits ws 0 7 4
    let a := recBits ws 1 47 0 + t * recBits ws 2 31 0
    let (bs, bad, s) := s.read a (ex.length * floatBytes lt)
    if bad then ([], some a, s)
    else
      let (ps, n) := selectToken ws ex bias (unpackElems lt bs ex.length) t
      let s := s.count Reg.SIP_BADLOGIT_COUNT_COUNT n
      let s := if ps = [] then s.count Reg.SIP_UNROUTED_COUNT_COUNT 1 else s
      let (l, b, s) := s.selectAll ws ex bias k (t + 1)
      (ps :: l, b, s)

/-! ## Admission and the sump (R168 to R170) -/

/-- Where a pair ends: FATE of R172 and its slot. -/
structure Placed where
  pair : Pair
  fate : Nat
  slot : Nat
  deriving DecidableEq, Repr

/-- An expert's capacity per wave (R168); 0 means T. -/
def capOf (ws : List Nat) (ex : List Expert) (e : Nat) : Nat :=
  let o := (ex.getD e (expertOf [])).capOvr
  let c := recBits ws 0 63 48
  if o ≠ 0 then o else if c = 0 then recBits ws 0 47 32 else c

/-- Pairs admitted in order while their expert has room: the admitted with their slots, the refused in order, the counts. -/
def fitAll (cap base : Nat → Nat) (fate : Nat) : List Pair → Map Nat → List Placed × List Pair × Map Nat
  | [], m => ([], [], m)
  | p :: ps, m =>
    let n := mapGet 0 m p.expert
    if n < cap p.expert then
      let (a, r, m) := fitAll cap base fate ps (mapSet 0 m p.expert (n + 1))
      (⟨p, fate, base p.expert + n⟩ :: a, r, m)
    else
      let (a, r, m) := fitAll cap base fate ps m
      (a, p :: r, m)

/-- Pairs of rank `r` of every token, in ascending token order. -/
def ofRank (l : List (List Pair)) (r : Nat) : List Pair := l.filterMap fun ps => ps[r]?

/-- The job's mode (R169). -/
def State.sumpMode (s : State) (ws : List Nat) : Nat :=
  let m := recBits ws 0 17 16
  let m := if m = 0 then s.get Reg.SIP_MODE_MODE else m
  if m = 0 then 3 else m

/-- The fate of the sump (R169, R170): wave 2, the carry list, or dropped; the pairs deferred are those written to the list. -/
def sumpFate (mode : Nat) (cap base : Nat → Nat) (sump : List Pair) : List Placed :=
  if mode = 1 then
    let (a, r, _) := fitAll cap base 1 sump []
    a ++ r.map fun p => ⟨p, 3, 0⟩
  else if mode = 2 then
    let own := sump.filter fun p => !p.carried
    (own.take 65535).map (fun p => ⟨p, 2, 0⟩) ++ (own.drop 65535 ++ sump.filter (·.carried)).map fun p => ⟨p, 3, 0⟩
  else sump.map fun p => ⟨p, 3, 0⟩

/-- The pairs of a carry list (R170); a record without VALID is none. -/
def carryPairs (bs : List Byte) (n : Nat) : List Pair :=
  (List.range n).filterMap fun i =>
    let w := wordAt ((bs.drop (32 * i)).take 32)
    if bit (w 0) 63 then
      some { carried := true, tok := bits (w 0) 23 0, c1 := bits (w 0) 47 24, rank := bits (w 1) 42 40, expert := bits (w 1) 39 32
             gate := BitVec.ofNat 32 (w 1), out := bits (w 2) 47 0 }
    else none

/-! ## Lists, statistics and posts (R170 to R173, R176) -/

/-- A dispatch list's bytes (R171). -/
def dispatchList (e wave job : Nat) (l : List Placed) : List Byte :=
  let nc := (l.filter fun p => p.pair.carried).length
  leBytes 8 l.length ++ leBytes 8 (e + 256 * wave + job % 2 ^ 32 * 2 ^ 32) ++ leBytes 8 nc ++ zeroBytes 40 ++
  l.flatMap fun p => leBytes 8 (2 ^ 63 + b2n p.pair.carried * 2 ^ 52 + p.pair.rank % 8 * 2 ^ 48 + p.pair.c1 % 2 ^ 24 * 2 ^ 24 + p.pair.tok % 2 ^ 24)

/-- The address of an expert's list for a wave (R164). -/
def listAddr (x : Expert) (cap wave : Nat) : Nat := if wave = 0 then x.list else x.list + 64 * cdiv (64 + 8 * cap) 64

/-- A carry record's first three words (R170). -/
def carryWords (p : Pair) : List Nat :=
  [2 ^ 63 + p.c1 % 2 ^ 24 * 2 ^ 24 + p.tok % 2 ^ 24, p.gate.toNat + p.expert % 256 * 2 ^ 32 + p.rank % 8 * 2 ^ 40, p.out % 2 ^ 48]

/-- The combine area's bytes (R172): header, 8 entries per token, the carried pairs that were admitted. A pair with no place in a list
has no SLOT; the model gives the field a free value. -/
def combineArea (free : Nat) (t : Nat) (l : List Placed) : List Byte :=
  let carried := l.filter fun p => p.pair.carried && decide (p.fate ≤ 1)
  let ent := fun (k r : Nat) =>
    match l.find? fun p => !p.pair.carried && p.pair.tok == k && p.pair.rank == r with
    | none => 0
    | some p =>
      let slot := if p.fate ≤ 1 then p.slot else (Config.freeWord (free + 8 * k + r)).toNat
      2 ^ 63 + p.fate * 2 ^ 61 + p.pair.expert % 256 * 2 ^ 48 + slot % 2 ^ 16 * 2 ^ 32 + p.pair.gate.toNat
  leBytes 8 t ++ leBytes 8 carried.length ++ zeroBytes 48 ++
  ((List.range t).flatMap fun k => (List.range 8).flatMap fun r => leBytes 8 (ent k r)) ++
  carried.flatMap fun p => wordsToBytes (carryWords p.pair ++ [p.slot % 2 ^ 16])

/-- The statistics of one expert (R176). -/
def statBlock (e : Nat) (l : List Placed) (sel : List Pair) : List Byte :=
  let mine := l.filter fun p => p.pair.expert == e
  let chose := sel.filter fun p => p.expert == e
  let sum := chose.foldl (fun (x : Lane) p => (fadd x p.gate).1) 0
  leBytes 4 (mine.filter fun p => decide (p.fate ≤ 1)).length ++ leBytes 4 chose.length ++ leBytes 4 sum.toNat ++
  leBytes 4 (mine.filter fun p => p.fate == 3).length

/-- A wave handed to the collective unit that serves the expert's device (R173): the listed rows of the source tensor, to be written in slot
order at RX_ADDR, each in 16-bit form. -/
def State.handWave (s : State) (x : Expert) (d : BitVec 1024) (l : List Placed) : State :=
  let ld := max 1 (dListDim d)
  let two := bit (dWord d 0) 58
  let w := floatBytes (dType d)
  let row := fun (p : Placed) =>
    (((dBase d : Int) + ((p.pair.tok : Int) * dStride d ld + (if two then (p.pair.c1 : Int) * dStride d (ld + 1) else 0)) * w) % 2 ^ 48).toNat
  let first := ((l.map (·.slot)).head?).getD 0
  { s with dispatchQ := s.dispatchQ ++
      [⟨x.dev, x.sig, x.rx + first * (2 * dExt d 0), dType d, if dType d = 2 then 2 else 1, dExt d 0, l.map row⟩] }

/-- A wave of an expert is written and posted or handed over (R171, R173, R177). -/
def State.putWave (s : State) (ws : List Nat) (ex : List Expert) (d : BitVec 1024) (job wave e : Nat) (l : List Placed) : State :=
  let x := ex.getD e (expertOf [])
  let mine := l.filter fun p => p.pair.expert == e && p.fate == wave
  let t := s.writeLogged 6 (listAddr x (capOf ws ex e) wave) (dispatchList e wave job mine)
  if x.dev = 0xFF then t.endWork (t.heldSince s.heldSeq) (.post x.sig) (t.postSig x.sig false 1) else t.handWave x d mine

/-- The experts that are VALID, by index. -/
def validExperts (ex : List Expert) : List Nat := (List.range ex.length).filter fun e => (ex.getD e (expertOf [])).valid

/-- What a route job that met poison writes: every list header with COUNT = 0 (R163). -/
def State.emptyLists (s : State) (ws : List Nat) (ex : List Expert) (job mode : Nat) : State :=
  (validExperts ex).foldl (fun s e =>
    let x := ex.getD e (expertOf [])
    let s := s.writeLogged 6 x.list (dispatchList e 0 job [])
    if mode = 1 then s.writeLogged 6 (listAddr x (capOf ws ex e) 1) (dispatchList e 1 job []) else s) s

/-- What a route job writes once every pair has its place. -/
def State.putRoute (s : State) (ws : List Nat) (ex : List Expert) (d : BitVec 1024) (job mode : Nat) (l : List Placed)
    (sel : List (List Pair)) : State :=
  let t := recBits ws 0 47 32
  let count := fun (f : Nat) => (l.filter fun p => p.fate == f).length
  let s := ((s.count Reg.SIP_SECOND_COUNT_COUNT (count 1)).count Reg.SIP_DEFER_COUNT_COUNT (count 2)).count Reg.SIP_DROP_COUNT_COUNT (count 3)
  let s := s.writeLogged 6 (recBits ws 4 47 0 / 64 * 64) (combineArea s.freeCount t l)
  let s := { s with freeCount := s.freeCount + 8 * t }
  let s := if recBits ws 0 15 15 = 1 then
      s.writeLogged 6 (recBits ws 7 47 0 / 64 * 64) ((List.range ex.length).flatMap fun e => statBlock e l sel.flatten)
    else s
  let s := if mode = 2 then
      let def_ := l.filter fun p => p.fate == 2
      s.writeLogged 6 (recBits ws 6 47 0 / 64 * 64)
        (leBytes 8 def_.length ++ zeroBytes 56 ++ def_.flatMap fun p => wordsToBytes (carryWords p.pair ++ [0]))
    else s
  let waves := if mode = 1 then [0, 1] else [0]
  waves.foldl (fun s w => (validExperts ex).foldl (fun s e => s.putWave ws ex d job w e l) s) s

/-- A route record that breaks R163: a reserved OP or type, K, T or T times K out of range. -/
def routeBad (ws : List Nat) : Bool :=
  let k := recBits ws 0 11 8
  let t := recBits ws 0 47 32
  recBits ws 0 3 0 != 1 || !typeIsFloat (recBits ws 0 7 4) || k == 0 || decide (8 < k) || t == 0 || decide (262144 < t * k)

/-- A route job (R163 to R173, R176). -/
def State.route (s : State) (j : Nat) (ws : List Nat) : Nat × Nat × State :=
  if routeBad ws then (2, 0, s)
  else
    let mode := s.sumpMode ws
    let ta := recBits ws 3 47 0 / 64 * 64
    let (ex, badT, s) := s.expertTable ta (recBits ws 0 27 20 + 1)
    let (db, badD, s) := if ex.any (fun x => x.valid && x.dev != 0xFF) then s.read (recBits ws 9 47 0) 128 else ([], false, s)
    let (bb, badB, s) := if recBits ws 0 14 14 = 1 then s.read (recBits ws 5 47 0) (4 * ex.length) else ([], false, s)
    let ca := recBits ws 6 47 0 / 64 * 64
    let cin := recBits ws 0 18 18 == 1
    let (ch, badH, s) := if cin then s.read ca 8 else ([], false, s)
    let nc := min 65535 (leNat ch % 2 ^ 24)
    let (cb, badC, s) := if cin then s.read (ca + 64) (32 * nc) else ([], false, s)
    if badT then (3, ta, s.emptyLists ws ex j mode)
    else if (validExperts ex).length < recBits ws 0 11 8 then (2, 0, s)
    else if badD then (3, recBits ws 9 47 0, s.emptyLists ws ex j mode)
    else if badB then (3, recBits ws 5 47 0, s.emptyLists ws ex j mode)
    else if badH || badC then (3, ca, s.emptyLists ws ex j mode)
    else
      let (sel, bad, s) := s.selectAll ws ex (unpackElems 0 bb ex.length) (recBits ws 0 47 32) 0
      match bad with
      | some a => (3, a, s.emptyLists ws ex j mode)
      | none =>
        let cap := fun e => if (ex.getD e (expertOf [])).valid then capOf ws ex e else 0
        let order := carryPairs cb nc ++ (List.range 8).flatMap (ofRank sel)
        let (a, sump, m) := fitAll cap (fun _ => 0) 0 order []
        let l := a ++ sumpFate mode cap (fun e => mapGet 0 m e) sump
        (1, 0, s.putRoute ws ex (BitVec.ofNat 1024 (leNat db)) j mode l sel)

/-- ROUTE (R168). -/
def execRoute (s : State) : Host.Outcome State Fault Refusal :=
  .next (s.runSiphon 0 (fun _ _ => false) fun s j ws => s.route j ws)

/-! ## Combining (R174, R175) -/

/-- The sticky combine flags (R175). -/
def State.sipFlags (s : State) (f : Flags) : State :=
  let s := if f.invalid then s.put Reg.SIP_FLAGS_INVALID 1 else s
  let s := if f.overflow then s.put Reg.SIP_FLAGS_OVERFLOW 1 else s
  if f.flush then s.put Reg.SIP_FLAGS_FLUSH 1 else s

/-- The gate times a returned row (R174). -/
def gateRow (t : Nat) (gate : Lane) (y : List Nat) : List (Lane × Flags) :=
  y.map fun x =>
    let (u, f) := widen t x
    let (p, g) := fmul gate u
    (p, f.join g)

/-- A row added to the running sum, which starts as none. -/
def accRow (acc : Option (List (Lane × Flags))) (p : List (Lane × Flags)) : Option (List (Lane × Flags)) :=
  match acc with
  | none => some p
  | some a => some (List.zipWith (fun x y => let (r, f) := fadd x.1 y.1; (r, (x.2.join y.2).join f)) a p)

/-- The returned row of an expert at a slot, and whether a granule of it is poisoned. -/
def State.returned (s : State) (ws : List Nat) (e slot : Nat) : Nat × List Nat × Bool × State :=
  let (tb, p, s) := s.read (recBits ws 3 47 0 / 64 * 64 + 32 * e + 16) 8
  let a := bits (leNat tb) 47 0 + slot * recBits ws 5 31 0
  let n := recBits ws 2 47 32 + 1
  let t := recBits ws 0 7 4
  let (bs, q, s) := s.read a (n * floatBytes t)
  (a, unpackElems t bs n, p || q, s)

/-- The gated sum over one token's entries, in rank order (R174). -/
def State.sumToken (s : State) (ws : List Nat) : List Nat → Option (List (Lane × Flags)) → Option (List (Lane × Flags)) × Option Nat × State
  | [], acc => (acc, none, s)
  | e :: es, acc =>
    if bit e 63 && decide (bits e 62 61 ≤ 1) then
      let (a, y, bad, s) := s.returned ws (bits e 55 48) (bits e 47 32)
      if bad then (acc, some a, s)
      else s.sumToken ws es (accRow acc (gateRow (recBits ws 0 7 4) (BitVec.ofNat 32 e) y))
    else s.sumToken ws es acc

/-- A summed row put into an output row: converted, or added to it where `add` holds (R174, R175). -/
def State.putOut (s : State) (ws : List Nat) (add : Bool) (a : Nat) (acc : List (Lane × Flags)) : Option Nat × State :=
  let t := recBits ws 0 11 8
  let ieee := recBits ws 0 13 13 == 1
  let n := acc.length
  let (old, bad, s) := if add then s.read a (n * floatBytes t) else ([], false, s)
  if bad then (some a, s)
  else
    let rs := (acc.zip (unpackElems t old n)).map fun (x, o) =>
      let (v, f) := if add then
          let (u, f) := widen t o
          let (r, g) := fadd u x.1
          (r, f.join g)
        else (x.1, Flags.none)
      let (c, g) := convert t ieee v
      (c, (x.2.join f).join g)
    let s := s.sipFlags (rs.foldl (fun f r => f.join r.2) Flags.none)
    (none, s.writeLogged 6 a (packElems t (rs.map (·.1))))

/-- Token rows `t` on, in ascending order (R174); the poisoned address if one stops the job. -/
def State.combineTokens (s : State) (ws : List Nat) : Nat → Nat → Option Nat × State
  | 0, _ => (none, s)
  | k + 1, t =>
    let ca := recBits ws 4 47 0 / 64 * 64 + 64 + 64 * t
    let (eb, bad, s) := s.read ca 64
    if bad then (some ca, s)
    else
      let (acc, bad, s) := s.sumToken ws (recWords eb 8) none
      match bad with
      | some a => (some a, s)
      | none =>
        let out := recBits ws 1 47 0 + t * recBits ws 2 31 0
        let add := recBits ws 0 12 12 == 1
        let (b, s) := match acc with
          | some l => s.putOut ws add out l
          | none => (none, if add then s else s.writeLogged 6 out (zeroBytes ((recBits ws 2 47 32 + 1) * floatBytes (recBits ws 0 11 8))))
        match b with
        | some a => (some a, s)
        | none => s.combineTokens ws k (t + 1)

/-- Carried records `i` on (R175). -/
def State.combineCarried (s : State) (ws : List Nat) : Nat → Nat → Option Nat × State
  | 0, _ => (none, s)
  | k + 1, i =>
    let ra := recBits ws 4 47 0 / 64 * 64 + 64 + 64 * recBits ws 0 47 32 + 32 * i
    let (rb, bad, s) := s.read ra 32
    if bad then (some ra, s)
    else
      let w := wordAt rb
      if bit (w 0) 63 then
        let (a, y, bad, s) := s.returned ws (bits (w 1) 39 32) (bits (w 3) 15 0)
        if bad then (some a, s)
        else
          let (b, s) := s.putOut ws true (bits (w 2) 47 0) (gateRow (recBits ws 0 7 4) (BitVec.ofNat 32 (w 1)) y)
          match b with
          | some a => (some a, s)
          | none => s.combineCarried ws k (i + 1)
      else s.combineCarried ws k (i + 1)

/-- A combine job (R163, R174, R175). -/
def State.combine (s : State) (ws : List Nat) : Nat × Nat × State :=
  if !typeIsFloat (recBits ws 0 7 4) || !typeIsFloat (recBits ws 0 11 8) || recBits ws 0 47 32 == 0 then (2, 0, s)
  else
    let ca := recBits ws 4 47 0 / 64 * 64
    let (hb, bad, s) := s.read ca 16
    if bad then (3, ca, s)
    else match s.combineTokens ws (recBits ws 0 47 32) 0 with
      | (some a, s) => (3, a, s)
      | (none, s) =>
        match s.combineCarried ws (wordAt hb 1 % 2 ^ 24) 0 with
        | (some a, s) => (3, a, s)
        | (none, s) => (1, 0, s)

/-- COMBINE (R174): waits for its signal word where WAIT_EN is 1. -/
def execCombine (s : State) : Host.Outcome State Fault Refusal :=
  .next (s.runSiphon 1 (fun s ws => recBits ws 8 28 28 == 1 && decide (s.sig (recBits ws 8 27 16) < recBits ws 8 63 32))
    fun s _ ws => s.combine ws)

end Sys2Proof.Machine
end

