-- ==== Sys2Proof/Machine/Held.lean ====
section
/-! DEFINITION. Writes that waited for a frame, and the work that ends once they are visible (R177, R190, R240, R242, R330, R343, R412). -/

namespace Sys2Proof.Machine

open Sys2Proof

/-- A held write tried again: whether it went, and the state (R240). -/
def State.redoWrite (s : State) (h : HeldWrite) : Bool × State :=
  if h.poison then
    if s.populated h.addr && (s.frameOf (pageOf h.addr)).isNone && (s.chooseFrame (pageOf h.addr)).isNone then (false, s)
    else (true, s.storePoisoned h.agent h.twin (granuleOf h.addr) h.bytes)
  else
    let (r, s) := s.writeIn h.agent h.twin h.addr h.bytes
    (decide (r ≠ .noFrame), s)

/-- Held writes are tried again, oldest first; one that finds no frame goes on waiting (R240). -/
def State.retryWrites (s : State) : State :=
  s.heldWrites.foldl (fun s h =>
    match ({ s with heldWrites := s.heldWrites.filter fun x => x.id != h.id }).redoWrite h with
    | (true, t) => t
    | (false, _) => s) s

/-- Work whose last write is visible ends. -/
def State.runEnd (s : State) : WorkEnd → State
  | .post sig => s.postSig sig false 1
  | .siphon eng j a sig status bad => s.endSiphon eng j a sig status bad
  | .coder n recAddr sig status at_ => s.endCoderJob n recAddr sig status at_
  | .flowstone w status => s.completeFls w status
  | .transfer x => s.endTx x
  | .delivered k => s.wholeHere k
  | .job id => s.checkCuJob id
  | .buffer n vl => s.oweCredit n vl
  | .landed i n => s.countLanded i n

/-- Every piece of work none of whose writes waits any longer ends, oldest first. -/
def State.settleEnds (s : State) : State :=
  s.heldEnds.foldl (fun s e => if s.stillHeld e.waits = [] then ({ s with heldEnds := s.heldEnds.erase e }).runEnd e.work else s) s

/-- WAITING_WRITE_RESUME (R240): the writes that wait for a frame are tried, the work that waited for them ends, and FULL falls once
nothing waits. -/
def execWaitingWriteResume (s : State) : Host.Outcome State Fault Refusal := .next s.retryWrites.settleEnds.settleFull

end Sys2Proof.Machine
end

