-- ==== Sys2Proof/Machine/Load.lean ====
section
/-! DEFINITION. The instructions of the L slot (R42): each brings a bundle with itself in that slot to issue. -/

namespace Sys2Proof.Machine

open Sys2Proof

/-- The bundle of an issue with one instruction in its L slot. -/
def withL (i : Issue) (op : BitVec 8) (o : LOps) : Issue :=
  { i with bundle := { i.bundle with lop := op, l := o } }

/-- ld.s: 8 bytes of local memory (R42). -/
def execLdS (ch : Fin 28) (o : LOps) (i : Issue) (s : State) : Host.Outcome State Fault Refusal :=
  .next (s.issue ch.val (withL i 0x01 o))

/-- ld.v: 512 bytes of local memory (R42). -/
def execLdV (ch : Fin 28) (o : LOps) (i : Issue) (s : State) : Host.Outcome State Fault Refusal :=
  .next (s.issue ch.val (withL i 0x02 o))

/-- ld.d: 128 bytes of local memory into a descriptor (R42). -/
def execLdD (ch : Fin 28) (o : LOps) (i : Issue) (s : State) : Host.Outcome State Fault Refusal :=
  .next (s.issue ch.val (withL i 0x03 o))

/-- ld.t starts: the engine carries it on (R42, R136). -/
def execLdT (ch : Fin 28) (o : LOps) (i : Issue) (s : State) : Host.Outcome State Fault Refusal :=
  .next (s.issue ch.val (withL i 0x04 o))

/-- ld.w starts, while the shadow is EMPTY (R42, R43, R77, R181). -/
def execLdW (ch : Fin 28) (o : LOps) (i : Issue) (s : State) : Host.Outcome State Fault Refusal :=
  .next (s.issue ch.val (withL i 0x05 o))

end Sys2Proof.Machine
end

