-- ==== Sys2Proof/Machine/MSlot.lean ====
section
/-! DEFINITION. The instructions of the M slot (R44): each brings a bundle with itself in that slot to issue. -/

namespace Sys2Proof.Machine

open Sys2Proof

/-- The bundle of an issue with one instruction in its M slot. -/
def withM (i : Issue) (op : BitVec 8) (o : MOps) : Issue :=
  { i with bundle := { i.bundle with mop := op, m := o } }

/-- mma is queued (R44, R45, R78). -/
def execMma (ch : Fin 28) (o : MOps) (i : Issue) (s : State) : Host.Outcome State Fault Refusal :=
  .next (s.issue ch.val (withM i 0x01 o))

/-- wsw is queued for both arrays (R44, R78). -/
def execWsw (ch : Fin 28) (o : MOps) (i : Issue) (s : State) : Host.Outcome State Fault Refusal :=
  .next (s.issue ch.val (withM i 0x02 o))

end Sys2Proof.Machine
end

