-- ==== Sys2Proof/Machine/Power.lean ====
section
/-! DEFINITION. Brownout Hold, the power states, and the governor (R453 to R464). -/

namespace Sys2Proof.Machine

open Sys2Proof

/-! ## Brownout (R456 to R461) -/

/-- The warning and resume levels of VDD_CORE, in millivolts (R456). -/
def warnMv : Nat := 705

/-- The level above which a dip may end. -/
def resumeMv : Nat := 720

/-- A running chamber is held (R56, R63). -/
def State.holdChamber (s : State) (n : Nat) : State :=
  if s.chState n = 2 then (s.put (Reg.CHn_STATUS_STATE n) 5).modCh n fun c => { c with savedState := 2 } else s

/-- A held chamber goes on; the time a wait has lasted does not include the Hold (R461). -/
def State.unholdChamber (d : Nat) (s : State) (n : Nat) : State :=
  let s := s.modCh n fun c => { c with waitSince := c.waitSince.map fun w => { w with since := w.since + d } }
  if s.chState n = 5 then (s.put (Reg.CHn_STATUS_STATE n) (s.ch n).savedState).modCh n fun c => { c with savedState := 0 } else s

/-- The sixteenth dip before this one began less than one second ago (R458). -/
def State.sixteenRecent (s : State) : Bool :=
  match s.dips[15]? with
  | some t => decide (s.cycle - t < msCycles 1000)
  | none => false

/-- DIP_START (R456, R458): VDD_CORE falls below the warning level while no dip is in progress. A dip less than one second after the
sixteenth before it latches Hold. -/
def execDipStart (mv : BitVec 16) (s : State) : Host.Outcome State Fault Refusal :=
  .next (
    if warnMv ≤ mv.toNat then s
    else if s.held then { s with vddMv := mv.toNat }
    else
      let latch := s.sixteenRecent
      let s := { s with vddMv := mv.toNat, holdSince := s.cycle, dips := (s.cycle :: s.dips).take 16 }
      let s := (List.range 28).foldl State.holdChamber (s.put Reg.PCR_PSTATE_HOLD 1)
      if latch then (s.put Reg.PCR_BROWN_COUNT_LATCHED 1).logErr { sev := 3, kind := 14, source := 14 } else s)

/-- Limits of work in progress are lengthened by the time in Hold (R461): waits, claims, the step's stall and run-on, heartbeats. -/
def State.shiftTimes (s : State) (d : Nat) : State :=
  { s with
    hels := s.hels.map fun e => (e.1, { e.2 with xrecvAt := e.2.xrecvAt.map (· + d) })
    claims := s.claims.map fun c => { c with waiting := c.waiting.map fun w => { w with since := w.since + d } }
    trv := s.trv.map fun t => { t with idleAt := t.idleAt.map (· + d), failAt := t.failAt + d }
    hbSeenAt := s.hbSeenAt + d }

/-- The device enters a power state: idle and halted chambers report DOZE (R453), and Keep resets every port (R455). -/
def State.enterPower (s : State) (st : Nat) : State :=
  let s := (List.range 28).foldl (fun s n =>
    if s.chState n = 1 ∨ s.chState n = 4 then
      let old := s.chState n
      (s.put (Reg.CHn_STATUS_STATE n) 6).modCh n fun c => { c with savedState := old }
    else s) (s.put Reg.PCR_PSTATE_STATE st)
  if st = 2 then (List.range 8).foldl (fun s n => (s.resetPort n).clearArb (96 + n)) s else s

/-- What waited for the end of Hold takes effect (R461). -/
def State.runDeferred (s : State) (d : Deferred) : State :=
  match d with
  | .ctl n agent pc bad reset stop start args => s.writeCtl n agent pc bad reset stop start args
  | .portReset n => (s.resetPort n).clearArb (96 + n)
  | .latchClose m => s.closeOn m
  | .latchOpen m => s.openOn m (.latchOpen m)
  | .removed m => s.openOn m (.removed m)
  | .wake => s.toRun
  | .pstate st => s.enterPower st
  | .takeover c => s.takeOver c

/-- The device leaves Hold (R457, R461). -/
def State.resume (s : State) : State :=
  let d := s.cycle - s.holdSince
  let ds := s.deferred
  let s := (List.range 28).foldl (State.unholdChamber d) (s.put Reg.PCR_PSTATE_HOLD 0)
  ds.foldl State.runDeferred ({ s with deferred := [] }.shiftTimes d)

/-- DIP_END (R457, R458): VDD_CORE has stayed above the resume level for 10 µs; `minMv` is the lowest value of the dip. A latched Hold
stays. -/
def execDipEnd (minMv mv : BitVec 16) (s : State) : Host.Outcome State Fault Refusal :=
  .next (
    if !s.held || decide (mv.toNat ≤ resumeMv) then s
    else
      let s := { s.put Reg.PCR_BROWN_COUNT_MIN_MV minMv.toNat with vddMv := mv.toNat }
      if s.flag Reg.PCR_BROWN_COUNT_LATCHED then s else (s.countSat Reg.PCR_BROWN_COUNT_COUNT 1).resume)

/-- A RELEASE acts: Hold is latched and VDD_CORE above the resume level (R458). -/
def State.mayRelease (s : State) : Bool := s.flag Reg.PCR_BROWN_COUNT_LATCHED && decide (resumeMv < s.vddMv)

/-- A write of 1 to PCR_BROWN_CTL.RELEASE (R458). -/
def State.brownRelease (s : State) (agent : Nat) : State :=
  if s.mayRelease then
    ({ s with dips := [] }.put Reg.PCR_BROWN_COUNT_LATCHED 0).resume
  else s.violGlb agent 0 0x6400020

/-- BROWN_RELEASE (R458). -/
def execBrownRelease (s : State) : Host.Outcome State Fault Refusal := .next (s.brownRelease 0)

/-! ## Power states (R453 to R455) -/

/-- Offset of PCR_PSTATE. -/
def pstateOff : Nat := 0x6400010

/-- A write of PCR_PSTATE.REQ (R454): RUN brings the device back; 3 acts as RUN and is counted. -/
def State.requestPower (s : State) (agent req : Nat) : State :=
  let s := s.put Reg.PCR_PSTATE_REQ req
  let s := if req = 3 then s.violGlb agent 0 pstateOff else s
  if req = 0 ∨ req = 3 then s.wake else s

/-- PSTATE_REQUEST (R454). -/
def execPstateRequest (req : BitVec 2) (s : State) : Host.Outcome State Fault Refusal := .next (s.requestPower 0 req.toNat)

/-- A coder job of a chamber runs or is posted. -/
def State.coderBusy (s : State) (n : Nat) : Bool :=
  (s.ch n).tableLoad.isSome || (s.ch n).codeJob.isSome ||
  (s.flag (Reg.CHn_XC_CTL_ENABLE n) && s.jobPosted (8 + n) (s.get (Reg.CHn_XC_CTL_JOB_SIG n)) (s.ring (8 + n)).taken)

/-- The conditions of Doze (R454). -/
def State.mayDoze (s : State) : Bool :=
  !s.stepRuns && (List.range 28).all fun n => [0, 1, 4, 6].contains (s.chState n) && (s.ch n).halt.isNone && !s.coderBusy n

/-- A record is posted to a unit's ring and not taken. -/
def State.ringBusy (s : State) (enabled : Bool) (id sig : Nat) : Bool := enabled && s.jobPosted id sig (s.ring id).taken

/-- A Siphon job is posted and not done. -/
def State.siphonBusy (s : State) : Bool :=
  s.flag Reg.SIP_CTL_ENABLE &&
  s.jobPosted 0 (s.get Reg.SIP_CTL_JOB_SIG) (s.get Reg.SIP_PROGRESS_ROUTE_DONE + s.get Reg.SIP_PROGRESS_COMBINE_DONE)

/-- The conditions of Keep (R454). -/
def State.mayKeep (s : State) : Bool :=
  s.mayDoze && !s.isTwin && s.get Reg.GLB_KPR_STATE_STATE == 0 && !s.siphonBusy && s.heldEnds.isEmpty && s.dispatchQ.isEmpty &&
  s.hlcJobs.isEmpty && s.hlcQueue.isEmpty && !s.ringBusy (s.flag Reg.HLC_CTL_ENABLE) 2 (s.get Reg.HLC_CTL_JOB_SIG) &&
  s.flsQueue.isEmpty && s.moves.isEmpty && !s.ringBusy (s.flag Reg.FLS_CTL_ENABLE) 3 (s.get Reg.FLS_CTL_JOB_SIG) &&
  s.cuJobs.isEmpty && s.cuQueue.isEmpty &&
  ([0, 1].all fun u => !s.ringBusy (s.flag (Reg.HGPn_CU_CTL_ENABLE u)) (4 + u) (s.get (Reg.HGPn_CU_CTL_JOB_SIG u))) &&
  slotList.all fun m => s.slotState m != 2 && s.slotState m != 4

/-- IDLE_US in cycles. -/
def State.idleCycles (s : State) : Nat := s.get Reg.PCR_PSTATE_IDLE_US * 1700

/-- A power state is entered, after Hold if the device is in it (R461). -/
def State.enterOrDefer (s : State) (st : Nat) : State :=
  if s.held then { s with deferred := s.deferred ++ [.pstate st] } else s.enterPower st

/-- DOZE_ENTRY (R454). -/
def execDozeEntry (s : State) : Host.Outcome State Fault Refusal :=
  let req := s.get Reg.PCR_PSTATE_REQ
  .next (
    if (req = 1 ∨ req = 2) ∧ s.get Reg.PCR_PSTATE_STATE = 0 ∧ !s.inReset ∧ s.mayDoze ∧ s.idleCycles ≤ s.dozeIdle then s.enterOrDefer 1
    else s)

/-- KEEP_ENTRY (R454, R455). -/
def execKeepEntry (s : State) : Host.Outcome State Fault Refusal :=
  .next (
    if s.get Reg.PCR_PSTATE_REQ = 2 ∧ s.get Reg.PCR_PSTATE_STATE ≠ 2 ∧ !s.inReset ∧ s.mayKeep ∧ s.idleCycles ≤ s.keepIdle then
      s.enterOrDefer 2
    else s)

/-- POWER_STATE_EXIT (R455): work has arrived that the state cannot serve. -/
def execPowerStateExit (s : State) : Host.Outcome State Fault Refusal := .next s.wake

/-! ## The governor (R462 to R464) -/

/-- One limit judged: exceeded, and at least 2 % (or 2 °C) below it. -/
structure Judged where
  above : Bool
  below : Bool
  deriving DecidableEq, Repr

/-- A power or current figure in thousandths against its limit. -/
def judgeFigure (x limit : Nat) : Judged := ⟨decide (1000 * limit < x), decide (100 * x ≤ 98 * (1000 * limit))⟩

/-- A temperature in 1/16 degree against its target. -/
def judgeTemp (x target : Nat) : Judged := ⟨decide (16 * target < x), decide (x + 32 ≤ 16 * target)⟩

/-- The five limits in the order of PCR_GOV_STAT.LIMITER. -/
def State.judge (s : State) (g : GovSample) : List Judged :=
  let icc := judgeFigure g.icc.toNat (s.get Reg.PCR_GOV_CFG_ICC_A)
  [judgeFigure g.pl1.toNat (s.get Reg.PCR_GOV_CFG_PL1_W), judgeFigure g.pl2.toNat (s.get Reg.PCR_GOV_CFG_PL2_W),
   ⟨icc.above || s.iccSeen, icc.below && !s.iccSeen⟩, judgeTemp g.logic.toNat (s.get Reg.PCR_THERM_CFG_LOGIC_TGT),
   judgeTemp g.dram.toNat (s.get Reg.PCR_THERM_CFG_DRAM_TGT)]

/-- One duty lowered by 1, DUTY_H first or DUTY_A first, down to the floor of 8 (R463, R464). -/
def State.lowerDuty (s : State) (hFirst : Bool) : State :=
  let a := s.get Reg.PCR_GOV_STAT_DUTY_A
  let h := s.get Reg.PCR_GOV_STAT_DUTY_H
  if (hFirst ∨ a ≤ 8) ∧ 8 < h then s.put Reg.PCR_GOV_STAT_DUTY_H (h - 1)
  else if 8 < a then s.put Reg.PCR_GOV_STAT_DUTY_A (a - 1) else s

/-- One duty raised by 1, DUTY_A first or DUTY_H first, up to 64. -/
def State.raiseDuty (s : State) (aFirst : Bool) : State :=
  let a := s.get Reg.PCR_GOV_STAT_DUTY_A
  let h := s.get Reg.PCR_GOV_STAT_DUTY_H
  if (aFirst ∨ 64 ≤ h) ∧ a < 64 then s.put Reg.PCR_GOV_STAT_DUTY_A (a + 1)
  else if h < 64 then s.put Reg.PCR_GOV_STAT_DUTY_H (h + 1) else s

/-- Which duty goes first where both a DRAM temperature and another limit are exceeded is open (R464): a free value. -/
def State.lowerFor (s : State) (dram other : Bool) : State :=
  if dram && other then
    let (n, s) := s.drawFree
    let hFirst := (Config.freeWord n).toNat % 2 == 1
    { s.lowerDuty hFirst with govDram := hFirst }
  else { s.lowerDuty dram with govDram := dram }

/-- GOVERNOR_INTERVAL (R464). -/
def execGovernorInterval (g : GovSample) (s : State) : Host.Outcome State Fault Refusal :=
  let js := s.judge g
  let above := fun i => ((js[i]?).map (·.above)).getD false
  let limiter := (List.range 5).foldl (fun x i => x + b2n (above i) * 2 ^ i) 0
  let s := s.puts [(Reg.PCR_GOV_STAT_POWER_W, g.power.toNat / 1000), (Reg.PCR_GOV_STAT_LIMITER, limiter),
    (Reg.PCR_TEMP_LOGIC_DEG, g.logic.toNat), (Reg.PCR_TEMP_DRAM_DEG, g.dram.toNat)]
  let s := { s with iccSeen := false }
  .next (
    if limiter ≠ 0 then s.lowerFor (above 4) (above 0 || above 1 || above 2 || above 3)
    else if js.all (·.below) then s.raiseDuty s.govDram else s)

/-- ICC_EXCESS (R464): a VDD_CORE current sample, in mA, above ICC_A lowers DUTY_A by 8. -/
def execIccExcess (ma : BitVec 24) (s : State) : Host.Outcome State Fault Refusal :=
  .next (
    if 1000 * s.get Reg.PCR_GOV_CFG_ICC_A < ma.toNat then
      { s.put Reg.PCR_GOV_STAT_DUTY_A (max 8 (s.get Reg.PCR_GOV_STAT_DUTY_A - 8)) with iccSeen := true, govDram := false }
    else s)

/-- A word with its fields cut to their ceilings: each field's bits and its ceiling. -/
def clampWord (w : Nat) : List (Nat × Nat × Nat) → Nat
  | [] => w
  | (hi, lo, top) :: fs => clampWord (setBits w hi lo (min (bits w hi lo) top)) fs

/-- Ceilings of PCR_GOV_CFG and of PCR_THERM_CFG (R462). -/
def govCeilings (therm : Bool) : List (Nat × Nat × Nat) :=
  if therm then [(15, 8, 95), (7, 0, 100)] else [(47, 32, 1100), (31, 16, 1000), (15, 0, 850)]

/-- A write of a governor limit register (R462): a limit above its ceiling takes the ceiling, and the write is counted. -/
def State.writeGov (s : State) (agent : Nat) (therm : Bool) (w : Nat) : State :=
  let off := if therm then 0x6400038 else 0x6400028
  let v := clampWord w (govCeilings therm)
  if v = w then s.plainWrite agent off w else (s.violGlb agent 0 off).takeWord off v

/-- GOV_LIMIT_WRITE (R462): PCR_THERM_CFG or PCR_GOV_CFG. -/
def execGovLimitWrite (therm : Bool) (v : Word) (s : State) : Host.Outcome State Fault Refusal := .next (s.writeGov 0 therm v.toNat)

end Sys2Proof.Machine
end

