-- ==== Sys2Proof/Machine/Security.lean ====
section
/-! DEFINITION. Image staging and its flash write, attestation, COLD_RESTART, the JTAG port, and the debug space (R414, R432 to R440). -/

namespace Sys2Proof.Machine

open Sys2Proof

/-! ## Staging an image (R432, R433) -/

/-- MBX_CTL.STATE after BOOT. -/
def allButBoot : List Nat := [1, 2, 3, 4]

/-- A committed image is being written to flash. -/
def State.flashBusy (s : State) : Bool := [2, 3, 4].contains (s.get Reg.SEC_UPD_STATE)

/-- The object may hold a staged image of a size (R432). -/
def State.stagingObj (s : State) (id size : Nat) : Option Obj :=
  (s.objById id).bind fun o => if o.pin && s.restsBonded o && decide (size ≤ o.size) then some o else none

/-- A staging opens: sealed from here on (R433). -/
def State.openStaging (s : State) (size obj base bytes : Nat) : State :=
  ({ s with staging := some ⟨base, bytes⟩ }).puts [(Reg.SEC_UPD_SIZE, size), (Reg.SEC_UPD_OBJ, obj), (Reg.SEC_UPD_STATE, 1)]

/-- Lantern clears the first 64 MiB of the bonded tier, where a staging in recovery lies (R432). -/
def State.clearFirst (s : State) : State :=
  { s with
    mem := memClear s.mem 0 0x4000000
    nonzero := s.nonzero.filter fun e => decide (0x40000 ≤ e.1)
    poison := s.poison.filter fun e => decide (0x40000 ≤ e.1)
    pages := s.pages.filter fun e => decide (32 ≤ e.1) }

/-- IMG_BEGIN (R432). -/
def execImgBegin (s : State) : Host.Outcome State Fault Refusal :=
  .next (s.mailbox 0x20 allButBoot fun s =>
    let size := bits (s.mbxWord 1) 31 0
    let id := bits (s.mbxWord 2) 15 0
    if s.flashBusy then s.respond 4 []
    else if 0x4000000 < size then s.respond 3 []
    else if s.flag Reg.SEC_BOOT_RECOVERY then (s.clearFirst.openStaging size 0 0 0x4000000).respond 0 []
    else match s.stagingObj id size with
      | none => s.respond 3 []
      | some o => (s.openStaging size id o.base o.size).respond 0 [])

/-- IMG_DATA's request: offset and length. -/
def State.imgOffLen (s : State) : Nat × Nat := (bits (s.mbxWord 1) 31 0, bits (s.mbxWord 1) 39 32)

/-- IMG_DATA (R432): the bytes go to the staging; while no frame is free for them, the request waits (R240). -/
def execImgData (s : State) : Host.Outcome State Fault Refusal :=
  .next (s.mailbox 0x21 allButBoot fun s =>
    let (off, len) := s.imgOffLen
    match s.staging with
    | none => s.respond 3 []
    | some g =>
      if s.get Reg.SEC_UPD_STATE ≠ 1 ∨ off % 8 ≠ 0 ∨ len < 1 ∨ 48 < len ∨ s.get Reg.SEC_UPD_SIZE < off + len then s.respond 3 []
      else
        let bs := (wordsToBytes ((List.range 6).map fun i => s.mbxWord (2 + i))).take len
        let (stuck, _, t) := State.lanternWrite 3 { s with staging := none } (g.base + off) bs
        if stuck then s.setFull else ({ t with staging := some g }).respond 0 [])

/-- The bytes of the staged image. -/
def State.stagedReader (s : State) (base off n : Nat) : List Byte := memRead s.mem (base + off) n

/-- A staging ends in FAILED with a cause. -/
def State.failStaging (s : State) (cause : Nat) : State :=
  ({ s with staging := none }).puts [(Reg.SEC_UPD_STATE, 6), (Reg.SEC_UPD_CAUSE, cause)]

/-- IMG_COMMIT (R432, R433): `sigOk` is whether the staged image's signature verifies. -/
def execImgCommit (sigOk : Bool) (s : State) : Host.Outcome State Fault Refusal :=
  .next (s.mailbox 0x22 allButBoot fun s =>
    match s.staging with
    | none => s.respond 3 []
    | some g =>
      if s.get Reg.SEC_UPD_STATE ≠ 1 then s.respond 3 []
      else
        let c := s.verifyImage (s.stagedReader g.base) sigOk true
        if c = 0 then (s.put Reg.SEC_UPD_STATE 2).respond 0 [0] else (s.failStaging c).respond 3 [c])

/-- The bank that is not selected. -/
def State.otherBank (s : State) : Nat := 1 - s.selectedBank

/-- The bank is read back and verified; if it passes, a selector record names it (R433). -/
def State.readBack (s : State) (sigOk readable : Bool) : State :=
  let b := s.otherBank
  let c := s.verifyBank b sigOk readable
  if c = 0 then ({ s.select b with staging := none }).put Reg.SEC_UPD_STATE 5 else s.failStaging c

/-- IMAGE_FLASH_WRITE (R433): the next stage: erase, program, read back; the last one's outcome gives the flash and the signature. -/
def execImageFlashWrite (sigOk readable : Bool) (s : State) : Host.Outcome State Fault Refusal :=
  let b := bankBase s.otherBank
  let st := s.get Reg.SEC_UPD_STATE
  .next (match s.staging with
    | none => s
    | some g =>
      if st = 2 then (s.flashErase b 0x4000000).put Reg.SEC_UPD_STATE 3
      else if st = 3 then
        ({ s with flash := flashProgram s.flash b (s.stagedReader g.base 0 (s.get Reg.SEC_UPD_SIZE)) }).put Reg.SEC_UPD_STATE 4
      else if st = 4 then s.readBack sigOk readable
      else s)

/-! ## Attestation (R435 to R437) -/

/-- BOTTOM_TREE_BUILD (R435, R436): at boot or once a tree is used up, the next top leaf signs a fresh bottom tree. -/
def execBottomTreeBuild (s : State) : Host.Outcome State Fault Refusal :=
  let i := s.nextLeaf
  .next (
    if !s.inService || s.keyBad || s.flag Reg.SEC_ATT_READY || decide (2 ^ 20 ≤ i) then s
    else
      let s := if (i + 1) % 8192 = 0 then s.blow Reg.SEC_ATT_THERMO (s.get Reg.SEC_ATT_THERMO + 1) else s
      let s := { s with attCounter := i + 1, topLeaf := i }
      s.puts [(Reg.SEC_ATT_TOP_NEXT, s.nextLeaf), (Reg.SEC_ATT_BOTTOM_LEFT, 1024), (Reg.SEC_ATT_READY, 1)])

/-- Little-endian bytes of two 32-bit numbers. -/
def pair32 (a b : Nat) : List Byte := leBytes 4 (a % 2 ^ 32) ++ leBytes 4 (b % 2 ^ 32)

/-- The 256-byte body of a report (R437). -/
def State.reportBody (s : State) : List Byte :=
  pair32 1 3540 ++ s.devId ++ s.devKey ++ zeroBytes 4 ++ wordsToBytes ((List.range 4).map fun i => s.mbxWord (1 + i)) ++ s.booted.hash ++
  pair32 (s.get Reg.SEC_BOOT_IMG_SVN) (s.get Reg.SEC_SVN_MIN) ++ wordsToBytes [s.readReg 0, s.readReg 8, s.readReg 0x10] ++
  leBytes 8 (s.get Reg.SEC_DBG_CLOSED + 2 * s.get Reg.SEC_BOOT_FALLBACK + 4 * s.get Reg.SEC_BOOT_BANK) ++
  pair32 s.topLeaf (1024 - s.get Reg.SEC_ATT_BOTTOM_LEFT) ++ wordsToBytes [s.nowUs, s.readReg 0x6800000] ++ zeroBytes 40

/-- A bottom leaf is used; the last one leaves the tree to be built again (R435). -/
def State.useLeaf (s : State) : State :=
  let n := s.get Reg.SEC_ATT_BOTTOM_LEFT - 1
  s.puts [(Reg.SEC_ATT_BOTTOM_LEFT, n), (Reg.SEC_ATT_READY, b2n (n != 0))]

/-- ATTEST (R435, R437): `sig` is the HSS signature over the body that the device's key makes. -/
def execAttest (sig : List Byte) (s : State) : Host.Outcome State Fault Refusal :=
  .next (s.mailbox 0x30 [2, 3, 4] fun s =>
    let a := bits (s.mbxWord 5) 47 0
    if s.flag Reg.SEC_ATT_READY then
      if a % 64 ≠ 0 then s.respond 3 []
      else
        let (stuck, _, t) := State.lanternWrite 16 s a (s.reportBody ++ fitBytes 3284 sig)
        if stuck then s.setFull else t.useLeaf.respond 0 []
    else if s.keyBad || decide (2 ^ 20 ≤ s.nextLeaf) then s.respond 2 [] else s.respond 4 [])

/-! ## COLD_RESTART (R414) -/

/-- COLD_RESTART: accepted in SERVICE only on a HANDED side; it responds and then resets. -/
def execColdRestart (s : State) : Host.Outcome State Fault Refusal :=
  .next (s.mailbox 0x41 (if s.twinState = 6 then [1, 2, 3, 4] else [1, 2, 4]) fun s => (s.respond 0 []).coldReset 7 0)

/-! ## The debug space (R439) -/

/-- An item of a chamber in the debug space: its elements, their bytes, and how one is read and written. -/
structure DebugItem where
  count : Nat
  width : Nat
  get   : Nat → Nat
  set   : Nat → Nat → State

/-- Accumulator memory as 2 × 1,024 × 128 values, array A first. -/
def accPart (i : Nat) : Bool × Nat := (decide (131072 ≤ i), i % 131072)

/-- One lane of a vector register given a value. -/
def setLane (v : Lanes) (i x : Nat) : Lanes := mkLanes fun j => if j = i then BitVec.ofNat 32 x else lane v j

/-- Every field of the register at an offset given its part of a word, whatever its access. -/
def State.setWhole (s : State) (off v : Nat) : State :=
  match regAt off with
  | some r => r.fields.foldl (fun s d => s.putField off d (d.part v)) s
  | none => s

/-- The items of a chamber's state in the order of R24's table. Entries of fewer than eight bits a byte take whole bytes (DESIGN CHOICE,
log entry 71). -/
def State.debugItems (s : State) (n : Nat) : List DebugItem :=
  let c := s.ch n
  let put := fun (c : Chamber) => s.setCh n c
  let half := fun i => if i < 65536 then c.active else c.shadow
  [⟨1, 2, fun _ => s.get (Reg.CHn_STATUS_PC n), fun _ v => s.put (Reg.CHn_STATUS_PC n) v⟩,
   ⟨32, 2, fun i => c.retStack.getD i 0, fun i v => put { c with retStack := c.retStack.set i (v % 4096) }⟩,
   ⟨32, 8, fun i => (c.sregs.toList.getD i 0).toNat,
      fun i v => put { c with sregs := if h : i < 32 then c.sregs.set i (BitVec.ofNat 64 v) else c.sregs }⟩,
   ⟨1, 1, fun _ => c.preds.toNat ||| 1, fun _ v => put { c with preds := BitVec.ofNat 8 v }⟩,
   ⟨16, 128, fun i => (c.dregs.toList.getD i 0).toNat,
      fun i v => put { c with dregs := if h : i < 16 then c.dregs.set i (BitVec.ofNat 1024 v) else c.dregs }⟩,
   ⟨4096, 4, fun i => (lane (c.vregs.toList.getD (i / 128) (mkLanes fun _ => 0)) (i % 128)).toNat,
      fun i v => put { c with vregs :=
        if h : i / 128 < 32 then c.vregs.set (i / 128) (setLane (c.vregs[i / 128]) (i % 128) v) else c.vregs }⟩,
   ⟨32768, 2, fun i => (mapGet 0 c.turn i).toNat, fun i v => put { c with turn := mapSet 0 c.turn i (BitVec.ofNat 16 v) }⟩,
   ⟨262144, 1, fun i => (memByte c.bmem i).toNat, fun i v => put { c with bmem := memSet c.bmem i (BitVec.ofNat 8 v), prog := none }⟩,
   ⟨16777216, 1, fun i => (memByte c.lmem i).toNat, fun i v => put { c with lmem := memSet c.lmem i (BitVec.ofNat 8 v) }⟩,
   ⟨262144, 4, fun i => (mapGet 0 (c.acc (accPart i).1) (accPart i).2).toNat,
      fun i v => put (c.setAcc (accPart i).1 (mapSet 0 (c.acc (accPart i).1) (accPart i).2 (BitVec.ofNat 32 v)))⟩,
   ⟨131072, 2, fun i => mapGet 0 (half i).data (i % 65536),
      fun i v =>
        let w := { half i with data := mapSet 0 (half i).data (i % 65536) (v % 65536) }
        put (if i < 65536 then { c with active := w } else { c with shadow := w })⟩,
   ⟨2, 8, fun i => s.readReg (chBlock n + 0x48 + 8 * i),
      fun i v => s.setWhole (chBlock n + 0x48 + 8 * i) v⟩]

/-- Bytes of an item, to the next 64-byte boundary. -/
def DebugItem.span (d : DebugItem) : Nat := cdiv (d.count * d.width) 64 * 64

/-- The item that an offset lies in, and the offset within it. -/
def findItem : List DebugItem → Nat → Option (DebugItem × Nat)
  | [], _ => none
  | d :: ds, o => if o < d.span then some (d, o) else findItem ds (o - d.span)

/-- A byte of a chamber's debug space; bytes between items read zero. -/
def State.debugByte (s : State) (n off : Nat) : Byte :=
  match findItem (s.debugItems n) off with
  | some (d, o) => if o < d.count * d.width then BitVec.ofNat 8 (d.get (o / d.width) / 256 ^ (o % d.width)) else 0
  | none => 0

/-- A byte of a chamber's debug space written. -/
def State.setDebugByte (s : State) (n off : Nat) (b : Byte) : State :=
  match findItem (s.debugItems n) off with
  | some (d, o) =>
    if o < d.count * d.width then
      let i := o / d.width
      let j := o % d.width
      d.set i (setBits (d.get i) (8 * j + 7) (8 * j) b.toNat)
    else s
  | none => s

/-- Bytes written one after another. -/
def State.setDebugBytes (s : State) (n : Nat) : Nat → List Byte → State
  | _, [] => s
  | off, b :: bs => (s.setDebugByte n off b).setDebugBytes n (off + 1) bs

/-- An access of 8 bytes to the debug space: what it returns, and the state (R439). A chamber answers only while IDLE or HALT; what
Lantern's memory, and units that do not exist, return is open. -/
def State.debugAccess (s : State) (addr : Nat) (write : Option Word) : Word × State :=
  let unit := bits addr 47 40
  let off := bits addr 39 0
  if 0x10 ≤ unit ∧ unit < 0x2C then
    let n := unit - 0x10
    if s.chState n = 1 ∨ s.chState n = 4 then
      match write with
      | some v => (v, s.setDebugBytes n off (leBytes 8 v.toNat))
      | none => (BitVec.ofNat 64 (leNat ((List.range 8).map fun i => s.debugByte n (off + i))), s)
    else (0, s.violCh n 0 0)
  else
    let (k, s) := s.drawFree
    (Config.freeWord k, s)

/-- DEBUG_DATA_ACCESS (R439, R440, R455): a read or a write of SEC_DBG_DATA. -/
def State.debugData (s : State) (write : Option Word) : State :=
  if s.flag Reg.SEC_DBG_CLOSED then
    let s := s.violGlb 4 4 0x6C00050
    if write.isNone then s.reply (zeroBytes 8) false else s
  else
    let a := s.get Reg.SEC_DBG_ADDR_ADDR
    let (v, s) := s.wake.debugAccess a write
    let s := s.puts [(Reg.SEC_DBG_ADDR_ADDR, a + 8), (Reg.SEC_DBG_DATA_DATA, v.toNat)]
    if write.isNone then s.reply (leBytes 8 v.toNat) false else s

/-- DEBUG_DATA_ACCESS. -/
def execDebugDataAccess (write : Option Word) (s : State) : Host.Outcome State Fault Refusal := .next (s.debugData write)

/-! ## JTAG (R438, R440) -/

/-- A public JTAG instruction is selected: none that reaches the debug space is. -/
def State.jtagPublic (s : State) (j : Jtag) : State := ({ s with jtag := j }).put Reg.SEC_DBG_JTAG_ACTIVE 0

/-- BYPASS (R438): the one-bit register, which captures 0, delays what is shifted in by one bit. -/
def execBypass (tdi : Word) (s : State) : Host.Outcome State Fault Refusal :=
  .next (s.jtagPublic { s.jtag with out := 2 * tdi.toNat % 2 ^ 64, extest := false })

/-- IDCODE (R438). -/
def State.idcode (s : State) : Nat :=
  s.get Reg.GLB_ID_STEPPING % 16 * 2 ^ 28 + s.get Reg.GLB_ID_PART * 2 ^ 12 + 0x3A7 * 2 + 1

/-- IDCODE shifts out the device's identity. -/
def execIdcode (s : State) : Host.Outcome State Fault Refusal := .next (s.jtagPublic { s.jtag with out := s.idcode, extest := false })

/-- SAMPLE/PRELOAD (R438): the pins are captured and shifted out, and the boundary register is loaded. -/
def execSamplePreload (pins preload : Nat) (s : State) : Host.Outcome State Fault Refusal :=
  .next (s.jtagPublic ⟨pins, preload, false⟩)

/-- EXTEST (R438): the pins are driven from the boundary register. -/
def execExtest (pins preload : Nat) (s : State) : Host.Outcome State Fault Refusal := .next (s.jtagPublic ⟨pins, preload, true⟩)

/-- JTAG_PRIVATE_ACCESS (R438, R440, R455): an access to the debug space, or zeros once debug is closed. -/
def execJtagPrivateAccess (addr : BitVec 48) (write : Option Word) (s : State) : Host.Outcome State Fault Refusal :=
  .next (
    if s.flag Reg.SEC_DBG_CLOSED then { s with jtag := { s.jtag with out := 0, extest := false } }
    else
      let (v, s) := s.wake.debugAccess addr.toNat write
      ({ s with jtag := { s.jtag with out := v.toNat, extest := false } }).put Reg.SEC_DBG_JTAG_ACTIVE 1)

end Sys2Proof.Machine
end

