-- ==== Sys2Proof/Machine/RegWrite.lean ====
section
/-! DEFINITION. A host's write to any register, by the rules of the register it names: locks, triggers, and the access codes (R6 to R8, and the register rules of every chapter). -/

namespace Sys2Proof.Machine

open Sys2Proof

/-! ## Shared forms -/

/-- A write that a rule ignores and counts in GLB_VIOL_COUNT. -/
def State.refusedWrite (s : State) (off : Nat) : State := s.violGlb 0 0 off

/-- A write of a register that is locked while `locked` holds. -/
def State.lockedWrite (s : State) (locked : Bool) (off w : Nat) : State := if locked then s.lockedOut off else s.plainWrite 0 off w

/-- A write of a unit's CTL register: where ENABLE rises, `rise` runs (R160). -/
def State.writeUnitCtl (s : State) (locked : Bool) (en : FieldRef) (off w : Nat) (rise : State → State) : State :=
  if locked then s.lockedOut off
  else
    let was := s.flag en
    let s := s.plainWrite 0 off w
    if s.flag en && !was then rise s else s

/-- What a write breaks of R8 (R8, R389), for a register whose triggers a rule gives of its own. -/
def State.breaks (s : State) (off w : Nat) : Bool := ((regAt off).map (s.badWrite off w)).getD false

/-! ## Chambers (R59, R65, R66, R153, R200) -/

/-- A write of CHn_CTL (R57 to R59). -/
def State.writeChCtl (s : State) (n off w : Nat) : State :=
  let part := fun (f : FieldRef) => w / 2 ^ f.lo % 2 ^ f.w
  s.ctlArrives n 0 (part (Reg.CHn_CTL_START_PC n)) (s.breaks off w) (part (Reg.CHn_CTL_RESET n) == 1) (part (Reg.CHn_CTL_STOP n) == 1)
    (part (Reg.CHn_CTL_START n) == 1) none

/-- A write of CHn_XC_CTL or CHn_XC_RING (R200). -/
def State.writeCoder (s : State) (n off w : Nat) : State :=
  let en := Reg.CHn_XC_CTL_ENABLE n
  if s.stepRuns || (off == chBlock n + 0x208 && s.flag en) then s.violCh n 0 0
  else if off = chBlock n + 0x200 then s.writeUnitCtl false en off w fun s => s.coderEnable n
  else s.plainWrite 0 off w

/-- A write in the block of chamber `n`. -/
def State.writeChamber (s : State) (n off w : Nat) : State :=
  let s := s.wake
  let r := off - chBlock n
  if r = 0 then s.writeChCtl n off w
  else if s.chState n = 0 ∧ r ≠ 8 ∧ r ≠ 0x10 then s.refusedWrite off
  else if 0x80000 ≤ r ∧ r < 0xC0000 then s.writeBundle 0 n ((r - 0x80000) / 8) (BitVec.ofNat 64 w)
  else if 0x1000 ≤ r ∧ r < 0x2000 then s.writeRegion 0 n ((r - 0x1000) / 8) (BitVec.ofNat 64 w)
  else if r = 0x200 ∨ r = 0x208 then s.writeCoder n off w
  else s.plainWrite 0 off w

/-! ## The GLB_ block (R50, R320) -/

/-- A write of a keeper-service register (R315, R320): on a worker it is ignored and counted. -/
def State.writeKeeperReg (s : State) (off w : Nat) : State :=
  if !s.flag Reg.GLB_ROLE_KEEPER then s.refusedWrite off
  else if off = 0x400 then
    let s := if s.get Reg.GLB_KPR_STATE_STATE = 2 ∧ !bit w 62 then s else s.countBad 0 off w
    s.writeKprCtl 0 (bit w 63) (bit w 62) (bit w 61) (bits w 47 0)
  else s.plainWrite 0 off w

/-- A write in the GLB_ block. -/
def State.writeGlobal (s : State) (off w : Nat) : State :=
  if 0x80000 ≤ off ∧ off < 0x88000 then s.postSig ((off - 0x80000) / 8) true w
  else if 0x400 ≤ off ∧ off ≤ 0x410 then s.writeKeeperReg off w
  else s.plainWrite 0 off w

/-! ## Engines (R180, R235, R267, R298) -/

/-- A write in the SIP_ block (R180). -/
def State.writeSiphon (s : State) (off w : Nat) : State :=
  let r := off - 0x3800000
  if r = 0 then s.writeUnitCtl s.stepRuns Reg.SIP_CTL_ENABLE off w State.siphonEnable
  else if r = 8 then s.lockedWrite (s.stepRuns || s.flag Reg.SIP_CTL_ENABLE) off w
  else if r = 0x10 then s.lockedWrite s.stepRuns off w
  else s.plainWrite 0 off w

/-- A running helictite names an address of deinterleave window `i` in a scalar register: its job uses the window (R235; DEDUCED, log
entry 72). -/
def State.windowUsed (s : State) (i : Nat) : Bool :=
  s.hels.any fun e => e.2.running && e.2.xregs.toList.any fun x => x.toNat / 2 ^ 40 == 0x80 + i

/-- A write in the HLC_ block (R235). -/
def State.writeHelictites (s : State) (off w : Nat) : State :=
  let r := off - 0x3400000
  if r = 0 then s.writeUnitCtl s.stepRuns Reg.HLC_CTL_ENABLE off w State.hlcEnable
  else if r = 8 then s.lockedWrite (s.stepRuns || s.flag Reg.HLC_CTL_ENABLE) off w
  else if 0x100 ≤ r ∧ r < 0x140 then s.lockedWrite (s.stepRuns || s.windowUsed ((r - 0x100) / 16)) off w
  else s.plainWrite 0 off w

/-- A write of FLS_POLICY (R267): a new EPOCH_US divides the time from cold start anew, and no epoch that has passed ends again (R248). -/
def State.writePolicy (s : State) (off w : Nat) : State :=
  let t := s.lockedWrite s.stepRuns off w
  if t.get Reg.FLS_POLICY_EPOCH_US = s.get Reg.FLS_POLICY_EPOCH_US then t else { t with epochAt := s.nowUs }

/-- A write in the FLS_ block (R267). -/
def State.writeFlowstone (s : State) (off w : Nat) : State :=
  let r := off - 0x3000000
  if r = 0 then s.writeUnitCtl s.stepRuns Reg.FLS_CTL_ENABLE off w State.flsEnable
  else if r = 8 then s.lockedWrite (s.stepRuns || s.flag Reg.FLS_CTL_ENABLE) off w
  else if r = 0x10 then s.writePolicy off w
  else s.plainWrite 0 off w

/-- A write of TRV_CTL (R296, R298). -/
def State.writeTraverse (s : State) (off w : Nat) : State :=
  if off = 0x3C00000 ∧ s.stepRuns then (if bit w 0 then (s.countBad 0 off w).trvAbort else s.lockedOut off) else s.plainWrite 0 off w

/-! ## Ports and collective units (R326, R352) -/

/-- A port reset, at resume if the device is in Hold (R326, R368, R461). -/
def State.applyPortReset (s : State) (n : Nat) : State :=
  if s.held then { s with deferred := s.deferred ++ [.portReset n] } else (s.resetPort n).clearArb (96 + n)

/-- A port follows its ENABLE and its REACH: it goes down, or begins to train (R323, R352). -/
def State.followEnable (s : State) (n : Nat) : State :=
  let on := s.flag (Reg.HGPn_CFG_ENABLE n) && s.get (Reg.HGPn_CFG_REACH n) != 3
  let st := s.get (Reg.HGPn_STATUS_STATE n)
  if !on && st != 0 then s.portDown n 0
  else if on && st == 0 && !s.portOff n then s.put (Reg.HGPn_STATUS_STATE n) 1
  else s

/-- A write of HGPn_CFG (R326, R352): while a step plan runs only one whose only 1 bit is RESET acts, and it changes no field. -/
def State.writePortCfg (s : State) (n off w : Nat) : State :=
  if s.stepRuns then (if w = 2 ^ 62 then s.applyPortReset n else s.lockedOut off)
  else
    let s := (s.plainWrite 0 off w).followEnable n
    if bit w 62 then s.applyPortReset n else s

/-- A write of a collective unit's CTL or RING (R341, R352). -/
def State.writeCu (s : State) (u off w : Nat) : State :=
  let en := Reg.HGPn_CU_CTL_ENABLE u
  if off = en.off then
    s.writeUnitCtl s.stepRuns en off w fun s => s.enableRing (4 + u) (s.get (Reg.HGPn_CU_CTL_JOB_SIG u))
  else if off = en.off + 8 then s.lockedWrite (s.stepRuns || s.flag en) off w
  else s.plainWrite 0 off w

/-- A write in an HGPn_ block (R352). -/
def State.writePort (s : State) (n off w : Nat) : State :=
  let r := off % 0x40000
  if r = 0 then s.writePortCfg n off w
  else if 0x10000 ≤ r ∧ r < 0x20000 then s.lockedWrite s.stepRuns off w
  else if 0x20000 ≤ r ∧ (n = 0 ∨ n = 4) then s.writeCu (n / 4) off w
  else s.plainWrite 0 off w

/-- PORT_RESET (R326): a write of HGPn_CFG that keeps its other fields and sets RESET. -/
def execPortReset (port : Fin 8) (s : State) : Host.Outcome State Fault Refusal := .next (s.applyPortReset port.val)

/-! ## Arbiters (R366, R367) -/

/-- A write in the ARB_ block. -/
def State.writeArbiter (s : State) (off w : Nat) : State :=
  let r := off - 0x4800000
  if off = arbNextOff then s.writeArbNext 0 w
  else if 0x10000 ≤ r ∧ r < 0x10A00 ∧ r % 0x40 < 0x28 then
    s.writeArbTable 0 ((r - 0x10000) / 0x100) (r % 0x100 / 0x40) (r % 0x40 / 8) w
  else s.plainWrite 0 off w

/-! ## The host blocks (R412, R413) -/

/-- The landing region that a register belongs to (R412). -/
def landOf (r : Nat) : Option Nat :=
  if 0x100 ≤ r ∧ r < 0x200 then some ((r - 0x100) / 16) else if 0x200 ≤ r ∧ r < 0x280 then some ((r - 0x200) / 8) else none

/-- A write in the HST_ block (R412), to landing region `o` or outside them all: a region's registers are locked while VALID is 1, but
for a write that clears it. -/
def State.writeLand (s : State) (o : Option Nat) (off w : Nat) : State :=
  match o with
  | none => s.plainWrite 0 off w
  | some i =>
    let clears := off == (Reg.HST_LANDi_CFG_VALID i).off && !bit w (Reg.HST_LANDi_CFG_VALID i).lo
    s.lockedWrite (s.flag (Reg.HST_LANDi_CFG_VALID i) && !clears) off w

/-- A write in the HST_ block (R412). -/
def State.writeHost (s : State) (off w : Nat) : State := s.writeLand (landOf (off - 0x5000000)) off w

/-- A write in the MBX_ block (R413). -/
def State.writeMailbox (s : State) (off w : Nat) : State := s.lockedWrite (s.flag Reg.MBX_CTL_REQ && decide (off < 0x5400040)) off w

/-! ## Power and debug (R440, R454, R458, R462) -/

/-- A write in the PCR_ block. -/
def State.writePower (s : State) (off w : Nat) : State :=
  if off = pstateOff then
    (if bits w 1 0 = 3 then s.takeWord off w else s.plainWrite 0 off w).requestPower 0 (bits w 1 0)
  else if off = 0x6400020 then
    if bit w 0 then (if s.mayRelease then s.countBad 0 off w else s).brownRelease 0 else s.countBad 0 off w
  else if off = 0x6400028 then s.writeGov 0 false w
  else if off = 0x6400038 then s.writeGov 0 true w
  else s.plainWrite 0 off w

/-- A write in the SEC_ block. -/
def State.writeSecurity (s : State) (off w : Nat) : State :=
  if off = 0x6C00048 ∧ s.flag Reg.SEC_DBG_CLOSED then s.violGlb 4 4 off
  else if off = 0x6C00050 then s.debugData (some (BitVec.ofNat 64 w))
  else s.plainWrite 0 off w

/-! ## Every register -/

/-- A host's write of a word to an offset of register space. -/
def State.hostWrite (s : State) (off w : Nat) : State :=
  if off < 0x1000000 then s.writeGlobal off w
  else if off < 0x2C00000 then s.writeChamber ((off - 0x1000000) / 0x100000) off w
  else if 0x3000000 ≤ off ∧ off < 0x3400000 then s.writeFlowstone off w
  else if 0x3400000 ≤ off ∧ off < 0x3800000 then s.writeHelictites off w
  else if 0x3800000 ≤ off ∧ off < 0x3C00000 then s.writeSiphon off w
  else if 0x3C00000 ≤ off ∧ off < 0x4000000 then s.writeTraverse off w
  else if 0x4000000 ≤ off ∧ off < 0x4200000 then s.writePort ((off - 0x4000000) / 0x40000) off w
  else if 0x4800000 ≤ off ∧ off < 0x4C00000 then s.writeArbiter off w
  else if 0x5000000 ≤ off ∧ off < 0x5400000 then s.writeHost off w
  else if 0x5400000 ≤ off ∧ off < 0x5800000 then s.writeMailbox off w
  else if 0x6400000 ≤ off ∧ off < 0x6800000 then s.writePower off w
  else if 0x6C00000 ≤ off ∧ off < 0x7000000 then s.writeSecurity off w
  else s.plainWrite 0 off w

/-- A host's read of a register: what it returns goes back; one that breaks R6 or meets nothing reads zero and is counted (R6, R18,
R390). A read of SEC_DBG_DATA is an access to the debug space; one of SEC_DBG_ADDR is counted once debug is closed (R439, R440). -/
def State.hostRead (s : State) (off size : Nat) : State :=
  if reservedAccess off size then (s.violGlb 0 1 off).reply (zeroBytes size) false
  else if off = 0x6C00050 then s.debugData none
  else
    let s := if off = 0x6C00048 ∧ s.flag Reg.SEC_DBG_CLOSED then s.violGlb 4 4 off else s
    s.reply (leBytes 8 (s.readReg off)) false

/-! ## BAR2 (R391, R395, R398) -/

/-- What lies at an offset of BAR2: a component register, a word of the MSI-X table, the pending-bit array, or nothing. -/
inductive Bar2Place where
  | component | table (i : Nat) | pending | none
  deriving DecidableEq, Repr

/-- The layout of BAR2 (R395), by 64-bit words. -/
def bar2Place (off : Nat) : Bar2Place :=
  if off < 0x10000 then .component else if off < 0x10040 then .table ((off - 0x10000) / 8)
  else if off / 8 = 0x10800 / 8 then .pending else .none

/-- The word of BAR2 that an offset lies in. -/
def State.bar2Word (s : State) (off : Nat) : Nat :=
  match bar2Place off with
  | .component => (Config.component (off / 8) (mapFind s.component (off / 8))).toNat
  | .table i => mapGet 0 s.irq.table i
  | .pending => s.irq.pba
  | .none => 0

/-- An access of BAR2 has 4 or 8 bytes, aligned to its size (PRESUMED, log entry 85). -/
def bar2Fits (off size : Nat) : Bool := (size == 4 || size == 8) && off % size == 0

/-- A word of which an aligned part of some bytes is replaced. -/
def mergeWord (old off size v : Nat) : Nat :=
  if size = 8 then v else if off % 8 = 0 then old / 2 ^ 32 * 2 ^ 32 + v % 2 ^ 32 else v % 2 ^ 32 * 2 ^ 32 + old % 2 ^ 32

/-- A read of BAR2; one of a reserved offset reads zero and is counted (R389, R395). -/
def State.bar2Read (s : State) (off size : Nat) : State :=
  if bar2Place off = .none || !bar2Fits off size then (s.violGlb 0 1 off).reply (zeroBytes size) false
  else s.reply ((leBytes 8 (s.bar2Word off)).drop (off % 8) |>.take size) false

/-- A write of BAR2: the pending bits are read only; one of a reserved offset is ignored and counted (R389, R395). -/
def State.bar2Write (s : State) (off size v : Nat) : State :=
  if !bar2Fits off size then s.violGlb 0 1 off
  else match bar2Place off with
    | .component => { s with component := mapInsert s.component (off / 8) (mergeWord ((mapFind s.component (off / 8)).getD 0) off size v) }
    | .table i => { s with irq := s.irq.writeWord i (mergeWord (mapGet 0 s.irq.table i) off size v) }
    | .pending => s
    | .none => s.violGlb 0 1 off

/-- A granularity from 256 bytes to 16 KiB, and 1, 2, 4, 8, 16, 3, 6 or 12 ways, in CXL's codes (R391). -/
def decoderFits (gran ways : Nat) : Bool := decide (gran ≤ 6) && (decide (ways ≤ 4) || decide (8 ≤ ways ∧ ways ≤ 10))

/-- An HDM decoder programmed; it is committed where R391 supports what it asks for. -/
def State.setDecoder (s : State) (d : Fin 2) (base size gran ways : Nat) (commit : Bool) : State :=
  { s with decoders := s.decoders.set d ⟨base, size, gran, ways, commit && decoderFits gran ways⟩ }

/-- A host's access to its register windows (R6, R389, R394, R395); only the low 17 bits of the offset name a place in BAR2. BAR2 works over any
link that is up (R393). -/
def State.hostAccess (s : State) (off : Nat) : RegAccess → State
  | .bar2Read size => s.bar2Read (off % 2 ^ 17) size.toNat
  | .bar2Write size v => s.bar2Write (off % 2 ^ 17) size.toNat v.toNat
  | .decoder d base size gran ways commit => s.setDecoder d base.toNat size.toNat gran.toNat ways.toNat commit
  | .read size => s.hostRead off size.toNat
  | .write size v => if size.toNat ≠ 8 ∨ off % 8 ≠ 0 then s.violGlb 0 1 off else s.hostWrite off v.toNat

/-- REGISTER_WRITE (R6 to R8). The operation table has no row for a read, which comes with this one (log entry 19). -/
def execRegisterWrite (off : BitVec 27) (acc : RegAccess) (s : State) : Host.Outcome State Fault Refusal :=
  .next (s.hostAccess off.toNat acc)

end Sys2Proof.Machine
end

