-- ==== Sys2Proof/Machine/Scalar.lean ====
section
/-! DEFINITION. The instructions of the S slot (R41): each brings a bundle with itself in that slot to issue. -/

namespace Sys2Proof.Machine

open Sys2Proof

/-- The bundle of an issue with one instruction in its S slot. -/
def withS (i : Issue) (op : BitVec 8) (o : SOps) : Issue :=
  { i with bundle := { i.bundle with sop := op, s := o } }

/-- add (R41). -/
def execAdd (ch : Fin 28) (o : SOps) (i : Issue) (s : State) : Host.Outcome State Fault Refusal :=
  .next (s.issue ch.val (withS i 0x01 o))

/-- sub (R41). -/
def execSub (ch : Fin 28) (o : SOps) (i : Issue) (s : State) : Host.Outcome State Fault Refusal :=
  .next (s.issue ch.val (withS i 0x02 o))

/-- and (R41). -/
def execAnd (ch : Fin 28) (o : SOps) (i : Issue) (s : State) : Host.Outcome State Fault Refusal :=
  .next (s.issue ch.val (withS i 0x03 o))

/-- or (R41). -/
def execOr (ch : Fin 28) (o : SOps) (i : Issue) (s : State) : Host.Outcome State Fault Refusal :=
  .next (s.issue ch.val (withS i 0x04 o))

/-- xor (R41). -/
def execXor (ch : Fin 28) (o : SOps) (i : Issue) (s : State) : Host.Outcome State Fault Refusal :=
  .next (s.issue ch.val (withS i 0x05 o))

/-- shl by B[5:0] (R41). -/
def execShl (ch : Fin 28) (o : SOps) (i : Issue) (s : State) : Host.Outcome State Fault Refusal :=
  .next (s.issue ch.val (withS i 0x06 o))

/-- shr by B[5:0] (R41). -/
def execShr (ch : Fin 28) (o : SOps) (i : Issue) (s : State) : Host.Outcome State Fault Refusal :=
  .next (s.issue ch.val (withS i 0x07 o))

/-- sra by B[5:0] (R41). -/
def execSra (ch : Fin 28) (o : SOps) (i : Issue) (s : State) : Host.Outcome State Fault Refusal :=
  .next (s.issue ch.val (withS i 0x08 o))

/-- mul: low 64 bits (R41). -/
def execMul (ch : Fin 28) (o : SOps) (i : Issue) (s : State) : Host.Outcome State Fault Refusal :=
  .next (s.issue ch.val (withS i 0x09 o))

/-- min, signed (R41). -/
def execMin (ch : Fin 28) (o : SOps) (i : Issue) (s : State) : Host.Outcome State Fault Refusal :=
  .next (s.issue ch.val (withS i 0x0A o))

/-- max, signed (R41). -/
def execMax (ch : Fin 28) (o : SOps) (i : Issue) (s : State) : Host.Outcome State Fault Refusal :=
  .next (s.issue ch.val (withS i 0x0B o))

/-- li.l: IMM32 sign-extended (R41). -/
def execLiL (ch : Fin 28) (o : SOps) (i : Issue) (s : State) : Host.Outcome State Fault Refusal :=
  .next (s.issue ch.val (withS i 0x0C o))

/-- li.h: the high half replaced (R41). -/
def execLiH (ch : Fin 28) (o : SOps) (i : Issue) (s : State) : Host.Outcome State Fault Refusal :=
  .next (s.issue ch.val (withS i 0x0D o))

/-- cmp.eq (R41). -/
def execCmpEq (ch : Fin 28) (o : SOps) (i : Issue) (s : State) : Host.Outcome State Fault Refusal :=
  .next (s.issue ch.val (withS i 0x10 o))

/-- cmp.ne (R41). -/
def execCmpNe (ch : Fin 28) (o : SOps) (i : Issue) (s : State) : Host.Outcome State Fault Refusal :=
  .next (s.issue ch.val (withS i 0x11 o))

/-- cmp.lt, signed (R41). -/
def execCmpLt (ch : Fin 28) (o : SOps) (i : Issue) (s : State) : Host.Outcome State Fault Refusal :=
  .next (s.issue ch.val (withS i 0x12 o))

/-- cmp.ge, signed (R41). -/
def execCmpGe (ch : Fin 28) (o : SOps) (i : Issue) (s : State) : Host.Outcome State Fault Refusal :=
  .next (s.issue ch.val (withS i 0x13 o))

/-- cmp.ltu (R41). -/
def execCmpLtu (ch : Fin 28) (o : SOps) (i : Issue) (s : State) : Host.Outcome State Fault Refusal :=
  .next (s.issue ch.val (withS i 0x14 o))

/-- cmp.geu (R41). -/
def execCmpGeu (ch : Fin 28) (o : SOps) (i : Issue) (s : State) : Host.Outcome State Fault Refusal :=
  .next (s.issue ch.val (withS i 0x15 o))

/-- pand (R41). -/
def execPand (ch : Fin 28) (o : SOps) (i : Issue) (s : State) : Host.Outcome State Fault Refusal :=
  .next (s.issue ch.val (withS i 0x18 o))

/-- por (R41). -/
def execPor (ch : Fin 28) (o : SOps) (i : Issue) (s : State) : Host.Outcome State Fault Refusal :=
  .next (s.issue ch.val (withS i 0x19 o))

/-- pxor (R41). -/
def execPxor (ch : Fin 28) (o : SOps) (i : Issue) (s : State) : Host.Outcome State Fault Refusal :=
  .next (s.issue ch.val (withS i 0x1A o))

/-- dsc.base: BASE replaced (R41, R133). -/
def execDscBase (ch : Fin 28) (o : SOps) (i : Issue) (s : State) : Host.Outcome State Fault Refusal :=
  .next (s.issue ch.val (withS i 0x20 o))

/-- dsc.add: BASE added to modulo 2^48 (R41, R133). -/
def execDscAdd (ch : Fin 28) (o : SOps) (i : Issue) (s : State) : Host.Outcome State Fault Refusal :=
  .next (s.issue ch.val (withS i 0x21 o))

/-- rd.cyc: ACLK cycles since the chamber's last reset (R41). -/
def execRdCyc (ch : Fin 28) (o : SOps) (i : Issue) (s : State) : Host.Outcome State Fault Refusal :=
  .next (s.issue ch.val (withS i 0x24 o))

end Sys2Proof.Machine
end

