-- ==== Sys2Proof/Machine/Store.lean ====
section
/-! DEFINITION. The instructions of the T slot (R48): each brings a bundle with itself in that slot to issue. -/

namespace Sys2Proof.Machine

open Sys2Proof

/-- The bundle of an issue with one instruction in its T slot. -/
def withT (i : Issue) (op : BitVec 8) (o : TOps) : Issue :=
  { i with bundle := { i.bundle with top := op, t := o } }

/-- st.s (R48). -/
def execStS (ch : Fin 28) (o : TOps) (i : Issue) (s : State) : Host.Outcome State Fault Refusal :=
  .next (s.issue ch.val (withT i 0x01 o))

/-- st.v (R48). -/
def execStV (ch : Fin 28) (o : TOps) (i : Issue) (s : State) : Host.Outcome State Fault Refusal :=
  .next (s.issue ch.val (withT i 0x02 o))

/-- st.d (R48). -/
def execStD (ch : Fin 28) (o : TOps) (i : Issue) (s : State) : Host.Outcome State Fault Refusal :=
  .next (s.issue ch.val (withT i 0x03 o))

/-- st.t starts (R48, R138). -/
def execStT (ch : Fin 28) (o : TOps) (i : Issue) (s : State) : Host.Outcome State Fault Refusal :=
  .next (s.issue ch.val (withT i 0x04 o))

/-- st.add starts (R48, R143). -/
def execStAdd (ch : Fin 28) (o : TOps) (i : Issue) (s : State) : Host.Outcome State Fault Refusal :=
  .next (s.issue ch.val (withT i 0x05 o))

/-- st.acc starts (R48, R120, R121). -/
def execStAcc (ch : Fin 28) (o : TOps) (i : Issue) (s : State) : Host.Outcome State Fault Refusal :=
  .next (s.issue ch.val (withT i 0x06 o))

/-- st.acc.add starts (R48, R121, R143). -/
def execStAccAdd (ch : Fin 28) (o : TOps) (i : Issue) (s : State) : Host.Outcome State Fault Refusal :=
  .next (s.issue ch.val (withT i 0x07 o))

/-- mv starts (R48, R496). -/
def execMv (ch : Fin 28) (o : TOps) (i : Issue) (s : State) : Host.Outcome State Fault Refusal :=
  .next (s.issue ch.val (withT i 0x08 o))

end Sys2Proof.Machine
end

