-- ==== Sys2Proof/Machine/Vector.lean ====
section
/-! DEFINITION. The instructions of the V slot (R46): each brings a bundle with itself in that slot to issue. -/

namespace Sys2Proof.Machine

open Sys2Proof

/-- The bundle of an issue with one instruction in its V slot. -/
def withV (i : Issue) (op : BitVec 8) (o : VOps) : Issue :=
  { i with bundle := { i.bundle with vop := op, v := o } }

/-- vadd.f32 (R46, R113). -/
def execVaddF32 (ch : Fin 28) (o : VOps) (i : Issue) (s : State) : Host.Outcome State Fault Refusal :=
  .next (s.issue ch.val (withV i 0x01 o))

/-- vsub.f32 (R46, R113). -/
def execVsubF32 (ch : Fin 28) (o : VOps) (i : Issue) (s : State) : Host.Outcome State Fault Refusal :=
  .next (s.issue ch.val (withV i 0x02 o))

/-- vmul.f32 (R46, R113). -/
def execVmulF32 (ch : Fin 28) (o : VOps) (i : Issue) (s : State) : Host.Outcome State Fault Refusal :=
  .next (s.issue ch.val (withV i 0x03 o))

/-- vfma.f32, one rounding (R46, R113). -/
def execVfmaF32 (ch : Fin 28) (o : VOps) (i : Issue) (s : State) : Host.Outcome State Fault Refusal :=
  .next (s.issue ch.val (withV i 0x04 o))

/-- vmax.f32 (R46, R113). -/
def execVmaxF32 (ch : Fin 28) (o : VOps) (i : Issue) (s : State) : Host.Outcome State Fault Refusal :=
  .next (s.issue ch.val (withV i 0x05 o))

/-- vmin.f32 (R46, R113). -/
def execVminF32 (ch : Fin 28) (o : VOps) (i : Issue) (s : State) : Host.Outcome State Fault Refusal :=
  .next (s.issue ch.val (withV i 0x06 o))

/-- vadd.i32 (R46). -/
def execVaddI32 (ch : Fin 28) (o : VOps) (i : Issue) (s : State) : Host.Outcome State Fault Refusal :=
  .next (s.issue ch.val (withV i 0x08 o))

/-- vsub.i32 (R46). -/
def execVsubI32 (ch : Fin 28) (o : VOps) (i : Issue) (s : State) : Host.Outcome State Fault Refusal :=
  .next (s.issue ch.val (withV i 0x09 o))

/-- vand (R46). -/
def execVand (ch : Fin 28) (o : VOps) (i : Issue) (s : State) : Host.Outcome State Fault Refusal :=
  .next (s.issue ch.val (withV i 0x0A o))

/-- vor (R46). -/
def execVor (ch : Fin 28) (o : VOps) (i : Issue) (s : State) : Host.Outcome State Fault Refusal :=
  .next (s.issue ch.val (withV i 0x0B o))

/-- vxor (R46). -/
def execVxor (ch : Fin 28) (o : VOps) (i : Issue) (s : State) : Host.Outcome State Fault Refusal :=
  .next (s.issue ch.val (withV i 0x0C o))

/-- vcmp.lt.f32 (R46, R113). -/
def execVcmpLtF32 (ch : Fin 28) (o : VOps) (i : Issue) (s : State) : Host.Outcome State Fault Refusal :=
  .next (s.issue ch.val (withV i 0x10 o))

/-- vcmp.eq.f32 (R46, R113). -/
def execVcmpEqF32 (ch : Fin 28) (o : VOps) (i : Issue) (s : State) : Host.Outcome State Fault Refusal :=
  .next (s.issue ch.val (withV i 0x11 o))

/-- vsel (R46). -/
def execVsel (ch : Fin 28) (o : VOps) (i : Issue) (s : State) : Host.Outcome State Fault Refusal :=
  .next (s.issue ch.val (withV i 0x12 o))

/-- vbcast (R46). -/
def execVbcast (ch : Fin 28) (o : VOps) (i : Issue) (s : State) : Host.Outcome State Fault Refusal :=
  .next (s.issue ch.val (withV i 0x14 o))

/-- vred.add.f32, by the pairwise tree (R46, R114). -/
def execVredAddF32 (ch : Fin 28) (o : VOps) (i : Issue) (s : State) : Host.Outcome State Fault Refusal :=
  .next (s.issue ch.val (withV i 0x15 o))

/-- vred.max.f32, by the pairwise tree (R46, R114). -/
def execVredMaxF32 (ch : Fin 28) (o : VOps) (i : Issue) (s : State) : Host.Outcome State Fault Refusal :=
  .next (s.issue ch.val (withV i 0x16 o))

/-- vrcp (R46, R115). -/
def execVrcp (ch : Fin 28) (o : VOps) (i : Issue) (s : State) : Host.Outcome State Fault Refusal :=
  .next (s.issue ch.val (withV i 0x18 o))

/-- vrsqrt (R46, R115). -/
def execVrsqrt (ch : Fin 28) (o : VOps) (i : Issue) (s : State) : Host.Outcome State Fault Refusal :=
  .next (s.issue ch.val (withV i 0x19 o))

/-- vexp (R46, R115). -/
def execVexp (ch : Fin 28) (o : VOps) (i : Issue) (s : State) : Host.Outcome State Fault Refusal :=
  .next (s.issue ch.val (withV i 0x1A o))

/-- vlog (R46, R115). -/
def execVlog (ch : Fin 28) (o : VOps) (i : Issue) (s : State) : Host.Outcome State Fault Refusal :=
  .next (s.issue ch.val (withV i 0x1B o))

/-- cvt.sat (R46, R117, R118). -/
def execCvtSat (ch : Fin 28) (o : VOps) (i : Issue) (s : State) : Host.Outcome State Fault Refusal :=
  .next (s.issue ch.val (withV i 0x20 o))

/-- cvt.ieee (R46, R117, R118). -/
def execCvtIeee (ch : Fin 28) (o : VOps) (i : Issue) (s : State) : Host.Outcome State Fault Refusal :=
  .next (s.issue ch.val (withV i 0x21 o))

/-- cvt.up (R46, R119). -/
def execCvtUp (ch : Fin 28) (o : VOps) (i : Issue) (s : State) : Host.Outcome State Fault Refusal :=
  .next (s.issue ch.val (withV i 0x22 o))

/-- trn.w: a row of a turn tile (R46, R150). -/
def execTrnW (ch : Fin 28) (o : VOps) (i : Issue) (s : State) : Host.Outcome State Fault Refusal :=
  .next (s.issue ch.val (withV i 0x28 o))

/-- trn.r: a column of a turn tile (R46, R47, R150). -/
def execTrnR (ch : Fin 28) (o : VOps) (i : Issue) (s : State) : Host.Outcome State Fault Refusal :=
  .next (s.issue ch.val (withV i 0x29 o))

/-- mov.acc: an accumulator row (R33, R46, R92). -/
def execMovAcc (ch : Fin 28) (o : VOps) (i : Issue) (s : State) : Host.Outcome State Fault Refusal :=
  .next (s.issue ch.val (withV i 0x2C o))

end Sys2Proof.Machine
end

