-- ==== Sys2Proof/Machine/Dispatch.lean ====
section
/-! DEFINITION. The dispatch: one arm per command of the operation table. -/

namespace Sys2Proof.Machine

open Sys2Proof

def exec (i : Instr) (s : State) : Host.Outcome State Fault Refusal :=
  match i with
  | .nop ch slot u => Sys2Proof.Machine.execNop ch slot u s
  | .br ch o u => Sys2Proof.Machine.execBr ch o u s
  | .brS ch o u => Sys2Proof.Machine.execBrS ch o u s
  | .call ch o u => Sys2Proof.Machine.execCall ch o u s
  | .ret ch o u => Sys2Proof.Machine.execRet ch o u s
  | .halt ch o u => Sys2Proof.Machine.execHalt ch o u s
  | .postSigSet ch o u => Sys2Proof.Machine.execPostSigSet ch o u s
  | .postSigAdd ch o u => Sys2Proof.Machine.execPostSigAdd ch o u s
  | .waitSigGe ch o u => Sys2Proof.Machine.execWaitSigGe ch o u s
  | .waitSigEq ch o u => Sys2Proof.Machine.execWaitSigEq ch o u s
  | .waitTag ch o u => Sys2Proof.Machine.execWaitTag ch o u s
  | .fence ch o u => Sys2Proof.Machine.execFence ch o u s
  | .add ch o u => Sys2Proof.Machine.execAdd ch o u s
  | .sub ch o u => Sys2Proof.Machine.execSub ch o u s
  | .and ch o u => Sys2Proof.Machine.execAnd ch o u s
  | .or ch o u => Sys2Proof.Machine.execOr ch o u s
  | .xor ch o u => Sys2Proof.Machine.execXor ch o u s
  | .shl ch o u => Sys2Proof.Machine.execShl ch o u s
  | .shr ch o u => Sys2Proof.Machine.execShr ch o u s
  | .sra ch o u => Sys2Proof.Machine.execSra ch o u s
  | .mul ch o u => Sys2Proof.Machine.execMul ch o u s
  | .min ch o u => Sys2Proof.Machine.execMin ch o u s
  | .max ch o u => Sys2Proof.Machine.execMax ch o u s
  | .liL ch o u => Sys2Proof.Machine.execLiL ch o u s
  | .liH ch o u => Sys2Proof.Machine.execLiH ch o u s
  | .cmpEq ch o u => Sys2Proof.Machine.execCmpEq ch o u s
  | .cmpNe ch o u => Sys2Proof.Machine.execCmpNe ch o u s
  | .cmpLt ch o u => Sys2Proof.Machine.execCmpLt ch o u s
  | .cmpGe ch o u => Sys2Proof.Machine.execCmpGe ch o u s
  | .cmpLtu ch o u => Sys2Proof.Machine.execCmpLtu ch o u s
  | .cmpGeu ch o u => Sys2Proof.Machine.execCmpGeu ch o u s
  | .pand ch o u => Sys2Proof.Machine.execPand ch o u s
  | .por ch o u => Sys2Proof.Machine.execPor ch o u s
  | .pxor ch o u => Sys2Proof.Machine.execPxor ch o u s
  | .dscBase ch o u => Sys2Proof.Machine.execDscBase ch o u s
  | .dscAdd ch o u => Sys2Proof.Machine.execDscAdd ch o u s
  | .rdCyc ch o u => Sys2Proof.Machine.execRdCyc ch o u s
  | .ldS ch o u => Sys2Proof.Machine.execLdS ch o u s
  | .ldV ch o u => Sys2Proof.Machine.execLdV ch o u s
  | .ldD ch o u => Sys2Proof.Machine.execLdD ch o u s
  | .ldT ch o u => Sys2Proof.Machine.execLdT ch o u s
  | .ldW ch o u => Sys2Proof.Machine.execLdW ch o u s
  | .mma ch o u => Sys2Proof.Machine.execMma ch o u s
  | .wsw ch o u => Sys2Proof.Machine.execWsw ch o u s
  | .vaddF32 ch o u => Sys2Proof.Machine.execVaddF32 ch o u s
  | .vsubF32 ch o u => Sys2Proof.Machine.execVsubF32 ch o u s
  | .vmulF32 ch o u => Sys2Proof.Machine.execVmulF32 ch o u s
  | .vfmaF32 ch o u => Sys2Proof.Machine.execVfmaF32 ch o u s
  | .vmaxF32 ch o u => Sys2Proof.Machine.execVmaxF32 ch o u s
  | .vminF32 ch o u => Sys2Proof.Machine.execVminF32 ch o u s
  | .vaddI32 ch o u => Sys2Proof.Machine.execVaddI32 ch o u s
  | .vsubI32 ch o u => Sys2Proof.Machine.execVsubI32 ch o u s
  | .vand ch o u => Sys2Proof.Machine.execVand ch o u s
  | .vor ch o u => Sys2Proof.Machine.execVor ch o u s
  | .vxor ch o u => Sys2Proof.Machine.execVxor ch o u s
  | .vcmpLtF32 ch o u => Sys2Proof.Machine.execVcmpLtF32 ch o u s
  | .vcmpEqF32 ch o u => Sys2Proof.Machine.execVcmpEqF32 ch o u s
  | .vsel ch o u => Sys2Proof.Machine.execVsel ch o u s
  | .vbcast ch o u => Sys2Proof.Machine.execVbcast ch o u s
  | .vredAddF32 ch o u => Sys2Proof.Machine.execVredAddF32 ch o u s
  | .vredMaxF32 ch o u => Sys2Proof.Machine.execVredMaxF32 ch o u s
  | .vrcp ch o u => Sys2Proof.Machine.execVrcp ch o u s
  | .vrsqrt ch o u => Sys2Proof.Machine.execVrsqrt ch o u s
  | .vexp ch o u => Sys2Proof.Machine.execVexp ch o u s
  | .vlog ch o u => Sys2Proof.Machine.execVlog ch o u s
  | .cvtSat ch o u => Sys2Proof.Machine.execCvtSat ch o u s
  | .cvtIeee ch o u => Sys2Proof.Machine.execCvtIeee ch o u s
  | .cvtUp ch o u => Sys2Proof.Machine.execCvtUp ch o u s
  | .trnW ch o u => Sys2Proof.Machine.execTrnW ch o u s
  | .trnR ch o u => Sys2Proof.Machine.execTrnR ch o u s
  | .movAcc ch o u => Sys2Proof.Machine.execMovAcc ch o u s
  | .stS ch o u => Sys2Proof.Machine.execStS ch o u s
  | .stV ch o u => Sys2Proof.Machine.execStV ch o u s
  | .stD ch o u => Sys2Proof.Machine.execStD ch o u s
  | .stT ch o u => Sys2Proof.Machine.execStT ch o u s
  | .stAdd ch o u => Sys2Proof.Machine.execStAdd ch o u s
  | .stAcc ch o u => Sys2Proof.Machine.execStAcc ch o u s
  | .stAccAdd ch o u => Sys2Proof.Machine.execStAccAdd ch o u s
  | .mv ch o u => Sys2Proof.Machine.execMv ch o u s
  | .tagClear ch done => Sys2Proof.Machine.execTagClear ch done s
  | .descriptorRequest ch found => Sys2Proof.Machine.execDescriptorRequest ch found s
  | .weightTileReady ch => Sys2Proof.Machine.execWeightTileReady ch s
  | .swap ch => Sys2Proof.Machine.execSwap ch s
  | .vectorEntry ch arrB upsets accUpsets => Sys2Proof.Machine.execVectorEntry ch arrB upsets accUpsets s
  | .accumulatorRowWrite ch arrB accUpsets => Sys2Proof.Machine.execAccumulatorRowWrite ch arrB accUpsets s
  | .storeRerun ch => Sys2Proof.Machine.execStoreRerun ch s
  | .waitTimeout ch => Sys2Proof.Machine.execWaitTimeout ch s
  | .chamberHalt ch => Sys2Proof.Machine.execChamberHalt ch s
  | .chamberStart ch host pc args => Sys2Proof.Machine.execChamberStart ch host pc args s
  | .chamberStop ch host => Sys2Proof.Machine.execChamberStop ch host s
  | .chamberReset ch host => Sys2Proof.Machine.execChamberReset ch host s
  | .glbSigWrite n v => Sys2Proof.Machine.execGlbSigWrite n v s
  | .bundleWindowWrite ch idx v => Sys2Proof.Machine.execBundleWindowWrite ch idx v s
  | .regionTableWrite ch host idx v => Sys2Proof.Machine.execRegionTableWrite ch host idx v s
  | .registerWrite off acc => Sys2Proof.Machine.execRegisterWrite off acc s
  | .chamberRetirement failed => Sys2Proof.Machine.execChamberRetirement failed s
  | .keeperChamberRetirement failed => Sys2Proof.Machine.execKeeperChamberRetirement failed s
  | .build ch => Sys2Proof.Machine.execBuild ch s
  | .code ch => Sys2Proof.Machine.execCode ch s
  | .loadTable ch => Sys2Proof.Machine.execLoadTable ch s
  | .tableSlotWrite ch => Sys2Proof.Machine.execTableSlotWrite ch s
  | .coderEnable ch => Sys2Proof.Machine.execCoderEnable ch s
  | .siphonEnable => Sys2Proof.Machine.execSiphonEnable s
  | .siphonDisable => Sys2Proof.Machine.execSiphonDisable s
  | .route => Sys2Proof.Machine.execRoute s
  | .combine => Sys2Proof.Machine.execCombine s
  | .bondedRead g corrected bad => Sys2Proof.Machine.execBondedRead g corrected bad s
  | .bondedWrite g data => Sys2Proof.Machine.execBondedWrite g data s
  | .partialWriteMerge g off data => Sys2Proof.Machine.execPartialWriteMerge g off data s
  | .refresh seg bank => Sys2Proof.Machine.execRefresh seg bank s
  | .refreshRateChange layer deg => Sys2Proof.Machine.execRefreshRateChange layer deg s
  | .patrolScrub g corrected bad => Sys2Proof.Machine.execPatrolScrub g corrected bad s
  | .rowMove seg bank row => Sys2Proof.Machine.execRowMove seg bank row s
  | .helictiteJobStart src => Sys2Proof.Machine.execHelictiteJobStart src s
  | .helictiteJobEnd k => Sys2Proof.Machine.execHelictiteJobEnd k s
  | .hlcEnable => Sys2Proof.Machine.execHlcEnable s
  | .hlcDisable => Sys2Proof.Machine.execHlcDisable s
  | .hNop hel o => Sys2Proof.Machine.execHNop hel o s
  | .hEnd hel o => Sys2Proof.Machine.execHEnd hel o s
  | .hBr hel o => Sys2Proof.Machine.execHBr hel o s
  | .hBz hel o => Sys2Proof.Machine.execHBz hel o s
  | .hBnz hel o => Sys2Proof.Machine.execHBnz hel o s
  | .hBlt hel o => Sys2Proof.Machine.execHBlt hel o s
  | .hDbnz hel o => Sys2Proof.Machine.execHDbnz hel o s
  | .hTrap hel o => Sys2Proof.Machine.execHTrap hel o s
  | .hAdd hel o => Sys2Proof.Machine.execHAdd hel o s
  | .hSub hel o => Sys2Proof.Machine.execHSub hel o s
  | .hMul hel o => Sys2Proof.Machine.execHMul hel o s
  | .hAnd hel o => Sys2Proof.Machine.execHAnd hel o s
  | .hOr hel o => Sys2Proof.Machine.execHOr hel o s
  | .hXor hel o => Sys2Proof.Machine.execHXor hel o s
  | .hShl hel o => Sys2Proof.Machine.execHShl hel o s
  | .hShr hel o => Sys2Proof.Machine.execHShr hel o s
  | .hAddi hel o => Sys2Proof.Machine.execHAddi hel o s
  | .hLi hel o => Sys2Proof.Machine.execHLi hel o s
  | .hLih hel o => Sys2Proof.Machine.execHLih hel o s
  | .hDivu hel o => Sys2Proof.Machine.execHDivu hel o s
  | .hRemu hel o => Sys2Proof.Machine.execHRemu hel o s
  | .hLv hel o => Sys2Proof.Machine.execHLv hel o s
  | .hSv hel o => Sys2Proof.Machine.execHSv hel o s
  | .hLvh hel o => Sys2Proof.Machine.execHLvh hel o s
  | .hSvh hel o => Sys2Proof.Machine.execHSvh hel o s
  | .hLx hel o => Sys2Proof.Machine.execHLx hel o s
  | .hSx hel o => Sys2Proof.Machine.execHSx hel o s
  | .hVadd hel o => Sys2Proof.Machine.execHVadd hel o s
  | .hVsub hel o => Sys2Proof.Machine.execHVsub hel o s
  | .hVmul hel o => Sys2Proof.Machine.execHVmul hel o s
  | .hVfma hel o => Sys2Proof.Machine.execHVfma hel o s
  | .hVmax hel o => Sys2Proof.Machine.execHVmax hel o s
  | .hVmin hel o => Sys2Proof.Machine.execHVmin hel o s
  | .hVabs hel o => Sys2Proof.Machine.execHVabs hel o s
  | .hVneg hel o => Sys2Proof.Machine.execHVneg hel o s
  | .hVdotBf2 hel o => Sys2Proof.Machine.execHVdotBf2 hel o s
  | .hVcmpLt hel o => Sys2Proof.Machine.execHVcmpLt hel o s
  | .hVsel hel o => Sys2Proof.Machine.execHVsel hel o s
  | .hVbcast hel o => Sys2Proof.Machine.execHVbcast hel o s
  | .hVredAdd hel o => Sys2Proof.Machine.execHVredAdd hel o s
  | .hVredMax hel o => Sys2Proof.Machine.execHVredMax hel o s
  | .hVlane hel o => Sys2Proof.Machine.execHVlane hel o s
  | .hVrcp hel o => Sys2Proof.Machine.execHVrcp hel o s
  | .hVrsqrt hel o => Sys2Proof.Machine.execHVrsqrt hel o s
  | .hVexp hel o => Sys2Proof.Machine.execHVexp hel o s
  | .hVlog hel o => Sys2Proof.Machine.execHVlog hel o s
  | .hVcvtF2i hel o => Sys2Proof.Machine.execHVcvtF2i hel o s
  | .hVcvtI2f hel o => Sys2Proof.Machine.execHVcvtI2f hel o s
  | .hVaddI32 hel o => Sys2Proof.Machine.execHVaddI32 hel o s
  | .hVmovx hel o => Sys2Proof.Machine.execHVmovx hel o s
  | .hVinsx hel o => Sys2Proof.Machine.execHVinsx hel o s
  | .hRg hel o => Sys2Proof.Machine.execHRg hel o s
  | .hWg hel o => Sys2Proof.Machine.execHWg hel o s
  | .hRgComplete hel slot => Sys2Proof.Machine.execHRgComplete hel slot s
  | .hClm hel o => Sys2Proof.Machine.execHClm hel o s
  | .claimEffect hel => Sys2Proof.Machine.execClaimEffect hel s
  | .hRel hel o => Sys2Proof.Machine.execHRel hel o s
  | .hYld hel o => Sys2Proof.Machine.execHYld hel o s
  | .forcedRowBoundary hel => Sys2Proof.Machine.execForcedRowBoundary hel s
  | .hFence hel o => Sys2Proof.Machine.execHFence hel o s
  | .hXsend hel o => Sys2Proof.Machine.execHXsend hel o s
  | .hXrecv hel o => Sys2Proof.Machine.execHXrecv hel o s
  | .hXrecvTimeout hel => Sys2Proof.Machine.execHXrecvTimeout hel s
  | .hXcount hel o => Sys2Proof.Machine.execHXcount hel o s
  | .hPost hel o => Sys2Proof.Machine.execHPost hel o s
  | .register src => Sys2Proof.Machine.execRegister src s
  | .deregister src => Sys2Proof.Machine.execDeregister src s
  | .pin src => Sys2Proof.Machine.execPin src s
  | .unpin src => Sys2Proof.Machine.execUnpin src s
  | .prefetch src => Sys2Proof.Machine.execPrefetch src s
  | .demote src => Sys2Proof.Machine.execDemote src s
  | .release src => Sys2Proof.Machine.execRelease src s
  | .query src => Sys2Proof.Machine.execQuery src s
  | .drain src => Sys2Proof.Machine.execDrain src s
  | .drainCancel src => Sys2Proof.Machine.execDrainCancel src s
  | .flsEnable => Sys2Proof.Machine.execFlsEnable s
  | .epochEnd => Sys2Proof.Machine.execEpochEnd s
  | .moveStart => Sys2Proof.Machine.execMoveStart s
  | .moveSwitch k => Sys2Proof.Machine.execMoveSwitch k s
  | .prefetchLate obj => Sys2Proof.Machine.execPrefetchLate obj s
  | .wantedExpire obj => Sys2Proof.Machine.execWantedExpire obj s
  | .waitingWriteResume => Sys2Proof.Machine.execWaitingWriteResume s
  | .drainComplete => Sys2Proof.Machine.execDrainComplete s
  | .cartridgeFailure m => Sys2Proof.Machine.execCartridgeFailure m s
  | .stepAccept => Sys2Proof.Machine.execStepAccept s
  | .microbatchAdmit => Sys2Proof.Machine.execMicrobatchAdmit s
  | .instanceDispatch => Sys2Proof.Machine.execInstanceDispatch s
  | .instanceComplete k => Sys2Proof.Machine.execInstanceComplete k s
  | .ringBlockSend r => Sys2Proof.Machine.execRingBlockSend r s
  | .gatherIssue e => Sys2Proof.Machine.execGatherIssue e s
  | .gatherLanded e => Sys2Proof.Machine.execGatherLanded e s
  | .queueSlotSend q => Sys2Proof.Machine.execQueueSlotSend q s
  | .stepComplete => Sys2Proof.Machine.execStepComplete s
  | .stepFail => Sys2Proof.Machine.execStepFail s
  | .stallTimeout => Sys2Proof.Machine.execStallTimeout s
  | .runonExpire => Sys2Proof.Machine.execRunonExpire s
  | .trvAbort => Sys2Proof.Machine.execTrvAbort s
  | .keeperStart fresh table => Sys2Proof.Machine.execKeeperStart fresh table s
  | .keeperStop => Sys2Proof.Machine.execKeeperStop s
  | .keeperUpdate peer u => Sys2Proof.Machine.execKeeperUpdate peer u s
  | .keeperPublish peer => Sys2Proof.Machine.execKeeperPublish peer s
  | .portTraining port e peer => Sys2Proof.Machine.execPortTraining port e peer s
  | .portRetrain port => Sys2Proof.Machine.execPortRetrain port s
  | .portRetry port => Sys2Proof.Machine.execPortRetry port s
  | .portReset port => Sys2Proof.Machine.execPortReset port s
  | .linkWrite port k => Sys2Proof.Machine.execLinkWrite port k s
  | .linkReadReq port k => Sys2Proof.Machine.execLinkReadReq port k s
  | .linkReadResp port k => Sys2Proof.Machine.execLinkReadResp port k s
  | .linkPost port k => Sys2Proof.Machine.execLinkPost port k s
  | .linkDone port k => Sys2Proof.Machine.execLinkDone port k s
  | .packetForward port kind k => Sys2Proof.Machine.execPacketForward port kind k s
  | .controlFlit port credits ack nak => Sys2Proof.Machine.execControlFlit port credits ack nak s
  | .controlFlitInsert port => Sys2Proof.Machine.execControlFlitInsert port s
  | .cuEnable unit => Sys2Proof.Machine.execCuEnable unit s
  | .put unit src => Sys2Proof.Machine.execPut unit src s
  | .get unit src => Sys2Proof.Machine.execGet unit src s
  | .gather unit src => Sys2Proof.Machine.execGather unit src s
  | .redscat unit src opid => Sys2Proof.Machine.execRedscat unit src opid s
  | .dispatch unit src => Sys2Proof.Machine.execDispatch unit src s
  | .arbiterBeat arb req => Sys2Proof.Machine.execArbiterBeat arb req s
  | .arbiterDecision arb rs => Sys2Proof.Machine.execArbiterDecision arb rs s
  | .grantWithdraw arb => Sys2Proof.Machine.execGrantWithdraw arb s
  | .arbNextWrite v => Sys2Proof.Machine.execArbNextWrite v s
  | .arbTableActivate set => Sys2Proof.Machine.execArbTableActivate set s
  | .arbTableWrite set t j v => Sys2Proof.Machine.execArbTableWrite set t j v s
  | .hostLinkTrain width rate flit cxl => Sys2Proof.Machine.execHostLinkTrain width rate flit cxl s
  | .hostLinkReset cause => Sys2Proof.Machine.execHostLinkReset cause s
  | .hostMemRead line intent => Sys2Proof.Machine.execHostMemRead line intent s
  | .hostMemWrite line data => Sys2Proof.Machine.execHostMemWrite line data s
  | .bisnpResponse line => Sys2Proof.Machine.execBisnpResponse line s
  | .biTimeout => Sys2Proof.Machine.execBiTimeout s
  | .doorbellWake tail head => Sys2Proof.Machine.execDoorbellWake tail head s
  | .ledgerNop rec => Sys2Proof.Machine.execLedgerNop rec s
  | .ledgerStep rec => Sys2Proof.Machine.execLedgerStep rec s
  | .ledgerWrite rec => Sys2Proof.Machine.execLedgerWrite rec s
  | .copyIn rec data => Sys2Proof.Machine.execCopyIn rec data s
  | .copyOut rec n => Sys2Proof.Machine.execCopyOut rec n s
  | .recordComplete => Sys2Proof.Machine.execRecordComplete s
  | .irqHoldoffExpire => Sys2Proof.Machine.execIrqHoldoffExpire s
  | .uioWrite addr data => Sys2Proof.Machine.execUioWrite addr data s
  | .uioRead addr len => Sys2Proof.Machine.execUioRead addr len s
  | .status => Sys2Proof.Machine.execStatus s
  | .attach tail head => Sys2Proof.Machine.execAttach tail head s
  | .detach => Sys2Proof.Machine.execDetach s
  | .selftest failed => Sys2Proof.Machine.execSelftest failed s
  | .retire => Sys2Proof.Machine.execRetire s
  | .imgBegin => Sys2Proof.Machine.execImgBegin s
  | .imgData => Sys2Proof.Machine.execImgData s
  | .imgCommit sigOk => Sys2Proof.Machine.execImgCommit sigOk s
  | .imageFlashWrite sigOk readable => Sys2Proof.Machine.execImageFlashWrite sigOk readable s
  | .attest sig => Sys2Proof.Machine.execAttest sig s
  | .bottomTreeBuild => Sys2Proof.Machine.execBottomTreeBuild s
  | .coldRestart => Sys2Proof.Machine.execColdRestart s
  | .bypass tdi => Sys2Proof.Machine.execBypass tdi s
  | .idcode => Sys2Proof.Machine.execIdcode s
  | .samplePreload pins preload => Sys2Proof.Machine.execSamplePreload pins preload s
  | .extest pins preload => Sys2Proof.Machine.execExtest pins preload s
  | .jtagPrivateAccess addr write => Sys2Proof.Machine.execJtagPrivateAccess addr write s
  | .debugDataAccess write => Sys2Proof.Machine.execDebugDataAccess write s
  | .powerOn auxAbsent => Sys2Proof.Machine.execPowerOn auxAbsent s
  | .pwrRstNAssert => Sys2Proof.Machine.execPwrRstNAssert s
  | .coldBoot c => Sys2Proof.Machine.execColdBoot c s
  | .referenceLoss => Sys2Proof.Machine.execReferenceLoss s
  | .railUndervoltage rail => Sys2Proof.Machine.execRailUndervoltage rail s
  | .coreResetLevel mv => Sys2Proof.Machine.execCoreResetLevel mv s
  | .dipStart mv => Sys2Proof.Machine.execDipStart mv s
  | .dipEnd minMv mv => Sys2Proof.Machine.execDipEnd minMv mv s
  | .brownRelease => Sys2Proof.Machine.execBrownRelease s
  | .pstateRequest req => Sys2Proof.Machine.execPstateRequest req s
  | .dozeEntry => Sys2Proof.Machine.execDozeEntry s
  | .keepEntry => Sys2Proof.Machine.execKeepEntry s
  | .powerStateExit => Sys2Proof.Machine.execPowerStateExit s
  | .governorInterval g => Sys2Proof.Machine.execGovernorInterval g s
  | .iccExcess ma => Sys2Proof.Machine.execIccExcess ma s
  | .govLimitWrite therm v => Sys2Proof.Machine.execGovLimitWrite therm v s
  | .thermalTrip logic dram => Sys2Proof.Machine.execThermalTrip logic dram s
  | .slotButtonPress m => Sys2Proof.Machine.execSlotButtonPress m s
  | .latchClose m => Sys2Proof.Machine.execLatchClose m s
  | .cartridgeAddComplete m c128 => Sys2Proof.Machine.execCartridgeAddComplete m c128 s
  | .cartridgeAddFail m cause => Sys2Proof.Machine.execCartridgeAddFail m cause s
  | .latchOpen m => Sys2Proof.Machine.execLatchOpen m s
  | .cartridgeRemoved m => Sys2Proof.Machine.execCartridgeRemoved m s
  | .deviceButtonPress partnerPaired partnerHeld => Sys2Proof.Machine.execDeviceButtonPress partnerPaired partnerHeld s
  | .twinPairing p => Sys2Proof.Machine.execTwinPairing p s
  | .mirrorCopy => Sys2Proof.Machine.execMirrorCopy s
  | .markReceive stamp handover => Sys2Proof.Machine.execMarkReceive stamp handover s
  | .commitAck => Sys2Proof.Machine.execCommitAck s
  | .heartbeatSend => Sys2Proof.Machine.execHeartbeatSend s
  | .heartbeatReceive st => Sys2Proof.Machine.execHeartbeatReceive st s
  | .heartbeatTimeout => Sys2Proof.Machine.execHeartbeatTimeout s
  | .twinTakeover => Sys2Proof.Machine.execTwinTakeover s
  | .handoverMark => Sys2Proof.Machine.execHandoverMark s
  | .handoverComplete => Sys2Proof.Machine.execHandoverComplete s
  | .resyncStart p => Sys2Proof.Machine.execResyncStart p s
  | .resyncFinish => Sys2Proof.Machine.execResyncFinish s
  | .hWgComplete hel slot => Sys2Proof.Machine.execHWgComplete hel slot s
  | .buttonRelease which => Sys2Proof.Machine.execButtonRelease which s
  | .cartridgeInserted m => Sys2Proof.Machine.execCartridgeInserted m s
  | .codePatternEnd which => Sys2Proof.Machine.execCodePatternEnd which s

end Sys2Proof.Machine
end

