-- ==== Sys2Proof/Machine/Tick.lean ====
section
/-! DEFINITION. One cycle of ACLK with no command waiting: the clock, the governor's throttling, and the counters of cycles (R86, R98, R199, R291, R454, R463). -/

namespace Sys2Proof.Machine

open Sys2Proof

/-- With duty `d` the enable is high in `d` of every 64 cycles, spread evenly (R463). -/
def dutyHigh (d c : Nat) : Bool := decide (c * d / 64 < (c + 1) * d / 64)

/-- The governor lets this cycle of ACLK through. -/
def State.aclkOn (s : State) : Bool := dutyHigh (s.get Reg.PCR_GOV_STAT_DUTY_A) s.cycle

/-- The clock enable of the chambers is high in this cycle: not throttled, in Run, and outside Hold (R452, R453, R456). -/
def State.chamberClock (s : State) : Bool := s.aclkOn && !s.held && s.get Reg.PCR_PSTATE_STATE == 0

/-- The entry that an array runs has a row still to enter as a vector (R86). -/
def State.rowToEnter (s : State) (n : Nat) (b : Bool) : Bool :=
  match s.mayFeed n b with
  | none => false
  | some m => (List.range (m.last b - m.next b)).any fun j => !(s.ch n).maskedRow m (m.next b + j)

/-- A cycle in which an array had a row to enter and no vector entered is a feeder stall (R86). -/
def State.feedStall (s : State) (n : Nat) (b : Bool) : State :=
  let fed := if b then (s.ch n).fedB else (s.ch n).fedA
  if !fed && s.rowToEnter n b then s.count (if b then Reg.CHn_FEED_STALL_B_COUNT n else Reg.CHn_FEED_STALL_A_COUNT n) 1 else s

/-- The load in the shadow half waits for expansion alone: it has run for 128 cycles and every byte of its record has come (R199). -/
def State.expands (s : State) (n : Nat) : Bool :=
  match (s.ch n).loadedOp with
  | none => false
  | some o => o.xmode == 2 && decide ((s.ch n).loadBegin + 128 < s.aclk)

/-- A cycle in which a swap lacks nothing but a READY tile is counted, and counted again where expansion alone is waited for (R79, R199). -/
def State.weightWait (s : State) (n : Nat) : State :=
  if (s.ch n).swapper.isSome && s.get (Reg.CHn_WTILE_SHADOW n) == 1 then
    let x := s.expands n
    let s := s.count (Reg.CHn_WGT_WAIT_COUNT n) 1
    if x then s.count (Reg.CHn_EXP_STALL_COUNT n) 1 else s
  else s

/-- One chamber's counters over one cycle. -/
def State.tickChamber (s : State) (n : Nat) : State :=
  (((s.feedStall n false).feedStall n true).weightWait n).modCh n fun c => { c with fedA := false, fedB := false }

/-- An enabled chamber is idle, as Traverse takes chambers to be (R277, R291). -/
def State.someIdle (s : State) (t : Step) : Bool :=
  (List.range 28).any fun n => bit (s.get Reg.GLB_CHMAP_ENABLED) n && s.chIdle t n

/-- Traverse's counters over one cycle in which a step runs, whatever state it is in (R268, R291). -/
def State.tickTraverse (s : State) : State :=
  match s.trv with
  | none => s
  | some t =>
    if s.someIdle t ∧
        !(t.waitingInsts.any fun x => !onHelictites (t.plan.item x.item) && s.ready t x) then
      if t.waitingInsts.any fun x => s.readyButSend t x && !s.sendOk t x then s.count Reg.TRV_IMBAL_COUNT 1
      else s.count Reg.TRV_STARVE_COUNT 1
    else s

/-- How long the conditions of Doze and of Keep have held; Hold lengthens the time they need (R454, R461). -/
def State.tickIdle (s : State) : State :=
  if s.held then s
  else
    { s with
      dozeIdle := if s.mayDoze then s.dozeIdle + 1 else 0
      keepIdle := if s.mayKeep then s.keepIdle + 1 else 0 }

/-- One cycle of ACLK, in which collective transfers that waited start as they may (R343; log entry 83): nothing is clocked while a cold
reset is applied (R446). -/
def State.tick (s : State) : State :=
  if s.inReset then s
  else
    let on := s.chamberClock
    let s := if s.aclkOn then s else s.count Reg.PCR_THROTTLE_COUNT 1
    let s := if on then ((List.range 28).foldl State.tickChamber { s with aclk := s.aclk + 1 }).tickTraverse else s
    { s.startTransfers.tickIdle with cycle := s.cycle + 1 }

end Sys2Proof.Machine
end

