-- ==== Sys2Proof/Safety.lean ====
section
/-! DEFINITION. What claims are stated in: when a bundle is taken, what an instruction of a slot does to it, and the canonical form of the state. -/

namespace Sys2Proof.Machine

open Sys2Proof

/-- A bundle at issue is taken whole: the chamber may issue, the bundle stands at its PC, is legal, waits for nothing and has no precise cause, and no
double-bit error of bundle memory is found (R27 to R31, R39, R40, R60). -/
def State.Takes (s : State) (n : Nat) (i : Issue) : Prop :=
  s.mayIssue n = true ∧ s.fetched n = i.bundle ∧ illegalSlot i.bundle = none ∧ s.waitsFor n i.bundle ((s.ch n).live i.bundle) = .no ∧
  (s.ch n).precise (s.chPc n) i.bundle ((s.ch n).live i.bundle) = none ∧
  (i.upsets.any fun u => u.double && u.bank.val == 32) = false

/-- A command answers a next state, and that state is as said. -/
def Does (c : Instr) (s : State) (p : State → Prop) : Prop := ∃ t, exec c s = .next t ∧ p t

/-- A chamber without what ECC counting, recording a halt, releasing held posts, a change of power state and the timing of a weight
load write: its registers, memories, queues and outstanding operations. -/
def Chamber.core (c : Chamber) : Chamber := { c with errCount := [], halt := none, posts := [], savedState := 0, loadBegin := 0 }

/-- `t` differs from `s` in register fields, in chambers outside their cores, and in what posts and log entries touch, alone. -/
def State.Side (s t : State) : Prop :=
  t = { s with fields := t.fields, chambers := t.chambers, ports := t.ports, lost := t.lost, irq := t.irq
               deferred := t.deferred, dozeIdle := t.dozeIdle, keepIdle := t.keepIdle } ∧
  ∀ m, (t.ch m).core = (s.ch m).core

/-- A chamber's local and bundle memory are in canonical form. -/
def Chamber.Ok (c : Chamber) : Prop := c.lmem.wf = true ∧ c.bmem.wf = true

/-- A helictite's scratchpad is in canonical form. -/
def Hel.Ok (h : Hel) : Prop := h.scratch.wf = true

/-- Every memory of the device is in canonical form: the unified range, every chamber's local and bundle memory, every helictite's
scratchpad. Equal contents are then equal data. -/
def State.Canon (s : State) : Prop := s.mem.wf = true ∧ (∀ n, (s.ch n).Ok) ∧ ∀ n, (s.hel n).Ok

end Sys2Proof.Machine
end

