-- ==== Sys2Proof/Safety/Slots.lean ====
section
/-! DEFINITION. What claims about the slots of a bundle are stated in: what one instruction does in any bundle that is taken. -/

namespace Sys2Proof.Machine

open Sys2Proof

/-- An instruction of the S slot, in any bundle that is taken, writes DST with a function of A, B, the old DST, IMM32 and the
chamber's cycle count. -/
def WritesScalar (mk : Fin 28 → SOps → Issue → Instr) (op : BitVec 8) (f : Word → Word → Word → BitVec 32 → Word → Word) : Prop :=
  ∀ (ch : Fin 28) (o : SOps) (i : Issue) (s : State), s.Takes ch (withS i op o) → (s.ch ch).guard o.guard = true →
    Does (mk ch o i) s fun t => (t.ch ch).sreg o.dst =
      f ((s.ch ch).sreg o.sa) (if o.i then o.imm32.signExtend 64 else (s.ch ch).sreg o.sb) ((s.ch ch).sreg o.dst) o.imm32
        (BitVec.ofNat 64 (s.aclk - (s.ch ch).cycBase))

/-- An instruction of the S slot, in any bundle that is taken, writes predicate DST[2:0] with a function of A, B and the predicates
SA[2:0] and SB[2:0]; p0 reads 1 whatever is written (R24). -/
def WritesPredicate (mk : Fin 28 → SOps → Issue → Instr) (op : BitVec 8) (f : Word → Word → Bool → Bool → Bool) : Prop :=
  ∀ (ch : Fin 28) (o : SOps) (i : Issue) (s : State), s.Takes ch (withS i op o) → (s.ch ch).guard o.guard = true →
    Does (mk ch o i) s fun t => (t.ch ch).pred (o.dst.setWidth 3) = (o.dst.setWidth 3 == 0 ||
      f ((s.ch ch).sreg o.sa) (if o.i then o.imm32.signExtend 64 else (s.ch ch).sreg o.sb) ((s.ch ch).pred (o.sa.setWidth 3))
        ((s.ch ch).pred (o.sb.setWidth 3)))

/-- An instruction of the S slot, in any bundle that is taken, replaces BASE, bits 47 to 0 of word 0, of descriptor DST[3:0] with a
function of the old BASE and A modulo 2^48, and leaves every other bit of it (R41, R133). -/
def WritesBase (mk : Fin 28 → SOps → Issue → Instr) (op : BitVec 8) (f : Nat → Nat → Nat) : Prop :=
  ∀ (ch : Fin 28) (o : SOps) (i : Issue) (s : State), s.Takes ch (withS i op o) → (s.ch ch).guard o.guard = true →
    Does (mk ch o i) s fun t =>
      let d := (s.ch ch).dreg (o.dst.setWidth 4)
      ((t.ch ch).dreg (o.dst.setWidth 4)).extractLsb' 0 48 = BitVec.ofNat 48 (f (d.extractLsb' 0 48).toNat ((s.ch ch).sreg o.sa).toNat) ∧
      ((t.ch ch).dreg (o.dst.setWidth 4)).extractLsb' 48 976 = d.extractLsb' 48 976

/-- An instruction of the V slot, in any bundle that is taken, writes every lane of VD with a function of the chamber's state. -/
def WritesLanes (mk : Fin 28 → VOps → Issue → Instr) (op : BitVec 8) (f : Chamber → VOps → Nat → Lane) : Prop :=
  ∀ (ch : Fin 28) (o : VOps) (i : Issue) (s : State), s.Takes ch (withV i op o) → (s.ch ch).guard o.guard = true →
    Does (mk ch o i) s fun t => ∀ k < 128, lane ((t.ch ch).vreg o.vd) k = f (s.ch ch) o k

/-- A lane of the register that VA, VB or VC names. -/
def laneA (c : Chamber) (o : VOps) (k : Nat) : Lane := lane (c.vreg o.va) k
def laneB (c : Chamber) (o : VOps) (k : Nat) : Lane := lane (c.vreg o.vb) k
def laneC (c : Chamber) (o : VOps) (k : Nat) : Lane := lane (c.vreg o.vc) k

/-- An instruction of the T slot, in any bundle that is taken, writes `n` bytes to local memory from SA + IMM32 on, which lie in it, and no
other byte of it changes (R48, R496). -/
def StoresLocal (mk : Fin 28 → TOps → Issue → Instr) (op : BitVec 8) (n : Nat) (byte : Chamber → TOps → Nat → Byte) : Prop :=
  ∀ (ch : Fin 28) (o : TOps) (i : Issue) (s : State), s.Takes ch (withT i op o) → (s.ch ch).guard o.guard = true →
    let lo : Int := ((s.ch ch).sreg o.sa).toNat + o.imm32.toInt
    0 ≤ lo ∧ lo + n ≤ 0x1000000 ∧ Does (mk ch o i) s fun t => ∀ a : Nat, memByte (t.ch ch).lmem a =
      if lo.toNat ≤ a ∧ a < lo.toNat + n then byte (s.ch ch) o (a - lo.toNat) else memByte (s.ch ch).lmem a

/-- The pairwise tree of R114 over 2^n values from an index on: neighbours first, then the pairs' results, and so on. -/
def pairTree (op : Lane → Lane → Lane) : Nat → (Nat → Lane) → Nat → Lane
  | 0, f, b => f b
  | n + 1, f, b => op (pairTree op n f b) (pairTree op n f (b + 2 ^ n))

/-- The element in a row and column of a turn tile (R150). -/
def Chamber.turnElem (c : Chamber) (tile : Bool) (row col : Nat) : BitVec 16 := mapGet 0 c.turn (16384 * b2n tile + 128 * row + col)

/-- A command, in any bundle that is taken, adds one outstanding asynchronous operation of a kind to its chamber, with its tag, a copy
of its descriptor, and what `p` says (R29, R32, R49). -/
def StartsAsync (c : Instr) (ch : Fin 28) (i : Issue) (guard : BitVec 4) (kind : AKind) (tag : BitVec 3) (dsc : BitVec 4)
    (p : Chamber → AsyncOp → Prop) : Prop :=
  ∀ s : State, s.Takes ch i → (s.ch ch).guard guard = true →
    Does c s fun t => ∃ o ∈ (t.ch ch).ops, o.seq = (s.ch ch).seq ∧ o.kind = kind ∧ o.tag = tag.toNat ∧
      o.desc = (s.ch ch).dreg dsc ∧ p (s.ch ch) o

/-- The chamber and bundle that an instruction of a slot brings to issue; none for the other commands. -/
def bundleOf : Instr → Option (Fin 28 × Issue)
  | .nop ch slot i => some (ch, withNop i slot)
  | .br ch o i => some (ch, withC i 0x01 o)
  | .brS ch o i => some (ch, withC i 0x02 o)
  | .call ch o i => some (ch, withC i 0x03 o)
  | .ret ch o i => some (ch, withC i 0x04 o)
  | .halt ch o i => some (ch, withC i 0x05 o)
  | .postSigSet ch o i => some (ch, withC i 0x08 o)
  | .postSigAdd ch o i => some (ch, withC i 0x09 o)
  | .waitSigGe ch o i => some (ch, withC i 0x0A o)
  | .waitSigEq ch o i => some (ch, withC i 0x0B o)
  | .waitTag ch o i => some (ch, withC i 0x0C o)
  | .fence ch o i => some (ch, withC i 0x0D o)
  | .add ch o i => some (ch, withS i 0x01 o)
  | .sub ch o i => some (ch, withS i 0x02 o)
  | .and ch o i => some (ch, withS i 0x03 o)
  | .or ch o i => some (ch, withS i 0x04 o)
  | .xor ch o i => some (ch, withS i 0x05 o)
  | .shl ch o i => some (ch, withS i 0x06 o)
  | .shr ch o i => some (ch, withS i 0x07 o)
  | .sra ch o i => some (ch, withS i 0x08 o)
  | .mul ch o i => some (ch, withS i 0x09 o)
  | .min ch o i => some (ch, withS i 0x0A o)
  | .max ch o i => some (ch, withS i 0x0B o)
  | .liL ch o i => some (ch, withS i 0x0C o)
  | .liH ch o i => some (ch, withS i 0x0D o)
  | .cmpEq ch o i => some (ch, withS i 0x10 o)
  | .cmpNe ch o i => some (ch, withS i 0x11 o)
  | .cmpLt ch o i => some (ch, withS i 0x12 o)
  | .cmpGe ch o i => some (ch, withS i 0x13 o)
  | .cmpLtu ch o i => some (ch, withS i 0x14 o)
  | .cmpGeu ch o i => some (ch, withS i 0x15 o)
  | .pand ch o i => some (ch, withS i 0x18 o)
  | .por ch o i => some (ch, withS i 0x19 o)
  | .pxor ch o i => some (ch, withS i 0x1A o)
  | .dscBase ch o i => some (ch, withS i 0x20 o)
  | .dscAdd ch o i => some (ch, withS i 0x21 o)
  | .rdCyc ch o i => some (ch, withS i 0x24 o)
  | .ldS ch o i => some (ch, withL i 0x01 o)
  | .ldV ch o i => some (ch, withL i 0x02 o)
  | .ldD ch o i => some (ch, withL i 0x03 o)
  | .ldT ch o i => some (ch, withL i 0x04 o)
  | .ldW ch o i => some (ch, withL i 0x05 o)
  | .mma ch o i => some (ch, withM i 0x01 o)
  | .wsw ch o i => some (ch, withM i 0x02 o)
  | .vaddF32 ch o i => some (ch, withV i 0x01 o)
  | .vsubF32 ch o i => some (ch, withV i 0x02 o)
  | .vmulF32 ch o i => some (ch, withV i 0x03 o)
  | .vfmaF32 ch o i => some (ch, withV i 0x04 o)
  | .vmaxF32 ch o i => some (ch, withV i 0x05 o)
  | .vminF32 ch o i => some (ch, withV i 0x06 o)
  | .vaddI32 ch o i => some (ch, withV i 0x08 o)
  | .vsubI32 ch o i => some (ch, withV i 0x09 o)
  | .vand ch o i => some (ch, withV i 0x0A o)
  | .vor ch o i => some (ch, withV i 0x0B o)
  | .vxor ch o i => some (ch, withV i 0x0C o)
  | .vcmpLtF32 ch o i => some (ch, withV i 0x10 o)
  | .vcmpEqF32 ch o i => some (ch, withV i 0x11 o)
  | .vsel ch o i => some (ch, withV i 0x12 o)
  | .vbcast ch o i => some (ch, withV i 0x14 o)
  | .vredAddF32 ch o i => some (ch, withV i 0x15 o)
  | .vredMaxF32 ch o i => some (ch, withV i 0x16 o)
  | .vrcp ch o i => some (ch, withV i 0x18 o)
  | .vrsqrt ch o i => some (ch, withV i 0x19 o)
  | .vexp ch o i => some (ch, withV i 0x1A o)
  | .vlog ch o i => some (ch, withV i 0x1B o)
  | .cvtSat ch o i => some (ch, withV i 0x20 o)
  | .cvtIeee ch o i => some (ch, withV i 0x21 o)
  | .cvtUp ch o i => some (ch, withV i 0x22 o)
  | .trnW ch o i => some (ch, withV i 0x28 o)
  | .trnR ch o i => some (ch, withV i 0x29 o)
  | .movAcc ch o i => some (ch, withV i 0x2C o)
  | .stS ch o i => some (ch, withT i 0x01 o)
  | .stV ch o i => some (ch, withT i 0x02 o)
  | .stD ch o i => some (ch, withT i 0x03 o)
  | .stT ch o i => some (ch, withT i 0x04 o)
  | .stAdd ch o i => some (ch, withT i 0x05 o)
  | .stAcc ch o i => some (ch, withT i 0x06 o)
  | .stAccAdd ch o i => some (ch, withT i 0x07 o)
  | .mv ch o i => some (ch, withT i 0x08 o)
  | _ => none

/-- The opcodes of the S slot that write a scalar register, and those that write a predicate (R41). -/
def scalarOps : List (BitVec 8) := [0x01, 0x02, 0x03, 0x04, 0x05, 0x06, 0x07, 0x08, 0x09, 0x0A, 0x0B, 0x0C, 0x0D, 0x24]
def predicateOps : List (BitVec 8) := [0x10, 0x11, 0x12, 0x13, 0x14, 0x15, 0x18, 0x19, 0x1A]

/-- The guard of a slot (R31). -/
def guardOf (b : Bundle) (slot : Fin 6) : BitVec 4 :=
  match slot with
  | 0 => b.c.guard
  | 1 => b.s.guard
  | 2 => b.l.guard
  | 3 => b.m.guard
  | 4 => b.v.guard
  | 5 => b.t.guard

/-- The fields of a chamber's block that flags, ECC counts and the weight load of a bundle write, beside its PC and STATE (R26, R77, R94,
R127). -/
def bundleFields (n : Nat) : List FieldRef :=
  [Reg.CHn_EXC_INVALID n, Reg.CHn_EXC_OVERFLOW n, Reg.CHn_EXC_FLUSH n, Reg.CHn_LMEM_ERR_UNCORRECTED n, Reg.CHn_LMEM_ERR_WORST_BANK n,
   Reg.CHn_LMEM_ERR_CORRECTED n, Reg.CHn_STATUS_RETIRE_PENDING n, Reg.CHn_ACC_ERR_UNCORRECTED n, Reg.CHn_ACC_ERR_CORRECTED n,
   Reg.CHn_TSW_A_ECC n, Reg.CHn_TSW_A_ECC_ROW n, Reg.CHn_TSW_B_ECC n, Reg.CHn_TSW_B_ECC_ROW n]

/-- A field that a bundle of chamber `n`, or what its posts start, may write: in the chamber's block those named above, its PC and STATE, the
shadow's state and type and the marks of its table slots; outside it the error log, the signals, the ports' blocks, the power state, and the
states of chambers that leave Doze. -/
def BundleField (n : Nat) (f : FieldRef) : Prop :=
  f.key ∈ ([Reg.CHn_STATUS_PC n, Reg.CHn_WTILE_SHADOW n, Reg.CHn_WTILE_SHADOW_TYPE n, Reg.CHn_XT_SLOT0_QUEUED n, Reg.CHn_XT_SLOT1_QUEUED n,
    Reg.PCR_PSTATE_STATE] ++ bundleFields n).map FieldRef.key ∨ (∃ m < 28, f.key = (Reg.CHn_STATUS_STATE m).key) ∨
  (0x6800000 ≤ f.off ∧ f.off < 0x6820000) ∨ (0x80000 ≤ f.off ∧ f.off < 0x88000) ∨ (0x4000000 ≤ f.off ∧ f.off < 0x4200000)

/-- The register that a slot of a bundle names as its destination, if it names one: scalars, predicates, descriptors and vectors are told
apart by the first part (R30, R41, R42, R46). -/
def destOf (b : Bundle) (slot : Fin 6) : Option (Nat × Nat) :=
  match slot with
  | 1 =>
    if b.sop ∈ scalarOps then some (0, b.s.dst.toNat)
    else if b.sop ∈ predicateOps then some (1, (b.s.dst.setWidth 3).toNat)
    else if b.sop = 0x20 ∨ b.sop = 0x21 then some (2, (b.s.dst.setWidth 4).toNat)
    else none
  | 2 => if b.lop = 0x01 then some (0, b.l.dst.toNat) else if b.lop = 0x02 then some (3, b.l.dst.toNat)
    else if b.lop = 0x03 then some (2, b.l.dsc.toNat) else none
  | 4 => if b.vop = 0x00 ∨ b.vop = 0x28 then none else some (3, b.v.vd.toNat)
  | _ => none

/-- A slot of a bundle is a source of ILLEGAL: it holds a reserved opcode, a reserved type code, or an mma with ARR = 0b00 or with an operand
type that is not BF16, FP16, INT8 or INT4; or it names the destination register of a lower-numbered slot (R30, R38). -/
def IllegalIn (b : Bundle) (slot : Fin 6) : Prop :=
  (match slot with
    | 0 => b.cop ∉ [0x00#8, 0x01, 0x02, 0x03, 0x04, 0x05, 0x08, 0x09, 0x0A, 0x0B, 0x0C, 0x0D]
    | 1 => b.sop ≠ 0 ∧ b.sop ∉ scalarOps ∧ b.sop ∉ predicateOps ∧ b.sop ≠ 0x20 ∧ b.sop ≠ 0x21
    | 2 => b.lop ∉ [0x00#8, 0x01, 0x02, 0x03, 0x04, 0x05]
    | 3 => b.mop ∉ [0x00#8, 0x01, 0x02] ∨
        (b.mop = 0x01 ∧ (b.m.arr = 0 ∨ b.m.atype ∉ [0x1#4, 0x2, 0x3, 0x4] ∨ b.m.wtype ∉ [0x1#4, 0x2, 0x3, 0x4]))
    | 4 => b.vop ∉ [0x00#8, 0x01, 0x02, 0x03, 0x04, 0x05, 0x06, 0x08, 0x09, 0x0A, 0x0B, 0x0C, 0x10, 0x11, 0x12, 0x14, 0x15, 0x16, 0x18, 0x19,
        0x1A, 0x1B, 0x20, 0x21, 0x22, 0x28, 0x29, 0x2C] ∨ (b.vop ∈ [0x20#8, 0x21, 0x22] ∧ 5 < b.v.typ.toNat)
    | 5 => b.top ∉ [0x00#8, 0x01, 0x02, 0x03, 0x04, 0x05, 0x06, 0x07, 0x08] ∨ (b.top ∈ [0x06#8, 0x07] ∧ 5 < b.t.otype.toNat)) ∨
  ∃ k < slot, destOf b slot ≠ none ∧ destOf b k = destOf b slot

/-- A byte range lies in local memory (R496). -/
def Inside (a : Int) (n : Nat) : Prop := 0 ≤ a ∧ a + n ≤ 0x1000000

/-- The bytes and the alignment of a local access by its opcode (R43, R48). -/
def accessOf (op : BitVec 8) : Option (Nat × Nat) :=
  if op = 0x01 then some (8, 8) else if op = 0x02 then some (512, 64) else if op = 0x03 then some (128, 128) else none

/-- A bundle at 4,095 that would leave the next PC at 4,096, or calls there (R40). -/
def AtEnd (pc : Nat) (b : Bundle) (v : Live) : Prop := pc = 4095 ∧ ¬(v.c = true ∧ b.cop ∈ [0x01#8, 0x02, 0x04, 0x05])

/-- A bundle at `pc` meets a precise cause in a slot: 3 RANGE, 4 STACK, 5 ALIGN; where an access is out of range its alignment is not asked
for (R39, R40, R43, R45, R46, R48, R120, R496). -/
def Chamber.Raises (c : Chamber) (pc : Nat) (b : Bundle) (cause slot : Nat) : Prop :=
  let v := c.live b
  let reg := fun r => (c.sreg r).toNat
  (slot = 0 ∧ cause = 3 ∧ AtEnd pc b v) ∨
  (slot = 0 ∧ cause = 3 ∧ v.c = true ∧ b.cop = 0x02 ∧ 4095 < reg b.c.sreg) ∨
  (slot = 0 ∧ cause = 4 ∧ v.c = true ∧ (b.cop = 0x03 ∧ 32 ≤ c.retStack.length ∨ b.cop = 0x04 ∧ c.retStack = [])) ∨
  (slot = 2 ∧ v.l = true ∧ ∃ n k, accessOf b.lop = some (n, k) ∧
    let a : Int := reg b.l.sa + b.l.imm32.toInt
    (cause = 3 ∧ ¬Inside a n ∨ cause = 5 ∧ Inside a n ∧ a % k ≠ 0)) ∨
  (slot = 2 ∧ cause = 5 ∧ v.l = true ∧ b.lop = 0x04 ∧ reg b.l.sa % 64 ≠ 0) ∨
  (slot = 3 ∧ cause = 3 ∧ v.m = true ∧ b.mop = 0x01 ∧
    let m := reg b.m.srows
    let last := if b.m.atype.toNat ≤ 2 ∨ b.m.wtype.toNat ≤ 2 then 1023 else 511
    (m = 0 ∨ 65535 < m ∨ last < reg b.m.sacc + (if b.m.arr = 3 then m - m / 2 else m) - 1 ∨
      ¬Inside (reg b.m.sact - reg b.m.sact % 64 : Nat) ((m - 1) * reg b.m.spitch + 512) ∨
      (b.m.msk = true ∧ ¬Inside (reg b.m.smask - reg b.m.smask % 64 : Nat) ((m + 7) / 8)))) ∨
  (slot = 4 ∧ cause = 3 ∧ v.v = true ∧ b.vop = 0x2C ∧ 1023 < reg b.v.sreg) ∨
  (slot = 5 ∧ v.t = true ∧ ∃ n k, accessOf b.top = some (n, k) ∧
    let a : Int := reg b.t.sa + b.t.imm32.toInt
    (cause = 3 ∧ ¬Inside a n ∨ cause = 5 ∧ Inside a n ∧ a % k ≠ 0)) ∨
  (slot = 5 ∧ v.t = true ∧ b.top = 0x08 ∧
    let n := b.t.imm32.toNat
    let inside := Inside (reg b.t.sa) n ∧ Inside (reg b.t.sb) n
    (cause = 3 ∧ ¬inside ∨ cause = 5 ∧ inside ∧ ¬(reg b.t.sa % 64 = 0 ∧ reg b.t.sb % 64 = 0 ∧ n % 64 = 0))) ∨
  (slot = 5 ∧ cause = 3 ∧ v.t = true ∧ (b.top = 0x06 ∨ b.top = 0x07) ∧
    let a := reg b.t.sscale % 2 ^ 24
    ¬Inside (a - a % 64 : Nat) 0x2840)

end Sys2Proof.Machine
end

