-- ==== Sys2Proof/Safety/Terms.lean ====
section
/-! DEFINITION. What claims about the device's commands are stated in: when the device serves commands at once, and what they leave alone. -/

namespace Sys2Proof.Machine

open Sys2Proof

/-- The device is in Run and outside Hold (R452, R456): a command acts at once, and none of its effects waits for a resume or a wake. -/
def State.InRun (s : State) : Prop := s.get Reg.PCR_PSTATE_STATE = 0 ∧ s.held = false

/-- Register fields outside a list read as before. -/
def State.KeepsFields (s t : State) (fs : List FieldRef) : Prop := ∀ f : FieldRef, f.key ∉ fs.map FieldRef.key → t.get f = s.get f

/-- The fields that a violation of a chamber is recorded in (R154), and those of one that is no chamber's (R389). -/
def violFields (n : Nat) : List FieldRef :=
  [Reg.CHn_VIOL_COUNT_COUNT n, Reg.CHn_VIOL_LAST_VALID n, Reg.CHn_VIOL_LAST_KIND n, Reg.CHn_VIOL_LAST_ADDR n]
def globalViolFields : List FieldRef :=
  [Reg.GLB_VIOL_COUNT_COUNT, Reg.GLB_VIOL_LAST_VALID, Reg.GLB_VIOL_LAST_AGENT, Reg.GLB_VIOL_LAST_KIND, Reg.GLB_VIOL_LAST_ADDR]

/-- A violation of a lower KIND has been counted in this cycle in the counter of a key (0 the device's, n + 1 that of chamber n), whose LAST
register it keeps (R154; log entry 77). -/
def State.Outranked (s : State) (key : Nat) (valid kindOf : FieldRef) (kind : Nat) : Prop :=
  mapGet 0 s.violAt key = s.cycle + 1 ∧ s.get valid = 1 ∧ s.get kindOf < kind

/-- A violation has been counted once, saturating, in the counter of a key, and recorded in its LAST register, or, outranked, counted alone. -/
def State.Counts (s t : State) (key : Nat) (count valid kindOf : FieldRef) (kind : Nat) (rest : List (FieldRef × Nat)) : Prop :=
  t.get count = min (s.get count + 1) (2 ^ 32 - 1) ∧
  (s.Outranked key valid kindOf kind → s.KeepsFields t [count]) ∧
  (¬s.Outranked key valid kindOf kind → t.get valid = 1 ∧ t.get kindOf = kind ∧ (∀ e ∈ rest, t.get e.1 = e.2) ∧
    s.KeepsFields t (count :: valid :: kindOf :: rest.map (·.1))) ∧
  (∀ k, mapGet 0 t.violAt k = if k = key then s.cycle + 1 else mapGet 0 s.violAt k) ∧ t = { s with fields := t.fields, violAt := t.violAt }

/-- A violation of chamber `n` has been counted once (R154). -/
def State.CountsViol (s t : State) (n kind addr : Nat) : Prop :=
  s.Counts t (n + 1) (Reg.CHn_VIOL_COUNT_COUNT n) (Reg.CHn_VIOL_LAST_VALID n) (Reg.CHn_VIOL_LAST_KIND n) kind
    [(Reg.CHn_VIOL_LAST_ADDR n, addr % 2 ^ 48)]

/-- A violation that is no chamber's has been counted once (R389). -/
def State.CountsGlobalViol (s t : State) (agent kind addr : Nat) : Prop :=
  s.Counts t 0 Reg.GLB_VIOL_COUNT_COUNT Reg.GLB_VIOL_LAST_VALID Reg.GLB_VIOL_LAST_KIND kind
    [(Reg.GLB_VIOL_LAST_AGENT, agent), (Reg.GLB_VIOL_LAST_ADDR, addr % 2 ^ 48)]

/-- The state differs from another in register fields, in the marks of counted violations, and in one chamber alone. -/
def State.OnlyChamber (s t : State) (n : Nat) : Prop :=
  t = { s with fields := t.fields, chambers := t.chambers, violAt := t.violAt } ∧ ∀ m, m ≠ n → t.ch m = s.ch m

/-- The next granule request of an operation takes its `k` next positions: valid, in one granule, and no further (R149). -/
def State.TakesRun (s : State) (n : Nat) (o : AsyncOp) (k : Nat) : Prop :=
  0 < k ∧ o.pos + k ≤ o.limit ∧ (∀ i < k, s.posKind n o (o.pos + i) = .valid ∧ o.granule (o.pos + i) = o.granule o.pos) ∧
  (o.pos + k = o.limit ∨ ¬(s.posKind n o (o.pos + k) = .valid ∧ o.granule (o.pos + k) = o.granule o.pos))

/-- An address may be read at once by a unit of the device: populated, not sealed, held by no claim, its granule not poisoned
(R16, R227, R377, R433). -/
def State.Readable (s : State) (a : Nat) : Prop :=
  s.populated a = true ∧ s.sealedAt a = false ∧ s.poisoned (granuleOf a) = false

/-- An address may be written at once: its page holds a frame, it is not sealed and not behind a closed peer window, its granule is not
poisoned (R211, R239, R433, R479). -/
def State.Writable (s : State) (a : Nat) : Prop :=
  s.populated a = true ∧ s.sealedAt a = false ∧ s.peerClosed a = false ∧ s.poisoned (granuleOf a) = false ∧ (s.frameOf (pageOf a)).isSome = true

/-- Memory reads as before but for the bytes of a list from an address on. -/
def State.Stores (s t : State) (a : Nat) (bs : List Byte) : Prop :=
  ∀ b, memByte t.mem b = if a ≤ b ∧ b < a + bs.length then bs.getD (b - a) 0 else memByte s.mem b

/-- Chamber `p` is a spare: built, neither enabled nor retired (R68). -/
def State.Spare (s : State) (p : Nat) : Prop :=
  p < 28 ∧ bit (s.get Reg.GLB_CHMAP_ENABLED) p = false ∧ bit (s.get Reg.GLB_CHMAP_RETIRED) p = false

/-- Chamber `p` has taken the place of chamber `n`, and of the candidates those that failed are retired: the chamber maps, the states and
LOGICAL numbers of the two, both cleared of what they held; no other chamber and no memory differs (R68). -/
def State.Replaces (s t : State) (n p : Nat) (failed : Nat → Prop) : Prop :=
  t.chState n = 0 ∧ t.chState p = 1 ∧ t.get (Reg.CHn_STATUS_LOGICAL n) = 0x1F ∧
  t.get (Reg.CHn_STATUS_LOGICAL p) = s.get (Reg.CHn_STATUS_LOGICAL n) % 32 ∧
  (∀ m < 28, bit (t.get Reg.GLB_CHMAP_ENABLED) m = true ↔ m = p ∨ (m ≠ n ∧ ¬failed m ∧ bit (s.get Reg.GLB_CHMAP_ENABLED) m = true)) ∧
  (∀ m < 28, bit (t.get Reg.GLB_CHMAP_RETIRED) m = true ↔ m = n ∨ failed m ∨ bit (s.get Reg.GLB_CHMAP_RETIRED) m = true) ∧
  t.ch n = Chamber.reset ∧ t.ch p = { Chamber.reset with cycBase := s.aclk, rset := (s.ch n).rset } ∧
  (∀ m, m ≠ n → m ≠ p → t.ch m = s.ch m) ∧
  t = { s with fields := t.fields, chambers := t.chambers, straps := t.straps, irq := t.irq }

/-- No write that waits for a frame has been added, so that work is visible at once (R240). -/
def State.Visible (s t : State) : Prop := t.heldSince s.heldSeq = []

/-- The record at the head of a coder's ring may run and reads as eight words, with nothing of it poisoned; `u` is the state once it is read
(R190, R191). -/
def State.CoderHead (s : State) (n : Nat) (ws : List Nat) (u : State) : Prop :=
  s.coderReady n = true ∧ ∃ bs ok, s.chRead n (s.coderAddr n) 64 = (bs, false, ok, u) ∧ ws = recWords bs 8

/-- A coder's job has ended with a status: from a state `u` with its results in memory STATUS goes to the record, the job is counted, the ring
moves on, and its DONE_SIG counts up; no other signal changes (R163, R191). Said of a job whose writes all find a frame (R240). -/
def State.CoderEnds (s u t : State) (n sig status : Nat) : Prop :=
  s.Visible u → u.Visible (u.chWrite n (s.coderAddr n + 56) (leBytes 8 status)) →
  t.get (Reg.CHn_XC_PROGRESS_LAST_STATUS n) = status ∧ t.get (Reg.CHn_XC_PROGRESS_DONE n) = (s.get (Reg.CHn_XC_PROGRESS_DONE n) + 1) % 2 ^ 32 ∧
  (t.ring (8 + n)).taken = (s.ring (8 + n)).taken + 1 ∧ (∀ m < 4096, t.sig m = if m = sig then (s.sig m + 1) % 2 ^ 64 else s.sig m) ∧
  t.mem = (u.chWrite n (s.coderAddr n + 56) (leBytes 8 status)).mem

/-- The next job of an engine of Siphon (0 route, 1 combine) may run: the record numbered `j`, read from `a` with nothing of it poisoned, and the
state once it is read (R160, R161). -/
def State.SiphonHead (s : State) (eng j a : Nat) (ws : List Nat) (u : State) : Prop :=
  s.siphonRuns = true ∧ s.siphonEnding eng = false ∧
  s.siphonFind eng (s.get Reg.SIP_RING_ENTRIES_M1 + 1 + (s.ring eng).skips.length) (s.ring eng).taken = some j ∧
  a = ringAddr (s.get Reg.SIP_RING_BASE / 128 * 128) (s.get Reg.SIP_RING_ENTRIES_M1) 128 j ∧
  ∃ bs, s.read a 128 = (bs, false, u) ∧ ws = recWords bs 16

/-- A job of an engine of Siphon has ended with a status other than POISON: from a state `v` with its results STATUS and the job's number go to
its record, it is counted, the engine's position passes it, its DONE_SIG counts up, and one that failed is in SIP_LAST_ERR (R163). Said of a
job whose writes all find a frame (R177, R240). -/
def State.SiphonEnds (s v t : State) (eng j a sig status : Nat) : Prop :=
  s.Visible v → v.Visible (v.writeLogged 6 (a + 120) (leBytes 8 (status + j % 2 ^ 32 * 2 ^ 32))) →
  t.get Reg.SIP_PROGRESS_ROUTE_DONE = (if eng = 0 then s.get Reg.SIP_PROGRESS_ROUTE_DONE + 1 else s.get Reg.SIP_PROGRESS_ROUTE_DONE) % 2 ^ 32 ∧
  t.get Reg.SIP_PROGRESS_COMBINE_DONE = (if eng = 0 then s.get Reg.SIP_PROGRESS_COMBINE_DONE else s.get Reg.SIP_PROGRESS_COMBINE_DONE + 1) % 2 ^ 32 ∧
  (t.ring eng).taken = j + 1 ∧ t.sig sig = (v.sig sig + 1) % 2 ^ 64 ∧
  t.mem = (v.writeLogged 6 (a + 120) (leBytes 8 (status + j % 2 ^ 32 * 2 ^ 32))).mem ∧
  (status ≠ 1 → t.get Reg.SIP_LAST_ERR_STATUS = status ∧ t.get Reg.SIP_LAST_ERR_ENGINE = eng ∧ t.get Reg.SIP_LAST_ERR_JOB = j % 2 ^ 32) ∧
  t.chambers = s.chambers

/-- A write that covers a granule of the bonded tier goes through at once: populated, its frame given, not sealed, not behind a closed peer
window, held by no claim, and no line of it with the host (R207, R227, R381, R433, R479). -/
def State.BondedOpen (s : State) (a : Nat) : Prop :=
  s.populated a = true ∧ (s.frameOf (pageOf a)).isSome = true ∧ s.onCart a = false ∧ s.sealedAt a = false ∧ s.peerClosed a = false ∧
  s.claimed none a = false ∧ s.cachedLines (granuleOf a) = []

/-- The state differs from another in one helictite alone. -/
def State.OnlyHel (s t : State) (n : Nat) : Prop := t = { s with hels := t.hels } ∧ ∀ m, m ≠ n → t.hel m = s.hel m

/-- A helictite is ready and an instruction with some operands stands at its PC (R215, R216). -/
def State.HelAt (s : State) (n : Nat) (op : BitVec 8) (o : HOps) : Prop := s.helReady n = true ∧ s.helWord n = (op, o)

/-- An instruction of a ready helictite writes a value to scalar register D, x0 staying zero, and steps on; nothing else changes (R215, R217). -/
def WritesX (c : Fin 1152 → HOps → Instr) (op : BitVec 8) (f : Hel → HOps → Word) : Prop :=
  ∀ (n : Fin 1152) (o : HOps) (s : State), s.HelAt n op o → Does (c n o) s fun t =>
    s.OnlyHel t n ∧ t.hel n = { s.hel n with pc := ((s.hel n).pc + 1) % 256, xregs := (t.hel n).xregs } ∧
    ∀ r, (t.hel n).x r = if r = o.d ∧ r ≠ 0 then f (s.hel n) o else (s.hel n).x r

/-- An instruction of a ready helictite branches to IMM[7:0] where a condition holds and else steps on; no register changes (R217). -/
def Branches (c : Fin 1152 → HOps → Instr) (op : BitVec 8) (p : Hel → HOps → Prop) : Prop :=
  ∀ (n : Fin 1152) (o : HOps) (s : State), s.HelAt n op o → Does (c n o) s fun t =>
    s.OnlyHel t n ∧ ∃ pc, t.hel n = { s.hel n with pc := pc } ∧
      (p (s.hel n) o → pc = o.imm.toNat % 256) ∧ (¬p (s.hel n) o → pc = ((s.hel n).pc + 1) % 256)

/-- A lanewise instruction of a ready helictite: vector register D, its flags, joined to the sticky ones, and the step to the next
instruction; nothing else changes (R217, R218). -/
def WritesH (c : Fin 1152 → HOps → Instr) (op : BitVec 8) (f : Hel → HOps → Nat → Lane × Flags) : Prop :=
  ∀ (n : Fin 1152) (o : HOps) (s : State), s.HelAt n op o → Does (c n o) s fun t =>
    let h := s.hel n
    s.OnlyHel t n ∧ t.hel n = { h with pc := (h.pc + 1) % 256, hregs := (t.hel n).hregs, flags := (t.hel n).flags } ∧
    (∀ r, ∀ k < 16, hlane ((t.hel n).v r) k = if r = o.d then (f h o k).1 else hlane (h.v r) k) ∧
    ((t.hel n).flags.invalid = true ↔ h.flags.invalid = true ∨ ∃ k < 16, (f h o k).2.invalid = true) ∧
    ((t.hel n).flags.overflow = true ↔ h.flags.overflow = true ∨ ∃ k < 16, (f h o k).2.overflow = true) ∧
    ((t.hel n).flags.flush = true ↔ h.flags.flush = true ∨ ∃ k < 16, (f h o k).2.flush = true)

/-- A lane of a helictite's vector register. -/
def Hel.lane (h : Hel) (r : BitVec 4) (k : Nat) : Lane := hlane (h.v r) k

/-- The scratch address of a helictite's instruction: xA plus the sign-extended immediate, modulo 2^64 (R216). -/
def Hel.at (h : Hel) (o : HOps) : Nat := (h.x o.a + o.imm.signExtend 64).toNat

/-- `k` scratch bytes that an instruction may use at once: aligned, inside the 2 KiB, and no granule operation of the awaited direction
outstanding on their slot (R217, R220, R221). -/
def Hel.Scratch (h : Hel) (o : HOps) (k : Nat) (store : Bool) : Prop :=
  h.at o % k = 0 ∧ h.at o + k ≤ 2048 ∧ ∀ p ∈ h.ops, ¬(p.write = store ∧ p.slot = h.at o / 256)

/-- An opcode is none of R217's: reserved. -/
def ReservedH (op : BitVec 8) : Prop :=
  ∀ r ∈ [(0x00, 0x07), (0x10, 0x1C), (0x20, 0x25), (0x30, 0x3E), (0x40, 0x48), (0x50, 0x51), (0x53, 0x56), (0x60, 0x62), (0x68, 0x68)],
    ¬(r.1 ≤ op.toNat ∧ op.toNat ≤ r.2)

/-- A helictite's program ended with FAULT at its pc, its claim released, its registers and scratch as they were (R221). -/
def State.HelFaults (s t : State) (n : Nat) : Prop :=
  t.hel n = { s.hel n with ended := some ⟨4, (s.hel n).pc, 0⟩, xrecvAt := none } ∧ t.claimOf n = none ∧
  (∀ m, m ≠ n → t.hel m = s.hel m) ∧ t.mem = s.mem ∧ t.chambers = s.chambers ∧ t.fields = s.fields

/-- The first outstanding operation of a direction on a scratch slot may complete: none before it is on its granule (R219, R382); `rest` is
what stays outstanding. -/
def Hel.Completes (h : Hel) (write : Bool) (slot : Nat) (p : HelOp) (rest : List HelOp) : Prop :=
  ∃ l r, h.ops = l ++ p :: r ∧ rest = l ++ r ∧ p.write = write ∧ p.slot = slot ∧
    ∀ q ∈ l, ¬(q.write = write ∧ q.slot = slot) ∧ (q.addr = p.addr → p.addr = none)

/-- An operation of a helictite may enter the bank of an address at once: no claim holds it back there; and on a granule of its own claim, no
line of the claim is with the host, no access that was waiting at a row boundary of the bank is still to be served, and either none waits for
the bank or no other row of it is open (R226 to R229). -/
def State.Enters (s : State) (n a : Nat) : Prop :=
  s.claimed (some n) a = false ∧ ∀ c f, s.claimOf n = some c → s.bondedAddr a = some f → c.effect = true → s.inClaim c a = true →
    s.claimLines c = [] ∧ (∀ w ∈ c.passing, w.bank ≠ s.bankOf f) ∧
    ((∀ w ∈ c.waiting, w.bank ≠ s.bankOf f) ∨ ∀ r, mapFind c.rows (s.bankOf f) = some r → r = s.rowOf f + 1)

/-- Some banks of a helictite's claim have come to a row boundary: their rows are closed, the accesses that waited for them are to be served,
and their postponed refreshes are issued; every other claim is as before (R228, R229). -/
def State.RowBoundary (s t : State) (n : Nat) (c : Claim) (banks : List Nat) : Prop :=
  (∃ d : Claim, t.claimOf n = some d ∧ d = { c with rows := d.rows, waiting := d.waiting, passing := d.passing } ∧
    (∀ b, mapFind d.rows b = if b ∈ banks then none else mapFind c.rows b) ∧
    d.waiting = c.waiting.filter (fun w => decide (w.bank ∉ banks)) ∧
    ∀ w, w ∈ d.passing ↔ w ∈ c.passing ∨ (w ∈ c.waiting ∧ w.bank ∈ banks)) ∧
  (∀ m, m ≠ n → t.claimOf m = s.claimOf m) ∧
  ∀ k, mapGet 0 t.refreshOwed k = if k / 16 = n ∧ k % 16 ∈ banks then 0 else mapGet 0 s.refreshOwed k

/-- The next helictite job may be taken: the head of the internal queue, or the posted record at the ring's position, read with nothing of it
poisoned, whichever was posted earlier (R279); its words, where its record lies, its token and number, and the state once it is taken (R160,
R222, R223). -/
def State.HlcHead (s : State) (src : JobSrc) (ws : List Nat) (ra : Option Nat) (token j : Nat) (u : State) : Prop :=
  s.get Reg.HLC_CTL_ENABLE = 1 ∧
  match src with
  | .queue => ∃ q qs, s.hlcQueue = q :: qs ∧ q.behind ≤ (s.ring 2).taken ∧ ws = q.words ∧ ra = none ∧ token = q.token ∧ j = 2 ^ 32 + token ∧ u = { s with hlcQueue := qs }
  | .ring => (∀ q, s.hlcQueue.head? = some q → (s.ring 2).taken < q.behind) ∧ j = (s.ring 2).taken ∧ (s.ring 2).v0 + j + 1 ≤ s.sig (s.get Reg.HLC_CTL_JOB_SIG) ∧ token = 0 ∧
      ∃ a bs v, a = ringAddr (s.get Reg.HLC_RING_BASE) (s.get Reg.HLC_RING_ENTRIES_M1) 64 j ∧ ra = some a ∧ s.read a 64 = (bs, false, v) ∧
        ws = recWords bs 8 ∧ u = v.setRing 2 { v.ring 2 with taken := (v.ring 2).taken + 1 }

/-- A helictite job has ended with a status and flags: it is counted, its first failure is in HLC_FAULT; of a job of the ring, FLAGS and STATUS
go to its record and, once that write is visible, its DONE_SIG counts up; an internal job reports to its submitter (R224, R235). -/
def State.HlcEnds (u t : State) (j : HlcJob) (status : Nat) (f : Flags) : Prop :=
  t.hlcJobs = u.hlcJobs.filter (fun x => x.job != j.job) ∧ t.hels = u.hels ∧ t.chambers = u.chambers ∧
  (∀ n e, j.fault = some (n, e) → t.get Reg.HLC_FAULT_JOB = j.job % 2 ^ 32 ∧ t.get Reg.HLC_FAULT_INDEX = n % 2 ^ 11 ∧
    t.get Reg.HLC_FAULT_PC = e.pc % 2 ^ 8 ∧ t.get Reg.HLC_FAULT_STATUS = status % 2 ^ 8) ∧
  t.get Reg.HLC_PROGRESS_DONE = (u.get Reg.HLC_PROGRESS_DONE + 1) % 2 ^ 32 ∧ t.get Reg.HLC_PROGRESS_LAST_STATUS = status % 2 ^ 8 ∧
  (j.recAddr = none → t.hlcDone = mapInsert u.hlcDone j.token status ∧ t.mem = u.mem ∧ ∀ k < 4096, t.sig k = u.sig k) ∧
  ∀ a, j.recAddr = some a → t.hlcDone = u.hlcDone ∧
    ∃ w : State, w = { u with hlcJobs := w.hlcJobs, fields := w.fields, irq := w.irq } ∧
      (∀ g : FieldRef, g.lo < 64 → g.off < 0x3400010 ∨ (0x3400020 ≤ g.off ∧ g.off < 0x6800000) ∨ 0x6820000 ≤ g.off → w.get g = u.get g) ∧
      let v := w.writeLogged 5 (a + 6) [BitVec.ofNat 8 ((if f.invalid then 1 else 0) + (if f.overflow then 2 else 0) + if f.flush then 4 else 0), BitVec.ofNat 8 status]
      t.mem = v.mem ∧ (w.Visible v → ∀ k < 4096, t.sig k = if k = j.doneSig then (u.sig k + 1) % 2 ^ 64 else u.sig k)

/-- Flowstone has nothing to decide anew: no slot drains and no promotion that a prefetch asked for still waits to start (R257, R263). -/
def State.Calm (s : State) : Prop :=
  (∀ m < 6, s.slotState m ≠ 4) ∧ ∀ m ∈ s.moves, m.kind = .promotion → m.prefetch ≠ none → m.started = true

/-- The next command of Flowstone from a source is of operation `op`: no PIN of that source waits, no write of an earlier one, and it is the head of the internal queues, or
the posted record at the ring's position, read with nothing of it poisoned; its words, its completion, and the state once it is taken (R242). -/
def State.FlsHead (s : State) (src : JobSrc) (op : Nat) (ws : List Nat) (w : Waiter) (u : State) : Prop :=
  recBits ws 0 3 0 = op ∧ (∀ m ∈ s.moves, ∀ x ∈ m.pins, ¬(x.recAddr.isSome = true ↔ src = .ring)) ∧
  (∀ e ∈ s.heldEnds, ∀ x st, e.work = .flowstone x st → ¬(x.recAddr.isSome = true ↔ src = .ring)) ∧
  match src with
  | .queue => ∃ q qs, s.flsQueue = q :: qs ∧ ws = q.words ∧ w = ⟨none, q.token, 0, recBits ws 3 47 0⟩ ∧ u = { s with flsQueue := qs }
  | .ring => s.get Reg.FLS_CTL_ENABLE = 1 ∧ (s.ring 3).v0 + (s.ring 3).taken + 1 ≤ s.sig (s.get Reg.FLS_CTL_JOB_SIG) ∧
      ∃ a bs v, a = ringAddr (s.get Reg.FLS_RING_BASE) (s.get Reg.FLS_RING_ENTRIES_M1) 64 (s.ring 3).taken ∧ s.read a 64 = (bs, false, v) ∧
        ws = recWords bs 8 ∧ w = ⟨some a, 0, recBits ws 0 43 32, recBits ws 3 47 0⟩ ∧
        u = (v.put Reg.FLS_DIRECT_COUNT (s.get Reg.FLS_DIRECT_COUNT)).setRing 3 { v.ring 3 with taken := (v.ring 3).taken + 1 }

/-- A command of Flowstone has completed with a status: an internal queue's submitter learns it; a ring's record takes it and, that write
visible, its signal counts up; nothing else differs (R240, R242). -/
def State.FlsDone (u t : State) (w : Waiter) (status : Nat) : Prop :=
  (w.recAddr = none → t = { u with flsDone := mapInsert u.flsDone w.token status }) ∧
  ∀ a, w.recAddr = some a → let v := u.writeLogged 9 (a + 7) [BitVec.ofNat 8 status]
    u.Visible v → t = { v with fields := t.fields } ∧ v.KeepsFields t [Reg.GLB_SIGn_VALUE w.sig] ∧ t.sig w.sig = (u.sig w.sig + 1) % 2 ^ 64

/-- Register fields outside ranges of byte offsets read as before. -/
def State.KeepsOutside (s t : State) (rs : List (Nat × Nat)) : Prop :=
  ∀ f : FieldRef, (∀ r ∈ rs, f.key < 64 * r.1 ∨ 64 * r.2 ≤ f.key) → t.get f = s.get f

/-- The registers of Traverse, ARB_ACTIVE, and the error log with its status. -/
def stepRanges : List (Nat × Nat) := [(0x3C00000, 0x3C00058), (0x4800000, 0x4800008), (0x6800000, 0x6820000)]

/-- A step is in RUN and may go on: nothing of it has failed (R294). -/
def State.StepRuns (s : State) (t : Step) : Prop := s.InRun ∧ s.trv = some t ∧ s.get Reg.TRV_STATE_STATE = 2 ∧ t.fail = none

/-- The words of the PREFETCHes that the items of a list ask for (R280). -/
def State.prefetchWords (s : State) (p : Plan) (is : List Nat) : List (List Nat) :=
  (is.filter fun i => recBits (p.item i) 10 16 16 = 1).map fun i =>
    [5 + recBits (p.item i) 10 15 0 % 2 ^ 16 * 2 ^ 16, 0, 0, (s.nowUs + recBits (p.item i) 10 47 24) % 2 ^ 48, 0, 0, 0, 0]

/-- Commands of these words have joined the internal queue of Flowstone, in order. -/
def State.Submits (s t : State) (l : List (List Nat)) : Prop :=
  t.flsQueue.map (·.words) = s.flsQueue.map (·.words) ++ l ∧ t.tokens = s.tokens + l.length

/-- A RELEASE of every gathered buffer of a plan has been submitted, and the internal queue of Flowstone with them carried out; nothing else has
been done (R287, R293). -/
def State.Releases (s t : State) (p : Plan) : Prop :=
  ∃ u : State, u = { s with tokens := u.tokens, flsQueue := u.flsQueue } ∧
    s.Submits u (p.gathers.map fun w => [7, recBits w 0 47 0, cdiv (recBits w 1 47 0) pageBytes * pageBytes, 0, 0, 0, 0, 0]) ∧
    t = u.serveFlsQueue u.flsQueue.length

/-- A step has ended without commit: Traverse is IDLE, TRV_LAST tells how, the step counts, ARB_NEXT has come into force, and the step's ledger
record ends with its status; of the registers only those of Traverse, ARB_ACTIVE and the error log differ (R294, R298, R366, R407). -/
def State.StepEnds (s t : State) (q : StepReq) (status cause : Nat) : Prop :=
  t = { s with trv := none, fields := t.fields, irq := t.irq, openRecs := t.openRecs, endedRecs := t.endedRecs } ∧
  t.get Reg.TRV_STATE_STATE = 0 ∧ t.get Reg.TRV_LAST_STAMP = q.stamp % 2 ^ 32 ∧ t.get Reg.TRV_LAST_CAUSE = cause % 2 ^ 8 ∧
  t.get Reg.TRV_LAST_STATUS = status % 2 ^ 8 ∧ t.get Reg.TRV_STEPS_ENDED = (s.get Reg.TRV_STEPS_ENDED + 1) % 2 ^ 32 ∧
  t.get Reg.TRV_STEPS_COMMITTED = s.get Reg.TRV_STEPS_COMMITTED ∧ (∀ k < 10, t.get (Reg.ARB_ACTIVE_SET_k k) = s.get (Reg.ARB_NEXT_SET_k k) % 4) ∧
  t.openRecs = s.openRecs.filter (fun r => !(r.gen == q.gen && r.k == q.k)) ∧
  t.endedRecs = s.endedRecs ++ ((s.openRecs.filter fun r => r.gen == q.gen && r.k == q.k).map fun r : LedgerRec =>
    { r with status := status, cause := cause, code := t.get Reg.TRV_FAIL_CODE }) ∧
  s.KeepsOutside t stepRanges

/-- A step has ended with a failure: as StepEnds says, and TRV_FAIL names the failed instance and its code, or is as it was where none is named (R298). -/
def State.StepFails (s t : State) (q : StepReq) (f : StepFail) : Prop :=
  s.StepEnds t q f.status f.cause ∧
  (∀ x, f.inst = some x → t.get Reg.TRV_FAIL_CODE = f.code % 2 ^ 16 ∧ t.get Reg.TRV_FAIL_PART = x.part % 2 ^ 12 ∧
    t.get Reg.TRV_FAIL_MB = x.mb % 2 ^ 13 ∧ t.get Reg.TRV_FAIL_RECOMP = b2n x.recomp ∧ t.get Reg.TRV_FAIL_ITEM = x.item % 2 ^ 10) ∧
  (f.inst = none → ∀ g ∈ [Reg.TRV_FAIL_CODE, Reg.TRV_FAIL_PART, Reg.TRV_FAIL_MB, Reg.TRV_FAIL_RECOMP, Reg.TRV_FAIL_ITEM], t.get g = s.get g)

/-- A step's plan has its gathered buffers released, and the step ends with a failure. -/
def State.StepDies (s t : State) (r : Step) (f : StepFail) : Prop :=
  ∃ u v : State, u = { s with trv := u.trv, fields := u.fields } ∧ s.KeepsFields u [Reg.TRV_STATE_STATE] ∧ u.Releases v r.plan ∧ v.StepFails t r.req f

/-- Register fields of a list alone differ. -/
def State.OnlyFields (s t : State) (fs : List FieldRef) : Prop := t = { s with fields := t.fields } ∧ s.KeepsFields t fs

/-- A port has a packet: waiting, or sent and kept for replay (R331, R332). -/
def Port.Holds (p : Port) (k : Packet) : Prop := (∃ e ∈ p.waiting, e.1 = k) ∨ ∃ e ∈ p.replay, e.pkt = k

/-- A packet of a kind on an up port passes every check and is the next in order (R332). -/
def State.Hears (s : State) (n : Nat) (kind : PKind) (k : InPacket) : Prop :=
  s.portUp n = true ∧ packetIntact kind k = true ∧ k.lseq.toNat = (s.port n).rxLseq

/-- The port has taken a packet: the next is awaited, and no replay asked for (R332). -/
def State.Took (s t : State) (n : Nat) : Prop := (t.port n).rxLseq = ((s.port n).rxLseq + 1) % 4096 ∧ (t.port n).nak = false

/-- No job, transfer, ring reduce-scatter or held write in progress bears the number that the next collective job takes. -/
def State.FreshJob (s : State) : Prop :=
  (∀ j ∈ s.cuJobs, j.id ≠ s.xferSeq) ∧ (∀ x ∈ s.tx, x.job ≠ s.xferSeq) ∧ (∀ x ∈ s.txWait, x.job ≠ s.xferSeq) ∧
  (∀ e ∈ s.heldEnds, e.work ≠ .job s.xferSeq) ∧ ∀ r ∈ s.redJobs, r.job ≠ s.xferSeq

/-- The next job of a collective unit: the head of the internal queue, or the posted record at the ring's position, read with nothing of it
poisoned; its words, where its record lies, its token, and the state once it is taken (R160, R341). -/
def State.CuHead (s : State) (unit : Nat) (src : JobSrc) (ws : List Nat) (ra : Option Nat) (token : Nat) (u : State) : Prop :=
  match src with
  | .queue => ∃ q qs, s.cuQueue = q :: qs ∧ ws = q.words ∧ ra = none ∧ token = q.token ∧ u = { s with cuQueue := qs }
  | .ring => s.get (Reg.HGPn_CU_CTL_ENABLE unit) = 1 ∧
      (s.ring (4 + unit)).v0 + (s.ring (4 + unit)).taken + 1 ≤ s.sig (s.get (Reg.HGPn_CU_CTL_JOB_SIG unit)) ∧ token = 0 ∧
      ∃ a bs v, a = ringAddr (s.get (Reg.HGPn_CU_RING_BASE unit)) (s.get (Reg.HGPn_CU_RING_ENTRIES_M1 unit)) 64 (s.ring (4 + unit)).taken ∧
        ra = some a ∧ s.read a 64 = (bs, false, v) ∧ ws = recWords bs 8 ∧ u = v.takeJob (4 + unit)

/-- A collective job has ended with a status: an internal queue's submitter learns it, or STATUS goes to the ring's record and, once that write
is visible, DONE_SIG counts up; HGPn_CU_PROGRESS counts it (R344, R352). `v` is the state with the job's other effects. -/
def State.CuEnds (v t : State) (unit : Nat) (ra : Option Nat) (token sig status : Nat) : Prop :=
  t.get (Reg.HGPn_CU_PROGRESS_DONE unit) = (v.get (Reg.HGPn_CU_PROGRESS_DONE unit) + 1) % 2 ^ 32 ∧
  t.get (Reg.HGPn_CU_PROGRESS_LAST_STATUS unit) = status ∧ t.cuJobs = v.cuJobs ∧ t.tx = v.tx ∧ t.redJobs = v.redJobs ∧ t.chambers = v.chambers ∧
  (ra = none → t.cuDone = mapInsert v.cuDone token status ∧ t.mem = v.mem ∧ ∀ k < 4096, t.sig k = v.sig k) ∧
  ∀ a, ra = some a → t.cuDone = v.cuDone ∧
    let u := v.writeLogged 8 (a + 7) [BitVec.ofNat 8 status]
    t.mem = u.mem ∧ (v.Visible u → ∀ k < 4096, t.sig k = if k = sig then (v.sig k + 1) % 2 ^ 64 else v.sig k)

/-- The mailbox holds a request of a command (R413). -/
def State.Asked (s : State) (cmd : Nat) : Prop := s.get Reg.MBX_CTL_REQ = 1 ∧ s.mbxCmd = cmd

/-- The fields of the mailbox that a response writes. -/
def respondFields : List FieldRef := (List.range 8).map Reg.MBX_D2Hk_WORD ++ [Reg.MBX_CTL_RSP, Reg.MBX_CTL_REQ]

/-- The device has responded: word 0 echoes the request with RESULT, the words that the command's rule gives follow, the others are open; RSP
rises, REQ falls, and vector 1 is raised (R413, R414). -/
def State.Responds (u t : State) (result : Nat) (words : List Nat) : Prop :=
  t = { u with fields := t.fields, irq := t.irq, freeCount := t.freeCount } ∧ u.KeepsFields t respondFields ∧
  t.get (Reg.MBX_D2Hk_WORD 0) = (u.get (Reg.MBX_H2Dk_WORD 0) % 2 ^ 32 + result * 2 ^ 32) % 2 ^ 64 ∧
  (∀ i < 7, i < words.length → t.get (Reg.MBX_D2Hk_WORD (i + 1)) = words.getD i 0 % 2 ^ 64) ∧
  t.get Reg.MBX_CTL_RSP = 1 ∧ t.get Reg.MBX_CTL_REQ = 0 ∧
  ∀ v, mapGet 0 t.irq.raised v = mapGet 0 u.irq.raised v + if v = 1 then 1 else 0

/-- A ledger record may start, and is a good one of an operation: behind no failed record where it is a FENCE (R404, R406, R409). -/
def State.GoodRecord (s : State) (op : Nat) (ws : List Nat) : Prop :=
  s.nextStarts ws = true ∧ recBits ws 0 7 0 = op ∧ recBad ws s.started = false ∧ (bit (ws.getD 0 0) 8 = true → s.ledgerBad = false)

/-- A record has been counted as started (R406, R420). -/
def State.Started (s t : State) : Prop :=
  t.started = s.started + 1 ∧ t.get Reg.HST_LEDGER_POS_STARTED = (s.started + 1) % 2 ^ 32

/-- The device may read and write its memory for the host: the link is up and memory active (R397). -/
def State.HostOpen (s : State) : Prop := s.get Reg.HST_LINK_STATE = 2 ∧ s.memActive = true

/-- A cold reset is applied (R446, R449, R450): every block is as after reset, but for fuses, the flash, the attestation counter, keys, the
panel's pins and what has left the device; BAR2 is reset; the latch keeps the first cause of a reset that is applied already. -/
def State.ColdReset (s t : State) (cause rail : Nat) : Prop :=
  t = { State.reset with
    pending := s.pending, straps := s.straps, freeCount := s.freeCount, flash := s.flash, attCounter := s.attCounter
    devId := s.devId, devKey := s.devKey, hostWrites := s.hostWrites, irq := { s.irq with table := msixTable, pba := 0 }, hostReply := s.hostReply, twinSent := s.twinSent
    tripped := t.tripped, vddMv := t.vddMv, fields := t.fields
    rstLatch := if s.inReset = true ∧ s.rstLatch ≠ none then s.rstLatch else some (cause, rail) } ∧
  (∀ f ∈ panelPins, t.get f = s.get f % 2) ∧
  ∀ f : FieldRef, f.key ∉ panelPins.map FieldRef.key → t.get f = mapGet 0 s.straps f.key

end Sys2Proof.Machine
end

