-- ==== Sys2Proof/WellFormed.lean ====
section
/-! DEFINITION. Which commands are well formed: lists have the lengths that the spec gives what they carry. -/

namespace Sys2Proof

/-- A packet as it comes in: a WRITE or READ_RESP carries its granules, 256 bytes each (R327); the other kinds carry none. -/
def InPacket.wf (k : InPacket) (carries : Bool) : Bool :=
  if carries then decide (k.data.length = k.ngran.val) && k.data.all fun g => decide (g.length = 256) else k.data.isEmpty

/-- A command is well formed. -/
def Instr.wf (i : Instr) : Bool :=
  match i with
  | .nop _ _ _ => true
  | .br _ _ _ => true
  | .brS _ _ _ => true
  | .call _ _ _ => true
  | .ret _ _ _ => true
  | .halt _ _ _ => true
  | .postSigSet _ _ _ => true
  | .postSigAdd _ _ _ => true
  | .waitSigGe _ _ _ => true
  | .waitSigEq _ _ _ => true
  | .waitTag _ _ _ => true
  | .fence _ _ _ => true
  | .add _ _ _ => true
  | .sub _ _ _ => true
  | .and _ _ _ => true
  | .or _ _ _ => true
  | .xor _ _ _ => true
  | .shl _ _ _ => true
  | .shr _ _ _ => true
  | .sra _ _ _ => true
  | .mul _ _ _ => true
  | .min _ _ _ => true
  | .max _ _ _ => true
  | .liL _ _ _ => true
  | .liH _ _ _ => true
  | .cmpEq _ _ _ => true
  | .cmpNe _ _ _ => true
  | .cmpLt _ _ _ => true
  | .cmpGe _ _ _ => true
  | .cmpLtu _ _ _ => true
  | .cmpGeu _ _ _ => true
  | .pand _ _ _ => true
  | .por _ _ _ => true
  | .pxor _ _ _ => true
  | .dscBase _ _ _ => true
  | .dscAdd _ _ _ => true
  | .rdCyc _ _ _ => true
  | .ldS _ _ _ => true
  | .ldV _ _ _ => true
  | .ldD _ _ _ => true
  | .ldT _ _ _ => true
  | .ldW _ _ _ => true
  | .mma _ _ _ => true
  | .wsw _ _ _ => true
  | .vaddF32 _ _ _ => true
  | .vsubF32 _ _ _ => true
  | .vmulF32 _ _ _ => true
  | .vfmaF32 _ _ _ => true
  | .vmaxF32 _ _ _ => true
  | .vminF32 _ _ _ => true
  | .vaddI32 _ _ _ => true
  | .vsubI32 _ _ _ => true
  | .vand _ _ _ => true
  | .vor _ _ _ => true
  | .vxor _ _ _ => true
  | .vcmpLtF32 _ _ _ => true
  | .vcmpEqF32 _ _ _ => true
  | .vsel _ _ _ => true
  | .vbcast _ _ _ => true
  | .vredAddF32 _ _ _ => true
  | .vredMaxF32 _ _ _ => true
  | .vrcp _ _ _ => true
  | .vrsqrt _ _ _ => true
  | .vexp _ _ _ => true
  | .vlog _ _ _ => true
  | .cvtSat _ _ _ => true
  | .cvtIeee _ _ _ => true
  | .cvtUp _ _ _ => true
  | .trnW _ _ _ => true
  | .trnR _ _ _ => true
  | .movAcc _ _ _ => true
  | .stS _ _ _ => true
  | .stV _ _ _ => true
  | .stD _ _ _ => true
  | .stT _ _ _ => true
  | .stAdd _ _ _ => true
  | .stAcc _ _ _ => true
  | .stAccAdd _ _ _ => true
  | .mv _ _ _ => true
  | .tagClear _ _ => true
  | .descriptorRequest _ _ => true
  | .weightTileReady _ => true
  | .swap _ => true
  | .vectorEntry _ _ _ _ => true
  | .accumulatorRowWrite _ _ _ => true
  | .storeRerun _ => true
  | .waitTimeout _ => true
  | .chamberHalt _ => true
  | .chamberStart _ _ _ args => decide (args.length ≤ 8)
  | .chamberStop _ _ => true
  | .chamberReset _ _ => true
  | .glbSigWrite _ _ => true
  | .bundleWindowWrite _ _ _ => true
  | .regionTableWrite _ _ _ _ => true
  | .registerWrite _ _ => true
  | .chamberRetirement _ => true
  | .keeperChamberRetirement _ => true
  | .build _ => true
  | .code _ => true
  | .loadTable _ => true
  | .tableSlotWrite _ => true
  | .coderEnable _ => true
  | .siphonEnable => true
  | .siphonDisable => true
  | .route => true
  | .combine => true
  | .bondedRead _ _ _ => true
  | .bondedWrite _ data => decide (data.length = 256)
  | .partialWriteMerge _ m data => decide (1 ≤ data.length) && decide (m.off.toNat + data.length ≤ 256)
  | .refresh _ _ => true
  | .refreshRateChange _ _ => true
  | .patrolScrub _ _ _ => true
  | .rowMove _ _ _ => true
  | .helictiteJobStart _ => true
  | .helictiteJobEnd _ => true
  | .hlcEnable => true
  | .hlcDisable => true
  | .hNop _ _ => true
  | .hEnd _ _ => true
  | .hBr _ _ => true
  | .hBz _ _ => true
  | .hBnz _ _ => true
  | .hBlt _ _ => true
  | .hDbnz _ _ => true
  | .hTrap _ _ => true
  | .hAdd _ _ => true
  | .hSub _ _ => true
  | .hMul _ _ => true
  | .hAnd _ _ => true
  | .hOr _ _ => true
  | .hXor _ _ => true
  | .hShl _ _ => true
  | .hShr _ _ => true
  | .hAddi _ _ => true
  | .hLi _ _ => true
  | .hLih _ _ => true
  | .hDivu _ _ => true
  | .hRemu _ _ => true
  | .hLv _ _ => true
  | .hSv _ _ => true
  | .hLvh _ _ => true
  | .hSvh _ _ => true
  | .hLx _ _ => true
  | .hSx _ _ => true
  | .hVadd _ _ => true
  | .hVsub _ _ => true
  | .hVmul _ _ => true
  | .hVfma _ _ => true
  | .hVmax _ _ => true
  | .hVmin _ _ => true
  | .hVabs _ _ => true
  | .hVneg _ _ => true
  | .hVdotBf2 _ _ => true
  | .hVcmpLt _ _ => true
  | .hVsel _ _ => true
  | .hVbcast _ _ => true
  | .hVredAdd _ _ => true
  | .hVredMax _ _ => true
  | .hVlane _ _ => true
  | .hVrcp _ _ => true
  | .hVrsqrt _ _ => true
  | .hVexp _ _ => true
  | .hVlog _ _ => true
  | .hVcvtF2i _ _ => true
  | .hVcvtI2f _ _ => true
  | .hVaddI32 _ _ => true
  | .hVmovx _ _ => true
  | .hVinsx _ _ => true
  | .hRg _ _ => true
  | .hWg _ _ => true
  | .hRgComplete _ _ => true
  | .hClm _ _ => true
  | .claimEffect _ => true
  | .hRel _ _ => true
  | .hYld _ _ => true
  | .forcedRowBoundary _ => true
  | .hFence _ _ => true
  | .hXsend _ _ => true
  | .hXrecv _ _ => true
  | .hXrecvTimeout _ => true
  | .hXcount _ _ => true
  | .hPost _ _ => true
  | .register _ => true
  | .deregister _ => true
  | .pin _ => true
  | .unpin _ => true
  | .prefetch _ => true
  | .demote _ => true
  | .release _ => true
  | .query _ => true
  | .drain _ => true
  | .drainCancel _ => true
  | .flsEnable => true
  | .epochEnd => true
  | .moveStart => true
  | .moveSwitch _ => true
  | .prefetchLate _ => true
  | .wantedExpire _ => true
  | .waitingWriteResume => true
  | .drainComplete => true
  | .cartridgeFailure _ => true
  | .stepAccept => true
  | .microbatchAdmit => true
  | .instanceDispatch => true
  | .instanceComplete _ => true
  | .ringBlockSend _ => true
  | .gatherIssue _ => true
  | .gatherLanded _ => true
  | .queueSlotSend _ => true
  | .stepComplete => true
  | .stepFail => true
  | .stallTimeout => true
  | .runonExpire => true
  | .trvAbort => true
  | .keeperStart _ _ => true
  | .keeperStop => true
  | .keeperUpdate _ _ => true
  | .keeperPublish _ => true
  | .portTraining _ _ peer => decide (peer.reserved.length = 4)
  | .portRetrain _ => true
  | .portRetry _ => true
  | .portReset _ => true
  | .linkWrite _ k => k.wf true
  | .linkReadReq _ k => k.wf false
  | .linkReadResp _ k => k.wf true
  | .linkPost _ k => k.wf false
  | .linkDone _ k => k.wf false
  | .packetForward _ kind k => k.wf (kind == .write || kind == .readResp)
  | .controlFlit _ credits _ _ => decide (credits.length = 4)
  | .controlFlitInsert _ => true
  | .cuEnable _ => true
  | .put _ _ => true
  | .get _ _ => true
  | .gather _ _ => true
  | .redscat _ _ _ => true
  | .dispatch _ _ => true
  | .arbiterBeat _ _ => true
  | .arbiterDecision _ rs => rs.all fun r => decide (1 ≤ r.beats.toNat)
  | .grantWithdraw _ => true
  | .arbNextWrite _ => true
  | .arbTableActivate _ => true
  | .arbTableWrite _ _ _ _ => true
  | .hostLinkTrain _ _ _ _ => true
  | .hostLinkReset _ => true
  | .hostMemRead _ _ => true
  | .hostMemWrite _ data => decide (data.length = 64)
  | .bisnpResponse _ => true
  | .biTimeout => true
  | .doorbellWake _ _ => true
  | .ledgerNop rec => decide (rec.length = 32)
  | .ledgerStep rec => decide (rec.length = 32)
  | .ledgerWrite rec => decide (rec.length = 32)
  | .copyIn rec data => (decide (rec.length = 32) || rec.isEmpty) && data.all fun p => decide (p.bytes.length ≤ 256)
  | .copyOut rec _ => decide (rec.length = 32) || rec.isEmpty
  | .recordComplete => true
  | .irqHoldoffExpire => true
  | .uioWrite _ data => !data.isEmpty
  | .uioRead _ len => decide (1 ≤ len.toNat)
  | .status => true
  | .attach _ _ => true
  | .detach => true
  | .selftest _ => true
  | .retire => true
  | .imgBegin => true
  | .imgData => true
  | .imgCommit _ => true
  | .imageFlashWrite _ _ => true
  | .attest sig => decide (sig.length = 3284)
  | .bottomTreeBuild => true
  | .coldRestart => true
  | .bypass _ => true
  | .idcode => true
  | .samplePreload _ _ => true
  | .extest _ _ => true
  | .jtagPrivateAccess _ _ => true
  | .debugDataAccess _ => true
  | .powerOn _ => true
  | .pwrRstNAssert => true
  | .coldBoot c => c.fitted.all fun p => decide (p.off.toNat + p.bytes.length ≤ 2 ^ 28)
  | .referenceLoss => true
  | .railUndervoltage _ => true
  | .coreResetLevel _ => true
  | .dipStart _ => true
  | .dipEnd _ _ => true
  | .brownRelease => true
  | .pstateRequest _ => true
  | .dozeEntry => true
  | .keepEntry => true
  | .powerStateExit => true
  | .governorInterval _ => true
  | .iccExcess _ => true
  | .govLimitWrite _ _ => true
  | .thermalTrip _ _ => true
  | .slotButtonPress _ => true
  | .latchClose _ => true
  | .cartridgeAddComplete _ _ => true
  | .cartridgeAddFail _ _ => true
  | .latchOpen _ => true
  | .cartridgeRemoved _ => true
  | .deviceButtonPress _ _ => true
  | .twinPairing _ => true
  | .mirrorCopy => true
  | .markReceive _ _ => true
  | .commitAck => true
  | .heartbeatSend => true
  | .heartbeatReceive _ => true
  | .heartbeatTimeout => true
  | .twinTakeover => true
  | .handoverMark => true
  | .handoverComplete => true
  | .resyncStart _ => true
  | .resyncFinish => true
  | .hWgComplete _ _ => true
  | .buttonRelease _ => true
  | .cartridgeInserted _ => true
  | .codePatternEnd _ => true

end Sys2Proof
end

