-- ==== Sys2Proof/Certificates/Slice0/Obligations.lean ====
section
/-! DEFINITION. The statements for the provers. -/

open Sys2Proof Sys2Proof.Machine

/-! ## The machine -/

/-- A step takes the command at the front of the queue and runs it on the state with the queue's rest. -/
def Obligations.StepRunsFrontCommand : Prop :=
  ∀ (c : Instr) (cs : List Instr) (s : State), step { s with pending := c :: cs } = exec c { s with pending := cs }

/-- A step with no command waiting is one cycle of ACLK (the model's choice, log entry 1). While a cold reset is applied nothing is
clocked. Otherwise the count of cycles goes up by one, that of enabled chamber cycles where the governor's duty lets the cycle
through in Run outside Hold (R452, R453, R456, R463), and beside counters in registers nothing else changes, but that collective transfers
that wait may start with it (log entry 83): what they do is said elsewhere. -/
def Obligations.IdleStepPassesOneCycle : Prop :=
  ∀ s : State, s.pending = [] → ∃ t, step s = .next t ∧
    if s.inReset then t = s
    else
      let d := s.get Reg.PCR_GOV_STAT_DUTY_A
      let on := decide (s.cycle * d / 64 < (s.cycle + 1) * d / 64) && !s.flag Reg.PCR_PSTATE_HOLD && s.get Reg.PCR_PSTATE_STATE == 0
      t.cycle = s.cycle + 1 ∧ (s.txWait = [] ∨ s.flag Reg.PCR_PSTATE_HOLD = true →
      t = { s with fields := t.fields, chambers := t.chambers, cycle := s.cycle + 1, aclk := if on then s.aclk + 1 else s.aclk
                   dozeIdle := t.dozeIdle, keepIdle := t.keepIdle } ∧
      ∀ n, t.ch n = { s.ch n with fedA := (t.ch n).fedA, fedB := (t.ch n).fedB })

/-- No command is refused and none faults, in any state: whatever the spec does not let it do leaves a next state. -/
def Obligations.CommandsNeverStop : Prop := ∀ (c : Instr) (s : State), ∃ t, exec c s = .next t

/-- Every step keeps every memory of the device in canonical form. -/
def Obligations.StepsKeepMemoriesCanonical : Prop := ∀ s t : State, s.Canon → step s = .next t → t.Canon

/-- The state after reset has every memory in canonical form, and its queue is empty. -/
def Obligations.ResetIsCanonical : Prop := State.reset.Canon ∧ State.reset.pending = []

/-! ## Chambers: the slots of a bundle that is taken -/

/-- The scalar results of the S slot, in any bundle that is taken (R41). -/
def Obligations.ScalarSlotResults : Prop :=
  WritesScalar .add 0x01 (fun a b _ _ _ => a + b) ∧
  WritesScalar .sub 0x02 (fun a b _ _ _ => a - b) ∧
  WritesScalar .and 0x03 (fun a b _ _ _ => a &&& b) ∧
  WritesScalar .or 0x04 (fun a b _ _ _ => a ||| b) ∧
  WritesScalar .xor 0x05 (fun a b _ _ _ => a ^^^ b) ∧
  WritesScalar .shl 0x06 (fun a b _ _ _ => a <<< (b.setWidth 6).toNat) ∧
  WritesScalar .shr 0x07 (fun a b _ _ _ => a >>> (b.setWidth 6).toNat) ∧
  WritesScalar .sra 0x08 (fun a b _ _ _ => a.sshiftRight (b.setWidth 6).toNat) ∧
  WritesScalar .mul 0x09 (fun a b _ _ _ => BitVec.ofNat 64 (a.toNat * b.toNat)) ∧
  WritesScalar .min 0x0A (fun a b _ _ _ => if a.toInt ≤ b.toInt then a else b) ∧
  WritesScalar .max 0x0B (fun a b _ _ _ => if a.toInt ≤ b.toInt then b else a) ∧
  WritesScalar .liL 0x0C (fun _ _ _ imm _ => imm.signExtend 64) ∧
  WritesScalar .liH 0x0D (fun _ _ old imm _ => imm ++ old.extractLsb' 0 32) ∧
  WritesScalar .rdCyc 0x24 (fun _ _ _ _ cyc => cyc)

/-- The predicate results of the S slot: comparisons, and the predicate operations; p0 reads 1 whatever is written (R24, R41). -/
def Obligations.PredicateSlotResults : Prop :=
  WritesPredicate .cmpEq 0x10 (fun a b _ _ => decide (a = b)) ∧
  WritesPredicate .cmpNe 0x11 (fun a b _ _ => decide (a ≠ b)) ∧
  WritesPredicate .cmpLt 0x12 (fun a b _ _ => decide (a.toInt < b.toInt)) ∧
  WritesPredicate .cmpGe 0x13 (fun a b _ _ => decide (b.toInt ≤ a.toInt)) ∧
  WritesPredicate .cmpLtu 0x14 (fun a b _ _ => decide (a.toNat < b.toNat)) ∧
  WritesPredicate .cmpGeu 0x15 (fun a b _ _ => decide (b.toNat ≤ a.toNat)) ∧
  WritesPredicate .pand 0x18 (fun _ _ p q => p && q) ∧
  WritesPredicate .por 0x19 (fun _ _ p q => p || q) ∧
  WritesPredicate .pxor 0x1A (fun _ _ p q => p != q)

/-- dsc.base and dsc.add replace the BASE field of a descriptor, modulo 2^48, and no other bit of it (R41, R133). -/
def Obligations.DescriptorBaseResults : Prop :=
  WritesBase .dscBase 0x20 (fun _ a => a) ∧ WritesBase .dscAdd 0x21 (fun base a => base + a)

/-- The C slot's changes of the PC and the return stack, in any bundle that is taken: nop there passes to the next bundle, br, br.s, call and
ret go where R39 says, and a branch that is not taken goes on (R34, R37, R39). -/
def Obligations.ControlSlotResults : Prop :=
  ∀ (ch : Fin 28) (o : COps) (i : Issue) (s : State),
    (s.Takes ch (withNop i 0) → Does (.nop ch 0 i) s fun t => t.chPc ch = (s.chPc ch + 1) % 4096 ∧ (t.ch ch).retStack = (s.ch ch).retStack) ∧
    (s.Takes ch (withC i 0x01 o) → Does (.br ch o i) s fun t =>
      t.chPc ch = (if (s.ch ch).guard o.guard then o.target.toNat else (s.chPc ch + 1) % 4096) ∧ (t.ch ch).retStack = (s.ch ch).retStack) ∧
    (s.Takes ch (withC i 0x02 o) → (s.ch ch).guard o.guard = true → Does (.brS ch o i) s fun t =>
      t.chPc ch = ((s.ch ch).sreg o.sreg).toNat ∧ ((s.ch ch).sreg o.sreg).toNat ≤ 4095 ∧ (t.ch ch).retStack = (s.ch ch).retStack) ∧
    (s.Takes ch (withC i 0x03 o) → (s.ch ch).guard o.guard = true → Does (.call ch o i) s fun t =>
      t.chPc ch = o.target.toNat ∧ (t.ch ch).retStack = (s.chPc ch + 1) :: (s.ch ch).retStack ∧ (s.ch ch).retStack.length < 32) ∧
    (s.Takes ch (withC i 0x04 o) → (s.ch ch).guard o.guard = true → Does (.ret ch o i) s fun t =>
      ∃ a rest, (s.ch ch).retStack = a :: rest ∧ t.chPc ch = a % 4096 ∧ (t.ch ch).retStack = rest)

/-- halt stops the chamber once the bundle's other slots have taken effect: no bundle issues after it, and where no slot has failed the
recorded cause is DONE, FAULT_PC the bundle and NEXT_PC the one after it (R39, R60). -/
def Obligations.HaltStopsChamber : Prop :=
  ∀ (ch : Fin 28) (o : COps) (i : Issue) (s : State), s.Takes ch (withC i 0x05 o) → (s.ch ch).guard o.guard = true →
    Does (.halt ch o i) s fun t => t.mayIssue ch = false ∧ ∃ h, (t.ch ch).halt = some h ∧
      (i.bundle.vop = 0 → (i.upsets.any (·.double)) = false → (i.accUpsets.any (·.double)) = false →
        h.cause = 0x01 ∧ h.faultPc = s.chPc ch ∧ h.nextPc = (s.chPc ch + 1) % 4096)

/-- A post to this device with no earlier store outstanding and no post held sets its signal word, or adds to it modulo 2^64; while a
store issued before it is outstanding the post is held and every signal word stays (R39, R50, R52). -/
def Obligations.PostsUpdateSignals : Prop :=
  ∀ (ch : Fin 28) (o : COps) (i : Issue) (s : State), o.dev = 0xFF → (s.ch ch).posts = [] → (s.ch ch).guard o.guard = true →
    let v := if o.i then o.imm16.toNat else ((s.ch ch).sreg o.sval).toNat
    let held := (s.ch ch).ops.any fun p => p.kind != .ldT && p.kind != .ldW && decide (p.seq < (s.ch ch).seq)
    (s.Takes ch (withC i 0x08 o) → Does (.postSigSet ch o i) s fun t =>
      if held then (t.ch ch).posts.length = 1 ∧ ∀ n < 4096, t.sig n = s.sig n
      else (t.ch ch).posts = [] ∧ ∀ n < 4096, t.sig n = if n = o.target.toNat then v else s.sig n) ∧
    (s.Takes ch (withC i 0x09 o) → Does (.postSigAdd ch o i) s fun t =>
      if held then (t.ch ch).posts.length = 1 ∧ ∀ n < 4096, t.sig n = s.sig n
      else (t.ch ch).posts = [] ∧ ∀ n < 4096, t.sig n = if n = o.target.toNat then (s.sig n + v) % 2 ^ 64 else s.sig n)

/-- wait.sig, wait.tag and fence: a bundle that is taken with one of them has its condition met and goes on to the next bundle; with the
condition not met the bundle that stands at the PC waits, in WAIT for wait.sig and wait.tag, and no register, memory or outstanding operation of any chamber
changes (R27, R35, R39). -/
def Obligations.WaitsHoldTheBundle : Prop :=
  ∀ (ch : Fin 28) (o : COps) (i : Issue) (s : State) (c : Instr) (op : BitVec 8) (met : Prop),
    (let v := if o.i then o.imm16.toNat else ((s.ch ch).sreg o.sval).toNat
     (c = .waitSigGe ch o i ∧ op = 0x0A ∧ (met ↔ v ≤ s.sig o.target.toNat)) ∨
     (c = .waitSigEq ch o i ∧ op = 0x0B ∧ (met ↔ s.sig o.target.toNat = v)) ∨
     (c = .waitTag ch o i ∧ op = 0x0C ∧ (met ↔ ∀ p ∈ (s.ch ch).ops, bit (o.target.toNat % 256) p.tag = false)) ∨
     (c = .fence ch o i ∧ op = 0x0D ∧
       (met ↔ ∀ p ∈ (s.ch ch).ops, p.kind = .ldT ∨ p.kind = .ldW ∨ (s.ch ch).seq ≤ p.seq))) →
    (s.ch ch).guard o.guard = true →
    (s.Takes ch (withC i op o) → met ∧ Does c s fun t => t.chPc ch = (s.chPc ch + 1) % 4096) ∧
    (s.mayIssue ch = true → s.fetched ch = (withC i op o).bundle → illegalSlot (withC i op o).bundle = none → (i.upsets.any fun u => u.double && u.bank.val == 32) = false →
      ¬met → Does c s fun t => (op ≠ 0x0D → t.chState ch = 3) ∧ t.chPc ch = s.chPc ch ∧ t.mem = s.mem ∧
        ∀ m, ({ t.ch m with waitSince := none } : Chamber).core = ({ s.ch m with waitSince := none } : Chamber).core)

/-- ld.s, ld.v and ld.d, in any bundle that is taken: byte k of the destination, counted from bit 0 (of lane 0 on for a vector), is the byte
of local memory at SA + IMM32 + k as it stood before the bundle; the address is aligned and inside local memory (R28, R42, R496). -/
def Obligations.LocalLoads : Prop :=
  ∀ (ch : Fin 28) (o : LOps) (i : Issue) (s : State), (s.ch ch).guard o.guard = true →
    let lo : Int := ((s.ch ch).sreg o.sa).toNat + o.imm32.toInt
    let byteAt := fun k : Nat => memByte (s.ch ch).lmem (lo.toNat + k)
    (s.Takes ch (withL i 0x01 o) → 0 ≤ lo ∧ lo % 8 = 0 ∧ lo + 8 ≤ 0x1000000 ∧ Does (.ldS ch o i) s fun t =>
      ∀ k < 8, ((t.ch ch).sreg o.dst).extractLsb' (8 * k) 8 = byteAt k) ∧
    (s.Takes ch (withL i 0x02 o) → 0 ≤ lo ∧ lo % 64 = 0 ∧ lo + 512 ≤ 0x1000000 ∧ Does (.ldV ch o i) s fun t =>
      ∀ k < 128, ∀ j < 4, (lane ((t.ch ch).vreg o.dst) k).extractLsb' (8 * j) 8 = byteAt (4 * k + j)) ∧
    (s.Takes ch (withL i 0x03 o) → 0 ≤ lo ∧ lo % 128 = 0 ∧ lo + 128 ≤ 0x1000000 ∧ Does (.ldD ch o i) s fun t =>
      ∀ k < 128, ((t.ch ch).dreg o.dsc).extractLsb' (8 * k) 8 = byteAt k)

/-- st.s, st.v and st.d, in any bundle that is taken: the bytes of the scalar SB, of the vector VS from lane 0 on, or of the descriptor DSC
go to local memory from SA + IMM32 on, and no other byte of it changes (R48). -/
def Obligations.LocalStores : Prop :=
  StoresLocal .stS 0x01 8 (fun c o k => ((c.sreg o.sb).extractLsb' (8 * k) 8)) ∧
  StoresLocal .stV 0x02 512 (fun c o k => (lane (c.vreg o.vs) (k / 4)).extractLsb' (8 * (k % 4)) 8) ∧
  StoresLocal .stD 0x03 128 (fun c o k => ((c.dreg o.dsc).extractLsb' (8 * k) 8))

/-- The asynchronous instructions, in any bundle that is taken, each add one outstanding operation to the chamber with its tag and a copy of
its descriptor, and take their scalars at issue: ld.t and the stores their local address SA, the accumulator stores also OTYPE, the array,
STATS and SSCALE, mv its source SB and length IMM32, and ld.w its mode and table slot and the image then in that slot (R29, R32, R42, R49). -/
def Obligations.AsynchronousStarts : Prop :=
  ∀ (ch : Fin 28) (i : Issue),
    (∀ o : LOps, StartsAsync (.ldT ch o i) ch (withL i 0x04 o) o.guard .ldT o.tag o.dsc (fun c p => p.laddr = (c.sreg o.sa).toNat) ∧
      StartsAsync (.ldW ch o i) ch (withL i 0x05 o) o.guard .ldW o.tag o.dsc (fun c p =>
        p.xmode = o.xmode.toNat ∧ p.xslot = (if o.xslot then 1 else 0) ∧ p.table = c.slots.getD (if o.xslot then 1 else 0) [])) ∧
    ∀ o : TOps,
      let here := fun (c : Chamber) (p : AsyncOp) => p.laddr = (c.sreg o.sa).toNat
      let acc := fun (c : Chamber) (p : AsyncOp) => here c p ∧ p.otype = o.otype.toNat ∧ p.ieee = o.ieee ∧
        p.arr = (if o.arr then 1 else 0) ∧ p.stats = o.stats ∧ p.sscale = (c.sreg o.sscale).toNat
      StartsAsync (.stT ch o i) ch (withT i 0x04 o) o.guard .stT o.tag o.dsc here ∧
      StartsAsync (.stAdd ch o i) ch (withT i 0x05 o) o.guard .stAdd o.tag o.dsc here ∧
      StartsAsync (.stAcc ch o i) ch (withT i 0x06 o) o.guard .stAcc o.tag o.dsc acc ∧
      StartsAsync (.stAccAdd ch o i) ch (withT i 0x07 o) o.guard .stAccAdd o.tag o.dsc acc ∧
      StartsAsync (.mv ch o i) ch (withT i 0x08 o) o.guard .mv o.tag o.dsc (fun c p =>
        here c p ∧ p.src = (c.sreg o.sb).toNat ∧ p.len = o.imm32.toNat)

/-- ld.w makes the shadow tile LOADING with the type of its descriptor; it issues only while the shadow is EMPTY (R43, R77). -/
def Obligations.WeightLoadTakesShadow : Prop :=
  ∀ (ch : Fin 28) (o : LOps) (i : Issue) (s : State), s.Takes ch (withL i 0x05 o) → (s.ch ch).guard o.guard = true →
    s.get (Reg.CHn_WTILE_SHADOW ch) = 0 ∧ Does (.ldW ch o i) s fun t =>
      t.get (Reg.CHn_WTILE_SHADOW ch) = 1 ∧ t.get (Reg.CHn_WTILE_SHADOW_TYPE ch) = (((s.ch ch).dreg o.dsc).extractLsb' 48 4).toNat ∧
      (t.ch ch).shadowOp = some (s.ch ch).seq

/-- mma and wsw, in any bundle that is taken, are queued behind the earlier ones, mma with its scalars as read at issue, and its rows split
between the arrays: ARR 1 all on A, 2 all on B, 3 the first half, rounded up, on A and the rest on B (R44, R45, R78). -/
def Obligations.MatrixInstructionsQueue : Prop :=
  ∀ (ch : Fin 28) (o : MOps) (i : Issue) (s : State), (s.ch ch).guard o.guard = true →
    let c := s.ch ch
    let rows := (c.sreg o.srows).toNat
    (s.Takes ch (withM i 0x01 o) → 1 ≤ rows ∧ rows ≤ 65535 ∧ Does (.mma ch o i) s fun t => ∃ e : Mma,
      (t.ch ch).mmas = c.mmas ++ [e] ∧ e.seq = c.seq ∧ e.wsw = false ∧ e.swap = o.swap ∧
      e.atype = o.atype.toNat ∧ e.wtype = o.wtype.toNat ∧ e.zero = o.zero ∧ e.maskz = o.maskz ∧ e.msk = o.msk ∧
      e.rows = rows ∧ e.acc = (c.sreg o.sacc).toNat ∧ e.pitch = (c.sreg o.spitch).toNat ∧
      e.act = (c.sreg o.sact).toNat - (c.sreg o.sact).toNat % 64 ∧ e.mask = (c.sreg o.smask).toNat - (c.sreg o.smask).toNat % 64 ∧
      (e.nextA, e.endA) = (0, if o.arr = 1 then rows else if o.arr = 3 then rows - rows / 2 else 0) ∧
      (o.arr = 2 → (e.nextB, e.endB) = (0, rows)) ∧ (o.arr = 3 → (e.nextB, e.endB) = (rows - rows / 2, rows)) ∧
      (o.arr = 1 → (e.nextB, e.endB) = (e.endB, 0) ∨ e.endB ≤ e.nextB)) ∧
    (s.Takes ch (withM i 0x02 o) → Does (.wsw ch o i) s fun t => ∃ e : Mma,
      (t.ch ch).mmas = c.mmas ++ [e] ∧ e.seq = c.seq ∧ e.wsw = true ∧ e.swap = true ∧ e.inA = true ∧ e.inB = true ∧
      e.endA ≤ e.nextA ∧ e.endB ≤ e.nextB)

/-- The vector results of the V slot, lane by lane, in any bundle that is taken (R46, R113 to R119, R150). A reduction leaves lanes 1 to 127
zero; the value of its tree and of the approximations is in statements of their own. -/
def Obligations.VectorSlotResults : Prop :=
  WritesLanes .vaddF32 0x01 (fun c o k => (fadd (laneA c o k) (laneB c o k)).1) ∧
  WritesLanes .vsubF32 0x02 (fun c o k => (fsub (laneA c o k) (laneB c o k)).1) ∧
  WritesLanes .vmulF32 0x03 (fun c o k => (fmul (laneA c o k) (laneB c o k)).1) ∧
  WritesLanes .vfmaF32 0x04 (fun c o k => (ffma (laneA c o k) (laneB c o k) (laneC c o k)).1) ∧
  WritesLanes .vmaxF32 0x05 (fun c o k => (fmax (laneA c o k) (laneB c o k)).1) ∧
  WritesLanes .vminF32 0x06 (fun c o k => (fmin (laneA c o k) (laneB c o k)).1) ∧
  WritesLanes .vaddI32 0x08 (fun c o k => laneA c o k + laneB c o k) ∧
  WritesLanes .vsubI32 0x09 (fun c o k => laneA c o k - laneB c o k) ∧
  WritesLanes .vand 0x0A (fun c o k => laneA c o k &&& laneB c o k) ∧
  WritesLanes .vor 0x0B (fun c o k => laneA c o k ||| laneB c o k) ∧
  WritesLanes .vxor 0x0C (fun c o k => laneA c o k ^^^ laneB c o k) ∧
  WritesLanes .vcmpLtF32 0x10 (fun c o k => if ltVal (val32 (laneA c o k)) (val32 (laneB c o k)) then 0xFFFFFFFF else 0) ∧
  WritesLanes .vcmpEqF32 0x11 (fun c o k => feqMask (laneA c o k) (laneB c o k)) ∧
  WritesLanes .vsel 0x12 (fun c o k => if laneC c o k = 0 then laneB c o k else laneA c o k) ∧
  WritesLanes .vbcast 0x14 (fun c o _ => (c.sreg o.sreg).extractLsb' 0 32) ∧
  WritesLanes .vredAddF32 0x15 (fun c o k => if k = 0 then pairTree (fun x y => (fadd x y).1) 7 (laneA c o) 0 else 0) ∧
  WritesLanes .vredMaxF32 0x16 (fun c o k => if k = 0 then pairTree (fun x y => (fmax x y).1) 7 (laneA c o) 0 else 0) ∧
  WritesLanes .vrcp 0x18 (fun c o k => (frcp (laneA c o k)).1) ∧
  WritesLanes .vrsqrt 0x19 (fun c o k => (frsqrt (laneA c o k)).1) ∧
  WritesLanes .vexp 0x1A (fun c o k => (fexp (laneA c o k)).1) ∧
  WritesLanes .vlog 0x1B (fun c o k => (flog (laneA c o k)).1) ∧
  WritesLanes .cvtSat 0x20 (fun c o k => BitVec.ofNat 32 (convert o.typ.toNat false (laneA c o k)).1) ∧
  WritesLanes .cvtIeee 0x21 (fun c o k => BitVec.ofNat 32 (convert o.typ.toNat true (laneA c o k)).1) ∧
  WritesLanes .cvtUp 0x22 (fun c o k => (widen o.typ.toNat ((laneA c o k).toNat % 2 ^ typeBits o.typ.toNat)).1) ∧
  WritesLanes .trnR 0x29 (fun c o k => (c.turnElem o.tt k o.idx.toNat).setWidth 32) ∧
  WritesLanes .movAcc 0x2C (fun c o k => c.accElem o.arr (c.sreg o.sreg).toNat k)

/-- trn.w writes row IDX of its turn tile with the low halves of the lanes of VA and no other element of either tile; reading a column back
with trn.r gives the elements by row (R46, R150). -/
def Obligations.TurnRowWrites : Prop :=
  ∀ (ch : Fin 28) (o : VOps) (i : Issue) (s : State), s.Takes ch (withV i 0x28 o) → (s.ch ch).guard o.guard = true →
    Does (.trnW ch o i) s fun t => ∀ (tt : Bool) (r k : Nat), r < 128 → k < 128 → (t.ch ch).turnElem tt r k =
      if tt = o.tt ∧ r = o.idx.toNat then (laneA (s.ch ch) o k).extractLsb' 0 16 else (s.ch ch).turnElem tt r k

/-- What a bundle that is taken leaves alone. In its chamber: every register but the destinations of the slots whose guards are true, every
byte of local memory but those that a synchronous store of its T slot writes, bundle and accumulator memory, the weight tiles and the table
slots, with the turn tiles, the return stack and the queues changed by the instructions that name them alone; in every other chamber
everything; and outside chambers, every part of the state but registers, ports, lost packets, interrupts and the marks of Doze and Keep, which
posts and error counts touch, and of registers only the chamber's own block, signals, ports, the power state and chamber states (R24 to R52). -/
def Obligations.BundleFrame : Prop :=
  ∀ (c : Instr) (ch : Fin 28) (i : Issue) (s : State), bundleOf c = some (ch, i) → s.Takes ch i →
    Does c s fun t =>
      let b := i.bundle
      let v := (s.ch ch).live b
      let a := s.ch ch
      let z := t.ch ch
      t = { s with fields := t.fields, chambers := t.chambers, ports := t.ports, lost := t.lost, irq := t.irq
                   deferred := t.deferred, dozeIdle := t.dozeIdle, keepIdle := t.keepIdle } ∧
      (∀ m, m ≠ ch.val → (t.ch m).core = (s.ch m).core) ∧
      (∀ r, z.sreg r = a.sreg r ∨ (v.s = true ∧ r = b.s.dst ∧ b.sop ∈ scalarOps) ∨ (v.l = true ∧ b.lop = 0x01 ∧ r = b.l.dst)) ∧
      (∀ r, z.pred r = a.pred r ∨ (v.s = true ∧ r = b.s.dst.setWidth 3 ∧ b.sop ∈ predicateOps)) ∧
      (∀ r, z.dreg r = a.dreg r ∨ (v.s = true ∧ r = b.s.dst.setWidth 4 ∧ (b.sop = 0x20 ∨ b.sop = 0x21)) ∨
        (v.l = true ∧ b.lop = 0x03 ∧ r = b.l.dsc)) ∧
      (∀ r, z.vreg r = a.vreg r ∨ (v.v = true ∧ b.vop ≠ 0x28 ∧ r = b.v.vd) ∨ (v.l = true ∧ b.lop = 0x02 ∧ r = b.l.dst)) ∧
      (∀ x : Nat, memByte z.lmem x = memByte a.lmem x ∨
        (v.t = true ∧ ∃ n, (b.top, n) ∈ [(0x01#8, 8), (0x02#8, 512), (0x03#8, 128)] ∧
          let lo : Int := (a.sreg b.t.sa).toNat + b.t.imm32.toInt
          lo ≤ x ∧ x < lo + n)) ∧
      (z.turn = a.turn ∨ (v.v = true ∧ b.vop = 0x28)) ∧
      (z.retStack = a.retStack ∨ (v.c = true ∧ (b.cop = 0x03 ∨ b.cop = 0x04))) ∧
      (∃ l, z.ops = a.ops ++ l ∧ (v.l = true ∧ (b.lop = 0x04 ∨ b.lop = 0x05) ∨ v.t = true ∧ 0x04 ≤ b.top.toNat ∨ l = [])) ∧
      (∃ l, z.mmas = a.mmas ++ l ∧ (v.m = true ∧ l.length = 1 ∨ l = [])) ∧
      z.bmem = a.bmem ∧ z.accA = a.accA ∧ z.accB = a.accB ∧ z.tagA = a.tagA ∧ z.tagB = a.tagB ∧ z.rowFlagsA = a.rowFlagsA ∧
      z.rowFlagsB = a.rowFlagsB ∧ z.active = a.active ∧ z.shadow = a.shadow ∧ z.slots = a.slots ∧
      (∀ f : FieldRef, f.lo < 64 → t.get f = s.get f ∨ BundleField ch f)

/-- A guard holds where the predicate that its bits [2:0] name differs from its bit 3, NEG, so that 0b0000 always holds and 0b1000 never. A slot
whose guard is false changes nothing and raises nothing beyond the decode checks of R30: a bundle that is taken does what the same bundle with nop
in that slot does where it is taken, and where none of it is taken for a precise cause, that cause is not of the slot (R31). -/
def Obligations.FalseGuardDoesNothing : Prop :=
  (∀ (k : Chamber) (g : BitVec 4), (k.guard g = true ↔ k.pred (g.setWidth 3) ≠ g.getLsbD 3) ∧ k.guard 0b0000 = true ∧ k.guard 0b1000 = false) ∧
  ∀ (c : Instr) (ch : Fin 28) (i : Issue) (s : State) (slot : Fin 6), bundleOf c = some (ch, i) →
    (s.ch ch).guard (guardOf i.bundle slot) = false →
    (s.Takes ch i → exec c s = .next ((s.runBundle ch (withNop i slot)).fetchUpsets ch (s.chPc ch) i)) ∧
    (s.Takes ch (withNop i slot) → exec (.nop ch slot i) s = .next ((s.runBundle ch (withNop i slot)).fetchUpsets ch (s.chPc ch) i)) ∧
    ∀ cause, (s.ch ch).Raises (s.chPc ch) i.bundle cause slot → slot = 0 ∧ AtEnd (s.chPc ch) i.bundle ((s.ch ch).live i.bundle)

/-- A bundle with a reserved opcode, a reserved or wrong type code, ARR = 0 in an mma, or two slots that name one destination register raises
ILLEGAL when it comes to issue, whatever its guards: the lowest-numbered slot that is a source is recorded, FAULT_PC and NEXT_PC are the
bundle, no register, memory or queue of any chamber changes, and the chamber issues no more (R30, R60). -/
def Obligations.IllegalBundleHalts : Prop :=
  ∀ (c : Instr) (ch : Fin 28) (i : Issue) (s : State) (slot : Fin 6), bundleOf c = some (ch, i) → s.mayIssue ch = true →
    s.fetched ch = i.bundle → i.upsets.any (·.double) = false → IllegalIn i.bundle slot → (∀ k < slot, ¬IllegalIn i.bundle k) →
    Does c s fun t => t.mayIssue ch = false ∧ t.mem = s.mem ∧ (∀ m, (t.ch m).core = (s.ch m).core) ∧
      ∃ h, (t.ch ch).halt = some h ∧ h.cause = 0x02 ∧ h.slot = slot ∧ h.faultPc = s.chPc ch ∧ h.nextPc = s.chPc ch

/-- A bundle that is legal and waits for nothing but meets a precise cause has no effect: with RANGE for a bundle at 4,095 that would go on
to 4,096 (FAULT_PC 4,095, NEXT_PC 0), for br.s to an address above 4,095, for a local access outside local memory or an mma outside its
ranges, and for mov.acc of a row above 1,023; with STACK for a call on a full or a ret on an empty stack; with ALIGN for a misaligned local
access (R39, R40, R43, R45, R46, R60, R496). -/
def Obligations.PreciseCausesHalt : Prop :=
  ∀ (c : Instr) (ch : Fin 28) (i : Issue) (s : State), bundleOf c = some (ch, i) → s.mayIssue ch = true → s.fetched ch = i.bundle →
    i.upsets.any (·.double) = false → (∀ k : Fin 6, ¬IllegalIn i.bundle k) → s.waitsFor ch i.bundle ((s.ch ch).live i.bundle) = .no →
    ∀ (cause slot : Nat), (s.ch ch).Raises (s.chPc ch) i.bundle cause slot →
    (∀ cause' slot', (s.ch ch).Raises (s.chPc ch) i.bundle cause' slot' → slot ≤ slot') →
    Does c s fun t => t.mayIssue ch = false ∧ t.mem = s.mem ∧ (∀ m, (t.ch m).core = (s.ch m).core) ∧
      ∃ h, (t.ch ch).halt = some h ∧ (s.ch ch).Raises (s.chPc ch) i.bundle h.cause slot ∧ h.slot = slot ∧ h.faultPc = s.chPc ch ∧
        (AtEnd (s.chPc ch) i.bundle ((s.ch ch).live i.bundle) → h.cause = 0x03 ∧ h.nextPc = 0) ∧
        (¬AtEnd (s.chPc ch) i.bundle ((s.ch ch).live i.bundle) → h.nextPc = s.chPc ch)

/-! ## Chambers: arrays, engine and control -/

/-- A swapping entry at the head of both array queues, with its interlocks met and no Hold: while the shadow tile is LOADING nothing changes;
otherwise the shadow becomes the active tile, the shadow is EMPTY, the swap is counted, a swap from an EMPTY shadow leaves an unloaded tile
with no element and is counted as a violation, and wsw leaves both queues (R75, R79, R80). -/
def Obligations.SwapMovesTheShadowTile : Prop :=
  ∀ (ch : Fin 28) (s : State) (m : Mma), (s.ch ch).head false = some m → (s.ch ch).head true = some m → m.swap = true → m.swapped = false →
    (s.ch ch).interlocked m = false → s.held = false →
    let shadow := s.get (Reg.CHn_WTILE_SHADOW ch)
    (shadow = 1 → exec (.swap ch) s = .next s) ∧
    (shadow ≠ 1 → Does (.swap ch) s fun t =>
      (t.ch ch).shadow = ⟨0, []⟩ ∧ (t.ch ch).active.data = (if shadow = 0 then [] else (s.ch ch).shadow.data) ∧
      t.get (Reg.CHn_WTILE_SHADOW ch) = 0 ∧ t.get (Reg.CHn_WTILE_VALID ch) = 1 ∧
      t.get (Reg.CHn_WTILE_UNLOADED ch) = (if shadow = 0 then 1 else 0) ∧
      t.get (Reg.CHn_WTILE_TYPE ch) = s.get (Reg.CHn_WTILE_SHADOW_TYPE ch) % 16 ∧
      t.get (Reg.CHn_SWAP_COUNT_COUNT ch) = (s.get (Reg.CHn_SWAP_COUNT_COUNT ch) + 1) % 2 ^ 64 ∧
      (m.wsw = true → (t.ch ch).mmas = (s.ch ch).mmas.filter fun x => x.seq != m.seq) ∧
      s.OnlyChamber t ch ∧ (t.ch ch).lmem = (s.ch ch).lmem ∧ (t.ch ch).accA = (s.ch ch).accA ∧ (t.ch ch).accB = (s.ch ch).accB ∧
      (t.ch ch).sregs = (s.ch ch).sregs ∧ (t.ch ch).vregs = (s.ch ch).vregs ∧ (t.ch ch).ops = (s.ch ch).ops ∧
      s.KeepsFields t ([Reg.CHn_WTILE_BANDS ch, Reg.CHn_WTILE_SHADOW ch, Reg.CHn_WTILE_UNLOADED ch, Reg.CHn_WTILE_VALID ch,
        Reg.CHn_WTILE_TYPE ch, Reg.CHn_SWAP_COUNT_COUNT ch] ++ violFields ch))

/-- A vector enters an array: the entry at the head of the array's queue, its tile checked and without a mask, sends its next row towards the
accumulator row that R45 gives it, with the sums of the columns over the rows of the present bands: exact modulo 2^32 for integer pairs, one
chunk sum for a pair in 16-bit mode (R83, R86, R87, R107, R108). -/
def Obligations.VectorEntersAnArray : Prop :=
  ∀ (ch : Fin 28) (b : Bool) (us : List Upset) (as : List AccUpset) (s : State) (m : Mma), (s.ch ch).head b = some m → m.wsw = false →
    (m.swap = true → m.swapped = true) → (s.ch ch).interlocked m = false → s.held = false → m.checked = true → m.msk = false →
    m.next b < m.last b →
    Does (.vectorEntry ch b us as) s fun t => ∃ r : InRow,
      (if b then (t.ch ch).inflightB else (t.ch ch).inflightA) = (if b then (s.ch ch).inflightB else (s.ch ch).inflightA) ++ [r] ∧
      r.row = m.acc + (m.next b - if b then m.startB else 0) ∧ r.zero = m.zero ∧
      r.wide = decide (2 < m.atype ∧ 2 < m.wtype) ∧
      (let rows := windowRows (s.ch ch).active.bands
       let cols := s.get (if b then Reg.CHn_CAP_COLS16_B ch else Reg.CHn_CAP_COLS16_A ch)
       rows ≠ [] → ∀ k, (r.wide = true → k < 2 * cols → r.vals[k]? = some (BitVec.ofInt 32
           ((rows.map fun i => intElem m.atype ((s.ch ch).actElem m (m.next b) i) * intElem m.wtype (mapGet 0 (s.ch ch).active.data (i * 256 + k))).sum))) ∧
         (r.wide = false → k < cols → r.vals[k]? = some
           (chunkSum (rows.map fun i => mulVal (decodeElem m.atype ((s.ch ch).actElem m (m.next b) i))
             (decodeElem m.wtype (mapGet 0 (s.ch ch).active.data (i * 256 + k))))).1)) ∧
      (if b then (t.ch ch).fedB else (t.ch ch).fedA) = true ∧
      t.get (if b then Reg.CHn_ARR_CYC_B_COUNT ch else Reg.CHn_ARR_CYC_A_COUNT ch) =
        (s.get (if b then Reg.CHn_ARR_CYC_B_COUNT ch else Reg.CHn_ARR_CYC_A_COUNT ch) + 1) % 2 ^ 64 ∧
      (t.ch ch).lmem = (s.ch ch).lmem ∧ (t.ch ch).accA = (s.ch ch).accA ∧ (t.ch ch).accB = (s.ch ch).accB ∧
      s.OnlyChamber t ch

/-- The oldest row in an array reaches its accumulator row: under ZERO, or as a masked row under MASKZ, each column's sum replaces the
accumulator, otherwise it is added, modulo 2^32 for an integer pair and in FP32 else; no other accumulator of either array changes, and the
row's mode tags are set (R88, R91, R92, R107, R110). -/
def Obligations.AccumulatorRowIsWritten : Prop :=
  ∀ (ch : Fin 28) (b : Bool) (as : List AccUpset) (s : State) (r : InRow) (rs : List InRow),
    (if b then (s.ch ch).inflightB else (s.ch ch).inflightA) = r :: rs → r.vals.length ≤ (if r.wide then 256 else 128) → r.vals ≠ [] →
    Does (.accumulatorRowWrite ch b as) s fun t =>
      (if b then (t.ch ch).inflightB else (t.ch ch).inflightA) = rs ∧
      (∀ k < r.vals.length,
        let row := if r.wide then 2 * r.row + k / 128 else r.row
        let old := (s.ch ch).accElem b row (k % 128)
        (t.ch ch).accElem b row (k % 128) =
          if r.zero then r.vals.getD k 0 else if r.wide then old + r.vals.getD k 0 else (fadd old (r.vals.getD k 0)).1) ∧
      (∀ row col, col < 128 → (∀ k < r.vals.length, ¬(row = (if r.wide then 2 * r.row + k / 128 else r.row) ∧ col = k % 128)) →
        (t.ch ch).accElem b row col = (s.ch ch).accElem b row col) ∧
      (t.ch ch).acc (!b) = (s.ch ch).acc (!b) ∧
      (∀ row, (row = (if r.wide then 2 * r.row else r.row) ∨ (r.wide = true ∧ row = 2 * r.row + 1)) →
        mapGet false (if b then (t.ch ch).tagB else (t.ch ch).tagA) row = r.wide) ∧
      (t.ch ch).lmem = (s.ch ch).lmem ∧ (t.ch ch).sregs = (s.ch ch).sregs ∧ (t.ch ch).vregs = (s.ch ch).vregs ∧ s.OnlyChamber t ch

/-- The end of an asynchronous operation. A tag clears only once every request of its operation is answered and no local write of it meets a
feeder that still reads; then the operation is outstanding no more, and mv has copied its bytes, read as they stood, while every other kind
has made the writes it owes its scale block, and no other (R32, R48, R85, R120). A store whose
FP16 pass overflowed starts again from its first position with a scale 2^-8 smaller and sets RERUN (R123). -/
def Obligations.OperationsComplete : Prop :=
  ∀ (ch : Fin 28) (s : State) (o : AsyncOp),
    (∀ d : TagDone, (s.ch ch).ops[d.op.val]? = some o →
      (o.sent = false → exec (.tagClear ch d) s = .next s) ∧
      (o.sent = true → (o.kind = .mv → (s.liveCh ch).feedBlocked o.seq o.laddr o.len = false) →
        (∀ w ∈ o.outs, (s.liveCh ch).feedBlocked o.seq w.1 w.2.length = false) → (o.kind = .ldW → o.failed = false → (s.ch ch).shadowOp ≠ some o.seq) → (s.ch ch).resetting = false →
        Does (.tagClear ch d) s fun t =>
          (t.ch ch).ops = (s.ch ch).ops.filter (fun x => !(x.seq == o.seq && x.kind == o.kind)) ∧
          (o.kind = .mv → ∀ a, memByte (t.ch ch).lmem a =
            if o.laddr ≤ a ∧ a < o.laddr + o.len then memByte (s.ch ch).lmem (o.src + (a - o.laddr)) else memByte (s.ch ch).lmem a) ∧
          (o.kind ≠ .mv → (t.ch ch).lmem = memWrites (s.ch ch).lmem o.outs) ∧ t.mem = s.mem ∧ ∀ m, m ≠ ch.val → (t.ch m).core = (s.ch m).core)) ∧
    ((s.ch ch).nextOp = some o → o.passEnd = true → Does (.storeRerun ch) s fun t =>
      (t.ch ch).ops = ((s.ch ch).ops.map fun x => if x.seq = o.seq ∧ x.kind = o.kind then
        { o with passEnd := false, pos := 0, k := o.k + 8, ovf := false, rerun := true, flags := ⟨false, false, false⟩ } else x) ∧
      t.get (Reg.CHn_EXC_RERUN ch) = 1 ∧ s.KeepsFields t [Reg.CHn_EXC_RERUN ch] ∧ s.OnlyChamber t ch)

/-- The shadow tile becomes READY once every element of its load has come: a raw load without a list fills the bands of its rows with its
elements, and a load that its descriptor forbids or whose record is malformed leaves a tile with no present band (R77, R135, R158, R185). -/
def Obligations.WeightTileBecomesReady : Prop :=
  ∀ (ch : Fin 28) (s : State) (o : AsyncOp), (s.ch ch).loadedOp = some o →
    (dBad o.desc = false → o.reason = 0 → o.xmode = 0 → dList o.desc = false → mapSorted o.elems = true → Does (.weightTileReady ch) s fun t =>
      t.get (Reg.CHn_WTILE_SHADOW ch) = 2 ∧ (t.ch ch).shadowOp = none ∧
      (t.ch ch).shadow.bands = 2 ^ ((min (tileRows (dType o.desc)) ((o.limit + o.p0 - 1) / o.p0) + 7) / 8) - 1 ∧
      (∀ k, mapGet 0 (t.ch ch).shadow.data k = mapGet 0 o.elems k) ∧ s.KeepsFields t [Reg.CHn_WTILE_SHADOW ch] ∧ s.OnlyChamber t ch) ∧
    (dBad o.desc = true ∨ o.reason ≠ 0 → Does (.weightTileReady ch) s fun t =>
      t.get (Reg.CHn_WTILE_SHADOW ch) = 2 ∧ (t.ch ch).shadow = ⟨0, []⟩ ∧ (t.ch ch).active = (s.ch ch).active ∧ s.OnlyChamber t ch ∧
      (dBad o.desc = false → t.get (Reg.CHn_XP_LAST_VALID ch) = 1 ∧ t.get (Reg.CHn_XP_LAST_REASON ch) = o.reason % 16))

/-- CHn_CTL in Run. START from IDLE or HALT sets RUN, PC and s1 to s8, clears p1 to p7 and keeps every other register and every memory of the
chamber; in RUN and WAIT it changes nothing and is counted. STOP of a running chamber records STOPPED at its PC and stops issue, and in IDLE and
HALT changes nothing. RESET with no operation outstanding leaves IDLE and reset values, local and bundle memory kept; with one it discards the
array queues and stops issue (R57, R58, R59, R60, R96). -/
def Obligations.ChamberControl : Prop :=
  ∀ (ch : Fin 28) (host : Bool) (s : State), s.InRun → s.flag Reg.SEC_BOOT_RECOVERY = false → (host = true → s.stepRuns = false) → s.chState ch ≠ 0 →
    (∀ (pc : BitVec 12) (args : List Word), s.chState ch = 1 ∨ s.chState ch = 4 → Does (.chamberStart ch host pc args) s fun t =>
      t.chState ch = 2 ∧ t.chPc ch = pc.toNat ∧ t.get (Reg.CHn_CTL_START_PC ch) = pc.toNat ∧ (t.ch ch).halt = none ∧
      (∀ p : BitVec 3, (t.ch ch).pred p = (p == 0)) ∧
      (host = false → ∀ r : BitVec 5, 1 ≤ r.toNat → r.toNat ≤ 8 → (t.ch ch).sreg r = args.getD (r.toNat - 1) 0) ∧
      (∀ r : BitVec 5, r.toNat = 0 ∨ 8 < r.toNat → (t.ch ch).sreg r = (s.ch ch).sreg r) ∧
      (t.ch ch).vregs = (s.ch ch).vregs ∧ (t.ch ch).dregs = (s.ch ch).dregs ∧ (t.ch ch).lmem = (s.ch ch).lmem ∧
      (t.ch ch).bmem = (s.ch ch).bmem ∧ (t.ch ch).accA = (s.ch ch).accA ∧ (t.ch ch).accB = (s.ch ch).accB ∧ t.mem = s.mem) ∧
    (∀ (pc : BitVec 12) (args : List Word), s.chState ch = 2 ∨ s.chState ch = 3 → Does (.chamberStart ch host pc args) s fun t =>
      t.chState ch = s.chState ch ∧ t.chPc ch = s.chPc ch ∧ (∀ m, t.ch m = s.ch m) ∧
      t.get (Reg.CHn_VIOL_COUNT_COUNT ch) = min (s.get (Reg.CHn_VIOL_COUNT_COUNT ch) + 1) (2 ^ 32 - 1)) ∧
    (s.chState ch = 2 ∨ s.chState ch = 3 → (s.ch ch).resetting = false → Does (.chamberStop ch host) s fun t =>
      t.mayIssue ch = false ∧ (∀ m, (t.ch m).core = (s.ch m).core) ∧ (∀ f, t.get f = s.get f ∨ f.key = (Reg.CHn_CTL_START_PC ch).key) ∧
      ((s.ch ch).halt = none → ∃ h, (t.ch ch).halt = some h ∧ h.cause = 0x0A ∧ h.faultPc = s.chPc ch ∧ h.nextPc = s.chPc ch)) ∧
    (s.chState ch = 1 ∨ s.chState ch = 4 → Does (.chamberStop ch host) s fun t => (∀ m, t.ch m = s.ch m) ∧ t.chState ch = s.chState ch) ∧
    ((s.ch ch).ops = [] → Does (.chamberReset ch host) s fun t =>
      t.chState ch = 1 ∧ t.chPc ch = s.resetOf (Reg.CHn_STATUS_PC ch).key ∧
      t.ch ch = { Chamber.reset with bmem := (s.ch ch).bmem, lmem := (s.ch ch).lmem, errCount := (s.ch ch).errCount, cycBase := s.aclk, prog := (s.ch ch).prog } ∧
      (∀ m, m ≠ ch.val → t.ch m = s.ch m) ∧ t.mem = s.mem) ∧
    ((s.ch ch).ops ≠ [] → Does (.chamberReset ch host) s fun t =>
      t.mayIssue ch = false ∧ (t.ch ch).mmas = [] ∧ (t.ch ch).inflightA = [] ∧ (t.ch ch).inflightB = [] ∧ (t.ch ch).ops = (s.ch ch).ops ∧
      (t.ch ch).sregs = (s.ch ch).sregs ∧ (t.ch ch).lmem = (s.ch ch).lmem)

/-- A chamber with a recorded halt enters HALT once its operations, queues and rows have drained: CHn_HALT takes the record, and a failure adds an
entry to the error log; until then nothing changes. A wait.sig that has waited LIMIT_US microseconds, a limit of zero being none, and is not
satisfied, halts the chamber with WAIT_TIMEOUT at its PC; before that, once satisfied, or behind a recorded halt, nothing changes (R55, R60, R61). -/
def Obligations.ChamberHalts : Prop :=
  ∀ (ch : Fin 28) (s : State), s.InRun →
    (∀ h, (s.ch ch).halt = some h → (s.ch ch).resetting = false → (s.ch ch).startNext = none → s.loadLost ch = false →
      ((s.ch ch).ops = [] → (s.ch ch).mmas = [] → (s.ch ch).inflightA = [] → (s.ch ch).inflightB = [] → Does (.chamberHalt ch) s fun t =>
        t.chState ch = 4 ∧ (t.ch ch).halt = none ∧ t.get (Reg.CHn_HALT_CAUSE ch) = h.cause % 256 ∧ t.get (Reg.CHn_HALT_FAULT_PC ch) = h.faultPc % 4096 ∧
        t.get (Reg.CHn_HALT_NEXT_PC ch) = h.nextPc % 4096 ∧ t.get (Reg.CHn_HALT_TAG ch) = h.tag % 8 ∧ t.get (Reg.CHn_HALT_SLOT ch) = h.slot % 8 ∧
        t.get Reg.ERR_STATUS_WRITTEN = (if h.cause = 0x01 ∨ h.cause = 0x0A then s.get Reg.ERR_STATUS_WRITTEN else (s.get Reg.ERR_STATUS_WRITTEN + 1) % 2 ^ 32) ∧
        (h.cause = 0x09 → t.get (Reg.CHn_STATUS_RETIRE_PENDING ch) = 1) ∧
        (∀ m, (t.ch m).core = (s.ch m).core ∨ m = ch.val) ∧ (t.ch ch).sregs = (s.ch ch).sregs ∧ (t.ch ch).lmem = (s.ch ch).lmem) ∧
      ((s.ch ch).ops ≠ [] → exec (.chamberHalt ch) s = .next s)) ∧
    (∀ w limit, (s.ch ch).waitSince = some w → s.chState ch = 3 → limit = s.get (Reg.CHn_WAIT_LIMIT_LIMIT_US ch) →
      let met := if w.eq then s.sig w.sig = w.value else w.value ≤ s.sig w.sig
      (limit = 0 ∨ s.cycle - w.since < limit * 1700 ∨ met ∨ (s.ch ch).halt ≠ none → exec (.waitTimeout ch) s = .next s) ∧
      (limit ≠ 0 → limit * 1700 ≤ s.cycle - w.since → ¬met → (s.ch ch).halt = none → (s.ch ch).resetting = false → Does (.waitTimeout ch) s fun t =>
        t.mayIssue ch = false ∧ (∀ m, (t.ch m).core = (s.ch m).core) ∧ (∀ f, t.get f = s.get f) ∧
        ∃ h, (t.ch ch).halt = some h ∧ h.cause = 0x06 ∧ h.faultPc = s.chPc ch ∧ h.nextPc = s.chPc ch))

/-- The next granule request of ld.t, st.t and st.add. A descriptor that R135 forbids transfers nothing and is counted with KIND 4. A load's
request brings the elements of its positions from the granule the region table gives, and those whose local lines no later position writes go
to local memory at once, the others with the rest of their line; one the table refuses delivers zeros and is counted with KIND 1 or 2 and the
granule's address. A store's request changes no byte outside the granule and puts, or adds, its elements into it; one refused changes no memory
(R32, R135, R143, R144, R149, R152, R154). That a line's elements wait for its last is the model's reading of R32 (log entry 22). -/
def Obligations.DescriptorRequests : Prop :=
  ∀ (ch : Fin 28) (us : Errors) (s : State) (o : AsyncOp) (k : Nat), (s.ch ch).nextOp = some o → o.passEnd = false →
    o.kind = .ldT ∨ o.kind = .stT ∨ o.kind = .stAdd → o.sent = false →
    let ps := (List.range k).map (o.pos + ·)
    let vis := fun p => dVisit o.desc o.count o.entries p
    let x := o.granule o.pos * 256
    let moved := fun (o' : AsyncOp) => (s.ch ch).ops.map fun y => if y.seq = o.seq ∧ y.kind = o.kind then o' else y
    let after := { o with pos := o.pos + k, sent := decide (o.limit ≤ o.pos + k) }
    let got := fun (bs : List Byte) => ps.foldl (fun m p => mapInsert m p (elemAt (dType o.desc) bs ((vis p).byte % 256) (vis p).nibble)) o.elems
    let done := fun (e : Nat × Nat) => decide (o.limit ≤ o.pos + k) || decide (o.localStart e.1 / 64 < o.localStart (o.pos + k) / 64)
    let loaded := fun (t : State) (bs : List Byte) =>
      (t.ch ch).lmem = ((got bs).filter done).foldl (fun m e => localPut o.desc m o.laddr e.1 e.2) (s.ch ch).lmem ∧
      (t.ch ch).ops = moved { after with elems := (got bs).filter fun e => !done e } ∧ t.mem = s.mem
    let counted := fun (t : State) (kind addr : Nat) =>
      t.get (Reg.CHn_VIOL_COUNT_COUNT ch) = min (s.get (Reg.CHn_VIOL_COUNT_COUNT ch) + 1) (2 ^ 32 - 1) ∧
      (¬s.Outranked (ch + 1) (Reg.CHn_VIOL_LAST_VALID ch) (Reg.CHn_VIOL_LAST_KIND ch) kind →
        t.get (Reg.CHn_VIOL_LAST_KIND ch) = kind ∧ t.get (Reg.CHn_VIOL_LAST_ADDR ch) = addr % 2 ^ 48)
    (o.begun = false → dBad o.desc = true → Does (.descriptorRequest ch us) s fun t =>
      (t.ch ch).ops = moved { o with begun := true, sent := true, failed := true } ∧ (t.ch ch).lmem = (s.ch ch).lmem ∧ t.mem = s.mem ∧ counted t 4 0) ∧
    (o.begun = true → s.TakesRun ch o k → o.kind = .ldT →
      (s.liveCh ch).feedBlocked o.seq (o.localSpan o.pos (o.pos + k)).1 (o.localSpan o.pos (o.pos + k)).2 = false →
      (∀ a, s.region ch true false x = .ok a → s.claimed none a = false → s.Readable a → us.arrival = .ok → Does (.descriptorRequest ch us) s fun t =>
        loaded t (memRead s.mem a 256) ∧ (t.ch ch).sregs = (s.ch ch).sregs ∧ (t.ch ch).vregs = (s.ch ch).vregs ∧ ∀ m, m ≠ ch.val → t.ch m = s.ch m) ∧
      (∀ kind, (s.region ch true false x = .noMatch ∧ kind = 1) ∨ (s.region ch true false x = .denied ∧ kind = 2) → Does (.descriptorRequest ch us) s fun t =>
        loaded t (zeroBytes 256) ∧ counted t kind x ∧ ∀ m, m ≠ ch.val → t.ch m = s.ch m)) ∧
    (o.begun = true → s.TakesRun ch o k → o.kind ≠ .ldT →
      let add := o.kind == .stAdd
      let elems := ps.map fun p => (vis p, localElem o.desc (s.ch ch).lmem o.laddr p, p / o.p0, p % o.p0)
      (∀ a, s.region ch add true x = .ok a → s.claimed none a = false → s.cachedLines (granuleOf a) = [] → s.Writable a →
        (putAll o add elems (memRead s.mem a 256)).1.length = 256 → Does (.descriptorRequest ch us) s fun t =>
        s.Stores t a (putAll o add elems (memRead s.mem a 256)).1 ∧
        (t.ch ch).ops = moved { after with dest := o.dest.join (putAll o add elems (memRead s.mem a 256)).2 } ∧ (t.ch ch).lmem = (s.ch ch).lmem ∧
        ∀ m, m ≠ ch.val → t.ch m = s.ch m) ∧
      (∀ kind, (s.region ch add true x = .noMatch ∧ kind = 1) ∨ (s.region ch add true x = .denied ∧ kind = 2) → Does (.descriptorRequest ch us) s fun t =>
        t.mem = s.mem ∧ (t.ch ch).ops = moved after ∧ (t.ch ch).lmem = (s.ch ch).lmem ∧ counted t kind x))

/-! ## Registers -/

/-- GLB_SIG_WRITE, BUNDLE_WINDOW_WRITE, REGION_TABLE_WRITE and REGISTER_WRITE complete: in Run each answers the next state that its own effect
gives. GLB_SIGn is set. Bundle memory takes a word while its chamber
is IDLE or HALT, as the region table does; in any other state the write is ignored and counted, with KIND 7 and its offset for a region-table
register and outside the chamber's own registers where the chamber is OFF; its words can be read in either. A register write stores RW fields,
clears the W1C bits written 1, leaves RO fields, and is counted with KIND 1 where it is not an aligned access of 8 bytes or meets no register,
KIND 2 where it would change an RO field, and KIND 3 where the register is locked, a slot table in use among them (log entry 78); a read returns
the register, or zero, counted, by the same rule. In BAR2 a word of the MSI-X table is stored and nothing else of the device changes, and an HDM decoder is
programmed (log entry 85) (R6, R7, R8, R18, R50, R65, R66, R153, R180, R389, R391, R395). -/
def Obligations.RegisterWrites : Prop :=
  ∀ s : State, s.InRun →
    (∀ (n : BitVec 12) (v : Word), Does (.glbSigWrite n v) s fun t =>
      t.sig n.toNat = v.toNat ∧ s.KeepsFields t [Reg.GLB_SIGn_VALUE n.toNat] ∧ t = { s with fields := t.fields }) ∧
    (∀ (ch : Fin 28) (idx : BitVec 15) (v : Word),
      (s.chState ch = 1 ∨ s.chState ch = 4 → Does (.bundleWindowWrite ch idx v) s fun t =>
        (∀ a, memByte (t.ch ch).bmem a =
          if 8 * idx.toNat ≤ a ∧ a < 8 * idx.toNat + 8 then v.extractLsb' (8 * (a - 8 * idx.toNat)) 8 else memByte (s.ch ch).bmem a) ∧
        (t.ch ch).lmem = (s.ch ch).lmem ∧ (t.ch ch).sregs = (s.ch ch).sregs ∧ s.OnlyChamber t ch ∧ ∀ f, t.get f = s.get f) ∧
      (s.chState ch = 0 → Does (.bundleWindowWrite ch idx v) s fun t => s.CountsGlobalViol t 0 0 (chBlock ch + 0x80000 + 8 * idx.toNat)) ∧
      (s.chState ch ∉ [0, 1, 4] → Does (.bundleWindowWrite ch idx v) s fun t => s.CountsViol t ch 0 0)) ∧
    (∀ (ch : Fin 28) (host : Bool) (i : Fin 256) (v : Word),
      let lo := BitVec.ofNat 9 (2 * i)
      let hi := BitVec.ofNat 9 (2 * i + 1)
      (s.chState ch = 1 ∨ s.chState ch = 4 → (host = true → s.stepRuns = false) →
        (Does (.regionTableWrite ch host lo v) s fun t =>
          t.get (Reg.CHn_RGNi_LO_BASE ch i) = v.toNat % 2 ^ 32 ∧ t.get (Reg.CHn_RGNi_LO_LIMIT ch i) = v.toNat / 2 ^ 32 ∧ t.mem = s.mem ∧
          s.KeepsFields t [Reg.CHn_RGNi_LO_BASE ch i, Reg.CHn_RGNi_LO_LIMIT ch i] ∧ s.OnlyChamber t ch) ∧
        (Does (.regionTableWrite ch host hi v) s fun t =>
          t.get (Reg.CHn_RGNi_HI_TARGET ch i) = v.toNat % 2 ^ 32 ∧ t.get (Reg.CHn_RGNi_HI_WR ch i) = v.toNat / 2 ^ 61 % 2 ∧
          t.get (Reg.CHn_RGNi_HI_RD ch i) = v.toNat / 2 ^ 62 % 2 ∧ t.get (Reg.CHn_RGNi_HI_VALID ch i) = v.toNat / 2 ^ 63 ∧ t.mem = s.mem ∧
          s.KeepsFields t ([Reg.CHn_RGNi_HI_TARGET ch i, Reg.CHn_RGNi_HI_WR ch i, Reg.CHn_RGNi_HI_RD ch i, Reg.CHn_RGNi_HI_VALID ch i] ++ globalViolFields) ∧
          s.OnlyChamber t ch)) ∧
      (∀ idx ∈ [lo, hi], (s.chState ch = 0 → Does (.regionTableWrite ch host idx v) s fun t =>
          s.CountsGlobalViol t (if host then 0 else 3) 0 (chBlock ch + 0x1000 + 8 * idx.toNat)) ∧
        (s.chState ch ≠ 0 → (host = true ∧ s.stepRuns = true) ∨ s.chState ch ∉ [1, 4] → Does (.regionTableWrite ch host idx v) s fun t =>
          s.CountsViol t ch 7 (chBlock ch + 0x1000 + 8 * idx.toNat)))) ∧
    (∀ (off : BitVec 27) (size : BitVec 4) (v : Word), size ≠ 8 ∨ off.toNat % 8 ≠ 0 →
      (Does (.registerWrite off (.write size v)) s fun t => s.CountsGlobalViol t 0 1 off.toNat) ∧
      Does (.registerWrite off (.read size)) s fun t => ∃ u, s.CountsGlobalViol u 0 1 off.toNat ∧
        t = { u with hostReply := (zeroBytes size.toNat, false) }) ∧
    (∀ (ch : Fin 28) (v : Word), s.chState ch ≠ 0 →
      (Does (.registerWrite (BitVec.ofNat 27 (chBlock ch + 0x30)) (.read 8)) s fun t =>
        t = { s with hostReply := (leBytes 8 (s.get (Reg.CHn_WAIT_LIMIT_LIMIT_US ch)), false) }) ∧
      (∀ idx : BitVec 15, Does (.registerWrite (BitVec.ofNat 27 (chBlock ch + 0x80000 + 8 * idx.toNat)) (.read 8)) s fun t =>
        t = { s with hostReply := (memRead (s.ch ch).bmem (8 * idx.toNat) 8, false) }) ∧
      (Does (.registerWrite (BitVec.ofNat 27 (chBlock ch + 0x30)) (.write 8 v)) s fun t =>
        t.get (Reg.CHn_WAIT_LIMIT_LIMIT_US ch) = v.toNat % 2 ^ 32 ∧ s.KeepsFields t ([Reg.CHn_WAIT_LIMIT_LIMIT_US ch] ++ globalViolFields) ∧
        t = { s with fields := t.fields, violAt := t.violAt }) ∧
      (Does (.registerWrite (BitVec.ofNat 27 (chBlock ch + 0x20)) (.write 8 v)) s fun t =>
        (∀ e ∈ [(Reg.CHn_EXC_INVALID ch, 0), (Reg.CHn_EXC_OVERFLOW ch, 1), (Reg.CHn_EXC_FLUSH ch, 2), (Reg.CHn_EXC_RERUN ch, 3)],
          s.get e.1 ≤ 1 → t.get e.1 = if v.getLsbD e.2 then 0 else s.get e.1) ∧
        s.KeepsFields t ([Reg.CHn_EXC_INVALID ch, Reg.CHn_EXC_OVERFLOW ch, Reg.CHn_EXC_FLUSH ch, Reg.CHn_EXC_RERUN ch] ++ globalViolFields) ∧
        t = { s with fields := t.fields, violAt := t.violAt })) ∧
    (∀ v : Word, v.toNat % 2 ^ 16 ≠ s.get Reg.GLB_ID_PART → Does (.registerWrite 0 (.write 8 v)) s fun t => s.CountsGlobalViol t 0 2 0) ∧
    (∀ v : Word, (s.stepRuns = true ∨ s.flag Reg.SIP_CTL_ENABLE = true →
        Does (.registerWrite 0x3800008 (.write 8 v)) s fun t => s.CountsGlobalViol t 0 3 0x3800008) ∧
      (s.stepRuns = false → s.flag Reg.SIP_CTL_ENABLE = false → Does (.registerWrite 0x3800008 (.write 8 v)) s fun t =>
        t.get Reg.SIP_RING_BASE = v.toNat % 2 ^ 48 ∧ t.get Reg.SIP_RING_ENTRIES_M1 = v.toNat / 2 ^ 48 ∧
        s.KeepsFields t [Reg.SIP_RING_BASE, Reg.SIP_RING_ENTRIES_M1] ∧ t = { s with fields := t.fields })) ∧
    (∀ (set : Fin 10) (tb : Fin 4) (j : Fin 5) (v : Word), tb.val = s.arbTable set → Does (.arbTableWrite set tb j v) s fun t =>
      s.CountsGlobalViol t 0 3 (arbTableOff set tb j)) ∧
    (∀ v : Word, (Does (.registerWrite 0x48 (.write 8 v)) s fun t => s.CountsGlobalViol t 0 1 0x48) ∧
      Does (.registerWrite 0x48 (.read 8)) s fun t => ∃ u, s.CountsGlobalViol u 0 1 0x48 ∧ t = { u with hostReply := (zeroBytes 8, false) }) ∧
    (∀ (i : Fin 8) (v : Word), Does (.registerWrite (BitVec.ofNat 27 (0x10000 + 8 * i.val)) (.bar2Write 8 v)) s fun t =>
      t = { s with irq := t.irq } ∧ t.irq.raised = s.irq.raised ∧
      ∀ k, mapGet 0 t.irq.table k = if k = i.val then v.toNat else mapGet 0 s.irq.table k) ∧
    ∀ (off : BitVec 27) (d : Fin 2) (base size : Word) (gran ways : BitVec 4) (commit : Bool),
      Does (.registerWrite off (.decoder d base size gran ways commit)) s fun t => t = { s with decoders := t.decoders } ∧
        ∀ k : Fin 2, t.decoders[k] = if k = d then ⟨base.toNat, size.toNat, gran.toNat, ways.toNat,
          commit && decide (gran.toNat ≤ 6 ∧ (ways.toNat ≤ 4 ∨ (8 ≤ ways.toNat ∧ ways.toNat ≤ 10)))⟩ else s.decoders[k]

/-- At a step boundary of a worker CHAMBER_RETIREMENT puts the lowest spare that passes its test in the place of the lowest chamber that is to
be retired; spares below it that failed are retired too. With no spare left the chamber stays in service, and after HWFAULT the device
declares itself failed. On a keeper the chamber in service is retired, enabled chambers coming before spares (R67, R68, R70, R71). -/
def Obligations.ChamberRetirement : Prop :=
  ∀ (s : State) (failed : BitVec 28) (n p : Nat), s.held = false → s.devFailed = false → n < 28 →
    s.get Reg.GLB_CHMAP_ENABLED < 2 ^ 28 → s.get Reg.GLB_CHMAP_RETIRED < 2 ^ 28 → s.toRetire n = true →
    let passes := fun q : Nat => failed.getLsbD q = false
    (s.flag Reg.GLB_ROLE_KEEPER = false → s.stepRuns = false → (∀ m < n, s.toRetire m = false) →
      (s.Spare p → passes p → (∀ q < p, s.Spare q → ¬passes q) →
        Does (.chamberRetirement failed) s fun t => s.Replaces t n p fun q => q < p ∧ s.Spare q) ∧
      ((∀ q, s.Spare q → ¬passes q) → (s.awakeState n ≠ 4 ∨ s.get (Reg.CHn_HALT_CAUSE n) ≠ 9) →
        Does (.chamberRetirement failed) s fun t => t.keptNoSpare = true ∧ t.chState n = s.chState n ∧ t.chambers = s.chambers ∧
          (∀ m < 28, bit (t.get Reg.GLB_CHMAP_RETIRED) m = true ↔ bit (s.get Reg.GLB_CHMAP_RETIRED) m = true ∨ s.Spare m)) ∧
      ((∀ q, s.Spare q → ¬passes q) → s.awakeState n = 4 → s.get (Reg.CHn_HALT_CAUSE n) = 9 → s.flag Reg.GLB_ROLE_TWIN = false →
        Does (.chamberRetirement failed) s fun t => t.devFailed = true)) ∧
    (s.flag Reg.GLB_ROLE_KEEPER = true → s.kprChamber = some n → s.kpr = none → s.kprPeer = none → p ≠ n → p < 28 → passes p →
      let stand := fun q => q < 28 ∧ q ≠ n ∧ bit (s.get Reg.GLB_CHMAP_ENABLED) q = true
      ((stand p ∧ (∀ q < p, stand q → ¬passes q) → Does (.keeperChamberRetirement failed) s fun t => s.Replaces t n p fun q => q < p ∧ stand q) ∧
      ((∀ q, stand q → ¬passes q) ∧ s.Spare p ∧ (∀ q < p, s.Spare q → ¬passes q) →
        Does (.keeperChamberRetirement failed) s fun t => s.Replaces t n p fun q => stand q ∨ (q < p ∧ s.Spare q))))

/-- The coder's commands in Run (R186 to R196, R200): ENABLE zeroes the count of jobs and records the job signal, and while a step plan runs is
ignored and counted; BUILD writes the code table of its
source, whose symbols are the source's exponent fields by falling count and, among equal counts, rising value; CODE, here of one tile, writes
the coded record and its directory entry; LOAD_TABLE marks its slot PENDING, and TABLE_SLOT_WRITE puts the table into it once no queued
block names the slot; a record with a reserved bit set ends with BAD_JOB. -/
def Obligations.CoderJobs : Prop :=
  ∀ (ch : Fin 28) (s : State), s.InRun →
    let n := ch.val
    (s.stepRuns = true → s.get (Reg.CHn_STATUS_STATE n) ≠ 0 → Does (.coderEnable ch) s fun t => s.CountsViol t n 0 0) ∧
    (s.stepRuns = false → s.get (Reg.CHn_XC_CTL_ENABLE n) = 0 → s.get (Reg.CHn_STATUS_STATE n) ≠ 0 → s.get (Reg.CHn_XC_CTL_JOB_SIG n) < 4096 → Does (.coderEnable ch) s fun t =>
      t.get (Reg.CHn_XC_CTL_ENABLE n) = 1 ∧ t.get (Reg.CHn_XC_PROGRESS_DONE n) = 0 ∧
      t.ring (8 + n) = ⟨s.sig (s.get (Reg.CHn_XC_CTL_JOB_SIG n)), 0, []⟩ ∧
      s.KeepsFields t [Reg.CHn_XC_CTL_ENABLE n, Reg.CHn_XC_PROGRESS_DONE n] ∧ t = { s with fields := t.fields, rings := t.rings }) ∧
    (∀ l, (s.ch n).tableLoad = some l → l.slot < 2 → l.recAddr = s.coderAddr n → l.doneSig < 4096 → s.flag (slotQueued n l.slot) = false → Does (.tableSlotWrite ch) s fun t =>
      let w := wordAt l.bytes 0
      s.CoderEnds ((s.modCh n fun c => { c with tableLoad := none, slots := c.slots.set l.slot l.bytes }).puts (slotWrites n l.slot l.bytes)) t n l.doneSig 1 ∧
      (t.ch n).tableLoad = none ∧ (t.ch n).slots = (s.ch n).slots.set l.slot l.bytes ∧
      t.get (slotValid n l.slot) = 1 ∧ t.get (slotPending n l.slot) = 0 ∧
      (t.get (if l.slot = 0 then Reg.CHn_XT_SLOT0_TABLE_ID n else Reg.CHn_XT_SLOT1_TABLE_ID n), t.get (if l.slot = 0 then Reg.CHn_XT_SLOT0_NSYM n else
        Reg.CHn_XT_SLOT1_NSYM n), t.get (if l.slot = 0 then Reg.CHn_XT_SLOT0_TYPE n else Reg.CHn_XT_SLOT1_TYPE n)) = (bits w 47 32, bits w 11 8, bits w 7 4)) ∧
    ∀ (ws : List Nat) (u : State), s.CoderHead n ws u →
      let op := recBits ws 0 3 0
      let sig := recBits ws 6 11 0
      let src := recBits ws 1 47 0
      (coderReservedOk ws = false → ∀ c ∈ [(Instr.build ch, 1), (.code ch, 2), (.loadTable ch, 3)], op = c.2 → Does c.1 s fun t => s.CoderEnds u t n sig 2) ∧
      (coderReservedOk ws = true →
        (op = 3 → ∀ table ok u', u.chRead n (recBits ws 2 47 0) 64 = (table, false, ok, u') → tableGood table = true → Does (.loadTable ch) s fun t =>
          t.get (slotPending n (recBits ws 0 4 4)) = 1 ∧ (t.ch n).tableLoad = some ⟨recBits ws 0 4 4, table, s.coderAddr n, sig⟩ ∧ t.mem = s.mem ∧
          t.get (Reg.CHn_XC_PROGRESS_DONE n) = s.get (Reg.CHn_XC_PROGRESS_DONE n)) ∧
        (∀ d u1 count es u2, u.srcDesc n src = (1, d, u1) →
          (op = 1 → u1.coderList n d = (false, count, es, u2) → ∀ l u3, u2.srcWalk n d count es (dTotal d count) 0 none = (l, none, u3) →
            let seen := fun x => (l.filter fun e => e.real && expField (dType d) e.value == x).length
            Does (.build ch) s fun t => ∃ syms : List Nat,
              syms.Pairwise (fun x y => seen y < seen x ∨ (seen x = seen y ∧ x < y)) ∧ (∀ x, x ∈ syms ↔ 0 < seen x) ∧
              s.CoderEnds (u3.chWrite n (recBits ws 2 47 0) (codeTable (dType d) (recBits ws 0 47 32) syms)) t n sig 1) ∧
          (op = 2 → let rows := recBits ws 0 15 8
            8 ≤ rows → rows ≤ 128 → rows % 8 = 0 → recBits ws 5 23 0 = 1 → ∀ table ok u1',
            u1.chRead n (recBits ws 2 47 0) 64 = (table, false, ok, u1') → tableGood table = true → bits (wordAt table 0) 7 4 = dType d →
            u1'.coderList n d = (false, count, es, u2) → ∀ l u3, u2.srcWalk n d count es (128 * rows) 0 none = (l, none, u3) →
            Does (.code ch) s fun t =>
              let r := codeRecord (dType d) table rows (l.map (·.value))
              let dst := recBits ws 3 47 0 / 64 * 64
              let v := (u3.chWrite n dst r).chWrite n (recBits ws 4 47 0) (leBytes 8 (dst + r.length / 64 * 2 ^ 48))
              s.CoderEnds (v.modCh n fun c => { c with codeJob := none }) t n sig 1)))

/-- Siphon's commands in Run (R160, R161, R163, R174, R180): ENABLE zeroes both counts of jobs and records the job signal for both engines;
disabling changes ENABLE alone; while a step plan runs both are ignored and counted (with KIND 3, log entry 78); ROUTE and COMBINE run the next posted job of their engine and end it, a record that breaks R163 with
BAD_JOB; COMBINE waits for its signal; and a combine job of one token with one returned row and no carried record writes the row times its
gate, converted. -/
def Obligations.SiphonJobs : Prop :=
  ∀ s : State, s.InRun → s.get Reg.SIP_PROGRESS_ROUTE_DONE < 2 ^ 32 → s.get Reg.SIP_PROGRESS_COMBINE_DONE < 2 ^ 32 →
    (s.stepRuns = true → ∀ c ∈ [Instr.siphonEnable, .siphonDisable], Does c s fun t => s.CountsGlobalViol t 0 3 0x3800000) ∧
    (s.stepRuns = false → s.get Reg.SIP_CTL_ENABLE = 0 → s.get Reg.SIP_CTL_JOB_SIG < 4096 → Does .siphonEnable s fun t =>
      t.get Reg.SIP_CTL_ENABLE = 1 ∧ t.get Reg.SIP_PROGRESS_ROUTE_DONE = 0 ∧ t.get Reg.SIP_PROGRESS_COMBINE_DONE = 0 ∧
      t.ring 0 = ⟨s.sig (s.get Reg.SIP_CTL_JOB_SIG), 0, []⟩ ∧ t.ring 1 = t.ring 0 ∧
      s.KeepsFields t [Reg.SIP_CTL_ENABLE, Reg.SIP_PROGRESS_ROUTE_DONE, Reg.SIP_PROGRESS_COMBINE_DONE] ∧ t = { s with fields := t.fields, rings := t.rings }) ∧
    (s.stepRuns = false → Does .siphonDisable s fun t => t.get Reg.SIP_CTL_ENABLE = 0 ∧ s.KeepsFields t [Reg.SIP_CTL_ENABLE] ∧ t = { s with fields := t.fields }) ∧
    (∀ j a ws u, s.SiphonHead 0 j a ws u → ∀ st at_ v, u.route j ws = (st, at_, v) → st ≠ 3 → Does .route s fun t =>
      s.SiphonEnds v t 0 j a (recBits ws 8 11 0) st ∧ (routeBad ws = true → st = 2 ∧ v = u)) ∧
    (∀ j a ws u, s.SiphonHead 1 j a ws u →
      let waits := recBits ws 8 28 28 = 1 ∧ s.sig (recBits ws 8 27 16) < recBits ws 8 63 32
      (waits → Does .combine s fun t => t = s) ∧
      (¬waits → ∀ st at_ v, u.combine ws = (st, at_, v) → st ≠ 3 → Does .combine s fun t => s.SiphonEnds v t 1 j a (recBits ws 8 11 0) st) ∧
      (¬waits → recBits ws 0 7 4 ≤ 2 → recBits ws 0 11 8 ≤ 2 → recBits ws 0 47 32 = 1 → recBits ws 0 12 12 = 0 →
        let area := recBits ws 4 47 0 / 64 * 64
        ∀ hb u1 eb u2 x y u3, u.read area 16 = (hb, false, u1) → wordAt hb 1 % 2 ^ 24 = 0 → u1.read (area + 64) 64 = (eb, false, u2) →
        bit (wordAt eb 0) 63 = true → bits (wordAt eb 0) 62 61 ≤ 1 → (∀ r, 1 ≤ r → r < 8 → bit (wordAt eb r) 63 = false) →
        u2.returned ws (bits (wordAt eb 0) 55 48) (bits (wordAt eb 0) 47 32) = (x, y, false, u3) → Does .combine s fun t =>
          let gate : Lane := BitVec.ofNat 32 (wordAt eb 0)
          let row := y.map fun e => (convert (recBits ws 0 11 8) (recBits ws 0 13 13 == 1) (fmul gate (widen (recBits ws 0 7 4) e).1).1).1
          ∃ (v : State) (f : Flags), v.mem = ((u3.sipFlags f).writeLogged 6 (recBits ws 1 47 0) (packElems (recBits ws 0 11 8) row)).mem ∧
            s.SiphonEnds v t 1 j a (recBits ws 8 11 0) 1))

/-- Admission (R168): of the pairs offered in order each expert takes the first ones, as many as it has room for, into its next slots in turn;
the rest are refused in their order, and no pair is lost. -/
def Obligations.AdmissionFillsCapacity : Prop :=
  ∀ (cap base : Nat → Nat) (fate : Nat) (ps : List Pair) (m : Map Nat) (e : Nat),
    let r := fitAll cap base fate ps m
    let offered := (ps.filter fun p => p.expert == e).length
    let mine := r.1.filter fun p => p.pair.expert == e
    let room := cap e - mapGet 0 m e
    mine.map (·.pair) = (ps.filter fun p => p.expert == e).take room ∧
    mine.map (·.slot) = (List.range (min offered room)).map (base e + mapGet 0 m e + ·) ∧
    (∀ p ∈ r.1, p.fate = fate) ∧ (r.2.1.filter fun p => p.expert == e) = (ps.filter fun p => p.expert == e).drop room ∧
    r.1.length + r.2.1.length = ps.length ∧ mapGet 0 r.2.2 e = mapGet 0 m e + min offered room

/-- The bonded tier's controllers (R207 to R213): a read counts corrected words, for the row too, and poisons, counts and logs a granule that it
finds bad; a scrub does so too, of a sidecar word (the command's bit 39, log entry 79) for its row; a whole write makes the granule good, a
merge, which verifies the old granule as a read does, changes its bytes alone and nothing of a poisoned granule; a refresh held up by an open
row is owed, four at most; a layer above 85 degrees refreshes doubly until it is below 82, one that the part lacks reports nothing; a row with
16 errors moves to a spare, and the move that takes a bank's last spare exhausts it. -/
def Obligations.BondedControllers : Prop :=
  ∀ s : State,
    let counted := fun (t : State) (f row n : Nat) =>
      let k := rowKey (s.bankKey f) row
      t.get Reg.HLC_ECC_CORRECTED = min (s.get Reg.HLC_ECC_CORRECTED + n) (2 ^ 32 - 1) ∧
      mapGet 0 t.rowErr k = mapGet 0 s.rowErr k + n ∧ (∀ r, r ≠ k → mapGet 0 t.rowErr r = mapGet 0 s.rowErr r) ∧ t.chambers = s.chambers
    (∀ (g : BitVec 40) (n : BitVec 8) (f : Nat), g.toNat < 2 ^ 39 → s.claimed none (256 * g.toNat) = false → s.bondedAddr (256 * g.toNat) = some f →
      (∀ c ∈ [Instr.bondedRead g n, .patrolScrub g n],
        (Does (c .none) s fun t => counted t f (s.rowOf f) n.toNat ∧ t.mem = s.mem ∧ t.poison = s.poison ∧ s.KeepsFields t [Reg.HLC_ECC_CORRECTED]) ∧
        ∀ b, b ≠ ReadBad.none → s.poisoned g.toNat = false → Does (c b) s fun t => counted t f (s.rowOf f) n.toNat ∧
          (∀ x, t.poisoned x = if x = g.toNat then true else s.poisoned x) ∧ t.get Reg.HLC_ECC_POISONED = min (s.get Reg.HLC_ECC_POISONED + 1) (2 ^ 32 - 1) ∧
          t.get Reg.ERR_STATUS_WRITTEN = (s.get Reg.ERR_STATUS_WRITTEN + 1) % 2 ^ 32 ∧
          ∀ x, x / 256 ≠ g.toNat → memByte t.mem x = memByte s.mem x) ∧
      (Does (.bondedRead g 0 .none) s fun t => mapGet 0 t.heat (pageOf (256 * g.toNat)) = min (mapGet 0 s.heat (pageOf (256 * g.toNat)) + 1) (2 ^ 16 - 1)) ∧
      (Does (.patrolScrub g 0 .none) s fun t => t.heat = s.heat) ∧
      Does (.patrolScrub (g ||| BitVec.ofNat 40 (2 ^ 39)) n .none) s fun t => t.mem = s.mem ∧ t.poison = s.poison ∧ t.heat = s.heat ∧
        counted t f ((if s.get Reg.GLB_ID_LAYERS = 12 then 1821 else 1878) + s.rowOf f / 64) n.toNat ∧ s.KeepsFields t [Reg.HLC_ECC_CORRECTED]) ∧
    (∀ (g : BitVec 40) (data : List Byte), s.BondedOpen (256 * g.toNat) → data.length = 256 → Does (.bondedWrite g data) s fun t =>
      s.Stores t (256 * g.toNat) data ∧ (∀ x, t.poisoned x = if x = g.toNat then false else s.poisoned x) ∧ t.chambers = s.chambers ∧ s.KeepsFields t []) ∧
    (∀ (g : BitVec 40) (m : MergeRead) (f : Nat) (data : List Byte), s.BondedOpen (256 * g.toNat) → s.BondedOpen (256 * g.toNat + m.off.toNat) →
      s.bondedAddr (256 * g.toNat) = some f → data ≠ [] → m.off.toNat + data.length ≤ 256 → data.length < 256 → s.InRun →
      (s.poisoned g.toNat = false → m.bad = .none → Does (.partialWriteMerge g m data) s fun t => counted t f (s.rowOf f) m.corrected.toNat ∧
        s.Stores t (256 * g.toNat + m.off.toNat) data ∧ t.poison = s.poison ∧ s.KeepsFields t [Reg.HLC_ECC_CORRECTED]) ∧
      (s.poisoned g.toNat = false → m.bad ≠ .none → Does (.partialWriteMerge g m data) s fun t => counted t f (s.rowOf f) m.corrected.toNat ∧
        (∀ x, t.poisoned x = if x = g.toNat then true else s.poisoned x) ∧ t.get Reg.HLC_ECC_POISONED = min (s.get Reg.HLC_ECC_POISONED + 1) (2 ^ 32 - 1) ∧
        ∀ x, x / 256 ≠ g.toNat → memByte t.mem x = memByte s.mem x) ∧
      (s.poisoned g.toNat = true → Does (.partialWriteMerge g m data) s fun t => t.mem = s.mem ∧ t.poison = s.poison ∧ t.chambers = s.chambers)) ∧
    (∀ (seg : Fin 1152) (bank : Fin 16), Does (.refresh seg bank) s fun t =>
      t = { s with refreshOwed := t.refreshOwed } ∧ ∀ k, mapGet 0 t.refreshOwed k =
        if k = seg.val * 16 + bank.val ∧ s.holdsRow seg bank = true then min 4 (mapGet 0 s.refreshOwed k + 1) else mapGet 0 s.refreshOwed k) ∧
    (∀ (layer : Fin 12) (deg : BitVec 12), s.get Reg.HLC_TEMP_HOT_LAYERS < 2 ^ 12 → s.get Reg.GLB_ID_LAYERS ≤ 12 →
      (s.get Reg.GLB_ID_LAYERS ≤ layer.val → Does (.refreshRateChange layer deg) s fun t => t = s) ∧
      (layer.val < s.get Reg.GLB_ID_LAYERS → Does (.refreshRateChange layer deg) s fun t =>
        (∀ i < 12, bit (t.get Reg.HLC_TEMP_HOT_LAYERS) i =
          if i = layer.val then decide (85 * 16 < deg.toNat) || (!decide (deg.toNat < 82 * 16) && bit (s.get Reg.HLC_TEMP_HOT_LAYERS) i)
          else bit (s.get Reg.HLC_TEMP_HOT_LAYERS) i) ∧
        (∀ i, mapGet 0 t.layerTemp i = if i = layer.val then deg.toNat else mapGet 0 s.layerTemp i) ∧
        t.get Reg.HLC_TEMP_LAYER < s.get Reg.GLB_ID_LAYERS ∧ t.get Reg.HLC_TEMP_DEG = mapGet 0 t.layerTemp (t.get Reg.HLC_TEMP_LAYER) % 2 ^ 12 ∧
        (∀ i < s.get Reg.GLB_ID_LAYERS, mapGet 0 t.layerTemp i ≤ mapGet 0 t.layerTemp (t.get Reg.HLC_TEMP_LAYER)) ∧
        s.KeepsFields t [Reg.HLC_TEMP_HOT_LAYERS, Reg.HLC_TEMP_LAYER, Reg.HLC_TEMP_DEG] ∧ t = { s with fields := t.fields, layerTemp := t.layerTemp })) ∧
    (∀ (seg : Fin 1152) (bank : Fin 16) (row : Fin 2048),
      let b := seg.val * 16 + bank.val
      let used := mapGet 0 s.rowMoved b
      let spare := if s.get Reg.GLB_ID_LAYERS = 12 then 198 else 140
      let errors := mapGet 0 s.rowErr (rowKey b row)
      let moved := fun t : State => mapGet 0 t.rowMoved b = used + 1 ∧ mapGet 0 t.rowErr (rowKey b row) = 0 ∧
        t.get Reg.HLC_REPAIR_MOVED = (s.get Reg.HLC_REPAIR_MOVED + 1) % 2 ^ Reg.HLC_REPAIR_MOVED.w ∧
        t.get Reg.HLC_REPAIR_MIN_FREE = min (s.get Reg.HLC_REPAIR_MIN_FREE) (spare - (used + 1)) % 2 ^ Reg.HLC_REPAIR_MIN_FREE.w ∧
        t.mem = s.mem ∧ t.chambers = s.chambers
      (errors < 16 ∨ s.holdsRow seg bank = true ∨ spare ≤ used → Does (.rowMove seg bank row) s fun t => t = s) ∧
      (16 ≤ errors → s.holdsRow seg bank = false →
        (used + 1 < spare → Does (.rowMove seg bank row) s fun t => moved t ∧ s.KeepsFields t [Reg.HLC_REPAIR_MOVED, Reg.HLC_REPAIR_MIN_FREE]) ∧
        (used + 1 = spare → Does (.rowMove seg bank row) s fun t => moved t ∧ t.get Reg.HLC_REPAIR_EXHAUSTED = 1 ∧
          t.get Reg.ERR_STATUS_WRITTEN = (s.get Reg.ERR_STATUS_WRITTEN + 1) % 2 ^ 32)))

/-- The helictite instructions that write a scalar register (R217). -/
def Obligations.HelictiteScalars : Prop :=
  WritesX .hAdd 0x10 (fun h o => h.x o.a + h.x o.b) ∧ WritesX .hSub 0x11 (fun h o => h.x o.a - h.x o.b) ∧
  WritesX .hMul 0x12 (fun h o => BitVec.ofNat 64 ((h.x o.a).toNat * (h.x o.b).toNat)) ∧
  WritesX .hAnd 0x13 (fun h o => h.x o.a &&& h.x o.b) ∧ WritesX .hOr 0x14 (fun h o => h.x o.a ||| h.x o.b) ∧ WritesX .hXor 0x15 (fun h o => h.x o.a ^^^ h.x o.b) ∧
  WritesX .hShl 0x16 (fun h o => h.x o.a <<< ((h.x o.b).setWidth 6).toNat) ∧ WritesX .hShr 0x17 (fun h o => h.x o.a >>> ((h.x o.b).setWidth 6).toNat) ∧
  WritesX .hAddi 0x18 (fun h o => h.x o.a + o.imm.signExtend 64) ∧ WritesX .hLi 0x19 (fun _ o => o.imm.signExtend 64) ∧
  WritesX .hLih 0x1A (fun h o => o.imm ++ (h.x o.d).extractLsb' 0 32) ∧
  WritesX .hDivu 0x1B (fun h o => if h.x o.b = 0 then 0xFFFFFFFFFFFFFFFF else BitVec.ofNat 64 ((h.x o.a).toNat / (h.x o.b).toNat)) ∧
  WritesX .hRemu 0x1C (fun h o => if h.x o.b = 0 then h.x o.a else BitVec.ofNat 64 ((h.x o.a).toNat % (h.x o.b).toNat)) ∧
  WritesX .hXcount 0x62 (fun h _ => BitVec.ofNat 64 h.queue.length) ∧
  WritesX .hVmovx 0x47 (fun h o => (h.lane o.a (o.mod.setWidth 4).toNat).setWidth 64)

/-- The helictite instructions that change the course of a program (R217, R221): nop, the branches, dbnz, which counts down first, and end
and trap, which release the claim and end the program, trap with its code as the job's first failure; a reserved opcode at the PC ends the program
with FAULT whatever instruction a command asks for, and one that does not stand there does nothing (log entry 35). -/
def Obligations.HelictiteControl : Prop :=
  Branches .hNop 0x00 (fun _ _ => False) ∧ Branches .hBr 0x02 (fun _ _ => True) ∧
  Branches .hBz 0x03 (fun h o => h.x o.a = 0) ∧ Branches .hBnz 0x04 (fun h o => h.x o.a ≠ 0) ∧
  Branches .hBlt 0x05 (fun h o => (h.x o.a).toInt < (h.x o.b).toInt) ∧
  ∀ (n : Fin 1152) (o : HOps) (s : State), s.helReady n = true →
    let h := s.hel n
    let at_ := fun op : BitVec 8 => s.helWord n = (op, o)
    let all := [(Instr.hNop n o, 0x00#8), (.hEnd n o, 0x01), (.hBr n o, 0x02), (.hAdd n o, 0x10), (.hLv n o, 0x20), (.hSvh n o, 0x23), (.hVadd n o, 0x30),
      (.hVrcp n o, 0x40), (.hRg n o, 0x50), (.hClm n o, 0x53), (.hXsend n o, 0x60), (.hPost n o, 0x68)]
    let gone := fun (t : State) (e : HelEnd) => (t.hel n).ended = some e ∧ t.helReady n = false ∧ t.claimOf n = none ∧
      (∀ m, m ≠ n.val → t.hel m = s.hel m) ∧ t.mem = s.mem ∧ t.chambers = s.chambers ∧ t.fields = s.fields ∧
      (t.hel n).xregs = h.xregs ∧ (t.hel n).hregs = h.hregs ∧ (t.hel n).scratch = h.scratch
    (∀ c ∈ all, (ReservedH (s.helWord n).1 → Does c.1 s fun t => s.HelFaults t n) ∧
      (¬ReservedH (s.helWord n).1 → ¬at_ c.2 → Does c.1 s fun t => t = s)) ∧
    (at_ 0x06 → Does (.hDbnz n o) s fun t => s.OnlyHel t n ∧ (∀ r, (t.hel n).x r = if r = o.a ∧ r ≠ 0 then h.x r - 1 else h.x r) ∧
      t.hel n = { h with pc := (t.hel n).pc, xregs := (t.hel n).xregs } ∧
      (t.hel n).pc = if (t.hel n).x o.a = 0 then (h.pc + 1) % 256 else o.imm.toNat % 256) ∧
    (at_ 0x01 → Does (.hEnd n o) s fun t => gone t ⟨1, h.pc, 0⟩ ∧ t.hlcJobs = s.hlcJobs) ∧
    (at_ 0x07 → Does (.hTrap n o) s fun t => gone t ⟨5, h.pc, o.imm.toNat % 256⟩ ∧
      t.hlcJobs = s.hlcJobs.map fun j => if n.val ∈ j.targets ∧ j.fault = none then { j with fault := some (n.val, ⟨5, h.pc, o.imm.toNat % 256⟩) } else j)

/-- The helictite instructions that write a vector register, lane by lane (R114, R115, R118, R217, R218); abs, neg and the selections raise no
flag, a NaN made by abs or neg is the canonical one, and a reduction leaves lanes 1 to 15 zero. -/
def Obligations.HelictiteVectors : Prop :=
  WritesH .hVadd 0x30 (fun h o k => fadd (h.lane o.a k) (h.lane o.b k)) ∧ WritesH .hVsub 0x31 (fun h o k => fsub (h.lane o.a k) (h.lane o.b k)) ∧
  WritesH .hVmul 0x32 (fun h o k => fmul (h.lane o.a k) (h.lane o.b k)) ∧ WritesH .hVfma 0x33 (fun h o k => ffma (h.lane o.a k) (h.lane o.b k) (h.lane o.c k)) ∧
  WritesH .hVmax 0x34 (fun h o k => fmax (h.lane o.a k) (h.lane o.b k)) ∧ WritesH .hVmin 0x35 (fun h o k => fmin (h.lane o.a k) (h.lane o.b k)) ∧
  WritesH .hVabs 0x36 (fun h o k => (if laneNan (h.lane o.a k) then qnan32 else h.lane o.a k &&& 0x7FFFFFFF, .none)) ∧
  WritesH .hVneg 0x37 (fun h o k => (if laneNan (h.lane o.a k) then qnan32 else h.lane o.a k ^^^ 0x80000000, .none)) ∧
  WritesH .hVdotBf2 0x38 (fun h o k => dotBf2 (h.lane o.a k) (h.lane o.b k) (h.lane o.c k)) ∧
  WritesH .hVcmpLt 0x39 (fun h o k => (fltMask (h.lane o.a k) (h.lane o.b k), .none)) ∧
  WritesH .hVsel 0x3A (fun h o k => (if h.lane o.c k = 0 then h.lane o.b k else h.lane o.a k, .none)) ∧
  WritesH .hVbcast 0x3B (fun h o _ => ((h.x o.a).extractLsb' 0 32, .none)) ∧ WritesH .hVlane 0x3E (fun _ _ k => (BitVec.ofNat 32 k, .none)) ∧
  WritesH .hVrcp 0x40 (fun h o k => frcp (h.lane o.a k)) ∧ WritesH .hVrsqrt 0x41 (fun h o k => frsqrt (h.lane o.a k)) ∧
  WritesH .hVexp 0x42 (fun h o k => fexp (h.lane o.a k)) ∧ WritesH .hVlog 0x43 (fun h o k => flog (h.lane o.a k)) ∧
  WritesH .hVcvtF2i 0x44 (fun h o k => (BitVec.ofNat 32 (convert 5 false (h.lane o.a k)).1, (convert 5 false (h.lane o.a k)).2)) ∧
  WritesH .hVcvtI2f 0x45 (fun h o k => roundFp32 (ofIntVal (h.lane o.a k).toInt)) ∧
  WritesH .hVaddI32 0x46 (fun h o k => (h.lane o.a k + h.lane o.b k, .none)) ∧
  WritesH .hVinsx 0x48 (fun h o k => (if k = (o.mod.setWidth 4).toNat then (h.x o.a).extractLsb' 0 32 else h.lane o.d k, .none)) ∧
  ∀ (n : Fin 1152) (o : HOps) (s : State),
    ∀ c ∈ [(Instr.hVredAdd n o, 0x3C#8, fun x y => (fadd x y).1), (.hVredMax n o, 0x3D, fun x y => (fmax x y).1)], s.HelAt n c.2.1 o → Does c.1 s fun t =>
      s.OnlyHel t n ∧ t.hel n = { s.hel n with pc := ((s.hel n).pc + 1) % 256, hregs := (t.hel n).hregs, flags := (t.hel n).flags } ∧
      ∀ r, ∀ k < 16, (t.hel n).lane r k =
        if r ≠ o.d then (s.hel n).lane r k else if k = 0 then pairTree c.2.2 4 ((s.hel n).lane o.a) 0 else 0

/-- The scratch loads and stores of a ready helictite (R117, R119, R217, R220, R221). Aligned and inside the 2 KiB, with no granule operation
to wait for, lv, lvh and lx read 64, 32 and 8 bytes and sv, svh and sx write them; an outstanding rg of the slot holds a load back, a wg a
store; misaligned or outside, or with another type than BF16 and FP16, the instruction faults. -/
def Obligations.HelictiteScratch : Prop :=
  ∀ (n : Fin 1152) (o : HOps) (s : State), s.helReady n = true →
    let h := s.hel n
    let at_ := fun op : BitVec 8 => s.helWord n = (op, o)
    let a := h.at o
    let ty := (o.mod.setWidth 4).toNat
    let conv := fun k => convert ty (o.mod.getLsbD 4) (h.lane o.b k)
    let wide := fun k => widen ty (leNat (memRead h.scratch (a + 2 * k) 2))
    let regs := fun t : State => s.OnlyHel t n ∧ t.hel n = { h with pc := (h.pc + 1) % 256, xregs := (t.hel n).xregs, hregs := (t.hel n).hregs, flags := (t.hel n).flags }
    let puts := fun (t : State) (k : Nat) (b : Nat → Byte) => s.OnlyHel t n ∧
      t.hel n = { h with pc := (h.pc + 1) % 256, scratch := (t.hel n).scratch, flags := (t.hel n).flags } ∧
      ∀ x, memByte (t.hel n).scratch x = if a ≤ x ∧ x < a + k then b (x - a) else memByte h.scratch x
    (at_ 0x20 → h.Scratch o 64 false → Does (.hLv n o) s fun t => regs t ∧ (t.hel n).xregs = h.xregs ∧ (t.hel n).flags = h.flags ∧
      ∀ r, ∀ k < 16, (t.hel n).lane r k = if r = o.d then BitVec.ofNat 32 (leNat (memRead h.scratch (a + 4 * k) 4)) else h.lane r k) ∧
    (at_ 0x24 → h.Scratch o 8 false → Does (.hLx n o) s fun t => regs t ∧ (t.hel n).hregs = h.hregs ∧ (t.hel n).flags = h.flags ∧
      ∀ r, (t.hel n).x r = if r = o.d ∧ r ≠ 0 then BitVec.ofNat 64 (leNat (memRead h.scratch a 8)) else h.x r) ∧
    (at_ 0x22 → ty = 1 ∨ ty = 2 → h.Scratch o 32 false → Does (.hLvh n o) s fun t => regs t ∧ (t.hel n).xregs = h.xregs ∧
      (∀ r, ∀ k < 16, (t.hel n).lane r k = if r = o.d then (wide k).1 else h.lane r k) ∧
      ((t.hel n).flags.invalid = true ↔ h.flags.invalid = true ∨ ∃ k < 16, (wide k).2.invalid = true)) ∧
    (at_ 0x21 → h.Scratch o 64 true → Does (.hSv n o) s fun t => (t.hel n).flags = h.flags ∧
      puts t 64 fun i => (h.lane o.b (i / 4)).extractLsb' (8 * (i % 4)) 8) ∧
    (at_ 0x25 → h.Scratch o 8 true → Does (.hSx n o) s fun t => (t.hel n).flags = h.flags ∧
      puts t 8 fun i => (h.x o.b).extractLsb' (8 * i) 8) ∧
    (at_ 0x23 → ty = 1 ∨ ty = 2 → h.Scratch o 32 true → Does (.hSvh n o) s fun t => puts t 32 (fun i => (leBytes 2 (conv (i / 2)).1).getD (i % 2) 0) ∧
      ((t.hel n).flags.invalid = true ↔ h.flags.invalid = true ∨ ∃ k < 16, (conv k).2.invalid = true) ∧
      ((t.hel n).flags.overflow = true ↔ h.flags.overflow = true ∨ ∃ k < 16, (conv k).2.overflow = true) ∧
      ((t.hel n).flags.flush = true ↔ h.flags.flush = true ∨ ∃ k < 16, (conv k).2.flush = true)) ∧
    (∀ c ∈ [((Instr.hLv n o, 0x20#8), 64, false, false), ((.hSv n o, 0x21), 64, true, false), ((.hLvh n o, 0x22), 32, false, true),
        ((.hSvh n o, 0x23), 32, true, true), ((.hLx n o, 0x24), 8, false, false), ((.hSx n o, 0x25), 8, true, false)], at_ c.1.2 →
      (a % c.2.1 ≠ 0 ∨ 2048 < a + c.2.1 ∨ (c.2.2.2 = true ∧ ty ≠ 1 ∧ ty ≠ 2) → Does c.1.1 s fun t => s.HelFaults t n) ∧
      (a % c.2.1 = 0 → a + c.2.1 ≤ 2048 → (c.2.2.2 = true → ty = 1 ∨ ty = 2) → (∃ p ∈ h.ops, p.write = c.2.2.1 ∧ p.slot = a / 256) →
        Does c.1.1 s fun t => t = s))

/-- The granule operations and claims of helictites (R217, R219 to R221, R226 to R230, R382): rg and wg start an operation and step on, with
eight outstanding, or an rg whose slot a wg is still to read, they wait, misaligned they fault; an rg that completes, a near one no sooner than 24 MCLK cycles after its issue, puts its granule into the
slot, zeros for a foreign block, and a wg writes its slot to its granule whole, a foreign one nothing; fence waits for every wg; clm takes a
claim over the banks of its range and waits for its effect, rel gives it up, yld brings all its banks to a row boundary, and a forced boundary those for which an access has waited 1,600 MCLK cycles or
four refreshes are owed. -/
def Obligations.HelictiteGranules : Prop :=
  ∀ (n : Fin 1152) (s : State),
    let h := s.hel n
    let frame := fun t : State => (∀ m, m ≠ n.val → t.hel m = s.hel m) ∧ t.chambers = s.chambers
    (∀ o : HOps, s.helReady n = true →
      let at_ := fun op : BitVec 8 => s.helWord n = (op, o)
      let a := h.at o
      let slot := (o.mod.setWidth 3).toNat
      let next := { h with pc := (h.pc + 1) % 256 }
      (∀ c ∈ [(Instr.hRg n o, false), (.hWg n o, true)], at_ (if c.2 then 0x51 else 0x50) →
        (a % 256 = 0 → h.ops.length < 8 → (c.2 = false → ∀ p ∈ h.ops, ¬(p.write = true ∧ p.slot = slot)) → Does c.1 s fun t =>
          t.hel n = { next with ops := h.ops ++ [⟨c.2, slot, s.deinterleave a, s.cycle⟩] } ∧ frame t ∧ t.mem = s.mem ∧
          (s.deinterleave a = none → t.get Reg.HLC_DEINT_FOREIGN_COUNT = (s.get Reg.HLC_DEINT_FOREIGN_COUNT + 1) % 2 ^ 64) ∧ (s.deinterleave a ≠ none → t.fields = s.fields) ∧
          s.KeepsFields t [Reg.HLC_DEINT_FOREIGN_COUNT]) ∧
        (a % 256 ≠ 0 → Does c.1 s fun t => s.HelFaults t n) ∧
        (a % 256 = 0 → 8 ≤ h.ops.length ∨ (c.2 = false ∧ ∃ p ∈ h.ops, p.write = true ∧ p.slot = slot) → Does c.1 s fun t => t = s)) ∧
      (at_ 0x56 → (∀ p ∈ h.ops, p.write = false) → Does (.hFence n o) s fun t => s.OnlyHel t n ∧ t.hel n = next) ∧
      (at_ 0x56 → (∃ p ∈ h.ops, p.write = true) → Does (.hFence n o) s fun t => t = s) ∧
      (at_ 0x53 → Does (.hClm n o) s fun t => t.hel n = next ∧ frame t ∧ t.mem = s.mem ∧ t.helReady n = false ∧ (∀ m, m ≠ n.val → t.claimOf m = s.claimOf m) ∧
        ∃ c : Claim, t.claimOf n = some c ∧ c.lo = (h.x o.a).toNat ∧ c.hi = (h.x o.b).toNat ∧ c.effect = false ∧
          (∀ b, b ∈ c.banks ↔ b < 16 ∧ ∃ i, c.lo / 1024 ≤ i ∧ i ≤ c.hi / 1024 ∧ ∃ f, s.bondedAddr (i * 1024) = some f ∧ s.segmentOf f = n ∧ s.bankOf f = b) ∧
          ∀ e ∈ s.snoop, s.inClaim c (64 * e.1) = true → e.1 ∈ t.biWait) ∧
      (at_ 0x54 → Does (.hRel n o) s fun t => t.hel n = next ∧ frame t ∧ t.claimOf n = none ∧ (∀ m, m ≠ n.val → t.claimOf m = s.claimOf m) ∧ t.mem = s.mem ∧ t.fields = s.fields) ∧
      (at_ 0x55 → s.claimOf n = none → Does (.hYld n o) s fun t => s.OnlyHel t n ∧ t.hel n = next) ∧
      (at_ 0x55 → ∀ c, s.claimOf n = some c → (∀ b ∈ c.banks, b < 16) → Does (.hYld n o) s fun t =>
        t.hel n = next ∧ frame t ∧ s.RowBoundary t n c c.banks ∧ t.mem = s.mem ∧ t.fields = s.fields)) ∧
    (∀ c, s.claimOf n = some c → c.effect = false → s.held = false → s.claimLines c = [] → Does (.claimEffect n) s fun t =>
      t = { s with claims := t.claims } ∧ t.claimOf n = some { c with effect := true } ∧ ∀ m, m ≠ n.val → t.claimOf m = s.claimOf m) ∧
    (∀ c, s.claimOf n = some c → (∀ b ∈ c.banks, b < 16) → c.effect = true →
      let due := c.banks.filter fun b => decide ((∃ w ∈ c.waiting, w.bank = b ∧ w.since + 3200 ≤ s.cycle) ∨ mapGet 0 s.refreshOwed (n * 16 + b) = 4)
      (due = [] → Does (.forcedRowBoundary n) s fun t => t = s) ∧
      (due ≠ [] → Does (.forcedRowBoundary n) s fun t =>
        s.RowBoundary t n c due ∧ t.hels = s.hels ∧ t.mem = s.mem ∧ t.chambers = s.chambers ∧ s.KeepsFields t [Reg.HLC_CLAIM_STAT_FORCED] ∧
        t.get Reg.HLC_CLAIM_STAT_FORCED = (s.get Reg.HLC_CLAIM_STAT_FORCED + due.length) % 2 ^ Reg.HLC_CLAIM_STAT_FORCED.w)) ∧
    (s.held = false → ∀ (slot : Fin 8) (p : HelOp) (rest : List HelOp),
      (h.Completes false slot p rest → p.addr = none → Does (.hRgComplete n slot) s fun t => s.OnlyHel t n ∧
        t.hel n = { h with ops := rest, scratch := (t.hel n).scratch } ∧
        ∀ x, memByte (t.hel n).scratch x = if 256 * slot.val ≤ x ∧ x < 256 * slot.val + 256 then 0 else memByte h.scratch x) ∧
      (h.Completes true slot p rest → p.addr = none → Does (.hWgComplete n slot) s fun t => s.OnlyHel t n ∧ t.hel n = { h with ops := rest }) ∧
      ∀ a, p.addr = some a → s.Enters n a → (∀ f, s.bondedAddr a = some f → s.segmentOf f = n → p.since + 48 ≤ s.cycle) →
        (h.Completes false slot p rest → s.Readable a → Does (.hRgComplete n slot) s fun t => frame t ∧ t.mem = s.mem ∧
          t.hel n = { h with ops := rest, scratch := (t.hel n).scratch } ∧
          ∀ x, memByte (t.hel n).scratch x = if 256 * slot.val ≤ x ∧ x < 256 * slot.val + 256 then memByte s.mem (a + (x - 256 * slot.val)) else memByte h.scratch x) ∧
        (h.Completes false slot p rest → s.populated a = true → s.sealedAt a = false → s.poisoned (granuleOf a) = true → h.ended = none →
          Does (.hRgComplete n slot) s fun t => frame t ∧ t.mem = s.mem ∧ t.claimOf n = none ∧
            t.hel n = { h with ops := rest, ended := some ⟨3, h.pc, 0⟩, xrecvAt := none }) ∧
        (h.Completes true slot p rest → a % 256 = 0 → s.populated a = true → s.sealedAt a = false → s.peerClosed a = false → (s.frameOf (pageOf a)).isSome = true →
          s.cachedLines (granuleOf a) = [] → Does (.hWgComplete n slot) s fun t => frame t ∧ t.hel n = { h with ops := rest } ∧
            t.poisoned (granuleOf a) = false ∧ s.Stores t a (memRead h.scratch (256 * slot.val) 256)))

/-- Words between helictites and posts (R217, R221, R232): xsend appends xB to the queue of helictite xA[6:0] of the layer, of all others for
0x7F, and of none for a number past 95, once each of those queues has room for it and the layer's bus, which takes one sender a cycle in turn, is the sender's (log entry 59); xrecv takes the oldest word, waits while there is none, and
faults once it has waited longer than a nonzero TIMEOUT_US; post adds xA to a signal word. -/
def Obligations.HelictiteExchange : Prop :=
  ∀ (n : Fin 1152) (o : HOps) (s : State),
    let h := s.hel n
    let next := { h with pc := (h.pc + 1) % 256 }
    let num := ((h.x o.a).setWidth 7).toNat
    let target := fun m : Nat => m / 96 = n / 96 ∧ if num = 0x7F then m ≠ n else m % 96 = num
    let at_ := fun op : BitVec 8 => s.helWord n = (op, o)
    (s.helReady n = true →
      (at_ 0x60 → (∀ m, target m → (s.hel m).queue.length < 32) → s.hasBus n = true → Does (.hXsend n o) s fun t =>
        t = { s with hels := t.hels, xbus := t.xbus } ∧ t.hasBus n = false ∧ (∀ k, k ≠ n / 96 → mapGet (0, 0) t.xbus k = mapGet (0, 0) s.xbus k) ∧
        ∀ m, (target m → t.hel m = { (if m = n then next else s.hel m) with queue := (s.hel m).queue ++ [h.x o.b] }) ∧
          (¬target m → t.hel m = if m = n then next else s.hel m)) ∧
      (at_ 0x60 → (∃ m, target m ∧ 32 ≤ (s.hel m).queue.length) ∨ s.hasBus n = false → Does (.hXsend n o) s fun t => t = s) ∧
      (at_ 0x61 → ∀ w q, h.queue = w :: q → Does (.hXrecv n o) s fun t => s.OnlyHel t n ∧
        t.hel n = { next with queue := q, xrecvAt := none, xregs := (t.hel n).xregs } ∧ ∀ r, (t.hel n).x r = if r = o.d ∧ r ≠ 0 then w else h.x r) ∧
      (at_ 0x61 → h.queue = [] → Does (.hXrecv n o) s fun t => s.OnlyHel t n ∧ t.hel n = { h with xrecvAt := some (h.xrecvAt.getD s.cycle) }) ∧
      (at_ 0x68 → s.InRun → Does (.hPost n o) s fun t => t = { s with hels := t.hels, fields := t.fields } ∧ (∀ m, t.hel m = if m = n then next else s.hel m) ∧
        (∀ k < 4096, t.sig k = if k = (o.imm.setWidth 12).toNat then (s.sig k + (h.x o.a).toNat) % 2 ^ 64 else s.sig k) ∧
        s.KeepsFields t [Reg.GLB_SIGn_VALUE (o.imm.setWidth 12).toNat])) ∧
    ∀ x, h.xrecvAt = some x → s.held = false →
      (s.get Reg.HLC_CTL_TIMEOUT_US ≠ 0 → x + 1700 * s.get Reg.HLC_CTL_TIMEOUT_US < s.cycle → Does (.hXrecvTimeout n) s fun t => s.HelFaults t n) ∧
      (s.get Reg.HLC_CTL_TIMEOUT_US = 0 ∨ s.cycle ≤ x + 1700 * s.get Reg.HLC_CTL_TIMEOUT_US → Does (.hXrecvTimeout n) s fun t => t = s)

/-- Helictite jobs in Run (R160, R222 to R224, R235): ENABLE zeroes the count of jobs and records the job signal, so that no job of the internal queue
stands behind one of the ring, disabling changes ENABLE alone, and while a step plan runs both are ignored and counted (with KIND 3, log entry 78); a job whose record breaks R224, or is longer than its image, ends with BAD_JOB; one that holds starts its targets at instruction 0 with the
job's arguments, once they are idle and no object it holds is in a move; it ends once each target has, with the highest status and the joined
flags of them all. -/
def Obligations.HelictiteJobs : Prop :=
  ∀ s : State, s.InRun →
    (s.stepRuns = true → ∀ c ∈ [Instr.hlcEnable, .hlcDisable], Does c s fun t => s.CountsGlobalViol t 0 3 0x3400000) ∧
    (s.stepRuns = false → s.get Reg.HLC_CTL_ENABLE = 0 → s.get Reg.HLC_CTL_JOB_SIG < 4096 → Does .hlcEnable s fun t =>
      t.get Reg.HLC_CTL_ENABLE = 1 ∧ t.get Reg.HLC_PROGRESS_DONE = 0 ∧ t.ring 2 = ⟨s.sig (s.get Reg.HLC_CTL_JOB_SIG), 0, []⟩ ∧
      s.KeepsFields t [Reg.HLC_CTL_ENABLE, Reg.HLC_PROGRESS_DONE] ∧
      t = { s with fields := t.fields, rings := t.rings, hlcQueue := s.hlcQueue.map fun q => { q with behind := 0 } }) ∧
    (s.stepRuns = false → Does .hlcDisable s fun t => t.get Reg.HLC_CTL_ENABLE = 0 ∧ s.KeepsFields t [Reg.HLC_CTL_ENABLE] ∧ t = { s with fields := t.fields }) ∧
    (∀ src ws ra token j u, s.HlcHead src ws ra token j u →
      let bad := ¬(∃ m, m ∈ hlcTargets ws) ∨ 2 ^ s.get Reg.GLB_ID_LAYERS ≤ recBits ws 0 35 24 ∨ recBits ws 0 55 51 ≠ 0 ∨ recBits ws 2 63 32 ≠ 0 ∨ recBits ws 3 63 48 ≠ 0
      let job : HlcJob := ⟨j, ra, token, recBits ws 0 47 36, hlcTargets ws, [], none, 0⟩
      (∀ m, m ∈ hlcTargets ws ↔ m < 1152 ∧ bit (recBits ws 0 35 24) (m / 96) = true ∧ bit (recBits ws 1 63 0 + recBits ws 2 31 0 * 2 ^ 64) (m % 96) = true) ∧
      (bad → Does (.helictiteJobStart src) s fun t => u.HlcEnds t job 2 .none) ∧
      (¬bad → ∀ ni holds prog v, u.hlcImage (recBits ws 3 47 0 / 64 * 64) (recBits ws 0 23 16 + 1) = (ni, holds, prog, false, v) →
        (ni ≤ recBits ws 0 23 16 → Does (.helictiteJobStart src) s fun t => v.HlcEnds t job 2 .none) ∧
        (recBits ws 0 23 16 < ni → (∃ m ∈ hlcTargets ws, (s.hel m).running = true) ∨ s.heldMoves holds = true → Does (.helictiteJobStart src) s fun t => t = s) ∧
        (recBits ws 0 23 16 < ni → (∀ m ∈ hlcTargets ws, (s.hel m).running = false) → s.heldMoves holds = false → Does (.helictiteJobStart src) s fun t =>
          t.hlcJobs = v.hlcJobs ++ [{ job with holds := holds }] ∧ t = { v with hels := t.hels, hlcJobs := t.hlcJobs } ∧
          (∀ m, m ∉ hlcTargets ws → t.hel m = s.hel m) ∧
          ∀ m ∈ hlcTargets ws, let h := t.hel m
            h = { s.hel m with pc := 0, running := true, ended := none, flags := .none, xrecvAt := none, progId := recBits ws 0 15 0, prog := h.prog, xregs := h.xregs, hregs := h.hregs } ∧
            (∀ r : BitVec 4, h.x r = if r = 1 then BitVec.ofNat 64 (m % 96) else if r = 2 then BitVec.ofNat 64 (m / 96)
              else if 3 ≤ r.toNat ∧ r.toNat ≤ 6 then BitVec.ofNat 64 (ws.getD (r.toNat + 1) 0) else 0) ∧
            (∀ r, ∀ k < 16, h.lane r k = 0) ∧
            (recBits ws 0 15 0 ≠ 0 → recBits ws 0 15 0 = (s.hel m).progId → h.prog = (s.hel m).prog) ∧
            (recBits ws 0 15 0 = 0 ∨ recBits ws 0 15 0 ≠ (s.hel m).progId → ∀ k, mapGet 0 h.prog k = if k < prog.length then prog.getD k 0 else mapGet 0 (s.hel m).prog k)))) ∧
    ∀ (k : BitVec 11) (j : HlcJob), s.hlcJobs[k.toNat]? = some j → j.doneSig < 4096 →
      let st := fun m => ((s.hel m).ended.map (·.status)).getD 0
      (∀ m ∈ j.targets, (s.hel m).ended ≠ none ∧ (s.hel m).ops = []) → Does (.helictiteJobEnd k) s fun t =>
        (∀ m, t.hel m = if m ∈ j.targets then { s.hel m with running := false, ended := none } else s.hel m) ∧
        ∃ status f, (∀ m ∈ j.targets, st m ≤ status) ∧ (status = 0 ∨ ∃ m ∈ j.targets, st m = status) ∧
          (f.invalid = true ↔ ∃ m ∈ j.targets, (s.hel m).flags.invalid = true) ∧ (f.overflow = true ↔ ∃ m ∈ j.targets, (s.hel m).flags.overflow = true) ∧
          (f.flush = true ↔ ∃ m ∈ j.targets, (s.hel m).flags.flush = true) ∧
          { s with hels := t.hels }.HlcEnds t j status f

/-- The commands of Flowstone on objects in Run, while no slot drains and no promotion waits (R241 to R246, R256, R258): a record that breaks R243
or names no object completes with BAD_CMD; REGISTER, DEREGISTER, PIN, UNPIN, PREFETCH, DEMOTE and QUERY do what R244 to R246 and the movement
state of the object give, and RELEASE of pages neither sealed nor of a closed window frees their frames and zeroes them. -/
def Obligations.FlowstoneObjects : Prop :=
  ∀ (s : State) (src : JobSrc) (op : Nat) (ws : List Nat) (w : Waiter) (u : State), s.InRun → u.Calm → s.FlsHead src op ws w u →
    let id := recBits ws 0 31 16
    let b := recBits ws 1 47 0
    let z := recBits ws 2 47 0
    let flag := fun i => bit (ws.getD 0 0) i
    (∀ c ∈ [(Instr.register src, 1), (.deregister src, 2), (.pin src, 3), (.unpin src, 4), (.prefetch src, 5), (.demote src, 6), (.release src, 7),
        (.query src, 8), (.drain src, 9), (.drainCancel src, 10)],
      (op = c.2 → (flsReservedOk ws = false ∨ (op ∈ [2, 3, 4, 5, 6, 8] ∧ u.objById id = none)) → Does c.1 s fun t => u.FlsDone t w 2) ∧
      (op ≠ c.2 → 1 ≤ op → op ≤ 10 → Does c.1 s fun t => t = s)) ∧
    (flsReservedOk ws = true →
      (op = 1 → let legal := b % 2 ^ 21 = 0 ∧ z % 2 ^ 21 = 0 ∧ 0 < z ∧ z ≤ 2 ^ 36 ∧ b + z ≤ 0x01C000000000
        let free := u.objById id = none ∧ ∀ o ∈ u.objects, b + z ≤ o.base ∨ o.base + o.size ≤ b
        let outside := flag 5 = true ∧ u.get Reg.GLB_ROLE_TWIN = 1 ∧ ¬(u.inOwnWindow b = true ∧ u.inOwnWindow (b + z - 1) = true)
        (¬legal → Does (.register src) s fun t => u.FlsDone t w 2) ∧ (legal → ¬free → Does (.register src) s fun t => u.FlsDone t w 3) ∧
        (legal → free → Does (.register src) s fun t => ∃ x : State, x.FlsDone t w 1 ∧ x = { u with objects := x.objects, fields := x.fields, violAt := x.violAt } ∧
          (∀ y, y ∈ x.objects ↔ y ∈ u.objects ∨ (y.id = id ∧ y.base = b ∧ y.size = z ∧ y.pin = flag 4 ∧ (y.mirror = true ↔ flag 5 = true ∧ ¬outside) ∧
            y.noheat = flag 6 ∧ y.wanted = none)) ∧
          (outside → u.CountsGlobalViol { x with objects := u.objects } 3 0 b) ∧ (¬outside → x.fields = u.fields ∧ x.violAt = u.violAt))) ∧
      ∀ o, u.objById id = some o →
        let st := u.moveState o.id
        (op = 2 → (∀ m ∈ u.moves, m.isOf o.id = true → m.waiters = [] ∧ m.pins = []) → Does (.deregister src) s fun t =>
          ({ u with moves := u.moves.filter (fun m => !m.isOf o.id), objects := u.objects.filter fun x => x.id != o.id } : State).FlsDone t w 1) ∧
        (op = 3 → (st = 1 → Does (.pin src) s fun t =>
            t = { u with moves := u.moves.map fun m : Move => if m.isOf o.id then { m with pins := m.pins ++ [w] } else m }) ∧
          (st ≠ 1 → Does (.pin src) s fun t => ({ u with
            moves := u.moves.filter (fun m : Move => !(m.isOf o.id && m.kind != MoveKind.promotion))
            objects := u.objects.map fun x : Obj => if x.id = o.id then { x with pin := true } else x } : State).FlsDone t w 1)) ∧
        (op = 4 → Does (.unpin src) s fun t => ({ u with objects := u.objects.map fun x : Obj => if x.id = o.id then { x with pin := false } else x } : State).FlsDone t w 1) ∧
        (op = 5 → let v : State := { u with
            objects := u.objects.map fun x : Obj => if x.id = o.id then { x with wanted := some (max (x.wanted.getD 0) w.deadline) } else x
            prefetches := u.prefetches + 1 }
          ((st = 0 ∧ u.restsBonded o = true) ∨ st = 2 → Does (.prefetch src) s fun t => ∃ x : State, x.FlsDone t w 1 ∧
            x = { v with moves := if st = 2 then u.moves.filter (fun m => !m.isOf o.id) else u.moves, fields := x.fields } ∧
            x.get Reg.FLS_DL_MET = (u.get Reg.FLS_DL_MET + 1) % 2 ^ Reg.FLS_DL_MET.w ∧ u.KeepsFields x [Reg.FLS_DL_MET]) ∧
          (st = 1 ∨ st = 3 ∨ (st = 0 ∧ u.restsBonded o = false) → u.promotionNeed (Move.of o.id .promotion) ≤ u.freeBonded + u.freeing → (∀ m ∈ u.moves, m.started = true) →
            Does (.prefetch src) s fun t =>
            let joined := fun m : Move => { m with waiters := m.waiters ++ [w], prefetch := some (min (m.prefetch.getD w.deadline) w.deadline)
                                                   order := if w.deadline < m.prefetch.getD (w.deadline + 1) then u.prefetches else m.order }
            t = { v with moves := if ∃ m ∈ u.moves, m.isOf o.id = true ∧ m.kind = .promotion
              then u.moves.map fun m : Move => if m.isOf o.id && m.kind == MoveKind.promotion then joined m else m
              else u.moves ++ [joined (Move.of o.id .promotion)] })) ∧
        (op = 6 → (st = 1 → Does (.demote src) s fun t =>
            ({ u with moves := u.moves.map fun m : Move => if m.isOf o.id then { m with evict := true } else m } : State).FlsDone t w 1) ∧
          (st = 0 → u.restsBonded o = true → u.heldPages o ≠ [] → o.pin = false → u.isWanted o = false → Does (.demote src) s fun t =>
            ({ u with moves := u.moves ++ [Move.of o.id .demotion] } : State).FlsDone t w 1) ∧
          (st = 2 ∨ st = 3 ∨ (st = 0 ∧ (u.restsBonded o = false ∨ u.heldPages o = [] ∨ o.pin = true ∨ u.isWanted o = true)) → Does (.demote src) s fun t => u.FlsDone t w 1)) ∧
        (op = 8 → let a := recBits ws 4 47 0
          (a % 32 ≠ 0 → Does (.query src) s fun t => u.FlsDone t w 2) ∧
          (a % 32 = 0 → let x := u.writeLogged 9 a ([o.base,
              o.size + (if o.pin then 2 ^ 48 else 0) + (if o.mirror then 2 ^ 49 else 0) + (if o.noheat then 2 ^ 50 else 0),
              st + (if ∃ m, u.moveOf o.id = some m ∧ m.evict = true then 16 else 0) + (if u.isWanted o then 32 else 0) + u.density o % 2 ^ 16 * 2 ^ 16,
              ((u.heldPages o).filter fun e => e.2.isBonded).length % 2 ^ 16 + ((u.heldPages o).filter fun e => !e.2.isBonded).length % 2 ^ 16 * 2 ^ 16].flatMap
                (leBytes 8))
            u.Visible x → Does (.query src) s fun t => x.FlsDone t w 1))) ∧
    (flsReservedOk ws = true → op = 7 → let legal := b % 2 ^ 21 = 0 ∧ z % 2 ^ 21 = 0 ∧ b + z ≤ 0x01C000000000
      (¬legal → Does (.release src) s fun t => u.FlsDone t w 2) ∧
      (legal → (∀ p, b ≤ p * 2 ^ 21 → p * 2 ^ 21 < b + z → u.peerClosed (p * 2 ^ 21) = false ∧ u.sealedAt (p * 2 ^ 21) = false) → Does (.release src) s fun t =>
        ∃ x : State, x.FlsDone t w 1 ∧ x.chambers = u.chambers ∧ x.objects = u.objects ∧
          ∀ p, let freed := b ≤ p * 2 ^ 21 ∧ p * 2 ^ 21 < b + z ∧ u.populatedPage p = true
            (freed → x.frameOf p = none ∧ ∀ i < 2 ^ 21, memByte x.mem (p * 2 ^ 21 + i) = 0 ∧ x.poisoned (granuleOf (p * 2 ^ 21 + i)) = false) ∧
            (¬freed → x.frameOf p = u.frameOf p ∧ ∀ i < 2 ^ 21, memByte x.mem (p * 2 ^ 21 + i) = memByte u.mem (p * 2 ^ 21 + i))))

/-- Drains, epochs and moves of Flowstone in Run (R240, R242, R248, R251 to R254, R257, R258, R262 to R264): when a drain is refused and what an
accepted or cancelled one changes; EPOCH_END, at the end of the next epoch, halves the heat; the first queued move that may start takes one frame per page in the tier it goes to,
and its switch gives each page its new frame, or none where every granule is zero, and completes a prefetch with OK, or with LATE from its deadline
on; late prefetches, expired deadlines, writes that waited for a frame and what waited for them, the end of a drain, and the loss of a cartridge with every granule of its pages poisoned. -/
def Obligations.FlowstoneMoves : Prop :=
  ∀ s : State, s.InRun →
    (s.stepRuns = true → Does .flsEnable s fun t => s.CountsGlobalViol t 0 3 0x3000000) ∧
    (s.stepRuns = false → s.get Reg.FLS_CTL_ENABLE = 0 → s.get Reg.FLS_CTL_JOB_SIG < 4096 → Does .flsEnable s fun t => t.get Reg.FLS_CTL_ENABLE = 1 ∧
      t.ring 3 = ⟨s.sig (s.get Reg.FLS_CTL_JOB_SIG), 0, []⟩ ∧ s.KeepsFields t [Reg.FLS_CTL_ENABLE] ∧ t = { s with fields := t.fields, rings := t.rings }) ∧
    (∀ src ws w u, s.FlsHead src 9 ws w u → flsReservedOk ws = true →
      let m := recBits ws 1 2 0
      let pinned := ∃ o ∈ u.objects, o.pin = true ∧ ∃ e ∈ u.pages, o.covers e.1 = true ∧ e.2.onSlot m = true
      let few := u.freeBonded + u.freeCarts - u.freeCart m < (u.pages.filter fun e => e.2.onSlot m).length + 512 * u.get Reg.FLS_POLICY_DRAIN_HEADROOM_GIB
      (5 < m → Does (.drain src) s fun t => u.FlsDone t w 2) ∧
      (∀ r : Nat, m ≤ 5 → (r = 4 ∧ u.slotState m ≠ 3) ∨ (r = 3 ∧ u.slotState m = 3 ∧ ∃ k < 6, u.slotState k = 4) ∨
          (u.slotState m = 3 ∧ (∀ k < 6, u.slotState k ≠ 4) ∧ ((r = 2 ∧ pinned) ∨ (r = 1 ∧ ¬pinned ∧ few))) → Does (.drain src) s fun t =>
        ∃ x : State, x.FlsDone t w 5 ∧ x = { u with fields := x.fields } ∧ x.get Reg.FLS_DRAIN_REASON = r ∧
          ((∃ k < 6, u.slotState k = 4) → x.get Reg.FLS_DRAIN_SLOT = u.get Reg.FLS_DRAIN_SLOT) ∧ ((∀ k < 6, u.slotState k ≠ 4) → x.get Reg.FLS_DRAIN_SLOT = m) ∧ u.KeepsFields x [Reg.FLS_DRAIN_REASON, Reg.FLS_DRAIN_SLOT]) ∧
      (m ≤ 5 → u.slotState m = 3 → (∀ k < 6, u.slotState k ≠ 4) → ¬pinned → ¬few → Does (.drain src) s fun t =>
        t.slotState m = 4 ∧ t.get Reg.FLS_DRAIN_SLOT = m ∧ t.drainCmd = some w ∧ u.KeepsFields t [Reg.FLS_DRAIN_SLOT, Reg.BMCm_STATE_STATE m, Reg.SVC_EVENT_SLOT_STATE] ∧
        t = { u with fields := t.fields, irq := t.irq, slotPower := t.slotPower, drainCmd := t.drainCmd, drainPress := none, moves := t.moves } ∧
        (∀ v ∈ t.moves, v.goesTo m = false) ∧
        ∀ o ∈ u.objects, (∃ e ∈ u.pages, o.covers e.1 = true ∧ e.2.onSlot m = true) → (∀ v ∈ u.moves, v.isOf o.id = true → v.goesTo m = true) →
          ∃ v ∈ t.moves, v.isOf o.id = true ∧ v.kind = .relocation)) ∧
    (∀ src ws w u, s.FlsHead src 10 ws w u → flsReservedOk ws = true →
      let m := recBits ws 1 2 0
      (5 < m → Does (.drainCancel src) s fun t => u.FlsDone t w 2) ∧ (m ≤ 5 → u.slotState m ≠ 4 → Does (.drainCancel src) s fun t => u.FlsDone t w 1) ∧
      (m ≤ 5 → u.slotState m = 4 → (∀ k < 6, k ≠ m → u.slotState k ≠ 4) → u.drainCmd = none →
        (∀ v ∈ u.moves, v.kind = .promotion → v.prefetch ≠ none → v.started = true) → Does (.drainCancel src) s fun t =>
        ∃ x : State, x.FlsDone t w 1 ∧ x.slotState m = 3 ∧ u.KeepsFields x [Reg.BMCm_STATE_STATE m, Reg.SVC_EVENT_SLOT_STATE] ∧
          x = { u with fields := x.fields, irq := x.irq, slotPower := x.slotPower, drainPress := none, moves := u.moves.filter fun v : Move => v.kind != MoveKind.relocation })) ∧
    (∀ e, e = s.get Reg.FLS_POLICY_EPOCH_US →
      (e = 0 ∨ s.nowUs < (s.epochAt / e + 1) * e → Does .epochEnd s fun t => t = s) ∧
      (e ≠ 0 → (s.epochAt / e + 1) * e ≤ s.nowUs → Does .epochEnd s fun t => t = { s with heat := t.heat, epochAt := (s.epochAt / e + 1) * e, moves := t.moves } ∧
        (∀ p n, (p, n) ∈ t.heat ↔ n ≠ 0 ∧ ∃ h, (p, h) ∈ s.heat ∧ n = h / 2) ∧ (s.get Reg.FLS_POLICY_AUTO = 0 → s.Calm → t.moves = s.moves))) ∧
    ((s.moves.filter (·.started)).length < 8 →
      (∀ m d, (s.startOrder.find? fun v => s.mayStart v && (s.planDest v).isSome) = some m → s.planDest m = some d →
        let x : State := { s with moves := s.moves.map fun x : Move => if x = m then { m with started := true, dest := d } else x }
        x.Calm → Does .moveStart s fun t => t = x ∧ d.map (·.1) = s.movePages m ∧
        (m.kind = .promotion → ∀ e ∈ d, e.2.isBonded = true) ∧ (m.kind = .demotion → ∀ e ∈ d, e.2.isBonded = false)) ∧
      ((∀ m ∈ s.moves, s.mayStart m = true → s.planDest m = none) → Does .moveStart s fun t => t = s)) ∧
    (∀ (k : Fin 8) (m : Move), (s.moves.filter (·.started))[k.val]? = some m → m.waiters = [] → m.pins = [] → m.evict = false → (m.dest.map (·.1)).Nodup → s.Calm →
      Does (.moveSwitch k) s fun t => t = { s with moves := s.moves.erase m, pages := t.pages, lostPages := t.lostPages, fields := t.fields } ∧
        s.KeepsFields t [Reg.FLS_MOVED_COUNT, Reg.FLS_ELIDED_COUNT] ∧ (∀ p, p ∉ m.dest.map (·.1) → t.frameOf p = s.frameOf p) ∧
        ∀ p f, (p, f) ∈ m.dest → t.frameOf p = if s.liveGranules p = 0 then none else some f) ∧
    (∀ (k : Fin 8) (m : Move) (w : Waiter), (s.moves.filter (·.started))[k.val]? = some m → m.waiters = [w] → m.pins = [] → m.evict = false → w.sig < 4096 → s.Calm →
      let dl := if s.nowUs < w.deadline then Reg.FLS_DL_MET else Reg.FLS_DL_MISS
      Does (.moveSwitch k) s fun t => ∃ x : State, x.FlsDone t w (if s.nowUs < w.deadline then 1 else 4) ∧ x.moves = s.moves.erase m ∧
        x.get dl = (s.get dl + 1) % 2 ^ dl.w ∧ s.KeepsFields x [Reg.FLS_MOVED_COUNT, Reg.FLS_ELIDED_COUNT, dl]) ∧
    (∀ obj : BitVec 16, ((∀ m ∈ s.moves, m.isOf obj.toNat = true → ∀ w ∈ m.waiters, s.nowUs < w.deadline) → Does (.prefetchLate obj) s fun t => t = s) ∧
      (∀ l m r w, s.moves = l ++ m :: r → m.isOf obj.toNat = true → (∀ v ∈ l ++ r, v.isOf obj.toNat = false) → m.waiters = [w] → w.deadline ≤ s.nowUs → w.sig < 4096 →
        Does (.prefetchLate obj) s fun t => ∃ x : State, x.FlsDone t w 4 ∧ x = { s with moves := l ++ { m with waiters := [] } :: r, fields := x.fields } ∧
          x.get Reg.FLS_DL_MISS = (s.get Reg.FLS_DL_MISS + 1) % 2 ^ Reg.FLS_DL_MISS.w ∧ s.KeepsFields x [Reg.FLS_DL_MISS]) ∧
      (∀ o, s.objById obj.toNat = some o →
        (o.wanted = none ∨ s.isWanted o = true → Does (.wantedExpire obj) s fun t => t = s) ∧
        (o.wanted ≠ none → s.isWanted o = false → s.Calm → Does (.wantedExpire obj) s fun t =>
          t = { s with objects := s.objects.map fun x : Obj => if x.id = o.id then { x with wanted := none } else x }))) ∧
    (s.heldWrites = [] → s.heldEnds = [] → let waits := ∃ x ∈ s.frameWaits, s.frameWaiting x = true
      (¬waits → Does .waitingWriteResume s fun t =>
        t.get Reg.FLS_STATUS_FULL = 0 ∧ s.KeepsFields t [Reg.FLS_STATUS_FULL] ∧ t = { s with fields := t.fields }) ∧
      (waits → Does .waitingWriteResume s fun t => t = s)) ∧
    (∀ h, s.heldWrites = [h] → h.poison = false → h.bytes ≠ [] → s.Writable h.addr →
      (s.heldEnds = [] → Does .waitingWriteResume s fun t =>
        t.heldWrites = [] ∧ s.Stores t h.addr h.bytes ∧ t.pages = s.pages ∧ t.chambers = s.chambers) ∧
      (∀ sig < 4096, s.heldEnds = [⟨[h.id], .post sig⟩] → Does .waitingWriteResume s fun t =>
        t.heldWrites = [] ∧ t.heldEnds = [] ∧ s.Stores t h.addr h.bytes ∧ t.sig sig = (s.sig sig + 1) % 2 ^ 64)) ∧
    (∀ m < 6, s.slotState m = 4 → (∀ k < 6, k ≠ m → s.slotState k ≠ 4) → (∀ e ∈ s.pages, e.2.onSlot m = false) → Does .drainComplete s fun t =>
      ∃ x v : State, x.slotState m = 5 ∧ x.get (Reg.BMCm_STATE_CHANNELS m) = 0 ∧
        s.KeepsFields x [Reg.BMCm_STATE_STATE m, Reg.BMCm_STATE_CHANNELS m, Reg.SVC_EVENT_SLOT_STATE] ∧
        x = { s with fields := x.fields, irq := x.irq, slotPower := x.slotPower, drainCmd := none, drainPress := none } ∧
        (s.drainCmd = none → v = x) ∧ (∀ w, s.drainCmd = some w → w.sig < 4096 → x.FlsDone v w 1) ∧ t = { v with moves := t.moves }) ∧
    ∀ m : Fin 6, (s.slotState m = 3 ∨ s.slotState m = 4) → s.drainCmd = none → (∀ v ∈ s.moves, v.started = false) → Does (.cartridgeFailure m) s fun t =>
      t.slotState m = 6 ∧ t.objects = s.objects ∧ t.chambers = s.chambers ∧ (∀ k < 6, k ≠ m.val → t.slotState k = s.slotState k) ∧
      ∀ p, let gone := ∃ f, (p, f) ∈ s.pages ∧ f.onSlot m = true
        (gone → t.frameOf p = none ∧ t.populatedPage p = true ∧ ∀ i < 2 ^ 21, t.poisoned (granuleOf (p * 2 ^ 21 + i)) = true) ∧
        (¬gone → t.frameOf p = s.frameOf p ∧ ∀ i < 2 ^ 21, memByte t.mem (p * 2 ^ 21 + i) = memByte s.mem (p * 2 ^ 21 + i) ∧
          t.poisoned (granuleOf (p * 2 ^ 21 + i)) = s.poisoned (granuleOf (p * 2 ^ 21 + i)))

/-- The course of a step (R268, R274, R280, R293, R294, R296, R480): accepting one and what a refused plan leaves; admission; commit, alone, fenced,
or with the mark of a twin; a recorded failure, a stall, an abort, and the limit of programs that run on. -/
def Obligations.TraverseSteps : Prop :=
  (∀ s : State, s.InRun → (s.stepQueue = [] ∨ s.acceptsStep = false → Does .stepAccept s fun t => t = s) ∧
    ∀ q qs x p bad v, s.stepQueue = q :: qs → s.acceptsStep = true →
      x = ({ s with stepQueue := qs } : State).puts [(Reg.TRV_STATE_STAMP, q.stamp), (Reg.TRV_PLAN_ADDR, q.plan), (Reg.TRV_STATE_STATE, 1)] →
      x.readPlan q.plan = (p, bad, v) →
      (p.refusal bad ≠ 0 → Does .stepAccept s fun t => v.StepFails t q ⟨2, p.refusal bad, 0, none⟩) ∧
      (p.refusal bad = 0 → Does .stepAccept s fun t => t.get Reg.TRV_STATE_STATE = 2 ∧ t.get Reg.TRV_STATE_STAGE = p.stage % 16 ∧
        (∃ r : Step, t.trv = some r ∧ r.req = q ∧ r.plan = p ∧ r.begun = [] ∧ r.running = [] ∧ r.done = [] ∧ r.admitted = 0 ∧ r.fail = none ∧ r.idleAt = some v.cycle) ∧
        v.Submits t (v.prefetchWords p (p.phaseItems 1) ++ v.prefetchWords p (p.phaseItems 4)) ∧
        v.KeepsFields t [Reg.TRV_STATE_STATE, Reg.TRV_STATE_STAGE, Reg.TRV_PROGRESS_INST, Reg.TRV_PROGRESS_B_DONE, Reg.TRV_PROGRESS_F_DONE] ∧
        t = { v with fields := t.fields, trv := t.trv, flsQueue := t.flsQueue, tokens := t.tokens })) ∧
  ∀ (s : State) (r : Step), s.StepRuns r →
    (r.admitted < r.plan.nmb → r.plan.phaseItems 2 ≠ [] → r.admitted < r.bDone + r.plan.window → Does .microbatchAdmit s fun t =>
      t = { s with trv := some { r with admitted := r.admitted + 1 }, flsQueue := t.flsQueue, tokens := t.tokens } ∧
      s.Submits t (s.prefetchWords r.plan (r.plan.phaseItems 2))) ∧
    (r.plan.nmb ≤ r.admitted ∨ r.bDone + r.plan.window ≤ r.admitted → Does .microbatchAdmit s fun t => t = s) ∧
    (r.running ≠ [] → Does .stepComplete s fun t => t = s) ∧
    (r.running = [] → r.allDone r.plan.ranked = true → s.sendsLeft r = true → r.plan.rings = [] →
      (s.get Reg.GLB_ROLE_TWIN = 1 → (s.get Reg.TWN_STATE_STATE = 2 ∨ s.get Reg.TWN_STATE_STATE = 5) → Does .stepComplete s fun t =>
        t.get Reg.TRV_STATE_STATE = 4 ∧ s.KeepsFields t [Reg.TRV_STATE_STATE] ∧ t.trv = some { r with mark := some s.mirrorQ.length } ∧
        t.twinSent = (if s.mirrorQ = [] then s.twinSent ++ [.mark r.req.stamp] else s.twinSent) ∧
        t = { s with fields := t.fields, trv := t.trv, twinSent := t.twinSent }) ∧
      (s.get Reg.TWN_STATE_STATE = 7 → Does .stepComplete s fun t =>
        s.StepDies t r ⟨4, 4, 0, none⟩) ∧
      (s.get Reg.GLB_ROLE_TWIN = 0 → s.get Reg.TWN_STATE_STATE ≠ 7 → recBits r.plan.header 11 7 0 = 0xFF → recBits r.plan.header 11 15 8 = 0xFF → Does .stepComplete s fun t =>
        ∃ u v : State, u = { s with fields := u.fields } ∧ s.KeepsFields u [Reg.TRV_STATE_STATE] ∧ u.Releases v r.plan ∧
        t.trv = none ∧ t.get Reg.TRV_STATE_STATE = 0 ∧ t.get Reg.TRV_LAST_STAMP = r.req.stamp % 2 ^ 32 ∧ t.get Reg.TRV_LAST_CAUSE = 0 ∧
        t.get Reg.TRV_LAST_STATUS = 1 ∧ t.get Reg.TRV_STEPS_COMMITTED = (v.get Reg.TRV_STEPS_COMMITTED + 1) % 2 ^ 32 ∧
        t.get Reg.TRV_STEPS_ENDED = v.get Reg.TRV_STEPS_ENDED ∧ (∀ k < 10, t.get (Reg.ARB_ACTIVE_SET_k k) = v.get (Reg.ARB_NEXT_SET_k k) % 4) ∧
        (∀ n, n = recBits r.plan.header 12 11 0 → t.sig n = (v.sig n + 1) % 2 ^ 64) ∧
        t.openRecs = v.openRecs.filter (fun x => !(x.gen == r.req.gen && x.k == r.req.k)) ∧
        t.mem = v.mem ∧ t.chambers = v.chambers)) ∧
    (Does .stepFail s fun t => t = s) ∧
    (s.get Reg.TRV_CTL_STALL_MS = 0 ∨ r.idleAt = none → Does .stallTimeout s fun t => t = s) ∧
    (∀ c, r.idleAt = some c → s.get Reg.TRV_CTL_STALL_MS ≠ 0 → r.running = [] →
      (s.cycle - c < 1700000 * s.get Reg.TRV_CTL_STALL_MS → Does .stallTimeout s fun t => t = s) ∧
      (1700000 * s.get Reg.TRV_CTL_STALL_MS ≤ s.cycle - c → Does .stallTimeout s fun t => s.StepDies t r ⟨6, 0, 0, none⟩)) ∧
    (r.running = [] → Does .trvAbort s fun t => s.StepDies t r ⟨7, 0, 0, none⟩) ∧
    (∀ x, x = s.put Reg.TRV_STATE_STATE 4 → r.running = [] → Does .trvAbort x fun t => x.StepDies t r ⟨7, 0, 0, none⟩) ∧
    (∀ e x, x = s.put Reg.TRV_STATE_STATE 4 ∨ x = s → r.running = [e] → e.chamber = none → Does .trvAbort x fun t =>
      t.get Reg.TRV_STATE_STATE = 3 ∧ t.trv = some { r with fail := some ⟨7, 0, 0, none⟩, failAt := s.cycle } ∧
      s.KeepsFields t [Reg.TRV_STATE_STATE] ∧ t = { x with fields := t.fields, trv := t.trv }) ∧
    (∀ f x, x = ({ s with trv := some { r with fail := some f } } : State) →
      (r.running = [] → Does .stepFail x fun t => x.StepDies t r f) ∧
      (r.running ≠ [] → Does .stepFail x fun t => t.get Reg.TRV_STATE_STATE = 3 ∧ t.trv = some { r with fail := some f, failAt := s.cycle } ∧
        s.KeepsFields t [Reg.TRV_STATE_STATE] ∧ t = { x with fields := t.fields, trv := t.trv })) ∧
    (∀ f x ms, ms = (if s.get Reg.TRV_CTL_STALL_MS = 0 then 100 else s.get Reg.TRV_CTL_STALL_MS) →
      x = ({ s with trv := some { r with fail := some f } } : State).put Reg.TRV_STATE_STATE 3 →
      (s.cycle - r.failAt < 1700000 * ms ∨ r.stopped = true → Does .runonExpire x fun t => t = x) ∧
      (1700000 * ms ≤ s.cycle - r.failAt → r.stopped = false → (∀ e ∈ r.running, e.chamber = none) → Does .runonExpire x fun t => x.StepDies t r f) ∧
      (∀ e n, 1700000 * ms ≤ s.cycle - r.failAt → r.stopped = false → r.running = [e] → e.chamber = some n → n < 28 → x.chState n ≠ 0 → x.get Reg.SEC_BOOT_RECOVERY = 0 →
        Does .runonExpire x fun t => t.trv = some { r with fail := some f, stopped := true } ∧ ∃ u, t = { u with trv := t.trv } ∧
          Does (.chamberStop (Fin.ofNat 28 n) false) x fun v => v = u))

/-- The instances of a running step (R277 to R279, R283, R285 to R290, R294). The first waiting instance in rank order that is ready and has where
to run starts: on the helictites as a job of the internal queue, on the widest idle chamber with PC and s1 to s8 set, which TRV_SWITCH counts
where a chamber instance of higher rank was not ready. A running instance that has ended completes, or fails the step with its code; a ring
block, a queue slot or a gather whose signals allow is submitted to the collective units; a gather that has landed is present if every part
bears the step's stamp, and fails the step if not. -/
def Obligations.TraverseInstances : Prop :=
  ∀ (s : State) (r : Step), s.StepRuns r →
    let hel := fun x : Inst => onHelictites (r.plan.item x.item)
    let next := r.waitingInsts.find? fun x => s.ready r x && (hel x || (s.bestChamber r).isSome)
    let prog := fun x : Inst => r.plan.progs.getD (recBits (r.plan.item x.item) 0 39 32) []
    (next = none → exec .instanceDispatch s = .next s) ∧
    (∀ x, next = some x → phaseOf (r.plan.item x.item) ≠ 3 →
      (hel x = true → exec .instanceDispatch s = .next { s with
        tokens := s.tokens + 1, hlcQueue := s.hlcQueue ++ [⟨s.tokens + 1, r.hlcWords x, s.hlcPosted⟩]
        trv := some { r with begun := r.begun ++ [x], running := r.running ++ [⟨x, none, s.tokens + 1⟩], idleAt := none } }) ∧
      (∀ l n, hel x = false → s.bestChamber r = some (l, n) → s.chState n = 1 ∨ s.chState n = 4 →
        (s.ch n).prog = some (recBits (prog x) 0 47 0, recBits (prog x) 1 11 0 + 1) →
        (s.ch n).rset = some (r.plan.base + (tableAt r.plan.header 6).1 + 4096 * recBits (r.plan.item x.item) 0 43 40) →
        Does .instanceDispatch s fun t =>
          t.chState n = 2 ∧ t.chPc n = recBits (prog x) 1 27 16 ∧ (t.ch n).item = x.item ∧ (∀ m, m ≠ n → t.ch m = s.ch m) ∧ t.mem = s.mem ∧
          (∀ a : BitVec 5, 1 ≤ a.toNat → a.toNat ≤ 8 → (t.ch n).sreg a = (s.instArgs r x l n).getD (a.toNat - 1) 0) ∧
          t.trv = some { r with begun := r.begun ++ [x], running := r.running ++ [⟨x, some n, 0⟩], idleAt := none } ∧
          t.get Reg.TRV_SWITCH_COUNT =
            if (r.waitingInsts.takeWhile (· != x)).any (fun y => !hel y && !s.ready r y) then (s.get Reg.TRV_SWITCH_COUNT + 1) % 2 ^ 64
            else s.get Reg.TRV_SWITCH_COUNT)) ∧
    (∀ (k : BitVec 16) e, r.running[k.toNat]? = some e →
      let left := r.running.eraseIdx k.toNat
      let ended := { r with running := left, idleAt := if left = [] then some s.cycle else r.idleAt }
      let fails := fun f => exec (.instanceComplete k) s = .next { s with trv := some { ended with fail := some f } }
      let w := r.plan.item e.inst.item
      (e.chamber = none → mapFind s.hlcDone e.token = none → exec (.instanceComplete k) s = .next s) ∧
      (∀ st, e.chamber = none → mapFind s.hlcDone e.token = some st → st ≠ 1 → fails ⟨4, 3, st, some e.inst⟩) ∧
      (∀ n, e.chamber = some n → s.chState n = 4 → (s.ch n).halt = none →
        (s.get (Reg.CHn_HALT_CAUSE n) ≠ 1 → fails ⟨4, 1, s.get (Reg.CHn_HALT_CAUSE n), some e.inst⟩) ∧
        (s.get (Reg.CHn_HALT_CAUSE n) = 1 → ((s.ch n).sreg 9).toNat ≠ 0 → fails ⟨4, 2, ((s.ch n).sreg 9).toNat % 2 ^ 16, some e.inst⟩)) ∧
      ((e.chamber = none ∧ mapFind s.hlcDone e.token = some 1) ∨
          (∃ n, e.chamber = some n ∧ s.chState n = 4 ∧ (s.ch n).halt = none ∧ s.get (Reg.CHn_HALT_CAUSE n) = 1 ∧ ((s.ch n).sreg 9).toNat = 0) →
        recBits w 1 44 44 = 0 → recvqOf w = none → gathOf w = none → r.plan.rings = [] → Does (.instanceComplete k) s fun t =>
          t = { s with fields := t.fields, trv := some { ended with done := r.done ++ [e.inst] } } ∧
          t.get Reg.TRV_PROGRESS_INST = (r.done.length + 1) % 2 ^ 32 ∧
          s.KeepsFields t [Reg.TRV_PROGRESS_INST, Reg.TRV_PROGRESS_B_DONE, Reg.TRV_PROGRESS_F_DONE])) ∧
    (∀ q : Fin 8,
      let w := r.plan.queues.getD q.val []
      let mb := sentCount r.qSent q.val
      let n := r.plan.nslots q.val
      let off := mb % n * recBits w 1 47 0
      let go := mb < r.plan.nmb ∧ recBits w 0 0 0 = 0 ∧ r.slotWritten q.val mb = true ∧ s.sigReaches (recBits w 4 27 16) (r.queueK mb + 1 - n) = true
      (¬go → exec (.queueSlotSend q) s = .next s) ∧
      (go → exec (.queueSlotSend q) s = .next { s with
        tokens := s.tokens + 1, trv := some { r with qSent := r.qSent ++ [(q.val, mb, s.tokens + 1)] }
        cuQueue := s.cuQueue ++ [⟨s.tokens + 1, putWords (recBits w 0 19 18) (recBits w 0 17 16) (recBits w 0 35 32) (recBits w 0 15 8)
          (recBits w 2 47 0 + off) (recBits w 3 47 0 + off) (recBits w 1 47 0) (recBits w 5 15 0) (recBits w 4 11 0), 0⟩] })) ∧
    (∀ (g : Fin 4) (u : Nat × Nat × Bool),
      let w := r.plan.rings.getD g.val []
      let k := sentCount r.ringSent g.val
      let h := k % (r.plan.ringG g.val - 1)
      let blk := recBits w 1 47 0
      let rbuf := recBits w 4 47 0
      2 ≤ r.plan.ringG g.val → (r.plan.ringUses g.val)[k / (r.plan.ringG g.val - 1)]? = some u →
      s.sigReaches (recBits w 5 27 16) (r.ringK g.val k - 1) = true → s.blockThere r g.val u h = true → Does (.ringBlockSend g) s fun t =>
        t.tokens = s.tokens + 1 ∧ t.mem = s.mem ∧ t.chambers = s.chambers ∧
        (∃ y : Step, t.trv = some y ∧ y = { r with ringSent := r.ringSent ++ [(g.val, k, s.tokens + 1)], ringFreed := y.ringFreed }) ∧
        t.cuQueue = s.cuQueue ++ [⟨s.tokens + 1, putWords 0 (recBits w 0 33 32) 1 (recBits w 0 23 16)
          (if h = 0 then recBits w 2 47 0 + u.1 * recBits w 3 47 0 else rbuf + (r.ringK g.val (k - 1) % 2).toNat * blk)
          (rbuf + (r.ringK g.val k % 2).toNat * blk) blk 0 (recBits w 5 11 0), 0⟩]) ∧
    (∀ e : BitVec 8,
      let i := e.toNat
      let w := r.plan.gathers.getD i []
      let go := i < r.plan.gathers.length ∧ s.sigAtLeast (recBits r.plan.header 11 43 32) (r.delta + 1) = true ∧ s.gatherDue r i = true
      (¬go → exec (.gatherIssue e) s = .next s) ∧
      (go → cdiv (recBits w 1 47 0) pageBytes + recBits r.plan.header 0 55 48 * 512 ≤ s.freeBonded → Does (.gatherIssue e) s fun t =>
        t = { s with fields := t.fields, tokens := s.tokens + 2
                     flsQueue := s.flsQueue ++ [⟨s.tokens + 1, [5 + recBits w 0 63 48 % 2 ^ 16 * 2 ^ 16, 0, 0, (s.nowUs + recBits w 3 31 0) % 2 ^ 48, 0, 0, 0, 0], 0⟩]
                     cuQueue := s.cuQueue ++ [⟨s.tokens + 2,
                       [3 + 3 * 2 ^ 6 + 1 * 2 ^ 8 + 1 * 2 ^ 12 + recBits w 2 7 0 * 2 ^ 24 + recBits w 2 12 8 * 2 ^ 32 + recBits w 2 20 16 * 2 ^ 40,
                        if r.req.stamp % 2 = 0 then recBits w 5 47 0 else recBits w 6 47 0, recBits w 0 47 0, recBits w 1 47 0, 0, 0, 0, 0], 0⟩]
                     trv := some { r with gath := mapInsert r.gath i ⟨s.tokens + 2, true, false, false, 0⟩ } } ∧
        t.get Reg.TRV_GATHER_ISSUED = (s.get Reg.TRV_GATHER_ISSUED + 1) % 2 ^ 21 ∧
        t.get Reg.TRV_GATHER_REGATHER = (s.get Reg.TRV_GATHER_REGATHER + if mapFind r.gath i = none then 0 else 1) % 2 ^ 21 ∧
        s.KeepsFields t [Reg.TRV_GATHER_ISSUED, Reg.TRV_GATHER_REGATHER]) ∧
      (∀ g l bad u, mapFind r.gath i = some g → g.flying = true → mapFind s.cuDone g.token = some 1 ∨ mapFind s.cuDone g.token = some 3 →
        s.partStamps (recBits w 0 47 0) (recBits w 1 47 0 / recBits w 2 12 8) (recBits w 2 12 8) = (l, bad, u) →
        (bad = false → (∀ x ∈ l, x = r.req.stamp) → exec (.gatherLanded e) s = .next
          { u with trv := some { r with gath := mapInsert r.gath i { g with flying := false, present := true } } }) ∧
        (bad = true ∨ (∃ x ∈ l, x ≠ r.req.stamp) → exec (.gatherLanded e) s = .next
          { u with trv := some { r with gath := mapInsert r.gath i { g with flying := false }, fail := some ⟨5, 0, 0, none⟩ } })))

/-- The keeper service in Run, on a keeper that is no twin (R305, R314 to R318, R320): START reads the table, and a good one enters COPY (FRESH) or
RUN, a bad one FAILED, and in RUN is counted with KIND 3, the register being locked then (log entry 78); STOP ends the service, or waits for an
update that runs; on a worker both are counted. A worker's gradient, its version
hold, the end of its update and of its send each take the table's worker one stage on, and a failed one puts the service in FAILED; a publication
advances VERSION and the table. -/
def Obligations.KeeperService : Prop :=
  ∀ s : State, s.InRun →
    (s.get Reg.GLB_ROLE_KEEPER = 0 → (∀ fresh table, Does (.keeperStart fresh table) s fun t => s.CountsGlobalViol t 0 0 0x400) ∧
      Does .keeperStop s fun t => s.CountsGlobalViol t 0 0 0x400) ∧
    (s.get Reg.GLB_ROLE_KEEPER = 1 → s.get Reg.GLB_ROLE_TWIN = 0 →
      (∀ fresh (table : BitVec 48) k bad u, s.get Reg.GLB_KPR_STATE_STATE = 0 ∨ s.get Reg.GLB_KPR_STATE_STATE = 3 →
        (s.puts [(Reg.GLB_KPR_CTL_FRESH, b2n fresh), (Reg.GLB_KPR_CTL_TABLE, table.toNat)]).readKeeper (table.toNat / 64 * 64) 0 .copy = (k, bad, u) →
        (bad = true ∨ k.ok = false → Does (.keeperStart fresh table) s fun t =>
          t.get Reg.GLB_KPR_STATE_STATE = 3 ∧ t.get Reg.GLB_KPR_LAST_CAUSE = 1 ∧ t.get Reg.GLB_KPR_LAST_TABLE = 0 ∧
          u.KeepsFields t [Reg.GLB_KPR_STATE_STATE, Reg.GLB_KPR_LAST_CAUSE, Reg.GLB_KPR_LAST_TABLE] ∧
          t = { u with fields := t.fields, kprStamp0 := if bad then u.kprStamp0 else k.stamp0 }) ∧
        (bad = false → k.ok = true → fresh = true → Does (.keeperStart fresh table) s fun t =>
          t.get Reg.GLB_KPR_STATE_STATE = 1 ∧ u.KeepsFields t [Reg.GLB_KPR_STATE_STATE] ∧
          t = { u with fields := t.fields, kprStamp0 := k.stamp0, kpr := some { k with version := k.stamp0 } }) ∧
        (bad = false → k.ok = true → fresh = false → Does (.keeperStart fresh table) s fun t =>
          t.get Reg.GLB_KPR_STATE_STATE = 2 ∧ t.get Reg.GLB_KPR_STATE_VERSION = k.stamp0 % 2 ^ 32 ∧ t.mem = u.mem ∧ t.chambers = u.chambers ∧
          t.kpr = some { k with version := k.stamp0, mode := .run })) ∧
      (s.get Reg.GLB_KPR_STATE_STATE = 2 → (∀ fresh table, Does (.keeperStart fresh table) s fun t => s.CountsGlobalViol t 0 3 0x400)) ∧
      (s.get Reg.GLB_KPR_STATE_STATE = 2 → s.kprJobRuns = false → Does .keeperStop s fun t =>
        t.get Reg.GLB_KPR_STATE_STATE = 0 ∧ s.KeepsFields t [Reg.GLB_KPR_STATE_STATE] ∧ t = { s with fields := t.fields, kpr := none, kprPeer := none }) ∧
      (s.get Reg.GLB_KPR_STATE_STATE = 2 → s.kprJobRuns = true → exec .keeperStop s = .next { s with
        kpr := s.kpr.map fun k => { k with stopping := true }, kprPeer := s.kprPeer.map fun k => { k with stopping := true } }) ∧
      (∀ peer (i : Fin 8) k w, s.kprOf peer = some k → k.workers[i.val]? = some w → k.stopping = false → s.get Reg.TWN_STATE_STATE = 0 →
        let goes := fun (x : KprWorker) => some { k with workers := k.workers.set i.val x }
        let fails := fun cause => Does (.keeperUpdate peer i) s fun t =>
          t.get Reg.GLB_KPR_STATE_STATE = 3 ∧ t.get Reg.GLB_KPR_LAST_STAMP = k.version % 2 ^ 32 ∧ t.get Reg.GLB_KPR_LAST_CAUSE = cause ∧
          t.get Reg.GLB_KPR_LAST_TABLE = b2n peer ∧ t.get Reg.GLB_KPR_LAST_WORKER = i.val ∧ t.kpr = none ∧ t.kprPeer = none ∧ t.mem = s.mem ∧
          t.get Reg.ERR_STATUS_WRITTEN = (s.get Reg.ERR_STATUS_WRITTEN + 1) % 2 ^ 32
        let arrived := s.sigAtLeast (recBits k.header 2 11 0 + i.val) (k.delta + 1)
        let allowed := s.sigAtLeast (recBits k.header 2 27 16) (k.nw * k.delta)
        (w.stage = 0 → k.mode = .run → arrived = false → exec (.keeperUpdate peer i) s = .next s) ∧
        (w.stage = 0 → k.mode = .run → arrived = true → Does (.keeperUpdate peer i) s fun t =>
          t.kprOf peer = goes ⟨1, 0, none⟩ ∧ t.kprOf (!peer) = s.kprOf (!peer) ∧
          t = { s with kpr := t.kpr, kprPeer := t.kprPeer, tokens := t.tokens, flsQueue := t.flsQueue } ∧
          s.Submits t (if recBits (k.entry i.val) 0 32 32 = 1 then
            [[5 + recBits (k.entry i.val) 0 31 16 % 2 ^ 16 * 2 ^ 16, 0, 0, (s.nowUs + recBits k.header 3 31 0) % 2 ^ 48, 0, 0, 0, 0]] else [])) ∧
        (w.stage = 1 → allowed = false → exec (.keeperUpdate peer i) s = .next s) ∧
        (w.stage = 1 → allowed = true → recBits k.header 0 12 12 = 0 → ∀ ws u, s.kprHlcWords k i.val = (ws, u) →
          exec (.keeperUpdate peer i) s = .next (({ u with tokens := u.tokens + 1, hlcQueue := u.hlcQueue ++ [⟨u.tokens + 1, ws, u.hlcPosted⟩] } : State).setKpr peer
            (goes ⟨2, u.tokens + 1, none⟩))) ∧
        (w.stage = 2 → w.chamber = none → (mapFind s.hlcDone w.token = none → exec (.keeperUpdate peer i) s = .next s) ∧
          (∀ st, mapFind s.hlcDone w.token = some st → st ≠ 1 → fails 2) ∧
          (mapFind s.hlcDone w.token = some 1 → k.mode = .weight → exec (.keeperUpdate peer i) s = .next (s.setKpr peer (goes ⟨4, 0, none⟩))) ∧
          (mapFind s.hlcDone w.token = some 1 → k.mode ≠ .weight → Does (.keeperUpdate peer i) s fun t =>
            let e := k.entry i.val
            let src := recBits e 2 47 0 + k.sends % 2 * recBits e 3 47 0
            t.kprOf peer = goes ⟨3, s.tokens + 1, none⟩ ∧ t.mem = (s.write 3 src (leBytes 4 k.sends ++ zeroBytes 252)).2.mem ∧
            t.cuQueue = s.cuQueue ++ [⟨s.tokens + 1, [1 + recBits k.header 2 49 48 * 2 ^ 6 + 1 * 2 ^ 8 + 1 * 2 ^ 12 + recBits e 0 7 0 * 2 ^ 16, src,
              if k.sends % 2 = 0 then recBits e 4 47 0 else recBits e 5 47 0, recBits e 3 47 0, 0, 0, 0, 0], 0⟩])) ∧
        (w.stage = 3 → (∀ st, mapFind s.cuDone w.token = some st → st ≠ 1 → fails 3) ∧
          (mapFind s.cuDone w.token = some 1 → exec (.keeperUpdate peer i) s = .next (s.setKpr peer (goes ⟨4, 0, none⟩))))) ∧
      (∀ peer k, s.kprOf peer = some k → k.stopping = false → k.mark = none →
        ((∃ w ∈ k.workers, w.stage ≠ 4) → exec (.keeperPublish peer) s = .next s) ∧
        ((∀ w ∈ k.workers, w.stage = 4) →
          (k.mode = .weight → exec (.keeperPublish peer) s = .next (s.setKpr peer (some { k with
            mode := .run, workers := k.workers.map fun _ => ⟨0, 0, none⟩ }))) ∧
          (k.mode ≠ .weight → Does (.keeperPublish peer) s fun t =>
            t.kprOf peer = some { k with version := k.sends, mode := .run, workers := (k.workers.map fun _ => ⟨0, 0, none⟩), mark := none } ∧
            t.mem = s.mem ∧ t.chambers = s.chambers ∧
            (peer = false → t.get Reg.GLB_KPR_STATE_VERSION = k.sends % 2 ^ 32 ∧ (k.mode = .copy → t.get Reg.GLB_KPR_STATE_STATE = 2)) ∧
            (peer = true → t.get Reg.GLB_KPR_STATE_VERSION = s.get Reg.GLB_KPR_STATE_VERSION) ∧
            (∀ v, v = recBits k.header 2 43 32 → k.entries ≠ [] → (∀ w ∈ k.entries, recBits w 0 7 0 = 0xFF) →
              t.sig v = (s.sig v + k.entries.length) % 2 ^ 64)))))

/-- What comes in on a Halgar port, and the port's own states, in Run (R53, R322 to R339, R343). A packet out of order or with a failed check asks
for a replay and does nothing else. A good one for this device takes its effect: a WRITE stores where an export window permits it and is counted
where none does, a READ_REQ is answered by its route, a READ_RESP stores at its transfer's destination, a POST changes a signal word, a DONE ends
its transfer; one for another node goes on with one hop fewer, or is lost at its last. A control flit acknowledges, returns credits and asks for
replays, which make a port retrain that has too many of them; training, retraining, a retry and a reset change the port's state. -/
def Obligations.HalgarPorts : Prop :=
  ∀ (s : State) (n : Fin 8), s.InRun →
    (∀ k : InPacket, ∀ c ∈ [(Instr.linkWrite n k, PKind.write), (.linkReadReq n k, .readReq), (.linkPost n k, .post), (.packetForward n .write k, .write),
        (.linkReadResp n k, .readResp), (.linkDone n k, .done)], (c.2 = .readResp ∨ c.2 = .done → s.txWait = []) →
      (s.portUp n = false → exec c.1 s = .next s) ∧
      (s.portUp n = true → packetIntact c.2 k = false ∨ k.lseq.toNat ≠ (s.port n).rxLseq → Does c.1 s fun t =>
        t.port n = { s.port n with nak := true } ∧ (∀ m, m ≠ n.val → t.port m = s.port m) ∧ t = { s with fields := t.fields, ports := t.ports } ∧
        t.get (Reg.HGPn_ERR_CORR n) = (s.get (Reg.HGPn_ERR_CORR n) + k.corr.toNat) % 2 ^ 32 ∧
        t.get (Reg.HGPn_ERR_UNCORR n) = (s.get (Reg.HGPn_ERR_UNCORR n) + k.uncorr.toNat) % 2 ^ 16 ∧
        s.KeepsFields t [Reg.HGPn_ERR_CORR n, Reg.HGPn_ERR_UNCORR n])) ∧
    (∀ k : InPacket, s.heldWrites = [] → s.isLocalNode k.dst.toNat = true →
      let a := k.addr.toNat
      let away := s.isLocalNode k.src.toNat = false
      let one := k.ngran.val = 1 ∧ k.poison = 0
      let route := fun kind => s.pickPort kind k.vl.val (s.routePorts k.src.toNat k.vl.val)
      let refused := fun t : State => t.get Reg.GLB_VIOL_COUNT_COUNT = min (s.get Reg.GLB_VIOL_COUNT_COUNT + 1) (2 ^ 32 - 1) ∧
        (¬s.Outranked 0 Reg.GLB_VIOL_LAST_VALID Reg.GLB_VIOL_LAST_KIND 6 → t.get Reg.GLB_VIOL_LAST_KIND = 6 ∧ t.get Reg.GLB_VIOL_LAST_ADDR = a)
      let resp := fun b : List Byte => { Packet.blank .readResp with
        vl := k.vl.val, src := k.dst.toNat, dst := k.src.toNat, addr := a, xfer := k.xfer.toNat, pkt := k.pkt.toNat, npkt := k.npkt.toNat
        opid := k.opid.toNat, ngran := 1, data := [b] }
      (s.Hears n .post k → Does (.linkPost n k) s fun t => s.Took t n ∧ t.mem = s.mem ∧ t.chambers = s.chambers ∧ (∀ m, m ≠ n.val → t.port m = s.port m) ∧
        (t.port n).owed = mod4 (s.port n).owed k.vl.val (· + 1) ∧
        t.sig k.psig.toNat = if k.set then k.value.toNat else (s.sig k.psig.toNat + k.value.toNat) % 2 ^ 64) ∧
      (s.Hears n .write k → away → one → k.opid = 0 → k.recipe = 0 → k.npkt = 1 →
        (∀ bs, k.data = [bs] → bs.length = 256 → s.exported true a = true → s.get Reg.GLB_ROLE_TWIN = 0 → a % 256 = 0 → s.Writable a →
          s.cachedLines (granuleOf a) = [] → Does (.linkWrite n k) s fun t => s.Took t n ∧ s.Stores t a bs ∧ t.chambers = s.chambers ∧
            (k.pen = true → t.sig k.psig.toNat = (s.sig k.psig.toNat + 1) % 2 ^ 64)) ∧
        (s.exported true a = false → Does (.linkWrite n k) s fun t => s.Took t n ∧ t.mem = s.mem ∧ t.chambers = s.chambers ∧ refused t)) ∧
      (∀ m, s.Hears n .readReq k → away → k.ngran.val = 1 → route .readResp = some m →
        (s.exported false a = true → s.Readable a → Does (.linkReadReq n k) s fun t =>
          s.Took t n ∧ (t.port m).Holds (resp (memRead s.mem a 256)) ∧ t.mem = s.mem ∧ t.chambers = s.chambers) ∧
        (s.exported false a = false → Does (.linkReadReq n k) s fun t =>
          s.Took t n ∧ (t.port m).Holds (resp (zeroBytes 256)) ∧ t.mem = s.mem ∧ t.chambers = s.chambers ∧ refused t)) ∧
      (∀ x bs d, s.Hears n .readResp k → s.txWait = [] → s.tx.find? (fun y => y.xfer == k.xfer.toNat && y.isRead) = some x → x.got + 1 < x.npkt → one →
        k.data = [bs] → bs.length = 256 → d = x.dst + (a - x.src) → d % 256 = 0 → s.Writable d → s.cachedLines (granuleOf d) = [] →
        Does (.linkReadResp n k) s fun t =>
          s.Took t n ∧ s.Stores t d bs ∧ t.tx = (s.tx.map fun y => if y.xfer = x.xfer then { y with got := y.got + 1, waits := [] } else y) ∧
          t.cuJobs = s.cuJobs ∧ t.chambers = s.chambers) ∧
      (∀ x, s.Hears n .done k → s.txWait = [] → s.tx.find? (fun y => y.xfer == k.xfer.toNat) = some x → Does (.linkDone n k) s fun t =>
        s.Took t n ∧ t.tx = s.tx.filter (·.xfer != x.xfer) ∧ t.chambers = s.chambers ∧
        ((∃ y ∈ s.tx, y.xfer ≠ x.xfer ∧ y.job = x.job) → t.cuJobs = s.cuJobs ∧ t.mem = s.mem) ∧
        (∀ j, (∀ y ∈ s.tx, y.xfer ≠ x.xfer → y.job ≠ x.job) → (∀ r ∈ s.redJobs, r.job ≠ x.job) → (∀ e ∈ s.heldEnds, e.work ≠ .job x.job) →
          s.cuJobs.find? (fun y => y.id == x.job) = some j →
          (j.starting = true → t.cuJobs = s.cuJobs ∧ t.mem = s.mem) ∧
          (j.starting = false → t.cuJobs = s.cuJobs.filter (·.id != j.id) ∧ (j.recAddr = none → t.cuDone = mapInsert s.cuDone j.token j.status))))) ∧
    (∀ k : InPacket, s.isLocalNode k.dst.toNat = false →
      ∀ c ∈ [(LinkKind.write, PKind.write), (.readReq, .readReq), (.readResp, .readResp), (.post, .post), (.done, .done)], s.Hears n c.2 k →
        let on := { inPacket c.2 k with hops := k.hops.toNat - 1 }
        (k.hops.toNat ≤ 1 → Does (.packetForward n c.1 k) s fun t => s.Took t n ∧ t.lost = s.lost ++ [inPacket c.2 k] ∧ t.chambers = s.chambers ∧
          t.get (Reg.HGPn_LOST_HOPS n) = (s.get (Reg.HGPn_LOST_HOPS n) + 1) % 2 ^ 32) ∧
        (1 < k.hops.toNat → s.portsFor on = [] → Does (.packetForward n c.1 k) s fun t =>
          s.Took t n ∧ t.lost = s.lost ++ [on] ∧ t.chambers = s.chambers) ∧
        (∀ m, 1 < k.hops.toNat → s.pickPort c.2 k.vl.val (s.portsFor on) = some m → Does (.packetForward n c.1 k) s fun t =>
          s.Took t n ∧ (t.port m).Holds on ∧ t.lost = s.lost ∧ t.mem = s.mem ∧ t.chambers = s.chambers)) ∧
    (∀ (credits : List (BitVec 7)) ack nak, s.portUp n = false → exec (.controlFlit n credits ack nak) s = .next s ∧ exec (.controlFlitInsert n) s = .next s) ∧
    (s.portUp n = true →
      let p := s.port n
      exec (.controlFlitInsert n) s = .next (s.setPort n { p with
        ctl := p.ctl ++ [⟨p.owed, 0, (p.rxLseq + 4095) % 4096, p.nak, none⟩], owed := Vector.replicate 4 0, nak := false
        flits := if 64 ≤ p.flits then p.flits - 64 else p.flits }) ∧
      ∀ (credits : List (BitVec 7)) (ack : BitVec 12) (nak : Bool), p.waiting = [] →
        let rest := ackReplay p.replay ack.toNat
        let replays := nak = true ∧ rest ≠ []
        let recent := (List.replicate rest.length s.cycle ++ p.replayAt).filter fun c => decide (s.cycle - c < 1700000)
        let row := if rest.length = p.replay.length ∧ p.repeats ≠ 0 then p.repeats + 1 else 1
        let errors := replays ∧ (64 < recent.length ∨ 8 ≤ row)
        Does (.controlFlit n credits ack nak) s fun t =>
          t.get (Reg.HGPn_ERR_REPLAY n) = (if nak = true ∧ rest ≠ [] then (s.get (Reg.HGPn_ERR_REPLAY n) + rest.length) % 2 ^ 16 else s.get (Reg.HGPn_ERR_REPLAY n)) ∧
          (¬errors → (t.port n).replay = rest ∧ (∀ m, m ≠ n.val → t.port m = s.port m) ∧ t.mem = s.mem ∧ t.chambers = s.chambers ∧
            (t.port n).shared + (t.port n).reserved.toList.sum = p.shared + p.reserved.toList.sum + ((credits.take 4).map (·.toNat)).sum ∧
            (replays → (t.port n).replayAt = recent ∧ (t.port n).repeats = row)) ∧
          (errors → t.get (Reg.HGPn_STATUS_STATE n) = 1 ∧ (t.port n).replay = [] ∧ (t.port n).errs = true)) ∧
    (∀ (e : TrainEnd) (p : Peer), s.portOff n = false →
      let st := s.get (Reg.HGPn_STATUS_STATE n)
      let able := s.get (Reg.HGPn_CFG_ENABLE n) = 1 ∧ s.get (Reg.HGPn_CFG_REACH n) ≠ 3
      let tried := fun t : State => t.get (Reg.HGPn_STATUS_TRAINS n) = min (s.get (Reg.HGPn_STATUS_TRAINS n) + 1) (2 ^ 16 - 1) ∧
        t.mem = s.mem ∧ t.chambers = s.chambers ∧ ∀ m, m ≠ n.val → t.port m = s.port m
      let up := fun (v h : Nat) => Does (.portTraining n e p) s fun t => tried t ∧
        t.get (Reg.HGPn_STATUS_STATE n) = v ∧ t.get (Reg.HGPn_STATUS_HIGH_LANES n) = h ∧
        t.get (Reg.HGPn_STATUS_CAUSE n) = 0 ∧ t.get (Reg.HGPn_STATUS_PEER_NODE n) = p.node.toNat ∧ t.get (Reg.HGPn_STATUS_PEER_PORT n) = p.port.toNat ∧
        ((s.port n).waiting = [] → ∃ c : CtlFlit, (t.port n).ctl = (s.port n).ctl ++ [c] ∧ c.hello = some (s.get Reg.HGP0_NODE_NODE, n.val) ∧
          (n.val ≠ 7 ∨ s.get Reg.GLB_ROLE_TWIN = 0 → c.credits.toList =
            [s.get (Reg.HGPn_CFG_RES0 n), s.get (Reg.HGPn_CFG_RES1 n), s.get (Reg.HGPn_CFG_RES2 n), s.get (Reg.HGPn_CFG_RES3 n)] ∧
            c.shared = 64 - c.credits.toList.sum))
      let down := fun c : Nat => Does (.portTraining n e p) s fun t => tried t ∧ (t.port n).fails = (s.port n).fails + 1 ∧
        (c = 4 ∨ 3 ≤ (s.port n).fails + 1 → t.get (Reg.HGPn_STATUS_STATE n) = 4 ∧
          t.get (Reg.HGPn_STATUS_CAUSE n) = if (s.port n).errs = true ∧ c ≠ 4 then 5 else c) ∧
        (c ≠ 4 → (s.port n).fails + 1 < 3 → t.get (Reg.HGPn_STATUS_STATE n) = 1)
      let fits := s.get (Reg.HGPn_CFG_REACH n) = 2 → ∃ c, e.modClass = some c ∧ c.toNat ≤ 5
      let lane := fun i => e.here.getLsbD i = true ∧ e.there.getLsbD i = true
      (¬able → Does (.portTraining n e p) s fun t => t.get (Reg.HGPn_STATUS_STATE n) = 0 ∧ s.OnlyFields t [Reg.HGPn_STATUS_STATE n]) ∧
      (able → st = 2 ∨ st = 3 ∨ st = 4 → exec (.portTraining n e p) s = .next s) ∧
      (able → st ≠ 2 → st ≠ 3 → st ≠ 4 → (∀ m < 8, ∀ w ∈ (s.port m).waiting, w.2 = none) →
        (¬fits → down 4) ∧
        (fits → e.here = 0 → down 1) ∧
        (fits → e.here ≠ 0 → e.locked = false → down 2) ∧
        (fits → e.locked = true → (∀ i < 8, lane i) → up 2 0) ∧
        (fits → e.locked = true → ¬(∀ i < 8, lane i) → (∀ i < 4, lane i) → up 3 0) ∧
        (fits → e.locked = true → ¬(∀ i < 4, lane i) → (∀ i < 4, lane (4 + i)) → up 3 1) ∧
        (fits → e.here ≠ 0 → e.locked = true → ¬(∀ i < 4, lane i) → ¬(∀ i < 4, lane (4 + i)) → down 3))) ∧
    (s.portUp n = false → exec (.portRetrain n) s = .next s) ∧
    (s.get (Reg.HGPn_STATUS_STATE n) ≠ 4 → exec (.portRetry n) s = .next s) ∧
    (s.get (Reg.HGPn_STATUS_STATE n) = 4 → Does (.portRetry n) s fun t => t.get (Reg.HGPn_STATUS_STATE n) = 1 ∧ (t.port n).fails = 0 ∧
      s.KeepsFields t [Reg.HGPn_STATUS_STATE n] ∧ t = { s with fields := t.fields, ports := t.ports }) ∧
    ((s.port n).replay = [] → (∀ m < 8, (s.port m).waiting = [] ∧ (s.port m).txBytes < 2 ^ 20) →
      (s.portUp n = true → Does (.portRetrain n) s fun t => t.get (Reg.HGPn_STATUS_STATE n) = 1 ∧ s.KeepsFields t [Reg.HGPn_STATUS_STATE n] ∧
        t = { s with fields := t.fields, ports := t.ports } ∧ (∀ m, m ≠ n.val → t.port m = s.port m) ∧
        t.port n = { Port.reset with
          fails := (s.port n).fails, txBytes := (s.port n).txBytes, rxBytes := (s.port n).rxBytes, ctl := (s.port n).ctl, errs := (s.port n).errs }) ∧
      Does (.portReset n) s fun t => t = { s with fields := t.fields, ports := t.ports, arbs := t.arbs } ∧ (∀ m, m ≠ n.val → t.port m = s.port m) ∧
        (t.port n).fails = 0 ∧ (t.port n).rxLseq = 0 ∧ (t.arb (96 + n.val)).credit = Vector.replicate 8 0 ∧ (t.arb (96 + n.val)).age = Vector.replicate 8 0 ∧
        (∀ b, b ≠ 96 + n.val → t.arb b = s.arb b) ∧ t.get (Reg.HGPn_STATUS_PEER_NODE n) = 0 ∧ t.get (Reg.HGPn_STATUS_CAUSE n) = 0 ∧
        t.get (Reg.HGPn_STATUS_STATE n) =
          if s.get (Reg.HGPn_CFG_ENABLE n) = 1 ∧ s.get (Reg.HGPn_CFG_REACH n) ≠ 3 ∧ s.portOff n = false then 1 else 0)

/-- The jobs of the collective units in Run (R173, R341 to R345, R347). ENABLE records the job signal's value, but not while a step plan runs. A job
that breaks a check ends with BAD_JOB and sends nothing, and so does a DISPATCH on a ring. A job is served by the unit on whose die its route
lies. A PUT of up to 16 granules to another node sends one WRITE packet with them by the node's route, a GET asks for them with one READ_REQ; a
GATHER or a REDSCAT of one member ends at once, its part copied or its row converted to its destination; a wave handed over by Siphon starts a
transfer to its node, or waits behind those that the limits hold back. -/
def Obligations.CollectiveJobs : Prop :=
  ∀ (s : State) (unit : Fin 2), s.InRun →
    (s.stepRuns = true → Does (.cuEnable unit) s fun t => s.CountsGlobalViol t 0 3 (0x4020000 + 0x100000 * unit.val)) ∧
    (s.stepRuns = false → s.get (Reg.HGPn_CU_CTL_ENABLE unit) = 1 → exec (.cuEnable unit) s = .next s) ∧
    (s.stepRuns = false → s.get (Reg.HGPn_CU_CTL_ENABLE unit) ≠ 1 → s.get (Reg.HGPn_CU_CTL_JOB_SIG unit) < 4096 → Does (.cuEnable unit) s fun t =>
      t.get (Reg.HGPn_CU_CTL_ENABLE unit) = 1 ∧ t.ring (4 + unit.val) = ⟨s.sig (s.get (Reg.HGPn_CU_CTL_JOB_SIG unit)), 0, []⟩ ∧
      s.KeepsFields t [Reg.HGPn_CU_CTL_ENABLE unit] ∧ t = { s with fields := t.fields, rings := t.rings }) ∧
    (∀ src ws ra token u, s.CuHead unit src ws ra token u → s.FreshJob →
      let op := recBits ws 0 3 0
      let node := recBits ws 0 23 16
      let cls := recBits ws 0 7 6
      let src' := recBits ws 1 47 0
      let dst := recBits ws 2 47 0
      let bytes := recBits ws 3 47 0
      let n := bytes / 256
      let sig := recBits ws 6 11 0
      let serves := (u.servingUnit unit ws).1
      let job : CuJob := ⟨s.xferSeq, serves, ra, if ra.isSome then some sig else none, token, false, false, false⟩
      let x := (s.xferSeq + 1) % 2 ^ 24
      (cuRecOk ws = false →
        (op = 1 ∨ op = 0 ∨ 5 < op → Does (.put unit src) s fun t => u.CuEnds t unit ra token sig 2) ∧
        (op = 2 → Does (.get unit src) s fun t => u.CuEnds t unit ra token sig 2) ∧
        (op = 3 → Does (.gather unit src) s fun t => u.CuEnds t unit ra token sig 2) ∧
        (∀ opid, op = 4 → opid ≠ 0 → Does (.redscat unit src opid) s fun t => u.CuEnds t unit ra token sig 2)) ∧
      (op = 4 → exec (.redscat unit src 0) s = .next s) ∧
      (op = 5 → src = .ring → Does (.dispatch unit src) s fun t => u.CuEnds t unit ra token sig 2) ∧
      (cuRecOk ws = true → 1 ≤ n → n ≤ 16 → s.mayTransfer node 1 = true → s.isLocalNode node = false → (∀ y ∈ s.txWait, y.pkt.dst ≠ node) →
        let starts := fun (t : State) (read : Bool) (p : Packet) => t.cuJobs = s.cuJobs ++ [job] ∧ t.mem = s.mem ∧ t.chambers = s.chambers ∧
          t.tx = s.tx ++ [if read then ⟨x, s.xferSeq, node, true, src', dst, 1, 0, []⟩ else ⟨x, s.xferSeq, node, false, 0, dst, 0, 0, []⟩] ∧
          t.txWait = s.txWait ∧ ∃ m, s.pickPort p.kind cls (s.routePorts node cls) = some m ∧ serves = m / 4 ∧ (t.port m).Holds { p with
            vl := cls, src := s.get Reg.HGP0_NODE_NODE, dst := node, xfer := x, pkt := 0, npkt := 1, ngran := n }
        (op = 1 → recBits ws 0 5 4 = 0 → recBits ws 0 11 8 = recBits ws 0 15 12 → s.routePorts node cls ≠ [] →
          (∀ i < n, s.Readable (src' + 256 * i)) → Does (.put unit src) s fun t => starts t false { Packet.blank .write with
            addr := dst, psig := recBits ws 6 23 12, pen := recBits ws 6 24 24 == 1, dtype := recBits ws 0 15 12, rowlen := recBits ws 4 15 0
            data := (List.range n).map fun i => memRead s.mem (src' + 256 * i) 256 }) ∧
        (op = 2 → s.routePorts node cls ≠ [] → Does (.get unit src) s fun t => starts t true { Packet.blank .readReq with addr := src' })) ∧
      (cuRecOk ws = true → bytes = 256 → recBits ws 0 36 32 = 1 → s.heldWrites = [] → s.Readable src' → s.Writable dst →
        s.cachedLines (granuleOf dst) = [] →
        (op = 3 → Does (.gather unit src) s fun t => ∃ v : State, s.Stores v dst (memRead s.mem src' 256) ∧ v.CuEnds t serves ra token sig 1) ∧
        (∀ opid, op = 4 → opid ≠ 0 → let st := recBits ws 0 11 8
          let dt := recBits ws 0 15 12
          let len := 256 / floatBytes st
          recBits ws 0 5 4 = 0 ∨ recBits ws 4 15 0 + 1 = len → len * floatBytes dt ≤ 256 → node = 0xFF → recBits ws 4 16 16 = 0 →
          Does (.redscat unit src opid) s fun t =>
            ∃ v : State, s.Stores v dst (packElems dt ((unpackElems st (memRead s.mem src' 256) len).map fun y => (convert dt false (widen st y).1).1)) ∧
              v.CuEnds t serves ra token sig 1))) ∧
    (s.dispatchQ = [] → exec (.dispatch unit .queue) s = .next s) ∧
    ∀ d ds, s.dispatchQ = d :: ds → s.FreshJob →
      let begun := fun t : State => t.dispatchQ = ds ∧ t.mem = s.mem ∧ t.chambers = s.chambers ∧
        ∃ j : CuJob, t.cuJobs = s.cuJobs ++ [j] ∧ j.id = s.xferSeq ∧ j.unit = s.unitOf unit d.node 1 ∧ j.recAddr = none ∧ j.doneSig = none
      (s.mayTransfer d.node 1 = false → exec (.dispatch unit .queue) s = .next s) ∧
      (s.mayTransfer d.node 1 = true → (∃ y ∈ s.txWait, y.pkt.dst = d.node) → d.rows ≠ [] → Does (.dispatch unit .queue) s fun t => begun t ∧ t.tx = s.tx ∧
        ∃ w : TxWait, t.txWait = s.txWait ++ [w] ∧ w.job = s.xferSeq ∧ w.pkt.dst = d.node ∧ w.pkt.addr = d.rx ∧ w.into = none) ∧
      (s.mayTransfer d.node 1 = true → (∀ y ∈ s.txWait, y.pkt.dst ≠ d.node) → s.isLocalNode d.node = false → s.routePorts d.node 1 ≠ [] → d.rows ≠ [] →
        Does (.dispatch unit .queue) s fun t => begun t ∧ t.txWait = s.txWait ∧
          t.tx = s.tx ++ [⟨(s.xferSeq + 1) % 2 ^ 24, s.xferSeq, d.node, false, 0, d.rx, 0, 0, []⟩])

/-- The arbiters outside Hold (R353, R356 to R362, R366, R367). A beat moves the slot pointer, gives the slot's owner a credit where it asks or has
a transfer in progress, and the running transfer carries on. A decision grants the requester with the greatest credit of at least 1, charging its
beats, or else the one with the greatest BASE plus age, lower IDs first, and ages the others; a withdrawal undoes a grant that has carried
nothing. ARB_NEXT comes into force at once where Traverse is IDLE; a set takes its new table as its pointer wraps; a slot table is written
unless its set uses it. -/
def Obligations.ArbiterGrants : Prop :=
  ∀ s : State, s.held = false →
    (∀ (arb : Fin 110) (req : BitVec 8), Does (.arbiterBeat arb req) s fun t =>
      let x := s.arb arb
      let y := t.arb arb
      let asks := fun r : Nat => bit req.toNat r = true ∨ (∃ q ∈ x.queue, q.id.toNat = r ∧ s.eligible arb q = true) ∨ ∃ g, x.run = some g ∧ g.req = r
      y.ptr = (x.ptr + 1) % 64 ∧ y.age = x.age ∧ y.queue = x.queue ∧ (∀ b, b ≠ arb.val → t.arb b = s.arb b) ∧
      (∀ r < 8, y.creditOf r = if r = s.slotOwner (arbSet arb) x.ptr ∧ asks r then min (x.creditOf r + 1) (creditMax arb) else x.creditOf r) ∧
      (∀ g, x.run = some g → 1 < g.left → y.run = some { g with left := g.left - 1 } ∧ y.next = x.next) ∧
      (x.run = none ∨ (∃ g, x.run = some g ∧ g.left ≤ 1) → y.run = x.next ∧ y.next = none) ∧
      s.KeepsFields t [Reg.ARB_CNTk_SLOT_COUNT (arbSet arb), Reg.ARB_CNTk_BG_COUNT (arbSet arb)] ∧ t = { s with fields := t.fields, arbs := t.arbs }) ∧
    (∀ (arb : Fin 110) (rs : List ArbReq),
      let x := s.arb arb
      let all := x.queue ++ rs
      let can := all.filter (s.eligible arb)
      let ids := requesters arb can
      ((∃ g, x.next = some g) ∨ (∃ g, x.run = some g ∧ 1 < g.left) → exec (.arbiterDecision arb rs) s = .next s) ∧
      (x.next = none → (∀ g, x.run = some g → g.left ≤ 1) →
        (ids = [] → Does (.arbiterDecision arb rs) s fun t => (t.arb arb).next = none ∧ (t.arb arb).age = x.age ∧ (t.arb arb).queue = all ∧
          ∀ r < 8, (t.arb arb).creditOf r = min (x.creditOf r) 0) ∧
        ∀ w q, w ∈ ids → requestOf can w = some q →
          let locked := q.locked && arbLocks arb
          let l := max 1 (min q.beats.toNat (if locked then 32 else arbPlain arb))
          let bySlot := 1 ≤ x.creditOf w ∧ ∀ v ∈ ids, x.creditOf v < x.creditOf w ∨ (x.creditOf v = x.creditOf w ∧ w ≤ v)
          let rank := fun r => s.arbBase (arbSet arb) r + x.ageOf r
          let byRank := (∀ v ∈ ids, x.creditOf v < 1) ∧ ∀ v ∈ ids, rank v < rank w ∨ (rank v = rank w ∧ w ≤ v)
          ∀ slot, (slot = true ∧ bySlot) ∨ (slot = false ∧ byRank) → Does (.arbiterDecision arb rs) s fun t =>
            (t.arb arb).next = some ⟨w, l, l, locked, slot, x.ageOf w⟩ ∧ (t.arb arb).queue = takeRequest arb q all ∧ (t.arb arb).run = x.run ∧ (t.arb arb).ptr = x.ptr ∧
            (∀ r < 8, (t.arb arb).creditOf r = if r ∉ ids then min (x.creditOf r) 0 else if r = w ∧ slot = true then x.creditOf r - l else x.creditOf r) ∧
            (∀ r < 8, (t.arb arb).ageOf r = if r ∉ ids then x.ageOf r else if r = w then 0 else min 15 (x.ageOf r + 1)) ∧
            (∀ b, b ≠ arb.val → t.arb b = s.arb b) ∧ s.KeepsFields t [Reg.ARB_CNTk_DEAD_CUT (arbSet arb)] ∧ t = { s with fields := t.fields, arbs := t.arbs })) ∧
    (∀ arb : Fin 110,
      let x := s.arb arb
      let dead := fun t : State => t.get (Reg.ARB_CNTk_DEAD_DEAD (arbSet arb)) = (s.get (Reg.ARB_CNTk_DEAD_DEAD (arbSet arb)) + 1) % 2 ^ 32 ∧
        s.KeepsFields t [Reg.ARB_CNTk_DEAD_DEAD (arbSet arb)] ∧ t = { s with fields := t.fields, arbs := t.arbs } ∧ ∀ b, b ≠ arb.val → t.arb b = s.arb b
      let undone := fun (t : State) (g : Grant) =>
        (∀ r < 8, (t.arb arb).creditOf r = if r = g.req ∧ g.slot = true then min (x.creditOf r + g.total) (creditMax arb) else x.creditOf r) ∧
        ∀ r < 8, (t.arb arb).ageOf r = if r = g.req then g.age else x.ageOf r
      (x.next = none → x.run = none → exec (.grantWithdraw arb) s = .next s) ∧
      (∀ g, x.next = some g → Does (.grantWithdraw arb) s fun t => dead t ∧ undone t g ∧ (t.arb arb).next = none ∧ (t.arb arb).run = x.run) ∧
      (∀ g, x.next = none → x.run = some g →
        (g.left = g.total → Does (.grantWithdraw arb) s fun t => dead t ∧ undone t g ∧ (t.arb arb).run = none) ∧
        (g.left ≠ g.total → g.locked = true → Does (.grantWithdraw arb) s fun t => dead t ∧ t.arb arb = { x with run := none }) ∧
        (g.left ≠ g.total → g.locked = false → exec (.grantWithdraw arb) s = .next s))) ∧
    (∀ v : Word, v.toNat < 2 ^ 20 → Does (.arbNextWrite v) s fun t =>
      (∀ k < 10, t.get (Reg.ARB_NEXT_SET_k k) = v.toNat / 2 ^ (2 * k) % 4) ∧
      (∀ k < 10, t.get (Reg.ARB_ACTIVE_SET_k k) = if s.get Reg.TRV_STATE_STATE = 0 then v.toNat / 2 ^ (2 * k) % 4 else s.get (Reg.ARB_ACTIVE_SET_k k)) ∧
      s.OnlyFields t ((List.range 10).map Reg.ARB_NEXT_SET_k ++ (List.range 10).map Reg.ARB_ACTIVE_SET_k)) ∧
    (∀ set : Fin 10,
      let new := s.get (Reg.ARB_ACTIVE_SET_k set)
      let at0 := (s.arb ((setArbs set).headD 0)).ptr = 0
      (s.arbTable set = new ∨ ¬at0 → exec (.arbTableActivate set) s = .next s) ∧
      (s.arbTable set ≠ new → at0 → Does (.arbTableActivate set) s fun t => t = { s with arbs := t.arbs, arbUse := t.arbUse } ∧ t.arbTable set = new ∧
        (∀ k, k ≠ set.val → t.arbTable k = s.arbTable k) ∧
        ∀ a, t.arb a = if a ∈ setArbs set then { s.arb a with credit := Vector.replicate 8 0 } else s.arb a) ∧
      ∀ (tb : Fin 4) (j : Fin 5) (v : Word),
        (tb.val = s.arbTable set ∨ tb.val = new → Does (.arbTableWrite set tb j v) s fun t => ∃ kind, s.CountsGlobalViol t 0 kind (arbTableOff set tb j)) ∧
        (tb.val ≠ s.arbTable set → tb.val ≠ new → j.val < 4 → Does (.arbTableWrite set tb j v) s fun t =>
          (∀ i < 16, t.get (Reg.ARB_Tk_t_SLOTSj_OWNER_i set tb j i) = v.toNat / 2 ^ (4 * i) % 16) ∧
          s.OnlyFields t ((List.range 16).map (Reg.ARB_Tk_t_SLOTSj_OWNER_i set tb j))) ∧
        (tb.val ≠ s.arbTable set → tb.val ≠ new → j.val = 4 → v.toNat < 2 ^ 32 → Does (.arbTableWrite set tb j v) s fun t =>
          (∀ r < 8, t.get (Reg.ARB_Tk_t_BASE_BASE_r set tb r) = v.toNat / 2 ^ (4 * r) % 16) ∧
          s.OnlyFields t ((List.range 8).map (Reg.ARB_Tk_t_BASE_BASE_r set tb))))

/-- The host's link and memory in Run (R391 to R401, R410 to R412, R416 to R418). A link that is down trains to what the port supports; a host-link
reset empties the snoop filter, ends copies, detaches the ledger and leaves memory and chambers alone. A line read returns its bytes and records
the caching intent, a line write stores; neither acts before memory is active, and both wait for a claim. A back-invalidation's answer drops its
line, and their time-out is a loss of the link; UIO requests act where a landing region permits them and are counted where none does; vector 0 is
raised no sooner than the hold-off. -/
def Obligations.HostMemory : Prop :=
  ∀ s : State, s.InRun →
    let link := s.get Reg.HST_LINK_STATE
    let loses := fun (t : State) (cause : Nat) => t.get Reg.HST_LOSS_CAUSE = cause ∧ t.snoop = [] ∧ t.biWait = [] ∧ t.biAt = none ∧
      t.detaching = false ∧ t.mem = s.mem ∧ t.chambers = s.chambers ∧ t.trv = s.trv ∧ (.ledger ∉ s.frameWaits → s.KeepsOutside t [(0x5000000, 0x5800000)]) ∧
      t.component = [] ∧ t.decoders = Vector.replicate 2 Decoder.reset ∧ t.irq = { s.irq with table := msixTable, pba := 0 } ∧
      t.get Reg.HST_LOSS_DIRTY_LINES = min (s.snoop.filter fun e => e.2.own).length (2 ^ 32 - 1) ∧
      t.get Reg.HST_LOSS_ABANDONED = min (if s.get Reg.MBX_CTL_STATE = 3 then s.ledgerTail - s.started else 0) (2 ^ 16 - 1) ∧
      (2 ≤ s.get Reg.MBX_CTL_STATE → t.get Reg.MBX_CTL_STATE = 4) ∧ (s.resetOf Reg.HST_LINK_STATE.key = 0 → t.get Reg.HST_LINK_STATE = 0) ∧
      t.openRecs = (s.openRecs.filter fun r => !(r.op == 3 || r.op == 4)) ∧
      t.endedRecs = s.endedRecs ++ ((s.openRecs.filter fun r => r.op == 3 || r.op == 4).map fun r => { r with status := 0x13 })
    (∀ (width rate : BitVec 8) (flit cxl : Bool),
      let ok := (width = 8 ∨ width = 16) ∧ (rate = 32 ∨ rate = 64) ∧ flit = true
      (s.inReset = true ∨ link ≠ 0 ∨ ¬ok → exec (.hostLinkTrain width rate flit cxl) s = .next s) ∧
      (s.inReset = false → link = 0 → ok → Does (.hostLinkTrain width rate flit cxl) s fun t =>
        t.get Reg.HST_LINK_STATE = (if cxl then 2 else 1) ∧ t.get Reg.HST_LINK_WIDTH = width.toNat % 16 ∧ t.get Reg.HST_LINK_RATE = rate.toNat / 32 ∧
        t.get Reg.HST_LINK_UPS = min (s.get Reg.HST_LINK_UPS + 1) (2 ^ 16 - 1) ∧
        s.OnlyFields t [Reg.HST_LINK_STATE, Reg.HST_LINK_WIDTH, Reg.HST_LINK_RATE, Reg.HST_LINK_UPS])) ∧
    (∀ cause : Fin 3, (s.inReset = true → exec (.hostLinkReset cause) s = .next s) ∧
      (s.inReset = false → Does (.hostLinkReset cause) s fun t => loses t (cause.val + 1))) ∧
    (∀ (line : BitVec 35) (intent : CacheIntent) (data : List Byte),
      let a := 64 * line.toNat
      (link ≠ 2 → exec (.hostMemRead line intent) s = .next s ∧ exec (.hostMemWrite line data) s = .next s) ∧
      (link = 2 → s.memActive = false → exec (.hostMemRead line intent) s = .next { s with hostReply := (zeroBytes 64, false) } ∧
        exec (.hostMemWrite line data) s = .next s) ∧
      (s.HostOpen → s.claimed none a = true → ∀ c ∈ [Instr.hostMemRead line intent, .hostMemWrite line data], Does c s fun t =>
        t = { s with claims := t.claims }) ∧
      (s.HostOpen → s.claimed none a = false →
        (s.Readable a → Does (.hostMemRead line intent) s fun t => t.hostReply = (memRead s.mem a 64, false) ∧ t.mem = s.mem ∧ t.chambers = s.chambers ∧
          (intent = .none → t.snoop = s.snoop) ∧ (intent = .shared → mapFind t.snoop line.toNat = some ⟨s.snoopSeq, false⟩) ∧
          (intent = .owned → mapFind t.snoop line.toNat = some ⟨s.snoopSeq, true⟩)) ∧
        (s.Writable a → Does (.hostMemWrite line data) s fun t => s.Stores t a (fitBytes 64 data) ∧ t.chambers = s.chambers ∧ t.snoop = s.snoop)) ∧
      (line.toNat ∉ s.biWait → exec (.bisnpResponse line) s = .next s) ∧
      (line.toNat ∈ s.biWait → Does (.bisnpResponse line) s fun t =>
        t = { s with snoop := mapErase s.snoop line.toNat, biWait := t.biWait, biAt := if t.biWait = [] then none else some s.cycle } ∧
        t.biWait = s.biWait.filter (· != line.toNat))) ∧
    (∀ ms, ms = s.get Reg.HST_CFG_BI_TIMEOUT_MS →
      (s.biAt = none ∨ ms = 0 → exec .biTimeout s = .next s) ∧
      (∀ c, s.biAt = some c → ms ≠ 0 → (s.cycle - c < 1700000 * ms → exec .biTimeout s = .next s) ∧
        (1700000 * ms ≤ s.cycle - c → Does .biTimeout s fun t => loses t 4))) ∧
    (let free := ∀ c, s.irqAt = some c → s.get Reg.HST_CFG_IRQ_HOLDOFF_US * 1700 ≤ s.cycle - c
     (s.irqWait = false ∨ ¬free → exec .irqHoldoffExpire s = .next s) ∧
     (s.irqWait = true → free → Does .irqHoldoffExpire s fun t => t = { s with irq := t.irq, irqWait := false, irqAt := some s.cycle } ∧
       (∀ v, mapGet 0 t.irq.raised v = mapGet 0 s.irq.raised v + if v = 0 then 1 else 0) ∧
       let masked := bit (mapGet 0 s.irq.table 1) 32 = true
       (masked → t.irq.sent = s.irq.sent ∧ t.irq.pba = s.irq.pba ||| 1) ∧
       (¬masked → mapGet 0 t.irq.sent 0 = mapGet 0 s.irq.sent 0 + 1 ∧ t.irq.pba = s.irq.pba))) ∧
    ∀ (addr : BitVec 48) (data : List Byte) (len : BitVec 16),
      let a := addr.toNat
      let n := len.toNat
      (link ≠ 2 → exec (.uioWrite addr data) s = .next s ∧ exec (.uioRead addr len) s = .next s) ∧
      (s.HostOpen →
        (s.uioRegion true a data.length = none → Does (.uioWrite addr data) s fun t => s.CountsGlobalViol t 0 0 a) ∧
        (s.uioRegion false a n = none → s.get Reg.HST_CFG_INGEST_MODE = 1 → exec (.uioRead addr len) s = .next { s with hostReply := (zeroBytes n, false) }) ∧
        (s.uioRegion false a n = none → s.get Reg.HST_CFG_INGEST_MODE ≠ 1 → Does (.uioRead addr len) s fun t =>
          ∃ v, s.CountsGlobalViol v 0 0 a ∧ t = { v with hostReply := (zeroBytes n, false) }) ∧
        (∀ i, s.uioRegion true a data.length = some i → s.claimedIn a data.length = [] → s.heldWrites = [] → data ≠ [] → a % 256 + data.length ≤ 256 → s.Writable a →
          s.get (Reg.HST_LANDi_CFG_SIG i) < 4096 → Does (.uioWrite addr data) s fun t =>
            let c := s.get (Reg.HST_LANDi_COUNT_BYTES i)
            let m := 2 ^ s.get (Reg.HST_LANDi_CFG_NOTIFY_LOG2 i)
            let g := s.get (Reg.HST_LANDi_CFG_SIG i)
            s.Stores t a data ∧ t.chambers = s.chambers ∧ t.get (Reg.HST_LANDi_COUNT_BYTES i) = (c + data.length) % 2 ^ 64 ∧
            (0 < (c + data.length) / m - c / m → t.sig g = (s.sig g + ((c + data.length) / m - c / m)) % 2 ^ 64)) ∧
        (∀ i, s.uioRegion false a n = some i → s.claimedIn a n = [] → 0 < n → a % 256 + n ≤ 256 → s.Readable a → Does (.uioRead addr len) s fun t =>
          t.hostReply = (memRead s.mem a n, false) ∧ t.mem = s.mem ∧ t.chambers = s.chambers))

/-- The work ledger in Run (R402 to R409). A record that may not start waits. One behind a failure that is a FENCE ends FENCED, a bad one
BAD_RECORD. NOP ends OK; STEP queues its step on a worker and ends ROLE on a keeper; WRITE stores its payload; COPY_IN and COPY_OUT start, and each
piece or line goes to the device's or the host's memory. A record that has ended completes in order: its post, and its completion, written at the
ring's position where it may be. The doorbell gives TAIL and CMPL_HEAD. -/
def Obligations.LedgerRecords : Prop :=
  ∀ s : State, s.InRun →
    (∀ rec : List Word,
      let ws := recNats rec
      let r := s.recOf ws
      let a := recBits ws 2 47 0
      let len := recBits ws 0 23 16
      let ends := fun (c : Instr) (status : Nat) => Does c s fun t => s.Started t ∧ t.endedRecs = s.endedRecs ++ [{ r with status := status }] ∧
        s.KeepsFields t [Reg.HST_LEDGER_POS_STARTED] ∧ t = { s with fields := t.fields, started := s.started + 1, endedRecs := t.endedRecs }
      (∀ c ∈ [(Instr.ledgerNop rec, 0), (.ledgerStep rec, 1), (.ledgerWrite rec, 2)],
        (s.nextStarts ws = false → exec c.1 s = .next s) ∧
        (s.nextStarts ws = true → recBits ws 0 7 0 = c.2 → bit (ws.getD 0 0) 8 = true → s.ledgerBad = true → ends c.1 0x14) ∧
        (s.nextStarts ws = true → recBits ws 0 7 0 = c.2 → bit (ws.getD 0 0) 8 = false ∨ s.ledgerBad = false → recBad ws s.started = true → ends c.1 0x10)) ∧
      (s.GoodRecord 0 ws → ends (.ledgerNop rec) 1) ∧
      (s.GoodRecord 1 ws →
        (s.get Reg.GLB_ROLE_KEEPER = 1 → ends (.ledgerStep rec) 0x11) ∧
        (s.get Reg.GLB_ROLE_KEEPER = 0 → s.stepQueue ≠ [] ∨ s.get Reg.TWN_STATE_STATE = 5 ∨ s.get Reg.TWN_STATE_STATE = 6 →
          exec (.ledgerStep rec) s = .next s) ∧
        (s.get Reg.GLB_ROLE_KEEPER = 0 → s.stepQueue = [] → s.get Reg.TWN_STATE_STATE ≠ 5 → s.get Reg.TWN_STATE_STATE ≠ 6 →
          Does (.ledgerStep rec) s fun t => s.Started t ∧ s.KeepsFields t [Reg.HST_LEDGER_POS_STARTED] ∧
            t = { s with fields := t.fields, started := s.started + 1, openRecs := s.openRecs ++ [r]
                         stepQueue := [⟨s.attachments, s.started, a, recBits ws 3 31 0⟩] })) ∧
      (s.GoodRecord 2 ws → 0 < len → a % 256 + len ≤ 256 → s.Writable a → s.cachedLines (granuleOf a) = [] → Does (.ledgerWrite rec) s fun t =>
        s.Started t ∧ s.Stores t a (((wordsToBytes (ws.drop 8)) ++ zeroBytes 192).take len) ∧ t.endedRecs = s.endedRecs ++ [{ r with status := 1 }] ∧
        t.get Reg.HST_COPY_IN_COUNT = (s.get Reg.HST_COPY_IN_COUNT + len) % 2 ^ 64 ∧ t.chambers = s.chambers) ∧
      (s.GoodRecord 3 ws → rec ≠ [] → Does (.copyIn rec []) s fun t => s.Started t ∧ s.KeepsFields t [Reg.HST_LEDGER_POS_STARTED] ∧
        t = { s with fields := t.fields, started := s.started + 1, openRecs := s.openRecs ++ [r] }) ∧
      (s.GoodRecord 4 ws → rec ≠ [] → Does (.copyOut rec 0) s fun t => s.Started t ∧ s.KeepsFields t [Reg.HST_LEDGER_POS_STARTED] ∧
        t = { s with fields := t.fields, started := s.started + 1, openRecs := s.openRecs ++ [r] })) ∧
    (∀ (r : LedgerRec) (p : CopyPiece) (a k : Nat), s.openRecs.find? (fun x => x.op == 3) = some r → a = r.addr + r.copied →
      k = min (256 - a % 256) (r.bytes - r.copied) → 0 < k → p.poison = false → s.Writable a → s.cachedLines (granuleOf a) = [] →
      Does (.copyIn [] [p]) s fun t =>
        let q := { r with copied := r.copied + k }
        s.Stores t a (fitBytes k p.bytes) ∧ t.get Reg.HST_COPY_IN_COUNT = (s.get Reg.HST_COPY_IN_COUNT + k) % 2 ^ 64 ∧ t.chambers = s.chambers ∧
        (r.copied + k < r.bytes → t.endedRecs = s.endedRecs ∧ t.openRecs = s.openRecs.map fun x => if x.gen = r.gen ∧ x.k = r.k then q else x) ∧
        (r.bytes ≤ r.copied + k → t.endedRecs = s.endedRecs ++ [{ q with status := if r.poison then 0x12 else 1 }] ∧
          t.openRecs = s.openRecs.filter fun x => !(x.gen == r.gen && x.k == r.k))) ∧
    (∀ (r : LedgerRec) (a : Nat), s.openRecs.find? (fun x => x.op == 4) = some r → a = r.addr + r.copied → a % 256 + 64 ≤ 256 → s.Readable a →
      Does (.copyOut [] 1) s fun t =>
        let q := { r with copied := r.copied + 64 }
        t.hostWrites = s.hostWrites ++ [⟨r.haddr + r.copied, memRead s.mem a 64, false⟩] ∧ t.mem = s.mem ∧ t.chambers = s.chambers ∧
        t.get Reg.HST_COPY_OUT_COUNT = (s.get Reg.HST_COPY_OUT_COUNT + 64) % 2 ^ 64 ∧
        (r.copied + 64 < r.bytes → t.endedRecs = s.endedRecs ∧ t.openRecs = s.openRecs.map fun x => if x.gen = r.gen ∧ x.k = r.k then q else x) ∧
        (r.bytes ≤ r.copied + 64 → t.endedRecs = s.endedRecs ++ [{ q with status := if r.poison then 0x12 else 1 }] ∧
          t.openRecs = s.openRecs.filter fun x => !(x.gen == r.gen && x.k == r.k))) ∧
    (s.detaching = false → s.heldCmpl = [] →
      (s.endedRecs = [] → s.irqWait = false → exec .recordComplete s = .next s) ∧
      (∀ r rs, s.endedRecs = r :: rs → r.sig < 4096 →
        let c : Completion := ⟨r, s.get Reg.ERR_STATUS_WRITTEN⟩
        let posts := r.post = true ∧ r.status = 1
        Does .recordComplete s fun t => t.endedRecs = rs ∧ t.mem = s.mem ∧ t.chambers = s.chambers ∧
          t.ledgerBad = (s.ledgerBad || (r.status != 1 && r.gen == s.attachments)) ∧
          (∀ k < 4096, t.sig k = if posts ∧ k = r.sig then (if r.set then r.value else s.sig k + r.value) % 2 ^ 64 else s.sig k) ∧
          (s.mayComplete = false → t.heldCmpl = [c] ∧ t.hostWrites = s.hostWrites ∧ t.cmplCount = s.cmplCount) ∧
          (s.mayComplete = true → t.heldCmpl = [] ∧ t.cmplCount = s.cmplCount + 1 ∧ t.hostWrites = s.hostWrites ++
            [⟨s.get Reg.HST_CMPL_BASE_ADDR + 64 * (s.cmplCount % 2 ^ s.get Reg.HST_CMPL_BASE_LOG2), wordsToBytes (s.cmplWords c), false⟩]))) ∧
    ∀ tail head : Word,
      let open' := s.get Reg.HST_LINK_STATE = 2 ∧ s.get Reg.MBX_CTL_STATE = 3
      (¬open' → exec (.doorbellWake tail head) s = .next s) ∧
      (open' → s.detaching = false → s.heldCmpl = [] → s.irqWait = false → exec (.doorbellWake tail head) s = .next
        { s with ledgerTail := tail.toNat, cmplHead := head.toNat })

/-- The mailbox's commands, image updates and the attestation tree (R67, R413 to R415, R432, R433, R435 to R437). A request that is not for a command
changes nothing; one in a state that does not accept it is answered STATE; an unknown code UNSUPPORTED. STATUS, ATTACH, DETACH, SELFTEST, RETIRE,
the image commands and ATTEST answer with their results and effects; a committed image is erased, programmed and read back in turn; a spent bottom
tree is built anew; COLD_RESTART answers and resets. -/
def Obligations.MailboxCommands : Prop :=
  ∀ s : State,
    let st := s.get Reg.MBX_CTL_STATE
    let booted := st = 1 ∨ st = 2 ∨ st = 3 ∨ st = 4
    let word := s.mbxWord
    (∀ tail head failed sigOk sig, ∀ c ∈ [(Instr.attach tail head, 2, [2, 4]), (.detach, 3, [3]), (.selftest failed, 0x10, [2]), (.retire, 0x11, [2, 3, 4]),
        (.imgBegin, 0x20, [1, 2, 3, 4]), (.imgData, 0x21, [1, 2, 3, 4]), (.imgCommit sigOk, 0x22, [1, 2, 3, 4]), (.attest sig, 0x30, [2, 3, 4]),
        (.coldRestart, 0x41, if s.get Reg.TWN_STATE_STATE = 6 then [1, 2, 3, 4] else [1, 2, 4])],
      (¬s.Asked c.2.1 → exec c.1 s = .next s) ∧ (s.Asked c.2.1 → st ∉ c.2.2 → Does c.1 s fun t => s.Responds t 2 [])) ∧
    (s.get Reg.MBX_CTL_REQ ≠ 1 → exec .status s = .next s) ∧ (s.Asked 1 → ¬booted → Does .status s fun t => s.Responds t 2 []) ∧
    (s.get Reg.MBX_CTL_REQ = 1 → s.mbxCmd ∉ [1, 2, 3, 0x10, 0x11, 0x20, 0x21, 0x22, 0x30, 0x41] → Does .status s fun t => s.Responds t 1 []) ∧
    (s.Asked 1 → booted → Does .status s fun t =>
      s.Responds t 0 [st, s.readReg 0x10, s.readReg 0x3C00008, s.readReg 0x3C00020, s.readReg 0x6800000]) ∧
    (∀ tail head, s.Asked 2 → st = 2 ∨ st = 4 →
      (s.attachBad = true → Does (.attach tail head) s fun t => s.Responds t 3 []) ∧
      (s.attachBad = false → s.heldCmpl = [] → s.irqWait = false → s.detaching = false → .ledger ∉ s.frameWaits → Does (.attach tail head) s fun t => ∃ u : State,
        u = { s with fields := u.fields, attachments := s.attachments + 1, started := 0, cmplCount := 0, ledgerTail := tail.toNat
                     cmplHead := head.toNat, ledgerBad := false } ∧
        u.get Reg.MBX_CTL_STATE = 3 ∧ u.get Reg.HST_LINK_ATTACH_GEN = (s.attachments + 1) % 2 ^ 16 ∧ u.get Reg.HST_LEDGER_POS_STARTED = 0 ∧
        u.get Reg.HST_LEDGER_BASE_ADDR = word 1 % 2 ^ 52 ∧ u.get Reg.HST_LEDGER_BASE_LOG2 = word 4 % 2 ^ 5 ∧
        u.get Reg.HST_CMPL_BASE_ADDR = word 2 % 2 ^ 52 ∧ u.get Reg.HST_CMPL_BASE_LOG2 = word 4 / 2 ^ 8 % 2 ^ 5 ∧ u.get Reg.HST_DOORBELL_ADDR = word 3 % 2 ^ 52 ∧
        s.KeepsFields u [Reg.MBX_CTL_STATE, Reg.HST_LINK_ATTACH_GEN, Reg.HST_LEDGER_POS_STARTED, Reg.HST_LEDGER_BASE_ADDR, Reg.HST_LEDGER_BASE_LOG2,
          Reg.HST_CMPL_BASE_ADDR, Reg.HST_CMPL_BASE_LOG2, Reg.HST_DOORBELL_ADDR] ∧
        u.Responds t 0 [st, s.started, 0, u.readReg 0x3C00020])) ∧
    (s.Asked 3 → st = 3 → s.heldCmpl = [] → s.irqWait = false → .ledger ∉ s.frameWaits →
      (s.openRecs ≠ [] ∨ s.endedRecs ≠ [] → exec .detach s = .next { s with detaching := true }) ∧
      (s.openRecs = [] → s.endedRecs = [] → Does .detach s fun t => ∃ u : State, u.get Reg.MBX_CTL_STATE = 4 ∧ s.KeepsFields u [Reg.MBX_CTL_STATE] ∧
        u = { s with fields := u.fields, detaching := false } ∧ u.Responds t 0 [])) ∧
    (∀ failed : BitVec 28, s.Asked 0x10 → st = 2 → Does (.selftest failed) s fun t => s.Responds t 0 [failed.toNat &&& s.get Reg.GLB_CHMAP_ENABLED]) ∧
    (s.Asked 0x11 → st = 2 ∨ st = 3 ∨ st = 4 →
      let n := word 1 % 32
      (n < 28 → bit (s.get Reg.GLB_CHMAP_ENABLED) n = true → Does .retire s fun t => ∃ u : State, u.get (Reg.CHn_STATUS_RETIRE_PENDING n) = 1 ∧
        s.OnlyFields u [Reg.CHn_STATUS_RETIRE_PENDING n] ∧ u.Responds t 0 []) ∧
      (28 ≤ n ∨ bit (s.get Reg.GLB_CHMAP_ENABLED) n = false → Does .retire s fun t => s.Responds t 3 [])) ∧
    (s.Asked 0x20 → booted →
      let size := word 1 % 2 ^ 32
      let id := word 2 % 2 ^ 16
      let recovery := s.get Reg.SEC_BOOT_RECOVERY = 1
      let opens := fun (t : State) (v : State) (obj base bytes : Nat) => ∃ u : State, u.staging = some ⟨base, bytes⟩ ∧ u.get Reg.SEC_UPD_STATE = 1 ∧
        u.get Reg.SEC_UPD_SIZE = size ∧ u.get Reg.SEC_UPD_OBJ = obj % 2 ^ 16 ∧ v.KeepsFields u [Reg.SEC_UPD_STATE, Reg.SEC_UPD_SIZE, Reg.SEC_UPD_OBJ] ∧
        u = { v with fields := u.fields, staging := u.staging } ∧ u.Responds t 0 []
      (s.flashBusy = true → Does .imgBegin s fun t => s.Responds t 4 []) ∧
      (s.flashBusy = false → 0x4000000 < size → Does .imgBegin s fun t => s.Responds t 3 []) ∧
      (s.flashBusy = false → size ≤ 0x4000000 → recovery → Does .imgBegin s fun t => ∃ v : State,
        v = { s with mem := v.mem, nonzero := v.nonzero, poison := v.poison, pages := v.pages } ∧
        (∀ b, memByte v.mem b = if b < 0x4000000 then 0 else memByte s.mem b) ∧ opens t v 0 0 0x4000000) ∧
      (s.flashBusy = false → size ≤ 0x4000000 → ¬recovery →
        (∀ o, s.stagingObj id size = some o → Does .imgBegin s fun t => opens t s id o.base o.size) ∧
        (s.stagingObj id size = none → Does .imgBegin s fun t => s.Responds t 3 []))) ∧
    (s.Asked 0x21 → booted →
      let off := word 1 % 2 ^ 32
      let len := word 1 / 2 ^ 32 % 2 ^ 8
      let fits := s.get Reg.SEC_UPD_STATE = 1 ∧ off % 8 = 0 ∧ 1 ≤ len ∧ len ≤ 48 ∧ off + len ≤ s.get Reg.SEC_UPD_SIZE
      (s.staging = none ∨ ¬fits → Does .imgData s fun t => s.Responds t 3 []) ∧
      (∀ g a v, s.staging = some g → fits → a = g.base + off → a % 256 + len ≤ 256 → v = ({ s with staging := none } : State) → v.Writable a →
        v.cachedLines (granuleOf a) = [] → Does .imgData s fun t => ∃ u : State, u.staging = some g ∧
          v.Stores u a ((wordsToBytes ((List.range 6).map fun i => word (2 + i))).take len) ∧ u.chambers = s.chambers ∧ u.Responds t 0 [])) ∧
    (∀ sigOk, s.Asked 0x22 → booted → (s.staging = none ∨ s.get Reg.SEC_UPD_STATE ≠ 1 → Does (.imgCommit sigOk) s fun t => s.Responds t 3 []) ∧
      (∀ g c, s.staging = some g → s.get Reg.SEC_UPD_STATE = 1 → c = s.verifyImage (s.stagedReader g.base) sigOk true →
        (c = 0 → Does (.imgCommit sigOk) s fun t => ∃ u : State, u.get Reg.SEC_UPD_STATE = 2 ∧ s.OnlyFields u [Reg.SEC_UPD_STATE] ∧ u.Responds t 0 [0]) ∧
        (c ≠ 0 → Does (.imgCommit sigOk) s fun t => ∃ u : State, u.get Reg.SEC_UPD_STATE = 6 ∧ u.get Reg.SEC_UPD_CAUSE = c % 16 ∧
          s.KeepsFields u [Reg.SEC_UPD_STATE, Reg.SEC_UPD_CAUSE] ∧ u = { s with fields := u.fields, staging := none } ∧ u.Responds t 3 [c]))) ∧
    (∀ sigOk readable b, b = bankBase s.otherBank →
      (s.staging = none → exec (.imageFlashWrite sigOk readable) s = .next s) ∧
      (∀ g, s.staging = some g →
        let stage := s.get Reg.SEC_UPD_STATE
        let goes := fun (t : State) (n : Nat) => t.get Reg.SEC_UPD_STATE = n ∧ s.KeepsFields t [Reg.SEC_UPD_STATE] ∧ t = { s with fields := t.fields, flash := t.flash }
        (stage = 2 → Does (.imageFlashWrite sigOk readable) s fun t => goes t 3 ∧
          ∀ i, mapGet erased t.flash i = if b ≤ i ∧ i < b + 0x4000000 then 0xFF else mapGet erased s.flash i) ∧
        (stage = 3 → Does (.imageFlashWrite sigOk readable) s fun t => goes t 4 ∧
          ∀ i, mapGet erased t.flash i = if b ≤ i ∧ i < b + s.get Reg.SEC_UPD_SIZE then memByte s.mem (g.base + (i - b)) else mapGet erased s.flash i) ∧
        (stage = 4 → s.verifyBank s.otherBank sigOk readable ≠ 0 → Does (.imageFlashWrite sigOk readable) s fun t => t.staging = none ∧
          t.get Reg.SEC_UPD_STATE = 6 ∧ t.get Reg.SEC_UPD_CAUSE = s.verifyBank s.otherBank sigOk readable % 16 ∧ t.flash = s.flash) ∧
        (stage = 4 → s.verifyBank s.otherBank sigOk readable = 0 → Does (.imageFlashWrite sigOk readable) s fun t => t.staging = none ∧
          t.get Reg.SEC_UPD_STATE = 5 ∧ s.KeepsFields t [Reg.SEC_UPD_STATE] ∧ ∀ i, 0x10000 ≤ i → mapGet erased t.flash i = mapGet erased s.flash i))) ∧
    (let i := max s.attCounter (8192 * s.get Reg.SEC_ATT_THERMO)
     (st < 2 ∨ s.keyBad = true ∨ s.get Reg.SEC_ATT_READY = 1 ∨ 2 ^ 20 ≤ i → exec .bottomTreeBuild s = .next s) ∧
     (2 ≤ st → s.keyBad = false → s.get Reg.SEC_ATT_READY = 0 → i < 2 ^ 20 → Does .bottomTreeBuild s fun t =>
       t.topLeaf = i ∧ t.attCounter = i + 1 ∧ t.get Reg.SEC_ATT_BOTTOM_LEFT = 1024 ∧ t.get Reg.SEC_ATT_READY = 1 ∧
       t.get Reg.SEC_ATT_THERMO = (if (i + 1) % 8192 = 0 then (s.get Reg.SEC_ATT_THERMO + 1) % 2 ^ 8 else s.get Reg.SEC_ATT_THERMO) ∧
       s.KeepsFields t [Reg.SEC_ATT_TOP_NEXT, Reg.SEC_ATT_BOTTOM_LEFT, Reg.SEC_ATT_READY, Reg.SEC_ATT_THERMO] ∧
        t = { s with fields := t.fields, straps := t.straps, attCounter := i + 1, topLeaf := i })) ∧
    (∀ (sig : List Byte) (a n : Nat), s.Asked 0x30 → st = 2 ∨ st = 3 ∨ st = 4 → a = word 5 % 2 ^ 48 →
      (s.get Reg.SEC_ATT_READY ≠ 1 → s.keyBad = true ∨ 2 ^ 20 ≤ s.nextLeaf → Does (.attest sig) s fun t => s.Responds t 2 []) ∧
      (s.get Reg.SEC_ATT_READY ≠ 1 → s.keyBad = false → s.nextLeaf < 2 ^ 20 → Does (.attest sig) s fun t => s.Responds t 4 []) ∧
      (s.get Reg.SEC_ATT_READY = 1 → a % 64 ≠ 0 → Does (.attest sig) s fun t => s.Responds t 3 []) ∧
      (∀ v, s.get Reg.SEC_ATT_READY = 1 → a % 64 = 0 → State.lanternWrite 16 s a (s.reportBody ++ fitBytes 3284 sig) = (false, n, v) →
        Does (.attest sig) s fun t => ∃ u : State, u.mem = v.mem ∧ u.get Reg.SEC_ATT_BOTTOM_LEFT = (s.get Reg.SEC_ATT_BOTTOM_LEFT - 1) % 2 ^ 11 ∧
          v.OnlyFields u [Reg.SEC_ATT_BOTTOM_LEFT, Reg.SEC_ATT_READY] ∧ u.Responds t 0 [])) ∧
    (s.Asked 0x41 → st = 1 ∨ st = 2 ∨ st = 4 ∨ (st = 3 ∧ s.get Reg.TWN_STATE_STATE = 6) → Does .coldRestart s fun t =>
      ∃ u : State, s.Responds u 0 [] ∧ u.ColdReset t 7 0)

/-- The debug space and the JTAG port in Run (R438 to R440). A public instruction shifts out its register and ends an access to the debug space; the debug
register and the instructions that reach it read and write a chamber's state while it is IDLE or HALT, are counted on any other chamber, return open values for
other units, and nothing once debug is closed. -/
def Obligations.ScanAndDebug : Prop :=
  ∀ s : State, s.InRun →
    let scan := fun (t : State) (j : Jtag) => t.jtag = j ∧ t.get Reg.SEC_DBG_JTAG_ACTIVE = 0 ∧ s.KeepsFields t [Reg.SEC_DBG_JTAG_ACTIVE] ∧
      t = { s with fields := t.fields, jtag := t.jtag }
    (∀ tdi : Word, Does (.bypass tdi) s fun t => scan t { s.jtag with out := 2 * tdi.toNat % 2 ^ 64, extest := false }) ∧
    (Does .idcode s fun t => scan t { s.jtag with
      out := s.get Reg.GLB_ID_STEPPING % 16 * 2 ^ 28 + s.get Reg.GLB_ID_PART * 2 ^ 12 + 0x3A7 * 2 + 1, extest := false }) ∧
    (∀ pins preload : Nat, (Does (.samplePreload pins preload) s fun t => scan t ⟨pins, preload, false⟩) ∧
      Does (.extest pins preload) s fun t => scan t ⟨pins, preload, true⟩) ∧
    (s.get Reg.SEC_DBG_CLOSED = 1 →
      (∀ addr w, exec (.jtagPrivateAccess addr w) s = .next { s with jtag := { s.jtag with out := 0, extest := false } }) ∧
      (∀ v, Does (.debugDataAccess (some v)) s fun t => s.CountsGlobalViol t 4 4 0x6C00050) ∧
      Does (.debugDataAccess none) s fun t => ∃ v, s.CountsGlobalViol v 4 4 0x6C00050 ∧ t = { v with hostReply := (zeroBytes 8, false) }) ∧
    (s.get Reg.SEC_DBG_CLOSED = 0 → ∀ (addr : BitVec 48) (w : Option Word),
      let unit := addr.toNat / 2 ^ 40
      let off := addr.toNat % 2 ^ 40
      let n := unit - 0x10
      let viaJtag := fun (v : State) (x : Word) => Does (.jtagPrivateAccess addr w) s fun t => t.jtag = { s.jtag with out := x.toNat, extest := false } ∧
        t.get Reg.SEC_DBG_JTAG_ACTIVE = 1 ∧ v.KeepsFields t [Reg.SEC_DBG_JTAG_ACTIVE] ∧ t = { v with fields := t.fields, jtag := t.jtag }
      let window := fun (v : State) (x : Word) => addr.toNat = s.get Reg.SEC_DBG_ADDR_ADDR → Does (.debugDataAccess w) s fun t =>
        t.get Reg.SEC_DBG_ADDR_ADDR = (addr.toNat + 8) % 2 ^ 48 ∧ t.get Reg.SEC_DBG_DATA_DATA = x.toNat ∧ (w = none → t.hostReply = (leBytes 8 x.toNat, false)) ∧
        v.KeepsFields t [Reg.SEC_DBG_ADDR_ADDR, Reg.SEC_DBG_DATA_DATA] ∧ t = { v with fields := t.fields, hostReply := t.hostReply }
      (unit < 0x10 ∨ 0x2C ≤ unit → ∀ v, v = ({ s with freeCount := s.freeCount + 1 } : State) →
        viaJtag v (Config.freeWord s.freeCount) ∧ window v (Config.freeWord s.freeCount)) ∧
      (0x10 ≤ unit → unit < 0x2C → s.chState n ≠ 1 → s.chState n ≠ 4 → ∃ v, s.CountsViol v n 0 0 ∧ viaJtag v 0 ∧ window v 0) ∧
      (0x10 ≤ unit → unit < 0x2C → s.chState n = 1 ∨ s.chState n = 4 →
        (w = none → viaJtag s (BitVec.ofNat 64 (leNat ((List.range 8).map fun i => s.debugByte n (off + i)))) ∧
          window s (BitVec.ofNat 64 (leNat ((List.range 8).map fun i => s.debugByte n (off + i))))) ∧
        ∀ x, w = some x → ∃ v, v = s.setDebugBytes n off (leBytes 8 x.toNat) ∧ s.OnlyChamber v n ∧ viaJtag v x ∧ window v x))

/-- Cold resets and the cold boot (R429 to R431, R445 to R450, R459, R460, R465). A cause resets every block but what no reset touches; a rail or
level that is no cause does nothing, nor does a trip below its temperatures. A boot that nothing holds takes the selected bank where it passes its
checks, else the other, and ends in service with memory active; with neither it ends in recovery. -/
def Obligations.ColdResets : Prop :=
  ∀ s : State,
    (Does (.powerOn false) s fun t => s.ColdReset t 1 0 ∧ t.tripped = false ∧ t.vddMv = s.vddMv) ∧
    (Does (.powerOn true) s fun t => t.rstLatch = some (1, 0) ∧ t.tripped = false ∧ ∃ u, s.ColdReset u 1 0 ∧ t = { u with rstLatch := some (1, 0) }) ∧
    (Does .pwrRstNAssert s fun t => s.ColdReset t 2 0 ∧ t.tripped = false ∧ t.vddMv = s.vddMv) ∧
    (Does .referenceLoss s fun t => s.ColdReset t 5 0 ∧ t.tripped = s.tripped ∧ t.vddMv = s.vddMv) ∧
    (∀ r : BitVec 4, (r.toNat < 1 ∨ 8 < r.toNat → exec (.railUndervoltage r) s = .next s) ∧
      (1 ≤ r.toNat → r.toNat ≤ 8 → Does (.railUndervoltage r) s fun t => s.ColdReset t 4 r.toNat ∧ t.tripped = s.tripped ∧ t.vddMv = s.vddMv)) ∧
    (∀ mv : BitVec 16, (660 ≤ mv.toNat → exec (.coreResetLevel mv) s = .next s) ∧
      (mv.toNat < 660 → Does (.coreResetLevel mv) s fun t => s.ColdReset t 3 0 ∧ t.tripped = s.tripped ∧ t.vddMv = mv.toNat)) ∧
    (∀ logic dram : BitVec 12, (logic.toNat < 1760 → dram.toNat < 1680 → exec (.thermalTrip logic dram) s = .next s) ∧
      (1760 ≤ logic.toNat ∨ 1680 ≤ dram.toNat → Does (.thermalTrip logic dram) s fun t => s.ColdReset t 6 0 ∧ t.tripped = true ∧ t.vddMv = s.vddMv)) ∧
    ∀ c : BootCheck, (s.inReset = false ∨ s.tripped = true → exec (.coldBoot c) s = .next s) ∧
      (s.inReset = true → s.tripped = false →
        let u := (s.fitFlash c.fitted).bootStart
        let check := fun b : Nat => u.verifyBank b (bit c.sigOk.toNat b) (bit c.readable.toNat b)
        let sel := u.selectedBank
        (check sel ≠ 0 → check (1 - sel) ≠ 0 → Does (.coldBoot c) s fun t =>
          t.inReset = false ∧ t.get Reg.SEC_BOOT_RECOVERY = 1 ∧ t.get Reg.MBX_CTL_STATE = 1 ∧ t.get Reg.SEC_BOOT_CAUSE_SEL = check sel % 16 ∧
          t.get Reg.SEC_BOOT_CAUSE_ALT = check (1 - sel) % 16 ∧
          u.OnlyFields t [Reg.SEC_BOOT_RECOVERY, Reg.MBX_CTL_STATE, Reg.SEC_BOOT_CAUSE_SEL, Reg.SEC_BOOT_CAUSE_ALT]) ∧
        ∀ b, (b = sel ∧ check sel = 0) ∨ (b = 1 - sel ∧ check sel ≠ 0 ∧ check b = 0) → Does (.coldBoot c) s fun t =>
          t.inReset = false ∧ t.rstLatch = none ∧ t.memActive = true ∧ t.keyBad = !c.keysOk ∧ t.get Reg.MBX_CTL_STATE = 2 ∧
          t.get Reg.SEC_BOOT_BANK = b % 2 ∧ t.image = imageValues (u.bankReader b) ∧
          (∀ x, s.rstLatch = some x → t.get Reg.PCR_RST_CAUSE_CAUSE = x.1 % 16 ∧ t.get Reg.PCR_RST_CAUSE_RAIL = x.2 % 16) ∧
          (check sel ≠ 0 → t.get Reg.SEC_BOOT_FALLBACK = 1 ∧ t.get Reg.SEC_BOOT_CAUSE_SEL = check sel % 16) ∧
          (c.failed = 0 → ∀ n < 28, t.chState n = if bit (t.get Reg.GLB_CHMAP_ENABLED) n = true ∧
            (t.get Reg.GLB_ROLE_KEEPER ≠ 1 ∨ ∀ m < n, bit (t.get Reg.GLB_CHMAP_ENABLED) m = false) then 1 else 0))

/-- Brownout Hold, the power states and the governor (R453 to R458, R461 to R464). A dip below the warning level holds every running chamber, and
the sixteenth in a second latches Hold; its end, or a release of the latch, puts them back. Doze and Keep are entered on request once their
conditions have held long enough, and left for work. An interval that finds a limit exceeded lowers one duty by one, never below its floor, one
well below every limit raises one; limits written are cut to their ceilings. -/
def Obligations.PowerAndGovernor : Prop :=
  (∀ (s : State) (mv : BitVec 16), (705 ≤ mv.toNat → exec (.dipStart mv) s = .next s) ∧
    (mv.toNat < 705 → s.held = true → exec (.dipStart mv) s = .next { s with vddMv := mv.toNat }) ∧
    (mv.toNat < 705 → s.held = false → Does (.dipStart mv) s fun t =>
      let latch := ∃ c, s.dips[15]? = some c ∧ s.cycle - c < 1700000000
      t.held = true ∧ t.vddMv = mv.toNat ∧ t.holdSince = s.cycle ∧ t.dips = (s.cycle :: s.dips).take 16 ∧
      (∀ n < 28, t.chState n = if s.chState n = 2 then 5 else s.chState n) ∧
      (latch → t.get Reg.PCR_BROWN_COUNT_LATCHED = 1 ∧ t.get Reg.ERR_STATUS_WRITTEN = (s.get Reg.ERR_STATUS_WRITTEN + 1) % 2 ^ 32) ∧
      (¬latch → t.get Reg.PCR_BROWN_COUNT_LATCHED = s.get Reg.PCR_BROWN_COUNT_LATCHED ∧ t.irq = s.irq) ∧
      t = { s with fields := t.fields, chambers := t.chambers, irq := t.irq, vddMv := t.vddMv, holdSince := t.holdSince, dips := t.dips })) ∧
  (∀ s : State,
    let latched := s.get Reg.PCR_BROWN_COUNT_LATCHED = 1
    let back := fun t : State => t.held = false ∧ t.mem = s.mem ∧
      ∀ n < 28, t.chState n = (if s.chState n = 5 then (s.ch n).savedState % 8 else s.chState n) ∧
        (t.ch n).waitSince = (s.ch n).waitSince.map fun w => { w with since := w.since + (s.cycle - s.holdSince) }
    (∀ minMv mv : BitVec 16, (s.held = false ∨ mv.toNat ≤ 720 → exec (.dipEnd minMv mv) s = .next s) ∧
      (s.held = true → 720 < mv.toNat → latched → Does (.dipEnd minMv mv) s fun t =>
        t.get Reg.PCR_BROWN_COUNT_MIN_MV = minMv.toNat ∧ s.KeepsFields t [Reg.PCR_BROWN_COUNT_MIN_MV] ∧ t = { s with fields := t.fields, vddMv := mv.toNat }) ∧
      (s.held = true → 720 < mv.toNat → ¬latched → s.deferred = [] → Does (.dipEnd minMv mv) s fun t => back t ∧
        t.get Reg.PCR_BROWN_COUNT_MIN_MV = minMv.toNat ∧ t.get Reg.PCR_BROWN_COUNT_COUNT = min (s.get Reg.PCR_BROWN_COUNT_COUNT + 1) (2 ^ 32 - 1))) ∧
    (¬(latched ∧ 720 < s.vddMv) → Does .brownRelease s fun t => s.CountsGlobalViol t 0 0 0x6400020) ∧
    (latched → 720 < s.vddMv → s.deferred = [] → Does .brownRelease s fun t => back t ∧ t.dips = [] ∧ t.get Reg.PCR_BROWN_COUNT_LATCHED = 0)) ∧
  (∀ s : State,
    let idle := s.get Reg.PCR_PSTATE_IDLE_US * 1700
    let req := s.get Reg.PCR_PSTATE_REQ
    let st := s.get Reg.PCR_PSTATE_STATE
    let dozes := (req = 1 ∨ req = 2) ∧ st = 0 ∧ s.inReset = false ∧ s.mayDoze = true ∧ idle ≤ s.dozeIdle
    let keeps := req = 2 ∧ st ≠ 2 ∧ s.inReset = false ∧ s.mayKeep = true ∧ idle ≤ s.keepIdle
    let rests := fun t : State => ∀ n < 28, t.chState n = if s.chState n = 1 ∨ s.chState n = 4 then 6 else s.chState n
    let wakes := fun t : State => t.get Reg.PCR_PSTATE_STATE = 0 ∧ t.mem = s.mem ∧
      ∀ n < 28, t.chState n = if s.chState n = 6 then (s.ch n).savedState % 8 else s.chState n
    (¬dozes → exec .dozeEntry s = .next s) ∧
    (dozes → s.held = true → exec .dozeEntry s = .next { s with deferred := s.deferred ++ [.pstate 1] }) ∧
    (dozes → s.held = false → Does .dozeEntry s fun t => t.get Reg.PCR_PSTATE_STATE = 1 ∧ rests t ∧
      t = { s with fields := t.fields, chambers := t.chambers }) ∧
    (¬keeps → exec .keepEntry s = .next s) ∧
    (keeps → s.held = true → exec .keepEntry s = .next { s with deferred := s.deferred ++ [.pstate 2] }) ∧
    (keeps → s.held = false → Does .keepEntry s fun t => t.get Reg.PCR_PSTATE_STATE = 2 ∧ rests t ∧
      ∀ n < 8, t.get (Reg.HGPn_STATUS_STATE n) = 0 ∧ (t.arb (96 + n)).credit = Vector.replicate 8 0 ∧ (t.arb (96 + n)).age = Vector.replicate 8 0) ∧
    (st = 0 → exec .powerStateExit s = .next s) ∧
    (st ≠ 0 → s.held = true → exec .powerStateExit s = .next { s with deferred := s.deferred ++ [.wake] }) ∧
    (st ≠ 0 → s.held = false → Does .powerStateExit s fun t => wakes t) ∧
    (∀ r : BitVec 2, (r = 1 ∨ r = 2 ∨ (r = 0 ∧ st = 0) → Does (.pstateRequest r) s fun t =>
        t.get Reg.PCR_PSTATE_REQ = r.toNat ∧ s.OnlyFields t [Reg.PCR_PSTATE_REQ]) ∧
      (r = 0 → st ≠ 0 → s.held = false → Does (.pstateRequest r) s fun t => t.get Reg.PCR_PSTATE_REQ = 0 ∧ wakes t) ∧
      (r = 3 → st = 0 → Does (.pstateRequest r) s fun t => ∃ v : State, v.get Reg.PCR_PSTATE_REQ = 3 ∧ s.OnlyFields v [Reg.PCR_PSTATE_REQ] ∧
        v.CountsGlobalViol t 0 0 0x6400010))) ∧
  ∀ s : State,
    let a := s.get Reg.PCR_GOV_STAT_DUTY_A
    let h := s.get Reg.PCR_GOV_STAT_DUTY_H
    let icc := s.get Reg.PCR_GOV_CFG_ICC_A
    (∀ g : GovSample,
      let above : List (Nat × Prop) := [(0, 1000 * s.get Reg.PCR_GOV_CFG_PL1_W < g.pl1.toNat), (1, 1000 * s.get Reg.PCR_GOV_CFG_PL2_W < g.pl2.toNat),
        (2, 1000 * icc < g.icc.toNat ∨ s.iccSeen = true), (3, 16 * s.get Reg.PCR_THERM_CFG_LOGIC_TGT < g.logic.toNat),
        (4, 16 * s.get Reg.PCR_THERM_CFG_DRAM_TGT < g.dram.toNat)]
      let hot := 16 * s.get Reg.PCR_THERM_CFG_DRAM_TGT < g.dram.toNat
      let other := ∃ x ∈ above, x.1 ≠ 4 ∧ x.2
      let easy := 100 * g.pl1.toNat ≤ 98 * (1000 * s.get Reg.PCR_GOV_CFG_PL1_W) ∧ 100 * g.pl2.toNat ≤ 98 * (1000 * s.get Reg.PCR_GOV_CFG_PL2_W) ∧
        100 * g.icc.toNat ≤ 98 * (1000 * icc) ∧ s.iccSeen = false ∧ g.logic.toNat + 32 ≤ 16 * s.get Reg.PCR_THERM_CFG_LOGIC_TGT ∧
        g.dram.toNat + 32 ≤ 16 * s.get Reg.PCR_THERM_CFG_DRAM_TGT
      let duty := fun (t : State) (x y : Nat) => t.get Reg.PCR_GOV_STAT_DUTY_A = x ∧ t.get Reg.PCR_GOV_STAT_DUTY_H = y
      let aFirst := fun t : State => duty t (if 8 < a then a - 1 else a) (if a ≤ 8 ∧ 8 < h then h - 1 else h)
      let hFirst := fun t : State => duty t (if h ≤ 8 ∧ 8 < a then a - 1 else a) (if 8 < h then h - 1 else h)
      a ≤ 64 → h ≤ 64 → Does (.governorInterval g) s fun t =>
        (∀ x ∈ above, bit (t.get Reg.PCR_GOV_STAT_LIMITER) x.1 = true ↔ x.2) ∧ t.get Reg.PCR_GOV_STAT_POWER_W = g.power.toNat / 1000 % 2 ^ 16 ∧
        t.get Reg.PCR_TEMP_LOGIC_DEG = g.logic.toNat ∧ t.get Reg.PCR_TEMP_DRAM_DEG = g.dram.toNat ∧ t.iccSeen = false ∧
        (other → ¬hot → aFirst t ∧ t.govDram = false) ∧ (¬other → hot → hFirst t ∧ t.govDram = true) ∧ (other → hot → aFirst t ∨ hFirst t) ∧
        (¬other → ¬hot → ¬easy → duty t a h) ∧
        (easy → s.govDram = false → duty t (if 64 ≤ h ∧ a < 64 then a + 1 else a) (if h < 64 then h + 1 else h)) ∧
        (easy → s.govDram = true → duty t (if a < 64 then a + 1 else a) (if 64 ≤ a ∧ h < 64 then h + 1 else h)) ∧
        s.KeepsFields t [Reg.PCR_GOV_STAT_POWER_W, Reg.PCR_GOV_STAT_LIMITER, Reg.PCR_TEMP_LOGIC_DEG, Reg.PCR_TEMP_DRAM_DEG, Reg.PCR_GOV_STAT_DUTY_A,
          Reg.PCR_GOV_STAT_DUTY_H] ∧ t = { s with fields := t.fields, freeCount := t.freeCount, iccSeen := false, govDram := t.govDram }) ∧
    (∀ ma : BitVec 24, (ma.toNat ≤ 1000 * icc → exec (.iccExcess ma) s = .next s) ∧
      (1000 * icc < ma.toNat → a ≤ 64 → Does (.iccExcess ma) s fun t => t.get Reg.PCR_GOV_STAT_DUTY_A = max 8 (a - 8) ∧
        s.KeepsFields t [Reg.PCR_GOV_STAT_DUTY_A] ∧ t = { s with fields := t.fields, iccSeen := true, govDram := false })) ∧
    ∀ v : Word,
      let power := fun t : State => t.get Reg.PCR_GOV_CFG_PL1_W = min (v.toNat % 2 ^ 16) 850 ∧ t.get Reg.PCR_GOV_CFG_PL2_W = min (v.toNat / 2 ^ 16 % 2 ^ 16) 1000 ∧
        t.get Reg.PCR_GOV_CFG_ICC_A = min (v.toNat / 2 ^ 32 % 2 ^ 16) 1100 ∧ t.get Reg.PCR_GOV_CFG_TAU_MS = v.toNat / 2 ^ 48 ∧
        s.OnlyFields t [Reg.PCR_GOV_CFG_PL1_W, Reg.PCR_GOV_CFG_PL2_W, Reg.PCR_GOV_CFG_ICC_A, Reg.PCR_GOV_CFG_TAU_MS]
      let temp := fun t : State => t.get Reg.PCR_THERM_CFG_LOGIC_TGT = min (v.toNat % 2 ^ 8) 100 ∧ t.get Reg.PCR_THERM_CFG_DRAM_TGT = min (v.toNat / 2 ^ 8 % 2 ^ 8) 95 ∧
        s.OnlyFields t [Reg.PCR_THERM_CFG_LOGIC_TGT, Reg.PCR_THERM_CFG_DRAM_TGT]
      let fits := v.toNat % 2 ^ 16 ≤ 850 ∧ v.toNat / 2 ^ 16 % 2 ^ 16 ≤ 1000 ∧ v.toNat / 2 ^ 32 % 2 ^ 16 ≤ 1100
      let cool := v.toNat % 2 ^ 8 ≤ 100 ∧ v.toNat / 2 ^ 8 ≤ 95
      (fits → Does (.govLimitWrite false v) s power) ∧
      (¬fits → Does (.govLimitWrite false v) s fun t => ∃ x, power x ∧ x.CountsGlobalViol t 0 0 0x6400028) ∧
      (cool → Does (.govLimitWrite true v) s temp) ∧
      (¬cool → v.toNat % 2 ^ 8 > 100 ∨ v.toNat / 2 ^ 8 % 2 ^ 8 > 95 → Does (.govLimitWrite true v) s fun t => ∃ x, temp x ∧ x.CountsGlobalViol t 0 0 0x6400038)

/-- The service panel in Run (R467 to R476). A press counts once its button has been released: on a slot in service it starts a drain or is refused
with its reason, on a draining slot it cancels one that a press began within five seconds, on one that holds a cartridge out of service it begins
an add, and elsewhere it is refused. A latch that closes on a cartridge resets it and begins its add; one that opens, or a cartridge that leaves,
resets it, or loses it where it is in service. The device button asks for a handover, or takes one back. -/
def Obligations.ServicePanel : Prop :=
  ∀ (s : State) (m : Fin 6), s.InRun →
    let st := s.slotState m
    let shown := fun (t : State) (f : FieldRef) (v : Nat) (e : FieldRef) => t.get f = v ∧ bit (t.get e) m = true
    let pressed := fun t : State => shown t (Reg.SVC_SLOTm_BUTTON m) 1 Reg.SVC_EVENT_SLOT_BTN
    let refused := fun (t : State) (c : Nat) => pressed t ∧ t.get (Reg.SVC_SLOTm_REFUSED m) = c ∧ mapGet 0 t.slotCode m = c ∧
      t.get Reg.FLS_DRAIN_REASON = c ∧ t = { s with fields := t.fields, irq := t.irq, slotCode := t.slotCode }
    let service := 2 ≤ s.get Reg.MBX_CTL_STATE
    let reset := fun t : State => (t.arb (104 + m)).credit = Vector.replicate 8 0 ∧ (t.arb (104 + m)).age = Vector.replicate 8 0 ∧
      t.get (Reg.SVC_SLOTm_ADD_FAIL m) = 0 ∧ t = { s with fields := t.fields, irq := t.irq, slotPower := t.slotPower, arbs := t.arbs }
    let empties := fun t : State => reset t ∧ (s.resetOf (Reg.BMCm_STATE_STATE m).key = 0 → t.slotState m = 0)
    let press := Instr.slotButtonPress m
    (s.get (Reg.SVC_SLOTm_BUTTON m) = 1 → exec press s = .next s) ∧
    (s.get (Reg.SVC_SLOTm_BUTTON m) ≠ 1 →
      (st = 3 → s.drainReason m = 0 → Does press s fun t => pressed t ∧ t.slotState m = 4 ∧ t.drainPress = some s.cycle ∧ t.drainCmd = none ∧
        t.get Reg.FLS_DRAIN_SLOT = m.val ∧ t.chambers = s.chambers ∧ t.objects = s.objects ∧ t.pages = s.pages) ∧
      (∀ c, st = 3 → s.drainReason m = c → c ≠ 0 → Does press s fun t => refused t c) ∧
      (∀ c, st = 4 → s.drainPress = some c → s.cycle - c ≤ 8500000000 → s.drainCmd = none → Does press s fun t => pressed t ∧ t.slotState m = 3 ∧
        t.drainPress = none ∧ t.chambers = s.chambers ∧ t.objects = s.objects ∧ t.pages = s.pages) ∧
      (st = 4 → (∀ c, s.drainPress = some c → 8500000000 < s.cycle - c) → Does press s fun t => pressed t ∧ t = { s with fields := t.fields, irq := t.irq }) ∧
      (st = 1 ∨ st = 5 → service → Does press s fun t => pressed t ∧ t.slotState m = 2 ∧ mapGet false t.slotPower m = true ∧
        t = { s with fields := t.fields, irq := t.irq, slotPower := t.slotPower }) ∧
      (st = 0 ∨ st = 2 ∨ st = 6 ∨ ((st = 1 ∨ st = 5) ∧ ¬service) → Does press s fun t => refused t 4)) ∧
    (Does (.buttonRelease (Fin.castSucc m)) s fun t => t.get (Reg.SVC_SLOTm_BUTTON m) = 0 ∧ s.OnlyFields t [Reg.SVC_SLOTm_BUTTON m]) ∧
    (Does (.buttonRelease 6) s fun t => t.get Reg.SVC_DEV_BUTTON = 0 ∧ s.OnlyFields t [Reg.SVC_DEV_BUTTON]) ∧
    (Does (.codePatternEnd (Fin.castSucc m)) s fun t => mapGet 0 t.slotCode m = 0 ∧ t = { s with slotCode := t.slotCode } ∧
      ∀ k, k ≠ m.val → mapGet 0 t.slotCode k = mapGet 0 s.slotCode k) ∧
    (exec (.codePatternEnd 6) s = .next { s with devCode := 0 }) ∧
    (Does (.cartridgeInserted m) s fun t => t.get (Reg.SVC_SLOTm_PRESENT m) = 1 ∧ s.OnlyFields t [Reg.SVC_SLOTm_PRESENT m]) ∧
    (let latch := s.get (Reg.SVC_SLOTm_LATCH m) = 1
     let there := s.get (Reg.SVC_SLOTm_PRESENT m) = 1
     let closed := fun t : State => shown t (Reg.SVC_SLOTm_LATCH m) 1 Reg.SVC_EVENT_SLOT_LATCH
     let opened := fun t : State => shown t (Reg.SVC_SLOTm_LATCH m) 0 Reg.SVC_EVENT_SLOT_LATCH
     let lost := (st = 3 ∨ st = 4) ∧ s.drainCmd = none ∧ ∀ v ∈ s.moves, v.started = false
     (latch → exec (.latchClose m) s = .next s) ∧
     (¬latch → ¬(there ∧ service) → Does (.latchClose m) s fun t => closed t ∧ t = { s with fields := t.fields, irq := t.irq }) ∧
     (¬latch → there → service → Does (.latchClose m) s fun t => closed t ∧ reset t ∧ t.slotState m = 2 ∧ mapGet false t.slotPower m = true) ∧
     (¬latch → exec (.latchOpen m) s = .next s) ∧
     (latch → st = 0 → Does (.latchOpen m) s fun t => opened t ∧ t = { s with fields := t.fields, irq := t.irq }) ∧
     (latch → st ≠ 0 → st ≠ 3 → st ≠ 4 → Does (.latchOpen m) s fun t => opened t ∧ empties t) ∧
     (latch → lost → Does (.latchOpen m) s fun t => opened t ∧ t.slotState m = 6 ∧ t.objects = s.objects ∧ t.chambers = s.chambers) ∧
     (¬there → exec (.cartridgeRemoved m) s = .next s) ∧
     (there → ¬latch ∨ st = 0 → Does (.cartridgeRemoved m) s fun t => t.get (Reg.SVC_SLOTm_PRESENT m) = 0 ∧ s.OnlyFields t [Reg.SVC_SLOTm_PRESENT m]) ∧
     (there → latch → st ≠ 0 → st ≠ 3 → st ≠ 4 → Does (.cartridgeRemoved m) s fun t => t.get (Reg.SVC_SLOTm_PRESENT m) = 0 ∧ empties t) ∧
     (there → latch → lost → Does (.cartridgeRemoved m) s fun t => t.get (Reg.SVC_SLOTm_PRESENT m) = 0 ∧ t.slotState m = 6 ∧ t.objects = s.objects)) ∧
    (∀ (c128 : Bool) (cause : Fin 4),
      (st ≠ 2 → exec (.cartridgeAddComplete m c128) s = .next s ∧ exec (.cartridgeAddFail m cause) s = .next s) ∧
      (st = 2 → s.Calm → Does (.cartridgeAddComplete m c128) s fun t => t.slotState m = 3 ∧ t.get (Reg.BMCm_STATE_KIND m) = b2n c128 ∧
        t.get (Reg.BMCm_STATE_CHANNELS m) = 8 ∧ t.get (Reg.SVC_SLOTm_ADD_FAIL m) = 0 ∧ mapGet false t.slotPower m = true ∧
        t = { s with fields := t.fields, irq := t.irq, slotPower := t.slotPower }) ∧
      (st = 2 → Does (.cartridgeAddFail m cause) s fun t => t.slotState m = 1 ∧ t.get (Reg.SVC_SLOTm_ADD_FAIL m) = cause.val + 1 ∧
        mapGet false t.slotPower m = false ∧ t = { s with fields := t.fields, irq := t.irq, slotPower := t.slotPower })) ∧
    ∀ pp ph : Bool,
      let twn := s.get Reg.TWN_STATE_STATE
      let dev := fun t : State => t.get Reg.SVC_DEV_BUTTON = 1 ∧ t.get Reg.SVC_EVENT_DEV_BTN = 1
      let takesBack := twn = 5 ∧ (∃ c, s.handPress = some c ∧ s.cycle - c ≤ 8500000000) ∧ s.handMark = false
      let denied := fun c : Nat => Does (.deviceButtonPress pp ph) s fun t => dev t ∧ t.get Reg.SVC_DEV_REFUSED = c ∧ t.devCode = c ∧
        t.get Reg.TWN_STATE_STATE = twn
      (s.get Reg.SVC_DEV_BUTTON = 1 → exec (.deviceButtonPress pp ph) s = .next s) ∧
      (s.get Reg.SVC_DEV_BUTTON ≠ 1 → s.get Reg.SVC_EVENT_DEV_BTN ≤ 1 →
        (s.get Reg.GLB_ROLE_TWIN ≠ 1 → Does (.deviceButtonPress pp ph) s fun t => dev t ∧ t = { s with fields := t.fields, irq := t.irq }) ∧
        (s.get Reg.GLB_ROLE_TWIN = 1 →
          (takesBack → Does (.deviceButtonPress pp ph) s fun t => dev t ∧ t.get Reg.TWN_STATE_STATE = 2 ∧ t.handPress = none) ∧
          (¬takesBack → s.get Reg.GLB_ROLE_ALONE = 1 → denied 2) ∧
          (¬takesBack → s.get Reg.GLB_ROLE_ALONE ≠ 1 → pp = false ∨ ph = true → denied 3) ∧
          (¬takesBack → s.get Reg.GLB_ROLE_ALONE ≠ 1 → pp = true → ph = false → twn ≠ 2 → denied 4) ∧
          (s.get Reg.GLB_ROLE_ALONE ≠ 1 → pp = true → ph = false → twn = 2 → Does (.deviceButtonPress pp ph) s fun t => dev t ∧
            t.get Reg.TWN_STATE_STATE = 5 ∧ t.handPress = some s.cycle ∧ t.handMark = false)))

/-- The twin engine in Run (R477 to R483). A pair whose windows and nodes obey the rule is formed; one that breaks it stays apart. The oldest write
goes to the partner as a packet in CC3 with recipe 0; a mark is recorded and acknowledged, and the acknowledgement of a side's own commits its step
or posts its keeper's version. Heartbeats are sent when due; one that comes, or fails to, decides a takeover or fences the side; a takeover carries
the partner's node as alias, in ALONE. A handover sends its final mark once the side is quiet, and with its acknowledgement the ports go down; a
resync starts with every granule to copy and ends as a pair. -/
def Obligations.TwinEngine : Prop :=
  ∀ s : State, s.InRun →
    let st := s.get Reg.TWN_STATE_STATE
    let twin := s.get Reg.GLB_ROLE_TWIN = 1
    let alone := s.get Reg.GLB_ROLE_ALONE = 1
    let node := s.get Reg.HGP0_NODE_NODE
    let mismatch := fun c => Does c s fun t => t.get Reg.TWN_STATE_MISMATCH = 1 ∧ s.OnlyFields t [Reg.TWN_STATE_MISMATCH]
    let fenced := fun t : State => t.get Reg.TWN_STATE_STATE = 7 ∧ t.mirrorQ = [] ∧ t.takeoverDue = none ∧ ∀ n < 7, t.get (Reg.HGPn_STATUS_STATE n) = 0
    let ended := fun t : State => (alone → t.get Reg.TWN_STATE_STATE = 3 ∧ t.mirrorQ = []) ∧ (¬alone → fenced t)
    (∀ p : Partner,
      (s.mayPair = false → exec (.twinPairing p) s = .next s) ∧
      (s.mayPair = true → s.pairFits p = false → mismatch (.twinPairing p)) ∧
      (s.mayPair = true → s.pairFits p = true →
        (p.state ≠ 1 → p.state ≠ 2 → exec (.twinPairing p) s = .next s) ∧
        (p.state = 1 ∨ p.state = 2 → Does (.twinPairing p) s fun t => t.get Reg.TWN_STATE_STATE = 2 ∧ t.hbSeenAt = s.cycle ∧
          s.KeepsFields t [Reg.TWN_STATE_STATE, Reg.SVC_EVENT_TWIN] ∧ t = { s with fields := t.fields, irq := t.irq, hbSeenAt := t.hbSeenAt })) ∧
      (s.mayResync p = false → exec (.resyncStart p) s = .next s) ∧
      (s.mayResync p = true → s.pairFits p = false → mismatch (.resyncStart p)) ∧
      (s.mayResync p = true → s.pairFits p = true → Does (.resyncStart p) s fun t => t.get Reg.TWN_STATE_STATE = 4 ∧ t.hbSeenAt = s.cycle ∧
        t.mirrorQ = (if alone then s.resyncGranules else s.mirrorQ) ∧
        (alone → t.get Reg.TWN_PEER_RESYNC_LEFT = (256 * s.resyncGranules.length + (2 ^ 30 - 1)) / 2 ^ 30 % 2 ^ 20) ∧
        t = { s with fields := t.fields, irq := t.irq, hbSeenAt := t.hbSeenAt, mirrorQ := t.mirrorQ })) ∧
    (s.copies = false ∨ s.mirrorQ = [] → exec .mirrorCopy s = .next s) ∧
    (∀ g gs m, s.copies = true → s.mirrorQ = g :: gs → s.pickPort .write 3 (if s.portUp 7 then [7] else s.routePorts (s.get Reg.TWN_CFG_PARTNER) 3) = some m → Does .mirrorCopy s fun t =>
      t.mirrorQ = gs ∧ t.xferSeq = (s.xferSeq + 1) % 2 ^ 24 ∧ t.mem = s.mem ∧ t.chambers = s.chambers ∧
      (t.port m).Holds { Packet.blank .write with
        vl := 3, recipe := 0, src := node, dst := s.get Reg.TWN_CFG_PARTNER, addr := 256 * g, xfer := s.xferSeq % 2 ^ 24, ngran := 1
        data := [memRead s.mem (256 * g) 256], poison := b2n (s.poisoned g) } ∧
      (∀ r, s.trv = some r → t.trv = some { r with mark := r.mark.map (· - 1) }) ∧
      (∀ r, s.trv = some r → r.mark = some 1 → s.kpr = none → t.twinSent = s.twinSent ++ [.mark r.req.stamp])) ∧
    (∀ (stamp : BitVec 32) (final : Bool),
      let ready := twin ∧ st = 2 ∧ ∀ h ∈ s.heldWrites, h.twin = false
      (¬ready → exec (.markReceive stamp final) s = .next s) ∧
      (ready → final = true → exec (.markReceive stamp final) s = .next { s with
        takeoverDue := some 2, twinSent := s.twinSent ++ [.ack (s.get Reg.TWN_PEER_PEER_COMMIT)] }) ∧
      (ready → final = false → Does (.markReceive stamp final) s fun t => t.get Reg.TWN_PEER_PEER_COMMIT = stamp.toNat ∧
        s.KeepsFields t [Reg.TWN_PEER_PEER_COMMIT] ∧ t = { s with fields := t.fields, twinSent := s.twinSent ++ [.ack stamp.toNat] })) ∧
    (let pairs := twin ∧ (st = 2 ∨ st = 5)
     (¬pairs ∨ ((∀ r, s.trv = some r → r.mark ≠ some 0) ∧ ∀ k, s.kpr = some k → k.mark ≠ some 0) → exec .commitAck s = .next s) ∧
     (∀ r, pairs → s.trv = some r → s.get Reg.TRV_STATE_STATE = 4 → r.mark = some 0 → recBits r.plan.header 11 7 0 = 0xFF →
       recBits r.plan.header 11 15 8 = 0xFF → Does .commitAck s fun t => ∃ v : State, s.Releases v r.plan ∧
         t.trv = none ∧ t.get Reg.TRV_STATE_STATE = 0 ∧ t.get Reg.TRV_LAST_STAMP = r.req.stamp % 2 ^ 32 ∧ t.get Reg.TRV_LAST_STATUS = 1 ∧
         t.get Reg.TWN_STATE_OWN_COMMIT = r.req.stamp % 2 ^ 32 ∧ t.get Reg.TRV_STEPS_COMMITTED = (v.get Reg.TRV_STEPS_COMMITTED + 1) % 2 ^ 32 ∧
         (∀ n, n = recBits r.plan.header 12 11 0 → t.sig n = (v.sig n + 1) % 2 ^ 64) ∧ t.mem = v.mem ∧ t.chambers = v.chambers) ∧
     (∀ k n, pairs → s.trv = none → s.kpr = some k → k.mark = some 0 → n = recBits k.header 2 43 32 → k.entries ≠ [] →
       (∀ w ∈ k.entries, recBits w 0 7 0 = 0xFF) → Does .commitAck s fun t => t.sig n = (s.sig n + k.entries.length) % 2 ^ 64 ∧
         t.kpr = some { k with version := k.sends, mode := .run, workers := (k.workers.map fun _ => ⟨0, 0, none⟩), mark := none } ∧ t.mem = s.mem)) ∧
    (let due := ∀ c, s.hbSentAt = some c → s.get Reg.TWN_CFG_HB_US * 1700 ≤ s.cycle - c
     let speaks := twin ∧ due ∧ (st = 2 ∨ st = 3 ∨ st = 4 ∨ st = 5 ∨ st = 7)
     (speaks → exec .heartbeatSend s = .next { s with twinSent := s.twinSent ++ [.heartbeat st], hbSentAt := some s.cycle }) ∧
     (¬speaks → exec .heartbeatSend s = .next s)) ∧
    (¬twin → (∀ p, exec (.heartbeatReceive p) s = .next s) ∧ exec .heartbeatTimeout s = .next s) ∧
    (twin →
      (let heard := fun x : State => x = { s with hbSeenAt := s.cycle }
       (st = 2 ∨ st = 5 → Does (.heartbeatReceive 7) s fun t => ∃ x, heard x ∧ t = { x with takeoverDue := some (s.takeoverDue.getD 3) }) ∧
       (st = 2 ∨ st = 5 → Does (.heartbeatReceive 3) s fenced) ∧
       (st = 4 → Does (.heartbeatReceive 7) s ended) ∧
       (∀ p : BitVec 3, p ≠ 7 → p ≠ 3 ∨ (st ≠ 2 ∧ st ≠ 5) → Does (.heartbeatReceive p) s heard)) ∧
      (let late := s.get Reg.TWN_CFG_DETECT_MS * 1700000 ≤ s.cycle - s.hbSeenAt
       let other := ∃ n < 7, s.portUp n = true
       (¬late ∨ (st ≠ 2 ∧ st ≠ 4 ∧ st ≠ 5) → exec .heartbeatTimeout s = .next s) ∧
       (late → st = 2 ∨ st = 5 → other → exec .heartbeatTimeout s = .next { s with takeoverDue := some (s.takeoverDue.getD 1) }) ∧
       (late → st = 2 ∨ st = 5 → ¬other → Does .heartbeatTimeout s fenced) ∧
       (late → st = 4 → Does .heartbeatTimeout s ended))) ∧
    (s.takeoverDue = none → exec .twinTakeover s = .next s) ∧
    (∀ c, s.takeoverDue = some c → Does .twinTakeover s fun t => t.get Reg.TWN_STATE_STATE = 3 ∧ t.get Reg.TWN_STATE_CAUSE = c % 16 ∧
      t.get Reg.GLB_ROLE_ALONE = 1 ∧ t.get Reg.HGP0_NODE_ALIAS = node % 128 + 128 ∧ t.takeoverDue = none ∧
      t.get Reg.HGP0_NODE_NODE = (if s.get Reg.GLB_ROLE_SIDE = 1 then node % 128 else node) ∧
      (s.get Reg.GLB_ROLE_KEEPER = 1 → t.get Reg.GLB_KPR_STATE_PARTNER = 1) ∧
      t.get Reg.TWN_COUNT_TAKEOVERS = (s.get Reg.TWN_COUNT_TAKEOVERS + 1) % 2 ^ 32) ∧
    (let quiet := s.get Reg.TRV_STATE_STATE = 0 ∧ (∀ k, s.kpr = some k → k.mark = none ∧ ∀ w ∈ k.workers, w.stage = 0)
     let marks := st = 5 ∧ s.handMark = false ∧ quiet ∧ s.mirrorQ = []
     (marks → exec .handoverMark s = .next { s with twinSent := s.twinSent ++ [.handover], handMark := true }) ∧
     (¬marks → exec .handoverMark s = .next s)) ∧
    (¬(st = 5 ∧ s.handMark = true) → exec .handoverComplete s = .next s) ∧
    (st = 5 → s.handMark = true → Does .handoverComplete s fun t => t.get Reg.TWN_STATE_STATE = 6 ∧ t.handMark = false ∧ t.handPress = none ∧
      ∀ n < 8, t.get (Reg.HGPn_STATUS_STATE n) = 0) ∧
    (let done := s.mirrorQ = [] ∧ s.get Reg.TRV_STATE_STATE = 0 ∧ s.kprJobRuns = false
     (st ≠ 4 ∨ (alone ∧ ¬done) → exec .resyncFinish s = .next s) ∧
     (st = 4 → ¬alone → Does .resyncFinish s fun t => t.get Reg.TWN_STATE_STATE = 2 ∧ t.hbSeenAt = s.cycle ∧
       s.KeepsFields t [Reg.TWN_STATE_STATE, Reg.SVC_EVENT_TWIN] ∧ t = { s with fields := t.fields, irq := t.irq, hbSeenAt := t.hbSeenAt }) ∧
     (st = 4 → alone → done → Does .resyncFinish s fun t => t.get Reg.TWN_STATE_STATE = 2 ∧ t.hbSeenAt = s.cycle ∧ t.kprPeer = none ∧
       t.get Reg.HGP0_NODE_ALIAS = 0 ∧ t.get Reg.HGP0_NODE_NODE = (node % 128 + 128 * s.get Reg.GLB_ROLE_SIDE) % 256 ∧ t.get Reg.GLB_ROLE_ALONE = 0 ∧
       t.get Reg.GLB_KPR_STATE_PARTNER = 0 ∧ t.get Reg.TWN_PEER_RESYNC_LEFT = 0 ∧ t.twinSent = s.twinSent ++ [.paired] ∧ t.mem = s.mem ∧
       t.chambers = s.chambers))
end

