-- ==== Sys2Proof/Laws/Map.lean ====
section
/-! SUPPORT. Laws of the sparse maps and byte memories: what a lookup finds after an update, and that every update keeps the canonical form. -/

namespace Sys2Proof.Machine

variable {α : Type}

/-! ## Lookups after updates -/

@[simp] theorem mapFind_nil (k : Nat) : mapFind ([] : Map α) k = none := rfl

theorem mapFind_insert (m : Map α) (k j : Nat) (x : α) :
    mapFind (mapInsert m k x) j = if j = k then some x else mapFind m j := by
  induction m with
  | nil => grind [mapInsert, mapFind]
  | cons e m ih => obtain ⟨a, v⟩ := e; grind [mapInsert, mapFind]

theorem mapFind_erase (m : Map α) (k j : Nat) : mapFind (mapErase m k) j = if j = k then none else mapFind m j := by
  induction m with
  | nil => simp [mapErase]
  | cons e m ih => obtain ⟨a, v⟩ := e; grind [mapErase, mapFind]

/-- The value read after a write is the one written, and every other key reads as before. -/
@[simp] theorem mapGet_set [DecidableEq α] (d : α) (m : Map α) (k j : Nat) (x : α) :
    mapGet d (mapSet d m k x) j = if j = k then x else mapGet d m j := by
  unfold mapGet mapSet
  split <;> rename_i h
  · rw [mapFind_erase]; split <;> simp [h]
  · rw [mapFind_insert]; split <;> rfl

@[simp] theorem mapGet_nil (d : α) (k : Nat) : mapGet d ([] : Map α) k = d := rfl

/-! ## Canonical form -/

theorem mapAbove_mono {m : Map α} {a b : Nat} (h : a ≤ b) (hm : mapAbove b m = true) : mapAbove a m = true := by
  cases m with
  | nil => rfl
  | cons e m => simp only [mapAbove, Bool.and_eq_true, decide_eq_true_eq] at *; exact ⟨by omega, hm.2⟩

theorem mapSorted_of_above {m : Map α} {a : Nat} (h : mapAbove a m = true) : mapSorted m = true := by
  cases m with
  | nil => rfl
  | cons e m => simp only [mapAbove, Bool.and_eq_true] at h; exact h.2

theorem mapAbove_insert {m : Map α} {a k : Nat} {x : α} (h : a < k) (hm : mapAbove a m = true) :
    mapAbove a (mapInsert m k x) = true := by
  induction m generalizing a with
  | nil => simp [mapInsert, mapAbove, h]
  | cons e m ih =>
    obtain ⟨b, v⟩ := e
    simp only [mapAbove, Bool.and_eq_true, decide_eq_true_eq] at hm
    simp only [mapInsert]
    split
    · simp [mapAbove, *]
    · split
      · subst_vars; simp [mapAbove, *]
      · simp only [mapAbove, Bool.and_eq_true, decide_eq_true_eq]
        exact ⟨hm.1, ih (by omega) hm.2⟩

theorem mapSorted_insert {m : Map α} {k : Nat} {x : α} (hm : mapSorted m = true) : mapSorted (mapInsert m k x) = true := by
  cases m with
  | nil => rfl
  | cons e m =>
    obtain ⟨b, v⟩ := e
    simp only [mapSorted] at hm
    simp only [mapInsert]
    split
    · simp [mapSorted, mapAbove, *]
    · split
      · subst_vars; simpa [mapSorted] using hm
      · simp only [mapSorted]; exact mapAbove_insert (by omega) hm

theorem mapAbove_erase {m : Map α} {a k : Nat} (hm : mapAbove a m = true) : mapAbove a (mapErase m k) = true := by
  induction m generalizing a with
  | nil => rfl
  | cons e m ih =>
    obtain ⟨b, v⟩ := e
    simp only [mapAbove, Bool.and_eq_true, decide_eq_true_eq] at hm
    simp only [mapErase]
    split
    · exact ih (mapAbove_mono (by omega) hm.2)
    · simp only [mapAbove, Bool.and_eq_true, decide_eq_true_eq]; exact ⟨hm.1, ih hm.2⟩

theorem mapSorted_erase {m : Map α} {k : Nat} (hm : mapSorted m = true) : mapSorted (mapErase m k) = true := by
  cases m with
  | nil => rfl
  | cons e m =>
    obtain ⟨b, v⟩ := e
    simp only [mapSorted] at hm
    simp only [mapErase]
    split
    · exact mapSorted_of_above (mapAbove_erase hm)
    · simp only [mapSorted]; exact mapAbove_erase hm

/-- Keys rise strictly after a write, whatever is written. -/
theorem mapSorted_set [DecidableEq α] {d : α} {m : Map α} {k : Nat} {x : α} (hm : mapSorted m = true) :
    mapSorted (mapSet d m k x) = true := by
  unfold mapSet; split
  · exact mapSorted_erase hm
  · exact mapSorted_insert hm

theorem mem_mapInsert {m : Map α} {k : Nat} {x : α} {e : Nat × α} (h : e ∈ mapInsert m k x) : e = (k, x) ∨ e ∈ m := by
  induction m with
  | nil => simpa [mapInsert] using h
  | cons f m ih =>
    obtain ⟨b, v⟩ := f
    simp only [mapInsert] at h
    split at h
    · simpa using h
    · split at h
      · simp only [List.mem_cons] at h ⊢; grind
      · simp only [List.mem_cons] at h ⊢
        rcases h with h | h
        · grind
        · rcases ih h with h | h <;> grind

theorem mem_mapErase {m : Map α} {k : Nat} {e : Nat × α} (h : e ∈ mapErase m k) : e ∈ m := by
  induction m with
  | nil => exact h
  | cons f m ih =>
    obtain ⟨b, v⟩ := f
    simp only [mapErase] at h
    split at h
    · exact List.mem_cons_of_mem _ (ih h)
    · simp only [List.mem_cons] at h ⊢
      rcases h with h | h
      · exact .inl h
      · exact .inr (ih h)

/-- No entry equals the default after a write. -/
theorem mapNoDefault_set [DecidableEq α] {d : α} {m : Map α} {k : Nat} {x : α} (hm : mapNoDefault d m = true) :
    mapNoDefault d (mapSet d m k x) = true := by
  simp only [mapNoDefault, List.all_eq_true, decide_eq_true_eq] at *
  intro e he
  unfold mapSet at he
  split at he
  · exact hm e (mem_mapErase he)
  · rcases mem_mapInsert he with rfl | h
    · assumption
    · exact hm e h

/-! ## Byte memories -/

/-- A byte read after a byte written (the two basic laws of memory). -/
@[simp] theorem memByte_set (m : Memory) (a b : Nat) (x : Byte) : memByte (memSet m a x) b = if b = a then x else memByte m b := by
  simp [memByte, memSet]

/-- A byte written keeps the canonical form. -/
theorem memSet_wf {m : Memory} {a : Nat} {x : Byte} (h : m.wf = true) : (memSet m a x).wf = true := by
  simp only [Memory.wf, Bool.and_eq_true] at *
  exact ⟨mapSorted_set h.1, mapNoDefault_set h.2⟩

/-- A byte list written keeps the canonical form. -/
theorem memWrite_wf {m : Memory} {a : Nat} {bs : List Byte} (h : m.wf = true) : (memWrite m a bs).wf = true := by
  induction bs generalizing m a with
  | nil => exact h
  | cons b bs ih => exact ih (memSet_wf h)

theorem mapAbove_filter {m : Map α} {a : Nat} {p : Nat × α → Bool} (hm : mapAbove a m = true) : mapAbove a (m.filter p) = true := by
  induction m generalizing a with
  | nil => rfl
  | cons e m ih =>
    obtain ⟨b, v⟩ := e
    simp only [mapAbove, Bool.and_eq_true, decide_eq_true_eq] at hm
    simp only [List.filter_cons]
    split
    · simp only [mapAbove, Bool.and_eq_true, decide_eq_true_eq]; exact ⟨hm.1, ih hm.2⟩
    · exact ih (mapAbove_mono (by omega) hm.2)

theorem mapSorted_filter {m : Map α} {p : Nat × α → Bool} (hm : mapSorted m = true) : mapSorted (m.filter p) = true := by
  cases m with
  | nil => rfl
  | cons e m =>
    obtain ⟨b, v⟩ := e
    simp only [mapSorted] at hm
    simp only [List.filter_cons]
    split
    · exact mapAbove_filter hm
    · exact mapSorted_of_above (mapAbove_filter hm)

/-- A memory keeps the canonical form when some of its entries are dropped. -/
theorem memFilter_wf {m : Memory} {p : Nat × Byte → Bool} (h : m.wf = true) : Memory.wf (m.filter p) = true := by
  simp only [Memory.wf, Bool.and_eq_true, mapNoDefault, List.all_eq_true] at *
  exact ⟨mapSorted_filter h.1, fun e he => h.2 e (List.mem_filter.mp he).1⟩

/-- A range cleared keeps the canonical form. -/
theorem memClear_wf {m : Memory} {a n : Nat} (h : m.wf = true) : (memClear m a n).wf = true := memFilter_wf h

/-- A byte read after a byte list written: the list's byte inside its range, the byte before it outside. -/
theorem memByte_write (m : Memory) (a b : Nat) (bs : List Byte) :
    memByte (memWrite m a bs) b = if a ≤ b ∧ b < a + bs.length then bs.getD (b - a) 0 else memByte m b := by
  induction bs generalizing m a with
  | nil => simp [memWrite] <;> omega
  | cons x bs ih =>
    rw [memWrite, ih, memByte_set]
    by_cases h1 : a + 1 ≤ b ∧ b < a + 1 + bs.length
    · have h2 : a ≤ b ∧ b < a + (x :: bs).length := by simp; omega
      rw [if_pos h1, if_pos h2]
      obtain ⟨k, rfl⟩ : ∃ k, b = a + 1 + k := ⟨b - (a + 1), by omega⟩
      have e1 : a + 1 + k - (a + 1) = k := by omega
      have e2 : a + 1 + k - a = k + 1 := by omega
      rw [e1, e2]; rfl
    · rw [if_neg h1]
      by_cases h2 : b = a
      · subst h2; simp
      · have h3 : ¬(a ≤ b ∧ b < a + (x :: bs).length) := by simp at *; omega
        rw [if_neg h2, if_neg h3]

/-- Outside the bytes written, memory reads as before. -/
theorem memByte_write_out {m : Memory} {a b : Nat} {bs : List Byte} (h : b < a ∨ a + bs.length ≤ b) :
    memByte (memWrite m a bs) b = memByte m b := by
  rw [memByte_write]; exact if_neg (by omega)

end Sys2Proof.Machine
end

