-- ==== Sys2Proof/Laws/Bytes.lean ====
section
/-! SUPPORT. Little-endian numbers byte by byte, and vectors lane by lane. -/

namespace Sys2Proof.Machine

open Sys2Proof

theorem leNat_lt (bs : List Byte) : leNat bs < 256 ^ bs.length := by
  induction bs with
  | nil => simp [leNat]
  | cons b bs ih =>
    rw [leNat, List.length_cons, Nat.pow_succ]
    have := b.isLt
    omega

theorem leNat_byte (bs : List Byte) (k : Nat) (h : k < bs.length) : leNat bs / 256 ^ k % 256 = (bs.getD k 0).toNat := by
  induction bs generalizing k with
  | nil => simp at h
  | cons b bs ih =>
    have hb := b.isLt
    cases k with
    | zero => simp [leNat]; omega
    | succ k =>
      rw [leNat, Nat.pow_succ', ← Nat.div_div_eq_div_mul, Nat.add_mul_div_left _ _ (by decide), Nat.div_eq_of_lt hb, Nat.zero_add,
        ih k (by simpa using h)]
      simp

theorem leBytes_length (n x : Nat) : (leBytes n x).length = n := by
  induction n generalizing x with
  | zero => rfl
  | succ n ih => simp [leBytes, ih]

theorem leBytes_getD (n x k : Nat) (h : k < n) : (leBytes n x).getD k 0 = BitVec.ofNat 8 (x / 256 ^ k) := by
  induction n generalizing x k with
  | zero => omega
  | succ n ih =>
    cases k with
    | zero => simp [leBytes]
    | succ k =>
      have hk : k < n := by omega
      rw [leBytes, List.getD_cons_succ, ih _ _ hk, Nat.div_div_eq_div_mul, Nat.pow_succ, Nat.mul_comm]

theorem pow256 (k : Nat) : 256 ^ k = 2 ^ (8 * k) := by rw [Nat.pow_mul]

/-- Byte k of a word built from bytes. -/
theorem ofNat_leNat_byte {w : Nat} (bs : List Byte) (k : Nat) (h : k < bs.length) (hw : 8 * bs.length ≤ w) :
    (BitVec.ofNat w (leNat bs)).extractLsb' (8 * k) 8 = bs.getD k 0 := by
  apply BitVec.eq_of_toNat_eq
  have hlt : leNat bs < 2 ^ w := by
    refine Nat.lt_of_lt_of_le (leNat_lt bs) ?_
    rw [pow256]
    exact Nat.pow_le_pow_right (by decide) hw
  rw [BitVec.extractLsb'_toNat, BitVec.toNat_ofNat, Nat.mod_eq_of_lt hlt, Nat.shiftRight_eq_div_pow, ← pow256, ← leNat_byte bs k h]

/-- Byte k of a word's bytes. -/
theorem leBytes_word {w : Nat} (x : BitVec w) (n k : Nat) (h : k < n) : (leBytes n x.toNat).getD k 0 = x.extractLsb' (8 * k) 8 := by
  rw [leBytes_getD n _ k h]
  apply BitVec.eq_of_toNat_eq
  rw [BitVec.extractLsb'_toNat, BitVec.toNat_ofNat, Nat.shiftRight_eq_div_pow, ← pow256]

theorem memRead_length (m : Memory) (a n : Nat) : (memRead m a n).length = n := by simp [memRead]

theorem memRead_getD (m : Memory) (a n k : Nat) (h : k < n) : (memRead m a n).getD k 0 = memByte m (a + k) := by
  simp [memRead, List.getD_eq_getElem?_getD, h]

theorem lane_mkLanes (f : Nat → Lane) (k : Nat) (h : k < 128) : lane (mkLanes f) k = f k := by
  simp [lane, mkLanes, List.getD_eq_getElem?_getD, h]

theorem hlane_mkHLanes (f : Nat → Lane) (k : Nat) (h : k < 16) : hlane (mkHLanes f) k = f k := by
  simp [hlane, mkHLanes, List.getD_eq_getElem?_getD, h]

theorem getD_flatMap_four (f : Lane → List Byte) (hf : ∀ x, (f x).length = 4) (l : List Lane) (k : Nat) (hk : k < 4 * l.length) :
    (l.flatMap f).getD k 0 = (f (l.getD (k / 4) 0)).getD (k % 4) 0 := by
  induction l generalizing k with
  | nil => simp at hk
  | cons x l ih =>
    rw [List.flatMap_cons]
    simp only [List.getD_eq_getElem?_getD] at *
    by_cases h : k < 4
    · rw [List.getElem?_append_left (by rw [hf]; exact h)]
      have h0 : k / 4 = 0 := by omega
      have h1 : k % 4 = k := by omega
      rw [h0, h1]; rfl
    · rw [List.getElem?_append_right (by rw [hf]; omega), hf]
      have h0 : k / 4 = (k - 4) / 4 + 1 := by omega
      have h1 : k % 4 = (k - 4) % 4 := by omega
      have h2 : k - 4 < 4 * l.length := by rw [List.length_cons] at hk; omega
      rw [h0, h1, List.getElem?_cons_succ, ih _ h2]

end Sys2Proof.Machine
end

