-- ==== Sys2Proof/Laws/State.lean ====
section
/-! SUPPORT. Laws of State's updates: what each leaves of every field, and what a lookup finds after it. -/

namespace Sys2Proof.Machine

/-! ## put changes fields alone -/

@[simp] theorem State.put_pending (s : State) (f : FieldRef) (v : Nat) : (s.put f v).pending = s.pending := rfl
@[simp] theorem State.put_straps (s : State) (f : FieldRef) (v : Nat) : (s.put f v).straps = s.straps := rfl
@[simp] theorem State.put_image (s : State) (f : FieldRef) (v : Nat) : (s.put f v).image = s.image := rfl
@[simp] theorem State.put_cycle (s : State) (f : FieldRef) (v : Nat) : (s.put f v).cycle = s.cycle := rfl
@[simp] theorem State.put_aclk (s : State) (f : FieldRef) (v : Nat) : (s.put f v).aclk = s.aclk := rfl
@[simp] theorem State.put_freeCount (s : State) (f : FieldRef) (v : Nat) : (s.put f v).freeCount = s.freeCount := rfl
@[simp] theorem State.put_mem (s : State) (f : FieldRef) (v : Nat) : (s.put f v).mem = s.mem := rfl
@[simp] theorem State.put_poison (s : State) (f : FieldRef) (v : Nat) : (s.put f v).poison = s.poison := rfl
@[simp] theorem State.put_nonzero (s : State) (f : FieldRef) (v : Nat) : (s.put f v).nonzero = s.nonzero := rfl
@[simp] theorem State.put_pages (s : State) (f : FieldRef) (v : Nat) : (s.put f v).pages = s.pages := rfl
@[simp] theorem State.put_heat (s : State) (f : FieldRef) (v : Nat) : (s.put f v).heat = s.heat := rfl
@[simp] theorem State.put_objects (s : State) (f : FieldRef) (v : Nat) : (s.put f v).objects = s.objects := rfl
@[simp] theorem State.put_mirrorQ (s : State) (f : FieldRef) (v : Nat) : (s.put f v).mirrorQ = s.mirrorQ := rfl
@[simp] theorem State.put_heldWrites (s : State) (f : FieldRef) (v : Nat) : (s.put f v).heldWrites = s.heldWrites := rfl
@[simp] theorem State.put_heldSeq (s : State) (f : FieldRef) (v : Nat) : (s.put f v).heldSeq = s.heldSeq := rfl
@[simp] theorem State.put_heldEnds (s : State) (f : FieldRef) (v : Nat) : (s.put f v).heldEnds = s.heldEnds := rfl
@[simp] theorem State.put_frameWaits (s : State) (f : FieldRef) (v : Nat) : (s.put f v).frameWaits = s.frameWaits := rfl
@[simp] theorem State.put_snoop (s : State) (f : FieldRef) (v : Nat) : (s.put f v).snoop = s.snoop := rfl
@[simp] theorem State.put_snoopSeq (s : State) (f : FieldRef) (v : Nat) : (s.put f v).snoopSeq = s.snoopSeq := rfl
@[simp] theorem State.put_biWait (s : State) (f : FieldRef) (v : Nat) : (s.put f v).biWait = s.biWait := rfl
@[simp] theorem State.put_violAt (s : State) (f : FieldRef) (v : Nat) : (s.put f v).violAt = s.violAt := rfl
@[simp] theorem State.put_irq (s : State) (f : FieldRef) (v : Nat) : (s.put f v).irq = s.irq := rfl
@[simp] theorem State.put_component (s : State) (f : FieldRef) (v : Nat) : (s.put f v).component = s.component := rfl
@[simp] theorem State.put_decoders (s : State) (f : FieldRef) (v : Nat) : (s.put f v).decoders = s.decoders := rfl
@[simp] theorem State.put_chambers (s : State) (f : FieldRef) (v : Nat) : (s.put f v).chambers = s.chambers := rfl
@[simp] theorem State.put_ports (s : State) (f : FieldRef) (v : Nat) : (s.put f v).ports = s.ports := rfl
@[simp] theorem State.put_lost (s : State) (f : FieldRef) (v : Nat) : (s.put f v).lost = s.lost := rfl
@[simp] theorem State.put_prefetches (s : State) (f : FieldRef) (v : Nat) : (s.put f v).prefetches = s.prefetches := rfl
@[simp] theorem State.put_moves (s : State) (f : FieldRef) (v : Nat) : (s.put f v).moves = s.moves := rfl
@[simp] theorem State.put_rings (s : State) (f : FieldRef) (v : Nat) : (s.put f v).rings = s.rings := rfl
@[simp] theorem State.put_rx (s : State) (f : FieldRef) (v : Nat) : (s.put f v).rx = s.rx := rfl
@[simp] theorem State.put_tx (s : State) (f : FieldRef) (v : Nat) : (s.put f v).tx = s.tx := rfl
@[simp] theorem State.put_txWait (s : State) (f : FieldRef) (v : Nat) : (s.put f v).txWait = s.txWait := rfl
@[simp] theorem State.put_cuJobs (s : State) (f : FieldRef) (v : Nat) : (s.put f v).cuJobs = s.cuJobs := rfl
@[simp] theorem State.put_redJobs (s : State) (f : FieldRef) (v : Nat) : (s.put f v).redJobs = s.redJobs := rfl
@[simp] theorem State.put_xferSeq (s : State) (f : FieldRef) (v : Nat) : (s.put f v).xferSeq = s.xferSeq := rfl
@[simp] theorem State.put_cuDone (s : State) (f : FieldRef) (v : Nat) : (s.put f v).cuDone = s.cuDone := rfl
@[simp] theorem State.put_dispatchQ (s : State) (f : FieldRef) (v : Nat) : (s.put f v).dispatchQ = s.dispatchQ := rfl
@[simp] theorem State.put_claims (s : State) (f : FieldRef) (v : Nat) : (s.put f v).claims = s.claims := rfl
@[simp] theorem State.put_deferred (s : State) (f : FieldRef) (v : Nat) : (s.put f v).deferred = s.deferred := rfl
@[simp] theorem State.put_holdSince (s : State) (f : FieldRef) (v : Nat) : (s.put f v).holdSince = s.holdSince := rfl
@[simp] theorem State.put_devFailed (s : State) (f : FieldRef) (v : Nat) : (s.put f v).devFailed = s.devFailed := rfl
@[simp] theorem State.put_keptNoSpare (s : State) (f : FieldRef) (v : Nat) : (s.put f v).keptNoSpare = s.keptNoSpare := rfl
@[simp] theorem State.put_cuQueue (s : State) (f : FieldRef) (v : Nat) : (s.put f v).cuQueue = s.cuQueue := rfl
@[simp] theorem State.put_hels (s : State) (f : FieldRef) (v : Nat) : (s.put f v).hels = s.hels := rfl
@[simp] theorem State.put_xbus (s : State) (f : FieldRef) (v : Nat) : (s.put f v).xbus = s.xbus := rfl
@[simp] theorem State.put_hlcQueue (s : State) (f : FieldRef) (v : Nat) : (s.put f v).hlcQueue = s.hlcQueue := rfl
@[simp] theorem State.put_hlcJobs (s : State) (f : FieldRef) (v : Nat) : (s.put f v).hlcJobs = s.hlcJobs := rfl
@[simp] theorem State.put_hlcDone (s : State) (f : FieldRef) (v : Nat) : (s.put f v).hlcDone = s.hlcDone := rfl
@[simp] theorem State.put_layerTemp (s : State) (f : FieldRef) (v : Nat) : (s.put f v).layerTemp = s.layerTemp := rfl
@[simp] theorem State.put_refreshOwed (s : State) (f : FieldRef) (v : Nat) : (s.put f v).refreshOwed = s.refreshOwed := rfl
@[simp] theorem State.put_rowErr (s : State) (f : FieldRef) (v : Nat) : (s.put f v).rowErr = s.rowErr := rfl
@[simp] theorem State.put_rowMoved (s : State) (f : FieldRef) (v : Nat) : (s.put f v).rowMoved = s.rowMoved := rfl
@[simp] theorem State.put_flsQueue (s : State) (f : FieldRef) (v : Nat) : (s.put f v).flsQueue = s.flsQueue := rfl
@[simp] theorem State.put_flsDone (s : State) (f : FieldRef) (v : Nat) : (s.put f v).flsDone = s.flsDone := rfl
@[simp] theorem State.put_drainCmd (s : State) (f : FieldRef) (v : Nat) : (s.put f v).drainCmd = s.drainCmd := rfl
@[simp] theorem State.put_drainPress (s : State) (f : FieldRef) (v : Nat) : (s.put f v).drainPress = s.drainPress := rfl
@[simp] theorem State.put_lostPages (s : State) (f : FieldRef) (v : Nat) : (s.put f v).lostPages = s.lostPages := rfl
@[simp] theorem State.put_epochAt (s : State) (f : FieldRef) (v : Nat) : (s.put f v).epochAt = s.epochAt := rfl
@[simp] theorem State.put_slotCode (s : State) (f : FieldRef) (v : Nat) : (s.put f v).slotCode = s.slotCode := rfl
@[simp] theorem State.put_devCode (s : State) (f : FieldRef) (v : Nat) : (s.put f v).devCode = s.devCode := rfl
@[simp] theorem State.put_tokens (s : State) (f : FieldRef) (v : Nat) : (s.put f v).tokens = s.tokens := rfl
@[simp] theorem State.put_stepQueue (s : State) (f : FieldRef) (v : Nat) : (s.put f v).stepQueue = s.stepQueue := rfl
@[simp] theorem State.put_trv (s : State) (f : FieldRef) (v : Nat) : (s.put f v).trv = s.trv := rfl
@[simp] theorem State.put_openRecs (s : State) (f : FieldRef) (v : Nat) : (s.put f v).openRecs = s.openRecs := rfl
@[simp] theorem State.put_endedRecs (s : State) (f : FieldRef) (v : Nat) : (s.put f v).endedRecs = s.endedRecs := rfl
@[simp] theorem State.put_heldCmpl (s : State) (f : FieldRef) (v : Nat) : (s.put f v).heldCmpl = s.heldCmpl := rfl
@[simp] theorem State.put_ledgerTail (s : State) (f : FieldRef) (v : Nat) : (s.put f v).ledgerTail = s.ledgerTail := rfl
@[simp] theorem State.put_cmplHead (s : State) (f : FieldRef) (v : Nat) : (s.put f v).cmplHead = s.cmplHead := rfl
@[simp] theorem State.put_cmplCount (s : State) (f : FieldRef) (v : Nat) : (s.put f v).cmplCount = s.cmplCount := rfl
@[simp] theorem State.put_ledgerBad (s : State) (f : FieldRef) (v : Nat) : (s.put f v).ledgerBad = s.ledgerBad := rfl
@[simp] theorem State.put_hostWrites (s : State) (f : FieldRef) (v : Nat) : (s.put f v).hostWrites = s.hostWrites := rfl
@[simp] theorem State.put_hostReply (s : State) (f : FieldRef) (v : Nat) : (s.put f v).hostReply = s.hostReply := rfl
@[simp] theorem State.put_irqWait (s : State) (f : FieldRef) (v : Nat) : (s.put f v).irqWait = s.irqWait := rfl
@[simp] theorem State.put_irqAt (s : State) (f : FieldRef) (v : Nat) : (s.put f v).irqAt = s.irqAt := rfl
@[simp] theorem State.put_kpr (s : State) (f : FieldRef) (v : Nat) : (s.put f v).kpr = s.kpr := rfl
@[simp] theorem State.put_kprStamp0 (s : State) (f : FieldRef) (v : Nat) : (s.put f v).kprStamp0 = s.kprStamp0 := rfl
@[simp] theorem State.put_kprPeer (s : State) (f : FieldRef) (v : Nat) : (s.put f v).kprPeer = s.kprPeer := rfl
@[simp] theorem State.put_arbs (s : State) (f : FieldRef) (v : Nat) : (s.put f v).arbs = s.arbs := rfl
@[simp] theorem State.put_arbUse (s : State) (f : FieldRef) (v : Nat) : (s.put f v).arbUse = s.arbUse := rfl
@[simp] theorem State.put_biAt (s : State) (f : FieldRef) (v : Nat) : (s.put f v).biAt = s.biAt := rfl
@[simp] theorem State.put_memActive (s : State) (f : FieldRef) (v : Nat) : (s.put f v).memActive = s.memActive := rfl
@[simp] theorem State.put_attachments (s : State) (f : FieldRef) (v : Nat) : (s.put f v).attachments = s.attachments := rfl
@[simp] theorem State.put_started (s : State) (f : FieldRef) (v : Nat) : (s.put f v).started = s.started := rfl
@[simp] theorem State.put_detaching (s : State) (f : FieldRef) (v : Nat) : (s.put f v).detaching = s.detaching := rfl
@[simp] theorem State.put_flash (s : State) (f : FieldRef) (v : Nat) : (s.put f v).flash = s.flash := rfl
@[simp] theorem State.put_booted (s : State) (f : FieldRef) (v : Nat) : (s.put f v).booted = s.booted := rfl
@[simp] theorem State.put_staging (s : State) (f : FieldRef) (v : Nat) : (s.put f v).staging = s.staging := rfl
@[simp] theorem State.put_attCounter (s : State) (f : FieldRef) (v : Nat) : (s.put f v).attCounter = s.attCounter := rfl
@[simp] theorem State.put_topLeaf (s : State) (f : FieldRef) (v : Nat) : (s.put f v).topLeaf = s.topLeaf := rfl
@[simp] theorem State.put_devId (s : State) (f : FieldRef) (v : Nat) : (s.put f v).devId = s.devId := rfl
@[simp] theorem State.put_devKey (s : State) (f : FieldRef) (v : Nat) : (s.put f v).devKey = s.devKey := rfl
@[simp] theorem State.put_jtag (s : State) (f : FieldRef) (v : Nat) : (s.put f v).jtag = s.jtag := rfl
@[simp] theorem State.put_inReset (s : State) (f : FieldRef) (v : Nat) : (s.put f v).inReset = s.inReset := rfl
@[simp] theorem State.put_tripped (s : State) (f : FieldRef) (v : Nat) : (s.put f v).tripped = s.tripped := rfl
@[simp] theorem State.put_rstLatch (s : State) (f : FieldRef) (v : Nat) : (s.put f v).rstLatch = s.rstLatch := rfl
@[simp] theorem State.put_vddMv (s : State) (f : FieldRef) (v : Nat) : (s.put f v).vddMv = s.vddMv := rfl
@[simp] theorem State.put_dips (s : State) (f : FieldRef) (v : Nat) : (s.put f v).dips = s.dips := rfl
@[simp] theorem State.put_dozeIdle (s : State) (f : FieldRef) (v : Nat) : (s.put f v).dozeIdle = s.dozeIdle := rfl
@[simp] theorem State.put_keepIdle (s : State) (f : FieldRef) (v : Nat) : (s.put f v).keepIdle = s.keepIdle := rfl
@[simp] theorem State.put_govDram (s : State) (f : FieldRef) (v : Nat) : (s.put f v).govDram = s.govDram := rfl
@[simp] theorem State.put_iccSeen (s : State) (f : FieldRef) (v : Nat) : (s.put f v).iccSeen = s.iccSeen := rfl
@[simp] theorem State.put_slotPower (s : State) (f : FieldRef) (v : Nat) : (s.put f v).slotPower = s.slotPower := rfl
@[simp] theorem State.put_handPress (s : State) (f : FieldRef) (v : Nat) : (s.put f v).handPress = s.handPress := rfl
@[simp] theorem State.put_handMark (s : State) (f : FieldRef) (v : Nat) : (s.put f v).handMark = s.handMark := rfl
@[simp] theorem State.put_twinSent (s : State) (f : FieldRef) (v : Nat) : (s.put f v).twinSent = s.twinSent := rfl
@[simp] theorem State.put_hbSentAt (s : State) (f : FieldRef) (v : Nat) : (s.put f v).hbSentAt = s.hbSentAt := rfl
@[simp] theorem State.put_hbSeenAt (s : State) (f : FieldRef) (v : Nat) : (s.put f v).hbSeenAt = s.hbSeenAt := rfl
@[simp] theorem State.put_takeoverDue (s : State) (f : FieldRef) (v : Nat) : (s.put f v).takeoverDue = s.takeoverDue := rfl
@[simp] theorem State.put_mirrorBytes (s : State) (f : FieldRef) (v : Nat) : (s.put f v).mirrorBytes = s.mirrorBytes := rfl
@[simp] theorem State.put_keyBad (s : State) (f : FieldRef) (v : Nat) : (s.put f v).keyBad = s.keyBad := rfl

/-! ## setCh changes chambers alone -/

@[simp] theorem State.setCh_pending (s : State) (n : Nat) (c : Chamber) : (s.setCh n c).pending = s.pending := rfl
@[simp] theorem State.setCh_fields (s : State) (n : Nat) (c : Chamber) : (s.setCh n c).fields = s.fields := rfl
@[simp] theorem State.setCh_straps (s : State) (n : Nat) (c : Chamber) : (s.setCh n c).straps = s.straps := rfl
@[simp] theorem State.setCh_image (s : State) (n : Nat) (c : Chamber) : (s.setCh n c).image = s.image := rfl
@[simp] theorem State.setCh_cycle (s : State) (n : Nat) (c : Chamber) : (s.setCh n c).cycle = s.cycle := rfl
@[simp] theorem State.setCh_aclk (s : State) (n : Nat) (c : Chamber) : (s.setCh n c).aclk = s.aclk := rfl
@[simp] theorem State.setCh_freeCount (s : State) (n : Nat) (c : Chamber) : (s.setCh n c).freeCount = s.freeCount := rfl
@[simp] theorem State.setCh_mem (s : State) (n : Nat) (c : Chamber) : (s.setCh n c).mem = s.mem := rfl
@[simp] theorem State.setCh_poison (s : State) (n : Nat) (c : Chamber) : (s.setCh n c).poison = s.poison := rfl
@[simp] theorem State.setCh_nonzero (s : State) (n : Nat) (c : Chamber) : (s.setCh n c).nonzero = s.nonzero := rfl
@[simp] theorem State.setCh_pages (s : State) (n : Nat) (c : Chamber) : (s.setCh n c).pages = s.pages := rfl
@[simp] theorem State.setCh_heat (s : State) (n : Nat) (c : Chamber) : (s.setCh n c).heat = s.heat := rfl
@[simp] theorem State.setCh_objects (s : State) (n : Nat) (c : Chamber) : (s.setCh n c).objects = s.objects := rfl
@[simp] theorem State.setCh_mirrorQ (s : State) (n : Nat) (c : Chamber) : (s.setCh n c).mirrorQ = s.mirrorQ := rfl
@[simp] theorem State.setCh_heldWrites (s : State) (n : Nat) (c : Chamber) : (s.setCh n c).heldWrites = s.heldWrites := rfl
@[simp] theorem State.setCh_heldSeq (s : State) (n : Nat) (c : Chamber) : (s.setCh n c).heldSeq = s.heldSeq := rfl
@[simp] theorem State.setCh_heldEnds (s : State) (n : Nat) (c : Chamber) : (s.setCh n c).heldEnds = s.heldEnds := rfl
@[simp] theorem State.setCh_frameWaits (s : State) (n : Nat) (c : Chamber) : (s.setCh n c).frameWaits = s.frameWaits := rfl
@[simp] theorem State.setCh_snoop (s : State) (n : Nat) (c : Chamber) : (s.setCh n c).snoop = s.snoop := rfl
@[simp] theorem State.setCh_snoopSeq (s : State) (n : Nat) (c : Chamber) : (s.setCh n c).snoopSeq = s.snoopSeq := rfl
@[simp] theorem State.setCh_biWait (s : State) (n : Nat) (c : Chamber) : (s.setCh n c).biWait = s.biWait := rfl
@[simp] theorem State.setCh_violAt (s : State) (n : Nat) (c : Chamber) : (s.setCh n c).violAt = s.violAt := rfl
@[simp] theorem State.setCh_irq (s : State) (n : Nat) (c : Chamber) : (s.setCh n c).irq = s.irq := rfl
@[simp] theorem State.setCh_component (s : State) (n : Nat) (c : Chamber) : (s.setCh n c).component = s.component := rfl
@[simp] theorem State.setCh_decoders (s : State) (n : Nat) (c : Chamber) : (s.setCh n c).decoders = s.decoders := rfl
@[simp] theorem State.setCh_ports (s : State) (n : Nat) (c : Chamber) : (s.setCh n c).ports = s.ports := rfl
@[simp] theorem State.setCh_lost (s : State) (n : Nat) (c : Chamber) : (s.setCh n c).lost = s.lost := rfl
@[simp] theorem State.setCh_prefetches (s : State) (n : Nat) (c : Chamber) : (s.setCh n c).prefetches = s.prefetches := rfl
@[simp] theorem State.setCh_moves (s : State) (n : Nat) (c : Chamber) : (s.setCh n c).moves = s.moves := rfl
@[simp] theorem State.setCh_rings (s : State) (n : Nat) (c : Chamber) : (s.setCh n c).rings = s.rings := rfl
@[simp] theorem State.setCh_rx (s : State) (n : Nat) (c : Chamber) : (s.setCh n c).rx = s.rx := rfl
@[simp] theorem State.setCh_tx (s : State) (n : Nat) (c : Chamber) : (s.setCh n c).tx = s.tx := rfl
@[simp] theorem State.setCh_txWait (s : State) (n : Nat) (c : Chamber) : (s.setCh n c).txWait = s.txWait := rfl
@[simp] theorem State.setCh_cuJobs (s : State) (n : Nat) (c : Chamber) : (s.setCh n c).cuJobs = s.cuJobs := rfl
@[simp] theorem State.setCh_redJobs (s : State) (n : Nat) (c : Chamber) : (s.setCh n c).redJobs = s.redJobs := rfl
@[simp] theorem State.setCh_xferSeq (s : State) (n : Nat) (c : Chamber) : (s.setCh n c).xferSeq = s.xferSeq := rfl
@[simp] theorem State.setCh_cuDone (s : State) (n : Nat) (c : Chamber) : (s.setCh n c).cuDone = s.cuDone := rfl
@[simp] theorem State.setCh_dispatchQ (s : State) (n : Nat) (c : Chamber) : (s.setCh n c).dispatchQ = s.dispatchQ := rfl
@[simp] theorem State.setCh_claims (s : State) (n : Nat) (c : Chamber) : (s.setCh n c).claims = s.claims := rfl
@[simp] theorem State.setCh_deferred (s : State) (n : Nat) (c : Chamber) : (s.setCh n c).deferred = s.deferred := rfl
@[simp] theorem State.setCh_holdSince (s : State) (n : Nat) (c : Chamber) : (s.setCh n c).holdSince = s.holdSince := rfl
@[simp] theorem State.setCh_devFailed (s : State) (n : Nat) (c : Chamber) : (s.setCh n c).devFailed = s.devFailed := rfl
@[simp] theorem State.setCh_keptNoSpare (s : State) (n : Nat) (c : Chamber) : (s.setCh n c).keptNoSpare = s.keptNoSpare := rfl
@[simp] theorem State.setCh_cuQueue (s : State) (n : Nat) (c : Chamber) : (s.setCh n c).cuQueue = s.cuQueue := rfl
@[simp] theorem State.setCh_hels (s : State) (n : Nat) (c : Chamber) : (s.setCh n c).hels = s.hels := rfl
@[simp] theorem State.setCh_xbus (s : State) (n : Nat) (c : Chamber) : (s.setCh n c).xbus = s.xbus := rfl
@[simp] theorem State.setCh_hlcQueue (s : State) (n : Nat) (c : Chamber) : (s.setCh n c).hlcQueue = s.hlcQueue := rfl
@[simp] theorem State.setCh_hlcJobs (s : State) (n : Nat) (c : Chamber) : (s.setCh n c).hlcJobs = s.hlcJobs := rfl
@[simp] theorem State.setCh_hlcDone (s : State) (n : Nat) (c : Chamber) : (s.setCh n c).hlcDone = s.hlcDone := rfl
@[simp] theorem State.setCh_layerTemp (s : State) (n : Nat) (c : Chamber) : (s.setCh n c).layerTemp = s.layerTemp := rfl
@[simp] theorem State.setCh_refreshOwed (s : State) (n : Nat) (c : Chamber) : (s.setCh n c).refreshOwed = s.refreshOwed := rfl
@[simp] theorem State.setCh_rowErr (s : State) (n : Nat) (c : Chamber) : (s.setCh n c).rowErr = s.rowErr := rfl
@[simp] theorem State.setCh_rowMoved (s : State) (n : Nat) (c : Chamber) : (s.setCh n c).rowMoved = s.rowMoved := rfl
@[simp] theorem State.setCh_flsQueue (s : State) (n : Nat) (c : Chamber) : (s.setCh n c).flsQueue = s.flsQueue := rfl
@[simp] theorem State.setCh_flsDone (s : State) (n : Nat) (c : Chamber) : (s.setCh n c).flsDone = s.flsDone := rfl
@[simp] theorem State.setCh_drainCmd (s : State) (n : Nat) (c : Chamber) : (s.setCh n c).drainCmd = s.drainCmd := rfl
@[simp] theorem State.setCh_drainPress (s : State) (n : Nat) (c : Chamber) : (s.setCh n c).drainPress = s.drainPress := rfl
@[simp] theorem State.setCh_lostPages (s : State) (n : Nat) (c : Chamber) : (s.setCh n c).lostPages = s.lostPages := rfl
@[simp] theorem State.setCh_epochAt (s : State) (n : Nat) (c : Chamber) : (s.setCh n c).epochAt = s.epochAt := rfl
@[simp] theorem State.setCh_slotCode (s : State) (n : Nat) (c : Chamber) : (s.setCh n c).slotCode = s.slotCode := rfl
@[simp] theorem State.setCh_devCode (s : State) (n : Nat) (c : Chamber) : (s.setCh n c).devCode = s.devCode := rfl
@[simp] theorem State.setCh_tokens (s : State) (n : Nat) (c : Chamber) : (s.setCh n c).tokens = s.tokens := rfl
@[simp] theorem State.setCh_stepQueue (s : State) (n : Nat) (c : Chamber) : (s.setCh n c).stepQueue = s.stepQueue := rfl
@[simp] theorem State.setCh_trv (s : State) (n : Nat) (c : Chamber) : (s.setCh n c).trv = s.trv := rfl
@[simp] theorem State.setCh_openRecs (s : State) (n : Nat) (c : Chamber) : (s.setCh n c).openRecs = s.openRecs := rfl
@[simp] theorem State.setCh_endedRecs (s : State) (n : Nat) (c : Chamber) : (s.setCh n c).endedRecs = s.endedRecs := rfl
@[simp] theorem State.setCh_heldCmpl (s : State) (n : Nat) (c : Chamber) : (s.setCh n c).heldCmpl = s.heldCmpl := rfl
@[simp] theorem State.setCh_ledgerTail (s : State) (n : Nat) (c : Chamber) : (s.setCh n c).ledgerTail = s.ledgerTail := rfl
@[simp] theorem State.setCh_cmplHead (s : State) (n : Nat) (c : Chamber) : (s.setCh n c).cmplHead = s.cmplHead := rfl
@[simp] theorem State.setCh_cmplCount (s : State) (n : Nat) (c : Chamber) : (s.setCh n c).cmplCount = s.cmplCount := rfl
@[simp] theorem State.setCh_ledgerBad (s : State) (n : Nat) (c : Chamber) : (s.setCh n c).ledgerBad = s.ledgerBad := rfl
@[simp] theorem State.setCh_hostWrites (s : State) (n : Nat) (c : Chamber) : (s.setCh n c).hostWrites = s.hostWrites := rfl
@[simp] theorem State.setCh_hostReply (s : State) (n : Nat) (c : Chamber) : (s.setCh n c).hostReply = s.hostReply := rfl
@[simp] theorem State.setCh_irqWait (s : State) (n : Nat) (c : Chamber) : (s.setCh n c).irqWait = s.irqWait := rfl
@[simp] theorem State.setCh_irqAt (s : State) (n : Nat) (c : Chamber) : (s.setCh n c).irqAt = s.irqAt := rfl
@[simp] theorem State.setCh_kpr (s : State) (n : Nat) (c : Chamber) : (s.setCh n c).kpr = s.kpr := rfl
@[simp] theorem State.setCh_kprStamp0 (s : State) (n : Nat) (c : Chamber) : (s.setCh n c).kprStamp0 = s.kprStamp0 := rfl
@[simp] theorem State.setCh_kprPeer (s : State) (n : Nat) (c : Chamber) : (s.setCh n c).kprPeer = s.kprPeer := rfl
@[simp] theorem State.setCh_arbs (s : State) (n : Nat) (c : Chamber) : (s.setCh n c).arbs = s.arbs := rfl
@[simp] theorem State.setCh_arbUse (s : State) (n : Nat) (c : Chamber) : (s.setCh n c).arbUse = s.arbUse := rfl
@[simp] theorem State.setCh_biAt (s : State) (n : Nat) (c : Chamber) : (s.setCh n c).biAt = s.biAt := rfl
@[simp] theorem State.setCh_memActive (s : State) (n : Nat) (c : Chamber) : (s.setCh n c).memActive = s.memActive := rfl
@[simp] theorem State.setCh_attachments (s : State) (n : Nat) (c : Chamber) : (s.setCh n c).attachments = s.attachments := rfl
@[simp] theorem State.setCh_started (s : State) (n : Nat) (c : Chamber) : (s.setCh n c).started = s.started := rfl
@[simp] theorem State.setCh_detaching (s : State) (n : Nat) (c : Chamber) : (s.setCh n c).detaching = s.detaching := rfl
@[simp] theorem State.setCh_flash (s : State) (n : Nat) (c : Chamber) : (s.setCh n c).flash = s.flash := rfl
@[simp] theorem State.setCh_booted (s : State) (n : Nat) (c : Chamber) : (s.setCh n c).booted = s.booted := rfl
@[simp] theorem State.setCh_staging (s : State) (n : Nat) (c : Chamber) : (s.setCh n c).staging = s.staging := rfl
@[simp] theorem State.setCh_attCounter (s : State) (n : Nat) (c : Chamber) : (s.setCh n c).attCounter = s.attCounter := rfl
@[simp] theorem State.setCh_topLeaf (s : State) (n : Nat) (c : Chamber) : (s.setCh n c).topLeaf = s.topLeaf := rfl
@[simp] theorem State.setCh_devId (s : State) (n : Nat) (c : Chamber) : (s.setCh n c).devId = s.devId := rfl
@[simp] theorem State.setCh_devKey (s : State) (n : Nat) (c : Chamber) : (s.setCh n c).devKey = s.devKey := rfl
@[simp] theorem State.setCh_jtag (s : State) (n : Nat) (c : Chamber) : (s.setCh n c).jtag = s.jtag := rfl
@[simp] theorem State.setCh_inReset (s : State) (n : Nat) (c : Chamber) : (s.setCh n c).inReset = s.inReset := rfl
@[simp] theorem State.setCh_tripped (s : State) (n : Nat) (c : Chamber) : (s.setCh n c).tripped = s.tripped := rfl
@[simp] theorem State.setCh_rstLatch (s : State) (n : Nat) (c : Chamber) : (s.setCh n c).rstLatch = s.rstLatch := rfl
@[simp] theorem State.setCh_vddMv (s : State) (n : Nat) (c : Chamber) : (s.setCh n c).vddMv = s.vddMv := rfl
@[simp] theorem State.setCh_dips (s : State) (n : Nat) (c : Chamber) : (s.setCh n c).dips = s.dips := rfl
@[simp] theorem State.setCh_dozeIdle (s : State) (n : Nat) (c : Chamber) : (s.setCh n c).dozeIdle = s.dozeIdle := rfl
@[simp] theorem State.setCh_keepIdle (s : State) (n : Nat) (c : Chamber) : (s.setCh n c).keepIdle = s.keepIdle := rfl
@[simp] theorem State.setCh_govDram (s : State) (n : Nat) (c : Chamber) : (s.setCh n c).govDram = s.govDram := rfl
@[simp] theorem State.setCh_iccSeen (s : State) (n : Nat) (c : Chamber) : (s.setCh n c).iccSeen = s.iccSeen := rfl
@[simp] theorem State.setCh_slotPower (s : State) (n : Nat) (c : Chamber) : (s.setCh n c).slotPower = s.slotPower := rfl
@[simp] theorem State.setCh_handPress (s : State) (n : Nat) (c : Chamber) : (s.setCh n c).handPress = s.handPress := rfl
@[simp] theorem State.setCh_handMark (s : State) (n : Nat) (c : Chamber) : (s.setCh n c).handMark = s.handMark := rfl
@[simp] theorem State.setCh_twinSent (s : State) (n : Nat) (c : Chamber) : (s.setCh n c).twinSent = s.twinSent := rfl
@[simp] theorem State.setCh_hbSentAt (s : State) (n : Nat) (c : Chamber) : (s.setCh n c).hbSentAt = s.hbSentAt := rfl
@[simp] theorem State.setCh_hbSeenAt (s : State) (n : Nat) (c : Chamber) : (s.setCh n c).hbSeenAt = s.hbSeenAt := rfl
@[simp] theorem State.setCh_takeoverDue (s : State) (n : Nat) (c : Chamber) : (s.setCh n c).takeoverDue = s.takeoverDue := rfl
@[simp] theorem State.setCh_mirrorBytes (s : State) (n : Nat) (c : Chamber) : (s.setCh n c).mirrorBytes = s.mirrorBytes := rfl
@[simp] theorem State.setCh_keyBad (s : State) (n : Nat) (c : Chamber) : (s.setCh n c).keyBad = s.keyBad := rfl

/-! ## setPort changes ports alone -/

@[simp] theorem State.setPort_pending (s : State) (n : Nat) (p : Port) : (s.setPort n p).pending = s.pending := rfl
@[simp] theorem State.setPort_fields (s : State) (n : Nat) (p : Port) : (s.setPort n p).fields = s.fields := rfl
@[simp] theorem State.setPort_straps (s : State) (n : Nat) (p : Port) : (s.setPort n p).straps = s.straps := rfl
@[simp] theorem State.setPort_image (s : State) (n : Nat) (p : Port) : (s.setPort n p).image = s.image := rfl
@[simp] theorem State.setPort_cycle (s : State) (n : Nat) (p : Port) : (s.setPort n p).cycle = s.cycle := rfl
@[simp] theorem State.setPort_aclk (s : State) (n : Nat) (p : Port) : (s.setPort n p).aclk = s.aclk := rfl
@[simp] theorem State.setPort_freeCount (s : State) (n : Nat) (p : Port) : (s.setPort n p).freeCount = s.freeCount := rfl
@[simp] theorem State.setPort_mem (s : State) (n : Nat) (p : Port) : (s.setPort n p).mem = s.mem := rfl
@[simp] theorem State.setPort_poison (s : State) (n : Nat) (p : Port) : (s.setPort n p).poison = s.poison := rfl
@[simp] theorem State.setPort_nonzero (s : State) (n : Nat) (p : Port) : (s.setPort n p).nonzero = s.nonzero := rfl
@[simp] theorem State.setPort_pages (s : State) (n : Nat) (p : Port) : (s.setPort n p).pages = s.pages := rfl
@[simp] theorem State.setPort_heat (s : State) (n : Nat) (p : Port) : (s.setPort n p).heat = s.heat := rfl
@[simp] theorem State.setPort_objects (s : State) (n : Nat) (p : Port) : (s.setPort n p).objects = s.objects := rfl
@[simp] theorem State.setPort_mirrorQ (s : State) (n : Nat) (p : Port) : (s.setPort n p).mirrorQ = s.mirrorQ := rfl
@[simp] theorem State.setPort_heldWrites (s : State) (n : Nat) (p : Port) : (s.setPort n p).heldWrites = s.heldWrites := rfl
@[simp] theorem State.setPort_heldSeq (s : State) (n : Nat) (p : Port) : (s.setPort n p).heldSeq = s.heldSeq := rfl
@[simp] theorem State.setPort_heldEnds (s : State) (n : Nat) (p : Port) : (s.setPort n p).heldEnds = s.heldEnds := rfl
@[simp] theorem State.setPort_frameWaits (s : State) (n : Nat) (p : Port) : (s.setPort n p).frameWaits = s.frameWaits := rfl
@[simp] theorem State.setPort_snoop (s : State) (n : Nat) (p : Port) : (s.setPort n p).snoop = s.snoop := rfl
@[simp] theorem State.setPort_snoopSeq (s : State) (n : Nat) (p : Port) : (s.setPort n p).snoopSeq = s.snoopSeq := rfl
@[simp] theorem State.setPort_biWait (s : State) (n : Nat) (p : Port) : (s.setPort n p).biWait = s.biWait := rfl
@[simp] theorem State.setPort_violAt (s : State) (n : Nat) (p : Port) : (s.setPort n p).violAt = s.violAt := rfl
@[simp] theorem State.setPort_irq (s : State) (n : Nat) (p : Port) : (s.setPort n p).irq = s.irq := rfl
@[simp] theorem State.setPort_component (s : State) (n : Nat) (p : Port) : (s.setPort n p).component = s.component := rfl
@[simp] theorem State.setPort_decoders (s : State) (n : Nat) (p : Port) : (s.setPort n p).decoders = s.decoders := rfl
@[simp] theorem State.setPort_chambers (s : State) (n : Nat) (p : Port) : (s.setPort n p).chambers = s.chambers := rfl
@[simp] theorem State.setPort_lost (s : State) (n : Nat) (p : Port) : (s.setPort n p).lost = s.lost := rfl
@[simp] theorem State.setPort_prefetches (s : State) (n : Nat) (p : Port) : (s.setPort n p).prefetches = s.prefetches := rfl
@[simp] theorem State.setPort_moves (s : State) (n : Nat) (p : Port) : (s.setPort n p).moves = s.moves := rfl
@[simp] theorem State.setPort_rings (s : State) (n : Nat) (p : Port) : (s.setPort n p).rings = s.rings := rfl
@[simp] theorem State.setPort_rx (s : State) (n : Nat) (p : Port) : (s.setPort n p).rx = s.rx := rfl
@[simp] theorem State.setPort_tx (s : State) (n : Nat) (p : Port) : (s.setPort n p).tx = s.tx := rfl
@[simp] theorem State.setPort_txWait (s : State) (n : Nat) (p : Port) : (s.setPort n p).txWait = s.txWait := rfl
@[simp] theorem State.setPort_cuJobs (s : State) (n : Nat) (p : Port) : (s.setPort n p).cuJobs = s.cuJobs := rfl
@[simp] theorem State.setPort_redJobs (s : State) (n : Nat) (p : Port) : (s.setPort n p).redJobs = s.redJobs := rfl
@[simp] theorem State.setPort_xferSeq (s : State) (n : Nat) (p : Port) : (s.setPort n p).xferSeq = s.xferSeq := rfl
@[simp] theorem State.setPort_cuDone (s : State) (n : Nat) (p : Port) : (s.setPort n p).cuDone = s.cuDone := rfl
@[simp] theorem State.setPort_dispatchQ (s : State) (n : Nat) (p : Port) : (s.setPort n p).dispatchQ = s.dispatchQ := rfl
@[simp] theorem State.setPort_claims (s : State) (n : Nat) (p : Port) : (s.setPort n p).claims = s.claims := rfl
@[simp] theorem State.setPort_deferred (s : State) (n : Nat) (p : Port) : (s.setPort n p).deferred = s.deferred := rfl
@[simp] theorem State.setPort_holdSince (s : State) (n : Nat) (p : Port) : (s.setPort n p).holdSince = s.holdSince := rfl
@[simp] theorem State.setPort_devFailed (s : State) (n : Nat) (p : Port) : (s.setPort n p).devFailed = s.devFailed := rfl
@[simp] theorem State.setPort_keptNoSpare (s : State) (n : Nat) (p : Port) : (s.setPort n p).keptNoSpare = s.keptNoSpare := rfl
@[simp] theorem State.setPort_cuQueue (s : State) (n : Nat) (p : Port) : (s.setPort n p).cuQueue = s.cuQueue := rfl
@[simp] theorem State.setPort_hels (s : State) (n : Nat) (p : Port) : (s.setPort n p).hels = s.hels := rfl
@[simp] theorem State.setPort_xbus (s : State) (n : Nat) (p : Port) : (s.setPort n p).xbus = s.xbus := rfl
@[simp] theorem State.setPort_hlcQueue (s : State) (n : Nat) (p : Port) : (s.setPort n p).hlcQueue = s.hlcQueue := rfl
@[simp] theorem State.setPort_hlcJobs (s : State) (n : Nat) (p : Port) : (s.setPort n p).hlcJobs = s.hlcJobs := rfl
@[simp] theorem State.setPort_hlcDone (s : State) (n : Nat) (p : Port) : (s.setPort n p).hlcDone = s.hlcDone := rfl
@[simp] theorem State.setPort_layerTemp (s : State) (n : Nat) (p : Port) : (s.setPort n p).layerTemp = s.layerTemp := rfl
@[simp] theorem State.setPort_refreshOwed (s : State) (n : Nat) (p : Port) : (s.setPort n p).refreshOwed = s.refreshOwed := rfl
@[simp] theorem State.setPort_rowErr (s : State) (n : Nat) (p : Port) : (s.setPort n p).rowErr = s.rowErr := rfl
@[simp] theorem State.setPort_rowMoved (s : State) (n : Nat) (p : Port) : (s.setPort n p).rowMoved = s.rowMoved := rfl
@[simp] theorem State.setPort_flsQueue (s : State) (n : Nat) (p : Port) : (s.setPort n p).flsQueue = s.flsQueue := rfl
@[simp] theorem State.setPort_flsDone (s : State) (n : Nat) (p : Port) : (s.setPort n p).flsDone = s.flsDone := rfl
@[simp] theorem State.setPort_drainCmd (s : State) (n : Nat) (p : Port) : (s.setPort n p).drainCmd = s.drainCmd := rfl
@[simp] theorem State.setPort_drainPress (s : State) (n : Nat) (p : Port) : (s.setPort n p).drainPress = s.drainPress := rfl
@[simp] theorem State.setPort_lostPages (s : State) (n : Nat) (p : Port) : (s.setPort n p).lostPages = s.lostPages := rfl
@[simp] theorem State.setPort_epochAt (s : State) (n : Nat) (p : Port) : (s.setPort n p).epochAt = s.epochAt := rfl
@[simp] theorem State.setPort_slotCode (s : State) (n : Nat) (p : Port) : (s.setPort n p).slotCode = s.slotCode := rfl
@[simp] theorem State.setPort_devCode (s : State) (n : Nat) (p : Port) : (s.setPort n p).devCode = s.devCode := rfl
@[simp] theorem State.setPort_tokens (s : State) (n : Nat) (p : Port) : (s.setPort n p).tokens = s.tokens := rfl
@[simp] theorem State.setPort_stepQueue (s : State) (n : Nat) (p : Port) : (s.setPort n p).stepQueue = s.stepQueue := rfl
@[simp] theorem State.setPort_trv (s : State) (n : Nat) (p : Port) : (s.setPort n p).trv = s.trv := rfl
@[simp] theorem State.setPort_openRecs (s : State) (n : Nat) (p : Port) : (s.setPort n p).openRecs = s.openRecs := rfl
@[simp] theorem State.setPort_endedRecs (s : State) (n : Nat) (p : Port) : (s.setPort n p).endedRecs = s.endedRecs := rfl
@[simp] theorem State.setPort_heldCmpl (s : State) (n : Nat) (p : Port) : (s.setPort n p).heldCmpl = s.heldCmpl := rfl
@[simp] theorem State.setPort_ledgerTail (s : State) (n : Nat) (p : Port) : (s.setPort n p).ledgerTail = s.ledgerTail := rfl
@[simp] theorem State.setPort_cmplHead (s : State) (n : Nat) (p : Port) : (s.setPort n p).cmplHead = s.cmplHead := rfl
@[simp] theorem State.setPort_cmplCount (s : State) (n : Nat) (p : Port) : (s.setPort n p).cmplCount = s.cmplCount := rfl
@[simp] theorem State.setPort_ledgerBad (s : State) (n : Nat) (p : Port) : (s.setPort n p).ledgerBad = s.ledgerBad := rfl
@[simp] theorem State.setPort_hostWrites (s : State) (n : Nat) (p : Port) : (s.setPort n p).hostWrites = s.hostWrites := rfl
@[simp] theorem State.setPort_hostReply (s : State) (n : Nat) (p : Port) : (s.setPort n p).hostReply = s.hostReply := rfl
@[simp] theorem State.setPort_irqWait (s : State) (n : Nat) (p : Port) : (s.setPort n p).irqWait = s.irqWait := rfl
@[simp] theorem State.setPort_irqAt (s : State) (n : Nat) (p : Port) : (s.setPort n p).irqAt = s.irqAt := rfl
@[simp] theorem State.setPort_kpr (s : State) (n : Nat) (p : Port) : (s.setPort n p).kpr = s.kpr := rfl
@[simp] theorem State.setPort_kprStamp0 (s : State) (n : Nat) (p : Port) : (s.setPort n p).kprStamp0 = s.kprStamp0 := rfl
@[simp] theorem State.setPort_kprPeer (s : State) (n : Nat) (p : Port) : (s.setPort n p).kprPeer = s.kprPeer := rfl
@[simp] theorem State.setPort_arbs (s : State) (n : Nat) (p : Port) : (s.setPort n p).arbs = s.arbs := rfl
@[simp] theorem State.setPort_arbUse (s : State) (n : Nat) (p : Port) : (s.setPort n p).arbUse = s.arbUse := rfl
@[simp] theorem State.setPort_biAt (s : State) (n : Nat) (p : Port) : (s.setPort n p).biAt = s.biAt := rfl
@[simp] theorem State.setPort_memActive (s : State) (n : Nat) (p : Port) : (s.setPort n p).memActive = s.memActive := rfl
@[simp] theorem State.setPort_attachments (s : State) (n : Nat) (p : Port) : (s.setPort n p).attachments = s.attachments := rfl
@[simp] theorem State.setPort_started (s : State) (n : Nat) (p : Port) : (s.setPort n p).started = s.started := rfl
@[simp] theorem State.setPort_detaching (s : State) (n : Nat) (p : Port) : (s.setPort n p).detaching = s.detaching := rfl
@[simp] theorem State.setPort_flash (s : State) (n : Nat) (p : Port) : (s.setPort n p).flash = s.flash := rfl
@[simp] theorem State.setPort_booted (s : State) (n : Nat) (p : Port) : (s.setPort n p).booted = s.booted := rfl
@[simp] theorem State.setPort_staging (s : State) (n : Nat) (p : Port) : (s.setPort n p).staging = s.staging := rfl
@[simp] theorem State.setPort_attCounter (s : State) (n : Nat) (p : Port) : (s.setPort n p).attCounter = s.attCounter := rfl
@[simp] theorem State.setPort_topLeaf (s : State) (n : Nat) (p : Port) : (s.setPort n p).topLeaf = s.topLeaf := rfl
@[simp] theorem State.setPort_devId (s : State) (n : Nat) (p : Port) : (s.setPort n p).devId = s.devId := rfl
@[simp] theorem State.setPort_devKey (s : State) (n : Nat) (p : Port) : (s.setPort n p).devKey = s.devKey := rfl
@[simp] theorem State.setPort_jtag (s : State) (n : Nat) (p : Port) : (s.setPort n p).jtag = s.jtag := rfl
@[simp] theorem State.setPort_inReset (s : State) (n : Nat) (p : Port) : (s.setPort n p).inReset = s.inReset := rfl
@[simp] theorem State.setPort_tripped (s : State) (n : Nat) (p : Port) : (s.setPort n p).tripped = s.tripped := rfl
@[simp] theorem State.setPort_rstLatch (s : State) (n : Nat) (p : Port) : (s.setPort n p).rstLatch = s.rstLatch := rfl
@[simp] theorem State.setPort_vddMv (s : State) (n : Nat) (p : Port) : (s.setPort n p).vddMv = s.vddMv := rfl
@[simp] theorem State.setPort_dips (s : State) (n : Nat) (p : Port) : (s.setPort n p).dips = s.dips := rfl
@[simp] theorem State.setPort_dozeIdle (s : State) (n : Nat) (p : Port) : (s.setPort n p).dozeIdle = s.dozeIdle := rfl
@[simp] theorem State.setPort_keepIdle (s : State) (n : Nat) (p : Port) : (s.setPort n p).keepIdle = s.keepIdle := rfl
@[simp] theorem State.setPort_govDram (s : State) (n : Nat) (p : Port) : (s.setPort n p).govDram = s.govDram := rfl
@[simp] theorem State.setPort_iccSeen (s : State) (n : Nat) (p : Port) : (s.setPort n p).iccSeen = s.iccSeen := rfl
@[simp] theorem State.setPort_slotPower (s : State) (n : Nat) (p : Port) : (s.setPort n p).slotPower = s.slotPower := rfl
@[simp] theorem State.setPort_handPress (s : State) (n : Nat) (p : Port) : (s.setPort n p).handPress = s.handPress := rfl
@[simp] theorem State.setPort_handMark (s : State) (n : Nat) (p : Port) : (s.setPort n p).handMark = s.handMark := rfl
@[simp] theorem State.setPort_twinSent (s : State) (n : Nat) (p : Port) : (s.setPort n p).twinSent = s.twinSent := rfl
@[simp] theorem State.setPort_hbSentAt (s : State) (n : Nat) (p : Port) : (s.setPort n p).hbSentAt = s.hbSentAt := rfl
@[simp] theorem State.setPort_hbSeenAt (s : State) (n : Nat) (p : Port) : (s.setPort n p).hbSeenAt = s.hbSeenAt := rfl
@[simp] theorem State.setPort_takeoverDue (s : State) (n : Nat) (p : Port) : (s.setPort n p).takeoverDue = s.takeoverDue := rfl
@[simp] theorem State.setPort_mirrorBytes (s : State) (n : Nat) (p : Port) : (s.setPort n p).mirrorBytes = s.mirrorBytes := rfl
@[simp] theorem State.setPort_keyBad (s : State) (n : Nat) (p : Port) : (s.setPort n p).keyBad = s.keyBad := rfl

/-! ## setHel changes hels alone -/

@[simp] theorem State.setHel_pending (s : State) (n : Nat) (h : Hel) : (s.setHel n h).pending = s.pending := rfl
@[simp] theorem State.setHel_fields (s : State) (n : Nat) (h : Hel) : (s.setHel n h).fields = s.fields := rfl
@[simp] theorem State.setHel_straps (s : State) (n : Nat) (h : Hel) : (s.setHel n h).straps = s.straps := rfl
@[simp] theorem State.setHel_image (s : State) (n : Nat) (h : Hel) : (s.setHel n h).image = s.image := rfl
@[simp] theorem State.setHel_cycle (s : State) (n : Nat) (h : Hel) : (s.setHel n h).cycle = s.cycle := rfl
@[simp] theorem State.setHel_aclk (s : State) (n : Nat) (h : Hel) : (s.setHel n h).aclk = s.aclk := rfl
@[simp] theorem State.setHel_freeCount (s : State) (n : Nat) (h : Hel) : (s.setHel n h).freeCount = s.freeCount := rfl
@[simp] theorem State.setHel_mem (s : State) (n : Nat) (h : Hel) : (s.setHel n h).mem = s.mem := rfl
@[simp] theorem State.setHel_poison (s : State) (n : Nat) (h : Hel) : (s.setHel n h).poison = s.poison := rfl
@[simp] theorem State.setHel_nonzero (s : State) (n : Nat) (h : Hel) : (s.setHel n h).nonzero = s.nonzero := rfl
@[simp] theorem State.setHel_pages (s : State) (n : Nat) (h : Hel) : (s.setHel n h).pages = s.pages := rfl
@[simp] theorem State.setHel_heat (s : State) (n : Nat) (h : Hel) : (s.setHel n h).heat = s.heat := rfl
@[simp] theorem State.setHel_objects (s : State) (n : Nat) (h : Hel) : (s.setHel n h).objects = s.objects := rfl
@[simp] theorem State.setHel_mirrorQ (s : State) (n : Nat) (h : Hel) : (s.setHel n h).mirrorQ = s.mirrorQ := rfl
@[simp] theorem State.setHel_heldWrites (s : State) (n : Nat) (h : Hel) : (s.setHel n h).heldWrites = s.heldWrites := rfl
@[simp] theorem State.setHel_heldSeq (s : State) (n : Nat) (h : Hel) : (s.setHel n h).heldSeq = s.heldSeq := rfl
@[simp] theorem State.setHel_heldEnds (s : State) (n : Nat) (h : Hel) : (s.setHel n h).heldEnds = s.heldEnds := rfl
@[simp] theorem State.setHel_frameWaits (s : State) (n : Nat) (h : Hel) : (s.setHel n h).frameWaits = s.frameWaits := rfl
@[simp] theorem State.setHel_snoop (s : State) (n : Nat) (h : Hel) : (s.setHel n h).snoop = s.snoop := rfl
@[simp] theorem State.setHel_snoopSeq (s : State) (n : Nat) (h : Hel) : (s.setHel n h).snoopSeq = s.snoopSeq := rfl
@[simp] theorem State.setHel_biWait (s : State) (n : Nat) (h : Hel) : (s.setHel n h).biWait = s.biWait := rfl
@[simp] theorem State.setHel_violAt (s : State) (n : Nat) (h : Hel) : (s.setHel n h).violAt = s.violAt := rfl
@[simp] theorem State.setHel_irq (s : State) (n : Nat) (h : Hel) : (s.setHel n h).irq = s.irq := rfl
@[simp] theorem State.setHel_component (s : State) (n : Nat) (h : Hel) : (s.setHel n h).component = s.component := rfl
@[simp] theorem State.setHel_decoders (s : State) (n : Nat) (h : Hel) : (s.setHel n h).decoders = s.decoders := rfl
@[simp] theorem State.setHel_chambers (s : State) (n : Nat) (h : Hel) : (s.setHel n h).chambers = s.chambers := rfl
@[simp] theorem State.setHel_ports (s : State) (n : Nat) (h : Hel) : (s.setHel n h).ports = s.ports := rfl
@[simp] theorem State.setHel_lost (s : State) (n : Nat) (h : Hel) : (s.setHel n h).lost = s.lost := rfl
@[simp] theorem State.setHel_prefetches (s : State) (n : Nat) (h : Hel) : (s.setHel n h).prefetches = s.prefetches := rfl
@[simp] theorem State.setHel_moves (s : State) (n : Nat) (h : Hel) : (s.setHel n h).moves = s.moves := rfl
@[simp] theorem State.setHel_rings (s : State) (n : Nat) (h : Hel) : (s.setHel n h).rings = s.rings := rfl
@[simp] theorem State.setHel_rx (s : State) (n : Nat) (h : Hel) : (s.setHel n h).rx = s.rx := rfl
@[simp] theorem State.setHel_tx (s : State) (n : Nat) (h : Hel) : (s.setHel n h).tx = s.tx := rfl
@[simp] theorem State.setHel_txWait (s : State) (n : Nat) (h : Hel) : (s.setHel n h).txWait = s.txWait := rfl
@[simp] theorem State.setHel_cuJobs (s : State) (n : Nat) (h : Hel) : (s.setHel n h).cuJobs = s.cuJobs := rfl
@[simp] theorem State.setHel_redJobs (s : State) (n : Nat) (h : Hel) : (s.setHel n h).redJobs = s.redJobs := rfl
@[simp] theorem State.setHel_xferSeq (s : State) (n : Nat) (h : Hel) : (s.setHel n h).xferSeq = s.xferSeq := rfl
@[simp] theorem State.setHel_cuDone (s : State) (n : Nat) (h : Hel) : (s.setHel n h).cuDone = s.cuDone := rfl
@[simp] theorem State.setHel_dispatchQ (s : State) (n : Nat) (h : Hel) : (s.setHel n h).dispatchQ = s.dispatchQ := rfl
@[simp] theorem State.setHel_claims (s : State) (n : Nat) (h : Hel) : (s.setHel n h).claims = s.claims := rfl
@[simp] theorem State.setHel_deferred (s : State) (n : Nat) (h : Hel) : (s.setHel n h).deferred = s.deferred := rfl
@[simp] theorem State.setHel_holdSince (s : State) (n : Nat) (h : Hel) : (s.setHel n h).holdSince = s.holdSince := rfl
@[simp] theorem State.setHel_devFailed (s : State) (n : Nat) (h : Hel) : (s.setHel n h).devFailed = s.devFailed := rfl
@[simp] theorem State.setHel_keptNoSpare (s : State) (n : Nat) (h : Hel) : (s.setHel n h).keptNoSpare = s.keptNoSpare := rfl
@[simp] theorem State.setHel_cuQueue (s : State) (n : Nat) (h : Hel) : (s.setHel n h).cuQueue = s.cuQueue := rfl
@[simp] theorem State.setHel_xbus (s : State) (n : Nat) (h : Hel) : (s.setHel n h).xbus = s.xbus := rfl
@[simp] theorem State.setHel_hlcQueue (s : State) (n : Nat) (h : Hel) : (s.setHel n h).hlcQueue = s.hlcQueue := rfl
@[simp] theorem State.setHel_hlcJobs (s : State) (n : Nat) (h : Hel) : (s.setHel n h).hlcJobs = s.hlcJobs := rfl
@[simp] theorem State.setHel_hlcDone (s : State) (n : Nat) (h : Hel) : (s.setHel n h).hlcDone = s.hlcDone := rfl
@[simp] theorem State.setHel_layerTemp (s : State) (n : Nat) (h : Hel) : (s.setHel n h).layerTemp = s.layerTemp := rfl
@[simp] theorem State.setHel_refreshOwed (s : State) (n : Nat) (h : Hel) : (s.setHel n h).refreshOwed = s.refreshOwed := rfl
@[simp] theorem State.setHel_rowErr (s : State) (n : Nat) (h : Hel) : (s.setHel n h).rowErr = s.rowErr := rfl
@[simp] theorem State.setHel_rowMoved (s : State) (n : Nat) (h : Hel) : (s.setHel n h).rowMoved = s.rowMoved := rfl
@[simp] theorem State.setHel_flsQueue (s : State) (n : Nat) (h : Hel) : (s.setHel n h).flsQueue = s.flsQueue := rfl
@[simp] theorem State.setHel_flsDone (s : State) (n : Nat) (h : Hel) : (s.setHel n h).flsDone = s.flsDone := rfl
@[simp] theorem State.setHel_drainCmd (s : State) (n : Nat) (h : Hel) : (s.setHel n h).drainCmd = s.drainCmd := rfl
@[simp] theorem State.setHel_drainPress (s : State) (n : Nat) (h : Hel) : (s.setHel n h).drainPress = s.drainPress := rfl
@[simp] theorem State.setHel_lostPages (s : State) (n : Nat) (h : Hel) : (s.setHel n h).lostPages = s.lostPages := rfl
@[simp] theorem State.setHel_epochAt (s : State) (n : Nat) (h : Hel) : (s.setHel n h).epochAt = s.epochAt := rfl
@[simp] theorem State.setHel_slotCode (s : State) (n : Nat) (h : Hel) : (s.setHel n h).slotCode = s.slotCode := rfl
@[simp] theorem State.setHel_devCode (s : State) (n : Nat) (h : Hel) : (s.setHel n h).devCode = s.devCode := rfl
@[simp] theorem State.setHel_tokens (s : State) (n : Nat) (h : Hel) : (s.setHel n h).tokens = s.tokens := rfl
@[simp] theorem State.setHel_stepQueue (s : State) (n : Nat) (h : Hel) : (s.setHel n h).stepQueue = s.stepQueue := rfl
@[simp] theorem State.setHel_trv (s : State) (n : Nat) (h : Hel) : (s.setHel n h).trv = s.trv := rfl
@[simp] theorem State.setHel_openRecs (s : State) (n : Nat) (h : Hel) : (s.setHel n h).openRecs = s.openRecs := rfl
@[simp] theorem State.setHel_endedRecs (s : State) (n : Nat) (h : Hel) : (s.setHel n h).endedRecs = s.endedRecs := rfl
@[simp] theorem State.setHel_heldCmpl (s : State) (n : Nat) (h : Hel) : (s.setHel n h).heldCmpl = s.heldCmpl := rfl
@[simp] theorem State.setHel_ledgerTail (s : State) (n : Nat) (h : Hel) : (s.setHel n h).ledgerTail = s.ledgerTail := rfl
@[simp] theorem State.setHel_cmplHead (s : State) (n : Nat) (h : Hel) : (s.setHel n h).cmplHead = s.cmplHead := rfl
@[simp] theorem State.setHel_cmplCount (s : State) (n : Nat) (h : Hel) : (s.setHel n h).cmplCount = s.cmplCount := rfl
@[simp] theorem State.setHel_ledgerBad (s : State) (n : Nat) (h : Hel) : (s.setHel n h).ledgerBad = s.ledgerBad := rfl
@[simp] theorem State.setHel_hostWrites (s : State) (n : Nat) (h : Hel) : (s.setHel n h).hostWrites = s.hostWrites := rfl
@[simp] theorem State.setHel_hostReply (s : State) (n : Nat) (h : Hel) : (s.setHel n h).hostReply = s.hostReply := rfl
@[simp] theorem State.setHel_irqWait (s : State) (n : Nat) (h : Hel) : (s.setHel n h).irqWait = s.irqWait := rfl
@[simp] theorem State.setHel_irqAt (s : State) (n : Nat) (h : Hel) : (s.setHel n h).irqAt = s.irqAt := rfl
@[simp] theorem State.setHel_kpr (s : State) (n : Nat) (h : Hel) : (s.setHel n h).kpr = s.kpr := rfl
@[simp] theorem State.setHel_kprStamp0 (s : State) (n : Nat) (h : Hel) : (s.setHel n h).kprStamp0 = s.kprStamp0 := rfl
@[simp] theorem State.setHel_kprPeer (s : State) (n : Nat) (h : Hel) : (s.setHel n h).kprPeer = s.kprPeer := rfl
@[simp] theorem State.setHel_arbs (s : State) (n : Nat) (h : Hel) : (s.setHel n h).arbs = s.arbs := rfl
@[simp] theorem State.setHel_arbUse (s : State) (n : Nat) (h : Hel) : (s.setHel n h).arbUse = s.arbUse := rfl
@[simp] theorem State.setHel_biAt (s : State) (n : Nat) (h : Hel) : (s.setHel n h).biAt = s.biAt := rfl
@[simp] theorem State.setHel_memActive (s : State) (n : Nat) (h : Hel) : (s.setHel n h).memActive = s.memActive := rfl
@[simp] theorem State.setHel_attachments (s : State) (n : Nat) (h : Hel) : (s.setHel n h).attachments = s.attachments := rfl
@[simp] theorem State.setHel_started (s : State) (n : Nat) (h : Hel) : (s.setHel n h).started = s.started := rfl
@[simp] theorem State.setHel_detaching (s : State) (n : Nat) (h : Hel) : (s.setHel n h).detaching = s.detaching := rfl
@[simp] theorem State.setHel_flash (s : State) (n : Nat) (h : Hel) : (s.setHel n h).flash = s.flash := rfl
@[simp] theorem State.setHel_booted (s : State) (n : Nat) (h : Hel) : (s.setHel n h).booted = s.booted := rfl
@[simp] theorem State.setHel_staging (s : State) (n : Nat) (h : Hel) : (s.setHel n h).staging = s.staging := rfl
@[simp] theorem State.setHel_attCounter (s : State) (n : Nat) (h : Hel) : (s.setHel n h).attCounter = s.attCounter := rfl
@[simp] theorem State.setHel_topLeaf (s : State) (n : Nat) (h : Hel) : (s.setHel n h).topLeaf = s.topLeaf := rfl
@[simp] theorem State.setHel_devId (s : State) (n : Nat) (h : Hel) : (s.setHel n h).devId = s.devId := rfl
@[simp] theorem State.setHel_devKey (s : State) (n : Nat) (h : Hel) : (s.setHel n h).devKey = s.devKey := rfl
@[simp] theorem State.setHel_jtag (s : State) (n : Nat) (h : Hel) : (s.setHel n h).jtag = s.jtag := rfl
@[simp] theorem State.setHel_inReset (s : State) (n : Nat) (h : Hel) : (s.setHel n h).inReset = s.inReset := rfl
@[simp] theorem State.setHel_tripped (s : State) (n : Nat) (h : Hel) : (s.setHel n h).tripped = s.tripped := rfl
@[simp] theorem State.setHel_rstLatch (s : State) (n : Nat) (h : Hel) : (s.setHel n h).rstLatch = s.rstLatch := rfl
@[simp] theorem State.setHel_vddMv (s : State) (n : Nat) (h : Hel) : (s.setHel n h).vddMv = s.vddMv := rfl
@[simp] theorem State.setHel_dips (s : State) (n : Nat) (h : Hel) : (s.setHel n h).dips = s.dips := rfl
@[simp] theorem State.setHel_dozeIdle (s : State) (n : Nat) (h : Hel) : (s.setHel n h).dozeIdle = s.dozeIdle := rfl
@[simp] theorem State.setHel_keepIdle (s : State) (n : Nat) (h : Hel) : (s.setHel n h).keepIdle = s.keepIdle := rfl
@[simp] theorem State.setHel_govDram (s : State) (n : Nat) (h : Hel) : (s.setHel n h).govDram = s.govDram := rfl
@[simp] theorem State.setHel_iccSeen (s : State) (n : Nat) (h : Hel) : (s.setHel n h).iccSeen = s.iccSeen := rfl
@[simp] theorem State.setHel_slotPower (s : State) (n : Nat) (h : Hel) : (s.setHel n h).slotPower = s.slotPower := rfl
@[simp] theorem State.setHel_handPress (s : State) (n : Nat) (h : Hel) : (s.setHel n h).handPress = s.handPress := rfl
@[simp] theorem State.setHel_handMark (s : State) (n : Nat) (h : Hel) : (s.setHel n h).handMark = s.handMark := rfl
@[simp] theorem State.setHel_twinSent (s : State) (n : Nat) (h : Hel) : (s.setHel n h).twinSent = s.twinSent := rfl
@[simp] theorem State.setHel_hbSentAt (s : State) (n : Nat) (h : Hel) : (s.setHel n h).hbSentAt = s.hbSentAt := rfl
@[simp] theorem State.setHel_hbSeenAt (s : State) (n : Nat) (h : Hel) : (s.setHel n h).hbSeenAt = s.hbSeenAt := rfl
@[simp] theorem State.setHel_takeoverDue (s : State) (n : Nat) (h : Hel) : (s.setHel n h).takeoverDue = s.takeoverDue := rfl
@[simp] theorem State.setHel_mirrorBytes (s : State) (n : Nat) (h : Hel) : (s.setHel n h).mirrorBytes = s.mirrorBytes := rfl
@[simp] theorem State.setHel_keyBad (s : State) (n : Nat) (h : Hel) : (s.setHel n h).keyBad = s.keyBad := rfl

/-! ## setRing changes rings alone -/

@[simp] theorem State.setRing_pending (s : State) (n : Nat) (r : RingPos) : (s.setRing n r).pending = s.pending := rfl
@[simp] theorem State.setRing_fields (s : State) (n : Nat) (r : RingPos) : (s.setRing n r).fields = s.fields := rfl
@[simp] theorem State.setRing_straps (s : State) (n : Nat) (r : RingPos) : (s.setRing n r).straps = s.straps := rfl
@[simp] theorem State.setRing_image (s : State) (n : Nat) (r : RingPos) : (s.setRing n r).image = s.image := rfl
@[simp] theorem State.setRing_cycle (s : State) (n : Nat) (r : RingPos) : (s.setRing n r).cycle = s.cycle := rfl
@[simp] theorem State.setRing_aclk (s : State) (n : Nat) (r : RingPos) : (s.setRing n r).aclk = s.aclk := rfl
@[simp] theorem State.setRing_freeCount (s : State) (n : Nat) (r : RingPos) : (s.setRing n r).freeCount = s.freeCount := rfl
@[simp] theorem State.setRing_mem (s : State) (n : Nat) (r : RingPos) : (s.setRing n r).mem = s.mem := rfl
@[simp] theorem State.setRing_poison (s : State) (n : Nat) (r : RingPos) : (s.setRing n r).poison = s.poison := rfl
@[simp] theorem State.setRing_nonzero (s : State) (n : Nat) (r : RingPos) : (s.setRing n r).nonzero = s.nonzero := rfl
@[simp] theorem State.setRing_pages (s : State) (n : Nat) (r : RingPos) : (s.setRing n r).pages = s.pages := rfl
@[simp] theorem State.setRing_heat (s : State) (n : Nat) (r : RingPos) : (s.setRing n r).heat = s.heat := rfl
@[simp] theorem State.setRing_objects (s : State) (n : Nat) (r : RingPos) : (s.setRing n r).objects = s.objects := rfl
@[simp] theorem State.setRing_mirrorQ (s : State) (n : Nat) (r : RingPos) : (s.setRing n r).mirrorQ = s.mirrorQ := rfl
@[simp] theorem State.setRing_heldWrites (s : State) (n : Nat) (r : RingPos) : (s.setRing n r).heldWrites = s.heldWrites := rfl
@[simp] theorem State.setRing_heldSeq (s : State) (n : Nat) (r : RingPos) : (s.setRing n r).heldSeq = s.heldSeq := rfl
@[simp] theorem State.setRing_heldEnds (s : State) (n : Nat) (r : RingPos) : (s.setRing n r).heldEnds = s.heldEnds := rfl
@[simp] theorem State.setRing_frameWaits (s : State) (n : Nat) (r : RingPos) : (s.setRing n r).frameWaits = s.frameWaits := rfl
@[simp] theorem State.setRing_snoop (s : State) (n : Nat) (r : RingPos) : (s.setRing n r).snoop = s.snoop := rfl
@[simp] theorem State.setRing_snoopSeq (s : State) (n : Nat) (r : RingPos) : (s.setRing n r).snoopSeq = s.snoopSeq := rfl
@[simp] theorem State.setRing_biWait (s : State) (n : Nat) (r : RingPos) : (s.setRing n r).biWait = s.biWait := rfl
@[simp] theorem State.setRing_violAt (s : State) (n : Nat) (r : RingPos) : (s.setRing n r).violAt = s.violAt := rfl
@[simp] theorem State.setRing_irq (s : State) (n : Nat) (r : RingPos) : (s.setRing n r).irq = s.irq := rfl
@[simp] theorem State.setRing_component (s : State) (n : Nat) (r : RingPos) : (s.setRing n r).component = s.component := rfl
@[simp] theorem State.setRing_decoders (s : State) (n : Nat) (r : RingPos) : (s.setRing n r).decoders = s.decoders := rfl
@[simp] theorem State.setRing_chambers (s : State) (n : Nat) (r : RingPos) : (s.setRing n r).chambers = s.chambers := rfl
@[simp] theorem State.setRing_ports (s : State) (n : Nat) (r : RingPos) : (s.setRing n r).ports = s.ports := rfl
@[simp] theorem State.setRing_lost (s : State) (n : Nat) (r : RingPos) : (s.setRing n r).lost = s.lost := rfl
@[simp] theorem State.setRing_prefetches (s : State) (n : Nat) (r : RingPos) : (s.setRing n r).prefetches = s.prefetches := rfl
@[simp] theorem State.setRing_moves (s : State) (n : Nat) (r : RingPos) : (s.setRing n r).moves = s.moves := rfl
@[simp] theorem State.setRing_rx (s : State) (n : Nat) (r : RingPos) : (s.setRing n r).rx = s.rx := rfl
@[simp] theorem State.setRing_tx (s : State) (n : Nat) (r : RingPos) : (s.setRing n r).tx = s.tx := rfl
@[simp] theorem State.setRing_txWait (s : State) (n : Nat) (r : RingPos) : (s.setRing n r).txWait = s.txWait := rfl
@[simp] theorem State.setRing_cuJobs (s : State) (n : Nat) (r : RingPos) : (s.setRing n r).cuJobs = s.cuJobs := rfl
@[simp] theorem State.setRing_redJobs (s : State) (n : Nat) (r : RingPos) : (s.setRing n r).redJobs = s.redJobs := rfl
@[simp] theorem State.setRing_xferSeq (s : State) (n : Nat) (r : RingPos) : (s.setRing n r).xferSeq = s.xferSeq := rfl
@[simp] theorem State.setRing_cuDone (s : State) (n : Nat) (r : RingPos) : (s.setRing n r).cuDone = s.cuDone := rfl
@[simp] theorem State.setRing_dispatchQ (s : State) (n : Nat) (r : RingPos) : (s.setRing n r).dispatchQ = s.dispatchQ := rfl
@[simp] theorem State.setRing_claims (s : State) (n : Nat) (r : RingPos) : (s.setRing n r).claims = s.claims := rfl
@[simp] theorem State.setRing_deferred (s : State) (n : Nat) (r : RingPos) : (s.setRing n r).deferred = s.deferred := rfl
@[simp] theorem State.setRing_holdSince (s : State) (n : Nat) (r : RingPos) : (s.setRing n r).holdSince = s.holdSince := rfl
@[simp] theorem State.setRing_devFailed (s : State) (n : Nat) (r : RingPos) : (s.setRing n r).devFailed = s.devFailed := rfl
@[simp] theorem State.setRing_keptNoSpare (s : State) (n : Nat) (r : RingPos) : (s.setRing n r).keptNoSpare = s.keptNoSpare := rfl
@[simp] theorem State.setRing_cuQueue (s : State) (n : Nat) (r : RingPos) : (s.setRing n r).cuQueue = s.cuQueue := rfl
@[simp] theorem State.setRing_hels (s : State) (n : Nat) (r : RingPos) : (s.setRing n r).hels = s.hels := rfl
@[simp] theorem State.setRing_xbus (s : State) (n : Nat) (r : RingPos) : (s.setRing n r).xbus = s.xbus := rfl
@[simp] theorem State.setRing_hlcQueue (s : State) (n : Nat) (r : RingPos) : (s.setRing n r).hlcQueue = s.hlcQueue := rfl
@[simp] theorem State.setRing_hlcJobs (s : State) (n : Nat) (r : RingPos) : (s.setRing n r).hlcJobs = s.hlcJobs := rfl
@[simp] theorem State.setRing_hlcDone (s : State) (n : Nat) (r : RingPos) : (s.setRing n r).hlcDone = s.hlcDone := rfl
@[simp] theorem State.setRing_layerTemp (s : State) (n : Nat) (r : RingPos) : (s.setRing n r).layerTemp = s.layerTemp := rfl
@[simp] theorem State.setRing_refreshOwed (s : State) (n : Nat) (r : RingPos) : (s.setRing n r).refreshOwed = s.refreshOwed := rfl
@[simp] theorem State.setRing_rowErr (s : State) (n : Nat) (r : RingPos) : (s.setRing n r).rowErr = s.rowErr := rfl
@[simp] theorem State.setRing_rowMoved (s : State) (n : Nat) (r : RingPos) : (s.setRing n r).rowMoved = s.rowMoved := rfl
@[simp] theorem State.setRing_flsQueue (s : State) (n : Nat) (r : RingPos) : (s.setRing n r).flsQueue = s.flsQueue := rfl
@[simp] theorem State.setRing_flsDone (s : State) (n : Nat) (r : RingPos) : (s.setRing n r).flsDone = s.flsDone := rfl
@[simp] theorem State.setRing_drainCmd (s : State) (n : Nat) (r : RingPos) : (s.setRing n r).drainCmd = s.drainCmd := rfl
@[simp] theorem State.setRing_drainPress (s : State) (n : Nat) (r : RingPos) : (s.setRing n r).drainPress = s.drainPress := rfl
@[simp] theorem State.setRing_lostPages (s : State) (n : Nat) (r : RingPos) : (s.setRing n r).lostPages = s.lostPages := rfl
@[simp] theorem State.setRing_epochAt (s : State) (n : Nat) (r : RingPos) : (s.setRing n r).epochAt = s.epochAt := rfl
@[simp] theorem State.setRing_slotCode (s : State) (n : Nat) (r : RingPos) : (s.setRing n r).slotCode = s.slotCode := rfl
@[simp] theorem State.setRing_devCode (s : State) (n : Nat) (r : RingPos) : (s.setRing n r).devCode = s.devCode := rfl
@[simp] theorem State.setRing_tokens (s : State) (n : Nat) (r : RingPos) : (s.setRing n r).tokens = s.tokens := rfl
@[simp] theorem State.setRing_stepQueue (s : State) (n : Nat) (r : RingPos) : (s.setRing n r).stepQueue = s.stepQueue := rfl
@[simp] theorem State.setRing_trv (s : State) (n : Nat) (r : RingPos) : (s.setRing n r).trv = s.trv := rfl
@[simp] theorem State.setRing_openRecs (s : State) (n : Nat) (r : RingPos) : (s.setRing n r).openRecs = s.openRecs := rfl
@[simp] theorem State.setRing_endedRecs (s : State) (n : Nat) (r : RingPos) : (s.setRing n r).endedRecs = s.endedRecs := rfl
@[simp] theorem State.setRing_heldCmpl (s : State) (n : Nat) (r : RingPos) : (s.setRing n r).heldCmpl = s.heldCmpl := rfl
@[simp] theorem State.setRing_ledgerTail (s : State) (n : Nat) (r : RingPos) : (s.setRing n r).ledgerTail = s.ledgerTail := rfl
@[simp] theorem State.setRing_cmplHead (s : State) (n : Nat) (r : RingPos) : (s.setRing n r).cmplHead = s.cmplHead := rfl
@[simp] theorem State.setRing_cmplCount (s : State) (n : Nat) (r : RingPos) : (s.setRing n r).cmplCount = s.cmplCount := rfl
@[simp] theorem State.setRing_ledgerBad (s : State) (n : Nat) (r : RingPos) : (s.setRing n r).ledgerBad = s.ledgerBad := rfl
@[simp] theorem State.setRing_hostWrites (s : State) (n : Nat) (r : RingPos) : (s.setRing n r).hostWrites = s.hostWrites := rfl
@[simp] theorem State.setRing_hostReply (s : State) (n : Nat) (r : RingPos) : (s.setRing n r).hostReply = s.hostReply := rfl
@[simp] theorem State.setRing_irqWait (s : State) (n : Nat) (r : RingPos) : (s.setRing n r).irqWait = s.irqWait := rfl
@[simp] theorem State.setRing_irqAt (s : State) (n : Nat) (r : RingPos) : (s.setRing n r).irqAt = s.irqAt := rfl
@[simp] theorem State.setRing_kpr (s : State) (n : Nat) (r : RingPos) : (s.setRing n r).kpr = s.kpr := rfl
@[simp] theorem State.setRing_kprStamp0 (s : State) (n : Nat) (r : RingPos) : (s.setRing n r).kprStamp0 = s.kprStamp0 := rfl
@[simp] theorem State.setRing_kprPeer (s : State) (n : Nat) (r : RingPos) : (s.setRing n r).kprPeer = s.kprPeer := rfl
@[simp] theorem State.setRing_arbs (s : State) (n : Nat) (r : RingPos) : (s.setRing n r).arbs = s.arbs := rfl
@[simp] theorem State.setRing_arbUse (s : State) (n : Nat) (r : RingPos) : (s.setRing n r).arbUse = s.arbUse := rfl
@[simp] theorem State.setRing_biAt (s : State) (n : Nat) (r : RingPos) : (s.setRing n r).biAt = s.biAt := rfl
@[simp] theorem State.setRing_memActive (s : State) (n : Nat) (r : RingPos) : (s.setRing n r).memActive = s.memActive := rfl
@[simp] theorem State.setRing_attachments (s : State) (n : Nat) (r : RingPos) : (s.setRing n r).attachments = s.attachments := rfl
@[simp] theorem State.setRing_started (s : State) (n : Nat) (r : RingPos) : (s.setRing n r).started = s.started := rfl
@[simp] theorem State.setRing_detaching (s : State) (n : Nat) (r : RingPos) : (s.setRing n r).detaching = s.detaching := rfl
@[simp] theorem State.setRing_flash (s : State) (n : Nat) (r : RingPos) : (s.setRing n r).flash = s.flash := rfl
@[simp] theorem State.setRing_booted (s : State) (n : Nat) (r : RingPos) : (s.setRing n r).booted = s.booted := rfl
@[simp] theorem State.setRing_staging (s : State) (n : Nat) (r : RingPos) : (s.setRing n r).staging = s.staging := rfl
@[simp] theorem State.setRing_attCounter (s : State) (n : Nat) (r : RingPos) : (s.setRing n r).attCounter = s.attCounter := rfl
@[simp] theorem State.setRing_topLeaf (s : State) (n : Nat) (r : RingPos) : (s.setRing n r).topLeaf = s.topLeaf := rfl
@[simp] theorem State.setRing_devId (s : State) (n : Nat) (r : RingPos) : (s.setRing n r).devId = s.devId := rfl
@[simp] theorem State.setRing_devKey (s : State) (n : Nat) (r : RingPos) : (s.setRing n r).devKey = s.devKey := rfl
@[simp] theorem State.setRing_jtag (s : State) (n : Nat) (r : RingPos) : (s.setRing n r).jtag = s.jtag := rfl
@[simp] theorem State.setRing_inReset (s : State) (n : Nat) (r : RingPos) : (s.setRing n r).inReset = s.inReset := rfl
@[simp] theorem State.setRing_tripped (s : State) (n : Nat) (r : RingPos) : (s.setRing n r).tripped = s.tripped := rfl
@[simp] theorem State.setRing_rstLatch (s : State) (n : Nat) (r : RingPos) : (s.setRing n r).rstLatch = s.rstLatch := rfl
@[simp] theorem State.setRing_vddMv (s : State) (n : Nat) (r : RingPos) : (s.setRing n r).vddMv = s.vddMv := rfl
@[simp] theorem State.setRing_dips (s : State) (n : Nat) (r : RingPos) : (s.setRing n r).dips = s.dips := rfl
@[simp] theorem State.setRing_dozeIdle (s : State) (n : Nat) (r : RingPos) : (s.setRing n r).dozeIdle = s.dozeIdle := rfl
@[simp] theorem State.setRing_keepIdle (s : State) (n : Nat) (r : RingPos) : (s.setRing n r).keepIdle = s.keepIdle := rfl
@[simp] theorem State.setRing_govDram (s : State) (n : Nat) (r : RingPos) : (s.setRing n r).govDram = s.govDram := rfl
@[simp] theorem State.setRing_iccSeen (s : State) (n : Nat) (r : RingPos) : (s.setRing n r).iccSeen = s.iccSeen := rfl
@[simp] theorem State.setRing_slotPower (s : State) (n : Nat) (r : RingPos) : (s.setRing n r).slotPower = s.slotPower := rfl
@[simp] theorem State.setRing_handPress (s : State) (n : Nat) (r : RingPos) : (s.setRing n r).handPress = s.handPress := rfl
@[simp] theorem State.setRing_handMark (s : State) (n : Nat) (r : RingPos) : (s.setRing n r).handMark = s.handMark := rfl
@[simp] theorem State.setRing_twinSent (s : State) (n : Nat) (r : RingPos) : (s.setRing n r).twinSent = s.twinSent := rfl
@[simp] theorem State.setRing_hbSentAt (s : State) (n : Nat) (r : RingPos) : (s.setRing n r).hbSentAt = s.hbSentAt := rfl
@[simp] theorem State.setRing_hbSeenAt (s : State) (n : Nat) (r : RingPos) : (s.setRing n r).hbSeenAt = s.hbSeenAt := rfl
@[simp] theorem State.setRing_takeoverDue (s : State) (n : Nat) (r : RingPos) : (s.setRing n r).takeoverDue = s.takeoverDue := rfl
@[simp] theorem State.setRing_mirrorBytes (s : State) (n : Nat) (r : RingPos) : (s.setRing n r).mirrorBytes = s.mirrorBytes := rfl
@[simp] theorem State.setRing_keyBad (s : State) (n : Nat) (r : RingPos) : (s.setRing n r).keyBad = s.keyBad := rfl

/-! ## setArb changes arbs alone -/

@[simp] theorem State.setArb_pending (s : State) (n : Nat) (a : Arb) : (s.setArb n a).pending = s.pending := rfl
@[simp] theorem State.setArb_fields (s : State) (n : Nat) (a : Arb) : (s.setArb n a).fields = s.fields := rfl
@[simp] theorem State.setArb_straps (s : State) (n : Nat) (a : Arb) : (s.setArb n a).straps = s.straps := rfl
@[simp] theorem State.setArb_image (s : State) (n : Nat) (a : Arb) : (s.setArb n a).image = s.image := rfl
@[simp] theorem State.setArb_cycle (s : State) (n : Nat) (a : Arb) : (s.setArb n a).cycle = s.cycle := rfl
@[simp] theorem State.setArb_aclk (s : State) (n : Nat) (a : Arb) : (s.setArb n a).aclk = s.aclk := rfl
@[simp] theorem State.setArb_freeCount (s : State) (n : Nat) (a : Arb) : (s.setArb n a).freeCount = s.freeCount := rfl
@[simp] theorem State.setArb_mem (s : State) (n : Nat) (a : Arb) : (s.setArb n a).mem = s.mem := rfl
@[simp] theorem State.setArb_poison (s : State) (n : Nat) (a : Arb) : (s.setArb n a).poison = s.poison := rfl
@[simp] theorem State.setArb_nonzero (s : State) (n : Nat) (a : Arb) : (s.setArb n a).nonzero = s.nonzero := rfl
@[simp] theorem State.setArb_pages (s : State) (n : Nat) (a : Arb) : (s.setArb n a).pages = s.pages := rfl
@[simp] theorem State.setArb_heat (s : State) (n : Nat) (a : Arb) : (s.setArb n a).heat = s.heat := rfl
@[simp] theorem State.setArb_objects (s : State) (n : Nat) (a : Arb) : (s.setArb n a).objects = s.objects := rfl
@[simp] theorem State.setArb_mirrorQ (s : State) (n : Nat) (a : Arb) : (s.setArb n a).mirrorQ = s.mirrorQ := rfl
@[simp] theorem State.setArb_heldWrites (s : State) (n : Nat) (a : Arb) : (s.setArb n a).heldWrites = s.heldWrites := rfl
@[simp] theorem State.setArb_heldSeq (s : State) (n : Nat) (a : Arb) : (s.setArb n a).heldSeq = s.heldSeq := rfl
@[simp] theorem State.setArb_heldEnds (s : State) (n : Nat) (a : Arb) : (s.setArb n a).heldEnds = s.heldEnds := rfl
@[simp] theorem State.setArb_frameWaits (s : State) (n : Nat) (a : Arb) : (s.setArb n a).frameWaits = s.frameWaits := rfl
@[simp] theorem State.setArb_snoop (s : State) (n : Nat) (a : Arb) : (s.setArb n a).snoop = s.snoop := rfl
@[simp] theorem State.setArb_snoopSeq (s : State) (n : Nat) (a : Arb) : (s.setArb n a).snoopSeq = s.snoopSeq := rfl
@[simp] theorem State.setArb_biWait (s : State) (n : Nat) (a : Arb) : (s.setArb n a).biWait = s.biWait := rfl
@[simp] theorem State.setArb_violAt (s : State) (n : Nat) (a : Arb) : (s.setArb n a).violAt = s.violAt := rfl
@[simp] theorem State.setArb_irq (s : State) (n : Nat) (a : Arb) : (s.setArb n a).irq = s.irq := rfl
@[simp] theorem State.setArb_component (s : State) (n : Nat) (a : Arb) : (s.setArb n a).component = s.component := rfl
@[simp] theorem State.setArb_decoders (s : State) (n : Nat) (a : Arb) : (s.setArb n a).decoders = s.decoders := rfl
@[simp] theorem State.setArb_chambers (s : State) (n : Nat) (a : Arb) : (s.setArb n a).chambers = s.chambers := rfl
@[simp] theorem State.setArb_ports (s : State) (n : Nat) (a : Arb) : (s.setArb n a).ports = s.ports := rfl
@[simp] theorem State.setArb_lost (s : State) (n : Nat) (a : Arb) : (s.setArb n a).lost = s.lost := rfl
@[simp] theorem State.setArb_prefetches (s : State) (n : Nat) (a : Arb) : (s.setArb n a).prefetches = s.prefetches := rfl
@[simp] theorem State.setArb_moves (s : State) (n : Nat) (a : Arb) : (s.setArb n a).moves = s.moves := rfl
@[simp] theorem State.setArb_rings (s : State) (n : Nat) (a : Arb) : (s.setArb n a).rings = s.rings := rfl
@[simp] theorem State.setArb_rx (s : State) (n : Nat) (a : Arb) : (s.setArb n a).rx = s.rx := rfl
@[simp] theorem State.setArb_tx (s : State) (n : Nat) (a : Arb) : (s.setArb n a).tx = s.tx := rfl
@[simp] theorem State.setArb_txWait (s : State) (n : Nat) (a : Arb) : (s.setArb n a).txWait = s.txWait := rfl
@[simp] theorem State.setArb_cuJobs (s : State) (n : Nat) (a : Arb) : (s.setArb n a).cuJobs = s.cuJobs := rfl
@[simp] theorem State.setArb_redJobs (s : State) (n : Nat) (a : Arb) : (s.setArb n a).redJobs = s.redJobs := rfl
@[simp] theorem State.setArb_xferSeq (s : State) (n : Nat) (a : Arb) : (s.setArb n a).xferSeq = s.xferSeq := rfl
@[simp] theorem State.setArb_cuDone (s : State) (n : Nat) (a : Arb) : (s.setArb n a).cuDone = s.cuDone := rfl
@[simp] theorem State.setArb_dispatchQ (s : State) (n : Nat) (a : Arb) : (s.setArb n a).dispatchQ = s.dispatchQ := rfl
@[simp] theorem State.setArb_claims (s : State) (n : Nat) (a : Arb) : (s.setArb n a).claims = s.claims := rfl
@[simp] theorem State.setArb_deferred (s : State) (n : Nat) (a : Arb) : (s.setArb n a).deferred = s.deferred := rfl
@[simp] theorem State.setArb_holdSince (s : State) (n : Nat) (a : Arb) : (s.setArb n a).holdSince = s.holdSince := rfl
@[simp] theorem State.setArb_devFailed (s : State) (n : Nat) (a : Arb) : (s.setArb n a).devFailed = s.devFailed := rfl
@[simp] theorem State.setArb_keptNoSpare (s : State) (n : Nat) (a : Arb) : (s.setArb n a).keptNoSpare = s.keptNoSpare := rfl
@[simp] theorem State.setArb_cuQueue (s : State) (n : Nat) (a : Arb) : (s.setArb n a).cuQueue = s.cuQueue := rfl
@[simp] theorem State.setArb_hels (s : State) (n : Nat) (a : Arb) : (s.setArb n a).hels = s.hels := rfl
@[simp] theorem State.setArb_xbus (s : State) (n : Nat) (a : Arb) : (s.setArb n a).xbus = s.xbus := rfl
@[simp] theorem State.setArb_hlcQueue (s : State) (n : Nat) (a : Arb) : (s.setArb n a).hlcQueue = s.hlcQueue := rfl
@[simp] theorem State.setArb_hlcJobs (s : State) (n : Nat) (a : Arb) : (s.setArb n a).hlcJobs = s.hlcJobs := rfl
@[simp] theorem State.setArb_hlcDone (s : State) (n : Nat) (a : Arb) : (s.setArb n a).hlcDone = s.hlcDone := rfl
@[simp] theorem State.setArb_layerTemp (s : State) (n : Nat) (a : Arb) : (s.setArb n a).layerTemp = s.layerTemp := rfl
@[simp] theorem State.setArb_refreshOwed (s : State) (n : Nat) (a : Arb) : (s.setArb n a).refreshOwed = s.refreshOwed := rfl
@[simp] theorem State.setArb_rowErr (s : State) (n : Nat) (a : Arb) : (s.setArb n a).rowErr = s.rowErr := rfl
@[simp] theorem State.setArb_rowMoved (s : State) (n : Nat) (a : Arb) : (s.setArb n a).rowMoved = s.rowMoved := rfl
@[simp] theorem State.setArb_flsQueue (s : State) (n : Nat) (a : Arb) : (s.setArb n a).flsQueue = s.flsQueue := rfl
@[simp] theorem State.setArb_flsDone (s : State) (n : Nat) (a : Arb) : (s.setArb n a).flsDone = s.flsDone := rfl
@[simp] theorem State.setArb_drainCmd (s : State) (n : Nat) (a : Arb) : (s.setArb n a).drainCmd = s.drainCmd := rfl
@[simp] theorem State.setArb_drainPress (s : State) (n : Nat) (a : Arb) : (s.setArb n a).drainPress = s.drainPress := rfl
@[simp] theorem State.setArb_lostPages (s : State) (n : Nat) (a : Arb) : (s.setArb n a).lostPages = s.lostPages := rfl
@[simp] theorem State.setArb_epochAt (s : State) (n : Nat) (a : Arb) : (s.setArb n a).epochAt = s.epochAt := rfl
@[simp] theorem State.setArb_slotCode (s : State) (n : Nat) (a : Arb) : (s.setArb n a).slotCode = s.slotCode := rfl
@[simp] theorem State.setArb_devCode (s : State) (n : Nat) (a : Arb) : (s.setArb n a).devCode = s.devCode := rfl
@[simp] theorem State.setArb_tokens (s : State) (n : Nat) (a : Arb) : (s.setArb n a).tokens = s.tokens := rfl
@[simp] theorem State.setArb_stepQueue (s : State) (n : Nat) (a : Arb) : (s.setArb n a).stepQueue = s.stepQueue := rfl
@[simp] theorem State.setArb_trv (s : State) (n : Nat) (a : Arb) : (s.setArb n a).trv = s.trv := rfl
@[simp] theorem State.setArb_openRecs (s : State) (n : Nat) (a : Arb) : (s.setArb n a).openRecs = s.openRecs := rfl
@[simp] theorem State.setArb_endedRecs (s : State) (n : Nat) (a : Arb) : (s.setArb n a).endedRecs = s.endedRecs := rfl
@[simp] theorem State.setArb_heldCmpl (s : State) (n : Nat) (a : Arb) : (s.setArb n a).heldCmpl = s.heldCmpl := rfl
@[simp] theorem State.setArb_ledgerTail (s : State) (n : Nat) (a : Arb) : (s.setArb n a).ledgerTail = s.ledgerTail := rfl
@[simp] theorem State.setArb_cmplHead (s : State) (n : Nat) (a : Arb) : (s.setArb n a).cmplHead = s.cmplHead := rfl
@[simp] theorem State.setArb_cmplCount (s : State) (n : Nat) (a : Arb) : (s.setArb n a).cmplCount = s.cmplCount := rfl
@[simp] theorem State.setArb_ledgerBad (s : State) (n : Nat) (a : Arb) : (s.setArb n a).ledgerBad = s.ledgerBad := rfl
@[simp] theorem State.setArb_hostWrites (s : State) (n : Nat) (a : Arb) : (s.setArb n a).hostWrites = s.hostWrites := rfl
@[simp] theorem State.setArb_hostReply (s : State) (n : Nat) (a : Arb) : (s.setArb n a).hostReply = s.hostReply := rfl
@[simp] theorem State.setArb_irqWait (s : State) (n : Nat) (a : Arb) : (s.setArb n a).irqWait = s.irqWait := rfl
@[simp] theorem State.setArb_irqAt (s : State) (n : Nat) (a : Arb) : (s.setArb n a).irqAt = s.irqAt := rfl
@[simp] theorem State.setArb_kpr (s : State) (n : Nat) (a : Arb) : (s.setArb n a).kpr = s.kpr := rfl
@[simp] theorem State.setArb_kprStamp0 (s : State) (n : Nat) (a : Arb) : (s.setArb n a).kprStamp0 = s.kprStamp0 := rfl
@[simp] theorem State.setArb_kprPeer (s : State) (n : Nat) (a : Arb) : (s.setArb n a).kprPeer = s.kprPeer := rfl
@[simp] theorem State.setArb_arbUse (s : State) (n : Nat) (a : Arb) : (s.setArb n a).arbUse = s.arbUse := rfl
@[simp] theorem State.setArb_biAt (s : State) (n : Nat) (a : Arb) : (s.setArb n a).biAt = s.biAt := rfl
@[simp] theorem State.setArb_memActive (s : State) (n : Nat) (a : Arb) : (s.setArb n a).memActive = s.memActive := rfl
@[simp] theorem State.setArb_attachments (s : State) (n : Nat) (a : Arb) : (s.setArb n a).attachments = s.attachments := rfl
@[simp] theorem State.setArb_started (s : State) (n : Nat) (a : Arb) : (s.setArb n a).started = s.started := rfl
@[simp] theorem State.setArb_detaching (s : State) (n : Nat) (a : Arb) : (s.setArb n a).detaching = s.detaching := rfl
@[simp] theorem State.setArb_flash (s : State) (n : Nat) (a : Arb) : (s.setArb n a).flash = s.flash := rfl
@[simp] theorem State.setArb_booted (s : State) (n : Nat) (a : Arb) : (s.setArb n a).booted = s.booted := rfl
@[simp] theorem State.setArb_staging (s : State) (n : Nat) (a : Arb) : (s.setArb n a).staging = s.staging := rfl
@[simp] theorem State.setArb_attCounter (s : State) (n : Nat) (a : Arb) : (s.setArb n a).attCounter = s.attCounter := rfl
@[simp] theorem State.setArb_topLeaf (s : State) (n : Nat) (a : Arb) : (s.setArb n a).topLeaf = s.topLeaf := rfl
@[simp] theorem State.setArb_devId (s : State) (n : Nat) (a : Arb) : (s.setArb n a).devId = s.devId := rfl
@[simp] theorem State.setArb_devKey (s : State) (n : Nat) (a : Arb) : (s.setArb n a).devKey = s.devKey := rfl
@[simp] theorem State.setArb_jtag (s : State) (n : Nat) (a : Arb) : (s.setArb n a).jtag = s.jtag := rfl
@[simp] theorem State.setArb_inReset (s : State) (n : Nat) (a : Arb) : (s.setArb n a).inReset = s.inReset := rfl
@[simp] theorem State.setArb_tripped (s : State) (n : Nat) (a : Arb) : (s.setArb n a).tripped = s.tripped := rfl
@[simp] theorem State.setArb_rstLatch (s : State) (n : Nat) (a : Arb) : (s.setArb n a).rstLatch = s.rstLatch := rfl
@[simp] theorem State.setArb_vddMv (s : State) (n : Nat) (a : Arb) : (s.setArb n a).vddMv = s.vddMv := rfl
@[simp] theorem State.setArb_dips (s : State) (n : Nat) (a : Arb) : (s.setArb n a).dips = s.dips := rfl
@[simp] theorem State.setArb_dozeIdle (s : State) (n : Nat) (a : Arb) : (s.setArb n a).dozeIdle = s.dozeIdle := rfl
@[simp] theorem State.setArb_keepIdle (s : State) (n : Nat) (a : Arb) : (s.setArb n a).keepIdle = s.keepIdle := rfl
@[simp] theorem State.setArb_govDram (s : State) (n : Nat) (a : Arb) : (s.setArb n a).govDram = s.govDram := rfl
@[simp] theorem State.setArb_iccSeen (s : State) (n : Nat) (a : Arb) : (s.setArb n a).iccSeen = s.iccSeen := rfl
@[simp] theorem State.setArb_slotPower (s : State) (n : Nat) (a : Arb) : (s.setArb n a).slotPower = s.slotPower := rfl
@[simp] theorem State.setArb_handPress (s : State) (n : Nat) (a : Arb) : (s.setArb n a).handPress = s.handPress := rfl
@[simp] theorem State.setArb_handMark (s : State) (n : Nat) (a : Arb) : (s.setArb n a).handMark = s.handMark := rfl
@[simp] theorem State.setArb_twinSent (s : State) (n : Nat) (a : Arb) : (s.setArb n a).twinSent = s.twinSent := rfl
@[simp] theorem State.setArb_hbSentAt (s : State) (n : Nat) (a : Arb) : (s.setArb n a).hbSentAt = s.hbSentAt := rfl
@[simp] theorem State.setArb_hbSeenAt (s : State) (n : Nat) (a : Arb) : (s.setArb n a).hbSeenAt = s.hbSeenAt := rfl
@[simp] theorem State.setArb_takeoverDue (s : State) (n : Nat) (a : Arb) : (s.setArb n a).takeoverDue = s.takeoverDue := rfl
@[simp] theorem State.setArb_mirrorBytes (s : State) (n : Nat) (a : Arb) : (s.setArb n a).mirrorBytes = s.mirrorBytes := rfl
@[simp] theorem State.setArb_keyBad (s : State) (n : Nat) (a : Arb) : (s.setArb n a).keyBad = s.keyBad := rfl

/-! ## Lookups after updates -/

/-- A field read after a field written: its new value cut to its width, or the old one. -/
@[simp] theorem State.get_put (s : State) (f g : FieldRef) (v : Nat) :
    (s.put f v).get g = if g.key = f.key then v % 2 ^ f.w else s.get g := by
  simp only [State.get, State.put, mapFind_insert]
  split <;> rfl

@[simp] theorem State.puts_nil (s : State) : s.puts [] = s := rfl
@[simp] theorem State.puts_cons (s : State) (f : FieldRef) (v : Nat) (fs : List (FieldRef × Nat)) :
    s.puts ((f, v) :: fs) = (s.put f v).puts fs := rfl

@[simp] theorem State.get_setCh (s : State) (n : Nat) (c : Chamber) (g : FieldRef) : (s.setCh n c).get g = s.get g := rfl
@[simp] theorem State.get_setPort (s : State) (n : Nat) (p : Port) (g : FieldRef) : (s.setPort n p).get g = s.get g := rfl
@[simp] theorem State.get_setHel (s : State) (n : Nat) (h : Hel) (g : FieldRef) : (s.setHel n h).get g = s.get g := rfl
@[simp] theorem State.get_setRing (s : State) (n : Nat) (r : RingPos) (g : FieldRef) : (s.setRing n r).get g = s.get g := rfl
@[simp] theorem State.get_setArb (s : State) (n : Nat) (a : Arb) (g : FieldRef) : (s.setArb n a).get g = s.get g := rfl

@[simp] theorem State.ch_put (s : State) (f : FieldRef) (v n : Nat) : (s.put f v).ch n = s.ch n := rfl
@[simp] theorem State.ch_setPort (s : State) (m : Nat) (p : Port) (n : Nat) : (s.setPort m p).ch n = s.ch n := rfl
@[simp] theorem State.ch_setHel (s : State) (m : Nat) (h : Hel) (n : Nat) : (s.setHel m h).ch n = s.ch n := rfl
@[simp] theorem State.ch_setCh (s : State) (m : Nat) (c : Chamber) (n : Nat) : (s.setCh m c).ch n = if n = m then c else s.ch n := by
  simp [State.ch, State.setCh]
@[simp] theorem State.port_put (s : State) (f : FieldRef) (v n : Nat) : (s.put f v).port n = s.port n := rfl
@[simp] theorem State.port_setCh (s : State) (m : Nat) (c : Chamber) (n : Nat) : (s.setCh m c).port n = s.port n := rfl
@[simp] theorem State.port_setHel (s : State) (m : Nat) (h : Hel) (n : Nat) : (s.setHel m h).port n = s.port n := rfl
@[simp] theorem State.port_setPort (s : State) (m : Nat) (p : Port) (n : Nat) :
    (s.setPort m p).port n = if n = m then p else s.port n := by simp [State.port, State.setPort]
@[simp] theorem State.hel_put (s : State) (f : FieldRef) (v n : Nat) : (s.put f v).hel n = s.hel n := rfl
@[simp] theorem State.hel_setCh (s : State) (m : Nat) (c : Chamber) (n : Nat) : (s.setCh m c).hel n = s.hel n := rfl
@[simp] theorem State.hel_setPort (s : State) (m : Nat) (p : Port) (n : Nat) : (s.setPort m p).hel n = s.hel n := rfl
@[simp] theorem State.hel_setHel (s : State) (m : Nat) (h : Hel) (n : Nat) :
    (s.setHel m h).hel n = if n = m then h else s.hel n := by simp [State.hel, State.setHel]
@[simp] theorem State.arb_setArb (s : State) (m : Nat) (a : Arb) (n : Nat) :
    (s.setArb m a).arb n = if n = m then a else s.arb n := by simp [State.arb, State.setArb]
@[simp] theorem State.ring_setRing (s : State) (m : Nat) (r : RingPos) (n : Nat) :
    (s.setRing m r).ring n = if n = m then r else s.ring n := by simp [State.ring, State.setRing]

end Sys2Proof.Machine
end

