-- ==== Sys2Proof/Laws/Keys.lean ====
section
/-! SUPPORT. The key of every register field, by which the fields of different registers are told apart; what reading a field after a write of a field gives. -/

namespace Sys2Proof.Machine

open Sys2Proof

/-- Reading another field than the one written. -/
theorem State.get_put_ne {s : State} {f g : FieldRef} {v : Nat} (h : g.key ≠ f.key) : (s.put f v).get g = s.get g := by
  rw [State.get_put, if_neg h]

/-- Reading the field written. -/
theorem State.get_put_eq {s : State} {f : FieldRef} {v : Nat} : (s.put f v).get f = v % 2 ^ f.w := by simp only [State.get_put, if_true]

/-- Fields, image and straps are all that a field's value depends on. -/
theorem State.get_of_fields {s t : State} (hf : t.fields = s.fields) (hi : t.image = s.image) (hs : t.straps = s.straps) (f : FieldRef) :
    t.get f = s.get f := by unfold State.get State.resetOf; rw [hf, hi, hs]

@[simp] theorem Reg.GLB_ID_CH_BUILT_key : Reg.GLB_ID_CH_BUILT.key = (0x0) * 64 + (32) := rfl
@[simp] theorem Reg.GLB_ID_CH_BUILT_w : Reg.GLB_ID_CH_BUILT.w = 8 := rfl
@[simp] theorem Reg.GLB_ID_LAYERS_key : Reg.GLB_ID_LAYERS.key = (0x0) * 64 + (24) := rfl
@[simp] theorem Reg.GLB_ID_LAYERS_w : Reg.GLB_ID_LAYERS.w = 4 := rfl
@[simp] theorem Reg.GLB_ID_STEPPING_key : Reg.GLB_ID_STEPPING.key = (0x0) * 64 + (16) := rfl
@[simp] theorem Reg.GLB_ID_STEPPING_w : Reg.GLB_ID_STEPPING.w = 8 := rfl
@[simp] theorem Reg.GLB_ID_PART_key : Reg.GLB_ID_PART.key = (0x0) * 64 + (0) := rfl
@[simp] theorem Reg.GLB_ID_PART_w : Reg.GLB_ID_PART.w = 16 := rfl
@[simp] theorem Reg.GLB_CHMAP_RETIRED_key : Reg.GLB_CHMAP_RETIRED.key = (0x8) * 64 + (32) := rfl
@[simp] theorem Reg.GLB_CHMAP_RETIRED_w : Reg.GLB_CHMAP_RETIRED.w = 28 := rfl
@[simp] theorem Reg.GLB_CHMAP_ENABLED_key : Reg.GLB_CHMAP_ENABLED.key = (0x8) * 64 + (0) := rfl
@[simp] theorem Reg.GLB_CHMAP_ENABLED_w : Reg.GLB_CHMAP_ENABLED.w = 28 := rfl
@[simp] theorem Reg.GLB_ROLE_SERVED_key : Reg.GLB_ROLE_SERVED.key = (0x10) * 64 + (12) := rfl
@[simp] theorem Reg.GLB_ROLE_SERVED_w : Reg.GLB_ROLE_SERVED.w = 4 := rfl
@[simp] theorem Reg.GLB_ROLE_ALONE_key : Reg.GLB_ROLE_ALONE.key = (0x10) * 64 + (3) := rfl
@[simp] theorem Reg.GLB_ROLE_ALONE_w : Reg.GLB_ROLE_ALONE.w = 1 := rfl
@[simp] theorem Reg.GLB_ROLE_SIDE_key : Reg.GLB_ROLE_SIDE.key = (0x10) * 64 + (2) := rfl
@[simp] theorem Reg.GLB_ROLE_SIDE_w : Reg.GLB_ROLE_SIDE.w = 1 := rfl
@[simp] theorem Reg.GLB_ROLE_TWIN_key : Reg.GLB_ROLE_TWIN.key = (0x10) * 64 + (1) := rfl
@[simp] theorem Reg.GLB_ROLE_TWIN_w : Reg.GLB_ROLE_TWIN.w = 1 := rfl
@[simp] theorem Reg.GLB_ROLE_KEEPER_key : Reg.GLB_ROLE_KEEPER.key = (0x10) * 64 + (0) := rfl
@[simp] theorem Reg.GLB_ROLE_KEEPER_w : Reg.GLB_ROLE_KEEPER.w = 1 := rfl
@[simp] theorem Reg.CHn_CTL_START_PC_key (n : Nat) : (Reg.CHn_CTL_START_PC n).key = (0x1000000 + 0x100000 * n) * 64 + (32) := rfl
@[simp] theorem Reg.CHn_CTL_START_PC_w (n : Nat) : (Reg.CHn_CTL_START_PC n).w = 12 := rfl
@[simp] theorem Reg.CHn_CTL_RESET_key (n : Nat) : (Reg.CHn_CTL_RESET n).key = (0x1000000 + 0x100000 * n) * 64 + (2) := rfl
@[simp] theorem Reg.CHn_CTL_RESET_w (n : Nat) : (Reg.CHn_CTL_RESET n).w = 1 := rfl
@[simp] theorem Reg.CHn_CTL_STOP_key (n : Nat) : (Reg.CHn_CTL_STOP n).key = (0x1000000 + 0x100000 * n) * 64 + (1) := rfl
@[simp] theorem Reg.CHn_CTL_STOP_w (n : Nat) : (Reg.CHn_CTL_STOP n).w = 1 := rfl
@[simp] theorem Reg.CHn_CTL_START_key (n : Nat) : (Reg.CHn_CTL_START n).key = (0x1000000 + 0x100000 * n) * 64 + (0) := rfl
@[simp] theorem Reg.CHn_CTL_START_w (n : Nat) : (Reg.CHn_CTL_START n).w = 1 := rfl
@[simp] theorem Reg.CHn_STATUS_LOGICAL_key (n : Nat) : (Reg.CHn_STATUS_LOGICAL n).key = (0x1000008 + 0x100000 * n) * 64 + (32) := rfl
@[simp] theorem Reg.CHn_STATUS_LOGICAL_w (n : Nat) : (Reg.CHn_STATUS_LOGICAL n).w = 5 := rfl
@[simp] theorem Reg.CHn_STATUS_RETIRE_PENDING_key (n : Nat) : (Reg.CHn_STATUS_RETIRE_PENDING n).key = (0x1000008 + 0x100000 * n) * 64 + (28) := rfl
@[simp] theorem Reg.CHn_STATUS_RETIRE_PENDING_w (n : Nat) : (Reg.CHn_STATUS_RETIRE_PENDING n).w = 1 := rfl
@[simp] theorem Reg.CHn_STATUS_PC_key (n : Nat) : (Reg.CHn_STATUS_PC n).key = (0x1000008 + 0x100000 * n) * 64 + (16) := rfl
@[simp] theorem Reg.CHn_STATUS_PC_w (n : Nat) : (Reg.CHn_STATUS_PC n).w = 12 := rfl
@[simp] theorem Reg.CHn_STATUS_STATE_key (n : Nat) : (Reg.CHn_STATUS_STATE n).key = (0x1000008 + 0x100000 * n) * 64 + (0) := rfl
@[simp] theorem Reg.CHn_STATUS_STATE_w (n : Nat) : (Reg.CHn_STATUS_STATE n).w = 3 := rfl
@[simp] theorem Reg.CHn_CAP_EUCEN_REV_key (n : Nat) : (Reg.CHn_CAP_EUCEN_REV n).key = (0x1000010 + 0x100000 * n) * 64 + (48) := rfl
@[simp] theorem Reg.CHn_CAP_EUCEN_REV_w (n : Nat) : (Reg.CHn_CAP_EUCEN_REV n).w = 8 := rfl
@[simp] theorem Reg.CHn_CAP_COLS16_B_key (n : Nat) : (Reg.CHn_CAP_COLS16_B n).key = (0x1000010 + 0x100000 * n) * 64 + (40) := rfl
@[simp] theorem Reg.CHn_CAP_COLS16_B_w (n : Nat) : (Reg.CHn_CAP_COLS16_B n).w = 8 := rfl
@[simp] theorem Reg.CHn_CAP_COLS16_A_key (n : Nat) : (Reg.CHn_CAP_COLS16_A n).key = (0x1000010 + 0x100000 * n) * 64 + (32) := rfl
@[simp] theorem Reg.CHn_CAP_COLS16_A_w (n : Nat) : (Reg.CHn_CAP_COLS16_A n).w = 8 := rfl
@[simp] theorem Reg.CHn_CAP_LMEM_MIB_key (n : Nat) : (Reg.CHn_CAP_LMEM_MIB n).key = (0x1000010 + 0x100000 * n) * 64 + (24) := rfl
@[simp] theorem Reg.CHn_CAP_LMEM_MIB_w (n : Nat) : (Reg.CHn_CAP_LMEM_MIB n).w = 8 := rfl
@[simp] theorem Reg.CHn_CAP_LMEM_BANKS_key (n : Nat) : (Reg.CHn_CAP_LMEM_BANKS n).key = (0x1000010 + 0x100000 * n) * 64 + (16) := rfl
@[simp] theorem Reg.CHn_CAP_LMEM_BANKS_w (n : Nat) : (Reg.CHn_CAP_LMEM_BANKS n).w = 8 := rfl
@[simp] theorem Reg.CHn_CAP_BUNDLES_key (n : Nat) : (Reg.CHn_CAP_BUNDLES n).key = (0x1000010 + 0x100000 * n) * 64 + (0) := rfl
@[simp] theorem Reg.CHn_CAP_BUNDLES_w (n : Nat) : (Reg.CHn_CAP_BUNDLES n).w = 16 := rfl
@[simp] theorem Reg.CHn_HALT_SLOT_key (n : Nat) : (Reg.CHn_HALT_SLOT n).key = (0x1000018 + 0x100000 * n) * 64 + (48) := rfl
@[simp] theorem Reg.CHn_HALT_SLOT_w (n : Nat) : (Reg.CHn_HALT_SLOT n).w = 3 := rfl
@[simp] theorem Reg.CHn_HALT_NEXT_PC_key (n : Nat) : (Reg.CHn_HALT_NEXT_PC n).key = (0x1000018 + 0x100000 * n) * 64 + (32) := rfl
@[simp] theorem Reg.CHn_HALT_NEXT_PC_w (n : Nat) : (Reg.CHn_HALT_NEXT_PC n).w = 12 := rfl
@[simp] theorem Reg.CHn_HALT_FAULT_PC_key (n : Nat) : (Reg.CHn_HALT_FAULT_PC n).key = (0x1000018 + 0x100000 * n) * 64 + (16) := rfl
@[simp] theorem Reg.CHn_HALT_FAULT_PC_w (n : Nat) : (Reg.CHn_HALT_FAULT_PC n).w = 12 := rfl
@[simp] theorem Reg.CHn_HALT_TAG_key (n : Nat) : (Reg.CHn_HALT_TAG n).key = (0x1000018 + 0x100000 * n) * 64 + (8) := rfl
@[simp] theorem Reg.CHn_HALT_TAG_w (n : Nat) : (Reg.CHn_HALT_TAG n).w = 3 := rfl
@[simp] theorem Reg.CHn_HALT_CAUSE_key (n : Nat) : (Reg.CHn_HALT_CAUSE n).key = (0x1000018 + 0x100000 * n) * 64 + (0) := rfl
@[simp] theorem Reg.CHn_HALT_CAUSE_w (n : Nat) : (Reg.CHn_HALT_CAUSE n).w = 8 := rfl
@[simp] theorem Reg.CHn_EXC_RERUN_key (n : Nat) : (Reg.CHn_EXC_RERUN n).key = (0x1000020 + 0x100000 * n) * 64 + (3) := rfl
@[simp] theorem Reg.CHn_EXC_RERUN_w (n : Nat) : (Reg.CHn_EXC_RERUN n).w = 1 := rfl
@[simp] theorem Reg.CHn_EXC_FLUSH_key (n : Nat) : (Reg.CHn_EXC_FLUSH n).key = (0x1000020 + 0x100000 * n) * 64 + (2) := rfl
@[simp] theorem Reg.CHn_EXC_FLUSH_w (n : Nat) : (Reg.CHn_EXC_FLUSH n).w = 1 := rfl
@[simp] theorem Reg.CHn_EXC_OVERFLOW_key (n : Nat) : (Reg.CHn_EXC_OVERFLOW n).key = (0x1000020 + 0x100000 * n) * 64 + (1) := rfl
@[simp] theorem Reg.CHn_EXC_OVERFLOW_w (n : Nat) : (Reg.CHn_EXC_OVERFLOW n).w = 1 := rfl
@[simp] theorem Reg.CHn_EXC_INVALID_key (n : Nat) : (Reg.CHn_EXC_INVALID n).key = (0x1000020 + 0x100000 * n) * 64 + (0) := rfl
@[simp] theorem Reg.CHn_EXC_INVALID_w (n : Nat) : (Reg.CHn_EXC_INVALID n).w = 1 := rfl
@[simp] theorem Reg.CHn_EXC_TRAP_FLUSH_key (n : Nat) : (Reg.CHn_EXC_TRAP_FLUSH n).key = (0x1000028 + 0x100000 * n) * 64 + (2) := rfl
@[simp] theorem Reg.CHn_EXC_TRAP_FLUSH_w (n : Nat) : (Reg.CHn_EXC_TRAP_FLUSH n).w = 1 := rfl
@[simp] theorem Reg.CHn_EXC_TRAP_OVERFLOW_key (n : Nat) : (Reg.CHn_EXC_TRAP_OVERFLOW n).key = (0x1000028 + 0x100000 * n) * 64 + (1) := rfl
@[simp] theorem Reg.CHn_EXC_TRAP_OVERFLOW_w (n : Nat) : (Reg.CHn_EXC_TRAP_OVERFLOW n).w = 1 := rfl
@[simp] theorem Reg.CHn_EXC_TRAP_INVALID_key (n : Nat) : (Reg.CHn_EXC_TRAP_INVALID n).key = (0x1000028 + 0x100000 * n) * 64 + (0) := rfl
@[simp] theorem Reg.CHn_EXC_TRAP_INVALID_w (n : Nat) : (Reg.CHn_EXC_TRAP_INVALID n).w = 1 := rfl
@[simp] theorem Reg.CHn_WAIT_LIMIT_LIMIT_US_key (n : Nat) : (Reg.CHn_WAIT_LIMIT_LIMIT_US n).key = (0x1000030 + 0x100000 * n) * 64 + (0) := rfl
@[simp] theorem Reg.CHn_WAIT_LIMIT_LIMIT_US_w (n : Nat) : (Reg.CHn_WAIT_LIMIT_LIMIT_US n).w = 32 := rfl
@[simp] theorem Reg.CHn_VIOL_COUNT_COUNT_key (n : Nat) : (Reg.CHn_VIOL_COUNT_COUNT n).key = (0x1000038 + 0x100000 * n) * 64 + (0) := rfl
@[simp] theorem Reg.CHn_VIOL_COUNT_COUNT_w (n : Nat) : (Reg.CHn_VIOL_COUNT_COUNT n).w = 32 := rfl
@[simp] theorem Reg.CHn_LMEM_ERR_UNCORRECTED_key (n : Nat) : (Reg.CHn_LMEM_ERR_UNCORRECTED n).key = (0x1000040 + 0x100000 * n) * 64 + (24) := rfl
@[simp] theorem Reg.CHn_LMEM_ERR_UNCORRECTED_w (n : Nat) : (Reg.CHn_LMEM_ERR_UNCORRECTED n).w = 8 := rfl
@[simp] theorem Reg.CHn_LMEM_ERR_WORST_BANK_key (n : Nat) : (Reg.CHn_LMEM_ERR_WORST_BANK n).key = (0x1000040 + 0x100000 * n) * 64 + (16) := rfl
@[simp] theorem Reg.CHn_LMEM_ERR_WORST_BANK_w (n : Nat) : (Reg.CHn_LMEM_ERR_WORST_BANK n).w = 6 := rfl
@[simp] theorem Reg.CHn_LMEM_ERR_CORRECTED_key (n : Nat) : (Reg.CHn_LMEM_ERR_CORRECTED n).key = (0x1000040 + 0x100000 * n) * 64 + (0) := rfl
@[simp] theorem Reg.CHn_LMEM_ERR_CORRECTED_w (n : Nat) : (Reg.CHn_LMEM_ERR_CORRECTED n).w = 16 := rfl
@[simp] theorem Reg.GLB_SIGn_VALUE_key (n : Nat) : (Reg.GLB_SIGn_VALUE n).key = (0x80000 + 8 * n) * 64 + (0) := rfl
@[simp] theorem Reg.GLB_SIGn_VALUE_w (n : Nat) : (Reg.GLB_SIGn_VALUE n).w = 64 := rfl
@[simp] theorem Reg.CHn_ARR_CYC_A_COUNT_key (n : Nat) : (Reg.CHn_ARR_CYC_A_COUNT n).key = (0x1000100 + 0x100000 * n) * 64 + (0) := rfl
@[simp] theorem Reg.CHn_ARR_CYC_A_COUNT_w (n : Nat) : (Reg.CHn_ARR_CYC_A_COUNT n).w = 64 := rfl
@[simp] theorem Reg.CHn_ARR_CYC_B_COUNT_key (n : Nat) : (Reg.CHn_ARR_CYC_B_COUNT n).key = (0x1000108 + 0x100000 * n) * 64 + (0) := rfl
@[simp] theorem Reg.CHn_ARR_CYC_B_COUNT_w (n : Nat) : (Reg.CHn_ARR_CYC_B_COUNT n).w = 64 := rfl
@[simp] theorem Reg.CHn_FEED_STALL_A_COUNT_key (n : Nat) : (Reg.CHn_FEED_STALL_A_COUNT n).key = (0x1000110 + 0x100000 * n) * 64 + (0) := rfl
@[simp] theorem Reg.CHn_FEED_STALL_A_COUNT_w (n : Nat) : (Reg.CHn_FEED_STALL_A_COUNT n).w = 64 := rfl
@[simp] theorem Reg.CHn_FEED_STALL_B_COUNT_key (n : Nat) : (Reg.CHn_FEED_STALL_B_COUNT n).key = (0x1000118 + 0x100000 * n) * 64 + (0) := rfl
@[simp] theorem Reg.CHn_FEED_STALL_B_COUNT_w (n : Nat) : (Reg.CHn_FEED_STALL_B_COUNT n).w = 64 := rfl
@[simp] theorem Reg.CHn_WGT_WAIT_COUNT_key (n : Nat) : (Reg.CHn_WGT_WAIT_COUNT n).key = (0x1000120 + 0x100000 * n) * 64 + (0) := rfl
@[simp] theorem Reg.CHn_WGT_WAIT_COUNT_w (n : Nat) : (Reg.CHn_WGT_WAIT_COUNT n).w = 64 := rfl
@[simp] theorem Reg.CHn_SWAP_COUNT_COUNT_key (n : Nat) : (Reg.CHn_SWAP_COUNT_COUNT n).key = (0x1000128 + 0x100000 * n) * 64 + (0) := rfl
@[simp] theorem Reg.CHn_SWAP_COUNT_COUNT_w (n : Nat) : (Reg.CHn_SWAP_COUNT_COUNT n).w = 64 := rfl
@[simp] theorem Reg.CHn_MASKED_ROWS_COUNT_key (n : Nat) : (Reg.CHn_MASKED_ROWS_COUNT n).key = (0x1000130 + 0x100000 * n) * 64 + (0) := rfl
@[simp] theorem Reg.CHn_MASKED_ROWS_COUNT_w (n : Nat) : (Reg.CHn_MASKED_ROWS_COUNT n).w = 64 := rfl
@[simp] theorem Reg.CHn_WTILE_BANDS_key (n : Nat) : (Reg.CHn_WTILE_BANDS n).key = (0x1000138 + 0x100000 * n) * 64 + (32) := rfl
@[simp] theorem Reg.CHn_WTILE_BANDS_w (n : Nat) : (Reg.CHn_WTILE_BANDS n).w = 32 := rfl
@[simp] theorem Reg.CHn_WTILE_SHADOW_key (n : Nat) : (Reg.CHn_WTILE_SHADOW n).key = (0x1000138 + 0x100000 * n) * 64 + (12) := rfl
@[simp] theorem Reg.CHn_WTILE_SHADOW_w (n : Nat) : (Reg.CHn_WTILE_SHADOW n).w = 2 := rfl
@[simp] theorem Reg.CHn_WTILE_SHADOW_TYPE_key (n : Nat) : (Reg.CHn_WTILE_SHADOW_TYPE n).key = (0x1000138 + 0x100000 * n) * 64 + (8) := rfl
@[simp] theorem Reg.CHn_WTILE_SHADOW_TYPE_w (n : Nat) : (Reg.CHn_WTILE_SHADOW_TYPE n).w = 4 := rfl
@[simp] theorem Reg.CHn_WTILE_UNLOADED_key (n : Nat) : (Reg.CHn_WTILE_UNLOADED n).key = (0x1000138 + 0x100000 * n) * 64 + (5) := rfl
@[simp] theorem Reg.CHn_WTILE_UNLOADED_w (n : Nat) : (Reg.CHn_WTILE_UNLOADED n).w = 1 := rfl
@[simp] theorem Reg.CHn_WTILE_VALID_key (n : Nat) : (Reg.CHn_WTILE_VALID n).key = (0x1000138 + 0x100000 * n) * 64 + (4) := rfl
@[simp] theorem Reg.CHn_WTILE_VALID_w (n : Nat) : (Reg.CHn_WTILE_VALID n).w = 1 := rfl
@[simp] theorem Reg.CHn_WTILE_TYPE_key (n : Nat) : (Reg.CHn_WTILE_TYPE n).key = (0x1000138 + 0x100000 * n) * 64 + (0) := rfl
@[simp] theorem Reg.CHn_WTILE_TYPE_w (n : Nat) : (Reg.CHn_WTILE_TYPE n).w = 4 := rfl
@[simp] theorem Reg.CHn_BYPASS_B3_V_key (n : Nat) : (Reg.CHn_BYPASS_B3_V n).key = (0x1000140 + 0x100000 * n) * 64 + (63) := rfl
@[simp] theorem Reg.CHn_BYPASS_B3_V_w (n : Nat) : (Reg.CHn_BYPASS_B3_V n).w = 1 := rfl
@[simp] theorem Reg.CHn_BYPASS_B3_key (n : Nat) : (Reg.CHn_BYPASS_B3 n).key = (0x1000140 + 0x100000 * n) * 64 + (56) := rfl
@[simp] theorem Reg.CHn_BYPASS_B3_w (n : Nat) : (Reg.CHn_BYPASS_B3 n).w = 7 := rfl
@[simp] theorem Reg.CHn_BYPASS_B2_V_key (n : Nat) : (Reg.CHn_BYPASS_B2_V n).key = (0x1000140 + 0x100000 * n) * 64 + (55) := rfl
@[simp] theorem Reg.CHn_BYPASS_B2_V_w (n : Nat) : (Reg.CHn_BYPASS_B2_V n).w = 1 := rfl
@[simp] theorem Reg.CHn_BYPASS_B2_key (n : Nat) : (Reg.CHn_BYPASS_B2 n).key = (0x1000140 + 0x100000 * n) * 64 + (48) := rfl
@[simp] theorem Reg.CHn_BYPASS_B2_w (n : Nat) : (Reg.CHn_BYPASS_B2 n).w = 7 := rfl
@[simp] theorem Reg.CHn_BYPASS_B1_V_key (n : Nat) : (Reg.CHn_BYPASS_B1_V n).key = (0x1000140 + 0x100000 * n) * 64 + (47) := rfl
@[simp] theorem Reg.CHn_BYPASS_B1_V_w (n : Nat) : (Reg.CHn_BYPASS_B1_V n).w = 1 := rfl
@[simp] theorem Reg.CHn_BYPASS_B1_key (n : Nat) : (Reg.CHn_BYPASS_B1 n).key = (0x1000140 + 0x100000 * n) * 64 + (40) := rfl
@[simp] theorem Reg.CHn_BYPASS_B1_w (n : Nat) : (Reg.CHn_BYPASS_B1 n).w = 7 := rfl
@[simp] theorem Reg.CHn_BYPASS_B0_V_key (n : Nat) : (Reg.CHn_BYPASS_B0_V n).key = (0x1000140 + 0x100000 * n) * 64 + (39) := rfl
@[simp] theorem Reg.CHn_BYPASS_B0_V_w (n : Nat) : (Reg.CHn_BYPASS_B0_V n).w = 1 := rfl
@[simp] theorem Reg.CHn_BYPASS_B0_key (n : Nat) : (Reg.CHn_BYPASS_B0 n).key = (0x1000140 + 0x100000 * n) * 64 + (32) := rfl
@[simp] theorem Reg.CHn_BYPASS_B0_w (n : Nat) : (Reg.CHn_BYPASS_B0 n).w = 7 := rfl
@[simp] theorem Reg.CHn_BYPASS_A3_V_key (n : Nat) : (Reg.CHn_BYPASS_A3_V n).key = (0x1000140 + 0x100000 * n) * 64 + (31) := rfl
@[simp] theorem Reg.CHn_BYPASS_A3_V_w (n : Nat) : (Reg.CHn_BYPASS_A3_V n).w = 1 := rfl
@[simp] theorem Reg.CHn_BYPASS_A3_key (n : Nat) : (Reg.CHn_BYPASS_A3 n).key = (0x1000140 + 0x100000 * n) * 64 + (24) := rfl
@[simp] theorem Reg.CHn_BYPASS_A3_w (n : Nat) : (Reg.CHn_BYPASS_A3 n).w = 7 := rfl
@[simp] theorem Reg.CHn_BYPASS_A2_V_key (n : Nat) : (Reg.CHn_BYPASS_A2_V n).key = (0x1000140 + 0x100000 * n) * 64 + (23) := rfl
@[simp] theorem Reg.CHn_BYPASS_A2_V_w (n : Nat) : (Reg.CHn_BYPASS_A2_V n).w = 1 := rfl
@[simp] theorem Reg.CHn_BYPASS_A2_key (n : Nat) : (Reg.CHn_BYPASS_A2 n).key = (0x1000140 + 0x100000 * n) * 64 + (16) := rfl
@[simp] theorem Reg.CHn_BYPASS_A2_w (n : Nat) : (Reg.CHn_BYPASS_A2 n).w = 7 := rfl
@[simp] theorem Reg.CHn_BYPASS_A1_V_key (n : Nat) : (Reg.CHn_BYPASS_A1_V n).key = (0x1000140 + 0x100000 * n) * 64 + (15) := rfl
@[simp] theorem Reg.CHn_BYPASS_A1_V_w (n : Nat) : (Reg.CHn_BYPASS_A1_V n).w = 1 := rfl
@[simp] theorem Reg.CHn_BYPASS_A1_key (n : Nat) : (Reg.CHn_BYPASS_A1 n).key = (0x1000140 + 0x100000 * n) * 64 + (8) := rfl
@[simp] theorem Reg.CHn_BYPASS_A1_w (n : Nat) : (Reg.CHn_BYPASS_A1 n).w = 7 := rfl
@[simp] theorem Reg.CHn_BYPASS_A0_V_key (n : Nat) : (Reg.CHn_BYPASS_A0_V n).key = (0x1000140 + 0x100000 * n) * 64 + (7) := rfl
@[simp] theorem Reg.CHn_BYPASS_A0_V_w (n : Nat) : (Reg.CHn_BYPASS_A0_V n).w = 1 := rfl
@[simp] theorem Reg.CHn_BYPASS_A0_key (n : Nat) : (Reg.CHn_BYPASS_A0 n).key = (0x1000140 + 0x100000 * n) * 64 + (0) := rfl
@[simp] theorem Reg.CHn_BYPASS_A0_w (n : Nat) : (Reg.CHn_BYPASS_A0 n).w = 7 := rfl
@[simp] theorem Reg.CHn_ACC_ERR_UNCORRECTED_key (n : Nat) : (Reg.CHn_ACC_ERR_UNCORRECTED n).key = (0x1000148 + 0x100000 * n) * 64 + (24) := rfl
@[simp] theorem Reg.CHn_ACC_ERR_UNCORRECTED_w (n : Nat) : (Reg.CHn_ACC_ERR_UNCORRECTED n).w = 8 := rfl
@[simp] theorem Reg.CHn_ACC_ERR_CORRECTED_key (n : Nat) : (Reg.CHn_ACC_ERR_CORRECTED n).key = (0x1000148 + 0x100000 * n) * 64 + (0) := rfl
@[simp] theorem Reg.CHn_ACC_ERR_CORRECTED_w (n : Nat) : (Reg.CHn_ACC_ERR_CORRECTED n).w = 24 := rfl
@[simp] theorem Reg.CHn_TSW_A_ECC_ROW_key (n : Nat) : (Reg.CHn_TSW_A_ECC_ROW n).key = (0x1000048 + 0x100000 * n) * 64 + (32) := rfl
@[simp] theorem Reg.CHn_TSW_A_ECC_ROW_w (n : Nat) : (Reg.CHn_TSW_A_ECC_ROW n).w = 10 := rfl
@[simp] theorem Reg.CHn_TSW_A_ECC_key (n : Nat) : (Reg.CHn_TSW_A_ECC n).key = (0x1000048 + 0x100000 * n) * 64 + (31) := rfl
@[simp] theorem Reg.CHn_TSW_A_ECC_w (n : Nat) : (Reg.CHn_TSW_A_ECC n).w = 1 := rfl
@[simp] theorem Reg.CHn_TSW_A_RERUN_K_key (n : Nat) : (Reg.CHn_TSW_A_RERUN_K n).key = (0x1000048 + 0x100000 * n) * 64 + (26) := rfl
@[simp] theorem Reg.CHn_TSW_A_RERUN_K_w (n : Nat) : (Reg.CHn_TSW_A_RERUN_K n).w = 5 := rfl
@[simp] theorem Reg.CHn_TSW_A_RERUN_key (n : Nat) : (Reg.CHn_TSW_A_RERUN n).key = (0x1000048 + 0x100000 * n) * 64 + (25) := rfl
@[simp] theorem Reg.CHn_TSW_A_RERUN_w (n : Nat) : (Reg.CHn_TSW_A_RERUN n).w = 1 := rfl
@[simp] theorem Reg.CHn_TSW_A_OVERFLOW_key (n : Nat) : (Reg.CHn_TSW_A_OVERFLOW n).key = (0x1000048 + 0x100000 * n) * 64 + (24) := rfl
@[simp] theorem Reg.CHn_TSW_A_OVERFLOW_w (n : Nat) : (Reg.CHn_TSW_A_OVERFLOW n).w = 1 := rfl
@[simp] theorem Reg.CHn_TSW_A_FLUSH_key (n : Nat) : (Reg.CHn_TSW_A_FLUSH n).key = (0x1000048 + 0x100000 * n) * 64 + (23) := rfl
@[simp] theorem Reg.CHn_TSW_A_FLUSH_w (n : Nat) : (Reg.CHn_TSW_A_FLUSH n).w = 1 := rfl
@[simp] theorem Reg.CHn_TSW_A_NAN_key (n : Nat) : (Reg.CHn_TSW_A_NAN n).key = (0x1000048 + 0x100000 * n) * 64 + (22) := rfl
@[simp] theorem Reg.CHn_TSW_A_NAN_w (n : Nat) : (Reg.CHn_TSW_A_NAN n).w = 1 := rfl
@[simp] theorem Reg.CHn_TSW_A_INF_key (n : Nat) : (Reg.CHn_TSW_A_INF n).key = (0x1000048 + 0x100000 * n) * 64 + (21) := rfl
@[simp] theorem Reg.CHn_TSW_A_INF_w (n : Nat) : (Reg.CHn_TSW_A_INF n).w = 1 := rfl
@[simp] theorem Reg.CHn_TSW_A_INVALID_key (n : Nat) : (Reg.CHn_TSW_A_INVALID n).key = (0x1000048 + 0x100000 * n) * 64 + (20) := rfl
@[simp] theorem Reg.CHn_TSW_A_INVALID_w (n : Nat) : (Reg.CHn_TSW_A_INVALID n).w = 1 := rfl
@[simp] theorem Reg.CHn_TSW_A_INV_COL_key (n : Nat) : (Reg.CHn_TSW_A_INV_COL n).key = (0x1000048 + 0x100000 * n) * 64 + (10) := rfl
@[simp] theorem Reg.CHn_TSW_A_INV_COL_w (n : Nat) : (Reg.CHn_TSW_A_INV_COL n).w = 8 := rfl
@[simp] theorem Reg.CHn_TSW_A_INV_ROW_key (n : Nat) : (Reg.CHn_TSW_A_INV_ROW n).key = (0x1000048 + 0x100000 * n) * 64 + (0) := rfl
@[simp] theorem Reg.CHn_TSW_A_INV_ROW_w (n : Nat) : (Reg.CHn_TSW_A_INV_ROW n).w = 10 := rfl
@[simp] theorem Reg.CHn_TSW_B_ECC_ROW_key (n : Nat) : (Reg.CHn_TSW_B_ECC_ROW n).key = (0x1000050 + 0x100000 * n) * 64 + (32) := rfl
@[simp] theorem Reg.CHn_TSW_B_ECC_ROW_w (n : Nat) : (Reg.CHn_TSW_B_ECC_ROW n).w = 10 := rfl
@[simp] theorem Reg.CHn_TSW_B_ECC_key (n : Nat) : (Reg.CHn_TSW_B_ECC n).key = (0x1000050 + 0x100000 * n) * 64 + (31) := rfl
@[simp] theorem Reg.CHn_TSW_B_ECC_w (n : Nat) : (Reg.CHn_TSW_B_ECC n).w = 1 := rfl
@[simp] theorem Reg.CHn_TSW_B_RERUN_K_key (n : Nat) : (Reg.CHn_TSW_B_RERUN_K n).key = (0x1000050 + 0x100000 * n) * 64 + (26) := rfl
@[simp] theorem Reg.CHn_TSW_B_RERUN_K_w (n : Nat) : (Reg.CHn_TSW_B_RERUN_K n).w = 5 := rfl
@[simp] theorem Reg.CHn_TSW_B_RERUN_key (n : Nat) : (Reg.CHn_TSW_B_RERUN n).key = (0x1000050 + 0x100000 * n) * 64 + (25) := rfl
@[simp] theorem Reg.CHn_TSW_B_RERUN_w (n : Nat) : (Reg.CHn_TSW_B_RERUN n).w = 1 := rfl
@[simp] theorem Reg.CHn_TSW_B_OVERFLOW_key (n : Nat) : (Reg.CHn_TSW_B_OVERFLOW n).key = (0x1000050 + 0x100000 * n) * 64 + (24) := rfl
@[simp] theorem Reg.CHn_TSW_B_OVERFLOW_w (n : Nat) : (Reg.CHn_TSW_B_OVERFLOW n).w = 1 := rfl
@[simp] theorem Reg.CHn_TSW_B_FLUSH_key (n : Nat) : (Reg.CHn_TSW_B_FLUSH n).key = (0x1000050 + 0x100000 * n) * 64 + (23) := rfl
@[simp] theorem Reg.CHn_TSW_B_FLUSH_w (n : Nat) : (Reg.CHn_TSW_B_FLUSH n).w = 1 := rfl
@[simp] theorem Reg.CHn_TSW_B_NAN_key (n : Nat) : (Reg.CHn_TSW_B_NAN n).key = (0x1000050 + 0x100000 * n) * 64 + (22) := rfl
@[simp] theorem Reg.CHn_TSW_B_NAN_w (n : Nat) : (Reg.CHn_TSW_B_NAN n).w = 1 := rfl
@[simp] theorem Reg.CHn_TSW_B_INF_key (n : Nat) : (Reg.CHn_TSW_B_INF n).key = (0x1000050 + 0x100000 * n) * 64 + (21) := rfl
@[simp] theorem Reg.CHn_TSW_B_INF_w (n : Nat) : (Reg.CHn_TSW_B_INF n).w = 1 := rfl
@[simp] theorem Reg.CHn_TSW_B_INVALID_key (n : Nat) : (Reg.CHn_TSW_B_INVALID n).key = (0x1000050 + 0x100000 * n) * 64 + (20) := rfl
@[simp] theorem Reg.CHn_TSW_B_INVALID_w (n : Nat) : (Reg.CHn_TSW_B_INVALID n).w = 1 := rfl
@[simp] theorem Reg.CHn_TSW_B_INV_COL_key (n : Nat) : (Reg.CHn_TSW_B_INV_COL n).key = (0x1000050 + 0x100000 * n) * 64 + (10) := rfl
@[simp] theorem Reg.CHn_TSW_B_INV_COL_w (n : Nat) : (Reg.CHn_TSW_B_INV_COL n).w = 8 := rfl
@[simp] theorem Reg.CHn_TSW_B_INV_ROW_key (n : Nat) : (Reg.CHn_TSW_B_INV_ROW n).key = (0x1000050 + 0x100000 * n) * 64 + (0) := rfl
@[simp] theorem Reg.CHn_TSW_B_INV_ROW_w (n : Nat) : (Reg.CHn_TSW_B_INV_ROW n).w = 10 := rfl
@[simp] theorem Reg.CHn_RGNi_LO_LIMIT_key (n i : Nat) : (Reg.CHn_RGNi_LO_LIMIT n i).key = (0x1001000 + 0x100000 * n + 0x10 * i) * 64 + (32) := rfl
@[simp] theorem Reg.CHn_RGNi_LO_LIMIT_w (n i : Nat) : (Reg.CHn_RGNi_LO_LIMIT n i).w = 32 := rfl
@[simp] theorem Reg.CHn_RGNi_LO_BASE_key (n i : Nat) : (Reg.CHn_RGNi_LO_BASE n i).key = (0x1001000 + 0x100000 * n + 0x10 * i) * 64 + (0) := rfl
@[simp] theorem Reg.CHn_RGNi_LO_BASE_w (n i : Nat) : (Reg.CHn_RGNi_LO_BASE n i).w = 32 := rfl
@[simp] theorem Reg.CHn_RGNi_HI_VALID_key (n i : Nat) : (Reg.CHn_RGNi_HI_VALID n i).key = (0x1001008 + 0x100000 * n + 0x10 * i) * 64 + (63) := rfl
@[simp] theorem Reg.CHn_RGNi_HI_VALID_w (n i : Nat) : (Reg.CHn_RGNi_HI_VALID n i).w = 1 := rfl
@[simp] theorem Reg.CHn_RGNi_HI_RD_key (n i : Nat) : (Reg.CHn_RGNi_HI_RD n i).key = (0x1001008 + 0x100000 * n + 0x10 * i) * 64 + (62) := rfl
@[simp] theorem Reg.CHn_RGNi_HI_RD_w (n i : Nat) : (Reg.CHn_RGNi_HI_RD n i).w = 1 := rfl
@[simp] theorem Reg.CHn_RGNi_HI_WR_key (n i : Nat) : (Reg.CHn_RGNi_HI_WR n i).key = (0x1001008 + 0x100000 * n + 0x10 * i) * 64 + (61) := rfl
@[simp] theorem Reg.CHn_RGNi_HI_WR_w (n i : Nat) : (Reg.CHn_RGNi_HI_WR n i).w = 1 := rfl
@[simp] theorem Reg.CHn_RGNi_HI_TARGET_key (n i : Nat) : (Reg.CHn_RGNi_HI_TARGET n i).key = (0x1001008 + 0x100000 * n + 0x10 * i) * 64 + (0) := rfl
@[simp] theorem Reg.CHn_RGNi_HI_TARGET_w (n i : Nat) : (Reg.CHn_RGNi_HI_TARGET n i).w = 32 := rfl
@[simp] theorem Reg.CHn_VIOL_LAST_VALID_key (n : Nat) : (Reg.CHn_VIOL_LAST_VALID n).key = (0x1000058 + 0x100000 * n) * 64 + (63) := rfl
@[simp] theorem Reg.CHn_VIOL_LAST_VALID_w (n : Nat) : (Reg.CHn_VIOL_LAST_VALID n).w = 1 := rfl
@[simp] theorem Reg.CHn_VIOL_LAST_KIND_key (n : Nat) : (Reg.CHn_VIOL_LAST_KIND n).key = (0x1000058 + 0x100000 * n) * 64 + (52) := rfl
@[simp] theorem Reg.CHn_VIOL_LAST_KIND_w (n : Nat) : (Reg.CHn_VIOL_LAST_KIND n).w = 4 := rfl
@[simp] theorem Reg.CHn_VIOL_LAST_ADDR_key (n : Nat) : (Reg.CHn_VIOL_LAST_ADDR n).key = (0x1000058 + 0x100000 * n) * 64 + (0) := rfl
@[simp] theorem Reg.CHn_VIOL_LAST_ADDR_w (n : Nat) : (Reg.CHn_VIOL_LAST_ADDR n).w = 48 := rfl
@[simp] theorem Reg.SIP_CTL_JOB_SIG_key : Reg.SIP_CTL_JOB_SIG.key = (0x3800000) * 64 + (32) := rfl
@[simp] theorem Reg.SIP_CTL_JOB_SIG_w : Reg.SIP_CTL_JOB_SIG.w = 12 := rfl
@[simp] theorem Reg.SIP_CTL_ENABLE_key : Reg.SIP_CTL_ENABLE.key = (0x3800000) * 64 + (0) := rfl
@[simp] theorem Reg.SIP_CTL_ENABLE_w : Reg.SIP_CTL_ENABLE.w = 1 := rfl
@[simp] theorem Reg.SIP_RING_ENTRIES_M1_key : Reg.SIP_RING_ENTRIES_M1.key = (0x3800008) * 64 + (48) := rfl
@[simp] theorem Reg.SIP_RING_ENTRIES_M1_w : Reg.SIP_RING_ENTRIES_M1.w = 16 := rfl
@[simp] theorem Reg.SIP_RING_BASE_key : Reg.SIP_RING_BASE.key = (0x3800008) * 64 + (0) := rfl
@[simp] theorem Reg.SIP_RING_BASE_w : Reg.SIP_RING_BASE.w = 48 := rfl
@[simp] theorem Reg.SIP_MODE_MODE_key : Reg.SIP_MODE_MODE.key = (0x3800010) * 64 + (0) := rfl
@[simp] theorem Reg.SIP_MODE_MODE_w : Reg.SIP_MODE_MODE.w = 2 := rfl
@[simp] theorem Reg.SIP_PROGRESS_COMBINE_DONE_key : Reg.SIP_PROGRESS_COMBINE_DONE.key = (0x3800018) * 64 + (32) := rfl
@[simp] theorem Reg.SIP_PROGRESS_COMBINE_DONE_w : Reg.SIP_PROGRESS_COMBINE_DONE.w = 32 := rfl
@[simp] theorem Reg.SIP_PROGRESS_ROUTE_DONE_key : Reg.SIP_PROGRESS_ROUTE_DONE.key = (0x3800018) * 64 + (0) := rfl
@[simp] theorem Reg.SIP_PROGRESS_ROUTE_DONE_w : Reg.SIP_PROGRESS_ROUTE_DONE.w = 32 := rfl
@[simp] theorem Reg.SIP_FLAGS_FLUSH_key : Reg.SIP_FLAGS_FLUSH.key = (0x3800020) * 64 + (2) := rfl
@[simp] theorem Reg.SIP_FLAGS_FLUSH_w : Reg.SIP_FLAGS_FLUSH.w = 1 := rfl
@[simp] theorem Reg.SIP_FLAGS_OVERFLOW_key : Reg.SIP_FLAGS_OVERFLOW.key = (0x3800020) * 64 + (1) := rfl
@[simp] theorem Reg.SIP_FLAGS_OVERFLOW_w : Reg.SIP_FLAGS_OVERFLOW.w = 1 := rfl
@[simp] theorem Reg.SIP_FLAGS_INVALID_key : Reg.SIP_FLAGS_INVALID.key = (0x3800020) * 64 + (0) := rfl
@[simp] theorem Reg.SIP_FLAGS_INVALID_w : Reg.SIP_FLAGS_INVALID.w = 1 := rfl
@[simp] theorem Reg.SIP_DROP_COUNT_COUNT_key : Reg.SIP_DROP_COUNT_COUNT.key = (0x3800028) * 64 + (0) := rfl
@[simp] theorem Reg.SIP_DROP_COUNT_COUNT_w : Reg.SIP_DROP_COUNT_COUNT.w = 64 := rfl
@[simp] theorem Reg.SIP_DEFER_COUNT_COUNT_key : Reg.SIP_DEFER_COUNT_COUNT.key = (0x3800030) * 64 + (0) := rfl
@[simp] theorem Reg.SIP_DEFER_COUNT_COUNT_w : Reg.SIP_DEFER_COUNT_COUNT.w = 64 := rfl
@[simp] theorem Reg.SIP_SECOND_COUNT_COUNT_key : Reg.SIP_SECOND_COUNT_COUNT.key = (0x3800038) * 64 + (0) := rfl
@[simp] theorem Reg.SIP_SECOND_COUNT_COUNT_w : Reg.SIP_SECOND_COUNT_COUNT.w = 64 := rfl
@[simp] theorem Reg.SIP_BADLOGIT_COUNT_COUNT_key : Reg.SIP_BADLOGIT_COUNT_COUNT.key = (0x3800040) * 64 + (0) := rfl
@[simp] theorem Reg.SIP_BADLOGIT_COUNT_COUNT_w : Reg.SIP_BADLOGIT_COUNT_COUNT.w = 64 := rfl
@[simp] theorem Reg.SIP_UNROUTED_COUNT_COUNT_key : Reg.SIP_UNROUTED_COUNT_COUNT.key = (0x3800048) * 64 + (0) := rfl
@[simp] theorem Reg.SIP_UNROUTED_COUNT_COUNT_w : Reg.SIP_UNROUTED_COUNT_COUNT.w = 64 := rfl
@[simp] theorem Reg.SIP_LAST_ERR_JOB_key : Reg.SIP_LAST_ERR_JOB.key = (0x3800050) * 64 + (32) := rfl
@[simp] theorem Reg.SIP_LAST_ERR_JOB_w : Reg.SIP_LAST_ERR_JOB.w = 32 := rfl
@[simp] theorem Reg.SIP_LAST_ERR_ENGINE_key : Reg.SIP_LAST_ERR_ENGINE.key = (0x3800050) * 64 + (8) := rfl
@[simp] theorem Reg.SIP_LAST_ERR_ENGINE_w : Reg.SIP_LAST_ERR_ENGINE.w = 1 := rfl
@[simp] theorem Reg.SIP_LAST_ERR_STATUS_key : Reg.SIP_LAST_ERR_STATUS.key = (0x3800050) * 64 + (0) := rfl
@[simp] theorem Reg.SIP_LAST_ERR_STATUS_w : Reg.SIP_LAST_ERR_STATUS.w = 8 := rfl
@[simp] theorem Reg.CHn_XC_CTL_JOB_SIG_key (n : Nat) : (Reg.CHn_XC_CTL_JOB_SIG n).key = (0x1000200 + 0x100000 * n) * 64 + (32) := rfl
@[simp] theorem Reg.CHn_XC_CTL_JOB_SIG_w (n : Nat) : (Reg.CHn_XC_CTL_JOB_SIG n).w = 12 := rfl
@[simp] theorem Reg.CHn_XC_CTL_ENABLE_key (n : Nat) : (Reg.CHn_XC_CTL_ENABLE n).key = (0x1000200 + 0x100000 * n) * 64 + (0) := rfl
@[simp] theorem Reg.CHn_XC_CTL_ENABLE_w (n : Nat) : (Reg.CHn_XC_CTL_ENABLE n).w = 1 := rfl
@[simp] theorem Reg.CHn_XC_RING_ENTRIES_M1_key (n : Nat) : (Reg.CHn_XC_RING_ENTRIES_M1 n).key = (0x1000208 + 0x100000 * n) * 64 + (48) := rfl
@[simp] theorem Reg.CHn_XC_RING_ENTRIES_M1_w (n : Nat) : (Reg.CHn_XC_RING_ENTRIES_M1 n).w = 16 := rfl
@[simp] theorem Reg.CHn_XC_RING_BASE_key (n : Nat) : (Reg.CHn_XC_RING_BASE n).key = (0x1000208 + 0x100000 * n) * 64 + (0) := rfl
@[simp] theorem Reg.CHn_XC_RING_BASE_w (n : Nat) : (Reg.CHn_XC_RING_BASE n).w = 48 := rfl
@[simp] theorem Reg.CHn_XC_PROGRESS_LAST_STATUS_key (n : Nat) : (Reg.CHn_XC_PROGRESS_LAST_STATUS n).key = (0x1000210 + 0x100000 * n) * 64 + (32) := rfl
@[simp] theorem Reg.CHn_XC_PROGRESS_LAST_STATUS_w (n : Nat) : (Reg.CHn_XC_PROGRESS_LAST_STATUS n).w = 8 := rfl
@[simp] theorem Reg.CHn_XC_PROGRESS_DONE_key (n : Nat) : (Reg.CHn_XC_PROGRESS_DONE n).key = (0x1000210 + 0x100000 * n) * 64 + (0) := rfl
@[simp] theorem Reg.CHn_XC_PROGRESS_DONE_w (n : Nat) : (Reg.CHn_XC_PROGRESS_DONE n).w = 32 := rfl
@[simp] theorem Reg.CHn_XT_SLOT0_TABLE_ID_key (n : Nat) : (Reg.CHn_XT_SLOT0_TABLE_ID n).key = (0x1000218 + 0x100000 * n) * 64 + (32) := rfl
@[simp] theorem Reg.CHn_XT_SLOT0_TABLE_ID_w (n : Nat) : (Reg.CHn_XT_SLOT0_TABLE_ID n).w = 16 := rfl
@[simp] theorem Reg.CHn_XT_SLOT0_NSYM_key (n : Nat) : (Reg.CHn_XT_SLOT0_NSYM n).key = (0x1000218 + 0x100000 * n) * 64 + (8) := rfl
@[simp] theorem Reg.CHn_XT_SLOT0_NSYM_w (n : Nat) : (Reg.CHn_XT_SLOT0_NSYM n).w = 4 := rfl
@[simp] theorem Reg.CHn_XT_SLOT0_TYPE_key (n : Nat) : (Reg.CHn_XT_SLOT0_TYPE n).key = (0x1000218 + 0x100000 * n) * 64 + (4) := rfl
@[simp] theorem Reg.CHn_XT_SLOT0_TYPE_w (n : Nat) : (Reg.CHn_XT_SLOT0_TYPE n).w = 4 := rfl
@[simp] theorem Reg.CHn_XT_SLOT0_QUEUED_key (n : Nat) : (Reg.CHn_XT_SLOT0_QUEUED n).key = (0x1000218 + 0x100000 * n) * 64 + (2) := rfl
@[simp] theorem Reg.CHn_XT_SLOT0_QUEUED_w (n : Nat) : (Reg.CHn_XT_SLOT0_QUEUED n).w = 1 := rfl
@[simp] theorem Reg.CHn_XT_SLOT0_PENDING_key (n : Nat) : (Reg.CHn_XT_SLOT0_PENDING n).key = (0x1000218 + 0x100000 * n) * 64 + (1) := rfl
@[simp] theorem Reg.CHn_XT_SLOT0_PENDING_w (n : Nat) : (Reg.CHn_XT_SLOT0_PENDING n).w = 1 := rfl
@[simp] theorem Reg.CHn_XT_SLOT0_VALID_key (n : Nat) : (Reg.CHn_XT_SLOT0_VALID n).key = (0x1000218 + 0x100000 * n) * 64 + (0) := rfl
@[simp] theorem Reg.CHn_XT_SLOT0_VALID_w (n : Nat) : (Reg.CHn_XT_SLOT0_VALID n).w = 1 := rfl
@[simp] theorem Reg.CHn_XT_SLOT1_TABLE_ID_key (n : Nat) : (Reg.CHn_XT_SLOT1_TABLE_ID n).key = (0x1000220 + 0x100000 * n) * 64 + (32) := rfl
@[simp] theorem Reg.CHn_XT_SLOT1_TABLE_ID_w (n : Nat) : (Reg.CHn_XT_SLOT1_TABLE_ID n).w = 16 := rfl
@[simp] theorem Reg.CHn_XT_SLOT1_NSYM_key (n : Nat) : (Reg.CHn_XT_SLOT1_NSYM n).key = (0x1000220 + 0x100000 * n) * 64 + (8) := rfl
@[simp] theorem Reg.CHn_XT_SLOT1_NSYM_w (n : Nat) : (Reg.CHn_XT_SLOT1_NSYM n).w = 4 := rfl
@[simp] theorem Reg.CHn_XT_SLOT1_TYPE_key (n : Nat) : (Reg.CHn_XT_SLOT1_TYPE n).key = (0x1000220 + 0x100000 * n) * 64 + (4) := rfl
@[simp] theorem Reg.CHn_XT_SLOT1_TYPE_w (n : Nat) : (Reg.CHn_XT_SLOT1_TYPE n).w = 4 := rfl
@[simp] theorem Reg.CHn_XT_SLOT1_QUEUED_key (n : Nat) : (Reg.CHn_XT_SLOT1_QUEUED n).key = (0x1000220 + 0x100000 * n) * 64 + (2) := rfl
@[simp] theorem Reg.CHn_XT_SLOT1_QUEUED_w (n : Nat) : (Reg.CHn_XT_SLOT1_QUEUED n).w = 1 := rfl
@[simp] theorem Reg.CHn_XT_SLOT1_PENDING_key (n : Nat) : (Reg.CHn_XT_SLOT1_PENDING n).key = (0x1000220 + 0x100000 * n) * 64 + (1) := rfl
@[simp] theorem Reg.CHn_XT_SLOT1_PENDING_w (n : Nat) : (Reg.CHn_XT_SLOT1_PENDING n).w = 1 := rfl
@[simp] theorem Reg.CHn_XT_SLOT1_VALID_key (n : Nat) : (Reg.CHn_XT_SLOT1_VALID n).key = (0x1000220 + 0x100000 * n) * 64 + (0) := rfl
@[simp] theorem Reg.CHn_XT_SLOT1_VALID_w (n : Nat) : (Reg.CHn_XT_SLOT1_VALID n).w = 1 := rfl
@[simp] theorem Reg.CHn_EXP_STALL_COUNT_key (n : Nat) : (Reg.CHn_EXP_STALL_COUNT n).key = (0x1000228 + 0x100000 * n) * 64 + (0) := rfl
@[simp] theorem Reg.CHn_EXP_STALL_COUNT_w (n : Nat) : (Reg.CHn_EXP_STALL_COUNT n).w = 64 := rfl
@[simp] theorem Reg.CHn_XP_IN_COUNT_key (n : Nat) : (Reg.CHn_XP_IN_COUNT n).key = (0x1000230 + 0x100000 * n) * 64 + (0) := rfl
@[simp] theorem Reg.CHn_XP_IN_COUNT_w (n : Nat) : (Reg.CHn_XP_IN_COUNT n).w = 64 := rfl
@[simp] theorem Reg.CHn_XP_OUT_COUNT_key (n : Nat) : (Reg.CHn_XP_OUT_COUNT n).key = (0x1000238 + 0x100000 * n) * 64 + (0) := rfl
@[simp] theorem Reg.CHn_XP_OUT_COUNT_w (n : Nat) : (Reg.CHn_XP_OUT_COUNT n).w = 64 := rfl
@[simp] theorem Reg.CHn_XP_ESC_COUNT_key (n : Nat) : (Reg.CHn_XP_ESC_COUNT n).key = (0x1000240 + 0x100000 * n) * 64 + (0) := rfl
@[simp] theorem Reg.CHn_XP_ESC_COUNT_w (n : Nat) : (Reg.CHn_XP_ESC_COUNT n).w = 64 := rfl
@[simp] theorem Reg.CHn_XP_LAST_VALID_key (n : Nat) : (Reg.CHn_XP_LAST_VALID n).key = (0x1000248 + 0x100000 * n) * 64 + (63) := rfl
@[simp] theorem Reg.CHn_XP_LAST_VALID_w (n : Nat) : (Reg.CHn_XP_LAST_VALID n).w = 1 := rfl
@[simp] theorem Reg.CHn_XP_LAST_REASON_key (n : Nat) : (Reg.CHn_XP_LAST_REASON n).key = (0x1000248 + 0x100000 * n) * 64 + (56) := rfl
@[simp] theorem Reg.CHn_XP_LAST_REASON_w (n : Nat) : (Reg.CHn_XP_LAST_REASON n).w = 4 := rfl
@[simp] theorem Reg.CHn_XP_LAST_TAG_key (n : Nat) : (Reg.CHn_XP_LAST_TAG n).key = (0x1000248 + 0x100000 * n) * 64 + (52) := rfl
@[simp] theorem Reg.CHn_XP_LAST_TAG_w (n : Nat) : (Reg.CHn_XP_LAST_TAG n).w = 3 := rfl
@[simp] theorem Reg.CHn_XP_LAST_ADDR_key (n : Nat) : (Reg.CHn_XP_LAST_ADDR n).key = (0x1000248 + 0x100000 * n) * 64 + (0) := rfl
@[simp] theorem Reg.CHn_XP_LAST_ADDR_w (n : Nat) : (Reg.CHn_XP_LAST_ADDR n).w = 48 := rfl
@[simp] theorem Reg.HLC_CTL_TIMEOUT_US_key : Reg.HLC_CTL_TIMEOUT_US.key = (0x3400000) * 64 + (48) := rfl
@[simp] theorem Reg.HLC_CTL_TIMEOUT_US_w : Reg.HLC_CTL_TIMEOUT_US.w = 16 := rfl
@[simp] theorem Reg.HLC_CTL_JOB_SIG_key : Reg.HLC_CTL_JOB_SIG.key = (0x3400000) * 64 + (32) := rfl
@[simp] theorem Reg.HLC_CTL_JOB_SIG_w : Reg.HLC_CTL_JOB_SIG.w = 12 := rfl
@[simp] theorem Reg.HLC_CTL_ENABLE_key : Reg.HLC_CTL_ENABLE.key = (0x3400000) * 64 + (0) := rfl
@[simp] theorem Reg.HLC_CTL_ENABLE_w : Reg.HLC_CTL_ENABLE.w = 1 := rfl
@[simp] theorem Reg.HLC_RING_ENTRIES_M1_key : Reg.HLC_RING_ENTRIES_M1.key = (0x3400008) * 64 + (48) := rfl
@[simp] theorem Reg.HLC_RING_ENTRIES_M1_w : Reg.HLC_RING_ENTRIES_M1.w = 16 := rfl
@[simp] theorem Reg.HLC_RING_BASE_key : Reg.HLC_RING_BASE.key = (0x3400008) * 64 + (0) := rfl
@[simp] theorem Reg.HLC_RING_BASE_w : Reg.HLC_RING_BASE.w = 48 := rfl
@[simp] theorem Reg.HLC_PROGRESS_LAST_STATUS_key : Reg.HLC_PROGRESS_LAST_STATUS.key = (0x3400010) * 64 + (32) := rfl
@[simp] theorem Reg.HLC_PROGRESS_LAST_STATUS_w : Reg.HLC_PROGRESS_LAST_STATUS.w = 8 := rfl
@[simp] theorem Reg.HLC_PROGRESS_DONE_key : Reg.HLC_PROGRESS_DONE.key = (0x3400010) * 64 + (0) := rfl
@[simp] theorem Reg.HLC_PROGRESS_DONE_w : Reg.HLC_PROGRESS_DONE.w = 32 := rfl
@[simp] theorem Reg.HLC_FAULT_JOB_key : Reg.HLC_FAULT_JOB.key = (0x3400018) * 64 + (32) := rfl
@[simp] theorem Reg.HLC_FAULT_JOB_w : Reg.HLC_FAULT_JOB.w = 32 := rfl
@[simp] theorem Reg.HLC_FAULT_INDEX_key : Reg.HLC_FAULT_INDEX.key = (0x3400018) * 64 + (21) := rfl
@[simp] theorem Reg.HLC_FAULT_INDEX_w : Reg.HLC_FAULT_INDEX.w = 11 := rfl
@[simp] theorem Reg.HLC_FAULT_PC_key : Reg.HLC_FAULT_PC.key = (0x3400018) * 64 + (13) := rfl
@[simp] theorem Reg.HLC_FAULT_PC_w : Reg.HLC_FAULT_PC.w = 8 := rfl
@[simp] theorem Reg.HLC_FAULT_STATUS_key : Reg.HLC_FAULT_STATUS.key = (0x3400018) * 64 + (0) := rfl
@[simp] theorem Reg.HLC_FAULT_STATUS_w : Reg.HLC_FAULT_STATUS.w = 8 := rfl
@[simp] theorem Reg.HLC_TEMP_HOT_LAYERS_key : Reg.HLC_TEMP_HOT_LAYERS.key = (0x3400020) * 64 + (16) := rfl
@[simp] theorem Reg.HLC_TEMP_HOT_LAYERS_w : Reg.HLC_TEMP_HOT_LAYERS.w = 12 := rfl
@[simp] theorem Reg.HLC_TEMP_LAYER_key : Reg.HLC_TEMP_LAYER.key = (0x3400020) * 64 + (12) := rfl
@[simp] theorem Reg.HLC_TEMP_LAYER_w : Reg.HLC_TEMP_LAYER.w = 4 := rfl
@[simp] theorem Reg.HLC_TEMP_DEG_key : Reg.HLC_TEMP_DEG.key = (0x3400020) * 64 + (0) := rfl
@[simp] theorem Reg.HLC_TEMP_DEG_w : Reg.HLC_TEMP_DEG.w = 12 := rfl
@[simp] theorem Reg.HLC_ECC_POISONED_key : Reg.HLC_ECC_POISONED.key = (0x3400028) * 64 + (32) := rfl
@[simp] theorem Reg.HLC_ECC_POISONED_w : Reg.HLC_ECC_POISONED.w = 32 := rfl
@[simp] theorem Reg.HLC_ECC_CORRECTED_key : Reg.HLC_ECC_CORRECTED.key = (0x3400028) * 64 + (0) := rfl
@[simp] theorem Reg.HLC_ECC_CORRECTED_w : Reg.HLC_ECC_CORRECTED.w = 32 := rfl
@[simp] theorem Reg.HLC_REPAIR_EXHAUSTED_key : Reg.HLC_REPAIR_EXHAUSTED.key = (0x3400030) * 64 + (63) := rfl
@[simp] theorem Reg.HLC_REPAIR_EXHAUSTED_w : Reg.HLC_REPAIR_EXHAUSTED.w = 1 := rfl
@[simp] theorem Reg.HLC_REPAIR_MIN_FREE_key : Reg.HLC_REPAIR_MIN_FREE.key = (0x3400030) * 64 + (32) := rfl
@[simp] theorem Reg.HLC_REPAIR_MIN_FREE_w : Reg.HLC_REPAIR_MIN_FREE.w = 8 := rfl
@[simp] theorem Reg.HLC_REPAIR_MOVED_key : Reg.HLC_REPAIR_MOVED.key = (0x3400030) * 64 + (0) := rfl
@[simp] theorem Reg.HLC_REPAIR_MOVED_w : Reg.HLC_REPAIR_MOVED.w = 32 := rfl
@[simp] theorem Reg.HLC_CLAIM_STAT_FORCED_key : Reg.HLC_CLAIM_STAT_FORCED.key = (0x3400038) * 64 + (32) := rfl
@[simp] theorem Reg.HLC_CLAIM_STAT_FORCED_w : Reg.HLC_CLAIM_STAT_FORCED.w = 32 := rfl
@[simp] theorem Reg.HLC_CLAIM_STAT_BACKINV_key : Reg.HLC_CLAIM_STAT_BACKINV.key = (0x3400038) * 64 + (0) := rfl
@[simp] theorem Reg.HLC_CLAIM_STAT_BACKINV_w : Reg.HLC_CLAIM_STAT_BACKINV.w = 32 := rfl
@[simp] theorem Reg.HLC_DEINTi_CFG_VALID_key (i : Nat) : (Reg.HLC_DEINTi_CFG_VALID i).key = (0x3400100 + 0x10 * i) * 64 + (63) := rfl
@[simp] theorem Reg.HLC_DEINTi_CFG_VALID_w (i : Nat) : (Reg.HLC_DEINTi_CFG_VALID i).w = 1 := rfl
@[simp] theorem Reg.HLC_DEINTi_CFG_G_LOG2_key (i : Nat) : (Reg.HLC_DEINTi_CFG_G_LOG2 i).key = (0x3400100 + 0x10 * i) * 64 + (56) := rfl
@[simp] theorem Reg.HLC_DEINTi_CFG_G_LOG2_w (i : Nat) : (Reg.HLC_DEINTi_CFG_G_LOG2 i).w = 4 := rfl
@[simp] theorem Reg.HLC_DEINTi_CFG_W_key (i : Nat) : (Reg.HLC_DEINTi_CFG_W i).key = (0x3400100 + 0x10 * i) * 64 + (51) := rfl
@[simp] theorem Reg.HLC_DEINTi_CFG_W_w (i : Nat) : (Reg.HLC_DEINTi_CFG_W i).w = 5 := rfl
@[simp] theorem Reg.HLC_DEINTi_CFG_POS_key (i : Nat) : (Reg.HLC_DEINTi_CFG_POS i).key = (0x3400100 + 0x10 * i) * 64 + (47) := rfl
@[simp] theorem Reg.HLC_DEINTi_CFG_POS_w (i : Nat) : (Reg.HLC_DEINTi_CFG_POS i).w = 4 := rfl
@[simp] theorem Reg.HLC_DEINTi_CFG_SIZE_key (i : Nat) : (Reg.HLC_DEINTi_CFG_SIZE i).key = (0x3400100 + 0x10 * i) * 64 + (0) := rfl
@[simp] theorem Reg.HLC_DEINTi_CFG_SIZE_w (i : Nat) : (Reg.HLC_DEINTi_CFG_SIZE i).w = 41 := rfl
@[simp] theorem Reg.HLC_DEINTi_TGT_TARGET_key (i : Nat) : (Reg.HLC_DEINTi_TGT_TARGET i).key = (0x3400108 + 0x10 * i) * 64 + (0) := rfl
@[simp] theorem Reg.HLC_DEINTi_TGT_TARGET_w (i : Nat) : (Reg.HLC_DEINTi_TGT_TARGET i).w = 48 := rfl
@[simp] theorem Reg.HLC_DEINT_FOREIGN_COUNT_key : Reg.HLC_DEINT_FOREIGN_COUNT.key = (0x3400140) * 64 + (0) := rfl
@[simp] theorem Reg.HLC_DEINT_FOREIGN_COUNT_w : Reg.HLC_DEINT_FOREIGN_COUNT.w = 64 := rfl
@[simp] theorem Reg.FLS_CTL_JOB_SIG_key : Reg.FLS_CTL_JOB_SIG.key = (0x3000000) * 64 + (32) := rfl
@[simp] theorem Reg.FLS_CTL_JOB_SIG_w : Reg.FLS_CTL_JOB_SIG.w = 12 := rfl
@[simp] theorem Reg.FLS_CTL_ENABLE_key : Reg.FLS_CTL_ENABLE.key = (0x3000000) * 64 + (0) := rfl
@[simp] theorem Reg.FLS_CTL_ENABLE_w : Reg.FLS_CTL_ENABLE.w = 1 := rfl
@[simp] theorem Reg.FLS_RING_ENTRIES_M1_key : Reg.FLS_RING_ENTRIES_M1.key = (0x3000008) * 64 + (48) := rfl
@[simp] theorem Reg.FLS_RING_ENTRIES_M1_w : Reg.FLS_RING_ENTRIES_M1.w = 16 := rfl
@[simp] theorem Reg.FLS_RING_BASE_key : Reg.FLS_RING_BASE.key = (0x3000008) * 64 + (0) := rfl
@[simp] theorem Reg.FLS_RING_BASE_w : Reg.FLS_RING_BASE.w = 48 := rfl
@[simp] theorem Reg.FLS_POLICY_AUTO_key : Reg.FLS_POLICY_AUTO.key = (0x3000010) * 64 + (63) := rfl
@[simp] theorem Reg.FLS_POLICY_AUTO_w : Reg.FLS_POLICY_AUTO.w = 1 := rfl
@[simp] theorem Reg.FLS_POLICY_HYST_key : Reg.FLS_POLICY_HYST.key = (0x3000010) * 64 + (56) := rfl
@[simp] theorem Reg.FLS_POLICY_HYST_w : Reg.FLS_POLICY_HYST.w = 4 := rfl
@[simp] theorem Reg.FLS_POLICY_KEEP_US_key : Reg.FLS_POLICY_KEEP_US.key = (0x3000010) * 64 + (40) := rfl
@[simp] theorem Reg.FLS_POLICY_KEEP_US_w : Reg.FLS_POLICY_KEEP_US.w = 16 := rfl
@[simp] theorem Reg.FLS_POLICY_DRAIN_HEADROOM_GIB_key : Reg.FLS_POLICY_DRAIN_HEADROOM_GIB.key = (0x3000010) * 64 + (32) := rfl
@[simp] theorem Reg.FLS_POLICY_DRAIN_HEADROOM_GIB_w : Reg.FLS_POLICY_DRAIN_HEADROOM_GIB.w = 8 := rfl
@[simp] theorem Reg.FLS_POLICY_PROMOTE_MIN_key : Reg.FLS_POLICY_PROMOTE_MIN.key = (0x3000010) * 64 + (16) := rfl
@[simp] theorem Reg.FLS_POLICY_PROMOTE_MIN_w : Reg.FLS_POLICY_PROMOTE_MIN.w = 16 := rfl
@[simp] theorem Reg.FLS_POLICY_EPOCH_US_key : Reg.FLS_POLICY_EPOCH_US.key = (0x3000010) * 64 + (0) := rfl
@[simp] theorem Reg.FLS_POLICY_EPOCH_US_w : Reg.FLS_POLICY_EPOCH_US.w = 16 := rfl
@[simp] theorem Reg.FLS_NOW_US_key : Reg.FLS_NOW_US.key = (0x3000018) * 64 + (0) := rfl
@[simp] theorem Reg.FLS_NOW_US_w : Reg.FLS_NOW_US.w = 48 := rfl
@[simp] theorem Reg.FLS_STATUS_FULL_key : Reg.FLS_STATUS_FULL.key = (0x3000020) * 64 + (63) := rfl
@[simp] theorem Reg.FLS_STATUS_FULL_w : Reg.FLS_STATUS_FULL.w = 1 := rfl
@[simp] theorem Reg.FLS_STATUS_OBJECTS_key : Reg.FLS_STATUS_OBJECTS.key = (0x3000020) * 64 + (16) := rfl
@[simp] theorem Reg.FLS_STATUS_OBJECTS_w : Reg.FLS_STATUS_OBJECTS.w = 17 := rfl
@[simp] theorem Reg.FLS_STATUS_MOVES_key : Reg.FLS_STATUS_MOVES.key = (0x3000020) * 64 + (0) := rfl
@[simp] theorem Reg.FLS_STATUS_MOVES_w : Reg.FLS_STATUS_MOVES.w = 4 := rfl
@[simp] theorem Reg.FLS_FREE_OVERHANG_key : Reg.FLS_FREE_OVERHANG.key = (0x3000028) * 64 + (40) := rfl
@[simp] theorem Reg.FLS_FREE_OVERHANG_w : Reg.FLS_FREE_OVERHANG.w = 20 := rfl
@[simp] theorem Reg.FLS_FREE_CART_key : Reg.FLS_FREE_CART.key = (0x3000028) * 64 + (20) := rfl
@[simp] theorem Reg.FLS_FREE_CART_w : Reg.FLS_FREE_CART.w = 20 := rfl
@[simp] theorem Reg.FLS_FREE_BONDED_key : Reg.FLS_FREE_BONDED.key = (0x3000028) * 64 + (0) := rfl
@[simp] theorem Reg.FLS_FREE_BONDED_w : Reg.FLS_FREE_BONDED.w = 20 := rfl
@[simp] theorem Reg.FLS_DRAIN_REMAIN_key : Reg.FLS_DRAIN_REMAIN.key = (0x3000030) * 64 + (32) := rfl
@[simp] theorem Reg.FLS_DRAIN_REMAIN_w : Reg.FLS_DRAIN_REMAIN.w = 20 := rfl
@[simp] theorem Reg.FLS_DRAIN_STALLED_key : Reg.FLS_DRAIN_STALLED.key = (0x3000030) * 64 + (12) := rfl
@[simp] theorem Reg.FLS_DRAIN_STALLED_w : Reg.FLS_DRAIN_STALLED.w = 1 := rfl
@[simp] theorem Reg.FLS_DRAIN_REASON_key : Reg.FLS_DRAIN_REASON.key = (0x3000030) * 64 + (8) := rfl
@[simp] theorem Reg.FLS_DRAIN_REASON_w : Reg.FLS_DRAIN_REASON.w = 4 := rfl
@[simp] theorem Reg.FLS_DRAIN_ACTIVE_key : Reg.FLS_DRAIN_ACTIVE.key = (0x3000030) * 64 + (3) := rfl
@[simp] theorem Reg.FLS_DRAIN_ACTIVE_w : Reg.FLS_DRAIN_ACTIVE.w = 1 := rfl
@[simp] theorem Reg.FLS_DRAIN_SLOT_key : Reg.FLS_DRAIN_SLOT.key = (0x3000030) * 64 + (0) := rfl
@[simp] theorem Reg.FLS_DRAIN_SLOT_w : Reg.FLS_DRAIN_SLOT.w = 3 := rfl
@[simp] theorem Reg.FLS_DL_MISS_key : Reg.FLS_DL_MISS.key = (0x3000038) * 64 + (32) := rfl
@[simp] theorem Reg.FLS_DL_MISS_w : Reg.FLS_DL_MISS.w = 32 := rfl
@[simp] theorem Reg.FLS_DL_MET_key : Reg.FLS_DL_MET.key = (0x3000038) * 64 + (0) := rfl
@[simp] theorem Reg.FLS_DL_MET_w : Reg.FLS_DL_MET.w = 32 := rfl
@[simp] theorem Reg.FLS_MOVED_COUNT_key : Reg.FLS_MOVED_COUNT.key = (0x3000040) * 64 + (0) := rfl
@[simp] theorem Reg.FLS_MOVED_COUNT_w : Reg.FLS_MOVED_COUNT.w = 64 := rfl
@[simp] theorem Reg.FLS_DIRECT_COUNT_key : Reg.FLS_DIRECT_COUNT.key = (0x3000048) * 64 + (0) := rfl
@[simp] theorem Reg.FLS_DIRECT_COUNT_w : Reg.FLS_DIRECT_COUNT.w = 64 := rfl
@[simp] theorem Reg.FLS_ELIDED_COUNT_key : Reg.FLS_ELIDED_COUNT.key = (0x3000050) * 64 + (0) := rfl
@[simp] theorem Reg.FLS_ELIDED_COUNT_w : Reg.FLS_ELIDED_COUNT.w = 64 := rfl
@[simp] theorem Reg.BMCm_STATE_HELD_key (m : Nat) : (Reg.BMCm_STATE_HELD m).key = (0x5800000 + 0x40000 * m) * 64 + (32) := rfl
@[simp] theorem Reg.BMCm_STATE_HELD_w (m : Nat) : (Reg.BMCm_STATE_HELD m).w = 20 := rfl
@[simp] theorem Reg.BMCm_STATE_CHANNELS_key (m : Nat) : (Reg.BMCm_STATE_CHANNELS m).key = (0x5800000 + 0x40000 * m) * 64 + (8) := rfl
@[simp] theorem Reg.BMCm_STATE_CHANNELS_w (m : Nat) : (Reg.BMCm_STATE_CHANNELS m).w = 4 := rfl
@[simp] theorem Reg.BMCm_STATE_KIND_key (m : Nat) : (Reg.BMCm_STATE_KIND m).key = (0x5800000 + 0x40000 * m) * 64 + (4) := rfl
@[simp] theorem Reg.BMCm_STATE_KIND_w (m : Nat) : (Reg.BMCm_STATE_KIND m).w = 1 := rfl
@[simp] theorem Reg.BMCm_STATE_STATE_key (m : Nat) : (Reg.BMCm_STATE_STATE m).key = (0x5800000 + 0x40000 * m) * 64 + (0) := rfl
@[simp] theorem Reg.BMCm_STATE_STATE_w (m : Nat) : (Reg.BMCm_STATE_STATE m).w = 3 := rfl
@[simp] theorem Reg.BMCm_ERR_POISONED_key (m : Nat) : (Reg.BMCm_ERR_POISONED m).key = (0x5800008 + 0x40000 * m) * 64 + (32) := rfl
@[simp] theorem Reg.BMCm_ERR_POISONED_w (m : Nat) : (Reg.BMCm_ERR_POISONED m).w = 32 := rfl
@[simp] theorem Reg.BMCm_ERR_CORRECTED_key (m : Nat) : (Reg.BMCm_ERR_CORRECTED m).key = (0x5800008 + 0x40000 * m) * 64 + (0) := rfl
@[simp] theorem Reg.BMCm_ERR_CORRECTED_w (m : Nat) : (Reg.BMCm_ERR_CORRECTED m).w = 32 := rfl
@[simp] theorem Reg.TRV_CTL_STALL_MS_key : Reg.TRV_CTL_STALL_MS.key = (0x3C00000) * 64 + (32) := rfl
@[simp] theorem Reg.TRV_CTL_STALL_MS_w : Reg.TRV_CTL_STALL_MS.w = 16 := rfl
@[simp] theorem Reg.TRV_CTL_ABORT_key : Reg.TRV_CTL_ABORT.key = (0x3C00000) * 64 + (0) := rfl
@[simp] theorem Reg.TRV_CTL_ABORT_w : Reg.TRV_CTL_ABORT.w = 1 := rfl
@[simp] theorem Reg.TRV_STATE_STAMP_key : Reg.TRV_STATE_STAMP.key = (0x3C00008) * 64 + (32) := rfl
@[simp] theorem Reg.TRV_STATE_STAMP_w : Reg.TRV_STATE_STAMP.w = 32 := rfl
@[simp] theorem Reg.TRV_STATE_STAGE_key : Reg.TRV_STATE_STAGE.key = (0x3C00008) * 64 + (8) := rfl
@[simp] theorem Reg.TRV_STATE_STAGE_w : Reg.TRV_STATE_STAGE.w = 4 := rfl
@[simp] theorem Reg.TRV_STATE_HELD_key : Reg.TRV_STATE_HELD.key = (0x3C00008) * 64 + (3) := rfl
@[simp] theorem Reg.TRV_STATE_HELD_w : Reg.TRV_STATE_HELD.w = 1 := rfl
@[simp] theorem Reg.TRV_STATE_STATE_key : Reg.TRV_STATE_STATE.key = (0x3C00008) * 64 + (0) := rfl
@[simp] theorem Reg.TRV_STATE_STATE_w : Reg.TRV_STATE_STATE.w = 3 := rfl
@[simp] theorem Reg.TRV_PLAN_ADDR_key : Reg.TRV_PLAN_ADDR.key = (0x3C00010) * 64 + (0) := rfl
@[simp] theorem Reg.TRV_PLAN_ADDR_w : Reg.TRV_PLAN_ADDR.w = 48 := rfl
@[simp] theorem Reg.TRV_PROGRESS_INST_key : Reg.TRV_PROGRESS_INST.key = (0x3C00018) * 64 + (32) := rfl
@[simp] theorem Reg.TRV_PROGRESS_INST_w : Reg.TRV_PROGRESS_INST.w = 32 := rfl
@[simp] theorem Reg.TRV_PROGRESS_B_DONE_key : Reg.TRV_PROGRESS_B_DONE.key = (0x3C00018) * 64 + (16) := rfl
@[simp] theorem Reg.TRV_PROGRESS_B_DONE_w : Reg.TRV_PROGRESS_B_DONE.w = 13 := rfl
@[simp] theorem Reg.TRV_PROGRESS_F_DONE_key : Reg.TRV_PROGRESS_F_DONE.key = (0x3C00018) * 64 + (0) := rfl
@[simp] theorem Reg.TRV_PROGRESS_F_DONE_w : Reg.TRV_PROGRESS_F_DONE.w = 13 := rfl
@[simp] theorem Reg.TRV_LAST_STAMP_key : Reg.TRV_LAST_STAMP.key = (0x3C00020) * 64 + (32) := rfl
@[simp] theorem Reg.TRV_LAST_STAMP_w : Reg.TRV_LAST_STAMP.w = 32 := rfl
@[simp] theorem Reg.TRV_LAST_CAUSE_key : Reg.TRV_LAST_CAUSE.key = (0x3C00020) * 64 + (8) := rfl
@[simp] theorem Reg.TRV_LAST_CAUSE_w : Reg.TRV_LAST_CAUSE.w = 8 := rfl
@[simp] theorem Reg.TRV_LAST_STATUS_key : Reg.TRV_LAST_STATUS.key = (0x3C00020) * 64 + (0) := rfl
@[simp] theorem Reg.TRV_LAST_STATUS_w : Reg.TRV_LAST_STATUS.w = 8 := rfl
@[simp] theorem Reg.TRV_FAIL_CODE_key : Reg.TRV_FAIL_CODE.key = (0x3C00028) * 64 + (48) := rfl
@[simp] theorem Reg.TRV_FAIL_CODE_w : Reg.TRV_FAIL_CODE.w = 16 := rfl
@[simp] theorem Reg.TRV_FAIL_PART_key : Reg.TRV_FAIL_PART.key = (0x3C00028) * 64 + (32) := rfl
@[simp] theorem Reg.TRV_FAIL_PART_w : Reg.TRV_FAIL_PART.w = 12 := rfl
@[simp] theorem Reg.TRV_FAIL_MB_key : Reg.TRV_FAIL_MB.key = (0x3C00028) * 64 + (16) := rfl
@[simp] theorem Reg.TRV_FAIL_MB_w : Reg.TRV_FAIL_MB.w = 13 := rfl
@[simp] theorem Reg.TRV_FAIL_RECOMP_key : Reg.TRV_FAIL_RECOMP.key = (0x3C00028) * 64 + (15) := rfl
@[simp] theorem Reg.TRV_FAIL_RECOMP_w : Reg.TRV_FAIL_RECOMP.w = 1 := rfl
@[simp] theorem Reg.TRV_FAIL_ITEM_key : Reg.TRV_FAIL_ITEM.key = (0x3C00028) * 64 + (0) := rfl
@[simp] theorem Reg.TRV_FAIL_ITEM_w : Reg.TRV_FAIL_ITEM.w = 10 := rfl
@[simp] theorem Reg.TRV_IMBAL_COUNT_key : Reg.TRV_IMBAL_COUNT.key = (0x3C00030) * 64 + (0) := rfl
@[simp] theorem Reg.TRV_IMBAL_COUNT_w : Reg.TRV_IMBAL_COUNT.w = 64 := rfl
@[simp] theorem Reg.TRV_STARVE_COUNT_key : Reg.TRV_STARVE_COUNT.key = (0x3C00038) * 64 + (0) := rfl
@[simp] theorem Reg.TRV_STARVE_COUNT_w : Reg.TRV_STARVE_COUNT.w = 64 := rfl
@[simp] theorem Reg.TRV_SWITCH_COUNT_key : Reg.TRV_SWITCH_COUNT.key = (0x3C00040) * 64 + (0) := rfl
@[simp] theorem Reg.TRV_SWITCH_COUNT_w : Reg.TRV_SWITCH_COUNT.w = 64 := rfl
@[simp] theorem Reg.TRV_GATHER_DROPPED_key : Reg.TRV_GATHER_DROPPED.key = (0x3C00048) * 64 + (42) := rfl
@[simp] theorem Reg.TRV_GATHER_DROPPED_w : Reg.TRV_GATHER_DROPPED.w = 21 := rfl
@[simp] theorem Reg.TRV_GATHER_REGATHER_key : Reg.TRV_GATHER_REGATHER.key = (0x3C00048) * 64 + (21) := rfl
@[simp] theorem Reg.TRV_GATHER_REGATHER_w : Reg.TRV_GATHER_REGATHER.w = 21 := rfl
@[simp] theorem Reg.TRV_GATHER_ISSUED_key : Reg.TRV_GATHER_ISSUED.key = (0x3C00048) * 64 + (0) := rfl
@[simp] theorem Reg.TRV_GATHER_ISSUED_w : Reg.TRV_GATHER_ISSUED.w = 21 := rfl
@[simp] theorem Reg.TRV_STEPS_ENDED_key : Reg.TRV_STEPS_ENDED.key = (0x3C00050) * 64 + (32) := rfl
@[simp] theorem Reg.TRV_STEPS_ENDED_w : Reg.TRV_STEPS_ENDED.w = 32 := rfl
@[simp] theorem Reg.TRV_STEPS_COMMITTED_key : Reg.TRV_STEPS_COMMITTED.key = (0x3C00050) * 64 + (0) := rfl
@[simp] theorem Reg.TRV_STEPS_COMMITTED_w : Reg.TRV_STEPS_COMMITTED.w = 32 := rfl
@[simp] theorem Reg.GLB_KPR_CTL_START_key : Reg.GLB_KPR_CTL_START.key = (0x400) * 64 + (63) := rfl
@[simp] theorem Reg.GLB_KPR_CTL_START_w : Reg.GLB_KPR_CTL_START.w = 1 := rfl
@[simp] theorem Reg.GLB_KPR_CTL_STOP_key : Reg.GLB_KPR_CTL_STOP.key = (0x400) * 64 + (62) := rfl
@[simp] theorem Reg.GLB_KPR_CTL_STOP_w : Reg.GLB_KPR_CTL_STOP.w = 1 := rfl
@[simp] theorem Reg.GLB_KPR_CTL_FRESH_key : Reg.GLB_KPR_CTL_FRESH.key = (0x400) * 64 + (61) := rfl
@[simp] theorem Reg.GLB_KPR_CTL_FRESH_w : Reg.GLB_KPR_CTL_FRESH.w = 1 := rfl
@[simp] theorem Reg.GLB_KPR_CTL_TABLE_key : Reg.GLB_KPR_CTL_TABLE.key = (0x400) * 64 + (0) := rfl
@[simp] theorem Reg.GLB_KPR_CTL_TABLE_w : Reg.GLB_KPR_CTL_TABLE.w = 48 := rfl
@[simp] theorem Reg.GLB_KPR_STATE_VERSION_key : Reg.GLB_KPR_STATE_VERSION.key = (0x408) * 64 + (32) := rfl
@[simp] theorem Reg.GLB_KPR_STATE_VERSION_w : Reg.GLB_KPR_STATE_VERSION.w = 32 := rfl
@[simp] theorem Reg.GLB_KPR_STATE_PARTNER_key : Reg.GLB_KPR_STATE_PARTNER.key = (0x408) * 64 + (4) := rfl
@[simp] theorem Reg.GLB_KPR_STATE_PARTNER_w : Reg.GLB_KPR_STATE_PARTNER.w = 1 := rfl
@[simp] theorem Reg.GLB_KPR_STATE_STATE_key : Reg.GLB_KPR_STATE_STATE.key = (0x408) * 64 + (0) := rfl
@[simp] theorem Reg.GLB_KPR_STATE_STATE_w : Reg.GLB_KPR_STATE_STATE.w = 2 := rfl
@[simp] theorem Reg.GLB_KPR_LAST_STAMP_key : Reg.GLB_KPR_LAST_STAMP.key = (0x410) * 64 + (32) := rfl
@[simp] theorem Reg.GLB_KPR_LAST_STAMP_w : Reg.GLB_KPR_LAST_STAMP.w = 32 := rfl
@[simp] theorem Reg.GLB_KPR_LAST_TABLE_key : Reg.GLB_KPR_LAST_TABLE.key = (0x410) * 64 + (12) := rfl
@[simp] theorem Reg.GLB_KPR_LAST_TABLE_w : Reg.GLB_KPR_LAST_TABLE.w = 1 := rfl
@[simp] theorem Reg.GLB_KPR_LAST_WORKER_key : Reg.GLB_KPR_LAST_WORKER.key = (0x410) * 64 + (8) := rfl
@[simp] theorem Reg.GLB_KPR_LAST_WORKER_w : Reg.GLB_KPR_LAST_WORKER.w = 3 := rfl
@[simp] theorem Reg.GLB_KPR_LAST_CAUSE_key : Reg.GLB_KPR_LAST_CAUSE.key = (0x410) * 64 + (0) := rfl
@[simp] theorem Reg.GLB_KPR_LAST_CAUSE_w : Reg.GLB_KPR_LAST_CAUSE.w = 8 := rfl
@[simp] theorem Reg.HGPn_CFG_ENABLE_key (n : Nat) : (Reg.HGPn_CFG_ENABLE n).key = (0x4000000 + 0x40000 * n) * 64 + (63) := rfl
@[simp] theorem Reg.HGPn_CFG_ENABLE_w (n : Nat) : (Reg.HGPn_CFG_ENABLE n).w = 1 := rfl
@[simp] theorem Reg.HGPn_CFG_RESET_key (n : Nat) : (Reg.HGPn_CFG_RESET n).key = (0x4000000 + 0x40000 * n) * 64 + (62) := rfl
@[simp] theorem Reg.HGPn_CFG_RESET_w (n : Nat) : (Reg.HGPn_CFG_RESET n).w = 1 := rfl
@[simp] theorem Reg.HGPn_CFG_REACH_key (n : Nat) : (Reg.HGPn_CFG_REACH n).key = (0x4000000 + 0x40000 * n) * 64 + (32) := rfl
@[simp] theorem Reg.HGPn_CFG_REACH_w (n : Nat) : (Reg.HGPn_CFG_REACH n).w = 2 := rfl
@[simp] theorem Reg.HGPn_CFG_RES3_key (n : Nat) : (Reg.HGPn_CFG_RES3 n).key = (0x4000000 + 0x40000 * n) * 64 + (24) := rfl
@[simp] theorem Reg.HGPn_CFG_RES3_w (n : Nat) : (Reg.HGPn_CFG_RES3 n).w = 8 := rfl
@[simp] theorem Reg.HGPn_CFG_RES2_key (n : Nat) : (Reg.HGPn_CFG_RES2 n).key = (0x4000000 + 0x40000 * n) * 64 + (16) := rfl
@[simp] theorem Reg.HGPn_CFG_RES2_w (n : Nat) : (Reg.HGPn_CFG_RES2 n).w = 8 := rfl
@[simp] theorem Reg.HGPn_CFG_RES1_key (n : Nat) : (Reg.HGPn_CFG_RES1 n).key = (0x4000000 + 0x40000 * n) * 64 + (8) := rfl
@[simp] theorem Reg.HGPn_CFG_RES1_w (n : Nat) : (Reg.HGPn_CFG_RES1 n).w = 8 := rfl
@[simp] theorem Reg.HGPn_CFG_RES0_key (n : Nat) : (Reg.HGPn_CFG_RES0 n).key = (0x4000000 + 0x40000 * n) * 64 + (0) := rfl
@[simp] theorem Reg.HGPn_CFG_RES0_w (n : Nat) : (Reg.HGPn_CFG_RES0 n).w = 8 := rfl
@[simp] theorem Reg.HGPn_STATUS_PEER_NODE_key (n : Nat) : (Reg.HGPn_STATUS_PEER_NODE n).key = (0x4000008 + 0x40000 * n) * 64 + (40) := rfl
@[simp] theorem Reg.HGPn_STATUS_PEER_NODE_w (n : Nat) : (Reg.HGPn_STATUS_PEER_NODE n).w = 8 := rfl
@[simp] theorem Reg.HGPn_STATUS_PEER_PORT_key (n : Nat) : (Reg.HGPn_STATUS_PEER_PORT n).key = (0x4000008 + 0x40000 * n) * 64 + (32) := rfl
@[simp] theorem Reg.HGPn_STATUS_PEER_PORT_w (n : Nat) : (Reg.HGPn_STATUS_PEER_PORT n).w = 3 := rfl
@[simp] theorem Reg.HGPn_STATUS_TRAINS_key (n : Nat) : (Reg.HGPn_STATUS_TRAINS n).key = (0x4000008 + 0x40000 * n) * 64 + (16) := rfl
@[simp] theorem Reg.HGPn_STATUS_TRAINS_w (n : Nat) : (Reg.HGPn_STATUS_TRAINS n).w = 16 := rfl
@[simp] theorem Reg.HGPn_STATUS_CAUSE_key (n : Nat) : (Reg.HGPn_STATUS_CAUSE n).key = (0x4000008 + 0x40000 * n) * 64 + (8) := rfl
@[simp] theorem Reg.HGPn_STATUS_CAUSE_w (n : Nat) : (Reg.HGPn_STATUS_CAUSE n).w = 4 := rfl
@[simp] theorem Reg.HGPn_STATUS_HIGH_LANES_key (n : Nat) : (Reg.HGPn_STATUS_HIGH_LANES n).key = (0x4000008 + 0x40000 * n) * 64 + (6) := rfl
@[simp] theorem Reg.HGPn_STATUS_HIGH_LANES_w (n : Nat) : (Reg.HGPn_STATUS_HIGH_LANES n).w = 1 := rfl
@[simp] theorem Reg.HGPn_STATUS_STATE_key (n : Nat) : (Reg.HGPn_STATUS_STATE n).key = (0x4000008 + 0x40000 * n) * 64 + (0) := rfl
@[simp] theorem Reg.HGPn_STATUS_STATE_w (n : Nat) : (Reg.HGPn_STATUS_STATE n).w = 3 := rfl
@[simp] theorem Reg.HGPn_ERR_UNCORR_key (n : Nat) : (Reg.HGPn_ERR_UNCORR n).key = (0x4000010 + 0x40000 * n) * 64 + (48) := rfl
@[simp] theorem Reg.HGPn_ERR_UNCORR_w (n : Nat) : (Reg.HGPn_ERR_UNCORR n).w = 16 := rfl
@[simp] theorem Reg.HGPn_ERR_REPLAY_key (n : Nat) : (Reg.HGPn_ERR_REPLAY n).key = (0x4000010 + 0x40000 * n) * 64 + (32) := rfl
@[simp] theorem Reg.HGPn_ERR_REPLAY_w (n : Nat) : (Reg.HGPn_ERR_REPLAY n).w = 16 := rfl
@[simp] theorem Reg.HGPn_ERR_CORR_key (n : Nat) : (Reg.HGPn_ERR_CORR n).key = (0x4000010 + 0x40000 * n) * 64 + (0) := rfl
@[simp] theorem Reg.HGPn_ERR_CORR_w (n : Nat) : (Reg.HGPn_ERR_CORR n).w = 32 := rfl
@[simp] theorem Reg.HGPn_LOST_HOPS_key (n : Nat) : (Reg.HGPn_LOST_HOPS n).key = (0x4000018 + 0x40000 * n) * 64 + (32) := rfl
@[simp] theorem Reg.HGPn_LOST_HOPS_w (n : Nat) : (Reg.HGPn_LOST_HOPS n).w = 32 := rfl
@[simp] theorem Reg.HGPn_LOST_ROUTE_key (n : Nat) : (Reg.HGPn_LOST_ROUTE n).key = (0x4000018 + 0x40000 * n) * 64 + (0) := rfl
@[simp] theorem Reg.HGPn_LOST_ROUTE_w (n : Nat) : (Reg.HGPn_LOST_ROUTE n).w = 32 := rfl
@[simp] theorem Reg.HGPn_PAYLOAD_RX_MIB_key (n : Nat) : (Reg.HGPn_PAYLOAD_RX_MIB n).key = (0x4000020 + 0x40000 * n) * 64 + (32) := rfl
@[simp] theorem Reg.HGPn_PAYLOAD_RX_MIB_w (n : Nat) : (Reg.HGPn_PAYLOAD_RX_MIB n).w = 32 := rfl
@[simp] theorem Reg.HGPn_PAYLOAD_TX_MIB_key (n : Nat) : (Reg.HGPn_PAYLOAD_TX_MIB n).key = (0x4000020 + 0x40000 * n) * 64 + (0) := rfl
@[simp] theorem Reg.HGPn_PAYLOAD_TX_MIB_w (n : Nat) : (Reg.HGPn_PAYLOAD_TX_MIB n).w = 32 := rfl
@[simp] theorem Reg.HGP0_NODE_GRP_BASE_key : Reg.HGP0_NODE_GRP_BASE.key = (0x4010000) * 64 + (16) := rfl
@[simp] theorem Reg.HGP0_NODE_GRP_BASE_w : Reg.HGP0_NODE_GRP_BASE.w = 48 := rfl
@[simp] theorem Reg.HGP0_NODE_ALIAS_key : Reg.HGP0_NODE_ALIAS.key = (0x4010000) * 64 + (8) := rfl
@[simp] theorem Reg.HGP0_NODE_ALIAS_w : Reg.HGP0_NODE_ALIAS.w = 8 := rfl
@[simp] theorem Reg.HGP0_NODE_NODE_key : Reg.HGP0_NODE_NODE.key = (0x4010000) * 64 + (0) := rfl
@[simp] theorem Reg.HGP0_NODE_NODE_w : Reg.HGP0_NODE_NODE.w = 8 := rfl
@[simp] theorem Reg.HGP0_EXPi_VALID_key (i : Nat) : (Reg.HGP0_EXPi_VALID i).key = (0x4010010 + 8 * i) * 64 + (63) := rfl
@[simp] theorem Reg.HGP0_EXPi_VALID_w (i : Nat) : (Reg.HGP0_EXPi_VALID i).w = 1 := rfl
@[simp] theorem Reg.HGP0_EXPi_RD_key (i : Nat) : (Reg.HGP0_EXPi_RD i).key = (0x4010010 + 8 * i) * 64 + (62) := rfl
@[simp] theorem Reg.HGP0_EXPi_RD_w (i : Nat) : (Reg.HGP0_EXPi_RD i).w = 1 := rfl
@[simp] theorem Reg.HGP0_EXPi_WR_key (i : Nat) : (Reg.HGP0_EXPi_WR i).key = (0x4010010 + 8 * i) * 64 + (61) := rfl
@[simp] theorem Reg.HGP0_EXPi_WR_w (i : Nat) : (Reg.HGP0_EXPi_WR i).w = 1 := rfl
@[simp] theorem Reg.HGP0_EXPi_LIMIT_key (i : Nat) : (Reg.HGP0_EXPi_LIMIT i).key = (0x4010010 + 8 * i) * 64 + (18) := rfl
@[simp] theorem Reg.HGP0_EXPi_LIMIT_w (i : Nat) : (Reg.HGP0_EXPi_LIMIT i).w = 18 := rfl
@[simp] theorem Reg.HGP0_EXPi_BASE_key (i : Nat) : (Reg.HGP0_EXPi_BASE i).key = (0x4010010 + 8 * i) * 64 + (0) := rfl
@[simp] theorem Reg.HGP0_EXPi_BASE_w (i : Nat) : (Reg.HGP0_EXPi_BASE i).w = 18 := rfl
@[simp] theorem Reg.HGP0_RTk_ALT_c_key (k c : Nat) : (Reg.HGP0_RTk_ALT_c k c).key = (0x4010400 + 8 * k) * 64 + (16 * c + 8) := rfl
@[simp] theorem Reg.HGP0_RTk_ALT_c_w (k c : Nat) : (Reg.HGP0_RTk_ALT_c k c).w = 8 := rfl
@[simp] theorem Reg.HGP0_RTk_PRI_c_key (k c : Nat) : (Reg.HGP0_RTk_PRI_c k c).key = (0x4010400 + 8 * k) * 64 + (16 * c) := rfl
@[simp] theorem Reg.HGP0_RTk_PRI_c_w (k c : Nat) : (Reg.HGP0_RTk_PRI_c k c).w = 8 := rfl
@[simp] theorem Reg.HGPn_CU_CTL_JOB_SIG_key (n : Nat) : (Reg.HGPn_CU_CTL_JOB_SIG n).key = (0x4020000 + 0x100000 * n) * 64 + (32) := rfl
@[simp] theorem Reg.HGPn_CU_CTL_JOB_SIG_w (n : Nat) : (Reg.HGPn_CU_CTL_JOB_SIG n).w = 12 := rfl
@[simp] theorem Reg.HGPn_CU_CTL_ENABLE_key (n : Nat) : (Reg.HGPn_CU_CTL_ENABLE n).key = (0x4020000 + 0x100000 * n) * 64 + (0) := rfl
@[simp] theorem Reg.HGPn_CU_CTL_ENABLE_w (n : Nat) : (Reg.HGPn_CU_CTL_ENABLE n).w = 1 := rfl
@[simp] theorem Reg.HGPn_CU_RING_ENTRIES_M1_key (n : Nat) : (Reg.HGPn_CU_RING_ENTRIES_M1 n).key = (0x4020008 + 0x100000 * n) * 64 + (48) := rfl
@[simp] theorem Reg.HGPn_CU_RING_ENTRIES_M1_w (n : Nat) : (Reg.HGPn_CU_RING_ENTRIES_M1 n).w = 16 := rfl
@[simp] theorem Reg.HGPn_CU_RING_BASE_key (n : Nat) : (Reg.HGPn_CU_RING_BASE n).key = (0x4020008 + 0x100000 * n) * 64 + (0) := rfl
@[simp] theorem Reg.HGPn_CU_RING_BASE_w (n : Nat) : (Reg.HGPn_CU_RING_BASE n).w = 48 := rfl
@[simp] theorem Reg.HGPn_CU_PROGRESS_INVALID_key (n : Nat) : (Reg.HGPn_CU_PROGRESS_INVALID n).key = (0x4020010 + 0x100000 * n) * 64 + (63) := rfl
@[simp] theorem Reg.HGPn_CU_PROGRESS_INVALID_w (n : Nat) : (Reg.HGPn_CU_PROGRESS_INVALID n).w = 1 := rfl
@[simp] theorem Reg.HGPn_CU_PROGRESS_OVERFLOW_key (n : Nat) : (Reg.HGPn_CU_PROGRESS_OVERFLOW n).key = (0x4020010 + 0x100000 * n) * 64 + (62) := rfl
@[simp] theorem Reg.HGPn_CU_PROGRESS_OVERFLOW_w (n : Nat) : (Reg.HGPn_CU_PROGRESS_OVERFLOW n).w = 1 := rfl
@[simp] theorem Reg.HGPn_CU_PROGRESS_FLUSH_key (n : Nat) : (Reg.HGPn_CU_PROGRESS_FLUSH n).key = (0x4020010 + 0x100000 * n) * 64 + (61) := rfl
@[simp] theorem Reg.HGPn_CU_PROGRESS_FLUSH_w (n : Nat) : (Reg.HGPn_CU_PROGRESS_FLUSH n).w = 1 := rfl
@[simp] theorem Reg.HGPn_CU_PROGRESS_LAST_STATUS_key (n : Nat) : (Reg.HGPn_CU_PROGRESS_LAST_STATUS n).key = (0x4020010 + 0x100000 * n) * 64 + (32) := rfl
@[simp] theorem Reg.HGPn_CU_PROGRESS_LAST_STATUS_w (n : Nat) : (Reg.HGPn_CU_PROGRESS_LAST_STATUS n).w = 8 := rfl
@[simp] theorem Reg.HGPn_CU_PROGRESS_DONE_key (n : Nat) : (Reg.HGPn_CU_PROGRESS_DONE n).key = (0x4020010 + 0x100000 * n) * 64 + (0) := rfl
@[simp] theorem Reg.HGPn_CU_PROGRESS_DONE_w (n : Nat) : (Reg.HGPn_CU_PROGRESS_DONE n).w = 32 := rfl
@[simp] theorem Reg.ARB_ACTIVE_SET_k_key (k : Nat) : (Reg.ARB_ACTIVE_SET_k k).key = (0x4800000) * 64 + (2 * k) := rfl
@[simp] theorem Reg.ARB_ACTIVE_SET_k_w (k : Nat) : (Reg.ARB_ACTIVE_SET_k k).w = 2 := rfl
@[simp] theorem Reg.ARB_NEXT_SET_k_key (k : Nat) : (Reg.ARB_NEXT_SET_k k).key = (0x4800008) * 64 + (2 * k) := rfl
@[simp] theorem Reg.ARB_NEXT_SET_k_w (k : Nat) : (Reg.ARB_NEXT_SET_k k).w = 2 := rfl
@[simp] theorem Reg.ARB_Tk_t_SLOTSj_OWNER_i_key (k t j i : Nat) : (Reg.ARB_Tk_t_SLOTSj_OWNER_i k t j i).key = (0x4810000 + 0x100 * k + 0x40 * t + 8 * j) * 64 + (4 * i) := rfl
@[simp] theorem Reg.ARB_Tk_t_SLOTSj_OWNER_i_w (k t j i : Nat) : (Reg.ARB_Tk_t_SLOTSj_OWNER_i k t j i).w = 4 := rfl
@[simp] theorem Reg.ARB_Tk_t_BASE_BASE_r_key (k t r : Nat) : (Reg.ARB_Tk_t_BASE_BASE_r k t r).key = (0x4810020 + 0x100 * k + 0x40 * t) * 64 + (4 * r) := rfl
@[simp] theorem Reg.ARB_Tk_t_BASE_BASE_r_w (k t r : Nat) : (Reg.ARB_Tk_t_BASE_BASE_r k t r).w = 4 := rfl
@[simp] theorem Reg.ARB_CNTk_SLOT_COUNT_key (k : Nat) : (Reg.ARB_CNTk_SLOT_COUNT k).key = (0x4820000 + 0x20 * k) * 64 + (0) := rfl
@[simp] theorem Reg.ARB_CNTk_SLOT_COUNT_w (k : Nat) : (Reg.ARB_CNTk_SLOT_COUNT k).w = 64 := rfl
@[simp] theorem Reg.ARB_CNTk_BG_COUNT_key (k : Nat) : (Reg.ARB_CNTk_BG_COUNT k).key = (0x4820008 + 0x20 * k) * 64 + (0) := rfl
@[simp] theorem Reg.ARB_CNTk_BG_COUNT_w (k : Nat) : (Reg.ARB_CNTk_BG_COUNT k).w = 64 := rfl
@[simp] theorem Reg.ARB_CNTk_DEAD_CUT_key (k : Nat) : (Reg.ARB_CNTk_DEAD_CUT k).key = (0x4820010 + 0x20 * k) * 64 + (32) := rfl
@[simp] theorem Reg.ARB_CNTk_DEAD_CUT_w (k : Nat) : (Reg.ARB_CNTk_DEAD_CUT k).w = 32 := rfl
@[simp] theorem Reg.ARB_CNTk_DEAD_DEAD_key (k : Nat) : (Reg.ARB_CNTk_DEAD_DEAD k).key = (0x4820010 + 0x20 * k) * 64 + (0) := rfl
@[simp] theorem Reg.ARB_CNTk_DEAD_DEAD_w (k : Nat) : (Reg.ARB_CNTk_DEAD_DEAD k).w = 32 := rfl
@[simp] theorem Reg.ERR_STATUS_MAX_SEV_key : Reg.ERR_STATUS_MAX_SEV.key = (0x6800000) * 64 + (32) := rfl
@[simp] theorem Reg.ERR_STATUS_MAX_SEV_w : Reg.ERR_STATUS_MAX_SEV.w = 2 := rfl
@[simp] theorem Reg.ERR_STATUS_WRITTEN_key : Reg.ERR_STATUS_WRITTEN.key = (0x6800000) * 64 + (0) := rfl
@[simp] theorem Reg.ERR_STATUS_WRITTEN_w : Reg.ERR_STATUS_WRITTEN.w = 32 := rfl
@[simp] theorem Reg.ERR_LOGi_Wk_WORD_key (i k : Nat) : (Reg.ERR_LOGi_Wk_WORD i k).key = (0x6810000 + 0x40 * i + 8 * k) * 64 + (0) := rfl
@[simp] theorem Reg.ERR_LOGi_Wk_WORD_w (i k : Nat) : (Reg.ERR_LOGi_Wk_WORD i k).w = 64 := rfl
@[simp] theorem Reg.GLB_VIOL_COUNT_COUNT_key : Reg.GLB_VIOL_COUNT_COUNT.key = (0x20) * 64 + (0) := rfl
@[simp] theorem Reg.GLB_VIOL_COUNT_COUNT_w : Reg.GLB_VIOL_COUNT_COUNT.w = 32 := rfl
@[simp] theorem Reg.GLB_VIOL_LAST_VALID_key : Reg.GLB_VIOL_LAST_VALID.key = (0x28) * 64 + (63) := rfl
@[simp] theorem Reg.GLB_VIOL_LAST_VALID_w : Reg.GLB_VIOL_LAST_VALID.w = 1 := rfl
@[simp] theorem Reg.GLB_VIOL_LAST_AGENT_key : Reg.GLB_VIOL_LAST_AGENT.key = (0x28) * 64 + (56) := rfl
@[simp] theorem Reg.GLB_VIOL_LAST_AGENT_w : Reg.GLB_VIOL_LAST_AGENT.w = 4 := rfl
@[simp] theorem Reg.GLB_VIOL_LAST_KIND_key : Reg.GLB_VIOL_LAST_KIND.key = (0x28) * 64 + (52) := rfl
@[simp] theorem Reg.GLB_VIOL_LAST_KIND_w : Reg.GLB_VIOL_LAST_KIND.w = 4 := rfl
@[simp] theorem Reg.GLB_VIOL_LAST_ADDR_key : Reg.GLB_VIOL_LAST_ADDR.key = (0x28) * 64 + (0) := rfl
@[simp] theorem Reg.GLB_VIOL_LAST_ADDR_w : Reg.GLB_VIOL_LAST_ADDR.w = 48 := rfl
@[simp] theorem Reg.HST_LINK_ATTACH_GEN_key : Reg.HST_LINK_ATTACH_GEN.key = (0x5000000) * 64 + (48) := rfl
@[simp] theorem Reg.HST_LINK_ATTACH_GEN_w : Reg.HST_LINK_ATTACH_GEN.w = 16 := rfl
@[simp] theorem Reg.HST_LINK_UPS_key : Reg.HST_LINK_UPS.key = (0x5000000) * 64 + (32) := rfl
@[simp] theorem Reg.HST_LINK_UPS_w : Reg.HST_LINK_UPS.w = 16 := rfl
@[simp] theorem Reg.HST_LINK_WIDTH_key : Reg.HST_LINK_WIDTH.key = (0x5000000) * 64 + (8) := rfl
@[simp] theorem Reg.HST_LINK_WIDTH_w : Reg.HST_LINK_WIDTH.w = 4 := rfl
@[simp] theorem Reg.HST_LINK_RATE_key : Reg.HST_LINK_RATE.key = (0x5000000) * 64 + (4) := rfl
@[simp] theorem Reg.HST_LINK_RATE_w : Reg.HST_LINK_RATE.w = 4 := rfl
@[simp] theorem Reg.HST_LINK_STATE_key : Reg.HST_LINK_STATE.key = (0x5000000) * 64 + (0) := rfl
@[simp] theorem Reg.HST_LINK_STATE_w : Reg.HST_LINK_STATE.w = 2 := rfl
@[simp] theorem Reg.HST_CFG_IRQ_HOLDOFF_US_key : Reg.HST_CFG_IRQ_HOLDOFF_US.key = (0x5000008) * 64 + (48) := rfl
@[simp] theorem Reg.HST_CFG_IRQ_HOLDOFF_US_w : Reg.HST_CFG_IRQ_HOLDOFF_US.w = 16 := rfl
@[simp] theorem Reg.HST_CFG_BI_TIMEOUT_MS_key : Reg.HST_CFG_BI_TIMEOUT_MS.key = (0x5000008) * 64 + (32) := rfl
@[simp] theorem Reg.HST_CFG_BI_TIMEOUT_MS_w : Reg.HST_CFG_BI_TIMEOUT_MS.w = 16 := rfl
@[simp] theorem Reg.HST_CFG_INGEST_MODE_key : Reg.HST_CFG_INGEST_MODE.key = (0x5000008) * 64 + (0) := rfl
@[simp] theorem Reg.HST_CFG_INGEST_MODE_w : Reg.HST_CFG_INGEST_MODE.w = 1 := rfl
@[simp] theorem Reg.HST_LEDGER_BASE_LOG2_key : Reg.HST_LEDGER_BASE_LOG2.key = (0x5000010) * 64 + (59) := rfl
@[simp] theorem Reg.HST_LEDGER_BASE_LOG2_w : Reg.HST_LEDGER_BASE_LOG2.w = 5 := rfl
@[simp] theorem Reg.HST_LEDGER_BASE_ADDR_key : Reg.HST_LEDGER_BASE_ADDR.key = (0x5000010) * 64 + (0) := rfl
@[simp] theorem Reg.HST_LEDGER_BASE_ADDR_w : Reg.HST_LEDGER_BASE_ADDR.w = 52 := rfl
@[simp] theorem Reg.HST_CMPL_BASE_LOG2_key : Reg.HST_CMPL_BASE_LOG2.key = (0x5000018) * 64 + (59) := rfl
@[simp] theorem Reg.HST_CMPL_BASE_LOG2_w : Reg.HST_CMPL_BASE_LOG2.w = 5 := rfl
@[simp] theorem Reg.HST_CMPL_BASE_ADDR_key : Reg.HST_CMPL_BASE_ADDR.key = (0x5000018) * 64 + (0) := rfl
@[simp] theorem Reg.HST_CMPL_BASE_ADDR_w : Reg.HST_CMPL_BASE_ADDR.w = 52 := rfl
@[simp] theorem Reg.HST_DOORBELL_ADDR_key : Reg.HST_DOORBELL_ADDR.key = (0x5000020) * 64 + (0) := rfl
@[simp] theorem Reg.HST_DOORBELL_ADDR_w : Reg.HST_DOORBELL_ADDR.w = 52 := rfl
@[simp] theorem Reg.HST_LEDGER_POS_HELD_key : Reg.HST_LEDGER_POS_HELD.key = (0x5000028) * 64 + (32) := rfl
@[simp] theorem Reg.HST_LEDGER_POS_HELD_w : Reg.HST_LEDGER_POS_HELD.w = 8 := rfl
@[simp] theorem Reg.HST_LEDGER_POS_STARTED_key : Reg.HST_LEDGER_POS_STARTED.key = (0x5000028) * 64 + (0) := rfl
@[simp] theorem Reg.HST_LEDGER_POS_STARTED_w : Reg.HST_LEDGER_POS_STARTED.w = 32 := rfl
@[simp] theorem Reg.HST_SF_BISNP_key : Reg.HST_SF_BISNP.key = (0x5000030) * 64 + (32) := rfl
@[simp] theorem Reg.HST_SF_BISNP_w : Reg.HST_SF_BISNP.w = 32 := rfl
@[simp] theorem Reg.HST_SF_LINES_key : Reg.HST_SF_LINES.key = (0x5000030) * 64 + (0) := rfl
@[simp] theorem Reg.HST_SF_LINES_w : Reg.HST_SF_LINES.w = 24 := rfl
@[simp] theorem Reg.HST_LOSS_DIRTY_LINES_key : Reg.HST_LOSS_DIRTY_LINES.key = (0x5000038) * 64 + (32) := rfl
@[simp] theorem Reg.HST_LOSS_DIRTY_LINES_w : Reg.HST_LOSS_DIRTY_LINES.w = 32 := rfl
@[simp] theorem Reg.HST_LOSS_ABANDONED_key : Reg.HST_LOSS_ABANDONED.key = (0x5000038) * 64 + (16) := rfl
@[simp] theorem Reg.HST_LOSS_ABANDONED_w : Reg.HST_LOSS_ABANDONED.w = 16 := rfl
@[simp] theorem Reg.HST_LOSS_CAUSE_key : Reg.HST_LOSS_CAUSE.key = (0x5000038) * 64 + (0) := rfl
@[simp] theorem Reg.HST_LOSS_CAUSE_w : Reg.HST_LOSS_CAUSE.w = 3 := rfl
@[simp] theorem Reg.HST_COPY_IN_COUNT_key : Reg.HST_COPY_IN_COUNT.key = (0x5000040) * 64 + (0) := rfl
@[simp] theorem Reg.HST_COPY_IN_COUNT_w : Reg.HST_COPY_IN_COUNT.w = 64 := rfl
@[simp] theorem Reg.HST_COPY_OUT_COUNT_key : Reg.HST_COPY_OUT_COUNT.key = (0x5000048) * 64 + (0) := rfl
@[simp] theorem Reg.HST_COPY_OUT_COUNT_w : Reg.HST_COPY_OUT_COUNT.w = 64 := rfl
@[simp] theorem Reg.HST_LANDi_BASE_ADDR_key (i : Nat) : (Reg.HST_LANDi_BASE_ADDR i).key = (0x5000100 + 0x10 * i) * 64 + (0) := rfl
@[simp] theorem Reg.HST_LANDi_BASE_ADDR_w (i : Nat) : (Reg.HST_LANDi_BASE_ADDR i).w = 48 := rfl
@[simp] theorem Reg.HST_LANDi_CFG_VALID_key (i : Nat) : (Reg.HST_LANDi_CFG_VALID i).key = (0x5000108 + 0x10 * i) * 64 + (63) := rfl
@[simp] theorem Reg.HST_LANDi_CFG_VALID_w (i : Nat) : (Reg.HST_LANDi_CFG_VALID i).w = 1 := rfl
@[simp] theorem Reg.HST_LANDi_CFG_RD_key (i : Nat) : (Reg.HST_LANDi_CFG_RD i).key = (0x5000108 + 0x10 * i) * 64 + (62) := rfl
@[simp] theorem Reg.HST_LANDi_CFG_RD_w (i : Nat) : (Reg.HST_LANDi_CFG_RD i).w = 1 := rfl
@[simp] theorem Reg.HST_LANDi_CFG_WR_key (i : Nat) : (Reg.HST_LANDi_CFG_WR i).key = (0x5000108 + 0x10 * i) * 64 + (61) := rfl
@[simp] theorem Reg.HST_LANDi_CFG_WR_w (i : Nat) : (Reg.HST_LANDi_CFG_WR i).w = 1 := rfl
@[simp] theorem Reg.HST_LANDi_CFG_NOTIFY_LOG2_key (i : Nat) : (Reg.HST_LANDi_CFG_NOTIFY_LOG2 i).key = (0x5000108 + 0x10 * i) * 64 + (48) := rfl
@[simp] theorem Reg.HST_LANDi_CFG_NOTIFY_LOG2_w (i : Nat) : (Reg.HST_LANDi_CFG_NOTIFY_LOG2 i).w = 5 := rfl
@[simp] theorem Reg.HST_LANDi_CFG_SIG_key (i : Nat) : (Reg.HST_LANDi_CFG_SIG i).key = (0x5000108 + 0x10 * i) * 64 + (32) := rfl
@[simp] theorem Reg.HST_LANDi_CFG_SIG_w (i : Nat) : (Reg.HST_LANDi_CFG_SIG i).w = 12 := rfl
@[simp] theorem Reg.HST_LANDi_CFG_PAGES_key (i : Nat) : (Reg.HST_LANDi_CFG_PAGES i).key = (0x5000108 + 0x10 * i) * 64 + (0) := rfl
@[simp] theorem Reg.HST_LANDi_CFG_PAGES_w (i : Nat) : (Reg.HST_LANDi_CFG_PAGES i).w = 15 := rfl
@[simp] theorem Reg.HST_LANDi_COUNT_BYTES_key (i : Nat) : (Reg.HST_LANDi_COUNT_BYTES i).key = (0x5000200 + 8 * i) * 64 + (0) := rfl
@[simp] theorem Reg.HST_LANDi_COUNT_BYTES_w (i : Nat) : (Reg.HST_LANDi_COUNT_BYTES i).w = 64 := rfl
@[simp] theorem Reg.MBX_H2Dk_WORD_key (k : Nat) : (Reg.MBX_H2Dk_WORD k).key = (0x5400000 + 8 * k) * 64 + (0) := rfl
@[simp] theorem Reg.MBX_H2Dk_WORD_w (k : Nat) : (Reg.MBX_H2Dk_WORD k).w = 64 := rfl
@[simp] theorem Reg.MBX_D2Hk_WORD_key (k : Nat) : (Reg.MBX_D2Hk_WORD k).key = (0x5400040 + 8 * k) * 64 + (0) := rfl
@[simp] theorem Reg.MBX_D2Hk_WORD_w (k : Nat) : (Reg.MBX_D2Hk_WORD k).w = 64 := rfl
@[simp] theorem Reg.MBX_CTL_STATE_key : Reg.MBX_CTL_STATE.key = (0x5400080) * 64 + (8) := rfl
@[simp] theorem Reg.MBX_CTL_STATE_w : Reg.MBX_CTL_STATE.w = 3 := rfl
@[simp] theorem Reg.MBX_CTL_RSP_key : Reg.MBX_CTL_RSP.key = (0x5400080) * 64 + (1) := rfl
@[simp] theorem Reg.MBX_CTL_RSP_w : Reg.MBX_CTL_RSP.w = 1 := rfl
@[simp] theorem Reg.MBX_CTL_REQ_key : Reg.MBX_CTL_REQ.key = (0x5400080) * 64 + (0) := rfl
@[simp] theorem Reg.MBX_CTL_REQ_w : Reg.MBX_CTL_REQ.w = 1 := rfl
@[simp] theorem Reg.SEC_BOOT_IMG_VERSION_key : Reg.SEC_BOOT_IMG_VERSION.key = (0x6C00000) * 64 + (32) := rfl
@[simp] theorem Reg.SEC_BOOT_IMG_VERSION_w : Reg.SEC_BOOT_IMG_VERSION.w = 32 := rfl
@[simp] theorem Reg.SEC_BOOT_IMG_SVN_key : Reg.SEC_BOOT_IMG_SVN.key = (0x6C00000) * 64 + (24) := rfl
@[simp] theorem Reg.SEC_BOOT_IMG_SVN_w : Reg.SEC_BOOT_IMG_SVN.w = 7 := rfl
@[simp] theorem Reg.SEC_BOOT_CAUSE_SEL_key : Reg.SEC_BOOT_CAUSE_SEL.key = (0x6C00000) * 64 + (20) := rfl
@[simp] theorem Reg.SEC_BOOT_CAUSE_SEL_w : Reg.SEC_BOOT_CAUSE_SEL.w = 4 := rfl
@[simp] theorem Reg.SEC_BOOT_CAUSE_ALT_key : Reg.SEC_BOOT_CAUSE_ALT.key = (0x6C00000) * 64 + (16) := rfl
@[simp] theorem Reg.SEC_BOOT_CAUSE_ALT_w : Reg.SEC_BOOT_CAUSE_ALT.w = 4 := rfl
@[simp] theorem Reg.SEC_BOOT_RECOVERY_key : Reg.SEC_BOOT_RECOVERY.key = (0x6C00000) * 64 + (2) := rfl
@[simp] theorem Reg.SEC_BOOT_RECOVERY_w : Reg.SEC_BOOT_RECOVERY.w = 1 := rfl
@[simp] theorem Reg.SEC_BOOT_FALLBACK_key : Reg.SEC_BOOT_FALLBACK.key = (0x6C00000) * 64 + (1) := rfl
@[simp] theorem Reg.SEC_BOOT_FALLBACK_w : Reg.SEC_BOOT_FALLBACK.w = 1 := rfl
@[simp] theorem Reg.SEC_BOOT_BANK_key : Reg.SEC_BOOT_BANK.key = (0x6C00000) * 64 + (0) := rfl
@[simp] theorem Reg.SEC_BOOT_BANK_w : Reg.SEC_BOOT_BANK.w = 1 := rfl
@[simp] theorem Reg.SEC_SVN_MIN_key : Reg.SEC_SVN_MIN.key = (0x6C00008) * 64 + (0) := rfl
@[simp] theorem Reg.SEC_SVN_MIN_w : Reg.SEC_SVN_MIN.w = 7 := rfl
@[simp] theorem Reg.SEC_KEYHASHk_BYTES_key (k : Nat) : (Reg.SEC_KEYHASHk_BYTES k).key = (0x6C00010 + 8 * k) * 64 + (0) := rfl
@[simp] theorem Reg.SEC_KEYHASHk_BYTES_w (k : Nat) : (Reg.SEC_KEYHASHk_BYTES k).w = 64 := rfl
@[simp] theorem Reg.SEC_UPD_SIZE_key : Reg.SEC_UPD_SIZE.key = (0x6C00030) * 64 + (32) := rfl
@[simp] theorem Reg.SEC_UPD_SIZE_w : Reg.SEC_UPD_SIZE.w = 32 := rfl
@[simp] theorem Reg.SEC_UPD_OBJ_key : Reg.SEC_UPD_OBJ.key = (0x6C00030) * 64 + (16) := rfl
@[simp] theorem Reg.SEC_UPD_OBJ_w : Reg.SEC_UPD_OBJ.w = 16 := rfl
@[simp] theorem Reg.SEC_UPD_CAUSE_key : Reg.SEC_UPD_CAUSE.key = (0x6C00030) * 64 + (8) := rfl
@[simp] theorem Reg.SEC_UPD_CAUSE_w : Reg.SEC_UPD_CAUSE.w = 4 := rfl
@[simp] theorem Reg.SEC_UPD_STATE_key : Reg.SEC_UPD_STATE.key = (0x6C00030) * 64 + (0) := rfl
@[simp] theorem Reg.SEC_UPD_STATE_w : Reg.SEC_UPD_STATE.w = 3 := rfl
@[simp] theorem Reg.SEC_ATT_TOP_NEXT_key : Reg.SEC_ATT_TOP_NEXT.key = (0x6C00038) * 64 + (32) := rfl
@[simp] theorem Reg.SEC_ATT_TOP_NEXT_w : Reg.SEC_ATT_TOP_NEXT.w = 21 := rfl
@[simp] theorem Reg.SEC_ATT_BOTTOM_LEFT_key : Reg.SEC_ATT_BOTTOM_LEFT.key = (0x6C00038) * 64 + (16) := rfl
@[simp] theorem Reg.SEC_ATT_BOTTOM_LEFT_w : Reg.SEC_ATT_BOTTOM_LEFT.w = 11 := rfl
@[simp] theorem Reg.SEC_ATT_READY_key : Reg.SEC_ATT_READY.key = (0x6C00038) * 64 + (8) := rfl
@[simp] theorem Reg.SEC_ATT_READY_w : Reg.SEC_ATT_READY.w = 1 := rfl
@[simp] theorem Reg.SEC_ATT_THERMO_key : Reg.SEC_ATT_THERMO.key = (0x6C00038) * 64 + (0) := rfl
@[simp] theorem Reg.SEC_ATT_THERMO_w : Reg.SEC_ATT_THERMO.w = 8 := rfl
@[simp] theorem Reg.SEC_DBG_JTAG_ACTIVE_key : Reg.SEC_DBG_JTAG_ACTIVE.key = (0x6C00040) * 64 + (1) := rfl
@[simp] theorem Reg.SEC_DBG_JTAG_ACTIVE_w : Reg.SEC_DBG_JTAG_ACTIVE.w = 1 := rfl
@[simp] theorem Reg.SEC_DBG_CLOSED_key : Reg.SEC_DBG_CLOSED.key = (0x6C00040) * 64 + (0) := rfl
@[simp] theorem Reg.SEC_DBG_CLOSED_w : Reg.SEC_DBG_CLOSED.w = 1 := rfl
@[simp] theorem Reg.SEC_DBG_ADDR_ADDR_key : Reg.SEC_DBG_ADDR_ADDR.key = (0x6C00048) * 64 + (0) := rfl
@[simp] theorem Reg.SEC_DBG_ADDR_ADDR_w : Reg.SEC_DBG_ADDR_ADDR.w = 48 := rfl
@[simp] theorem Reg.SEC_DBG_DATA_DATA_key : Reg.SEC_DBG_DATA_DATA.key = (0x6C00050) * 64 + (0) := rfl
@[simp] theorem Reg.SEC_DBG_DATA_DATA_w : Reg.SEC_DBG_DATA_DATA.w = 64 := rfl
@[simp] theorem Reg.PCR_CLK_PLL_BW_key : Reg.PCR_CLK_PLL_BW.key = (0x6400000) * 64 + (8) := rfl
@[simp] theorem Reg.PCR_CLK_PLL_BW_w : Reg.PCR_CLK_PLL_BW.w = 2 := rfl
@[simp] theorem Reg.PCR_CLK_PLL_LOCK_key : Reg.PCR_CLK_PLL_LOCK.key = (0x6400000) * 64 + (1) := rfl
@[simp] theorem Reg.PCR_CLK_PLL_LOCK_w : Reg.PCR_CLK_PLL_LOCK.w = 1 := rfl
@[simp] theorem Reg.PCR_CLK_REF_OK_key : Reg.PCR_CLK_REF_OK.key = (0x6400000) * 64 + (0) := rfl
@[simp] theorem Reg.PCR_CLK_REF_OK_w : Reg.PCR_CLK_REF_OK.w = 1 := rfl
@[simp] theorem Reg.PCR_RST_CAUSE_RAIL_key : Reg.PCR_RST_CAUSE_RAIL.key = (0x6400008) * 64 + (4) := rfl
@[simp] theorem Reg.PCR_RST_CAUSE_RAIL_w : Reg.PCR_RST_CAUSE_RAIL.w = 4 := rfl
@[simp] theorem Reg.PCR_RST_CAUSE_CAUSE_key : Reg.PCR_RST_CAUSE_CAUSE.key = (0x6400008) * 64 + (0) := rfl
@[simp] theorem Reg.PCR_RST_CAUSE_CAUSE_w : Reg.PCR_RST_CAUSE_CAUSE.w = 4 := rfl
@[simp] theorem Reg.PCR_PSTATE_IDLE_US_key : Reg.PCR_PSTATE_IDLE_US.key = (0x6400010) * 64 + (48) := rfl
@[simp] theorem Reg.PCR_PSTATE_IDLE_US_w : Reg.PCR_PSTATE_IDLE_US.w = 16 := rfl
@[simp] theorem Reg.PCR_PSTATE_HOLD_key : Reg.PCR_PSTATE_HOLD.key = (0x6400010) * 64 + (4) := rfl
@[simp] theorem Reg.PCR_PSTATE_HOLD_w : Reg.PCR_PSTATE_HOLD.w = 1 := rfl
@[simp] theorem Reg.PCR_PSTATE_STATE_key : Reg.PCR_PSTATE_STATE.key = (0x6400010) * 64 + (2) := rfl
@[simp] theorem Reg.PCR_PSTATE_STATE_w : Reg.PCR_PSTATE_STATE.w = 2 := rfl
@[simp] theorem Reg.PCR_PSTATE_REQ_key : Reg.PCR_PSTATE_REQ.key = (0x6400010) * 64 + (0) := rfl
@[simp] theorem Reg.PCR_PSTATE_REQ_w : Reg.PCR_PSTATE_REQ.w = 2 := rfl
@[simp] theorem Reg.PCR_BROWN_COUNT_LATCHED_key : Reg.PCR_BROWN_COUNT_LATCHED.key = (0x6400018) * 64 + (63) := rfl
@[simp] theorem Reg.PCR_BROWN_COUNT_LATCHED_w : Reg.PCR_BROWN_COUNT_LATCHED.w = 1 := rfl
@[simp] theorem Reg.PCR_BROWN_COUNT_MIN_MV_key : Reg.PCR_BROWN_COUNT_MIN_MV.key = (0x6400018) * 64 + (32) := rfl
@[simp] theorem Reg.PCR_BROWN_COUNT_MIN_MV_w : Reg.PCR_BROWN_COUNT_MIN_MV.w = 16 := rfl
@[simp] theorem Reg.PCR_BROWN_COUNT_COUNT_key : Reg.PCR_BROWN_COUNT_COUNT.key = (0x6400018) * 64 + (0) := rfl
@[simp] theorem Reg.PCR_BROWN_COUNT_COUNT_w : Reg.PCR_BROWN_COUNT_COUNT.w = 32 := rfl
@[simp] theorem Reg.PCR_BROWN_CTL_RELEASE_key : Reg.PCR_BROWN_CTL_RELEASE.key = (0x6400020) * 64 + (0) := rfl
@[simp] theorem Reg.PCR_BROWN_CTL_RELEASE_w : Reg.PCR_BROWN_CTL_RELEASE.w = 1 := rfl
@[simp] theorem Reg.PCR_GOV_CFG_TAU_MS_key : Reg.PCR_GOV_CFG_TAU_MS.key = (0x6400028) * 64 + (48) := rfl
@[simp] theorem Reg.PCR_GOV_CFG_TAU_MS_w : Reg.PCR_GOV_CFG_TAU_MS.w = 16 := rfl
@[simp] theorem Reg.PCR_GOV_CFG_ICC_A_key : Reg.PCR_GOV_CFG_ICC_A.key = (0x6400028) * 64 + (32) := rfl
@[simp] theorem Reg.PCR_GOV_CFG_ICC_A_w : Reg.PCR_GOV_CFG_ICC_A.w = 16 := rfl
@[simp] theorem Reg.PCR_GOV_CFG_PL2_W_key : Reg.PCR_GOV_CFG_PL2_W.key = (0x6400028) * 64 + (16) := rfl
@[simp] theorem Reg.PCR_GOV_CFG_PL2_W_w : Reg.PCR_GOV_CFG_PL2_W.w = 16 := rfl
@[simp] theorem Reg.PCR_GOV_CFG_PL1_W_key : Reg.PCR_GOV_CFG_PL1_W.key = (0x6400028) * 64 + (0) := rfl
@[simp] theorem Reg.PCR_GOV_CFG_PL1_W_w : Reg.PCR_GOV_CFG_PL1_W.w = 16 := rfl
@[simp] theorem Reg.PCR_GOV_STAT_POWER_W_key : Reg.PCR_GOV_STAT_POWER_W.key = (0x6400030) * 64 + (48) := rfl
@[simp] theorem Reg.PCR_GOV_STAT_POWER_W_w : Reg.PCR_GOV_STAT_POWER_W.w = 16 := rfl
@[simp] theorem Reg.PCR_GOV_STAT_LIMITER_key : Reg.PCR_GOV_STAT_LIMITER.key = (0x6400030) * 64 + (32) := rfl
@[simp] theorem Reg.PCR_GOV_STAT_LIMITER_w : Reg.PCR_GOV_STAT_LIMITER.w = 5 := rfl
@[simp] theorem Reg.PCR_GOV_STAT_DUTY_H_key : Reg.PCR_GOV_STAT_DUTY_H.key = (0x6400030) * 64 + (8) := rfl
@[simp] theorem Reg.PCR_GOV_STAT_DUTY_H_w : Reg.PCR_GOV_STAT_DUTY_H.w = 7 := rfl
@[simp] theorem Reg.PCR_GOV_STAT_DUTY_A_key : Reg.PCR_GOV_STAT_DUTY_A.key = (0x6400030) * 64 + (0) := rfl
@[simp] theorem Reg.PCR_GOV_STAT_DUTY_A_w : Reg.PCR_GOV_STAT_DUTY_A.w = 7 := rfl
@[simp] theorem Reg.PCR_THERM_CFG_DRAM_TGT_key : Reg.PCR_THERM_CFG_DRAM_TGT.key = (0x6400038) * 64 + (8) := rfl
@[simp] theorem Reg.PCR_THERM_CFG_DRAM_TGT_w : Reg.PCR_THERM_CFG_DRAM_TGT.w = 8 := rfl
@[simp] theorem Reg.PCR_THERM_CFG_LOGIC_TGT_key : Reg.PCR_THERM_CFG_LOGIC_TGT.key = (0x6400038) * 64 + (0) := rfl
@[simp] theorem Reg.PCR_THERM_CFG_LOGIC_TGT_w : Reg.PCR_THERM_CFG_LOGIC_TGT.w = 8 := rfl
@[simp] theorem Reg.PCR_TEMP_DRAM_DEG_key : Reg.PCR_TEMP_DRAM_DEG.key = (0x6400040) * 64 + (16) := rfl
@[simp] theorem Reg.PCR_TEMP_DRAM_DEG_w : Reg.PCR_TEMP_DRAM_DEG.w = 12 := rfl
@[simp] theorem Reg.PCR_TEMP_LOGIC_DEG_key : Reg.PCR_TEMP_LOGIC_DEG.key = (0x6400040) * 64 + (0) := rfl
@[simp] theorem Reg.PCR_TEMP_LOGIC_DEG_w : Reg.PCR_TEMP_LOGIC_DEG.w = 12 := rfl
@[simp] theorem Reg.PCR_THROTTLE_COUNT_key : Reg.PCR_THROTTLE_COUNT.key = (0x6400048) * 64 + (0) := rfl
@[simp] theorem Reg.PCR_THROTTLE_COUNT_w : Reg.PCR_THROTTLE_COUNT.w = 64 := rfl
@[simp] theorem Reg.SVC_SLOTm_ADD_FAIL_key (m : Nat) : (Reg.SVC_SLOTm_ADD_FAIL m).key = (0x6000000 + 8 * m) * 64 + (20) := rfl
@[simp] theorem Reg.SVC_SLOTm_ADD_FAIL_w (m : Nat) : (Reg.SVC_SLOTm_ADD_FAIL m).w = 4 := rfl
@[simp] theorem Reg.SVC_SLOTm_REFUSED_key (m : Nat) : (Reg.SVC_SLOTm_REFUSED m).key = (0x6000000 + 8 * m) * 64 + (16) := rfl
@[simp] theorem Reg.SVC_SLOTm_REFUSED_w (m : Nat) : (Reg.SVC_SLOTm_REFUSED m).w = 4 := rfl
@[simp] theorem Reg.SVC_SLOTm_BUTTON_key (m : Nat) : (Reg.SVC_SLOTm_BUTTON m).key = (0x6000000 + 8 * m) * 64 + (11) := rfl
@[simp] theorem Reg.SVC_SLOTm_BUTTON_w (m : Nat) : (Reg.SVC_SLOTm_BUTTON m).w = 1 := rfl
@[simp] theorem Reg.SVC_SLOTm_LATCH_key (m : Nat) : (Reg.SVC_SLOTm_LATCH m).key = (0x6000000 + 8 * m) * 64 + (10) := rfl
@[simp] theorem Reg.SVC_SLOTm_LATCH_w (m : Nat) : (Reg.SVC_SLOTm_LATCH m).w = 1 := rfl
@[simp] theorem Reg.SVC_SLOTm_PRESENT_key (m : Nat) : (Reg.SVC_SLOTm_PRESENT m).key = (0x6000000 + 8 * m) * 64 + (9) := rfl
@[simp] theorem Reg.SVC_SLOTm_PRESENT_w (m : Nat) : (Reg.SVC_SLOTm_PRESENT m).w = 1 := rfl
@[simp] theorem Reg.SVC_SLOTm_FAULT_LED_key (m : Nat) : (Reg.SVC_SLOTm_FAULT_LED m).key = (0x6000000 + 8 * m) * 64 + (6) := rfl
@[simp] theorem Reg.SVC_SLOTm_FAULT_LED_w (m : Nat) : (Reg.SVC_SLOTm_FAULT_LED m).w = 3 := rfl
@[simp] theorem Reg.SVC_SLOTm_ATTN_LED_key (m : Nat) : (Reg.SVC_SLOTm_ATTN_LED m).key = (0x6000000 + 8 * m) * 64 + (3) := rfl
@[simp] theorem Reg.SVC_SLOTm_ATTN_LED_w (m : Nat) : (Reg.SVC_SLOTm_ATTN_LED m).w = 3 := rfl
@[simp] theorem Reg.SVC_SLOTm_PWR_LED_key (m : Nat) : (Reg.SVC_SLOTm_PWR_LED m).key = (0x6000000 + 8 * m) * 64 + (0) := rfl
@[simp] theorem Reg.SVC_SLOTm_PWR_LED_w (m : Nat) : (Reg.SVC_SLOTm_PWR_LED m).w = 3 := rfl
@[simp] theorem Reg.SVC_DEV_REFUSED_key : Reg.SVC_DEV_REFUSED.key = (0x6000030) * 64 + (16) := rfl
@[simp] theorem Reg.SVC_DEV_REFUSED_w : Reg.SVC_DEV_REFUSED.w = 4 := rfl
@[simp] theorem Reg.SVC_DEV_BUTTON_key : Reg.SVC_DEV_BUTTON.key = (0x6000030) * 64 + (11) := rfl
@[simp] theorem Reg.SVC_DEV_BUTTON_w : Reg.SVC_DEV_BUTTON.w = 1 := rfl
@[simp] theorem Reg.SVC_DEV_FAULT_LED_key : Reg.SVC_DEV_FAULT_LED.key = (0x6000030) * 64 + (6) := rfl
@[simp] theorem Reg.SVC_DEV_FAULT_LED_w : Reg.SVC_DEV_FAULT_LED.w = 3 := rfl
@[simp] theorem Reg.SVC_DEV_ATTN_LED_key : Reg.SVC_DEV_ATTN_LED.key = (0x6000030) * 64 + (3) := rfl
@[simp] theorem Reg.SVC_DEV_ATTN_LED_w : Reg.SVC_DEV_ATTN_LED.w = 3 := rfl
@[simp] theorem Reg.SVC_DEV_PWR_LED_key : Reg.SVC_DEV_PWR_LED.key = (0x6000030) * 64 + (0) := rfl
@[simp] theorem Reg.SVC_DEV_PWR_LED_w : Reg.SVC_DEV_PWR_LED.w = 3 := rfl
@[simp] theorem Reg.SVC_EVENT_TWIN_key : Reg.SVC_EVENT_TWIN.key = (0x6000038) * 64 + (25) := rfl
@[simp] theorem Reg.SVC_EVENT_TWIN_w : Reg.SVC_EVENT_TWIN.w = 1 := rfl
@[simp] theorem Reg.SVC_EVENT_DEV_BTN_key : Reg.SVC_EVENT_DEV_BTN.key = (0x6000038) * 64 + (24) := rfl
@[simp] theorem Reg.SVC_EVENT_DEV_BTN_w : Reg.SVC_EVENT_DEV_BTN.w = 1 := rfl
@[simp] theorem Reg.SVC_EVENT_SLOT_STATE_key : Reg.SVC_EVENT_SLOT_STATE.key = (0x6000038) * 64 + (16) := rfl
@[simp] theorem Reg.SVC_EVENT_SLOT_STATE_w : Reg.SVC_EVENT_SLOT_STATE.w = 6 := rfl
@[simp] theorem Reg.SVC_EVENT_SLOT_LATCH_key : Reg.SVC_EVENT_SLOT_LATCH.key = (0x6000038) * 64 + (8) := rfl
@[simp] theorem Reg.SVC_EVENT_SLOT_LATCH_w : Reg.SVC_EVENT_SLOT_LATCH.w = 6 := rfl
@[simp] theorem Reg.SVC_EVENT_SLOT_BTN_key : Reg.SVC_EVENT_SLOT_BTN.key = (0x6000038) * 64 + (0) := rfl
@[simp] theorem Reg.SVC_EVENT_SLOT_BTN_w : Reg.SVC_EVENT_SLOT_BTN.w = 6 := rfl
@[simp] theorem Reg.TWN_CFG_DETECT_MS_key : Reg.TWN_CFG_DETECT_MS.key = (0x7000000) * 64 + (48) := rfl
@[simp] theorem Reg.TWN_CFG_DETECT_MS_w : Reg.TWN_CFG_DETECT_MS.w = 16 := rfl
@[simp] theorem Reg.TWN_CFG_HB_US_key : Reg.TWN_CFG_HB_US.key = (0x7000000) * 64 + (32) := rfl
@[simp] theorem Reg.TWN_CFG_HB_US_w : Reg.TWN_CFG_HB_US.w = 16 := rfl
@[simp] theorem Reg.TWN_CFG_PARTNER_key : Reg.TWN_CFG_PARTNER.key = (0x7000000) * 64 + (0) := rfl
@[simp] theorem Reg.TWN_CFG_PARTNER_w : Reg.TWN_CFG_PARTNER.w = 8 := rfl
@[simp] theorem Reg.TWN_WIN_PEER_GIB_key : Reg.TWN_WIN_PEER_GIB.key = (0x7000008) * 64 + (48) := rfl
@[simp] theorem Reg.TWN_WIN_PEER_GIB_w : Reg.TWN_WIN_PEER_GIB.w = 11 := rfl
@[simp] theorem Reg.TWN_WIN_PEER_BASE_key : Reg.TWN_WIN_PEER_BASE.key = (0x7000008) * 64 + (32) := rfl
@[simp] theorem Reg.TWN_WIN_PEER_BASE_w : Reg.TWN_WIN_PEER_BASE.w = 11 := rfl
@[simp] theorem Reg.TWN_WIN_OWN_GIB_key : Reg.TWN_WIN_OWN_GIB.key = (0x7000008) * 64 + (16) := rfl
@[simp] theorem Reg.TWN_WIN_OWN_GIB_w : Reg.TWN_WIN_OWN_GIB.w = 11 := rfl
@[simp] theorem Reg.TWN_WIN_OWN_BASE_key : Reg.TWN_WIN_OWN_BASE.key = (0x7000008) * 64 + (0) := rfl
@[simp] theorem Reg.TWN_WIN_OWN_BASE_w : Reg.TWN_WIN_OWN_BASE.w = 11 := rfl
@[simp] theorem Reg.TWN_STATE_OWN_COMMIT_key : Reg.TWN_STATE_OWN_COMMIT.key = (0x7000010) * 64 + (32) := rfl
@[simp] theorem Reg.TWN_STATE_OWN_COMMIT_w : Reg.TWN_STATE_OWN_COMMIT.w = 32 := rfl
@[simp] theorem Reg.TWN_STATE_CAUSE_key : Reg.TWN_STATE_CAUSE.key = (0x7000010) * 64 + (4) := rfl
@[simp] theorem Reg.TWN_STATE_CAUSE_w : Reg.TWN_STATE_CAUSE.w = 4 := rfl
@[simp] theorem Reg.TWN_STATE_MISMATCH_key : Reg.TWN_STATE_MISMATCH.key = (0x7000010) * 64 + (3) := rfl
@[simp] theorem Reg.TWN_STATE_MISMATCH_w : Reg.TWN_STATE_MISMATCH.w = 1 := rfl
@[simp] theorem Reg.TWN_STATE_STATE_key : Reg.TWN_STATE_STATE.key = (0x7000010) * 64 + (0) := rfl
@[simp] theorem Reg.TWN_STATE_STATE_w : Reg.TWN_STATE_STATE.w = 3 := rfl
@[simp] theorem Reg.TWN_PEER_PEER_COMMIT_key : Reg.TWN_PEER_PEER_COMMIT.key = (0x7000018) * 64 + (32) := rfl
@[simp] theorem Reg.TWN_PEER_PEER_COMMIT_w : Reg.TWN_PEER_PEER_COMMIT.w = 32 := rfl
@[simp] theorem Reg.TWN_PEER_RESYNC_LEFT_key : Reg.TWN_PEER_RESYNC_LEFT.key = (0x7000018) * 64 + (0) := rfl
@[simp] theorem Reg.TWN_PEER_RESYNC_LEFT_w : Reg.TWN_PEER_RESYNC_LEFT.w = 20 := rfl
@[simp] theorem Reg.TWN_COUNT_TAKEOVERS_key : Reg.TWN_COUNT_TAKEOVERS.key = (0x7000020) * 64 + (32) := rfl
@[simp] theorem Reg.TWN_COUNT_TAKEOVERS_w : Reg.TWN_COUNT_TAKEOVERS.w = 32 := rfl
@[simp] theorem Reg.TWN_COUNT_MIRROR_GIB_key : Reg.TWN_COUNT_MIRROR_GIB.key = (0x7000020) * 64 + (0) := rfl
@[simp] theorem Reg.TWN_COUNT_MIRROR_GIB_w : Reg.TWN_COUNT_MIRROR_GIB.w = 32 := rfl

end Sys2Proof.Machine
end

