-- ==== Sys2Proof/Laws/Side.lean ====
section
/-! SUPPORT. What posts, log entries, ECC counts, flags and halts may change: `State.Side`, for each operation they are made of. -/

namespace Sys2Proof.Machine

open Sys2Proof

/-- A chamber without what releasing held posts and a change of power state write. -/
def Chamber.mild (c : Chamber) : Chamber := { c with posts := [], savedState := 0 }

/-- As `State.Side`, with chambers the same but for held posts and the state saved in Doze. -/
def State.Mild (s t : State) : Prop :=
  t = { s with fields := t.fields, chambers := t.chambers, ports := t.ports, lost := t.lost, irq := t.irq
               deferred := t.deferred, dozeIdle := t.dozeIdle, keepIdle := t.keepIdle } ∧
  ∀ m, (t.ch m).mild = (s.ch m).mild

theorem State.Mild.refl (s : State) : s.Mild s := ⟨rfl, fun _ => rfl⟩

theorem State.Mild.trans {s t u : State} (h : s.Mild t) (k : t.Mild u) : s.Mild u := by
  refine ⟨?_, fun m => (k.2 m).trans (h.2 m)⟩
  have h1 := h.1
  have k1 := k.1
  rw [h1] at k1
  exact k1

theorem mild_put {s : State} (f : FieldRef) (v : Nat) : s.Mild (s.put f v) := ⟨rfl, fun _ => rfl⟩

theorem mild_puts {s : State} (l : List (FieldRef × Nat)) : s.Mild (s.puts l) := by
  induction l generalizing s with
  | nil => exact .refl s
  | cons e l ih => exact (mild_put e.1 e.2).trans ih

theorem mild_ite {s t u : State} {p : Prop} [Decidable p] (ht : s.Mild t) (hu : s.Mild u) : s.Mild (if p then t else u) := by
  split <;> assumption

theorem mild_foldl {α : Type} {f : State → α → State} {l : List α} {s : State} (hf : ∀ (s : State) x, s.Mild (f s x)) :
    s.Mild (l.foldl f s) := by
  induction l generalizing s with
  | nil => exact .refl s
  | cons x l ih => exact (hf s x).trans ih

theorem mild_setCh {s : State} {n : Nat} {c : Chamber} (h : c.mild = (s.ch n).mild) : s.Mild (s.setCh n c) := by
  refine ⟨rfl, fun m => ?_⟩
  rw [State.ch_setCh]
  split
  · next e => rw [e, h]
  · rfl

theorem mild_modCh {s : State} {n : Nat} {f : Chamber → Chamber} (h : ∀ c, (f c).mild = c.mild) : s.Mild (s.modCh n f) :=
  mild_setCh (h _)

theorem mild_count {s : State} (f : FieldRef) (n : Nat) : s.Mild (s.count f n) := mild_put _ _

theorem mild_countSat {s : State} (f : FieldRef) (n : Nat) : s.Mild (s.countSat f n) := mild_put _ _

theorem mild_raiseIrq {s : State} (v : Nat) : s.Mild (s.raiseIrq v) := ⟨rfl, fun _ => rfl⟩

theorem mild_putLogWords {s : State} (i k : Nat) (ws : List Nat) : s.Mild (s.putLogWords i k ws) := by
  induction ws generalizing s k with
  | nil => exact .refl s
  | cons w ws ih => exact (mild_put _ _).trans (ih _)

theorem mild_logErr {s : State} (e : LogEntry) : s.Mild (s.logErr e) := by
  unfold State.logErr
  extract_lets seq ws s1 s2 s3
  have h : s.Mild s3 := (mild_putLogWords _ _ _).trans ((mild_count _ _).trans (mild_put _ _))
  clear_value s3
  exact mild_ite (h.trans (mild_raiseIrq 2)) h

theorem mild_wakeChamber {s : State} (n : Nat) : s.Mild (s.wakeChamber n) :=
  mild_ite ((mild_put _ _).trans (mild_modCh fun _ => rfl)) (.refl s)

theorem mild_wakePort {s : State} (n : Nat) : s.Mild (s.wakePort n) := mild_ite (mild_put _ _) (.refl s)

theorem mild_toRun {s : State} : s.Mild s.toRun := by
  have h : s.Mild { s with dozeIdle := 0, keepIdle := 0 } := ⟨rfl, fun _ => rfl⟩
  unfold State.toRun
  extract_lets keep s1 s2
  have h2 : s.Mild s2 := h.trans ((mild_put Reg.PCR_PSTATE_STATE 0).trans (mild_foldl fun _ _ => mild_wakeChamber _))
  clear_value s2
  exact mild_ite (h2.trans (mild_foldl fun _ _ => mild_wakePort _)) h2

theorem mild_wake {s : State} : s.Mild s.wake := mild_ite (.refl s) (mild_ite ⟨rfl, fun _ => rfl⟩ mild_toRun)

theorem mild_postSig {s : State} (n : Nat) (set : Bool) (v : Nat) : s.Mild (s.postSig n set v) :=
  (mild_ite mild_wake (.refl s)).trans (mild_put _ _)

theorem mild_oweCredit {s : State} (n vl : Nat) : s.Mild (s.oweCredit n vl) := ⟨rfl, fun _ => rfl⟩

theorem mild_setPort {s : State} (n : Nat) (p : Port) : s.Mild (s.setPort n p) := ⟨rfl, fun _ => rfl⟩

theorem mild_pump {s : State} (n : Nat) : s.Mild (s.pump n) := by
  unfold State.pump
  extract_lets p
  generalize pumpWaiting s.held p.waiting [] { p with waiting := [] } [] = r
  obtain ⟨w, q, freed⟩ := r
  dsimp only
  refine (mild_setPort _ _).trans ((mild_count _ _).trans (mild_foldl fun u e => ?_))
  split
  · exact mild_oweCredit _ _
  · exact .refl _

theorem mild_lost {s : State} (l : List Packet) : s.Mild { s with lost := l } := ⟨rfl, fun _ => rfl⟩

/-- A lost packet that carries no transfer of this device touches no collective job. -/
theorem mild_losePacket {s : State} (n : Nat) (hops : Bool) (k : Packet) (h : (k.kind == .write || k.kind == .readReq) = false) :
    s.Mild (s.losePacket n hops k) := by
  unfold State.losePacket
  extract_lets s1 s2 s3
  have h3 : s.Mild s3 := ((mild_count _ _).trans (mild_logErr _)).trans (mild_lost _)
  clear_value s3
  rw [h, Bool.and_false]
  exact h3

theorem mild_loseVia {s : State} (k : Packet) (i : Option Nat) (h : (k.kind == .write || k.kind == .readReq) = false) :
    s.Mild (s.loseVia k i) := by
  unfold State.loseVia
  extract_lets u m
  have hu : s.Mild u := by
    unfold u
    split
    · exact mild_oweCredit _ _
    · exact .refl _
  clear_value m u
  exact hu.trans (mild_losePacket _ _ _ h)

theorem mild_sendOver {s : State} (ports : List Nat) (k : Packet) (i : Option Nat) (h : (k.kind == .write || k.kind == .readReq) = false) :
    s.Mild (s.sendOver ports k i) := by
  unfold State.sendOver
  split
  · exact (mild_setPort _ _).trans (mild_pump _)
  · exact mild_loseVia _ _ h

theorem mild_sendVia {s : State} (k : Packet) (i : Option Nat) (h : (k.kind == .write || k.kind == .readReq) = false) :
    s.Mild (s.sendVia k i) := mild_sendOver _ _ _ h

theorem mild_postTo {s : State} (dev cc sig : Nat) (set : Bool) (v : Word) : s.Mild (s.postTo dev cc sig set v) := by
  unfold State.postTo
  split
  · exact mild_postSig _ _ _
  · unfold State.send
    split
    · exact mild_postSig _ _ _
    · exact mild_sendVia _ _ rfl

theorem mild_releasePosts {s : State} (n : Nat) (ps : List HeldPost) : s.Mild (s.releasePosts n ps) := by
  induction ps generalizing s with
  | nil => exact .refl s
  | cons p ps ih =>
    unfold State.releasePosts
    split
    · exact .refl s
    · extract_lets u
      have hu : s.Mild u := mild_modCh fun _ => rfl
      clear_value u
      exact hu.trans ((mild_postTo _ _ _ _ _).trans ih)

theorem mild_tryPosts {s : State} (n : Nat) : s.Mild (s.tryPosts n) := mild_releasePosts _ _

theorem State.Side.refl (s : State) : s.Side s := ⟨rfl, fun _ => rfl⟩

theorem State.Side.trans {s t u : State} (h : s.Side t) (k : t.Side u) : s.Side u := by
  refine ⟨?_, fun m => (k.2 m).trans (h.2 m)⟩
  have h1 := h.1
  have k1 := k.1
  rw [h1] at k1
  exact k1

theorem mild_core {c d : Chamber} (h : c.mild = d.mild) : c.core = d.core := by
  have e : ∀ c : Chamber, c.core = c.mild.core := fun _ => rfl
  rw [e, h, ← e]

theorem State.Mild.side {s t : State} (h : s.Mild t) : s.Side t := ⟨h.1, fun m => mild_core (h.2 m)⟩

theorem side_ite {s t u : State} {p : Prop} [Decidable p] (ht : s.Side t) (hu : s.Side u) : s.Side (if p then t else u) := by
  split <;> assumption

theorem side_setCh {s : State} {n : Nat} {c : Chamber} (h : c.core = (s.ch n).core) : s.Side (s.setCh n c) := by
  refine ⟨rfl, fun m => ?_⟩
  rw [State.ch_setCh]
  split
  · next e => rw [e, h]
  · rfl

theorem side_modCh {s : State} {n : Nat} {f : Chamber → Chamber} (h : ∀ c, (f c).core = c.core) : s.Side (s.modCh n f) :=
  side_setCh (h _)

theorem side_put {s : State} (f : FieldRef) (v : Nat) : s.Side (s.put f v) := (mild_put f v).side
theorem side_puts {s : State} (l : List (FieldRef × Nat)) : s.Side (s.puts l) := (mild_puts l).side
theorem side_countSat {s : State} (f : FieldRef) (n : Nat) : s.Side (s.countSat f n) := (mild_countSat f n).side
theorem side_tryPosts {s : State} (n : Nat) : s.Side (s.tryPosts n) := (mild_tryPosts n).side

/-- A chamber without its ECC counts and its recorded halt. -/
def Chamber.tame (c : Chamber) : Chamber := { c with errCount := [], halt := none }

/-- As `State.Side`, with chambers the same but for ECC counts and recorded halts, and fewer parts of the device. -/
def State.Tame (s t : State) : Prop :=
  t = { s with fields := t.fields, chambers := t.chambers } ∧ ∀ m, (t.ch m).tame = (s.ch m).tame

theorem State.Tame.refl (s : State) : s.Tame s := ⟨rfl, fun _ => rfl⟩

theorem State.Tame.trans {s t u : State} (h : s.Tame t) (k : t.Tame u) : s.Tame u := by
  refine ⟨?_, fun m => (k.2 m).trans (h.2 m)⟩
  have h1 := h.1
  have k1 := k.1
  rw [h1] at k1
  exact k1

theorem tame_core {c d : Chamber} (h : c.tame = d.tame) : c.core = d.core := by
  have e : ∀ c : Chamber, c.core = c.tame.core := fun _ => rfl
  rw [e, h, ← e]

theorem State.Tame.side {s t : State} (h : s.Tame t) : s.Side t := by
  refine ⟨?_, fun m => tame_core (h.2 m)⟩
  have h1 := h.1
  rw [h1]

theorem tame_posts {s t : State} (h : s.Tame t) (n : Nat) : (t.ch n).posts = (s.ch n).posts := by
  have := h.2 n
  unfold Chamber.tame at this
  injection this

theorem tame_ite {s t u : State} {p : Prop} [Decidable p] (ht : s.Tame t) (hu : s.Tame u) : s.Tame (if p then t else u) := by
  split <;> assumption

theorem tame_setCh {s : State} {n : Nat} {c : Chamber} (h : c.tame = (s.ch n).tame) : s.Tame (s.setCh n c) := by
  refine ⟨rfl, fun m => ?_⟩
  rw [State.ch_setCh]
  split
  · next e => rw [e, h]
  · rfl

theorem tame_modCh {s : State} {n : Nat} {f : Chamber → Chamber} (h : ∀ c, (f c).tame = c.tame) : s.Tame (s.modCh n f) :=
  tame_setCh (h _)

theorem tame_put {s : State} (f : FieldRef) (v : Nat) : s.Tame (s.put f v) := ⟨rfl, fun _ => rfl⟩

theorem tame_puts {s : State} (l : List (FieldRef × Nat)) : s.Tame (s.puts l) := by
  induction l generalizing s with
  | nil => exact .refl s
  | cons e l ih => exact (tame_put e.1 e.2).trans ih

theorem tame_countSat {s : State} (f : FieldRef) (n : Nat) : s.Tame (s.countSat f n) := tame_put _ _

theorem recordHalt_tame (c : Chamber) (h : HaltRec) : (c.recordHalt h).tame = c.tame := by
  unfold Chamber.recordHalt
  split
  · rfl
  · split <;> rfl

theorem tame_halt {s : State} (n : Nat) (h : HaltRec) : s.Tame (s.halt n h) := by
  unfold State.halt
  exact tame_modCh fun c => recordHalt_tame c h

theorem tame_fail {s : State} (n cause pc tag addr : Nat) : s.Tame (s.fail n cause pc tag addr) := by
  unfold State.fail
  exact tame_halt _ _

theorem tame_raise {s : State} (n pc tag : Nat) (f : Flags) : s.Tame (s.raise n pc tag f) := by
  unfold State.raise
  extract_lets s1 s2 s3
  have h1 : s.Tame s1 := tame_ite (tame_put _ _) (.refl _)
  have h2 : s1.Tame s2 := tame_ite (tame_put _ _) (.refl _)
  have h3 : s2.Tame s3 := tame_ite (tame_put _ _) (.refl _)
  have h := h1.trans (h2.trans h3)
  clear_value s3
  split
  · exact h.trans (tame_fail _ _ _ _ _)
  · exact h

theorem tame_upset {s : State} (n pc tag : Nat) (u : Upset) : s.Tame (s.upset n pc tag u) := by
  unfold State.upset
  split
  · refine State.Tame.trans ?_ (tame_fail _ _ _ _ _)
    exact tame_countSat _ _
  · extract_lets c m w t
    have hc : ({ c with errCount := m } : Chamber).tame = (s.ch n).tame := rfl
    have h : s.Tame t := (tame_setCh hc).trans (tame_puts _)
    clear_value t
    split
    · exact h.trans (tame_put _ _)
    · exact h

theorem tame_upsets {s : State} (n pc tag : Nat) (l : List Upset) : s.Tame (s.upsets n pc tag l) := by
  induction l generalizing s with
  | nil => exact .refl s
  | cons u l ih =>
    unfold State.upsets
    exact (tame_upset n pc tag u).trans ih

theorem tame_accUpset {s : State} (n pc tag : Nat) (u : AccUpset) : s.Tame (s.accUpset n pc tag u) := by
  unfold State.accUpset
  split
  · refine State.Tame.trans ?_ (tame_fail _ _ _ _ _)
    exact (tame_countSat _ _).trans (tame_puts _)
  · exact tame_countSat _ _

theorem tame_accUpsets {s : State} (n pc tag : Nat) (l : List AccUpset) : s.Tame (s.accUpsets n pc tag l) := by
  induction l generalizing s with
  | nil => exact .refl s
  | cons u l ih =>
    unfold State.accUpsets
    exact (tame_accUpset n pc tag u).trans ih

/-- A bundle that is taken: the chamber's core is the one its slots leave, and the rest of the device differs at the sides alone. -/
theorem side_takeBundle {s : State} (n : Nat) (b : Bundle) (v : Live) (tk : Bool)
    (htk : tk = s.flag (if b.l.xslot then Reg.CHn_XT_SLOT1_VALID n else Reg.CHn_XT_SLOT0_VALID n)) :
    (s.setCh n ((s.ch n).doBundle (s.chPc n) b v (s.chCycles n) tk).1).Side (s.takeBundle n b v) := by
  subst htk
  unfold State.takeBundle
  extract_lets c0 pc slotF
  generalize c0.doBundle pc b v (s.chCycles n) (s.flag slotF) = r
  obtain ⟨c, f⟩ := r
  dsimp only
  refine State.Side.trans ?_ (side_tryPosts n)
  have h0 : (s.setCh n c).Side (if (v.l && b.lop == 5) = true then (s.setCh n c).beginLoad n b.l (c0.dreg b.l.dsc) else s.setCh n c) := by
    refine side_ite ?_ (.refl _)
    unfold State.beginLoad
    dsimp only
    have := (side_puts (s := s.setCh n c) [(Reg.CHn_WTILE_SHADOW n, 1), (Reg.CHn_WTILE_SHADOW_TYPE n, dType (c0.dreg b.l.dsc))]).trans
      (side_modCh (n := n) (f := fun c => { c with loadBegin :=
        ((s.setCh n c).puts [(Reg.CHn_WTILE_SHADOW n, 1), (Reg.CHn_WTILE_SHADOW_TYPE n, dType (c0.dreg b.l.dsc))]).aclk }) fun _ => rfl)
    exact side_ite (this.trans (side_put _ _)) this
  have h1 := (h0.trans (side_puts [(Reg.CHn_STATUS_STATE n, 2), (Reg.CHn_STATUS_PC n, c0.nextPc pc b v)])).trans (tame_raise n pc 0 f).side
  exact side_ite (h1.trans (tame_halt _ _).side) h1

end Sys2Proof.Machine
end

