-- ==== Sys2Proof/Laws/Bundle.lean ====
section
/-! SUPPORT. What a bundle that is taken leaves in its chamber, one lemma for each kind of register and for local memory. -/

namespace Sys2Proof.Machine

open Sys2Proof

/-! ## From issue to the slots -/

/-- A bundle that is taken takes effect, and its ECC errors after it. -/
theorem issue_takes {s : State} {n : Nat} {i : Issue} (h : s.Takes n i) :
    s.issue n i = (s.runBundle n i).fetchUpsets n (s.chPc n) i := by
  obtain ⟨h1, h2, h3, h4, h5, h6⟩ := h
  unfold State.issue State.issueFetched
  simp only [h1, h2, h3, h4, h5, h6]
  simp

/-- Beyond the bundle's own effect, ECC errors count and halt. -/
theorem issue_tame {s : State} {n : Nat} {i : Issue} (h : s.Takes n i) :
    (s.takeBundle n i.bundle ((s.ch n).live i.bundle)).Tame (s.issue n i) := by
  rw [issue_takes h]
  exact ((tame_upsets _ _ _ _).trans (tame_accUpsets _ _ _ _)).trans (tame_upsets _ _ _ _)

/-- The chamber that the slots of a bundle leave. -/
def Chamber.after (s : State) (n : Nat) (b : Bundle) : Chamber :=
  ((s.ch n).doBundle (s.chPc n) b ((s.ch n).live b) (s.chCycles n)
    (s.flag (if b.l.xslot then Reg.CHn_XT_SLOT1_VALID n else Reg.CHn_XT_SLOT0_VALID n))).1

theorem issue_side {s : State} {n : Nat} {i : Issue} (h : s.Takes n i) : (s.setCh n (Chamber.after s n i.bundle)).Side (s.issue n i) := by
  exact (side_takeBundle _ _ _ _ rfl).trans (issue_tame h).side

theorem issue_core {s : State} {n : Nat} {i : Issue} (h : s.Takes n i) : ((s.issue n i).ch n).core = (Chamber.after s n i.bundle).core := by
  rw [(issue_side h).2 n, State.ch_setCh, if_pos rfl]

theorem issue_core_other {s : State} {n m : Nat} {i : Issue} (h : s.Takes n i) (hm : m ≠ n) :
    ((s.issue n i).ch m).core = (s.ch m).core := by
  rw [(issue_side h).2 m, State.ch_setCh, if_neg hm]

/-- What a chamber's core says of its parts. -/
theorem core_parts {c d : Chamber} (h : c.core = d.core) :
    c.sregs = d.sregs ∧ c.preds = d.preds ∧ c.dregs = d.dregs ∧ c.vregs = d.vregs ∧ c.turn = d.turn ∧ c.bmem = d.bmem ∧
    c.lmem = d.lmem ∧ c.accA = d.accA ∧ c.accB = d.accB ∧ c.ops = d.ops ∧ c.mmas = d.mmas ∧ c.retStack = d.retStack ∧
    c.active = d.active ∧ c.shadow = d.shadow ∧ c.shadowOp = d.shadowOp ∧ c.seq = d.seq ∧ c.tagA = d.tagA ∧ c.tagB = d.tagB ∧
    c.rowFlagsA = d.rowFlagsA ∧ c.rowFlagsB = d.rowFlagsB ∧ c.slots = d.slots ∧ c.inflightA = d.inflightA ∧ c.inflightB = d.inflightB := by
  unfold Chamber.core at h
  injection h
  simp [*]

theorem sreg_core {c d : Chamber} (h : c.core = d.core) (r : BitVec 5) : c.sreg r = d.sreg r := by
  unfold Chamber.sreg; rw [(core_parts h).1]

theorem pred_core {c d : Chamber} (h : c.core = d.core) (r : BitVec 3) : c.pred r = d.pred r := by
  unfold Chamber.pred; rw [(core_parts h).2.1]

theorem dreg_core {c d : Chamber} (h : c.core = d.core) (r : BitVec 4) : c.dreg r = d.dreg r := by
  unfold Chamber.dreg; rw [(core_parts h).2.2.1]

theorem vreg_core {c d : Chamber} (h : c.core = d.core) (r : BitVec 5) : c.vreg r = d.vreg r := by
  unfold Chamber.vreg; rw [(core_parts h).2.2.2.1]

/-! ## Registers read after a write -/

theorem sreg_setS (c : Chamber) (i r : BitVec 5) (x : Word) : (c.setS i x).sreg r = if r = i then x else c.sreg r := by
  have hr : r.toNat < 32 := r.isLt
  unfold Chamber.sreg Chamber.setS
  rw [Vector.toList_set, List.getD_eq_getElem?_getD, List.getD_eq_getElem?_getD, List.getElem?_set]
  by_cases h : r = i
  · subst h; simp [hr]
  · rw [if_neg (fun e => h (BitVec.eq_of_toNat_eq e.symm)), if_neg h]

theorem vreg_setV (c : Chamber) (i r : BitVec 5) (x : Lanes) : (c.setV i x).vreg r = if r = i then x else c.vreg r := by
  have hr : r.toNat < 32 := r.isLt
  unfold Chamber.vreg Chamber.setV
  rw [Vector.toList_set, List.getD_eq_getElem?_getD, List.getD_eq_getElem?_getD, List.getElem?_set]
  by_cases h : r = i
  · subst h; simp [hr]
  · rw [if_neg (fun e => h (BitVec.eq_of_toNat_eq e.symm)), if_neg h]

theorem dreg_setD (c : Chamber) (i r : BitVec 4) (x : BitVec 1024) : (c.setD i x).dreg r = if r = i then x else c.dreg r := by
  have hr : r.toNat < 16 := r.isLt
  unfold Chamber.dreg Chamber.setD
  rw [Vector.toList_set, List.getD_eq_getElem?_getD, List.getD_eq_getElem?_getD, List.getElem?_set]
  by_cases h : r = i
  · subst h; simp [hr]
  · rw [if_neg (fun e => h (BitVec.eq_of_toNat_eq e.symm)), if_neg h]

theorem pred_bits : ∀ (p : BitVec 8) (i r : BitVec 3) (b : Bool),
    ((p &&& ~~~(1#8 <<< i.toNat)) ||| ((BitVec.ofBool b).setWidth 8 <<< i.toNat)).getLsbD r.toNat = if r = i then b else p.getLsbD r.toNat := by
  intro p i r b
  have hi := i.isLt
  have hr := r.isLt
  by_cases h : r = i
  · subst h
    simp [BitVec.getLsbD_shiftLeft]
    omega
  · have hn : r.toNat ≠ i.toNat := fun e => h (BitVec.eq_of_toNat_eq e)
    simp [h, BitVec.getLsbD_shiftLeft]
    by_cases hlt : r.toNat < i.toNat
    · simp [hlt]; omega
    · have : r.toNat - i.toNat ≠ 0 := by omega
      simp [hlt, this]; omega

/-- A predicate after a write: p0 reads as 1 whatever is written (R24). -/
theorem pred_setP (c : Chamber) (i r : BitVec 3) (b : Bool) : (c.setP i b).pred r = if r = i then (r == 0 || b) else c.pred r := by
  unfold Chamber.setP
  by_cases hi : i = 0
  · subst hi
    rw [if_pos rfl]
    by_cases h : r = 0
    · subst h; simp [Chamber.pred]
    · rw [if_neg h]
  · rw [if_neg hi]
    unfold Chamber.pred
    rw [pred_bits]
    by_cases h : r = i
    · subst h; simp
    · simp [h]

/-! ## The slots, one by one -/

theorem doC_core (c c0 : Chamber) (pc : Nat) (op : BitVec 8) (o : COps) :
    ({ c.doC c0 pc op o with retStack := [] } : Chamber).core = ({ c with retStack := [] } : Chamber).core := by
  unfold Chamber.doC
  split <;> rfl

theorem doS_rest (c c0 : Chamber) (op : BitVec 8) (o : SOps) (cyc : Word) :
    c.doS c0 op o cyc = { c with sregs := (c.doS c0 op o cyc).sregs, preds := (c.doS c0 op o cyc).preds, dregs := (c.doS c0 op o cyc).dregs } := by
  unfold Chamber.doS
  dsimp only
  repeat' split
  all_goals first | rfl | (unfold Chamber.setP; split <;> rfl)

theorem doL_rest (c c0 : Chamber) (pc : Nat) (op : BitVec 8) (o : LOps) (tk : Bool) :
    c.doL c0 pc op o tk = { c with sregs := (c.doL c0 pc op o tk).sregs, dregs := (c.doL c0 pc op o tk).dregs
                                   vregs := (c.doL c0 pc op o tk).vregs, ops := (c.doL c0 pc op o tk).ops
                                   shadowOp := (c.doL c0 pc op o tk).shadowOp } := by
  unfold Chamber.doL
  split <;> rfl

theorem doV_rest (c c0 : Chamber) (op : BitVec 8) (o : VOps) :
    (c.doV c0 op o).1 = { c with vregs := (c.doV c0 op o).1.vregs, turn := (c.doV c0 op o).1.turn } := by
  unfold Chamber.doV
  split <;> rfl

theorem doT_rest (c c0 : Chamber) (pc : Nat) (op : BitVec 8) (o : TOps) :
    c.doT c0 pc op o = { c with lmem := (c.doT c0 pc op o).lmem, ops := (c.doT c0 pc op o).ops } := by
  unfold Chamber.doT
  dsimp only
  split <;> rfl

theorem doS_sreg (c c0 : Chamber) (op : BitVec 8) (o : SOps) (cyc : Word) (r : BitVec 5) :
    (c.doS c0 op o cyc).sreg r = if (op.toNat ≤ 0x0D ∨ op.toNat = 0x24) ∧ r = o.dst
      then scalarResult op.toNat (c0.sreg o.sa) (c0.sB o) (c0.sreg o.dst) o.imm32 cyc else c.sreg r := by
  unfold Chamber.doS
  dsimp only
  by_cases h : op.toNat ≤ 0x0D ∨ op.toNat = 0x24
  · rw [if_pos h, sreg_setS]; simp [h]
  · rw [if_neg h, if_neg (c := (op.toNat ≤ 0x0D ∨ op.toNat = 0x24) ∧ r = o.dst) (fun e => h e.1)]
    repeat' split
    all_goals first | rfl | (unfold Chamber.setP Chamber.sreg; split <;> rfl)

theorem doS_pred (c c0 : Chamber) (op : BitVec 8) (o : SOps) (cyc : Word) (r : BitVec 3) (h : ¬(op.toNat ≤ 0x0D ∨ op.toNat = 0x24)) :
    (c.doS c0 op o cyc).pred r = if op.toNat ≤ 0x1A ∧ r = o.dst.setWidth 3
      then r == 0 || (if op.toNat ≤ 0x15 then compareResult op.toNat (c0.sreg o.sa) (c0.sB o)
        else predResult op.toNat (c0.pred (o.sa.setWidth 3)) (c0.pred (o.sb.setWidth 3)))
      else c.pred r := by
  unfold Chamber.doS
  dsimp only
  rw [if_neg h]
  by_cases h1 : op.toNat ≤ 0x15
  · have h2 : op.toNat ≤ 0x1A := by omega
    rw [if_pos h1, pred_setP]; simp [h1, h2]
  · rw [if_neg h1]
    by_cases h2 : op.toNat ≤ 0x1A
    · rw [if_pos h2, pred_setP]; simp [h1, h2]
    · rw [if_neg h2, if_neg (c := op.toNat ≤ 0x1A ∧ r = o.dst.setWidth 3) (fun e => h2 e.1)]
      split <;> rfl

theorem doS_pred_same (c c0 : Chamber) (op : BitVec 8) (o : SOps) (cyc : Word) (h : op.toNat ≤ 0x0D ∨ op.toNat = 0x24 ∨ 0x1A < op.toNat) :
    (c.doS c0 op o cyc).preds = c.preds := by
  unfold Chamber.doS
  dsimp only
  by_cases h0 : op.toNat ≤ 0x0D ∨ op.toNat = 0x24
  · rw [if_pos h0]; rfl
  · rw [if_neg h0, if_neg (by omega), if_neg (by omega)]
    split <;> rfl

theorem doS_dreg (c c0 : Chamber) (op : BitVec 8) (o : SOps) (cyc : Word) (r : BitVec 4) :
    (c.doS c0 op o cyc).dreg r = if 0x1A < op.toNat ∧ op.toNat ≠ 0x24 ∧ r = o.dst.setWidth 4
      then setBase (c0.dreg (o.dst.setWidth 4)) (if op.toNat = 0x20 then (c0.sreg o.sa).toNat
        else bits (dWord (c0.dreg (o.dst.setWidth 4)) 0) 47 0 + (c0.sreg o.sa).toNat)
      else c.dreg r := by
  unfold Chamber.doS
  dsimp only
  by_cases h : op.toNat ≤ 0x0D ∨ op.toNat = 0x24
  · rw [if_pos h, if_neg (by omega)]; rfl
  · rw [if_neg h]
    by_cases h1 : op.toNat ≤ 0x15
    · rw [if_pos h1, if_neg (by omega)]; unfold Chamber.setP; split <;> rfl
    · rw [if_neg h1]
      by_cases h2 : op.toNat ≤ 0x1A
      · rw [if_pos h2, if_neg (by omega)]; unfold Chamber.setP; split <;> rfl
      · rw [if_neg h2]
        by_cases h3 : op.toNat = 0x20
        · rw [if_pos h3, dreg_setD]; simp [h3]
        · rw [if_neg h3, dreg_setD]
          have : op.toNat ≠ 0x24 := by omega
          have : 0x1A < op.toNat := by omega
          simp [*]

theorem doL_sreg (c c0 : Chamber) (pc : Nat) (op : BitVec 8) (o : LOps) (tk : Bool) (r : BitVec 5) :
    (c.doL c0 pc op o tk).sreg r = if op.toNat = 1 ∧ r = o.dst
      then BitVec.ofNat 64 (memNat c0.lmem (c0.laddr o.sa o.imm32).toNat 8) else c.sreg r := by
  unfold Chamber.doL
  split
  · next h => rw [sreg_setS]; simp [h]
  iterate 3 (next h => rw [if_neg (by omega)]; rfl)
  · next h1 h2 h3 h4 => rw [if_neg (fun e => h1 e.1)]; rfl

theorem doL_vreg (c c0 : Chamber) (pc : Nat) (op : BitVec 8) (o : LOps) (tk : Bool) (r : BitVec 5) :
    (c.doL c0 pc op o tk).vreg r = if op.toNat = 2 ∧ r = o.dst
      then lanesOfBytes (memRead c0.lmem (c0.laddr o.sa o.imm32).toNat 512) else c.vreg r := by
  unfold Chamber.doL
  split
  · next h => rw [if_neg (by omega)]; rfl
  · next h => rw [vreg_setV]; simp [h]
  iterate 2 (next h => rw [if_neg (by omega)]; rfl)
  · next h1 h2 h3 h4 => rw [if_neg (fun e => h2 e.1)]; rfl

theorem doL_dreg (c c0 : Chamber) (pc : Nat) (op : BitVec 8) (o : LOps) (tk : Bool) (r : BitVec 4) :
    (c.doL c0 pc op o tk).dreg r = if op.toNat = 3 ∧ r = o.dsc
      then BitVec.ofNat 1024 (memNat c0.lmem (c0.laddr o.sa o.imm32).toNat 128) else c.dreg r := by
  unfold Chamber.doL
  split
  · next h => rw [if_neg (by omega)]; rfl
  · next h => rw [if_neg (by omega)]; rfl
  · next h => rw [dreg_setD]; simp [h]
  · next h => rw [if_neg (by omega)]; rfl
  · next h1 h2 h3 h4 => rw [if_neg (fun e => h3 e.1)]; rfl

theorem doL_ops (c c0 : Chamber) (pc : Nat) (op : BitVec 8) (o : LOps) (tk : Bool) (h : op.toNat < 4 ∧ op ≠ 0) :
    (c.doL c0 pc op o tk).ops = c.ops ∧ (c.doL c0 pc op o tk).shadowOp = c.shadowOp := by
  have h0 : op.toNat ≠ 0 := fun e => h.2 (BitVec.eq_of_toNat_eq e)
  unfold Chamber.doL
  split
  iterate 3 exact ⟨rfl, rfl⟩
  · omega
  · next h1 h2 h3 h4 =>
    have a1 : op.toNat ≠ 1 := h1
    have a2 : op.toNat ≠ 2 := h2
    have a3 : op.toNat ≠ 3 := h3
    omega

theorem doV_vreg (c c0 : Chamber) (op : BitVec 8) (o : VOps) (r : BitVec 5) :
    (c.doV c0 op o).1.vreg r = if op ≠ 0x28 ∧ r = o.vd then (c0.vResult op.toNat o).1 else c.vreg r := by
  unfold Chamber.doV
  by_cases h : op = 0x28
  · rw [if_pos h, if_neg (fun e => e.1 h)]; rfl
  · rw [if_neg h]
    dsimp only
    rw [vreg_setV]
    by_cases hr : r = o.vd
    · rw [if_pos hr, if_pos ⟨h, hr⟩]
    · rw [if_neg hr, if_neg (c := op ≠ 0x28 ∧ r = o.vd) (fun e => hr e.2)]

theorem doV_turn (c c0 : Chamber) (op : BitVec 8) (o : VOps) :
    (c.doV c0 op o).1.turn = if op = 0x28 then turnRow c.turn (b2n o.tt) o.idx.toNat (c0.vreg o.va) else c.turn := by
  unfold Chamber.doV
  split <;> rfl

/-! ## The bundle whole -/

/-- The chamber before the L slot's effect, and after it. -/
def Chamber.afterS (c0 : Chamber) (pc : Nat) (b : Bundle) (v : Live) (cyc : Word) : Chamber :=
  let c := if v.c then c0.doC c0 pc b.cop b.c else c0
  if v.s then c.doS c0 b.sop b.s cyc else c

def Chamber.afterL (c0 : Chamber) (pc : Nat) (b : Bundle) (v : Live) (cyc : Word) (tk : Bool) : Chamber :=
  let c := c0.afterS pc b v cyc
  if v.l then c.doL c0 pc b.lop b.l tk else c

def Chamber.afterM (c0 : Chamber) (pc : Nat) (b : Bundle) (v : Live) (cyc : Word) (tk : Bool) : Chamber :=
  let c := c0.afterL pc b v cyc tk
  if v.m then { c with mmas := c.mmas ++ [c0.mmaOf pc b.mop b.m] } else c

def Chamber.afterV (c0 : Chamber) (pc : Nat) (b : Bundle) (v : Live) (cyc : Word) (tk : Bool) : Chamber :=
  let c := c0.afterM pc b v cyc tk
  if v.v then (c.doV c0 b.vop b.v).1 else c

theorem doBundle_fst (c0 : Chamber) (pc : Nat) (b : Bundle) (v : Live) (cyc : Word) (tk : Bool) :
    (c0.doBundle pc b v cyc tk).1 =
      { (if v.t then (c0.afterV pc b v cyc tk).doT c0 pc b.top b.t else c0.afterV pc b v cyc tk) with seq := c0.seq + 1, waitSince := none } := by
  unfold Chamber.doBundle Chamber.afterV Chamber.afterM Chamber.afterL Chamber.afterS
  dsimp only
  cases v.v <;> rfl

theorem doC_same (c c0 : Chamber) (pc : Nat) (op : BitVec 8) (o : COps) :
    c.doC c0 pc op o = { c with retStack := (c.doC c0 pc op o).retStack, posts := (c.doC c0 pc op o).posts } := by
  unfold Chamber.doC
  split <;> rfl

section parts

variable (c0 : Chamber) (pc : Nat) (b : Bundle) (v : Live) (cyc : Word) (tk : Bool)

/-- What the slots after L leave of its chamber. -/
theorem afterV_regs : (c0.afterV pc b v cyc tk).sregs = (c0.afterL pc b v cyc tk).sregs ∧ (c0.afterV pc b v cyc tk).preds = (c0.afterL pc b v cyc tk).preds ∧
    (c0.afterV pc b v cyc tk).dregs = (c0.afterL pc b v cyc tk).dregs ∧ (c0.afterV pc b v cyc tk).lmem = (c0.afterL pc b v cyc tk).lmem ∧
    (c0.afterV pc b v cyc tk).ops = (c0.afterL pc b v cyc tk).ops ∧ (c0.afterM pc b v cyc tk).vregs = (c0.afterL pc b v cyc tk).vregs ∧
    (c0.afterM pc b v cyc tk).turn = (c0.afterL pc b v cyc tk).turn := by
  unfold Chamber.afterV Chamber.afterM
  generalize c0.afterL pc b v cyc tk = c
  dsimp only
  cases v.m <;> cases v.v <;> simp only [Bool.false_eq_true, if_false, if_true, and_self]
  all_goals (rw [doV_rest]; simp)

theorem afterS_regs : (c0.afterS pc b v cyc).vregs = c0.vregs ∧ (c0.afterS pc b v cyc).lmem = c0.lmem ∧ (c0.afterS pc b v cyc).turn = c0.turn ∧
    (c0.afterS pc b v cyc).ops = c0.ops ∧ (c0.afterS pc b v cyc).mmas = c0.mmas ∧ (c0.afterS pc b v cyc).shadowOp = c0.shadowOp := by
  unfold Chamber.afterS
  dsimp only
  cases v.c <;> cases v.s <;> simp only [Bool.false_eq_true, if_false, if_true]
  · simp
  · rw [doS_rest]; simp
  · rw [doC_same]; simp
  · rw [doS_rest, doC_same]; simp

theorem doC_sreg (r : BitVec 5) : (c0.doC c0 pc b.cop b.c).sreg r = c0.sreg r := by rw [doC_same]; rfl
theorem doC_pred (r : BitVec 3) : (c0.doC c0 pc b.cop b.c).pred r = c0.pred r := by rw [doC_same]; rfl
theorem doC_dreg (r : BitVec 4) : (c0.doC c0 pc b.cop b.c).dreg r = c0.dreg r := by rw [doC_same]; rfl

end parts

/-- The scalar registers after a bundle: ld.s writes one, an S-slot instruction writes one, the others stay. -/
theorem after_sreg (s : State) (n : Nat) (b : Bundle) (r : BitVec 5) :
    (Chamber.after s n b).sreg r =
      if ((s.ch n).live b).l = true ∧ b.lop.toNat = 1 ∧ r = b.l.dst then
        BitVec.ofNat 64 (memNat (s.ch n).lmem ((s.ch n).laddr b.l.sa b.l.imm32).toNat 8)
      else if ((s.ch n).live b).s = true ∧ (b.sop.toNat ≤ 0x0D ∨ b.sop.toNat = 0x24) ∧ r = b.s.dst then
        scalarResult b.sop.toNat ((s.ch n).sreg b.s.sa) ((s.ch n).sB b.s) ((s.ch n).sreg b.s.dst) b.s.imm32 (s.chCycles n)
      else (s.ch n).sreg r := by
  unfold Chamber.after
  rw [doBundle_fst]
  generalize (s.ch n).live b = v
  generalize s.flag _ = tk
  have h1 : ∀ c : Chamber, (if v.t = true then c.doT (s.ch n) (s.chPc n) b.top b.t else c).sreg r = c.sreg r := by
    intro c; split
    · rw [doT_rest]; rfl
    · rfl
  have h2 : ∀ c : Chamber, ({ c with seq := (s.ch n).seq + 1, waitSince := none } : Chamber).sreg r = c.sreg r := fun _ => rfl
  rw [h2, h1]
  have h3 : ((s.ch n).afterV (s.chPc n) b v (s.chCycles n) tk).sreg r = ((s.ch n).afterL (s.chPc n) b v (s.chCycles n) tk).sreg r := by
    unfold Chamber.sreg; rw [(afterV_regs _ _ _ _ _ _).1]
  rw [h3]
  unfold Chamber.afterL Chamber.afterS
  dsimp only
  cases v.l <;> cases v.s <;> cases v.c <;> simp [doL_sreg, doS_sreg, doC_sreg]

/-- The predicates after a bundle. -/
theorem after_pred (s : State) (n : Nat) (b : Bundle) (r : BitVec 3) (hop : sOpOk b.sop = true) :
    (Chamber.after s n b).pred r =
      if ((s.ch n).live b).s = true ∧ 0x10 ≤ b.sop.toNat ∧ b.sop.toNat ≤ 0x1A ∧ r = b.s.dst.setWidth 3 then
        r == 0 || (if b.sop.toNat ≤ 0x15 then compareResult b.sop.toNat ((s.ch n).sreg b.s.sa) ((s.ch n).sB b.s)
          else predResult b.sop.toNat ((s.ch n).pred (b.s.sa.setWidth 3)) ((s.ch n).pred (b.s.sb.setWidth 3)))
      else (s.ch n).pred r := by
  unfold Chamber.after
  rw [doBundle_fst]
  generalize (s.ch n).live b = v
  generalize s.flag _ = tk
  have h1 : ∀ c : Chamber, (if v.t = true then c.doT (s.ch n) (s.chPc n) b.top b.t else c).pred r = c.pred r := by
    intro c; split
    · rw [doT_rest]; rfl
    · rfl
  have h2 : ∀ c : Chamber, ({ c with seq := (s.ch n).seq + 1, waitSince := none } : Chamber).pred r = c.pred r := fun _ => rfl
  rw [h2, h1]
  have h3 : ((s.ch n).afterV (s.chPc n) b v (s.chCycles n) tk).pred r = ((s.ch n).afterL (s.chPc n) b v (s.chCycles n) tk).pred r := by
    unfold Chamber.pred; rw [(afterV_regs _ _ _ _ _ _).2.1]
  have h4 : ((s.ch n).afterL (s.chPc n) b v (s.chCycles n) tk).pred r = ((s.ch n).afterS (s.chPc n) b v (s.chCycles n)).pred r := by
    unfold Chamber.afterL
    dsimp only
    split
    · rw [doL_rest]; rfl
    · rfl
  have h5 : ∀ c : Chamber, c = (s.ch n).doC (s.ch n) (s.chPc n) b.cop b.c ∨ c = s.ch n → c.pred r = (s.ch n).pred r := by
    intro c hc
    rcases hc with rfl | rfl
    · exact doC_pred _ _ _ _
    · rfl
  rw [h3, h4]
  unfold Chamber.afterS
  extract_lets c
  have hc : c.pred r = (s.ch n).pred r := by
    apply h5
    unfold c
    split <;> simp
  clear_value c
  cases v.s
  · simp [hc]
  · rw [if_pos rfl]
    by_cases hs : b.sop.toNat ≤ 0x0D ∨ b.sop.toNat = 0x24
    · rw [if_neg (by omega)]
      unfold Chamber.pred at hc ⊢
      rw [doS_pred_same _ _ _ _ _ (by omega), hc]
    · rw [doS_pred _ _ _ _ _ _ hs, hc]
      have h10 : 0x10 ≤ b.sop.toNat := by
        unfold sOpOk at hop
        simp only [Bool.or_eq_true, Bool.and_eq_true, decide_eq_true_eq, beq_iff_eq] at hop
        omega
      simp [h10]

/-- The descriptor registers after a bundle. -/
theorem after_dreg (s : State) (n : Nat) (b : Bundle) (r : BitVec 4) :
    (Chamber.after s n b).dreg r =
      if ((s.ch n).live b).l = true ∧ b.lop.toNat = 3 ∧ r = b.l.dsc then
        BitVec.ofNat 1024 (memNat (s.ch n).lmem ((s.ch n).laddr b.l.sa b.l.imm32).toNat 128)
      else if ((s.ch n).live b).s = true ∧ 0x1A < b.sop.toNat ∧ b.sop.toNat ≠ 0x24 ∧ r = b.s.dst.setWidth 4 then
        setBase ((s.ch n).dreg r) (if b.sop.toNat = 0x20 then ((s.ch n).sreg b.s.sa).toNat
          else bits (dWord ((s.ch n).dreg r) 0) 47 0 + ((s.ch n).sreg b.s.sa).toNat)
      else (s.ch n).dreg r := by
  unfold Chamber.after
  rw [doBundle_fst]
  generalize (s.ch n).live b = v
  generalize s.flag _ = tk
  have h1 : ∀ c : Chamber, (if v.t = true then c.doT (s.ch n) (s.chPc n) b.top b.t else c).dreg r = c.dreg r := by
    intro c; split
    · rw [doT_rest]; rfl
    · rfl
  have h2 : ∀ c : Chamber, ({ c with seq := (s.ch n).seq + 1, waitSince := none } : Chamber).dreg r = c.dreg r := fun _ => rfl
  rw [h2, h1]
  have h3 : ((s.ch n).afterV (s.chPc n) b v (s.chCycles n) tk).dreg r = ((s.ch n).afterL (s.chPc n) b v (s.chCycles n) tk).dreg r := by
    unfold Chamber.dreg; rw [(afterV_regs _ _ _ _ _ _).2.2.1]
  rw [h3]
  unfold Chamber.afterL Chamber.afterS
  dsimp only
  by_cases hr : r = b.s.dst.setWidth 4
  · subst hr
    cases v.l <;> cases v.s <;> cases v.c <;> simp [doL_dreg, doS_dreg, doC_dreg]
  · cases v.l <;> cases v.s <;> cases v.c <;> simp [doL_dreg, doS_dreg, doC_dreg, hr]

/-- The vector registers after a bundle. -/
theorem after_vreg (s : State) (n : Nat) (b : Bundle) (r : BitVec 5) :
    (Chamber.after s n b).vreg r =
      if ((s.ch n).live b).v = true ∧ b.vop ≠ 0x28 ∧ r = b.v.vd then ((s.ch n).vResult b.vop.toNat b.v).1
      else if ((s.ch n).live b).l = true ∧ b.lop.toNat = 2 ∧ r = b.l.dst then
        lanesOfBytes (memRead (s.ch n).lmem ((s.ch n).laddr b.l.sa b.l.imm32).toNat 512)
      else (s.ch n).vreg r := by
  unfold Chamber.after
  rw [doBundle_fst]
  generalize (s.ch n).live b = v
  generalize s.flag _ = tk
  have h1 : ∀ c : Chamber, (if v.t = true then c.doT (s.ch n) (s.chPc n) b.top b.t else c).vreg r = c.vreg r := by
    intro c; split
    · rw [doT_rest]; rfl
    · rfl
  have h2 : ∀ c : Chamber, ({ c with seq := (s.ch n).seq + 1, waitSince := none } : Chamber).vreg r = c.vreg r := fun _ => rfl
  rw [h2, h1]
  have h4 : ((s.ch n).afterM (s.chPc n) b v (s.chCycles n) tk).vreg r = ((s.ch n).afterL (s.chPc n) b v (s.chCycles n) tk).vreg r := by
    unfold Chamber.vreg; rw [(afterV_regs _ _ _ _ _ _).2.2.2.2.2.1]
  have h5 : ((s.ch n).afterS (s.chPc n) b v (s.chCycles n)).vreg r = (s.ch n).vreg r := by
    unfold Chamber.vreg; rw [(afterS_regs _ _ _ _ _).1]
  have h6 : ((s.ch n).afterL (s.chPc n) b v (s.chCycles n) tk).vreg r =
      if v.l = true ∧ b.lop.toNat = 2 ∧ r = b.l.dst then
        lanesOfBytes (memRead (s.ch n).lmem ((s.ch n).laddr b.l.sa b.l.imm32).toNat 512) else (s.ch n).vreg r := by
    unfold Chamber.afterL
    dsimp only
    cases v.l <;> simp [doL_vreg, h5]
  unfold Chamber.afterV
  dsimp only
  by_cases hv : v.v = true
  · rw [if_pos hv, doV_vreg, h4, h6]
    by_cases hc : b.vop ≠ 0x28 ∧ r = b.v.vd
    · rw [if_pos hc, if_pos ⟨hv, hc⟩]
    · rw [if_neg hc, if_neg (c := v.v = true ∧ b.vop ≠ 0x28 ∧ r = b.v.vd) (fun e => hc e.2)]
  · rw [if_neg hv, if_neg (c := v.v = true ∧ b.vop ≠ 0x28 ∧ r = b.v.vd) (fun e => hv e.1), h4, h6]

/-- The bytes that a synchronous store of the T slot writes; none for the other T-slot operations (R48). -/
def Chamber.storeBytes (c : Chamber) (op : BitVec 8) (o : TOps) : List Byte :=
  match op.toNat with
  | 1 => leBytes 8 (c.sreg o.sb).toNat
  | 2 => bytesOfLanes (c.vreg o.vs)
  | 3 => leBytes 128 (c.dreg o.dsc).toNat
  | _ => []

theorem doT_lmem (c c0 : Chamber) (pc : Nat) (op : BitVec 8) (o : TOps) :
    (c.doT c0 pc op o).lmem = memWrite c.lmem (c0.laddr o.sa o.imm32).toNat (c0.storeBytes op o) := by
  unfold Chamber.doT Chamber.storeBytes
  dsimp only
  split <;> simp_all [memWrite]

/-- Local memory after a bundle: the bytes of the T slot's synchronous store, and no other. -/
theorem after_lmem (s : State) (n : Nat) (b : Bundle) :
    (Chamber.after s n b).lmem = memWrite (s.ch n).lmem ((s.ch n).laddr b.t.sa b.t.imm32).toNat
      (if ((s.ch n).live b).t = true then (s.ch n).storeBytes b.top b.t else []) := by
  unfold Chamber.after
  rw [doBundle_fst]
  generalize (s.ch n).live b = v
  generalize s.flag _ = tk
  have h : ((s.ch n).afterV (s.chPc n) b v (s.chCycles n) tk).lmem = (s.ch n).lmem := by
    rw [(afterV_regs _ _ _ _ _ _).2.2.2.1]
    unfold Chamber.afterL
    dsimp only
    split
    · rw [doL_rest]; exact (afterS_regs _ _ _ _ _).2.1
    · exact (afterS_regs _ _ _ _ _).2.1
  dsimp only
  by_cases ht : v.t = true
  · rw [if_pos ht, if_pos ht, doT_lmem, h]
  · rw [if_neg ht, if_neg ht, h]; rfl

/-- The turn tiles after a bundle. -/
theorem after_turn (s : State) (n : Nat) (b : Bundle) :
    (Chamber.after s n b).turn = if ((s.ch n).live b).v = true ∧ b.vop = 0x28
      then turnRow (s.ch n).turn (b2n b.v.tt) b.v.idx.toNat ((s.ch n).vreg b.v.va) else (s.ch n).turn := by
  unfold Chamber.after
  rw [doBundle_fst]
  generalize (s.ch n).live b = v
  generalize s.flag _ = tk
  have h : ((s.ch n).afterM (s.chPc n) b v (s.chCycles n) tk).turn = (s.ch n).turn := by
    rw [(afterV_regs _ _ _ _ _ _).2.2.2.2.2.2]
    unfold Chamber.afterL
    dsimp only
    split
    · rw [doL_rest]; exact (afterS_regs _ _ _ _ _).2.2.1
    · exact (afterS_regs _ _ _ _ _).2.2.1
  have h2 : (if v.t = true then ((s.ch n).afterV (s.chPc n) b v (s.chCycles n) tk).doT (s.ch n) (s.chPc n) b.top b.t
      else (s.ch n).afterV (s.chPc n) b v (s.chCycles n) tk).turn = ((s.ch n).afterV (s.chPc n) b v (s.chCycles n) tk).turn := by
    split
    · rw [doT_rest]
    · rfl
  dsimp only
  rw [h2]
  unfold Chamber.afterV
  dsimp only
  by_cases hv : v.v = true
  · rw [if_pos hv, doV_turn, h]; simp [hv]
  · rw [if_neg hv, h, if_neg (fun e => hv e.1)]

/-- The operations a slot starts: those of L, then those of T. -/
def Chamber.opsL (c : Chamber) (pc : Nat) (op : BitVec 8) (o : LOps) (tk : Bool) : List AsyncOp :=
  match op.toNat with
  | 1 => []
  | 2 => []
  | 3 => []
  | 4 => [{ AsyncOp.make c.seq pc o.tag.toNat .ldT (c.dreg o.dsc) with laddr := (c.sreg o.sa).toNat }]
  | _ => [{ AsyncOp.make c.seq pc o.tag.toNat .ldW (c.dreg o.dsc) with
      xmode := o.xmode.toNat, xslot := b2n o.xslot, table := c.slots.getD (b2n o.xslot) [], tableOk := tk }]

def Chamber.opsT (c : Chamber) (pc : Nat) (op : BitVec 8) (o : TOps) : List AsyncOp :=
  let mk := fun k => { AsyncOp.make c.seq pc o.tag.toNat k (c.dreg o.dsc) with laddr := (c.sreg o.sa).toNat }
  let acc := fun k => { mk k with
    otype := o.otype.toNat, ieee := o.ieee, arr := b2n o.arr, stats := o.stats, sscale := (c.sreg o.sscale).toNat }
  match op.toNat with
  | 1 => []
  | 2 => []
  | 3 => []
  | 4 => [mk .stT]
  | 5 => [mk .stAdd]
  | 6 => [acc .stAcc]
  | 7 => [acc .stAccAdd]
  | _ => [{ mk .mv with src := (c.sreg o.sb).toNat, len := o.imm32.toNat, begun := true, sent := true }]

theorem doL_ops_eq (c c0 : Chamber) (pc : Nat) (op : BitVec 8) (o : LOps) (tk : Bool) :
    (c.doL c0 pc op o tk).ops = c.ops ++ c0.opsL pc op o tk := by
  unfold Chamber.doL Chamber.opsL
  dsimp only
  split <;> simp_all [Chamber.setS, Chamber.setV, Chamber.setD]

theorem doT_ops_eq (c c0 : Chamber) (pc : Nat) (op : BitVec 8) (o : TOps) : (c.doT c0 pc op o).ops = c.ops ++ c0.opsT pc op o := by
  unfold Chamber.doT Chamber.opsT
  dsimp only
  split <;> simp_all

/-- The outstanding operations after a bundle. -/
theorem after_ops (s : State) (n : Nat) (b : Bundle) :
    (Chamber.after s n b).ops = (s.ch n).ops ++
      (if ((s.ch n).live b).l = true then (s.ch n).opsL (s.chPc n) b.lop b.l
        (s.flag (if b.l.xslot then Reg.CHn_XT_SLOT1_VALID n else Reg.CHn_XT_SLOT0_VALID n)) else []) ++
      (if ((s.ch n).live b).t = true then (s.ch n).opsT (s.chPc n) b.top b.t else []) := by
  unfold Chamber.after
  rw [doBundle_fst]
  generalize (s.ch n).live b = v
  generalize s.flag _ = tk
  have h : ((s.ch n).afterV (s.chPc n) b v (s.chCycles n) tk).ops =
      (s.ch n).ops ++ (if v.l = true then (s.ch n).opsL (s.chPc n) b.lop b.l tk else []) := by
    rw [(afterV_regs _ _ _ _ _ _).2.2.2.2.1]
    unfold Chamber.afterL
    dsimp only
    by_cases hl : v.l = true
    · rw [if_pos hl, if_pos hl, doL_ops_eq, (afterS_regs _ _ _ _ _).2.2.2.1]
    · rw [if_neg hl, if_neg hl, (afterS_regs _ _ _ _ _).2.2.2.1, List.append_nil]
  dsimp only
  by_cases ht : v.t = true
  · rw [if_pos ht, if_pos ht, doT_ops_eq, h]
  · rw [if_neg ht, if_neg ht, h, List.append_nil]

/-- The array queues after a bundle. -/
theorem after_mmas (s : State) (n : Nat) (b : Bundle) :
    (Chamber.after s n b).mmas = (s.ch n).mmas ++ if ((s.ch n).live b).m = true then [(s.ch n).mmaOf (s.chPc n) b.mop b.m] else [] := by
  unfold Chamber.after
  rw [doBundle_fst]
  generalize (s.ch n).live b = v
  generalize s.flag _ = tk
  have h2 : (if v.t = true then ((s.ch n).afterV (s.chPc n) b v (s.chCycles n) tk).doT (s.ch n) (s.chPc n) b.top b.t
      else (s.ch n).afterV (s.chPc n) b v (s.chCycles n) tk).mmas = ((s.ch n).afterV (s.chPc n) b v (s.chCycles n) tk).mmas := by
    split
    · rw [doT_rest]
    · rfl
  have h3 : ((s.ch n).afterV (s.chPc n) b v (s.chCycles n) tk).mmas = ((s.ch n).afterM (s.chPc n) b v (s.chCycles n) tk).mmas := by
    unfold Chamber.afterV
    dsimp only
    split
    · rw [doV_rest]
    · rfl
  have h4 : ((s.ch n).afterL (s.chPc n) b v (s.chCycles n) tk).mmas = (s.ch n).mmas := by
    unfold Chamber.afterL
    dsimp only
    split
    · rw [doL_rest]; exact (afterS_regs _ _ _ _ _).2.2.2.2.1
    · exact (afterS_regs _ _ _ _ _).2.2.2.2.1
  dsimp only
  rw [h2, h3]
  unfold Chamber.afterM
  dsimp only
  split
  · rw [h4]
  · rw [h4, List.append_nil]

/-- The return stack after a bundle, and what no slot writes. -/
theorem after_rest (s : State) (n : Nat) (b : Bundle) :
    (Chamber.after s n b).retStack = (if ((s.ch n).live b).c = true then ((s.ch n).doC (s.ch n) (s.chPc n) b.cop b.c).retStack else (s.ch n).retStack) ∧
    (Chamber.after s n b).bmem = (s.ch n).bmem ∧ (Chamber.after s n b).accA = (s.ch n).accA ∧ (Chamber.after s n b).accB = (s.ch n).accB ∧
    (Chamber.after s n b).tagA = (s.ch n).tagA ∧ (Chamber.after s n b).tagB = (s.ch n).tagB ∧
    (Chamber.after s n b).rowFlagsA = (s.ch n).rowFlagsA ∧ (Chamber.after s n b).rowFlagsB = (s.ch n).rowFlagsB ∧
    (Chamber.after s n b).active = (s.ch n).active ∧ (Chamber.after s n b).shadow = (s.ch n).shadow ∧
    (Chamber.after s n b).slots = (s.ch n).slots ∧ (Chamber.after s n b).inflightA = (s.ch n).inflightA ∧
    (Chamber.after s n b).inflightB = (s.ch n).inflightB ∧ (Chamber.after s n b).seq = (s.ch n).seq + 1 ∧
    (Chamber.after s n b).halt = (s.ch n).halt ∧
    (Chamber.after s n b).posts = (if ((s.ch n).live b).c = true then ((s.ch n).doC (s.ch n) (s.chPc n) b.cop b.c).posts else (s.ch n).posts) := by
  unfold Chamber.after
  rw [doBundle_fst]
  generalize (s.ch n).live b = v
  generalize s.flag _ = tk
  unfold Chamber.afterV Chamber.afterM Chamber.afterL Chamber.afterS
  dsimp only
  rcases v with ⟨vc, vs, vl, vm, vv, vt⟩
  dsimp only
  cases vt <;> simp only [Bool.false_eq_true, if_false, if_true]
  all_goals try rw [doT_rest]
  all_goals cases vv <;> simp only [Bool.false_eq_true, if_false, if_true]
  all_goals try rw [doV_rest]
  all_goals cases vm <;> simp only [Bool.false_eq_true, if_false, if_true]
  all_goals cases vl <;> simp only [Bool.false_eq_true, if_false, if_true]
  all_goals try rw [doL_rest]
  all_goals cases vs <;> simp only [Bool.false_eq_true, if_false, if_true]
  all_goals try rw [doS_rest]
  all_goals cases vc <;> simp only [Bool.false_eq_true, if_false, if_true]
  all_goals try rw [doC_same]
  all_goals simp

/-! ## What a bundle that is taken satisfies -/

/-- A bundle with no precise cause (R39, R40, R43, R45, R46, R496). -/
theorem precise_none {c : Chamber} {pc : Nat} {b : Bundle} {v : Live} (h : c.precise pc b v = none) :
    pastEnd pc b v = false ∧ (v.c = true → c.cCause b.cop b.c = none) ∧ (v.l = true → c.lCause b.lop b.l = none) ∧
    (v.m = true → b.mop = 1 → c.mmaRange b.m = false) ∧ (v.v = true → b.vop = 0x2C → (c.sreg b.v.sreg).toNat ≤ 1023) ∧
    (v.t = true → c.tCause b.top b.t = none) := by
  unfold Chamber.precise at h
  split at h
  · cases h
  · next h0 =>
    split at h
    · cases h
    · next h1 =>
      split at h
      · cases h
      · next h2 =>
        split at h
        · cases h
        · next h3 =>
          split at h
          · cases h
          · next h4 =>
            split at h
            · cases h
            · next h5 =>
              refine ⟨by simpa using h0, fun hv => ?_, fun hv => ?_, fun hv hm => ?_, fun hv hm => ?_, fun hv => ?_⟩
              · rw [if_pos hv] at h1; exact h1
              · rw [if_pos hv] at h2; exact h2
              · simpa [hv, hm] using h3
              · simpa [hv, hm] using h4
              · rw [if_pos hv] at h5; exact h5

/-- A bundle that waits for nothing (R29, R33, R35, R43, R49, R78, R85). -/
theorem waits_no {s : State} {n : Nat} {b : Bundle} {v : Live} (h : s.waitsFor n b v = .no) :
    (v.c = true → b.cop = 0x0A → ((s.ch n).cValue b.c).toNat ≤ s.sig b.c.target.toNat) ∧
    (v.c = true → b.cop = 0x0B → s.sig b.c.target.toNat = ((s.ch n).cValue b.c).toNat) ∧
    (v.c = true → b.cop = 0x0C → (s.ch n).tagBusy (b.c.target.toNat % 256) = false) ∧
    (v.c = true → b.cop = 0x0D → (s.ch n).storesBefore (s.ch n).seq = false) ∧
    (v.l = true → b.lop = 5 → s.get (Reg.CHn_WTILE_SHADOW n) = 0) ∧
    (0 < startsAsync b v → (s.ch n).ops.length + startsAsync b v ≤ 32) := by
  unfold State.waitsFor at h
  dsimp only at h
  generalize (if b.l.xslot = true then Reg.CHn_XT_SLOT1_PENDING n else Reg.CHn_XT_SLOT0_PENDING n) = fr at h
  split at h
  · cases h
  · next h1 =>
    split at h
    · cases h
    · next h2 =>
      split at h
      · cases h
      · next h3 =>
        split at h
        · cases h
        · next h4 =>
          split at h
          · cases h
          · next h5 =>
            split at h
            · cases h
            · split at h
              · cases h
              · next h7 =>
                refine ⟨fun hv ho => ?_, fun hv ho => ?_, fun hv ho => ?_, fun hv ho => ?_, fun hv ho => ?_, fun hp => ?_⟩
                · simpa [hv, ho] using h1
                · simpa [hv, ho] using h2
                · simpa [hv, ho] using h3
                · simpa [hv, ho] using h4
                · simpa [hv, ho] using h5
                · simp only [Bool.and_eq_true, decide_eq_true_eq, not_and, Nat.not_lt] at h7
                  exact h7 hp

/-- A legal bundle's opcodes, and its destinations (R30). -/
theorem legal_none {b : Bundle} (h : illegalSlot b = none) :
    cOpOk b.cop = true ∧ sOpOk b.sop = true ∧ lOpOk b.lop = true ∧ mOpOk b.mop = true ∧ vOpOk b.vop = true ∧ tOpOk b.top = true ∧
    (∀ x, lDest b.lop b.l = some x → sDest b.sop b.s ≠ some x) ∧ (∀ x, vDest b.vop b.v = some x → lDest b.lop b.l ≠ some x) := by
  unfold illegalSlot at h
  dsimp only at h
  split at h
  · cases h
  · next h1 =>
    split at h
    · cases h
    · next h2 =>
      split at h
      · cases h
      · next h3 =>
        split at h
        · cases h
        · next h4 =>
          split at h
          · cases h
          · next h5 =>
            split at h
            · cases h
            · next h6 =>
              simp only [Bool.or_eq_true, Bool.and_eq_true, Bool.not_eq_true', not_or, not_and, Bool.not_eq_false] at h1 h2 h3 h4 h5 h6
              refine ⟨h1, h2, h3.1, h4.1, h5.1.1, h6.1, fun x hx hs => ?_, fun x hx hs => ?_⟩
              · have := h3.2 (by simp [hx]); simp [hx, hs] at this
              · have := h5.2 (by simp [hx]); simp [hx, hs] at this

end Sys2Proof.Machine
end

