-- ==== Sys2Proof/Laws/Within.lean ====
section
/-! SUPPORT. Which register fields posts, log entries, ECC counts, flags and halts may write: `State.Within`, for each operation they are made
of, and what a bundle that is taken leaves in registers. -/

namespace Sys2Proof.Machine

open Sys2Proof

/-- Fields whose keys are outside `P` are as they were, and the reset values are. -/
def State.Within (P : Nat → Prop) (s t : State) : Prop :=
  t.image = s.image ∧ t.straps = s.straps ∧ ∀ k, ¬P k → mapFind t.fields k = mapFind s.fields k

theorem State.Within.refl (P : Nat → Prop) (s : State) : s.Within P s := ⟨rfl, rfl, fun _ _ => rfl⟩

theorem State.Within.trans {P : Nat → Prop} {s t u : State} (h : State.Within P s t) (k : State.Within P t u) : State.Within P s u :=
  ⟨k.1.trans h.1, k.2.1.trans h.2.1, fun x hx => (k.2.2 x hx).trans (h.2.2 x hx)⟩

theorem State.Within.mono {P Q : Nat → Prop} {s t : State} (h : State.Within P s t) (hpq : ∀ k, P k → Q k) : State.Within Q s t :=
  ⟨h.1, h.2.1, fun k hk => h.2.2 k (fun hp => hk (hpq k hp))⟩

theorem State.Within.get {P : Nat → Prop} {s t : State} (h : State.Within P s t) {f : FieldRef} (hf : ¬P f.key) : t.get f = s.get f := by
  unfold State.get State.resetOf
  rw [h.1, h.2.1, h.2.2 _ hf]

/-- The keys of chamber `n`'s own block that flags and ECC counts write. -/
def Own (n k : Nat) : Prop := k ∈ (bundleFields n).map FieldRef.key

/-- The keys that what accompanies a bundle of chamber `n` may write: the error log, the signal words, the ports' blocks, the power state and
the chambers' states, and of the chamber's own block those of `Own` and the marks of its table slots. -/
def Touch (n k : Nat) : Prop :=
  (0x6800000 * 64 ≤ k ∧ k < 0x6820000 * 64) ∨ (0x80000 * 64 ≤ k ∧ k < 0x88000 * 64) ∨ (0x4000000 * 64 ≤ k ∧ k < 0x4200000 * 64) ∨
    k = Reg.PCR_PSTATE_STATE.key ∨ (∃ m < 28, k = (Reg.CHn_STATUS_STATE m).key) ∨ Own n k ∨
    k = (Reg.CHn_XT_SLOT0_QUEUED n).key ∨ k = (Reg.CHn_XT_SLOT1_QUEUED n).key

theorem own_touch {n k : Nat} (h : Own n k) : Touch n k := .inr (.inr (.inr (.inr (.inr (.inl h)))))

/-- What accompanies a bundle writes neither the PC nor the state and type of the shadow tile. -/
theorem not_touch {n : Nat} (hn : n < 28) {f : FieldRef}
    (h : f = Reg.CHn_STATUS_PC n ∨ f = Reg.CHn_WTILE_SHADOW n ∨ f = Reg.CHn_WTILE_SHADOW_TYPE n) : ¬Touch n f.key := by
  simp only [Touch, Own, bundleFields, List.map, List.mem_cons, List.not_mem_nil, or_false, FieldRef.key, Reg.CHn_EXC_INVALID, Reg.CHn_EXC_OVERFLOW,
    Reg.CHn_EXC_FLUSH, Reg.CHn_LMEM_ERR_UNCORRECTED, Reg.CHn_LMEM_ERR_WORST_BANK, Reg.CHn_LMEM_ERR_CORRECTED, Reg.CHn_STATUS_RETIRE_PENDING,
    Reg.CHn_ACC_ERR_UNCORRECTED, Reg.CHn_ACC_ERR_CORRECTED, Reg.CHn_TSW_A_ECC, Reg.CHn_TSW_A_ECC_ROW, Reg.CHn_TSW_B_ECC, Reg.CHn_TSW_B_ECC_ROW,
    Reg.PCR_PSTATE_STATE, Reg.CHn_STATUS_STATE, Reg.CHn_XT_SLOT0_QUEUED, Reg.CHn_XT_SLOT1_QUEUED]
  rcases h with rfl | rfl | rfl
  · simp only [Reg.CHn_STATUS_PC]; omega
  · simp only [Reg.CHn_WTILE_SHADOW]; omega
  · simp only [Reg.CHn_WTILE_SHADOW_TYPE]; omega

theorem own_block {n k : Nat} (h : Own n k) : (0x1000000 + 0x100000 * n) * 64 ≤ k ∧ k < (0x1100000 + 0x100000 * n) * 64 := by
  simp only [Own, bundleFields, List.map, List.mem_cons, List.not_mem_nil, or_false, FieldRef.key, Reg.CHn_EXC_INVALID, Reg.CHn_EXC_OVERFLOW,
    Reg.CHn_EXC_FLUSH, Reg.CHn_LMEM_ERR_UNCORRECTED, Reg.CHn_LMEM_ERR_WORST_BANK, Reg.CHn_LMEM_ERR_CORRECTED, Reg.CHn_STATUS_RETIRE_PENDING,
    Reg.CHn_ACC_ERR_UNCORRECTED, Reg.CHn_ACC_ERR_CORRECTED, Reg.CHn_TSW_A_ECC, Reg.CHn_TSW_A_ECC_ROW, Reg.CHn_TSW_B_ECC, Reg.CHn_TSW_B_ECC_ROW] at h
  omega

section
variable {P : Nat → Prop} {s : State}

theorem within_put {f : FieldRef} {v : Nat} (h : P f.key) : State.Within P s (s.put f v) := by
  refine ⟨rfl, rfl, fun k hk => ?_⟩
  have : k ≠ f.key := fun e => hk (e ▸ h)
  unfold State.put
  rw [mapFind_insert, if_neg this]

theorem within_puts {l : List (FieldRef × Nat)} (h : ∀ e ∈ l, P e.1.key) : State.Within P s (s.puts l) := by
  induction l generalizing s with
  | nil => exact .refl P s
  | cons e l ih =>
    exact (within_put (h e List.mem_cons_self)).trans (ih fun x hx => h x (List.mem_cons_of_mem _ hx))

theorem within_ite {t u : State} {p : Prop} [Decidable p] (ht : State.Within P s t) (hu : State.Within P s u) :
    State.Within P s (if p then t else u) := by
  split <;> assumption

theorem within_foldl {α : Type} {f : State → α → State} {l : List α} (hf : ∀ (s : State) x, x ∈ l → State.Within P s (f s x)) :
    State.Within P s (l.foldl f s) := by
  induction l generalizing s with
  | nil => exact .refl P s
  | cons x l ih => exact (hf s x List.mem_cons_self).trans (ih fun s y hy => hf s y (List.mem_cons_of_mem _ hy))

theorem within_setCh {n : Nat} {c : Chamber} : State.Within P s (s.setCh n c) := ⟨rfl, rfl, fun _ _ => rfl⟩
theorem within_modCh {n : Nat} {f : Chamber → Chamber} : State.Within P s (s.modCh n f) := ⟨rfl, rfl, fun _ _ => rfl⟩
theorem within_setPort {n : Nat} {p : Port} : State.Within P s (s.setPort n p) := ⟨rfl, rfl, fun _ _ => rfl⟩
theorem within_oweCredit {n vl : Nat} : State.Within P s (s.oweCredit n vl) := ⟨rfl, rfl, fun _ _ => rfl⟩
theorem within_raiseIrq {v : Nat} : State.Within P s (s.raiseIrq v) := ⟨rfl, rfl, fun _ _ => rfl⟩
theorem within_lost {l : List Packet} : State.Within P s { s with lost := l } := ⟨rfl, rfl, fun _ _ => rfl⟩
theorem within_count {f : FieldRef} {v : Nat} (h : P f.key) : State.Within P s (s.count f v) := within_put h
theorem within_countSat {f : FieldRef} {v : Nat} (h : P f.key) : State.Within P s (s.countSat f v) := within_put h

end

section
variable {s : State}

theorem within_putLogWords (n i k : Nat) (ws : List Nat) (hi : i < 1024) (hk : k + ws.length ≤ 8) (hn : n < 28) :
    State.Within (Touch n) s (s.putLogWords i k ws) := by
  induction ws generalizing s k with
  | nil => exact .refl _ s
  | cons w ws ih =>
    unfold State.putLogWords
    rw [List.length_cons] at hk
    exact (within_put (by simp only [Touch, FieldRef.key, Reg.ERR_LOGi_Wk_WORD]; omega)).trans (ih (k + 1) (by omega))

theorem within_logErr (n : Nat) (e : LogEntry) (hn : n < 28) : State.Within (Touch n) s (s.logErr e) := by
  unfold State.logErr
  extract_lets seq ws s1 s2 s3
  have h1 : State.Within (Touch n) s s1 :=
    within_putLogWords n _ 0 _ (Nat.mod_lt _ (by decide)) (by simp [ws, logWords]) hn
  have h2 : State.Within (Touch n) s1 s2 :=
    within_count (by simp only [Touch, FieldRef.key, Reg.ERR_STATUS_WRITTEN]; omega)
  have h3 : State.Within (Touch n) s2 s3 :=
    within_put (by simp only [Touch, FieldRef.key, Reg.ERR_STATUS_MAX_SEV]; omega)
  have h := h1.trans (h2.trans h3)
  clear_value s3
  exact within_ite (h.trans within_raiseIrq) h

/-- The keys that the end of Doze or Keep writes: the power state, the chambers' states and the ports' (R453). -/
def WakeKeys (k : Nat) : Prop :=
  k = Reg.PCR_PSTATE_STATE.key ∨ (∃ m < 28, k = (Reg.CHn_STATUS_STATE m).key) ∨ ∃ m < 8, k = (Reg.HGPn_STATUS_STATE m).key

theorem wake_touch {n k : Nat} (h : WakeKeys k) : Touch n k := by
  rcases h with h | ⟨m, hm, h⟩ | ⟨m, hm, h⟩
  · exact .inr (.inr (.inr (.inl h)))
  · exact .inr (.inr (.inr (.inr (.inl ⟨m, hm, h⟩))))
  · rw [h]; simp only [Touch, FieldRef.key, Reg.HGPn_STATUS_STATE]; omega

theorem within_wakeChamber (m : Nat) (hm : m < 28) : State.Within WakeKeys s (s.wakeChamber m) :=
  within_ite (State.Within.trans (within_put (.inr (.inl ⟨m, hm, rfl⟩))) within_modCh) (.refl _ s)

theorem within_wakePort (m : Nat) (hm : m < 8) : State.Within WakeKeys s (s.wakePort m) :=
  within_ite (within_put (.inr (.inr ⟨m, hm, rfl⟩))) (.refl _ s)

theorem within_toRun : State.Within WakeKeys s s.toRun := by
  have h : State.Within WakeKeys s { s with dozeIdle := 0, keepIdle := 0 } := ⟨rfl, rfl, fun _ _ => rfl⟩
  unfold State.toRun
  extract_lets keep s1 s2
  have h2 : State.Within WakeKeys s s2 := h.trans ((within_put (.inl rfl)).trans
    (within_foldl fun _ x hx => within_wakeChamber x (List.mem_range.mp hx)))
  clear_value s2
  exact within_ite (h2.trans (within_foldl fun _ x hx => within_wakePort x (List.mem_range.mp hx))) h2

theorem within_wake : State.Within WakeKeys s s.wake :=
  within_ite (.refl _ s) (within_ite ⟨rfl, rfl, fun _ _ => rfl⟩ within_toRun)

theorem within_postSig (n sg : Nat) (set : Bool) (v : Nat) (hn : n < 28) (hs : sg < 4096) :
    State.Within (Touch n) s (s.postSig sg set v) :=
  (within_ite (within_wake.mono fun _ => wake_touch) (.refl _ s)).trans
    (within_put (by simp only [Touch, FieldRef.key, Reg.GLB_SIGn_VALUE]; omega))

theorem within_pump (n m : Nat) (hn : n < 28) (hm : m < 8) : State.Within (Touch n) s (s.pump m) := by
  unfold State.pump
  extract_lets p
  generalize pumpWaiting s.held p.waiting [] { p with waiting := [] } [] = r
  obtain ⟨w, q, freed⟩ := r
  dsimp only
  refine within_setPort.trans ((within_count (by
    simp only [Touch, FieldRef.key, Reg.HGPn_PAYLOAD_TX_MIB]; omega)).trans (within_foldl fun u e _ => ?_))
  split
  · exact within_oweCredit
  · exact .refl _ _

theorem within_losePacket (n m : Nat) (hops : Bool) (k : Packet) (h : (k.kind == .write || k.kind == .readReq) = false)
    (hn : n < 28) (hm : m < 8) : State.Within (Touch n) s (s.losePacket m hops k) := by
  unfold State.losePacket
  extract_lets s1 s2 s3
  have h1 : State.Within (Touch n) s s1 := within_count (by
    split <;> simp only [Touch, FieldRef.key, Reg.HGPn_LOST_HOPS, Reg.HGPn_LOST_ROUTE] <;> omega)
  have h3 : State.Within (Touch n) s s3 := h1.trans ((within_logErr n _ hn).trans within_lost)
  clear_value s3
  rw [h, Bool.and_false]
  exact h3

theorem pickPort_lt {s : State} {k : PKind} {vl : Nat} {l : List Nat} {n : Nat} (hl : ∀ x ∈ l, x < 8)
    (h : s.pickPort k vl l = some n) : n < 8 := by
  unfold State.pickPort at h
  split at h
  · cases h
  · rename_i m ms
    split at h
    · injection h with h
      subst h
      have : ∀ (ms : List Nat) (b : Nat), b < 8 → (∀ x ∈ ms, x < 8) →
          ms.foldl (fun b m => if (s.port b).credits vl < (s.port m).credits vl then m else b) b < 8 := by
        intro ms
        induction ms with
        | nil => intro b hb _; exact hb
        | cons x ms ih =>
          intro b hb hx
          rw [List.foldl_cons]
          refine ih _ ?_ (fun y hy => hx y (List.mem_cons_of_mem _ hy))
          split
          · exact hx x List.mem_cons_self
          · exact hb
      exact this ms m (hl m List.mem_cons_self) (fun y hy => hl y (List.mem_cons_of_mem _ hy))
    · injection h with h
      subst h
      exact hl _ List.mem_cons_self

theorem upPorts_lt {s : State} {mask : Nat} : ∀ x ∈ s.upPorts mask, x < 8 := by
  intro x hx
  exact List.mem_range.mp (List.mem_filter.mp hx).1

theorem routePorts_lt {s : State} {d c : Nat} : ∀ x ∈ s.routePorts d c, x < 8 := by
  intro x hx
  unfold State.routePorts at hx
  dsimp only at hx
  split at hx <;> exact upPorts_lt x hx

theorem portsFor_lt {s : State} {k : Packet} : ∀ x ∈ s.portsFor k, x < 8 := by
  intro x hx
  unfold State.portsFor at hx
  split at hx
  · rw [List.mem_singleton] at hx
    omega
  · exact routePorts_lt x hx

theorem within_loseVia (n : Nat) (k : Packet) (i : Option Nat) (h : (k.kind == .write || k.kind == .readReq) = false) (hn : n < 28) :
    State.Within (Touch n) s (s.loseVia k i) := by
  unfold State.loseVia
  extract_lets u m
  have hu : State.Within (Touch n) s u := by
    unfold u
    split
    · exact within_oweCredit
    · exact .refl _ _
  have hp : ((List.range 8).find? fun n => bit m n).getD 0 < 8 := by
    cases hf : (List.range 8).find? fun n => bit m n with
    | none => decide
    | some x => exact List.mem_range.mp (List.mem_of_find?_eq_some hf)
  clear_value m u
  exact hu.trans (within_losePacket n _ false k h hn hp)

theorem within_sendVia (n : Nat) (k : Packet) (i : Option Nat) (h : (k.kind == .write || k.kind == .readReq) = false) (hn : n < 28) :
    State.Within (Touch n) s (s.sendVia k i) := by
  unfold State.sendVia State.sendOver
  split
  · rename_i m hm
    exact within_setPort.trans (within_pump n m hn (pickPort_lt portsFor_lt hm))
  · exact within_loseVia n k i h hn

theorem within_postTo (n dev cc sig : Nat) (set : Bool) (v : Word) (hn : n < 28) (hs : sig < 4096) :
    State.Within (Touch n) s (s.postTo dev cc sig set v) := by
  unfold State.postTo
  split
  · exact within_postSig n _ _ _ hn hs
  · unfold State.send
    split
    · exact within_postSig n _ _ _ hn hs
    · exact within_sendVia n _ _ rfl hn

theorem within_releasePosts (n : Nat) (ps : List HeldPost) (hn : n < 28) : State.Within (Touch n) s (s.releasePosts n ps) := by
  induction ps generalizing s with
  | nil => exact .refl _ s
  | cons p ps ih =>
    unfold State.releasePosts
    split
    · exact .refl _ s
    · extract_lets u
      have hu : State.Within (Touch n) s u := within_modCh
      clear_value u
      exact hu.trans ((within_postTo n _ _ _ _ _ hn p.sig.isLt).trans ih)

theorem within_tryPosts (n : Nat) (hn : n < 28) : State.Within (Touch n) s (s.tryPosts n) := within_releasePosts n _ hn

theorem within_raise (n pc tag : Nat) (f : Flags) : State.Within (Own n) s (s.raise n pc tag f) := by
  unfold State.raise
  extract_lets s1 s2 s3
  have h1 : State.Within (Own n) s s1 := within_ite (within_put (by simp [Own, bundleFields])) (.refl _ _)
  have h2 : State.Within (Own n) s1 s2 := within_ite (within_put (by simp [Own, bundleFields])) (.refl _ _)
  have h3 : State.Within (Own n) s2 s3 := within_ite (within_put (by simp [Own, bundleFields])) (.refl _ _)
  have h := h1.trans (h2.trans h3)
  clear_value s3
  split
  · exact h.trans within_modCh
  · exact h

theorem within_upset (n pc tag : Nat) (u : Upset) : State.Within (Own n) s (s.upset n pc tag u) := by
  unfold State.upset
  split
  · exact (within_countSat (by simp [Own, bundleFields])).trans within_modCh
  · extract_lets c m w t
    have h : State.Within (Own n) s t := within_setCh.trans (within_puts (by
      intro e he
      simp only [List.mem_cons, List.not_mem_nil, or_false] at he
      rcases he with rfl | rfl
      · simp [Own, bundleFields]
      · simp [Own, bundleFields]))
    clear_value t
    split
    · exact h.trans (within_put (by simp [Own, bundleFields]))
    · exact h

theorem within_upsets (n pc tag : Nat) (l : List Upset) : State.Within (Own n) s (s.upsets n pc tag l) := by
  induction l generalizing s with
  | nil => exact .refl _ s
  | cons u l ih =>
    unfold State.upsets
    exact (within_upset n pc tag u).trans ih

theorem within_accUpset (n pc tag : Nat) (u : AccUpset) : State.Within (Own n) s (s.accUpset n pc tag u) := by
  unfold State.accUpset
  split
  · refine State.Within.trans ?_ within_modCh
    refine (within_countSat (by simp [Own, bundleFields])).trans (within_puts ?_)
    intro e he
    split at he
    all_goals
      simp only [List.mem_cons, List.not_mem_nil, or_false] at he
      rcases he with rfl | rfl
      · simp [Own, bundleFields]
      · simp [Own, bundleFields]
  · exact within_countSat (by simp [Own, bundleFields])

theorem within_accUpsets (n pc tag : Nat) (l : List AccUpset) : State.Within (Own n) s (s.accUpsets n pc tag l) := by
  induction l generalizing s with
  | nil => exact .refl _ s
  | cons u l ih =>
    unfold State.accUpsets
    exact (within_accUpset n pc tag u).trans ih

theorem within_put_congr {P : Nat → Prop} {s u : State} (f : FieldRef) (v : Nat) (h : State.Within P s u) :
    State.Within P (s.put f v) (u.put f v) := by
  refine ⟨h.1, h.2.1, fun k hk => ?_⟩
  unfold State.put
  rw [mapFind_insert, mapFind_insert]
  split
  · rfl
  · exact h.2.2 k hk

/-- The state with the registers that a bundle that is taken writes itself: the shadow's state and type for ld.w, and the PC it leaves
(R34, R39, R77). -/
def State.nextRegs (s : State) (n : Nat) (b : Bundle) (v : Live) : State :=
  (if v.l && b.lop == 5 then s.puts [(Reg.CHn_WTILE_SHADOW n, 1), (Reg.CHn_WTILE_SHADOW_TYPE n, dType ((s.ch n).dreg b.l.dsc))] else s).put
    (Reg.CHn_STATUS_PC n) ((s.ch n).nextPc (s.chPc n) b v)

/-- The registers that a bundle that is taken writes: those of `nextRegs`, RUN, and what accompanies the bundle. -/
theorem within_takeBundle (n : Nat) (b : Bundle) (v : Live) (hn : n < 28) :
    State.Within (Touch n) (s.nextRegs n b v) (s.takeBundle n b v) := by
  unfold State.takeBundle State.nextRegs
  extract_lets c0 pc slotF
  generalize c0.doBundle pc b v (s.chCycles n) (s.flag slotF) = r
  obtain ⟨c, f⟩ := r
  dsimp only
  refine State.Within.trans ?_ (within_tryPosts n hn)
  refine State.Within.trans (t := State.raise _ n pc 0 f) ?_ (within_ite within_modCh (.refl _ _))
  refine State.Within.trans ?_ ((within_raise n pc 0 f).mono fun _ => own_touch)
  rw [State.puts_cons, State.puts_cons, State.puts_nil]
  refine within_put_congr _ _ (State.Within.trans ?_ (within_put (.inr (.inr (.inr (.inr (.inl ⟨n, hn, rfl⟩)))))))
  · by_cases hv : (v.l && b.lop == 5) = true
    · rw [if_pos hv, if_pos hv]
      unfold State.beginLoad
      dsimp only
      have h : State.Within (Touch n) (s.puts [(Reg.CHn_WTILE_SHADOW n, 1), (Reg.CHn_WTILE_SHADOW_TYPE n, dType (c0.dreg b.l.dsc))])
          (((s.setCh n c).puts [(Reg.CHn_WTILE_SHADOW n, 1), (Reg.CHn_WTILE_SHADOW_TYPE n, dType (c0.dreg b.l.dsc))]).modCh n fun c =>
            { c with loadBegin := ((s.setCh n c).puts
              [(Reg.CHn_WTILE_SHADOW n, 1), (Reg.CHn_WTILE_SHADOW_TYPE n, dType (c0.dreg b.l.dsc))]).aclk }) := by
        refine State.Within.trans (t := (s.setCh n c).puts [(Reg.CHn_WTILE_SHADOW n, 1), (Reg.CHn_WTILE_SHADOW_TYPE n, dType (c0.dreg b.l.dsc))]) ?_ within_modCh
        exact within_put_congr _ _ (within_put_congr _ _ within_setCh)
      refine within_ite (h.trans (within_put ?_)) h
      split
      · exact .inr (.inr (.inr (.inr (.inr (.inr (.inr rfl))))))
      · exact .inr (.inr (.inr (.inr (.inr (.inr (.inl rfl))))))
    · rw [if_neg hv, if_neg hv]; exact within_setCh

/-- Beyond the bundle's own effect, ECC errors write the chamber's own registers alone. -/
theorem within_issue_ecc {n : Nat} {i : Issue} (h : s.Takes n i) :
    State.Within (Own n) (s.takeBundle n i.bundle ((s.ch n).live i.bundle)) (s.issue n i) := by
  rw [issue_takes h]
  exact ((within_upsets n _ _ _).trans (within_accUpsets n _ _ _)).trans (within_upsets n _ _ _)

theorem within_issue {n : Nat} {i : Issue} (h : s.Takes n i) (hn : n < 28) :
    State.Within (Touch n) (s.nextRegs n i.bundle ((s.ch n).live i.bundle)) (s.issue n i) := by
  exact (within_takeBundle n _ _ hn).trans ((within_issue_ecc h).mono fun _ => own_touch)

/-- The PC after a bundle that is taken (R34, R39). -/
theorem issue_pc {n : Nat} {i : Issue} (h : s.Takes n i) (hn : n < 28) :
    (s.issue n i).chPc n = (s.ch n).nextPc (s.chPc n) i.bundle ((s.ch n).live i.bundle) % 4096 := by
  unfold State.chPc
  rw [(within_issue h hn).get (not_touch hn (.inl rfl))]
  unfold State.nextRegs
  rw [State.get_put, if_pos rfl]
  rfl

end

end Sys2Proof.Machine
end

