-- ==== Sys2Proof/Laws/Fields.lean ====
section
/-! SUPPORT. Frames over register fields: what lists of fields an update keeps, and states that differ in one chamber alone. -/

namespace Sys2Proof.Machine

open Sys2Proof

theorem keeps_refl (s : State) (fs : List FieldRef) : s.KeepsFields s fs := fun _ _ => rfl

theorem State.KeepsFields.trans {s t u : State} {fs : List FieldRef} (h : s.KeepsFields t fs) (k : t.KeepsFields u fs) :
    s.KeepsFields u fs := fun f hf => (k f hf).trans (h f hf)

theorem State.KeepsFields.mono {s t : State} {fs gs : List FieldRef} (h : s.KeepsFields t fs) (hs : ∀ f ∈ fs, f ∈ gs) :
    s.KeepsFields t gs := fun f hf => h f fun hm => hf (by
  obtain ⟨g, hg, he⟩ := List.mem_map.mp hm
  exact List.mem_map.mpr ⟨g, hs g hg, he⟩)

/-- A write of a field that the list names keeps the rest. -/
theorem State.KeepsFields.put {s t : State} {fs : List FieldRef} (h : s.KeepsFields t fs) {f : FieldRef} {v : Nat} (hf : f ∈ fs) :
    s.KeepsFields (t.put f v) fs := fun g hg => by
  have hk : g.key ≠ f.key := fun he => hg (by rw [he]; exact List.mem_map_of_mem hf)
  exact (State.get_put_ne hk).trans (h g hg)

/-- The fields kept depend on the register fields, the image and the straps alone. -/
theorem State.KeepsFields.of_fields {s t u : State} {fs : List FieldRef} (h : s.KeepsFields t fs) (hf : u.fields = t.fields)
    (hi : u.image = t.image) (hs : u.straps = t.straps) : s.KeepsFields u fs := fun g hg => by
  rw [State.get_of_fields hf hi hs, h g hg]

theorem State.KeepsFields.puts {s : State} {fs : List FieldRef} (l : List (FieldRef × Nat)) : ∀ {t : State}, s.KeepsFields t fs →
    (∀ e ∈ l, e.1 ∈ fs) → s.KeepsFields (t.puts l) fs := by
  induction l with
  | nil => exact fun h _ => h
  | cons e l ih =>
    intro t h hl
    exact ih (h.put (hl _ (List.mem_cons_self ..))) fun e he => hl e (List.mem_cons_of_mem _ he)

/-- A violation writes its counter and its LAST register alone. -/
theorem State.KeepsFields.violate {s t : State} {fs : List FieldRef} (h : s.KeepsFields t fs) {key kind : Nat} {count valid kindOf : FieldRef}
    {rest : List (FieldRef × Nat)} (hc : count ∈ fs) (hv : valid ∈ fs) (hk : kindOf ∈ fs) (hr : ∀ e ∈ rest, e.1 ∈ fs) :
    s.KeepsFields (t.violate key count valid kindOf kind rest) fs := by
  have h' : s.KeepsFields { t.countSat count 1 with violAt := mapSet 0 t.violAt key (t.cycle + 1) } fs :=
    (h.put (v := satAdd count.w (t.get count) 1) hc).of_fields rfl rfl rfl
  unfold State.violate
  dsimp only
  split
  · exact h'
  · refine State.KeepsFields.puts _ h' ?_
    intro e he
    simp only [List.mem_cons] at he
    obtain rfl | rfl | he := he
    · exact hv
    · exact hk
    · exact hr e he

theorem State.KeepsFields.violCh {s t : State} {fs : List FieldRef} (h : s.KeepsFields t fs) {n k a : Nat}
    (hf : ∀ f ∈ violFields n, f ∈ fs) : s.KeepsFields (t.violCh n k a) fs :=
  h.violate (hf _ (by simp [violFields])) (hf _ (by simp [violFields])) (hf _ (by simp [violFields])) (by
    intro e he
    obtain rfl := List.mem_singleton.mp he
    exact hf _ (by simp [violFields]))

theorem State.KeepsFields.violGlb {s t : State} {fs : List FieldRef} (h : s.KeepsFields t fs) {g k a : Nat}
    (hf : ∀ f ∈ globalViolFields, f ∈ fs) : s.KeepsFields (t.violGlb g k a) fs :=
  h.violate (hf _ (by simp [globalViolFields])) (hf _ (by simp [globalViolFields])) (hf _ (by simp [globalViolFields])) (by
    intro e he
    simp only [List.mem_cons, List.not_mem_nil, or_false] at he
    obtain rfl | rfl := he <;> exact hf _ (by simp [globalViolFields]))

theorem State.KeepsFields.ite {s t u : State} {fs : List FieldRef} {p : Prop} [Decidable p] (h : s.KeepsFields t fs)
    (k : s.KeepsFields u fs) : s.KeepsFields (if p then t else u) fs := by split <;> assumption

theorem ch_modCh {s : State} {n m : Nat} {g : Chamber → Chamber} : (s.modCh n g).ch m = if m = n then g (s.ch n) else s.ch m := by
  unfold State.modCh; rw [State.ch_setCh]

theorem ch_modCh_eq {s : State} {n : Nat} {g : Chamber → Chamber} : (s.modCh n g).ch n = g (s.ch n) := by rw [ch_modCh, if_pos rfl]

theorem puts_eq (s : State) (l : List (FieldRef × Nat)) : s.puts l = { s with fields := (s.puts l).fields } := by
  induction l generalizing s with
  | nil => rfl
  | cons e l ih => exact (ih (s.put e.1 e.2)).trans rfl

/-- A violation changes fields and the marks of counted violations alone. -/
theorem violate_eq (s : State) (key : Nat) (count valid kindOf : FieldRef) (kind : Nat) (rest : List (FieldRef × Nat)) :
    s.violate key count valid kindOf kind rest =
      { s with fields := (s.violate key count valid kindOf kind rest).fields, violAt := mapSet 0 s.violAt key (s.cycle + 1) } := by
  unfold State.violate
  dsimp only
  split
  · rfl
  · conv_lhs => rw [puts_eq]
    rfl

@[simp] theorem ch_violCh {s : State} {n k a m : Nat} : (s.violCh n k a).ch m = s.ch m := by
  unfold State.violCh; rw [violate_eq]; rfl
@[simp] theorem ch_count {s : State} {f : FieldRef} {v m : Nat} : (s.count f v).ch m = s.ch m := rfl

theorem get_modCh {s : State} {n : Nat} {g : Chamber → Chamber} {f : FieldRef} : (s.modCh n g).get f = s.get f := rfl

theorem only_refl (s : State) (n : Nat) : s.OnlyChamber s n := ⟨rfl, fun _ _ => rfl⟩

theorem State.OnlyChamber.trans {s t u : State} {n : Nat} (h : s.OnlyChamber t n) (k : t.OnlyChamber u n) : s.OnlyChamber u n := by
  refine ⟨?_, fun m hm => (k.2 m hm).trans (h.2 m hm)⟩
  rw [k.1]
  conv_lhs => rw [h.1]

theorem State.OnlyChamber.put {s t : State} {n : Nat} (h : s.OnlyChamber t n) (f : FieldRef) (v : Nat) : s.OnlyChamber (t.put f v) n :=
  h.trans ⟨rfl, fun _ _ => rfl⟩

theorem State.OnlyChamber.setCh {s t : State} {n : Nat} (h : s.OnlyChamber t n) (c : Chamber) : s.OnlyChamber (t.setCh n c) n :=
  h.trans ⟨rfl, fun m hm => by rw [State.ch_setCh, if_neg hm]⟩

theorem State.OnlyChamber.modCh {s t : State} {n : Nat} (h : s.OnlyChamber t n) (f : Chamber → Chamber) : s.OnlyChamber (t.modCh n f) n :=
  h.setCh _

theorem State.OnlyChamber.puts {s : State} {n : Nat} (l : List (FieldRef × Nat)) : ∀ {t : State}, s.OnlyChamber t n →
    s.OnlyChamber (t.puts l) n := by
  induction l with
  | nil => exact fun h => h
  | cons e l ih => exact fun h => ih (h.put e.1 e.2)

theorem State.OnlyChamber.violCh {s t : State} {n : Nat} (h : s.OnlyChamber t n) (m k a : Nat) : s.OnlyChamber (t.violCh m k a) n :=
  h.trans ⟨by unfold State.violCh; rw [violate_eq], fun _ _ => ch_violCh⟩

theorem State.OnlyChamber.ite {s t u : State} {n : Nat} {p : Prop} [Decidable p] (h : s.OnlyChamber t n) (k : s.OnlyChamber u n) :
    s.OnlyChamber (if p then t else u) n := by split <;> assumption

/-! ## Flags, ECC errors and halts of one chamber -/

theorem only_halt {s t : State} {n : Nat} (h : s.OnlyChamber t n) (r : HaltRec) : s.OnlyChamber (t.halt n r) n := h.modCh _

theorem only_fail {s t : State} {n : Nat} (h : s.OnlyChamber t n) (a b c d : Nat) : s.OnlyChamber (t.fail n a b c d) n := only_halt h _

theorem only_raise {s t : State} {n : Nat} (h : s.OnlyChamber t n) (pc tag : Nat) (f : Flags) : s.OnlyChamber (t.raise n pc tag f) n := by
  unfold State.raise
  extract_lets s1 s2 s3
  have h1 : s.OnlyChamber s1 n := .ite (h.put _ _) h
  have h2 : s.OnlyChamber s2 n := .ite (h1.put _ _) h1
  have h3 : s.OnlyChamber s3 n := .ite (h2.put _ _) h2
  clear_value s3
  exact .ite (only_fail h3 _ _ _ _) h3

theorem only_upset {s t : State} {n : Nat} (h : s.OnlyChamber t n) (pc tag : Nat) (u : Upset) : s.OnlyChamber (t.upset n pc tag u) n := by
  unfold State.upset
  extract_lets c m w t'
  have h' : s.OnlyChamber t' n := State.OnlyChamber.puts _ (h.setCh _)
  clear_value t'
  exact .ite (only_fail (h.put _ _) _ _ _ _) (.ite (h'.put _ _) h')

theorem only_upsets {s : State} {n pc tag : Nat} (l : List Upset) : ∀ {t : State}, s.OnlyChamber t n → s.OnlyChamber (t.upsets n pc tag l) n := by
  induction l with
  | nil => exact fun h => h
  | cons u l ih => exact fun h => ih (only_upset h pc tag u)

theorem only_accUpset {s t : State} {n : Nat} (h : s.OnlyChamber t n) (pc tag : Nat) (u : AccUpset) : s.OnlyChamber (t.accUpset n pc tag u) n := by
  unfold State.accUpset
  exact .ite (only_fail (State.OnlyChamber.puts _ (h.put _ _)) _ _ _ _) (h.put _ _)

theorem only_accUpsets {s : State} {n pc tag : Nat} (l : List AccUpset) : ∀ {t : State}, s.OnlyChamber t n → s.OnlyChamber (t.accUpsets n pc tag l) n := by
  induction l with
  | nil => exact fun h => h
  | cons u l ih => exact fun h => ih (only_accUpset h pc tag u)

/-! ## The error log -/

/-- The keys of Lantern's error-log registers. -/
def LogKeys (k : Nat) : Prop := 0x6800000 * 64 ≤ k ∧ k < 0x6820000 * 64

theorem within_putLogWords_log {s : State} (i k : Nat) (ws : List Nat) (hi : i < 1024) (hk : k + ws.length ≤ 8) :
    State.Within LogKeys s (s.putLogWords i k ws) := by
  induction ws generalizing s k with
  | nil => exact .refl _ s
  | cons w ws ih =>
    unfold State.putLogWords
    rw [List.length_cons] at hk
    exact (within_put (by simp only [LogKeys, FieldRef.key, Reg.ERR_LOGi_Wk_WORD]; omega)).trans (ih (k + 1) (by omega))

/-- A log entry writes the error-log registers alone. -/
theorem within_logErr_log {s : State} (e : LogEntry) : State.Within LogKeys s (s.logErr e) := by
  unfold State.logErr
  extract_lets seq ws s1 s2 s3
  have h1 : State.Within LogKeys s s1 := within_putLogWords_log _ 0 _ (Nat.mod_lt _ (by decide)) (by simp [ws, logWords])
  have h2 : State.Within LogKeys s1 s2 := within_count (by simp only [LogKeys, FieldRef.key, Reg.ERR_STATUS_WRITTEN]; omega)
  have h3 : State.Within LogKeys s2 s3 := within_put (by simp only [LogKeys, FieldRef.key, Reg.ERR_STATUS_MAX_SEV]; omega)
  have h := h1.trans (h2.trans h3)
  clear_value s3
  exact within_ite (h.trans within_raiseIrq) h

theorem putLogWords_written {s : State} (i k : Nat) (ws : List Nat) (hk : k + ws.length ≤ 8) :
    (s.putLogWords i k ws).get Reg.ERR_STATUS_WRITTEN = s.get Reg.ERR_STATUS_WRITTEN := by
  induction ws generalizing s k with
  | nil => rfl
  | cons w ws ih =>
    unfold State.putLogWords
    rw [List.length_cons] at hk
    rw [ih (k + 1) (by omega), State.get_put_ne]
    simp only [FieldRef.key, Reg.ERR_LOGi_Wk_WORD, Reg.ERR_STATUS_WRITTEN]; omega

/-- A log entry is counted. -/
theorem logErr_written (s : State) (e : LogEntry) :
    (s.logErr e).get Reg.ERR_STATUS_WRITTEN = (s.get Reg.ERR_STATUS_WRITTEN + 1) % 2 ^ 32 := by
  have h0 : ∀ t : State, (t.raiseIrq 2).get Reg.ERR_STATUS_WRITTEN = t.get Reg.ERR_STATUS_WRITTEN := fun _ => rfl
  have key : Reg.ERR_STATUS_WRITTEN.key ≠ Reg.ERR_STATUS_MAX_SEV.key := by simp
  unfold State.logErr
  extract_lets seq ws s1 s2 s3
  have h1 : s1.get Reg.ERR_STATUS_WRITTEN = s.get Reg.ERR_STATUS_WRITTEN := putLogWords_written _ _ _ (by simp [ws, logWords])
  have h3 : s3.get Reg.ERR_STATUS_WRITTEN = (s.get Reg.ERR_STATUS_WRITTEN + 1) % 2 ^ 32 := by
    show (s2.put _ _).get _ = _
    rw [State.get_put_ne key, ← h1]
    show (s1.put _ _).get _ = _
    rw [State.get_put_eq]; rfl
  clear_value s3
  split
  · rw [h0, h3]
  · exact h3

/-- Only registers and MSI-X raises differ. -/
def State.Logged (s t : State) : Prop := t = { s with fields := t.fields, irq := t.irq }

theorem logged_refl (s : State) : s.Logged s := rfl

theorem State.Logged.trans {s t u : State} (h : s.Logged t) (k : t.Logged u) : s.Logged u := by
  unfold State.Logged at *
  rw [k]
  conv_lhs => rw [h]

theorem logged_put (s : State) (f : FieldRef) (v : Nat) : s.Logged (s.put f v) := rfl

theorem logged_putLogWords (i k : Nat) (ws : List Nat) : ∀ s : State, s.Logged (s.putLogWords i k ws) := by
  induction ws generalizing k with
  | nil => exact logged_refl
  | cons w ws ih => exact fun s => (logged_put s _ _).trans (ih (k + 1) _)

/-- A log entry changes registers and, with its interrupt, the MSI-X raises alone. -/
theorem logged_logErr (s : State) (e : LogEntry) : s.Logged (s.logErr e) := by
  unfold State.logErr
  extract_lets seq ws s1 s2 s3
  have h1 : s.Logged s1 := logged_putLogWords _ _ _ _
  have h2 : s.Logged s2 := h1.trans (logged_put _ _ _)
  have h3 : s.Logged s3 := h2.trans (logged_put _ _ _)
  clear_value s3
  split
  · exact h3.trans rfl
  · exact h3

theorem logErr_eq (s : State) (e : LogEntry) : s.logErr e = { s with fields := (s.logErr e).fields, irq := (s.logErr e).irq } :=
  logged_logErr s e

@[simp] theorem ch_logErr (s : State) (e : LogEntry) (m : Nat) : (s.logErr e).ch m = s.ch m := by rw [logErr_eq]; rfl

/-- A field outside the error log reads as before. -/
theorem logErr_get {s : State} {e : LogEntry} {f : FieldRef} (h : f.key < 0x6800000 * 64 ∨ 0x6820000 * 64 ≤ f.key) :
    (s.logErr e).get f = s.get f := (within_logErr_log e).get (by unfold LogKeys; omega)

/-! ## Violations (R154, R389) -/

theorem satAdd_one (w x : Nat) : satAdd w x 1 % 2 ^ w = min (x + 1) (2 ^ w - 1) := by
  have hp : 0 < 2 ^ w := Nat.two_pow_pos w
  unfold satAdd
  by_cases h : x + 1 < 2 ^ w
  · rw [if_pos h, Nat.mod_eq_of_lt h]; omega
  · rw [if_neg h, Nat.mod_eq_of_lt (by omega)]; omega

/-- Fields written once each read as written. -/
theorem puts_get (l : List (FieldRef × Nat)) (hl : (l.map (·.1)).Pairwise fun f g => f.key ≠ g.key) :
    ∀ s : State, ∀ e ∈ l, (s.puts l).get e.1 = e.2 % 2 ^ e.1.w := by
  induction l with
  | nil => exact fun _ _ he => nomatch he
  | cons x l ih =>
    intro s e he
    obtain ⟨hx, hl⟩ := List.pairwise_cons.mp hl
    obtain rfl | he := List.mem_cons.mp he
    · refine ((keeps_refl (s.put e.1 e.2) (l.map (·.1))).puts l (fun e he => List.mem_map_of_mem he) e.1 ?_).trans State.get_put_eq
      intro hm
      obtain ⟨g, hg, hk⟩ := List.mem_map.mp hm
      exact hx g hg hk.symm
    · exact ih hl _ e he

/-- A violation is counted, recorded unless one of a lower KIND was counted in the same cycle, and changes nothing else. -/
theorem counts_violate (s : State) (key : Nat) (count valid kindOf : FieldRef) (kind : Nat) (rest : List (FieldRef × Nat))
    (hw : count.w = 32) (hn : (count :: valid :: kindOf :: rest.map (·.1)).Pairwise fun f g => f.key ≠ g.key)
    (hk : kind < 2 ^ kindOf.w) (hv : valid.w = 1) :
    s.Counts (s.violate key count valid kindOf kind rest) key count valid kindOf kind (rest.map fun e => (e.1, e.2 % 2 ^ e.1.w)) := by
  obtain ⟨hc, hp⟩ := List.pairwise_cons.mp hn
  have hkeep : s.keepsLast key valid kindOf kind = true ↔ s.Outranked key valid kindOf kind := by
    simp [State.keepsLast, State.Outranked, State.flag, and_assoc]
  have hsat : satAdd count.w (s.get count) 1 % 2 ^ count.w = min (s.get count + 1) (2 ^ 32 - 1) := by rw [satAdd_one, hw]
  have hviol : ∀ k, mapGet 0 (s.violate key count valid kindOf kind rest).violAt k = if k = key then s.cycle + 1 else mapGet 0 s.violAt k := by
    intro k
    rw [violate_eq]
    show mapGet 0 (mapSet 0 s.violAt key (s.cycle + 1)) k = _
    rw [mapGet_set]
  have heq : s.violate key count valid kindOf kind rest = { s with
      fields := (s.violate key count valid kindOf kind rest).fields, violAt := (s.violate key count valid kindOf kind rest).violAt } := by
    conv_lhs => rw [violate_eq]
    rw [violate_eq]
  have hs' : ∀ f, ({ s.countSat count 1 with violAt := mapSet 0 s.violAt key (s.cycle + 1) } : State).get f = (s.countSat count 1).get f :=
    fun f => State.get_of_fields rfl rfl rfl f
  refine ⟨?_, ?_, ?_, hviol, heq⟩
  · unfold State.violate
    dsimp only
    split
    · rw [hs', ← hsat]
      exact State.get_put_eq
    · refine ((keeps_refl _ (valid :: kindOf :: rest.map (·.1))).puts _ ?_ count ?_).trans ?_
      · intro e he
        simp only [List.mem_cons] at he ⊢
        obtain rfl | rfl | he := he
        · exact .inl rfl
        · exact .inr (.inl rfl)
        · exact .inr (.inr (List.mem_map_of_mem he))
      · intro hm
        obtain ⟨g, hg, he⟩ := List.mem_map.mp hm
        exact hc g hg he.symm
      · rw [hs', ← hsat]
        exact State.get_put_eq
  · intro ho
    unfold State.violate
    rw [if_pos (hkeep.mpr ho)]
    exact ((keeps_refl s _).put (v := satAdd count.w (s.get count) 1) (List.mem_singleton_self count)).of_fields rfl rfl rfl
  · intro ho
    have hall : ∀ e ∈ (valid, 1) :: (kindOf, kind) :: rest, (s.violate key count valid kindOf kind rest).get e.1 = e.2 % 2 ^ e.1.w := by
      unfold State.violate
      rw [if_neg (fun h => ho (hkeep.mp h))]
      exact puts_get ((valid, 1) :: (kindOf, kind) :: rest) hp _
    refine ⟨?_, ?_, ?_, ?_⟩
    · rw [hall (valid, 1) (by simp), hv]; rfl
    · rw [hall (kindOf, kind) (by simp), Nat.mod_eq_of_lt hk]
    · intro e he
      obtain ⟨g, hg, rfl⟩ := List.mem_map.mp he
      exact hall g (by simp [hg])
    · rw [List.map_map]
      exact (keeps_refl s _).violate (by simp) (by simp) (by simp) (by
        intro e he
        simp only [List.mem_cons]
        exact .inr (.inr (.inr (List.mem_map.mpr ⟨e, he, rfl⟩))))

/-- A chamber's violation is counted and recorded, and changes nothing else. -/
theorem counts_violCh (s : State) (n k a : Nat) (hk : k < 2 ^ (Reg.CHn_VIOL_LAST_KIND n).w) : s.CountsViol (s.violCh n k a) n k a :=
  counts_violate s (n + 1) _ _ _ k [(Reg.CHn_VIOL_LAST_ADDR n, a)] rfl (by simp; omega) hk rfl

/-- A violation that is no chamber's is counted and recorded, and changes nothing else. -/
theorem counts_violGlb (s : State) (g k a : Nat) (hg : g < 2 ^ Reg.GLB_VIOL_LAST_AGENT.w) (hk : k < 2 ^ Reg.GLB_VIOL_LAST_KIND.w) :
    s.CountsGlobalViol (s.violGlb g k a) g k a := by
  have h := counts_violate s 0 Reg.GLB_VIOL_COUNT_COUNT Reg.GLB_VIOL_LAST_VALID Reg.GLB_VIOL_LAST_KIND k
    [(Reg.GLB_VIOL_LAST_AGENT, g), (Reg.GLB_VIOL_LAST_ADDR, a)] rfl (by simp) hk rfl
  simp only [List.map_cons, List.map_nil, Nat.mod_eq_of_lt hg] at h
  exact h

theorem flag_eq {s : State} {f : FieldRef} : s.flag f = (s.get f == 1) := rfl

/-- In Run, work that ends Doze and Keep changes nothing. -/
theorem wake_run {s : State} (h : s.InRun) : s.wake = s := by unfold State.wake; rw [if_pos h.1]

end Sys2Proof.Machine
end

