-- ==== Sys2Proof/Laws/Access.lean ====
section
/-! SUPPORT. What a read and a write of the unified range do where nothing stands in their way. -/

namespace Sys2Proof.Machine

open Sys2Proof

/-- What a read leaves: heat, the waits of claims, and the counts of direct and elided reads. -/
def State.Reads (s t : State) : Prop :=
  t = { s with heat := t.heat, claims := t.claims, fields := t.fields } ∧ s.KeepsFields t [Reg.FLS_DIRECT_COUNT, Reg.FLS_ELIDED_COUNT]

/-- What a write leaves: the bytes, and the marks of their granule and page. -/
def State.Writes (s t : State) (a : Nat) (bs : List Byte) : Prop :=
  t = { s with mem := t.mem, nonzero := t.nonzero, poison := t.poison, heat := t.heat, claims := t.claims, mirrorQ := t.mirrorQ, fields := t.fields } ∧
  s.KeepsFields t [Reg.FLS_ELIDED_COUNT] ∧ s.Stores t a bs

/-- An access warms its page and ends its own wait, and changes nothing else. -/
theorem warm_eq (s : State) (a : Nat) : s.warm a = { s with heat := (s.warm a).heat, claims := (s.warm a).claims } := by
  unfold State.warm State.passed
  split <;> rfl

theorem warm_reads (s : State) (a : Nat) : s.Reads (s.warm a) := by
  refine ⟨?_, fun f _ => ?_⟩
  · conv_lhs => rw [warm_eq]
    rw [show (s.warm a).fields = s.fields by rw [warm_eq]]
  · rw [warm_eq]; rfl

/-- A unit's access in a bank that no claim holds comes at once. -/
theorem enterBank_free {s : State} {a : Nat} (h : s.blockingClaim none a = none) : s.enterBank a = s := by
  unfold State.enterBank; rw [h]

theorem readAs_ok {s : State} {a : Nat} (h : s.Readable a) (g n : Nat) :
    ∃ t, s.readAs g a n = (memRead s.mem a n, false, t) ∧ s.Reads t := by
  obtain ⟨h1, h2, h3⟩ := h
  unfold State.readAs
  rw [h2, h1, h3]
  simp only [Bool.false_eq_true, if_false, if_true]
  have hw : s.Reads (s.warm a) := warm_reads s a
  have hp : ∀ (u : State) (f : FieldRef) (v : Nat), s.Reads u → f ∈ [Reg.FLS_DIRECT_COUNT, Reg.FLS_ELIDED_COUNT] → s.Reads (u.count f v) := by
    intro u f v hu hf
    refine ⟨?_, hu.2.put hf⟩
    unfold State.count
    show { u with fields := _ } = _
    rw [hu.1]; rfl
  split
  · split
    · exact ⟨_, rfl, hp _ _ _ hw (by simp)⟩
    · exact ⟨_, rfl, hp _ _ _ hw (by simp)⟩
  · exact ⟨_, rfl, hw⟩

theorem readIn_ok {s : State} {a : Nat} (h : s.Readable a) (hc : s.blockingClaim none a = none) (n : Nat) :
    ∃ t, s.readIn a n = (memRead s.mem a n, false, t) ∧ s.Reads t := by
  unfold State.readIn
  rw [enterBank_free hc]
  exact readAs_ok h 3 n

theorem storeAs_ok (s : State) (whole : Bool) (a : Nat) (bs : List Byte) : s.Writes (s.storeAs whole a bs) a bs := by
  have h0 : ∀ u : State, s.Writes u a bs → s.Writes (u.noteMirror a) a bs := by
    intro u hu
    unfold State.noteMirror
    split
    · refine ⟨?_, hu.2.1, hu.2.2⟩
      conv_lhs => rw [hu.1]
    · exact hu
  have h1 : ∀ u : State, s.Writes u a bs → s.Writes (if whole = true then u.setPoison (granuleOf a) false else u) a bs := by
    intro u hu
    split
    · refine ⟨?_, hu.2.1, hu.2.2⟩
      unfold State.setPoison
      conv_lhs => rw [hu.1]
    · exact hu
  have h2 : ∀ (u : State) (z : Bool), u.mem = s.mem → u = { s with fields := u.fields } → s.KeepsFields u [Reg.FLS_ELIDED_COUNT] →
      s.Writes { u with mem := memWrite u.mem a bs, nonzero := mapSet false u.nonzero (granuleOf a) z } a bs := by
    intro u z hm hu hk
    refine ⟨?_, hk, fun b => ?_⟩
    · obtain ⟨fl, rfl⟩ : ∃ fl, u = { s with fields := fl } := ⟨_, hu⟩
      rfl
    · show memByte (memWrite u.mem a bs) b = _
      rw [memByte_write, hm]
  unfold State.storeAs
  extract_lets zero g s1 s2 s3
  have hs : s1 = s.count Reg.FLS_ELIDED_COUNT 1 ∨ s1 = s := by
    simp only [s1]
    split
    · exact .inl rfl
    · exact .inr rfl
  have hk : s.KeepsFields s1 [Reg.FLS_ELIDED_COUNT] := State.KeepsFields.ite ((keeps_refl s _).put (by simp)) (keeps_refl s _)
  clear_value s1
  refine h0 _ (h1 _ (h2 s1 _ ?_ ?_ hk)) <;> rcases hs with rfl | rfl <;> rfl

theorem State.Reads.writes {s u t : State} {a : Nat} {bs : List Byte} (h : s.Reads u) (hf : s.KeepsFields u [Reg.FLS_ELIDED_COUNT])
    (k : u.Writes t a bs) : s.Writes t a bs := by
  refine ⟨?_, hf.trans k.2.1, fun b => ?_⟩
  · conv_lhs => rw [k.1]
    conv_lhs => rw [h.1]
  · rw [k.2.2 b, h.1]

theorem writeAs_ok {s : State} {a : Nat} (h : s.Writable a) {bs : List Byte} (hb : bs ≠ []) (g : Nat) (twin whole : Bool) :
    ∃ t, s.writeAs g twin whole a bs = (.done, t) ∧ s.Writes t a bs := by
  obtain ⟨h1, h2, h3, h4, h5⟩ := h
  unfold State.writeAs
  rw [if_neg hb, h2, h1, h3, h4, h5]
  simp only [Bool.false_eq_true, if_false, Bool.not_true, Bool.and_false, Bool.false_and, if_true]
  exact ⟨_, rfl, (warm_reads s a).writes (fun f _ => by rw [warm_eq]; rfl) (storeAs_ok _ whole a bs)⟩

theorem State.Reads.ch {s t : State} (h : s.Reads t) (n : Nat) : t.ch n = s.ch n := by rw [h.1]; rfl
theorem State.Reads.mem {s t : State} (h : s.Reads t) : t.mem = s.mem := by rw [h.1]
theorem State.Writes.ch {s t : State} {a : Nat} {bs : List Byte} (h : s.Writes t a bs) (n : Nat) : t.ch n = s.ch n := by rw [h.1]; rfl

end Sys2Proof.Machine
end

