-- ==== Sys2Proof/Laws/Bits.lean ====
section
/-! SUPPORT. Bits of numbers: what adding, clearing and setting one of them does to the others. -/

namespace Sys2Proof.Machine

open Sys2Proof

/-- Adding a power of two whose bit is clear sets that bit alone. -/
theorem bit_add_two_pow {x n : Nat} (h : x / 2 ^ n % 2 = 0) (m : Nat) : bit (x + 2 ^ n) m = (decide (m = n) || bit x m) := by
  have p := Nat.two_pow_pos n
  rcases Nat.lt_trichotomy m n with hm | rfl | hm
  · have : (x + 2 ^ n) / 2 ^ m = x / 2 ^ m + 2 * 2 ^ (n - m - 1) := by
      rw [show x + 2 ^ n = x + 2 ^ m * (2 * 2 ^ (n - m - 1)) by rw [← pow_succ', ← pow_add]; congr 2; omega, Nat.add_mul_div_left _ _ (Nat.two_pow_pos m)]
    unfold bit; rw [this]; simp [Nat.ne_of_lt hm, Nat.add_mod]
  · have : (x + 2 ^ m) / 2 ^ m = x / 2 ^ m + 1 := Nat.add_div_right _ p
    unfold bit; rw [this]; simp; omega
  · have e : ∀ y, y / 2 ^ m = y / 2 ^ n / 2 / 2 ^ (m - n - 1) := by
      intro y; rw [Nat.div_div_eq_div_mul, Nat.div_div_eq_div_mul]; congr 1; rw [← pow_succ', ← pow_add]; congr 1; omega
    have : (x + 2 ^ n) / 2 ^ n / 2 = x / 2 ^ n / 2 := by rw [Nat.add_div_right _ p]; omega
    unfold bit; rw [e, this, ← e]; simp [Nat.ne_of_gt hm]

theorem bit_mod {x m w : Nat} (h : m < w) : bit (x % 2 ^ w) m = bit x m := by
  have e : ∀ y, bit y m = y.testBit m := fun y => by rw [Nat.testBit_eq_decide_div_mod_eq]; rfl
  rw [e, e, Nat.testBit_mod_two_pow]; simp [h]

theorem bit_bv {w : Nat} (x : BitVec w) (m : Nat) : bit x.toNat m = x.getLsbD m := by
  rw [BitVec.getLsbD, Nat.testBit_eq_decide_div_mod_eq]; rfl

theorem bits_lt (x hi lo : Nat) : bits x hi lo < 2 ^ (hi + 1 - lo) := Nat.mod_lt _ (Nat.two_pow_pos _)

/-- Taking off a power of two whose bit is set clears that bit alone. -/
theorem bit_sub_two_pow {x n : Nat} (h : x / 2 ^ n % 2 = 1) (m : Nat) : bit (x - 2 ^ n) m = (decide (m ≠ n) && bit x m) := by
  have hle : 2 ^ n ≤ x := by
    by_contra hc; rw [Nat.div_eq_of_lt (by omega)] at h; omega
  have hy : (x - 2 ^ n) / 2 ^ n % 2 = 0 := by
    have := Nat.add_div_right (x - 2 ^ n) (Nat.two_pow_pos n)
    rw [Nat.sub_add_cancel hle] at this; omega
  have h2 := bit_add_two_pow hy m
  rw [Nat.sub_add_cancel hle] at h2
  by_cases e : m = n
  · subst e; unfold bit; simp [hy]
  · rw [h2]; simp [e]

/-- One bit replaced. -/
theorem bit_setBits (x i v m : Nat) : bit (setBits x i i v) m = if m = i then v % 2 == 1 else bit x m := by
  have e : i + 1 - i = 1 := by omega
  unfold setBits bits
  rw [e, pow_one]
  have hx : x / 2 ^ i % 2 = 0 ∨ x / 2 ^ i % 2 = 1 := by omega
  have hv : v % 2 = 0 ∨ v % 2 = 1 := by omega
  have key : ∀ y, y / 2 ^ i % 2 = 0 → (∀ m, m ≠ i → bit y m = bit x m) → bit (y + v % 2 * 2 ^ i) m = if m = i then v % 2 == 1 else bit x m := by
    intro y hy hk
    rcases hv with h | h
    · rw [h]; simp only [Nat.zero_mul, Nat.add_zero]
      by_cases c : m = i
      · subst c; rw [if_pos rfl]; unfold bit; rw [hy]
      · rw [if_neg c, hk m c]
    · rw [h]; simp only [Nat.one_mul]
      rw [bit_add_two_pow hy]
      by_cases c : m = i
      · subst c; simp
      · simp [c, hk m c]
  rcases hx with h | h
  · rw [h]; simp only [Nat.zero_mul, Nat.sub_zero]
    exact key x h fun _ _ => rfl
  · rw [h]; simp only [Nat.one_mul]
    refine key (x - 2 ^ i) ?_ fun m hm => ?_
    · have := bit_sub_two_pow h i
      unfold bit at this; simp at this; exact this
    · rw [bit_sub_two_pow h]; simp [hm]

end Sys2Proof.Machine
end

