-- ==== Sys2Proof/Laws/BundleBits.lean ====
section
/-! SUPPORT. A bundle's 512 bits read back as the bundle, and a helictite instruction's 64 bits as the instruction. -/

namespace Sys2Proof.Machine

open Sys2Proof

/-- A field is the value that stands at its place. -/
theorem field_eq {w : Nat} (v : BitVec w) (x lo : Nat) (h : x / 2 ^ lo % 2 ^ w = v.toNat) : field w x lo = v :=
  BitVec.eq_of_toNat_eq (by rw [field, BitVec.toNat_ofNat, h])

/-- A one-bit field is the bit that stands at its place. -/
theorem flagAt_eq (b : Bool) (x i : Nat) (h : x / 2 ^ i % 2 = b2n b) : flagAt x i = b := by
  rw [flagAt, h]; cases b <;> rfl

theorem b2n_lt (b : Bool) : b2n b < 2 := by cases b <;> decide

/-- The C slot of a bundle's bits, whatever stands above it. -/
theorem readC_wordC (op : BitVec 8) (o : COps) (y : Nat) : readC (wordC op o + y * 2 ^ 64) = (op, o) := by
  have h0 := op.isLt; have h1 := o.guard.isLt; have h2 := o.dev.isLt; have h3 := o.cc.isLt; have h4 := b2n_lt o.i; have h5 := o.sval.isLt
  have h6 := o.imm16.isLt; have h7 := o.sreg.isLt; have h8 := o.target.isLt
  simp only [readC, wordC, placed]
  congr 1
  · exact field_eq _ _ _ (by omega)
  · cases o
    simp only [COps.mk.injEq]
    refine ⟨field_eq _ _ _ ?_, field_eq _ _ _ ?_, field_eq _ _ _ ?_, flagAt_eq _ _ _ ?_, field_eq _ _ _ ?_, field_eq _ _ _ ?_,
      field_eq _ _ _ ?_, field_eq _ _ _ ?_⟩ <;>
      simp only at * <;> omega

/-- A C slot has 64 bits. -/
theorem wordC_lt (op : BitVec 8) (o : COps) : wordC op o < 2 ^ 64 := by
  have h0 := op.isLt; have h1 := o.guard.isLt; have h2 := o.dev.isLt; have h3 := o.cc.isLt; have h4 := b2n_lt o.i; have h5 := o.sval.isLt
  have h6 := o.imm16.isLt; have h7 := o.sreg.isLt; have h8 := o.target.isLt
  simp only [wordC, placed]
  omega

/-- The S slot of a bundle's bits, whatever stands above it. -/
theorem readS_wordS (op : BitVec 8) (o : SOps) (y : Nat) : readS (wordS op o + y * 2 ^ 64) = (op, o) := by
  have h0 := op.isLt; have h1 := o.guard.isLt; have h2 := o.dst.isLt; have h3 := o.sa.isLt; have h4 := o.sb.isLt; have h5 := b2n_lt o.i
  have h6 := o.imm32.isLt
  simp only [readS, wordS, placed]
  congr 1
  · exact field_eq _ _ _ (by omega)
  · cases o
    simp only [SOps.mk.injEq]
    refine ⟨field_eq _ _ _ ?_, field_eq _ _ _ ?_, field_eq _ _ _ ?_, field_eq _ _ _ ?_, flagAt_eq _ _ _ ?_, field_eq _ _ _ ?_⟩ <;>
      simp only at * <;> omega

/-- An S slot has 64 bits. -/
theorem wordS_lt (op : BitVec 8) (o : SOps) : wordS op o < 2 ^ 64 := by
  have h0 := op.isLt; have h1 := o.guard.isLt; have h2 := o.dst.isLt; have h3 := o.sa.isLt; have h4 := o.sb.isLt; have h5 := b2n_lt o.i
  have h6 := o.imm32.isLt
  simp only [wordS, placed]
  omega

/-- The L slot of a bundle's bits, whatever stands above it. -/
theorem readL_wordL (op : BitVec 8) (o : LOps) (y : Nat) : readL (wordL op o + y * 2 ^ 96) = (op, o) := by
  have h0 := op.isLt; have h1 := o.guard.isLt; have h2 := o.dsc.isLt; have h3 := o.dst.isLt; have h4 := o.sa.isLt; have h5 := o.tag.isLt
  have h6 := o.xmode.isLt; have h7 := b2n_lt o.xslot; have h8 := o.imm32.isLt
  simp only [readL, wordL, placed]
  congr 1
  · exact field_eq _ _ _ (by omega)
  · cases o
    simp only [LOps.mk.injEq]
    refine ⟨field_eq _ _ _ ?_, field_eq _ _ _ ?_, field_eq _ _ _ ?_, field_eq _ _ _ ?_, field_eq _ _ _ ?_, field_eq _ _ _ ?_,
      flagAt_eq _ _ _ ?_, field_eq _ _ _ ?_⟩ <;>
      simp only at * <;> omega

/-- An L slot has 96 bits. -/
theorem wordL_lt (op : BitVec 8) (o : LOps) : wordL op o < 2 ^ 96 := by
  have h0 := op.isLt; have h1 := o.guard.isLt; have h2 := o.dsc.isLt; have h3 := o.dst.isLt; have h4 := o.sa.isLt; have h5 := o.tag.isLt
  have h6 := o.xmode.isLt; have h7 := b2n_lt o.xslot; have h8 := o.imm32.isLt
  simp only [wordL, placed]
  omega

/-- The M slot of a bundle's bits, whatever stands above it. -/
theorem readM_wordM (op : BitVec 8) (o : MOps) (y : Nat) : readM (wordM op o + y * 2 ^ 96) = (op, o) := by
  have h0 := op.isLt; have h1 := o.guard.isLt; have h2 := o.atype.isLt; have h3 := o.wtype.isLt; have h4 := o.arr.isLt
  have h5 := b2n_lt o.zero; have h6 := b2n_lt o.maskz; have h7 := b2n_lt o.msk; have h8 := b2n_lt o.swap; have h9 := o.sact.isLt
  have h10 := o.srows.isLt; have h11 := o.sacc.isLt; have h12 := o.smask.isLt; have h13 := o.spitch.isLt
  simp only [readM, wordM, placed]
  congr 1
  · exact field_eq _ _ _ (by omega)
  · cases o
    simp only [MOps.mk.injEq]
    refine ⟨field_eq _ _ _ ?_, field_eq _ _ _ ?_, field_eq _ _ _ ?_, field_eq _ _ _ ?_, flagAt_eq _ _ _ ?_, flagAt_eq _ _ _ ?_,
      flagAt_eq _ _ _ ?_, flagAt_eq _ _ _ ?_, field_eq _ _ _ ?_, field_eq _ _ _ ?_, field_eq _ _ _ ?_, field_eq _ _ _ ?_, field_eq _ _ _ ?_⟩ <;>
      simp only at * <;> omega

/-- A number made of fields lies below the end of its first one. -/
theorem placed_cons_lt {v lo w hi : Nat} {fs : List (Nat × Nat)} (hv : v < 2 ^ w) (hi_eq : lo + w = hi) (hfs : placed fs < 2 ^ lo) :
    placed ((v, lo) :: fs) < 2 ^ hi := by
  subst hi_eq
  have h : (v + 1) * 2 ^ lo ≤ 2 ^ w * 2 ^ lo := Nat.mul_le_mul_right _ hv
  rw [placed, Nat.pow_add, Nat.mul_comm (2 ^ lo)]
  rw [Nat.add_mul, Nat.one_mul] at h
  omega

/-- An M slot has 96 bits. -/
theorem wordM_lt (op : BitVec 8) (o : MOps) : wordM op o < 2 ^ 96 := by
  have hb (b : Bool) : b2n b < 2 ^ 1 := b2n_lt b
  unfold wordM
  exact placed_cons_lt op.isLt rfl (placed_cons_lt o.guard.isLt rfl (placed_cons_lt o.atype.isLt rfl (placed_cons_lt o.wtype.isLt rfl
    (placed_cons_lt o.arr.isLt rfl (placed_cons_lt (hb o.zero) rfl (placed_cons_lt (hb o.maskz) rfl (placed_cons_lt (hb o.msk) rfl
    (placed_cons_lt (hb o.swap) rfl (placed_cons_lt o.sact.isLt rfl (placed_cons_lt o.srows.isLt rfl (placed_cons_lt o.sacc.isLt rfl
    (placed_cons_lt o.smask.isLt rfl (placed_cons_lt o.spitch.isLt rfl (by decide))))))))))))))

/-- The V slot of a bundle's bits, whatever stands above it. -/
theorem readV_wordV (op : BitVec 8) (o : VOps) (y : Nat) : readV (wordV op o + y * 2 ^ 96) = (op, o) := by
  have h0 := op.isLt; have h1 := o.guard.isLt; have h2 := o.vd.isLt; have h3 := o.va.isLt; have h4 := o.vb.isLt; have h5 := o.vc.isLt
  have h6 := o.typ.isLt; have h7 := o.sreg.isLt; have h8 := b2n_lt o.tt; have h9 := b2n_lt o.arr; have h10 := o.idx.isLt
  simp only [readV, wordV, placed]
  congr 1
  · exact field_eq _ _ _ (by omega)
  · cases o
    simp only [VOps.mk.injEq]
    refine ⟨field_eq _ _ _ ?_, field_eq _ _ _ ?_, field_eq _ _ _ ?_, field_eq _ _ _ ?_, field_eq _ _ _ ?_, field_eq _ _ _ ?_,
      field_eq _ _ _ ?_, flagAt_eq _ _ _ ?_, flagAt_eq _ _ _ ?_, field_eq _ _ _ ?_⟩ <;>
      simp only at * <;> omega

/-- A V slot has 96 bits. -/
theorem wordV_lt (op : BitVec 8) (o : VOps) : wordV op o < 2 ^ 96 := by
  have h0 := op.isLt; have h1 := o.guard.isLt; have h2 := o.vd.isLt; have h3 := o.va.isLt; have h4 := o.vb.isLt; have h5 := o.vc.isLt
  have h6 := o.typ.isLt; have h7 := o.sreg.isLt; have h8 := b2n_lt o.tt; have h9 := b2n_lt o.arr; have h10 := o.idx.isLt
  simp only [wordV, placed]
  omega

/-- The T slot of a bundle's bits, whatever stands above it. -/
theorem readT_wordT (op : BitVec 8) (o : TOps) (y : Nat) : readT (wordT op o + y * 2 ^ 96) = (op, o) := by
  have h0 := op.isLt; have h1 := o.guard.isLt; have h2 := o.dsc.isLt; have h3 := o.sa.isLt; have h4 := o.sb.isLt; have h5 := o.tag.isLt
  have h6 := o.otype.isLt; have h7 := b2n_lt o.ieee; have h8 := b2n_lt o.arr; have h9 := b2n_lt o.stats; have h10 := o.sscale.isLt
  have h11 := o.vs.isLt; have h12 := o.imm32.isLt
  simp only [readT, wordT, placed]
  congr 1
  · exact field_eq _ _ _ (by omega)
  · cases o
    simp only [TOps.mk.injEq]
    refine ⟨field_eq _ _ _ ?_, field_eq _ _ _ ?_, field_eq _ _ _ ?_, field_eq _ _ _ ?_, field_eq _ _ _ ?_, field_eq _ _ _ ?_,
      flagAt_eq _ _ _ ?_, flagAt_eq _ _ _ ?_, flagAt_eq _ _ _ ?_, field_eq _ _ _ ?_, field_eq _ _ _ ?_, field_eq _ _ _ ?_⟩ <;>
      simp only at * <;> omega

/-- A T slot has 96 bits. -/
theorem wordT_lt (op : BitVec 8) (o : TOps) : wordT op o < 2 ^ 96 := by
  have h0 := op.isLt; have h1 := o.guard.isLt; have h2 := o.dsc.isLt; have h3 := o.sa.isLt; have h4 := o.sb.isLt; have h5 := o.tag.isLt
  have h6 := o.otype.isLt; have h7 := b2n_lt o.ieee; have h8 := b2n_lt o.arr; have h9 := b2n_lt o.stats; have h10 := o.sscale.isLt
  have h11 := o.vs.isLt; have h12 := o.imm32.isLt
  simp only [wordT, placed]
  omega

/-- The bundle that its 512 bits hold is the bundle (R36). -/
@[simp] theorem readBundle_bundleWord (b : Bundle) : readBundle (bundleWord b) = b := by
  have hc := wordC_lt b.cop b.c; have hs := wordS_lt b.sop b.s; have hl := wordL_lt b.lop b.l
  have hm := wordM_lt b.mop b.m; have hv := wordV_lt b.vop b.v; have ht := wordT_lt b.top b.t
  have e : bundleWord b = wordC b.cop b.c + (wordS b.sop b.s + (wordL b.lop b.l + (wordM b.mop b.m + (wordV b.vop b.v +
      wordT b.top b.t * 2 ^ 96) * 2 ^ 96) * 2 ^ 96) * 2 ^ 64) * 2 ^ 64 := by
    simp only [bundleWord, placed]; omega
  have e1 : bundleWord b / 2 ^ 64 = wordS b.sop b.s + (wordL b.lop b.l + (wordM b.mop b.m + (wordV b.vop b.v +
      wordT b.top b.t * 2 ^ 96) * 2 ^ 96) * 2 ^ 96) * 2 ^ 64 := by omega
  have e2 : bundleWord b / 2 ^ 128 = wordL b.lop b.l + (wordM b.mop b.m + (wordV b.vop b.v + wordT b.top b.t * 2 ^ 96) * 2 ^ 96) * 2 ^ 96 := by
    omega
  have e3 : bundleWord b / 2 ^ 224 = wordM b.mop b.m + (wordV b.vop b.v + wordT b.top b.t * 2 ^ 96) * 2 ^ 96 := by omega
  have e4 : bundleWord b / 2 ^ 320 = wordV b.vop b.v + wordT b.top b.t * 2 ^ 96 := by omega
  have e5 : bundleWord b / 2 ^ 416 = wordT b.top b.t + 0 * 2 ^ 96 := by omega
  simp only [readBundle, e1, e2, e3, e4, e5, readS_wordS, readL_wordL, readM_wordM, readV_wordV, readT_wordT]
  rw [e, readC_wordC]

/-- OP and the fields of a helictite instruction read back from its 64 bits (R216). -/
@[simp] theorem readH_wordH (op : BitVec 8) (o : HOps) : readH (wordH op o) = (op, o) := by
  have h0 := op.isLt; have h1 := o.d.isLt; have h2 := o.a.isLt; have h3 := o.b.isLt; have h4 := o.c.isLt; have h5 := o.mod.isLt
  have h6 := o.imm.isLt
  simp only [readH, wordH, placed, BitVec.toNat_ofNat]
  congr 1
  · exact field_eq _ _ _ (by omega)
  · cases o
    simp only [HOps.mk.injEq]
    refine ⟨field_eq _ _ _ ?_, field_eq _ _ _ ?_, field_eq _ _ _ ?_, field_eq _ _ _ ?_, field_eq _ _ _ ?_, field_eq _ _ _ ?_⟩ <;>
      simp only at * <;> omega

end Sys2Proof.Machine
end

