-- ==== Sys2Proof/Laws/Halt.lean ====
section
/-! SUPPORT. Recorded halts: what leaves them as they are, and what a bundle with halt records. -/

namespace Sys2Proof.Machine

open Sys2Proof

/-- No chamber's recorded halt differs. -/
def State.SameHalt (s t : State) : Prop := ∀ m, (t.ch m).halt = (s.ch m).halt

theorem State.SameHalt.trans {s t u : State} (h : State.SameHalt s t) (k : State.SameHalt t u) : State.SameHalt s u := fun m => (k m).trans (h m)

theorem State.SameHalt.refl (s : State) : State.SameHalt s s := fun _ => rfl

theorem h_mild {s t : State} (h : s.Mild t) : State.SameHalt s t := fun m => by
  have := h.2 m; unfold Chamber.mild at this; injection this

theorem h_ite {s t u : State} {p : Prop} [Decidable p] (ht : State.SameHalt s t) (hu : State.SameHalt s u) : State.SameHalt s (if p then t else u) := by split <;> assumption

theorem h_modCh {s : State} {n : Nat} {f : Chamber → Chamber} (hf : ∀ c, (f c).halt = c.halt) : State.SameHalt s (s.modCh n f) := by
  intro m; unfold State.modCh; rw [State.ch_setCh]; split
  · next e => rw [hf, e]
  · rfl

theorem recordHalt_some {c : Chamber} {h : HaltRec} : (c.recordHalt h).halt.isSome = true := by
  unfold Chamber.recordHalt
  split
  · rfl
  · next o ho => split <;> simp [ho]

theorem recordHalt_none {c : Chamber} {h : HaltRec} (hc : c.halt = none) : (c.recordHalt h).halt = some h := by
  unfold Chamber.recordHalt
  rw [hc]

theorem halt_mod_some {s : State} {n : Nat} {h : HaltRec} : ((s.halt n h).ch n).halt.isSome = true := by
  unfold State.halt State.modCh
  rw [State.ch_setCh, if_pos rfl]
  exact recordHalt_some

theorem upset_some {s : State} {n pc tag : Nat} {u : Upset} (h : (s.ch n).halt.isSome = true) : ((s.upset n pc tag u).ch n).halt.isSome = true := by
  unfold State.upset
  split
  · unfold State.fail; exact halt_mod_some
  · extract_lets c m w t
    have ht : (t.ch n).halt.isSome = true := by
      show (((s.setCh n { c with errCount := m }).ch n).halt).isSome = true
      rw [State.ch_setCh, if_pos rfl]; exact h
    clear_value t
    split
    · exact ht
    · exact ht

theorem upsets_some {n pc tag : Nat} (l : List Upset) : ∀ s : State, (s.ch n).halt.isSome = true → ((s.upsets n pc tag l).ch n).halt.isSome = true := by
  induction l with
  | nil => intro s h; exact h
  | cons u l ih => intro s h; unfold State.upsets; exact ih _ (upset_some h)

theorem accUpset_some {s : State} {n pc tag : Nat} {u : AccUpset} (h : (s.ch n).halt.isSome = true) : ((s.accUpset n pc tag u).ch n).halt.isSome = true := by
  unfold State.accUpset
  split
  · unfold State.fail; exact halt_mod_some
  · exact h

theorem accUpsets_some {n pc tag : Nat} (l : List AccUpset) : ∀ s : State, (s.ch n).halt.isSome = true → ((s.accUpsets n pc tag l).ch n).halt.isSome = true := by
  induction l with
  | nil => intro s h; exact h
  | cons u l ih => intro s h; unfold State.accUpsets; exact ih _ (accUpset_some h)

theorem h_raise_none {s : State} {n pc tag : Nat} : State.SameHalt s (s.raise n pc tag Flags.none) := by
  have : s.raise n pc tag Flags.none = s := by unfold State.raise Flags.none; simp
  rw [this]; exact .refl s

theorem upset_quiet {s : State} {n pc tag : Nat} {u : Upset} (hq : u.double = false) : State.SameHalt s (s.upset n pc tag u) := by
  unfold State.upset
  split
  · simp_all
  · extract_lets c m w t
    have ht : State.SameHalt s t := by
      have a : State.SameHalt s (s.setCh n { c with errCount := m }) := h_modCh (f := fun c => { c with errCount := m }) (fun _ => rfl)
      exact a.trans (h_mild (mild_puts _))
    clear_value t
    exact h_ite (ht.trans (h_mild (mild_put _ _))) ht

theorem upsets_quiet {n pc tag : Nat} (l : List Upset) (hq : l.any (·.double) = false) : ∀ s : State, State.SameHalt s (s.upsets n pc tag l) := by
  induction l with
  | nil => intro s; exact .refl s
  | cons u l ih =>
    intro s; unfold State.upsets
    simp only [List.any_cons, Bool.or_eq_false_iff] at hq
    exact State.SameHalt.trans (upset_quiet hq.1) (ih hq.2 _)

theorem accUpset_quiet {s : State} {n pc tag : Nat} {u : AccUpset} (hq : u.double = false) : State.SameHalt s (s.accUpset n pc tag u) := by
  unfold State.accUpset
  split
  · simp_all
  · exact h_mild (mild_countSat _ _)

theorem accUpsets_quiet {n pc tag : Nat} (l : List AccUpset) (hq : l.any (·.double) = false) : ∀ s : State, State.SameHalt s (s.accUpsets n pc tag l) := by
  induction l with
  | nil => intro s; exact .refl s
  | cons u l ih =>
    intro s; unfold State.accUpsets
    simp only [List.any_cons, Bool.or_eq_false_iff] at hq
    exact State.SameHalt.trans (accUpset_quiet hq.1) (ih hq.2 _)

theorem doBundle_flags {c0 : Chamber} {pc : Nat} {b : Bundle} {v : Live} {cyc : Word} {tk : Bool} (h : v.v = false) : (c0.doBundle pc b v cyc tk).2 = Flags.none := by
  unfold Chamber.doBundle
  simp [h]

theorem take_halt {s : State} {n : Nat} {b : Bundle} {v : Live} (hc : v.c = true) (ho : b.cop = 5) (hv : v.v = false)
    (hn : ((s.ch n).doBundle (s.chPc n) b v (s.chCycles n) (s.flag (if b.l.xslot then Reg.CHn_XT_SLOT1_VALID n else Reg.CHn_XT_SLOT0_VALID n))).1.halt = none) :
    ((s.takeBundle n b v).ch n).halt = some { cause := 0x01, faultPc := s.chPc n, nextPc := (s.chPc n + 1) % 4096, tag := 0, slot := 0, source := 3, addr := 0, row := 0, found := 0, expected := 0 } := by
  unfold State.takeBundle
  extract_lets c0 pc slotF
  have hf := @doBundle_flags c0 pc b v (s.chCycles n) (s.flag slotF) hv
  change (c0.doBundle pc b v (s.chCycles n) (s.flag slotF)).1.halt = none at hn
  generalize c0.doBundle pc b v (s.chCycles n) (s.flag slotF) = r at hf hn
  obtain ⟨c, f⟩ := r
  dsimp only at hf hn ⊢
  subst hf
  rw [h_mild (mild_tryPosts n) n]
  have hcond : (v.c && b.cop == 5) = true := by rw [hc, ho]; rfl
  rw [if_pos hcond]
  have h0 : State.SameHalt (s.setCh n c) (((if (v.l && b.lop == 5) = true then (s.setCh n c).beginLoad n b.l (c0.dreg b.l.dsc) else s.setCh n c).puts
      [(Reg.CHn_STATUS_STATE n, 2), (Reg.CHn_STATUS_PC n, c0.nextPc pc b v)]).raise n pc 0 Flags.none) := by
    refine State.SameHalt.trans (State.SameHalt.trans ?_ (h_mild (mild_puts _))) h_raise_none
    refine h_ite ?_ (.refl _)
    unfold State.beginLoad
    have h1 : State.SameHalt (s.setCh n c) (((s.setCh n c).puts [(Reg.CHn_WTILE_SHADOW n, 1), (Reg.CHn_WTILE_SHADOW_TYPE n, dType (c0.dreg b.l.dsc))]).modCh n fun c =>
          { c with loadBegin := ((s.setCh n c).puts
            [(Reg.CHn_WTILE_SHADOW n, 1), (Reg.CHn_WTILE_SHADOW_TYPE n, dType (c0.dreg b.l.dsc))]).aclk }) := (h_mild (mild_puts _)).trans (h_modCh fun _ => rfl)
    exact h_ite (h1.trans (h_mild (mild_put _ _))) h1
  generalize ((if (v.l && b.lop == 5) = true then (s.setCh n c).beginLoad n b.l (c0.dreg b.l.dsc) else s.setCh n c).puts
      [(Reg.CHn_STATUS_STATE n, 2), (Reg.CHn_STATUS_PC n, c0.nextPc pc b v)]).raise n pc 0 Flags.none = u at h0 ⊢
  have hu : (u.ch n).halt = none := by rw [h0 n, State.ch_setCh, if_pos rfl]; exact hn
  unfold State.halt State.modCh
  rw [State.ch_setCh, if_pos rfl]
  dsimp only
  rw [recordHalt_none hu]

theorem take_halt_some {s : State} {n : Nat} {b : Bundle} {v : Live} (hc : v.c = true) (ho : b.cop = 5) :
    ((s.takeBundle n b v).ch n).halt.isSome = true := by
  unfold State.takeBundle
  extract_lets c0 pc slotF
  generalize c0.doBundle pc b v (s.chCycles n) (s.flag slotF) = r
  obtain ⟨c, f⟩ := r
  dsimp only
  rw [h_mild (mild_tryPosts n) n]
  have hcond : (v.c && b.cop == 5) = true := by rw [hc, ho]; rfl
  rw [if_pos hcond]
  exact halt_mod_some


end Sys2Proof.Machine
end

