-- ==== Sys2Proof/Laws/Posts.lean ====
section
/-! SUPPORT. A bundle that is taken before its posts are tried, and what the end of Doze leaves of held posts. -/

namespace Sys2Proof.Machine

open Sys2Proof

/-- What a bundle that is taken leaves before its posts are tried. -/
theorem takeBundle_before {s : State} {n : Nat} {b : Bundle} (hn : n < 28) :
    ∃ u : State, s.takeBundle n b ((s.ch n).live b) = u.tryPosts n ∧ (u.ch n).posts = (Chamber.after s n b).posts ∧
      (u.ch n).ops = (Chamber.after s n b).ops ∧ ∀ f : FieldRef, (f.off < 0x1000000 ∨ 0x2C00000 ≤ f.off) → f.lo < 64 → u.get f = s.get f := by
  unfold State.takeBundle
  extract_lets c0 pc slotF
  have hA : Chamber.after s n b = (c0.doBundle pc b ((s.ch n).live b) (s.chCycles n) (s.flag slotF)).1 := rfl
  rw [hA]
  generalize c0.doBundle pc b ((s.ch n).live b) (s.chCycles n) (s.flag slotF) = r
  obtain ⟨c, f⟩ := r
  generalize (s.ch n).live b = v
  dsimp only
  refine ⟨_, rfl, ?_⟩
  generalize hw : (if (v.l && b.lop == 5) = true then (s.setCh n c).beginLoad n b.l (c0.dreg b.l.dsc) else s.setCh n c) = w
  have hwc : (w.ch n).posts = c.posts ∧ (w.ch n).ops = c.ops ∧ State.Within (fun k => 0x1000000 * 64 ≤ k ∧ k < 0x2C00000 * 64) s w := by
    rw [← hw]
    have h0 : ((s.setCh n c).ch n) = c := by rw [State.ch_setCh, if_pos rfl]
    split
    · unfold State.beginLoad
      dsimp only
      have hm : ∀ (u : State) (fn : Chamber → Chamber), (∀ c, (fn c).posts = c.posts ∧ (fn c).ops = c.ops) →
          ((u.modCh n fn).ch n).posts = (u.ch n).posts ∧ ((u.modCh n fn).ch n).ops = (u.ch n).ops := by
        intro u fn hfn
        unfold State.modCh; rw [State.ch_setCh, if_pos rfl]; exact hfn _
      have h1 : ∀ l, (((s.setCh n c).puts l).ch n) = c := by
        intro l
        have := (mild_puts (s := s.setCh n c) l)
        have e : ∀ (l : List (FieldRef × Nat)) (u : State), (u.puts l).chambers = u.chambers := by
          intro l; induction l with
          | nil => intro u; rfl
          | cons x l ih => intro u; rw [State.puts_cons, ih]; rfl
        unfold State.ch; rw [e]; exact h0
      have hp : State.Within (fun k => 0x1000000 * 64 ≤ k ∧ k < 0x2C00000 * 64) s ((s.setCh n c).puts [(Reg.CHn_WTILE_SHADOW n, 1), (Reg.CHn_WTILE_SHADOW_TYPE n, dType (c0.dreg b.l.dsc))]) := by
        refine within_setCh.trans (within_puts ?_)
        intro e he
        simp only [List.mem_cons, List.not_mem_nil, or_false] at he
        rcases he with rfl | rfl
        · simp only [FieldRef.key, Reg.CHn_WTILE_SHADOW]; omega
        · simp only [FieldRef.key, Reg.CHn_WTILE_SHADOW_TYPE]; omega
      have h2 := h1 [(Reg.CHn_WTILE_SHADOW n, 1), (Reg.CHn_WTILE_SHADOW_TYPE n, dType (c0.dreg b.l.dsc))]
      generalize (s.setCh n c).puts [(Reg.CHn_WTILE_SHADOW n, 1), (Reg.CHn_WTILE_SHADOW_TYPE n, dType (c0.dreg b.l.dsc))] = y at h2 hp ⊢
      have h3 := hm y (fun c => { c with loadBegin := y.aclk }) (fun _ => ⟨rfl, rfl⟩)
      rw [h2] at h3
      split
      · refine ⟨h3.1, h3.2, (hp.trans within_modCh).trans (within_put ?_)⟩
        split
        · simp only [FieldRef.key, Reg.CHn_XT_SLOT1_QUEUED]; omega
        · simp only [FieldRef.key, Reg.CHn_XT_SLOT0_QUEUED]; omega
      · exact ⟨h3.1, h3.2, hp.trans within_modCh⟩
    · exact ⟨by rw [h0], by rw [h0], within_setCh⟩
  have hx := (tame_puts (s := w) [(Reg.CHn_STATUS_STATE n, 2), (Reg.CHn_STATUS_PC n, c0.nextPc pc b v)]).trans (tame_raise n pc 0 f)
  generalize hh : (if (v.c && b.cop == 5) = true then _ else _ : State) = z
  have hz : w.Tame z := by rw [← hh]; exact tame_ite (hx.trans (tame_halt _ _)) hx
  have hzo : (z.ch n).ops = (w.ch n).ops := by have := hz.2 n; unfold Chamber.tame at this; injection this
  refine ⟨by rw [tame_posts hz, hwc.1], by rw [hzo, hwc.2.1], fun g hg hl => ?_⟩
  let P : Nat → Prop := fun k => 0x1000000 * 64 ≤ k ∧ k < 0x2C00000 * 64
  have hP1 : State.Within P s w := hwc.2.2
  have hP2 : State.Within P w (w.puts [(Reg.CHn_STATUS_STATE n, 2), (Reg.CHn_STATUS_PC n, c0.nextPc pc b v)]) := by
    refine within_puts ?_
    intro e he
    simp only [List.mem_cons, List.not_mem_nil, or_false] at he
    rcases he with rfl | rfl
    · simp only [P, FieldRef.key, Reg.CHn_STATUS_STATE]; omega
    · simp only [P, FieldRef.key, Reg.CHn_STATUS_PC]; omega
  have hP3 := hP1.trans (hP2.trans ((within_raise n pc 0 f).mono (Q := P) fun k hk => ⟨by have := (own_block hk).1; omega, by have := (own_block hk).2; omega⟩))
  have hP4 : State.Within P s z := by rw [← hh]; exact within_ite (hP3.trans within_modCh) hP3
  refine hP4.get ?_
  simp only [P, FieldRef.key]
  omega

theorem modCh_posts {s : State} {n m : Nat} {f : Chamber → Chamber} (hf : ∀ c, (f c).posts = c.posts) : ((s.modCh m f).ch n).posts = (s.ch n).posts := by
  unfold State.modCh; rw [State.ch_setCh]; split
  · next e => rw [hf, e]
  · rfl

theorem wake_posts (s : State) (n : Nat) : (s.wake.ch n).posts = (s.ch n).posts := by
  unfold State.wake
  split
  · rfl
  · split
    · rfl
    · unfold State.toRun
      extract_lets keep s1 s2
      have h2 : (s2.ch n).posts = (s.ch n).posts := by
        have : ∀ (l : List Nat) (u : State), ((l.foldl State.wakeChamber u).ch n).posts = (u.ch n).posts := by
          intro l; induction l with
          | nil => intro u; rfl
          | cons x l ih =>
            intro u; rw [List.foldl_cons, ih]
            unfold State.wakeChamber
            split
            · exact modCh_posts (s := u.put (Reg.CHn_STATUS_STATE x) (u.ch x).savedState) (f := fun c => { c with savedState := 0 }) fun _ => rfl
            · rfl
        exact this _ _
      clear_value s2
      split
      · have : ∀ (l : List Nat) (u : State), ((l.foldl State.wakePort u).ch n).posts = (u.ch n).posts := by
          intro l; induction l with
          | nil => intro u; rfl
          | cons x l ih =>
            intro u; rw [List.foldl_cons, ih]
            unfold State.wakePort
            split <;> rfl
        rw [this, h2]
      · exact h2

theorem own_get {n : Nat} {s t : State} (hn : n < 28) (h : State.Within (Own n) s t) {f : FieldRef} (hf : f.off < 0x1000000 ∨ 0x2C00000 ≤ f.off) (hl : f.lo < 64) :
    t.get f = s.get f := by
  refine h.get fun hk => ?_
  have := own_block hk
  simp only [FieldRef.key] at this
  omega

end Sys2Proof.Machine
end

