-- ==== Sys2Proof/Laws/Causes.lean ====
section
/-! SUPPORT. Why a bundle is not taken: sources of ILLEGAL slot by slot, precise causes, and slots whose guards are false. -/

namespace Sys2Proof.Machine

open Sys2Proof

theorem exec_bundle {c : Instr} {ch : Fin 28} {i : Issue} (s : State) (h : bundleOf c = some (ch, i)) : exec c s = .next (s.issue ch i) := by
  cases c <;> simp only [bundleOf, Option.some.injEq, Prod.mk.injEq, reduceCtorEq] at h
  all_goals (obtain ⟨rfl, rfl⟩ := h; rfl)

theorem bv8 (P : BitVec 8 → Prop) (h : ∀ k : Fin 256, P ⟨k⟩) (op : BitVec 8) : P op := h op.toFin
theorem bv4 (P : BitVec 4 → Prop) (h : ∀ k : Fin 16, P ⟨k⟩) (op : BitVec 4) : P op := h op.toFin

/-- Dropping a slot whose guard is false changes nothing that issue does. -/
theorem live_nop {c : Chamber} {b : Bundle} {i : Issue} {slot : Fin 6} (hi : i.bundle = b) (hg : c.guard (guardOf b slot) = false) :
    c.live (withNop i slot).bundle = c.live b := by
  subst hi
  match slot with
  | 0 => simp [withNop, Chamber.live, guardOf] at hg ⊢; simp [hg]
  | 1 => simp [withNop, Chamber.live, guardOf] at hg ⊢; simp [hg]
  | 2 => simp [withNop, Chamber.live, guardOf] at hg ⊢; simp [hg]
  | 3 => simp [withNop, Chamber.live, guardOf] at hg ⊢; simp [hg]
  | 4 => simp [withNop, Chamber.live, guardOf] at hg ⊢; simp [hg]
  | 5 => simp [withNop, Chamber.live, guardOf] at hg ⊢; simp [hg]


/-- One number for a destination register of any kind. -/
def enc (d : Nat × Nat) : Nat := 32 * d.1 + d.2

def okDest (d : Nat × Nat) : Prop := d.2 < 32

set_option maxRecDepth 4000 in
theorem s_a : ∀ op : BitVec 8, ((1 ≤ op.toNat ∧ op.toNat ≤ 0x0D) ∨ op.toNat = 0x24) ↔ op ∈ scalarOps := bv8 _ (by decide)
set_option maxRecDepth 4000 in
theorem s_b : ∀ op : BitVec 8, ((0x10 ≤ op.toNat ∧ op.toNat ≤ 0x15) ∨ (0x18 ≤ op.toNat ∧ op.toNat ≤ 0x1A)) ↔ op ∈ predicateOps := bv8 _ (by decide)
set_option maxRecDepth 4000 in
theorem s_c : ∀ op : BitVec 8, (op.toNat = 0x20 ∨ op.toNat = 0x21) ↔ (op = 0x20 ∨ op = 0x21) := bv8 _ (by decide)

theorem sDest_eq (b : Bundle) : sDest b.sop b.s = (destOf b 1).map enc ∧ ∀ d, destOf b 1 = some d → okDest d := by
  unfold sDest destOf
  simp only [s_a, s_b, s_c]
  by_cases h1 : b.sop ∈ scalarOps
  · simp only [h1, if_true]
    exact ⟨by simp [enc], fun d e => by cases e; exact b.s.dst.isLt⟩
  · simp only [h1, if_false]
    by_cases h2 : b.sop ∈ predicateOps
    · simp only [h2, if_true]
      refine ⟨by simp [enc], fun d e => by cases e; have := (b.s.dst.setWidth 3).isLt; unfold okDest; omega⟩
    · simp only [h2, if_false]
      by_cases h3 : b.sop = 0x20 ∨ b.sop = 0x21
      · simp only [h3, if_true]
        refine ⟨by simp [enc], fun d e => by cases e; have := (b.s.dst.setWidth 4).isLt; unfold okDest; omega⟩
      · simp only [h3, if_false]; exact ⟨rfl, fun d e => by cases e⟩

theorem op_toNat {op : BitVec 8} {k : Nat} (hk : k < 256) : op.toNat = k ↔ op = BitVec.ofNat 8 k := by
  constructor
  · intro h; apply BitVec.eq_of_toNat_eq; rw [h, BitVec.toNat_ofNat, Nat.mod_eq_of_lt hk]
  · rintro rfl; rw [BitVec.toNat_ofNat, Nat.mod_eq_of_lt hk]

theorem lDest_eq (b : Bundle) : lDest b.lop b.l = (destOf b 2).map enc ∧ ∀ d, destOf b 2 = some d → okDest d := by
  unfold lDest destOf
  by_cases h1 : b.lop = 1
  · rw [h1]; exact ⟨by simp [enc], fun d e => by cases e; exact b.l.dst.isLt⟩
  · by_cases h2 : b.lop = 2
    · rw [h2]; exact ⟨by simp [enc], fun d e => by cases e; exact b.l.dst.isLt⟩
    · by_cases h3 : b.lop = 3
      · rw [h3]; exact ⟨by simp [enc], fun d e => by cases e; have := b.l.dsc.isLt; unfold okDest; simp; omega⟩
      · simp only [h1, h2, h3, if_false]
        refine ⟨?_, fun d e => by cases e⟩
        split
        · next e => exact absurd ((op_toNat (by decide)).mp e) h1
        · next e => exact absurd ((op_toNat (by decide)).mp e) h2
        · next e => exact absurd ((op_toNat (by decide)).mp e) h3
        · rfl

theorem vDest_eq (b : Bundle) : vDest b.vop b.v = (destOf b 4).map enc ∧ ∀ d, destOf b 4 = some d → okDest d := by
  unfold vDest destOf
  by_cases h : b.vop = 0x00 ∨ b.vop = 0x28
  · simp only [h, if_true]; exact ⟨rfl, fun d e => by cases e⟩
  · simp only [h, if_false]; exact ⟨by simp [enc], fun d e => by cases e; exact b.v.vd.isLt⟩

theorem map_enc {x y : Option (Nat × Nat)} (hx : ∀ d, x = some d → okDest d) (hy : ∀ d, y = some d → okDest d) :
    x.map enc = y.map enc ↔ x = y := by
  constructor
  · intro h
    cases x with
    | none => cases y with
      | none => rfl
      | some d => cases h
    | some c => cases y with
      | none => cases h
      | some d =>
        have h1 := hx c rfl
        have h2 := hy d rfl
        unfold okDest at h1 h2
        have h3 : 32 * c.1 + c.2 = 32 * d.1 + d.2 := Option.some.inj h
        have : c = d := Prod.ext (by omega) (by omega)
        rw [this]
  · rintro rfl; rfl

set_option maxRecDepth 4000 in
theorem cOk : ∀ op : BitVec 8, cOpOk op = false ↔ op ∉ [0x00#8, 0x01, 0x02, 0x03, 0x04, 0x05, 0x08, 0x09, 0x0A, 0x0B, 0x0C, 0x0D] := bv8 _ (by decide)
set_option maxRecDepth 4000 in
theorem sOk : ∀ op : BitVec 8, sOpOk op = false ↔ (op ≠ 0 ∧ op ∉ scalarOps ∧ op ∉ predicateOps ∧ op ≠ 0x20 ∧ op ≠ 0x21) := bv8 _ (by decide)
set_option maxRecDepth 4000 in
theorem lOk : ∀ op : BitVec 8, lOpOk op = false ↔ op ∉ [0x00#8, 0x01, 0x02, 0x03, 0x04, 0x05] := bv8 _ (by decide)
set_option maxRecDepth 4000 in
theorem mOk : ∀ op : BitVec 8, mOpOk op = false ↔ op ∉ [0x00#8, 0x01, 0x02] := bv8 _ (by decide)
theorem mTy : ∀ ty : BitVec 4, mmaType ty = false ↔ ty ∉ [0x1#4, 0x2, 0x3, 0x4] := bv4 _ (by decide)
set_option maxRecDepth 4000 in
theorem vOk : ∀ op : BitVec 8, vOpOk op = false ↔ op ∉ [0x00#8, 0x01, 0x02, 0x03, 0x04, 0x05, 0x06, 0x08, 0x09, 0x0A, 0x0B, 0x0C, 0x10, 0x11,
    0x12, 0x14, 0x15, 0x16, 0x18, 0x19, 0x1A, 0x1B, 0x20, 0x21, 0x22, 0x28, 0x29, 0x2C] := bv8 _ (by decide)
set_option maxRecDepth 4000 in
theorem vCv : ∀ op : BitVec 8, (32 ≤ op.toNat ∧ op.toNat ≤ 34) ↔ op ∈ [0x20#8, 0x21, 0x22] := bv8 _ (by decide)
set_option maxRecDepth 4000 in
theorem tOk : ∀ op : BitVec 8, tOpOk op = false ↔ op ∉ [0x00#8, 0x01, 0x02, 0x03, 0x04, 0x05, 0x06, 0x07, 0x08] := bv8 _ (by decide)

/-- The conditions of `illegalSlot`, slot by slot. -/
def badSlot (b : Bundle) : Fin 6 → Bool
  | 0 => !cOpOk b.cop
  | 1 => !sOpOk b.sop
  | 2 => !lOpOk b.lop || ((lDest b.lop b.l).isSome && lDest b.lop b.l == sDest b.sop b.s)
  | 3 => !mOpOk b.mop || (b.mop == 1 && (b.m.arr == 0 || !mmaType b.m.atype || !mmaType b.m.wtype))
  | 4 => !vOpOk b.vop || (decide (0x20 ≤ b.vop.toNat) && decide (b.vop.toNat ≤ 0x22) && !typeOk b.v.typ.toNat) ||
      ((vDest b.vop b.v).isSome && vDest b.vop b.v == lDest b.lop b.l)
  | 5 => !tOpOk b.top || ((b.top == 6 || b.top == 7) && !typeOk b.t.otype.toNat)

theorem typeOk_iff (t : Nat) : typeOk t = false ↔ 5 < t := by simp [typeOk]

theorem dest_none (b : Bundle) (k : Fin 6) (h : k = 0 ∨ k = 3 ∨ k = 5) : destOf b k = none := by
  rcases h with rfl | rfl | rfl <;> rfl

theorem dest_sv (b : Bundle) : ∀ d, destOf b 1 = some d → d.1 ≠ 3 := by
  intro d h
  change (if b.sop ∈ scalarOps then some (0, b.s.dst.toNat) else if b.sop ∈ predicateOps then some (1, (b.s.dst.setWidth 3).toNat)
    else if b.sop = 0x20 ∨ b.sop = 0x21 then some (2, (b.s.dst.setWidth 4).toNat) else none) = some d at h
  repeat' split at h
  all_goals first | (cases h; done) | (cases Option.some.inj h; simp)

theorem dest_v (b : Bundle) : ∀ d, destOf b 4 = some d → d.1 = 3 := by
  intro d h
  change (if b.vop = 0x00 ∨ b.vop = 0x28 then none else some (3, b.v.vd.toNat)) = some d at h
  split at h
  · cases h
  · cases h; rfl

theorem bad_iff (b : Bundle) (k : Fin 6) : badSlot b k = true ↔ IllegalIn b k := by
  have lt6 : ∀ j : Fin 6, ¬ j < 0 := by decide
  match k with
  | 0 =>
    unfold badSlot IllegalIn
    simp only [Bool.not_eq_true', cOk]
    constructor
    · exact .inl
    · rintro (h | ⟨j, hj, -⟩)
      · exact h
      · exact absurd hj (lt6 j)
  | 1 =>
    unfold badSlot IllegalIn
    simp only [Bool.not_eq_true', sOk]
    constructor
    · exact .inl
    · rintro (h | ⟨j, hj, h1, h2⟩)
      · exact h
      · have : j = 0 := (by decide : ∀ j : Fin 6, j < 1 → j = 0) j hj
        subst this
        exact absurd h2.symm h1
  | 2 =>
    unfold badSlot IllegalIn
    simp only [Bool.or_eq_true, Bool.and_eq_true, Bool.not_eq_true', lOk, beq_iff_eq]
    rw [(lDest_eq b).1, (sDest_eq b).1, map_enc (lDest_eq b).2 (sDest_eq b).2]
    refine or_congr Iff.rfl ?_
    constructor
    · rintro ⟨h1, h2⟩
      refine ⟨1, by decide, ?_, h2.symm⟩
      intro e; rw [e] at h1; simp at h1
    · rintro ⟨j, hj, h1, h2⟩
      have : j = 0 ∨ j = 1 := (by decide : ∀ j : Fin 6, j < 2 → j = 0 ∨ j = 1) j hj
      rcases this with rfl | rfl
      · exact absurd h2.symm h1
      · refine ⟨?_, h2.symm⟩
        cases hd : destOf b 2 with
        | none => exact absurd hd h1
        | some d => rfl
  | 3 =>
    unfold badSlot IllegalIn
    simp only [Bool.or_eq_true, Bool.and_eq_true, Bool.not_eq_true', mOk, mTy, beq_iff_eq, or_assoc]
    refine or_congr Iff.rfl ?_
    constructor
    · exact fun h => .inl h
    · rintro (h | ⟨j, hj, h1, h2⟩)
      · exact h
      · exact absurd rfl h1
  | 4 =>
    unfold badSlot IllegalIn
    simp only [Bool.or_eq_true, Bool.and_eq_true, Bool.not_eq_true', vOk, typeOk_iff, beq_iff_eq, decide_eq_true_eq, vCv, or_assoc]
    refine or_congr Iff.rfl (or_congr Iff.rfl ?_)
    rw [(vDest_eq b).1, (lDest_eq b).1, map_enc (vDest_eq b).2 (lDest_eq b).2]
    constructor
    · rintro ⟨h1, h2⟩
      refine ⟨2, by decide, ?_, h2.symm⟩
      intro e; rw [e] at h1; simp at h1
    · rintro ⟨j, hj, h1, h2⟩
      have : j = 0 ∨ j = 1 ∨ j = 2 ∨ j = 3 := (by decide : ∀ j : Fin 6, j < 4 → j = 0 ∨ j = 1 ∨ j = 2 ∨ j = 3) j hj
      rcases this with rfl | rfl | rfl | rfl
      · exact absurd h2.symm h1
      · exfalso
        cases hd : destOf b 4 with
        | none => exact h1 hd
        | some d => exact dest_sv b d (h2.trans hd) (dest_v b d hd)
      · refine ⟨?_, h2.symm⟩
        cases hd : destOf b 4 with
        | none => exact absurd hd h1
        | some d => rfl
      · exact absurd h2.symm h1
  | 5 =>
    unfold badSlot IllegalIn
    have h67 : ∀ op : BitVec 8, (op = 6 ∨ op = 7) ↔ op ∈ [0x06#8, 0x07] := by intro op; simp
    simp only [Bool.or_eq_true, Bool.and_eq_true, Bool.not_eq_true', tOk, typeOk_iff, beq_iff_eq, h67, or_assoc]
    refine or_congr Iff.rfl ?_
    constructor
    · exact fun h => .inl h
    · rintro (h | ⟨j, hj, h1, h2⟩)
      · exact h
      · exact absurd rfl h1

theorem illegalSlot_eq (b : Bundle) : illegalSlot b =
    if badSlot b 0 then some 0 else if badSlot b 1 then some 1 else if badSlot b 2 then some 2 else if badSlot b 3 then some 3
    else if badSlot b 4 then some 4 else if badSlot b 5 then some 5 else none := rfl

/-- The lowest-numbered source of ILLEGAL is the slot that is recorded, and none means that no slot is a source (R30). -/
theorem illegal_some (b : Bundle) (k : Fin 6) (h : IllegalIn b k) (hl : ∀ j < k, ¬IllegalIn b j) : illegalSlot b = some k.val := by
  have hk := (bad_iff b k).mpr h
  have hj : ∀ j < k, badSlot b j = false := fun j hj => by
    have := mt (bad_iff b j).mp (hl j hj); simpa using this
  rw [illegalSlot_eq]
  match k with
  | 0 => simp [hk]
  | 1 => simp [hk, hj 0 (by decide)]
  | 2 => simp [hk, hj 0 (by decide), hj 1 (by decide)]
  | 3 => simp [hk, hj 0 (by decide), hj 1 (by decide), hj 2 (by decide)]
  | 4 => simp [hk, hj 0 (by decide), hj 1 (by decide), hj 2 (by decide), hj 3 (by decide)]
  | 5 => simp [hk, hj 0 (by decide), hj 1 (by decide), hj 2 (by decide), hj 3 (by decide), hj 4 (by decide)]

theorem illegal_none_iff (b : Bundle) : illegalSlot b = none ↔ ∀ k, ¬IllegalIn b k := by
  constructor
  · intro h k hk
    have hb := (bad_iff b k).mpr hk
    rw [illegalSlot_eq] at h
    match k with
    | 0 => repeat' split at h
           all_goals cases h
    | 1 => repeat' split at h
           all_goals cases h
    | 2 => repeat' split at h
           all_goals cases h
    | 3 => repeat' split at h
           all_goals cases h
    | 4 => repeat' split at h
           all_goals cases h
    | 5 => repeat' split at h
           all_goals cases h
  · intro h
    have hb : ∀ k, badSlot b k = false := fun k => by have := mt (bad_iff b k).mp (h k); simpa using this
    rw [illegalSlot_eq]; simp [hb]

theorem dest_nop (i : Issue) (slot j : Fin 6) : destOf (withNop i slot).bundle j = if j = slot then none else destOf i.bundle j := by
  fin_cases slot <;> fin_cases j <;> simp [withNop, destOf, scalarOps, predicateOps]

theorem illegal_nop {i : Issue} {slot : Fin 6} (h : illegalSlot i.bundle = none) : illegalSlot (withNop i slot).bundle = none := by
  rw [illegal_none_iff] at h ⊢
  intro j hj
  apply h j
  unfold IllegalIn at hj ⊢
  rcases hj with hj | ⟨k, hk, h1, h2⟩
  · left
    fin_cases slot <;> fin_cases j <;> first | exact hj | (exfalso; revert hj; simp [withNop])
  · right
    refine ⟨k, hk, ?_⟩
    rw [dest_nop] at h1
    rw [dest_nop, dest_nop] at h2
    by_cases e : j = slot
    · rw [if_pos e] at h1; exact absurd rfl h1
    · rw [if_neg e] at h1 h2
      by_cases e' : k = slot
      · rw [if_pos e'] at h2; exact absurd h2.symm h1
      · rw [if_neg e'] at h2; exact ⟨h1, h2⟩

/-- A bundle that would be taken would be taken with nop in a slot whose guard is false. -/
theorem takes_nop {s : State} {n : Nat} {i : Issue} {slot : Fin 6} (h : s.Takes n i) (hg : (s.ch n).guard (guardOf i.bundle slot) = false) :
    illegalSlot (withNop i slot).bundle = none ∧
      s.waitsFor n (withNop i slot).bundle ((s.ch n).live (withNop i slot).bundle) = .no ∧
      (s.ch n).precise (s.chPc n) (withNop i slot).bundle ((s.ch n).live (withNop i slot).bundle) = none := by
  obtain ⟨-, -, h2, h3, h4, -⟩ := h
  have hl := live_nop (c := s.ch n) (b := i.bundle) rfl hg
  refine ⟨illegal_nop h2, ?_, ?_⟩
  · rw [hl, ← h3]
    fin_cases slot
    all_goals (simp [guardOf] at hg)
    · have : ((s.ch n).live i.bundle).c = false := by simp [Chamber.live, hg]
      unfold State.waitsFor startsAsync; dsimp only [withNop]; simp only [this, Bool.false_and, Bool.false_eq_true, if_false]
    · rfl
    · have : ((s.ch n).live i.bundle).l = false := by simp [Chamber.live, hg]
      unfold State.waitsFor startsAsync; dsimp only [withNop]; simp only [this, Bool.false_and, Bool.false_eq_true, if_false]
    · have : ((s.ch n).live i.bundle).m = false := by simp [Chamber.live, hg]
      unfold State.waitsFor startsAsync; dsimp only [withNop]; simp only [this, Bool.false_and, Bool.false_eq_true, if_false]
    · have : ((s.ch n).live i.bundle).v = false := by simp [Chamber.live, hg]
      unfold State.waitsFor startsAsync; dsimp only [withNop]; simp only [this, Bool.false_and, Bool.false_eq_true, if_false]
    · have : ((s.ch n).live i.bundle).t = false := by simp [Chamber.live, hg]
      unfold State.waitsFor startsAsync; dsimp only [withNop]; simp only [this, Bool.false_and, Bool.false_eq_true, if_false]
  · rw [hl, ← h4]
    fin_cases slot
    all_goals (simp [guardOf] at hg)
    · have : ((s.ch n).live i.bundle).c = false := by simp [Chamber.live, hg]
      simp [Chamber.precise, pastEnd, withNop, this]
    · rfl
    · have : ((s.ch n).live i.bundle).l = false := by simp [Chamber.live, hg]
      simp [Chamber.precise, pastEnd, withNop, this]
    · have : ((s.ch n).live i.bundle).m = false := by simp [Chamber.live, hg]
      simp [Chamber.precise, pastEnd, withNop, this]
    · have : ((s.ch n).live i.bundle).v = false := by simp [Chamber.live, hg]
      simp [Chamber.precise, pastEnd, withNop, this]
    · have : ((s.ch n).live i.bundle).t = false := by simp [Chamber.live, hg]
      simp [Chamber.precise, pastEnd, withNop, this]

theorem no_double {i : Issue} (h : i.upsets.any (·.double) = false) : (i.upsets.any fun u => u.double && u.bank.val == 32) = false := by
  rw [List.any_eq_false] at h ⊢
  intro u hu
  have := h u hu
  simp at this ⊢
  simp [this]

/-- A halt recorded before any other effect of a bundle. -/
theorem halted (s : State) (ch : Fin 28) (i : Issue) (r : HaltRec) (hm : s.mayIssue ch = true) (hd : i.upsets.any (·.double) = false) :
    let t := (s.halt ch r).fetchUpsets ch (s.chPc ch) i
    t.mayIssue ch = false ∧ t.mem = s.mem ∧ (∀ m, (t.ch m).core = (s.ch m).core) ∧ (t.ch ch).halt = some r := by
  intro t
  have hh : (s.ch ch).halt = none := by
    unfold State.mayIssue at hm
    simp at hm
    exact hm.1.1.2
  have hq : (i.upsets.filter fun u => upsetMeets u true []).any (·.double) = false := by
    rw [List.any_eq_false] at hd ⊢
    exact fun u hu => hd u (List.mem_filter.mp hu).1
  have h1 : ((s.halt ch r).ch ch).halt = some r := by
    unfold State.halt State.modCh
    rw [State.ch_setCh, if_pos rfl]
    exact recordHalt_none hh
  have h2 : (t.ch ch).halt = some r := ((upsets_quiet _ hq (s.halt ch r)) ch).trans h1
  have hside : s.Side t := ((tame_halt ch r).trans (tame_upsets ch (s.chPc ch) 0 _)).side
  refine ⟨?_, by rw [hside.1], hside.2, h2⟩
  unfold State.mayIssue
  rw [h2]; simp

theorem inLocal_iff (a : Int) (n : Nat) : inLocal a n = true ↔ Inside a n := by simp [inLocal, Inside]
theorem inLocal_false (a : Int) (n : Nat) : inLocal a n = false ↔ ¬Inside a n := by
  rw [← inLocal_iff]; simp

theorem access_raises {a : Int} {n k : Nat} {x : Nat} : accessCause a n k = some x ↔
    (x = 3 ∧ ¬Inside a n ∨ x = 5 ∧ Inside a n ∧ a % k ≠ 0) := by
  unfold accessCause
  rw [← inLocal_iff]
  by_cases h : inLocal a n = true
  · have h0 : 0 ≤ a := ((inLocal_iff _ _).mp h).1
    have hm : a.toNat % k ≠ 0 ↔ a % (k : Int) ≠ 0 := by
      have : ((a.toNat % k : Nat) : Int) = a % k := by rw [Int.natCast_emod, Int.toNat_of_nonneg h0]
      omega
    simp only [h, hm]
    constructor
    · intro e; split at e <;> simp_all
    · rintro (⟨-, h2⟩ | ⟨rfl, -, h2⟩)
      · exact absurd trivial h2
      · simp [h2]
  · simp only [h]
    simp
    constructor
    · rintro rfl; rfl
    · intro e; exact e.symm

theorem cRaises (c : Chamber) (op : BitVec 8) (o : COps) (x : Nat) : c.cCause op o = some x ↔
    (x = 3 ∧ op = 0x02 ∧ 4095 < (c.sreg o.sreg).toNat) ∨ (x = 4 ∧ (op = 0x03 ∧ 32 ≤ c.retStack.length ∨ op = 0x04 ∧ c.retStack = [])) := by
  unfold Chamber.cCause
  have e2 : op.toNat = 2 ↔ op = 2 := op_toNat (by decide)
  have e3 : op.toNat = 3 ↔ op = 3 := op_toNat (by decide)
  have e4 : op.toNat = 4 ↔ op = 4 := op_toNat (by decide)
  split
  · next h =>
    have h := e2.mp h; subst h
    by_cases hh : 4095 < (c.sreg o.sreg).toNat
    · simp [hh]; exact ⟨fun e => e.symm, fun e => e.symm⟩
    · simp [hh]
  · next h =>
    have h := e3.mp h; subst h
    by_cases hh : 32 ≤ c.retStack.length
    · simp [hh]; exact ⟨fun e => e.symm, fun e => e.symm⟩
    · simp [hh]
  · next h =>
    have h := e4.mp h; subst h
    by_cases hh : c.retStack = []
    · simp [hh]; exact ⟨fun e => e.symm, fun e => e.symm⟩
    · simp [hh]
  · next h2 h3 h4 =>
    have h2 := fun e => h2 (e2.mpr e)
    have h3 := fun e => h3 (e3.mpr e)
    have h4 := fun e => h4 (e4.mpr e)
    constructor
    · intro e; cases e
    · rintro (⟨-, e, -⟩ | ⟨-, ⟨e, -⟩ | ⟨e, -⟩⟩)
      · exact absurd e h2
      · exact absurd e h3
      · exact absurd e h4

theorem accessOf_iff (op : BitVec 8) (n k : Nat) : accessOf op = some (n, k) ↔
    (op = 1 ∧ n = 8 ∧ k = 8) ∨ (op = 2 ∧ n = 512 ∧ k = 64) ∨ (op = 3 ∧ n = 128 ∧ k = 128) := by
  unfold accessOf
  by_cases h1 : op = 1
  · subst h1; simp; omega
  · by_cases h2 : op = 2
    · subst h2; simp; omega
    · by_cases h3 : op = 3
      · subst h3; simp; omega
      · rw [if_neg h1, if_neg h2, if_neg h3]
        constructor
        · intro e; cases e
        · rintro (⟨e, -⟩ | ⟨e, -⟩ | ⟨e, -⟩)
          · exact absurd e h1
          · exact absurd e h2
          · exact absurd e h3

theorem lRaises (c : Chamber) (op : BitVec 8) (o : LOps) (x : Nat) : c.lCause op o = some x ↔
    (∃ n k, accessOf op = some (n, k) ∧ let a : Int := (c.sreg o.sa).toNat + o.imm32.toInt
      (x = 3 ∧ ¬Inside a n ∨ x = 5 ∧ Inside a n ∧ a % k ≠ 0)) ∨ (x = 5 ∧ op = 0x04 ∧ (c.sreg o.sa).toNat % 64 ≠ 0) := by
  have hl : c.laddr o.sa o.imm32 = (c.sreg o.sa).toNat + o.imm32.toInt := rfl
  have e1 : op.toNat = 1 ↔ op = 1 := op_toNat (by decide)
  have e2 : op.toNat = 2 ↔ op = 2 := op_toNat (by decide)
  have e3 : op.toNat = 3 ↔ op = 3 := op_toNat (by decide)
  have e4 : op.toNat = 4 ↔ op = 4 := op_toNat (by decide)
  unfold Chamber.lCause
  split
  · next h =>
    have h := e1.mp h; subst h
    rw [access_raises, hl]
    simp [accessOf]
  · next h =>
    have h := e2.mp h; subst h
    rw [access_raises, hl]
    simp [accessOf]
  · next h =>
    have h := e3.mp h; subst h
    rw [access_raises, hl]
    simp [accessOf]
  · next h =>
    have h := e4.mp h; subst h
    simp [accessOf]
    constructor
    · rintro ⟨h1, rfl⟩; exact ⟨rfl, h1⟩
    · rintro ⟨rfl, h1⟩; exact ⟨h1, rfl⟩
  · next h1 h2 h3 h4 =>
    have h1 := fun e => h1 (e1.mpr e)
    have h2 := fun e => h2 (e2.mpr e)
    have h3 := fun e => h3 (e3.mpr e)
    have h4 := fun e => h4 (e4.mpr e)
    constructor
    · intro e; cases e
    · rintro (⟨n, k, e, -⟩ | ⟨-, e, -⟩)
      · rw [accessOf_iff] at e
        rcases e with ⟨e, -⟩ | ⟨e, -⟩ | ⟨e, -⟩
        · exact absurd e h1
        · exact absurd e h2
        · exact absurd e h3
      · exact absurd e h4

theorem bits_23_6 (x : Nat) : bits x 23 6 * 64 = x % 2 ^ 24 - x % 2 ^ 24 % 64 := by
  unfold bits
  simp only [Nat.reduceAdd, Nat.reduceSub, Nat.reducePow]
  omega

theorem tRaises (c : Chamber) (op : BitVec 8) (o : TOps) (x : Nat) : c.tCause op o = some x ↔
    (∃ n k, accessOf op = some (n, k) ∧ let a : Int := (c.sreg o.sa).toNat + o.imm32.toInt
      (x = 3 ∧ ¬Inside a n ∨ x = 5 ∧ Inside a n ∧ a % k ≠ 0)) ∨
    (op = 0x08 ∧ let n := o.imm32.toNat
      let inside := Inside (c.sreg o.sa).toNat n ∧ Inside (c.sreg o.sb).toNat n
      (x = 3 ∧ ¬inside ∨ x = 5 ∧ inside ∧ ¬((c.sreg o.sa).toNat % 64 = 0 ∧ (c.sreg o.sb).toNat % 64 = 0 ∧ n % 64 = 0))) ∨
    (x = 3 ∧ (op = 0x06 ∨ op = 0x07) ∧ let a := (c.sreg o.sscale).toNat % 2 ^ 24
      ¬Inside (a - a % 64 : Nat) 0x2840) := by
  have hl : c.laddr o.sa o.imm32 = (c.sreg o.sa).toNat + o.imm32.toInt := rfl
  have e1 : op.toNat = 1 ↔ op = 1 := op_toNat (by decide)
  have e2 : op.toNat = 2 ↔ op = 2 := op_toNat (by decide)
  have e3 : op.toNat = 3 ↔ op = 3 := op_toNat (by decide)
  have e6 : op.toNat = 6 ↔ op = 6 := op_toNat (by decide)
  have e7 : op.toNat = 7 ↔ op = 7 := op_toNat (by decide)
  have e8 : op.toNat = 8 ↔ op = 8 := op_toNat (by decide)
  unfold Chamber.tCause
  split
  · next h =>
    have h := e1.mp h; subst h
    rw [access_raises, hl]
    simp [accessOf]
  · next h =>
    have h := e2.mp h; subst h
    rw [access_raises, hl]
    simp [accessOf]
  · next h =>
    have h := e3.mp h; subst h
    rw [access_raises, hl]
    simp [accessOf]
  · next h =>
    have h := e8.mp h; subst h
    simp only [accessOf]
    try dsimp only
    rw [← inLocal_iff, ← inLocal_iff]
    generalize inLocal ((c.sreg o.sa).toNat : Int) o.imm32.toNat = p
    generalize inLocal ((c.sreg o.sb).toNat : Int) o.imm32.toNat = q
    generalize (c.sreg o.sa).toNat % 64 = a
    generalize (c.sreg o.sb).toNat % 64 = b
    generalize o.imm32.toNat % 64 = d
    have c3 : (3 = x) ↔ (x = 3) := eq_comm
    have c5 : (5 = x) ↔ (x = 5) := eq_comm
    by_cases hz : a = 0 ∧ b = 0 ∧ d = 0
    · obtain ⟨rfl, rfl, rfl⟩ := hz
      cases p <;> cases q <;> simp [c3]
    · have hz' : a ≠ 0 ∨ b ≠ 0 ∨ d ≠ 0 := by omega
      cases p <;> cases q <;> simp [c3, c5, hz, hz']
  · next h1 h2 h3 h8 =>
    have h1 := fun e => h1 (e1.mpr e)
    have h2 := fun e => h2 (e2.mpr e)
    have h3 := fun e => h3 (e3.mpr e)
    have h8 := fun e => h8 (e8.mpr e)
    simp only [e6, e7, bits_23_6]
    have hno : ∀ n k, ¬accessOf op = some (n, k) := by
      intro n k e
      rw [accessOf_iff] at e
      rcases e with ⟨e, -⟩ | ⟨e, -⟩ | ⟨e, -⟩
      · exact absurd e h1
      · exact absurd e h2
      · exact absurd e h3
    rw [← inLocal_false]
    constructor
    · intro e
      split at e
      · next hc => exact .inr (.inr ⟨(Option.some.inj e).symm, hc.1, by simpa using hc.2⟩)
      · cases e
    · rintro (⟨n, k, e, -⟩ | ⟨e, -⟩ | ⟨rfl, hc, hi⟩)
      · exact absurd e (hno n k)
      · exact absurd e h8
      · rw [if_pos ⟨hc, by simpa using hi⟩]

theorem mRaises (c : Chamber) (o : MOps) : c.mmaRange o = true ↔
    (let m := (c.sreg o.srows).toNat
     let last := if o.atype.toNat ≤ 2 ∨ o.wtype.toNat ≤ 2 then 1023 else 511
     (m = 0 ∨ 65535 < m ∨ last < (c.sreg o.sacc).toNat + (if o.arr = 3 then m - m / 2 else m) - 1 ∨
      ¬Inside ((c.sreg o.sact).toNat - (c.sreg o.sact).toNat % 64 : Nat) ((m - 1) * (c.sreg o.spitch).toNat + 512) ∨
      (o.msk = true ∧ ¬Inside ((c.sreg o.smask).toNat - (c.sreg o.smask).toNat % 64 : Nat) ((m + 7) / 8)))) := by
  unfold Chamber.mmaRange
  dsimp only
  have hdm : ∀ x : Nat, x / 64 * 64 = x - x % 64 := fun x => by omega
  have hh : ∀ x : Nat, halfRows x = x - x / 2 := fun x => by unfold halfRows; omega
  have hc : ∀ x : Nat, cdiv x 8 = (x + 7) / 8 := fun x => rfl
  simp only [hdm, hh, hc, ← inLocal_false, lastRow, mode16, Bool.or_eq_true, Bool.and_eq_true, Bool.not_eq_true', decide_eq_true_eq, beq_iff_eq, or_assoc]

/-- What `precise` answers, in terms of the causes that the bundle meets. -/
theorem precise_raises (c : Chamber) (pc : Nat) (b : Bundle) :
    (∀ x k nx, c.precise pc b (c.live b) = some (x, k, nx) → c.Raises pc b x k ∧ (∀ y j, c.Raises pc b y j → k ≤ j) ∧
      (AtEnd pc b (c.live b) → x = 3 ∧ nx = 0) ∧ (¬AtEnd pc b (c.live b) → nx = pc)) ∧
    (c.precise pc b (c.live b) = none → ∀ y j, ¬c.Raises pc b y j) := by
  have hend : pastEnd pc b (c.live b) = true ↔ AtEnd pc b (c.live b) := by
    unfold pastEnd AtEnd
    simp only [Bool.and_eq_true, beq_iff_eq, Bool.not_eq_true', Bool.and_eq_false_iff, Bool.or_eq_false_iff, beq_eq_false_iff_ne, List.mem_cons, List.not_mem_nil, or_false]
    constructor
    · rintro ⟨h1, h2⟩
      refine ⟨h1, ?_⟩
      rintro ⟨h3, h4⟩
      rcases h2 with h2 | ⟨⟨⟨h5, h6⟩, h7⟩, h8⟩
      · rw [h3] at h2; cases h2
      · rcases h4 with e | e | e | e
        · exact h5 e
        · exact h6 e
        · exact h7 e
        · exact h8 e
    · rintro ⟨h1, h2⟩
      refine ⟨h1, ?_⟩
      by_cases h3 : (c.live b).c = true
      · right
        have h4 := fun e => h2 ⟨h3, e⟩
        exact ⟨⟨⟨fun e => h4 (.inl e), fun e => h4 (.inr (.inl e))⟩, fun e => h4 (.inr (.inr (.inl e)))⟩, fun e => h4 (.inr (.inr (.inr e)))⟩
      · left; simpa using h3
  have hR : ∀ y j, c.Raises pc b y j ↔
      (j = 0 ∧ y = 3 ∧ AtEnd pc b (c.live b)) ∨ (j = 0 ∧ (c.live b).c = true ∧ c.cCause b.cop b.c = some y) ∨
      (j = 2 ∧ (c.live b).l = true ∧ c.lCause b.lop b.l = some y) ∨ (j = 3 ∧ y = 3 ∧ (c.live b).m = true ∧ b.mop = 1 ∧ c.mmaRange b.m = true) ∨
      (j = 4 ∧ y = 3 ∧ (c.live b).v = true ∧ b.vop = 0x2C ∧ 1023 < (c.sreg b.v.sreg).toNat) ∨
      (j = 5 ∧ (c.live b).t = true ∧ c.tCause b.top b.t = some y) := by
    intro y j
    rw [cRaises, lRaises, tRaises, mRaises]
    unfold Chamber.Raises
    dsimp only
    constructor
    · rintro (h | h | h | h | h | h | h | h | h | h)
      · exact .inl h
      · exact .inr (.inl ⟨h.1, h.2.2.1, .inl ⟨h.2.1, h.2.2.2⟩⟩)
      · exact .inr (.inl ⟨h.1, h.2.2.1, .inr ⟨h.2.1, h.2.2.2⟩⟩)
      · exact .inr (.inr (.inl ⟨h.1, h.2.1, .inl h.2.2⟩))
      · exact .inr (.inr (.inl ⟨h.1, h.2.2.1, .inr ⟨h.2.1, h.2.2.2⟩⟩))
      · exact .inr (.inr (.inr (.inl h)))
      · exact .inr (.inr (.inr (.inr (.inl h))))
      · exact .inr (.inr (.inr (.inr (.inr ⟨h.1, h.2.1, .inl h.2.2⟩))))
      · exact .inr (.inr (.inr (.inr (.inr ⟨h.1, h.2.1, .inr (.inl h.2.2)⟩))))
      · exact .inr (.inr (.inr (.inr (.inr ⟨h.1, h.2.2.1, .inr (.inr ⟨h.2.1, h.2.2.2⟩)⟩))))
    · rintro (h | ⟨h1, h2, h3⟩ | ⟨h1, h2, h3⟩ | h | h | ⟨h1, h2, h3⟩)
      · exact .inl h
      · rcases h3 with h3 | h3
        · exact .inr (.inl ⟨h1, h3.1, h2, h3.2⟩)
        · exact .inr (.inr (.inl ⟨h1, h3.1, h2, h3.2⟩))
      · rcases h3 with h3 | h3
        · exact .inr (.inr (.inr (.inl ⟨h1, h2, h3⟩)))
        · exact .inr (.inr (.inr (.inr (.inl ⟨h1, h3.1, h2, h3.2⟩))))
      · exact .inr (.inr (.inr (.inr (.inr (.inl h)))))
      · exact .inr (.inr (.inr (.inr (.inr (.inr (.inl h))))))
      · rcases h3 with h3 | h3 | h3
        · exact .inr (.inr (.inr (.inr (.inr (.inr (.inr (.inl ⟨h1, h2, h3⟩)))))))
        · exact .inr (.inr (.inr (.inr (.inr (.inr (.inr (.inr (.inl ⟨h1, h2, h3⟩))))))))
        · exact .inr (.inr (.inr (.inr (.inr (.inr (.inr (.inr (.inr ⟨h1, h3.1, h2, h3.2⟩))))))))
  simp only [hR]
  rw [← hend]
  unfold Chamber.precise
  by_cases he : pastEnd pc b (c.live b) = true
  · rw [if_pos he]
    refine ⟨fun x k nx h => ?_, fun h => by cases h⟩
    cases h
    exact ⟨.inl ⟨rfl, rfl, he⟩, fun y j _ => Nat.zero_le _, fun _ => ⟨rfl, rfl⟩, fun h => absurd he h⟩
  · rw [if_neg he]
    generalize hc : (if (c.live b).c = true then c.cCause b.cop b.c else none) = oc
    generalize hl : (if (c.live b).l = true then c.lCause b.lop b.l else none) = ol
    generalize ht : (if (c.live b).t = true then c.tCause b.top b.t else none) = ot
    have hc' : ∀ y, oc = some y ↔ ((c.live b).c = true ∧ c.cCause b.cop b.c = some y) := by
      intro y; rw [← hc]; split
      · next e => simp [e]
      · next e => simp [e]
    have hl' : ∀ y, ol = some y ↔ ((c.live b).l = true ∧ c.lCause b.lop b.l = some y) := by
      intro y; rw [← hl]; split
      · next e => simp [e]
      · next e => simp [e]
    have ht' : ∀ y, ot = some y ↔ ((c.live b).t = true ∧ c.tCause b.top b.t = some y) := by
      intro y; rw [← ht]; split
      · next e => simp [e]
      · next e => simp [e]
    simp only [← hc', ← hl', ← ht', he]
    generalize hm : ((c.live b).m && b.mop == 1 && c.mmaRange b.m) = qm
    generalize hv : ((c.live b).v && b.vop == 0x2C && decide (1023 < (c.sreg b.v.sreg).toNat)) = qv
    have hm' : ((c.live b).m = true ∧ b.mop = 1 ∧ c.mmaRange b.m = true) ↔ qm = true := by rw [← hm]; simp [and_assoc]
    have hv' : ((c.live b).v = true ∧ b.vop = 0x2C ∧ 1023 < (c.sreg b.v.sreg).toNat) ↔ qv = true := by rw [← hv]; simp [and_assoc]
    simp only [hm', hv']
    clear hc hl ht hm hv hc' hl' ht' hm' hv' hR
    cases oc <;> cases ol <;> cases qm <;> cases qv <;> cases ot <;> simp <;> grind

end Sys2Proof.Machine
end

