-- ==== Sys2Proof/Laws/Engine.lean ====
section
/-! SUPPORT. What units' reads and writes of memory leave alone, whatever becomes of them: `State.Serves`, for each access they are made of. -/

namespace Sys2Proof.Machine

open Sys2Proof

/-- The keys of the fields that accesses to memory write: the error log, the violations that are no chamber's, and the counts of the direct path,
of elided granules, of back-invalidations, of forced row boundaries and of a full memory. -/
def AccessKey (k : Nat) : Prop :=
  LogKeys k ∨ (0x20 * 64 ≤ k ∧ k < 0x30 * 64) ∨ k = Reg.FLS_DIRECT_COUNT.key ∨ k = Reg.FLS_ELIDED_COUNT.key ∨ k = Reg.FLS_STATUS_FULL.key ∨
  k = Reg.HST_SF_BISNP.key ∨ k = Reg.HLC_CLAIM_STAT_FORCED.key

/-- The same with the violations of chamber `n`. -/
def ChAccessKey (n k : Nat) : Prop :=
  AccessKey k ∨ ((0x1000038 + 0x100000 * n) * 64 ≤ k ∧ k < (0x1000040 + 0x100000 * n) * 64) ∨
  ((0x1000058 + 0x100000 * n) * 64 ≤ k ∧ k < (0x1000060 + 0x100000 * n) * 64)

/-- A register other than those that accesses write, below the error log. -/
theorem not_access {f : FieldRef} (h : f.off ∉ [0x20, 0x28, 0x3000048, 0x3000050, 0x3000020, 0x5000030, 0x3400038]) (h2 : f.off < 0x6800000 ∨ 0x6820000 ≤ f.off)
    (hl : f.lo < 64) (h8 : f.off % 8 = 0) : ¬AccessKey f.key := by
  simp only [List.mem_cons, List.not_mem_nil, or_false, not_or] at h
  simp only [AccessKey, LogKeys, FieldRef.key, Reg.FLS_DIRECT_COUNT, Reg.FLS_ELIDED_COUNT, Reg.FLS_STATUS_FULL, Reg.HST_SF_BISNP, Reg.HLC_CLAIM_STAT_FORCED]
  omega

theorem not_chAccess {n : Nat} (hn : n < 28) {f : FieldRef}
    (h : f.off ∉ [0x1000038 + 0x100000 * n, 0x1000058 + 0x100000 * n, 0x20, 0x28, 0x3000048, 0x3000050, 0x3000020, 0x5000030, 0x3400038])
    (h2 : f.off < 0x6800000) (hl : f.lo < 64) (h8 : f.off % 8 = 0) : ¬ChAccessKey n f.key := by
  simp only [List.mem_cons, List.not_mem_nil, or_false, not_or] at h
  simp only [ChAccessKey, AccessKey, LogKeys, FieldRef.key, Reg.FLS_DIRECT_COUNT, Reg.FLS_ELIDED_COUNT, Reg.FLS_STATUS_FULL, Reg.HST_SF_BISNP, Reg.HLC_CLAIM_STAT_FORCED]
  omega

/-- Two states differ in memory, in what a write to it marks, holds or maps, in the snoop filter, in the waits, rows and refreshes of claims, in
the MSI-X raises, in the marks of counted violations, and in fields of a set. -/
def State.Serves (P : Nat → Prop) (s t : State) : Prop :=
  State.Within P s t ∧ t = { s with
    fields := t.fields, mem := t.mem, poison := t.poison, nonzero := t.nonzero, pages := t.pages, lostPages := t.lostPages, moves := t.moves
    heat := t.heat, mirrorQ := t.mirrorQ, heldWrites := t.heldWrites, heldSeq := t.heldSeq, snoop := t.snoop, biWait := t.biWait, biAt := t.biAt
    irq := t.irq, violAt := t.violAt, claims := t.claims, refreshOwed := t.refreshOwed }

section
variable {P : Nat → Prop} {s t u : State}

theorem State.Serves.refl (P : Nat → Prop) (s : State) : State.Serves P s s := ⟨.refl P s, rfl⟩

theorem State.Serves.trans (h : State.Serves P s t) (k : State.Serves P t u) : State.Serves P s u := by
  refine ⟨h.1.trans k.1, ?_⟩
  have h1 := h.2
  have k1 := k.2
  rw [h1] at k1
  exact k1

theorem State.Serves.mono {Q : Nat → Prop} (h : State.Serves P s t) (hpq : ∀ k, P k → Q k) : State.Serves Q s t := ⟨h.1.mono hpq, h.2⟩

/-- A field outside the set reads as before. -/
theorem State.Serves.get (h : State.Serves P s t) {f : FieldRef} (hf : ¬P f.key) : t.get f = s.get f := h.1.get hf

theorem State.Serves.ch (h : State.Serves P s t) (n : Nat) : t.ch n = s.ch n := by rw [h.2]; rfl
theorem State.Serves.ring (h : State.Serves P s t) (n : Nat) : t.ring n = s.ring n := by rw [h.2]; rfl

theorem serves_ite {p : Prop} [Decidable p] (ht : State.Serves P s t) (hu : State.Serves P s u) : State.Serves P s (if p then t else u) := by
  split <;> assumption

theorem serves_put {f : FieldRef} {v : Nat} (h : P f.key) : State.Serves P s (s.put f v) := ⟨within_put h, rfl⟩

theorem serves_puts {l : List (FieldRef × Nat)} (h : ∀ e ∈ l, P e.1.key) : State.Serves P s (s.puts l) := by
  induction l generalizing s with
  | nil => exact .refl P s
  | cons e l ih => exact (serves_put (h e List.mem_cons_self)).trans (ih fun x hx => h x (List.mem_cons_of_mem _ hx))

theorem serves_foldl {α : Type} {f : State → α → State} {l : List α} (hf : ∀ (s : State) x, State.Serves P s (f s x)) : State.Serves P s (l.foldl f s) := by
  induction l generalizing s with
  | nil => exact .refl P s
  | cons x l ih => exact (hf s x).trans ih

end

section
variable (s : State)

theorem serves_logErr (e : LogEntry) : State.Serves AccessKey s (s.logErr e) := by
  refine ⟨(within_logErr_log e).mono fun k h => .inl h, ?_⟩
  obtain ⟨F, I, h⟩ : ∃ F I, s.logErr e = { s with fields := F, irq := I } := ⟨_, _, logErr_eq s e⟩
  rw [h]

theorem serves_violate {P : Nat → Prop} (key kind : Nat) {count valid kindOf : FieldRef} {rest : List (FieldRef × Nat)} (hc : P count.key)
    (hv : P valid.key) (hk : P kindOf.key) (hr : ∀ e ∈ rest, P e.1.key) : State.Serves P s (s.violate key count valid kindOf kind rest) := by
  unfold State.violate
  dsimp only
  have h1 : State.Serves P s { s.countSat count 1 with violAt := mapSet 0 s.violAt key (s.cycle + 1) } :=
    State.Serves.trans (t := s.countSat count 1) (serves_put hc) ⟨⟨rfl, rfl, fun _ _ => rfl⟩, rfl⟩
  refine serves_ite h1 (h1.trans (serves_puts fun e he => ?_))
  simp only [List.mem_cons] at he
  obtain rfl | rfl | he := he
  · exact hv
  · exact hk
  · exact hr e he

theorem serves_violGlb (a k x : Nat) : State.Serves AccessKey s (s.violGlb a k x) :=
  serves_violate s _ _ (by simp [AccessKey]) (by simp [AccessKey]) (by simp [AccessKey]) (by simp [AccessKey])

theorem serves_violCh (n k x : Nat) : State.Serves (ChAccessKey n) s (s.violCh n k x) :=
  serves_violate s _ _ (by simp [ChAccessKey]) (by simp [ChAccessKey]; omega) (by simp [ChAccessKey]; omega) (by simp [ChAccessKey])

theorem serves_warm (a : Nat) : State.Serves AccessKey s (s.warm a) := by
  rw [warm_eq]; exact ⟨⟨rfl, rfl, fun _ _ => rfl⟩, rfl⟩

theorem serves_enterBank (a : Nat) : State.Serves AccessKey s (s.enterBank a) := by
  unfold State.enterBank
  split
  · split
    · exact State.Serves.trans (t := s.boundaryIn _ [_]) ⟨⟨rfl, rfl, fun _ _ => rfl⟩, rfl⟩ (serves_put (by simp [AccessKey]))
    · exact .refl _ s
  · exact .refl _ s

theorem serves_readAs (g a n : Nat) : State.Serves AccessKey s (s.readAs g a n).2.2 := by
  unfold State.readAs
  split
  · exact serves_violGlb s _ _ _
  · split
    · dsimp only
      refine serves_ite (serves_ite ?_ ?_) (serves_warm s a)
      · exact (serves_warm s a).trans (serves_put (by simp [AccessKey]))
      · exact (serves_warm s a).trans (serves_put (by simp [AccessKey]))
    · exact .refl _ s

theorem serves_readIn (a n : Nat) : State.Serves AccessKey s (s.readIn a n).2.2 :=
  (serves_enterBank s a).trans (serves_readAs _ 3 a n)

theorem serves_readFuel (f : Nat) : ∀ (s : State) (a n : Nat), State.Serves AccessKey s (State.readFuel f s a n).2.2 := by
  induction f with
  | zero => exact fun s _ _ => .refl _ s
  | succ f ih =>
    intro s a n
    unfold State.readFuel
    split
    · exact .refl _ s
    · exact (serves_readIn s _ _).trans (ih _ _ _)

theorem serves_read (a n : Nat) : State.Serves AccessKey s (s.read a n).2.2 := serves_readFuel _ s a n

theorem serves_setPoison (g : Nat) (b : Bool) : State.Serves AccessKey s (s.setPoison g b) := ⟨⟨rfl, rfl, fun _ _ => rfl⟩, rfl⟩

theorem serves_noteMirror (a : Nat) : State.Serves AccessKey s (s.noteMirror a) := serves_ite ⟨⟨rfl, rfl, fun _ _ => rfl⟩, rfl⟩ (.refl _ s)

theorem serves_storeAs (whole : Bool) (a : Nat) (bs : List Byte) : State.Serves AccessKey s (s.storeAs whole a bs) := by
  unfold State.storeAs
  extract_lets zero g s1 s2 s3
  have h1 : State.Serves AccessKey s s1 := serves_ite (serves_put (by simp [AccessKey])) (.refl _ s)
  have h2 : State.Serves AccessKey s s2 := h1.trans ⟨⟨rfl, rfl, fun _ _ => rfl⟩, rfl⟩
  have h3 : State.Serves AccessKey s s3 := serves_ite (h2.trans (serves_setPoison _ _ _)) h2
  exact h3.trans (serves_noteMirror _ _)

theorem serves_queueDemotion (o : Obj) : State.Serves AccessKey s (s.queueDemotion o) :=
  serves_ite (.refl _ s) ⟨⟨rfl, rfl, fun _ _ => rfl⟩, rfl⟩

theorem serves_roomFor (l : List Move) : ∀ (a : Int) (s : State), State.Serves AccessKey s (State.roomFor l a s) := by
  induction l with
  | nil => exact fun _ s => .refl _ s
  | cons m l ih =>
    intro a s
    unfold State.roomFor
    dsimp only
    split
    · exact ih _ _
    · split
      · exact (serves_foldl serves_queueDemotion).trans (ih _ _)
      · exact ih _ _

theorem serves_giveFrame (p : Nat) (f : Frame) : State.Serves AccessKey s (s.giveFrame p f) := by
  unfold State.giveFrame
  extract_lets t
  have ht : State.Serves AccessKey s t := ⟨⟨rfl, rfl, fun _ _ => rfl⟩, rfl⟩
  clear_value t
  exact serves_ite ht (ht.trans (serves_roomFor _ _ _))

theorem serves_setFull : State.Serves AccessKey s s.setFull :=
  serves_ite (.refl _ s) ((serves_put (by simp [AccessKey])).trans (serves_logErr _ _))

theorem serves_writeAs (g : Nat) (twin whole : Bool) (a : Nat) (bs : List Byte) :
    State.Serves AccessKey s (s.writeAs g twin whole a bs).2 := by
  unfold State.writeAs
  split
  · exact .refl _ s
  split
  · exact serves_violGlb s _ _ _
  split
  · exact serves_violGlb s _ _ _
  split
  · exact serves_violGlb s _ _ _
  split
  · exact serves_warm s a
  split
  · exact (serves_warm s a).trans (serves_storeAs _ _ _ _)
  split
  · exact ((serves_ite (serves_setPoison _ _ _) (.refl _ s)).trans (serves_warm _ a)).trans (serves_noteMirror _ _)
  split
  · exact ((serves_giveFrame _ _ _).trans (serves_warm _ a)).trans (serves_storeAs _ _ _ _)
  · exact serves_setFull _

theorem serves_writeIn (g : Nat) (twin : Bool) (a : Nat) (bs : List Byte) : State.Serves AccessKey s (s.writeIn g twin a bs).2 :=
  serves_writeAs s _ _ _ _ _

theorem serves_mergeIn (agent : Nat) (whole : Bool) (g : Nat) (f : List Byte → List Byte) :
    State.Serves AccessKey s (s.mergeIn agent whole g f).2 := serves_writeAs s _ _ _ _ _

theorem serves_dropLine (l : Nat) : State.Serves AccessKey s (s.dropLine l) := ⟨⟨rfl, rfl, fun _ _ => rfl⟩, rfl⟩

theorem serves_backInvalidate (g : Nat) (whole : Bool) : State.Serves AccessKey s (s.backInvalidate g whole) :=
  serves_ite (.refl _ s) ((serves_foldl serves_dropLine).trans (serves_put (by simp [AccessKey])))

theorem serves_engineWriteIn (g a : Nat) (bs : List Byte) : State.Serves AccessKey s (s.engineWriteIn g a bs).2 := by
  unfold State.engineWriteIn
  extract_lets s1
  have h1 : State.Serves AccessKey s s1 := (serves_enterBank s a).trans (serves_backInvalidate _ _ _)
  clear_value s1
  have h2 := h1.trans (serves_writeIn s1 g false a bs)
  generalize s1.writeIn g false a bs = r at *
  obtain ⟨r, s2⟩ := r
  dsimp only
  split
  · exact State.Serves.trans h2 ⟨⟨rfl, rfl, fun _ _ => rfl⟩, rfl⟩
  · exact h2

theorem serves_writeFuel (f : Nat) : ∀ (s : State) (g a : Nat) (bs : List Byte), State.Serves AccessKey s (State.writeFuel f s g a bs).2 := by
  induction f with
  | zero => exact fun s _ _ _ => .refl _ s
  | succ f ih =>
    intro s g a bs
    unfold State.writeFuel
    split
    · exact .refl _ s
    · exact (serves_engineWriteIn s _ _ _).trans (ih _ _ _ _)

theorem serves_write (g a : Nat) (bs : List Byte) : State.Serves AccessKey s (s.write g a bs).2 := serves_writeFuel _ s g a bs

theorem serves_writeLogged (src a : Nat) (bs : List Byte) : State.Serves AccessKey s (s.writeLogged src a bs) := by
  unfold State.writeLogged
  have h := serves_write s 3 a bs
  generalize s.write 3 a bs = r at *
  obtain ⟨p, s2⟩ := r
  exact serves_ite (h.trans (serves_logErr _ _)) h

theorem serves_storePoisoned (agent : Nat) (twin : Bool) (g : Nat) (bs : List Byte) : State.Serves AccessKey s (s.storePoisoned agent twin g bs) := by
  unfold State.storePoisoned
  split
  · exact serves_violGlb s _ _ _
  split
  · exact serves_violGlb s _ _ _
  split
  · exact serves_violGlb s _ _ _
  extract_lets s1 go
  have h1 : State.Serves AccessKey s s1 := (serves_enterBank s _).trans (serves_backInvalidate _ _ _)
  have hg : ∀ u : State, State.Serves AccessKey u (go u) := fun u => (serves_warm u (g * 256)).trans ⟨⟨rfl, rfl, fun _ _ => rfl⟩, rfl⟩
  clear_value s1 go
  split
  · exact (h1.trans (hg _)).trans (serves_noteMirror _ _)
  split
  · exact ((h1.trans (serves_giveFrame _ _ _)).trans (hg _)).trans (serves_noteMirror _ _)
  · exact State.Serves.trans (h1.trans (serves_setFull _)) ⟨⟨rfl, rfl, fun _ _ => rfl⟩, rfl⟩

/-! ## A chamber's units -/

theorem access_ch {n k : Nat} (h : AccessKey k) : ChAccessKey n k := .inl h

theorem serves_countRegion (n : Nat) (r : Region) (x : Nat) : State.Serves (ChAccessKey n) s (s.countRegion n r x) := by
  unfold State.countRegion
  split
  · exact .refl _ s
  · exact serves_violCh s _ _ _
  · exact serves_violCh s _ _ _

theorem serves_chGranule (n x : Nat) : State.Serves (ChAccessKey n) s (s.chGranule n x).2.2.2 := by
  unfold State.chGranule
  dsimp only
  split
  · exact (serves_readIn s _ _).mono fun k => access_ch
  · exact serves_countRegion s _ _ _

theorem serves_chReadFuel (f : Nat) : ∀ (s : State) (n x len : Nat), State.Serves (ChAccessKey n) s (State.chReadFuel f s n x len).2.2.2 := by
  induction f with
  | zero => exact fun s _ _ _ => .refl _ s
  | succ f ih =>
    intro s n x len
    unfold State.chReadFuel
    split
    · exact .refl _ s
    · exact (serves_chGranule s n x).trans (ih _ _ _ _)

theorem serves_chRead (n x len : Nat) : State.Serves (ChAccessKey n) s (s.chRead n x len).2.2.2 := serves_chReadFuel _ s n x len

theorem serves_chWriteFuel (f : Nat) : ∀ (s : State) (n x : Nat) (bs : List Byte), State.Serves (ChAccessKey n) s (State.chWriteFuel f s n x bs) := by
  induction f with
  | zero => exact fun s _ _ _ => .refl _ s
  | succ f ih =>
    intro s n x bs
    unfold State.chWriteFuel
    split
    · exact .refl _ s
    · extract_lets k s1
      have h1 : State.Serves (ChAccessKey n) s s1 := by
        simp only [s1]
        split
        · exact (serves_writeLogged s _ _ _).mono fun k => access_ch
        · exact serves_countRegion s _ _ _
      exact h1.trans (ih _ _ _ _)

theorem serves_chWrite (n x : Nat) (bs : List Byte) : State.Serves (ChAccessKey n) s (s.chWrite n x bs) := serves_chWriteFuel _ s n x bs

/-! ## Reads leave memory -/

theorem violate_mem (key : Nat) (count valid kindOf : FieldRef) (kind : Nat) (rest : List (FieldRef × Nat)) :
    (s.violate key count valid kindOf kind rest).mem = s.mem := by rw [violate_eq]

theorem readAs_mem (g a n : Nat) : (s.readAs g a n).2.2.mem = s.mem := by
  unfold State.readAs
  split
  · exact violate_mem s _ _ _ _ _ _
  · split
    · dsimp only
      have h : (s.warm a).mem = s.mem := by rw [warm_eq]
      split
      · split <;> exact h
      · exact h
    · rfl

theorem enterBank_mem (a : Nat) : (s.enterBank a).mem = s.mem := by
  unfold State.enterBank
  split
  · split <;> rfl
  · rfl

theorem readIn_mem (a n : Nat) : (s.readIn a n).2.2.mem = s.mem := (readAs_mem _ 3 a n).trans (enterBank_mem s a)

theorem readFuel_mem (f : Nat) : ∀ (s : State) (a n : Nat), (State.readFuel f s a n).2.2.mem = s.mem := by
  induction f with
  | zero => exact fun s _ _ => rfl
  | succ f ih =>
    intro s a n
    unfold State.readFuel
    split
    · rfl
    · exact (ih _ _ _).trans (readIn_mem s a _)

theorem read_mem (a n : Nat) : (s.read a n).2.2.mem = s.mem := readFuel_mem _ s a n

theorem chGranule_mem (n x : Nat) : (s.chGranule n x).2.2.2.mem = s.mem := by
  unfold State.chGranule
  dsimp only
  split
  · exact readIn_mem s _ 256
  · unfold State.countRegion
    split
    · rfl
    · exact violate_mem s _ _ _ _ _ _
    · exact violate_mem s _ _ _ _ _ _

theorem chReadFuel_mem (f : Nat) : ∀ (s : State) (n x len : Nat), (State.chReadFuel f s n x len).2.2.2.mem = s.mem := by
  induction f with
  | zero => exact fun s _ _ _ => rfl
  | succ f ih =>
    intro s n x len
    unfold State.chReadFuel
    split
    · rfl
    · exact (ih _ _ _ _).trans (chGranule_mem s n x)

theorem chRead_mem (n x len : Nat) : (s.chRead n x len).2.2.2.mem = s.mem := chReadFuel_mem _ s n x len

end

end Sys2Proof.Machine
end

