-- ==== Sys2Proof/Laws/Keep.lean ====
section
/-! SUPPORT. The canonical form of the memories under the updates of single fields, and under folds and choices. -/

namespace Sys2Proof.Machine

open Sys2Proof

/-- A state that keeps the memories of a canonical one is canonical. -/
theorem canon_mk {s : State} {f0 : List Instr} {f1 : Map Nat} {f2 : Map Nat} {f3 : Map Nat} {f4 : Nat} {f5 : Nat} {f6 : Nat} {f8 : Map Bool} {f9 : Map Bool} {f10 : Map Frame} {f11 : Map Nat} {f12 : List Obj} {f13 : List Nat} {f14 : List HeldWrite} {f15 : Nat} {f16 : List HeldEnd} {f17 : List FrameWait} {f18 : Map SnoopLine} {f19 : Nat} {f20 : List Nat} {f21 : Map Nat} {f22 : Msix} {f23 : Map Nat} {f24 : Vector Decoder 2} {f26 : Map Port} {f27 : List Packet} {f28 : Nat} {f29 : List Move} {f30 : Map RingPos} {f31 : List RxXfer} {f32 : List TxXfer} {f33 : List TxWait} {f34 : List CuJob} {f35 : List RedJob} {f36 : Nat} {f37 : Map Nat} {f38 : List DispatchReq} {f39 : List Claim} {f40 : List Deferred} {f41 : Nat} {f42 : Bool} {f43 : Bool} {f44 : List QueuedJob} {f46 : Map (Nat × Nat)} {f47 : List QueuedJob} {f48 : List HlcJob} {f49 : Map Nat} {f50 : Map Nat} {f51 : Map Nat} {f52 : Map Nat} {f53 : Map Nat} {f54 : List QueuedJob} {f55 : Map Nat} {f56 : Option Waiter} {f57 : Option Nat} {f58 : Map Bool} {f59 : Nat} {f60 : Map Nat} {f61 : Nat} {f62 : Nat} {f63 : List StepReq} {f64 : Option Step} {f65 : List LedgerRec} {f66 : List LedgerRec} {f67 : List Completion} {f68 : Nat} {f69 : Nat} {f70 : Nat} {f71 : Bool} {f72 : List HostWrite} {f73 : List Byte × Bool} {f74 : Bool} {f75 : Option Nat} {f76 : Option Keeper} {f77 : Nat} {f78 : Option Keeper} {f79 : Map Arb} {f80 : Map Nat} {f81 : Option Nat} {f82 : Bool} {f83 : Nat} {f84 : Nat} {f85 : Bool} {f86 : Map Byte} {f87 : BootInfo} {f88 : Option Staging} {f89 : Nat} {f90 : Nat} {f91 : List Byte} {f92 : List Byte} {f93 : Jtag} {f94 : Bool} {f95 : Bool} {f96 : Option (Nat × Nat)} {f97 : Nat} {f98 : List Nat} {f99 : Nat} {f100 : Nat} {f101 : Bool} {f102 : Bool} {f103 : Map Bool} {f104 : Option Nat} {f105 : Bool} {f106 : List TwinMsg} {f107 : Option Nat} {f108 : Nat} {f109 : Option Nat} {f110 : Nat} {f111 : Bool} :
    State.Canon (State.mk f0 f1 f2 f3 f4 f5 f6 s.mem f8 f9 f10 f11 f12 f13 f14 f15 f16 f17 f18 f19 f20 f21 f22 f23 f24 s.chambers f26 f27 f28 f29 f30 f31 f32 f33 f34 f35 f36 f37 f38 f39 f40 f41 f42 f43 f44 s.hels f46 f47 f48 f49 f50 f51 f52 f53 f54 f55 f56 f57 f58 f59 f60 f61 f62 f63 f64 f65 f66 f67 f68 f69 f70 f71 f72 f73 f74 f75 f76 f77 f78 f79 f80 f81 f82 f83 f84 f85 f86 f87 f88 f89 f90 f91 f92 f93 f94 f95 f96 f97 f98 f99 f100 f101 f102 f103 f104 f105 f106 f107 f108 f109 f110 f111) = State.Canon s := rfl

theorem chOk_mk {c : Chamber} {f0 f1 f2 f3 f4 f5 f8 f9 f10 f11 f12 f13 f14 f15 f16 f17 f18 f19 f20 f21 f22 f23 f24 f25 f26 f27 f28 f29 f30 f31 f32 f33 f34 f35 f36 f37 f38 f39} :
    (Chamber.mk f0 f1 f2 f3 f4 f5 c.bmem c.lmem f8 f9 f10 f11 f12 f13 f14 f15 f16 f17 f18 f19 f20 f21 f22 f23 f24 f25 f26 f27 f28 f29 f30 f31 f32 f33 f34 f35 f36 f37 f38 f39).Ok = c.Ok := rfl

theorem helOk_mk {c : Hel} {f0 f1 f2 f3 f4 f6 f7 f8 f9 f10 f11} :
    (Hel.mk f0 f1 f2 f3 f4 c.scratch f6 f7 f8 f9 f10 f11).Ok = c.Ok := rfl

theorem chOk_lit {f0 f1 f2 f3 f4 f5 f8 f9 f10 f11 f12 f13 f14 f15 f16 f17 f18 f19 f20 f21 f22 f23 f24 f25 f26 f27 f28 f29 f30 f31 f32 f33 f34 f35 f36 f37 f38 f39} {lm bm : Memory} (h1 : lm.wf = true) (h2 : bm.wf = true) :
    (Chamber.mk f0 f1 f2 f3 f4 f5 bm lm f8 f9 f10 f11 f12 f13 f14 f15 f16 f17 f18 f19 f20 f21 f22 f23 f24 f25 f26 f27 f28 f29 f30 f31 f32 f33 f34 f35 f36 f37 f38 f39).Ok := ⟨h1, h2⟩

theorem helOk_lit {f0 f1 f2 f3 f4 f6 f7 f8 f9 f10 f11} {sc : Memory} (h : sc.wf = true) :
    (Hel.mk f0 f1 f2 f3 f4 sc f6 f7 f8 f9 f10 f11).Ok := h

theorem canon_snd {α : Type} {e : α × State} {a : α} {t : State} (he : e = (a, t)) (h : State.Canon e.2) : State.Canon t := by
  subst he; exact h

theorem canon_snd2 {α β : Type} {e : α × β × State} {a : α} {b : β} {t : State} (he : e = (a, b, t)) (h : State.Canon e.2.2) :
    State.Canon t := by subst he; exact h

theorem canon_snd3 {α β γ : Type} {e : α × β × γ × State} {a : α} {b : β} {c : γ} {t : State} (he : e = (a, b, c, t))
    (h : State.Canon e.2.2.2) : State.Canon t := by subst he; exact h

theorem canon_fst {α : Type} {e : State × α} {a : α} {t : State} (he : e = (t, a)) (h : State.Canon e.1) : State.Canon t := by
  subst he; exact h

theorem ite_snd_canon {α : Type} {p : Prop} [Decidable p] {a b : α × State} (ha : State.Canon a.2) (hb : State.Canon b.2) :
    State.Canon (if p then a else b).2 := by split <;> assumption

theorem ite_snd2_canon {α β : Type} {p : Prop} [Decidable p] {a b : α × β × State} (ha : State.Canon a.2.2) (hb : State.Canon b.2.2) :
    State.Canon (if p then a else b).2.2 := by split <;> assumption

theorem ite_snd3_canon {α β γ : Type} {p : Prop} [Decidable p] {a b : α × β × γ × State} (ha : State.Canon a.2.2.2)
    (hb : State.Canon b.2.2.2) : State.Canon (if p then a else b).2.2.2 := by split <;> assumption

theorem foldl_memwf {α : Type} {f : Memory → α → Memory} {l : List α} {m : Memory} (hf : ∀ m x, Memory.wf m = true → Memory.wf (f m x) = true)
    (h : m.wf = true) : Memory.wf (l.foldl f m) = true := by
  induction l generalizing m with
  | nil => exact h
  | cons x l ih => exact ih (hf m x h)

theorem localPut_wf {d : BitVec 1024} {m : Memory} {la p x : Nat} (h : m.wf = true) : (localPut d m la p x).wf = true := by
  unfold localPut
  split
  · exact memWrite_wf h
  · split
    · exact memSet_wf h
    · exact memWrite_wf h

theorem ite_canon {p : Prop} [Decidable p] {a b : State} (ha : State.Canon a) (hb : State.Canon b) :
    State.Canon (if p then a else b) := by split <;> assumption

theorem ite_chOk {p : Prop} [Decidable p] {a b : Chamber} (ha : a.Ok) (hb : b.Ok) : (if p then a else b).Ok := by
  split <;> assumption

theorem ite_helOk {p : Prop} [Decidable p] {a b : Hel} (ha : a.Ok) (hb : b.Ok) : (if p then a else b).Ok := by
  split <;> assumption

theorem foldl_canon {α : Type} {f : State → α → State} {l : List α} {s : State} (hf : ∀ s x, State.Canon s → State.Canon (f s x))
    (h : State.Canon s) : State.Canon (l.foldl f s) := by
  induction l generalizing s with
  | nil => exact h
  | cons x l ih => exact ih (hf s x h)

theorem ch_ok {s : State} {n : Nat} (h : State.Canon s) : (s.ch n).Ok := h.2.1 n

theorem hel_ok {s : State} {n : Nat} (h : State.Canon s) : (s.hel n).Ok := h.2.2 n

theorem lmem_wf {c : Chamber} (h : c.Ok) : c.lmem.wf = true := h.1

theorem bmem_wf {c : Chamber} (h : c.Ok) : c.bmem.wf = true := h.2

theorem scratch_wf {h : Hel} (hh : h.Ok) : h.scratch.wf = true := hh

theorem mem_wf {s : State} (h : State.Canon s) : s.mem.wf = true := h.1

theorem chReset_ok : Chamber.reset.Ok := ⟨rfl, rfl⟩

theorem helReset_ok : Hel.reset.Ok := rfl

theorem setCh_ok {s : State} {n : Nat} {c : Chamber} (hc : c.Ok) (h : State.Canon s) : State.Canon (s.setCh n c) := by
  refine ⟨h.1, fun m => ?_, h.2.2⟩
  rw [State.ch_setCh]; split
  · exact hc
  · exact h.2.1 m

theorem modCh_ok {s : State} {n : Nat} {f : Chamber → Chamber} (hf : ∀ c, c.Ok → (f c).Ok) (h : State.Canon s) :
    State.Canon (s.modCh n f) := setCh_ok (hf _ (ch_ok h)) h

theorem setHel_ok {s : State} {n : Nat} {e : Hel} (he : e.Ok) (h : State.Canon s) : State.Canon (s.setHel n e) := by
  refine ⟨h.1, h.2.1, fun m => ?_⟩
  rw [State.hel_setHel]; split
  · exact he
  · exact h.2.2 m

end Sys2Proof.Machine
end

