-- ==== Sys2Proof/Laws/Hel.lean ====
section
/-! SUPPORT. A helictite replaced, its registers read after a write, and instructions of a ready helictite. -/

namespace Sys2Proof.Machine

open Sys2Proof

theorem onlyHel_setHel (s : State) (n : Nat) (h : Hel) : s.OnlyHel (s.setHel n h) n :=
  ⟨rfl, fun m hm => by rw [State.hel_setHel, if_neg hm]⟩

theorem Hel.x_setX (h : Hel) (d r : BitVec 4) (v : Word) : (h.setX d v).x r = if r = d ∧ r ≠ 0 then v else h.x r := by
  unfold Hel.setX
  by_cases hd : d = 0
  · rw [if_pos hd, if_neg (by rintro ⟨h1, h2⟩; exact h2 (h1.trans hd))]
  · rw [if_neg hd]
    unfold Hel.x
    by_cases hr : r = 0
    · rw [if_pos hr, if_pos hr, if_neg (by rintro ⟨_, h⟩; exact h hr)]
    · rw [if_neg hr, if_neg hr]
      have hl : r.toNat < 16 := r.isLt
      by_cases hrd : r = d
      · subst hrd; have h0 : ¬r = 0#4 := hr; simp [h0, List.getD_eq_getElem?_getD]
      · have : d.toNat ≠ r.toNat := fun e => hrd (BitVec.eq_of_toNat_eq e.symm)
        simp [hrd, List.getD_eq_getElem?_getD, this]

theorem Hel.v_setV (h : Hel) (d r : BitVec 4) (v : HLanes) : (h.setV d v).v r = if r = d then v else h.v r := by
  unfold Hel.setV Hel.v
  have hl : r.toNat < 16 := r.isLt
  by_cases hrd : r = d
  · subst hrd; simp [List.getD_eq_getElem?_getD]
  · have : d.toNat ≠ r.toNat := fun e => hrd (BitVec.eq_of_toNat_eq e.symm)
    simp [hrd, List.getD_eq_getElem?_getD, this]

theorem Hel.setX_frame (h : Hel) (d : BitVec 4) (v : Word) : h.setX d v = { h with xregs := (h.setX d v).xregs } := by
  unfold Hel.setX; split <;> rfl

theorem helReg_ready {s : State} {n : Nat} (h : s.helReady n = true) (f : Hel → Hel) : s.helReg n f = s.setHel n (f (s.hel n)).next := by
  unfold State.helReg State.helDo; rw [if_pos h]

theorem releaseClaim_rel (s : State) (n : Nat) :
    ∃ cl ro, s.releaseClaim n = { s with claims := cl, refreshOwed := ro } ∧ (cl.find? fun c => c.hel == n) = none := by
  unfold State.releaseClaim
  split
  · next h => exact ⟨_, _, rfl, h⟩
  · refine ⟨_, _, rfl, ?_⟩
    rw [List.find?_eq_none]
    intro x hx
    have := (List.mem_filter.mp hx).2
    simpa using this

theorem endHel_rel (s : State) (n st code pa : Nat) :
    ∃ cl ro hj, s.endHel n st code pa = { s with hels := (s.setHel n { s.hel n with ended := some ⟨st, (s.hel n).pc, code⟩, xrecvAt := none }).hels, claims := cl, refreshOwed := ro, hlcJobs := hj } ∧
      (cl.find? fun c => c.hel == n) = none ∧ (st = 1 → hj = s.hlcJobs) ∧
      (st ≠ 1 → hj = s.hlcJobs.map fun j => if n ∈ j.targets then { j with fault := some (j.fault.getD (n, ⟨st, (s.hel n).pc, code⟩)), poisonAt := if st = 3 ∧ j.poisonAt = 0 then pa else j.poisonAt } else j) := by
  obtain ⟨cl, ro, h, hf⟩ := releaseClaim_rel (s.setHel n { s.hel n with ended := some ⟨st, (s.hel n).pc, code⟩, xrecvAt := none }) n
  unfold State.endHel
  dsimp only
  rw [h]
  by_cases h1 : st = 1
  · rw [if_pos h1]
    exact ⟨cl, ro, _, rfl, hf, fun _ => rfl, fun h => absurd h1 h⟩
  · rw [if_neg h1]
    refine ⟨cl, ro, _, rfl, hf, fun h => absurd h h1, fun _ => ?_⟩
    simp

theorem join_foldl (l : List Nat) (g : Nat → Flags) (f : Flags) :
    ((l.foldl (fun a k => a.join (g k)) f).invalid = true ↔ f.invalid = true ∨ ∃ k ∈ l, (g k).invalid = true) ∧
    ((l.foldl (fun a k => a.join (g k)) f).overflow = true ↔ f.overflow = true ∨ ∃ k ∈ l, (g k).overflow = true) ∧
    ((l.foldl (fun a k => a.join (g k)) f).flush = true ↔ f.flush = true ∨ ∃ k ∈ l, (g k).flush = true) := by
  induction l generalizing f with
  | nil => simp
  | cons x l ih =>
    have := ih (f.join (g x))
    rw [List.foldl_cons, this.1, this.2.1, this.2.2]
    simp [Flags.join, or_assoc]

theorem lanes_frame (h : Hel) (d : BitVec 4) (f : Nat → Lane × Flags) :
    h.lanes d f = { h with hregs := (h.lanes d f).hregs, flags := (List.range 16).foldl (fun g k => g.join (f k).2) h.flags } := by
  unfold Hel.lanes
  dsimp only
  rw [List.foldl_map]
  rfl

theorem lanes_v (h : Hel) (d r : BitVec 4) (f : Nat → Lane × Flags) (k : Nat) (hk : k < 16) :
    hlane ((h.lanes d f).v r) k = if r = d then (f k).1 else hlane (h.v r) k := by
  have e : (h.lanes d f).v r = (h.setV d (mkHLanes fun i => (((List.range 16).map f).getD i (0, Flags.none)).1)).v r := rfl
  rw [e, Hel.v_setV]
  split
  · rw [hlane_mkHLanes _ _ hk]
    simp [List.getD_eq_getElem?_getD, hk]
  · rfl

theorem helScratch_go {s : State} {n : Nat} {o : HOps} {k : Nat} {st : Bool} (hr : s.helReady n = true) (hk : (s.hel n).Scratch o k st) (f : Hel → Nat → Hel) :
    s.helScratch n o k st f = s.setHel n (f (s.hel n) ((s.hel n).at o)).next := by
  unfold State.helScratch State.helDo
  rw [if_pos hr]
  obtain ⟨h1, h2, h3⟩ := hk
  have ha : (s.hel n).addr o = (s.hel n).at o := rfl
  dsimp only
  rw [ha, if_neg (by omega), if_neg]
  rw [List.any_eq_true]
  rintro ⟨p, hp, hh⟩
  exact h3 p hp (by simpa using hh)

theorem helFault_rel {s : State} (n : Nat) : s.HelFaults (s.helFault n) n := by
  obtain ⟨cl, ro, hj, e, hf, -⟩ := endHel_rel s n 4 0 0
  unfold State.helFault
  rw [e]
  have hh : ∀ m, (({ s with hels := (s.setHel n { s.hel n with ended := some ⟨4, (s.hel n).pc, 0⟩, xrecvAt := none }).hels, claims := cl, refreshOwed := ro, hlcJobs := hj } : State).hel m) = if m = n then { s.hel n with ended := some ⟨4, (s.hel n).pc, 0⟩, xrecvAt := none } else s.hel m :=
    fun m => State.hel_setHel s n _ m
  refine ⟨?_, hf, fun m hm => ?_, rfl, rfl, rfl⟩
  · rw [hh, if_pos rfl]
  · rw [hh, if_neg hm]

theorem helScratch_fault {s : State} {n : Nat} {o : HOps} {k : Nat} {st : Bool} (hr : s.helReady n = true) (hk : (s.hel n).at o % k ≠ 0 ∨ 2048 < (s.hel n).at o + k) (f : Hel → Nat → Hel) :
    s.helScratch n o k st f = s.helFault n := by
  unfold State.helScratch State.helDo
  rw [if_pos hr]
  dsimp only
  have ha : (s.hel n).addr o = (s.hel n).at o := rfl
  rw [ha, if_pos (Or.symm hk)]

theorem helScratch_wait {s : State} {n : Nat} {o : HOps} {k : Nat} {st : Bool} (hr : s.helReady n = true) (h1 : (s.hel n).at o % k = 0) (h2 : (s.hel n).at o + k ≤ 2048)
    (h3 : ∃ p ∈ (s.hel n).ops, p.write = st ∧ p.slot = (s.hel n).at o / 256) (f : Hel → Nat → Hel) :
    s.helScratch n o k st f = s := by
  unfold State.helScratch State.helDo
  rw [if_pos hr]
  have ha : (s.hel n).addr o = (s.hel n).at o := rfl
  dsimp only
  rw [ha, if_neg (by omega), if_pos]
  rw [List.any_eq_true]
  obtain ⟨p, hp, hh⟩ := h3
  exact ⟨p, hp, by simpa using hh⟩

theorem halfType_some {o : HOps} (h : (o.mod.setWidth 4).toNat = 1 ∨ (o.mod.setWidth 4).toNat = 2) : halfType o = some (o.mod.setWidth 4).toNat := by
  unfold halfType
  rw [BitVec.toNat_setWidth] at *
  dsimp only
  rw [if_pos h]

theorem halfType_none {o : HOps} (h1 : (o.mod.setWidth 4).toNat ≠ 1) (h2 : (o.mod.setWidth 4).toNat ≠ 2) : halfType o = none := by
  unfold halfType
  rw [BitVec.toNat_setWidth] at *
  dsimp only
  rw [if_neg (by rintro (h | h) <;> contradiction)]

theorem getD_flatMap_two (f : (Nat × Flags) → List Byte) (hf : ∀ x, (f x).length = 2) (l : List (Nat × Flags)) (d : Nat × Flags) (k : Nat) (hk : k < 2 * l.length) :
    (l.flatMap f).getD k 0 = (f (l.getD (k / 2) d)).getD (k % 2) 0 := by
  induction l generalizing k with
  | nil => simp at hk
  | cons x l ih =>
    rw [List.flatMap_cons]
    simp only [List.getD_eq_getElem?_getD] at *
    by_cases h : k < 2
    · rw [List.getElem?_append_left (by rw [hf]; exact h)]
      have h0 : k / 2 = 0 := by omega
      have h1 : k % 2 = k := by omega
      rw [h0, h1]; rfl
    · rw [List.getElem?_append_right (by rw [hf]; omega), hf]
      have h0 : k / 2 = (k - 2) / 2 + 1 := by omega
      have h1 : k % 2 = (k - 2) % 2 := by omega
      have h2 : k - 2 < 2 * l.length := by rw [List.length_cons] at hk; omega
      rw [h0, h1, List.getElem?_cons_succ, ih _ h2]

theorem vec_toList (v : HLanes) : v.toList = (List.range 16).map (hlane v) := by
  apply List.ext_getElem
  · simp
  · intro i h1 h2
    have : i < 16 := by simpa using h1
    simp [hlane, List.getD_eq_getElem?_getD, this]

theorem setX_next (h : Hel) (d : BitVec 4) (v : Word) : (h.setX d v).next = { h with pc := (h.pc + 1) % 256, xregs := (h.setX d v).next.xregs, hregs := (h.setX d v).next.hregs, flags := (h.setX d v).next.flags } := by
  rw [Hel.setX_frame]; rfl

theorem lanes_next (h : Hel) (d : BitVec 4) (f : Nat → Lane × Flags) : (h.lanes d f).next = { h with pc := (h.pc + 1) % 256, xregs := (h.lanes d f).next.xregs, hregs := (h.lanes d f).next.hregs, flags := (h.lanes d f).next.flags } := by
  rw [lanes_frame]; rfl

theorem flatMap_length_const {α : Type} {f : α → List Byte} {c : Nat} (hf : ∀ x, (f x).length = c) (l : List α) : (l.flatMap f).length = c * l.length := by
  induction l with
  | nil => rfl
  | cons x l ih => rw [List.flatMap_cons, List.length_append, hf, ih, List.length_cons, Nat.mul_succ, Nat.add_comm]

theorem readAs_any {s : State} {a : Nat} (h1 : s.populated a = true) (h2 : s.sealedAt a = false) (g n : Nat) :
    ∃ t, s.readAs g a n = (memRead s.mem a n, s.poisoned (granuleOf a), t) ∧ s.Reads t := by
  unfold State.readAs
  rw [h2, h1]
  simp only [Bool.false_eq_true, if_false, if_true]
  have hw : s.Reads (s.warm a) := warm_reads s a
  have hp : ∀ (u : State) (f : FieldRef) (v : Nat), s.Reads u → f ∈ [Reg.FLS_DIRECT_COUNT, Reg.FLS_ELIDED_COUNT] → s.Reads (u.count f v) := by
    intro u f v hu hf
    refine ⟨?_, hu.2.put hf⟩
    unfold State.count
    show { u with fields := _ } = _
    rw [hu.1]; rfl
  split
  · split
    · exact ⟨_, rfl, hp _ _ _ hw (by simp)⟩
    · exact ⟨_, rfl, hp _ _ _ hw (by simp)⟩
  · exact ⟨_, rfl, hw⟩

theorem poisoned_noteMirror (s : State) (a x : Nat) : (s.noteMirror a).poisoned x = s.poisoned x := by
  unfold State.noteMirror; split <;> rfl

theorem storeWhole_poisoned (s : State) (a : Nat) (bs : List Byte) : (s.storeAs true a bs).poisoned (granuleOf a) = false := by
  unfold State.storeAs
  dsimp only
  rw [poisoned_noteMirror, if_pos rfl]
  unfold State.poisoned State.setPoison
  dsimp only
  rw [mapGet_set, if_pos rfl]

theorem writeWhole_ok {s : State} {a : Nat} (h1 : s.populated a = true) (h2 : s.sealedAt a = false) (h3 : s.peerClosed a = false)
    (h5 : (s.frameOf (pageOf a)).isSome = true) {bs : List Byte} (hb : bs ≠ []) (g : Nat) (twin : Bool) :
    ∃ t, s.writeAs g twin true a bs = (.done, t) ∧ s.Writes t a bs ∧ t.poisoned (granuleOf a) = false := by
  unfold State.writeAs
  rw [if_neg hb, h2, h1, h3, h5]
  simp only [Bool.false_eq_true, if_false, Bool.not_true, Bool.and_false, if_true]
  exact ⟨_, rfl, (warm_reads s a).writes (fun f _ => by rw [warm_eq]; rfl) (storeAs_ok _ true a bs), storeWhole_poisoned _ _ _⟩

theorem find_filter_ne (l : List Claim) {n m : Nat} (h : m ≠ n) :
    ((l.filter fun x => x.hel != n).find? fun c => c.hel == m) = l.find? fun c => c.hel == m := by
  induction l with
  | nil => rfl
  | cons x l ih =>
    by_cases hx : x.hel = n
    · rw [List.filter_cons_of_neg (by simp [hx]), ih, List.find?_cons_of_neg]
      simpa [hx] using h.symm
    · rw [List.filter_cons_of_pos (by simpa using hx)]
      by_cases hm : x.hel = m
      · rw [List.find?_cons_of_pos (by simpa using hm), List.find?_cons_of_pos (by simpa using hm)]
      · rw [List.find?_cons_of_neg (by simpa using hm), List.find?_cons_of_neg (by simpa using hm), ih]

theorem find_filter_self (l : List Claim) (n : Nat) : ((l.filter fun x => x.hel != n).find? fun c => c.hel == n) = none := by
  rw [List.find?_eq_none]
  intro x hx
  simpa using (List.mem_filter.mp hx).2

theorem claimOf_modClaim (s : State) (n m : Nat) (f : Claim → Claim) (hf : ∀ c, (f c).hel = c.hel) :
    (s.modClaim n f).claimOf m = if m = n then (s.claimOf m).map f else s.claimOf m := by
  unfold State.modClaim State.claimOf
  dsimp only
  induction s.claims with
  | nil => simp
  | cons x l ih =>
    rw [List.map_cons]
    have e : (if x.hel = n then f x else x).hel = x.hel := by split <;> simp [hf]
    by_cases hm : x.hel = m
    · rw [List.find?_cons_of_pos (by simpa [e] using hm), List.find?_cons_of_pos (by simpa using hm)]
      by_cases h : m = n
      · rw [if_pos h, if_pos (hm.trans h)]; rfl
      · rw [if_neg h, if_neg (by rw [hm]; exact h)]
    · rw [List.find?_cons_of_neg (by simpa [e] using hm), List.find?_cons_of_neg (by simpa using hm), ih]

theorem refreshBanks_get (s : State) (n k : Nat) (bs : List Nat) :
    mapGet 0 (s.refreshBanks n bs).refreshOwed k = if ∃ b ∈ bs, k = n * 16 + b then 0 else mapGet 0 s.refreshOwed k := by
  unfold State.refreshBanks
  dsimp only
  generalize s.refreshOwed = m
  induction bs generalizing m with
  | nil => simp
  | cons b bs ih =>
    rw [List.foldl_cons, ih, mapGet_set]
    by_cases h1 : ∃ b ∈ bs, k = n * 16 + b
    · rw [if_pos h1, if_pos]
      obtain ⟨b', h, e⟩ := h1
      exact ⟨b', List.mem_cons_of_mem _ h, e⟩
    · rw [if_neg h1]
      by_cases h2 : k = n * 16 + b
      · rw [if_pos h2, if_pos ⟨b, List.mem_cons_self, h2⟩]
      · rw [if_neg h2, if_neg]
        rintro ⟨b', h, e⟩
        rcases List.mem_cons.mp h with rfl | h
        · exact h2 e
        · exact h1 ⟨b', h, e⟩

theorem bank_iff {n k : Nat} {bs : List Nat} (h : ∀ b ∈ bs, b < 16) : (∃ b ∈ bs, k = n * 16 + b) ↔ k / 16 = n ∧ k % 16 ∈ bs := by
  constructor
  · rintro ⟨b, hb, rfl⟩
    have := h b hb
    exact ⟨by omega, by rw [show (n * 16 + b) % 16 = b by omega]; exact hb⟩
  · rintro ⟨h1, h2⟩
    exact ⟨_, h2, by omega⟩

theorem mapFind_eraseAll {α : Type} (bs : List Nat) : ∀ (m : Map α) (b : Nat),
    mapFind (bs.foldl mapErase m) b = if b ∈ bs then none else mapFind m b := by
  induction bs with
  | nil => intro m b; simp
  | cons x l ih =>
    intro m b
    rw [List.foldl_cons, ih, mapFind_erase]
    by_cases h : b ∈ l
    · simp [h]
    · by_cases e : b = x <;> simp [h, e]

/-- A row boundary closes the banks' rows, takes up their waits and issues their refreshes. -/
theorem boundaryIn_ok {s : State} {n : Nat} {c : Claim} {bs : List Nat} (h : s.claimOf n = some c) (hb : ∀ b ∈ bs, b < 16) :
    s.RowBoundary (s.boundaryIn n bs) n c bs ∧ ∃ cl ro, s.boundaryIn n bs = { s with claims := cl, refreshOwed := ro } := by
  have hm := fun m => claimOf_modClaim s n m (fun c => c.boundary bs) (fun _ => rfl)
  refine ⟨⟨⟨c.boundary bs, ?_, rfl, fun b => mapFind_eraseAll bs c.rows b, ?_, fun w => ?_⟩, fun m hn => ?_, fun k => ?_⟩, _, _, rfl⟩
  · have := hm n
    rw [if_pos rfl, h] at this
    exact this
  · show c.waiting.filter _ = _
    congr 1
    funext w
    simp
  · show w ∈ c.passing ++ _ ↔ _
    simp
  · have := hm m
    rw [if_neg hn] at this
    exact this
  · unfold State.boundaryIn
    rw [refreshBanks_get]
    simp only [bank_iff hb]
    rfl

theorem release_claims (s : State) (n m : Nat) : (s.releaseClaim n).claimOf m = if m = n then none else s.claimOf m := by
  unfold State.releaseClaim
  split
  · next h =>
    split
    · next e => rw [e]; exact h
    · rfl
  · next c h =>
    have e : ∀ b : State, ({ b with claims := b.claims.filter fun x => x.hel != n }.refreshBanks n c.banks).claimOf m = (b.claims.filter fun x => x.hel != n).find? fun c => c.hel == m := fun _ => rfl
    rw [e]
    split
    · next h2 => rw [h2]; exact find_filter_self _ _
    · next h2 => exact find_filter_ne _ h2

theorem release_rel (s : State) (n : Nat) : ∃ cl ro, s.releaseClaim n = { s with claims := cl, refreshOwed := ro } := by
  obtain ⟨cl, ro, h, -⟩ := releaseClaim_rel s n
  exact ⟨cl, ro, h⟩

theorem findOp_of {h : Hel} {w : Bool} {slot : Nat} {p : HelOp} {rest : List HelOp} (hc : h.Completes w slot p rest) :
    h.findOp w slot = some (p, false) ∧ h.ops.erase p = rest := by
  obtain ⟨l, r, h1, h2, h3, h4, h5⟩ := hc
  have hnl : p ∉ l := fun hp => (h5 p hp).1 ⟨h3, h4⟩
  refine ⟨?_, ?_⟩
  · unfold Hel.findOp
    have e : h.ops.findIdx? (fun p => p.write == w && p.slot == slot) = some l.length := by
      rw [h1, List.findIdx?_append, List.findIdx?_eq_none_iff.mpr]
      · rw [List.findIdx?_cons]; simp [h3, h4]
      · intro x hx
        have := (h5 x hx).1
        simpa using this
    rw [e]
    dsimp only
    have e2 : h.ops[l.length]? = some p := by rw [h1]; simp
    rw [e2]
    dsimp only
    congr 2
    rw [h1, List.take_left', List.any_eq_false]
    · intro q hq
      have := (h5 q hq).2
      intro hh
      simp only [Bool.and_eq_true, beq_iff_eq] at hh
      have e := hh.2
      have e1 := hh.1
      rw [e, this e] at e1
      simp at e1
    · rfl
  · rw [h1, h2, List.erase_append_right _ hnl]
    simp

/-- An operation that may enter a bank at once does, and opens the row. -/
theorem helEnter_ok {s : State} {n a : Nat} (hh : s.held = false) (h : s.Enters n a) :
    ∃ cl ro, s.helEnter n a = (true, { s with claims := cl, refreshOwed := ro }) := by
  unfold State.helEnter
  rw [h.1]
  simp only [Bool.false_eq_true, if_false]
  split
  · next c f hc hf =>
    split
    · next hin =>
      obtain ⟨h1, h2, h3⟩ := h.2 c f hc hf hin.1 hin.2
      unfold State.helOwn
      dsimp only
      rw [hh]
      have hst : ∀ u : State, u.held = s.held → u.helStopped n = false := fun u hu => by unfold State.helStopped; rw [hu, hh]; rfl
      have hpass : ∀ d : Claim, (∀ w ∈ d.passing, w.bank ≠ s.bankOf f) → (d.passing.any fun w => w.bank == s.bankOf f) = false := by
        intro d hd
        rw [List.any_eq_false]
        exact fun w hw => by simpa using hd w hw
      by_cases ht : ((mapFind c.rows (s.bankOf f)).map fun r => r != s.rowOf f + 1).getD false = true
      · rw [if_pos ht]
        simp only [Bool.false_eq_true, if_false]
        have hw : ∀ w ∈ c.waiting, w.bank ≠ s.bankOf f := by
          rcases h3 with h3 | h3
          · exact h3
          · cases hm : mapFind c.rows (s.bankOf f) with
            | none => rw [hm] at ht; simp at ht
            | some r => rw [hm] at ht; simp [h3 r hm] at ht
        have hc' : (s.boundaryIn n [s.bankOf f]).claimOf n = some (c.boundary [s.bankOf f]) := by
          have := claimOf_modClaim s n n (fun c => c.boundary [s.bankOf f]) (fun _ => rfl)
          rw [if_pos rfl, hc] at this
          exact this
        have hp : (s.boundaryIn n [s.bankOf f]).passingIn n (s.bankOf f) = false := by
          unfold State.passingIn
          rw [hc']
          refine hpass _ fun w hw' => ?_
          rcases List.mem_append.mp hw' with h' | h'
          · exact h2 w h'
          · exact hw w (List.mem_filter.mp h').1
        rw [hst (s.boundaryIn n [s.bankOf f]) rfl, hp]
        have hl : (s.boundaryIn n [s.bankOf f]).claimLines c = [] := h1
        simp only [Bool.false_or, Bool.false_eq_true, if_false, hl, ne_eq, not_true_eq_false]
        exact ⟨_, _, rfl⟩
      · rw [if_neg ht]
        have hp : s.passingIn n (s.bankOf f) = false := by
          unfold State.passingIn
          rw [hc]
          exact hpass c h2
        rw [hst s rfl, hp]
        simp only [Bool.false_or, Bool.false_eq_true, if_false, h1, ne_eq, not_true_eq_false]
        exact ⟨_, _, rfl⟩
    · exact ⟨_, _, rfl⟩
  · exact ⟨_, _, rfl⟩

theorem memZero (m : Memory) (a k x : Nat) : memByte (memWrite m a (zeroBytes k)) x = if a ≤ x ∧ x < a + k then 0 else memByte m x := by
  rw [memByte_write]
  have : (zeroBytes k).length = k := by simp [zeroBytes]
  rw [this]
  refine if_ctx_congr Iff.rfl (fun hx => ?_) fun _ => rfl
  simp [zeroBytes, List.getD_eq_getElem?_getD, List.getElem?_replicate]
  split <;> rfl

theorem memCopy (m r : Memory) (a b k x : Nat) : memByte (memWrite m a (memRead r b k)) x = if a ≤ x ∧ x < a + k then memByte r (b + (x - a)) else memByte m x := by
  rw [memByte_write, memRead_length]
  refine if_ctx_congr Iff.rfl (fun hx => ?_) fun _ => rfl
  rw [memRead_getD _ _ _ _ (by omega)]

theorem sendFold (w : Word) (ts : List Nat) (hnd : ts.Nodup) : ∀ s : State,
    (ts.foldl (fun s m => s.setHel m { s.hel m with queue := (s.hel m).queue ++ [w] }) s) = { s with hels := (ts.foldl (fun s m => s.setHel m { s.hel m with queue := (s.hel m).queue ++ [w] }) s).hels } ∧
    ∀ m, (ts.foldl (fun s m => s.setHel m { s.hel m with queue := (s.hel m).queue ++ [w] }) s).hel m = if m ∈ ts then { s.hel m with queue := (s.hel m).queue ++ [w] } else s.hel m := by
  induction ts with
  | nil => intro s; exact ⟨rfl, fun m => by simp⟩
  | cons x l ih =>
    intro s
    obtain ⟨hx, hl⟩ := List.nodup_cons.mp hnd
    obtain ⟨h1, h2⟩ := ih hl (s.setHel x { s.hel x with queue := (s.hel x).queue ++ [w] })
    rw [List.foldl_cons]
    refine ⟨h1, fun m => ?_⟩
    rw [h2, State.hel_setHel]
    by_cases hm : m ∈ l
    · have hne : m ≠ x := fun e => hx (e ▸ hm)
      rw [if_pos hm, if_neg hne, if_pos (List.mem_cons_of_mem _ hm)]
    · rw [if_neg hm]
      by_cases he : m = x
      · rw [if_pos he, if_pos (by rw [he]; exact List.mem_cons_self)]
        rw [he]
      · rw [if_neg he, if_neg]
        intro h
        rcases List.mem_cons.mp h with h | h
        · exact he h
        · exact hm h

theorem get_post {s : State} {n v : Nat} (h : s.get Reg.PCR_PSTATE_STATE = 0) : s.postSig n false v = s.put (Reg.GLB_SIGn_VALUE n) (s.sig n + v) := by
  have hw : s.wake = s := by unfold State.wake; rw [if_pos h]
  unfold State.postSig; rw [hw]; simp

/-- Work that ends with a post: the post comes at once where none of its writes waits, and nothing but fields and what waits to end differs. -/
theorem endPost (x : State) (l : List Nat) (n : Nat) (hr : x.get Reg.PCR_PSTATE_STATE = 0) :
    let v := x.endWork l (.post n) (x.postSig n false 1)
    v = { x with fields := v.fields, heldEnds := v.heldEnds } ∧ (∀ g : FieldRef, g.key ≠ (Reg.GLB_SIGn_VALUE n).key → v.get g = x.get g) ∧
    (l = [] → v.get (Reg.GLB_SIGn_VALUE n) = (x.sig n + 1) % 2 ^ 64) := by
  unfold State.endWork
  dsimp only
  rw [get_post hr]
  split
  · exact ⟨rfl, fun g hg => State.get_put_ne hg, fun _ => State.get_put_eq⟩
  · next hl => exact ⟨rfl, fun _ _ => rfl, fun h => absurd h hl⟩

theorem hlcEnds_of {u : State} {j : HlcJob} {status : Nat} {f : Flags} (hr : u.get Reg.PCR_PSTATE_STATE = 0) (hs : j.doneSig < 4096) :
    u.HlcEnds (u.endHlcJob j status f) j status f := by
  have key : ∃ w : State, w.hlcJobs = u.hlcJobs.filter (·.job != j.job) ∧ w = { u with hlcJobs := w.hlcJobs, fields := w.fields, irq := w.irq } ∧
      (∀ n e, j.fault = some (n, e) → w.get Reg.HLC_FAULT_JOB = j.job % 2 ^ 32 ∧ w.get Reg.HLC_FAULT_INDEX = n % 2 ^ 11 ∧
        w.get Reg.HLC_FAULT_PC = e.pc % 2 ^ 8 ∧ w.get Reg.HLC_FAULT_STATUS = status % 2 ^ 8) ∧
      w.get Reg.HLC_PROGRESS_DONE = (u.get Reg.HLC_PROGRESS_DONE + 1) % 2 ^ 32 ∧ w.get Reg.HLC_PROGRESS_LAST_STATUS = status % 2 ^ 8 ∧
      (∀ g : FieldRef, g.lo < 64 → g.off < 0x3400010 ∨ (0x3400020 ≤ g.off ∧ g.off < 0x6800000) ∨ 0x6820000 ≤ g.off → w.get g = u.get g) ∧
      u.endHlcJob j status f = match j.recAddr with
        | some a =>
          let x := w.writeLogged 5 (a + 6) [BitVec.ofNat 8 (b2n f.invalid + 2 * b2n f.overflow + 4 * b2n f.flush), BitVec.ofNat 8 status]
          x.endWork (x.heldSince w.heldSeq) (.post j.doneSig) (x.postSig j.doneSig false 1)
        | none => { w with hlcDone := mapInsert w.hlcDone j.token status } := by
    unfold State.endHlcJob
    extract_lets s1 s2 s3 s4 lo
    have e2 : ∃ F I, s2 = { u with hlcJobs := u.hlcJobs.filter (·.job != j.job), fields := F, irq := I } ∧
        ∀ g : FieldRef, g.lo < 64 → g.off < 0x6800000 ∨ 0x6820000 ≤ g.off → s2.get g = u.get g := by
      simp only [s2]
      split
      · refine ⟨_, _, by rw [logErr_eq], fun g hl hg => logErr_get ?_⟩
        unfold FieldRef.key
        rcases hg with h | h
        · left; omega
        · right; omega
      · exact ⟨_, _, rfl, fun g _ _ => rfl⟩
    obtain ⟨F, I, e2, g2⟩ := e2
    have e3 : (∃ F, s3 = { u with hlcJobs := u.hlcJobs.filter (·.job != j.job), fields := F, irq := I }) ∧
        (∀ n e, j.fault = some (n, e) → s3.get Reg.HLC_FAULT_JOB = j.job % 2 ^ 32 ∧ s3.get Reg.HLC_FAULT_INDEX = n % 2 ^ 11 ∧
          s3.get Reg.HLC_FAULT_PC = e.pc % 2 ^ 8 ∧ s3.get Reg.HLC_FAULT_STATUS = status % 2 ^ 8) ∧
        ∀ g : FieldRef, g.lo < 64 → g.off < 0x3400018 ∨ (0x3400020 ≤ g.off ∧ g.off < 0x6800000) ∨ 0x6820000 ≤ g.off → s3.get g = u.get g := by
      simp only [s3]
      clear_value s2
      cases hf : j.fault with
      | none => exact ⟨⟨_, e2⟩, (by rintro n e ⟨⟩), fun g hl hg => g2 g hl (by omega)⟩
      | some p =>
        obtain ⟨n, e⟩ := p
        dsimp only
        refine ⟨⟨_, by rw [puts_eq]; exact congrArg (fun v : State => ({ v with fields := _ } : State)) e2⟩, ?_, fun g hl hg => ?_⟩
        · rintro n' e' ⟨⟩
          have := puts_get [(Reg.HLC_FAULT_JOB, j.job), (Reg.HLC_FAULT_INDEX, n), (Reg.HLC_FAULT_PC, e.pc), (Reg.HLC_FAULT_STATUS, status)]
            (by simp) s2
          exact ⟨this (Reg.HLC_FAULT_JOB, j.job) (by simp), this (Reg.HLC_FAULT_INDEX, n) (by simp), this (Reg.HLC_FAULT_PC, e.pc) (by simp),
            this (Reg.HLC_FAULT_STATUS, status) (by simp)⟩
        · rw [← g2 g hl (by omega)]
          have hk : ∀ b : FieldRef, b.off = 0x3400018 → b.lo < 64 → g.key ≠ b.key := by
            intro b hb hlb; unfold FieldRef.key; omega
          simp only [State.puts_cons, State.puts_nil]
          rw [State.get_put_ne (hk _ rfl (by decide)), State.get_put_ne (hk _ rfl (by decide)), State.get_put_ne (hk _ rfl (by decide)), State.get_put_ne (hk _ rfl (by decide))]
    clear_value s3
    obtain ⟨⟨F3, e3⟩, f3, g3⟩ := e3
    have kd : Reg.HLC_PROGRESS_DONE.key ≠ Reg.HLC_PROGRESS_LAST_STATUS.key := by decide
    have g4 : ∀ g : FieldRef, g.key ≠ Reg.HLC_PROGRESS_LAST_STATUS.key → g.key ≠ Reg.HLC_PROGRESS_DONE.key → s4.get g = s3.get g := by
      intro g h1 h2
      exact (State.get_put_ne h1).trans (State.get_put_ne h2)
    refine ⟨s4, ?_, ?_, fun n e he => ?_, ?_, State.get_put_eq, fun g hl hg => ?_, rfl⟩
    · show s3.hlcJobs = _
      rw [e3]
    · have hG : ∀ G : Map Nat, ({ s3 with fields := G } : State) = { u with hlcJobs := s3.hlcJobs, fields := G, irq := s3.irq } := by
        intro G
        rw [e3]
      exact hG _
    · obtain ⟨a, b, c, d⟩ := f3 n e he
      exact ⟨(g4 _ (by decide) (by decide)).trans a, (g4 _ (by decide) (by decide)).trans b, (g4 _ (by decide) (by decide)).trans c,
        (g4 _ (by decide) (by decide)).trans d⟩
    · refine (State.get_put_ne kd).trans (State.get_put_eq.trans ?_)
      rw [g3 _ (by decide) (by decide)]
      rfl
    · have hk : ∀ b : FieldRef, b.off = 0x3400010 → b.lo < 64 → g.key ≠ b.key := by
        intro b hb hlb; unfold FieldRef.key; omega
      exact (g4 g (hk _ rfl (by decide)) (hk _ rfl (by decide))).trans (g3 g hl (by omega))
  obtain ⟨w, h1, h2, h3, hd, hl, h4, h5⟩ := key
  rw [h5]
  have hdone : w.hlcDone = u.hlcDone := by rw [h2]
  have hm : w.mem = u.mem := by rw [h2]
  have hsig : ∀ k < 4096, w.sig k = u.sig k := fun k hk => h4 _ (by show (0:Nat) < 64; decide) (by left; show 0x80000 + 8 * k < _; omega)
  cases hra : j.recAddr with
  | none =>
    exact ⟨h1, by rw [h2], by rw [h2], h3, hd, hl, fun _ => ⟨by show mapInsert w.hlcDone _ _ = _; rw [hdone], hm, hsig⟩,
      fun a ha => by rw [hra] at ha; cases ha⟩
  | some a =>
    dsimp only
    generalize hx : w.writeLogged 5 (a + 6) [BitVec.ofNat 8 (b2n f.invalid + 2 * b2n f.overflow + 4 * b2n f.flush), BitVec.ofNat 8 status] = x
    have sx : State.Serves AccessKey w x := by rw [← hx]; exact serves_writeLogged w 5 (a + 6) _
    have gx : ∀ g : FieldRef, ¬AccessKey g.key → x.get g = w.get g := fun g hg => sx.get hg
    have hsx : ∀ k < 4096, x.sig k = u.sig k := fun k hk => (gx _ (by simp [not_access, AccessKey, LogKeys]; omega)).trans (hsig k hk)
    have hps : x.get Reg.PCR_PSTATE_STATE = 0 := by rw [gx _ (by simp [AccessKey, LogKeys]), h4 _ (by decide) (by decide)]; exact hr
    obtain ⟨p1, p2, p3⟩ := endPost x (x.heldSince w.heldSeq) j.doneSig hps
    generalize x.endWork (x.heldSince w.heldSeq) (.post j.doneSig) (x.postSig j.doneSig false 1) = t at p1 p2 p3 ⊢
    have gt : ∀ g : FieldRef, ¬AccessKey g.key → g.key ≠ (Reg.GLB_SIGn_VALUE j.doneSig).key → t.get g = w.get g := fun g ha hk =>
      (p2 g hk).trans (gx g ha)
    have hk : ∀ b : FieldRef, 0x3400000 ≤ b.off → b.key ≠ (Reg.GLB_SIGn_VALUE j.doneSig).key := by
      intro b hb
      simp only [FieldRef.key, Reg.GLB_SIGn_VALUE]
      omega
    refine ⟨by rw [p1, sx.2]; exact h1, by rw [p1, sx.2, h2], by rw [p1, sx.2, h2], fun n e hfe => ?_, ?_, ?_, (fun h => by rw [hra] at h; cases h), fun a' ha => ?_⟩
    · obtain ⟨k1, k2, k3, k4⟩ := h3 n e hfe
      refine ⟨?_, ?_, ?_, ?_⟩ <;> rw [gt _ (by simp [AccessKey, LogKeys]) (hk _ (by decide))] <;> assumption
    · rw [gt _ (by simp [AccessKey, LogKeys]) (hk _ (by decide))]; exact hd
    · rw [gt _ (by simp [AccessKey, LogKeys]) (hk _ (by decide))]; exact hl
    · rw [hra] at ha
      cases ha
      have hbits : (if f.invalid then 1 else 0) + (if f.overflow then 2 else 0) + (if f.flush then 4 else 0) =
          b2n f.invalid + 2 * b2n f.overflow + 4 * b2n f.flush := by
        cases f.invalid <;> cases f.overflow <;> cases f.flush <;> rfl
      refine ⟨by rw [p1, sx.2]; exact hdone, w, h2, h4, ?_⟩
      rw [hbits, hx]
      refine ⟨by rw [p1], fun hv k hk' => ?_⟩
      by_cases e : k = j.doneSig
      · rw [if_pos e, e]
        exact (p3 hv).trans (by rw [hsx _ hs])
      · rw [if_neg e]
        exact (p2 (Reg.GLB_SIGn_VALUE k) (by simp only [FieldRef.key, Reg.GLB_SIGn_VALUE]; omega)).trans (hsx k hk')

theorem targets_iff (ws : List Nat) (m : Nat) : m ∈ hlcTargets ws ↔ m < 1152 ∧ bit (recBits ws 0 35 24) (m / 96) = true ∧ bit (recBits ws 1 63 0 + recBits ws 2 31 0 * 2 ^ 64) (m % 96) = true := by
  unfold hlcTargets
  dsimp only
  rw [List.mem_flatMap]
  constructor
  · rintro ⟨l, hl, hm⟩
    rw [List.mem_range] at hl
    split at hm
    · next hb =>
      obtain ⟨t, ht, rfl⟩ := List.mem_map.mp hm
      obtain ⟨ht, hs⟩ := List.mem_filter.mp ht
      rw [List.mem_range] at ht
      rw [show (96 * l + t) / 96 = l by omega, show (96 * l + t) % 96 = t by omega]
      exact ⟨by omega, hb, hs⟩
    · cases hm
  · rintro ⟨h1, h2, h3⟩
    refine ⟨m / 96, List.mem_range.mpr (by omega), ?_⟩
    rw [if_pos h2]
    exact List.mem_map.mpr ⟨m % 96, List.mem_filter.mpr ⟨List.mem_range.mpr (by omega), h3⟩, by omega⟩

theorem zipFold (p : List Word) : ∀ (m : Map Word) (k0 k : Nat), mapGet 0 ((p.zipIdx k0).foldl (fun m e => mapSet 0 m e.2 e.1) m) k =
    if k0 ≤ k ∧ k < k0 + p.length then p.getD (k - k0) 0 else mapGet 0 m k := by
  induction p with
  | nil => intro m k0 k; simp
  | cons w p ih =>
    intro m k0 k
    rw [List.zipIdx_cons, List.foldl_cons, ih, mapGet_set, List.length_cons]
    by_cases h1 : k0 + 1 ≤ k ∧ k < k0 + 1 + p.length
    · rw [if_pos h1, if_pos (by omega), show k - k0 = k - (k0 + 1) + 1 by omega]; simp
    · rw [if_neg h1]
      by_cases h2 : k = k0
      · rw [if_pos h2, if_pos (by omega), h2]; simp
      · rw [if_neg h2, if_neg (by omega)]

theorem startFold (id : Nat) (prog args : List Word) (ts : List Nat) (hnd : ts.Nodup) : ∀ s : State,
    (ts.foldl (fun s n => s.setHel n ((s.hel n).start n id prog args)) s) = { s with hels := (ts.foldl (fun s n => s.setHel n ((s.hel n).start n id prog args)) s).hels } ∧
    ∀ m, (ts.foldl (fun s n => s.setHel n ((s.hel n).start n id prog args)) s).hel m = if m ∈ ts then (s.hel m).start m id prog args else s.hel m := by
  induction ts with
  | nil => intro s; exact ⟨rfl, fun m => by simp⟩
  | cons x l ih =>
    intro s
    obtain ⟨hx, hl⟩ := List.nodup_cons.mp hnd
    obtain ⟨h1, h2⟩ := ih hl (s.setHel x ((s.hel x).start x id prog args))
    rw [List.foldl_cons]
    refine ⟨h1, fun m => ?_⟩
    rw [h2, State.hel_setHel]
    by_cases hm : m ∈ l
    · have hne : m ≠ x := fun e => hx (e ▸ hm)
      rw [if_pos hm, if_neg hne, if_pos (List.mem_cons_of_mem _ hm)]
    · rw [if_neg hm]
      by_cases he : m = x
      · rw [if_pos he, if_pos (by rw [he]; exact List.mem_cons_self), he]
      · rw [if_neg he, if_neg]
        intro h
        rcases List.mem_cons.mp h with h | h
        · exact he h
        · exact hm h

theorem stopFold (ts : List Nat) : ∀ s : State,
    (ts.foldl (fun s n => s.setHel n { s.hel n with running := false, ended := none }) s) = { s with hels := (ts.foldl (fun s n => s.setHel n { s.hel n with running := false, ended := none }) s).hels } ∧
    ∀ m, (ts.foldl (fun s n => s.setHel n { s.hel n with running := false, ended := none }) s).hel m = if m ∈ ts then { s.hel m with running := false, ended := none } else s.hel m := by
  induction ts with
  | nil => intro s; exact ⟨rfl, fun m => by simp⟩
  | cons x l ih =>
    intro s
    obtain ⟨h1, h2⟩ := ih (s.setHel x { s.hel x with running := false, ended := none })
    rw [List.foldl_cons]
    refine ⟨h1, fun m => ?_⟩
    rw [h2, State.hel_setHel]
    by_cases he : m = x
    · rw [if_pos he, if_pos (show m ∈ x :: l by rw [he]; exact List.mem_cons_self), he]
      split <;> rfl
    · rw [if_neg he]
      have : m ∈ x :: l ↔ m ∈ l := by simp [he]
      simp only [this]

theorem maxFold (g : Nat → Nat) (l : List Nat) : ∀ x, x ≤ l.foldl (fun x n => max x (g n)) x ∧ (∀ m ∈ l, g m ≤ l.foldl (fun x n => max x (g n)) x) ∧
    (l.foldl (fun x n => max x (g n)) x = x ∨ ∃ m ∈ l, g m = l.foldl (fun x n => max x (g n)) x) := by
  induction l with
  | nil => intro x; simp
  | cons y l ih =>
    intro x
    rw [List.foldl_cons]
    obtain ⟨h1, h2, h3⟩ := ih (max x (g y))
    refine ⟨by omega, fun m hm => ?_, ?_⟩
    · rcases List.mem_cons.mp hm with rfl | hm
      · omega
      · exact h2 m hm
    · rcases h3 with h3 | ⟨m, hm, h⟩
      · by_cases hxy : g y ≤ x
        · left; rw [h3]; omega
        · right; exact ⟨y, List.mem_cons_self, by rw [h3]; omega⟩
      · right; exact ⟨m, List.mem_cons_of_mem _ hm, h⟩

theorem hlcTargets_nodup (ws : List Nat) : (hlcTargets ws).Nodup := by
  unfold hlcTargets
  dsimp only
  rw [List.nodup_flatMap]
  constructor
  · intro l _
    split
    · exact (List.nodup_range.filter _).map (fun a b h => by simpa using h)
    · exact List.nodup_nil
  · refine List.Pairwise.imp ?_ (List.nodup_range (n := 12))
    intro a b hab
    show List.Disjoint _ _
    intro m h1 h2
    dsimp only at h1 h2
    split at h1
    · split at h2
      · obtain ⟨x, hx, rfl⟩ := List.mem_map.mp h1
        obtain ⟨y, hy, e⟩ := List.mem_map.mp h2
        have hx := List.mem_range.mp (List.mem_filter.mp hx).1
        have hy := List.mem_range.mp (List.mem_filter.mp hy).1
        omega
      · cases h2
    · cases h1

theorem serves_hlcImage (s : State) (a n : Nat) : State.Serves AccessKey s (s.hlcImage a n).2.2.2.2 := by
  unfold State.hlcImage
  have h1 := serves_read s a 8
  generalize s.read a 8 = x at *
  obtain ⟨h, p, s1⟩ := x
  dsimp only at h1 ⊢
  have h2 := serves_read s1 (a + 64) (16 * bits (leNat h) 19 16)
  generalize s1.read (a + 64) (16 * bits (leNat h) 19 16) = x at *
  obtain ⟨hb, q, s2⟩ := x
  dsimp only at h2 ⊢
  have h3 := serves_read s2 (a + 64 + 64 * cdiv (bits (leNat h) 19 16) 4) (8 * n)
  generalize s2.read (a + 64 + 64 * cdiv (bits (leNat h) 19 16) 4) (8 * n) = x at *
  obtain ⟨ib, r, s3⟩ := x
  exact State.Serves.trans h1 (State.Serves.trans h2 h3)

theorem joinFold (g : Nat → Flags) (l : List Nat) (f : Flags) : l.foldl (fun f n => f.join (g n)) f = l.foldl (fun a k => a.join (g k)) f := rfl

theorem start_ok {h h0 : Hel} {m id : Nat} {prog : List Word} {ws : List Nat} (e : h = h0.start m id prog ((List.range 4).map fun i => BitVec.ofNat 64 (ws.getD (4 + i) 0))) :
    h = { h0 with pc := 0, running := true, ended := none, flags := .none, xrecvAt := none, progId := id, prog := h.prog, xregs := h.xregs, hregs := h.hregs } ∧
            (∀ r : BitVec 4, h.x r = if r = 1 then BitVec.ofNat 64 (m % 96) else if r = 2 then BitVec.ofNat 64 (m / 96)
              else if 3 ≤ r.toNat ∧ r.toNat ≤ 6 then BitVec.ofNat 64 (ws.getD (r.toNat + 1) 0) else 0) ∧
            (∀ r, ∀ k < 16, h.lane r k = 0) ∧
            (id ≠ 0 → id = h0.progId → h.prog = h0.prog) ∧
            (id = 0 ∨ id ≠ h0.progId → ∀ k, mapGet 0 h.prog k = if k < prog.length then prog.getD k 0 else mapGet 0 h0.prog k) := by
  subst e
  refine ⟨rfl, fun r => ?_, fun r k hk => ?_, fun h3 h4 => ?_, fun h3 k => ?_⟩
  · have hr : r = 0 ∨ r = 1 ∨ r = 2 ∨ r = 3 ∨ r = 4 ∨ r = 5 ∨ r = 6 ∨ r = 7 ∨ r = 8 ∨ r = 9 ∨ r = 10 ∨ r = 11 ∨ r = 12 ∨ r = 13 ∨ r = 14 ∨ r = 15 := by
      revert r; decide
    unfold Hel.x Hel.start
    rcases hr with rfl | rfl | rfl | rfl | rfl | rfl | rfl | rfl | rfl | rfl | rfl | rfl | rfl | rfl | rfl | rfl <;> simp
  · have hr : r.toNat < 16 := r.isLt
    unfold Hel.lane Hel.v Hel.start hlane
    have e : (Vector.replicate 16 (Vector.replicate 16 (0 : Lane)) : Vector HLanes 16).toList.getD r.toNat (Vector.replicate 16 0) = Vector.replicate 16 0 := by
      rw [List.getD_eq_getElem?_getD, Vector.toList_replicate, List.getElem?_replicate, if_pos hr]; rfl
    show ((Vector.replicate 16 (Vector.replicate 16 (0 : Lane)) : Vector HLanes 16).toList.getD r.toNat (Vector.replicate 16 0)).toList.getD k 0 = 0
    rw [e, List.getD_eq_getElem?_getD, Vector.toList_replicate, List.getElem?_replicate, if_pos hk]; rfl
  · unfold Hel.start
    dsimp only
    rw [if_pos]
    rw [← h4]; simpa using h3
  · unfold Hel.start
    dsimp only
    rw [if_neg]
    · have := zipFold prog h0.prog 0 k
      rw [Nat.zero_add, Nat.sub_zero] at this
      rw [this]
      simp
    · simp only [Bool.and_eq_true, bne_iff_ne, beq_iff_eq]
      rintro ⟨h5, h6⟩
      rcases h3 with h3 | h3
      · exact h5 h3
      · exact h3 h6

theorem serves_hels {P : Nat → Prop} {s t : State} (h : State.Serves P s t) : t.hels = s.hels := by rw [h.2]

theorem jobEnd {s : State} (hs : s.InRun) (hp0 : s.get Reg.PCR_PSTATE_STATE = 0) {k : BitVec 11} {j : HlcJob} (hk : s.hlcJobs[k.toNat]? = some j) (hds : j.doneSig < 4096) :
      let st := fun m => ((s.hel m).ended.map (·.status)).getD 0
      (∀ m ∈ j.targets, (s.hel m).ended ≠ none ∧ (s.hel m).ops = []) → Does (.helictiteJobEnd k) s fun t =>
        (∀ m, t.hel m = if m ∈ j.targets then { s.hel m with running := false, ended := none } else s.hel m) ∧
        ∃ status f, (∀ m ∈ j.targets, st m ≤ status) ∧ (status = 0 ∨ ∃ m ∈ j.targets, st m = status) ∧
          (f.invalid = true ↔ ∃ m ∈ j.targets, (s.hel m).flags.invalid = true) ∧ (f.overflow = true ↔ ∃ m ∈ j.targets, (s.hel m).flags.overflow = true) ∧
          (f.flush = true ↔ ∃ m ∈ j.targets, (s.hel m).flags.flush = true) ∧
          { s with hels := t.hels }.HlcEnds t j status f := by
  intro st hall
  have hall' : (j.targets.all (fun n => (s.hel n).ended.isSome && (s.hel n).ops.isEmpty) && !s.held) = true := by
    rw [hs.2, Bool.not_false, Bool.and_true, List.all_eq_true]
    intro m hm
    obtain ⟨h1, h2⟩ := hall m hm
    rw [h2]
    cases h : (s.hel m).ended with
    | none => exact absurd h h1
    | some x => rfl
  obtain ⟨f1, f2⟩ := stopFold j.targets s
  have hexec : exec (.helictiteJobEnd k) s = .next ((j.targets.foldl (fun s n => s.setHel n { s.hel n with running := false, ended := none }) s).endHlcJob j
      (j.targets.foldl (fun x n => max x (((s.hel n).ended.map (·.status)).getD 0)) 0) (j.targets.foldl (fun f n => f.join (s.hel n).flags) Flags.none)) := by
    show Host.Outcome.next (match s.hlcJobs[k.toNat]? with | none => _ | some j => _) = _
    rw [hk]
    dsimp only
    rw [if_pos hall']
  generalize hst : j.targets.foldl (fun x n => max x (((s.hel n).ended.map (·.status)).getD 0)) 0 = status at hexec
  generalize hff : j.targets.foldl (fun f n => f.join (s.hel n).flags) Flags.none = fl at hexec
  generalize j.targets.foldl (fun s n => s.setHel n { s.hel n with running := false, ended := none }) s = u at *
  have hu0 : u.get Reg.PCR_PSTATE_STATE = 0 := by rw [f1]; exact hp0
  have hend := hlcEnds_of (u := u) (j := j) (status := status) (f := fl) hu0 hds
  refine ⟨_, hexec, ?_⟩
  have hhels : (u.endHlcJob j status fl).hels = u.hels := by
    exact hend.2.1
  refine ⟨fun m => ?_, status, fl, ?_, ?_, ?_, ?_, ?_, ?_⟩
  · rw [← f2 m]; unfold State.hel; rw [hhels]
  · rw [← hst]; exact (maxFold st j.targets 0).2.1
  · rw [← hst]; exact (maxFold st j.targets 0).2.2
  · have := (join_foldl j.targets (fun m => (s.hel m).flags) Flags.none).1
    rw [← hff]; simpa [Flags.none] using this
  · have := (join_foldl j.targets (fun m => (s.hel m).flags) Flags.none).2.1
    rw [← hff]; simpa [Flags.none] using this
  · have := (join_foldl j.targets (fun m => (s.hel m).flags) Flags.none).2.2
    rw [← hff]; simpa [Flags.none] using this
  · rw [hhels, ← f1]; exact hend

end Sys2Proof.Machine
end

