-- ==== Sys2Proof/Laws/Flow.lean ====
section
/-! SUPPORT. Flowstone's commands: the head of its queues, their completion, what stays to decide, and pages released. -/

namespace Sys2Proof.Machine

open Sys2Proof

theorem fls_fetch {s u : State} {src : JobSrc} {op : Nat} {ws : List Nat} {w : Waiter} (hh : s.FlsHead src op ws w u) :
    s.flsFetch src = some (ws, w, false, u) := by
  obtain ⟨ho, hb, hd, hh⟩ := hh
  have hmine : ∀ x : Waiter, ¬(x.recAddr.isSome = true ↔ src = .ring) → (x.recAddr.isSome == (src == .ring)) = false := by
    intro x hx
    rw [beq_eq_false_iff_ne]
    intro he
    apply hx
    rw [he]; simp
  have hbl : s.flsBlocked src = false := by
    unfold State.flsBlocked State.ending
    rw [Bool.or_eq_false_iff]
    refine ⟨?_, ?_⟩
    · rw [List.any_eq_false]
      intro m hm
      rw [List.any_eq_true]
      rintro ⟨x, hx, he⟩
      rw [hmine x (hb m hm x hx)] at he
      cases he
    · rw [List.any_eq_false]
      intro e he
      have hx := hd e he
      revert hx
      cases e.work <;> intro hx <;> first | (simp [hmine _ (hx _ _ rfl)]; done) | simp
  unfold State.flsFetch
  rw [hbl, if_neg (by decide)]
  cases src with
  | queue =>
    obtain ⟨q, qs, h1, rfl, rfl, rfl⟩ := hh
    dsimp only
    rw [h1]
  | ring =>
    obtain ⟨h1, h2, a, bs, v, rfl, h3, rfl, rfl, rfl⟩ := hh
    dsimp only
    have hjp : s.jobPosted 3 (s.get Reg.FLS_CTL_JOB_SIG) (s.ring 3).taken = true := by unfold State.jobPosted; simpa using h2
    unfold State.readRecordOf
    rw [if_pos (by rw [hjp, flag_eq, h1]; rfl), show s.read _ 64 = _ from h3]
    rfl

theorem fls_run {s u : State} {src : JobSrc} {op : Nat} {ws : List Nat} {w : Waiter} (hh : s.FlsHead src op ws w u) (h0 : s.InRun) :
    u.get Reg.PCR_PSTATE_STATE = 0 ∧ w.sig < 4096 := by
  obtain ⟨ho, hb, hd, hh⟩ := hh
  cases src with
  | queue =>
    obtain ⟨q, qs, h1, rfl, rfl, rfl⟩ := hh
    exact ⟨h0.1, by show 0 < 4096; omega⟩
  | ring =>
    obtain ⟨h1, h2, a, bs, v, rfl, h3, rfl, rfl, rfl⟩ := hh
    have := serves_read s (ringAddr (s.get Reg.FLS_RING_BASE) (s.get Reg.FLS_RING_ENTRIES_M1) 64 (s.ring 3).taken) 64
    rw [h3] at this
    exact ⟨(State.get_put_ne (by decide)).trans ((this.get (f := Reg.PCR_PSTATE_STATE) (by simp [AccessKey, LogKeys])).trans h0.1), bits_lt _ 43 32⟩

theorem fls_done {u : State} {w : Waiter} (st : Nat) (h0 : u.get Reg.PCR_PSTATE_STATE = 0) (hw : w.sig < 4096) : u.FlsDone (u.completeFls w st) w st := by
  unfold State.completeFls
  refine ⟨fun h => by rw [h], fun a h => ?_⟩
  rw [h]
  dsimp only
  intro hv
  have sx := serves_writeLogged u 9 (a + 7) [BitVec.ofNat 8 st]
  have hv' : (u.writeLogged 9 (a + 7) [BitVec.ofNat 8 st]).heldSince u.heldSeq = [] := hv
  generalize u.writeLogged 9 (a + 7) [BitVec.ofNat 8 st] = x at *
  unfold State.endWork
  rw [if_pos hv', get_post ((sx.get (f := Reg.PCR_PSTATE_STATE) (by simp [AccessKey, LogKeys])).trans h0)]
  refine ⟨rfl, (keeps_refl x _).put (by simp), ?_⟩
  show State.get _ (Reg.GLB_SIGn_VALUE w.sig) = _
  rw [State.get_put_eq]
  rw [show x.sig w.sig = u.sig w.sig from sx.get (by simp [AccessKey, LogKeys]; omega)]; rfl

theorem insertBy_mem {α : Type} (key : α → Nat) (x y : α) (l : List α) : y ∈ insertBy key x l ↔ y = x ∨ y ∈ l := by
  induction l with
  | nil => simp [insertBy]
  | cons a l ih =>
    unfold insertBy
    split
    · simp
    · rw [List.mem_cons, ih, List.mem_cons]
      tauto

theorem draining_none {s : State} (h : ∀ m < 6, s.slotState m ≠ 4) : s.draining = none := by
  unfold State.draining
  rw [List.find?_eq_none]
  intro m hm
  have h6 : m < 6 := by
    have h : m ∈ [0, 1, 2, 3, 4, 5] := hm
    simp only [List.mem_cons, List.not_mem_nil, or_false] at h
    omega
  simpa using h m h6

theorem settle_calm {s : State} (h : s.Calm) : s.settle = s := by
  unfold State.settle
  have h1 : s.syncDrain = s := by unfold State.syncDrain; rw [draining_none h.1]
  rw [h1]
  unfold State.makeRoom State.waitingPrefetches
  have h2 : (s.moves.filter fun m => m.kind == .promotion && m.prefetch.isSome && !m.started) = [] := by
    rw [List.filter_eq_nil_iff]
    intro m hm hh
    simp only [Bool.and_eq_true, beq_iff_eq, Bool.not_eq_true', Option.isSome_iff_ne_none] at hh
    have := h.2 m hm hh.1.1 hh.1.2
    rw [this] at hh; cases hh.2
  rw [h2]; rfl

theorem runFls_go {s u : State} {src : JobSrc} {op : Nat} {ws : List Nat} {w : Waiter} (hh : s.FlsHead src op ws w u) (h1 : 1 ≤ op) (h2 : op ≤ 10)
    (hr : flsReservedOk ws = true) (hn : flsNeedsObj op = false ∨ u.objById (recBits ws 0 31 16) ≠ none) (f : State → List Nat → Waiter → State) :
    s.runFls src op f = f u ws w := by
  unfold State.runFls
  rw [fls_fetch hh]
  dsimp only
  rw [if_neg (by decide), hh.1, if_neg (by omega), if_neg (by simp), if_neg]
  rw [hr]
  rcases hn with hn | hn
  · rw [hn]; simp
  · cases h : u.objById (recBits ws 0 31 16) with
    | none => exact absurd h hn
    | some o => simp

theorem runFls_bad {s u : State} {src : JobSrc} {op : Nat} {ws : List Nat} {w : Waiter} (hh : s.FlsHead src op ws w u) (h1 : 1 ≤ op) (h2 : op ≤ 10)
    (hr : flsReservedOk ws = false ∨ (op ∈ [2, 3, 4, 5, 6, 8] ∧ u.objById (recBits ws 0 31 16) = none)) (f : State → List Nat → Waiter → State) :
    s.runFls src op f = u.completeFls w 2 := by
  unfold State.runFls
  rw [fls_fetch hh]
  dsimp only
  rw [if_neg (by decide), hh.1, if_neg (by omega), if_neg (by simp), if_pos]
  rcases hr with hr | ⟨hr, hn⟩
  · rw [hr]; rfl
  · rw [hn]
    have : flsNeedsObj op = true := by simp only [List.mem_cons, List.not_mem_nil, or_false] at hr; unfold flsNeedsObj; rcases hr with rfl | rfl | rfl | rfl | rfl | rfl <;> rfl
    rw [this]; simp

theorem runFls_other {s u : State} {src : JobSrc} {op k : Nat} {ws : List Nat} {w : Waiter} (hh : s.FlsHead src op ws w u) (h1 : 1 ≤ op) (h2 : op ≤ 10)
    (hk : op ≠ k) (f : State → List Nat → Waiter → State) : s.runFls src k f = s := by
  unfold State.runFls
  rw [fls_fetch hh]
  dsimp only
  rw [if_neg (by decide), hh.1, if_neg (by omega), if_pos hk]

theorem cmdObj_of {u : State} {ws : List Nat} {o : Obj} (h : u.objById (recBits ws 0 31 16) = some o) : u.cmdObj ws = o := by
  unfold State.cmdObj; rw [h]; rfl

theorem find_move_states {u : State} {id : Nat} : (u.moveState id = 0 ↔ u.moveOf id = none) ∧
    ∀ k, u.moveState id = MoveKind.code k ↔ ∃ m, u.moveOf id = some m ∧ m.kind = k := by
  unfold State.moveState
  constructor
  · cases u.moveOf id with
    | none => simp
    | some m => cases m with | mk _ _ k => cases k <;> simp [MoveKind.code]
  · intro k
    cases u.moveOf id with
    | none => cases k <;> simp [MoveKind.code]
    | some m => cases m with | mk _ _ k2 => cases k <;> cases k2 <;> simp [MoveKind.code]

theorem calm_of {u x : State} (h : u.Calm) (hs : ∀ m < 6, x.slotState m = u.slotState m) (hm : ∀ m ∈ x.moves, m.kind = .promotion → m.prefetch ≠ none → m.started = true) : x.Calm :=
  ⟨fun m h6 => by rw [hs m h6]; exact h.1 m h6, hm⟩

theorem pinCancels_calm {x : State} (h : ∀ m < 6, x.slotState m ≠ 4) (o : Obj) : x.pinCancels o = x := by
  unfold State.pinCancels; rw [draining_none h]

theorem slot_violGlb (u : State) (a k x m : Nat) (hm : m < 6) : (u.violGlb a k x).slotState m = u.slotState m :=
  (keeps_refl u globalViolFields).violGlb (fun _ h => h) _ (by simp [globalViolFields]; omega)

theorem settle_one (x : State) (l : List Move) (pm : Move) (h1 : ∀ m < 6, x.slotState m ≠ 4) (h2 : x.moves = l ++ [pm]) (h3 : pm.kind = .promotion) (h4 : pm.started = false)
    (h5 : ∀ m ∈ l, m.started = true) (h6 : x.promotionNeed pm ≤ x.freeBonded + x.freeing) : x.settle = x := by
  unfold State.settle
  have e : x.syncDrain = x := by unfold State.syncDrain; rw [draining_none h1]
  rw [e]
  unfold State.makeRoom State.waitingPrefetches
  have e2 : (l.filter fun m => m.kind == .promotion && m.prefetch.isSome && !m.started) = [] := by
    rw [List.filter_eq_nil_iff]
    intro m hm
    rw [h5 m hm]; simp
  rw [h2, List.filter_append, e2, List.nil_append]
  by_cases hp : pm.prefetch.isSome = true
  · have e3 : ([pm].filter fun m => m.kind == .promotion && m.prefetch.isSome && !m.started) = [pm] := by simp [h3, h4, hp]
    rw [e3]
    show State.roomFor [pm] _ _ = _
    unfold State.roomFor
    dsimp only
    rw [if_pos (by exact_mod_cast h6)]
    rfl
  · have e3 : ([pm].filter fun m => m.kind == .promotion && m.prefetch.isSome && !m.started) = [] := by simp [hp]
    rw [e3]; rfl

theorem objById_map (u : State) (g : Obj → Obj) (hg : ∀ x, (g x).id = x.id) (i : Nat) : ({ u with objects := u.objects.map g } : State).objById i = (u.objById i).map g := by
  unfold State.objById
  dsimp only
  induction u.objects with
  | nil => rfl
  | cons x l ih =>
    rw [List.map_cons]
    by_cases h : x.id = i
    · rw [List.find?_cons_of_pos (by simpa [hg] using h), List.find?_cons_of_pos (by simpa using h)]; rfl
    · rw [List.find?_cons_of_neg (by simpa [hg] using h), List.find?_cons_of_neg (by simpa using h), ih]

theorem mapFind_filter {α : Type} (m : Map α) (p : Nat → Bool) (k : Nat) : mapFind (m.filter fun e => p e.1) k = if p k = true then mapFind m k else none := by
  induction m with
  | nil => simp
  | cons e m ih =>
    obtain ⟨k', v⟩ := e
    by_cases hp : p k' = true
    · simp only [List.filter_cons, hp, if_true]
      unfold mapFind
      rw [ih]
      by_cases hk : k' = k
      · subst hk; simp [hp]
      · simp [hk]
    · simp only [List.filter_cons, hp, if_false, Bool.false_eq_true]
      rw [ih]
      conv_rhs => unfold mapFind
      by_cases hk : k' = k
      · subst hk; simp [hp]
      · simp [hk]

theorem memClear_byte (m : Memory) (a n b : Nat) : memByte (memClear m a n) b = if a ≤ b ∧ b < a + n then 0 else memByte m b := by
  unfold memClear memByte mapGet
  rw [mapFind_filter m (fun k => decide (k < a) || decide (a + n ≤ k))]
  by_cases h : a ≤ b ∧ b < a + n
  · rw [if_pos h, if_neg]; rfl
    simp; omega
  · rw [if_neg h, if_pos]
    simp; omega

/-- What a release of pages leaves of the rest. -/
def State.Rel (s x : State) (ps : List Nat) : Prop :=
  x.chambers = s.chambers ∧ x.objects = s.objects ∧ s.KeepsFields x [Reg.HST_SF_BISNP, Reg.FLS_ELIDED_COUNT] ∧
  (∀ m ∈ x.moves, ∃ m' ∈ s.moves, m.kind = m'.kind ∧ m.prefetch = m'.prefetch ∧ m.started = m'.started) ∧
  (∀ q, x.frameOf q = if q ∈ ps then none else s.frameOf q) ∧
  (∀ a, memByte x.mem a = if a / 2 ^ 21 ∈ ps then 0 else memByte s.mem a) ∧
  ∀ g, x.poisoned g = if g / 8192 ∈ ps then false else s.poisoned g

theorem State.Rel.trans {s x y : State} {ps qs : List Nat} (h : s.Rel x ps) (k : x.Rel y qs) : s.Rel y (ps ++ qs) := by
  obtain ⟨h1, h2, h3, h4, h5, h6, h7⟩ := h
  obtain ⟨k1, k2, k3, k4, k5, k6, k7⟩ := k
  refine ⟨k1.trans h1, k2.trans h2, h3.trans k3, fun m hm => ?_, fun q => ?_, fun a => ?_, fun g => ?_⟩
  · obtain ⟨m', hm', a1, a2, a3⟩ := k4 m hm
    obtain ⟨m2, hm2, b1, b2, b3⟩ := h4 m' hm'
    exact ⟨m2, hm2, a1.trans b1, a2.trans b2, a3.trans b3⟩
  · rw [k5, h5]; simp only [List.mem_append]; by_cases a1 : q ∈ ps <;> by_cases a2 : q ∈ qs <;> simp [a1, a2]
  · rw [k6, h6]; simp only [List.mem_append]; generalize a / 2 ^ 21 = c; by_cases a1 : c ∈ ps <;> by_cases a2 : c ∈ qs <;> simp [a1, a2]
  · rw [k7, h7]; simp only [List.mem_append]; by_cases a1 : g / 8192 ∈ ps <;> by_cases a2 : g / 8192 ∈ qs <;> simp [a1, a2]

theorem rel_refl (s : State) : s.Rel s [] := ⟨rfl, rfl, fun _ _ => rfl, fun m hm => ⟨m, hm, rfl, rfl, rfl⟩, fun _ => by simp, fun _ => by simp, fun _ => by simp⟩

theorem rel_bi (s : State) (g : Nat) (w : Bool) : s.Rel (s.backInvalidate g w) [] := by
  have hd : ∀ (l : List Nat) (u : State), ∃ a b c, l.foldl State.dropLine u = { u with snoop := a, biWait := b, biAt := c } := by
    intro l
    induction l with
    | nil => exact fun u => ⟨_, _, _, rfl⟩
    | cons x l ih => intro u; obtain ⟨a, b, c, h⟩ := ih (u.dropLine x); exact ⟨a, b, c, h⟩
  unfold State.backInvalidate
  dsimp only
  split
  · exact rel_refl s
  · obtain ⟨a, b, c, h⟩ := hd (s.cachedLines g) s
    rw [h]
    exact ⟨rfl, rfl, State.KeepsFields.put (t := { s with snoop := a, biWait := b, biAt := c }) (fun _ _ => rfl) (by simp),
      fun m hm => ⟨m, hm, rfl, rfl, rfl⟩, fun _ => by simp; rfl, fun _ => by simp; rfl, fun _ => by simp; rfl⟩

theorem rel_bis (l : List Nat) : ∀ s : State, s.Rel (l.foldl (fun s g => s.backInvalidate g true) s) [] := by
  induction l with
  | nil => exact rel_refl
  | cons x l ih => exact fun s => (rel_bi s x true).trans (ih _)

theorem rel_warm (s : State) (p : Nat) : s.Rel (s.warmPage p) [] := by
  unfold State.warmPage
  generalize mapSet 0 s.heat p (satAdd 16 (mapGet 0 s.heat p) 8192) = h
  generalize 8192 = k
  dsimp only
  split
  · exact ⟨rfl, rfl, State.KeepsFields.put (t := { s with heat := h }) (fun _ _ => rfl) (by simp),
      fun m hm => ⟨m, hm, rfl, rfl, rfl⟩, fun _ => by simp; rfl, fun _ => by simp; rfl, fun _ => by simp; rfl⟩
  · exact ⟨rfl, rfl, fun _ _ => rfl, fun m hm => ⟨m, hm, rfl, rfl, rfl⟩, fun _ => by simp; rfl, fun _ => by simp, fun _ => by simp; rfl⟩

theorem rel_page (s : State) (p : Nat) : s.Rel (s.releasePage p) [p] := by
  unfold State.releasePage
  extract_lets gs cached s1 s2
  have h1 : s.Rel s1 [] := (rel_bis _ s).trans (rel_warm _ p)
  have h2 : s1.Rel s2 [p] := by
    refine ⟨rfl, rfl, fun _ _ => rfl, fun m hm => ?_, fun q => ?_, fun a => ?_, fun g => ?_⟩
    · obtain ⟨m', hm', rfl⟩ := List.mem_map.mp hm
      exact ⟨m', hm', rfl, rfl, rfl⟩
    · show mapFind (mapErase s1.pages p) q = _
      rw [mapFind_erase]; simp; rfl
    · show memByte (memClear s1.mem (p * pageBytes) pageBytes) a = _
      rw [memClear_byte]
      have : (p * pageBytes ≤ a ∧ a < p * pageBytes + pageBytes) ↔ a / 2 ^ 21 ∈ [p] := by
        rw [List.mem_singleton]; unfold pageBytes; omega
      simp only [this]
    · show mapGet false (s1.poison.filter fun e => e.1 / 8192 != p) g = _
      unfold mapGet
      rw [mapFind_filter s1.poison (fun k => k / 8192 != p)]
      by_cases hg : g / 8192 = p
      · simp [hg]
      · simp [hg]; rfl
  have h3 : s2.Rel (if s2.mirrorsPage p then { s2 with mirrorQ := s2.mirrorQ ++ gs } else s2) [] := by
    split
    · exact ⟨rfl, rfl, fun _ _ => rfl, fun m hm => ⟨m, hm, rfl, rfl, rfl⟩, fun _ => by simp; rfl, fun _ => by simp, fun _ => by simp; rfl⟩
    · exact rel_refl _
  exact (h1.trans h2).trans h3

theorem rel_pages (l : List Nat) : ∀ s : State, s.Rel (l.foldl State.releasePage s) l := by
  induction l with
  | nil => exact rel_refl
  | cons x l ih => exact fun s => (rel_page s x).trans (ih _)

/-- What Flowstone's decisions change: moves, of which those of objects stay and new ones have taken no frame. -/
def State.Decides (s t : State) : Prop :=
  t = { s with moves := t.moves } ∧ (∀ v ∈ t.moves, v ∈ s.moves ∨ v.dest = []) ∧ ∀ v ∈ s.moves, v.page = none → v ∈ t.moves

theorem decides_refl (s : State) : s.Decides s := ⟨rfl, fun _ h => .inl h, fun _ h _ => h⟩
theorem State.Decides.trans {s t u : State} (h : s.Decides t) (k : t.Decides u) : s.Decides u := by
  obtain ⟨h1, h2, h3⟩ := h
  obtain ⟨k1, k2, k3⟩ := k
  refine ⟨by rw [k1, h1], fun v hv => ?_, fun v hv hp => k3 v (h3 v hv hp) hp⟩
  rcases k2 v hv with h | h
  · exact h2 v h
  · exact .inr h
theorem decides_queue (s : State) (m : Move) (h : m.dest = []) : s.Decides (s.queueMove m) :=
  ⟨rfl, fun v hv => (List.mem_append.mp hv).imp_right fun hv => by rw [List.mem_singleton.mp hv]; exact h, fun v hv _ => List.mem_append_left _ hv⟩
theorem decides_abort (s : State) (p : Move → Bool) (h : ∀ v, p v = true → v.page ≠ none) : s.Decides (s.abortMoves p) :=
  ⟨rfl, fun v hv => .inl (List.mem_filter.mp hv).1, fun v hv hp => List.mem_filter.mpr ⟨hv, by
    cases hb : p v
    · rfl
    · exact absurd hp (h v hb)⟩⟩
theorem decides_fold {α : Type} (f : State → α → State) (hf : ∀ (s : State) x, s.Decides (f s x)) (l : List α) : ∀ s : State, s.Decides (l.foldl f s) := by
  induction l with
  | nil => exact decides_refl
  | cons x l ih => exact fun s => (hf s x).trans (ih _)
theorem decides_demotion (s : State) (o : Obj) : s.Decides (s.queueDemotion o) := by
  unfold State.queueDemotion; split
  · exact decides_refl s
  · exact decides_queue s _ rfl
theorem decides_room (l : List Move) : ∀ (a : Int) (s : State), s.Decides (State.roomFor l a s) := by
  induction l with
  | nil => exact fun _ => decides_refl
  | cons m l ih =>
    intro a s
    unfold State.roomFor
    extract_lets need
    split
    · exact ih _ _
    · split
      · exact (decides_fold _ decides_demotion _ s).trans (ih _ _)
      · exact ih _ _
theorem decides_sync (s : State) : s.Decides s.syncDrain := by
  unfold State.syncDrain
  split
  · exact decides_refl s
  · extract_lets s1 objs s2 lone
    have h1 : s.Decides s1 := decides_abort s _ fun v hv => by
      intro hn; rw [hn] at hv; cases hv
    have h2 : s1.Decides s2 := decides_fold (fun (s : State) (o : Obj) => s.queueMove (Move.of o.id .relocation)) (fun s o => decides_queue s _ rfl) objs s1
    exact (h1.trans h2).trans (decides_fold (fun (s : State) (p : Nat) => s.queueMove { Move.of 0 .relocation with page := some p }) (fun s p => decides_queue s _ rfl) lone s2)
theorem decides_settle (s : State) : s.Decides s.settle := (decides_sync s).trans (decides_room _ _ _)

theorem draining_eq {s : State} {m : Nat} (hm : m < 6) (h : s.slotState m = 4) (ho : ∀ k < 6, k ≠ m → s.slotState k ≠ 4) : s.draining = some m := by
  unfold State.draining
  cases hf : slotList.find? fun k => s.slotState k == 4 with
  | none =>
    rw [List.find?_eq_none] at hf
    have : m ∈ slotList := by show m ∈ [0, 1, 2, 3, 4, 5]; simp only [List.mem_cons, List.not_mem_nil, or_false]; omega
    have := hf m this
    rw [h] at this
    exact absurd rfl this
  | some k =>
    have h1 := List.mem_of_find?_eq_some hf
    have h2 := List.find?_some hf
    have h3 : k < 6 := by
      have : k ∈ [0, 1, 2, 3, 4, 5] := h1
      simp only [List.mem_cons, List.not_mem_nil, or_false] at this; omega
    by_cases hk : k = m
    · rw [hk]
    · exact absurd (by simpa using h2) (ho k h3 hk)

theorem draining_some_iff {s : State} : s.draining.isSome = true ↔ ∃ k < 6, s.slotState k = 4 := by
  unfold State.draining
  rw [List.find?_isSome]
  constructor
  · rintro ⟨k, hk, h⟩
    have : k ∈ [0, 1, 2, 3, 4, 5] := hk
    simp only [List.mem_cons, List.not_mem_nil, or_false] at this
    exact ⟨k, by omega, by simpa using h⟩
  · rintro ⟨k, hk, h⟩
    exact ⟨k, by show k ∈ [0, 1, 2, 3, 4, 5]; simp only [List.mem_cons, List.not_mem_nil, or_false]; omega, by simpa using h⟩

theorem sync_relocates {s : State} {m : Nat} (hd : s.draining = some m) {o : Obj} (ho : o ∈ s.objects) (hp : s.objOnSlot o m = true)
    (hr : ∀ v ∈ s.moves, v.isOf o.id = false) : ∃ v ∈ s.syncDrain.moves, v.isOf o.id = true ∧ v.kind = .relocation := by
  unfold State.syncDrain
  rw [hd]
  dsimp only
  generalize h1 : (s.abortMoves fun v => match v.page with | some p => !s.pageMoveStands p m | none => false) = s1
  have hs1 : s1.objects = s.objects ∧ s1.pages = s.pages ∧ ∀ v ∈ s1.moves, v ∈ s.moves := by
    rw [← h1]; exact ⟨rfl, rfl, fun v hv => (List.mem_filter.mp hv).1⟩
  have hst : s1.moveState o.id = 0 := by
    rw [find_move_states.1]
    unfold State.moveOf
    rw [List.find?_eq_none]
    intro v hv
    rw [hr v (hs1.2.2 v hv)]; decide
  have hon : s1.objOnSlot o m = true := by
    unfold State.objOnSlot State.heldPages at *
    rw [hs1.2.1]; exact hp
  have hmem : o ∈ s1.objects.filter fun o => s1.objOnSlot o m && s1.moveState o.id == 0 := List.mem_filter.mpr ⟨by rw [hs1.1]; exact ho, by rw [hon, hst]; rfl⟩
  have key : ∀ (l : List Obj) (u : State), o ∈ l → ∃ v ∈ (l.foldl (fun s o => s.queueMove (Move.of o.id .relocation)) u).moves, v.isOf o.id = true ∧ v.kind = .relocation := by
    intro l
    induction l with
    | nil => intro _ h; cases h
    | cons x l ih =>
      intro u h
      rcases List.mem_cons.mp h with rfl | h
      · have hq : Move.of o.id .relocation ∈ (u.queueMove (Move.of o.id .relocation)).moves := List.mem_append_right _ (List.mem_singleton_self _)
        have := (decides_fold (fun (s : State) (o : Obj) => s.queueMove (Move.of o.id .relocation)) (fun s o => decides_queue s _ rfl) l (u.queueMove (Move.of o.id .relocation))).2.2 _ hq rfl
        exact ⟨_, this, by simp [Move.isOf, Move.of], rfl⟩
      · exact ih _ h
  obtain ⟨v, hv, hi, hk⟩ := key _ s1 hmem
  generalize (s1.objects.filter fun o => s1.objOnSlot o m && s1.moveState o.id == 0).foldl (fun s o => s.queueMove (Move.of o.id .relocation)) s1 = s2 at *
  refine ⟨v, ?_, hi, hk⟩
  refine (decides_fold (fun (s : State) (p : Nat) => s.queueMove { Move.of 0 .relocation with page := some p }) (fun s p => decides_queue s _ rfl) _ s2).2.2 v hv ?_
  unfold Move.isOf at hi
  simp only [Bool.and_eq_true, Option.isNone_iff_eq_none] at hi
  exact hi.1

theorem panelEvent_ok (s : State) (f : FieldRef) (i : Nat) :
    s.KeepsFields (s.panelEvent f i) [f] ∧ ∃ F I, s.panelEvent f i = { s with fields := F, irq := I } := by
  unfold State.panelEvent
  split
  · exact ⟨keeps_refl s _, _, _, rfl⟩
  · exact ⟨((keeps_refl s _).put (List.mem_singleton_self f)).of_fields rfl rfl rfl, _, _, rfl⟩

theorem setSlot_ok (s : State) (m st : Nat) (hm : m < 6) (hst : st < 8) : (s.setSlot m st).slotState m = st ∧
    s.KeepsFields (s.setSlot m st) [Reg.BMCm_STATE_STATE m, Reg.BMCm_STATE_CHANNELS m, Reg.SVC_EVENT_SLOT_STATE] ∧
    ∃ F I P, s.setSlot m st = { s with fields := F, irq := I, slotPower := P } := by
  unfold State.setSlot
  split
  · next h => exact ⟨h, keeps_refl s _, _, _, _, rfl⟩
  · extract_lets s1 s2
    have h1 : s.KeepsFields s1 [Reg.BMCm_STATE_STATE m, Reg.BMCm_STATE_CHANNELS m, Reg.SVC_EVENT_SLOT_STATE] := fun _ _ => rfl
    have h2 : s.KeepsFields s2 [Reg.BMCm_STATE_STATE m, Reg.BMCm_STATE_CHANNELS m, Reg.SVC_EVENT_SLOT_STATE] := .ite h1 (h1.put (by simp))
    have e2 : ∃ F P, s2 = { s with fields := F, slotPower := P } := by
      simp only [s2]
      split <;> exact ⟨_, _, rfl⟩
    clear_value s2
    obtain ⟨F, P, e2⟩ := e2
    obtain ⟨k, F', I, e⟩ := panelEvent_ok (s2.put (Reg.BMCm_STATE_STATE m) st) Reg.SVC_EVENT_SLOT_STATE m
    refine ⟨?_, (h2.put (by simp)).trans (k.mono (by simp)), ?_⟩
    · refine (k _ (by simp; omega)).trans (State.get_put_eq.trans (Nat.mod_eq_of_lt hst))
    · rw [e, e2]
      exact ⟨_, _, _, rfl⟩

theorem setSlot_other {s : State} {m k st : Nat} (hm : m < 6) (hk : k < 6) (hne : k ≠ m) (hst : st < 8) : (s.setSlot m st).slotState k = s.slotState k :=
  (setSlot_ok s m st hm hst).2.1 _ (by simp; omega)

theorem placePages_ok (pick : State → Nat → Option (Frame × Nat)) (Q : Frame → Prop) (hq : ∀ s a f n, pick s a = some (f, n) → Q f) (ps : List Nat) :
    ∀ (a : Nat) (s : State) (d : Map Frame), State.placePages pick ps a s = some d → d.map (·.1) = ps ∧ ∀ e ∈ d, Q e.2 := by
  induction ps with
  | nil => intro a s d h; cases h; exact ⟨rfl, by simp⟩
  | cons p ps ih =>
    intro a s d h
    unfold State.placePages at h
    split at h
    · cases h
    · next f n hf =>
      cases h2 : State.placePages pick ps n (s.reserve p f) with
      | none => rw [h2] at h; cases h
      | some d2 =>
        rw [h2] at h
        cases h
        obtain ⟨k1, k2⟩ := ih n _ d2 h2
        refine ⟨by rw [List.map_cons, k1], fun e he => ?_⟩
        rcases List.mem_cons.mp he with rfl | he
        · exact hq _ _ _ _ hf
        · exact k2 e he

theorem planDest_ok {s : State} {m : Move} {d : Map Frame} (h : s.planDest m = some d) : d.map (·.1) = s.movePages m ∧
    (m.kind = .promotion → ∀ e ∈ d, e.2.isBonded = true) ∧ (m.kind = .demotion → ∀ e ∈ d, e.2.isBonded = false) := by
  unfold State.planDest at h
  dsimp only at h
  split at h
  · next hk =>
    split at h
    · cases h
    · have := placePages_ok (fun s _ => s.takeBonded.map fun f => (f, 0)) (fun f => f.isBonded = true) (by
        intro s a f n hf
        obtain ⟨g, hg, he⟩ := Option.map_eq_some_iff.mp hf
        cases he
        unfold State.takeBonded at hg
        split at hg
        · cases hg
        · cases hg; rfl) _ _ _ _ h
      exact ⟨this.1, fun _ => this.2, fun h' => (nomatch (hk.symm.trans h'))⟩
  · next hk =>
    split at h
    · cases h
    · have := placePages_ok State.pickInTurn (fun f => f.isBonded = false) (by
        intro s a f n hf
        unfold State.pickInTurn at hf
        have key : ∀ l : List Nat, firstSome (l.map fun m => (s.takeCart m).map fun f => (f, (m + 1) % 6)) = some (f, n) → f.isBonded = false := by
          intro l
          induction l with
          | nil => intro h; cases h
          | cons x l ih =>
            intro h
            rw [List.map_cons] at h
            cases hx : s.takeCart x with
            | none => rw [hx] at h; exact ih h
            | some g =>
              rw [hx] at h
              cases h
              unfold State.takeCart at hx
              split at hx
              · cases hx
              · cases hx; rfl
        exact key _ hf) _ _ _ _ h
      exact ⟨this.1, fun h' => (nomatch (hk.symm.trans h')), fun _ => this.2⟩
  · next hk =>
    split at h
    · cases h
    · have := placePages_ok (fun s _ => s.pickRelocation) (fun _ => True) (fun _ _ _ _ _ => trivial) _ _ _ _ h
      exact ⟨this.1, fun h' => (nomatch (hk.symm.trans h')), fun h' => (nomatch (hk.symm.trans h'))⟩

theorem switch_one (s : State) (e : Nat × Frame) : s.switchPage e = { s with pages := (s.switchPage e).pages, lostPages := (s.switchPage e).lostPages, fields := (s.switchPage e).fields } ∧
    s.KeepsFields (s.switchPage e) [Reg.FLS_MOVED_COUNT, Reg.FLS_ELIDED_COUNT] ∧
    ∀ p, (s.switchPage e).frameOf p = if p = e.1 then (if s.liveGranules e.1 = 0 then none else some e.2) else s.frameOf p := by
  unfold State.switchPage
  dsimp only
  refine ⟨rfl, State.KeepsFields.of_fields (((keeps_refl s _).put (f := Reg.FLS_MOVED_COUNT) (v := s.get Reg.FLS_MOVED_COUNT + 256 * s.liveGranules e.1) (by simp)).put (f := Reg.FLS_ELIDED_COUNT) (v := (s.count Reg.FLS_MOVED_COUNT (256 * s.liveGranules e.1)).get Reg.FLS_ELIDED_COUNT + (8192 - s.liveGranules e.1)) (by simp)) rfl rfl rfl, fun p => ?_⟩
  unfold State.frameOf
  show mapFind (if s.liveGranules e.1 = 0 then mapErase s.pages e.1 else mapInsert s.pages e.1 e.2) p = _
  split
  · rw [mapFind_erase]
  · rw [mapFind_insert]

theorem switch_fold (d : Map Frame) : ∀ s : State, (d.map (·.1)).Nodup →
    d.foldl State.switchPage s = { s with pages := (d.foldl State.switchPage s).pages, lostPages := (d.foldl State.switchPage s).lostPages, fields := (d.foldl State.switchPage s).fields } ∧
    s.KeepsFields (d.foldl State.switchPage s) [Reg.FLS_MOVED_COUNT, Reg.FLS_ELIDED_COUNT] ∧
    (∀ p, p ∉ d.map (·.1) → (d.foldl State.switchPage s).frameOf p = s.frameOf p) ∧
    ∀ p f, (p, f) ∈ d → (d.foldl State.switchPage s).frameOf p = if s.liveGranules p = 0 then none else some f := by
  induction d with
  | nil => intro s _; exact ⟨rfl, keeps_refl _ _, fun _ _ => rfl, by simp⟩
  | cons e d ih =>
    intro s hn
    obtain ⟨h1, h2, h3⟩ := switch_one s e
    rw [List.map_cons, List.nodup_cons] at hn
    obtain ⟨k1, k2, k3, k4⟩ := ih (s.switchPage e) hn.2
    rw [List.foldl_cons]
    have hl : ∀ p, (s.switchPage e).liveGranules p = s.liveGranules p := by
      intro p; rw [h1]; rfl
    generalize s.switchPage e = x at *
    generalize d.foldl State.switchPage x = y at *
    refine ⟨by rw [k1, h1], h2.trans k2, fun p hp => ?_, fun p f hp => ?_⟩
    · simp only [List.map_cons, List.mem_cons, not_or] at hp
      rw [k3 p hp.2, h3, if_neg hp.1]
    · rcases List.mem_cons.mp hp with rfl | hp
      · rw [k3 _ hn.1, h3, if_pos rfl]
      · rw [k4 p f hp, hl]

theorem heat_halved (m : Map Nat) (p n : Nat) : (p, n) ∈ halveHeat m ↔ n ≠ 0 ∧ ∃ h, (p, h) ∈ m ∧ n = h / 2 := by
  unfold halveHeat
  rw [List.mem_filter, List.mem_map]
  constructor
  · rintro ⟨⟨e, he, h⟩, hn⟩
    cases h
    exact ⟨by simpa using hn, e.2, he, rfl⟩
  · rintro ⟨hn, h, hm, e⟩
    exact ⟨⟨(p, h), hm, by rw [e]⟩, by simpa using hn⟩

theorem sortBy_mem {α : Type} (key : α → Nat) (y : α) (l : List α) : y ∈ sortBy key l ↔ y ∈ l := by
  have : ∀ (l a : List α), y ∈ l.foldl (fun a x => insertBy key x a) a ↔ y ∈ a ∨ y ∈ l := by
    intro l
    induction l with
    | nil => simp
    | cons x l ih =>
      intro a
      rw [List.foldl_cons, ih, insertBy_mem, List.mem_cons]
      constructor
      · rintro ((h | h) | h)
        exacts [.inr (.inl h), .inl h, .inr (.inr h)]
      · rintro (h | h | h)
        exacts [.inl (.inr h), .inl (.inl h), .inr h]
  unfold sortBy
  rw [this]; simp

/-- What the loss of pages leaves: the pages hold no frame, their granules are poisoned, and nothing else of memory or of the pages differs. -/
def State.LostTo (s x : State) (ps : List Nat) : Prop :=
  x = { s with pages := x.pages, lostPages := x.lostPages, mem := x.mem, nonzero := x.nonzero, poison := x.poison, freeCount := x.freeCount } ∧
  (∀ p, x.frameOf p = if p ∈ ps then none else s.frameOf p) ∧ (∀ p ∈ ps, mapGet false x.lostPages p = true) ∧
  (∀ p, mapGet false s.lostPages p = true → mapGet false x.lostPages p = true) ∧
  (∀ g, x.poisoned g = if g / 8192 ∈ ps then true else s.poisoned g) ∧ ∀ b, b / 2 ^ 21 ∉ ps → memByte x.mem b = memByte s.mem b

theorem freeGranule_length (n : Nat) : (freeGranule n).length = 256 := by
  unfold freeGranule
  rw [List.length_flatMap]
  have : (List.map (fun i => (leBytes 8 (Config.freeWord (n + i)).toNat).length) (List.range 32)) = List.map (fun _ => 8) (List.range 32) :=
    List.map_congr_left fun i _ => by simp [leBytes]
  rw [this]; decide

theorem poisonAt_mem (s : State) (g : Nat) : (s.poisonAt g).mem = memWrite s.mem (256 * g) (freeGranule s.freeCount) := by
  unfold State.poisonAt; dsimp only

theorem poison_fold (p : Nat) (l : List Nat) : (∀ i ∈ l, i < 8192) → ∀ s : State,
    (l.foldl (fun s i => s.poisonAt (8192 * p + i)) s) = { s with mem := (l.foldl (fun s i => s.poisonAt (8192 * p + i)) s).mem, nonzero := (l.foldl (fun s i => s.poisonAt (8192 * p + i)) s).nonzero, poison := (l.foldl (fun s i => s.poisonAt (8192 * p + i)) s).poison, freeCount := (l.foldl (fun s i => s.poisonAt (8192 * p + i)) s).freeCount } ∧
    (∀ g, (l.foldl (fun s i => s.poisonAt (8192 * p + i)) s).poisoned g = if g / 8192 = p ∧ g % 8192 ∈ l then true else s.poisoned g) ∧
    ∀ b, b / 2 ^ 21 ≠ p → memByte (l.foldl (fun s i => s.poisonAt (8192 * p + i)) s).mem b = memByte s.mem b := by
  induction l with
  | nil => intro _ s; exact ⟨rfl, fun g => by simp, fun _ _ => rfl⟩
  | cons i l ih =>
    intro hi s
    obtain ⟨k1, k2, k3⟩ := ih (fun j hj => hi j (List.mem_cons_of_mem _ hj)) (s.poisonAt (8192 * p + i))
    have h8 := hi i List.mem_cons_self
    rw [List.foldl_cons]
    generalize l.foldl (fun s i => s.poisonAt (8192 * p + i)) (s.poisonAt (8192 * p + i)) = y at *
    refine ⟨k1, fun g => ?_, fun b hb => ?_⟩
    · rw [k2]
      have : (s.poisonAt (8192 * p + i)).poisoned g = if g = 8192 * p + i then true else s.poisoned g := by
        show mapGet false (mapSet false s.poison (8192 * p + i) true) g = _
        rw [mapGet_set]; rfl
      rw [this]
      by_cases hg : g = 8192 * p + i
      · rw [if_pos hg, if_pos (show g / 8192 = p ∧ g % 8192 ∈ i :: l from ⟨by omega, by rw [show g % 8192 = i by omega]; exact List.mem_cons_self⟩)]
        split <;> rfl
      · rw [if_neg hg]
        refine if_congr ?_ rfl rfl
        rw [List.mem_cons]
        exact ⟨fun h => ⟨h.1, .inr h.2⟩, fun h => ⟨h.1, h.2.resolve_left (by omega)⟩⟩
    · rw [k3 b hb]
      rw [poisonAt_mem, memByte_write, freeGranule_length, if_neg (by omega)]

theorem lose_page (s : State) (p : Nat) : s.LostTo (s.losePage p) [p] := by
  unfold State.losePage
  dsimp only
  obtain ⟨k1, k2, k3⟩ := poison_fold p (List.range 8192) (fun i hi => List.mem_range.mp hi) { s with pages := mapErase s.pages p, lostPages := mapSet false s.lostPages p true }
  generalize (List.range 8192).foldl (fun s i => s.poisonAt (8192 * p + i)) { s with pages := mapErase s.pages p, lostPages := mapSet false s.lostPages p true } = y at *
  have hl : ∀ q, mapGet false y.lostPages q = if q = p then true else mapGet false s.lostPages q := by
    intro q; rw [k1]
    show mapGet false (mapSet false s.lostPages p true) q = _
    rw [mapGet_set]
  refine ⟨by rw [k1], fun q => ?_, fun q hq => ?_, fun q hq => ?_, fun g => ?_, fun b hb => ?_⟩
  · unfold State.frameOf
    rw [k1]
    show mapFind (mapErase s.pages p) q = _
    rw [mapFind_erase]; simp
  · rw [hl, if_pos (by simpa using hq)]
  · rw [hl, hq]; simp
  · rw [k2]
    have : g % 8192 ∈ List.range 8192 := List.mem_range.mpr (Nat.mod_lt _ (by decide))
    simp only [this, and_true, List.mem_singleton]; rfl
  · exact k3 b (by simpa using hb)

theorem LostTo_trans {s x y : State} {ps qs : List Nat} (h : s.LostTo x ps) (k : x.LostTo y qs) : s.LostTo y (ps ++ qs) := by
  obtain ⟨h1, h2, h3, h4, h5, h6⟩ := h
  obtain ⟨k1, k2, k3, k4, k5, k6⟩ := k
  refine ⟨by rw [k1, h1], fun p => ?_, fun p hp => ?_, fun p hp => k4 p (h4 p hp), fun g => ?_, fun b hb => ?_⟩
  · rw [k2, h2]
    simp only [List.mem_append]
    by_cases h1 : p ∈ ps <;> by_cases h2 : p ∈ qs <;> simp [h1, h2]
  · rcases List.mem_append.mp hp with h | h
    exacts [k4 p (h3 p h), k3 p h]
  · rw [k5, h5]
    simp only [List.mem_append]
    by_cases h1 : g / 8192 ∈ ps <;> by_cases h2 : g / 8192 ∈ qs <;> simp [h1, h2]
  · rw [List.mem_append, not_or] at hb
    rw [k6 b hb.2, h6 b hb.1]

theorem LostTo_refl (s : State) : s.LostTo s [] := by
  unfold State.LostTo
  refine ⟨rfl, fun p => ?_, fun p h => ?_, fun p h => h, fun g => ?_, fun b _ => rfl⟩
  · simp
  · cases h
  · simp

theorem lose_pages (l : List Nat) : ∀ s : State, s.LostTo (l.foldl State.losePage s) l := by
  induction l with
  | nil => exact LostTo_refl
  | cons p l ih =>
    intro s
    rw [List.foldl_cons]
    exact LostTo_trans (lose_page s p) (ih _)

theorem slot_logErr (s : State) (e : LogEntry) (k : Nat) (hk : k < 6) : (s.logErr e).slotState k = s.slotState k :=
  logErr_get (by left; show _ < _; unfold FieldRef.key Reg.BMCm_STATE_STATE; dsimp only; omega)

theorem logLoss_eq (s : State) (objs : List Obj) (lone : List Nat) : ∃ F I, s.logLoss objs lone = { s with fields := F, irq := I } ∧ ∀ k < 6, (s.logLoss objs lone).slotState k = s.slotState k := by
  have one : ∀ (u : State) e, ∃ F I, u.logErr e = { u with fields := F, irq := I } ∧ ∀ k < 6, (u.logErr e).slotState k = u.slotState k :=
    fun u e => ⟨_, _, logErr_eq u e, fun k hk => slot_logErr u e k hk⟩
  have fold : ∀ (l : List Obj) (u : State), ∃ F I, l.foldl (fun s o => s.logErr { sev := 1, kind := 5, source := 9, addr := o.base, obj := o.id }) u = { u with fields := F, irq := I } ∧
      ∀ k < 6, (l.foldl (fun s o => s.logErr { sev := 1, kind := 5, source := 9, addr := o.base, obj := o.id }) u).slotState k = u.slotState k := by
    intro l
    induction l with
    | nil => exact fun u => ⟨_, _, rfl, fun _ _ => rfl⟩
    | cons o l ih =>
      intro u
      obtain ⟨F, I, h1, h2⟩ := one u { sev := 1, kind := 5, source := 9, addr := o.base, obj := o.id }
      obtain ⟨G, J, k1, k2⟩ := ih (u.logErr { sev := 1, kind := 5, source := 9, addr := o.base, obj := o.id })
      rw [List.foldl_cons]
      exact ⟨G, J, by rw [k1, h1], fun k hk => (k2 k hk).trans (h2 k hk)⟩
  unfold State.logLoss
  split
  · exact one s _
  · dsimp only
    obtain ⟨F, I, h1, h2⟩ := fold objs s
    split
    · exact ⟨F, I, h1, h2⟩
    · next p _ _ =>
      obtain ⟨G, J, k1, k2⟩ := one (objs.foldl (fun s o => s.logErr { sev := 1, kind := 5, source := 9, addr := o.base, obj := o.id }) s) { sev := 1, kind := 5, source := 9, addr := (p : Nat) * pageBytes }
      exact ⟨G, J, by rw [k1, h1], fun k hk => (k2 k hk).trans (h2 k hk)⟩


end Sys2Proof.Machine
end

