-- ==== Sys2Proof/Laws/KeepCore.lean ====
section
/-! SUPPORT. Every operation of these modules keeps the memories canonical: Fields, Frames, Banks, Ops, Rings, Links, RegAccess, Arbiter, Bonded, Collective. -/

namespace Sys2Proof.Machine

open Sys2Proof

/-! ## Fields -/

theorem State.put_canon (s : State) (f : FieldRef) (v : Nat) (hs : State.Canon s) : State.Canon (State.put s f v) := by
  unfold State.put
  try dsimp only
  repeat' (first | with_reducible assumption | simp only [canon_mk, chOk_mk, helOk_mk])

theorem State.count_canon (s : State) (f : FieldRef) (n : Nat) (hs : State.Canon s) : State.Canon (State.count s f n) := by
  unfold State.count
  try dsimp only
  repeat' (first | with_reducible assumption | with_reducible apply State.put_canon)

theorem State.countSat_canon (s : State) (f : FieldRef) (n : Nat) (hs : State.Canon s) : State.Canon (State.countSat s f n) := by
  unfold State.countSat
  try dsimp only
  repeat' (first | with_reducible assumption | with_reducible apply State.put_canon)

theorem State.puts_canon (s : State) (a0 : List (FieldRef × Nat)) (hs : State.Canon s) : State.Canon (State.puts s a0) := by
  induction a0 generalizing s with
  | nil =>
    unfold State.puts
    try dsimp only
    repeat' (first | with_reducible assumption | with_reducible apply State.put_canon | with_reducible apply ih)
  | cons x l ih =>
    unfold State.puts
    try dsimp only
    repeat' (first | with_reducible assumption | with_reducible apply State.put_canon | with_reducible apply ih)

theorem State.drawFree_canon (s : State) (hs : State.Canon s) : State.Canon (State.drawFree s).2 := by
  unfold State.drawFree
  try dsimp only
  repeat' (first | with_reducible assumption | simp only [canon_mk, chOk_mk, helOk_mk])

theorem State.setPort_canon (s : State) (n : Nat) (p : Port) (hs : State.Canon s) : State.Canon (State.setPort s n p) := by
  unfold State.setPort
  try dsimp only
  repeat' (first | with_reducible assumption | simp only [canon_mk, chOk_mk, helOk_mk])

theorem State.violate_canon (s : State) (key : Nat) (count : FieldRef) (valid : FieldRef) (kindOf : FieldRef) (kind : Nat) (rest : List (FieldRef × Nat)) (hs : State.Canon s) : State.Canon (State.violate s key count valid kindOf kind rest) := by
  unfold State.violate
  try dsimp only
  repeat' (first | with_reducible assumption | intro _ | with_reducible apply State.puts_canon | with_reducible apply State.countSat_canon | with_reducible apply State.count_canon | with_reducible apply ite_canon | with_reducible apply ite_chOk | with_reducible apply ite_helOk | with_reducible apply ite_snd_canon | with_reducible apply ch_ok | with_reducible apply hel_ok | simp only [canon_mk, chOk_mk, helOk_mk] | split)

theorem State.violGlb_canon (s : State) (agent : Nat) (kind : Nat) (addr : Nat) (hs : State.Canon s) : State.Canon (State.violGlb s agent kind addr) := by
  unfold State.violGlb
  try dsimp only
  repeat' (first | with_reducible assumption | intro _ | with_reducible apply State.violate_canon | with_reducible apply ite_canon | with_reducible apply ite_chOk | with_reducible apply ite_helOk | with_reducible apply ite_snd_canon | with_reducible apply ch_ok | with_reducible apply hel_ok | simp only [canon_mk, chOk_mk, helOk_mk] | split)

theorem State.violCh_canon (s : State) (n : Nat) (kind : Nat) (addr : Nat) (hs : State.Canon s) : State.Canon (State.violCh s n kind addr) := by
  unfold State.violCh
  try dsimp only
  repeat' (first | with_reducible assumption | intro _ | with_reducible apply State.violate_canon | with_reducible apply ite_canon | with_reducible apply ite_chOk | with_reducible apply ite_helOk | with_reducible apply ite_snd_canon | with_reducible apply ch_ok | with_reducible apply hel_ok | simp only [canon_mk, chOk_mk, helOk_mk] | split)

theorem State.raiseIrq_canon (s : State) (v : Nat) (hs : State.Canon s) : State.Canon (State.raiseIrq s v) := by
  unfold State.raiseIrq
  try dsimp only
  repeat' (first | with_reducible assumption | intro _ | with_reducible apply State.raise_canon | with_reducible apply ite_canon | with_reducible apply ite_chOk | with_reducible apply ite_helOk | with_reducible apply ite_snd_canon | with_reducible apply ch_ok | with_reducible apply hel_ok | simp only [canon_mk, chOk_mk, helOk_mk] | split)

theorem State.putLogWords_canon (s : State) (i : Nat) (a0 : Nat) (a1 : List Nat) (hs : State.Canon s) : State.Canon (State.putLogWords s i a0 a1) := by
  induction a1 generalizing s i a0 with
  | nil =>
    unfold State.putLogWords
    try dsimp only
    repeat' (first | with_reducible assumption | with_reducible apply State.put_canon | with_reducible apply ih)
  | cons x l ih =>
    unfold State.putLogWords
    try dsimp only
    repeat' (first | with_reducible assumption | with_reducible apply State.put_canon | with_reducible apply ih)

theorem State.logErr_canon (s : State) (e : LogEntry) (hs : State.Canon s) : State.Canon (State.logErr s e) := by
  unfold State.logErr
  try dsimp only
  repeat' (first | with_reducible assumption | with_reducible apply State.putLogWords_canon | with_reducible apply State.raiseIrq_canon | with_reducible apply State.count_canon | with_reducible apply State.put_canon | with_reducible apply ite_canon | split)

theorem State.lockedOut_canon (s : State) (off : Nat) (hs : State.Canon s) : State.Canon (State.lockedOut s off) := by
  unfold State.lockedOut
  try dsimp only
  repeat' (first | with_reducible assumption | intro _ | with_reducible apply State.violGlb_canon | with_reducible apply ite_canon | with_reducible apply ite_chOk | with_reducible apply ite_helOk | with_reducible apply ite_snd_canon | with_reducible apply ch_ok | with_reducible apply hel_ok | simp only [canon_mk, chOk_mk, helOk_mk] | split)

theorem State.hostRaises_canon (s : State) (en : FieldRef) (rise : State → State) (hs : State.Canon s) (hrise : ∀ x0, State.Canon x0 → State.Canon (rise x0)) : State.Canon (State.hostRaises s en rise) := by
  unfold State.hostRaises
  try dsimp only
  repeat' (first | with_reducible assumption | intro _ | with_reducible apply State.lockedOut_canon | with_reducible apply hrise | with_reducible apply ite_canon | with_reducible apply ite_chOk | with_reducible apply ite_helOk | with_reducible apply ite_snd_canon | with_reducible apply ch_ok | with_reducible apply hel_ok | simp only [canon_mk, chOk_mk, helOk_mk] | split)

theorem State.hostClears_canon (s : State) (en : FieldRef) (hs : State.Canon s) : State.Canon (State.hostClears s en) := by
  unfold State.hostClears
  try dsimp only
  repeat' (first | with_reducible assumption | intro _ | with_reducible apply State.lockedOut_canon | with_reducible apply State.put_canon | with_reducible apply ite_canon | with_reducible apply ite_chOk | with_reducible apply ite_helOk | with_reducible apply ite_snd_canon | with_reducible apply ch_ok | with_reducible apply hel_ok | simp only [canon_mk, chOk_mk, helOk_mk] | split)

theorem State.wakeChamber_canon (s : State) (n : Nat) (hs : State.Canon s) : State.Canon (State.wakeChamber s n) := by
  unfold State.wakeChamber
  try dsimp only
  repeat' (first | with_reducible assumption | with_reducible apply State.put_canon | with_reducible apply ite_canon | with_reducible apply modCh_ok | with_reducible apply setCh_ok | with_reducible apply ch_ok | simp only [canon_mk, chOk_mk, helOk_mk] | intro _ | split)

theorem State.wakePort_canon (s : State) (n : Nat) (hs : State.Canon s) : State.Canon (State.wakePort s n) := by
  unfold State.wakePort
  try dsimp only
  repeat' (first | with_reducible assumption | with_reducible apply State.put_canon | with_reducible apply ite_canon | split)

theorem State.toRun_canon (s : State) (hs : State.Canon s) : State.Canon (State.toRun s) := by
  unfold State.toRun
  try dsimp only
  repeat' (first | with_reducible assumption | with_reducible apply State.wakePort_canon | with_reducible apply State.wakeChamber_canon | with_reducible apply State.put_canon | with_reducible apply ite_canon | with_reducible apply foldl_canon | simp only [canon_mk, chOk_mk, helOk_mk] | intro _ | split)

theorem State.wake_canon (s : State) (hs : State.Canon s) : State.Canon (State.wake s) := by
  unfold State.wake
  try dsimp only
  repeat' (first | with_reducible assumption | with_reducible apply State.toRun_canon | with_reducible apply ite_canon | simp only [canon_mk, chOk_mk, helOk_mk] | split)

theorem State.wakeKeep_canon (s : State) (hs : State.Canon s) : State.Canon (State.wakeKeep s) := by
  unfold State.wakeKeep
  try dsimp only
  repeat' (first | with_reducible assumption | with_reducible apply State.wake_canon | with_reducible apply ite_canon | split)

theorem State.postSig_canon (s : State) (n : Nat) (set : Bool) (v : Nat) (hs : State.Canon s) : State.Canon (State.postSig s n set v) := by
  unfold State.postSig
  try dsimp only
  repeat' (first | with_reducible assumption | with_reducible apply State.wake_canon | with_reducible apply State.put_canon | with_reducible apply ite_canon | split)

/-! ## Frames -/

theorem State.modObj_canon (s : State) (id : Nat) (f : Obj → Obj) (hs : State.Canon s) : State.Canon (State.modObj s id f) := by
  unfold State.modObj
  try dsimp only
  repeat' (first | with_reducible assumption | with_reducible apply ite_canon | simp only [canon_mk, chOk_mk, helOk_mk] | intro _ | split)

theorem State.queueMove_canon (s : State) (m : Move) (hs : State.Canon s) : State.Canon (State.queueMove s m) := by
  unfold State.queueMove
  try dsimp only
  repeat' (first | with_reducible assumption | simp only [canon_mk, chOk_mk, helOk_mk])

theorem State.queueDemotion_canon (s : State) (o : Obj) (hs : State.Canon s) : State.Canon (State.queueDemotion s o) := by
  unfold State.queueDemotion
  try dsimp only
  repeat' (first | with_reducible assumption | with_reducible apply State.queueMove_canon | with_reducible apply ite_canon | split)

theorem State.roomFor_canon  (a0 : List Move) (a1 : Int) (a2 : State) (hs : State.Canon a2) : State.Canon (State.roomFor  a0 a1 a2) := by
  induction a0 generalizing a1 a2 with
  | nil =>
    unfold State.roomFor
    try dsimp only
    repeat' (first | with_reducible assumption | with_reducible apply State.queueDemotion_canon | with_reducible apply ite_canon | with_reducible apply foldl_canon | intro _ | split | with_reducible apply ih)
  | cons x l ih =>
    unfold State.roomFor
    try dsimp only
    repeat' (first | with_reducible assumption | with_reducible apply State.queueDemotion_canon | with_reducible apply ite_canon | with_reducible apply foldl_canon | intro _ | split | with_reducible apply ih)

theorem State.makeRoom_canon (s : State) (hs : State.Canon s) : State.Canon (State.makeRoom s) := by
  unfold State.makeRoom
  try dsimp only
  repeat' (first | with_reducible assumption | with_reducible apply State.roomFor_canon)

theorem State.giveSecond_canon (s : State) (p : Nat) (f : Frame) (hs : State.Canon s) : State.Canon (State.giveSecond s p f) := by
  unfold State.giveSecond
  try dsimp only
  repeat' (first | with_reducible assumption | intro _ | with_reducible refine canon_snd (by with_reducible assumption) ?_ | with_reducible refine canon_snd2 (by with_reducible assumption) ?_ | with_reducible refine canon_snd3 (by with_reducible assumption) ?_ | with_reducible apply ite_canon | with_reducible apply ite_chOk | with_reducible apply ite_helOk | with_reducible apply ite_snd_canon | with_reducible apply ch_ok | with_reducible apply hel_ok | simp only [canon_mk, chOk_mk, helOk_mk] | split)

theorem State.giveFrame_canon (s : State) (p : Nat) (f : Frame) (hs : State.Canon s) : State.Canon (State.giveFrame s p f) := by
  unfold State.giveFrame
  try dsimp only
  repeat' (first | with_reducible assumption | intro _ | with_reducible apply State.giveSecond_canon | with_reducible apply State.makeRoom_canon | with_reducible apply ite_canon | with_reducible apply ite_chOk | with_reducible apply ite_helOk | with_reducible apply ite_snd_canon | with_reducible apply ch_ok | with_reducible apply hel_ok | simp only [canon_mk, chOk_mk, helOk_mk] | split)

theorem State.setFull_canon (s : State) (hs : State.Canon s) : State.Canon (State.setFull s) := by
  unfold State.setFull
  try dsimp only
  repeat' (first | with_reducible assumption | with_reducible apply State.logErr_canon | with_reducible apply State.put_canon | with_reducible apply ite_canon | simp only [canon_mk, chOk_mk, helOk_mk] | split)

/-! ## Banks -/

theorem State.modClaim_canon (s : State) (n : Nat) (f : Claim → Claim) (hs : State.Canon s) : State.Canon (State.modClaim s n f) := by
  unfold State.modClaim
  try dsimp only
  repeat' (first | with_reducible assumption | with_reducible apply ite_canon | simp only [canon_mk, chOk_mk, helOk_mk] | intro _ | split)

theorem State.refreshBanks_canon (s : State) (n : Nat) (banks : List Nat) (hs : State.Canon s) : State.Canon (State.refreshBanks s n banks) := by
  unfold State.refreshBanks
  try dsimp only
  repeat' (first | with_reducible assumption | with_reducible apply foldl_canon | simp only [canon_mk, chOk_mk, helOk_mk] | intro _)

theorem State.boundaryIn_canon (s : State) (n : Nat) (banks : List Nat) (hs : State.Canon s) : State.Canon (State.boundaryIn s n banks) := by
  unfold State.boundaryIn
  try dsimp only
  repeat' (first | with_reducible assumption | intro _ | with_reducible apply State.refreshBanks_canon | with_reducible apply State.modClaim_canon | with_reducible apply ite_canon | with_reducible apply ite_chOk | with_reducible apply ite_helOk | with_reducible apply ite_snd_canon | with_reducible apply ch_ok | with_reducible apply hel_ok | simp only [canon_mk, chOk_mk, helOk_mk] | split)

theorem State.forceBank_canon (s : State) (n : Nat) (b : Nat) (hs : State.Canon s) : State.Canon (State.forceBank s n b) := by
  unfold State.forceBank
  try dsimp only
  repeat' (first | with_reducible assumption | intro _ | with_reducible apply State.boundaryIn_canon | with_reducible apply State.count_canon | with_reducible apply ite_canon | with_reducible apply ite_chOk | with_reducible apply ite_helOk | with_reducible apply ite_snd_canon | with_reducible apply ch_ok | with_reducible apply hel_ok | simp only [canon_mk, chOk_mk, helOk_mk] | split)

theorem State.noteWaiting_canon (s : State) (self : Option Nat) (a : Nat) (hs : State.Canon s) : State.Canon (State.noteWaiting s self a) := by
  unfold State.noteWaiting
  try dsimp only
  repeat' (first | with_reducible assumption | intro _ | with_reducible apply State.modClaim_canon | with_reducible refine canon_snd (by with_reducible assumption) ?_ | with_reducible refine canon_snd2 (by with_reducible assumption) ?_ | with_reducible refine canon_snd3 (by with_reducible assumption) ?_ | with_reducible apply ite_canon | with_reducible apply ite_chOk | with_reducible apply ite_helOk | with_reducible apply ite_snd_canon | with_reducible apply ch_ok | with_reducible apply hel_ok | simp only [canon_mk, chOk_mk, helOk_mk] | split)

theorem State.passed_canon (s : State) (a : Nat) (hs : State.Canon s) : State.Canon (State.passed s a) := by
  unfold State.passed
  try dsimp only
  repeat' (first | with_reducible assumption | intro _ | with_reducible apply ite_canon | with_reducible apply ite_chOk | with_reducible apply ite_helOk | with_reducible apply ite_snd_canon | with_reducible apply ch_ok | with_reducible apply hel_ok | simp only [canon_mk, chOk_mk, helOk_mk] | split)

theorem State.enterBank_canon (s : State) (a : Nat) (hs : State.Canon s) : State.Canon (State.enterBank s a) := by
  unfold State.enterBank
  try dsimp only
  repeat' (first | with_reducible assumption | intro _ | with_reducible apply State.forceBank_canon | with_reducible refine canon_snd (by with_reducible assumption) ?_ | with_reducible refine canon_snd2 (by with_reducible assumption) ?_ | with_reducible refine canon_snd3 (by with_reducible assumption) ?_ | with_reducible apply ite_canon | with_reducible apply ite_chOk | with_reducible apply ite_helOk | with_reducible apply ite_snd_canon | with_reducible apply ch_ok | with_reducible apply hel_ok | simp only [canon_mk, chOk_mk, helOk_mk] | split)

/-! ## Ops -/

theorem State.setPoison_canon (s : State) (g : Nat) (b : Bool) (hs : State.Canon s) : State.Canon (State.setPoison s g b) := by
  unfold State.setPoison
  try dsimp only
  repeat' (first | with_reducible assumption | simp only [canon_mk, chOk_mk, helOk_mk])

theorem State.warm_canon (s : State) (a : Nat) (hs : State.Canon s) : State.Canon (State.warm s a) := by
  unfold State.warm
  try dsimp only
  repeat' (first | with_reducible assumption | intro _ | with_reducible apply State.passed_canon | with_reducible apply ite_canon | with_reducible apply ite_chOk | with_reducible apply ite_helOk | with_reducible apply ite_snd_canon | with_reducible apply ch_ok | with_reducible apply hel_ok | simp only [canon_mk, chOk_mk, helOk_mk] | split)

theorem State.readAs_canon (s : State) (agent : Nat) (a : Nat) (n : Nat) (hs : State.Canon s) : State.Canon (State.readAs s agent a n).2.2 := by
  unfold State.readAs
  try dsimp only
  repeat' (first | with_reducible assumption | with_reducible apply State.warm_canon | with_reducible apply State.violGlb_canon | with_reducible apply State.count_canon | with_reducible apply ite_canon | split)

theorem State.readIn_canon (s : State) (a : Nat) (n : Nat) (hs : State.Canon s) : State.Canon (State.readIn s a n).2.2 := by
  unfold State.readIn
  try dsimp only
  repeat' (first | with_reducible assumption | intro _ | with_reducible apply State.readAs_canon | with_reducible apply State.enterBank_canon | with_reducible apply ite_canon | with_reducible apply ite_chOk | with_reducible apply ite_helOk | with_reducible apply ite_snd_canon | with_reducible apply ch_ok | with_reducible apply hel_ok | simp only [canon_mk, chOk_mk, helOk_mk] | split)

theorem State.readFuel_canon  (a0 : Nat) (a1 : State) (a2 : Nat) (a3 : Nat) (hs : State.Canon a1) : State.Canon (State.readFuel  a0 a1 a2 a3).2.2 := by
  induction a0 generalizing a1 a2 a3 with
  | zero =>
    unfold State.readFuel
    try dsimp only
    repeat' (first | with_reducible assumption | with_reducible apply State.readIn_canon | with_reducible apply ite_canon | split | with_reducible apply ih)
  | succ x ih =>
    unfold State.readFuel
    try dsimp only
    repeat' (first | with_reducible assumption | with_reducible apply State.readIn_canon | with_reducible apply ite_canon | split | with_reducible apply ih)

theorem State.read_canon (s : State) (a : Nat) (n : Nat) (hs : State.Canon s) : State.Canon (State.read s a n).2.2 := by
  unfold State.read
  try dsimp only
  repeat' (first | with_reducible assumption | with_reducible apply State.readFuel_canon)

theorem State.noteMirror_canon (s : State) (a : Nat) (hs : State.Canon s) : State.Canon (State.noteMirror s a) := by
  unfold State.noteMirror
  try dsimp only
  repeat' (first | with_reducible assumption | with_reducible apply ite_canon | simp only [canon_mk, chOk_mk, helOk_mk] | split)

theorem State.storeAs_canon (s : State) (whole : Bool) (a : Nat) (bs : List Byte) (hs : State.Canon s) :
    State.Canon (State.storeAs s whole a bs) := by
  have key : ∀ u : State, State.Canon u → ∀ x, State.Canon { u with mem := memWrite u.mem a bs, nonzero := x } :=
    fun u hu x => ⟨memWrite_wf hu.1, hu.2⟩
  unfold State.storeAs
  dsimp only
  apply State.noteMirror_canon
  apply ite_canon
  · apply State.setPoison_canon; apply key; apply ite_canon
    · exact State.count_canon _ _ _ hs
    · exact hs
  · apply key; apply ite_canon
    · exact State.count_canon _ _ _ hs
    · exact hs

theorem State.writeAs_canon (s : State) (agent : Nat) (twin : Bool) (whole : Bool) (a : Nat) (bs : List Byte) (hs : State.Canon s) : State.Canon (State.writeAs s agent twin whole a bs).2 := by
  unfold State.writeAs
  try dsimp only
  repeat' (first | with_reducible assumption | intro _ | with_reducible apply State.storeAs_canon | with_reducible apply State.noteMirror_canon | with_reducible apply State.warm_canon | with_reducible apply State.setPoison_canon | with_reducible apply State.setFull_canon | with_reducible apply State.giveFrame_canon | with_reducible apply State.violGlb_canon | with_reducible refine canon_snd (by with_reducible assumption) ?_ | with_reducible refine canon_snd2 (by with_reducible assumption) ?_ | with_reducible refine canon_snd3 (by with_reducible assumption) ?_ | with_reducible apply ite_canon | with_reducible apply ite_chOk | with_reducible apply ite_helOk | with_reducible apply ite_snd_canon | with_reducible apply ch_ok | with_reducible apply hel_ok | simp only [canon_mk, chOk_mk, helOk_mk] | split)

theorem State.writeIn_canon (s : State) (agent : Nat) (twin : Bool) (a : Nat) (bs : List Byte) (hs : State.Canon s) : State.Canon (State.writeIn s agent twin a bs).2 := by
  unfold State.writeIn
  try dsimp only
  repeat' (first | with_reducible assumption | with_reducible apply State.writeAs_canon)

theorem State.mergeIn_canon (s : State) (agent : Nat) (whole : Bool) (g : Nat) (f : List Byte → List Byte) (hs : State.Canon s) : State.Canon (State.mergeIn s agent whole g f).2 := by
  unfold State.mergeIn
  try dsimp only
  repeat' (first | with_reducible assumption | with_reducible apply State.writeAs_canon)

theorem State.dropLine_canon (s : State) (l : Nat) (hs : State.Canon s) : State.Canon (State.dropLine s l) := by
  unfold State.dropLine
  try dsimp only
  repeat' (first | with_reducible assumption | with_reducible apply ite_canon | simp only [canon_mk, chOk_mk, helOk_mk] | split)

theorem State.sendBi_canon (s : State) (ls : List Nat) (hs : State.Canon s) : State.Canon (State.sendBi s ls) := by
  unfold State.sendBi
  try dsimp only
  repeat' (first | with_reducible assumption | with_reducible apply ite_canon | simp only [canon_mk, chOk_mk, helOk_mk] | split)

theorem State.backInvalidate_canon (s : State) (g : Nat) (whole : Bool) (hs : State.Canon s) : State.Canon (State.backInvalidate s g whole) := by
  unfold State.backInvalidate
  try dsimp only
  repeat' (first | with_reducible assumption | with_reducible apply State.dropLine_canon | with_reducible apply State.count_canon | with_reducible apply ite_canon | with_reducible apply foldl_canon | intro _ | split)

theorem State.hold_canon (s : State) (a : Nat) (bs : List Byte) (agent : Nat) (twin : Bool) (poison : Bool) (hs : State.Canon s) : State.Canon (State.hold s a bs agent twin poison) := by
  unfold State.hold
  try dsimp only
  repeat' (first | with_reducible assumption | intro _ | with_reducible apply ite_canon | with_reducible apply ite_chOk | with_reducible apply ite_helOk | with_reducible apply ite_snd_canon | with_reducible apply ch_ok | with_reducible apply hel_ok | simp only [canon_mk, chOk_mk, helOk_mk] | split)

theorem State.endWork_canon (s : State) (waits : List Nat) (w : WorkEnd) (now : State) (hs : State.Canon s) (hnow : State.Canon now) : State.Canon (State.endWork s waits w now) := by
  unfold State.endWork
  try dsimp only
  repeat' (first | with_reducible assumption | intro _ | with_reducible apply ite_canon | with_reducible apply ite_chOk | with_reducible apply ite_helOk | with_reducible apply ite_snd_canon | with_reducible apply ch_ok | with_reducible apply hel_ok | simp only [canon_mk, chOk_mk, helOk_mk] | split)

theorem State.settleFull_canon (s : State) (hs : State.Canon s) : State.Canon (State.settleFull s) := by
  unfold State.settleFull
  try dsimp only
  repeat' (first | with_reducible assumption | intro _ | with_reducible apply State.put_canon | with_reducible apply ite_canon | with_reducible apply ite_chOk | with_reducible apply ite_helOk | with_reducible apply ite_snd_canon | with_reducible apply ch_ok | with_reducible apply hel_ok | simp only [canon_mk, chOk_mk, helOk_mk] | split)

theorem State.waitFrame_canon (s : State) (w : FrameWait) (hs : State.Canon s) : State.Canon (State.waitFrame s w) := by
  unfold State.waitFrame
  try dsimp only
  repeat' (first | with_reducible assumption | intro _ | with_reducible apply ite_canon | with_reducible apply ite_chOk | with_reducible apply ite_helOk | with_reducible apply ite_snd_canon | with_reducible apply ch_ok | with_reducible apply hel_ok | simp only [canon_mk, chOk_mk, helOk_mk] | split)

theorem State.gotFrame_canon (s : State) (w : FrameWait) (hs : State.Canon s) : State.Canon (State.gotFrame s w) := by
  unfold State.gotFrame
  try dsimp only
  repeat' (first | with_reducible assumption | intro _ | with_reducible apply State.settleFull_canon | with_reducible apply ite_canon | with_reducible apply ite_chOk | with_reducible apply ite_helOk | with_reducible apply ite_snd_canon | with_reducible apply ch_ok | with_reducible apply hel_ok | simp only [canon_mk, chOk_mk, helOk_mk] | split)

theorem State.engineWriteIn_canon (s : State) (agent : Nat) (a : Nat) (bs : List Byte) (hs : State.Canon s) : State.Canon (State.engineWriteIn s agent a bs).2 := by
  unfold State.engineWriteIn
  try dsimp only
  repeat' (first | with_reducible assumption | intro _ | with_reducible apply State.hold_canon | with_reducible apply State.backInvalidate_canon | with_reducible apply State.writeIn_canon | with_reducible apply State.enterBank_canon | with_reducible refine canon_snd (by with_reducible assumption) ?_ | with_reducible refine canon_snd2 (by with_reducible assumption) ?_ | with_reducible refine canon_snd3 (by with_reducible assumption) ?_ | with_reducible apply ite_canon | with_reducible apply ite_chOk | with_reducible apply ite_helOk | with_reducible apply ite_snd_canon | with_reducible apply ch_ok | with_reducible apply hel_ok | simp only [canon_mk, chOk_mk, helOk_mk] | split)

theorem State.writeFuel_canon  (a0 : Nat) (a1 : State) (a2 : Nat) (a3 : Nat) (a4 : List Byte) (hs : State.Canon a1) : State.Canon (State.writeFuel  a0 a1 a2 a3 a4).2 := by
  induction a0 generalizing a1 a2 a3 a4 with
  | zero =>
    unfold State.writeFuel
    try dsimp only
    repeat' (first | with_reducible assumption | with_reducible apply State.engineWriteIn_canon | with_reducible apply ite_canon | split | with_reducible apply ih)
  | succ x ih =>
    unfold State.writeFuel
    try dsimp only
    repeat' (first | with_reducible assumption | with_reducible apply State.engineWriteIn_canon | with_reducible apply ite_canon | split | with_reducible apply ih)

theorem State.write_canon (s : State) (agent : Nat) (a : Nat) (bs : List Byte) (hs : State.Canon s) : State.Canon (State.write s agent a bs).2 := by
  unfold State.write
  try dsimp only
  repeat' (first | with_reducible assumption | with_reducible apply State.writeFuel_canon)

theorem State.writeLogged_canon (s : State) (source : Nat) (a : Nat) (bs : List Byte) (hs : State.Canon s) : State.Canon (State.writeLogged s source a bs) := by
  unfold State.writeLogged
  try dsimp only
  repeat' (first | with_reducible assumption | intro _ | with_reducible apply State.write_canon | with_reducible apply State.logErr_canon | with_reducible refine canon_snd (by with_reducible assumption) ?_ | with_reducible refine canon_snd2 (by with_reducible assumption) ?_ | with_reducible refine canon_snd3 (by with_reducible assumption) ?_ | with_reducible apply ite_canon | with_reducible apply ite_chOk | with_reducible apply ite_helOk | with_reducible apply ite_snd_canon | with_reducible apply ch_ok | with_reducible apply hel_ok | simp only [canon_mk, chOk_mk, helOk_mk] | split)

theorem State.storePoisoned_canon (s : State) (agent : Nat) (twin : Bool) (g : Nat) (bs : List Byte) (hs : State.Canon s) :
    State.Canon (State.storePoisoned s agent twin g bs) := by
  unfold State.storePoisoned
  iterate 3 (refine ite_canon (State.violGlb_canon _ _ _ _ hs) ?_)
  extract_lets t go
  have ht : State.Canon t := State.backInvalidate_canon _ _ _ (State.enterBank_canon _ _ hs)
  have hgo : ∀ u, State.Canon u → State.Canon (go u) := fun u hu =>
    ⟨memWrite_wf hu.1, (State.warm_canon u (g * 256) hu).2⟩
  clear_value t go
  refine ite_canon (State.noteMirror_canon _ _ (hgo t ht)) ?_
  split
  · exact State.noteMirror_canon _ _ (hgo _ (State.giveFrame_canon _ _ _ ht))
  · exact State.hold_canon _ _ _ _ _ _ (State.setFull_canon _ ht)

theorem State.askLines_canon (s : State) (g : Nat) (whole : Bool) (hs : State.Canon s) : State.Canon (State.askLines s g whole) := by
  unfold State.askLines
  try dsimp only
  repeat' (first | with_reducible assumption | with_reducible apply State.sendBi_canon | with_reducible apply State.count_canon | with_reducible apply ite_canon | intro _ | split)

theorem State.readWord_canon (s : State) (a : Nat) (hs : State.Canon s) : State.Canon (State.readWord s a).2.2 := by
  unfold State.readWord
  try dsimp only
  repeat' (first | with_reducible assumption | with_reducible apply State.read_canon)

/-! ## Rings -/

theorem State.setRing_canon (s : State) (id : Nat) (r : RingPos) (hs : State.Canon s) : State.Canon (State.setRing s id r) := by
  unfold State.setRing
  try dsimp only
  repeat' (first | with_reducible assumption | simp only [canon_mk, chOk_mk, helOk_mk])

theorem State.enableRing_canon (s : State) (id : Nat) (jobSig : Nat) (hs : State.Canon s) : State.Canon (State.enableRing s id jobSig) := by
  unfold State.enableRing
  try dsimp only
  repeat' (first | with_reducible assumption | intro _ | with_reducible apply State.setRing_canon | with_reducible apply ite_canon | with_reducible apply ite_chOk | with_reducible apply ite_helOk | with_reducible apply ite_snd_canon | with_reducible apply ch_ok | with_reducible apply hel_ok | simp only [canon_mk, chOk_mk, helOk_mk] | split)

theorem State.takeJob_canon (s : State) (id : Nat) (hs : State.Canon s) : State.Canon (State.takeJob s id) := by
  unfold State.takeJob
  try dsimp only
  repeat' (first | with_reducible assumption | with_reducible apply State.setRing_canon | simp only [canon_mk, chOk_mk, helOk_mk])

/-! ## Links -/

theorem State.oweCredit_canon (s : State) (n : Nat) (vl : Nat) (hs : State.Canon s) : State.Canon (State.oweCredit s n vl) := by
  unfold State.oweCredit
  try dsimp only
  repeat' (first | with_reducible assumption | with_reducible apply State.setPort_canon | simp only [canon_mk, chOk_mk, helOk_mk])

theorem State.pump_canon (s : State) (n : Nat) (hs : State.Canon s) : State.Canon (State.pump s n) := by
  unfold State.pump
  try dsimp only
  repeat' (first | with_reducible assumption | with_reducible apply State.oweCredit_canon | with_reducible apply State.setPort_canon | with_reducible apply State.count_canon | with_reducible apply foldl_canon | simp only [canon_mk, chOk_mk, helOk_mk] | intro _ | split)

theorem State.endCuJob_canon (s : State) (j : CuJob) (status : Nat) (hs : State.Canon s) : State.Canon (State.endCuJob s j status) := by
  unfold State.endCuJob
  try dsimp only
  repeat' (first | with_reducible assumption | intro _ | with_reducible apply State.writeLogged_canon | with_reducible apply State.endWork_canon | with_reducible apply State.postSig_canon | with_reducible apply State.logErr_canon | with_reducible apply State.count_canon | with_reducible apply State.put_canon | with_reducible refine canon_snd (by with_reducible assumption) ?_ | with_reducible refine canon_snd2 (by with_reducible assumption) ?_ | with_reducible refine canon_snd3 (by with_reducible assumption) ?_ | with_reducible apply ite_canon | with_reducible apply ite_chOk | with_reducible apply ite_helOk | with_reducible apply ite_snd_canon | with_reducible apply ch_ok | with_reducible apply hel_ok | simp only [canon_mk, chOk_mk, helOk_mk] | split)

theorem State.checkCuJob_canon (s : State) (id : Nat) (hs : State.Canon s) : State.Canon (State.checkCuJob s id) := by
  unfold State.checkCuJob
  try dsimp only
  repeat' (first | with_reducible assumption | intro _ | with_reducible apply State.endCuJob_canon | with_reducible refine canon_snd (by with_reducible assumption) ?_ | with_reducible refine canon_snd2 (by with_reducible assumption) ?_ | with_reducible refine canon_snd3 (by with_reducible assumption) ?_ | with_reducible apply ite_canon | with_reducible apply ite_chOk | with_reducible apply ite_helOk | with_reducible apply ite_snd_canon | with_reducible apply ch_ok | with_reducible apply hel_ok | simp only [canon_mk, chOk_mk, helOk_mk] | split)

theorem State.modCuJob_canon (s : State) (id : Nat) (f : CuJob → CuJob) (hs : State.Canon s) : State.Canon (State.modCuJob s id f) := by
  unfold State.modCuJob
  try dsimp only
  repeat' (first | with_reducible assumption | with_reducible apply ite_canon | simp only [canon_mk, chOk_mk, helOk_mk] | intro _ | split)

theorem State.endTx_canon (s : State) (x : Nat) (hs : State.Canon s) : State.Canon (State.endTx s x) := by
  unfold State.endTx
  try dsimp only
  repeat' (first | with_reducible assumption | with_reducible apply State.checkCuJob_canon | simp only [canon_mk, chOk_mk, helOk_mk] | intro _ | split)

theorem State.losePacket_canon (s : State) (n : Nat) (hops : Bool) (k : Packet) (hs : State.Canon s) :
    State.Canon (State.losePacket s n hops k) := by
  have key : ∀ u : State, State.Canon u → ∀ x, State.Canon { u with lost := x } := fun u hu x => hu
  unfold State.losePacket
  extract_lets s1 s2 s3
  have h3 : State.Canon s3 := key _ (State.logErr_canon _ _ (State.count_canon _ _ _ hs)) _
  clear_value s3
  split
  · split
    · exact State.endTx_canon _ _ (State.modCuJob_canon _ _ _ h3)
    · exact h3
  · exact h3

theorem State.loseVia_canon (s : State) (k : Packet) (ingress : Option Nat) (hs : State.Canon s) : State.Canon (State.loseVia s k ingress) := by
  unfold State.loseVia
  try dsimp only
  repeat' (first | with_reducible assumption | intro _ | with_reducible apply State.losePacket_canon | with_reducible apply State.oweCredit_canon | with_reducible refine canon_snd (by with_reducible assumption) ?_ | with_reducible refine canon_snd2 (by with_reducible assumption) ?_ | with_reducible refine canon_snd3 (by with_reducible assumption) ?_ | with_reducible apply ite_canon | with_reducible apply ite_chOk | with_reducible apply ite_helOk | with_reducible apply ite_snd_canon | with_reducible apply ch_ok | with_reducible apply hel_ok | simp only [canon_mk, chOk_mk, helOk_mk] | split)

theorem State.sendOver_canon (s : State) (ports : List Nat) (k : Packet) (ingress : Option Nat) (hs : State.Canon s) : State.Canon (State.sendOver s ports k ingress) := by
  unfold State.sendOver
  try dsimp only
  repeat' (first | with_reducible assumption | intro _ | with_reducible apply State.loseVia_canon | with_reducible apply State.pump_canon | with_reducible apply State.setPort_canon | with_reducible refine canon_snd (by with_reducible assumption) ?_ | with_reducible refine canon_snd2 (by with_reducible assumption) ?_ | with_reducible refine canon_snd3 (by with_reducible assumption) ?_ | with_reducible apply ite_canon | with_reducible apply ite_chOk | with_reducible apply ite_helOk | with_reducible apply ite_snd_canon | with_reducible apply ch_ok | with_reducible apply hel_ok | simp only [canon_mk, chOk_mk, helOk_mk] | split)

theorem State.sendVia_canon (s : State) (k : Packet) (ingress : Option Nat) (hs : State.Canon s) : State.Canon (State.sendVia s k ingress) := by
  unfold State.sendVia
  try dsimp only
  repeat' (first | with_reducible assumption | intro _ | with_reducible apply State.sendOver_canon | with_reducible apply ite_canon | with_reducible apply ite_chOk | with_reducible apply ite_helOk | with_reducible apply ite_snd_canon | with_reducible apply ch_ok | with_reducible apply hel_ok | simp only [canon_mk, chOk_mk, helOk_mk] | split)

theorem State.putGranule_canon (s : State) (twin : Bool) (a : Nat) (bs : List Byte) (bad : Bool) (hs : State.Canon s) : State.Canon (State.putGranule s twin a bs bad) := by
  unfold State.putGranule
  try dsimp only
  repeat' (first | with_reducible assumption | intro _ | with_reducible apply State.storePoisoned_canon | with_reducible apply State.write_canon | with_reducible apply State.hold_canon | with_reducible apply State.backInvalidate_canon | with_reducible apply State.writeIn_canon | with_reducible apply State.enterBank_canon | with_reducible refine canon_snd (by with_reducible assumption) ?_ | with_reducible refine canon_snd2 (by with_reducible assumption) ?_ | with_reducible refine canon_snd3 (by with_reducible assumption) ?_ | with_reducible apply ite_canon | with_reducible apply ite_chOk | with_reducible apply ite_helOk | with_reducible apply ite_snd_canon | with_reducible apply ch_ok | with_reducible apply hel_ok | simp only [canon_mk, chOk_mk, helOk_mk] | split)

theorem State.putGranules_canon (s : State) (twin : Bool) (a : Nat) (a0 : List (List Byte × Bool)) (hs : State.Canon s) : State.Canon (State.putGranules s twin a a0) := by
  induction a0 generalizing s twin a with
  | nil =>
    unfold State.putGranules
    try dsimp only
    repeat' (first | with_reducible assumption | with_reducible apply State.putGranule_canon | with_reducible apply ih)
  | cons x l ih =>
    unfold State.putGranules
    try dsimp only
    repeat' (first | with_reducible assumption | with_reducible apply State.putGranule_canon | with_reducible apply ih)

theorem State.cuFlags_canon (s : State) (unit : Nat) (f : Flags) (hs : State.Canon s) : State.Canon (State.cuFlags s unit f) := by
  unfold State.cuFlags
  try dsimp only
  repeat' (first | with_reducible assumption | with_reducible apply State.put_canon | with_reducible apply ite_canon | split)

theorem State.putRows_canon (s : State) (unit : Nat) (recipe : Nat) (dtype : Nat) (a : Nat) (a0 : List (Lane × List Nat × Bool)) (hs : State.Canon s) : State.Canon (State.putRows s unit recipe dtype a a0) := by
  induction a0 generalizing s unit recipe dtype a with
  | nil =>
    unfold State.putRows
    try dsimp only
    repeat' (first | with_reducible assumption | with_reducible apply State.cuFlags_canon | with_reducible apply State.putGranules_canon | with_reducible apply foldl_canon | intro _ | with_reducible apply ih)
  | cons x l ih =>
    unfold State.putRows
    try dsimp only
    repeat' (first | with_reducible assumption | with_reducible apply State.cuFlags_canon | with_reducible apply State.putGranules_canon | with_reducible apply foldl_canon | intro _ | with_reducible apply ih)

theorem State.setRx_canon (s : State) (r : RxXfer) (hs : State.Canon s) : State.Canon (State.setRx s r) := by
  unfold State.setRx
  try dsimp only
  repeat' (first | with_reducible assumption | simp only [canon_mk, chOk_mk, helOk_mk] | intro _)

theorem State.dropRx_canon (s : State) (r : RxXfer) (hs : State.Canon s) : State.Canon (State.dropRx s r) := by
  unfold State.dropRx
  try dsimp only
  repeat' (first | with_reducible assumption | simp only [canon_mk, chOk_mk, helOk_mk] | intro _)

theorem State.replyDone_canon (s : State) (k : Packet) (hs : State.Canon s) : State.Canon (State.replyDone s k) := by
  unfold State.replyDone
  try dsimp only
  repeat' (first | with_reducible assumption | with_reducible apply State.sendVia_canon | with_reducible apply State.endTx_canon | with_reducible apply ite_canon | simp only [canon_mk, chOk_mk, helOk_mk] | split)

theorem State.wholeHere_canon (s : State) (k : Packet) (hs : State.Canon s) : State.Canon (State.wholeHere s k) := by
  unfold State.wholeHere
  try dsimp only
  repeat' (first | with_reducible assumption | intro _ | with_reducible apply State.replyDone_canon | with_reducible apply State.postSig_canon | with_reducible apply ite_canon | with_reducible apply ite_chOk | with_reducible apply ite_helOk | with_reducible apply ite_snd_canon | with_reducible apply ch_ok | with_reducible apply hel_ok | simp only [canon_mk, chOk_mk, helOk_mk] | split)

theorem State.drawOddRow_canon (s : State) (hs : State.Canon s) : State.Canon (State.drawOddRow s).2 := by
  unfold State.drawOddRow
  try dsimp only
  repeat' (first | with_reducible assumption | intro _ | with_reducible apply ite_canon | with_reducible apply ite_chOk | with_reducible apply ite_helOk | with_reducible apply ite_snd_canon | with_reducible apply ch_ok | with_reducible apply hel_ok | simp only [canon_mk, chOk_mk, helOk_mk] | split)

theorem State.putNarrow_canon (s : State) (unit : Nat) (k : Packet) (r : RxXfer) (hs : State.Canon s) : State.Canon (State.putNarrow s unit k r) := by
  unfold State.putNarrow
  try dsimp only
  repeat' (first | with_reducible assumption | intro _ | with_reducible apply State.drawOddRow_canon | with_reducible apply State.putRows_canon | with_reducible refine canon_snd (by with_reducible assumption) ?_ | with_reducible refine canon_snd2 (by with_reducible assumption) ?_ | with_reducible refine canon_snd3 (by with_reducible assumption) ?_ | with_reducible apply ite_canon | with_reducible apply ite_chOk | with_reducible apply ite_helOk | with_reducible apply ite_snd_canon | with_reducible apply ch_ok | with_reducible apply hel_ok | simp only [canon_mk, chOk_mk, helOk_mk] | split)

theorem State.deliverWrite_canon (s : State) (unit : Nat) (k : Packet) (hs : State.Canon s) : State.Canon (State.deliverWrite s unit k) := by
  unfold State.deliverWrite
  try dsimp only
  repeat' (first | with_reducible assumption | intro _ | with_reducible apply State.delivered_canon | with_reducible apply State.putNarrow_canon | with_reducible apply State.wholeHere_canon | with_reducible apply State.dropRx_canon | with_reducible apply State.setRx_canon | with_reducible apply State.putGranules_canon | with_reducible apply State.endWork_canon | with_reducible apply State.violGlb_canon | with_reducible apply ite_canon | with_reducible apply ite_chOk | with_reducible apply ite_helOk | with_reducible apply ite_snd_canon | with_reducible apply ch_ok | with_reducible apply setHel_ok | with_reducible apply hel_ok | simp only [canon_mk, chOk_mk, helOk_mk] | split)

theorem State.deliverResp_canon (s : State) (k : Packet) (hs : State.Canon s) : State.Canon (State.deliverResp s k) := by
  unfold State.deliverResp
  try dsimp only
  repeat' (first | with_reducible assumption | intro _ | with_reducible apply State.putGranules_canon | with_reducible apply State.endTx_canon | with_reducible apply State.modCuJob_canon | with_reducible apply State.endWork_canon | with_reducible refine canon_snd (by with_reducible assumption) ?_ | with_reducible refine canon_snd2 (by with_reducible assumption) ?_ | with_reducible refine canon_snd3 (by with_reducible assumption) ?_ | with_reducible apply ite_canon | with_reducible apply ite_chOk | with_reducible apply ite_helOk | with_reducible apply ite_snd_canon | with_reducible apply ch_ok | with_reducible apply setHel_ok | with_reducible apply hel_ok | simp only [canon_mk, chOk_mk, helOk_mk] | split)

theorem State.readGranules_canon (s : State) (a : Nat) (a0 : Nat) (hs : State.Canon s) : State.Canon (State.readGranules s a a0).2.2 := by
  induction a0 generalizing s a with
  | zero =>
    unfold State.readGranules
    try dsimp only
    repeat' (first | with_reducible assumption | intro _ | with_reducible apply State.readAs_canon | with_reducible apply State.enterBank_canon | with_reducible refine canon_snd (by with_reducible assumption) ?_ | with_reducible refine canon_snd2 (by with_reducible assumption) ?_ | with_reducible refine canon_snd3 (by with_reducible assumption) ?_ | with_reducible apply ite_canon | with_reducible apply ite_chOk | with_reducible apply ite_helOk | with_reducible apply ite_snd_canon | with_reducible apply ch_ok | with_reducible apply hel_ok | simp only [canon_mk, chOk_mk, helOk_mk] | split)
  | succ x ih =>
    unfold State.readGranules
    try dsimp only
    repeat' (first | with_reducible assumption | intro _ | with_reducible apply ih | with_reducible apply State.readAs_canon | with_reducible apply State.enterBank_canon | with_reducible refine canon_snd (by with_reducible assumption) ?_ | with_reducible refine canon_snd2 (by with_reducible assumption) ?_ | with_reducible refine canon_snd3 (by with_reducible assumption) ?_ | with_reducible apply ite_canon | with_reducible apply ite_chOk | with_reducible apply ite_helOk | with_reducible apply ite_snd_canon | with_reducible apply ch_ok | with_reducible apply hel_ok | simp only [canon_mk, chOk_mk, helOk_mk] | split)

theorem State.respFor_canon (s : State) (k : Packet) (hs : State.Canon s) : State.Canon (State.respFor s k).2 := by
  unfold State.respFor
  try dsimp only
  repeat' (first | with_reducible assumption | with_reducible apply State.readGranules_canon | with_reducible apply State.violGlb_canon | with_reducible apply ite_canon | simp only [canon_mk, chOk_mk, helOk_mk] | split)

theorem State.deliverReq_canon (s : State) (k : Packet) (hs : State.Canon s) : State.Canon (State.deliverReq s k) := by
  unfold State.deliverReq
  try dsimp only
  repeat' (first | with_reducible assumption | with_reducible apply State.respFor_canon | with_reducible apply State.deliverResp_canon | with_reducible apply State.sendVia_canon | with_reducible apply ite_canon | split)

theorem State.deliverPost_canon (s : State) (k : Packet) (hs : State.Canon s) : State.Canon (State.deliverPost s k) := by
  unfold State.deliverPost
  try dsimp only
  repeat' (first | with_reducible assumption | with_reducible apply State.postSig_canon)

theorem State.send_canon (s : State) (unit : Nat) (k : Packet) (hs : State.Canon s) : State.Canon (State.send s unit k) := by
  unfold State.send
  try dsimp only
  repeat' (first | with_reducible assumption | with_reducible apply State.deliverPost_canon | with_reducible apply State.deliverReq_canon | with_reducible apply State.deliverResp_canon | with_reducible apply State.deliverWrite_canon | with_reducible apply State.sendVia_canon | with_reducible apply State.endTx_canon | with_reducible apply State.write_canon | with_reducible apply ite_canon | split)

theorem State.sendAll_canon (s : State) (unit : Nat) (a0 : List Packet) (hs : State.Canon s) : State.Canon (State.sendAll s unit a0) := by
  induction a0 generalizing s unit with
  | nil =>
    unfold State.sendAll
    try dsimp only
    repeat' (first | with_reducible assumption | with_reducible apply State.send_canon | with_reducible apply ih)
  | cons x l ih =>
    unfold State.sendAll
    try dsimp only
    repeat' (first | with_reducible assumption | with_reducible apply State.send_canon | with_reducible apply ih)

theorem State.accept_canon (s : State) (n : Nat) (kind : PKind) (k : InPacket) (f : State → State) (hs : State.Canon s) (hf : ∀ x0, State.Canon x0 → State.Canon (f x0)) : State.Canon (State.accept s n kind k f) := by
  unfold State.accept
  try dsimp only
  repeat' (first | with_reducible assumption | intro _ | with_reducible apply State.setPort_canon | with_reducible apply State.count_canon | with_reducible apply hf | with_reducible apply ite_canon | with_reducible apply ite_chOk | with_reducible apply ite_helOk | with_reducible apply ite_snd_canon | with_reducible apply ch_ok | with_reducible apply hel_ok | simp only [canon_mk, chOk_mk, helOk_mk] | split)

theorem State.consume_canon (s : State) (n : Nat) (kind : PKind) (k : InPacket) (f : State → State) (hs : State.Canon s) (hf : ∀ x0, State.Canon x0 → State.Canon (f x0)) : State.Canon (State.consume s n kind k f) := by
  unfold State.consume
  try dsimp only
  repeat' (first | with_reducible assumption | intro _ | with_reducible apply State.accept_canon | with_reducible apply State.oweCredit_canon | with_reducible apply State.endWork_canon | with_reducible apply hf | with_reducible apply ite_canon | with_reducible apply ite_chOk | with_reducible apply ite_helOk | with_reducible apply ite_snd_canon | with_reducible apply ch_ok | with_reducible apply hel_ok | simp only [canon_mk, chOk_mk, helOk_mk] | split)

theorem State.placeAgain_canon (s : State) (e : Packet × Option Nat) (hs : State.Canon s) : State.Canon (State.placeAgain s e) := by
  unfold State.placeAgain
  try dsimp only
  repeat' (first | with_reducible assumption | intro _ | with_reducible apply State.loseVia_canon | with_reducible apply State.setPort_canon | with_reducible refine canon_snd (by with_reducible assumption) ?_ | with_reducible refine canon_snd2 (by with_reducible assumption) ?_ | with_reducible refine canon_snd3 (by with_reducible assumption) ?_ | with_reducible apply ite_canon | with_reducible apply ite_chOk | with_reducible apply ite_helOk | with_reducible apply ite_snd_canon | with_reducible apply ch_ok | with_reducible apply hel_ok | simp only [canon_mk, chOk_mk, helOk_mk] | split)

theorem State.loseIngress_canon (s : State) (n : Nat) (hs : State.Canon s) : State.Canon (State.loseIngress s n) := by
  unfold State.loseIngress
  try dsimp only
  repeat' (first | with_reducible assumption | intro _ | with_reducible apply State.losePacket_canon | with_reducible apply State.setPort_canon | with_reducible apply ite_canon | with_reducible apply ite_chOk | with_reducible apply ite_helOk | with_reducible apply ite_snd_canon | with_reducible apply foldl_canon | with_reducible apply foldl_memwf | with_reducible apply ch_ok | with_reducible apply hel_ok | simp only [canon_mk, chOk_mk, helOk_mk] | split)

theorem State.reroute_canon (s : State) (n : Nat) (hs : State.Canon s) : State.Canon (State.reroute s n) := by
  unfold State.reroute
  try dsimp only
  repeat' (first | with_reducible assumption | intro _ | with_reducible apply State.loseIngress_canon | with_reducible apply State.placeAgain_canon | with_reducible apply State.pump_canon | with_reducible apply State.setPort_canon | with_reducible apply ite_canon | with_reducible apply ite_chOk | with_reducible apply ite_helOk | with_reducible apply ite_snd_canon | with_reducible apply foldl_canon | with_reducible apply foldl_memwf | with_reducible apply ch_ok | with_reducible apply hel_ok | with_reducible apply chReset_ok | with_reducible apply helReset_ok | simp only [canon_mk, chOk_mk, helOk_mk] | split)

theorem State.portDown_canon (s : State) (n : Nat) (st : Nat) (hs : State.Canon s) : State.Canon (State.portDown s n st) := by
  unfold State.portDown
  try dsimp only
  repeat' (first | with_reducible assumption | with_reducible apply State.reroute_canon | with_reducible apply State.put_canon)

theorem State.portComesUp_canon (s : State) (n : Nat) (st : Nat) (high : Bool) (pr : Peer) (hs : State.Canon s) : State.Canon (State.portComesUp s n st high pr) := by
  unfold State.portComesUp
  try dsimp only
  repeat' (first | with_reducible assumption | intro _ | with_reducible apply State.pump_canon | with_reducible apply State.setPort_canon | with_reducible apply State.puts_canon | with_reducible apply ite_canon | with_reducible apply ite_chOk | with_reducible apply ite_helOk | with_reducible apply ite_snd_canon | with_reducible apply ch_ok | with_reducible apply hel_ok | simp only [canon_mk, chOk_mk, helOk_mk] | split)

theorem State.trainFails_canon (s : State) (n : Nat) (c : Nat) (hs : State.Canon s) : State.Canon (State.trainFails s n c) := by
  unfold State.trainFails
  try dsimp only
  repeat' (first | with_reducible assumption | intro _ | with_reducible apply State.setPort_canon | with_reducible apply State.puts_canon | with_reducible apply State.put_canon | with_reducible apply ite_canon | with_reducible apply ite_chOk | with_reducible apply ite_helOk | with_reducible apply ite_snd_canon | with_reducible apply ch_ok | with_reducible apply hel_ok | simp only [canon_mk, chOk_mk, helOk_mk] | split)

theorem State.trainPort_canon (s : State) (n : Nat) (e : TrainEnd) (pr : Peer) (hs : State.Canon s) : State.Canon (State.trainPort s n e pr) := by
  unfold State.trainPort
  try dsimp only
  repeat' (first | with_reducible assumption | intro _ | with_reducible apply State.trainFails_canon | with_reducible apply State.portComesUp_canon | with_reducible apply State.countSat_canon | with_reducible apply State.put_canon | with_reducible refine canon_snd (by with_reducible assumption) ?_ | with_reducible refine canon_snd2 (by with_reducible assumption) ?_ | with_reducible refine canon_snd3 (by with_reducible assumption) ?_ | with_reducible apply ite_canon | with_reducible apply ite_chOk | with_reducible apply ite_helOk | with_reducible apply ite_snd_canon | with_reducible apply ch_ok | with_reducible apply hel_ok | simp only [canon_mk, chOk_mk, helOk_mk] | split)

theorem State.resetPort_canon (s : State) (n : Nat) (hs : State.Canon s) : State.Canon (State.resetPort s n) := by
  unfold State.resetPort
  try dsimp only
  repeat' (first | with_reducible assumption | intro _ | with_reducible apply State.reroute_canon | with_reducible apply State.setPort_canon | with_reducible apply State.puts_canon | with_reducible apply State.put_canon | with_reducible apply ite_canon | with_reducible apply ite_chOk | with_reducible apply ite_helOk | with_reducible apply ite_snd_canon | with_reducible apply ch_ok | with_reducible apply hel_ok | simp only [canon_mk, chOk_mk, helOk_mk] | split)

theorem State.controlIn_canon (s : State) (n : Nat) (credits : List Nat) (ack : Nat) (nak : Bool) (hs : State.Canon s) : State.Canon (State.controlIn s n credits ack nak) := by
  unfold State.controlIn
  try dsimp only
  repeat' (first | with_reducible assumption | intro _ | with_reducible apply State.portDown_canon | with_reducible apply State.pump_canon | with_reducible apply State.setPort_canon | with_reducible apply State.count_canon | with_reducible apply ite_canon | with_reducible apply ite_chOk | with_reducible apply ite_helOk | with_reducible apply ite_snd_canon | with_reducible apply foldl_canon | with_reducible apply foldl_memwf | with_reducible apply ch_ok | with_reducible apply hel_ok | simp only [canon_mk, chOk_mk, helOk_mk] | split)

theorem execLinkReadReq_canon (port : Fin 8) (k : InPacket) (s : State) (hs : State.Canon s) : ∀ t, execLinkReadReq port k s = .next t → State.Canon t := by
  intro t ht
  unfold execLinkReadReq at ht
  try dsimp only at ht
  injection ht with ht
  subst ht
  try dsimp only
  repeat' (first | with_reducible assumption | intro _ | with_reducible apply Hel.next_canon | with_reducible apply State.consume_canon | with_reducible apply State.deliverReq_canon | with_reducible apply ite_canon | with_reducible apply ite_chOk | with_reducible apply ite_helOk | with_reducible apply ite_snd_canon | with_reducible apply ch_ok | with_reducible apply hel_ok | simp only [canon_mk, chOk_mk, helOk_mk] | split)

theorem execLinkPost_canon (port : Fin 8) (k : InPacket) (s : State) (hs : State.Canon s) : ∀ t, execLinkPost port k s = .next t → State.Canon t := by
  intro t ht
  unfold execLinkPost at ht
  try dsimp only at ht
  injection ht with ht
  subst ht
  try dsimp only
  repeat' (first | with_reducible assumption | intro _ | with_reducible apply Hel.next_canon | with_reducible apply State.consume_canon | with_reducible apply State.deliverPost_canon | with_reducible apply ite_canon | with_reducible apply ite_chOk | with_reducible apply ite_helOk | with_reducible apply ite_snd_canon | with_reducible apply ch_ok | with_reducible apply hel_ok | simp only [canon_mk, chOk_mk, helOk_mk] | split)

theorem execPacketForward_canon (port : Fin 8) (kind : LinkKind) (k : InPacket) (s : State) (hs : State.Canon s) : ∀ t, execPacketForward port kind k s = .next t → State.Canon t := by
  intro t ht
  unfold execPacketForward at ht
  try dsimp only at ht
  injection ht with ht
  subst ht
  try dsimp only
  repeat' (first | with_reducible assumption | intro _ | with_reducible apply Hel.next_canon | with_reducible apply State.accept_canon | with_reducible apply State.sendVia_canon | with_reducible apply State.losePacket_canon | with_reducible apply State.oweCredit_canon | with_reducible apply State.write_canon | with_reducible refine canon_snd (by with_reducible assumption) ?_ | with_reducible refine canon_snd2 (by with_reducible assumption) ?_ | with_reducible refine canon_snd3 (by with_reducible assumption) ?_ | with_reducible apply ite_canon | with_reducible apply ite_chOk | with_reducible apply ite_helOk | with_reducible apply ite_snd_canon | with_reducible apply ch_ok | with_reducible apply hel_ok | simp only [canon_mk, chOk_mk, helOk_mk] | split)

theorem execControlFlit_canon (port : Fin 8) (credits : List (BitVec 7)) (ack : BitVec 12) (nak : Bool) (s : State) (hs : State.Canon s) : ∀ t, execControlFlit port credits ack nak s = .next t → State.Canon t := by
  intro t ht
  unfold execControlFlit at ht
  injection ht with ht
  subst ht
  try dsimp only
  repeat' (first | with_reducible assumption | with_reducible apply Hel.next_canon | with_reducible apply State.controlIn_canon | with_reducible apply ite_canon | split)

theorem execControlFlitInsert_canon (port : Fin 8) (s : State) (hs : State.Canon s) : ∀ t, execControlFlitInsert port s = .next t → State.Canon t := by
  intro t ht
  unfold execControlFlitInsert at ht
  try dsimp only at ht
  injection ht with ht
  subst ht
  try dsimp only
  repeat' (first | with_reducible assumption | intro _ | with_reducible apply Hel.next_canon | with_reducible apply State.setPort_canon | with_reducible apply ite_canon | with_reducible apply ite_chOk | with_reducible apply ite_helOk | with_reducible apply ite_snd_canon | with_reducible apply ch_ok | with_reducible apply hel_ok | simp only [canon_mk, chOk_mk, helOk_mk] | split)

theorem execPortTraining_canon (port : Fin 8) (e : TrainEnd) (peer : Peer) (s : State) (hs : State.Canon s) : ∀ t, execPortTraining port e peer s = .next t → State.Canon t := by
  intro t ht
  unfold execPortTraining at ht
  injection ht with ht
  subst ht
  try dsimp only
  repeat' (first | with_reducible assumption | with_reducible apply Hel.next_canon | with_reducible apply State.trainPort_canon)

theorem execPortRetrain_canon (port : Fin 8) (s : State) (hs : State.Canon s) : ∀ t, execPortRetrain port s = .next t → State.Canon t := by
  intro t ht
  unfold execPortRetrain at ht
  injection ht with ht
  subst ht
  try dsimp only
  repeat' (first | with_reducible assumption | with_reducible apply Hel.next_canon | with_reducible apply State.portDown_canon | with_reducible apply ite_canon | split)

theorem execPortRetry_canon (port : Fin 8) (s : State) (hs : State.Canon s) : ∀ t, execPortRetry port s = .next t → State.Canon t := by
  intro t ht
  unfold execPortRetry at ht
  try dsimp only at ht
  injection ht with ht
  subst ht
  try dsimp only
  repeat' (first | with_reducible assumption | intro _ | with_reducible apply Hel.next_canon | with_reducible apply State.setPort_canon | with_reducible apply State.put_canon | with_reducible apply ite_canon | with_reducible apply ite_chOk | with_reducible apply ite_helOk | with_reducible apply ite_snd_canon | with_reducible apply ch_ok | with_reducible apply hel_ok | simp only [canon_mk, chOk_mk, helOk_mk] | split)

/-! ## RegAccess -/

theorem State.putField_canon (s : State) (off : Nat) (d : FieldDesc) (v : Nat) (hs : State.Canon s) : State.Canon (State.putField s off d v) := by
  unfold State.putField
  try dsimp only
  repeat' (first | with_reducible assumption | with_reducible apply State.put_canon)

theorem State.writeField_canon (s : State) (off : Nat) (w : Nat) (d : FieldDesc) (hs : State.Canon s) : State.Canon (State.writeField s off w d) := by
  unfold State.writeField
  try dsimp only
  repeat' (first | with_reducible assumption | with_reducible apply State.putField_canon | split)

theorem State.writeFields_canon (s : State) (off : Nat) (w : Nat) (a0 : List FieldDesc) (hs : State.Canon s) : State.Canon (State.writeFields s off w a0) := by
  induction a0 generalizing s off w with
  | nil =>
    unfold State.writeFields
    try dsimp only
    repeat' (first | with_reducible assumption | with_reducible apply State.writeField_canon | with_reducible apply ih)
  | cons x l ih =>
    unfold State.writeFields
    try dsimp only
    repeat' (first | with_reducible assumption | with_reducible apply State.writeField_canon | with_reducible apply ih)

theorem State.countBad_canon (s : State) (agent : Nat) (off : Nat) (w : Nat) (hs : State.Canon s) : State.Canon (State.countBad s agent off w) := by
  unfold State.countBad
  try dsimp only
  repeat' (first | with_reducible assumption | intro _ | with_reducible apply State.violGlb_canon | with_reducible refine canon_snd (by with_reducible assumption) ?_ | with_reducible refine canon_snd2 (by with_reducible assumption) ?_ | with_reducible refine canon_snd3 (by with_reducible assumption) ?_ | with_reducible apply ite_canon | with_reducible apply ite_chOk | with_reducible apply ite_helOk | with_reducible apply ite_snd_canon | with_reducible apply ch_ok | with_reducible apply hel_ok | simp only [canon_mk, chOk_mk, helOk_mk] | split)

theorem State.takeWord_canon (s : State) (off : Nat) (w : Nat) (hs : State.Canon s) : State.Canon (State.takeWord s off w) := by
  unfold State.takeWord
  try dsimp only
  repeat' (first | with_reducible assumption | intro _ | with_reducible apply State.writeFields_canon | with_reducible refine canon_snd (by with_reducible assumption) ?_ | with_reducible refine canon_snd2 (by with_reducible assumption) ?_ | with_reducible refine canon_snd3 (by with_reducible assumption) ?_ | with_reducible apply ite_canon | with_reducible apply ite_chOk | with_reducible apply ite_helOk | with_reducible apply ite_snd_canon | with_reducible apply ch_ok | with_reducible apply hel_ok | simp only [canon_mk, chOk_mk, helOk_mk] | split)

theorem State.plainWrite_canon (s : State) (agent : Nat) (off : Nat) (w : Nat) (hs : State.Canon s) : State.Canon (State.plainWrite s agent off w) := by
  unfold State.plainWrite
  try dsimp only
  repeat' (first | with_reducible assumption | intro _ | with_reducible apply State.takeWord_canon | with_reducible apply State.countBad_canon | with_reducible apply ite_canon | with_reducible apply ite_chOk | with_reducible apply ite_helOk | with_reducible apply ite_snd_canon | with_reducible apply ch_ok | with_reducible apply hel_ok | simp only [canon_mk, chOk_mk, helOk_mk] | split)

theorem State.resetRange_canon (s : State) (k : ResetKind) (lo : Nat) (hi : Nat) (hs : State.Canon s) : State.Canon (State.resetRange s k lo hi) := by
  unfold State.resetRange
  try dsimp only
  repeat' (first | with_reducible assumption | simp only [canon_mk, chOk_mk, helOk_mk] | intro _ | split)

/-! ## Arbiter -/

theorem State.setArb_canon (s : State) (a : Nat) (x : Arb) (hs : State.Canon s) : State.Canon (State.setArb s a x) := by
  unfold State.setArb
  try dsimp only
  repeat' (first | with_reducible assumption | simp only [canon_mk, chOk_mk, helOk_mk])

theorem State.countBeat_canon (s : State) (k : Nat) (x : Arb) (hs : State.Canon s) : State.Canon (State.countBeat s k x) := by
  unfold State.countBeat
  try dsimp only
  repeat' (first | with_reducible assumption | with_reducible apply State.count_canon | with_reducible apply ite_canon | split)

theorem execArbiterBeat_canon (arb : Fin 110) (req : BitVec 8) (s : State) (hs : State.Canon s) : ∀ t, execArbiterBeat arb req s = .next t → State.Canon t := by
  intro t ht
  unfold execArbiterBeat at ht
  try dsimp only at ht
  injection ht with ht
  subst ht
  try dsimp only
  repeat' (first | with_reducible assumption | intro _ | with_reducible apply Hel.next_canon | with_reducible apply State.countBeat_canon | with_reducible apply State.setArb_canon | with_reducible apply ite_canon | with_reducible apply ite_chOk | with_reducible apply ite_helOk | with_reducible apply ite_snd_canon | with_reducible apply ch_ok | with_reducible apply hel_ok | simp only [canon_mk, chOk_mk, helOk_mk] | split)

theorem execArbiterDecision_canon (arb : Fin 110) (rs : List ArbReq) (s : State) (hs : State.Canon s) : ∀ t, execArbiterDecision arb rs s = .next t → State.Canon t := by
  intro t ht
  unfold execArbiterDecision at ht
  try dsimp only at ht
  injection ht with ht
  subst ht
  try dsimp only
  repeat' (first | with_reducible assumption | intro _ | with_reducible apply State.settle_canon | with_reducible apply Hel.next_canon | with_reducible apply State.setArb_canon | with_reducible apply State.count_canon | with_reducible refine canon_snd (by with_reducible assumption) ?_ | with_reducible refine canon_snd2 (by with_reducible assumption) ?_ | with_reducible refine canon_snd3 (by with_reducible assumption) ?_ | with_reducible apply ite_canon | with_reducible apply ite_chOk | with_reducible apply ite_helOk | with_reducible apply ite_snd_canon | with_reducible apply ch_ok | with_reducible apply hel_ok | simp only [canon_mk, chOk_mk, helOk_mk] | split)

theorem execGrantWithdraw_canon (arb : Fin 110) (s : State) (hs : State.Canon s) : ∀ t, execGrantWithdraw arb s = .next t → State.Canon t := by
  intro t ht
  unfold execGrantWithdraw at ht
  try dsimp only at ht
  injection ht with ht
  subst ht
  try dsimp only
  repeat' (first | with_reducible assumption | intro _ | with_reducible apply Hel.next_canon | with_reducible apply State.setArb_canon | with_reducible apply State.count_canon | with_reducible refine canon_snd (by with_reducible assumption) ?_ | with_reducible refine canon_snd2 (by with_reducible assumption) ?_ | with_reducible refine canon_snd3 (by with_reducible assumption) ?_ | with_reducible apply ite_canon | with_reducible apply ite_chOk | with_reducible apply ite_helOk | with_reducible apply ite_snd_canon | with_reducible apply ch_ok | with_reducible apply hel_ok | simp only [canon_mk, chOk_mk, helOk_mk] | split)

theorem State.clearArb_canon (s : State) (a : Nat) (hs : State.Canon s) : State.Canon (State.clearArb s a) := by
  unfold State.clearArb
  try dsimp only
  repeat' (first | with_reducible assumption | with_reducible apply State.setArb_canon | simp only [canon_mk, chOk_mk, helOk_mk])

theorem State.copyArb_canon (s : State) (hs : State.Canon s) : State.Canon (State.copyArb s) := by
  unfold State.copyArb
  try dsimp only
  repeat' (first | with_reducible assumption | with_reducible apply State.put_canon | with_reducible apply foldl_canon | intro _)

theorem State.writeArbNext_canon (s : State) (agent : Nat) (w : Nat) (hs : State.Canon s) : State.Canon (State.writeArbNext s agent w) := by
  unfold State.writeArbNext
  try dsimp only
  repeat' (first | with_reducible assumption | with_reducible apply State.copyArb_canon | with_reducible apply State.plainWrite_canon | with_reducible apply ite_canon | split)

theorem execArbNextWrite_canon (v : Word) (s : State) (hs : State.Canon s) : ∀ t, execArbNextWrite v s = .next t → State.Canon t := by
  intro t ht
  unfold execArbNextWrite at ht
  injection ht with ht
  subst ht
  try dsimp only
  repeat' (first | with_reducible assumption | with_reducible apply State.writeArbNext_canon | with_reducible apply Hel.next_canon)

theorem execArbTableActivate_canon (set : Fin 10) (s : State) (hs : State.Canon s) : ∀ t, execArbTableActivate set s = .next t → State.Canon t := by
  intro t ht
  unfold execArbTableActivate at ht
  injection ht with ht
  subst ht
  try dsimp only
  repeat' (first | with_reducible assumption | with_reducible apply State.setArb_canon | with_reducible apply Hel.next_canon | with_reducible apply ite_canon | with_reducible apply foldl_canon | simp only [canon_mk, chOk_mk, helOk_mk] | intro _ | split)

theorem State.writeArbTable_canon (s : State) (agent : Nat) (k : Nat) (t : Nat) (j : Nat) (w : Nat) (hs : State.Canon s) : State.Canon (State.writeArbTable s agent k t j w) := by
  unfold State.writeArbTable
  try dsimp only
  repeat' (first | with_reducible assumption | intro _ | with_reducible apply State.plainWrite_canon | with_reducible apply State.violGlb_canon | with_reducible apply ite_canon | with_reducible apply ite_chOk | with_reducible apply ite_helOk | with_reducible apply ite_snd_canon | with_reducible apply ch_ok | with_reducible apply hel_ok | simp only [canon_mk, chOk_mk, helOk_mk] | split)

theorem execArbTableWrite_canon (set : Fin 10) (t : Fin 4) (j : Fin 5) (v : Word) (s : State) (hs : State.Canon s) :
    ∀ u, execArbTableWrite set t j v s = .next u → State.Canon u := by
  intro u hu
  unfold execArbTableWrite at hu
  injection hu with hu
  subst hu
  exact State.writeArbTable_canon _ _ _ _ _ _ hs

/-! ## Bonded -/

theorem State.poisonAt_canon (s : State) (g : Nat) (hs : State.Canon s) : State.Canon (State.poisonAt s g) := by
  unfold State.poisonAt
  generalize freeGranule s.freeCount = bs
  exact ⟨memWrite_wf hs.1, hs.2⟩

theorem State.correctedIn_canon (s : State) (bank : Nat) (row : Nat) (corrected : Nat) (hs : State.Canon s) : State.Canon (State.correctedIn s bank row corrected) := by
  unfold State.correctedIn
  try dsimp only
  repeat' (first | with_reducible assumption | intro _ | with_reducible apply State.countSat_canon | with_reducible apply ite_canon | with_reducible apply ite_chOk | with_reducible apply ite_helOk | with_reducible apply ite_snd_canon | with_reducible apply ch_ok | with_reducible apply hel_ok | simp only [canon_mk, chOk_mk, helOk_mk] | split)

theorem State.granuleBad_canon (s : State) (g : Nat) (source : Nat) (unit : Nat) (counter : FieldRef) (bad : ReadBad) (hs : State.Canon s) : State.Canon (State.granuleBad s g source unit counter bad) := by
  unfold State.granuleBad
  try dsimp only
  repeat' (first | with_reducible assumption | intro _ | with_reducible apply State.poisonAt_canon | with_reducible apply State.logErr_canon | with_reducible apply State.countSat_canon | with_reducible refine canon_snd (by with_reducible assumption) ?_ | with_reducible refine canon_snd2 (by with_reducible assumption) ?_ | with_reducible refine canon_snd3 (by with_reducible assumption) ?_ | with_reducible apply ite_canon | with_reducible apply ite_chOk | with_reducible apply ite_helOk | with_reducible apply ite_snd_canon | with_reducible apply ch_ok | with_reducible apply hel_ok | simp only [canon_mk, chOk_mk, helOk_mk] | split)

theorem State.readFinds_canon (s : State) (a : Nat) (f : Nat) (corrected : Nat) (bad : ReadBad) (hs : State.Canon s) : State.Canon (State.readFinds s a f corrected bad) := by
  unfold State.readFinds
  try dsimp only
  repeat' (first | with_reducible assumption | intro _ | with_reducible apply State.granuleBad_canon | with_reducible apply State.correctedIn_canon | with_reducible apply ite_canon | with_reducible apply ite_chOk | with_reducible apply ite_helOk | with_reducible apply ite_snd_canon | with_reducible apply ch_ok | with_reducible apply hel_ok | simp only [canon_mk, chOk_mk, helOk_mk] | split)

theorem State.cartFinds_canon (s : State) (a : Nat) (m : Nat) (corrected : Nat) (bad : ReadBad) (hs : State.Canon s) : State.Canon (State.cartFinds s a m corrected bad) := by
  unfold State.cartFinds
  try dsimp only
  repeat' (first | with_reducible assumption | intro _ | with_reducible apply State.granuleBad_canon | with_reducible apply State.countSat_canon | with_reducible apply ite_canon | with_reducible apply ite_chOk | with_reducible apply ite_helOk | with_reducible apply ite_snd_canon | with_reducible apply ch_ok | with_reducible apply hel_ok | simp only [canon_mk, chOk_mk, helOk_mk] | split)

theorem State.granuleRead_canon (s : State) (a : Nat) (corrected : Nat) (bad : ReadBad) (hs : State.Canon s) : State.Canon (State.granuleRead s a corrected bad) := by
  unfold State.granuleRead
  try dsimp only
  repeat' (first | with_reducible assumption | intro _ | with_reducible apply State.cartFinds_canon | with_reducible apply State.readFinds_canon | with_reducible refine canon_snd (by with_reducible assumption) ?_ | with_reducible refine canon_snd2 (by with_reducible assumption) ?_ | with_reducible refine canon_snd3 (by with_reducible assumption) ?_ | with_reducible apply ite_canon | with_reducible apply ite_chOk | with_reducible apply ite_helOk | with_reducible apply ite_snd_canon | with_reducible apply ch_ok | with_reducible apply hel_ok | simp only [canon_mk, chOk_mk, helOk_mk] | split)

theorem execBondedRead_canon (g : BitVec 40) (corrected : BitVec 8) (bad : ReadBad) (s : State) (hs : State.Canon s) : ∀ t, execBondedRead g corrected bad s = .next t → State.Canon t := by
  intro t ht
  unfold execBondedRead at ht
  try dsimp only at ht
  injection ht with ht
  subst ht
  try dsimp only
  repeat' (first | with_reducible assumption | intro _ | with_reducible apply Hel.next_canon | with_reducible apply State.granuleRead_canon | with_reducible apply State.warm_canon | with_reducible apply State.noteWaiting_canon | with_reducible apply ite_canon | with_reducible apply ite_chOk | with_reducible apply ite_helOk | with_reducible apply ite_snd_canon | with_reducible apply ch_ok | with_reducible apply hel_ok | simp only [canon_mk, chOk_mk, helOk_mk] | split)

theorem State.scrubFree_canon (s : State) (f : Nat) (corrected : Nat) (bad : ReadBad) (hs : State.Canon s) : State.Canon (State.scrubFree s f corrected bad) := by
  unfold State.scrubFree
  try dsimp only
  repeat' (first | with_reducible assumption | intro _ | with_reducible apply State.correctedIn_canon | with_reducible apply State.logErr_canon | with_reducible apply State.countSat_canon | with_reducible refine canon_snd (by with_reducible assumption) ?_ | with_reducible refine canon_snd2 (by with_reducible assumption) ?_ | with_reducible refine canon_snd3 (by with_reducible assumption) ?_ | with_reducible apply ite_canon | with_reducible apply ite_chOk | with_reducible apply ite_helOk | with_reducible apply ite_snd_canon | with_reducible apply ch_ok | with_reducible apply hel_ok | simp only [canon_mk, chOk_mk, helOk_mk] | split)

theorem State.scrubSidecar_canon (s : State) (f : Nat) (corrected : Nat) (bad : ReadBad) (hs : State.Canon s) :
    State.Canon (State.scrubSidecar s f corrected bad) := by
  unfold State.scrubSidecar
  have h := State.correctedIn_canon s (s.bankKey f) (s.sidecarRow (s.rowOf f)) corrected hs
  split
  · exact h
  · exact foldl_canon (fun u x hu => ite_canon (State.granuleBad_canon _ _ _ _ _ _ hu) hu) h

theorem execPatrolScrub_canon (g : BitVec 40) (corrected : BitVec 8) (bad : ReadBad) (s : State) (hs : State.Canon s) : ∀ t, execPatrolScrub g corrected bad s = .next t → State.Canon t := by
  intro t ht
  unfold execPatrolScrub at ht
  try dsimp only at ht
  injection ht with ht
  subst ht
  try dsimp only
  repeat' (first | with_reducible assumption | intro _ | with_reducible apply Hel.next_canon | with_reducible apply State.scrubSidecar_canon | with_reducible apply State.scrubFree_canon | with_reducible apply State.readFinds_canon | with_reducible apply State.passed_canon | with_reducible apply State.noteWaiting_canon | with_reducible refine canon_snd (by with_reducible assumption) ?_ | with_reducible refine canon_snd2 (by with_reducible assumption) ?_ | with_reducible refine canon_snd3 (by with_reducible assumption) ?_ | with_reducible apply ite_canon | with_reducible apply ite_chOk | with_reducible apply ite_helOk | with_reducible apply ite_snd_canon | with_reducible apply ch_ok | with_reducible apply hel_ok | simp only [canon_mk, chOk_mk, helOk_mk] | split)

theorem State.bondedWrite_canon (s : State) (a : Nat) (bs : List Byte) (hs : State.Canon s) : State.Canon (State.bondedWrite s a bs) := by
  unfold State.bondedWrite
  try dsimp only
  repeat' (first | with_reducible assumption | with_reducible apply State.noteWaiting_canon | with_reducible apply State.writeLogged_canon | with_reducible apply ite_canon | split)

theorem execBondedWrite_canon (g : BitVec 40) (data : List Byte) (s : State) (hs : State.Canon s) : ∀ t, execBondedWrite g data s = .next t → State.Canon t := by
  intro t ht
  unfold execBondedWrite at ht
  injection ht with ht
  subst ht
  try dsimp only
  repeat' (first | with_reducible assumption | with_reducible apply Hel.next_canon | with_reducible apply State.bondedWrite_canon)

theorem execPartialWriteMerge_canon (g : BitVec 40) (m : MergeRead) (data : List Byte) (s : State) (hs : State.Canon s) : ∀ t, execPartialWriteMerge g m data s = .next t → State.Canon t := by
  intro t ht
  unfold execPartialWriteMerge at ht
  try dsimp only at ht
  injection ht with ht
  subst ht
  try dsimp only
  repeat' (first | with_reducible assumption | intro _ | with_reducible apply Hel.next_canon | with_reducible apply State.bondedWrite_canon | with_reducible apply State.readFinds_canon | with_reducible refine canon_snd (by with_reducible assumption) ?_ | with_reducible refine canon_snd2 (by with_reducible assumption) ?_ | with_reducible refine canon_snd3 (by with_reducible assumption) ?_ | with_reducible apply ite_canon | with_reducible apply ite_chOk | with_reducible apply ite_helOk | with_reducible apply ite_snd_canon | with_reducible apply ch_ok | with_reducible apply hel_ok | simp only [canon_mk, chOk_mk, helOk_mk] | split)

theorem execRefresh_canon (seg : Fin 1152) (bank : Fin 16) (s : State) (hs : State.Canon s) : ∀ t, execRefresh seg bank s = .next t → State.Canon t := by
  intro t ht
  unfold execRefresh at ht
  injection ht with ht
  subst ht
  try dsimp only
  repeat' (first | with_reducible assumption | with_reducible apply Hel.next_canon | with_reducible apply ite_canon | simp only [canon_mk, chOk_mk, helOk_mk] | split)

theorem execRefreshRateChange_canon (layer : Fin 12) (deg : BitVec 12) (s : State) (hs : State.Canon s) : ∀ t, execRefreshRateChange layer deg s = .next t → State.Canon t := by
  intro t ht
  unfold execRefreshRateChange at ht
  try dsimp only at ht
  injection ht with ht
  subst ht
  try dsimp only
  repeat' (first | with_reducible assumption | intro _ | with_reducible apply Hel.next_canon | with_reducible apply State.puts_canon | with_reducible apply ite_canon | with_reducible apply ite_chOk | with_reducible apply ite_helOk | with_reducible apply ite_snd_canon | with_reducible apply ch_ok | with_reducible apply hel_ok | simp only [canon_mk, chOk_mk, helOk_mk] | split)

theorem State.exhaust_canon (s : State) (seg : Nat) (bank : Nat) (hs : State.Canon s) : State.Canon (State.exhaust s seg bank) := by
  unfold State.exhaust
  try dsimp only
  repeat' (first | with_reducible assumption | intro _ | with_reducible apply State.logErr_canon | with_reducible apply State.put_canon | with_reducible apply ite_canon | with_reducible apply ite_chOk | with_reducible apply ite_helOk | with_reducible apply ite_snd_canon | with_reducible apply ch_ok | with_reducible apply hel_ok | simp only [canon_mk, chOk_mk, helOk_mk] | split)

theorem execRowMove_canon (seg : Fin 1152) (bank : Fin 16) (row : Fin 2048) (s : State) (hs : State.Canon s) : ∀ t, execRowMove seg bank row s = .next t → State.Canon t := by
  intro t ht
  unfold execRowMove at ht
  try dsimp only at ht
  injection ht with ht
  subst ht
  try dsimp only
  repeat' (first | with_reducible assumption | intro _ | with_reducible apply Hel.next_canon | with_reducible apply State.exhaust_canon | with_reducible apply State.count_canon | with_reducible apply State.put_canon | with_reducible apply ite_canon | with_reducible apply ite_chOk | with_reducible apply ite_helOk | with_reducible apply ite_snd_canon | with_reducible apply ch_ok | with_reducible apply hel_ok | simp only [canon_mk, chOk_mk, helOk_mk] | split)

/-! ## Collective -/

theorem State.cuFetch_ok {s : State} {unit : Nat} {src : JobSrc} :
    ∀ r, s.cuFetch unit src = some r → State.Canon s → State.Canon r.2.2.2.2 := by
  intro r he hs
  unfold State.cuFetch at he
  split at he
  · split at he
    · cases he
    · injection he with he
      subst he
      exact hs
  · dsimp only at he
    by_cases hc : (s.flag (Reg.HGPn_CU_CTL_ENABLE (cuIndex unit)) &&
        s.jobPosted (4 + cuIndex unit) (s.get (Reg.HGPn_CU_CTL_JOB_SIG (cuIndex unit))) (s.ring (4 + cuIndex unit)).taken) = true
    · rw [if_pos hc] at he
      injection he with he
      subst he
      exact State.read_canon _ _ _ hs
    · rw [if_neg hc] at he; cases he

theorem State.cuFetch_canon {s t : State} {unit : Nat} {src : JobSrc} {a : List Nat} {b : Option Nat} {c : Nat} {d : Bool}
    (he : s.cuFetch unit src = some (a, b, c, d, t))
    (hs : State.Canon s) : State.Canon t := State.cuFetch_ok _ he hs

theorem State.newXfer_canon (s : State) (hs : State.Canon s) : State.Canon (State.newXfer s).2 := by
  unfold State.newXfer
  try dsimp only
  repeat' (first | with_reducible assumption | simp only [canon_mk, chOk_mk, helOk_mk])

theorem State.readGrans_canon (s : State) (a : Nat) (a0 : Nat) (hs : State.Canon s) : State.Canon (State.readGrans s a a0).2 := by
  induction a0 generalizing s a with
  | zero =>
    unfold State.readGrans
    try dsimp only
    repeat' (first | with_reducible assumption | with_reducible apply State.readIn_canon | with_reducible apply ih)
  | succ x ih =>
    unfold State.readGrans
    try dsimp only
    repeat' (first | with_reducible assumption | with_reducible apply State.readIn_canon | with_reducible apply ih)

theorem State.readRows_canon (s : State) (stype : Nat) (len : Nat) (a0 : List Nat) (hs : State.Canon s) : State.Canon (State.readRows s stype len a0).2 := by
  induction a0 generalizing s stype len with
  | nil =>
    unfold State.readRows
    try dsimp only
    repeat' (first | with_reducible assumption | with_reducible apply State.read_canon | intro _ | with_reducible apply ih)
  | cons x l ih =>
    unfold State.readRows
    try dsimp only
    repeat' (first | with_reducible assumption | with_reducible apply State.read_canon | intro _ | with_reducible apply ih)

theorem State.goTransfer_canon (s : State) (t : TxWait) (hs : State.Canon s) : State.Canon (State.goTransfer s t) := by
  unfold State.goTransfer
  try dsimp only
  repeat' (first | with_reducible assumption | intro _ | with_reducible apply State.newXfer_canon | with_reducible apply State.sendAll_canon | with_reducible refine canon_snd (by with_reducible assumption) ?_ | with_reducible refine canon_snd2 (by with_reducible assumption) ?_ | with_reducible refine canon_snd3 (by with_reducible assumption) ?_ | with_reducible apply ite_canon | with_reducible apply ite_chOk | with_reducible apply ite_helOk | with_reducible apply ite_snd_canon | with_reducible apply ch_ok | with_reducible apply hel_ok | simp only [canon_mk, chOk_mk, helOk_mk] | split)

theorem State.startTransfer_canon (s : State) (t : TxWait) (hs : State.Canon s) : State.Canon (State.startTransfer s t) := by
  unfold State.startTransfer
  try dsimp only
  repeat' (first | with_reducible assumption | intro _ | with_reducible apply State.goTransfer_canon | with_reducible apply ite_canon | with_reducible apply ite_chOk | with_reducible apply ite_helOk | with_reducible apply ite_snd_canon | with_reducible apply ch_ok | with_reducible apply hel_ok | simp only [canon_mk, chOk_mk, helOk_mk] | split)

theorem State.startTransfers_canon (s : State) (hs : State.Canon s) : State.Canon (State.startTransfers s) := by
  unfold State.startTransfers
  try dsimp only
  repeat' (first | with_reducible assumption | intro _ | with_reducible apply State.startTransfer_canon | with_reducible apply ite_canon | with_reducible apply ite_chOk | with_reducible apply ite_helOk | with_reducible apply ite_snd_canon | with_reducible apply foldl_canon | with_reducible apply foldl_memwf | with_reducible apply ch_ok | with_reducible apply hel_ok | simp only [canon_mk, chOk_mk, helOk_mk] | split)

theorem State.startWrite_canon (s : State) (unit : Nat) (job : Nat) (k : Packet) (gs : List (List Byte × Bool)) (hs : State.Canon s) : State.Canon (State.startWrite s unit job k gs) := by
  unfold State.startWrite
  try dsimp only
  repeat' (first | with_reducible assumption | intro _ | with_reducible apply State.startTransfer_canon | with_reducible apply ite_canon | with_reducible apply ite_chOk | with_reducible apply ite_helOk | with_reducible apply ite_snd_canon | with_reducible apply ch_ok | with_reducible apply hel_ok | simp only [canon_mk, chOk_mk, helOk_mk] | split)

theorem State.startRead_canon (s : State) (unit : Nat) (job : Nat) (node : Nat) (cls : Nat) (src : Nat) (dst : Nat) (n : Nat) (hs : State.Canon s) : State.Canon (State.startRead s unit job node cls src dst n) := by
  unfold State.startRead
  try dsimp only
  repeat' (first | with_reducible assumption | intro _ | with_reducible apply State.startTransfer_canon | with_reducible apply ite_canon | with_reducible apply ite_chOk | with_reducible apply ite_helOk | with_reducible apply ite_snd_canon | with_reducible apply ch_ok | with_reducible apply hel_ok | simp only [canon_mk, chOk_mk, helOk_mk] | split)

theorem State.copyGranules_canon (s : State) (src : Nat) (dst : Nat) (a0 : Nat) (hs : State.Canon s) : State.Canon (State.copyGranules s src dst a0).2 := by
  induction a0 generalizing s src dst with
  | zero =>
    unfold State.copyGranules
    try dsimp only
    repeat' (first | with_reducible assumption | intro _ | with_reducible apply State.storePoisoned_canon | with_reducible apply State.write_canon | with_reducible apply State.readIn_canon | with_reducible refine canon_snd (by with_reducible assumption) ?_ | with_reducible refine canon_snd2 (by with_reducible assumption) ?_ | with_reducible refine canon_snd3 (by with_reducible assumption) ?_ | with_reducible apply ite_canon | with_reducible apply ite_chOk | with_reducible apply ite_helOk | with_reducible apply ite_snd_canon | with_reducible apply ch_ok | with_reducible apply hel_ok | simp only [canon_mk, chOk_mk, helOk_mk] | split)
  | succ x ih =>
    unfold State.copyGranules
    try dsimp only
    repeat' (first | with_reducible assumption | intro _ | with_reducible apply ih | with_reducible apply State.storePoisoned_canon | with_reducible apply State.write_canon | with_reducible apply State.readIn_canon | with_reducible refine canon_snd (by with_reducible assumption) ?_ | with_reducible refine canon_snd2 (by with_reducible assumption) ?_ | with_reducible refine canon_snd3 (by with_reducible assumption) ?_ | with_reducible apply ite_canon | with_reducible apply ite_chOk | with_reducible apply ite_helOk | with_reducible apply ite_snd_canon | with_reducible apply ch_ok | with_reducible apply hel_ok | simp only [canon_mk, chOk_mk, helOk_mk] | split)

theorem State.ownWrites_canon (s : State) (job : Nat) (lo : Nat) (hs : State.Canon s) : State.Canon (State.ownWrites s job lo) := by
  unfold State.ownWrites
  try dsimp only
  repeat' (first | with_reducible assumption | intro _ | with_reducible apply State.endWork_canon | with_reducible apply ite_canon | with_reducible apply ite_chOk | with_reducible apply ite_helOk | with_reducible apply ite_snd_canon | with_reducible apply ch_ok | with_reducible apply hel_ok | simp only [canon_mk, chOk_mk, helOk_mk] | split)

theorem State.beginCuJob_canon (s : State) (unit : Nat) (ring : Option Nat) (token : Nat) (ws : List Nat) (hs : State.Canon s) : State.Canon (State.beginCuJob s unit ring token ws).2 := by
  unfold State.beginCuJob
  try dsimp only
  repeat' (first | with_reducible assumption | intro _ | with_reducible apply State.takeJob_canon | with_reducible apply ite_canon | with_reducible apply ite_chOk | with_reducible apply ite_helOk | with_reducible apply ite_snd_canon | with_reducible apply ch_ok | with_reducible apply hel_ok | simp only [canon_mk, chOk_mk, helOk_mk] | split)

theorem State.markPoison_canon (s : State) (job : Nat) (b : Bool) (hs : State.Canon s) : State.Canon (State.markPoison s job b) := by
  unfold State.markPoison
  try dsimp only
  repeat' (first | with_reducible assumption | with_reducible apply State.modCuJob_canon | with_reducible apply ite_canon | simp only [canon_mk, chOk_mk, helOk_mk] | intro _ | split)

theorem State.cuStarted_canon (s : State) (job : Nat) (hs : State.Canon s) : State.Canon (State.cuStarted s job) := by
  unfold State.cuStarted
  try dsimp only
  repeat' (first | with_reducible assumption | intro _ | with_reducible apply State.modCuJob_canon | with_reducible apply State.checkCuJob_canon | with_reducible apply ite_canon | with_reducible apply ite_chOk | with_reducible apply ite_helOk | with_reducible apply ite_snd_canon | with_reducible apply ch_ok | with_reducible apply hel_ok | simp only [canon_mk, chOk_mk, helOk_mk] | split)

theorem State.refuseCuJob_canon (s : State) (job : Nat) (status : Nat) (hs : State.Canon s) : State.Canon (State.refuseCuJob s job status) := by
  unfold State.refuseCuJob
  try dsimp only
  repeat' (first | with_reducible assumption | with_reducible apply State.endCuJob_canon | intro _ | split)

theorem State.groupNode_canon (s : State) (k : Nat) (i : Nat) (hs : State.Canon s) : State.Canon (State.groupNode s k i).2 := by
  unfold State.groupNode
  try dsimp only
  repeat' (first | with_reducible assumption | with_reducible apply State.read_canon)

theorem State.jobNode_canon (s : State) (ws : List Nat) (hs : State.Canon s) : State.Canon (State.jobNode s ws).2 := by
  unfold State.jobNode
  try dsimp only
  repeat' (first | with_reducible assumption | intro _ | with_reducible apply State.groupNode_canon | with_reducible apply ite_canon | with_reducible apply ite_chOk | with_reducible apply ite_helOk | with_reducible apply ite_snd_canon | with_reducible apply ch_ok | with_reducible apply hel_ok | simp only [canon_mk, chOk_mk, helOk_mk] | split)

theorem State.servingUnit_canon (s : State) (unit : Nat) (ws : List Nat) (hs : State.Canon s) : State.Canon (State.servingUnit s unit ws).2 := by
  unfold State.servingUnit
  try dsimp only
  repeat' (first | with_reducible assumption | intro _ | with_reducible apply State.jobNode_canon | with_reducible refine canon_snd (by with_reducible assumption) ?_ | with_reducible refine canon_snd2 (by with_reducible assumption) ?_ | with_reducible refine canon_snd3 (by with_reducible assumption) ?_ | with_reducible apply ite_canon | with_reducible apply ite_chOk | with_reducible apply ite_helOk | with_reducible apply ite_snd_canon | with_reducible apply ch_ok | with_reducible apply hel_ok | simp only [canon_mk, chOk_mk, helOk_mk] | split)

theorem State.runCuJob_canon (s : State) (unit : Nat) (op : Nat) (src : JobSrc) (room : State → List Nat → Bool) (f : State → Nat → Nat → List Nat → State) (hs : State.Canon s) (hf : ∀ x0 x1 x2 x3, State.Canon x0 → State.Canon (f x0 x1 x2 x3)) : State.Canon (State.runCuJob s unit op src room f) := by
  unfold State.runCuJob
  try dsimp only
  repeat' (first | with_reducible assumption | intro _ | with_reducible apply State.servingUnit_canon | with_reducible apply State.refuseCuJob_canon | with_reducible apply State.cuStarted_canon | with_reducible apply State.beginCuJob_canon | with_reducible apply State.modCuJob_canon | with_reducible refine State.cuFetch_canon (by with_reducible assumption) ?_ | with_reducible apply hf | with_reducible refine canon_snd (by with_reducible assumption) ?_ | with_reducible refine canon_snd2 (by with_reducible assumption) ?_ | with_reducible refine canon_snd3 (by with_reducible assumption) ?_ | with_reducible apply ite_canon | with_reducible apply ite_chOk | with_reducible apply ite_helOk | with_reducible apply ite_snd_canon | with_reducible apply ch_ok | with_reducible apply hel_ok | simp only [canon_mk, chOk_mk, helOk_mk] | split)

theorem State.putGrans_canon (s : State) (ws : List Nat) (hs : State.Canon s) : State.Canon (State.putGrans s ws).2 := by
  unfold State.putGrans
  try dsimp only
  repeat' (first | with_reducible assumption | with_reducible apply State.readRows_canon | with_reducible apply State.readGrans_canon | with_reducible apply ite_canon | intro _ | split)

theorem execPut_canon (unit : Fin 2) (src : JobSrc) (s : State) (hs : State.Canon s) : ∀ t, execPut unit src s = .next t → State.Canon t := by
  intro t ht
  unfold execPut at ht
  try dsimp only at ht
  injection ht with ht
  subst ht
  try dsimp only
  repeat' (first | with_reducible assumption | intro _ | with_reducible apply Hel.next_canon | with_reducible apply State.putGrans_canon | with_reducible apply State.runCuJob_canon | with_reducible apply State.markPoison_canon | with_reducible apply State.startWrite_canon | with_reducible apply State.write_canon | with_reducible refine canon_snd (by with_reducible assumption) ?_ | with_reducible refine canon_snd2 (by with_reducible assumption) ?_ | with_reducible refine canon_snd3 (by with_reducible assumption) ?_ | with_reducible apply ite_canon | with_reducible apply ite_chOk | with_reducible apply ite_helOk | with_reducible apply ite_snd_canon | with_reducible apply ch_ok | with_reducible apply hel_ok | simp only [canon_mk, chOk_mk, helOk_mk] | split)

theorem execGet_canon (unit : Fin 2) (src : JobSrc) (s : State) (hs : State.Canon s) : ∀ t, execGet unit src s = .next t → State.Canon t := by
  intro t ht
  unfold execGet at ht
  try dsimp only at ht
  injection ht with ht
  subst ht
  try dsimp only
  repeat' (first | with_reducible assumption | intro _ | with_reducible apply Hel.next_canon | with_reducible apply State.runCuJob_canon | with_reducible apply State.startRead_canon | with_reducible apply ite_canon | with_reducible apply ite_chOk | with_reducible apply ite_helOk | with_reducible apply ite_snd_canon | with_reducible apply ch_ok | with_reducible apply hel_ok | simp only [canon_mk, chOk_mk, helOk_mk] | split)

theorem State.gatherParts_canon (s : State) (unit : Nat) (id : Nat) (ws : List Nat) (a0 : Nat) (a1 : Nat) (hs : State.Canon s) : State.Canon (State.gatherParts s unit id ws a0 a1) := by
  induction a1 generalizing s unit id ws a0 with
  | zero =>
    unfold State.gatherParts
    try dsimp only
    repeat' (first | with_reducible assumption | intro _ | with_reducible apply State.groupNode_canon | with_reducible apply State.markPoison_canon | with_reducible apply State.ownWrites_canon | with_reducible apply State.copyGranules_canon | with_reducible apply State.startRead_canon | with_reducible refine canon_snd (by with_reducible assumption) ?_ | with_reducible refine canon_snd2 (by with_reducible assumption) ?_ | with_reducible refine canon_snd3 (by with_reducible assumption) ?_ | with_reducible apply ite_canon | with_reducible apply ite_chOk | with_reducible apply ite_helOk | with_reducible apply ite_snd_canon | with_reducible apply ch_ok | with_reducible apply hel_ok | simp only [canon_mk, chOk_mk, helOk_mk] | split)
  | succ x ih =>
    unfold State.gatherParts
    try dsimp only
    repeat' (first | with_reducible assumption | intro _ | with_reducible apply ih | with_reducible apply State.groupNode_canon | with_reducible apply State.markPoison_canon | with_reducible apply State.ownWrites_canon | with_reducible apply State.copyGranules_canon | with_reducible apply State.startRead_canon | with_reducible refine canon_snd (by with_reducible assumption) ?_ | with_reducible refine canon_snd2 (by with_reducible assumption) ?_ | with_reducible refine canon_snd3 (by with_reducible assumption) ?_ | with_reducible apply ite_canon | with_reducible apply ite_chOk | with_reducible apply ite_helOk | with_reducible apply ite_snd_canon | with_reducible apply ch_ok | with_reducible apply hel_ok | simp only [canon_mk, chOk_mk, helOk_mk] | split)

theorem execGather_canon (unit : Fin 2) (src : JobSrc) (s : State) (hs : State.Canon s) : ∀ t, execGather unit src s = .next t → State.Canon t := by
  intro t ht
  unfold execGather at ht
  try dsimp only at ht
  injection ht with ht
  subst ht
  try dsimp only
  repeat' (first | with_reducible assumption | intro _ | with_reducible apply Hel.next_canon | with_reducible apply State.gatherParts_canon | with_reducible apply State.runCuJob_canon | with_reducible apply ite_canon | with_reducible apply ite_chOk | with_reducible apply ite_helOk | with_reducible apply ite_snd_canon | with_reducible apply ch_ok | with_reducible apply hel_ok | simp only [canon_mk, chOk_mk, helOk_mk] | split)

theorem State.redRows_canon (s : State) (ws : List Nat) (c : Nat) (hs : State.Canon s) : State.Canon (State.redRows s ws c).2 := by
  unfold State.redRows
  try dsimp only
  repeat' (first | with_reducible assumption | intro _ | with_reducible apply State.read_canon | with_reducible refine canon_snd (by with_reducible assumption) ?_ | with_reducible refine canon_snd2 (by with_reducible assumption) ?_ | with_reducible refine canon_snd3 (by with_reducible assumption) ?_ | with_reducible apply ite_canon | with_reducible apply ite_chOk | with_reducible apply ite_helOk | with_reducible apply ite_snd_canon | with_reducible apply ch_ok | with_reducible apply hel_ok | simp only [canon_mk, chOk_mk, helOk_mk] | split)

theorem State.redOwn_canon (s : State) (ws : List Nat) (c : Nat) (hs : State.Canon s) : State.Canon (State.redOwn s ws c).2 := by
  unfold State.redOwn
  try dsimp only
  repeat' (first | with_reducible assumption | intro _ | with_reducible apply State.redRows_canon | with_reducible apply State.readRows_canon | with_reducible refine canon_snd (by with_reducible assumption) ?_ | with_reducible refine canon_snd2 (by with_reducible assumption) ?_ | with_reducible refine canon_snd3 (by with_reducible assumption) ?_ | with_reducible apply ite_canon | with_reducible apply ite_chOk | with_reducible apply ite_helOk | with_reducible apply ite_snd_canon | with_reducible apply ch_ok | with_reducible apply hel_ok | simp only [canon_mk, chOk_mk, helOk_mk] | split)

theorem State.redSend_canon (s : State) (unit : Nat) (r : RedJob) (c : Nat) (rows : List (List Lane × Bool)) (hs : State.Canon s) : State.Canon (State.redSend s unit r c rows) := by
  unfold State.redSend
  try dsimp only
  repeat' (first | with_reducible assumption | with_reducible apply State.groupNode_canon | with_reducible apply State.startWrite_canon | with_reducible apply State.write_canon | simp only [canon_mk, chOk_mk, helOk_mk])

theorem State.putRun_canon (s : State) (unit : Nat) (dtype : Nat) (a : Nat) (rows : List (List Lane × Bool)) (hs : State.Canon s) : State.Canon (State.putRun s unit dtype a rows) := by
  unfold State.putRun
  try dsimp only
  repeat' (first | with_reducible assumption | intro _ | with_reducible apply State.cuFlags_canon | with_reducible apply State.storePoisoned_canon | with_reducible apply State.writeLogged_canon | with_reducible apply ite_canon | with_reducible apply ite_chOk | with_reducible apply ite_helOk | with_reducible apply ite_snd_canon | with_reducible apply foldl_canon | with_reducible apply foldl_memwf | with_reducible apply ch_ok | with_reducible apply hel_ok | simp only [canon_mk, chOk_mk, helOk_mk] | split)

theorem State.redFinish_canon (s : State) (unit : Nat) (r : RedJob) (rows : List (List Lane × Bool)) (hs : State.Canon s) : State.Canon (State.redFinish s unit r rows) := by
  unfold State.redFinish
  try dsimp only
  repeat' (first | with_reducible assumption | intro _ | with_reducible apply State.putRun_canon | with_reducible apply State.redRows_canon | with_reducible apply State.ownWrites_canon | with_reducible apply State.startWrite_canon | with_reducible apply State.write_canon | with_reducible refine canon_snd (by with_reducible assumption) ?_ | with_reducible refine canon_snd2 (by with_reducible assumption) ?_ | with_reducible refine canon_snd3 (by with_reducible assumption) ?_ | with_reducible apply ite_canon | with_reducible apply ite_chOk | with_reducible apply ite_helOk | with_reducible apply ite_snd_canon | with_reducible apply foldl_canon | with_reducible apply foldl_memwf | with_reducible apply ch_ok | with_reducible apply hel_ok | simp only [canon_mk, chOk_mk, helOk_mk] | split)

theorem State.redStep_canon (s : State) (unit : Nat) (r : RedJob) (gs : List (List Byte × Bool)) (hs : State.Canon s) : State.Canon (State.redStep s unit r gs) := by
  unfold State.redStep
  try dsimp only
  repeat' (first | with_reducible assumption | intro _ | with_reducible apply State.redFinish_canon | with_reducible apply State.redSend_canon | with_reducible apply State.redOwn_canon | with_reducible apply State.markPoison_canon | with_reducible apply State.cuFlags_canon | with_reducible refine canon_snd (by with_reducible assumption) ?_ | with_reducible refine canon_snd2 (by with_reducible assumption) ?_ | with_reducible refine canon_snd3 (by with_reducible assumption) ?_ | with_reducible apply ite_canon | with_reducible apply ite_chOk | with_reducible apply ite_helOk | with_reducible apply ite_snd_canon | with_reducible apply foldl_canon | with_reducible apply foldl_memwf | with_reducible apply ch_ok | with_reducible apply hel_ok | simp only [canon_mk, chOk_mk, helOk_mk] | split)

theorem State.redDrain_canon (s : State) (unit : Nat) (opid : Nat) (a0 : Nat) (hs : State.Canon s) : State.Canon (State.redDrain s unit opid a0) := by
  induction a0 generalizing s unit opid with
  | zero =>
    unfold State.redDrain
    try dsimp only
    repeat' (first | with_reducible assumption | intro _ | with_reducible apply State.redStep_canon | with_reducible apply State.redRows_canon | with_reducible apply State.dropRx_canon | with_reducible apply State.checkCuJob_canon | with_reducible refine canon_snd (by with_reducible assumption) ?_ | with_reducible refine canon_snd2 (by with_reducible assumption) ?_ | with_reducible refine canon_snd3 (by with_reducible assumption) ?_ | with_reducible apply ite_canon | with_reducible apply ite_chOk | with_reducible apply ite_helOk | with_reducible apply ite_snd_canon | with_reducible apply ch_ok | with_reducible apply hel_ok | simp only [canon_mk, chOk_mk, helOk_mk] | split)
  | succ x ih =>
    unfold State.redDrain
    try dsimp only
    repeat' (first | with_reducible assumption | intro _ | with_reducible apply ih | with_reducible apply State.redStep_canon | with_reducible apply State.redRows_canon | with_reducible apply State.dropRx_canon | with_reducible apply State.checkCuJob_canon | with_reducible refine canon_snd (by with_reducible assumption) ?_ | with_reducible refine canon_snd2 (by with_reducible assumption) ?_ | with_reducible refine canon_snd3 (by with_reducible assumption) ?_ | with_reducible apply ite_canon | with_reducible apply ite_chOk | with_reducible apply ite_helOk | with_reducible apply ite_snd_canon | with_reducible apply ch_ok | with_reducible apply hel_ok | simp only [canon_mk, chOk_mk, helOk_mk] | split)

theorem State.deliverRing_canon (s : State) (unit : Nat) (k : Packet) (hs : State.Canon s) : State.Canon (State.deliverRing s unit k) := by
  unfold State.deliverRing
  try dsimp only
  repeat' (first | with_reducible assumption | intro _ | with_reducible apply State.redDrain_canon | with_reducible apply State.replyDone_canon | with_reducible apply State.setRx_canon | with_reducible apply ite_canon | with_reducible apply ite_chOk | with_reducible apply ite_helOk | with_reducible apply ite_snd_canon | with_reducible apply ch_ok | with_reducible apply hel_ok | simp only [canon_mk, chOk_mk, helOk_mk] | split)

theorem execRedscat_canon (unit : Fin 2) (src : JobSrc) (opid : BitVec 32) (s : State) (hs : State.Canon s) : ∀ t, execRedscat unit src opid s = .next t → State.Canon t := by
  intro t ht
  unfold execRedscat at ht
  try dsimp only at ht
  injection ht with ht
  subst ht
  try dsimp only
  repeat' (first | with_reducible assumption | intro _ | with_reducible apply Hel.next_canon | with_reducible apply State.redDrain_canon | with_reducible apply State.redFinish_canon | with_reducible apply State.redSend_canon | with_reducible apply State.redOwn_canon | with_reducible apply State.runCuJob_canon | with_reducible apply State.markPoison_canon | with_reducible refine canon_snd (by with_reducible assumption) ?_ | with_reducible refine canon_snd2 (by with_reducible assumption) ?_ | with_reducible refine canon_snd3 (by with_reducible assumption) ?_ | with_reducible apply ite_canon | with_reducible apply ite_chOk | with_reducible apply ite_helOk | with_reducible apply ite_snd_canon | with_reducible apply ch_ok | with_reducible apply hel_ok | simp only [canon_mk, chOk_mk, helOk_mk] | split)

theorem execLinkWrite_canon (port : Fin 8) (k : InPacket) (s : State) (hs : State.Canon s) : ∀ t, execLinkWrite port k s = .next t → State.Canon t := by
  intro t ht
  unfold execLinkWrite at ht
  try dsimp only at ht
  injection ht with ht
  subst ht
  try dsimp only
  repeat' (first | with_reducible assumption | intro _ | with_reducible apply Hel.next_canon | with_reducible apply State.deliverRing_canon | with_reducible apply State.consume_canon | with_reducible apply State.deliverWrite_canon | with_reducible apply State.write_canon | with_reducible apply ite_canon | with_reducible apply ite_chOk | with_reducible apply ite_helOk | with_reducible apply ite_snd_canon | with_reducible apply ch_ok | with_reducible apply hel_ok | simp only [canon_mk, chOk_mk, helOk_mk] | split)

theorem execLinkReadResp_canon (port : Fin 8) (k : InPacket) (s : State) (hs : State.Canon s) : ∀ t, execLinkReadResp port k s = .next t → State.Canon t := by
  intro t ht
  unfold execLinkReadResp at ht
  try dsimp only at ht
  injection ht with ht
  subst ht
  try dsimp only
  repeat' (first | with_reducible assumption | intro _ | with_reducible apply Hel.next_canon | with_reducible apply State.startTransfers_canon | with_reducible apply State.consume_canon | with_reducible apply State.deliverResp_canon | with_reducible apply ite_canon | with_reducible apply ite_chOk | with_reducible apply ite_helOk | with_reducible apply ite_snd_canon | with_reducible apply ch_ok | with_reducible apply hel_ok | simp only [canon_mk, chOk_mk, helOk_mk] | split)

theorem execLinkDone_canon (port : Fin 8) (k : InPacket) (s : State) (hs : State.Canon s) : ∀ t, execLinkDone port k s = .next t → State.Canon t := by
  intro t ht
  unfold execLinkDone at ht
  try dsimp only at ht
  injection ht with ht
  subst ht
  try dsimp only
  repeat' (first | with_reducible assumption | intro _ | with_reducible apply Hel.next_canon | with_reducible apply State.startTransfers_canon | with_reducible apply State.consume_canon | with_reducible apply State.endTx_canon | with_reducible apply ite_canon | with_reducible apply ite_chOk | with_reducible apply ite_helOk | with_reducible apply ite_snd_canon | with_reducible apply ch_ok | with_reducible apply hel_ok | simp only [canon_mk, chOk_mk, helOk_mk] | split)

theorem State.cuEnable_canon (u : Nat) (s : State) (hs : State.Canon s) : State.Canon (State.cuEnable u s) := by
  unfold State.cuEnable
  try dsimp only
  repeat' (first | with_reducible assumption | intro _ | with_reducible apply State.enableRing_canon | with_reducible apply State.put_canon | with_reducible apply ite_canon | with_reducible apply ite_chOk | with_reducible apply ite_helOk | with_reducible apply ite_snd_canon | with_reducible apply ch_ok | with_reducible apply hel_ok | simp only [canon_mk, chOk_mk, helOk_mk] | split)

theorem execCuEnable_canon (unit : Fin 2) (s : State) (hs : State.Canon s) : ∀ t, execCuEnable unit s = .next t → State.Canon t := by
  intro t ht
  unfold execCuEnable at ht
  try dsimp only at ht
  injection ht with ht
  subst ht
  try dsimp only
  repeat' (first | with_reducible assumption | intro _ | with_reducible apply Hel.next_canon | with_reducible apply State.cuEnable_canon | with_reducible apply State.hostRaises_canon | with_reducible apply ite_canon | with_reducible apply ite_chOk | with_reducible apply ite_helOk | with_reducible apply ite_snd_canon | with_reducible apply ch_ok | with_reducible apply hel_ok | simp only [canon_mk, chOk_mk, helOk_mk] | split)

theorem execDispatch_canon (unit : Fin 2) (src : JobSrc) (s : State) (hs : State.Canon s) : ∀ t, execDispatch unit src s = .next t → State.Canon t := by
  intro t ht
  unfold execDispatch at ht
  try dsimp only at ht
  injection ht with ht
  subst ht
  try dsimp only
  repeat' (first | with_reducible assumption | intro _ | with_reducible apply Hel.next_canon | with_reducible apply State.refuseCuJob_canon | with_reducible apply State.cuStarted_canon | with_reducible apply State.markPoison_canon | with_reducible apply State.beginCuJob_canon | with_reducible apply State.startWrite_canon | with_reducible apply State.readRows_canon | with_reducible apply State.send_canon | with_reducible apply State.write_canon | with_reducible refine State.cuFetch_canon (by with_reducible assumption) ?_ | with_reducible refine canon_snd (by with_reducible assumption) ?_ | with_reducible refine canon_snd2 (by with_reducible assumption) ?_ | with_reducible refine canon_snd3 (by with_reducible assumption) ?_ | with_reducible apply ite_canon | with_reducible apply ite_chOk | with_reducible apply ite_helOk | with_reducible apply ite_snd_canon | with_reducible apply ch_ok | with_reducible apply hel_ok | simp only [canon_mk, chOk_mk, helOk_mk] | split)

end Sys2Proof.Machine
end

