-- ==== Sys2Proof/Laws/KeepHelictite.lean ====
section
/-! SUPPORT. Every operation of these modules keeps the memories canonical: Helictite, HelScalar, HelVector, Flowstone. -/

namespace Sys2Proof.Machine

open Sys2Proof

/-! ## Helictite -/

theorem Hel.setX_canon (h : Hel) (i : BitVec 4) (v : Word) (hh : h.Ok) : (Hel.setX h i v).Ok := by
  unfold Hel.setX
  try dsimp only
  repeat' (first | with_reducible assumption | simp only [chOk_mk, helOk_mk] | split)

theorem Hel.setV_canon (h : Hel) (i : BitVec 4) (v : HLanes) (hh : h.Ok) : (Hel.setV h i v).Ok := by
  unfold Hel.setV
  try dsimp only
  repeat' (first | with_reducible assumption | simp only [chOk_mk, helOk_mk])

theorem Hel.next_canon (h : Hel) (hh : h.Ok) : (Hel.next h).Ok := by
  unfold Hel.next
  try dsimp only
  repeat' (first | with_reducible assumption | simp only [chOk_mk, helOk_mk])

theorem State.releaseClaim_canon (s : State) (n : Nat) (hs : State.Canon s) : State.Canon (State.releaseClaim s n) := by
  unfold State.releaseClaim
  try dsimp only
  repeat' (first | with_reducible assumption | with_reducible apply State.refreshBanks_canon | simp only [canon_mk, chOk_mk, helOk_mk] | intro _ | split)

theorem State.rowBoundary_canon (s : State) (n : Nat) (hs : State.Canon s) : State.Canon (State.rowBoundary s n) := by
  unfold State.rowBoundary
  try dsimp only
  repeat' (first | with_reducible assumption | intro _ | with_reducible apply State.boundaryIn_canon | with_reducible refine canon_snd (by with_reducible assumption) ?_ | with_reducible refine canon_snd2 (by with_reducible assumption) ?_ | with_reducible refine canon_snd3 (by with_reducible assumption) ?_ | with_reducible apply ite_canon | with_reducible apply ite_chOk | with_reducible apply ite_helOk | with_reducible apply ite_snd_canon | with_reducible apply ch_ok | with_reducible apply hel_ok | simp only [canon_mk, chOk_mk, helOk_mk] | split)

theorem State.askClaim_canon (s : State) (c : Claim) (hs : State.Canon s) : State.Canon (State.askClaim s c) := by
  unfold State.askClaim
  try dsimp only
  repeat' (first | with_reducible assumption | with_reducible apply State.sendBi_canon | with_reducible apply State.count_canon | intro _)

theorem State.endHel_canon (s : State) (n : Nat) (status : Nat) (code : Nat) (poisonAt : Nat) (hs : State.Canon s) : State.Canon (State.endHel s n status code poisonAt) := by
  unfold State.endHel
  try dsimp only
  repeat' (first | with_reducible assumption | with_reducible apply State.releaseClaim_canon | with_reducible apply State.poisonAt_canon | with_reducible apply ite_canon | with_reducible apply setHel_ok | with_reducible apply hel_ok | simp only [canon_mk, chOk_mk, helOk_mk] | intro _ | split)

theorem State.helFault_canon (s : State) (n : Nat) (hs : State.Canon s) : State.Canon (State.helFault s n) := by
  unfold State.helFault
  try dsimp only
  repeat' (first | with_reducible assumption | with_reducible apply State.endHel_canon)

theorem State.helAt_canon (s : State) (n : Nat) (op : BitVec 8) (o : HOps) (t : State) (hs : State.Canon s) (ht : State.Canon t) : State.Canon (State.helAt s n op o t) := by
  unfold State.helAt
  try dsimp only
  repeat' (first | with_reducible assumption | intro _ | with_reducible apply State.helFault_canon | with_reducible apply ite_canon | with_reducible apply ite_chOk | with_reducible apply ite_helOk | with_reducible apply ite_snd_canon | with_reducible apply ch_ok | with_reducible apply hel_ok | simp only [canon_mk, chOk_mk, helOk_mk] | split)

theorem State.helDo_canon (s : State) (n : Nat) (f : Hel → State) (hf : ∀ x0, x0.Ok → State.Canon (f x0)) (hs : State.Canon s) : State.Canon (State.helDo s n f) := by
  unfold State.helDo
  try dsimp only
  repeat' (first | with_reducible assumption | intro _ | with_reducible apply ite_canon | with_reducible apply ite_snd_canon | with_reducible apply ite_snd2_canon | with_reducible apply ite_snd3_canon | with_reducible apply foldl_canon | with_reducible apply modCh_ok | with_reducible apply setCh_ok | with_reducible apply setHel_ok | with_reducible apply ch_ok | with_reducible apply hel_ok | with_reducible apply ite_chOk | with_reducible apply ite_helOk | with_reducible exact chReset_ok | with_reducible exact helReset_ok | simp only [canon_mk, chOk_mk, helOk_mk] | with_reducible apply hf | split | with_reducible refine canon_snd (by with_reducible assumption) ?_ | with_reducible refine canon_snd2 (by with_reducible assumption) ?_ | with_reducible refine canon_snd3 (by with_reducible assumption) ?_ | with_reducible refine canon_fst (by with_reducible assumption) ?_ | with_reducible apply chOk_lit | with_reducible apply helOk_lit | with_reducible apply memWrite_wf | with_reducible apply memSet_wf | with_reducible apply memClear_wf | with_reducible apply localPut_wf | with_reducible apply foldl_memwf | with_reducible apply lmem_wf | with_reducible apply bmem_wf | with_reducible apply scratch_wf)

theorem State.helReg_canon (s : State) (n : Nat) (f : Hel → Hel) (hf : ∀ x0, x0.Ok → (f x0).Ok) (hs : State.Canon s) : State.Canon (State.helReg s n f) := by
  unfold State.helReg
  try dsimp only
  repeat' (first | with_reducible assumption | with_reducible apply State.helDo_canon | with_reducible apply Hel.next_canon | with_reducible apply hf | with_reducible apply setHel_ok | with_reducible apply hel_ok | intro _)

theorem State.helBranch_canon (s : State) (n : Nat) (o : HOps) (f : Hel → Bool × Hel) (hf : ∀ x0, x0.Ok → (f x0).2.Ok) (hs : State.Canon s) : State.Canon (State.helBranch s n o f) := by
  unfold State.helBranch
  try dsimp only
  repeat' (first | with_reducible assumption | with_reducible apply State.helDo_canon | with_reducible apply Hel.next_canon | with_reducible apply hf | with_reducible apply ite_canon | with_reducible apply setHel_ok | with_reducible apply hel_ok | simp only [canon_mk, chOk_mk, helOk_mk] | intro _ | split)

theorem Hel.lanes_canon (h : Hel) (d : BitVec 4) (f : Nat → Lane × Flags) (hh : h.Ok) : (Hel.lanes h d f).Ok := by
  unfold Hel.lanes
  try dsimp only
  repeat' (first | with_reducible assumption | with_reducible apply Hel.setV_canon | with_reducible apply Chamber.setV_canon | simp only [chOk_mk, helOk_mk])

theorem State.helVec_canon (s : State) (n : Nat) (o : HOps) (f : Hel → Nat → Lane × Flags) (hs : State.Canon s) : State.Canon (State.helVec s n o f) := by
  unfold State.helVec
  try dsimp only
  repeat' (first | with_reducible assumption | with_reducible apply Hel.lanes_canon | with_reducible apply State.helReg_canon | intro _)

theorem Hel.reduce_canon (h : Hel) (o : HOps) (op : Lane → Lane → Lane × Flags) (hh : h.Ok) : (Hel.reduce h o op).Ok := by
  unfold Hel.reduce
  try dsimp only
  repeat' (first | with_reducible assumption | with_reducible apply Hel.setV_canon | with_reducible apply Chamber.setV_canon | simp only [chOk_mk, helOk_mk] | split)

theorem State.helScratch_canon (s : State) (n : Nat) (o : HOps) (k : Nat) (store : Bool) (f : Hel → Nat → Hel) (hf : ∀ x0 x1, x0.Ok → (f x0 x1).Ok) (hs : State.Canon s) : State.Canon (State.helScratch s n o k store f) := by
  unfold State.helScratch
  try dsimp only
  repeat' (first | with_reducible assumption | with_reducible apply State.helDo_canon | with_reducible apply State.helFault_canon | with_reducible apply Hel.next_canon | with_reducible apply State.write_canon | with_reducible apply hf | with_reducible apply ite_canon | with_reducible apply setHel_ok | with_reducible apply hel_ok | intro _ | split)

theorem State.helStart_canon (s : State) (n : Nat) (o : HOps) (write : Bool) (hs : State.Canon s) : State.Canon (State.helStart s n o write) := by
  unfold State.helStart
  try dsimp only
  repeat' (first | with_reducible assumption | intro _ | with_reducible apply State.helDo_canon | with_reducible apply State.helFault_canon | with_reducible apply Hel.next_canon | with_reducible apply State.write_canon | with_reducible apply State.count_canon | with_reducible apply ite_canon | with_reducible apply ite_chOk | with_reducible apply ite_helOk | with_reducible apply ite_snd_canon | with_reducible apply ch_ok | with_reducible apply setHel_ok | with_reducible apply hel_ok | simp only [canon_mk, chOk_mk, helOk_mk] | split)

theorem Hel.dropOp_canon (h : Hel) (p : HelOp) (hh : h.Ok) : (Hel.dropOp h p).Ok := by
  unfold Hel.dropOp
  try dsimp only
  repeat' (first | with_reducible assumption | simp only [chOk_mk, helOk_mk])

theorem State.helOwn_canon (s : State) (n : Nat) (f : Nat) (c : Claim) (hs : State.Canon s) : State.Canon (State.helOwn s n f c).2 := by
  unfold State.helOwn
  try dsimp only
  repeat' (first | with_reducible assumption | intro _ | with_reducible apply State.askClaim_canon | with_reducible apply State.rowBoundary_canon | with_reducible apply State.boundaryIn_canon | with_reducible apply State.modClaim_canon | with_reducible apply ite_canon | with_reducible apply ite_chOk | with_reducible apply ite_helOk | with_reducible apply ite_snd_canon | with_reducible apply ch_ok | with_reducible apply hel_ok | simp only [canon_mk, chOk_mk, helOk_mk] | split)

theorem State.helEnter_canon (s : State) (n : Nat) (a : Nat) (hs : State.Canon s) : State.Canon (State.helEnter s n a).2 := by
  unfold State.helEnter
  try dsimp only
  repeat' (first | with_reducible assumption | intro _ | with_reducible apply State.helOwn_canon | with_reducible apply State.noteWaiting_canon | with_reducible refine canon_snd (by with_reducible assumption) ?_ | with_reducible refine canon_snd2 (by with_reducible assumption) ?_ | with_reducible refine canon_snd3 (by with_reducible assumption) ?_ | with_reducible apply ite_canon | with_reducible apply ite_chOk | with_reducible apply ite_helOk | with_reducible apply ite_snd_canon | with_reducible apply ch_ok | with_reducible apply hel_ok | simp only [canon_mk, chOk_mk, helOk_mk] | split)

theorem State.helRead_canon (s : State) (n : Nat) (slot : Nat) (hs : State.Canon s) : State.Canon (State.helRead s n slot) := by
  unfold State.helRead
  try dsimp only
  repeat' (first | with_reducible assumption | intro _ | with_reducible apply State.helEnter_canon | with_reducible apply Hel.dropOp_canon | with_reducible apply State.endHel_canon | with_reducible apply State.readAs_canon | with_reducible refine canon_snd (by with_reducible assumption) ?_ | with_reducible refine canon_snd2 (by with_reducible assumption) ?_ | with_reducible refine canon_snd3 (by with_reducible assumption) ?_ | with_reducible apply ite_canon | with_reducible apply ite_chOk | with_reducible apply ite_helOk | with_reducible apply ite_snd_canon | with_reducible apply ch_ok | with_reducible apply setHel_ok | with_reducible apply hel_ok | with_reducible apply memWrite_wf | with_reducible apply lmem_wf | with_reducible apply bmem_wf | with_reducible apply scratch_wf | with_reducible apply mem_wf | with_reducible apply canon_lit | simp only [canon_mk, chOk_mk, helOk_mk] | with_reducible apply chOk_lit | with_reducible apply helOk_lit | split)

theorem State.helWrite_canon (s : State) (n : Nat) (slot : Nat) (hs : State.Canon s) : State.Canon (State.helWrite s n slot) := by
  unfold State.helWrite
  try dsimp only
  repeat' (first | with_reducible assumption | intro _ | with_reducible apply State.helEnter_canon | with_reducible apply Hel.dropOp_canon | with_reducible apply State.askLines_canon | with_reducible apply State.gotFrame_canon | with_reducible apply State.waitFrame_canon | with_reducible apply State.writeIn_canon | with_reducible refine canon_snd (by with_reducible assumption) ?_ | with_reducible refine canon_snd2 (by with_reducible assumption) ?_ | with_reducible refine canon_snd3 (by with_reducible assumption) ?_ | with_reducible apply ite_canon | with_reducible apply ite_chOk | with_reducible apply ite_helOk | with_reducible apply ite_snd_canon | with_reducible apply ch_ok | with_reducible apply setHel_ok | with_reducible apply hel_ok | with_reducible apply lmem_wf | with_reducible apply bmem_wf | with_reducible apply scratch_wf | with_reducible apply mem_wf | with_reducible apply canon_lit | simp only [canon_mk, chOk_mk, helOk_mk] | with_reducible apply chOk_lit | with_reducible apply helOk_lit | split)

theorem State.hlcImage_canon (s : State) (a : Nat) (ninstr : Nat) (hs : State.Canon s) : State.Canon (State.hlcImage s a ninstr).2.2.2.2 := by
  unfold State.hlcImage
  try dsimp only
  repeat' (first | with_reducible assumption | with_reducible apply State.read_canon | intro _)

theorem Hel.start_canon (h : Hel) (n : Nat) (id : Nat) (prog : List Word) (args : List Word) (hh : h.Ok) : (Hel.start h n id prog args).Ok := by
  unfold Hel.start
  try dsimp only
  repeat' (first | with_reducible assumption | simp only [chOk_mk, helOk_mk] | split)

theorem State.endHlcJob_canon (s : State) (j : HlcJob) (status : Nat) (f : Flags) (hs : State.Canon s) : State.Canon (State.endHlcJob s j status f) := by
  unfold State.endHlcJob
  try dsimp only
  repeat' (first | with_reducible assumption | intro _ | with_reducible apply State.poisonAt_canon | with_reducible apply State.writeLogged_canon | with_reducible apply State.endWork_canon | with_reducible apply State.postSig_canon | with_reducible apply State.logErr_canon | with_reducible apply State.puts_canon | with_reducible apply State.count_canon | with_reducible apply State.put_canon | with_reducible refine canon_snd (by with_reducible assumption) ?_ | with_reducible refine canon_snd2 (by with_reducible assumption) ?_ | with_reducible refine canon_snd3 (by with_reducible assumption) ?_ | with_reducible apply ite_canon | with_reducible apply ite_chOk | with_reducible apply ite_helOk | with_reducible apply ite_snd_canon | with_reducible apply ch_ok | with_reducible apply hel_ok | simp only [canon_mk, chOk_mk, helOk_mk] | split)

theorem State.hlcFetch_ok {s : State} {src : JobSrc} : ∀ r, s.hlcFetch src = some r → State.Canon s → State.Canon r.2.2.2.2.2 := by
  intro r he hs
  unfold State.hlcFetch at he
  split at he
  · split at he
    · cases he
    · split at he
      · obtain rfl := Option.some.inj he
        exact hs
      · cases he
  · generalize (s.ring 2).taken = j at he
    dsimp only at he
    split at he
    · generalize ringAddr (s.get Reg.HLC_RING_BASE) (s.get Reg.HLC_RING_ENTRIES_M1) 64 j = a at he
      have hr : State.Canon (s.read a 64).2.2 := State.read_canon _ _ _ hs
      obtain rfl := Option.some.inj he
      exact State.takeJob_canon _ _ hr
    · cases he

theorem State.hlcFetch_canon {s t : State} {src : JobSrc} {a : List Nat} {b : Option Nat} {c j : Nat} {d : Bool}
    (he : s.hlcFetch src = some (a, b, c, j, d, t)) (hs : State.Canon s) : State.Canon t := State.hlcFetch_ok _ he hs

theorem execHelictiteJobStart_canon (src : JobSrc) (s : State) (hs : State.Canon s) : ∀ t, execHelictiteJobStart src s = .next t → State.Canon t := by
  intro t ht
  unfold execHelictiteJobStart at ht
  injection ht with ht
  subst ht
  try dsimp only
  repeat' (first | with_reducible assumption | intro _ | with_reducible apply ite_canon | with_reducible apply State.endHlcJob_canon | with_reducible apply Hel.start_canon | with_reducible apply State.hlcImage_canon | with_reducible apply Hel.next_canon | with_reducible apply State.poisonAt_canon | with_reducible refine State.hlcFetch_canon (by with_reducible assumption) ?_ | with_reducible apply ite_snd_canon | with_reducible apply ite_snd2_canon | with_reducible apply ite_snd3_canon | with_reducible apply foldl_canon | with_reducible apply modCh_ok | with_reducible apply setCh_ok | with_reducible apply setHel_ok | with_reducible apply ch_ok | with_reducible apply hel_ok | with_reducible apply ite_chOk | with_reducible apply ite_helOk | with_reducible exact chReset_ok | with_reducible exact helReset_ok | simp only [canon_mk, chOk_mk, helOk_mk] | split | with_reducible refine canon_snd (by with_reducible assumption) ?_ | with_reducible refine canon_snd2 (by with_reducible assumption) ?_ | with_reducible refine canon_snd3 (by with_reducible assumption) ?_ | with_reducible refine canon_fst (by with_reducible assumption) ?_ | with_reducible apply chOk_lit | with_reducible apply helOk_lit | with_reducible apply memWrite_wf | with_reducible apply memSet_wf | with_reducible apply memClear_wf | with_reducible apply localPut_wf | with_reducible apply foldl_memwf | with_reducible apply lmem_wf | with_reducible apply bmem_wf | with_reducible apply scratch_wf)

theorem execHelictiteJobEnd_canon (k : BitVec 11) (s : State) (hs : State.Canon s) : ∀ t, execHelictiteJobEnd k s = .next t → State.Canon t := by
  intro t ht
  unfold execHelictiteJobEnd at ht
  injection ht with ht
  subst ht
  try dsimp only
  repeat' (first | with_reducible assumption | intro _ | with_reducible apply ite_canon | with_reducible apply State.endHlcJob_canon | with_reducible apply Hel.next_canon | with_reducible apply ite_snd_canon | with_reducible apply ite_snd2_canon | with_reducible apply ite_snd3_canon | with_reducible apply foldl_canon | with_reducible apply modCh_ok | with_reducible apply setCh_ok | with_reducible apply setHel_ok | with_reducible apply ch_ok | with_reducible apply hel_ok | with_reducible apply ite_chOk | with_reducible apply ite_helOk | with_reducible exact chReset_ok | with_reducible exact helReset_ok | simp only [canon_mk, chOk_mk, helOk_mk] | split | with_reducible refine canon_snd (by with_reducible assumption) ?_ | with_reducible refine canon_snd2 (by with_reducible assumption) ?_ | with_reducible refine canon_snd3 (by with_reducible assumption) ?_ | with_reducible refine canon_fst (by with_reducible assumption) ?_ | with_reducible apply chOk_lit | with_reducible apply helOk_lit | with_reducible apply memWrite_wf | with_reducible apply memSet_wf | with_reducible apply memClear_wf | with_reducible apply localPut_wf | with_reducible apply foldl_memwf | with_reducible apply lmem_wf | with_reducible apply bmem_wf | with_reducible apply scratch_wf)

theorem State.hlcEnable_canon (s : State) (hs : State.Canon s) : State.Canon (State.hlcEnable s) := by
  unfold State.hlcEnable
  try dsimp only
  repeat' (first | with_reducible assumption | intro _ | with_reducible apply State.enableRing_canon | with_reducible apply State.puts_canon | with_reducible apply ite_canon | with_reducible apply ite_chOk | with_reducible apply ite_helOk | with_reducible apply ite_snd_canon | with_reducible apply ch_ok | with_reducible apply hel_ok | simp only [canon_mk, chOk_mk, helOk_mk] | split)

theorem execHlcEnable_canon (s : State) (hs : State.Canon s) : ∀ t, execHlcEnable s = .next t → State.Canon t := by
  intro t ht
  unfold execHlcEnable at ht
  try dsimp only at ht
  injection ht with ht
  subst ht
  try dsimp only
  repeat' (first | with_reducible assumption | intro _ | with_reducible apply State.hlcEnable_canon | with_reducible apply Hel.next_canon | with_reducible apply State.hostRaises_canon | with_reducible apply ite_canon | with_reducible apply ite_chOk | with_reducible apply ite_helOk | with_reducible apply ite_snd_canon | with_reducible apply ch_ok | with_reducible apply hel_ok | simp only [canon_mk, chOk_mk, helOk_mk] | split)

theorem execHlcDisable_canon (s : State) (hs : State.Canon s) : ∀ t, execHlcDisable s = .next t → State.Canon t := by
  intro t ht
  unfold execHlcDisable at ht
  try dsimp only at ht
  injection ht with ht
  subst ht
  try dsimp only
  repeat' (first | with_reducible assumption | intro _ | with_reducible apply Hel.next_canon | with_reducible apply State.hostClears_canon | with_reducible apply ite_canon | with_reducible apply ite_chOk | with_reducible apply ite_helOk | with_reducible apply ite_snd_canon | with_reducible apply ch_ok | with_reducible apply hel_ok | simp only [canon_mk, chOk_mk, helOk_mk] | split)

theorem execHRgComplete_canon (hel : Fin 1152) (slot : Fin 8) (s : State) (hs : State.Canon s) : ∀ t, execHRgComplete hel slot s = .next t → State.Canon t := by
  intro t ht
  unfold execHRgComplete at ht
  injection ht with ht
  subst ht
  try dsimp only
  repeat' (first | with_reducible assumption | with_reducible apply State.helRead_canon | with_reducible apply Hel.next_canon)

theorem execHWgComplete_canon (hel : Fin 1152) (slot : Fin 8) (s : State) (hs : State.Canon s) : ∀ t, execHWgComplete hel slot s = .next t → State.Canon t := by
  intro t ht
  unfold execHWgComplete at ht
  injection ht with ht
  subst ht
  try dsimp only
  repeat' (first | with_reducible assumption | with_reducible apply State.helWrite_canon | with_reducible apply Hel.next_canon)

theorem execClaimEffect_canon (hel : Fin 1152) (s : State) (hs : State.Canon s) : ∀ t, execClaimEffect hel s = .next t → State.Canon t := by
  intro t ht
  unfold execClaimEffect at ht
  injection ht with ht
  subst ht
  try dsimp only
  repeat' (first | with_reducible assumption | with_reducible apply State.askClaim_canon | with_reducible apply State.modClaim_canon | with_reducible apply Hel.next_canon | with_reducible apply ite_canon | simp only [canon_mk, chOk_mk, helOk_mk] | intro _ | split)

theorem execForcedRowBoundary_canon (hel : Fin 1152) (s : State) (hs : State.Canon s) : ∀ t, execForcedRowBoundary hel s = .next t → State.Canon t := by
  intro t ht
  unfold execForcedRowBoundary at ht
  try dsimp only at ht
  injection ht with ht
  subst ht
  try dsimp only
  repeat' (first | with_reducible assumption | intro _ | with_reducible apply Hel.next_canon | with_reducible apply State.forceBank_canon | with_reducible refine canon_snd (by with_reducible assumption) ?_ | with_reducible refine canon_snd2 (by with_reducible assumption) ?_ | with_reducible refine canon_snd3 (by with_reducible assumption) ?_ | with_reducible apply ite_canon | with_reducible apply ite_chOk | with_reducible apply ite_helOk | with_reducible apply ite_snd_canon | with_reducible apply foldl_canon | with_reducible apply foldl_memwf | with_reducible apply ch_ok | with_reducible apply hel_ok | simp only [canon_mk, chOk_mk, helOk_mk] | split)

theorem execHXrecvTimeout_canon (hel : Fin 1152) (s : State) (hs : State.Canon s) : ∀ t, execHXrecvTimeout hel s = .next t → State.Canon t := by
  intro t ht
  unfold execHXrecvTimeout at ht
  injection ht with ht
  subst ht
  try dsimp only
  repeat' (first | with_reducible assumption | with_reducible apply State.helFault_canon | with_reducible apply Hel.next_canon | with_reducible apply ite_canon | split)

/-! ## HelScalar -/

theorem execHNop_canon (hel : Fin 1152) (o : HOps) (s : State) (hs : State.Canon s) : ∀ t, execHNop hel o s = .next t → State.Canon t := by
  intro t ht
  unfold execHNop at ht
  try dsimp only at ht
  injection ht with ht
  subst ht
  try dsimp only
  repeat' (first | with_reducible assumption | intro _ | with_reducible apply State.helReg_canon | with_reducible apply State.helAt_canon | with_reducible apply Hel.next_canon | with_reducible apply ite_canon | with_reducible apply ite_chOk | with_reducible apply ite_helOk | with_reducible apply ite_snd_canon | with_reducible apply ch_ok | with_reducible apply hel_ok | simp only [canon_mk, chOk_mk, helOk_mk] | split)

theorem execHEnd_canon (hel : Fin 1152) (o : HOps) (s : State) (hs : State.Canon s) : ∀ t, execHEnd hel o s = .next t → State.Canon t := by
  intro t ht
  unfold execHEnd at ht
  try dsimp only at ht
  injection ht with ht
  subst ht
  try dsimp only
  repeat' (first | with_reducible assumption | intro _ | with_reducible apply State.helDo_canon | with_reducible apply State.helAt_canon | with_reducible apply State.endHel_canon | with_reducible apply Hel.next_canon | with_reducible apply ite_canon | with_reducible apply ite_chOk | with_reducible apply ite_helOk | with_reducible apply ite_snd_canon | with_reducible apply ch_ok | with_reducible apply setHel_ok | with_reducible apply hel_ok | simp only [canon_mk, chOk_mk, helOk_mk] | split)

theorem execHBr_canon (hel : Fin 1152) (o : HOps) (s : State) (hs : State.Canon s) : ∀ t, execHBr hel o s = .next t → State.Canon t := by
  intro t ht
  unfold execHBr at ht
  try dsimp only at ht
  injection ht with ht
  subst ht
  try dsimp only
  repeat' (first | with_reducible assumption | intro _ | with_reducible apply State.helBranch_canon | with_reducible apply State.helAt_canon | with_reducible apply Hel.next_canon | with_reducible apply ite_canon | with_reducible apply ite_chOk | with_reducible apply ite_helOk | with_reducible apply ite_snd_canon | with_reducible apply ch_ok | with_reducible apply hel_ok | simp only [canon_mk, chOk_mk, helOk_mk] | split)

theorem execHBz_canon (hel : Fin 1152) (o : HOps) (s : State) (hs : State.Canon s) : ∀ t, execHBz hel o s = .next t → State.Canon t := by
  intro t ht
  unfold execHBz at ht
  try dsimp only at ht
  injection ht with ht
  subst ht
  try dsimp only
  repeat' (first | with_reducible assumption | intro _ | with_reducible apply State.helBranch_canon | with_reducible apply State.helAt_canon | with_reducible apply Hel.next_canon | with_reducible apply ite_canon | with_reducible apply ite_chOk | with_reducible apply ite_helOk | with_reducible apply ite_snd_canon | with_reducible apply ch_ok | with_reducible apply hel_ok | simp only [canon_mk, chOk_mk, helOk_mk] | split)

theorem execHBnz_canon (hel : Fin 1152) (o : HOps) (s : State) (hs : State.Canon s) : ∀ t, execHBnz hel o s = .next t → State.Canon t := by
  intro t ht
  unfold execHBnz at ht
  try dsimp only at ht
  injection ht with ht
  subst ht
  try dsimp only
  repeat' (first | with_reducible assumption | intro _ | with_reducible apply State.helBranch_canon | with_reducible apply State.helAt_canon | with_reducible apply Hel.next_canon | with_reducible apply ite_canon | with_reducible apply ite_chOk | with_reducible apply ite_helOk | with_reducible apply ite_snd_canon | with_reducible apply ch_ok | with_reducible apply hel_ok | simp only [canon_mk, chOk_mk, helOk_mk] | split)

theorem execHBlt_canon (hel : Fin 1152) (o : HOps) (s : State) (hs : State.Canon s) : ∀ t, execHBlt hel o s = .next t → State.Canon t := by
  intro t ht
  unfold execHBlt at ht
  try dsimp only at ht
  injection ht with ht
  subst ht
  try dsimp only
  repeat' (first | with_reducible assumption | intro _ | with_reducible apply State.helBranch_canon | with_reducible apply State.helAt_canon | with_reducible apply Hel.next_canon | with_reducible apply ite_canon | with_reducible apply ite_chOk | with_reducible apply ite_helOk | with_reducible apply ite_snd_canon | with_reducible apply ch_ok | with_reducible apply hel_ok | simp only [canon_mk, chOk_mk, helOk_mk] | split)

theorem execHDbnz_canon (hel : Fin 1152) (o : HOps) (s : State) (hs : State.Canon s) : ∀ t, execHDbnz hel o s = .next t → State.Canon t := by
  intro t ht
  unfold execHDbnz at ht
  try dsimp only at ht
  injection ht with ht
  subst ht
  try dsimp only
  repeat' (first | with_reducible assumption | intro _ | with_reducible apply State.helBranch_canon | with_reducible apply State.helAt_canon | with_reducible apply Hel.next_canon | with_reducible apply Hel.setX_canon | with_reducible apply ite_canon | with_reducible apply ite_chOk | with_reducible apply ite_helOk | with_reducible apply ite_snd_canon | with_reducible apply ch_ok | with_reducible apply hel_ok | simp only [canon_mk, chOk_mk, helOk_mk] | split)

theorem execHTrap_canon (hel : Fin 1152) (o : HOps) (s : State) (hs : State.Canon s) : ∀ t, execHTrap hel o s = .next t → State.Canon t := by
  intro t ht
  unfold execHTrap at ht
  try dsimp only at ht
  injection ht with ht
  subst ht
  try dsimp only
  repeat' (first | with_reducible assumption | intro _ | with_reducible apply State.helDo_canon | with_reducible apply State.helAt_canon | with_reducible apply State.endHel_canon | with_reducible apply Hel.next_canon | with_reducible apply ite_canon | with_reducible apply ite_chOk | with_reducible apply ite_helOk | with_reducible apply ite_snd_canon | with_reducible apply ch_ok | with_reducible apply setHel_ok | with_reducible apply hel_ok | simp only [canon_mk, chOk_mk, helOk_mk] | split)

theorem execHAdd_canon (hel : Fin 1152) (o : HOps) (s : State) (hs : State.Canon s) : ∀ t, execHAdd hel o s = .next t → State.Canon t := by
  intro t ht
  unfold execHAdd at ht
  try dsimp only at ht
  injection ht with ht
  subst ht
  try dsimp only
  repeat' (first | with_reducible assumption | intro _ | with_reducible apply State.helReg_canon | with_reducible apply State.helAt_canon | with_reducible apply Hel.next_canon | with_reducible apply Hel.setX_canon | with_reducible apply ite_canon | with_reducible apply ite_chOk | with_reducible apply ite_helOk | with_reducible apply ite_snd_canon | with_reducible apply ch_ok | with_reducible apply hel_ok | simp only [canon_mk, chOk_mk, helOk_mk] | split)

theorem execHSub_canon (hel : Fin 1152) (o : HOps) (s : State) (hs : State.Canon s) : ∀ t, execHSub hel o s = .next t → State.Canon t := by
  intro t ht
  unfold execHSub at ht
  try dsimp only at ht
  injection ht with ht
  subst ht
  try dsimp only
  repeat' (first | with_reducible assumption | intro _ | with_reducible apply State.helReg_canon | with_reducible apply State.helAt_canon | with_reducible apply Hel.next_canon | with_reducible apply Hel.setX_canon | with_reducible apply ite_canon | with_reducible apply ite_chOk | with_reducible apply ite_helOk | with_reducible apply ite_snd_canon | with_reducible apply ch_ok | with_reducible apply hel_ok | simp only [canon_mk, chOk_mk, helOk_mk] | split)

theorem execHMul_canon (hel : Fin 1152) (o : HOps) (s : State) (hs : State.Canon s) : ∀ t, execHMul hel o s = .next t → State.Canon t := by
  intro t ht
  unfold execHMul at ht
  try dsimp only at ht
  injection ht with ht
  subst ht
  try dsimp only
  repeat' (first | with_reducible assumption | intro _ | with_reducible apply State.helReg_canon | with_reducible apply State.helAt_canon | with_reducible apply Hel.next_canon | with_reducible apply Hel.setX_canon | with_reducible apply ite_canon | with_reducible apply ite_chOk | with_reducible apply ite_helOk | with_reducible apply ite_snd_canon | with_reducible apply ch_ok | with_reducible apply hel_ok | simp only [canon_mk, chOk_mk, helOk_mk] | split)

theorem execHAnd_canon (hel : Fin 1152) (o : HOps) (s : State) (hs : State.Canon s) : ∀ t, execHAnd hel o s = .next t → State.Canon t := by
  intro t ht
  unfold execHAnd at ht
  try dsimp only at ht
  injection ht with ht
  subst ht
  try dsimp only
  repeat' (first | with_reducible assumption | intro _ | with_reducible apply State.helReg_canon | with_reducible apply State.helAt_canon | with_reducible apply Hel.next_canon | with_reducible apply Hel.setX_canon | with_reducible apply ite_canon | with_reducible apply ite_chOk | with_reducible apply ite_helOk | with_reducible apply ite_snd_canon | with_reducible apply ch_ok | with_reducible apply hel_ok | simp only [canon_mk, chOk_mk, helOk_mk] | split)

theorem execHOr_canon (hel : Fin 1152) (o : HOps) (s : State) (hs : State.Canon s) : ∀ t, execHOr hel o s = .next t → State.Canon t := by
  intro t ht
  unfold execHOr at ht
  try dsimp only at ht
  injection ht with ht
  subst ht
  try dsimp only
  repeat' (first | with_reducible assumption | intro _ | with_reducible apply State.helReg_canon | with_reducible apply State.helAt_canon | with_reducible apply Hel.next_canon | with_reducible apply Hel.setX_canon | with_reducible apply ite_canon | with_reducible apply ite_chOk | with_reducible apply ite_helOk | with_reducible apply ite_snd_canon | with_reducible apply ch_ok | with_reducible apply hel_ok | simp only [canon_mk, chOk_mk, helOk_mk] | split)

theorem execHXor_canon (hel : Fin 1152) (o : HOps) (s : State) (hs : State.Canon s) : ∀ t, execHXor hel o s = .next t → State.Canon t := by
  intro t ht
  unfold execHXor at ht
  try dsimp only at ht
  injection ht with ht
  subst ht
  try dsimp only
  repeat' (first | with_reducible assumption | intro _ | with_reducible apply State.helReg_canon | with_reducible apply State.helAt_canon | with_reducible apply Hel.next_canon | with_reducible apply Hel.setX_canon | with_reducible apply ite_canon | with_reducible apply ite_chOk | with_reducible apply ite_helOk | with_reducible apply ite_snd_canon | with_reducible apply ch_ok | with_reducible apply hel_ok | simp only [canon_mk, chOk_mk, helOk_mk] | split)

theorem execHShl_canon (hel : Fin 1152) (o : HOps) (s : State) (hs : State.Canon s) : ∀ t, execHShl hel o s = .next t → State.Canon t := by
  intro t ht
  unfold execHShl at ht
  try dsimp only at ht
  injection ht with ht
  subst ht
  try dsimp only
  repeat' (first | with_reducible assumption | intro _ | with_reducible apply State.helReg_canon | with_reducible apply State.helAt_canon | with_reducible apply Hel.next_canon | with_reducible apply Hel.setX_canon | with_reducible apply ite_canon | with_reducible apply ite_chOk | with_reducible apply ite_helOk | with_reducible apply ite_snd_canon | with_reducible apply ch_ok | with_reducible apply hel_ok | simp only [canon_mk, chOk_mk, helOk_mk] | split)

theorem execHShr_canon (hel : Fin 1152) (o : HOps) (s : State) (hs : State.Canon s) : ∀ t, execHShr hel o s = .next t → State.Canon t := by
  intro t ht
  unfold execHShr at ht
  try dsimp only at ht
  injection ht with ht
  subst ht
  try dsimp only
  repeat' (first | with_reducible assumption | intro _ | with_reducible apply State.helReg_canon | with_reducible apply State.helAt_canon | with_reducible apply Hel.next_canon | with_reducible apply Hel.setX_canon | with_reducible apply ite_canon | with_reducible apply ite_chOk | with_reducible apply ite_helOk | with_reducible apply ite_snd_canon | with_reducible apply ch_ok | with_reducible apply hel_ok | simp only [canon_mk, chOk_mk, helOk_mk] | split)

theorem execHAddi_canon (hel : Fin 1152) (o : HOps) (s : State) (hs : State.Canon s) : ∀ t, execHAddi hel o s = .next t → State.Canon t := by
  intro t ht
  unfold execHAddi at ht
  try dsimp only at ht
  injection ht with ht
  subst ht
  try dsimp only
  repeat' (first | with_reducible assumption | intro _ | with_reducible apply State.helReg_canon | with_reducible apply State.helAt_canon | with_reducible apply Hel.next_canon | with_reducible apply Hel.setX_canon | with_reducible apply ite_canon | with_reducible apply ite_chOk | with_reducible apply ite_helOk | with_reducible apply ite_snd_canon | with_reducible apply ch_ok | with_reducible apply hel_ok | simp only [canon_mk, chOk_mk, helOk_mk] | split)

theorem execHLi_canon (hel : Fin 1152) (o : HOps) (s : State) (hs : State.Canon s) : ∀ t, execHLi hel o s = .next t → State.Canon t := by
  intro t ht
  unfold execHLi at ht
  try dsimp only at ht
  injection ht with ht
  subst ht
  try dsimp only
  repeat' (first | with_reducible assumption | intro _ | with_reducible apply State.helReg_canon | with_reducible apply State.helAt_canon | with_reducible apply Hel.next_canon | with_reducible apply Hel.setX_canon | with_reducible apply ite_canon | with_reducible apply ite_chOk | with_reducible apply ite_helOk | with_reducible apply ite_snd_canon | with_reducible apply ch_ok | with_reducible apply hel_ok | simp only [canon_mk, chOk_mk, helOk_mk] | split)

theorem execHLih_canon (hel : Fin 1152) (o : HOps) (s : State) (hs : State.Canon s) : ∀ t, execHLih hel o s = .next t → State.Canon t := by
  intro t ht
  unfold execHLih at ht
  try dsimp only at ht
  injection ht with ht
  subst ht
  try dsimp only
  repeat' (first | with_reducible assumption | intro _ | with_reducible apply State.helReg_canon | with_reducible apply State.helAt_canon | with_reducible apply Hel.next_canon | with_reducible apply Hel.setX_canon | with_reducible apply ite_canon | with_reducible apply ite_chOk | with_reducible apply ite_helOk | with_reducible apply ite_snd_canon | with_reducible apply ch_ok | with_reducible apply hel_ok | simp only [canon_mk, chOk_mk, helOk_mk] | split)

theorem execHDivu_canon (hel : Fin 1152) (o : HOps) (s : State) (hs : State.Canon s) : ∀ t, execHDivu hel o s = .next t → State.Canon t := by
  intro t ht
  unfold execHDivu at ht
  try dsimp only at ht
  injection ht with ht
  subst ht
  try dsimp only
  repeat' (first | with_reducible assumption | intro _ | with_reducible apply State.helReg_canon | with_reducible apply State.helAt_canon | with_reducible apply Hel.next_canon | with_reducible apply Hel.setX_canon | with_reducible apply ite_canon | with_reducible apply ite_chOk | with_reducible apply ite_helOk | with_reducible apply ite_snd_canon | with_reducible apply ch_ok | with_reducible apply hel_ok | simp only [canon_mk, chOk_mk, helOk_mk] | split)

theorem execHRemu_canon (hel : Fin 1152) (o : HOps) (s : State) (hs : State.Canon s) : ∀ t, execHRemu hel o s = .next t → State.Canon t := by
  intro t ht
  unfold execHRemu at ht
  try dsimp only at ht
  injection ht with ht
  subst ht
  try dsimp only
  repeat' (first | with_reducible assumption | intro _ | with_reducible apply State.helReg_canon | with_reducible apply State.helAt_canon | with_reducible apply Hel.next_canon | with_reducible apply Hel.setX_canon | with_reducible apply ite_canon | with_reducible apply ite_chOk | with_reducible apply ite_helOk | with_reducible apply ite_snd_canon | with_reducible apply ch_ok | with_reducible apply hel_ok | simp only [canon_mk, chOk_mk, helOk_mk] | split)

theorem execHLv_canon (hel : Fin 1152) (o : HOps) (s : State) (hs : State.Canon s) : ∀ t, execHLv hel o s = .next t → State.Canon t := by
  intro t ht
  unfold execHLv at ht
  try dsimp only at ht
  injection ht with ht
  subst ht
  try dsimp only
  repeat' (first | with_reducible assumption | intro _ | with_reducible apply Chamber.setV_canon | with_reducible apply State.helScratch_canon | with_reducible apply State.helAt_canon | with_reducible apply Hel.next_canon | with_reducible apply Hel.setV_canon | with_reducible apply ite_canon | with_reducible apply ite_chOk | with_reducible apply ite_helOk | with_reducible apply ite_snd_canon | with_reducible apply ch_ok | with_reducible apply hel_ok | with_reducible apply lmem_wf | with_reducible apply bmem_wf | with_reducible apply scratch_wf | with_reducible apply mem_wf | with_reducible apply canon_lit | simp only [canon_mk, chOk_mk, helOk_mk] | with_reducible apply chOk_lit | with_reducible apply helOk_lit | split)

theorem execHSv_canon (hel : Fin 1152) (o : HOps) (s : State) (hs : State.Canon s) : ∀ t, execHSv hel o s = .next t → State.Canon t := by
  intro t ht
  unfold execHSv at ht
  try dsimp only at ht
  injection ht with ht
  subst ht
  try dsimp only
  repeat' (first | with_reducible assumption | intro _ | with_reducible apply State.helScratch_canon | with_reducible apply State.helAt_canon | with_reducible apply Hel.next_canon | with_reducible apply ite_canon | with_reducible apply ite_chOk | with_reducible apply ite_helOk | with_reducible apply ite_snd_canon | with_reducible apply ch_ok | with_reducible apply hel_ok | with_reducible apply memWrite_wf | with_reducible apply lmem_wf | with_reducible apply bmem_wf | with_reducible apply scratch_wf | with_reducible apply mem_wf | with_reducible apply canon_lit | simp only [canon_mk, chOk_mk, helOk_mk] | with_reducible apply chOk_lit | with_reducible apply helOk_lit | split)

theorem execHLvh_canon (hel : Fin 1152) (o : HOps) (s : State) (hs : State.Canon s) : ∀ t, execHLvh hel o s = .next t → State.Canon t := by
  intro t ht
  unfold execHLvh at ht
  try dsimp only at ht
  injection ht with ht
  subst ht
  try dsimp only
  repeat' (first | with_reducible assumption | intro _ | with_reducible apply State.helScratch_canon | with_reducible apply Hel.lanes_canon | with_reducible apply State.helDo_canon | with_reducible apply State.helAt_canon | with_reducible apply State.helFault_canon | with_reducible apply Hel.next_canon | with_reducible refine canon_snd (by with_reducible assumption) ?_ | with_reducible refine canon_snd2 (by with_reducible assumption) ?_ | with_reducible refine canon_snd3 (by with_reducible assumption) ?_ | with_reducible apply ite_canon | with_reducible apply ite_chOk | with_reducible apply ite_helOk | with_reducible apply ite_snd_canon | with_reducible apply ch_ok | with_reducible apply hel_ok | with_reducible apply lmem_wf | with_reducible apply bmem_wf | with_reducible apply scratch_wf | with_reducible apply mem_wf | with_reducible apply canon_lit | simp only [canon_mk, chOk_mk, helOk_mk] | with_reducible apply chOk_lit | with_reducible apply helOk_lit | split)

theorem execHSvh_canon (hel : Fin 1152) (o : HOps) (s : State) (hs : State.Canon s) : ∀ t, execHSvh hel o s = .next t → State.Canon t := by
  intro t ht
  unfold execHSvh at ht
  try dsimp only at ht
  injection ht with ht
  subst ht
  try dsimp only
  repeat' (first | with_reducible assumption | intro _ | with_reducible apply State.helScratch_canon | with_reducible apply State.helDo_canon | with_reducible apply State.helAt_canon | with_reducible apply State.helFault_canon | with_reducible apply Hel.next_canon | with_reducible refine canon_snd (by with_reducible assumption) ?_ | with_reducible refine canon_snd2 (by with_reducible assumption) ?_ | with_reducible refine canon_snd3 (by with_reducible assumption) ?_ | with_reducible apply ite_canon | with_reducible apply ite_chOk | with_reducible apply ite_helOk | with_reducible apply ite_snd_canon | with_reducible apply foldl_canon | with_reducible apply foldl_memwf | with_reducible apply ch_ok | with_reducible apply hel_ok | with_reducible apply memWrite_wf | with_reducible apply lmem_wf | with_reducible apply bmem_wf | with_reducible apply scratch_wf | with_reducible apply mem_wf | with_reducible apply canon_lit | simp only [canon_mk, chOk_mk, helOk_mk] | with_reducible apply chOk_lit | with_reducible apply helOk_lit | split)

theorem execHLx_canon (hel : Fin 1152) (o : HOps) (s : State) (hs : State.Canon s) : ∀ t, execHLx hel o s = .next t → State.Canon t := by
  intro t ht
  unfold execHLx at ht
  try dsimp only at ht
  injection ht with ht
  subst ht
  try dsimp only
  repeat' (first | with_reducible assumption | intro _ | with_reducible apply State.helScratch_canon | with_reducible apply State.helAt_canon | with_reducible apply Hel.next_canon | with_reducible apply Hel.setX_canon | with_reducible apply ite_canon | with_reducible apply ite_chOk | with_reducible apply ite_helOk | with_reducible apply ite_snd_canon | with_reducible apply ch_ok | with_reducible apply hel_ok | with_reducible apply lmem_wf | with_reducible apply bmem_wf | with_reducible apply scratch_wf | with_reducible apply mem_wf | with_reducible apply canon_lit | simp only [canon_mk, chOk_mk, helOk_mk] | with_reducible apply chOk_lit | with_reducible apply helOk_lit | split)

theorem execHSx_canon (hel : Fin 1152) (o : HOps) (s : State) (hs : State.Canon s) : ∀ t, execHSx hel o s = .next t → State.Canon t := by
  intro t ht
  unfold execHSx at ht
  try dsimp only at ht
  injection ht with ht
  subst ht
  try dsimp only
  repeat' (first | with_reducible assumption | intro _ | with_reducible apply State.helScratch_canon | with_reducible apply State.helAt_canon | with_reducible apply Hel.next_canon | with_reducible apply ite_canon | with_reducible apply ite_chOk | with_reducible apply ite_helOk | with_reducible apply ite_snd_canon | with_reducible apply ch_ok | with_reducible apply hel_ok | with_reducible apply memWrite_wf | with_reducible apply lmem_wf | with_reducible apply bmem_wf | with_reducible apply scratch_wf | with_reducible apply mem_wf | with_reducible apply canon_lit | simp only [canon_mk, chOk_mk, helOk_mk] | with_reducible apply chOk_lit | with_reducible apply helOk_lit | split)

theorem execHRg_canon (hel : Fin 1152) (o : HOps) (s : State) (hs : State.Canon s) : ∀ t, execHRg hel o s = .next t → State.Canon t := by
  intro t ht
  unfold execHRg at ht
  try dsimp only at ht
  injection ht with ht
  subst ht
  try dsimp only
  repeat' (first | with_reducible assumption | intro _ | with_reducible apply State.helStart_canon | with_reducible apply State.helAt_canon | with_reducible apply Hel.next_canon | with_reducible apply ite_canon | with_reducible apply ite_chOk | with_reducible apply ite_helOk | with_reducible apply ite_snd_canon | with_reducible apply ch_ok | with_reducible apply hel_ok | simp only [canon_mk, chOk_mk, helOk_mk] | split)

theorem execHWg_canon (hel : Fin 1152) (o : HOps) (s : State) (hs : State.Canon s) : ∀ t, execHWg hel o s = .next t → State.Canon t := by
  intro t ht
  unfold execHWg at ht
  try dsimp only at ht
  injection ht with ht
  subst ht
  try dsimp only
  repeat' (first | with_reducible assumption | intro _ | with_reducible apply State.helStart_canon | with_reducible apply State.helAt_canon | with_reducible apply Hel.next_canon | with_reducible apply ite_canon | with_reducible apply ite_chOk | with_reducible apply ite_helOk | with_reducible apply ite_snd_canon | with_reducible apply ch_ok | with_reducible apply hel_ok | simp only [canon_mk, chOk_mk, helOk_mk] | split)

theorem execHClm_canon (hel : Fin 1152) (o : HOps) (s : State) (hs : State.Canon s) : ∀ t, execHClm hel o s = .next t → State.Canon t := by
  intro t ht
  unfold execHClm at ht
  try dsimp only at ht
  injection ht with ht
  subst ht
  try dsimp only
  repeat' (first | with_reducible assumption | intro _ | with_reducible apply State.helDo_canon | with_reducible apply State.helAt_canon | with_reducible apply State.askClaim_canon | with_reducible apply State.releaseClaim_canon | with_reducible apply Hel.next_canon | with_reducible apply ite_canon | with_reducible apply ite_chOk | with_reducible apply ite_helOk | with_reducible apply ite_snd_canon | with_reducible apply ch_ok | with_reducible apply setHel_ok | with_reducible apply hel_ok | simp only [canon_mk, chOk_mk, helOk_mk] | split)

theorem execHRel_canon (hel : Fin 1152) (o : HOps) (s : State) (hs : State.Canon s) : ∀ t, execHRel hel o s = .next t → State.Canon t := by
  intro t ht
  unfold execHRel at ht
  try dsimp only at ht
  injection ht with ht
  subst ht
  try dsimp only
  repeat' (first | with_reducible assumption | intro _ | with_reducible apply State.helDo_canon | with_reducible apply State.helAt_canon | with_reducible apply State.releaseClaim_canon | with_reducible apply Hel.next_canon | with_reducible apply ite_canon | with_reducible apply ite_chOk | with_reducible apply ite_helOk | with_reducible apply ite_snd_canon | with_reducible apply ch_ok | with_reducible apply setHel_ok | with_reducible apply hel_ok | simp only [canon_mk, chOk_mk, helOk_mk] | split)

theorem execHYld_canon (hel : Fin 1152) (o : HOps) (s : State) (hs : State.Canon s) : ∀ t, execHYld hel o s = .next t → State.Canon t := by
  intro t ht
  unfold execHYld at ht
  try dsimp only at ht
  injection ht with ht
  subst ht
  try dsimp only
  repeat' (first | with_reducible assumption | intro _ | with_reducible apply State.helDo_canon | with_reducible apply State.helAt_canon | with_reducible apply State.rowBoundary_canon | with_reducible apply Hel.next_canon | with_reducible apply ite_canon | with_reducible apply ite_chOk | with_reducible apply ite_helOk | with_reducible apply ite_snd_canon | with_reducible apply ch_ok | with_reducible apply setHel_ok | with_reducible apply hel_ok | simp only [canon_mk, chOk_mk, helOk_mk] | split)

theorem execHFence_canon (hel : Fin 1152) (o : HOps) (s : State) (hs : State.Canon s) : ∀ t, execHFence hel o s = .next t → State.Canon t := by
  intro t ht
  unfold execHFence at ht
  try dsimp only at ht
  injection ht with ht
  subst ht
  try dsimp only
  repeat' (first | with_reducible assumption | intro _ | with_reducible apply State.helDo_canon | with_reducible apply State.helAt_canon | with_reducible apply Hel.next_canon | with_reducible apply State.write_canon | with_reducible apply ite_canon | with_reducible apply ite_chOk | with_reducible apply ite_helOk | with_reducible apply ite_snd_canon | with_reducible apply ch_ok | with_reducible apply setHel_ok | with_reducible apply hel_ok | simp only [canon_mk, chOk_mk, helOk_mk] | split)

theorem execHXsend_canon (hel : Fin 1152) (o : HOps) (s : State) (hs : State.Canon s) : ∀ t, execHXsend hel o s = .next t → State.Canon t := by
  intro t ht
  unfold execHXsend at ht
  try dsimp only at ht
  injection ht with ht
  subst ht
  try dsimp only
  repeat' (first | with_reducible assumption | intro _ | with_reducible apply State.helDo_canon | with_reducible apply State.helAt_canon | with_reducible apply Hel.next_canon | with_reducible apply ite_canon | with_reducible apply ite_chOk | with_reducible apply ite_helOk | with_reducible apply ite_snd_canon | with_reducible apply foldl_canon | with_reducible apply foldl_memwf | with_reducible apply ch_ok | with_reducible apply setHel_ok | with_reducible apply hel_ok | simp only [canon_mk, chOk_mk, helOk_mk] | split)

theorem execHXrecv_canon (hel : Fin 1152) (o : HOps) (s : State) (hs : State.Canon s) : ∀ t, execHXrecv hel o s = .next t → State.Canon t := by
  intro t ht
  unfold execHXrecv at ht
  try dsimp only at ht
  injection ht with ht
  subst ht
  try dsimp only
  repeat' (first | with_reducible assumption | intro _ | with_reducible apply State.helDo_canon | with_reducible apply State.helAt_canon | with_reducible apply Hel.next_canon | with_reducible apply Hel.setX_canon | with_reducible refine canon_snd (by with_reducible assumption) ?_ | with_reducible refine canon_snd2 (by with_reducible assumption) ?_ | with_reducible refine canon_snd3 (by with_reducible assumption) ?_ | with_reducible apply ite_canon | with_reducible apply ite_chOk | with_reducible apply ite_helOk | with_reducible apply ite_snd_canon | with_reducible apply ch_ok | with_reducible apply setHel_ok | with_reducible apply hel_ok | simp only [canon_mk, chOk_mk, helOk_mk] | split)

theorem execHXcount_canon (hel : Fin 1152) (o : HOps) (s : State) (hs : State.Canon s) : ∀ t, execHXcount hel o s = .next t → State.Canon t := by
  intro t ht
  unfold execHXcount at ht
  try dsimp only at ht
  injection ht with ht
  subst ht
  try dsimp only
  repeat' (first | with_reducible assumption | intro _ | with_reducible apply State.helReg_canon | with_reducible apply State.helAt_canon | with_reducible apply Hel.next_canon | with_reducible apply Hel.setX_canon | with_reducible apply ite_canon | with_reducible apply ite_chOk | with_reducible apply ite_helOk | with_reducible apply ite_snd_canon | with_reducible apply ch_ok | with_reducible apply hel_ok | simp only [canon_mk, chOk_mk, helOk_mk] | split)

theorem execHPost_canon (hel : Fin 1152) (o : HOps) (s : State) (hs : State.Canon s) : ∀ t, execHPost hel o s = .next t → State.Canon t := by
  intro t ht
  unfold execHPost at ht
  try dsimp only at ht
  injection ht with ht
  subst ht
  try dsimp only
  repeat' (first | with_reducible assumption | intro _ | with_reducible apply State.helDo_canon | with_reducible apply State.helAt_canon | with_reducible apply Hel.next_canon | with_reducible apply State.postSig_canon | with_reducible apply ite_canon | with_reducible apply ite_chOk | with_reducible apply ite_helOk | with_reducible apply ite_snd_canon | with_reducible apply ch_ok | with_reducible apply setHel_ok | with_reducible apply hel_ok | simp only [canon_mk, chOk_mk, helOk_mk] | split)

/-! ## HelVector -/

theorem execHVadd_canon (hel : Fin 1152) (o : HOps) (s : State) (hs : State.Canon s) : ∀ t, execHVadd hel o s = .next t → State.Canon t := by
  intro t ht
  unfold execHVadd at ht
  try dsimp only at ht
  injection ht with ht
  subst ht
  try dsimp only
  repeat' (first | with_reducible assumption | intro _ | with_reducible apply State.helVec_canon | with_reducible apply State.helAt_canon | with_reducible apply Hel.next_canon | with_reducible apply ite_canon | with_reducible apply ite_chOk | with_reducible apply ite_helOk | with_reducible apply ite_snd_canon | with_reducible apply ch_ok | with_reducible apply hel_ok | simp only [canon_mk, chOk_mk, helOk_mk] | split)

theorem execHVsub_canon (hel : Fin 1152) (o : HOps) (s : State) (hs : State.Canon s) : ∀ t, execHVsub hel o s = .next t → State.Canon t := by
  intro t ht
  unfold execHVsub at ht
  try dsimp only at ht
  injection ht with ht
  subst ht
  try dsimp only
  repeat' (first | with_reducible assumption | intro _ | with_reducible apply State.helVec_canon | with_reducible apply State.helAt_canon | with_reducible apply Hel.next_canon | with_reducible apply ite_canon | with_reducible apply ite_chOk | with_reducible apply ite_helOk | with_reducible apply ite_snd_canon | with_reducible apply ch_ok | with_reducible apply hel_ok | simp only [canon_mk, chOk_mk, helOk_mk] | split)

theorem execHVmul_canon (hel : Fin 1152) (o : HOps) (s : State) (hs : State.Canon s) : ∀ t, execHVmul hel o s = .next t → State.Canon t := by
  intro t ht
  unfold execHVmul at ht
  try dsimp only at ht
  injection ht with ht
  subst ht
  try dsimp only
  repeat' (first | with_reducible assumption | intro _ | with_reducible apply State.helVec_canon | with_reducible apply State.helAt_canon | with_reducible apply Hel.next_canon | with_reducible apply ite_canon | with_reducible apply ite_chOk | with_reducible apply ite_helOk | with_reducible apply ite_snd_canon | with_reducible apply ch_ok | with_reducible apply hel_ok | simp only [canon_mk, chOk_mk, helOk_mk] | split)

theorem execHVfma_canon (hel : Fin 1152) (o : HOps) (s : State) (hs : State.Canon s) : ∀ t, execHVfma hel o s = .next t → State.Canon t := by
  intro t ht
  unfold execHVfma at ht
  try dsimp only at ht
  injection ht with ht
  subst ht
  try dsimp only
  repeat' (first | with_reducible assumption | intro _ | with_reducible apply State.helVec_canon | with_reducible apply State.helAt_canon | with_reducible apply Hel.next_canon | with_reducible apply ite_canon | with_reducible apply ite_chOk | with_reducible apply ite_helOk | with_reducible apply ite_snd_canon | with_reducible apply ch_ok | with_reducible apply hel_ok | simp only [canon_mk, chOk_mk, helOk_mk] | split)

theorem execHVmax_canon (hel : Fin 1152) (o : HOps) (s : State) (hs : State.Canon s) : ∀ t, execHVmax hel o s = .next t → State.Canon t := by
  intro t ht
  unfold execHVmax at ht
  try dsimp only at ht
  injection ht with ht
  subst ht
  try dsimp only
  repeat' (first | with_reducible assumption | intro _ | with_reducible apply State.helVec_canon | with_reducible apply State.helAt_canon | with_reducible apply Hel.next_canon | with_reducible apply ite_canon | with_reducible apply ite_chOk | with_reducible apply ite_helOk | with_reducible apply ite_snd_canon | with_reducible apply ch_ok | with_reducible apply hel_ok | simp only [canon_mk, chOk_mk, helOk_mk] | split)

theorem execHVmin_canon (hel : Fin 1152) (o : HOps) (s : State) (hs : State.Canon s) : ∀ t, execHVmin hel o s = .next t → State.Canon t := by
  intro t ht
  unfold execHVmin at ht
  try dsimp only at ht
  injection ht with ht
  subst ht
  try dsimp only
  repeat' (first | with_reducible assumption | intro _ | with_reducible apply State.helVec_canon | with_reducible apply State.helAt_canon | with_reducible apply Hel.next_canon | with_reducible apply ite_canon | with_reducible apply ite_chOk | with_reducible apply ite_helOk | with_reducible apply ite_snd_canon | with_reducible apply ch_ok | with_reducible apply hel_ok | simp only [canon_mk, chOk_mk, helOk_mk] | split)

theorem execHVabs_canon (hel : Fin 1152) (o : HOps) (s : State) (hs : State.Canon s) : ∀ t, execHVabs hel o s = .next t → State.Canon t := by
  intro t ht
  unfold execHVabs at ht
  try dsimp only at ht
  injection ht with ht
  subst ht
  try dsimp only
  repeat' (first | with_reducible assumption | intro _ | with_reducible apply State.helVec_canon | with_reducible apply State.helAt_canon | with_reducible apply Hel.next_canon | with_reducible apply ite_canon | with_reducible apply ite_chOk | with_reducible apply ite_helOk | with_reducible apply ite_snd_canon | with_reducible apply ch_ok | with_reducible apply hel_ok | simp only [canon_mk, chOk_mk, helOk_mk] | split)

theorem execHVneg_canon (hel : Fin 1152) (o : HOps) (s : State) (hs : State.Canon s) : ∀ t, execHVneg hel o s = .next t → State.Canon t := by
  intro t ht
  unfold execHVneg at ht
  try dsimp only at ht
  injection ht with ht
  subst ht
  try dsimp only
  repeat' (first | with_reducible assumption | intro _ | with_reducible apply State.helVec_canon | with_reducible apply State.helAt_canon | with_reducible apply Hel.next_canon | with_reducible apply ite_canon | with_reducible apply ite_chOk | with_reducible apply ite_helOk | with_reducible apply ite_snd_canon | with_reducible apply ch_ok | with_reducible apply hel_ok | simp only [canon_mk, chOk_mk, helOk_mk] | split)

theorem execHVdotBf2_canon (hel : Fin 1152) (o : HOps) (s : State) (hs : State.Canon s) : ∀ t, execHVdotBf2 hel o s = .next t → State.Canon t := by
  intro t ht
  unfold execHVdotBf2 at ht
  try dsimp only at ht
  injection ht with ht
  subst ht
  try dsimp only
  repeat' (first | with_reducible assumption | intro _ | with_reducible apply State.helVec_canon | with_reducible apply State.helAt_canon | with_reducible apply Hel.next_canon | with_reducible apply ite_canon | with_reducible apply ite_chOk | with_reducible apply ite_helOk | with_reducible apply ite_snd_canon | with_reducible apply ch_ok | with_reducible apply hel_ok | simp only [canon_mk, chOk_mk, helOk_mk] | split)

theorem execHVcmpLt_canon (hel : Fin 1152) (o : HOps) (s : State) (hs : State.Canon s) : ∀ t, execHVcmpLt hel o s = .next t → State.Canon t := by
  intro t ht
  unfold execHVcmpLt at ht
  try dsimp only at ht
  injection ht with ht
  subst ht
  try dsimp only
  repeat' (first | with_reducible assumption | intro _ | with_reducible apply State.helVec_canon | with_reducible apply State.helAt_canon | with_reducible apply Hel.next_canon | with_reducible apply ite_canon | with_reducible apply ite_chOk | with_reducible apply ite_helOk | with_reducible apply ite_snd_canon | with_reducible apply ch_ok | with_reducible apply hel_ok | simp only [canon_mk, chOk_mk, helOk_mk] | split)

theorem execHVsel_canon (hel : Fin 1152) (o : HOps) (s : State) (hs : State.Canon s) : ∀ t, execHVsel hel o s = .next t → State.Canon t := by
  intro t ht
  unfold execHVsel at ht
  try dsimp only at ht
  injection ht with ht
  subst ht
  try dsimp only
  repeat' (first | with_reducible assumption | intro _ | with_reducible apply State.helVec_canon | with_reducible apply State.helAt_canon | with_reducible apply Hel.next_canon | with_reducible apply ite_canon | with_reducible apply ite_chOk | with_reducible apply ite_helOk | with_reducible apply ite_snd_canon | with_reducible apply ch_ok | with_reducible apply hel_ok | simp only [canon_mk, chOk_mk, helOk_mk] | split)

theorem execHVbcast_canon (hel : Fin 1152) (o : HOps) (s : State) (hs : State.Canon s) : ∀ t, execHVbcast hel o s = .next t → State.Canon t := by
  intro t ht
  unfold execHVbcast at ht
  try dsimp only at ht
  injection ht with ht
  subst ht
  try dsimp only
  repeat' (first | with_reducible assumption | intro _ | with_reducible apply State.helVec_canon | with_reducible apply State.helAt_canon | with_reducible apply Hel.next_canon | with_reducible apply ite_canon | with_reducible apply ite_chOk | with_reducible apply ite_helOk | with_reducible apply ite_snd_canon | with_reducible apply ch_ok | with_reducible apply hel_ok | simp only [canon_mk, chOk_mk, helOk_mk] | split)

theorem execHVredAdd_canon (hel : Fin 1152) (o : HOps) (s : State) (hs : State.Canon s) : ∀ t, execHVredAdd hel o s = .next t → State.Canon t := by
  intro t ht
  unfold execHVredAdd at ht
  try dsimp only at ht
  injection ht with ht
  subst ht
  try dsimp only
  repeat' (first | with_reducible assumption | intro _ | with_reducible apply Hel.reduce_canon | with_reducible apply State.helReg_canon | with_reducible apply State.helAt_canon | with_reducible apply Hel.next_canon | with_reducible apply ite_canon | with_reducible apply ite_chOk | with_reducible apply ite_helOk | with_reducible apply ite_snd_canon | with_reducible apply ch_ok | with_reducible apply hel_ok | simp only [canon_mk, chOk_mk, helOk_mk] | split)

theorem execHVredMax_canon (hel : Fin 1152) (o : HOps) (s : State) (hs : State.Canon s) : ∀ t, execHVredMax hel o s = .next t → State.Canon t := by
  intro t ht
  unfold execHVredMax at ht
  try dsimp only at ht
  injection ht with ht
  subst ht
  try dsimp only
  repeat' (first | with_reducible assumption | intro _ | with_reducible apply Hel.reduce_canon | with_reducible apply State.helReg_canon | with_reducible apply State.helAt_canon | with_reducible apply Hel.next_canon | with_reducible apply ite_canon | with_reducible apply ite_chOk | with_reducible apply ite_helOk | with_reducible apply ite_snd_canon | with_reducible apply ch_ok | with_reducible apply hel_ok | simp only [canon_mk, chOk_mk, helOk_mk] | split)

theorem execHVlane_canon (hel : Fin 1152) (o : HOps) (s : State) (hs : State.Canon s) : ∀ t, execHVlane hel o s = .next t → State.Canon t := by
  intro t ht
  unfold execHVlane at ht
  try dsimp only at ht
  injection ht with ht
  subst ht
  try dsimp only
  repeat' (first | with_reducible assumption | intro _ | with_reducible apply State.helVec_canon | with_reducible apply State.helAt_canon | with_reducible apply Hel.next_canon | with_reducible apply ite_canon | with_reducible apply ite_chOk | with_reducible apply ite_helOk | with_reducible apply ite_snd_canon | with_reducible apply ch_ok | with_reducible apply hel_ok | simp only [canon_mk, chOk_mk, helOk_mk] | split)

theorem execHVrcp_canon (hel : Fin 1152) (o : HOps) (s : State) (hs : State.Canon s) : ∀ t, execHVrcp hel o s = .next t → State.Canon t := by
  intro t ht
  unfold execHVrcp at ht
  try dsimp only at ht
  injection ht with ht
  subst ht
  try dsimp only
  repeat' (first | with_reducible assumption | intro _ | with_reducible apply State.helVec_canon | with_reducible apply State.helAt_canon | with_reducible apply Hel.next_canon | with_reducible apply ite_canon | with_reducible apply ite_chOk | with_reducible apply ite_helOk | with_reducible apply ite_snd_canon | with_reducible apply ch_ok | with_reducible apply hel_ok | simp only [canon_mk, chOk_mk, helOk_mk] | split)

theorem execHVrsqrt_canon (hel : Fin 1152) (o : HOps) (s : State) (hs : State.Canon s) : ∀ t, execHVrsqrt hel o s = .next t → State.Canon t := by
  intro t ht
  unfold execHVrsqrt at ht
  try dsimp only at ht
  injection ht with ht
  subst ht
  try dsimp only
  repeat' (first | with_reducible assumption | intro _ | with_reducible apply State.helVec_canon | with_reducible apply State.helAt_canon | with_reducible apply Hel.next_canon | with_reducible apply ite_canon | with_reducible apply ite_chOk | with_reducible apply ite_helOk | with_reducible apply ite_snd_canon | with_reducible apply ch_ok | with_reducible apply hel_ok | simp only [canon_mk, chOk_mk, helOk_mk] | split)

theorem execHVexp_canon (hel : Fin 1152) (o : HOps) (s : State) (hs : State.Canon s) : ∀ t, execHVexp hel o s = .next t → State.Canon t := by
  intro t ht
  unfold execHVexp at ht
  try dsimp only at ht
  injection ht with ht
  subst ht
  try dsimp only
  repeat' (first | with_reducible assumption | intro _ | with_reducible apply State.helVec_canon | with_reducible apply State.helAt_canon | with_reducible apply Hel.next_canon | with_reducible apply ite_canon | with_reducible apply ite_chOk | with_reducible apply ite_helOk | with_reducible apply ite_snd_canon | with_reducible apply ch_ok | with_reducible apply hel_ok | simp only [canon_mk, chOk_mk, helOk_mk] | split)

theorem execHVlog_canon (hel : Fin 1152) (o : HOps) (s : State) (hs : State.Canon s) : ∀ t, execHVlog hel o s = .next t → State.Canon t := by
  intro t ht
  unfold execHVlog at ht
  try dsimp only at ht
  injection ht with ht
  subst ht
  try dsimp only
  repeat' (first | with_reducible assumption | intro _ | with_reducible apply State.helVec_canon | with_reducible apply State.helAt_canon | with_reducible apply Hel.next_canon | with_reducible apply ite_canon | with_reducible apply ite_chOk | with_reducible apply ite_helOk | with_reducible apply ite_snd_canon | with_reducible apply ch_ok | with_reducible apply hel_ok | simp only [canon_mk, chOk_mk, helOk_mk] | split)

theorem execHVcvtF2i_canon (hel : Fin 1152) (o : HOps) (s : State) (hs : State.Canon s) : ∀ t, execHVcvtF2i hel o s = .next t → State.Canon t := by
  intro t ht
  unfold execHVcvtF2i at ht
  try dsimp only at ht
  injection ht with ht
  subst ht
  try dsimp only
  repeat' (first | with_reducible assumption | intro _ | with_reducible apply State.helVec_canon | with_reducible apply State.helAt_canon | with_reducible apply Hel.next_canon | with_reducible apply ite_canon | with_reducible apply ite_chOk | with_reducible apply ite_helOk | with_reducible apply ite_snd_canon | with_reducible apply ch_ok | with_reducible apply hel_ok | simp only [canon_mk, chOk_mk, helOk_mk] | split)

theorem execHVcvtI2f_canon (hel : Fin 1152) (o : HOps) (s : State) (hs : State.Canon s) : ∀ t, execHVcvtI2f hel o s = .next t → State.Canon t := by
  intro t ht
  unfold execHVcvtI2f at ht
  try dsimp only at ht
  injection ht with ht
  subst ht
  try dsimp only
  repeat' (first | with_reducible assumption | intro _ | with_reducible apply State.helVec_canon | with_reducible apply State.helAt_canon | with_reducible apply Hel.next_canon | with_reducible apply ite_canon | with_reducible apply ite_chOk | with_reducible apply ite_helOk | with_reducible apply ite_snd_canon | with_reducible apply ch_ok | with_reducible apply hel_ok | simp only [canon_mk, chOk_mk, helOk_mk] | split)

theorem execHVaddI32_canon (hel : Fin 1152) (o : HOps) (s : State) (hs : State.Canon s) : ∀ t, execHVaddI32 hel o s = .next t → State.Canon t := by
  intro t ht
  unfold execHVaddI32 at ht
  try dsimp only at ht
  injection ht with ht
  subst ht
  try dsimp only
  repeat' (first | with_reducible assumption | intro _ | with_reducible apply State.helVec_canon | with_reducible apply State.helAt_canon | with_reducible apply Hel.next_canon | with_reducible apply ite_canon | with_reducible apply ite_chOk | with_reducible apply ite_helOk | with_reducible apply ite_snd_canon | with_reducible apply ch_ok | with_reducible apply hel_ok | simp only [canon_mk, chOk_mk, helOk_mk] | split)

theorem execHVmovx_canon (hel : Fin 1152) (o : HOps) (s : State) (hs : State.Canon s) : ∀ t, execHVmovx hel o s = .next t → State.Canon t := by
  intro t ht
  unfold execHVmovx at ht
  try dsimp only at ht
  injection ht with ht
  subst ht
  try dsimp only
  repeat' (first | with_reducible assumption | intro _ | with_reducible apply State.helReg_canon | with_reducible apply State.helAt_canon | with_reducible apply Hel.next_canon | with_reducible apply Hel.setX_canon | with_reducible apply ite_canon | with_reducible apply ite_chOk | with_reducible apply ite_helOk | with_reducible apply ite_snd_canon | with_reducible apply ch_ok | with_reducible apply hel_ok | simp only [canon_mk, chOk_mk, helOk_mk] | split)

theorem execHVinsx_canon (hel : Fin 1152) (o : HOps) (s : State) (hs : State.Canon s) : ∀ t, execHVinsx hel o s = .next t → State.Canon t := by
  intro t ht
  unfold execHVinsx at ht
  try dsimp only at ht
  injection ht with ht
  subst ht
  try dsimp only
  repeat' (first | with_reducible assumption | intro _ | with_reducible apply Chamber.setV_canon | with_reducible apply State.helReg_canon | with_reducible apply State.helAt_canon | with_reducible apply Hel.next_canon | with_reducible apply Hel.setV_canon | with_reducible apply ite_canon | with_reducible apply ite_chOk | with_reducible apply ite_helOk | with_reducible apply ite_snd_canon | with_reducible apply ch_ok | with_reducible apply hel_ok | simp only [canon_mk, chOk_mk, helOk_mk] | split)

/-! ## Flowstone -/

theorem State.panelEvent_canon (s : State) (f : FieldRef) (i : Nat) (hs : State.Canon s) : State.Canon (State.panelEvent s f i) := by
  unfold State.panelEvent
  try dsimp only
  repeat' (first | with_reducible assumption | with_reducible apply State.raiseIrq_canon | with_reducible apply State.put_canon | with_reducible apply ite_canon | split)

theorem State.setSlot_canon (s : State) (m : Nat) (st : Nat) (hs : State.Canon s) : State.Canon (State.setSlot s m st) := by
  unfold State.setSlot
  try dsimp only
  repeat' (first | with_reducible assumption | intro _ | with_reducible apply State.panelEvent_canon | with_reducible apply State.put_canon | with_reducible apply ite_canon | with_reducible apply ite_chOk | with_reducible apply ite_helOk | with_reducible apply ite_snd_canon | with_reducible apply ch_ok | with_reducible apply hel_ok | simp only [canon_mk, chOk_mk, helOk_mk] | split)

theorem State.completeFls_canon (s : State) (w : Waiter) (status : Nat) (hs : State.Canon s) : State.Canon (State.completeFls s w status) := by
  unfold State.completeFls
  try dsimp only
  repeat' (first | with_reducible assumption | intro _ | with_reducible apply State.writeLogged_canon | with_reducible apply State.endWork_canon | with_reducible apply State.postSig_canon | with_reducible refine canon_snd (by with_reducible assumption) ?_ | with_reducible refine canon_snd2 (by with_reducible assumption) ?_ | with_reducible refine canon_snd3 (by with_reducible assumption) ?_ | with_reducible apply ite_canon | with_reducible apply ite_chOk | with_reducible apply ite_helOk | with_reducible apply ite_snd_canon | with_reducible apply ch_ok | with_reducible apply hel_ok | simp only [canon_mk, chOk_mk, helOk_mk] | split)

theorem State.completeAll_canon (s : State) (ws : List Waiter) (status : Nat) (hs : State.Canon s) : State.Canon (State.completeAll s ws status) := by
  unfold State.completeAll
  try dsimp only
  repeat' (first | with_reducible assumption | with_reducible apply State.completeFls_canon | with_reducible apply foldl_canon | intro _)

theorem State.prefetchMet_canon (s : State) (w : Waiter) (hs : State.Canon s) : State.Canon (State.prefetchMet s w) := by
  unfold State.prefetchMet
  try dsimp only
  repeat' (first | with_reducible assumption | with_reducible apply State.completeFls_canon | with_reducible apply State.count_canon)

theorem State.abortMoves_canon (s : State) (p : Move → Bool) (hs : State.Canon s) : State.Canon (State.abortMoves s p) := by
  unfold State.abortMoves
  try dsimp only
  repeat' (first | with_reducible assumption | simp only [canon_mk, chOk_mk, helOk_mk] | intro _)

theorem State.syncDrain_canon (s : State) (hs : State.Canon s) : State.Canon (State.syncDrain s) := by
  unfold State.syncDrain
  try dsimp only
  repeat' (first | with_reducible assumption | with_reducible apply State.abortMoves_canon | with_reducible apply State.queueMove_canon | with_reducible apply foldl_canon | simp only [canon_mk, chOk_mk, helOk_mk] | intro _ | split)

theorem State.settle_canon (s : State) (hs : State.Canon s) : State.Canon (State.settle s) := by
  unfold State.settle
  try dsimp only
  repeat' (first | with_reducible assumption | with_reducible apply State.syncDrain_canon | with_reducible apply State.makeRoom_canon)

theorem State.refuseDrain_canon (s : State) (m : Nat) (reason : Nat) (hs : State.Canon s) : State.Canon (State.refuseDrain s m reason) := by
  unfold State.refuseDrain
  try dsimp only
  repeat' (first | with_reducible assumption | with_reducible apply State.put_canon | with_reducible apply ite_canon | split)

theorem State.acceptDrain_canon (s : State) (m : Nat) (cmd : Option Waiter) (press : Option Nat) (hs : State.Canon s) : State.Canon (State.acceptDrain s m cmd press) := by
  unfold State.acceptDrain
  try dsimp only
  repeat' (first | with_reducible assumption | with_reducible apply State.settle_canon | with_reducible apply State.abortMoves_canon | with_reducible apply State.setSlot_canon | with_reducible apply State.put_canon | simp only [canon_mk, chOk_mk, helOk_mk] | intro _)

theorem State.endDrainCmd_canon (s : State) (status : Nat) (hs : State.Canon s) : State.Canon (State.endDrainCmd s status) := by
  unfold State.endDrainCmd
  try dsimp only
  repeat' (first | with_reducible assumption | with_reducible apply State.completeFls_canon | simp only [canon_mk, chOk_mk, helOk_mk] | split)

theorem State.cancelDrain_canon (s : State) (m : Nat) (byPin : Bool) (hs : State.Canon s) : State.Canon (State.cancelDrain s m byPin) := by
  unfold State.cancelDrain
  try dsimp only
  repeat' (first | with_reducible assumption | with_reducible apply State.endDrainCmd_canon | with_reducible apply State.settle_canon | with_reducible apply State.abortMoves_canon | with_reducible apply State.setSlot_canon | with_reducible apply State.put_canon | with_reducible apply ite_canon | simp only [canon_mk, chOk_mk, helOk_mk] | intro _ | split)

theorem State.pinCancels_canon (s : State) (o : Obj) (hs : State.Canon s) : State.Canon (State.pinCancels s o) := by
  unfold State.pinCancels
  try dsimp only
  repeat' (first | with_reducible assumption | with_reducible apply State.cancelDrain_canon | with_reducible apply ite_canon | split)

theorem State.readRecordOf_canon (s : State) (a : Nat) (n : Nat) (hs : State.Canon s) : State.Canon (State.readRecordOf s a n).2.2 := by
  unfold State.readRecordOf
  try dsimp only
  repeat' (first | with_reducible assumption | intro _ | with_reducible apply State.read_canon | with_reducible apply State.put_canon | with_reducible refine canon_snd (by with_reducible assumption) ?_ | with_reducible refine canon_snd2 (by with_reducible assumption) ?_ | with_reducible refine canon_snd3 (by with_reducible assumption) ?_ | with_reducible apply ite_canon | with_reducible apply ite_chOk | with_reducible apply ite_helOk | with_reducible apply ite_snd_canon | with_reducible apply ch_ok | with_reducible apply hel_ok | simp only [canon_mk, chOk_mk, helOk_mk] | split)

theorem State.flsFetch_ok {s : State} {src : JobSrc} : ∀ r, s.flsFetch src = some r → State.Canon s → State.Canon r.2.2.2 := by
  intro r he hs
  unfold State.flsFetch at he
  split at he
  · cases he
  split at he
  · split at he
    · cases he
    · obtain rfl := Option.some.inj he
      exact hs
  · generalize (s.ring 3).taken = j at he
    by_cases hc : (s.flag Reg.FLS_CTL_ENABLE && s.jobPosted 3 (s.get Reg.FLS_CTL_JOB_SIG) j) = true
    · rw [if_pos hc] at he
      generalize ringAddr (s.get Reg.FLS_RING_BASE) (s.get Reg.FLS_RING_ENTRIES_M1) 64 j = a at he
      have hr : State.Canon (s.read a 64).2.2 := State.read_canon _ _ _ hs
      obtain rfl := Option.some.inj he
      exact State.takeJob_canon _ _ hr
    · rw [if_neg hc] at he; cases he

theorem State.flsFetch_canon {s t : State} {src : JobSrc} {a : List Nat} {w : Waiter} {d : Bool}
    (he : s.flsFetch src = some (a, w, d, t))
    (hs : State.Canon s) : State.Canon t := State.flsFetch_ok _ he hs

theorem State.runFls_canon (s : State) (src : JobSrc) (op : Nat) (f : State → List Nat → Waiter → State) (hs : State.Canon s) (hf : ∀ x0 x1 x2, State.Canon x0 → State.Canon (f x0 x1 x2)) : State.Canon (State.runFls s src op f) := by
  unfold State.runFls
  try dsimp only
  repeat' (first | with_reducible assumption | intro _ | with_reducible apply State.completeFls_canon | with_reducible apply State.logErr_canon | with_reducible refine State.flsFetch_canon (by with_reducible assumption) ?_ | with_reducible apply hf | with_reducible refine canon_snd (by with_reducible assumption) ?_ | with_reducible refine canon_snd2 (by with_reducible assumption) ?_ | with_reducible refine canon_snd3 (by with_reducible assumption) ?_ | with_reducible apply ite_canon | with_reducible apply ite_chOk | with_reducible apply ite_helOk | with_reducible apply ite_snd_canon | with_reducible apply ch_ok | with_reducible apply hel_ok | simp only [canon_mk, chOk_mk, helOk_mk] | split)

theorem State.flsEnable_canon (s : State) (hs : State.Canon s) : State.Canon (State.flsEnable s) := by
  unfold State.flsEnable
  try dsimp only
  repeat' (first | with_reducible assumption | with_reducible apply State.enableRing_canon | with_reducible apply State.put_canon)

theorem execFlsEnable_canon (s : State) (hs : State.Canon s) : ∀ t, execFlsEnable s = .next t → State.Canon t := by
  intro t ht
  unfold execFlsEnable at ht
  try dsimp only at ht
  injection ht with ht
  subst ht
  try dsimp only
  repeat' (first | with_reducible assumption | intro _ | with_reducible apply State.flsEnable_canon | with_reducible apply Hel.next_canon | with_reducible apply State.hostRaises_canon | with_reducible apply ite_canon | with_reducible apply ite_chOk | with_reducible apply ite_helOk | with_reducible apply ite_snd_canon | with_reducible apply ch_ok | with_reducible apply hel_ok | simp only [canon_mk, chOk_mk, helOk_mk] | split)

theorem State.flsRegister_canon (s : State) (ws : List Nat) (w : Waiter) (hs : State.Canon s) : State.Canon (State.flsRegister s ws w) := by
  unfold State.flsRegister
  try dsimp only
  repeat' (first | with_reducible assumption | with_reducible apply State.pinCancels_canon | with_reducible apply State.settle_canon | with_reducible apply State.completeFls_canon | with_reducible apply State.violGlb_canon | with_reducible apply ite_canon | simp only [canon_mk, chOk_mk, helOk_mk] | intro _ | split)

theorem execRegister_canon (src : JobSrc) (s : State) (hs : State.Canon s) : ∀ t, execRegister src s = .next t → State.Canon t := by
  intro t ht
  unfold execRegister at ht
  injection ht with ht
  subst ht
  try dsimp only
  repeat' (first | with_reducible assumption | with_reducible apply State.flsRegister_canon | with_reducible apply State.runFls_canon | with_reducible apply Hel.next_canon)

theorem State.flsDeregister_canon (s : State) (ws : List Nat) (w : Waiter) (hs : State.Canon s) : State.Canon (State.flsDeregister s ws w) := by
  unfold State.flsDeregister
  try dsimp only
  repeat' (first | with_reducible assumption | with_reducible apply State.settle_canon | with_reducible apply State.abortMoves_canon | with_reducible apply State.completeAll_canon | with_reducible apply State.completeFls_canon | simp only [canon_mk, chOk_mk, helOk_mk] | intro _)

theorem execDeregister_canon (src : JobSrc) (s : State) (hs : State.Canon s) : ∀ t, execDeregister src s = .next t → State.Canon t := by
  intro t ht
  unfold execDeregister at ht
  injection ht with ht
  subst ht
  try dsimp only
  repeat' (first | with_reducible assumption | with_reducible apply State.flsDeregister_canon | with_reducible apply State.runFls_canon | with_reducible apply Hel.next_canon)

theorem State.flsPin_canon (s : State) (ws : List Nat) (w : Waiter) (hs : State.Canon s) : State.Canon (State.flsPin s ws w) := by
  unfold State.flsPin
  try dsimp only
  repeat' (first | with_reducible assumption | with_reducible apply State.pinCancels_canon | with_reducible apply State.settle_canon | with_reducible apply State.abortMoves_canon | with_reducible apply State.completeFls_canon | with_reducible apply State.modObj_canon | with_reducible apply ite_canon | simp only [canon_mk, chOk_mk, helOk_mk] | intro _ | split)

theorem execPin_canon (src : JobSrc) (s : State) (hs : State.Canon s) : ∀ t, execPin src s = .next t → State.Canon t := by
  intro t ht
  unfold execPin at ht
  injection ht with ht
  subst ht
  try dsimp only
  repeat' (first | with_reducible assumption | with_reducible apply State.flsPin_canon | with_reducible apply State.runFls_canon | with_reducible apply Hel.next_canon)

theorem execUnpin_canon (src : JobSrc) (s : State) (hs : State.Canon s) : ∀ t, execUnpin src s = .next t → State.Canon t := by
  intro t ht
  unfold execUnpin at ht
  injection ht with ht
  subst ht
  try dsimp only
  repeat' (first | with_reducible assumption | with_reducible apply State.runFls_canon | with_reducible apply State.settle_canon | with_reducible apply State.completeFls_canon | with_reducible apply State.modObj_canon | with_reducible apply Hel.next_canon | simp only [canon_mk, chOk_mk, helOk_mk] | intro _)

theorem State.flsPrefetch_canon (s : State) (ws : List Nat) (w : Waiter) (hs : State.Canon s) : State.Canon (State.flsPrefetch s ws w) := by
  unfold State.flsPrefetch
  try dsimp only
  repeat' (first | with_reducible assumption | intro _ | with_reducible apply State.settle_canon | with_reducible apply State.abortMoves_canon | with_reducible apply State.prefetchMet_canon | with_reducible apply State.queueMove_canon | with_reducible apply State.modObj_canon | with_reducible apply ite_canon | with_reducible apply ite_chOk | with_reducible apply ite_helOk | with_reducible apply ite_snd_canon | with_reducible apply ch_ok | with_reducible apply hel_ok | simp only [canon_mk, chOk_mk, helOk_mk] | split)

theorem execPrefetch_canon (src : JobSrc) (s : State) (hs : State.Canon s) : ∀ t, execPrefetch src s = .next t → State.Canon t := by
  intro t ht
  unfold execPrefetch at ht
  injection ht with ht
  subst ht
  try dsimp only
  repeat' (first | with_reducible assumption | with_reducible apply State.flsPrefetch_canon | with_reducible apply State.runFls_canon | with_reducible apply Hel.next_canon)

theorem State.flsDemote_canon (s : State) (ws : List Nat) (w : Waiter) (hs : State.Canon s) : State.Canon (State.flsDemote s ws w) := by
  unfold State.flsDemote
  try dsimp only
  repeat' (first | with_reducible assumption | with_reducible apply State.settle_canon | with_reducible apply State.queueDemotion_canon | with_reducible apply State.completeFls_canon | with_reducible apply ite_canon | simp only [canon_mk, chOk_mk, helOk_mk] | intro _ | split)

theorem execDemote_canon (src : JobSrc) (s : State) (hs : State.Canon s) : ∀ t, execDemote src s = .next t → State.Canon t := by
  intro t ht
  unfold execDemote at ht
  injection ht with ht
  subst ht
  try dsimp only
  repeat' (first | with_reducible assumption | with_reducible apply State.flsDemote_canon | with_reducible apply State.runFls_canon | with_reducible apply Hel.next_canon)

theorem State.warmPage_canon (s : State) (p : Nat) (hs : State.Canon s) : State.Canon (State.warmPage s p) := by
  unfold State.warmPage
  try dsimp only
  repeat' (first | with_reducible assumption | intro _ | with_reducible apply State.count_canon | with_reducible apply ite_canon | with_reducible apply ite_chOk | with_reducible apply ite_helOk | with_reducible apply ite_snd_canon | with_reducible apply ch_ok | with_reducible apply hel_ok | simp only [canon_mk, chOk_mk, helOk_mk] | split)

theorem State.releasePage_canon (s : State) (p : Nat) (hs : State.Canon s) : State.Canon (State.releasePage s p) := by
  unfold State.releasePage
  extract_lets gs cached s1 s2
  have h1 : State.Canon s1 := State.warmPage_canon _ _ (foldl_canon (fun _ _ h => State.backInvalidate_canon _ _ _ h) hs)
  have h2 : State.Canon s2 := ⟨memClear_wf h1.1, h1.2⟩
  clear_value s2
  split <;> exact h2

theorem State.flsRelease_canon (s : State) (ws : List Nat) (w : Waiter) (hs : State.Canon s) : State.Canon (State.flsRelease s ws w) := by
  unfold State.flsRelease
  try dsimp only
  repeat' (first | with_reducible assumption | with_reducible apply State.releasePage_canon | with_reducible apply State.settle_canon | with_reducible apply State.completeFls_canon | with_reducible apply State.violGlb_canon | with_reducible apply ite_canon | with_reducible apply foldl_canon | intro _ | split)

theorem execRelease_canon (src : JobSrc) (s : State) (hs : State.Canon s) : ∀ t, execRelease src s = .next t → State.Canon t := by
  intro t ht
  unfold execRelease at ht
  injection ht with ht
  subst ht
  try dsimp only
  repeat' (first | with_reducible assumption | with_reducible apply State.flsRelease_canon | with_reducible apply State.runFls_canon | with_reducible apply Hel.next_canon)

theorem execQuery_canon (src : JobSrc) (s : State) (hs : State.Canon s) : ∀ t, execQuery src s = .next t → State.Canon t := by
  intro t ht
  unfold execQuery at ht
  try dsimp only at ht
  injection ht with ht
  subst ht
  try dsimp only
  repeat' (first | with_reducible assumption | intro _ | with_reducible apply State.runFls_canon | with_reducible apply State.completeFls_canon | with_reducible apply Hel.next_canon | with_reducible apply State.writeLogged_canon | with_reducible apply State.endWork_canon | with_reducible apply ite_canon | with_reducible apply ite_chOk | with_reducible apply ite_helOk | with_reducible apply ite_snd_canon | with_reducible apply ch_ok | with_reducible apply hel_ok | simp only [canon_mk, chOk_mk, helOk_mk] | split)

theorem execDrain_canon (src : JobSrc) (s : State) (hs : State.Canon s) : ∀ t, execDrain src s = .next t → State.Canon t := by
  intro t ht
  unfold execDrain at ht
  injection ht with ht
  subst ht
  try dsimp only
  repeat' (first | with_reducible assumption | with_reducible apply State.runFls_canon | with_reducible apply State.acceptDrain_canon | with_reducible apply State.refuseDrain_canon | with_reducible apply State.completeFls_canon | with_reducible apply Hel.next_canon | with_reducible apply ite_canon | intro _ | split)

theorem execDrainCancel_canon (src : JobSrc) (s : State) (hs : State.Canon s) : ∀ t, execDrainCancel src s = .next t → State.Canon t := by
  intro t ht
  unfold execDrainCancel at ht
  injection ht with ht
  subst ht
  try dsimp only
  repeat' (first | with_reducible assumption | with_reducible apply State.runFls_canon | with_reducible apply State.cancelDrain_canon | with_reducible apply State.completeFls_canon | with_reducible apply Hel.next_canon | with_reducible apply ite_canon | intro _ | split)

theorem State.epochPromote_canon (h : Nat) (a0 : List Obj) (a1 : Int) (a2 : State) (hs : State.Canon a2) : State.Canon (State.epochPromote h a0 a1 a2) := by
  induction a0 generalizing h a1 a2 with
  | nil =>
    unfold State.epochPromote
    try dsimp only
    repeat' (first | with_reducible assumption | with_reducible apply State.queueDemotion_canon | with_reducible apply State.queueMove_canon | with_reducible apply ite_canon | with_reducible apply foldl_canon | intro _ | split | with_reducible apply ih)
  | cons x l ih =>
    unfold State.epochPromote
    try dsimp only
    repeat' (first | with_reducible assumption | with_reducible apply State.queueDemotion_canon | with_reducible apply State.queueMove_canon | with_reducible apply ite_canon | with_reducible apply foldl_canon | intro _ | split | with_reducible apply ih)

theorem State.epochDecide_canon (s : State) (hs : State.Canon s) : State.Canon (State.epochDecide s) := by
  unfold State.epochDecide
  try dsimp only
  repeat' (first | with_reducible assumption | intro _ | with_reducible apply State.epochPromote_canon | with_reducible apply ite_canon | with_reducible apply ite_chOk | with_reducible apply ite_helOk | with_reducible apply ite_snd_canon | with_reducible apply ch_ok | with_reducible apply hel_ok | simp only [canon_mk, chOk_mk, helOk_mk] | split)

theorem execEpochEnd_canon (s : State) (hs : State.Canon s) : ∀ t, execEpochEnd s = .next t → State.Canon t := by
  intro t ht
  unfold execEpochEnd at ht
  try dsimp only at ht
  injection ht with ht
  subst ht
  try dsimp only
  repeat' (first | with_reducible assumption | intro _ | with_reducible apply State.epochDecide_canon | with_reducible apply State.settle_canon | with_reducible apply Hel.next_canon | with_reducible apply ite_canon | with_reducible apply ite_chOk | with_reducible apply ite_helOk | with_reducible apply ite_snd_canon | with_reducible apply ch_ok | with_reducible apply hel_ok | simp only [canon_mk, chOk_mk, helOk_mk] | split)

theorem State.reserve_canon (s : State) (p : Nat) (f : Frame) (hs : State.Canon s) : State.Canon (State.reserve s p f) := by
  unfold State.reserve
  try dsimp only
  repeat' (first | with_reducible assumption | with_reducible apply State.queueMove_canon | simp only [canon_mk, chOk_mk, helOk_mk])

theorem execMoveStart_canon (s : State) (hs : State.Canon s) : ∀ t, execMoveStart s = .next t → State.Canon t := by
  intro t ht
  unfold execMoveStart at ht
  try dsimp only at ht
  injection ht with ht
  subst ht
  try dsimp only
  repeat' (first | with_reducible assumption | intro _ | with_reducible apply State.settle_canon | with_reducible apply Hel.next_canon | with_reducible refine canon_snd (by with_reducible assumption) ?_ | with_reducible refine canon_snd2 (by with_reducible assumption) ?_ | with_reducible refine canon_snd3 (by with_reducible assumption) ?_ | with_reducible apply ite_canon | with_reducible apply ite_chOk | with_reducible apply ite_helOk | with_reducible apply ite_snd_canon | with_reducible apply ch_ok | with_reducible apply hel_ok | simp only [canon_mk, chOk_mk, helOk_mk] | split)

theorem State.switchPage_canon (s : State) (e : Nat × Frame) (hs : State.Canon s) : State.Canon (State.switchPage s e) := by
  unfold State.switchPage
  try dsimp only
  repeat' (first | with_reducible assumption | with_reducible apply State.count_canon | with_reducible apply ite_canon | simp only [canon_mk, chOk_mk, helOk_mk] | split)

theorem State.reEvict_canon (s : State) (id : Nat) (hs : State.Canon s) : State.Canon (State.reEvict s id) := by
  unfold State.reEvict
  try dsimp only
  repeat' (first | with_reducible assumption | with_reducible apply State.queueDemotion_canon | with_reducible apply ite_canon | intro _ | split)

theorem State.lateOnes_canon (s : State) (m : Move) (hs : State.Canon s) : State.Canon (State.lateOnes s m) := by
  unfold State.lateOnes
  try dsimp only
  repeat' (first | with_reducible assumption | with_reducible apply State.completeFls_canon | with_reducible apply State.count_canon | with_reducible apply foldl_canon | intro _)

theorem State.switchMove_canon (s : State) (m : Move) (hs : State.Canon s) : State.Canon (State.switchMove s m) := by
  unfold State.switchMove
  try dsimp only
  repeat' (first | with_reducible assumption | intro _ | with_reducible apply State.lateOnes_canon | with_reducible apply State.reEvict_canon | with_reducible apply State.switchPage_canon | with_reducible apply State.prefetchMet_canon | with_reducible apply State.completeAll_canon | with_reducible apply State.modObj_canon | with_reducible apply ite_canon | with_reducible apply ite_chOk | with_reducible apply ite_helOk | with_reducible apply ite_snd_canon | with_reducible apply foldl_canon | with_reducible apply foldl_memwf | with_reducible apply ch_ok | with_reducible apply hel_ok | simp only [canon_mk, chOk_mk, helOk_mk] | split)

theorem execMoveSwitch_canon (k : Fin 8) (s : State) (hs : State.Canon s) : ∀ t, execMoveSwitch k s = .next t → State.Canon t := by
  intro t ht
  unfold execMoveSwitch at ht
  injection ht with ht
  subst ht
  try dsimp only
  repeat' (first | with_reducible assumption | with_reducible apply State.switchMove_canon | with_reducible apply State.settle_canon | with_reducible apply Hel.next_canon | with_reducible apply ite_canon | split)

theorem execPrefetchLate_canon (obj : BitVec 16) (s : State) (hs : State.Canon s) : ∀ t, execPrefetchLate obj s = .next t → State.Canon t := by
  intro t ht
  unfold execPrefetchLate at ht
  injection ht with ht
  subst ht
  try dsimp only
  repeat' (first | with_reducible assumption | with_reducible apply State.lateOnes_canon | with_reducible apply Hel.next_canon | with_reducible apply ite_canon | with_reducible apply foldl_canon | simp only [canon_mk, chOk_mk, helOk_mk] | intro _ | split)

theorem execWantedExpire_canon (obj : BitVec 16) (s : State) (hs : State.Canon s) : ∀ t, execWantedExpire obj s = .next t → State.Canon t := by
  intro t ht
  unfold execWantedExpire at ht
  injection ht with ht
  subst ht
  try dsimp only
  repeat' (first | with_reducible assumption | with_reducible apply State.settle_canon | with_reducible apply State.modObj_canon | with_reducible apply Hel.next_canon | with_reducible apply ite_canon | simp only [canon_mk, chOk_mk, helOk_mk] | intro _ | split)

theorem execDrainComplete_canon (s : State) (hs : State.Canon s) : ∀ t, execDrainComplete s = .next t → State.Canon t := by
  intro t ht
  unfold execDrainComplete at ht
  injection ht with ht
  subst ht
  try dsimp only
  repeat' (first | with_reducible assumption | with_reducible apply State.endDrainCmd_canon | with_reducible apply State.settle_canon | with_reducible apply State.setSlot_canon | with_reducible apply Hel.next_canon | with_reducible apply ite_canon | split)

theorem State.losePage_canon (s : State) (p : Nat) (hs : State.Canon s) : State.Canon (State.losePage s p) := by
  unfold State.losePage
  try dsimp only
  repeat' (first | with_reducible assumption | with_reducible apply State.poisonAt_canon | with_reducible apply foldl_canon | simp only [canon_mk, chOk_mk, helOk_mk] | intro _)

theorem State.logLoss_canon (s : State) (objs : List Obj) (lone : List Nat) (hs : State.Canon s) : State.Canon (State.logLoss s objs lone) := by
  unfold State.logLoss
  try dsimp only
  repeat' (first | with_reducible assumption | with_reducible apply State.logErr_canon | with_reducible apply ite_canon | with_reducible apply foldl_canon | simp only [canon_mk, chOk_mk, helOk_mk] | intro _ | split)

theorem State.loseCartridge_canon (s : State) (m : Nat) (hs : State.Canon s) : State.Canon (State.loseCartridge s m) := by
  unfold State.loseCartridge
  try dsimp only
  repeat' (first | with_reducible assumption | with_reducible apply State.logLoss_canon | with_reducible apply State.losePage_canon | with_reducible apply State.switchMove_canon | with_reducible apply State.endDrainCmd_canon | with_reducible apply State.settle_canon | with_reducible apply State.abortMoves_canon | with_reducible apply State.setSlot_canon | with_reducible apply State.countSat_canon | with_reducible apply ite_canon | with_reducible apply foldl_canon | intro _ | split)

theorem execCartridgeFailure_canon (m : Fin 6) (s : State) (hs : State.Canon s) : ∀ t, execCartridgeFailure m s = .next t → State.Canon t := by
  intro t ht
  unfold execCartridgeFailure at ht
  injection ht with ht
  subst ht
  try dsimp only
  repeat' (first | with_reducible assumption | with_reducible apply State.loseCartridge_canon | with_reducible apply Hel.next_canon | with_reducible apply ite_canon | split)

end Sys2Proof.Machine
end

