-- ==== Sys2Proof/Laws/KeepChamber.lean ====
section
/-! SUPPORT. Every operation of these modules keeps the memories canonical: Operands, Issue, StoreUnit, Async, Expander, Matrix, ChamberCtl, Control, Scalar, Load, MSlot, Vector, Store. -/

namespace Sys2Proof.Machine

open Sys2Proof

/-! ## Operands -/

theorem Chamber.setS_canon (c : Chamber) (i : BitVec 5) (x : Word) (hc : c.Ok) : (Chamber.setS c i x).Ok := by
  unfold Chamber.setS
  try dsimp only
  repeat' (first | with_reducible assumption | simp only [chOk_mk, helOk_mk])

theorem Chamber.setV_canon (c : Chamber) (i : BitVec 5) (x : Lanes) (hc : c.Ok) : (Chamber.setV c i x).Ok := by
  unfold Chamber.setV
  try dsimp only
  repeat' (first | with_reducible assumption | simp only [chOk_mk, helOk_mk])

theorem Chamber.setD_canon (c : Chamber) (i : BitVec 4) (x : BitVec 1024) (hc : c.Ok) : (Chamber.setD c i x).Ok := by
  unfold Chamber.setD
  try dsimp only
  repeat' (first | with_reducible assumption | simp only [chOk_mk, helOk_mk])

theorem Chamber.setP_canon (c : Chamber) (i : BitVec 3) (b : Bool) (hc : c.Ok) : (Chamber.setP c i b).Ok := by
  unfold Chamber.setP
  try dsimp only
  repeat' (first | with_reducible assumption | simp only [chOk_mk, helOk_mk] | split)

theorem localPut_canon (d : BitVec 1024) (m : Memory) (la : Nat) (p : Nat) (x : Nat) (hm : m.wf = true) : (localPut d m la p x).wf = true := by
  unfold localPut
  try dsimp only
  repeat' (first | with_reducible assumption | intro _ | with_reducible refine canon_snd (by with_reducible assumption) ?_ | with_reducible refine canon_snd2 (by with_reducible assumption) ?_ | with_reducible refine canon_snd3 (by with_reducible assumption) ?_ | with_reducible apply ite_canon | with_reducible apply ite_chOk | with_reducible apply ite_helOk | with_reducible apply ite_snd_canon | with_reducible apply ch_ok | with_reducible apply hel_ok | with_reducible apply memWrite_wf | with_reducible apply memSet_wf | with_reducible apply lmem_wf | with_reducible apply bmem_wf | with_reducible apply mem_wf | with_reducible apply canon_lit | simp only [canon_mk, chOk_mk, helOk_mk] | with_reducible apply chOk_lit | split)

theorem State.countRegion_canon (s : State) (n : Nat) (r : Region) (x : Nat) (hs : State.Canon s) : State.Canon (State.countRegion s n r x) := by
  unfold State.countRegion
  try dsimp only
  repeat' (first | with_reducible assumption | with_reducible apply State.violCh_canon | split)

theorem State.chGranule_canon (s : State) (n : Nat) (x : Nat) (hs : State.Canon s) : State.Canon (State.chGranule s n x).2.2.2 := by
  unfold State.chGranule
  try dsimp only
  repeat' (first | with_reducible assumption | with_reducible apply State.countRegion_canon | with_reducible apply State.readIn_canon | split)

theorem State.chReadFuel_canon  (a0 : Nat) (a1 : State) (a2 : Nat) (a3 : Nat) (a4 : Nat) (hs : State.Canon a1) : State.Canon (State.chReadFuel  a0 a1 a2 a3 a4).2.2.2 := by
  induction a0 generalizing a1 a2 a3 a4 with
  | zero =>
    unfold State.chReadFuel
    try dsimp only
    repeat' (first | with_reducible assumption | with_reducible apply State.chGranule_canon | with_reducible apply ite_canon | split | with_reducible apply ih)
  | succ x ih =>
    unfold State.chReadFuel
    try dsimp only
    repeat' (first | with_reducible assumption | with_reducible apply State.chGranule_canon | with_reducible apply ite_canon | split | with_reducible apply ih)

theorem State.chRead_canon (s : State) (n : Nat) (x : Nat) (len : Nat) (hs : State.Canon s) : State.Canon (State.chRead s n x len).2.2.2 := by
  unfold State.chRead
  try dsimp only
  repeat' (first | with_reducible assumption | with_reducible apply State.chReadFuel_canon)

theorem State.chWriteFuel_canon  (a0 : Nat) (a1 : State) (a2 : Nat) (a3 : Nat) (a4 : List Byte) (hs : State.Canon a1) : State.Canon (State.chWriteFuel  a0 a1 a2 a3 a4) := by
  induction a0 generalizing a1 a2 a3 a4 with
  | zero =>
    unfold State.chWriteFuel
    try dsimp only
    repeat' (first | with_reducible assumption | with_reducible apply State.countRegion_canon | with_reducible apply State.writeLogged_canon | with_reducible apply ite_canon | split | with_reducible apply ih)
  | succ x ih =>
    unfold State.chWriteFuel
    try dsimp only
    repeat' (first | with_reducible assumption | with_reducible apply State.countRegion_canon | with_reducible apply State.writeLogged_canon | with_reducible apply ite_canon | split | with_reducible apply ih)

theorem State.chWrite_canon (s : State) (n : Nat) (x : Nat) (bs : List Byte) (hs : State.Canon s) : State.Canon (State.chWrite s n x bs) := by
  unfold State.chWrite
  try dsimp only
  repeat' (first | with_reducible assumption | with_reducible apply State.chWriteFuel_canon)

/-! ## Issue -/

theorem Chamber.recordHalt_canon (c : Chamber) (h : HaltRec) (hc : c.Ok) : (Chamber.recordHalt c h).Ok := by
  unfold Chamber.recordHalt
  try dsimp only
  repeat' (first | with_reducible assumption | simp only [chOk_mk, helOk_mk] | split)

theorem State.halt_canon (s : State) (n : Nat) (h : HaltRec) (hs : State.Canon s) : State.Canon (State.halt s n h) := by
  unfold State.halt
  try dsimp only
  repeat' (first | with_reducible assumption | with_reducible apply Chamber.recordHalt_canon | with_reducible apply modCh_ok | with_reducible apply setCh_ok | with_reducible apply ch_ok | intro _)

theorem State.fail_canon (s : State) (n : Nat) (cause : Nat) (pc : Nat) (tag : Nat) (addr : Nat) (hs : State.Canon s) : State.Canon (State.fail s n cause pc tag addr) := by
  unfold State.fail
  try dsimp only
  repeat' (first | with_reducible assumption | with_reducible apply State.halt_canon | simp only [canon_mk, chOk_mk, helOk_mk])

theorem State.raise_canon (s : State) (n : Nat) (pc : Nat) (tag : Nat) (f : Flags) (hs : State.Canon s) : State.Canon (State.raise s n pc tag f) := by
  unfold State.raise
  try dsimp only
  repeat' (first | with_reducible assumption | with_reducible apply State.fail_canon | with_reducible apply State.put_canon | with_reducible apply ite_canon | split)

theorem State.upset_canon (s : State) (n : Nat) (pc : Nat) (tag : Nat) (u : Upset) (hs : State.Canon s) : State.Canon (State.upset s n pc tag u) := by
  unfold State.upset
  try dsimp only
  repeat' (first | with_reducible assumption | intro _ | with_reducible apply State.fail_canon | with_reducible apply State.puts_canon | with_reducible apply State.countSat_canon | with_reducible apply State.put_canon | with_reducible apply ite_canon | with_reducible apply ite_chOk | with_reducible apply ite_helOk | with_reducible apply ite_snd_canon | with_reducible apply setCh_ok | with_reducible apply ch_ok | with_reducible apply hel_ok | simp only [canon_mk, chOk_mk, helOk_mk] | split)

theorem State.upsets_canon (s : State) (n : Nat) (pc : Nat) (tag : Nat) (a0 : List Upset) (hs : State.Canon s) : State.Canon (State.upsets s n pc tag a0) := by
  induction a0 generalizing s n pc tag with
  | nil =>
    unfold State.upsets
    try dsimp only
    repeat' (first | with_reducible assumption | intro _ | with_reducible apply State.upset_canon | with_reducible apply ite_canon | with_reducible apply ite_chOk | with_reducible apply ite_helOk | with_reducible apply ite_snd_canon | with_reducible apply ch_ok | with_reducible apply hel_ok | simp only [canon_mk, chOk_mk, helOk_mk] | split)
  | cons x l ih =>
    unfold State.upsets
    try dsimp only
    repeat' (first | with_reducible assumption | intro _ | with_reducible apply ih | with_reducible apply State.upset_canon | with_reducible apply ite_canon | with_reducible apply ite_chOk | with_reducible apply ite_helOk | with_reducible apply ite_snd_canon | with_reducible apply ch_ok | with_reducible apply hel_ok | simp only [canon_mk, chOk_mk, helOk_mk] | split)

theorem State.accUpset_canon (s : State) (n : Nat) (pc : Nat) (tag : Nat) (u : AccUpset) (hs : State.Canon s) : State.Canon (State.accUpset s n pc tag u) := by
  unfold State.accUpset
  try dsimp only
  repeat' (first | with_reducible assumption | intro _ | with_reducible apply State.fail_canon | with_reducible apply State.puts_canon | with_reducible apply State.countSat_canon | with_reducible apply ite_canon | with_reducible apply ite_chOk | with_reducible apply ite_helOk | with_reducible apply ite_snd_canon | with_reducible apply ch_ok | with_reducible apply hel_ok | simp only [canon_mk, chOk_mk, helOk_mk] | split)

theorem State.accUpsets_canon (s : State) (n : Nat) (pc : Nat) (tag : Nat) (a0 : List AccUpset) (hs : State.Canon s) : State.Canon (State.accUpsets s n pc tag a0) := by
  induction a0 generalizing s n pc tag with
  | nil =>
    unfold State.accUpsets
    try dsimp only
    repeat' (first | with_reducible assumption | intro _ | with_reducible apply State.accUpset_canon | with_reducible apply ite_canon | with_reducible apply ite_chOk | with_reducible apply ite_helOk | with_reducible apply ite_snd_canon | with_reducible apply ch_ok | with_reducible apply hel_ok | simp only [canon_mk, chOk_mk, helOk_mk] | split)
  | cons x l ih =>
    unfold State.accUpsets
    try dsimp only
    repeat' (first | with_reducible assumption | intro _ | with_reducible apply ih | with_reducible apply State.accUpset_canon | with_reducible apply ite_canon | with_reducible apply ite_chOk | with_reducible apply ite_helOk | with_reducible apply ite_snd_canon | with_reducible apply ch_ok | with_reducible apply hel_ok | simp only [canon_mk, chOk_mk, helOk_mk] | split)

theorem State.postTo_canon (s : State) (dev : Nat) (cc : Nat) (sig : Nat) (set : Bool) (v : Word) (hs : State.Canon s) : State.Canon (State.postTo s dev cc sig set v) := by
  unfold State.postTo
  try dsimp only
  repeat' (first | with_reducible assumption | with_reducible apply State.send_canon | with_reducible apply State.postSig_canon | with_reducible apply ite_canon | simp only [canon_mk, chOk_mk, helOk_mk] | split)

theorem State.releasePosts_canon (s : State) (n : Nat) (a0 : List HeldPost) (hs : State.Canon s) : State.Canon (State.releasePosts s n a0) := by
  induction a0 generalizing s n with
  | nil =>
    unfold State.releasePosts
    try dsimp only
    repeat' (first | with_reducible assumption | with_reducible apply State.postTo_canon | with_reducible apply ite_canon | with_reducible apply modCh_ok | with_reducible apply setCh_ok | with_reducible apply ch_ok | simp only [canon_mk, chOk_mk, helOk_mk] | intro _ | split | with_reducible apply ih)
  | cons x l ih =>
    unfold State.releasePosts
    try dsimp only
    repeat' (first | with_reducible assumption | with_reducible apply State.postTo_canon | with_reducible apply ite_canon | with_reducible apply modCh_ok | with_reducible apply setCh_ok | with_reducible apply ch_ok | simp only [canon_mk, chOk_mk, helOk_mk] | intro _ | split | with_reducible apply ih)

theorem State.tryPosts_canon (s : State) (n : Nat) (hs : State.Canon s) : State.Canon (State.tryPosts s n) := by
  unfold State.tryPosts
  try dsimp only
  repeat' (first | with_reducible assumption | with_reducible apply State.releasePosts_canon)

theorem Chamber.doS_canon (c : Chamber) (c0 : Chamber) (op : BitVec 8) (o : SOps) (cyc : Word) (hc : c.Ok) (hc0 : c0.Ok) : (Chamber.doS c c0 op o cyc).Ok := by
  unfold Chamber.doS
  try dsimp only
  repeat' (first | with_reducible assumption | with_reducible apply Chamber.setD_canon | with_reducible apply Chamber.setS_canon | with_reducible apply Chamber.setP_canon | split)

theorem Chamber.doL_canon (c : Chamber) (c0 : Chamber) (pc : Nat) (op : BitVec 8) (o : LOps) (tableOk : Bool) (hc : c.Ok) (hc0 : c0.Ok) : (Chamber.doL c c0 pc op o tableOk).Ok := by
  unfold Chamber.doL
  try dsimp only
  repeat' (first | with_reducible assumption | with_reducible apply Hel.setV_canon | with_reducible apply Chamber.setD_canon | with_reducible apply Chamber.setS_canon | with_reducible apply Chamber.setV_canon | simp only [chOk_mk, helOk_mk] | split)

theorem Chamber.doV_canon (c : Chamber) (c0 : Chamber) (op : BitVec 8) (o : VOps) (hc : c.Ok) (hc0 : c0.Ok) : (Chamber.doV c c0 op o).1.Ok := by
  unfold Chamber.doV
  try dsimp only
  repeat' (first | with_reducible assumption | with_reducible apply Hel.setV_canon | with_reducible apply Chamber.setV_canon | simp only [chOk_mk, helOk_mk] | split)

theorem Chamber.doT_canon (c : Chamber) (c0 : Chamber) (pc : Nat) (op : BitVec 8) (o : TOps) (hc : c.Ok) (hc0 : c0.Ok) : (Chamber.doT c c0 pc op o).Ok := by
  unfold Chamber.doT
  try dsimp only
  repeat' (first | with_reducible assumption | intro _ | with_reducible apply ite_chOk | with_reducible apply ite_helOk | with_reducible exact chReset_ok | simp only [chOk_mk, helOk_mk] | split | with_reducible apply chOk_lit | with_reducible apply helOk_lit | with_reducible apply memWrite_wf | with_reducible apply memSet_wf | with_reducible apply memClear_wf | with_reducible apply lmem_wf | with_reducible apply bmem_wf | with_reducible apply scratch_wf)

theorem Chamber.doC_canon (c : Chamber) (c0 : Chamber) (pc : Nat) (op : BitVec 8) (o : COps) (hc : c.Ok) (hc0 : c0.Ok) : (Chamber.doC c c0 pc op o).Ok := by
  unfold Chamber.doC
  try dsimp only
  repeat' (first | with_reducible assumption | simp only [chOk_mk, helOk_mk] | split)

theorem Chamber.doBundle_canon (c0 : Chamber) (pc : Nat) (b : Bundle) (v : Live) (cyc : Word) (tableOk : Bool) (hc0 : c0.Ok) : (Chamber.doBundle c0 pc b v cyc tableOk).1.Ok := by
  unfold Chamber.doBundle
  try dsimp only
  repeat' (first | with_reducible assumption | with_reducible apply Chamber.doS_canon | with_reducible apply Chamber.doT_canon | with_reducible apply Chamber.doL_canon | with_reducible apply Chamber.doV_canon | with_reducible apply Chamber.doC_canon | simp only [chOk_mk, helOk_mk] | split)

theorem State.beginLoad_canon (s : State) (n : Nat) (o : LOps) (d : BitVec 1024) (hs : State.Canon s) : State.Canon (State.beginLoad s n o d) := by
  unfold State.beginLoad
  try dsimp only
  repeat' (first | with_reducible assumption | with_reducible apply State.puts_canon | with_reducible apply State.put_canon | with_reducible apply ite_canon | with_reducible apply modCh_ok | with_reducible apply setCh_ok | with_reducible apply ch_ok | simp only [canon_mk, chOk_mk, helOk_mk] | intro _ | split)

theorem State.takeBundle_canon (s : State) (n : Nat) (b : Bundle) (v : Live) (hs : State.Canon s) : State.Canon (State.takeBundle s n b v) := by
  unfold State.takeBundle
  try dsimp only
  repeat' (first | with_reducible assumption | with_reducible apply State.beginLoad_canon | with_reducible apply Chamber.doBundle_canon | with_reducible apply State.tryPosts_canon | with_reducible apply State.raise_canon | with_reducible apply State.halt_canon | with_reducible apply State.puts_canon | with_reducible apply ite_canon | with_reducible apply modCh_ok | with_reducible apply setCh_ok | with_reducible apply ch_ok | simp only [canon_mk, chOk_mk, helOk_mk] | split)

theorem State.fetchUpsets_canon (s : State) (n : Nat) (pc : Nat) (i : Issue) (hs : State.Canon s) : State.Canon (State.fetchUpsets s n pc i) := by
  unfold State.fetchUpsets
  try dsimp only
  repeat' (first | with_reducible assumption | intro _ | with_reducible apply State.upsets_canon | with_reducible apply ite_canon | with_reducible apply ite_chOk | with_reducible apply ite_helOk | with_reducible apply ite_snd_canon | with_reducible apply ch_ok | with_reducible apply hel_ok | simp only [canon_mk, chOk_mk, helOk_mk] | split)

theorem State.runBundle_canon (s : State) (n : Nat) (i : Issue) (hs : State.Canon s) : State.Canon (State.runBundle s n i) := by
  unfold State.runBundle
  try dsimp only
  repeat' (first | with_reducible assumption | intro _ | with_reducible apply State.takeBundle_canon | with_reducible apply State.accUpsets_canon | with_reducible apply State.upsets_canon | with_reducible apply ite_canon | with_reducible apply ite_chOk | with_reducible apply ite_helOk | with_reducible apply ite_snd_canon | with_reducible apply ch_ok | with_reducible apply hel_ok | simp only [canon_mk, chOk_mk, helOk_mk] | split)

theorem State.issueFetched_canon (s : State) (n : Nat) (i : Issue) (hs : State.Canon s) : State.Canon (State.issueFetched s n i) := by
  unfold State.issueFetched
  try dsimp only
  repeat' (first | with_reducible assumption | intro _ | with_reducible apply State.runBundle_canon | with_reducible apply State.halt_canon | with_reducible apply Hel.next_canon | with_reducible apply State.put_canon | with_reducible refine canon_snd (by with_reducible assumption) ?_ | with_reducible refine canon_snd2 (by with_reducible assumption) ?_ | with_reducible refine canon_snd3 (by with_reducible assumption) ?_ | with_reducible apply ite_canon | with_reducible apply ite_chOk | with_reducible apply ite_helOk | with_reducible apply ite_snd_canon | with_reducible apply modCh_ok | with_reducible apply setCh_ok | with_reducible apply ch_ok | with_reducible apply hel_ok | simp only [canon_mk, chOk_mk, helOk_mk] | split)

theorem State.issue_canon (s : State) (n : Nat) (i : Issue) (hs : State.Canon s) : State.Canon (State.issue s n i) := by
  unfold State.issue
  try dsimp only
  repeat' (first | with_reducible assumption | intro _ | with_reducible apply State.issueFetched_canon | with_reducible apply State.fetchUpsets_canon | with_reducible apply State.upsets_canon | with_reducible apply ite_canon | with_reducible apply ite_chOk | with_reducible apply ite_helOk | with_reducible apply ite_snd_canon | with_reducible apply ch_ok | with_reducible apply hel_ok | simp only [canon_mk, chOk_mk, helOk_mk] | split)

/-! ## StoreUnit -/

theorem memWrites_canon (m : Memory) (ws : List (Nat × List Byte)) (hm : m.wf = true) : (memWrites m ws).wf = true := by
  unfold memWrites
  try dsimp only
  repeat' (first | with_reducible assumption | intro _ | with_reducible apply ite_canon | with_reducible apply ite_chOk | with_reducible apply ite_helOk | with_reducible apply ite_snd_canon | with_reducible apply foldl_canon | with_reducible apply foldl_memwf | with_reducible apply ch_ok | with_reducible apply hel_ok | with_reducible apply memWrite_wf | with_reducible apply lmem_wf | with_reducible apply bmem_wf | with_reducible apply mem_wf | with_reducible apply canon_lit | simp only [canon_mk, chOk_mk, helOk_mk] | with_reducible apply chOk_lit | split)

/-! ## Async -/

theorem State.listGranules_canon (s : State) (n : Nat) (x : Nat) (a0 : Nat) (hs : State.Canon s) : State.Canon (State.listGranules s n x a0).2 := by
  induction a0 generalizing s n x with
  | zero =>
    unfold State.listGranules
    try dsimp only
    repeat' (first | with_reducible assumption | with_reducible apply State.chGranule_canon | with_reducible apply ih)
  | succ x ih =>
    unfold State.listGranules
    try dsimp only
    repeat' (first | with_reducible assumption | with_reducible apply State.chGranule_canon | with_reducible apply ih)

theorem State.readList_canon (s : State) (n : Nat) (o : AsyncOp) (hs : State.Canon s) : State.Canon (State.readList s n o).2 := by
  unfold State.readList
  try dsimp only
  repeat' (first | with_reducible assumption | intro _ | with_reducible apply State.listGranules_canon | with_reducible apply State.fail_canon | with_reducible apply State.violCh_canon | with_reducible apply State.count_canon | with_reducible refine canon_snd (by with_reducible assumption) ?_ | with_reducible refine canon_snd2 (by with_reducible assumption) ?_ | with_reducible refine canon_snd3 (by with_reducible assumption) ?_ | with_reducible apply ite_canon | with_reducible apply ite_chOk | with_reducible apply ite_helOk | with_reducible apply ite_snd_canon | with_reducible apply setCh_ok | with_reducible apply ch_ok | with_reducible apply hel_ok | simp only [canon_mk, chOk_mk, helOk_mk] | split)

theorem State.beginOp_canon (s : State) (n : Nat) (o : AsyncOp) (hs : State.Canon s) : State.Canon (State.beginOp s n o).2 := by
  unfold State.beginOp
  try dsimp only
  repeat' (first | with_reducible assumption | intro _ | with_reducible apply State.readList_canon | with_reducible apply State.violCh_canon | with_reducible apply State.count_canon | with_reducible apply ite_canon | with_reducible apply ite_chOk | with_reducible apply ite_helOk | with_reducible apply ite_snd_canon | with_reducible apply setCh_ok | with_reducible apply ch_ok | with_reducible apply hel_ok | simp only [canon_mk, chOk_mk, helOk_mk] | split)

theorem State.flushLines_canon (s : State) (n : Nat) (o : AsyncOp) (q : Nat) (hs : State.Canon s) : State.Canon (State.flushLines s n o q).2 := by
  unfold State.flushLines
  try dsimp only
  repeat' (first | with_reducible assumption | intro _ | with_reducible apply localPut_canon | with_reducible apply ite_canon | with_reducible apply ite_chOk | with_reducible apply ite_helOk | with_reducible apply ite_snd_canon | with_reducible apply foldl_canon | with_reducible apply foldl_memwf | with_reducible apply modCh_ok | with_reducible apply setCh_ok | with_reducible apply ch_ok | with_reducible apply hel_ok | with_reducible apply localPut_wf | with_reducible apply lmem_wf | with_reducible apply bmem_wf | with_reducible apply mem_wf | with_reducible apply canon_lit | simp only [canon_mk, chOk_mk, helOk_mk] | with_reducible apply chOk_lit | split)

theorem State.mayWrite_canon (s : State) (a : Nat) (whole : Bool) (hs : State.Canon s) : State.Canon (State.mayWrite s a whole).2 := by
  unfold State.mayWrite
  try dsimp only
  repeat' (first | with_reducible assumption | with_reducible apply State.askLines_canon | with_reducible apply State.noteWaiting_canon | with_reducible apply ite_canon | split)

theorem State.storeFlags_canon (s : State) (n : Nat) (o : AsyncOp) (f : Flags) (hs : State.Canon s) : State.Canon (State.storeFlags s n o f) := by
  unfold State.storeFlags
  try dsimp only
  repeat' (first | with_reducible assumption | with_reducible apply State.raise_canon | with_reducible apply ite_canon | simp only [canon_mk, chOk_mk, helOk_mk] | split)

theorem State.sendStore_canon (s : State) (n : Nat) (o : AsyncOp) (pad : Bool) (ps : List Nat) (hs : State.Canon s) : State.Canon (State.sendStore s n o pad ps).2.2 := by
  unfold State.sendStore
  try dsimp only
  repeat' (first | with_reducible assumption | intro _ | with_reducible apply State.storeFlags_canon | with_reducible apply State.mayWrite_canon | with_reducible apply State.raise_canon | with_reducible apply State.fail_canon | with_reducible apply State.countRegion_canon | with_reducible apply State.gotFrame_canon | with_reducible apply State.waitFrame_canon | with_reducible apply State.mergeIn_canon | with_reducible apply State.count_canon | with_reducible refine canon_snd (by with_reducible assumption) ?_ | with_reducible refine canon_snd2 (by with_reducible assumption) ?_ | with_reducible refine canon_snd3 (by with_reducible assumption) ?_ | with_reducible apply ite_canon | with_reducible apply ite_chOk | with_reducible apply ite_helOk | with_reducible apply ite_snd_canon | with_reducible apply foldl_canon | with_reducible apply foldl_memwf | with_reducible apply ch_ok | with_reducible apply hel_ok | with_reducible apply lmem_wf | with_reducible apply bmem_wf | with_reducible apply mem_wf | with_reducible apply canon_lit | simp only [canon_mk, chOk_mk, helOk_mk] | with_reducible apply chOk_lit | split)

theorem State.arrive_canon (s : State) (n : Nat) (source : Nat) (a : Nat) (r : Arrival) (hs : State.Canon s) : State.Canon (State.arrive s n source a r).2.2 := by
  unfold State.arrive
  try dsimp only
  repeat' (first | with_reducible assumption | intro _ | with_reducible apply State.readIn_canon | with_reducible apply State.logErr_canon | with_reducible refine canon_snd (by with_reducible assumption) ?_ | with_reducible refine canon_snd2 (by with_reducible assumption) ?_ | with_reducible refine canon_snd3 (by with_reducible assumption) ?_ | with_reducible apply ite_canon | with_reducible apply ite_chOk | with_reducible apply ite_helOk | with_reducible apply ite_snd_canon | with_reducible apply ch_ok | with_reducible apply hel_ok | simp only [canon_mk, chOk_mk, helOk_mk] | split)

theorem State.sendLoad_canon (s : State) (n : Nat) (o : AsyncOp) (ps : List Nat) (r : Arrival) (hs : State.Canon s) : State.Canon (State.sendLoad s n o ps r).2.2 := by
  unfold State.sendLoad
  try dsimp only
  repeat' (first | with_reducible assumption | intro _ | with_reducible apply State.arrive_canon | with_reducible apply State.fail_canon | with_reducible apply State.countRegion_canon | with_reducible apply State.noteWaiting_canon | with_reducible refine canon_snd (by with_reducible assumption) ?_ | with_reducible refine canon_snd2 (by with_reducible assumption) ?_ | with_reducible refine canon_snd3 (by with_reducible assumption) ?_ | with_reducible apply ite_canon | with_reducible apply ite_chOk | with_reducible apply ite_helOk | with_reducible apply ite_snd_canon | with_reducible apply ch_ok | with_reducible apply hel_ok | simp only [canon_mk, chOk_mk, helOk_mk] | split)

theorem State.recordFails_canon (s : State) (n : Nat) (o : AsyncOp) (row : Nat) (found : Nat) (expected : Nat) (hs : State.Canon s) : State.Canon (State.recordFails s n o row found expected) := by
  unfold State.recordFails
  try dsimp only
  repeat' (first | with_reducible assumption | intro _ | with_reducible apply State.halt_canon | with_reducible apply ite_canon | with_reducible apply ite_chOk | with_reducible apply ite_helOk | with_reducible apply ite_snd_canon | with_reducible apply ch_ok | with_reducible apply hel_ok | simp only [canon_mk, chOk_mk, helOk_mk] | split)

theorem State.readRecord_canon (s : State) (n : Nat) (o : AsyncOp) (arr : Arrival) (hs : State.Canon s) : State.Canon (State.readRecord s n o arr).2.2 := by
  unfold State.readRecord
  try dsimp only
  repeat' (first | with_reducible assumption | intro _ | with_reducible apply State.recordFails_canon | with_reducible apply State.arrive_canon | with_reducible apply State.countRegion_canon | with_reducible apply State.noteWaiting_canon | with_reducible apply State.count_canon | with_reducible refine canon_snd (by with_reducible assumption) ?_ | with_reducible refine canon_snd2 (by with_reducible assumption) ?_ | with_reducible refine canon_snd3 (by with_reducible assumption) ?_ | with_reducible apply ite_canon | with_reducible apply ite_chOk | with_reducible apply ite_helOk | with_reducible apply ite_snd_canon | with_reducible apply ch_ok | with_reducible apply hel_ok | simp only [canon_mk, chOk_mk, helOk_mk] | split)

theorem State.liveCh_canon (s : State) (n : Nat) (hs : State.Canon s) : (State.liveCh s n).Ok := by
  unfold State.liveCh
  try dsimp only
  repeat' (first | with_reducible assumption | intro _ | with_reducible apply ite_canon | with_reducible apply ite_chOk | with_reducible apply ite_helOk | with_reducible apply ite_snd_canon | with_reducible apply ch_ok | with_reducible apply hel_ok | simp only [canon_mk, chOk_mk, helOk_mk] | split)

theorem State.endPass_canon (s : State) (n : Nat) (o : AsyncOp) (hs : State.Canon s) : State.Canon (State.endPass s n o).2 := by
  unfold State.endPass
  try dsimp only
  repeat' (first | with_reducible assumption | intro _ | with_reducible apply State.raise_canon | with_reducible refine canon_snd (by with_reducible assumption) ?_ | with_reducible refine canon_snd2 (by with_reducible assumption) ?_ | with_reducible refine canon_snd3 (by with_reducible assumption) ?_ | with_reducible apply ite_canon | with_reducible apply ite_chOk | with_reducible apply ite_helOk | with_reducible apply ite_snd_canon | with_reducible apply ch_ok | with_reducible apply hel_ok | simp only [canon_mk, chOk_mk, helOk_mk] | split)

theorem State.checkEnd_canon (s : State) (n : Nat) (o : AsyncOp) (hs : State.Canon s) : State.Canon (State.checkEnd s n o).2 := by
  unfold State.checkEnd
  try dsimp only
  repeat' (first | with_reducible assumption | intro _ | with_reducible apply State.endPass_canon | with_reducible apply State.flushLines_canon | with_reducible refine canon_snd (by with_reducible assumption) ?_ | with_reducible refine canon_snd2 (by with_reducible assumption) ?_ | with_reducible refine canon_snd3 (by with_reducible assumption) ?_ | with_reducible apply ite_canon | with_reducible apply ite_chOk | with_reducible apply ite_helOk | with_reducible apply ite_snd_canon | with_reducible apply ch_ok | with_reducible apply hel_ok | simp only [canon_mk, chOk_mk, helOk_mk] | split)

theorem State.walkOn_canon (s : State) (n : Nat) (o : AsyncOp) (r : Arrival) (hs : State.Canon s) : State.Canon (State.walkOn s n o r).2 := by
  unfold State.walkOn
  try dsimp only
  repeat' (first | with_reducible assumption | intro _ | with_reducible apply State.checkEnd_canon | with_reducible apply State.liveCh_canon | with_reducible apply State.sendLoad_canon | with_reducible apply State.sendStore_canon | with_reducible apply State.fail_canon | with_reducible apply State.violCh_canon | with_reducible apply State.count_canon | with_reducible refine canon_snd (by with_reducible assumption) ?_ | with_reducible refine canon_snd2 (by with_reducible assumption) ?_ | with_reducible refine canon_snd3 (by with_reducible assumption) ?_ | with_reducible apply ite_canon | with_reducible apply ite_chOk | with_reducible apply ite_helOk | with_reducible apply ite_snd_canon | with_reducible apply setCh_ok | with_reducible apply ch_ok | with_reducible apply hel_ok | simp only [canon_mk, chOk_mk, helOk_mk] | split)

theorem State.advance_canon (s : State) (n : Nat) (o : AsyncOp) (r : Arrival) (hs : State.Canon s) : State.Canon (State.advance s n o r).2 := by
  unfold State.advance
  try dsimp only
  repeat' (first | with_reducible assumption | intro _ | with_reducible apply State.walkOn_canon | with_reducible apply State.liveCh_canon | with_reducible apply State.readRecord_canon | with_reducible apply State.beginOp_canon | with_reducible refine canon_snd (by with_reducible assumption) ?_ | with_reducible refine canon_snd2 (by with_reducible assumption) ?_ | with_reducible refine canon_snd3 (by with_reducible assumption) ?_ | with_reducible apply ite_canon | with_reducible apply ite_chOk | with_reducible apply ite_helOk | with_reducible apply ite_snd_canon | with_reducible apply setCh_ok | with_reducible apply ch_ok | with_reducible apply hel_ok | simp only [canon_mk, chOk_mk, helOk_mk] | split)

theorem Chamber.setOp_canon (c : Chamber) (o : AsyncOp) (hc : c.Ok) : (Chamber.setOp c o).Ok := by
  unfold Chamber.setOp
  try dsimp only
  repeat' (first | with_reducible assumption | simp only [chOk_mk, helOk_mk] | split)

theorem execDescriptorRequest_canon (ch : Fin 28) (found : Errors) (s : State) (hs : State.Canon s) : ∀ t, execDescriptorRequest ch found s = .next t → State.Canon t := by
  intro t ht
  unfold execDescriptorRequest at ht
  try dsimp only at ht
  injection ht with ht
  subst ht
  try dsimp only
  repeat' (first | with_reducible assumption | intro _ | with_reducible apply Chamber.setOp_canon | with_reducible apply State.advance_canon | with_reducible apply State.accUpsets_canon | with_reducible apply State.upsets_canon | with_reducible apply Hel.next_canon | with_reducible refine canon_snd (by with_reducible assumption) ?_ | with_reducible refine canon_snd2 (by with_reducible assumption) ?_ | with_reducible refine canon_snd3 (by with_reducible assumption) ?_ | with_reducible apply ite_canon | with_reducible apply ite_chOk | with_reducible apply ite_helOk | with_reducible apply ite_snd_canon | with_reducible apply modCh_ok | with_reducible apply setCh_ok | with_reducible apply ch_ok | with_reducible apply hel_ok | simp only [canon_mk, chOk_mk, helOk_mk] | split)

theorem execStoreRerun_canon (ch : Fin 28) (s : State) (hs : State.Canon s) : ∀ t, execStoreRerun ch s = .next t → State.Canon t := by
  intro t ht
  unfold execStoreRerun at ht
  injection ht with ht
  subst ht
  try dsimp only
  repeat' (first | with_reducible assumption | with_reducible apply Hel.next_canon | with_reducible apply Chamber.setOp_canon | with_reducible apply State.put_canon | with_reducible apply ite_canon | with_reducible apply modCh_ok | with_reducible apply setCh_ok | with_reducible apply ch_ok | simp only [canon_mk, chOk_mk, helOk_mk] | intro _ | split)

theorem State.putTsw_canon (s : State) (n : Nat) (o : AsyncOp) (hs : State.Canon s) : State.Canon (State.putTsw s n o) := by
  unfold State.putTsw
  try dsimp only
  repeat' (first | with_reducible assumption | with_reducible apply State.puts_canon | with_reducible apply ite_canon | split)

theorem AsyncOp.lastWrites_canon (o : AsyncOp) (m : Memory) (hm : m.wf = true) : (AsyncOp.lastWrites o m).wf = true := by
  unfold AsyncOp.lastWrites
  try dsimp only
  repeat' (first | with_reducible assumption | intro _ | with_reducible apply memWrites_canon | with_reducible apply ite_canon | with_reducible apply ite_chOk | with_reducible apply ite_helOk | with_reducible apply ite_snd_canon | with_reducible apply ch_ok | with_reducible apply hel_ok | with_reducible apply memWrite_wf | with_reducible apply lmem_wf | with_reducible apply bmem_wf | with_reducible apply mem_wf | with_reducible apply canon_lit | simp only [canon_mk, chOk_mk, helOk_mk] | with_reducible apply chOk_lit | split)

theorem State.clearOp_canon (s : State) (n : Nat) (o : AsyncOp) (hs : State.Canon s) : State.Canon (State.clearOp s n o) := by
  unfold State.clearOp
  try dsimp only
  repeat' (first | with_reducible assumption | intro _ | with_reducible apply AsyncOp.lastWrites_canon | with_reducible apply State.putTsw_canon | with_reducible apply State.tryPosts_canon | with_reducible apply ite_canon | with_reducible apply ite_chOk | with_reducible apply ite_helOk | with_reducible apply ite_snd_canon | with_reducible apply modCh_ok | with_reducible apply setCh_ok | with_reducible apply ch_ok | with_reducible apply hel_ok | with_reducible apply lmem_wf | with_reducible apply bmem_wf | with_reducible apply mem_wf | with_reducible apply canon_lit | simp only [canon_mk, chOk_mk, helOk_mk] | with_reducible apply chOk_lit | split)

/-! ## Expander -/

theorem State.malformed_canon (s : State) (n : Nat) (o : AsyncOp) (reason : Nat) (hs : State.Canon s) : State.Canon (State.malformed s n o reason) := by
  unfold State.malformed
  try dsimp only
  repeat' (first | with_reducible assumption | with_reducible apply State.violCh_canon | with_reducible apply State.puts_canon)

theorem State.tileReady_canon (s : State) (n : Nat) (o : AsyncOp) (t : WTile) (hs : State.Canon s) : State.Canon (State.tileReady s n o t) := by
  unfold State.tileReady
  try dsimp only
  repeat' (first | with_reducible assumption | with_reducible apply State.put_canon | with_reducible apply ite_canon | with_reducible apply modCh_ok | with_reducible apply setCh_ok | with_reducible apply ch_ok | simp only [canon_mk, chOk_mk, helOk_mk] | intro _ | split)

theorem State.rowFails_canon (s : State) (n : Nat) (o : AsyncOp) (e : Nat × Nat × Nat) (hs : State.Canon s) : State.Canon (State.rowFails s n o e) := by
  unfold State.rowFails
  try dsimp only
  repeat' (first | with_reducible assumption | intro _ | with_reducible apply Chamber.setOp_canon | with_reducible apply State.recordFails_canon | with_reducible apply ite_canon | with_reducible apply ite_chOk | with_reducible apply ite_helOk | with_reducible apply ite_snd_canon | with_reducible apply modCh_ok | with_reducible apply setCh_ok | with_reducible apply ch_ok | with_reducible apply hel_ok | simp only [canon_mk, chOk_mk, helOk_mk] | split)

theorem State.delivered_canon (s : State) (n : Nat) (o : AsyncOp) (hs : State.Canon s) : State.Canon (State.delivered s n o) := by
  unfold State.delivered
  try dsimp only
  repeat' (first | with_reducible assumption | with_reducible apply State.count_canon)

theorem State.expand_canon (s : State) (n : Nat) (o : AsyncOp) (hs : State.Canon s) : State.Canon (State.expand s n o) := by
  unfold State.expand
  try dsimp only
  repeat' (first | with_reducible assumption | with_reducible apply State.delivered_canon | with_reducible apply State.rowFails_canon | with_reducible apply State.tileReady_canon | with_reducible apply State.malformed_canon | with_reducible apply State.raise_canon | with_reducible apply State.count_canon | with_reducible apply ite_canon | intro _ | split)

theorem execWeightTileReady_canon (ch : Fin 28) (s : State) (hs : State.Canon s) : ∀ t, execWeightTileReady ch s = .next t → State.Canon t := by
  intro t ht
  unfold execWeightTileReady at ht
  injection ht with ht
  subst ht
  try dsimp only
  repeat' (first | with_reducible assumption | with_reducible apply Hel.next_canon | with_reducible apply State.expand_canon | split)

/-! ## Matrix -/

theorem Chamber.setMma_canon (c : Chamber) (m : Mma) (hc : c.Ok) : (Chamber.setMma c m).Ok := by
  unfold Chamber.setMma
  try dsimp only
  repeat' (first | with_reducible assumption | simp only [chOk_mk, helOk_mk] | split)

theorem Chamber.dropMma_canon (c : Chamber) (m : Mma) (hc : c.Ok) : (Chamber.dropMma c m).Ok := by
  unfold Chamber.dropMma
  try dsimp only
  repeat' (first | with_reducible assumption | simp only [chOk_mk, helOk_mk])

theorem State.cutMask_canon (s : State) (n : Nat) (hs : State.Canon s) : State.Canon (State.cutMask s n) := by
  unfold State.cutMask
  try dsimp only
  repeat' (first | with_reducible assumption | with_reducible apply State.violCh_canon | with_reducible apply State.put_canon | with_reducible apply ite_canon | with_reducible apply modCh_ok | with_reducible apply setCh_ok | with_reducible apply ch_ok | simp only [canon_mk, chOk_mk, helOk_mk] | intro _ | split)

theorem State.checkMma_canon (s : State) (n : Nat) (m : Mma) (hs : State.Canon s) : State.Canon (State.checkMma s n m) := by
  unfold State.checkMma
  try dsimp only
  repeat' (first | with_reducible assumption | with_reducible apply State.cutMask_canon | with_reducible apply Chamber.dropMma_canon | with_reducible apply Chamber.setMma_canon | with_reducible apply State.violCh_canon | with_reducible apply ite_canon | with_reducible apply modCh_ok | with_reducible apply setCh_ok | with_reducible apply ch_ok | simp only [canon_mk, chOk_mk, helOk_mk] | intro _ | split)

theorem State.doSwap_canon (s : State) (n : Nat) (m : Mma) (hs : State.Canon s) : State.Canon (State.doSwap s n m) := by
  unfold State.doSwap
  try dsimp only
  repeat' (first | with_reducible assumption | with_reducible apply State.checkMma_canon | with_reducible apply State.cutMask_canon | with_reducible apply Chamber.dropMma_canon | with_reducible apply Chamber.setMma_canon | with_reducible apply State.violCh_canon | with_reducible apply State.puts_canon | with_reducible apply State.count_canon | with_reducible apply ite_canon | with_reducible apply modCh_ok | with_reducible apply setCh_ok | with_reducible apply ch_ok | simp only [canon_mk, chOk_mk, helOk_mk] | intro _ | split)

theorem execSwap_canon (ch : Fin 28) (s : State) (hs : State.Canon s) : ∀ t, execSwap ch s = .next t → State.Canon t := by
  intro t ht
  unfold execSwap at ht
  injection ht with ht
  subst ht
  try dsimp only
  repeat' (first | with_reducible assumption | with_reducible apply Hel.next_canon | with_reducible apply State.doSwap_canon | with_reducible apply ite_canon | split)

theorem Chamber.pushRow_canon (c : Chamber) (b : Bool) (r : InRow) (hc : c.Ok) : (Chamber.pushRow c b r).Ok := by
  unfold Chamber.pushRow
  try dsimp only
  repeat' (first | with_reducible assumption | simp only [chOk_mk, helOk_mk] | split)

theorem Chamber.markFed_canon (c : Chamber) (b : Bool) (hc : c.Ok) : (Chamber.markFed c b).Ok := by
  unfold Chamber.markFed
  try dsimp only
  repeat' (first | with_reducible assumption | simp only [chOk_mk, helOk_mk] | split)

theorem State.passMasked_canon (s : State) (n : Nat) (b : Bool) (a0 : Nat) (a1 : Mma) (hs : State.Canon s) : State.Canon (State.passMasked s n b a0 a1).2 := by
  induction a0 generalizing s n b a1 with
  | zero =>
    unfold State.passMasked
    try dsimp only
    repeat' (first | with_reducible assumption | with_reducible apply Hel.next_canon | with_reducible apply Chamber.pushRow_canon | with_reducible apply State.count_canon | with_reducible apply ite_canon | with_reducible apply modCh_ok | with_reducible apply setCh_ok | with_reducible apply ch_ok | intro _ | split | with_reducible apply ih)
  | succ x ih =>
    unfold State.passMasked
    try dsimp only
    repeat' (first | with_reducible assumption | with_reducible apply Hel.next_canon | with_reducible apply Chamber.pushRow_canon | with_reducible apply State.count_canon | with_reducible apply ite_canon | with_reducible apply modCh_ok | with_reducible apply setCh_ok | with_reducible apply ch_ok | intro _ | split | with_reducible apply ih)

theorem State.enterRow_canon (s : State) (n : Nat) (b : Bool) (m : Mma) (hs : State.Canon s) : State.Canon (State.enterRow s n b m).2 := by
  unfold State.enterRow
  try dsimp only
  repeat' (first | with_reducible assumption | with_reducible apply Hel.next_canon | with_reducible apply Chamber.markFed_canon | with_reducible apply Chamber.pushRow_canon | with_reducible apply State.count_canon | with_reducible apply ite_canon | with_reducible apply modCh_ok | with_reducible apply setCh_ok | with_reducible apply ch_ok | intro _ | split)

theorem State.feed_canon (s : State) (n : Nat) (b : Bool) (m : Mma) (hs : State.Canon s) : State.Canon (State.feed s n b m) := by
  unfold State.feed
  try dsimp only
  repeat' (first | with_reducible assumption | with_reducible apply Hel.next_canon | with_reducible apply State.enterRow_canon | with_reducible apply State.passMasked_canon | with_reducible apply Chamber.setMma_canon | with_reducible apply modCh_ok | with_reducible apply setCh_ok | with_reducible apply ch_ok | intro _)

theorem execVectorEntry_canon (ch : Fin 28) (arrB : Bool) (upsets : List Upset) (accUpsets : List AccUpset) (s : State) (hs : State.Canon s) : ∀ t, execVectorEntry ch arrB upsets accUpsets s = .next t → State.Canon t := by
  intro t ht
  unfold execVectorEntry at ht
  try dsimp only at ht
  injection ht with ht
  subst ht
  try dsimp only
  repeat' (first | with_reducible assumption | intro _ | with_reducible apply State.feed_canon | with_reducible apply State.checkMma_canon | with_reducible apply State.accUpsets_canon | with_reducible apply State.upsets_canon | with_reducible apply Hel.next_canon | with_reducible refine canon_snd (by with_reducible assumption) ?_ | with_reducible refine canon_snd2 (by with_reducible assumption) ?_ | with_reducible refine canon_snd3 (by with_reducible assumption) ?_ | with_reducible apply ite_canon | with_reducible apply ite_chOk | with_reducible apply ite_helOk | with_reducible apply ite_snd_canon | with_reducible apply ch_ok | with_reducible apply hel_ok | simp only [canon_mk, chOk_mk, helOk_mk] | split)

theorem Chamber.setAcc_canon (c : Chamber) (b : Bool) (m : Map Lane) (hc : c.Ok) : (Chamber.setAcc c b m).Ok := by
  unfold Chamber.setAcc
  try dsimp only
  repeat' (first | with_reducible assumption | simp only [chOk_mk, helOk_mk] | split)

theorem Chamber.writeRow_canon (c : Chamber) (b : Bool) (r : InRow) (hc : c.Ok) : (Chamber.writeRow c b r).1.Ok := by
  unfold Chamber.writeRow
  try dsimp only
  repeat' (first | with_reducible assumption | intro _ | with_reducible apply Chamber.setAcc_canon | with_reducible refine canon_snd (by with_reducible assumption) ?_ | with_reducible refine canon_snd2 (by with_reducible assumption) ?_ | with_reducible refine canon_snd3 (by with_reducible assumption) ?_ | with_reducible apply ite_canon | with_reducible apply ite_chOk | with_reducible apply ite_helOk | with_reducible apply ite_snd_canon | with_reducible apply foldl_canon | with_reducible apply foldl_memwf | with_reducible apply ch_ok | with_reducible apply hel_ok | with_reducible apply chReset_ok | with_reducible apply helReset_ok | simp only [canon_mk, chOk_mk, helOk_mk] | split)

theorem Chamber.popRow_canon {c d : Chamber} {b : Bool} {r : InRow} (he : c.popRow b = some (r, d)) (hc : c.Ok) : d.Ok := by
  unfold Chamber.popRow at he
  split at he
  · cases he
  · injection he with he
    injection he with _ he
    subst he
    split <;> exact hc

theorem execAccumulatorRowWrite_canon (ch : Fin 28) (arrB : Bool) (accUpsets : List AccUpset) (s : State) (hs : State.Canon s) : ∀ t, execAccumulatorRowWrite ch arrB accUpsets s = .next t → State.Canon t := by
  intro t ht
  unfold execAccumulatorRowWrite at ht
  try dsimp only at ht
  injection ht with ht
  subst ht
  try dsimp only
  repeat' (first | with_reducible assumption | intro _ | with_reducible apply Chamber.writeRow_canon | with_reducible apply State.accUpsets_canon | with_reducible apply State.raise_canon | with_reducible apply Hel.next_canon | with_reducible refine Chamber.popRow_canon (by with_reducible assumption) ?_ | with_reducible refine canon_snd (by with_reducible assumption) ?_ | with_reducible refine canon_snd2 (by with_reducible assumption) ?_ | with_reducible refine canon_snd3 (by with_reducible assumption) ?_ | with_reducible apply ite_canon | with_reducible apply ite_chOk | with_reducible apply ite_helOk | with_reducible apply ite_snd_canon | with_reducible apply setCh_ok | with_reducible apply ch_ok | with_reducible apply hel_ok | simp only [canon_mk, chOk_mk, helOk_mk] | split)

/-! ## ChamberCtl -/

theorem State.finishReset_canon (s : State) (n : Nat) (hs : State.Canon s) : State.Canon (State.finishReset s n) := by
  unfold State.finishReset
  try dsimp only
  repeat' (first | with_reducible assumption | with_reducible apply State.resetRange_canon | with_reducible apply State.put_canon | with_reducible apply modCh_ok | with_reducible apply setCh_ok | with_reducible apply ch_ok | simp only [canon_mk, chOk_mk, helOk_mk])

theorem State.dropCoder_canon (s : State) (n : Nat) (hs : State.Canon s) : State.Canon (State.dropCoder s n) := by
  unfold State.dropCoder
  try dsimp only
  repeat' (first | with_reducible assumption | intro _ | with_reducible refine canon_snd (by with_reducible assumption) ?_ | with_reducible refine canon_snd2 (by with_reducible assumption) ?_ | with_reducible refine canon_snd3 (by with_reducible assumption) ?_ | with_reducible apply ite_canon | with_reducible apply ite_chOk | with_reducible apply ite_helOk | with_reducible apply ite_snd_canon | with_reducible apply modCh_ok | with_reducible apply setCh_ok | with_reducible apply ch_ok | with_reducible apply hel_ok | simp only [canon_mk, chOk_mk, helOk_mk] | split)

theorem State.beginReset_canon (s : State) (n : Nat) (hs : State.Canon s) : State.Canon (State.beginReset s n) := by
  unfold State.beginReset
  try dsimp only
  repeat' (first | with_reducible assumption | intro _ | with_reducible apply State.dropCoder_canon | with_reducible apply State.finishReset_canon | with_reducible apply ite_canon | with_reducible apply ite_chOk | with_reducible apply ite_helOk | with_reducible apply ite_snd_canon | with_reducible apply modCh_ok | with_reducible apply setCh_ok | with_reducible apply ch_ok | with_reducible apply hel_ok | with_reducible apply chReset_ok | with_reducible apply helReset_ok | simp only [canon_mk, chOk_mk, helOk_mk] | split)

theorem State.startAt_canon (s : State) (n : Nat) (pc : Nat) (args : List Word) (hs : State.Canon s) : State.Canon (State.startAt s n pc args) := by
  unfold State.startAt
  try dsimp only
  repeat' (first | with_reducible assumption | with_reducible apply State.halt_canon | with_reducible apply State.puts_canon | with_reducible apply modCh_ok | with_reducible apply setCh_ok | with_reducible apply ch_ok | simp only [canon_mk, chOk_mk, helOk_mk] | intro _)

theorem State.startWaiting_canon (s : State) (n : Nat) (hs : State.Canon s) : State.Canon (State.startWaiting s n) := by
  unfold State.startWaiting
  try dsimp only
  repeat' (first | with_reducible assumption | with_reducible apply State.startAt_canon | split)

theorem State.freeArgs_canon (s : State) (hs : State.Canon s) : State.Canon (State.freeArgs s).2 := by
  unfold State.freeArgs
  try dsimp only
  repeat' (first | with_reducible assumption | simp only [canon_mk, chOk_mk, helOk_mk] | intro _)

theorem State.startBit_canon (s : State) (n : Nat) (pc : Nat) (args : List Word) (hs : State.Canon s) : State.Canon (State.startBit s n pc args) := by
  unfold State.startBit
  try dsimp only
  repeat' (first | with_reducible assumption | with_reducible apply State.startAt_canon | with_reducible apply State.violCh_canon | with_reducible apply ite_canon | split)

theorem State.stopBit_canon (s : State) (n : Nat) (hs : State.Canon s) : State.Canon (State.stopBit s n) := by
  unfold State.stopBit
  try dsimp only
  repeat' (first | with_reducible assumption | with_reducible apply State.halt_canon | with_reducible apply ite_canon | simp only [canon_mk, chOk_mk, helOk_mk] | split)

theorem State.ctlBits_canon (s : State) (n : Nat) (pc : Nat) (reset : Bool) (stop : Bool) (start : Bool) (args : List Word) (hs : State.Canon s) : State.Canon (State.ctlBits s n pc reset stop start args) := by
  unfold State.ctlBits
  try dsimp only
  repeat' (first | with_reducible assumption | intro _ | with_reducible apply State.stopBit_canon | with_reducible apply State.startBit_canon | with_reducible apply State.startWaiting_canon | with_reducible apply State.beginReset_canon | with_reducible apply Hel.start_canon | with_reducible apply ite_canon | with_reducible apply ite_chOk | with_reducible apply ite_helOk | with_reducible apply ite_snd_canon | with_reducible apply modCh_ok | with_reducible apply setCh_ok | with_reducible apply ch_ok | with_reducible apply hel_ok | with_reducible apply chReset_ok | with_reducible apply helReset_ok | simp only [canon_mk, chOk_mk, helOk_mk] | split)

theorem State.writeCtl_canon (s : State) (n : Nat) (agent : Nat) (pc : Nat) (bad : Bool) (reset : Bool) (stop : Bool) (start : Bool) (args : Option (List Word)) (hs : State.Canon s) : State.Canon (State.writeCtl s n agent pc bad reset stop start args) := by
  unfold State.writeCtl
  try dsimp only
  repeat' (first | with_reducible assumption | intro _ | with_reducible apply State.ctlBits_canon | with_reducible apply State.freeArgs_canon | with_reducible apply Hel.start_canon | with_reducible apply State.wake_canon | with_reducible apply State.violGlb_canon | with_reducible apply State.put_canon | with_reducible refine canon_snd (by with_reducible assumption) ?_ | with_reducible refine canon_snd2 (by with_reducible assumption) ?_ | with_reducible refine canon_snd3 (by with_reducible assumption) ?_ | with_reducible apply ite_canon | with_reducible apply ite_chOk | with_reducible apply ite_helOk | with_reducible apply ite_snd_canon | with_reducible apply ch_ok | with_reducible apply hel_ok | with_reducible apply chReset_ok | with_reducible apply helReset_ok | simp only [canon_mk, chOk_mk, helOk_mk] | split)

theorem State.ctlArrives_canon (s : State) (n : Nat) (agent : Nat) (pc : Nat) (bad : Bool) (reset : Bool) (stop : Bool) (start : Bool) (args : Option (List Word)) (hs : State.Canon s) : State.Canon (State.ctlArrives s n agent pc bad reset stop start args) := by
  unfold State.ctlArrives
  try dsimp only
  repeat' (first | with_reducible assumption | intro _ | with_reducible apply State.writeCtl_canon | with_reducible apply Hel.start_canon | with_reducible apply State.violCh_canon | with_reducible apply State.violGlb_canon | with_reducible apply ite_canon | with_reducible apply ite_chOk | with_reducible apply ite_helOk | with_reducible apply ite_snd_canon | with_reducible apply setCh_ok | with_reducible apply ch_ok | with_reducible apply hel_ok | with_reducible apply chReset_ok | with_reducible apply helReset_ok | simp only [canon_mk, chOk_mk, helOk_mk] | split)

theorem execChamberStart_canon (ch : Fin 28) (host : Bool) (pc : BitVec 12) (args : List Word) (s : State) (hs : State.Canon s) : ∀ t, execChamberStart ch host pc args s = .next t → State.Canon t := by
  intro t ht
  unfold execChamberStart at ht
  try dsimp only at ht
  injection ht with ht
  subst ht
  try dsimp only
  repeat' (first | with_reducible assumption | intro _ | with_reducible apply State.ctlArrives_canon | with_reducible apply Hel.next_canon | with_reducible apply ite_canon | with_reducible apply ite_chOk | with_reducible apply ite_helOk | with_reducible apply ite_snd_canon | with_reducible apply ch_ok | with_reducible apply hel_ok | simp only [canon_mk, chOk_mk, helOk_mk] | split)

theorem execChamberStop_canon (ch : Fin 28) (host : Bool) (s : State) (hs : State.Canon s) : ∀ t, execChamberStop ch host s = .next t → State.Canon t := by
  intro t ht
  unfold execChamberStop at ht
  try dsimp only at ht
  injection ht with ht
  subst ht
  try dsimp only
  repeat' (first | with_reducible assumption | intro _ | with_reducible apply State.ctlArrives_canon | with_reducible apply Hel.next_canon | with_reducible apply ite_canon | with_reducible apply ite_chOk | with_reducible apply ite_helOk | with_reducible apply ite_snd_canon | with_reducible apply ch_ok | with_reducible apply hel_ok | simp only [canon_mk, chOk_mk, helOk_mk] | split)

theorem execChamberReset_canon (ch : Fin 28) (host : Bool) (s : State) (hs : State.Canon s) : ∀ t, execChamberReset ch host s = .next t → State.Canon t := by
  intro t ht
  unfold execChamberReset at ht
  try dsimp only at ht
  injection ht with ht
  subst ht
  try dsimp only
  repeat' (first | with_reducible assumption | intro _ | with_reducible apply State.ctlArrives_canon | with_reducible apply Hel.next_canon | with_reducible apply ite_canon | with_reducible apply ite_chOk | with_reducible apply ite_helOk | with_reducible apply ite_snd_canon | with_reducible apply ch_ok | with_reducible apply hel_ok | simp only [canon_mk, chOk_mk, helOk_mk] | split)

theorem State.unqueueFailed_canon (s : State) (n : Nat) (o : AsyncOp) (hs : State.Canon s) : State.Canon (State.unqueueFailed s n o) := by
  unfold State.unqueueFailed
  try dsimp only
  repeat' (first | with_reducible assumption | with_reducible apply State.put_canon | with_reducible apply ite_canon | split)

theorem State.resetIfDrained_canon (s : State) (n : Nat) (hs : State.Canon s) : State.Canon (State.resetIfDrained s n) := by
  unfold State.resetIfDrained
  try dsimp only
  repeat' (first | with_reducible assumption | with_reducible apply State.startWaiting_canon | with_reducible apply State.finishReset_canon | with_reducible apply ite_canon | split)

theorem execTagClear_canon (ch : Fin 28) (done : TagDone) (s : State) (hs : State.Canon s) : ∀ t, execTagClear ch done s = .next t → State.Canon t := by
  intro t ht
  unfold execTagClear at ht
  try dsimp only at ht
  injection ht with ht
  subst ht
  try dsimp only
  repeat' (first | with_reducible assumption | intro _ | with_reducible apply State.resetIfDrained_canon | with_reducible apply State.unqueueFailed_canon | with_reducible apply State.clearOp_canon | with_reducible apply State.upsets_canon | with_reducible apply Hel.next_canon | with_reducible refine canon_snd (by with_reducible assumption) ?_ | with_reducible refine canon_snd2 (by with_reducible assumption) ?_ | with_reducible refine canon_snd3 (by with_reducible assumption) ?_ | with_reducible apply ite_canon | with_reducible apply ite_chOk | with_reducible apply ite_helOk | with_reducible apply ite_snd_canon | with_reducible apply ch_ok | with_reducible apply hel_ok | with_reducible apply chReset_ok | with_reducible apply helReset_ok | simp only [canon_mk, chOk_mk, helOk_mk] | split)

theorem execWaitTimeout_canon (ch : Fin 28) (s : State) (hs : State.Canon s) : ∀ t, execWaitTimeout ch s = .next t → State.Canon t := by
  intro t ht
  unfold execWaitTimeout at ht
  try dsimp only at ht
  injection ht with ht
  subst ht
  try dsimp only
  repeat' (first | with_reducible assumption | intro _ | with_reducible apply State.halt_canon | with_reducible apply Hel.next_canon | with_reducible refine canon_snd (by with_reducible assumption) ?_ | with_reducible refine canon_snd2 (by with_reducible assumption) ?_ | with_reducible refine canon_snd3 (by with_reducible assumption) ?_ | with_reducible apply ite_canon | with_reducible apply ite_chOk | with_reducible apply ite_helOk | with_reducible apply ite_snd_canon | with_reducible apply ch_ok | with_reducible apply hel_ok | with_reducible apply chReset_ok | with_reducible apply helReset_ok | simp only [canon_mk, chOk_mk, helOk_mk] | split)

theorem State.enterHalt_canon (s : State) (n : Nat) (h : HaltRec) (hs : State.Canon s) : State.Canon (State.enterHalt s n h) := by
  unfold State.enterHalt
  try dsimp only
  repeat' (first | with_reducible assumption | intro _ | with_reducible apply State.halt_canon | with_reducible apply State.logErr_canon | with_reducible apply State.puts_canon | with_reducible apply State.put_canon | with_reducible apply ite_canon | with_reducible apply ite_chOk | with_reducible apply ite_helOk | with_reducible apply ite_snd_canon | with_reducible apply modCh_ok | with_reducible apply setCh_ok | with_reducible apply ch_ok | with_reducible apply hel_ok | with_reducible apply chReset_ok | with_reducible apply helReset_ok | simp only [canon_mk, chOk_mk, helOk_mk] | split)

theorem execChamberHalt_canon (ch : Fin 28) (s : State) (hs : State.Canon s) : ∀ t, execChamberHalt ch s = .next t → State.Canon t := by
  intro t ht
  unfold execChamberHalt at ht
  injection ht with ht
  subst ht
  try dsimp only
  repeat' (first | with_reducible assumption | with_reducible apply Hel.next_canon | with_reducible apply State.enterHalt_canon | with_reducible apply State.startWaiting_canon | with_reducible apply State.halt_canon | with_reducible apply ite_canon | split)

theorem execGlbSigWrite_canon (n : BitVec 12) (v : Word) (s : State) (hs : State.Canon s) : ∀ t, execGlbSigWrite n v s = .next t → State.Canon t := by
  intro t ht
  unfold execGlbSigWrite at ht
  injection ht with ht
  subst ht
  try dsimp only
  repeat' (first | with_reducible assumption | with_reducible apply Hel.next_canon | with_reducible apply State.postSig_canon)

theorem State.writeBundle_canon (s : State) (agent : Nat) (n : Nat) (idx : Nat) (v : Word) (hs : State.Canon s) : State.Canon (State.writeBundle s agent n idx v) := by
  unfold State.writeBundle
  try dsimp only
  repeat' (first | with_reducible assumption | intro _ | with_reducible apply ite_canon | with_reducible apply State.wake_canon | with_reducible apply State.violCh_canon | with_reducible apply State.violGlb_canon | with_reducible apply ite_snd_canon | with_reducible apply ite_snd2_canon | with_reducible apply ite_snd3_canon | with_reducible apply foldl_canon | with_reducible apply modCh_ok | with_reducible apply setCh_ok | with_reducible apply setHel_ok | with_reducible apply ch_ok | with_reducible apply hel_ok | with_reducible apply ite_chOk | with_reducible apply ite_helOk | with_reducible exact chReset_ok | with_reducible exact helReset_ok | simp only [canon_mk, chOk_mk, helOk_mk] | split | with_reducible refine canon_snd (by with_reducible assumption) ?_ | with_reducible refine canon_snd2 (by with_reducible assumption) ?_ | with_reducible refine canon_snd3 (by with_reducible assumption) ?_ | with_reducible refine canon_fst (by with_reducible assumption) ?_ | with_reducible apply chOk_lit | with_reducible apply helOk_lit | with_reducible apply memWrite_wf | with_reducible apply memSet_wf | with_reducible apply memClear_wf | with_reducible apply localPut_wf | with_reducible apply foldl_memwf | with_reducible apply lmem_wf | with_reducible apply bmem_wf | with_reducible apply scratch_wf)

theorem execBundleWindowWrite_canon (ch : Fin 28) (idx : BitVec 15) (v : Word) (s : State) (hs : State.Canon s) : ∀ t, execBundleWindowWrite ch idx v s = .next t → State.Canon t := by
  intro t ht
  unfold execBundleWindowWrite at ht
  injection ht with ht
  subst ht
  try dsimp only
  repeat' (first | with_reducible assumption | with_reducible apply Hel.next_canon | with_reducible apply State.writeBundle_canon)

theorem State.writeRegion_canon (s : State) (agent : Nat) (n : Nat) (idx : Nat) (v : Word) (hs : State.Canon s) : State.Canon (State.writeRegion s agent n idx v) := by
  unfold State.writeRegion
  try dsimp only
  repeat' (first | with_reducible assumption | with_reducible apply State.plainWrite_canon | with_reducible apply State.wake_canon | with_reducible apply State.violCh_canon | with_reducible apply State.violGlb_canon | with_reducible apply ite_canon | with_reducible apply modCh_ok | with_reducible apply setCh_ok | with_reducible apply ch_ok | simp only [canon_mk, chOk_mk, helOk_mk] | intro _ | split)

theorem execRegionTableWrite_canon (ch : Fin 28) (host : Bool) (idx : BitVec 9) (v : Word) (s : State) (hs : State.Canon s) : ∀ t, execRegionTableWrite ch host idx v s = .next t → State.Canon t := by
  intro t ht
  unfold execRegionTableWrite at ht
  injection ht with ht
  subst ht
  try dsimp only
  repeat' (first | with_reducible assumption | with_reducible apply Hel.next_canon | with_reducible apply State.writeRegion_canon | with_reducible apply ite_canon | split)

/-! ## Control -/

theorem execNop_canon (ch : Fin 28) (slot : Fin 6) (i : Issue) (s : State) (hs : State.Canon s) : ∀ t, execNop ch slot i s = .next t → State.Canon t := by
  intro t ht
  unfold execNop at ht
  injection ht with ht
  subst ht
  try dsimp only
  repeat' (first | with_reducible assumption | with_reducible apply Hel.next_canon | with_reducible apply State.issue_canon)

theorem execBr_canon (ch : Fin 28) (o : COps) (i : Issue) (s : State) (hs : State.Canon s) : ∀ t, execBr ch o i s = .next t → State.Canon t := by
  intro t ht
  unfold execBr at ht
  injection ht with ht
  subst ht
  try dsimp only
  repeat' (first | with_reducible assumption | with_reducible apply Hel.next_canon | with_reducible apply State.issue_canon)

theorem execBrS_canon (ch : Fin 28) (o : COps) (i : Issue) (s : State) (hs : State.Canon s) : ∀ t, execBrS ch o i s = .next t → State.Canon t := by
  intro t ht
  unfold execBrS at ht
  injection ht with ht
  subst ht
  try dsimp only
  repeat' (first | with_reducible assumption | with_reducible apply Hel.next_canon | with_reducible apply State.issue_canon)

theorem execCall_canon (ch : Fin 28) (o : COps) (i : Issue) (s : State) (hs : State.Canon s) : ∀ t, execCall ch o i s = .next t → State.Canon t := by
  intro t ht
  unfold execCall at ht
  injection ht with ht
  subst ht
  try dsimp only
  repeat' (first | with_reducible assumption | with_reducible apply Hel.next_canon | with_reducible apply State.issue_canon)

theorem execRet_canon (ch : Fin 28) (o : COps) (i : Issue) (s : State) (hs : State.Canon s) : ∀ t, execRet ch o i s = .next t → State.Canon t := by
  intro t ht
  unfold execRet at ht
  injection ht with ht
  subst ht
  try dsimp only
  repeat' (first | with_reducible assumption | with_reducible apply Hel.next_canon | with_reducible apply State.issue_canon)

theorem execHalt_canon (ch : Fin 28) (o : COps) (i : Issue) (s : State) (hs : State.Canon s) : ∀ t, execHalt ch o i s = .next t → State.Canon t := by
  intro t ht
  unfold execHalt at ht
  injection ht with ht
  subst ht
  try dsimp only
  repeat' (first | with_reducible assumption | with_reducible apply Hel.next_canon | with_reducible apply State.issue_canon)

theorem execPostSigSet_canon (ch : Fin 28) (o : COps) (i : Issue) (s : State) (hs : State.Canon s) : ∀ t, execPostSigSet ch o i s = .next t → State.Canon t := by
  intro t ht
  unfold execPostSigSet at ht
  injection ht with ht
  subst ht
  try dsimp only
  repeat' (first | with_reducible assumption | with_reducible apply Hel.next_canon | with_reducible apply State.issue_canon)

theorem execPostSigAdd_canon (ch : Fin 28) (o : COps) (i : Issue) (s : State) (hs : State.Canon s) : ∀ t, execPostSigAdd ch o i s = .next t → State.Canon t := by
  intro t ht
  unfold execPostSigAdd at ht
  injection ht with ht
  subst ht
  try dsimp only
  repeat' (first | with_reducible assumption | with_reducible apply Hel.next_canon | with_reducible apply State.issue_canon)

theorem execWaitSigGe_canon (ch : Fin 28) (o : COps) (i : Issue) (s : State) (hs : State.Canon s) : ∀ t, execWaitSigGe ch o i s = .next t → State.Canon t := by
  intro t ht
  unfold execWaitSigGe at ht
  injection ht with ht
  subst ht
  try dsimp only
  repeat' (first | with_reducible assumption | with_reducible apply Hel.next_canon | with_reducible apply State.issue_canon)

theorem execWaitSigEq_canon (ch : Fin 28) (o : COps) (i : Issue) (s : State) (hs : State.Canon s) : ∀ t, execWaitSigEq ch o i s = .next t → State.Canon t := by
  intro t ht
  unfold execWaitSigEq at ht
  injection ht with ht
  subst ht
  try dsimp only
  repeat' (first | with_reducible assumption | with_reducible apply Hel.next_canon | with_reducible apply State.issue_canon)

theorem execWaitTag_canon (ch : Fin 28) (o : COps) (i : Issue) (s : State) (hs : State.Canon s) : ∀ t, execWaitTag ch o i s = .next t → State.Canon t := by
  intro t ht
  unfold execWaitTag at ht
  injection ht with ht
  subst ht
  try dsimp only
  repeat' (first | with_reducible assumption | with_reducible apply Hel.next_canon | with_reducible apply State.issue_canon)

theorem execFence_canon (ch : Fin 28) (o : COps) (i : Issue) (s : State) (hs : State.Canon s) : ∀ t, execFence ch o i s = .next t → State.Canon t := by
  intro t ht
  unfold execFence at ht
  injection ht with ht
  subst ht
  try dsimp only
  repeat' (first | with_reducible assumption | with_reducible apply Hel.next_canon | with_reducible apply State.issue_canon)

/-! ## Scalar -/

theorem execAdd_canon (ch : Fin 28) (o : SOps) (i : Issue) (s : State) (hs : State.Canon s) : ∀ t, execAdd ch o i s = .next t → State.Canon t := by
  intro t ht
  unfold execAdd at ht
  injection ht with ht
  subst ht
  try dsimp only
  repeat' (first | with_reducible assumption | with_reducible apply Hel.next_canon | with_reducible apply State.issue_canon)

theorem execSub_canon (ch : Fin 28) (o : SOps) (i : Issue) (s : State) (hs : State.Canon s) : ∀ t, execSub ch o i s = .next t → State.Canon t := by
  intro t ht
  unfold execSub at ht
  injection ht with ht
  subst ht
  try dsimp only
  repeat' (first | with_reducible assumption | with_reducible apply Hel.next_canon | with_reducible apply State.issue_canon)

theorem execAnd_canon (ch : Fin 28) (o : SOps) (i : Issue) (s : State) (hs : State.Canon s) : ∀ t, execAnd ch o i s = .next t → State.Canon t := by
  intro t ht
  unfold execAnd at ht
  injection ht with ht
  subst ht
  try dsimp only
  repeat' (first | with_reducible assumption | with_reducible apply Hel.next_canon | with_reducible apply State.issue_canon)

theorem execOr_canon (ch : Fin 28) (o : SOps) (i : Issue) (s : State) (hs : State.Canon s) : ∀ t, execOr ch o i s = .next t → State.Canon t := by
  intro t ht
  unfold execOr at ht
  injection ht with ht
  subst ht
  try dsimp only
  repeat' (first | with_reducible assumption | with_reducible apply Hel.next_canon | with_reducible apply State.issue_canon)

theorem execXor_canon (ch : Fin 28) (o : SOps) (i : Issue) (s : State) (hs : State.Canon s) : ∀ t, execXor ch o i s = .next t → State.Canon t := by
  intro t ht
  unfold execXor at ht
  injection ht with ht
  subst ht
  try dsimp only
  repeat' (first | with_reducible assumption | with_reducible apply Hel.next_canon | with_reducible apply State.issue_canon)

theorem execShl_canon (ch : Fin 28) (o : SOps) (i : Issue) (s : State) (hs : State.Canon s) : ∀ t, execShl ch o i s = .next t → State.Canon t := by
  intro t ht
  unfold execShl at ht
  injection ht with ht
  subst ht
  try dsimp only
  repeat' (first | with_reducible assumption | with_reducible apply Hel.next_canon | with_reducible apply State.issue_canon)

theorem execShr_canon (ch : Fin 28) (o : SOps) (i : Issue) (s : State) (hs : State.Canon s) : ∀ t, execShr ch o i s = .next t → State.Canon t := by
  intro t ht
  unfold execShr at ht
  injection ht with ht
  subst ht
  try dsimp only
  repeat' (first | with_reducible assumption | with_reducible apply Hel.next_canon | with_reducible apply State.issue_canon)

theorem execSra_canon (ch : Fin 28) (o : SOps) (i : Issue) (s : State) (hs : State.Canon s) : ∀ t, execSra ch o i s = .next t → State.Canon t := by
  intro t ht
  unfold execSra at ht
  injection ht with ht
  subst ht
  try dsimp only
  repeat' (first | with_reducible assumption | with_reducible apply Hel.next_canon | with_reducible apply State.issue_canon)

theorem execMul_canon (ch : Fin 28) (o : SOps) (i : Issue) (s : State) (hs : State.Canon s) : ∀ t, execMul ch o i s = .next t → State.Canon t := by
  intro t ht
  unfold execMul at ht
  injection ht with ht
  subst ht
  try dsimp only
  repeat' (first | with_reducible assumption | with_reducible apply Hel.next_canon | with_reducible apply State.issue_canon)

theorem execMin_canon (ch : Fin 28) (o : SOps) (i : Issue) (s : State) (hs : State.Canon s) : ∀ t, execMin ch o i s = .next t → State.Canon t := by
  intro t ht
  unfold execMin at ht
  injection ht with ht
  subst ht
  try dsimp only
  repeat' (first | with_reducible assumption | with_reducible apply Hel.next_canon | with_reducible apply State.issue_canon)

theorem execMax_canon (ch : Fin 28) (o : SOps) (i : Issue) (s : State) (hs : State.Canon s) : ∀ t, execMax ch o i s = .next t → State.Canon t := by
  intro t ht
  unfold execMax at ht
  injection ht with ht
  subst ht
  try dsimp only
  repeat' (first | with_reducible assumption | with_reducible apply Hel.next_canon | with_reducible apply State.issue_canon)

theorem execLiL_canon (ch : Fin 28) (o : SOps) (i : Issue) (s : State) (hs : State.Canon s) : ∀ t, execLiL ch o i s = .next t → State.Canon t := by
  intro t ht
  unfold execLiL at ht
  injection ht with ht
  subst ht
  try dsimp only
  repeat' (first | with_reducible assumption | with_reducible apply Hel.next_canon | with_reducible apply State.issue_canon)

theorem execLiH_canon (ch : Fin 28) (o : SOps) (i : Issue) (s : State) (hs : State.Canon s) : ∀ t, execLiH ch o i s = .next t → State.Canon t := by
  intro t ht
  unfold execLiH at ht
  injection ht with ht
  subst ht
  try dsimp only
  repeat' (first | with_reducible assumption | with_reducible apply Hel.next_canon | with_reducible apply State.issue_canon)

theorem execCmpEq_canon (ch : Fin 28) (o : SOps) (i : Issue) (s : State) (hs : State.Canon s) : ∀ t, execCmpEq ch o i s = .next t → State.Canon t := by
  intro t ht
  unfold execCmpEq at ht
  injection ht with ht
  subst ht
  try dsimp only
  repeat' (first | with_reducible assumption | with_reducible apply Hel.next_canon | with_reducible apply State.issue_canon)

theorem execCmpNe_canon (ch : Fin 28) (o : SOps) (i : Issue) (s : State) (hs : State.Canon s) : ∀ t, execCmpNe ch o i s = .next t → State.Canon t := by
  intro t ht
  unfold execCmpNe at ht
  injection ht with ht
  subst ht
  try dsimp only
  repeat' (first | with_reducible assumption | with_reducible apply Hel.next_canon | with_reducible apply State.issue_canon)

theorem execCmpLt_canon (ch : Fin 28) (o : SOps) (i : Issue) (s : State) (hs : State.Canon s) : ∀ t, execCmpLt ch o i s = .next t → State.Canon t := by
  intro t ht
  unfold execCmpLt at ht
  injection ht with ht
  subst ht
  try dsimp only
  repeat' (first | with_reducible assumption | with_reducible apply Hel.next_canon | with_reducible apply State.issue_canon)

theorem execCmpGe_canon (ch : Fin 28) (o : SOps) (i : Issue) (s : State) (hs : State.Canon s) : ∀ t, execCmpGe ch o i s = .next t → State.Canon t := by
  intro t ht
  unfold execCmpGe at ht
  injection ht with ht
  subst ht
  try dsimp only
  repeat' (first | with_reducible assumption | with_reducible apply Hel.next_canon | with_reducible apply State.issue_canon)

theorem execCmpLtu_canon (ch : Fin 28) (o : SOps) (i : Issue) (s : State) (hs : State.Canon s) : ∀ t, execCmpLtu ch o i s = .next t → State.Canon t := by
  intro t ht
  unfold execCmpLtu at ht
  injection ht with ht
  subst ht
  try dsimp only
  repeat' (first | with_reducible assumption | with_reducible apply Hel.next_canon | with_reducible apply State.issue_canon)

theorem execCmpGeu_canon (ch : Fin 28) (o : SOps) (i : Issue) (s : State) (hs : State.Canon s) : ∀ t, execCmpGeu ch o i s = .next t → State.Canon t := by
  intro t ht
  unfold execCmpGeu at ht
  injection ht with ht
  subst ht
  try dsimp only
  repeat' (first | with_reducible assumption | with_reducible apply Hel.next_canon | with_reducible apply State.issue_canon)

theorem execPand_canon (ch : Fin 28) (o : SOps) (i : Issue) (s : State) (hs : State.Canon s) : ∀ t, execPand ch o i s = .next t → State.Canon t := by
  intro t ht
  unfold execPand at ht
  injection ht with ht
  subst ht
  try dsimp only
  repeat' (first | with_reducible assumption | with_reducible apply Hel.next_canon | with_reducible apply State.issue_canon)

theorem execPor_canon (ch : Fin 28) (o : SOps) (i : Issue) (s : State) (hs : State.Canon s) : ∀ t, execPor ch o i s = .next t → State.Canon t := by
  intro t ht
  unfold execPor at ht
  injection ht with ht
  subst ht
  try dsimp only
  repeat' (first | with_reducible assumption | with_reducible apply Hel.next_canon | with_reducible apply State.issue_canon)

theorem execPxor_canon (ch : Fin 28) (o : SOps) (i : Issue) (s : State) (hs : State.Canon s) : ∀ t, execPxor ch o i s = .next t → State.Canon t := by
  intro t ht
  unfold execPxor at ht
  injection ht with ht
  subst ht
  try dsimp only
  repeat' (first | with_reducible assumption | with_reducible apply Hel.next_canon | with_reducible apply State.issue_canon)

theorem execDscBase_canon (ch : Fin 28) (o : SOps) (i : Issue) (s : State) (hs : State.Canon s) : ∀ t, execDscBase ch o i s = .next t → State.Canon t := by
  intro t ht
  unfold execDscBase at ht
  injection ht with ht
  subst ht
  try dsimp only
  repeat' (first | with_reducible assumption | with_reducible apply Hel.next_canon | with_reducible apply State.issue_canon)

theorem execDscAdd_canon (ch : Fin 28) (o : SOps) (i : Issue) (s : State) (hs : State.Canon s) : ∀ t, execDscAdd ch o i s = .next t → State.Canon t := by
  intro t ht
  unfold execDscAdd at ht
  injection ht with ht
  subst ht
  try dsimp only
  repeat' (first | with_reducible assumption | with_reducible apply Hel.next_canon | with_reducible apply State.issue_canon)

theorem execRdCyc_canon (ch : Fin 28) (o : SOps) (i : Issue) (s : State) (hs : State.Canon s) : ∀ t, execRdCyc ch o i s = .next t → State.Canon t := by
  intro t ht
  unfold execRdCyc at ht
  injection ht with ht
  subst ht
  try dsimp only
  repeat' (first | with_reducible assumption | with_reducible apply Hel.next_canon | with_reducible apply State.issue_canon)

/-! ## Load -/

theorem execLdS_canon (ch : Fin 28) (o : LOps) (i : Issue) (s : State) (hs : State.Canon s) : ∀ t, execLdS ch o i s = .next t → State.Canon t := by
  intro t ht
  unfold execLdS at ht
  injection ht with ht
  subst ht
  try dsimp only
  repeat' (first | with_reducible assumption | with_reducible apply Hel.next_canon | with_reducible apply State.issue_canon)

theorem execLdV_canon (ch : Fin 28) (o : LOps) (i : Issue) (s : State) (hs : State.Canon s) : ∀ t, execLdV ch o i s = .next t → State.Canon t := by
  intro t ht
  unfold execLdV at ht
  injection ht with ht
  subst ht
  try dsimp only
  repeat' (first | with_reducible assumption | with_reducible apply Hel.next_canon | with_reducible apply State.issue_canon)

theorem execLdD_canon (ch : Fin 28) (o : LOps) (i : Issue) (s : State) (hs : State.Canon s) : ∀ t, execLdD ch o i s = .next t → State.Canon t := by
  intro t ht
  unfold execLdD at ht
  injection ht with ht
  subst ht
  try dsimp only
  repeat' (first | with_reducible assumption | with_reducible apply Hel.next_canon | with_reducible apply State.issue_canon)

theorem execLdT_canon (ch : Fin 28) (o : LOps) (i : Issue) (s : State) (hs : State.Canon s) : ∀ t, execLdT ch o i s = .next t → State.Canon t := by
  intro t ht
  unfold execLdT at ht
  injection ht with ht
  subst ht
  try dsimp only
  repeat' (first | with_reducible assumption | with_reducible apply Hel.next_canon | with_reducible apply State.issue_canon)

theorem execLdW_canon (ch : Fin 28) (o : LOps) (i : Issue) (s : State) (hs : State.Canon s) : ∀ t, execLdW ch o i s = .next t → State.Canon t := by
  intro t ht
  unfold execLdW at ht
  injection ht with ht
  subst ht
  try dsimp only
  repeat' (first | with_reducible assumption | with_reducible apply Hel.next_canon | with_reducible apply State.issue_canon)

/-! ## MSlot -/

theorem execMma_canon (ch : Fin 28) (o : MOps) (i : Issue) (s : State) (hs : State.Canon s) : ∀ t, execMma ch o i s = .next t → State.Canon t := by
  intro t ht
  unfold execMma at ht
  injection ht with ht
  subst ht
  try dsimp only
  repeat' (first | with_reducible assumption | with_reducible apply Hel.next_canon | with_reducible apply State.issue_canon)

theorem execWsw_canon (ch : Fin 28) (o : MOps) (i : Issue) (s : State) (hs : State.Canon s) : ∀ t, execWsw ch o i s = .next t → State.Canon t := by
  intro t ht
  unfold execWsw at ht
  injection ht with ht
  subst ht
  try dsimp only
  repeat' (first | with_reducible assumption | with_reducible apply Hel.next_canon | with_reducible apply State.issue_canon)

/-! ## Vector -/

theorem execVaddF32_canon (ch : Fin 28) (o : VOps) (i : Issue) (s : State) (hs : State.Canon s) : ∀ t, execVaddF32 ch o i s = .next t → State.Canon t := by
  intro t ht
  unfold execVaddF32 at ht
  injection ht with ht
  subst ht
  try dsimp only
  repeat' (first | with_reducible assumption | with_reducible apply Hel.next_canon | with_reducible apply State.issue_canon)

theorem execVsubF32_canon (ch : Fin 28) (o : VOps) (i : Issue) (s : State) (hs : State.Canon s) : ∀ t, execVsubF32 ch o i s = .next t → State.Canon t := by
  intro t ht
  unfold execVsubF32 at ht
  injection ht with ht
  subst ht
  try dsimp only
  repeat' (first | with_reducible assumption | with_reducible apply Hel.next_canon | with_reducible apply State.issue_canon)

theorem execVmulF32_canon (ch : Fin 28) (o : VOps) (i : Issue) (s : State) (hs : State.Canon s) : ∀ t, execVmulF32 ch o i s = .next t → State.Canon t := by
  intro t ht
  unfold execVmulF32 at ht
  injection ht with ht
  subst ht
  try dsimp only
  repeat' (first | with_reducible assumption | with_reducible apply Hel.next_canon | with_reducible apply State.issue_canon)

theorem execVfmaF32_canon (ch : Fin 28) (o : VOps) (i : Issue) (s : State) (hs : State.Canon s) : ∀ t, execVfmaF32 ch o i s = .next t → State.Canon t := by
  intro t ht
  unfold execVfmaF32 at ht
  injection ht with ht
  subst ht
  try dsimp only
  repeat' (first | with_reducible assumption | with_reducible apply Hel.next_canon | with_reducible apply State.issue_canon)

theorem execVmaxF32_canon (ch : Fin 28) (o : VOps) (i : Issue) (s : State) (hs : State.Canon s) : ∀ t, execVmaxF32 ch o i s = .next t → State.Canon t := by
  intro t ht
  unfold execVmaxF32 at ht
  injection ht with ht
  subst ht
  try dsimp only
  repeat' (first | with_reducible assumption | with_reducible apply Hel.next_canon | with_reducible apply State.issue_canon)

theorem execVminF32_canon (ch : Fin 28) (o : VOps) (i : Issue) (s : State) (hs : State.Canon s) : ∀ t, execVminF32 ch o i s = .next t → State.Canon t := by
  intro t ht
  unfold execVminF32 at ht
  injection ht with ht
  subst ht
  try dsimp only
  repeat' (first | with_reducible assumption | with_reducible apply Hel.next_canon | with_reducible apply State.issue_canon)

theorem execVaddI32_canon (ch : Fin 28) (o : VOps) (i : Issue) (s : State) (hs : State.Canon s) : ∀ t, execVaddI32 ch o i s = .next t → State.Canon t := by
  intro t ht
  unfold execVaddI32 at ht
  injection ht with ht
  subst ht
  try dsimp only
  repeat' (first | with_reducible assumption | with_reducible apply Hel.next_canon | with_reducible apply State.issue_canon)

theorem execVsubI32_canon (ch : Fin 28) (o : VOps) (i : Issue) (s : State) (hs : State.Canon s) : ∀ t, execVsubI32 ch o i s = .next t → State.Canon t := by
  intro t ht
  unfold execVsubI32 at ht
  injection ht with ht
  subst ht
  try dsimp only
  repeat' (first | with_reducible assumption | with_reducible apply Hel.next_canon | with_reducible apply State.issue_canon)

theorem execVand_canon (ch : Fin 28) (o : VOps) (i : Issue) (s : State) (hs : State.Canon s) : ∀ t, execVand ch o i s = .next t → State.Canon t := by
  intro t ht
  unfold execVand at ht
  injection ht with ht
  subst ht
  try dsimp only
  repeat' (first | with_reducible assumption | with_reducible apply Hel.next_canon | with_reducible apply State.issue_canon)

theorem execVor_canon (ch : Fin 28) (o : VOps) (i : Issue) (s : State) (hs : State.Canon s) : ∀ t, execVor ch o i s = .next t → State.Canon t := by
  intro t ht
  unfold execVor at ht
  injection ht with ht
  subst ht
  try dsimp only
  repeat' (first | with_reducible assumption | with_reducible apply Hel.next_canon | with_reducible apply State.issue_canon)

theorem execVxor_canon (ch : Fin 28) (o : VOps) (i : Issue) (s : State) (hs : State.Canon s) : ∀ t, execVxor ch o i s = .next t → State.Canon t := by
  intro t ht
  unfold execVxor at ht
  injection ht with ht
  subst ht
  try dsimp only
  repeat' (first | with_reducible assumption | with_reducible apply Hel.next_canon | with_reducible apply State.issue_canon)

theorem execVcmpLtF32_canon (ch : Fin 28) (o : VOps) (i : Issue) (s : State) (hs : State.Canon s) : ∀ t, execVcmpLtF32 ch o i s = .next t → State.Canon t := by
  intro t ht
  unfold execVcmpLtF32 at ht
  injection ht with ht
  subst ht
  try dsimp only
  repeat' (first | with_reducible assumption | with_reducible apply Hel.next_canon | with_reducible apply State.issue_canon)

theorem execVcmpEqF32_canon (ch : Fin 28) (o : VOps) (i : Issue) (s : State) (hs : State.Canon s) : ∀ t, execVcmpEqF32 ch o i s = .next t → State.Canon t := by
  intro t ht
  unfold execVcmpEqF32 at ht
  injection ht with ht
  subst ht
  try dsimp only
  repeat' (first | with_reducible assumption | with_reducible apply Hel.next_canon | with_reducible apply State.issue_canon)

theorem execVsel_canon (ch : Fin 28) (o : VOps) (i : Issue) (s : State) (hs : State.Canon s) : ∀ t, execVsel ch o i s = .next t → State.Canon t := by
  intro t ht
  unfold execVsel at ht
  injection ht with ht
  subst ht
  try dsimp only
  repeat' (first | with_reducible assumption | with_reducible apply Hel.next_canon | with_reducible apply State.issue_canon)

theorem execVbcast_canon (ch : Fin 28) (o : VOps) (i : Issue) (s : State) (hs : State.Canon s) : ∀ t, execVbcast ch o i s = .next t → State.Canon t := by
  intro t ht
  unfold execVbcast at ht
  injection ht with ht
  subst ht
  try dsimp only
  repeat' (first | with_reducible assumption | with_reducible apply Hel.next_canon | with_reducible apply State.issue_canon)

theorem execVredAddF32_canon (ch : Fin 28) (o : VOps) (i : Issue) (s : State) (hs : State.Canon s) : ∀ t, execVredAddF32 ch o i s = .next t → State.Canon t := by
  intro t ht
  unfold execVredAddF32 at ht
  injection ht with ht
  subst ht
  try dsimp only
  repeat' (first | with_reducible assumption | with_reducible apply Hel.next_canon | with_reducible apply State.issue_canon)

theorem execVredMaxF32_canon (ch : Fin 28) (o : VOps) (i : Issue) (s : State) (hs : State.Canon s) : ∀ t, execVredMaxF32 ch o i s = .next t → State.Canon t := by
  intro t ht
  unfold execVredMaxF32 at ht
  injection ht with ht
  subst ht
  try dsimp only
  repeat' (first | with_reducible assumption | with_reducible apply Hel.next_canon | with_reducible apply State.issue_canon)

theorem execVrcp_canon (ch : Fin 28) (o : VOps) (i : Issue) (s : State) (hs : State.Canon s) : ∀ t, execVrcp ch o i s = .next t → State.Canon t := by
  intro t ht
  unfold execVrcp at ht
  injection ht with ht
  subst ht
  try dsimp only
  repeat' (first | with_reducible assumption | with_reducible apply Hel.next_canon | with_reducible apply State.issue_canon)

theorem execVrsqrt_canon (ch : Fin 28) (o : VOps) (i : Issue) (s : State) (hs : State.Canon s) : ∀ t, execVrsqrt ch o i s = .next t → State.Canon t := by
  intro t ht
  unfold execVrsqrt at ht
  injection ht with ht
  subst ht
  try dsimp only
  repeat' (first | with_reducible assumption | with_reducible apply Hel.next_canon | with_reducible apply State.issue_canon)

theorem execVexp_canon (ch : Fin 28) (o : VOps) (i : Issue) (s : State) (hs : State.Canon s) : ∀ t, execVexp ch o i s = .next t → State.Canon t := by
  intro t ht
  unfold execVexp at ht
  injection ht with ht
  subst ht
  try dsimp only
  repeat' (first | with_reducible assumption | with_reducible apply Hel.next_canon | with_reducible apply State.issue_canon)

theorem execVlog_canon (ch : Fin 28) (o : VOps) (i : Issue) (s : State) (hs : State.Canon s) : ∀ t, execVlog ch o i s = .next t → State.Canon t := by
  intro t ht
  unfold execVlog at ht
  injection ht with ht
  subst ht
  try dsimp only
  repeat' (first | with_reducible assumption | with_reducible apply Hel.next_canon | with_reducible apply State.issue_canon)

theorem execCvtSat_canon (ch : Fin 28) (o : VOps) (i : Issue) (s : State) (hs : State.Canon s) : ∀ t, execCvtSat ch o i s = .next t → State.Canon t := by
  intro t ht
  unfold execCvtSat at ht
  injection ht with ht
  subst ht
  try dsimp only
  repeat' (first | with_reducible assumption | with_reducible apply Hel.next_canon | with_reducible apply State.issue_canon)

theorem execCvtIeee_canon (ch : Fin 28) (o : VOps) (i : Issue) (s : State) (hs : State.Canon s) : ∀ t, execCvtIeee ch o i s = .next t → State.Canon t := by
  intro t ht
  unfold execCvtIeee at ht
  injection ht with ht
  subst ht
  try dsimp only
  repeat' (first | with_reducible assumption | with_reducible apply Hel.next_canon | with_reducible apply State.issue_canon)

theorem execCvtUp_canon (ch : Fin 28) (o : VOps) (i : Issue) (s : State) (hs : State.Canon s) : ∀ t, execCvtUp ch o i s = .next t → State.Canon t := by
  intro t ht
  unfold execCvtUp at ht
  injection ht with ht
  subst ht
  try dsimp only
  repeat' (first | with_reducible assumption | with_reducible apply Hel.next_canon | with_reducible apply State.issue_canon)

theorem execTrnW_canon (ch : Fin 28) (o : VOps) (i : Issue) (s : State) (hs : State.Canon s) : ∀ t, execTrnW ch o i s = .next t → State.Canon t := by
  intro t ht
  unfold execTrnW at ht
  injection ht with ht
  subst ht
  try dsimp only
  repeat' (first | with_reducible assumption | with_reducible apply Hel.next_canon | with_reducible apply State.issue_canon)

theorem execTrnR_canon (ch : Fin 28) (o : VOps) (i : Issue) (s : State) (hs : State.Canon s) : ∀ t, execTrnR ch o i s = .next t → State.Canon t := by
  intro t ht
  unfold execTrnR at ht
  injection ht with ht
  subst ht
  try dsimp only
  repeat' (first | with_reducible assumption | with_reducible apply Hel.next_canon | with_reducible apply State.issue_canon)

theorem execMovAcc_canon (ch : Fin 28) (o : VOps) (i : Issue) (s : State) (hs : State.Canon s) : ∀ t, execMovAcc ch o i s = .next t → State.Canon t := by
  intro t ht
  unfold execMovAcc at ht
  injection ht with ht
  subst ht
  try dsimp only
  repeat' (first | with_reducible assumption | with_reducible apply Hel.next_canon | with_reducible apply State.issue_canon)

/-! ## Store -/

theorem execStS_canon (ch : Fin 28) (o : TOps) (i : Issue) (s : State) (hs : State.Canon s) : ∀ t, execStS ch o i s = .next t → State.Canon t := by
  intro t ht
  unfold execStS at ht
  injection ht with ht
  subst ht
  try dsimp only
  repeat' (first | with_reducible assumption | with_reducible apply Hel.next_canon | with_reducible apply State.issue_canon)

theorem execStV_canon (ch : Fin 28) (o : TOps) (i : Issue) (s : State) (hs : State.Canon s) : ∀ t, execStV ch o i s = .next t → State.Canon t := by
  intro t ht
  unfold execStV at ht
  injection ht with ht
  subst ht
  try dsimp only
  repeat' (first | with_reducible assumption | with_reducible apply Hel.next_canon | with_reducible apply State.issue_canon)

theorem execStD_canon (ch : Fin 28) (o : TOps) (i : Issue) (s : State) (hs : State.Canon s) : ∀ t, execStD ch o i s = .next t → State.Canon t := by
  intro t ht
  unfold execStD at ht
  injection ht with ht
  subst ht
  try dsimp only
  repeat' (first | with_reducible assumption | with_reducible apply Hel.next_canon | with_reducible apply State.issue_canon)

theorem execStT_canon (ch : Fin 28) (o : TOps) (i : Issue) (s : State) (hs : State.Canon s) : ∀ t, execStT ch o i s = .next t → State.Canon t := by
  intro t ht
  unfold execStT at ht
  injection ht with ht
  subst ht
  try dsimp only
  repeat' (first | with_reducible assumption | with_reducible apply Hel.next_canon | with_reducible apply State.issue_canon)

theorem execStAdd_canon (ch : Fin 28) (o : TOps) (i : Issue) (s : State) (hs : State.Canon s) : ∀ t, execStAdd ch o i s = .next t → State.Canon t := by
  intro t ht
  unfold execStAdd at ht
  injection ht with ht
  subst ht
  try dsimp only
  repeat' (first | with_reducible assumption | with_reducible apply Hel.next_canon | with_reducible apply State.issue_canon)

theorem execStAcc_canon (ch : Fin 28) (o : TOps) (i : Issue) (s : State) (hs : State.Canon s) : ∀ t, execStAcc ch o i s = .next t → State.Canon t := by
  intro t ht
  unfold execStAcc at ht
  injection ht with ht
  subst ht
  try dsimp only
  repeat' (first | with_reducible assumption | with_reducible apply Hel.next_canon | with_reducible apply State.issue_canon)

theorem execStAccAdd_canon (ch : Fin 28) (o : TOps) (i : Issue) (s : State) (hs : State.Canon s) : ∀ t, execStAccAdd ch o i s = .next t → State.Canon t := by
  intro t ht
  unfold execStAccAdd at ht
  injection ht with ht
  subst ht
  try dsimp only
  repeat' (first | with_reducible assumption | with_reducible apply Hel.next_canon | with_reducible apply State.issue_canon)

theorem execMv_canon (ch : Fin 28) (o : TOps) (i : Issue) (s : State) (hs : State.Canon s) : ∀ t, execMv ch o i s = .next t → State.Canon t := by
  intro t ht
  unfold execMv at ht
  injection ht with ht
  subst ht
  try dsimp only
  repeat' (first | with_reducible assumption | with_reducible apply Hel.next_canon | with_reducible apply State.issue_canon)

end Sys2Proof.Machine
end

