-- ==== Sys2Proof/Laws/KeepFlow.lean ====
section
/-! SUPPORT. Every operation of these modules keeps the memories canonical: Plan, Traverse, Keeper, Coder, Siphon. -/

namespace Sys2Proof.Machine

open Sys2Proof

/-! ## Plan -/

theorem State.readTable_canon (s : State) (base : Nat) (h : List Nat) (i : Nat) (hs : State.Canon s) : State.Canon (State.readTable s base h i).2.2 := by
  unfold State.readTable
  try dsimp only
  repeat' (first | with_reducible assumption | with_reducible apply State.read_canon | with_reducible apply ite_canon | split)

theorem State.readPlan_canon (s : State) (a : Nat) (hs : State.Canon s) : State.Canon (State.readPlan s a).2.2 := by
  unfold State.readPlan
  try dsimp only
  repeat' (first | with_reducible assumption | with_reducible apply State.readTable_canon | with_reducible apply State.read_canon | intro _)

/-! ## Traverse -/

theorem State.newToken_canon (s : State) (hs : State.Canon s) : State.Canon (State.newToken s).2 := by
  unfold State.newToken
  try dsimp only
  repeat' (first | with_reducible assumption | simp only [canon_mk, chOk_mk, helOk_mk])

theorem State.submitFls_canon (s : State) (ws : List Nat) (hs : State.Canon s) : State.Canon (State.submitFls s ws).2 := by
  unfold State.submitFls
  try dsimp only
  repeat' (first | with_reducible assumption | intro _ | with_reducible apply State.newToken_canon | with_reducible refine canon_snd (by with_reducible assumption) ?_ | with_reducible refine canon_snd2 (by with_reducible assumption) ?_ | with_reducible refine canon_snd3 (by with_reducible assumption) ?_ | with_reducible apply ite_canon | with_reducible apply ite_chOk | with_reducible apply ite_helOk | with_reducible apply ite_snd_canon | with_reducible apply ch_ok | with_reducible apply hel_ok | simp only [canon_mk, chOk_mk, helOk_mk] | split)

theorem State.submitPrefetch_canon (s : State) (obj : Nat) (us : Nat) (hs : State.Canon s) : State.Canon (State.submitPrefetch s obj us) := by
  unfold State.submitPrefetch
  try dsimp only
  repeat' (first | with_reducible assumption | with_reducible apply State.submitFls_canon)

theorem State.submitRelease_canon (s : State) (base : Nat) (bytes : Nat) (hs : State.Canon s) : State.Canon (State.submitRelease s base bytes).2 := by
  unfold State.submitRelease
  try dsimp only
  repeat' (first | with_reducible assumption | with_reducible apply State.submitFls_canon)

theorem State.submitCu_canon (s : State) (ws : List Nat) (hs : State.Canon s) : State.Canon (State.submitCu s ws).2 := by
  unfold State.submitCu
  try dsimp only
  repeat' (first | with_reducible assumption | intro _ | with_reducible apply State.newToken_canon | with_reducible refine canon_snd (by with_reducible assumption) ?_ | with_reducible refine canon_snd2 (by with_reducible assumption) ?_ | with_reducible refine canon_snd3 (by with_reducible assumption) ?_ | with_reducible apply ite_canon | with_reducible apply ite_chOk | with_reducible apply ite_helOk | with_reducible apply ite_snd_canon | with_reducible apply ch_ok | with_reducible apply hel_ok | simp only [canon_mk, chOk_mk, helOk_mk] | split)

theorem State.modTrv_canon (s : State) (f : Step → Step) (hs : State.Canon s) : State.Canon (State.modTrv s f) := by
  unfold State.modTrv
  try dsimp only
  repeat' (first | with_reducible assumption | simp only [canon_mk, chOk_mk, helOk_mk])

theorem State.progress_canon (s : State) (hs : State.Canon s) : State.Canon (State.progress s) := by
  unfold State.progress
  try dsimp only
  repeat' (first | with_reducible assumption | with_reducible apply State.puts_canon | split)

theorem State.prefetchPhase_canon (s : State) (t : Step) (ph : Nat) (hs : State.Canon s) : State.Canon (State.prefetchPhase s t ph) := by
  unfold State.prefetchPhase
  try dsimp only
  repeat' (first | with_reducible assumption | intro _ | with_reducible apply ite_canon | with_reducible apply State.submitPrefetch_canon | with_reducible apply ite_snd_canon | with_reducible apply ite_snd2_canon | with_reducible apply ite_snd3_canon | with_reducible apply foldl_canon | with_reducible apply modCh_ok | with_reducible apply setCh_ok | with_reducible apply setHel_ok | with_reducible apply ch_ok | with_reducible apply hel_ok | with_reducible apply ite_chOk | with_reducible apply ite_helOk | with_reducible exact chReset_ok | with_reducible exact helReset_ok | simp only [canon_mk, chOk_mk, helOk_mk] | split | with_reducible refine canon_snd (by with_reducible assumption) ?_ | with_reducible refine canon_snd2 (by with_reducible assumption) ?_ | with_reducible refine canon_snd3 (by with_reducible assumption) ?_ | with_reducible refine canon_fst (by with_reducible assumption) ?_ | with_reducible apply chOk_lit | with_reducible apply helOk_lit | with_reducible apply memWrite_wf | with_reducible apply memSet_wf | with_reducible apply memClear_wf | with_reducible apply localPut_wf | with_reducible apply foldl_memwf | with_reducible apply lmem_wf | with_reducible apply bmem_wf | with_reducible apply scratch_wf)

theorem State.endStepRec_canon (s : State) (q : StepReq) (status : Nat) (cause : Nat) (code : Nat) (hs : State.Canon s) : State.Canon (State.endStepRec s q status cause code) := by
  unfold State.endStepRec
  try dsimp only
  repeat' (first | with_reducible assumption | simp only [canon_mk, chOk_mk, helOk_mk] | intro _)

theorem State.toIdle_canon (s : State) (hs : State.Canon s) : State.Canon (State.toIdle s) := by
  unfold State.toIdle
  try dsimp only
  repeat' (first | with_reducible assumption | with_reducible apply State.copyArb_canon | with_reducible apply State.put_canon | simp only [canon_mk, chOk_mk, helOk_mk])

theorem State.serveFlsQueue_canon (s : State) (a0 : Nat) (hs : State.Canon s) : State.Canon (State.serveFlsQueue s a0) := by
  induction a0 generalizing s with
  | zero =>
    unfold State.serveFlsQueue
    try dsimp only
    repeat' (first | with_reducible assumption | intro _ | with_reducible apply State.flsRelease_canon | with_reducible apply State.flsPrefetch_canon | with_reducible apply State.runFls_canon | with_reducible refine canon_snd (by with_reducible assumption) ?_ | with_reducible refine canon_snd2 (by with_reducible assumption) ?_ | with_reducible refine canon_snd3 (by with_reducible assumption) ?_ | with_reducible apply ite_canon | with_reducible apply ite_chOk | with_reducible apply ite_helOk | with_reducible apply ite_snd_canon | with_reducible apply ch_ok | with_reducible apply hel_ok | simp only [canon_mk, chOk_mk, helOk_mk] | split)
  | succ x ih =>
    unfold State.serveFlsQueue
    try dsimp only
    repeat' (first | with_reducible assumption | intro _ | with_reducible apply ih | with_reducible apply State.flsRelease_canon | with_reducible apply State.flsPrefetch_canon | with_reducible apply State.runFls_canon | with_reducible refine canon_snd (by with_reducible assumption) ?_ | with_reducible refine canon_snd2 (by with_reducible assumption) ?_ | with_reducible refine canon_snd3 (by with_reducible assumption) ?_ | with_reducible apply ite_canon | with_reducible apply ite_chOk | with_reducible apply ite_helOk | with_reducible apply ite_snd_canon | with_reducible apply ch_ok | with_reducible apply hel_ok | simp only [canon_mk, chOk_mk, helOk_mk] | split)

theorem State.releaseAll_canon (s : State) (p : Plan) (hs : State.Canon s) : State.Canon (State.releaseAll s p) := by
  unfold State.releaseAll
  try dsimp only
  repeat' (first | with_reducible assumption | intro _ | with_reducible apply State.serveFlsQueue_canon | with_reducible apply State.submitRelease_canon | with_reducible apply ite_canon | with_reducible apply ite_chOk | with_reducible apply ite_helOk | with_reducible apply ite_snd_canon | with_reducible apply foldl_canon | with_reducible apply foldl_memwf | with_reducible apply ch_ok | with_reducible apply hel_ok | simp only [canon_mk, chOk_mk, helOk_mk] | split)

theorem State.endFailed_canon (s : State) (q : StepReq) (f : StepFail) (hs : State.Canon s) : State.Canon (State.endFailed s q f) := by
  unfold State.endFailed
  try dsimp only
  repeat' (first | with_reducible assumption | with_reducible apply State.toIdle_canon | with_reducible apply State.endStepRec_canon | with_reducible apply State.logErr_canon | with_reducible apply State.puts_canon | with_reducible apply State.count_canon | simp only [canon_mk, chOk_mk, helOk_mk] | split)

theorem State.commitStep_canon (s : State) (t : Step) (hs : State.Canon s) : State.Canon (State.commitStep s t) := by
  unfold State.commitStep
  try dsimp only
  repeat' (first | with_reducible assumption | with_reducible apply State.releaseAll_canon | with_reducible apply State.toIdle_canon | with_reducible apply State.endStepRec_canon | with_reducible apply State.postTo_canon | with_reducible apply State.postSig_canon | with_reducible apply State.puts_canon | with_reducible apply State.count_canon | with_reducible apply State.put_canon | with_reducible apply ite_canon | with_reducible apply foldl_canon | intro _ | split)

theorem execStepAccept_canon (s : State) (hs : State.Canon s) : ∀ t, execStepAccept s = .next t → State.Canon t := by
  intro t ht
  unfold execStepAccept at ht
  injection ht with ht
  subst ht
  try dsimp only
  repeat' (first | with_reducible assumption | with_reducible apply State.endFailed_canon | with_reducible apply State.prefetchPhase_canon | with_reducible apply State.progress_canon | with_reducible apply State.readPlan_canon | with_reducible apply Hel.next_canon | with_reducible apply State.fail_canon | with_reducible apply State.wake_canon | with_reducible apply State.puts_canon | with_reducible apply ite_canon | simp only [canon_mk, chOk_mk, helOk_mk] | split)

theorem execMicrobatchAdmit_canon (s : State) (hs : State.Canon s) : ∀ t, execMicrobatchAdmit s = .next t → State.Canon t := by
  intro t ht
  unfold execMicrobatchAdmit at ht
  injection ht with ht
  subst ht
  try dsimp only
  repeat' (first | with_reducible assumption | with_reducible apply State.prefetchPhase_canon | with_reducible apply State.modTrv_canon | with_reducible apply Hel.next_canon | with_reducible apply ite_canon | simp only [canon_mk, chOk_mk, helOk_mk] | intro _ | split)

theorem State.loadProgram_canon (s : State) (t : Step) (n : Nat) (w : List Nat) (hs : State.Canon s) : State.Canon (State.loadProgram s t n w).2 := by
  unfold State.loadProgram
  try dsimp only
  repeat' (first | with_reducible assumption | intro _ | with_reducible apply ite_canon | with_reducible apply State.read_canon | with_reducible apply ite_snd_canon | with_reducible apply ite_snd2_canon | with_reducible apply ite_snd3_canon | with_reducible apply foldl_canon | with_reducible apply modCh_ok | with_reducible apply setCh_ok | with_reducible apply setHel_ok | with_reducible apply ch_ok | with_reducible apply hel_ok | with_reducible apply ite_chOk | with_reducible apply ite_helOk | with_reducible exact chReset_ok | with_reducible exact helReset_ok | simp only [canon_mk, chOk_mk, helOk_mk] | split | with_reducible refine canon_snd (by with_reducible assumption) ?_ | with_reducible refine canon_snd2 (by with_reducible assumption) ?_ | with_reducible refine canon_snd3 (by with_reducible assumption) ?_ | with_reducible refine canon_fst (by with_reducible assumption) ?_ | with_reducible apply chOk_lit | with_reducible apply helOk_lit | with_reducible apply memWrite_wf | with_reducible apply memSet_wf | with_reducible apply memClear_wf | with_reducible apply localPut_wf | with_reducible apply foldl_memwf | with_reducible apply lmem_wf | with_reducible apply bmem_wf | with_reducible apply scratch_wf)

theorem State.loadRegs_canon (s : State) (a0 : Nat) (a1 : List Nat) (hs : State.Canon s) : State.Canon (State.loadRegs s a0 a1) := by
  induction a1 generalizing s a0 with
  | nil =>
    unfold State.loadRegs
    try dsimp only
    repeat' (first | with_reducible assumption | with_reducible apply State.writeFields_canon | split | with_reducible apply ih)
  | cons x l ih =>
    unfold State.loadRegs
    try dsimp only
    repeat' (first | with_reducible assumption | with_reducible apply State.writeFields_canon | split | with_reducible apply ih)

theorem State.loadRegions_canon (s : State) (t : Step) (n : Nat) (w : List Nat) (hs : State.Canon s) : State.Canon (State.loadRegions s t n w).2 := by
  unfold State.loadRegions
  try dsimp only
  repeat' (first | with_reducible assumption | with_reducible apply State.loadRegs_canon | with_reducible apply State.read_canon | with_reducible apply ite_canon | with_reducible apply modCh_ok | with_reducible apply setCh_ok | with_reducible apply ch_ok | simp only [canon_mk, chOk_mk, helOk_mk] | intro _ | split)

theorem State.beginInst_canon (s : State) (t : Step) (x : Inst) (ch : Option Nat) (tok : Nat) (hs : State.Canon s) : State.Canon (State.beginInst s t x ch tok) := by
  unfold State.beginInst
  try dsimp only
  repeat' (first | with_reducible assumption | with_reducible apply State.prefetchPhase_canon | with_reducible apply State.modTrv_canon | with_reducible apply ite_canon | simp only [canon_mk, chOk_mk, helOk_mk] | intro _ | split)

theorem State.startOnChamber_canon (s : State) (t : Step) (x : Inst) (l : Nat) (n : Nat) (hs : State.Canon s) : State.Canon (State.startOnChamber s t x l n) := by
  unfold State.startOnChamber
  try dsimp only
  repeat' (first | with_reducible assumption | intro _ | with_reducible apply State.beginInst_canon | with_reducible apply State.loadRegions_canon | with_reducible apply State.loadProgram_canon | with_reducible apply State.modTrv_canon | with_reducible apply State.writeCtl_canon | with_reducible apply State.wake_canon | with_reducible apply State.logErr_canon | with_reducible refine canon_snd (by with_reducible assumption) ?_ | with_reducible refine canon_snd2 (by with_reducible assumption) ?_ | with_reducible refine canon_snd3 (by with_reducible assumption) ?_ | with_reducible apply ite_canon | with_reducible apply ite_chOk | with_reducible apply ite_helOk | with_reducible apply ite_snd_canon | with_reducible apply modCh_ok | with_reducible apply setCh_ok | with_reducible apply ch_ok | with_reducible apply hel_ok | simp only [canon_mk, chOk_mk, helOk_mk] | split)

theorem State.startOnHelictites_canon (s : State) (t : Step) (x : Inst) (hs : State.Canon s) : State.Canon (State.startOnHelictites s t x) := by
  unfold State.startOnHelictites
  try dsimp only
  repeat' (first | with_reducible assumption | intro _ | with_reducible apply State.beginInst_canon | with_reducible apply State.newToken_canon | with_reducible apply State.wake_canon | with_reducible refine canon_snd (by with_reducible assumption) ?_ | with_reducible refine canon_snd2 (by with_reducible assumption) ?_ | with_reducible refine canon_snd3 (by with_reducible assumption) ?_ | with_reducible apply ite_canon | with_reducible apply ite_chOk | with_reducible apply ite_helOk | with_reducible apply ite_snd_canon | with_reducible apply ch_ok | with_reducible apply hel_ok | simp only [canon_mk, chOk_mk, helOk_mk] | split)

theorem execInstanceDispatch_canon (s : State) (hs : State.Canon s) : ∀ t, execInstanceDispatch s = .next t → State.Canon t := by
  intro t ht
  unfold execInstanceDispatch at ht
  injection ht with ht
  subst ht
  try dsimp only
  repeat' (first | with_reducible assumption | with_reducible apply State.startOnHelictites_canon | with_reducible apply State.startOnChamber_canon | with_reducible apply Hel.next_canon | with_reducible apply State.count_canon | with_reducible apply ite_canon | intro _ | split)

theorem State.postCredit_canon (s : State) (t : Step) (x : Inst) (hs : State.Canon s) : State.Canon (State.postCredit s t x) := by
  unfold State.postCredit
  try dsimp only
  repeat' (first | with_reducible assumption | with_reducible apply State.postTo_canon | with_reducible apply ite_canon | intro _ | split)

theorem State.freeBlocks_canon (s : State) (hs : State.Canon s) : State.Canon (State.freeBlocks s) := by
  unfold State.freeBlocks
  try dsimp only
  repeat' (first | with_reducible assumption | intro _ | with_reducible apply ite_canon | with_reducible apply State.modTrv_canon | with_reducible apply State.postTo_canon | with_reducible apply ite_snd_canon | with_reducible apply ite_snd2_canon | with_reducible apply ite_snd3_canon | with_reducible apply foldl_canon | with_reducible apply modCh_ok | with_reducible apply setCh_ok | with_reducible apply setHel_ok | with_reducible apply ch_ok | with_reducible apply hel_ok | with_reducible apply ite_chOk | with_reducible apply ite_helOk | with_reducible exact chReset_ok | with_reducible exact helReset_ok | simp only [canon_mk, chOk_mk, helOk_mk] | split | with_reducible refine canon_snd (by with_reducible assumption) ?_ | with_reducible refine canon_snd2 (by with_reducible assumption) ?_ | with_reducible refine canon_snd3 (by with_reducible assumption) ?_ | with_reducible refine canon_fst (by with_reducible assumption) ?_ | with_reducible apply chOk_lit | with_reducible apply helOk_lit | with_reducible apply memWrite_wf | with_reducible apply memSet_wf | with_reducible apply memClear_wf | with_reducible apply localPut_wf | with_reducible apply foldl_memwf | with_reducible apply lmem_wf | with_reducible apply bmem_wf | with_reducible apply scratch_wf)

theorem State.dropCopy_canon (s : State) (t : Step) (e : Nat) (hs : State.Canon s) : State.Canon (State.dropCopy s t e) := by
  unfold State.dropCopy
  try dsimp only
  repeat' (first | with_reducible assumption | with_reducible apply State.modTrv_canon | with_reducible apply State.submitRelease_canon | with_reducible apply State.count_canon | simp only [canon_mk, chOk_mk, helOk_mk] | intro _ | split)

theorem State.dropUsed_canon (s : State) (x : Inst) (hs : State.Canon s) : State.Canon (State.dropUsed s x) := by
  unfold State.dropUsed
  try dsimp only
  repeat' (first | with_reducible assumption | with_reducible apply State.dropCopy_canon | with_reducible apply ite_canon | split)

theorem State.completeInst_canon (s : State) (x : Inst) (hs : State.Canon s) : State.Canon (State.completeInst s x) := by
  unfold State.completeInst
  try dsimp only
  repeat' (first | with_reducible assumption | with_reducible apply State.dropUsed_canon | with_reducible apply State.freeBlocks_canon | with_reducible apply State.postCredit_canon | with_reducible apply State.progress_canon | with_reducible apply State.modTrv_canon | with_reducible apply State.postTo_canon | with_reducible apply ite_canon | simp only [canon_mk, chOk_mk, helOk_mk] | intro _ | split)

theorem execInstanceComplete_canon (k : BitVec 16) (s : State) (hs : State.Canon s) : ∀ t, execInstanceComplete k s = .next t → State.Canon t := by
  intro t ht
  unfold execInstanceComplete at ht
  injection ht with ht
  subst ht
  try dsimp only
  repeat' (first | with_reducible assumption | with_reducible apply State.completeInst_canon | with_reducible apply State.modTrv_canon | with_reducible apply Hel.next_canon | with_reducible apply ite_canon | simp only [canon_mk, chOk_mk, helOk_mk] | intro _ | split)

theorem execRingBlockSend_canon (r : Fin 4) (s : State) (hs : State.Canon s) : ∀ t, execRingBlockSend r s = .next t → State.Canon t := by
  intro t ht
  unfold execRingBlockSend at ht
  try dsimp only at ht
  injection ht with ht
  subst ht
  try dsimp only
  repeat' (first | with_reducible assumption | intro _ | with_reducible apply State.freeBlocks_canon | with_reducible apply State.modTrv_canon | with_reducible apply State.submitCu_canon | with_reducible apply Hel.next_canon | with_reducible refine canon_snd (by with_reducible assumption) ?_ | with_reducible refine canon_snd2 (by with_reducible assumption) ?_ | with_reducible refine canon_snd3 (by with_reducible assumption) ?_ | with_reducible apply ite_canon | with_reducible apply ite_chOk | with_reducible apply ite_helOk | with_reducible apply ite_snd_canon | with_reducible apply ch_ok | with_reducible apply hel_ok | simp only [canon_mk, chOk_mk, helOk_mk] | split)

theorem execQueueSlotSend_canon (q : Fin 8) (s : State) (hs : State.Canon s) : ∀ t, execQueueSlotSend q s = .next t → State.Canon t := by
  intro t ht
  unfold execQueueSlotSend at ht
  try dsimp only at ht
  injection ht with ht
  subst ht
  try dsimp only
  repeat' (first | with_reducible assumption | intro _ | with_reducible apply State.modTrv_canon | with_reducible apply State.submitCu_canon | with_reducible apply Hel.next_canon | with_reducible refine canon_snd (by with_reducible assumption) ?_ | with_reducible refine canon_snd2 (by with_reducible assumption) ?_ | with_reducible refine canon_snd3 (by with_reducible assumption) ?_ | with_reducible apply ite_canon | with_reducible apply ite_chOk | with_reducible apply ite_helOk | with_reducible apply ite_snd_canon | with_reducible apply ch_ok | with_reducible apply hel_ok | simp only [canon_mk, chOk_mk, helOk_mk] | split)

theorem State.dropFor_canon (need : Nat) (t : Step) (a0 : List Nat) (a1 : Nat) (a2 : State) (hs : State.Canon a2) : State.Canon (State.dropFor need t a0 a1 a2) := by
  induction a0 generalizing need t a1 a2 with
  | nil =>
    unfold State.dropFor
    try dsimp only
    repeat' (first | with_reducible assumption | with_reducible apply State.dropCopy_canon | with_reducible apply ite_canon | split | with_reducible apply ih)
  | cons x l ih =>
    unfold State.dropFor
    try dsimp only
    repeat' (first | with_reducible assumption | with_reducible apply State.dropCopy_canon | with_reducible apply ite_canon | split | with_reducible apply ih)

theorem execGatherIssue_canon (e : BitVec 8) (s : State) (hs : State.Canon s) : ∀ t, execGatherIssue e s = .next t → State.Canon t := by
  intro t ht
  unfold execGatherIssue at ht
  try dsimp only at ht
  injection ht with ht
  subst ht
  try dsimp only
  repeat' (first | with_reducible assumption | intro _ | with_reducible apply State.dropFor_canon | with_reducible apply State.modTrv_canon | with_reducible apply State.submitCu_canon | with_reducible apply State.submitPrefetch_canon | with_reducible apply Hel.next_canon | with_reducible apply State.count_canon | with_reducible refine canon_snd (by with_reducible assumption) ?_ | with_reducible refine canon_snd2 (by with_reducible assumption) ?_ | with_reducible refine canon_snd3 (by with_reducible assumption) ?_ | with_reducible apply ite_canon | with_reducible apply ite_chOk | with_reducible apply ite_helOk | with_reducible apply ite_snd_canon | with_reducible apply ch_ok | with_reducible apply hel_ok | simp only [canon_mk, chOk_mk, helOk_mk] | split)

theorem State.partStamps_canon (s : State) (base : Nat) (len : Nat) (a0 : Nat) (hs : State.Canon s) : State.Canon (State.partStamps s base len a0).2.2 := by
  induction a0 generalizing s base len with
  | zero =>
    unfold State.partStamps
    try dsimp only
    repeat' (first | with_reducible assumption | with_reducible apply State.read_canon | with_reducible apply ih)
  | succ x ih =>
    unfold State.partStamps
    try dsimp only
    repeat' (first | with_reducible assumption | with_reducible apply State.read_canon | with_reducible apply ih)

theorem execGatherLanded_canon (e : BitVec 8) (s : State) (hs : State.Canon s) : ∀ t, execGatherLanded e s = .next t → State.Canon t := by
  intro t ht
  unfold execGatherLanded at ht
  injection ht with ht
  subst ht
  try dsimp only
  repeat' (first | with_reducible assumption | with_reducible apply State.partStamps_canon | with_reducible apply State.modTrv_canon | with_reducible apply Hel.next_canon | with_reducible apply ite_canon | simp only [canon_mk, chOk_mk, helOk_mk] | intro _ | split)

theorem State.sendMark_canon (s : State) (ahead : Nat) (stamp : Nat) (hs : State.Canon s) : State.Canon (State.sendMark s ahead stamp) := by
  unfold State.sendMark
  try dsimp only
  repeat' (first | with_reducible assumption | with_reducible apply ite_canon | simp only [canon_mk, chOk_mk, helOk_mk] | split)

theorem execStepComplete_canon (s : State) (hs : State.Canon s) : ∀ t, execStepComplete s = .next t → State.Canon t := by
  intro t ht
  unfold execStepComplete at ht
  injection ht with ht
  subst ht
  try dsimp only
  repeat' (first | with_reducible assumption | with_reducible apply State.sendMark_canon | with_reducible apply State.freeBlocks_canon | with_reducible apply State.commitStep_canon | with_reducible apply State.endFailed_canon | with_reducible apply State.releaseAll_canon | with_reducible apply State.modTrv_canon | with_reducible apply Hel.next_canon | with_reducible apply State.put_canon | with_reducible apply ite_canon | simp only [canon_mk, chOk_mk, helOk_mk] | intro _ | split)

theorem State.stopChambers_canon (s : State) (hs : State.Canon s) : State.Canon (State.stopChambers s) := by
  unfold State.stopChambers
  try dsimp only
  repeat' (first | with_reducible assumption | intro _ | with_reducible apply State.ctlArrives_canon | with_reducible refine canon_snd (by with_reducible assumption) ?_ | with_reducible refine canon_snd2 (by with_reducible assumption) ?_ | with_reducible refine canon_snd3 (by with_reducible assumption) ?_ | with_reducible apply ite_canon | with_reducible apply ite_chOk | with_reducible apply ite_helOk | with_reducible apply ite_snd_canon | with_reducible apply foldl_canon | with_reducible apply foldl_memwf | with_reducible apply ch_ok | with_reducible apply hel_ok | simp only [canon_mk, chOk_mk, helOk_mk] | split)

theorem State.stopStep_canon (s : State) (hs : State.Canon s) : State.Canon (State.stopStep s) := by
  unfold State.stopStep
  try dsimp only
  repeat' (first | with_reducible assumption | intro _ | with_reducible apply State.stopChambers_canon | with_reducible apply State.modTrv_canon | with_reducible apply ite_canon | with_reducible apply ite_chOk | with_reducible apply ite_helOk | with_reducible apply ite_snd_canon | with_reducible apply setCh_ok | with_reducible apply ch_ok | with_reducible apply hel_ok | simp only [canon_mk, chOk_mk, helOk_mk] | split)

theorem State.beginEnding_canon (s : State) (f : StepFail) (hs : State.Canon s) : State.Canon (State.beginEnding s f) := by
  unfold State.beginEnding
  try dsimp only
  repeat' (first | with_reducible assumption | with_reducible apply State.modTrv_canon | with_reducible apply State.put_canon | simp only [canon_mk, chOk_mk, helOk_mk] | intro _)

theorem State.reportIfDone_canon (s : State) (hs : State.Canon s) : State.Canon (State.reportIfDone s) := by
  unfold State.reportIfDone
  try dsimp only
  repeat' (first | with_reducible assumption | with_reducible apply State.endFailed_canon | with_reducible apply State.releaseAll_canon | with_reducible apply State.fail_canon | with_reducible apply ite_canon | split)

theorem execStepFail_canon (s : State) (hs : State.Canon s) : ∀ t, execStepFail s = .next t → State.Canon t := by
  intro t ht
  unfold execStepFail at ht
  injection ht with ht
  subst ht
  try dsimp only
  repeat' (first | with_reducible assumption | with_reducible apply State.reportIfDone_canon | with_reducible apply State.beginEnding_canon | with_reducible apply Hel.next_canon | with_reducible apply State.fail_canon | with_reducible apply ite_canon | split)

theorem execStallTimeout_canon (s : State) (hs : State.Canon s) : ∀ t, execStallTimeout s = .next t → State.Canon t := by
  intro t ht
  unfold execStallTimeout at ht
  injection ht with ht
  subst ht
  try dsimp only
  repeat' (first | with_reducible assumption | with_reducible apply State.reportIfDone_canon | with_reducible apply State.beginEnding_canon | with_reducible apply Hel.next_canon | with_reducible apply ite_canon | split)

theorem execRunonExpire_canon (s : State) (hs : State.Canon s) : ∀ t, execRunonExpire s = .next t → State.Canon t := by
  intro t ht
  unfold execRunonExpire at ht
  injection ht with ht
  subst ht
  try dsimp only
  repeat' (first | with_reducible assumption | with_reducible apply State.reportIfDone_canon | with_reducible apply State.stopStep_canon | with_reducible apply Hel.next_canon | with_reducible apply ite_canon | split)

theorem State.trvAbort_canon (s : State) (hs : State.Canon s) : State.Canon (State.trvAbort s) := by
  unfold State.trvAbort
  try dsimp only
  repeat' (first | with_reducible assumption | intro _ | with_reducible apply State.reportIfDone_canon | with_reducible apply State.beginEnding_canon | with_reducible apply State.stopChambers_canon | with_reducible apply ite_canon | with_reducible apply ite_chOk | with_reducible apply ite_helOk | with_reducible apply ite_snd_canon | with_reducible apply setCh_ok | with_reducible apply ch_ok | with_reducible apply hel_ok | simp only [canon_mk, chOk_mk, helOk_mk] | split)

theorem execTrvAbort_canon (s : State) (hs : State.Canon s) : ∀ t, execTrvAbort s = .next t → State.Canon t := by
  intro t ht
  unfold execTrvAbort at ht
  injection ht with ht
  subst ht
  try dsimp only
  repeat' (first | with_reducible assumption | with_reducible apply State.trvAbort_canon | with_reducible apply Hel.next_canon)

/-! ## Keeper -/

theorem State.readKeeper_canon (s : State) (a : Nat) (version : Nat) (mode : KprMode) (hs : State.Canon s) : State.Canon (State.readKeeper s a version mode).2.2 := by
  unfold State.readKeeper
  try dsimp only
  repeat' (first | with_reducible assumption | intro _ | with_reducible apply State.read_canon | with_reducible refine canon_snd (by with_reducible assumption) ?_ | with_reducible refine canon_snd2 (by with_reducible assumption) ?_ | with_reducible refine canon_snd3 (by with_reducible assumption) ?_ | with_reducible apply ite_canon | with_reducible apply ite_chOk | with_reducible apply ite_helOk | with_reducible apply ite_snd_canon | with_reducible apply ch_ok | with_reducible apply hel_ok | simp only [canon_mk, chOk_mk, helOk_mk] | split)

theorem State.kprRecord_canon (s : State) (hs : State.Canon s) : State.Canon (State.kprRecord s) := by
  unfold State.kprRecord
  try dsimp only
  repeat' (first | with_reducible assumption | intro _ | with_reducible apply State.write_canon | with_reducible apply ite_canon | with_reducible apply ite_chOk | with_reducible apply ite_helOk | with_reducible apply ite_snd_canon | with_reducible apply ch_ok | with_reducible apply hel_ok | simp only [canon_mk, chOk_mk, helOk_mk] | split)

theorem State.kprState_canon (s : State) (st : Nat) (hs : State.Canon s) : State.Canon (State.kprState s st) := by
  unfold State.kprState
  try dsimp only
  repeat' (first | with_reducible assumption | with_reducible apply State.kprRecord_canon | with_reducible apply State.put_canon)

theorem State.setKpr_canon (s : State) (peer : Bool) (k : Option Keeper) (hs : State.Canon s) : State.Canon (State.setKpr s peer k) := by
  unfold State.setKpr
  try dsimp only
  repeat' (first | with_reducible assumption | with_reducible apply ite_canon | simp only [canon_mk, chOk_mk, helOk_mk] | split)

theorem State.kprFail_canon (s : State) (peer : Bool) (k : Keeper) (cause worker : Nat) (hs : State.Canon s) :
    State.Canon (State.kprFail s peer k cause worker) := by
  have key : ∀ u : State, State.Canon u → State.Canon { u with kpr := none, kprPeer := none } := fun u hu => hu
  unfold State.kprFail
  extract_lets s1 s2
  have h2 : State.Canon s2 := State.logErr_canon _ _ (State.puts_canon _ _ hs)
  clear_value s2
  exact State.kprState_canon _ _ (key _ h2)

theorem State.kprOff_canon (s : State) (hs : State.Canon s) : State.Canon (State.kprOff s) := by
  unfold State.kprOff
  try dsimp only
  repeat' (first | with_reducible assumption | with_reducible apply State.kprState_canon | simp only [canon_mk, chOk_mk, helOk_mk])

theorem State.postVersig_canon (s : State) (k : Keeper) (hs : State.Canon s) : State.Canon (State.postVersig s k) := by
  unfold State.postVersig
  try dsimp only
  repeat' (first | with_reducible assumption | with_reducible apply State.postTo_canon | with_reducible apply foldl_canon | intro _)

theorem State.kprStart_canon (s : State) (hs : State.Canon s) : State.Canon (State.kprStart s) := by
  unfold State.kprStart
  try dsimp only
  repeat' (first | with_reducible assumption | intro _ | with_reducible apply State.postVersig_canon | with_reducible apply State.kprState_canon | with_reducible apply State.readKeeper_canon | with_reducible apply State.puts_canon | with_reducible apply State.put_canon | with_reducible refine canon_snd (by with_reducible assumption) ?_ | with_reducible refine canon_snd2 (by with_reducible assumption) ?_ | with_reducible refine canon_snd3 (by with_reducible assumption) ?_ | with_reducible apply ite_canon | with_reducible apply ite_chOk | with_reducible apply ite_helOk | with_reducible apply ite_snd_canon | with_reducible apply ch_ok | with_reducible apply hel_ok | simp only [canon_mk, chOk_mk, helOk_mk] | split)

theorem State.kprStop_canon (s : State) (hs : State.Canon s) : State.Canon (State.kprStop s) := by
  unfold State.kprStop
  try dsimp only
  repeat' (first | with_reducible assumption | with_reducible apply State.kprOff_canon | with_reducible apply ite_canon | simp only [canon_mk, chOk_mk, helOk_mk] | intro _ | split)

theorem State.putKprCtl_canon (s : State) (fresh : Bool) (table : Nat) (hs : State.Canon s) : State.Canon (State.putKprCtl s fresh table) := by
  unfold State.putKprCtl
  try dsimp only
  repeat' (first | with_reducible assumption | intro _ | with_reducible apply State.kprRecord_canon | with_reducible apply State.puts_canon | with_reducible apply ite_canon | with_reducible apply ite_chOk | with_reducible apply ite_helOk | with_reducible apply ite_snd_canon | with_reducible apply ch_ok | with_reducible apply hel_ok | simp only [canon_mk, chOk_mk, helOk_mk] | split)

theorem State.writeKprCtl_canon (s : State) (agent : Nat) (start : Bool) (stop : Bool) (fresh : Bool) (table : Nat) (hs : State.Canon s) : State.Canon (State.writeKprCtl s agent start stop fresh table) := by
  unfold State.writeKprCtl
  try dsimp only
  repeat' (first | with_reducible assumption | intro _ | with_reducible apply State.putKprCtl_canon | with_reducible apply State.kprStop_canon | with_reducible apply State.kprStart_canon | with_reducible apply Hel.start_canon | with_reducible apply State.violGlb_canon | with_reducible apply ite_canon | with_reducible apply ite_chOk | with_reducible apply ite_helOk | with_reducible apply ite_snd_canon | with_reducible apply ch_ok | with_reducible apply hel_ok | simp only [canon_mk, chOk_mk, helOk_mk] | split)

theorem execKeeperStart_canon (fresh : Bool) (table : BitVec 48) (s : State) (hs : State.Canon s) : ∀ t, execKeeperStart fresh table s = .next t → State.Canon t := by
  intro t ht
  unfold execKeeperStart at ht
  injection ht with ht
  subst ht
  try dsimp only
  repeat' (first | with_reducible assumption | with_reducible apply State.writeKprCtl_canon | with_reducible apply Hel.next_canon)

theorem execKeeperStop_canon (s : State) (hs : State.Canon s) : ∀ t, execKeeperStop s = .next t → State.Canon t := by
  intro t ht
  unfold execKeeperStop at ht
  injection ht with ht
  subst ht
  try dsimp only
  repeat' (first | with_reducible assumption | with_reducible apply State.writeKprCtl_canon | with_reducible apply Hel.next_canon)

theorem State.kprOnChamber_canon (s : State) (peer : Bool) (k : Keeper) (i : Nat) (n : Nat) (hs : State.Canon s) : State.Canon (State.kprOnChamber s peer k i n) := by
  unfold State.kprOnChamber
  try dsimp only
  repeat' (first | with_reducible assumption | intro _ | with_reducible apply State.kprFail_canon | with_reducible apply State.setKpr_canon | with_reducible apply State.writeCtl_canon | with_reducible apply State.read_canon | with_reducible refine canon_snd (by with_reducible assumption) ?_ | with_reducible refine canon_snd2 (by with_reducible assumption) ?_ | with_reducible refine canon_snd3 (by with_reducible assumption) ?_ | with_reducible apply ite_canon | with_reducible apply ite_chOk | with_reducible apply ite_helOk | with_reducible apply ite_snd_canon | with_reducible apply modCh_ok | with_reducible apply setCh_ok | with_reducible apply ch_ok | with_reducible apply hel_ok | with_reducible apply memWrite_wf | with_reducible apply lmem_wf | with_reducible apply bmem_wf | with_reducible apply mem_wf | with_reducible apply canon_lit | simp only [canon_mk, chOk_mk, helOk_mk] | with_reducible apply chOk_lit | split)

theorem State.kprHlcWords_canon (s : State) (k : Keeper) (i : Nat) (hs : State.Canon s) : State.Canon (State.kprHlcWords s k i).2 := by
  unfold State.kprHlcWords
  try dsimp only
  repeat' (first | with_reducible assumption | with_reducible apply State.readWord_canon)

theorem State.kprStartJob_canon (s : State) (peer : Bool) (k : Keeper) (i : Nat) (hs : State.Canon s) : State.Canon (State.kprStartJob s peer k i) := by
  unfold State.kprStartJob
  try dsimp only
  repeat' (first | with_reducible assumption | intro _ | with_reducible apply State.kprHlcWords_canon | with_reducible apply State.kprOnChamber_canon | with_reducible apply State.setKpr_canon | with_reducible apply State.newToken_canon | with_reducible apply State.halt_canon | with_reducible apply State.wake_canon | with_reducible refine canon_snd (by with_reducible assumption) ?_ | with_reducible refine canon_snd2 (by with_reducible assumption) ?_ | with_reducible refine canon_snd3 (by with_reducible assumption) ?_ | with_reducible apply ite_canon | with_reducible apply ite_chOk | with_reducible apply ite_helOk | with_reducible apply ite_snd_canon | with_reducible apply setCh_ok | with_reducible apply ch_ok | with_reducible apply hel_ok | with_reducible apply chReset_ok | with_reducible apply helReset_ok | simp only [canon_mk, chOk_mk, helOk_mk] | split)

theorem State.kprSend_canon (s : State) (peer : Bool) (k : Keeper) (i : Nat) (hs : State.Canon s) : State.Canon (State.kprSend s peer k i) := by
  unfold State.kprSend
  try dsimp only
  repeat' (first | with_reducible assumption | intro _ | with_reducible apply State.setKpr_canon | with_reducible apply State.newToken_canon | with_reducible apply State.write_canon | with_reducible refine canon_snd (by with_reducible assumption) ?_ | with_reducible refine canon_snd2 (by with_reducible assumption) ?_ | with_reducible refine canon_snd3 (by with_reducible assumption) ?_ | with_reducible apply ite_canon | with_reducible apply ite_chOk | with_reducible apply ite_helOk | with_reducible apply ite_snd_canon | with_reducible apply ch_ok | with_reducible apply hel_ok | simp only [canon_mk, chOk_mk, helOk_mk] | split)

theorem State.kprWork_canon (s : State) (peer : Bool) (k : Keeper) (i : Nat) (w : KprWorker) (hs : State.Canon s) : State.Canon (State.kprWork s peer k i w) := by
  unfold State.kprWork
  try dsimp only
  repeat' (first | with_reducible assumption | intro _ | with_reducible apply State.kprSend_canon | with_reducible apply State.kprStartJob_canon | with_reducible apply State.kprOff_canon | with_reducible apply State.kprFail_canon | with_reducible apply State.setKpr_canon | with_reducible apply State.submitPrefetch_canon | with_reducible refine canon_snd (by with_reducible assumption) ?_ | with_reducible refine canon_snd2 (by with_reducible assumption) ?_ | with_reducible refine canon_snd3 (by with_reducible assumption) ?_ | with_reducible apply ite_canon | with_reducible apply ite_chOk | with_reducible apply ite_helOk | with_reducible apply ite_snd_canon | with_reducible apply ch_ok | with_reducible apply hel_ok | simp only [canon_mk, chOk_mk, helOk_mk] | split)

theorem execKeeperUpdate_canon (peer : Bool) (i : Fin 8) (s : State) (hs : State.Canon s) : ∀ t, execKeeperUpdate peer i s = .next t → State.Canon t := by
  intro t ht
  unfold execKeeperUpdate at ht
  injection ht with ht
  subst ht
  try dsimp only
  repeat' (first | with_reducible assumption | with_reducible apply State.kprWork_canon | with_reducible apply Hel.next_canon | split)

theorem State.kprPost_canon (s : State) (peer : Bool) (k : Keeper) (hs : State.Canon s) : State.Canon (State.kprPost s peer k) := by
  unfold State.kprPost
  try dsimp only
  repeat' (first | with_reducible assumption | with_reducible apply State.postVersig_canon | with_reducible apply State.setKpr_canon | with_reducible apply Hel.next_canon)

theorem State.kprAdvance_canon (s : State) (peer : Bool) (k : Keeper) (hs : State.Canon s) : State.Canon (State.kprAdvance s peer k) := by
  unfold State.kprAdvance
  try dsimp only
  repeat' (first | with_reducible assumption | with_reducible apply State.kprState_canon | with_reducible apply State.kprRecord_canon | with_reducible apply State.put_canon | with_reducible apply ite_canon | split)

theorem execKeeperPublish_canon (peer : Bool) (s : State) (hs : State.Canon s) : ∀ t, execKeeperPublish peer s = .next t → State.Canon t := by
  intro t ht
  unfold execKeeperPublish at ht
  injection ht with ht
  subst ht
  try dsimp only
  repeat' (first | with_reducible assumption | with_reducible apply State.kprAdvance_canon | with_reducible apply State.kprPost_canon | with_reducible apply State.setKpr_canon | with_reducible apply State.sendMark_canon | with_reducible apply Hel.next_canon | with_reducible apply ite_canon | simp only [canon_mk, chOk_mk, helOk_mk] | intro _ | split)

/-! ## Coder -/

theorem State.coderEnable_canon (s : State) (n : Nat) (hs : State.Canon s) : State.Canon (State.coderEnable s n) := by
  unfold State.coderEnable
  try dsimp only
  repeat' (first | with_reducible assumption | with_reducible apply State.enableRing_canon | with_reducible apply State.puts_canon)

theorem State.endCoderJob_canon (s : State) (n : Nat) (recAddr : Nat) (doneSig : Nat) (status : Nat) (poisonAt : Nat) (hs : State.Canon s) : State.Canon (State.endCoderJob s n recAddr doneSig status poisonAt) := by
  unfold State.endCoderJob
  try dsimp only
  repeat' (first | with_reducible assumption | intro _ | with_reducible apply State.chWrite_canon | with_reducible apply State.poisonAt_canon | with_reducible apply State.takeJob_canon | with_reducible apply State.endWork_canon | with_reducible apply State.postSig_canon | with_reducible apply State.logErr_canon | with_reducible apply State.count_canon | with_reducible apply State.put_canon | with_reducible apply ite_canon | with_reducible apply ite_chOk | with_reducible apply ite_helOk | with_reducible apply ite_snd_canon | with_reducible apply ch_ok | with_reducible apply hel_ok | simp only [canon_mk, chOk_mk, helOk_mk] | split)

theorem State.finishCoder_canon (s : State) (n : Nat) (recAddr : Nat) (doneSig : Nat) (status : Nat) (poisonAt : Nat) (waits : List Nat) (hs : State.Canon s) : State.Canon (State.finishCoder s n recAddr doneSig status poisonAt waits) := by
  unfold State.finishCoder
  try dsimp only
  repeat' (first | with_reducible assumption | intro _ | with_reducible apply State.endCoderJob_canon | with_reducible apply State.poisonAt_canon | with_reducible apply State.endWork_canon | with_reducible apply ite_canon | with_reducible apply ite_chOk | with_reducible apply ite_helOk | with_reducible apply ite_snd_canon | with_reducible apply ch_ok | with_reducible apply hel_ok | simp only [canon_mk, chOk_mk, helOk_mk] | split)

theorem State.runCoder_canon (s : State) (n : Nat) (op : Nat) (f : State → List Nat → Nat × Nat × State) (hs : State.Canon s) (hf : ∀ x0 x1, State.Canon x0 → State.Canon (f x0 x1).2.2) : State.Canon (State.runCoder s n op f) := by
  unfold State.runCoder
  try dsimp only
  repeat' (first | with_reducible assumption | intro _ | with_reducible apply State.finishCoder_canon | with_reducible apply State.endCoderJob_canon | with_reducible apply State.chRead_canon | with_reducible apply hf | with_reducible refine canon_snd (by with_reducible assumption) ?_ | with_reducible refine canon_snd2 (by with_reducible assumption) ?_ | with_reducible refine canon_snd3 (by with_reducible assumption) ?_ | with_reducible apply ite_canon | with_reducible apply ite_chOk | with_reducible apply ite_helOk | with_reducible apply ite_snd_canon | with_reducible apply ch_ok | with_reducible apply hel_ok | simp only [canon_mk, chOk_mk, helOk_mk] | split)

theorem State.coderList_canon (s : State) (n : Nat) (d : BitVec 1024) (hs : State.Canon s) : State.Canon (State.coderList s n d).2.2.2 := by
  unfold State.coderList
  try dsimp only
  repeat' (first | with_reducible assumption | intro _ | with_reducible apply State.chRead_canon | with_reducible apply State.count_canon | with_reducible refine canon_snd (by with_reducible assumption) ?_ | with_reducible refine canon_snd2 (by with_reducible assumption) ?_ | with_reducible refine canon_snd3 (by with_reducible assumption) ?_ | with_reducible apply ite_canon | with_reducible apply ite_chOk | with_reducible apply ite_helOk | with_reducible apply ite_snd_canon | with_reducible apply ch_ok | with_reducible apply hel_ok | simp only [canon_mk, chOk_mk, helOk_mk] | split)

theorem State.srcWalk_canon (s : State) (n : Nat) (d : BitVec 1024) (count : Nat) (es : List (Option Nat)) (a0 : Nat) (a1 : Nat) (a2 : Option (Nat × List Byte)) (hs : State.Canon s) : State.Canon (State.srcWalk s n d count es a0 a1 a2).2.2 := by
  induction a0 generalizing s n d count es a1 a2 with
  | zero =>
    unfold State.srcWalk
    try dsimp only
    repeat' (first | with_reducible assumption | with_reducible apply State.chGranule_canon | with_reducible apply State.count_canon | with_reducible apply ite_canon | split | with_reducible apply ih)
  | succ x ih =>
    unfold State.srcWalk
    try dsimp only
    repeat' (first | with_reducible assumption | with_reducible apply State.chGranule_canon | with_reducible apply State.count_canon | with_reducible apply ite_canon | split | with_reducible apply ih)

theorem State.srcDesc_canon (s : State) (n : Nat) (a : Nat) (hs : State.Canon s) : State.Canon (State.srcDesc s n a).2.2 := by
  unfold State.srcDesc
  try dsimp only
  repeat' (first | with_reducible assumption | with_reducible apply State.chRead_canon | with_reducible apply State.violCh_canon | with_reducible apply ite_canon | split)

theorem execBuild_canon (ch : Fin 28) (s : State) (hs : State.Canon s) : ∀ t, execBuild ch s = .next t → State.Canon t := by
  intro t ht
  unfold execBuild at ht
  try dsimp only at ht
  injection ht with ht
  subst ht
  try dsimp only
  repeat' (first | with_reducible assumption | intro _ | with_reducible apply State.srcDesc_canon | with_reducible apply State.srcWalk_canon | with_reducible apply State.coderList_canon | with_reducible apply State.runCoder_canon | with_reducible apply State.chWrite_canon | with_reducible apply Hel.next_canon | with_reducible apply State.count_canon | with_reducible refine canon_snd (by with_reducible assumption) ?_ | with_reducible refine canon_snd2 (by with_reducible assumption) ?_ | with_reducible refine canon_snd3 (by with_reducible assumption) ?_ | with_reducible apply ite_canon | with_reducible apply ite_chOk | with_reducible apply ite_helOk | with_reducible apply ite_snd_canon | with_reducible apply ch_ok | with_reducible apply hel_ok | simp only [canon_mk, chOk_mk, helOk_mk] | split)

theorem State.codeTile_canon (s : State) (n : Nat) (j : CodeJob) (hs : State.Canon s) : State.Canon (State.codeTile s n j).2.2.2 := by
  unfold State.codeTile
  try dsimp only
  repeat' (first | with_reducible assumption | intro _ | with_reducible apply State.srcWalk_canon | with_reducible apply State.chWrite_canon | with_reducible apply State.count_canon | with_reducible refine canon_snd (by with_reducible assumption) ?_ | with_reducible refine canon_snd2 (by with_reducible assumption) ?_ | with_reducible refine canon_snd3 (by with_reducible assumption) ?_ | with_reducible apply ite_canon | with_reducible apply ite_chOk | with_reducible apply ite_helOk | with_reducible apply ite_snd_canon | with_reducible apply ch_ok | with_reducible apply hel_ok | simp only [canon_mk, chOk_mk, helOk_mk] | split)

theorem State.codeOn_canon (s : State) (n : Nat) (j : CodeJob) (hs : State.Canon s) : State.Canon (State.codeOn s n j) := by
  unfold State.codeOn
  try dsimp only
  repeat' (first | with_reducible assumption | intro _ | with_reducible apply State.codeTile_canon | with_reducible apply State.finishCoder_canon | with_reducible refine canon_snd (by with_reducible assumption) ?_ | with_reducible refine canon_snd2 (by with_reducible assumption) ?_ | with_reducible refine canon_snd3 (by with_reducible assumption) ?_ | with_reducible apply ite_canon | with_reducible apply ite_chOk | with_reducible apply ite_helOk | with_reducible apply ite_snd_canon | with_reducible apply modCh_ok | with_reducible apply setCh_ok | with_reducible apply ch_ok | with_reducible apply hel_ok | simp only [canon_mk, chOk_mk, helOk_mk] | split)

theorem State.codeBegin_canon (s : State) (n : Nat) (ws : List Nat) (hs : State.Canon s) : State.Canon (State.codeBegin s n ws).2.2.2 := by
  unfold State.codeBegin
  try dsimp only
  repeat' (first | with_reducible assumption | intro _ | with_reducible apply State.srcDesc_canon | with_reducible apply State.coderList_canon | with_reducible apply State.chRead_canon | with_reducible apply State.count_canon | with_reducible refine canon_snd (by with_reducible assumption) ?_ | with_reducible refine canon_snd2 (by with_reducible assumption) ?_ | with_reducible refine canon_snd3 (by with_reducible assumption) ?_ | with_reducible apply ite_canon | with_reducible apply ite_chOk | with_reducible apply ite_helOk | with_reducible apply ite_snd_canon | with_reducible apply ch_ok | with_reducible apply hel_ok | simp only [canon_mk, chOk_mk, helOk_mk] | split)

theorem execCode_canon (ch : Fin 28) (s : State) (hs : State.Canon s) : ∀ t, execCode ch s = .next t → State.Canon t := by
  intro t ht
  unfold execCode at ht
  try dsimp only at ht
  injection ht with ht
  subst ht
  try dsimp only
  repeat' (first | with_reducible assumption | intro _ | with_reducible apply State.codeBegin_canon | with_reducible apply State.codeOn_canon | with_reducible apply State.runCoder_canon | with_reducible apply Hel.next_canon | with_reducible refine canon_snd (by with_reducible assumption) ?_ | with_reducible refine canon_snd2 (by with_reducible assumption) ?_ | with_reducible refine canon_snd3 (by with_reducible assumption) ?_ | with_reducible apply ite_canon | with_reducible apply ite_chOk | with_reducible apply ite_helOk | with_reducible apply ite_snd_canon | with_reducible apply ch_ok | with_reducible apply hel_ok | with_reducible apply chReset_ok | with_reducible apply helReset_ok | simp only [canon_mk, chOk_mk, helOk_mk] | split)

theorem execLoadTable_canon (ch : Fin 28) (s : State) (hs : State.Canon s) : ∀ t, execLoadTable ch s = .next t → State.Canon t := by
  intro t ht
  unfold execLoadTable at ht
  injection ht with ht
  subst ht
  try dsimp only
  repeat' (first | with_reducible assumption | with_reducible apply Hel.next_canon | with_reducible apply State.runCoder_canon | with_reducible apply State.chRead_canon | with_reducible apply State.put_canon | with_reducible apply ite_canon | with_reducible apply modCh_ok | with_reducible apply setCh_ok | with_reducible apply ch_ok | simp only [canon_mk, chOk_mk, helOk_mk] | intro _ | split)

theorem execTableSlotWrite_canon (ch : Fin 28) (s : State) (hs : State.Canon s) : ∀ t, execTableSlotWrite ch s = .next t → State.Canon t := by
  intro t ht
  unfold execTableSlotWrite at ht
  injection ht with ht
  subst ht
  try dsimp only
  repeat' (first | with_reducible assumption | with_reducible apply Hel.next_canon | with_reducible apply State.endCoderJob_canon | with_reducible apply State.puts_canon | with_reducible apply ite_canon | with_reducible apply modCh_ok | with_reducible apply setCh_ok | with_reducible apply ch_ok | simp only [canon_mk, chOk_mk, helOk_mk] | intro _ | split)

theorem execCoderEnable_canon (ch : Fin 28) (s : State) (hs : State.Canon s) : ∀ t, execCoderEnable ch s = .next t → State.Canon t := by
  intro t ht
  unfold execCoderEnable at ht
  try dsimp only at ht
  injection ht with ht
  subst ht
  try dsimp only
  repeat' (first | with_reducible assumption | intro _ | with_reducible apply State.coderEnable_canon | with_reducible apply Hel.next_canon | with_reducible apply State.violCh_canon | with_reducible apply ite_canon | with_reducible apply ite_chOk | with_reducible apply ite_helOk | with_reducible apply ite_snd_canon | with_reducible apply setCh_ok | with_reducible apply ch_ok | with_reducible apply hel_ok | simp only [canon_mk, chOk_mk, helOk_mk] | split)

/-! ## Siphon -/

theorem State.siphonEnable_canon (s : State) (hs : State.Canon s) : State.Canon (State.siphonEnable s) := by
  unfold State.siphonEnable
  try dsimp only
  repeat' (first | with_reducible assumption | with_reducible apply State.enableRing_canon | with_reducible apply State.puts_canon)

theorem execSiphonEnable_canon (s : State) (hs : State.Canon s) : ∀ t, execSiphonEnable s = .next t → State.Canon t := by
  intro t ht
  unfold execSiphonEnable at ht
  try dsimp only at ht
  injection ht with ht
  subst ht
  try dsimp only
  repeat' (first | with_reducible assumption | intro _ | with_reducible apply State.siphonEnable_canon | with_reducible apply Hel.next_canon | with_reducible apply State.hostRaises_canon | with_reducible apply ite_canon | with_reducible apply ite_chOk | with_reducible apply ite_helOk | with_reducible apply ite_snd_canon | with_reducible apply ch_ok | with_reducible apply hel_ok | simp only [canon_mk, chOk_mk, helOk_mk] | split)

theorem execSiphonDisable_canon (s : State) (hs : State.Canon s) : ∀ t, execSiphonDisable s = .next t → State.Canon t := by
  intro t ht
  unfold execSiphonDisable at ht
  try dsimp only at ht
  injection ht with ht
  subst ht
  try dsimp only
  repeat' (first | with_reducible assumption | intro _ | with_reducible apply Hel.next_canon | with_reducible apply State.hostClears_canon | with_reducible apply ite_canon | with_reducible apply ite_chOk | with_reducible apply ite_helOk | with_reducible apply ite_snd_canon | with_reducible apply ch_ok | with_reducible apply hel_ok | simp only [canon_mk, chOk_mk, helOk_mk] | split)

theorem State.passJob_canon (s : State) (eng : Nat) (j : Nat) (hs : State.Canon s) : State.Canon (State.passJob s eng j) := by
  unfold State.passJob
  try dsimp only
  repeat' (first | with_reducible assumption | intro _ | with_reducible apply State.setRing_canon | with_reducible apply ite_canon | with_reducible apply ite_chOk | with_reducible apply ite_helOk | with_reducible apply ite_snd_canon | with_reducible apply ch_ok | with_reducible apply hel_ok | simp only [canon_mk, chOk_mk, helOk_mk] | split)

theorem State.endSiphon_canon (s : State) (eng : Nat) (j : Nat) (a : Nat) (doneSig : Nat) (status : Nat) (bad : Nat) (hs : State.Canon s) : State.Canon (State.endSiphon s eng j a doneSig status bad) := by
  unfold State.endSiphon
  try dsimp only
  repeat' (first | with_reducible assumption | intro _ | with_reducible apply State.passJob_canon | with_reducible apply State.writeLogged_canon | with_reducible apply State.endWork_canon | with_reducible apply State.postSig_canon | with_reducible apply State.logErr_canon | with_reducible apply State.puts_canon | with_reducible apply State.count_canon | with_reducible apply ite_canon | with_reducible apply ite_chOk | with_reducible apply ite_helOk | with_reducible apply ite_snd_canon | with_reducible apply ch_ok | with_reducible apply hel_ok | simp only [canon_mk, chOk_mk, helOk_mk] | split)

theorem State.runSiphon_canon (s : State) (eng : Nat) (waits : State → List Nat → Bool) (f : State → Nat → List Nat → Nat × Nat × State) (hs : State.Canon s) (hf : ∀ x0 x1 x2, State.Canon x0 → State.Canon (f x0 x1 x2).2.2) : State.Canon (State.runSiphon s eng waits f) := by
  unfold State.runSiphon
  try dsimp only
  repeat' (first | with_reducible assumption | intro _ | with_reducible apply State.endSiphon_canon | with_reducible apply State.endWork_canon | with_reducible apply State.read_canon | with_reducible apply hf | with_reducible refine canon_snd (by with_reducible assumption) ?_ | with_reducible refine canon_snd2 (by with_reducible assumption) ?_ | with_reducible refine canon_snd3 (by with_reducible assumption) ?_ | with_reducible apply ite_canon | with_reducible apply ite_chOk | with_reducible apply ite_helOk | with_reducible apply ite_snd_canon | with_reducible apply ch_ok | with_reducible apply hel_ok | simp only [canon_mk, chOk_mk, helOk_mk] | split)

theorem State.expertTable_canon (s : State) (a : Nat) (n : Nat) (hs : State.Canon s) : State.Canon (State.expertTable s a n).2.2 := by
  unfold State.expertTable
  try dsimp only
  repeat' (first | with_reducible assumption | with_reducible apply State.read_canon | with_reducible apply ite_canon | simp only [canon_mk, chOk_mk, helOk_mk] | intro _ | split)

theorem State.selectAll_canon (s : State) (ws : List Nat) (ex : List Expert) (bias : List Nat) (a0 : Nat) (a1 : Nat) (hs : State.Canon s) : State.Canon (State.selectAll s ws ex bias a0 a1).2.2 := by
  induction a0 generalizing s ws ex bias a1 with
  | zero =>
    unfold State.selectAll
    try dsimp only
    repeat' (first | with_reducible assumption | with_reducible apply State.read_canon | with_reducible apply State.count_canon | with_reducible apply ite_canon | split | with_reducible apply ih)
  | succ x ih =>
    unfold State.selectAll
    try dsimp only
    repeat' (first | with_reducible assumption | with_reducible apply State.read_canon | with_reducible apply State.count_canon | with_reducible apply ite_canon | split | with_reducible apply ih)

theorem State.handWave_canon (s : State) (x : Expert) (d : BitVec 1024) (l : List Placed) (hs : State.Canon s) : State.Canon (State.handWave s x d l) := by
  unfold State.handWave
  try dsimp only
  repeat' (first | with_reducible assumption | intro _ | with_reducible apply ite_canon | with_reducible apply ite_chOk | with_reducible apply ite_helOk | with_reducible apply ite_snd_canon | with_reducible apply ch_ok | with_reducible apply hel_ok | simp only [canon_mk, chOk_mk, helOk_mk] | split)

theorem State.putWave_canon (s : State) (ws : List Nat) (ex : List Expert) (d : BitVec 1024) (job : Nat) (wave : Nat) (e : Nat) (l : List Placed) (hs : State.Canon s) : State.Canon (State.putWave s ws ex d job wave e l) := by
  unfold State.putWave
  try dsimp only
  repeat' (first | with_reducible assumption | intro _ | with_reducible apply State.handWave_canon | with_reducible apply State.writeLogged_canon | with_reducible apply State.endWork_canon | with_reducible apply State.postSig_canon | with_reducible apply ite_canon | with_reducible apply ite_chOk | with_reducible apply ite_helOk | with_reducible apply ite_snd_canon | with_reducible apply ch_ok | with_reducible apply hel_ok | simp only [canon_mk, chOk_mk, helOk_mk] | split)

theorem State.emptyLists_canon (s : State) (ws : List Nat) (ex : List Expert) (job : Nat) (mode : Nat) (hs : State.Canon s) : State.Canon (State.emptyLists s ws ex job mode) := by
  unfold State.emptyLists
  try dsimp only
  repeat' (first | with_reducible assumption | with_reducible apply State.writeLogged_canon | with_reducible apply ite_canon | with_reducible apply foldl_canon | intro _ | split)

theorem State.putRoute_canon (s : State) (ws : List Nat) (ex : List Expert) (d : BitVec 1024) (job : Nat) (mode : Nat) (l : List Placed) (sel : List (List Pair)) (hs : State.Canon s) : State.Canon (State.putRoute s ws ex d job mode l sel) := by
  unfold State.putRoute
  try dsimp only
  repeat' (first | with_reducible assumption | with_reducible apply State.putWave_canon | with_reducible apply State.writeLogged_canon | with_reducible apply State.count_canon | with_reducible apply ite_canon | with_reducible apply foldl_canon | simp only [canon_mk, chOk_mk, helOk_mk] | intro _ | split)

theorem State.route_canon (s : State) (j : Nat) (ws : List Nat) (hs : State.Canon s) : State.Canon (State.route s j ws).2.2 := by
  unfold State.route
  try dsimp only
  repeat' (first | with_reducible assumption | intro _ | with_reducible apply ite_canon | with_reducible apply State.putRoute_canon | with_reducible apply State.emptyLists_canon | with_reducible apply State.selectAll_canon | with_reducible apply State.expertTable_canon | with_reducible apply State.read_canon | with_reducible apply ite_snd_canon | with_reducible apply ite_snd2_canon | with_reducible apply ite_snd3_canon | with_reducible apply foldl_canon | with_reducible apply modCh_ok | with_reducible apply setCh_ok | with_reducible apply setHel_ok | with_reducible apply ch_ok | with_reducible apply hel_ok | with_reducible apply ite_chOk | with_reducible apply ite_helOk | with_reducible exact chReset_ok | with_reducible exact helReset_ok | simp only [canon_mk, chOk_mk, helOk_mk] | split | with_reducible refine canon_snd (by with_reducible assumption) ?_ | with_reducible refine canon_snd2 (by with_reducible assumption) ?_ | with_reducible refine canon_snd3 (by with_reducible assumption) ?_ | with_reducible refine canon_fst (by with_reducible assumption) ?_ | with_reducible apply chOk_lit | with_reducible apply helOk_lit | with_reducible apply memWrite_wf | with_reducible apply memSet_wf | with_reducible apply memClear_wf | with_reducible apply localPut_wf | with_reducible apply foldl_memwf | with_reducible apply lmem_wf | with_reducible apply bmem_wf | with_reducible apply scratch_wf)

theorem execRoute_canon (s : State) (hs : State.Canon s) : ∀ t, execRoute s = .next t → State.Canon t := by
  intro t ht
  unfold execRoute at ht
  injection ht with ht
  subst ht
  try dsimp only
  repeat' (first | with_reducible assumption | with_reducible apply Hel.next_canon | with_reducible apply State.route_canon | with_reducible apply State.runSiphon_canon | intro _)

theorem State.sipFlags_canon (s : State) (f : Flags) (hs : State.Canon s) : State.Canon (State.sipFlags s f) := by
  unfold State.sipFlags
  try dsimp only
  repeat' (first | with_reducible assumption | with_reducible apply State.put_canon | with_reducible apply ite_canon | split)

theorem State.returned_canon (s : State) (ws : List Nat) (e : Nat) (slot : Nat) (hs : State.Canon s) : State.Canon (State.returned s ws e slot).2.2.2 := by
  unfold State.returned
  try dsimp only
  repeat' (first | with_reducible assumption | with_reducible apply State.read_canon)

theorem State.sumToken_canon (s : State) (ws : List Nat) (a0 : List Nat) (a1 : Option (List (Lane × Flags))) (hs : State.Canon s) : State.Canon (State.sumToken s ws a0 a1).2.2 := by
  induction a0 generalizing s ws a1 with
  | nil =>
    unfold State.sumToken
    try dsimp only
    repeat' (first | with_reducible assumption | with_reducible apply State.returned_canon | with_reducible apply ite_canon | split | with_reducible apply ih)
  | cons x l ih =>
    unfold State.sumToken
    try dsimp only
    repeat' (first | with_reducible assumption | with_reducible apply State.returned_canon | with_reducible apply ite_canon | split | with_reducible apply ih)

theorem State.putOut_canon (s : State) (ws : List Nat) (add : Bool) (a : Nat) (acc : List (Lane × Flags)) (hs : State.Canon s) : State.Canon (State.putOut s ws add a acc).2 := by
  unfold State.putOut
  try dsimp only
  repeat' (first | with_reducible assumption | with_reducible apply State.sipFlags_canon | with_reducible apply State.writeLogged_canon | with_reducible apply State.read_canon | with_reducible apply ite_canon | with_reducible apply foldl_canon | intro _ | split)

theorem State.combineTokens_canon (s : State) (ws : List Nat) (a0 : Nat) (a1 : Nat) (hs : State.Canon s) : State.Canon (State.combineTokens s ws a0 a1).2 := by
  induction a0 generalizing s ws a1 with
  | zero =>
    unfold State.combineTokens
    try dsimp only
    repeat' (first | with_reducible assumption | with_reducible apply State.putOut_canon | with_reducible apply State.sumToken_canon | with_reducible apply State.writeLogged_canon | with_reducible apply State.read_canon | with_reducible apply ite_canon | split | with_reducible apply ih)
  | succ x ih =>
    unfold State.combineTokens
    try dsimp only
    repeat' (first | with_reducible assumption | with_reducible apply State.putOut_canon | with_reducible apply State.sumToken_canon | with_reducible apply State.writeLogged_canon | with_reducible apply State.read_canon | with_reducible apply ite_canon | split | with_reducible apply ih)

theorem State.combineCarried_canon (s : State) (ws : List Nat) (a0 : Nat) (a1 : Nat) (hs : State.Canon s) : State.Canon (State.combineCarried s ws a0 a1).2 := by
  induction a0 generalizing s ws a1 with
  | zero =>
    unfold State.combineCarried
    try dsimp only
    repeat' (first | with_reducible assumption | with_reducible apply State.putOut_canon | with_reducible apply State.returned_canon | with_reducible apply State.read_canon | with_reducible apply ite_canon | split | with_reducible apply ih)
  | succ x ih =>
    unfold State.combineCarried
    try dsimp only
    repeat' (first | with_reducible assumption | with_reducible apply State.putOut_canon | with_reducible apply State.returned_canon | with_reducible apply State.read_canon | with_reducible apply ite_canon | split | with_reducible apply ih)

theorem State.combine_canon (s : State) (ws : List Nat) (hs : State.Canon s) : State.Canon (State.combine s ws).2.2 := by
  unfold State.combine
  try dsimp only
  repeat' (first | with_reducible assumption | intro _ | with_reducible apply ite_canon | with_reducible apply State.combineCarried_canon | with_reducible apply State.combineTokens_canon | with_reducible apply State.read_canon | with_reducible apply ite_snd_canon | with_reducible apply ite_snd2_canon | with_reducible apply ite_snd3_canon | with_reducible apply foldl_canon | with_reducible apply modCh_ok | with_reducible apply setCh_ok | with_reducible apply setHel_ok | with_reducible apply ch_ok | with_reducible apply hel_ok | with_reducible apply ite_chOk | with_reducible apply ite_helOk | with_reducible exact chReset_ok | with_reducible exact helReset_ok | simp only [canon_mk, chOk_mk, helOk_mk] | split | with_reducible refine canon_snd (by with_reducible assumption) ?_ | with_reducible refine canon_snd2 (by with_reducible assumption) ?_ | with_reducible refine canon_snd3 (by with_reducible assumption) ?_ | with_reducible refine canon_fst (by with_reducible assumption) ?_ | with_reducible apply chOk_lit | with_reducible apply helOk_lit | with_reducible apply memWrite_wf | with_reducible apply memSet_wf | with_reducible apply memClear_wf | with_reducible apply localPut_wf | with_reducible apply foldl_memwf | with_reducible apply lmem_wf | with_reducible apply bmem_wf | with_reducible apply scratch_wf)

theorem execCombine_canon (s : State) (hs : State.Canon s) : ∀ t, execCombine s = .next t → State.Canon t := by
  intro t ht
  unfold execCombine at ht
  injection ht with ht
  subst ht
  try dsimp only
  repeat' (first | with_reducible assumption | with_reducible apply Hel.next_canon | with_reducible apply State.combine_canon | with_reducible apply State.runSiphon_canon | intro _)

end Sys2Proof.Machine
end

