-- ==== Sys2Proof/Laws/KeepHost.lean ====
section
/-! SUPPORT. Every operation of these modules keeps the memories canonical: Host, Twin, Retire, Service, Held. -/

namespace Sys2Proof.Machine

open Sys2Proof

/-! ## Host -/

theorem execHostLinkTrain_canon (width : BitVec 8) (rate : BitVec 8) (flit : Bool) (cxl : Bool) (s : State) (hs : State.Canon s) : ∀ t, execHostLinkTrain width rate flit cxl s = .next t → State.Canon t := by
  intro t ht
  unfold execHostLinkTrain at ht
  injection ht with ht
  subst ht
  try dsimp only
  repeat' (first | with_reducible assumption | with_reducible apply Hel.next_canon | with_reducible apply State.puts_canon | with_reducible apply State.countSat_canon | with_reducible apply ite_canon | split)

theorem State.endCopies_canon (s : State) (hs : State.Canon s) : State.Canon (State.endCopies s) := by
  unfold State.endCopies
  try dsimp only
  repeat' (first | with_reducible assumption | simp only [canon_mk, chOk_mk, helOk_mk] | intro _)

theorem State.linkLoss_canon (s : State) (cause : Nat) (hs : State.Canon s) : State.Canon (State.linkLoss s cause) := by
  unfold State.linkLoss
  try dsimp only
  repeat' (first | with_reducible assumption | intro _ | with_reducible apply State.ledger_canon | with_reducible apply State.endCopies_canon | with_reducible apply State.resetRange_canon | with_reducible apply State.gotFrame_canon | with_reducible apply State.puts_canon | with_reducible apply State.put_canon | with_reducible apply ite_canon | with_reducible apply ite_chOk | with_reducible apply ite_helOk | with_reducible apply ite_snd_canon | with_reducible apply ch_ok | with_reducible apply hel_ok | with_reducible apply chReset_ok | with_reducible apply helReset_ok | simp only [canon_mk, chOk_mk, helOk_mk] | split)

theorem execHostLinkReset_canon (cause : Fin 3) (s : State) (hs : State.Canon s) : ∀ t, execHostLinkReset cause s = .next t → State.Canon t := by
  intro t ht
  unfold execHostLinkReset at ht
  injection ht with ht
  subst ht
  try dsimp only
  repeat' (first | with_reducible assumption | with_reducible apply State.linkLoss_canon | with_reducible apply Hel.next_canon | with_reducible apply ite_canon | split)

theorem State.grantLine_canon (s : State) (l : Nat) (own : Bool) (hs : State.Canon s) : State.Canon (State.grantLine s l own) := by
  unfold State.grantLine
  try dsimp only
  repeat' (first | with_reducible assumption | with_reducible apply State.dropLine_canon | with_reducible apply State.count_canon | with_reducible apply ite_canon | simp only [canon_mk, chOk_mk, helOk_mk] | split)

theorem execBisnpResponse_canon (line : BitVec 35) (s : State) (hs : State.Canon s) : ∀ t, execBisnpResponse line s = .next t → State.Canon t := by
  intro t ht
  unfold execBisnpResponse at ht
  injection ht with ht
  subst ht
  try dsimp only
  repeat' (first | with_reducible assumption | with_reducible apply Hel.next_canon | with_reducible apply State.dropLine_canon | with_reducible apply ite_canon | simp only [canon_mk, chOk_mk, helOk_mk] | split)

theorem execBiTimeout_canon (s : State) (hs : State.Canon s) : ∀ t, execBiTimeout s = .next t → State.Canon t := by
  intro t ht
  unfold execBiTimeout at ht
  injection ht with ht
  subst ht
  try dsimp only
  repeat' (first | with_reducible assumption | with_reducible apply State.linkLoss_canon | with_reducible apply Hel.next_canon | with_reducible apply ite_canon | split)

theorem State.reply_canon (s : State) (bs : List Byte) (bad : Bool) (hs : State.Canon s) : State.Canon (State.reply s bs bad) := by
  unfold State.reply
  try dsimp only
  repeat' (first | with_reducible assumption | simp only [canon_mk, chOk_mk, helOk_mk])

theorem State.logHostPoison_canon (s : State) (a : Nat) (hs : State.Canon s) : State.Canon (State.logHostPoison s a) := by
  unfold State.logHostPoison
  try dsimp only
  repeat' (first | with_reducible assumption | with_reducible apply State.logErr_canon | simp only [canon_mk, chOk_mk, helOk_mk])

theorem execHostMemRead_canon (line : BitVec 35) (intent : CacheIntent) (s : State) (hs : State.Canon s) : ∀ t, execHostMemRead line intent s = .next t → State.Canon t := by
  intro t ht
  unfold execHostMemRead at ht
  injection ht with ht
  subst ht
  try dsimp only
  repeat' (first | with_reducible assumption | with_reducible apply State.logHostPoison_canon | with_reducible apply State.reply_canon | with_reducible apply State.grantLine_canon | with_reducible apply Hel.next_canon | with_reducible apply State.noteWaiting_canon | with_reducible apply State.readAs_canon | with_reducible apply State.wakeKeep_canon | with_reducible apply ite_canon | split)

theorem State.hostMerge_canon (s : State) (a : Nat) (bs : List Byte) (hs : State.Canon s) : State.Canon (State.hostMerge s a bs) := by
  unfold State.hostMerge
  try dsimp only
  repeat' (first | with_reducible assumption | intro _ | with_reducible apply State.logHostPoison_canon | with_reducible apply State.hold_canon | with_reducible apply State.writeIn_canon | with_reducible refine canon_snd (by with_reducible assumption) ?_ | with_reducible refine canon_snd2 (by with_reducible assumption) ?_ | with_reducible refine canon_snd3 (by with_reducible assumption) ?_ | with_reducible apply ite_canon | with_reducible apply ite_chOk | with_reducible apply ite_helOk | with_reducible apply ite_snd_canon | with_reducible apply ch_ok | with_reducible apply hel_ok | simp only [canon_mk, chOk_mk, helOk_mk] | split)

theorem execHostMemWrite_canon (line : BitVec 35) (data : List Byte) (s : State) (hs : State.Canon s) : ∀ t, execHostMemWrite line data s = .next t → State.Canon t := by
  intro t ht
  unfold execHostMemWrite at ht
  injection ht with ht
  subst ht
  try dsimp only
  repeat' (first | with_reducible assumption | with_reducible apply State.hostMerge_canon | with_reducible apply Hel.next_canon | with_reducible apply State.noteWaiting_canon | with_reducible apply State.wakeKeep_canon | with_reducible apply ite_canon | split)

theorem State.tryIrq_canon (s : State) (hs : State.Canon s) : State.Canon (State.tryIrq s) := by
  unfold State.tryIrq
  try dsimp only
  repeat' (first | with_reducible assumption | with_reducible apply State.raiseIrq_canon | with_reducible apply ite_canon | simp only [canon_mk, chOk_mk, helOk_mk] | split)

theorem execIrqHoldoffExpire_canon (s : State) (hs : State.Canon s) : ∀ t, execIrqHoldoffExpire s = .next t → State.Canon t := by
  intro t ht
  unfold execIrqHoldoffExpire at ht
  injection ht with ht
  subst ht
  try dsimp only
  repeat' (first | with_reducible assumption | with_reducible apply State.tryIrq_canon | with_reducible apply Hel.next_canon)

theorem State.writeCmpl_canon (s : State) (c : Completion) (cs : List Completion) (hs : State.Canon s) : State.Canon (State.writeCmpl s c cs) := by
  unfold State.writeCmpl
  try dsimp only
  repeat' (first | with_reducible assumption | simp only [canon_mk, chOk_mk, helOk_mk])

theorem State.writeHeld_canon  (a0 : Nat) (a1 : State) (hs : State.Canon a1) : State.Canon (State.writeHeld  a0 a1) := by
  induction a0 generalizing a1 with
  | zero =>
    unfold State.writeHeld
    try dsimp only
    repeat' (first | with_reducible assumption | with_reducible apply State.writeCmpl_canon | with_reducible apply ite_canon | split | with_reducible apply ih)
  | succ x ih =>
    unfold State.writeHeld
    try dsimp only
    repeat' (first | with_reducible assumption | with_reducible apply State.writeCmpl_canon | with_reducible apply ite_canon | split | with_reducible apply ih)

theorem State.respond_canon (s : State) (result : Nat) (words : List Nat) (hs : State.Canon s) : State.Canon (State.respond s result words) := by
  unfold State.respond
  try dsimp only
  repeat' (first | with_reducible assumption | with_reducible apply State.raiseIrq_canon | with_reducible apply State.puts_canon | with_reducible apply State.put_canon | simp only [canon_mk, chOk_mk, helOk_mk] | intro _)

theorem State.mailbox_canon (s : State) (cmd : Nat) (states : List Nat) (f : State → State) (hf : ∀ x0, State.Canon x0 → State.Canon (f x0)) (hs : State.Canon s) : State.Canon (State.mailbox s cmd states f) := by
  unfold State.mailbox
  try dsimp only
  repeat' (first | with_reducible assumption | with_reducible apply State.respond_canon | with_reducible apply hf | with_reducible apply ite_canon | intro _ | split)

theorem State.finishDetach_canon (s : State) (hs : State.Canon s) : State.Canon (State.finishDetach s) := by
  unfold State.finishDetach
  try dsimp only
  repeat' (first | with_reducible assumption | with_reducible apply State.respond_canon | with_reducible apply State.put_canon | with_reducible apply ite_canon | simp only [canon_mk, chOk_mk, helOk_mk] | split)

theorem State.flushCmpl_canon (s : State) (hs : State.Canon s) : State.Canon (State.flushCmpl s) := by
  unfold State.flushCmpl
  try dsimp only
  repeat' (first | with_reducible assumption | with_reducible apply State.finishDetach_canon | with_reducible apply State.writeHeld_canon | with_reducible apply State.tryIrq_canon)

theorem State.countStart_canon (s : State) (hs : State.Canon s) : State.Canon (State.countStart s) := by
  unfold State.countStart
  try dsimp only
  repeat' (first | with_reducible assumption | with_reducible apply State.put_canon | simp only [canon_mk, chOk_mk, helOk_mk])

theorem State.endRec_canon (s : State) (r : LedgerRec) (status : Nat) (hs : State.Canon s) : State.Canon (State.endRec s r status) := by
  unfold State.endRec
  try dsimp only
  repeat' (first | with_reducible assumption | simp only [canon_mk, chOk_mk, helOk_mk])

theorem State.startRec_canon (s : State) (ws : List Nat) (f : State → LedgerRec → State) (hf : ∀ x0 x1, State.Canon x0 → State.Canon (f x0 x1)) (hs : State.Canon s) : State.Canon (State.startRec s ws f) := by
  unfold State.startRec
  try dsimp only
  repeat' (first | with_reducible assumption | with_reducible apply State.endRec_canon | with_reducible apply State.countStart_canon | with_reducible apply hf | with_reducible apply ite_canon | intro _ | split)

theorem State.ledger_canon (s : State) (op : Nat) (ws : List Nat) (f : State → LedgerRec → State) (hf : ∀ x0 x1, State.Canon x0 → State.Canon (f x0 x1)) (hs : State.Canon s) : State.Canon (State.ledger s op ws f) := by
  unfold State.ledger
  try dsimp only
  repeat' (first | with_reducible assumption | with_reducible apply State.startRec_canon | with_reducible apply hf | with_reducible apply ite_canon | intro _ | split)

theorem execLedgerNop_canon (rec : List Word) (s : State) (hs : State.Canon s) : ∀ t, execLedgerNop rec s = .next t → State.Canon t := by
  intro t ht
  unfold execLedgerNop at ht
  injection ht with ht
  subst ht
  try dsimp only
  repeat' (first | with_reducible assumption | with_reducible apply State.ledger_canon | with_reducible apply State.endRec_canon | with_reducible apply State.countStart_canon | with_reducible apply Hel.next_canon | intro _)

theorem execLedgerStep_canon (rec : List Word) (s : State) (hs : State.Canon s) : ∀ t, execLedgerStep rec s = .next t → State.Canon t := by
  intro t ht
  unfold execLedgerStep at ht
  injection ht with ht
  subst ht
  try dsimp only
  repeat' (first | with_reducible assumption | with_reducible apply State.ledger_canon | with_reducible apply State.endRec_canon | with_reducible apply State.countStart_canon | with_reducible apply Hel.next_canon | with_reducible apply State.wake_canon | with_reducible apply ite_canon | simp only [canon_mk, chOk_mk, helOk_mk] | intro _ | split)

theorem State.lanternWrite_canon  (a0 : Nat) (a1 : State) (a2 : Nat) (a3 : List Byte) (ha1 : State.Canon a1) : State.Canon (State.lanternWrite a0 a1 a2 a3).2.2 := by
  induction a0 generalizing a1 a2 a3 with
  | zero =>
    unfold State.lanternWrite
    try dsimp only
    repeat' (first | with_reducible assumption | intro _ | with_reducible apply State.logHostPoison_canon | with_reducible apply State.backInvalidate_canon | with_reducible apply State.writeIn_canon | with_reducible apply State.enterBank_canon | with_reducible refine canon_snd (by with_reducible assumption) ?_ | with_reducible refine canon_snd2 (by with_reducible assumption) ?_ | with_reducible refine canon_snd3 (by with_reducible assumption) ?_ | with_reducible apply ite_canon | with_reducible apply ite_chOk | with_reducible apply ite_helOk | with_reducible apply ite_snd_canon | with_reducible apply ch_ok | with_reducible apply hel_ok | simp only [canon_mk, chOk_mk, helOk_mk] | split)
  | succ x ih =>
    unfold State.lanternWrite
    try dsimp only
    repeat' (first | with_reducible assumption | intro _ | with_reducible apply ih | with_reducible apply State.logHostPoison_canon | with_reducible apply State.backInvalidate_canon | with_reducible apply State.writeIn_canon | with_reducible apply State.enterBank_canon | with_reducible refine canon_snd (by with_reducible assumption) ?_ | with_reducible refine canon_snd2 (by with_reducible assumption) ?_ | with_reducible refine canon_snd3 (by with_reducible assumption) ?_ | with_reducible apply ite_canon | with_reducible apply ite_chOk | with_reducible apply ite_helOk | with_reducible apply ite_snd_canon | with_reducible apply ch_ok | with_reducible apply hel_ok | simp only [canon_mk, chOk_mk, helOk_mk] | split)

theorem execLedgerWrite_canon (rec : List Word) (s : State) (hs : State.Canon s) : ∀ t, execLedgerWrite rec s = .next t → State.Canon t := by
  intro t ht
  unfold execLedgerWrite at ht
  try dsimp only at ht
  injection ht with ht
  subst ht
  try dsimp only
  repeat' (first | with_reducible assumption | intro _ | with_reducible apply State.lanternWrite_canon | with_reducible apply State.ledger_canon | with_reducible apply State.endRec_canon | with_reducible apply State.countStart_canon | with_reducible apply Hel.next_canon | with_reducible apply State.gotFrame_canon | with_reducible apply State.waitFrame_canon | with_reducible apply State.setFull_canon | with_reducible apply State.count_canon | with_reducible refine canon_snd (by with_reducible assumption) ?_ | with_reducible refine canon_snd2 (by with_reducible assumption) ?_ | with_reducible refine canon_snd3 (by with_reducible assumption) ?_ | with_reducible apply ite_canon | with_reducible apply ite_chOk | with_reducible apply ite_helOk | with_reducible apply ite_snd_canon | with_reducible apply ch_ok | with_reducible apply hel_ok | simp only [canon_mk, chOk_mk, helOk_mk] | split)

theorem State.putCopy_canon (s : State) (r : LedgerRec) (hs : State.Canon s) : State.Canon (State.putCopy s r) := by
  unfold State.putCopy
  try dsimp only
  repeat' (first | with_reducible assumption | with_reducible apply State.endRec_canon | with_reducible apply ite_canon | simp only [canon_mk, chOk_mk, helOk_mk] | intro _ | split)

theorem State.poisonCopied_canon (s : State) (a : Nat) (bs : List Byte) (hs : State.Canon s) : State.Canon (State.poisonCopied s a bs).2 := by
  unfold State.poisonCopied
  try dsimp only
  repeat' (first | with_reducible assumption | intro _ | with_reducible apply State.storePoisoned_canon | with_reducible apply State.setFull_canon | with_reducible apply State.logErr_canon | with_reducible apply ite_canon | with_reducible apply ite_chOk | with_reducible apply ite_helOk | with_reducible apply ite_snd_canon | with_reducible apply ch_ok | with_reducible apply hel_ok | with_reducible apply lmem_wf | with_reducible apply bmem_wf | with_reducible apply mem_wf | with_reducible apply canon_lit | simp only [canon_mk, chOk_mk, helOk_mk] | with_reducible apply chOk_lit | split)

theorem State.copyInPiece_canon (s : State) (r : LedgerRec) (p : CopyPiece) (hs : State.Canon s) : State.Canon (State.copyInPiece s r p) := by
  unfold State.copyInPiece
  try dsimp only
  repeat' (first | with_reducible assumption | intro _ | with_reducible apply State.poisonCopied_canon | with_reducible apply State.putCopy_canon | with_reducible apply State.ledger_canon | with_reducible apply State.logHostPoison_canon | with_reducible apply State.gotFrame_canon | with_reducible apply State.waitFrame_canon | with_reducible apply State.backInvalidate_canon | with_reducible apply State.writeIn_canon | with_reducible apply State.enterBank_canon | with_reducible apply State.setFull_canon | with_reducible apply State.count_canon | with_reducible refine canon_snd (by with_reducible assumption) ?_ | with_reducible refine canon_snd2 (by with_reducible assumption) ?_ | with_reducible refine canon_snd3 (by with_reducible assumption) ?_ | with_reducible apply ite_canon | with_reducible apply ite_chOk | with_reducible apply ite_helOk | with_reducible apply ite_snd_canon | with_reducible apply ch_ok | with_reducible apply hel_ok | simp only [canon_mk, chOk_mk, helOk_mk] | split)

theorem State.copyInPieces_canon (s : State) (a0 : List CopyPiece) (hs : State.Canon s) : State.Canon (State.copyInPieces s a0) := by
  induction a0 generalizing s with
  | nil =>
    unfold State.copyInPieces
    try dsimp only
    repeat' (first | with_reducible assumption | with_reducible apply State.copyInPiece_canon | split | with_reducible apply ih)
  | cons x l ih =>
    unfold State.copyInPieces
    try dsimp only
    repeat' (first | with_reducible assumption | with_reducible apply State.copyInPiece_canon | split | with_reducible apply ih)

theorem State.startCopy_canon (s : State) (op : Nat) (ws : List Nat) (hs : State.Canon s) : State.Canon (State.startCopy s op ws) := by
  unfold State.startCopy
  try dsimp only
  repeat' (first | with_reducible assumption | with_reducible apply State.ledger_canon | with_reducible apply State.countStart_canon | simp only [canon_mk, chOk_mk, helOk_mk] | intro _)

theorem execCopyIn_canon (rec : List Word) (data : List CopyPiece) (s : State) (hs : State.Canon s) : ∀ t, execCopyIn rec data s = .next t → State.Canon t := by
  intro t ht
  unfold execCopyIn at ht
  injection ht with ht
  subst ht
  try dsimp only
  repeat' (first | with_reducible assumption | with_reducible apply State.startCopy_canon | with_reducible apply State.copyInPieces_canon | with_reducible apply Hel.next_canon | with_reducible apply ite_canon | split)

theorem State.copyOutLine_canon (s : State) (r : LedgerRec) (hs : State.Canon s) : State.Canon (State.copyOutLine s r) := by
  unfold State.copyOutLine
  try dsimp only
  repeat' (first | with_reducible assumption | with_reducible apply State.putCopy_canon | with_reducible apply State.read_canon | with_reducible apply State.count_canon | simp only [canon_mk, chOk_mk, helOk_mk])

theorem State.copyOutLines_canon  (a0 : Nat) (a1 : State) (hs : State.Canon a1) : State.Canon (State.copyOutLines  a0 a1) := by
  induction a0 generalizing a1 with
  | zero =>
    unfold State.copyOutLines
    try dsimp only
    repeat' (first | with_reducible assumption | with_reducible apply State.copyOutLine_canon | split | with_reducible apply ih)
  | succ x ih =>
    unfold State.copyOutLines
    try dsimp only
    repeat' (first | with_reducible assumption | with_reducible apply State.copyOutLine_canon | split | with_reducible apply ih)

theorem execCopyOut_canon (rec : List Word) (n : BitVec 16) (s : State) (hs : State.Canon s) : ∀ t, execCopyOut rec n s = .next t → State.Canon t := by
  intro t ht
  unfold execCopyOut at ht
  injection ht with ht
  subst ht
  try dsimp only
  repeat' (first | with_reducible assumption | with_reducible apply State.copyOutLines_canon | with_reducible apply State.startCopy_canon | with_reducible apply Hel.next_canon | with_reducible apply ite_canon | split)

theorem State.completeRec_canon (s : State) (r : LedgerRec) (rs : List LedgerRec) (hs : State.Canon s) : State.Canon (State.completeRec s r rs) := by
  unfold State.completeRec
  try dsimp only
  repeat' (first | with_reducible assumption | with_reducible apply State.postSig_canon | with_reducible apply ite_canon | simp only [canon_mk, chOk_mk, helOk_mk] | split)

theorem execRecordComplete_canon (s : State) (hs : State.Canon s) : ∀ t, execRecordComplete s = .next t → State.Canon t := by
  intro t ht
  unfold execRecordComplete at ht
  injection ht with ht
  subst ht
  try dsimp only
  repeat' (first | with_reducible assumption | with_reducible apply State.completeRec_canon | with_reducible apply State.flushCmpl_canon | with_reducible apply Hel.next_canon | split)

theorem execDoorbellWake_canon (tail : Word) (head : Word) (s : State) (hs : State.Canon s) : ∀ t, execDoorbellWake tail head s = .next t → State.Canon t := by
  intro t ht
  unfold execDoorbellWake at ht
  injection ht with ht
  subst ht
  try dsimp only
  repeat' (first | with_reducible assumption | with_reducible apply State.flushCmpl_canon | with_reducible apply Hel.next_canon | with_reducible apply ite_canon | simp only [canon_mk, chOk_mk, helOk_mk] | split)

theorem State.noteAll_canon (s : State) (gs : List Nat) (hs : State.Canon s) : State.Canon (State.noteAll s gs) := by
  unfold State.noteAll
  try dsimp only
  repeat' (first | with_reducible assumption | intro _ | with_reducible apply State.noteWaiting_canon | with_reducible apply ite_canon | with_reducible apply ite_chOk | with_reducible apply ite_helOk | with_reducible apply ite_snd_canon | with_reducible apply foldl_canon | with_reducible apply foldl_memwf | with_reducible apply ch_ok | with_reducible apply hel_ok | simp only [canon_mk, chOk_mk, helOk_mk] | split)

theorem State.hostMerges_canon  (a0 : Nat) (a1 : State) (a2 : Nat) (a3 : List Byte) (ha1 : State.Canon a1) : State.Canon (State.hostMerges a0 a1 a2 a3) := by
  induction a0 generalizing a1 a2 a3 with
  | zero =>
    unfold State.hostMerges
    try dsimp only
    repeat' (first | with_reducible assumption | intro _ | with_reducible apply State.hostMerge_canon | with_reducible apply ite_canon | with_reducible apply ite_chOk | with_reducible apply ite_helOk | with_reducible apply ite_snd_canon | with_reducible apply ch_ok | with_reducible apply hel_ok | simp only [canon_mk, chOk_mk, helOk_mk] | split)
  | succ x ih =>
    unfold State.hostMerges
    try dsimp only
    repeat' (first | with_reducible assumption | intro _ | with_reducible apply ih | with_reducible apply State.hostMerge_canon | with_reducible apply ite_canon | with_reducible apply ite_chOk | with_reducible apply ite_helOk | with_reducible apply ite_snd_canon | with_reducible apply ch_ok | with_reducible apply hel_ok | simp only [canon_mk, chOk_mk, helOk_mk] | split)

theorem State.countLanded_canon (s : State) (i : Nat) (n : Nat) (hs : State.Canon s) : State.Canon (State.countLanded s i n) := by
  unfold State.countLanded
  try dsimp only
  repeat' (first | with_reducible assumption | with_reducible apply State.postSig_canon | with_reducible apply State.count_canon | with_reducible apply foldl_canon | intro _)

theorem execUioWrite_canon (addr : BitVec 48) (data : List Byte) (s : State) (hs : State.Canon s) : ∀ t, execUioWrite addr data s = .next t → State.Canon t := by
  intro t ht
  unfold execUioWrite at ht
  try dsimp only at ht
  injection ht with ht
  subst ht
  try dsimp only
  repeat' (first | with_reducible assumption | intro _ | with_reducible apply State.countLanded_canon | with_reducible apply State.hostMerges_canon | with_reducible apply State.noteAll_canon | with_reducible apply Hel.next_canon | with_reducible apply State.endWork_canon | with_reducible apply State.wakeKeep_canon | with_reducible apply State.violGlb_canon | with_reducible refine canon_snd (by with_reducible assumption) ?_ | with_reducible refine canon_snd2 (by with_reducible assumption) ?_ | with_reducible refine canon_snd3 (by with_reducible assumption) ?_ | with_reducible apply ite_canon | with_reducible apply ite_chOk | with_reducible apply ite_helOk | with_reducible apply ite_snd_canon | with_reducible apply ch_ok | with_reducible apply hel_ok | with_reducible apply lmem_wf | with_reducible apply bmem_wf | with_reducible apply mem_wf | with_reducible apply canon_lit | simp only [canon_mk, chOk_mk, helOk_mk] | with_reducible apply chOk_lit | split)

theorem State.hostReads_canon  (a0 : Nat) (a1 : State) (a2 : Nat) (a3 : Nat) (hs : State.Canon a1) : State.Canon (State.hostReads  a0 a1 a2 a3).2.2 := by
  induction a0 generalizing a1 a2 a3 with
  | zero =>
    unfold State.hostReads
    try dsimp only
    repeat' (first | with_reducible assumption | with_reducible apply State.logHostPoison_canon | with_reducible apply State.readAs_canon | with_reducible apply ite_canon | split | with_reducible apply ih)
  | succ x ih =>
    unfold State.hostReads
    try dsimp only
    repeat' (first | with_reducible assumption | with_reducible apply State.logHostPoison_canon | with_reducible apply State.readAs_canon | with_reducible apply ite_canon | split | with_reducible apply ih)

theorem execUioRead_canon (addr : BitVec 48) (len : BitVec 16) (s : State) (hs : State.Canon s) : ∀ t, execUioRead addr len s = .next t → State.Canon t := by
  intro t ht
  unfold execUioRead at ht
  try dsimp only at ht
  injection ht with ht
  subst ht
  try dsimp only
  repeat' (first | with_reducible assumption | intro _ | with_reducible apply State.hostReads_canon | with_reducible apply State.noteAll_canon | with_reducible apply State.reply_canon | with_reducible apply Hel.next_canon | with_reducible apply State.wakeKeep_canon | with_reducible apply State.violGlb_canon | with_reducible refine canon_snd (by with_reducible assumption) ?_ | with_reducible refine canon_snd2 (by with_reducible assumption) ?_ | with_reducible refine canon_snd3 (by with_reducible assumption) ?_ | with_reducible apply ite_canon | with_reducible apply ite_chOk | with_reducible apply ite_helOk | with_reducible apply ite_snd_canon | with_reducible apply ch_ok | with_reducible apply hel_ok | with_reducible apply lmem_wf | with_reducible apply bmem_wf | with_reducible apply mem_wf | with_reducible apply canon_lit | simp only [canon_mk, chOk_mk, helOk_mk] | with_reducible apply chOk_lit | split)

theorem execStatus_canon (s : State) (hs : State.Canon s) : ∀ t, execStatus s = .next t → State.Canon t := by
  intro t ht
  unfold execStatus at ht
  injection ht with ht
  subst ht
  try dsimp only
  repeat' (first | with_reducible assumption | with_reducible apply State.mailbox_canon | with_reducible apply State.respond_canon | with_reducible apply Hel.next_canon | with_reducible apply ite_canon | intro _ | split)

theorem State.attach_canon (s : State) (tail : Nat) (head : Nat) (hs : State.Canon s) : State.Canon (State.attach s tail head) := by
  unfold State.attach
  try dsimp only
  repeat' (first | with_reducible assumption | intro _ | with_reducible apply State.ledger_canon | with_reducible apply State.flushCmpl_canon | with_reducible apply State.respond_canon | with_reducible apply State.gotFrame_canon | with_reducible apply State.puts_canon | with_reducible apply ite_canon | with_reducible apply ite_chOk | with_reducible apply ite_helOk | with_reducible apply ite_snd_canon | with_reducible apply ch_ok | with_reducible apply hel_ok | simp only [canon_mk, chOk_mk, helOk_mk] | split)

theorem execAttach_canon (tail : Word) (head : Word) (s : State) (hs : State.Canon s) : ∀ t, execAttach tail head s = .next t → State.Canon t := by
  intro t ht
  unfold execAttach at ht
  injection ht with ht
  subst ht
  try dsimp only
  repeat' (first | with_reducible assumption | with_reducible apply State.attach_canon | with_reducible apply State.mailbox_canon | with_reducible apply State.respond_canon | with_reducible apply Hel.next_canon | with_reducible apply ite_canon | intro _ | split)

theorem execDetach_canon (s : State) (hs : State.Canon s) : ∀ t, execDetach s = .next t → State.Canon t := by
  intro t ht
  unfold execDetach at ht
  try dsimp only at ht
  injection ht with ht
  subst ht
  try dsimp only
  repeat' (first | with_reducible assumption | intro _ | with_reducible apply State.ledger_canon | with_reducible apply State.flushCmpl_canon | with_reducible apply State.mailbox_canon | with_reducible apply Hel.next_canon | with_reducible apply State.gotFrame_canon | with_reducible apply ite_canon | with_reducible apply ite_chOk | with_reducible apply ite_helOk | with_reducible apply ite_snd_canon | with_reducible apply ch_ok | with_reducible apply hel_ok | simp only [canon_mk, chOk_mk, helOk_mk] | split)

theorem execSelftest_canon (failed : BitVec 28) (s : State) (hs : State.Canon s) : ∀ t, execSelftest failed s = .next t → State.Canon t := by
  intro t ht
  unfold execSelftest at ht
  injection ht with ht
  subst ht
  try dsimp only
  repeat' (first | with_reducible assumption | with_reducible apply State.mailbox_canon | with_reducible apply State.respond_canon | with_reducible apply Hel.next_canon | intro _)

theorem execRetire_canon (s : State) (hs : State.Canon s) : ∀ t, execRetire s = .next t → State.Canon t := by
  intro t ht
  unfold execRetire at ht
  injection ht with ht
  subst ht
  try dsimp only
  repeat' (first | with_reducible assumption | with_reducible apply State.mailbox_canon | with_reducible apply State.respond_canon | with_reducible apply Hel.next_canon | with_reducible apply State.put_canon | with_reducible apply ite_canon | intro _ | split)

/-! ## Twin -/

theorem State.setTwin_canon (s : State) (st : Nat) (hs : State.Canon s) : State.Canon (State.setTwin s st) := by
  unfold State.setTwin
  try dsimp only
  repeat' (first | with_reducible assumption | with_reducible apply State.panelEvent_canon | with_reducible apply State.put_canon | with_reducible apply ite_canon | split)

theorem State.stopAll_canon (s : State) (hs : State.Canon s) : State.Canon (State.stopAll s) := by
  unfold State.stopAll
  try dsimp only
  repeat' (first | with_reducible assumption | intro _ | with_reducible apply State.ctlArrives_canon | with_reducible apply ite_canon | with_reducible apply ite_chOk | with_reducible apply ite_helOk | with_reducible apply ite_snd_canon | with_reducible apply foldl_canon | with_reducible apply foldl_memwf | with_reducible apply ch_ok | with_reducible apply hel_ok | simp only [canon_mk, chOk_mk, helOk_mk] | split)

theorem State.portsDown_canon (s : State) (ports : List Nat) (hs : State.Canon s) : State.Canon (State.portsDown s ports) := by
  unfold State.portsDown
  try dsimp only
  repeat' (first | with_reducible assumption | with_reducible apply State.portDown_canon | with_reducible apply ite_canon | with_reducible apply foldl_canon | intro _ | split)

theorem State.enterFenced_canon (s : State) (hs : State.Canon s) : State.Canon (State.enterFenced s) := by
  unfold State.enterFenced
  try dsimp only
  repeat' (first | with_reducible assumption | with_reducible apply State.portsDown_canon | with_reducible apply State.stopAll_canon | with_reducible apply State.setTwin_canon | with_reducible apply State.endFailed_canon | with_reducible apply State.releaseAll_canon | simp only [canon_mk, chOk_mk, helOk_mk] | split)

theorem execTwinPairing_canon (p : Partner) (s : State) (hs : State.Canon s) : ∀ t, execTwinPairing p s = .next t → State.Canon t := by
  intro t ht
  unfold execTwinPairing at ht
  injection ht with ht
  subst ht
  try dsimp only
  repeat' (first | with_reducible assumption | with_reducible apply State.setTwin_canon | with_reducible apply Hel.next_canon | with_reducible apply State.put_canon | with_reducible apply ite_canon | simp only [canon_mk, chOk_mk, helOk_mk] | split)

theorem State.tell_canon (s : State) (m : TwinMsg) (hs : State.Canon s) : State.Canon (State.tell s m) := by
  unfold State.tell
  try dsimp only
  repeat' (first | with_reducible assumption | simp only [canon_mk, chOk_mk, helOk_mk])

theorem State.tellMark_canon (s : State) (m : Option Nat) (stamp : Nat) (hs : State.Canon s) : State.Canon (State.tellMark s m stamp) := by
  unfold State.tellMark
  try dsimp only
  repeat' (first | with_reducible assumption | with_reducible apply State.tell_canon | with_reducible apply ite_canon | split)

theorem State.advanceMarks_canon (s : State) (hs : State.Canon s) : State.Canon (State.advanceMarks s) := by
  unfold State.advanceMarks
  try dsimp only
  repeat' (first | with_reducible assumption | with_reducible apply State.tellMark_canon | simp only [canon_mk, chOk_mk, helOk_mk] | split)

theorem State.countMirror_canon (s : State) (n : Nat) (hs : State.Canon s) : State.Canon (State.countMirror s n) := by
  unfold State.countMirror
  try dsimp only
  repeat' (first | with_reducible assumption | with_reducible apply State.count_canon | simp only [canon_mk, chOk_mk, helOk_mk])

theorem State.resyncLeft_canon (s : State) (hs : State.Canon s) : State.Canon (State.resyncLeft s) := by
  unfold State.resyncLeft
  try dsimp only
  repeat' (first | with_reducible assumption | with_reducible apply State.put_canon | with_reducible apply ite_canon | split)

theorem execMirrorCopy_canon (s : State) (hs : State.Canon s) : ∀ t, execMirrorCopy s = .next t → State.Canon t := by
  intro t ht
  unfold execMirrorCopy at ht
  try dsimp only at ht
  injection ht with ht
  subst ht
  try dsimp only
  repeat' (first | with_reducible assumption | intro _ | with_reducible apply State.resyncLeft_canon | with_reducible apply State.countMirror_canon | with_reducible apply State.advanceMarks_canon | with_reducible apply Hel.next_canon | with_reducible apply State.sendOver_canon | with_reducible refine canon_snd (by with_reducible assumption) ?_ | with_reducible refine canon_snd2 (by with_reducible assumption) ?_ | with_reducible refine canon_snd3 (by with_reducible assumption) ?_ | with_reducible apply ite_canon | with_reducible apply ite_chOk | with_reducible apply ite_helOk | with_reducible apply ite_snd_canon | with_reducible apply ch_ok | with_reducible apply hel_ok | simp only [canon_mk, chOk_mk, helOk_mk] | split)

theorem execMarkReceive_canon (stamp : BitVec 32) (handover : Bool) (s : State) (hs : State.Canon s) : ∀ t, execMarkReceive stamp handover s = .next t → State.Canon t := by
  intro t ht
  unfold execMarkReceive at ht
  injection ht with ht
  subst ht
  try dsimp only
  repeat' (first | with_reducible assumption | with_reducible apply State.tell_canon | with_reducible apply Hel.next_canon | with_reducible apply State.put_canon | with_reducible apply ite_canon | simp only [canon_mk, chOk_mk, helOk_mk] | intro _ | split)

theorem State.postWaiting_canon (s : State) (hs : State.Canon s) : State.Canon (State.postWaiting s) := by
  unfold State.postWaiting
  try dsimp only
  repeat' (first | with_reducible assumption | with_reducible apply State.kprPost_canon | with_reducible apply ite_canon | split)

theorem execCommitAck_canon (s : State) (hs : State.Canon s) : ∀ t, execCommitAck s = .next t → State.Canon t := by
  intro t ht
  unfold execCommitAck at ht
  injection ht with ht
  subst ht
  try dsimp only
  repeat' (first | with_reducible assumption | with_reducible apply State.postWaiting_canon | with_reducible apply State.commitStep_canon | with_reducible apply Hel.next_canon | with_reducible apply ite_canon | split)

theorem execHeartbeatSend_canon (s : State) (hs : State.Canon s) : ∀ t, execHeartbeatSend s = .next t → State.Canon t := by
  intro t ht
  unfold execHeartbeatSend at ht
  injection ht with ht
  subst ht
  try dsimp only
  repeat' (first | with_reducible assumption | with_reducible apply State.tell_canon | with_reducible apply Hel.next_canon | with_reducible apply ite_canon | simp only [canon_mk, chOk_mk, helOk_mk] | split)

theorem State.endResync_canon (s : State) (hs : State.Canon s) : State.Canon (State.endResync s) := by
  unfold State.endResync
  try dsimp only
  repeat' (first | with_reducible assumption | with_reducible apply State.enterFenced_canon | with_reducible apply State.setTwin_canon | with_reducible apply ite_canon | simp only [canon_mk, chOk_mk, helOk_mk] | split)

theorem execHeartbeatReceive_canon (st : BitVec 3) (s : State) (hs : State.Canon s) : ∀ t, execHeartbeatReceive st s = .next t → State.Canon t := by
  intro t ht
  unfold execHeartbeatReceive at ht
  injection ht with ht
  subst ht
  try dsimp only
  repeat' (first | with_reducible assumption | with_reducible apply State.endResync_canon | with_reducible apply State.enterFenced_canon | with_reducible apply Hel.next_canon | with_reducible apply ite_canon | simp only [canon_mk, chOk_mk, helOk_mk] | split)

theorem execHeartbeatTimeout_canon (s : State) (hs : State.Canon s) : ∀ t, execHeartbeatTimeout s = .next t → State.Canon t := by
  intro t ht
  unfold execHeartbeatTimeout at ht
  injection ht with ht
  subst ht
  try dsimp only
  repeat' (first | with_reducible assumption | with_reducible apply State.endResync_canon | with_reducible apply State.enterFenced_canon | with_reducible apply Hel.next_canon | with_reducible apply ite_canon | simp only [canon_mk, chOk_mk, helOk_mk] | split)

theorem State.takeoverReset_canon (s : State) (hs : State.Canon s) : State.Canon (State.takeoverReset s) := by
  unfold State.takeoverReset
  try dsimp only
  repeat' (first | with_reducible assumption | with_reducible apply State.puts_canon | with_reducible apply State.put_canon | with_reducible apply ite_canon | split)

theorem State.resumeTable_canon (s : State) (a : Nat) (hs : State.Canon s) : State.Canon (State.resumeTable s a) := by
  unfold State.resumeTable
  try dsimp only
  repeat' (first | with_reducible assumption | intro _ | with_reducible apply State.readKeeper_canon | with_reducible apply State.read_canon | with_reducible refine canon_snd (by with_reducible assumption) ?_ | with_reducible refine canon_snd2 (by with_reducible assumption) ?_ | with_reducible refine canon_snd3 (by with_reducible assumption) ?_ | with_reducible apply ite_canon | with_reducible apply ite_chOk | with_reducible apply ite_helOk | with_reducible apply ite_snd_canon | with_reducible apply ch_ok | with_reducible apply hel_ok | simp only [canon_mk, chOk_mk, helOk_mk] | split)

theorem State.takePartnerTable_canon (s : State) (hs : State.Canon s) : State.Canon (State.takePartnerTable s) := by
  unfold State.takePartnerTable
  split
  · exact State.resumeTable_canon _ _ hs
  · exact hs

theorem State.takeOver_canon (s : State) (cause : Nat) (hs : State.Canon s) : State.Canon (State.takeOver s cause) := by
  unfold State.takeOver
  try dsimp only
  repeat' (first | with_reducible assumption | with_reducible apply State.takePartnerTable_canon | with_reducible apply State.takeoverReset_canon | with_reducible apply State.postWaiting_canon | with_reducible apply State.setTwin_canon | with_reducible apply State.commitStep_canon | with_reducible apply State.logErr_canon | with_reducible apply State.count_canon | with_reducible apply State.put_canon | simp only [canon_mk, chOk_mk, helOk_mk] | split)

theorem execTwinTakeover_canon (s : State) (hs : State.Canon s) : ∀ t, execTwinTakeover s = .next t → State.Canon t := by
  intro t ht
  unfold execTwinTakeover at ht
  injection ht with ht
  subst ht
  try dsimp only
  repeat' (first | with_reducible assumption | with_reducible apply State.takeOver_canon | with_reducible apply Hel.next_canon | with_reducible apply ite_canon | simp only [canon_mk, chOk_mk, helOk_mk] | split)

theorem execHandoverMark_canon (s : State) (hs : State.Canon s) : ∀ t, execHandoverMark s = .next t → State.Canon t := by
  intro t ht
  unfold execHandoverMark at ht
  injection ht with ht
  subst ht
  try dsimp only
  repeat' (first | with_reducible assumption | with_reducible apply State.tell_canon | with_reducible apply Hel.next_canon | with_reducible apply ite_canon | simp only [canon_mk, chOk_mk, helOk_mk] | split)

theorem execHandoverComplete_canon (s : State) (hs : State.Canon s) : ∀ t, execHandoverComplete s = .next t → State.Canon t := by
  intro t ht
  unfold execHandoverComplete at ht
  injection ht with ht
  subst ht
  try dsimp only
  repeat' (first | with_reducible assumption | with_reducible apply State.portsDown_canon | with_reducible apply State.setTwin_canon | with_reducible apply Hel.next_canon | with_reducible apply ite_canon | simp only [canon_mk, chOk_mk, helOk_mk] | split)

theorem execResyncStart_canon (p : Partner) (s : State) (hs : State.Canon s) : ∀ t, execResyncStart p s = .next t → State.Canon t := by
  intro t ht
  unfold execResyncStart at ht
  injection ht with ht
  subst ht
  try dsimp only
  repeat' (first | with_reducible assumption | with_reducible apply State.resyncLeft_canon | with_reducible apply State.setTwin_canon | with_reducible apply Hel.next_canon | with_reducible apply State.put_canon | with_reducible apply ite_canon | simp only [canon_mk, chOk_mk, helOk_mk] | split)

theorem execResyncFinish_canon (s : State) (hs : State.Canon s) : ∀ t, execResyncFinish s = .next t → State.Canon t := by
  intro t ht
  unfold execResyncFinish at ht
  injection ht with ht
  subst ht
  try dsimp only
  repeat' (first | with_reducible assumption | with_reducible apply State.tell_canon | with_reducible apply State.setTwin_canon | with_reducible apply Hel.next_canon | with_reducible apply State.puts_canon | with_reducible apply ite_canon | simp only [canon_mk, chOk_mk, helOk_mk] | split)

/-! ## Retire -/

theorem State.blow_canon (s : State) (f : FieldRef) (v : Nat) (hs : State.Canon s) : State.Canon (State.blow s f v) := by
  unfold State.blow
  try dsimp only
  repeat' (first | with_reducible assumption | with_reducible apply State.put_canon | simp only [canon_mk, chOk_mk, helOk_mk])

theorem State.fuseRetired_canon (s : State) (n : Nat) (hs : State.Canon s) : State.Canon (State.fuseRetired s n) := by
  unfold State.fuseRetired
  try dsimp only
  repeat' (first | with_reducible assumption | intro _ | with_reducible apply State.blow_canon | with_reducible apply ite_canon | with_reducible apply ite_chOk | with_reducible apply ite_helOk | with_reducible apply ite_snd_canon | with_reducible apply ch_ok | with_reducible apply hel_ok | simp only [canon_mk, chOk_mk, helOk_mk] | split)

theorem State.logRetired_canon (s : State) (n : Nat) (hs : State.Canon s) : State.Canon (State.logRetired s n) := by
  unfold State.logRetired
  try dsimp only
  repeat' (first | with_reducible assumption | with_reducible apply State.logErr_canon | simp only [canon_mk, chOk_mk, helOk_mk])

theorem State.copyRegions_canon (s : State) (n : Nat) (p : Nat) (hs : State.Canon s) : State.Canon (State.copyRegions s n p) := by
  unfold State.copyRegions
  try dsimp only
  repeat' (first | with_reducible assumption | with_reducible apply foldl_canon | simp only [canon_mk, chOk_mk, helOk_mk] | intro _)

theorem State.replaceChamber_canon (s : State) (n : Nat) (p : Nat) (hs : State.Canon s) : State.Canon (State.replaceChamber s n p) := by
  unfold State.replaceChamber
  try dsimp only
  repeat' (first | with_reducible assumption | intro _ | with_reducible apply State.copyRegions_canon | with_reducible apply State.fuseRetired_canon | with_reducible apply State.blow_canon | with_reducible apply State.resetRange_canon | with_reducible apply State.put_canon | with_reducible apply ite_canon | with_reducible apply ite_chOk | with_reducible apply ite_helOk | with_reducible apply ite_snd_canon | with_reducible apply setCh_ok | with_reducible apply ch_ok | with_reducible apply hel_ok | with_reducible apply chReset_ok | with_reducible apply helReset_ok | simp only [canon_mk, chOk_mk, helOk_mk] | split)

theorem State.noneLeft_canon (s : State) (n : Nat) (hs : State.Canon s) : State.Canon (State.noneLeft s n) := by
  unfold State.noneLeft
  try dsimp only
  repeat' (first | with_reducible assumption | intro _ | with_reducible apply State.enterFenced_canon | with_reducible apply State.logErr_canon | with_reducible apply ite_canon | with_reducible apply ite_chOk | with_reducible apply ite_helOk | with_reducible apply ite_snd_canon | with_reducible apply ch_ok | with_reducible apply hel_ok | simp only [canon_mk, chOk_mk, helOk_mk] | split)

theorem State.retireWith_canon (s : State) (failed : BitVec 28) (n : Nat) (cands : List Nat) (hs : State.Canon s) : State.Canon (State.retireWith s failed n cands) := by
  unfold State.retireWith
  try dsimp only
  repeat' (first | with_reducible assumption | with_reducible apply State.noneLeft_canon | with_reducible apply State.replaceChamber_canon | with_reducible apply State.logRetired_canon | with_reducible apply State.fuseRetired_canon | with_reducible apply foldl_canon | intro _ | split)

theorem execChamberRetirement_canon (failed : BitVec 28) (s : State) (hs : State.Canon s) : ∀ t, execChamberRetirement failed s = .next t → State.Canon t := by
  intro t ht
  unfold execChamberRetirement at ht
  injection ht with ht
  subst ht
  try dsimp only
  repeat' (first | with_reducible assumption | with_reducible apply State.retireWith_canon | with_reducible apply Hel.next_canon | with_reducible apply ite_canon | split)

theorem execKeeperChamberRetirement_canon (failed : BitVec 28) (s : State) (hs : State.Canon s) : ∀ t, execKeeperChamberRetirement failed s = .next t → State.Canon t := by
  intro t ht
  unfold execKeeperChamberRetirement at ht
  injection ht with ht
  subst ht
  try dsimp only
  repeat' (first | with_reducible assumption | with_reducible apply State.retireWith_canon | with_reducible apply Hel.next_canon | with_reducible apply ite_canon | intro _ | split)

/-! ## Service -/

theorem State.showSlotCode_canon (s : State) (m : Nat) (c : Nat) (hs : State.Canon s) : State.Canon (State.showSlotCode s m c) := by
  unfold State.showSlotCode
  try dsimp only
  repeat' (first | with_reducible assumption | simp only [canon_mk, chOk_mk, helOk_mk])

theorem State.resetCartridge_canon (s : State) (m : Nat) (hs : State.Canon s) : State.Canon (State.resetCartridge s m) := by
  unfold State.resetCartridge
  try dsimp only
  repeat' (first | with_reducible assumption | with_reducible apply State.clearArb_canon | with_reducible apply State.setSlot_canon | with_reducible apply State.resetRange_canon)

theorem State.beginAdd_canon (s : State) (m : Nat) (hs : State.Canon s) : State.Canon (State.beginAdd s m) := by
  unfold State.beginAdd
  try dsimp only
  repeat' (first | with_reducible assumption | with_reducible apply State.setSlot_canon)

theorem State.closeOn_canon (s : State) (m : Nat) (hs : State.Canon s) : State.Canon (State.closeOn s m) := by
  unfold State.closeOn
  try dsimp only
  repeat' (first | with_reducible assumption | with_reducible apply State.beginAdd_canon | with_reducible apply State.resetCartridge_canon | with_reducible apply State.setSlot_canon | with_reducible apply State.put_canon)

theorem execLatchClose_canon (m : Fin 6) (s : State) (hs : State.Canon s) : ∀ t, execLatchClose m s = .next t → State.Canon t := by
  intro t ht
  unfold execLatchClose at ht
  injection ht with ht
  subst ht
  try dsimp only
  repeat' (first | with_reducible assumption | with_reducible apply State.closeOn_canon | with_reducible apply State.panelEvent_canon | with_reducible apply Hel.next_canon | with_reducible apply State.wake_canon | with_reducible apply State.put_canon | with_reducible apply ite_canon | simp only [canon_mk, chOk_mk, helOk_mk] | split)

theorem execCartridgeInserted_canon (m : Fin 6) (s : State) (hs : State.Canon s) : ∀ t, execCartridgeInserted m s = .next t → State.Canon t := by
  intro t ht
  unfold execCartridgeInserted at ht
  injection ht with ht
  subst ht
  try dsimp only
  repeat' (first | with_reducible assumption | with_reducible apply Hel.next_canon | with_reducible apply State.put_canon)

theorem execCartridgeAddComplete_canon (m : Fin 6) (c128 : Bool) (s : State) (hs : State.Canon s) : ∀ t, execCartridgeAddComplete m c128 s = .next t → State.Canon t := by
  intro t ht
  unfold execCartridgeAddComplete at ht
  try dsimp only at ht
  injection ht with ht
  subst ht
  try dsimp only
  repeat' (first | with_reducible assumption | intro _ | with_reducible apply State.settle_canon | with_reducible apply State.setSlot_canon | with_reducible apply Hel.next_canon | with_reducible apply State.puts_canon | with_reducible apply State.put_canon | with_reducible apply ite_canon | with_reducible apply ite_chOk | with_reducible apply ite_helOk | with_reducible apply ite_snd_canon | with_reducible apply ch_ok | with_reducible apply hel_ok | simp only [canon_mk, chOk_mk, helOk_mk] | split)

theorem execCartridgeAddFail_canon (m : Fin 6) (cause : Fin 4) (s : State) (hs : State.Canon s) : ∀ t, execCartridgeAddFail m cause s = .next t → State.Canon t := by
  intro t ht
  unfold execCartridgeAddFail at ht
  injection ht with ht
  subst ht
  try dsimp only
  repeat' (first | with_reducible assumption | with_reducible apply State.setSlot_canon | with_reducible apply Hel.next_canon | with_reducible apply State.put_canon | with_reducible apply ite_canon | split)

theorem State.openOn_canon (s : State) (m : Nat) (d : Deferred) (hs : State.Canon s) : State.Canon (State.openOn s m d) := by
  unfold State.openOn
  try dsimp only
  repeat' (first | with_reducible assumption | with_reducible apply State.resetCartridge_canon | with_reducible apply State.loseCartridge_canon | with_reducible apply State.put_canon | with_reducible apply ite_canon | simp only [canon_mk, chOk_mk, helOk_mk] | split)

theorem execLatchOpen_canon (m : Fin 6) (s : State) (hs : State.Canon s) : ∀ t, execLatchOpen m s = .next t → State.Canon t := by
  intro t ht
  unfold execLatchOpen at ht
  injection ht with ht
  subst ht
  try dsimp only
  repeat' (first | with_reducible assumption | with_reducible apply State.openOn_canon | with_reducible apply State.panelEvent_canon | with_reducible apply Hel.next_canon | with_reducible apply State.wake_canon | with_reducible apply State.put_canon | with_reducible apply ite_canon | split)

theorem execCartridgeRemoved_canon (m : Fin 6) (s : State) (hs : State.Canon s) : ∀ t, execCartridgeRemoved m s = .next t → State.Canon t := by
  intro t ht
  unfold execCartridgeRemoved at ht
  injection ht with ht
  subst ht
  try dsimp only
  repeat' (first | with_reducible assumption | with_reducible apply State.openOn_canon | with_reducible apply Hel.next_canon | with_reducible apply State.wake_canon | with_reducible apply State.put_canon | with_reducible apply ite_canon | split)

theorem State.refusePress_canon (s : State) (m : Nat) (c : Nat) (hs : State.Canon s) : State.Canon (State.refusePress s m c) := by
  unfold State.refusePress
  try dsimp only
  repeat' (first | with_reducible assumption | with_reducible apply State.showSlotCode_canon | with_reducible apply State.refuseDrain_canon | with_reducible apply State.put_canon)

theorem State.pressSlot_canon (s : State) (m : Nat) (hs : State.Canon s) : State.Canon (State.pressSlot s m) := by
  unfold State.pressSlot
  try dsimp only
  repeat' (first | with_reducible assumption | with_reducible apply State.refusePress_canon | with_reducible apply State.beginAdd_canon | with_reducible apply State.cancelDrain_canon | with_reducible apply State.acceptDrain_canon | with_reducible apply ite_canon | split)

theorem execSlotButtonPress_canon (m : Fin 6) (s : State) (hs : State.Canon s) : ∀ t, execSlotButtonPress m s = .next t → State.Canon t := by
  intro t ht
  unfold execSlotButtonPress at ht
  injection ht with ht
  subst ht
  try dsimp only
  repeat' (first | with_reducible assumption | with_reducible apply State.pressSlot_canon | with_reducible apply State.panelEvent_canon | with_reducible apply Hel.next_canon | with_reducible apply State.wake_canon | with_reducible apply State.put_canon | with_reducible apply ite_canon | split)

theorem execButtonRelease_canon (which : Fin 7) (s : State) (hs : State.Canon s) : ∀ t, execButtonRelease which s = .next t → State.Canon t := by
  intro t ht
  unfold execButtonRelease at ht
  injection ht with ht
  subst ht
  try dsimp only
  repeat' (first | with_reducible assumption | with_reducible apply Hel.next_canon | with_reducible apply State.put_canon | with_reducible apply ite_canon | split)

theorem execCodePatternEnd_canon (which : Fin 7) (s : State) (hs : State.Canon s) : ∀ t, execCodePatternEnd which s = .next t → State.Canon t := by
  intro t ht
  unfold execCodePatternEnd at ht
  injection ht with ht
  subst ht
  try dsimp only
  repeat' (first | with_reducible assumption | with_reducible apply State.showSlotCode_canon | with_reducible apply Hel.next_canon | with_reducible apply ite_canon | simp only [canon_mk, chOk_mk, helOk_mk] | split)

theorem State.askHandover_canon (s : State) (partnerPaired : Bool) (partnerHeld : Bool) (hs : State.Canon s) : State.Canon (State.askHandover s partnerPaired partnerHeld) := by
  unfold State.askHandover
  try dsimp only
  repeat' (first | with_reducible assumption | with_reducible apply State.setTwin_canon | with_reducible apply State.put_canon | with_reducible apply ite_canon | simp only [canon_mk, chOk_mk, helOk_mk] | split)

theorem execDeviceButtonPress_canon (partnerPaired : Bool) (partnerHeld : Bool) (s : State) (hs : State.Canon s) : ∀ t, execDeviceButtonPress partnerPaired partnerHeld s = .next t → State.Canon t := by
  intro t ht
  unfold execDeviceButtonPress at ht
  injection ht with ht
  subst ht
  try dsimp only
  repeat' (first | with_reducible assumption | intro _ | with_reducible apply ite_canon | with_reducible apply State.askHandover_canon | with_reducible apply State.setTwin_canon | with_reducible apply State.panelEvent_canon | with_reducible apply Hel.next_canon | with_reducible apply State.wake_canon | with_reducible apply State.put_canon | with_reducible apply ite_snd_canon | with_reducible apply ite_snd2_canon | with_reducible apply ite_snd3_canon | with_reducible apply foldl_canon | with_reducible apply modCh_ok | with_reducible apply setCh_ok | with_reducible apply setHel_ok | with_reducible apply ch_ok | with_reducible apply hel_ok | with_reducible apply ite_chOk | with_reducible apply ite_helOk | with_reducible exact chReset_ok | with_reducible exact helReset_ok | simp only [canon_mk, chOk_mk, helOk_mk] | split | with_reducible refine canon_snd (by with_reducible assumption) ?_ | with_reducible refine canon_snd2 (by with_reducible assumption) ?_ | with_reducible refine canon_snd3 (by with_reducible assumption) ?_ | with_reducible refine canon_fst (by with_reducible assumption) ?_ | with_reducible apply chOk_lit | with_reducible apply helOk_lit | with_reducible apply memWrite_wf | with_reducible apply memSet_wf | with_reducible apply memClear_wf | with_reducible apply localPut_wf | with_reducible apply foldl_memwf | with_reducible apply lmem_wf | with_reducible apply bmem_wf | with_reducible apply scratch_wf)

/-! ## Held -/

theorem State.redoWrite_canon (s : State) (h : HeldWrite) (hs : State.Canon s) : State.Canon (State.redoWrite s h).2 := by
  unfold State.redoWrite
  try dsimp only
  repeat' (first | with_reducible assumption | with_reducible apply State.storePoisoned_canon | with_reducible apply State.writeIn_canon | with_reducible apply ite_canon | split)

theorem State.retryWrites_canon (s : State) (hs : State.Canon s) : State.Canon (State.retryWrites s) := by
  unfold State.retryWrites
  try dsimp only
  repeat' (first | with_reducible assumption | intro _ | with_reducible apply State.redoWrite_canon | with_reducible refine canon_snd (by with_reducible assumption) ?_ | with_reducible refine canon_snd2 (by with_reducible assumption) ?_ | with_reducible refine canon_snd3 (by with_reducible assumption) ?_ | with_reducible apply ite_canon | with_reducible apply ite_chOk | with_reducible apply ite_helOk | with_reducible apply ite_snd_canon | with_reducible apply foldl_canon | with_reducible apply foldl_memwf | with_reducible apply ch_ok | with_reducible apply hel_ok | simp only [canon_mk, chOk_mk, helOk_mk] | split)

theorem State.runEnd_canon (s : State) (a0 : WorkEnd) (hs : State.Canon s) : State.Canon (State.runEnd s a0) := by
  unfold State.runEnd
  try dsimp only
  repeat' (first | with_reducible assumption | intro _ | with_reducible apply State.endSiphon_canon | with_reducible apply State.endCoderJob_canon | with_reducible apply State.countLanded_canon | with_reducible apply State.delivered_canon | with_reducible apply State.completeFls_canon | with_reducible apply State.wholeHere_canon | with_reducible apply State.endTx_canon | with_reducible apply State.checkCuJob_canon | with_reducible apply State.oweCredit_canon | with_reducible apply State.postSig_canon | with_reducible apply ite_canon | with_reducible apply ite_chOk | with_reducible apply ite_helOk | with_reducible apply ite_snd_canon | with_reducible apply ch_ok | with_reducible apply hel_ok | simp only [canon_mk, chOk_mk, helOk_mk] | split)

theorem State.settleEnds_canon (s : State) (hs : State.Canon s) : State.Canon (State.settleEnds s) := by
  unfold State.settleEnds
  try dsimp only
  repeat' (first | with_reducible assumption | intro _ | with_reducible apply State.runEnd_canon | with_reducible apply ite_canon | with_reducible apply ite_chOk | with_reducible apply ite_helOk | with_reducible apply ite_snd_canon | with_reducible apply foldl_canon | with_reducible apply foldl_memwf | with_reducible apply ch_ok | with_reducible apply setHel_ok | with_reducible apply hel_ok | simp only [canon_mk, chOk_mk, helOk_mk] | split)

theorem execWaitingWriteResume_canon (s : State) (hs : State.Canon s) : ∀ t, execWaitingWriteResume s = .next t → State.Canon t := by
  intro t ht
  unfold execWaitingWriteResume at ht
  try dsimp only at ht
  injection ht with ht
  subst ht
  try dsimp only
  repeat' (first | with_reducible assumption | intro _ | with_reducible apply State.settleEnds_canon | with_reducible apply State.retryWrites_canon | with_reducible apply Hel.next_canon | with_reducible apply State.settleFull_canon | with_reducible apply ite_canon | with_reducible apply ite_chOk | with_reducible apply ite_helOk | with_reducible apply ite_snd_canon | with_reducible apply ch_ok | with_reducible apply hel_ok | simp only [canon_mk, chOk_mk, helOk_mk] | split)

end Sys2Proof.Machine
end

