-- ==== Sys2Proof/Laws/KeepBoot.lean ====
section
/-! SUPPORT. Every operation of these modules keeps the memories canonical: Image, Boot, Power, Security, RegWrite, Tick. -/

namespace Sys2Proof.Machine

open Sys2Proof

/-! ## Image -/

theorem State.flashErase_canon (s : State) (off : Nat) (n : Nat) (hs : State.Canon s) : State.Canon (State.flashErase s off n) := by
  unfold State.flashErase
  try dsimp only
  repeat' (first | with_reducible assumption | simp only [canon_mk, chOk_mk, helOk_mk] | intro _)

theorem State.select_canon (s : State) (bank : Nat) (hs : State.Canon s) : State.Canon (State.select s bank) := by
  unfold State.select
  try dsimp only
  repeat' (first | with_reducible assumption | with_reducible apply State.flashErase_canon | simp only [canon_mk, chOk_mk, helOk_mk] | intro _ | split)

/-! ## Boot -/

theorem reset_canon : State.Canon State.reset := ⟨rfl, fun _ => chReset_ok, fun _ => helReset_ok⟩

theorem State.coldReset_canon (s : State) (cause : Nat) (rail : Nat) (_hs : State.Canon s) : State.Canon (State.coldReset s cause rail) := by
  unfold State.coldReset
  extract_lets t
  exact State.puts_canon _ _ reset_canon

theorem execPowerOn_canon (auxAbsent : Bool) (s : State) (hs : State.Canon s) : ∀ t, execPowerOn auxAbsent s = .next t → State.Canon t := by
  intro t ht
  unfold execPowerOn at ht
  injection ht with ht
  subst ht
  try dsimp only
  repeat' (first | with_reducible assumption | with_reducible apply State.coldReset_canon | with_reducible apply Hel.next_canon | with_reducible apply ite_canon | simp only [canon_mk, chOk_mk, helOk_mk] | split)

theorem execPwrRstNAssert_canon (s : State) (hs : State.Canon s) : ∀ t, execPwrRstNAssert s = .next t → State.Canon t := by
  intro t ht
  unfold execPwrRstNAssert at ht
  injection ht with ht
  subst ht
  try dsimp only
  repeat' (first | with_reducible assumption | with_reducible apply State.coldReset_canon | with_reducible apply Hel.next_canon | simp only [canon_mk, chOk_mk, helOk_mk])

theorem execReferenceLoss_canon (s : State) (hs : State.Canon s) : ∀ t, execReferenceLoss s = .next t → State.Canon t := by
  intro t ht
  unfold execReferenceLoss at ht
  injection ht with ht
  subst ht
  try dsimp only
  repeat' (first | with_reducible assumption | with_reducible apply State.coldReset_canon | with_reducible apply Hel.next_canon)

theorem execRailUndervoltage_canon (rail : BitVec 4) (s : State) (hs : State.Canon s) : ∀ t, execRailUndervoltage rail s = .next t → State.Canon t := by
  intro t ht
  unfold execRailUndervoltage at ht
  injection ht with ht
  subst ht
  try dsimp only
  repeat' (first | with_reducible assumption | with_reducible apply State.coldReset_canon | with_reducible apply Hel.next_canon | with_reducible apply ite_canon | split)

theorem execCoreResetLevel_canon (mv : BitVec 16) (s : State) (hs : State.Canon s) : ∀ t, execCoreResetLevel mv s = .next t → State.Canon t := by
  intro t ht
  unfold execCoreResetLevel at ht
  injection ht with ht
  subst ht
  try dsimp only
  repeat' (first | with_reducible assumption | with_reducible apply State.coldReset_canon | with_reducible apply Hel.next_canon | with_reducible apply ite_canon | simp only [canon_mk, chOk_mk, helOk_mk] | split)

theorem execThermalTrip_canon (logic : BitVec 12) (dram : BitVec 12) (s : State) (hs : State.Canon s) : ∀ t, execThermalTrip logic dram s = .next t → State.Canon t := by
  intro t ht
  unfold execThermalTrip at ht
  injection ht with ht
  subst ht
  try dsimp only
  repeat' (first | with_reducible assumption | with_reducible apply State.coldReset_canon | with_reducible apply Hel.next_canon | with_reducible apply ite_canon | simp only [canon_mk, chOk_mk, helOk_mk] | split)

theorem State.fitFlash_canon (s : State) (ps : List FlashPiece) (hs : State.Canon s) : State.Canon (State.fitFlash s ps) := by
  unfold State.fitFlash
  try dsimp only
  repeat' (first | with_reducible assumption | with_reducible apply foldl_canon | simp only [canon_mk, chOk_mk, helOk_mk] | intro _)

theorem State.bootStart_canon (s : State) (hs : State.Canon s) : State.Canon (State.bootStart s) := by
  unfold State.bootStart
  try dsimp only
  repeat' (first | with_reducible assumption | intro _ | with_reducible apply State.coldReset_canon | with_reducible apply State.puts_canon | with_reducible refine canon_snd (by with_reducible assumption) ?_ | with_reducible refine canon_snd2 (by with_reducible assumption) ?_ | with_reducible refine canon_snd3 (by with_reducible assumption) ?_ | with_reducible apply ite_canon | with_reducible apply ite_chOk | with_reducible apply ite_helOk | with_reducible apply ite_snd_canon | with_reducible apply ch_ok | with_reducible apply hel_ok | with_reducible apply chReset_ok | with_reducible apply helReset_ok | simp only [canon_mk, chOk_mk, helOk_mk] | split)

theorem State.recover_canon (s : State) (sel : Nat) (alt : Nat) (hs : State.Canon s) : State.Canon (State.recover s sel alt) := by
  unfold State.recover
  try dsimp only
  repeat' (first | with_reducible assumption | with_reducible apply State.puts_canon)

theorem State.imageFuses_canon (s : State) (h : List Nat) (hs : State.Canon s) : State.Canon (State.imageFuses s h) := by
  unfold State.imageFuses
  try dsimp only
  repeat' (first | with_reducible assumption | with_reducible apply State.blow_canon | with_reducible apply ite_canon | split)

theorem State.takeImage_canon (s : State) (b : Nat) (hs : State.Canon s) : State.Canon (State.takeImage s b) := by
  unfold State.takeImage
  try dsimp only
  repeat' (first | with_reducible assumption | with_reducible apply State.imageFuses_canon | with_reducible apply State.puts_canon | simp only [canon_mk, chOk_mk, helOk_mk] | split)

theorem State.bootRetire_canon (failed : BitVec 28) (s : State) (n : Nat) (hs : State.Canon s) : State.Canon (State.bootRetire failed s n) := by
  unfold State.bootRetire
  try dsimp only
  repeat' (first | with_reducible assumption | with_reducible apply State.replaceChamber_canon | with_reducible apply State.logRetired_canon | with_reducible apply State.fuseRetired_canon | with_reducible apply State.logErr_canon | with_reducible apply State.put_canon | with_reducible apply ite_canon | with_reducible apply foldl_canon | simp only [canon_mk, chOk_mk, helOk_mk] | intro _ | split)

theorem State.bootChambers_canon (s : State) (hs : State.Canon s) : State.Canon (State.bootChambers s) := by
  unfold State.bootChambers
  try dsimp only
  repeat' (first | with_reducible assumption | with_reducible apply State.put_canon | with_reducible apply ite_canon | with_reducible apply foldl_canon | intro _ | split)

theorem State.bootPorts_canon (s : State) (hs : State.Canon s) : State.Canon (State.bootPorts s) := by
  unfold State.bootPorts
  try dsimp only
  repeat' (first | with_reducible assumption | intro _ | with_reducible apply ite_canon | with_reducible apply State.put_canon | with_reducible apply ite_snd_canon | with_reducible apply ite_snd2_canon | with_reducible apply ite_snd3_canon | with_reducible apply foldl_canon | with_reducible apply modCh_ok | with_reducible apply setCh_ok | with_reducible apply setHel_ok | with_reducible apply ch_ok | with_reducible apply hel_ok | with_reducible apply ite_chOk | with_reducible apply ite_helOk | with_reducible exact chReset_ok | with_reducible exact helReset_ok | simp only [canon_mk, chOk_mk, helOk_mk] | split | with_reducible refine canon_snd (by with_reducible assumption) ?_ | with_reducible refine canon_snd2 (by with_reducible assumption) ?_ | with_reducible refine canon_snd3 (by with_reducible assumption) ?_ | with_reducible refine canon_fst (by with_reducible assumption) ?_ | with_reducible apply chOk_lit | with_reducible apply helOk_lit | with_reducible apply memWrite_wf | with_reducible apply memSet_wf | with_reducible apply memClear_wf | with_reducible apply localPut_wf | with_reducible apply foldl_memwf | with_reducible apply lmem_wf | with_reducible apply bmem_wf | with_reducible apply scratch_wf)

theorem State.copyLibrary_canon (s : State) (b : Nat) (hs : State.Canon s) : State.Canon (State.copyLibrary s b) := by
  unfold State.copyLibrary
  try dsimp only
  repeat' (first | with_reducible assumption | with_reducible apply State.write_canon | split)

theorem State.bootSlots_canon (s : State) (hs : State.Canon s) : State.Canon (State.bootSlots s) := by
  unfold State.bootSlots
  try dsimp only
  repeat' (first | with_reducible assumption | intro _ | with_reducible apply ite_canon | with_reducible apply State.closeOn_canon | with_reducible apply ite_snd_canon | with_reducible apply ite_snd2_canon | with_reducible apply ite_snd3_canon | with_reducible apply foldl_canon | with_reducible apply modCh_ok | with_reducible apply setCh_ok | with_reducible apply setHel_ok | with_reducible apply ch_ok | with_reducible apply hel_ok | with_reducible apply ite_chOk | with_reducible apply ite_helOk | with_reducible exact chReset_ok | with_reducible exact helReset_ok | simp only [canon_mk, chOk_mk, helOk_mk] | split | with_reducible refine canon_snd (by with_reducible assumption) ?_ | with_reducible refine canon_snd2 (by with_reducible assumption) ?_ | with_reducible refine canon_snd3 (by with_reducible assumption) ?_ | with_reducible refine canon_fst (by with_reducible assumption) ?_ | with_reducible apply chOk_lit | with_reducible apply helOk_lit | with_reducible apply memWrite_wf | with_reducible apply memSet_wf | with_reducible apply memClear_wf | with_reducible apply localPut_wf | with_reducible apply foldl_memwf | with_reducible apply lmem_wf | with_reducible apply bmem_wf | with_reducible apply scratch_wf)

theorem State.bootFrom_canon (s : State) (b : Nat) (c : BootCheck) (hs : State.Canon s) : State.Canon (State.bootFrom s b c) := by
  unfold State.bootFrom
  try dsimp only
  repeat' (first | with_reducible assumption | with_reducible apply State.bootSlots_canon | with_reducible apply State.copyLibrary_canon | with_reducible apply State.bootPorts_canon | with_reducible apply State.bootChambers_canon | with_reducible apply State.bootRetire_canon | with_reducible apply State.takeImage_canon | with_reducible apply State.setTwin_canon | with_reducible apply State.puts_canon | with_reducible apply ite_canon | with_reducible apply foldl_canon | simp only [canon_mk, chOk_mk, helOk_mk] | intro _ | split)

theorem State.bootVerified_canon (s : State) (c : BootCheck) (hs : State.Canon s) : State.Canon (State.bootVerified s c) := by
  unfold State.bootVerified
  try dsimp only
  repeat' (first | with_reducible assumption | with_reducible apply State.bootFrom_canon | with_reducible apply State.recover_canon | with_reducible apply State.puts_canon | with_reducible apply ite_canon | intro _ | split)

theorem execColdBoot_canon (c : BootCheck) (s : State) (hs : State.Canon s) : ∀ t, execColdBoot c s = .next t → State.Canon t := by
  intro t ht
  unfold execColdBoot at ht
  injection ht with ht
  subst ht
  try dsimp only
  repeat' (first | with_reducible assumption | with_reducible apply State.bootVerified_canon | with_reducible apply State.bootStart_canon | with_reducible apply State.fitFlash_canon | with_reducible apply Hel.next_canon | with_reducible apply ite_canon | split)

/-! ## Power -/

theorem State.holdChamber_canon (s : State) (n : Nat) (hs : State.Canon s) : State.Canon (State.holdChamber s n) := by
  unfold State.holdChamber
  try dsimp only
  repeat' (first | with_reducible assumption | with_reducible apply State.put_canon | with_reducible apply ite_canon | with_reducible apply modCh_ok | with_reducible apply setCh_ok | with_reducible apply ch_ok | simp only [canon_mk, chOk_mk, helOk_mk] | intro _ | split)

theorem State.unholdChamber_canon (d : Nat) (s : State) (n : Nat) (hs : State.Canon s) : State.Canon (State.unholdChamber d s n) := by
  unfold State.unholdChamber
  try dsimp only
  repeat' (first | with_reducible assumption | intro _ | with_reducible apply State.put_canon | with_reducible apply ite_canon | with_reducible apply ite_chOk | with_reducible apply ite_helOk | with_reducible apply ite_snd_canon | with_reducible apply modCh_ok | with_reducible apply setCh_ok | with_reducible apply ch_ok | with_reducible apply hel_ok | simp only [canon_mk, chOk_mk, helOk_mk] | split)

theorem execDipStart_canon (mv : BitVec 16) (s : State) (hs : State.Canon s) : ∀ t, execDipStart mv s = .next t → State.Canon t := by
  intro t ht
  unfold execDipStart at ht
  injection ht with ht
  subst ht
  try dsimp only
  repeat' (first | with_reducible assumption | with_reducible apply State.holdChamber_canon | with_reducible apply Hel.next_canon | with_reducible apply State.logErr_canon | with_reducible apply State.put_canon | with_reducible apply ite_canon | with_reducible apply foldl_canon | simp only [canon_mk, chOk_mk, helOk_mk] | intro _ | split)

theorem mapFind_mapVals {α : Type} (f : α → α) (m : Map α) (n : Nat) :
    mapFind (m.map fun e => (e.1, f e.2)) n = (mapFind m n).map f := by
  induction m with
  | nil => rfl
  | cons e m ih =>
    obtain ⟨k, v⟩ := e
    simp only [List.map, mapFind]
    split
    · rfl
    · exact ih

theorem State.shiftTimes_canon (s : State) (d : Nat) (hs : State.Canon s) : State.Canon (State.shiftTimes s d) := by
  refine ⟨hs.1, hs.2.1, fun n => ?_⟩
  have h := hs.2.2 n
  unfold State.hel mapGet at h ⊢
  rw [show (State.shiftTimes s d).hels = s.hels.map fun e => (e.1, { e.2 with xrecvAt := e.2.xrecvAt.map (· + d) }) from rfl,
    mapFind_mapVals (fun v : Hel => { v with xrecvAt := v.xrecvAt.map (· + d) })]
  cases he : mapFind s.hels n with
  | none => exact helReset_ok
  | some v => rw [he] at h; exact h

theorem State.enterPower_canon (s : State) (st : Nat) (hs : State.Canon s) : State.Canon (State.enterPower s st) := by
  unfold State.enterPower
  try dsimp only
  repeat' (first | with_reducible assumption | intro _ | with_reducible apply ite_canon | with_reducible apply State.clearArb_canon | with_reducible apply State.resetPort_canon | with_reducible apply State.put_canon | with_reducible apply ite_snd_canon | with_reducible apply ite_snd2_canon | with_reducible apply ite_snd3_canon | with_reducible apply foldl_canon | with_reducible apply modCh_ok | with_reducible apply setCh_ok | with_reducible apply setHel_ok | with_reducible apply ch_ok | with_reducible apply hel_ok | with_reducible apply ite_chOk | with_reducible apply ite_helOk | with_reducible exact chReset_ok | with_reducible exact helReset_ok | simp only [canon_mk, chOk_mk, helOk_mk] | split | with_reducible refine canon_snd (by with_reducible assumption) ?_ | with_reducible refine canon_snd2 (by with_reducible assumption) ?_ | with_reducible refine canon_snd3 (by with_reducible assumption) ?_ | with_reducible refine canon_fst (by with_reducible assumption) ?_ | with_reducible apply chOk_lit | with_reducible apply helOk_lit | with_reducible apply memWrite_wf | with_reducible apply memSet_wf | with_reducible apply memClear_wf | with_reducible apply localPut_wf | with_reducible apply foldl_memwf | with_reducible apply lmem_wf | with_reducible apply bmem_wf | with_reducible apply scratch_wf)

theorem State.runDeferred_canon (s : State) (d : Deferred) (hs : State.Canon s) : State.Canon (State.runDeferred s d) := by
  unfold State.runDeferred
  try dsimp only
  repeat' (first | with_reducible assumption | intro _ | with_reducible apply State.enterPower_canon | with_reducible apply State.openOn_canon | with_reducible apply State.closeOn_canon | with_reducible apply State.takeOver_canon | with_reducible apply State.writeCtl_canon | with_reducible apply Hel.start_canon | with_reducible apply State.clearArb_canon | with_reducible apply State.resetPort_canon | with_reducible apply State.wake_canon | with_reducible apply State.toRun_canon | with_reducible refine canon_snd (by with_reducible assumption) ?_ | with_reducible refine canon_snd2 (by with_reducible assumption) ?_ | with_reducible refine canon_snd3 (by with_reducible assumption) ?_ | with_reducible apply ite_canon | with_reducible apply ite_chOk | with_reducible apply ite_helOk | with_reducible apply ite_snd_canon | with_reducible apply ch_ok | with_reducible apply hel_ok | with_reducible apply chReset_ok | with_reducible apply helReset_ok | simp only [canon_mk, chOk_mk, helOk_mk] | split)

theorem State.resume_canon (s : State) (hs : State.Canon s) : State.Canon (State.resume s) := by
  unfold State.resume
  try dsimp only
  repeat' (first | with_reducible assumption | with_reducible apply State.runDeferred_canon | with_reducible apply State.shiftTimes_canon | with_reducible apply State.unholdChamber_canon | with_reducible apply State.put_canon | with_reducible apply foldl_canon | simp only [canon_mk, chOk_mk, helOk_mk] | intro _)

theorem execDipEnd_canon (minMv : BitVec 16) (mv : BitVec 16) (s : State) (hs : State.Canon s) : ∀ t, execDipEnd minMv mv s = .next t → State.Canon t := by
  intro t ht
  unfold execDipEnd at ht
  injection ht with ht
  subst ht
  try dsimp only
  repeat' (first | with_reducible assumption | with_reducible apply State.resume_canon | with_reducible apply Hel.next_canon | with_reducible apply State.countSat_canon | with_reducible apply State.put_canon | with_reducible apply ite_canon | simp only [canon_mk, chOk_mk, helOk_mk] | split)

theorem State.brownRelease_canon (s : State) (agent : Nat) (hs : State.Canon s) : State.Canon (State.brownRelease s agent) := by
  unfold State.brownRelease
  try dsimp only
  repeat' (first | with_reducible assumption | intro _ | with_reducible apply State.resume_canon | with_reducible apply State.violGlb_canon | with_reducible apply State.put_canon | with_reducible apply ite_canon | with_reducible apply ite_chOk | with_reducible apply ite_helOk | with_reducible apply ite_snd_canon | with_reducible apply ch_ok | with_reducible apply hel_ok | simp only [canon_mk, chOk_mk, helOk_mk] | split)

theorem execBrownRelease_canon (s : State) (hs : State.Canon s) : ∀ t, execBrownRelease s = .next t → State.Canon t := by
  intro t ht
  unfold execBrownRelease at ht
  injection ht with ht
  subst ht
  try dsimp only
  repeat' (first | with_reducible assumption | with_reducible apply State.brownRelease_canon | with_reducible apply Hel.next_canon)

theorem State.requestPower_canon (s : State) (agent : Nat) (req : Nat) (hs : State.Canon s) : State.Canon (State.requestPower s agent req) := by
  unfold State.requestPower
  try dsimp only
  repeat' (first | with_reducible assumption | with_reducible apply State.wake_canon | with_reducible apply State.violGlb_canon | with_reducible apply State.put_canon | with_reducible apply ite_canon | split)

theorem execPstateRequest_canon (req : BitVec 2) (s : State) (hs : State.Canon s) : ∀ t, execPstateRequest req s = .next t → State.Canon t := by
  intro t ht
  unfold execPstateRequest at ht
  injection ht with ht
  subst ht
  try dsimp only
  repeat' (first | with_reducible assumption | with_reducible apply State.requestPower_canon | with_reducible apply Hel.next_canon)

theorem State.enterOrDefer_canon (s : State) (st : Nat) (hs : State.Canon s) : State.Canon (State.enterOrDefer s st) := by
  unfold State.enterOrDefer
  try dsimp only
  repeat' (first | with_reducible assumption | with_reducible apply State.enterPower_canon | with_reducible apply ite_canon | simp only [canon_mk, chOk_mk, helOk_mk] | split)

theorem execDozeEntry_canon (s : State) (hs : State.Canon s) : ∀ t, execDozeEntry s = .next t → State.Canon t := by
  intro t ht
  unfold execDozeEntry at ht
  injection ht with ht
  subst ht
  try dsimp only
  repeat' (first | with_reducible assumption | with_reducible apply State.enterOrDefer_canon | with_reducible apply Hel.next_canon | with_reducible apply ite_canon | split)

theorem execKeepEntry_canon (s : State) (hs : State.Canon s) : ∀ t, execKeepEntry s = .next t → State.Canon t := by
  intro t ht
  unfold execKeepEntry at ht
  injection ht with ht
  subst ht
  try dsimp only
  repeat' (first | with_reducible assumption | with_reducible apply State.enterOrDefer_canon | with_reducible apply Hel.next_canon | with_reducible apply ite_canon | split)

theorem execPowerStateExit_canon (s : State) (hs : State.Canon s) : ∀ t, execPowerStateExit s = .next t → State.Canon t := by
  intro t ht
  unfold execPowerStateExit at ht
  injection ht with ht
  subst ht
  try dsimp only
  repeat' (first | with_reducible assumption | with_reducible apply Hel.next_canon | with_reducible apply State.wake_canon)

theorem State.lowerDuty_canon (s : State) (hFirst : Bool) (hs : State.Canon s) : State.Canon (State.lowerDuty s hFirst) := by
  unfold State.lowerDuty
  try dsimp only
  repeat' (first | with_reducible assumption | with_reducible apply State.put_canon | with_reducible apply ite_canon | split)

theorem State.raiseDuty_canon (s : State) (aFirst : Bool) (hs : State.Canon s) : State.Canon (State.raiseDuty s aFirst) := by
  unfold State.raiseDuty
  try dsimp only
  repeat' (first | with_reducible assumption | with_reducible apply State.put_canon | with_reducible apply ite_canon | split)

theorem State.lowerFor_canon (s : State) (dram : Bool) (other : Bool) (hs : State.Canon s) : State.Canon (State.lowerFor s dram other) := by
  unfold State.lowerFor
  try dsimp only
  repeat' (first | with_reducible assumption | with_reducible apply State.lowerDuty_canon | with_reducible apply State.drawFree_canon | with_reducible apply ite_canon | simp only [canon_mk, chOk_mk, helOk_mk] | split)

theorem execGovernorInterval_canon (g : GovSample) (s : State) (hs : State.Canon s) : ∀ t, execGovernorInterval g s = .next t → State.Canon t := by
  intro t ht
  unfold execGovernorInterval at ht
  injection ht with ht
  subst ht
  try dsimp only
  repeat' (first | with_reducible assumption | with_reducible apply State.lowerFor_canon | with_reducible apply State.raiseDuty_canon | with_reducible apply Hel.next_canon | with_reducible apply State.puts_canon | with_reducible apply ite_canon | with_reducible apply foldl_canon | simp only [canon_mk, chOk_mk, helOk_mk] | intro _ | split)

theorem execIccExcess_canon (ma : BitVec 24) (s : State) (hs : State.Canon s) : ∀ t, execIccExcess ma s = .next t → State.Canon t := by
  intro t ht
  unfold execIccExcess at ht
  injection ht with ht
  subst ht
  try dsimp only
  repeat' (first | with_reducible assumption | with_reducible apply Hel.next_canon | with_reducible apply State.put_canon | with_reducible apply ite_canon | simp only [canon_mk, chOk_mk, helOk_mk] | split)

theorem State.writeGov_canon (s : State) (agent : Nat) (therm : Bool) (w : Nat) (hs : State.Canon s) : State.Canon (State.writeGov s agent therm w) := by
  unfold State.writeGov
  try dsimp only
  repeat' (first | with_reducible assumption | intro _ | with_reducible apply State.plainWrite_canon | with_reducible apply State.takeWord_canon | with_reducible apply State.violGlb_canon | with_reducible apply ite_canon | with_reducible apply ite_chOk | with_reducible apply ite_helOk | with_reducible apply ite_snd_canon | with_reducible apply ch_ok | with_reducible apply hel_ok | simp only [canon_mk, chOk_mk, helOk_mk] | split)

theorem execGovLimitWrite_canon (therm : Bool) (v : Word) (s : State) (hs : State.Canon s) : ∀ t, execGovLimitWrite therm v s = .next t → State.Canon t := by
  intro t ht
  unfold execGovLimitWrite at ht
  injection ht with ht
  subst ht
  try dsimp only
  repeat' (first | with_reducible assumption | with_reducible apply State.writeGov_canon | with_reducible apply Hel.next_canon)

/-! ## Security -/

theorem State.openStaging_canon (s : State) (size : Nat) (obj : Nat) (base : Nat) (bytes : Nat) (hs : State.Canon s) : State.Canon (State.openStaging s size obj base bytes) := by
  unfold State.openStaging
  try dsimp only
  repeat' (first | with_reducible assumption | with_reducible apply State.puts_canon | simp only [canon_mk, chOk_mk, helOk_mk])

theorem State.clearFirst_canon (s : State) (hs : State.Canon s) : State.Canon (State.clearFirst s) :=
  ⟨memClear_wf hs.1, hs.2⟩

theorem execImgBegin_canon (s : State) (hs : State.Canon s) : ∀ t, execImgBegin s = .next t → State.Canon t := by
  intro t ht
  unfold execImgBegin at ht
  injection ht with ht
  subst ht
  try dsimp only
  repeat' (first | with_reducible assumption | with_reducible apply State.clearFirst_canon | with_reducible apply State.openStaging_canon | with_reducible apply State.mailbox_canon | with_reducible apply State.respond_canon | with_reducible apply Hel.next_canon | with_reducible apply ite_canon | intro _ | split)

theorem execImgData_canon (s : State) (hs : State.Canon s) : ∀ t, execImgData s = .next t → State.Canon t := by
  intro t ht
  unfold execImgData at ht
  injection ht with ht
  subst ht
  try dsimp only
  repeat' (first | with_reducible assumption | with_reducible apply State.lanternWrite_canon | with_reducible apply State.mailbox_canon | with_reducible apply State.respond_canon | with_reducible apply Hel.next_canon | with_reducible apply State.setFull_canon | with_reducible apply ite_canon | simp only [canon_mk, chOk_mk, helOk_mk] | intro _ | split)

theorem State.failStaging_canon (s : State) (cause : Nat) (hs : State.Canon s) : State.Canon (State.failStaging s cause) := by
  unfold State.failStaging
  try dsimp only
  repeat' (first | with_reducible assumption | with_reducible apply State.puts_canon | simp only [canon_mk, chOk_mk, helOk_mk])

theorem execImgCommit_canon (sigOk : Bool) (s : State) (hs : State.Canon s) : ∀ t, execImgCommit sigOk s = .next t → State.Canon t := by
  intro t ht
  unfold execImgCommit at ht
  injection ht with ht
  subst ht
  try dsimp only
  repeat' (first | with_reducible assumption | with_reducible apply State.failStaging_canon | with_reducible apply State.mailbox_canon | with_reducible apply State.respond_canon | with_reducible apply Hel.next_canon | with_reducible apply State.put_canon | with_reducible apply ite_canon | intro _ | split)

theorem State.readBack_canon (s : State) (sigOk : Bool) (readable : Bool) (hs : State.Canon s) : State.Canon (State.readBack s sigOk readable) := by
  unfold State.readBack
  try dsimp only
  repeat' (first | with_reducible assumption | with_reducible apply State.failStaging_canon | with_reducible apply State.select_canon | with_reducible apply State.put_canon | with_reducible apply ite_canon | simp only [canon_mk, chOk_mk, helOk_mk] | split)

theorem execImageFlashWrite_canon (sigOk : Bool) (readable : Bool) (s : State) (hs : State.Canon s) : ∀ t, execImageFlashWrite sigOk readable s = .next t → State.Canon t := by
  intro t ht
  unfold execImageFlashWrite at ht
  injection ht with ht
  subst ht
  try dsimp only
  repeat' (first | with_reducible assumption | with_reducible apply State.readBack_canon | with_reducible apply State.flashErase_canon | with_reducible apply Hel.next_canon | with_reducible apply State.put_canon | with_reducible apply ite_canon | simp only [canon_mk, chOk_mk, helOk_mk] | split)

theorem execBottomTreeBuild_canon (s : State) (hs : State.Canon s) : ∀ t, execBottomTreeBuild s = .next t → State.Canon t := by
  intro t ht
  unfold execBottomTreeBuild at ht
  injection ht with ht
  subst ht
  try dsimp only
  repeat' (first | with_reducible assumption | with_reducible apply State.blow_canon | with_reducible apply Hel.next_canon | with_reducible apply State.puts_canon | with_reducible apply ite_canon | simp only [canon_mk, chOk_mk, helOk_mk] | split)

theorem State.useLeaf_canon (s : State) (hs : State.Canon s) : State.Canon (State.useLeaf s) := by
  unfold State.useLeaf
  try dsimp only
  repeat' (first | with_reducible assumption | with_reducible apply State.puts_canon)

theorem execAttest_canon (sig : List Byte) (s : State) (hs : State.Canon s) : ∀ t, execAttest sig s = .next t → State.Canon t := by
  intro t ht
  unfold execAttest at ht
  injection ht with ht
  subst ht
  try dsimp only
  repeat' (first | with_reducible assumption | with_reducible apply State.useLeaf_canon | with_reducible apply State.lanternWrite_canon | with_reducible apply State.mailbox_canon | with_reducible apply State.respond_canon | with_reducible apply Hel.next_canon | with_reducible apply State.setFull_canon | with_reducible apply ite_canon | intro _ | split)

theorem execColdRestart_canon (s : State) (hs : State.Canon s) : ∀ t, execColdRestart s = .next t → State.Canon t := by
  intro t ht
  unfold execColdRestart at ht
  injection ht with ht
  subst ht
  try dsimp only
  repeat' (first | with_reducible assumption | with_reducible apply State.coldReset_canon | with_reducible apply State.mailbox_canon | with_reducible apply State.respond_canon | with_reducible apply Hel.next_canon | with_reducible apply ite_canon | intro _ | split)

theorem State.setWhole_canon (s : State) (off : Nat) (v : Nat) (hs : State.Canon s) : State.Canon (State.setWhole s off v) := by
  unfold State.setWhole
  try dsimp only
  repeat' (first | with_reducible assumption | with_reducible apply State.putField_canon | with_reducible apply foldl_canon | intro _ | split)

theorem findItem_mem {l : List DebugItem} {o : Nat} {d : DebugItem} {p : Nat} (h : findItem l o = some (d, p)) : d ∈ l := by
  induction l generalizing o with
  | nil => cases h
  | cons a l ih =>
    unfold findItem at h
    split at h
    · injection h with h
      injection h with h _
      subst h
      exact List.mem_cons_self
    · exact List.mem_cons_of_mem _ (ih h)

theorem debugItems_canon (s : State) (n : Nat) (hs : State.Canon s) : ∀ d ∈ s.debugItems n, ∀ i v, State.Canon (d.set i v) := by
  have hc : (s.ch n).Ok := ch_ok hs
  have hset : ∀ c : Chamber, c.Ok → State.Canon (s.setCh n c) := fun c h => setCh_ok h hs
  unfold State.debugItems
  extract_lets c put half
  intro d hd i v
  simp only [List.mem_cons, List.not_mem_nil, or_false] at hd
  rcases hd with rfl | rfl | rfl | rfl | rfl | rfl | rfl | rfl | rfl | rfl | rfl | rfl
  · exact State.put_canon _ _ _ hs
  · exact hset _ hc
  · exact hset _ hc
  · exact hset _ hc
  · exact hset _ hc
  · exact hset _ hc
  · exact hset _ hc
  · exact hset _ ⟨hc.1, memSet_wf hc.2⟩
  · exact hset _ ⟨memSet_wf hc.1, hc.2⟩
  · refine hset _ ?_
    unfold Chamber.setAcc
    split <;> exact hc
  · refine hset _ ?_
    split <;> exact hc
  · exact State.setWhole_canon _ _ _ hs

theorem State.setDebugByte_canon (s : State) (n off : Nat) (b : Byte) (hs : State.Canon s) : State.Canon (State.setDebugByte s n off b) := by
  unfold State.setDebugByte
  split
  · rename_i he
    split
    · exact debugItems_canon s n hs _ (findItem_mem he) _ _
    · exact hs
  · exact hs

theorem State.setDebugBytes_canon (s : State) (n : Nat) (a0 : Nat) (a1 : List Byte) (hs : State.Canon s) : State.Canon (State.setDebugBytes s n a0 a1) := by
  induction a1 generalizing s n a0 with
  | nil =>
    unfold State.setDebugBytes
    try dsimp only
    repeat' (first | with_reducible assumption | with_reducible apply State.setDebugByte_canon | with_reducible apply ih)
  | cons x l ih =>
    unfold State.setDebugBytes
    try dsimp only
    repeat' (first | with_reducible assumption | with_reducible apply State.setDebugByte_canon | with_reducible apply ih)

theorem State.debugAccess_canon (s : State) (addr : Nat) (write : Option Word) (hs : State.Canon s) : State.Canon (State.debugAccess s addr write).2 := by
  unfold State.debugAccess
  try dsimp only
  repeat' (first | with_reducible assumption | intro _ | with_reducible apply State.setDebugBytes_canon | with_reducible apply State.write_canon | with_reducible apply State.violCh_canon | with_reducible apply State.drawFree_canon | with_reducible refine canon_snd (by with_reducible assumption) ?_ | with_reducible refine canon_snd2 (by with_reducible assumption) ?_ | with_reducible refine canon_snd3 (by with_reducible assumption) ?_ | with_reducible apply ite_canon | with_reducible apply ite_chOk | with_reducible apply ite_helOk | with_reducible apply ite_snd_canon | with_reducible apply setCh_ok | with_reducible apply ch_ok | with_reducible apply hel_ok | simp only [canon_mk, chOk_mk, helOk_mk] | split)

theorem State.debugData_canon (s : State) (write : Option Word) (hs : State.Canon s) : State.Canon (State.debugData s write) := by
  unfold State.debugData
  try dsimp only
  repeat' (first | with_reducible assumption | with_reducible apply State.debugAccess_canon | with_reducible apply State.reply_canon | with_reducible apply State.write_canon | with_reducible apply State.wake_canon | with_reducible apply State.violGlb_canon | with_reducible apply State.puts_canon | with_reducible apply ite_canon | split)

theorem execDebugDataAccess_canon (write : Option Word) (s : State) (hs : State.Canon s) : ∀ t, execDebugDataAccess write s = .next t → State.Canon t := by
  intro t ht
  unfold execDebugDataAccess at ht
  injection ht with ht
  subst ht
  try dsimp only
  repeat' (first | with_reducible assumption | with_reducible apply State.debugData_canon | with_reducible apply Hel.next_canon | with_reducible apply State.write_canon)

theorem State.jtagPublic_canon (s : State) (j : Jtag) (hs : State.Canon s) : State.Canon (State.jtagPublic s j) := by
  unfold State.jtagPublic
  try dsimp only
  repeat' (first | with_reducible assumption | with_reducible apply State.put_canon | simp only [canon_mk, chOk_mk, helOk_mk])

theorem execBypass_canon (tdi : Word) (s : State) (hs : State.Canon s) : ∀ t, execBypass tdi s = .next t → State.Canon t := by
  intro t ht
  unfold execBypass at ht
  injection ht with ht
  subst ht
  try dsimp only
  repeat' (first | with_reducible assumption | with_reducible apply State.jtagPublic_canon | with_reducible apply Hel.next_canon | simp only [canon_mk, chOk_mk, helOk_mk])

theorem execIdcode_canon (s : State) (hs : State.Canon s) : ∀ t, execIdcode s = .next t → State.Canon t := by
  intro t ht
  unfold execIdcode at ht
  injection ht with ht
  subst ht
  try dsimp only
  repeat' (first | with_reducible assumption | with_reducible apply State.jtagPublic_canon | with_reducible apply Hel.next_canon | simp only [canon_mk, chOk_mk, helOk_mk])

theorem execSamplePreload_canon (pins : Nat) (preload : Nat) (s : State) (hs : State.Canon s) : ∀ t, execSamplePreload pins preload s = .next t → State.Canon t := by
  intro t ht
  unfold execSamplePreload at ht
  injection ht with ht
  subst ht
  try dsimp only
  repeat' (first | with_reducible assumption | with_reducible apply State.jtagPublic_canon | with_reducible apply Hel.next_canon)

theorem execExtest_canon (pins : Nat) (preload : Nat) (s : State) (hs : State.Canon s) : ∀ t, execExtest pins preload s = .next t → State.Canon t := by
  intro t ht
  unfold execExtest at ht
  injection ht with ht
  subst ht
  try dsimp only
  repeat' (first | with_reducible assumption | with_reducible apply State.jtagPublic_canon | with_reducible apply Hel.next_canon)

theorem execJtagPrivateAccess_canon (addr : BitVec 48) (write : Option Word) (s : State) (hs : State.Canon s) : ∀ t, execJtagPrivateAccess addr write s = .next t → State.Canon t := by
  intro t ht
  unfold execJtagPrivateAccess at ht
  injection ht with ht
  subst ht
  try dsimp only
  repeat' (first | with_reducible assumption | with_reducible apply State.debugAccess_canon | with_reducible apply Hel.next_canon | with_reducible apply State.write_canon | with_reducible apply State.wake_canon | with_reducible apply State.put_canon | with_reducible apply ite_canon | simp only [canon_mk, chOk_mk, helOk_mk] | split)

/-! ## RegWrite -/

theorem State.refusedWrite_canon (s : State) (off : Nat) (hs : State.Canon s) : State.Canon (State.refusedWrite s off) := by
  unfold State.refusedWrite
  try dsimp only
  repeat' (first | with_reducible assumption | with_reducible apply State.violGlb_canon)

theorem State.lockedWrite_canon (s : State) (locked : Bool) (off : Nat) (w : Nat) (hs : State.Canon s) : State.Canon (State.lockedWrite s locked off w) := by
  unfold State.lockedWrite
  try dsimp only
  repeat' (first | with_reducible assumption | intro _ | with_reducible apply State.plainWrite_canon | with_reducible apply State.lockedOut_canon | with_reducible apply ite_canon | with_reducible apply ite_chOk | with_reducible apply ite_helOk | with_reducible apply ite_snd_canon | with_reducible apply ch_ok | with_reducible apply hel_ok | simp only [canon_mk, chOk_mk, helOk_mk] | split)

theorem State.writeUnitCtl_canon (s : State) (locked : Bool) (en : FieldRef) (off : Nat) (w : Nat) (rise : State → State) (hs : State.Canon s) (hrise : ∀ x0, State.Canon x0 → State.Canon (rise x0)) : State.Canon (State.writeUnitCtl s locked en off w rise) := by
  unfold State.writeUnitCtl
  try dsimp only
  repeat' (first | with_reducible assumption | intro _ | with_reducible apply State.plainWrite_canon | with_reducible apply State.lockedOut_canon | with_reducible apply hrise | with_reducible apply ite_canon | with_reducible apply ite_chOk | with_reducible apply ite_helOk | with_reducible apply ite_snd_canon | with_reducible apply ch_ok | with_reducible apply hel_ok | simp only [canon_mk, chOk_mk, helOk_mk] | split)

theorem State.writeChCtl_canon (s : State) (n : Nat) (off : Nat) (w : Nat) (hs : State.Canon s) : State.Canon (State.writeChCtl s n off w) := by
  unfold State.writeChCtl
  try dsimp only
  repeat' (first | with_reducible assumption | intro _ | with_reducible apply State.ctlArrives_canon | with_reducible apply ite_canon | with_reducible apply ite_chOk | with_reducible apply ite_helOk | with_reducible apply ite_snd_canon | with_reducible apply ch_ok | with_reducible apply hel_ok | simp only [canon_mk, chOk_mk, helOk_mk] | split)

theorem State.writeCoder_canon (s : State) (n : Nat) (off : Nat) (w : Nat) (hs : State.Canon s) : State.Canon (State.writeCoder s n off w) := by
  unfold State.writeCoder
  try dsimp only
  repeat' (first | with_reducible assumption | with_reducible apply State.writeUnitCtl_canon | with_reducible apply State.coderEnable_canon | with_reducible apply State.plainWrite_canon | with_reducible apply State.violCh_canon | with_reducible apply ite_canon | intro _ | split)

theorem State.writeChamber_canon (s : State) (n : Nat) (off : Nat) (w : Nat) (hs : State.Canon s) : State.Canon (State.writeChamber s n off w) := by
  unfold State.writeChamber
  try dsimp only
  repeat' (first | with_reducible assumption | intro _ | with_reducible apply State.writeCoder_canon | with_reducible apply State.writeChCtl_canon | with_reducible apply State.refusedWrite_canon | with_reducible apply State.writeRegion_canon | with_reducible apply State.writeBundle_canon | with_reducible apply State.plainWrite_canon | with_reducible apply State.wake_canon | with_reducible apply ite_canon | with_reducible apply ite_chOk | with_reducible apply ite_helOk | with_reducible apply ite_snd_canon | with_reducible apply setCh_ok | with_reducible apply ch_ok | with_reducible apply hel_ok | simp only [canon_mk, chOk_mk, helOk_mk] | split)

theorem State.writeKeeperReg_canon (s : State) (off : Nat) (w : Nat) (hs : State.Canon s) : State.Canon (State.writeKeeperReg s off w) := by
  unfold State.writeKeeperReg
  try dsimp only
  repeat' (first | with_reducible assumption | intro _ | with_reducible apply State.refusedWrite_canon | with_reducible apply State.writeKprCtl_canon | with_reducible apply State.plainWrite_canon | with_reducible apply State.countBad_canon | with_reducible apply ite_canon | with_reducible apply ite_chOk | with_reducible apply ite_helOk | with_reducible apply ite_snd_canon | with_reducible apply ch_ok | with_reducible apply hel_ok | simp only [canon_mk, chOk_mk, helOk_mk] | split)

theorem State.writeGlobal_canon (s : State) (off : Nat) (w : Nat) (hs : State.Canon s) : State.Canon (State.writeGlobal s off w) := by
  unfold State.writeGlobal
  try dsimp only
  repeat' (first | with_reducible assumption | with_reducible apply State.writeKeeperReg_canon | with_reducible apply State.plainWrite_canon | with_reducible apply State.postSig_canon | with_reducible apply ite_canon | split)

theorem State.writeSiphon_canon (s : State) (off : Nat) (w : Nat) (hs : State.Canon s) : State.Canon (State.writeSiphon s off w) := by
  unfold State.writeSiphon
  try dsimp only
  repeat' (first | with_reducible assumption | with_reducible apply State.writeUnitCtl_canon | with_reducible apply State.lockedWrite_canon | with_reducible apply State.siphonEnable_canon | with_reducible apply State.plainWrite_canon | with_reducible apply ite_canon | split)

theorem State.writeHelictites_canon (s : State) (off : Nat) (w : Nat) (hs : State.Canon s) : State.Canon (State.writeHelictites s off w) := by
  unfold State.writeHelictites
  try dsimp only
  repeat' (first | with_reducible assumption | with_reducible apply State.writeUnitCtl_canon | with_reducible apply State.lockedWrite_canon | with_reducible apply State.hlcEnable_canon | with_reducible apply State.plainWrite_canon | with_reducible apply ite_canon | split)

theorem State.writePolicy_canon (s : State) (off : Nat) (w : Nat) (hs : State.Canon s) : State.Canon (State.writePolicy s off w) := by
  unfold State.writePolicy
  try dsimp only
  repeat' (first | with_reducible assumption | intro _ | with_reducible apply State.lockedWrite_canon | with_reducible apply ite_canon | with_reducible apply ite_chOk | with_reducible apply ite_helOk | with_reducible apply ite_snd_canon | with_reducible apply ch_ok | with_reducible apply hel_ok | simp only [canon_mk, chOk_mk, helOk_mk] | split)

theorem State.writeFlowstone_canon (s : State) (off : Nat) (w : Nat) (hs : State.Canon s) : State.Canon (State.writeFlowstone s off w) := by
  unfold State.writeFlowstone
  try dsimp only
  repeat' (first | with_reducible assumption | intro _ | with_reducible apply State.writePolicy_canon | with_reducible apply State.writeUnitCtl_canon | with_reducible apply State.lockedWrite_canon | with_reducible apply State.flsEnable_canon | with_reducible apply State.plainWrite_canon | with_reducible apply ite_canon | with_reducible apply ite_chOk | with_reducible apply ite_helOk | with_reducible apply ite_snd_canon | with_reducible apply ch_ok | with_reducible apply hel_ok | simp only [canon_mk, chOk_mk, helOk_mk] | split)

theorem State.writeTraverse_canon (s : State) (off : Nat) (w : Nat) (hs : State.Canon s) : State.Canon (State.writeTraverse s off w) := by
  unfold State.writeTraverse
  try dsimp only
  repeat' (first | with_reducible assumption | intro _ | with_reducible apply State.trvAbort_canon | with_reducible apply State.plainWrite_canon | with_reducible apply State.countBad_canon | with_reducible apply State.lockedOut_canon | with_reducible apply ite_canon | with_reducible apply ite_chOk | with_reducible apply ite_helOk | with_reducible apply ite_snd_canon | with_reducible apply ch_ok | with_reducible apply hel_ok | simp only [canon_mk, chOk_mk, helOk_mk] | split)

theorem State.applyPortReset_canon (s : State) (n : Nat) (hs : State.Canon s) : State.Canon (State.applyPortReset s n) := by
  unfold State.applyPortReset
  try dsimp only
  repeat' (first | with_reducible assumption | with_reducible apply State.clearArb_canon | with_reducible apply State.resetPort_canon | with_reducible apply ite_canon | simp only [canon_mk, chOk_mk, helOk_mk] | split)

theorem State.followEnable_canon (s : State) (n : Nat) (hs : State.Canon s) : State.Canon (State.followEnable s n) := by
  unfold State.followEnable
  try dsimp only
  repeat' (first | with_reducible assumption | intro _ | with_reducible apply State.portDown_canon | with_reducible apply State.put_canon | with_reducible apply ite_canon | with_reducible apply ite_chOk | with_reducible apply ite_helOk | with_reducible apply ite_snd_canon | with_reducible apply ch_ok | with_reducible apply hel_ok | simp only [canon_mk, chOk_mk, helOk_mk] | split)

theorem State.writePortCfg_canon (s : State) (n : Nat) (off : Nat) (w : Nat) (hs : State.Canon s) : State.Canon (State.writePortCfg s n off w) := by
  unfold State.writePortCfg
  try dsimp only
  repeat' (first | with_reducible assumption | intro _ | with_reducible apply State.followEnable_canon | with_reducible apply State.applyPortReset_canon | with_reducible apply State.plainWrite_canon | with_reducible apply State.lockedOut_canon | with_reducible apply ite_canon | with_reducible apply ite_chOk | with_reducible apply ite_helOk | with_reducible apply ite_snd_canon | with_reducible apply ch_ok | with_reducible apply hel_ok | with_reducible apply chReset_ok | with_reducible apply helReset_ok | simp only [canon_mk, chOk_mk, helOk_mk] | split)

theorem State.writeCu_canon (s : State) (u : Nat) (off : Nat) (w : Nat) (hs : State.Canon s) : State.Canon (State.writeCu s u off w) := by
  unfold State.writeCu
  try dsimp only
  repeat' (first | with_reducible assumption | with_reducible apply State.writeUnitCtl_canon | with_reducible apply State.lockedWrite_canon | with_reducible apply State.plainWrite_canon | with_reducible apply State.enableRing_canon | with_reducible apply State.put_canon | with_reducible apply ite_canon | intro _ | split)

theorem State.writePort_canon (s : State) (n : Nat) (off : Nat) (w : Nat) (hs : State.Canon s) : State.Canon (State.writePort s n off w) := by
  unfold State.writePort
  try dsimp only
  repeat' (first | with_reducible assumption | with_reducible apply State.writeCu_canon | with_reducible apply State.writePortCfg_canon | with_reducible apply State.lockedWrite_canon | with_reducible apply State.plainWrite_canon | with_reducible apply ite_canon | split)

theorem execPortReset_canon (port : Fin 8) (s : State) (hs : State.Canon s) : ∀ t, execPortReset port s = .next t → State.Canon t := by
  intro t ht
  unfold execPortReset at ht
  injection ht with ht
  subst ht
  try dsimp only
  repeat' (first | with_reducible assumption | with_reducible apply State.applyPortReset_canon | with_reducible apply Hel.next_canon)

theorem State.writeArbiter_canon (s : State) (off : Nat) (w : Nat) (hs : State.Canon s) : State.Canon (State.writeArbiter s off w) := by
  unfold State.writeArbiter
  try dsimp only
  repeat' (first | with_reducible assumption | with_reducible apply State.writeArbTable_canon | with_reducible apply State.writeArbNext_canon | with_reducible apply State.plainWrite_canon | with_reducible apply ite_canon | split)

theorem State.writeLand_canon (s : State) (o : Option Nat) (off : Nat) (w : Nat) (hs : State.Canon s) : State.Canon (State.writeLand s o off w) := by
  unfold State.writeLand
  try dsimp only
  repeat' (first | with_reducible assumption | with_reducible apply State.lockedWrite_canon | with_reducible apply State.plainWrite_canon | split)

theorem State.writeHost_canon (s : State) (off w : Nat) (hs : State.Canon s) : State.Canon (State.writeHost s off w) :=
  State.writeLand_canon _ _ _ _ hs

theorem State.writeMailbox_canon (s : State) (off : Nat) (w : Nat) (hs : State.Canon s) : State.Canon (State.writeMailbox s off w) := by
  unfold State.writeMailbox
  try dsimp only
  repeat' (first | with_reducible assumption | with_reducible apply State.lockedWrite_canon)

theorem State.writePower_canon (s : State) (off : Nat) (w : Nat) (hs : State.Canon s) : State.Canon (State.writePower s off w) := by
  unfold State.writePower
  try dsimp only
  repeat' (first | with_reducible assumption | intro _ | with_reducible apply State.writeGov_canon | with_reducible apply State.requestPower_canon | with_reducible apply State.brownRelease_canon | with_reducible apply State.plainWrite_canon | with_reducible apply State.takeWord_canon | with_reducible apply State.countBad_canon | with_reducible apply ite_canon | with_reducible apply ite_chOk | with_reducible apply ite_helOk | with_reducible apply ite_snd_canon | with_reducible apply ch_ok | with_reducible apply hel_ok | simp only [canon_mk, chOk_mk, helOk_mk] | split)

theorem State.writeSecurity_canon (s : State) (off : Nat) (w : Nat) (hs : State.Canon s) : State.Canon (State.writeSecurity s off w) := by
  unfold State.writeSecurity
  try dsimp only
  repeat' (first | with_reducible assumption | with_reducible apply State.debugData_canon | with_reducible apply State.plainWrite_canon | with_reducible apply State.violGlb_canon | with_reducible apply ite_canon | split)

theorem State.hostWrite_canon (s : State) (off : Nat) (w : Nat) (hs : State.Canon s) : State.Canon (State.hostWrite s off w) := by
  unfold State.hostWrite
  try dsimp only
  repeat' (first | with_reducible assumption | intro _ | with_reducible apply State.writeSecurity_canon | with_reducible apply State.writePower_canon | with_reducible apply State.writeMailbox_canon | with_reducible apply State.writeHost_canon | with_reducible apply State.writeArbiter_canon | with_reducible apply State.writePort_canon | with_reducible apply State.writeTraverse_canon | with_reducible apply State.writeFlowstone_canon | with_reducible apply State.writeHelictites_canon | with_reducible apply State.writeSiphon_canon | with_reducible apply State.writeGlobal_canon | with_reducible apply State.writeChamber_canon | with_reducible apply State.plainWrite_canon | with_reducible apply ite_canon | with_reducible apply ite_chOk | with_reducible apply ite_helOk | with_reducible apply ite_snd_canon | with_reducible apply setCh_ok | with_reducible apply ch_ok | with_reducible apply setHel_ok | with_reducible apply hel_ok | simp only [canon_mk, chOk_mk, helOk_mk] | split)

theorem State.hostRead_canon (s : State) (off : Nat) (size : Nat) (hs : State.Canon s) : State.Canon (State.hostRead s off size) := by
  unfold State.hostRead
  try dsimp only
  repeat' (first | with_reducible assumption | intro _ | with_reducible apply State.debugData_canon | with_reducible apply State.reply_canon | with_reducible apply State.violGlb_canon | with_reducible apply ite_canon | with_reducible apply ite_chOk | with_reducible apply ite_helOk | with_reducible apply ite_snd_canon | with_reducible apply ch_ok | with_reducible apply hel_ok | simp only [canon_mk, chOk_mk, helOk_mk] | split)

theorem State.bar2Read_canon (s : State) (off : Nat) (size : Nat) (hs : State.Canon s) : State.Canon (State.bar2Read s off size) := by
  unfold State.bar2Read
  try dsimp only
  repeat' (first | with_reducible assumption | intro _ | with_reducible apply State.reply_canon | with_reducible apply State.violGlb_canon | with_reducible apply ite_canon | with_reducible apply ite_chOk | with_reducible apply ite_helOk | with_reducible apply ite_snd_canon | with_reducible apply ch_ok | with_reducible apply hel_ok | simp only [canon_mk, chOk_mk, helOk_mk] | split)

theorem State.bar2Write_canon (s : State) (off : Nat) (size : Nat) (v : Nat) (hs : State.Canon s) : State.Canon (State.bar2Write s off size v) := by
  unfold State.bar2Write
  try dsimp only
  repeat' (first | with_reducible assumption | intro _ | with_reducible apply State.violGlb_canon | with_reducible refine canon_snd (by with_reducible assumption) ?_ | with_reducible refine canon_snd2 (by with_reducible assumption) ?_ | with_reducible refine canon_snd3 (by with_reducible assumption) ?_ | with_reducible apply ite_canon | with_reducible apply ite_chOk | with_reducible apply ite_helOk | with_reducible apply ite_snd_canon | with_reducible apply ch_ok | with_reducible apply hel_ok | simp only [canon_mk, chOk_mk, helOk_mk] | split)

theorem State.setDecoder_canon (s : State) (d : Fin 2) (base : Nat) (size : Nat) (gran : Nat) (ways : Nat) (commit : Bool) (hs : State.Canon s) : State.Canon (State.setDecoder s d base size gran ways commit) := by
  unfold State.setDecoder
  try dsimp only
  repeat' (first | with_reducible assumption | intro _ | with_reducible apply ite_canon | with_reducible apply ite_chOk | with_reducible apply ite_helOk | with_reducible apply ite_snd_canon | with_reducible apply ch_ok | with_reducible apply hel_ok | simp only [canon_mk, chOk_mk, helOk_mk] | split)

theorem State.hostAccess_canon (s : State) (off : Nat) (a0 : RegAccess) (hs : State.Canon s) : State.Canon (State.hostAccess s off a0) := by
  unfold State.hostAccess
  try dsimp only
  repeat' (first | with_reducible assumption | intro _ | with_reducible apply State.setDecoder_canon | with_reducible apply State.bar2Write_canon | with_reducible apply State.bar2Read_canon | with_reducible apply State.hostRead_canon | with_reducible apply State.hostWrite_canon | with_reducible apply State.write_canon | with_reducible apply State.read_canon | with_reducible apply State.violGlb_canon | with_reducible apply ite_canon | with_reducible apply ite_chOk | with_reducible apply ite_helOk | with_reducible apply ite_snd_canon | with_reducible apply ch_ok | with_reducible apply hel_ok | simp only [canon_mk, chOk_mk, helOk_mk] | split)

theorem execRegisterWrite_canon (off : BitVec 27) (acc : RegAccess) (s : State) (hs : State.Canon s) : ∀ t, execRegisterWrite off acc s = .next t → State.Canon t := by
  intro t ht
  unfold execRegisterWrite at ht
  try dsimp only at ht
  injection ht with ht
  subst ht
  try dsimp only
  repeat' (first | with_reducible assumption | intro _ | with_reducible apply State.hostAccess_canon | with_reducible apply Hel.next_canon | with_reducible apply ite_canon | with_reducible apply ite_chOk | with_reducible apply ite_helOk | with_reducible apply ite_snd_canon | with_reducible apply ch_ok | with_reducible apply hel_ok | simp only [canon_mk, chOk_mk, helOk_mk] | split)

/-! ## Tick -/

theorem State.feedStall_canon (s : State) (n : Nat) (b : Bool) (hs : State.Canon s) : State.Canon (State.feedStall s n b) := by
  unfold State.feedStall
  try dsimp only
  repeat' (first | with_reducible assumption | with_reducible apply State.count_canon | with_reducible apply ite_canon | split)

theorem State.weightWait_canon (s : State) (n : Nat) (hs : State.Canon s) : State.Canon (State.weightWait s n) := by
  unfold State.weightWait
  try dsimp only
  repeat' (first | with_reducible assumption | with_reducible apply State.count_canon | with_reducible apply ite_canon | split)

theorem State.tickChamber_canon (s : State) (n : Nat) (hs : State.Canon s) : State.Canon (State.tickChamber s n) := by
  unfold State.tickChamber
  try dsimp only
  repeat' (first | with_reducible assumption | with_reducible apply State.weightWait_canon | with_reducible apply State.feedStall_canon | with_reducible apply modCh_ok | with_reducible apply setCh_ok | with_reducible apply ch_ok | simp only [canon_mk, chOk_mk, helOk_mk] | intro _)

theorem State.tickTraverse_canon (s : State) (hs : State.Canon s) : State.Canon (State.tickTraverse s) := by
  unfold State.tickTraverse
  try dsimp only
  repeat' (first | with_reducible assumption | intro _ | with_reducible apply State.count_canon | with_reducible refine canon_snd (by with_reducible assumption) ?_ | with_reducible refine canon_snd2 (by with_reducible assumption) ?_ | with_reducible refine canon_snd3 (by with_reducible assumption) ?_ | with_reducible apply ite_canon | with_reducible apply ite_chOk | with_reducible apply ite_helOk | with_reducible apply ite_snd_canon | with_reducible apply ch_ok | with_reducible apply setHel_ok | with_reducible apply hel_ok | simp only [canon_mk, chOk_mk, helOk_mk] | split)

theorem State.tickIdle_canon (s : State) (hs : State.Canon s) : State.Canon (State.tickIdle s) := by
  unfold State.tickIdle
  try dsimp only
  repeat' (first | with_reducible assumption | with_reducible apply ite_canon | simp only [canon_mk, chOk_mk, helOk_mk] | split)

theorem State.tick_canon (s : State) (hs : State.Canon s) : State.Canon (State.tick s) := by
  unfold State.tick
  try dsimp only
  repeat' (first | with_reducible assumption | intro _ | with_reducible apply State.tickIdle_canon | with_reducible apply State.tickTraverse_canon | with_reducible apply State.tickChamber_canon | with_reducible apply State.startTransfers_canon | with_reducible apply State.count_canon | with_reducible apply ite_canon | with_reducible apply ite_chOk | with_reducible apply ite_helOk | with_reducible apply ite_snd_canon | with_reducible apply foldl_canon | with_reducible apply foldl_memwf | with_reducible apply setCh_ok | with_reducible apply ch_ok | with_reducible apply hel_ok | with_reducible apply chReset_ok | with_reducible apply helReset_ok | simp only [canon_mk, chOk_mk, helOk_mk] | split)

end Sys2Proof.Machine
end

