-- ==== Sys2Proof/Laws/Invariant.lean ====
section
/-! SUPPORT. Every command, and every step, keeps the memories canonical: the lemma that the invariant's statement is proved by. -/

namespace Sys2Proof.Machine

open Sys2Proof

theorem exec_canon (i : Instr) (s next : State) (he : exec i s = .next next) (hs : State.Canon s) : State.Canon next := by
  cases i with
  | nop ch slot i => exact execNop_canon ch slot i s hs next he
  | br ch o i => exact execBr_canon ch o i s hs next he
  | brS ch o i => exact execBrS_canon ch o i s hs next he
  | call ch o i => exact execCall_canon ch o i s hs next he
  | ret ch o i => exact execRet_canon ch o i s hs next he
  | halt ch o i => exact execHalt_canon ch o i s hs next he
  | postSigSet ch o i => exact execPostSigSet_canon ch o i s hs next he
  | postSigAdd ch o i => exact execPostSigAdd_canon ch o i s hs next he
  | waitSigGe ch o i => exact execWaitSigGe_canon ch o i s hs next he
  | waitSigEq ch o i => exact execWaitSigEq_canon ch o i s hs next he
  | waitTag ch o i => exact execWaitTag_canon ch o i s hs next he
  | fence ch o i => exact execFence_canon ch o i s hs next he
  | add ch o i => exact execAdd_canon ch o i s hs next he
  | sub ch o i => exact execSub_canon ch o i s hs next he
  | and ch o i => exact execAnd_canon ch o i s hs next he
  | or ch o i => exact execOr_canon ch o i s hs next he
  | xor ch o i => exact execXor_canon ch o i s hs next he
  | shl ch o i => exact execShl_canon ch o i s hs next he
  | shr ch o i => exact execShr_canon ch o i s hs next he
  | sra ch o i => exact execSra_canon ch o i s hs next he
  | mul ch o i => exact execMul_canon ch o i s hs next he
  | min ch o i => exact execMin_canon ch o i s hs next he
  | max ch o i => exact execMax_canon ch o i s hs next he
  | liL ch o i => exact execLiL_canon ch o i s hs next he
  | liH ch o i => exact execLiH_canon ch o i s hs next he
  | cmpEq ch o i => exact execCmpEq_canon ch o i s hs next he
  | cmpNe ch o i => exact execCmpNe_canon ch o i s hs next he
  | cmpLt ch o i => exact execCmpLt_canon ch o i s hs next he
  | cmpGe ch o i => exact execCmpGe_canon ch o i s hs next he
  | cmpLtu ch o i => exact execCmpLtu_canon ch o i s hs next he
  | cmpGeu ch o i => exact execCmpGeu_canon ch o i s hs next he
  | pand ch o i => exact execPand_canon ch o i s hs next he
  | por ch o i => exact execPor_canon ch o i s hs next he
  | pxor ch o i => exact execPxor_canon ch o i s hs next he
  | dscBase ch o i => exact execDscBase_canon ch o i s hs next he
  | dscAdd ch o i => exact execDscAdd_canon ch o i s hs next he
  | rdCyc ch o i => exact execRdCyc_canon ch o i s hs next he
  | ldS ch o i => exact execLdS_canon ch o i s hs next he
  | ldV ch o i => exact execLdV_canon ch o i s hs next he
  | ldD ch o i => exact execLdD_canon ch o i s hs next he
  | ldT ch o i => exact execLdT_canon ch o i s hs next he
  | ldW ch o i => exact execLdW_canon ch o i s hs next he
  | mma ch o i => exact execMma_canon ch o i s hs next he
  | wsw ch o i => exact execWsw_canon ch o i s hs next he
  | vaddF32 ch o i => exact execVaddF32_canon ch o i s hs next he
  | vsubF32 ch o i => exact execVsubF32_canon ch o i s hs next he
  | vmulF32 ch o i => exact execVmulF32_canon ch o i s hs next he
  | vfmaF32 ch o i => exact execVfmaF32_canon ch o i s hs next he
  | vmaxF32 ch o i => exact execVmaxF32_canon ch o i s hs next he
  | vminF32 ch o i => exact execVminF32_canon ch o i s hs next he
  | vaddI32 ch o i => exact execVaddI32_canon ch o i s hs next he
  | vsubI32 ch o i => exact execVsubI32_canon ch o i s hs next he
  | vand ch o i => exact execVand_canon ch o i s hs next he
  | vor ch o i => exact execVor_canon ch o i s hs next he
  | vxor ch o i => exact execVxor_canon ch o i s hs next he
  | vcmpLtF32 ch o i => exact execVcmpLtF32_canon ch o i s hs next he
  | vcmpEqF32 ch o i => exact execVcmpEqF32_canon ch o i s hs next he
  | vsel ch o i => exact execVsel_canon ch o i s hs next he
  | vbcast ch o i => exact execVbcast_canon ch o i s hs next he
  | vredAddF32 ch o i => exact execVredAddF32_canon ch o i s hs next he
  | vredMaxF32 ch o i => exact execVredMaxF32_canon ch o i s hs next he
  | vrcp ch o i => exact execVrcp_canon ch o i s hs next he
  | vrsqrt ch o i => exact execVrsqrt_canon ch o i s hs next he
  | vexp ch o i => exact execVexp_canon ch o i s hs next he
  | vlog ch o i => exact execVlog_canon ch o i s hs next he
  | cvtSat ch o i => exact execCvtSat_canon ch o i s hs next he
  | cvtIeee ch o i => exact execCvtIeee_canon ch o i s hs next he
  | cvtUp ch o i => exact execCvtUp_canon ch o i s hs next he
  | trnW ch o i => exact execTrnW_canon ch o i s hs next he
  | trnR ch o i => exact execTrnR_canon ch o i s hs next he
  | movAcc ch o i => exact execMovAcc_canon ch o i s hs next he
  | stS ch o i => exact execStS_canon ch o i s hs next he
  | stV ch o i => exact execStV_canon ch o i s hs next he
  | stD ch o i => exact execStD_canon ch o i s hs next he
  | stT ch o i => exact execStT_canon ch o i s hs next he
  | stAdd ch o i => exact execStAdd_canon ch o i s hs next he
  | stAcc ch o i => exact execStAcc_canon ch o i s hs next he
  | stAccAdd ch o i => exact execStAccAdd_canon ch o i s hs next he
  | mv ch o i => exact execMv_canon ch o i s hs next he
  | tagClear ch op => exact execTagClear_canon ch op s hs next he
  | descriptorRequest ch upsets => exact execDescriptorRequest_canon ch upsets s hs next he
  | weightTileReady ch => exact execWeightTileReady_canon ch s hs next he
  | swap ch => exact execSwap_canon ch s hs next he
  | vectorEntry ch arrB upsets accUpsets => exact execVectorEntry_canon ch arrB upsets accUpsets s hs next he
  | accumulatorRowWrite ch arrB accUpsets => exact execAccumulatorRowWrite_canon ch arrB accUpsets s hs next he
  | storeRerun ch => exact execStoreRerun_canon ch s hs next he
  | waitTimeout ch => exact execWaitTimeout_canon ch s hs next he
  | chamberHalt ch => exact execChamberHalt_canon ch s hs next he
  | chamberStart ch host pc args => exact execChamberStart_canon ch host pc args s hs next he
  | chamberStop ch host => exact execChamberStop_canon ch host s hs next he
  | chamberReset ch host => exact execChamberReset_canon ch host s hs next he
  | glbSigWrite n v => exact execGlbSigWrite_canon n v s hs next he
  | bundleWindowWrite ch idx v => exact execBundleWindowWrite_canon ch idx v s hs next he
  | regionTableWrite ch host idx v => exact execRegionTableWrite_canon ch host idx v s hs next he
  | registerWrite off v => exact execRegisterWrite_canon off v s hs next he
  | chamberRetirement failed => exact execChamberRetirement_canon failed s hs next he
  | keeperChamberRetirement failed => exact execKeeperChamberRetirement_canon failed s hs next he
  | build ch => exact execBuild_canon ch s hs next he
  | code ch => exact execCode_canon ch s hs next he
  | loadTable ch => exact execLoadTable_canon ch s hs next he
  | tableSlotWrite ch => exact execTableSlotWrite_canon ch s hs next he
  | coderEnable ch => exact execCoderEnable_canon ch s hs next he
  | siphonEnable => exact execSiphonEnable_canon s hs next he
  | siphonDisable => exact execSiphonDisable_canon s hs next he
  | route => exact execRoute_canon s hs next he
  | combine => exact execCombine_canon s hs next he
  | bondedRead g corrected bad => exact execBondedRead_canon g corrected bad s hs next he
  | bondedWrite g data => exact execBondedWrite_canon g data s hs next he
  | partialWriteMerge g off data => exact execPartialWriteMerge_canon g off data s hs next he
  | refresh seg bank => exact execRefresh_canon seg bank s hs next he
  | refreshRateChange layer deg => exact execRefreshRateChange_canon layer deg s hs next he
  | patrolScrub g corrected bad => exact execPatrolScrub_canon g corrected bad s hs next he
  | rowMove seg bank row => exact execRowMove_canon seg bank row s hs next he
  | helictiteJobStart src => exact execHelictiteJobStart_canon src s hs next he
  | helictiteJobEnd k => exact execHelictiteJobEnd_canon k s hs next he
  | hlcEnable => exact execHlcEnable_canon s hs next he
  | hlcDisable => exact execHlcDisable_canon s hs next he
  | hNop hel o => exact execHNop_canon hel o s hs next he
  | hEnd hel o => exact execHEnd_canon hel o s hs next he
  | hBr hel o => exact execHBr_canon hel o s hs next he
  | hBz hel o => exact execHBz_canon hel o s hs next he
  | hBnz hel o => exact execHBnz_canon hel o s hs next he
  | hBlt hel o => exact execHBlt_canon hel o s hs next he
  | hDbnz hel o => exact execHDbnz_canon hel o s hs next he
  | hTrap hel o => exact execHTrap_canon hel o s hs next he
  | hAdd hel o => exact execHAdd_canon hel o s hs next he
  | hSub hel o => exact execHSub_canon hel o s hs next he
  | hMul hel o => exact execHMul_canon hel o s hs next he
  | hAnd hel o => exact execHAnd_canon hel o s hs next he
  | hOr hel o => exact execHOr_canon hel o s hs next he
  | hXor hel o => exact execHXor_canon hel o s hs next he
  | hShl hel o => exact execHShl_canon hel o s hs next he
  | hShr hel o => exact execHShr_canon hel o s hs next he
  | hAddi hel o => exact execHAddi_canon hel o s hs next he
  | hLi hel o => exact execHLi_canon hel o s hs next he
  | hLih hel o => exact execHLih_canon hel o s hs next he
  | hDivu hel o => exact execHDivu_canon hel o s hs next he
  | hRemu hel o => exact execHRemu_canon hel o s hs next he
  | hLv hel o => exact execHLv_canon hel o s hs next he
  | hSv hel o => exact execHSv_canon hel o s hs next he
  | hLvh hel o => exact execHLvh_canon hel o s hs next he
  | hSvh hel o => exact execHSvh_canon hel o s hs next he
  | hLx hel o => exact execHLx_canon hel o s hs next he
  | hSx hel o => exact execHSx_canon hel o s hs next he
  | hVadd hel o => exact execHVadd_canon hel o s hs next he
  | hVsub hel o => exact execHVsub_canon hel o s hs next he
  | hVmul hel o => exact execHVmul_canon hel o s hs next he
  | hVfma hel o => exact execHVfma_canon hel o s hs next he
  | hVmax hel o => exact execHVmax_canon hel o s hs next he
  | hVmin hel o => exact execHVmin_canon hel o s hs next he
  | hVabs hel o => exact execHVabs_canon hel o s hs next he
  | hVneg hel o => exact execHVneg_canon hel o s hs next he
  | hVdotBf2 hel o => exact execHVdotBf2_canon hel o s hs next he
  | hVcmpLt hel o => exact execHVcmpLt_canon hel o s hs next he
  | hVsel hel o => exact execHVsel_canon hel o s hs next he
  | hVbcast hel o => exact execHVbcast_canon hel o s hs next he
  | hVredAdd hel o => exact execHVredAdd_canon hel o s hs next he
  | hVredMax hel o => exact execHVredMax_canon hel o s hs next he
  | hVlane hel o => exact execHVlane_canon hel o s hs next he
  | hVrcp hel o => exact execHVrcp_canon hel o s hs next he
  | hVrsqrt hel o => exact execHVrsqrt_canon hel o s hs next he
  | hVexp hel o => exact execHVexp_canon hel o s hs next he
  | hVlog hel o => exact execHVlog_canon hel o s hs next he
  | hVcvtF2i hel o => exact execHVcvtF2i_canon hel o s hs next he
  | hVcvtI2f hel o => exact execHVcvtI2f_canon hel o s hs next he
  | hVaddI32 hel o => exact execHVaddI32_canon hel o s hs next he
  | hVmovx hel o => exact execHVmovx_canon hel o s hs next he
  | hVinsx hel o => exact execHVinsx_canon hel o s hs next he
  | hRg hel o => exact execHRg_canon hel o s hs next he
  | hWg hel o => exact execHWg_canon hel o s hs next he
  | hRgComplete hel slot => exact execHRgComplete_canon hel slot s hs next he
  | hClm hel o => exact execHClm_canon hel o s hs next he
  | claimEffect hel => exact execClaimEffect_canon hel s hs next he
  | hRel hel o => exact execHRel_canon hel o s hs next he
  | hYld hel o => exact execHYld_canon hel o s hs next he
  | forcedRowBoundary hel => exact execForcedRowBoundary_canon hel s hs next he
  | hFence hel o => exact execHFence_canon hel o s hs next he
  | hXsend hel o => exact execHXsend_canon hel o s hs next he
  | hXrecv hel o => exact execHXrecv_canon hel o s hs next he
  | hXrecvTimeout hel => exact execHXrecvTimeout_canon hel s hs next he
  | hXcount hel o => exact execHXcount_canon hel o s hs next he
  | hPost hel o => exact execHPost_canon hel o s hs next he
  | register src => exact execRegister_canon src s hs next he
  | deregister src => exact execDeregister_canon src s hs next he
  | pin src => exact execPin_canon src s hs next he
  | unpin src => exact execUnpin_canon src s hs next he
  | prefetch src => exact execPrefetch_canon src s hs next he
  | demote src => exact execDemote_canon src s hs next he
  | release src => exact execRelease_canon src s hs next he
  | query src => exact execQuery_canon src s hs next he
  | drain src => exact execDrain_canon src s hs next he
  | drainCancel src => exact execDrainCancel_canon src s hs next he
  | flsEnable => exact execFlsEnable_canon s hs next he
  | epochEnd => exact execEpochEnd_canon s hs next he
  | moveStart => exact execMoveStart_canon s hs next he
  | moveSwitch k => exact execMoveSwitch_canon k s hs next he
  | prefetchLate obj => exact execPrefetchLate_canon obj s hs next he
  | wantedExpire obj => exact execWantedExpire_canon obj s hs next he
  | waitingWriteResume => exact execWaitingWriteResume_canon s hs next he
  | drainComplete => exact execDrainComplete_canon s hs next he
  | cartridgeFailure m => exact execCartridgeFailure_canon m s hs next he
  | stepAccept => exact execStepAccept_canon s hs next he
  | microbatchAdmit => exact execMicrobatchAdmit_canon s hs next he
  | instanceDispatch => exact execInstanceDispatch_canon s hs next he
  | instanceComplete k => exact execInstanceComplete_canon k s hs next he
  | ringBlockSend r => exact execRingBlockSend_canon r s hs next he
  | gatherIssue e => exact execGatherIssue_canon e s hs next he
  | gatherLanded e => exact execGatherLanded_canon e s hs next he
  | queueSlotSend q => exact execQueueSlotSend_canon q s hs next he
  | stepComplete => exact execStepComplete_canon s hs next he
  | stepFail => exact execStepFail_canon s hs next he
  | stallTimeout => exact execStallTimeout_canon s hs next he
  | runonExpire => exact execRunonExpire_canon s hs next he
  | trvAbort => exact execTrvAbort_canon s hs next he
  | keeperStart fresh table => exact execKeeperStart_canon fresh table s hs next he
  | keeperStop => exact execKeeperStop_canon s hs next he
  | keeperUpdate peer i => exact execKeeperUpdate_canon peer i s hs next he
  | keeperPublish peer => exact execKeeperPublish_canon peer s hs next he
  | portTraining port e peer => exact execPortTraining_canon port e peer s hs next he
  | portRetrain port => exact execPortRetrain_canon port s hs next he
  | portRetry port => exact execPortRetry_canon port s hs next he
  | portReset port => exact execPortReset_canon port s hs next he
  | linkWrite port k => exact execLinkWrite_canon port k s hs next he
  | linkReadReq port k => exact execLinkReadReq_canon port k s hs next he
  | linkReadResp port k => exact execLinkReadResp_canon port k s hs next he
  | linkPost port k => exact execLinkPost_canon port k s hs next he
  | linkDone port k => exact execLinkDone_canon port k s hs next he
  | packetForward port kind k => exact execPacketForward_canon port kind k s hs next he
  | controlFlit port credits ack nak => exact execControlFlit_canon port credits ack nak s hs next he
  | controlFlitInsert port => exact execControlFlitInsert_canon port s hs next he
  | cuEnable unit => exact execCuEnable_canon unit s hs next he
  | put unit src => exact execPut_canon unit src s hs next he
  | get unit src => exact execGet_canon unit src s hs next he
  | gather unit src => exact execGather_canon unit src s hs next he
  | redscat unit src opid => exact execRedscat_canon unit src opid s hs next he
  | dispatch unit src => exact execDispatch_canon unit src s hs next he
  | arbiterBeat arb req => exact execArbiterBeat_canon arb req s hs next he
  | arbiterDecision arb rs => exact execArbiterDecision_canon arb rs s hs next he
  | grantWithdraw arb => exact execGrantWithdraw_canon arb s hs next he
  | arbNextWrite v => exact execArbNextWrite_canon v s hs next he
  | arbTableActivate set => exact execArbTableActivate_canon set s hs next he
  | arbTableWrite set t j v => exact execArbTableWrite_canon set t j v s hs next he
  | hostLinkTrain width rate flit cxl => exact execHostLinkTrain_canon width rate flit cxl s hs next he
  | hostLinkReset cause => exact execHostLinkReset_canon cause s hs next he
  | hostMemRead line intent => exact execHostMemRead_canon line intent s hs next he
  | hostMemWrite line data => exact execHostMemWrite_canon line data s hs next he
  | bisnpResponse line => exact execBisnpResponse_canon line s hs next he
  | biTimeout => exact execBiTimeout_canon s hs next he
  | doorbellWake tail head => exact execDoorbellWake_canon tail head s hs next he
  | ledgerNop rec => exact execLedgerNop_canon rec s hs next he
  | ledgerStep rec => exact execLedgerStep_canon rec s hs next he
  | ledgerWrite rec => exact execLedgerWrite_canon rec s hs next he
  | copyIn rec data => exact execCopyIn_canon rec data s hs next he
  | copyOut rec n => exact execCopyOut_canon rec n s hs next he
  | recordComplete => exact execRecordComplete_canon s hs next he
  | irqHoldoffExpire => exact execIrqHoldoffExpire_canon s hs next he
  | uioWrite addr data => exact execUioWrite_canon addr data s hs next he
  | uioRead addr len => exact execUioRead_canon addr len s hs next he
  | status => exact execStatus_canon s hs next he
  | attach tail head => exact execAttach_canon tail head s hs next he
  | detach => exact execDetach_canon s hs next he
  | selftest failed => exact execSelftest_canon failed s hs next he
  | retire => exact execRetire_canon s hs next he
  | imgBegin => exact execImgBegin_canon s hs next he
  | imgData => exact execImgData_canon s hs next he
  | imgCommit sigOk => exact execImgCommit_canon sigOk s hs next he
  | imageFlashWrite sigOk readable => exact execImageFlashWrite_canon sigOk readable s hs next he
  | attest sig => exact execAttest_canon sig s hs next he
  | bottomTreeBuild => exact execBottomTreeBuild_canon s hs next he
  | coldRestart => exact execColdRestart_canon s hs next he
  | bypass tdi => exact execBypass_canon tdi s hs next he
  | idcode => exact execIdcode_canon s hs next he
  | samplePreload pins preload => exact execSamplePreload_canon pins preload s hs next he
  | extest pins preload => exact execExtest_canon pins preload s hs next he
  | jtagPrivateAccess addr write => exact execJtagPrivateAccess_canon addr write s hs next he
  | debugDataAccess write => exact execDebugDataAccess_canon write s hs next he
  | powerOn auxAbsent => exact execPowerOn_canon auxAbsent s hs next he
  | pwrRstNAssert => exact execPwrRstNAssert_canon s hs next he
  | coldBoot c => exact execColdBoot_canon c s hs next he
  | referenceLoss => exact execReferenceLoss_canon s hs next he
  | railUndervoltage rail => exact execRailUndervoltage_canon rail s hs next he
  | coreResetLevel mv => exact execCoreResetLevel_canon mv s hs next he
  | dipStart mv => exact execDipStart_canon mv s hs next he
  | dipEnd minMv mv => exact execDipEnd_canon minMv mv s hs next he
  | brownRelease => exact execBrownRelease_canon s hs next he
  | pstateRequest req => exact execPstateRequest_canon req s hs next he
  | dozeEntry => exact execDozeEntry_canon s hs next he
  | keepEntry => exact execKeepEntry_canon s hs next he
  | powerStateExit => exact execPowerStateExit_canon s hs next he
  | governorInterval g => exact execGovernorInterval_canon g s hs next he
  | iccExcess ma => exact execIccExcess_canon ma s hs next he
  | govLimitWrite therm v => exact execGovLimitWrite_canon therm v s hs next he
  | thermalTrip logic dram => exact execThermalTrip_canon logic dram s hs next he
  | slotButtonPress m => exact execSlotButtonPress_canon m s hs next he
  | latchClose m => exact execLatchClose_canon m s hs next he
  | cartridgeAddComplete m c128 => exact execCartridgeAddComplete_canon m c128 s hs next he
  | cartridgeAddFail m cause => exact execCartridgeAddFail_canon m cause s hs next he
  | latchOpen m => exact execLatchOpen_canon m s hs next he
  | cartridgeRemoved m => exact execCartridgeRemoved_canon m s hs next he
  | deviceButtonPress partnerPaired partnerHeld => exact execDeviceButtonPress_canon partnerPaired partnerHeld s hs next he
  | twinPairing p => exact execTwinPairing_canon p s hs next he
  | mirrorCopy => exact execMirrorCopy_canon s hs next he
  | markReceive stamp handover => exact execMarkReceive_canon stamp handover s hs next he
  | commitAck => exact execCommitAck_canon s hs next he
  | heartbeatSend => exact execHeartbeatSend_canon s hs next he
  | heartbeatReceive st => exact execHeartbeatReceive_canon st s hs next he
  | heartbeatTimeout => exact execHeartbeatTimeout_canon s hs next he
  | twinTakeover => exact execTwinTakeover_canon s hs next he
  | handoverMark => exact execHandoverMark_canon s hs next he
  | handoverComplete => exact execHandoverComplete_canon s hs next he
  | resyncStart p => exact execResyncStart_canon p s hs next he
  | resyncFinish => exact execResyncFinish_canon s hs next he
  | hWgComplete hel slot => exact execHWgComplete_canon hel slot s hs next he
  | buttonRelease which => exact execButtonRelease_canon which s hs next he
  | cartridgeInserted m => exact execCartridgeInserted_canon m s hs next he
  | codePatternEnd which => exact execCodePatternEnd_canon which s hs next he

end Sys2Proof.Machine
end

