-- ==== Sys2Proof/Laws/Layout.lean ====
section
/-! SUPPORT. Where the register layout puts the registers of a chamber's block that claims name. -/

namespace Sys2Proof.Machine

open Sys2Proof

/-- A list of registers of which none lies at an offset. -/
theorem layout_none {l : List RegDesc} {off : Nat} (h : ∀ d ∈ l, ¬(d.base ≤ off ∧ dimsMatch d.dims (off - d.base) = true)) :
    l.find? (fun d => decide (d.base ≤ off) && dimsMatch d.dims (off - d.base)) = none := by
  rw [List.find?_eq_none]; intro d hd; have := h d hd; simpa using this

theorem regAt_lo (n i : Nat) (hn : n < 28) (hi : i < 256) : regAt (0x1001000 + 0x100000 * n + 16 * i) =
    some ⟨0x1001000, [(0x100000, 28), (0x10, 256)], [⟨32, 32, .rw, .value 0, keptHPKT⟩, ⟨0, 32, .rw, .value 0, keptHPKT⟩]⟩ := by
  unfold regAt regLayout
  have h1 := @layout_none regs01_0 (0x1001000 + 0x100000 * n + 16 * i) (by simp [regs01_0, dimsMatch] <;> omega)
  have h2 := @layout_none regs02_0 (0x1001000 + 0x100000 * n + 16 * i) (by simp [regs02_0, dimsMatch] <;> omega)
  have h3 := @layout_none regs03_0 (0x1001000 + 0x100000 * n + 16 * i) (by simp [regs03_0, dimsMatch] <;> omega)
  have h4 := @layout_none regs04_0 (0x1001000 + 0x100000 * n + 16 * i) (by simp [regs04_0, dimsMatch] <;> omega)
  simp only [List.append_assoc]
  rw [List.find?_append, h1, List.find?_append, h2, List.find?_append, h3, List.find?_append, h4]
  simp only [Option.none_or, regs05_0, List.cons_append]
  rw [List.find?_cons_of_pos]
  simp [dimsMatch]; omega

theorem regAt_hi (n i : Nat) (hn : n < 28) (hi : i < 256) : regAt (0x1001008 + 0x100000 * n + 16 * i) =
    some ⟨0x1001008, [(0x100000, 28), (0x10, 256)], [⟨63, 1, .rw, .value 0, keptHPKT⟩, ⟨62, 1, .rw, .value 0, keptHPKT⟩,
      ⟨61, 1, .rw, .value 0, keptHPKT⟩, ⟨0, 32, .rw, .value 0, keptHPKT⟩]⟩ := by
  unfold regAt regLayout
  have h1 := @layout_none regs01_0 (0x1001008 + 0x100000 * n + 16 * i) (by simp [regs01_0, dimsMatch] <;> omega)
  have h2 := @layout_none regs02_0 (0x1001008 + 0x100000 * n + 16 * i) (by simp [regs02_0, dimsMatch] <;> omega)
  have h3 := @layout_none regs03_0 (0x1001008 + 0x100000 * n + 16 * i) (by simp [regs03_0, dimsMatch] <;> omega)
  have h4 := @layout_none regs04_0 (0x1001008 + 0x100000 * n + 16 * i) (by simp [regs04_0, dimsMatch] <;> omega)
  simp only [List.append_assoc]
  rw [List.find?_append, h1, List.find?_append, h2, List.find?_append, h3, List.find?_append, h4]
  simp only [Option.none_or, regs05_0, List.cons_append]
  rw [List.find?_cons_of_neg, List.find?_cons_of_pos]
  · simp [dimsMatch]; omega
  · simp [dimsMatch]; omega

theorem regAt_exc (n : Nat) (hn : n < 28) : regAt (0x1000020 + 0x100000 * n) =
    some ⟨0x1000020, [(0x100000, 28)], [⟨3, 1, .w1c, .value 0, keptHPKT⟩, ⟨2, 1, .w1c, .value 0, keptHPKT⟩,
      ⟨1, 1, .w1c, .value 0, keptHPKT⟩, ⟨0, 1, .w1c, .value 0, keptHPKT⟩]⟩ := by
  unfold regAt regLayout
  have h1 := @layout_none regs01_0 (0x1000020 + 0x100000 * n) (by simp [regs01_0, dimsMatch] <;> omega)
  simp only [List.append_assoc]
  rw [List.find?_append, h1]
  simp only [Option.none_or, regs02_0, List.cons_append]
  rw [List.find?_cons_of_neg, List.find?_cons_of_neg, List.find?_cons_of_neg, List.find?_cons_of_neg, List.find?_cons_of_pos] <;>
    (simp [dimsMatch]; omega)

theorem regAt_waitLimit (n : Nat) (hn : n < 28) : regAt (0x1000030 + 0x100000 * n) =
    some ⟨0x1000030, [(0x100000, 28)], [⟨0, 32, .rw, .image, keptHPKT⟩]⟩ := by
  unfold regAt regLayout
  have h1 := @layout_none regs01_0 (0x1000030 + 0x100000 * n) (by simp [regs01_0, dimsMatch] <;> omega)
  simp only [List.append_assoc]
  rw [List.find?_append, h1]
  simp only [Option.none_or, regs02_0, List.cons_append]
  rw [List.find?_cons_of_neg, List.find?_cons_of_neg, List.find?_cons_of_neg, List.find?_cons_of_neg, List.find?_cons_of_neg,
    List.find?_cons_of_neg, List.find?_cons_of_pos] <;> (simp [dimsMatch]; omega)

/-- No field of a chamber's block is one whose value is the device's state itself. -/
theorem derived_ch {s : State} {n r lo : Nat} (hn : n < 28) (hr : r < 0x100000) (hl : lo < 64) : s.derived (0x1000000 + 0x100000 * n + r) lo = none := by
  have hk : (0x1000000 + 0x100000 * n + r) * 64 + lo < 0x2C00000 * 64 := by omega
  generalize hK : (0x1000000 + 0x100000 * n + r) * 64 + lo = K at hk
  have h1 : s.flowField K = none := by
    unfold State.flowField
    iterate 9 rw [if_neg (by simp only [Reg.FLS_NOW_US_key, Reg.FLS_FREE_BONDED_key, Reg.FLS_FREE_CART_key, Reg.FLS_FREE_OVERHANG_key, Reg.FLS_STATUS_OBJECTS_key, Reg.FLS_STATUS_MOVES_key, Reg.FLS_DRAIN_REMAIN_key, Reg.FLS_DRAIN_STALLED_key, Reg.FLS_DRAIN_ACTIVE_key]; omega)]
    rw [List.find?_eq_none.mpr]; rfl
    intro m _; simp; omega
  have h2 : s.hostField K = none := by
    unfold State.hostField
    iterate 3 rw [if_neg (by simp only [Reg.HST_LEDGER_POS_HELD_key, Reg.HST_SF_LINES_key, Reg.TRV_STATE_HELD_key]; omega)]
  have h3 : s.lightField K = none := by
    unfold State.lightField
    simp only [slotList, List.map]
    iterate 3 rw [if_neg (by simp only [Reg.SVC_DEV_PWR_LED_key, Reg.SVC_DEV_ATTN_LED_key, Reg.SVC_DEV_FAULT_LED_key]; omega)]
    have hm : ∀ m : Nat, (if K = (Reg.SVC_SLOTm_PWR_LED m).key then some (s.slotLights m).1.value
      else if K = (Reg.SVC_SLOTm_ATTN_LED m).key then some (s.slotLights m).2.1.value
      else if K = (Reg.SVC_SLOTm_FAULT_LED m).key then some (s.slotLights m).2.2.value else none) = none := by
      intro m
      iterate 3 rw [if_neg (by simp only [Reg.SVC_SLOTm_PWR_LED_key, Reg.SVC_SLOTm_ATTN_LED_key, Reg.SVC_SLOTm_FAULT_LED_key]; omega)]
    simp only [hm]; rfl
  have e : (0x1000000 + 0x100000 * n + r) * 64 + lo = K := hK
  unfold State.derived
  rw [e, h1, h2, h3]; rfl

end Sys2Proof.Machine
end

