-- ==== Sys2Proof/Laws/Slots.lean ====
section
/-! SUPPORT. What one instruction of a slot does in any bundle that is taken: the shared shape of each kind of result. -/

namespace Sys2Proof.Machine

open Sys2Proof

theorem writesScalar_of (mk : Fin 28 → SOps → Issue → Instr) (op : BitVec 8) (f : Word → Word → Word → BitVec 32 → Word → Word)
    (he : ∀ ch o i s, exec (mk ch o i) s = .next (s.issue ch.val (withS i op o)))
    (h0 : op ≠ 0) (hop : op.toNat ≤ 0x0D ∨ op.toNat = 0x24)
    (hf : ∀ a b old imm cyc, scalarResult op.toNat a b old imm cyc = f a b old imm cyc) : WritesScalar mk op f := by
  intro ch o i s ht hg
  refine ⟨_, he ch o i s, ?_⟩
  dsimp only
  rw [sreg_core (issue_core ht), after_sreg, ← hf]
  have hl : ((s.ch ch).live (withS i op o).bundle).s = true := by
    have h0' : ¬op = 0#8 := h0
    simp [Chamber.live, withS, h0', hg]
  have hd : ¬(((s.ch ch).live (withS i op o).bundle).l = true ∧ (withS i op o).bundle.lop.toNat = 1 ∧ o.dst = (withS i op o).bundle.l.dst) := by
    rintro ⟨-, h1, h2⟩
    have hi := ht.2.2.1
    have hne : op.toNat ≠ 0 := fun e => h0 (BitVec.eq_of_toNat_eq e)
    have hS : sDest op o = some o.dst.toNat := by
      unfold sDest; dsimp only; rw [if_pos (by omega)]
    have hL : lDest (withS i op o).bundle.lop (withS i op o).bundle.l = some o.dst.toNat := by
      unfold lDest; rw [h2]; simp only [h1]
    unfold illegalSlot at hi
    rw [show (withS i op o).bundle.sop = op from rfl, show (withS i op o).bundle.s = o from rfl, hL, hS] at hi
    simp at hi
    split at hi
    · simp at hi
    · split at hi <;> simp at hi
  rw [if_neg hd, if_pos ⟨hl, hop, rfl⟩]
  rfl


theorem sOpOk_taken {s : State} {n : Nat} {i : Issue} (ht : s.Takes n i) : sOpOk i.bundle.sop = true := by
  have hi := ht.2.2.1
  unfold illegalSlot at hi
  simp at hi
  split at hi
  · simp at hi
  · rename_i h; split at hi
    · simp at hi
    · simp_all

theorem writesPred_of (mk : Fin 28 → SOps → Issue → Instr) (op : BitVec 8) (f : Word → Word → Bool → Bool → Bool)
    (he : ∀ ch o i s, exec (mk ch o i) s = .next (s.issue ch.val (withS i op o)))
    (hop : 0x10 ≤ op.toNat ∧ op.toNat ≤ 0x1A)
    (hf : ∀ a b p q, (if op.toNat ≤ 0x15 then compareResult op.toNat a b else predResult op.toNat p q) = f a b p q) :
    WritesPredicate mk op f := by
  intro ch o i s ht hg
  refine ⟨_, he ch o i s, ?_⟩
  dsimp only
  rw [pred_core (issue_core ht), after_pred _ _ _ _ (sOpOk_taken ht), ← hf]
  have h0 : op ≠ 0 := by rintro rfl; simp at hop
  have hl : ((s.ch ch).live (withS i op o).bundle).s = true := by
    have h0' : ¬op = 0#8 := h0
    simp [Chamber.live, withS, h0', hg]
  rw [if_pos ⟨hl, hop.1, hop.2, rfl⟩]
  rfl

theorem bits_lo (d : BitVec 1024) : bits (dWord d 0) 47 0 = (d.extractLsb' 0 48).toNat := by
  have : bits (dWord d 0) 47 0 = d.toNat % 2 ^ 64 % 2 ^ 48 := by
    simp [bits, dWord, BitVec.extractLsb'_toNat]
  rw [this, BitVec.extractLsb'_toNat, Nat.shiftRight_zero]
  exact Nat.mod_mod_of_dvd _ (by decide)

theorem mod_div_aux (D x M K : Nat) (hM : 0 < M) (hD : D < M * K) :
    D - D % M + x % M < M * K ∧ (D - D % M + x % M) % M = x % M ∧ (D - D % M + x % M) / M = D / M := by
  have hA : D - D % M = M * (D / M) := by have := Nat.div_add_mod D M; omega
  have hx : x % M < M := Nat.mod_lt _ hM
  have hK : D / M < K := Nat.div_lt_of_lt_mul hD
  rw [hA]
  refine ⟨?_, ?_, ?_⟩
  · have h1 : M * (D / M) + M ≤ M * K := by rw [← Nat.mul_succ]; exact Nat.mul_le_mul_left _ hK
    omega
  · rw [Nat.mul_add_mod, Nat.mod_mod]
  · rw [Nat.mul_add_div hM, Nat.div_eq_of_lt hx, Nat.add_zero]

theorem setBits_aux (D x K : Nat) (hD : D < 2 ^ 48 * K) :
    setBits D 47 0 x < 2 ^ 48 * K ∧ setBits D 47 0 x % 2 ^ 48 = x % 2 ^ 48 ∧ setBits D 47 0 x / 2 ^ 48 = D / 2 ^ 48 := by
  have e : setBits D 47 0 x = D - D % 2 ^ 48 + x % 2 ^ 48 := by
    unfold setBits bits
    rw [Nat.pow_zero, Nat.mul_one, Nat.mul_one, Nat.div_one]
  rw [e]
  exact mod_div_aux D x (2 ^ 48) K (Nat.two_pow_pos 48) hD

theorem setBase_lo (d : BitVec 1024) (x : Nat) : (setBase d x).extractLsb' 0 48 = BitVec.ofNat 48 x ∧
    (setBase d x).extractLsb' 48 976 = d.extractLsb' 48 976 := by
  have hk : 2 ^ 1024 = 2 ^ 48 * 2 ^ 976 := by rw [← Nat.pow_add]
  obtain ⟨h1, h2, h3⟩ := setBits_aux d.toNat x (2 ^ 976) (Nat.lt_of_lt_of_eq d.isLt hk)
  have hs : (setBase d x).toNat = setBits d.toNat 47 0 x := by
    unfold setBase
    rw [BitVec.toNat_ofNat, Nat.mod_eq_of_lt (Nat.lt_of_lt_of_eq h1 hk.symm)]
  constructor
  · apply BitVec.eq_of_toNat_eq
    rw [BitVec.extractLsb'_toNat, hs, Nat.shiftRight_zero, BitVec.toNat_ofNat, h2]
  · apply BitVec.eq_of_toNat_eq
    rw [BitVec.extractLsb'_toNat, BitVec.extractLsb'_toNat, hs, Nat.shiftRight_eq_div_pow, Nat.shiftRight_eq_div_pow, h3]

theorem writesBase_of (mk : Fin 28 → SOps → Issue → Instr) (op : BitVec 8) (f : Nat → Nat → Nat)
    (he : ∀ ch o i s, exec (mk ch o i) s = .next (s.issue ch.val (withS i op o)))
    (hop : op = 0x20 ∨ op = 0x21)
    (hf : ∀ a b, (if op.toNat = 0x20 then b else a + b) = f a b) :
    WritesBase mk op f := by
  intro ch o i s ht hg
  refine ⟨_, he ch o i s, ?_⟩
  dsimp only
  rw [dreg_core (issue_core ht), after_dreg, ← hf]
  have hl : ((s.ch ch).live (withS i op o).bundle).s = true := by
    have h0' : ¬op = 0#8 := by rcases hop with h | h <;> subst h <;> decide
    simp [Chamber.live, withS, h0', hg]
  have hd : ¬(((s.ch ch).live (withS i op o).bundle).l = true ∧ (withS i op o).bundle.lop.toNat = 3 ∧ o.dst.setWidth 4 = (withS i op o).bundle.l.dsc) := by
    rintro ⟨-, h1, h2⟩
    have hi := ht.2.2.1
    have hL : lDest (withS i op o).bundle.lop (withS i op o).bundle.l = some (64 + (o.dst.setWidth 4).toNat) := by
      unfold lDest; rw [h2]; simp only [h1]
    have hS : sDest op o = some (64 + (o.dst.setWidth 4).toNat) := by
      rcases hop with h | h <;> subst h <;> simp [sDest]
    unfold illegalSlot at hi
    rw [show (withS i op o).bundle.sop = op from rfl, show (withS i op o).bundle.s = o from rfl, hL, hS] at hi
    simp at hi
    split at hi
    · simp at hi
    · split at hi <;> simp at hi
  have hop' : 0x1A < op.toNat ∧ op.toNat ≠ 0x24 := by rcases hop with h | h <;> subst h <;> decide
  rw [if_neg hd, if_pos ⟨hl, hop'.1, hop'.2, rfl⟩]
  have h := setBase_lo ((s.ch ch).dreg (o.dst.setWidth 4)) (if op.toNat = 0x20 then ((s.ch ch).sreg o.sa).toNat
          else bits (dWord ((s.ch ch).dreg (o.dst.setWidth 4)) 0) 47 0 + ((s.ch ch).sreg o.sa).toNat)
  rw [bits_lo] at h ⊢
  exact h

theorem live_c {s : State} {n : Nat} {i : Issue} {op : BitVec 8} {o : COps} (h0 : op ≠ 0) :
    ((s.ch n).live (withC i op o).bundle).c = (s.ch n).guard o.guard := by
  have h0' : ¬op = 0#8 := h0
  simp [Chamber.live, withC, h0']

theorem sig_off {k : Nat} (hk : k < 4096) : ((Reg.GLB_SIGn_VALUE k).off < 0x1000000 ∨ 0x2C00000 ≤ (Reg.GLB_SIGn_VALUE k).off) ∧ (Reg.GLB_SIGn_VALUE k).lo < 64 := by
  simp only [Reg.GLB_SIGn_VALUE]; omega

theorem posts_of {ch : Fin 28} {o : COps} {i : Issue} {s : State} {op : BitVec 8} {set : Bool}
    (hop : (op = 8 ∧ set = true) ∨ (op = 9 ∧ set = false)) (hd : o.dev = 0xFF) (hp : (s.ch ch).posts = []) (hg : (s.ch ch).guard o.guard = true)
    (h : s.Takes ch (withC i op o)) :
    let held := (s.ch ch).ops.any fun p => p.kind != .ldT && p.kind != .ldW && decide (p.seq < (s.ch ch).seq)
    if held then ((s.issue ch (withC i op o)).ch ch).posts.length = 1 ∧ ∀ n < 4096, (s.issue ch (withC i op o)).sig n = s.sig n
    else ((s.issue ch (withC i op o)).ch ch).posts = [] ∧ ∀ n < 4096, (s.issue ch (withC i op o)).sig n =
      if n = o.target.toNat then (if set then ((s.ch ch).cValue o).toNat else s.sig n + ((s.ch ch).cValue o).toNat) % 2 ^ 64 else s.sig n := by
  intro held
  have hn : ch.val < 28 := ch.isLt
  obtain ⟨u, hu, hup, huo, huf⟩ := takeBundle_before (s := s) (b := (withC i op o).bundle) hn
  have hl : ((s.ch ch).live (withC i op o).bundle).c = true := by
    rcases hop with ⟨rfl, -⟩ | ⟨rfl, -⟩ <;> simp [Chamber.live, withC, hg]
  have hpost : (u.ch ch).posts = [⟨(s.ch ch).seq, o.dev, o.cc, o.target, set, (s.ch ch).cValue o⟩] := by
    rw [hup, (after_rest s ch _).2.2.2.2.2.2.2.2.2.2.2.2.2.2.2, if_pos hl]
    rcases hop with ⟨rfl, rfl⟩ | ⟨rfl, rfl⟩
    · show (s.ch ch).posts ++ _ = _
      rw [hp]; rfl
    · show (s.ch ch).posts ++ _ = _
      rw [hp]; rfl
  have hst : (u.ch ch).storesBefore (s.ch ch).seq = held := by
    unfold Chamber.storesBefore
    rw [huo, after_ops, List.any_append, List.any_append]
    have e1 : ∀ l : List AsyncOp, (∀ p ∈ l, p.seq = (s.ch ch).seq) → (l.any fun p => p.kind.stores && decide (p.seq < (s.ch ch).seq)) = false := by
      intro l hl
      rw [List.any_eq_false]
      intro p hp
      simp [hl p hp]
    have eT := e1 (if ((s.ch ch).live (withC i op o).bundle).t = true then (s.ch ch).opsT (s.chPc ch) (withC i op o).bundle.top (withC i op o).bundle.t else []) (by
      intro p hp
      split at hp
      · unfold Chamber.opsT at hp
        dsimp only at hp
        split at hp <;> simp [AsyncOp.make] at hp <;> rw [hp]
      · cases hp)
    have eL := e1 (if ((s.ch ch).live (withC i op o).bundle).l = true then (s.ch ch).opsL (s.chPc ch) (withC i op o).bundle.lop (withC i op o).bundle.l
        (s.flag (if (withC i op o).bundle.l.xslot = true then Reg.CHn_XT_SLOT1_VALID ch else Reg.CHn_XT_SLOT0_VALID ch)) else []) (by
      intro p hp
      split at hp
      · unfold Chamber.opsL at hp
        split at hp <;> simp [AsyncOp.make] at hp <;> rw [hp]
      · cases hp)
    rw [eT, eL, Bool.or_false, Bool.or_false]
    show _ = (s.ch ch).ops.any fun p => p.kind != .ldT && p.kind != .ldW && decide (p.seq < (s.ch ch).seq)
    congr 1; funext p
    cases p.kind <;> rfl
  have hP : ((s.issue ch (withC i op o)).ch ch).posts = ((u.tryPosts ch).ch ch).posts := by rw [tame_posts (issue_tame h), hu]
  have hS : ∀ n < 4096, (s.issue ch (withC i op o)).sig n = (u.tryPosts ch).sig n := by
    intro k hk
    rw [← hu]
    exact own_get hn (within_issue_ecc h) (sig_off hk).1 (sig_off hk).2
  have hsig : ∀ n < 4096, u.sig n = s.sig n := fun k hk => huf _ (sig_off hk).1 (sig_off hk).2
  have htry : (if held then (u.tryPosts ch = u) else
      u.tryPosts ch = (u.modCh ch fun c => { c with posts := c.posts.drop 1 }).postSig o.target.toNat set ((s.ch ch).cValue o).toNat) := by
    unfold State.tryPosts
    rw [hpost]
    unfold State.releasePosts
    dsimp only
    rw [hst]
    by_cases hh : held = true
    · rw [if_pos hh, if_pos hh]
    · rw [if_neg hh, if_neg hh]
      unfold State.postTo
      rw [hd]
      rfl
  by_cases hh : held = true
  · rw [if_pos hh] at htry ⊢
    rw [htry] at hP hS
    refine ⟨by rw [hP, hpost]; rfl, fun k hk => ?_⟩
    rw [hS k hk, hsig k hk]
  · rw [if_neg hh] at htry ⊢
    rw [htry] at hP hS
    rw [hP]
    have hc1 : ((u.modCh ch fun c => { c with posts := c.posts.drop 1 }).ch ch).posts = [] := by
      unfold State.modCh; rw [State.ch_setCh, if_pos rfl]; simp [hpost]
    have hc2 : ∀ n < 4096, (u.modCh ch fun c => { c with posts := c.posts.drop 1 }).sig n = s.sig n := fun k hk => hsig k hk
    generalize (u.modCh ch fun c => { c with posts := c.posts.drop 1 }) = w at hS hc1 hc2 ⊢
    have hw : State.Within WakeKeys w (if w.isJobSig o.target.toNat then w.wake else w) := within_ite within_wake (.refl _ _)
    have hwp : ((if w.isJobSig o.target.toNat then w.wake else w).ch ch).posts = (w.ch ch).posts := by
      split
      · exact wake_posts _ _
      · rfl
    constructor
    · rw [← hc1, ← hwp]; rfl
    · intro k hk
      rw [hS k hk]
      unfold State.postSig State.sig
      rw [State.get_put]
      have hg : ∀ j < 4096, (if w.isJobSig o.target.toNat then w.wake else w).get (Reg.GLB_SIGn_VALUE j) = s.sig j := by
        intro j hj
        rw [hw.get, ← hc2 j hj]; rfl
        simp only [WakeKeys, FieldRef.key, Reg.GLB_SIGn_VALUE, Reg.PCR_PSTATE_STATE, Reg.CHn_STATUS_STATE, Reg.HGPn_STATUS_STATE]
        rintro (h | ⟨m, hm, h⟩ | ⟨m, hm, h⟩) <;> omega
      have hke : ((Reg.GLB_SIGn_VALUE k).key = (Reg.GLB_SIGn_VALUE o.target.toNat).key) ↔ k = o.target.toNat := by
        simp only [FieldRef.key, Reg.GLB_SIGn_VALUE]; omega
      have hs' := hc2 o.target.toNat o.target.isLt
      unfold State.sig at hs'
      by_cases hk' : k = o.target.toNat
      · rw [if_pos (hke.mpr hk'), if_pos hk', hs', hk']
        rfl
      · rw [if_neg (fun e => hk' (hke.mp e)), if_neg hk', hg k hk]; rfl

theorem cValue_nat (c : Chamber) (o : COps) : (c.cValue o).toNat = if o.i then o.imm16.toNat else (c.sreg o.sval).toNat := by
  unfold Chamber.cValue
  split
  · simp [BitVec.toNat_setWidth]; omega
  · rfl

theorem tagBusy_iff {c : Chamber} {m : Nat} : c.tagBusy m = false ↔ ∀ p ∈ c.ops, bit m p.tag = false := by
  unfold Chamber.tagBusy
  simp

theorem stores_iff {c : Chamber} {q : Nat} : c.storesBefore q = false ↔ ∀ p ∈ c.ops, p.kind = .ldT ∨ p.kind = .ldW ∨ q ≤ p.seq := by
  unfold Chamber.storesBefore
  rw [List.any_eq_false]
  constructor
  · intro h p hp
    have := h p hp
    cases hk : p.kind <;> simp_all [AKind.stores]
  · intro h p hp
    have := h p hp
    cases hk : p.kind <;> simp_all [AKind.stores]

theorem live_l {s : State} {ch : Nat} {i : Issue} {op : BitVec 8} {o : LOps} (h0 : op ≠ 0) (hg : (s.ch ch).guard o.guard = true) :
    ((s.ch ch).live (withL i op o).bundle).l = true := by
  have h0' : ¬op = 0#8 := h0
  simp [Chamber.live, withL, h0', hg]
theorem live_t {s : State} {ch : Nat} {i : Issue} {op : BitVec 8} {o : TOps} (h0 : op ≠ 0) (hg : (s.ch ch).guard o.guard = true) :
    ((s.ch ch).live (withT i op o).bundle).t = true := by
  have h0' : ¬op = 0#8 := h0
  simp [Chamber.live, withT, h0', hg]
theorem live_v {s : State} {ch : Nat} {i : Issue} {op : BitVec 8} {o : VOps} (h0 : op ≠ 0) (hg : (s.ch ch).guard o.guard = true) :
    ((s.ch ch).live (withV i op o).bundle).v = true := by
  have h0' : ¬op = 0#8 := h0
  simp [Chamber.live, withV, h0', hg]
theorem live_m {s : State} {ch : Nat} {i : Issue} {op : BitVec 8} {o : MOps} (h0 : op ≠ 0) (hg : (s.ch ch).guard o.guard = true) :
    ((s.ch ch).live (withM i op o).bundle).m = true := by
  have h0' : ¬op = 0#8 := h0
  simp [Chamber.live, withM, h0', hg]

theorem accessCause_none {a : Int} {k n : Nat} (h : accessCause a k n = none) : 0 ≤ a ∧ a + k ≤ 0x1000000 ∧ a % n = 0 := by
  unfold accessCause at h
  split at h
  · cases h
  · next h1 =>
    split at h
    · cases h
    · next h2 =>
      simp only [inLocal, Bool.not_eq_true, Bool.not_eq_false', Bool.and_eq_true, decide_eq_true_eq] at h1
      refine ⟨h1.1, h1.2, ?_⟩
      have h3 : a.toNat % n = 0 := by omega
      have : ((a.toNat % n : Nat) : Int) = 0 := by rw [h3]; rfl
      rw [Int.natCast_emod, Int.toNat_of_nonneg h1.1] at this
      exact this

theorem stores_of (mk : Fin 28 → TOps → Issue → Instr) (op : BitVec 8) (n al : Nat) (byte : Chamber → TOps → Nat → Byte)
    (he : ∀ ch o i s, exec (mk ch o i) s = .next (s.issue ch.val (withT i op o))) (h0 : op ≠ 0)
    (hc : ∀ (c : Chamber) (o : TOps), c.tCause op o = accessCause (c.laddr o.sa o.imm32) n al)
    (hl : ∀ (c : Chamber) (o : TOps), (c.storeBytes op o).length = n)
    (hb : ∀ (c : Chamber) (o : TOps) k, k < n → (c.storeBytes op o).getD k 0 = byte c o k) : StoresLocal mk op n byte := by
  intro ch o i s h hg lo
  have hv : ((s.ch ch).live (withT i op o).bundle).t = true := live_t h0 hg
  obtain ⟨h1, h2, h3⟩ := accessCause_none (((hc _ _).symm.trans ((precise_none h.2.2.2.2.1).2.2.2.2.2 hv)))
  refine ⟨h1, h2, _, he ch o i s, fun a => ?_⟩
  rw [(core_parts (issue_core h)).2.2.2.2.2.2.1, after_lmem, if_pos hv]
  show memByte (memWrite (s.ch ch).lmem lo.toNat ((s.ch ch).storeBytes op o)) a = _
  rw [memByte_write, hl]
  split
  · rw [hb _ _ _ (by omega)]
  · rfl

theorem startsL (c : Instr) (ch : Fin 28) (i : Issue) (o : LOps) (op : BitVec 8) (k : AKind) (p : Chamber → AsyncOp → Prop)
    (he : ∀ s, exec c s = .next (s.issue ch.val (withL i op o))) (h0 : op ≠ 0)
    (hp : ∀ (c : Chamber) pc tk, ∃ x ∈ c.opsL pc op o tk, x.seq = c.seq ∧ x.kind = k ∧ x.tag = o.tag.toNat ∧ x.desc = c.dreg o.dsc ∧ p c x) :
    StartsAsync c ch (withL i op o) o.guard k o.tag o.dsc p := by
  intro s h hg
  refine ⟨_, he s, ?_⟩
  obtain ⟨x, hx, hr⟩ := hp (s.ch ch) (s.chPc ch) (s.flag (if o.xslot then Reg.CHn_XT_SLOT1_VALID ch else Reg.CHn_XT_SLOT0_VALID ch))
  refine ⟨x, ?_, hr⟩
  rw [(core_parts (issue_core h)).2.2.2.2.2.2.2.2.2.1, after_ops, if_pos (live_l h0 hg)]
  exact List.mem_append_left _ (List.mem_append_right _ hx)

theorem startsT (c : Instr) (ch : Fin 28) (i : Issue) (o : TOps) (op : BitVec 8) (k : AKind) (p : Chamber → AsyncOp → Prop)
    (he : ∀ s, exec c s = .next (s.issue ch.val (withT i op o))) (h0 : op ≠ 0)
    (hp : ∀ (c : Chamber) pc, ∃ x ∈ c.opsT pc op o, x.seq = c.seq ∧ x.kind = k ∧ x.tag = o.tag.toNat ∧ x.desc = c.dreg o.dsc ∧ p c x) :
    StartsAsync c ch (withT i op o) o.guard k o.tag o.dsc p := by
  intro s h hg
  refine ⟨_, he s, ?_⟩
  obtain ⟨x, hx, hr⟩ := hp (s.ch ch) (s.chPc ch)
  refine ⟨x, ?_, hr⟩
  rw [(core_parts (issue_core h)).2.2.2.2.2.2.2.2.2.1, after_ops, if_pos (live_t h0 hg)]
  exact List.mem_append_right _ hx

theorem lane_lanewise (f : Nat → Lane × Flags) (k : Nat) (h : k < 128) : lane (lanewise f).1 k = (f k).1 := by
  simp [lane, lanewise, List.getD_eq_getElem?_getD, h]

theorem treeLevel_get (op : Lane → Lane → Lane × Flags) : ∀ (n : Nat) (l : List Lane), l.length = 2 * n →
    (treeLevel op l).1.length = n ∧ ∀ k < n, (treeLevel op l).1.getD k 0 = (op (l.getD (2 * k) 0) (l.getD (2 * k + 1) 0)).1
  | 0, l, h => by
    have : l = [] := List.eq_nil_of_length_eq_zero (by omega)
    subst this
    exact ⟨rfl, fun k hk => by omega⟩
  | n + 1, [], h => by simp at h
  | n + 1, [a], h => by simp at h; omega
  | n + 1, a :: b :: l, h => by
    have ih := treeLevel_get op n l (by simp at h; omega)
    unfold treeLevel
    dsimp only
    refine ⟨by simp [ih.1], fun k hk => ?_⟩
    cases k with
    | zero => rfl
    | succ k =>
      rw [List.getD_cons_succ, ih.2 k (by omega)]
      rw [show 2 * (k + 1) = 2 * k + 1 + 1 by omega, List.getD_cons_succ, List.getD_cons_succ, List.getD_cons_succ, List.getD_cons_succ]

/-- A pairwise tree of neighbours, by position. -/
theorem pairTree_level (op : Lane → Lane → Lane) (f g : Nat → Lane) (n : Nat) : ∀ b, (∀ k < 2 ^ n, g (b + k) = op (f (2 * (b + k))) (f (2 * (b + k) + 1))) →
    pairTree op n g b = pairTree op (n + 1) f (2 * b) := by
  induction n with
  | zero => intro b h; have := h 0 (by decide); simpa [pairTree] using this
  | succ n ih =>
    intro b h
    rw [pairTree, ih b (fun k hk => h k (by rw [Nat.pow_succ]; omega)), ih (b + 2 ^ n) (fun k hk => by
      have := h (2 ^ n + k) (by rw [Nat.pow_succ]; omega)
      rw [Nat.add_assoc]; exact this)]
    rw [pairTree.eq_2 (n := n + 1)]
    congr 2
    rw [Nat.pow_succ]; omega

theorem treeReduce_pair (op : Lane → Lane → Lane × Flags) : ∀ (n : Nat) (l : List Lane) (f : Nat → Lane), l.length = 2 ^ n →
    (∀ k < 2 ^ n, l.getD k 0 = f k) → (treeReduce op n l).1.headD 0 = pairTree (fun x y => (op x y).1) n f 0
  | 0, l, f, h, hf => by
    have := hf 0 (by decide)
    match l, h with
    | [x], _ => simpa [treeReduce, pairTree] using this
  | n + 1, l, f, h, hf => by
    have hp : (2 : Nat) ^ (n + 1) = 2 * 2 ^ n := by rw [Nat.pow_succ]; omega
    obtain ⟨hl, hg⟩ := treeLevel_get op (2 ^ n) l (by rw [h, hp])
    have ih := treeReduce_pair op n (treeLevel op l).1 (fun k => (op (f (2 * k)) (f (2 * k + 1))).1) hl (fun k hk => by
      rw [hg k hk, hf _ (by omega), hf _ (by omega)])
    unfold treeReduce
    dsimp only
    rw [ih]
    exact pairTree_level _ _ _ _ 0 (fun k hk => by simp)

theorem writesLanes_of (mk : Fin 28 → VOps → Issue → Instr) (op : BitVec 8) (f : Chamber → VOps → Nat → Lane)
    (he : ∀ ch o i s, exec (mk ch o i) s = .next (s.issue ch.val (withV i op o))) (h0 : op ≠ 0) (h28 : op ≠ 0x28)
    (hf : ∀ (c : Chamber) (o : VOps), ∀ k < 128, lane (c.vResult op.toNat o).1 k = f c o k) : WritesLanes mk op f := by
  intro ch o i s h hg
  refine ⟨_, he ch o i s, fun k hk => ?_⟩
  rw [vreg_core (issue_core h), after_vreg, if_pos ⟨live_v h0 hg, h28, rfl⟩]
  exact hf _ _ k hk

theorem lane_red (op : Lane → Lane → Lane × Flags) (v : Lanes) (k : Nat) (h : k < 128) :
    lane (reduced op v).1 k = if k = 0 then pairTree (fun x y => (op x y).1) 7 (lane v) 0 else 0 := by
  unfold reduced
  dsimp only
  rw [lane_mkLanes _ _ h, treeReduce_pair op 7 v.toList (lane v) (by simp) (fun _ _ => rfl)]

theorem turnRow_get (m : Map (BitVec 16)) (tt row j : Nat) (v : Lanes) : mapGet 0 (turnRow m tt row v) j =
    if 16384 * tt + 128 * row ≤ j ∧ j < 16384 * tt + 128 * row + 128 then (lane v (j - (16384 * tt + 128 * row))).setWidth 16 else mapGet 0 m j := by
  have key : ∀ (n : Nat), mapGet 0 ((List.range n).foldl (fun m i => mapSet 0 m (16384 * tt + 128 * row + i) ((lane v i).setWidth 16)) m) j =
      if 16384 * tt + 128 * row ≤ j ∧ j < 16384 * tt + 128 * row + n then (lane v (j - (16384 * tt + 128 * row))).setWidth 16 else mapGet 0 m j := by
    intro n
    induction n with
    | zero => rw [if_neg (by omega)]; rfl
    | succ n ih =>
      rw [List.range_succ, List.foldl_append, List.foldl_cons, List.foldl_nil, mapGet_set, ih]
      by_cases h1 : j = 16384 * tt + 128 * row + n
      · rw [if_pos h1, if_pos (by omega), h1]; congr 2; omega
      · rw [if_neg h1]
        by_cases h2 : 16384 * tt + 128 * row ≤ j ∧ j < 16384 * tt + 128 * row + n
        · rw [if_pos h2, if_pos (by omega)]
        · rw [if_neg h2, if_neg (by omega)]
  exact key 128

set_option maxRecDepth 4000 in
theorem sOps1 : ∀ op : BitVec 8, sOpOk op = true → op ≠ 0 → (op.toNat ≤ 0x0D ∨ op.toNat = 0x24) → op ∈ scalarOps := bv8 _ (by decide)
set_option maxRecDepth 4000 in
theorem sOps2 : ∀ op : BitVec 8, sOpOk op = true → op ≠ 0 → 0x10 ≤ op.toNat → op.toNat ≤ 0x1A → op ∈ predicateOps := bv8 _ (by decide)
set_option maxRecDepth 4000 in
theorem sOps3 : ∀ op : BitVec 8, sOpOk op = true → 0x1A < op.toNat → op.toNat ≠ 0x24 → op = 0x20 ∨ op = 0x21 := bv8 _ (by decide)
theorem sOps (op : BitVec 8) (h : sOpOk op = true) (h0 : op ≠ 0) :
    ((op.toNat ≤ 0x0D ∨ op.toNat = 0x24) → op ∈ scalarOps) ∧ (0x10 ≤ op.toNat → op.toNat ≤ 0x1A → op ∈ predicateOps) ∧
    (0x1A < op.toNat → op.toNat ≠ 0x24 → op = 0x20 ∨ op = 0x21) := ⟨sOps1 op h h0, sOps2 op h h0, sOps3 op h⟩
set_option maxRecDepth 4000 in
theorem lOps : ∀ op : BitVec 8, lOpOk op = true → op ≠ 0 → op ≠ 4 → op ≠ 5 → op.toNat = 1 ∨ op.toNat = 2 ∨ op.toNat = 3 := bv8 _ (by decide)

end Sys2Proof.Machine
end

