-- ==== Sys2Proof/Laws/Steps.lean ====
section
/-! SUPPORT. What Traverse's operations change: the end of a step, its prefetches and releases, and what a failure leaves. -/

namespace Sys2Proof.Machine

open Sys2Proof

theorem trv_puts_get {s : State} {l : List (FieldRef × Nat)} {f : FieldRef} (h : ∀ e ∈ l, f.key ≠ e.1.key) : (s.puts l).get f = s.get f := by
  induction l generalizing s with
  | nil => rfl
  | cons e l ih =>
    rw [State.puts_cons, ih fun x hx => h x (List.mem_cons_of_mem _ hx)]
    exact State.get_put_ne (h e List.mem_cons_self)

theorem copyArb_get (s : State) : (∀ f : FieldRef, (∀ k < 10, f.key ≠ (Reg.ARB_ACTIVE_SET_k k).key) → s.copyArb.get f = s.get f) ∧
    ∀ k < 10, s.copyArb.get (Reg.ARB_ACTIVE_SET_k k) = s.get (Reg.ARB_NEXT_SET_k k) % 4 := by
  have key : ∀ (l : List Nat), l.Nodup → (∀ k ∈ l, k < 10) → ∀ u : State,
      (∀ f : FieldRef, (∀ k ∈ l, f.key ≠ (Reg.ARB_ACTIVE_SET_k k).key) → (l.foldl (fun s k => s.put (Reg.ARB_ACTIVE_SET_k k) (s.get (Reg.ARB_NEXT_SET_k k))) u).get f = u.get f) ∧
      ∀ k ∈ l, (l.foldl (fun s k => s.put (Reg.ARB_ACTIVE_SET_k k) (s.get (Reg.ARB_NEXT_SET_k k))) u).get (Reg.ARB_ACTIVE_SET_k k) = u.get (Reg.ARB_NEXT_SET_k k) % 4 := by
    intro l
    induction l with
    | nil => exact fun _ _ u => ⟨fun _ _ => rfl, fun k hk => by cases hk⟩
    | cons x l ih =>
      intro hn hl u
      rw [List.nodup_cons] at hn
      have hx := hl x List.mem_cons_self
      have hl' : ∀ k ∈ l, k < 10 := fun k hk => hl k (List.mem_cons_of_mem _ hk)
      obtain ⟨h1, h2⟩ := ih hn.2 hl' (u.put (Reg.ARB_ACTIVE_SET_k x) (u.get (Reg.ARB_NEXT_SET_k x)))
      rw [List.foldl_cons]
      refine ⟨fun f hf => ?_, fun k hk => ?_⟩
      · rw [h1 f fun k hk => hf k (List.mem_cons_of_mem _ hk)]
        exact State.get_put_ne (hf x List.mem_cons_self)
      · rcases List.mem_cons.mp hk with rfl | hk
        · rw [h1 _ fun j hj => by
            have := hl' j hj
            have : k ≠ j := fun e => hn.1 (e ▸ hj)
            unfold FieldRef.key Reg.ARB_ACTIVE_SET_k; dsimp only; omega]
          exact State.get_put_eq
        · rw [h2 k hk]
          have := hl' k hk
          rw [State.get_put_ne (by unfold FieldRef.key Reg.ARB_ACTIVE_SET_k Reg.ARB_NEXT_SET_k; dsimp only; omega)]
  obtain ⟨h1, h2⟩ := key (List.range 10) List.nodup_range (fun k hk => List.mem_range.mp hk) s
  exact ⟨fun f hf => h1 f fun k hk => hf k (List.mem_range.mp hk), fun k hk => h2 k (List.mem_range.mpr hk)⟩

theorem copyArb_eq (s : State) : s.copyArb = { s with fields := s.copyArb.fields } := by
  unfold State.copyArb
  have key : ∀ (l : List Nat) (u : State), (l.foldl (fun s k => s.put (Reg.ARB_ACTIVE_SET_k k) (s.get (Reg.ARB_NEXT_SET_k k))) u) =
      { u with fields := (l.foldl (fun s k => s.put (Reg.ARB_ACTIVE_SET_k k) (s.get (Reg.ARB_NEXT_SET_k k))) u).fields } := by
    intro l
    induction l with
    | nil => exact fun _ => rfl
    | cons x l ih => intro u; rw [List.foldl_cons]; exact ih _
  exact key _ s

/-- Two states differ in register fields and MSI-X raises only. -/
def State.Quiet (s t : State) : Prop := ∃ F I, t = { s with fields := F, irq := I }

theorem quiet_refl (s : State) : s.Quiet s := ⟨_, _, rfl⟩
theorem quiet_trans {s t u : State} (h : s.Quiet t) (k : t.Quiet u) : s.Quiet u := by
  obtain ⟨F, I, rfl⟩ := h; obtain ⟨G, J, rfl⟩ := k; exact ⟨_, _, rfl⟩
theorem quiet_put (s : State) (f : FieldRef) (v : Nat) : s.Quiet (s.put f v) := ⟨_, _, rfl⟩
theorem quiet_count (s : State) (f : FieldRef) (v : Nat) : s.Quiet (s.count f v) := ⟨_, _, rfl⟩
theorem quiet_puts (l : List (FieldRef × Nat)) : ∀ s : State, s.Quiet (s.puts l) := by
  induction l with
  | nil => exact quiet_refl
  | cons e l ih => exact fun s => quiet_trans (quiet_put s _ _) (ih _)
theorem quiet_logErr (s : State) (e : LogEntry) : s.Quiet (s.logErr e) := ⟨_, _, logErr_eq s e⟩
theorem quiet_arb (s : State) : s.Quiet s.copyArb := ⟨_, _, copyArb_eq s⟩

theorem toIdle_ok (s : State) : s.toIdle.get Reg.TRV_STATE_STATE = 0 ∧ (∀ k < 10, s.toIdle.get (Reg.ARB_ACTIVE_SET_k k) = s.get (Reg.ARB_NEXT_SET_k k) % 4) ∧
    (∀ g : FieldRef, g.key ≠ Reg.TRV_STATE_STATE.key → (g.key < 64 * 0x4800000 ∨ 64 * 0x4800008 ≤ g.key) → s.toIdle.get g = s.get g) ∧
    ∃ F I, s.toIdle = { s with trv := none, fields := F, irq := I } := by
  unfold State.toIdle
  refine ⟨?_, fun k hk => ?_, fun g h1 h2 => ?_, ?_⟩
  · rw [(copyArb_get _).1 _ fun k hk => by unfold FieldRef.key Reg.ARB_ACTIVE_SET_k Reg.TRV_STATE_STATE; dsimp only; omega]
    exact State.get_put_eq
  · rw [(copyArb_get _).2 k hk, State.get_put_ne (by unfold FieldRef.key Reg.ARB_NEXT_SET_k Reg.TRV_STATE_STATE; dsimp only; omega)]
    have : ({ s with trv := none } : State).get (Reg.ARB_NEXT_SET_k k) = s.get (Reg.ARB_NEXT_SET_k k) := rfl
    rw [this]
  · rw [(copyArb_get _).1 g fun k hk he => by rw [he] at h2; unfold FieldRef.key Reg.ARB_ACTIVE_SET_k at h2; dsimp only at h2; omega]
    exact State.get_put_ne h1
  · obtain ⟨F, I, h⟩ := quiet_trans (quiet_put ({ s with trv := none } : State) Reg.TRV_STATE_STATE 0) (quiet_arb _)
    exact ⟨F, I, h⟩

def failFields : List FieldRef := [Reg.TRV_FAIL_CODE, Reg.TRV_FAIL_PART, Reg.TRV_FAIL_MB, Reg.TRV_FAIL_RECOMP, Reg.TRV_FAIL_ITEM]
def lastFields : List FieldRef := [Reg.TRV_LAST_STAMP, Reg.TRV_LAST_CAUSE, Reg.TRV_LAST_STATUS, Reg.TRV_STEPS_ENDED]

/-- What the registers show before a failed step's record ends. -/
def State.Noted (v n : State) (q : StepReq) (f : StepFail) : Prop :=
  v.Quiet n ∧
    (∀ x, f.inst = some x → n.get Reg.TRV_FAIL_CODE = f.code % 2 ^ 16 ∧ n.get Reg.TRV_FAIL_PART = x.part % 2 ^ 12 ∧
      n.get Reg.TRV_FAIL_MB = x.mb % 2 ^ 13 ∧ n.get Reg.TRV_FAIL_RECOMP = b2n x.recomp ∧ n.get Reg.TRV_FAIL_ITEM = x.item % 2 ^ 10) ∧
    (f.inst = none → ∀ g ∈ failFields, n.get g = v.get g) ∧
    (n.get Reg.TRV_LAST_STAMP = q.stamp % 2 ^ 32 ∧ n.get Reg.TRV_LAST_CAUSE = f.cause % 2 ^ 8 ∧ n.get Reg.TRV_LAST_STATUS = f.status % 2 ^ 8 ∧
      n.get Reg.TRV_STEPS_ENDED = (v.get Reg.TRV_STEPS_ENDED + 1) % 2 ^ 32) ∧
    ∀ g : FieldRef, g.key ∉ (failFields ++ lastFields).map FieldRef.key → (g.key < 64 * 0x6800000 ∨ 64 * 0x6820000 ≤ g.key) → n.get g = v.get g

theorem failNoted_ok (v : State) (q : StepReq) (f : StepFail) : ∃ n, v.Noted n q f ∧
    v.endFailed q f = (n.endStepRec q f.status f.cause (n.get Reg.TRV_FAIL_CODE)).toIdle := by
  unfold State.endFailed
  extract_lets s1 s2 s3 s4
  refine ⟨s4, ?_, rfl⟩
  unfold State.Noted
  have e1 : v.Quiet s1 := by
    simp only [s1]; split
    · exact quiet_puts _ v
    · exact quiet_refl v
  have g1 : ∀ g : FieldRef, g.key ∉ (failFields.map FieldRef.key) → s1.get g = v.get g := by
    intro g hg
    simp only [s1]; split
    · refine trv_puts_get fun e he => ?_
      simp only [failFields, List.map_cons, List.map_nil, List.mem_cons, List.not_mem_nil, or_false, not_or] at hg he
      rcases he with rfl | rfl | rfl | rfl | rfl
      exacts [hg.1, hg.2.1, hg.2.2.1, hg.2.2.2.1, hg.2.2.2.2]
    · rfl
  have g2 : ∀ x, f.inst = some x → s1.get Reg.TRV_FAIL_CODE = f.code % 2 ^ 16 ∧ s1.get Reg.TRV_FAIL_PART = x.part % 2 ^ 12 ∧
      s1.get Reg.TRV_FAIL_MB = x.mb % 2 ^ 13 ∧ s1.get Reg.TRV_FAIL_RECOMP = b2n x.recomp ∧ s1.get Reg.TRV_FAIL_ITEM = x.item % 2 ^ 10 := by
    intro x hx
    simp only [s1]; rw [hx]
    dsimp only
    have hb : b2n x.recomp % 2 ^ 1 = b2n x.recomp := by cases x.recomp <;> rfl
    refine ⟨?_, ?_, ?_, ?_, ?_⟩ <;> (simp (disch := first | decide | (refine of_eq_true ?_; simp; done) | (simp; omega) | (intro h; revert h; simp; omega)) only [State.get_put_ne, State.get_put_eq, get_modCh, State.get_setCh, State.count, State.countSat, State.puts_cons, State.puts_nil, State.violCh, State.violGlb, State.flag]) <;> first | rfl | exact hb
  have g3 : f.inst = none → s1 = v := by intro h; simp only [s1]; rw [h]
  clear_value s1
  have e3 : v.Quiet s3 := quiet_trans e1 (quiet_trans (quiet_puts _ s1) (quiet_count _ _ _))
  have hlast : ∀ g : FieldRef, g.key ∉ (lastFields.map FieldRef.key) → s3.get g = s1.get g := by
    intro g hg
    simp only [lastFields, List.map_cons, List.map_nil, List.mem_cons, List.not_mem_nil, or_false, not_or] at hg
    refine (State.get_put_ne hg.2.2.2).trans (trv_puts_get fun e he => ?_)
    simp only [List.mem_cons, List.not_mem_nil, or_false] at he
    rcases he with rfl | rfl | rfl
    exacts [hg.1, hg.2.1, hg.2.2.1]
  have h5 : s3.get Reg.TRV_LAST_STAMP = q.stamp % 2 ^ 32 ∧ s3.get Reg.TRV_LAST_CAUSE = f.cause % 2 ^ 8 ∧ s3.get Reg.TRV_LAST_STATUS = f.status % 2 ^ 8 ∧
      s3.get Reg.TRV_STEPS_ENDED = (v.get Reg.TRV_STEPS_ENDED + 1) % 2 ^ 32 := by
    simp only [s3, s2]
    refine ⟨?_, ?_, ?_, ?_⟩
    · (simp (disch := first | decide | (refine of_eq_true ?_; simp; done) | (simp; omega) | (intro h; revert h; simp; omega)) only [State.get_put_ne, State.get_put_eq, get_modCh, State.get_setCh, State.count, State.countSat, State.puts_cons, State.puts_nil, State.violCh, State.violGlb, State.flag]); rfl
    · (simp (disch := first | decide | (refine of_eq_true ?_; simp; done) | (simp; omega) | (intro h; revert h; simp; omega)) only [State.get_put_ne, State.get_put_eq, get_modCh, State.get_setCh, State.count, State.countSat, State.puts_cons, State.puts_nil, State.violCh, State.violGlb, State.flag]); rfl
    · (simp (disch := first | decide | (refine of_eq_true ?_; simp; done) | (simp; omega) | (intro h; revert h; simp; omega)) only [State.get_put_ne, State.get_put_eq, get_modCh, State.get_setCh, State.count, State.countSat, State.puts_cons, State.puts_nil, State.violCh, State.violGlb, State.flag]); rfl
    · (simp (disch := first | decide | (refine of_eq_true ?_; simp; done) | (simp; omega) | (intro h; revert h; simp; omega)) only [State.get_put_ne, State.get_put_eq, get_modCh, State.get_setCh, State.count, State.countSat, State.puts_cons, State.puts_nil, State.violCh, State.violGlb, State.flag])
      rw [← g1 Reg.TRV_STEPS_ENDED (by decide)]; rfl
  have hx : s3.logErr { sev := 2, kind := 9, source := 10, stamp := q.stamp, detail := f.status + f.cause * 256 } = s4 := rfl
  clear_value s4 s3
  refine ⟨hx ▸ quiet_trans e3 (quiet_logErr _ _), ?_⟩
  have g4 : ∀ g : FieldRef, g.key < 64 * 0x6800000 ∨ 64 * 0x6820000 ≤ g.key → s4.get g = s3.get g := by
    intro g hg
    rw [← hx]
    exact logErr_get (by rcases hg with h | h; exacts [.inl (by rw [Nat.mul_comm]; exact h), .inr (by rw [Nat.mul_comm]; exact h)])
  clear hx
  have hF : ∀ g ∈ failFields, g.key < 64 * 0x6800000 ∧ g.key ∉ (lastFields.map FieldRef.key) := by decide
  have hL : ∀ g ∈ lastFields, g.key < 64 * 0x6800000 := by decide
  refine ⟨fun x hx => ?_, fun hn g hg => ?_, ?_, fun g hg hr => ?_⟩
  · have : ∀ g ∈ failFields, s4.get g = s1.get g := fun g hg => (g4 g (.inl (hF g hg).1)).trans (hlast g (hF g hg).2)
    obtain ⟨a, b, c, d, e⟩ := g2 x hx
    exact ⟨(this Reg.TRV_FAIL_CODE (by simp [failFields])).trans a, (this Reg.TRV_FAIL_PART (by simp [failFields])).trans b, (this Reg.TRV_FAIL_MB (by simp [failFields])).trans c,
      (this Reg.TRV_FAIL_RECOMP (by simp [failFields])).trans d, (this Reg.TRV_FAIL_ITEM (by simp [failFields])).trans e⟩
  · rw [g4 g (.inl (hF g hg).1), hlast g (hF g hg).2, g3 hn]
  · have : ∀ g ∈ lastFields, s4.get g = s3.get g := fun g hg => g4 g (.inl (hL g hg))
    obtain ⟨a, b, c, d⟩ := h5
    exact ⟨(this Reg.TRV_LAST_STAMP (by simp [lastFields])).trans a, (this Reg.TRV_LAST_CAUSE (by simp [lastFields])).trans b,
      (this Reg.TRV_LAST_STATUS (by simp [lastFields])).trans c, (this Reg.TRV_STEPS_ENDED (by simp [lastFields])).trans d⟩
  · rw [List.map_append, List.mem_append, not_or] at hg
    rw [g4 g hr, hlast g hg.2, g1 g hg.1]

theorem endFailed_ends (v : State) (q : StepReq) (f : StepFail) : v.StepFails (v.endFailed q f) q f := by
  obtain ⟨n, ⟨⟨F, I, e1⟩, e2, e3, e4, e5⟩, he⟩ := failNoted_ok v q f
  rw [he]
  clear he
  have hn : ∃ l m, n.endStepRec q f.status f.cause (n.get Reg.TRV_FAIL_CODE) = { n with openRecs := l, endedRecs := m } ∧ l = v.openRecs.filter (fun r => !(r.gen == q.gen && r.k == q.k)) ∧
      m = v.endedRecs ++ ((v.openRecs.filter fun r => r.gen == q.gen && r.k == q.k).map fun r : LedgerRec => { r with status := f.status, cause := f.cause, code := n.get Reg.TRV_FAIL_CODE }) := by
    refine ⟨_, _, rfl, ?_, ?_⟩
    · rw [e1]
    · rw [e1]
  obtain ⟨l, m, h1, h2, h3⟩ := hn
  rw [h1]
  obtain ⟨t1, t2, t3, G, J, t4⟩ := toIdle_ok ({ n with openRecs := l, endedRecs := m } : State)
  generalize ({ n with openRecs := l, endedRecs := m } : State).toIdle = t at *
  have hk : ∀ g : FieldRef, g.key ≠ Reg.TRV_STATE_STATE.key → (g.key < 64 * 0x4800000 ∨ 64 * 0x4800008 ≤ g.key) → t.get g = n.get g := t3
  have hc : t.get Reg.TRV_FAIL_CODE = n.get Reg.TRV_FAIL_CODE := hk _ (by decide) (by left; decide)
  have hlow : ∀ g ∈ failFields ++ lastFields, 64 * 0x3C00000 ≤ g.key ∧ g.key < 64 * 0x3C00058 ∧ g.key ≠ Reg.TRV_STATE_STATE.key := by
    intro g hg
    simp only [failFields, lastFields, List.cons_append, List.nil_append, List.mem_cons, List.not_mem_nil, or_false] at hg
    rcases hg with rfl | rfl | rfl | rfl | rfl | rfl | rfl | rfl | rfl <;>
      (unfold FieldRef.key; simp [Reg.TRV_FAIL_CODE, Reg.TRV_FAIL_PART, Reg.TRV_FAIL_MB, Reg.TRV_FAIL_RECOMP, Reg.TRV_FAIL_ITEM, Reg.TRV_LAST_STAMP,
        Reg.TRV_LAST_CAUSE, Reg.TRV_LAST_STATUS, Reg.TRV_STEPS_ENDED, Reg.TRV_STATE_STATE])
  refine ⟨⟨?_, t1, ?_, ?_, ?_, ?_, ?_, fun k hk' => ?_, ?_, ?_, ?_⟩, fun x hx => ?_, fun hn g hgm => ?_⟩
  · rw [t4, e1]
  · rw [hk _ (by decide) (by left; decide)]; exact e4.1
  · rw [hk _ (by decide) (by left; decide)]; exact e4.2.1
  · rw [hk _ (by decide) (by left; decide)]; exact e4.2.2.1
  · rw [hk _ (by decide) (by left; decide)]; exact e4.2.2.2
  · have h : Reg.TRV_STEPS_COMMITTED.key ∉ (failFields ++ lastFields).map FieldRef.key := by
      simp [failFields, lastFields, FieldRef.key, Reg.TRV_FAIL_CODE, Reg.TRV_FAIL_PART, Reg.TRV_FAIL_MB, Reg.TRV_FAIL_RECOMP, Reg.TRV_FAIL_ITEM, Reg.TRV_LAST_STAMP,
        Reg.TRV_LAST_CAUSE, Reg.TRV_LAST_STATUS, Reg.TRV_STEPS_ENDED, Reg.TRV_STEPS_COMMITTED]
    have h2 : Reg.TRV_STEPS_COMMITTED.key < 64 * 0x6800000 := by simp [FieldRef.key, Reg.TRV_STEPS_COMMITTED]
    rw [hk _ (by decide) (by left; decide), e5 _ h (.inl h2)]
  · have h1 : ∀ x ∈ failFields ++ lastFields, (Reg.ARB_NEXT_SET_k k).key ≠ x.key := by
      intro x hx he
      have h5 := (hlow x hx).2.1
      rw [← he] at h5
      unfold FieldRef.key Reg.ARB_NEXT_SET_k at h5
      dsimp only at h5
      omega
    have h2 : n.get (Reg.ARB_NEXT_SET_k k) = v.get (Reg.ARB_NEXT_SET_k k) := by
      refine e5 _ (fun hm => ?_) (.inl ?_)
      · obtain ⟨x, hx, he⟩ := List.mem_map.mp hm
        exact h1 x hx he.symm
      · unfold FieldRef.key Reg.ARB_NEXT_SET_k; dsimp only; omega
    rw [t2 k hk', ← h2]
    congr 1
  · have : t.openRecs = l := by rw [t4]
    rw [this, h2]
  · have : t.endedRecs = m := by rw [t4]
    rw [this, h3, hc]
  · intro g hgr
    have r1 := hgr (0x3C00000, 0x3C00058) (by simp [stepRanges])
    have r2 := hgr (0x4800000, 0x4800008) (by simp [stepRanges])
    have r3 := hgr (0x6800000, 0x6820000) (by simp [stepRanges])
    dsimp only at r1 r2 r3
    rw [hk g (fun he => by rw [he] at r1; unfold FieldRef.key Reg.TRV_STATE_STATE at r1; dsimp only at r1; omega) r2]
    refine e5 g (fun hm => ?_) r3
    obtain ⟨x, hx, he⟩ := List.mem_map.mp hm
    obtain ⟨a, b, _⟩ := hlow x hx
    rcases r1 with r | r
    · exact absurd a (Nat.not_le.mpr (he ▸ r))
    · exact absurd b (Nat.not_lt.mpr (he ▸ r))
  · rw [hk _ (by decide) (by left; decide), hk _ (by decide) (by left; decide), hk _ (by decide) (by left; decide), hk _ (by decide) (by left; decide), hk _ (by decide) (by left; decide)]
    exact e2 x hx
  · have hgm : g ∈ failFields := hgm
    obtain ⟨a, b, c⟩ := hlow g (List.mem_append_left lastFields hgm)
    rw [hk g c (.inl (Nat.lt_trans b (by norm_num)))]
    exact e3 hn g hgm

theorem submits_refl (s : State) : s.Submits s [] := ⟨by simp, rfl⟩
theorem submits_trans {s t u : State} {l m : List (List Nat)} (h : s.Submits t l) (k : t.Submits u m) : s.Submits u (l ++ m) :=
  ⟨by rw [k.1, h.1, List.append_assoc], by rw [k.2, h.2, List.length_append]; omega⟩
theorem submits_one (s : State) (ws : List Nat) : s.Submits (s.submitFls ws).2 [ws] ∧
    (s.submitFls ws).2 = { s with tokens := s.tokens + 1, flsQueue := s.flsQueue ++ [⟨s.tokens + 1, ws, 0⟩] } := by
  refine ⟨⟨?_, rfl⟩, rfl⟩
  show (s.flsQueue ++ [_]).map _ = _
  rw [List.map_append]; rfl

theorem releaseAll_ok (s : State) (p : Plan) : s.Releases (s.releaseAll p) p := by
  unfold State.releaseAll State.Releases
  have key : ∀ (l : List (List Nat)) (u : State),
      l.foldl (fun s w => (s.submitRelease (recBits w 0 47 0) (recBits w 1 47 0)).2) u = { u with
        tokens := (l.foldl (fun s w => (s.submitRelease (recBits w 0 47 0) (recBits w 1 47 0)).2) u).tokens,
        flsQueue := (l.foldl (fun s w => (s.submitRelease (recBits w 0 47 0) (recBits w 1 47 0)).2) u).flsQueue } ∧
      u.Submits (l.foldl (fun s w => (s.submitRelease (recBits w 0 47 0) (recBits w 1 47 0)).2) u)
        (l.map fun w => [7, recBits w 0 47 0, cdiv (recBits w 1 47 0) pageBytes * pageBytes, 0, 0, 0, 0, 0]) := by
    intro l
    induction l with
    | nil => exact fun u => ⟨rfl, submits_refl u⟩
    | cons w l ih =>
      intro u
      rw [List.foldl_cons, List.map_cons]
      obtain ⟨h1, h2⟩ := submits_one u [7, recBits w 0 47 0, cdiv (recBits w 1 47 0) pageBytes * pageBytes, 0, 0, 0, 0, 0]
      obtain ⟨k1, k2⟩ := ih (u.submitRelease (recBits w 0 47 0) (recBits w 1 47 0)).2
      refine ⟨?_, ?_⟩
      · rw [k1]
        show _ = _
        have e : (u.submitRelease (recBits w 0 47 0) (recBits w 1 47 0)).2 = _ := h2
        rw [e]
      · exact submits_trans h1 k2
  exact ⟨_, (key _ s).1, (key _ s).2, rfl⟩

theorem prefetch_ok (s : State) (r : Step) (ph : Nat) : s.Submits (s.prefetchPhase r ph) (s.prefetchWords r.plan (r.plan.phaseItems ph)) ∧
    ∃ T Q, s.prefetchPhase r ph = { s with tokens := T, flsQueue := Q } := by
  unfold State.prefetchPhase State.prefetchWords
  generalize r.plan.phaseItems ph = l
  have key : ∀ (l : List Nat) (u : State), u.nowUs = s.nowUs →
      u.Submits (l.foldl (fun s i =>
        let w := r.plan.item i
        if recBits w 10 16 16 = 1 then s.submitPrefetch (recBits w 10 15 0) (recBits w 10 47 24) else s) u)
        ((l.filter fun i => recBits (r.plan.item i) 10 16 16 = 1).map fun i =>
    [5 + recBits (r.plan.item i) 10 15 0 % 2 ^ 16 * 2 ^ 16, 0, 0, (s.nowUs + recBits (r.plan.item i) 10 47 24) % 2 ^ 48, 0, 0, 0, 0]) ∧
      ∃ T Q, (l.foldl (fun s i =>
        let w := r.plan.item i
        if recBits w 10 16 16 = 1 then s.submitPrefetch (recBits w 10 15 0) (recBits w 10 47 24) else s) u) = { u with tokens := T, flsQueue := Q } := by
    intro l
    induction l with
    | nil => exact fun u _ => ⟨submits_refl u, _, _, rfl⟩
    | cons i l ih =>
      intro u hu
      rw [List.foldl_cons]
      dsimp only
      by_cases hb : recBits (r.plan.item i) 10 16 16 = 1
      · rw [if_pos hb, List.filter_cons_of_pos (by simpa using hb), List.map_cons]
        obtain ⟨h1, h2⟩ := submits_one u [5 + recBits (r.plan.item i) 10 15 0 % 2 ^ 16 * 2 ^ 16, 0, 0, (s.nowUs + recBits (r.plan.item i) 10 47 24) % 2 ^ 48, 0, 0, 0, 0]
        have e : u.submitPrefetch (recBits (r.plan.item i) 10 15 0) (recBits (r.plan.item i) 10 47 24) =
            (u.submitFls [5 + recBits (r.plan.item i) 10 15 0 % 2 ^ 16 * 2 ^ 16, 0, 0, (s.nowUs + recBits (r.plan.item i) 10 47 24) % 2 ^ 48, 0, 0, 0, 0]).2 := by
          unfold State.submitPrefetch; rw [hu]
        rw [e]
        obtain ⟨k1, T, Q, k2⟩ := ih (u.submitFls [5 + recBits (r.plan.item i) 10 15 0 % 2 ^ 16 * 2 ^ 16, 0, 0, (s.nowUs + recBits (r.plan.item i) 10 47 24) % 2 ^ 48, 0, 0, 0, 0]).2 (by rw [h2]; exact hu)
        refine ⟨submits_trans h1 k1, T, Q, ?_⟩
        rw [k2, h2]
      · rw [if_neg hb, List.filter_cons_of_neg (by simpa using hb)]
        exact ih u hu
  exact key l s rfl

theorem dies_ok {s u : State} {r r' : Step} {f : StepFail} (h1 : u = { s with trv := u.trv, fields := u.fields }) (h2 : s.KeepsFields u [Reg.TRV_STATE_STATE])
    (h3 : u.trv = some r') (h4 : r'.plan = r.plan) (h5 : r'.req = r.req) (h6 : r'.fail = some f) (h7 : r'.running = []) (h8 : u.get Reg.TRV_STATE_STATE = 3) :
    s.StepDies u.reportIfDone r f := by
  unfold State.reportIfDone
  rw [h3]
  dsimp only
  rw [h6]
  dsimp only
  rw [if_pos ⟨h8, h7⟩, h4, h5]
  exact ⟨u, _, h1, h2, releaseAll_ok u r.plan, endFailed_ends _ _ _⟩

theorem begin_ok (s : State) (r : Step) (f : StepFail) (h : s.trv = some r) : (s.beginEnding f) = { s with trv := (s.beginEnding f).trv, fields := (s.beginEnding f).fields } ∧
    s.KeepsFields (s.beginEnding f) [Reg.TRV_STATE_STATE] ∧ (s.beginEnding f).trv = some { r with fail := some (r.fail.getD f), failAt := s.cycle } ∧
    (s.beginEnding f).get Reg.TRV_STATE_STATE = 3 := by
  unfold State.beginEnding State.modTrv
  refine ⟨rfl, ?_, ?_, State.get_put_eq⟩
  · exact State.KeepsFields.put (fun _ _ => rfl) (by simp)
  · show Option.map _ s.trv = _
    rw [h]; rfl

theorem acts_ok {s : State} {r : Step} (h : s.StepRuns r) : s.trvActs = some r := by
  obtain ⟨h1, h2, h3, h4⟩ := h
  unfold State.trvActs
  rw [h2]
  dsimp only
  rw [if_pos ⟨h3, h4, by rw [h1.2]; rfl⟩]

theorem stop_ok (s : State) (r : Step) (h : s.trv = some r) (hr : ∀ e ∈ r.running, e.chamber = none) :
    s.stopStep = { s with trv := some { r with stopped := true, running := [] } } := by
  unfold State.stopStep State.stopChambers
  rw [h]
  dsimp only
  have h1 : r.running.filterMap (·.chamber) = [] := by
    rw [List.filterMap_eq_nil_iff]; exact hr
  have h2 : (r.running.filter fun r => r.chamber.isSome) = [] := by
    rw [List.filter_eq_nil_iff]; intro e he; rw [hr e he]; decide
  rw [h1]
  show s.modTrv _ = _
  unfold State.modTrv
  rw [h]
  show { s with trv := some _ } = _
  dsimp only
  rw [h2]

theorem stopArrives_trv {x : State} {n : Nat} (h0 : x.InRun) (h6 : x.chState n ≠ 0) (h7 : x.get Reg.SEC_BOOT_RECOVERY = 0) (pc : Nat) :
    (x.ctlArrives n 3 pc false false true false none).trv = x.trv := by
  unfold State.ctlArrives
  have h7 : x.flag Reg.SEC_BOOT_RECOVERY = false := by unfold State.flag; rw [h7]; rfl
  rw [h7, h0.2, if_neg (by simp), if_neg h6, if_neg (by decide), if_neg (by decide)]
  unfold State.writeCtl
  rw [wake_run h0]
  dsimp only
  rw [if_neg h6]
  simp only [Bool.false_and, Bool.false_eq_true, if_false]
  unfold State.ctlBits
  simp only [Bool.false_eq_true, if_false]
  generalize hy : x.put (Reg.CHn_CTL_START_PC n) pc = y
  have : y.trv = x.trv := by rw [← hy]; rfl
  rw [← this]
  split
  · show (y.stopBit n).trv = _
    unfold State.stopBit
    split <;> rfl
  · rfl

theorem commitNoted (x : State) (q : Nat) (n : Nat) (hsl : n < 4096) : ∃ y, (x.put (Reg.GLB_SIGn_VALUE n) (x.sig n + 1)).puts [(Reg.TRV_LAST_STAMP, q), (Reg.TRV_LAST_CAUSE, 0), (Reg.TRV_LAST_STATUS, 1)] = y ∧
    x.Quiet y ∧ (y.get Reg.TRV_LAST_STAMP = q % 2 ^ 32 ∧ y.get Reg.TRV_LAST_CAUSE = 0 ∧ y.get Reg.TRV_LAST_STATUS = 1) ∧
    x.KeepsFields y [Reg.GLB_SIGn_VALUE n, Reg.TRV_LAST_STAMP, Reg.TRV_LAST_CAUSE, Reg.TRV_LAST_STATUS] ∧ y.get (Reg.GLB_SIGn_VALUE n) = (x.sig n + 1) % 2 ^ 64 := by
  refine ⟨_, rfl, ?_, ?_, ?_, ?_⟩
  · exact quiet_trans (quiet_put x _ _) (quiet_puts _ _)
  · refine ⟨?_, ?_, ?_⟩ <;> (simp (disch := first | decide | (refine of_eq_true ?_; simp; done) | (simp; omega) | (intro h; revert h; simp; omega)) only [State.get_put_ne, State.get_put_eq, get_modCh, State.get_setCh, State.count, State.countSat, State.puts_cons, State.puts_nil, State.violCh, State.violGlb, State.flag]) <;> rfl
  · exact State.KeepsFields.puts _ ((keeps_refl x _).put (by simp)) (by simp)
  · rw [trv_puts_get (by
        intro e he
        simp only [List.mem_cons, List.not_mem_nil, or_false] at he
        unfold FieldRef.key
        rcases he with rfl | rfl | rfl <;> (unfold Reg.GLB_SIGn_VALUE; first | unfold Reg.TRV_LAST_STAMP | unfold Reg.TRV_LAST_CAUSE | unfold Reg.TRV_LAST_STATUS) <;> dsimp only <;> omega)]
    rw [State.get_put_eq]; rfl

theorem commit_ok (x : State) (r : Step) (n : Nat) (hsl : n < 4096) (hn : recBits r.plan.header 12 11 0 = n) (y : State)
    (hyq : x.Quiet y) (hy1 : y.get Reg.TRV_LAST_STAMP = r.req.stamp % 2 ^ 32 ∧ y.get Reg.TRV_LAST_CAUSE = 0 ∧ y.get Reg.TRV_LAST_STATUS = 1)
    (hyk : x.KeepsFields y [Reg.GLB_SIGn_VALUE n, Reg.TRV_LAST_STAMP, Reg.TRV_LAST_CAUSE, Reg.TRV_LAST_STATUS])
    (hys : y.get (Reg.GLB_SIGn_VALUE n) = (x.sig n + 1) % 2 ^ 64) :
    ∀ t, t = (let s := if y.flag Reg.GLB_ROLE_TWIN then y.put Reg.TWN_STATE_OWN_COMMIT r.req.stamp else y
      let s := s.count Reg.TRV_STEPS_COMMITTED 1
      (s.endStepRec r.req 1 0 (s.get Reg.TRV_FAIL_CODE)).toIdle) →
        t.trv = none ∧ t.get Reg.TRV_STATE_STATE = 0 ∧ t.get Reg.TRV_LAST_STAMP = r.req.stamp % 2 ^ 32 ∧ t.get Reg.TRV_LAST_CAUSE = 0 ∧
        t.get Reg.TRV_LAST_STATUS = 1 ∧ t.get Reg.TRV_STEPS_COMMITTED = (x.get Reg.TRV_STEPS_COMMITTED + 1) % 2 ^ 32 ∧
        t.get Reg.TRV_STEPS_ENDED = x.get Reg.TRV_STEPS_ENDED ∧ (∀ k < 10, t.get (Reg.ARB_ACTIVE_SET_k k) = x.get (Reg.ARB_NEXT_SET_k k) % 4) ∧
        (∀ n, n = recBits r.plan.header 12 11 0 → t.sig n = (x.sig n + 1) % 2 ^ 64) ∧
        t.openRecs = x.openRecs.filter (fun x => !(x.gen == r.req.gen && x.k == r.req.k)) ∧
        t.mem = x.mem ∧ t.chambers = x.chambers := by
  intro t ht
  dsimp only at ht
  obtain ⟨w, hw, hyw, hkw⟩ : ∃ w, (if y.flag Reg.GLB_ROLE_TWIN then y.put Reg.TWN_STATE_OWN_COMMIT r.req.stamp else y) = w ∧ y.Quiet w ∧
      y.KeepsFields w [Reg.TWN_STATE_OWN_COMMIT] := by
    refine ⟨_, rfl, ?_, ?_⟩ <;> split
    · exact quiet_put y _ _
    · exact quiet_refl y
    · exact (keeps_refl y _).put (by simp)
    · exact keeps_refl y _
  rw [hw] at ht
  have hck : w.KeepsFields (w.count Reg.TRV_STEPS_COMMITTED 1) [Reg.TRV_STEPS_COMMITTED] := (keeps_refl w _).put (by simp)
  obtain ⟨F, I, hcq⟩ := quiet_trans (quiet_trans hyq hyw) (quiet_count w Reg.TRV_STEPS_COMMITTED 1)
  have hcs : (w.count Reg.TRV_STEPS_COMMITTED 1).get Reg.TRV_STEPS_COMMITTED = (x.get Reg.TRV_STEPS_COMMITTED + 1) % 2 ^ 32 := by
    refine State.get_put_eq.trans ?_
    rw [hkw _ (by decide), hyk _ (by simp; omega)]; rfl
  generalize w.count Reg.TRV_STEPS_COMMITTED 1 = z at *
  obtain ⟨l, m, he, hl⟩ : ∃ l m, z.endStepRec r.req 1 0 (z.get Reg.TRV_FAIL_CODE) = { z with openRecs := l, endedRecs := m } ∧
      l = x.openRecs.filter (fun x => !(x.gen == r.req.gen && x.k == r.req.k)) := by
    refine ⟨_, _, rfl, ?_⟩
    rw [hcq]
  rw [he] at ht
  obtain ⟨t1, t2, t3, G, J, t4⟩ := toIdle_ok ({ z with openRecs := l, endedRecs := m } : State)
  generalize ({ z with openRecs := l, endedRecs := m } : State).toIdle = t' at *
  subst ht
  have hzt : ∀ f : FieldRef, f.key ≠ Reg.TRV_STATE_STATE.key → (f.key < 64 * 0x4800000 ∨ 64 * 0x4800008 ≤ f.key) → t.get f = z.get f := t3
  refine ⟨?_, t1, ?_, ?_, ?_, ?_, ?_, fun k hk10 => ?_, fun j hj => ?_, ?_, ?_, ?_⟩
  · rw [t4]
  · rw [hzt _ (by decide) (by left; decide), hck _ (by decide), hkw _ (by decide)]; exact hy1.1
  · rw [hzt _ (by decide) (by left; decide), hck _ (by decide), hkw _ (by decide)]; exact hy1.2.1
  · rw [hzt _ (by decide) (by left; decide), hck _ (by decide), hkw _ (by decide)]; exact hy1.2.2
  · rw [hzt _ (by decide) (by left; decide)]; exact hcs
  · rw [hzt _ (by decide) (by left; decide), hck _ (by decide), hkw _ (by decide), hyk _ (by simp; omega)]
  · rw [t2 k hk10]
    have e1 : ({ z with openRecs := l, endedRecs := m } : State).get (Reg.ARB_NEXT_SET_k k) = z.get (Reg.ARB_NEXT_SET_k k) := rfl
    have e2 : ∀ f ∈ [Reg.TRV_STEPS_COMMITTED, Reg.GLB_SIGn_VALUE n, Reg.TRV_LAST_STAMP, Reg.TRV_LAST_CAUSE, Reg.TRV_LAST_STATUS, Reg.TWN_STATE_OWN_COMMIT],
        (Reg.ARB_NEXT_SET_k k).key ≠ f.key := by
      intro f hf he
      have hlt : f.key < 64 * 0x4000000 ∨ 64 * 0x5000000 ≤ f.key := by
        simp only [List.mem_cons, List.not_mem_nil, or_false] at hf
        rcases hf with rfl | rfl | rfl | rfl | rfl | rfl
        · decide
        · left; unfold FieldRef.key Reg.GLB_SIGn_VALUE; dsimp only; omega
        · decide
        · decide
        · decide
        · decide
      rw [← he] at hlt
      unfold FieldRef.key Reg.ARB_NEXT_SET_k at hlt
      dsimp only at hlt
      omega
    simp only [List.forall_mem_cons, List.not_mem_nil, false_imp_iff, implies_true, and_true] at e2
    obtain ⟨q1, q2, q3, q4, q5, q6⟩ := e2
    rw [e1, hck _ (by simp only [List.map_cons, List.map_nil, List.mem_singleton]; exact q1),
      hkw _ (by simp only [List.map_cons, List.map_nil, List.mem_singleton]; exact q6),
      hyk _ (by simp only [List.map_cons, List.map_nil, List.mem_cons, List.not_mem_nil, or_false, not_or]; exact ⟨q2, q3, q4, q5⟩)]
  · rw [hj, hn]
    unfold State.sig at *
    rw [hzt _ (by unfold FieldRef.key Reg.GLB_SIGn_VALUE Reg.TRV_STATE_STATE; dsimp only; omega) (by left; unfold FieldRef.key Reg.GLB_SIGn_VALUE; dsimp only; omega),
      hck _ (by simp; omega), hkw _ (by simp; omega), hys]
  · have : t.openRecs = l := by rw [t4]
    rw [this, hl]
  · have : t.mem = z.mem := by rw [t4]
    rw [this, hcq]
  · have : t.chambers = z.chambers := by rw [t4]
    rw [this, hcq]

end Sys2Proof.Machine
end

