-- ==== Sys2Proof/Tests/Slice0.lean ====
section
/-! SUPPORT. Tests: terms that WellFormed refuses, results that the spec works out, and for every statement with hypotheses states and operands
that meet them, clause by clause. -/

namespace Sys2Proof.Tests

open Sys2Proof Sys2Proof.Machine

-- One test after another: each asks the kernel for its verdict.
set_option Elab.async false

/-! ## States to start from -/

/-- Out of the cold reset, in Run. -/
def quiet : State := { State.reset with inReset := false }

/-- The same with some register fields at other values. -/
def withF (l : List (FieldRef × Nat)) : State := quiet.puts l

/-- Chamber 0 runs, changed by a function. -/
def runs (f : Chamber → Chamber) : State := (quiet.put (Reg.CHn_STATUS_STATE 0) 2).modCh 0 f

/-- Chamber 0 runs, all of its state zero. -/
def busy : State := runs id

/-- The bundle whose slots are all nop. -/
def bundle0 : Issue := ⟨Bundle.zero, [], []⟩

/-- With a bundle in chamber 0's bundle memory, at address 0. -/
def fetching (i : Issue) (s : State) : State :=
  s.modCh 0 fun k => { k with bmem := memWrite [] 0 (leBytes 64 (bundleWord i.bundle)) }

/-- With a bundle at the PC that bundle is taken, and a guard holds. -/
def Taken (s : State) (i : Issue) (g : BitVec 4 := 0) : Prop := (fetching i s).Takes 0 i ∧ ((fetching i s).ch 0).guard g = true

/-- Scalar registers 1 to 4 hold these values. -/
def scalars (a b c d : Word) (k : Chamber) : Chamber := { k with sregs := (((k.sregs.set 1 a).set 2 b).set 3 c).set 4 d }

/-- The state that a command answers. -/
def after (c : Instr) (s : State) : State :=
  match exec c s with
  | .next t => t
  | .fault _ => State.reset
  | .refused _ => State.reset

/-- An asynchronous operation of a kind, outstanding, its requests not all answered. -/
def op0 (kind : AKind) (seq tag : Nat) : AsyncOp :=
  { seq := seq, pc := 0, tag := tag, kind := kind, desc := 0, laddr := 0, src := 0, len := 0, otype := 0, ieee := false, arr := 1, stats := false, sscale := 0
    xmode := 0, xslot := 0, table := [], tableOk := true, begun := false, count := 0, mask := 0, entries := [], limit := 0, pos := 0, sent := false
    failed := false, k := 0, ovf := false, rerun := false, passEnd := false, flags := ⟨false, false, false⟩, reason := 0, buf := [], elems := [], tsw := 0
    dest := StoreEv.none, outs := [] }

/-- A packet with neither granules nor operands. -/
def packet0 : InPacket :=
  { vl := 0, recipe := 0, hops := 1, src := 0, dst := 0, poison := 0, addr := 0, xfer := 0, pkt := 0, npkt := 1, psig := 0, pen := false, set := false
    value := 0, dtype := 0, rowlen := 0, opid := 0, ngran := 0, data := [], lseq := 0, hcrc := 0, checks := [], corr := 0, uncorr := 0 }

/-- A packet of a kind with the checks of its content. -/
def checked (kind : PKind) (k : InPacket) : InPacket :=
  { k with hcrc := (inPacket kind k).hcrc k.lseq.toNat, checks := (inPacket kind k).checks }

/-- Those checks pass. -/
theorem checked_intact (kind : PKind) (k : InPacket) (h : k.uncorr = 0) : packetIntact kind (checked kind k) = true := by
  simp [packetIntact, checked, inPacket, h]

/-- Memory with words from these addresses on, and the rest zero. -/
def store (l : List (Nat × List Nat)) : Memory := l.foldl (fun m e => memWrite m e.1 (wordsToBytes e.2)) []

/-- A state whose first pages hold their frames, with this memory. -/
def holding (s : State) (l : List (Nat × List Nat)) : State := { s with pages := [(0, .bonded 0), (1, .bonded 1)], mem := store l }

/-- A descriptor of these words. -/
def desc (ws : List Nat) : BitVec 1024 := BitVec.ofNat 1024 (ws.foldr (fun w x => w % 2 ^ 64 + 2 ^ 64 * x) 0)

/-- Eight rows of two BF16 elements, one after another from address 0. -/
def rows8 : BitVec 1024 := desc [0x0021000000000000, 0, 0, 0, 0, 0x0000000100000001, 0x0000000200000007]

/-- A read with no poison, as a head of a ring reads it. -/
theorem coder_head (s : State) (n : Nat) (h : s.coderReady n = true) (p : (s.chRead n (s.coderAddr n) 64).2.1 = false) :
    s.CoderHead n (recWords (s.chRead n (s.coderAddr n) 64).1 8) (s.chRead n (s.coderAddr n) 64).2.2.2 := by
  refine ⟨h, (s.chRead n (s.coderAddr n) 64).1, (s.chRead n (s.coderAddr n) 64).2.2.1, ?_, rfl⟩
  revert p
  generalize s.chRead n (s.coderAddr n) 64 = r
  rcases r with ⟨x, y, z, w⟩
  intro p; cases p; rfl


/-! ## WellFormed refuses -/

theorem test_wf_chamberStart : (Instr.chamberStart 0 false 0 (List.replicate 9 0)).wf = false := by decide
theorem test_wf_bonded : (Instr.bondedWrite 0 (List.replicate 255 0)).wf = false ∧ (Instr.partialWriteMerge 0 ⟨0, 0, .none⟩ []).wf = false ∧
    (Instr.partialWriteMerge 0 ⟨255, 0, .none⟩ [1, 2]).wf = false ∧ (Instr.partialWriteMerge 0 ⟨254, 0, .none⟩ [1, 2]).wf = true := by decide +kernel
theorem test_wf_portTraining : (Instr.portTraining 0 ⟨none, 0xFF, 0xFF, true⟩ ⟨0, 0, [1, 2, 3]⟩).wf = false := by decide
theorem test_wf_packets : (Instr.linkWrite 0 { packet0 with ngran := 1 }).wf = false ∧ (Instr.linkWrite 0 { packet0 with ngran := 1, data := [[0]] }).wf = false ∧
    (Instr.linkReadResp 0 { packet0 with ngran := 1 }).wf = false ∧ (Instr.linkReadReq 0 { packet0 with data := [[]] }).wf = false ∧
    (Instr.linkPost 0 { packet0 with data := [[]] }).wf = false ∧ (Instr.linkDone 0 { packet0 with data := [[]] }).wf = false ∧
    (Instr.packetForward 0 .write { packet0 with ngran := 1 }).wf = false ∧ (Instr.packetForward 0 .done { packet0 with data := [[]] }).wf = false ∧
    (Instr.linkDone 0 packet0).wf = true := by decide +kernel
theorem test_wf_controlFlit : (Instr.controlFlit 0 [1, 2, 3] 0 false).wf = false := by decide
theorem test_wf_arbiterDecision : (Instr.arbiterDecision 0 [⟨1, 0, false, 0, 0⟩]).wf = false := by decide
theorem test_wf_hostMemWrite : (Instr.hostMemWrite 0 [1]).wf = false := by decide
theorem test_wf_ledger : (Instr.ledgerNop [0]).wf = false ∧ (Instr.ledgerStep []).wf = false ∧ (Instr.ledgerWrite [0]).wf = false ∧ (Instr.copyIn [0] []).wf = false ∧
    (Instr.copyIn [] [⟨List.replicate 257 0, false⟩]).wf = false ∧ (Instr.copyOut [0] 1).wf = false ∧ (Instr.copyOut [] 1).wf = true := by decide +kernel
theorem test_wf_uio : (Instr.uioWrite 0 []).wf = false ∧ (Instr.uioRead 0 0).wf = false := by decide
theorem test_wf_attest : (Instr.attest [0]).wf = false := by decide
theorem test_wf_coldBoot : (Instr.coldBoot ⟨[⟨0xFFFFFFF, [1, 2]⟩], 0, 0, true, 0⟩).wf = false := by decide

/-! ## The machine -/

/-- IdleStepPassesOneCycle: one cycle in Run, and none in a cold reset. -/
theorem witness_idle : State.reset.pending = [] ∧ quiet.pending = [] ∧ quiet.inReset = false := by decide +kernel
theorem test_idle_counts : (match step quiet with | .next t => (t.cycle, t.aclk) | _ => (0, 0)) = (1, 1) := by decide +kernel

/-- StepsKeepMemoriesCanonical: a step of a state in canonical form. -/
theorem witness_canon : quiet.Canon ∧ ∃ t, step { quiet with pending := [.status] } = .next t :=
  ⟨by
    refine ⟨by decide +kernel, fun n => ?_, fun n => ?_⟩
    · have h : quiet.ch n = Chamber.reset := rfl
      rw [h]; unfold Chamber.Ok; decide +kernel
    · have h : quiet.hel n = Hel.reset := rfl
      rw [h]; unfold Hel.Ok; decide +kernel, _, rfl⟩

/-! ## The slots of a bundle -/

/-- R36, R39, R41, R48: a br to 0x123 under guard 5 at bits 63 to 0, an add of 7 to s1 into s3 at bits 127 to 64, a st.s of s2 at bits 511 to 416;
and R216: an addi of -1 to x1 into x2. -/
theorem test_layout :
    let b := readBundle (0x0150000000000123 + (0x0100000000000007 + 3 * 2 ^ 47 + 1 * 2 ^ 42 + 2 ^ 36) * 2 ^ 64 + (1 * 2 ^ 88 + 2 * 2 ^ 70) * 2 ^ 416)
    b.cop = 1 ∧ b.c.guard = 5 ∧ b.c.target = 0x123 ∧ b.sop = 1 ∧ b.s = ⟨0, 3, 1, 0, true, 7⟩ ∧ b.lop = 0 ∧ b.mop = 0 ∧ b.vop = 0 ∧ b.top = 1 ∧
    b.t.sb = 2 ∧ readH 0x18210000FFFFFFFF = (0x18, ⟨2, 1, 0, 0, 0, 0xFFFFFFFF⟩) := by decide +kernel

/-- Every opcode of the S slot, with a guard that holds, in a bundle that is taken. -/
theorem witness_s_slot : ∀ op ∈ scalarOps ++ predicateOps ++ [0x20, 0x21], ∀ r ∈ [(0 : BitVec 5), 31],
    Taken busy (withS bundle0 op ⟨0, r, 1, 2, r == 0, 7⟩) := by
  unfold Taken State.Takes; decide +kernel

/-- Every opcode of the V slot (R46), mov.acc at the last row. -/
theorem witness_v_slot : ∀ op ∈ [(0x01 : BitVec 8), 0x02, 0x03, 0x04, 0x05, 0x06, 0x08, 0x09, 0x0A, 0x0B, 0x0C, 0x10, 0x11, 0x12, 0x14, 0x15, 0x16, 0x18,
      0x19, 0x1A, 0x1B, 0x20, 0x21, 0x22, 0x28, 0x29, 0x2C], ∀ typ ∈ [(0 : BitVec 4), 5],
    Taken (runs (scalars 1023 0 0 0)) (withV bundle0 op ⟨0, 3, 1, 2, 4, typ, 1, true, true, 127⟩) := by
  unfold Taken State.Takes; decide +kernel

/-- The control slot: nop, br, br.s to the last address, call on a stack of 31, ret from one of 1, halt; br with a guard that does not hold. -/
theorem witness_c_slot :
    (∀ op ∈ [(0x00 : BitVec 8), 0x01, 0x02, 0x03, 0x05], Taken (runs fun k => { scalars 4095 0 0 0 k with retStack := List.replicate 31 9 })
      (withC bundle0 op ⟨0, 0xFF, 0, false, 0, 0, 1, 4095⟩)) ∧
    Taken (runs fun k => { k with retStack := [4095] }) (withC bundle0 0x04 ⟨0, 0xFF, 0, false, 0, 0, 1, 0⟩) := by
  unfold Taken State.Takes; decide +kernel

/-- PostsUpdateSignals: posts to this device, with and without an earlier store outstanding. -/
theorem witness_posts : ∀ op ∈ [(0x08 : BitVec 8), 0x09], ∀ i ∈ [true, false], ∀ s ∈ [busy, runs fun k => { k with seq := 1, ops := [op0 .stT 0 0] }],
    Taken s (withC bundle0 op ⟨0, 0xFF, 0, i, 1, 5, 0, 4095⟩) ∧ (s.ch 0).posts = [] := by
  unfold Taken State.Takes; decide +kernel

/-- WaitsHoldTheBundle: wait.sig with its word reached and not, wait.tag and fence with and without an operation outstanding. -/
theorem witness_waits :
    (∀ c ∈ [((0x0A : BitVec 8), withF [(Reg.CHn_STATUS_STATE 0, 2), (Reg.GLB_SIGn_VALUE 4095, 5)]), (0x0B, withF [(Reg.CHn_STATUS_STATE 0, 2), (Reg.GLB_SIGn_VALUE 4095, 5)]),
      (0x0C, busy), (0x0D, busy)], Taken c.2 (withC bundle0 c.1 ⟨0, 0, 0, true, 0, 5, 0, 4095⟩)) ∧
    (∀ c ∈ [((0x0A : BitVec 8), busy), (0x0B, busy), (0x0C, runs fun k => { k with seq := 1, ops := [op0 .ldT 0 7] }),
      (0x0D, runs fun k => { k with seq := 1, ops := [op0 .stT 0 0] })],
      let i := withC bundle0 c.1 ⟨0, 0, 0, true, 0, 5, 0, 4095⟩
      let s := fetching i c.2
      s.mayIssue 0 = true ∧ s.fetched 0 = i.bundle ∧ illegalSlot i.bundle = none ∧ s.waitsFor 0 i.bundle ((s.ch 0).live i.bundle) ≠ .no) := by
  unfold Taken State.Takes; decide +kernel

/-- Local loads and stores at the first bytes and at the last ones of local memory, and with a negative offset. -/
def Loads (op : BitVec 8) (a : Word) (imm : BitVec 32) : Prop := Taken (runs (scalars a 0 0 0)) (withL bundle0 op ⟨0, 3, 5, 1, 0, 0, false, imm⟩)
def Stores (op : BitVec 8) (a : Word) (imm : BitVec 32) : Prop :=
  Taken (runs (scalars a 0 0 0)) (withT bundle0 op ⟨0, 3, 1, 2, 0, 0, false, false, false, 0, 5, imm⟩)
theorem witness_local_loads : Loads 0x01 0 0 ∧ Loads 0x01 0xFFFFF8 0 ∧ Loads 0x01 64 (-64) ∧ Loads 0x02 0 0 ∧ Loads 0x02 0xFFFE00 0 ∧ Loads 0x03 0 0 ∧
    Loads 0x03 0xFFFF80 0 := by
  unfold Loads Taken State.Takes; decide +kernel
theorem witness_local_stores : Stores 0x01 0 0 ∧ Stores 0x01 0xFFFFF8 0 ∧ Stores 0x01 64 (-64) ∧ Stores 0x02 0 0 ∧ Stores 0x02 0xFFFE00 0 ∧ Stores 0x03 0 0 ∧
    Stores 0x03 0xFFFF80 0 := by
  unfold Stores Taken State.Takes; decide +kernel

/-- The asynchronous instructions start: ld.t and ld.w, the stores, and mv of the last 64 bytes. -/
theorem witness_async : (∀ op ∈ [(0x04 : BitVec 8), 0x05], Taken busy (withL bundle0 op ⟨0, 3, 5, 1, 7, 1, true, 0⟩)) ∧
    (∀ op ∈ [(0x04 : BitVec 8), 0x05, 0x06, 0x07], Taken busy (withT bundle0 op ⟨0, 3, 1, 2, 7, 1, true, true, true, 0, 0, 0⟩)) ∧
    Taken (runs (scalars 0xFFFFC0 0 0 0)) (withT bundle0 0x08 ⟨0, 3, 1, 2, 7, 0, false, false, false, 0, 0, 64⟩) := by
  unfold Taken State.Takes; decide +kernel

/-- MatrixInstructionsQueue: an mma of one row and of the most rows that fit, on either array and on both, and wsw. -/
def Queues (arr : BitVec 2) (rows : Word) : Prop :=
  Taken (runs (scalars 0 rows 0 0)) (withM bundle0 0x01 ⟨0, 1, 1, arr, true, true, false, true, 1, 2, 3, 4, 3⟩)
theorem witness_matrix : Queues 1 1 ∧ Queues 1 1024 ∧ Queues 2 1 ∧ Queues 2 1024 ∧ Queues 3 1 ∧ Queues 3 1024 ∧
    Taken busy (withM bundle0 0x02 ⟨0, 0, 0, 0, false, false, false, false, 0, 0, 0, 0, 0⟩) := by
  unfold Queues Taken State.Takes; decide +kernel

/-- FalseGuardDoesNothing: a br whose guard does not hold is taken; and at 4,095 the cause it raises is of slot 0 and is the bundle's place. -/
theorem witness_false_guard :
    (bundleOf (.br 0 ⟨8, 0xFF, 0, false, 0, 0, 1, 16⟩ bundle0) = some (0, withC bundle0 0x01 ⟨8, 0xFF, 0, false, 0, 0, 1, 16⟩) ∧
      let i := withC bundle0 0x01 ⟨8, 0xFF, 0, false, 0, 0, 1, 16⟩
      ((fetching i busy).ch 0).guard (guardOf i.bundle 0) = false ∧ (fetching i busy).Takes 0 i ∧
      ((fetching (withNop i 0) busy).ch 0).guard (guardOf i.bundle 0) = false ∧ (fetching (withNop i 0) busy).Takes 0 (withNop i 0)) ∧
    (busy.ch 0).Raises 4095 (withC bundle0 0x01 ⟨8, 0xFF, 0, false, 0, 0, 1, 16⟩).bundle 3 0 :=
  ⟨by unfold State.Takes; decide +kernel, .inl ⟨rfl, rfl, rfl, by decide +kernel⟩⟩

/-- A bundle with one instruction of a slot, its operand fields zero. -/
def lone (slot : Fin 6) (op : BitVec 8) : Bundle :=
  match slot with
  | 0 => { Bundle.zero with cop := op }
  | 1 => { Bundle.zero with sop := op }
  | 2 => { Bundle.zero with lop := op }
  | 3 => { Bundle.zero with mop := op }
  | 4 => { Bundle.zero with vop := op }
  | 5 => { Bundle.zero with top := op }

/-- A bundle of nops alone is legal in every slot. -/
theorem zero_legal (k : Fin 6) : ¬IllegalIn Bundle.zero k := by
  match k with
  | 0 => unfold IllegalIn; decide +kernel
  | 1 => unfold IllegalIn; decide +kernel
  | 2 => unfold IllegalIn; decide +kernel
  | 3 => unfold IllegalIn; decide +kernel
  | 4 => unfold IllegalIn; decide +kernel
  | 5 => unfold IllegalIn; decide +kernel

/-- IllegalBundleHalts: a reserved opcode in the T slot; an mma with ARR = 0; a load that names the destination of the S slot. -/
theorem witness_illegal_opcode : bundleOf (.nop 0 0 ⟨lone 5 0x7F, [], []⟩) = some (0, ⟨lone 5 0x7F, [], []⟩) ∧
    (fetching ⟨lone 5 0x7F, [], []⟩ busy).mayIssue 0 = true ∧ (fetching ⟨lone 5 0x7F, [], []⟩ busy).fetched 0 = lone 5 0x7F ∧
    IllegalIn (lone 5 0x7F) 5 ∧ ∀ k < (5 : Fin 6), ¬IllegalIn (lone 5 0x7F) k := by
  refine ⟨by decide +kernel, by decide +kernel, by decide +kernel, by unfold IllegalIn; decide +kernel, fun k h => ?_⟩
  match k, h with
  | 0, _ => unfold IllegalIn; decide +kernel
  | 1, _ => unfold IllegalIn; decide +kernel
  | 2, _ => unfold IllegalIn; decide +kernel
  | 3, _ => unfold IllegalIn; decide +kernel
  | 4, _ => unfold IllegalIn; decide +kernel
theorem witness_illegal_type : IllegalIn (lone 3 0x01) 3 ∧ ∀ k < (3 : Fin 6), ¬IllegalIn (lone 3 0x01) k := by
  refine ⟨by unfold IllegalIn; decide +kernel, fun k h => ?_⟩
  match k, h with
  | 0, _ => unfold IllegalIn; decide +kernel
  | 1, _ => unfold IllegalIn; decide +kernel
  | 2, _ => unfold IllegalIn; decide +kernel
theorem witness_illegal_destination : IllegalIn { lone 1 0x01 with lop := 0x01 } 2 ∧ ∀ k < (2 : Fin 6), ¬IllegalIn { lone 1 0x01 with lop := 0x01 } k := by
  refine ⟨by unfold IllegalIn; decide +kernel, fun k h => ?_⟩
  match k, h with
  | 0, _ => unfold IllegalIn; decide +kernel
  | 1, _ => unfold IllegalIn; decide +kernel
theorem test_illegal_cause : ((after (.nop 0 0 ⟨lone 5 0x7F, [], []⟩) (fetching ⟨lone 5 0x7F, [], []⟩ busy)).ch 0).halt.map (fun h => (h.cause, h.slot, h.faultPc)) = some (2, 5, 0) := by decide +kernel

/-- PreciseCausesHalt: slot 0 at the last address, br.s past it, call on a full stack, ret on an empty one; then a misaligned ld.s, a load and a
store past local memory, mov.acc of row 1,024 and an mma of no row, each the lowest slot that raises a cause. -/
theorem witness_precise_control :
    (busy.ch 0).Raises 4095 (lone 1 0x01) 3 0 ∧ ((runs (scalars 4096 0 0 0)).ch 0).Raises 0 { lone 0 0x02 with c := ⟨0, 0, 0, false, 0, 0, 1, 0⟩ } 3 0 ∧
    ((runs fun k => { k with retStack := List.replicate 32 0 }).ch 0).Raises 0 (lone 0 0x03) 4 0 ∧ (busy.ch 0).Raises 0 (lone 0 0x04) 4 0 :=
  ⟨.inl ⟨rfl, rfl, rfl, by decide +kernel⟩, .inr (.inl ⟨rfl, rfl, by decide +kernel, rfl, by decide +kernel⟩),
    .inr (.inr (.inl ⟨rfl, rfl, by decide +kernel, .inl ⟨rfl, by decide +kernel⟩⟩)), .inr (.inr (.inl ⟨rfl, rfl, by decide +kernel, .inr ⟨rfl, by decide +kernel⟩⟩))⟩
theorem witness_precise_taken : (∀ k : Fin 6, ¬IllegalIn (lone 2 0x01) k) ∧
    let s := fetching ⟨lone 2 0x01, [], []⟩ (runs (scalars 1 0 0 0))
    s.fetched 0 = lone 2 0x01 ∧ s.waitsFor 0 (lone 2 0x01) ((s.ch 0).live (lone 2 0x01)) = .no := by
  refine ⟨fun k => ?_, by decide +kernel⟩
  match k with
  | 0 => unfold IllegalIn; decide +kernel
  | 1 => unfold IllegalIn; decide +kernel
  | 2 => unfold IllegalIn; decide +kernel
  | 3 => unfold IllegalIn; decide +kernel
  | 4 => unfold IllegalIn; decide +kernel
  | 5 => unfold IllegalIn; decide +kernel
/-- A chamber whose slots raise nothing before the L slot. -/
theorem raises_from_l (k : Chamber) (b : Bundle) (c n : Nat) (hc : b.cop = 0) (h : k.Raises 0 b c n) : 2 ≤ n := by
  unfold Chamber.Raises at h
  rcases h with ⟨_, _, h, _⟩ | ⟨_, _, _, h, _⟩ | ⟨_, _, _, ⟨h, _⟩ | ⟨h, _⟩⟩ | h | h | h | h | h | h | h
  · cases h
  · rw [hc] at h; cases h
  · rw [hc] at h; cases h
  · rw [hc] at h; cases h
  all_goals have := h.1; omega
theorem witness_precise_access :
    let s := runs (scalars 1 0 0 0)
    let b := { lone 2 0x01 with l := ⟨0, 0, 3, 1, 0, 0, false, 0⟩ }
    (s.ch 0).Raises 0 b 5 2 ∧ (∀ c n, (s.ch 0).Raises 0 b c n → 2 ≤ n) ∧ (s.ch 0).Raises 0 { lone 2 0x01 with l := ⟨0, 0, 3, 1, 0, 0, false, 0xFFFFF8⟩ } 3 2 :=
  ⟨.inr (.inr (.inr (.inl ⟨rfl, by decide +kernel, 8, 8, rfl, .inr ⟨rfl, by unfold Inside; decide +kernel⟩⟩))), fun _ _ => raises_from_l _ _ _ _ rfl,
    .inr (.inr (.inr (.inl ⟨rfl, by decide +kernel, 8, 8, rfl, .inl ⟨rfl, by unfold Inside; decide +kernel⟩⟩)))⟩
theorem test_precise_access :
    ((after (.ldS 0 ⟨0, 0, 3, 1, 0, 0, false, 0⟩ bundle0) (fetching (withL bundle0 0x01 ⟨0, 0, 3, 1, 0, 0, false, 0⟩) (runs (scalars 1 0 0 0)))).ch 0).halt.map (fun h => (h.cause, h.slot, h.nextPc))
    = some (5, 2, 0) := by decide +kernel

/-! ## Arrays, engine and control of a chamber -/

/-- An entry of the array queues: one vector of BF16 on array A and one on B, or a wsw. -/
def entry (wsw swap : Bool) : Mma :=
  { seq := 3, pc := 0, wsw := wsw, swap := swap, swapped := false, checked := true, bad := false, atype := 1, wtype := 1, zero := true, maskz := false
    msk := false, act := 0, rows := 2, acc := 5, mask := 0, pitch := 512, inA := true, inB := true, nextA := 0, endA := 1, nextB := 1, endB := 2, startB := 1 }

/-- Chamber 0 with an entry in its array queues, its shadow tile EMPTY, LOADING or READY. -/
def queued (m : Mma) (shadow : Nat) : State :=
  (runs fun k => { k with mmas := [m], active := ⟨1, [(0, 0x4040)]⟩, shadow := ⟨3, [(1, 7)]⟩, lmem := [(1, 0x40)] }).put (Reg.CHn_WTILE_SHADOW 0) shadow

/-- SwapMovesTheShadowTile: an mma and a wsw with the shadow in each state. -/
theorem witness_swap : ∀ wsw ∈ [true, false], ∀ shadow ∈ [0, 1, 2],
    let s := queued (entry wsw true) shadow
    (s.ch 0).head false = some (entry wsw true) ∧ (s.ch 0).head true = some (entry wsw true) ∧ (s.ch 0).interlocked (entry wsw true) = false ∧ s.held = false ∧
    s.get (Reg.CHn_WTILE_SHADOW 0) = shadow := by decide +kernel
theorem test_swap : ((after (.swap 0) (queued (entry true true) 2)).ch 0).active = ⟨3, [(1, 7)]⟩ ∧
    (after (.swap 0) (queued (entry true true) 2)).get (Reg.CHn_SWAP_COUNT_COUNT 0) = 1 := by decide +kernel

/-- VectorEntersAnArray: the next row of an entry, on each array; 6.0 from 2.0 times 3.0 in the column that the tile fills. -/
theorem witness_vector : ∀ b ∈ [true, false],
    let s := queued (entry false false) 0
    (s.ch 0).head b = some (entry false false) ∧ (s.ch 0).interlocked (entry false false) = false ∧ s.held = false ∧
    (entry false false).next b < (entry false false).last b ∧ windowRows (s.ch 0).active.bands ≠ [] := by decide +kernel
theorem test_vector : ((after (.vectorEntry 0 false [] []) (queued { entry false false with wtype := 1 } 0)).ch 0).inflightA.map (fun r => (r.row, r.vals.take 2))
    = [(5, [0x40C00000, 0])] := by decide +kernel

/-- AccumulatorRowIsWritten: a row of an integer pair, whose columns past 127 go to the next row, and one of FP32 sums. -/
def inRow (wide zero : Bool) (v : Lane) (n : Nat) : InRow := ⟨3, 0, 5, wide, zero, List.replicate n v, []⟩
theorem witness_acc_row : ∀ b ∈ [true, false], ∀ r ∈ [inRow true false 2 256, inRow false true 0x40000000 128, inRow false false 0x40000000 1],
    let s := runs fun k => { k with inflightA := [r], inflightB := [r, r] }
    (if b then (s.ch 0).inflightB else (s.ch 0).inflightA) = r :: (if b then [r] else []) ∧ r.vals.length ≤ (if r.wide then 256 else 128) ∧ r.vals ≠ [] := by
  decide +kernel
theorem test_acc_row : ((after (.accumulatorRowWrite 0 false []) (runs fun k => { k with inflightA := [inRow true false 2 256], accA := [(128 * 11 + 127, 5)] })).ch 0).accElem
    false 11 127 = 7 := by decide +kernel

/-- OperationsComplete: an operation with requests left, a store all of whose requests are answered, an mv, and a store whose pass overflowed. -/
theorem witness_operations : ∀ o ∈ [op0 .stT 0 1, { op0 .stT 0 1 with sent := true }, { op0 .stAcc 0 1 with sent := true, outs := [(128, [1, 2])] }, { op0 .mv 0 1 with sent := true, src := 64, len := 64 }],
    let s := runs fun k => { k with ops := [o], lmem := [(70, 9)] }
    (s.ch 0).ops[0]? = some o ∧ (s.liveCh 0).feedBlocked o.seq o.laddr o.len = false ∧ (∀ w ∈ o.outs, (s.liveCh 0).feedBlocked o.seq w.1 w.2.length = false) ∧
    (s.ch 0).resetting = false ∧ (s.ch 0).shadowOp ≠ some o.seq := by decide +kernel
theorem witness_rerun : ((runs fun k => { k with ops := [{ op0 .stAcc 0 1 with passEnd := true, ovf := true }] }).ch 0).nextOp
    = some { op0 .stAcc 0 1 with passEnd := true, ovf := true } := by decide +kernel
theorem test_mv : memByte ((after (.tagClear 0 ⟨0, []⟩) (runs fun k => { k with ops := [{ op0 .mv 0 1 with sent := true, src := 64, len := 64 }], lmem := [(70, 9)] })).ch 0).lmem 6 = 9 := by
  decide +kernel

/-- The worked example of R149: 256 rows of 11,264 elements, the local pitch 22,592 bytes and the footprint 5,783,552 bytes. -/
def tokens : BitVec 1024 := desc [0x0021000040000000, 0, 0, 0, 0x20, 0x0000000100002BFF, 0x00002C00000000FF]
theorem test_descriptor : dBad tokens = false ∧ dBelow tokens 0 1 = 11296 ∧ 2 * dTotal tokens 0 = 5783552 ∧
    (dVisit tokens 0 [] 11296).byte = 0x40000000 + 22528 ∧ (dVisit tokens 0 [] 11264).pad = true := by decide +kernel

/-- WeightTileBecomesReady: a raw load of eight rows of two elements; one whose record is malformed; one whose descriptor is bad. -/
def loading (o : AsyncOp) : State := (runs fun k => { k with ops := [o], shadowOp := some o.seq }).put (Reg.CHn_WTILE_SHADOW 0) 1
def load0 : AsyncOp := { op0 .ldW 0 1 with sent := true, begun := true, limit := 16, elems := [(0, 5)], desc := rows8 }
theorem witness_tile_ready : (∀ o ∈ [load0, { load0 with reason := 3 }, { load0 with desc := 0xF000000000000 }], ((loading o).ch 0).loadedOp = some o) ∧
    dBad load0.desc = false ∧ dList load0.desc = false ∧ mapSorted load0.elems = true ∧ dBad (0xF000000000000 : BitVec 1024) = true := by decide +kernel

/-- ChamberControl: each state but OFF, with an operation outstanding and without. -/
theorem witness_control : ∀ st ∈ [1, 2, 3, 4], (∀ ops ∈ [[], [op0 .stT 0 0]],
    let s := ((withF [(Reg.CHn_STATUS_STATE 0, st)]).modCh 0 fun k => { k with ops := ops })
    s.InRun ∧ s.flag Reg.SEC_BOOT_RECOVERY = false ∧ s.stepRuns = false ∧ s.chState 0 = st ∧ (s.ch 0).ops = ops ∧ (s.ch 0).resetting = false ∧ (s.ch 0).halt = none) := by
  unfold State.InRun; decide +kernel
theorem test_start : let t := after (.chamberStart 0 false 0xFFF [7, 8]) (withF [(Reg.CHn_STATUS_STATE 0, 4)])
    (t.chState 0, t.chPc 0, (t.ch 0).sreg 1, (t.ch 0).sreg 2, (t.ch 0).sreg 3) = (2, 0xFFF, 7, 8, 0) := by decide +kernel

/-- ChamberHalts: a recorded halt with the chamber drained and not; waits below, at and without their limit. -/
def halting (ops : List AsyncOp) : State := runs fun k => { k with halt := some ⟨9, 17, 18, 3, 2, 0, 0, 0, 0, 0⟩, ops := ops }
def waiting (limit cycle : Nat) : State :=
  { (withF [(Reg.CHn_STATUS_STATE 0, 3), (Reg.CHn_WAIT_LIMIT_LIMIT_US 0, limit)]).modCh 0 fun k => { k with waitSince := some ⟨100, 7, 1, false⟩ } with cycle := cycle }
theorem witness_halts :
    (∀ ops ∈ [[], [op0 .stT 0 0]], (halting ops).InRun ∧ ((halting ops).ch 0).halt = some ⟨9, 17, 18, 3, 2, 0, 0, 0, 0, 0⟩ ∧ ((halting ops).ch 0).ops = ops ∧
      ((halting ops).ch 0).resetting = false ∧ ((halting ops).ch 0).startNext = none ∧ (halting ops).loadLost 0 = false ∧ ((halting ops).ch 0).mmas = []) ∧
    (∀ e ∈ [(0, 1800), (1, 1799), (1, 1800)], (waiting e.1 e.2).InRun ∧ ((waiting e.1 e.2).ch 0).waitSince = some ⟨100, 7, 1, false⟩ ∧ (waiting e.1 e.2).chState 0 = 3 ∧
      (waiting e.1 e.2).get (Reg.CHn_WAIT_LIMIT_LIMIT_US 0) = e.1 ∧ (waiting e.1 e.2).sig 7 = 0 ∧ ((waiting e.1 e.2).ch 0).halt = none ∧
      ((waiting e.1 e.2).put (Reg.GLB_SIGn_VALUE 7) 1).sig 7 = 1) := by
  unfold State.InRun; decide +kernel
theorem test_halt : let t := after (.chamberHalt 0) (halting [])
    (t.chState 0, t.get (Reg.CHn_HALT_CAUSE 0), t.get (Reg.CHn_HALT_FAULT_PC 0), t.get (Reg.CHn_STATUS_RETIRE_PENDING 0)) = (4, 9, 17, 1) := by decide +kernel
theorem test_wait_timeout : ((after (.waitTimeout 0) (waiting 1 1799)).ch 0).halt = none ∧ (((after (.waitTimeout 0) (waiting 1 1800)).ch 0).halt.map (·.cause)) = some 6 ∧
    ((after (.waitTimeout 0) ((waiting 1 1800).put (Reg.GLB_SIGn_VALUE 7) 1)).ch 0).halt = none := by decide +kernel

/-- An operation of a kind on the eight rows, `p` positions of which are done. -/
def request (kind : AKind) (p : Nat) : AsyncOp :=
  { op0 kind 3 1 with desc := rows8, begun := true, count := 0, limit := 16, pos := p, laddr := 0xFFFF80 }

/-- Chamber 0 with an operation, and a region entry that maps address 0 on to itself, for reads alone or for writes too. -/
def requesting (o : AsyncOp) (valid rd wr : Nat) : State :=
  { (runs fun k => { k with ops := [o] }).puts [(Reg.CHn_RGNi_HI_VALID 0 0, valid), (Reg.CHn_RGNi_HI_RD 0 0, rd), (Reg.CHn_RGNi_HI_WR 0 0, wr)] with
    pages := [(0, .bonded 0)], mem := [(3, 9)] }

/-- DescriptorRequests: a bad descriptor; the eight rows in one granule, whole and from the last position, mapped, refused and outside every entry. -/
theorem witness_bad_descriptor : ∀ k ∈ [AKind.ldT, .stT, .stAdd], dBad (op0 k 3 1).desc = true ∧
    ((requesting (op0 k 3 1) 1 1 1).ch 0).nextOp = some (op0 k 3 1) := by decide +kernel
theorem witness_requests : ∀ kind ∈ [AKind.ldT, .stT, .stAdd], ∀ p ∈ [0, 15],
    let o := request kind p
    let s := requesting o 1 1 1
    (s.ch 0).nextOp = some o ∧ s.TakesRun 0 o (16 - p) ∧ (s.liveCh 0).feedBlocked o.seq (o.localSpan p 16).1 (o.localSpan p 16).2 = false ∧
    s.region 0 true true (o.granule p * 256) = .ok 0 ∧ s.claimed none 0 = false ∧ s.Readable 0 ∧ s.Writable 0 ∧ s.cachedLines 0 = [] ∧
    (requesting o 0 1 1).region 0 true false 0 = .noMatch ∧ (requesting o 1 0 0).region 0 true false 0 = .denied ∧
    (requesting o 1 0 0).region 0 false true 0 = .denied := by
  unfold State.TakesRun State.Readable State.Writable; decide +kernel

theorem test_request : memByte ((after (.descriptorRequest 0 ⟨[], [], .ok⟩) (requesting (request .ldT 0) 1 1 1)).ch 0).lmem 0xFFFF83 = 9 ∧
    (after (.descriptorRequest 0 ⟨[], [], .ok⟩) (requesting (request .ldT 0) 1 0 0)).get (Reg.CHn_VIOL_LAST_KIND 0) = 2 := by decide +kernel

/-! ## Registers and retirement -/

/-- RegisterWrites: chambers OFF, IDLE, running and in HALT; a step that runs; Siphon enabled. -/
def stepping : State := withF [(Reg.TRV_STATE_STATE, 2)]
theorem witness_registers :
    (∀ st ∈ [0, 1, 2, 4], (withF [(Reg.CHn_STATUS_STATE 27, st)]).InRun ∧ (withF [(Reg.CHn_STATUS_STATE 27, st)]).chState 27 = st) ∧
    (stepping.InRun ∧ stepping.stepRuns = true ∧ stepping.chState 0 = 1 ∧ quiet.stepRuns = false) ∧
    (1 : BitVec 27).toNat % 8 ≠ 0 ∧ (0x7FFFFFF : BitVec 27).toNat % 8 ≠ 0 ∧ (∀ e ∈ [Reg.CHn_EXC_INVALID 0, Reg.CHn_EXC_RERUN 0], quiet.get e ≤ 1) ∧
    (0 : Word).toNat % 2 ^ 16 ≠ quiet.get Reg.GLB_ID_PART ∧
    (withF [(Reg.SIP_CTL_ENABLE, 1)]).flag Reg.SIP_CTL_ENABLE = true ∧ (withF [(Reg.SIP_CTL_ENABLE, 1)]).InRun ∧ quiet.flag Reg.SIP_CTL_ENABLE = false := by
  unfold State.InRun; decide +kernel
theorem test_region_write : let t := after (.regionTableWrite 0 true 511 0xE000000000000001) quiet
    (t.get (Reg.CHn_RGNi_HI_TARGET 0 255), t.get (Reg.CHn_RGNi_HI_VALID 0 255), t.get (Reg.CHn_RGNi_HI_RD 0 255), t.get (Reg.CHn_RGNi_HI_WR 0 255)) = (1, 1, 1, 1) := by
  decide +kernel
theorem test_reserved_write : (after (.registerWrite 0x48 (.write 8 0)) quiet).get Reg.GLB_VIOL_LAST_KIND = 1 ∧
    (after (.registerWrite 0 (.write 8 0)) quiet).get Reg.GLB_VIOL_LAST_KIND = 2 ∧ (after (.registerWrite 0x50 (.read 8)) quiet).get Reg.GLB_VIOL_LAST_KIND = 1 ∧
    (after (.registerWrite 0x30 (.read 4)) quiet).get Reg.GLB_VIOL_COUNT_COUNT = 1 := by decide +kernel
/-- Bundle memory read back through its window; a word of the MSI-X table; an HDM decoder of two ways committed, and one of 16 ways not. -/
theorem test_windows : (after (.registerWrite 0x1080008 (.read 8)) (after (.bundleWindowWrite 0 1 0x0102030405060708) quiet)).hostReply.1 = [8, 7, 6, 5, 4, 3, 2, 1] ∧
    mapGet 0 (after (.registerWrite 0x10008 (.bar2Write 8 77)) quiet).irq.table 1 = 77 ∧
    (after (.registerWrite 0 (.decoder 1 0x10000000 0x10000000 0 1 true)) quiet).decoders[1] = ⟨0x10000000, 0x10000000, 0, 1, true⟩ ∧
    (after (.registerWrite 0 (.decoder 1 0x10000000 0x10000000 0 5 true)) quiet).decoders[1].committed = false := by decide +kernel

/-- ChamberRetirement: chamber 23 is to be retired, by mark or after HWFAULT, and chambers 24 to 27 are spares; a keeper whose service runs on chamber 0. -/
def retiring (l : List (FieldRef × Nat)) : State := (withF [(Reg.CHn_STATUS_RETIRE_PENDING 23, 1)]).puts l
def keeper0 : State := withF ([(Reg.CHn_STATUS_RETIRE_PENDING 0, 1), (Reg.GLB_ROLE_KEEPER, 1)] ++ (List.range 24).map fun n => (Reg.CHn_STATUS_STATE n, if n = 0 then 1 else 0))
theorem witness_retirement :
    (∀ s ∈ [retiring [], retiring [(Reg.CHn_STATUS_STATE 23, 4), (Reg.CHn_HALT_CAUSE 23, 9)]], s.held = false ∧ s.devFailed = false ∧
      s.get Reg.GLB_CHMAP_ENABLED < 2 ^ 28 ∧ s.get Reg.GLB_CHMAP_RETIRED < 2 ^ 28 ∧ s.toRetire 23 = true ∧ s.flag Reg.GLB_ROLE_KEEPER = false ∧
      s.stepRuns = false ∧ s.flag Reg.GLB_ROLE_TWIN = false ∧ (∀ m < 23, s.toRetire m = false) ∧ s.Spare 25 ∧ (∀ q < 25, s.Spare q → q = 24)) ∧
    ((0x1000000 : BitVec 28).getLsbD 24 = true ∧ (0x1000000 : BitVec 28).getLsbD 25 = false) ∧
    (keeper0.toRetire 0 = true ∧ keeper0.flag Reg.GLB_ROLE_KEEPER = true ∧ keeper0.kprChamber = some 0 ∧ keeper0.kpr = none ∧ keeper0.kprPeer = none ∧
      bit (keeper0.get Reg.GLB_CHMAP_ENABLED) 1 = true ∧ keeper0.Spare 27) := by
  unfold State.Spare; decide +kernel
theorem witness_no_spare (q : Nat) (h : (retiring []).Spare q) : (0xF000000 : BitVec 28).getLsbD q = true := by
  unfold State.Spare at h
  have h' : ∀ q < 28, bit ((retiring []).get Reg.GLB_CHMAP_ENABLED) q = false → (0xF000000 : BitVec 28).getLsbD q = true := by decide +kernel
  exact h' q h.1 h.2.1
theorem test_retirement : let t := after (.chamberRetirement 0x1000000) (retiring [])
    (t.chState 23, t.chState 25, t.get (Reg.CHn_STATUS_LOGICAL 25), t.get Reg.GLB_CHMAP_RETIRED, t.get Reg.GLB_CHMAP_ENABLED) = (0, 1, 23, 0x1800000, 0x27FFFFF) := by
  decide +kernel

/-! ## The coder and Siphon -/

/-- Chamber 0's coder with a job posted: its record at address 0, the source's descriptor at 0x400, a code table at 0x800, the source at 0x1000. -/
def coding (rec : List Nat) : State :=
  holding (withF [(Reg.CHn_RGNi_HI_VALID 0 0, 1), (Reg.CHn_RGNi_HI_RD 0 0, 1), (Reg.CHn_RGNi_HI_WR 0 0, 1), (Reg.CHn_XC_CTL_ENABLE 0, 1), (Reg.CHn_XC_CTL_JOB_SIG 0, 4095),
    (Reg.GLB_SIGn_VALUE 4095, 1)]) [(0, rec), (0x400, [0x0021000000001000, 0, 0, 0, 0, 0x0000000100000001, 0x0000000200000007]), (0x800, [0x700000113, 0x7F]), (0x1000, [0x3F803F803F80])]
def coderRec (op : Nat) : List Nat := [op + 8 * 2 ^ 8 + 9 * 2 ^ 32, 0x400, 0x800, 0x2000, 0x3000, 1, 17]

theorem witness_coder_enable : (stepping.InRun ∧ stepping.stepRuns = true ∧ stepping.get (Reg.CHn_STATUS_STATE 0) = 1) ∧ quiet.stepRuns = false ∧ quiet.InRun ∧ quiet.get (Reg.CHn_XC_CTL_ENABLE 0) = 0 ∧ quiet.get (Reg.CHn_STATUS_STATE 0) ≠ 0 ∧
    quiet.get (Reg.CHn_XC_CTL_JOB_SIG 0) < 4096 := by
  unfold State.InRun; decide +kernel
theorem witness_coder_jobs : ∀ op ∈ [1, 2, 3],
    let s := coding (coderRec op)
    let u := (s.chRead 0 (s.coderAddr 0) 64).2.2.2
    s.InRun ∧ s.coderReady 0 = true ∧ (s.chRead 0 (s.coderAddr 0) 64).2.1 = false ∧ coderReservedOk (recWords (s.chRead 0 (s.coderAddr 0) 64).1 8) = true ∧
    recBits (recWords (s.chRead 0 (s.coderAddr 0) 64).1 8) 0 3 0 = op ∧
    (u.srcDesc 0 0x400).1 = 1 ∧ (u.chRead 0 0x800 64).2.1 = false ∧ tableGood (u.chRead 0 0x800 64).1 = true ∧
    bits (wordAt (u.chRead 0 0x800 64).1 0) 7 4 = dType (u.srcDesc 0 0x400).2.1 ∧ (u.srcWalk 0 (u.srcDesc 0 0x400).2.1 0 [] 1024 0 none).2.1 = none ∧
    (u.coderList 0 (u.srcDesc 0 0x400).2.1).1 = false := by
  unfold State.InRun; decide +kernel
theorem witness_coder_head : ∃ ws u, (coding (coderRec 2)).CoderHead 0 ws u :=
  ⟨_, _, coder_head _ _ (by decide +kernel) (by decide +kernel)⟩
theorem test_build : memRead (after (.build 0) (coding (coderRec 1))).mem 0x800 10 = [19, 2, 0, 0, 9, 0, 0, 0, 0, 127] := by decide +kernel
theorem witness_coder_bad : coderReservedOk [0x21, 0, 0, 0, 0, 0, 0, 0] = false := by decide +kernel
theorem witness_table_slot : ∀ slot ∈ [0, 1],
    let s := (coding (coderRec 3)).modCh 0 fun k => { k with tableLoad := some ⟨slot, leBytes 8 0x700000113 ++ zeroBytes 56, 0, 4095⟩ }
    s.InRun ∧ (s.ch 0).tableLoad = some ⟨slot, leBytes 8 0x700000113 ++ zeroBytes 56, s.coderAddr 0, 4095⟩ ∧ s.flag (slotQueued 0 slot) = false := by
  unfold State.InRun; decide +kernel

/-- Siphon with one job posted, its record at address 0: the expert table of one expert at 0x400, the combine area at 0x800, returned rows at 0x1000. -/
def siphon (rec : List Nat) : State :=
  holding (withF [(Reg.SIP_CTL_ENABLE, 1), (Reg.SIP_CTL_JOB_SIG, 4095), (Reg.GLB_SIGn_VALUE 4095, 1)])
    [(0, rec), (0x400, [0x80FF000000000600, 0x700, 0x1000, 18]), (0x800, [0, 0]), (0x840, [0x800000003F000000]), (0x1000, [0x4000])]

/-- A route job of one token and one choice, and one whose T is 0; a combine of one token to address 0x2000, and one that waits for a signal. -/
def routeRec (t : Nat) : List Nat := [1 + 16 + 2 ^ 8 + t * 2 ^ 32, 0x1000, 0, 0x400, 0x800, 0, 0, 0, 17]
def combineRec (wait : Nat) : List Nat := [2 + 16 + 2 ^ 8 + 2 ^ 32, 0x2000, 0, 0x400, 0x800, 0, 0, 0, 17 + 5 * 2 ^ 16 + wait * 2 ^ 28 + 2 ^ 32]

/-- A job's record that is read with no poison is what an engine finds at its ring. -/
theorem siphon_head (s : State) (eng j : Nat) (h : s.siphonRuns = true) (e : s.siphonEnding eng = false)
    (f : s.siphonFind eng (s.get Reg.SIP_RING_ENTRIES_M1 + 1 + (s.ring eng).skips.length) (s.ring eng).taken = some j)
    (p : (s.read (ringAddr (s.get Reg.SIP_RING_BASE / 128 * 128) (s.get Reg.SIP_RING_ENTRIES_M1) 128 j) 128).2.1 = false) :
    let r := s.read (ringAddr (s.get Reg.SIP_RING_BASE / 128 * 128) (s.get Reg.SIP_RING_ENTRIES_M1) 128 j) 128
    s.SiphonHead eng j (ringAddr (s.get Reg.SIP_RING_BASE / 128 * 128) (s.get Reg.SIP_RING_ENTRIES_M1) 128 j) (recWords r.1 16) r.2.2 := by
  refine ⟨h, e, f, rfl, (s.read (ringAddr (s.get Reg.SIP_RING_BASE / 128 * 128) (s.get Reg.SIP_RING_ENTRIES_M1) 128 j) 128).1, ?_, rfl⟩
  revert p
  generalize s.read (ringAddr (s.get Reg.SIP_RING_BASE / 128 * 128) (s.get Reg.SIP_RING_ENTRIES_M1) 128 j) 128 = r
  rcases r with ⟨x, y, z⟩
  intro p; cases p; rfl
theorem witness_siphon_head : ∃ a ws u, (siphon (routeRec 1)).SiphonHead 0 0 a ws u :=
  ⟨_, _, _, siphon_head _ _ _ (by decide +kernel) (by decide +kernel) (by decide +kernel) (by decide +kernel)⟩
theorem witness_siphon :
    (∀ s ∈ [quiet, stepping], s.InRun ∧ s.get Reg.SIP_PROGRESS_ROUTE_DONE < 2 ^ 32 ∧ s.get Reg.SIP_PROGRESS_COMBINE_DONE < 2 ^ 32 ∧ (s.stepRuns = true ↔ s = stepping)) ∧
    (quiet.get Reg.SIP_CTL_ENABLE = 0 ∧
      quiet.get Reg.SIP_CTL_JOB_SIG < 4096) ∧
    (∀ e ∈ [(0, routeRec 0), (0, routeRec 1), (1, combineRec 0), (1, combineRec 1)],
      let s := siphon e.2
      let u := (s.read 0 128).2.2
      s.InRun ∧ s.siphonRuns = true ∧ s.siphonFind e.1 1 0 = some 0 ∧ (s.read 0 128).2.1 = false ∧ recWords (s.read 0 128).1 16 = e.2 ++ List.replicate 7 0 ∧
      (e.1 = 0 → (u.route 0 e.2).1 = (if e.2 = routeRec 0 then 2 else 1)) ∧ (e.1 = 1 → (u.combine e.2).1 = 1)) := by
  unfold State.InRun; decide +kernel
theorem witness_siphon_waits : recBits (combineRec 1) 8 28 28 = 1 ∧ (siphon (combineRec 1)).sig (recBits (combineRec 1) 8 27 16) < recBits (combineRec 1) 8 63 32 := by
  decide +kernel
/-- The one carried token of the combine job: its entry valid, by expert 0, not dropped, the other ranks empty; its row and header read without poison. -/
theorem witness_combine_row :
    let ws := combineRec 0
    let s := siphon ws
    recBits ws 0 7 4 ≤ 2 ∧ recBits ws 0 11 8 ≤ 2 ∧ recBits ws 0 47 32 = 1 ∧ recBits ws 0 12 12 = 0 ∧ (s.read 0x800 16).2.1 = false ∧
    wordAt (s.read 0x800 16).1 1 % 2 ^ 24 = 0 ∧ (s.read 0x840 64).2.1 = false ∧ bit (wordAt (s.read 0x840 64).1 0) 63 = true ∧
    bits (wordAt (s.read 0x840 64).1 0) 62 61 ≤ 1 ∧ (∀ r < 8, 1 ≤ r → bit (wordAt (s.read 0x840 64).1 r) 63 = false) ∧
    (s.returned ws (bits (wordAt (s.read 0x840 64).1 0) 55 48) (bits (wordAt (s.read 0x840 64).1 0) 47 32)).2.2.1 = false := by decide +kernel
theorem test_combine : memRead (after .combine (siphon (combineRec 0))).mem 0x2000 2 = [0x80, 0x3F] ∧ (after .combine (siphon (combineRec 0))).sig 17 = 1 := by decide +kernel

/-- BondedControllers: an address of the bonded tier that nothing holds back, poisoned and not; the layer sensors; rows below and at 16 errors. -/
def bonded (bad : Bool) : State := { holding quiet [] with poison := if bad then [(0, true)] else [] }
theorem witness_bonded :
    (∀ bad ∈ [true, false], (bonded bad).bondedAddr 0 = some 0 ∧ (bonded bad).claimed none 0 = false ∧ (bonded bad).poisoned 0 = bad ∧ (bonded bad).BondedOpen 0 ∧ (bonded bad).BondedOpen 255 ∧ (bonded bad).InRun) ∧
    (∀ l ∈ [8, 12], (quiet.put Reg.GLB_ID_LAYERS l).get Reg.HLC_TEMP_HOT_LAYERS < 2 ^ 12 ∧ (quiet.put Reg.GLB_ID_LAYERS l).get Reg.GLB_ID_LAYERS = l) ∧
    (∀ e ∈ [(15, 0), (16, 196), (16, 197), (16, 198)], let s := { quiet with rowErr := [(rowKey (1151 * 16 + 15) 2047, e.1)], rowMoved := [(1151 * 16 + 15, e.2)] }
      mapGet 0 s.rowErr (rowKey (1151 * 16 + 15) 2047) = e.1 ∧ mapGet 0 s.rowMoved (1151 * 16 + 15) = e.2 ∧ s.holdsRow 1151 15 = false) := by
  unfold State.BondedOpen State.InRun; decide +kernel
theorem test_bonded_poison : (after (.bondedRead 0 3 .double) (bonded false)).poisoned 0 = true ∧ (after (.bondedRead 0 3 .double) (bonded false)).get Reg.HLC_ECC_CORRECTED = 3 := by
  decide +kernel
theorem test_merge : memRead (after (.partialWriteMerge 0 ⟨254, 3, .none⟩ [1, 2]) (bonded false)).mem 253 4 = [0, 1, 2, 0] ∧
    (after (.partialWriteMerge 0 ⟨254, 3, .none⟩ [1, 2]) (bonded false)).get Reg.HLC_ECC_CORRECTED = 3 ∧
    (after (.partialWriteMerge 0 ⟨254, 0, .double⟩ [1, 2]) (bonded false)).poisoned 0 = true ∧
    (after (.partialWriteMerge 0 ⟨254, 0, .none⟩ [1, 2]) (bonded true)).mem = [] := by
  decide +kernel
theorem test_hot_layer : (after (.refreshRateChange 11 1361) quiet).get Reg.HLC_TEMP_HOT_LAYERS = 0x800 ∧ (after (.refreshRateChange 11 1360) quiet).get Reg.HLC_TEMP_HOT_LAYERS = 0 ∧
    (after (.refreshRateChange 8 1361) (quiet.put Reg.GLB_ID_LAYERS 8)).get Reg.HLC_TEMP_HOT_LAYERS = 0 := by
  decide +kernel
theorem test_row_move : (after (.rowMove 1151 15 2047) { quiet with rowErr := [(rowKey (1151 * 16 + 15) 2047, 16)] }).get Reg.HLC_REPAIR_MIN_FREE = 197 ∧
    (after (.rowMove 1151 15 2047) { quiet with rowErr := [(rowKey (1151 * 16 + 15) 2047, 16)], rowMoved := [(1151 * 16 + 15, 197)] }).get Reg.HLC_REPAIR_EXHAUSTED = 1 := by decide +kernel
theorem test_scrub : (after (.patrolScrub 0x8000000000 3 .none) (bonded false)).rowErr = [(rowKey ((bonded false).bankKey 0) 1821, 3)] := by decide +kernel

/-! ## Helictites -/

/-- Helictite 1151 runs, changed by a function. -/
def helRuns (f : Hel → Hel) : State := quiet.setHel 1151 (f { Hel.reset with running := true })

/-- The instruction with an opcode and operands stands at its PC. -/
def standing (op : BitVec 8) (o : HOps) (s : State) : State := s.setHel 1151 { s.hel 1151 with prog := [(0, wordH op o)] }

/-- Every opcode of the instruction set, with operands at both ends of their ranges; a reserved one. -/
theorem witness_hel_at : (∀ op < 0x69, (hopOk (BitVec.ofNat 8 op) = true → ∀ o ∈ [(⟨0, 0, 0, 0, 0, 0⟩ : HOps), ⟨15, 15, 15, 15, 0xFF, -1⟩],
      (standing (BitVec.ofNat 8 op) o (helRuns id)).HelAt 1151 (BitVec.ofNat 8 op) o)) ∧
    (∀ op ∈ [(0x08 : BitVec 8), 0x0F, 0x1D, 0x26, 0x3F, 0x49, 0x52, 0x57, 0x63, 0x69, 0xFF], ReservedH op ∧ ((standing op ⟨0, 0, 0, 0, 0, 0⟩ (helRuns id)).helWord 1151).1 = op) := by
  unfold State.HelAt ReservedH; decide +kernel

/-- The statements about a ready helictite: it runs, its program has not ended, and a claim of it is in effect or there is none. -/
def claim0 (effect : Bool) : Claim := ⟨1151, 0, 0x3FFFFFFFFF, [3, 15], effect, [(3, 7)], [], []⟩
theorem witness_ready : (helRuns id).helReady 1151 = true ∧ { helRuns id with claims := [claim0 true] }.helReady 1151 = true ∧
    { helRuns id with claims := [claim0 false] }.helReady 1151 = false := by decide +kernel
theorem test_divu_zero : ((after (.hDivu 1151 ⟨5, 1, 2, 0, 0, 0⟩) (standing 0x1B ⟨5, 1, 2, 0, 0, 0⟩ (helRuns id))).hel 1151).x 5 = 0xFFFFFFFFFFFFFFFF ∧
    ((after (.hRemu 1151 ⟨5, 1, 2, 0, 0, 0⟩) (standing 0x1C ⟨5, 1, 2, 0, 0, 0⟩ (helRuns fun h => h.setX 1 7))).hel 1151).x 5 = 7 := by decide +kernel
theorem test_x0 : ((after (.hAddi 1151 ⟨0, 1, 2, 0, 0, 9⟩) (standing 0x18 ⟨0, 1, 2, 0, 0, 9⟩ (helRuns id))).hel 1151).x 0 = 0 ∧
    ((after (.hAddi 1151 ⟨1, 1, 2, 0, 0, -1⟩) (standing 0x18 ⟨1, 1, 2, 0, 0, -1⟩ (helRuns id))).hel 1151).x 1 = -1 ∧
    ((after (.hAddi 1151 ⟨0, 1, 2, 0, 0, 9⟩) (standing 0x08 ⟨0, 1, 2, 0, 0, 9⟩ (helRuns id))).hel 1151).ended = some ⟨4, 0, 0⟩ := by
  decide +kernel
theorem test_dbnz : ((after (.hDbnz 1151 ⟨0, 1, 0, 0, 0, 9⟩) (standing 0x06 ⟨0, 1, 0, 0, 0, 9⟩ (helRuns fun h => h.setX 1 1))).hel 1151).pc = 1 ∧
    ((after (.hDbnz 1151 ⟨0, 1, 0, 0, 0, 9⟩) (standing 0x06 ⟨0, 1, 0, 0, 0, 9⟩ (helRuns fun h => h.setX 1 2))).hel 1151).pc = 9 := by decide +kernel

/-- HelictiteScratch: the last bytes of the scratchpad, aligned; past it and misaligned; a granule operation of the slot outstanding. -/
def atX (a : Word) : State := helRuns fun h => h.setX 1 a
theorem witness_scratch :
    (∀ e ∈ [(1984, 64), (2016, 32), (2040, 8)], ∀ st ∈ [true, false], ((atX (BitVec.ofNat 64 e.1)).hel 1151).Scratch ⟨2, 1, 3, 0, 0x11, 0⟩ e.2 st) ∧
    (((atX 2048).hel 1151).at ⟨2, 1, 3, 0, 0, 0⟩ = 2048 ∧ ((atX 4).hel 1151).at ⟨2, 1, 3, 0, 0, 0⟩ % 8 ≠ 0 ∧ ((atX 0).hel 1151).at ⟨2, 1, 3, 0, 0, -8⟩ = 2 ^ 64 - 8) ∧
    (∀ w ∈ [true, false], let h := (helRuns fun h => { h.setX 1 1984 with ops := [⟨w, 7, none, 0⟩] }).hel 1151
      h.at ⟨2, 1, 3, 0, 1, 0⟩ % 64 = 0 ∧ h.at ⟨2, 1, 3, 0, 1, 0⟩ + 64 ≤ 2048 ∧ ∃ p ∈ h.ops, p.write = w ∧ p.slot = h.at ⟨2, 1, 3, 0, 1, 0⟩ / 256) := by
  unfold Hel.Scratch; decide +kernel

/-- HelictiteGranules: an aligned address and one that is not; eight operations outstanding; a wg of the slot; claims with and without effect,
one for which an access has waited 3,200 cycles, one whose bank is owed four refreshes. -/
theorem witness_granule_ops :
    (((atX 0x100).hel 1151).at ⟨0, 1, 0, 0, 7, 0⟩ % 256 = 0 ∧ ((atX 0x80).hel 1151).at ⟨0, 1, 0, 0, 7, 0⟩ % 256 ≠ 0) ∧
    (∀ w ∈ [true, false], ((helRuns fun h => { h with ops := List.replicate 8 ⟨w, 7, none, 0⟩ }).hel 1151).ops.length = 8) ∧
    (∃ p ∈ ((helRuns fun h => { h with ops := [⟨true, 7, none, 0⟩] }).hel 1151).ops, p.write = true ∧ p.slot = 7) := by decide +kernel
theorem witness_claims :
    (∀ e ∈ [true, false], { helRuns id with claims := [claim0 e] }.claimOf 1151 = some (claim0 e) ∧ { helRuns id with claims := [claim0 e] }.held = false ∧
      { helRuns id with claims := [claim0 e] }.claimLines (claim0 e) = []) ∧
    (∀ b ∈ (claim0 true).banks, b < 16) ∧
    (let c := { claim0 true with waiting := [⟨77, 15, 100⟩] }
     ∀ e ∈ [(3299, []), (3300, [15])], let s := { helRuns id with claims := [c], cycle := e.1 }
       s.claimOf 1151 = some c ∧
       (c.banks.filter fun b => decide ((∃ w ∈ c.waiting, w.bank = b ∧ w.since + 3200 ≤ s.cycle) ∨ mapGet 0 s.refreshOwed (1151 * 16 + b) = 4)) = e.2) ∧
    (let s := { helRuns id with claims := [claim0 true], refreshOwed := [(1151 * 16 + 15, 4)] }
     ∃ b ∈ (claim0 true).banks, mapGet 0 s.refreshOwed (1151 * 16 + b) = 4) := by decide +kernel
theorem test_forced_boundary : (after (.forcedRowBoundary 1151) { helRuns id with claims := [claim0 true], refreshOwed := [(1151 * 16 + 15, 4)] }).refreshOwed = [] := by
  decide +kernel

/-- An operation completes: foreign, on a granule that may be used at once, on a poisoned one. -/
def completing (w : Bool) (a : Option Nat) (bad : Bool) : State :=
  { holding (helRuns fun h => { h with ops := [⟨w, 7, a, 0⟩], scratch := [(1792, 5)] }) [(0, [9])] with cycle := 48, poison := if bad then [(0, true)] else [] }
theorem witness_completes : ∀ w ∈ [true, false], ∀ a ∈ [none, some 0], ∀ bad ∈ [true, false],
    let s := completing w a bad
    s.held = false ∧ (s.hel 1151).Completes w 7 ⟨w, 7, a, 0⟩ [] ∧ s.Enters 1151 0 ∧ s.populated 0 = true ∧ s.sealedAt 0 = false ∧ s.poisoned (granuleOf 0) = bad ∧
    (bad = false → s.Readable 0) ∧ s.peerClosed 0 = false ∧ (s.frameOf (pageOf 0)).isSome = true ∧ s.cachedLines (granuleOf 0) = [] ∧ (s.hel 1151).ended = none := by
  have go : ∀ w ∈ [true, false], ∀ a ∈ [none, some 0], ∀ bad ∈ [true, false],
      let s := completing w a bad
      s.held = false ∧ (s.hel 1151).ops = [⟨w, 7, a, 0⟩] ∧ (s.claimed (some 1151) 0 = false ∧ s.claimOf 1151 = none) ∧ s.populated 0 = true ∧ s.sealedAt 0 = false ∧
      s.poisoned (granuleOf 0) = bad ∧ (bad = false → s.Readable 0) ∧ s.peerClosed 0 = false ∧ (s.frameOf (pageOf 0)).isSome = true ∧
      s.cachedLines (granuleOf 0) = [] ∧ (s.hel 1151).ended = none := by
    unfold State.Readable; decide +kernel
  intro w hw a ha bad hb
  obtain ⟨h1, h2, ⟨h3, h4⟩, h5⟩ := go w hw a ha bad hb
  refine ⟨h1, ⟨[], [], h2, rfl, rfl, rfl, ?_⟩, ⟨h3, ?_⟩, h5⟩
  · intro q hq; cases hq
  · intro c _ hc; rw [h4] at hc; cases hc
theorem test_completes : memByte ((after (.hRgComplete 1151 7) (completing false (some 0) false)).hel 1151).scratch 1792 = 9 ∧
    memByte (after (.hWgComplete 1151 7) (completing true (some 0) true)).mem 0 = 5 := by decide +kernel

/-- HelictiteExchange: queues with room and a full one; a word and none to take; a wait past its limit, at it, and without one. -/
theorem witness_exchange :
    (∀ m < 1152, ((helRuns id).hel m).queue.length < 32) ∧
    (let s := (helRuns fun h => h.setX 1 94).setHel 1150 { Hel.reset with queue := List.replicate 32 1 }
     s.helReady 1151 = true ∧ s.hasBus 1151 = true ∧ { s with xbus := [(11, (0, 1))] }.hasBus 1151 = false ∧ 1150 / 96 = 1151 / 96 ∧ 1150 % 96 = (((s.hel 1151).x 1).setWidth 7).toNat ∧ 32 ≤ (s.hel 1150).queue.length) ∧
    (((helRuns fun h => { h with queue := [7] }).hel 1151).queue = [7] ∧ ((helRuns id).hel 1151).queue = []) ∧ (helRuns id).InRun ∧
    (∀ e ∈ [(2, 3501), (2, 3500), (0, 9999)], let s := { (helRuns fun h => { h with xrecvAt := some 100 }).put Reg.HLC_CTL_TIMEOUT_US e.1 with cycle := e.2 }
      (s.hel 1151).xrecvAt = some 100 ∧ s.held = false ∧ s.get Reg.HLC_CTL_TIMEOUT_US = e.1) := by
  unfold State.InRun; decide +kernel
theorem test_xsend : let t := after (.hXsend 1151 ⟨0, 1, 2, 0, 0, 0⟩) (standing 0x60 ⟨0, 1, 2, 0, 0, 0⟩ (helRuns fun h => h.setX 1 0x7F))
    (t.hel 1056).queue = [0] ∧ (t.hel 1151).queue = [] ∧ (t.hel 1055).queue = [] := by decide +kernel

/-- A helictite job of the ring at address 0, and one of the internal queue behind `b` jobs of the ring, with its image at 0x400. -/
def hlc (rec : List Nat) (b : Nat := 0) : State :=
  { holding (withF [(Reg.HLC_CTL_ENABLE, 1), (Reg.HLC_CTL_JOB_SIG, 4095), (Reg.GLB_SIGn_VALUE 4095, 1)]) [(0, rec), (0x400, [1]), (0x440, [0x0102030405060708])] with
    hlcQueue := [⟨7, rec, b⟩] }

/-- Records: every helictite of layer 11 at shaft 95; of no layer; of a layer that is absent; with an image of no instruction; an image too short. -/
def hlcRec (layers shafts image : Nat) : List Nat := [5 + layers * 2 ^ 24 + 17 * 2 ^ 36, 0, shafts, image, 10, 11, 12, 13]
theorem hlc_ring (s : State) (h : s.get Reg.HLC_CTL_ENABLE = 1) (p : (s.ring 2).v0 + (s.ring 2).taken + 1 ≤ s.sig (s.get Reg.HLC_CTL_JOB_SIG))
    (b : ∀ q, s.hlcQueue.head? = some q → (s.ring 2).taken < q.behind)
    (q : (s.read (ringAddr (s.get Reg.HLC_RING_BASE) (s.get Reg.HLC_RING_ENTRIES_M1) 64 (s.ring 2).taken) 64).2.1 = false) :
    ∃ ws ra u, s.HlcHead .ring ws ra 0 (s.ring 2).taken u := by
  revert q
  generalize e : s.read (ringAddr (s.get Reg.HLC_RING_BASE) (s.get Reg.HLC_RING_ENTRIES_M1) 64 (s.ring 2).taken) 64 = r
  rcases r with ⟨x, y, z⟩
  intro q; cases q
  exact ⟨_, _, _, h, b, rfl, p, rfl, _, _, _, rfl, rfl, e, rfl, rfl⟩
theorem witness_hlc_heads : (∃ ws ra u, (hlc (hlcRec 0x800 0x80000000 0x400) 1).HlcHead .ring ws ra 0 0 u) ∧
    ∃ ws ra u, (hlc (hlcRec 0x800 0x80000000 0x400)).HlcHead .queue ws ra 7 (2 ^ 32 + 7) u :=
  ⟨hlc_ring _ (by decide +kernel) (by decide +kernel) (fun q h => by cases h; decide +kernel) (by decide +kernel),
    _, _, _, by decide +kernel, _, _, rfl, by decide +kernel, rfl, rfl, rfl, rfl, rfl⟩
theorem witness_hlc_jobs :
    (quiet.InRun ∧ quiet.get Reg.HLC_CTL_ENABLE = 0 ∧ quiet.get Reg.HLC_CTL_JOB_SIG < 4096 ∧ (hlc (hlcRec 0x800 0x80000000 0x400)).InRun) ∧
    (hlcTargets (hlcRec 0x800 0x80000000 0x400) = [1151] ∧ recBits (hlcRec 0x800 0x80000000 0x400) 0 35 24 < 2 ^ quiet.get Reg.GLB_ID_LAYERS ∧
      hlcTargets (hlcRec 0 0x80000000 0x400) = [] ∧ 2 ^ (withF [(Reg.GLB_ID_LAYERS, 8)]).get Reg.GLB_ID_LAYERS ≤ recBits (hlcRec 0x800 0x80000000 0x400) 0 35 24) ∧
    (let s := hlc (hlcRec 0x800 0x80000000 0x400)
     (s.hlcImage 0x400 1).2.2.2.1 = false ∧ (s.hlcImage 0x400 1).1 = 1 ∧ (s.hlcImage 0x800 1).1 = 0 ∧ (s.hlcImage 0x800 1).2.2.2.1 = false ∧
     (s.hel 1151).running = false ∧ s.heldMoves [] = false ∧ ((s.setHel 1151 { Hel.reset with running := true }).hel 1151).running = true) ∧
    (let s := { (quiet.setHel 1151 { Hel.reset with ended := some ⟨4, 3, 0⟩ }).setHel 0 { Hel.reset with ended := some ⟨1, 3, 0⟩ } with hlcJobs := [⟨3, none, 7, 17, [0, 1151], [], none, 0⟩] }
     s.hlcJobs[0]? = some ⟨3, none, 7, 17, [0, 1151], [], none, 0⟩ ∧ ∀ m ∈ [0, 1151], (s.hel m).ended ≠ none ∧ (s.hel m).ops = []) := by
  unfold State.InRun; decide +kernel
theorem test_hlc_start : let t := after (.helictiteJobStart .ring) (hlc (hlcRec 0x800 0x80000000 0x400) 1)
    ((t.hel 1151).running, (t.hel 1151).x 1, (t.hel 1151).x 2, (t.hel 1151).x 6, mapGet 0 (t.hel 1151).prog 0) = (true, 95, 11, 13, 0x0102030405060708) := by decide +kernel
theorem test_hlc_bad : (after (.helictiteJobStart .queue) (hlc (hlcRec 0 0x80000000 0x400))).hlcDone = [(7, 2)] ∧
    memByte (after (.helictiteJobStart .ring) (hlc (hlcRec 0x800 0x80000000 0x800) 1)).mem 7 = 2 := by decide +kernel

/-! ## Flowstone -/

/-- An object of one page, bonded or on a cartridge in slot 0, which is in service; a command in the internal queue and in the ring at address 0x100000. -/
def obj1 (pin : Bool) (wanted : Option Nat) : Obj := ⟨1, 0, 2 ^ 21, pin, false, false, wanted⟩
def flow (cart : Bool) (o : Obj) (moves : List Move) (rec : List Nat) : State :=
  { withF [(Reg.BMCm_STATE_STATE 0, 3), (Reg.FLS_CTL_ENABLE, 1), (Reg.FLS_CTL_JOB_SIG, 4095), (Reg.GLB_SIGn_VALUE 4095, 1), (Reg.FLS_RING_BASE, 0x200000)] with
    pages := [(0, if cart then .cart 0 5 else .bonded 0), (1, .bonded 1)], mem := store [(0x200000, rec)], objects := [o], moves := moves, flsQueue := [⟨7, rec, 0⟩] }
def flsRec (op id : Nat) (flags a b : Nat) : List Nat := [op + flags * 16 + id * 2 ^ 16 + 17 * 2 ^ 32, a, b, 1000, 0, 0, 0, 0]

/-- The next command of the queue, and of the ring. -/
theorem fls_queue (s : State) (q : QueuedJob) (qs : List QueuedJob) (h : s.flsQueue = q :: qs) (p : ∀ m ∈ s.moves, m.pins = []) (e : s.heldEnds = []) :
    s.FlsHead .queue (recBits q.words 0 3 0) q.words ⟨none, q.token, 0, recBits q.words 3 47 0⟩ { s with flsQueue := qs } :=
  by
  refine ⟨rfl, ?_, ?_, q, qs, h, rfl, rfl, rfl⟩
  · intro m hm x hx
    rw [p m hm] at hx
    cases hx
  · intro v hv
    rw [e] at hv
    cases hv
theorem fls_ring (s : State) (h : s.get Reg.FLS_CTL_ENABLE = 1) (g : (s.ring 3).v0 + (s.ring 3).taken + 1 ≤ s.sig (s.get Reg.FLS_CTL_JOB_SIG))
    (p : ∀ m ∈ s.moves, m.pins = []) (r : s.heldEnds = []) (q : (s.read (ringAddr (s.get Reg.FLS_RING_BASE) (s.get Reg.FLS_RING_ENTRIES_M1) 64 (s.ring 3).taken) 64).2.1 = false) :
    ∃ op ws w u, s.FlsHead .ring op ws w u := by
  revert q
  generalize e : s.read (ringAddr (s.get Reg.FLS_RING_BASE) (s.get Reg.FLS_RING_ENTRIES_M1) 64 (s.ring 3).taken) 64 = b
  rcases b with ⟨x, y, z⟩
  intro q; cases q
  refine ⟨_, _, _, _, rfl, ?_, ?_, h, g, _, _, _, rfl, e, rfl, rfl, rfl⟩
  · intro m hm x hx
    rw [p m hm] at hx
    cases hx
  · intro v hv
    rw [r] at hv
    cases hv
theorem witness_fls_heads : (∃ w u, (flow false (obj1 false none) [] (flsRec 3 1 0 0 0)).FlsHead .queue 3 (flsRec 3 1 0 0 0) w u) ∧
    ∃ op ws w u, (flow false (obj1 false none) [] (flsRec 3 1 0 0 0)).FlsHead .ring op ws w u :=
  ⟨⟨_, _, fls_queue (flow false (obj1 false none) [] (flsRec 3 1 0 0 0)) _ _ rfl (by decide +kernel) rfl⟩, fls_ring _ (by decide +kernel) (by decide +kernel) (by decide +kernel) rfl (by decide +kernel)⟩
theorem witness_fls_records :
    (∀ cart ∈ [true, false], (flow cart (obj1 false none) [] (flsRec 3 1 0 0 0)).InRun ∧ (flow cart (obj1 false none) [] (flsRec 3 1 0 0 0)).Calm) ∧
    flsReservedOk (flsRec 3 1 8 0 0) = false ∧ (flow false (obj1 false none) [] []).objById 9 = none ∧
    (∀ op ∈ [1, 2, 3, 4, 5, 6, 7, 8, 9, 10], flsReservedOk (flsRec op 1 0 0 0) = true ∧ recBits (flsRec op 1 0 0 0) 0 3 0 = op) ∧
    (flow false (obj1 false none) [] []).objById 1 = some (obj1 false none) := by
  unfold State.InRun State.Calm; decide +kernel
/-- REGISTER of a legal range that is free and of one that is not, mirrored outside a twin's own window; the largest object. -/
theorem witness_register :
    (flsReservedOk (flsRec 1 2 2 (2 ^ 36) (2 ^ 36)) = true ∧ recBits (flsRec 1 2 2 (2 ^ 36) (2 ^ 36)) 1 47 0 = 2 ^ 36 ∧ recBits (flsRec 1 2 2 (2 ^ 36) (2 ^ 36)) 2 47 0 = 2 ^ 36) ∧
    (let u := (flow false (obj1 false none) [] []).put Reg.GLB_ROLE_TWIN 1
     u.objById 2 = none ∧ (∀ o ∈ u.objects, o.base + o.size ≤ 2 ^ 36) ∧ u.get Reg.GLB_ROLE_TWIN = 1 ∧ u.inOwnWindow (2 ^ 36) = false ∧
     ∃ o ∈ u.objects, ¬(0 + 2 ^ 21 ≤ o.base ∨ o.base + o.size ≤ 0)) ∧
    ¬(2 ^ 36 + 2 ^ 21 ≤ 2 ^ 36) := by decide +kernel
/-- The states of an object: at rest bonded and not, and in each move; a promotion that has started leaves room for what it needs. -/
def moving (k : MoveKind) (cart : Bool) : State := flow cart (obj1 false none) [{ Move.of 1 k with started := true }] []
theorem witness_moving : ∀ e ∈ [(MoveKind.promotion, 1), (.demotion, 2), (.relocation, 3)], ∀ cart ∈ [true, false],
    (moving e.1 cart).moveState 1 = e.2 ∧ (moving e.1 cart).Calm ∧ (moving e.1 cart).InRun ∧ (∀ m ∈ (moving e.1 cart).moves, m.started = true) ∧
    (moving e.1 cart).promotionNeed (Move.of 1 .promotion) ≤ (moving e.1 cart).freeBonded + (moving e.1 cart).freeing ∧
    ∀ m ∈ (moving e.1 cart).moves, m.waiters = [] ∧ m.pins = [] := by
  unfold State.Calm State.InRun; decide +kernel
theorem witness_objects :
    (let u := flow false (obj1 false none) [] []
     u.moveState 1 = 0 ∧ u.restsBonded (obj1 false none) = true ∧ u.heldPages (obj1 false none) ≠ [] ∧ u.isWanted (obj1 false none) = false) ∧
    (let u := flow true (obj1 false none) [] []
     u.restsBonded (obj1 false none) = false ∧ u.promotionNeed (Move.of 1 .promotion) ≤ u.freeBonded + u.freeing) ∧
    (flow false (obj1 true (some 0)) [] []).isWanted (obj1 true (some 0)) = true ∧
    (∀ p < 2, (flow false (obj1 false none) [] []).peerClosed (p * 2 ^ 21) = false ∧ (flow false (obj1 false none) [] []).sealedAt (p * 2 ^ 21) = false) := by
  decide +kernel
theorem test_fls : (after (.register .queue) (flow false (obj1 false none) [] (flsRec 1 2 0 0 (2 ^ 21)))).flsDone = [(7, 3)] ∧
    ((after (.register .queue) (flow false (obj1 false none) [] (flsRec 1 2 0 (2 ^ 21) (2 ^ 21)))).objects.map (·.id)) = [1, 2] ∧
    (after (.pin .ring) (flow false (obj1 false none) [] (flsRec 3 1 0 0 0))).objects.map (·.pin) = [true] ∧
    memByte (after (.pin .ring) (flow false (obj1 false none) [] (flsRec 3 1 0 0 0))).mem 0x200007 = 1 ∧
    (after (.release .queue) (flow false (obj1 false none) [] (flsRec 7 0 0 0 (2 ^ 21)))).frameOf 0 = none := by decide +kernel

/-- Drains: refused with each reason, accepted, cancelled. Slot 1 is IN_SERVICE beside slot 0. -/
def drains (st0 st1 : Nat) (cart pin : Bool) (rec : List Nat) : State :=
  (flow cart (obj1 pin none) [] rec).puts [(Reg.BMCm_STATE_STATE 0, st0), (Reg.BMCm_STATE_STATE 1, st1), (Reg.BMCm_STATE_STATE 2, 3)]
theorem witness_drains :
    (∀ e ∈ [(6, 3), (3, 4), (3, 3), (4, 3)], (drains e.1 e.2 true false (flsRec 9 0 0 0 0)).InRun ∧ (drains e.1 e.2 true false []).slotState 0 = e.1 ∧
      (drains e.1 e.2 true false []).slotState 1 = e.2) ∧
    (let u := drains 3 3 true true []
     (∃ o ∈ u.objects, o.pin = true ∧ ∃ e ∈ u.pages, o.covers e.1 = true ∧ e.2.onSlot 0 = true) ∧ ∀ k < 6, u.slotState k ≠ 4) ∧
    (let u := drains 3 3 true false []
     ¬(∃ o ∈ u.objects, o.pin = true ∧ ∃ e ∈ u.pages, o.covers e.1 = true ∧ e.2.onSlot 0 = true) ∧
     ¬(u.freeBonded + u.freeCarts - u.freeCart 0 < (u.pages.filter fun e => e.2.onSlot 0).length + 512 * u.get Reg.FLS_POLICY_DRAIN_HEADROOM_GIB) ∧
     let v := u.puts [(Reg.FLS_POLICY_DRAIN_HEADROOM_GIB, 255), (Reg.BMCm_STATE_STATE 1, 0), (Reg.BMCm_STATE_STATE 2, 0), (Reg.GLB_ID_LAYERS, 8)]
     (∀ k < 6, v.slotState k ≠ 4) ∧ v.slotState 0 = 3 ∧
     v.freeBonded + v.freeCarts - v.freeCart 0 < (v.pages.filter fun e => e.2.onSlot 0).length + 512 * v.get Reg.FLS_POLICY_DRAIN_HEADROOM_GIB) ∧
    (recBits (flsRec 9 0 0 6 0) 1 2 0 = 6 ∧ recBits (flsRec 9 0 0 0 0) 1 2 0 = 0) ∧
    ((drains 4 3 true false []).drainCmd = none ∧ ∀ k < 6, k ≠ 0 → (drains 4 3 true false []).slotState k ≠ 4) := by
  unfold State.InRun; decide +kernel
theorem test_drain : let t := after (.drain .queue) (drains 3 3 true false (flsRec 9 0 0 0 0))
    (t.slotState 0, t.moves.map (·.kind), t.drainCmd.isSome) = (4, [.relocation], true) := by decide +kernel
theorem test_drain_refused : (after (.drain .queue) (drains 3 4 true false (flsRec 9 0 0 0 0))).get Reg.FLS_DRAIN_REASON = 3 ∧
    (after (.drain .queue) (drains 3 3 true true (flsRec 9 0 0 0 0))).get Reg.FLS_DRAIN_REASON = 2 := by decide +kernel

/-- Epochs off, not over, and over. -/
theorem witness_epoch : ∀ e ∈ [(0, 9999), (1, 1699), (1, 1700)], let s := { quiet.put Reg.FLS_POLICY_EPOCH_US e.1 with cycle := e.2, heat := [(0, 1), (1, 5)] }
    s.InRun ∧ s.Calm ∧ s.get Reg.FLS_POLICY_EPOCH_US = e.1 ∧ s.nowUs = e.2 / 1700 ∧ s.epochAt = 0 ∧ (e.1 ≠ 0 → (((s.epochAt / e.1 + 1) * e.1 ≤ s.nowUs) ↔ e.2 = 1700)) ∧ s.get Reg.FLS_POLICY_AUTO = 0 := by
  unfold State.InRun State.Calm; decide +kernel
theorem test_epoch : (after .epochEnd { quiet.put Reg.FLS_POLICY_EPOCH_US 1 with cycle := 1700, heat := [(0, 1), (1, 5)] }).heat = [(1, 2)] := by decide +kernel

/-- Moves: one that may start, with its destination; one whose object a job holds; one that runs, with nothing waiting for it. -/
theorem witness_moves :
    (let s := flow true (obj1 false none) [Move.of 1 .promotion] []
     s.InRun ∧ (s.moves.filter (·.started)).length < 8 ∧ (s.startOrder.find? fun v => s.mayStart v && (s.planDest v).isSome) = some (Move.of 1 .promotion) ∧
     s.planDest (Move.of 1 .promotion) = some [(0, .bonded 0)] ∧ { s with moves := [{ Move.of 1 .promotion with started := true, dest := [(0, .bonded 0)] }] }.Calm) ∧
    (let s := { flow true (obj1 false none) [Move.of 1 .promotion] [] with hlcJobs := [⟨0, none, 0, 0, [], [(0, 1)], none, 0⟩] }
     ∀ m ∈ s.moves, s.mayStart m = false) ∧
    (let m := { Move.of 1 .promotion with started := true, dest := [(0, .bonded 0)] }
     let s := { flow true (obj1 false none) [m] [] with nonzero := [(8191, true)] }
     (s.moves.filter (·.started))[0]? = some m ∧ (m.dest.map (·.1)).Nodup ∧ s.Calm ∧ s.liveGranules 0 = 1) := by
  unfold State.InRun State.Calm; decide +kernel
theorem test_switch : (after (.moveSwitch 0) { flow true (obj1 false none) [{ Move.of 1 .promotion with started := true, dest := [(0, .bonded 0)] }] [] with
      nonzero := [(8191, true)] }).pages = [(0, .bonded 0), (1, .bonded 1)] ∧
    (after (.moveSwitch 0) (flow true (obj1 false none) [{ Move.of 1 .promotion with started := true, dest := [(0, .bonded 0)] }] [])).pages = [(1, .bonded 1)] := by
  decide +kernel

/-- The switch of a promotion that a prefetch waits for, before its deadline and at it. -/
def switching (cycle : Nat) : State :=
  { flow true (obj1 false none) [{ Move.of 1 .promotion with started := true, dest := [(0, .bonded 0)], waiters := [⟨none, 7, 5, 1⟩] }] [] with cycle := cycle }
theorem witness_switching : ∀ c ∈ [1699, 1700], (switching c).InRun ∧ (switching c).Calm ∧ (switching c).nowUs = c / 1700 ∧
    (((switching c).moves.filter (·.started))[0]?.map fun m => (m.waiters, m.pins, m.evict)) = some ([⟨none, 7, 5, 1⟩], [], false) := by
  unfold State.InRun State.Calm; decide +kernel
theorem test_switching : (after (.moveSwitch 0) (switching 1699)).flsDone = [(7, 1)] ∧ (after (.moveSwitch 0) (switching 1700)).flsDone = [(7, 4)] := by decide +kernel

/-- A prefetch late and not; a deadline past, not past, and none; writes that wait and none; a slot drained; a cartridge lost. -/
def late (cycle : Nat) : State := { flow true (obj1 false none) [{ Move.of 1 .promotion with waiters := [⟨none, 7, 5, 1⟩] }] [] with cycle := cycle }
theorem witness_late : ∀ c ∈ [1699, 1700], (late c).InRun ∧ (late c).moves = [] ++ { Move.of 1 .promotion with waiters := [⟨none, 7, 5, 1⟩] } :: [] ∧
    (late c).nowUs = c / 1700 := by
  unfold State.InRun; decide +kernel
theorem test_late : (after (.prefetchLate 1) (late 1699)).flsDone = [] ∧ (after (.prefetchLate 1) (late 1700)).flsDone = [(7, 4)] := by decide +kernel
theorem witness_wanted : ∀ e ∈ [(none, 0), (some 1, 3400), (some 1, 5100)],
    let s := { (flow true (obj1 false e.1) [] []).put Reg.FLS_POLICY_KEEP_US 1 with cycle := e.2 }
    s.InRun ∧ s.Calm ∧ s.objById 1 = some (obj1 false e.1) ∧ (e.2 = 3400 → s.isWanted (obj1 false e.1) = true) ∧ (e.2 ≠ 3400 → s.isWanted (obj1 false e.1) = false) := by
  unfold State.InRun State.Calm; decide +kernel
theorem witness_held_writes :
    (∀ l ∈ [[], [FrameWait.helictite 1151 7]], let s := { helRuns fun h => { h with ops := [⟨true, 7, some 0, 0⟩] } with frameWaits := l }
      s.InRun ∧ s.heldWrites = [] ∧ s.heldEnds = [] ∧ ((∃ x ∈ s.frameWaits, s.frameWaiting x = true) ↔ l ≠ [])) ∧
    (∀ l ∈ [[], [(⟨[4], .post 9⟩ : HeldEnd)]], let s := { flow false (obj1 false none) [] [] with heldWrites := [⟨4, 2 ^ 21 - 1, [9], 0, false, false⟩], heldEnds := l }
      s.InRun ∧ s.heldWrites = [⟨4, 2 ^ 21 - 1, [9], 0, false, false⟩] ∧ s.heldEnds = l ∧ s.Writable (2 ^ 21 - 1)) := by
  unfold State.InRun State.Writable; decide +kernel
theorem test_held_write : let t := after .waitingWriteResume { flow false (obj1 false none) [] [] with
      heldWrites := [⟨4, 2 ^ 21 - 1, [9], 0, false, false⟩], heldEnds := [⟨[4], .post 9⟩] }
    memByte t.mem (2 ^ 21 - 1) = 9 ∧ t.sig 9 = 1 ∧ t.heldEnds = [] := by decide +kernel
theorem witness_drained : (drains 4 3 false false []).slotState 0 = 4 ∧ (∀ k < 6, k ≠ 0 → (drains 4 3 false false []).slotState k ≠ 4) ∧
    (∀ e ∈ (drains 4 3 false false []).pages, e.2.onSlot 0 = false) := by decide +kernel
theorem witness_cartridge_failure : ∀ st ∈ [3, 4], (drains st 3 true false []).InRun ∧ (drains st 3 true false []).slotState 0 = st ∧
    (drains st 3 true false []).drainCmd = none ∧ (∀ v ∈ (drains st 3 true false []).moves, v.started = false) := by
  unfold State.InRun; decide +kernel
theorem test_cartridge_failure : let t := after (.cartridgeFailure 0) (drains 3 3 true false [])
    (t.slotState 0, t.frameOf 0, t.frameOf 1) = (6, none, some (.bonded 1)) := by decide +kernel

/-! ## Traverse -/

/-- A plan of one stage and one microbatch at address 0x1000, with one work item on chambers or on helictites, no ring, queue or gather; its version 1 or none. -/
def header (version : Nat) : List Nat :=
  [version + 2 ^ 16, 0, 256 + 2 ^ 32, 0, 0, 0, 0, 512 + 2 ^ 32, 1024 + 2 ^ 32, 0, 0, 0xFFFF, 19] ++ List.replicate 19 0
def item (phase unit : Nat) : List Nat := (phase + unit * 8) :: List.replicate 15 0
def plan0 (phase unit : Nat) : Plan := ⟨0x1000, header 1, [item phase unit], [], [], [], [], [[0x2000, 0x30000]]⟩

/-- A step that waits, its plan in memory. -/
def stepWaits (version : Nat) : State :=
  { holding quiet [(0x1000, header version), (0x1100, item 2 0), (0x1200, [0x2000, 0x30000])] with stepQueue := [⟨1, 0, 0x1000, 9⟩] }
theorem witness_accept :
    (∀ v ∈ [0, 1], (stepWaits v).InRun ∧ (stepWaits v).acceptsStep = true) ∧ (quiet.stepQueue = [] ∧ stepping.acceptsStep = false ∧ stepping.InRun) ∧
    (let x := ({ stepWaits 1 with stepQueue := [] } : State).puts [(Reg.TRV_STATE_STAMP, 9), (Reg.TRV_PLAN_ADDR, 0x1000), (Reg.TRV_STATE_STATE, 1)]
     (x.readPlan 0x1000).1 = plan0 2 0 ∧ (x.readPlan 0x1000).1.refusal (x.readPlan 0x1000).2.1 = 0) ∧
    (let x := ({ stepWaits 0 with stepQueue := [] } : State).puts [(Reg.TRV_STATE_STAMP, 9), (Reg.TRV_PLAN_ADDR, 0x1000), (Reg.TRV_STATE_STATE, 1)]
     (x.readPlan 0x1000).1.refusal (x.readPlan 0x1000).2.1 = 1) := by
  unfold State.InRun; decide +kernel
theorem test_accept : (after .stepAccept (stepWaits 1)).get Reg.TRV_STATE_STATE = 2 ∧ (after .stepAccept (stepWaits 0)).get Reg.TRV_LAST_STATUS = 2 ∧
    (after .stepAccept (stepWaits 0)).get Reg.TRV_LAST_CAUSE = 1 := by decide +kernel

/-- The running step of a plan. -/
def step0 (p : Plan) : Step :=
  { req := ⟨1, 0, 0x1000, 9⟩, plan := p, done := [], begun := [], running := [], admitted := 0, bFetched := [], gath := [], ringSent := [], ringFreed := []
    qSent := [], fail := none, failAt := 0, stopped := false, idleAt := some 100, mark := none }
def running (r : Step) : State := { withF [(Reg.TRV_STATE_STATE, 2)] with trv := some r }
def inst0 : Inst := ⟨0, 0, 0, 0, false⟩
theorem witness_runs (r : Step) (h : r.fail = none) : (running r).StepRuns r := by
  refine ⟨?_, rfl, ?_, h⟩
  · unfold State.InRun
    have a : (running r).get Reg.PCR_PSTATE_STATE = stepping.get Reg.PCR_PSTATE_STATE := rfl
    have b : (running r).held = stepping.held := rfl
    rw [a, b]; decide +kernel
  · have a : (running r).get Reg.TRV_STATE_STATE = stepping.get Reg.TRV_STATE_STATE := rfl
    rw [a]; decide +kernel
theorem witness_admit :
    (let r := step0 (plan0 2 0)
     r.admitted < r.plan.nmb ∧ r.plan.phaseItems 2 ≠ [] ∧ r.admitted < r.bDone + r.plan.window) ∧
    (let r := { step0 (plan0 2 0) with admitted := 1 }
     r.plan.nmb ≤ r.admitted) := by decide +kernel
theorem witness_complete :
    (let r := { step0 (plan0 2 0) with done := [inst0], begun := [inst0], admitted := 1 }
     r.running = [] ∧ r.allDone r.plan.ranked = true ∧ (running r).sendsLeft r = true ∧ r.plan.rings = [] ∧ (running r).get Reg.GLB_ROLE_TWIN = 0 ∧
     (running r).get Reg.TWN_STATE_STATE ≠ 7 ∧ recBits r.plan.header 11 7 0 = 0xFF ∧ recBits r.plan.header 11 15 8 = 0xFF ∧
     (∀ st ∈ [2, 5, 7], let s := (running r).puts [(Reg.GLB_ROLE_TWIN, 1), (Reg.TWN_STATE_STATE, st)]
       s.get Reg.GLB_ROLE_TWIN = 1 ∧ s.get Reg.TWN_STATE_STATE = st ∧ s.get Reg.TRV_STATE_STATE = 2 ∧ s.sendsLeft r = true)) ∧
    ([(⟨inst0, some 0, 0⟩ : RunInst)] ≠ []) ∧ (⟨inst0, none, 5⟩ : RunInst).chamber = none ∧ ((running (step0 (plan0 2 0))).put Reg.TRV_STATE_STATE 4).get Reg.TRV_STATE_STATE = 4 := by
  decide +kernel
theorem test_commit : let t := after .stepComplete (running { step0 (plan0 2 0) with done := [inst0], begun := [inst0], admitted := 1 })
    (t.get Reg.TRV_LAST_STATUS, t.get Reg.TRV_STEPS_COMMITTED, t.sig 19, t.trv) = (1, 1, 1, none) := by decide +kernel
def stalls (ms cycle : Nat) (r : Step) : State := { (running r).put Reg.TRV_CTL_STALL_MS ms with cycle := cycle }
theorem witness_stall : ∀ e ∈ [(0, 0), (1, 1700099), (1, 1700100)], let s := stalls e.1 e.2 (step0 (plan0 2 0))
    s.get Reg.TRV_CTL_STALL_MS = e.1 ∧ s.cycle = e.2 ∧ s.get Reg.TRV_STATE_STATE = 2 ∧ (step0 (plan0 2 0)).idleAt = some 100 ∧ (step0 (plan0 2 0)).running = [] := by
  decide +kernel
theorem test_stall : (after .stallTimeout (stalls 1 1700099 (step0 (plan0 2 0)))).get Reg.TRV_STATE_STATE = 2 ∧
    (after .stallTimeout (stalls 1 1700100 (step0 (plan0 2 0)))).get Reg.TRV_LAST_STATUS = 6 ∧
    (after .trvAbort (running (step0 (plan0 2 0)))).get Reg.TRV_LAST_STATUS = 7 := by decide +kernel
theorem test_abort : let r := step0 (plan0 2 1)
    (after .trvAbort ((running r).put Reg.TRV_STATE_STATE 4)).get Reg.TRV_LAST_STATUS = 7 ∧
    (after .trvAbort (running { r with running := [⟨inst0, none, 5⟩] })).get Reg.TRV_STATE_STATE = 3 := by decide +kernel

/-- A failed step: with nothing running and with a chamber that runs on, before and at the limit. -/
def failed (runs : List RunInst) (cycle : Nat) : State :=
  { ({ running { step0 (plan0 2 0) with running := runs, fail := some ⟨4, 1, 8, some inst0⟩ } with cycle := cycle } : State) with
    chambers := [(3, { Chamber.reset with item := 0 })] }
theorem witness_runon : ∀ c ∈ [170000000 - 1, 170000000],
    let x := (failed [⟨inst0, some 3, 0⟩] c).put Reg.TRV_STATE_STATE 3
    x.chState 3 ≠ 0 ∧ x.get Reg.SEC_BOOT_RECOVERY = 0 ∧ x.get Reg.TRV_CTL_STALL_MS = 0 ∧ x.cycle = c := by decide +kernel
theorem test_fail : (after .stepFail (failed [] 0)).get Reg.TRV_LAST_STATUS = 4 ∧ (after .stepFail (failed [⟨inst0, some 3, 0⟩] 0)).get Reg.TRV_STATE_STATE = 3 := by
  decide +kernel

/-! ## The instances of a step -/

/-- Chamber 0 is built, in a state, with the program and the region set of the plan's item, halted with a cause and a value in s9. -/
def unit0 (st cause s9 : Nat) (r : Step) : State :=
  { (running r).puts [(Reg.CHn_STATUS_STATE 0, st), (Reg.CHn_STATUS_LOGICAL 0, 0), (Reg.CHn_HALT_CAUSE 0, cause), (Reg.GLB_SIGn_VALUE 0, 1)] with
    chambers := [(0, { Chamber.reset with prog := some (0x2000, 1), rset := some 0x1400, sregs := Chamber.reset.sregs.set 9 (BitVec.ofNat 64 s9) })]
    hlcDone := [(5, 1), (6, 3)], cuDone := [(5, 1)] }
theorem witness_dispatch :
    (let r := step0 (plan0 1 0); (unit0 1 0 0 r).StepRuns r ∧ r.waitingInsts = [inst0] ∧ (unit0 1 0 0 r).ready r inst0 = true ∧ (unit0 1 0 0 r).bestChamber r = some (0, 0) ∧
      phaseOf (r.plan.item 0) ≠ 3 ∧ onHelictites (r.plan.item 0) = false ∧
      r.plan.base + (tableAt r.plan.header 6).1 + 4096 * recBits (r.plan.item 0) 0 43 40 = 0x1400 ∧ (unit0 1 0 0 r).chState 0 = 1) ∧
    (({ step0 (plan0 1 0) with begun := [inst0] } : Step).waitingInsts = []) ∧
    (let r := step0 (plan0 1 1); r.waitingInsts = [inst0] ∧ (running r).ready r inst0 = true ∧ onHelictites (r.plan.item 0) = true) := by
  unfold State.StepRuns State.InRun; decide +kernel
theorem test_dispatch : let t := after .instanceDispatch (unit0 1 0 0 (step0 (plan0 1 0)))
    (t.chState 0, t.chPc 0, ((t.ch 0).sreg 3).toNat, ((t.ch 0).sreg 4).toNat) = (2, 3, 1, 9) ∧ t.trv.map (·.running) = some [⟨inst0, some 0, 0⟩] := by
  decide +kernel
def on0 : Step := { step0 (plan0 1 0) with begun := [inst0], running := [⟨inst0, some 0, 0⟩] }
def onHel (tok : Nat) : Step := { step0 (plan0 1 1) with begun := [inst0], running := [⟨inst0, none, tok⟩] }
theorem witness_instances : (∀ e ∈ [(2, 0), (1, 0), (1, 7)], let s := unit0 4 e.1 e.2 on0
      s.StepRuns on0 ∧ s.chState 0 = 4 ∧ (s.ch 0).halt = none ∧ s.get (Reg.CHn_HALT_CAUSE 0) = e.1 ∧ ((s.ch 0).sreg 9).toNat = e.2) ∧
    (∀ e ∈ [(4, none), (5, some 1), (6, some 3)], (unit0 1 0 0 (onHel e.1)).StepRuns (onHel e.1) ∧ mapFind (unit0 1 0 0 (onHel e.1)).hlcDone e.1 = e.2) ∧
    (let w := on0.plan.item 0; recBits w 1 44 44 = 0 ∧ recvqOf w = none ∧ gathOf w = none ∧ on0.plan.rings = []) := by
  unfold State.StepRuns State.InRun; decide +kernel
theorem test_instances : ((after (.instanceComplete 0) (unit0 4 2 0 on0)).trv.map (·.fail), (after (.instanceComplete 0) (unit0 4 1 7 on0)).trv.map (·.fail),
      (after (.instanceComplete 0) (unit0 1 0 0 (onHel 6))).trv.map (·.fail)) =
    (some (some ⟨4, 1, 2, some inst0⟩), some (some ⟨4, 2, 7, some inst0⟩), some (some ⟨4, 3, 3, some inst0⟩)) := by decide +kernel
theorem test_instance_done : let t := after (.instanceComplete 0) (unit0 4 1 0 on0)
    (t.trv.map (·.done), t.trv.map (·.running), t.get Reg.TRV_PROGRESS_INST) = (some [inst0], some [], 1) := by decide +kernel

/-- A plan whose item reads a gather, uses a ring of two and writes to a queue of one slot; the stamp is STAMP0. -/
def planQ : Plan :=
  { plan0 2 0 with
    header := (header 1).set 1 9, items := [[2 + 2 ^ 56 + 2 ^ 59, 1] ++ List.replicate 14 0]
    gathers := [[0x8000, 0x100, 0x101, 7, 0, 0x30000, 0x40000, 0]], rings := [[2, 0x100, 0x5000, 0, 0x6000, 1, 0, 0]]
    queues := [[2 ^ 24 + 2 ^ 32, 0x100, 0x5000, 0x6000, 1, 0xFF, 0, 0]] }
def sending (done : List Inst) (gath : List (Nat × GathSt)) : Step := { step0 planQ with done := done, begun := [inst0], gath := gath, admitted := 1 }
theorem witness_slot : ∀ e ∈ [([], false), ([inst0, { inst0 with hop := 1 }], true)], let r := sending e.1 []
    (unit0 1 0 0 r).StepRuns r ∧ sentCount r.qSent 0 = 0 ∧ 0 < r.plan.nmb ∧ recBits (r.plan.queues.getD 0 []) 0 0 0 = 0 ∧ r.slotWritten 0 0 = e.2 ∧
    (unit0 1 0 0 r).sigReaches (recBits (r.plan.queues.getD 0 []) 4 27 16) (r.queueK 0 + 1 - r.plan.nslots 0) = true := by
  unfold State.StepRuns State.InRun; decide +kernel
theorem test_slot : (after (.queueSlotSend 0) (unit0 1 0 0 (sending [inst0, { inst0 with hop := 1 }] []))).cuQueue =
    [⟨1, [1 + 2 ^ 8 + 2 ^ 12, 0x5000, 0x6000, 0x100, 0xFF, 0, 2 ^ 12 + 2 ^ 24, 0], 0⟩] := by decide +kernel
theorem witness_ring : let r := sending [] []
    2 ≤ r.plan.ringG 0 ∧ (r.plan.ringUses 0)[sentCount r.ringSent 0 / (r.plan.ringG 0 - 1)]? = some (0, 0, false) ∧
    (unit0 1 0 0 r).sigReaches (recBits (r.plan.rings.getD 0 []) 5 27 16) (r.ringK 0 0 - 1) = true ∧ (unit0 1 0 0 r).blockThere r 0 (0, 0, false) 0 = true := by
  decide +kernel
theorem test_ring : (after (.ringBlockSend 0) (unit0 1 0 0 (sending [] []))).cuQueue = [⟨1, [1 + 2 ^ 8 + 2 ^ 12, 0x5000, 0x6000, 0x100, 0, 0, 2 ^ 12 + 2 ^ 24, 0], 0⟩] := by
  decide +kernel
theorem witness_gather : let r := sending [] []
    let s := unit0 1 0 0 r
    0 < r.plan.gathers.length ∧ s.sigAtLeast (recBits r.plan.header 11 43 32) (r.delta + 1) = true ∧ s.gatherDue r 0 = true ∧
    cdiv (recBits (r.plan.gathers.getD 0 []) 1 47 0) pageBytes + recBits r.plan.header 0 55 48 * 512 ≤ s.freeBonded ∧ ¬1 < r.plan.gathers.length := by decide +kernel
def flies : List (Nat × GathSt) := [(0, ⟨5, true, false, false, 0⟩)]
def lands (stamp : Nat) : State := holding (unit0 1 0 0 (sending [] flies)) [(0x8000, [stamp])]
theorem witness_landed : ∀ v ∈ [8, 9], (lands v).StepRuns (sending [] flies) ∧ mapFind flies 0 = some ⟨5, true, false, false, 0⟩ ∧ mapFind (lands v).cuDone 5 = some 1 ∧
    ((lands v).partStamps 0x8000 0x100 1).1 = [v] ∧ ((lands v).partStamps 0x8000 0x100 1).2.1 = false := by unfold State.StepRuns State.InRun; decide +kernel
theorem test_landed : ((after (.gatherLanded 0) (lands 9)).trv.map (·.gath), (after (.gatherLanded 0) (lands 8)).trv.map (·.fail)) =
    (some [(0, ⟨5, false, true, false, 0⟩)], some (some ⟨5, 0, 0, none⟩)) := by decide +kernel

/-! ## The keeper service -/

/-- A keeper with a table of one worker at 0x1000, its VERSION field as given, and the service in a state. -/
def keeps (version st : Nat) : State :=
  holding (withF [(Reg.GLB_ROLE_KEEPER, 1), (Reg.GLB_KPR_STATE_STATE, st), (Reg.GLB_SIGn_VALUE 2, 1)])
    [(0x1000, [version + 6 * 2 ^ 32, 0x20000, 2, 0]), (0x1040, [0xFF, 0x30000, 0x40000, 0x100, 0x50000, 0x60000])]
theorem witness_keeper_start : quiet.InRun ∧ quiet.get Reg.GLB_ROLE_KEEPER = 0 ∧ (∀ st ∈ [0, 2, 3], ∀ e ∈ [(0, false), (1, true)],
      let s := keeps e.1 st
      s.InRun ∧ s.get Reg.GLB_ROLE_KEEPER = 1 ∧ s.get Reg.GLB_ROLE_TWIN = 0 ∧ s.get Reg.GLB_KPR_STATE_STATE = st ∧
      (s.readKeeper 0x1000 0 .copy).2.1 = false ∧ (s.readKeeper 0x1000 0 .copy).1.ok = e.2) := by unfold State.InRun; decide +kernel
theorem test_keeper_start : ((after (.keeperStart true 0x1000) (keeps 1 0)).get Reg.GLB_KPR_STATE_STATE, (after (.keeperStart false 0x1000) (keeps 1 3)).get Reg.GLB_KPR_STATE_STATE,
      (after (.keeperStart false 0x1000) (keeps 1 3)).get Reg.GLB_KPR_STATE_VERSION, (after (.keeperStart false 0x1000) (keeps 0 0)).get Reg.GLB_KPR_STATE_STATE,
      (after .keeperStop (keeps 1 2)).get Reg.GLB_KPR_STATE_STATE) = (1, 2, 6, 3, 0) := by decide +kernel
def table0 (mode : KprMode) (w : KprWorker) : Keeper :=
  ⟨0x1000, [1 + 6 * 2 ^ 32, 0x20000, 2, 0, 0, 0, 0, 0], [[0xFF, 0x30000, 0x40000, 0x100, 0x50000, 0x60000, 0, 0]], 6, 6, mode, [w], none, false⟩
def serves (k : Keeper) (sig : Nat) : State :=
  { (keeps 1 2).put (Reg.GLB_SIGn_VALUE 2) sig with kpr := some k, hlcDone := [(5, 1), (6, 3)], cuDone := [(5, 1), (6, 2)] }
theorem witness_update :
    (∀ e ∈ [0, 1], let s := serves (table0 .run ⟨0, 0, none⟩) e
      s.InRun ∧ s.get Reg.TWN_STATE_STATE = 0 ∧ s.sigAtLeast 2 1 = (e == 1) ∧ s.kprJobRuns = false ∧ (table0 .run ⟨0, 0, none⟩).delta = 0) ∧
    (let k := { table0 .run ⟨1, 0, none⟩ with version := 7 }
     recBits k.header 0 12 12 = 0 ∧ (k.nw * k.delta : Int) = 1 ∧ (∀ e ∈ [0, 1], ((serves k 0).put (Reg.GLB_SIGn_VALUE 0) e).sigAtLeast 0 1 = (e == 1))) ∧
    (∀ e ∈ [(4, none), (5, some 1), (6, some 3)], (serves (table0 .run ⟨2, e.1, none⟩) 0).kprJobRuns = true ∧
      mapFind (serves (table0 .run ⟨2, e.1, none⟩) 0).hlcDone e.1 = e.2) ∧
    (∀ e ∈ [(5, 1), (6, 2)], mapFind (serves (table0 .run ⟨3, e.1, none⟩) 0).cuDone e.1 = some e.2) := by unfold State.InRun; decide +kernel
def stageAfter (stage tok : Nat) : Option (List Nat) :=
  ((after (.keeperUpdate false 0) (serves (table0 .run ⟨stage, tok, none⟩) 1)).kpr).map fun k => k.workers.map (·.stage)
theorem test_update : stageAfter 0 0 = some [1] ∧ stageAfter 1 0 = some [2] ∧ stageAfter 2 5 = some [3] ∧ stageAfter 3 5 = some [4] ∧
    (after (.keeperUpdate false 0) (serves (table0 .run ⟨3, 6, none⟩) 1)).get Reg.GLB_KPR_STATE_STATE = 3 := by decide +kernel
theorem witness_publish : let k := table0 .run ⟨4, 0, none⟩
    (serves k 0).kprOf false = some k ∧ k.stopping = false ∧ k.mark = none ∧ k.entries ≠ [] ∧ (∀ w ∈ k.entries, recBits w 0 7 0 = 0xFF) ∧
    (∃ w ∈ (table0 .run ⟨3, 5, none⟩).workers, w.stage ≠ 4) := by decide +kernel
theorem test_publish : let t := after (.keeperPublish false) (serves (table0 .run ⟨4, 0, none⟩) 0)
    (t.get Reg.GLB_KPR_STATE_VERSION, t.kpr.map (·.version), t.sig 0) = (7, some 7, 1) ∧
    (after (.keeperPublish false) (serves (table0 .copy ⟨4, 0, none⟩) 0)).get Reg.GLB_KPR_STATE_VERSION = 6 := by decide +kernel

/-! ## Halgar -/

/-- Node 5, its ports 0 and 1 up, node 7 by port 1, and the first GiB exported. -/
def linked : State :=
  { holding (withF [(Reg.HGPn_STATUS_STATE 0, 2), (Reg.HGPn_STATUS_STATE 1, 3), (Reg.HGP0_NODE_NODE, 5), (Reg.HGP0_RTk_PRI_c 7 0, 2),
      (Reg.HGP0_EXPi_VALID 0, 1), (Reg.HGP0_EXPi_WR 0, 1), (Reg.HGP0_EXPi_RD 0, 1)]) [(0x1000, [11])] with
    tx := [⟨3, 0, 7, true, 0x1000, 0x2000, 2, 0, []⟩, ⟨4, 1, 7, false, 0, 0, 0, 0, []⟩], cuJobs := [⟨1, 0, none, none, 5, false, false, false⟩] }
/-- A packet for this node from node 7, with one granule at an address, of a transfer. -/
def came (addr : BitVec 48) (xfer : BitVec 24) : InPacket := { packet0 with src := 7, dst := 5, addr := addr, xfer := xfer, ngran := 1, data := [List.replicate 256 1] }
/-- The same with no granule, as a request, a post and a completion come. -/
def bare (addr : BitVec 48) (xfer : BitVec 24) : InPacket := { came addr xfer with data := [] }
theorem witness_hears : linked.InRun ∧ (∀ kind ∈ [PKind.write, .readReq, .readResp, .post, .done], ∀ k ∈ [bare 0x1000 3, { bare 0 0 with dst := 7 }, { bare 0 0 with dst := 7, hops := 2 }, { bare 0 0 with dst := 8, hops := 15 }],
      linked.Hears 0 kind (checked kind k)) ∧ packetIntact .write (bare 0x1000 3) = false ∧ linked.txWait = [] ∧ linked.heldWrites = [] ∧ linked.heldEnds = [] ∧ linked.portUp 2 = false ∧ linked.portUp 1 = true ∧ (came 0 0).lseq.toNat = (linked.port 0).rxLseq ∧
    ({ packet0 with lseq := 1 } : InPacket).lseq.toNat ≠ (linked.port 0).rxLseq := by unfold State.InRun State.Hears; decide +kernel
theorem witness_packets : linked.isLocalNode 5 = true ∧ linked.isLocalNode 7 = false ∧ linked.isLocalNode 8 = false ∧
    linked.exported true 0x1000 = true ∧ linked.exported false 0x1000 = true ∧ linked.exported true (2 ^ 30) = false ∧ linked.exported false (2 ^ 30) = false ∧
    linked.get Reg.GLB_ROLE_TWIN = 0 ∧ linked.Writable 0x1000 ∧ linked.Readable 0x1000 ∧ linked.Writable 0x2000 ∧ linked.cachedLines 16 = [] ∧ linked.cachedLines 32 = [] ∧
    linked.routePorts 7 0 = [1] ∧ linked.routePorts 8 0 = [] ∧ linked.pickPort .readResp 0 [1] = some 1 ∧ linked.pickPort .post 0 [1] = some 1 := by
  unfold State.Writable State.Readable; decide +kernel
theorem witness_transfers : (linked.tx.find? (fun y => y.xfer == 3 && y.isRead) = some ⟨3, 0, 7, true, 0x1000, 0x2000, 2, 0, []⟩) ∧
    (linked.tx.find? (fun y => y.xfer == 4) = some ⟨4, 1, 7, false, 0, 0, 0, 0, []⟩) ∧ (∀ y ∈ linked.tx, y.xfer ≠ 4 → y.job ≠ 1) ∧ linked.redJobs = [] ∧
    (linked.cuJobs.find? (fun y => y.id == 1) = some ⟨1, 0, none, none, 5, false, false, false⟩) ∧
    (∃ y ∈ (⟨9, 0, 7, false, 0, 0, 0, 0, []⟩ :: linked.tx), y.xfer ≠ 3 ∧ y.job = 0) := by decide +kernel
theorem witness_heard : linked.Hears 0 .write (checked .write (came 0x1000 0)) ∧ linked.Hears 0 .readResp (checked .readResp (came 0x1100 3)) :=
  ⟨⟨by decide +kernel, checked_intact .write _ rfl, by decide +kernel⟩, ⟨by decide +kernel, checked_intact .readResp _ rfl, by decide +kernel⟩⟩
theorem test_write : memByte (after (.linkWrite 0 (checked .write (came 0x1000 0))) linked).mem 0x10FF = 1 := by
  simp only [after, exec, execLinkWrite, State.consume, State.accept, checked_intact .write (came 0x1000 0) rfl]
  decide +kernel
theorem test_link_done : (after (.linkWrite 0 (checked .write (bare 0x40000000 0))) linked).get Reg.GLB_VIOL_LAST_KIND = 6 ∧
    (after (.linkDone 0 (checked .done (bare 0 4))) linked).cuDone = [(5, 1)] := by decide +kernel
theorem test_read_resp : memByte (after (.linkReadResp 0 (checked .readResp (came 0x1100 3))) linked).mem 0x2100 = 1 := by
  simp only [after, exec, execLinkReadResp, State.consume, State.accept, checked_intact .readResp (came 0x1100 3) rfl]
  decide +kernel
theorem test_post : (after (.linkPost 0 (checked .post { bare 0 0 with psig := 9, value := 3 })) linked).sig 9 = 3 ∧
    (after (.packetForward 0 .post (checked .post { bare 0 0 with dst := 7 })) linked).get (Reg.HGPn_LOST_HOPS 0) = 1 ∧
    (after (.linkReadReq 0 (checked .readReq { bare 0x1000 0 with lseq := 1 })) linked).port 0 = { linked.port 0 with nak := true } := by decide +kernel
theorem test_respond : let p := (after (.linkReadReq 0 (checked .readReq (bare 0x1000 6))) linked).port 1
    (p.waiting.map (·.1) ++ p.replay.map (·.pkt)).map (fun k => (k.dst, k.xfer, k.data.map fun g => leNat (g.take 8))) = [(7, 6, [11])] := by decide +kernel
/-- A port's training: its enable, reach, state and failed attempts. -/
def trains (en reach st fails : Nat) : State :=
  (withF [(Reg.HGPn_CFG_ENABLE 0, en), (Reg.HGPn_CFG_REACH 0, reach), (Reg.HGPn_STATUS_STATE 0, st)]).setPort 0 { quiet.port 0 with fails := fails }
theorem witness_training : (∀ e ∈ [(0, 0, 1, 0), (1, 3, 1, 0), (1, 0, 1, 0), (1, 0, 1, 2), (1, 2, 2, 0), (1, 0, 3, 0), (1, 0, 4, 3)], let s := trains e.1 e.2.1 e.2.2.1 e.2.2.2
      s.InRun ∧ s.portOff 0 = false ∧ s.get (Reg.HGPn_CFG_ENABLE 0) = e.1 ∧ s.get (Reg.HGPn_CFG_REACH 0) = e.2.1 ∧ s.get (Reg.HGPn_STATUS_STATE 0) = e.2.2.1 ∧
      (s.port 0).fails = e.2.2.2 ∧ (s.port 0).replay = [] ∧ ∀ m < 8, (s.port m).waiting = []) := by unfold State.InRun; decide +kernel
theorem test_training : (after (.portTraining 0 ⟨none, 0xFF, 0xFF, true⟩ ⟨9, 3, []⟩) (trains 1 0 1 2)).get (Reg.HGPn_STATUS_STATE 0) = 2 ∧
    (after (.portTraining 0 ⟨none, 0xFF, 0xFF, false⟩ ⟨0, 0, []⟩) (trains 1 0 1 1)).get (Reg.HGPn_STATUS_STATE 0) = 1 ∧
    (after (.portTraining 0 ⟨none, 0xFF, 0xFF, false⟩ ⟨0, 0, []⟩) (trains 1 0 1 2)).get (Reg.HGPn_STATUS_STATE 0) = 4 ∧ (after (.portRetry 0) (trains 1 0 4 3)).get (Reg.HGPn_STATUS_STATE 0) = 1 ∧
    (after (.portRetrain 0) (trains 1 0 2 0)).get (Reg.HGPn_STATUS_STATE 0) = 1 ∧ (after (.portReset 0) (trains 0 0 2 0)).get (Reg.HGPn_STATUS_STATE 0) = 0 := by decide +kernel
/-- What training finds: the module, the lanes that work on this side and the peer's, and whether every receiver locked. -/
theorem witness_train_ends : (∀ c ∈ [none, some (6 : BitVec 4)], ¬∃ d, c = some d ∧ BitVec.toNat d ≤ 5) ∧ (∃ d, some (5 : BitVec 4) = some d ∧ BitVec.toNat d ≤ 5) ∧
    (∀ e ∈ [(0xFF, true, true, true), (0x0F, false, true, false), (0xF7, false, false, true), (0x3C, false, false, false)],
      let lane := fun i => (e.1 : BitVec 8).getLsbD i
      (List.range 8).all lane = e.2.1 ∧ (List.range 4).all lane = e.2.2.1 ∧ (List.range 4).all (fun i => lane (4 + i)) = e.2.2.2) := by decide +kernel
theorem test_lanes : let t := fun here there => after (.portTraining 0 ⟨none, here, there, true⟩ ⟨0, 0, []⟩) (trains 1 0 1 2)
    (t 0xFF 0x0F).get (Reg.HGPn_STATUS_STATE 0) = 3 ∧ (t 0xF7 0xFF).get (Reg.HGPn_STATUS_HIGH_LANES 0) = 1 ∧ (t 0xF7 0x7F).get (Reg.HGPn_STATUS_CAUSE 0) = 3 := by
  decide +kernel

/-! ## The collective units -/

/-- Node 5 with a job of an internal queue for node 7, its route through port 1 in class 1, and bytes to send. -/
def collects (ws : List Nat) : State :=
  { holding (withF [(Reg.HGPn_STATUS_STATE 1, 2), (Reg.HGP0_NODE_NODE, 5), (Reg.HGP0_RTk_PRI_c 7 0, 2), (Reg.HGP0_RTk_PRI_c 7 1, 2)]) [(0x1000, [0x3F800000])] with
    cuQueue := [⟨6, ws, 0⟩] }
/-- The words of a job: operation, node, members, source, destination, bytes, row length less one, from BF16 to FP32 or as they are. -/
def jobWords (op node g rowlen types : Nat) : List Nat := [op + types * 2 ^ 8 + node * 2 ^ 16 + g * 2 ^ 32, 0x1000, 0x2000, 256, rowlen, 0, 7, 0]
theorem witness_cu : (∀ e ∈ [(jobWords 1 7 0 0 0x11, true), (jobWords 2 7 0 0 0x11, true), (jobWords 3 0xFF 1 0 0x11, true), (jobWords 4 0xFF 1 63 0x00, true),
      (jobWords 0 7 0 0 0x11, false), (jobWords 5 7 0 0 0x11, false), (jobWords 15 7 0 0 0x11, false), (jobWords 2 7 0 0 0xFF, false), (jobWords 3 7 0 0 0x11, false),
      (jobWords 4 7 17 0 0x11, false)], let s := collects e.1
      s.InRun ∧ cuRecOk e.1 = e.2 ∧ s.cuQueue = [⟨6, e.1, 0⟩] ∧ s.cuJobs = [] ∧ s.tx = [] ∧ s.redJobs = [] ∧ s.mayTransfer 7 1 = true ∧ s.isLocalNode 7 = false ∧
      s.routePorts 7 0 = [1] ∧ s.Readable 0x1000 ∧ s.Writable 0x2000 ∧ s.cachedLines 32 = []) ∧ (64 * floatBytes 0 = 256 ∧ floatBytes 0 = 4) := by
  unfold State.InRun State.Readable State.Writable; decide +kernel
theorem test_cu : (after (.put 0 .queue) (collects (jobWords 1 7 0 0 0x11))).tx = [⟨1, 0, 7, false, 0, 0x2000, 0, 0, []⟩] ∧
    (after (.get 0 .queue) (collects (jobWords 2 7 0 0 0x11))).tx = [⟨1, 0, 7, true, 0x1000, 0x2000, 1, 0, []⟩] ∧
    (after (.put 0 .queue) (collects (jobWords 0 7 0 0 0x11))).cuDone = [(6, 2)] := by decide +kernel
theorem test_member : memByte (after (.gather 0 .queue) (collects (jobWords 3 0xFF 1 0 0x11))).mem 0x2003 = 0x3F ∧
    (after (.redscat 0 .queue 9) (collects (jobWords 4 0xFF 1 63 0))).cuDone = [(6, 1)] ∧
    memByte (after (.redscat 0 .queue 9) (collects (jobWords 4 0xFF 1 63 0))).mem 0x2003 = 0x3F := by decide +kernel
def cuRing (entries : Nat) : State :=
  holding (withF [(Reg.HGPn_CU_CTL_ENABLE 0, 1), (Reg.HGPn_CU_CTL_JOB_SIG 0, 3), (Reg.GLB_SIGn_VALUE 3, 1), (Reg.HGPn_CU_RING_BASE 0, 0x8000), (Reg.HGPn_CU_RING_ENTRIES_M1 0, entries)])
    [(0x8000, jobWords 5 7 0 0 0x11)]
theorem witness_cu_ring : (cuRing 0).get (Reg.HGPn_CU_CTL_ENABLE 0) = 1 ∧ ((cuRing 0).ring 4).v0 + ((cuRing 0).ring 4).taken + 1 ≤ (cuRing 0).sig 3 ∧
    recWords ((cuRing 0).read 0x8000 64).1 8 = jobWords 5 7 0 0 0x11 ∧ ((cuRing 0).read 0x8000 64).2.1 = false ∧
    quiet.stepRuns = false ∧ stepping.stepRuns = true ∧ quiet.get (Reg.HGPn_CU_CTL_ENABLE 1) ≠ 1 ∧ quiet.get (Reg.HGPn_CU_CTL_JOB_SIG 1) < 4096 := by decide +kernel
theorem test_cu_ring : (after (.dispatch 0 .ring) (cuRing 0)).sig 7 = 1 ∧ memByte (after (.dispatch 0 .ring) (cuRing 0)).mem 0x8007 = 2 ∧
    (after (.cuEnable 1) quiet).get (Reg.HGPn_CU_CTL_ENABLE 1) = 1 := by decide +kernel
/-- A wave that Siphon has handed over, with so many transfers to its node. -/
def hands (n : Nat) : State :=
  { collects [] with cuQueue := [], dispatchQ := [⟨7, 3, 0x2000, 1, 1, 127, [0x1000]⟩], xferSeq := 50, tx := (List.range n).map fun i => ⟨i, i, 7, false, 0, 0, 0, 0, []⟩ }
theorem witness_hands : ∀ e ∈ [(0, true), (31, true), (32, false)], let s := hands e.1
    s.InRun ∧ s.mayTransfer 7 1 = e.2 ∧ s.isLocalNode 7 = false ∧ s.routePorts 7 1 = [1] ∧ s.FreshJob ∧ (∀ y ∈ s.txWait, y.pkt.dst ≠ 7) ∧
    (let w := { s with txWait := [⟨0, 9, { Packet.blank .write with dst := 7 }, [], none⟩] }
     w.InRun ∧ w.FreshJob ∧ ∃ y ∈ w.txWait, y.pkt.dst = 7) := by
  unfold State.InRun State.FreshJob; decide +kernel
theorem test_hands : (after (.dispatch 0 .queue) (hands 0)).tx = [⟨51, 50, 7, false, 0, 0x2000, 0, 0, []⟩] ∧ (after (.dispatch 0 .queue) (hands 32)).dispatchQ.length = 1 := by
  decide +kernel

/-! ## The arbiters -/

/-- An arbiter with credits and ages, and its running and granted transfers. -/
def arbiter (a : Nat) (credit : Vector Int 8) (age : Vector Nat 8) (run next : Option Grant) : State := quiet.setArb a ⟨63, credit, age, run, next, []⟩
def grant0 (left : Nat) (locked : Bool) : Grant := ⟨2, 4, left, locked, true, 3⟩
theorem witness_decision : let c : Vector Int 8 := #v[0, 3, 3, 1, 0, 0, 0, 0]
    let rs : List ArbReq := [⟨1, 40, true, 0, 0⟩, ⟨2, 5, false, 0, 0⟩]
    quiet.held = false ∧ requesters 0 rs = [1, 2] ∧ requestOf rs 1 = some ⟨1, 40, true, 0, 0⟩ ∧ requesters 104 [⟨3, 1, false, 0, 0⟩] = [] ∧ (∀ q ∈ rs, quiet.eligible 0 q = true) ∧
    (let x := (arbiter 0 c (.replicate 8 0) none none).arb 0
     x.next = none ∧ x.run = none ∧ 1 ≤ x.creditOf 1 ∧ ∀ v ∈ requesters 0 rs, x.creditOf v < x.creditOf 1 ∨ (x.creditOf v = x.creditOf 1 ∧ 1 ≤ v)) ∧
    (let x := (arbiter 0 (.replicate 8 0) #v[0, 2, 4, 0, 0, 0, 0, 0] (some (grant0 1 false)) none).arb 0
     (x.run = some (grant0 1 false)) ∧ (∀ v ∈ requesters 0 rs, x.creditOf v < 1) ∧
     ∀ v ∈ requesters 0 rs, quiet.arbBase 0 v + x.ageOf v < quiet.arbBase 0 2 + x.ageOf 2 ∨ (quiet.arbBase 0 v + x.ageOf v = quiet.arbBase 0 2 + x.ageOf 2 ∧ 2 ≤ v)) := by
  decide +kernel
theorem test_decision : ((after (.arbiterDecision 0 [⟨1, 40, true, 0, 0⟩, ⟨2, 5, false, 0, 0⟩]) (arbiter 0 #v[0, 3, 3, 1, 0, 0, 0, 0] (.replicate 8 0) none none)).arb 0).next =
      some ⟨1, 32, 32, true, true, 0⟩ ∧
    ((after (.arbiterDecision 0 [⟨1, 40, true, 0, 0⟩, ⟨2, 5, false, 0, 0⟩]) (arbiter 0 (.replicate 8 0) #v[0, 2, 4, 0, 0, 0, 0, 0] none none)).arb 0).next =
      some ⟨2, 4, 4, false, false, 4⟩ ∧
    ((after (.arbiterBeat 0 0) (arbiter 0 (.replicate 8 0) (.replicate 8 0) (some (grant0 1 false)) (some (grant0 4 true)))).arb 0).run = some (grant0 4 true) := by
  decide +kernel
theorem witness_withdraw : ∀ e ∈ [(none, none), (none, some (grant0 4 false)), (some (grant0 4 true), none), (some (grant0 3 true), none), (some (grant0 3 false), none)],
    let x := (arbiter 0 (.replicate 8 0) (.replicate 8 0) e.1 e.2).arb 0
    x.run = e.1 ∧ x.next = e.2 := by decide +kernel
theorem test_withdraw : let s := fun run next => after (.grantWithdraw 0) (arbiter 0 (.replicate 8 0) (.replicate 8 0) run next)
    ((s none (some (grant0 4 false))).arb 0).credit = #v[0, 0, 4, 0, 0, 0, 0, 0] ∧ ((s (some (grant0 3 true)) none).arb 0).run = none ∧
    ((s (some (grant0 3 false)) none).arb 0).run = some (grant0 3 false) := by decide +kernel
/-- Set 2 is to use table 3, its arbiters at a slot. -/
def turns (ptr : Nat) : State := (((withF [(Reg.ARB_ACTIVE_SET_k 2, 3)]).setArb ((setArbs 2).headD 0) ⟨ptr, .replicate 8 1, .replicate 8 0, none, none, []⟩))
theorem witness_tables : ∀ e ∈ [(0, true), (1, false), (63, false)], let s := turns e.1
    s.held = false ∧ s.arbTable 2 = 0 ∧ s.get (Reg.ARB_ACTIVE_SET_k 2) = 3 ∧ (((s.arb ((setArbs 2).headD 0)).ptr = 0) ↔ e.2 = true) := by decide +kernel
theorem test_tables : (after (.arbTableActivate 2) (turns 0)).arbTable 2 = 3 ∧ (after (.arbTableActivate 2) (turns 1)).arbTable 2 = 0 ∧
    (after (.arbTableWrite 2 3 0 5) (turns 0)).get Reg.GLB_VIOL_COUNT_COUNT = 1 ∧ (after (.arbTableWrite 2 0 0 5) (turns 0)).get Reg.GLB_VIOL_COUNT_COUNT = 1 ∧
    (after (.arbTableWrite 2 1 3 0x50) (turns 0)).get (Reg.ARB_Tk_t_SLOTSj_OWNER_i 2 1 3 1) = 5 ∧ (after (.arbNextWrite 2) quiet).get (Reg.ARB_ACTIVE_SET_k 0) = 2 := by
  decide +kernel

/-! ## The host -/

/-- The link to the host is up, memory is active, and a line and a claim of bank 0 stand. -/
def hosted (l : List (FieldRef × Nat)) : State :=
  { holding (withF (l ++ [(Reg.HST_LINK_STATE, 2)])) [(0x1000, [11])] with memActive := true, snoop := [(64, ⟨0, true⟩)] }
def claim1 : Claim := ⟨0, 0, 0xFFF, [0], true, [(0, 0)], [], []⟩
theorem witness_host : (hosted []).InRun ∧ (hosted []).HostOpen ∧ (hosted []).claimed none 0x1000 = false ∧ (hosted []).Readable 0x1000 ∧ (hosted []).Writable 0x1000 ∧
    { hosted [] with claims := [claim1] }.claimed none 0 = true ∧ ({ hosted [] with memActive := false } : State).get Reg.HST_LINK_STATE = 2 ∧
    quiet.get Reg.HST_LINK_STATE = 0 ∧ quiet.inReset = false ∧ State.reset.inReset = true ∧ State.reset.InRun := by
  unfold State.InRun State.HostOpen State.Readable State.Writable; decide +kernel
theorem witness_lines : (let s := { hosted [(Reg.HST_CFG_BI_TIMEOUT_MS, 1)] with biWait := [64], biAt := some 0, cycle := 1700000 }
     64 ∈ s.biWait ∧ 65 ∉ s.biWait ∧ s.get Reg.HST_CFG_BI_TIMEOUT_MS = 1 ∧ 1700000 * 1 ≤ s.cycle - 0 ∧ s.InRun) ∧
    (hosted [(Reg.HST_CFG_BI_TIMEOUT_MS, 1)]).biAt = none ∧ (hosted [(Reg.HST_CFG_BI_TIMEOUT_MS, 0)]).get Reg.HST_CFG_BI_TIMEOUT_MS = 0 ∧
    (∀ c ∈ [1699, 1700], let s := { hosted [(Reg.HST_CFG_IRQ_HOLDOFF_US, 1)] with irqWait := true, irqAt := some 0, cycle := c }
      s.get Reg.HST_CFG_IRQ_HOLDOFF_US = 1 ∧ s.irqWait = true ∧ s.cycle = c) := by unfold State.InRun; decide +kernel
theorem test_host : (after (.hostMemRead 64 .owned) (hosted [])).hostReply.1.map (·.toNat) = 11 :: List.replicate 63 0 ∧
    (after (.hostMemRead 65 .shared) (hosted [])).snoop = [(64, ⟨0, true⟩), (65, ⟨(hosted []).snoopSeq, false⟩)] ∧
    memByte (after (.hostMemWrite 65 [1, 2]) (hosted [])).mem 0x1041 = 2 ∧ (after (.hostLinkTrain 8 64 true true) quiet).get Reg.HST_LINK_STATE = 2 ∧
    (after (.hostLinkReset 1) (hosted [])).get Reg.HST_LOSS_CAUSE = 2 ∧ (after (.hostLinkReset 1) (hosted [])).get Reg.HST_LOSS_DIRTY_LINES = 1 := by decide +kernel
theorem test_lines : let s := { hosted [(Reg.HST_CFG_BI_TIMEOUT_MS, 1), (Reg.HST_CFG_IRQ_HOLDOFF_US, 1)] with
      biWait := [64], biAt := some 0, irqWait := true, irqAt := some 0, cycle := 1700 }
    (after (.bisnpResponse 64) s).snoop = [] ∧ (after .biTimeout s).biWait = [64] ∧ (after .biTimeout { s with cycle := 1700000 }).get Reg.HST_LOSS_CAUSE = 4 ∧
    (let u := (after .irqHoldoffExpire s).irq; mapGet 0 u.raised 0 = 1 ∧ mapGet 0 u.sent 0 = 0 ∧ u.pba = 1) ∧
    mapGet 0 (after .irqHoldoffExpire { s with irq := { s.irq with table := mapInsert s.irq.table 1 5 } }).irq.sent 0 = 1 ∧ (after .irqHoldoffExpire { s with cycle := 1699 }).irqWait = true := by decide +kernel
/-- A landing region over the first pages, in DIRECT mode. -/
def lands0 : State :=
  hosted [(Reg.HST_CFG_INGEST_MODE, 1), (Reg.HST_LANDi_CFG_VALID 0, 1), (Reg.HST_LANDi_CFG_WR 0, 1), (Reg.HST_LANDi_CFG_RD 0, 1), (Reg.HST_LANDi_CFG_PAGES 0, 1),
    (Reg.HST_LANDi_CFG_SIG 0, 9), (Reg.HST_LANDi_CFG_NOTIFY_LOG2 0, 1)]
theorem witness_uio : lands0.InRun ∧ lands0.HostOpen ∧ lands0.uioRegion true 0x10FE 2 = some 0 ∧ lands0.uioRegion false 0x1000 1 = some 0 ∧
    lands0.uioRegion true (2 ^ 21 - 1) 2 = none ∧ lands0.uioRegion false (2 ^ 21) 1 = none ∧ lands0.claimedIn 0x10FE 2 = [] ∧ lands0.claimedIn 0x1000 1 = [] ∧ lands0.heldWrites = [] ∧ lands0.get Reg.HST_CFG_INGEST_MODE = 1 ∧
    (hosted []).get Reg.HST_CFG_INGEST_MODE ≠ 1 ∧ (hosted []).uioRegion false 0x1000 1 = none ∧
    lands0.Writable 0x10FE ∧ lands0.Readable 0x1000 ∧ lands0.get (Reg.HST_LANDi_CFG_SIG 0) < 4096 := by
  unfold State.InRun State.HostOpen State.Readable State.Writable; decide +kernel
theorem test_uio : memByte (after (.uioWrite 0x10FE [1, 2, 3, 4]) lands0).mem 0x1101 = 4 ∧ (after (.uioWrite 0x10FE [1, 2, 3, 4]) lands0).sig 9 = 2 ∧
    (after (.uioRead 0x1000 1) lands0).hostReply = ([11], false) ∧ (after (.uioRead 0x200000 1) lands0).get Reg.GLB_VIOL_COUNT_COUNT = 0 ∧
    (after (.uioRead 0x200000 1) (hosted [])).get Reg.GLB_VIOL_COUNT_COUNT = 1 := by decide +kernel

/-! ## The work ledger -/

/-- A ledger with 5 records posted, its completions in a ring of 2 from 0x4000. -/
def ledgered (l : List (FieldRef × Nat)) : State := { hosted (l ++ [(Reg.MBX_CTL_STATE, 3), (Reg.HST_CMPL_BASE_ADDR, 0x4000), (Reg.HST_CMPL_BASE_LOG2, 1)]) with ledgerTail := 5 }
/-- A record of an operation with flags, its payload length, its address and stamp, signal, host address and bytes. -/
def posted (op len addr sig haddr bytes : Nat) : List Word := [op + len * 2 ^ 16, 7, addr, 9, sig, 1, haddr, bytes].map (BitVec.ofNat 64) ++ List.replicate 24 0x0101010101010101
theorem witness_records : (∀ e ∈ [(0, posted 0 0 0 0 0 0), (1, posted 1 0 0x8000 0 0 0), (2, posted 2 192 0x1000 0 0 0), (3, posted 3 0 0x1000 0 0x40 64), (4, posted 4 0 0x1000 0 0x40 64),
      (2, posted 0x102 1 0x10FF 0 0 0)], (ledgered []).InRun ∧ (ledgered []).GoodRecord e.1 (recNats e.2)) ∧
    (let s := { ledgered [] with ledgerBad := true }
     ∀ e ∈ [0x100, 0x101, 0x102], s.nextStarts (recNats (posted e 0 0 0 0 0)) = true ∧ bit ((recNats (posted e 0 0 0 0 0)).getD 0 0) 8 = true) ∧
    (∀ e ∈ [0, 1, 2], recBad (recNats (posted e 193 0 0 0 0)) 0 = true ∧ recBits (recNats (posted e 193 0 0 0 0)) 0 7 0 = e) ∧
    ({ ledgered [] with ledgerTail := 0 }.nextStarts (recNats (posted 0 0 0 0 0 0)) = false) := by unfold State.InRun State.GoodRecord; decide +kernel
theorem witness_steps : (ledgered [(Reg.GLB_ROLE_KEEPER, 1)]).get Reg.GLB_ROLE_KEEPER = 1 ∧ (ledgered []).get Reg.GLB_ROLE_KEEPER = 0 ∧ (ledgered []).stepQueue = [] ∧
    (ledgered []).get Reg.TWN_STATE_STATE ≠ 5 ∧ (ledgered []).get Reg.TWN_STATE_STATE ≠ 6 ∧ (ledgered []).Writable 0x1000 ∧ (ledgered []).cachedLines 17 = [] ∧
    (∀ e ∈ [5, 6], (ledgered [(Reg.TWN_STATE_STATE, e)]).get Reg.TWN_STATE_STATE = e) := by unfold State.Writable; decide +kernel
theorem test_records : (after (.ledgerNop (posted 0 0 0 0 0 0)) (ledgered [])).endedRecs.map (·.status) = [1] ∧
    (after (.ledgerNop (posted 5 0 0 0 0 0)) (ledgered [])).endedRecs.map (·.status) = [0x10] ∧
    (after (.ledgerStep (posted 1 0 0x8000 0 0 0)) (ledgered [])).stepQueue = [⟨0, 0, 0x8000, 9⟩] ∧
    (after (.ledgerStep (posted 1 0 0x8000 0 0 0)) (ledgered [(Reg.GLB_ROLE_KEEPER, 1)])).endedRecs.map (·.status) = [0x11] ∧
    memByte (after (.ledgerWrite (posted 2 192 0x1100 0 0 0)) (ledgered [])).mem 0x11BF = 1 := by decide +kernel
/-- A copy of an operation that has so many of its bytes, and a record that has ended. -/
def copy0 (op copied : Nat) : LedgerRec := ⟨0, 0, op, true, false, true, 9, 1, 7, 0x1000, 0, 0x40, 512, copied, false, 0, 0, 0⟩
def copies (op copied : Nat) : State := { ledgered [] with openRecs := [copy0 op copied] }
theorem witness_copies : (∀ e ∈ [0, 128, 256], (copies 3 e).openRecs.find? (fun x => x.op == 3) = some (copy0 3 e)) ∧
    (∀ e ∈ [0, 448], (copies 4 e).openRecs.find? (fun x => x.op == 4) = some (copy0 4 e) ∧ (0x1000 + e) % 256 + 64 ≤ 256 ∧ (copies 4 e).Readable (0x1000 + e)) ∧
    (∀ e ∈ [128, 256], 0 < min (256 - (0x1000 + e) % 256) (512 - e) ∧ (copies 3 e).Writable (0x1000 + e) ∧ (copies 3 e).cachedLines (granuleOf (0x1100 + e)) = []) := by
  unfold State.Readable State.Writable; decide +kernel
theorem test_copies : ((after (.copyIn [] [⟨[5], false⟩]) (copies 3 128)).openRecs.map (·.copied) = [256]) ∧
    ((after (.copyIn [] [⟨[5], false⟩]) (copies 3 256)).endedRecs.map (·.status) = [1]) ∧
    ((after (.copyOut [] 1) (copies 4 0)).hostWrites.map fun w => (w.addr, leNat (w.bytes.take 8))) = [(0x40, 11)] ∧
    ((after (.copyIn (posted 3 0 0x1000 0 0x40 64) []) (ledgered [])).openRecs.map (·.bytes) = [64]) := by decide +kernel
def ended (status head : Nat) : State := { ledgered [] with endedRecs := [{ copy0 0 0 with status := status }], cmplHead := head, cmplCount := 2, started := 1 }
theorem witness_ended : (∀ e ∈ [(0, false), (1, true)], let s := ended 1 e.1
      s.mayComplete = e.2 ∧ s.detaching = false ∧ s.heldCmpl = [] ∧ s.irqWait = false ∧ s.endedRecs = [{ copy0 0 0 with status := 1 }]) ∧
    (ledgered []).endedRecs = [] ∧ (quiet.get Reg.HST_LINK_STATE = 0) ∧ (ledgered []).get Reg.MBX_CTL_STATE = 3 ∧ (ledgered []).get Reg.HST_LINK_STATE = 2 := by decide +kernel
theorem test_ended : (after .recordComplete (ended 1 1)).hostWrites.map (·.addr) = [0x4000] ∧ (after .recordComplete (ended 1 1)).sig 9 = 1 ∧
    (after .recordComplete (ended 1 0)).heldCmpl.length = 1 ∧ (after .recordComplete (ended 0x12 1)).ledgerBad = true ∧
    (after (.doorbellWake 9 4) (ledgered [])).ledgerTail = 9 := by decide +kernel

/-! ## The mailbox -/

/-- A request of a command with its words from 1 on, in a state of MBX_CTL. -/
def asks (cmd st : Nat) (ws : List Nat) : State :=
  { (hosted [(Reg.MBX_CTL_REQ, 1), (Reg.MBX_CTL_STATE, st), (Reg.MBX_H2Dk_WORD 0, cmd)]).puts ((List.range ws.length).map fun i => (Reg.MBX_H2Dk_WORD (i + 1), ws.getD i 0)) with
    pages := [(0, .bonded 0), (1, .bonded 1)] }
theorem witness_asks : (∀ c ∈ [1, 2, 3, 0x10, 0x11, 0x20, 0x21, 0x22, 0x30, 0x41, 0x99], (asks c 0 []).Asked c ∧ (asks c 0 []).get Reg.MBX_CTL_STATE = 0) ∧
    (∀ st ∈ [1, 2, 3, 4], (asks 1 st []).get Reg.MBX_CTL_STATE = st) ∧ ¬quiet.Asked 1 ∧ quiet.get Reg.MBX_CTL_REQ ≠ 1 := by unfold State.Asked; decide +kernel
theorem witness_attach : (∀ e ∈ [([0x1000, 0x2000, 0x40, 0x1010], false), ([0x1008, 0x2000, 0x40, 0], true), ([0x1000, 0x2000, 0x40, 17], true)], (asks 2 2 e.1).attachBad = e.2) ∧
    (asks 2 4 []).heldCmpl = [] ∧ (asks 2 4 []).irqWait = false ∧ (asks 2 4 []).detaching = false ∧ (asks 3 3 []).openRecs = [] ∧ (asks 3 3 []).endedRecs = [] ∧
    ({ asks 3 3 [] with openRecs := [copy0 3 0] }.openRecs ≠ []) := by decide +kernel
theorem test_attach : (after (.attach 5 0) (asks 2 2 [0x1000, 0x2000, 0x40, 0x1010])).get Reg.MBX_CTL_STATE = 3 ∧
    (after (.attach 5 0) (asks 2 2 [0x1000, 0x2000, 0x40, 0x1010])).get Reg.HST_CMPL_BASE_LOG2 = 16 ∧ (after .detach (asks 3 3 [])).get Reg.MBX_CTL_STATE = 4 ∧
    (after (.attach 5 0) (asks 2 2 [1])).get (Reg.MBX_D2Hk_WORD 0) = 2 + 3 * 2 ^ 32 ∧ (after .status (asks 0x99 2 [])).get (Reg.MBX_D2Hk_WORD 0) = 0x99 + 2 ^ 32 ∧
    (after .status (asks 1 4 [])).get (Reg.MBX_D2Hk_WORD 1) = 4 := by decide +kernel
theorem witness_retire : (∀ e ∈ [(0, true), (27, true), (28, false), (5, false)], let s := (asks 0x11 2 [e.1]).put Reg.GLB_CHMAP_ENABLED 0xFFFFFDF
      s.mbxWord 1 % 32 = e.1 ∧ ((s.mbxWord 1 % 32 < 28 ∧ bit (s.get Reg.GLB_CHMAP_ENABLED) (s.mbxWord 1 % 32) = true) ↔ e.2 = true)) := by decide +kernel
theorem test_retire : (after .retire ((asks 0x11 2 [27]).put Reg.GLB_CHMAP_ENABLED 0xFFFFFFF)).get (Reg.CHn_STATUS_RETIRE_PENDING 27) = 1 ∧
    (after (.selftest 3) ((asks 0x10 2 []).put Reg.GLB_CHMAP_ENABLED 6)).get (Reg.MBX_D2Hk_WORD 1) = 2 := by decide +kernel
/-- An image that passes every check: SIZE, SIG_OFF, four sections; the words of its first 0x140 bytes, and its other words that are not zero. -/
def imageWords (part : Nat) : List Nat :=
  [0x4D554331 + 2 ^ 32, 0x403C + 0x4000 * 2 ^ 32, part, 4] ++ List.replicate 28 0 ++
  [1 + 0x1000 * 2 ^ 32, 16, 3 + 0x2000 * 2 ^ 32, 8, 0xA + 0x3000 * 2 ^ 32, 0, 0xF + 0x4000 * 2 ^ 32, 60]
def keyed (s : State) (bs : List Byte) : State := (List.range 4).foldl (fun s k => s.blow (Reg.SEC_KEYHASHk_BYTES k) (leNat (((sha256 bs).drop (8 * k)).take 8))) s
/-- A staging over the first object, in a state of SEC_UPD. -/
def stages (cmd upd : Nat) (ws : List Nat) : State :=
  { (asks cmd 2 ws).puts [(Reg.SEC_UPD_STATE, upd), (Reg.SEC_UPD_SIZE, 0x403C)] with staging := some ⟨0, 2 ^ 21⟩ }
def stagedImage : State := keyed { stages 0x22 1 [] with mem := store [(0, imageWords (quiet.get Reg.GLB_ID_PART))] } (zeroBytes 60)
theorem witness_commit : stagedImage.verifyImage (stagedImage.stagedReader 0) true true = 0 ∧ stagedImage.verifyImage (stagedImage.stagedReader 0) false true = 6 ∧
    (stages 0x22 1 []).verifyImage ((stages 0x22 1 []).stagedReader 0) true true = 1 ∧ stagedImage.get Reg.SEC_UPD_STATE = 1 ∧ stagedImage.staging = some ⟨0, 2 ^ 21⟩ := by
  decide +kernel
theorem test_commit_image : (after (.imgCommit true) stagedImage).get Reg.SEC_UPD_STATE = 2 ∧ (after (.imgCommit true) (stages 0x22 1 [])).get Reg.SEC_UPD_CAUSE = 1 := by
  decide +kernel
def stagingObj0 : Obj := ⟨3, 0, 2 ^ 21, true, false, false, none⟩
theorem witness_begin : (∀ e ∈ [(0, false), (1, false), (2, true), (4, true), (5, false)], ((asks 0x20 2 [0x1000, 3]).put Reg.SEC_UPD_STATE e.1).flashBusy = e.2) ∧
    ((asks 0x20 2 [0x4000001, 3]).mbxWord 1 % 2 ^ 32 = 0x4000001) ∧ ((asks 0x20 2 [0x4000000, 3]).mbxWord 1 % 2 ^ 32 = 0x4000000) ∧
    ({ asks 0x20 2 [0x1000, 3] with objects := [stagingObj0] }.stagingObj 3 0x1000 = some stagingObj0) ∧ (asks 0x20 2 [0x1000, 3]).stagingObj 3 0x1000 = none ∧
    ((asks 0x20 2 []).put Reg.SEC_BOOT_RECOVERY 1).get Reg.SEC_BOOT_RECOVERY = 1 ∧ (asks 0x20 2 []).get Reg.SEC_BOOT_RECOVERY ≠ 1 := by decide +kernel
theorem test_begin : (after .imgBegin { asks 0x20 2 [0x1000, 3] with objects := [stagingObj0] }).get Reg.SEC_UPD_STATE = 1 ∧
    (after .imgBegin (asks 0x20 2 [0x4000001, 3])).get (Reg.MBX_D2Hk_WORD 0) = 0x20 + 3 * 2 ^ 32 ∧
    (after .imgBegin ((asks 0x20 2 [8, 0]).put Reg.SEC_BOOT_RECOVERY 1)).staging = some ⟨0, 0x4000000⟩ := by decide +kernel
theorem witness_data : (∀ e ∈ [(0, 1), (0xD0, 48), (0x4038, 4)], let s := stages 0x21 1 [e.1 + e.2 * 2 ^ 32]
      s.mbxWord 1 % 2 ^ 32 = e.1 ∧ s.mbxWord 1 / 2 ^ 32 % 2 ^ 8 = e.2 ∧ s.get Reg.SEC_UPD_STATE = 1 ∧ e.1 % 8 = 0 ∧ 1 ≤ e.2 ∧ e.2 ≤ 48 ∧ e.1 + e.2 ≤ s.get Reg.SEC_UPD_SIZE ∧
      e.1 % 256 + e.2 ≤ 256 ∧ ({ s with staging := none } : State).Writable e.1 ∧ ({ s with staging := none } : State).cachedLines (granuleOf e.1) = []) ∧
    (stages 0x21 2 [0]).get Reg.SEC_UPD_STATE ≠ 1 ∧ (asks 0x21 2 []).staging = none := by unfold State.Writable; decide +kernel
theorem test_data : memByte (after .imgData (stages 0x21 1 [8 + 2 * 2 ^ 32, 0x0403])).mem 9 = 4 ∧
    (after .imgData (stages 0x21 1 [0x4038 + 5 * 2 ^ 32])).get (Reg.MBX_D2Hk_WORD 0) = 0x21 + 3 * 2 ^ 32 := by decide +kernel
def imageFlash : Map Byte :=
  let m := flashProgram [] (bankBase 1) (wordsToBytes (imageWords (quiet.get Reg.GLB_ID_PART)))
  flashProgram (flashProgram m (bankBase 1 + 0x1000) (zeroBytes 16)) (bankBase 1 + 0x2000) (zeroBytes 8)
def flashed : State := keyed { stages 0 4 [] with flash := imageFlash } (List.replicate 60 0xFF)
theorem witness_flash : flashed.otherBank = 1 ∧ flashed.verifyBank 1 true true = 0 ∧ flashed.verifyBank 1 true false = 8 ∧ (∀ st ∈ [2, 3, 4], (stages 0 st []).get Reg.SEC_UPD_STATE = st) ∧
    (quiet.staging = none) := by decide +kernel
theorem test_flash : (after (.imageFlashWrite true true) (stages 0 2 [])).get Reg.SEC_UPD_STATE = 3 ∧
    mapGet erased (after (.imageFlashWrite true true) { (stages 0 3 []).put Reg.SEC_UPD_SIZE 8 with mem := store [(0, [7])] }).flash (bankBase 1) = 7 := by
  decide +kernel
theorem witness_tree : (∀ e ∈ [(0, 0), (8191, 0), (0, 1), (2 ^ 20 - 1, 0)], let s := { (asks 0 2 []).put Reg.SEC_ATT_THERMO e.2 with attCounter := e.1 }
      s.keyBad = false ∧ s.get Reg.SEC_ATT_READY = 0 ∧ max s.attCounter (8192 * s.get Reg.SEC_ATT_THERMO) < 2 ^ 20) ∧
    ({ asks 0 2 [] with attCounter := 2 ^ 20 }.attCounter = 2 ^ 20) := by decide +kernel
theorem test_tree : (after .bottomTreeBuild { asks 0 2 [] with attCounter := 8191 }).get Reg.SEC_ATT_THERMO = 1 ∧
    (after .bottomTreeBuild { asks 0 2 [] with attCounter := 8191 }).topLeaf = 8191 ∧ (after .bottomTreeBuild { asks 0 2 [] with attCounter := 2 ^ 20 }).get Reg.SEC_ATT_READY = 0 := by
  decide +kernel
/-- A request of ATTEST for an address, the tree ready or not. -/
def attests (ready a : Nat) : State := (asks 0x30 2 [1, 2, 3, 4, a]).puts [(Reg.SEC_ATT_READY, ready), (Reg.SEC_ATT_BOTTOM_LEFT, 1024)]
theorem witness_attest : (∀ e ∈ [(0, 0), (1, 8), (1, 0x1000)], let s := attests e.1 e.2
      s.Asked 0x30 ∧ s.mbxWord 5 % 2 ^ 48 = e.2 ∧ s.get Reg.SEC_ATT_READY = e.1) ∧ (attests 0 0).keyBad = false ∧ (attests 0 0).nextLeaf < 2 ^ 20 ∧
    ({ attests 0 0 with keyBad := true }.keyBad = true) := by unfold State.Asked; decide +kernel
theorem witness_report : (State.lanternWrite 16 (attests 1 0x1000) 0x1000 ((attests 1 0x1000).reportBody ++ fitBytes 3284 [])).1 = false := by decide +kernel
theorem test_attest : (after (.attest []) (attests 0 0)).get (Reg.MBX_D2Hk_WORD 0) = 0x30 + 4 * 2 ^ 32 ∧
    (after (.attest []) (attests 1 8)).get (Reg.MBX_D2Hk_WORD 0) = 0x30 + 3 * 2 ^ 32 ∧ (after .coldRestart (asks 0x41 2 [])).rstLatch = some (7, 0) := by decide +kernel

/-! ## Debug and JTAG -/

/-- Debug open, chamber 2 in a state, the debug address set. -/
def opened (st a : Nat) : State := (withF [(Reg.CHn_STATUS_STATE 2, st), (Reg.SEC_DBG_ADDR_ADDR, a)]).modCh 2 fun c => { c with sregs := c.sregs.set 1 5 }
theorem witness_debug : (∀ e ∈ [(1, 0x120000000048), (4, 0x120000000048), (2, 0x120000000048), (0, 0x2BFFFFFFFFFF), (0, 0x0FFFFFFFFFFF), (0, 0x2C0000000000), (1, 0x100000000000)],
      let s := opened e.1 e.2
      s.InRun ∧ s.get Reg.SEC_DBG_CLOSED = 0 ∧ s.get Reg.SEC_DBG_ADDR_ADDR = e.2 ∧ s.chState 2 = e.1) ∧
    ((opened 1 0).put Reg.SEC_DBG_CLOSED 1).get Reg.SEC_DBG_CLOSED = 1 := by unfold State.InRun; decide +kernel
theorem test_debug : (after (.debugDataAccess (some 7)) (opened 2 0x120000000048)).get (Reg.CHn_VIOL_COUNT_COUNT 2) = 1 ∧
    (after (.debugDataAccess (some 7)) (opened 1 0x120000000048)).get Reg.SEC_DBG_ADDR_ADDR = 0x120000000050 ∧
    (after (.jtagPrivateAccess 0x100000000000 none) ((opened 1 0).put Reg.SEC_DBG_CLOSED 1)).jtag.out = 0 := by decide +kernel
theorem test_jtag : (after (.bypass 5) quiet).jtag.out = 10 ∧ (after .idcode quiet).jtag.out % 4096 = 0x3A7 * 2 + 1 ∧ (after (.extest 3 9) quiet).jtag = ⟨3, 9, true⟩ ∧
    (after (.samplePreload 3 9) quiet).jtag = ⟨3, 9, false⟩ := by decide +kernel

/-! ## Cold resets and boot -/

theorem witness_boot : State.reset.inReset = true ∧ State.reset.tripped = false ∧ quiet.inReset = false ∧ { State.reset with tripped := true }.tripped = true ∧
    (let u := (State.reset.fitFlash []).bootStart
     u.verifyBank u.selectedBank true true ≠ 0 ∧ u.verifyBank (1 - u.selectedBank) true true ≠ 0) ∧
    (let u := (keyed { State.reset with flash := imageFlash } (List.replicate 60 0xFF)).bootStart
     u.selectedBank = 0 ∧ u.verifyBank 0 true true ≠ 0 ∧ u.verifyBank 1 true true = 0) := by decide +kernel
theorem witness_boot_first : let u := (keyed { State.reset with flash := flashProgram imageFlash 0 (selectorRecord 0 1) } (List.replicate 60 0xFF)).bootStart
    u.selectedBank = 1 ∧ u.verifyBank 1 true true = 0 := by decide +kernel
theorem test_boot : (after (.coldBoot ⟨[], 3, 3, true, 0⟩) State.reset).get Reg.SEC_BOOT_RECOVERY = 1 ∧ (after (.coldBoot ⟨[], 0, 3, true, 0⟩) State.reset).get Reg.SEC_BOOT_CAUSE_SEL = 8 ∧
    (after (.railUndervoltage 8) quiet).rstLatch = some (4, 8) ∧ (after (.railUndervoltage 9) quiet).rstLatch = quiet.rstLatch ∧
    (after (.coreResetLevel 659) quiet).rstLatch = some (3, 0) ∧ (after (.thermalTrip 1760 0) quiet).tripped = true ∧ (after (.thermalTrip 1759 1679) quiet).tripped = false ∧
    (after .referenceLoss quiet).rstLatch = some (5, 0) ∧ (after .pwrRstNAssert quiet).rstLatch = some (2, 0) ∧ (after (.powerOn true) State.reset).rstLatch = some (1, 0) := by
  decide +kernel

/-! ## Hold, the power states and the governor -/

/-- In Hold with VDD_CORE at a level, latched or not, chamber 0 held from Run. -/
def holds (latched mv : Nat) : State :=
  { withF [(Reg.PCR_PSTATE_HOLD, 1), (Reg.PCR_BROWN_COUNT_LATCHED, latched), (Reg.CHn_STATUS_STATE 0, 5)] with
    vddMv := mv, chambers := [(0, { Chamber.reset with savedState := 2 })] }
theorem witness_hold : (∀ e ∈ [(0, 700), (1, 720), (1, 721)], let s := holds e.1 e.2
      s.held = true ∧ s.get Reg.PCR_BROWN_COUNT_LATCHED = e.1 ∧ s.vddMv = e.2 ∧ s.deferred = []) ∧ busy.held = false ∧
    (∀ c ∈ [1699999999, 1700000000], let s := { busy with dips := List.replicate 16 0, cycle := c }
      s.dips[15]? = some 0 ∧ s.cycle - 0 = c ∧ s.held = false) := by decide +kernel
theorem test_hold : (after (.dipStart 704) busy).chState 0 = 5 ∧ (after (.dipStart 704) { busy with dips := List.replicate 16 0, cycle := 1699999999 }).get Reg.PCR_BROWN_COUNT_LATCHED = 1 ∧
    (after (.dipStart 704) { busy with dips := List.replicate 16 0, cycle := 1700000000 }).get Reg.PCR_BROWN_COUNT_LATCHED = 0 ∧
    (after (.dipEnd 650 721) (holds 0 700)).chState 0 = 2 ∧ (after (.dipEnd 650 721) (holds 1 700)).held = true ∧ (after .brownRelease (holds 1 721)).chState 0 = 2 ∧
    (after .brownRelease (holds 1 720)).get Reg.GLB_VIOL_COUNT_COUNT = 1 := by decide +kernel
/-- A request of a power state with a time to wait, from a state, so long idle, in Hold or not. -/
def rests (req st idle hold : Nat) : State :=
  { withF [(Reg.PCR_PSTATE_REQ, req), (Reg.PCR_PSTATE_STATE, st), (Reg.PCR_PSTATE_IDLE_US, 1), (Reg.PCR_PSTATE_HOLD, hold)] with dozeIdle := idle, keepIdle := idle }
theorem witness_rest : (∀ e ∈ [(1, 0, 1700, 0), (2, 0, 1700, 0), (2, 1, 1700, 0), (1, 0, 1699, 0), (2, 0, 1700, 1), (0, 2, 0, 0), (0, 2, 0, 1)], let s := rests e.1 e.2.1 e.2.2.1 e.2.2.2
      s.get Reg.PCR_PSTATE_REQ = e.1 ∧ s.get Reg.PCR_PSTATE_STATE = e.2.1 ∧ s.get Reg.PCR_PSTATE_IDLE_US = 1 ∧ s.dozeIdle = e.2.2.1 ∧ s.keepIdle = e.2.2.1 ∧
      s.held = (e.2.2.2 == 1) ∧ s.inReset = false ∧ s.mayDoze = true ∧ s.mayKeep = true) := by decide +kernel
theorem test_rest : (after .dozeEntry (rests 1 0 1700 0)).get Reg.PCR_PSTATE_STATE = 1 ∧ (after .dozeEntry (rests 1 0 1699 0)).get Reg.PCR_PSTATE_STATE = 0 ∧
    (after .keepEntry (rests 2 1 1700 0)).get Reg.PCR_PSTATE_STATE = 2 ∧ (after .powerStateExit (rests 0 2 0 0)).get Reg.PCR_PSTATE_STATE = 0 ∧
    (after .keepEntry (rests 2 0 1700 1)).deferred = [.pstate 2] ∧ (after (.pstateRequest 3) quiet).get Reg.GLB_VIOL_COUNT_COUNT = 1 := by decide +kernel
/-- The governor with its limits, its duties, and whether the last step was DRAM's. -/
def governs (a h : Nat) (dram : Bool) : State :=
  { withF [(Reg.PCR_GOV_STAT_DUTY_A, a), (Reg.PCR_GOV_STAT_DUTY_H, h), (Reg.PCR_GOV_CFG_PL1_W, 100), (Reg.PCR_GOV_CFG_PL2_W, 100), (Reg.PCR_GOV_CFG_ICC_A, 100),
      (Reg.PCR_THERM_CFG_LOGIC_TGT, 90), (Reg.PCR_THERM_CFG_DRAM_TGT, 85)] with govDram := dram }
/-- A sample at a power, current and two temperatures. -/
def sample (mw ma logic dram : Nat) : GovSample := ⟨BitVec.ofNat 24 mw, BitVec.ofNat 24 mw, 5000, BitVec.ofNat 24 ma, BitVec.ofNat 12 logic, BitVec.ofNat 12 dram⟩
theorem witness_governor : (∀ e ∈ [(64, 64), (8, 8), (8, 9), (9, 8), (0, 0)], (governs e.1 e.2 false).get Reg.PCR_GOV_STAT_DUTY_A = e.1 ∧
      (governs e.1 e.2 false).get Reg.PCR_GOV_STAT_DUTY_H = e.2 ∧ (governs e.1 e.2 true).govDram = true) ∧
    (let s := governs 64 64 false
     s.get Reg.PCR_GOV_CFG_PL1_W = 100 ∧ s.get Reg.PCR_GOV_CFG_ICC_A = 100 ∧ s.get Reg.PCR_THERM_CFG_LOGIC_TGT = 90 ∧ s.get Reg.PCR_THERM_CFG_DRAM_TGT = 85 ∧ s.iccSeen = false) := by
  decide +kernel
def duties (t : State) : Nat × Nat × Nat := (t.get Reg.PCR_GOV_STAT_DUTY_A, t.get Reg.PCR_GOV_STAT_DUTY_H, t.get Reg.PCR_GOV_STAT_LIMITER)
theorem test_governor : let d := fun a h dram g => duties (after (.governorInterval g) (governs a h dram))
    d 64 64 false (sample 100001 0 0 0) = (63, 64, 3) ∧ d 8 9 false (sample 100001 0 0 0) = (8, 8, 3) ∧
    d 64 64 false (sample 0 0 0 1361) = (64, 63, 16) ∧ d 64 8 false (sample 0 0 0 1361) = (63, 8, 16) ∧ d 60 60 false (sample 98000 98000 1408 1328) = (60, 61, 0) ∧
    d 60 64 false (sample 98000 98000 1408 1328) = (61, 64, 0) ∧ d 60 60 true (sample 98000 98000 1408 1328) = (61, 60, 0) ∧
    d 60 60 false (sample 98001 0 0 0) = (60, 60, 0) ∧ d 60 60 false (sample 0 0 1409 0) = (60, 60, 0) := by decide +kernel
theorem test_limits : (after (.iccExcess 100001) (governs 64 64 false)).get Reg.PCR_GOV_STAT_DUTY_A = 56 ∧ (after (.iccExcess 100001) (governs 9 64 false)).get Reg.PCR_GOV_STAT_DUTY_A = 8 ∧
    (after (.iccExcess 100000) (governs 64 64 false)).iccSeen = false ∧ (after (.govLimitWrite false 0x044C03E80352) quiet).get Reg.GLB_VIOL_COUNT_COUNT = 0 ∧
    (after (.govLimitWrite false 0x044C03E80353) quiet).get Reg.PCR_GOV_CFG_PL1_W = 850 ∧ (after (.govLimitWrite false 0x044C03E80353) quiet).get Reg.GLB_VIOL_COUNT_COUNT = 1 ∧
    (after (.govLimitWrite true 0x6064) quiet).get Reg.PCR_THERM_CFG_DRAM_TGT = 95 ∧ (after (.govLimitWrite true 0x5F64) quiet).get Reg.GLB_VIOL_COUNT_COUNT = 0 := by decide +kernel

/-! ## The service panel -/

/-- Slot 5 in a state, its button, latch and presence, in service or not. -/
def panel (st latch present service : Nat) : State :=
  withF [(Reg.BMCm_STATE_STATE 5, st), (Reg.SVC_SLOTm_LATCH 5, latch), (Reg.SVC_SLOTm_PRESENT 5, present), (Reg.MBX_CTL_STATE, service)]
theorem witness_panel : (∀ e ∈ [(0, 0, 0, 1), (1, 1, 1, 2), (2, 1, 1, 2), (3, 1, 1, 3), (4, 1, 1, 2), (5, 1, 1, 4), (6, 0, 0, 2), (1, 1, 1, 1), (0, 0, 1, 2)], let s := panel e.1 e.2.1 e.2.2.1 e.2.2.2
      s.InRun ∧ s.slotState 5 = e.1 ∧ s.get (Reg.SVC_SLOTm_LATCH 5) = e.2.1 ∧ s.get (Reg.SVC_SLOTm_PRESENT 5) = e.2.2.1 ∧ s.get Reg.MBX_CTL_STATE = e.2.2.2 ∧
      s.get (Reg.SVC_SLOTm_BUTTON 5) ≠ 1 ∧ s.drainCmd = none ∧ s.moves = [] ∧ s.resetOf (Reg.BMCm_STATE_STATE 5).key = 0) ∧
    ((panel 3 1 1 2).put (Reg.SVC_SLOTm_BUTTON 5) 1).get (Reg.SVC_SLOTm_BUTTON 5) = 1 := by unfold State.InRun; decide +kernel
theorem witness_reasons : ((panel 3 1 1 2).put Reg.FLS_POLICY_DRAIN_HEADROOM_GIB 0).drainReason 5 = 0 ∧ ((panel 3 1 1 2).put (Reg.BMCm_STATE_STATE 0) 4).drainReason 5 = 3 ∧
    (∀ c ∈ [8500000000, 8500000001], let s := { panel 4 1 1 2 with drainPress := some 0, cycle := c }
      s.slotState 5 = 4 ∧ s.drainPress = some 0 ∧ s.cycle - 0 = c ∧ s.drainCmd = none) ∧ (panel 2 1 1 2).Calm := by unfold State.Calm; decide +kernel
theorem test_panel : (after (.slotButtonPress 5) ((panel 3 1 1 2).put Reg.FLS_POLICY_DRAIN_HEADROOM_GIB 0)).slotState 5 = 4 ∧
    (after (.slotButtonPress 5) ((panel 3 1 1 2).put (Reg.BMCm_STATE_STATE 0) 4)).get (Reg.SVC_SLOTm_REFUSED 5) = 3 ∧
    (after (.slotButtonPress 5) { panel 4 1 1 2 with drainPress := some 0, cycle := 8500000000 }).slotState 5 = 3 ∧
    (after (.slotButtonPress 5) { panel 4 1 1 2 with drainPress := some 0, cycle := 8500000001 }).slotState 5 = 4 ∧
    (after (.slotButtonPress 5) (panel 5 1 1 4)).slotState 5 = 2 ∧ (after (.slotButtonPress 5) (panel 5 1 1 1)).get (Reg.SVC_SLOTm_REFUSED 5) = 4 := by decide +kernel
theorem test_latch : (after (.latchClose 5) (panel 0 0 1 2)).slotState 5 = 2 ∧ (after (.latchOpen 5) (panel 2 1 1 2)).slotState 5 = 0 ∧
    (after (.latchOpen 5) (panel 3 1 1 2)).slotState 5 = 6 ∧ (after (.cartridgeRemoved 5) (panel 3 1 1 2)).slotState 5 = 6 ∧
    (after (.cartridgeRemoved 5) (panel 0 0 1 2)).get (Reg.SVC_SLOTm_PRESENT 5) = 0 ∧ (after (.cartridgeAddComplete 5 true) (panel 2 1 1 2)).slotState 5 = 3 ∧
    (after (.cartridgeAddFail 5 3) (panel 2 1 1 2)).get (Reg.SVC_SLOTm_ADD_FAIL 5) = 4 ∧ (after (.cartridgeInserted 5) quiet).get (Reg.SVC_SLOTm_PRESENT 5) = 1 := by
  decide +kernel
theorem test_release : (after (.buttonRelease 5) ((panel 3 1 1 2).put (Reg.SVC_SLOTm_BUTTON 5) 1)).get (Reg.SVC_SLOTm_BUTTON 5) = 0 ∧
    (after (.buttonRelease 6) (quiet.put Reg.SVC_DEV_BUTTON 1)).get Reg.SVC_DEV_BUTTON = 0 ∧ (after (.codePatternEnd 5) { quiet with slotCode := [(5, 3)] }).slotCode = [] := by
  decide +kernel
/-- The device button of a side: its twin state, whether it is alone, and when a handover was asked for. -/
def sides (twin st alone : Nat) (press : Option Nat) (c : Nat) : State :=
  { withF [(Reg.GLB_ROLE_TWIN, twin), (Reg.TWN_STATE_STATE, st), (Reg.GLB_ROLE_ALONE, alone), (Reg.GLB_ROLE_KEEPER, twin)] with handPress := press, cycle := c }
theorem witness_device : (∀ e ∈ [(0, 0, 0), (1, 2, 0), (1, 5, 0), (1, 3, 1), (1, 4, 0)], ∀ c ∈ [8500000000, 8500000001], let s := sides e.1 e.2.1 e.2.2 (some 0) c
      s.InRun ∧ s.get Reg.GLB_ROLE_TWIN = e.1 ∧ s.get Reg.TWN_STATE_STATE = e.2.1 ∧ s.get Reg.GLB_ROLE_ALONE = e.2.2 ∧ s.cycle - 0 = c ∧ s.handMark = false ∧
      s.get Reg.SVC_DEV_BUTTON ≠ 1 ∧ s.get Reg.SVC_EVENT_DEV_BTN ≤ 1) := by unfold State.InRun; decide +kernel
theorem test_device : let p := fun s => after (.deviceButtonPress true false) s
    (p (sides 1 2 0 none 7)).get Reg.TWN_STATE_STATE = 5 ∧ (p (sides 1 2 0 none 7)).handPress = some 7 ∧ (p (sides 1 5 0 (some 0) 8500000000)).get Reg.TWN_STATE_STATE = 2 ∧
    (p (sides 1 5 0 (some 0) 8500000001)).get Reg.SVC_DEV_REFUSED = 4 ∧ (p (sides 1 3 1 none 0)).get Reg.SVC_DEV_REFUSED = 2 ∧
    (after (.deviceButtonPress false false) (sides 1 2 0 none 0)).get Reg.SVC_DEV_REFUSED = 3 := by decide +kernel

/-! ## The twin engine -/

/-- Side 0 of a twin, node 5, its partner 133 at port 7, in a state. -/
def twinned (st alone : Nat) (l : List (FieldRef × Nat)) : State :=
  { holding (withF ([(Reg.GLB_ROLE_TWIN, 1), (Reg.TWN_STATE_STATE, st), (Reg.GLB_ROLE_ALONE, alone), (Reg.MBX_CTL_STATE, 2), (Reg.HGP0_NODE_NODE, 5), (Reg.TWN_CFG_PARTNER, 133),
      (Reg.HGPn_STATUS_STATE 7, 2), (Reg.HGPn_STATUS_PEER_NODE 7, 133), (Reg.HGP0_RTk_PRI_c 133 3, 0x80), (Reg.TWN_WIN_OWN_GIB, 1), (Reg.TWN_WIN_PEER_BASE, 1),
      (Reg.TWN_WIN_PEER_GIB, 1), (Reg.TWN_CFG_HB_US, 1), (Reg.TWN_CFG_DETECT_MS, 1)] ++ l)) [(0x1000, [11])] with booted := ⟨3, 2, []⟩ }
/-- What the partner shows: its node and state. -/
def partner (node st : Nat) : Partner := ⟨BitVec.ofNat 8 node, 1, 1, 0, 1, 2, 3, BitVec.ofNat 3 st⟩
theorem witness_pairing : (twinned 1 0 []).InRun ∧ (twinned 1 0 []).mayPair = true ∧ (twinned 2 0 []).mayPair = false ∧ (∀ st ∈ [1, 2, 3], (twinned 1 0 []).pairFits (partner 133 st) = true) ∧
    (twinned 1 0 []).pairFits (partner 134 1) = false ∧ (∀ e ∈ [(1, 0, 3), (1, 0, 4), (3, 1, 1), (3, 1, 4)], (twinned e.1 e.2.1 []).mayResync (partner 133 e.2.2) = true ∧
      (twinned e.1 e.2.1 []).pairFits (partner 133 e.2.2) = true ∧ (twinned e.1 e.2.1 []).get Reg.GLB_ROLE_ALONE = e.2.1) ∧
    (twinned 2 0 []).mayResync (partner 133 1) = false := by unfold State.InRun; decide +kernel
theorem test_pairing : (after (.twinPairing (partner 133 1)) (twinned 1 0 [])).get Reg.TWN_STATE_STATE = 2 ∧ (after (.twinPairing (partner 134 1)) (twinned 1 0 [])).get Reg.TWN_STATE_MISMATCH = 1 ∧
    (after (.resyncStart (partner 133 1)) (twinned 3 1 [])).get Reg.TWN_STATE_STATE = 4 ∧ (after .resyncFinish (twinned 4 0 [])).get Reg.TWN_STATE_STATE = 2 ∧
    (after .resyncFinish (twinned 4 1 [])).get Reg.GLB_ROLE_ALONE = 0 := by decide +kernel
def mirrors : State := { twinned 2 0 [] with mirrorQ := [16], trv := some { step0 (plan0 2 0) with mark := some 1 } }
theorem witness_mirror : mirrors.copies = true ∧ mirrors.InRun ∧ mirrors.portUp 7 = true ∧ mirrors.pickPort .write 3 [7] = some 7 ∧ mirrors.kpr = none ∧
    (twinned 3 1 []).copies = false ∧ mirrors.heldWrites = [] ∧ ((twinned 2 0 []).mirrorQ = []) := by unfold State.InRun; decide +kernel
theorem test_mirror : (after .mirrorCopy mirrors).twinSent = [.mark 9] ∧ (after .mirrorCopy mirrors).mirrorQ = [] ∧ (after (.markReceive 8 false) mirrors).twinSent = [.ack 8] ∧
    (after (.markReceive 8 true) mirrors).takeoverDue = some 2 := by decide +kernel
/-- A side whose step waits in COMMIT for its acknowledgement, and a keeper's that waits with its version. -/
def commits : State := { twinned 2 0 [(Reg.TRV_STATE_STATE, 4)] with trv := some { step0 (plan0 2 0) with mark := some 0 } }
def advances : State := { twinned 5 0 [] with kpr := some { table0 .run ⟨4, 0, none⟩ with mark := some 0 } }
theorem witness_commit_ack : commits.InRun ∧ commits.get Reg.TRV_STATE_STATE = 4 ∧ (recBits (plan0 2 0).header 11 7 0 = 0xFF ∧ recBits (plan0 2 0).header 11 15 8 = 0xFF) ∧
    commits.get Reg.TWN_STATE_STATE = 2 ∧ advances.get Reg.TWN_STATE_STATE = 5 ∧ advances.trv = none ∧ (table0 .run ⟨4, 0, none⟩).entries ≠ [] ∧
    (∀ w ∈ (table0 .run ⟨4, 0, none⟩).entries, recBits w 0 7 0 = 0xFF) := by unfold State.InRun; decide +kernel
theorem test_commit_ack : (after .commitAck commits).get Reg.TRV_LAST_STATUS = 1 ∧ (after .commitAck commits).get Reg.TWN_STATE_OWN_COMMIT = 9 ∧ (after .commitAck commits).sig 19 = 1 ∧
    (after .commitAck advances).sig 0 = 1 ∧ (after .commitAck advances).kpr.map (·.version) = some 7 := by decide +kernel
theorem witness_beats : (∀ e ∈ [(2, 1699), (2, 1700), (3, 1700), (7, 1700), (1, 1700)], let s := { twinned e.1 0 [] with hbSentAt := some 0, cycle := e.2 }
      s.get Reg.TWN_CFG_HB_US = 1 ∧ s.get Reg.TWN_STATE_STATE = e.1 ∧ s.cycle = e.2) ∧
    (∀ e ∈ [(2, 1), (5, 0), (4, 0), (4, 1)], ∀ c ∈ [1699999, 1700000], let s := { twinned e.1 e.2 [(Reg.HGPn_STATUS_STATE 6, 2)] with cycle := c }
      s.get Reg.TWN_CFG_DETECT_MS = 1 ∧ s.get Reg.TWN_STATE_STATE = e.1 ∧ s.cycle - s.hbSeenAt = c ∧ s.portUp 6 = true ∧ s.get Reg.GLB_ROLE_ALONE = e.2) ∧
    (∀ n < 7, (twinned 2 0 []).portUp n = false) ∧ (quiet.get Reg.GLB_ROLE_TWIN = 0) := by decide +kernel
theorem test_beats : (after .heartbeatSend { twinned 2 0 [] with hbSentAt := some 0, cycle := 1700 }).twinSent = [.heartbeat 2] ∧
    (after .heartbeatSend { twinned 2 0 [] with hbSentAt := some 0, cycle := 1699 }).twinSent = [] ∧ (after (.heartbeatReceive 7) (twinned 2 0 [])).takeoverDue = some 3 ∧
    (after (.heartbeatReceive 3) (twinned 2 0 [])).get Reg.TWN_STATE_STATE = 7 ∧ (after (.heartbeatReceive 7) (twinned 4 1 [])).get Reg.TWN_STATE_STATE = 3 ∧
    (after .heartbeatTimeout { twinned 2 0 [(Reg.HGPn_STATUS_STATE 6, 2)] with cycle := 1700000 }).takeoverDue = some 1 ∧
    (after .heartbeatTimeout { twinned 2 0 [] with cycle := 1700000 }).get Reg.TWN_STATE_STATE = 7 ∧ (after .heartbeatTimeout { twinned 2 0 [] with cycle := 1699999 }).get Reg.TWN_STATE_STATE = 2 := by
  decide +kernel
theorem test_takeover : let t := after .twinTakeover { twinned 2 0 [(Reg.GLB_ROLE_SIDE, 1), (Reg.HGP0_NODE_NODE, 133)] with takeoverDue := some 1 }
    t.get Reg.TWN_STATE_STATE = 3 ∧ t.get Reg.HGP0_NODE_NODE = 5 ∧ t.get Reg.HGP0_NODE_ALIAS = 133 ∧ t.get Reg.TWN_COUNT_TAKEOVERS = 1 := by decide +kernel
theorem witness_handover : ((twinned 5 0 []).handMark = false ∧ (twinned 5 0 []).get Reg.TRV_STATE_STATE = 0 ∧ (twinned 5 0 []).kpr = none ∧ (twinned 5 0 []).mirrorQ = []) ∧
    ({ twinned 5 0 [] with handMark := true }.get Reg.TWN_STATE_STATE = 5) ∧ ((twinned 4 1 []).mirrorQ = [] ∧ (twinned 4 1 []).get Reg.TRV_STATE_STATE = 0 ∧
      (twinned 4 1 []).kprJobRuns = false) ∧ ((twinned 2 0 []).takeoverDue = none) := by decide +kernel
theorem test_handover : (after .handoverMark (twinned 5 0 [])).twinSent = [.handover] ∧ (after .handoverComplete { twinned 5 0 [] with handMark := true }).get (Reg.HGPn_STATUS_STATE 7) = 0 ∧
    (after .handoverComplete { twinned 5 0 [] with handMark := true }).get Reg.TWN_STATE_STATE = 6 := by decide +kernel

end Sys2Proof.Tests
end

section
/-! Accesses to registers (R6 to R8, R389): what one field, one register and the host's access to a register do, and from them O32. -/

namespace Sys2Proof.Machine

open Sys2Proof

/-! ## Bytes of memory as a number and back -/

theorem leBytes_leNat (bs : List Byte) : leBytes bs.length (leNat bs) = bs := by
  induction bs with
  | nil => rfl
  | cons b bs ih =>
    have hb := b.isLt
    have hlow : BitVec.ofNat 8 (b.toNat + 256 * leNat bs) = b := BitVec.eq_of_toNat_eq (by rw [BitVec.toNat_ofNat]; omega)
    rw [List.length_cons, leNat, leBytes, hlow, Nat.add_mul_div_left _ _ (by decide), Nat.div_eq_of_lt hb, Nat.zero_add, ih]

theorem leBytes_memNat (m : Memory) (a n : Nat) : leBytes n (memNat m a n) = memRead m a n := by
  have h := leBytes_leNat (memRead m a n)
  rwa [memRead_length] at h

/-! ## What a register write leaves alone -/

/-- Two states differ in register fields alone. -/
def State.FieldsAlone (s t : State) : Prop := ∃ F, t = { s with fields := F }

/-- Two states differ in register fields and in the marks of counted violations alone. -/
def State.RegsAlone (s t : State) : Prop := ∃ F V, t = { s with fields := F, violAt := V }

theorem State.FieldsAlone.trans {s t u : State} (h : s.FieldsAlone t) (k : t.FieldsAlone u) : s.FieldsAlone u := by
  obtain ⟨F, rfl⟩ := h
  obtain ⟨G, rfl⟩ := k
  exact ⟨G, rfl⟩

theorem State.RegsAlone.fields {s t u : State} (h : s.RegsAlone t) (k : t.FieldsAlone u) : s.RegsAlone u := by
  obtain ⟨F, V, rfl⟩ := h
  obtain ⟨G, rfl⟩ := k
  exact ⟨G, V, rfl⟩

theorem State.FieldsAlone.eq {s t : State} (h : s.FieldsAlone t) : t = { s with fields := t.fields } := by
  obtain ⟨F, rfl⟩ := h
  rfl

theorem State.RegsAlone.eq {s t : State} (h : s.RegsAlone t) : t = { s with fields := t.fields, violAt := t.violAt } := by
  obtain ⟨F, V, rfl⟩ := h
  rfl

theorem regsAlone_refl (s : State) : s.RegsAlone s := ⟨_, _, rfl⟩

theorem regsAlone_violGlb (s : State) (g k a : Nat) : s.RegsAlone (s.violGlb g k a) := ⟨_, _, violate_eq s ..⟩

theorem State.RegsAlone.only {s t : State} (h : s.RegsAlone t) (n : Nat) : s.OnlyChamber t n := by
  obtain ⟨F, V, rfl⟩ := h
  exact ⟨rfl, fun _ _ => rfl⟩

theorem State.RegsAlone.mem {s t : State} (h : s.RegsAlone t) : t.mem = s.mem := by
  obtain ⟨F, V, rfl⟩ := h
  rfl

theorem State.FieldsAlone.regs {s t : State} (h : s.FieldsAlone t) : s.RegsAlone t := (regsAlone_refl s).fields h

/-! ## One field of a register -/

/-- A field of the register at an offset. -/
def FieldDesc.ref (d : FieldDesc) (off : Nat) : FieldRef := ⟨off, d.lo, d.w⟩

/-- The value of a field once a word is written over an old value, by its access code (R7). -/
def FieldDesc.taken (d : FieldDesc) (w old : Nat) : Nat :=
  match d.acc with
  | .rw => d.part w
  | .w1c => (old - (old &&& d.part w)) % 2 ^ d.w
  | .w1s => (old ||| d.part w) % 2 ^ d.w
  | .ro | .rwo | .wo => old

theorem ref_place {d : FieldDesc} (off : Nat) (h : d.lo < 64) : (d.ref off).key / 64 = off := by
  simp only [FieldRef.key, FieldDesc.ref]
  omega

theorem globalViol_place {f : FieldRef} (h : f.key ∈ globalViolFields.map FieldRef.key) : f.key / 64 = 0x20 ∨ f.key / 64 = 0x28 := by
  simp only [globalViolFields, List.map_cons, List.map_nil, List.mem_cons, List.not_mem_nil, or_false, Reg.GLB_VIOL_COUNT_COUNT_key,
    Reg.GLB_VIOL_LAST_VALID_key, Reg.GLB_VIOL_LAST_AGENT_key, Reg.GLB_VIOL_LAST_KIND_key, Reg.GLB_VIOL_LAST_ADDR_key] at h
  omega

theorem fieldNow_stored {s : State} {off : Nat} {d : FieldDesc} (hw : d.acc ≠ .wo) (hz : s.readsZero off = false)
    (hd : s.derived off d.lo = none) : s.fieldNow off d = s.get (d.ref off) := by
  unfold State.fieldNow
  rw [hz, hd]
  split
  · contradiction
  · rfl

theorem writeField_keeps (s : State) (off w : Nat) (d : FieldDesc) : s.KeepsFields (s.writeField off w d) [d.ref off] := by
  have hput : ∀ v, s.KeepsFields (s.putField off d v) [d.ref off] := fun v => (keeps_refl s _).put (List.mem_singleton_self _)
  unfold State.writeField
  split
  · exact hput _
  · exact hput _
  · exact hput _
  all_goals exact keeps_refl s _

theorem writeField_only (s : State) (off w : Nat) (d : FieldDesc) : s.FieldsAlone (s.writeField off w d) := by
  unfold State.writeField
  split <;> exact ⟨_, rfl⟩

/-- A field takes what its access code gives of the word and its old value; an RW field takes its part of the word whatever it showed. -/
theorem writeField_get {s : State} {off w : Nat} {d : FieldDesc} (h : d.acc ≠ .rw → s.fieldNow off d = s.get (d.ref off)) :
    (s.writeField off w d).get (d.ref off) = d.taken w (s.get (d.ref off)) := by
  have hput : ∀ v, (s.putField off d v).get (d.ref off) = v % 2 ^ d.w := fun v => State.get_put_eq
  unfold State.writeField FieldDesc.taken
  cases hacc : d.acc with
  | rw => exact (hput _).trans (Nat.mod_mod _ _)
  | w1c => rw [← h (by simp [hacc])]; exact hput _
  | w1s => rw [← h (by simp [hacc])]; exact hput _
  | ro | rwo | wo => rfl

/-! ## The fields of one register -/

theorem writeFields_keeps (s : State) (off w : Nat) (ds : List FieldDesc) : s.KeepsFields (s.writeFields off w ds) (ds.map (·.ref off)) := by
  induction ds generalizing s with
  | nil => exact keeps_refl s _
  | cons d ds ih =>
    exact ((writeField_keeps s off w d).mono (by simp)).trans ((ih _).mono fun _ => List.mem_cons_of_mem _)

theorem writeFields_only (s : State) (off w : Nat) (ds : List FieldDesc) : s.FieldsAlone (s.writeFields off w ds) := by
  induction ds generalizing s with
  | nil => exact ⟨_, rfl⟩
  | cons d ds ih => exact (writeField_only s off w d).trans (ih _)

/-- Two states agree on the fields of every register but the one at an offset and those that record a violation. -/
def State.AgreesOutside (s t : State) (off : Nat) : Prop :=
  ∀ g : FieldRef, g.key / 64 ≠ off → g.key / 64 ≠ 0x20 → g.key / 64 ≠ 0x28 → t.get g = s.get g

/-- The fields of the register at an offset, but for RW ones, show what is stored in them, and still do when the register or a record of a
violation changes. -/
def State.ShowsStored (s : State) (off : Nat) (ds : List FieldDesc) : Prop :=
  ∀ t, s.AgreesOutside t off → ∀ d ∈ ds, d.acc ≠ .rw → t.fieldNow off d = t.get (d.ref off)

theorem showsStored_of_rw {s : State} {off : Nat} {ds : List FieldDesc} (h : ∀ d ∈ ds, d.acc = .rw) : s.ShowsStored off ds :=
  fun _ _ d hd hrw => absurd (h d hd) hrw

theorem State.ShowsStored.of_agrees {s t : State} {off : Nat} {ds es : List FieldDesc} (h : s.ShowsStored off ds)
    (ha : s.AgreesOutside t off) (hs : ∀ d ∈ es, d ∈ ds) : t.ShowsStored off es :=
  fun u hu d hd => h u (fun g h1 h2 h3 => (hu g h1 h2 h3).trans (ha g h1 h2 h3)) d (hs d hd)

theorem writeField_agrees (s : State) (off w : Nat) {d : FieldDesc} (hd : d.lo < 64) : s.AgreesOutside (s.writeField off w d) off := by
  intro g hg _ _
  refine writeField_keeps s off w d g fun hm => hg ?_
  rw [List.map_singleton, List.mem_singleton] at hm
  rw [hm, ref_place off hd]

/-- The fields of a register, at different places, each take a written word by their access codes. -/
theorem writeFields_get {s : State} {off : Nat} {ds : List FieldDesc} (w : Nat) (hlo : ds.Pairwise fun d e => d.lo ≠ e.lo)
    (h64 : ∀ d ∈ ds, d.lo < 64) (hs : s.ShowsStored off ds) :
    ∀ d ∈ ds, (s.writeFields off w ds).get (d.ref off) = d.taken w (s.get (d.ref off)) := by
  induction ds generalizing s with
  | nil => exact fun _ hd => nomatch hd
  | cons d ds ih =>
    obtain ⟨hd, hds⟩ := List.pairwise_cons.mp hlo
    have hne : ∀ e ∈ ds, (e.ref off).key ≠ (d.ref off).key := fun e he => by
      have := hd e he
      simp only [FieldRef.key, FieldDesc.ref]
      omega
    intro e he
    rw [State.writeFields]
    obtain rfl | he := List.mem_cons.mp he
    · rw [writeFields_keeps _ off w ds _ (by simpa using fun x hx => hne x hx)]
      exact writeField_get fun hrw => hs s (fun _ _ _ _ => rfl) e (List.mem_cons_self ..) hrw
    · have hag := writeField_agrees s off w (h64 d (List.mem_cons_self ..))
      rw [ih hds (fun x hx => h64 x (List.mem_cons_of_mem _ hx)) (hs.of_agrees hag fun x => List.mem_cons_of_mem _) e he,
        writeField_keeps s off w d _ (by simpa using hne e he)]

/-! ## A register written, its violation counted -/

theorem countBad_keeps (s : State) (agent off w : Nat) : s.KeepsFields (s.countBad agent off w) globalViolFields := by
  have hviol : ∀ k, s.KeepsFields (s.violGlb agent k off) globalViolFields := fun k => (keeps_refl s _).violGlb fun _ hf => hf
  unfold State.countBad
  split
  · exact hviol 1
  · exact (hviol 2).ite (keeps_refl s _)

theorem countBad_only (s : State) (agent off w : Nat) : s.RegsAlone (s.countBad agent off w) := by
  unfold State.countBad
  split
  · exact regsAlone_violGlb s ..
  · split
    · exact regsAlone_violGlb s ..
    · exact regsAlone_refl s

theorem countBad_agrees (s : State) (agent off w : Nat) : s.AgreesOutside (s.countBad agent off w) off :=
  fun g _ h20 h28 => countBad_keeps s agent off w g fun hm => (globalViol_place hm).elim h20 h28

theorem plainWrite_reg {s : State} {agent off w : Nat} {r : RegDesc} (hr : regAt off = some r) :
    s.plainWrite agent off w = (s.countBad agent off w).writeFields off w r.fields := by
  unfold State.plainWrite State.takeWord
  rw [hr]

theorem plainWrite_none {s : State} {agent off : Nat} (w : Nat) (hr : regAt off = none) : s.plainWrite agent off w = s.violGlb agent 1 off := by
  unfold State.plainWrite State.takeWord State.countBad
  rw [hr]

/-- A write that breaks nothing of R8 counts nothing. -/
theorem plainWrite_good {s : State} {agent off w : Nat} {r : RegDesc} (hr : regAt off = some r) (hb : s.badWrite off w r = false) :
    s.plainWrite agent off w = s.writeFields off w r.fields := by
  rw [plainWrite_reg hr, State.countBad, hr]
  simp only [hb, Bool.false_eq_true, if_false]

/-- A register of RW fields alone, which cover what is written, refuses nothing. -/
theorem badWrite_rw {s : State} {off w : Nat} {r : RegDesc} (hrw : ∀ d ∈ r.fields, d.acc = .rw)
    (hw : w ≤ r.fields.foldl (fun x d => x + d.part w * 2 ^ d.lo) 0) : s.badWrite off w r = false := by
  have hro : (r.fields.any fun d => (d.acc == .ro || d.acc == .rwo) && d.part w != s.fieldNow off d) = false := by
    rw [List.any_eq_false]
    intro d hd
    simp [hrw d hd]
  unfold State.badWrite
  rw [hro, Nat.sub_eq_zero_of_le hw]
  rfl

theorem writeFields_ro {s : State} {off w : Nat} {ds : List FieldDesc} (h : ∀ d ∈ ds, d.acc = .ro) : s.writeFields off w ds = s := by
  induction ds with
  | nil => rfl
  | cons d ds ih =>
    rw [List.forall_mem_cons] at h
    rw [State.writeFields, State.writeField, h.1]
    exact ih h.2

/-- A write that would change a field of a register of RO fields alone is counted and changes nothing else (R8). -/
theorem plainWrite_ro {s : State} {agent off w : Nat} {r : RegDesc} (hr : regAt off = some r) (hro : ∀ d ∈ r.fields, d.acc = .ro)
    {d : FieldDesc} (hd : d ∈ r.fields) (hne : d.part w ≠ s.fieldNow off d) : s.plainWrite agent off w = s.violGlb agent 2 off := by
  have hbad : s.badWrite off w r = true := by
    rw [State.badWrite, Bool.or_eq_true, List.any_eq_true]
    exact .inl ⟨d, hd, by simpa [hro d hd] using hne⟩
  rw [plainWrite_reg hr, writeFields_ro hro, State.countBad, hr]
  exact if_pos hbad

/-- A write of a register: its fields take the word by their access codes, and of the rest only a violation's record may change. -/
theorem plainWrite_takes {s : State} {off : Nat} {r : RegDesc} (agent w : Nat) (hr : regAt off = some r)
    (hlo : r.fields.Pairwise fun d e => d.lo ≠ e.lo) (h64 : ∀ d ∈ r.fields, d.lo < 64) (hs : s.ShowsStored off r.fields)
    (h20 : off ≠ 0x20) (h28 : off ≠ 0x28) :
    (∀ d ∈ r.fields, (s.plainWrite agent off w).get (d.ref off) = d.taken w (s.get (d.ref off))) ∧
    s.KeepsFields (s.plainWrite agent off w) (r.fields.map (·.ref off) ++ globalViolFields) ∧
    s.RegsAlone (s.plainWrite agent off w) := by
  have hold : ∀ d ∈ r.fields, (s.countBad agent off w).get (d.ref off) = s.get (d.ref off) := fun d hd =>
    countBad_keeps s agent off w _ fun hm => by
      have := globalViol_place hm
      rw [ref_place off (h64 d hd)] at this
      omega
  rw [plainWrite_reg hr]
  refine ⟨fun d hd => ?_, ?_, ?_⟩
  · rw [writeFields_get w hlo h64 (hs.of_agrees (countBad_agrees s agent off w) fun _ h => h) d hd, hold d hd]
  · exact ((countBad_keeps s agent off w).mono fun _ => List.mem_append_right _).trans
      ((writeFields_keeps _ off w _).mono fun _ => List.mem_append_left _)
  · exact (countBad_only s agent off w).fields (writeFields_only ..)

/-! ## The registers that O32 names -/

theorem regAt_glbId : regAt 0 = some ⟨0x0, [], [⟨32, 8, .ro, .fuse, keptHEPKT⟩, ⟨24, 4, .ro, .fuse, keptHEPKT⟩, ⟨16, 8, .ro, .fuse, keptHEPKT⟩,
    ⟨0, 16, .ro, .fuse, keptHEPKT⟩]⟩ := by rfl

theorem regAt_sipRing : regAt 0x3800008 = some ⟨0x3800008, [], [⟨48, 16, .rw, .image, keptHEPKT⟩, ⟨0, 48, .rw, .image, keptHEPKT⟩]⟩ := by rfl

theorem regAt_reserved : regAt 0x48 = none := by rfl

/-- Outside the blocks of chambers and the registers that R320 and R440 hide, a register shows its fields. -/
theorem readsZero_low {s : State} {off : Nat} (h : off < 0x400) : s.readsZero off = false := by
  unfold State.readsZero
  rw [if_neg (by omega), if_neg (by omega)]
  simp; omega

theorem readsZero_ch {s : State} {n r : Nat} (hn : n < 28) (hr : r < 0x100000) (hs : s.chState n ≠ 0) :
    s.readsZero (0x1000000 + 0x100000 * n + r) = false := by
  have hb : (0x1000000 + 0x100000 * n + r - 0x1000000) / 0x100000 = n := by omega
  unfold State.readsZero
  rw [if_pos (by omega), hb]
  simp only [beq_eq_false_iff_ne.mpr (show s.get (Reg.CHn_STATUS_STATE n) ≠ 0 from hs), Bool.false_and]

/-- A register of a chamber that is not OFF shows what is stored in it. -/
theorem fieldNow_ch {s : State} {n r : Nat} {d : FieldDesc} (hn : n < 28) (hr : r < 0x100000) (hs : s.chState n ≠ 0) (hl : d.lo < 64)
    (hw : d.acc ≠ .wo) : s.fieldNow (0x1000000 + 0x100000 * n + r) d = s.get (d.ref (0x1000000 + 0x100000 * n + r)) :=
  fieldNow_stored hw (readsZero_ch hn hr hs) (derived_ch hn hr hl)

/-- The same while the register is written, which is not CHn_STATUS. -/
theorem showsStored_ch {s : State} {n r : Nat} {ds : List FieldDesc} (hn : n < 28) (hr : r < 0x100000) (h8 : r ≠ 8) (hs : s.chState n ≠ 0)
    (hl : ∀ d ∈ ds, d.lo < 64) (hw : ∀ d ∈ ds, d.acc ≠ .wo) : s.ShowsStored (0x1000000 + 0x100000 * n + r) ds := by
  intro t ht d hd _
  have hst : t.chState n = s.chState n := ht (Reg.CHn_STATUS_STATE n) (by simp; omega) (by simp; omega) (by simp; omega)
  exact fieldNow_ch hn hr (hst ▸ hs) (hl d hd) (hw d hd)

/-! ## GLB_SIG_WRITE (R50) -/

theorem postSig_set {s : State} (h : s.InRun) (n v : Nat) : s.postSig n true v = s.put (Reg.GLB_SIGn_VALUE n) v := by
  unfold State.postSig
  rw [wake_run h, ite_self]
  rfl

theorem glbSigWrite_sets {s : State} (h : s.InRun) (n : BitVec 12) (v : Word) : Does (.glbSigWrite n v) s fun t =>
    t.sig n.toNat = v.toNat ∧ s.KeepsFields t [Reg.GLB_SIGn_VALUE n.toNat] ∧ t = { s with fields := t.fields } := by
  refine ⟨_, rfl, ?_⟩
  rw [postSig_set h]
  exact ⟨State.get_put_eq.trans (Nat.mod_eq_of_lt v.isLt), (keeps_refl s _).put (List.mem_singleton_self _), rfl⟩

/-! ## Bundle memory (R65, R66) -/

/-- A word of bundle memory written while its chamber is IDLE or HALT. -/
theorem writeBundle_taken {s : State} (h : s.InRun) {n : Nat} (hst : s.chState n = 1 ∨ s.chState n = 4) (agent idx : Nat) (v : Word) :
    s.writeBundle agent n idx v = s.modCh n fun c => { c with bmem := memWrite c.bmem (8 * idx) (leBytes 8 v.toNat), prog := none } := by
  unfold State.writeBundle
  rw [wake_run h]
  dsimp only
  rw [if_neg (by omega), if_pos hst]

theorem writeBundle_off {s : State} (h : s.InRun) {n : Nat} (hst : s.chState n = 0) (agent idx : Nat) (v : Word) :
    s.writeBundle agent n idx v = s.violGlb agent 0 (chBlock n + 0x80000 + 8 * idx) := by
  unfold State.writeBundle
  rw [wake_run h]
  dsimp only
  rw [if_pos hst]

theorem writeBundle_busy {s : State} (h : s.InRun) {n : Nat} (hst : s.chState n ∉ [0, 1, 4]) (agent idx : Nat) (v : Word) :
    s.writeBundle agent n idx v = s.violCh n 0 0 := by
  simp only [List.mem_cons, List.not_mem_nil, or_false, not_or] at hst
  unfold State.writeBundle
  rw [wake_run h]
  dsimp only
  rw [if_neg hst.1, if_neg (by omega)]

/-- A word written to a memory, byte by byte. -/
theorem memByte_write_word (m : Memory) (b : Nat) (v : Word) (a : Nat) : memByte (memWrite m b (leBytes 8 v.toNat)) a =
    if b ≤ a ∧ a < b + 8 then v.extractLsb' (8 * (a - b)) 8 else memByte m a := by
  rw [memByte_write, leBytes_length]
  split
  · exact leBytes_word v 8 (a - b) (by omega)
  · rfl

theorem bundleWindowWrite_taken {s : State} (h : s.InRun) (ch : Fin 28) (idx : BitVec 15) (v : Word) (hst : s.chState ch = 1 ∨ s.chState ch = 4) :
    Does (.bundleWindowWrite ch idx v) s fun t =>
      (∀ a, memByte (t.ch ch).bmem a =
        if 8 * idx.toNat ≤ a ∧ a < 8 * idx.toNat + 8 then v.extractLsb' (8 * (a - 8 * idx.toNat)) 8 else memByte (s.ch ch).bmem a) ∧
      (t.ch ch).lmem = (s.ch ch).lmem ∧ (t.ch ch).sregs = (s.ch ch).sregs ∧ s.OnlyChamber t ch ∧ ∀ f, t.get f = s.get f := by
  refine ⟨_, rfl, ?_⟩
  rw [writeBundle_taken h hst]
  exact ⟨fun a => by rw [ch_modCh_eq]; exact memByte_write_word .., by rw [ch_modCh_eq], by rw [ch_modCh_eq],
    (only_refl s _).modCh _, fun _ => get_modCh⟩

theorem bundleWindowWrite_ignored {s : State} (h : s.InRun) (ch : Fin 28) (idx : BitVec 15) (v : Word) :
    (s.chState ch = 0 → Does (.bundleWindowWrite ch idx v) s fun t => s.CountsGlobalViol t 0 0 (chBlock ch + 0x80000 + 8 * idx.toNat)) ∧
    (s.chState ch ∉ [0, 1, 4] → Does (.bundleWindowWrite ch idx v) s fun t => s.CountsViol t ch 0 0) := by
  refine ⟨fun hst => ⟨_, rfl, ?_⟩, fun hst => ⟨_, rfl, ?_⟩⟩
  · rw [writeBundle_off h hst]
    exact counts_violGlb s 0 0 _ (by decide) (by decide)
  · rw [writeBundle_busy h hst]
    exact counts_violCh s ch 0 0 (by simp)

/-! ## The region table (R153) -/

theorem writeRegion_off {s : State} (h : s.InRun) {n : Nat} (hst : s.chState n = 0) (agent idx : Nat) (v : Word) :
    s.writeRegion agent n idx v = s.violGlb agent 0 (chBlock n + 0x1000 + 8 * idx) := by
  unfold State.writeRegion
  rw [wake_run h]
  dsimp only
  rw [if_pos hst]

theorem writeRegion_refused {s : State} (h : s.InRun) {n agent : Nat} (hst : s.chState n ≠ 0)
    (hr : (agent = 0 ∧ s.stepRuns = true) ∨ s.chState n ∉ [1, 4]) (idx : Nat) (v : Word) :
    s.writeRegion agent n idx v = s.violCh n 7 (chBlock n + 0x1000 + 8 * idx) := by
  simp only [List.mem_cons, List.not_mem_nil, or_false] at hr
  unfold State.writeRegion
  rw [wake_run h]
  dsimp only
  rw [if_neg hst, if_pos hr]

theorem writeRegion_taken {s : State} (h : s.InRun) {n agent : Nat} (hst : s.chState n = 1 ∨ s.chState n = 4)
    (hr : agent = 0 → s.stepRuns = false) (idx : Nat) (v : Word) :
    s.writeRegion agent n idx v = (s.plainWrite agent (chBlock n + 0x1000 + 8 * idx) v.toNat).modCh n fun c => { c with rset := none } := by
  have hno : ¬((agent = 0 ∧ s.stepRuns = true) ∨ ¬(s.chState n = 1 ∨ s.chState n = 4)) := by
    rintro (⟨h0, hrun⟩ | hn)
    · rw [hr h0] at hrun; cases hrun
    · exact hn hst
  unfold State.writeRegion
  rw [wake_run h]
  dsimp only
  rw [if_neg (by omega), if_neg hno]

/-- A word of the region table's CHn_RGNi_LO written. -/
theorem plainWrite_regionLo {s : State} {n i : Nat} (hn : n < 28) (hi : i < 256) (agent : Nat) (v : Word) :
    ∃ t, s.plainWrite agent (chBlock n + 0x1000 + 8 * (2 * i)) v.toNat = t ∧
      t.get (Reg.CHn_RGNi_LO_BASE n i) = v.toNat % 2 ^ 32 ∧ t.get (Reg.CHn_RGNi_LO_LIMIT n i) = v.toNat / 2 ^ 32 ∧
      s.KeepsFields t [Reg.CHn_RGNi_LO_BASE n i, Reg.CHn_RGNi_LO_LIMIT n i] ∧ s.RegsAlone t := by
  have hv := v.isLt
  have hoff : chBlock n + 0x1000 + 8 * (2 * i) = 0x1001000 + 0x100000 * n + 16 * i := by unfold chBlock; omega
  rw [hoff, plainWrite_good (regAt_lo n i hn hi) (badWrite_rw (by simp) (by simp [FieldDesc.part]; omega))]
  have hget := writeFields_get (s := s) (off := 0x1001000 + 0x100000 * n + 16 * i)
    (ds := [⟨32, 32, .rw, .value 0, keptHPKT⟩, ⟨0, 32, .rw, .value 0, keptHPKT⟩]) v.toNat (by simp) (by simp) (showsStored_of_rw (by simp))
  rw [List.forall_mem_cons, List.forall_mem_singleton] at hget
  refine ⟨_, rfl, hget.2.trans ?_, hget.1.trans ?_, (writeFields_keeps s _ _ _).mono
    (by simp [FieldDesc.ref, Reg.CHn_RGNi_LO_BASE, Reg.CHn_RGNi_LO_LIMIT]), (writeFields_only ..).regs⟩
  · simp [FieldDesc.taken, FieldDesc.part]
  · simp [FieldDesc.taken, FieldDesc.part]; omega

/-- A word of the region table's CHn_RGNi_HI written; its reserved bits may be counted. -/
theorem plainWrite_regionHi {s : State} {n i : Nat} (hn : n < 28) (hi : i < 256) (agent : Nat) (v : Word) :
    ∃ t, s.plainWrite agent (chBlock n + 0x1000 + 8 * (2 * i + 1)) v.toNat = t ∧
      t.get (Reg.CHn_RGNi_HI_TARGET n i) = v.toNat % 2 ^ 32 ∧ t.get (Reg.CHn_RGNi_HI_WR n i) = v.toNat / 2 ^ 61 % 2 ∧
      t.get (Reg.CHn_RGNi_HI_RD n i) = v.toNat / 2 ^ 62 % 2 ∧ t.get (Reg.CHn_RGNi_HI_VALID n i) = v.toNat / 2 ^ 63 ∧
      s.KeepsFields t ([Reg.CHn_RGNi_HI_TARGET n i, Reg.CHn_RGNi_HI_WR n i, Reg.CHn_RGNi_HI_RD n i, Reg.CHn_RGNi_HI_VALID n i] ++ globalViolFields) ∧
      s.RegsAlone t := by
  have hv := v.isLt
  have hoff : chBlock n + 0x1000 + 8 * (2 * i + 1) = 0x1001008 + 0x100000 * n + 16 * i := by unfold chBlock; omega
  rw [hoff]
  obtain ⟨hget, hkeep, halone⟩ := plainWrite_takes (s := s) agent v.toNat (regAt_hi n i hn hi) (by simp) (by simp) (showsStored_of_rw (by simp))
    (by omega) (by omega)
  simp only [List.forall_mem_cons, List.not_mem_nil, false_imp_iff, implies_true, and_true] at hget
  obtain ⟨hvalid, hrd, hwr, htarget⟩ := hget
  have hrefs : ∀ f ∈ ([⟨63, 1, .rw, .value 0, keptHPKT⟩, ⟨62, 1, .rw, .value 0, keptHPKT⟩, ⟨61, 1, .rw, .value 0, keptHPKT⟩,
      ⟨0, 32, .rw, .value 0, keptHPKT⟩] : List FieldDesc).map (·.ref (0x1001008 + 0x100000 * n + 16 * i)),
      f ∈ [Reg.CHn_RGNi_HI_TARGET n i, Reg.CHn_RGNi_HI_WR n i, Reg.CHn_RGNi_HI_RD n i, Reg.CHn_RGNi_HI_VALID n i] := by
    simp [FieldDesc.ref, Reg.CHn_RGNi_HI_TARGET, Reg.CHn_RGNi_HI_WR, Reg.CHn_RGNi_HI_RD, Reg.CHn_RGNi_HI_VALID]
  refine ⟨_, rfl, htarget.trans ?_, hwr.trans ?_, hrd.trans ?_, hvalid.trans ?_,
    hkeep.mono (fun f hf => List.mem_append.mpr ((List.mem_append.mp hf).imp_left (hrefs f))), halone⟩
  · simp [FieldDesc.taken, FieldDesc.part]
  · simp [FieldDesc.taken, FieldDesc.part]
  · simp [FieldDesc.taken, FieldDesc.part]
  · simp [FieldDesc.taken, FieldDesc.part]; omega

/-- A write of the region table while its chamber is IDLE or HALT, not the host's while a step plan runs, is taken. -/
theorem regionTableWrite_taken {s : State} (h : s.InRun) (ch : Fin 28) (host : Bool) (i : Fin 256) (v : Word)
    (hst : s.chState ch = 1 ∨ s.chState ch = 4) (hstep : host = true → s.stepRuns = false) :
    (Does (.regionTableWrite ch host (BitVec.ofNat 9 (2 * i)) v) s fun t =>
      t.get (Reg.CHn_RGNi_LO_BASE ch i) = v.toNat % 2 ^ 32 ∧ t.get (Reg.CHn_RGNi_LO_LIMIT ch i) = v.toNat / 2 ^ 32 ∧ t.mem = s.mem ∧
      s.KeepsFields t [Reg.CHn_RGNi_LO_BASE ch i, Reg.CHn_RGNi_LO_LIMIT ch i] ∧ s.OnlyChamber t ch) ∧
    (Does (.regionTableWrite ch host (BitVec.ofNat 9 (2 * i + 1)) v) s fun t =>
      t.get (Reg.CHn_RGNi_HI_TARGET ch i) = v.toNat % 2 ^ 32 ∧ t.get (Reg.CHn_RGNi_HI_WR ch i) = v.toNat / 2 ^ 61 % 2 ∧
      t.get (Reg.CHn_RGNi_HI_RD ch i) = v.toNat / 2 ^ 62 % 2 ∧ t.get (Reg.CHn_RGNi_HI_VALID ch i) = v.toNat / 2 ^ 63 ∧ t.mem = s.mem ∧
      s.KeepsFields t ([Reg.CHn_RGNi_HI_TARGET ch i, Reg.CHn_RGNi_HI_WR ch i, Reg.CHn_RGNi_HI_RD ch i, Reg.CHn_RGNi_HI_VALID ch i] ++ globalViolFields) ∧
      s.OnlyChamber t ch) := by
  have hagent : (if host then 0 else 3) = 0 → s.stepRuns = false := by
    cases host with
    | true => exact fun _ => hstep rfl
    | false => exact fun h => nomatch h
  have hlo : (BitVec.ofNat 9 (2 * i)).toNat = 2 * i := by rw [BitVec.toNat_ofNat]; omega
  have hhi : (BitVec.ofNat 9 (2 * i + 1)).toNat = 2 * i + 1 := by rw [BitVec.toNat_ofNat]; omega
  refine ⟨⟨_, rfl, ?_⟩, ⟨_, rfl, ?_⟩⟩
  · obtain ⟨t, ht, hbase, hlimit, hkeep, halone⟩ := plainWrite_regionLo (s := s) ch.isLt i.isLt (if host then 0 else 3) v
    rw [hlo, writeRegion_taken h hst hagent, ht]
    exact ⟨hbase, hlimit, halone.mem, hkeep, (halone.only ch).modCh _⟩
  · obtain ⟨t, ht, htarget, hwr, hrd, hvalid, hkeep, halone⟩ := plainWrite_regionHi (s := s) ch.isLt i.isLt (if host then 0 else 3) v
    rw [hhi, writeRegion_taken h hst hagent, ht]
    exact ⟨htarget, hwr, hrd, hvalid, halone.mem, hkeep, (halone.only ch).modCh _⟩

/-- Any other write of the region table is ignored and counted. -/
theorem regionTableWrite_ignored {s : State} (h : s.InRun) (ch : Fin 28) (host : Bool) (idx : BitVec 9) (v : Word) :
    (s.chState ch = 0 → Does (.regionTableWrite ch host idx v) s fun t =>
      s.CountsGlobalViol t (if host then 0 else 3) 0 (chBlock ch + 0x1000 + 8 * idx.toNat)) ∧
    (s.chState ch ≠ 0 → (host = true ∧ s.stepRuns = true) ∨ s.chState ch ∉ [1, 4] → Does (.regionTableWrite ch host idx v) s fun t =>
      s.CountsViol t ch 7 (chBlock ch + 0x1000 + 8 * idx.toNat)) := by
  refine ⟨fun hst => ⟨_, rfl, ?_⟩, fun hst hr => ⟨_, rfl, ?_⟩⟩
  · rw [writeRegion_off h hst]
    exact counts_violGlb s _ 0 _ (by cases host <;> decide) (by decide)
  · rw [writeRegion_refused h hst (hr.imp_left fun hh => ⟨if_pos hh.1, hh.2⟩)]
    exact counts_violCh s ch 7 _ (by simp)

/-! ## The host's accesses (R6 to R8, R389) -/

theorem hostAccess_write {s : State} {off : Nat} (h8 : off % 8 = 0) (v : Word) : s.hostAccess off (.write 8 v) = s.hostWrite off v.toNat := by
  unfold State.hostAccess
  exact if_neg (by simp [h8])

/-- An access that is not of 8 bytes, aligned, is counted, and a read answers zeros (R6). -/
theorem registerWrite_misaligned (s : State) (off : BitVec 27) (size : BitVec 4) (v : Word) (h : size ≠ 8 ∨ off.toNat % 8 ≠ 0) :
    (Does (.registerWrite off (.write size v)) s fun t => s.CountsGlobalViol t 0 1 off.toNat) ∧
    Does (.registerWrite off (.read size)) s fun t => ∃ u, s.CountsGlobalViol u 0 1 off.toNat ∧
      t = { u with hostReply := (zeroBytes size.toNat, false) } := by
  have h' : size.toNat ≠ 8 ∨ off.toNat % 8 ≠ 0 := h.imp_left fun hs he => hs (BitVec.eq_of_toNat_eq he)
  have hres : reservedAccess off.toNat size.toNat = true := by
    unfold reservedAccess
    simp only [Bool.or_eq_true, bne_iff_ne]
    exact .inl h'
  have hcount := counts_violGlb s 0 1 off.toNat (by decide) (by decide)
  refine ⟨⟨_, rfl, ?_⟩, ⟨_, rfl, s.violGlb 0 1 off.toNat, hcount, ?_⟩⟩
  · rw [State.hostAccess, if_pos h']
    exact hcount
  · rw [State.hostAccess, State.hostRead, if_pos hres]
    rfl

/-- An access to a place where nothing lies is counted, and a read answers zeros (R18). -/
theorem hostRead_reserved {s : State} {off : Nat} (h : reservedOff off = true) : s.hostRead off 8 = (s.violGlb 0 1 off).reply (zeroBytes 8) false := by
  rw [State.hostRead, if_pos (by simp [reservedAccess, h])]

/-- A read of a place where something lies answers it, but for the debug window's registers. -/
theorem hostRead_shown {s : State} {off : Nat} (h8 : off % 8 = 0) (h : reservedOff off = false) (hd : off < 0x6C00048) :
    s.hostRead off 8 = s.reply (leBytes 8 (s.readReg off)) false := by
  rw [State.hostRead, if_neg (by simp [reservedAccess, h8, h]), if_neg (by omega)]
  dsimp only
  rw [if_neg (by omega)]

/-! ## A chamber's block (R59, R65, R66) -/

theorem ofNat_chBlock {n r : Nat} (hn : n < 28) (hr : r < 0x100000) : (BitVec.ofNat 27 (chBlock n + r)).toNat = chBlock n + r := by
  rw [BitVec.toNat_ofNat, chBlock]
  omega

/-- Only the window of bundle memory is read as bundle memory. -/
theorem bundleWindow_low {n r : Nat} (hr : r < 0x80000) : bundleWindow (chBlock n + r) = none := by
  unfold bundleWindow chBlock
  dsimp only
  rw [if_neg (by omega)]

theorem bundleWindow_word {n a : Nat} (hn : n < 28) (ha : a < 0x40000) : bundleWindow (chBlock n + 0x80000 + a) = some (n, a) := by
  unfold bundleWindow chBlock
  have hblock : (0x1000000 + n * 0x100000 + 0x80000 + a - 0x1000000) / 0x100000 = n := by omega
  have hword : (0x1000000 + n * 0x100000 + 0x80000 + a) % 0x100000 - 0x80000 = a := by omega
  dsimp only
  rw [if_pos (by omega), hblock, hword]

/-- A host's write of a plain register of a chamber that is not OFF: below the coder's, the region table and bundle memory, and not CHn_CTL. -/
theorem hostWrite_ch {s : State} (h : s.InRun) {n r : Nat} (hn : n < 28) (hr0 : r ≠ 0) (hr : r < 0x200) (hs : s.chState n ≠ 0) (w : Nat) :
    s.hostWrite (chBlock n + r) w = s.plainWrite 0 (chBlock n + r) w := by
  have hb : (chBlock n + r - 0x1000000) / 0x100000 = n := by unfold chBlock; omega
  have hlo : ¬chBlock n + r < 0x1000000 := by unfold chBlock; omega
  have hhi : chBlock n + r < 0x2C00000 := by unfold chBlock; omega
  rw [State.hostWrite, if_neg hlo, if_pos hhi, hb, State.writeChamber, wake_run h,
    Nat.add_sub_cancel_left, if_neg hr0, if_neg fun hc => hs hc.1, if_neg (by omega), if_neg (by omega), if_neg (by omega)]

/-- A register outside bundle memory reads as its fields in their places. -/
theorem readReg_fields {s : State} {off : Nat} {r : RegDesc} (hb : bundleWindow off = none) (hr : regAt off = some r) :
    s.readReg off = r.fields.foldl (fun x d => x + s.fieldNow off d * 2 ^ d.lo) 0 := by
  unfold State.readReg
  rw [hb, hr]

/-- A chamber's WAIT_LIMIT read back. -/
theorem readReg_waitLimit {s : State} {n : Nat} (hn : n < 28) (hs : s.chState n ≠ 0) :
    s.readReg (chBlock n + 0x30) = s.get (Reg.CHn_WAIT_LIMIT_LIMIT_US n) := by
  have hoff : chBlock n + 0x30 = 0x1000030 + 0x100000 * n := by unfold chBlock; omega
  have hplace : 0x1000000 + 0x100000 * n + 0x30 = 0x1000030 + 0x100000 * n := by omega
  have hnow := fieldNow_ch (r := 0x30) (d := ⟨0, 32, .rw, .image, keptHPKT⟩) hn (by omega) hs (by decide) (by decide)
  rw [hplace] at hnow
  rw [readReg_fields (bundleWindow_low (by omega)) (hoff ▸ regAt_waitLimit n hn), hoff, List.foldl_cons, List.foldl_nil, hnow]
  simp only [Nat.zero_add, Nat.pow_zero, Nat.mul_one, FieldDesc.ref, Reg.CHn_WAIT_LIMIT_LIMIT_US]

theorem readReg_bundle {s : State} {n a : Nat} (hn : n < 28) (ha : a < 0x40000) (hs : s.chState n ≠ 0) :
    s.readReg (chBlock n + 0x80000 + a) = memNat (s.ch n).bmem a 8 := by
  have hplace : chBlock n + 0x80000 + a = 0x1000000 + 0x100000 * n + (0x80000 + a) := by unfold chBlock; omega
  rw [State.readReg, bundleWindow_word hn ha]
  dsimp only
  rw [hplace, readsZero_ch hn (by omega) hs]
  rfl

theorem reservedOff_waitLimit {n : Nat} (hn : n < 28) : reservedOff (chBlock n + 0x30) = false := by
  have hoff : chBlock n + 0x30 = 0x1000030 + 0x100000 * n := by unfold chBlock; omega
  rw [reservedOff, hoff, regAt_waitLimit n hn]
  simp

theorem reservedOff_bundle {n a : Nat} (hn : n < 28) (ha : a < 0x40000) : reservedOff (chBlock n + 0x80000 + a) = false := by
  rw [reservedOff, bundleWindow_word hn ha]
  rfl

/-- Reads of a chamber's WAIT_LIMIT and of its bundle memory answer what they hold and change nothing else. -/
theorem registerRead_ch {s : State} (ch : Fin 28) (hs : s.chState ch ≠ 0) :
    (Does (.registerWrite (BitVec.ofNat 27 (chBlock ch + 0x30)) (.read 8)) s fun t =>
      t = { s with hostReply := (leBytes 8 (s.get (Reg.CHn_WAIT_LIMIT_LIMIT_US ch)), false) }) ∧
    ∀ idx : BitVec 15, Does (.registerWrite (BitVec.ofNat 27 (chBlock ch + 0x80000 + 8 * idx.toNat)) (.read 8)) s fun t =>
      t = { s with hostReply := (memRead (s.ch ch).bmem (8 * idx.toNat) 8, false) } := by
  have hn := ch.isLt
  refine ⟨⟨_, rfl, ?_⟩, fun idx => ⟨_, rfl, ?_⟩⟩
  · rw [ofNat_chBlock hn (by omega), State.hostAccess]
    exact (hostRead_shown (by unfold chBlock; omega) (reservedOff_waitLimit hn) (by unfold chBlock; omega)).trans
      (by rw [readReg_waitLimit hn hs]; rfl)
  · have hi := idx.isLt
    rw [Nat.add_assoc, ofNat_chBlock hn (by omega), ← Nat.add_assoc, State.hostAccess]
    exact (hostRead_shown (by unfold chBlock; omega) (reservedOff_bundle hn (by omega)) (by unfold chBlock; omega)).trans
      (by rw [readReg_bundle hn (by omega) hs, leBytes_memNat]; rfl)

/-- A write of a chamber's WAIT_LIMIT stores its RW field. -/
theorem registerWrite_waitLimit {s : State} (h : s.InRun) (ch : Fin 28) (v : Word) (hs : s.chState ch ≠ 0) :
    Does (.registerWrite (BitVec.ofNat 27 (chBlock ch + 0x30)) (.write 8 v)) s fun t =>
      t.get (Reg.CHn_WAIT_LIMIT_LIMIT_US ch) = v.toNat % 2 ^ 32 ∧ s.KeepsFields t ([Reg.CHn_WAIT_LIMIT_LIMIT_US ch] ++ globalViolFields) ∧
      t = { s with fields := t.fields, violAt := t.violAt } := by
  have hn := ch.isLt
  have hoff : chBlock ch + 0x30 = 0x1000030 + 0x100000 * ch := by unfold chBlock; omega
  obtain ⟨hget, hkeep, halone⟩ := plainWrite_takes (s := s) 0 v.toNat (regAt_waitLimit ch hn) (by simp) (by simp) (showsStored_of_rw (by simp))
    (by omega) (by omega)
  rw [List.forall_mem_singleton] at hget
  refine ⟨_, rfl, ?_⟩
  rw [ofNat_chBlock hn (by omega), hostAccess_write (by unfold chBlock; omega), hostWrite_ch h hn (by decide) (by decide) hs, hoff]
  exact ⟨hget.trans (by simp [FieldDesc.taken, FieldDesc.part]), hkeep, halone.eq⟩

/-- A flag of one bit after a write of its W1C field: cleared where the bit written is 1 (R7). -/
theorem taken_flag {k : Nat} (rst : ResetValue) (kept : List ResetKind) (v : Word) {old : Nat} (h : old ≤ 1) :
    (⟨k, 1, .w1c, rst, kept⟩ : FieldDesc).taken v.toNat old = if v.getLsbD k then 0 else old := by
  have hbit : v.toNat / 2 ^ k % 2 ^ 1 = if v.getLsbD k then 1 else 0 := by
    rw [BitVec.getLsbD, Nat.testBit_eq_decide_div_mod_eq]
    by_cases hk : v.toNat / 2 ^ k % 2 = 1
    · simp [hk]
    · simp [hk]; omega
  show (old - (old &&& (v.toNat / 2 ^ k % 2 ^ 1))) % 2 ^ 1 = _
  rw [hbit]
  obtain rfl | rfl : old = 0 ∨ old = 1 := by omega
  · split <;> rfl
  · split <;> rfl

/-- A write of a chamber's EXC clears the flags whose bits are written 1. -/
theorem registerWrite_exc {s : State} (h : s.InRun) (ch : Fin 28) (v : Word) (hs : s.chState ch ≠ 0) :
    Does (.registerWrite (BitVec.ofNat 27 (chBlock ch + 0x20)) (.write 8 v)) s fun t =>
      (∀ e ∈ [(Reg.CHn_EXC_INVALID ch, 0), (Reg.CHn_EXC_OVERFLOW ch, 1), (Reg.CHn_EXC_FLUSH ch, 2), (Reg.CHn_EXC_RERUN ch, 3)],
        s.get e.1 ≤ 1 → t.get e.1 = if v.getLsbD e.2 then 0 else s.get e.1) ∧
      s.KeepsFields t ([Reg.CHn_EXC_INVALID ch, Reg.CHn_EXC_OVERFLOW ch, Reg.CHn_EXC_FLUSH ch, Reg.CHn_EXC_RERUN ch] ++ globalViolFields) ∧
      t = { s with fields := t.fields, violAt := t.violAt } := by
  have hn := ch.isLt
  have hoff : chBlock ch + 0x20 = 0x1000020 + 0x100000 * ch := by unfold chBlock; omega
  have hplace : 0x1000000 + 0x100000 * ch.val + 0x20 = 0x1000020 + 0x100000 * ch := by omega
  obtain ⟨hget, hkeep, halone⟩ := plainWrite_takes (s := s) 0 v.toNat (regAt_exc ch hn) (by simp) (by simp)
    (hplace ▸ showsStored_ch hn (by decide) (by decide) hs (by simp) (by simp)) (by omega) (by omega)
  simp only [List.forall_mem_cons, List.not_mem_nil, false_imp_iff, implies_true, and_true] at hget
  obtain ⟨hrerun, hflush, hoverflow, hinvalid⟩ := hget
  have hrefs : ∀ f ∈ ([⟨3, 1, .w1c, .value 0, keptHPKT⟩, ⟨2, 1, .w1c, .value 0, keptHPKT⟩, ⟨1, 1, .w1c, .value 0, keptHPKT⟩,
      ⟨0, 1, .w1c, .value 0, keptHPKT⟩] : List FieldDesc).map (·.ref (0x1000020 + 0x100000 * ch)),
      f ∈ [Reg.CHn_EXC_INVALID ch, Reg.CHn_EXC_OVERFLOW ch, Reg.CHn_EXC_FLUSH ch, Reg.CHn_EXC_RERUN ch] := by
    simp [FieldDesc.ref, Reg.CHn_EXC_INVALID, Reg.CHn_EXC_OVERFLOW, Reg.CHn_EXC_FLUSH, Reg.CHn_EXC_RERUN]
  refine ⟨_, rfl, ?_⟩
  rw [ofNat_chBlock hn (by omega), hostAccess_write (by unfold chBlock; omega), hostWrite_ch h hn (by decide) (by decide) hs, hoff]
  refine ⟨?_, hkeep.mono (fun f hf => List.mem_append.mpr ((List.mem_append.mp hf).imp_left (hrefs f))), halone.eq⟩
  simp only [List.forall_mem_cons, List.not_mem_nil, false_imp_iff, implies_true, and_true]
  exact ⟨fun h1 => hinvalid.trans (taken_flag _ _ v h1), fun h1 => hoverflow.trans (taken_flag _ _ v h1),
    fun h1 => hflush.trans (taken_flag _ _ v h1), fun h1 => hrerun.trans (taken_flag _ _ v h1)⟩

/-! ## Registers outside the chambers' blocks -/

/-- A host's write of the first registers of the GLB_ block goes by the access codes alone. -/
theorem hostWrite_glb {s : State} {off : Nat} (h : off < 0x400) (w : Nat) : s.hostWrite off w = s.plainWrite 0 off w := by
  rw [State.hostWrite, if_pos (by omega), State.writeGlobal, if_neg (by omega), if_neg (by omega)]

/-- GLB_ID shows its fields: no rule hides it, and none of its fields is computed from the rest of the state. -/
theorem fieldNow_glbPart (s : State) : s.fieldNow 0 ⟨0, 16, .ro, .fuse, keptHEPKT⟩ = s.get Reg.GLB_ID_PART :=
  fieldNow_stored (by decide) (readsZero_low (by decide)) rfl

/-- A write of GLB_ID that would change its PART is counted and changes nothing else. -/
theorem registerWrite_glbId (s : State) (v : Word) (hv : v.toNat % 2 ^ 16 ≠ s.get Reg.GLB_ID_PART) :
    Does (.registerWrite 0 (.write 8 v)) s fun t => s.CountsGlobalViol t 0 2 0 := by
  have hne : (⟨0, 16, .ro, .fuse, keptHEPKT⟩ : FieldDesc).part v.toNat ≠ s.fieldNow 0 ⟨0, 16, .ro, .fuse, keptHEPKT⟩ := by
    rw [fieldNow_glbPart]
    simpa [FieldDesc.part] using hv
  refine ⟨_, rfl, ?_⟩
  rw [show (0 : BitVec 27).toNat = 0 from rfl, hostAccess_write (by decide), hostWrite_glb (by decide),
    plainWrite_ro regAt_glbId (by simp) (by simp) hne]
  exact counts_violGlb s 0 2 0 (by decide) (by decide)

theorem hostWrite_sipRing (s : State) (w : Nat) :
    s.hostWrite 0x3800008 w = s.lockedWrite (s.stepRuns || s.flag Reg.SIP_CTL_ENABLE) 0x3800008 w := by
  rw [State.hostWrite, if_neg (by decide), if_neg (by decide), if_neg (by decide), if_neg (by decide), if_pos (by decide),
    State.writeSiphon, if_neg (by decide), if_pos (by decide)]

/-- A write of SIP_RING is locked out while a step plan runs or Siphon is enabled, and else stores the ring (R180; log entry 78). -/
theorem registerWrite_sipRing (s : State) (v : Word) :
    (s.stepRuns = true ∨ s.flag Reg.SIP_CTL_ENABLE = true →
      Does (.registerWrite 0x3800008 (.write 8 v)) s fun t => s.CountsGlobalViol t 0 3 0x3800008) ∧
    (s.stepRuns = false → s.flag Reg.SIP_CTL_ENABLE = false → Does (.registerWrite 0x3800008 (.write 8 v)) s fun t =>
      t.get Reg.SIP_RING_BASE = v.toNat % 2 ^ 48 ∧ t.get Reg.SIP_RING_ENTRIES_M1 = v.toNat / 2 ^ 48 ∧
      s.KeepsFields t [Reg.SIP_RING_BASE, Reg.SIP_RING_ENTRIES_M1] ∧ t = { s with fields := t.fields }) := by
  have hacc : s.hostAccess (0x3800008 : BitVec 27).toNat (.write 8 v) =
      s.lockedWrite (s.stepRuns || s.flag Reg.SIP_CTL_ENABLE) 0x3800008 v.toNat :=
    (hostAccess_write (by decide) v).trans (hostWrite_sipRing s _)
  refine ⟨fun hlock => ⟨_, rfl, ?_⟩, fun hrun hen => ⟨_, rfl, ?_⟩⟩
  · rw [hacc, State.lockedWrite, if_pos (by simpa using hlock)]
    exact counts_violGlb s 0 3 _ (by decide) (by decide)
  · have hv := v.isLt
    have hget := writeFields_get (s := s) (off := 0x3800008) (ds := [⟨48, 16, .rw, .image, keptHEPKT⟩, ⟨0, 48, .rw, .image, keptHEPKT⟩]) v.toNat
      (by simp) (by simp) (showsStored_of_rw (by simp))
    rw [List.forall_mem_cons, List.forall_mem_singleton] at hget
    have ht : s.hostAccess (0x3800008 : BitVec 27).toNat (.write 8 v) =
        s.writeFields 0x3800008 v.toNat [⟨48, 16, .rw, .image, keptHEPKT⟩, ⟨0, 48, .rw, .image, keptHEPKT⟩] := by
      rw [hacc, hrun, hen]
      exact plainWrite_good regAt_sipRing (badWrite_rw (by simp) (by simp [FieldDesc.part]; omega))
    rw [ht]
    refine ⟨hget.2.trans ?_, hget.1.trans ?_, (writeFields_keeps s _ _ _).mono (by simp [FieldDesc.ref, Reg.SIP_RING_BASE, Reg.SIP_RING_ENTRIES_M1]),
      (writeFields_only ..).eq⟩
    · simp [FieldDesc.taken, FieldDesc.part]
    · simp [FieldDesc.taken, FieldDesc.part]; omega

/-- A write of the slot table that a set is using is locked out (R367; log entry 78). -/
theorem arbTableWrite_inUse (s : State) (set : Fin 10) (tb : Fin 4) (j : Fin 5) (v : Word) (h : tb.val = s.arbTable set) :
    Does (.arbTableWrite set tb j v) s fun t => s.CountsGlobalViol t 0 3 (arbTableOff set tb j) := by
  refine ⟨_, rfl, ?_⟩
  rw [State.writeArbTable, if_pos (.inl h)]
  exact counts_violGlb s 0 3 _ (by decide) (by decide)

/-- An access where no register lies is counted, and a read answers zeros. -/
theorem registerWrite_reserved (s : State) (v : Word) : (Does (.registerWrite 0x48 (.write 8 v)) s fun t => s.CountsGlobalViol t 0 1 0x48) ∧
    Does (.registerWrite 0x48 (.read 8)) s fun t => ∃ u, s.CountsGlobalViol u 0 1 0x48 ∧ t = { u with hostReply := (zeroBytes 8, false) } := by
  have hcount := counts_violGlb s 0 1 0x48 (by decide) (by decide)
  have hwrite : s.hostAccess (0x48 : BitVec 27).toNat (.write 8 v) = s.violGlb 0 1 0x48 :=
    (hostAccess_write (by decide) v).trans ((hostWrite_glb (by decide) _).trans (plainWrite_none _ regAt_reserved))
  have hread : s.hostAccess (0x48 : BitVec 27).toNat (.read 8) = (s.violGlb 0 1 0x48).reply (zeroBytes 8) false :=
    hostRead_reserved (by rw [reservedOff, show (0x48 : BitVec 27).toNat = 0x48 from rfl, regAt_reserved]; rfl)
  exact ⟨⟨_, rfl, hwrite ▸ hcount⟩, ⟨_, rfl, _, hcount, hread⟩⟩

/-! ## BAR2 (R391, R395) -/

theorem msix_writeWord (m : Msix) (i w : Nat) : (m.writeWord i w).raised = m.raised ∧ (m.writeWord i w).table = mapSet 0 m.table i w := by
  unfold Msix.writeWord
  dsimp only
  split <;> exact ⟨rfl, rfl⟩

theorem bar2Place_table (i : Fin 8) : bar2Place (0x10000 + 8 * i) = .table i := by
  unfold bar2Place
  rw [if_neg (by omega), if_pos (by omega), Nat.add_sub_cancel_left, Nat.mul_div_cancel_left _ (by decide)]

/-- A word of the MSI-X table is stored, and outside the interrupts nothing changes. -/
theorem bar2Write_table (s : State) (i : Fin 8) (v : Word) :
    Does (.registerWrite (BitVec.ofNat 27 (0x10000 + 8 * i.val)) (.bar2Write 8 v)) s fun t =>
      t = { s with irq := t.irq } ∧ t.irq.raised = s.irq.raised ∧
      ∀ k, mapGet 0 t.irq.table k = if k = i.val then v.toNat else mapGet 0 s.irq.table k := by
  have hoff : (BitVec.ofNat 27 (0x10000 + 8 * i.val)).toNat % 2 ^ 17 = 0x10000 + 8 * i := by rw [BitVec.toNat_ofNat]; omega
  have hfits : bar2Fits (0x10000 + 8 * i) 8 = true := by simp [bar2Fits]
  have hacc : s.hostAccess (BitVec.ofNat 27 (0x10000 + 8 * i.val)).toNat (.bar2Write 8 v) = { s with irq := s.irq.writeWord i v.toNat } := by
    show s.bar2Write _ 8 v.toNat = _
    rw [hoff, State.bar2Write, hfits, bar2Place_table]
    rfl
  obtain ⟨hraised, htable⟩ := msix_writeWord s.irq i v.toNat
  refine ⟨_, rfl, ?_⟩
  rw [hacc]
  exact ⟨rfl, hraised, fun k => by rw [htable, mapGet_set]⟩

theorem decoderFits_eq (gran ways : Nat) : decoderFits gran ways = decide (gran ≤ 6 ∧ (ways ≤ 4 ∨ (8 ≤ ways ∧ ways ≤ 10))) := by
  unfold decoderFits
  simp only [Bool.decide_and, Bool.decide_or]

/-- An HDM decoder is programmed, and nothing else changes. -/
theorem registerWrite_decoder (s : State) (off : BitVec 27) (d : Fin 2) (base size : Word) (gran ways : BitVec 4) (commit : Bool) :
    Does (.registerWrite off (.decoder d base size gran ways commit)) s fun t => t = { s with decoders := t.decoders } ∧
      ∀ k : Fin 2, t.decoders[k] = if k = d then ⟨base.toNat, size.toNat, gran.toNat, ways.toNat,
        commit && decide (gran.toNat ≤ 6 ∧ (ways.toNat ≤ 4 ∨ (8 ≤ ways.toNat ∧ ways.toNat ≤ 10)))⟩ else s.decoders[k] := by
  refine ⟨_, rfl, rfl, fun k => ?_⟩
  show (s.decoders.set d ⟨_, _, _, _, commit && decoderFits gran.toNat ways.toNat⟩)[k.val] = _
  rw [Vector.getElem_set, decoderFits_eq]
  simp only [Fin.ext_iff, eq_comm]
  rfl

/-! ## The obligation -/

/-- Settles O32: each command's clause is its own lemma above. -/
theorem registerWrites : Obligations.RegisterWrites := by
  unfold Obligations.RegisterWrites
  exact fun s h => ⟨glbSigWrite_sets h,
    fun ch idx v => ⟨bundleWindowWrite_taken h ch idx v, bundleWindowWrite_ignored h ch idx v⟩,
    fun ch host i v => ⟨regionTableWrite_taken h ch host i v, fun idx _ => regionTableWrite_ignored h ch host idx v⟩,
    registerWrite_misaligned s,
    fun ch v hs => ⟨(registerRead_ch ch hs).1, (registerRead_ch ch hs).2, registerWrite_waitLimit h ch v hs, registerWrite_exc h ch v hs⟩,
    registerWrite_glbId s, registerWrite_sipRing s, arbTableWrite_inUse s, registerWrite_reserved s, bar2Write_table s, registerWrite_decoder s⟩

end Sys2Proof.Machine
end

section
/-! The canonical form of the memories over one step (R15, R25, R26, R215, R238): what a step is for an idle and for a waiting queue, and from it O4. -/

namespace Sys2Proof.Machine

open Sys2Proof

theorem step_of_idle {s : State} (h : s.pending = []) : step s = .next s.tick := by
  rw [step, h]

theorem step_of_command {s : State} {c : Instr} {cs : List Instr} (h : s.pending = c :: cs) :
    step s = exec c { s with pending := cs } := by
  rw [step, h]

/-- The queue of commands is no memory of the device. -/
theorem setPending_canon {s : State} (cs : List Instr) (hs : s.Canon) : State.Canon { s with pending := cs } := hs

theorem step_canon {s t : State} (hs : s.Canon) (h : step s = .next t) : t.Canon := by
  cases hq : s.pending with
  | nil =>
    rw [step_of_idle hq, Host.Outcome.next.injEq] at h
    exact h ▸ s.tick_canon hs
  | cons c cs =>
    rw [step_of_command hq] at h
    exact exec_canon c _ t h (setPending_canon cs hs)

/-- Settles O4: a command's effect and an idle cycle both keep the memories canonical, and a step is one of the two. -/
theorem stepsKeepMemoriesCanonical : Obligations.StepsKeepMemoriesCanonical :=
  fun _ _ => step_canon

end Sys2Proof.Machine
end

section
/-! The S slot of a bundle that is taken (R24, R41, R133): each opcode's result through the lemma of its kind, and from them O6, O7 and O8. -/

namespace Sys2Proof.Machine

open Sys2Proof

/-! ## Operations of the S slot in the words of the statements -/

theorem shift_amount (b : Word) : b.toNat % 64 = (b.setWidth 6).toNat := by
  rw [BitVec.toNat_setWidth]

theorem mul_ofNat (a b : Word) : a * b = BitVec.ofNat 64 (a.toNat * b.toNat) := by
  apply BitVec.eq_of_toNat_eq
  rw [BitVec.toNat_mul, BitVec.toNat_ofNat]

theorem bne_decide (a b : Word) : (a != b) = decide (a ≠ b) := by
  rw [bne, beq_eq_decide, decide_not]

theorem slt_decide (a b : Word) : a.slt b = decide (a.toInt < b.toInt) := rfl

theorem ult_decide (a b : Word) : a.ult b = decide (a.toNat < b.toNat) := rfl

theorem not_slt_decide (a b : Word) : (!a.slt b) = decide (b.toInt ≤ a.toInt) := by
  rw [slt_decide, ← decide_not, decide_eq_decide]
  exact Int.not_lt

theorem not_ult_decide (a b : Word) : (!a.ult b) = decide (b.toNat ≤ a.toNat) := by
  rw [ult_decide, ← decide_not, decide_eq_decide]
  exact Nat.not_lt

/-- On equal operands either one is the minimum. -/
theorem min_slt (a b : Word) : (if a.slt b then a else b) = if a.toInt ≤ b.toInt then a else b := by
  rw [slt_decide]
  rcases Int.lt_trichotomy a.toInt b.toInt with h | h | h
  · simp [h, Int.le_of_lt h]
  · simp [BitVec.eq_of_toInt_eq h]
  · simp [Int.not_lt.mpr (Int.le_of_lt h), Int.not_le.mpr h]

theorem max_slt (a b : Word) : (if a.slt b then b else a) = if a.toInt ≤ b.toInt then b else a := by
  rw [slt_decide]
  rcases Int.lt_trichotomy a.toInt b.toInt with h | h | h
  · simp [h, Int.le_of_lt h]
  · simp [BitVec.eq_of_toInt_eq h]
  · simp [Int.not_lt.mpr (Int.le_of_lt h), Int.not_le.mpr h]

theorem setWidth_extractLsb (old : Word) : old.setWidth 32 = old.extractLsb' 0 32 := by
  apply BitVec.eq_of_toNat_eq
  simp [BitVec.extractLsb'_toNat]

/-! ## The obligations -/

/-- Settles O6: one result a line, each an equation of `scalarResult` at its opcode. -/
theorem scalarSlotResults : Obligations.ScalarSlotResults := by
  unfold Obligations.ScalarSlotResults
  refine ⟨?_, ?_, ?_, ?_, ?_, ?_, ?_, ?_, ?_, ?_, ?_, ?_, ?_, ?_⟩
  · exact writesScalar_of _ _ _ (fun _ _ _ _ => rfl) (by decide) (by decide) fun _ _ _ _ _ => rfl
  · exact writesScalar_of _ _ _ (fun _ _ _ _ => rfl) (by decide) (by decide) fun _ _ _ _ _ => rfl
  · exact writesScalar_of _ _ _ (fun _ _ _ _ => rfl) (by decide) (by decide) fun _ _ _ _ _ => rfl
  · exact writesScalar_of _ _ _ (fun _ _ _ _ => rfl) (by decide) (by decide) fun _ _ _ _ _ => rfl
  · exact writesScalar_of _ _ _ (fun _ _ _ _ => rfl) (by decide) (by decide) fun _ _ _ _ _ => rfl
  · exact writesScalar_of _ _ _ (fun _ _ _ _ => rfl) (by decide) (by decide) fun a b _ _ _ => congrArg (a <<< ·) (shift_amount b)
  · exact writesScalar_of _ _ _ (fun _ _ _ _ => rfl) (by decide) (by decide) fun a b _ _ _ => congrArg (a >>> ·) (shift_amount b)
  · exact writesScalar_of _ _ _ (fun _ _ _ _ => rfl) (by decide) (by decide) fun a b _ _ _ => congrArg a.sshiftRight (shift_amount b)
  · exact writesScalar_of _ _ _ (fun _ _ _ _ => rfl) (by decide) (by decide) fun a b _ _ _ => mul_ofNat a b
  · exact writesScalar_of _ _ _ (fun _ _ _ _ => rfl) (by decide) (by decide) fun a b _ _ _ => min_slt a b
  · exact writesScalar_of _ _ _ (fun _ _ _ _ => rfl) (by decide) (by decide) fun a b _ _ _ => max_slt a b
  · exact writesScalar_of _ _ _ (fun _ _ _ _ => rfl) (by decide) (by decide) fun _ _ _ _ _ => rfl
  · exact writesScalar_of _ _ _ (fun _ _ _ _ => rfl) (by decide) (by decide) fun _ _ old imm _ => congrArg (imm ++ ·) (setWidth_extractLsb old)
  · exact writesScalar_of _ _ _ (fun _ _ _ _ => rfl) (by decide) (by decide) fun _ _ _ _ _ => rfl

/-- Settles O7: one result a line, each an equation of `compareResult` or `predResult` at its opcode. -/
theorem predicateSlotResults : Obligations.PredicateSlotResults := by
  unfold Obligations.PredicateSlotResults
  refine ⟨?_, ?_, ?_, ?_, ?_, ?_, ?_, ?_, ?_⟩
  · exact writesPred_of _ _ _ (fun _ _ _ _ => rfl) (by decide) fun a b _ _ => beq_eq_decide a b
  · exact writesPred_of _ _ _ (fun _ _ _ _ => rfl) (by decide) fun a b _ _ => bne_decide a b
  · exact writesPred_of _ _ _ (fun _ _ _ _ => rfl) (by decide) fun a b _ _ => slt_decide a b
  · exact writesPred_of _ _ _ (fun _ _ _ _ => rfl) (by decide) fun a b _ _ => not_slt_decide a b
  · exact writesPred_of _ _ _ (fun _ _ _ _ => rfl) (by decide) fun a b _ _ => ult_decide a b
  · exact writesPred_of _ _ _ (fun _ _ _ _ => rfl) (by decide) fun a b _ _ => not_ult_decide a b
  · exact writesPred_of _ _ _ (fun _ _ _ _ => rfl) (by decide) fun _ _ _ _ => rfl
  · exact writesPred_of _ _ _ (fun _ _ _ _ => rfl) (by decide) fun _ _ _ _ => rfl
  · exact writesPred_of _ _ _ (fun _ _ _ _ => rfl) (by decide) fun _ _ _ _ => rfl

/-- Settles O8: the two new BASE fields that `writesBase_of` asks for. -/
theorem descriptorBaseResults : Obligations.DescriptorBaseResults := by
  unfold Obligations.DescriptorBaseResults
  constructor
  · exact writesBase_of _ _ _ (fun _ _ _ _ => rfl) (.inl rfl) fun _ _ => rfl
  · exact writesBase_of _ _ _ (fun _ _ _ _ => rfl) (.inr rfl) fun _ _ => rfl

end Sys2Proof.Machine
end

section
/-! One cycle of ACLK (R446, R452, R453, R456, R463): what the counters of a cycle leave alone, and from it O2. -/

namespace Sys2Proof.Machine

open Sys2Proof

/-- Two states differ in register fields, Hold not among them, and in the marks of chambers that an array was fed alone. -/
def State.Ticks (s t : State) : Prop :=
  t = { s with fields := t.fields, chambers := t.chambers } ∧ t.held = s.held ∧
  ∀ n, t.ch n = { s.ch n with fedA := (t.ch n).fedA, fedB := (t.ch n).fedB }

theorem State.Ticks.refl (s : State) : s.Ticks s := ⟨rfl, rfl, fun _ => rfl⟩

theorem State.Ticks.trans {s t u : State} (h : s.Ticks t) (k : t.Ticks u) : s.Ticks u := by
  obtain ⟨ht, hth, htc⟩ := h
  obtain ⟨hu, huh, huc⟩ := k
  refine ⟨?_, huh.trans hth, fun n => ?_⟩
  · rw [hu]
    conv_lhs => rw [ht]
  · rw [huc n]
    conv_lhs => rw [htc n]

theorem ticks_ite {s t u : State} {p : Prop} [Decidable p] (ht : s.Ticks t) (hu : s.Ticks u) : s.Ticks (if p then t else u) := by
  split <;> assumption

theorem ticks_count {s : State} {f : FieldRef} (v : Nat) (h : f.key ≠ Reg.PCR_PSTATE_HOLD.key) : s.Ticks (s.count f v) :=
  ⟨rfl, congrArg (· == 1) (State.get_put_ne h.symm), fun _ => rfl⟩

theorem ticks_unmark (s : State) (n : Nat) : s.Ticks (s.modCh n fun c => { c with fedA := false, fedB := false }) := by
  refine ⟨rfl, rfl, fun m => ?_⟩
  rw [ch_modCh]
  split
  · next h => rw [h]
  · rfl

theorem ticks_feedStall (s : State) (n : Nat) (b : Bool) : s.Ticks (s.feedStall n b) :=
  ticks_ite (ticks_count _ (by cases b <;> simp <;> omega)) (.refl s)

theorem ticks_weightWait (s : State) (n : Nat) : s.Ticks (s.weightWait n) := by
  have hw : s.Ticks (s.count (Reg.CHn_WGT_WAIT_COUNT n) 1) := ticks_count _ (by simp; omega)
  exact ticks_ite (ticks_ite (hw.trans (ticks_count _ (by simp; omega))) hw) (.refl s)

theorem ticks_tickChamber (s : State) (n : Nat) : s.Ticks (s.tickChamber n) :=
  (((ticks_feedStall s n false).trans (ticks_feedStall _ n true)).trans (ticks_weightWait _ n)).trans (ticks_unmark _ n)

theorem ticks_chambers (l : List Nat) : ∀ s : State, s.Ticks (l.foldl State.tickChamber s) := by
  induction l with
  | nil => exact .refl
  | cons n l ih => exact fun s => (ticks_tickChamber s n).trans (ih _)

theorem ticks_tickTraverse (s : State) : s.Ticks s.tickTraverse := by
  unfold State.tickTraverse
  split
  · exact .refl s
  · exact ticks_ite (ticks_ite (ticks_count _ (by simp)) (ticks_count _ (by simp))) (.refl s)

theorem ticks_throttle (s : State) : s.Ticks (if s.aclkOn then s else s.count Reg.PCR_THROTTLE_COUNT 1) :=
  ticks_ite (.refl s) (ticks_count _ (by simp))

/-- The state once a cycle's counters have moved, before transfers that wait are started. -/
def State.counted (s : State) : State :=
  let u := if s.aclkOn then s else s.count Reg.PCR_THROTTLE_COUNT 1
  if s.chamberClock then ((List.range 28).foldl State.tickChamber { u with aclk := u.aclk + 1 }).tickTraverse else u

theorem tick_eq {s : State} (h : s.inReset = false) : s.tick = { s.counted.startTransfers.tickIdle with cycle := s.counted.cycle + 1 } := by
  unfold State.tick
  rw [h]
  rfl

theorem ticks_aclk {s t : State} (h : s.Ticks t) (a : Nat) : State.Ticks { s with aclk := a } { t with aclk := a } := by
  obtain ⟨ht, hth, htc⟩ := h
  exact ⟨by conv_lhs => rw [ht], hth, htc⟩

/-- The counters of a cycle change fields and marks, and the count of chamber cycles where the chambers are clocked. -/
theorem ticks_counted (s : State) : State.Ticks { s with aclk := if s.chamberClock then s.aclk + 1 else s.aclk } s.counted := by
  have hu := ticks_throttle s
  unfold State.counted
  dsimp only
  generalize (if s.aclkOn then s else s.count Reg.PCR_THROTTLE_COUNT 1) = u at hu ⊢
  have ha : u.aclk = s.aclk := by rw [hu.1]
  cases s.chamberClock with
  | false => exact hu
  | true =>
    simp only [if_true]
    rw [ha]
    exact (ticks_aclk hu (s.aclk + 1)).trans ((ticks_chambers _ _).trans (ticks_tickTraverse _))

/-- Where no transfer waits, and in Hold, none starts. -/
theorem startTransfers_idle {s : State} (h : s.txWait = [] ∨ s.held = true) : s.startTransfers = s := by
  unfold State.startTransfers
  split
  · rfl
  · next hh =>
    obtain h | h := h
    · rw [h]
      exact congrArg (fun l => { s with txWait := l }) h.symm
    · exact absurd h hh

/-- The counts of idle cycles are all that `tickIdle` writes. -/
theorem tickIdle_eq (s : State) : s.tickIdle = { s with dozeIdle := s.tickIdle.dozeIdle, keepIdle := s.tickIdle.keepIdle } := by
  unfold State.tickIdle
  split <;> rfl

/-- A cycle in which no transfer starts. -/
theorem tick_alone {s : State} (hr : s.inReset = false) (h : s.txWait = [] ∨ s.held = true) :
    s.tick = { s with fields := s.tick.fields, chambers := s.tick.chambers, cycle := s.cycle + 1
                      aclk := if s.chamberClock then s.aclk + 1 else s.aclk
                      dozeIdle := s.tick.dozeIdle, keepIdle := s.tick.keepIdle } ∧
      ∀ n, s.tick.ch n = { s.ch n with fedA := (s.tick.ch n).fedA, fedB := (s.tick.ch n).fedB } := by
  obtain ⟨hc, hh, hch⟩ := ticks_counted s
  have hw : s.counted.txWait = [] ∨ s.counted.held = true := h.imp (fun e => by rw [hc]; exact e) hh.trans
  have ht : s.tick = { s.counted.tickIdle with cycle := s.counted.cycle + 1 } := by rw [tick_eq hr, startTransfers_idle hw]
  have hcs : ∀ n, s.tick.ch n = s.counted.ch n := fun n => by rw [ht, tickIdle_eq]; rfl
  refine ⟨?_, fun n => by rw [hcs]; exact hch n⟩
  rw [ht, tickIdle_eq]
  generalize s.counted = u at hc ⊢
  obtain ⟨f, c, rfl⟩ : ∃ f c, u = { s with fields := f, chambers := c, aclk := if s.chamberClock then s.aclk + 1 else s.aclk } := ⟨_, _, hc⟩
  rfl

/-- Settles O2: an empty queue's step is `tick`. -/
theorem idleStepPassesOneCycle : Obligations.IdleStepPassesOneCycle := by
  unfold Obligations.IdleStepPassesOneCycle
  intro s h
  refine ⟨s.tick, step_of_idle h, ?_⟩
  split
  · next hr => unfold State.tick; rw [if_pos hr]
  · next hr =>
    have hr : s.inReset = false := by simpa using hr
    refine ⟨?_, tick_alone hr⟩
    rw [tick_eq hr]
    exact congrArg (· + 1) (by rw [(ticks_counted s).1])

end Sys2Proof.Machine
end

section
/-! The C slot of a bundle that is taken, and of one that waits (R27, R34, R35, R37, R39, R50, R52, R60): from them O9, O10, O11 and O12. -/

namespace Sys2Proof.Machine

open Sys2Proof

/-! ## The next PC and the return stack -/

/-- The return stack after a bundle that is taken (R39). -/
theorem issue_retStack {s : State} {n : Nat} {i : Issue} (h : s.Takes n i) : ((s.issue n i).ch n).retStack =
    if ((s.ch n).live i.bundle).c = true then ((s.ch n).doC (s.ch n) (s.chPc n) i.bundle.cop i.bundle.c).retStack else (s.ch n).retStack := by
  obtain ⟨-, -, -, -, -, -, -, -, -, -, -, hr, -⟩ := core_parts (issue_core h)
  rw [hr, (after_rest s n i.bundle).1]

/-- A bundle whose C slot neither branches, calls nor returns goes on to the next. -/
theorem nextPc_on (c : Chamber) (pc : Nat) {b : Bundle} {v : Live} (h : v.c = false ∨ 5 ≤ b.cop.toNat) : c.nextPc pc b v = (pc + 1) % 4096 := by
  unfold Chamber.nextPc
  split
  · rfl
  · next hv =>
    have hv : v.c = true := by simpa using hv
    have h5 : 5 ≤ b.cop.toNat := h.resolve_left (by simp [hv])
    split
    case h_5 => rfl
    all_goals omega

theorem nextPc_target (c : Chamber) (pc : Nat) {b : Bundle} {v : Live} (hv : v.c = true) (ho : b.cop = 0x01 ∨ b.cop = 0x03) :
    c.nextPc pc b v = b.c.target.toNat := by
  unfold Chamber.nextPc
  obtain ho | ho := ho <;> rw [hv, ho] <;> rfl

theorem nextPc_brS (c : Chamber) (pc : Nat) {b : Bundle} {v : Live} (hv : v.c = true) (ho : b.cop = 0x02) :
    c.nextPc pc b v = (c.sreg b.c.sreg).toNat := by
  unfold Chamber.nextPc
  rw [hv, ho]; rfl

theorem nextPc_ret (c : Chamber) (pc : Nat) {b : Bundle} {v : Live} (hv : v.c = true) (ho : b.cop = 0x04) :
    c.nextPc pc b v = c.retStack.headD 0 := by
  unfold Chamber.nextPc
  rw [hv, ho]; rfl

/-- A bundle whose C slot goes on: the next PC. -/
theorem issue_pc_on {s : State} {ch : Fin 28} {i : Issue} (h : s.Takes ch i) (ho : ((s.ch ch).live i.bundle).c = false ∨ 5 ≤ i.bundle.cop.toNat) :
    (s.issue ch i).chPc ch = (s.chPc ch + 1) % 4096 := by
  rw [issue_pc h ch.isLt, nextPc_on _ _ ho, Nat.mod_mod]

section withC

variable {s : State} {ch : Fin 28} {i : Issue} {op : BitVec 8} {o : COps} (h : s.Takes ch (withC i op o))
include h

theorem issue_retStack_live (h0 : op ≠ 0) (hg : (s.ch ch).guard o.guard = true) :
    ((s.issue ch (withC i op o)).ch ch).retStack = ((s.ch ch).doC (s.ch ch) (s.chPc ch) op o).retStack := by
  rw [issue_retStack h, if_pos ((live_c h0).trans hg)]
  rfl

/-- A C slot that is taken meets none of its precise causes. -/
theorem takes_cCause (h0 : op ≠ 0) (hg : (s.ch ch).guard o.guard = true) : (s.ch ch).cCause op o = none := by
  obtain ⟨-, -, -, -, hp, -⟩ := h
  obtain ⟨-, hc, -⟩ := precise_none hp
  exact hc ((live_c h0).trans hg)

end withC

theorem issue_retStack_dead {s : State} {n : Nat} {i : Issue} (h : s.Takes n i) (hv : ((s.ch n).live i.bundle).c = false) :
    ((s.issue n i).ch n).retStack = (s.ch n).retStack := by
  rw [issue_retStack h, hv]
  rfl

theorem nop_passes {s : State} {ch : Fin 28} {i : Issue} (h : s.Takes ch (withNop i 0)) : Does (.nop ch 0 i) s fun t =>
    t.chPc ch = (s.chPc ch + 1) % 4096 ∧ (t.ch ch).retStack = (s.ch ch).retStack :=
  ⟨_, rfl, issue_pc_on h (.inl rfl), issue_retStack_dead h rfl⟩

theorem br_goes {s : State} {ch : Fin 28} {i : Issue} {o : COps} (h : s.Takes ch (withC i 0x01 o)) : Does (.br ch o i) s fun t =>
    t.chPc ch = (if (s.ch ch).guard o.guard then o.target.toNat else (s.chPc ch + 1) % 4096) ∧ (t.ch ch).retStack = (s.ch ch).retStack := by
  have hl : ((s.ch ch).live (withC i 0x01 o).bundle).c = (s.ch ch).guard o.guard := live_c (by decide)
  refine ⟨_, rfl, ?_⟩
  cases hg : (s.ch ch).guard o.guard with
  | false => exact ⟨issue_pc_on h (.inl (hl.trans hg)), issue_retStack_dead h (hl.trans hg)⟩
  | true =>
    refine ⟨?_, issue_retStack_live h (by decide) hg⟩
    exact (issue_pc h ch.isLt).trans ((congrArg (· % 4096) (nextPc_target _ _ (hl.trans hg) (.inl rfl))).trans (Nat.mod_eq_of_lt o.target.isLt))

theorem brS_goes {s : State} {ch : Fin 28} {i : Issue} {o : COps} (h : s.Takes ch (withC i 0x02 o)) (hg : (s.ch ch).guard o.guard = true) :
    Does (.brS ch o i) s fun t => t.chPc ch = ((s.ch ch).sreg o.sreg).toNat ∧ ((s.ch ch).sreg o.sreg).toNat ≤ 4095 ∧
      (t.ch ch).retStack = (s.ch ch).retStack := by
  have hle : ((s.ch ch).sreg o.sreg).toNat ≤ 4095 := by
    have := mt (cRaises (s.ch ch) 2 o 3).mpr (by rw [takes_cCause h (by decide) hg]; exact nofun)
    by_contra hc
    exact this (.inl ⟨rfl, rfl, by omega⟩)
  refine ⟨_, rfl, ?_, hle, issue_retStack_live h (by decide) hg⟩
  exact (issue_pc h ch.isLt).trans ((congrArg (· % 4096) (nextPc_brS _ _ ((live_c (by decide)).trans hg) rfl)).trans
    (Nat.mod_eq_of_lt (Nat.lt_succ_of_le hle)))

theorem call_goes {s : State} {ch : Fin 28} {i : Issue} {o : COps} (h : s.Takes ch (withC i 0x03 o)) (hg : (s.ch ch).guard o.guard = true) :
    Does (.call ch o i) s fun t => t.chPc ch = o.target.toNat ∧ (t.ch ch).retStack = (s.chPc ch + 1) :: (s.ch ch).retStack ∧
      (s.ch ch).retStack.length < 32 := by
  have hlt : (s.ch ch).retStack.length < 32 := by
    have := mt (cRaises (s.ch ch) 3 o 4).mpr (by rw [takes_cCause h (by decide) hg]; exact nofun)
    by_contra hc
    exact this (.inr ⟨rfl, .inl ⟨rfl, by omega⟩⟩)
  refine ⟨_, rfl, ?_, issue_retStack_live h (by decide) hg, hlt⟩
  exact (issue_pc h ch.isLt).trans ((congrArg (· % 4096) (nextPc_target _ _ ((live_c (by decide)).trans hg) (.inr rfl))).trans
    (Nat.mod_eq_of_lt o.target.isLt))

theorem ret_goes {s : State} {ch : Fin 28} {i : Issue} {o : COps} (h : s.Takes ch (withC i 0x04 o)) (hg : (s.ch ch).guard o.guard = true) :
    Does (.ret ch o i) s fun t => ∃ a rest, (s.ch ch).retStack = a :: rest ∧ t.chPc ch = a % 4096 ∧ (t.ch ch).retStack = rest := by
  have hpc : (s.issue ch (withC i 4 o)).chPc ch = (s.ch ch).retStack.headD 0 % 4096 :=
    (issue_pc h ch.isLt).trans (congrArg (· % 4096) (nextPc_ret _ _ ((live_c (by decide)).trans hg) rfl))
  have hst : ((s.issue ch (withC i 4 o)).ch ch).retStack = (s.ch ch).retStack.drop 1 := issue_retStack_live h (by decide) hg
  refine ⟨_, rfl, ?_⟩
  cases hr : (s.ch ch).retStack with
  | nil =>
    have := (cRaises (s.ch ch) 4 o 4).mpr (.inr ⟨rfl, .inr ⟨rfl, hr⟩⟩)
    rw [takes_cCause h (by decide) hg] at this
    cases this
  | cons a rest =>
    rw [hr] at hpc hst
    exact ⟨a, rest, rfl, hpc, hst⟩

/-- Settles O9: each operation of the slot is its own lemma above. -/
theorem controlSlotResults : Obligations.ControlSlotResults := by
  unfold Obligations.ControlSlotResults
  exact fun ch o i s => ⟨nop_passes, br_goes, brS_goes, call_goes, ret_goes⟩

/-! ## halt -/

theorem takes_mayIssue {s : State} {n : Nat} {i : Issue} (h : s.Takes n i) : (s.ch n).halt = none := by
  obtain ⟨hm, -⟩ := h
  unfold State.mayIssue at hm
  simp only [Bool.and_eq_true, Option.isNone_iff_eq_none] at hm
  obtain ⟨⟨⟨-, hhalt⟩, -⟩, -⟩ := hm
  exact hhalt

theorem mayIssue_halted {s : State} {n : Nat} (h : (s.ch n).halt.isSome = true) : s.mayIssue n = false := by
  unfold State.mayIssue
  rw [Option.isSome_iff_ne_none] at h
  simp [h]

/-- Some halt is recorded once a halt has issued. -/
theorem issue_halt_some {s : State} {ch : Fin 28} {i : Issue} {o : COps} (h : s.Takes ch (withC i 0x05 o)) (hg : (s.ch ch).guard o.guard = true) :
    ((s.issue ch (withC i 0x05 o)).ch ch).halt.isSome = true := by
  rw [issue_takes h]
  exact upsets_some _ _ (accUpsets_some _ _ (upsets_some _ _ (take_halt_some ((live_c (by decide)).trans hg) rfl)))

/-- With no error found and no vector operation the recorded halt is that of halt itself. -/
theorem issue_halt_done {s : State} {ch : Fin 28} {i : Issue} {o : COps} (h : s.Takes ch (withC i 0x05 o)) (hg : (s.ch ch).guard o.guard = true)
    (hv : i.bundle.vop = 0) (hu : i.upsets.any (·.double) = false) (ha : i.accUpsets.any (·.double) = false) :
    ((s.issue ch (withC i 0x05 o)).ch ch).halt = some { cause := 0x01, faultPc := s.chPc ch, nextPc := (s.chPc ch + 1) % 4096, tag := 0, slot := 0
                                                        source := 3, addr := 0, row := 0, found := 0, expected := 0 } := by
  have hq {α : Type} {l : List α} {d p : α → Bool} (hl : l.any d = false) : (l.filter p).any d = false := by
    rw [List.any_eq_false] at hl ⊢
    exact fun u hu => hl u (List.mem_filter.mp hu).1
  have hlive : ((s.ch ch).live (withC i 0x05 o).bundle).v = false := by simp [Chamber.live, withC, hv]
  have hnone : (Chamber.after s ch (withC i 0x05 o).bundle).halt = none := by
    obtain ⟨-, -, -, -, -, -, -, -, -, -, -, -, -, -, hh, -⟩ := after_rest s ch (withC i 0x05 o).bundle
    rw [hh, takes_mayIssue h]
  rw [issue_takes h]
  refine (upsets_quiet _ (hq hu) _ ch).trans ((accUpsets_quiet _ (hq ha) _ ch).trans ((upsets_quiet _ (hq hu) _ ch).trans ?_))
  exact take_halt ((live_c (by decide)).trans hg) rfl hlive hnone

/-- Settles O10. -/
theorem haltStopsChamber : Obligations.HaltStopsChamber := by
  unfold Obligations.HaltStopsChamber
  intro ch o i s h hg
  have hs := issue_halt_some h hg
  refine ⟨_, rfl, mayIssue_halted hs, ?_⟩
  obtain ⟨r, hr⟩ := Option.isSome_iff_exists.mp hs
  refine ⟨r, hr, fun hv hu ha => ?_⟩
  rw [issue_halt_done h hg hv hu ha] at hr
  cases hr
  exact ⟨rfl, rfl, rfl⟩

/-! ## Posts -/

/-- Settles O11: both posts through `posts_of`, their value in the statement's words. -/
theorem postsUpdateSignals : Obligations.PostsUpdateSignals := by
  unfold Obligations.PostsUpdateSignals
  intro ch o i s hd hp hg v held
  have hv : ((s.ch ch).cValue o).toNat = v := cValue_nat _ _
  constructor
  · intro h
    refine ⟨_, rfl, ?_⟩
    have := posts_of (.inl ⟨rfl, rfl⟩) hd hp hg h
    rw [hv] at this
    simpa [held, Nat.mod_eq_of_lt (hv ▸ ((s.ch ch).cValue o).isLt)] using this
  · intro h
    refine ⟨_, rfl, ?_⟩
    have := posts_of (.inr ⟨rfl, rfl⟩) hd hp hg h
    rw [hv] at this
    simpa [held] using this

/-! ## Waits -/

/-- What a bundle that waits writes: WAIT and the time that a wait.sig began, WAIT, or, for the other waits, RUN. -/
def State.waiting (s : State) (n : Nat) (b : Bundle) : Wait → State
  | .no => s
  | .sig => (s.put (Reg.CHn_STATUS_STATE n) 3).modCh n fun c => { c with waitSince := some (c.waitOn b s.cycle) }
  | .tag => s.put (Reg.CHn_STATUS_STATE n) 3
  | .other => if s.chState n = 3 then (s.put (Reg.CHn_STATUS_STATE n) 2).modCh n fun c => { c with waitSince := none } else s

/-- A legal bundle that waits for something. -/
theorem issue_waits {s : State} {n : Nat} {i : Issue} {w : Wait} (hm : s.mayIssue n = true) (hf : s.fetched n = i.bundle)
    (hl : illegalSlot i.bundle = none) (hd : (i.upsets.any fun u => u.double && u.bank.val == 32) = false)
    (hw : s.waitsFor n i.bundle ((s.ch n).live i.bundle) = w) (h0 : w ≠ .no) :
    s.issue n i = (s.waiting n i.bundle w).fetchUpsets n (s.chPc n) i := by
  unfold State.issue State.issueFetched
  simp only [hm, hf, hl, hd, hw]
  cases w with
  | no => exact absurd rfl h0
  | sig | tag | other => simp [State.waiting]

/-- Two chambers that differ in what a wait writes alone. -/
def Chamber.SameButWait (c d : Chamber) : Prop := ({ d with waitSince := none } : Chamber).core = ({ c with waitSince := none } : Chamber).core

theorem sameButWait_modCh {s : State} {n : Nat} (f : Chamber → Chamber) (hf : ∀ c : Chamber, c.SameButWait (f c)) (m : Nat) :
    (s.ch m).SameButWait ((s.modCh n f).ch m) := by
  rw [ch_modCh]
  split
  · next h => rw [h]; exact hf _
  · rfl

theorem tame_sameButWait {c d : Chamber} (h : d.tame = c.tame) : c.SameButWait d := by
  have := congrArg (fun c : Chamber => ({ c with waitSince := none } : Chamber).core) h
  exact this

/-- A wait changes the chamber's state and the mark of its begin alone. -/
theorem waiting_keeps (s : State) (n : Nat) (b : Bundle) (w : Wait) :
    (s.waiting n b w).mem = s.mem ∧ (s.waiting n b w).chPc n = s.chPc n ∧ ∀ m, (s.ch m).SameButWait ((s.waiting n b w).ch m) := by
  have hpc (v : Nat) : (s.put (Reg.CHn_STATUS_STATE n) v).chPc n = s.chPc n := State.get_put_ne (by simp)
  cases w with
  | no => exact ⟨rfl, rfl, fun m => rfl⟩
  | sig => exact ⟨rfl, hpc 3, sameButWait_modCh _ fun _ => rfl⟩
  | tag => exact ⟨rfl, hpc 3, fun m => rfl⟩
  | other =>
    dsimp only [State.waiting]
    split
    · exact ⟨rfl, hpc 2, sameButWait_modCh _ fun _ => rfl⟩
    · exact ⟨rfl, rfl, fun m => rfl⟩

/-- Errors that a fetch finds change neither the PC nor the state, no memory and no core. -/
theorem fetchUpsets_keeps (s : State) (n pc : Nat) (i : Issue) (hn : n < 28) :
    let t := s.fetchUpsets n pc i
    t.mem = s.mem ∧ t.chPc n = s.chPc n ∧ t.chState n = s.chState n ∧ ∀ m, (s.ch m).SameButWait (t.ch m) := by
  have ht : s.Tame (s.fetchUpsets n pc i) := tame_upsets n pc 0 _
  have hw : State.Within (Own n) s (s.fetchUpsets n pc i) := within_upsets n pc 0 _
  refine ⟨by rw [ht.1], hw.get ?_, hw.get ?_, fun m => tame_sameButWait (ht.2 m)⟩
  · exact fun h => not_touch hn (.inl rfl) (own_touch h)
  · simp [Own, bundleFields]
    omega

section waits

variable {s : State} {n : Nat} {b : Bundle} {v : Live} (hv : v.c = true)
include hv

theorem waitsFor_sigGe (ho : b.cop = 0x0A) (h : s.sig b.c.target.toNat < ((s.ch n).cValue b.c).toNat) : s.waitsFor n b v = .sig := by
  unfold State.waitsFor
  simp [hv, ho, h]

theorem waitsFor_sigEq (ho : b.cop = 0x0B) (h : s.sig b.c.target.toNat ≠ ((s.ch n).cValue b.c).toNat) : s.waitsFor n b v = .sig := by
  unfold State.waitsFor
  simp [hv, ho, h]

theorem waitsFor_tag (ho : b.cop = 0x0C) (h : (s.ch n).tagBusy (b.c.target.toNat % 256) = true) : s.waitsFor n b v = .tag := by
  unfold State.waitsFor
  simp [hv, ho, h]

theorem waitsFor_fence (ho : b.cop = 0x0D) (h : (s.ch n).storesBefore (s.ch n).seq = true) : s.waitsFor n b v = .other := by
  unfold State.waitsFor
  simp [hv, ho, h]

end waits

/-- What wait.sig, wait.tag and fence wait for by opcode, as the model judges it. -/
def State.cMet (s : State) (n : Nat) (op : BitVec 8) (o : COps) : Prop :=
  (op = 0x0A ∧ ((s.ch n).cValue o).toNat ≤ s.sig o.target.toNat) ∨ (op = 0x0B ∧ s.sig o.target.toNat = ((s.ch n).cValue o).toNat) ∨
  (op = 0x0C ∧ (s.ch n).tagBusy (o.target.toNat % 256) = false) ∨ (op = 0x0D ∧ (s.ch n).storesBefore (s.ch n).seq = false)

theorem takes_cMet {s : State} {ch : Fin 28} {i : Issue} {op : BitVec 8} {o : COps} (h : s.Takes ch (withC i op o))
    (hg : (s.ch ch).guard o.guard = true) (hop : op = 0x0A ∨ op = 0x0B ∨ op = 0x0C ∨ op = 0x0D) : s.cMet ch op o := by
  obtain ⟨-, -, -, hw, -, -⟩ := h
  obtain ⟨hge, heq, htag, hfence, -, -⟩ := waits_no hw
  have hl : ((s.ch ch).live (withC i op o).bundle).c = true := (live_c (by rcases hop with rfl | rfl | rfl | rfl <;> decide)).trans hg
  obtain rfl | rfl | rfl | rfl := hop
  · exact .inl ⟨rfl, hge hl rfl⟩
  · exact .inr (.inl ⟨rfl, heq hl rfl⟩)
  · exact .inr (.inr (.inl ⟨rfl, htag hl rfl⟩))
  · exact .inr (.inr (.inr ⟨rfl, hfence hl rfl⟩))

/-- A bundle whose wait is not met waits, in WAIT unless it is for a fence. -/
theorem waitsFor_cMet {s : State} {ch : Fin 28} {i : Issue} {op : BitVec 8} {o : COps} (hg : (s.ch ch).guard o.guard = true)
    (hop : op = 0x0A ∨ op = 0x0B ∨ op = 0x0C ∨ op = 0x0D) (hn : ¬s.cMet ch op o) :
    ∃ w, s.waitsFor ch (withC i op o).bundle ((s.ch ch).live (withC i op o).bundle) = w ∧ w ≠ .no ∧ (op ≠ 0x0D → w = .sig ∨ w = .tag) := by
  have hl : ((s.ch ch).live (withC i op o).bundle).c = true := (live_c (by rcases hop with rfl | rfl | rfl | rfl <;> decide)).trans hg
  unfold State.cMet at hn
  obtain rfl | rfl | rfl | rfl := hop
  · exact ⟨_, waitsFor_sigGe hl rfl (by by_contra hc; exact hn (.inl ⟨rfl, Nat.not_lt.mp hc⟩)), by decide, fun _ => .inl rfl⟩
  · exact ⟨_, waitsFor_sigEq hl rfl (fun hc => hn (.inr (.inl ⟨rfl, hc⟩))), by decide, fun _ => .inl rfl⟩
  · exact ⟨_, waitsFor_tag hl rfl (by by_contra hc; exact hn (.inr (.inr (.inl ⟨rfl, Bool.eq_false_of_not_eq_true hc⟩)))), by decide, fun _ => .inr rfl⟩
  · exact ⟨_, waitsFor_fence hl rfl (by by_contra hc; exact hn (.inr (.inr (.inr ⟨rfl, Bool.eq_false_of_not_eq_true hc⟩)))), by decide, fun h => absurd rfl h⟩

/-- Settles O12: the four conditions are those of `State.cMet`; taken, the condition is met; not met, the bundle waits. -/
theorem waitsHoldTheBundle : Obligations.WaitsHoldTheBundle := by
  unfold Obligations.WaitsHoldTheBundle
  intro ch o i s c op met hc hg
  have hv := cValue_nat (s.ch ch) o
  obtain ⟨hex, hop, hmet⟩ : exec c s = .next (s.issue ch (withC i op o)) ∧ (op = 0x0A ∨ op = 0x0B ∨ op = 0x0C ∨ op = 0x0D) ∧
      (met ↔ s.cMet ch op o) := by
    unfold State.cMet
    rw [tagBusy_iff, stores_iff, hv]
    obtain ⟨rfl, rfl, h⟩ | ⟨rfl, rfl, h⟩ | ⟨rfl, rfl, h⟩ | ⟨rfl, rfl, h⟩ := hc
    · exact ⟨rfl, by simp, by simp [h]⟩
    · exact ⟨rfl, by simp, by simp [h]⟩
    · exact ⟨rfl, by simp, by simp [h]⟩
    · exact ⟨rfl, by simp, by simp [h]⟩
  rw [hmet]
  refine ⟨fun h => ⟨takes_cMet h hg hop, _, hex, issue_pc_on h (.inr ?_)⟩, fun hm hf hl hd hn => ?_⟩
  · show 5 ≤ op.toNat
    obtain rfl | rfl | rfl | rfl := hop <;> decide
  · obtain ⟨w, hw, h0, hst⟩ := waitsFor_cMet (i := i) hg hop hn
    obtain ⟨hmem, hpc, hch⟩ := waiting_keeps s ch (withC i op o).bundle w
    obtain ⟨umem, upc, ust, uch⟩ := fetchUpsets_keeps (s.waiting ch (withC i op o).bundle w) ch (s.chPc ch) (withC i op o) ch.isLt
    rw [issue_waits hm hf hl hd hw h0] at hex
    refine ⟨_, hex, fun hne => ust.trans ?_, upc.trans hpc, umem.trans hmem, fun m => (uch m).trans (hch m)⟩
    obtain rfl | rfl := hst hne
    · exact State.get_put_eq
    · exact State.get_put_eq

end Sys2Proof.Machine
end

section
/-! The L and T slots of a bundle that is taken (R28, R29, R32, R42, R43, R48, R49, R77, R496): from them O13, O14, O15 and O16. -/

namespace Sys2Proof.Machine

open Sys2Proof

/-! ## Bytes of local memory in a register -/

theorem memNat_byte (w : Nat) (m : Memory) (a n k : Nat) (h : k < n) (hw : 8 * n ≤ w) :
    (BitVec.ofNat w (memNat m a n)).extractLsb' (8 * k) 8 = memByte m (a + k) := by
  have hl := memRead_length m a n
  unfold memNat
  rw [ofNat_leNat_byte _ _ (by omega) (by omega), memRead_getD m a n k h]

theorem lanesOfBytes_byte (bs : List Byte) (hb : bs.length = 512) (k j : Nat) (hk : k < 128) (hj : j < 4) :
    (lane (lanesOfBytes bs) k).extractLsb' (8 * j) 8 = bs.getD (4 * k + j) 0 := by
  have hl : ((bs.drop (4 * k)).take 4).length = 4 := by rw [List.length_take, List.length_drop]; omega
  unfold lanesOfBytes
  rw [lane_mkLanes _ _ hk, ofNat_leNat_byte _ _ (by omega) (by omega)]
  simp [List.getD_eq_getElem?_getD, hj, List.getElem?_drop]

theorem bytesOfLanes_length (v : Lanes) : (bytesOfLanes v).length = 512 := by
  unfold bytesOfLanes
  rw [List.length_flatMap]
  simp [leBytes_length]

theorem bytesOfLanes_getD (v : Lanes) (k : Nat) (h : k < 512) :
    (bytesOfLanes v).getD k 0 = (lane v (k / 4)).extractLsb' (8 * (k % 4)) 8 := by
  unfold bytesOfLanes
  rw [getD_flatMap_four _ (fun x => leBytes_length 4 x.toNat) _ _ (by simpa using h), leBytes_word _ _ _ (Nat.mod_lt _ (by decide))]
  rfl

/-! ## Local loads -/

theorem vop_of_live {c : Chamber} {b : Bundle} (h : (c.live b).v = true) : b.vop ≠ 0 := by
  unfold Chamber.live at h
  simp only [Bool.and_eq_true, bne_iff_ne] at h
  exact h.1

section withL

variable {s : State} {ch : Fin 28} {i : Issue} {op : BitVec 8} {o : LOps} (h : s.Takes ch (withL i op o)) (hg : (s.ch ch).guard o.guard = true)
include h hg

/-- The L slot of a bundle that is taken meets none of its precise causes. -/
theorem takes_lCause (h0 : op ≠ 0) : (s.ch ch).lCause op o = none := by
  obtain ⟨-, -, -, -, hp, -⟩ := h
  obtain ⟨-, -, hl, -⟩ := precise_none hp
  exact hl (live_l h0 hg)

theorem issue_ldS (hop : op = 0x01) : ((s.issue ch (withL i op o)).ch ch).sreg o.dst =
    BitVec.ofNat 64 (memNat (s.ch ch).lmem ((s.ch ch).laddr o.sa o.imm32).toNat 8) := by
  subst hop
  rw [sreg_core (issue_core h), after_sreg]
  exact if_pos ⟨live_l (by decide) hg, rfl, rfl⟩

theorem issue_ldD (hop : op = 0x03) : ((s.issue ch (withL i op o)).ch ch).dreg o.dsc =
    BitVec.ofNat 1024 (memNat (s.ch ch).lmem ((s.ch ch).laddr o.sa o.imm32).toNat 128) := by
  subst hop
  rw [dreg_core (issue_core h), after_dreg]
  exact if_pos ⟨live_l (by decide) hg, rfl, rfl⟩

/-- A V slot beside ld.v writes another register, or the bundle would be illegal. -/
theorem issue_ldV (hop : op = 0x02) : ((s.issue ch (withL i op o)).ch ch).vreg o.dst =
    lanesOfBytes (memRead (s.ch ch).lmem ((s.ch ch).laddr o.sa o.imm32).toNat 512) := by
  subst hop
  rw [vreg_core (issue_core h), after_vreg, if_neg, if_pos ⟨live_l (by decide) hg, rfl, rfl⟩]
  · rfl
  · rintro ⟨hv, h28, hr⟩
    obtain ⟨-, -, hl, -⟩ := h
    obtain ⟨-, -, -, -, -, -, -, hne⟩ := legal_none hl
    have h0 : (withL i 2 o).bundle.vop ≠ 0 := vop_of_live hv
    refine hne (96 + o.dst.toNat) ?_ rfl
    unfold vDest
    rw [if_neg (not_or.mpr ⟨h0, h28⟩), hr]

end withL

theorem ldS_reads {ch : Fin 28} {o : LOps} {i : Issue} {s : State} (hg : (s.ch ch).guard o.guard = true) (h : s.Takes ch (withL i 0x01 o)) :
    let lo := (s.ch ch).laddr o.sa o.imm32
    0 ≤ lo ∧ lo % 8 = 0 ∧ lo + 8 ≤ 0x1000000 ∧ Does (.ldS ch o i) s fun t =>
      ∀ k < 8, ((t.ch ch).sreg o.dst).extractLsb' (8 * k) 8 = memByte (s.ch ch).lmem (lo.toNat + k) := by
  obtain ⟨h1, h2, h3⟩ := accessCause_none (takes_lCause h hg (by decide))
  refine ⟨h1, h3, h2, _, rfl, fun k hk => ?_⟩
  rw [issue_ldS h hg rfl, memNat_byte _ _ _ _ _ hk (by decide)]

theorem ldV_reads {ch : Fin 28} {o : LOps} {i : Issue} {s : State} (hg : (s.ch ch).guard o.guard = true) (h : s.Takes ch (withL i 0x02 o)) :
    let lo := (s.ch ch).laddr o.sa o.imm32
    0 ≤ lo ∧ lo % 64 = 0 ∧ lo + 512 ≤ 0x1000000 ∧ Does (.ldV ch o i) s fun t =>
      ∀ k < 128, ∀ j < 4, (lane ((t.ch ch).vreg o.dst) k).extractLsb' (8 * j) 8 = memByte (s.ch ch).lmem (lo.toNat + (4 * k + j)) := by
  obtain ⟨h1, h2, h3⟩ := accessCause_none (takes_lCause h hg (by decide))
  refine ⟨h1, h3, h2, _, rfl, fun k hk j hj => ?_⟩
  rw [issue_ldV h hg rfl, lanesOfBytes_byte _ (memRead_length _ _ _) _ _ hk hj, memRead_getD _ _ _ _ (by omega)]

theorem ldD_reads {ch : Fin 28} {o : LOps} {i : Issue} {s : State} (hg : (s.ch ch).guard o.guard = true) (h : s.Takes ch (withL i 0x03 o)) :
    let lo := (s.ch ch).laddr o.sa o.imm32
    0 ≤ lo ∧ lo % 128 = 0 ∧ lo + 128 ≤ 0x1000000 ∧ Does (.ldD ch o i) s fun t =>
      ∀ k < 128, ((t.ch ch).dreg o.dsc).extractLsb' (8 * k) 8 = memByte (s.ch ch).lmem (lo.toNat + k) := by
  obtain ⟨h1, h2, h3⟩ := accessCause_none (takes_lCause h hg (by decide))
  refine ⟨h1, h3, h2, _, rfl, fun k hk => ?_⟩
  rw [issue_ldD h hg rfl, memNat_byte _ _ _ _ _ hk (by decide)]

/-- Settles O13: each load is its own lemma above. -/
theorem localLoads : Obligations.LocalLoads := by
  unfold Obligations.LocalLoads
  exact fun ch o i s hg => ⟨ldS_reads hg, ldV_reads hg, ldD_reads hg⟩

/-! ## Local stores -/

/-- Settles O14: the bytes of each kind of register, from `stores_of`. -/
theorem localStores : Obligations.LocalStores := by
  unfold Obligations.LocalStores
  refine ⟨?_, ?_, ?_⟩
  · exact stores_of _ _ 8 8 _ (fun _ _ _ _ => rfl) (by decide) (fun _ _ => rfl) (fun _ _ => leBytes_length _ _)
      fun c o k hk => leBytes_word (c.sreg o.sb) 8 k hk
  · exact stores_of _ _ 512 64 _ (fun _ _ _ _ => rfl) (by decide) (fun _ _ => rfl) (fun _ _ => bytesOfLanes_length _)
      fun c o k hk => bytesOfLanes_getD (c.vreg o.vs) k hk
  · exact stores_of _ _ 128 128 _ (fun _ _ _ _ => rfl) (by decide) (fun _ _ => rfl) (fun _ _ => leBytes_length _ _)
      fun c o k hk => leBytes_word (c.dreg o.dsc) 128 k hk

/-! ## Asynchronous instructions -/

/-- Settles O15: the operation that each opcode adds. -/
theorem asynchronousStarts : Obligations.AsynchronousStarts := by
  unfold Obligations.AsynchronousStarts
  intro ch i
  refine ⟨fun o => ⟨?_, ?_⟩, fun o => ⟨?_, ?_, ?_, ?_, ?_⟩⟩
  · exact startsL _ ch i o 0x04 _ _ (fun _ => rfl) (by decide) fun c pc tk => ⟨_, List.mem_singleton_self _, rfl, rfl, rfl, rfl, rfl⟩
  · exact startsL _ ch i o 0x05 _ _ (fun _ => rfl) (by decide) fun c pc tk => ⟨_, List.mem_singleton_self _, rfl, rfl, rfl, rfl, rfl, rfl, rfl⟩
  · exact startsT _ ch i o 0x04 _ _ (fun _ => rfl) (by decide) fun c pc => ⟨_, List.mem_singleton_self _, rfl, rfl, rfl, rfl, rfl⟩
  · exact startsT _ ch i o 0x05 _ _ (fun _ => rfl) (by decide) fun c pc => ⟨_, List.mem_singleton_self _, rfl, rfl, rfl, rfl, rfl⟩
  · exact startsT _ ch i o 0x06 _ _ (fun _ => rfl) (by decide) fun c pc =>
      ⟨_, List.mem_singleton_self _, rfl, rfl, rfl, rfl, rfl, rfl, rfl, rfl, rfl, rfl⟩
  · exact startsT _ ch i o 0x07 _ _ (fun _ => rfl) (by decide) fun c pc =>
      ⟨_, List.mem_singleton_self _, rfl, rfl, rfl, rfl, rfl, rfl, rfl, rfl, rfl, rfl⟩
  · exact startsT _ ch i o 0x08 _ _ (fun _ => rfl) (by decide) fun c pc => ⟨_, List.mem_singleton_self _, rfl, rfl, rfl, rfl, rfl, rfl, rfl⟩

/-! ## ld.w -/

/-- The field TYPE of a descriptor (R133). -/
theorem dType_eq (d : BitVec 1024) : dType d = (d.extractLsb' 48 4).toNat := by
  simp only [dType, bits, dWord, BitVec.extractLsb'_toNat, Nat.shiftRight_eq_div_pow]
  omega

/-- ld.w names itself as the load of the shadow tile. -/
theorem after_shadowOp (s : State) (n : Nat) {b : Bundle} (hl : ((s.ch n).live b).l = true) (ho : b.lop = 0x05) :
    (Chamber.after s n b).shadowOp = some (s.ch n).seq := by
  unfold Chamber.after
  rw [doBundle_fst]
  generalize (s.ch n).live b = v at hl ⊢
  generalize s.flag _ = tk
  have hT (c : Chamber) : (if v.t = true then c.doT (s.ch n) (s.chPc n) b.top b.t else c).shadowOp = c.shadowOp := by
    split
    · rw [doT_rest]
    · rfl
  have hV : ((s.ch n).afterV (s.chPc n) b v (s.chCycles n) tk).shadowOp = ((s.ch n).afterM (s.chPc n) b v (s.chCycles n) tk).shadowOp := by
    unfold Chamber.afterV
    dsimp only
    split
    · rw [doV_rest]
    · rfl
  have hM : ((s.ch n).afterM (s.chPc n) b v (s.chCycles n) tk).shadowOp = ((s.ch n).afterL (s.chPc n) b v (s.chCycles n) tk).shadowOp := by
    unfold Chamber.afterM
    dsimp only
    split <;> rfl
  refine (hT _).trans (hV.trans (hM.trans ?_))
  unfold Chamber.afterL
  dsimp only
  rw [if_pos hl, ho]
  rfl

theorem issue_ldW {s : State} {ch : Fin 28} {i : Issue} {o : LOps} (h : s.Takes ch (withL i 0x05 o)) (hg : (s.ch ch).guard o.guard = true) :
    (s.issue ch (withL i 0x05 o)).get (Reg.CHn_WTILE_SHADOW ch) = 1 ∧
    (s.issue ch (withL i 0x05 o)).get (Reg.CHn_WTILE_SHADOW_TYPE ch) = dType ((s.ch ch).dreg o.dsc) % 16 ∧
    ((s.issue ch (withL i 0x05 o)).ch ch).shadowOp = some (s.ch ch).seq := by
  have hl : ((s.ch ch).live (withL i 0x05 o).bundle).l = true := live_l (by decide) hg
  have hw := within_issue h ch.isLt
  refine ⟨?_, ?_, ?_⟩
  · rw [hw.get (not_touch ch.isLt (.inr (.inl rfl))), State.nextRegs, hl]
    simp [withL]
    intro he
    omega
  · rw [hw.get (not_touch ch.isLt (.inr (.inr rfl))), State.nextRegs, hl]
    simp [withL]
    intro he
    omega
  · obtain ⟨-, -, -, -, -, -, -, -, -, -, -, -, -, -, hc, -⟩ := core_parts (issue_core h)
    rw [hc, after_shadowOp s ch hl rfl]

/-- Settles O16. -/
theorem weightLoadTakesShadow : Obligations.WeightLoadTakesShadow := by
  unfold Obligations.WeightLoadTakesShadow
  intro ch o i s h hg
  obtain ⟨h1, h2, h3⟩ := issue_ldW h hg
  obtain ⟨-, -, -, hw, -, -⟩ := h
  obtain ⟨-, -, -, -, hs, -⟩ := waits_no hw
  exact ⟨hs (live_l (by decide) hg) rfl, _, rfl, h1, h2.trans (by rw [dType_eq, Nat.mod_eq_of_lt (BitVec.isLt _)]), h3⟩

end Sys2Proof.Machine
end

section
/-! The M and V slots of a bundle that is taken (R44, R45, R46, R78, R113 to R119, R150): from them O17, O18 and O19. -/

namespace Sys2Proof.Machine

open Sys2Proof

/-! ## The M slot -/

/-- The array queues after a bundle whose M slot is live. -/
theorem issue_mmas {s : State} {ch : Fin 28} {i : Issue} {op : BitVec 8} {o : MOps} (h : s.Takes ch (withM i op o))
    (hg : (s.ch ch).guard o.guard = true) (h0 : op ≠ 0) :
    ((s.issue ch (withM i op o)).ch ch).mmas = (s.ch ch).mmas ++ [(s.ch ch).mmaOf (s.chPc ch) op o] := by
  obtain ⟨-, -, -, -, -, -, -, -, -, -, hm, -⟩ := core_parts (issue_core h)
  rw [hm, after_mmas, if_pos (live_m h0 hg)]
  rfl

/-- An mma that is taken has at least one row and at most 65,535. -/
theorem takes_rows {s : State} {ch : Fin 28} {i : Issue} {o : MOps} (h : s.Takes ch (withM i 0x01 o)) (hg : (s.ch ch).guard o.guard = true) :
    1 ≤ ((s.ch ch).sreg o.srows).toNat ∧ ((s.ch ch).sreg o.srows).toNat ≤ 65535 := by
  obtain ⟨-, -, -, -, hp, -⟩ := h
  obtain ⟨-, -, -, hm, -⟩ := precise_none hp
  have hr := hm (live_m (by decide) hg) rfl
  have hn := mt (mRaises (s.ch ch) o).mpr (by rw [show (s.ch ch).mmaRange o = false from hr]; decide)
  dsimp only at hn
  omega

theorem halfRows_eq (m : Nat) : halfRows m = m - m / 2 := by
  unfold halfRows
  omega

theorem round64 (x : Nat) : x / 64 * 64 = x - x % 64 := by omega

/-- The rows of an mma by its arrays (R45). -/
theorem mmaOf_rows (c : Chamber) (pc : Nat) (o : MOps) :
    let rows := (c.sreg o.srows).toNat
    let e := c.mmaOf pc 0x01 o
    (e.nextA, e.endA) = (0, if o.arr = 1 then rows else if o.arr = 3 then rows - rows / 2 else 0) ∧
    (o.arr = 2 → (e.nextB, e.endB) = (0, rows)) ∧ (o.arr = 3 → (e.nextB, e.endB) = (rows - rows / 2, rows)) ∧
    (o.arr = 1 → (e.nextB, e.endB) = (0, 0)) := by
  have harr : o.arr = 0 ∨ o.arr = 1 ∨ o.arr = 2 ∨ o.arr = 3 := by
    generalize o.arr = a
    revert a
    decide
  obtain h | h | h | h := harr <;> simp [Chamber.mmaOf, h, halfRows_eq]

/-- Settles O17: the queue entry is `mmaOf`. -/
theorem matrixInstructionsQueue : Obligations.MatrixInstructionsQueue := by
  unfold Obligations.MatrixInstructionsQueue
  intro ch o i s hg c rows
  constructor
  · intro h
    obtain ⟨h1, h2⟩ := takes_rows h hg
    obtain ⟨hA, hB2, hB3, hB1⟩ := mmaOf_rows c (s.chPc ch) o
    have h1' : o.arr = 1 → ((c.mmaOf (s.chPc ch) 1 o).nextB, (c.mmaOf (s.chPc ch) 1 o).endB) = ((c.mmaOf (s.chPc ch) 1 o).endB, 0) ∨ 
        (c.mmaOf (s.chPc ch) 1 o).endB ≤ (c.mmaOf (s.chPc ch) 1 o).nextB := fun ha => .inr (by 
      obtain ⟨hn, he⟩ := Prod.mk.inj (hB1 ha)
      rw [hn, he])
    refine ⟨h1, h2, _, rfl, c.mmaOf (s.chPc ch) 1 o, issue_mmas h hg (by decide), rfl, rfl, ?_, rfl, rfl, rfl, rfl, ?_, rfl, rfl, rfl,
      round64 _, round64 _, hA, hB2, hB3, h1'⟩
    · exact Bool.false_or _
    · exact Bool.and_true _
  · intro h
    exact ⟨_, rfl, c.mmaOf (s.chPc ch) 2 o, issue_mmas h hg (by decide), rfl, rfl, rfl, by simp [Chamber.mmaOf], by simp [Chamber.mmaOf],
      Nat.le_refl _, Nat.le_refl _⟩

/-! ## The V slot lane by lane -/

/-- A vector operation whose result is made lane by lane. -/
theorem writesLanes_lanewise (mk : Fin 28 → VOps → Issue → Instr) (op : BitVec 8) (g : Chamber → VOps → Nat → Lane × Flags)
    (f : Chamber → VOps → Nat → Lane) (he : ∀ ch o i s, exec (mk ch o i) s = .next (s.issue ch.val (withV i op o))) (h0 : op ≠ 0) (h28 : op ≠ 0x28)
    (hr : ∀ (c : Chamber) (o : VOps), c.vResult op.toNat o = lanewise (g c o)) (hf : ∀ c o k, (g c o k).1 = f c o k) : WritesLanes mk op f :=
  writesLanes_of mk op f he h0 h28 fun c o k hk => by rw [hr, lane_lanewise _ _ hk, hf]

/-- The same without flags. -/
theorem writesLanes_quiet (mk : Fin 28 → VOps → Issue → Instr) (op : BitVec 8) (f : Chamber → VOps → Nat → Lane)
    (he : ∀ ch o i s, exec (mk ch o i) s = .next (s.issue ch.val (withV i op o))) (h0 : op ≠ 0) (h28 : op ≠ 0x28)
    (hr : ∀ (c : Chamber) (o : VOps), c.vResult op.toNat o = lanewise fun k => quiet (f c o k)) : WritesLanes mk op f :=
  writesLanes_lanewise mk op _ f he h0 h28 hr fun _ _ _ => rfl

theorem low_lane (x : Word) : x.setWidth 32 = x.extractLsb' 0 32 := by
  apply BitVec.eq_of_toNat_eq
  simp [BitVec.extractLsb'_toNat]

/-- Settles O18: each result from the equation of `vResult` at its opcode. -/
theorem vectorSlotResults : Obligations.VectorSlotResults := by
  unfold Obligations.VectorSlotResults
  refine ⟨?_, ?_, ?_, ?_, ?_, ?_, ?_, ?_, ?_, ?_, ?_, ?_, ?_, ?_, ?_, ?_, ?_, ?_, ?_, ?_, ?_, ?_, ?_, ?_, ?_, ?_⟩
  · exact writesLanes_lanewise _ _ _ _ (fun _ _ _ _ => rfl) (by decide) (by decide) (fun _ _ => rfl) fun _ _ _ => rfl
  · exact writesLanes_lanewise _ _ _ _ (fun _ _ _ _ => rfl) (by decide) (by decide) (fun _ _ => rfl) fun _ _ _ => rfl
  · exact writesLanes_lanewise _ _ _ _ (fun _ _ _ _ => rfl) (by decide) (by decide) (fun _ _ => rfl) fun _ _ _ => rfl
  · exact writesLanes_lanewise _ _ _ _ (fun _ _ _ _ => rfl) (by decide) (by decide) (fun _ _ => rfl) fun _ _ _ => rfl
  · exact writesLanes_lanewise _ _ _ _ (fun _ _ _ _ => rfl) (by decide) (by decide) (fun _ _ => rfl) fun _ _ _ => rfl
  · exact writesLanes_lanewise _ _ _ _ (fun _ _ _ _ => rfl) (by decide) (by decide) (fun _ _ => rfl) fun _ _ _ => rfl
  · exact writesLanes_quiet _ _ _ (fun _ _ _ _ => rfl) (by decide) (by decide) fun _ _ => rfl
  · exact writesLanes_quiet _ _ _ (fun _ _ _ _ => rfl) (by decide) (by decide) fun _ _ => rfl
  · exact writesLanes_quiet _ _ _ (fun _ _ _ _ => rfl) (by decide) (by decide) fun _ _ => rfl
  · exact writesLanes_quiet _ _ _ (fun _ _ _ _ => rfl) (by decide) (by decide) fun _ _ => rfl
  · exact writesLanes_quiet _ _ _ (fun _ _ _ _ => rfl) (by decide) (by decide) fun _ _ => rfl
  · exact writesLanes_quiet _ _ _ (fun _ _ _ _ => rfl) (by decide) (by decide) fun _ _ => rfl
  · exact writesLanes_quiet _ _ _ (fun _ _ _ _ => rfl) (by decide) (by decide) fun _ _ => rfl
  · exact writesLanes_lanewise _ _ _ _ (fun _ _ _ _ => rfl) (by decide) (by decide) (fun _ _ => rfl) fun c o k => ite_not ..
  · exact writesLanes_lanewise _ _ _ _ (fun _ _ _ _ => rfl) (by decide) (by decide) (fun _ _ => rfl) fun c o _ => low_lane (c.sreg o.sreg)
  · exact writesLanes_of _ _ _ (fun _ _ _ _ => rfl) (by decide) (by decide) fun c o k hk => lane_red fadd (c.vreg o.va) k hk
  · exact writesLanes_of _ _ _ (fun _ _ _ _ => rfl) (by decide) (by decide) fun c o k hk => lane_red fmax (c.vreg o.va) k hk
  · exact writesLanes_lanewise _ _ _ _ (fun _ _ _ _ => rfl) (by decide) (by decide) (fun _ _ => rfl) fun _ _ _ => rfl
  · exact writesLanes_lanewise _ _ _ _ (fun _ _ _ _ => rfl) (by decide) (by decide) (fun _ _ => rfl) fun _ _ _ => rfl
  · exact writesLanes_lanewise _ _ _ _ (fun _ _ _ _ => rfl) (by decide) (by decide) (fun _ _ => rfl) fun _ _ _ => rfl
  · exact writesLanes_lanewise _ _ _ _ (fun _ _ _ _ => rfl) (by decide) (by decide) (fun _ _ => rfl) fun _ _ _ => rfl
  · exact writesLanes_lanewise _ _ _ _ (fun _ _ _ _ => rfl) (by decide) (by decide) (fun _ _ => rfl) fun _ _ _ => rfl
  · exact writesLanes_lanewise _ _ _ _ (fun _ _ _ _ => rfl) (by decide) (by decide) (fun _ _ => rfl) fun _ _ _ => rfl
  · exact writesLanes_lanewise _ _ _ _ (fun _ _ _ _ => rfl) (by decide) (by decide) (fun _ _ => rfl) fun _ _ _ => rfl
  · exact writesLanes_quiet _ _ _ (fun _ _ _ _ => rfl) (by decide) (by decide) fun _ _ => rfl
  · exact writesLanes_quiet _ _ _ (fun _ _ _ _ => rfl) (by decide) (by decide) fun _ _ => rfl

/-! ## trn.w -/

/-- The places of a turn tile are told apart by tile, row and column. -/
theorem turn_place {a b : Bool} {r q k : Nat} (hr : r < 128) (hq : q < 128) (hk : k < 128) :
    (16384 * b2n b + 128 * q ≤ 16384 * b2n a + 128 * r + k ∧ 16384 * b2n a + 128 * r + k < 16384 * b2n b + 128 * q + 128) ↔ a = b ∧ r = q := by
  cases a <;> cases b <;> simp [b2n] <;> omega

theorem issue_turn {s : State} {ch : Fin 28} {i : Issue} {o : VOps} (h : s.Takes ch (withV i 0x28 o)) (hg : (s.ch ch).guard o.guard = true) :
    ((s.issue ch (withV i 0x28 o)).ch ch).turn = turnRow (s.ch ch).turn (b2n o.tt) o.idx.toNat ((s.ch ch).vreg o.va) := by
  obtain ⟨-, -, -, -, ht, -⟩ := core_parts (issue_core h)
  rw [ht, after_turn]
  exact if_pos ⟨live_v (by decide) hg, rfl⟩

/-- Settles O19. -/
theorem turnRowWrites : Obligations.TurnRowWrites := by
  unfold Obligations.TurnRowWrites
  intro ch o i s h hg
  refine ⟨_, rfl, fun tt r k hr hk => ?_⟩
  unfold Chamber.turnElem
  rw [issue_turn h hg, turnRow_get]
  simp only [turn_place hr o.idx.isLt hk]
  split
  · next he =>
    obtain ⟨rfl, rfl⟩ := he
    rw [Nat.add_sub_cancel_left]
    apply BitVec.eq_of_toNat_eq
    simp [BitVec.extractLsb'_toNat, laneA]
  · rfl

end Sys2Proof.Machine
end

section
/-! What a bundle that is taken leaves alone (R24 to R52), and from it O20. -/

namespace Sys2Proof.Machine

open Sys2Proof

/-! ## Which slots of a legal bundle write what -/

theorem sop_of_live {c : Chamber} {b : Bundle} (h : (c.live b).s = true) : b.sop ≠ 0 := by
  unfold Chamber.live at h
  simp only [Bool.and_eq_true, bne_iff_ne] at h
  exact h.1

theorem lop_of_live {c : Chamber} {b : Bundle} (h : (c.live b).l = true) : b.lop ≠ 0 := by
  unfold Chamber.live at h
  simp only [Bool.and_eq_true, bne_iff_ne] at h
  exact h.1

/-- An L slot that is live and starts nothing is one of the three local loads. -/
theorem opsL_local {c : Chamber} {b : Bundle} (hok : lOpOk b.lop = true) (hl : (c.live b).l = true) (h : ¬(b.lop = 0x04 ∨ b.lop = 0x05))
    (pc : Nat) (tk : Bool) : c.opsL pc b.lop b.l tk = [] := by
  obtain ⟨h4, h5⟩ := not_or.mp h
  unfold Chamber.opsL
  obtain e | e | e := lOps b.lop hok (lop_of_live hl) h4 h5 <;> (rw [e]; rfl)

/-- A T slot below st.t starts nothing. -/
theorem opsT_local {c : Chamber} {b : Bundle} (ht : (c.live b).t = true) (h : ¬4 ≤ b.top.toNat) (pc : Nat) : c.opsT pc b.top b.t = [] := by
  have h0 : b.top.toNat ≠ 0 := fun e => by
    have : b.top = 0 := BitVec.eq_of_toNat_eq e
    simp [Chamber.live, this] at ht
  have h3 : b.top.toNat = 1 ∨ b.top.toNat = 2 ∨ b.top.toNat = 3 := by omega
  unfold Chamber.opsT
  obtain e | e | e := h3 <;> (rw [e]; rfl)

/-- A T slot that stores bytes at once is one of the three local stores. -/
theorem storeBytes_access (c : Chamber) (op : BitVec 8) (o : TOps) (h : (c.storeBytes op o).length ≠ 0) :
    ∃ k, accessOf op = some ((c.storeBytes op o).length, k) := by
  simp only [accessOf_iff]
  unfold Chamber.storeBytes at h ⊢
  split at h
  case h_1 e => exact ⟨8, .inl ⟨(op_toNat (by decide)).mp e, leBytes_length _ _, rfl⟩⟩
  case h_2 e => exact ⟨64, .inr (.inl ⟨(op_toNat (by decide)).mp e, bytesOfLanes_length _, rfl⟩)⟩
  case h_3 e => exact ⟨128, .inr (.inr ⟨(op_toNat (by decide)).mp e, leBytes_length _ _, rfl⟩)⟩
  case h_4 => exact absurd rfl h

/-- A local store that is taken lies in local memory. -/
theorem takes_store_inside {s : State} {n : Nat} {i : Issue} (h : s.Takes n i) (ht : ((s.ch n).live i.bundle).t = true) {k al : Nat}
    (ha : accessOf i.bundle.top = some (k, al)) : Inside (((s.ch n).sreg i.bundle.t.sa).toNat + i.bundle.t.imm32.toInt) k := by
  obtain ⟨-, -, -, -, hp, -⟩ := h
  by_contra hi
  have hr := (tRaises (s.ch n) i.bundle.top i.bundle.t 3).mpr (.inl ⟨k, al, ha, .inl ⟨rfl, hi⟩⟩)
  obtain ⟨-, -, -, -, -, hc⟩ := precise_none hp
  rw [hc ht] at hr
  cases hr

theorem accessOf_mem {op : BitVec 8} {n k : Nat} (h : accessOf op = some (n, k)) : (op, (n : Int)) ∈ [(0x01#8, 8), (0x02#8, 512), (0x03#8, 128)] := by
  obtain ⟨rfl, rfl, -⟩ | ⟨rfl, rfl, -⟩ | ⟨rfl, rfl, -⟩ := (accessOf_iff op n k).mp h <;> simp

section taken

variable {s : State} {ch : Fin 28} {i : Issue} (h : s.Takes ch i)
include h

theorem frame_sreg (r : BitVec 5) : ((s.issue ch i).ch ch).sreg r = (s.ch ch).sreg r ∨
    (((s.ch ch).live i.bundle).s = true ∧ r = i.bundle.s.dst ∧ i.bundle.sop ∈ scalarOps) ∨
    (((s.ch ch).live i.bundle).l = true ∧ i.bundle.lop = 0x01 ∧ r = i.bundle.l.dst) := by
  rw [sreg_core (issue_core h), after_sreg]
  split
  · next e =>
    obtain ⟨hl, hop, hr⟩ := e
    exact .inr (.inr ⟨hl, (op_toNat (by decide)).mp hop, hr⟩)
  · split
    · next e =>
      obtain ⟨hs, hop, hr⟩ := e
      exact .inr (.inl ⟨hs, hr, sOps1 _ (sOpOk_taken h) (sop_of_live hs) hop⟩)
    · exact .inl rfl

theorem frame_pred (r : BitVec 3) : ((s.issue ch i).ch ch).pred r = (s.ch ch).pred r ∨
    (((s.ch ch).live i.bundle).s = true ∧ r = i.bundle.s.dst.setWidth 3 ∧ i.bundle.sop ∈ predicateOps) := by
  rw [pred_core (issue_core h), after_pred _ _ _ _ (sOpOk_taken h)]
  split
  · next e =>
    obtain ⟨hs, hlo, hhi, hr⟩ := e
    exact .inr ⟨hs, hr, sOps2 _ (sOpOk_taken h) (sop_of_live hs) hlo hhi⟩
  · exact .inl rfl

theorem frame_dreg (r : BitVec 4) : ((s.issue ch i).ch ch).dreg r = (s.ch ch).dreg r ∨
    (((s.ch ch).live i.bundle).s = true ∧ r = i.bundle.s.dst.setWidth 4 ∧ (i.bundle.sop = 0x20 ∨ i.bundle.sop = 0x21)) ∨
    (((s.ch ch).live i.bundle).l = true ∧ i.bundle.lop = 0x03 ∧ r = i.bundle.l.dsc) := by
  rw [dreg_core (issue_core h), after_dreg]
  split
  · next e =>
    obtain ⟨hl, hop, hr⟩ := e
    exact .inr (.inr ⟨hl, (op_toNat (by decide)).mp hop, hr⟩)
  · split
    · next e =>
      obtain ⟨hs, hlo, hhi, hr⟩ := e
      exact .inr (.inl ⟨hs, hr, sOps3 _ (sOpOk_taken h) hlo hhi⟩)
    · exact .inl rfl

theorem frame_vreg (r : BitVec 5) : ((s.issue ch i).ch ch).vreg r = (s.ch ch).vreg r ∨
    (((s.ch ch).live i.bundle).v = true ∧ i.bundle.vop ≠ 0x28 ∧ r = i.bundle.v.vd) ∨
    (((s.ch ch).live i.bundle).l = true ∧ i.bundle.lop = 0x02 ∧ r = i.bundle.l.dst) := by
  rw [vreg_core (issue_core h), after_vreg]
  split
  · next e => exact .inr (.inl e)
  · split
    · next e =>
      obtain ⟨hl, hop, hr⟩ := e
      exact .inr (.inr ⟨hl, (op_toNat (by decide)).mp hop, hr⟩)
    · exact .inl rfl

/-- Local memory keeps its bytes outside the T slot's store. -/
theorem frame_lmem (x : Nat) : memByte ((s.issue ch i).ch ch).lmem x = memByte (s.ch ch).lmem x ∨
    (((s.ch ch).live i.bundle).t = true ∧ ∃ n, (i.bundle.top, n) ∈ [(0x01#8, 8), (0x02#8, 512), (0x03#8, 128)] ∧
      let lo : Int := ((s.ch ch).sreg i.bundle.t.sa).toNat + i.bundle.t.imm32.toInt
      lo ≤ x ∧ x < lo + n) := by
  obtain ⟨-, -, -, -, -, -, hl, -⟩ := core_parts (issue_core h)
  rw [hl, after_lmem]
  by_cases ht : ((s.ch ch).live i.bundle).t = true
  · rw [if_pos ht, memByte_write]
    split
    · next hx =>
      obtain ⟨k, ha⟩ := storeBytes_access (s.ch ch) i.bundle.top i.bundle.t (by omega)
      obtain ⟨h0, -⟩ := takes_store_inside h ht ha
      obtain ⟨h1, h2⟩ : (((s.ch ch).sreg i.bundle.t.sa).toNat + i.bundle.t.imm32.toInt).toNat ≤ x ∧
        x < (((s.ch ch).sreg i.bundle.t.sa).toNat + i.bundle.t.imm32.toInt).toNat + ((s.ch ch).storeBytes i.bundle.top i.bundle.t).length := hx
      refine .inr ⟨ht, _, accessOf_mem ha, ?_, ?_⟩
      · omega
      · omega
    · exact .inl rfl
  · rw [if_neg ht]
    exact .inl rfl

theorem frame_turn : ((s.issue ch i).ch ch).turn = (s.ch ch).turn ∨ (((s.ch ch).live i.bundle).v = true ∧ i.bundle.vop = 0x28) := by
  obtain ⟨-, -, -, -, ht, -⟩ := core_parts (issue_core h)
  rw [ht, after_turn]
  split
  · next e => exact .inr e
  · exact .inl rfl

theorem frame_retStack : ((s.issue ch i).ch ch).retStack = (s.ch ch).retStack ∨
    (((s.ch ch).live i.bundle).c = true ∧ (i.bundle.cop = 0x03 ∨ i.bundle.cop = 0x04)) := by
  obtain ⟨-, -, -, -, -, -, -, -, -, -, -, hr, -⟩ := core_parts (issue_core h)
  rw [hr, (after_rest s ch i.bundle).1]
  split
  · next hc =>
    unfold Chamber.doC
    split
    case h_1 e => exact .inr ⟨hc, .inl ((op_toNat (by decide)).mp e)⟩
    case h_2 e => exact .inr ⟨hc, .inr ((op_toNat (by decide)).mp e)⟩
    all_goals exact .inl rfl
  · exact .inl rfl

theorem frame_ops : ∃ l, ((s.issue ch i).ch ch).ops = (s.ch ch).ops ++ l ∧
    (((s.ch ch).live i.bundle).l = true ∧ (i.bundle.lop = 0x04 ∨ i.bundle.lop = 0x05) ∨
      ((s.ch ch).live i.bundle).t = true ∧ 0x04 ≤ i.bundle.top.toNat ∨ l = []) := by
  obtain ⟨-, -, -, -, -, -, -, -, -, ho, -⟩ := core_parts (issue_core h)
  obtain ⟨-, -, hleg, -⟩ := h
  obtain ⟨-, -, hlok, -⟩ := legal_none hleg
  refine ⟨_, by rw [ho, after_ops, List.append_assoc], ?_⟩
  by_cases hL : ((s.ch ch).live i.bundle).l = true ∧ (i.bundle.lop = 0x04 ∨ i.bundle.lop = 0x05)
  · exact .inl hL
  · by_cases hT : ((s.ch ch).live i.bundle).t = true ∧ 0x04 ≤ i.bundle.top.toNat
    · exact .inr (.inl hT)
    · refine .inr (.inr (List.append_eq_nil_iff.mpr ⟨?_, ?_⟩))
      · split
        · next hl => exact opsL_local hlok hl (fun e => hL ⟨hl, e⟩) _ _
        · rfl
      · split
        · next ht => exact opsT_local ht (fun e => hT ⟨ht, e⟩) _
        · rfl

theorem frame_mmas : ∃ l, ((s.issue ch i).ch ch).mmas = (s.ch ch).mmas ++ l ∧
    (((s.ch ch).live i.bundle).m = true ∧ l.length = 1 ∨ l = []) := by
  obtain ⟨-, -, -, -, -, -, -, -, -, -, hm, -⟩ := core_parts (issue_core h)
  refine ⟨_, by rw [hm, after_mmas], ?_⟩
  split
  · next e => exact .inl ⟨e, rfl⟩
  · exact .inr rfl

end taken

/-- The fields of a bundle are those that accompany it and those that it writes itself. -/
theorem touch_field {n : Nat} {f : FieldRef} (hf : f.lo < 64) (h : Touch n f.key) : BundleField n f := by
  unfold BundleField
  obtain h | h | h | h | h | h | h | h := h
  · refine .inr (.inr (.inl ?_))
    simp only [FieldRef.key] at h
    omega
  · refine .inr (.inr (.inr (.inl ?_)))
    simp only [FieldRef.key] at h
    omega
  · refine .inr (.inr (.inr (.inr ?_)))
    simp only [FieldRef.key] at h
    omega
  · exact .inl (by simp [h])
  · exact .inr (.inl h)
  · exact .inl (by rw [List.map_append]; exact List.mem_append_right _ h)
  · exact .inl (by simp [h])
  · exact .inl (by simp [h])

/-- What a bundle itself writes in registers keeps the rest. -/
theorem nextRegs_get (s : State) (n : Nat) (b : Bundle) (v : Live) {f : FieldRef}
    (h : f.key ∉ [Reg.CHn_STATUS_PC n, Reg.CHn_WTILE_SHADOW n, Reg.CHn_WTILE_SHADOW_TYPE n].map FieldRef.key) : (s.nextRegs n b v).get f = s.get f := by
  simp only [List.map_cons, List.map_nil, List.mem_cons, List.not_mem_nil, or_false, not_or] at h
  obtain ⟨h1, h2, h3⟩ := h
  unfold State.nextRegs
  rw [State.get_put_ne h1]
  split
  · rw [State.puts_cons, State.puts_cons, State.puts_nil, State.get_put_ne h3, State.get_put_ne h2]
  · rfl

/-- A field that a bundle of the chamber does not write. -/
theorem frame_get {s : State} {ch : Fin 28} {i : Issue} (h : s.Takes ch i) (f : FieldRef) (hf : f.lo < 64) :
    (s.issue ch i).get f = s.get f ∨ BundleField ch f := by
  by_cases hb : BundleField ch f
  · exact .inr hb
  · refine .inl ?_
    rw [(within_issue h ch.isLt).get (fun ht => hb (touch_field hf ht))]
    refine nextRegs_get s ch _ _ (fun hm => hb (.inl ?_))
    simp only [List.map_cons, List.map_nil, List.mem_cons, List.not_mem_nil, or_false] at hm
    obtain e | e | e := hm <;> rw [e] <;> simp


/-- Settles O20: each part of the frame is its own lemma above. -/
theorem bundleFrame : Obligations.BundleFrame := by
  unfold Obligations.BundleFrame
  intro c ch i s hb h
  refine ⟨_, exec_bundle s hb, (issue_side h).1.trans rfl, fun m hm => issue_core_other h hm, frame_sreg h, frame_pred h, frame_dreg h, frame_vreg h,
    frame_lmem h, frame_turn h, frame_retStack h, frame_ops h, frame_mmas h, ?_⟩
  obtain ⟨-, -, -, -, -, kb, -, kA, kB, -, -, -, kact, ksh, -, -, ktA, ktB, krA, krB, ksl, -⟩ := core_parts (issue_core h)
  obtain ⟨-, ab, aA, aB, atA, atB, arA, arB, aact, ash, asl, -⟩ := after_rest s ch i.bundle
  exact ⟨kb.trans ab, kA.trans aA, kB.trans aB, ktA.trans atA, ktB.trans atB, krA.trans arA, krB.trans arB, kact.trans aact, ksh.trans ash,
    ksl.trans asl, frame_get h⟩

end Sys2Proof.Machine
end

section
/-! Bundles that are not taken whole: false guards, sources of ILLEGAL, precise causes (R30, R31, R39, R40, R60), and from them O21, O22 and O23. -/

namespace Sys2Proof.Machine

open Sys2Proof

/-! ## Guards -/

theorem guard_iff (c : Chamber) (g : BitVec 4) : c.guard g = true ↔ c.pred (g.setWidth 3) ≠ g.getLsbD 3 := by
  unfold Chamber.guard
  simp

theorem guard_always (c : Chamber) : c.guard 0b0000 = true := (guard_iff c _).mpr (by simp [Chamber.pred])

theorem guard_never (c : Chamber) : c.guard 0b1000 = false := by
  have : ¬c.guard 0b1000 = true := fun h => (guard_iff c _).mp h (by simp [Chamber.pred])
  simpa using this

/-- The slot of a bundle that is live. -/
def Live.slot (v : Live) : Fin 6 → Bool
  | 0 => v.c
  | 1 => v.s
  | 2 => v.l
  | 3 => v.m
  | 4 => v.v
  | 5 => v.t

/-- A slot whose guard is false is not live. -/
theorem live_dead {c : Chamber} {b : Bundle} {slot : Fin 6} (hg : c.guard (guardOf b slot) = false) : (c.live b).slot slot = false := by
  match slot, hg with
  | 0, hg | 1, hg | 2, hg | 3, hg | 4, hg | 5, hg => exact Bool.and_eq_false_iff.mpr (.inr hg)

/-! ## A false guard acts as nop -/

/-- With nop in a slot that is not live the same slots are live. -/
theorem live_withNop {c : Chamber} {i : Issue} {slot : Fin 6} (hg : c.guard (guardOf i.bundle slot) = false) :
    c.live (withNop i slot).bundle = c.live i.bundle := by
  match slot, live_dead hg with
  | 0, h | 1, h | 2, h | 3, h | 4, h | 5, h =>
    unfold Chamber.live
    congr 1
    exact Eq.symm h

theorem doBundle_nop (c : Chamber) (pc : Nat) (i : Issue) (slot : Fin 6) (v : Live) (cyc : Word) (tk : Bool) (h : v.slot slot = false) :
    c.doBundle pc (withNop i slot).bundle v cyc tk = c.doBundle pc i.bundle v cyc tk := by
  match slot, h with
  | 0, h =>
    change c.doBundle pc { i.bundle with cop := 0 } v cyc tk = _
    simp only [Chamber.doBundle, show v.c = false from h, Bool.false_eq_true, if_false]
  | 1, h =>
    change c.doBundle pc { i.bundle with sop := 0 } v cyc tk = _
    simp only [Chamber.doBundle, show v.s = false from h, Bool.false_eq_true, if_false]
  | 2, h =>
    change c.doBundle pc { i.bundle with lop := 0 } v cyc tk = _
    simp only [Chamber.doBundle, show v.l = false from h, Bool.false_eq_true, if_false]
  | 3, h =>
    change c.doBundle pc { i.bundle with mop := 0 } v cyc tk = _
    simp only [Chamber.doBundle, show v.m = false from h, Bool.false_eq_true, if_false]
  | 4, h =>
    change c.doBundle pc { i.bundle with vop := 0 } v cyc tk = _
    simp only [Chamber.doBundle, show v.v = false from h, Bool.false_eq_true, if_false]
  | 5, h =>
    change c.doBundle pc { i.bundle with top := 0 } v cyc tk = _
    simp only [Chamber.doBundle, show v.t = false from h, Bool.false_eq_true, if_false]

/-- What the rest of an issue reads of a bundle does not hang on a slot that is not live. -/
theorem reads_nop (i : Issue) (slot : Fin 6) (v : Live) (h : v.slot slot = false) :
    (withNop i slot).bundle.l = i.bundle.l ∧ (withNop i slot).bundle.v = i.bundle.v ∧
    (v.l && (withNop i slot).bundle.lop == 5) = (v.l && i.bundle.lop == 5) ∧
    (v.c && (withNop i slot).bundle.cop == 5) = (v.c && i.bundle.cop == 5) ∧
    (v.v && (withNop i slot).bundle.vop == 0x2C) = (v.v && i.bundle.vop == 0x2C) ∧
    ∀ (k : Chamber) (pc : Nat), k.nextPc pc (withNop i slot).bundle v = k.nextPc pc i.bundle v := by
  obtain ⟨c, sc, l, m, vv, t⟩ := v
  match slot, h with
  | 0, h | 1, h | 2, h | 3, h | 4, h | 5, h => cases h; exact ⟨rfl, rfl, rfl, rfl, rfl, fun _ _ => rfl⟩

theorem takeBundle_nop (s : State) (n : Nat) (i : Issue) (slot : Fin 6) (v : Live) (h : v.slot slot = false) :
    s.takeBundle n (withNop i slot).bundle v = s.takeBundle n i.bundle v := by
  obtain ⟨hl, -, hl5, hc5, -, hpc⟩ := reads_nop i slot v h
  unfold State.takeBundle
  simp only [doBundle_nop _ _ _ _ _ _ _ h, hl, hl5, hc5, hpc]

theorem touched_nop (c : Chamber) (i : Issue) (slot : Fin 6) (v : Live) (h : v.slot slot = false) :
    c.touched (withNop i slot).bundle v = c.touched i.bundle v := by
  obtain ⟨c, sc, l, m, vv, t⟩ := v
  match slot, h with
  | 0, h | 1, h | 2, h | 3, h | 4, h | 5, h => cases h; rfl

theorem runBundle_nop {s : State} {n : Nat} {i : Issue} {slot : Fin 6} (hg : (s.ch n).guard (guardOf i.bundle slot) = false) :
    s.runBundle n (withNop i slot) = s.runBundle n i := by
  have h := live_dead hg
  obtain ⟨-, ho, -, -, hv, -⟩ := reads_nop i slot _ h
  unfold State.runBundle
  dsimp only
  rw [live_withNop hg, takeBundle_nop _ _ _ _ _ h, touched_nop _ _ _ _ h, hv, ho]
  rfl

/-- A slot whose guard is false raises nothing but that the bundle lies at the end. -/
theorem raises_dead {c : Chamber} {pc : Nat} {b : Bundle} {slot : Fin 6} {cause : Nat} (hg : c.guard (guardOf b slot) = false)
    (h : c.Raises pc b cause slot) : slot = 0 ∧ AtEnd pc b (c.live b) := by
  have hd := live_dead hg
  have hv : ∀ {k : Fin 6}, slot.val = k.val → (c.live b).slot k = true → False := fun e hk => by
    rw [← Fin.ext e, hd] at hk
    cases hk
  unfold Chamber.Raises at h
  rcases h with ⟨e, -, ha⟩ | ⟨e, -, h, -⟩ | ⟨e, -, h, -⟩ | ⟨e, h, -⟩ | ⟨e, -, h, -⟩ | ⟨e, -, h, -⟩ | ⟨e, -, h, -⟩ | ⟨e, h, -⟩ | ⟨e, h, -⟩ | ⟨e, -, h, -⟩
  · exact ⟨Fin.ext e, ha⟩
  · exact (hv (k := 0) e h).elim
  · exact (hv (k := 0) e h).elim
  · exact (hv (k := 2) e h).elim
  · exact (hv (k := 2) e h).elim
  · exact (hv (k := 3) e h).elim
  · exact (hv (k := 4) e h).elim
  · exact (hv (k := 5) e h).elim
  · exact (hv (k := 5) e h).elim
  · exact (hv (k := 5) e h).elim

/-- Settles O21: what a bundle does and raises reads a slot's opcode under its live bit alone. -/
theorem falseGuardDoesNothing : Obligations.FalseGuardDoesNothing := by
  unfold Obligations.FalseGuardDoesNothing
  refine ⟨fun k g => ⟨guard_iff k g, guard_always k, guard_never k⟩, fun c ch i s slot hb hg => ⟨fun h => ?_, fun h => ?_, fun cause => raises_dead hg⟩⟩
  · rw [exec_bundle s hb, issue_takes h, runBundle_nop hg]
  · exact congrArg _ (issue_takes h)

/-! ## Bundles that halt at issue -/

/-- Settles O22: the lowest source of ILLEGAL is the one that issue records. -/
theorem illegalBundleHalts : Obligations.IllegalBundleHalts := by
  unfold Obligations.IllegalBundleHalts
  intro c ch i s slot hb hm hf hd hk hl
  refine ⟨_, exec_bundle s hb, ?_⟩
  unfold State.issue State.issueFetched
  simp only [hm, hf, illegal_some i.bundle slot hk hl, no_double hd,
    Bool.true_and, beq_self_eq_true, Bool.not_true, Bool.false_eq_true, if_false]
  obtain ⟨h1, h2, h3, h4⟩ := halted s ch i ⟨0x02, s.chPc ch, s.chPc ch, 0, slot, 3, 0, 0, 0, 0⟩ hm hd
  exact ⟨h1, h2, h3, _, h4, rfl, rfl, rfl, rfl⟩

/-- Settles O23: `precise` answers the lowest slot that raises a cause. -/
theorem preciseCausesHalt : Obligations.PreciseCausesHalt := by
  unfold Obligations.PreciseCausesHalt
  intro c ch i s hb hm hf hd hl hw cause slot hr hmin
  obtain ⟨hsome, hnone⟩ := precise_raises (s.ch ch) (s.chPc ch) i.bundle
  cases hp : (s.ch ch).precise (s.chPc ch) i.bundle ((s.ch ch).live i.bundle) with
  | none => exact (hnone hp _ _ hr).elim
  | some p =>
    obtain ⟨x, k, nx⟩ := p
    obtain ⟨hx, hlow, hend, hnot⟩ := hsome x k nx hp
    have hk : k = slot := le_antisymm (hlow _ _ hr) (hmin _ _ hx)
    subst hk
    refine ⟨_, exec_bundle s hb, ?_⟩
    unfold State.issue State.issueFetched
    simp only [hm, hf, (illegal_none_iff i.bundle).mpr hl, hw, hp, no_double hd,
      Bool.true_and, beq_self_eq_true, Bool.not_true, Bool.false_eq_true, if_false]
    obtain ⟨h1, h2, h3, h4⟩ := halted s ch i ⟨x, s.chPc ch, nx, 0, k, 3, 0, 0, 0, 0⟩ hm hd
    exact ⟨h1, h2, h3, _, h4, hx, rfl, rfl, hend, hnot⟩

end Sys2Proof.Machine
end

section
/-! The end of an asynchronous operation (R32, R48, R85, R120, R123), and from it O27. -/

namespace Sys2Proof.Machine

open Sys2Proof

/-- The chamber that the completion of an operation leaves: its last writes made, and the operation outstanding no more. -/
def Chamber.cleared (c : Chamber) (o : AsyncOp) : Chamber :=
  { c with lmem := o.lastWrites c.lmem, ops := c.ops.filter fun x => !(x.seq == o.seq && x.kind == o.kind) }

theorem putTsw_eq (s : State) (n : Nat) (o : AsyncOp) : s.putTsw n o = { s with fields := (s.putTsw n o).fields } := by
  unfold State.putTsw
  dsimp only
  split
  · exact puts_eq _ _
  · exact puts_eq _ _

/-- Beside the chamber's own last effects an operation's end changes registers and releases posts alone. -/
theorem side_clearOp (s : State) (n : Nat) (o : AsyncOp) : (s.setCh n ((s.ch n).cleared o)).Side (s.clearOp n o) := by
  unfold State.clearOp
  extract_lets s1 s2
  have hs2 : s2 = { s1 with fields := s2.fields } := by
    unfold s2
    split
    · exact putTsw_eq s1 n o
    · rfl
  have hch : ∀ m, s2.ch m = if m = n then { s.ch n with lmem := o.lastWrites (s.ch n).lmem } else s.ch m := fun m => by
    rw [hs2]
    show s1.ch m = _
    exact ch_modCh
  refine State.Side.trans ⟨?_, fun m => ?_⟩ (side_tryPosts n)
  · unfold State.modCh State.setCh
    rw [hs2]
    rfl
  · rw [ch_modCh, State.ch_setCh, hch, hch, if_pos rfl]
    split
    · rfl
    · rfl

theorem side_unqueueFailed (s : State) (n : Nat) (o : AsyncOp) : s.Side (s.unqueueFailed n o) :=
  side_ite (side_put _ _) (.refl s)

theorem mayClear_of_answered {s : State} {n : Nat} {o : AsyncOp} (hs : o.sent = true)
    (hmv : o.kind = .mv → (s.liveCh n).feedBlocked o.seq o.laddr o.len = false)
    (ho : ∀ w ∈ o.outs, (s.liveCh n).feedBlocked o.seq w.1 w.2.length = false)
    (hw : o.kind = .ldW → o.failed = false → (s.ch n).shadowOp ≠ some o.seq) : s.mayClear n o = true := by
  unfold State.mayClear
  have hall : (o.outs.all fun w => !(s.liveCh n).feedBlocked o.seq w.1 w.2.length) = true :=
    List.all_eq_true.mpr fun w hwm => by simp [ho w hwm]
  rw [hs, Bool.true_and]
  split
  · next hk => simp [hmv hk]
  · next hk =>
    cases hf : o.failed
    · simpa using hw hk hf
    · rfl
  · exact hall

/-- A tag clears in a chamber that is not in reset: the chamber's last effects, then registers and posts. -/
theorem tagClear_side {s : State} {ch : Fin 28} {d : TagDone} {o : AsyncOp} (ho : (s.ch ch).ops[d.op.val]? = some o)
    (hc : s.mayClear ch o = true) (hr : (s.ch ch).resetting = false) :
    ∃ t, exec (.tagClear ch d) s = .next t ∧ (s.setCh ch ((s.ch ch).cleared o)).Side t := by
  have hside : (s.setCh ch ((s.ch ch).cleared o)).Side (((s.clearOp ch o).unqueueFailed ch o).upsets ch o.pc o.tag
      (d.upsets.filter fun u => upsetMeets u false o.lastTouched)) :=
    (side_clearOp s ch o).trans ((side_unqueueFailed _ ch o).trans (tame_upsets _ _ _ _).side)
  refine ⟨_, ?_, hside⟩
  have hreset : ∀ t : State, (s.setCh ch ((s.ch ch).cleared o)).Side t → t.resetIfDrained ch = t := fun t ht => by
    have hct := ht.2 ch
    rw [State.ch_setCh, if_pos rfl] at hct
    have : (t.ch ch).resetting = false := (congrArg Chamber.resetting hct).trans hr
    unfold State.resetIfDrained
    rw [if_neg (by simp [this])]
  show execTagClear ch d s = _
  unfold execTagClear
  simp only [ho, hc, if_true, hreset _ hside]

theorem lastWrites_mv {o : AsyncOp} (hk : o.kind = .mv) (m : Memory) (a : Nat) : memByte (o.lastWrites m) a =
    if o.laddr ≤ a ∧ a < o.laddr + o.len then memByte m (o.src + (a - o.laddr)) else memByte m a := by
  unfold AsyncOp.lastWrites
  rw [if_pos hk]
  exact memCopy _ _ _ _ _ _

/-- Settles O27: a tag's end through the chamber that it leaves, and the next pass of a store that overflowed. -/
theorem operationsComplete : Obligations.OperationsComplete := by
  unfold Obligations.OperationsComplete
  intro ch s o
  refine ⟨fun d ho => ⟨fun hs => ?_, fun hs hmv houts hw hr => ?_⟩, fun hn hp => ?_⟩
  · show execTagClear ch d s = _
    unfold execTagClear State.mayClear
    simp [ho, hs]
  · obtain ⟨t, he, hmem, hcore⟩ := tagClear_side ho (mayClear_of_answered hs hmv houts hw) hr
    have hch := hcore ch
    rw [State.ch_setCh, if_pos rfl] at hch
    have hl : (t.ch ch).lmem = o.lastWrites (s.ch ch).lmem := congrArg Chamber.lmem hch
    refine ⟨t, he, congrArg Chamber.ops hch, fun hk a => ?_, fun hk => ?_, by rw [hmem]; rfl, fun m hm => ?_⟩
    · rw [hl, lastWrites_mv hk]
    · rw [hl, AsyncOp.lastWrites, if_neg hk]
    · rw [hcore m, State.ch_setCh, if_neg hm]
  · have he : exec (.storeRerun ch) s = .next ((s.modCh ch fun c => c.setOp { o with
        passEnd := false, pos := 0, k := o.k + 8, ovf := false, rerun := true, flags := Flags.none }).put (Reg.CHn_EXC_RERUN ch) 1) := by
      show execStoreRerun ch s = _
      unfold execStoreRerun
      simp only [hn, hp, if_true]
    refine ⟨_, he, ?_, State.get_put_eq, ((keeps_refl s _).of_fields rfl rfl rfl).put (List.mem_singleton_self _),
      ((only_refl s ch).modCh _).put _ _⟩
    rw [State.ch_put, ch_modCh_eq]
    rfl

end Sys2Proof.Machine
end

section
/-! Halts, wait timeouts and the control register of a chamber (R55, R57 to R61, R96), and from them O29 and O30. -/

namespace Sys2Proof.Machine

open Sys2Proof

/-! ## Halts that are recorded -/

/-- A halt recorded stops issue and leaves the core of every chamber and every register. -/
theorem halt_records (s : State) (n : Nat) (r : HaltRec) :
    (s.halt n r).mayIssue n = false ∧ (∀ m, ((s.halt n r).ch m).core = (s.ch m).core) ∧ (∀ f, (s.halt n r).get f = s.get f) ∧
    ((s.ch n).halt = none → ((s.halt n r).ch n).halt = some r) := by
  have hch : (s.halt n r).ch n = (s.ch n).recordHalt r := ch_modCh_eq
  refine ⟨mayIssue_halted (by rw [hch]; exact recordHalt_some), (tame_halt n r).side.2, fun f => rfl, fun hn => by rw [hch, recordHalt_none hn]⟩

/-! ## The entry into HALT -/

/-- The fields that an entry into HALT writes. -/
def haltFields (n : Nat) (h : HaltRec) : List (FieldRef × Nat) :=
  [(Reg.CHn_HALT_CAUSE n, h.cause), (Reg.CHn_HALT_TAG n, h.tag), (Reg.CHn_HALT_FAULT_PC n, h.faultPc),
   (Reg.CHn_HALT_NEXT_PC n, h.nextPc), (Reg.CHn_HALT_SLOT n, h.slot), (Reg.CHn_STATUS_STATE n, 4)]

/-- The registers and the chamber that an entry into HALT writes first, where no load is lost. -/
def State.haltWritten (s : State) (n : Nat) (h : HaltRec) : State :=
  (s.puts (haltFields n h)).modCh n fun c => { c with halt := none, waitSince := none }

/-- A failure is logged, DONE and STOPPED are not. -/
def State.haltLogged (s : State) (n : Nat) (h : HaltRec) : State :=
  if quietCause h.cause then s.haltWritten n h
  else (s.haltWritten n h).logErr
    (haltEntry h n ((s.haltWritten n h).ch n).item ((s.haltWritten n h).get Reg.TRV_STATE_STAMP) ((s.haltWritten n h).objAt h.addr))

theorem enterHalt_eq {s : State} {n : Nat} {h : HaltRec} (hl : s.loadLost n = false) :
    s.enterHalt n h = if h.cause = 0x09 then (s.haltLogged n h).put (Reg.CHn_STATUS_RETIRE_PENDING n) 1 else s.haltLogged n h := by
  unfold State.enterHalt
  rw [hl]
  rfl

theorem haltLogged_ch (s : State) (n m : Nat) (h : HaltRec) :
    (s.haltLogged n h).ch m = if m = n then { s.ch n with halt := none, waitSince := none } else s.ch m := by
  unfold State.haltLogged
  have hw : (s.haltWritten n h).ch m = if m = n then { s.ch n with halt := none, waitSince := none } else s.ch m := ch_modCh
  split
  · exact hw
  · rw [ch_logErr, hw]

theorem enterHalt_ch {s : State} {n : Nat} {h : HaltRec} (hl : s.loadLost n = false) (m : Nat) :
    (s.enterHalt n h).ch m = if m = n then { s.ch n with halt := none, waitSince := none } else s.ch m := by
  rw [enterHalt_eq hl]
  split
  · exact haltLogged_ch s n m h
  · exact haltLogged_ch s n m h

/-- A register outside the error log that is not RETIRE_PENDING reads as the entry wrote it. -/
theorem enterHalt_get {s : State} {n : Nat} {h : HaltRec} (hl : s.loadLost n = false) {f : FieldRef} (hf : f.key < 0x6800000 * 64)
    (hr : f.key ≠ (Reg.CHn_STATUS_RETIRE_PENDING n).key) : (s.enterHalt n h).get f = (s.haltWritten n h).get f := by
  have hlog : (s.haltLogged n h).get f = (s.haltWritten n h).get f := by
    unfold State.haltLogged
    split
    · rfl
    · exact logErr_get (.inl hf)
  rw [enterHalt_eq hl]
  split
  · exact (State.get_put_ne hr).trans hlog
  · exact hlog

theorem haltWritten_get (s : State) (n : Nat) (h : HaltRec) {f : FieldRef} {v : Nat} (hf : (f, v) ∈ haltFields n h) :
    (s.haltWritten n h).get f = v % 2 ^ f.w := by
  unfold State.haltWritten
  rw [get_modCh]
  refine puts_get (haltFields n h) ?_ s (f, v) hf
  simp [haltFields]
  omega

theorem haltWritten_written (s : State) {n : Nat} (hn : n < 28) (h : HaltRec) :
    (s.haltWritten n h).get Reg.ERR_STATUS_WRITTEN = s.get Reg.ERR_STATUS_WRITTEN := by
  unfold State.haltWritten
  rw [get_modCh]
  refine (keeps_refl s ((haltFields n h).map (·.1))).puts _ (fun e he => List.mem_map_of_mem he) _ ?_
  simp [haltFields]
  omega

theorem quietCause_iff (c : Nat) : quietCause c = true ↔ c = 0x01 ∨ c = 0x0A := by simp [quietCause]

/-- An entry into HALT adds an entry to the error log for a failure alone. -/
theorem enterHalt_written {s : State} {n : Nat} (hn : n < 28) {h : HaltRec} (hl : s.loadLost n = false) :
    (s.enterHalt n h).get Reg.ERR_STATUS_WRITTEN =
      if h.cause = 0x01 ∨ h.cause = 0x0A then s.get Reg.ERR_STATUS_WRITTEN else (s.get Reg.ERR_STATUS_WRITTEN + 1) % 2 ^ 32 := by
  have hlog : (s.haltLogged n h).get Reg.ERR_STATUS_WRITTEN =
      if h.cause = 0x01 ∨ h.cause = 0x0A then s.get Reg.ERR_STATUS_WRITTEN else (s.get Reg.ERR_STATUS_WRITTEN + 1) % 2 ^ 32 := by
    unfold State.haltLogged
    simp only [quietCause_iff]
    split
    · exact haltWritten_written s hn h
    · rw [logErr_written, haltWritten_written s hn h]
  rw [enterHalt_eq hl]
  split
  · rw [State.get_put_ne (by simp; omega), hlog]
  · exact hlog

theorem drained_empty {s : State} {n : Nat} (hl : s.loadLost n = false) (ho : (s.ch n).ops = []) (hm : (s.ch n).mmas = [])
    (ha : (s.ch n).inflightA = []) (hb : (s.ch n).inflightB = []) : s.drained n = true := by
  unfold State.drained State.liveMmas
  simp [hl, ho, hm, ha, hb]

theorem startWaiting_none {s : State} {n : Nat} (h : (s.ch n).startNext = none) : s.startWaiting n = s := by
  unfold State.startWaiting
  rw [h]

/-- A drained chamber that no start waits for enters HALT. -/
theorem chamberHalt_enters {s : State} {ch : Fin 28} {h : HaltRec} (hh : (s.ch ch).halt = some h) (hd : s.drained ch = true)
    (hr : (s.ch ch).resetting = false) (hheld : s.held = false) (hs : (s.ch ch).startNext = none) (hl : s.loadLost ch = false) :
    exec (.chamberHalt ch) s = .next (s.enterHalt ch h) := by
  show execChamberHalt ch s = _
  unfold execChamberHalt
  have hw : ((s.enterHalt ch h).ch ch).startNext = none := by rw [enterHalt_ch hl, if_pos rfl]; exact hs
  simp only [hh, hd, hr, hheld, startWaiting_none hw, Bool.not_false, Bool.and_self, if_true]

/-! ## WAIT_TIMEOUT -/

theorem waitMet_iff (s : State) (w : WaitOn) : s.waitMet w = true ↔ if w.eq then s.sig w.sig = w.value else w.value ≤ s.sig w.sig := by
  unfold State.waitMet
  cases w.eq
  · simp
  · simp

/-- A wait that its limit ends, with no halt recorded, records WAIT_TIMEOUT; any other stays as it is. -/
theorem waitTimeout_eq {s : State} {ch : Fin 28} {w : WaitOn} (hw : (s.ch ch).waitSince = some w) (hst : s.chState ch = 3) (hheld : s.held = false) :
    exec (.waitTimeout ch) s = .next (if s.get (Reg.CHn_WAIT_LIMIT_LIMIT_US ch) ≠ 0 ∧
        s.get (Reg.CHn_WAIT_LIMIT_LIMIT_US ch) * 1700 ≤ s.cycle - w.since ∧ s.waitMet w = false ∧ (s.ch ch).resetting = false ∧
        (s.ch ch).halt = none then
      s.halt ch ⟨0x06, s.chPc ch, s.chPc ch, 0, 0, 3, 0, 0, 0, 0⟩ else s) := by
  show execWaitTimeout ch s = _
  unfold execWaitTimeout
  simp only [hw, hst, hheld, Bool.not_eq_true', true_and, Bool.not_false]

/-- Settles O30. -/
theorem chamberHalts : Obligations.ChamberHalts := by
  unfold Obligations.ChamberHalts
  intro ch s hrun
  refine ⟨fun h hh hr hs hl => ⟨fun ho hm ha hb => ?_, fun ho => ?_⟩, fun w limit hw hst hlim => ?_⟩
  · have hn := ch.isLt
    have hg : ∀ {f : FieldRef} {v : Nat}, (f, v) ∈ haltFields ch h → f.key < 0x6800000 * 64 → f.key ≠ (Reg.CHn_STATUS_RETIRE_PENDING ch).key →
        (s.enterHalt ch h).get f = v % 2 ^ f.w := fun hf hk hne => (enterHalt_get hl hk hne).trans (haltWritten_get s ch h hf)
    have hch := enterHalt_ch (h := h) hl
    refine ⟨_, chamberHalt_enters hh (drained_empty hl ho hm ha hb) hr hrun.2 hs hl, ?_, ?_, ?_, ?_, ?_, ?_, ?_, enterHalt_written hn hl,
      fun h9 => ?_, fun m => ?_, ?_, ?_⟩
    · exact hg (f := Reg.CHn_STATUS_STATE ch) (v := 4) (by simp [haltFields]) (by simp; omega) (by simp)
    · rw [hch, if_pos rfl]
    · exact hg (f := Reg.CHn_HALT_CAUSE ch) (by simp [haltFields]) (by simp; omega) (by simp; omega)
    · exact hg (f := Reg.CHn_HALT_FAULT_PC ch) (by simp [haltFields]) (by simp; omega) (by simp; omega)
    · exact hg (f := Reg.CHn_HALT_NEXT_PC ch) (by simp [haltFields]) (by simp; omega) (by simp; omega)
    · exact hg (f := Reg.CHn_HALT_TAG ch) (by simp [haltFields]) (by simp; omega) (by simp; omega)
    · exact hg (f := Reg.CHn_HALT_SLOT ch) (by simp [haltFields]) (by simp; omega) (by simp; omega)
    · rw [enterHalt_eq hl, if_pos h9, State.get_put_eq]
      rfl
    · by_cases hm : m = ch.val
      · exact .inr hm
      · exact .inl (by rw [hch, if_neg hm])
    · rw [hch, if_pos rfl]
    · rw [hch, if_pos rfl]
  · show execChamberHalt ch s = _
    unfold execChamberHalt State.drained
    simp [hh, ho]
  · subst hlim
    have he := waitTimeout_eq hw hst hrun.2
    refine ⟨fun hno => ?_, fun h0 hlim hmet hh hr => ?_⟩
    · rw [he, if_neg]
      rintro ⟨h0, hlim, hmet, -, hh⟩
      have hnot : ¬(s.waitMet w = true) := by simp [hmet]
      rw [waitMet_iff] at hnot
      rcases hno with h | h | h | h
      · exact h0 h
      · omega
      · exact hnot h
      · exact h hh
    · have hmet' : s.waitMet w = false := by
        rw [← waitMet_iff] at hmet
        simpa using hmet
      rw [if_pos ⟨h0, hlim, hmet', hr, hh⟩] at he
      obtain ⟨h1, h2, h3, h4⟩ := halt_records s ch ⟨0x06, s.chPc ch, s.chPc ch, 0, 0, 3, 0, 0, 0, 0⟩
      exact ⟨_, he, h1, h2, h3, _, h4 hh, rfl, rfl, rfl⟩

/-! ## The control register -/

/-- A write to CHn_CTL that nothing refuses stores START_PC, then its bits act. -/
theorem ctlArrives_takes {s : State} {n agent pc : Nat} {reset stop start : Bool} {args : Option (List Word)} (h : s.InRun)
    (hrec : s.flag Reg.SEC_BOOT_RECOVERY = false) (hst : s.chState n ≠ 0) (ha : agent = 0 → s.stepRuns = false) :
    s.ctlArrives n agent pc false reset stop start args =
      match args with
      | some a => (s.put (Reg.CHn_CTL_START_PC n) pc).ctlBits n pc reset stop start a
      | none =>
        if start then ((s.put (Reg.CHn_CTL_START_PC n) pc).freeArgs.2).ctlBits n pc reset stop start (s.put (Reg.CHn_CTL_START_PC n) pc).freeArgs.1
        else (s.put (Reg.CHn_CTL_START_PC n) pc).ctlBits n pc reset stop start [] := by
  have hno : ¬(agent = 0 ∧ s.stepRuns = true) := fun hh => by simp [ha hh.1] at hh
  unfold State.ctlArrives
  rw [if_neg hno, if_neg hst, hrec, h.2, if_neg (by decide), if_neg (by decide)]
  unfold State.writeCtl
  rw [wake_run h]
  dsimp only
  rw [if_neg hst]
  simp only [Bool.false_and, Bool.false_eq_true, if_false]
  cases args with
  | some a => rfl
  | none =>
    cases start
    · rfl
    · rfl

theorem agent_host {s : State} {host : Bool} (hstep : host = true → s.stepRuns = false) (h : (if host = true then 0 else 3) = 0) :
    s.stepRuns = false := by
  cases host
  · cases h
  · exact hstep rfl

/-- START_PC stored, and free words taken for the arguments that a write does not carry. -/
def State.startStored (s : State) (n pc k : Nat) : State := { s.put (Reg.CHn_CTL_START_PC n) pc with freeCount := k }

/-- A start in Run acts on START_PC stored, with the item's words as arguments, or free ones. -/
theorem chamberStart_eq {s : State} {ch : Fin 28} {host : Bool} (pc : BitVec 12) (args : List Word) (h : s.InRun)
    (hrec : s.flag Reg.SEC_BOOT_RECOVERY = false) (hst : s.chState ch ≠ 0) (hstep : host = true → s.stepRuns = false) :
    ∃ (k : Nat) (a : List Word), (host = false → a = args) ∧ exec (.chamberStart ch host pc args) s =
      .next ((s.startStored ch pc.toNat k).startBit ch pc.toNat a) := by
  have he : exec (.chamberStart ch host pc args) s = .next (s.ctlArrives ch.val (if host then 0 else 3) pc.toNat false false false true
      (if host then none else some args)) := rfl
  rw [he, ctlArrives_takes h hrec hst (agent_host hstep)]
  cases host
  · exact ⟨_, args, fun _ => rfl, rfl⟩
  · exact ⟨s.freeCount + 8, (s.put (Reg.CHn_CTL_START_PC ch) pc.toNat).freeArgs.1, (nomatch ·), rfl⟩

theorem putArgs_getD (r : Vector Word 32) (args : List Word) (i : Nat) (hi : i < 32) :
    (putArgs r args).toList.getD i 0 = if 1 ≤ i ∧ i ≤ 8 then args.getD (i - 1) 0 else r.toList.getD i 0 := by
  have hl : i < r.toList.length := by simpa using hi
  have hp : (putArgs r args).toList = r.toList.zipIdx.map fun (x, i) => if 1 ≤ i ∧ i ≤ 8 then args.getD (i - 1) 0 else x := rfl
  rw [hp, List.getD_eq_getElem?_getD, List.getElem?_map, List.getElem?_zipIdx, List.getElem?_eq_getElem hl]
  simp [show i < 32 from hi]

/-- What a start leaves: PC, state and the arguments loaded, and the rest of the chamber. -/
theorem startAt_does (s : State) (n pc : Nat) (a : List Word) (hpc : pc < 2 ^ 12) :
    (s.startAt n pc a).chState n = 2 ∧ (s.startAt n pc a).chPc n = pc ∧ (s.startAt n pc a).get (Reg.CHn_CTL_START_PC n) = pc ∧
    (s.startAt n pc a).ch n = { s.ch n with
      preds := 0, sregs := putArgs (s.ch n).sregs a, startNext := none, halt := none, waitSince := none } := by
  have hg : ∀ e ∈ [(Reg.CHn_CTL_START_PC n, pc), (Reg.CHn_STATUS_PC n, pc), (Reg.CHn_STATUS_STATE n, 2)],
      (s.startAt n pc a).get e.1 = e.2 % 2 ^ e.1.w := puts_get _ (by simp; omega) _
  refine ⟨hg (Reg.CHn_STATUS_STATE n, 2) (by simp), ?_, ?_, ?_⟩
  · exact (hg (Reg.CHn_STATUS_PC n, pc) (by simp)).trans (Nat.mod_eq_of_lt hpc)
  · exact (hg (Reg.CHn_CTL_START_PC n, pc) (by simp)).trans (Nat.mod_eq_of_lt hpc)
  · unfold State.startAt
    simp only [State.puts_cons, State.puts_nil, State.ch_put]
    exact ch_modCh_eq

/-- A stop or a reset in Run acts on START_PC stored. -/
theorem chamberStop_eq {s : State} {ch : Fin 28} {host : Bool} (h : s.InRun)
    (hrec : s.flag Reg.SEC_BOOT_RECOVERY = false) (hst : s.chState ch ≠ 0) (hstep : host = true → s.stepRuns = false) :
    exec (.chamberStop ch host) s = .next ((s.put (Reg.CHn_CTL_START_PC ch) (s.get (Reg.CHn_CTL_START_PC ch))).ctlBits ch
      (s.get (Reg.CHn_CTL_START_PC ch)) false true false []) :=
  congrArg Host.Outcome.next (ctlArrives_takes h hrec hst (agent_host hstep))

theorem chamberReset_eq {s : State} {ch : Fin 28} {host : Bool} (h : s.InRun)
    (hrec : s.flag Reg.SEC_BOOT_RECOVERY = false) (hst : s.chState ch ≠ 0) (hstep : host = true → s.stepRuns = false) :
    exec (.chamberReset ch host) s = .next ((s.put (Reg.CHn_CTL_START_PC ch) (s.get (Reg.CHn_CTL_START_PC ch))).ctlBits ch
      (s.get (Reg.CHn_CTL_START_PC ch)) true false false []) :=
  congrArg Host.Outcome.next (ctlArrives_takes h hrec hst (agent_host hstep))

/-- START_PC is no state or PC of a chamber. -/
theorem putStart_get {s : State} {n pc : Nat} {f : FieldRef} (hf : f.key ≠ (Reg.CHn_CTL_START_PC n).key) :
    (s.put (Reg.CHn_CTL_START_PC n) pc).get f = s.get f := State.get_put_ne hf

theorem putStart_chState (s : State) (n pc : Nat) : (s.put (Reg.CHn_CTL_START_PC n) pc).chState n = s.chState n :=
  putStart_get (by simp; omega)

theorem putStart_chPc (s : State) (n pc : Nat) : (s.put (Reg.CHn_CTL_START_PC n) pc).chPc n = s.chPc n :=
  putStart_get (by simp; omega)

theorem startStored_get {s : State} {n pc k : Nat} {f : FieldRef} (hf : f.key ≠ (Reg.CHn_CTL_START_PC n).key) :
    (s.startStored n pc k).get f = s.get f := putStart_get hf

theorem startStored_chState (s : State) (n pc k : Nat) : (s.startStored n pc k).chState n = s.chState n := putStart_chState s n pc

theorem startStored_chPc (s : State) (n pc k : Nat) : (s.startStored n pc k).chPc n = s.chPc n := putStart_chPc s n pc

theorem startStored_ch (s : State) (n pc k m : Nat) : (s.startStored n pc k).ch m = s.ch m := rfl

theorem dropCoder_ch (s : State) (n m : Nat) :
    (s.dropCoder n).ch m = if m = n then { s.ch n with tableLoad := none, codeJob := none } else s.ch m := by
  show (s.modCh n fun c => { c with tableLoad := none, codeJob := none }).ch m = _
  exact ch_modCh

theorem resetRange_ch (s : State) (k : ResetKind) (lo hi m : Nat) : (s.resetRange k lo hi).ch m = s.ch m := rfl

theorem resetting_reset : Chamber.reset.resetting = false := rfl

theorem finishReset_ch (s : State) (n m : Nat) :
    (s.finishReset n).ch m = if m = n then { Chamber.reset with
      bmem := (s.ch n).bmem, lmem := (s.ch n).lmem, errCount := (s.ch n).errCount, cycBase := s.aclk, startNext := (s.ch n).startNext
      prog := (s.ch n).prog } else s.ch m := by
  unfold State.finishReset
  rw [State.ch_put, resetRange_ch, State.ch_setCh]

/-- What a reset does before its operations are complete. -/
def State.resetBegun (s : State) (n : Nat) : State :=
  ((s.modCh n fun c => { c with startNext := none }).modCh n fun c =>
    { c with resetting := true, mmas := [], inflightA := [], inflightB := [], waitSince := none }).dropCoder n

theorem resetBegun_ch (s : State) (n m : Nat) : (s.resetBegun n).ch m =
    if m = n then { s.ch n with startNext := none, resetting := true, mmas := [], inflightA := [], inflightB := [], waitSince := none
                                tableLoad := none, codeJob := none } else s.ch m := by
  unfold State.resetBegun
  rw [dropCoder_ch, ch_modCh, ch_modCh, if_pos rfl, ch_modCh, if_pos rfl]
  split
  · rfl
  · next hm => rw [ch_modCh, if_neg hm]

/-- A reset that asks for no start begins; with no operation outstanding it ends at once. -/
theorem ctlBits_reset {s : State} {n pc : Nat} :
    s.ctlBits n pc true false false [] = if (s.ch n).ops = [] then (s.resetBegun n).finishReset n else s.resetBegun n := by
  have hb : (s.modCh n fun c => { c with startNext := none }).beginReset n =
      if (s.ch n).ops = [] then (s.resetBegun n).finishReset n else s.resetBegun n := by
    have ho : ((s.resetBegun n).ch n).ops = (s.ch n).ops := by rw [resetBegun_ch, if_pos rfl]
    rw [← ho]
    rfl
  unfold State.ctlBits
  simp only [if_true, Bool.false_eq_true, if_false, hb]
  split
  · have hc := finishReset_ch (s.resetBegun n) n n
    rw [if_pos rfl] at hc
    have hr : (((s.resetBegun n).finishReset n).ch n).resetting = false := (congrArg Chamber.resetting hc).trans resetting_reset
    rw [if_neg (by rw [hr]; decide), startWaiting_none]
    rw [hc, resetBegun_ch, if_pos rfl]
  · rw [if_pos (by rw [resetBegun_ch, if_pos rfl])]

/-- Where the register layout puts CHn_STATUS. -/
theorem regAt_status (n : Nat) (hn : n < 28) : regAt (0x1000008 + 0x100000 * n) =
    some ⟨0x1000008, [(0x100000, 28)], [⟨32, 5, .ro, .fuse, keptHEPKT⟩, ⟨28, 1, .ro, .value 0, keptHEPKT⟩, ⟨16, 12, .ro, .value 0, keptHPKT⟩,
      ⟨0, 3, .ro, .value 1, keptHPKT⟩]⟩ := by
  unfold regAt regLayout
  have h1 := @layout_none regs01_0 (0x1000008 + 0x100000 * n) (by simp [regs01_0, dimsMatch]; omega)
  simp only [List.append_assoc]
  rw [List.find?_append, h1]
  simp only [Option.none_or, regs02_0, List.cons_append]
  rw [List.find?_cons_of_neg, List.find?_cons_of_pos]
  · simp [dimsMatch]; omega
  · simp [dimsMatch]; omega

theorem fieldOfKey_pc (n : Nat) (hn : n < 28) : fieldOfKey (Reg.CHn_STATUS_PC n).key = some ⟨16, 12, .ro, .value 0, keptHPKT⟩ := by
  have h1 : (Reg.CHn_STATUS_PC n).key / 64 = 0x1000008 + 0x100000 * n := by simp; omega
  have h2 : (Reg.CHn_STATUS_PC n).key % 64 = 16 := by simp
  unfold fieldOfKey
  rw [h1, h2, regAt_status n hn]
  rfl

theorem resetOf_resetRange (s : State) (k : ResetKind) (lo hi key : Nat) : (s.resetRange k lo hi).resetOf key = s.resetOf key := rfl

theorem resetOf_setCh (s : State) (n : Nat) (c : Chamber) (key : Nat) : (s.setCh n c).resetOf key = s.resetOf key := rfl

/-- A reset of the chamber's block returns its PC to the reset value. -/
theorem finishReset_pc (s : State) {n : Nat} (hn : n < 28) : (s.finishReset n).chPc n = s.resetOf (Reg.CHn_STATUS_PC n).key := by
  have hoff : (Reg.CHn_STATUS_PC n).key / 64 = chBlock n + 8 := by simp [chBlock]; omega
  have hfind : ∀ t : State, mapFind (t.resetRange .chamber (chBlock n) (chBlock n + 0x100000)).fields (Reg.CHn_STATUS_PC n).key = none := by
    intro t
    unfold State.resetRange
    refine (mapFind_filter t.fields (fun k => decide (k / 64 < chBlock n) || decide (chBlock n + 0x100000 ≤ k / 64) ||
      (match fieldOfKey k with
        | some d => d.keeps .chamber
        | none => true)) _).trans (if_neg ?_)
    rw [hoff, fieldOfKey_pc n hn]
    simp [FieldDesc.keeps, keptHPKT]
  unfold State.finishReset State.chPc
  rw [State.get_put_ne (by simp), State.get, hfind, Option.getD_none, resetOf_resetRange, resetOf_setCh]

theorem finishReset_state (s : State) (n : Nat) : (s.finishReset n).chState n = 1 := State.get_put_eq

/-! ## START, STOP and RESET -/

theorem sreg_outside (r : Vector Word 32) (a : List Word) {i : BitVec 5} (h : i.toNat = 0 ∨ 8 < i.toNat) :
    (putArgs r a).toList.getD i.toNat 0 = r.toList.getD i.toNat 0 := by
  rw [putArgs_getD r a _ i.isLt, if_neg (by omega)]

theorem pred_cleared (p : BitVec 3) : (p == 0 || (0 : BitVec 8).getLsbD p.toNat) = (p == 0) := by simp

theorem startBit_idle {s : State} {n pc : Nat} (a : List Word) (h : s.chState n = 1 ∨ s.chState n = 4) : s.startBit n pc a = s.startAt n pc a :=
  if_pos h

theorem startBit_busy {s : State} {n pc : Nat} (a : List Word) (h : s.chState n = 2 ∨ s.chState n = 3) : s.startBit n pc a = s.violCh n 0 0 :=
  if_neg (by omega)

theorem stops_running {s : State} {n : Nat} (h : s.chState n = 2 ∨ s.chState n = 3) (hr : (s.ch n).resetting = false) : s.stops n true = true := by
  unfold State.stops
  rcases h with h | h
  · simp [h, hr]
  · simp [h, hr]

/-- STOP of a running chamber records STOPPED and asks for no start. -/
theorem ctlBits_stop {s : State} {n pc : Nat} (h : s.chState n = 2 ∨ s.chState n = 3) (hr : (s.ch n).resetting = false) :
    (∀ m, (s.ctlBits n pc false true false []).ch m = (s.halt n ⟨0x0A, s.chPc n, s.chPc n, 0, 0, 3, 0, 0, 0, 0⟩).ch m) ∧
    ∀ f, (s.ctlBits n pc false true false []).get f = s.get f := by
  have hb : s.stopBit n = s.halt n ⟨0x0A, s.chPc n, s.chPc n, 0, 0, 3, 0, 0, 0, 0⟩ := if_pos ⟨h, by rw [hr]; rfl⟩
  unfold State.ctlBits
  simp only [Bool.false_eq_true, if_false, stops_running h hr, if_true, hb]
  refine ⟨fun m => ?_, fun f => rfl⟩
  rw [ch_modCh]
  split
  · next hm => rw [hm]
  · rfl

/-- STOP of a chamber that is not running changes nothing. -/
theorem ctlBits_stop_idle {s : State} {n pc : Nat} (h : s.chState n = 1 ∨ s.chState n = 4) :
    s.ctlBits n pc false true false [] = s := by
  have hs : s.stops n true = false := by
    unfold State.stops
    rcases h with h | h
    · simp [h]
    · simp [h]
  unfold State.ctlBits
  simp only [Bool.false_eq_true, if_false, hs]

/-- A start in RUN or WAIT is counted and leaves the chamber as it runs. -/
theorem violCh_counts (s : State) (n : Nat) :
    (s.violCh n 0 0).chState n = s.chState n ∧ (s.violCh n 0 0).chPc n = s.chPc n ∧
    (s.violCh n 0 0).get (Reg.CHn_VIOL_COUNT_COUNT n) = min (s.get (Reg.CHn_VIOL_COUNT_COUNT n) + 1) (2 ^ 32 - 1) := by
  have hk : s.KeepsFields (s.violCh n 0 0) (violFields n) := (keeps_refl s _).violCh fun f hf => hf
  have hc := counts_violCh s n 0 0 (Nat.two_pow_pos _)
  refine ⟨hk _ ?_, hk _ ?_, hc.1⟩
  · simp [violFields]; omega
  · simp [violFields]; omega

/-- Settles O29: each write of CHn_CTL through the bit that acts. -/
theorem chamberControl : Obligations.ChamberControl := by
  unfold Obligations.ChamberControl
  intro ch host s hrun hrec hstep hst
  refine ⟨fun pc args h => ?_, fun pc args h => ?_, fun h hr => ?_, fun h => ?_, fun ho => ?_, fun ho => ?_⟩
  · obtain ⟨k, a, ha, he⟩ := chamberStart_eq pc args hrun hrec hst hstep
    rw [startBit_idle a (by rwa [startStored_chState])] at he
    obtain ⟨h1, h2, h3, h4⟩ := startAt_does (s.startStored ch pc.toNat k) ch pc.toNat a pc.isLt
    rw [startStored_ch] at h4
    refine ⟨_, he, h1, h2, h3, ?_, ?_, ?_, ?_, ?_, ?_, ?_, ?_, ?_, ?_, rfl⟩
    · rw [h4]
    · rw [h4]; exact pred_cleared
    · intro hh r hr1 hr8
      rw [h4, ha hh]
      exact (putArgs_getD _ _ _ r.isLt).trans (if_pos ⟨hr1, hr8⟩)
    · intro r hr
      rw [h4]
      exact sreg_outside _ _ hr
    all_goals rw [h4]
  · obtain ⟨k, a, -, he⟩ := chamberStart_eq pc args hrun hrec hst hstep
    rw [startBit_busy a (by rwa [startStored_chState])] at he
    obtain ⟨h1, h2, h3⟩ := violCh_counts (s.startStored ch pc.toNat k) ch
    rw [startStored_chState] at h1
    rw [startStored_chPc] at h2
    rw [startStored_get (by simp; omega)] at h3
    exact ⟨_, he, h1, h2, fun m => ch_violCh, h3⟩
  · have he := chamberStop_eq hrun hrec hst hstep
    obtain ⟨hch, hget⟩ := ctlBits_stop (s := s.put (Reg.CHn_CTL_START_PC ch) (s.get (Reg.CHn_CTL_START_PC ch)))
      (pc := s.get (Reg.CHn_CTL_START_PC ch)) (by rwa [putStart_chState]) hr
    rw [putStart_chPc] at hch
    obtain ⟨-, h2, -, h4⟩ := halt_records (s.put (Reg.CHn_CTL_START_PC ch) (s.get (Reg.CHn_CTL_START_PC ch))) ch
      ⟨0x0A, s.chPc ch, s.chPc ch, 0, 0, 3, 0, 0, 0, 0⟩
    refine ⟨_, he, mayIssue_halted ?_, fun m => ?_, fun f => ?_, fun hh =>
      ⟨_, (congrArg Chamber.halt (hch ch)).trans (h4 hh), rfl, rfl, rfl⟩⟩
    · rw [hch]
      exact (congrArg (fun c : Chamber => c.halt.isSome) ch_modCh_eq).trans recordHalt_some
    · rw [hch]
      exact h2 m
    · rw [hget]
      by_cases hf : f.key = (Reg.CHn_CTL_START_PC ch).key
      · exact .inr hf
      · exact .inl (putStart_get hf)
  · have he := chamberStop_eq hrun hrec hst hstep
    rw [ctlBits_stop_idle (by rwa [putStart_chState])] at he
    exact ⟨_, he, fun m => rfl, putStart_chState s ch _⟩
  · have he := chamberReset_eq hrun hrec hst hstep
    rw [ctlBits_reset, State.ch_put, if_pos ho] at he
    refine ⟨_, he, finishReset_state _ _, finishReset_pc _ ch.isLt, ?_, fun m hm => ?_, rfl⟩
    · rw [finishReset_ch, if_pos rfl, resetBegun_ch, if_pos rfl]
      rfl
    · rw [finishReset_ch, if_neg hm, resetBegun_ch, if_neg hm]
      rfl
  · have he := chamberReset_eq hrun hrec hst hstep
    rw [ctlBits_reset, State.ch_put, if_neg ho] at he
    have hch := resetBegun_ch (s.put (Reg.CHn_CTL_START_PC ch) (s.get (Reg.CHn_CTL_START_PC ch))) ch ch
    rw [if_pos rfl] at hch
    refine ⟨_, he, ?_, ?_, ?_, ?_, ?_, ?_, ?_⟩
    · unfold State.mayIssue
      rw [hch]
      simp
    all_goals rw [hch]
    all_goals rfl

end Sys2Proof.Machine
end

section
/-! Retirement of a chamber (R67, R68, R70, R71): fuses, candidates and the replacement, and from them O33. -/

namespace Sys2Proof.Machine

open Sys2Proof

/-! ## Fuses -/

/-- A blown field reads as blown, every other field as before. -/
theorem blow_get (s : State) (f g : FieldRef) (v : Nat) : (s.blow f v).get g = if g.key = f.key then v % 2 ^ f.w else s.get g := by
  have hget : ∀ t : Map Nat, State.get { s.put f v with straps := t } g =
      (mapFind (mapInsert s.fields f.key (v % 2 ^ f.w)) g.key).getD ((mapFind s.image g.key).getD (mapGet 0 t g.key)) := fun _ => rfl
  unfold State.blow
  rw [hget, mapFind_insert]
  by_cases h : g.key = f.key
  · rw [if_pos h, if_pos h]
    rfl
  · rw [if_neg h, if_neg h, mapGet_set, if_neg h]
    rfl

theorem blow_ch (s : State) (f : FieldRef) (v m : Nat) : (s.blow f v).ch m = s.ch m := rfl

/-- A blown fuse changes fields and straps alone. -/
theorem blow_eq (s : State) (f : FieldRef) (v : Nat) : s.blow f v = { s with fields := (s.blow f v).fields, straps := (s.blow f v).straps } := rfl

theorem bit_withBit (x n m : Nat) : bit (withBit x n) m = (decide (m = n) || bit x m) := by
  unfold withBit
  cases h : bit x n
  · rw [if_neg (by decide)]
    exact bit_add_two_pow (by have : x / 2 ^ n % 2 ≠ 1 := by simpa [bit] using h
                              omega) m
  · rw [if_pos rfl]
    by_cases hm : m = n
    · rw [hm, h]; simp
    · simp [hm]

theorem bit_withoutBit (x n m : Nat) : bit (withoutBit x n) m = (decide (m ≠ n) && bit x m) := by
  unfold withoutBit
  cases h : bit x n
  · rw [if_neg (by decide)]
    by_cases hm : m = n
    · rw [hm, h]; simp
    · simp [hm]
  · rw [if_pos rfl]
    exact bit_sub_two_pow (by simpa [bit] using h) m

/-- The chamber maps and states that chambers of a list retired leave, and nothing else. -/
def State.Fused (s t : State) (l : List Nat) : Prop :=
  (∀ m < 28, bit (t.get Reg.GLB_CHMAP_ENABLED) m = (decide (m ∉ l) && bit (s.get Reg.GLB_CHMAP_ENABLED) m)) ∧
  (∀ m < 28, bit (t.get Reg.GLB_CHMAP_RETIRED) m = (decide (m ∈ l) || bit (s.get Reg.GLB_CHMAP_RETIRED) m)) ∧
  s.KeepsFields t (Reg.GLB_CHMAP_ENABLED :: Reg.GLB_CHMAP_RETIRED :: l.map Reg.CHn_STATUS_STATE) ∧
  t = { s with fields := t.fields, straps := t.straps }

theorem fused_fuseRetired (s : State) (n : Nat) : s.Fused (s.fuseRetired n) [n] := by
  unfold State.fuseRetired
  refine ⟨fun m hm => ?_, fun m hm => ?_, fun f hf => ?_, rfl⟩
  · rw [blow_get, if_neg (by simp), blow_get, if_pos rfl, bit_mod (by simpa using hm), bit_withoutBit]
    simp
  · rw [blow_get, if_pos rfl, bit_mod (by simpa using hm), bit_withBit]
    simp
  · simp only [List.map_cons, List.map_nil, List.mem_cons, List.not_mem_nil, or_false, not_or] at hf
    obtain ⟨h1, h2, h3⟩ := hf
    rw [blow_get, if_neg h2, blow_get, if_neg h1, blow_get, if_neg h3]

theorem fused_nil (s : State) : s.Fused s [] := ⟨by simp, by simp, fun _ _ => rfl, rfl⟩

theorem State.Fused.append {s t u : State} {k l : List Nat} (h : s.Fused t k) (g : t.Fused u l) : s.Fused u (k ++ l) := by
  obtain ⟨h1, h2, h3, h4⟩ := h
  obtain ⟨g1, g2, g3, g4⟩ := g
  refine ⟨fun m hm => ?_, fun m hm => ?_, ?_, ?_⟩
  · rw [g1 m hm, h1 m hm]
    simp only [List.mem_append, not_or, Bool.decide_and]
    cases decide (m ∉ k) <;> cases decide (m ∉ l) <;> rfl
  · rw [g2 m hm, h2 m hm]
    simp only [List.mem_append, Bool.decide_or]
    cases decide (m ∈ k) <;> cases decide (m ∈ l) <;> rfl
  · refine State.KeepsFields.trans (h3.mono ?_) (g3.mono ?_)
    · simp +contextual
    · simp +contextual
  · rw [g4]
    conv_lhs => rw [h4]

theorem fused_foldl (l : List Nat) : ∀ s : State, s.Fused (l.foldl State.fuseRetired s) l := by
  induction l with
  | nil => exact fused_nil
  | cons n l ih => exact fun s => (fused_fuseRetired s n).append (ih _)

/-! ## The error log -/

theorem logged_foldl (l : List Nat) : ∀ s : State, s.Logged (l.foldl State.logRetired s) := by
  induction l with
  | nil => exact logged_refl
  | cons n l ih => exact fun s => (logged_logErr s _).trans (ih _)

theorem State.Logged.ch {s t : State} (h : s.Logged t) (m : Nat) : t.ch m = s.ch m := by
  rw [h]
  rfl

theorem logRetired_cons (l : List Nat) (n : Nat) (s : State) :
    l.foldl State.logRetired (s.logRetired n) = (n :: l).foldl State.logRetired s := rfl

theorem logRetired_get (l : List Nat) {f : FieldRef} (hf : f.key < 0x6800000 * 64) : ∀ s : State, (l.foldl State.logRetired s).get f = s.get f := by
  induction l with
  | nil => exact fun _ => rfl
  | cons n l ih => exact fun s => (ih _).trans (logErr_get (.inl hf))

/-! ## Candidates -/

/-- Where every candidate fails its test none is found. -/
theorem testCandidates_none {failed : BitVec 28} {l : List Nat} (h : ∀ q ∈ l, ¬failed.getLsbD q = false) : testCandidates failed l = (l, none) := by
  induction l with
  | nil => rfl
  | cons q l ih =>
    have hq : bit failed.toNat q = true := by rw [bit_bv]; simpa using h q (by simp)
    unfold testCandidates
    rw [if_pos hq, ih fun r hr => h r (by simp [hr])]

/-- The first candidate that passes is found, behind those that failed. -/
theorem testCandidates_some {failed : BitVec 28} {l k : List Nat} {p : Nat} (h : ∀ q ∈ l, ¬failed.getLsbD q = false) (hp : failed.getLsbD p = false) :
    testCandidates failed (l ++ p :: k) = (l, some p) := by
  induction l with
  | nil =>
    rw [List.nil_append]
    unfold testCandidates
    rw [bit_bv, hp]
    rfl
  | cons q l ih =>
    have hq : bit failed.toNat q = true := by rw [bit_bv]; simpa using h q (by simp)
    rw [List.cons_append]
    unfold testCandidates
    rw [if_pos hq, ih fun r hr => h r (by simp [hr])]

/-- The numbers below 28 with a property, up to one of them and from it on. -/
theorem filter_range_split (f : Nat → Bool) {p : Nat} (hp : p < 28) (hf : f p = true) :
    ∃ k, (List.range 28).filter f = (List.range p).filter f ++ p :: k := by
  obtain ⟨d, hd⟩ : ∃ d, 28 = p + (d + 1) := ⟨27 - p, by omega⟩
  rw [hd, List.range_add, List.filter_append, List.range_succ_eq_map, List.map_cons, Nat.add_zero, List.filter_cons_of_pos hf]
  exact ⟨_, rfl⟩

theorem spares_mem {s : State} {q : Nat} : q ∈ s.spares ↔ s.Spare q := by
  unfold State.spares State.Spare
  simp

theorem gated_mem {s : State} {n q : Nat} : q ∈ s.gated n ↔ q < 28 ∧ q ≠ n ∧ bit (s.get Reg.GLB_CHMAP_ENABLED) q = true := by
  unfold State.gated
  simp
  tauto

/-! ## The replacement -/

/-- A field outside the range reset reads as before. -/
theorem resetRange_get (s : State) (k : ResetKind) {lo hi : Nat} {f : FieldRef} (hf : f.key / 64 < lo ∨ hi ≤ f.key / 64) :
    (s.resetRange k lo hi).get f = s.get f := by
  have hfind : mapFind (s.resetRange k lo hi).fields f.key = mapFind s.fields f.key := by
    unfold State.resetRange
    refine (mapFind_filter s.fields (fun x => decide (x / 64 < lo) || decide (hi ≤ x / 64) ||
      (match fieldOfKey x with
        | some d => d.keeps k
        | none => true)) _).trans (if_pos ?_)
    rcases hf with h | h
    · simp [h]
    · simp [h]
  unfold State.get
  rw [hfind, resetOf_resetRange]

/-- Fields put at keys of a list: every other field reads as before. -/
theorem insert_foldl_get (l : List (Nat × Nat)) (f : FieldRef) (hf : ∀ e ∈ l, f.key ≠ e.1) : ∀ s : State,
    (l.foldl (fun s e => { s with fields := mapInsert s.fields e.1 e.2 }) s).get f = s.get f := by
  induction l with
  | nil => exact fun _ => rfl
  | cons e l ih =>
    intro s
    refine (ih (fun x hx => hf x (List.mem_cons_of_mem _ hx)) _).trans ?_
    show (mapFind (mapInsert s.fields e.1 e.2) f.key).getD _ = _
    rw [mapFind_insert, if_neg (hf e (by simp))]
    rfl

/-- Fields put at keys of a list: nothing but fields differs. -/
theorem insert_foldl_moved (l : List (Nat × Nat)) : ∀ s : State,
    (l.foldl (fun s e => { s with fields := mapInsert s.fields e.1 e.2 }) s) =
      { s with fields := (l.foldl (fun s e => { s with fields := mapInsert s.fields e.1 e.2 }) s).fields } := by
  induction l with
  | nil => exact fun _ => rfl
  | cons e l ih => exact fun s => ih { s with fields := mapInsert s.fields e.1 e.2 }

theorem copyRegions_eq (s : State) (n p : Nat) : s.copyRegions n p = { s with fields := (s.copyRegions n p).fields } := insert_foldl_moved _ s

/-- A field outside the region table of the chamber that takes the place reads as before. -/
theorem copyRegions_get (s : State) (n p : Nat) {f : FieldRef}
    (hf : f.key < (chBlock p + 0x1000) * 64 ∨ (chBlock p + 0x2000) * 64 ≤ f.key) : (s.copyRegions n p).get f = s.get f := by
  refine insert_foldl_get _ f (fun e he => ?_) s
  obtain ⟨x, hx, rfl⟩ := List.mem_map.mp he
  have hb := (List.mem_filter.mp hx).2
  simp only [Bool.and_eq_true, decide_eq_true_eq] at hb
  omega

/-- Only fields, chambers, straps and MSI-X raises differ. -/
def State.Moved (s t : State) : Prop := t = { s with fields := t.fields, chambers := t.chambers, straps := t.straps, irq := t.irq }

theorem State.Moved.trans {s t u : State} (h : s.Moved t) (k : t.Moved u) : s.Moved u := by
  unfold State.Moved at *
  rw [k]
  conv_lhs => rw [h]

theorem moved_put (s : State) (f : FieldRef) (v : Nat) : s.Moved (s.put f v) := rfl

theorem moved_blow (s : State) (f : FieldRef) (v : Nat) : s.Moved (s.blow f v) := rfl

theorem moved_setCh (s : State) (n : Nat) (c : Chamber) : s.Moved (s.setCh n c) := rfl

theorem State.Fused.moved {s t : State} {l : List Nat} (h : s.Fused t l) : s.Moved t := by
  obtain ⟨-, -, -, h4⟩ := h
  unfold State.Moved
  conv_lhs => rw [h4]
  rw [h4]

theorem State.Logged.moved {s t : State} (h : s.Logged t) : s.Moved t := by
  unfold State.Moved
  conv_lhs => rw [h]
  rw [h]

theorem moved_blockReset (s : State) (n p : Nat) (k : ResetKind) (lo hi : Nat) : s.Moved ((s.resetRange k lo hi).copyRegions n p) := by
  have h : s.Moved (s.resetRange k lo hi) := rfl
  refine h.trans ?_
  unfold State.Moved
  conv_lhs => rw [copyRegions_eq]
  rw [copyRegions_eq]

/-- The chamber maps after one chamber gave its place to another. -/
def State.mapsMoved (s : State) (n p : Nat) : State :=
  (s.fuseRetired n).blow Reg.GLB_CHMAP_ENABLED (withBit ((s.fuseRetired n).get Reg.GLB_CHMAP_ENABLED) p)

/-- The maps moved, and the block of the chamber that takes the place at reset values with the region table of the other. -/
def State.blockTaken (s : State) (n p : Nat) : State :=
  ((s.mapsMoved n p).resetRange .chamber (chBlock p) (chBlock p + 0x100000)).copyRegions n p

/-- A field outside the block of the chamber that takes the place reads as the maps leave it. -/
theorem blockTaken_get (s : State) (n p : Nat) {f : FieldRef} (hf : f.key / 64 < chBlock p) : (s.blockTaken n p).get f = (s.mapsMoved n p).get f := by
  unfold State.blockTaken
  rw [copyRegions_get _ _ _ (.inl (by omega)), resetRange_get _ _ (.inl hf)]

theorem moved_blockTaken (s : State) (n p : Nat) : s.Moved (s.blockTaken n p) :=
  ((fused_fuseRetired s n).moved.trans (moved_blow _ _ _)).trans (moved_blockReset _ _ _ _ _ _)

theorem blockTaken_ch (s : State) (n p m : Nat) : (s.blockTaken n p).ch m = s.ch m := by
  unfold State.blockTaken
  rw [copyRegions_eq]
  rfl

theorem blockTaken_aclk (s : State) (n p : Nat) : (s.blockTaken n p).aclk = s.aclk := by rw [moved_blockTaken]

/-- The fields that are blown once both chambers are cleared, and the mark of retirement. -/
def State.swapBlown (s : State) (n p logical : Nat) : State :=
  ((((s.blow (Reg.CHn_STATUS_LOGICAL p) logical).blow (Reg.CHn_STATUS_LOGICAL n) 0x1F).blow (Reg.CHn_STATUS_STATE p) 1).blow
    (Reg.CHn_STATUS_STATE n) 0).put (Reg.CHn_STATUS_RETIRE_PENDING n) 1

theorem moved_swapBlown (s : State) (n p k : Nat) : s.Moved (s.swapBlown n p k) :=
  ((((moved_blow s _ _).trans (moved_blow _ _ _)).trans (moved_blow _ _ _)).trans (moved_blow _ _ _)).trans (moved_put _ _ _)

theorem swapBlown_ch (s : State) (n p k m : Nat) : (s.swapBlown n p k).ch m = s.ch m := rfl

theorem replaceChamber_steps (s : State) (n p : Nat) : s.replaceChamber n p =
    (((s.blockTaken n p).setCh p { Chamber.reset with cycBase := (s.blockTaken n p).aclk, rset := (s.ch n).rset }).setCh n Chamber.reset).swapBlown n p
      (s.get (Reg.CHn_STATUS_LOGICAL n)) := rfl

theorem replaceChamber_ch (s : State) (n p m : Nat) : (s.replaceChamber n p).ch m =
    if m = n then Chamber.reset else if m = p then { Chamber.reset with cycBase := s.aclk, rset := (s.ch n).rset } else s.ch m := by
  rw [replaceChamber_steps, swapBlown_ch, State.ch_setCh, State.ch_setCh, blockTaken_aclk, blockTaken_ch]

/-- What the fields read once a chamber has given its place to another. -/
theorem replaceChamber_get (s : State) (n p : Nat) (f : FieldRef) : (s.replaceChamber n p).get f =
    if f.key = (Reg.CHn_STATUS_RETIRE_PENDING n).key then 1 % 2 ^ 1
    else if f.key = (Reg.CHn_STATUS_STATE n).key then 0 % 2 ^ 3
    else if f.key = (Reg.CHn_STATUS_STATE p).key then 1 % 2 ^ 3
    else if f.key = (Reg.CHn_STATUS_LOGICAL n).key then 0x1F % 2 ^ 5
    else if f.key = (Reg.CHn_STATUS_LOGICAL p).key then s.get (Reg.CHn_STATUS_LOGICAL n) % 2 ^ 5
    else (s.blockTaken n p).get f := by
  rw [replaceChamber_steps, State.swapBlown, State.get_put, blow_get, blow_get, blow_get, blow_get, State.get_setCh, State.get_setCh]
  rfl

theorem moved_replaceChamber (s : State) (n p : Nat) : s.Moved (s.replaceChamber n p) := by
  rw [replaceChamber_steps]
  exact (((moved_blockTaken s n p).trans (moved_setCh _ _ _)).trans (moved_setCh _ _ _)).trans (moved_swapBlown _ _ _ _)

/-- A chamber replaced: its maps, states and LOGICAL numbers, and both chambers cleared. -/
theorem replaces_replaceChamber {s : State} {n p : Nat} (hn : n < 28) (hp : p < 28) (hnp : n ≠ p) :
    s.Replaces (s.replaceChamber n p) n p fun _ => False := by
  obtain ⟨f1, f2, -, -⟩ := fused_fuseRetired s n
  have hch := replaceChamber_ch s n p
  have hg := replaceChamber_get s n p
  have hmap : ∀ f : FieldRef, f.key / 64 < 0x1000000 → (s.replaceChamber n p).get f = (s.mapsMoved n p).get f := fun f hf => by
    rw [hg, if_neg (by simp; omega), if_neg (by simp; omega), if_neg (by simp; omega), if_neg (by simp; omega), if_neg (by simp; omega),
      blockTaken_get _ _ _ (by unfold chBlock; omega)]
  refine ⟨?_, ?_, ?_, ?_, fun m hm => ?_, fun m hm => ?_, ?_, ?_, fun m h1 h2 => ?_, ?_⟩
  · refine (hg _).trans ?_
    simp
  · refine (hg _).trans ?_
    simp
    omega
  · refine (hg _).trans ?_
    simp
    omega
  · rw [hg, if_neg (by simp; omega), if_neg (by simp; omega), if_neg (by simp), if_neg (by simp; omega), if_pos rfl]
    rfl
  · rw [hmap _ (by simp), State.mapsMoved, blow_get, if_pos rfl, bit_mod (by simpa using hm), bit_withBit, f1 m hm]
    simp
  · rw [hmap _ (by simp), State.mapsMoved, blow_get, if_neg (by simp), f2 m hm]
    simp
  · rw [hch, if_pos rfl]
  · rw [hch, if_neg hnp.symm, if_pos rfl]
  · rw [hch, if_neg h1, if_neg h2]
  · exact moved_replaceChamber s n p

/-! ## Retirement -/

/-- Chambers of a list that are retired write no field of another register, and no state of a chamber outside the list. -/
theorem State.Fused.get {s t : State} {l : List Nat} (h : s.Fused t l) {f : FieldRef} (he : f.key ≠ Reg.GLB_CHMAP_ENABLED.key)
    (hr : f.key ≠ Reg.GLB_CHMAP_RETIRED.key) (hl : ∀ q ∈ l, f.key ≠ (Reg.CHn_STATUS_STATE q).key) : t.get f = s.get f := by
  obtain ⟨-, -, hk, -⟩ := h
  refine hk f ?_
  simp only [List.map_cons, List.map_map, List.mem_cons, List.mem_map, not_or, not_exists, not_and, Function.comp]
  exact ⟨he, hr, fun q hq e => hl q hq e.symm⟩

theorem State.Fused.chState {s t : State} {l : List Nat} (h : s.Fused t l) {n : Nat} (hl : n ∉ l) : t.chState n = s.chState n := by
  refine h.get (by simp; omega) (by simp; omega) fun q hq e => hl ?_
  have : n = q := by simp at e; omega
  exact this ▸ hq

theorem State.Fused.ch {s t : State} {l : List Nat} (h : s.Fused t l) (m : Nat) : t.ch m = s.ch m := by
  obtain ⟨-, -, -, h4⟩ := h
  rw [h4]
  rfl

/-- A chamber replaced behind candidates that failed, with log entries after it. -/
theorem replaces_of_fused {s u t : State} {bad : List Nat} {n p : Nat} {failed : Nat → Prop} (hu : s.Fused u bad)
    (hb : ∀ q, q ∈ bad ↔ failed q) (hn : n < 28) (hp : p < 28) (hnp : n ≠ p)
    (hlog : (u.replaceChamber n p).Logged t) (hget : ∀ f : FieldRef, f.key < 0x6800000 * 64 → t.get f = (u.replaceChamber n p).get f) :
    s.Replaces t n p failed := by
  obtain ⟨r1, r2, r3, r4, r5, r6, r7, r8, r9, r10⟩ := replaces_replaceChamber (s := u) hn hp hnp
  have hch := hlog.ch
  have haclk : u.aclk = s.aclk := by rw [hu.moved]
  have ⟨f1, f2, _, _⟩ := hu
  have hlogical : u.get (Reg.CHn_STATUS_LOGICAL n) = s.get (Reg.CHn_STATUS_LOGICAL n) :=
    hu.get (by simp; omega) (by simp; omega) fun q _ => by simp; omega
  refine ⟨(hget _ (by simp; omega)).trans r1, (hget _ (by simp; omega)).trans r2, (hget _ (by simp; omega)).trans r3, ?_, fun m hm => ?_,
    fun m hm => ?_, (hch n).trans r7, ?_, fun m h1 h2 => ?_, ?_⟩
  · rw [hget _ (by simp; omega), r4, hlogical]
  · rw [hget _ (by simp), r5 m hm, f1 m hm, ← hb m]
    simp
  · rw [hget _ (by simp), r6 m hm, f2 m hm, ← hb m]
    simp
  · rw [hch, r8, hu.ch, haclk]
  · rw [hch, r9 m h1 h2, hu.ch]
  · exact (hu.moved.trans (moved_replaceChamber u n p)).trans hlog.moved

/-- A retirement that finds a candidate replaces the chamber with it and retires the candidates before it. -/
theorem retireWith_some {s : State} {failed : BitVec 28} {n p : Nat} {bad : List Nat} {cands : List Nat} {fails : Nat → Prop}
    (hc : testCandidates failed cands = (bad, some p)) (hb : ∀ q, q ∈ bad ↔ fails q) (hn : n < 28) (hp : p < 28) (hnp : n ≠ p) :
    s.Replaces (s.retireWith failed n cands) n p fails := by
  unfold State.retireWith
  simp only [hc, logRetired_cons]
  exact replaces_of_fused (fused_foldl bad s) hb hn hp hnp (logged_foldl (n :: bad) _) fun f hf => logRetired_get (n :: bad) hf _

/-- A retirement that finds no candidate retires them all and leaves none. -/
theorem retireWith_none {s : State} {failed : BitVec 28} {n : Nat} {cands : List Nat} (hc : testCandidates failed cands = (cands, none)) :
    s.retireWith failed n cands = cands.foldl State.logRetired ((cands.foldl State.fuseRetired s).noneLeft n) := by
  unfold State.retireWith
  rw [hc]

theorem chamberRetirement_eq {s : State} {failed : BitVec 28} {n : Nat} (hk : s.flag Reg.GLB_ROLE_KEEPER = false) (hs : s.stepRuns = false)
    (hh : s.held = false) (hd : s.devFailed = false) (hn : n < 28) (hr : s.toRetire n = true) (hlow : ∀ m < n, s.toRetire m = false) :
    exec (.chamberRetirement failed) s = .next (s.retireWith failed n s.spares) := by
  have hfind : (List.range 28).find? s.toRetire = some n := by
    rw [List.find?_range_eq_some]
    exact ⟨hr, List.mem_range.mpr hn, fun m hm => by simp [hlow m hm]⟩
  show execChamberRetirement failed s = _
  unfold execChamberRetirement
  simp only [hk, hs, hh, hd, hfind, Bool.or_self, Bool.false_eq_true, if_false]

theorem keeperRetirement_eq {s : State} {failed : BitVec 28} {n : Nat} (hk : s.flag Reg.GLB_ROLE_KEEPER = true) (hc : s.kprChamber = some n)
    (hkpr : s.kpr = none) (hpeer : s.kprPeer = none) (hh : s.held = false) (hd : s.devFailed = false) (hr : s.toRetire n = true) :
    exec (.keeperChamberRetirement failed) s = .next (s.retireWith failed n (s.gated n ++ s.spares)) := by
  show execKeeperChamberRetirement failed s = _
  unfold execKeeperChamberRetirement
  simp only [hc, hk, hkpr, hpeer, hh, hd, hr]
  rfl

/-- With no candidate left, a chamber that runs is kept in service. -/
theorem noneLeft_kept {s : State} {n : Nat} (h : s.awakeState n ≠ 4 ∨ s.get (Reg.CHn_HALT_CAUSE n) ≠ 9) :
    s.noneLeft n = { s with keptNoSpare := true } :=
  if_neg fun ⟨h1, h2⟩ => h.elim (· h1) (· h2)

/-- With no candidate left after HWFAULT, the device of one side declares itself failed. -/
theorem noneLeft_failed {s : State} {n : Nat} (h4 : s.awakeState n = 4) (h9 : s.get (Reg.CHn_HALT_CAUSE n) = 9) (ht : s.flag Reg.GLB_ROLE_TWIN = false) :
    (s.noneLeft n).devFailed = true := by
  unfold State.noneLeft
  rw [if_pos ⟨h4, h9⟩]
  extract_lets u
  have htwin : u.isTwin = false := by
    have : u.get Reg.GLB_ROLE_TWIN = s.get Reg.GLB_ROLE_TWIN := logErr_get (.inl (by simp))
    unfold State.isTwin State.flag
    rw [this]
    exact ht
  rw [htwin]
  show u.devFailed = true
  unfold u
  rw [logErr_eq]

/-- The spares up to one of them and from it on. -/
theorem spares_split {s : State} {p : Nat} (hp : s.Spare p) : ∃ l k, s.spares = l ++ p :: k ∧ ∀ q, q ∈ l ↔ q < p ∧ s.Spare q := by
  have ⟨hlt, _, _⟩ := hp
  obtain ⟨k, hk⟩ := filter_range_split (fun q => !bit (s.get Reg.GLB_CHMAP_ENABLED) q && !bit (s.get Reg.GLB_CHMAP_RETIRED) q) hlt (List.mem_filter.mp (spares_mem.mpr hp)).2
  refine ⟨_, k, hk, fun q => ?_⟩
  rw [List.mem_filter, List.mem_range, ← spares_mem]
  refine and_congr_right fun hq => ?_
  unfold State.spares
  rw [List.mem_filter, List.mem_range, and_iff_right (by omega)]

/-- The chambers that stand in for a keeper's, up to one of them and from it on. -/
theorem gated_split {s : State} {n p : Nat} (hp : p < 28 ∧ p ≠ n ∧ bit (s.get Reg.GLB_CHMAP_ENABLED) p = true) : ∃ l k, s.gated n = l ++ p :: k ∧
    ∀ q, q ∈ l ↔ q < p ∧ q < 28 ∧ q ≠ n ∧ bit (s.get Reg.GLB_CHMAP_ENABLED) q = true := by
  obtain ⟨k, hk⟩ := filter_range_split (fun q => bit (s.get Reg.GLB_CHMAP_ENABLED) q && q != n) hp.1 (List.mem_filter.mp (gated_mem.mpr hp)).2
  refine ⟨_, k, hk, fun q => ?_⟩
  have hlt : p < 28 := hp.1
  rw [List.mem_filter, List.mem_range, ← gated_mem]
  refine and_congr_right fun hq => ?_
  unfold State.gated
  rw [List.mem_filter, List.mem_range, and_iff_right (by omega)]

theorem State.Fused.awakeState {s t : State} {l : List Nat} (h : s.Fused t l) {n : Nat} (hl : n ∉ l) : t.awakeState n = s.awakeState n := by
  unfold State.awakeState
  rw [h.chState hl, h.ch]

theorem State.Fused.haltCause {s t : State} {l : List Nat} (h : s.Fused t l) (n : Nat) :
    t.get (Reg.CHn_HALT_CAUSE n) = s.get (Reg.CHn_HALT_CAUSE n) :=
  h.get (by simp; omega) (by simp; omega) fun q _ => by simp; omega

/-- Settles O33: candidates are tried in order, and the first that passes takes the place. -/
theorem chamberRetirement : Obligations.ChamberRetirement := by
  unfold Obligations.ChamberRetirement
  intro s failed n p hh hd hn _ _ hr passes
  have hen : bit (s.get Reg.GLB_CHMAP_ENABLED) n = true := by
    unfold State.toRetire at hr
    simp only [Bool.and_eq_true] at hr
    obtain ⟨⟨-, hen⟩, -⟩ := hr
    exact hen
  have hspare : ∀ q, s.Spare q → q ≠ n := fun q ⟨_, he, _⟩ e => by rw [e, hen] at he; cases he
  have hns : n ∉ s.spares := fun h => hspare n (spares_mem.mp h) rfl
  have hnone : (∀ q, s.Spare q → ¬passes q) → testCandidates failed s.spares = (s.spares, none) := fun h =>
    testCandidates_none fun q hq => h q (spares_mem.mp hq)
  refine ⟨fun hk hs hlow => ⟨fun hp hpass hbefore => ?_, fun hfail hkept => ?_, fun hfail h4 h9 ht => ?_⟩, fun hk hc hkpr hpeer hpn hp28 hpass => ?_⟩
  · have he := chamberRetirement_eq (failed := failed) hk hs hh hd hn hr hlow
    obtain ⟨l, k, hl, hmem⟩ := spares_split hp
    rw [hl] at he
    exact ⟨_, he, retireWith_some (testCandidates_some (fun q hq => hbefore q ((hmem q).mp hq).1 ((hmem q).mp hq).2) hpass) hmem hn hp.1
      (hspare p hp).symm⟩
  · have he := chamberRetirement_eq (failed := failed) hk hs hh hd hn hr hlow
    have hu := fused_foldl s.spares s
    rw [retireWith_none (hnone hfail), noneLeft_kept (by rwa [hu.awakeState hns, hu.haltCause])] at he
    have hlog := logged_foldl s.spares { s.spares.foldl State.fuseRetired s with keptNoSpare := true }
    refine ⟨_, he, ?_, ?_, ?_, fun m hm => ?_⟩
    · rw [hlog]
    · exact (logRetired_get _ (by simp; omega) _).trans (hu.chState hns)
    · have ⟨_, _, _, h4⟩ := hu
      rw [hlog]
      show (s.spares.foldl State.fuseRetired s).chambers = _
      rw [h4]
    · rw [logRetired_get _ (by simp)]
      show bit ((s.spares.foldl State.fuseRetired s).get _) m = true ↔ _
      have ⟨_, f2, _, _⟩ := hu
      rw [f2 m hm, ← spares_mem]
      simp [or_comm]
  · have he := chamberRetirement_eq (failed := failed) hk hs hh hd hn hr hlow
    have hu := fused_foldl s.spares s
    rw [retireWith_none (hnone hfail)] at he
    refine ⟨_, he, ?_⟩
    rw [logged_foldl]
    refine noneLeft_failed (by rw [hu.awakeState hns, h4]) (by rw [hu.haltCause, h9]) ?_
    unfold State.flag
    rw [hu.get (by simp) (by simp) fun q _ => by simp; omega]
    exact ht
  · have he := keeperRetirement_eq (failed := failed) hk hc hkpr hpeer hh hd hr
    refine ⟨fun ⟨hp, hbefore⟩ => ?_, fun ⟨hgated, hp, hbefore⟩ => ?_⟩
    · obtain ⟨l, k, hl, hmem⟩ := gated_split hp
      rw [hl, List.append_assoc, List.cons_append] at he
      exact ⟨_, he, retireWith_some (testCandidates_some (fun q hq => hbefore q ((hmem q).mp hq).1 ((hmem q).mp hq).2) hpass) hmem hn hp28 hpn.symm⟩
    · obtain ⟨l, k, hl, hmem⟩ := spares_split hp
      rw [hl, ← List.append_assoc] at he
      have hbad : ∀ q, q ∈ s.gated n ++ l ↔ (q < 28 ∧ q ≠ n ∧ bit (s.get Reg.GLB_CHMAP_ENABLED) q = true) ∨ (q < p ∧ s.Spare q) := fun q => by
        rw [List.mem_append, gated_mem, hmem]
      refine ⟨_, he, retireWith_some (testCandidates_some (fun q hq => ?_) hpass) hbad hn hp28 hpn.symm⟩
      exact ((hbad q).mp hq).elim (hgated q) fun ⟨h1, h2⟩ => hbefore q h1 h2

end Sys2Proof.Machine
end

section
/-! The mailbox (R67, R413 to R415, R432, R433, R435 to R437): the exchange, each command's answer and effect, and from them O55. -/

namespace Sys2Proof.Machine

open Sys2Proof

/-! ## The exchange (R413) -/

/-- What a response writes: word 0, the words given or free, RSP and REQ. -/
def State.responseWrites (s : State) (result : Nat) (words : List Nat) : List (FieldRef × Nat) :=
  (Reg.MBX_D2Hk_WORD 0, s.get (Reg.MBX_H2Dk_WORD 0) % 2 ^ 32 + result * 2 ^ 32) ::
    ((List.range 7).map fun i => (Reg.MBX_D2Hk_WORD (i + 1), words.getD i (Config.freeWord (s.freeCount + i)).toNat)) ++
    [(Reg.MBX_CTL_RSP, 1), (Reg.MBX_CTL_REQ, 0)]

theorem responseWrites_fields (s : State) (result : Nat) (words : List Nat) : (s.responseWrites result words).map (·.1) = respondFields := rfl

theorem respondFields_apart : respondFields.Pairwise fun f g => f.key ≠ g.key := by decide

theorem respond_eq (s : State) (result : Nat) (words : List Nat) :
    s.respond result words = (({ s with freeCount := s.freeCount + 7 } : State).puts (s.responseWrites result words)).raiseIrq 1 := rfl

theorem msix_raised (m : Msix) (v k : Nat) : mapGet 0 (m.raise v).raised k = mapGet 0 m.raised k + if k = v then 1 else 0 := by
  have h : (m.raise v).raised = mapSet 0 m.raised v (mapGet 0 m.raised v + 1) := by
    unfold Msix.raise
    dsimp only
    split
    · rfl
    · rfl
  rw [h, mapGet_set]
  split
  · next e => rw [e]
  · rfl

theorem get_raiseIrq (s : State) (v : Nat) (f : FieldRef) : (s.raiseIrq v).get f = s.get f := rfl

theorem raiseIrq_irq (s : State) (v : Nat) : (s.raiseIrq v).irq = s.irq.raise v := rfl

/-- Fields written, words drawn and a vector raised change nothing else. -/
theorem puts_raise_eq (s : State) (k v : Nat) (l : List (FieldRef × Nat)) : (({ s with freeCount := k } : State).puts l).raiseIrq v =
    { s with fields := (({ s with freeCount := k } : State).puts l).fields, irq := s.irq.raise v, freeCount := k } := by
  rw [puts_eq]
  rfl

/-- A field that a response writes reads as written. -/
theorem respond_get {s : State} {result : Nat} {words : List Nat} {f : FieldRef} {v : Nat} (h : (f, v) ∈ s.responseWrites result words) :
    (s.respond result words).get f = v % 2 ^ f.w := by
  rw [respond_eq, get_raiseIrq]
  exact puts_get (s.responseWrites result words) ((responseWrites_fields s result words).symm ▸ respondFields_apart)
    { s with freeCount := s.freeCount + 7 } (f, v) h

theorem mem_responseWrites_word {s : State} {result : Nat} {words : List Nat} {i : Nat} (hi : i < 7) :
    (Reg.MBX_D2Hk_WORD (i + 1), words.getD i (Config.freeWord (s.freeCount + i)).toNat) ∈ s.responseWrites result words := by
  simp only [State.responseWrites, List.mem_append, List.mem_cons, List.mem_map, List.mem_range]
  exact .inl (.inr ⟨i, hi, rfl⟩)

theorem mem_responseWrites_ctl {s : State} {result : Nat} {words : List Nat} :
    (Reg.MBX_CTL_RSP, 1) ∈ s.responseWrites result words ∧ (Reg.MBX_CTL_REQ, 0) ∈ s.responseWrites result words := by
  simp [State.responseWrites]

theorem keeps_respond (s : State) (result : Nat) (words : List Nat) : s.KeepsFields (s.respond result words) respondFields := by
  intro f hf
  rw [respond_eq, get_raiseIrq]
  refine ((keeps_refl { s with freeCount := s.freeCount + 7 } respondFields).puts (s.responseWrites result words) (fun e he => ?_) f hf).trans
    (State.get_of_fields rfl rfl rfl f)
  rw [← responseWrites_fields s result words]
  exact List.mem_map_of_mem he

/-- Every response is one in the words of R413. -/
theorem responds_respond (s : State) (result : Nat) (words : List Nat) : s.Responds (s.respond result words) result words := by
  obtain ⟨hrsp, hreq⟩ := mem_responseWrites_ctl (s := s) (result := result) (words := words)
  refine ⟨?_, keeps_respond s result words, ?_, fun i hi hw => ?_, respond_get hrsp, respond_get hreq, fun v => ?_⟩
  · rw [respond_eq, puts_raise_eq]
  · exact respond_get (f := Reg.MBX_D2Hk_WORD 0) (v := s.get (Reg.MBX_H2Dk_WORD 0) % 2 ^ 32 + result * 2 ^ 32)
      (List.mem_append_left _ (List.mem_cons_self ..))
  · refine (respond_get (mem_responseWrites_word hi)).trans ?_
    rw [List.getD_eq_getElem _ _ hw, List.getD_eq_getElem _ _ hw]
    rfl
  · rw [respond_eq, puts_raise_eq]
    exact msix_raised _ _ _

/-! ## Commands and states (R414) -/

theorem req_iff (s : State) : s.flag Reg.MBX_CTL_REQ = true ↔ s.get Reg.MBX_CTL_REQ = 1 := by simp [State.flag]

/-- A request that is not for a command leaves the mailbox as it is. -/
theorem mailbox_other {s : State} {cmd : Nat} {states : List Nat} {f : State → State} (h : ¬s.Asked cmd) : s.mailbox cmd states f = s := by
  unfold State.mailbox
  rw [if_neg]
  simp only [Bool.and_eq_true, beq_iff_eq, req_iff]
  exact h

/-- A request in a state that does not accept it is answered STATE. -/
theorem mailbox_refused {s : State} {cmd : Nat} {states : List Nat} {f : State → State} (h : s.Asked cmd)
    (hs : s.get Reg.MBX_CTL_STATE ∉ states) : s.mailbox cmd states f = s.respond 2 [] := by
  obtain ⟨hr, hc⟩ := h
  unfold State.mailbox
  rw [if_pos (by simp [(req_iff s).mpr hr, hc]), if_neg (by simpa using hs)]

/-- A request in a state that accepts it is served. -/
theorem mailbox_served {s : State} {cmd : Nat} {states : List Nat} {f : State → State} (h : s.Asked cmd)
    (hs : s.get Reg.MBX_CTL_STATE ∈ states) : s.mailbox cmd states f = f s := by
  obtain ⟨hr, hc⟩ := h
  unfold State.mailbox
  rw [if_pos (by simp [(req_iff s).mpr hr, hc]), if_pos (by simpa using hs)]

/-- What a command's execution is: the exchange around an effect of its own. -/
def MailboxRuns (s : State) (c : Instr) (cmd : Nat) (states : List Nat) : Prop := ∃ f, exec c s = .next (s.mailbox cmd states f)

/-- A command that is not asked for does nothing; one in another state is answered STATE. -/
theorem mailboxRuns_other {s : State} {c : Instr} {cmd : Nat} {states : List Nat} (h : MailboxRuns s c cmd states) :
    (¬s.Asked cmd → exec c s = .next s) ∧
    (s.Asked cmd → s.get Reg.MBX_CTL_STATE ∉ states → Does c s fun t => s.Responds t 2 []) := by
  obtain ⟨f, hf⟩ := h
  refine ⟨fun hn => by rw [hf, mailbox_other hn], fun ha hs => ⟨_, hf, ?_⟩⟩
  rw [mailbox_refused ha hs]
  exact responds_respond s 2 []

/-- The commands of the mailbox with their codes and the states that accept them. -/
theorem mailboxRuns_commands (s : State) (tail head : Word) (failed : BitVec 28) (sigOk : Bool) (sig : List Byte) :
    ∀ c ∈ [(Instr.attach tail head, 2, [2, 4]), (.detach, 3, [3]), (.selftest failed, 0x10, [2]), (.retire, 0x11, [2, 3, 4]),
        (.imgBegin, 0x20, [1, 2, 3, 4]), (.imgData, 0x21, [1, 2, 3, 4]), (.imgCommit sigOk, 0x22, [1, 2, 3, 4]), (.attest sig, 0x30, [2, 3, 4]),
        (.coldRestart, 0x41, if s.get Reg.TWN_STATE_STATE = 6 then [1, 2, 3, 4] else [1, 2, 4])], MailboxRuns s c.1 c.2.1 c.2.2 := by
  simp only [List.forall_mem_cons, List.not_mem_nil, false_imp_iff, implies_true, and_true]
  exact ⟨⟨_, rfl⟩, ⟨_, rfl⟩, ⟨_, rfl⟩, ⟨_, rfl⟩, ⟨_, rfl⟩, ⟨_, rfl⟩, ⟨_, rfl⟩, ⟨_, rfl⟩, ⟨_, rfl⟩⟩

/-! ## STATUS -/

/-- A code that names no command is answered UNSUPPORTED. -/
theorem status_unknown {s : State} (hr : s.get Reg.MBX_CTL_REQ = 1) (hc : s.mbxCmd ∉ mbxCodes) : exec .status s = .next (s.respond 1 []) := by
  show execStatus s = _
  unfold execStatus
  rw [if_pos]
  simp [(req_iff s).mpr hr, hc]

theorem status_known {s : State} (hc : s.get Reg.MBX_CTL_REQ ≠ 1 ∨ s.mbxCmd ∈ mbxCodes) : exec .status s = .next (s.mailbox 1 [1, 2, 3, 4] fun s =>
      s.respond 0 [s.get Reg.MBX_CTL_STATE, s.readReg 0x10, s.readReg 0x3C00008, s.readReg 0x3C00020, s.readReg 0x6800000]) := by
  show execStatus s = _
  unfold execStatus
  rw [if_neg]
  rcases hc with h | h
  · rw [Ne, ← req_iff] at h
    simp [h]
  · simp [h]

theorem asked_ne {s : State} {cmd : Nat} (h : s.get Reg.MBX_CTL_REQ ≠ 1) : ¬s.Asked cmd := fun ha => h ha.1

/-! ## RETIRE and SELFTEST -/

theorem retire_served {s : State} (h : s.Asked 0x11) (hs : s.get Reg.MBX_CTL_STATE ∈ [2, 3, 4]) : exec .retire s = .next (
    if s.mbxWord 1 % 32 < 28 ∧ bit (s.get Reg.GLB_CHMAP_ENABLED) (s.mbxWord 1 % 32) = true then
      (s.put (Reg.CHn_STATUS_RETIRE_PENDING (s.mbxWord 1 % 32)) 1).respond 0 []
    else s.respond 3 []) :=
  congrArg Host.Outcome.next (mailbox_served h hs)

theorem selftest_served {s : State} (failed : BitVec 28) (h : s.Asked 0x10) (hs : s.get Reg.MBX_CTL_STATE ∈ [2]) :
    exec (.selftest failed) s = .next (s.respond 0 [failed.toNat &&& s.get Reg.GLB_CHMAP_ENABLED]) :=
  congrArg Host.Outcome.next (mailbox_served h hs)

/-! ## ATTACH and DETACH (R414, R415) -/

theorem gotFrame_none {s : State} {w : FrameWait} (h : w ∉ s.frameWaits) : s.gotFrame w = s := by
  unfold State.gotFrame
  rw [if_neg (by simpa using h)]

/-- With no completion held and no interrupt due, what is left of a flush is the end of a DETACH. -/
theorem flushCmpl_quiet {s : State} (hc : s.heldCmpl = []) (hi : s.irqWait = false) : s.flushCmpl = s.finishDetach := by
  unfold State.flushCmpl State.tryIrq
  rw [hc]
  show State.finishDetach (if (s.irqWait && _) = true then _ else s) = _
  rw [hi, if_neg (by simp)]

theorem finishDetach_none {s : State} (hd : s.detaching = false) : s.finishDetach = s := by
  unfold State.finishDetach
  rw [hd, if_neg (by simp)]

/-- The registers that ATTACH sets. -/
def State.attachWrites (s : State) : List (FieldRef × Nat) :=
  [(Reg.HST_LINK_ATTACH_GEN, s.attachments + 1), (Reg.HST_LEDGER_POS_STARTED, 0),
   (Reg.HST_LEDGER_BASE_ADDR, s.mbxWord 1), (Reg.HST_LEDGER_BASE_LOG2, bits (s.mbxWord 4) 4 0),
   (Reg.HST_CMPL_BASE_ADDR, s.mbxWord 2), (Reg.HST_CMPL_BASE_LOG2, bits (s.mbxWord 4) 12 8),
   (Reg.HST_DOORBELL_ADDR, s.mbxWord 3), (Reg.MBX_CTL_STATE, 3)]

/-- The device once it is attached, before its response. -/
def State.attached (s : State) (tail head : Nat) : State :=
  { ({ s with attachments := s.attachments + 1 } : State).puts s.attachWrites with
    started := 0, cmplCount := 0, ledgerTail := tail, cmplHead := head, ledgerBad := false }

theorem attached_eq (s : State) (tail head : Nat) : s.attached tail head =
    { s with fields := (s.attached tail head).fields, attachments := s.attachments + 1, started := 0, cmplCount := 0, ledgerTail := tail
             cmplHead := head, ledgerBad := false } := by
  unfold State.attached
  rw [puts_eq]

theorem attach_eq {s : State} (tail head : Nat) (hc : s.heldCmpl = []) (hi : s.irqWait = false) (hd : s.detaching = false)
    (hf : .ledger ∉ s.frameWaits) : s.attach tail head =
      (s.attached tail head).respond 0 [s.get Reg.MBX_CTL_STATE, s.started, 0, (s.attached tail head).readReg 0x3C00020] := by
  have he := attached_eq s tail head
  have hheld : (s.attached tail head).heldCmpl = [] := by rw [he]; exact hc
  have hstep : s.attach tail head = State.flushCmpl ((s.attached tail head).respond 0
      [s.get Reg.MBX_CTL_STATE, s.started, (s.attached tail head).heldCmpl.length, (s.attached tail head).readReg 0x3C00020]) := by
    unfold State.attach
    rw [gotFrame_none hf]
    rfl
  rw [hstep, hheld]
  obtain ⟨hr, -⟩ := responds_respond (s.attached tail head) 0
    [s.get Reg.MBX_CTL_STATE, s.started, ([] : List Completion).length, (s.attached tail head).readReg 0x3C00020]
  rw [flushCmpl_quiet (by rw [hr]; exact hheld) (by rw [hr, he]; exact hi), finishDetach_none (by rw [hr, he]; exact hd)]
  rfl

theorem attached_get (s : State) (tail head : Nat) {f : FieldRef} {v : Nat} (h : (f, v) ∈ s.attachWrites) : (s.attached tail head).get f = v % 2 ^ f.w := by
  show (({ s with attachments := s.attachments + 1 } : State).puts s.attachWrites).get f = _
  refine puts_get s.attachWrites ?_ { s with attachments := s.attachments + 1 } (f, v) h
  simp [State.attachWrites]

theorem attached_keeps (s : State) (tail head : Nat) : s.KeepsFields (s.attached tail head)
    [Reg.MBX_CTL_STATE, Reg.HST_LINK_ATTACH_GEN, Reg.HST_LEDGER_POS_STARTED, Reg.HST_LEDGER_BASE_ADDR, Reg.HST_LEDGER_BASE_LOG2,
      Reg.HST_CMPL_BASE_ADDR, Reg.HST_CMPL_BASE_LOG2, Reg.HST_DOORBELL_ADDR] := by
  refine State.KeepsFields.of_fields (State.KeepsFields.puts s.attachWrites
    ((keeps_refl s _).of_fields (u := { s with attachments := s.attachments + 1 }) rfl rfl rfl) ?_) rfl rfl rfl
  simp [State.attachWrites]

/-- A DETACH with records open waits; with none it is done. -/
theorem detach_eq {s : State} (h : s.Asked 3) (hs : s.get Reg.MBX_CTL_STATE = 3) (hc : s.heldCmpl = []) (hi : s.irqWait = false)
    (hf : .ledger ∉ s.frameWaits) : exec .detach s = .next (State.finishDetach { s with detaching := true }) := by
  show Host.Outcome.next (s.mailbox 3 [3] _) = _
  rw [mailbox_served h (by simp [hs])]
  refine congrArg _ ?_
  have hg : (if (s.runningCopy 3).isNone = true then s.gotFrame .ledger else s) = s := by rw [gotFrame_none hf, ite_self]
  rw [hg]
  exact flushCmpl_quiet (s := { s with detaching := true }) hc hi

theorem finishDetach_open {s : State} (h : s.openRecs ≠ [] ∨ s.endedRecs ≠ []) : s.finishDetach = s := by
  unfold State.finishDetach
  rw [if_neg]
  rcases h with h | h
  · simp [h]
  · simp [h]

theorem finishDetach_done {s : State} (hd : s.detaching = true) (ho : s.openRecs = []) (he : s.endedRecs = []) (hc : s.heldCmpl = []) :
    s.finishDetach = (({ s with detaching := false } : State).put Reg.MBX_CTL_STATE 4).respond 0 [] := by
  unfold State.finishDetach
  rw [if_pos (by simp [hd, ho, he, hc])]

end Sys2Proof.Machine
end

section
/-! The mailbox's images, attestation tree and restart (R414, R432, R433, R435 to R437, R446): the effect of each command, and O55. -/

namespace Sys2Proof.Machine

open Sys2Proof

/-! ## Staging (R432, R433) -/

theorem bits_low (x k : Nat) : bits x k 0 = x % 2 ^ (k + 1) := by simp [bits]

/-- IMG_BEGIN as the request's words say. -/
theorem imgBegin_served {s : State} (h : s.Asked 0x20) (hs : s.get Reg.MBX_CTL_STATE ∈ allButBoot) : exec .imgBegin s = .next (
    if s.flashBusy = true then s.respond 4 []
    else if 0x4000000 < s.mbxWord 1 % 2 ^ 32 then s.respond 3 []
    else if s.flag Reg.SEC_BOOT_RECOVERY = true then (s.clearFirst.openStaging (s.mbxWord 1 % 2 ^ 32) 0 0 0x4000000).respond 0 []
    else match s.stagingObj (s.mbxWord 2 % 2 ^ 16) (s.mbxWord 1 % 2 ^ 32) with
      | none => s.respond 3 []
      | some o => (s.openStaging (s.mbxWord 1 % 2 ^ 32) (s.mbxWord 2 % 2 ^ 16) o.base o.size).respond 0 []) := by
  rw [← bits_low, ← bits_low]
  exact congrArg Host.Outcome.next (mailbox_served h hs)

/-- A staging that opens. -/
theorem openStaging_does (s : State) (size obj base bytes : Nat) :
    (s.openStaging size obj base bytes).staging = some ⟨base, bytes⟩ ∧ (s.openStaging size obj base bytes).get Reg.SEC_UPD_STATE = 1 ∧
    (s.openStaging size obj base bytes).get Reg.SEC_UPD_SIZE = size % 2 ^ 32 ∧ (s.openStaging size obj base bytes).get Reg.SEC_UPD_OBJ = obj % 2 ^ 16 ∧
    s.KeepsFields (s.openStaging size obj base bytes) [Reg.SEC_UPD_STATE, Reg.SEC_UPD_SIZE, Reg.SEC_UPD_OBJ] ∧
    s.openStaging size obj base bytes =
      { s with fields := (s.openStaging size obj base bytes).fields, staging := (s.openStaging size obj base bytes).staging } := by
  have hg : ∀ e ∈ [(Reg.SEC_UPD_SIZE, size), (Reg.SEC_UPD_OBJ, obj), (Reg.SEC_UPD_STATE, 1)],
      (s.openStaging size obj base bytes).get e.1 = e.2 % 2 ^ e.1.w := puts_get _ (by simp) _
  refine ⟨rfl, hg (Reg.SEC_UPD_STATE, 1) (by simp), hg (Reg.SEC_UPD_SIZE, size) (by simp), hg (Reg.SEC_UPD_OBJ, obj) (by simp), ?_, rfl⟩
  exact State.KeepsFields.puts _ ((keeps_refl s _).of_fields (u := { s with staging := some ⟨base, bytes⟩ }) rfl rfl rfl) (by simp)

/-! ## Lantern's writes inside one granule -/

/-- The count of forced row boundaries bears on no address. -/
theorem writable_forced {s : State} {v a : Nat} (h : s.Writable a) : (s.put Reg.HLC_CLAIM_STAT_FORCED v).Writable a := by
  have hg : ∀ f : FieldRef, f.key ≠ Reg.HLC_CLAIM_STAT_FORCED.key → (s.put Reg.HLC_CLAIM_STAT_FORCED v).get f = s.get f :=
    fun f hf => State.get_put_ne hf
  have hstate : ∀ m, (s.put Reg.HLC_CLAIM_STAT_FORCED v).slotState m = s.slotState m := fun m => hg _ (by simp; omega)
  have hframes : ∀ m, (s.put Reg.HLC_CLAIM_STAT_FORCED v).slotFrames m = s.slotFrames m := fun m => by
    unfold State.slotFrames
    rw [hg _ (by simp; omega)]
  have hw : (s.put Reg.HLC_CLAIM_STAT_FORCED v).windowPopulated (pageOf a) = s.windowPopulated (pageOf a) := by
    unfold State.windowPopulated State.bondedPages
    simp only [hstate, hframes, hg Reg.GLB_ID_LAYERS (by simp)]
  have hp : (s.put Reg.HLC_CLAIM_STAT_FORCED v).peerClosed a = s.peerClosed a := by
    unfold State.peerClosed State.inPeerWindow State.flag
    rw [hg _ (by simp), hg _ (by simp), hg _ (by simp), hg _ (by simp)]
  obtain ⟨h1, h2, h3, h4, h5⟩ := h
  refine ⟨?_, h2, hp.trans h3, h4, h5⟩
  unfold State.populated State.populatedPage at h1 ⊢
  rw [hw]
  exact h1

/-- An access that forces a row boundary leaves what may be written. -/
theorem enterBank_writable {s : State} {a : Nat} (h : s.Writable a) (b : Nat) : (s.enterBank b).Writable a := by
  unfold State.enterBank
  split
  · split
    · exact writable_forced h
    · exact h
  · exact h

theorem enterBank_cached (s : State) (a g : Nat) : (s.enterBank a).cachedLines g = s.cachedLines g := by
  unfold State.enterBank
  split
  · split
    · rfl
    · rfl
  · rfl

theorem backInvalidate_none {s : State} {g : Nat} {whole : Bool} (h : s.cachedLines g = []) : s.backInvalidate g whole = s := if_pos h

/-- A unit's write where nothing stands in its way, behind the row boundary that it forces. -/
theorem unitWrite_ok {s : State} {a : Nat} {bs : List Byte} (hw : s.Writable a) (hc : s.cachedLines (granuleOf a) = []) (hb : bs ≠ []) (g : Nat)
    (whole : Bool) : ∃ t, ((s.enterBank a).backInvalidate (granuleOf a) whole).writeIn g false a bs = (.done, t) ∧ (s.enterBank a).Writes t a bs := by
  rw [backInvalidate_none (by rw [enterBank_cached, hc])]
  exact writeAs_ok (enterBank_writable hw a) hb g false _

theorem lanternWrite_nil (f : Nat) (s : State) (a : Nat) : State.lanternWrite f s a [] = (false, 0, s) := by
  cases f
  · rfl
  · rfl

/-- Bytes that lie in one granule go there at once. -/
theorem lanternWrite_ok {s : State} {a : Nat} {bs : List Byte} (f : Nat) (hw : s.Writable a) (hc : s.cachedLines (granuleOf a) = []) (hb : bs ≠ [])
    (hl : a % 256 + bs.length ≤ 256) :
    ∃ t, State.lanternWrite (f + 1) s a bs = (false, bs.length, t) ∧ s.Stores t a bs ∧ t.chambers = s.chambers := by
  have htake : bs.take (256 - a % 256) = bs := List.take_of_length_le (by omega)
  have hdrop : bs.drop (256 - a % 256) = [] := List.drop_of_length_le (by omega)
  obtain ⟨t, ht, heq, -, hst⟩ := unitWrite_ok hw hc hb 3 (wholeGranule a bs)
  refine ⟨t, ?_, ?_, ?_⟩
  · unfold State.lanternWrite
    rw [if_neg hb]
    simp only [htake, hdrop, ht, lanternWrite_nil]
    simp
  · intro b
    rw [hst b, enterBank_mem]
  · rw [heq]
    show (s.enterBank a).chambers = s.chambers
    rw [(serves_enterBank s a).2]

/-- IMG_DATA as the request's words say. -/
theorem imgData_served {s : State} (h : s.Asked 0x21) (hs : s.get Reg.MBX_CTL_STATE ∈ allButBoot) : exec .imgData s = .next (
    match s.staging with
    | none => s.respond 3 []
    | some g =>
      if s.get Reg.SEC_UPD_STATE ≠ 1 ∨ bits (s.mbxWord 1) 31 0 % 8 ≠ 0 ∨ bits (s.mbxWord 1) 39 32 < 1 ∨ 48 < bits (s.mbxWord 1) 39 32 ∨
          s.get Reg.SEC_UPD_SIZE < bits (s.mbxWord 1) 31 0 + bits (s.mbxWord 1) 39 32 then s.respond 3 []
      else
        let bs := (wordsToBytes ((List.range 6).map fun i => s.mbxWord (2 + i))).take (bits (s.mbxWord 1) 39 32)
        let (stuck, _, t) := State.lanternWrite 3 { s with staging := none } (g.base + bits (s.mbxWord 1) 31 0) bs
        if stuck then s.setFull else ({ t with staging := some g }).respond 0 []) :=
  congrArg Host.Outcome.next (mailbox_served h hs)

theorem wordsToBytes_length (ws : List Nat) : (wordsToBytes ws).length = 8 * ws.length := by
  induction ws with
  | nil => rfl
  | cons w ws ih =>
    show (leBytes 8 w ++ wordsToBytes ws).length = _
    rw [List.length_append, leBytes_length, ih, List.length_cons]
    omega

/-- IMG_COMMIT as the staging stands. -/
theorem imgCommit_served {s : State} (sigOk : Bool) (h : s.Asked 0x22) (hs : s.get Reg.MBX_CTL_STATE ∈ allButBoot) :
    exec (.imgCommit sigOk) s = .next (match s.staging with
    | none => s.respond 3 []
    | some g =>
      if s.get Reg.SEC_UPD_STATE ≠ 1 then s.respond 3 []
      else if s.verifyImage (s.stagedReader g.base) sigOk true = 0 then (s.put Reg.SEC_UPD_STATE 2).respond 0 [0]
      else (s.failStaging (s.verifyImage (s.stagedReader g.base) sigOk true)).respond 3 [s.verifyImage (s.stagedReader g.base) sigOk true]) :=
  congrArg Host.Outcome.next (mailbox_served h hs)

/-- A staging that fails is gone, with its cause. -/
theorem failStaging_does (s : State) (c : Nat) :
    (s.failStaging c).get Reg.SEC_UPD_STATE = 6 ∧ (s.failStaging c).get Reg.SEC_UPD_CAUSE = c % 16 ∧
    s.KeepsFields (s.failStaging c) [Reg.SEC_UPD_STATE, Reg.SEC_UPD_CAUSE] ∧
    s.failStaging c = { s with fields := (s.failStaging c).fields, staging := none } := by
  have hg : ∀ e ∈ [(Reg.SEC_UPD_STATE, 6), (Reg.SEC_UPD_CAUSE, c)], (s.failStaging c).get e.1 = e.2 % 2 ^ e.1.w := puts_get _ (by simp) _
  exact ⟨hg (Reg.SEC_UPD_STATE, 6) (by simp), hg (Reg.SEC_UPD_CAUSE, c) (by simp),
    State.KeepsFields.puts _ ((keeps_refl s _).of_fields (u := { s with staging := none }) rfl rfl rfl) (by simp), rfl⟩

/-! ## The flash (R422, R423, R433) -/

theorem flashProgram_get (bs : List Byte) : ∀ (m : Map Byte) (off i : Nat), mapGet erased (flashProgram m off bs) i =
    if off ≤ i ∧ i < off + bs.length then bs.getD (i - off) 0 else mapGet erased m i := by
  induction bs with
  | nil =>
    intro m off i
    rw [if_neg (by simp), flashProgram]
  | cons b bs ih =>
    intro m off i
    rw [flashProgram, ih, mapGet_set, List.length_cons]
    by_cases h : i = off
    · rw [if_neg (by omega), if_pos h, if_pos (by omega), h]
      simp
    · rw [if_neg h]
      by_cases h2 : off + 1 ≤ i ∧ i < off + 1 + bs.length
      · rw [if_pos h2, if_pos (by omega), show i - off = (i - (off + 1)) + 1 by omega]
        simp
      · rw [if_neg h2, if_neg (by omega)]

theorem flashErase_get (s : State) (off n i : Nat) : mapGet erased (s.flashErase off n).flash i =
    if off ≤ i ∧ i < off + n then 0xFF else mapGet erased s.flash i := by
  unfold State.flashErase mapGet
  dsimp only
  rw [mapFind_filter s.flash (fun k => decide (k < off) || decide (off + n ≤ k))]
  by_cases h : off ≤ i ∧ i < off + n
  · rw [if_pos h, if_neg (by simp; omega)]
    rfl
  · rw [if_neg h, if_pos (by simp; omega)]

theorem selectorRecord_length (seq bank : Nat) : (selectorRecord seq bank).length = 64 := by
  simp [selectorRecord, leBytes_length, zeroBytes]

/-- The better of two selector records, where the second is the one found so far (R423). -/
def betterSelector (s : State) (best : Option (Nat × Nat × Nat)) (i : Nat) : Option (Nat × Nat × Nat) :=
  match selectorOf (s.flashRead (64 * i) 64), best with
  | none, _ => best
  | some (q, b), none => some (i, q, b)
  | some (q, b), some (j, p, c) => if p < q then some (i, q, b) else some (j, p, c)

theorem betterSelector_place {s : State} {best : Option (Nat × Nat × Nat)} {i k q b : Nat} (h : betterSelector s best i = some (k, q, b)) :
    k = i ∨ best = some (k, q, b) := by
  unfold betterSelector at h
  split at h
  · exact .inr h
  · simp only [Option.some.injEq, Prod.mk.injEq] at h
    exact .inl h.1.symm
  · split at h
    · simp only [Option.some.injEq, Prod.mk.injEq] at h
      exact .inl h.1.symm
    · exact .inr h

theorem betterSelector_foldl (s : State) (l : List Nat) : ∀ (best : Option (Nat × Nat × Nat)) {k q b : Nat},
    l.foldl (betterSelector s) best = some (k, q, b) → k ∈ l ∨ best = some (k, q, b) := by
  induction l with
  | nil => exact fun _ _ _ _ h => .inr h
  | cons i l ih =>
    intro best k q b h
    rcases ih _ h with h | h
    · exact .inl (List.mem_cons_of_mem _ h)
    · rcases betterSelector_place h with rfl | h
      · exact .inl (List.mem_cons_self ..)
      · exact .inr h

/-- A selector record lies in the selector area. -/
theorem selector_place {s : State} {i q b : Nat} (h : s.selector = some (i, q, b)) : i < 1024 := by
  rcases betterSelector_foldl s s.selectorPlaces none h with h | h
  · unfold State.selectorPlaces at h
    rw [List.mem_eraseDups, List.mem_map] at h
    obtain ⟨e, he, rfl⟩ := h
    have := (List.mem_filter.mp he).2
    simp only [decide_eq_true_eq] at this
    omega
  · cases h

/-- The half of the selector area that is in use, and the SEQ of the next record. -/
def State.selectorNext (s : State) : Nat × Nat :=
  match s.selector with
  | some (i, q, _) => (i / 512, q + 1)
  | none => (0, 0)

theorem selectorNext_half (s : State) : s.selectorNext.1 < 2 := by
  unfold State.selectorNext
  split
  · next h =>
    have := selector_place h
    dsimp only
    omega
  · decide

/-- A selector record goes to the next free place of a half, or to the other half erased (R423). -/
def State.selectIn (s : State) (half seq bank : Nat) : State :=
  match (List.range 512).find? fun i => !s.selectorPlaces.contains (512 * half + i) with
  | some i => { s with flash := flashProgram s.flash (64 * (512 * half + i)) (selectorRecord seq bank) }
  | none => { s with flash := flashProgram (s.flashErase (0x8000 * (1 - half)) 0x8000).flash (0x8000 * (1 - half)) (selectorRecord seq bank) }

theorem select_eq (s : State) (bank : Nat) : s.select bank = s.selectIn s.selectorNext.1 s.selectorNext.2 bank := by
  unfold State.select State.selectorNext State.selectIn
  cases s.selector with
  | none =>
    dsimp only
    generalize List.find? _ _ = o
    cases o
    · rfl
    · rfl
  | some p =>
    obtain ⟨i, q, b⟩ := p
    dsimp only
    generalize List.find? _ _ = o
    cases o
    · rfl
    · rfl

/-- A selector record is written inside the selector area, and nothing but the flash changes. -/
theorem select_does (s : State) (bank : Nat) :
    s.select bank = { s with flash := (s.select bank).flash } ∧ ∀ i, 0x10000 ≤ i → mapGet erased (s.select bank).flash i = mapGet erased s.flash i := by
  have hhalf := selectorNext_half s
  rw [select_eq]
  generalize s.selectorNext.1 = half at hhalf
  unfold State.selectIn
  split
  · next k hk =>
    have hk512 : k < 512 := List.mem_range.mp (List.mem_of_find?_eq_some hk)
    refine ⟨rfl, fun i hi => ?_⟩
    rw [flashProgram_get, selectorRecord_length, if_neg (by omega)]
  · refine ⟨rfl, fun i hi => ?_⟩
    rw [flashProgram_get, selectorRecord_length, if_neg (by omega), flashErase_get, if_neg (by omega)]

theorem imageFlashWrite_none {s : State} (sigOk readable : Bool) (h : s.staging = none) : exec (.imageFlashWrite sigOk readable) s = .next s := by
  show execImageFlashWrite sigOk readable s = _
  unfold execImageFlashWrite
  rw [h]

theorem imageFlashWrite_stage {s : State} (sigOk readable : Bool) {g : Staging} (h : s.staging = some g) :
    exec (.imageFlashWrite sigOk readable) s = .next (
      if s.get Reg.SEC_UPD_STATE = 2 then (s.flashErase (bankBase s.otherBank) 0x4000000).put Reg.SEC_UPD_STATE 3
      else if s.get Reg.SEC_UPD_STATE = 3 then
        ({ s with flash := flashProgram s.flash (bankBase s.otherBank) (s.stagedReader g.base 0 (s.get Reg.SEC_UPD_SIZE)) }).put Reg.SEC_UPD_STATE 4
      else if s.get Reg.SEC_UPD_STATE = 4 then s.readBack sigOk readable
      else s) := by
  show execImageFlashWrite sigOk readable s = _
  unfold execImageFlashWrite
  rw [h]

/-- The staged image programmed into a bank. -/
theorem programmed_get (s : State) (b base n i : Nat) : mapGet erased (flashProgram s.flash b (s.stagedReader base 0 n)) i =
    if b ≤ i ∧ i < b + n then memByte s.mem (base + (i - b)) else mapGet erased s.flash i := by
  unfold State.stagedReader
  rw [flashProgram_get, memRead_length]
  refine if_ctx_congr Iff.rfl (fun h => ?_) fun _ => rfl
  rw [memRead_getD _ _ _ _ (by omega), Nat.add_zero]

/-! ## The attestation tree (R435 to R437) -/

/-- The top leaf that signs a fresh bottom tree, and the step of the thermometer that it may need. -/
def State.topSigned (s : State) : State :=
  { (if (s.nextLeaf + 1) % 8192 = 0 then s.blow Reg.SEC_ATT_THERMO (s.get Reg.SEC_ATT_THERMO + 1) else s) with
    attCounter := s.nextLeaf + 1, topLeaf := s.nextLeaf }

theorem bottomTreeBuild_eq (s : State) : exec .bottomTreeBuild s = .next (
    if s.get Reg.MBX_CTL_STATE < 2 ∨ s.keyBad = true ∨ s.get Reg.SEC_ATT_READY = 1 ∨ 2 ^ 20 ≤ s.nextLeaf then s
    else s.topSigned.puts [(Reg.SEC_ATT_TOP_NEXT, s.topSigned.nextLeaf), (Reg.SEC_ATT_BOTTOM_LEFT, 1024), (Reg.SEC_ATT_READY, 1)]) := by
  have h : (!s.inService || s.keyBad || s.flag Reg.SEC_ATT_READY || decide (2 ^ 20 ≤ s.nextLeaf)) = true ↔
      s.get Reg.MBX_CTL_STATE < 2 ∨ s.keyBad = true ∨ s.get Reg.SEC_ATT_READY = 1 ∨ 2 ^ 20 ≤ s.nextLeaf := by
    simp only [State.inService, State.flag, Bool.or_eq_true, Bool.not_eq_true', decide_eq_false_iff_not, decide_eq_true_eq, beq_iff_eq, not_le, or_assoc]
  show execBottomTreeBuild s = _
  unfold execBottomTreeBuild
  simp only [h]
  rfl

theorem topSigned_get (s : State) (f : FieldRef) : s.topSigned.get f =
    if (s.nextLeaf + 1) % 8192 = 0 ∧ f.key = Reg.SEC_ATT_THERMO.key then (s.get Reg.SEC_ATT_THERMO + 1) % 2 ^ 8 else s.get f := by
  unfold State.topSigned
  by_cases h : (s.nextLeaf + 1) % 8192 = 0
  · simp only [h, if_true, true_and]
    exact blow_get s Reg.SEC_ATT_THERMO f _
  · simp only [h, if_false, false_and]
    rfl

theorem topSigned_eq (s : State) : s.topSigned =
    { s with fields := s.topSigned.fields, straps := s.topSigned.straps, attCounter := s.nextLeaf + 1, topLeaf := s.nextLeaf } := by
  unfold State.topSigned
  split
  · rfl
  · rfl

/-! ## ATTEST -/

theorem attest_served {s : State} (sig : List Byte) (h : s.Asked 0x30) (hs : s.get Reg.MBX_CTL_STATE ∈ [2, 3, 4]) : exec (.attest sig) s = .next (
    if s.flag Reg.SEC_ATT_READY = true then
      if s.mbxWord 5 % 2 ^ 48 % 64 ≠ 0 then s.respond 3 []
      else
        let (stuck, _, t) := State.lanternWrite 16 s (s.mbxWord 5 % 2 ^ 48) (s.reportBody ++ fitBytes 3284 sig)
        if stuck = true then s.setFull else t.useLeaf.respond 0 []
    else if (s.keyBad || decide (2 ^ 20 ≤ s.nextLeaf)) = true then s.respond 2 [] else s.respond 4 []) := by
  rw [← bits_low]
  exact congrArg Host.Outcome.next (mailbox_served h hs)

/-- Lantern's writes serve: they write none but the registers of accesses. -/
theorem serves_lanternWrite (f : Nat) : ∀ (s : State) (a : Nat) (bs : List Byte), State.Serves AccessKey s (State.lanternWrite f s a bs).2.2 := by
  induction f with
  | zero => exact fun s _ _ => .refl _ s
  | succ f ih =>
    intro s a bs
    unfold State.lanternWrite
    split
    · exact .refl _ s
    · extract_lets k piece
      have h := ((serves_enterBank s a).trans (serves_backInvalidate _ (granuleOf a) (wholeGranule a piece))).trans (serves_writeIn _ 3 false a piece)
      generalize State.writeIn _ 3 false a piece = r at h ⊢
      obtain ⟨e, t⟩ := r
      exact State.Serves.trans (serves_ite (h.trans (serves_logErr _ _)) h) (ih _ _ _)

theorem useLeaf_does (s : State) : s.useLeaf.get Reg.SEC_ATT_BOTTOM_LEFT = (s.get Reg.SEC_ATT_BOTTOM_LEFT - 1) % 2 ^ 11 ∧
    s.OnlyFields s.useLeaf [Reg.SEC_ATT_BOTTOM_LEFT, Reg.SEC_ATT_READY] := by
  have hg : ∀ e ∈ [(Reg.SEC_ATT_BOTTOM_LEFT, s.get Reg.SEC_ATT_BOTTOM_LEFT - 1), (Reg.SEC_ATT_READY, b2n (s.get Reg.SEC_ATT_BOTTOM_LEFT - 1 != 0))],
      s.useLeaf.get e.1 = e.2 % 2 ^ e.1.w := puts_get _ (by simp) _
  exact ⟨hg (Reg.SEC_ATT_BOTTOM_LEFT, s.get Reg.SEC_ATT_BOTTOM_LEFT - 1) (by simp), puts_eq _ _, (keeps_refl s _).puts _ (by simp)⟩

/-! ## COLD_RESTART (R414, R446) -/

theorem panelPins_apart : panelPins.Pairwise fun f g => f.key ≠ g.key := by decide

theorem panelPins_narrow : ∀ f ∈ panelPins, f.w = 1 := by decide

/-- What a cold reset leaves before the panel's pins are put back. -/
def State.resetKept (s : State) (cause rail : Nat) : State :=
  { State.reset with
    pending := s.pending, straps := s.straps, freeCount := s.freeCount, flash := s.flash, attCounter := s.attCounter
    devId := s.devId, devKey := s.devKey, hostWrites := s.hostWrites, irq := { s.irq with table := msixTable, pba := 0 }, hostReply := s.hostReply, twinSent := s.twinSent
    tripped := s.tripped, vddMv := s.vddMv, rstLatch := if s.inReset && s.rstLatch.isSome then s.rstLatch else some (cause, rail) }

theorem coldReset_steps (s : State) (cause rail : Nat) : s.coldReset cause rail = (s.resetKept cause rail).puts (panelPins.map fun f => (f, s.get f)) := rfl

theorem resetKept_get (s : State) (cause rail : Nat) (f : FieldRef) : (s.resetKept cause rail).get f = mapGet 0 s.straps f.key := rfl

/-- A cold reset is one in the words of R446. -/
theorem coldReset_does (s : State) (cause rail : Nat) : s.ColdReset (s.coldReset cause rail) cause rail := by
  have hfst : (panelPins.map fun f => (f, s.get f)).map (·.1) = panelPins := by
    rw [List.map_map]
    exact List.map_id _
  rw [coldReset_steps]
  refine ⟨?_, fun f hf => ?_, fun f hf => ?_⟩
  · obtain ⟨F, hF⟩ : ∃ F, (s.resetKept cause rail).puts (panelPins.map fun f => (f, s.get f)) = { s.resetKept cause rail with fields := F } :=
      ⟨_, puts_eq _ _⟩
    have hlatch : (s.inReset && s.rstLatch.isSome) = true ↔ s.inReset = true ∧ s.rstLatch ≠ none := by
      rw [Bool.and_eq_true, Option.isSome_iff_ne_none]
    rw [hF]
    unfold State.resetKept
    simp only [hlatch]
  · refine (puts_get (panelPins.map fun f => (f, s.get f)) (hfst.symm ▸ panelPins_apart) _ (f, s.get f) (List.mem_map_of_mem hf)).trans ?_
    rw [panelPins_narrow f hf, pow_one]
  · refine ((keeps_refl _ panelPins).puts _ (fun e he => ?_) f hf).trans (resetKept_get s cause rail f)
    rw [← hfst]
    exact List.mem_map_of_mem he

end Sys2Proof.Machine
end

section
/-! Each clause of O55 as a lemma over the request, and O55 from them (R67, R413 to R415, R432, R433, R435 to R437). -/

namespace Sys2Proof.Machine

open Sys2Proof

/-- The states of MBX_CTL after BOOT. -/
theorem booted_mem {s : State} (h : s.get Reg.MBX_CTL_STATE = 1 ∨ s.get Reg.MBX_CTL_STATE = 2 ∨ s.get Reg.MBX_CTL_STATE = 3 ∨
    s.get Reg.MBX_CTL_STATE = 4) : s.get Reg.MBX_CTL_STATE ∈ allButBoot := by
  simpa [allButBoot] using h

/-- A command answered by a response. -/
theorem does_respond {s u : State} {c : Instr} {r : Nat} {ws : List Nat} (h : exec c s = .next (u.respond r ws)) :
    Does c s fun t => u.Responds t r ws := ⟨_, h, responds_respond u r ws⟩

/-! ## STATUS, ATTACH, DETACH and RETIRE -/

theorem status_answers {s : State} (h : s.Asked 1) (hb : s.get Reg.MBX_CTL_STATE ∈ [1, 2, 3, 4]) : Does .status s fun t =>
    s.Responds t 0 [s.get Reg.MBX_CTL_STATE, s.readReg 0x10, s.readReg 0x3C00008, s.readReg 0x3C00020, s.readReg 0x6800000] :=
  does_respond ((status_known (.inr (by rw [h.2]; decide))).trans (congrArg _ (mailbox_served h hb)))

theorem attach_answers {s : State} (tail head : Word) (h : s.Asked 2) (hst : s.get Reg.MBX_CTL_STATE ∈ [2, 4]) (hok : s.attachBad = false)
    (hc : s.heldCmpl = []) (hi : s.irqWait = false) (hd : s.detaching = false) (hf : .ledger ∉ s.frameWaits) :
    exec (.attach tail head) s = .next ((s.attached tail.toNat head.toNat).respond 0
      [s.get Reg.MBX_CTL_STATE, s.started, 0, (s.attached tail.toNat head.toNat).readReg 0x3C00020]) := by
  show Host.Outcome.next (s.mailbox 2 [2, 4] _) = _
  rw [mailbox_served h hst, hok, ← attach_eq tail.toNat head.toNat hc hi hd hf]
  rfl

theorem attach_refused {s : State} (tail head : Word) (h : s.Asked 2) (hst : s.get Reg.MBX_CTL_STATE ∈ [2, 4]) (hbad : s.attachBad = true) :
    exec (.attach tail head) s = .next (s.respond 3 []) := by
  show Host.Outcome.next (s.mailbox 2 [2, 4] _) = _
  rw [mailbox_served h hst, hbad]
  rfl

/-- What ATTACH leaves before its response. -/
theorem attached_does (s : State) (tail head : Nat) :
    s.attached tail head = { s with fields := (s.attached tail head).fields, attachments := s.attachments + 1, started := 0, cmplCount := 0
                                    ledgerTail := tail, cmplHead := head, ledgerBad := false } ∧
    (s.attached tail head).get Reg.MBX_CTL_STATE = 3 ∧ (s.attached tail head).get Reg.HST_LINK_ATTACH_GEN = (s.attachments + 1) % 2 ^ 16 ∧
    (s.attached tail head).get Reg.HST_LEDGER_POS_STARTED = 0 ∧
    (s.attached tail head).get Reg.HST_LEDGER_BASE_ADDR = s.mbxWord 1 % 2 ^ 52 ∧
    (s.attached tail head).get Reg.HST_LEDGER_BASE_LOG2 = s.mbxWord 4 % 2 ^ 5 ∧
    (s.attached tail head).get Reg.HST_CMPL_BASE_ADDR = s.mbxWord 2 % 2 ^ 52 ∧
    (s.attached tail head).get Reg.HST_CMPL_BASE_LOG2 = s.mbxWord 4 / 2 ^ 8 % 2 ^ 5 ∧
    (s.attached tail head).get Reg.HST_DOORBELL_ADDR = s.mbxWord 3 % 2 ^ 52 := by
  have hg : ∀ {f : FieldRef} {v : Nat}, (f, v) ∈ s.attachWrites → (s.attached tail head).get f = v % 2 ^ f.w := attached_get s tail head
  have hlog : ∀ x : Nat, x % 2 ^ 5 % 2 ^ 5 = x % 2 ^ 5 := fun x => by omega
  refine ⟨attached_eq s tail head, hg (f := Reg.MBX_CTL_STATE) (v := 3) (by simp [State.attachWrites]),
    hg (f := Reg.HST_LINK_ATTACH_GEN) (by simp [State.attachWrites]), hg (f := Reg.HST_LEDGER_POS_STARTED) (v := 0) (by simp [State.attachWrites]),
    hg (f := Reg.HST_LEDGER_BASE_ADDR) (by simp [State.attachWrites]), ?_,
    hg (f := Reg.HST_CMPL_BASE_ADDR) (by simp [State.attachWrites]), ?_, hg (f := Reg.HST_DOORBELL_ADDR) (by simp [State.attachWrites])⟩
  · refine (hg (f := Reg.HST_LEDGER_BASE_LOG2) (v := bits (s.mbxWord 4) 4 0) (by simp [State.attachWrites])).trans ?_
    rw [bits_low]
    exact hlog _
  · exact (hg (f := Reg.HST_CMPL_BASE_LOG2) (v := bits (s.mbxWord 4) 12 8) (by simp [State.attachWrites])).trans (hlog _)

/-- A DETACH with nothing open is done at once. -/
theorem detach_answers {s : State} (h : s.Asked 3) (hst : s.get Reg.MBX_CTL_STATE = 3) (hc : s.heldCmpl = []) (hi : s.irqWait = false)
    (hf : .ledger ∉ s.frameWaits) (ho : s.openRecs = []) (he : s.endedRecs = []) :
    exec .detach s = .next ((({ s with detaching := false } : State).put Reg.MBX_CTL_STATE 4).respond 0 []) := by
  rw [detach_eq h hst hc hi hf]
  exact congrArg _ (finishDetach_done (s := { s with detaching := true }) rfl ho he hc)

/-! ## Images -/

/-- A staging opened by IMG_BEGIN, in the words of the statement. -/
theorem opens_answers {s v : State} {size obj base bytes : Nat} (hsize : size < 2 ^ 32)
    (h : exec .imgBegin s = .next ((v.openStaging size obj base bytes).respond 0 [])) : Does .imgBegin s fun t => ∃ u : State,
      u.staging = some ⟨base, bytes⟩ ∧ u.get Reg.SEC_UPD_STATE = 1 ∧ u.get Reg.SEC_UPD_SIZE = size ∧ u.get Reg.SEC_UPD_OBJ = obj % 2 ^ 16 ∧
      v.KeepsFields u [Reg.SEC_UPD_STATE, Reg.SEC_UPD_SIZE, Reg.SEC_UPD_OBJ] ∧ u = { v with fields := u.fields, staging := u.staging } ∧
      u.Responds t 0 [] := by
  obtain ⟨h1, h2, h3, h4, h5, h6⟩ := openStaging_does v size obj base bytes
  exact ⟨_, h, _, h1, h2, h3.trans (Nat.mod_eq_of_lt hsize), h4, h5, h6, responds_respond _ 0 []⟩

/-- The request of IMG_DATA fits the staging. -/
def State.imgFits (s : State) : Prop :=
  s.get Reg.SEC_UPD_STATE = 1 ∧ s.mbxWord 1 % 2 ^ 32 % 8 = 0 ∧ 1 ≤ s.mbxWord 1 / 2 ^ 32 % 2 ^ 8 ∧ s.mbxWord 1 / 2 ^ 32 % 2 ^ 8 ≤ 48 ∧
  s.mbxWord 1 % 2 ^ 32 + s.mbxWord 1 / 2 ^ 32 % 2 ^ 8 ≤ s.get Reg.SEC_UPD_SIZE

theorem imgData_refused {s : State} (h : s.Asked 0x21) (hs : s.get Reg.MBX_CTL_STATE ∈ allButBoot) (hno : s.staging = none ∨ ¬s.imgFits) :
    exec .imgData s = .next (s.respond 3 []) := by
  rw [imgData_served h hs]
  cases hg : s.staging with
  | none => rfl
  | some g =>
    dsimp only
    rw [if_pos]
    have hf := hno.resolve_left (by simp [hg])
    unfold State.imgFits at hf
    rw [bits_low]
    unfold bits
    omega

theorem imgData_answers {s : State} {g : Staging} {a : Nat} (h : s.Asked 0x21) (hs : s.get Reg.MBX_CTL_STATE ∈ allButBoot) (hg : s.staging = some g)
    (hf : s.imgFits) (ha : a = g.base + s.mbxWord 1 % 2 ^ 32) (hl : a % 256 + s.mbxWord 1 / 2 ^ 32 % 2 ^ 8 ≤ 256)
    (hw : State.Writable { s with staging := none } a) (hc : State.cachedLines { s with staging := none } (granuleOf a) = []) :
    Does .imgData s fun t => ∃ u : State, u.staging = some g ∧
      State.Stores { s with staging := none } u a ((wordsToBytes ((List.range 6).map fun i => s.mbxWord (2 + i))).take (s.mbxWord 1 / 2 ^ 32 % 2 ^ 8)) ∧
      u.chambers = s.chambers ∧ u.Responds t 0 [] := by
  have hfits := hf
  obtain ⟨f1, f2, f3, f4, f5⟩ := hf
  have he := imgData_served h hs
  have hlen : ((wordsToBytes ((List.range 6).map fun i => s.mbxWord (2 + i))).take (s.mbxWord 1 / 2 ^ 32 % 2 ^ 8)).length =
      s.mbxWord 1 / 2 ^ 32 % 2 ^ 8 := by
    rw [List.length_take, wordsToBytes_length, List.length_map, List.length_range]
    omega
  obtain ⟨t, ht, hst, hch⟩ := lanternWrite_ok 2 hw hc (fun e => by rw [e] at hlen; simp at hlen; omega) (hlen.symm ▸ hl)
  rw [hg] at he
  dsimp only at he
  rw [if_neg (by rw [bits_low]; unfold bits; omega), bits_low, ← ha, show bits (s.mbxWord 1) 39 32 = s.mbxWord 1 / 2 ^ 32 % 2 ^ 8 from rfl, ht] at he
  exact ⟨_, he, { t with staging := some g }, rfl, hst, hch, responds_respond _ 0 []⟩

theorem imgCommit_refused {s : State} (sigOk : Bool) (h : s.Asked 0x22) (hs : s.get Reg.MBX_CTL_STATE ∈ allButBoot)
    (hno : s.staging = none ∨ s.get Reg.SEC_UPD_STATE ≠ 1) : exec (.imgCommit sigOk) s = .next (s.respond 3 []) := by
  rw [imgCommit_served sigOk h hs]
  cases hg : s.staging with
  | none => rfl
  | some g =>
    dsimp only
    rw [if_pos (hno.resolve_left (by simp [hg]))]

theorem imgCommit_staged {s : State} (sigOk : Bool) {g : Staging} (h : s.Asked 0x22) (hs : s.get Reg.MBX_CTL_STATE ∈ allButBoot)
    (hg : s.staging = some g) (h1 : s.get Reg.SEC_UPD_STATE = 1) : exec (.imgCommit sigOk) s = .next (
      if s.verifyImage (s.stagedReader g.base) sigOk true = 0 then (s.put Reg.SEC_UPD_STATE 2).respond 0 [0]
      else (s.failStaging (s.verifyImage (s.stagedReader g.base) sigOk true)).respond 3 [s.verifyImage (s.stagedReader g.base) sigOk true]) := by
  rw [imgCommit_served sigOk h hs, hg]
  dsimp only
  rw [if_neg (not_not.mpr h1)]

/-! ## The tree and reports -/

/-- A fresh bottom tree. -/
theorem bottomTreeBuild_does {s : State} (hst : 2 ≤ s.get Reg.MBX_CTL_STATE) (hk : s.keyBad = false) (hr : s.get Reg.SEC_ATT_READY = 0)
    (hi : s.nextLeaf < 2 ^ 20) : Does .bottomTreeBuild s fun t =>
      t.topLeaf = s.nextLeaf ∧ t.attCounter = s.nextLeaf + 1 ∧ t.get Reg.SEC_ATT_BOTTOM_LEFT = 1024 ∧ t.get Reg.SEC_ATT_READY = 1 ∧
      t.get Reg.SEC_ATT_THERMO =
        (if (s.nextLeaf + 1) % 8192 = 0 then (s.get Reg.SEC_ATT_THERMO + 1) % 2 ^ 8 else s.get Reg.SEC_ATT_THERMO) ∧
      s.KeepsFields t [Reg.SEC_ATT_TOP_NEXT, Reg.SEC_ATT_BOTTOM_LEFT, Reg.SEC_ATT_READY, Reg.SEC_ATT_THERMO] ∧
      t = { s with fields := t.fields, straps := t.straps, attCounter := s.nextLeaf + 1, topLeaf := s.nextLeaf } := by
  have he := bottomTreeBuild_eq s
  rw [if_neg (by simp only [hk, hr, Bool.false_eq_true, false_or]; omega)] at he
  have hg : ∀ e ∈ [(Reg.SEC_ATT_TOP_NEXT, s.topSigned.nextLeaf), (Reg.SEC_ATT_BOTTOM_LEFT, 1024), (Reg.SEC_ATT_READY, 1)],
      (s.topSigned.puts [(Reg.SEC_ATT_TOP_NEXT, s.topSigned.nextLeaf), (Reg.SEC_ATT_BOTTOM_LEFT, 1024), (Reg.SEC_ATT_READY, 1)]).get e.1 =
        e.2 % 2 ^ e.1.w := puts_get _ (by simp) _
  have hkeep := (keeps_refl s.topSigned [Reg.SEC_ATT_TOP_NEXT, Reg.SEC_ATT_BOTTOM_LEFT, Reg.SEC_ATT_READY]).puts
    [(Reg.SEC_ATT_TOP_NEXT, s.topSigned.nextLeaf), (Reg.SEC_ATT_BOTTOM_LEFT, 1024), (Reg.SEC_ATT_READY, 1)] (by simp)
  obtain ⟨F, hF⟩ : ∃ F, s.topSigned.puts [(Reg.SEC_ATT_TOP_NEXT, s.topSigned.nextLeaf), (Reg.SEC_ATT_BOTTOM_LEFT, 1024), (Reg.SEC_ATT_READY, 1)] =
      { s.topSigned with fields := F } := ⟨_, puts_eq _ _⟩
  obtain ⟨G, S, hs⟩ : ∃ G S, s.topSigned = { s with fields := G, straps := S, attCounter := s.nextLeaf + 1, topLeaf := s.nextLeaf } :=
    ⟨_, _, topSigned_eq s⟩
  refine ⟨_, he, ?_, ?_, hg (Reg.SEC_ATT_BOTTOM_LEFT, 1024) (by simp), hg (Reg.SEC_ATT_READY, 1) (by simp), ?_, fun f hf => ?_, ?_⟩
  · rw [hF]
    rfl
  · rw [hF]
    rfl
  · rw [hkeep _ (by simp), topSigned_get]
    simp only [and_true]
  · simp only [List.map_cons, List.map_nil, List.mem_cons, List.not_mem_nil, or_false, not_or] at hf
    obtain ⟨h1, h2, h3, h4⟩ := hf
    rw [hkeep f (by simp only [List.map_cons, List.map_nil, List.mem_cons, List.not_mem_nil, or_false, not_or]; exact ⟨h1, h2, h3⟩),
      topSigned_get, if_neg fun hh => h4 hh.2]
  · rw [hF, hs]

/-- A report written whole uses a leaf. -/
theorem attest_answers {s v : State} {n : Nat} (sig : List Byte) (h : s.Asked 0x30) (hs : s.get Reg.MBX_CTL_STATE ∈ [2, 3, 4])
    (hr : s.get Reg.SEC_ATT_READY = 1) (ha : s.mbxWord 5 % 2 ^ 48 % 64 = 0)
    (hw : State.lanternWrite 16 s (s.mbxWord 5 % 2 ^ 48) (s.reportBody ++ fitBytes 3284 sig) = (false, n, v)) :
    Does (.attest sig) s fun t => ∃ u : State, u.mem = v.mem ∧ u.get Reg.SEC_ATT_BOTTOM_LEFT = (s.get Reg.SEC_ATT_BOTTOM_LEFT - 1) % 2 ^ 11 ∧
      v.OnlyFields u [Reg.SEC_ATT_BOTTOM_LEFT, Reg.SEC_ATT_READY] ∧ u.Responds t 0 [] := by
  have he := attest_served sig h hs
  rw [if_pos (by simp [State.flag, hr]), if_neg (not_not.mpr ha), hw] at he
  have hleft : v.get Reg.SEC_ATT_BOTTOM_LEFT = s.get Reg.SEC_ATT_BOTTOM_LEFT := by
    have hserve := serves_lanternWrite 16 s (s.mbxWord 5 % 2 ^ 48) (s.reportBody ++ fitBytes 3284 sig)
    rw [hw] at hserve
    exact hserve.get (not_access (by simp [Reg.SEC_ATT_BOTTOM_LEFT]) (by simp [Reg.SEC_ATT_BOTTOM_LEFT]) (by decide) (by decide))
  obtain ⟨h1, h2⟩ := useLeaf_does v
  exact ⟨_, he, v.useLeaf, by rw [h2.1], hleft ▸ h1, h2, responds_respond _ 0 []⟩

end Sys2Proof.Machine
end

section
/-! O55 from its clauses: the answers of each command of the mailbox over its request, the stages of a committed image, and the whole. -/

namespace Sys2Proof.Machine

open Sys2Proof

/-- One field written is one written in the words of the statements. -/
theorem onlyFields_put (s : State) (f : FieldRef) (v : Nat) : s.OnlyFields (s.put f v) [f] := ⟨rfl, (keeps_refl s [f]).put (by simp)⟩

/-! ## Commands with several answers -/

theorem retire_answers {s : State} (h : s.Asked 0x11) (hs : s.get Reg.MBX_CTL_STATE ∈ [2, 3, 4]) :
    let n := s.mbxWord 1 % 32
    (n < 28 → bit (s.get Reg.GLB_CHMAP_ENABLED) n = true → Does .retire s fun t => ∃ u : State, u.get (Reg.CHn_STATUS_RETIRE_PENDING n) = 1 ∧
      s.OnlyFields u [Reg.CHn_STATUS_RETIRE_PENDING n] ∧ u.Responds t 0 []) ∧
    (28 ≤ n ∨ bit (s.get Reg.GLB_CHMAP_ENABLED) n = false → Does .retire s fun t => s.Responds t 3 []) := by
  have he := retire_served h hs
  refine ⟨fun hn hb => ?_, fun hno => ?_⟩
  · rw [if_pos ⟨hn, hb⟩] at he
    exact ⟨_, he, _, State.get_put_eq, onlyFields_put s _ 1, responds_respond _ 0 []⟩
  · rw [if_neg] at he
    · exact does_respond he
    · rintro ⟨hn, hb⟩
      rcases hno with hno | hno
      · omega
      · rw [hno] at hb
        cases hb

theorem imgBegin_answers {s : State} (h : s.Asked 0x20) (hs : s.get Reg.MBX_CTL_STATE ∈ allButBoot) :
    let size := s.mbxWord 1 % 2 ^ 32
    let id := s.mbxWord 2 % 2 ^ 16
    let recovery := s.get Reg.SEC_BOOT_RECOVERY = 1
    let opens := fun (t : State) (v : State) (obj base bytes : Nat) => ∃ u : State, u.staging = some ⟨base, bytes⟩ ∧ u.get Reg.SEC_UPD_STATE = 1 ∧
      u.get Reg.SEC_UPD_SIZE = size ∧ u.get Reg.SEC_UPD_OBJ = obj % 2 ^ 16 ∧ v.KeepsFields u [Reg.SEC_UPD_STATE, Reg.SEC_UPD_SIZE, Reg.SEC_UPD_OBJ] ∧
      u = { v with fields := u.fields, staging := u.staging } ∧ u.Responds t 0 []
    (s.flashBusy = true → Does .imgBegin s fun t => s.Responds t 4 []) ∧
    (s.flashBusy = false → 0x4000000 < size → Does .imgBegin s fun t => s.Responds t 3 []) ∧
    (s.flashBusy = false → size ≤ 0x4000000 → recovery → Does .imgBegin s fun t => ∃ v : State,
      v = { s with mem := v.mem, nonzero := v.nonzero, poison := v.poison, pages := v.pages } ∧
      (∀ b, memByte v.mem b = if b < 0x4000000 then 0 else memByte s.mem b) ∧ opens t v 0 0 0x4000000) ∧
    (s.flashBusy = false → size ≤ 0x4000000 → ¬recovery →
      (∀ o, s.stagingObj id size = some o → Does .imgBegin s fun t => opens t s id o.base o.size) ∧
      (s.stagingObj id size = none → Does .imgBegin s fun t => s.Responds t 3 [])) := by
  intro size id recovery opens
  have he := imgBegin_served h hs
  have hsize : s.mbxWord 1 % 2 ^ 32 < 2 ^ 32 := Nat.mod_lt _ (by decide)
  have hrec : s.flag Reg.SEC_BOOT_RECOVERY = true ↔ recovery := by simp [State.flag, recovery]
  refine ⟨fun hb => ?_, fun hb hbig => ?_, fun hb hle hr => ?_, fun hb hle hr => ⟨fun o ho => ?_, fun ho => ?_⟩⟩
  · rw [if_pos hb] at he
    exact does_respond he
  · rw [if_neg (by simp [hb]), if_pos hbig] at he
    exact does_respond he
  · rw [if_neg (by simp [hb]), if_neg (Nat.not_lt.mpr hle), if_pos (hrec.mpr hr)] at he
    obtain ⟨t, ht, ho⟩ := opens_answers hsize he
    refine ⟨t, ht, s.clearFirst, rfl, fun b => ?_, ho⟩
    show memByte (memClear s.mem 0 0x4000000) b = _
    rw [memClear_byte]
    simp
  · rw [if_neg (by simp [hb]), if_neg (Nat.not_lt.mpr hle), if_neg (mt hrec.mp hr), ho] at he
    exact opens_answers hsize he
  · rw [if_neg (by simp [hb]), if_neg (Nat.not_lt.mpr hle), if_neg (mt hrec.mp hr), ho] at he
    exact does_respond he

theorem imgCommit_answers {s : State} (sigOk : Bool) {g : Staging} (h : s.Asked 0x22) (hs : s.get Reg.MBX_CTL_STATE ∈ allButBoot)
    (hg : s.staging = some g) (h1 : s.get Reg.SEC_UPD_STATE = 1) (c : Nat) (hc : c = s.verifyImage (s.stagedReader g.base) sigOk true) :
    (c = 0 → Does (.imgCommit sigOk) s fun t => ∃ u : State, u.get Reg.SEC_UPD_STATE = 2 ∧ s.OnlyFields u [Reg.SEC_UPD_STATE] ∧ u.Responds t 0 [0]) ∧
    (c ≠ 0 → Does (.imgCommit sigOk) s fun t => ∃ u : State, u.get Reg.SEC_UPD_STATE = 6 ∧ u.get Reg.SEC_UPD_CAUSE = c % 16 ∧
      s.KeepsFields u [Reg.SEC_UPD_STATE, Reg.SEC_UPD_CAUSE] ∧ u = { s with fields := u.fields, staging := none } ∧ u.Responds t 3 [c]) := by
  have he := imgCommit_staged sigOk h hs hg h1
  rw [← hc] at he
  refine ⟨fun h0 => ?_, fun h0 => ?_⟩
  · rw [if_pos h0] at he
    exact ⟨_, he, _, State.get_put_eq, onlyFields_put s _ 2, responds_respond _ 0 [0]⟩
  · rw [if_neg h0] at he
    obtain ⟨hst, hcause, hkeep, heq⟩ := failStaging_does s c
    exact ⟨_, he, _, hst, hcause, hkeep, heq, responds_respond _ 3 [c]⟩

/-! ## The stages of a committed image (R433) -/

/-- A stage of a committed image that changes the flash and goes on to the next stage. -/
def State.FlashStage (s t : State) (n : Nat) : Prop :=
  t.get Reg.SEC_UPD_STATE = n ∧ s.KeepsFields t [Reg.SEC_UPD_STATE] ∧ t = { s with fields := t.fields, flash := t.flash }

theorem flashStage_put (s : State) (F : Map Byte) {n : Nat} (hn : n < 8) : s.FlashStage (({ s with flash := F } : State).put Reg.SEC_UPD_STATE n) n :=
  ⟨State.get_put_eq.trans (Nat.mod_eq_of_lt hn),
    State.KeepsFields.put ((keeps_refl s _).of_fields (u := { s with flash := F }) rfl rfl rfl) (by simp), rfl⟩

theorem erase_does {s : State} (sigOk readable : Bool) {g : Staging} (hg : s.staging = some g) (h2 : s.get Reg.SEC_UPD_STATE = 2) :
    Does (.imageFlashWrite sigOk readable) s fun t => s.FlashStage t 3 ∧ ∀ i, mapGet erased t.flash i =
      if bankBase s.otherBank ≤ i ∧ i < bankBase s.otherBank + 0x4000000 then 0xFF else mapGet erased s.flash i := by
  have he := imageFlashWrite_stage sigOk readable hg
  rw [if_pos h2] at he
  exact ⟨_, he, flashStage_put s _ (by decide), flashErase_get s _ _⟩

theorem program_does {s : State} (sigOk readable : Bool) {g : Staging} (hg : s.staging = some g) (h3 : s.get Reg.SEC_UPD_STATE = 3) :
    Does (.imageFlashWrite sigOk readable) s fun t => s.FlashStage t 4 ∧ ∀ i, mapGet erased t.flash i =
      if bankBase s.otherBank ≤ i ∧ i < bankBase s.otherBank + s.get Reg.SEC_UPD_SIZE then memByte s.mem (g.base + (i - bankBase s.otherBank))
      else mapGet erased s.flash i := by
  have he := imageFlashWrite_stage sigOk readable hg
  rw [if_neg (by omega), if_pos h3] at he
  exact ⟨_, he, flashStage_put s _ (by decide), programmed_get s _ _ _⟩

theorem readBack_does {s : State} (sigOk readable : Bool) {g : Staging} (hg : s.staging = some g) (h4 : s.get Reg.SEC_UPD_STATE = 4) :
    (s.verifyBank s.otherBank sigOk readable ≠ 0 → Does (.imageFlashWrite sigOk readable) s fun t => t.staging = none ∧
      t.get Reg.SEC_UPD_STATE = 6 ∧ t.get Reg.SEC_UPD_CAUSE = s.verifyBank s.otherBank sigOk readable % 16 ∧ t.flash = s.flash) ∧
    (s.verifyBank s.otherBank sigOk readable = 0 → Does (.imageFlashWrite sigOk readable) s fun t => t.staging = none ∧
      t.get Reg.SEC_UPD_STATE = 5 ∧ s.KeepsFields t [Reg.SEC_UPD_STATE] ∧ ∀ i, 0x10000 ≤ i → mapGet erased t.flash i = mapGet erased s.flash i) := by
  have he := imageFlashWrite_stage sigOk readable hg
  rw [if_neg (by omega), if_neg (by omega), if_pos h4] at he
  refine ⟨fun h => ?_, fun h => ?_⟩
  · have hb : s.readBack sigOk readable = s.failStaging (s.verifyBank s.otherBank sigOk readable) := if_neg h
    obtain ⟨hst, hcause, -, heq⟩ := failStaging_does s (s.verifyBank s.otherBank sigOk readable)
    rw [hb] at he
    exact ⟨_, he, by rw [heq], hst, hcause, by rw [heq]⟩
  · have hb : s.readBack sigOk readable = ({ s.select s.otherBank with staging := none } : State).put Reg.SEC_UPD_STATE 5 := if_pos h
    obtain ⟨heq, hflash⟩ := select_does s s.otherBank
    rw [hb] at he
    have hkeep : s.KeepsFields ({ s.select s.otherBank with staging := none } : State) [Reg.SEC_UPD_STATE] := by
      rw [heq]
      exact (keeps_refl s _).of_fields rfl rfl rfl
    generalize s.select s.otherBank = u at he hflash hkeep
    exact ⟨_, he, rfl, State.get_put_eq, hkeep.put (List.mem_singleton_self _), hflash⟩

/-! ## ATTEST and COLD_RESTART -/

theorem attest_spent {s : State} (sig : List Byte) (h : s.Asked 0x30) (hs : s.get Reg.MBX_CTL_STATE ∈ [2, 3, 4]) (hr : s.get Reg.SEC_ATT_READY ≠ 1) :
    (s.keyBad = true ∨ 2 ^ 20 ≤ s.nextLeaf → Does (.attest sig) s fun t => s.Responds t 2 []) ∧
    (s.keyBad = false → s.nextLeaf < 2 ^ 20 → Does (.attest sig) s fun t => s.Responds t 4 []) := by
  have he := attest_served sig h hs
  rw [if_neg (by simpa [State.flag] using hr)] at he
  refine ⟨fun hno => ?_, fun hk hi => ?_⟩
  · rw [if_pos (by simpa using hno)] at he
    exact does_respond he
  · rw [if_neg (by simp only [hk, Bool.false_or, decide_eq_true_eq]; omega)] at he
    exact does_respond he

theorem attest_misaligned {s : State} (sig : List Byte) (h : s.Asked 0x30) (hs : s.get Reg.MBX_CTL_STATE ∈ [2, 3, 4]) (hr : s.get Reg.SEC_ATT_READY = 1)
    (ha : s.mbxWord 5 % 2 ^ 48 % 64 ≠ 0) : Does (.attest sig) s fun t => s.Responds t 3 [] := by
  have he := attest_served sig h hs
  rw [if_pos (by simp [State.flag, hr]), if_pos ha] at he
  exact does_respond he

theorem coldRestart_answers {s : State} (h : s.Asked 0x41)
    (hs : s.get Reg.MBX_CTL_STATE = 1 ∨ s.get Reg.MBX_CTL_STATE = 2 ∨ s.get Reg.MBX_CTL_STATE = 4 ∨
      (s.get Reg.MBX_CTL_STATE = 3 ∧ s.get Reg.TWN_STATE_STATE = 6)) :
    Does .coldRestart s fun t => ∃ u : State, s.Responds u 0 [] ∧ u.ColdReset t 7 0 := by
  have hin : s.get Reg.MBX_CTL_STATE ∈ (if s.twinState = 6 then [1, 2, 3, 4] else [1, 2, 4]) := by
    have htw : s.twinState = s.get Reg.TWN_STATE_STATE := rfl
    split
    · rcases hs with h | h | h | ⟨h, -⟩
      · simp [h]
      · simp [h]
      · simp [h]
      · simp [h]
    · rcases hs with h | h | h | ⟨-, h⟩
      · simp [h]
      · simp [h]
      · simp [h]
      · omega
  exact ⟨_, congrArg Host.Outcome.next (mailbox_served h hin), _, responds_respond s 0 [], coldReset_does _ 7 0⟩

/-! ## O55 -/

/-- Settles O55: the commands share one exchange (`mailboxRuns_other`), and each has its clause above. -/
theorem mailboxCommands : Obligations.MailboxCommands := by
  intro s st booted word
  have hin : booted → s.get Reg.MBX_CTL_STATE ∈ allButBoot := booted_mem
  have hin234 : st = 2 ∨ st = 3 ∨ st = 4 → s.get Reg.MBX_CTL_STATE ∈ [2, 3, 4] := by
    intro h
    simpa [st] using h
  refine ⟨fun tail head failed sigOk sig c hc => mailboxRuns_other (mailboxRuns_commands s tail head failed sigOk sig c hc),
    fun h => ?_, fun h hb => ?_, fun hr hc => does_respond (status_unknown hr hc), fun h hb => status_answers h (hin hb),
    fun tail head h hst => ⟨fun hbad => does_respond (attach_refused tail head h (by simpa [st] using hst) hbad), fun hok hc hi hd hf => ?_⟩,
    fun h hst hc hi hf => ⟨fun ho => ?_, fun ho he => ?_⟩, fun failed h hst => does_respond (selftest_served failed h (by simpa [st] using hst)),
    fun h hst => retire_answers h (hin234 hst), fun h hb => imgBegin_answers h (hin hb),
    fun h hb => ⟨fun hno => does_respond (imgData_refused h (hin hb) hno), fun g a v hg hf ha hl hv hw hc => ?_⟩,
    fun sigOk h hb => ⟨fun hno => does_respond (imgCommit_refused sigOk h (hin hb) hno), fun g c hg h1 hc => imgCommit_answers sigOk h (hin hb) hg h1 c hc⟩,
    fun sigOk readable b hb => ⟨imageFlashWrite_none sigOk readable, fun g hg => ?_⟩,
    ⟨fun h => (bottomTreeBuild_eq s).trans (congrArg _ (if_pos h)), bottomTreeBuild_does⟩,
    fun sig a n h hst ha => ?_, coldRestart_answers⟩
  · rw [status_known (.inl h), mailbox_other (asked_ne h)]
  · refine ⟨_, status_known (.inr (by rw [h.2]; decide)), ?_⟩
    rw [mailbox_refused h (by simpa [booted, st] using hb)]
    exact responds_respond s 2 []
  · obtain ⟨heq, h1, h2, h3, h4, h5, h6, h7, h8⟩ := attached_does s tail.toNat head.toNat
    exact ⟨_, attach_answers tail head h (by simpa [st] using hst) hok hc hi hd hf, _, heq, h1, h2, h3, h4, h5, h6, h7, h8, attached_keeps s _ _,
      responds_respond _ 0 _⟩
  · exact (detach_eq h hst hc hi hf).trans (congrArg _ (finishDetach_open (s := { s with detaching := true }) ho))
  · exact ⟨_, detach_answers h hst hc hi hf ho he, _, State.get_put_eq,
      State.KeepsFields.put ((keeps_refl s _).of_fields (u := { s with detaching := false }) rfl rfl rfl) (by simp), rfl, responds_respond _ 0 []⟩
  · subst hv
    exact imgData_answers h (hin hb) hg hf ha hl hw hc
  · subst hb
    exact ⟨erase_does sigOk readable hg, program_does sigOk readable hg, fun h4 => (readBack_does sigOk readable hg h4).1,
      fun h4 => (readBack_does sigOk readable hg h4).2⟩
  · subst ha
    exact ⟨fun hr => (attest_spent sig h (hin234 hst) hr).1, fun hr => (attest_spent sig h (hin234 hst) hr).2,
      attest_misaligned sig h (hin234 hst), fun v hr ha hw => attest_answers sig h (hin234 hst) hr ha hw⟩

end Sys2Proof.Machine
end

section
/-! O50 fails: a retrain counts the bytes sent of every port, with none of them anew, and so cuts a count that is wider than its field. -/

namespace Sys2Proof.Machine

open Sys2Proof

/-- A device in Run, as after reset but for Halgar port 0, which is UP8 with nothing on its way, and whose count of MiB sent stands past its
32 bits. -/
def overwideCount : State :=
  { State.reset with
    fields := [((Reg.HGPn_STATUS_STATE 0).key, 2), ((Reg.HGPn_PAYLOAD_TX_MIB 0).key, 2 ^ 32), (Reg.PCR_PSTATE_STATE.key, 0),
      (Reg.PCR_PSTATE_HOLD.key, 0)] }

theorem overwideCount_inRun : overwideCount.InRun := by
  constructor
  · decide
  · decide

theorem overwideCount_up : overwideCount.portUp 0 = true := by decide

theorem overwideCount_before : overwideCount.get (Reg.HGPn_PAYLOAD_TX_MIB 0) = 2 ^ 32 := by decide

/-- The retrain leaves the low 32 bits of the count. -/
theorem overwideCount_after : (overwideCount.portDown 0 1).get (Reg.HGPn_PAYLOAD_TX_MIB 0) = 0 := by decide

/-- Refutes O50: a retrain of port 0 in `overwideCount` changes HGPn_PAYLOAD_TX_MIB beside the port's state. Every port that is pumped after the
reroute adds the MiB sent, none here, to that count modulo its width, so a count past its width does not keep its value. No write makes such a
count, since each is cut to its field, but the statement is of every state. -/
theorem not_halgarPorts : ¬Obligations.HalgarPorts := by
  intro h
  obtain ⟨-, -, -, -, -, -, -, -, -, hlast⟩ := h overwideCount 0 overwideCount_inRun
  obtain ⟨hretrain, -⟩ := hlast rfl fun m _ => ⟨rfl, show Port.reset.txBytes < 2 ^ 20 by decide⟩
  obtain ⟨t, ht, -, hkeeps, -⟩ := hretrain overwideCount_up
  have he : exec (.portRetrain 0) overwideCount = .next (overwideCount.portDown 0 1) :=
    congrArg Host.Outcome.next (if_pos overwideCount_up)
  obtain rfl : overwideCount.portDown 0 1 = t := Host.Outcome.next.inj (he.symm.trans ht)
  have hkept := hkeeps (Reg.HGPn_PAYLOAD_TX_MIB 0) (by simp)
  rw [overwideCount_before, overwideCount_after] at hkept
  cases hkept

end Sys2Proof.Machine
end

section
/-! The swap of the weight tiles (R75, R79, R80), and from it O24. -/

namespace Sys2Proof.Machine

open Sys2Proof

/-! ## What the checks of an active tile change -/

/-- A chamber without its array queues and the present bands of its active tile. -/
def Chamber.unbanded (c : Chamber) : Chamber := { c with mmas := [], active := ⟨0, c.active.data⟩ }

/-- `t` differs from `s` in the array queues and the active bands of chamber `n`, in what records its bands and in its violations alone. -/
def State.Cuts (s t : State) (n : Nat) : Prop :=
  s.OnlyChamber t n ∧ (t.ch n).unbanded = (s.ch n).unbanded ∧ s.KeepsFields t (Reg.CHn_WTILE_BANDS n :: violFields n)

theorem cuts_refl (s : State) (n : Nat) : s.Cuts s n := ⟨only_refl s n, rfl, keeps_refl s _⟩

theorem State.Cuts.trans {s t u : State} {n : Nat} (h : s.Cuts t n) (k : t.Cuts u n) : s.Cuts u n :=
  ⟨h.1.trans k.1, k.2.1.trans h.2.1, h.2.2.trans k.2.2⟩

theorem cuts_modCh (s : State) (n : Nat) (f : Chamber → Chamber) (h : ∀ c, (f c).unbanded = c.unbanded) : s.Cuts (s.modCh n f) n :=
  ⟨(only_refl s n).modCh f, by rw [ch_modCh_eq, h], (keeps_refl s _).of_fields rfl rfl rfl⟩

theorem cuts_violCh (s : State) (n k a : Nat) : s.Cuts (s.violCh n k a) n :=
  ⟨(only_refl s n).violCh n k a, by rw [ch_violCh], (keeps_refl s _).violCh fun _ hf => List.mem_cons_of_mem _ hf⟩

theorem cuts_bands (s : State) (n v : Nat) : s.Cuts (s.put (Reg.CHn_WTILE_BANDS n) v) n :=
  ⟨(only_refl s n).put _ _, rfl, (keeps_refl s _).put (List.mem_cons_self ..)⟩

theorem cuts_cutMask (s : State) (n : Nat) : s.Cuts (s.cutMask n) n := by
  unfold State.cutMask
  extract_lets m m'
  split
  · exact cuts_refl s n
  · refine State.Cuts.trans (State.Cuts.trans ?_ (cuts_bands _ n m')) (cuts_violCh _ n 0 0)
    exact cuts_modCh s n _ fun _ => rfl

/-- A cut of the bands leaves the array queues. -/
theorem cutMask_mmas (s : State) (n : Nat) : ((s.cutMask n).ch n).mmas = (s.ch n).mmas := by
  unfold State.cutMask
  extract_lets m m'
  split
  · rfl
  · rw [ch_violCh, State.ch_put, ch_modCh_eq]

/-- An mma that meets the active tile changes the queues, its bands and the violations alone (R75, R80, R81). -/
theorem cuts_checkMma (s : State) (n : Nat) (m : Mma) : s.Cuts (s.checkMma n m) n := by
  have hset := cuts_modCh s n (fun c => c.setMma { m with checked := true }) fun _ => rfl
  have hdrop := cuts_modCh s n (fun c => c.dropMma m) fun _ => rfl
  unfold State.checkMma
  dsimp only
  split
  · split
    · exact hset
    · exact hset.trans (cuts_violCh _ n 0 0)
  · split
    · exact hdrop.trans (cuts_violCh _ n 0 0)
    · split
      · exact hset
      · exact hset.trans (cuts_cutMask _ n)

/-- What the checks of an active tile leave in its chamber. -/
theorem keeps_of_unbanded {c d : Chamber} (h : c.unbanded = d.unbanded) :
    c.shadow = d.shadow ∧ c.active.data = d.active.data ∧ c.lmem = d.lmem ∧ c.accA = d.accA ∧ c.accB = d.accB ∧
    c.sregs = d.sregs ∧ c.vregs = d.vregs ∧ c.ops = d.ops :=
  ⟨(congrArg Chamber.shadow h :), (congrArg (fun k : Chamber => k.active.data) h :), (congrArg Chamber.lmem h :),
    (congrArg Chamber.accA h :), (congrArg Chamber.accB h :), (congrArg Chamber.sregs h :), (congrArg Chamber.vregs h :),
    (congrArg Chamber.ops h :)⟩

/-! ## The swap itself -/

/-- The tile that a swap makes the active one (R80). -/
def State.swapTile (s : State) (n : Nat) : WTile := if s.get (Reg.CHn_WTILE_SHADOW n) == 0 then WTile.reset else (s.ch n).shadow

/-- The fields that a swap writes, beside its counter. -/
def State.swapFields (s : State) (n : Nat) : List (FieldRef × Nat) :=
  [(Reg.CHn_WTILE_VALID n, 1), (Reg.CHn_WTILE_UNLOADED n, b2n (s.get (Reg.CHn_WTILE_SHADOW n) == 0)),
   (Reg.CHn_WTILE_TYPE n, s.get (Reg.CHn_WTILE_SHADOW_TYPE n)), (Reg.CHn_WTILE_SHADOW n, 0), (Reg.CHn_WTILE_BANDS n, (s.swapTile n).bands)]

/-- The two halves exchanged, before the swap is counted. -/
def State.exchange (s : State) (n : Nat) : State :=
  (s.modCh n fun c => { c with active := s.swapTile n, shadow := WTile.reset }).puts (s.swapFields n)

/-- The two halves exchanged and counted, before the tile is checked and the swapping entry goes on. -/
def State.swapTiles (s : State) (n : Nat) : State := (s.exchange n).count (Reg.CHn_SWAP_COUNT_COUNT n) 1

theorem ch_puts (s : State) (l : List (FieldRef × Nat)) (m : Nat) : (s.puts l).ch m = s.ch m := by
  rw [puts_eq]
  rfl

/-- The halves exchanged, and the new active tile counted or cut (R75, R80). -/
def State.swapChecked (s : State) (n : Nat) : State :=
  if s.get (Reg.CHn_WTILE_SHADOW n) == 0 then (s.swapTiles n).violCh n 0 0
  else if (s.swapTiles n).get (Reg.CHn_WTILE_TYPE n) = 4 then s.swapTiles n else (s.swapTiles n).cutMask n

theorem cuts_swapChecked (s : State) (n : Nat) : (s.swapTiles n).Cuts (s.swapChecked n) n := by
  unfold State.swapChecked
  split
  · exact cuts_violCh _ n 0 0
  · split
    · exact cuts_refl _ n
    · exact cuts_cutMask _ n

theorem swapChecked_mmas (s : State) (n : Nat) : ((s.swapChecked n).ch n).mmas = ((s.swapTiles n).ch n).mmas := by
  unfold State.swapChecked
  split
  · rw [ch_violCh]
  · split
    · rfl
    · exact cutMask_mmas _ n

theorem doSwap_wsw (s : State) (n : Nat) {m : Mma} (h : m.wsw = true) : s.doSwap n m = (s.swapChecked n).modCh n fun c => c.dropMma m := by
  unfold State.doSwap
  exact if_pos h

/-- Beyond the exchange a swap changes the queues, the active bands and the violations alone. -/
theorem cuts_doSwap (s : State) (n : Nat) (m : Mma) : (s.swapTiles n).Cuts (s.doSwap n m) n := by
  by_cases h : m.wsw = true
  · rw [doSwap_wsw s n h]
    exact (cuts_swapChecked s n).trans (cuts_modCh _ n _ fun _ => rfl)
  · unfold State.doSwap
    dsimp only
    rw [if_neg h]
    refine State.Cuts.trans ((cuts_swapChecked s n).trans ?_) (cuts_checkMma _ n _)
    exact cuts_modCh _ n _ fun _ => rfl

theorem swapTiles_ch (s : State) (n : Nat) :
    (s.swapTiles n).ch n = { s.ch n with active := s.swapTile n, shadow := WTile.reset } := by
  unfold State.swapTiles State.exchange
  rw [ch_count, ch_puts]
  exact ch_modCh_eq

theorem swapTiles_only (s : State) (n : Nat) : s.OnlyChamber (s.swapTiles n) n :=
  (State.OnlyChamber.puts _ ((only_refl s n).modCh _)).put _ _

theorem exchange_keeps (s : State) (n : Nat) : s.KeepsFields (s.exchange n) ((s.swapFields n).map (·.1)) :=
  State.KeepsFields.puts _ ((keeps_refl s _).of_fields rfl rfl rfl) fun _ he => List.mem_map_of_mem he

/-- The counter of swaps is none of the fields that the exchange writes. -/
theorem swapFields_ne_count (s : State) (n : Nat) : ∀ e ∈ s.swapFields n, e.1.key ≠ (Reg.CHn_SWAP_COUNT_COUNT n).key := by
  simp [State.swapFields]
  omega

/-- A field that a swap writes reads as written. -/
theorem swapTiles_get (s : State) (n : Nat) {f : FieldRef} {v : Nat} (hf : (f, v) ∈ s.swapFields n) :
    (s.swapTiles n).get f = v % 2 ^ f.w := by
  refine (State.get_put_ne (swapFields_ne_count s n _ hf)).trans (puts_get (s.swapFields n) ?_ _ (f, v) hf)
  simp [State.swapFields]

theorem swapTiles_count (s : State) (n : Nat) :
    (s.swapTiles n).get (Reg.CHn_SWAP_COUNT_COUNT n) = (s.get (Reg.CHn_SWAP_COUNT_COUNT n) + 1) % 2 ^ 64 := by
  have hold : (s.exchange n).get (Reg.CHn_SWAP_COUNT_COUNT n) = s.get (Reg.CHn_SWAP_COUNT_COUNT n) := by
    refine exchange_keeps s n _ fun hm => ?_
    obtain ⟨f, hf, hk⟩ := List.mem_map.mp hm
    obtain ⟨e, he, rfl⟩ := List.mem_map.mp hf
    exact swapFields_ne_count s n e he hk
  rw [← hold]
  exact State.get_put_eq

theorem swapTiles_keeps (s : State) (n : Nat) :
    s.KeepsFields (s.swapTiles n) ((s.swapFields n).map (·.1) ++ [Reg.CHn_SWAP_COUNT_COUNT n]) :=
  ((exchange_keeps s n).mono fun _ hf => List.mem_append_left _ hf).put (List.mem_append_right _ (List.mem_singleton_self _))

/-! ## The command -/

theorem swapper_of_heads {c : Chamber} {m : Mma} (ha : c.head false = some m) (hb : c.head true = some m) (hs : m.swap = true)
    (hd : m.swapped = false) (hi : c.interlocked m = false) : c.swapper = some m := by
  unfold Chamber.swapper
  simp [ha, hb, hs, hd, hi]

theorem exec_swap {ch : Fin 28} {s : State} {m : Mma} (h : (s.ch ch).swapper = some m) (hh : s.held = false) :
    exec (.swap ch) s = .next (if s.get (Reg.CHn_WTILE_SHADOW ch) = 1 then s else s.doSwap ch m) := by
  show execSwap ch s = _
  unfold execSwap
  simp [h, hh]

/-- Settles O24: the halves are exchanged by `State.swapTiles`, and what follows changes queues, bands and violations alone. -/
theorem swapMovesTheShadowTile : Obligations.SwapMovesTheShadowTile := by
  unfold Obligations.SwapMovesTheShadowTile
  intro ch s m ha hb hs hd hi hh shadow
  have he := exec_swap (swapper_of_heads ha hb hs hd hi) hh
  refine ⟨fun h1 => by rw [he, if_pos h1], fun h1 => ⟨s.doSwap ch m, by rw [he, if_neg h1], ?_⟩⟩
  obtain ⟨honly, hch, hkeeps⟩ := cuts_doSwap s ch m
  obtain ⟨hshadow, hdata, hlmem, haccA, haccB, hsregs, hvregs, hops⟩ := keeps_of_unbanded hch
  rw [swapTiles_ch] at hshadow hdata hlmem haccA haccB hsregs hvregs hops
  have hget : ∀ {f : FieldRef} {v : Nat}, (f, v) ∈ s.swapFields ch → f.key ∉ (Reg.CHn_WTILE_BANDS ch :: violFields ch).map FieldRef.key →
      (s.doSwap ch m).get f = v % 2 ^ f.w := fun hf hk => (hkeeps _ hk).trans (swapTiles_get s ch hf)
  refine ⟨hshadow, ?_, ?_, ?_, ?_, ?_, ?_, fun hw => ?_, (swapTiles_only s ch).trans honly, hlmem, haccA, haccB, hsregs, hvregs, hops, ?_⟩
  · rw [hdata, State.swapTile]
    simp only [beq_iff_eq]
    split <;> rfl
  · exact hget (v := 0) (by simp [State.swapFields]) (by simp [violFields]; omega)
  · exact hget (v := 1) (by simp [State.swapFields]) (by simp [violFields]; omega)
  · rw [hget (v := b2n (shadow == 0)) (by simp [State.swapFields, shadow]) (by simp [violFields]; omega)]
    by_cases h0 : shadow = 0 <;> simp [h0, b2n]
  · exact hget (by simp [State.swapFields]) (by simp [violFields]; omega)
  · rw [hkeeps _ (by simp [violFields]; omega), swapTiles_count]
  · rw [doSwap_wsw s ch hw, ch_modCh_eq, Chamber.dropMma, swapChecked_mmas, swapTiles_ch]
  · refine (State.KeepsFields.mono (swapTiles_keeps s ch) ?_).trans (hkeeps.mono ?_)
    · simp [State.swapFields]
    · simp +contextual

end Sys2Proof.Machine
end

section
/-! Vectors that enter an array (R45, R73, R74, R83, R86 to R88, R107, R108), and from them O25. -/

namespace Sys2Proof.Machine

open Sys2Proof

/-! ## What a vector brings to each column -/

/-- A column of a vector in 16-bit mode is one chunk sum over the present rows (R108). -/
theorem vector_chunk {c : Chamber} {m : Mma} {cols j k : Nat} (hr : windowRows c.active.bands ≠ []) (hm : mode16 m.atype m.wtype = true)
    (hk : k < cols) : (c.vector m cols j)[k]? = some (chunkSum ((windowRows c.active.bands).map fun i =>
      mulVal (decodeElem m.atype (c.actElem m j i)) (decodeElem m.wtype (mapGet 0 c.active.data (i * 256 + k))))) := by
  unfold Chamber.vector
  simp [hr, hm, hk, Function.comp_def]

/-- A column of a vector of an integer pair is the exact sum over the present rows, modulo 2^32 (R107). -/
theorem vector_exact {c : Chamber} {m : Mma} {cols j k : Nat} (hr : windowRows c.active.bands ≠ []) (hm : mode16 m.atype m.wtype = false)
    (hk : k < cols) : (c.vector m cols j)[k]? = some (BitVec.ofInt 32 ((windowRows c.active.bands).map fun i =>
      intElem m.atype (c.actElem m j i) * intElem m.wtype (mapGet 0 c.active.data (i * 256 + k))).sum, Flags.none) := by
  unfold Chamber.vector
  simp [hr, hm, hk, List.sum_eq_foldl, List.foldl_map]

/-! ## The row sent -/

/-- What the next vector of an mma brings to an array: zeros where no band is present and ZERO is set (R74). -/
def State.nextVector (s : State) (n : Nat) (b : Bool) (m : Mma) : List (Lane × Flags) :=
  let cols := (if !mode16 m.atype m.wtype then 2 else 1) * s.arrWidth n b
  let vs := (s.ch n).vector m cols (m.next b)
  if vs.isEmpty && m.zero then List.replicate cols ((0 : Lane), Flags.none) else vs

/-- The row that the next vector of an mma sends into an array. -/
def State.nextRow (s : State) (n : Nat) (b : Bool) (m : Mma) : InRow :=
  ⟨m.seq, m.pc, m.accRow b (m.next b), !mode16 m.atype m.wtype, m.zero, (s.nextVector n b m).map (·.1), (s.nextVector n b m).map (·.2)⟩

/-- The counter of an array's cycles. -/
def cycField (n : Nat) (b : Bool) : FieldRef := if b then Reg.CHn_ARR_CYC_B_COUNT n else Reg.CHn_ARR_CYC_A_COUNT n

theorem enterRow_eq {s : State} {n : Nat} {b : Bool} {m : Mma} (h : m.next b < m.last b) :
    s.enterRow n b m = (m.pass b, (s.modCh n fun c => (c.pushRow b (s.nextRow n b m)).markFed b).count (cycField n b) 1) := by
  unfold State.enterRow
  rw [if_neg (by omega)]
  rfl

theorem passMasked_unmasked {s : State} {n : Nat} {b : Bool} {m : Mma} (h : m.msk = false) (f : Nat) : s.passMasked n b f m = (m, s) := by
  cases f with
  | zero => rfl
  | succ f => unfold State.passMasked; simp [Chamber.maskedRow, h]

theorem pass_msk (m : Mma) (b : Bool) : (m.pass b).msk = m.msk := by
  cases b
  · rfl
  · rfl

/-- An mma without a mask feeds its next row and goes on. -/
theorem feed_unmasked {s : State} {n : Nat} {b : Bool} {m : Mma} (hm : m.msk = false) (h : m.next b < m.last b) :
    s.feed n b m = ((s.modCh n fun c => (c.pushRow b (s.nextRow n b m)).markFed b).count (cycField n b) 1).modCh n fun c =>
      c.setMma (m.pass b) := by
  unfold State.feed
  rw [passMasked_unmasked hm]
  dsimp only
  rw [enterRow_eq h]
  dsimp only
  rw [passMasked_unmasked ((pass_msk m b).trans hm)]

theorem fed_ch {s : State} {n : Nat} {b : Bool} {m : Mma} (hm : m.msk = false) (h : m.next b < m.last b) :
    (s.feed n b m).ch n = (((s.ch n).pushRow b (s.nextRow n b m)).markFed b).setMma (m.pass b) := by
  rw [feed_unmasked hm h, ch_modCh_eq, ch_count, ch_modCh_eq]

theorem feed_only {s : State} {n : Nat} {b : Bool} {m : Mma} (hm : m.msk = false) (h : m.next b < m.last b) :
    s.OnlyChamber (s.feed n b m) n := by
  rw [feed_unmasked hm h]
  exact (((only_refl s n).modCh _).put _ _).modCh _

theorem feed_cycles {s : State} {n : Nat} {b : Bool} {m : Mma} (hm : m.msk = false) (h : m.next b < m.last b) :
    (s.feed n b m).get (cycField n b) = (s.get (cycField n b) + 1) % 2 ^ 64 := by
  rw [feed_unmasked hm h, get_modCh]
  refine State.get_put_eq.trans ?_
  rw [get_modCh, show (cycField n b).w = 64 by cases b <;> rfl]

/-- What a row sent into an array leaves in the chamber. -/
theorem fed_chamber (c : Chamber) (b : Bool) (r : InRow) (m : Mma) : let d := ((c.pushRow b r).markFed b).setMma m
    (if b then d.inflightB else d.inflightA) = (if b then c.inflightB else c.inflightA) ++ [r] ∧ (if b then d.fedB else d.fedA) = true ∧
    d.lmem = c.lmem ∧ d.accA = c.accA ∧ d.accB = c.accB := by
  cases b
  · exact ⟨rfl, rfl, rfl, rfl, rfl⟩
  · exact ⟨rfl, rfl, rfl, rfl, rfl⟩

/-! ## The columns of the row sent -/

/-- A column that the vector has is a column of the row sent. -/
theorem nextRow_vals {s : State} {n : Nat} {b : Bool} {m : Mma} {k : Nat} {x : Lane × Flags}
    (h : ((s.ch n).vector m ((if !mode16 m.atype m.wtype then 2 else 1) * s.arrWidth n b) (m.next b))[k]? = some x) :
    (s.nextRow n b m).vals[k]? = some x.1 := by
  unfold State.nextRow State.nextVector
  dsimp only
  rw [if_neg fun he => ?_, List.getElem?_map, h]
  · rfl
  · rw [List.isEmpty_iff.mp (Bool.and_eq_true_iff.mp he).1] at h
    cases h

theorem nextRow_chunk {s : State} {n : Nat} {b : Bool} {m : Mma} {k : Nat} (hr : windowRows (s.ch n).active.bands ≠ [])
    (hw : (s.nextRow n b m).wide = false) (hk : k < s.arrWidth n b) : (s.nextRow n b m).vals[k]? = some
      (chunkSum ((windowRows (s.ch n).active.bands).map fun i => mulVal (decodeElem m.atype ((s.ch n).actElem m (m.next b) i))
        (decodeElem m.wtype (mapGet 0 (s.ch n).active.data (i * 256 + k))))).1 := by
  have hm : mode16 m.atype m.wtype = true := by simpa [State.nextRow] using hw
  exact nextRow_vals (vector_chunk hr hm (by simpa [hm] using hk))

theorem nextRow_exact {s : State} {n : Nat} {b : Bool} {m : Mma} {k : Nat} (hr : windowRows (s.ch n).active.bands ≠ [])
    (hw : (s.nextRow n b m).wide = true) (hk : k < 2 * s.arrWidth n b) : (s.nextRow n b m).vals[k]? = some
      (BitVec.ofInt 32 ((windowRows (s.ch n).active.bands).map fun i => intElem m.atype ((s.ch n).actElem m (m.next b) i) *
        intElem m.wtype (mapGet 0 (s.ch n).active.data (i * 256 + k))).sum) := by
  have hm : mode16 m.atype m.wtype = false := by simpa [State.nextRow] using hw
  exact nextRow_vals (vector_exact hr hm (by simpa [hm] using hk))

theorem nextRow_wide (s : State) (n : Nat) (b : Bool) (m : Mma) : (s.nextRow n b m).wide = decide (2 < m.atype ∧ 2 < m.wtype) := by
  rw [Bool.eq_iff_iff]
  simp [State.nextRow, mode16]

/-! ## The command -/

theorem mayFeed_head {s : State} {n : Nat} {b : Bool} {m : Mma} (hh : (s.ch n).head b = some m) (hw : m.wsw = false)
    (hs : m.swap = true → m.swapped = true) (hi : (s.ch n).interlocked m = false) (hheld : s.held = false) : s.mayFeed n b = some m := by
  have hsw : (m.swap && !m.swapped) = false := by cases h : m.swap <;> simp [hs, h]
  unfold State.mayFeed
  simp [hh, hw, hsw, hi, hheld]

/-- The checked entry at the head feeds its next vector; ECC errors of what was read follow. -/
theorem exec_vectorEntry {ch : Fin 28} {b : Bool} {us : List Upset} {as : List AccUpset} {s : State} {m : Mma}
    (hf : s.mayFeed ch b = some m) (hh : (s.ch ch).head b = some m) (hc : m.checked = true) :
    ∃ us' as', exec (.vectorEntry ch b us as) s = .next (((s.feed ch b m).upsets ch m.pc 0 us').accUpsets ch m.pc 0 as') := by
  refine ⟨us.filter fun u => upsetMeets u false (m.touched (m.next b)),
    as.filter fun u => accMeets u b (physRows (!mode16 m.atype m.wtype) (m.accRow b (m.next b))), ?_⟩
  show execVectorEntry ch b us as s = _
  unfold execVectorEntry
  simp [hf, hh, hc]

theorem cycField_not_own (n : Nat) (b : Bool) : ¬Own n (cycField n b).key := by
  cases b
  · simp [Own, bundleFields, cycField]; omega
  · simp [Own, bundleFields, cycField]; omega

/-- Settles O25: the entry sends `State.nextRow`, and ECC errors found change neither it nor the chamber's memories. -/
theorem vectorEntersAnArray : Obligations.VectorEntersAnArray := by
  unfold Obligations.VectorEntersAnArray
  intro ch b us as s m hh hw hs hi hheld hc hmsk hlt
  obtain ⟨us', as', he⟩ := exec_vectorEntry (us := us) (as := as) (mayFeed_head hh hw hs hi hheld) hh hc
  obtain ⟨hin, hfed, hlmem, haccA, haccB⟩ := fed_chamber (s.ch ch) b (s.nextRow ch b m) (m.pass b)
  have htame := ((tame_upsets (s := s.feed ch b m) ch m.pc 0 us').trans (tame_accUpsets ch m.pc 0 as')).2 ch
  rw [fed_ch hmsk hlt] at htame
  have hown := (within_upsets (s := s.feed ch b m) ch m.pc 0 us').trans (within_accUpsets ch m.pc 0 as')
  exact ⟨_, he, s.nextRow ch b m, (congrArg (fun c => if b then c.inflightB else c.inflightA) htame :).trans hin,
    by cases b <;> rfl, rfl, nextRow_wide s ch b m, fun hr k => ⟨nextRow_exact hr, nextRow_chunk hr⟩,
    (congrArg (fun c => if b then c.fedB else c.fedA) htame :).trans hfed,
    (hown.get (cycField_not_own ch b)).trans (feed_cycles hmsk hlt), (congrArg Chamber.lmem htame :).trans hlmem,
    (congrArg Chamber.accA htame :).trans haccA, (congrArg Chamber.accB htame :).trans haccB,
    only_accUpsets as' (only_upsets us' (feed_only hmsk hlt))⟩

end Sys2Proof.Machine
end

section
/-! Rows that reach their accumulators (R88, R91, R92, R107, R110), and from them O26. -/

namespace Sys2Proof.Machine

open Sys2Proof

/-! ## Where the columns of a row lie (R92) -/

/-- The accumulator row that takes column `k` of a row: an integer pair's columns past 127 go to the next one. -/
def InRow.rowOf (r : InRow) (k : Nat) : Nat := if r.wide then 2 * r.row + k / 128 else r.row

theorem place_eq {r : InRow} {k : Nat} (hk : r.wide = false → k < 128) : r.place k = 128 * r.rowOf k + k % 128 := by
  unfold InRow.place InRow.rowOf
  cases hw : r.wide
  · simp [Nat.mod_eq_of_lt (hk hw)]
  · rfl

theorem place_injective (r : InRow) {i j : Nat} (h : r.place i = r.place j) : i = j := by
  unfold InRow.place at h
  split at h
  · omega
  · omega

/-! ## The columns applied one by one -/

/-- What an accumulator becomes under a column of a row: ZERO and zero writes replace, the rest add (R88, R107, R110). -/
def InRow.value (r : InRow) (old c : Lane) : Lane := if r.zero then c else if r.wide then old + c else (fadd old c).1

theorem update_fst (r : InRow) (old c : Lane) (f : Flags) : (r.update old c f).1 = r.value old c := by
  unfold InRow.update InRow.value
  split
  · rfl
  · split
    · rfl
    · rfl

/-- A place that no column takes keeps its accumulator. -/
theorem apply_get_other (r : InRow) {a : Nat} (vs : List (Lane × Flags)) : ∀ (i : Nat) (x : Map Lane × RowFlags × Flags),
    (∀ k < vs.length, a ≠ r.place (i + k)) → mapGet 0 (r.apply vs i x).1 a = mapGet 0 x.1 a := by
  induction vs with
  | nil => exact fun _ _ _ => rfl
  | cons v vs ih =>
    intro i x h
    rw [InRow.apply, ih _ _ fun k hk => ?_]
    · have h0 : a ≠ r.place i := h 0 (by simp)
      rw [mapGet_set, if_neg h0]
    · rw [Nat.add_right_comm, Nat.add_assoc]
      exact h (k + 1) (by simpa using hk)

/-- The place of a column takes that column's value over the accumulator that stood there. -/
theorem apply_get_place (r : InRow) (vs : List (Lane × Flags)) : ∀ (i k : Nat) (x : Map Lane × RowFlags × Flags), k < vs.length →
    mapGet 0 (r.apply vs i x).1 (r.place (i + k)) = r.value (mapGet 0 x.1 (r.place (i + k))) ((vs.map (·.1)).getD k 0) := by
  induction vs with
  | nil => exact fun _ _ _ h => absurd h (by simp)
  | cons v vs ih =>
    intro i k x hk
    rw [InRow.apply]
    cases k with
    | zero =>
      rw [apply_get_other r vs _ _ fun k _ he => absurd (place_injective r he) (by omega)]
      simp [update_fst]
    | succ k =>
      have hne : r.place (i + 1 + k) ≠ r.place i := fun he => absurd (place_injective r he) (by omega)
      rw [← Nat.add_assoc, Nat.add_right_comm, ih _ _ _ (by simpa using hk), mapGet_set, if_neg hne]
      rfl

/-! ## A row written -/

/-- The columns of a row, each with its flags. -/
def InRow.columns (r : InRow) : List (Lane × Flags) := r.vals.zipIdx.map fun (v, i) => (v, r.flags.getD i Flags.none)

theorem columns_vals (r : InRow) : r.columns.map (·.1) = r.vals := by
  simp [InRow.columns, Function.comp_def]

theorem columns_length (r : InRow) : r.columns.length = r.vals.length := by simp [InRow.columns]

/-- The accumulators of the array that a row is for are those that its columns leave. -/
theorem writeRow_acc {c : Chamber} {b : Bool} {r : InRow} (hv : r.vals ≠ []) :
    ∃ y, (c.writeRow b r).1.acc b = (r.apply r.columns 0 (c.acc b, y)).1 := by
  unfold Chamber.writeRow
  rw [if_neg hv]
  cases b
  · exact ⟨_, rfl⟩
  · exact ⟨_, rfl⟩

theorem mapGet_foldl_set {α : Type} [DecidableEq α] (d x : α) (q : Nat) (qs : List Nat) : ∀ t : Map α,
    mapGet d (qs.foldl (fun t p => mapSet d t p x) t) q = if q ∈ qs then x else mapGet d t q := by
  induction qs with
  | nil => intro t; simp
  | cons p qs ih =>
    intro t
    rw [List.foldl_cons, ih, mapGet_set]
    by_cases hq : q ∈ qs <;> simp [hq]

theorem mem_phys {r : InRow} {q : Nat} :
    q ∈ r.phys ↔ q = (if r.wide then 2 * r.row else r.row) ∨ (r.wide = true ∧ q = 2 * r.row + 1) := by
  unfold InRow.phys physRows
  cases r.wide <;> simp

/-- The mode tags of the rows that a row is written to are its mode. -/
theorem writeRow_tags {c : Chamber} {b : Bool} {r : InRow} (hv : r.vals ≠ []) {q : Nat} (hq : q ∈ r.phys) :
    mapGet false (if b then (c.writeRow b r).1.tagB else (c.writeRow b r).1.tagA) q = r.wide := by
  have htags : (if b then (c.writeRow b r).1.tagB else (c.writeRow b r).1.tagA) =
      r.phys.foldl (fun t q => mapSet false t q r.wide) (if b then c.tagB else c.tagA) := by
    unfold Chamber.writeRow
    rw [if_neg hv]
    cases b
    · rfl
    · rfl
  rw [htags, mapGet_foldl_set, if_pos hq]

/-- A row leaves everything in its chamber but one array's accumulators, tags and row flags. -/
theorem writeRow_frame (c : Chamber) (b : Bool) (r : InRow) : let d := (c.writeRow b r).1
    d.acc (!b) = c.acc (!b) ∧ (if b then d.inflightB else d.inflightA) = (if b then c.inflightB else c.inflightA) ∧ d.lmem = c.lmem ∧
    d.sregs = c.sregs ∧ d.vregs = c.vregs := by
  unfold Chamber.writeRow
  split
  · exact ⟨rfl, rfl, rfl, rfl, rfl⟩
  · cases b
    · exact ⟨rfl, rfl, rfl, rfl, rfl⟩
    · exact ⟨rfl, rfl, rfl, rfl, rfl⟩

/-- Each column of a row reaches its accumulator. -/
theorem writeRow_elem {c : Chamber} {b : Bool} {r : InRow} (hl : r.vals.length ≤ if r.wide then 256 else 128) {k : Nat}
    (hk : k < r.vals.length) : (c.writeRow b r).1.accElem b (r.rowOf k) (k % 128) =
      r.value (c.accElem b (r.rowOf k) (k % 128)) (r.vals.getD k 0) := by
  have hplace : r.place k = 128 * r.rowOf k + k % 128 := place_eq fun hw => by simp [hw] at hl; omega
  obtain ⟨y, hy⟩ := writeRow_acc (c := c) (b := b) (List.ne_nil_of_length_pos (by omega : 0 < r.vals.length))
  have hcol := apply_get_place r r.columns 0 k (c.acc b, y) (by rwa [columns_length])
  rw [columns_vals, Nat.zero_add, hplace, ← hy] at hcol
  exact hcol

/-- An accumulator that no column of a row reaches stands. -/
theorem writeRow_elem_other {c : Chamber} {b : Bool} {r : InRow} (hl : r.vals.length ≤ if r.wide then 256 else 128) (hv : r.vals ≠ [])
    {row col : Nat} (hc : col < 128) (h : ∀ k < r.vals.length, ¬(row = r.rowOf k ∧ col = k % 128)) :
    (c.writeRow b r).1.accElem b row col = c.accElem b row col := by
  obtain ⟨y, hy⟩ := writeRow_acc (c := c) (b := b) hv
  unfold Chamber.accElem
  rw [hy]
  refine apply_get_other r r.columns 0 _ fun k hk he => ?_
  rw [columns_length] at hk
  rw [Nat.zero_add, place_eq fun hw => by simp [hw] at hl; omega] at he
  exact h k hk ⟨by omega, by omega⟩

/-! ## The command -/

/-- A chamber without the oldest row in an array. -/
def Chamber.dropRow (c : Chamber) (b : Bool) (rs : List InRow) : Chamber :=
  if b then { c with inflightB := rs } else { c with inflightA := rs }

theorem popRow_cons {c : Chamber} {b : Bool} {r : InRow} {rs : List InRow} (h : (if b then c.inflightB else c.inflightA) = r :: rs) :
    c.popRow b = some (r, c.dropRow b rs) := by
  unfold Chamber.popRow
  rw [h]
  rfl

/-- Taking a row out of an array leaves the rest of its chamber. -/
theorem dropRow_frame (c : Chamber) (b : Bool) (rs : List InRow) : let d := c.dropRow b rs
    (if b then d.inflightB else d.inflightA) = rs ∧ d.acc = c.acc ∧ d.lmem = c.lmem ∧ d.sregs = c.sregs ∧ d.vregs = c.vregs := by
  cases b
  · exact ⟨rfl, rfl, rfl, rfl, rfl⟩
  · exact ⟨rfl, rfl, rfl, rfl, rfl⟩

/-- The oldest row is written; ECC errors and the row's flags follow. -/
theorem exec_accumulatorRowWrite {ch : Fin 28} {b : Bool} {as : List AccUpset} {s : State} {r : InRow} {c : Chamber}
    (h : (s.ch ch).popRow b = some (r, c)) : ∃ as', exec (.accumulatorRowWrite ch b as) s =
      .next (((s.setCh ch (c.writeRow b r).1).accUpsets ch r.pc 0 as').raise ch r.pc 0 (c.writeRow b r).2) := by
  refine ⟨as.filter fun u => accMeets u b r.phys, ?_⟩
  show execAccumulatorRowWrite ch b as s = _
  unfold execAccumulatorRowWrite
  dsimp only
  rw [h]

/-- Settles O26: the chamber that `Chamber.writeRow` leaves, which ECC errors and flags do not touch beyond halts and counts. -/
theorem accumulatorRowIsWritten : Obligations.AccumulatorRowIsWritten := by
  unfold Obligations.AccumulatorRowIsWritten
  intro ch b as s r rs hin hl hv
  obtain ⟨as', he⟩ := exec_accumulatorRowWrite (as := as) (popRow_cons hin)
  obtain ⟨hrs, hacc, hlmem, hsregs, hvregs⟩ := dropRow_frame (s.ch ch) b rs
  generalize (s.ch ch).dropRow b rs = c at he hrs hacc hlmem hsregs hvregs
  obtain ⟨hother, hin', hlmem', hsregs', hvregs'⟩ := writeRow_frame c b r
  have htame := ((tame_accUpsets (s := s.setCh ch (c.writeRow b r).1) ch r.pc 0 as').trans (tame_raise ch r.pc 0 (c.writeRow b r).2)).2 ch
  rw [State.ch_setCh, if_pos rfl] at htame
  have hold : ∀ row col, c.accElem b row col = (s.ch ch).accElem b row col := fun row col => by unfold Chamber.accElem; rw [hacc]
  refine ⟨_, he, (congrArg (fun c => if b then c.inflightB else c.inflightA) htame :).trans (hin'.trans hrs), fun k hk => ?_,
    fun row col hc hnone => ?_, (congrArg (fun c => c.acc (!b)) htame :).trans (hother.trans (congrFun hacc _)), fun row hrow => ?_,
    (congrArg Chamber.lmem htame :).trans (hlmem'.trans hlmem), (congrArg Chamber.sregs htame :).trans (hsregs'.trans hsregs),
    (congrArg Chamber.vregs htame :).trans (hvregs'.trans hvregs), only_raise (only_accUpsets as' ((only_refl s ch).setCh _)) _ _ _⟩
  · refine (congrArg (fun c => c.accElem b (r.rowOf k) (k % 128)) htame :).trans ((writeRow_elem hl hk).trans ?_)
    rw [hold]
    rfl
  · exact (congrArg (fun c => c.accElem b row col) htame :).trans ((writeRow_elem_other hl hv hc hnone).trans (hold row col))
  · exact (congrArg (fun c => mapGet false (if b then c.tagB else c.tagA) row) htame :).trans (writeRow_tags hv (mem_phys.mpr hrow))

end Sys2Proof.Machine
end

section
/-! The shadow tile that becomes READY (R77, R135, R158, R185), and from it O28. -/

namespace Sys2Proof.Machine

open Sys2Proof

/-! ## A tile's content -/

/-- A key at or below all of a map's keys is not listed. -/
theorem mapFind_of_above {α : Type} {m : Map α} : ∀ {a k : Nat}, mapAbove a m = true → k ≤ a → mapFind m k = none := by
  induction m with
  | nil => exact fun _ _ => rfl
  | cons e m ih =>
    intro a k hm hk
    simp only [mapAbove, Bool.and_eq_true, decide_eq_true_eq] at hm
    rw [mapFind, if_neg (by omega), ih hm.2 (by omega)]

/-- The entries of a map put one after another into another: they stand before what that one held. -/
theorem mapGet_foldl_entries {es : Map Nat} : ∀ {m : Map Nat}, mapSorted es = true → ∀ k,
    mapGet 0 (es.foldl (fun m e => mapSet 0 m e.1 e.2) m) k = (mapFind es k).getD (mapGet 0 m k) := by
  induction es with
  | nil => exact fun _ _ => rfl
  | cons e es ih =>
    intro m hs k
    simp only [mapSorted] at hs
    rw [List.foldl_cons, ih (mapSorted_of_above hs), mapGet_set, mapFind]
    by_cases hk : e.1 = k
    · rw [if_pos hk, if_pos hk.symm, mapFind_of_above hs (by omega)]
      rfl
    · rw [if_neg hk, if_neg (Ne.symm hk)]

theorem tileOf_data {es : Map Nat} (h : mapSorted es = true) (mask k : Nat) : mapGet 0 (tileOf mask es).data k = mapGet 0 es k :=
  mapGet_foldl_entries h k

/-! ## The tile enters the shadow half -/

theorem tileReady_ch (s : State) (n : Nat) (o : AsyncOp) (t : WTile) :
    (s.tileReady n o t).ch n = { s.ch n with shadow := t, shadowOp := none } := by
  unfold State.tileReady
  dsimp only
  split
  · rw [State.ch_put, State.ch_put, ch_modCh_eq]
  · rw [State.ch_put, ch_modCh_eq]

theorem tileReady_only (s : State) (n : Nat) (o : AsyncOp) (t : WTile) : s.OnlyChamber (s.tileReady n o t) n := by
  have h : s.OnlyChamber ((s.modCh n fun c => { c with shadow := t, shadowOp := none }).put (Reg.CHn_WTILE_SHADOW n) 2) n :=
    ((only_refl s n).modCh _).put _ _
  exact .ite (h.put _ _) h

/-- The fields that a tile's entry may write. -/
def readyFields (n : Nat) : List FieldRef := [Reg.CHn_WTILE_SHADOW n, Reg.CHn_XT_SLOT1_QUEUED n, Reg.CHn_XT_SLOT0_QUEUED n]

theorem tileReady_keeps (s : State) (n : Nat) (o : AsyncOp) (t : WTile) : s.KeepsFields (s.tileReady n o t) (readyFields n) := by
  have h : s.KeepsFields ((s.modCh n fun c => { c with shadow := t, shadowOp := none }).put (Reg.CHn_WTILE_SHADOW n) 2) (readyFields n) :=
    ((keeps_refl s _).of_fields rfl rfl rfl).put (by simp [readyFields])
  refine .ite (h.put ?_) h
  split
  · simp [readyFields]
  · simp [readyFields]

theorem tileReady_raw_keeps {o : AsyncOp} (h : o.xmode ≠ 1) (s : State) (n : Nat) (t : WTile) :
    s.KeepsFields (s.tileReady n o t) [Reg.CHn_WTILE_SHADOW n] := by
  unfold State.tileReady
  dsimp only
  rw [if_neg h]
  exact ((keeps_refl s _).of_fields rfl rfl rfl).put (List.mem_singleton_self _)

theorem tileReady_shadow (s : State) (n : Nat) (o : AsyncOp) (t : WTile) : (s.tileReady n o t).get (Reg.CHn_WTILE_SHADOW n) = 2 := by
  have hput : ∀ u : State, (u.put (Reg.CHn_WTILE_SHADOW n) 2).get (Reg.CHn_WTILE_SHADOW n) = 2 := fun _ => State.get_put_eq
  unfold State.tileReady
  dsimp only
  split
  · refine (State.get_put_ne ?_).trans (hput _)
    split
    · simp; omega
    · simp; omega
  · exact hput _

/-! ## A malformed load -/

theorem malformed_ch (s : State) (n : Nat) (o : AsyncOp) (r : Nat) : (s.malformed n o r).ch n = s.ch n := by
  unfold State.malformed
  rw [ch_puts, ch_violCh]

theorem malformed_only (s : State) (n : Nat) (o : AsyncOp) (r : Nat) : s.OnlyChamber (s.malformed n o r) n :=
  State.OnlyChamber.puts _ ((only_refl s n).violCh n 0 0)

/-- The fields of CHn_XP_LAST that a malformed load writes. -/
def lastLoad (n : Nat) (o : AsyncOp) (r : Nat) : List (FieldRef × Nat) :=
  [(Reg.CHn_XP_LAST_VALID n, 1), (Reg.CHn_XP_LAST_REASON n, r), (Reg.CHn_XP_LAST_TAG n, o.tag), (Reg.CHn_XP_LAST_ADDR n, dBase o.desc)]

/-- CHn_XP_LAST tells of the malformed load, and the tile's entry leaves it. -/
theorem malformed_last (s : State) (n : Nat) (o : AsyncOp) (r : Nat) (t : WTile) :
    ∀ e ∈ lastLoad n o r, ((s.malformed n o r).tileReady n o t).get e.1 = e.2 % 2 ^ e.1.w := by
  have hne : ∀ e ∈ lastLoad n o r, e.1.key ∉ (readyFields n).map FieldRef.key := by
    simp [lastLoad, readyFields]
    omega
  exact fun e he => (tileReady_keeps _ n o t _ (hne e he)).trans (puts_get (lastLoad n o r) (by simp [lastLoad]) _ e he)

/-! ## The command -/

theorem exec_weightTileReady {ch : Fin 28} {s : State} {o : AsyncOp} (h : (s.ch ch).loadedOp = some o) :
    exec (.weightTileReady ch) s = .next (s.expand ch o) := by
  show execWeightTileReady ch s = _
  unfold execWeightTileReady
  rw [h]

theorem expand_raw {s : State} {n : Nat} {o : AsyncOp} (hb : dBad o.desc = false) (hr : o.reason = 0) (hx : o.xmode = 0)
    (hl : dList o.desc = false) :
    s.expand n o = s.tileReady n o (tileOf (maskOfRows (min (tileRows (dType o.desc)) (cdiv o.limit o.p0))) o.elems) := by
  unfold State.expand rawTile
  simp [hb, hr, hx, hl]

theorem expand_bad {s : State} {n : Nat} {o : AsyncOp} (hb : dBad o.desc = true) : s.expand n o = s.tileReady n o (tileOf 0 []) :=
  if_pos hb

theorem expand_malformed {s : State} {n : Nat} {o : AsyncOp} (hb : dBad o.desc = false) (hr : o.reason ≠ 0) :
    s.expand n o = (s.malformed n o o.reason).tileReady n o (tileOf 0 []) := by
  unfold State.expand
  simp [hb, hr]

/-- Settles O28: each load's expansion, and what `State.tileReady` writes. FP32 and INT32 tiles become READY like the others (log entry 24). -/
theorem weightTileBecomesReady : Obligations.WeightTileBecomesReady := by
  unfold Obligations.WeightTileBecomesReady
  intro ch s o ho
  refine ⟨fun hb hr hx hl hs => ?_, fun h => ?_⟩
  · exact ⟨_, (exec_weightTileReady ho).trans (congrArg _ (expand_raw hb hr hx hl)), tileReady_shadow s ch o _,
      by rw [tileReady_ch], by rw [tileReady_ch]; rfl, by rw [tileReady_ch]; exact tileOf_data hs _,
      tileReady_raw_keeps (by omega) s ch _, tileReady_only s ch o _⟩
  · cases hb : dBad o.desc
    · have hr : o.reason ≠ 0 := h.resolve_left (by simp [hb])
      have hlast := malformed_last s ch o o.reason (tileOf 0 [])
      refine ⟨_, (exec_weightTileReady ho).trans (congrArg _ (expand_malformed hb hr)), tileReady_shadow _ ch o _,
        by rw [tileReady_ch]; rfl, by rw [tileReady_ch, malformed_ch], (malformed_only s ch o _).trans (tileReady_only _ ch o _), fun _ => ⟨?_, ?_⟩⟩
      · exact hlast (Reg.CHn_XP_LAST_VALID ch, 1) (List.mem_cons_self ..)
      · exact hlast (Reg.CHn_XP_LAST_REASON ch, o.reason) (List.mem_cons_of_mem _ (List.mem_cons_self ..))
    · exact ⟨_, (exec_weightTileReady ho).trans (congrArg _ (expand_bad hb)), tileReady_shadow s ch o _,
        by rw [tileReady_ch]; rfl, by rw [tileReady_ch], tileReady_only s ch o _, fun h => by cases h⟩

end Sys2Proof.Machine
end

section
/-! Vector instructions of a helictite, its scratch loads and stores (R114, R115, R117 to R119, R217, R218, R220, R221): from them O40 and O41. -/

namespace Sys2Proof.Machine

open Sys2Proof

/-! ## An instruction that stands at the PC -/

/-- The instruction that stands at the PC of a ready helictite has its effect. -/
theorem helAt_standing {s : State} {n : Nat} {op : BitVec 8} {o : HOps} (h : s.HelAt n op o) (t : State) : s.helAt n op o t = t := by
  obtain ⟨hr, hw⟩ := h
  unfold State.helAt
  rw [hr, if_pos hw]
  rfl

/-- A command that replaces one helictite. -/
theorem does_setHel {c : Instr} {s : State} {n : Nat} {h : Hel} {p : State → Prop} (he : exec c s = .next (s.setHel n h))
    (hp : ∀ t, s.OnlyHel t n → t.hel n = h → p t) : Does c s p :=
  ⟨_, he, hp _ (onlyHel_setHel s n h) ((State.hel_setHel ..).trans (if_pos rfl))⟩

/-- A command that changes registers of a helictite and steps on. -/
theorem does_helReg {c : Instr} {s : State} {n : Nat} {op : BitVec 8} {o : HOps} {f : Hel → Hel} {p : State → Prop} (h : s.HelAt n op o)
    (he : exec c s = .next (s.helAt n op o (s.helReg n f))) (hp : ∀ t, s.OnlyHel t n → t.hel n = (f (s.hel n)).next → p t) : Does c s p :=
  does_setHel (he.trans (congrArg _ ((helAt_standing h _).trans (helReg_ready h.1 f)))) hp

/-! ## Lanes and flags -/

/-- Sticky flags after those of 16 lanes have been joined to them (R218). -/
def Flags.Joined (f g : Flags) (e : Nat → Flags) : Prop :=
  (g.invalid = true ↔ f.invalid = true ∨ ∃ k < 16, (e k).invalid = true) ∧
  (g.overflow = true ↔ f.overflow = true ∨ ∃ k < 16, (e k).overflow = true) ∧
  (g.flush = true ↔ f.flush = true ∨ ∃ k < 16, (e k).flush = true)

theorem joined_foldl (f : Flags) (e : Nat → Flags) : f.Joined ((List.range 16).foldl (fun a k => a.join (e k)) f) e := by
  unfold Flags.Joined
  simpa only [List.mem_range] using join_foldl (List.range 16) e f

theorem joined_none (f : Flags) : f.Joined f fun _ => .none := by
  have h : ∀ b : Bool, b = true ↔ b = true ∨ ∃ k : Nat, k < 16 ∧ false = true := by simp
  exact ⟨h _, h _, h _⟩

theorem lanes_flags (h : Hel) (d : BitVec 4) (f : Nat → Lane × Flags) : h.flags.Joined (h.lanes d f).flags fun k => (f k).2 := by
  rw [lanes_frame]
  exact joined_foldl h.flags fun k => (f k).2

theorem lane_setV (h : Hel) (d r : BitVec 4) (f : Nat → Lane) (k : Nat) (hk : k < 16) :
    (h.setV d (mkHLanes f)).lane r k = if r = d then f k else h.lane r k := by
  unfold Hel.lane
  rw [Hel.v_setV, apply_ite (hlane · k), hlane_mkHLanes _ _ hk]

/-! ## Vector instructions -/

/-- One helictite is another with results and their flags written lane by lane to vector register D. -/
def Hel.LanesTo (h t : Hel) (d : BitVec 4) (f : Nat → Lane × Flags) : Prop :=
  t = { h with hregs := t.hregs, flags := t.flags } ∧ (∀ r, ∀ k < 16, t.lane r k = if r = d then (f k).1 else h.lane r k) ∧
  h.flags.Joined t.flags fun k => (f k).2

theorem lanesTo_lanes (h : Hel) (d : BitVec 4) (f : Nat → Lane × Flags) : h.LanesTo (h.lanes d f) d f :=
  ⟨by rw [lanes_frame], fun r k hk => lanes_v h d r f k hk, lanes_flags h d f⟩

theorem lanesTo_setV (h : Hel) (d : BitVec 4) (f : Nat → Lane) : h.LanesTo (h.setV d (mkHLanes f)) d fun k => (f k, .none) :=
  ⟨rfl, fun r k hk => lane_setV h d r f k hk, joined_none h.flags⟩

theorem next_vector {h t : Hel} (he : t = { h with hregs := t.hregs, flags := t.flags }) :
    t.next = { h with pc := (h.pc + 1) % 256, hregs := t.next.hregs, flags := t.next.flags } := by
  rw [he]
  rfl

theorem writesH_of {mk : Fin 1152 → HOps → Instr} {op : BitVec 8} {f : Hel → HOps → Nat → Lane × Flags} (g : HOps → Hel → Hel)
    (he : ∀ n o s, exec (mk n o) s = .next (s.helAt n.val op o (s.helReg n.val (g o)))) (hg : ∀ (o : HOps) (h : Hel), h.LanesTo (g o h) o.d (f h o)) : WritesH mk op f := by
  intro n o s h
  refine does_helReg h (he n o s) fun t hn ht => ?_
  obtain ⟨hframe, hlanes, hflags⟩ := hg o (s.hel n)
  rw [ht]
  exact ⟨hn, next_vector hframe, hlanes, hflags⟩

/-- An instruction whose helictite makes its results lane by lane. -/
theorem writesH_lanes {mk : Fin 1152 → HOps → Instr} {op : BitVec 8} {f : Hel → HOps → Nat → Lane × Flags}
    (he : ∀ n o s, exec (mk n o) s = .next (s.helAt n.val op o (s.helVec n.val o fun h => f h o))) : WritesH mk op f :=
  writesH_of (fun o h => h.lanes o.d (f h o)) he fun o h => lanesTo_lanes h o.d (f h o)

/-- The same with the results in other words. -/
theorem writesH_lanes_eq {mk : Fin 1152 → HOps → Instr} {op : BitVec 8} {f : Hel → HOps → Nat → Lane × Flags} (g : Hel → HOps → Nat → Lane × Flags)
    (he : ∀ n o s, exec (mk n o) s = .next (s.helAt n.val op o (s.helVec n.val o fun h => g h o))) (hg : ∀ h o k, g h o k = f h o k) : WritesH mk op f := by
  obtain rfl : g = f := funext fun h => funext fun o => funext fun k => hg h o k
  exact writesH_lanes he

/-! ## Reductions -/

theorem reduce_frame (h : Hel) (o : HOps) (op : Lane → Lane → Lane × Flags) :
    h.reduce o op = { h with hregs := (h.reduce o op).hregs, flags := (h.reduce o op).flags } := rfl

/-- A reduction's lanes: the pairwise tree over the 16 lanes of A in lane 0, zero in the others (R114). -/
theorem lane_reduce (h : Hel) (o : HOps) (op : Lane → Lane → Lane × Flags) (r : BitVec 4) (k : Nat) (hk : k < 16) :
    (h.reduce o op).lane r k = if r ≠ o.d then h.lane r k else if k = 0 then pairTree (fun x y => (op x y).1) 4 (h.lane o.a) 0 else 0 := by
  rw [← treeReduce_pair op 4 (h.v o.a).toList (h.lane o.a) (by simp) fun _ _ => rfl, ite_not]
  exact lane_setV h o.d r _ k hk

theorem does_reduce {c : Instr} {n : Fin 1152} {o : HOps} {s : State} {op : BitVec 8} {f : Lane → Lane → Lane × Flags}
    (he : exec c s = .next (s.helAt n.val op o (s.helReg n.val fun h => h.reduce o f))) (h : s.HelAt n op o) : Does c s fun t =>
      s.OnlyHel t n ∧ t.hel n = { s.hel n with pc := ((s.hel n).pc + 1) % 256, hregs := (t.hel n).hregs, flags := (t.hel n).flags } ∧
      ∀ r, ∀ k < 16, (t.hel n).lane r k =
        if r ≠ o.d then (s.hel n).lane r k else if k = 0 then pairTree (fun x y => (f x y).1) 4 ((s.hel n).lane o.a) 0 else 0 := by
  refine does_helReg h he fun t hn ht => ?_
  rw [ht]
  exact ⟨hn, next_vector (reduce_frame ..), lane_reduce (s.hel n) o f⟩

/-! ## The results in the statement's words -/

theorem mod_low (m : BitVec 8) : (m.setWidth 4).toNat = m.toNat % 16 := BitVec.toNat_setWidth ..

theorem vinsx_writes : WritesH .hVinsx 0x48 fun h o k => (if k = (o.mod.setWidth 4).toNat then (h.x o.a).extractLsb' 0 32 else h.lane o.d k, .none) := by
  refine writesH_of (fun o h => h.setV o.d (mkHLanes fun i => if i = o.mod.toNat % 16 then (h.x o.a).setWidth 32 else hlane (h.v o.d) i))
    (fun _ _ _ => rfl) fun o h => ?_
  simp only [← low_lane, mod_low]
  exact lanesTo_setV ..

/-- Settles O40: each instruction's results from the equation of its command. The PC's step modulo 256, the flush in vmax and vmin and what the
approximations answer are the model's choices (log entries 7, 11, 36 and 38). -/
theorem helictiteVectors : Obligations.HelictiteVectors := by
  unfold Obligations.HelictiteVectors
  refine ⟨?_, ?_, ?_, ?_, ?_, ?_, ?_, ?_, ?_, ?_, ?_, ?_, ?_, ?_, ?_, ?_, ?_, ?_, ?_, ?_, ?_, ?_⟩
  · exact writesH_lanes fun _ _ _ => rfl
  · exact writesH_lanes fun _ _ _ => rfl
  · exact writesH_lanes fun _ _ _ => rfl
  · exact writesH_lanes fun _ _ _ => rfl
  · exact writesH_lanes fun _ _ _ => rfl
  · exact writesH_lanes fun _ _ _ => rfl
  · exact writesH_lanes fun _ _ _ => rfl
  · exact writesH_lanes fun _ _ _ => rfl
  · exact writesH_lanes fun _ _ _ => rfl
  · exact writesH_lanes fun _ _ _ => rfl
  · exact writesH_lanes_eq _ (fun _ _ _ => rfl) fun _ _ _ => congrArg (·, Flags.none) (ite_not ..)
  · exact writesH_lanes_eq _ (fun _ _ _ => rfl) fun h o _ => congrArg (·, Flags.none) (low_lane (h.x o.a))
  · exact writesH_lanes fun _ _ _ => rfl
  · exact writesH_lanes fun _ _ _ => rfl
  · exact writesH_lanes fun _ _ _ => rfl
  · exact writesH_lanes fun _ _ _ => rfl
  · exact writesH_lanes fun _ _ _ => rfl
  · exact writesH_lanes fun _ _ _ => rfl
  · exact writesH_lanes fun _ _ _ => rfl
  · exact writesH_lanes fun _ _ _ => rfl
  · exact vinsx_writes
  · intro n o s
    simp only [List.forall_mem_cons]
    exact ⟨does_reduce rfl, does_reduce rfl, List.forall_mem_nil _⟩

/-! ## Scratch -/

theorem setV_next (h : Hel) (d : BitVec 4) (v : HLanes) :
    (h.setV d v).next = { h with pc := (h.pc + 1) % 256, hregs := (h.setV d v).next.hregs } := rfl

section atPc

variable {s : State} {n : Fin 1152} {o : HOps}

theorem exec_hLv (h : s.HelAt n 0x20 o) : exec (.hLv n o) s =
    .next (s.helScratch n o 64 false fun h a => h.setV o.d (mkHLanes fun i => BitVec.ofNat 32 (memNat h.scratch (a + 4 * i) 4))) :=
  congrArg _ (helAt_standing h _)

theorem exec_hSv (h : s.HelAt n 0x21 o) : exec (.hSv n o) s = .next (s.helScratch n o 64 true fun h a =>
    { h with scratch := memWrite h.scratch a ((h.v o.b).toList.flatMap fun x => leBytes 4 x.toNat) }) :=
  congrArg _ (helAt_standing h _)

theorem exec_hLx (h : s.HelAt n 0x24 o) : exec (.hLx n o) s =
    .next (s.helScratch n o 8 false fun h a => h.setX o.d (BitVec.ofNat 64 (memNat h.scratch a 8))) :=
  congrArg _ (helAt_standing h _)

theorem exec_hSx (h : s.HelAt n 0x25 o) : exec (.hSx n o) s =
    .next (s.helScratch n o 8 true fun h a => { h with scratch := memWrite h.scratch a (leBytes 8 (h.x o.b).toNat) }) :=
  congrArg _ (helAt_standing h _)

theorem exec_hLvh {ty : Nat} (h : s.HelAt n 0x22 o) (ht : halfType o = some ty) : exec (.hLvh n o) s =
    .next (s.helScratch n o 32 false fun h a => h.lanes o.d fun i => widen ty (memNat h.scratch (a + 2 * i) 2)) := by
  show execHLvh n o s = _
  unfold execHLvh
  rw [helAt_standing h, ht]

theorem exec_hSvh {ty : Nat} (h : s.HelAt n 0x23 o) (ht : halfType o = some ty) : exec (.hSvh n o) s =
    .next (s.helScratch n o 32 true fun h a =>
      { h with scratch := memWrite h.scratch a (((h.v o.b).toList.map fun x => convert ty (o.mod.getLsbD 4) x).flatMap fun r => leBytes 2 r.1)
               flags := ((h.v o.b).toList.map fun x => convert ty (o.mod.getLsbD 4) x).foldl (fun f r => f.join r.2) h.flags }) := by
  show execHSvh n o s = _
  unfold execHSvh
  rw [helAt_standing h, ht]

theorem helDo_ready (hr : s.helReady n = true) (f : Hel → State) : s.helDo n f = f (s.hel n) := if_pos hr

/-- lvh of a type that is not half faults (R221). -/
theorem exec_hLvh_fault (h : s.HelAt n 0x22 o) (ht : halfType o = none) : exec (.hLvh n o) s = .next (s.helFault n) := by
  show execHLvh n o s = _
  unfold execHLvh
  rw [helAt_standing h, ht]
  exact congrArg _ (helDo_ready h.1 _)

/-- svh to a type that is not half faults (R221). -/
theorem exec_hSvh_fault (h : s.HelAt n 0x23 o) (ht : halfType o = none) : exec (.hSvh n o) s = .next (s.helFault n) := by
  show execHSvh n o s = _
  unfold execHSvh
  rw [helAt_standing h, ht]
  exact congrArg _ (helDo_ready h.1 _)

/-- A scratch instruction that may act at once acts and steps on. -/
theorem does_scratch {c : Instr} {k : Nat} {st : Bool} {f : Hel → Nat → Hel} {p : State → Prop} (hr : s.helReady n = true)
    (he : exec c s = .next (s.helScratch n o k st f)) (hk : (s.hel n).Scratch o k st)
    (hp : ∀ t, s.OnlyHel t n → t.hel n = (f (s.hel n) ((s.hel n).at o)).next → p t) : Does c s p :=
  does_setHel (he.trans (congrArg _ (helScratch_go hr hk f))) hp

/-- A scratch instruction faults outside the 2 KiB or misaligned, or of a wrong type, and waits for the granule operation of its slot (R217, R220,
R221). -/
def State.ScratchStops (s : State) (n : Fin 1152) (o : HOps) (c : Instr) (k : Nat) (st half : Bool) : Prop :=
  let h := s.hel n
  let ty := (o.mod.setWidth 4).toNat
  (h.at o % k ≠ 0 ∨ 2048 < h.at o + k ∨ (half = true ∧ ty ≠ 1 ∧ ty ≠ 2) → Does c s fun t => s.HelFaults t n) ∧
  (h.at o % k = 0 → h.at o + k ≤ 2048 → (half = true → ty = 1 ∨ ty = 2) → (∃ p ∈ h.ops, p.write = st ∧ p.slot = h.at o / 256) →
    Does c s fun t => t = s)

variable {c : Instr} {k : Nat} {st : Bool}

theorem scratchStops_of {f : Hel → Nat → Hel} (hr : s.helReady n = true) (he : exec c s = .next (s.helScratch n o k st f)) :
    s.ScratchStops n o c k st false := by
  refine ⟨fun hk => ⟨_, he, ?_⟩, fun hal hin _ hop => ⟨_, he, helScratch_wait hr hal hin hop f⟩⟩
  rw [helScratch_fault hr (by simpa using hk)]
  exact helFault_rel n

theorem scratchStops_half {f : Nat → Hel → Nat → Hel} (hr : s.helReady n = true)
    (he : ∀ ty, halfType o = some ty → exec c s = .next (s.helScratch n o k st (f ty)))
    (hbad : halfType o = none → exec c s = .next (s.helFault n)) : s.ScratchStops n o c k st true := by
  by_cases ht : (o.mod.setWidth 4).toNat = 1 ∨ (o.mod.setWidth 4).toNat = 2
  · obtain ⟨hfault, hwait⟩ := scratchStops_of hr (he _ (halfType_some ht))
    refine ⟨fun hk => hfault ?_, fun hal hin _ => hwait hal hin nofun⟩
    exact hk.imp_right (.imp_right fun hty => absurd ht (not_or.mpr hty.2))
  · exact ⟨fun _ => ⟨_, hbad (halfType_none (mt .inl ht) (mt .inr ht)), helFault_rel n⟩, fun _ _ h _ => absurd (h rfl) ht⟩

end atPc

/-! ## Bytes that a store writes -/

theorem memByte_write_bytes (m : Memory) (a k x : Nat) {bs : List Byte} {b : Nat → Byte} (hl : bs.length = k) (hb : ∀ i < k, bs.getD i 0 = b i) :
    memByte (memWrite m a bs) x = if a ≤ x ∧ x < a + k then b (x - a) else memByte m x := by
  rw [memByte_write, hl]
  exact if_ctx_congr Iff.rfl (fun hx => hb _ (by omega)) fun _ => rfl

/-- The bytes of a vector register. -/
theorem hlanes_bytes (v : HLanes) (i : Nat) (hi : i < 64) :
    (v.toList.flatMap fun x => leBytes 4 x.toNat).getD i 0 = (hlane v (i / 4)).extractLsb' (8 * (i % 4)) 8 := by
  rw [getD_flatMap_four _ (fun x => leBytes_length 4 x.toNat) _ _ (by simpa using hi), leBytes_word _ _ _ (Nat.mod_lt _ (by decide))]
  rfl

/-- The bytes of 16 converted lanes. -/
theorem converted_bytes (v : HLanes) (f : Lane → Nat × Flags) (i : Nat) (hi : i < 32) :
    ((v.toList.map f).flatMap fun r => leBytes 2 r.1).getD i 0 = (leBytes 2 (f (hlane v (i / 2))).1).getD (i % 2) 0 := by
  rw [getD_flatMap_two _ (fun r => leBytes_length 2 r.1) _ (f 0) _ (by simpa using hi), List.getD_map]
  rfl

theorem converted_length (v : HLanes) (f : Lane → Nat × Flags) : ((v.toList.map f).flatMap fun r => leBytes 2 r.1).length = 32 := by
  rw [flatMap_length_const (f := fun r : Nat × Flags => leBytes 2 r.1) fun r => leBytes_length 2 r.1]
  simp

theorem joined_converted (g : Flags) (v : HLanes) (f : Lane → Nat × Flags) :
    g.Joined ((v.toList.map f).foldl (fun a r => a.join r.2) g) fun k => (f (hlane v k)).2 := by
  rw [vec_toList, List.map_map, List.foldl_map]
  exact joined_foldl g fun k => (f (hlane v k)).2

/-! ## Loads and stores that act -/

/-- A helictite's registers and flags change and it steps on; nothing else does. -/
def State.HelRegs (s t : State) (n : Nat) : Prop :=
  s.OnlyHel t n ∧ t.hel n = { s.hel n with pc := ((s.hel n).pc + 1) % 256, xregs := (t.hel n).xregs, hregs := (t.hel n).hregs, flags := (t.hel n).flags }

/-- A helictite writes `k` bytes to scratch from an address on, may raise flags and steps on; nothing else changes. -/
def State.ScratchStores (s t : State) (n a k : Nat) (b : Nat → Byte) : Prop :=
  s.OnlyHel t n ∧ t.hel n = { s.hel n with pc := ((s.hel n).pc + 1) % 256, scratch := (t.hel n).scratch, flags := (t.hel n).flags } ∧
  ∀ x, memByte (t.hel n).scratch x = if a ≤ x ∧ x < a + k then b (x - a) else memByte (s.hel n).scratch x

section acting

variable {s : State} {n : Fin 1152} {o : HOps}

theorem hLv_loads (hat : s.HelAt n 0x20 o) (hk : (s.hel n).Scratch o 64 false) : Does (.hLv n o) s fun t =>
    s.HelRegs t n ∧ (t.hel n).xregs = (s.hel n).xregs ∧ (t.hel n).flags = (s.hel n).flags ∧ ∀ r, ∀ k < 16, (t.hel n).lane r k =
      if r = o.d then BitVec.ofNat 32 (leNat (memRead (s.hel n).scratch ((s.hel n).at o + 4 * k) 4)) else (s.hel n).lane r k := by
  refine does_scratch hat.1 (exec_hLv hat) hk fun t hn ht => ?_
  unfold State.HelRegs
  rw [ht]
  exact ⟨⟨hn, setV_next ..⟩, rfl, rfl, fun r k hk => lane_setV (s.hel n) o.d r _ k hk⟩

theorem hLx_loads (hat : s.HelAt n 0x24 o) (hk : (s.hel n).Scratch o 8 false) : Does (.hLx n o) s fun t =>
    s.HelRegs t n ∧ (t.hel n).hregs = (s.hel n).hregs ∧ (t.hel n).flags = (s.hel n).flags ∧ ∀ r, (t.hel n).x r =
      if r = o.d ∧ r ≠ 0 then BitVec.ofNat 64 (leNat (memRead (s.hel n).scratch ((s.hel n).at o) 8)) else (s.hel n).x r := by
  refine does_scratch hat.1 (exec_hLx hat) hk fun t hn ht => ?_
  unfold State.HelRegs
  rw [ht]
  refine ⟨⟨hn, setX_next ..⟩, ?_, ?_, fun r => Hel.x_setX (s.hel n) o.d r _⟩
  · rw [Hel.setX_frame]
    rfl
  · rw [Hel.setX_frame]
    rfl

theorem hLvh_loads {ty : Nat} (hat : s.HelAt n 0x22 o) (hty : halfType o = some ty) (hk : (s.hel n).Scratch o 32 false) : Does (.hLvh n o) s fun t =>
    let wide := fun k => widen ty (leNat (memRead (s.hel n).scratch ((s.hel n).at o + 2 * k) 2))
    s.HelRegs t n ∧ (t.hel n).xregs = (s.hel n).xregs ∧ (∀ r, ∀ k < 16, (t.hel n).lane r k = if r = o.d then (wide k).1 else (s.hel n).lane r k) ∧
    (s.hel n).flags.Joined (t.hel n).flags fun k => (wide k).2 := by
  refine does_scratch hat.1 (exec_hLvh hat hty) hk fun t hn ht => ?_
  unfold State.HelRegs
  rw [ht]
  intro wide
  exact ⟨⟨hn, lanes_next (s.hel n) o.d wide⟩, rfl, fun r k hk => lanes_v (s.hel n) o.d r wide k hk, lanes_flags (s.hel n) o.d wide⟩

/-- A store that may act at once, by the bytes and the flags that it makes. -/
theorem does_store {c : Instr} {k : Nat} {bs : Hel → List Byte} {fl : Hel → Flags} {b : Nat → Byte} (hr : s.helReady n = true)
    (he : exec c s = .next (s.helScratch n o k true fun h a => { h with scratch := memWrite h.scratch a (bs h), flags := fl h }))
    (hk : (s.hel n).Scratch o k true) (hl : (bs (s.hel n)).length = k) (hb : ∀ i < k, (bs (s.hel n)).getD i 0 = b i) :
    Does c s fun t => (t.hel n).flags = fl (s.hel n) ∧ s.ScratchStores t n ((s.hel n).at o) k b := by
  refine does_scratch hr he hk fun t hn ht => ?_
  unfold State.ScratchStores
  rw [ht]
  exact ⟨rfl, hn, rfl, fun x => memByte_write_bytes _ _ k x hl hb⟩

theorem hSv_stores (hat : s.HelAt n 0x21 o) (hk : (s.hel n).Scratch o 64 true) : Does (.hSv n o) s fun t => (t.hel n).flags = (s.hel n).flags ∧
    s.ScratchStores t n ((s.hel n).at o) 64 fun i => ((s.hel n).lane o.b (i / 4)).extractLsb' (8 * (i % 4)) 8 :=
  does_store hat.1 (exec_hSv hat) hk (by simp [leBytes_length]) (hlanes_bytes ((s.hel n).v o.b))

theorem hSx_stores (hat : s.HelAt n 0x25 o) (hk : (s.hel n).Scratch o 8 true) : Does (.hSx n o) s fun t => (t.hel n).flags = (s.hel n).flags ∧
    s.ScratchStores t n ((s.hel n).at o) 8 fun i => ((s.hel n).x o.b).extractLsb' (8 * i) 8 :=
  does_store hat.1 (exec_hSx hat) hk (leBytes_length ..) (leBytes_word ((s.hel n).x o.b) 8)

theorem hSvh_stores {ty : Nat} (hat : s.HelAt n 0x23 o) (hty : halfType o = some ty) (hk : (s.hel n).Scratch o 32 true) : Does (.hSvh n o) s fun t =>
    let conv := fun k => convert ty (o.mod.getLsbD 4) ((s.hel n).lane o.b k)
    s.ScratchStores t n ((s.hel n).at o) 32 (fun i => (leBytes 2 (conv (i / 2)).1).getD (i % 2) 0) ∧
    (s.hel n).flags.Joined (t.hel n).flags fun k => (conv k).2 := by
  obtain ⟨t, he, hflags, hbytes⟩ := does_store hat.1 (exec_hSvh hat hty) hk (converted_length ..) (converted_bytes ((s.hel n).v o.b) _)
  refine ⟨t, he, hbytes, ?_⟩
  rw [hflags]
  exact joined_converted ..

end acting

/-- Settles O41: each load and store that acts is its own lemma above, and the faults and waits are `State.ScratchStops`. The PC's step modulo
256 is the model's choice (log entry 36). -/
theorem helictiteScratch : Obligations.HelictiteScratch := by
  unfold Obligations.HelictiteScratch
  intro n o s hr
  refine ⟨fun hat => hLv_loads ⟨hr, hat⟩, fun hat => hLx_loads ⟨hr, hat⟩, fun hat hty hk => ?_, fun hat => hSv_stores ⟨hr, hat⟩,
    fun hat => hSx_stores ⟨hr, hat⟩, fun hat hty => hSvh_stores ⟨hr, hat⟩ (halfType_some hty), fun c hc hat => ?_⟩
  · obtain ⟨t, he, hregs, hx, hlanes, hinvalid, -⟩ := hLvh_loads ⟨hr, hat⟩ (halfType_some hty) hk
    exact ⟨t, he, hregs, hx, hlanes, hinvalid⟩
  · simp only [List.mem_cons, List.not_mem_nil, or_false] at hc
    obtain rfl | rfl | rfl | rfl | rfl | rfl := hc
    · exact scratchStops_of hr (exec_hLv ⟨hr, hat⟩)
    · exact scratchStops_of hr (exec_hSv ⟨hr, hat⟩)
    · exact scratchStops_half hr (fun _ => exec_hLvh ⟨hr, hat⟩) (exec_hLvh_fault ⟨hr, hat⟩)
    · exact scratchStops_half hr (fun _ => exec_hSvh ⟨hr, hat⟩) (exec_hSvh_fault ⟨hr, hat⟩)
    · exact scratchStops_of hr (exec_hLx ⟨hr, hat⟩)
    · exact scratchStops_of hr (exec_hSx ⟨hr, hat⟩)

end Sys2Proof.Machine
end

section
/-! The granule requests of ld.t, st.t and st.add (R32, R135, R143, R144, R149, R152, R154), and from them O31. -/

namespace Sys2Proof.Machine

open Sys2Proof

/-! ## The positions that a request takes (R149) -/

/-- The next `k` positions of an operation. -/
def AsyncOp.positions (o : AsyncOp) (k : Nat) : List Nat := (List.range k).map (o.pos + ·)

theorem positions_head {o : AsyncOp} {k : Nat} (hk : 0 < k) : ((o.positions k).map o.granule).headD 0 = o.granule o.pos := by
  obtain ⟨k, rfl⟩ := Nat.exists_eq_succ_of_ne_zero hk.ne'
  simp [AsyncOp.positions, List.range_succ_eq_map]

/-- A run of `k` positions is taken whole, and no further where the next position is of another kind or granule, or there is none. -/
theorem runFrom_eq {s : State} {n : Nat} {o : AsyncOp} {kind : PosKind} {g f k p : Nat}
    (hin : ∀ i < k, p + i < o.limit ∧ s.posKind n o (p + i) = kind ∧ o.granule (p + i) = g) (hf : k ≤ f)
    (hend : k = f ∨ ¬(p + k < o.limit ∧ s.posKind n o (p + k) = kind ∧ o.granule (p + k) = g)) :
    s.runFrom n o kind g f p = (List.range k).map (p + ·) := by
  induction f generalizing k p with
  | zero => obtain rfl := Nat.le_zero.mp hf; rfl
  | succ f ih =>
    unfold State.runFrom
    cases k with
    | zero => exact if_neg (hend.resolve_left (Nat.succ_ne_zero f).symm)
    | succ k =>
      have hshift : ∀ i, p + 1 + i = p + (i + 1) := fun i => by omega
      have hnow : p < o.limit ∧ s.posKind n o p = kind ∧ o.granule p = g := hin 0 k.succ_pos
      rw [if_pos hnow, ih (k := k) (p := p + 1) (fun i hi => by rw [hshift]; exact hin (i + 1) (by omega)) (by omega)
        (by rw [hshift]; exact hend.imp_left (by omega)), List.range_succ_eq_map, List.map_cons, List.map_map]
      exact congrArg _ (List.map_congr_left fun i _ => hshift i)

theorem State.TakesRun.run {s : State} {n : Nat} {o : AsyncOp} {k : Nat} (h : s.TakesRun n o k) :
    s.runFrom n o .valid (o.granule o.pos) (o.limit - o.pos) o.pos = o.positions k := by
  obtain ⟨-, hle, hin, hend⟩ := h
  exact runFrom_eq (fun i hi => ⟨by omega, hin i hi⟩) (by omega) (hend.imp (by omega) fun h hp => h hp.2)

theorem skipQuiet_stays {s : State} {n : Nat} {o : AsyncOp} {p : Nat} (h : s.posKind n o p ≠ .quiet) : ∀ f, s.skipQuiet n o f p = p
  | 0 => rfl
  | _ + 1 => if_neg fun hp => h hp.2

theorem fillQuiet_nil (o : AsyncOp) : o.fillQuiet [] = o := by
  unfold AsyncOp.fillQuiet
  split
  · rfl
  · rfl
  · rfl

/-! ## A request of the engine -/

/-- The operations whose requests are stated: those of a descriptor between local memory and the unified range. -/
def AsyncOp.Moves (o : AsyncOp) : Prop := o.kind = .ldT ∨ o.kind = .stT ∨ o.kind = .stAdd

theorem AsyncOp.Moves.isAcc {o : AsyncOp} (h : o.Moves) : o.kind.isAcc = false := by
  obtain h | h | h := h <;> rw [h] <;> rfl

theorem AsyncOp.Moves.ne_ldW {o : AsyncOp} (h : o.Moves) : o.kind ≠ .ldW := by
  obtain h | h | h := h <;> rw [h] <;> decide

/-- Where a run starts at once, the request that it sends ends the step. -/
theorem walkOn_run {s u : State} {n k : Nat} {o o' : AsyncOp} {r : Arrival} (h : s.TakesRun n o k)
    (hfree : o.kind = .ldT → (s.liveCh n).feedBlocked o.seq (o.localSpan o.pos (o.pos + k)).1 (o.localSpan o.pos (o.pos + k)).2 = false)
    (hsend : (if o.kind = .ldT ∨ o.kind = .ldW then s.sendLoad n o (o.positions k) r else s.sendStore n o false (o.positions k)) = (.done, o', u)) :
    s.walkOn n o r = u.checkEnd n { o' with pos := o.pos + k } := by
  have hkind : s.posKind n o o.pos = .valid := (h.2.2.1 0 h.1).1
  have hlt : o.pos < o.limit := by have := h.1; have := h.2.1; omega
  have hlen : (o.positions k).length = k := by simp [AsyncOp.positions]
  unfold State.walkOn
  extract_lets fuel p ps0 kind run last span filled o1
  have hp : p = o.pos := skipQuiet_stays (by rw [hkind]; decide) _
  have hps : ps0 = [] := by simp [ps0, hp]
  have hv : kind = .valid := by unfold kind; rw [hp, if_pos hlt, hkind]
  have hrun : run = o.positions k := by unfold run; rw [if_pos (.inl hv), hv, hp, h.run]
  have hlast : last = o.pos + k := by unfold last; rw [hp, hrun, hlen]
  have hblock : ¬(o.kind = .ldT ∧ (s.liveCh n).feedBlocked o.seq span.1 span.2 = true) := by
    unfold span
    rw [hlast]
    exact fun hb => by simp [hfree hb.1] at hb
  have ho1 : o1 = o := by
    have hf : filled = o := by unfold filled; rw [hps, fillQuiet_nil]
    show { filled with pos := p } = o
    rw [hf, hp]
  clear_value o1 span last run kind
  subst hlast hrun hv ho1
  rw [if_neg hblock]
  dsimp only
  rw [hsend]

/-- An operation that has begun and has requests left goes on with its run. -/
theorem advance_run {s u : State} {n k : Nat} {o o' : AsyncOp} {r : Arrival} (hm : o.Moves) (hp : o.passEnd = false) (hs : o.sent = false)
    (hb : o.begun = true) (h : s.TakesRun n o k)
    (hfree : o.kind = .ldT → (s.liveCh n).feedBlocked o.seq (o.localSpan o.pos (o.pos + k)).1 (o.localSpan o.pos (o.pos + k)).2 = false)
    (hsend : (if o.kind = .ldT ∨ o.kind = .ldW then s.sendLoad n o (o.positions k) r else s.sendStore n o false (o.positions k)) = (.done, o', u)) :
    s.advance n o r = u.checkEnd n { o' with pos := o.pos + k } := by
  unfold State.advance Chamber.accWaits AsyncOp.walks
  simp [hp, hs, hb, hm.isAcc, hm.ne_ldW, walkOn_run h hfree hsend]

/-- An operation whose descriptor R135 forbids transfers nothing. -/
theorem advance_bad {s : State} {n : Nat} {o : AsyncOp} {r : Arrival} (hm : o.Moves) (hp : o.passEnd = false)
    (hb : o.begun = false) (hd : dBad o.desc = true) :
    s.advance n o r = ({ o with begun := true, sent := true, failed := true }, s.violCh n 4 0) := by
  unfold State.advance Chamber.accWaits State.beginOp
  simp [hp, hb, hd, hm.isAcc, hm.ne_ldW]

/-- At its last position an operation has no request left; before, it goes on. -/
theorem checkEnd_eq {s u : State} {n : Nat} {o o' : AsyncOp} (hf : s.flushLines n o o.pos = (o', u)) (ha : o'.kind.isAcc = false)
    (hs : o'.sent = false) : s.checkEnd n o = ({ o' with sent := decide (o'.limit ≤ o'.pos) }, u) := by
  unfold State.checkEnd
  rw [hf]
  dsimp only
  rw [hs, if_neg Bool.false_ne_true]
  by_cases h : o'.limit ≤ o'.pos
  · rw [if_pos h, State.endPass, ha, decide_eq_true h]
    rfl
  · rw [if_neg h, decide_eq_false h, ← hs]

/-- After a request of a store nothing waits. -/
theorem checkEnd_store {s : State} {n : Nat} {o : AsyncOp} (hm : o.Moves) (hk : o.kind ≠ .ldT) (hs : o.sent = false) :
    s.checkEnd n o = ({ o with sent := decide (o.limit ≤ o.pos) }, s) :=
  checkEnd_eq (by unfold State.flushLines; rw [if_pos hk]) hm.isAcc hs

/-- An element of a load goes to local memory once positions up to `q` have come: no later one is in its line (R32; log entry 22). -/
def AsyncOp.lineDone (o : AsyncOp) (q : Nat) (e : Nat × Nat) : Bool :=
  decide (o.limit ≤ q) || decide (o.localStart e.1 / 64 < o.localStart q / 64)

/-- A chamber with elements of a load in its local memory. -/
def Chamber.putElems (c : Chamber) (o : AsyncOp) (es : List (Nat × Nat)) : Chamber :=
  { c with lmem := es.foldl (fun m e => localPut o.desc m o.laddr e.1 e.2) c.lmem }

/-- After a request of a load the elements of the lines that are complete are in local memory, and the others wait. -/
theorem checkEnd_load {s : State} {n : Nat} {o : AsyncOp} (hk : o.kind = .ldT) (hs : o.sent = false) :
    s.checkEnd n o = ({ o with elems := o.elems.filter fun e => !o.lineDone o.pos e, sent := decide (o.limit ≤ o.pos) },
      s.modCh n fun c => c.putElems o (o.elems.filter (o.lineDone o.pos))) := by
  refine checkEnd_eq (o' := { o with elems := o.elems.filter fun e => !o.lineDone o.pos e }) ?_ (congrArg AKind.isAcc hk) hs
  unfold State.flushLines
  rw [if_neg (not_not_intro hk)]
  rfl

/-! ## Loads (R144, R152, R154) -/

theorem claimed_false {s : State} {a : Nat} (h : s.claimed none a = false) : s.blockingClaim none a = none := by
  unfold State.claimed at h
  simpa using h

/-- A granule that may be read arrives as memory holds it. -/
theorem sendLoad_ok {s : State} {n k a : Nat} {o : AsyncOp} (hk : 0 < k) (hr : s.region n true false (o.granule o.pos * 256) = .ok a)
    (hc : s.claimed none a = false) (hread : s.Readable a) :
    ∃ u, s.sendLoad n o (o.positions k) .ok = (.done, o.takeElems (o.positions k) (memRead s.mem a 256), u) ∧ s.Reads u := by
  obtain ⟨u, hu, hreads⟩ := readIn_ok hread (claimed_false hc) 256
  refine ⟨u, ?_, hreads⟩
  unfold State.sendLoad State.arrive
  rw [positions_head hk]
  dsimp only
  rw [hr]
  dsimp only
  rw [hc, hu]
  rfl

/-- The region table refuses an address, and the violation is counted with a KIND (R152, R154). -/
def Region.Refuses (r : Region) (kind : Nat) : Prop := (r = .noMatch ∧ kind = 1) ∨ (r = .denied ∧ kind = 2)

/-- A refused request of a load delivers zeros. -/
theorem sendLoad_refused {s : State} {n k kind : Nat} {o : AsyncOp} {r : Arrival} (hk : 0 < k)
    (hr : (s.region n true false (o.granule o.pos * 256)).Refuses kind) :
    s.sendLoad n o (o.positions k) r = (.done, o.takeElems (o.positions k) (zeroBytes 256), s.violCh n kind (o.granule o.pos * 256)) := by
  unfold State.sendLoad
  rw [positions_head hk]
  dsimp only
  obtain ⟨hr, rfl⟩ | ⟨hr, rfl⟩ := hr
  · rw [hr]; rfl
  · rw [hr]; rfl

/-! ## Stores (R143, R149, R152, R154) -/

theorem flags_join_none (f : Flags) : f.join Flags.none = f := by simp [Flags.join, Flags.none]

theorem raise_none (s : State) (n pc tag : Nat) : s.raise n pc tag Flags.none = s := rfl

theorem storeFlags_none (s : State) (n : Nat) (o : AsyncOp) : s.storeFlags n o Flags.none = s := by
  unfold State.storeFlags
  rw [show (if o.reruns then { Flags.none with overflow := false } else Flags.none) = Flags.none from ite_self _]
  exact raise_none s n o.pc o.tag

/-- The region table keeps an address's place in its granule. -/
theorem region_aligned {s : State} {n g a : Nat} {rd wr : Bool} (h : s.region n rd wr (g * 256) = .ok a) : 256 * granuleOf a = a := by
  unfold State.region at h
  split at h
  · simp at h
  · split at h
    · simp at h
    · injection h with h
      unfold granuleOf
      omega

theorem mem_gotFrame (s : State) (w : FrameWait) : (s.gotFrame w).mem = s.mem := by
  unfold State.gotFrame State.settleFull
  split
  · split <;> rfl
  · rfl

theorem ch_gotFrame (s : State) (w : FrameWait) (m : Nat) : (s.gotFrame w).ch m = s.ch m := by
  unfold State.gotFrame State.settleFull
  split
  · split <;> rfl
  · rfl

theorem mayWrite_free {s : State} {a : Nat} {whole : Bool} (hc : s.claimed none a = false) (hl : s.cachedLines (granuleOf a) = []) :
    s.mayWrite a whole = (true, s) := by
  unfold State.mayWrite
  rw [hc, hl]
  rfl

/-- A merge into a granule that may be written at once stores the granule's bytes as changed. -/
theorem mergeIn_ok {s : State} {a : Nat} {f : List Byte → List Byte} (hw : s.Writable a) (ha : 256 * granuleOf a = a)
    (hf : f (memRead s.mem a 256) ≠ []) (agent : Nat) (whole : Bool) :
    ∃ v, s.mergeIn agent whole (granuleOf a) f = (.done, v) ∧ s.Writes v a (f (memRead s.mem a 256)) := by
  unfold State.mergeIn
  rw [ha]
  exact writeAs_ok hw hf agent false whole

/-- What a request of a store brings: each position's visit, its element in local memory, and its row and column. -/
def AsyncOp.brings (o : AsyncOp) (lmem : Memory) (k : Nat) : List Sent1 :=
  (o.positions k).map fun p => (dVisit o.desc o.count o.entries p, localElem o.desc lmem o.laddr p, p / o.p0, p % o.p0)

/-- An addition is asked for by st.add alone. -/
theorem adds_eq {o : AsyncOp} (hm : o.Moves) : (o.kind == .stAdd || o.kind == .stAccAdd) = (o.kind == .stAdd) := by
  obtain h | h | h := hm <;> rw [h] <;> rfl

theorem sourceOf_eq {s : State} {n : Nat} {o : AsyncOp} (hm : o.Moves) (p : Nat) :
    s.sourceOf n o p = (localElem o.desc (s.ch n).lmem o.laddr p, Flags.none, false) := by
  refine if_neg ?_
  obtain h | h | h := hm <;> rw [h] <;> decide

theorem stored_eq {s : State} {n : Nat} {o : AsyncOp} (hm : o.Moves) (p : Nat) : s.stored n o p = true := by
  unfold State.stored
  rw [hm.isAcc]
  rfl

theorem foldl_join_none (ps : List Nat) (f : Nat → Nat) :
    (ps.map fun p => (p, f p, Flags.none, false)).foldl (fun (g : Flags) e => g.join e.2.2.1) Flags.none = Flags.none := by
  induction ps with
  | nil => rfl
  | cons p ps ih => exact ih

/-- The granule of address `a` with what a request of a store brings put, or added, into it, and what the additions show. -/
def AsyncOp.merged (o : AsyncOp) (s : State) (n k a : Nat) : List Byte × StoreEv :=
  putAll o (o.kind == .stAdd) (o.brings (s.ch n).lmem k) (memRead s.mem a 256)

/-- A request of a store that may be written at once merges its elements into the granule; one that the region table refuses is counted. -/
theorem sendStore_ends {s : State} {n k : Nat} {o : AsyncOp} (hm : o.Moves) (hk : 0 < k) :
    (∀ a, s.region n (o.kind == .stAdd) true (o.granule o.pos * 256) = .ok a → s.claimed none a = false → s.cachedLines (granuleOf a) = [] →
      s.Writable a → (o.merged s n k a).1.length = 256 →
      ∃ v, s.Writes v a (o.merged s n k a).1 ∧ s.sendStore n o false (o.positions k) = (.done, { o with dest := o.dest.join (o.merged s n k a).2 },
        (v.gotFrame (.chamber n o.seq)).raise n o.pc o.tag (o.merged s n k a).2.flags)) ∧
    (∀ kind, (s.region n (o.kind == .stAdd) true (o.granule o.pos * 256)).Refuses kind →
      s.sendStore n o false (o.positions k) = (.done, o, s.violCh n kind (o.granule o.pos * 256))) := by
  unfold State.sendStore
  extract_lets vis cell add x ps srcs elems sf ovf o'
  have hadd : add = (o.kind == .stAdd) := adds_eq hm
  have hx : x = o.granule o.pos * 256 := by unfold x; rw [positions_head hk]
  have hps : ps = o.positions k := List.filter_eq_self.mpr fun p _ => stored_eq hm p
  have hsrcs : srcs = (o.positions k).map fun p => (p, localElem o.desc (s.ch n).lmem o.laddr p, Flags.none, false) := by
    unfold srcs
    rw [hps]
    exact List.map_congr_left fun p _ => by rw [sourceOf_eq hm]
  have helems : elems = o.brings (s.ch n).lmem k := by
    show srcs.map _ = _
    rw [hsrcs, List.map_map]
    rfl
  have hsf : sf = Flags.none := by
    show srcs.foldl _ _ = _
    rw [hsrcs]
    exact foldl_join_none _ _
  have hovf : ovf = false := by
    show srcs.any _ = _
    rw [hsrcs]
    simp
  have ho' : o' = o := by
    show { o with ovf := o.ovf || ovf, flags := o.flags.join sf } = o
    rw [hovf, hsf, Bool.or_false, flags_join_none]
  have hne : o.brings (s.ch n).lmem k ≠ [] := by
    unfold AsyncOp.brings AsyncOp.positions
    simp [hk.ne']
  clear_value o' ovf sf elems srcs ps x add
  subst hadd hx hps helems hsf ho'
  refine ⟨fun a hr hc hl hw hlen => ?_, fun kind hr => ?_⟩
  · rw [hr]
    dsimp only
    rw [mayWrite_free hc hl]
    dsimp only
    rw [if_neg hne]
    obtain ⟨v, hv, hwrites⟩ := mergeIn_ok (f := fun bs => (putAll o' (o'.kind == .stAdd) (o'.brings (s.ch n).lmem k) bs).1) hw (region_aligned hr)
      (fun h => by rw [AsyncOp.merged, h] at hlen; cases hlen) 3 _
    refine ⟨v, hwrites, ?_⟩
    rw [hv]
    dsimp only
    rw [storeFlags_none]
    rfl
  · obtain ⟨hr, rfl⟩ | ⟨hr, rfl⟩ := hr
    · rw [hr]
      dsimp only
      rw [storeFlags_none]
      rfl
    · rw [hr]
      dsimp only
      rw [storeFlags_none]
      rfl

/-! ## The command -/

/-- A request leaves a state with a chamber replaced, but for the ECC errors found: memory, other chambers and the fields that no ECC error
writes are that state's. -/
def State.Requested (u t : State) (n : Nat) (c : Chamber) : Prop :=
  t.mem = u.mem ∧ (t.ch n).tame = c.tame ∧ (∀ m, m ≠ n → t.ch m = u.ch m) ∧ ∀ f : FieldRef, ¬Own n f.key → t.get f = u.get f

/-- The command answers what the engine's step leaves. -/
theorem descriptorRequest_does {ch : Fin 28} {us : Errors} {s u : State} {o o' : AsyncOp} (hn : (s.ch ch).nextOp = some o)
    (ha : s.advance ch o us.arrival = (o', u)) : Does (.descriptorRequest ch us) s fun t => u.Requested t ch ((u.ch ch).setOp o') := by
  have he : exec (.descriptorRequest ch us) s = .next (((u.modCh ch fun c => c.setOp o').upsets ch o.pc o.tag
      (us.upsets.filter fun e => upsetMeets e false (o.touched o.pos o'.pos))).accUpsets ch o.pc o.tag
      (us.accUpsets.filter fun e => accMeets e (o.arr == 1) ((s.ch ch).accRead o o.pos o'.pos))) := by
    show execDescriptorRequest ch us s = _
    unfold execDescriptorRequest
    simp only [hn, ha]
  refine ⟨_, he, ?_⟩
  generalize us.upsets.filter _ = us'
  generalize us.accUpsets.filter _ = as'
  generalize hv : u.modCh ch (fun c => c.setOp o') = v
  have hch : v.ch ch = (u.ch ch).setOp o' := by rw [← hv]; exact ch_modCh_eq
  have hget : ∀ f, v.get f = u.get f := fun f => by rw [← hv]; rfl
  have hmem : v.mem = u.mem := by rw [← hv]; rfl
  have htame := (tame_upsets (s := v) ch o.pc o.tag us').trans (tame_accUpsets ch o.pc o.tag as')
  have hown := (within_upsets (s := v) ch o.pc o.tag us').trans (within_accUpsets ch o.pc o.tag as')
  have honly : u.OnlyChamber v ch := hv ▸ (only_refl u ch).modCh _
  refine ⟨?_, (htame.2 ch).trans (congrArg Chamber.tame hch), (only_accUpsets as' (only_upsets us' honly)).2,
    fun f hf => (hown.get hf).trans (hget f)⟩
  rw [htame.1]
  exact hmem

/-- A violation of a chamber has been counted, and is in its LAST register unless one of a lower KIND keeps it there (R154). -/
def State.Counted (s t : State) (n kind addr : Nat) : Prop :=
  t.get (Reg.CHn_VIOL_COUNT_COUNT n) = min (s.get (Reg.CHn_VIOL_COUNT_COUNT n) + 1) (2 ^ 32 - 1) ∧
  (¬s.Outranked (n + 1) (Reg.CHn_VIOL_LAST_VALID n) (Reg.CHn_VIOL_LAST_KIND n) kind →
    t.get (Reg.CHn_VIOL_LAST_KIND n) = kind ∧ t.get (Reg.CHn_VIOL_LAST_ADDR n) = addr % 2 ^ 48)

theorem violFields_not_own (n : Nat) : ∀ f ∈ violFields n, ¬Own n f.key := by
  simp [violFields, Own, bundleFields]
  omega

/-- A violation counted as a request is made stays counted when the command is done. -/
theorem counted_of_requested {s u t : State} {n kind addr : Nat} {c : Chamber} (hk : kind < 16)
    (hu : ∀ f, u.get f = (s.violCh n kind addr).get f) (h : u.Requested t n c) : s.Counted t n kind addr := by
  have hc : s.CountsViol (s.violCh n kind addr) n kind addr := counts_violCh s n kind addr hk
  obtain ⟨hcount, -, hlast, -⟩ := hc
  obtain ⟨-, -, -, hget⟩ := h
  have hkeep : ∀ f ∈ violFields n, t.get f = (s.violCh n kind addr).get f := fun f hf => (hget f (violFields_not_own n f hf)).trans (hu f)
  refine ⟨(hkeep _ (by simp [violFields])).trans hcount, fun ho => ?_⟩
  obtain ⟨-, hkind, hrest, -⟩ := hlast ho
  exact ⟨(hkeep _ (by simp [violFields])).trans hkind, (hkeep _ (by simp [violFields])).trans (hrest (_, _) (List.mem_singleton_self _))⟩

theorem Region.Refuses.lt {r : Region} {kind : Nat} (h : r.Refuses kind) : kind < 16 := by
  obtain ⟨-, rfl⟩ | ⟨-, rfl⟩ := h
  · decide
  · decide

section running
variable {ch : Fin 28} {us : Errors} {s u : State} {o o' : AsyncOp} {k : Nat} {bs : List Byte}

/-- The elements of a load once its next `k` positions have come from a granule's bytes. -/
def AsyncOp.got (o : AsyncOp) (k : Nat) (bs : List Byte) : Map Nat :=
  (o.positions k).foldl (fun m p =>
    mapInsert m p (elemAt (dType o.desc) bs ((dVisit o.desc o.count o.entries p).byte % 256) (dVisit o.desc o.count o.entries p).nibble)) o.elems

/-- An operation once its next `k` positions are done. -/
def AsyncOp.after (o : AsyncOp) (k : Nat) : AsyncOp := { o with pos := o.pos + k, sent := decide (o.limit ≤ o.pos + k) }

/-- A chamber once a load's next `k` positions have come: the lines that are complete are in local memory, the rest waits. -/
def Chamber.loaded (c : Chamber) (o : AsyncOp) (k : Nat) (bs : List Byte) : Chamber :=
  (c.putElems o ((o.got k bs).filter (o.lineDone (o.pos + k)))).setOp
    { o.after k with elems := (o.got k bs).filter fun e => !o.lineDone (o.pos + k) e }

theorem takeElems_load (hk : o.kind = .ldT) : o.takeElems (o.positions k) bs = { o with elems := o.got k bs } :=
  if_neg (by rw [hk]; decide)

variable (hn : (s.ch ch).nextOp = some o) (hm : o.Moves) (hp : o.passEnd = false) (hs : o.sent = false)
include hn hm hp

theorem bad_does (hb : o.begun = false) (hd : dBad o.desc = true) : Does (.descriptorRequest ch us) s fun t =>
    (s.violCh ch 4 0).Requested t ch ((s.ch ch).setOp { o with begun := true, sent := true, failed := true }) := by
  have h := descriptorRequest_does (us := us) hn (advance_bad hm hp hb hd)
  rw [ch_violCh] at h
  exact h

variable (hb : o.begun = true) (hr : s.TakesRun ch o k)
include hs hb hr

/-- A load's request brings the bytes that its chamber's engine answers. -/
theorem load_does (hk : o.kind = .ldT)
    (hfree : (s.liveCh ch).feedBlocked o.seq (o.localSpan o.pos (o.pos + k)).1 (o.localSpan o.pos (o.pos + k)).2 = false)
    (hsend : s.sendLoad ch o (o.positions k) us.arrival = (.done, o.takeElems (o.positions k) bs, u)) (hu : ∀ m, u.ch m = s.ch m) :
    Does (.descriptorRequest ch us) s fun t => u.Requested t ch ((s.ch ch).loaded o k bs) := by
  rw [takeElems_load hk] at hsend
  have hadv := (advance_run hm hp hs hb hr (fun _ => hfree) ((if_pos (.inl hk)).trans hsend)).trans
    (checkEnd_load (o := { o with elems := o.got k bs, pos := o.pos + k }) hk hs)
  obtain ⟨t, he, hmem, hch, hother, hget⟩ := descriptorRequest_does hn hadv
  rw [ch_modCh_eq, hu] at hch
  exact ⟨t, he, hmem, hch, fun m hne => (hother m hne).trans (by rw [ch_modCh, if_neg hne]), hget⟩

/-- A store's request leaves the state that its chamber's engine answers. -/
theorem store_does (hk : o.kind ≠ .ldT) {e : StoreEv} (hsend : s.sendStore ch o false (o.positions k) = (.done, { o with dest := e }, u))
    (hu : (u.ch ch).tame = (s.ch ch).tame) :
    Does (.descriptorRequest ch us) s fun t => u.Requested t ch ((s.ch ch).setOp { o.after k with dest := e }) := by
  have hadv := (advance_run (r := us.arrival) hm hp hs hb hr (fun h => absurd h hk) ((if_neg (not_or.mpr ⟨hk, hm.ne_ldW⟩)).trans hsend)).trans
    (checkEnd_store (o := { o with dest := e, pos := o.pos + k }) hm hk hs)
  obtain ⟨t, he, hmem, hch, hrest⟩ := descriptorRequest_does hn hadv
  exact ⟨t, he, hmem, hch.trans (congrArg (fun c => c.setOp { o.after k with dest := e }) hu), hrest⟩

end running

/-- Settles O31: a bad descriptor ends its operation, and a load's or a store's request goes by the region table's answer. That a line's
elements wait for its last, and that KIND 1 and 2 record the granule's address, are the model's choices (log entries 22 and 77). -/
theorem descriptorRequests : Obligations.DescriptorRequests := by
  unfold Obligations.DescriptorRequests
  intro ch us s o k hn hp hm hs
  refine ⟨fun hb hd => ?_, fun hb hr hk hfree => ⟨fun a hreg hc hread harr => ?_, fun kind href => ?_⟩,
    fun hb hr hk => ⟨fun a hreg hc hl hw hlen => ?_, fun kind href => ?_⟩⟩
  · obtain ⟨t, he, ht⟩ := bad_does hn hm hp hb hd
    have hcount := counted_of_requested (by decide) (fun _ => rfl) ht
    obtain ⟨hmem, hch, -⟩ := ht
    exact ⟨t, he, (congrArg Chamber.ops hch :), (congrArg Chamber.lmem hch :), hmem.trans (violate_mem s _ _ _ _ _ _), hcount⟩
  · obtain ⟨u, hsend, hu⟩ := sendLoad_ok hr.1 hreg hc hread
    obtain ⟨t, he, hmem, hch, hother, -⟩ := load_does hn hm hp hs hb hr hk hfree (harr ▸ hsend) hu.ch
    exact ⟨t, he, ⟨(congrArg Chamber.lmem hch :), (congrArg Chamber.ops hch :), hmem.trans hu.mem⟩, (congrArg Chamber.sregs hch :),
      (congrArg Chamber.vregs hch :), fun m hne => (hother m hne).trans (hu.ch m)⟩
  · obtain ⟨t, he, ht⟩ := load_does hn hm hp hs hb hr hk hfree (sendLoad_refused hr.1 href) fun _ => ch_violCh
    have hcount := counted_of_requested (Region.Refuses.lt href) (fun _ => rfl) ht
    obtain ⟨hmem, hch, hother, -⟩ := ht
    exact ⟨t, he, ⟨(congrArg Chamber.lmem hch :), (congrArg Chamber.ops hch :), hmem.trans (violate_mem s _ _ _ _ _ _)⟩, hcount,
      fun m hne => (hother m hne).trans ch_violCh⟩
  · obtain ⟨v, hv, hsend⟩ := (sendStore_ends hm hr.1).1 a hreg hc hl hw hlen
    have hgot : ∀ m, (v.gotFrame (.chamber ch o.seq)).ch m = s.ch m := fun m => (ch_gotFrame v _ m).trans (hv.ch m)
    have htame := tame_raise (s := v.gotFrame (.chamber ch o.seq)) ch o.pc o.tag (o.merged s ch k a).2.flags
    have honly := only_raise (only_refl (v.gotFrame (.chamber ch o.seq)) ch) o.pc o.tag (o.merged s ch k a).2.flags
    obtain ⟨t, he, hmem, hch, hother, -⟩ := store_does (us := us) hn hm hp hs hb hr hk hsend ((htame.2 ch).trans (congrArg _ (hgot ch)))
    have hmem' : t.mem = v.mem := by rw [hmem, htame.1]; exact mem_gotFrame v _
    exact ⟨t, he, fun b => by rw [hmem']; exact hv.2.2 b, (congrArg Chamber.ops hch :), (congrArg Chamber.lmem hch :),
      fun m hne => (hother m hne).trans ((honly.2 m hne).trans (hgot m))⟩
  · obtain ⟨t, he, ht⟩ := store_does (us := us) hn hm hp hs hb hr hk ((sendStore_ends hm hr.1).2 kind href) (congrArg _ ch_violCh)
    have hcount := counted_of_requested (Region.Refuses.lt href) (fun _ => rfl) ht
    obtain ⟨hmem, hch, -⟩ := ht
    exact ⟨t, he, hmem.trans (violate_mem s _ _ _ _ _ _), (congrArg Chamber.ops hch :), (congrArg Chamber.lmem hch :), hcount⟩

end Sys2Proof.Machine
end

section
/-! Siphon's admission (R168), and from it O36. -/

namespace Sys2Proof.Machine

open Sys2Proof

/-! ## Admission pair by pair -/

section
variable {cap base : Nat → Nat} {fate : Nat} {p : Pair} {ps : List Pair} {m : Map Nat}

/-- A pair whose expert has room takes the expert's next slot. -/
theorem fitAll_admit (h : mapGet 0 m p.expert < cap p.expert) :
    let r := fitAll cap base fate ps (mapSet 0 m p.expert (mapGet 0 m p.expert + 1))
    fitAll cap base fate (p :: ps) m = (⟨p, fate, base p.expert + mapGet 0 m p.expert⟩ :: r.1, r.2.1, r.2.2) := if_pos h

/-- A pair whose expert is full is refused. -/
theorem fitAll_refuse (h : ¬mapGet 0 m p.expert < cap p.expert) :
    let r := fitAll cap base fate ps m
    fitAll cap base fate (p :: ps) m = (r.1, p :: r.2.1, r.2.2) := if_neg h

end

section
variable (cap base : Nat → Nat) (fate : Nat)

theorem fitAll_fate (ps : List Pair) : ∀ m, ∀ p ∈ (fitAll cap base fate ps m).1, p.fate = fate := by
  induction ps with
  | nil => exact fun _ _ hp => nomatch hp
  | cons p ps ih =>
    intro m q hq
    by_cases h : mapGet 0 m p.expert < cap p.expert
    · rw [fitAll_admit h] at hq
      obtain rfl | hq := List.mem_cons.mp hq
      · rfl
      · exact ih _ q hq
    · rw [fitAll_refuse h] at hq
      exact ih _ q hq

/-- Every pair is admitted or refused. -/
theorem fitAll_length (ps : List Pair) : ∀ m, (fitAll cap base fate ps m).1.length + (fitAll cap base fate ps m).2.1.length = ps.length := by
  induction ps with
  | nil => exact fun _ => rfl
  | cons p ps ih =>
    intro m
    by_cases h : mapGet 0 m p.expert < cap p.expert
    · rw [fitAll_admit h]
      exact (Nat.add_right_comm _ 1 _).trans (congrArg (· + 1) (ih _))
    · rw [fitAll_refuse h]
      exact congrArg (· + 1) (ih m)

/-- What admission does for one expert that has admitted `n` pairs before: the pairs it is offered, those it admits, those it refuses, and its
count. -/
def AdmitsFor (e n : Nat) (ps : List Pair) (r : List Placed × List Pair × Map Nat) : Prop :=
  let offered := ps.filter fun p => p.expert == e
  let mine := r.1.filter fun p => p.pair.expert == e
  let k := min offered.length (cap e - n)
  mine.map (·.pair) = offered.take (cap e - n) ∧ mine.map (·.slot) = (List.range k).map (base e + n + ·) ∧
  (r.2.1.filter fun p => p.expert == e) = offered.drop (cap e - n) ∧ mapGet 0 r.2.2 e = n + k

theorem fitAll_admits (e : Nat) (ps : List Pair) : ∀ m, AdmitsFor cap base e (mapGet 0 m e) ps (fitAll cap base fate ps m) := by
  induction ps with
  | nil => intro m; simp [AdmitsFor, fitAll]
  | cons p ps ih =>
    intro m
    by_cases h : mapGet 0 m p.expert < cap p.expert
    · rw [fitAll_admit h]
      have hm := ih (mapSet 0 m p.expert (mapGet 0 m p.expert + 1))
      by_cases he : p.expert = e
      · subst he
        obtain ⟨hpair, hslot, hleft, hcount⟩ := hm
        rw [mapGet_set, if_pos rfl] at hpair hslot hleft hcount
        obtain ⟨k, hk⟩ : ∃ k, cap p.expert - mapGet 0 m p.expert = k + 1 := ⟨cap p.expert - mapGet 0 m p.expert - 1, by omega⟩
        have hk' : cap p.expert - (mapGet 0 m p.expert + 1) = k := by omega
        rw [hk'] at hpair hslot hleft hcount
        refine ⟨?_, ?_, ?_, ?_⟩
        · simp [hk, hpair]
        · simp only [hk, List.filter_cons, beq_self_eq_true, if_true, List.length_cons, List.map_cons, hslot, Nat.add_min_add_right,
            List.range_succ_eq_map, List.map_map]
          exact congrArg _ (List.map_congr_left fun i _ => by rw [Function.comp_apply]; omega)
        · simp [hk, hleft]
        · simp only [hk, List.filter_cons, beq_self_eq_true, if_true, List.length_cons, hcount]
          omega
      · rw [mapGet_set, if_neg (Ne.symm he)] at hm
        simpa [AdmitsFor, he] using hm
    · rw [fitAll_refuse h]
      have hm := ih m
      by_cases he : p.expert = e
      · subst he
        have hfull : cap p.expert - mapGet 0 m p.expert = 0 := by omega
        simpa [AdmitsFor, hfull] using hm
      · simpa [AdmitsFor, he] using hm

end

/-- Settles O36, by induction on the pairs offered. -/
theorem admissionFillsCapacity : Obligations.AdmissionFillsCapacity := by
  unfold Obligations.AdmissionFillsCapacity
  intro cap base fate ps m e
  obtain ⟨hpair, hslot, hleft, hcount⟩ := fitAll_admits cap base fate e ps m
  exact ⟨hpair, hslot, fitAll_fate cap base fate ps m, hleft, fitAll_length cap base fate ps m, hcount⟩

end Sys2Proof.Machine
end

section
/-! A unit's ENABLE and DISABLE by the host (R160, R180, R235, R352), the helictites' jobs from record to end (R222 to R224), and from them O44. -/

namespace Sys2Proof.Machine

open Sys2Proof

/-! ## A unit's ENABLE (R160) -/

section
variable {s : State} {en : FieldRef} {rise : State → State}

/-- A write that is locked out is counted as the host's, with KIND 3. -/
theorem counts_lockedOut (s : State) (off : Nat) : s.CountsGlobalViol (s.lockedOut off) 0 3 off :=
  counts_violGlb s 0 3 off (by decide) (by decide)

theorem hostRaises_locked (h : s.stepRuns = true) : s.hostRaises en rise = s.lockedOut en.off := if_pos h

theorem hostRaises_raised (h : s.stepRuns = false) (he : s.get en = 1) : s.hostRaises en rise = s := by
  unfold State.hostRaises State.flag
  rw [h, he]
  rfl

theorem hostRaises_rises (h : s.stepRuns = false) (he : s.get en ≠ 1) : s.hostRaises en rise = rise s := by
  unfold State.hostRaises State.flag
  rw [h, beq_false_of_ne he]
  rfl

theorem hostClears_locked (h : s.stepRuns = true) : s.hostClears en = s.lockedOut en.off := if_pos h

theorem hostClears_clears (h : s.stepRuns = false) : s.hostClears en = s.put en 0 := by
  unfold State.hostClears
  rw [h]
  rfl

/-- A field that a host clears is zero; nothing else changes. -/
theorem cleared (s : State) (en : FieldRef) :
    (s.put en 0).get en = 0 ∧ s.KeepsFields (s.put en 0) [en] ∧ s.put en 0 = { s with fields := (s.put en 0).fields } :=
  ⟨State.get_put_eq.trans (Nat.zero_mod _), (keeps_refl s _).put (List.mem_singleton_self en), rfl⟩

end

/-- Signal words keep their values where only fields of other registers change. -/
theorem State.KeepsFields.sig {s t : State} {fs : List FieldRef} (h : s.KeepsFields t fs) (hfs : ∀ f ∈ fs, 0x88000 ≤ f.off) {n : Nat}
    (hn : n < 4096) : t.sig n = s.sig n := by
  refine h _ fun hm => ?_
  obtain ⟨f, hf, hk⟩ := List.mem_map.mp hm
  have := hfs f hf
  simp only [FieldRef.key, Reg.GLB_SIGn_VALUE] at hk
  omega

theorem ring_enableRing (s : State) (id sig m : Nat) :
    (s.enableRing id sig).ring m = if m = id then ⟨s.sig sig, 0, []⟩ else s.ring m := State.ring_setRing ..

/-! ## The helictites' ENABLE -/

theorem hlcEnable_does {s : State} (hsig : s.get Reg.HLC_CTL_JOB_SIG < 4096) :
    s.hlcEnable.get Reg.HLC_CTL_ENABLE = 1 ∧ s.hlcEnable.get Reg.HLC_PROGRESS_DONE = 0 ∧
    s.hlcEnable.ring 2 = ⟨s.sig (s.get Reg.HLC_CTL_JOB_SIG), 0, []⟩ ∧
    s.KeepsFields s.hlcEnable [Reg.HLC_CTL_ENABLE, Reg.HLC_PROGRESS_DONE] ∧
    s.hlcEnable = { s with fields := s.hlcEnable.fields, rings := s.hlcEnable.rings, hlcQueue := s.hlcQueue.map fun q => { q with behind := 0 } } := by
  have hget := puts_get [(Reg.HLC_CTL_ENABLE, 1), (Reg.HLC_PROGRESS_DONE, 0)] (by simp) s
  have hkeep : s.KeepsFields (s.puts [(Reg.HLC_CTL_ENABLE, 1), (Reg.HLC_PROGRESS_DONE, 0)]) [Reg.HLC_CTL_ENABLE, Reg.HLC_PROGRESS_DONE] :=
    State.KeepsFields.puts _ (keeps_refl s _) (by simp)
  refine ⟨hget (Reg.HLC_CTL_ENABLE, 1) (by simp), hget (Reg.HLC_PROGRESS_DONE, 0) (by simp), ?_, hkeep.of_fields rfl rfl rfl, rfl⟩
  rw [← hkeep.sig (by decide) hsig]
  exact ring_enableRing _ 2 _ 2

/-! ## The start of a job (R222 to R224) -/

theorem hlcBad_iff (s : State) (ws : List Nat) : s.hlcBad ws = true ↔ ¬(∃ m, m ∈ hlcTargets ws) ∨
    2 ^ s.get Reg.GLB_ID_LAYERS ≤ recBits ws 0 35 24 ∨ recBits ws 0 55 51 ≠ 0 ∨ recBits ws 2 63 32 ≠ 0 ∨ recBits ws 3 63 48 ≠ 0 := by
  simp only [State.hlcBad, Bool.or_eq_true, List.isEmpty_iff, decide_eq_true_eq, bne_iff_ne, or_assoc, List.eq_nil_iff_forall_not_mem, not_exists]

section
variable {s u : State} {src : JobSrc} {ws : List Nat} {ra : Option Nat} {token j : Nat}

/-- The next job is fetched as its head says. -/
theorem hlcFetch_head (h : s.HlcHead src ws ra token j u) : s.hlcFetch src = some (ws, ra, token, j, false, u) := by
  obtain ⟨hen, h⟩ := h
  unfold State.hlcFetch State.flag
  rw [hen]
  cases src with
  | queue =>
    obtain ⟨q, qs, hq, hb, rfl, rfl, rfl, rfl, rfl⟩ := h
    simp [hq, State.behindRing, Nat.not_lt.mpr hb]
  | ring =>
    obtain ⟨hq, rfl, hp, rfl, a, bs, v, rfl, rfl, hr, rfl, rfl⟩ := h
    have hb : s.behindQueue = false := by
      unfold State.behindQueue
      cases hhead : s.hlcQueue.head? with
      | none => rfl
      | some q => simpa using hq q hhead
    simp only [hb, State.jobPosted, hp, hr]
    rfl

/-- Taking a job changes register fields of accesses and the queues of jobs: the device stays in Run, and the helictites are as they were. -/
theorem hlcHead_keeps (h : s.HlcHead src ws ra token j u) (h0 : s.get Reg.PCR_PSTATE_STATE = 0) :
    u.get Reg.PCR_PSTATE_STATE = 0 ∧ u.hels = s.hels := by
  obtain ⟨-, h⟩ := h
  cases src with
  | queue =>
    obtain ⟨q, qs, -, -, -, -, -, -, rfl⟩ := h
    exact ⟨h0, rfl⟩
  | ring =>
    obtain ⟨-, -, -, -, a, bs, v, -, -, hr, -, rfl⟩ := h
    have hv : State.Serves AccessKey s v := by simpa [hr] using serves_read s a 64
    exact ⟨(hv.get (not_access (by decide) (by decide) (by decide) (by decide))).trans h0, (serves_hels hv :)⟩

/-- The job of a record, with the ranges that its image holds. -/
def hlcJobOf (ws : List Nat) (ra : Option Nat) (token j : Nat) (holds : List (Nat × Nat)) : HlcJob :=
  ⟨j, ra, token, recBits ws 0 47 36, hlcTargets ws, holds, none, recBits ws 3 47 0 / 64 * 64⟩

/-- A record's arguments (R222). -/
def hlcArgs (ws : List Nat) : List Word := (List.range 4).map fun i => BitVec.ofNat 64 (ws.getD (4 + i) 0)

/-- The targets of a record, with a program loaded and started. -/
def State.startTargets (s : State) (ws : List Nat) (prog : List Word) : State :=
  (hlcTargets ws).foldl (fun s n => s.setHel n ((s.hel n).start n (recBits ws 0 15 0) prog (hlcArgs ws))) s

theorem startTargets_rel (s : State) (ws : List Nat) (prog : List Word) :
    s.startTargets ws prog = { s with hels := (s.startTargets ws prog).hels } ∧
    ∀ m, (s.startTargets ws prog).hel m = if m ∈ hlcTargets ws then (s.hel m).start m (recBits ws 0 15 0) prog (hlcArgs ws) else s.hel m :=
  startFold (recBits ws 0 15 0) prog (hlcArgs ws) (hlcTargets ws) (hlcTargets_nodup ws) s

/-- What HELICTITE_JOB_START does to the next job. -/
theorem jobStart_eq (h : s.HlcHead src ws ra token j u) (hrun : s.held = false) {ni : Nat} {holds : List (Nat × Nat)} {prog : List Word}
    {badImg : Bool} {v : State}
    (hi : u.hlcImage (recBits ws 3 47 0 / 64 * 64) (recBits ws 0 23 16 + 1) = (ni, holds, prog, badImg, v)) :
    exec (.helictiteJobStart src) s = .next (
      if s.hlcBad ws then u.endHlcJob (hlcJobOf ws ra token j holds) 2 Flags.none
      else if badImg then v.endHlcJob (hlcJobOf ws ra token j holds) 3 Flags.none
      else if ni ≤ recBits ws 0 23 16 then v.endHlcJob (hlcJobOf ws ra token j holds) 2 Flags.none
      else if (hlcTargets ws).any (fun n => (s.hel n).running) || s.heldMoves holds then s
      else { v.startTargets ws prog with
        hlcJobs := (v.startTargets ws prog).hlcJobs ++ [{ hlcJobOf ws ra token j holds with poisonAt := 0 }] }) := by
  show execHelictiteJobStart src s = _
  unfold execHelictiteJobStart
  rw [hlcFetch_head h]
  simp only [hi, hrun]
  rfl

/-- A job that holds, of targets that are idle, starts them. -/
theorem jobStarts (h : s.HlcHead src ws ra token j u) (hrun : s.InRun) (hok : ¬s.hlcBad ws = true) {ni : Nat} {holds : List (Nat × Nat)}
    {prog : List Word} {v : State}
    (hi : u.hlcImage (recBits ws 3 47 0 / 64 * 64) (recBits ws 0 23 16 + 1) = (ni, holds, prog, false, v)) (hn : recBits ws 0 23 16 < ni)
    (hidle : ∀ m ∈ hlcTargets ws, (s.hel m).running = false) (hm : s.heldMoves holds = false) :
    Does (.helictiteJobStart src) s fun t =>
      t.hlcJobs = v.hlcJobs ++ [⟨j, ra, token, recBits ws 0 47 36, hlcTargets ws, holds, none, 0⟩] ∧
      t = { v with hels := t.hels, hlcJobs := t.hlcJobs } ∧
      ∀ m, t.hel m = if m ∈ hlcTargets ws then (s.hel m).start m (recBits ws 0 15 0) prog (hlcArgs ws) else s.hel m := by
  have hany : ((hlcTargets ws).any (fun n => (s.hel n).running) || s.heldMoves holds) = false := by simpa [hm] using hidle
  have hv : ∀ m, v.hel m = s.hel m := fun m => by
    have himg : v.hels = u.hels := by simpa [hi] using serves_hels (serves_hlcImage u (recBits ws 3 47 0 / 64 * 64) (recBits ws 0 23 16 + 1))
    unfold State.hel
    rw [himg, (hlcHead_keeps h hrun.1).2]
  have heq := jobStart_eq h hrun.2 hi
  rw [if_neg hok, if_neg Bool.false_ne_true, if_neg (Nat.not_le.mpr hn), hany, if_neg Bool.false_ne_true] at heq
  obtain ⟨hrel, hhel⟩ := startTargets_rel v ws prog
  simp only [hv] at hhel
  generalize v.startTargets ws prog = w at heq hrel hhel
  obtain ⟨hs', rfl⟩ : ∃ hs', w = { v with hels := hs' } := ⟨_, hrel⟩
  exact ⟨_, heq, rfl, rfl, hhel⟩

end

/-- Settles O44: the jobs' starts from their records, and their ends from their targets'. That the host's write while a step plan runs is counted
with KIND 3, and which faults HLC_FAULT names, are the model's choices (log entries 78 and 39). -/
theorem helictiteJobs : Obligations.HelictiteJobs := by
  unfold Obligations.HelictiteJobs
  intro s hs
  refine ⟨fun hstep => ?_, fun hstep hen hsig => ?_, fun hstep => ?_, fun src ws ra token j u h => ?_, fun k j hk hsig => jobEnd hs hs.1 hk hsig⟩
  · simp only [List.forall_mem_cons]
    exact ⟨⟨_, congrArg Host.Outcome.next (hostRaises_locked hstep), counts_lockedOut s _⟩,
      ⟨_, congrArg Host.Outcome.next (hostClears_locked hstep), counts_lockedOut s _⟩, List.forall_mem_nil _⟩
  · exact ⟨_, congrArg Host.Outcome.next (hostRaises_rises hstep (by rw [hen]; decide)), hlcEnable_does hsig⟩
  · exact ⟨_, congrArg Host.Outcome.next (hostClears_clears hstep), cleared s _⟩
  · have hsig : recBits ws 0 47 36 < 4096 := Nat.mod_lt _ (by decide)
    have hu0 := (hlcHead_keeps h hs.1).1
    refine ⟨targets_iff ws, fun hbad => ?_, fun hok ni holds prog v hi => ?_⟩
    · have heq := jobStart_eq h hs.2 rfl
      rw [if_pos ((hlcBad_iff s ws).mpr hbad)] at heq
      exact ⟨_, heq, hlcEnds_of hu0 hsig⟩
    · have hok' : ¬s.hlcBad ws = true := fun hb => hok ((hlcBad_iff s ws).mp hb)
      have heq := jobStart_eq h hs.2 hi
      rw [if_neg hok', if_neg Bool.false_ne_true] at heq
      refine ⟨fun hn => ?_, fun hn hbusy => ?_, fun hn hidle hm => ?_⟩
      · rw [if_pos hn] at heq
        have hv : State.Serves AccessKey u v := by simpa [hi] using serves_hlcImage u (recBits ws 3 47 0 / 64 * 64) (recBits ws 0 23 16 + 1)
        exact ⟨_, heq, hlcEnds_of ((hv.get (not_access (by decide) (by decide) (by decide) (by decide))).trans hu0) hsig⟩
      · rw [if_neg (Nat.not_le.mpr hn), if_pos (by simpa using hbusy)] at heq
        exact ⟨_, heq, rfl⟩
      · obtain ⟨t, he, hjobs, hrest, hhel⟩ := jobStarts h hs hok' hi hn hidle hm
        refine ⟨t, he, hjobs, hrest, fun m hm => ?_, fun m hm => ?_⟩
        · rw [hhel, if_neg hm]
        · exact start_ok ((hhel m).trans (if_pos hm))

end Sys2Proof.Machine
end

section
/-! What the work of Siphon's jobs changes, and of a route job in particular (R164 to R173). -/

namespace Sys2Proof.Machine

open Sys2Proof

/-! ## What a job of Siphon changes -/

/-- The keys of the fields that a job's work writes: those of accesses, the signal words, and Siphon's flags and counts of pairs. -/
def SipKey (k : Nat) : Prop := AccessKey k ∨ (0x80000 * 64 ≤ k ∧ k < 0x88000 * 64) ∨ (0x3800020 * 64 ≤ k ∧ k < 0x3800050 * 64)

/-- What a job's work changes in Run: what accesses do, the waves handed over, what waits for held writes, and the free values drawn. -/
def State.SipWorks (s t : State) : Prop := s.get Reg.PCR_PSTATE_STATE = 0 → State.Within SipKey s t ∧ t = { s with
  fields := t.fields, mem := t.mem, poison := t.poison, nonzero := t.nonzero, pages := t.pages, lostPages := t.lostPages, moves := t.moves
  heat := t.heat, mirrorQ := t.mirrorQ, heldWrites := t.heldWrites, heldSeq := t.heldSeq, snoop := t.snoop, biWait := t.biWait, biAt := t.biAt
  irq := t.irq, violAt := t.violAt, claims := t.claims, refreshOwed := t.refreshOwed, freeCount := t.freeCount, dispatchQ := t.dispatchQ
  heldEnds := t.heldEnds }

/-- A register other than those that a job's work writes. -/
theorem not_sip {f : FieldRef} (h : f.off ∉ [0x20, 0x28, 0x3000048, 0x3000050, 0x3000020, 0x5000030, 0x3400038])
    (h2 : f.off < 0x6800000 ∨ 0x6820000 ≤ f.off) (hs : f.off < 0x80000 ∨ 0x88000 ≤ f.off) (hc : f.off < 0x3800020 ∨ 0x3800050 ≤ f.off)
    (hl : f.lo < 64) (h8 : f.off % 8 = 0) : ¬SipKey f.key := by
  have hkey : f.key = f.off * 64 + f.lo := rfl
  rintro (h' | h' | h')
  · exact not_access h h2 hl h8 h'
  · omega
  · omega

section
variable {s t u : State}

theorem State.SipWorks.refl (s : State) : s.SipWorks s := fun _ => ⟨.refl _ s, rfl⟩

theorem State.SipWorks.get (h : s.SipWorks t) (h0 : s.get Reg.PCR_PSTATE_STATE = 0) {f : FieldRef} (hf : ¬SipKey f.key) : t.get f = s.get f :=
  (h h0).1.get hf

theorem State.SipWorks.run (h : s.SipWorks t) (h0 : s.get Reg.PCR_PSTATE_STATE = 0) : t.get Reg.PCR_PSTATE_STATE = 0 :=
  (h.get h0 (not_sip (by decide) (by decide) (by decide) (by decide) (by decide) (by decide))).trans h0

theorem State.SipWorks.trans (h : s.SipWorks t) (k : t.SipWorks u) : s.SipWorks u := fun h0 => by
  obtain ⟨h1, h2⟩ := h h0
  obtain ⟨k1, k2⟩ := k (h.run h0)
  refine ⟨h1.trans k1, ?_⟩
  rw [h2] at k2
  exact k2

theorem State.SipWorks.chambers (h : s.SipWorks t) (h0 : s.get Reg.PCR_PSTATE_STATE = 0) : t.chambers = s.chambers := by rw [(h h0).2]

theorem State.Serves.sip (h : State.Serves AccessKey s t) : s.SipWorks t := fun _ => by
  refine ⟨h.1.mono fun k hk => .inl hk, ?_⟩
  have h2 := h.2
  rw [h2]

theorem sip_ite {p : Prop} [Decidable p] (ht : s.SipWorks t) (hu : s.SipWorks u) : s.SipWorks (if p then t else u) := by
  split <;> assumption

theorem sip_foldl {α : Type} {f : State → α → State} {l : List α} (hf : ∀ (s : State) x, s.SipWorks (f s x)) : s.SipWorks (l.foldl f s) := by
  induction l generalizing s with
  | nil => exact .refl s
  | cons x l ih => exact (hf s x).trans ih

/-- One of Siphon's flags or counts is written. -/
theorem sip_put {f : FieldRef} (v : Nat) (h : 0x3800020 ≤ f.off ∧ f.off < 0x3800050 ∧ f.lo < 64) : s.SipWorks (s.put f v) := fun _ =>
  ⟨within_put (.inr (.inr (by unfold FieldRef.key; omega))), rfl⟩

theorem sip_count {f : FieldRef} (n : Nat) (h : 0x3800020 ≤ f.off ∧ f.off < 0x3800050 ∧ f.lo < 64) : s.SipWorks (s.count f n) := sip_put _ h

theorem sip_writeLogged (src a : Nat) (bs : List Byte) : s.SipWorks (s.writeLogged src a bs) := (serves_writeLogged s src a bs).sip

theorem sip_read (a n : Nat) : s.SipWorks (s.read a n).2.2 := (serves_read s a n).sip

/-- A post to a signal word, at once or once the writes before it are visible. -/
theorem sip_endPost (l : List Nat) {n : Nat} (hn : n < 4096) : s.SipWorks (s.endWork l (.post n) (s.postSig n false 1)) := fun h0 => by
  unfold State.endWork
  rw [get_post h0]
  split
  · exact ⟨within_put (.inr (.inl (by simp only [FieldRef.key, Reg.GLB_SIGn_VALUE]; omega))), rfl⟩
  · exact ⟨⟨rfl, rfl, fun _ _ => rfl⟩, rfl⟩

/-- What a job's work comes to: its status, OK, BAD_JOB or POISON, and what it changed. -/
def State.SipResult (s : State) (r : Nat × Nat × State) : Prop := (r.1 = 1 ∨ r.1 = 2 ∨ r.1 = 3) ∧ s.SipWorks r.2.2

end

/-! ## A route job's work -/

section
variable (s : State)

/-- Every entry of the expert table names a signal word. -/
theorem expertTable_sig (a n : Nat) : ∀ x ∈ (s.expertTable a n).1, x.sig < 4096 := by
  intro x hx
  obtain ⟨e, -, rfl⟩ := List.mem_map.mp hx
  have hs : ∀ bs, (expertOf bs).sig < 4096 := fun bs => Nat.mod_lt _ (by decide)
  dsimp only
  split
  · exact hs _
  · exact hs _

theorem getD_sig {ex : List Expert} (h : ∀ x ∈ ex, x.sig < 4096) (e : Nat) : (ex.getD e (expertOf [])).sig < 4096 := by
  rw [List.getD_eq_getElem?_getD]
  cases hx : ex[e]? with
  | none => decide
  | some x => exact h x (List.mem_of_getElem? hx)

theorem sip_expertTable (a n : Nat) : s.SipWorks (s.expertTable a n).2.2 := sip_read a (32 * n)

theorem sip_emptyLists (ws : List Nat) (ex : List Expert) (job mode : Nat) : s.SipWorks (s.emptyLists ws ex job mode) :=
  sip_foldl fun _ _ => sip_ite ((sip_writeLogged _ _ _).trans (sip_writeLogged _ _ _)) (sip_writeLogged _ _ _)

theorem sip_selectAll (ws : List Nat) (ex : List Expert) (bias : List Nat) (k : Nat) : ∀ (s : State) (t : Nat),
    s.SipWorks (s.selectAll ws ex bias k t).2.2 := by
  induction k with
  | zero => exact fun s _ => .refl s
  | succ k ih =>
    intro s t
    unfold State.selectAll
    dsimp only
    have hr : s.SipWorks (s.read (recBits ws 1 47 0 + t * recBits ws 2 31 0) (ex.length * floatBytes (recBits ws 0 7 4))).2.2 := sip_read _ _
    generalize s.read (recBits ws 1 47 0 + t * recBits ws 2 31 0) (ex.length * floatBytes (recBits ws 0 7 4)) = r at hr
    obtain ⟨bs, bad, s1⟩ := r
    dsimp only
    split
    · exact hr
    · exact ((hr.trans (sip_count (f := Reg.SIP_BADLOGIT_COUNT_COUNT) _ (by decide))).trans
        (sip_ite (sip_count (f := Reg.SIP_UNROUTED_COUNT_COUNT) 1 (by decide)) (.refl _))).trans (ih _ _)

theorem sip_putWave (ws : List Nat) {ex : List Expert} (h : ∀ x ∈ ex, x.sig < 4096) (d : BitVec 1024) (job wave e : Nat) (l : List Placed) :
    s.SipWorks (s.putWave ws ex d job wave e l) := by
  unfold State.putWave
  extract_lets x mine t
  have ht : s.SipWorks t := sip_writeLogged _ _ _
  have hx : x.sig < 4096 := getD_sig h e
  clear_value t x
  split
  · exact ht.trans (sip_endPost _ hx)
  · exact ht.trans fun _ => ⟨⟨rfl, rfl, fun _ _ => rfl⟩, rfl⟩

theorem sip_putRoute (ws : List Nat) {ex : List Expert} (h : ∀ x ∈ ex, x.sig < 4096) (d : BitVec 1024) (job mode : Nat) (l : List Placed)
    (sel : List (List Pair)) : s.SipWorks (s.putRoute ws ex d job mode l sel) := by
  unfold State.putRoute
  extract_lets t count s1 s2 s3 s4 deferred s5 waves
  have h1 : s.SipWorks s1 := (sip_count _ (by decide)).trans ((sip_count _ (by decide)).trans (sip_count _ (by decide)))
  have h2 : s.SipWorks s2 := h1.trans (sip_writeLogged _ _ _)
  have h3 : s.SipWorks s3 := h2.trans fun _ => ⟨⟨rfl, rfl, fun _ _ => rfl⟩, rfl⟩
  have h4 : s.SipWorks s4 := sip_ite (h3.trans (sip_writeLogged _ _ _)) h3
  have h5 : s.SipWorks s5 := sip_ite (h4.trans (sip_writeLogged _ _ _)) h4
  exact h5.trans (sip_foldl fun _ _ => sip_foldl fun _ _ => sip_putWave _ ws h d _ _ _ _)

/-- A part of a record that is read only where the record asks for it. -/
theorem sip_readIf (p : Prop) [Decidable p] (a n : Nat) : s.SipWorks (if p then s.read a n else ([], false, s)).2.2 := by
  split
  · exact sip_read a n
  · exact .refl s

theorem route_result (j : Nat) (ws : List Nat) : s.SipResult (s.route j ws) := by
  unfold State.route
  split
  · exact ⟨.inr (.inl rfl), .refl s⟩
  dsimp only
  have hsig := expertTable_sig s (recBits ws 3 47 0 / 64 * 64) (recBits ws 0 27 20 + 1)
  have h1 := sip_expertTable s (recBits ws 3 47 0 / 64 * 64) (recBits ws 0 27 20 + 1)
  generalize s.expertTable (recBits ws 3 47 0 / 64 * 64) (recBits ws 0 27 20 + 1) = r at hsig h1
  obtain ⟨ex, badT, s1⟩ := r
  dsimp only at hsig h1 ⊢
  have h2 := sip_readIf s1 ((ex.any fun x => x.valid && x.dev != 0xFF) = true) (recBits ws 9 47 0) 128
  generalize (if (ex.any fun x => x.valid && x.dev != 0xFF) = true then s1.read (recBits ws 9 47 0) 128 else ([], false, s1)) = r at h2
  obtain ⟨db, badD, s2⟩ := r
  dsimp only at h2 ⊢
  have h3 := sip_readIf s2 (recBits ws 0 14 14 = 1) (recBits ws 5 47 0) (4 * ex.length)
  generalize (if recBits ws 0 14 14 = 1 then s2.read (recBits ws 5 47 0) (4 * ex.length) else ([], false, s2)) = r at h3
  obtain ⟨bb, badB, s3⟩ := r
  dsimp only at h3 ⊢
  have h4 := sip_readIf s3 ((recBits ws 0 18 18 == 1) = true) (recBits ws 6 47 0 / 64 * 64) 8
  generalize (if (recBits ws 0 18 18 == 1) = true then s3.read (recBits ws 6 47 0 / 64 * 64) 8 else ([], false, s3)) = r at h4
  obtain ⟨ch, badH, s4⟩ := r
  dsimp only at h4 ⊢
  have h5 := sip_readIf s4 ((recBits ws 0 18 18 == 1) = true) (recBits ws 6 47 0 / 64 * 64 + 64) (32 * min 65535 (leNat ch % 2 ^ 24))
  generalize (if (recBits ws 0 18 18 == 1) = true then s4.read (recBits ws 6 47 0 / 64 * 64 + 64) (32 * min 65535 (leNat ch % 2 ^ 24))
    else ([], false, s4)) = r at h5
  obtain ⟨cb, badC, s5⟩ := r
  dsimp only at h5 ⊢
  have h : s.SipWorks s5 := h1.trans (h2.trans (h3.trans (h4.trans h5)))
  have hbad : ∀ at_ mode, s.SipResult (3, at_, s5.emptyLists ws ex j mode) := fun _ _ => ⟨.inr (.inr rfl), h.trans (sip_emptyLists _ _ _ _ _)⟩
  split
  · exact hbad _ _
  split
  · exact ⟨.inr (.inl rfl), h⟩
  split
  · exact hbad _ _
  split
  · exact hbad _ _
  split
  · exact hbad _ _
  have h6 := sip_selectAll ws ex (unpackElems 0 bb ex.length) (recBits ws 0 47 32) s5 0
  generalize s5.selectAll ws ex (unpackElems 0 bb ex.length) (recBits ws 0 47 32) 0 = r at h6
  obtain ⟨sel, bad, s6⟩ := r
  dsimp only at h6 ⊢
  cases bad with
  | some a => exact ⟨.inr (.inr rfl), (h.trans h6).trans (sip_emptyLists _ _ _ _ _)⟩
  | none => exact ⟨.inl rfl, (h.trans h6).trans (sip_putRoute _ ws hsig _ _ _ _ _)⟩

end

end Sys2Proof.Machine
end

section
/-! What a combine job of Siphon changes (R174, R175), and a combine job of one token with one returned row. -/

namespace Sys2Proof.Machine

open Sys2Proof

/-! ## A combine job's work -/

section
variable (s : State)

theorem sip_sipFlags (f : Flags) : s.SipWorks (s.sipFlags f) := by
  unfold State.sipFlags
  extract_lets s1 s2
  have h1 : s.SipWorks s1 := sip_ite (sip_put _ (by decide)) (.refl s)
  have h2 : s.SipWorks s2 := sip_ite (h1.trans (sip_put _ (by decide))) h1
  exact sip_ite (h2.trans (sip_put _ (by decide))) h2

theorem sip_returned (ws : List Nat) (e slot : Nat) : s.SipWorks (s.returned ws e slot).2.2.2 := by
  unfold State.returned
  have h1 := sip_read (s := s) (recBits ws 3 47 0 / 64 * 64 + 32 * e + 16) 8
  generalize s.read (recBits ws 3 47 0 / 64 * 64 + 32 * e + 16) 8 = r at h1
  obtain ⟨tb, p, s1⟩ := r
  exact h1.trans (sip_read _ _)

theorem sip_sumToken (ws : List Nat) (es : List Nat) : ∀ (s : State) (acc : Option (List (Lane × Flags))),
    s.SipWorks (s.sumToken ws es acc).2.2 := by
  induction es with
  | nil => exact fun s _ => .refl s
  | cons e es ih =>
    intro s acc
    unfold State.sumToken
    split
    · have h1 := sip_returned s ws (bits e 55 48) (bits e 47 32)
      generalize s.returned ws (bits e 55 48) (bits e 47 32) = r at h1
      obtain ⟨a, y, bad, s1⟩ := r
      dsimp only
      split
      · exact h1
      · exact h1.trans (ih s1 _)
    · exact ih s acc

theorem sip_putOut (ws : List Nat) (add : Bool) (a : Nat) (acc : List (Lane × Flags)) : s.SipWorks (s.putOut ws add a acc).2 := by
  unfold State.putOut
  dsimp only
  have h1 := sip_readIf s (add = true) a (acc.length * floatBytes (recBits ws 0 11 8))
  generalize (if add = true then s.read a (acc.length * floatBytes (recBits ws 0 11 8)) else ([], false, s)) = r at h1
  obtain ⟨old, bad, s1⟩ := r
  dsimp only
  split
  · exact h1
  · exact (h1.trans (sip_sipFlags _ _)).trans (sip_writeLogged _ _ _)

theorem sip_combineTokens (ws : List Nat) (k : Nat) : ∀ (s : State) (t : Nat), s.SipWorks (s.combineTokens ws k t).2 := by
  induction k with
  | zero => exact fun s _ => .refl s
  | succ k ih =>
    intro s t
    unfold State.combineTokens
    dsimp only
    have h1 := sip_read (s := s) (recBits ws 4 47 0 / 64 * 64 + 64 + 64 * t) 64
    generalize s.read (recBits ws 4 47 0 / 64 * 64 + 64 + 64 * t) 64 = r at h1
    obtain ⟨eb, bad, s1⟩ := r
    dsimp only at h1 ⊢
    split
    · exact h1
    have h2 := h1.trans (sip_sumToken ws (recWords eb 8) s1 none)
    generalize s1.sumToken ws (recWords eb 8) none = r at h2
    obtain ⟨acc, bad, s2⟩ := r
    dsimp only at h2 ⊢
    cases bad with
    | some a => exact h2
    | none =>
      cases acc with
      | some l =>
        dsimp only
        have h3 := h2.trans (sip_putOut s2 ws (recBits ws 0 12 12 == 1) (recBits ws 1 47 0 + t * recBits ws 2 31 0) l)
        generalize s2.putOut ws (recBits ws 0 12 12 == 1) (recBits ws 1 47 0 + t * recBits ws 2 31 0) l = r at h3
        obtain ⟨b, s3⟩ := r
        cases b with
        | some a => exact h3
        | none => exact h3.trans (ih _ _)
      | none => exact (h2.trans (sip_ite (.refl s2) (sip_writeLogged _ _ _))).trans (ih _ _)

theorem sip_combineCarried (ws : List Nat) (k : Nat) : ∀ (s : State) (i : Nat), s.SipWorks (s.combineCarried ws k i).2 := by
  induction k with
  | zero => exact fun s _ => .refl s
  | succ k ih =>
    intro s i
    unfold State.combineCarried
    dsimp only
    have h1 := sip_read (s := s) (recBits ws 4 47 0 / 64 * 64 + 64 + 64 * recBits ws 0 47 32 + 32 * i) 32
    generalize s.read (recBits ws 4 47 0 / 64 * 64 + 64 + 64 * recBits ws 0 47 32 + 32 * i) 32 = r at h1
    obtain ⟨rb, bad, s1⟩ := r
    dsimp only at h1 ⊢
    split
    · exact h1
    split
    · have h2 := h1.trans (sip_returned s1 ws (bits (wordAt rb 1) 39 32) (bits (wordAt rb 3) 15 0))
      generalize s1.returned ws (bits (wordAt rb 1) 39 32) (bits (wordAt rb 3) 15 0) = r at h2
      obtain ⟨a, y, bad, s2⟩ := r
      dsimp only at h2 ⊢
      split
      · exact h2
      have h3 := h2.trans (sip_putOut s2 ws true (bits (wordAt rb 2) 47 0) (gateRow (recBits ws 0 7 4) (BitVec.ofNat 32 (wordAt rb 1)) y))
      generalize s2.putOut ws true (bits (wordAt rb 2) 47 0) (gateRow (recBits ws 0 7 4) (BitVec.ofNat 32 (wordAt rb 1)) y) = r at h3
      obtain ⟨b, s3⟩ := r
      cases b with
      | some a => exact h3
      | none => exact h3.trans (ih _ _)
    · exact h1.trans (ih _ _)

theorem combine_result (ws : List Nat) : s.SipResult (s.combine ws) := by
  unfold State.combine
  split
  · exact ⟨.inr (.inl rfl), .refl s⟩
  dsimp only
  have h1 := sip_read (s := s) (recBits ws 4 47 0 / 64 * 64) 16
  generalize s.read (recBits ws 4 47 0 / 64 * 64) 16 = r at h1
  obtain ⟨hb, bad, s1⟩ := r
  dsimp only at h1 ⊢
  split
  · exact ⟨.inr (.inr rfl), h1⟩
  have h2 := h1.trans (sip_combineTokens ws (recBits ws 0 47 32) s1 0)
  generalize s1.combineTokens ws (recBits ws 0 47 32) 0 = r at h2
  obtain ⟨b, s2⟩ := r
  cases b with
  | some a => exact ⟨.inr (.inr rfl), h2⟩
  | none =>
    have h3 := h2.trans (sip_combineCarried ws (wordAt hb 1 % 2 ^ 24) s2 0)
    dsimp only
    generalize s2.combineCarried ws (wordAt hb 1 % 2 ^ 24) 0 = r at h3
    obtain ⟨b, s3⟩ := r
    cases b with
    | some a => exact ⟨.inr (.inr rfl), h3⟩
    | none => exact ⟨.inl rfl, h3⟩

end

/-! ## A token of one row (R174) -/

/-- A list of eight elements with the first split off. -/
theorem recWords_cons (bs : List Byte) (n : Nat) : recWords bs (n + 1) = wordAt bs 0 :: (List.range n).map fun i => wordAt bs (i + 1) := by
  unfold recWords
  rw [List.range_succ_eq_map, List.map_cons, List.map_map]
  rfl

section
variable {s : State} {ws : List Nat}

/-- Entries that are not valid add nothing to a token's sum. -/
theorem sumToken_invalid {es : List Nat} (h : ∀ e ∈ es, bit e 63 = false) (acc : Option (List (Lane × Flags))) :
    s.sumToken ws es acc = (acc, none, s) := by
  induction es with
  | nil => rfl
  | cons e es ih =>
    unfold State.sumToken
    rw [h e List.mem_cons_self, Bool.false_and, if_neg Bool.false_ne_true]
    exact ih fun x hx => h x (List.mem_cons_of_mem _ hx)

/-- The sum of one returned row is the row times its gate. -/
theorem sumToken_one {e a : Nat} {es y : List Nat} {u : State} (hv : bit e 63 = true) (hf : bits e 62 61 ≤ 1)
    (hr : s.returned ws (bits e 55 48) (bits e 47 32) = (a, y, false, u)) (h : ∀ e ∈ es, bit e 63 = false) :
    s.sumToken ws (e :: es) none = (some (gateRow (recBits ws 0 7 4) (BitVec.ofNat 32 e) y), none, u) := by
  unfold State.sumToken
  rw [hv, decide_eq_true hf, Bool.true_and, if_pos rfl, hr]
  exact sumToken_invalid h _

/-- A sum that is put, not added, is written converted. -/
theorem putOut_put (a : Nat) (acc : List (Lane × Flags)) :
    ∃ f, s.putOut ws false a acc = (none, (s.sipFlags f).writeLogged 6 a
      (packElems (recBits ws 0 11 8) (acc.map fun x => (convert (recBits ws 0 11 8) (recBits ws 0 13 13 == 1) x.1).1))) := by
  have hlen : (unpackElems (recBits ws 0 11 8) [] acc.length).length = acc.length := by simp [unpackElems]
  have hrow : ((acc.zip (unpackElems (recBits ws 0 11 8) [] acc.length)).map fun x : (Lane × Flags) × Nat =>
      (convert (recBits ws 0 11 8) (recBits ws 0 13 13 == 1) x.1.1).1) =
      acc.map fun x => (convert (recBits ws 0 11 8) (recBits ws 0 13 13 == 1) x.1).1 := by
    conv_rhs => rw [← List.map_fst_zip (l₁ := acc) (l₂ := unpackElems (recBits ws 0 11 8) [] acc.length) (by omega), List.map_map]
    rfl
  unfold State.putOut
  dsimp only
  rw [if_neg Bool.false_ne_true]
  dsimp only
  rw [if_neg Bool.false_ne_true, List.map_map, ← hrow]
  exact ⟨_, rfl⟩

theorem gateRow_fst (t : Nat) (gate : Lane) (y : List Nat) (f : Lane → Nat) :
    (gateRow t gate y).map (fun x => f x.1) = y.map fun e => f (fmul gate (widen t e).1).1 := by
  unfold gateRow
  rw [List.map_map]
  rfl

/-- A combine job of one token with one returned row, put and not added, and no carried record. -/
theorem combine_one {hb eb : List Byte} {u1 u2 u3 : State} {x : Nat} {y : List Nat} (ht : recBits ws 0 7 4 ≤ 2) (ho : recBits ws 0 11 8 ≤ 2)
    (hone : recBits ws 0 47 32 = 1) (hput : recBits ws 0 12 12 = 0) (hh : s.read (recBits ws 4 47 0 / 64 * 64) 16 = (hb, false, u1))
    (hc : wordAt hb 1 % 2 ^ 24 = 0) (he : u1.read (recBits ws 4 47 0 / 64 * 64 + 64) 64 = (eb, false, u2))
    (hv : bit (wordAt eb 0) 63 = true) (hf : bits (wordAt eb 0) 62 61 ≤ 1) (hrest : ∀ r, 1 ≤ r → r < 8 → bit (wordAt eb r) 63 = false)
    (hr : u2.returned ws (bits (wordAt eb 0) 55 48) (bits (wordAt eb 0) 47 32) = (x, y, false, u3)) :
    ∃ f, s.combine ws = (1, 0, (u3.sipFlags f).writeLogged 6 (recBits ws 1 47 0) (packElems (recBits ws 0 11 8) (y.map fun e =>
      (convert (recBits ws 0 11 8) (recBits ws 0 13 13 == 1) (fmul (BitVec.ofNat 32 (wordAt eb 0)) (widen (recBits ws 0 7 4) e).1).1).1))) := by
  obtain ⟨f, hf'⟩ := putOut_put (s := u3) (ws := ws) (recBits ws 1 47 0) (gateRow (recBits ws 0 7 4) (BitVec.ofNat 32 (wordAt eb 0)) y)
  rw [gateRow_fst _ _ _ fun z => (convert (recBits ws 0 11 8) (recBits ws 0 13 13 == 1) z).1] at hf'
  refine ⟨f, ?_⟩
  have hfloat : ∀ n, n ≤ 2 → typeIsFloat n = true := by decide
  have hinv : ∀ e ∈ (List.range 7).map fun i => wordAt eb (i + 1), bit e 63 = false := by
    intro e hm
    obtain ⟨i, hi, rfl⟩ := List.mem_map.mp hm
    exact hrest _ (Nat.le_add_left 1 i) (by have := List.mem_range.mp hi; omega)
  have htok : u1.combineTokens ws 1 0 = (none, (u3.sipFlags f).writeLogged 6 (recBits ws 1 47 0) (packElems (recBits ws 0 11 8) (y.map fun e =>
      (convert (recBits ws 0 11 8) (recBits ws 0 13 13 == 1) (fmul (BitVec.ofNat 32 (wordAt eb 0)) (widen (recBits ws 0 7 4) e).1).1).1))) := by
    unfold State.combineTokens
    dsimp only
    rw [Nat.mul_zero, Nat.add_zero, he]
    dsimp only
    rw [if_neg Bool.false_ne_true, recWords_cons, sumToken_one hv hf hr hinv]
    dsimp only
    rw [Nat.zero_mul, Nat.add_zero, hput]
    rw [show ((0 : Nat) == 1) = false from rfl, hf']
    rfl
  unfold State.combine
  rw [hfloat _ ht, hfloat _ ho, hone]
  dsimp only
  rw [hh]
  dsimp only
  rw [htok, hc]
  rfl

end

end Sys2Proof.Machine
end

section
/-! Siphon's ENABLE (R160), an engine's next job and its end (R161, R163), and from them O35. -/

namespace Sys2Proof.Machine

open Sys2Proof

/-! ## Siphon's ENABLE -/

theorem siphonEnable_does {s : State} (hsig : s.get Reg.SIP_CTL_JOB_SIG < 4096) :
    s.siphonEnable.get Reg.SIP_CTL_ENABLE = 1 ∧ s.siphonEnable.get Reg.SIP_PROGRESS_ROUTE_DONE = 0 ∧
    s.siphonEnable.get Reg.SIP_PROGRESS_COMBINE_DONE = 0 ∧ s.siphonEnable.ring 0 = ⟨s.sig (s.get Reg.SIP_CTL_JOB_SIG), 0, []⟩ ∧
    s.siphonEnable.ring 1 = s.siphonEnable.ring 0 ∧
    s.KeepsFields s.siphonEnable [Reg.SIP_CTL_ENABLE, Reg.SIP_PROGRESS_ROUTE_DONE, Reg.SIP_PROGRESS_COMBINE_DONE] ∧
    s.siphonEnable = { s with fields := s.siphonEnable.fields, rings := s.siphonEnable.rings } := by
  have hget := puts_get [(Reg.SIP_CTL_ENABLE, 1), (Reg.SIP_PROGRESS_COMBINE_DONE, 0), (Reg.SIP_PROGRESS_ROUTE_DONE, 0)] (by simp) s
  have hkeep : s.KeepsFields (s.puts [(Reg.SIP_CTL_ENABLE, 1), (Reg.SIP_PROGRESS_COMBINE_DONE, 0), (Reg.SIP_PROGRESS_ROUTE_DONE, 0)])
      [Reg.SIP_CTL_ENABLE, Reg.SIP_PROGRESS_ROUTE_DONE, Reg.SIP_PROGRESS_COMBINE_DONE] := State.KeepsFields.puts _ (keeps_refl s _) (by simp)
  have hring : ∀ m ≤ 1, s.siphonEnable.ring m = ⟨s.sig (s.get Reg.SIP_CTL_JOB_SIG), 0, []⟩ := by
    intro m hm
    rw [← hkeep.sig (by decide) hsig]
    unfold State.siphonEnable
    rw [ring_enableRing, ring_enableRing]
    obtain rfl | rfl : m = 0 ∨ m = 1 := by omega
    · rfl
    · rfl
  refine ⟨hget (Reg.SIP_CTL_ENABLE, 1) (by simp), hget (Reg.SIP_PROGRESS_ROUTE_DONE, 0) (by simp), hget (Reg.SIP_PROGRESS_COMBINE_DONE, 0) (by simp),
    hring 0 (by decide), (hring 1 (by decide)).trans (hring 0 (by decide)).symm, hkeep.of_fields rfl rfl rfl, rfl⟩

/-! ## A job's end (R163) -/

/-- An engine stands behind the job that it has done; nothing but the positions of the engines differs. -/
theorem passJob_rel (s : State) {eng : Nat} (j : Nat) (h : eng ≤ 1) :
    s.passJob eng j = { s with rings := (s.passJob eng j).rings } ∧ ((s.passJob eng j).ring eng).taken = j + 1 := by
  have hne : eng ≠ 1 - eng := by omega
  unfold State.passJob
  dsimp only
  split
  · exact ⟨rfl, by rw [State.ring_setRing, if_pos rfl]⟩
  · exact ⟨rfl, by rw [State.ring_setRing, if_neg hne, State.ring_setRing, if_pos rfl]⟩

/-- The registers that a job's end writes besides those of its write. -/
def siphonEndFields (eng : Nat) : List FieldRef :=
  [if eng = 0 then Reg.SIP_PROGRESS_ROUTE_DONE else Reg.SIP_PROGRESS_COMBINE_DONE, Reg.SIP_LAST_ERR_JOB, Reg.SIP_LAST_ERR_ENGINE, Reg.SIP_LAST_ERR_STATUS]

/-- The job counted, and recorded where it failed. -/
def State.siphonCounted (s : State) (eng j status : Nat) : State :=
  let s := s.count (if eng = 0 then Reg.SIP_PROGRESS_ROUTE_DONE else Reg.SIP_PROGRESS_COMBINE_DONE) 1
  if status = 1 then s else s.puts [(Reg.SIP_LAST_ERR_JOB, j), (Reg.SIP_LAST_ERR_ENGINE, eng), (Reg.SIP_LAST_ERR_STATUS, status)]

theorem siphonCounted_rel (s : State) {eng j status : Nat} (he : eng ≤ 1) (hst : status ≤ 3) :
    s.siphonCounted eng j status = { s with fields := (s.siphonCounted eng j status).fields } ∧
    s.KeepsFields (s.siphonCounted eng j status) (siphonEndFields eng) ∧
    (s.siphonCounted eng j status).get Reg.SIP_PROGRESS_ROUTE_DONE =
      (if eng = 0 then (s.get Reg.SIP_PROGRESS_ROUTE_DONE + 1) % 2 ^ 32 else s.get Reg.SIP_PROGRESS_ROUTE_DONE) ∧
    (s.siphonCounted eng j status).get Reg.SIP_PROGRESS_COMBINE_DONE =
      (if eng = 0 then s.get Reg.SIP_PROGRESS_COMBINE_DONE else (s.get Reg.SIP_PROGRESS_COMBINE_DONE + 1) % 2 ^ 32) ∧
    (status ≠ 1 → (s.siphonCounted eng j status).get Reg.SIP_LAST_ERR_STATUS = status ∧
      (s.siphonCounted eng j status).get Reg.SIP_LAST_ERR_ENGINE = eng ∧ (s.siphonCounted eng j status).get Reg.SIP_LAST_ERR_JOB = j % 2 ^ 32) := by
  have hm : status % 256 = status := Nat.mod_eq_of_lt (by omega)
  obtain rfl | rfl : eng = 0 ∨ eng = 1 := by omega
  all_goals
    unfold State.siphonCounted siphonEndFields
    dsimp only
    split
    · refine ⟨rfl, (keeps_refl s _).put List.mem_cons_self, ?_, ?_, fun h => absurd ‹_› h⟩ <;> simp [State.count]
    · refine ⟨rfl, State.KeepsFields.puts _ ((keeps_refl s _).put List.mem_cons_self) (by simp), ?_, ?_, fun _ => ?_⟩ <;> simp [State.count, hm]

/-- The end of a job that is not of poisoned bytes. -/
theorem endSiphon_eq {s : State} {eng j a sig status bad : Nat} (h : status ≠ 3) :
    s.endSiphon eng j a sig status bad =
      let t := ((s.writeLogged 6 (a + 120) (leBytes 8 (status + j % 2 ^ 32 * 2 ^ 32))).passJob eng j).siphonCounted eng j status
      t.endWork (t.heldSince s.heldSeq) (.post sig) (t.postSig sig false 1) := by
  unfold State.endSiphon
  rw [if_neg h]
  rfl

/-- Work ends at once where nothing of it waits. -/
theorem endWork_now {s now : State} {l : List Nat} {w : WorkEnd} (h : l = []) : s.endWork l w now = now := if_pos h

/-- A job of an engine ends as R163 says, once its work is done. -/
theorem siphonEnds_of {s v : State} {eng j a sig status bad : Nat} {w : WorkEnd} (hrun : s.get Reg.PCR_PSTATE_STATE = 0) (hv : s.SipWorks v)
    (hR : s.get Reg.SIP_PROGRESS_ROUTE_DONE < 2 ^ 32) (hC : s.get Reg.SIP_PROGRESS_COMBINE_DONE < 2 ^ 32) (he : eng ≤ 1) (hsig : sig < 4096)
    (hst : status ≤ 3) (h3 : status ≠ 3) :
    s.SiphonEnds v (v.endWork (v.heldSince s.heldSeq) w (v.endSiphon eng j a sig status bad)) eng j a sig status := by
  intro hvis hvis'
  have hw := serves_writeLogged v 6 (a + 120) (leBytes 8 (status + j % 2 ^ 32 * 2 ^ 32))
  rw [endWork_now hvis, endSiphon_eq h3]
  generalize v.writeLogged 6 (a + 120) (leBytes 8 (status + j % 2 ^ 32 * 2 ^ 32)) = x at hvis' hw ⊢
  obtain ⟨hp, htaken⟩ := passJob_rel x j he
  generalize x.passJob eng j = p at hp htaken ⊢
  obtain ⟨hc, hkeep, hroute, hcombine, herr⟩ := siphonCounted_rel p (j := j) he hst
  generalize p.siphonCounted eng j status = t at hc hkeep hroute hcombine herr ⊢
  have hpx : ∀ f, p.get f = x.get f := fun f => by rw [hp]; rfl
  have hxs : ∀ {f : FieldRef}, ¬SipKey f.key → x.get f = s.get f := fun hf =>
    (hw.get fun h => hf (.inl h)).trans (hv.get hrun hf)
  have hts : ∀ {f : FieldRef}, f.key ∉ (siphonEndFields eng).map FieldRef.key → t.get f = x.get f := fun hf => (hkeep _ hf).trans (hpx _)
  have hkeys : ∀ k, k < 0x3800018 * 64 ∨ 0x3800058 * 64 ≤ k → k ∉ (siphonEndFields eng).map FieldRef.key := by
    obtain rfl | rfl : eng = 0 ∨ eng = 1 := by omega
    all_goals intro k hk; simp [siphonEndFields]; omega
  have hvsig : t.sig sig = v.sig sig := (hts (hkeys _ (by simp only [FieldRef.key, Reg.GLB_SIGn_VALUE]; omega))).trans
    (hw.get (not_access (by simp [Reg.GLB_SIGn_VALUE]; omega) 
      (by simp only [Reg.GLB_SIGn_VALUE]; omega) (Nat.zero_lt_succ 63) (by simp only [Reg.GLB_SIGn_VALUE]; omega)))
  have ht0 : t.get Reg.PCR_PSTATE_STATE = 0 := (hts (hkeys _ (by decide))).trans
    ((hxs (not_sip (by decide) (by decide) (by decide) (by decide) (by decide) (by decide))).trans hrun)
  have hheld : t.heldSince v.heldSeq = [] := by rw [hc, hp]; exact hvis'
  dsimp only
  rw [endWork_now hheld, get_post ht0]
  have hput : ∀ f : FieldRef, 0x3800000 ≤ f.off → (t.put (Reg.GLB_SIGn_VALUE sig) (t.sig sig + 1)).get f = t.get f := fun f hf =>
    State.get_put_ne (by simp only [FieldRef.key, Reg.GLB_SIGn_VALUE]; omega)
  refine ⟨?_, ?_, ?_, ?_, ?_, ?_, ?_⟩
  · rw [hput _ (by decide), hroute, hpx, hxs (not_sip (by decide) (by decide) (by decide) (by decide) (by decide) (by decide))]
    split
    · rfl
    · exact (Nat.mod_eq_of_lt hR).symm
  · rw [hput _ (by decide), hcombine, hpx, hxs (not_sip (by decide) (by decide) (by decide) (by decide) (by decide) (by decide))]
    split
    · exact (Nat.mod_eq_of_lt hC).symm
    · rfl
  · rw [hc]; exact htaken
  · rw [← hvsig]; exact State.get_put_eq
  · rw [hc, hp]; rfl
  · intro h1
    rw [hput _ (by decide), hput _ (by decide), hput _ (by decide)]
    exact herr h1
  · rw [hc, hp]
    exact (by rw [hw.2] : x.chambers = v.chambers).trans (hv.chambers hrun)

/-! ## An engine's next job (R161) -/

/-- An engine runs the job at its head, unless the job waits. -/
theorem runSiphon_head {s u : State} {eng j a : Nat} {ws : List Nat} (h : s.SiphonHead eng j a ws u) (waits : State → List Nat → Bool)
    (f : State → Nat → List Nat → Nat × Nat × State) :
    s.runSiphon eng waits f = if waits s ws then s else
      let r := f u j ws
      r.2.2.endWork (r.2.2.heldSince s.heldSeq) (.siphon eng j a (recBits ws 8 11 0) r.1 r.2.1) (r.2.2.endSiphon eng j a (recBits ws 8 11 0) r.1 r.2.1) := by
  obtain ⟨hruns, hend, hfind, rfl, bs, hread, rfl⟩ := h
  unfold State.runSiphon
  rw [hruns, hend, hfind]
  dsimp only
  rw [hread]
  rfl

/-- The job at an engine's head runs and ends with the status that its work gives. -/
theorem siphonHead_ends {s u v : State} {eng j a st at_ : Nat} {ws : List Nat} {waits : State → List Nat → Bool}
    {f : State → Nat → List Nat → Nat × Nat × State} (hs : s.InRun) (hR : s.get Reg.SIP_PROGRESS_ROUTE_DONE < 2 ^ 32)
    (hC : s.get Reg.SIP_PROGRESS_COMBINE_DONE < 2 ^ 32) (he : eng ≤ 1) (h : s.SiphonHead eng j a ws u) (hw : waits s ws = false)
    (hres : u.SipResult (f u j ws)) (hf : f u j ws = (st, at_, v)) (h3 : st ≠ 3) :
    s.SiphonEnds v (s.runSiphon eng waits f) eng j a (recBits ws 8 11 0) st := by
  have hrun := runSiphon_head h waits f
  obtain ⟨-, -, -, rfl, bs, hread, rfl⟩ := h
  have hu : s.SipWorks u := by simpa [hread] using sip_read (s := s) (ringAddr (s.get Reg.SIP_RING_BASE / 128 * 128) (s.get Reg.SIP_RING_ENTRIES_M1) 128 j) 128
  rw [hf] at hres
  obtain ⟨hst, hv⟩ := hres
  dsimp only at hst hv
  rw [hrun, hw, if_neg Bool.false_ne_true, hf]
  exact siphonEnds_of hs.1 (hu.trans hv) hR hC he (Nat.mod_lt _ (by decide)) (by omega) h3

/-- Settles O35: what a job's work may change, and the end of a job whatever its work was. That the host's write while a step plan runs is counted
with KIND 3 is the model's choice (log entry 78). -/
theorem siphonJobs : Obligations.SiphonJobs := by
  unfold Obligations.SiphonJobs
  intro s hs hR hC
  refine ⟨fun hstep => ?_, fun hstep hen hsig => ?_, fun hstep => ?_, fun j a ws u h st at_ v hf h3 => ?_, fun j a ws u h => ?_⟩
  · simp only [List.forall_mem_cons]
    exact ⟨⟨_, congrArg Host.Outcome.next (hostRaises_locked hstep), counts_lockedOut s _⟩,
      ⟨_, congrArg Host.Outcome.next (hostClears_locked hstep), counts_lockedOut s _⟩, List.forall_mem_nil _⟩
  · exact ⟨_, congrArg Host.Outcome.next (hostRaises_rises hstep (by rw [hen]; decide)), siphonEnable_does hsig⟩
  · exact ⟨_, congrArg Host.Outcome.next (hostClears_clears hstep), cleared s _⟩
  · refine ⟨_, rfl, siphonHead_ends hs hR hC (by decide) h rfl (route_result u j ws) hf h3, fun hbad => ?_⟩
    have hb : u.route j ws = (2, 0, u) := by unfold State.route; rw [if_pos hbad]
    rw [hb] at hf
    simp only [Prod.mk.injEq] at hf
    exact ⟨hf.1.symm, hf.2.2.symm⟩
  · dsimp only
    have hends : ¬(recBits ws 8 28 28 = 1 ∧ s.sig (recBits ws 8 27 16) < recBits ws 8 63 32) → ∀ st at_ v, u.combine ws = (st, at_, v) → st ≠ 3 →
        Does .combine s fun t => s.SiphonEnds v t 1 j a (recBits ws 8 11 0) st := fun hw st at_ v hf h3 =>
      ⟨_, rfl, siphonHead_ends hs hR hC (by decide) h (by simpa using hw) (combine_result u ws) hf h3⟩
    refine ⟨fun hw => ⟨s, ?_, rfl⟩, hends, fun hw ht ho hone hput hb u1 eb u2 x y u3 hh hc he hv hfl hrest hr => ?_⟩
    · exact congrArg Host.Outcome.next ((runSiphon_head h _ _).trans (if_pos (by simpa using hw)))
    · obtain ⟨f, hcomb⟩ := combine_one ht ho hone hput hh hc he hv hfl hrest hr
      obtain ⟨t, hdoes, hend⟩ := hends hw _ _ _ hcomb (by decide)
      exact ⟨t, hdoes, _, f, rfl, hend⟩

end Sys2Proof.Machine
end

section
/-! Accesses to memory do not see the numbers and the jobs of the collective units: they give the same with others in their place. -/

namespace Sys2Proof.Machine

open Sys2Proof

/-- The same state with another next number, and other collective jobs in progress. -/
def State.withJobs (s : State) (x : Nat) (js : List CuJob) : State := { s with xferSeq := x, cuJobs := js }

section
variable (s : State) (x : Nat) (js : List CuJob)

theorem withJobs_ite (p : Prop) [Decidable p] (t : State) :
    (if p then s else t).withJobs x js = if p then s.withJobs x js else t.withJobs x js := apply_ite (State.withJobs · x js) p s t

theorem withJobs_get (f : FieldRef) : (s.withJobs x js).get f = s.get f := rfl

theorem withJobs_put (f : FieldRef) (v : Nat) : (s.withJobs x js).put f v = (s.put f v).withJobs x js := rfl

theorem withJobs_raiseIrq (v : Nat) : (s.withJobs x js).raiseIrq v = (s.raiseIrq v).withJobs x js := rfl

theorem withJobs_violGlb (g k a : Nat) : (s.withJobs x js).violGlb g k a = (s.violGlb g k a).withJobs x js := by
  unfold State.violGlb State.violate
  dsimp only
  rw [withJobs_ite]
  rfl

theorem withJobs_putLogWords (i : Nat) (ws : List Nat) : ∀ (s : State) (k : Nat),
    (s.withJobs x js).putLogWords i k ws = (s.putLogWords i k ws).withJobs x js := by
  induction ws with
  | nil => exact fun _ _ => rfl
  | cons w ws ih => exact fun s k => ih (s.put (Reg.ERR_LOGi_Wk_WORD i k) w) (k + 1)

theorem withJobs_logErr (e : LogEntry) : (s.withJobs x js).logErr e = (s.logErr e).withJobs x js := by
  have h : (s.withJobs x js).nowUs = s.nowUs := rfl
  unfold State.logErr State.count
  dsimp only
  rw [h, withJobs_get, withJobs_putLogWords, withJobs_get, withJobs_put, withJobs_get, withJobs_put, withJobs_raiseIrq, withJobs_ite]

theorem withJobs_passed (a : Nat) : (s.withJobs x js).passed a = (s.passed a).withJobs x js := by
  unfold State.passed
  rw [withJobs_ite]
  rfl

theorem withJobs_warm (a : Nat) : (s.withJobs x js).warm a = (s.warm a).withJobs x js := by
  unfold State.warm
  dsimp only
  rw [withJobs_passed]
  rfl

theorem withJobs_enterBank (a : Nat) : (s.withJobs x js).enterBank a = (s.enterBank a).withJobs x js := by
  have hc : (s.withJobs x js).blockingClaim none a = s.blockingClaim none a := rfl
  have hf : (s.withJobs x js).bondedAddr a = s.bondedAddr a := rfl
  unfold State.enterBank
  rw [hc, hf]
  cases s.blockingClaim none a with
  | none => rfl
  | some c =>
    cases s.bondedAddr a with
    | none => rfl
    | some f =>
      dsimp only
      rw [withJobs_ite]
      rfl

/-! ## Reads -/

/-- A read's result with the state after it given other jobs. -/
theorem withJobs_readAs (g a n : Nat) : (s.withJobs x js).readAs g a n =
    ((s.readAs g a n).1, (s.readAs g a n).2.1, (s.readAs g a n).2.2.withJobs x js) := by
  have h1 : (s.withJobs x js).sealedAt a = s.sealedAt a := rfl
  have h2 : (s.withJobs x js).populated a = s.populated a := rfl
  unfold State.readAs
  rw [h1, h2, withJobs_violGlb, withJobs_warm]
  split
  · rfl
  split
  · dsimp only
    rw [withJobs_ite, withJobs_ite]
    rfl
  · rfl

theorem withJobs_readIn (a n : Nat) : (s.withJobs x js).readIn a n =
    ((s.readIn a n).1, (s.readIn a n).2.1, (s.readIn a n).2.2.withJobs x js) := by
  unfold State.readIn
  rw [withJobs_enterBank, withJobs_readAs]

theorem withJobs_readFuel (f : Nat) : ∀ (s : State) (a n : Nat), State.readFuel f (s.withJobs x js) a n =
    ((State.readFuel f s a n).1, (State.readFuel f s a n).2.1, (State.readFuel f s a n).2.2.withJobs x js) := by
  induction f with
  | zero => exact fun _ _ _ => rfl
  | succ f ih =>
    intro s a n
    unfold State.readFuel
    split
    · rfl
    · dsimp only
      rw [withJobs_readIn, ih]

theorem withJobs_read (a n : Nat) : (s.withJobs x js).read a n = ((s.read a n).1, (s.read a n).2.1, (s.read a n).2.2.withJobs x js) :=
  withJobs_readFuel x js _ s a n

/-! ## Writes -/

theorem withJobs_noteMirror (a : Nat) : (s.withJobs x js).noteMirror a = (s.noteMirror a).withJobs x js := by
  unfold State.noteMirror
  rw [withJobs_ite]
  rfl

theorem withJobs_storeAs (whole : Bool) (a : Nat) (bs : List Byte) : (s.withJobs x js).storeAs whole a bs = (s.storeAs whole a bs).withJobs x js := by
  unfold State.storeAs
  dsimp only
  rw [← withJobs_noteMirror, withJobs_ite]
  have h : (if (whole && bs.all (· == 0)) && (s.withJobs x js).onCart a then (s.withJobs x js).count Reg.FLS_ELIDED_COUNT 1 else s.withJobs x js) =
      (if (whole && bs.all (· == 0)) && s.onCart a then s.count Reg.FLS_ELIDED_COUNT 1 else s).withJobs x js := by
    rw [withJobs_ite]; rfl
  rw [h]
  rfl

theorem withJobs_takeVictims (need : Int) (l : List Obj) : ∀ got : Int, (s.withJobs x js).takeVictims need l got = s.takeVictims need l got := by
  induction l with
  | nil => exact fun _ => rfl
  | cons o l ih =>
    intro got
    unfold State.takeVictims
    rw [ih]
    rfl

theorem withJobs_queueDemotion (o : Obj) : (s.withJobs x js).queueDemotion o = (s.queueDemotion o).withJobs x js := by
  unfold State.queueDemotion
  rw [withJobs_ite]
  rfl

theorem withJobs_foldl {α : Type} {f : State → α → State} (hf : ∀ (s : State) y, f (s.withJobs x js) y = (f s y).withJobs x js) (l : List α) :
    ∀ s : State, l.foldl f (s.withJobs x js) = (l.foldl f s).withJobs x js := by
  induction l with
  | nil => exact fun _ => rfl
  | cons y l ih =>
    intro s
    rw [List.foldl_cons, List.foldl_cons, hf, ih]

theorem withJobs_roomFor (l : List Move) : ∀ (a : Int) (s : State), State.roomFor l a (s.withJobs x js) = (State.roomFor l a s).withJobs x js := by
  induction l with
  | nil => exact fun _ _ => rfl
  | cons m l ih =>
    intro a s
    have h1 : (s.withJobs x js).promotionNeed m = s.promotionNeed m := rfl
    have h2 : (s.withJobs x js).density = s.density := rfl
    have h3 : (s.withJobs x js).evictable = s.evictable := rfl
    have h4 : (s.withJobs x js).heldPages = s.heldPages := rfl
    have h5 : (s.withJobs x js).objects = s.objects := rfl
    unfold State.roomFor
    dsimp only
    rw [h1, h2, h3, h4, h5, withJobs_takeVictims]
    split
    · exact ih _ _
    split
    · rw [withJobs_foldl x js (fun s => withJobs_queueDemotion s x js), ih]
    · exact ih _ _

theorem withJobs_giveFrame (p : Nat) (f : Frame) : (s.withJobs x js).giveFrame p f = (s.giveFrame p f).withJobs x js := by
  unfold State.giveFrame
  extract_lets t' t
  have ht : t' = t.withJobs x js := rfl
  rw [ht, withJobs_ite]
  exact if_congr Iff.rfl rfl (withJobs_roomFor x js _ _ t)

theorem withJobs_setFull : (s.withJobs x js).setFull = s.setFull.withJobs x js := by
  unfold State.setFull
  rw [withJobs_ite, ← withJobs_logErr]
  rfl

theorem withJobs_writeAs (g : Nat) (twin whole : Bool) (a : Nat) (bs : List Byte) : (s.withJobs x js).writeAs g twin whole a bs =
    ((s.writeAs g twin whole a bs).1, (s.writeAs g twin whole a bs).2.withJobs x js) := by
  have h1 : (s.withJobs x js).sealedAt a = s.sealedAt a := rfl
  have h2 : (s.withJobs x js).populated a = s.populated a := rfl
  have h3 : (s.withJobs x js).peerClosed a = s.peerClosed a := rfl
  have h4 : (s.withJobs x js).poisoned = s.poisoned := rfl
  have h5 : (s.withJobs x js).frameOf = s.frameOf := rfl
  have h6 : (s.withJobs x js).lostPages = s.lostPages := rfl
  have h7 : (s.withJobs x js).chooseFrame = s.chooseFrame := rfl
  unfold State.writeAs
  rw [h1, h2, h3, h4, h5, h6, h7, withJobs_violGlb, withJobs_violGlb, withJobs_warm, withJobs_storeAs, withJobs_setFull]
  split
  · rfl
  split
  · rfl
  split
  · rfl
  split
  · rfl
  split
  · rfl
  split
  · rfl
  split
  · have h : (if whole = true then (s.withJobs x js).setPoison (granuleOf a) false else s.withJobs x js) =
        (if whole = true then s.setPoison (granuleOf a) false else s).withJobs x js := by
      rw [withJobs_ite]; rfl
    rw [h, withJobs_warm, withJobs_noteMirror]
  split
  · rw [withJobs_giveFrame, withJobs_warm, withJobs_storeAs]
  · rfl

theorem withJobs_backInvalidate (g : Nat) (whole : Bool) : (s.withJobs x js).backInvalidate g whole = (s.backInvalidate g whole).withJobs x js := by
  have h : (s.withJobs x js).cachedLines g = s.cachedLines g := rfl
  unfold State.backInvalidate
  dsimp only
  rw [h, withJobs_foldl x js (fun _ _ => rfl), withJobs_ite]
  rfl

theorem withJobs_engineWriteIn (g a : Nat) (bs : List Byte) : (s.withJobs x js).engineWriteIn g a bs =
    ((s.engineWriteIn g a bs).1, (s.engineWriteIn g a bs).2.withJobs x js) := by
  unfold State.engineWriteIn State.writeIn
  dsimp only
  rw [withJobs_enterBank, withJobs_backInvalidate, withJobs_writeAs]
  dsimp only
  split
  · rfl
  · rfl

theorem withJobs_writeFuel (f : Nat) : ∀ (s : State) (g a : Nat) (bs : List Byte), State.writeFuel f (s.withJobs x js) g a bs =
    ((State.writeFuel f s g a bs).1, (State.writeFuel f s g a bs).2.withJobs x js) := by
  induction f with
  | zero => exact fun _ _ _ _ => rfl
  | succ f ih =>
    intro s g a bs
    unfold State.writeFuel
    split
    · rfl
    · dsimp only
      rw [withJobs_engineWriteIn, ih]

theorem withJobs_writeLogged (src a : Nat) (bs : List Byte) : (s.withJobs x js).writeLogged src a bs = (s.writeLogged src a bs).withJobs x js := by
  unfold State.writeLogged State.write
  rw [withJobs_writeFuel]
  dsimp only
  rw [withJobs_logErr, withJobs_ite]
  rfl

end

end Sys2Proof.Machine
end

section
/-! What a unit's reads change, what they leave, and the bytes that they give. -/

namespace Sys2Proof.Machine

open Sys2Proof

/-- The keys of the fields that a read by a unit writes: the last violation and its count, and the counts of the direct path, of elided granules
and of forced row boundaries. -/
def LookKey (k : Nat) : Prop :=
  (0x20 * 64 ≤ k ∧ k < 0x30 * 64) ∨ k = Reg.FLS_DIRECT_COUNT.key ∨ k = Reg.FLS_ELIDED_COUNT.key ∨ k = Reg.HLC_CLAIM_STAT_FORCED.key

/-- Two states differ by reads of a unit, and by the jobs taken from its ring or the internal queue. -/
def State.Looks (s t : State) : Prop := State.Within LookKey s t ∧ t = { s with
  fields := t.fields, heat := t.heat, claims := t.claims, refreshOwed := t.refreshOwed, violAt := t.violAt, rings := t.rings, cuQueue := t.cuQueue }

section
variable {s t u : State}

theorem State.Looks.refl (s : State) : s.Looks s := ⟨.refl _ s, rfl⟩

theorem State.Looks.trans (h : s.Looks t) (k : t.Looks u) : s.Looks u := by
  refine ⟨h.1.trans k.1, ?_⟩
  have h1 := h.2
  have k1 := k.2
  rw [h1] at k1
  exact k1

theorem looks_ite {p : Prop} [Decidable p] (ht : s.Looks t) (hu : s.Looks u) : s.Looks (if p then t else u) := by split <;> assumption

theorem looks_put {f : FieldRef} {v : Nat} (h : LookKey f.key) : s.Looks (s.put f v) := ⟨within_put h, rfl⟩

theorem State.Looks.get (h : s.Looks t) {f : FieldRef} (hf : ¬LookKey f.key) : t.get f = s.get f := h.1.get hf

/-- A register that no read writes. -/
theorem not_look {f : FieldRef} (h : f.off ∉ [0x20, 0x28, 0x3000048, 0x3000050, 0x3400038]) (h8 : f.off % 8 = 0) (hl : f.lo < 64) :
    ¬LookKey f.key := by
  simp only [List.mem_cons, List.not_mem_nil, or_false, not_or] at h
  simp only [LookKey, FieldRef.key, Reg.FLS_DIRECT_COUNT, Reg.FLS_ELIDED_COUNT, Reg.HLC_CLAIM_STAT_FORCED]
  omega

/-- A register of the ports, the units of the links and those behind them. -/
theorem not_look_high {f : FieldRef} (h : 0x4000000 ≤ f.off) : ¬LookKey f.key := by
  simp only [LookKey, FieldRef.key, Reg.FLS_DIRECT_COUNT, Reg.FLS_ELIDED_COUNT, Reg.HLC_CLAIM_STAT_FORCED]
  omega

/-! ## What a read leaves -/

/-- The registers that say where memory is populated and where it is closed read the same. -/
def State.SameMap (s t : State) : Prop := ∀ f : FieldRef, f.off = 0 ∨ f.off = 0x10 ∨ 0x5800000 ≤ f.off → f.lo < 64 → t.get f = s.get f

theorem State.SameMap.populated (h : s.SameMap t) (hp : t.pages = s.pages) (hl : t.lostPages = s.lostPages) (a : Nat) :
    t.populated a = s.populated a := by
  have hb : t.bondedPages = s.bondedPages := by
    unfold State.bondedPages
    rw [h Reg.GLB_ID_LAYERS (by decide) (by decide)]
  have hs : ∀ m, t.slotState m = s.slotState m := fun m =>
    h _ (by simp only [Reg.BMCm_STATE_STATE]; omega) (by simp only [Reg.BMCm_STATE_STATE]; omega)
  have hf : ∀ m, t.slotFrames m = s.slotFrames m := fun m => by
    unfold State.slotFrames
    rw [h (Reg.BMCm_STATE_KIND m) (by simp only [Reg.BMCm_STATE_KIND]; omega) (by simp only [Reg.BMCm_STATE_KIND]; omega)]
  have hw : t.windowPopulated (pageOf a) = s.windowPopulated (pageOf a) := by
    unfold State.windowPopulated
    simp only [hb, hs, hf]
  unfold State.populated State.populatedPage State.frameOf
  rw [hw, hp, hl]

theorem State.SameMap.peerClosed (h : s.SameMap t) (a : Nat) : t.peerClosed a = s.peerClosed a := by
  unfold State.peerClosed State.inPeerWindow State.flag
  rw [h Reg.TWN_STATE_STATE (by decide) (by decide), h Reg.TWN_WIN_PEER_BASE (by decide) (by decide),
    h Reg.TWN_WIN_PEER_GIB (by decide) (by decide), h Reg.GLB_ROLE_ALONE (by decide) (by decide)]

theorem State.Looks.sameMap (h : s.Looks t) : s.SameMap t := fun f hf hl => h.get (by
  simp only [LookKey, FieldRef.key, Reg.FLS_DIRECT_COUNT, Reg.FLS_ELIDED_COUNT, Reg.HLC_CLAIM_STAT_FORCED]
  omega)

theorem State.Looks.populated (h : s.Looks t) (a : Nat) : t.populated a = s.populated a :=
  h.sameMap.populated (by rw [h.2]) (by rw [h.2]) a

theorem State.Looks.readable (h : s.Looks t) {a : Nat} (ha : s.Readable a) : t.Readable a := by
  obtain ⟨h1, h2, h3⟩ := ha
  refine ⟨(h.populated a).trans h1, ?_, ?_⟩
  · rw [h.2]; exact h2
  · rw [h.2]; exact h3

theorem State.Looks.writable (h : s.Looks t) {a : Nat} (ha : s.Writable a) : t.Writable a := by
  obtain ⟨h1, h2, h3, h4, h5⟩ := ha
  refine ⟨(h.populated a).trans h1, ?_, (h.sameMap.peerClosed a).trans h3, ?_, ?_⟩
  · rw [h.2]; exact h2
  · rw [h.2]; exact h4
  · rw [h.2]; exact h5

theorem State.Looks.cachedLines (h : s.Looks t) (g : Nat) : t.cachedLines g = s.cachedLines g := by rw [h.2]; rfl

/-- The marks of the routes, the nodes and the ports are read as before. -/
theorem State.Looks.routePorts (h : s.Looks t) (d c : Nat) : t.routePorts d c = s.routePorts d c := by
  have hm : ∀ m, t.useMask d m = s.useMask d m := fun m => by
    unfold State.useMask State.flag
    rw [h.get (not_look (by decide) (by decide) (by decide)), h.get (not_look_high (by decide))]
  have hst : ∀ n, t.get (Reg.HGPn_STATUS_STATE n) = s.get (Reg.HGPn_STATUS_STATE n) := fun n =>
    h.get (not_look_high (by simp only [Reg.HGPn_STATUS_STATE]; omega))
  have hu : t.upPorts = s.upPorts := by
    funext m
    unfold State.upPorts State.portUp
    simp only [hst]
  unfold State.routePorts
  rw [h.get (f := Reg.HGP0_RTk_PRI_c d c) (not_look_high (by simp only [Reg.HGP0_RTk_PRI_c]; omega)),
    h.get (f := Reg.HGP0_RTk_ALT_c d c) (not_look_high (by simp only [Reg.HGP0_RTk_ALT_c]; omega)), hm, hm, hu]

theorem State.Looks.isLocalNode (h : s.Looks t) (d : Nat) : t.isLocalNode d = s.isLocalNode d := by
  unfold State.isLocalNode
  rw [h.get (not_look_high (by decide)), h.get (not_look_high (by decide))]

theorem State.Looks.pickPort (h : s.Looks t) (k : PKind) (vl : Nat) (l : List Nat) : t.pickPort k vl l = s.pickPort k vl l := by
  have hp : t.port = s.port := by rw [h.2]; rfl
  unfold State.pickPort
  rw [hp]

theorem State.Looks.mayTransfer (h : s.Looks t) (d n : Nat) : t.mayTransfer d n = s.mayTransfer d n := by rw [h.2]; rfl

end

/-! ## Reads -/

section
variable (s : State)

theorem looks_enterBank (a : Nat) : s.Looks (s.enterBank a) := by
  unfold State.enterBank
  split
  · split
    · exact State.Looks.trans (t := s.boundaryIn _ [_]) ⟨⟨rfl, rfl, fun _ _ => rfl⟩, rfl⟩ (looks_put (by simp [LookKey]))
    · exact .refl s
  · exact .refl s

theorem looks_violGlb (g k a : Nat) : s.Looks (s.violGlb g k a) := by
  have hw : State.Within LookKey s (s.violGlb g k a) := by
    have hput : ∀ (t : State) {f : FieldRef} (v : Nat), f.off = 0x20 ∨ f.off = 0x28 → f.lo < 64 → State.Within LookKey t (t.put f v) :=
      fun t f v ho hl => within_put (Or.inl (by unfold FieldRef.key; omega))
    have h : State.Within LookKey s { s.countSat Reg.GLB_VIOL_COUNT_COUNT 1 with violAt := mapSet 0 s.violAt 0 (s.cycle + 1) } :=
      hput s (f := Reg.GLB_VIOL_COUNT_COUNT) _ (by decide) (by decide)
    exact within_ite h (h.trans ((hput _ _ (by decide) (by decide)).trans ((hput _ _ (by decide) (by decide)).trans
      ((hput _ _ (by decide) (by decide)).trans (hput _ _ (by decide) (by decide))))))
  refine ⟨hw, ?_⟩
  unfold State.violGlb State.violate
  dsimp only
  split <;> rfl

theorem looks_warm (a : Nat) : s.Looks (s.warm a) := by
  rw [warm_eq]
  exact ⟨⟨rfl, rfl, fun _ _ => rfl⟩, rfl⟩

theorem looks_readAs (g a n : Nat) : s.Looks (s.readAs g a n).2.2 := by
  unfold State.readAs
  split
  · exact looks_violGlb s _ _ _
  split
  · exact looks_ite (looks_ite ((looks_warm s a).trans (looks_put (.inr (.inl rfl)))) ((looks_warm s a).trans (looks_put (.inr (.inr (.inl rfl))))))
      (looks_warm s a)
  · exact .refl s

theorem looks_readIn (a n : Nat) : s.Looks (s.readIn a n).2.2 := (looks_enterBank s a).trans (looks_readAs _ 3 a n)

theorem looks_readFuel (f : Nat) : ∀ (s : State) (a n : Nat), s.Looks (State.readFuel f s a n).2.2 := by
  induction f with
  | zero => exact fun s _ _ => .refl s
  | succ f ih =>
    intro s a n
    unfold State.readFuel
    split
    · exact .refl s
    · exact (looks_readIn s _ _).trans (ih _ _ _)

theorem looks_read (a n : Nat) : s.Looks (s.read a n).2.2 := looks_readFuel _ s a n

end

section
variable {s : State} {a : Nat}

/-- A unit reads the bytes of memory where nothing stands in its way. -/
theorem readIn_bytes (h : s.Readable a) (n : Nat) : ∃ t, s.readIn a n = (memRead s.mem a n, false, t) ∧ s.Looks t := by
  obtain ⟨t, ht, -⟩ := readAs_ok ((looks_enterBank s a).readable h) 3 n
  rw [enterBank_mem] at ht
  have hl := looks_readIn s a n
  rw [show s.readIn a n = _ from ht] at hl
  exact ⟨t, ht, hl⟩

/-- A unit reads a granule whole. -/
theorem read_granule (h : s.Readable a) (ha : a % 256 = 0) : ∃ t, s.read a 256 = (memRead s.mem a 256, false, t) ∧ s.Looks t := by
  obtain ⟨t, ht, hl⟩ := readIn_bytes h 256
  refine ⟨t, ?_, hl⟩
  have hk : min 256 (256 - a % 256) = 256 := by omega
  unfold State.read
  rw [show 256 / 256 + 2 = 1 + 1 + 1 from rfl]
  unfold State.readFuel
  rw [if_neg (by decide)]
  dsimp only
  rw [hk, ht]
  dsimp only
  unfold State.readFuel
  rw [if_pos (Nat.sub_self _)]
  dsimp only
  rw [List.append_nil, Bool.or_false]

/-- Source granules that may be read come with the bytes of memory, none poisoned (R342). -/
theorem readGrans_bytes (n : Nat) : ∀ {s : State} {a : Nat}, (∀ i < n, s.Readable (a + 256 * i)) →
    ∃ t, s.readGrans a n = ((List.range n).map fun i => (memRead s.mem (a + 256 * i) 256, false), t) ∧ s.Looks t := by
  induction n with
  | zero => exact fun {s a} _ => ⟨s, rfl, .refl s⟩
  | succ n ih =>
    intro s a h
    obtain ⟨u, hu, hlu⟩ := readIn_bytes (h 0 (Nat.succ_pos n)) 256
    have hmem : u.mem = s.mem := by rw [hlu.2]
    obtain ⟨t, ht, hlt⟩ := ih (s := u) (a := a + 256) fun i hi => hlu.readable (by
      have := h (i + 1) (Nat.succ_lt_succ hi)
      rwa [show a + 256 + 256 * i = a + 256 * (i + 1) by omega])
    refine ⟨t, ?_, hlu.trans hlt⟩
    unfold State.readGrans
    rw [Nat.mul_zero, Nat.add_zero] at hu
    rw [hu]
    dsimp only
    rw [ht, List.range_succ_eq_map, List.map_cons, List.map_map, hmem]
    simp only [Function.comp_def, Nat.mul_zero, Nat.add_zero, Nat.succ_eq_add_one, show ∀ i, a + 256 + 256 * i = a + 256 * (i + 1) from fun i => by omega]

end

end Sys2Proof.Machine
end

section
/-! Packets that leave by their node's route (R322, R330 to R335): what a transfer's start changes, and where its packets are. -/

namespace Sys2Proof.Machine

open Sys2Proof

/-- Two states differ by packets sent: in the ports, and in the counts of bytes that they have sent. -/
def State.Sends (s t : State) : Prop :=
  State.Within (fun k => ∃ n, k = (Reg.HGPn_PAYLOAD_TX_MIB n).key) s t ∧ t = { s with ports := t.ports, fields := t.fields }

section
variable {s t u : State}

theorem State.Sends.refl (s : State) : s.Sends s := ⟨.refl _ s, rfl⟩

theorem State.Sends.trans (h : s.Sends t) (k : t.Sends u) : s.Sends u := by
  refine ⟨h.1.trans k.1, ?_⟩
  have h1 := h.2
  have k1 := k.2
  rw [h1] at k1
  exact k1

theorem sends_foldl {α : Type} {f : State → α → State} {l : List α} (hf : ∀ (s : State) y, s.Sends (f s y)) : s.Sends (l.foldl f s) := by
  induction l generalizing s with
  | nil => exact .refl s
  | cons y l ih => exact (hf s y).trans ih

theorem sends_setPort (n : Nat) (p : Port) : s.Sends (s.setPort n p) := ⟨⟨rfl, rfl, fun _ _ => rfl⟩, rfl⟩

theorem sends_pump (n : Nat) : s.Sends (s.pump n) := by
  unfold State.pump
  extract_lets p
  generalize pumpWaiting s.held p.waiting [] { p with waiting := [] } [] = r
  obtain ⟨w, q, freed⟩ := r
  refine (sends_setPort _ _).trans (State.Sends.trans (t := State.count _ _ _) ⟨within_put ⟨n, rfl⟩, rfl⟩ (sends_foldl fun u e => ?_))
  split
  · exact sends_setPort _ _
  · exact .refl _

/-- A register that is no count of bytes sent, by its place among the ports' registers. -/
theorem State.Sends.get (h : s.Sends t) {f : FieldRef} (hf : f.off % 0x40000 ≠ 0x20) (hl : f.lo < 64) : t.get f = s.get f := by
  refine h.1.get ?_
  rintro ⟨n, hn⟩
  simp only [FieldRef.key, Reg.HGPn_PAYLOAD_TX_MIB] at hn
  omega

theorem State.Sends.isLocalNode (h : s.Sends t) (d : Nat) : t.isLocalNode d = s.isLocalNode d := by
  unfold State.isLocalNode
  rw [h.get (f := Reg.HGP0_NODE_ALIAS) (by decide) (by decide), h.get (f := Reg.HGP0_NODE_NODE) (by decide) (by decide)]

/-- A node and a class of the route table, or class 1 of any number, whose fields lie apart from the counts. -/
def RouteIndex (d c : Nat) : Prop := c < 4 ∧ (d < 256 ∨ c = 1)

theorem State.Sends.routePorts (h : s.Sends t) {d c : Nat} (hdc : RouteIndex d c) : t.routePorts d c = s.routePorts d c := by
  have hm : ∀ m, t.useMask d m = s.useMask d m := fun m => by
    unfold State.useMask State.flag
    rw [h.get (f := Reg.GLB_ROLE_TWIN) (by decide) (by decide), h.get (f := Reg.TWN_CFG_PARTNER) (by decide) (by decide)]
  have hst : ∀ n, t.get (Reg.HGPn_STATUS_STATE n) = s.get (Reg.HGPn_STATUS_STATE n) := fun n =>
    h.get (by simp only [Reg.HGPn_STATUS_STATE]; omega) (by simp only [Reg.HGPn_STATUS_STATE]; omega)
  have hu : t.upPorts = s.upPorts := by
    funext m
    unfold State.upPorts State.portUp
    simp only [hst]
  obtain ⟨hc, hd⟩ := hdc
  have hp : t.get (Reg.HGP0_RTk_PRI_c d c) = s.get (Reg.HGP0_RTk_PRI_c d c) := h.1.get (by
    rintro ⟨n, hn⟩; simp only [FieldRef.key, Reg.HGP0_RTk_PRI_c, Reg.HGPn_PAYLOAD_TX_MIB] at hn; omega)
  have ha : t.get (Reg.HGP0_RTk_ALT_c d c) = s.get (Reg.HGP0_RTk_ALT_c d c) := h.1.get (by
    rintro ⟨n, hn⟩; simp only [FieldRef.key, Reg.HGP0_RTk_ALT_c, Reg.HGPn_PAYLOAD_TX_MIB] at hn; omega)
  unfold State.routePorts
  rw [hp, ha, hm, hm, hu]

end

/-! ## A packet on a port -/

/-- The control flits that are due before a packet leave the replay buffer as it was. -/
theorem countFlits_replay (p : Port) (held : Bool) (k : Packet) : (p.countFlits held k).replay = p.replay := by
  have hdue : ∀ p : Port, (p.insertDue held).replay = p.replay := fun p => by
    unfold Port.insertDue
    split <;> rfl
  exact (hdue _).trans (hdue p)

/-- A packet that starts enters the replay buffer behind the others (R332). -/
theorem transmit_replay (p : Port) (k : Packet) : ∃ x : SentPacket, x.pkt = k ∧ (p.transmit k).replay = p.replay ++ [x] :=
  ⟨k.sealed (p.countFlits false k).nextLseq, rfl, congrArg (· ++ [_]) (countFlits_replay p false k)⟩

/-- A packet of a port's queue is on the port after the port has sent what it can: it waits still, or is in the replay buffer. -/
theorem pumpWaiting_holds (held : Bool) (ws : List (Packet × Option Nat)) : ∀ (blocked : List Nat) (p : Port) (freed : List (Option Nat × Nat)),
    (∀ e ∈ p.replay, e ∈ (pumpWaiting held ws blocked p freed).2.1.replay) ∧
    ∀ e ∈ ws, e ∈ (pumpWaiting held ws blocked p freed).1 ∨ ∃ x ∈ (pumpWaiting held ws blocked p freed).2.1.replay, x.pkt = e.1 := by
  induction ws with
  | nil => exact fun _ _ _ => ⟨fun _ h => h, fun _ h => nomatch h⟩
  | cons w ws ih =>
    intro blocked p freed
    obtain ⟨k, i⟩ := w
    unfold pumpWaiting
    split
    · obtain ⟨h1, h2⟩ := ih blocked (p.transmit k) (freed ++ [(i, k.vl)])
      obtain ⟨x, hx, hrep⟩ := transmit_replay p k
      refine ⟨fun e he => h1 e (by rw [hrep]; exact List.mem_append_left _ he), fun e he => ?_⟩
      obtain rfl | he := List.mem_cons.mp he
      · exact .inr ⟨x, h1 _ (by rw [hrep]; exact List.mem_append_right _ (List.mem_singleton_self _)), hx⟩
      · exact h2 e he
    · obtain ⟨h1, h2⟩ := ih (k.vl :: blocked) p freed
      generalize pumpWaiting held ws (k.vl :: blocked) p freed = r at h1 h2
      obtain ⟨rest, q, fr⟩ := r
      refine ⟨h1, fun e he => ?_⟩
      obtain rfl | he := List.mem_cons.mp he
      · exact .inl List.mem_cons_self
      · exact (h2 e he).imp_left (List.mem_cons_of_mem _)

theorem holds_oweCredit {s : State} {m n vl : Nat} {k : Packet} (h : (s.port m).Holds k) : ((s.oweCredit n vl).port m).Holds k := by
  unfold State.oweCredit
  dsimp only
  rw [State.port_setPort]
  split
  · next he => rw [← he]; exact h
  · exact h

/-- What stood in a port's queue is on the port after it has sent what it can. -/
theorem holds_pump {s : State} {m : Nat} {k : Packet} {i : Option Nat} (h : (k, i) ∈ (s.port m).waiting) : ((s.pump m).port m).Holds k := by
  unfold State.pump
  extract_lets p
  have hw := (pumpWaiting_holds s.held p.waiting [] { p with waiting := [] } []).2 _ h
  generalize pumpWaiting s.held p.waiting [] { p with waiting := [] } [] = r at hw
  obtain ⟨w, q, freed⟩ := r
  dsimp only at hw ⊢
  have hbase : ∀ s : State, (s.port m).Holds k → ((freed.foldl (fun s e => match e.1 with
      | some i => s.oweCredit i e.2
      | none => s) s).port m).Holds k := by
    induction freed with
    | nil => exact fun _ h => h
    | cons e l ih =>
      intro s hs
      refine ih _ ?_
      dsimp only
      split
      · exact holds_oweCredit hs
      · exact hs
  refine hbase _ ?_
  rw [State.count, State.port_put, State.port_setPort, if_pos rfl]
  exact hw.imp (fun h => ⟨_, h, rfl⟩) fun h => h

/-- A packet to another node goes onto the port that its route gives (R334, R335). -/
theorem send_away {s : State} (unit : Nat) {k : Packet} {m : Nat} (hl : s.isLocalNode k.dst = false) (hk : (k.kind == .post) = false)
    (hp : s.pickPort k.kind k.vl (s.routePorts k.dst k.vl) = some m) : s.Sends (s.send unit k) ∧ ((s.send unit k).port m).Holds k := by
  have hports : s.portsFor k = s.routePorts k.dst k.vl := by
    unfold State.portsFor
    rw [hk]
    simp
  have heq : s.send unit k = (s.setPort m { s.port m with waiting := (s.port m).waiting ++ [(k, none)] }).pump m := by
    unfold State.send State.sendVia State.sendOver
    rw [if_neg (by rw [hl]; decide), hports, hp]
  rw [heq]
  refine ⟨(sends_setPort _ _).trans (sends_pump m), holds_pump (i := none) ?_⟩
  rw [State.port_setPort, if_pos rfl]
  exact List.mem_append_right _ (List.mem_singleton_self _)

theorem pickPort_some {s : State} {l : List Nat} (h : l ≠ []) (k : PKind) (vl : Nat) : ∃ m, s.pickPort k vl l = some m := by
  cases l with
  | nil => exact absurd rfl h
  | cons n ns =>
    unfold State.pickPort
    dsimp only
    split
    · exact ⟨_, rfl⟩
    · exact ⟨_, rfl⟩

/-- Packets to another node, whose route has a port that is up, leave by it. -/
theorem sendAll_away (unit d c : Nat) (hdc : RouteIndex d c) (l : List Packet) : ∀ {s : State}, s.isLocalNode d = false → s.routePorts d c ≠ [] →
    (∀ k ∈ l, k.dst = d ∧ k.vl = c ∧ (k.kind == .post) = false) → s.Sends (s.sendAll unit l) := by
  induction l with
  | nil => exact fun _ _ _ => .refl _
  | cons k l ih =>
    intro s hl hr hk
    obtain ⟨rfl, rfl, hpost⟩ := hk k List.mem_cons_self
    obtain ⟨m, hm⟩ := pickPort_some (s := s) hr k.kind k.vl
    have h := (send_away unit hl hpost hm).1
    exact h.trans (ih ((h.isLocalNode _).trans hl) (by rw [h.routePorts hdc]; exact hr) fun x hx => hk x (List.mem_cons_of_mem _ hx))

end Sys2Proof.Machine
end

section
/-! A collective job from its record to its end (R160, R341, R343, R344): how it begins, and how it ends at once or goes on. -/

namespace Sys2Proof.Machine

open Sys2Proof

/-! ## The list of jobs in progress -/

section
variable {l : List CuJob} {j : CuJob} {n : Nat}

theorem find_appended (hl : ∀ x ∈ l, x.id ≠ n) (hj : j.id = n) : (l ++ [j]).find? (fun x => x.id == n) = some j := by
  rw [List.find?_append, List.find?_eq_none.mpr (by simpa using hl)]
  simp [hj]

theorem mod_appended (hl : ∀ x ∈ l, x.id ≠ n) (hj : j.id = n) (f : CuJob → CuJob) :
    ((l ++ [j]).map fun x => if x.id = n then f x else x) = l ++ [f j] := by
  have h : (l.map fun x => if x.id = n then f x else x) = l := (List.map_congr_left fun x hx => if_neg (hl x hx)).trans (List.map_id' l)
  rw [List.map_append, h, List.map_singleton, if_pos hj]

theorem filter_appended (hl : ∀ x ∈ l, x.id ≠ n) (hj : j.id = n) : (l ++ [j]).filter (fun x => x.id != n) = l := by
  rw [List.filter_append, List.filter_eq_self.mpr (by simpa using hl)]
  simp [hj]

end

/-! ## The end of a job (R344) -/

/-- The job counted, with its status as the last one (R352). -/
def State.cuCounted (s : State) (unit status : Nat) : State :=
  (s.count (Reg.HGPn_CU_PROGRESS_DONE unit) 1).put (Reg.HGPn_CU_PROGRESS_LAST_STATUS unit) status

theorem cuCounted_done (s : State) (unit status : Nat) :
    (s.cuCounted unit status).get (Reg.HGPn_CU_PROGRESS_DONE unit) = (s.get (Reg.HGPn_CU_PROGRESS_DONE unit) + 1) % 2 ^ 32 := by
  unfold State.cuCounted
  rw [State.get_put_ne (by simp only [FieldRef.key, Reg.HGPn_CU_PROGRESS_DONE, Reg.HGPn_CU_PROGRESS_LAST_STATUS]; omega)]
  exact State.get_put_eq

theorem cuCounted_last (s : State) (unit status : Nat) : (s.cuCounted unit status).get (Reg.HGPn_CU_PROGRESS_LAST_STATUS unit) = status % 2 ^ 8 :=
  State.get_put_eq

/-- The other registers keep their values. -/
theorem cuCounted_get (s : State) (unit status : Nat) {f : FieldRef} (h : f.off < 0x4020010 ∨ f.off % 0x100000 ≠ 0x20010) (hl : f.lo < 64) :
    (s.cuCounted unit status).get f = s.get f := by
  unfold State.cuCounted State.count
  rw [State.get_put_ne (by simp only [FieldRef.key, Reg.HGPn_CU_PROGRESS_LAST_STATUS]; omega),
    State.get_put_ne (by simp only [FieldRef.key, Reg.HGPn_CU_PROGRESS_DONE]; omega)]

theorem cuCounted_sig (s : State) (unit status : Nat) {k : Nat} (hk : k < 4096) : (s.cuCounted unit status).sig k = s.sig k :=
  cuCounted_get s unit status (by simp only [Reg.GLB_SIGn_VALUE]; omega) (Nat.zero_lt_succ 63)

/-- A job has left the jobs in progress. -/
def State.dropJob (s : State) (n : Nat) : State := { s with cuJobs := s.cuJobs.filter (·.id != n) }

section
variable {s v t u x : State} {j : CuJob} {unit status sig token a : Nat} {ra : Option Nat} {ws : List Nat}

theorem endCuJob_queue (h : j.recAddr = none) (hd : j.doneSig = none) (hst : status ≤ 2) :
    s.endCuJob j status = State.cuCounted { s.dropJob j.id with cuDone := mapInsert s.cuDone j.token status } (cuIndex j.unit) status := by
  unfold State.endCuJob
  dsimp only
  rw [h, hd, if_neg (by omega)]
  rfl

theorem endCuJob_ring (h : j.recAddr = some a) (hd : j.doneSig = some sig) (hst : status ≤ 2) :
    s.endCuJob j status = let w := ((s.dropJob j.id).writeLogged 8 (a + 7) [BitVec.ofNat 8 status]).cuCounted (cuIndex j.unit) status
      w.endWork (w.heldSince s.heldSeq) (.post sig) (w.postSig sig false 1) := by
  unfold State.endCuJob
  dsimp only
  rw [h, hd, if_neg (by omega)]
  rfl

/-- A job of the internal queue ends: its submitter learns the status. -/
theorem ends_queue (hst : status ≤ 2) :
    v.CuEnds (State.cuCounted { v with cuDone := mapInsert v.cuDone token status } unit status) unit none token sig status :=
  ⟨cuCounted_done _ _ _, (cuCounted_last _ _ _).trans (Nat.mod_eq_of_lt (by omega)), rfl, rfl, rfl, rfl,
    fun _ => ⟨rfl, rfl, fun _ hk => cuCounted_sig _ _ _ hk⟩, fun _ h => nomatch h⟩

/-- A signal word is no field of an access. -/
theorem serves_sig (h : State.Serves AccessKey v x) {k : Nat} (hk : k < 4096) : x.sig k = v.sig k :=
  h.get (not_access (by simp [Reg.GLB_SIGn_VALUE]; omega) (by simp only [Reg.GLB_SIGn_VALUE]; omega) (Nat.zero_lt_succ 63)
    (by simp only [Reg.GLB_SIGn_VALUE]; omega))

/-- A job of the ring ends: STATUS is written, and then its signal counts up. -/
theorem ends_ring (hrun : v.get Reg.PCR_PSTATE_STATE = 0) (hst : status ≤ 2) (hu : unit < 2) (hsig : sig < 4096) :
    v.CuEnds (let w := (v.writeLogged 8 (a + 7) [BitVec.ofNat 8 status]).cuCounted unit status
      w.endWork (w.heldSince v.heldSeq) (.post sig) (w.postSig sig false 1)) unit (some a) token sig status := by
  suffices h : ∀ x, x = v.writeLogged 8 (a + 7) [BitVec.ofNat 8 status] → State.Serves AccessKey v x →
      v.CuEnds ((x.cuCounted unit status).endWork ((x.cuCounted unit status).heldSince v.heldSeq) (.post sig)
        ((x.cuCounted unit status).postSig sig false 1)) unit (some a) token sig status from h _ rfl (serves_writeLogged ..)
  intro x hx hw
  have hdone : (x.cuCounted unit status).get (Reg.HGPn_CU_PROGRESS_DONE unit) = (v.get (Reg.HGPn_CU_PROGRESS_DONE unit) + 1) % 2 ^ 32 := by
    rw [cuCounted_done, hw.get (not_access (by simp [Reg.HGPn_CU_PROGRESS_DONE]; omega) (by simp only [Reg.HGPn_CU_PROGRESS_DONE]; omega)
      (Nat.zero_lt_succ 63) (by simp only [Reg.HGPn_CU_PROGRESS_DONE]; omega))]
  have hlast : (x.cuCounted unit status).get (Reg.HGPn_CU_PROGRESS_LAST_STATUS unit) = status :=
    (cuCounted_last _ _ _).trans (Nat.mod_eq_of_lt (by omega))
  have hsigs : ∀ k < 4096, (x.cuCounted unit status).sig k = v.sig k := fun k hk => (cuCounted_sig _ _ _ hk).trans (serves_sig hw hk)
  have hw0 : (x.cuCounted unit status).get Reg.PCR_PSTATE_STATE = 0 := (cuCounted_get _ _ _ (by decide) (by decide)).trans
    ((hw.get (not_access (by decide) (by decide) (by decide) (by decide))).trans hrun)
  have hc : x.cuCounted unit status = { x with fields := (x.cuCounted unit status).fields } := rfl
  obtain ⟨ht, hget, hpost⟩ := endPost (x.cuCounted unit status) ((x.cuCounted unit status).heldSince v.heldSeq) sig hw0
  generalize (x.cuCounted unit status).endWork ((x.cuCounted unit status).heldSince v.heldSeq) (.post sig)
    ((x.cuCounted unit status).postSig sig false 1) = t at ht hget hpost
  have hprog : ∀ f : FieldRef, 0x4000000 ≤ f.off → f.key ≠ (Reg.GLB_SIGn_VALUE sig).key := fun f hf => by
    simp only [FieldRef.key, Reg.GLB_SIGn_VALUE]; omega
  rw [hc, hw.2] at ht
  refine ⟨?_, ?_, by rw [ht], by rw [ht], by rw [ht], by rw [ht], (nomatch ·), ?_⟩
  · rw [hget _ (hprog _ (by simp only [Reg.HGPn_CU_PROGRESS_DONE]; omega)), hdone]
  · rw [hget _ (hprog _ (by simp only [Reg.HGPn_CU_PROGRESS_LAST_STATUS]; omega)), hlast]
  · rintro _ ⟨⟩
    refine ⟨by rw [ht], ?_, fun hvis k hk => ?_⟩
    · rw [← hx, ht]
    · rw [← hx] at hvis
      split
      · next he =>
        rw [he, ← hsigs sig hsig]
        exact hpost hvis
      · next hne =>
        rw [← hsigs k hk]
        exact hget _ (by simp only [FieldRef.key, Reg.GLB_SIGn_VALUE]; omega)

/-- A job that is neither poisoned nor lost ends as R344 says, from the state in which it has left the jobs in progress. -/
theorem endCuJob_ends (hrun : s.get Reg.PCR_PSTATE_STATE = 0) (hst : status ≤ 2) (hu : j.unit < 2)
    (hd : j.doneSig = if j.recAddr.isSome then some sig else none) (hsig : sig < 4096) :
    (s.dropJob j.id).CuEnds (s.endCuJob j status) j.unit j.recAddr j.token sig status := by
  have hunit : cuIndex j.unit = j.unit := Nat.mod_eq_of_lt hu
  cases hr : j.recAddr with
  | none =>
    rw [endCuJob_queue hr (by rw [hd, hr]; rfl) hst, hunit]
    exact ends_queue hst
  | some a =>
    rw [endCuJob_ring hr (by rw [hd, hr]; rfl) hst, hunit]
    exact ends_ring (v := s.dropJob j.id) hrun hst hu hsig

/-- What a job's end writes does not depend on the numbers and the jobs of the units. -/
theorem State.CuEnds.withJobs {n : Nat} (h : State.CuEnds (v.withJobs n v.cuJobs) t unit ra token sig status) : v.CuEnds t unit ra token sig status := by
  have hmem : ∀ a bs, ((v.withJobs n v.cuJobs).writeLogged 8 a bs).mem = (v.writeLogged 8 a bs).mem := fun a bs => by rw [withJobs_writeLogged]; rfl
  have hvis : ∀ a bs, (v.withJobs n v.cuJobs).Visible ((v.withJobs n v.cuJobs).writeLogged 8 a bs) ↔ v.Visible (v.writeLogged 8 a bs) := fun a bs => by
    rw [withJobs_writeLogged]; exact Iff.rfl
  obtain ⟨hdone, hlast, hjobs, htx, hred, hch, hqueue, hring⟩ := h
  refine ⟨hdone, hlast, hjobs, htx, hred, hch, hqueue, fun a ha => ?_⟩
  obtain ⟨hdone, hm, hs⟩ := hring a ha
  exact ⟨hdone, hm.trans (hmem _ _), fun h => hs ((hvis _ _).mpr h)⟩

/-! ## The start of a job (R341) -/

/-- A job as it begins, its transfers still to be set up. -/
def cuJobOf (id unit : Nat) (ra : Option Nat) (token : Nat) (ws : List Nat) : CuJob :=
  ⟨id, unit, ra, if ra.isSome then some (recBits ws 6 11 0) else none, token, false, false, true⟩

variable {src : JobSrc}

/-- The next job is fetched as its head says; with it taken the job begins under the next number. -/
theorem cuFetch_head (hu : unit < 2) (h : s.CuHead unit src ws ra token u) : s.Looks u ∧
    ∃ s' : State, s.cuFetch unit src = some (ws, ra, token, false, s') ∧ s'.tx = s.tx ∧
      s'.beginCuJob unit ra token ws = (s.xferSeq, u.withJobs (s.xferSeq + 1) (s.cuJobs ++ [cuJobOf s.xferSeq unit ra token ws])) := by
  have hunit : cuIndex unit = unit := Nat.mod_eq_of_lt hu
  cases src with
  | queue =>
    obtain ⟨q, qs, hq, rfl, rfl, rfl, rfl⟩ := h
    refine ⟨⟨⟨rfl, rfl, fun _ _ => rfl⟩, rfl⟩, { s with cuQueue := qs }, ?_, rfl, rfl⟩
    unfold State.cuFetch
    rw [hq]
  | ring =>
    obtain ⟨hen, hposted, rfl, a, bs, v, rfl, rfl, hr, rfl, rfl⟩ := h
    have hl : s.Looks v := by
      simpa [hr] using looks_read s (ringAddr (s.get (Reg.HGPn_CU_RING_BASE unit)) (s.get (Reg.HGPn_CU_RING_ENTRIES_M1 unit)) 64 (s.ring (4 + unit)).taken) 64
    refine ⟨hl.trans ⟨⟨rfl, rfl, fun _ _ => rfl⟩, rfl⟩, v, ?_, by rw [hl.2], ?_⟩
    · unfold State.cuFetch State.flag State.jobPosted
      dsimp only
      rw [hunit, hen, decide_eq_true hposted, hr]
      rfl
    · have hx : s.xferSeq = v.xferSeq ∧ s.cuJobs = v.cuJobs := by rw [hl.2]; exact ⟨rfl, rfl⟩
      unfold State.beginCuJob
      rw [hunit, hx.1, hx.2]
      rfl

/-- A job that a check refuses ends with BAD_JOB, before anything of it is done. -/
theorem refused_ends (hrun : u.get Reg.PCR_PSTATE_STATE = 0) (hu : unit < 2) (hj : u.cuJobs = s.cuJobs) (hfresh : ∀ x ∈ s.cuJobs, x.id ≠ s.xferSeq) :
    u.CuEnds ((u.withJobs (s.xferSeq + 1) (s.cuJobs ++ [cuJobOf s.xferSeq unit ra token ws])).refuseCuJob s.xferSeq 2) unit ra token
      (recBits ws 6 11 0) 2 := by
  unfold State.refuseCuJob
  rw [show (u.withJobs (s.xferSeq + 1) (s.cuJobs ++ [cuJobOf s.xferSeq unit ra token ws])).cuJobs = s.cuJobs ++ [cuJobOf s.xferSeq unit ra token ws]
    from rfl, find_appended hfresh rfl]
  have h := endCuJob_ends (s := u.withJobs (s.xferSeq + 1) (s.cuJobs ++ [cuJobOf s.xferSeq unit ra token ws]))
    (j := cuJobOf s.xferSeq unit ra token ws) (status := 2) (sig := recBits ws 6 11 0) hrun (le_refl 2) hu rfl (Nat.mod_lt _ (by decide))
  have hdrop : (u.withJobs (s.xferSeq + 1) (s.cuJobs ++ [cuJobOf s.xferSeq unit ra token ws])).dropJob s.xferSeq =
      u.withJobs (s.xferSeq + 1) u.cuJobs := congrArg (u.withJobs (s.xferSeq + 1)) ((filter_appended hfresh rfl).trans hj.symm)
  refine State.CuEnds.withJobs (n := s.xferSeq + 1) ?_
  rw [← hdrop]
  exact h

end

end Sys2Proof.Machine
end

section
/-! A collective job on the unit that serves it (R341, R343): the unit, and the job once its transfers are set up. -/

namespace Sys2Proof.Machine

open Sys2Proof

/-! ## The unit that serves a job (R334, R341) -/

section
variable {s t u : State} {unit node cls d c : Nat} {ws : List Nat}

/-- A mask as the device uses it names ports of one die (R334). -/
theorem useMask_die (s : State) (d k : Nat) : (∀ x < 4, bit (s.useMask d k) x = false) ∨ ∀ x, 4 ≤ x → bit (s.useMask d k) x = false := by
  unfold State.useMask
  dsimp only
  generalize (if (s.flag Reg.GLB_ROLE_TWIN && d != s.get Reg.TWN_CFG_PARTNER) = true then k % 128 else k) = m
  split
  · next h =>
    refine .inl fun x hx => ?_
    rw [← bit_mod (w := 4) hx, show m % 2 ^ 4 = 0 from h]
    exact beq_false_of_ne (by simp)
  · refine .inr fun x hx => ?_
    have hlt : m % 16 < 2 ^ x := (Nat.mod_lt m (Nat.succ_pos 15)).trans_le (Nat.pow_le_pow_right Nat.two_pos hx)
    unfold bit
    rw [Nat.div_eq_of_lt hlt]
    rfl

/-- The ports of a mask lie on one die. -/
theorem upPorts_die {k : Nat} : ∀ x ∈ s.upPorts (s.useMask d k), ∀ y ∈ s.upPorts (s.useMask d k), x / 4 = y / 4 := by
  intro x hx y hy
  have hbit : ∀ x ∈ s.upPorts (s.useMask d k), x < 8 ∧ bit (s.useMask d k) x = true := fun x hx =>
    ⟨upPorts_lt x hx, (Bool.and_eq_true_iff.mp (List.mem_filter.mp hx).2).1⟩
  obtain ⟨hx8, hxb⟩ := hbit x hx
  obtain ⟨hy8, hyb⟩ := hbit y hy
  rcases useMask_die s d k with h | h
  · have hx4 : ¬x < 4 := fun hlt => by rw [h x hlt] at hxb; cases hxb
    have hy4 : ¬y < 4 := fun hlt => by rw [h y hlt] at hyb; cases hyb
    omega
  · have hx4 : ¬4 ≤ x := fun hle => by rw [h x hle] at hxb; cases hxb
    have hy4 : ¬4 ≤ y := fun hle => by rw [h y hle] at hyb; cases hyb
    omega

theorem routePorts_die : ∀ x ∈ s.routePorts d c, ∀ y ∈ s.routePorts d c, x / 4 = y / 4 := by
  unfold State.routePorts
  dsimp only
  split
  · exact upPorts_die
  · exact upPorts_die

theorem foldl_pick_mem (f : Nat → Nat → Bool) (l : List Nat) : ∀ n, l.foldl (fun b m => if f b m then m else b) n ∈ n :: l := by
  induction l with
  | nil => exact fun n => List.mem_singleton_self n
  | cons x l ih =>
    intro n
    rw [List.foldl_cons]
    rcases List.mem_cons.mp (ih (if f n x then x else n)) with h | h
    · rw [h]
      split
      · exact List.mem_cons_of_mem _ List.mem_cons_self
      · exact List.mem_cons_self
    · exact List.mem_cons_of_mem _ (List.mem_cons_of_mem _ h)

/-- The port that a packet leaves on is one of its route's. -/
theorem pickPort_mem {k : PKind} {vl m : Nat} {l : List Nat} (h : s.pickPort k vl l = some m) : m ∈ l := by
  cases l with
  | nil => cases h
  | cons n ns =>
    unfold State.pickPort at h
    dsimp only at h
    split at h
    · cases h
      have := foldl_pick_mem (fun b m => decide ((s.port b).credits vl < (s.port m).credits vl)) ns n
      simpa using this
    · cases h
      exact List.mem_cons_self

/-- The unit of a node's route is the one of every port of it. -/
theorem unitOf_port {m : Nat} (h : m ∈ s.routePorts node cls) : s.unitOf unit node cls = m / 4 := by
  have hdie := routePorts_die m h
  unfold State.unitOf
  cases hr : s.routePorts node cls with
  | nil => rw [hr] at h; cases h
  | cons n ns => exact (hdie n (by rw [hr]; exact List.mem_cons_self)).symm

theorem unitOf_lt (h : unit < 2) : s.unitOf unit node cls < 2 := by
  unfold State.unitOf
  split
  · next n ns hr =>
    have := routePorts_lt n (by rw [hr]; exact List.mem_cons_self)
    omega
  · dsimp only
    split
    · next n hf =>
      have := List.mem_range.mp (List.mem_of_find?_eq_some hf)
      omega
    · exact h

theorem State.Looks.unitOf (h : s.Looks t) : t.unitOf unit node cls = s.unitOf unit node cls := by
  have hm : ∀ m, t.useMask node m = s.useMask node m := fun m => by
    unfold State.useMask State.flag
    rw [h.get (f := Reg.GLB_ROLE_TWIN) (not_look (by decide) (by decide) (by decide)), h.get (f := Reg.TWN_CFG_PARTNER) (not_look_high (by decide))]
  unfold State.unitOf
  rw [h.routePorts, h.get (f := Reg.HGP0_RTk_PRI_c node cls) (not_look_high (by simp only [Reg.HGP0_RTk_PRI_c]; omega)),
    h.get (f := Reg.HGP0_RTk_ALT_c node cls) (not_look_high (by simp only [Reg.HGP0_RTk_ALT_c]; omega)), hm, hm]

theorem servingUnit_lt (h : unit < 2) : (s.servingUnit unit ws).1 < 2 := unitOf_lt h

/-- The node of a job's route is read without a trace but those of a read. -/
theorem looks_servingUnit : s.Looks (s.servingUnit unit ws).2 := by
  have hg : ∀ k i, s.Looks (s.groupNode k i).2 := fun _ _ => looks_read s _ 1
  unfold State.servingUnit State.jobNode
  dsimp only
  split
  · exact hg _ _
  split
  · exact hg _ _
  · exact .refl s

/-- A job of a PUT or GET takes the route of its peer. -/
theorem servingUnit_peer (h3 : recBits ws 0 3 0 ≠ 3) (h4 : recBits ws 0 3 0 ≠ 4) :
    s.servingUnit unit ws = (s.unitOf unit (recBits ws 0 23 16) (recBits ws 0 7 6), s) := by
  unfold State.servingUnit State.jobNode
  rw [if_neg h3, if_neg h4]

theorem withJobs_servingUnit (x : Nat) (js : List CuJob) :
    (s.withJobs x js).servingUnit unit ws = ((s.servingUnit unit ws).1, (s.servingUnit unit ws).2.withJobs x js) := by
  have hg : ∀ k i, (s.withJobs x js).groupNode k i = ((s.groupNode k i).1, (s.groupNode k i).2.withJobs x js) := fun k i => by
    unfold State.groupNode
    rw [withJobs_get, withJobs_read]
  have hu : ∀ t : State, (t.withJobs x js).unitOf unit = t.unitOf unit := fun _ => rfl
  unfold State.servingUnit State.jobNode
  dsimp only
  rw [hg, hg]
  split
  · rfl
  split
  · rfl
  · rfl

end

/-! ## A job set up (R343) -/

section
variable {s t u : State} {unit op : Nat} {src : JobSrc} {ws : List Nat} {ra : Option Nat} {token : Nat} {l : List CuJob} {j : CuJob}
  {room : State → List Nat → Bool} {f : State → Nat → Nat → List Nat → State}

/-- The state in which a job that the checks let through is set up, on the unit that serves it. -/
def State.cuBegun (s u : State) (unit : Nat) (ra : Option Nat) (token : Nat) (ws : List Nat) : State :=
  (u.servingUnit unit ws).2.withJobs (s.xferSeq + 1) (s.cuJobs ++ [cuJobOf s.xferSeq (u.servingUnit unit ws).1 ra token ws])

/-- A job that the checks let through runs on the unit that serves it, and has then been set up. -/
theorem runCuJob_runs (hu : unit < 2) (h : s.CuHead unit src ws ra token u) (hfresh : ∀ x ∈ s.cuJobs, x.id ≠ s.xferSeq)
    (hop : recBits ws 0 3 0 = op) (hok : cuRecOk ws = true) (hroom : ∀ t : State, t.tx = s.tx → room t ws = true) :
    s.runCuJob unit op src room f = (f (s.cuBegun u unit ra token ws) (u.servingUnit unit ws).1 s.xferSeq ws).cuStarted s.xferSeq := by
  obtain ⟨-, s', hfetch, htx, hbegin⟩ := cuFetch_head hu h
  have hmod : ∀ (v : State) (n : Nat), (v.withJobs (s.xferSeq + 1) (s.cuJobs ++ [cuJobOf s.xferSeq unit ra token ws])).modCuJob s.xferSeq
      (fun j => { j with unit := n }) = v.withJobs (s.xferSeq + 1) (s.cuJobs ++ [cuJobOf s.xferSeq n ra token ws]) := fun v n =>
    congrArg (v.withJobs (s.xferSeq + 1)) (mod_appended hfresh rfl _)
  unfold State.runCuJob
  rw [hfetch]
  dsimp only
  rw [hbegin, hok, hroom s' htx, hop, withJobs_servingUnit, hmod]
  simp [State.cuBegun]

/-- A job that a check refuses ends with BAD_JOB, on the unit that fetched it. -/
theorem runCuJob_refused (hu : unit < 2) (h : s.CuHead unit src ws ra token u) (hrun : s.get Reg.PCR_PSTATE_STATE = 0)
    (hfresh : ∀ x ∈ s.cuJobs, x.id ≠ s.xferSeq)
    (hop : (recBits ws 0 3 0 == op || (op == 1 && (recBits ws 0 3 0 == 0 || 5 < recBits ws 0 3 0))) = true) (hbad : cuRecOk ws = false) :
    u.CuEnds (s.runCuJob unit op src room f) unit ra token (recBits ws 6 11 0) 2 := by
  obtain ⟨hl, s', hfetch, htx, hbegin⟩ := cuFetch_head hu h
  have heq : s.runCuJob unit op src room f =
      (u.withJobs (s.xferSeq + 1) (s.cuJobs ++ [cuJobOf s.xferSeq unit ra token ws])).refuseCuJob s.xferSeq 2 := by
    unfold State.runCuJob
    rw [hfetch]
    dsimp only
    rw [hbegin, hbad, hop]
    rfl
  rw [heq]
  exact refused_ends ((hl.get (not_look_high (by decide))).trans hrun) hu (by rw [hl.2]) hfresh

/-- A job with a transfer in flight or waiting goes on. -/
theorem cuStarted_busy (hj : t.cuJobs = l ++ [j]) (hl : ∀ x ∈ l, x.id ≠ j.id) (hbusy : t.cuBusy j.id = true) :
    t.cuStarted j.id = { t with cuJobs := l ++ [{ j with starting := false }] } := by
  have hmod : t.modCuJob j.id (fun j => { j with starting := false }) = { t with cuJobs := l ++ [{ j with starting := false }] } := by
    unfold State.modCuJob
    rw [hj, mod_appended hl rfl]
  unfold State.cuStarted State.checkCuJob
  rw [hmod]
  exact if_pos hbusy

/-- A job with nothing left to do ends. -/
theorem cuStarted_ends (hj : t.cuJobs = l ++ [j]) (hl : ∀ x ∈ l, x.id ≠ j.id) (hidle : t.cuBusy j.id = false) :
    t.cuStarted j.id = State.endCuJob { t with cuJobs := l ++ [{ j with starting := false }] } { j with starting := false } j.status := by
  have hmod : t.modCuJob j.id (fun j => { j with starting := false }) = { t with cuJobs := l ++ [{ j with starting := false }] } := by
    unfold State.modCuJob
    rw [hj, mod_appended hl rfl]
  have hbusy : State.cuBusy { t with cuJobs := l ++ [{ j with starting := false }] } j.id = false := hidle
  unfold State.cuStarted State.checkCuJob
  rw [hmod, hbusy, if_neg Bool.false_ne_true, show (State.cuJobs { t with cuJobs := l ++ [{ j with starting := false }] }).find?
    (fun x => x.id == j.id) = some { j with starting := false } from find_appended hl rfl]
  rfl

end

end Sys2Proof.Machine
end

section
/-! Transfers of collective jobs (R322, R342, R343): one that starts, or waits; and the jobs of a PUT and a GET. -/

namespace Sys2Proof.Machine

open Sys2Proof

/-- A transfer is recorded under the next number (R327). -/
def State.withXfer (s : State) (e : TxXfer) : State := { s with xferSeq := s.xferSeq + 1, tx := s.tx ++ [e] }

section
variable {s d c w : State} {unit x m : Nat} {js : List CuJob} {j : CuJob} {tw : TxWait} {p : Packet} {e : TxXfer}

/-- Reads in a state that differs from one looked at in numbers and jobs alone. -/
theorem looks_through (h : s.Looks w) (k : (w.withJobs x js).Looks c) : ∃ d, s.Looks d ∧ c = d.withJobs x js := by
  refine ⟨c.withJobs w.xferSeq w.cuJobs, h.trans ⟨k.1, ?_⟩, ?_⟩
  · conv_lhs => rw [k.2]
    rfl
  · conv_lhs => rw [k.2]
    conv_rhs => rw [k.2]
    rfl

theorem startTransfer_goes (hm : c.mayTransfer tw.pkt.dst 1 = true) (hw : ∀ y ∈ c.txWait, y.pkt.dst ≠ tw.pkt.dst) :
    c.startTransfer tw = c.goTransfer tw := by
  unfold State.startTransfer
  rw [if_pos]
  rw [hm]
  simpa using hw

theorem startTransfer_waits (hw : ∃ y ∈ c.txWait, y.pkt.dst = tw.pkt.dst) : c.startTransfer tw = { c with txWait := c.txWait ++ [tw] } := by
  unfold State.startTransfer
  rw [if_neg]
  simpa using fun _ => hw

/-- A job whose transfer has been recorded, and its packets sent, goes on with it in flight. -/
theorem sent_started {b : State} (hb : (c.withXfer e).Sends b) (hc : c.cuJobs = js ++ [j]) (hl : ∀ x ∈ js, x.id ≠ j.id) (he : e.job = j.id) :
    (b.cuStarted j.id).cuJobs = js ++ [{ j with starting := false }] ∧ (b.cuStarted j.id).mem = c.mem ∧ (b.cuStarted j.id).chambers = c.chambers ∧
    (b.cuStarted j.id).tx = c.tx ++ [e] ∧ (b.cuStarted j.id).txWait = c.txWait ∧ (b.cuStarted j.id).dispatchQ = c.dispatchQ ∧
    (b.cuStarted j.id).port = b.port := by
  have hbusy : b.cuBusy j.id = true := by
    have htx : b.tx = c.tx ++ [e] := by rw [hb.2]; rfl
    unfold State.cuBusy
    simp [htx, he]
  rw [cuStarted_busy (l := js) (by rw [hb.2]; exact hc) hl hbusy]
  refine ⟨rfl, ?_, ?_, ?_, ?_, ?_, rfl⟩ <;> rw [hb.2] <;> rfl

/-- A job's one packet starts its transfer to another node, by the node's route (R334, R335, R343). -/
theorem transfer_starts (hd : s.Looks d) (hl : ∀ x ∈ s.cuJobs, x.id ≠ j.id) (hm : s.mayTransfer tw.pkt.dst 1 = true)
    (hw : ∀ y ∈ s.txWait, y.pkt.dst ≠ tw.pkt.dst) (hloc : s.isLocalNode p.dst = false) (hk : (p.kind == .post) = false)
    (hpick : s.pickPort p.kind p.vl (s.routePorts p.dst p.vl) = some m) (he : e.job = j.id)
    (hgo : (d.withJobs x (s.cuJobs ++ [j])).goTransfer tw = ((d.withJobs x (s.cuJobs ++ [j])).withXfer e).send unit p) :
    let t := ((d.withJobs x (s.cuJobs ++ [j])).startTransfer tw).cuStarted j.id
    t.cuJobs = s.cuJobs ++ [{ j with starting := false }] ∧ t.mem = s.mem ∧ t.chambers = s.chambers ∧ t.tx = s.tx ++ [e] ∧ t.txWait = s.txWait ∧
    (t.port m).Holds p := by
  have hsame : d.mem = s.mem ∧ d.chambers = s.chambers ∧ d.tx = s.tx ∧ d.txWait = s.txWait := by rw [hd.2]; exact ⟨rfl, rfl, rfl, rfl⟩
  obtain ⟨hmem, hch, htx, htw⟩ := hsame
  have hgoes : (d.withJobs x (s.cuJobs ++ [j])).startTransfer tw = ((d.withJobs x (s.cuJobs ++ [j])).withXfer e).send unit p :=
    (startTransfer_goes (c := d.withJobs x (s.cuJobs ++ [j])) ((hd.mayTransfer _ _).trans hm) (by rw [← htw] at hw; exact hw)).trans hgo
  obtain ⟨hsends, hholds⟩ := send_away (s := (d.withJobs x (s.cuJobs ++ [j])).withXfer e) unit (k := p) (m := m)
    ((hd.isLocalNode _).trans hloc) hk (by
      rw [← hd.routePorts, ← hd.pickPort] at hpick
      exact hpick)
  obtain ⟨h1, h2, h3, h4, h5, -, h7⟩ := sent_started (c := d.withJobs x (s.cuJobs ++ [j])) hsends rfl hl he
  rw [hgoes]
  refine ⟨h1, h2.trans hmem, h3.trans hch, ?_, h5.trans htw, ?_⟩
  · rw [← htx]; exact h4
  · rw [h7]; exact hholds

end

/-! ## The packets of a transfer of up to 16 granules (R322) -/

theorem poisonBits_clean {α : Type} (f : α → List Byte) (l : List α) : poisonBits (l.map fun i => (f i, false)) = 0 := by
  induction l with
  | nil => rfl
  | cons x l ih =>
    rw [List.map_cons, poisonBits, ih]
    rfl

theorem chunks16_one {α : Type} {l : List α} (h : l ≠ []) (h16 : l.length ≤ 16) (n : Nat) : chunks16 (n + 1) l = [l] := by
  have hd : l.drop 16 = [] := List.drop_eq_nil_of_le h16
  have hnil : chunks16 n ([] : List α) = [] := by
    cases n with
    | zero => rfl
    | succ n => rfl
  unfold chunks16
  rw [if_neg (by simpa using h), List.take_of_length_le h16, hd, hnil]

/-- A transfer of up to 16 granules is one packet. -/
theorem packetsOf_one {k : Packet} {gs : List (List Byte × Bool)} (h : gs ≠ []) (h16 : gs.length ≤ 16) :
    packetsOf k gs = [{ k with pkt := 0, npkt := 1, ngran := gs.length, data := gs.map (·.1), poison := poisonBits gs }] := by
  unfold packetsOf
  rw [chunks16_one h h16]
  dsimp only [List.zipIdx_cons, List.zipIdx_nil, List.length_singleton]
  rw [List.map_singleton]
  dsimp only
  rw [Nat.mul_zero, Nat.add_zero, ite_self]

/-- A read of up to 16 granules is one packet. -/
theorem readPackets_one {k : Packet} {n : Nat} (h : 1 ≤ n) (h16 : n ≤ 16) :
    readPackets k n = [{ k with pkt := 0, npkt := 1, ngran := n }] := by
  have hc : cdiv n 16 = 1 := by unfold cdiv; omega
  unfold readPackets
  rw [hc, List.range_one, List.map_singleton, Nat.mul_zero, Nat.sub_zero, Nat.add_zero, Nat.min_eq_right h16]

section
variable {c : State} {unit job : Nat} {k : Packet}

theorem goTransfer_write {gs : List (List Byte × Bool)} (h : gs ≠ []) (h16 : gs.length ≤ 16) :
    c.goTransfer ⟨unit, job, k, gs, none⟩ = (c.withXfer ⟨c.xferSeq % 2 ^ 24, job, k.dst, false, 0, k.addr, 0, 0, []⟩).send unit
      { k with xfer := c.xferSeq % 2 ^ 24, src := c.get Reg.HGP0_NODE_NODE, pkt := 0, npkt := 1, ngran := gs.length, data := gs.map (·.1)
               poison := poisonBits gs } := by
  have hp := packetsOf_one (k := { k with xfer := c.xferSeq % 2 ^ 24, src := c.get Reg.HGP0_NODE_NODE }) h h16
  exact congrArg (State.sendAll (c.withXfer ⟨c.xferSeq % 2 ^ 24, job, k.dst, false, 0, k.addr, 0, 0, []⟩) unit) hp

theorem goTransfer_read {dst n : Nat} (h : 1 ≤ n) (h16 : n ≤ 16) :
    c.goTransfer ⟨unit, job, k, [], some (dst, n)⟩ = (c.withXfer ⟨c.xferSeq % 2 ^ 24, job, k.dst, true, k.addr, dst, 1, 0, []⟩).send unit
      { k with xfer := c.xferSeq % 2 ^ 24, src := c.get Reg.HGP0_NODE_NODE, pkt := 0, npkt := 1, ngran := n } := by
  have hc : cdiv n 16 = 1 := by unfold cdiv; omega
  have hp := readPackets_one (k := { k with xfer := c.xferSeq % 2 ^ 24, src := c.get Reg.HGP0_NODE_NODE }) h h16
  unfold State.goTransfer State.newXfer
  dsimp only
  rw [hc]
  exact congrArg (State.sendAll (c.withXfer ⟨c.xferSeq % 2 ^ 24, job, k.dst, true, k.addr, dst, 1, 0, []⟩) unit) hp

end

/-! ## PUT and GET (R342) -/

/-- A record's header of the packets of a PUT. -/
def putHeader (ws : List Nat) : Packet := { Packet.blank .write with
  vl := recBits ws 0 7 6, recipe := recBits ws 0 5 4, dst := recBits ws 0 23 16, addr := recBits ws 2 47 0
  psig := recBits ws 6 23 12, pen := recBits ws 6 24 24 == 1, dtype := recBits ws 0 15 12, rowlen := recBits ws 4 15 0 }

/-- The header of the requests of a GET. -/
def getHeader (ws : List Nat) : Packet := { Packet.blank .readReq with vl := recBits ws 0 7 6, dst := recBits ws 0 23 16, addr := recBits ws 1 47 0 }

section
variable {s u : State} {unit : Fin 2} {src : JobSrc} {ws : List Nat} {ra : Option Nat} {token : Nat}

/-- What a job has come to that has started its one transfer, on the unit of its route: the job and the transfer recorded, and its packet on a
port of the route. -/
def State.Starts (s u t : State) (unit : Nat) (ws : List Nat) (ra : Option Nat) (token : Nat) (e : TxXfer) (p : Packet) : Prop :=
  t.cuJobs = s.cuJobs ++ [{ cuJobOf s.xferSeq (u.servingUnit unit ws).1 ra token ws with starting := false }] ∧ t.mem = s.mem ∧
  t.chambers = s.chambers ∧ t.tx = s.tx ++ [e] ∧ t.txWait = s.txWait ∧
  ∃ m, s.pickPort p.kind (recBits ws 0 7 6) (s.routePorts (recBits ws 0 23 16) (recBits ws 0 7 6)) = some m ∧
    (u.servingUnit unit ws).1 = m / 4 ∧ (t.port m).Holds p

/-- The port of a job's packet, which lies on the die of the unit that serves the job. -/
theorem serving_port (hl : s.Looks u) (hr : s.routePorts (recBits ws 0 23 16) (recBits ws 0 7 6) ≠ []) (h3 : recBits ws 0 3 0 ≠ 3)
    (h4 : recBits ws 0 3 0 ≠ 4) (k : PKind) : ∃ m, s.pickPort k (recBits ws 0 7 6) (s.routePorts (recBits ws 0 23 16) (recBits ws 0 7 6)) = some m ∧
      (u.servingUnit unit ws).1 = m / 4 := by
  obtain ⟨m, hm⟩ := pickPort_some hr k (recBits ws 0 7 6)
  refine ⟨m, hm, ?_⟩
  rw [servingUnit_peer h3 h4]
  exact hl.unitOf.trans (unitOf_port (pickPort_mem hm))

variable (h : s.CuHead unit src ws ra token u) (hfresh : ∀ x ∈ s.cuJobs, x.id ≠ s.xferSeq) (hok : cuRecOk ws = true)
  (h1 : 1 ≤ recBits ws 3 47 0 / 256) (h16 : recBits ws 3 47 0 / 256 ≤ 16) (hmay : s.mayTransfer (recBits ws 0 23 16) 1 = true)
  (hloc : s.isLocalNode (recBits ws 0 23 16) = false) (hwait : ∀ y ∈ s.txWait, y.pkt.dst ≠ recBits ws 0 23 16)
  (hr : s.routePorts (recBits ws 0 23 16) (recBits ws 0 7 6) ≠ [])
include h hfresh hok h1 h16 hmay hloc hwait hr

/-- A PUT of up to 16 granules that may be read sends them in one packet. -/
theorem put_starts (hop : recBits ws 0 3 0 = 1) (hrec : recBits ws 0 5 4 = 0) (hty : recBits ws 0 11 8 = recBits ws 0 15 12)
    (hread : ∀ i < recBits ws 3 47 0 / 256, s.Readable (recBits ws 1 47 0 + 256 * i)) : Does (.put unit src) s fun t =>
      s.Starts u t unit ws ra token ⟨(s.xferSeq + 1) % 2 ^ 24, s.xferSeq, recBits ws 0 23 16, false, 0, recBits ws 2 47 0, 0, 0, []⟩
        { putHeader ws with xfer := (s.xferSeq + 1) % 2 ^ 24, src := s.get Reg.HGP0_NODE_NODE, pkt := 0, npkt := 1, ngran := recBits ws 3 47 0 / 256
                            data := (List.range (recBits ws 3 47 0 / 256)).map fun i => memRead s.mem (recBits ws 1 47 0 + 256 * i) 256 } := by
  obtain ⟨hl, -⟩ := cuFetch_head unit.isLt h
  have hroom : ∀ t : State, t.tx = s.tx → t.roomForNode ws = true := fun t ht => by
    unfold State.roomForNode State.mayTransfer; rw [ht]; exact hmay
  refine ⟨_, congrArg Host.Outcome.next (runCuJob_runs unit.isLt h hfresh hop hok hroom), ?_⟩
  have hw : s.Looks (u.servingUnit unit ws).2 := hl.trans looks_servingUnit
  obtain ⟨c, hc, hlc⟩ := readGrans_bytes _ (s := s.cuBegun u unit ra token ws) (a := recBits ws 1 47 0) fun i hi => hw.readable (hread i hi)
  obtain ⟨d, hd, rfl⟩ := looks_through hw hlc
  obtain ⟨m, hm, hserves⟩ := serving_port (unit := unit) hl hr (by rw [hop]; decide) (by rw [hop]; decide) .write
  have hmem : (s.cuBegun u unit ra token ws).mem = s.mem := by
    rw [show (s.cuBegun u unit ra token ws).mem = (u.servingUnit unit ws).2.mem from rfl, hw.2]
  rw [hmem] at hc
  generalize hgs : ((List.range (recBits ws 3 47 0 / 256)).map fun i => (memRead s.mem (recBits ws 1 47 0 + 256 * i) 256, false)) = gs at hc
  have hlen : gs.length = recBits ws 3 47 0 / 256 := by rw [← hgs, List.length_map, List.length_range]
  have hne : gs ≠ [] := fun hnil => by rw [hnil] at hlen; rw [← hlen] at h1; exact absurd h1 (by decide)
  have hput : (s.cuBegun u unit ra token ws).putGrans ws = (gs, d.withJobs (s.xferSeq + 1)
      (s.cuJobs ++ [cuJobOf s.xferSeq (u.servingUnit unit ws).1 ra token ws])) := by
    unfold State.putGrans
    dsimp only
    rw [if_pos ⟨hrec, hty⟩, hc]
  have hclean : gs.any (·.2) = false := by rw [← hgs]; simp
  have hgo := goTransfer_write (c := d.withJobs (s.xferSeq + 1) (s.cuJobs ++ [cuJobOf s.xferSeq (u.servingUnit unit ws).1 ra token ws]))
    (unit := (u.servingUnit unit ws).1) (job := s.xferSeq) (k := putHeader ws) hne (by omega)
  have ht := transfer_starts (tw := ⟨(u.servingUnit unit ws).1, s.xferSeq, putHeader ws, gs, none⟩) (m := m) hd hfresh hmay hwait hloc
    (p := { putHeader ws with xfer := (s.xferSeq + 1) % 2 ^ 24, src := d.get Reg.HGP0_NODE_NODE, pkt := 0, npkt := 1, ngran := gs.length
                              data := gs.map (·.1), poison := poisonBits gs })
    (e := ⟨(s.xferSeq + 1) % 2 ^ 24, s.xferSeq, recBits ws 0 23 16, false, 0, recBits ws 2 47 0, 0, 0, []⟩) rfl hm rfl hgo
  have hdata : gs.map (·.1) = (List.range (recBits ws 3 47 0 / 256)).map fun i => memRead s.mem (recBits ws 1 47 0 + 256 * i) 256 := by
    rw [← hgs, List.map_map]
    rfl
  have hpois : poisonBits gs = 0 := by rw [← hgs]; exact poisonBits_clean _ _
  have hsrc : d.get Reg.HGP0_NODE_NODE = s.get Reg.HGP0_NODE_NODE := hd.get (not_look_high (by decide))
  rw [hdata, hpois, hsrc, hlen] at ht
  rw [hput]
  dsimp only
  rw [hclean]
  unfold State.startWrite
  rw [if_neg (by simpa using hne)]
  obtain ⟨hjobs, hm1, hm2, hm3, hm4, hholds⟩ := ht
  exact ⟨hjobs, hm1, hm2, hm3, hm4, m, hm, hserves, hholds⟩

/-- A GET of up to 16 granules asks for them in one packet. -/
theorem get_starts (hop : recBits ws 0 3 0 = 2) : Does (.get unit src) s fun t =>
      s.Starts u t unit ws ra token ⟨(s.xferSeq + 1) % 2 ^ 24, s.xferSeq, recBits ws 0 23 16, true, recBits ws 1 47 0, recBits ws 2 47 0, 1, 0, []⟩
        { getHeader ws with xfer := (s.xferSeq + 1) % 2 ^ 24, src := s.get Reg.HGP0_NODE_NODE, pkt := 0, npkt := 1
                            ngran := recBits ws 3 47 0 / 256 } := by
  obtain ⟨hl, -⟩ := cuFetch_head unit.isLt h
  have hroom : ∀ t : State, t.tx = s.tx → t.roomForNode ws = true := fun t ht => by
    unfold State.roomForNode State.mayTransfer; rw [ht]; exact hmay
  refine ⟨_, congrArg Host.Outcome.next (runCuJob_runs unit.isLt h hfresh hop hok hroom), ?_⟩
  have hd : s.Looks (u.servingUnit unit ws).2 := hl.trans looks_servingUnit
  obtain ⟨m, hm, hserves⟩ := serving_port (unit := unit) hl hr (by rw [hop]; decide) (by rw [hop]; decide) .readReq
  have hgo := goTransfer_read (c := s.cuBegun u unit ra token ws) (unit := (u.servingUnit unit ws).1) (job := s.xferSeq) (k := getHeader ws)
    (dst := recBits ws 2 47 0) h1 h16
  have ht := transfer_starts (tw := ⟨(u.servingUnit unit ws).1, s.xferSeq, getHeader ws, [], some (recBits ws 2 47 0, recBits ws 3 47 0 / 256)⟩)
    (m := m) hd hfresh hmay hwait hloc
    (p := { getHeader ws with xfer := (s.xferSeq + 1) % 2 ^ 24, src := (u.servingUnit unit ws).2.get Reg.HGP0_NODE_NODE, pkt := 0, npkt := 1
                              ngran := recBits ws 3 47 0 / 256 })
    (e := ⟨(s.xferSeq + 1) % 2 ^ 24, s.xferSeq, recBits ws 0 23 16, true, recBits ws 1 47 0, recBits ws 2 47 0, 1, 0, []⟩) rfl hm rfl hgo
  rw [hd.get (f := Reg.HGP0_NODE_NODE) (not_look_high (by decide))] at ht
  unfold State.startRead
  rw [if_neg (by omega)]
  obtain ⟨hjobs, hm1, hm2, hm3, hm4, hholds⟩ := ht
  exact ⟨hjobs, hm1, hm2, hm3, hm4, m, hm, hserves, hholds⟩

end

end Sys2Proof.Machine
end

section
/-! The waves handed over by Siphon (R173): a DISPATCH starts a transfer to the wave's node, or waits behind those that the limits hold back. -/

namespace Sys2Proof.Machine

open Sys2Proof

/-- Rows have granules on the wire under recipes 1 and 2: each group's scales come first (R347). -/
theorem wireOfRows_ne_nil {recipe dtype : Nat} {rows : List (List Lane × Bool)} (hr : recipe ≠ 0) (h : rows ≠ []) : wireOfRows recipe dtype rows ≠ [] := by
  have hw : ∀ (n : Nat) (l : List (Lane × List Nat)), l ≠ [] → wireRows (n + 1) l ≠ [] := fun n l hl => by
    unfold wireRows
    rw [if_neg hl]
    unfold wireGroup
    simp
  unfold wireOfRows
  rw [if_neg hr]
  dsimp only
  intro hnil
  rw [List.map_eq_nil_iff, List.zipIdx_eq_nil_iff] at hnil
  exact hw _ _ (by simpa using h) hnil

theorem looks_readRows (stype len : Nat) (l : List Nat) : ∀ s : State, s.Looks (s.readRows stype len l).2 := by
  induction l with
  | nil => exact fun s => .refl s
  | cons a l ih => exact fun s => (looks_read s a (len * floatBytes stype)).trans (ih _)

theorem readRows_length (stype len : Nat) (l : List Nat) : ∀ s : State, (s.readRows stype len l).1.length = l.length := by
  induction l with
  | nil => exact fun _ => rfl
  | cons a l ih => exact fun s => congrArg Nat.succ (ih _)

/-- Every packet of a transfer has the header's kind, lane and destination. -/
theorem packetsOf_header {k : Packet} {gs : List (List Byte × Bool)} : ∀ p ∈ packetsOf k gs, p.dst = k.dst ∧ p.vl = k.vl ∧ p.kind = k.kind := by
  intro p hp
  obtain ⟨x, -, rfl⟩ := List.mem_map.mp hp
  exact ⟨rfl, rfl, rfl⟩

section
variable {s : State} {unit : Fin 2} {d : DispatchReq} {ds : List DispatchReq}

/-- The job of a wave, as it begins. -/
def waveJob (s : State) (unit : Nat) (d : DispatchReq) : CuJob := ⟨s.xferSeq, s.unitOf unit d.node 1, none, none, 0, false, false, true⟩

/-- The header of a wave's packets (R342). -/
def waveHeader (d : DispatchReq) : Packet := { Packet.blank .write with
  vl := 1, recipe := 2, dst := d.node, addr := d.rx, psig := d.sig, pen := true, dtype := d.dtype, rowlen := d.rowLen - 1 }

/-- A wave that may start a transfer takes up its job, with its rows read, and hands its transfer over. -/
theorem dispatch_runs (hq : s.dispatchQ = d :: ds) (hfresh : ∀ x ∈ s.cuJobs, x.id ≠ s.xferSeq) (hmay : s.mayTransfer d.node 1 = true)
    (hrows : d.rows ≠ []) : ∃ (w : State) (j : CuJob) (gs : List (List Byte × Bool)), State.Looks { s with dispatchQ := ds } w ∧ gs ≠ [] ∧
      j.id = s.xferSeq ∧ j.unit = s.unitOf unit d.node 1 ∧ j.recAddr = none ∧ j.doneSig = none ∧
      exec (.dispatch unit .queue) s = .next (((w.withJobs (s.xferSeq + 1) (s.cuJobs ++ [j])).startTransfer
        ⟨s.unitOf unit d.node 1, s.xferSeq, waveHeader d, gs, none⟩).cuStarted s.xferSeq) := by
  have hl := looks_readRows d.stype d.rowLen d.rows (State.withJobs { s with dispatchQ := ds } (s.xferSeq + 1) (s.cuJobs ++ [waveJob s unit d]))
  have hlen := readRows_length d.stype d.rowLen d.rows (State.withJobs { s with dispatchQ := ds } (s.xferSeq + 1) (s.cuJobs ++ [waveJob s unit d]))
  generalize hread : State.readRows (State.withJobs { s with dispatchQ := ds } (s.xferSeq + 1) (s.cuJobs ++ [waveJob s unit d]))
    d.stype d.rowLen d.rows = r at hl hlen
  obtain ⟨rows, c⟩ := r
  obtain ⟨w, hw, rfl⟩ := looks_through (.refl { s with dispatchQ := ds }) hl
  have hne : wireOfRows 2 d.dtype rows ≠ [] := wireOfRows_ne_nil (by decide) fun h => hrows (List.length_eq_zero_iff.mp (hlen.symm.trans (by rw [h]; rfl)))
  have hmark : ∀ b : Bool, ∃ p : Bool, (w.withJobs (s.xferSeq + 1) (s.cuJobs ++ [waveJob s unit d])).markPoison s.xferSeq b =
      w.withJobs (s.xferSeq + 1) (s.cuJobs ++ [{ waveJob s unit d with poison := p }]) := by
    intro b
    cases b with
    | false => exact ⟨false, rfl⟩
    | true => exact ⟨true, congrArg (w.withJobs (s.xferSeq + 1)) (mod_appended hfresh rfl _)⟩
  obtain ⟨p, hp⟩ := hmark (rows.any (·.2))
  refine ⟨w, { waveJob s unit d with poison := p }, wireOfRows 2 d.dtype rows, hw, hne, rfl, rfl, rfl, rfl, ?_⟩
  have hbegin : State.beginCuJob { s with dispatchQ := ds } (s.unitOf unit d.node 1) none 0 [] =
      (s.xferSeq, State.withJobs { s with dispatchQ := ds } (s.xferSeq + 1) (s.cuJobs ++ [waveJob s unit d])) := rfl
  have hempty : ¬(wireOfRows 2 d.dtype rows).isEmpty = true := by simpa using hne
  refine congrArg Host.Outcome.next ?_
  dsimp only
  rw [hq]
  dsimp only
  rw [hmay, if_neg (by decide), hbegin]
  dsimp only
  rw [hread]
  dsimp only
  rw [hp, if_neg hempty]
  unfold State.startWrite
  rw [if_neg hempty]
  rfl

/-- The wave's job waits behind those of its node (R343). -/
theorem dispatch_waits (hq : s.dispatchQ = d :: ds) (hfresh : ∀ x ∈ s.cuJobs, x.id ≠ s.xferSeq) (hmay : s.mayTransfer d.node 1 = true)
    (hrows : d.rows ≠ []) (hw : ∃ y ∈ s.txWait, y.pkt.dst = d.node) : Does (.dispatch unit .queue) s fun t =>
      (t.dispatchQ = ds ∧ t.mem = s.mem ∧ t.chambers = s.chambers ∧
        ∃ j : CuJob, t.cuJobs = s.cuJobs ++ [j] ∧ j.id = s.xferSeq ∧ j.unit = s.unitOf unit d.node 1 ∧ j.recAddr = none ∧ j.doneSig = none) ∧
      t.tx = s.tx ∧ ∃ w : TxWait, t.txWait = s.txWait ++ [w] ∧ w.job = s.xferSeq ∧ w.pkt.dst = d.node ∧ w.pkt.addr = d.rx ∧ w.into = none := by
  obtain ⟨w, j, gs, hl, hne, hid, hu, hra, hsg, hexec⟩ := dispatch_runs (unit := unit) hq hfresh hmay hrows
  have hsame : w.dispatchQ = ds ∧ w.mem = s.mem ∧ w.chambers = s.chambers ∧ w.tx = s.tx ∧ w.txWait = s.txWait := by
    rw [hl.2]; exact ⟨rfl, rfl, rfl, rfl, rfl⟩
  obtain ⟨hdq, hmem, hch, htx, htw⟩ := hsame
  rw [startTransfer_waits (c := w.withJobs (s.xferSeq + 1) (s.cuJobs ++ [j])) (by rw [← htw] at hw; exact hw), ← hid,
    cuStarted_busy (l := s.cuJobs) (j := j) rfl (by rw [hid]; exact hfresh) (by unfold State.cuBusy; simp [hid])] at hexec
  refine ⟨_, hexec, ⟨hdq, hmem, hch, _, rfl, hid, hu, hra, hsg⟩, htx, _, congrArg (· ++ [_]) htw, hid, rfl, rfl, rfl⟩

/-- The wave's transfer starts, with its packets on the ports of its node's route. -/
theorem dispatch_starts (hq : s.dispatchQ = d :: ds) (hfresh : ∀ x ∈ s.cuJobs, x.id ≠ s.xferSeq) (hmay : s.mayTransfer d.node 1 = true)
    (hrows : d.rows ≠ []) (hw : ∀ y ∈ s.txWait, y.pkt.dst ≠ d.node) (hloc : s.isLocalNode d.node = false) (hr : s.routePorts d.node 1 ≠ []) :
    Does (.dispatch unit .queue) s fun t =>
      (t.dispatchQ = ds ∧ t.mem = s.mem ∧ t.chambers = s.chambers ∧
        ∃ j : CuJob, t.cuJobs = s.cuJobs ++ [j] ∧ j.id = s.xferSeq ∧ j.unit = s.unitOf unit d.node 1 ∧ j.recAddr = none ∧ j.doneSig = none) ∧
      t.txWait = s.txWait ∧ t.tx = s.tx ++ [⟨(s.xferSeq + 1) % 2 ^ 24, s.xferSeq, d.node, false, 0, d.rx, 0, 0, []⟩] := by
  obtain ⟨w, j, gs, hl, hne, hid, hu, hra, hsg, hexec⟩ := dispatch_runs (unit := unit) hq hfresh hmay hrows
  have hsame : w.dispatchQ = ds ∧ w.mem = s.mem ∧ w.chambers = s.chambers ∧ w.tx = s.tx ∧ w.txWait = s.txWait := by
    rw [hl.2]; exact ⟨rfl, rfl, rfl, rfl, rfl⟩
  obtain ⟨hdq, hmem, hch, htx, htw⟩ := hsame
  have hgoes := startTransfer_goes (c := w.withJobs (s.xferSeq + 1) (s.cuJobs ++ [j]))
    (tw := ⟨s.unitOf unit d.node 1, s.xferSeq, waveHeader d, gs, none⟩) ((hl.mayTransfer _ _).trans hmay) (by rw [← htw] at hw; exact hw)
  have hsends : (State.withXfer (w.withJobs (s.xferSeq + 1) (s.cuJobs ++ [j]))
      ⟨(s.xferSeq + 1) % 2 ^ 24, s.xferSeq, d.node, false, 0, d.rx, 0, 0, []⟩).Sends
        ((w.withJobs (s.xferSeq + 1) (s.cuJobs ++ [j])).goTransfer ⟨s.unitOf unit d.node 1, s.xferSeq, waveHeader d, gs, none⟩) := by
    refine sendAll_away _ d.node 1 ⟨by decide, .inr rfl⟩ _ ((hl.isLocalNode _).trans hloc) (fun h => hr ((hl.routePorts _ _).symm.trans h)) fun k hk => ?_
    obtain ⟨h1, h2, h3⟩ := packetsOf_header k hk
    exact ⟨h1, h2, by rw [h3]; rfl⟩
  obtain ⟨h1, h2, h3, h4, h5, h6, -⟩ := sent_started (c := w.withJobs (s.xferSeq + 1) (s.cuJobs ++ [j])) (j := j) hsends rfl
    (by rw [hid]; exact hfresh) hid.symm
  rw [hid] at h1 h2 h3 h4 h5 h6
  rw [hgoes] at hexec
  refine ⟨_, hexec, ⟨h6.trans hdq, h2.trans hmem, h3.trans hch, _, h1, rfl, hu, hra, hsg⟩, h5.trans htw, ?_⟩
  rw [← htx]
  exact h4

end

end Sys2Proof.Machine
end

section
/-! A GATHER and a REDSCAT of one member (R342, R345): the part copied, or the row converted, to its destination, and the end at once. -/

namespace Sys2Proof.Machine

open Sys2Proof

/-! ## A unit's write of one granule -/

/-- What a unit's write of one granule, or of a part of one, comes to where nothing stands in its way. -/
def State.PutsHere (s t : State) (a : Nat) (bs : List Byte) : Prop := ∃ c, s.Looks c ∧ c.Writes t a bs

section
variable {s t c : State} {a : Nat} {bs : List Byte}

theorem State.PutsHere.stores (h : s.PutsHere t a bs) : s.Stores t a bs := by
  obtain ⟨c, hl, -, -, hst⟩ := h
  intro b
  rw [hst b, hl.2]

/-- Neither jobs, transfers nor held writes are of a write that goes through. -/
theorem State.PutsHere.same (h : s.PutsHere t a bs) : t.cuJobs = s.cuJobs ∧ t.tx = s.tx ∧ t.txWait = s.txWait ∧ t.redJobs = s.redJobs ∧
    t.heldEnds = s.heldEnds ∧ t.heldWrites = s.heldWrites := by
  obtain ⟨c, hl, hw, -⟩ := h
  rw [hw, hl.2]
  exact ⟨rfl, rfl, rfl, rfl, rfl, rfl⟩

theorem State.PutsHere.run (h : s.PutsHere t a bs) : t.get Reg.PCR_PSTATE_STATE = s.get Reg.PCR_PSTATE_STATE := by
  obtain ⟨c, hl, -, hk, -⟩ := h
  exact (hk _ (by decide)).trans (hl.get (not_look_high (by decide)))

theorem State.PutsHere.after (h : c.PutsHere t a bs) (hl : s.Looks c) : s.PutsHere t a bs := by
  obtain ⟨d, hd, hw⟩ := h
  exact ⟨d, hl.trans hd, hw⟩

/-- Up to a granule goes to the start of one at once. -/
theorem write_here (hw : s.Writable a) (hc : s.cachedLines (granuleOf a) = []) (hb : bs ≠ []) (ha : a % 256 = 0) (hlen : bs.length ≤ 256) :
    ∃ t, s.write 3 a bs = (false, t) ∧ s.PutsHere t a bs := by
  have htake : bs.take (256 - a % 256) = bs := List.take_of_length_le (by omega)
  have hdrop : bs.drop (256 - a % 256) = [] := List.drop_of_length_le (by omega)
  obtain ⟨t, ht, hwr⟩ := unitWrite_ok hw hc hb 3 (decide (a % 256 = 0) && decide (bs.length = 256))
  have hin : s.engineWriteIn 3 a bs = (.done, t) := by
    unfold State.engineWriteIn
    dsimp only
    rw [ht]
    rfl
  refine ⟨t, ?_, _, looks_enterBank s a, hwr⟩
  unfold State.write
  rw [show bs.length / 256 + 2 = bs.length / 256 + 1 + 1 from rfl]
  unfold State.writeFuel
  rw [if_neg hb]
  dsimp only
  rw [htake, hdrop, hin]
  rfl

/-- The same where a refusal would be logged. -/
theorem writeLogged_here (src : Nat) (hw : s.Writable a) (hc : s.cachedLines (granuleOf a) = []) (hb : bs ≠ []) (ha : a % 256 = 0)
    (hlen : bs.length ≤ 256) : s.PutsHere (s.writeLogged src a bs) a bs := by
  obtain ⟨t, ht, hp⟩ := write_here hw hc hb ha hlen
  unfold State.writeLogged
  rw [ht]
  exact hp

end

/-! ## The end at once -/

section
variable {s u b : State} {unit : Nat} {ra : Option Nat} {token : Nat} {ws : List Nat}

/-- With a job begun, what it has not touched is as it was. -/
theorem cuBegun_same (hl : s.Looks u) : (s.cuBegun u unit ra token ws).mem = s.mem ∧ (s.cuBegun u unit ra token ws).tx = s.tx ∧
    (s.cuBegun u unit ra token ws).txWait = s.txWait ∧ (s.cuBegun u unit ra token ws).redJobs = s.redJobs ∧
    (s.cuBegun u unit ra token ws).heldEnds = s.heldEnds ∧ (s.cuBegun u unit ra token ws).heldWrites = s.heldWrites ∧
    (s.cuBegun u unit ra token ws).get Reg.PCR_PSTATE_STATE = s.get Reg.PCR_PSTATE_STATE := by
  have h : s.Looks (u.servingUnit unit ws).2 := hl.trans looks_servingUnit
  have hp := h.get (f := Reg.PCR_PSTATE_STATE) (not_look_high (by decide))
  unfold State.cuBegun
  rw [h.2] at hp ⊢
  exact ⟨rfl, rfl, rfl, rfl, rfl, rfl, hp⟩

/-- A job all of whose work is done ends with OK, the rest of what it did as it is. -/
theorem done_ends (hf : s.FreshJob) (hu : unit < 2) (hrun : b.get Reg.PCR_PSTATE_STATE = 0)
    (hjobs : b.cuJobs = s.cuJobs ++ [cuJobOf s.xferSeq unit ra token ws]) (htx : b.tx = s.tx) (htw : b.txWait = s.txWait)
    (hred : b.redJobs = s.redJobs) (hends : b.heldEnds = s.heldEnds) :
    ∃ v : State, v.mem = b.mem ∧ v.CuEnds (b.cuStarted s.xferSeq) unit ra token (recBits ws 6 11 0) 1 := by
  obtain ⟨hj, ht, hw, he, hr⟩ := hf
  have hidle : b.cuBusy s.xferSeq = false := by
    unfold State.cuBusy State.ending
    rw [htx, htw, hred, hends]
    simpa using ⟨⟨⟨ht, hw⟩, hr⟩, he⟩
  have hstart := cuStarted_ends (j := cuJobOf s.xferSeq unit ra token ws) hjobs hj hidle
  refine ⟨State.dropJob { b with cuJobs := s.cuJobs ++ [{ cuJobOf s.xferSeq unit ra token ws with starting := false }] } s.xferSeq, rfl, ?_⟩
  rw [show b.cuStarted s.xferSeq = _ from hstart]
  exact endCuJob_ends (j := { cuJobOf s.xferSeq unit ra token ws with starting := false }) (status := 1) hrun one_le_two hu rfl (Nat.mod_lt _ (by decide))

end

/-! ## The record's parts -/

section
variable {ws : List Nat}

theorem recBits_aligned {w : Nat} (h : recBits ws w 7 0 = 0) : recBits ws w 47 0 % 256 = 0 := by
  unfold recBits bits at h ⊢
  omega

/-- What the checks say of the record of a job of one member. -/
theorem ok_alone (hok : cuRecOk ws = true) (hop : recBits ws 0 3 0 = 3 ∨ recBits ws 0 3 0 = 4) (hg : recBits ws 0 36 32 = 1) :
    recBits ws 0 44 40 = 0 ∧ recBits ws 1 47 0 % 256 = 0 ∧ recBits ws 2 47 0 % 256 = 0 ∧ recBits ws 0 11 8 ≤ 2 ∧
      recBits ws 0 15 12 ≤ 2 := by
  have hgrouped : (recBits ws 0 3 0 == 3 || recBits ws 0 3 0 == 4) = true := by simpa using hop
  unfold cuRecOk at hok
  simp only [hgrouped, hg, typeIsFloat, Bool.and_eq_true, Bool.not_true, Bool.false_or, decide_eq_true_eq, beq_iff_eq] at hok
  obtain ⟨⟨⟨⟨⟨⟨⟨⟨⟨⟨⟨-, -⟩, -⟩, hs⟩, hd⟩, h1⟩, h2⟩, -⟩, ⟨⟨-, hm⟩, -⟩⟩, -⟩, -⟩, -⟩ := hok
  exact ⟨by omega, recBits_aligned h1, recBits_aligned h2, hs, hd⟩

end

/-! ## GATHER (R342) -/

section
variable {s u b t : State} {unit : Fin 2} {src : JobSrc} {ra : Option Nat} {token id a c : Nat} {ws : List Nat} {bs : List Byte}

theorem ownWrites_none (h : t.heldWrites = []) (id lo : Nat) : t.ownWrites id lo = t := by
  unfold State.ownWrites State.heldSince
  rw [h]
  exact endWork_now rfl

/-- One granule copied (R342). -/
theorem copyGranules_one (hr : b.Readable a) (hw : b.Writable c) (hc : b.cachedLines (granuleOf c) = []) (ha : c % 256 = 0) :
    ∃ t, b.copyGranules a c 1 = (false, t) ∧ b.PutsHere t c (memRead b.mem a 256) := by
  obtain ⟨d, hd, hl⟩ := readIn_bytes hr 256
  have hlen : (memRead b.mem a 256).length = 256 := memRead_length ..
  obtain ⟨t, ht, hp⟩ := write_here (bs := memRead b.mem a 256) (hl.writable hw) ((hl.cachedLines _).trans hc) (fun h => by rw [h] at hlen; cases hlen) ha
    hlen.le
  refine ⟨t, ?_, hp.after hl⟩
  unfold State.copyGranules
  rw [hd]
  dsimp only
  rw [if_neg Bool.false_ne_true, ht]
  rfl

/-- The one part of a gather of one member is its own (R342). -/
theorem gatherParts_alone (hg : recBits ws 0 36 32 = 1) (hm : recBits ws 0 44 40 = 0) (hb : recBits ws 3 47 0 = 256)
    (hcopy : b.copyGranules (recBits ws 1 47 0) (recBits ws 2 47 0) 1 = (false, t)) (hh : t.heldWrites = []) (unit id : Nat) :
    b.gatherParts unit id ws 0 (recBits ws 0 36 32) = t := by
  rw [hg]
  unfold State.gatherParts
  dsimp only
  rw [hm, if_pos rfl, hg, hb, Nat.zero_mul, Nat.add_zero, show 256 / 1 / 256 = 1 from rfl, hcopy]
  exact ownWrites_none hh id b.heldSeq

/-- A GATHER of one member copies its part and ends with OK. -/
theorem gather_alone (hs : s.InRun) (h : s.CuHead unit src ws ra token u) (hf : s.FreshJob) (hok : cuRecOk ws = true)
    (hb : recBits ws 3 47 0 = 256) (hg : recBits ws 0 36 32 = 1) (hh : s.heldWrites = []) (hr : s.Readable (recBits ws 1 47 0))
    (hw : s.Writable (recBits ws 2 47 0)) (hc : s.cachedLines (granuleOf (recBits ws 2 47 0)) = []) (hop : recBits ws 0 3 0 = 3) :
    Does (.gather unit src) s fun t => ∃ v : State, s.Stores v (recBits ws 2 47 0) (memRead s.mem (recBits ws 1 47 0) 256) ∧
      v.CuEnds t (u.servingUnit unit ws).1 ra token (recBits ws 6 11 0) 1 := by
  refine ⟨_, congrArg Host.Outcome.next (runCuJob_runs unit.isLt h hf.1 hop hok fun _ _ => rfl), ?_⟩
  obtain ⟨hm, -, hdst, -⟩ := ok_alone hok (.inl hop) hg
  have hl : s.Looks (u.servingUnit unit ws).2 := (cuFetch_head unit.isLt h).1.trans looks_servingUnit
  obtain ⟨t, hcopy, hput⟩ := copyGranules_one (b := s.cuBegun u unit ra token ws) (a := recBits ws 1 47 0) (c := recBits ws 2 47 0)
    (hl.readable hr) (hl.writable hw) ((hl.cachedLines _).trans hc) hdst
  obtain ⟨hmem, htx, htw, hred, hends, hheld, hrun⟩ := cuBegun_same (unit := unit) (ra := ra) (token := token) (ws := ws) (cuFetch_head unit.isLt h).1
  obtain ⟨kjobs, ktx, ktw, kred, kends, kheld⟩ := hput.same
  rw [gatherParts_alone hg hm hb hcopy (kheld.trans (hheld.trans hh))]
  obtain ⟨v, hv, hend⟩ := done_ends hf (servingUnit_lt unit.isLt) (hput.run.trans (hrun.trans hs.1)) kjobs (ktx.trans htx) (ktw.trans htw)
    (kred.trans hred) (kends.trans hends)
  refine ⟨v, fun x => ?_, hend⟩
  rw [hv, hput.stores x, hmem]

end

end Sys2Proof.Machine
end

section
/-! A REDSCAT of one member (R345): its one row is converted to its destination, and the job ends at once. -/

namespace Sys2Proof.Machine

open Sys2Proof

/-! ## Rows of float elements (R101) -/

theorem packElems_length {t : Nat} (ht : t ≤ 2) (xs : List Nat) : (packElems t xs).length = xs.length * floatBytes t := by
  have hcons : ∀ x l, packElems t (x :: l) = leBytes (floatBytes t) x ++ packElems t l := by
    intro x l
    obtain rfl | rfl | rfl : t = 0 ∨ t = 1 ∨ t = 2 := by omega
    all_goals rfl
  induction xs with
  | nil => exact (Nat.zero_mul _).symm
  | cons x l ih => rw [hcons, List.length_append, leBytes_length, ih, List.length_cons, Nat.succ_mul, Nat.add_comm]

theorem granule_elems {t : Nat} (ht : t ≤ 2) : 256 / floatBytes t * floatBytes t = 256 := by
  obtain rfl | rfl | rfl : t = 0 ∨ t = 1 ∨ t = 2 := by omega
  all_goals rfl

section
variable {s b : State} {ws : List Nat} {a c unit dt : Nat} {xs : List Lane}

/-- The elements of a row of a granule, widened. -/
def granuleRow (st : Nat) (bs : List Byte) : List Lane := (unpackElems st bs (256 / floatBytes st)).map fun x => (widen st x).1

/-- One row of a granule is read whole. -/
theorem readRows_granule {st : Nat} (hst : st ≤ 2) (hr : b.Readable a) (ha : a % 256 = 0) :
    ∃ t, b.readRows st (256 / floatBytes st) [a] = ([(granuleRow st (memRead b.mem a 256), false)], t) ∧ b.Looks t := by
  obtain ⟨t, ht, hl⟩ := read_granule hr ha
  refine ⟨t, ?_, hl⟩
  unfold State.readRows
  rw [granule_elems hst, ht]
  rfl

/-- A row that is not poisoned is written converted, as one write where it fits a granule (R345). -/
theorem putRun_granule (hne : packElems dt (xs.map fun x => (convert dt false x).1) ≠ [])
    (hlen : (packElems dt (xs.map fun x => (convert dt false x).1)).length ≤ 256) :
    ∃ f, b.putRun unit dt a [(xs, false)] = (b.cuFlags unit f).writeLogged 8 a (packElems dt (xs.map fun x => (convert dt false x).1)) := by
  have hone : cdiv (packElems dt (xs.map fun x => (convert dt false x).1)).length 256 = 1 := by
    have := List.length_pos_iff.mpr hne
    unfold cdiv
    omega
  have hbs : (([(xs, false)] : List (List Lane × Bool)).map fun r => r.1.map fun x => convert dt false x).flatMap
      (fun c => packElems dt (c.map (·.1))) = packElems dt (xs.map fun x => (convert dt false x).1) := by
    rw [List.map_singleton, List.flatMap_singleton, List.map_map]
    rfl
  unfold State.putRun
  dsimp only
  rw [hbs, hone, List.range_one, List.foldl_cons, List.foldl_nil, Nat.mul_zero, Nat.add_zero, List.drop_zero,
    List.take_of_length_le hlen, if_neg (by simp)]
  exact ⟨_, rfl⟩

/-- The rows of the one chunk of a job of one member, a granule of source: its first and only row. -/
theorem redRows_one (hbytes : recBits ws 3 47 0 = 256) (hg : recBits ws 0 36 32 = 1) (hbands : recBits ws 4 16 16 = 0)
    (hlen : redLen ws = 256 / floatBytes (recBits ws 0 11 8)) (hst : recBits ws 0 11 8 ≤ 2) : b.redRows ws c = ([0], b) := by
  unfold State.redRows
  dsimp only
  rw [hbands, if_neg (by decide), hbytes, hg, hlen, granule_elems hst]
  rfl

theorem redOwn_one (hbytes : recBits ws 3 47 0 = 256) (hg : recBits ws 0 36 32 = 1) (hbands : recBits ws 4 16 16 = 0)
    (hlen : redLen ws = 256 / floatBytes (recBits ws 0 11 8)) (hst : recBits ws 0 11 8 ≤ 2) (hr : b.Readable (recBits ws 1 47 0))
    (ha : recBits ws 1 47 0 % 256 = 0) : ∃ t, b.redOwn ws 0 =
      ([(granuleRow (recBits ws 0 11 8) (memRead b.mem (recBits ws 1 47 0) 256), false)], t) ∧ b.Looks t := by
  obtain ⟨t, ht, hl⟩ := readRows_granule hst hr ha
  refine ⟨t, ?_, hl⟩
  unfold State.redOwn
  dsimp only
  rw [redRows_one hbytes hg hbands hlen hst]
  rw [List.map_singleton, Nat.zero_mul, Nat.zero_mul]
  dsimp only
  rw [Nat.add_zero, hlen]
  exact ht

/-- The flags of a unit bear on no address and on no register but its own. -/
theorem cuFlags_get {f : Flags} {g : FieldRef} (hg : g.off < 0x4020010 ∨ 0x5000000 ≤ g.off) (hl : g.lo < 64) :
    (b.cuFlags unit f).get g = b.get g := by
  have hu : cuIndex unit < 2 := Nat.mod_lt _ (by decide)
  have hput : ∀ (t : State) (lo : Nat), lo < 64 → t.get g = b.get g →
      (t.put ⟨0x4020010 + 0x100000 * cuIndex unit, lo, 1⟩ 1).get g = b.get g := fun t lo hlo ht =>
    (State.get_put_ne (by unfold FieldRef.key; dsimp only; omega)).trans ht
  have hite : ∀ (p : Prop) [Decidable p] (t : State) (lo : Nat), lo < 64 → t.get g = b.get g →
      (if p then t.put ⟨0x4020010 + 0x100000 * cuIndex unit, lo, 1⟩ 1 else t).get g = b.get g := fun p _ t lo hlo ht => by
    split
    · exact hput t lo hlo ht
    · exact ht
  exact hite _ _ 61 (by decide) (hite _ _ 62 (by decide) (hite _ _ 63 (by decide) rfl))

theorem cuFlags_eq (b : State) (unit : Nat) (f : Flags) : b.cuFlags unit f = { b with fields := (b.cuFlags unit f).fields } := by
  unfold State.cuFlags
  dsimp only
  split <;> split <;> split <;> rfl

theorem cuFlags_writable {f : Flags} (h : b.Writable a) : (b.cuFlags unit f).Writable a := by
  have hm : b.SameMap (b.cuFlags unit f) := fun g hg hl => cuFlags_get (by omega) hl
  have heq := cuFlags_eq b unit f
  obtain ⟨h1, h2, h3, h4, h5⟩ := h
  refine ⟨(hm.populated (by rw [heq]) (by rw [heq]) a).trans h1, ?_, (hm.peerClosed a).trans h3, ?_, ?_⟩
  · rw [heq]; exact h2
  · rw [heq]; exact h4
  · rw [heq]; exact h5

end

/-! ## The job -/

section
variable {s u b t : State} {unit : Fin 2} {src : JobSrc} {ra : Option Nat} {token id : Nat} {ws : List Nat} {r : RedJob} {xs : List Lane}

/-- The bytes of the converted row. -/
def redBytes (ws : List Nat) (xs : List Lane) : List Byte :=
  packElems (recBits ws 0 15 12) (xs.map fun x => (convert (recBits ws 0 15 12) false x).1)

/-- The finished chunk of a job of one member is one write here (R345). -/
theorem redFinish_one (hbytes : recBits ws 3 47 0 = 256) (hg : recBits ws 0 36 32 = 1) (hbands : recBits ws 4 16 16 = 0)
    (hlen : redLen ws = 256 / floatBytes (recBits ws 0 11 8)) (hst : recBits ws 0 11 8 ≤ 2) (hnode : recBits ws 0 23 16 = 0xFF)
    (hr : r.words = ws) (hne : redBytes ws xs ≠ []) (hl : (redBytes ws xs).length ≤ 256) (unit : Nat) :
    ∃ f, b.redFinish unit r [(xs, false)] =
      let t := (State.cuFlags { b with redJobs := b.redJobs.filter (·.job != r.job) } unit f).writeLogged 8 (recBits ws 2 47 0) (redBytes ws xs)
      t.ownWrites r.job b.heldSeq := by
  obtain ⟨f, hf⟩ := putRun_granule (b := { b with redJobs := b.redJobs.filter (·.job != r.job) }) (unit := unit) (a := recBits ws 2 47 0) hne hl
  refine ⟨f, ?_⟩
  unfold State.redFinish
  rw [hr]
  dsimp only
  rw [redRows_one hbytes hg hbands hlen hst, hnode, if_pos rfl]
  have hruns : runsOf [0] = [(0, 1)] := rfl
  rw [hruns, List.foldl_cons, List.foldl_nil]
  dsimp only
  rw [Nat.zero_mul, Nat.add_zero]
  exact congrArg (fun t : State => t.ownWrites r.job b.heldSeq) hf

theorem granuleRow_length (st : Nat) (bs : List Byte) : (granuleRow st bs).length = 256 / floatBytes st := by simp [granuleRow, unpackElems]

theorem redBytes_length (hdt : recBits ws 0 15 12 ≤ 2) (xs : List Lane) : (redBytes ws xs).length = xs.length * floatBytes (recBits ws 0 15 12) := by
  unfold redBytes
  rw [packElems_length hdt, List.length_map]

/-- What a REDSCAT does before its job has been set up (R345). -/
def State.redSetUp (opid : BitVec 32) (s : State) (unit id : Nat) (ws : List Nat) : State :=
  let g := recBits ws 0 36 32
  let m := recBits ws 0 44 40
  let r : RedJob := ⟨id, opid.toNat, ws, 2⟩
  let (own, s) := State.redOwn { s with redJobs := s.redJobs ++ [r] } ws ((m + g - 1) % g)
  let s := s.markPoison id (own.any (·.2))
  if g = 1 then s.redFinish unit r own
  else (s.redSend unit r ((m + g - 1) % g) own).redDrain unit opid.toNat g

/-- The bytes that a REDSCAT of one member and one granule's row puts to its destination. -/
def redResult (s : State) (ws : List Nat) : List Byte := redBytes ws (granuleRow (recBits ws 0 11 8) (memRead s.mem (recBits ws 1 47 0) 256))

/-- Neither jobs, transfers nor held writes differ. -/
def State.SameJobs (s t : State) : Prop := t.cuJobs = s.cuJobs ∧ t.tx = s.tx ∧ t.txWait = s.txWait ∧ t.redJobs = s.redJobs ∧
  t.heldEnds = s.heldEnds ∧ t.heldWrites = s.heldWrites ∧ t.get Reg.PCR_PSTATE_STATE = s.get Reg.PCR_PSTATE_STATE

section
variable (hbytes : recBits ws 3 47 0 = 256) (hg : recBits ws 0 36 32 = 1) (hm : recBits ws 0 44 40 = 0) (hbands : recBits ws 4 16 16 = 0)
  (hlen : redLen ws = 256 / floatBytes (recBits ws 0 11 8)) (hst : recBits ws 0 11 8 ≤ 2) (hdt : recBits ws 0 15 12 ≤ 2)
  (hnode : recBits ws 0 23 16 = 0xFF)
  (hfit : 256 / floatBytes (recBits ws 0 11 8) * floatBytes (recBits ws 0 15 12) ≤ 256) (hsrc : recBits ws 1 47 0 % 256 = 0)
  (hdst : recBits ws 2 47 0 % 256 = 0)
include hst hdt hfit

theorem redResult_length : redResult b ws ≠ [] ∧ (redResult b ws).length ≤ 256 := by
  have hl : (redResult b ws).length = 256 / floatBytes (recBits ws 0 11 8) * floatBytes (recBits ws 0 15 12) := by
    unfold redResult
    rw [redBytes_length hdt, granuleRow_length]
  refine ⟨fun hnil => ?_, hl.le.trans hfit⟩
  rw [hnil] at hl
  have hpos : ∀ t ≤ 2, ∀ t' ≤ 2, 256 / floatBytes t * floatBytes t' ≠ 0 := by decide
  exact hpos _ hst _ hdt hl.symm

include hbytes hg hm hbands hlen hnode hsrc hdst

/-- One member's REDSCAT of a granule's row is one write, with nothing of it left in progress. -/
theorem redSetUp_one (hr : b.Readable (recBits ws 1 47 0)) (hw : b.Writable (recBits ws 2 47 0))
    (hc : b.cachedLines (granuleOf (recBits ws 2 47 0)) = []) (hred : ∀ x ∈ b.redJobs, x.job ≠ id) (hh : b.heldWrites = [])
    (opid : BitVec 32) (unit : Nat) :
    b.SameJobs (b.redSetUp opid unit id ws) ∧ b.Stores (b.redSetUp opid unit id ws) (recBits ws 2 47 0) (redResult b ws) := by
  obtain ⟨hne, hl⟩ := redResult_length (b := b) hst hdt hfit
  obtain ⟨c, hown, hlc⟩ := redOwn_one (b := { b with redJobs := b.redJobs ++ [⟨id, opid.toNat, ws, 2⟩] }) hbytes hg hbands hlen hst hr hsrc
  obtain ⟨f, hfin⟩ := redFinish_one (b := c) (r := ⟨id, opid.toNat, ws, 2⟩) hbytes hg hbands hlen hst hnode rfl hne hl unit
  have hfilter : c.redJobs.filter (·.job != id) = b.redJobs := by
    rw [hlc.2]
    exact (List.filter_append ..).trans (by rw [List.filter_eq_self.mpr (by simpa using hred)]; simp)
  dsimp only at hfin
  rw [hfilter] at hfin
  have heq : b.redSetUp opid unit id ws = c.redFinish unit ⟨id, opid.toNat, ws, 2⟩
      [(granuleRow (recBits ws 0 11 8) (memRead b.mem (recBits ws 1 47 0) 256), false)] := by
    unfold State.redSetUp
    dsimp only
    rw [hg, hm, show (0 + 1 - 1) % 1 = 0 from rfl, hown]
    rfl
  have hput := writeLogged_here (s := State.cuFlags { c with redJobs := b.redJobs } unit f) (bs := redResult b ws) 8
    (cuFlags_writable (hlc.writable hw)) (by rw [cuFlags_eq]; exact (hlc.cachedLines _).trans hc) hne hdst hl
  have hflags := cuFlags_eq { c with redJobs := b.redJobs } unit f
  have hrun : (State.cuFlags { c with redJobs := b.redJobs } unit f).get Reg.PCR_PSTATE_STATE = b.get Reg.PCR_PSTATE_STATE :=
    (cuFlags_get (.inr (by decide)) (by decide)).trans (hlc.get (not_look_high (by decide)))
  have hsame : b.SameJobs (State.cuFlags { c with redJobs := b.redJobs } unit f) ∧
      (State.cuFlags { c with redJobs := b.redJobs } unit f).mem = b.mem := by
    unfold State.SameJobs
    rw [hrun, hflags, hlc.2]
    exact ⟨⟨rfl, rfl, rfl, rfl, rfl, rfl, rfl⟩, rfl⟩
  obtain ⟨⟨gjobs, gtx, gtw, gred, gends, gheld, grun⟩, gmem⟩ := hsame
  obtain ⟨kjobs, ktx, ktw, kred, kends, kheld⟩ := hput.same
  rw [heq.trans (hfin.trans (ownWrites_none (kheld.trans (gheld.trans hh)) id c.heldSeq))]
  refine ⟨⟨kjobs.trans gjobs, ktx.trans gtx, ktw.trans gtw, kred.trans gred, kends.trans gends,
    kheld.trans gheld, hput.run.trans grun⟩, fun y => (hput.stores y).trans ?_⟩
  rw [gmem]

end

/-- A REDSCAT of one member and one granule's row writes it converted, and ends with OK. -/
theorem redscat_alone (hs : s.InRun) (h : s.CuHead unit src ws ra token u) (hf : s.FreshJob) (hok : cuRecOk ws = true)
    (hb : recBits ws 3 47 0 = 256) (hg : recBits ws 0 36 32 = 1) (hh : s.heldWrites = []) (hr : s.Readable (recBits ws 1 47 0))
    (hw : s.Writable (recBits ws 2 47 0)) (hc : s.cachedLines (granuleOf (recBits ws 2 47 0)) = []) {opid : BitVec 32}
    (hop : recBits ws 0 3 0 = 4) (hid : opid ≠ 0)
    (hrow : recBits ws 0 5 4 = 0 ∨ recBits ws 4 15 0 + 1 = 256 / floatBytes (recBits ws 0 11 8))
    (hfit : 256 / floatBytes (recBits ws 0 11 8) * floatBytes (recBits ws 0 15 12) ≤ 256) (hnode : recBits ws 0 23 16 = 0xFF)
    (hbands : recBits ws 4 16 16 = 0) :
    Does (.redscat unit src opid) s fun t => ∃ v : State, s.Stores v (recBits ws 2 47 0) (redResult s ws) ∧
      v.CuEnds t (u.servingUnit unit ws).1 ra token (recBits ws 6 11 0) 1 := by
  obtain ⟨hm, hsrc, hdst, hst, hdt⟩ := ok_alone hok (.inr hop) hg
  have hruns := runCuJob_runs (room := fun _ _ => true) (f := State.redSetUp opid) unit.isLt h hf.1 hop hok fun _ _ => rfl
  have hexec : exec (.redscat unit src opid) s = .next (s.runCuJob unit 4 src (fun _ _ => true) (State.redSetUp opid)) :=
    congrArg Host.Outcome.next (if_neg hid)
  refine ⟨_, hexec.trans (congrArg Host.Outcome.next hruns), ?_⟩
  have hlen : redLen ws = 256 / floatBytes (recBits ws 0 11 8) := by
    unfold redLen
    split
    · rfl
    · next hn => exact hrow.resolve_left fun h0 => hn ⟨h0, hbands⟩
  have hu := (cuFetch_head unit.isLt h).1
  have hl : s.Looks (u.servingUnit unit ws).2 := hu.trans looks_servingUnit
  obtain ⟨hmem, htx, htw, hred, hends, hheld, hrun⟩ := cuBegun_same (unit := unit) (ra := ra) (token := token) (ws := ws) hu
  obtain ⟨⟨kjobs, ktx, ktw, kred, kends, kheld, krun⟩, hst⟩ := redSetUp_one (b := s.cuBegun u unit ra token ws) (id := s.xferSeq) hb hg hm hbands hlen
    hst hdt hnode hfit hsrc hdst (hl.readable hr) (hl.writable hw) ((hl.cachedLines _).trans hc) (by rw [hred]; exact hf.2.2.2.2) (hheld.trans hh)
    opid (u.servingUnit unit ws).1
  obtain ⟨v, hv, hend⟩ := done_ends hf (servingUnit_lt unit.isLt) (krun.trans (hrun.trans hs.1)) kjobs (ktx.trans htx) (ktw.trans htw)
    (kred.trans hred) (kends.trans hends)
  refine ⟨v, fun y => ?_, hend⟩
  rw [hv, hst y, hmem]
  unfold redResult
  rw [hmem]

end

end Sys2Proof.Machine
end

section
/-! The collective units' ENABLE (R341, R352), and O51 from it and from the jobs. -/

namespace Sys2Proof.Machine

open Sys2Proof

theorem cuEnable_does {s : State} {unit : Fin 2} (hsig : s.get (Reg.HGPn_CU_CTL_JOB_SIG unit) < 4096) :
    (s.cuEnable unit).get (Reg.HGPn_CU_CTL_ENABLE unit) = 1 ∧
    (s.cuEnable unit).ring (4 + unit.val) = ⟨s.sig (s.get (Reg.HGPn_CU_CTL_JOB_SIG unit)), 0, []⟩ ∧
    s.KeepsFields (s.cuEnable unit) [Reg.HGPn_CU_CTL_ENABLE unit] ∧
    s.cuEnable unit = { s with fields := (s.cuEnable unit).fields, rings := (s.cuEnable unit).rings } := by
  have hkeep : s.KeepsFields (s.put (Reg.HGPn_CU_CTL_ENABLE unit) 1) [Reg.HGPn_CU_CTL_ENABLE unit] := (keeps_refl s _).put List.mem_cons_self
  refine ⟨State.get_put_eq, ?_, hkeep.of_fields rfl rfl rfl, rfl⟩
  rw [← hkeep.sig (by simp [Reg.HGPn_CU_CTL_ENABLE]; omega) hsig]
  exact (ring_enableRing _ (4 + unit.val) _ (4 + unit.val)).trans (if_pos rfl)

/-- A DISPATCH on a ring is BAD_JOB (R342). -/
theorem dispatch_ring_refused {s u : State} {unit : Fin 2} {ws : List Nat} {ra : Option Nat} {token : Nat} (hs : s.InRun)
    (h : s.CuHead unit .ring ws ra token u) (hfresh : ∀ x ∈ s.cuJobs, x.id ≠ s.xferSeq) (hop : recBits ws 0 3 0 = 5) :
    Does (.dispatch unit .ring) s fun t => u.CuEnds t unit ra token (recBits ws 6 11 0) 2 := by
  obtain ⟨hl, s', hfetch, -, hbegin⟩ := cuFetch_head unit.isLt h
  have heq : exec (.dispatch unit .ring) s =
      .next ((u.withJobs (s.xferSeq + 1) (s.cuJobs ++ [cuJobOf s.xferSeq unit ra token ws])).refuseCuJob s.xferSeq 2) := by
    refine congrArg Host.Outcome.next ?_
    dsimp only
    rw [hfetch]
    dsimp only
    rw [if_pos hop, hbegin]
  exact ⟨_, heq, refused_ends ((hl.get (not_look_high (by decide))).trans hs.1) unit.isLt (by rw [hl.2]) hfresh⟩

/-- Settles O51: how a job of each kind begins, and what it has come to. The model's choices, by their log entries: 82, the checks of a REDSCAT's
chunks, OPID 0, and the unit that serves a group's job; 25, that PUT takes up a record whose OP is reserved; 83, that a transfer waits behind
those of its node; 12, the hops that a packet starts with; 13, the granules that a READ_REQ asks for. -/
theorem collectiveJobs : Obligations.CollectiveJobs := by
  unfold Obligations.CollectiveJobs
  intro s unit hs
  refine ⟨fun hstep => ?_, fun hstep hen => ?_, fun hstep hen hsig => ?_, fun src ws ra token u h hf => ?_, fun hq => ?_, fun d ds hq hf => ?_⟩
  · exact ⟨_, congrArg Host.Outcome.next (hostRaises_locked hstep), counts_lockedOut s _⟩
  · exact congrArg Host.Outcome.next (hostRaises_raised hstep hen)
  · exact ⟨_, congrArg Host.Outcome.next (hostRaises_rises hstep hen), cuEnable_does hsig⟩
  · refine ⟨fun hbad => ⟨fun hop => ?_, fun hop => ?_, fun hop => ?_, fun opid hop hid => ?_⟩, fun hop => ?_, fun hop hsrc => ?_,
      fun hok h1 h16 hmay hloc hwait => ⟨fun hop hrec hty hr hread => ?_, fun hop hr => ?_⟩,
      fun hok hb hg hh hread hw hc => ⟨fun hop => ?_, fun opid hop hid hrow hfit hnode hbands => ?_⟩⟩
    · exact ⟨_, rfl, runCuJob_refused unit.isLt h hs.1 hf.1 (by simpa using hop) hbad⟩
    · exact ⟨_, rfl, runCuJob_refused unit.isLt h hs.1 hf.1 (by rw [hop]; rfl) hbad⟩
    · exact ⟨_, rfl, runCuJob_refused unit.isLt h hs.1 hf.1 (by rw [hop]; rfl) hbad⟩
    · exact ⟨_, congrArg Host.Outcome.next (if_neg hid), runCuJob_refused unit.isLt h hs.1 hf.1 (by rw [hop]; rfl) hbad⟩
    · rfl
    · subst hsrc
      exact dispatch_ring_refused hs h hf.1 hop
    · obtain ⟨t, ht, hjobs, hmem, hch, htx, htw, m, hm, hu, hholds⟩ := put_starts h hf.1 hok h1 h16 hmay hloc hwait hr hop hrec hty hread
      refine ⟨t, ht, hjobs, hmem, hch, htx, htw, m, hm, hu, ?_⟩
      unfold putHeader at hholds
      rw [hrec] at hholds
      exact hholds
    · obtain ⟨t, ht, hjobs, hmem, hch, htx, htw, m, hm, hu, hholds⟩ := get_starts h hf.1 hok h1 h16 hmay hloc hwait hr hop
      exact ⟨t, ht, hjobs, hmem, hch, htx, htw, m, hm, hu, hholds⟩
    · exact gather_alone hs h hf hok hb hg hh hread hw hc hop
    · obtain ⟨t, ht, v, hst, hend⟩ := redscat_alone hs h hf hok hb hg hh hread hw hc hop hid hrow hfit hnode hbands
      refine ⟨t, ht, v, ?_, hend⟩
      unfold redResult redBytes granuleRow at hst
      rw [List.map_map] at hst
      exact hst
  · refine congrArg Host.Outcome.next ?_
    dsimp only
    rw [hq]
  · refine ⟨fun hmay => ?_, fun hmay hw hrows => dispatch_waits hq hf.1 hmay hrows hw,
      fun hmay hw hloc hr hrows => dispatch_starts hq hf.1 hmay hrows hw hloc hr⟩
    refine congrArg Host.Outcome.next ?_
    dsimp only
    rw [hq]
    dsimp only
    rw [hmay]
    rfl

end Sys2Proof.Machine
end

section
/-! What a coder's reads and the work of its jobs change, and the end of a job (R190, R191). -/

namespace Sys2Proof.Machine

open Sys2Proof

/-! ## Reads through the region table -/

/-- What reads of chamber `n`'s units change: what accesses do, but no memory, and they hold no write. -/
def State.ChReads (s t : State) (n : Nat) : Prop := State.Serves (ChAccessKey n) s t ∧ t.mem = s.mem ∧ t.heldSeq = s.heldSeq

section
variable {s t u : State} {n : Nat}

theorem State.ChReads.refl (s : State) (n : Nat) : s.ChReads s n := ⟨.refl _ s, rfl, rfl⟩

theorem State.ChReads.trans (h : s.ChReads t n) (k : t.ChReads u n) : s.ChReads u n :=
  ⟨h.1.trans k.1, k.2.1.trans h.2.1, k.2.2.trans h.2.2⟩

theorem chReads_violCh (s : State) (n k x : Nat) : s.ChReads (s.violCh n k x) n :=
  ⟨serves_violCh s n k x, violate_mem s _ _ _ _ _ _, by unfold State.violCh; rw [violate_eq]⟩

theorem readAs_heldSeq (s : State) (g a k : Nat) : (s.readAs g a k).2.2.heldSeq = s.heldSeq := by
  have hwarm : (s.warm a).heldSeq = s.heldSeq := by rw [warm_eq]
  unfold State.readAs
  split
  · unfold State.violGlb; rw [violate_eq]
  split
  · dsimp only
    split
    · split <;> exact hwarm
    · exact hwarm
  · rfl

theorem enterBank_heldSeq (s : State) (a : Nat) : (s.enterBank a).heldSeq = s.heldSeq := by
  unfold State.enterBank
  split
  · split <;> rfl
  · rfl

theorem chReads_chGranule (s : State) (n x : Nat) : s.ChReads (s.chGranule n x).2.2.2 n := by
  refine ⟨serves_chGranule s n x, chGranule_mem s n x, ?_⟩
  unfold State.chGranule
  dsimp only
  split
  · exact (readAs_heldSeq _ _ _ _).trans (enterBank_heldSeq _ _)
  · unfold State.countRegion
    split
    · rfl
    · exact (chReads_violCh s _ _ _).2.2
    · exact (chReads_violCh s _ _ _).2.2

theorem chReads_chReadFuel (f : Nat) : ∀ (s : State) (n x len : Nat), s.ChReads (State.chReadFuel f s n x len).2.2.2 n := by
  induction f with
  | zero => exact fun s _ _ _ => .refl s _
  | succ f ih =>
    intro s n x len
    unfold State.chReadFuel
    split
    · exact .refl s n
    · exact (chReads_chGranule s n x).trans (ih _ _ _ _)

theorem chReads_chRead (s : State) (n x len : Nat) : s.ChReads (s.chRead n x len).2.2.2 n := chReads_chReadFuel _ s n x len

theorem chReads_srcDesc (s : State) (n a : Nat) : s.ChReads (s.srcDesc n a).2.2 n := by
  have h := chReads_chRead s n a 128
  unfold State.srcDesc
  dsimp only
  split
  · exact h
  split
  · exact h.trans (chReads_violCh _ _ _ _)
  split
  · exact h
  dsimp only
  split
  · exact h.trans (chReads_violCh _ _ _ _)
  · exact h

theorem chReads_coderList (s : State) (n : Nat) (d : BitVec 1024) : s.ChReads (s.coderList n d).2.2.2 n := by
  unfold State.coderList
  split
  · exact .refl s n
  · exact (chReads_chRead s n _ 8).trans (chReads_chRead _ n _ _)

theorem chReads_srcWalk (n : Nat) (d : BitVec 1024) (count : Nat) (es : List (Option Nat)) (k : Nat) :
    ∀ (s : State) (p : Nat) (last : Option (Nat × List Byte)), s.ChReads (s.srcWalk n d count es k p last).2.2 n := by
  induction k with
  | zero => exact fun s _ _ => .refl s n
  | succ k ih =>
    intro s p last
    unfold State.srcWalk
    extract_lets v g
    split
    · exact .refl s n
    split
    · exact .refl s n
    split
    · exact ih s _ _
    · have hg := chReads_chGranule s n v.byte
      have hgo := fun last => hg.trans (ih (s.chGranule n v.byte).2.2.2 (p + 1) last)
      cases last with
      | none =>
        dsimp only
        split
        · exact hg
        · exact hgo _
      | some e =>
        dsimp only
        split
        · exact ih s _ _
        · split
          · exact hg
          · exact hgo _

end

/-! ## The work of a job -/

/-- The keys of the fields of chamber `n`'s table slots. -/
def SlotKey (n k : Nat) : Prop := (0x1000218 + 0x100000 * n) * 64 ≤ k ∧ k < (0x1000228 + 0x100000 * n) * 64

/-- The keys of the fields that the work of a job of chamber `n`'s coder writes: those of its accesses, and its table slots. -/
def CoderKey (n k : Nat) : Prop := ChAccessKey n k ∨ SlotKey n k

/-- No field of a table slot is one that accesses write. -/
theorem slotKey_not_chAccess {n k : Nat} (hn : n < 28) (h : SlotKey n k) : ¬ChAccessKey n k := by
  simp only [SlotKey, ChAccessKey, AccessKey, LogKeys, FieldRef.key, Reg.FLS_DIRECT_COUNT, Reg.FLS_ELIDED_COUNT, Reg.FLS_STATUS_FULL,
    Reg.HST_SF_BISNP, Reg.HLC_CLAIM_STAT_FORCED] at h ⊢
  omega

/-- What a job's work changes: fields of `CoderKey`, but not where the engines stand on their rings. -/
def State.CoderWorks (s t : State) (n : Nat) : Prop := State.Within (CoderKey n) s t ∧ t.rings = s.rings

/-- A job's place in its ring and its counts are no fields that its work writes. -/
theorem not_coder {n : Nat} (hn : n < 28) {f : FieldRef} (h : f ∈ [Reg.PCR_PSTATE_STATE, Reg.CHn_XC_RING_BASE n, Reg.CHn_XC_RING_ENTRIES_M1 n,
    Reg.CHn_XC_PROGRESS_DONE n, Reg.CHn_XC_PROGRESS_LAST_STATUS n] ∨ ∃ m < 4096, f = Reg.GLB_SIGn_VALUE m) : ¬CoderKey n f.key := by
  suffices hf : ¬ChAccessKey n f.key ∧ (f.key < (0x1000218 + 0x100000 * n) * 64 ∨ (0x1000228 + 0x100000 * n) * 64 ≤ f.key) by
    rintro (hk | hk)
    · exact hf.1 hk
    · unfold SlotKey at hk; omega
  simp only [List.mem_cons, List.not_mem_nil, or_false] at h
  obtain (rfl | rfl | rfl | rfl | rfl) | ⟨m, hm, rfl⟩ := h <;>
    refine ⟨not_chAccess hn ?_ ?_ ?_ ?_, ?_⟩ <;>
    simp [FieldRef.key, Reg.PCR_PSTATE_STATE, Reg.CHn_XC_RING_BASE, Reg.CHn_XC_RING_ENTRIES_M1, Reg.CHn_XC_PROGRESS_DONE,
      Reg.CHn_XC_PROGRESS_LAST_STATUS, Reg.GLB_SIGn_VALUE] <;> omega

section
variable {s t u : State} {n : Nat}

theorem State.CoderWorks.trans (h : s.CoderWorks t n) (k : t.CoderWorks u n) : s.CoderWorks u n := ⟨h.1.trans k.1, k.2.trans h.2⟩

theorem State.Serves.coder (h : State.Serves (ChAccessKey n) s t) : s.CoderWorks t n := ⟨h.1.mono fun _ hk => .inl hk, by rw [h.2]⟩

theorem State.ChReads.coder (h : s.ChReads t n) : s.CoderWorks t n := h.1.coder

theorem works_chWrite (s : State) (n x : Nat) (bs : List Byte) : s.CoderWorks (s.chWrite n x bs) n := (serves_chWrite s n x bs).coder

theorem works_modCh (s : State) (n : Nat) (f : Chamber → Chamber) : s.CoderWorks (s.modCh n f) n := ⟨within_modCh, rfl⟩

theorem State.CoderWorks.run (h : s.CoderWorks t n) (hn : n < 28) : t.get Reg.PCR_PSTATE_STATE = s.get Reg.PCR_PSTATE_STATE :=
  h.1.get (not_coder hn (.inl (by simp)))

theorem State.CoderWorks.done (h : s.CoderWorks t n) (hn : n < 28) : t.get (Reg.CHn_XC_PROGRESS_DONE n) = s.get (Reg.CHn_XC_PROGRESS_DONE n) :=
  h.1.get (not_coder hn (.inl (by simp)))

theorem State.CoderWorks.sig (h : s.CoderWorks t n) (hn : n < 28) {m : Nat} (hm : m < 4096) : t.sig m = s.sig m :=
  h.1.get (not_coder hn (.inr ⟨m, hm, rfl⟩))

theorem State.CoderWorks.ring (h : s.CoderWorks t n) (m : Nat) : t.ring m = s.ring m := by unfold State.ring; rw [h.2]

theorem State.CoderWorks.addr (h : s.CoderWorks t n) (hn : n < 28) : t.coderAddr n = s.coderAddr n := by
  unfold State.coderAddr
  rw [h.ring, h.1.get (not_coder hn (.inl (by simp))), h.1.get (not_coder hn (.inl (by simp)))]

end

/-! ## The end of a job (R163, R191) -/

/-- The job counted, with its status as the last one, and the ring moved on. -/
def State.coderCounted (s : State) (n status : Nat) : State :=
  ((s.takeJob (8 + n)).put (Reg.CHn_XC_PROGRESS_LAST_STATUS n) status).count (Reg.CHn_XC_PROGRESS_DONE n) 1

section
variable {s u : State} {n a sig status bad : Nat}

theorem coderCounted_done (s : State) (n status : Nat) :
    (s.coderCounted n status).get (Reg.CHn_XC_PROGRESS_DONE n) = (s.get (Reg.CHn_XC_PROGRESS_DONE n) + 1) % 2 ^ 32 := by
  simp [State.coderCounted, State.count, State.takeJob]

theorem coderCounted_last (s : State) (n : Nat) (h : status < 2 ^ 8) : (s.coderCounted n status).get (Reg.CHn_XC_PROGRESS_LAST_STATUS n) = status := by
  simpa [State.coderCounted, State.count] using h

theorem coderCounted_get (s : State) (n status : Nat) {f : FieldRef} (hd : f.key ≠ (Reg.CHn_XC_PROGRESS_DONE n).key)
    (hl : f.key ≠ (Reg.CHn_XC_PROGRESS_LAST_STATUS n).key) : (s.coderCounted n status).get f = s.get f :=
  (State.get_put_ne hd).trans (State.get_put_ne hl)

theorem coderCounted_ring (s : State) (n status : Nat) : ((s.coderCounted n status).ring (8 + n)).taken = (s.ring (8 + n)).taken + 1 := by
  unfold State.coderCounted State.takeJob
  exact congrArg RingPos.taken ((State.ring_setRing s (8 + n) _ (8 + n)).trans (if_pos rfl))

/-- The end of a job that is not of poisoned bytes. -/
theorem endCoderJob_eq (h : status ≠ 3) : s.endCoderJob n a sig status bad =
    let t := (s.chWrite n (a + 56) (leBytes 8 status)).coderCounted n status
    t.endWork (t.heldSince s.heldSeq) (.post sig) (t.postSig sig false 1) := by
  unfold State.endCoderJob
  dsimp only
  rw [if_neg h]
  rfl

/-- What a job's end leaves of the fields that it neither counts in nor posts to, and of the chambers. -/
theorem endCoderJob_keeps (hn : n < 28) (hrun : u.get Reg.PCR_PSTATE_STATE = 0) (h3 : status ≠ 3) :
    (∀ f : FieldRef, ¬ChAccessKey n f.key → f.key ≠ (Reg.CHn_XC_PROGRESS_DONE n).key → f.key ≠ (Reg.CHn_XC_PROGRESS_LAST_STATUS n).key →
      f.key ≠ (Reg.GLB_SIGn_VALUE sig).key → (u.endCoderJob n a sig status bad).get f = u.get f) ∧
    ∀ m, (u.endCoderJob n a sig status bad).ch m = u.ch m := by
  rw [endCoderJob_eq h3]
  have hw := serves_chWrite u n (a + 56) (leBytes 8 status)
  generalize u.chWrite n (a + 56) (leBytes 8 status) = x at hw ⊢
  have hx0 : (x.coderCounted n status).get Reg.PCR_PSTATE_STATE = 0 :=
    (coderCounted_get x n status (by simp; omega) (by simp; omega)).trans ((hw.coder.run hn).trans hrun)
  obtain ⟨ht, hget, -⟩ := endPost (x.coderCounted n status) ((x.coderCounted n status).heldSince u.heldSeq) sig hx0
  refine ⟨fun f hf hd hl hs => ?_, fun m => ?_⟩
  · exact (hget f hs).trans ((coderCounted_get x n status hd hl).trans (hw.get hf))
  · dsimp only at ht ⊢
    rw [ht]
    exact hw.ch m

/-- A job ends as R163 and R191 say, once its work is done. -/
theorem coderEnds_of (hn : n < 28) (hrun : s.get Reg.PCR_PSTATE_STATE = 0) (h : s.CoderWorks u n) (hsig : sig < 4096) (hst : status < 3) :
    s.CoderEnds u (u.endCoderJob n (s.coderAddr n) sig status bad) n sig status := by
  intro _ hvis
  rw [endCoderJob_eq (by omega)]
  have hw := h.trans (works_chWrite u n (s.coderAddr n + 56) (leBytes 8 status))
  generalize u.chWrite n (s.coderAddr n + 56) (leBytes 8 status) = x at hw hvis ⊢
  have hrun' : (x.coderCounted n status).get Reg.PCR_PSTATE_STATE = 0 :=
    (coderCounted_get x n status (by simp; omega) (by simp; omega)).trans ((hw.run hn).trans hrun)
  have hsigs : ∀ m < 4096, (x.coderCounted n status).sig m = s.sig m := fun m hm =>
    (coderCounted_get x n status (by simp; omega) (by simp; omega)).trans (hw.sig hn hm)
  dsimp only
  rw [endWork_now (show (x.coderCounted n status).heldSince u.heldSeq = [] from hvis), get_post hrun']
  refine ⟨?_, ?_, ?_, fun m hm => ?_, rfl⟩
  · exact (State.get_put_ne (by simp; omega)).trans (coderCounted_last x n (by omega))
  · rw [State.get_put_ne (by simp; omega), coderCounted_done, hw.done hn]
  · exact (coderCounted_ring x n status).trans (by rw [hw.ring])
  · split
    · next he =>
      subst he
      rw [← hsigs m hm]
      exact State.get_put_eq
    · next he => exact (State.get_put_ne (by simp; omega)).trans (hsigs m hm)

end

end Sys2Proof.Machine
end

section
/-! The exponent fields of a source by falling count (R186, R192). -/

namespace Sys2Proof.Machine

open Sys2Proof

/-! ## The entries of a map in canonical form -/

section
variable {α : Type} {m : Map α} {k : Nat} {v : α}

theorem mapAbove_pairwise {a : Nat} (h : mapAbove a m = true) : (∀ e ∈ m, a < e.1) ∧ m.Pairwise fun e f => e.1 < f.1 := by
  induction m generalizing a with
  | nil => exact ⟨fun _ he => (nomatch he), .nil⟩
  | cons e m ih =>
    simp only [mapAbove, Bool.and_eq_true, decide_eq_true_eq] at h
    obtain ⟨hm, hp⟩ := ih h.2
    exact ⟨List.forall_mem_cons.mpr ⟨h.1, fun f hf => h.1.trans (hm f hf)⟩, List.pairwise_cons.mpr ⟨hm, hp⟩⟩

theorem mapSorted_pairwise (h : mapSorted m = true) : m.Pairwise fun e f => e.1 < f.1 := by
  cases m with
  | nil => exact .nil
  | cons e m => exact List.pairwise_cons.mpr (mapAbove_pairwise h)

/-- A lookup finds the entry of a key, which is the only one. -/
theorem mapFind_eq_some (h : m.Pairwise fun e f => e.1 < f.1) : mapFind m k = some v ↔ (k, v) ∈ m := by
  induction m with
  | nil => simp
  | cons e m ih =>
    obtain ⟨a, w⟩ := e
    obtain ⟨ha, hm⟩ := List.pairwise_cons.mp h
    have hn : ∀ x, (a, x) ∉ m := fun x hx => Nat.lt_irrefl a (ha _ hx)
    unfold mapFind
    split
    · next he => subst he; simp [hn, eq_comm]
    · next he => rw [ih hm]; simp [Ne.symm he]

end

/-! ## Ranking -/

/-- One entry of a ranking stands before another: a higher count, or the same and a lower value. -/
def Ahead (e f : Nat × Nat) : Prop := f.2 < e.2 ∨ (e.2 = f.2 ∧ e.1 < f.1)

theorem Ahead.trans {e f g : Nat × Nat} (h : Ahead e f) (k : Ahead f g) : Ahead e g := by
  unfold Ahead at *; omega

theorem mem_rankInsert {e f : Nat × Nat} {l : List (Nat × Nat)} : f ∈ rankInsert e l ↔ f = e ∨ f ∈ l := by
  induction l with
  | nil => simp [rankInsert]
  | cons x l ih =>
    unfold rankInsert
    split
    · simp
    · rw [List.mem_cons, ih, List.mem_cons]; tauto

theorem rankInsert_ahead {e : Nat × Nat} {l : List (Nat × Nat)} (hl : l.Pairwise Ahead) (he : ∀ f ∈ l, f.1 ≠ e.1) :
    (rankInsert e l).Pairwise Ahead := by
  induction l with
  | nil => exact List.pairwise_singleton _ _
  | cons x l ih =>
    obtain ⟨hx, hl⟩ := List.pairwise_cons.mp hl
    obtain ⟨hne, he⟩ := List.forall_mem_cons.mp he
    unfold rankInsert
    split
    · next h =>
      have hex : Ahead e x := by unfold Ahead; omega
      exact List.pairwise_cons.mpr ⟨List.forall_mem_cons.mpr ⟨hex, fun f hf => hex.trans (hx f hf)⟩, List.pairwise_cons.mpr ⟨hx, hl⟩⟩
    · next h =>
      have hxe : Ahead x e := by unfold Ahead; omega
      refine List.pairwise_cons.mpr ⟨fun f hf => ?_, ih hl he⟩
      obtain rfl | hf := mem_rankInsert.mp hf
      · exact hxe
      · exact hx f hf

/-- The entries of a map inserted one by one from its end: every one of them, each before those it is ahead of. -/
theorem foldr_rankInsert (m : List (Nat × Nat)) (hm : m.Pairwise fun e f => e.1 ≠ f.1) :
    (∀ e, e ∈ m.foldr rankInsert [] ↔ e ∈ m) ∧ (m.foldr rankInsert []).Pairwise Ahead := by
  induction m with
  | nil => exact ⟨fun _ => Iff.rfl, .nil⟩
  | cons x m ih =>
    obtain ⟨hx, hm⟩ := List.pairwise_cons.mp hm
    obtain ⟨hmem, hp⟩ := ih hm
    refine ⟨fun e => ?_, rankInsert_ahead hp fun f hf => (hx f ((hmem f).mp hf)).symm⟩
    rw [List.foldr_cons, mem_rankInsert, hmem, List.mem_cons]

/-! ## The symbols of a source -/

/-- How many elements of a source have an exponent field of this value. -/
def seenExp (t : Nat) (l : List SrcElem) (x : Nat) : Nat := (l.filter fun e => e.real && expField t e.value == x).length

theorem expCounts_get (t : Nat) (l : List SrcElem) (x : Nat) : mapGet 0 (expCounts t l) x = seenExp t l x := by
  induction l using List.reverseRecOn with
  | nil => rfl
  | append_singleton l e ih =>
    unfold seenExp expCounts at *
    rw [List.foldl_append, List.filter_append, List.length_append, ← ih]
    generalize l.foldl _ _ = m
    by_cases hr : e.real = true
    · by_cases hx : x = expField t e.value
      · simp [hr, hx]
      · simp [hr, hx, Ne.symm hx]
    · simp [hr]

theorem expCounts_wf (t : Nat) (l : List SrcElem) : mapSorted (expCounts t l) = true ∧ mapNoDefault 0 (expCounts t l) = true := by
  unfold expCounts
  refine List.foldlRecOn (motive := fun m => mapSorted m = true ∧ mapNoDefault 0 m = true) l _ ⟨rfl, rfl⟩ fun m hm e _ => ?_
  split
  · exact ⟨mapSorted_set hm.1, mapNoDefault_set hm.2⟩
  · exact hm

/-- The counts of a source list the values that it has, each with its count. -/
theorem mem_expCounts {t : Nat} {l : List SrcElem} {x c : Nat} : (x, c) ∈ expCounts t l ↔ seenExp t l x = c ∧ 0 < c := by
  obtain ⟨hs, hd⟩ := expCounts_wf t l
  have hpos : (x, c) ∈ expCounts t l → 0 < c := fun h => Nat.pos_of_ne_zero (by simpa using List.all_eq_true.mp hd _ h)
  rw [← expCounts_get]
  rw [← mapFind_eq_some (mapSorted_pairwise hs)] at hpos ⊢
  unfold mapGet
  cases h : mapFind (expCounts t l) x with
  | none => simp; omega
  | some d => rw [h] at hpos; simpa using hpos

/-- The symbols by falling count, and among equal counts by rising value; every value that occurs is one. -/
theorem ranked_seen (t : Nat) (l : List SrcElem) :
    (ranked (expCounts t l)).Pairwise (fun x y => seenExp t l y < seenExp t l x ∨ (seenExp t l x = seenExp t l y ∧ x < y)) ∧
    ∀ x, x ∈ ranked (expCounts t l) ↔ 0 < seenExp t l x := by
  have hkeys := (List.pairwise_reverse.mpr ((mapSorted_pairwise (expCounts_wf t l).1).imp fun h => (Nat.ne_of_lt h).symm))
  obtain ⟨hmem, hahead⟩ := foldr_rankInsert _ hkeys
  have hentry : ∀ e ∈ (expCounts t l).reverse.foldr rankInsert [], seenExp t l e.1 = e.2 := fun e he =>
    (mem_expCounts.mp (List.mem_reverse.mp ((hmem e).mp he))).1
  unfold ranked
  rw [← List.foldr_reverse]
  refine ⟨List.pairwise_map.mpr (hahead.imp_of_mem fun he hf h => ?_), fun x => ?_⟩
  · rw [hentry _ he, hentry _ hf]
    exact h
  · simp only [List.mem_map, hmem, List.mem_reverse, Prod.exists, mem_expCounts]
    constructor
    · rintro ⟨y, c, ⟨rfl, h⟩, rfl⟩
      exact h
    · exact fun h => ⟨x, _, ⟨rfl, h⟩, rfl⟩

end Sys2Proof.Machine
end

section
/-! The coder's commands: ENABLE, the table slots, and the jobs at the head of its ring (R187, R190 to R196, R200), and from them O34. -/

namespace Sys2Proof.Machine

open Sys2Proof

/-! ## ENABLE (R190) -/

theorem coderEnable_does {s : State} {n : Nat} (hsig : s.get (Reg.CHn_XC_CTL_JOB_SIG n) < 4096) :
    (s.coderEnable n).get (Reg.CHn_XC_CTL_ENABLE n) = 1 ∧ (s.coderEnable n).get (Reg.CHn_XC_PROGRESS_DONE n) = 0 ∧
    (s.coderEnable n).ring (8 + n) = ⟨s.sig (s.get (Reg.CHn_XC_CTL_JOB_SIG n)), 0, []⟩ ∧
    s.KeepsFields (s.coderEnable n) [Reg.CHn_XC_CTL_ENABLE n, Reg.CHn_XC_PROGRESS_DONE n] ∧
    s.coderEnable n = { s with fields := (s.coderEnable n).fields, rings := (s.coderEnable n).rings } := by
  have hget := puts_get [(Reg.CHn_XC_CTL_ENABLE n, 1), (Reg.CHn_XC_PROGRESS_DONE n, 0)] (by simp) s
  have hkeep : s.KeepsFields (s.puts [(Reg.CHn_XC_CTL_ENABLE n, 1), (Reg.CHn_XC_PROGRESS_DONE n, 0)])
      [Reg.CHn_XC_CTL_ENABLE n, Reg.CHn_XC_PROGRESS_DONE n] := State.KeepsFields.puts _ (keeps_refl s _) (by simp)
  refine ⟨hget (Reg.CHn_XC_CTL_ENABLE n, 1) (by simp), hget (Reg.CHn_XC_PROGRESS_DONE n, 0) (by simp), ?_, hkeep.of_fields rfl rfl rfl, rfl⟩
  rw [← hkeep.sig (by simp [Reg.CHn_XC_CTL_ENABLE, Reg.CHn_XC_PROGRESS_DONE]; omega) hsig]
  exact (ring_enableRing _ _ _ _).trans (if_pos rfl)

/-! ## A job at the head of the ring (R190, R191) -/

section
variable {s u v : State} {n op a sig status bad : Nat} {ws : List Nat} {waits : List Nat}

theorem State.CoderHead.reads (h : s.CoderHead n ws u) : s.ChReads u n := by
  obtain ⟨-, bs, ok, hread, -⟩ := h
  simpa [hread] using chReads_chRead s n (s.coderAddr n) 64

/-- A chamber whose coder may take a job has none in progress. -/
theorem coderReady_idle (h : s.coderReady n = true) : (s.ch n).codeJob = none := by
  simp only [State.coderReady, Bool.and_eq_true, Option.isNone_iff_eq_none] at h
  exact h.1.1.1.2

/-- A job of operation `op` runs and ends with the status that its work gives; a record with a reserved bit set ends with BAD_JOB. -/
theorem runCoder_head (h : s.CoderHead n ws u) (hop : recBits ws 0 3 0 = op) (f : State → List Nat → Nat × Nat × State) :
    s.runCoder n op f = if coderReservedOk ws = false then u.endCoderJob n (s.coderAddr n) (recBits ws 6 11 0) 2 0 else
      let r := f u ws
      if r.1 = 0 then r.2.2 else
        r.2.2.finishCoder n (s.coderAddr n) (recBits ws 6 11 0) r.1 r.2.1 (r.2.2.heldSince s.heldSeq) := by
  obtain ⟨hready, bs, ok, hread, rfl⟩ := h
  unfold State.runCoder
  rw [hready]
  dsimp only
  rw [hread]
  simp [hop]

/-- A job of the ring ends once its writes are visible. -/
theorem finishCoder_ends (hn : n < 28) (hrun : s.get Reg.PCR_PSTATE_STATE = 0) (h : s.CoderWorks u n) (hsig : sig < 4096) (hst : status < 3)
    (hw : s.Visible u → waits = []) : s.CoderEnds u (u.finishCoder n (s.coderAddr n) sig status bad waits) n sig status := by
  intro hvis
  unfold State.finishCoder
  rw [endWork_now (hw hvis)]
  exact coderEnds_of hn hrun h hsig hst hvis

/-- A job whose work gives the status 0 goes on. -/
theorem runCoder_goes (h : s.CoderHead n ws u) (hop : recBits ws 0 3 0 = op) (hok : coderReservedOk ws = true)
    {f : State → List Nat → Nat × Nat × State} (hf : f u ws = (0, bad, v)) : s.runCoder n op f = v := by
  rw [runCoder_head h hop, if_neg (by simp [hok]), hf]
  rfl

/-- A job whose work gives a status other than 0 ends with it. -/
theorem runCoder_ends (hn : n < 28) (hrun : s.get Reg.PCR_PSTATE_STATE = 0) (h : s.CoderHead n ws u) (hop : recBits ws 0 3 0 = op)
    (hok : coderReservedOk ws = true) {f : State → List Nat → Nat × Nat × State} (hf : f u ws = (status, bad, v)) (hv : u.CoderWorks v n)
    (h0 : status ≠ 0) (hst : status < 3) : s.CoderEnds v (s.runCoder n op f) n (recBits ws 6 11 0) status := by
  rw [runCoder_head h hop, if_neg (by simp [hok]), hf]
  dsimp only
  rw [if_neg h0]
  exact finishCoder_ends hn hrun (h.reads.coder.trans hv) (Nat.mod_lt _ (by decide)) hst id

/-- A record with a reserved bit set ends with BAD_JOB (R191). -/
theorem runCoder_reserved (hn : n < 28) (hrun : s.get Reg.PCR_PSTATE_STATE = 0) (h : s.CoderHead n ws u) (hop : recBits ws 0 3 0 = op)
    (hbad : coderReservedOk ws = false) (f : State → List Nat → Nat × Nat × State) :
    s.CoderEnds u (s.runCoder n op f) n (recBits ws 6 11 0) 2 := by
  rw [runCoder_head h hop, if_pos hbad]
  exact coderEnds_of hn hrun h.reads.coder (Nat.mod_lt _ (by decide)) (by decide)

end

/-! ## BUILD (R192) -/

section
variable {ch : Fin 28} {s u u1 u2 u3 : State} {ws table : List Nat} {d : BitVec 1024} {count : Nat} {es : List (Option Nat)} {l : List SrcElem}

theorem build_ends (hrun : s.get Reg.PCR_PSTATE_STATE = 0) (h : s.CoderHead ch.val ws u) (hok : coderReservedOk ws = true)
    (hop : recBits ws 0 3 0 = 1) (hd : u.srcDesc ch.val (recBits ws 1 47 0) = (1, d, u1)) (hl : u1.coderList ch.val d = (false, count, es, u2))
    (hwalk : u2.srcWalk ch.val d count es (dTotal d count) 0 none = (l, none, u3)) :
    Does (.build ch) s fun t => s.CoderEnds (u3.chWrite ch.val (recBits ws 2 47 0)
      (codeTable (dType d) (recBits ws 0 47 32) (ranked (expCounts (dType d) l)))) t ch.val (recBits ws 6 11 0) 1 := by
  have h1 : u.ChReads u1 ch.val := by simpa [hd] using chReads_srcDesc u ch.val (recBits ws 1 47 0)
  have h2 : u1.ChReads u2 ch.val := by simpa [hl] using chReads_coderList u1 ch.val d
  have h3 : u2.ChReads u3 ch.val := by simpa [hwalk] using chReads_srcWalk ch.val d count es (dTotal d count) u2 0 none
  refine ⟨_, rfl, runCoder_ends ch.isLt hrun h hop hok (bad := 0) ?_ ((h1.trans (h2.trans h3)).coder.trans (works_chWrite ..)) (by decide) (by decide)⟩
  dsimp only
  rw [hd]
  dsimp only
  rw [if_neg (by decide), hl]
  dsimp only
  rw [if_neg Bool.false_ne_true, hwalk]

end

/-! ## CODE of one tile (R193) -/

section
variable {n : Nat} {s u u1 u2 u3 : State} {ws : List Nat} {d : BitVec 1024} {count : Nat} {es : List (Option Nat)} {l : List SrcElem}

/-- The job that CODE begins from a record, with its source, its table and its list. -/
def codeJobOf (ws : List Nat) (recAddr : Nat) (d : BitVec 1024) (count : Nat) (es : List (Option Nat)) (table : List Byte) : CodeJob :=
  { recAddr := recAddr, sig := recBits ws 6 11 0, desc := d, count := count, entries := es, table := table, krows := recBits ws 0 15 8
    dir := recBits ws 4 47 0, tile := 0, left := recBits ws 5 23 0, dst := recBits ws 3 47 0 / 64 * 64, waits := [] }

theorem codeBegin_job {table : List Byte} {ok : Bool} {u1' : State} (h8 : 8 ≤ recBits ws 0 15 8) (h128 : recBits ws 0 15 8 ≤ 128)
    (hmod : recBits ws 0 15 8 % 8 = 0) (hone : recBits ws 5 23 0 = 1) (hd : u.srcDesc n (recBits ws 1 47 0) = (1, d, u1))
    (ht : u1.chRead n (recBits ws 2 47 0) 64 = (table, false, ok, u1')) (hgood : tableGood table = true)
    (htype : bits (wordAt table 0) 7 4 = dType d) (hl : u1'.coderList n d = (false, count, es, u2)) :
    u.codeBegin n ws = (0, 0, some (codeJobOf ws (u2.coderAddr n) d count es table), u2) := by
  unfold State.codeBegin
  dsimp only
  rw [if_neg (by omega), hd]
  dsimp only
  rw [if_neg (by decide), ht]
  dsimp only
  rw [if_neg Bool.false_ne_true, if_neg (by simp [hgood, htype]), hl]
  rfl

/-- The state once a tile's record and its directory entry are written (R193). -/
def State.tileWritten (s : State) (n dst dir : Nat) (r : List Byte) : State :=
  (s.chWrite n dst r).chWrite n dir (leBytes 8 (dst + r.length / 64 * 2 ^ 48))

/-- A job of one tile ends with OK once its record and its directory entry are written. -/
theorem codeOn_last {j : CodeJob} (hleft : j.left = 1) (htile : j.tile = 0) (hdst : j.dst < 2 ^ 48) (hwaits : j.waits = [])
    (hwalk : s.srcWalk n j.desc j.count j.entries (128 * j.krows) 0 none = (l, none, u)) :
    let v := u.tileWritten n j.dst j.dir (codeRecord (dType j.desc) j.table j.krows (l.map (·.value)))
    s.codeOn n j = (v.modCh n fun c => { c with codeJob := none }).finishCoder n j.recAddr j.sig 1 0
      ((v.heldSince s.heldSeq).filter fun i => (v.heldWrites.map (·.id)).contains i) := by
  unfold State.codeOn State.codeTile State.tileWritten
  dsimp only
  rw [htile, Nat.mul_zero, Nat.mul_zero, hwalk]
  dsimp only
  rw [hleft, hwaits, Nat.mod_eq_of_lt hdst, if_pos (le_refl 1), if_neg Nat.one_ne_zero, List.nil_append, Nat.add_zero]
  rfl

/-- The first step of a CODE job: it begins, and codes its first tile. -/
def State.codeFirst (s : State) (n : Nat) (ws : List Nat) : Nat × Nat × State :=
  match s.codeBegin n ws with
  | (st, at_, none, s) => (st, at_, s)
  | (_, _, some j, s) => (0, 0, s.codeOn n j)

theorem execCode_idle {ch : Fin 28} (h : (s.ch ch.val).codeJob = none) :
    execCode ch s = .next (s.runCoder ch.val 2 fun s ws => s.codeFirst ch.val ws) := by
  unfold execCode
  dsimp only
  rw [h]
  rfl

theorem code_ends {ch : Fin 28} {table : List Byte} {ok : Bool} {u1' : State} (hrun : s.get Reg.PCR_PSTATE_STATE = 0)
    (h : s.CoderHead ch.val ws u) (hok : coderReservedOk ws = true) (hop : recBits ws 0 3 0 = 2)
    (h8 : 8 ≤ recBits ws 0 15 8) (h128 : recBits ws 0 15 8 ≤ 128) (hmod : recBits ws 0 15 8 % 8 = 0) (hone : recBits ws 5 23 0 = 1)
    (hd : u.srcDesc ch.val (recBits ws 1 47 0) = (1, d, u1)) (ht : u1.chRead ch.val (recBits ws 2 47 0) 64 = (table, false, ok, u1'))
    (hgood : tableGood table = true) (htype : bits (wordAt table 0) 7 4 = dType d) (hl : u1'.coderList ch.val d = (false, count, es, u2))
    (hwalk : u2.srcWalk ch.val d count es (128 * recBits ws 0 15 8) 0 none = (l, none, u3)) :
    Does (.code ch) s fun t => s.CoderEnds ((u3.tileWritten ch.val (recBits ws 3 47 0 / 64 * 64) (recBits ws 4 47 0)
      (codeRecord (dType d) table (recBits ws 0 15 8) (l.map (·.value)))).modCh ch.val fun c => { c with codeJob := none }) t ch.val (recBits ws 6 11 0) 1 := by
  have h1 : u.ChReads u1 ch.val := by simpa [hd] using chReads_srcDesc u ch.val (recBits ws 1 47 0)
  have h1' : u1.ChReads u1' ch.val := by simpa [ht] using chReads_chRead u1 ch.val (recBits ws 2 47 0) 64
  have h2 : u1'.ChReads u2 ch.val := by simpa [hl] using chReads_coderList u1' ch.val d
  have hsu : s.ChReads u2 ch.val := h.reads.trans (h1.trans (h1'.trans h2))
  have h3 : u2.ChReads u3 ch.val := by simpa [hwalk] using chReads_srcWalk ch.val d count es (128 * recBits ws 0 15 8) u2 0 none
  have hdst : recBits ws 3 47 0 / 64 * 64 < 2 ^ 48 := Nat.lt_of_le_of_lt (Nat.div_mul_le_self ..) (Nat.mod_lt _ (by decide))
  have hfirst : u.codeFirst ch.val ws = (0, 0, u2.codeOn ch.val (codeJobOf ws (u2.coderAddr ch.val) d count es table)) := by
    unfold State.codeFirst
    rw [codeBegin_job h8 h128 hmod hone hd ht hgood htype hl]
  refine ⟨_, (execCode_idle (coderReady_idle h.1)).trans (congrArg _ (runCoder_goes h hop hok hfirst)), ?_⟩
  rw [codeOn_last hone rfl hdst rfl hwalk, hsu.2.2]
  dsimp only [codeJobOf]
  rw [hsu.coder.addr ch.isLt]
  refine finishCoder_ends ch.isLt hrun (hsu.coder.trans (h3.coder.trans ?_)) (Nat.mod_lt _ (by decide)) (by decide) fun hvis => ?_
  · exact ((works_chWrite ..).trans (works_chWrite ..)).trans (works_modCh ..)
  · exact (congrArg _ hvis).trans List.filter_nil

end

/-! ## Table slots (R195, R196) -/

section
variable {n slot : Nat} {s : State}

theorem slotKey_slotPending : SlotKey n (slotPending n slot).key := by
  unfold SlotKey slotPending
  split
  · simp only [Reg.CHn_XT_SLOT1_PENDING_key]; omega
  · simp only [Reg.CHn_XT_SLOT0_PENDING_key]; omega

theorem slotKey_slotWrites (table : List Byte) : ∀ e ∈ slotWrites n slot table, SlotKey n e.1.key := by
  unfold SlotKey slotWrites
  dsimp only
  split <;> simp <;> omega

/-- A chamber's table slot marked PENDING for a table (R195). -/
def State.slotAwaits (s : State) (n : Nat) (l : TableLoad) : State :=
  (s.put (slotPending n l.slot) 1).modCh n fun c => { c with tableLoad := some l }

theorem loadTable_does {ch : Fin 28} {u u' : State} {ws : List Nat} {table : List Byte} {ok : Bool} (h : s.CoderHead ch.val ws u)
    (hok : coderReservedOk ws = true) (hop : recBits ws 0 3 0 = 3) (ht : u.chRead ch.val (recBits ws 2 47 0) 64 = (table, false, ok, u'))
    (hgood : tableGood table = true) : Does (.loadTable ch) s fun t =>
      t.get (slotPending ch.val (recBits ws 0 4 4)) = 1 ∧
      (t.ch ch.val).tableLoad = some ⟨recBits ws 0 4 4, table, s.coderAddr ch.val, recBits ws 6 11 0⟩ ∧ t.mem = s.mem ∧
      t.get (Reg.CHn_XC_PROGRESS_DONE ch.val) = s.get (Reg.CHn_XC_PROGRESS_DONE ch.val) := by
  have hu : s.ChReads u' ch.val := h.reads.trans (by simpa [ht] using chReads_chRead u ch.val (recBits ws 2 47 0) 64)
  have hp : s.CoderWorks (u'.put (slotPending ch.val (recBits ws 0 4 4)) 1) ch.val := hu.coder.trans ⟨within_put (.inr slotKey_slotPending), rfl⟩
  have hw : (slotPending ch.val (recBits ws 0 4 4)).w = 1 := by unfold slotPending; split <;> rfl
  refine ⟨u'.slotAwaits ch.val ⟨recBits ws 0 4 4, table, s.coderAddr ch.val, recBits ws 6 11 0⟩,
    congrArg Host.Outcome.next (runCoder_goes h hop hok (bad := 0) ?_), ?_, ?_, hu.2.1, hp.done ch.isLt⟩
  · dsimp only
    rw [ht]
    dsimp only
    rw [if_neg Bool.false_ne_true, if_neg (by simp [hgood]), hp.addr ch.isLt]
    rfl
  · unfold State.slotAwaits
    rw [get_modCh, State.get_put_eq, hw]
    rfl
  · unfold State.slotAwaits
    rw [ch_modCh_eq]

/-- A chamber's table slot given a table (R195). -/
def State.slotLoaded (s : State) (n : Nat) (l : TableLoad) : State :=
  (s.modCh n fun c => { c with tableLoad := none, slots := c.slots.set l.slot l.bytes }).puts (slotWrites n l.slot l.bytes)

theorem works_slotLoaded (s : State) (n : Nat) (l : TableLoad) : s.CoderWorks (s.slotLoaded n l) n :=
  (works_modCh ..).trans ⟨within_puts fun e he => .inr (slotKey_slotWrites _ e he), by unfold State.slotLoaded; rw [puts_eq]⟩

theorem slotLoaded_ch (s : State) (n : Nat) (l : TableLoad) :
    (s.slotLoaded n l).ch n = { s.ch n with tableLoad := none, slots := (s.ch n).slots.set l.slot l.bytes } :=
  (ch_puts ..).trans ch_modCh_eq

theorem slotWrites_apart (n slot : Nat) (table : List Byte) : ((slotWrites n slot table).map (·.1)).Pairwise fun f g => f.key ≠ g.key := by
  unfold slotWrites
  dsimp only
  split <;> simp

theorem tableSlotWrite_ready {ch : Fin 28} {l : TableLoad} (hheld : s.held = false) (hl : (s.ch ch.val).tableLoad = some l)
    (hq : s.flag (slotQueued ch.val l.slot) = false) :
    execTableSlotWrite ch s = .next ((s.slotLoaded ch.val l).endCoderJob ch.val l.recAddr l.doneSig 1 0) := by
  unfold execTableSlotWrite
  dsimp only
  rw [hl]
  dsimp only
  rw [hq, hheld]
  rfl

/-- The registers of a table slot keep what is written to them when the job ends. -/
theorem slotLoaded_get {l : TableLoad} (hn : n < 28) (hrun : s.get Reg.PCR_PSTATE_STATE = 0) (hsig : l.doneSig < 4096) (a : Nat) (f : FieldRef)
    (v : Nat) (he : (f, v) ∈ slotWrites n l.slot l.bytes) :
    ((s.slotLoaded n l).endCoderJob n a l.doneSig 1 0).get f = v % 2 ^ f.w := by
  have hrun' : (s.slotLoaded n l).get Reg.PCR_PSTATE_STATE = 0 := ((works_slotLoaded s n l).run hn).trans hrun
  have hk : SlotKey n f.key := slotKey_slotWrites l.bytes (f, v) he
  have hne : ∀ k, k < (0x1000218 + 0x100000 * n) * 64 → f.key ≠ k := fun k h => by unfold SlotKey at hk; omega
  have hkeeps := (endCoderJob_keeps (a := a) (sig := l.doneSig) (status := 1) (bad := 0) hn hrun' (by decide)).1 f (slotKey_not_chAccess hn hk)
    (hne _ (by simp)) (hne _ (by simp; omega)) (hne _ (by simp; omega))
  exact hkeeps.trans (puts_get _ (slotWrites_apart n l.slot l.bytes) _ (f, v) he)

theorem tableSlotWrite_does {ch : Fin 28} {l : TableLoad} (hs : s.InRun) (hl : (s.ch ch.val).tableLoad = some l) (h2 : l.slot < 2)
    (ha : l.recAddr = s.coderAddr ch.val) (hsig : l.doneSig < 4096) (hq : s.flag (slotQueued ch.val l.slot) = false) :
    Does (.tableSlotWrite ch) s fun t =>
      let w := wordAt l.bytes 0
      s.CoderEnds (s.slotLoaded ch.val l) t ch.val l.doneSig 1 ∧ (t.ch ch.val).tableLoad = none ∧
      (t.ch ch.val).slots = (s.ch ch.val).slots.set l.slot l.bytes ∧
      t.get (slotValid ch.val l.slot) = 1 ∧ t.get (slotPending ch.val l.slot) = 0 ∧
      (t.get (if l.slot = 0 then Reg.CHn_XT_SLOT0_TABLE_ID ch.val else Reg.CHn_XT_SLOT1_TABLE_ID ch.val),
        t.get (if l.slot = 0 then Reg.CHn_XT_SLOT0_NSYM ch.val else Reg.CHn_XT_SLOT1_NSYM ch.val),
        t.get (if l.slot = 0 then Reg.CHn_XT_SLOT0_TYPE ch.val else Reg.CHn_XT_SLOT1_TYPE ch.val)) =
        (bits w 47 32, bits w 11 8, bits w 7 4) := by
  refine ⟨_, tableSlotWrite_ready hs.2 hl hq, ?_⟩
  have hw := works_slotLoaded s ch.val l
  have hch := (endCoderJob_keeps (a := l.recAddr) (sig := l.doneSig) (status := 1) (bad := 0) ch.isLt ((hw.run ch.isLt).trans hs.1) (by decide)).2 ch.val
  have hget := slotLoaded_get ch.isLt hs.1 hsig l.recAddr
  rw [slotLoaded_ch] at hch
  refine ⟨ha ▸ coderEnds_of ch.isLt hs.1 hw hsig (by decide), by rw [hch], by rw [hch], ?_⟩
  simp only [Prod.mk.injEq]
  obtain ⟨slot, bytes, recAddr, doneSig⟩ := l
  dsimp only at h2 hget ⊢
  obtain rfl | rfl : slot = 0 ∨ slot = 1 := by omega
  all_goals
    exact ⟨hget _ 1 (by simp [slotWrites, slotValid]), hget _ 0 (by simp [slotWrites, slotPending]),
      (hget _ (bits (wordAt bytes 0) 47 32) (by simp [slotWrites])).trans (Nat.mod_mod _ _),
      (hget _ (bits (wordAt bytes 0) 11 8) (by simp [slotWrites])).trans (Nat.mod_mod _ _),
      (hget _ (bits (wordAt bytes 0) 7 4) (by simp [slotWrites])).trans (Nat.mod_mod _ _)⟩

end

/-- Settles O34: reads keep what a job's end counts in, and the end is the same whatever the job's work was. The model's choices, by their log
entries: 18, that BUILD is one command and CODE one command a tile; 26, that CODE ignores bits [5:0] of DST_ADDR; 76, the byte order of job records
and tables. -/
theorem coderJobs : Obligations.CoderJobs := by
  unfold Obligations.CoderJobs
  intro ch s hs
  refine ⟨fun hstep hst => ?_, fun hstep hen hst hsig => ?_, fun l hl h2 ha hsig hq => tableSlotWrite_does hs hl h2 ha hsig hq, fun ws u h => ⟨fun hbad => ?_,
    fun hok => ⟨fun hop table ok u' ht hgood => loadTable_does h hok hop ht hgood, fun d u1 count es u2 hd => ⟨fun hop hl l u3 hwalk => ?_,
      fun hop h8 h128 hmod hone table ok u1' ht hgood htype hl l u3 hwalk => code_ends hs.1 h hok hop h8 h128 hmod hone hd ht hgood htype hl hwalk⟩⟩⟩⟩
  · refine ⟨_, congrArg Host.Outcome.next (if_pos ?_), counts_violCh s ch.val 0 0 (Nat.two_pow_pos _)⟩
    simp [hstep, hst]
  · refine ⟨_, congrArg Host.Outcome.next ((if_neg ?_).trans (if_neg ?_)), coderEnable_does hsig⟩
    · simp [hstep]
    · simp [State.flag, hen, hst]
  · simp only [List.forall_mem_cons]
    exact ⟨fun hop => ⟨_, rfl, runCoder_reserved ch.isLt hs.1 h hop hbad _⟩,
      fun hop => ⟨_, execCode_idle (coderReady_idle h.1), runCoder_reserved ch.isLt hs.1 h hop hbad _⟩,
      fun hop => ⟨_, rfl, runCoder_reserved ch.isLt hs.1 h hop hbad _⟩, List.forall_mem_nil _⟩
  · obtain ⟨t, ht, hends⟩ := build_ends hs.1 h hok hop hd hl hwalk
    obtain ⟨hahead, hmem⟩ := ranked_seen (dType d) l
    exact ⟨t, ht, _, hahead, hmem, hends⟩

end Sys2Proof.Machine
end

section
/-! The scalar instructions of a helictite and those that change its program's course (R215 to R217, R221): from them O38 and O39. -/

namespace Sys2Proof.Machine

open Sys2Proof

/-- A command whose instruction stands at the PC of a ready helictite acts. -/
theorem exec_helDo {c : Instr} {s : State} {n : Fin 1152} {op : BitVec 8} {o : HOps} {f : Hel → State} (h : s.HelAt n op o)
    (he : exec c s = .next (s.helAt n op o (s.helDo n f))) : exec c s = .next (f (s.hel n)) :=
  he.trans (congrArg _ ((helAt_standing h _).trans (helDo_ready h.1 _)))

/-! ## Results in a scalar register -/

/-- An instruction that writes scalar register D and steps on. -/
theorem writesX_of {mk : Fin 1152 → HOps → Instr} {op : BitVec 8} {f : Hel → HOps → Word} (g : HOps → Hel → Word)
    (he : ∀ n o s, exec (mk n o) s = .next (s.helAt n.val op o (s.helReg n.val fun h => h.setX o.d (g o h)))) (hg : ∀ o h, g o h = f h o) :
    WritesX mk op f := by
  intro n o s h
  refine does_helReg h (he n o s) fun t hn ht => ?_
  rw [ht, hg]
  exact ⟨hn, by rw [Hel.setX_frame]; rfl, fun r => Hel.x_setX (s.hel n) o.d r _⟩

theorem mul_words (x y : Word) : x * y = BitVec.ofNat 64 (x.toNat * y.toNat) := by
  apply BitVec.eq_of_toNat_eq
  rw [BitVec.toNat_mul, BitVec.toNat_ofNat]

theorem div_words (x y : Word) : x / y = BitVec.ofNat 64 (x.toNat / y.toNat) := by
  rw [← BitVec.toNat_udiv, BitVec.ofNat_toNat, BitVec.setWidth_eq]

theorem rem_words (x y : Word) : x % y = BitVec.ofNat 64 (x.toNat % y.toNat) := by
  rw [← BitVec.toNat_umod, BitVec.ofNat_toNat, BitVec.setWidth_eq]

theorem shift_low (x : Word) : x.toNat % 64 = (x.setWidth 6).toNat := by rw [BitVec.toNat_setWidth]

/-- Settles O38: each instruction's result from the equation of its command. The step of the PC modulo 256 is the model's choice (log entry 36). -/
theorem helictiteScalars : Obligations.HelictiteScalars := by
  unfold Obligations.HelictiteScalars
  refine ⟨?_, ?_, ?_, ?_, ?_, ?_, ?_, ?_, ?_, ?_, ?_, ?_, ?_, ?_, ?_⟩
  · exact writesX_of _ (fun _ _ _ => rfl) fun _ _ => rfl
  · exact writesX_of _ (fun _ _ _ => rfl) fun _ _ => rfl
  · exact writesX_of _ (fun _ _ _ => rfl) fun o h => mul_words (h.x o.a) (h.x o.b)
  · exact writesX_of _ (fun _ _ _ => rfl) fun _ _ => rfl
  · exact writesX_of _ (fun _ _ _ => rfl) fun _ _ => rfl
  · exact writesX_of _ (fun _ _ _ => rfl) fun _ _ => rfl
  · exact writesX_of _ (fun _ _ _ => rfl) fun o h => congrArg (h.x o.a <<< ·) (shift_low (h.x o.b))
  · exact writesX_of _ (fun _ _ _ => rfl) fun o h => congrArg (h.x o.a >>> ·) (shift_low (h.x o.b))
  · exact writesX_of _ (fun _ _ _ => rfl) fun _ _ => rfl
  · exact writesX_of _ (fun _ _ _ => rfl) fun _ _ => rfl
  · exact writesX_of _ (fun _ _ _ => rfl) fun o h => congrArg (o.imm ++ ·) (low_lane (h.x o.d))
  · exact writesX_of _ (fun _ _ _ => rfl) fun o h => if_congr Iff.rfl rfl (div_words (h.x o.a) (h.x o.b))
  · exact writesX_of _ (fun _ _ _ => rfl) fun o h => if_congr Iff.rfl rfl (rem_words (h.x o.a) (h.x o.b))
  · exact writesX_of _ (fun _ _ _ => rfl) fun _ _ => rfl
  · exact writesX_of _ (fun _ _ _ => rfl) fun o h => congrArg (fun k => (hlane (h.v o.a) k).setWidth 64) (mod_low o.mod).symm

/-! ## Branches -/

/-- A command that branches, or steps on. -/
theorem does_helBranch {c : Instr} {s : State} {n : Fin 1152} {op : BitVec 8} {o : HOps} {f : Hel → Bool × Hel} {p : State → Prop} (h : s.HelAt n op o)
    (he : exec c s = .next (s.helAt n op o (s.helBranch n o f)))
    (hp : ∀ t, s.OnlyHel t n →
      t.hel n = (if (f (s.hel n)).1 then { (f (s.hel n)).2 with pc := o.imm.toNat % 256 } else (f (s.hel n)).2.next) → p t) : Does c s p :=
  does_setHel (exec_helDo (f := fun h => s.setHel n (if (f h).1 then { (f h).2 with pc := o.imm.toNat % 256 } else (f h).2.next)) h he) hp

theorem branches_of {mk : Fin 1152 → HOps → Instr} {op : BitVec 8} {p : Hel → HOps → Prop} (g : HOps → Hel → Bool)
    (he : ∀ n o s, exec (mk n o) s = .next (s.helAt n.val op o (s.helBranch n.val o fun h => (g o h, h)))) (hg : ∀ o h, g o h = true ↔ p h o) :
    Branches mk op p := by
  intro n o s h
  refine does_helBranch h (he n o s) fun t hn ht => ⟨hn, if g o (s.hel n) then o.imm.toNat % 256 else ((s.hel n).pc + 1) % 256, ?_, ?_, ?_⟩
  · rw [ht]
    split <;> rfl
  · exact fun hp => if_pos ((hg o _).mpr hp)
  · exact fun hp => if_neg (mt (hg o _).mp hp)

theorem nop_branches : Branches .hNop 0x00 fun _ _ => False := by
  intro n o s h
  exact does_helReg h rfl fun t hn ht => ⟨hn, _, ht, False.elim, fun _ => rfl⟩

/-- dbnz counts xA down and branches while it is not zero (R217). -/
theorem dbnz_counts {s : State} {n : Fin 1152} {o : HOps} (h : s.HelAt n 0x06 o) : Does (.hDbnz n o) s fun t =>
    s.OnlyHel t n ∧ (∀ r, (t.hel n).x r = if r = o.a ∧ r ≠ 0 then (s.hel n).x r - 1 else (s.hel n).x r) ∧
    t.hel n = { s.hel n with pc := (t.hel n).pc, xregs := (t.hel n).xregs } ∧
    (t.hel n).pc = if (t.hel n).x o.a = 0 then ((s.hel n).pc + 1) % 256 else o.imm.toNat % 256 := by
  refine does_helBranch h rfl fun t hn ht => ?_
  let g := (s.hel n).setX o.a ((s.hel n).x o.a - 1)
  have hg : g = { s.hel n with xregs := g.xregs } := Hel.setX_frame ..
  have hpc : g.pc = (s.hel n).pc := by rw [hg]
  have hx : ∀ r, g.x r = if r = o.a ∧ r ≠ 0 then (s.hel n).x r - 1 else (s.hel n).x r := by
    intro r
    rw [Hel.x_setX]
    exact if_ctx_congr Iff.rfl (fun hr => by rw [hr.1]) fun _ => rfl
  have ht : t.hel n = if g.x o.a = 0 then g.next else { g with pc := o.imm.toNat % 256 } := by
    refine ht.trans (Eq.trans (if_congr ?_ rfl rfl) (ite_not ..))
    exact bne_iff_ne
  have htg : (t.hel n).xregs = g.xregs := by rw [ht]; split <;> rfl
  have htx : ∀ r, (t.hel n).x r = g.x r := fun r => by unfold Hel.x; rw [htg]
  refine ⟨hn, fun r => (htx r).trans (hx r), ?_, ?_⟩
  · rw [ht, hg]
    split <;> rfl
  · rw [htx, ht, ← hpc]
    split <;> rfl

/-! ## Reserved opcodes -/

theorem hopOk_false_iff (op : BitVec 8) : hopOk op = false ↔ ReservedH op := by
  simp only [hopOk, ReservedH, List.forall_mem_cons, List.not_mem_nil, false_imp_iff, implies_true, and_true, Bool.or_eq_false_iff, Bool.and_eq_false_iff,
    decide_eq_false_iff_not, beq_eq_false_iff_ne]
  omega

/-- A command whose instruction does not stand at the PC of a ready helictite: a reserved opcode there faults, any other leaves all as it is
(R215, R221; log entry 35). -/
theorem not_standing {c : Instr} {s t : State} {n : Nat} {op : BitVec 8} {o : HOps} (he : exec c s = .next (s.helAt n op o t)) (hr : s.helReady n = true)
    (hop : hopOk op = true) : (ReservedH (s.helWord n).1 → Does c s fun t => s.HelFaults t n) ∧
    (¬ReservedH (s.helWord n).1 → s.helWord n ≠ (op, o) → Does c s fun t => t = s) := by
  unfold State.helAt at he
  rw [hr, Bool.not_true, if_neg Bool.false_ne_true] at he
  refine ⟨fun hres => ⟨_, he, ?_⟩, fun hres hw => ⟨_, he, ?_⟩⟩
  · have hbad : hopOk (s.helWord n).1 = false := (hopOk_false_iff _).mpr hres
    have hw : s.helWord n ≠ (op, o) := fun hw => by
      rw [hw, hop] at hbad
      cases hbad
    dsimp only
    rw [if_neg hw, hbad, if_neg Bool.false_ne_true]
    exact helFault_rel n
  · have hok : hopOk (s.helWord n).1 = true := Bool.not_eq_false _ ▸ mt (hopOk_false_iff _).mp hres
    rw [if_neg hw, if_pos hok]

/-! ## The end of a program -/

/-- A helictite's program has ended: its claim is released, its registers and scratch are as they were, and so is everything else but the
records of its job (R221, R224). -/
def State.HelGone (s t : State) (n : Nat) (e : HelEnd) : Prop :=
  (t.hel n).ended = some e ∧ t.helReady n = false ∧ t.claimOf n = none ∧ (∀ m, m ≠ n → t.hel m = s.hel m) ∧
  t.mem = s.mem ∧ t.chambers = s.chambers ∧ t.fields = s.fields ∧
  (t.hel n).xregs = (s.hel n).xregs ∧ (t.hel n).hregs = (s.hel n).hregs ∧ (t.hel n).scratch = (s.hel n).scratch

theorem helReady_ended {s : State} {n : Nat} {e : HelEnd} (h : (s.hel n).ended = some e) : s.helReady n = false := by
  unfold State.helReady
  rw [h, Option.isNone_some, Bool.and_false, Bool.false_and, Bool.false_and]

theorem endHel_hel (s : State) (n status code pa m : Nat) : (s.endHel n status code pa).hel m =
    if m = n then { s.hel n with ended := some ⟨status, (s.hel n).pc, code⟩, xrecvAt := none } else s.hel m := by
  obtain ⟨cl, ro, hj, he, -⟩ := endHel_rel s n status code pa
  rw [he]
  exact State.hel_setHel s n _ m

theorem endHel_gone (s : State) (n status code pa : Nat) : s.HelGone (s.endHel n status code pa) n ⟨status, (s.hel n).pc, code⟩ := by
  have hself := (endHel_hel s n status code pa n).trans (if_pos rfl)
  have hother : ∀ m, m ≠ n → (s.endHel n status code pa).hel m = s.hel m := fun m hm => (endHel_hel s n status code pa m).trans (if_neg hm)
  have hended : ((s.endHel n status code pa).hel n).ended = some ⟨status, (s.hel n).pc, code⟩ := by rw [hself]
  obtain ⟨cl, ro, hj, he, hfree, -⟩ := endHel_rel s n status code pa
  have hclaim : (s.endHel n status code pa).claimOf n = none := by
    rw [he]
    exact hfree
  exact ⟨hended, helReady_ended hended, hclaim, hother, by rw [he], by rw [he], by rw [he], by rw [hself], by rw [hself], by rw [hself]⟩

theorem endHel_jobs_done (s : State) (n code pa : Nat) : (s.endHel n 1 code pa).hlcJobs = s.hlcJobs := by
  obtain ⟨cl, ro, hj, he, -, hjobs, -⟩ := endHel_rel s n 1 code pa
  rw [he]
  exact hjobs rfl

/-- A program that traps is the first failure of its job unless another target failed before it (R224). -/
theorem endHel_jobs_trap (s : State) (n code pa : Nat) : (s.endHel n 5 code pa).hlcJobs =
    s.hlcJobs.map fun j => if n ∈ j.targets ∧ j.fault = none then { j with fault := some (n, ⟨5, (s.hel n).pc, code⟩) } else j := by
  obtain ⟨cl, ro, hj, he, -, -, hjobs⟩ := endHel_rel s n 5 code pa
  rw [he]
  show hj = _
  rw [hjobs (by decide)]
  refine List.map_congr_left fun j _ => ?_
  obtain ⟨job, recAddr, token, doneSig, targets, holds, fault, poisonAt⟩ := j
  cases fault with
  | none => simp
  | some x => simp

/-- Settles O39: branches, dbnz, the programs' ends, and the reserved opcodes, each by its lemma above. The PC's step modulo 256 (log entry 36), and
that a command acts only where its instruction stands at the PC (log entry 35), are the model's choices. -/
theorem helictiteControl : Obligations.HelictiteControl := by
  unfold Obligations.HelictiteControl
  refine ⟨nop_branches, ?_, ?_, ?_, ?_, fun n o s hr => ⟨?_, fun hat => dbnz_counts ⟨hr, hat⟩, fun hat => ?_, fun hat => ?_⟩⟩
  · exact branches_of (fun _ _ => true) (fun _ _ _ => rfl) fun _ _ => iff_of_true rfl trivial
  · exact branches_of (fun o h => h.x o.a == 0) (fun _ _ _ => rfl) fun _ _ => beq_iff_eq
  · exact branches_of (fun o h => h.x o.a != 0) (fun _ _ _ => rfl) fun _ _ => bne_iff_ne
  · exact branches_of (fun o h => (h.x o.a).slt (h.x o.b)) (fun _ _ _ => rfl) fun _ _ => BitVec.slt_iff_toInt_lt
  · simp only [List.forall_mem_cons]
    exact ⟨not_standing rfl hr rfl, not_standing rfl hr rfl, not_standing rfl hr rfl, not_standing rfl hr rfl, not_standing rfl hr rfl,
      not_standing rfl hr rfl, not_standing rfl hr rfl, not_standing rfl hr rfl, not_standing rfl hr rfl, not_standing rfl hr rfl,
      not_standing rfl hr rfl, not_standing rfl hr rfl, List.forall_mem_nil _⟩
  · exact ⟨_, exec_helDo ⟨hr, hat⟩ rfl, endHel_gone .., endHel_jobs_done ..⟩
  · exact ⟨_, exec_helDo ⟨hr, hat⟩ rfl, endHel_gone .., endHel_jobs_trap ..⟩

end Sys2Proof.Machine
end

section
/-! Words between helictites, and posts of helictites (R217, R221, R232): from them O43. -/

namespace Sys2Proof.Machine

open Sys2Proof

/-! ## xsend -/

/-- The helictites that an xsend names: those of the layer, all but the sender for 0x7F (R217, R232). -/
theorem mem_sendTargets (s : State) (n : Nat) (o : HOps) (m : Nat) : m ∈ s.sendTargets n o ↔
    m / 96 = n / 96 ∧ if (((s.hel n).x o.a).setWidth 7).toNat = 0x7F then m ≠ n else m % 96 = (((s.hel n).x o.a).setWidth 7).toNat := by
  have hnum : (((s.hel n).x o.a).setWidth 7).toNat = ((s.hel n).x o.a).toNat % 128 := BitVec.toNat_setWidth ..
  unfold State.sendTargets
  rw [hnum]
  generalize ((s.hel n).x o.a).toNat % 128 = num
  dsimp only
  split
  · simp only [List.mem_filter, List.mem_map, List.mem_range, bne_iff_ne]
    refine and_congr_left fun _ => ⟨?_, fun hm => ⟨m % 96, by omega, by omega⟩⟩
    rintro ⟨i, hi, rfl⟩
    omega
  · split
    · rw [List.mem_singleton]
      omega
    · exact iff_of_false List.not_mem_nil (by omega)

theorem sendTargets_nodup (s : State) (n : Nat) (o : HOps) : (s.sendTargets n o).Nodup := by
  unfold State.sendTargets
  dsimp only
  split
  · exact (List.nodup_range.map fun _ _ => Nat.add_left_cancel).filter _
  · split
    · exact List.nodup_singleton _
    · exact List.nodup_nil

/-- The bus of helictite `n`'s layer taken for this MCLK cycle; the next helictite of the layer is first in the next one (R232). -/
def State.takeBus (s : State) (n : Nat) : State :=
  { s with xbus := mapSet (0, 0) s.xbus (n / 96) ((n % 96 + 1) % 96, s.cycle / 2 + 1) }

theorem hasBus_taken {t : State} {n i : Nat} (h : mapGet (0, 0) t.xbus (n / 96) = (i, t.cycle / 2 + 1)) : t.hasBus n = false := by
  unfold State.hasBus
  rw [h]
  dsimp only
  rw [decide_eq_false (by omega), Bool.false_and]

/-- A word appended to the queue of each helictite of a list. -/
def State.sendTo (s : State) (ts : List Nat) (w : Word) : State :=
  ts.foldl (fun s m => s.setHel m { s.hel m with queue := (s.hel m).queue ++ [w] }) s

theorem sendTo_hels {ts : List Nat} (h : ts.Nodup) (s : State) (w : Word) : s.sendTo ts w = { s with hels := (s.sendTo ts w).hels } :=
  (sendFold w ts h s).1

theorem sendTo_hel {ts : List Nat} (h : ts.Nodup) (s : State) (w : Word) (m : Nat) :
    (s.sendTo ts w).hel m = if m ∈ ts then { s.hel m with queue := (s.hel m).queue ++ [w] } else s.hel m := (sendFold w ts h s).2 m

/-- The state after an xsend that goes through. -/
def State.sent (s : State) (n : Nat) (o : HOps) : State :=
  ((s.takeBus n).setHel n (s.hel n).next).sendTo (s.sendTargets n o) ((s.hel n).x o.b)

section xsend

variable {s : State} {n : Fin 1152} {o : HOps}

theorem exec_hXsend (h : s.HelAt n 0x60 o) : exec (.hXsend n o) s =
    .next (if ((s.sendTargets n o).any fun m => decide (32 ≤ (s.hel m).queue.length)) || !s.hasBus n then s else s.sent n o) :=
  (exec_helDo h rfl).trans rfl

theorem sent_eq (s : State) (n : Nat) (o : HOps) : s.sent n o = { s with hels := (s.sent n o).hels, xbus := (s.takeBus n).xbus } := by
  obtain ⟨hels, h⟩ : ∃ hels, (s.takeBus n).setHel n (s.hel n).next = { s with hels := hels, xbus := (s.takeBus n).xbus } := ⟨_, rfl⟩
  unfold State.sent
  rw [h]
  exact sendTo_hels (sendTargets_nodup s n o) _ _

/-- Each target's queue has the word; the sender has stepped on. -/
theorem sent_hel (s : State) (n : Nat) (o : HOps) (m : Nat) : (s.sent n o).hel m =
    if m ∈ s.sendTargets n o then { (if m = n then (s.hel n).next else s.hel m) with queue := (s.hel m).queue ++ [(s.hel n).x o.b] }
    else if m = n then (s.hel n).next else s.hel m := by
  have hstep : ((s.takeBus n).setHel n (s.hel n).next).hel m = if m = n then (s.hel n).next else s.hel m := State.hel_setHel ..
  have hqueue : (if m = n then (s.hel n).next else s.hel m).queue = (s.hel m).queue := by
    split
    · next hm => rw [hm]; rfl
    · rfl
  refine (sendTo_hel (sendTargets_nodup s n o) _ _ m).trans ?_
  rw [hstep, hqueue]

theorem xsend_sends (h : s.HelAt n 0x60 o) (hroom : ∀ m ∈ s.sendTargets n o, (s.hel m).queue.length < 32) (hbus : s.hasBus n = true) :
    exec (.hXsend n o) s = .next (s.sent n o) := by
  have hany : ((s.sendTargets n o).any fun m => decide (32 ≤ (s.hel m).queue.length)) = false :=
    List.any_eq_false.mpr fun m hm => by simpa using hroom m hm
  rw [exec_hXsend h, hany, hbus]
  rfl

theorem xsend_waits (h : s.HelAt n 0x60 o) (hw : (∃ m ∈ s.sendTargets n o, 32 ≤ (s.hel m).queue.length) ∨ s.hasBus n = false) :
    exec (.hXsend n o) s = .next s := by
  rw [exec_hXsend h, if_pos]
  rw [Bool.or_eq_true, List.any_eq_true, Bool.not_eq_true']
  exact hw.imp_left fun ⟨m, hm, hfull⟩ => ⟨m, hm, decide_eq_true hfull⟩

/-! ## xrecv -/

theorem xrecv_takes {w : Word} {q : List Word} (h : s.HelAt n 0x61 o) (hq : (s.hel n).queue = w :: q) : Does (.hXrecv n o) s fun t => s.OnlyHel t n ∧
    t.hel n = { (s.hel n).next with queue := q, xrecvAt := none, xregs := (t.hel n).xregs } ∧
    ∀ r, (t.hel n).x r = if r = o.d ∧ r ≠ 0 then w else (s.hel n).x r := by
  have he : exec (.hXrecv n o) s = .next (s.setHel n { ((s.hel n).setX o.d w).next with queue := q, xrecvAt := none }) := by
    refine (exec_helDo h rfl).trans ?_
    rw [hq]
  refine does_setHel he fun t hn ht => ?_
  rw [ht]
  exact ⟨hn, by rw [Hel.setX_frame]; rfl, fun r => Hel.x_setX (s.hel n) o.d r w⟩

theorem xrecv_waits (h : s.HelAt n 0x61 o) (hq : (s.hel n).queue = []) : Does (.hXrecv n o) s fun t => s.OnlyHel t n ∧
    t.hel n = { s.hel n with xrecvAt := some ((s.hel n).xrecvAt.getD s.cycle) } := by
  have he : exec (.hXrecv n o) s = .next (s.setHel n { s.hel n with xrecvAt := some ((s.hel n).xrecvAt.getD s.cycle) }) := by
    refine (exec_helDo h rfl).trans ?_
    split
    · rfl
    · next hw => rw [hq] at hw; cases hw
  exact does_setHel he fun t hn ht => ⟨hn, ht⟩

theorem exec_hXrecvTimeout {x : Nat} (hx : (s.hel n).xrecvAt = some x) (hh : s.held = false) : exec (.hXrecvTimeout n) s =
    .next (if s.get Reg.HLC_CTL_TIMEOUT_US ≠ 0 ∧ x + 1700 * s.get Reg.HLC_CTL_TIMEOUT_US < s.cycle then s.helFault n else s) := by
  show execHXrecvTimeout n s = _
  unfold execHXrecvTimeout
  rw [hx, hh, Nat.mul_comm]
  simp only [Bool.not_false, and_true]

/-! ## post -/

theorem sig_key_inj {i j : Nat} : (Reg.GLB_SIGn_VALUE i).key = (Reg.GLB_SIGn_VALUE j).key ↔ i = j := by
  simp only [FieldRef.key, Reg.GLB_SIGn_VALUE]
  omega

theorem post_adds (h : s.HelAt n 0x68 o) (hs : s.InRun) : exec (.hPost n o) s =
    .next ((s.setHel n (s.hel n).next).put (Reg.GLB_SIGn_VALUE (o.imm.setWidth 12).toNat)
      (s.sig (o.imm.setWidth 12).toNat + ((s.hel n).x o.a).toNat)) := by
  rw [BitVec.toNat_setWidth]
  exact (exec_helDo h rfl).trans (congrArg _ (get_post (s := s.setHel n (s.hel n).next) hs.1))

end xsend

/-- Settles O43: the targets of an xsend by membership in the list that it walks, and each command's outcome by its lemma above. That the numbers 96 to
126 name no helictite (log entry 37) and that the PC steps modulo 256 (log entry 36) are the model's choices. -/
theorem helictiteExchange : Obligations.HelictiteExchange := by
  unfold Obligations.HelictiteExchange
  intro n o s
  simp only [← mem_sendTargets s n.val o]
  refine ⟨fun hr => ⟨fun hat hroom hbus => ?_, fun hat hw => ?_, fun hat w q hq => xrecv_takes ⟨hr, hat⟩ hq, fun hat hq => xrecv_waits ⟨hr, hat⟩ hq,
    fun hat hs => ?_⟩, fun x hx hh => ⟨fun h0 hlate => ?_, fun hin => ?_⟩⟩
  · have hbus' : ∀ k, mapGet (0, 0) (s.sent n o).xbus k =
        if k = n.val / 96 then ((n.val % 96 + 1) % 96, s.cycle / 2 + 1) else mapGet (0, 0) s.xbus k := by
      intro k
      rw [sent_eq]
      exact mapGet_set ..
    refine ⟨_, xsend_sends ⟨hr, hat⟩ hroom hbus, ?_, hasBus_taken (i := (n.val % 96 + 1) % 96) ?_,
      fun k hk => (hbus' k).trans (if_neg fun h => hk (Fin.ext h)), fun m => ⟨fun hm => ?_, fun hm => ?_⟩⟩
    · rw [sent_eq]
    · rw [hbus', if_pos rfl, sent_eq]
    · rw [sent_hel, if_pos hm]; rfl
    · rw [sent_hel, if_neg hm]; rfl
  · exact ⟨_, xsend_waits ⟨hr, hat⟩ hw, rfl⟩
  · refine ⟨_, post_adds ⟨hr, hat⟩ hs, rfl, fun m => State.hel_setHel .., fun k _ => ?_, (keeps_refl s _).put (List.mem_singleton_self _)⟩
    exact (State.get_put ..).trans (if_ctx_congr sig_key_inj (fun hk => by rw [hk]; rfl) fun _ => rfl)
  · exact ⟨_, (exec_hXrecvTimeout hx hh).trans (congrArg _ (if_pos ⟨h0, hlate⟩)), helFault_rel n⟩
  · exact ⟨_, (exec_hXrecvTimeout hx hh).trans (congrArg _ (if_neg (by omega))), rfl⟩

end Sys2Proof.Machine
end

section
/-! Granule operations, claims and row boundaries of helictites (R217, R219 to R221, R226 to R230, R382): from them O42. -/

namespace Sys2Proof.Machine

open Sys2Proof

/-! ## rg, wg and fence -/

/-- A granule operation counts an address of a foreign block (R233). -/
def State.countForeign (s : State) (t : Option Nat) : State := if t.isNone then s.count Reg.HLC_DEINT_FOREIGN_COUNT 1 else s

theorem countForeign_eq (s : State) (t : Option Nat) : s.countForeign t = { s with fields := (s.countForeign t).fields } := by
  unfold State.countForeign
  split <;> rfl

theorem countForeign_keeps (s : State) (t : Option Nat) : s.KeepsFields (s.countForeign t) [Reg.HLC_DEINT_FOREIGN_COUNT] := by
  unfold State.countForeign
  exact ((keeps_refl s _).put (List.mem_singleton_self _)).ite (keeps_refl s _)

/-- The start of a granule operation by rg or wg: it steps on, faults at a misaligned address, and waits while eight are outstanding or, an rg,
while a wg is still to read its slot (R217, R219 to R221). -/
def State.Issues (s : State) (n : Fin 1152) (o : HOps) (c : Instr) (write : Bool) : Prop :=
  let h := s.hel n
  let a := h.at o
  let slot := (o.mod.setWidth 3).toNat
  (a % 256 = 0 → h.ops.length < 8 → (write = false → ∀ p ∈ h.ops, ¬(p.write = true ∧ p.slot = slot)) → Does c s fun t =>
    t.hel n = { h with pc := (h.pc + 1) % 256, ops := h.ops ++ [⟨write, slot, s.deinterleave a, s.cycle⟩] } ∧
    ((∀ m, m ≠ n.val → t.hel m = s.hel m) ∧ t.chambers = s.chambers) ∧ t.mem = s.mem ∧
    (s.deinterleave a = none → t.get Reg.HLC_DEINT_FOREIGN_COUNT = (s.get Reg.HLC_DEINT_FOREIGN_COUNT + 1) % 2 ^ 64) ∧
    (s.deinterleave a ≠ none → t.fields = s.fields) ∧ s.KeepsFields t [Reg.HLC_DEINT_FOREIGN_COUNT]) ∧
  (a % 256 ≠ 0 → Does c s fun t => s.HelFaults t n) ∧
  (a % 256 = 0 → 8 ≤ h.ops.length ∨ (write = false ∧ ∃ p ∈ h.ops, p.write = true ∧ p.slot = slot) → Does c s fun t => t = s)

section issue

variable {s : State} {n : Fin 1152} {o : HOps} {write : Bool}

theorem helStart_ready (hr : s.helReady n = true) : s.helStart n o write =
    if (s.hel n).at o % 256 ≠ 0 then s.helFault n
    else if 8 ≤ (s.hel n).ops.length ∨ (write = false ∧ ∃ p ∈ (s.hel n).ops, p.write = true ∧ p.slot = (o.mod.setWidth 3).toNat) then s
    else (s.countForeign (s.deinterleave ((s.hel n).at o))).setHel n
      { (s.hel n).next with ops := (s.hel n).ops ++ [⟨write, (o.mod.setWidth 3).toNat, s.deinterleave ((s.hel n).at o), s.cycle⟩] } := by
  have hslot : (o.mod.setWidth 3).toNat = o.mod.toNat % 8 := BitVec.toNat_setWidth ..
  have hcycle : (s.countForeign (s.deinterleave ((s.hel n).at o))).cycle = s.cycle := by rw [countForeign_eq]
  refine (helDo_ready hr _).trans (if_congr Iff.rfl rfl (if_congr (or_congr_right ?_) rfl ?_))
  · simp [hslot]
  · rw [hslot, ← hcycle]
    rfl

theorem issues_of {c : Instr} (hr : s.helReady n = true) (he : exec c s = .next (s.helStart n o write)) : s.Issues n o c write := by
  rw [helStart_ready hr] at he
  refine ⟨fun hal hlen hslot => ?_, fun hal => ⟨_, he, ?_⟩, fun hal hw => ⟨_, he, ?_⟩⟩
  · have hgo : ¬(8 ≤ (s.hel n).ops.length ∨ (write = false ∧ ∃ p ∈ (s.hel n).ops, p.write = true ∧ p.slot = (o.mod.setWidth 3).toNat)) := by
      rintro (h | ⟨hw, p, hp, hps⟩)
      · omega
      · exact hslot hw p hp hps
    rw [if_neg (not_not.mpr hal), if_neg hgo] at he
    have heq := countForeign_eq s (s.deinterleave ((s.hel n).at o))
    have hkeep := countForeign_keeps s (s.deinterleave ((s.hel n).at o))
    refine ⟨_, he, (State.hel_setHel ..).trans (if_pos rfl), ⟨fun m hm => (State.hel_setHel ..).trans ((if_neg hm).trans ?_), ?_⟩, ?_,
      fun hf => ?_, fun hf => ?_, hkeep⟩
    · rw [heq]; rfl
    · rw [State.setHel_chambers, heq]
    · rw [State.setHel_mem, heq]
    · rw [hf]
      exact State.get_put_eq
    · obtain ⟨b, hb⟩ := Option.ne_none_iff_exists'.mp hf
      rw [hb]
      rfl
  · dsimp only
    rw [if_pos hal]
    exact helFault_rel n
  · rw [if_neg (not_not.mpr hal), if_pos hw]

theorem rg_issues (h : s.HelAt n 0x50 o) : s.Issues n o (.hRg n o) false := issues_of h.1 (congrArg _ (helAt_standing h _))

theorem wg_issues (h : s.HelAt n 0x51 o) : s.Issues n o (.hWg n o) true := issues_of h.1 (congrArg _ (helAt_standing h _))

theorem fence_steps (h : s.HelAt n 0x56 o) (hw : ∀ p ∈ (s.hel n).ops, p.write = false) :
    exec (.hFence n o) s = .next (s.setHel n (s.hel n).next) := by
  have hany : (s.hel n).ops.any (·.write) = false := List.any_eq_false.mpr fun p hp => by simp [hw p hp]
  exact (exec_helDo h rfl).trans (congrArg _ (if_neg (by simp [hany])))

theorem fence_waits (h : s.HelAt n 0x56 o) (hw : ∃ p ∈ (s.hel n).ops, p.write = true) : exec (.hFence n o) s = .next s :=
  (exec_helDo h rfl).trans (congrArg _ (if_pos (List.any_eq_true.mpr hw)))

end issue

/-! ## Claims -/

theorem claimOf_hel {s : State} {n : Nat} {c : Claim} (h : s.claimOf n = some c) : c.hel = n := by
  simpa using List.find?_some h

theorem helReady_effect {s : State} {n : Nat} {c : Claim} (hr : s.helReady n = true) (h : s.claimOf n = some c) : c.effect = true := by
  unfold State.helReady at hr
  rw [h, Bool.and_eq_true] at hr
  exact hr.2

theorem helReady_claims {s : State} {n : Nat} {c : Claim} (h : s.claimOf n = some c) (he : c.effect = false) : s.helReady n = false := by
  unfold State.helReady
  rw [h]
  dsimp only
  rw [he, Bool.and_false]

/-- The banks of a claim: those of its helictite's segment that hold a chunk of its byte range (R226). -/
theorem mem_banksOfRange (s : State) (n lo hi b : Nat) : b ∈ s.banksOfRange n lo hi ↔ b < 16 ∧ ∃ i, lo / 1024 ≤ i ∧ i ≤ hi / 1024 ∧
    ∃ f, s.bondedAddr (i * 1024) = some f ∧ s.segmentOf f = n ∧ s.bankOf f = b := by
  have hchunk : ∀ i, (match s.bondedAddr (i * 1024) with
      | some f => s.segmentOf f == n && s.bankOf f == b
      | none => false) = true ↔ ∃ f, s.bondedAddr (i * 1024) = some f ∧ s.segmentOf f = n ∧ s.bankOf f = b := by
    intro i
    cases s.bondedAddr (i * 1024) <;> simp
  unfold State.banksOfRange
  rw [List.mem_filter, List.mem_range, List.any_eq_true]
  refine and_congr_right fun _ => ⟨?_, ?_⟩
  · rintro ⟨i, hi, hf⟩
    rw [List.mem_range] at hi
    exact ⟨_, by omega, by omega, (hchunk _).mp hf⟩
  · rintro ⟨i, hlo, hhi, hf⟩
    refine ⟨i - lo / 1024, List.mem_range.mpr (by omega), (hchunk _).mpr ?_⟩
    rwa [Nat.add_sub_cancel' hlo]

theorem askClaim_eq (s : State) (c : Claim) :
    s.askClaim c = { s with biWait := (s.askClaim c).biWait, biAt := (s.askClaim c).biAt, fields := (s.askClaim c).fields } := by
  unfold State.askClaim State.sendBi
  dsimp only
  split <;> rfl

/-- Every line of a claim that the host holds is asked for (R226). -/
theorem askClaim_asks {s : State} {c : Claim} {l : Nat} (h : l ∈ s.claimLines c) : l ∈ (s.askClaim c).biWait := by
  show l ∈ (s.sendBi ((s.claimLines c).filter fun l => !s.biWait.contains l)).biWait
  by_cases hw : l ∈ s.biWait
  · unfold State.sendBi
    split
    · exact hw
    · exact List.mem_append_left _ hw
  · have hl : l ∈ (s.claimLines c).filter fun l => !s.biWait.contains l := List.mem_filter.mpr ⟨h, by simpa using hw⟩
    unfold State.sendBi
    rw [if_neg (List.ne_nil_of_mem hl)]
    exact List.mem_append_right _ hl

section claims

variable {s : State} {n : Fin 1152} {o : HOps}

/-- The claim that clm takes. -/
def State.newClaim (s : State) (n : Fin 1152) (o : HOps) : Claim :=
  let lo := ((s.hel n).x o.a).toNat
  let hi := ((s.hel n).x o.b).toNat
  ⟨n, lo, hi, s.banksOfRange n lo hi, false, [], [], []⟩

theorem exec_hClm (h : s.HelAt n 0x53 o) : ∃ cl ro, exec (.hClm n o) s =
    .next (({ s with claims := cl ++ [s.newClaim n o], refreshOwed := ro }.setHel n (s.hel n).next).askClaim (s.newClaim n o)) ∧
    ∀ m, cl.find? (fun c => c.hel == m) = if m = n.val then none else s.claimOf m := by
  obtain ⟨cl, ro, hrel⟩ := release_rel s n
  refine ⟨cl, ro, (exec_helDo h rfl).trans ?_, fun m => ?_⟩
  · dsimp only
    rw [hrel]
    rfl
  · rw [← release_claims s n m, hrel]
    rfl

theorem clm_claims (h : s.HelAt n 0x53 o) : Does (.hClm n o) s fun t =>
    t.hel n = (s.hel n).next ∧ ((∀ m, m ≠ n.val → t.hel m = s.hel m) ∧ t.chambers = s.chambers) ∧ t.mem = s.mem ∧ t.helReady n = false ∧
    (∀ m, m ≠ n.val → t.claimOf m = s.claimOf m) ∧ t.claimOf n = some (s.newClaim n o) ∧
    ∀ e ∈ s.snoop, s.inClaim (s.newClaim n o) (64 * e.1) = true → e.1 ∈ t.biWait := by
  obtain ⟨cl, ro, he, hcl⟩ := exec_hClm h
  have heq := askClaim_eq ({ s with claims := cl ++ [s.newClaim n o], refreshOwed := ro }.setHel n (s.hel n).next) (s.newClaim n o)
  have hasks : ∀ l ∈ s.claimLines (s.newClaim n o), l ∈ _ := fun l hl =>
    askClaim_asks (s := { s with claims := cl ++ [s.newClaim n o], refreshOwed := ro }.setHel n (s.hel n).next) hl
  generalize ({ s with claims := cl ++ [s.newClaim n o], refreshOwed := ro }.setHel n (s.hel n).next).askClaim (s.newClaim n o) = t at he heq hasks
  have hhel : ∀ m, t.hel m = if m = n.val then (s.hel n).next else s.hel m := by
    intro m
    rw [heq]
    exact State.hel_setHel s n _ m
  have hclaim : ∀ m, t.claimOf m = if m = n.val then some (s.newClaim n o) else s.claimOf m := by
    intro m
    rw [heq]
    show (cl ++ [s.newClaim n o]).find? (fun c => c.hel == m) = _
    rw [List.find?_append, hcl]
    by_cases hm : m = n.val
    · rw [if_pos hm, if_pos hm, Option.none_or]
      exact List.find?_cons_of_pos (beq_iff_eq.mpr hm.symm)
    · have hne : ¬((s.newClaim n o).hel == m) = true := fun h => hm (beq_iff_eq.mp h).symm
      rw [if_neg hm, if_neg hm, List.find?_cons_of_neg (p := fun c : Claim => c.hel == m) hne, List.find?_nil, Option.or_none]
  have hself := (hclaim n).trans (if_pos rfl)
  refine ⟨t, he, (hhel n).trans (if_pos rfl), ⟨fun m hm => (hhel m).trans (if_neg hm), ?_⟩, ?_, helReady_claims hself rfl,
    fun m hm => (hclaim m).trans (if_neg hm), hself, fun e hes hin => hasks _ (List.mem_filter.mpr ⟨List.mem_map_of_mem hes, hin⟩)⟩
  · rw [heq]; rfl
  · rw [heq]; rfl

theorem rel_releases (h : s.HelAt n 0x54 o) : Does (.hRel n o) s fun t =>
    t.hel n = (s.hel n).next ∧ ((∀ m, m ≠ n.val → t.hel m = s.hel m) ∧ t.chambers = s.chambers) ∧ t.claimOf n = none ∧
    (∀ m, m ≠ n.val → t.claimOf m = s.claimOf m) ∧ t.mem = s.mem ∧ t.fields = s.fields := by
  obtain ⟨cl, ro, hrel⟩ := release_rel (s.setHel n (s.hel n).next) n
  have hclaim := release_claims (s.setHel n (s.hel n).next) n
  have he : exec (.hRel n o) s = .next ((s.setHel n (s.hel n).next).releaseClaim n) := (exec_helDo h rfl).trans rfl
  generalize (s.setHel n (s.hel n).next).releaseClaim n = t at hrel hclaim he
  have hhel : ∀ m, t.hel m = if m = n.val then (s.hel n).next else s.hel m := by
    intro m
    rw [hrel]
    exact State.hel_setHel s n _ m
  refine ⟨t, he, (hhel n).trans (if_pos rfl), ⟨fun m hm => (hhel m).trans (if_neg hm), ?_⟩, (hclaim n).trans (if_pos rfl),
    fun m hm => (hclaim m).trans (if_neg hm), ?_, ?_⟩
  · rw [hrel]; rfl
  · rw [hrel]; rfl
  · rw [hrel]; rfl

/-! ## Row boundaries -/

theorem State.RowBoundary.from {s s' t : State} {n : Nat} {c : Claim} {bs : List Nat} (h : s'.RowBoundary t n c bs) (hc : s'.claims = s.claims)
    (ho : s'.refreshOwed = s.refreshOwed) : s.RowBoundary t n c bs := by
  have hclaim : ∀ m, s'.claimOf m = s.claimOf m := fun m => by unfold State.claimOf; rw [hc]
  obtain ⟨hself, hother, howed⟩ := h
  exact ⟨hself, fun m hm => (hother m hm).trans (hclaim m), fun k => by rw [howed, ho]⟩

theorem yld_free (h : s.HelAt n 0x55 o) (hc : s.claimOf n = none) : exec (.hYld n o) s = .next (s.setHel n (s.hel n).next) := by
  refine (exec_helDo (f := fun h => (s.setHel n h.next).rowBoundary n) h rfl).trans ?_
  have hc' : (s.setHel n (s.hel n).next).claimOf n = none := hc
  unfold State.rowBoundary
  rw [hc']

theorem yld_bounds {c : Claim} (h : s.HelAt n 0x55 o) (hc : s.claimOf n = some c) (hb : ∀ b ∈ c.banks, b < 16) : Does (.hYld n o) s fun t =>
    t.hel n = (s.hel n).next ∧ ((∀ m, m ≠ n.val → t.hel m = s.hel m) ∧ t.chambers = s.chambers) ∧ s.RowBoundary t n c c.banks ∧
    t.mem = s.mem ∧ t.fields = s.fields := by
  have hc' : (s.setHel n (s.hel n).next).claimOf n = some c := hc
  have he : exec (.hYld n o) s = .next ((s.setHel n (s.hel n).next).boundaryIn n c.banks) := by
    refine (exec_helDo (f := fun h => (s.setHel n h.next).rowBoundary n) h rfl).trans ?_
    unfold State.rowBoundary
    rw [hc']
    exact congrArg _ (if_pos (helReady_effect h.1 hc))
  obtain ⟨hbound, cl, ro, heq⟩ := boundaryIn_ok hc' hb
  have hhel : ∀ m, ((s.setHel n (s.hel n).next).boundaryIn n c.banks).hel m = if m = n.val then (s.hel n).next else s.hel m := by
    intro m
    rw [heq]
    exact State.hel_setHel s n _ m
  refine ⟨_, he, (hhel n).trans (if_pos rfl), ⟨fun m hm => (hhel m).trans (if_neg hm), ?_⟩, hbound.from rfl rfl, ?_, ?_⟩
  · rw [heq]; rfl
  · rw [heq]; rfl
  · rw [heq]; rfl

/-- Row boundaries in two lists of banks, one after the other. -/
theorem State.RowBoundary.append {s t u : State} {n : Nat} {c d : Claim} {as bs : List Nat} (h : s.RowBoundary t n c as) (hd : t.claimOf n = some d)
    (k : t.RowBoundary u n d bs) : s.RowBoundary u n c (as ++ bs) := by
  obtain ⟨⟨d', hd', hdc, hrows, hwait, hpass⟩, hother, howed⟩ := h
  obtain rfl : d = d' := Option.some.inj (hd.symm.trans hd')
  obtain ⟨⟨e, he, hed, hrows', hwait', hpass'⟩, hother', howed'⟩ := k
  refine ⟨⟨e, he, ?_, fun b => ?_, ?_, fun w => ?_⟩, fun m hm => (hother' m hm).trans (hother m hm), fun k => ?_⟩
  · rw [hed, hdc]
  · rw [hrows', hrows]
    simp only [List.mem_append]
    grind
  · rw [hwait', hwait, List.filter_filter]
    refine List.filter_congr fun w _ => ?_
    rw [Bool.and_comm]
    simp
  · rw [hpass', hpass, hwait, List.mem_filter, List.mem_append]
    grind
  · rw [howed', howed]
    simp only [List.mem_append]
    grind

theorem rowBoundary_nil {s : State} {n : Nat} {c : Claim} (h : s.claimOf n = some c) : s.RowBoundary s n c [] :=
  ⟨⟨c, h, rfl, fun _ => (if_neg List.not_mem_nil).symm, by simp, by simp⟩, fun _ _ => rfl, by simp⟩

theorem rowBoundary_force {s : State} {n b : Nat} {c : Claim} (h : s.claimOf n = some c) (hb : b < 16) : s.RowBoundary (s.forceBank n b) n c [b] :=
  (boundaryIn_ok h (by simpa using hb)).1

/-- Banks forced to a row boundary one after the other (R228). -/
def State.forceBanks (s : State) (n : Nat) (bs : List Nat) : State := bs.foldl (fun s b => s.forceBank n b) s

theorem forceBanks_eq (n : Nat) (bs : List Nat) : ∀ s : State, s.forceBanks n bs = { s with
    claims := (s.forceBanks n bs).claims, refreshOwed := (s.forceBanks n bs).refreshOwed, fields := (s.forceBanks n bs).fields } := by
  induction bs with
  | nil => exact fun _ => rfl
  | cons b bs ih =>
    intro s
    obtain ⟨cl, ro, fs, hb⟩ : ∃ cl ro fs, s.forceBank n b = { s with claims := cl, refreshOwed := ro, fields := fs } := ⟨_, _, _, rfl⟩
    have h := ih (s.forceBank n b)
    show (s.forceBank n b).forceBanks n bs = { s with
      claims := ((s.forceBank n b).forceBanks n bs).claims, refreshOwed := ((s.forceBank n b).forceBanks n bs).refreshOwed,
      fields := ((s.forceBank n b).forceBanks n bs).fields }
    rw [hb] at h ⊢
    exact h

theorem forceBanks_bounds {n : Nat} (bs : List Nat) : ∀ {s : State} {c : Claim}, s.claimOf n = some c → (∀ b ∈ bs, b < 16) →
    s.RowBoundary (s.forceBanks n bs) n c bs := by
  induction bs with
  | nil => exact fun h _ => rowBoundary_nil h
  | cons b bs ih =>
    intro s c h hb
    obtain ⟨hlt, hbs⟩ := List.forall_mem_cons.mp hb
    have hone := rowBoundary_force h hlt
    obtain ⟨⟨d, hd, -⟩, -⟩ := id hone
    exact hone.append hd (ih hd hbs)

theorem forceBanks_keeps (n : Nat) (bs : List Nat) : ∀ s : State, s.KeepsFields (s.forceBanks n bs) [Reg.HLC_CLAIM_STAT_FORCED] := by
  induction bs with
  | nil => exact fun s => keeps_refl s _
  | cons b bs ih => exact fun s => ((keeps_refl s _).put (List.mem_singleton_self _)).trans (ih (s.forceBank n b))

theorem forceBanks_count (n : Nat) (bs : List Nat) : ∀ s : State, bs ≠ [] → (s.forceBanks n bs).get Reg.HLC_CLAIM_STAT_FORCED =
    (s.get Reg.HLC_CLAIM_STAT_FORCED + bs.length) % 2 ^ Reg.HLC_CLAIM_STAT_FORCED.w := by
  induction bs with
  | nil => exact fun _ h => absurd rfl h
  | cons b bs ih =>
    intro s _
    have hone : (s.forceBank n b).get Reg.HLC_CLAIM_STAT_FORCED = (s.get Reg.HLC_CLAIM_STAT_FORCED + 1) % 2 ^ Reg.HLC_CLAIM_STAT_FORCED.w := State.get_put_eq
    by_cases hbs : bs = []
    · rw [hbs]
      exact hone
    · refine (ih (s.forceBank n b) hbs).trans ?_
      rw [hone, Nat.mod_add_mod, List.length_cons, Nat.add_assoc, Nat.add_comm 1]

/-- The banks of a claim that are due for a forced row boundary (R228). -/
def State.dueBanks (s : State) (n : Nat) (c : Claim) : List Nat :=
  c.banks.filter fun b => decide ((∃ w ∈ c.waiting, w.bank = b ∧ w.since + 3200 ≤ s.cycle) ∨ mapGet 0 s.refreshOwed (n * 16 + b) = 4)

theorem exec_forcedRowBoundary {c : Claim} (h : s.claimOf n = some c) (he : c.effect = true) :
    exec (.forcedRowBoundary n) s = .next (s.forceBanks n (s.dueBanks n c)) := by
  have hdue : c.banks.filter (s.boundaryDue c) = s.dueBanks n c := by
    refine List.filter_congr fun b _ => ?_
    unfold State.boundaryDue
    rw [claimOf_hel h, Bool.eq_iff_iff]
    simp
  show execForcedRowBoundary n s = _
  unfold execForcedRowBoundary
  rw [h]
  dsimp only
  rw [if_pos he, hdue]
  rfl

theorem exec_claimEffect {c : Claim} (h : s.claimOf n = some c) (he : c.effect = false) (hh : s.held = false) (hl : s.claimLines c = []) :
    exec (.claimEffect n) s = .next (s.modClaim n fun c => { c with effect := true }) := by
  show execClaimEffect n s = _
  unfold execClaimEffect
  rw [h]
  dsimp only
  rw [he, hh, if_neg (by decide), if_pos hl]

end claims

/-! ## Granule operations that complete -/

theorem helStopped_run {s : State} (h : s.held = false) (n : Nat) : s.helStopped n = false := by
  unfold State.helStopped
  rw [h, Bool.false_and]

section completes

variable {s : State} {n : Fin 1152} {slot : Fin 8} {p : HelOp} {rest : List HelOp}

/-- What an rg that may go on does with its granule: a read, which ends the program where the granule is poisoned (R220, R221). -/
def State.rgTakes (u : State) (n : Nat) (h : Hel) (slot a : Nat) (rest : List HelOp) : State :=
  let r := u.readAs 1 a 256
  if r.2.1 then
    let v := r.2.2.setHel n { h with ops := rest }
    if h.ended.isNone then v.endHel n 3 0 a else v
  else r.2.2.setHel n { h with ops := rest, scratch := memWrite h.scratch (256 * slot) r.1 }

theorem exec_hRgComplete_foreign (hh : s.held = false) (hc : (s.hel n).Completes false slot p rest) (ha : p.addr = none) :
    exec (.hRgComplete n slot) s =
      .next (s.setHel n { s.hel n with ops := rest, scratch := memWrite (s.hel n).scratch (256 * slot) (zeroBytes 256) }) := by
  obtain ⟨hfind, hrest⟩ := findOp_of hc
  have hsoon : s.tooSoon n p = false := by
    unfold State.tooSoon
    rw [ha]
    rfl
  show Host.Outcome.next (s.helRead n slot) = _
  unfold State.helRead
  dsimp only
  rw [hfind]
  dsimp only
  rw [helStopped_run hh, hsoon, if_neg (by decide), ha]
  unfold Hel.dropOp
  rw [hrest]

theorem exec_hRgComplete (hh : s.held = false) {a : Nat} (hc : (s.hel n).Completes false slot p rest) (ha : p.addr = some a) (hent : s.Enters n a)
    (hlate : ∀ f, s.bondedAddr a = some f → s.segmentOf f = n → p.since + 48 ≤ s.cycle) :
    ∃ cl ro, exec (.hRgComplete n slot) s = .next (({ s with claims := cl, refreshOwed := ro } : State).rgTakes n (s.hel n) slot a rest) := by
  obtain ⟨hfind, hrest⟩ := findOp_of hc
  obtain ⟨cl, ro, henter⟩ := helEnter_ok hh hent
  have hsoon : s.tooSoon n p = false := by
    unfold State.tooSoon
    rw [ha, Option.bind_some]
    cases hf : s.bondedAddr a with
    | none => rfl
    | some f =>
      by_cases hs : s.segmentOf f = n
      · simp [hlate f hf hs]
      · simp [hs]
  refine ⟨cl, ro, ?_⟩
  show Host.Outcome.next (s.helRead n slot) = _
  unfold State.helRead
  dsimp only
  rw [hfind]
  dsimp only
  rw [helStopped_run hh, hsoon, if_neg (by decide), ha]
  dsimp only
  rw [henter]
  unfold Hel.dropOp
  rw [hrest]
  rfl

theorem rgTakes_reads {u : State} {a : Nat} (h : Hel) (hread : u.Readable a) :
    let t := u.rgTakes n h slot a rest
    ((∀ m, m ≠ n.val → t.hel m = u.hel m) ∧ t.chambers = u.chambers) ∧ t.mem = u.mem ∧ t.hel n = { h with ops := rest, scratch := (t.hel n).scratch } ∧
    ∀ x, memByte (t.hel n).scratch x =
      if 256 * slot.val ≤ x ∧ x < 256 * slot.val + 256 then memByte u.mem (a + (x - 256 * slot.val)) else memByte h.scratch x := by
  obtain ⟨v, hv, heq, -⟩ := readAs_ok hread 1 256
  have ht : u.rgTakes n h slot a rest = v.setHel n { h with ops := rest, scratch := memWrite h.scratch (256 * slot) (memRead u.mem a 256) } := by
    unfold State.rgTakes
    rw [hv]
    rfl
  have hhel := State.hel_setHel v n { h with ops := rest, scratch := memWrite h.scratch (256 * slot) (memRead u.mem a 256) }
  intro t
  have hself : t.hel n = { h with ops := rest, scratch := memWrite h.scratch (256 * slot) (memRead u.mem a 256) } := by
    rw [show t = _ from ht, hhel, if_pos rfl]
  refine ⟨⟨fun m hm => ?_, ?_⟩, ?_, by rw [hself], fun x => ?_⟩
  · rw [show t = _ from ht, hhel, if_neg hm, heq]; rfl
  · rw [show t = _ from ht, State.setHel_chambers, heq]
  · rw [show t = _ from ht, State.setHel_mem, heq]
  · rw [hself]
    dsimp only
    exact memCopy h.scratch u.mem (256 * slot) a 256 x

theorem rgTakes_poisoned {u : State} {a : Nat} {h : Hel} (hpop : u.populated a = true) (hseal : u.sealedAt a = false)
    (hbad : u.poisoned (granuleOf a) = true) (hend : h.ended = none) :
    let t := u.rgTakes n h slot a rest
    ((∀ m, m ≠ n.val → t.hel m = u.hel m) ∧ t.chambers = u.chambers) ∧ t.mem = u.mem ∧ t.claimOf n = none ∧
    t.hel n = { h with ops := rest, ended := some ⟨3, h.pc, 0⟩, xrecvAt := none } := by
  obtain ⟨v, hv, heq, -⟩ := readAs_any hpop hseal 1 256
  have ht : u.rgTakes n h slot a rest = (v.setHel n { h with ops := rest }).endHel n 3 0 a := by
    unfold State.rgTakes
    rw [hv, hbad, hend]
    rfl
  have hhel := State.hel_setHel v n { h with ops := rest }
  obtain ⟨-, -, hclaim, hother, hmem, hch, -⟩ := endHel_gone (v.setHel n { h with ops := rest }) n 3 0 a
  intro t
  rw [show t = _ from ht]
  refine ⟨⟨fun m hm => ?_, ?_⟩, ?_, hclaim, ?_⟩
  · rw [hother m hm, hhel, if_neg hm, heq]; rfl
  · rw [hch, State.setHel_chambers, heq]
  · rw [hmem, State.setHel_mem, heq]
  · rw [endHel_hel, if_pos rfl, hhel, if_pos rfl]

theorem gotFrame_eq (s : State) (w : FrameWait) : s.gotFrame w = { s with frameWaits := (s.gotFrame w).frameWaits, fields := (s.gotFrame w).fields } := by
  unfold State.gotFrame
  split
  · unfold State.settleFull
    split <;> rfl
  · rfl

theorem exec_hWgComplete_foreign (hh : s.held = false) (hc : (s.hel n).Completes true slot p rest) (ha : p.addr = none) :
    exec (.hWgComplete n slot) s = .next (s.setHel n { s.hel n with ops := rest }) := by
  obtain ⟨hfind, hrest⟩ := findOp_of hc
  show Host.Outcome.next (s.helWrite n slot) = _
  unfold State.helWrite
  dsimp only
  rw [hfind]
  dsimp only
  rw [helStopped_run hh, if_neg (by decide), ha]
  unfold Hel.dropOp
  rw [hrest]

/-- A granule that a wg of a helictite may write whole at once (R211, R227, R230, R381). -/
def State.WgOpen (s : State) (n : Nat) (a : Nat) : Prop :=
  s.Enters n a ∧ a % 256 = 0 ∧ s.populated a = true ∧ s.sealedAt a = false ∧ s.peerClosed a = false ∧ (s.frameOf (pageOf a)).isSome = true ∧
  s.cachedLines (granuleOf a) = []

theorem exec_hWgComplete {a : Nat} (hh : s.held = false) (hc : (s.hel n).Completes true slot p rest) (ha : p.addr = some a) (ho : s.WgOpen n a) :
    ∃ cl ro v, ({ s with claims := cl, refreshOwed := ro } : State).Writes v a (memRead (s.hel n).scratch (256 * slot) 256) ∧
      v.poisoned (granuleOf a) = false ∧
      exec (.hWgComplete n slot) s = .next ((v.setHel n { s.hel n with ops := rest }).gotFrame (.helictite n slot)) := by
  obtain ⟨hent, hal, hpop, hseal, hpeer, hframe, hlines⟩ := ho
  obtain ⟨hfind, hrest⟩ := findOp_of hc
  obtain ⟨cl, ro, henter⟩ := helEnter_ok hh hent
  have hne : memRead (s.hel n).scratch (256 * slot) 256 ≠ [] := List.ne_nil_of_length_pos (by rw [memRead_length]; decide)
  obtain ⟨v, hv, hwrites, hpois⟩ := writeWhole_ok (s := { s with claims := cl, refreshOwed := ro }) hpop hseal hpeer hframe hne 1 false
  have hwhole : wholeGranule a (memRead (s.hel n).scratch (256 * slot) 256) = true := by
    unfold wholeGranule
    rw [memRead_length, hal]
    rfl
  have hlines' : ({ s with claims := cl, refreshOwed := ro } : State).cachedLines (granuleOf a) = [] := hlines
  refine ⟨cl, ro, v, hwrites, hpois, ?_⟩
  show Host.Outcome.next (s.helWrite n slot) = _
  unfold State.helWrite
  dsimp only
  rw [hfind]
  dsimp only
  rw [helStopped_run hh, if_neg (by decide), ha]
  dsimp only
  rw [henter]
  dsimp only
  unfold State.writeIn
  rw [if_neg (by decide), if_neg (not_not.mpr hlines'), hwhole, hv]
  dsimp only
  rw [if_neg (by decide)]
  unfold Hel.dropOp
  rw [hrest]

theorem wg_writes {a : Nat} (hh : s.held = false) (hc : (s.hel n).Completes true slot p rest) (ha : p.addr = some a) (ho : s.WgOpen n a) :
    Does (.hWgComplete n slot) s fun t => ((∀ m, m ≠ n.val → t.hel m = s.hel m) ∧ t.chambers = s.chambers) ∧ t.hel n = { s.hel n with ops := rest } ∧
      t.poisoned (granuleOf a) = false ∧ s.Stores t a (memRead (s.hel n).scratch (256 * slot.val) 256) := by
  obtain ⟨cl, ro, v, ⟨heq, -, hstores⟩, hpois, he⟩ := exec_hWgComplete hh hc ha ho
  have hhel := State.hel_setHel v n { s.hel n with ops := rest }
  refine ⟨_, he, ⟨fun m hm => ?_, ?_⟩, ?_, ?_, ?_⟩
  · rw [gotFrame_eq]
    refine (hhel m).trans ((if_neg hm).trans ?_)
    rw [heq]; rfl
  · rw [gotFrame_eq]
    show v.chambers = _
    rw [heq]
  · rw [gotFrame_eq]
    exact (hhel n).trans (if_pos rfl)
  · rw [gotFrame_eq]
    exact hpois
  · rw [gotFrame_eq]
    exact hstores

end completes

/-- Settles O42: each instruction and each event by its lemma above. The cycles of ACLK that a near rg and a forced boundary wait (log entry 34), the
boundaries that a row command makes (log entry 79), an address in a disabled window as it stands (log entry 40) and the PC's step modulo 256 (log entry 36)
are the model's choices. -/
theorem helictiteGranules : Obligations.HelictiteGranules := by
  unfold Obligations.HelictiteGranules
  intro n s
  refine ⟨fun o hr => ⟨?_, fun hat hw => ?_, fun hat hw => ⟨_, fence_waits ⟨hr, hat⟩ hw, rfl⟩, fun hat => ?_, fun hat => rel_releases ⟨hr, hat⟩,
    fun hat hc => ?_, fun hat c hc hb => yld_bounds ⟨hr, hat⟩ hc hb⟩, fun c hc he hh hl => ?_, fun c hc hb he => ⟨fun hdue => ?_, fun hdue => ?_⟩,
    fun hh slot p rest => ⟨fun hc ha => ?_, fun hc ha => does_setHel (exec_hWgComplete_foreign hh hc ha) fun _ hn ht => ⟨hn, ht⟩,
      fun a ha hent hlate => ⟨fun hc hread => ?_, fun hc hpop hseal hbad hend => ?_,
        fun hc hal hpop hseal hpeer hframe hlines => wg_writes hh hc ha ⟨hent, hal, hpop, hseal, hpeer, hframe, hlines⟩⟩⟩⟩
  · exact List.forall_mem_cons.mpr ⟨fun hat => rg_issues ⟨hr, hat⟩, List.forall_mem_singleton.mpr fun hat => wg_issues ⟨hr, hat⟩⟩
  · exact does_setHel (fence_steps ⟨hr, hat⟩ hw) fun _ hn ht => ⟨hn, ht⟩
  · obtain ⟨t, he, hself, hframe, hmem, hready, hother, hclaim, hasks⟩ := clm_claims ⟨hr, hat⟩
    exact ⟨t, he, hself, hframe, hmem, hready, hother, _, hclaim, rfl, rfl, rfl, mem_banksOfRange s n _ _, hasks⟩
  · exact does_setHel (yld_free ⟨hr, hat⟩ hc) fun _ hn ht => ⟨hn, ht⟩
  · have hclaim := fun m => claimOf_modClaim s n m (fun c => { c with effect := true }) fun _ => rfl
    refine ⟨_, exec_claimEffect hc he hh hl, rfl, ?_, fun m hm => (hclaim m).trans (if_neg hm)⟩
    rw [hclaim, if_pos rfl, hc]
    rfl
  · refine ⟨_, exec_forcedRowBoundary hc he, ?_⟩
    rw [show s.dueBanks n c = [] from hdue]
    rfl
  · have hlt : ∀ b ∈ s.dueBanks n c, b < 16 := fun b hmem => hb b (List.mem_filter.mp hmem).1
    have heq := forceBanks_eq n (s.dueBanks n c) s
    refine ⟨_, exec_forcedRowBoundary hc he, forceBanks_bounds _ hc hlt, ?_, ?_, ?_, forceBanks_keeps n _ s, forceBanks_count n _ s hdue⟩
    · rw [heq]
    · rw [heq]
    · rw [heq]
  · refine does_setHel (exec_hRgComplete_foreign hh hc ha) fun t hn ht => ⟨hn, by rw [ht], fun x => ?_⟩
    rw [ht]
    dsimp only
    exact memZero (s.hel n).scratch (256 * slot) 256 x
  · obtain ⟨cl, ro, he⟩ := exec_hRgComplete hh hc ha hent hlate
    exact ⟨_, he, rgTakes_reads (u := { s with claims := cl, refreshOwed := ro }) (s.hel n) hread⟩
  · obtain ⟨cl, ro, he⟩ := exec_hRgComplete hh hc ha hent hlate
    exact ⟨_, he, rgTakes_poisoned (u := { s with claims := cl, refreshOwed := ro }) hpop hseal hbad hend⟩

end Sys2Proof.Machine
end

section
/-! Reads, scrubs, writes and merges of the bonded tier's controllers (R207, R210 to R212): what each finds, counts, poisons and stores. -/

namespace Sys2Proof.Machine

open Sys2Proof

/-! ## Corrected words (R210, R213) -/

theorem satAdd_eq (w x n : Nat) : satAdd w x n = min (x + n) (2 ^ w - 1) := by
  have hp : 0 < 2 ^ w := Nat.two_pow_pos w
  unfold satAdd
  split <;> omega

theorem get_countSat (s : State) (f : FieldRef) (n : Nat) : (s.countSat f n).get f = min (s.get f + n) (2 ^ f.w - 1) := by
  have hp : 0 < 2 ^ f.w := Nat.two_pow_pos f.w
  refine State.get_put_eq.trans ?_
  rw [satAdd_eq, Nat.mod_eq_of_lt (by omega)]

/-- Corrected words of a row of a bonded address's bank have been counted, for the device and for the row. -/
def State.Corrects (s t : State) (f row n : Nat) : Prop :=
  let k := rowKey (s.bankKey f) row
  t.get Reg.HLC_ECC_CORRECTED = min (s.get Reg.HLC_ECC_CORRECTED + n) (2 ^ 32 - 1) ∧
  mapGet 0 t.rowErr k = mapGet 0 s.rowErr k + n ∧ (∀ r, r ≠ k → mapGet 0 t.rowErr r = mapGet 0 s.rowErr r) ∧ t.chambers = s.chambers

theorem correctedIn_corrects (s : State) (f row n : Nat) : s.Corrects (s.correctedIn (s.bankKey f) row n) f row n :=
  ⟨get_countSat s Reg.HLC_ECC_CORRECTED n, (mapGet_set ..).trans (if_pos rfl), fun _ hr => (mapGet_set ..).trans (if_neg hr), rfl⟩

theorem correctedIn_keeps (s : State) (bank row n : Nat) : s.KeepsFields (s.correctedIn bank row n) [Reg.HLC_ECC_CORRECTED] :=
  (keeps_refl s _).put (List.mem_singleton_self _)

/-- What comes after the count leaves it as it is. -/
theorem State.Corrects.after {s t u : State} {f row n : Nat} (h : s.Corrects t f row n) (hg : u.get Reg.HLC_ECC_CORRECTED = t.get Reg.HLC_ECC_CORRECTED)
    (hr : u.rowErr = t.rowErr) (hc : u.chambers = t.chambers) : s.Corrects u f row n := by
  obtain ⟨hcount, hrow, hother, hch⟩ := h
  exact ⟨hg.trans hcount, by rw [hr]; exact hrow, fun r hk => by rw [hr]; exact hother r hk, hc.trans hch⟩

/-! ## Bad granules (R210, R375, R386) -/

/-- A granule has been poisoned: counted and logged, its bytes open and every other granule as it was. -/
def State.Poisons (s t : State) (g : Nat) : Prop :=
  (∀ x, t.poisoned x = if x = g then true else s.poisoned x) ∧
  t.get Reg.HLC_ECC_POISONED = min (s.get Reg.HLC_ECC_POISONED + 1) (2 ^ 32 - 1) ∧
  t.get Reg.ERR_STATUS_WRITTEN = (s.get Reg.ERR_STATUS_WRITTEN + 1) % 2 ^ 32 ∧ ∀ x, x / 256 ≠ g → memByte t.mem x = memByte s.mem x

theorem poisonAt_poisoned (s : State) (g x : Nat) : (s.poisonAt g).poisoned x = if x = g then true else s.poisoned x := by
  unfold State.poisoned State.poisonAt
  dsimp only
  rw [mapGet_set]

theorem poisonAt_elsewhere (s : State) (g x : Nat) (h : x / 256 ≠ g) : memByte (s.poisonAt g).mem x = memByte s.mem x := by
  rw [poisonAt_mem]
  exact memByte_write_out (by rw [freeGranule_length]; omega)

/-- A granule poisoned, counted and logged. -/
def State.markBad (s : State) (g : Nat) (e : LogEntry) : State := ((s.poisonAt g).countSat Reg.HLC_ECC_POISONED 1).logErr e

theorem granuleBad_marks {s : State} {g source unit : Nat} {bad : ReadBad} (hb : bad ≠ .none) (hp : s.poisoned g = false) :
    ∃ e, s.granuleBad g source unit Reg.HLC_ECC_POISONED bad = s.markBad g e := by
  unfold State.granuleBad
  rw [hp]
  cases bad with
  | none => exact absurd rfl hb
  | double => exact ⟨_, rfl⟩
  | mismatch found => exact ⟨_, rfl⟩

theorem granuleBad_quiet {s : State} {g source unit : Nat} {counter : FieldRef} {bad : ReadBad} (h : bad = .none ∨ s.poisoned g = true) :
    s.granuleBad g source unit counter bad = s := by
  unfold State.granuleBad
  obtain rfl | hp := h
  · split <;> rfl
  · rw [if_pos hp]

theorem logErr_mem (s : State) (e : LogEntry) : (s.logErr e).mem = s.mem := by rw [logErr_eq]

theorem markBad_mem (s : State) (g : Nat) (e : LogEntry) : (s.markBad g e).mem = (s.poisonAt g).mem := by
  unfold State.markBad State.countSat
  rw [logErr_mem, State.put_mem]

theorem markBad_poisons (s : State) (g : Nat) (e : LogEntry) : s.Poisons (s.markBad g e) g := by
  have heq := logErr_eq ((s.poisonAt g).countSat Reg.HLC_ECC_POISONED 1) e
  refine ⟨fun x => ?_, ?_, ?_, fun x hx => ?_⟩
  · unfold State.markBad
    rw [heq]
    exact poisonAt_poisoned s g x
  · unfold State.markBad
    rw [logErr_get (by decide)]
    exact get_countSat (s.poisonAt g) Reg.HLC_ECC_POISONED 1
  · refine (logErr_written _ e).trans ?_
    rw [show ((s.poisonAt g).countSat Reg.HLC_ECC_POISONED 1).get Reg.ERR_STATUS_WRITTEN = s.get Reg.ERR_STATUS_WRITTEN from State.get_put_ne (by simp)]
  · rw [markBad_mem]
    exact poisonAt_elsewhere s g x hx

theorem markBad_corrected (s : State) (g : Nat) (e : LogEntry) : (s.markBad g e).get Reg.HLC_ECC_CORRECTED = s.get Reg.HLC_ECC_CORRECTED := by
  unfold State.markBad
  rw [logErr_get (by decide)]
  exact State.get_put_ne (s := s.poisonAt g) (by simp)

theorem markBad_rows (s : State) (g : Nat) (e : LogEntry) : (s.markBad g e).rowErr = s.rowErr ∧ (s.markBad g e).chambers = s.chambers := by
  unfold State.markBad
  rw [logErr_eq]
  exact ⟨rfl, rfl⟩

/-! ## What a controller's read finds (R210) -/

section finds

variable {s : State} {a f n : Nat} {bad : ReadBad}

/-- A read that finds its granule good, or poisoned already, counts its corrected words alone. -/
theorem readFinds_quiet (h : bad = .none ∨ s.poisoned (granuleOf a) = true) :
    s.readFinds a f n bad = s.correctedIn (s.bankKey f) (s.rowOf f) n := granuleBad_quiet h

theorem readFinds_bad (hb : bad ≠ .none) (hp : s.poisoned (granuleOf a) = false) :
    s.Corrects (s.readFinds a f n bad) f (s.rowOf f) n ∧ s.Poisons (s.readFinds a f n bad) (granuleOf a) := by
  obtain ⟨e, he⟩ := granuleBad_marks (s := s.correctedIn (s.bankKey f) (s.rowOf f) n) (source := 1) (unit := 0) hb hp
  have ht : s.readFinds a f n bad = (s.correctedIn (s.bankKey f) (s.rowOf f) n).markBad (granuleOf a) e := he
  obtain ⟨hrows, hch⟩ := markBad_rows (s.correctedIn (s.bankKey f) (s.rowOf f) n) (granuleOf a) e
  obtain ⟨hpoison, hcount, hlog, hmem⟩ := markBad_poisons (s.correctedIn (s.bankKey f) (s.rowOf f) n) (granuleOf a) e
  rw [ht]
  refine ⟨(correctedIn_corrects s f (s.rowOf f) n).after (markBad_corrected ..) hrows hch, hpoison, ?_, ?_, hmem⟩
  · rw [hcount, correctedIn_keeps s _ _ _ _ (by simp)]
  · rw [hlog, correctedIn_keeps s _ _ _ _ (by simp)]

/-- What a command that reads a granule through its controller counts, poisons and leaves (R210, R212). -/
def State.ReadBy (s : State) (c : ReadBad → Instr) (g f n : Nat) : Prop :=
  (Does (c .none) s fun t => s.Corrects t f (s.rowOf f) n ∧ t.mem = s.mem ∧ t.poison = s.poison ∧ s.KeepsFields t [Reg.HLC_ECC_CORRECTED]) ∧
  ∀ b, b ≠ ReadBad.none → s.poisoned g = false → Does (c b) s fun t => s.Corrects t f (s.rowOf f) n ∧ s.Poisons t g

/-- The heat of pages and the waits of claims bear on nothing that a read finds. -/
theorem readBy_of {c : ReadBad → Instr} {g : Nat} {heat : Map Nat} {cl : List Claim}
    (he : ∀ b, exec (c b) s = .next (({ s with heat := heat, claims := cl } : State).readFinds (256 * g) f n b)) : s.ReadBy c g f n := by
  have hg : granuleOf (256 * g) = g := Nat.mul_div_cancel_left g (by decide)
  refine ⟨⟨_, (he .none).trans (congrArg _ (readFinds_quiet (.inl rfl))), correctedIn_corrects { s with heat := heat, claims := cl } f (s.rowOf f) n, rfl, rfl,
    correctedIn_keeps { s with heat := heat, claims := cl } _ _ n⟩, fun b hb hp => ⟨_, he b, ?_⟩⟩
  have h := readFinds_bad (s := { s with heat := heat, claims := cl }) (a := 256 * g) (f := f) (n := n) hb (by rw [hg]; exact hp)
  rw [hg] at h
  exact h

end finds

theorem bondedAddr_some {s : State} {a f : Nat} (h : s.bondedAddr a = some f) :
    ∃ i, s.frameOf (pageOf a) = some (.bonded i) ∧ f = i * pageBytes + a % pageBytes := by
  unfold State.bondedAddr at h
  split at h
  · next i hi => exact ⟨i, hi, (Option.some.inj h).symm⟩
  · cases h

theorem passed_eq (s : State) (a : Nat) : s.passed a = { s with claims := (s.passed a).claims } := by
  unfold State.passed
  split <;> rfl

section reads

variable {s : State} {g : BitVec 40} {f : Nat}

theorem exec_bondedRead (n : BitVec 8) (b : ReadBad) (hc : s.claimed none (256 * g.toNat) = false) (hf : s.bondedAddr (256 * g.toNat) = some f) :
    exec (.bondedRead g n b) s = .next ((s.warm (256 * g.toNat)).readFinds (256 * g.toNat) f n.toNat b) := by
  obtain ⟨i, hi, rfl⟩ := bondedAddr_some hf
  have hw : (s.warm (256 * g.toNat)).frameOf (pageOf (256 * g.toNat)) = some (.bonded i) := by
    rw [warm_eq]
    exact hi
  show execBondedRead g n b s = _
  unfold execBondedRead
  dsimp only
  rw [hc, hi, if_neg (by decide), if_pos (show (some (Frame.bonded i)).isSome = true from rfl)]
  unfold State.granuleRead
  rw [hw]

theorem exec_patrolScrub (n : BitVec 8) (b : ReadBad) (hg : g.toNat < 2 ^ 39) (hc : s.claimed none (256 * g.toNat) = false)
    (hf : s.bondedAddr (256 * g.toNat) = some f) :
    exec (.patrolScrub g n b) s = .next ((s.passed (256 * g.toNat)).readFinds (256 * g.toNat) f n.toNat b) := by
  have hbit : g.getLsbD 39 = false := by
    rw [← bit_bv, bit, Nat.div_eq_of_lt hg]
    rfl
  show execPatrolScrub g n b s = _
  unfold execPatrolScrub
  rw [Nat.mod_eq_of_lt hg]
  dsimp only
  rw [hc, hbit, hf, if_neg (by decide), if_neg (by decide)]

/-- The command's bit 39 names the sidecar word of a granule (R212; log entry 79). -/
theorem exec_scrubSidecar (n : BitVec 8) (hg : g.toNat < 2 ^ 39) (hc : s.claimed none (256 * g.toNat) = false)
    (hf : s.bondedAddr (256 * g.toNat) = some f) : exec (.patrolScrub (g ||| BitVec.ofNat 40 (2 ^ 39)) n .none) s =
      .next ((s.passed (256 * g.toNat)).correctedIn (s.bankKey f) (s.sidecarRow (s.rowOf f)) n.toNat) := by
  have hval : (g ||| BitVec.ofNat 40 (2 ^ 39)).toNat % 2 ^ 39 = g.toNat := by
    rw [BitVec.toNat_or, BitVec.toNat_ofNat, Nat.mod_eq_of_lt (show 2 ^ 39 < 2 ^ 40 by decide), Nat.or_mod_two_pow, Nat.mod_self, Nat.or_zero,
      Nat.mod_eq_of_lt hg]
  have hbit : (g ||| BitVec.ofNat 40 (2 ^ 39)).getLsbD 39 = true := by
    rw [BitVec.getLsbD_or, Bool.or_eq_true]
    exact .inr (by decide)
  show execPatrolScrub _ n .none s = _
  unfold execPatrolScrub
  rw [hval]
  dsimp only
  rw [hc, hbit, hf, if_neg (by decide), if_pos rfl]
  dsimp only
  rw [passed_eq]
  rfl

theorem bondedRead_reads (n : BitVec 8) (hc : s.claimed none (256 * g.toNat) = false) (hf : s.bondedAddr (256 * g.toNat) = some f) :
    s.ReadBy (.bondedRead g n) g.toNat f n.toNat :=
  readBy_of fun b => (exec_bondedRead n b hc hf).trans (by rw [warm_eq])

theorem patrolScrub_reads (n : BitVec 8) (hg : g.toNat < 2 ^ 39) (hc : s.claimed none (256 * g.toNat) = false)
    (hf : s.bondedAddr (256 * g.toNat) = some f) : s.ReadBy (.patrolScrub g n) g.toNat f n.toNat :=
  readBy_of (heat := s.heat) fun b => (exec_patrolScrub n b hg hc hf).trans (by rw [passed_eq])

/-- A granule request that is served warms its page (R247). -/
theorem warm_heat (s : State) (a : Nat) : mapGet 0 (s.warm a).heat (pageOf a) = min (mapGet 0 s.heat (pageOf a) + 1) (2 ^ 16 - 1) := by
  refine (mapGet_set ..).trans ((if_pos rfl).trans ?_)
  rw [satAdd_eq, passed_eq]

theorem bondedRead_warms (n : BitVec 8) (hc : s.claimed none (256 * g.toNat) = false) (hf : s.bondedAddr (256 * g.toNat) = some f) :
    Does (.bondedRead g n .none) s fun t =>
      mapGet 0 t.heat (pageOf (256 * g.toNat)) = min (mapGet 0 s.heat (pageOf (256 * g.toNat)) + 1) (2 ^ 16 - 1) :=
  ⟨_, exec_bondedRead n .none hc hf, by rw [readFinds_quiet (.inl rfl)]; exact warm_heat ..⟩

theorem patrolScrub_cold (n : BitVec 8) (hg : g.toNat < 2 ^ 39) (hc : s.claimed none (256 * g.toNat) = false)
    (hf : s.bondedAddr (256 * g.toNat) = some f) : Does (.patrolScrub g n .none) s fun t => t.heat = s.heat :=
  ⟨_, exec_patrolScrub n .none hg hc hf, by rw [readFinds_quiet (.inl rfl), passed_eq]; rfl⟩

theorem scrubSidecar_counts (n : BitVec 8) (hg : g.toNat < 2 ^ 39) (hc : s.claimed none (256 * g.toNat) = false)
    (hf : s.bondedAddr (256 * g.toNat) = some f) : Does (.patrolScrub (g ||| BitVec.ofNat 40 (2 ^ 39)) n .none) s fun t =>
      t.mem = s.mem ∧ t.poison = s.poison ∧ t.heat = s.heat ∧ s.Corrects t f (s.sidecarRow (s.rowOf f)) n.toNat ∧
      s.KeepsFields t [Reg.HLC_ECC_CORRECTED] := by
  obtain ⟨cl, hcl⟩ : ∃ cl, s.passed (256 * g.toNat) = { s with claims := cl } := ⟨_, passed_eq ..⟩
  refine ⟨_, exec_scrubSidecar n hg hc hf, ?_⟩
  rw [hcl]
  exact ⟨rfl, rfl, rfl, correctedIn_corrects { s with claims := cl } f (s.sidecarRow (s.rowOf f)) n.toNat, correctedIn_keeps { s with claims := cl } _ _ _⟩

end reads

end Sys2Proof.Machine
end

section
/-! Whole writes and merges of the bonded tier (R207, R210, R211): what a write that may go on stores, and what becomes of one onto poison. -/

namespace Sys2Proof.Machine

open Sys2Proof

/-! ## A write that nothing holds back -/

theorem State.BondedOpen.unclaimed {s : State} {a : Nat} (h : s.BondedOpen a) : s.claimed none a = false := by
  obtain ⟨-, -, -, -, -, hclaim, -⟩ := h
  exact hclaim

theorem State.BondedOpen.bonded {s : State} {a : Nat} (h : s.BondedOpen a) : s.onCart a = false := by
  obtain ⟨-, -, hcart, -⟩ := h
  exact hcart

section write

variable {s : State} {a : Nat} {bs : List Byte}

/-- A store outside the cartridges counts no elided granule. -/
theorem storeAs_bonded (whole : Bool) (h : s.onCart a = false) : ∃ nz mq, s.storeAs whole a bs = { s with
    mem := memWrite s.mem a bs, poison := if whole then mapSet false s.poison (granuleOf a) false else s.poison, nonzero := nz, mirrorQ := mq } := by
  unfold State.storeAs State.noteMirror
  dsimp only
  rw [h, Bool.and_false, if_neg Bool.false_ne_true]
  cases whole
  · rw [if_neg Bool.false_ne_true, if_neg Bool.false_ne_true]
    split <;> exact ⟨_, _, rfl⟩
  · rw [if_pos (rfl : true = true), if_pos (rfl : true = true)]
    split <;> exact ⟨_, _, rfl⟩

theorem writeAs_open {whole : Bool} (h : s.BondedOpen a) (hb : bs ≠ []) (hp : whole = true ∨ s.poisoned (granuleOf a) = false) :
    s.writeAs 3 false whole a bs = (.done, (s.warm a).storeAs whole a bs) := by
  obtain ⟨hpop, hframe, -, hseal, hpeer, -⟩ := h
  have hpart : (s.poisoned (granuleOf a) && !whole) = false := by
    obtain rfl | hp := hp
    · exact Bool.and_false _
    · rw [hp, Bool.false_and]
  unfold State.writeAs
  rw [if_neg hb, hseal, hpop, hpeer, hpart, hframe]
  rfl

/-- Bytes that lie in one granule go there in one access. -/
theorem write_one {r : WriteEnd} {t : State} (hb : bs ≠ []) (hfit : a % 256 + bs.length ≤ 256) (h : s.engineWriteIn 3 a bs = (r, t)) :
    s.write 3 a bs = (decide (r = .poisoned), t) := by
  have htake : bs.take (256 - a % 256) = bs := List.take_of_length_le (by omega)
  have hdrop : bs.drop (256 - a % 256) = [] := List.drop_of_length_le (by omega)
  unfold State.write
  rw [show bs.length / 256 + 2 = bs.length / 256 + 1 + 1 from rfl]
  unfold State.writeFuel
  rw [if_neg hb]
  dsimp only
  rw [htake, hdrop, h]
  dsimp only
  unfold State.writeFuel
  rw [if_pos rfl, Bool.or_false]

theorem bondedWrite_open (h : s.BondedOpen a) (hb : bs ≠ []) (hfit : a % 256 + bs.length ≤ 256)
    (hp : wholeGranule a bs = true ∨ s.poisoned (granuleOf a) = false) : s.bondedWrite a bs = (s.warm a).storeAs (wholeGranule a bs) a bs := by
  have hwrite := writeAs_open h hb hp
  obtain ⟨-, -, hcart, -, -, hclaim, hlines⟩ := h
  have hin : s.engineWriteIn 3 a bs = (.done, (s.warm a).storeAs (wholeGranule a bs) a bs) := by
    unfold State.engineWriteIn State.writeIn
    dsimp only
    rw [enterBank_free (claimed_false hclaim), backInvalidate_none hlines, hwrite]
    rfl
  unfold State.bondedWrite State.writeLogged
  rw [hcart, hclaim, if_neg Bool.false_ne_true, if_neg Bool.false_ne_true, write_one hb hfit hin]
  rfl

/-- All that a write of the bonded tier changes where nothing holds it back. -/
theorem bondedWrite_eq (h : s.BondedOpen a) (hb : bs ≠ []) (hfit : a % 256 + bs.length ≤ 256)
    (hp : wholeGranule a bs = true ∨ s.poisoned (granuleOf a) = false) : ∃ heat cl nz mq, s.bondedWrite a bs = { s with
      mem := memWrite s.mem a bs, poison := if wholeGranule a bs then mapSet false s.poison (granuleOf a) false else s.poison
      heat := heat, claims := cl, nonzero := nz, mirrorQ := mq } := by
  obtain ⟨heat, cl, hw⟩ : ∃ heat cl, s.warm a = { s with heat := heat, claims := cl } := ⟨_, _, warm_eq s a⟩
  have hcart : ({ s with heat := heat, claims := cl } : State).onCart a = false := h.bonded
  obtain ⟨nz, mq, hstore⟩ := storeAs_bonded (bs := bs) (wholeGranule a bs) hcart
  rw [bondedWrite_open h hb hfit hp, hw]
  exact ⟨heat, cl, nz, mq, hstore⟩

end write

/-! ## A partial write onto a poisoned granule (R211) -/

section refused

variable {s : State} {a : Nat} {bs : List Byte}

/-- Memory and its marks of poison are the same. -/
def State.SameData (s t : State) : Prop := t.mem = s.mem ∧ t.poison = s.poison

theorem State.SameData.trans {s t u : State} (h : s.SameData t) (k : t.SameData u) : s.SameData u := ⟨k.1.trans h.1, k.2.trans h.2⟩

theorem sameData_ite {s t u : State} {p : Prop} [Decidable p] (ht : s.SameData t) (hu : s.SameData u) : s.SameData (if p then t else u) := by
  split <;> assumption

theorem sameData_violGlb (agent kind x : Nat) : s.SameData (s.violGlb agent kind x) := by
  unfold State.SameData State.violGlb
  rw [violate_eq]
  exact ⟨rfl, rfl⟩

theorem sameData_warm : s.SameData (s.warm a) := by
  unfold State.SameData
  rw [warm_eq]
  exact ⟨rfl, rfl⟩

theorem sameData_logErr (e : LogEntry) : s.SameData (s.logErr e) := by
  unfold State.SameData
  rw [logErr_eq]
  exact ⟨rfl, rfl⟩

theorem sameData_enterBank : s.SameData (s.enterBank a) := by
  unfold State.enterBank
  split
  · split <;> exact ⟨rfl, rfl⟩
  · exact ⟨rfl, rfl⟩

theorem sameData_dropLines (ls : List Nat) : ∀ s : State, s.SameData (ls.foldl State.dropLine s) := by
  induction ls with
  | nil => exact fun _ => ⟨rfl, rfl⟩
  | cons l ls ih => exact fun s => State.SameData.trans (t := s.dropLine l) ⟨rfl, rfl⟩ (ih _)

theorem sameData_backInvalidate (g : Nat) (whole : Bool) : s.SameData (s.backInvalidate g whole) := by
  unfold State.backInvalidate
  dsimp only
  split
  · exact ⟨rfl, rfl⟩
  · exact (sameData_dropLines _ s).trans ⟨rfl, rfl⟩

theorem sameData_noteWaiting : s.SameData (s.noteWaiting none a) := by
  unfold State.noteWaiting
  split <;> exact ⟨rfl, rfl⟩

theorem writeAs_refused (agent : Nat) (hp : s.poisoned (granuleOf a) = true) :
    ∃ r t, s.writeAs agent false false a bs = (r, t) ∧ r ≠ .noFrame ∧ s.SameData t := by
  unfold State.writeAs
  split
  · exact ⟨_, _, rfl, by decide, rfl, rfl⟩
  split
  · exact ⟨_, _, rfl, by decide, sameData_violGlb ..⟩
  split
  · exact ⟨_, _, rfl, by decide, sameData_violGlb ..⟩
  split
  · exact ⟨_, _, rfl, by decide, sameData_violGlb ..⟩
  rw [hp]
  exact ⟨_, _, rfl, by decide, sameData_warm⟩

theorem engineWriteIn_refused (hpart : wholeGranule a bs = false) (hp : s.poisoned (granuleOf a) = true) : s.SameData (s.engineWriteIn 3 a bs).2 := by
  unfold State.engineWriteIn State.writeIn
  dsimp only
  rw [hpart]
  have hbi : s.SameData ((s.enterBank a).backInvalidate (granuleOf a) (decide (a % 256 = 0) && decide (bs.length = 256))) :=
    sameData_enterBank.trans (sameData_backInvalidate ..)
  obtain ⟨r, t, hw, hr, ht⟩ := writeAs_refused (bs := bs) 3 (show State.poisoned _ (granuleOf a) = true by
    unfold State.poisoned at hp ⊢
    rw [hbi.2]
    exact hp)
  rw [hw]
  dsimp only
  rw [if_neg hr]
  exact hbi.trans ht

/-- A partial write onto a poisoned granule changes no byte and no poison, whatever else becomes of it. -/
theorem bondedWrite_refused (hb : bs ≠ []) (hfit : a % 256 + bs.length ≤ 256) (hpart : wholeGranule a bs = false)
    (hp : s.poisoned (granuleOf a) = true) : s.SameData (s.bondedWrite a bs) := by
  have hin := engineWriteIn_refused hpart hp
  have hlog : s.SameData (s.writeLogged 1 a bs) := by
    rcases e : s.engineWriteIn 3 a bs with ⟨r, t⟩
    rw [e] at hin
    unfold State.writeLogged
    rw [write_one hb hfit e]
    exact sameData_ite (State.SameData.trans hin (sameData_logErr _)) hin
  exact sameData_ite ⟨rfl, rfl⟩ (sameData_ite sameData_noteWaiting hlog)

theorem serves_bondedWrite (s : State) (a : Nat) (bs : List Byte) : State.Serves AccessKey s (s.bondedWrite a bs) := by
  have hnote : State.Serves AccessKey s (s.noteWaiting none a) := by
    unfold State.noteWaiting
    split
    · exact ⟨⟨rfl, rfl, fun _ _ => rfl⟩, rfl⟩
    · exact .refl _ s
  exact serves_ite (.refl _ s) (serves_ite hnote (serves_writeLogged s 1 a bs))

end refused

/-! ## The commands -/

/-- Counts of corrected words bear on nothing that holds a write back. -/
theorem bondedOpen_corrected {s : State} {a : Nat} (bank row n : Nat) (h : s.BondedOpen a) : (s.correctedIn bank row n).BondedOpen a := by
  have hmap : s.SameMap (s.correctedIn bank row n) := fun f hf hl => correctedIn_keeps s bank row n f (by
    simp only [List.map_cons, List.map_nil, List.mem_singleton, FieldRef.key, Reg.HLC_ECC_CORRECTED]
    omega)
  have hclaim : (s.correctedIn bank row n).blockingClaim none a = s.blockingClaim none a := by
    unfold State.blockingClaim State.segmentOf State.bankOf State.layerOf State.segChunk State.chunksPerSegment
    rw [hmap Reg.GLB_ID_LAYERS (by decide) (by decide)]
    rfl
  obtain ⟨hpop, hframe, hcart, hseal, hpeer, hcl, hlines⟩ := h
  refine ⟨(hmap.populated rfl rfl a).trans hpop, hframe, hcart, hseal, (hmap.peerClosed a).trans hpeer, ?_, hlines⟩
  unfold State.claimed
  rw [hclaim]
  exact hcl

/-- A granule written whole is good (R211). -/
theorem bondedWrite_writes {s : State} {g : BitVec 40} {data : List Byte} (h : s.BondedOpen (256 * g.toNat)) (hl : data.length = 256) :
    Does (.bondedWrite g data) s fun t => s.Stores t (256 * g.toNat) data ∧ (∀ x, t.poisoned x = if x = g.toNat then false else s.poisoned x) ∧
      t.chambers = s.chambers ∧ s.KeepsFields t [] := by
  have hfit : fitBytes 256 data = data := by
    unfold fitBytes
    rw [← hl, List.take_left]
  have hwhole : wholeGranule (256 * g.toNat) data = true := by
    unfold wholeGranule
    rw [hl, Nat.mul_mod_right]
    rfl
  have hne : data ≠ [] := List.ne_nil_of_length_pos (by omega)
  have he : exec (.bondedWrite g data) s = .next (s.bondedWrite (256 * g.toNat) data) := by
    show Host.Outcome.next (s.bondedWrite (256 * g.toNat) (fitBytes 256 data)) = _
    rw [hfit]
  obtain ⟨heat, cl, nz, mq, heq⟩ := bondedWrite_eq h hne (by omega) (.inl hwhole)
  have hg : granuleOf (256 * g.toNat) = g.toNat := Nat.mul_div_cancel_left _ (by decide)
  refine ⟨_, he, ?_⟩
  rw [heq, hwhole, hg, if_pos (rfl : true = true)]
  refine ⟨fun b => memByte_write .., fun x => ?_, rfl, fun _ _ => rfl⟩
  unfold State.poisoned
  dsimp only
  rw [mapGet_set]

section merge

variable {s : State} {g : BitVec 40} {m : MergeRead} {f : Nat} {data : List Byte}

/-- The bytes of a merge lie in its granule and do not fill it. -/
def MergeFits (m : MergeRead) (data : List Byte) : Prop := data ≠ [] ∧ m.off.toNat + data.length ≤ 256 ∧ data.length < 256

theorem exec_partialWriteMerge (hc : s.claimed none (256 * g.toNat) = false) (hf : s.bondedAddr (256 * g.toNat) = some f) (hfit : MergeFits m data) :
    exec (.partialWriteMerge g m data) s =
      .next ((s.readFinds (256 * g.toNat) f m.corrected.toNat m.bad).bondedWrite (256 * g.toNat + m.off.toNat) data) := by
  obtain ⟨-, hlen, -⟩ := hfit
  show execPartialWriteMerge g m data s = _
  unfold execPartialWriteMerge
  dsimp only
  rw [hf, hc, List.take_of_length_le (by omega)]
  rfl

theorem merge_granule (hfit : MergeFits m data) : granuleOf (256 * g.toNat + m.off.toNat) = g.toNat ∧
    (256 * g.toNat + m.off.toNat) % 256 + data.length ≤ 256 ∧ wholeGranule (256 * g.toNat + m.off.toNat) data = false := by
  obtain ⟨hne, hlen, hpart⟩ := hfit
  have hpos := List.length_pos_of_ne_nil hne
  refine ⟨?_, by omega, ?_⟩
  · unfold granuleOf
    omega
  · unfold wholeGranule
    rw [decide_eq_false (Nat.ne_of_lt hpart), Bool.and_false]

/-- A merge whose old granule is good changes its bytes alone (R207). -/
theorem merge_stores (ho : s.BondedOpen (256 * g.toNat)) (hoff : s.BondedOpen (256 * g.toNat + m.off.toNat)) (hf : s.bondedAddr (256 * g.toNat) = some f)
    (hfit : MergeFits m data) (hp : s.poisoned g.toNat = false) (hbad : m.bad = .none) : Does (.partialWriteMerge g m data) s fun t =>
      s.Corrects t f (s.rowOf f) m.corrected.toNat ∧ s.Stores t (256 * g.toNat + m.off.toNat) data ∧ t.poison = s.poison ∧
      s.KeepsFields t [Reg.HLC_ECC_CORRECTED] := by
  obtain ⟨hg, hin, hpart⟩ := merge_granule hfit
  have hgood : s.readFinds (256 * g.toNat) f m.corrected.toNat m.bad = s.correctedIn (s.bankKey f) (s.rowOf f) m.corrected.toNat :=
    readFinds_quiet (.inl hbad)
  have hp' : (s.correctedIn (s.bankKey f) (s.rowOf f) m.corrected.toNat).poisoned (granuleOf (256 * g.toNat + m.off.toNat)) = false := by
    rw [hg]
    exact hp
  obtain ⟨heat, cl, nz, mq, heq⟩ := bondedWrite_eq (bondedOpen_corrected _ _ _ hoff) hfit.1 hin (.inr hp')
  refine ⟨_, exec_partialWriteMerge ho.unclaimed hf hfit, ?_⟩
  rw [hgood, heq, hpart]
  exact ⟨(correctedIn_corrects s f (s.rowOf f) m.corrected.toNat).after rfl rfl rfl, fun b => memByte_write .., rfl,
    (correctedIn_keeps s (s.bankKey f) (s.rowOf f) m.corrected.toNat).of_fields rfl rfl rfl⟩

/-- What a merge counts is not undone by the write that follows. -/
theorem merge_after {t : State} (a : Nat) (h : s.Corrects t f (s.rowOf f) m.corrected.toNat) :
    s.Corrects (t.bondedWrite a data) f (s.rowOf f) m.corrected.toNat := by
  have hs := serves_bondedWrite t a data
  exact h.after (hs.get (by simp [AccessKey, LogKeys])) (by rw [hs.2]) (by rw [hs.2])

/-- A merge that finds its old granule bad poisons it and drops its bytes (R210, R211). -/
theorem merge_poisons (ho : s.BondedOpen (256 * g.toNat)) (hf : s.bondedAddr (256 * g.toNat) = some f) (hfit : MergeFits m data)
    (hp : s.poisoned g.toNat = false) (hbad : m.bad ≠ .none) : Does (.partialWriteMerge g m data) s fun t =>
      s.Corrects t f (s.rowOf f) m.corrected.toNat ∧ (∀ x, t.poisoned x = if x = g.toNat then true else s.poisoned x) ∧
      t.get Reg.HLC_ECC_POISONED = min (s.get Reg.HLC_ECC_POISONED + 1) (2 ^ 32 - 1) ∧ ∀ x, x / 256 ≠ g.toNat → memByte t.mem x = memByte s.mem x := by
  obtain ⟨hg, hin, hpart⟩ := merge_granule hfit
  have hg0 : granuleOf (256 * g.toNat) = g.toNat := Nat.mul_div_cancel_left _ (by decide)
  obtain ⟨hcorr, hpoison, hcount, -, hmem⟩ := readFinds_bad (a := 256 * g.toNat) (f := f) (n := m.corrected.toNat) hbad (by rw [hg0]; exact hp)
  rw [hg0] at hpoison hmem
  have hp' : (s.readFinds (256 * g.toNat) f m.corrected.toNat m.bad).poisoned (granuleOf (256 * g.toNat + m.off.toNat)) = true := by
    rw [hg, hpoison, if_pos rfl]
  obtain ⟨hsame, hsamep⟩ := bondedWrite_refused hfit.1 hin hpart hp'
  refine ⟨_, exec_partialWriteMerge ho.unclaimed hf hfit, merge_after _ hcorr, fun x => ?_, ?_, fun x hx => ?_⟩
  · unfold State.poisoned
    rw [hsamep]
    exact hpoison x
  · exact ((serves_bondedWrite _ _ _).get (by simp [AccessKey, LogKeys])).trans hcount
  · rw [hsame]
    exact hmem x hx

theorem merge_dropped (ho : s.BondedOpen (256 * g.toNat)) (hf : s.bondedAddr (256 * g.toNat) = some f) (hfit : MergeFits m data)
    (hp : s.poisoned g.toNat = true) : Does (.partialWriteMerge g m data) s fun t => t.mem = s.mem ∧ t.poison = s.poison ∧ t.chambers = s.chambers := by
  obtain ⟨hg, hin, hpart⟩ := merge_granule hfit
  have hg0 : granuleOf (256 * g.toNat) = g.toNat := Nat.mul_div_cancel_left _ (by decide)
  have hquiet : s.readFinds (256 * g.toNat) f m.corrected.toNat m.bad = s.correctedIn (s.bankKey f) (s.rowOf f) m.corrected.toNat :=
    readFinds_quiet (.inr (by rw [hg0]; exact hp))
  have hp' : (s.correctedIn (s.bankKey f) (s.rowOf f) m.corrected.toNat).poisoned (granuleOf (256 * g.toNat + m.off.toNat)) = true := by
    rw [hg]
    exact hp
  obtain ⟨hsame, hsamep⟩ := bondedWrite_refused hfit.1 hin hpart hp'
  refine ⟨_, exec_partialWriteMerge ho.unclaimed hf hfit, ?_⟩
  rw [hquiet]
  refine ⟨hsame, hsamep, ?_⟩
  rw [(serves_bondedWrite _ _ _).2]
  rfl

end merge

end Sys2Proof.Machine
end

section
/-! Refreshes, temperatures and row moves of the bonded tier (R203, R208, R209, R213), and O37 from them and from the controllers' accesses. -/

namespace Sys2Proof.Machine

open Sys2Proof

/-! ## Refresh (R208) -/

theorem refresh_owes (s : State) (seg : Fin 1152) (bank : Fin 16) : Does (.refresh seg bank) s fun t =>
    t = { s with refreshOwed := t.refreshOwed } ∧ ∀ k, mapGet 0 t.refreshOwed k =
      if k = seg.val * 16 + bank.val ∧ s.holdsRow seg bank = true then min 4 (mapGet 0 s.refreshOwed k + 1) else mapGet 0 s.refreshOwed k := by
  by_cases hh : s.holdsRow seg bank = true
  · refine ⟨_, congrArg Host.Outcome.next (if_pos hh), rfl, fun k => (mapGet_set ..).trans ?_⟩
    exact if_ctx_congr (and_iff_left hh).symm (fun hk => by rw [hk.1]) fun _ => rfl
  · exact ⟨_, congrArg Host.Outcome.next (if_neg hh), rfl, fun k => (if_neg fun h => hh h.2).symm⟩

/-! ## Temperature (R209) -/

theorem hottest_succ (n : Nat) (m : Map Nat) : hottest (n + 1) m = if mapGet 0 m (hottest n m) < mapGet 0 m n then n else hottest n m := by
  unfold hottest
  rw [List.range_succ, List.foldl_append]
  rfl

/-- The hottest layer is one of the stack, and none of the stack is hotter. -/
theorem hottest_max (m : Map Nat) (n : Nat) : hottest (n + 1) m < n + 1 ∧ ∀ i < n + 1, mapGet 0 m i ≤ mapGet 0 m (hottest (n + 1) m) := by
  induction n with
  | zero =>
    have h0 : hottest 1 m = 0 := (hottest_succ 0 m).trans (ite_self _)
    refine ⟨h0.trans_lt Nat.one_pos, fun i hi => ?_⟩
    rw [Nat.zero_add, h0, Nat.lt_one_iff.mp hi]
  | succ n ih =>
    obtain ⟨hlt, hmax⟩ := ih
    have hcase : ∀ i < n + 1 + 1, i < n + 1 ∨ i = n + 1 := fun i hi => by omega
    rw [hottest_succ]
    split
    · next hn =>
      refine ⟨by omega, fun i hi => ?_⟩
      obtain hi | rfl := hcase i hi
      · exact (hmax i hi).trans (Nat.le_of_lt hn)
      · exact Nat.le_refl _
    · next hn =>
      refine ⟨by omega, fun i hi => ?_⟩
      obtain hi | rfl := hcase i hi
      · exact hmax i hi
      · exact Nat.le_of_not_lt hn

/-- The layers that refresh at the doubled rate once a layer's temperature is `deg` sixteenths of a degree. -/
def hotLayers (hot layer deg : Nat) : Nat :=
  if 85 * 16 < deg then setBits hot layer layer 1 else if deg < 82 * 16 then setBits hot layer layer 0 else hot

theorem bit_hotLayers (hot layer deg i : Nat) : bit (hotLayers hot layer deg) i =
    if i = layer then decide (85 * 16 < deg) || (!decide (deg < 82 * 16) && bit hot i) else bit hot i := by
  unfold hotLayers
  by_cases hup : 85 * 16 < deg
  · rw [if_pos hup, bit_setBits, decide_eq_true hup, Bool.true_or]
    rfl
  · rw [if_neg hup, decide_eq_false hup, Bool.false_or]
    by_cases hdown : deg < 82 * 16
    · rw [if_pos hdown, bit_setBits, decide_eq_true hdown, Bool.not_true, Bool.false_and]
      rfl
    · rw [if_neg hdown, decide_eq_false hdown, Bool.not_false, Bool.true_and, ite_self]

/-- What a temperature that a layer of the part reports changes. -/
def State.Warms (s t : State) (layer : Fin 12) (deg : BitVec 12) : Prop :=
  (∀ i < 12, bit (t.get Reg.HLC_TEMP_HOT_LAYERS) i =
    if i = layer.val then decide (85 * 16 < deg.toNat) || (!decide (deg.toNat < 82 * 16) && bit (s.get Reg.HLC_TEMP_HOT_LAYERS) i)
    else bit (s.get Reg.HLC_TEMP_HOT_LAYERS) i) ∧
  (∀ i, mapGet 0 t.layerTemp i = if i = layer.val then deg.toNat else mapGet 0 s.layerTemp i) ∧
  t.get Reg.HLC_TEMP_LAYER < s.get Reg.GLB_ID_LAYERS ∧ t.get Reg.HLC_TEMP_DEG = mapGet 0 t.layerTemp (t.get Reg.HLC_TEMP_LAYER) % 2 ^ 12 ∧
  (∀ i < s.get Reg.GLB_ID_LAYERS, mapGet 0 t.layerTemp i ≤ mapGet 0 t.layerTemp (t.get Reg.HLC_TEMP_LAYER)) ∧
  s.KeepsFields t [Reg.HLC_TEMP_HOT_LAYERS, Reg.HLC_TEMP_LAYER, Reg.HLC_TEMP_DEG] ∧ t = { s with fields := t.fields, layerTemp := t.layerTemp }

theorem refreshRate_absent {s : State} {layer : Fin 12} (deg : BitVec 12) (h : s.get Reg.GLB_ID_LAYERS ≤ layer.val) :
    exec (.refreshRateChange layer deg) s = .next s := congrArg Host.Outcome.next (if_pos h)

theorem refreshRate_warms {s : State} {layer : Fin 12} (deg : BitVec 12) (h12 : s.get Reg.GLB_ID_LAYERS ≤ 12) (h : layer.val < s.get Reg.GLB_ID_LAYERS) :
    Does (.refreshRateChange layer deg) s fun t => s.Warms t layer deg := by
  let m := mapSet 0 s.layerTemp layer.val deg.toNat
  let top := hottest (s.get Reg.GLB_ID_LAYERS) m
  let l := [(Reg.HLC_TEMP_HOT_LAYERS, hotLayers (s.get Reg.HLC_TEMP_HOT_LAYERS) layer.val deg.toNat), (Reg.HLC_TEMP_LAYER, top),
    (Reg.HLC_TEMP_DEG, mapGet 0 m top)]
  have he : exec (.refreshRateChange layer deg) s = .next (({ s with layerTemp := m } : State).puts l) :=
    congrArg Host.Outcome.next (if_neg (Nat.not_le.mpr h))
  have hget : ∀ e ∈ l, (({ s with layerTemp := m } : State).puts l).get e.1 = e.2 % 2 ^ e.1.w := puts_get l (by simp [l]) _
  have hkeep : s.KeepsFields (({ s with layerTemp := m } : State).puts l) [Reg.HLC_TEMP_HOT_LAYERS, Reg.HLC_TEMP_LAYER, Reg.HLC_TEMP_DEG] :=
    State.KeepsFields.puts l ((keeps_refl s _).of_fields rfl rfl rfl) (by simp [l])
  have heq := puts_eq ({ s with layerTemp := m } : State) l
  obtain ⟨n, hn⟩ : ∃ n, s.get Reg.GLB_ID_LAYERS = n + 1 := ⟨s.get Reg.GLB_ID_LAYERS - 1, by omega⟩
  obtain ⟨hlt, hmax⟩ : top < s.get Reg.GLB_ID_LAYERS ∧ ∀ i < s.get Reg.GLB_ID_LAYERS, mapGet 0 m i ≤ mapGet 0 m top := by
    simp only [top]
    rw [hn]
    exact hottest_max m n
  have htop : (({ s with layerTemp := m } : State).puts l).get Reg.HLC_TEMP_LAYER = top := by
    refine (hget (Reg.HLC_TEMP_LAYER, top) (by simp [l])).trans (Nat.mod_eq_of_lt ?_)
    exact Nat.lt_of_lt_of_le (by omega) (show 12 ≤ 2 ^ 4 by decide)
  have hm : (({ s with layerTemp := m } : State).puts l).layerTemp = m := by rw [heq]
  refine ⟨_, he, fun i hi => ?_, fun i => ?_, ?_, ?_, ?_, hkeep, ?_⟩
  · rw [hget _ List.mem_cons_self]
    exact (bit_mod hi).trans (bit_hotLayers ..)
  · rw [hm]
    exact mapGet_set ..
  · rw [htop]
    exact hlt
  · rw [htop, hm]
    exact hget (Reg.HLC_TEMP_DEG, mapGet 0 m top) (by simp [l])
  · rw [htop, hm]
    exact hmax
  · rw [heq]

/-! ## Row moves (R203, R213) -/

theorem spareRows_eq (s : State) : s.spareRows = if s.get Reg.GLB_ID_LAYERS = 12 then 198 else 140 := by
  unfold State.spareRows State.firstSpare
  split <;> rfl

/-- A row of a bank moved to its next spare row, its errors counted anew. -/
def State.moveRow (s : State) (b row : Nat) : State :=
  let u : State := { s with rowMoved := mapSet 0 s.rowMoved b (mapGet 0 s.rowMoved b + 1), rowErr := mapSet 0 s.rowErr (rowKey b row) 0 }
  (u.count Reg.HLC_REPAIR_MOVED 1).put Reg.HLC_REPAIR_MIN_FREE
    (min (s.get Reg.HLC_REPAIR_MIN_FREE) (s.spareRows - (mapGet 0 s.rowMoved b + 1)))

/-- What a row's move counts. -/
def State.MovesRow (s t : State) (b row : Nat) : Prop :=
  let used := mapGet 0 s.rowMoved b
  mapGet 0 t.rowMoved b = used + 1 ∧ mapGet 0 t.rowErr (rowKey b row) = 0 ∧
  t.get Reg.HLC_REPAIR_MOVED = (s.get Reg.HLC_REPAIR_MOVED + 1) % 2 ^ Reg.HLC_REPAIR_MOVED.w ∧
  t.get Reg.HLC_REPAIR_MIN_FREE =
    min (s.get Reg.HLC_REPAIR_MIN_FREE) ((if s.get Reg.GLB_ID_LAYERS = 12 then 198 else 140) - (used + 1)) % 2 ^ Reg.HLC_REPAIR_MIN_FREE.w ∧
  t.mem = s.mem ∧ t.chambers = s.chambers

theorem moveRow_moves (s : State) (b row : Nat) : s.MovesRow (s.moveRow b row) b row := by
  have hmoved : (s.moveRow b row).rowMoved = mapSet 0 s.rowMoved b (mapGet 0 s.rowMoved b + 1) := rfl
  have herr : (s.moveRow b row).rowErr = mapSet 0 s.rowErr (rowKey b row) 0 := rfl
  refine ⟨?_, ?_, (State.get_put_ne (by simp)).trans State.get_put_eq, ?_, rfl, rfl⟩
  · rw [hmoved, mapGet_set, if_pos rfl]
  · rw [herr, mapGet_set, if_pos rfl]
  rw [← spareRows_eq]
  exact State.get_put_eq

theorem moveRow_keeps (s : State) (b row : Nat) : s.KeepsFields (s.moveRow b row) [Reg.HLC_REPAIR_MOVED, Reg.HLC_REPAIR_MIN_FREE] := by
  unfold State.moveRow State.count
  have hu : s.KeepsFields { s with rowMoved := mapSet 0 s.rowMoved b (mapGet 0 s.rowMoved b + 1), rowErr := mapSet 0 s.rowErr (rowKey b row) 0 }
      [Reg.HLC_REPAIR_MOVED, Reg.HLC_REPAIR_MIN_FREE] := fun _ _ => rfl
  exact (hu.put (by simp)).put (by simp)

theorem exhaust_exhausts (s : State) (seg bank : Nat) : (s.exhaust seg bank).get Reg.HLC_REPAIR_EXHAUSTED = 1 ∧
    (s.exhaust seg bank).get Reg.ERR_STATUS_WRITTEN = (s.get Reg.ERR_STATUS_WRITTEN + 1) % 2 ^ 32 := by
  unfold State.exhaust
  refine ⟨(logErr_get (by decide)).trans State.get_put_eq, (logErr_written _ _).trans ?_⟩
  rw [State.get_put_ne (by simp)]

/-- The row that exhausts its bank is moved as any other. -/
theorem exhaust_moves {s t : State} {b row : Nat} (h : s.MovesRow t b row) (seg bank : Nat) : s.MovesRow (t.exhaust seg bank) b row := by
  obtain ⟨hmoved, herr, hcount, hfree, hmem, hch⟩ := h
  have hget : ∀ f : FieldRef, f.key < 0x6800000 * 64 → f.key ≠ Reg.HLC_REPAIR_EXHAUSTED.key → (t.exhaust seg bank).get f = t.get f :=
    fun f hf hk => (logErr_get (.inl hf)).trans (State.get_put_ne hk)
  obtain ⟨fs, irq, heq⟩ : ∃ fs irq, t.exhaust seg bank = { t with fields := fs, irq := irq } := by
    unfold State.exhaust
    rw [logErr_eq]
    exact ⟨_, _, rfl⟩
  have hcount' := (hget Reg.HLC_REPAIR_MOVED (by decide) (by simp)).trans hcount
  have hfree' := (hget Reg.HLC_REPAIR_MIN_FREE (by decide) (by simp)).trans hfree
  rw [heq] at hcount' hfree' ⊢
  exact ⟨hmoved, herr, hcount', hfree', hmem, hch⟩

section rowMove

variable {s : State} {seg : Fin 1152} {bank : Fin 16} {row : Fin 2048}

theorem exec_rowMove : exec (.rowMove seg bank row) s = .next (
    let b := seg.val * 16 + bank.val
    let u := s.moveRow b row.val
    if mapGet 0 s.rowErr (rowKey b row.val) < 16 || s.holdsRow seg.val bank.val then s
    else if mapGet 0 s.rowMoved b < s.spareRows then
      if mapGet 0 s.rowMoved b + 1 = u.spareRows then u.exhaust seg.val bank.val else u
    else s) := rfl

theorem moveRow_spareRows (b r : Nat) : (s.moveRow b r).spareRows = s.spareRows := by
  rw [spareRows_eq, spareRows_eq, moveRow_keeps s b r _ (by simp)]

theorem rowMove_stays (h : mapGet 0 s.rowErr (rowKey (seg.val * 16 + bank.val) row.val) < 16 ∨ s.holdsRow seg bank = true ∨
    s.spareRows ≤ mapGet 0 s.rowMoved (seg.val * 16 + bank.val)) : exec (.rowMove seg bank row) s = .next s := by
  rw [exec_rowMove]
  dsimp only
  refine congrArg _ ?_
  split
  · rfl
  · next hno =>
    rw [Bool.or_eq_true, decide_eq_true_eq, not_or] at hno
    exact if_neg (Nat.not_lt.mpr ((h.resolve_left hno.1).resolve_left hno.2))

theorem rowMove_goes (he : 16 ≤ mapGet 0 s.rowErr (rowKey (seg.val * 16 + bank.val) row.val)) (hh : s.holdsRow seg bank = false)
    (hu : mapGet 0 s.rowMoved (seg.val * 16 + bank.val) < s.spareRows) : exec (.rowMove seg bank row) s =
      .next (if mapGet 0 s.rowMoved (seg.val * 16 + bank.val) + 1 = s.spareRows then
        (s.moveRow (seg.val * 16 + bank.val) row.val).exhaust seg.val bank.val else s.moveRow (seg.val * 16 + bank.val) row.val) := by
  rw [exec_rowMove]
  dsimp only
  rw [decide_eq_false (Nat.not_lt.mpr he), hh, if_neg (by decide), if_pos hu, moveRow_spareRows]

end rowMove

/-- Settles O37: reads and scrubs by what a controller finds, writes and merges by what they store, and refreshes, temperatures and row moves by their
lemmas above. That the errors are operands and a bad granule's bytes are open (log entries 5 and 32), where a moved row's count starts and which move
exhausts a bank (log entry 33), and the command's bit 39 with the sidecar row it names (log entry 79) are the model's choices. -/
theorem bondedControllers : Obligations.BondedControllers := by
  unfold Obligations.BondedControllers
  intro s
  refine ⟨fun g n f hg hc hf => ⟨?_, bondedRead_warms 0 hc hf, patrolScrub_cold 0 hg hc hf, scrubSidecar_counts n hg hc hf⟩,
    fun g data ho hl => bondedWrite_writes ho hl, fun g m f data ho hoff hf hne hlen hpart _ => ⟨?_, ?_, ?_⟩, refresh_owes s,
    fun layer deg _ h12 => ⟨fun h => ⟨_, refreshRate_absent deg h, rfl⟩, refreshRate_warms deg h12⟩, fun seg bank row => ?_⟩
  · exact List.forall_mem_cons.mpr ⟨bondedRead_reads n hc hf, List.forall_mem_singleton.mpr (patrolScrub_reads n hg hc hf)⟩
  · exact merge_stores ho hoff hf ⟨hne, hlen, hpart⟩
  · exact merge_poisons ho hf ⟨hne, hlen, hpart⟩
  · exact merge_dropped ho hf ⟨hne, hlen, hpart⟩
  · intro b used spare errors moved
    have hsp : s.spareRows = spare := spareRows_eq s
    have hmoves := moveRow_moves s b row.val
    have hkeep := moveRow_keeps s b row.val
    refine ⟨fun h => ⟨_, rowMove_stays (h.imp_right (Or.imp_right hsp.trans_le)), rfl⟩, fun he hh => ⟨fun hu => ?_, fun hu => ?_⟩⟩
    · have hlt : used + 1 < s.spareRows := hu.trans_eq hsp.symm
      exact ⟨_, (rowMove_goes he hh (Nat.lt_of_succ_lt hlt)).trans (congrArg _ (if_neg (Nat.ne_of_lt hlt))), hmoves, hkeep⟩
    · have hlast : used + 1 = s.spareRows := hu.trans hsp.symm
      obtain ⟨hex, hwritten⟩ := exhaust_exhausts (s.moveRow b row.val) seg.val bank.val
      rw [hkeep Reg.ERR_STATUS_WRITTEN (by simp)] at hwritten
      exact ⟨_, (rowMove_goes he hh (Nat.lt_of_succ_le hlast.le)).trans (congrArg _ (if_pos hlast)), exhaust_moves hmoves _ _, hex, hwritten⟩

end Sys2Proof.Machine
end

section
/-! Flowstone's commands on objects (R241 to R246, R256, R258): how the command at the head of a queue runs, each command, and from them O45. -/

namespace Sys2Proof.Machine

open Sys2Proof

/-! ## The command at the head of a queue (R242, R243) -/

section
variable {s u : State} {src : JobSrc} {op : Nat} {ws : List Nat} {w : Waiter} {c : Instr} {f : State → List Nat → Waiter → State}

/-- A command that breaks no rule of R243 runs its operation on the state with it taken. -/
theorem exec_head (hh : s.FlsHead src op ws w u) (hc : exec c s = .next (s.runFls src op f)) (hop : 1 ≤ op ∧ op ≤ 10)
    (hr : flsReservedOk ws = true) (hn : flsNeedsObj op = false ∨ u.objById (recBits ws 0 31 16) ≠ none) : exec c s = .next (f u ws w) :=
  hc.trans (congrArg _ (runFls_go hh hop.1 hop.2 hr hn f))

/-- A bad record completes with BAD_CMD; where the head is of another operation, nothing happens. -/
theorem records_checked (hs : s.InRun) (hh : s.FlsHead src op ws w u) {k : Nat} (hk : 1 ≤ k ∧ k ≤ 10) (hc : exec c s = .next (s.runFls src k f)) :
    (op = k → (flsReservedOk ws = false ∨ (op ∈ [2, 3, 4, 5, 6, 8] ∧ u.objById (recBits ws 0 31 16) = none)) → Does c s fun t => u.FlsDone t w 2) ∧
    (op ≠ k → 1 ≤ op → op ≤ 10 → Does c s fun t => t = s) := by
  obtain ⟨hp, hw⟩ := fls_run hh hs
  refine ⟨?_, fun hne h1 h2 => ⟨_, hc.trans (congrArg _ (runFls_other hh h1 h2 hne f)), rfl⟩⟩
  rintro rfl hbad
  exact ⟨_, hc.trans (congrArg _ (runFls_bad hh hk.1 hk.2 hbad f)), fls_done 2 hp hw⟩

/-- The completion of a command whose other effects leave the power state alone (R242). -/
theorem done_after {x : State} (hs : s.InRun) (hh : s.FlsHead src op ws w u) (hx : x.get Reg.PCR_PSTATE_STATE = u.get Reg.PCR_PSTATE_STATE)
    (status : Nat) : x.FlsDone (x.completeFls w status) w status :=
  fls_done status (hx.trans (fls_run hh hs).1) (fls_run hh hs).2

end

section
variable {u : State} {ws : List Nat} {w : Waiter} {o : Obj}

/-! ## REGISTER (R244) -/

/-- A twin side registers a mirrored object that does not lie in its own window (R478). -/
def State.outsideOwn (s : State) (ws : List Nat) : Bool :=
  bit (ws.getD 0 0) 5 && s.flag Reg.GLB_ROLE_TWIN && !(s.inOwnWindow (recBits ws 1 47 0) && s.inOwnWindow (recBits ws 1 47 0 + recBits ws 2 47 0 - 1))

/-- The object that a REGISTER creates. -/
def State.newObj (s : State) (ws : List Nat) : Obj :=
  ⟨recBits ws 0 31 16, recBits ws 1 47 0, recBits ws 2 47 0, bit (ws.getD 0 0) 4, bit (ws.getD 0 0) 5 && !s.outsideOwn ws, bit (ws.getD 0 0) 6, none⟩

/-- The state in which a REGISTER has counted an object outside the own window. -/
def State.regCounted (s : State) (ws : List Nat) : State := if s.outsideOwn ws then s.violGlb 3 0 (recBits ws 1 47 0) else s

/-- The state with the object of a REGISTER. -/
def State.registered (s : State) (ws : List Nat) : State :=
  { s.regCounted ws with objects := insertObj (s.newObj ws) (s.regCounted ws).objects }

/-- A range that an object may have (R241, R244). -/
def RegLegal (ws : List Nat) : Prop :=
  recBits ws 1 47 0 % 2 ^ 21 = 0 ∧ recBits ws 2 47 0 % 2 ^ 21 = 0 ∧ 0 < recBits ws 2 47 0 ∧ recBits ws 2 47 0 ≤ 2 ^ 36 ∧
  recBits ws 1 47 0 + recBits ws 2 47 0 ≤ 0x01C000000000

/-- No object bears the identifier or overlaps the range of a REGISTER (R241). -/
def State.RegFree (s : State) (ws : List Nat) : Prop :=
  s.objById (recBits ws 0 31 16) = none ∧ ∀ o ∈ s.objects, recBits ws 1 47 0 + recBits ws 2 47 0 ≤ o.base ∨ o.base + o.size ≤ recBits ws 1 47 0

theorem flsRegister_illegal (h : ¬RegLegal ws) : u.flsRegister ws w = u.completeFls w 2 := by
  unfold RegLegal at h
  exact if_pos (by unfold pageBytes; omega)

theorem regFree_iff : u.RegFree ws ↔ ¬((u.objById (recBits ws 0 31 16)).isSome || (u.objects.any fun o =>
    decide (o.base < recBits ws 1 47 0 + recBits ws 2 47 0) && decide (recBits ws 1 47 0 < o.base + o.size))) = true := by
  simp only [State.RegFree, Bool.or_eq_true, List.any_eq_true, Bool.and_eq_true, decide_eq_true_eq, not_or, not_exists, not_and,
    Option.not_isSome_iff_eq_none]
  exact and_congr_right' (forall₂_congr fun o _ => by omega)

theorem slotState_regCounted {m : Nat} (hm : m < 6) : (u.regCounted ws).slotState m = u.slotState m := by
  unfold State.regCounted
  split
  · exact slot_violGlb u 3 0 _ m hm
  · rfl

theorem regCounted_eq : u.regCounted ws = { u with fields := (u.regCounted ws).fields, violAt := (u.regCounted ws).violAt } := by
  unfold State.regCounted State.violGlb
  split
  · rw [violate_eq]
  · rfl

theorem registered_calm (hc : u.Calm) : (u.registered ws).Calm := by
  refine calm_of hc (fun m hm => slotState_regCounted hm) fun m hm => hc.2 m ?_
  have hmoves : (u.regCounted ws).moves = u.moves := by rw [regCounted_eq]
  exact hmoves ▸ hm

/-- What a REGISTER of a legal range does. -/
theorem flsRegister_legal (h : RegLegal ws) : (¬u.RegFree ws → u.flsRegister ws w = u.completeFls w 3) ∧
    (u.RegFree ws → u.Calm → u.flsRegister ws w = (u.registered ws).completeFls w 1) := by
  have hl : ¬(recBits ws 1 47 0 % pageBytes ≠ 0 ∨ recBits ws 2 47 0 % pageBytes ≠ 0 ∨ recBits ws 2 47 0 = 0 ∨ 2 ^ 36 < recBits ws 2 47 0 ∨
      0x01C000000000 < recBits ws 1 47 0 + recBits ws 2 47 0) := by
    unfold RegLegal at h
    unfold pageBytes
    omega
  unfold State.flsRegister
  dsimp only
  rw [if_neg hl]
  refine ⟨fun hf => if_pos (not_not.mp (mt regFree_iff.mpr hf)), fun hf hc => ?_⟩
  have hcalm := registered_calm (ws := ws) hc
  rw [if_neg (regFree_iff.mp hf)]
  show (State.settle (if (u.newObj ws).pin = true then (u.registered ws).pinCancels (u.newObj ws) else u.registered ws)).completeFls w 1 = _
  rw [pinCancels_calm hcalm.1, ite_self, settle_calm hcalm]

theorem outsideOwn_iff : u.outsideOwn ws = true ↔ bit (ws.getD 0 0) 5 = true ∧ u.get Reg.GLB_ROLE_TWIN = 1 ∧
    ¬(u.inOwnWindow (recBits ws 1 47 0) = true ∧ u.inOwnWindow (recBits ws 1 47 0 + recBits ws 2 47 0 - 1) = true) := by
  simp only [State.outsideOwn, flag_eq, Bool.and_eq_true, beq_iff_eq, Bool.not_eq_true', and_assoc, Bool.and_eq_false_iff, not_and_or, Bool.not_eq_true]

/-- An object is the one that a REGISTER creates where its fields are the record's. -/
theorem eq_newObj_iff (y : Obj) : y = u.newObj ws ↔ y.id = recBits ws 0 31 16 ∧ y.base = recBits ws 1 47 0 ∧ y.size = recBits ws 2 47 0 ∧
    y.pin = bit (ws.getD 0 0) 4 ∧ (y.mirror = true ↔ bit (ws.getD 0 0) 5 = true ∧ ¬u.outsideOwn ws = true) ∧ y.noheat = bit (ws.getD 0 0) 6 ∧
    y.wanted = none := by
  have hm : ∀ a b c : Bool, (a = (b && !c)) ↔ (a = true ↔ b = true ∧ ¬c = true) := by decide
  obtain ⟨id, base, size, pin, mirror, noheat, wanted⟩ := y
  simp only [State.newObj, Obj.mk.injEq, hm]

theorem mem_registered (y : Obj) : y ∈ (u.registered ws).objects ↔ y ∈ u.objects ∨ y = u.newObj ws := by
  have hobj : (u.regCounted ws).objects = u.objects := by rw [regCounted_eq]
  show y ∈ insertBy Obj.id (u.newObj ws) (u.regCounted ws).objects ↔ _
  rw [insertBy_mem, hobj, or_comm]

/-! ## DEREGISTER, PIN, UNPIN and DEMOTE (R244, R256) -/

theorem flsDeregister_removes (hc : u.Calm) (ho : u.objById (recBits ws 0 31 16) = some o)
    (hm : ∀ m ∈ u.moves, m.isOf o.id = true → m.waiters = [] ∧ m.pins = []) : u.flsDeregister ws w =
      ({ u with moves := u.moves.filter (fun m => !m.isOf o.id), objects := u.objects.filter fun x => x.id != o.id } : State).completeFls w 1 := by
  have hnone : ((u.moves.filter fun m => m.isOf o.id).flatMap fun m => m.waiters ++ m.pins) = [] := by
    rw [List.flatMap_eq_nil_iff]
    intro m hmem
    obtain ⟨hmem, hof⟩ := List.mem_filter.mp hmem
    rw [(hm m hmem hof).1, (hm m hmem hof).2, List.append_nil]
  unfold State.flsDeregister
  rw [cmdObj_of ho]
  dsimp only
  rw [hnone]
  refine congrArg (State.completeFls · w 1) (settle_calm ?_)
  exact calm_of hc (fun _ _ => rfl) fun m hm => hc.2 m (List.mem_filter.mp hm).1

theorem flsPin_waits (ho : u.objById (recBits ws 0 31 16) = some o) (hst : u.moveState o.id = 1) :
    u.flsPin ws w = { u with moves := u.moves.map fun m : Move => if m.isOf o.id then { m with pins := m.pins ++ [w] } else m } := by
  unfold State.flsPin
  rw [cmdObj_of ho]
  exact if_pos hst

theorem flsPin_pins (hc : u.Calm) (ho : u.objById (recBits ws 0 31 16) = some o) (hst : u.moveState o.id ≠ 1) : u.flsPin ws w =
    ({ u with
      moves := u.moves.filter (fun m : Move => !(m.isOf o.id && m.kind != MoveKind.promotion))
      objects := u.objects.map fun x : Obj => if x.id = o.id then { x with pin := true } else x } : State).completeFls w 1 := by
  unfold State.flsPin
  rw [cmdObj_of ho]
  dsimp only
  rw [if_neg hst, pinCancels_calm (by exact hc.1)]
  refine congrArg (State.completeFls · w 1) (settle_calm ?_)
  exact calm_of hc (fun _ _ => rfl) fun m hm => hc.2 m (List.mem_filter.mp hm).1

/-- What a command does that changes objects alone: nothing is left to decide. -/
theorem settle_modObj (hc : u.Calm) (id : Nat) (g : Obj → Obj) : (u.modObj id g).settle = u.modObj id g :=
  settle_calm (calm_of (x := u.modObj id g) hc (fun _ _ => rfl) hc.2)

/-- An object that a DEMOTE may send to the cartridges. -/
theorem evictable_iff : u.evictable o = true ↔
    u.restsBonded o = true ∧ u.heldPages o ≠ [] ∧ u.moveState o.id = 0 ∧ o.pin = false ∧ u.isWanted o = false := by
  simp only [State.evictable, Bool.and_eq_true, bne_iff_ne, beq_iff_eq, Bool.not_eq_true', and_assoc]

/-- The state that a DEMOTE leaves: a promotion is marked, or a demotion queued. -/
def State.demoted (s : State) (o : Obj) : State :=
  if s.moveState o.id = 1 then { s with moves := s.moves.map fun m : Move => if m.isOf o.id then { m with evict := true } else m }
  else if s.evictable o = true then { s with moves := s.moves ++ [Move.of o.id .demotion] } else s

theorem demoted_promoting (h : u.moveState o.id = 1) :
    u.demoted o = { u with moves := u.moves.map fun m : Move => if m.isOf o.id then { m with evict := true } else m } := if_pos h

theorem demoted_evictable (h1 : u.moveState o.id ≠ 1) (h : u.evictable o = true) :
    u.demoted o = { u with moves := u.moves ++ [Move.of o.id .demotion] } := (if_neg h1).trans (if_pos h)

theorem demoted_else (h1 : u.moveState o.id ≠ 1) (h : ¬u.evictable o = true) : u.demoted o = u := (if_neg h1).trans (if_neg h)

theorem get_demoted (u : State) (o : Obj) (f : FieldRef) : (u.demoted o).get f = u.get f := by
  unfold State.demoted
  split
  · rfl
  · split <;> rfl

theorem demoted_calm (hc : u.Calm) (o : Obj) : (u.demoted o).Calm := by
  refine ⟨fun m hm => (get_demoted u o _).trans_ne (hc.1 m hm), ?_⟩
  by_cases h1 : u.moveState o.id = 1
  · rw [demoted_promoting h1]
    intro m hm
    obtain ⟨m', hm', rfl⟩ := List.mem_map.mp hm
    split <;> exact hc.2 m' hm'
  · by_cases he : u.evictable o = true
    · rw [demoted_evictable h1 he]
      intro m hm hk
      obtain hm | hm := List.mem_append.mp hm
      · exact hc.2 m hm hk
      · rw [List.mem_singleton.mp hm] at hk
        cases hk
    · rw [demoted_else h1 he]
      exact hc.2

theorem flsDemote_eq (hc : u.Calm) (ho : u.objById (recBits ws 0 31 16) = some o) : u.flsDemote ws w = (u.demoted o).completeFls w 1 := by
  have hqueue : u.evictable o = true → u.queueDemotion o = { u with moves := u.moves ++ [Move.of o.id .demotion] } := fun he =>
    if_neg (evictable_iff.mp he).2.1
  have heq : u.flsDemote ws w = (u.demoted o).settle.completeFls w 1 := by
    unfold State.flsDemote State.demoted
    rw [cmdObj_of ho]
    dsimp only
    refine congrArg (fun x : State => x.settle.completeFls w 1) (if_congr Iff.rfl rfl ?_)
    split
    · next he => exact hqueue he
    · rfl
  rw [heq, settle_calm (demoted_calm hc o)]

/-! ## PREFETCH (R256 to R258) -/

/-- An object is wanted until a prefetch's deadline, and the prefetch is counted. -/
def State.wants (s : State) (o : Obj) (w : Waiter) : State :=
  { s with
    objects := s.objects.map fun x : Obj => if x.id = o.id then { x with wanted := some (max (x.wanted.getD 0) w.deadline) } else x
    prefetches := s.prefetches + 1 }

/-- A move with one more prefetch that waits for it. -/
def Move.joined (m : Move) (w : Waiter) (k : Nat) : Move :=
  { m with waiters := m.waiters ++ [w], prefetch := some (min (m.prefetch.getD w.deadline) w.deadline)
           order := if w.deadline < m.prefetch.getD (w.deadline + 1) then k else m.order }

theorem join_eq_joined (m : Move) (w : Waiter) (k : Nat) : m.join w k = m.joined w k := by
  unfold Move.join Move.joined
  cases hp : m.prefetch with
  | none => simp
  | some p =>
    by_cases h : w.deadline < p
    · simp [h, Nat.le_of_lt h]
    · simp [h, Nat.not_lt.mp h]

/-- The moves of an object that are promotions. -/
def Move.promotes (m : Move) (id : Nat) : Bool := m.isOf id && m.kind == MoveKind.promotion

/-- The moves once a prefetch has joined the promotion of an object, which is queued where there is none. -/
def State.joins (s : State) (o : Obj) (w : Waiter) : List Move :=
  (if s.moves.any fun m => m.promotes o.id then s.moves else s.moves ++ [Move.of o.id .promotion]).map
    fun m => if m.promotes o.id then m.join w s.prefetches else m

theorem map_queued (s : State) (c : Bool) (m : Move) (g : Move → Move) :
    ({ (if c then s else s.queueMove m) with moves := (if c then s else s.queueMove m).moves.map g } : State) =
      { s with moves := (if c then s.moves else s.moves ++ [m]).map g } := by cases c <;> rfl

theorem flsPrefetch_eq (ho : u.objById (recBits ws 0 31 16) = some o) : u.flsPrefetch ws w =
    if u.moveState o.id = 2 then (((u.wants o w).abortMoves fun m => m.isOf o.id).settle).prefetchMet w
    else if u.moveState o.id = 0 ∧ u.restsBonded o = true then (u.wants o w).settle.prefetchMet w
    else State.settle { u.wants o w with moves := u.joins o w } := by
  unfold State.flsPrefetch
  rw [cmdObj_of ho]
  dsimp only
  exact if_congr Iff.rfl rfl (if_congr Iff.rfl rfl (congrArg State.settle (map_queued (u.wants o w) _ _ _)))

theorem promotes_iff (m : Move) (id : Nat) : m.promotes id = true ↔ m.isOf id = true ∧ m.kind = .promotion := by
  simp only [Move.promotes, Bool.and_eq_true, beq_iff_eq]

theorem any_promotes_iff : (u.moves.any fun m => m.promotes o.id) = true ↔ ∃ m ∈ u.moves, m.isOf o.id = true ∧ m.kind = .promotion := by
  simp only [List.any_eq_true, promotes_iff]

theorem joins_old (h : ∃ m ∈ u.moves, m.isOf o.id = true ∧ m.kind = .promotion) :
    u.joins o w = u.moves.map fun m : Move => if m.isOf o.id && m.kind == MoveKind.promotion then m.joined w u.prefetches else m := by
  unfold State.joins
  rw [if_pos (any_promotes_iff.mpr h)]
  simp only [join_eq_joined]
  rfl

theorem joins_new (h : ¬∃ m ∈ u.moves, m.isOf o.id = true ∧ m.kind = .promotion) :
    u.joins o w = u.moves ++ [(Move.of o.id .promotion).joined w u.prefetches] := by
  have hsame : (u.moves.map fun m => if m.promotes o.id then m.join w u.prefetches else m) = u.moves :=
    (List.map_congr_left fun m hm => if_neg fun hp => h ⟨m, hm, (promotes_iff m o.id).mp hp⟩).trans (List.map_id' _)
  have hnew : (Move.of o.id .promotion).promotes o.id = true := by simp [Move.promotes, Move.isOf, Move.of]
  unfold State.joins
  rw [if_neg (mt any_promotes_iff.mp h), List.map_append, hsame, List.map_singleton, if_pos hnew, join_eq_joined]

theorem joins_eq : u.joins o w = if ∃ m ∈ u.moves, m.isOf o.id = true ∧ m.kind = .promotion
    then u.moves.map fun m : Move => if m.isOf o.id && m.kind == MoveKind.promotion then m.joined w u.prefetches else m
    else u.moves ++ [(Move.of o.id .promotion).joined w u.prefetches] := by
  split
  · next h => exact joins_old h
  · next h => exact joins_new h

/-- A PREFETCH of an object that needs no move is met at once; a demotion is given up for it. -/
theorem flsPrefetch_meets (hc : u.Calm) (ho : u.objById (recBits ws 0 31 16) = some o)
    (hst : (u.moveState o.id = 0 ∧ u.restsBonded o = true) ∨ u.moveState o.id = 2) : u.flsPrefetch ws w =
      ({ u.wants o w with moves := if u.moveState o.id = 2 then u.moves.filter (fun m => !m.isOf o.id) else u.moves } : State).prefetchMet w := by
  rw [flsPrefetch_eq ho]
  by_cases h2 : u.moveState o.id = 2
  · rw [if_pos h2, if_pos h2]
    refine congrArg (State.prefetchMet · w) (settle_calm ?_)
    exact calm_of hc (fun _ _ => rfl) fun m hm => hc.2 m (List.mem_filter.mp hm).1
  · rw [if_neg h2, if_pos (hst.resolve_right h2), if_neg h2]
    refine congrArg (State.prefetchMet · w) (settle_calm ?_)
    exact calm_of hc (fun _ _ => rfl) hc.2

/-- A prefetch leaves the frames that are free, and those that a promotion needs, as they were. -/
theorem wants_room (o : Obj) (w : Waiter) (l : List Move) (hd : l.flatMap (fun m => m.dest) = u.moves.flatMap fun m => m.dest)
    (hk : (l.filter fun m => m.kind == .demotion && m.page.isNone) = u.moves.filter fun m => m.kind == .demotion && m.page.isNone) (m : Move) :
    let x : State := { u.wants o w with moves := l }
    x.promotionNeed m = u.promotionNeed m ∧ x.freeBonded = u.freeBonded ∧ x.freeing = u.freeing := by
  intro x
  have hobj : ∀ i, x.objById i = (u.objById i).map fun y => if y.id = o.id then { y with wanted := some (max (y.wanted.getD 0) w.deadline) } else y :=
    fun i => objById_map u _ (fun y => by split <;> rfl) i
  have hheld : ∀ i b, ((x.objById i).map fun y => (x.heldIn y b).length) = (u.objById i).map fun y => (u.heldIn y b).length := by
    intro i b
    rw [hobj, Option.map_map]
    refine congrArg (Option.map · _) (funext fun y => ?_)
    show (x.heldIn (if _ then _ else _) b).length = _
    split <;> rfl
  have hused : x.usedFrames = u.usedFrames := by
    unfold State.usedFrames
    rw [← List.map_flatMap, ← List.map_flatMap]
    exact congrArg (fun d => u.pages.map (·.2) ++ d.map (·.2)) hd
  refine ⟨congrArg (Option.getD · 0) (hheld m.obj false), ?_, ?_⟩
  · unfold State.freeBonded
    rw [hused]
    rfl
  · unfold State.freeing
    simp only [hheld]
    exact congrArg (fun d => (List.map _ d).sum) hk

/-- A PREFETCH of an object that must move joins its promotion, or queues one. -/
theorem flsPrefetch_joins (hc : u.Calm) (ho : u.objById (recBits ws 0 31 16) = some o)
    (hst : u.moveState o.id = 1 ∨ u.moveState o.id = 3 ∨ (u.moveState o.id = 0 ∧ u.restsBonded o = false))
    (hroom : u.promotionNeed (Move.of o.id .promotion) ≤ u.freeBonded + u.freeing) (hall : ∀ m ∈ u.moves, m.started = true) :
    u.flsPrefetch ws w = { u.wants o w with moves := u.joins o w } := by
  have h2 : u.moveState o.id ≠ 2 := by omega
  have h0 : ¬(u.moveState o.id = 0 ∧ u.restsBonded o = true) := by
    rintro ⟨hz, hb⟩
    rw [hz, hb] at hst
    simp at hst
  rw [flsPrefetch_eq ho, if_neg h2, if_neg h0]
  by_cases he : ∃ m ∈ u.moves, m.isOf o.id = true ∧ m.kind = .promotion
  · refine settle_calm ?_
    refine calm_of hc (fun _ _ => rfl) fun m hm _ _ => ?_
    rw [show State.moves _ = u.joins o w from rfl, joins_old he] at hm
    obtain ⟨m', hm', rfl⟩ := List.mem_map.mp hm
    split <;> exact hall m' hm'
  · obtain ⟨hneed, hfree, hing⟩ := wants_room (u := u) o w (u.joins o w) (by rw [joins_new he]; simp [Move.joined, Move.of])
      (by rw [joins_new he]; simp [Move.joined, Move.of]) ((Move.of o.id .promotion).joined w u.prefetches)
    refine settle_one _ u.moves ((Move.of o.id .promotion).joined w u.prefetches) hc.1 (joins_new he) rfl rfl hall ?_
    rw [hfree, hing]
    exact hneed.trans_le hroom

/-! ## QUERY (R246) -/

theorem b2n_mul (b : Bool) (k : Nat) : b2n b * k = if b = true then k else 0 := by cases b <;> simp [b2n]

theorem queryWords_eq (u : State) (o : Obj) : u.queryWords o = [o.base,
    o.size + (if o.pin then 2 ^ 48 else 0) + (if o.mirror then 2 ^ 49 else 0) + (if o.noheat then 2 ^ 50 else 0),
    u.moveState o.id + (if ∃ m, u.moveOf o.id = some m ∧ m.evict = true then 16 else 0) + (if u.isWanted o then 32 else 0) + u.density o % 2 ^ 16 * 2 ^ 16,
    ((u.heldPages o).filter fun e => e.2.isBonded).length % 2 ^ 16 + ((u.heldPages o).filter fun e => !e.2.isBonded).length % 2 ^ 16 * 2 ^ 16] := by
  have hevict : ((u.moveOf o.id).map (·.evict)).getD false = true ↔ ∃ m, u.moveOf o.id = some m ∧ m.evict = true := by
    cases u.moveOf o.id <;> simp
  unfold State.queryWords
  dsimp only
  simp only [b2n_mul, hevict, State.heldIn, beq_true, beq_false, show 2 ^ 4 = 16 from rfl, show 2 ^ 5 = 32 from rfl]

/-! ## RELEASE (R244) -/

/-- The pages of a RELEASE. -/
def relPages (ws : List Nat) : List Nat := (List.range (recBits ws 2 47 0 / pageBytes)).map fun i => recBits ws 1 47 0 / pageBytes + i

/-- A range that a RELEASE may name. -/
def RelLegal (ws : List Nat) : Prop :=
  recBits ws 1 47 0 % 2 ^ 21 = 0 ∧ recBits ws 2 47 0 % 2 ^ 21 = 0 ∧ recBits ws 1 47 0 + recBits ws 2 47 0 ≤ 0x01C000000000

theorem mem_relPages (h : RelLegal ws) (p : Nat) :
    p ∈ relPages ws ↔ recBits ws 1 47 0 ≤ p * 2 ^ 21 ∧ p * 2 ^ 21 < recBits ws 1 47 0 + recBits ws 2 47 0 := by
  unfold RelLegal at h
  unfold relPages pageBytes
  generalize recBits ws 1 47 0 = b at *
  generalize recBits ws 2 47 0 = z at *
  rw [List.mem_map]
  constructor
  · rintro ⟨i, hi, rfl⟩
    have := List.mem_range.mp hi
    omega
  · intro hp
    exact ⟨p - b / 2 ^ 21, List.mem_range.mpr (by omega), by omega⟩

theorem flsRelease_illegal (h : ¬RelLegal ws) : u.flsRelease ws w = u.completeFls w 2 := by
  unfold RelLegal at h
  exact if_pos (by unfold pageBytes; omega)

/-- The state in which a RELEASE has freed the populated pages of its range. -/
def State.released (s : State) (ws : List Nat) : State := ((relPages ws).filter s.populatedPage).foldl State.releasePage s

theorem released_calm (hc : u.Calm) : (u.released ws).Calm := by
  obtain ⟨-, -, hkeep, hmoves, -⟩ := rel_pages ((relPages ws).filter u.populatedPage) u
  refine calm_of hc (fun m hm => hkeep _ (by simp; omega)) fun m hm hk hp => ?_
  obtain ⟨m', hm', hkind, hpre, hstart⟩ := hmoves m hm
  exact hstart.trans (hc.2 m' hm' (hkind ▸ hk) (hpre ▸ hp))

theorem flsRelease_frees (h : RelLegal ws) (hc : u.Calm)
    (hopen : ∀ p ∈ relPages ws, u.peerClosed (p * pageBytes) = false ∧ u.sealedAt (p * pageBytes) = false) :
    u.flsRelease ws w = (u.released ws).completeFls w 1 := by
  have hl : ¬(recBits ws 1 47 0 % pageBytes ≠ 0 ∨ recBits ws 2 47 0 % pageBytes ≠ 0 ∨
      0x01C000000000 < recBits ws 1 47 0 + recBits ws 2 47 0) := by
    unfold RelLegal at h
    unfold pageBytes
    omega
  have hshut : ((relPages ws).filter fun p => u.peerClosed (p * pageBytes) || u.sealedAt (p * pageBytes)) = [] := by
    rw [List.filter_eq_nil_iff]
    intro p hp
    rw [(hopen p hp).1, (hopen p hp).2]
    decide
  have hfree : ((relPages ws).filter fun p => u.populatedPage p && !u.peerClosed (p * pageBytes) && !u.sealedAt (p * pageBytes)) =
      (relPages ws).filter u.populatedPage := by
    refine List.filter_congr fun p hp => ?_
    rw [(hopen p hp).1, (hopen p hp).2, Bool.not_false, Bool.and_true, Bool.and_true]
  have heq : u.flsRelease ws w = (u.released ws).settle.completeFls w 1 := by
    unfold State.flsRelease
    dsimp only
    rw [if_neg hl, show (List.range (recBits ws 2 47 0 / pageBytes)).map (fun i => recBits ws 1 47 0 / pageBytes + i) = relPages ws from rfl, hshut]
    dsimp only
    rw [hfree]
    rfl
  rw [heq, settle_calm (released_calm hc)]

/-- What a RELEASE leaves of a page: freed and zero, or as it was. -/
theorem released_page (h : RelLegal ws) (p : Nat) :
    let freed := recBits ws 1 47 0 ≤ p * 2 ^ 21 ∧ p * 2 ^ 21 < recBits ws 1 47 0 + recBits ws 2 47 0 ∧ u.populatedPage p = true
    (freed → (u.released ws).frameOf p = none ∧ ∀ i < 2 ^ 21, memByte (u.released ws).mem (p * 2 ^ 21 + i) = 0 ∧
      (u.released ws).poisoned (granuleOf (p * 2 ^ 21 + i)) = false) ∧
    (¬freed → (u.released ws).frameOf p = u.frameOf p ∧ ∀ i < 2 ^ 21, memByte (u.released ws).mem (p * 2 ^ 21 + i) = memByte u.mem (p * 2 ^ 21 + i)) := by
  intro freed
  obtain ⟨-, -, -, -, hframe, hmem, hpoison⟩ := rel_pages ((relPages ws).filter u.populatedPage) u
  have hfreed : freed ↔ p ∈ (relPages ws).filter u.populatedPage := by
    rw [List.mem_filter, mem_relPages h, and_assoc]
  have hpage : ∀ i < 2 ^ 21, (p * 2 ^ 21 + i) / 2 ^ 21 = p := fun i hi => by omega
  have hgran : ∀ i < 2 ^ 21, granuleOf (p * 2 ^ 21 + i) / 8192 = p := fun i hi => by unfold granuleOf; omega
  refine ⟨fun hp => ⟨(hframe p).trans (if_pos (hfreed.mp hp)), fun i hi => ⟨(hmem _).trans (if_pos ?_), (hpoison _).trans (if_pos ?_)⟩⟩,
    fun hp => ⟨(hframe p).trans (if_neg (mt hfreed.mpr hp)), fun i hi => (hmem _).trans (if_neg ?_)⟩⟩
  · exact (hpage i hi).symm ▸ hfreed.mp hp
  · exact (hgran i hi).symm ▸ hfreed.mp hp
  · exact (hpage i hi).symm ▸ mt hfreed.mpr hp

end

/-! ## From them O45 -/

section
variable {s u : State} {src : JobSrc} {op : Nat} {ws : List Nat} {w : Waiter} {o : Obj}

theorem register_does (hs : s.InRun) (hc : u.Calm) (hh : s.FlsHead src 1 ws w u) (hr : flsReservedOk ws = true) :
    (¬RegLegal ws → Does (.register src) s fun t => u.FlsDone t w 2) ∧
    (RegLegal ws → ¬u.RegFree ws → Does (.register src) s fun t => u.FlsDone t w 3) ∧
    (RegLegal ws → u.RegFree ws → Does (.register src) s fun t => (u.registered ws).FlsDone t w 1) := by
  have he := exec_head (c := .register src) hh rfl (by decide) hr (.inl rfl)
  have hpower : (u.registered ws).get Reg.PCR_PSTATE_STATE = u.get Reg.PCR_PSTATE_STATE := by
    show (u.regCounted ws).get _ = _
    unfold State.regCounted
    split
    · exact (keeps_refl u globalViolFields).violGlb (fun _ h => h) _ (by simp [globalViolFields])
    · rfl
  exact ⟨fun hl => ⟨_, he.trans (congrArg _ (flsRegister_illegal hl)), done_after hs hh (by rfl) 2⟩,
    fun hl hf => ⟨_, he.trans (congrArg _ ((flsRegister_legal hl).1 hf)), done_after hs hh (by rfl) 3⟩,
    fun hl hf => ⟨_, he.trans (congrArg _ ((flsRegister_legal hl).2 hf hc)), done_after hs hh hpower 1⟩⟩

/-- What a REGISTER changes: the object, and the count of one outside the own window. -/
theorem registered_changes (u : State) (ws : List Nat) :
    u.registered ws = { u with objects := (u.registered ws).objects, fields := (u.registered ws).fields, violAt := (u.registered ws).violAt } ∧
    (u.outsideOwn ws = true → u.CountsGlobalViol { u.registered ws with objects := u.objects } 3 0 (recBits ws 1 47 0)) ∧
    (¬u.outsideOwn ws = true → (u.registered ws).fields = u.fields ∧ (u.registered ws).violAt = u.violAt) := by
  have heq := regCounted_eq (u := u) (ws := ws)
  refine ⟨?_, fun ho => ?_, fun ho => ?_⟩
  · unfold State.registered
    rw [heq]
  · have hv : ({ u.registered ws with objects := u.objects } : State) = u.violGlb 3 0 (recBits ws 1 47 0) := by
      rw [← show u.regCounted ws = u.violGlb 3 0 (recBits ws 1 47 0) from if_pos ho]
      show ({ u.regCounted ws with objects := u.objects } : State) = _
      rw [heq]
    rw [hv]
    exact counts_violGlb u 3 0 _ (by decide) (by decide)
  · have hv : u.regCounted ws = u := if_neg ho
    unfold State.registered
    rw [hv]
    exact ⟨rfl, rfl⟩

theorem pin_does (hs : s.InRun) (hc : u.Calm) (hh : s.FlsHead src 3 ws w u) (hr : flsReservedOk ws = true)
    (ho : u.objById (recBits ws 0 31 16) = some o) (hn : u.objById (recBits ws 0 31 16) ≠ none) :
    (u.moveState o.id = 1 → Does (.pin src) s fun t =>
      t = { u with moves := u.moves.map fun m : Move => if m.isOf o.id then { m with pins := m.pins ++ [w] } else m }) ∧
    (u.moveState o.id ≠ 1 → Does (.pin src) s fun t => ({ u with
      moves := u.moves.filter (fun m : Move => !(m.isOf o.id && m.kind != MoveKind.promotion))
      objects := u.objects.map fun x : Obj => if x.id = o.id then { x with pin := true } else x } : State).FlsDone t w 1) := by
  have he := exec_head (c := .pin src) hh rfl (by decide) hr (.inr hn)
  exact ⟨fun hst => ⟨_, he.trans (congrArg _ (flsPin_waits ho hst)), rfl⟩,
    fun hst => ⟨_, he.trans (congrArg _ (flsPin_pins hc ho hst)), done_after hs hh (by rfl) 1⟩⟩

/-- A prefetch that is met is counted, and completes with OK. -/
theorem prefetchMet_done (hs : s.InRun) (hh : s.FlsHead src op ws w u) {v : State} (hget : ∀ f, v.get f = u.get f) :
    ∃ x : State, x.FlsDone (v.prefetchMet w) w 1 ∧ x = { v with fields := x.fields } ∧
      x.get Reg.FLS_DL_MET = (u.get Reg.FLS_DL_MET + 1) % 2 ^ Reg.FLS_DL_MET.w ∧ u.KeepsFields x [Reg.FLS_DL_MET] := by
  have hkeep : u.KeepsFields (v.count Reg.FLS_DL_MET 1) [Reg.FLS_DL_MET] :=
    State.KeepsFields.put (fun f _ => hget f) (List.mem_singleton_self _)
  refine ⟨v.count Reg.FLS_DL_MET 1, done_after hs hh (hkeep _ (by simp)) 1, rfl, ?_, hkeep⟩
  rw [← hget]
  exact State.get_put_eq

theorem demote_does (hs : s.InRun) (hc : u.Calm) (hh : s.FlsHead src 6 ws w u) (hr : flsReservedOk ws = true)
    (ho : u.objById (recBits ws 0 31 16) = some o) (hn : u.objById (recBits ws 0 31 16) ≠ none) :
    Does (.demote src) s fun t => (u.demoted o).FlsDone t w 1 :=
  ⟨_, (exec_head (c := .demote src) hh rfl (by decide) hr (.inr hn)).trans (congrArg _ (flsDemote_eq hc ho)), done_after hs hh (get_demoted u o _) 1⟩

theorem query_does (hs : s.InRun) (hh : s.FlsHead src 8 ws w u) (hr : flsReservedOk ws = true)
    (ho : u.objById (recBits ws 0 31 16) = some o) (hn : u.objById (recBits ws 0 31 16) ≠ none) :
    (recBits ws 4 47 0 % 32 ≠ 0 → Does (.query src) s fun t => u.FlsDone t w 2) ∧
    (recBits ws 4 47 0 % 32 = 0 → u.Visible (u.writeLogged 9 (recBits ws 4 47 0) (wordsToBytes (u.queryWords o))) →
      Does (.query src) s fun t => (u.writeLogged 9 (recBits ws 4 47 0) (wordsToBytes (u.queryWords o))).FlsDone t w 1) := by
  have he := exec_head (c := .query src) hh rfl (by decide) hr (.inr hn)
  refine ⟨fun ha => ⟨_, he.trans (congrArg _ (if_pos ha)), done_after hs hh (by rfl) 2⟩, fun ha hvis => ?_⟩
  have hpower := (serves_writeLogged u 9 (recBits ws 4 47 0) (wordsToBytes (u.queryWords o))).get (f := Reg.PCR_PSTATE_STATE)
    (not_access (by decide) (by decide) (by decide) (by decide))
  refine ⟨_, he.trans (congrArg _ (if_neg (not_not.mpr ha))), ?_⟩
  rw [cmdObj_of ho]
  have hend : ∀ t v : State, t.heldSince u.heldSeq = [] → t.endWork (t.heldSince u.heldSeq) (.flowstone w 1) v = v := fun t v h => if_pos h
  dsimp only
  rw [hend _ _ hvis]
  exact done_after hs hh hpower 1

theorem release_does (hs : s.InRun) (hc : u.Calm) (hh : s.FlsHead src 7 ws w u) (hr : flsReservedOk ws = true) :
    (¬RelLegal ws → Does (.release src) s fun t => u.FlsDone t w 2) ∧
    (RelLegal ws → (∀ p, recBits ws 1 47 0 ≤ p * 2 ^ 21 → p * 2 ^ 21 < recBits ws 1 47 0 + recBits ws 2 47 0 →
        u.peerClosed (p * 2 ^ 21) = false ∧ u.sealedAt (p * 2 ^ 21) = false) →
      Does (.release src) s fun t => (u.released ws).FlsDone t w 1) := by
  have he := exec_head (c := .release src) hh rfl (by decide) hr (.inl rfl)
  refine ⟨fun hl => ⟨_, he.trans (congrArg _ (flsRelease_illegal hl)), done_after hs hh (by rfl) 2⟩, fun hl hopen => ?_⟩
  obtain ⟨-, -, hkeep, -⟩ := rel_pages ((relPages ws).filter u.populatedPage) u
  have hin : ∀ p ∈ relPages ws, u.peerClosed (p * pageBytes) = false ∧ u.sealedAt (p * pageBytes) = false := fun p hp =>
    have ⟨hlo, hhi⟩ := (mem_relPages hl p).mp hp
    hopen p hlo hhi
  exact ⟨_, he.trans (congrArg _ (flsRelease_frees hl hc hin)), done_after hs hh (hkeep _ (by simp)) 1⟩

end

/-- Settles O45: a record is judged before its command, and each command is its own equation above. That the first command of Flowstone answers for
a reserved operation (log entry 25), and that a PREFETCH of an object at rest completes with OK whatever its deadline (log entry 47), are the
model's choices. -/
theorem flowstoneObjects : Obligations.FlowstoneObjects := by
  unfold Obligations.FlowstoneObjects
  intro s src op ws w u hs hc hh id b z flag
  refine ⟨?_, fun hr => ⟨?_, fun o ho => ?_⟩, ?_⟩
  · simp only [List.forall_mem_cons]
    exact ⟨records_checked hs hh (by decide) rfl, records_checked hs hh (by decide) rfl, records_checked hs hh (by decide) rfl,
      records_checked hs hh (by decide) rfl, records_checked hs hh (by decide) rfl, records_checked hs hh (by decide) rfl,
      records_checked hs hh (by decide) rfl, records_checked hs hh (by decide) rfl, records_checked hs hh (by decide) rfl,
      records_checked hs hh (by decide) rfl, List.forall_mem_nil _⟩
  · rintro rfl legal free outside
    obtain ⟨hbad, htaken, hnew⟩ := register_does hs hc hh hr
    refine ⟨hbad, htaken, fun hl hf => ?_⟩
    obtain ⟨t, he, hdone⟩ := hnew hl hf
    obtain ⟨hrest, hout, hin⟩ := registered_changes u ws
    refine ⟨t, he, _, hdone, hrest, fun y => ?_, fun ho => hout (outsideOwn_iff.mpr ho), fun ho => hin (mt outsideOwn_iff.mp ho)⟩
    rw [mem_registered, eq_newObj_iff, outsideOwn_iff]
  · have hn : u.objById (recBits ws 0 31 16) ≠ none := fun h => Option.some_ne_none o (ho.symm.trans h)
    intro st
    refine ⟨?_, ?_, ?_, ?_, ?_, ?_⟩
    · rintro rfl hm
      exact ⟨_, (exec_head (c := .deregister src) hh rfl (by decide) hr (.inr hn)).trans (congrArg _ (flsDeregister_removes hc ho hm)),
        done_after hs hh (by rfl) 1⟩
    · rintro rfl
      exact pin_does hs hc hh hr ho hn
    · rintro rfl
      refine ⟨_, exec_head (c := .unpin src) hh rfl (by decide) hr (.inr hn), ?_⟩
      rw [cmdObj_of ho, settle_modObj hc]
      exact done_after hs hh (by rfl) 1
    · rintro rfl v
      have he := exec_head (c := .prefetch src) hh rfl (by decide) hr (.inr hn)
      refine ⟨fun hst => ?_, fun hst hroom hall => ⟨_, he.trans (congrArg _ (flsPrefetch_joins hc ho hst hroom hall)),
        congrArg (fun l : List Move => ({ v with moves := l } : State)) joins_eq⟩⟩
      obtain ⟨x, hx⟩ := prefetchMet_done hs hh
        (v := { u.wants o w with moves := if st = 2 then u.moves.filter (fun m => !m.isOf o.id) else u.moves }) fun _ => rfl
      exact ⟨_, he.trans (congrArg _ (flsPrefetch_meets hc ho hst)), x, hx⟩
    · rintro rfl
      have hdoes := demote_does hs hc hh hr ho hn
      refine ⟨fun hst => demoted_promoting hst ▸ hdoes, fun hst hb hp hpin hw => ?_, fun hst => ?_⟩
      · have h1 : u.moveState o.id ≠ 1 := hst.trans_ne (by decide)
        exact demoted_evictable h1 (evictable_iff.mpr ⟨hb, hp, hst, hpin, hw⟩) ▸ hdoes
      · have h1 : u.moveState o.id ≠ 1 := fun h1 => by simp [st, h1] at hst
        have hno : ¬u.evictable o = true := by
          rw [evictable_iff]
          rintro ⟨hb, hp, h0, hpin, hw⟩
          simp [st, h0, hb, hp, hpin, hw] at hst
        exact demoted_else h1 hno ▸ hdoes
    · rintro rfl a
      rw [← queryWords_eq u o]
      exact query_does hs hh hr ho hn
  · rintro hr rfl legal
    obtain ⟨hbad, hgo⟩ := release_does hs hc hh hr
    refine ⟨hbad, fun hl hopen => ?_⟩
    obtain ⟨t, he, hdone⟩ := hgo hl hopen
    obtain ⟨hch, hobj, -⟩ := rel_pages ((relPages ws).filter u.populatedPage) u
    exact ⟨t, he, _, hdone, hch, hobj, released_page hl⟩

end Sys2Proof.Machine
end

section
/-! What Flowstone has left to decide after a completion and after a change of a slot (R242, R257, R260, R263). -/

namespace Sys2Proof.Machine

open Sys2Proof

/-! ## Completions leave nothing to decide -/

/-- No promotion that a prefetch asked for waits to start. -/
def State.Placed (s : State) : Prop := ∀ m ∈ s.moves, m.kind = .promotion → m.prefetch ≠ none → m.started = true

section
variable {s t : State}

theorem State.Placed.of_moves (h : s.Placed) (hm : t.moves = s.moves) : t.Placed := fun m hmem => h m (hm ▸ hmem)

theorem makeRoom_placed (h : s.Placed) : s.makeRoom = s := by
  have hnone : (s.moves.filter fun m => m.kind == .promotion && m.prefetch.isSome && !m.started) = [] := by
    rw [List.filter_eq_nil_iff]
    intro m hm hw
    simp only [Bool.and_eq_true, beq_iff_eq, Bool.not_eq_true', Option.isSome_iff_ne_none] at hw
    obtain ⟨⟨hk, hp⟩, hs⟩ := hw
    exact Bool.false_ne_true (hs.symm.trans (h m hm hk hp))
  unfold State.makeRoom State.waitingPrefetches
  rw [hnone]
  rfl

/-- A page's second frame goes to a move that has started; no room is made where no promotion waits. -/
theorem giveFrame_placed (h : s.Placed) (p : Nat) (f : Frame) : (s.giveFrame p f).Placed := by
  unfold State.giveFrame
  extract_lets u
  have hu : u.Placed := by
    intro m hm
    obtain ⟨m', hm', rfl⟩ := List.mem_map.mp hm
    have h' := h m' hm'
    split
    · split <;> exact h'
    · exact h'
  clear_value u
  split
  · exact hu
  · rwa [makeRoom_placed hu]

theorem warm_moves (s : State) (a : Nat) : (s.warm a).moves = s.moves := by rw [warm_eq]
theorem violGlb_moves (s : State) (g k a : Nat) : (s.violGlb g k a).moves = s.moves := by unfold State.violGlb; rw [violate_eq]
theorem noteMirror_moves (s : State) (a : Nat) : (s.noteMirror a).moves = s.moves := by unfold State.noteMirror; split <;> rfl
theorem storeAs_moves (s : State) (whole : Bool) (a : Nat) (bs : List Byte) : (s.storeAs whole a bs).moves = s.moves := by rw [(storeAs_ok s whole a bs).1]
theorem logErr_moves (s : State) (e : LogEntry) : (s.logErr e).moves = s.moves := by rw [logErr_eq]
theorem enterBank_moves (s : State) (a : Nat) : (s.enterBank a).moves = s.moves := by
  unfold State.enterBank
  split
  · split <;> rfl
  · rfl
theorem setFull_moves (s : State) : s.setFull.moves = s.moves := by
  unfold State.setFull
  split
  · rfl
  · exact logErr_moves _ _

theorem backInvalidate_moves (s : State) (g : Nat) (whole : Bool) : (s.backInvalidate g whole).moves = s.moves := by
  have hdrop : ∀ (l : List Nat) (u : State), (l.foldl State.dropLine u).moves = u.moves := by
    intro l
    induction l with
    | nil => exact fun _ => rfl
    | cons x l ih => exact fun u => ih (u.dropLine x)
  unfold State.backInvalidate
  dsimp only
  split
  · rfl
  · exact hdrop _ _

theorem writeAs_placed (h : s.Placed) (g : Nat) (twin whole : Bool) (a : Nat) (bs : List Byte) : (s.writeAs g twin whole a bs).2.Placed := by
  unfold State.writeAs
  split
  · exact h
  split
  · exact h.of_moves (violGlb_moves ..)
  split
  · exact h.of_moves (violGlb_moves ..)
  split
  · exact h.of_moves (violGlb_moves ..)
  split
  · exact h.of_moves (warm_moves ..)
  split
  · exact h.of_moves ((storeAs_moves ..).trans (warm_moves ..))
  split
  · refine h.of_moves ((noteMirror_moves ..).trans ((warm_moves ..).trans ?_))
    split <;> rfl
  split
  · exact (giveFrame_placed h _ _).of_moves ((storeAs_moves ..).trans (warm_moves ..))
  · exact h.of_moves (setFull_moves _)

theorem engineWriteIn_placed (h : s.Placed) (g a : Nat) (bs : List Byte) : (s.engineWriteIn g a bs).2.Placed := by
  unfold State.engineWriteIn
  extract_lets v
  have hw := writeAs_placed (h.of_moves (t := v) ((backInvalidate_moves ..).trans (enterBank_moves ..))) g false (wholeGranule a bs) a bs
  unfold State.writeIn
  generalize v.writeAs g false (wholeGranule a bs) a bs = r at hw ⊢
  obtain ⟨e, x⟩ := r
  dsimp only at hw ⊢
  split <;> exact hw

theorem writeFuel_placed (n : Nat) : ∀ {s : State}, s.Placed → ∀ g a bs, (State.writeFuel n s g a bs).2.Placed := by
  induction n with
  | zero => exact fun h _ _ _ => h
  | succ n ih =>
    intro s h g a bs
    unfold State.writeFuel
    split
    · exact h
    · exact ih (engineWriteIn_placed h _ _ _) _ _ _

theorem writeLogged_placed (h : s.Placed) (src a : Nat) (bs : List Byte) : (s.writeLogged src a bs).Placed := by
  unfold State.writeLogged
  have hw : (s.write 3 a bs).2.Placed := writeFuel_placed (bs.length / 256 + 2) h 3 a bs
  generalize s.write 3 a bs = r at hw ⊢
  obtain ⟨p, x⟩ := r
  dsimp only at hw ⊢
  split
  · exact hw.of_moves (logErr_moves ..)
  · exact hw

/-- A state whose moves and fields are those of one with nothing to decide, but for fields that are no slot's. -/
theorem State.Calm.of_serves (h : s.Calm) (hs : State.Serves AccessKey s t) (hp : t.Placed) : t.Calm :=
  calm_of h (fun m hm => hs.get (not_access (by simp [Reg.BMCm_STATE_STATE]; omega) (by simp [Reg.BMCm_STATE_STATE]; omega)
    (by simp [Reg.BMCm_STATE_STATE]) (by simp [Reg.BMCm_STATE_STATE]; omega))) hp

/-- A command's completion gives Flowstone nothing to decide. -/
theorem completeFls_calm {w : Waiter} (h : s.Calm) (h0 : s.get Reg.PCR_PSTATE_STATE = 0) (hw : w.sig < 4096) (status : Nat) :
    (s.completeFls w status).Calm := by
  unfold State.completeFls
  split
  · next a _ =>
    have hs := serves_writeLogged s 9 (a + 7) [BitVec.ofNat 8 status]
    have hc := h.of_serves hs (writeLogged_placed h.2 _ _ _)
    have hx := (hs.get (f := Reg.PCR_PSTATE_STATE) (not_access (by decide) (by decide) (by decide) (by decide))).trans h0
    dsimp only
    generalize s.writeLogged 9 (a + 7) [BitVec.ofNat 8 status] = x at hc hx ⊢
    unfold State.endWork
    split
    · rw [get_post hx]
      exact calm_of hc (fun m hm => State.get_put_ne (by simp; omega)) hc.2
    · exact hc
  · exact h

end

/-! ## A slot's state (R260) -/

/-- A slot that is IN_SERVICE or DRAINING keeps its channels. -/
theorem setSlot_powered (s : State) {m st : Nat} (hst : st = 3 ∨ st = 4) :
    s.KeepsFields (s.setSlot m st) [Reg.BMCm_STATE_STATE m, Reg.SVC_EVENT_SLOT_STATE] := by
  unfold State.setSlot
  split
  · exact keeps_refl s _
  · extract_lets s1 s2
    have h2 : s.KeepsFields s2 [Reg.BMCm_STATE_STATE m, Reg.SVC_EVENT_SLOT_STATE] := fun _ _ => rfl
    exact (h2.put (by simp)).trans ((panelEvent_ok _ _ m).1.mono (by simp))

/-- A slot that comes to be neither IN_SERVICE nor DRAINING has no channel trained. -/
theorem setSlot_channels {s : State} {m st : Nat} (hm : m < 6) (hst : ¬(st = 3 ∨ st = 4)) (hne : s.slotState m ≠ st) :
    (s.setSlot m st).get (Reg.BMCm_STATE_CHANNELS m) = 0 := by
  unfold State.setSlot
  rw [if_neg hne]
  dsimp only
  rw [if_neg hst, (panelEvent_ok _ Reg.SVC_EVENT_SLOT_STATE m).1 _ (by simp; omega), State.get_put_ne (by simp)]
  exact State.get_put_eq.trans (Nat.zero_mod _)

/-- A drain's command that nothing asked for completes nothing. -/
theorem endDrainCmd_none {s : State} (h : s.drainCmd = none) (status : Nat) : s.endDrainCmd status = { s with drainPress := none } := by
  unfold State.endDrainCmd
  dsimp only
  rw [h]

end Sys2Proof.Machine
end

section
/-! Drains of Flowstone (R262, R263): why one is refused, what an accepted and a cancelled one change, how one ends, and the loss of a cartridge (R264). -/

namespace Sys2Proof.Machine

open Sys2Proof

/-! ## DRAIN (R262) -/

/-- A pinned object holds a page on the cartridge of a slot. -/
def State.PinnedOn (u : State) (m : Nat) : Prop := ∃ o ∈ u.objects, o.pin = true ∧ ∃ e ∈ u.pages, o.covers e.1 = true ∧ e.2.onSlot m = true

/-- The frames elsewhere are too few for the pages on a cartridge and the headroom of a drain. -/
def State.FewFrames (u : State) (m : Nat) : Prop :=
  u.freeBonded + u.freeCarts - u.freeCart m < (u.pages.filter fun e => e.2.onSlot m).length + 512 * u.get Reg.FLS_POLICY_DRAIN_HEADROOM_GIB

section
variable {s u : State} {src : JobSrc} {op m r : Nat} {ws : List Nat} {w : Waiter}

theorem objOnSlot_iff (u : State) (o : Obj) (m : Nat) : u.objOnSlot o m = true ↔ ∃ e ∈ u.pages, o.covers e.1 = true ∧ e.2.onSlot m = true := by
  simp only [State.objOnSlot, State.heldPages, List.any_eq_true, List.mem_filter, and_assoc]

theorem pinnedOn_iff : (u.objects.any fun o => o.pin && u.objOnSlot o m) = true ↔ u.PinnedOn m := by
  simp only [List.any_eq_true, Bool.and_eq_true, objOnSlot_iff, State.PinnedOn]

theorem fewFrames_iff : u.freeBonded + u.freeCarts - u.freeCart m < u.heldOn m + u.get Reg.FLS_POLICY_DRAIN_HEADROOM_GIB * 512 ↔ u.FewFrames m := by
  rw [Nat.mul_comm]
  rfl

/-- The cases of R262 in which a drain is refused with a reason. -/
def State.Refuses (u : State) (m r : Nat) : Prop :=
  (r = 4 ∧ u.slotState m ≠ 3) ∨ (r = 3 ∧ u.slotState m = 3 ∧ ∃ k < 6, u.slotState k = 4) ∨
  (u.slotState m = 3 ∧ (∀ k < 6, u.slotState k ≠ 4) ∧ ((r = 2 ∧ u.PinnedOn m) ∨ (r = 1 ∧ ¬u.PinnedOn m ∧ u.FewFrames m)))

theorem drainReason_refuses (h : u.Refuses m r) : u.drainReason m = r := by
  unfold State.drainReason
  obtain ⟨rfl, h3⟩ | ⟨rfl, h3, h4⟩ | ⟨h3, h4, h⟩ := h
  · exact if_pos h3
  · rw [if_neg (not_not.mpr h3), if_pos (draining_some_iff.mpr h4)]
  · rw [if_neg (not_not.mpr h3), draining_none h4, Option.isSome_none, if_neg Bool.false_ne_true]
    obtain ⟨rfl, hp⟩ | ⟨rfl, hp, hf⟩ := h
    · exact if_pos (pinnedOn_iff.mpr hp)
    · rw [if_neg (mt pinnedOn_iff.mp hp), if_pos (fewFrames_iff.mpr hf)]

theorem drainReason_none (h3 : u.slotState m = 3) (h4 : ∀ k < 6, u.slotState k ≠ 4) (hp : ¬u.PinnedOn m) (hf : ¬u.FewFrames m) :
    u.drainReason m = 0 := by
  unfold State.drainReason
  rw [if_neg (not_not.mpr h3), draining_none h4, Option.isSome_none, if_neg Bool.false_ne_true, if_neg (mt pinnedOn_iff.mp hp),
    if_neg (mt fewFrames_iff.mp hf)]

/-- A refused drain records its reason, and its slot where none drains (log entry 44). -/
theorem refuseDrain_records (u : State) (hm : m < 6) (hr : r ≤ 4) : let x := u.refuseDrain m r
    x = { u with fields := x.fields } ∧ x.get Reg.FLS_DRAIN_REASON = r ∧
    ((∃ k < 6, u.slotState k = 4) → x.get Reg.FLS_DRAIN_SLOT = u.get Reg.FLS_DRAIN_SLOT) ∧
    ((∀ k < 6, u.slotState k ≠ 4) → x.get Reg.FLS_DRAIN_SLOT = m) ∧ u.KeepsFields x [Reg.FLS_DRAIN_REASON, Reg.FLS_DRAIN_SLOT] := by
  intro x
  have hslot : ∀ k < 6, (u.put Reg.FLS_DRAIN_REASON r).slotState k = u.slotState k := fun k hk => State.get_put_ne (by simp; omega)
  have hreason : (u.put Reg.FLS_DRAIN_REASON r).get Reg.FLS_DRAIN_REASON = r :=
    State.get_put_eq.trans (Nat.mod_eq_of_lt (Nat.lt_of_le_of_lt hr (by decide)))
  have hkeep : u.KeepsFields (u.put Reg.FLS_DRAIN_REASON r) [Reg.FLS_DRAIN_REASON, Reg.FLS_DRAIN_SLOT] := (keeps_refl u _).put (by simp)
  by_cases hd : ∃ k < 6, u.slotState k = 4
  · have hx : x = u.put Reg.FLS_DRAIN_REASON r :=
      if_pos (draining_some_iff.mpr (hd.imp fun k hk => ⟨hk.1, (hslot k hk.1).trans hk.2⟩))
    rw [hx]
    exact ⟨rfl, hreason, fun _ => State.get_put_ne (by decide), fun hno => absurd hd.choose_spec.2 (hno _ hd.choose_spec.1), hkeep⟩
  · have hno : ∀ k < 6, u.slotState k ≠ 4 := fun k hk h4 => hd ⟨k, hk, h4⟩
    have hx : x = (u.put Reg.FLS_DRAIN_REASON r).put Reg.FLS_DRAIN_SLOT m := by
      refine if_neg fun hs => ?_
      obtain ⟨k, hk, h4⟩ := draining_some_iff.mp hs
      exact hno k hk ((hslot k hk).symm.trans h4)
    rw [hx]
    exact ⟨rfl, (State.get_put_ne (by decide)).trans hreason, fun h => absurd h hd,
      fun _ => State.get_put_eq.trans (Nat.mod_eq_of_lt (Nat.lt_trans hm (by decide))), hkeep.put (by simp)⟩

/-- The state that an accepted drain settles: moves to the cartridge are aborted, and the slot drains (R262, R263). -/
def State.startDrain (s : State) (m : Nat) (cmd : Option Waiter) : State :=
  { ((s.put Reg.FLS_DRAIN_SLOT m).abortMoves fun v => v.goesTo m).setSlot m 4 with drainCmd := cmd, drainPress := none }

theorem startDrain_rel (u : State) (hm : m < 6) (cmd : Option Waiter) : let x := u.startDrain m cmd
    x.slotState m = 4 ∧ (∀ k < 6, k ≠ m → x.slotState k = u.slotState k) ∧ x.get Reg.FLS_DRAIN_SLOT = m ∧
    u.KeepsFields x [Reg.FLS_DRAIN_SLOT, Reg.BMCm_STATE_STATE m, Reg.SVC_EVENT_SLOT_STATE] ∧
    x = { u with fields := x.fields, irq := x.irq, slotPower := x.slotPower, drainCmd := cmd, drainPress := none
                 moves := u.moves.filter fun v => !v.goesTo m } := by
  intro x
  have hput : u.KeepsFields ((u.put Reg.FLS_DRAIN_SLOT m).abortMoves fun v => v.goesTo m)
      [Reg.FLS_DRAIN_SLOT, Reg.BMCm_STATE_STATE m, Reg.SVC_EVENT_SLOT_STATE] := (keeps_refl u _).put (by simp)
  have hset := setSlot_powered ((u.put Reg.FLS_DRAIN_SLOT m).abortMoves fun v => v.goesTo m) (m := m) (st := 4) (.inr rfl)
  obtain ⟨hst, -, F, I, P, heq⟩ := setSlot_ok ((u.put Reg.FLS_DRAIN_SLOT m).abortMoves fun v => v.goesTo m) m 4 hm (by decide)
  refine ⟨hst, fun k hk hne => ?_, ?_, hput.trans (hset.mono (by simp)), ?_⟩
  · exact (hset _ (by simp; omega)).trans (State.get_put_ne (by simp; omega))
  · exact (hset _ (by simp; omega)).trans (State.get_put_eq.trans (Nat.mod_eq_of_lt (Nat.lt_trans hm (by decide))))
  · simp only [x, State.startDrain]
    rw [heq]
    rfl

/-- An accepted drain queues a relocation for each object that holds a page on the cartridge and is in no other move. -/
theorem acceptDrain_relocates (u : State) (hm : m < 6) (hno : ∀ k < 6, u.slotState k ≠ 4) (cmd : Option Waiter) {o : Obj} (ho : o ∈ u.objects)
    (hp : ∃ e ∈ u.pages, o.covers e.1 = true ∧ e.2.onSlot m = true) (hv : ∀ v ∈ u.moves, v.isOf o.id = true → v.goesTo m = true) :
    ∃ v ∈ (u.acceptDrain m cmd none).moves, v.isOf o.id = true ∧ v.kind = .relocation := by
  obtain ⟨hst, hother, -, -, heq⟩ := startDrain_rel u hm cmd
  have hobj : (u.startDrain m cmd).objects = u.objects := by rw [heq]
  have hpages : (u.startDrain m cmd).pages = u.pages := by rw [heq]
  have hmoves : (u.startDrain m cmd).moves = u.moves.filter fun v => !v.goesTo m := by rw [heq]
  have hd : (u.startDrain m cmd).draining = some m := draining_eq hm hst fun k hk hne => (hother k hk hne).trans_ne (hno k hk)
  obtain ⟨v, hvm, hof, hk⟩ := sync_relocates hd (o := o) (hobj ▸ ho) ((objOnSlot_iff _ o m).mpr (hpages ▸ hp)) fun v hvm => by
    rw [hmoves, List.mem_filter] at hvm
    cases hof : v.isOf o.id
    · rfl
    · exact absurd hvm.2 (by rw [hv v hvm.1 hof]; decide)
  have hpage : v.page = none := by
    simp only [Move.isOf, Bool.and_eq_true, Option.isNone_iff_eq_none] at hof
    exact hof.1
  obtain ⟨-, -, hstays⟩ := decides_room (u.startDrain m cmd).syncDrain.waitingPrefetches _ (u.startDrain m cmd).syncDrain
  exact ⟨v, hstays v hvm hpage, hof, hk⟩

theorem acceptDrain_rel (u : State) (hm : m < 6) (cmd : Option Waiter) : let t := u.acceptDrain m cmd none
    t.slotState m = 4 ∧ t.get Reg.FLS_DRAIN_SLOT = m ∧ t.drainCmd = cmd ∧
    u.KeepsFields t [Reg.FLS_DRAIN_SLOT, Reg.BMCm_STATE_STATE m, Reg.SVC_EVENT_SLOT_STATE] ∧
    t = { u with fields := t.fields, irq := t.irq, slotPower := t.slotPower, drainCmd := t.drainCmd, drainPress := none, moves := t.moves } ∧
    ∀ v ∈ t.moves, v.goesTo m = false := by
  intro t
  obtain ⟨hst, -, hslot, hkeep, heq⟩ := startDrain_rel u hm cmd
  obtain ⟨hrest, hnew, -⟩ := decides_settle (u.startDrain m cmd)
  have ht : t = { u.startDrain m cmd with moves := t.moves } := hrest
  have hget : ∀ f, t.get f = (u.startDrain m cmd).get f := fun f => by rw [ht]; rfl
  have hmoves : (u.startDrain m cmd).moves = u.moves.filter fun v => !v.goesTo m := by rw [heq]
  refine ⟨(hget _).trans hst, (hget _).trans hslot, ?_, fun f hf => (hget f).trans (hkeep f hf), ?_, fun v hv => ?_⟩
  · rw [ht]
    rfl
  · rw [ht, heq]
  · obtain hv | hv := hnew v hv
    · rw [hmoves, List.mem_filter, Bool.not_eq_true'] at hv
      exact hv.2
    · unfold Move.goesTo
      rw [hv]
      rfl

theorem drain_does (hs : s.InRun) (hh : s.FlsHead src 9 ws w u) (hr : flsReservedOk ws = true) :
    (5 < recBits ws 1 2 0 → Does (.drain src) s fun t => u.FlsDone t w 2) ∧
    (∀ r, recBits ws 1 2 0 ≤ 5 → u.Refuses (recBits ws 1 2 0) r → Does (.drain src) s fun t => (u.refuseDrain (recBits ws 1 2 0) r).FlsDone t w 5) ∧
    (recBits ws 1 2 0 ≤ 5 → u.drainReason (recBits ws 1 2 0) = 0 → exec (.drain src) s = .next (u.acceptDrain (recBits ws 1 2 0) (some w) none)) := by
  have he := exec_head (c := .drain src) hh rfl (by decide) hr (.inl rfl)
  refine ⟨fun h5 => ⟨_, he.trans (congrArg _ (if_pos h5)), done_after hs hh (by rfl) 2⟩, fun r h5 hrf => ?_, fun h5 hz => ?_⟩
  · have hreason := drainReason_refuses hrf
    have hle : r ≤ 4 := by
      unfold State.Refuses at hrf
      omega
    have hne : ¬u.drainReason (recBits ws 1 2 0) = 0 := by
      unfold State.Refuses at hrf
      omega
    obtain ⟨-, -, -, -, hkeep⟩ := refuseDrain_records u (m := recBits ws 1 2 0) (by omega) hle
    refine ⟨_, he.trans (congrArg _ ((if_neg (by omega)).trans (if_neg hne))), ?_⟩
    rw [hreason]
    exact done_after hs hh (hkeep _ (by simp)) 5
  · exact he.trans (congrArg _ ((if_neg (by omega)).trans (if_pos hz)))

/-! ## DRAIN_CANCEL (R263) -/

/-- The state in which the drain of a slot has been cancelled that no command waits for. -/
def State.cancelled (s : State) (m : Nat) : State := { (s.abortMoves fun v => v.kind == .relocation).setSlot m 3 with drainPress := none }

theorem cancelled_rel (u : State) (hm : m < 6) : let x := u.cancelled m
    x.slotState m = 3 ∧ (∀ k < 6, k ≠ m → x.slotState k = u.slotState k) ∧ u.KeepsFields x [Reg.BMCm_STATE_STATE m, Reg.SVC_EVENT_SLOT_STATE] ∧
    x = { u with fields := x.fields, irq := x.irq, slotPower := x.slotPower, drainPress := none
                 moves := u.moves.filter fun v : Move => v.kind != MoveKind.relocation } := by
  intro x
  have hset := setSlot_powered (u.abortMoves fun v => v.kind == .relocation) (m := m) (st := 3) (.inl rfl)
  obtain ⟨hst, -, F, I, P, heq⟩ := setSlot_ok (u.abortMoves fun v => v.kind == .relocation) m 3 hm (by decide)
  refine ⟨hst, fun k hk hne => hset _ (by simp; omega), hset, ?_⟩
  simp only [x, State.cancelled]
  rw [heq]
  rfl

theorem cancelDrain_eq (hm : m < 6) (hno : ∀ k < 6, k ≠ m → u.slotState k ≠ 4) (hd : u.drainCmd = none)
    (hp : ∀ v ∈ u.moves, v.kind = .promotion → v.prefetch ≠ none → v.started = true) : u.cancelDrain m false = u.cancelled m := by
  obtain ⟨hst, hother, -, heq⟩ := cancelled_rel u hm
  have hmoves : (u.cancelled m).moves = u.moves.filter fun v : Move => v.kind != MoveKind.relocation := by rw [heq]
  have hcalm : (u.cancelled m).Calm := by
    refine ⟨fun k hk => ?_, fun v hv => hp v (List.mem_filter.mp (hmoves ▸ hv)).1⟩
    by_cases hkm : k = m
    · rw [hkm, hst]
      decide
    · exact (hother k hk hkm).trans_ne (hno k hk hkm)
  have hcmd : ((u.abortMoves fun v => v.kind == .relocation).setSlot m 3).drainCmd = none := by
    obtain ⟨-, -, F, I, P, heq⟩ := setSlot_ok (u.abortMoves fun v => v.kind == .relocation) m 3 hm (by decide)
    rw [heq]
    exact hd
  show (((u.abortMoves fun v => v.kind == .relocation).setSlot m 3).endDrainCmd 6).settle = _
  rw [endDrainCmd_none hcmd]
  exact settle_calm hcalm

theorem drainCancel_does (hs : s.InRun) (hh : s.FlsHead src 10 ws w u) (hr : flsReservedOk ws = true) :
    (5 < recBits ws 1 2 0 → Does (.drainCancel src) s fun t => u.FlsDone t w 2) ∧
    (recBits ws 1 2 0 ≤ 5 → u.slotState (recBits ws 1 2 0) ≠ 4 → Does (.drainCancel src) s fun t => u.FlsDone t w 1) ∧
    (recBits ws 1 2 0 ≤ 5 → u.slotState (recBits ws 1 2 0) = 4 → (∀ k < 6, k ≠ recBits ws 1 2 0 → u.slotState k ≠ 4) → u.drainCmd = none →
      (∀ v ∈ u.moves, v.kind = .promotion → v.prefetch ≠ none → v.started = true) →
      Does (.drainCancel src) s fun t => (u.cancelled (recBits ws 1 2 0)).FlsDone t w 1) := by
  have he := exec_head (c := .drainCancel src) hh rfl (by decide) hr (.inl rfl)
  refine ⟨fun h5 => ⟨_, he.trans (congrArg _ (if_pos h5)), done_after hs hh (by rfl) 2⟩, fun h5 hne => ?_, fun h5 h4 hno hd hp => ?_⟩
  · refine ⟨_, he.trans (congrArg _ (if_neg (by omega))), ?_⟩
    rw [if_neg hne]
    exact done_after hs hh (by rfl) 1
  · obtain ⟨-, -, hkeep, -⟩ := cancelled_rel u (m := recBits ws 1 2 0) (by omega)
    refine ⟨_, he.trans (congrArg _ (if_neg (by omega))), ?_⟩
    rw [if_pos h4, cancelDrain_eq (by omega) hno hd hp]
    exact done_after hs hh (hkeep _ (by simp; omega)) 1

/-! ## The end of a drain (R263) -/

/-- The state in which a drained slot has become SAFE and its drain is over. -/
def State.drainOver (s : State) (m : Nat) : State := { s.setSlot m 5 with drainCmd := none, drainPress := none }

theorem drainOver_rel (s : State) (hm : m < 6) (h4 : s.slotState m = 4) : let x := s.drainOver m
    x.slotState m = 5 ∧ x.get (Reg.BMCm_STATE_CHANNELS m) = 0 ∧
    s.KeepsFields x [Reg.BMCm_STATE_STATE m, Reg.BMCm_STATE_CHANNELS m, Reg.SVC_EVENT_SLOT_STATE] ∧
    x = { s with fields := x.fields, irq := x.irq, slotPower := x.slotPower, drainCmd := none, drainPress := none } ∧ (s.setSlot m 5).drainCmd = s.drainCmd := by
  intro x
  obtain ⟨hst, hkeep, F, I, P, heq⟩ := setSlot_ok s m 5 hm (by decide)
  refine ⟨hst, setSlot_channels hm (by decide) (by omega), hkeep, ?_, ?_⟩
  · simp only [x, State.drainOver]
    rw [heq]
  · rw [heq]

theorem drainComplete_does (hs : s.InRun) (hm : m < 6) (h4 : s.slotState m = 4) (hno : ∀ k < 6, k ≠ m → s.slotState k ≠ 4)
    (hp : ∀ e ∈ s.pages, e.2.onSlot m = false) : exec .drainComplete s = .next (((s.setSlot m 5).endDrainCmd 1).settle) := by
  have hheld : s.heldOn m = 0 := List.length_eq_zero_iff.mpr (List.filter_eq_nil_iff.mpr fun e he => by rw [hp e he]; decide)
  show execDrainComplete s = _
  unfold execDrainComplete
  rw [draining_eq hm h4 hno]
  dsimp only
  rw [hs.2, hheld]
  rfl

end

/-! ## The loss of a cartridge (R264) -/

/-- The pages whose frames lie on the cartridge of a slot. -/
def State.pagesOn (s : State) (m : Nat) : List Nat := (s.pages.filter fun e => e.2.onSlot m).map (·.1)

theorem mem_pagesOn {s : State} {m p : Nat} : p ∈ s.pagesOn m ↔ ∃ f, (p, f) ∈ s.pages ∧ f.onSlot m = true := by
  unfold State.pagesOn
  simp only [List.mem_map, List.mem_filter, Prod.exists, exists_and_right, exists_eq_right]

/-- The state in which the moves that a cartridge's loss ends are aborted. -/
def State.lossAborts (s : State) (m : Nat) : State := s.abortMoves fun v => v.goesTo m || (!v.started && v.kind == .relocation)

/-- The state in which the pages of a cartridge are lost. -/
def State.lossPages (s : State) (m : Nat) : State := (s.pagesOn m).foldl State.losePage (s.lossAborts m)

/-- The state in which a lost cartridge's slot has FAILED, with its log entries. -/
def State.lossFails (s : State) (m : Nat) (objs : List Obj) (lone : List Nat) : State :=
  (((s.lossPages m).countSat (Reg.BMCm_ERR_POISONED m) (8192 * (s.pagesOn m).length)).setSlot m 6).logLoss objs lone

section
variable {s : State} {m : Nat}

theorem lossPages_rel (s : State) (m : Nat) : (s.lossAborts m).LostTo (s.lossPages m) (s.pagesOn m) := lose_pages (s.pagesOn m) (s.lossAborts m)

/-- A slot's failure and its log entries change fields, interrupts and power alone. -/
theorem lossFails_rel (hm : m < 6) (objs : List Obj) (lone : List Nat) : let x := s.lossFails m objs lone
    x.slotState m = 6 ∧ (∀ k < 6, k ≠ m → x.slotState k = s.slotState k) ∧
    x = { s.lossPages m with fields := x.fields, irq := x.irq, slotPower := x.slotPower } := by
  intro x
  have hcount : ∀ k < 6, ((s.lossPages m).countSat (Reg.BMCm_ERR_POISONED m) (8192 * (s.pagesOn m).length)).slotState k = s.slotState k := fun k hk => by
    refine (State.get_put_ne (by simp; omega)).trans ?_
    show (s.lossPages m).get _ = _
    rw [(lossPages_rel s m).1]
    rfl
  obtain ⟨hst, -, F, I, P, heq⟩ := setSlot_ok ((s.lossPages m).countSat (Reg.BMCm_ERR_POISONED m) (8192 * (s.pagesOn m).length)) m 6 hm (by decide)
  obtain ⟨G, J, hlog, hslot⟩ := logLoss_eq (((s.lossPages m).countSat (Reg.BMCm_ERR_POISONED m) (8192 * (s.pagesOn m).length)).setSlot m 6) objs lone
  refine ⟨(hslot m hm).trans hst, fun k hk hne => (hslot k hk).trans ((setSlot_other hm hk hne (by decide)).trans (hcount k hk)), ?_⟩
  simp only [x, State.lossFails]
  rw [hlog, heq]
  rfl

/-- The loss of a cartridge while no move has started. -/
theorem loseCartridge_eq (hmv : ∀ v ∈ s.moves, v.started = false) : ∃ objs lone, s.loseCartridge m =
    (if s.slotState m == 4 then (s.lossFails m objs lone).endDrainCmd 7 else s.lossFails m objs lone).settle := by
  have hmoves : (s.lossPages m).moves = (s.lossAborts m).moves := by rw [(lossPages_rel s m).1]
  have hnone : ((s.lossPages m).moves.filter fun v => v.started && v.dest.any fun e => (s.pagesOn m).contains e.1) = [] := by
    rw [hmoves, List.filter_eq_nil_iff]
    intro v hv
    rw [hmv v (List.mem_filter.mp hv).1, Bool.false_and]
    exact Bool.false_ne_true
  refine ⟨s.objects.filter fun o => (s.pagesOn m).any o.covers, (s.pagesOn m).filter fun p => (s.objectOf p).isNone, ?_⟩
  unfold State.loseCartridge
  extract_lets was gone objs lone s1 s2 s3 s4 s5
  have h4 : s4 = s3 := congrArg (List.foldl State.switchMove s3) hnone
  have h5 : s5 = s.lossFails m objs lone := congrArg (fun x : State => (x.setSlot m 6).logLoss objs lone) h4
  rw [h5]
  rfl

/-- What the loss of a cartridge leaves beside memory: fields, interrupts, power and the queue of moves. -/
theorem loseCartridge_rel (hm : m < 6) (hd : s.drainCmd = none) (hmv : ∀ v ∈ s.moves, v.started = false) : let t := s.loseCartridge m
    t.slotState m = 6 ∧ (∀ k < 6, k ≠ m → t.slotState k = s.slotState k) ∧
    t = { s.lossPages m with fields := t.fields, irq := t.irq, slotPower := t.slotPower, drainPress := t.drainPress, moves := t.moves } := by
  intro t
  obtain ⟨objs, lone, heq⟩ := loseCartridge_eq (m := m) hmv
  obtain ⟨hst, hother, hx⟩ := lossFails_rel (s := s) hm objs lone
  have hcmd : (s.lossFails m objs lone).drainCmd = none := by
    rw [hx, (lossPages_rel s m).1]
    exact hd
  rw [endDrainCmd_none hcmd] at heq
  generalize s.lossFails m objs lone = x at heq hst hother hx
  have hend : ∃ p, t = State.settle { x with drainPress := p } := by
    split at heq
    · exact ⟨none, heq⟩
    · exact ⟨x.drainPress, heq⟩
  obtain ⟨p, ht⟩ := hend
  have hdec := (decides_settle { x with drainPress := p }).1
  rw [← ht] at hdec
  refine ⟨?_, fun k hk hne => ?_, ?_⟩
  · rw [hdec]
    exact hst
  · rw [hdec]
    exact hother k hk hne
  · rw [hdec, hx]

/-- What the loss of a cartridge leaves of a page: lost, without a frame and poisoned, or as it was. -/
theorem loseCartridge_page (hm : m < 6) (hd : s.drainCmd = none) (hmv : ∀ v ∈ s.moves, v.started = false) (p : Nat) : let t := s.loseCartridge m
    (p ∈ s.pagesOn m → t.frameOf p = none ∧ t.populatedPage p = true ∧ ∀ i < 2 ^ 21, t.poisoned (granuleOf (p * 2 ^ 21 + i)) = true) ∧
    (p ∉ s.pagesOn m → t.frameOf p = s.frameOf p ∧ ∀ i < 2 ^ 21, memByte t.mem (p * 2 ^ 21 + i) = memByte s.mem (p * 2 ^ 21 + i) ∧
      t.poisoned (granuleOf (p * 2 ^ 21 + i)) = s.poisoned (granuleOf (p * 2 ^ 21 + i))) := by
  intro t
  obtain ⟨-, -, ht⟩ : _ ∧ _ ∧ t = _ := loseCartridge_rel hm hd hmv
  clear_value t
  obtain ⟨-, hframe, hlost, -, hpoison, hmem⟩ := lossPages_rel s m
  have hf : t.frameOf p = (s.lossPages m).frameOf p := by rw [ht]; rfl
  have hl : t.lostPages = (s.lossPages m).lostPages := by rw [ht]
  have hb : t.mem = (s.lossPages m).mem := by rw [ht]
  have hg : ∀ g, t.poisoned g = (s.lossPages m).poisoned g := fun g => by rw [ht]; rfl
  have hpage : ∀ i < 2 ^ 21, (p * 2 ^ 21 + i) / 2 ^ 21 = p := fun i hi => by omega
  have hgran : ∀ i < 2 ^ 21, granuleOf (p * 2 ^ 21 + i) / 8192 = p := fun i hi => by unfold granuleOf; omega
  refine ⟨fun hp => ⟨hf.trans ((hframe p).trans (if_pos hp)), ?_, fun i hi => (hg _).trans ((hpoison _).trans (if_pos ?_))⟩,
    fun hp => ⟨hf.trans ((hframe p).trans (if_neg hp)), fun i hi => ⟨?_, (hg _).trans ((hpoison _).trans (if_neg ?_))⟩⟩⟩
  · unfold State.populatedPage
    rw [hl, hlost p hp, Bool.or_true]
  · exact (hgran i hi).symm ▸ hp
  · rw [hb]
    exact hmem _ ((hpage i hi).symm ▸ hp)
  · exact (hgran i hi).symm ▸ hp

end

end Sys2Proof.Machine
end

section
/-! Epochs, moves, deadlines and waiting writes of Flowstone (R240, R248, R251 to R254, R257, R258), and from them O46. -/

namespace Sys2Proof.Machine

open Sys2Proof

/-! ## ENABLE (R242) -/

theorem flsEnable_does {s : State} (hsig : s.get Reg.FLS_CTL_JOB_SIG < 4096) : s.flsEnable.get Reg.FLS_CTL_ENABLE = 1 ∧
    s.flsEnable.ring 3 = ⟨s.sig (s.get Reg.FLS_CTL_JOB_SIG), 0, []⟩ ∧ s.KeepsFields s.flsEnable [Reg.FLS_CTL_ENABLE] ∧
    s.flsEnable = { s with fields := s.flsEnable.fields, rings := s.flsEnable.rings } := by
  have hkeep : s.KeepsFields (s.put Reg.FLS_CTL_ENABLE 1) [Reg.FLS_CTL_ENABLE] := (keeps_refl s _).put (List.mem_singleton_self _)
  refine ⟨State.get_put_eq, ?_, hkeep, rfl⟩
  rw [← hkeep.sig (by decide) hsig]
  exact ring_enableRing _ 3 _ 3

/-! ## Epochs (R248, R250) -/

theorem decides_epochPromote (h : Nat) (l : List Obj) : ∀ (free : Int) (s : State), s.Decides (State.epochPromote h l free s) := by
  induction l with
  | nil => exact fun _ => decides_refl
  | cons o l ih =>
    intro free s
    unfold State.epochPromote
    extract_lets need go
    have hgo : ∀ (free : Int) (s : State), s.Decides (go free s) := fun free s => (decides_queue s _ rfl).trans (ih _ _)
    split
    · exact hgo _ _
    · split
      · exact (decides_fold _ decides_demotion _ s).trans (hgo _ _)
      · exact decides_refl s

theorem epochEnd_waits {s : State} (h : s.get Reg.FLS_POLICY_EPOCH_US = 0 ∨ s.nowUs < s.nextEpoch) : exec .epochEnd s = .next s :=
  congrArg Host.Outcome.next (if_pos h)

/-- The end of an epoch halves the heat, and decides on moves alone. -/
theorem epochEnd_does {s : State} (h0 : s.get Reg.FLS_POLICY_EPOCH_US ≠ 0) (hn : s.nextEpoch ≤ s.nowUs) : Does .epochEnd s fun t =>
    t = { s with heat := halveHeat s.heat, epochAt := s.nextEpoch, moves := t.moves } ∧
    (s.get Reg.FLS_POLICY_AUTO = 0 → s.Calm → t.moves = s.moves) := by
  have hno : ¬(s.get Reg.FLS_POLICY_EPOCH_US = 0 ∨ s.nowUs < s.nextEpoch) := by
    rintro (h | h)
    · exact h0 h
    · exact Nat.not_lt.mpr hn h
  have hdec : s.Decides (if s.flag Reg.FLS_POLICY_AUTO then s.epochDecide else s) := by
    split
    · exact decides_epochPromote _ _ _ s
    · exact decides_refl s
  have hauto : s.get Reg.FLS_POLICY_AUTO = 0 → (if s.flag Reg.FLS_POLICY_AUTO then s.epochDecide else s) = s := fun ha => by
    rw [flag_eq, ha]
    rfl
  refine ⟨_, congrArg Host.Outcome.next (if_neg hno), ?_⟩
  dsimp only
  generalize (if s.flag Reg.FLS_POLICY_AUTO then s.epochDecide else s) = x at hdec hauto
  have hrest := (decides_settle { x with heat := halveHeat x.heat, epochAt := x.nextEpoch }).1
  refine ⟨?_, fun ha hc => ?_⟩
  · rw [hrest, hdec.1]
    rfl
  · have hset := settle_calm (s := { s with heat := halveHeat s.heat, epochAt := s.nextEpoch }) hc
    rw [hauto ha, hset]

/-! ## The start of a move (R251, R254) -/

section
variable {s : State} {m : Move}

/-- The state in which a move has started with its destination frames. -/
def State.withStarted (s : State) (m : Move) (d : Map Frame) : State :=
  { s with moves := s.moves.map fun x : Move => if x = m then { m with started := true, dest := d } else x }

theorem moveStart_starts {d : Map Frame} (hs : s.held = false) (h8 : (s.moves.filter (·.started)).length < 8)
    (hm : (s.startOrder.find? fun v => s.mayStart v && (s.planDest v).isSome) = some m) (hd : s.planDest m = some d) :
    exec .moveStart s = .next (s.withStarted m d).settle := by
  show execMoveStart s = _
  unfold execMoveStart
  rw [hs, decide_eq_false (Nat.not_le.mpr h8), hm]
  dsimp only
  rw [hd]
  rfl

theorem mem_startOrder (hm : m ∈ s.startOrder) : m ∈ s.moves := by
  unfold State.startOrder byDeadline at hm
  obtain hm | hm := List.mem_append.mp hm
  · exact (List.mem_filter.mp ((sortBy_mem _ m _).mp ((sortBy_mem _ m _).mp hm))).1
  · exact (List.mem_filter.mp hm).1

theorem moveStart_waits (h : ∀ m ∈ s.moves, s.mayStart m = true → s.planDest m = none) : exec .moveStart s = .next s := by
  have hnone : (s.startOrder.find? fun v => s.mayStart v && (s.planDest v).isSome) = none := by
    rw [List.find?_eq_none]
    intro m hm hgo
    rw [Bool.and_eq_true] at hgo
    rw [h m (mem_startOrder hm) hgo.1] at hgo
    exact Bool.false_ne_true hgo.2
  show execMoveStart s = _
  unfold execMoveStart
  rw [hnone]
  exact congrArg Host.Outcome.next (ite_self _)

/-! ## The switch of a move (R253, R258) -/

/-- The state in which a move has left the queue and its pages have their new frames. -/
def State.switched (s : State) (m : Move) : State := m.dest.foldl State.switchPage { s with moves := s.moves.erase m }

theorem switchPages_rel (d : Map Frame) : ∀ s : State, let x := d.foldl State.switchPage s
    x = { s with pages := x.pages, lostPages := x.lostPages, fields := x.fields } ∧ s.KeepsFields x [Reg.FLS_MOVED_COUNT, Reg.FLS_ELIDED_COUNT] := by
  induction d with
  | nil => exact fun s => ⟨rfl, keeps_refl s _⟩
  | cons e d ih =>
    intro s
    obtain ⟨hone, hkeep, -⟩ := switch_one s e
    obtain ⟨hrest, hkeeps⟩ := ih (s.switchPage e)
    refine ⟨?_, hkeep.trans hkeeps⟩
    rw [hone] at hrest
    exact hrest

theorem switched_rel (s : State) (m : Move) :
    s.switched m = { s with moves := s.moves.erase m, pages := (s.switched m).pages, lostPages := (s.switched m).lostPages, fields := (s.switched m).fields } ∧
    s.KeepsFields (s.switched m) [Reg.FLS_MOVED_COUNT, Reg.FLS_ELIDED_COUNT] := switchPages_rel m.dest { s with moves := s.moves.erase m }

theorem switched_calm (h : s.Calm) (m : Move) : (s.switched m).Calm := by
  obtain ⟨heq, hkeep⟩ := switched_rel s m
  have hmoves : (s.switched m).moves = s.moves.erase m := by rw [heq]
  exact calm_of h (fun k hk => hkeep _ (by simp; omega)) fun v hv => h.2 v (List.mem_of_mem_erase (hmoves ▸ hv))

theorem moveSwitch_switches {k : Fin 8} (hs : s.held = false) (hm : (s.moves.filter (·.started))[k.val]? = some m) :
    exec (.moveSwitch k) s = .next (s.switchMove m).settle := by
  show execMoveSwitch k s = _
  unfold execMoveSwitch
  rw [hs, hm]
  rfl

/-- The waiters whose deadlines have come, of whom there may be none. -/
theorem lateOnes_none (h : ∀ w ∈ m.waiters, s.nowUs < w.deadline) : s.lateOnes m = s := by
  have hnone : (m.waiters.filter fun w => decide (w.deadline ≤ s.nowUs)) = [] := by
    rw [List.filter_eq_nil_iff]
    intro w hw
    rw [decide_eq_true_eq, Nat.not_le]
    exact h w hw
  unfold State.lateOnes
  rw [hnone]
  rfl

theorem lateOnes_one {w : Waiter} (hw : m.waiters = [w]) (h : w.deadline ≤ s.nowUs) : s.lateOnes m = (s.count Reg.FLS_DL_MISS 1).completeFls w 4 := by
  unfold State.lateOnes
  rw [hw, List.filter_singleton, decide_eq_true h]
  rfl

/-- The switch of a move that no PIN waits for and that need not be evicted. -/
theorem switchMove_eq (hp : m.pins = []) (he : m.evict = false) : s.switchMove m =
    (m.waiters.filter fun w => decide (s.nowUs < w.deadline)).foldl State.prefetchMet ((s.switched m).lateOnes m) := by
  have hnow : (s.switched m).nowUs = s.nowUs := by rw [(switched_rel s m).1]; rfl
  unfold State.switchMove
  extract_lets s1 s2 s3 s4 s5
  have h4 : s4 = s3 := if_pos hp
  have h5 : s5 = s4 := congrArg (s4.completeAll · 1) hp
  rw [he, if_neg Bool.false_ne_true, h5, h4, ← hnow]
  rfl

/-- A prefetch is met before its deadline, and late from it on. -/
theorem switchMove_waiter {w : Waiter} (hw : m.waiters = [w]) (hp : m.pins = []) (he : m.evict = false) : s.switchMove m =
    ((s.switched m).count (if s.nowUs < w.deadline then Reg.FLS_DL_MET else Reg.FLS_DL_MISS) 1).completeFls w (if s.nowUs < w.deadline then 1 else 4) := by
  have hnow : (s.switched m).nowUs = s.nowUs := by rw [(switched_rel s m).1]; rfl
  rw [switchMove_eq hp he, hw, List.filter_singleton]
  by_cases h : s.nowUs < w.deadline
  · rw [decide_eq_true h, if_pos h, if_pos h, lateOnes_none (by rw [hw, hnow]; exact List.forall_mem_singleton.mpr h)]
    rfl
  · rw [decide_eq_false h, if_neg h, if_neg h, lateOnes_one hw (by rw [hnow]; omega)]
    rfl

/-! ## Deadlines (R257, R258) -/

theorem lateOnes_fold (l : List Move) (s : State) (h : ∀ m ∈ l, ∀ w ∈ m.waiters, s.nowUs < w.deadline) : l.foldl State.lateOnes s = s := by
  induction l with
  | nil => rfl
  | cons m l ih =>
    rw [List.foldl_cons, lateOnes_none (h m List.mem_cons_self)]
    exact ih fun v hv => h v (List.mem_cons_of_mem m hv)

theorem dropLate_id {now : Nat} (h : ∀ w ∈ m.waiters, now < w.deadline) : m.dropLate now = m := by
  unfold Move.dropLate
  rw [List.filter_eq_self.mpr fun w hw => decide_eq_true (h w hw)]

theorem prefetchLate_none {obj : BitVec 16} (h : ∀ m ∈ s.moves, m.isOf obj.toNat = true → ∀ w ∈ m.waiters, s.nowUs < w.deadline) :
    exec (.prefetchLate obj) s = .next s := by
  have hmap : (s.moves.map fun m => if m.isOf obj.toNat then m.dropLate s.nowUs else m) = s.moves := by
    refine (List.map_congr_left fun m hm => ?_).trans (List.map_id' _)
    split
    · next hof => exact dropLate_id (h m hm hof)
    · rfl
  show execPrefetchLate obj s = _
  unfold execPrefetchLate
  dsimp only
  rw [hmap]
  exact congrArg Host.Outcome.next (lateOnes_fold _ s fun m hm => h m (List.mem_filter.mp hm).1 (List.mem_filter.mp hm).2)

theorem prefetchLate_one {obj : BitVec 16} {l r : List Move} {w : Waiter} (hmv : s.moves = l ++ m :: r) (hof : m.isOf obj.toNat = true)
    (hother : ∀ v ∈ l ++ r, v.isOf obj.toNat = false) (hw : m.waiters = [w]) (hd : w.deadline ≤ s.nowUs) : exec (.prefetchLate obj) s =
      .next ((State.count { s with moves := l ++ { m with waiters := [] } :: r } Reg.FLS_DL_MISS 1).completeFls w 4) := by
  have hno : ∀ v ∈ l ++ r, ¬v.isOf obj.toNat = true := fun v hv => by
    rw [hother v hv]
    exact Bool.false_ne_true
  have hl : ∀ v ∈ l, ¬v.isOf obj.toNat = true := fun v hv => hno v (List.mem_append_left r hv)
  have hr : ∀ v ∈ r, ¬v.isOf obj.toNat = true := fun v hv => hno v (List.mem_append_right l hv)
  have hfilter : (s.moves.filter fun v => v.isOf obj.toNat) = [m] := by
    rw [hmv, List.filter_append, List.filter_cons, if_pos hof, List.filter_eq_nil_iff.mpr hl, List.filter_eq_nil_iff.mpr hr, List.nil_append]
  have hdrop : m.dropLate s.nowUs = { m with waiters := [] } := by
    unfold Move.dropLate
    rw [hw, List.filter_singleton, decide_eq_false (Nat.not_lt.mpr hd)]
    rfl
  have hsame : ∀ l' : List Move, (∀ v ∈ l', ¬v.isOf obj.toNat = true) → (l'.map fun v => if v.isOf obj.toNat then v.dropLate s.nowUs else v) = l' :=
    fun l' h => (List.map_congr_left fun v hv => if_neg (h v hv)).trans (List.map_id' _)
  have hmap : (s.moves.map fun v => if v.isOf obj.toNat then v.dropLate s.nowUs else v) = l ++ { m with waiters := [] } :: r := by
    rw [hmv, List.map_append, List.map_cons, if_pos hof, hdrop, hsame l hl, hsame r hr]
  show execPrefetchLate obj s = _
  unfold execPrefetchLate
  dsimp only
  rw [hmap, hfilter]
  exact congrArg Host.Outcome.next (lateOnes_one hw hd)

theorem wantedExpire_keeps {obj : BitVec 16} {o : Obj} (ho : s.objById obj.toNat = some o) (h : o.wanted = none ∨ s.isWanted o = true) :
    exec (.wantedExpire obj) s = .next s := by
  show execWantedExpire obj s = _
  unfold execWantedExpire
  rw [ho]
  refine congrArg Host.Outcome.next (if_neg ?_)
  rw [Bool.and_eq_true, Bool.not_eq_true']
  rintro ⟨hsome, hno⟩
  obtain h | h := h
  · rw [h] at hsome
    cases hsome
  · exact Bool.false_ne_true (hno.symm.trans h)

theorem wantedExpire_expires {obj : BitVec 16} {o : Obj} (ho : s.objById obj.toNat = some o) (hn : o.wanted ≠ none) (hw : s.isWanted o = false)
    (hc : s.Calm) : exec (.wantedExpire obj) s =
      .next { s with objects := s.objects.map fun x : Obj => if x.id = o.id then { x with wanted := none } else x } := by
  show execWantedExpire obj s = _
  unfold execWantedExpire
  rw [ho]
  refine congrArg Host.Outcome.next ((if_pos ?_).trans (settle_modObj hc o.id _))
  rw [hw, Option.isSome_iff_ne_none.mpr hn]
  rfl

/-! ## Writes that waited for a frame (R240) -/

theorem settleFull_eq (s : State) : s.settleFull = { s with fields := s.settleFull.fields } ∧ s.KeepsFields s.settleFull [Reg.FLS_STATUS_FULL] := by
  unfold State.settleFull
  split
  · exact ⟨rfl, (keeps_refl s _).put (List.mem_singleton_self _)⟩
  · exact ⟨rfl, keeps_refl s _⟩

theorem resume_none (hw : s.heldWrites = []) (he : s.heldEnds = []) : exec .waitingWriteResume s = .next s.settleFull := by
  have hretry : s.retryWrites = s := by
    unfold State.retryWrites
    rw [hw]
    rfl
  have hends : s.settleEnds = s := by
    unfold State.settleEnds
    rw [he]
    rfl
  show execWaitingWriteResume s = _
  unfold execWaitingWriteResume
  rw [hretry, hends]

theorem settleFull_waits (h : ∃ x ∈ s.frameWaits, s.frameWaiting x = true) : s.settleFull = s := by
  unfold State.settleFull
  rw [List.any_eq_true.mpr h, Bool.not_true, Bool.and_false]
  rfl

theorem settleFull_falls (hw : s.heldWrites = []) (h : ¬∃ x ∈ s.frameWaits, s.frameWaiting x = true) : s.settleFull = s.put Reg.FLS_STATUS_FULL 0 := by
  have hno : s.frameWaits.any s.frameWaiting = false := by
    rw [← Bool.not_eq_true, List.any_eq_true]
    exact h
  unfold State.settleFull
  rw [hw, hno]
  rfl

/-- A held write whose page has a frame by now goes. -/
theorem retryWrites_one {h : HeldWrite} (hw : s.heldWrites = [h]) (hp : h.poison = false) (hb : h.bytes ≠ []) (hopen : s.Writable h.addr) :
    State.Writes { s with heldWrites := [] } s.retryWrites h.addr h.bytes := by
  obtain ⟨t, ht, hwrites⟩ := writeAs_ok (s := { s with heldWrites := [] }) hopen hb h.agent h.twin (wholeGranule h.addr h.bytes)
  have hfilter : ([h].filter fun x => x.id != h.id) = [] := by simp
  have heq : s.retryWrites = t := by
    unfold State.retryWrites
    rw [hw, List.foldl_cons, List.foldl_nil, hw, hfilter]
    unfold State.redoWrite State.writeIn
    rw [hp, ht]
    rfl
  rw [heq]
  exact hwrites

end

end Sys2Proof.Machine
end

section
/-! The clauses of O46 from the rules above: drains, epochs, moves, deadlines and waiting writes (R240, R242, R248, R251 to R254, R257, R258, R262 to R264). -/

namespace Sys2Proof.Machine

open Sys2Proof

section
variable {s : State}

/-- A switch that nothing waits for. -/
theorem moveSwitch_quiet (hs : s.InRun) {k : Fin 8} {m : Move} (hm : (s.moves.filter (·.started))[k.val]? = some m) (hw : m.waiters = [])
    (hp : m.pins = []) (he : m.evict = false) (hd : (m.dest.map (·.1)).Nodup) (hc : s.Calm) : Does (.moveSwitch k) s fun t =>
      t = { s with moves := s.moves.erase m, pages := t.pages, lostPages := t.lostPages, fields := t.fields } ∧
      s.KeepsFields t [Reg.FLS_MOVED_COUNT, Reg.FLS_ELIDED_COUNT] ∧ (∀ p, p ∉ m.dest.map (·.1) → t.frameOf p = s.frameOf p) ∧
      ∀ p f, (p, f) ∈ m.dest → t.frameOf p = if s.liveGranules p = 0 then none else some f := by
  have hsw : s.switchMove m = s.switched m := by
    rw [switchMove_eq hp he, hw, lateOnes_none (by rw [hw]; exact fun _ h => absurd h List.not_mem_nil)]
    rfl
  refine ⟨_, moveSwitch_switches hs.2 hm, ?_⟩
  rw [hsw, settle_calm (switched_calm hc m)]
  exact switch_fold m.dest { s with moves := s.moves.erase m } hd

/-- A switch that completes the one prefetch that waits for it. -/
theorem moveSwitch_completes (hs : s.InRun) {k : Fin 8} {m : Move} {w : Waiter} (hm : (s.moves.filter (·.started))[k.val]? = some m)
    (hw : m.waiters = [w]) (hp : m.pins = []) (he : m.evict = false) (hsig : w.sig < 4096) (hc : s.Calm) :
    let dl := if s.nowUs < w.deadline then Reg.FLS_DL_MET else Reg.FLS_DL_MISS
    Does (.moveSwitch k) s fun t => ∃ x : State, x.FlsDone t w (if s.nowUs < w.deadline then 1 else 4) ∧ x.moves = s.moves.erase m ∧
      x.get dl = (s.get dl + 1) % 2 ^ dl.w ∧ s.KeepsFields x [Reg.FLS_MOVED_COUNT, Reg.FLS_ELIDED_COUNT, dl] := by
  intro dl
  obtain ⟨heq, hkeep⟩ := switched_rel s m
  have hdl : dl = Reg.FLS_DL_MET ∨ dl = Reg.FLS_DL_MISS := by
    unfold dl
    split
    · exact .inl rfl
    · exact .inr rfl
  have hcount : s.KeepsFields ((s.switched m).count dl 1) [Reg.FLS_MOVED_COUNT, Reg.FLS_ELIDED_COUNT, dl] :=
    State.KeepsFields.put (hkeep.mono (by simp)) (by simp)
  have hpower : ((s.switched m).count dl 1).get Reg.PCR_PSTATE_STATE = 0 :=
    (hcount _ (by obtain h | h := hdl <;> rw [h] <;> simp)).trans hs.1
  have hcalm : ((s.switched m).count dl 1).Calm :=
    calm_of (switched_calm hc m) (fun j hj => State.get_put_ne (by obtain h | h := hdl <;> rw [h] <;> simp <;> omega)) (switched_calm hc m).2
  refine ⟨_, moveSwitch_switches hs.2 hm, (s.switched m).count dl 1, ?_, ?_, ?_, hcount⟩
  · rw [switchMove_waiter hw hp he, settle_calm (completeFls_calm hcalm hpower hsig _)]
    exact fls_done _ hpower hsig
  · show (s.switched m).moves = _
    rw [heq]
  · refine State.get_put_eq.trans ?_
    rw [hkeep dl (by obtain h | h := hdl <;> rw [h] <;> simp)]

/-- A move starts with one frame per page, in the tier it goes to. -/
theorem moveStart_does (hs : s.InRun) (h8 : (s.moves.filter (·.started)).length < 8) {m : Move} {d : Map Frame}
    (hm : (s.startOrder.find? fun v => s.mayStart v && (s.planDest v).isSome) = some m) (hd : s.planDest m = some d) (hc : (s.withStarted m d).Calm) :
    Does .moveStart s fun t => t = s.withStarted m d ∧ d.map (·.1) = s.movePages m ∧
      (m.kind = .promotion → ∀ e ∈ d, e.2.isBonded = true) ∧ (m.kind = .demotion → ∀ e ∈ d, e.2.isBonded = false) :=
  ⟨_, moveStart_starts hs.2 h8 hm hd, settle_calm hc, planDest_ok hd⟩

/-- A prefetch that waits for a move completes with LATE once its deadline has come. -/
theorem prefetchLate_does (hs : s.InRun) {obj : BitVec 16} {l r : List Move} {m : Move} {w : Waiter} (hmv : s.moves = l ++ m :: r)
    (hof : m.isOf obj.toNat = true) (hother : ∀ v ∈ l ++ r, v.isOf obj.toNat = false) (hw : m.waiters = [w]) (hd : w.deadline ≤ s.nowUs)
    (hsig : w.sig < 4096) : Does (.prefetchLate obj) s fun t => ∃ x : State, x.FlsDone t w 4 ∧
      x = { s with moves := l ++ { m with waiters := [] } :: r, fields := x.fields } ∧
      x.get Reg.FLS_DL_MISS = (s.get Reg.FLS_DL_MISS + 1) % 2 ^ Reg.FLS_DL_MISS.w ∧ s.KeepsFields x [Reg.FLS_DL_MISS] := by
  have hkeep : s.KeepsFields (State.count { s with moves := l ++ { m with waiters := [] } :: r } Reg.FLS_DL_MISS 1) [Reg.FLS_DL_MISS] :=
    State.KeepsFields.put (fun _ _ => rfl) (List.mem_singleton_self _)
  exact ⟨_, prefetchLate_one hmv hof hother hw hd, _, fls_done 4 ((hkeep _ (by simp)).trans hs.1) hsig, rfl, State.get_put_eq, hkeep⟩

theorem resume_waits (hw : s.heldWrites = []) (he : s.heldEnds = []) : let waits := ∃ x ∈ s.frameWaits, s.frameWaiting x = true
    (¬waits → Does .waitingWriteResume s fun t =>
      t.get Reg.FLS_STATUS_FULL = 0 ∧ s.KeepsFields t [Reg.FLS_STATUS_FULL] ∧ t = { s with fields := t.fields }) ∧
    (waits → Does .waitingWriteResume s fun t => t = s) :=
  ⟨fun h => ⟨_, (resume_none hw he).trans (congrArg _ (settleFull_falls hw h)), cleared s _⟩,
    fun h => ⟨_, (resume_none hw he).trans (congrArg _ (settleFull_waits h)), rfl⟩⟩

/-- A held write that goes, and the post that waited for it. -/
theorem resume_one (hs : s.InRun) {h : HeldWrite} (hw : s.heldWrites = [h]) (hp : h.poison = false) (hb : h.bytes ≠ []) (hopen : s.Writable h.addr) :
    (s.heldEnds = [] → Does .waitingWriteResume s fun t =>
      t.heldWrites = [] ∧ s.Stores t h.addr h.bytes ∧ t.pages = s.pages ∧ t.chambers = s.chambers) ∧
    (∀ sig < 4096, s.heldEnds = [⟨[h.id], .post sig⟩] → Does .waitingWriteResume s fun t =>
      t.heldWrites = [] ∧ t.heldEnds = [] ∧ s.Stores t h.addr h.bytes ∧ t.sig sig = (s.sig sig + 1) % 2 ^ 64) := by
  obtain ⟨hx, hkeep, hstores⟩ := retryWrites_one hw hp hb hopen
  have hheld : s.retryWrites.heldWrites = [] := by rw [hx]
  have hends : s.retryWrites.heldEnds = s.heldEnds := by rw [hx]
  have hpages : s.retryWrites.pages = s.pages := by rw [hx]
  have hch : s.retryWrites.chambers = s.chambers := by rw [hx]
  have hget : ∀ f : FieldRef, f.key ≠ Reg.FLS_ELIDED_COUNT.key → s.retryWrites.get f = s.get f :=
    fun f hf => hkeep f (by simpa using hf)
  have hdoes : ∀ p : State → Prop, p s.retryWrites.settleEnds.settleFull → Does .waitingWriteResume s p := fun p h => ⟨_, rfl, h⟩
  generalize s.retryWrites = x at *
  refine ⟨fun he => ?_, fun sig hsig he => ?_⟩
  · have hsettle : x.settleEnds = x := by
      unfold State.settleEnds
      rw [hends, he]
      rfl
    obtain ⟨hfull, -⟩ := settleFull_eq x
    refine hdoes _ ?_
    rw [hsettle]
    rw [hfull]
    exact ⟨hheld, hstores, hpages, hch⟩
  · have hsettle : x.settleEnds = ({ x with heldEnds := [] } : State).put (Reg.GLB_SIGn_VALUE sig) (x.sig sig + 1) := by
      have hstill : x.stillHeld [h.id] = [] := by
        unfold State.stillHeld
        rw [hheld]
        rfl
      unfold State.settleEnds
      rw [hends, he, List.foldl_cons, List.foldl_nil, if_pos hstill, hends, he, List.erase_cons_head]
      exact get_post ((hget Reg.PCR_PSTATE_STATE (by decide)).trans hs.1)
    obtain ⟨hfull, hfields⟩ := settleFull_eq (({ x with heldEnds := [] } : State).put (Reg.GLB_SIGn_VALUE sig) (x.sig sig + 1))
    refine hdoes _ ?_
    rw [hsettle]
    refine ⟨?_, ?_, ?_, ?_⟩
    · rw [hfull]; exact hheld
    · rw [hfull]; rfl
    · rw [hfull]; exact hstores
    · refine (hfields _ (by simp; omega)).trans (State.get_put_eq.trans ?_)
      rw [show x.sig sig = s.sig sig from hget _ (by simp; omega)]
      rfl

/-- A drained slot becomes SAFE, and the command that asked for the drain completes. -/
theorem drainComplete_ends (hs : s.InRun) {m : Nat} (hm : m < 6) (h4 : s.slotState m = 4) (hno : ∀ k < 6, k ≠ m → s.slotState k ≠ 4)
    (hp : ∀ e ∈ s.pages, e.2.onSlot m = false) : Does .drainComplete s fun t =>
      ∃ x v : State, x.slotState m = 5 ∧ x.get (Reg.BMCm_STATE_CHANNELS m) = 0 ∧
        s.KeepsFields x [Reg.BMCm_STATE_STATE m, Reg.BMCm_STATE_CHANNELS m, Reg.SVC_EVENT_SLOT_STATE] ∧
        x = { s with fields := x.fields, irq := x.irq, slotPower := x.slotPower, drainCmd := none, drainPress := none } ∧
        (s.drainCmd = none → v = x) ∧ (∀ w, s.drainCmd = some w → w.sig < 4096 → x.FlsDone v w 1) ∧ t = { v with moves := t.moves } := by
  obtain ⟨hst, hch, hkeep, heq, hcmd⟩ := drainOver_rel s hm h4
  have hend : (s.setSlot m 5).endDrainCmd 1 = match s.drainCmd with | some w => (s.drainOver m).completeFls w 1 | none => s.drainOver m := by
    rw [← hcmd]
    rfl
  refine ⟨_, drainComplete_does hs hm h4 hno hp, s.drainOver m, (s.setSlot m 5).endDrainCmd 1, hst, hch, hkeep, heq, fun h => ?_, fun w h hw => ?_,
    (decides_settle _).1⟩
  · rw [hend, h]
  · rw [hend, h]
    exact fls_done 1 ((hkeep _ (by simp; omega)).trans hs.1) hw

end

/-- Settles O46. That an EPOCH_END ends one epoch (log entry 42), that a drain refused during another records its reason alone (log entry 44), that
a move copies at its switch (log entry 45), and which free frame of a tier is taken (log entry 46), are the model's choices. -/
theorem flowstoneMoves : Obligations.FlowstoneMoves := by
  unfold Obligations.FlowstoneMoves
  intro s hs
  refine ⟨fun hstep => ?_, fun hstep hen hsig => ?_, fun src ws w u hh hr => ?_, fun src ws w u hh hr => ?_, fun e he => ?_,
    fun h8 => ⟨fun m d hm hd => moveStart_does hs h8 hm hd, fun h => ⟨_, moveStart_waits h, rfl⟩⟩,
    fun k m hm hw hp he hd hc => moveSwitch_quiet hs hm hw hp he hd hc, fun k m w hm hw hp he hsig hc => moveSwitch_completes hs hm hw hp he hsig hc,
    fun obj => ⟨fun h => ⟨_, prefetchLate_none h, rfl⟩, fun l m r w hmv hof hother hw hd hsig => prefetchLate_does hs hmv hof hother hw hd hsig,
      fun o ho => ⟨fun h => ⟨_, wantedExpire_keeps ho h, rfl⟩, fun hn hw hc => ⟨_, wantedExpire_expires ho hn hw hc, rfl⟩⟩⟩,
    fun hw he => resume_waits hw he, fun h hw hp hb hopen => resume_one hs hw hp hb hopen,
    fun m hm h4 hno hp => drainComplete_ends hs hm h4 hno hp, fun m hst hd hmv => ?_⟩
  · exact ⟨_, congrArg Host.Outcome.next (hostRaises_locked hstep), counts_lockedOut s _⟩
  · exact ⟨_, congrArg Host.Outcome.next (hostRaises_rises hstep (by rw [hen]; decide)), flsEnable_does hsig⟩
  · intro m pinned few
    obtain ⟨hbad, hrefused, haccepted⟩ := drain_does hs hh hr
    refine ⟨hbad, fun r h5 hrf => ?_, fun h5 h3 hno hp hf => ?_⟩
    · obtain ⟨t, he, hdone⟩ := hrefused r h5 hrf
      have hle : r ≤ 4 := by omega
      exact ⟨t, he, _, hdone, refuseDrain_records u (Nat.lt_succ_of_le h5) hle⟩
    · have hm6 : m < 6 := Nat.lt_succ_of_le h5
      obtain ⟨hst, hslot, hcmd, hkeep, hrest, hgoes⟩ := acceptDrain_rel u hm6 (some w)
      exact ⟨_, haccepted h5 (drainReason_none h3 hno hp hf), hst, hslot, hcmd, hkeep, hrest, hgoes,
        fun o ho hon hv => acceptDrain_relocates u hm6 hno (some w) ho hon hv⟩
  · intro m
    obtain ⟨hbad, hnot, hcancel⟩ := drainCancel_does hs hh hr
    refine ⟨hbad, hnot, fun h5 h4 hno hd hp => ?_⟩
    obtain ⟨t, he, hdone⟩ := hcancel h5 h4 hno hd hp
    obtain ⟨hst, -, hkeep, heq⟩ := cancelled_rel u (Nat.lt_succ_of_le h5)
    exact ⟨t, he, _, hdone, hst, hkeep, heq⟩
  · subst he
    refine ⟨fun h => ⟨_, epochEnd_waits h, rfl⟩, fun h0 hn => ?_⟩
    obtain ⟨t, ht, hrest, hmoves⟩ := epochEnd_does h0 hn
    have hheat : t.heat = halveHeat s.heat := by rw [hrest]
    refine ⟨t, ht, ?_, fun p n => ?_, hmoves⟩
    · rw [hheat]
      exact hrest
    · rw [hheat]
      exact heat_halved s.heat p n
  · obtain ⟨h6, hother, hrest⟩ := loseCartridge_rel m.isLt hd hmv
    have hx := (lossPages_rel s m).1
    refine ⟨_, congrArg Host.Outcome.next (if_pos hst), h6, ?_, ?_, hother, fun p => ?_⟩
    · rw [hrest, hx]
      rfl
    · rw [hrest, hx]
      rfl
    · have hpage := loseCartridge_page m.isLt hd hmv p
      rw [mem_pagesOn] at hpage
      exact hpage

end Sys2Proof.Machine
end

section
/-! Traverse in Run: what the internal queue of Flowstone leaves of the registers as a step ends (R242, R287, R293), the running step's updates, and
ring blocks given back (R288). -/

namespace Sys2Proof.Machine

open Sys2Proof

/-! ## The internal queue of Flowstone (R242) -/

/-- The registers that the PREFETCHes and RELEASEs of the internal queue write. -/
def servedFields : List FieldRef := [Reg.FLS_DL_MET, Reg.HST_SF_BISNP, Reg.FLS_ELIDED_COUNT] ++ globalViolFields

section
variable {s : State} {ws : List Nat} {w : Waiter}

theorem keeps_settle {fs : List FieldRef} : s.KeepsFields s.settle fs := fun f _ => by rw [(decides_settle s).1]; rfl

/-- A command of the internal queue completes without a post. -/
theorem keeps_completeFls {fs : List FieldRef} (hw : w.recAddr = none) (status : Nat) : s.KeepsFields (s.completeFls w status) fs := by
  unfold State.completeFls
  rw [hw]
  exact fun _ _ => rfl

theorem served_prefetchMet (hw : w.recAddr = none) : s.KeepsFields (s.prefetchMet w) servedFields :=
  State.KeepsFields.trans ((keeps_refl s _).put (by simp [servedFields])) (keeps_completeFls hw 1)

theorem served_flsPrefetch (hw : w.recAddr = none) {o : Obj} (ho : s.objById (recBits ws 0 31 16) = some o) :
    s.KeepsFields (s.flsPrefetch ws w) servedFields := by
  have hmoves : ∀ l : List Move, s.KeepsFields { s.wants o w with moves := l } servedFields := fun _ _ _ => rfl
  rw [flsPrefetch_eq ho]
  exact .ite ((hmoves _).trans (keeps_settle.trans (served_prefetchMet hw))) (.ite ((hmoves _).trans (keeps_settle.trans (served_prefetchMet hw)))
    ((hmoves _).trans keeps_settle))

theorem served_releasePages (l : List Nat) : s.KeepsFields (l.foldl State.releasePage s) servedFields := by
  obtain ⟨-, -, hkeep, -⟩ := rel_pages l s
  exact hkeep.mono (by simp [servedFields])

theorem served_flsRelease (hw : w.recAddr = none) : s.KeepsFields (s.flsRelease ws w) servedFields := by
  unfold State.flsRelease
  extract_lets b z ps shut s1
  have h1 : s.KeepsFields s1 servedFields := by
    unfold s1
    generalize shut = l
    cases l with
    | nil => exact keeps_refl s _
    | cons p l => exact (keeps_refl s _).violGlb fun f hf => List.mem_append_right _ hf
  exact .ite (keeps_completeFls hw 2) (h1.trans ((served_releasePages _).trans (keeps_settle.trans (keeps_completeFls hw 1))))

/-- A command taken from the internal queue keeps the registers that its operation keeps. -/
theorem served_runFls {op : Nat} {f : State → List Nat → Waiter → State} (hop : op ≠ 1)
    (hf : ∀ (t : State) (ws : List Nat) (w : Waiter), w.recAddr = none → (flsNeedsObj op = true → (t.objById (recBits ws 0 31 16)).isSome = true) →
      t.KeepsFields (f t ws w) servedFields) : s.KeepsFields (s.runFls .queue op f) servedFields := by
  unfold State.runFls State.flsFetch
  split
  · exact keeps_refl s _
  next ws w bad t he =>
    split at he
    · cases he
    · dsimp only at he
      split at he
      · cases he
      · cases he
        simp only [Bool.false_eq_true, if_false, if_neg hop]
        refine .ite (keeps_refl s _) (.ite (keeps_refl s _) ?_)
        split
        · exact State.KeepsFields.trans (t := { s with flsQueue := _ }) (fun _ _ => rfl) (keeps_completeFls rfl 2)
        next q qs hq hgo =>
          refine State.KeepsFields.trans (t := { s with flsQueue := _ }) (fun _ _ => rfl) (hf _ _ _ rfl fun hn => ?_)
          rw [hn, Bool.true_and, Bool.or_eq_true, not_or, Option.isNone_iff_eq_none] at hgo
          exact Option.isSome_iff_ne_none.mpr hgo.2

end

/-- The internal queue served to its end writes none but `servedFields`. -/
theorem served_queue (n : Nat) : ∀ s : State, s.KeepsFields (s.serveFlsQueue n) servedFields := by
  induction n with
  | zero => exact fun s => keeps_refl s _
  | succ n ih =>
    intro s
    unfold State.serveFlsQueue
    split
    · exact keeps_refl s _
    · refine .ite (keeps_refl s _) (State.KeepsFields.trans (.ite ?_ ?_) (ih _))
      · exact served_runFls (by decide) fun t ws w hw ho => by
          obtain ⟨o, ho⟩ := Option.isSome_iff_exists.mp (ho rfl)
          exact served_flsPrefetch hw ho
      · exact served_runFls (by decide) fun t ws w hw _ => served_flsRelease hw

/-- The releases at the end of a step leave the device in Run. -/
theorem releaseAll_power (s : State) (p : Plan) : (s.releaseAll p).get Reg.PCR_PSTATE_STATE = s.get Reg.PCR_PSTATE_STATE := by
  obtain ⟨u, hu, -, ht⟩ := releaseAll_ok s p
  rw [ht]
  exact (served_queue _ u _ (by decide)).trans (by rw [hu]; rfl)

/-! ## The running step -/

section
variable {s : State} {r : Step}

theorem modTrv_some (h : s.trv = some r) (f : Step → Step) : s.modTrv f = { s with trv := some (f r) } := by
  unfold State.modTrv
  rw [h]
  rfl

/-- The registers of TRV_PROGRESS. -/
def progressFields : List FieldRef := [Reg.TRV_PROGRESS_INST, Reg.TRV_PROGRESS_B_DONE, Reg.TRV_PROGRESS_F_DONE]

/-- TRV_PROGRESS shows how many instances have completed; nothing else changes (R298). -/
theorem progress_shows (h : s.trv = some r) : s.progress = { s with fields := s.progress.fields } ∧
    s.progress.get Reg.TRV_PROGRESS_INST = r.done.length % 2 ^ 32 ∧ s.KeepsFields s.progress progressFields := by
  have hp : s.progress = s.puts [(Reg.TRV_PROGRESS_INST, r.done.length), (Reg.TRV_PROGRESS_B_DONE, r.bDone),
      (Reg.TRV_PROGRESS_F_DONE, r.phaseCount 2)] := by
    unfold State.progress
    rw [h]
  rw [hp]
  exact ⟨puts_eq s _, puts_get _ (by simp) s (Reg.TRV_PROGRESS_INST, r.done.length) (by simp),
    (keeps_refl s _).puts _ (by simp [progressFields])⟩

/-- A plan without rings has no block to give back (R288). -/
theorem freeBlocks_none (h : s.trv = some r) (hr : r.plan.rings = []) : s.freeBlocks = s := by
  unfold State.freeBlocks
  rw [h]
  dsimp only
  rw [hr]
  rfl

end

end Sys2Proof.Machine
end

section
/-! The course of a step of Traverse (R268, R274, R280, R293, R294, R296, R480): each command over a running step, and from them O47. -/

namespace Sys2Proof.Machine

open Sys2Proof

/-! ## Acceptance (R268, R274, R280) -/

section
variable {s : State}

theorem stepAccept_stands (h : s.stepQueue = [] ∨ s.acceptsStep = false) : exec .stepAccept s = .next s := by
  show execStepAccept s = _
  unfold execStepAccept
  split
  · rfl
  next q qs hq =>
    obtain h | h := h
    · rw [h] at hq
      cases hq
    · simp [h]

/-- A step as Traverse accepts it, at a cycle. -/
def Step.fresh (q : StepReq) (p : Plan) (cycle : Nat) : Step :=
  { req := q, plan := p, done := [], begun := [], running := [], admitted := 0, bFetched := [], gath := [], ringSent := [], ringFreed := []
    qSent := [], fail := none, failAt := 0, stopped := false, idleAt := some cycle, mark := none }

/-- A step whose plan passes its checks enters RUN. -/
def State.entersRun (v : State) (q : StepReq) (p : Plan) : State :=
  ({ v with trv := some (.fresh q p v.cycle) } : State).puts [(Reg.TRV_STATE_STAGE, p.stage), (Reg.TRV_STATE_STATE, 2)]

/-- The step accepted is checked by its plan: refused, or run, with the prefetches of P and U. -/
theorem stepAccept_takes (hs : s.InRun) {q : StepReq} {qs : List StepReq} {x v : State} {p : Plan} {bad : Bool} (hq : s.stepQueue = q :: qs)
    (ha : s.acceptsStep = true)
    (hx : x = ({ s with stepQueue := qs } : State).puts [(Reg.TRV_STATE_STAMP, q.stamp), (Reg.TRV_PLAN_ADDR, q.plan), (Reg.TRV_STATE_STATE, 1)])
    (hp : x.readPlan q.plan = (p, bad, v)) : exec .stepAccept s = .next (if p.refusal bad ≠ 0 then v.endFailed q ⟨2, p.refusal bad, 0, none⟩
      else (((v.entersRun q p).prefetchPhase (.fresh q p v.cycle) 1).prefetchPhase (.fresh q p v.cycle) 4).progress) := by
  have hw : ({ s with stepQueue := qs } : State).wake = { s with stepQueue := qs } := wake_run (s := { s with stepQueue := qs }) hs
  show execStepAccept s = _
  unfold execStepAccept
  rw [hq]
  dsimp only
  rw [ha, hw, ← hx, hp]
  rfl

/-- What the entry into RUN changes, up to the counts of TRV_PROGRESS. -/
theorem entersRun_does (v : State) (q : StepReq) (p : Plan) : let r := Step.fresh q p v.cycle
    let t := (((v.entersRun q p).prefetchPhase r 1).prefetchPhase r 4).progress
    t.get Reg.TRV_STATE_STATE = 2 ∧ t.get Reg.TRV_STATE_STAGE = p.stage % 16 ∧ t.trv = some r ∧
    v.Submits t (v.prefetchWords p (p.phaseItems 1) ++ v.prefetchWords p (p.phaseItems 4)) ∧
    v.KeepsFields t [Reg.TRV_STATE_STATE, Reg.TRV_STATE_STAGE, Reg.TRV_PROGRESS_INST, Reg.TRV_PROGRESS_B_DONE, Reg.TRV_PROGRESS_F_DONE] ∧
    t = { v with fields := t.fields, trv := t.trv, flsQueue := t.flsQueue, tokens := t.tokens } := by
  intro r
  have hrun : v.entersRun q p = { v with trv := some r, fields := (v.entersRun q p).fields } := puts_eq _ _
  have hget := puts_get [(Reg.TRV_STATE_STAGE, p.stage), (Reg.TRV_STATE_STATE, 2)] (by simp) { v with trv := some r }
  have hstate : (v.entersRun q p).get Reg.TRV_STATE_STATE = 2 := hget (Reg.TRV_STATE_STATE, 2) (by simp)
  have hstage : (v.entersRun q p).get Reg.TRV_STATE_STAGE = p.stage % 16 := hget (Reg.TRV_STATE_STAGE, p.stage) (by simp)
  have hkeep : v.KeepsFields (v.entersRun q p) [Reg.TRV_STATE_STATE, Reg.TRV_STATE_STAGE] :=
    State.KeepsFields.puts (t := { v with trv := some r }) _ (fun _ _ => rfl) (by simp)
  have hcycle : (v.entersRun q p).nowUs = v.nowUs := by rw [hrun]; rfl
  have hsub0 : v.Submits (v.entersRun q p) [] := by rw [hrun]; exact submits_refl v
  generalize v.entersRun q p = a at *
  obtain ⟨hsub1, T1, Q1, h1⟩ := prefetch_ok a r 1
  obtain ⟨hsub2, T2, Q2, h2⟩ := prefetch_ok (a.prefetchPhase r 1) r 4
  have hb : (a.prefetchPhase r 1).prefetchPhase r 4 = { a with tokens := T2, flsQueue := Q2 } := by rw [h2, h1]
  have hwords : ∀ l, a.prefetchWords p l = v.prefetchWords p l ∧ (a.prefetchPhase r 1).prefetchWords p l = v.prefetchWords p l := fun l => by
    have hn : (a.prefetchPhase r 1).nowUs = v.nowUs := by rw [h1]; exact hcycle
    unfold State.prefetchWords
    rw [hcycle, hn]
    exact ⟨rfl, rfl⟩
  have hsub : v.Submits ((a.prefetchPhase r 1).prefetchPhase r 4) (v.prefetchWords p (p.phaseItems 1) ++ v.prefetchWords p (p.phaseItems 4)) := by
    rw [← (hwords (p.phaseItems 1)).1, ← (hwords (p.phaseItems 4)).2]
    exact submits_trans (submits_trans hsub0 hsub1) hsub2
  obtain ⟨hprog, -, hpk⟩ := progress_shows (s := (a.prefetchPhase r 1).prefetchPhase r 4) (r := r) (by rw [hb, hrun])
  generalize (a.prefetchPhase r 1).prefetchPhase r 4 = b at *
  intro t
  have hbget : ∀ f, b.get f = a.get f := fun f => by rw [hb]; rfl
  refine ⟨?_, ?_, ?_, ?_, ?_, ?_⟩
  · exact (hpk _ (by decide)).trans ((hbget _).trans hstate)
  · exact (hpk _ (by decide)).trans ((hbget _).trans hstage)
  · rw [show t = _ from hprog, hb, hrun]
  · rw [show t = _ from hprog]
    exact hsub
  · exact State.KeepsFields.trans (hkeep.mono (by simp)) (State.KeepsFields.trans (fun f _ => hbget f) (hpk.mono (by simp [progressFields])))
  · rw [show t = _ from hprog, hb, hrun]

end

/-! ## Admission (R280) -/

section
variable {s : State} {r : Step}

theorem microbatchAdmit_eq (h : s.StepRuns r) : exec .microbatchAdmit s = .next
    (if r.admitted < r.plan.nmb ∧ r.plan.phaseItems 2 ≠ [] ∧ r.admitted < r.bDone + r.plan.window then
      ({ s with trv := some { r with admitted := r.admitted + 1 } } : State).prefetchPhase r 2 else s) := by
  show execMicrobatchAdmit s = _
  unfold execMicrobatchAdmit
  rw [acts_ok h, modTrv_some h.2.1]

theorem microbatchAdmit_admits (h : s.StepRuns r) (hn : r.admitted < r.plan.nmb) (hf : r.plan.phaseItems 2 ≠ [])
    (hw : r.admitted < r.bDone + r.plan.window) : Does .microbatchAdmit s fun t =>
      t = { s with trv := some { r with admitted := r.admitted + 1 }, flsQueue := t.flsQueue, tokens := t.tokens } ∧
      s.Submits t (s.prefetchWords r.plan (r.plan.phaseItems 2)) := by
  obtain ⟨hsub, T, Q, ht⟩ := prefetch_ok { s with trv := some { r with admitted := r.admitted + 1 } } r 2
  refine ⟨_, (microbatchAdmit_eq h).trans (congrArg _ (if_pos ⟨hn, hf, hw⟩)), ?_, hsub⟩
  rw [ht]

theorem microbatchAdmit_waits (h : s.StepRuns r) (hw : r.plan.nmb ≤ r.admitted ∨ r.bDone + r.plan.window ≤ r.admitted) :
    Does .microbatchAdmit s fun t => t = s :=
  ⟨_, (microbatchAdmit_eq h).trans (congrArg _ (if_neg (by omega))), rfl⟩

/-! ## Completion (R293, R480) -/

theorem stepComplete_waits (h : s.StepRuns r) (hr : r.running ≠ []) : Does .stepComplete s fun t => t = s := by
  refine ⟨s, ?_, rfl⟩
  show execStepComplete s = _
  unfold execStepComplete
  rw [acts_ok h]
  exact congrArg _ (if_neg fun hc => hr hc.1)

/-- Traverse enters COMMIT once all instances and sends are done. -/
theorem stepComplete_eq (h : s.StepRuns r) (hr : r.running = []) (hd : r.allDone r.plan.ranked = true) (hl : s.sendsLeft r = true)
    (hg : r.plan.rings = []) : let c := s.put Reg.TRV_STATE_STATE 4
    exec .stepComplete s = .next (if c.twinCommits then (c.modTrv fun t => { t with mark := some c.mirrorQ.length }).sendMark c.mirrorQ.length r.req.stamp
      else if c.get Reg.TWN_STATE_STATE = 7 then (c.releaseAll r.plan).endFailed r.req ⟨4, 4, 0, none⟩ else c.commitStep r) := by
  intro c
  show execStepComplete s = _
  unfold execStepComplete
  rw [acts_ok h]
  dsimp only
  rw [if_pos ⟨hr, hd, hl⟩, freeBlocks_none h.2.1 hg]

theorem inCommit_get (s : State) {f : FieldRef} (hf : f.key ≠ Reg.TRV_STATE_STATE.key) : (s.put Reg.TRV_STATE_STATE 4).get f = s.get f :=
  State.get_put_ne hf

theorem inCommit_twin (s : State) : (s.put Reg.TRV_STATE_STATE 4).twinCommits =
    (s.get Reg.GLB_ROLE_TWIN == 1 && (s.get Reg.TWN_STATE_STATE == 2 || s.get Reg.TWN_STATE_STATE == 5)) := by
  unfold State.twinCommits State.flag
  rw [inCommit_get s (by decide), inCommit_get s (by decide)]

/-- In a twin's commit the mark waits behind the mirror copies already made. -/
theorem stepComplete_marks (h : s.StepRuns r) (hr : r.running = []) (hd : r.allDone r.plan.ranked = true) (hl : s.sendsLeft r = true)
    (hg : r.plan.rings = []) (ht : s.get Reg.GLB_ROLE_TWIN = 1) (hst : s.get Reg.TWN_STATE_STATE = 2 ∨ s.get Reg.TWN_STATE_STATE = 5) :
    Does .stepComplete s fun t =>
      t.get Reg.TRV_STATE_STATE = 4 ∧ s.KeepsFields t [Reg.TRV_STATE_STATE] ∧ t.trv = some { r with mark := some s.mirrorQ.length } ∧
      t.twinSent = (if s.mirrorQ = [] then s.twinSent ++ [.mark r.req.stamp] else s.twinSent) ∧
      t = { s with fields := t.fields, trv := t.trv, twinSent := t.twinSent } := by
  have htwin : (s.put Reg.TRV_STATE_STATE 4).twinCommits = true := by
    rw [inCommit_twin, ht]
    obtain h2 | h5 := hst
    · rw [h2]; rfl
    · rw [h5]; rfl
  refine ⟨_, (stepComplete_eq h hr hd hl hg).trans (congrArg _ ((if_pos htwin).trans
    (congrArg (fun c : State => c.sendMark s.mirrorQ.length r.req.stamp) (modTrv_some (s := s.put Reg.TRV_STATE_STATE 4) h.2.1 _)))), ?_⟩
  have hkeep : s.KeepsFields (s.put Reg.TRV_STATE_STATE 4) [Reg.TRV_STATE_STATE] := (keeps_refl s _).put (by simp)
  unfold State.sendMark
  by_cases hm : s.mirrorQ = []
  · rw [if_pos hm, if_pos (List.length_eq_zero_iff.mpr hm)]
    exact ⟨State.get_put_eq, hkeep, rfl, rfl, rfl⟩
  · rw [if_neg hm, if_neg (mt List.length_eq_zero_iff.mp hm)]
    exact ⟨State.get_put_eq, hkeep, rfl, rfl, rfl⟩

/-- A FENCED side commits nothing. -/
theorem stepComplete_fenced (h : s.StepRuns r) (hr : r.running = []) (hd : r.allDone r.plan.ranked = true) (hl : s.sendsLeft r = true)
    (hg : r.plan.rings = []) (hst : s.get Reg.TWN_STATE_STATE = 7) : Does .stepComplete s fun t => s.StepDies t r ⟨4, 4, 0, none⟩ := by
  have htwin : ¬(s.put Reg.TRV_STATE_STATE 4).twinCommits = true := by rw [inCommit_twin, hst]; simp
  refine ⟨_, (stepComplete_eq h hr hd hl hg).trans (congrArg _ ((if_neg htwin).trans (if_pos ((inCommit_get s (by decide)).trans hst)))), ?_⟩
  exact ⟨_, _, rfl, (keeps_refl s _).put (by simp), releaseAll_ok _ _, endFailed_ends _ _ _⟩

theorem recBits_lt (ws : List Nat) (i hi lo : Nat) : recBits ws i hi lo < 2 ^ (hi + 1 - lo) := Nat.mod_lt _ (Nat.two_pow_pos _)

/-- A commit once TRV_LAST is written: a twin's own commit, the count, the ledger record and IDLE. -/
def State.recordsCommit (y : State) (r : Step) : State :=
  let s := if y.flag Reg.GLB_ROLE_TWIN then y.put Reg.TWN_STATE_OWN_COMMIT r.req.stamp else y
  let s := s.count Reg.TRV_STEPS_COMMITTED 1
  (s.endStepRec r.req 1 0 (s.get Reg.TRV_FAIL_CODE)).toIdle

/-- The commit of a plan that names no peer to post to. -/
theorem commitStep_eq (hp : recBits r.plan.header 11 7 0 = 0xFF) (hn : recBits r.plan.header 11 15 8 = 0xFF) :
    s.commitStep r = (((s.releaseAll r.plan).postSig (recBits r.plan.header 12 11 0) false 1).puts
      [(Reg.TRV_LAST_STAMP, r.req.stamp), (Reg.TRV_LAST_CAUSE, 0), (Reg.TRV_LAST_STATUS, 1)]).recordsCommit r := by
  unfold State.commitStep
  dsimp only
  rw [hp, hn]
  rfl

/-- A side that stands alone commits, with no post to a peer where the plan names none. -/
theorem stepComplete_commits (h : s.StepRuns r) (hr : r.running = []) (hd : r.allDone r.plan.ranked = true) (hl : s.sendsLeft r = true)
    (hg : r.plan.rings = []) (ht : s.get Reg.GLB_ROLE_TWIN = 0) (hst : s.get Reg.TWN_STATE_STATE ≠ 7) (hp : recBits r.plan.header 11 7 0 = 0xFF)
    (hn : recBits r.plan.header 11 15 8 = 0xFF) : Does .stepComplete s fun t =>
      ∃ u v : State, u = { s with fields := u.fields } ∧ s.KeepsFields u [Reg.TRV_STATE_STATE] ∧ u.Releases v r.plan ∧
        t.trv = none ∧ t.get Reg.TRV_STATE_STATE = 0 ∧ t.get Reg.TRV_LAST_STAMP = r.req.stamp % 2 ^ 32 ∧ t.get Reg.TRV_LAST_CAUSE = 0 ∧
        t.get Reg.TRV_LAST_STATUS = 1 ∧ t.get Reg.TRV_STEPS_COMMITTED = (v.get Reg.TRV_STEPS_COMMITTED + 1) % 2 ^ 32 ∧
        t.get Reg.TRV_STEPS_ENDED = v.get Reg.TRV_STEPS_ENDED ∧ (∀ k < 10, t.get (Reg.ARB_ACTIVE_SET_k k) = v.get (Reg.ARB_NEXT_SET_k k) % 4) ∧
        (∀ n, n = recBits r.plan.header 12 11 0 → t.sig n = (v.sig n + 1) % 2 ^ 64) ∧
        t.openRecs = v.openRecs.filter (fun x => !(x.gen == r.req.gen && x.k == r.req.k)) ∧
        t.mem = v.mem ∧ t.chambers = v.chambers := by
  have htwin : ¬(s.put Reg.TRV_STATE_STATE 4).twinCommits = true := by rw [inCommit_twin, ht]; simp
  refine ⟨_, (stepComplete_eq h hr hd hl hg).trans (congrArg _ ((if_neg htwin).trans (if_neg ((inCommit_get s (by decide)).trans_ne hst)))),
    _, _, rfl, (keeps_refl s _).put (by simp), releaseAll_ok (s.put Reg.TRV_STATE_STATE 4) r.plan, ?_⟩
  have hpow : ((s.put Reg.TRV_STATE_STATE 4).releaseAll r.plan).get Reg.PCR_PSTATE_STATE = 0 :=
    (releaseAll_power _ _).trans ((inCommit_get s (by decide)).trans h.1.1)
  rw [commitStep_eq hp hn]
  generalize (s.put Reg.TRV_STATE_STATE 4).releaseAll r.plan = x at *
  rw [get_post hpow]
  obtain ⟨y, hy, hquiet, hlast, hkeep, hsig⟩ := commitNoted x r.req.stamp (recBits r.plan.header 12 11 0) (recBits_lt _ 12 11 0)
  rw [hy]
  exact commit_ok x r _ (recBits_lt _ 12 11 0) rfl y hquiet hlast hkeep hsig _ rfl

/-! ## Failure, stall and abort (R294, R296) -/

theorem stepFail_none (h : s.StepRuns r) : Does .stepFail s fun t => t = s := by
  obtain ⟨⟨-, hheld⟩, htrv, -, hfail⟩ := h
  refine ⟨s, ?_, rfl⟩
  show execStepFail s = _
  unfold execStepFail
  rw [htrv]
  dsimp only
  rw [hheld, hfail]
  rfl

/-- A recorded failure brings the step to ENDING. -/
theorem stepFail_ends {f : StepFail} (hh : s.held = false) (ht : s.trv = some r) (hf : r.fail = some f) (hst : s.get Reg.TRV_STATE_STATE = 2) :
    exec .stepFail s = .next ((s.beginEnding f).reportIfDone) := by
  show execStepFail s = _
  unfold execStepFail
  rw [ht]
  dsimp only
  rw [hh, hf]
  dsimp only
  rw [if_pos hst]
  rfl

/-- A step in ENDING is not reported while instances run. -/
theorem reportIfDone_waits (h : s.trv = some r) (hr : r.running ≠ []) : s.reportIfDone = s := by
  unfold State.reportIfDone
  rw [h]
  dsimp only
  split
  · exact if_neg fun hc => hr hc.2
  · rfl

/-- The entry into ENDING of a step with no instances running reports it. -/
theorem beginEnding_dies (h : s.trv = some r) (hr : r.running = []) {f : StepFail} (hf : r.fail.getD f = f) :
    s.StepDies (s.beginEnding f).reportIfDone r f := by
  obtain ⟨heq, hkeep, htrv, hstate⟩ := begin_ok s r f h
  rw [hf] at htrv
  exact dies_ok heq hkeep htrv rfl rfl rfl hr hstate

/-- The entry into ENDING of a step with instances running. -/
theorem beginEnding_runs (h : s.trv = some r) (hr : r.running ≠ []) {f : StepFail} (hf : r.fail.getD f = f) :
    let t := (s.beginEnding f).reportIfDone
    t.get Reg.TRV_STATE_STATE = 3 ∧ t.trv = some { r with fail := some f, failAt := s.cycle } ∧ s.KeepsFields t [Reg.TRV_STATE_STATE] ∧
      t = { s with fields := t.fields, trv := t.trv } := by
  obtain ⟨heq, hkeep, htrv, hstate⟩ := begin_ok s r f h
  rw [hf] at htrv
  intro t
  have ht : t = s.beginEnding f := reportIfDone_waits htrv hr
  rw [ht]
  exact ⟨hstate, htrv, hkeep, heq⟩

/-- A step with instances running, or without a limit to its stall, goes on. -/
theorem stallTimeout_off (h : s.StepRuns r) (hoff : s.get Reg.TRV_CTL_STALL_MS = 0 ∨ r.idleAt = none) : Does .stallTimeout s fun t => t = s := by
  refine ⟨s, ?_, rfl⟩
  show execStallTimeout s = _
  unfold execStallTimeout
  rw [acts_ok h]
  refine congrArg _ ?_
  dsimp only
  split
  next c hc =>
    refine if_neg fun hgo => ?_
    obtain h0 | hn := hoff
    · exact hgo.1 h0
    · rw [hn] at hc
      cases hc
  · rfl

theorem stallTimeout_eq (h : s.StepRuns r) {c : Nat} (hc : r.idleAt = some c) : exec .stallTimeout s = .next
    (if s.get Reg.TRV_CTL_STALL_MS ≠ 0 ∧ 1700000 * s.get Reg.TRV_CTL_STALL_MS ≤ s.cycle - c then (s.beginEnding ⟨6, 0, 0, none⟩).reportIfDone else s) := by
  show execStallTimeout s = _
  unfold execStallTimeout msCycles
  rw [acts_ok h]
  dsimp only
  rw [hc, Nat.mul_comm]

theorem stallTimeout_idle (h : s.StepRuns r) {c : Nat} (hc : r.idleAt = some c) (hms : s.get Reg.TRV_CTL_STALL_MS ≠ 0) (hr : r.running = []) :
    (s.cycle - c < 1700000 * s.get Reg.TRV_CTL_STALL_MS → Does .stallTimeout s fun t => t = s) ∧
    (1700000 * s.get Reg.TRV_CTL_STALL_MS ≤ s.cycle - c → Does .stallTimeout s fun t => s.StepDies t r ⟨6, 0, 0, none⟩) := by
  have heq := stallTimeout_eq h hc
  refine ⟨fun hlt => ⟨_, heq.trans (congrArg _ (if_neg (by omega))), rfl⟩, fun hle => ⟨_, heq.trans (congrArg _ (if_pos ⟨hms, hle⟩)), ?_⟩⟩
  exact beginEnding_dies h.2.1 hr (by rw [h.2.2.2]; rfl)

theorem stopChambers_none (h : s.trv = some r) (hr : ∀ e ∈ r.running, e.chamber = none) : s.stopChambers = s := by
  unfold State.stopChambers
  rw [h]
  dsimp only
  rw [List.filterMap_eq_nil_iff.mpr hr]
  rfl

/-- An abort of a step whose instances run on no chamber (R296). -/
theorem trvAbort_eq (h : s.trv = some r) (hst : s.get Reg.TRV_STATE_STATE = 2 ∨ s.get Reg.TRV_STATE_STATE = 4)
    (hr : ∀ e ∈ r.running, e.chamber = none) : exec .trvAbort s = .next ((s.beginEnding ⟨7, 0, 0, none⟩).reportIfDone) := by
  obtain ⟨-, -, htrv, -⟩ := begin_ok s r ⟨7, 0, 0, none⟩ h
  show execTrvAbort s = _
  unfold execTrvAbort State.trvAbort
  rw [if_pos hst, stopChambers_none htrv hr]

theorem trvAbort_dies (h : s.trv = some r) (hf : r.fail = none) (hst : s.get Reg.TRV_STATE_STATE = 2 ∨ s.get Reg.TRV_STATE_STATE = 4)
    (hr : r.running = []) : Does .trvAbort s fun t => s.StepDies t r ⟨7, 0, 0, none⟩ :=
  ⟨_, trvAbort_eq h hst (by rw [hr]; exact fun _ h => nomatch h), beginEnding_dies h hr (by rw [hf]; rfl)⟩

/-- An abort waits for the job of a helictite, within the limit of R294. -/
theorem trvAbort_waits (h : s.StepRuns r) {e : RunInst} {x : State} (hx : x = s.put Reg.TRV_STATE_STATE 4 ∨ x = s) (hr : r.running = [e])
    (he : e.chamber = none) : Does .trvAbort x fun t =>
      t.get Reg.TRV_STATE_STATE = 3 ∧ t.trv = some { r with fail := some ⟨7, 0, 0, none⟩, failAt := s.cycle } ∧
      s.KeepsFields t [Reg.TRV_STATE_STATE] ∧ t = { x with fields := t.fields, trv := t.trv } := by
  obtain ⟨-, htrv, hstate, hfail⟩ := h
  have hkeep : s.KeepsFields x [Reg.TRV_STATE_STATE] := by
    obtain rfl | rfl := hx
    · exact (keeps_refl s _).put (by simp)
    · exact keeps_refl _ _
  have hst : x.get Reg.TRV_STATE_STATE = 2 ∨ x.get Reg.TRV_STATE_STATE = 4 := by
    obtain rfl | rfl := hx
    · exact .inr State.get_put_eq
    · exact .inl hstate
  have hxt : x.trv = some r ∧ x.cycle = s.cycle := by
    obtain rfl | rfl := hx
    · exact ⟨htrv, rfl⟩
    · exact ⟨htrv, rfl⟩
  obtain ⟨h3, ht, hk, heq⟩ := beginEnding_runs (f := ⟨7, 0, 0, none⟩) hxt.1 (by rw [hr]; exact List.cons_ne_nil _ _) (by rw [hfail]; rfl)
  refine ⟨_, trvAbort_eq hxt.1 hst ?_, h3, by rw [ht, hxt.2], hkeep.trans hk, heq⟩
  rw [hr]
  exact fun _ hm => List.mem_singleton.mp hm ▸ he

/-! ## Programs that run on (R294) -/

/-- A step that failed and is in ENDING. -/
def State.endingWith (s : State) (r : Step) (f : StepFail) : State :=
  ({ s with trv := some { r with fail := some f } } : State).put Reg.TRV_STATE_STATE 3

theorem endingWith_get {f : StepFail} {g : FieldRef} (hg : g.key ≠ Reg.TRV_STATE_STATE.key) : (s.endingWith r f).get g = s.get g :=
  State.get_put_ne hg

theorem endingWith_state (f : StepFail) : (s.endingWith r f).get Reg.TRV_STATE_STATE = 3 := State.get_put_eq

theorem endingWith_inRun (h : s.InRun) (f : StepFail) : (s.endingWith r f).InRun := by
  refine ⟨(endingWith_get (by decide)).trans h.1, ?_⟩
  have hheld : s.held = false := h.2
  unfold State.held State.flag at *
  rw [endingWith_get (by decide)]
  exact hheld

theorem runonExpire_eq (h : s.InRun) (f : StepFail) :
    let ms := if s.get Reg.TRV_CTL_STALL_MS = 0 then 100 else s.get Reg.TRV_CTL_STALL_MS
    exec .runonExpire (s.endingWith r f) = .next (if r.stopped = false ∧ 1700000 * ms ≤ s.cycle - r.failAt
      then (s.endingWith r f).stopStep.reportIfDone else s.endingWith r f) := by
  intro ms
  have hms : (s.endingWith r f).get Reg.TRV_CTL_STALL_MS = s.get Reg.TRV_CTL_STALL_MS := endingWith_get (by decide)
  have htrv : (s.endingWith r f).trv = some { r with fail := some f } := rfl
  have hcycle : (s.endingWith r f).cycle = s.cycle := rfl
  have hstate := endingWith_state (s := s) (r := r) f
  have hheld := (endingWith_inRun (r := r) h f).2
  generalize s.endingWith r f = x at *
  show execRunonExpire x = _
  unfold execRunonExpire msCycles
  rw [htrv]
  dsimp only
  rw [hms, hcycle, hstate, hheld, Nat.mul_comm _ 1700000]
  refine congrArg _ (if_congr ?_ rfl rfl)
  simp [ms]

/-- The stop that RUNON_EXPIRE gives the one chamber that runs on. -/
theorem stopStep_one (h : s.InRun) {f : StepFail} {e : RunInst} {n : Nat} (hr : r.running = [e]) (he : e.chamber = some n)
    (hch : (s.endingWith r f).chState n ≠ 0) (hrec : (s.endingWith r f).get Reg.SEC_BOOT_RECOVERY = 0) :
    let x := s.endingWith r f
    let u := x.ctlArrives n 3 (x.get (Reg.CHn_CTL_START_PC n)) false false true false none
    x.stopStep.reportIfDone = { u with trv := some { r with fail := some f, stopped := true } } := by
  intro x u
  have hx : x.trv = some { r with fail := some f } := rfl
  have hu : u.trv = some { r with fail := some f } := stopArrives_trv (endingWith_inRun h f) hch hrec _
  have hstop : x.stopChambers = u := by
    unfold State.stopChambers
    rw [hx]
    dsimp only
    rw [hr]
    simp only [List.filterMap_cons, he, List.filterMap_nil, List.foldl_cons, List.foldl_nil]
    rfl
  have hrun : (r.running.filter fun r => r.chamber.isSome) = [e] := by rw [hr]; simp [he]
  have hstep : x.stopStep = { u with trv := some { r with fail := some f, stopped := true } } := by
    unfold State.stopStep
    rw [hstop, modTrv_some hu, hrun, ← hr]
  rw [hstep]
  exact reportIfDone_waits (r := { r with fail := some f, stopped := true }) rfl (by rw [hr]; exact List.cons_ne_nil _ _)

theorem runonExpire_does (h : s.StepRuns r) (f : StepFail) {ms : Nat}
    (hms : ms = if s.get Reg.TRV_CTL_STALL_MS = 0 then 100 else s.get Reg.TRV_CTL_STALL_MS) : let x := s.endingWith r f
    (s.cycle - r.failAt < 1700000 * ms ∨ r.stopped = true → Does .runonExpire x fun t => t = x) ∧
    (1700000 * ms ≤ s.cycle - r.failAt → r.stopped = false → (∀ e ∈ r.running, e.chamber = none) → Does .runonExpire x fun t => x.StepDies t r f) ∧
    (∀ e n, 1700000 * ms ≤ s.cycle - r.failAt → r.stopped = false → r.running = [e] → e.chamber = some n → n < 28 → x.chState n ≠ 0 →
      x.get Reg.SEC_BOOT_RECOVERY = 0 → Does .runonExpire x fun t => t.trv = some { r with fail := some f, stopped := true } ∧ ∃ u, t = { u with trv := t.trv } ∧
        Does (.chamberStop (Fin.ofNat 28 n) false) x fun v => v = u) := by
  intro x
  have heq := runonExpire_eq (r := r) h.1 f
  rw [← hms] at heq
  refine ⟨fun hno => ⟨_, heq.trans (congrArg _ (if_neg ?_)), rfl⟩, fun hle hs hc => ⟨_, heq.trans (congrArg _ (if_pos ⟨hs, hle⟩)), ?_⟩,
    fun e n hle hs hr he hn hch hrec => ⟨_, heq.trans (congrArg _ (if_pos ⟨hs, hle⟩)), ?_⟩⟩
  · rintro ⟨hs, hle⟩
    obtain hlt | ht := hno
    · omega
    · rw [hs] at ht
      cases ht
  · rw [stop_ok x { r with fail := some f } rfl hc]
    exact dies_ok (u := { x with trv := _ }) rfl (fun _ _ => rfl) rfl rfl rfl rfl rfl (endingWith_state f)
  · rw [stopStep_one h.1 hr he hch hrec]
    refine ⟨rfl, _, rfl, _, ?_, rfl⟩
    show Host.Outcome.next _ = _
    rw [show (Fin.ofNat 28 n).val = n from Nat.mod_eq_of_lt hn]
    rfl

end

/-! ## O47 -/

/-- Settles O47: acceptance by what the plan's checks answer, and each command of a running step by its lemma above. That a step which
ends without commit is logged once, and that the releases of its buffers are carried out before its end is reported (log entry 49), are the model's
choices. -/
theorem traverseSteps : Obligations.TraverseSteps := by
  unfold Obligations.TraverseSteps
  refine ⟨fun s hs => ⟨fun h => ⟨_, stepAccept_stands h, rfl⟩, fun q qs x p bad v hq ha hx hp => ⟨fun hr => ?_, fun hr => ?_⟩⟩, fun s r h => ?_⟩
  · exact ⟨_, (stepAccept_takes hs hq ha hx hp).trans (congrArg _ (if_pos hr)), endFailed_ends _ _ _⟩
  · obtain ⟨h2, hstage, htrv, hsub, hkeep, heq⟩ := entersRun_does v q p
    exact ⟨_, (stepAccept_takes hs hq ha hx hp).trans (congrArg _ (if_neg (not_not.mpr hr))), h2, hstage,
      ⟨_, htrv, rfl, rfl, rfl, rfl, rfl, rfl, rfl, rfl⟩, hsub, hkeep, heq⟩
  · refine ⟨microbatchAdmit_admits h, microbatchAdmit_waits h, stepComplete_waits h, fun hr hd hl hg =>
      ⟨stepComplete_marks h hr hd hl hg, stepComplete_fenced h hr hd hl hg, stepComplete_commits h hr hd hl hg⟩, stepFail_none h, stallTimeout_off h,
      fun c hc hms hr => stallTimeout_idle h hc hms hr, trvAbort_dies h.2.1 h.2.2.2 (.inl h.2.2.1), ?_, fun e x hx hr he => trvAbort_waits h hx hr he, ?_, ?_⟩
    · rintro x rfl hr
      exact trvAbort_dies h.2.1 h.2.2.2 (.inr State.get_put_eq) hr
    · rintro f x rfl
      exact ⟨fun hr => ⟨_, stepFail_ends (r := { r with fail := some f }) h.1.2 rfl rfl h.2.2.1, beginEnding_dies (r := { r with fail := some f }) rfl hr rfl⟩,
        fun hr => ⟨_, stepFail_ends (r := { r with fail := some f }) h.1.2 rfl rfl h.2.2.1, beginEnding_runs (r := { r with fail := some f }) rfl hr rfl⟩⟩
    · rintro f x ms hms rfl
      exact runonExpire_does h f hms

end Sys2Proof.Machine
end

section
/-! Posts made in Run, and the ring blocks that Traverse gives back with them (R50, R53, R288): what they leave alone. -/

namespace Sys2Proof.Machine

open Sys2Proof

/-- Two states differ by posts made in Run: in registers other than the power state, in the ports, and in lost packets and raises. -/
def State.Posts (s t : State) : Prop :=
  t = { s with fields := t.fields, ports := t.ports, lost := t.lost, irq := t.irq } ∧ t.get Reg.PCR_PSTATE_STATE = s.get Reg.PCR_PSTATE_STATE

/-- Two states differ by posts made in Run, where the first is in Run, and by the ring blocks that the running step has given back. -/
def State.Frees (s t : State) : Prop := s.get Reg.PCR_PSTATE_STATE = 0 →
  t.get Reg.PCR_PSTATE_STATE = 0 ∧ t = { s with fields := t.fields, ports := t.ports, lost := t.lost, irq := t.irq, trv := t.trv } ∧
  ∃ g : Step → List (Nat × Nat), t.trv = s.trv.map fun r => { r with ringFreed := g r }

section
variable {s t u : State}

theorem State.Posts.trans (h : s.Posts t) (k : t.Posts u) : s.Posts u := by
  obtain ⟨h1, h2⟩ := h
  obtain ⟨k1, k2⟩ := k
  exact ⟨by rw [k1, h1], k2.trans h2⟩

theorem posts_put {f : FieldRef} (v : Nat) (hf : f.key ≠ Reg.PCR_PSTATE_STATE.key) : s.Posts (s.put f v) := ⟨rfl, State.get_put_ne hf.symm⟩

theorem posts_logErr (e : LogEntry) : s.Posts (s.logErr e) := by
  refine ⟨?_, logErr_get (by decide)⟩
  rw [logErr_eq]

theorem State.Sends.posts (h : s.Sends t) : s.Posts t := ⟨by rw [h.2], h.get (by decide) (by decide)⟩

theorem posts_lost (l : List Packet) : s.Posts { s with lost := l } := ⟨rfl, rfl⟩

/-- A lost post is counted at a port and logged. -/
theorem posts_losePacket (n : Nat) {k : Packet} (hk : k.kind = .post) : s.Posts (s.losePacket n false k) := by
  unfold State.losePacket
  extract_lets s1 s2 s3
  have h3 : s.Posts s3 := ((posts_put _ (by simp; omega)).trans (posts_logErr _)).trans (posts_lost _)
  clear_value s3
  rw [hk, if_neg (by simp)]
  exact h3

theorem posts_sendVia {k : Packet} (hk : k.kind = .post) : s.Posts (s.sendVia k none) := by
  unfold State.sendVia State.sendOver
  split
  · exact ((sends_setPort _ _).trans (sends_pump _)).posts
  · exact posts_losePacket _ hk

theorem posts_postSig (h : s.get Reg.PCR_PSTATE_STATE = 0) {sig : Nat} (hs : sig < 4096) (v : Nat) : s.Posts (s.postSig sig false v) := by
  rw [get_post h]
  exact posts_put _ (by simp; omega)

/-- In Run a post changes a signal here, or sends a packet. -/
theorem posts_postTo (h : s.get Reg.PCR_PSTATE_STATE = 0) {sig : Nat} (hs : sig < 4096) (dev cc : Nat) (v : Word) :
    s.Posts (s.postTo dev cc sig false v) := by
  unfold State.postTo State.send
  split
  · exact posts_postSig h hs _
  · split
    · exact posts_postSig h hs _
    · exact posts_sendVia rfl

theorem State.Frees.refl (s : State) : s.Frees s := fun h => ⟨h, rfl, Step.ringFreed, by cases s.trv <;> rfl⟩

theorem State.Frees.trans (h : s.Frees t) (k : t.Frees u) : s.Frees u := by
  intro h0
  obtain ⟨ht, h1, g, h2⟩ := h h0
  obtain ⟨hu, k1, g', k2⟩ := k ht
  refine ⟨hu, by rw [k1, h1], fun r => g' { r with ringFreed := g r }, ?_⟩
  rw [k2, h2, Option.map_map]
  rfl

theorem frees_foldl {α : Type} {f : State → α → State} (hf : ∀ (s : State) y, s.Frees (f s y)) (l : List α) : ∀ s : State, s.Frees (l.foldl f s) := by
  induction l with
  | nil => exact State.Frees.refl
  | cons y l ih => exact fun s => (hf s y).trans (ih _)

/-- One block given back, with its post to the ring's previous node. -/
theorem frees_block (b : Nat × Nat) {sig : Nat} (hs : sig < 4096) (dev cc : Nat) (v : Word) :
    s.Frees ((s.modTrv fun t => { t with ringFreed := t.ringFreed ++ [b] }).postTo dev cc sig false v) := by
  intro h0
  obtain ⟨heq, hpow⟩ := posts_postTo (s := s.modTrv fun t => { t with ringFreed := t.ringFreed ++ [b] }) h0 hs dev cc v
  refine ⟨hpow.trans h0, ?_, fun r => r.ringFreed ++ [b], ?_⟩
  · rw [heq]
    rfl
  · rw [heq]
    rfl

theorem frees_freeBlocks (s : State) : s.Frees s.freeBlocks := by
  unfold State.freeBlocks
  split
  · exact .refl s
  · refine frees_foldl (fun s i => frees_foldl (fun s u => frees_foldl (fun s h => ?_) _ s) _ s) _ s
    dsimp only
    split
    · exact frees_block _ (recBits_lt _ 5 27 16) _ _ _
    · exact .refl s

end

end Sys2Proof.Machine
end

section
/-! The instances of a running step (R277 to R279, R283, R285 to R290, R294): dispatch, completion, ring blocks, queue slots and gathers, and from
them O48. -/

namespace Sys2Proof.Machine

open Sys2Proof

/-! ## Dispatch (R277 to R279) -/

section
variable {s : State} {r : Step} {x : Inst} {l n : Nat}

/-- Of the waiting instances the one that Traverse starts: the first in rank order that is ready and has where to run. -/
def State.nextInst (s : State) (r : Step) : Option Inst :=
  r.waitingInsts.find? fun x => s.ready r x && (onHelictites (r.plan.item x.item) || (s.bestChamber r).isSome)

/-- A dispatch passes over chamber instances of higher rank that are not ready (R277). -/
def State.passesOver (s : State) (r : Step) (x : Inst) : Bool :=
  (r.waitingInsts.takeWhile (· != x)).any fun y => !onHelictites (r.plan.item y.item) && !s.ready r y

/-- The step once one of its instances has begun that is not the first of its microbatch's backward pass. -/
def Step.begins (r : Step) (x : Inst) (ch : Option Nat) (tok : Nat) : Step :=
  { r with begun := r.begun ++ [x], running := r.running ++ [⟨x, ch, tok⟩], idleAt := none }

theorem instanceDispatch_none (h : s.StepRuns r) (hn : s.nextInst r = none) : exec .instanceDispatch s = .next s := by
  show execInstanceDispatch s = _
  unfold execInstanceDispatch
  rw [acts_ok h]
  dsimp only
  rw [show r.waitingInsts.find? _ = none from hn]

theorem instanceDispatch_hel (h : s.StepRuns r) (hn : s.nextInst r = some x) (hx : onHelictites (r.plan.item x.item) = true) :
    exec .instanceDispatch s = .next (s.startOnHelictites r x) := by
  show execInstanceDispatch s = _
  unfold execInstanceDispatch
  rw [acts_ok h]
  dsimp only
  rw [show r.waitingInsts.find? _ = some x from hn]
  exact congrArg _ (if_pos hx)

theorem instanceDispatch_chamber (h : s.StepRuns r) (hn : s.nextInst r = some x) (hx : onHelictites (r.plan.item x.item) = false)
    (hb : s.bestChamber r = some (l, n)) : exec .instanceDispatch s =
      .next ((if s.passesOver r x then s.count Reg.TRV_SWITCH_COUNT 1 else s).startOnChamber r x l n) := by
  show execInstanceDispatch s = _
  unfold execInstanceDispatch
  rw [acts_ok h]
  dsimp only
  rw [show r.waitingInsts.find? _ = some x from hn, hb]
  exact congrArg _ (if_neg (by rw [hx]; decide))

theorem beginInst_begins (h : s.trv = some r) (hp : phaseOf (r.plan.item x.item) ≠ 3) (ch : Option Nat) (tok : Nat) :
    s.beginInst r x ch tok = { s with trv := some (r.begins x ch tok) } := by
  have hb : (phaseOf (r.plan.item x.item) == 3 && !r.bFetched.contains x.mb) = false := by simp [hp]
  unfold State.beginInst
  dsimp only
  rw [hb, if_neg Bool.false_ne_true, modTrv_some h]
  rfl

/-- Work for the helictites joins their internal queue. -/
theorem startOnHelictites_queues (hs : s.InRun) (h : s.trv = some r) (hp : phaseOf (r.plan.item x.item) ≠ 3) : s.startOnHelictites r x =
    { s with tokens := s.tokens + 1, hlcQueue := s.hlcQueue ++ [⟨s.tokens + 1, r.hlcWords x, s.hlcPosted⟩]
             trv := some (r.begins x none (s.tokens + 1)) } := by
  unfold State.startOnHelictites
  rw [wake_run hs]
  exact beginInst_begins (s := { s with tokens := s.tokens + 1, hlcQueue := s.hlcQueue ++ [⟨s.tokens + 1, r.hlcWords x, s.hlcPosted⟩] }) h hp none _

/-- The program counter at which an item's program begins. -/
def Plan.entry (p : Plan) (i : Nat) : Nat := recBits (p.progs.getD (recBits (p.item i) 0 39 32) []) 1 27 16

/-- The state in which one of the chamber instances has begun, and its chamber's START_PC has been written. -/
def State.dispatched (s : State) (r : Step) (x : Inst) (n : Nat) : State :=
  (({ s with trv := some (r.begins x (some n) 0) } : State).modCh n fun c => { c with item := x.item }).put (Reg.CHn_CTL_START_PC n) (r.plan.entry x.item)

theorem instArgs_of_widths {u : State} (h : u.width n = s.width n) : u.instArgs r x l n = s.instArgs r x l n := by
  unfold State.instArgs State.argPlace
  rw [h]

/-- A write of START in Run starts a chamber in IDLE or HALT. -/
theorem writeCtl_starts (hs : s.InRun) (hst : s.chState n = 1 ∨ s.chState n = 4) (pc : Nat) (a : List Word) :
    s.writeCtl n 3 pc false false false true (some a) = (s.put (Reg.CHn_CTL_START_PC n) pc).startAt n pc a := by
  have hstops : (s.put (Reg.CHn_CTL_START_PC n) pc).stops n false = false := rfl
  unfold State.writeCtl
  rw [wake_run hs]
  dsimp only
  rw [if_neg (by omega)]
  simp only [Bool.false_and, Bool.false_eq_true, if_false]
  unfold State.ctlBits
  simp only [Bool.false_eq_true, if_false, hstops, if_true]
  exact startBit_idle a (by rwa [putStart_chState])

/-- A chamber that holds an item's program and region set starts without a load. -/
theorem startOnChamber_starts (hs : s.InRun) (h : s.trv = some r) (hp : phaseOf (r.plan.item x.item) ≠ 3) (hst : s.chState n = 1 ∨ s.chState n = 4)
    (hprog : (s.ch n).prog = some (recBits (r.plan.progs.getD (recBits (r.plan.item x.item) 0 39 32) []) 0 47 0,
      recBits (r.plan.progs.getD (recBits (r.plan.item x.item) 0 39 32) []) 1 11 0 + 1))
    (hrset : (s.ch n).rset = some (r.plan.base + (tableAt r.plan.header 6).1 + 4096 * recBits (r.plan.item x.item) 0 43 40)) :
    s.startOnChamber r x l n = (s.dispatched r x n).startAt n (r.plan.entry x.item) (s.instArgs r x l n) := by
  have hload : s.loadProgram r n (r.plan.item x.item) = (false, s) := by
    unfold State.loadProgram
    dsimp only
    rw [if_pos hprog]
  have hregions : s.loadRegions r n (r.plan.item x.item) = (false, s) := by
    unfold State.loadRegions
    dsimp only
    rw [if_pos hrset]
  have hrest : ∀ u : State, u = (({ s with trv := some (r.begins x (some n) 0) } : State).modCh n fun c => { c with item := x.item }) →
      u.InRun ∧ u.chState n = s.chState n ∧ u.width n = s.width n := by
    rintro u rfl
    exact ⟨hs, rfl, rfl⟩
  unfold State.startOnChamber State.dispatched
  rw [wake_run hs]
  dsimp only
  rw [hload, hregions]
  simp only [Bool.false_eq_true, if_false]
  rw [beginInst_begins h hp]
  obtain ⟨hrun, hstate, hwidth⟩ := hrest _ rfl
  rw [writeCtl_starts hrun (by rwa [hstate]), instArgs_of_widths hwidth]
  rfl

/-- A start's registers are those of its chamber. -/
theorem startAt_keeps (n pc : Nat) (a : List Word) (s : State) :
    s.KeepsFields (s.startAt n pc a) [Reg.CHn_CTL_START_PC n, Reg.CHn_STATUS_PC n, Reg.CHn_STATUS_STATE n] :=
  State.KeepsFields.puts (t := s.modCh n _) _ (fun _ _ => rfl) (by simp)

/-- What a start changes beside registers: its chamber. -/
theorem startAt_rest (s : State) (n pc : Nat) (a : List Word) : (s.startAt n pc a).trv = s.trv ∧ (s.startAt n pc a).mem = s.mem ∧
    ∀ m, m ≠ n → (s.startAt n pc a).ch m = s.ch m := by
  unfold State.startAt
  refine ⟨?_, ?_, fun m hm => ?_⟩
  · rw [puts_eq]
    rfl
  · rw [puts_eq]
    rfl
  · rw [ch_puts, ch_modCh, if_neg hm]

/-- A chamber that work is dispatched to runs its program on its arguments. -/
theorem dispatched_runs (x : Inst) (l n : Nat) (s : State) (r : Step) :
    let t := (s.dispatched r x n).startAt n (r.plan.entry x.item) (s.instArgs r x l n)
    t.chState n = 2 ∧ t.chPc n = r.plan.entry x.item ∧ (t.ch n).item = x.item ∧ (∀ m, m ≠ n → t.ch m = s.ch m) ∧ t.mem = s.mem ∧
      (∀ a : BitVec 5, 1 ≤ a.toNat → a.toNat ≤ 8 → (t.ch n).sreg a = (s.instArgs r x l n).getD (a.toNat - 1) 0) ∧
      t.trv = some (r.begins x (some n) 0) ∧
      s.KeepsFields t [Reg.CHn_CTL_START_PC n, Reg.CHn_STATUS_PC n, Reg.CHn_STATUS_STATE n] := by
  intro t
  have hbegun : s.KeepsFields (({ s with trv := some (r.begins x (some n) 0) } : State).modCh n fun c => { c with item := x.item })
      [Reg.CHn_CTL_START_PC n, Reg.CHn_STATUS_PC n, Reg.CHn_STATUS_STATE n] := fun _ _ => rfl
  have hkeep : s.KeepsFields (s.dispatched r x n) [Reg.CHn_CTL_START_PC n, Reg.CHn_STATUS_PC n, Reg.CHn_STATUS_STATE n] := hbegun.put (by simp)
  have hitem : ∀ m, (s.dispatched r x n).ch m = if m = n then { s.ch n with item := x.item } else s.ch m := fun m =>
    ch_modCh (s := { s with trv := some (r.begins x (some n) 0) }) (g := fun c => { c with item := x.item })
  obtain ⟨hstate, hpc, -, hch⟩ := startAt_does (s.dispatched r x n) n (r.plan.entry x.item) (s.instArgs r x l n) (recBits_lt _ 1 27 16)
  obtain ⟨htrv, hmem, hother⟩ := startAt_rest (s.dispatched r x n) n (r.plan.entry x.item) (s.instArgs r x l n)
  refine ⟨hstate, hpc, ?_, fun m hm => (hother m hm).trans ((hitem m).trans (if_neg hm)), hmem, fun a h1 h8 => ?_, htrv,
    hkeep.trans (startAt_keeps _ _ _ _)⟩
  · rw [hch, hitem, if_pos rfl]
  · rw [hch]
    exact (putArgs_getD _ _ _ a.isLt).trans (if_pos ⟨h1, h8⟩)

theorem physical_lt (h : s.physical l = some n) : n < 28 := List.mem_range.mp (List.mem_of_find?_eq_some h)

/-- The chamber chosen is one of those idle. -/
theorem bestChamber_mem {e : Nat × Nat} (h : s.bestChamber r = some e) : e ∈ s.idleChambers r := by
  have key : ∀ (l : List (Nat × Nat)) (b : Option (Nat × Nat)), (l.foldl (fun b e => match b with
      | none => some e
      | some c => if s.width c.2 < s.width e.2 then some e else some c) b) = some e → b = some e ∨ e ∈ l := by
    intro l
    induction l with
    | nil => exact fun b h => .inl h
    | cons y l ih =>
      intro b h
      obtain hb | hl := ih _ h
      · cases b with
        | none => exact .inr (List.mem_cons.mpr (.inl (Option.some.inj hb).symm))
        | some c =>
          dsimp only at hb
          split at hb
          · exact .inr (List.mem_cons.mpr (.inl (Option.some.inj hb).symm))
          · exact .inl hb
      · exact .inr (List.mem_cons_of_mem _ hl)
  obtain h | h := key _ none h
  · cases h
  · exact h

theorem bestChamber_lt (h : s.bestChamber r = some (l, n)) : n < 28 := by
  obtain ⟨k, -, hk⟩ := List.mem_filterMap.mp (bestChamber_mem h)
  obtain ⟨m, hm, he⟩ := Option.bind_eq_some_iff.mp hk
  split at he
  · cases he
    exact physical_lt hm
  · cases he

/-- The count of TRV_SWITCH at a dispatch. -/
theorem switch_counts (s : State) (b : Bool) : let u := if b then s.count Reg.TRV_SWITCH_COUNT 1 else s
    u = { s with fields := u.fields } ∧ s.KeepsFields u [Reg.TRV_SWITCH_COUNT] ∧
    u.get Reg.TRV_SWITCH_COUNT = if b then (s.get Reg.TRV_SWITCH_COUNT + 1) % 2 ^ 64 else s.get Reg.TRV_SWITCH_COUNT := by
  cases b
  · exact ⟨rfl, keeps_refl s _, rfl⟩
  · exact ⟨rfl, (keeps_refl s _).put (by simp), State.get_put_eq⟩

/-- Dispatch starts the chamber chosen, which holds the item's program and region set. -/
theorem instanceDispatch_starts (h : s.StepRuns r) (hn : s.nextInst r = some x) (hp : phaseOf (r.plan.item x.item) ≠ 3)
    (hx : onHelictites (r.plan.item x.item) = false) (hb : s.bestChamber r = some (l, n)) (hst : s.chState n = 1 ∨ s.chState n = 4)
    (hprog : (s.ch n).prog = some (recBits (r.plan.progs.getD (recBits (r.plan.item x.item) 0 39 32) []) 0 47 0,
      recBits (r.plan.progs.getD (recBits (r.plan.item x.item) 0 39 32) []) 1 11 0 + 1))
    (hrset : (s.ch n).rset = some (r.plan.base + (tableAt r.plan.header 6).1 + 4096 * recBits (r.plan.item x.item) 0 43 40)) :
    Does .instanceDispatch s fun t =>
      t.chState n = 2 ∧ t.chPc n = r.plan.entry x.item ∧ (t.ch n).item = x.item ∧ (∀ m, m ≠ n → t.ch m = s.ch m) ∧ t.mem = s.mem ∧
      (∀ a : BitVec 5, 1 ≤ a.toNat → a.toNat ≤ 8 → (t.ch n).sreg a = (s.instArgs r x l n).getD (a.toNat - 1) 0) ∧
      t.trv = some (r.begins x (some n) 0) ∧
      t.get Reg.TRV_SWITCH_COUNT =
        if s.passesOver r x then (s.get Reg.TRV_SWITCH_COUNT + 1) % 2 ^ 64 else s.get Reg.TRV_SWITCH_COUNT := by
  refine ⟨_, instanceDispatch_chamber h hn hx hb, ?_⟩
  obtain ⟨heq, hkeep, hcount⟩ := switch_counts s (s.passesOver r x)
  have hn28 := bestChamber_lt hb
  generalize (if s.passesOver r x then s.count Reg.TRV_SWITCH_COUNT 1 else s) = u at *
  have hget : ∀ f : FieldRef, f.off ≠ 0x3C00040 → f.lo < 64 → u.get f = s.get f := fun f ho hl => hkeep f (by
    simp only [List.map_cons, List.map_nil, List.mem_singleton, FieldRef.key, Reg.TRV_SWITCH_COUNT]; omega)
  have hrun : u.InRun := by
    obtain ⟨h0, hheld⟩ := h.1
    refine ⟨(hget _ (by decide) (by decide)).trans h0, ?_⟩
    rw [← hheld]
    unfold State.held State.flag
    rw [hget _ (by decide) (by decide)]
  have hstate : u.chState n = s.chState n :=
    hget _ (by simp only [Reg.CHn_STATUS_STATE]; omega) (by simp only [Reg.CHn_STATUS_STATE]; omega)
  have hwidth : u.width n = s.width n := by
    unfold State.width
    rw [hget _ (by simp only [Reg.CHn_CAP_COLS16_A]; omega) (by simp only [Reg.CHn_CAP_COLS16_A]; omega),
      hget _ (by simp only [Reg.CHn_CAP_COLS16_B]; omega) (by simp only [Reg.CHn_CAP_COLS16_B]; omega)]
  have hch : ∀ m, u.ch m = s.ch m := fun m => by rw [heq]; rfl
  have hmem : u.mem = s.mem := by rw [heq]
  have htrv : u.trv = some r := by rw [heq]; exact h.2.1
  rw [startOnChamber_starts hrun htrv hp (by rwa [hstate]) (by rwa [hch]) (by rwa [hch])]
  obtain ⟨h1, h2, h3, h4, h5, h6, h7, h8⟩ := dispatched_runs x l n u r
  rw [instArgs_of_widths hwidth] at *
  refine ⟨h1, h2, h3, fun m hm => (h4 m hm).trans (hch m), h5.trans hmem, h6, h7, (h8 _ ?_).trans hcount⟩
  simp
  omega

end

/-! ## Completion of instances (R278, R279) -/

section
variable {s : State} {r : Step} {e : RunInst}

/-- The step without the `k`-th of its running instances. -/
def Step.without (r : Step) (k cycle : Nat) : Step :=
  { r with running := r.running.eraseIdx k, idleAt := if r.running.eraseIdx k = [] then some cycle else r.idleAt }

/-- The `k`-th of the running instances goes on, completes, or fails the step. -/
theorem instanceComplete_eq (h : s.StepRuns r) {k : BitVec 16} (he : r.running[k.toNat]? = some e) : exec (.instanceComplete k) s = .next
    (match s.instEnd e with
      | none => s
      | some none => ({ s with trv := some (r.without k.toNat s.cycle) } : State).completeInst e.inst
      | some (some f) => { s with trv := some { r.without k.toNat s.cycle with fail := some f } }) := by
  obtain ⟨⟨-, hheld⟩, htrv, hstate, hfail⟩ := h
  have hstate' : ({ s with trv := some (r.without k.toNat s.cycle) } : State).get Reg.TRV_STATE_STATE = 2 := hstate
  show execInstanceComplete k s = _
  unfold execInstanceComplete
  rw [htrv]
  dsimp only
  rw [he]
  dsimp only
  rw [hheld, if_neg (by decide)]
  cases s.instEnd e with
  | none => rfl
  | some f =>
    dsimp only
    rw [modTrv_some htrv]
    cases f with
    | none => rfl
    | some f =>
      refine congrArg _ ((if_pos hstate').trans ((modTrv_some (r := r.without k.toNat s.cycle) rfl _).trans ?_))
      unfold Step.failWith
      rw [show (r.without k.toNat s.cycle).fail = none from hfail]
      rfl

theorem instEnd_hel (hc : e.chamber = none) :
    s.instEnd e = (mapFind s.hlcDone e.token).map fun st => if st = 1 then none else some ⟨4, 3, st, some e.inst⟩ := by
  unfold State.instEnd
  rw [hc]

theorem instEnd_chamber {n : Nat} (hc : e.chamber = some n) (h4 : s.chState n = 4) (hh : (s.ch n).halt = none) :
    s.instEnd e = if s.get (Reg.CHn_HALT_CAUSE n) ≠ 1 then some (some ⟨4, 1, s.get (Reg.CHn_HALT_CAUSE n), some e.inst⟩)
      else if ((s.ch n).sreg 9).toNat = 0 then some none else some (some ⟨4, 2, ((s.ch n).sreg 9).toNat % 2 ^ 16, some e.inst⟩) := by
  have h9 : (s.ch n).sregs[9] = (s.ch n).sreg 9 := by simp [Chamber.sreg]
  unfold State.instEnd
  rw [hc]
  dsimp only
  rw [if_pos ⟨h4, hh⟩, h9]

/-- Where nothing is posted, no queue and no gather read, and the plan has no rings, the counts alone change at a completion. -/
theorem completeInst_counts (h : s.trv = some r) {x : Inst} (hpost : recBits (r.plan.item x.item) 1 44 44 = 0)
    (hrecv : recvqOf (r.plan.item x.item) = none) (hgath : gathOf (r.plan.item x.item) = none) (hring : r.plan.rings = []) :
    s.completeInst x = ({ s with trv := some { r with done := r.done ++ [x] } } : State).progress := by
  unfold State.completeInst
  rw [modTrv_some h]
  dsimp only
  rw [if_neg (by rw [hpost]; decide)]
  have hcredit : ∀ u t, t.plan = r.plan → State.postCredit u t x = u := fun u t ht => by
    unfold State.postCredit
    rw [ht, hrecv]
  have hdrop : ∀ (u : State) (t : Step), u.trv = some t → t.plan = r.plan → u.dropUsed x = u := fun u t hu ht => by
    unfold State.dropUsed
    rw [hu]
    dsimp only
    rw [ht, hgath]
  rw [hcredit _ { r with done := r.done ++ [x] } rfl, freeBlocks_none (r := { r with done := r.done ++ [x] }) rfl hring, hdrop _ { r with done := r.done ++ [x] } rfl rfl]

/-- A completion is counted in TRV_PROGRESS. -/
theorem instanceComplete_counts (h : s.StepRuns r) {k : BitVec 16} (he : r.running[k.toNat]? = some e) (hend : s.instEnd e = some none)
    (hpost : recBits (r.plan.item e.inst.item) 1 44 44 = 0) (hrecv : recvqOf (r.plan.item e.inst.item) = none)
    (hgath : gathOf (r.plan.item e.inst.item) = none) (hring : r.plan.rings = []) : Does (.instanceComplete k) s fun t =>
      t = { s with fields := t.fields, trv := some { r.without k.toNat s.cycle with done := r.done ++ [e.inst] } } ∧
      t.get Reg.TRV_PROGRESS_INST = (r.done.length + 1) % 2 ^ 32 ∧
      s.KeepsFields t [Reg.TRV_PROGRESS_INST, Reg.TRV_PROGRESS_B_DONE, Reg.TRV_PROGRESS_F_DONE] := by
  have heq := instanceComplete_eq h he
  rw [hend] at heq
  obtain ⟨hprog, hinst, hkeep⟩ := progress_shows (s := { s with trv := some { r.without k.toNat s.cycle with done := r.done ++ [e.inst] } }) rfl
  refine ⟨_, heq.trans (congrArg _ (completeInst_counts (r := r.without k.toNat s.cycle) rfl hpost hrecv hgath hring)), hprog, hinst.trans ?_, hkeep⟩
  rw [List.length_append]
  rfl

end

/-! ## Ring blocks and queue slots (R283, R288, R289) -/

section
variable {s : State} {r : Step}

/-- The words of the PUT of a queue's slot. -/
def Plan.slotPut (p : Plan) (q mb : Nat) : List Nat :=
  let w := p.queues.getD q []
  let off := mb % p.nslots q * recBits w 1 47 0
  putWords (recBits w 0 19 18) (recBits w 0 17 16) (recBits w 0 35 32) (recBits w 0 15 8) (recBits w 2 47 0 + off) (recBits w 3 47 0 + off)
    (recBits w 1 47 0) (recBits w 5 15 0) (recBits w 4 11 0)

/-- The slot of a queue's next microbatch may go to its peer. -/
def State.SlotGoes (s : State) (r : Step) (q : Nat) : Prop :=
  sentCount r.qSent q < r.plan.nmb ∧ recBits (r.plan.queues.getD q []) 0 0 0 = 0 ∧ r.slotWritten q (sentCount r.qSent q) = true ∧
    s.sigReaches (recBits (r.plan.queues.getD q []) 4 27 16) (r.queueK (sentCount r.qSent q) + 1 - r.plan.nslots q) = true

theorem queueSlotSend_waits (h : s.StepRuns r) {q : Fin 8} (hno : ¬s.SlotGoes r q) : exec (.queueSlotSend q) s = .next s := by
  show execQueueSlotSend q s = _
  unfold execQueueSlotSend
  rw [acts_ok h]
  exact congrArg _ (if_neg hno)

theorem queueSlotSend_sends (h : s.StepRuns r) {q : Fin 8} (hgo : s.SlotGoes r q) : exec (.queueSlotSend q) s = .next { s with
    tokens := s.tokens + 1, trv := some { r with qSent := r.qSent ++ [(q.val, sentCount r.qSent q, s.tokens + 1)] }
    cuQueue := s.cuQueue ++ [⟨s.tokens + 1, r.plan.slotPut q (sentCount r.qSent q), 0⟩] } := by
  show execQueueSlotSend q s = _
  unfold execQueueSlotSend
  rw [acts_ok h]
  refine congrArg _ ((if_pos hgo).trans ?_)
  exact modTrv_some (s := (s.submitCu (r.plan.slotPut q (sentCount r.qSent q))).2) h.2.1 _

/-- The words of the PUT of a ring's `k`-th block, of microbatch `mb`. -/
def Step.blockPut (r : Step) (g k mb : Nat) : List Nat :=
  let w := r.plan.rings.getD g []
  let blk := recBits w 1 47 0
  let rbuf := recBits w 4 47 0
  putWords 0 (recBits w 0 33 32) 1 (recBits w 0 23 16)
    (if k % (r.plan.ringG g - 1) = 0 then recBits w 2 47 0 + mb * recBits w 3 47 0 else rbuf + (r.ringK g (k - 1) % 2).toNat * blk)
    (rbuf + (r.ringK g k % 2).toNat * blk) blk 0 (recBits w 5 11 0)

/-- A ring block whose signal allows is sent, and the blocks that may be given back are. -/
theorem ringBlockSend_sends (h : s.StepRuns r) {g : Fin 4} {u : Nat × Nat × Bool} (hg : 2 ≤ r.plan.ringG g)
    (hu : (r.plan.ringUses g)[sentCount r.ringSent g / (r.plan.ringG g - 1)]? = some u)
    (hsig : s.sigReaches (recBits (r.plan.rings.getD g []) 5 27 16) (r.ringK g (sentCount r.ringSent g) - 1) = true)
    (hb : s.blockThere r g u (sentCount r.ringSent g % (r.plan.ringG g - 1)) = true) : exec (.ringBlockSend g) s = .next
      (({ s with tokens := s.tokens + 1, cuQueue := s.cuQueue ++ [⟨s.tokens + 1, r.blockPut g (sentCount r.ringSent g) u.1, 0⟩]
                 trv := some { r with ringSent := r.ringSent ++ [(g.val, sentCount r.ringSent g, s.tokens + 1)] } } : State).freeBlocks) := by
  show execRingBlockSend g s = _
  unfold execRingBlockSend
  rw [acts_ok h]
  dsimp only
  rw [hu]
  dsimp only
  rw [if_neg (by omega), hsig, hb]
  exact congrArg (fun x : State => Host.Outcome.next x.freeBlocks)
    (modTrv_some (s := (s.submitCu (r.blockPut g (sentCount r.ringSent g) u.1)).2) h.2.1 _)

end

/-! ## Gathers (R285 to R287) -/

section
variable {s : State} {r : Step}

theorem dropFor_enough {need free : Nat} (h : need ≤ free) (l : List Nat) : State.dropFor need r l free s = s := by
  cases l with
  | nil => rfl
  | cons e es => exact if_pos h

/-- The gather of an entry is due and its signal allows. -/
def State.GatherGoes (s : State) (r : Step) (i : Nat) : Prop :=
  i < r.plan.gathers.length ∧ s.sigAtLeast (recBits r.plan.header 11 43 32) (r.delta + 1) = true ∧ s.gatherDue r i = true

theorem gatherIssue_waits (h : s.StepRuns r) {e : BitVec 8} (hno : ¬s.GatherGoes r e.toNat) : exec (.gatherIssue e) s = .next s := by
  show execGatherIssue e s = _
  unfold execGatherIssue
  rw [acts_ok h]
  exact congrArg _ (if_neg hno)

/-- The words of the PREFETCH of a gather's buffer. -/
def State.gatherPrefetch (s : State) (w : List Nat) : List Nat :=
  [5 + recBits w 0 63 48 % 2 ^ 16 * 2 ^ 16, 0, 0, (s.nowUs + recBits w 3 31 0) % 2 ^ 48, 0, 0, 0, 0]

/-- The words of a gather's collective job. -/
def Step.gatherJob (r : Step) (w : List Nat) : List Nat :=
  [3 + 3 * 2 ^ 6 + 1 * 2 ^ 8 + 1 * 2 ^ 12 + recBits w 2 7 0 * 2 ^ 24 + recBits w 2 12 8 * 2 ^ 32 + recBits w 2 20 16 * 2 ^ 40,
    if r.req.stamp % 2 = 0 then recBits w 5 47 0 else recBits w 6 47 0, recBits w 0 47 0, recBits w 1 47 0, 0, 0, 0, 0]

/-- A gather for which frames are free is prefetched, submitted and counted. -/
theorem gatherIssue_issues (h : s.StepRuns r) {e : BitVec 8} (hgo : s.GatherGoes r e.toNat)
    (hfree : cdiv (recBits (r.plan.gathers.getD e.toNat []) 1 47 0) pageBytes + recBits r.plan.header 0 55 48 * 512 ≤ s.freeBonded) :
    let w := r.plan.gathers.getD e.toNat []
    exec (.gatherIssue e) s = .next ((({ s with
      tokens := s.tokens + 2, flsQueue := s.flsQueue ++ [⟨s.tokens + 1, s.gatherPrefetch w, 0⟩], cuQueue := s.cuQueue ++ [⟨s.tokens + 2, r.gatherJob w, 0⟩]
      trv := some { r with gath := mapInsert r.gath e.toNat ⟨s.tokens + 2, true, false, false, 0⟩ } } : State).count Reg.TRV_GATHER_ISSUED 1).count
        Reg.TRV_GATHER_REGATHER (b2n (mapFind r.gath e.toNat).isSome)) := by
  intro w
  show execGatherIssue e s = _
  unfold execGatherIssue
  rw [acts_ok h]
  refine congrArg _ ((if_pos hgo).trans ?_)
  dsimp only
  rw [dropFor_enough hfree]
  exact modTrv_some (s := (({ s with
    tokens := s.tokens + 2, flsQueue := s.flsQueue ++ [⟨s.tokens + 1, s.gatherPrefetch w, 0⟩]
    cuQueue := s.cuQueue ++ [⟨s.tokens + 2, r.gatherJob w, 0⟩] } : State).count Reg.TRV_GATHER_ISSUED 1).count Reg.TRV_GATHER_REGATHER
      (b2n (mapFind r.gath e.toNat).isSome)) h.2.1 _

/-- A gather that is issued: the queues, the step and the counts. -/
theorem gatherIssue_does (h : s.StepRuns r) {e : BitVec 8} (hgo : s.GatherGoes r e.toNat)
    (hfree : cdiv (recBits (r.plan.gathers.getD e.toNat []) 1 47 0) pageBytes + recBits r.plan.header 0 55 48 * 512 ≤ s.freeBonded) :
    let w := r.plan.gathers.getD e.toNat []
    Does (.gatherIssue e) s fun t =>
      t = { s with fields := t.fields, tokens := s.tokens + 2, flsQueue := s.flsQueue ++ [⟨s.tokens + 1, s.gatherPrefetch w, 0⟩]
                   cuQueue := s.cuQueue ++ [⟨s.tokens + 2, r.gatherJob w, 0⟩]
                   trv := some { r with gath := mapInsert r.gath e.toNat ⟨s.tokens + 2, true, false, false, 0⟩ } } ∧
      t.get Reg.TRV_GATHER_ISSUED = (s.get Reg.TRV_GATHER_ISSUED + 1) % 2 ^ 21 ∧
      t.get Reg.TRV_GATHER_REGATHER = (s.get Reg.TRV_GATHER_REGATHER + if mapFind r.gath e.toNat = none then 0 else 1) % 2 ^ 21 ∧
      s.KeepsFields t [Reg.TRV_GATHER_ISSUED, Reg.TRV_GATHER_REGATHER] := by
  have hagain : b2n (mapFind r.gath e.toNat).isSome = if mapFind r.gath e.toNat = none then 0 else 1 := by cases mapFind r.gath e.toNat <;> rfl
  refine ⟨_, gatherIssue_issues h hgo hfree, rfl, ?_, ?_, ?_⟩
  · exact (State.get_put_ne (by decide)).trans State.get_put_eq
  · refine State.get_put_eq.trans ?_
    rw [State.count, State.get_put_ne (by decide), hagain]
    rfl
  · exact State.KeepsFields.put (State.KeepsFields.put (t := { s with tokens := _, flsQueue := _, cuQueue := _, trv := _ }) (fun _ _ => rfl) (by simp))
      (by simp)

/-- The parts of a landed gather are read by Traverse. -/
theorem looks_partStamps (s : State) (base len n : Nat) : s.Looks (s.partStamps base len n).2.2 := by
  induction n with
  | zero => exact .refl s
  | succ n ih => exact ih.trans (looks_read (s.partStamps base len n).2.2 (base + n * len) 4)

/-- A gather whose job has ended well is present, or fails the step where a part is poisoned or bears another stamp. -/
theorem gatherLanded_eq (h : s.StepRuns r) {e : BitVec 8} {g : GathSt} {l : List Nat} {bad : Bool} {u : State} (hg : mapFind r.gath e.toNat = some g)
    (hf : g.flying = true) (hd : mapFind s.cuDone g.token = some 1 ∨ mapFind s.cuDone g.token = some 3)
    (hp : let w := r.plan.gathers.getD e.toNat []
      s.partStamps (recBits w 0 47 0) (recBits w 1 47 0 / recBits w 2 12 8) (recBits w 2 12 8) = (l, bad, u)) :
    exec (.gatherLanded e) s = .next (if bad || l.any (· != r.req.stamp)
      then { u with trv := some { r with gath := mapInsert r.gath e.toNat { g with flying := false }, fail := some ⟨5, 0, 0, none⟩ } }
      else { u with trv := some { r with gath := mapInsert r.gath e.toNat { g with flying := false, present := true } } }) := by
  have hlooks : s.Looks u := by
    have hl := looks_partStamps s (recBits (r.plan.gathers.getD e.toNat []) 0 47 0)
      (recBits (r.plan.gathers.getD e.toNat []) 1 47 0 / recBits (r.plan.gathers.getD e.toNat []) 2 12 8)
      (recBits (r.plan.gathers.getD e.toNat []) 2 12 8)
    rw [hp] at hl
    exact hl
  have hu : u.trv = some r := by rw [hlooks.2]; exact h.2.1
  have hdone : (g.flying && (mapFind s.cuDone g.token == some 1 || mapFind s.cuDone g.token == some 3)) = true := by
    rw [hf]
    obtain h1 | h3 := hd
    · rw [h1]; rfl
    · rw [h3]; rfl
  show execGatherLanded e s = _
  unfold execGatherLanded
  rw [acts_ok h]
  dsimp only
  rw [hg]
  dsimp only at hp ⊢
  rw [hdone, if_pos rfl, hp]
  dsimp only
  refine congrArg _ (if_congr Iff.rfl ?_ (modTrv_some hu _))
  rw [modTrv_some hu]
  unfold Step.failWith
  rw [h.2.2.2]
  rfl

end

/-! ## O48 -/

/-- Settles O48: dispatch by what the first of the ready instances runs on, completion by how it ended, and each transfer by whether its signals
allow. That TRV_SWITCH counts passes over chamber instances alone (log entry 50), and that a chamber keeps the program and the region set last
loaded (log entry 51), are the model's choices. -/
theorem traverseInstances : Obligations.TraverseInstances := by
  unfold Obligations.TraverseInstances
  intro s r h hel next prog
  refine ⟨instanceDispatch_none h, fun x hx hp => ⟨fun hh => ?_, fun l n hh hb hst hprog hrset => instanceDispatch_starts h hx hp hh hb hst hprog hrset⟩,
    fun k e he => ?_, fun q => ⟨queueSlotSend_waits h, queueSlotSend_sends h⟩, fun g u => ?_, fun e => ?_⟩
  · exact (instanceDispatch_hel h hx hh).trans (congrArg _ (startOnHelictites_queues h.1 h.2.1 hp))
  · intro left ended fails w
    have heq := instanceComplete_eq h he
    refine ⟨fun hc hd => ?_, fun st hc hd h1 => ?_, fun n hc h4 hh => ⟨fun h1 => ?_, fun h1 h9 => ?_⟩, fun hend hpost hrecv hgath hring => ?_⟩
    · rwa [instEnd_hel hc, hd] at heq
    · rw [instEnd_hel hc, hd, Option.map_some, if_neg h1] at heq
      exact heq
    · rw [instEnd_chamber hc h4 hh, if_pos h1] at heq
      exact heq
    · rw [instEnd_chamber hc h4 hh, if_neg (not_not.mpr h1), if_neg h9] at heq
      exact heq
    · refine instanceComplete_counts h he ?_ hpost hrecv hgath hring
      obtain ⟨hc, hd⟩ | ⟨n, hc, h4, hh, h1, h9⟩ := hend
      · rw [instEnd_hel hc, hd]
        rfl
      · rw [instEnd_chamber hc h4 hh, if_neg (not_not.mpr h1), if_pos h9]
  · intro w k i blk rbuf hg hu hsig hb
    refine ⟨_, ringBlockSend_sends h hg hu hsig hb, ?_⟩
    obtain ⟨-, heq, f, htrv⟩ := frees_freeBlocks ({ s with
      tokens := s.tokens + 1, cuQueue := s.cuQueue ++ [⟨s.tokens + 1, r.blockPut g (sentCount r.ringSent g) u.1, 0⟩]
      trv := some { r with ringSent := r.ringSent ++ [(g.val, sentCount r.ringSent g, s.tokens + 1)] } } : State) h.1.1
    refine ⟨by rw [heq], by rw [heq], by rw [heq], ⟨_, htrv, rfl⟩, by rw [heq]; rfl⟩
  · intro i w go
    refine ⟨gatherIssue_waits h, gatherIssue_does h, fun g l bad u hg hf hd hp => ?_⟩
    have heq := gatherLanded_eq h hg hf hd hp
    refine ⟨fun hb hl => heq.trans (congrArg _ (if_neg ?_)), fun hbad => heq.trans (congrArg _ (if_pos ?_))⟩
    · rw [hb, Bool.false_or, List.any_eq_true]
      rintro ⟨x, hx, hne⟩
      exact absurd (hl x hx) (bne_iff_ne.mp hne)
    · rw [Bool.or_eq_true, List.any_eq_true]
      obtain hb | ⟨x, hx, hne⟩ := hbad
      · exact .inl hb
      · exact .inr ⟨x, hx, bne_iff_ne.mpr hne⟩

end Sys2Proof.Machine
end

section
/-! The step and its commands (R450; log entries 1, 2, 4, 35, 75): from them O1, O3 and O5. -/

namespace Sys2Proof.Machine

open Sys2Proof

/-- Settles O1: what a step is for a waiting command. The queue, and that its front acts first, are the model's choice (log entries 1, 75). -/
theorem stepRunsFrontCommand : Obligations.StepRunsFrontCommand := fun _ _ _ => step_of_command rfl

/-- Settles O3: every command's arm of the dispatch is a next state whatever the state holds, so a case per command shows it. That what the spec
does not let a command do leaves a state, and stops nothing, is the model's choice (log entries 2, 4, 35). -/
theorem commandsNeverStop : Obligations.CommandsNeverStop := by
  intro c s
  cases c <;> exact ⟨_, rfl⟩

/-- Settles O5: every memory of the state after reset is empty, and an empty memory is canonical. -/
theorem resetIsCanonical : Obligations.ResetIsCanonical := ⟨reset_canon, rfl⟩

end Sys2Proof.Machine
end

section
/-! Arbiters (R353, R356 to R362, R366, R367): beats, decisions, withdrawals and tables, and from them O52. -/

namespace Sys2Proof.Machine

open Sys2Proof

/-! ## Registers of equal RW fields side by side -/

/-- The fields of a register that `n` RW fields of `w` bits fill from bit 0 on. -/
def rwFields (n w : Nat) : List FieldDesc := (List.range n).map fun i => ⟨w * i, w, .rw, .image, keptHEPKT⟩

/-- How many bytes from its base on an array of registers takes at most. -/
def dimsSpan : List (Nat × Nat) → Nat
  | [] => 1
  | (stride, count) :: ds => max (stride * count) (dimsSpan ds)

theorem lt_dimsSpan {ds : List (Nat × Nat)} {r : Nat} (h : dimsMatch ds r = true) : r < dimsSpan ds := by
  induction ds generalizing r with
  | nil => simpa [dimsMatch, dimsSpan] using h
  | cons d ds ih =>
    obtain ⟨stride, count⟩ := d
    simp only [dimsMatch, Bool.and_eq_true, decide_eq_true_eq] at h
    rw [dimsSpan, lt_max_iff]
    obtain hz | hpos := Nat.eq_zero_or_pos stride
    · rw [hz, Nat.mod_zero] at h
      exact .inr (ih h.2)
    · exact .inl ((Nat.div_lt_iff_lt_mul hpos).mp h.1 |>.trans_eq (Nat.mul_comm _ _))

/-- No register of a list lies in a range of offsets that each of them ends before or begins behind. -/
theorem layout_apart {l : List RegDesc} {lo hi off : Nat}
    (h : (l.all fun d => decide (d.base + dimsSpan d.dims ≤ lo) || decide (hi ≤ d.base)) = true) (hlo : lo ≤ off) (hhi : off < hi) :
    l.find? (fun d => decide (d.base ≤ off) && dimsMatch d.dims (off - d.base)) = none :=
  layout_none fun d hd hm => by
    have hd := List.all_eq_true.mp h d hd
    rw [Bool.or_eq_true, decide_eq_true_eq, decide_eq_true_eq] at hd
    have := lt_dimsSpan hm.2
    omega

/-- The registers of the chapters before the arbiters'. -/
def regsBeforeArb : List RegDesc :=
  regs01_0 ++ regs02_0 ++ regs03_0 ++ regs04_0 ++ regs05_0 ++ regs06_0 ++ regs07_0 ++ regs08_0 ++ regs09_0 ++ regs09_1 ++ regs10_0 ++ regs11_0 ++ regs12_0

theorem regAt_arb {off : Nat} (h : 0x4800000 ≤ off) (hlt : off < 0x5000000) :
    regAt off = (regs13_0 ++ (regs14_0 ++ regs15_0 ++ regs15_1 ++ regs16_0 ++ regs17_0 ++ regs18_0)).find?
      fun d => decide (d.base ≤ off) && dimsMatch d.dims (off - d.base) := by
  have hl : regLayout = regsBeforeArb ++ (regs13_0 ++ (regs14_0 ++ regs15_0 ++ regs15_1 ++ regs16_0 ++ regs17_0 ++ regs18_0)) := rfl
  rw [regAt, hl, List.find?_append, layout_apart (lo := 0x4800000) (hi := 0x5000000) (by decide) h hlt, Option.none_or]

theorem regAt_arbNext : regAt arbNextOff = some ⟨0x4800008, [], rwFields 10 2⟩ := by rfl

theorem regAt_arbSlots {k t j : Nat} (hk : k < 10) (ht : t < 4) (hj : j < 4) :
    regAt (0x4810000 + 0x100 * k + 0x40 * t + 8 * j) = some ⟨0x4810000, [(0x100, 10), (0x40, 4), (0x8, 4)], rwFields 16 4⟩ := by
  rw [regAt_arb (by omega) (by omega)]
  simp only [regs13_0, List.cons_append]
  rw [List.find?_cons_of_neg, List.find?_cons_of_neg, List.find?_cons_of_pos]
  · rfl
  all_goals (simp [dimsMatch]; omega)

theorem regAt_arbBase {k t : Nat} (hk : k < 10) (ht : t < 4) :
    regAt (0x4810020 + 0x100 * k + 0x40 * t) = some ⟨0x4810020, [(0x100, 10), (0x40, 4)], rwFields 8 4⟩ := by
  rw [regAt_arb (by omega) (by omega)]
  simp only [regs13_0, List.cons_append]
  rw [List.find?_cons_of_neg, List.find?_cons_of_neg, List.find?_cons_of_neg, List.find?_cons_of_pos]
  · rfl
  all_goals (simp [dimsMatch]; omega)

/-- The fields of `rwFields` hold all of a word that has no bit past them. -/
theorem rwFields_sum (n w v : Nat) : (rwFields n w).foldl (fun x d => x + d.part v * 2 ^ d.lo) 0 = v % 2 ^ (w * n) := by
  induction n with
  | zero => simp [rwFields, Nat.mod_one]
  | succ n ih =>
    rw [rwFields, List.range_succ, List.map_append, List.foldl_append, ← rwFields, ih]
    rw [Nat.mul_succ, Nat.pow_add, Nat.mod_mul]
    simp only [List.map_cons, List.map_nil, List.foldl_cons, List.foldl_nil, FieldDesc.part]
    ring

/-- A write of a register that `n` fields of `w` bits make up, of a word that has no bit past them, gives each its part of the word. -/
theorem plainWrite_rwFields {s : State} {off n w v agent : Nat} {r : RegDesc} (hr : regAt off = some r) (hf : r.fields = rwFields n w) (hw : 0 < w)
    (h64 : w * n ≤ 64) (hv : v < 2 ^ (w * n)) :
    (∀ i < n, (s.plainWrite agent off v).get ⟨off, w * i, w⟩ = v / 2 ^ (w * i) % 2 ^ w) ∧
    s.OnlyFields (s.plainWrite agent off v) ((List.range n).map fun i => ⟨off, w * i, w⟩) := by
  have hrw : ∀ d ∈ rwFields n w, d.acc = .rw := by simp [rwFields]
  have hlo : (rwFields n w).Pairwise fun d e => d.lo ≠ e.lo := by
    rw [rwFields, List.pairwise_map]
    exact List.nodup_range.imp fun hne he => hne (Nat.eq_of_mul_eq_mul_left hw he)
  have hlt : ∀ d ∈ rwFields n w, d.lo < 64 := by
    simp only [rwFields, List.mem_map, List.mem_range]
    rintro _ ⟨i, hi, rfl⟩
    exact (Nat.mul_lt_mul_of_pos_left hi hw).trans_le h64
  have hgood : s.plainWrite agent off v = s.writeFields off v (rwFields n w) := by
    rw [plainWrite_good hr (badWrite_rw (hf ▸ hrw) (by rw [hf, rwFields_sum, Nat.mod_eq_of_lt hv])), hf]
  have hget := writeFields_get (s := s) (off := off) v hlo hlt (showsStored_of_rw hrw)
  rw [hgood]
  refine ⟨fun i hi => ?_, (writeFields_only ..).eq, ?_⟩
  · exact hget ⟨w * i, w, .rw, .image, keptHEPKT⟩ (List.mem_map_of_mem (List.mem_range.mpr hi))
  · have := writeFields_keeps s off v (rwFields n w)
    rwa [rwFields, List.map_map] at this

/-- A field of another register is none of a register's fields. -/
theorem rwFields_apart {off n w : Nat} (hw : 0 < w) (h64 : w * n ≤ 64) {g : FieldRef} (hg : g.key / 64 ≠ off) :
    g.key ∉ ((List.range n).map fun i => (⟨off, w * i, w⟩ : FieldRef)).map FieldRef.key := by
  simp only [List.map_map, List.mem_map, List.mem_range, Function.comp, not_exists, not_and]
  intro i hi he
  have := (Nat.mul_lt_mul_of_pos_left hi hw).trans_le h64
  exact hg (by rw [← he, FieldRef.key]; dsimp only; omega)

/-! ## Credits and ages -/

theorem getD_mkVec8 {α : Type} (d : α) (f : Nat → α) {r : Nat} (hr : r < 8) : (mkVec8 f).toList.getD r d = f r := by
  simp [mkVec8, List.getD, hr]

/-! ## A beat (R353, R357) -/

@[simp] theorem carry_credit (x : Arb) : x.carry.credit = x.credit := by unfold Arb.carry; dsimp only; split <;> rfl
@[simp] theorem carry_age (x : Arb) : x.carry.age = x.age := by unfold Arb.carry; dsimp only; split <;> rfl
@[simp] theorem carry_queue (x : Arb) : x.carry.queue = x.queue := by unfold Arb.carry; dsimp only; split <;> rfl

/-- A transfer with beats to come goes on; the one granted stays. -/
theorem carry_goes {x : Arb} {g : Grant} (hx : x.run = some g) (hg : 1 < g.left) :
    x.carry.run = some { g with left := g.left - 1 } ∧ x.carry.next = x.next := by
  unfold Arb.carry
  rw [hx]
  simp only [if_neg (Nat.not_le.mpr hg), and_self]

/-- With no transfer, or one in its last beat, the one granted begins. -/
theorem carry_begins {x : Arb} (h : x.run = none ∨ ∃ g, x.run = some g ∧ g.left ≤ 1) : x.carry.run = x.next ∧ x.carry.next = none := by
  unfold Arb.carry
  obtain h | ⟨g, h, hg⟩ := h
  · rw [h]; exact ⟨rfl, rfl⟩
  · rw [h]; simp only [if_pos hg, and_self]

theorem countBeat_keeps (s : State) (k : Nat) (x : Arb) :
    s.KeepsFields (s.countBeat k x) [Reg.ARB_CNTk_SLOT_COUNT k, Reg.ARB_CNTk_BG_COUNT k] ∧ s.FieldsAlone (s.countBeat k x) := by
  unfold State.countBeat
  split
  · split
    · exact ⟨(keeps_refl s _).put (by simp), _, rfl⟩
    · exact ⟨(keeps_refl s _).put (by simp), _, rfl⟩
  · exact ⟨keeps_refl s _, _, rfl⟩

theorem inProgress_iff {x : Arb} {r : Nat} : x.inProgress r = true ↔ ∃ g, x.run = some g ∧ g.req = r := by
  cases h : x.run <;> simp [Arb.inProgress, h]

theorem requesting_iff {s : State} {a r : Nat} : s.requesting a r = true ↔ ∃ q ∈ (s.arb a).queue, q.id.toNat = r ∧ s.eligible a q = true := by
  simp [State.requesting]

/-- The arbiter after a beat. -/
def State.beaten (s : State) (a : Nat) (req : BitVec 8) : Arb :=
  { ((s.arb a).accrue a (s.slotOwner (arbSet a) (s.arb a).ptr) fun r => bit req.toNat r || s.requesting a r).carry with ptr := ((s.arb a).ptr + 1) % 64 }

theorem beaten_credit (s : State) (a : Nat) (req : BitVec 8) {r : Nat} (hr : r < 8) : (s.beaten a req).creditOf r =
    if r = s.slotOwner (arbSet a) (s.arb a).ptr ∧ (bit req.toNat r = true ∨
        (∃ q ∈ (s.arb a).queue, q.id.toNat = r ∧ s.eligible a q = true) ∨ ∃ g, (s.arb a).run = some g ∧ g.req = r)
      then min ((s.arb a).creditOf r + 1) (creditMax a) else (s.arb a).creditOf r := by
  rw [Arb.creditOf, State.beaten]
  simp only [carry_credit]
  rw [Arb.accrue, getD_mkVec8 0 _ hr]
  simp only [Bool.or_eq_true, requesting_iff, inProgress_iff, or_assoc]

theorem arbiterBeat_does {s : State} (hs : s.held = false) (arb : Fin 110) (req : BitVec 8) :
    exec (.arbiterBeat arb req) s = .next ((s.setArb arb (s.beaten arb req)).countBeat (arbSet arb) (s.arb arb)) := by
  show Host.Outcome.next _ = _
  rw [hs]
  rfl

theorem State.FieldsAlone.arb {s t : State} (h : s.FieldsAlone t) (a : Nat) : t.arb a = s.arb a := by
  obtain ⟨F, rfl⟩ := h
  rfl

theorem State.KeepsFields.setArb {s t : State} {fs : List FieldRef} {a : Nat} {x : Arb} (h : (s.setArb a x).KeepsFields t fs) : s.KeepsFields t fs := h

theorem State.FieldsAlone.arbs {s t : State} {a : Nat} {x : Arb} (h : (s.setArb a x).FieldsAlone t) : t = { s with fields := t.fields, arbs := t.arbs } := by
  obtain ⟨F, rfl⟩ := h
  rfl

theorem State.FieldsAlone.arb_other {s t : State} {a b : Nat} {x : Arb} (h : (s.setArb a x).FieldsAlone t) (hb : b ≠ a) : t.arb b = s.arb b := by
  rw [h.arb, State.arb_setArb, if_neg hb]

theorem State.FieldsAlone.arb_same {s t : State} {a : Nat} {x : Arb} (h : (s.setArb a x).FieldsAlone t) : t.arb a = x := by
  rw [h.arb, State.arb_setArb, if_pos rfl]

/-! ## A decision (R358) -/

/-- The requester that beats every other of a list by its key, lower IDs first on ties, is picked. -/
theorem pickMax_best {key : Nat → Int} {rs : List Nat} {w : Nat} (hw : w ∈ rs) (hbest : ∀ v ∈ rs, key v < key w ∨ (key v = key w ∧ w ≤ v)) :
    pickMax key rs = some w := by
  have hfold : ∀ (l : List Nat) (b : Option Nat), (∀ v ∈ l, key v < key w ∨ (key v = key w ∧ w ≤ v)) →
      (∀ c, b = some c → key c < key w ∨ (key c = key w ∧ w ≤ c)) → w ∈ l ∨ b = some w →
      l.foldl (fun b r => match b with
        | none => some r
        | some c => if key c < key r ∨ (key c = key r ∧ r < c) then some r else some c) b = some w := by
    intro l
    induction l with
    | nil => exact fun b _ _ hb => hb.resolve_left (List.not_mem_nil)
    | cons r l ih =>
      intro b hl hb hin
      rw [List.foldl_cons]
      obtain ⟨hr, hl⟩ := List.forall_mem_cons.mp hl
      refine ih _ hl ?_ ?_
      · intro c hc
        cases b with
        | none => exact Option.some.inj hc ▸ hr
        | some d =>
          dsimp only at hc
          split at hc
          · exact Option.some.inj hc ▸ hr
          · exact Option.some.inj hc ▸ hb d rfl
      · obtain hin | hin := hin
        · obtain rfl | hin := List.mem_cons.mp hin
          · refine .inr ?_
            cases b with
            | none => rfl
            | some d =>
              dsimp only
              split
              · rfl
              · have := hb d rfl
                have : d = w := by omega
                rw [this]
          · exact .inl hin
        · subst hin
          refine .inr (if_neg ?_)
          omega
  exact hfold rs none hbest (fun _ h => nomatch h) (.inl hw)

theorem mayDecide_iff {x : Arb} : x.mayDecide = true ↔ x.next = none ∧ ∀ g, x.run = some g → g.left ≤ 1 := by
  unfold Arb.mayDecide
  cases x.run <;> simp

theorem arbWinner_slot {s : State} {a w : Nat} {x : Arb} {ids : List Nat} (hw : w ∈ ids) (h1 : 1 ≤ x.creditOf w)
    (hbest : ∀ v ∈ ids, x.creditOf v < x.creditOf w ∨ (x.creditOf v = x.creditOf w ∧ w ≤ v)) : s.arbWinner a x ids = some (w, true) := by
  rw [State.arbWinner, pickMax_best (w := w) (List.mem_filter.mpr ⟨hw, decide_eq_true h1⟩) fun v hv => hbest v (List.mem_filter.mp hv).1]

theorem arbWinner_rank {s : State} {a w : Nat} {x : Arb} {ids : List Nat} (hw : w ∈ ids) (h1 : ∀ v ∈ ids, x.creditOf v < 1)
    (hbest : ∀ v ∈ ids, s.arbBase (arbSet a) v + x.ageOf v < s.arbBase (arbSet a) w + x.ageOf w ∨
      (s.arbBase (arbSet a) v + x.ageOf v = s.arbBase (arbSet a) w + x.ageOf w ∧ w ≤ v)) : s.arbWinner a x ids = some (w, false) := by
  have hnone : ids.filter (fun r => decide (1 ≤ x.creditOf r)) = [] :=
    List.filter_eq_nil_iff.mpr fun v hv => by simpa using h1 v hv
  rw [State.arbWinner, hnone, pickMax_best hw fun v hv => (hbest v hv).imp Nat.cast_lt.mpr (And.imp_left (congrArg _))]
  rfl

theorem arbWinner_nobody (s : State) (a : Nat) (x : Arb) : s.arbWinner a x [] = none := rfl

theorem arbiterDecision_stands {s : State} {arb : Fin 110} {rs : List ArbReq}
    (h : (∃ g, (s.arb arb).next = some g) ∨ ∃ g, (s.arb arb).run = some g ∧ 1 < g.left) : exec (.arbiterDecision arb rs) s = .next s := by
  have hno : (s.arb arb).mayDecide = false := by
    rw [Bool.eq_false_iff, ne_eq, mayDecide_iff]
    rintro ⟨hn, hr⟩
    obtain ⟨g, hg⟩ | ⟨g, hg, hl⟩ := h
    · simp [hn] at hg
    · exact absurd (hr g hg) (Nat.not_le.mpr hl)
  refine congrArg Host.Outcome.next (if_pos ?_)
  rw [hno, Bool.not_false, Bool.or_true]

/-- The requests that a decision considers. -/
def State.contenders (s : State) (a : Nat) (rs : List ArbReq) : List ArbReq := ((s.arb a).queue ++ rs).filter (s.eligible a)

section decision

variable {s : State} {arb : Fin 110} (rs : List ArbReq) (hs : s.held = false) (hn : (s.arb arb).next = none)
  (hr : ∀ g, (s.arb arb).run = some g → g.left ≤ 1)

include hs hn hr

theorem arbiterDecision_nobody (hids : requesters arb (s.contenders arb rs) = []) : exec (.arbiterDecision arb rs) s =
    .next (s.setArb arb { s.arb arb with credit := mkVec8 fun r => min ((s.arb arb).creditOf r) 0, queue := (s.arb arb).queue ++ rs }) := by
  refine congrArg Host.Outcome.next ((if_neg ?_).trans ?_)
  · rw [hs, mayDecide_iff.mpr ⟨hn, hr⟩]
    decide
  · show (match s.arbWinner arb (s.arb arb) (requesters arb (s.contenders arb rs)) with | none => _ | some (w, slot) => _) = _
    rw [hids, arbWinner_nobody]

theorem arbiterDecision_grants {w : Nat} {slot : Bool} {q : ArbReq}
    (hw : s.arbWinner arb (s.arb arb) (requesters arb (s.contenders arb rs)) = some (w, slot)) (hq : requestOf (s.contenders arb rs) w = some q) :
    exec (.arbiterDecision arb rs) s =
      let l := grantBeats arb q
      let t := s.setArb arb { (s.arb arb).settle (requesters arb (s.contenders arb rs)) w l slot with
        next := some ⟨w, l, l, lockedAt arb q, slot, (s.arb arb).ageOf w⟩, queue := takeRequest arb q ((s.arb arb).queue ++ rs) }
      .next (if lockedAt arb q && decide (32 < q.beats.toNat) then t.count (Reg.ARB_CNTk_DEAD_CUT (arbSet arb)) 1 else t) := by
  refine congrArg Host.Outcome.next ((if_neg ?_).trans ?_)
  · rw [hs, mayDecide_iff.mpr ⟨hn, hr⟩]
    decide
  · show (match s.arbWinner arb (s.arb arb) (requesters arb (s.contenders arb rs)) with | none => _ | some (w, slot) => _) = _
    rw [hw]
    show (match requestOf (s.contenders arb rs) w with | none => _ | some q => _) = _
    rw [hq]
    rfl

end decision

/-! ## Withdrawal (R362) -/

section withdrawal

variable {s : State} {arb : Fin 110} (hs : s.held = false)

include hs

theorem grantWithdraw_none (hn : (s.arb arb).next = none) (hr : (s.arb arb).run = none) : exec (.grantWithdraw arb) s = .next s := by
  refine congrArg Host.Outcome.next ((if_neg (by simp [hs])).trans ?_)
  rw [hn, hr]

theorem grantWithdraw_next {g : Grant} (hn : (s.arb arb).next = some g) : exec (.grantWithdraw arb) s =
    .next ((s.setArb arb { (s.arb arb).undo arb g with next := none }).count (Reg.ARB_CNTk_DEAD_DEAD (arbSet arb)) 1) := by
  refine congrArg Host.Outcome.next ((if_neg (by simp [hs])).trans ?_)
  rw [hn]

theorem grantWithdraw_run {g : Grant} (hn : (s.arb arb).next = none) (hr : (s.arb arb).run = some g) : exec (.grantWithdraw arb) s = .next (
    if g.left = g.total then (s.setArb arb { (s.arb arb).undo arb g with run := none }).count (Reg.ARB_CNTk_DEAD_DEAD (arbSet arb)) 1
    else if g.locked then (s.setArb arb { s.arb arb with run := none }).count (Reg.ARB_CNTk_DEAD_DEAD (arbSet arb)) 1 else s) := by
  refine congrArg Host.Outcome.next ((if_neg (by simp [hs])).trans ?_)
  dsimp only
  rw [hn, hr]

end withdrawal

/-- A grant undone: the credit of a slot grant given back within its bound, the age restored. -/
theorem undo_gives (x : Arb) (a : Nat) (g : Grant) {r : Nat} (hr : r < 8) :
    (x.undo a g).creditOf r = (if r = g.req ∧ g.slot = true then min (x.creditOf r + g.total) (creditMax a) else x.creditOf r) ∧
    (x.undo a g).ageOf r = if r = g.req then g.age else x.ageOf r := ⟨getD_mkVec8 0 _ hr, getD_mkVec8 0 _ hr⟩

/-! ## Tables at run time (R366, R367) -/

/-- Credits of the arbiters of a list cleared. -/
def State.clearCredits (s : State) (l : List Nat) : State := l.foldl (fun s a => s.setArb a { s.arb a with credit := Vector.replicate 8 0 }) s

theorem clearCredits_eq (l : List Nat) : ∀ s : State, s.clearCredits l = { s with arbs := (s.clearCredits l).arbs } := by
  induction l with
  | nil => exact fun _ => rfl
  | cons a l ih => exact fun s => ih (s.setArb a { s.arb a with credit := Vector.replicate 8 0 })

theorem clearCredits_arb (l : List Nat) (b : Nat) : ∀ s : State,
    (s.clearCredits l).arb b = if b ∈ l then { s.arb b with credit := Vector.replicate 8 0 } else s.arb b := by
  induction l with
  | nil => exact fun _ => rfl
  | cons a l ih =>
    intro s
    refine (ih (s.setArb a { s.arb a with credit := Vector.replicate 8 0 })).trans ?_
    rw [State.arb_setArb]
    by_cases hb : b = a
    · simp [hb]
    · simp [hb]

section tables

variable {s : State} {set : Fin 10} (hs : s.held = false)

include hs

theorem arbTableActivate_stays
    (h : s.arbTable set = s.get (Reg.ARB_ACTIVE_SET_k set) ∨ (s.arb ((setArbs set).headD 0)).ptr ≠ 0) : exec (.arbTableActivate set) s = .next s := by
  refine congrArg Host.Outcome.next (if_pos ?_)
  simpa [hs] using h

theorem arbTableActivate_takes (hne : s.arbTable set ≠ s.get (Reg.ARB_ACTIVE_SET_k set)) (h0 : (s.arb ((setArbs set).headD 0)).ptr = 0) :
    exec (.arbTableActivate set) s =
      .next (({ s with arbUse := mapSet 0 s.arbUse set (s.get (Reg.ARB_ACTIVE_SET_k set)) } : State).clearCredits (setArbs set)) := by
  refine congrArg Host.Outcome.next (if_neg ?_)
  simpa [hs, hne] using h0

end tables

/-- ARB_NEXT takes the word, which has no bit past its ten fields, and with Traverse IDLE it is in force at once. -/
theorem arbNextWrite_takes (s : State) (v : Word) (hv : v.toNat < 2 ^ 20) : Does (.arbNextWrite v) s fun t =>
    (∀ k < 10, t.get (Reg.ARB_NEXT_SET_k k) = v.toNat / 2 ^ (2 * k) % 4) ∧
    (∀ k < 10, t.get (Reg.ARB_ACTIVE_SET_k k) = if s.get Reg.TRV_STATE_STATE = 0 then v.toNat / 2 ^ (2 * k) % 4 else s.get (Reg.ARB_ACTIVE_SET_k k)) ∧
    s.OnlyFields t ((List.range 10).map Reg.ARB_NEXT_SET_k ++ (List.range 10).map Reg.ARB_ACTIVE_SET_k) := by
  obtain ⟨hnext, honly, hkeep⟩ := plainWrite_rwFields (s := s) (agent := 0) regAt_arbNext rfl (by decide) (by decide) hv
  have hactive : ∀ k < 10, (s.plainWrite 0 arbNextOff v.toNat).get (Reg.ARB_ACTIVE_SET_k k) = s.get (Reg.ARB_ACTIVE_SET_k k) := fun k hk =>
    hkeep _ (rwFields_apart (by decide) (by decide) (by rw [Reg.ARB_ACTIVE_SET_k_key, arbNextOff]; omega))
  have hstate : (s.plainWrite 0 arbNextOff v.toNat).get Reg.TRV_STATE_STATE = s.get Reg.TRV_STATE_STATE :=
    hkeep _ (rwFields_apart (by decide) (by decide) (by decide))
  refine ⟨_, rfl, ?_⟩
  rw [State.writeArbNext]
  dsimp only
  rw [hstate]
  by_cases hidle : s.get Reg.TRV_STATE_STATE = 0
  · obtain ⟨hother, hcopied⟩ := copyArb_get (s.plainWrite 0 arbNextOff v.toNat)
    rw [if_pos hidle]
    refine ⟨fun k hk => ?_, fun k hk => ?_, ?_, fun f hf => ?_⟩
    · rw [hother _ fun j hj => by rw [Reg.ARB_NEXT_SET_k_key, Reg.ARB_ACTIVE_SET_k_key]; omega]
      exact hnext k hk
    · rw [if_pos hidle, hcopied k hk]
      exact (congrArg (· % 4) (hnext k hk)).trans (Nat.mod_mod _ _)
    · rw [copyArb_eq, honly]
    · rw [List.map_append, List.mem_append, not_or] at hf
      rw [hother f fun k hk he => hf.2 (he ▸ List.mem_map_of_mem (List.mem_map_of_mem (List.mem_range.mpr hk)))]
      exact hkeep f hf.1
  · rw [if_neg hidle]
    refine ⟨hnext, fun k hk => ?_, honly, hkeep.mono fun _ => List.mem_append_left _⟩
    rw [if_neg hidle, hactive k hk]

/-- A write of the table that a set uses, or will use, is ignored and counted. -/
theorem arbTableWrite_locked (s : State) (set : Fin 10) (tb : Fin 4) (j : Fin 5) (v : Word)
    (h : tb.val = s.arbTable set ∨ tb.val = s.get (Reg.ARB_ACTIVE_SET_k set)) :
    Does (.arbTableWrite set tb j v) s fun t => ∃ kind, s.CountsGlobalViol t 0 kind (arbTableOff set tb j) := by
  refine ⟨_, rfl, 3, ?_⟩
  rw [State.writeArbTable, if_pos h]
  exact counts_violGlb s 0 3 _ (by decide) (by decide)

section tableWrites

variable {s : State} {set : Fin 10} {tb : Fin 4} (v : Word) (huse : tb.val ≠ s.arbTable set) (hnew : tb.val ≠ s.get (Reg.ARB_ACTIVE_SET_k set))

include huse hnew

theorem arbTableWrite_free (j : Fin 5) : exec (.arbTableWrite set tb j v) s = .next (s.plainWrite 0 (arbTableOff set tb j) v.toNat) :=
  congrArg Host.Outcome.next (if_neg (not_or.mpr ⟨huse, hnew⟩))

theorem arbTableWrite_slots {j : Fin 5} (hj : j.val < 4) : Does (.arbTableWrite set tb j v) s fun t =>
    (∀ i < 16, t.get (Reg.ARB_Tk_t_SLOTSj_OWNER_i set tb j i) = v.toNat / 2 ^ (4 * i) % 16) ∧
    s.OnlyFields t ((List.range 16).map (Reg.ARB_Tk_t_SLOTSj_OWNER_i set tb j)) :=
  ⟨_, arbTableWrite_free v huse hnew j, plainWrite_rwFields (regAt_arbSlots set.isLt tb.isLt hj) rfl (by decide) (by decide) v.isLt⟩

theorem arbTableWrite_base {j : Fin 5} (hj : j.val = 4) (hv : v.toNat < 2 ^ 32) : Does (.arbTableWrite set tb j v) s fun t =>
    (∀ r < 8, t.get (Reg.ARB_Tk_t_BASE_BASE_r set tb r) = v.toNat / 2 ^ (4 * r) % 16) ∧
    s.OnlyFields t ((List.range 8).map (Reg.ARB_Tk_t_BASE_BASE_r set tb)) := by
  have hoff : arbTableOff set tb j = 0x4810020 + 0x100 * set + 0x40 * tb := by
    unfold arbTableOff
    omega
  exact ⟨_, hoff ▸ arbTableWrite_free v huse hnew j, plainWrite_rwFields (regAt_arbBase set.isLt tb.isLt) rfl (by decide) (by decide) hv⟩

end tableWrites

/-! ## The clauses of O52 -/

theorem arbiterBeat_clause {s : State} (hs : s.held = false) (arb : Fin 110) (req : BitVec 8) : Does (.arbiterBeat arb req) s fun t =>
    let x := s.arb arb
    let y := t.arb arb
    let asks := fun r : Nat => bit req.toNat r = true ∨ (∃ q ∈ x.queue, q.id.toNat = r ∧ s.eligible arb q = true) ∨ ∃ g, x.run = some g ∧ g.req = r
    y.ptr = (x.ptr + 1) % 64 ∧ y.age = x.age ∧ y.queue = x.queue ∧ (∀ b, b ≠ arb.val → t.arb b = s.arb b) ∧
    (∀ r < 8, y.creditOf r = if r = s.slotOwner (arbSet arb) x.ptr ∧ asks r then min (x.creditOf r + 1) (creditMax arb) else x.creditOf r) ∧
    (∀ g, x.run = some g → 1 < g.left → y.run = some { g with left := g.left - 1 } ∧ y.next = x.next) ∧
    (x.run = none ∨ (∃ g, x.run = some g ∧ g.left ≤ 1) → y.run = x.next ∧ y.next = none) ∧
    s.KeepsFields t [Reg.ARB_CNTk_SLOT_COUNT (arbSet arb), Reg.ARB_CNTk_BG_COUNT (arbSet arb)] ∧ t = { s with fields := t.fields, arbs := t.arbs } := by
  obtain ⟨hkeep, honly⟩ := countBeat_keeps (s.setArb arb (s.beaten arb req)) (arbSet arb) (s.arb arb)
  refine ⟨_, arbiterBeat_does hs arb req, ?_⟩
  dsimp only
  rw [honly.arb_same]
  refine ⟨rfl, ?_, ?_, fun b hb => honly.arb_other hb, fun r hr => beaten_credit s arb req hr, fun g hg hl => ?_, fun h => ?_, hkeep.setArb, honly.arbs⟩
  · exact carry_age _
  · exact carry_queue _
  · exact carry_goes (x := (s.arb arb).accrue ..) hg hl
  · exact carry_begins (x := (s.arb arb).accrue ..) h

section decision

variable {s : State} {arb : Fin 110} (rs : List ArbReq) (hs : s.held = false) (hn : (s.arb arb).next = none)
  (hr : ∀ g, (s.arb arb).run = some g → g.left ≤ 1)

include hs hn hr

/-- A decision that a requester wins: what it is granted and charged, and how every requester's credit and age come out. -/
theorem arbiterDecision_does {w : Nat} {slot : Bool} {q : ArbReq}
    (hw : s.arbWinner arb (s.arb arb) (requesters arb (s.contenders arb rs)) = some (w, slot)) (hq : requestOf (s.contenders arb rs) w = some q) :
    Does (.arbiterDecision arb rs) s fun t =>
      let x := s.arb arb
      let ids := requesters arb (s.contenders arb rs)
      let l := grantBeats arb q
      (t.arb arb).next = some ⟨w, l, l, lockedAt arb q, slot, x.ageOf w⟩ ∧ (t.arb arb).queue = takeRequest arb q (x.queue ++ rs) ∧
      (t.arb arb).run = x.run ∧ (t.arb arb).ptr = x.ptr ∧
      (∀ r < 8, (t.arb arb).creditOf r = if r ∉ ids then min (x.creditOf r) 0 else if r = w ∧ slot = true then x.creditOf r - l else x.creditOf r) ∧
      (∀ r < 8, (t.arb arb).ageOf r = if r ∉ ids then x.ageOf r else if r = w then 0 else min 15 (x.ageOf r + 1)) ∧
      (∀ b, b ≠ arb.val → t.arb b = s.arb b) ∧ s.KeepsFields t [Reg.ARB_CNTk_DEAD_CUT (arbSet arb)] ∧ t = { s with fields := t.fields, arbs := t.arbs } := by
  have hcut : ∀ (p : Bool) (u : State), u.KeepsFields (if p then u.count (Reg.ARB_CNTk_DEAD_CUT (arbSet arb)) 1 else u) [Reg.ARB_CNTk_DEAD_CUT (arbSet arb)] ∧
      u.FieldsAlone (if p then u.count (Reg.ARB_CNTk_DEAD_CUT (arbSet arb)) 1 else u) := by
    rintro (_ | _) u
    · exact ⟨keeps_refl u _, _, rfl⟩
    · exact ⟨(keeps_refl u _).put (List.mem_singleton_self _), _, rfl⟩
  refine ⟨_, arbiterDecision_grants rs hs hn hr hw hq, ?_⟩
  dsimp only
  obtain ⟨hkeep, honly⟩ := hcut (lockedAt arb q && decide (32 < q.beats.toNat)) (s.setArb arb
    { (s.arb arb).settle (requesters arb (s.contenders arb rs)) w (grantBeats arb q) slot with
      next := some ⟨w, grantBeats arb q, grantBeats arb q, lockedAt arb q, slot, (s.arb arb).ageOf w⟩
      queue := takeRequest arb q ((s.arb arb).queue ++ rs) })
  rw [honly.arb_same]
  refine ⟨rfl, rfl, rfl, rfl, fun r hr => ?_, fun r hr => ?_, fun b hb => honly.arb_other hb, hkeep.setArb, honly.arbs⟩
  · refine (getD_mkVec8 0 _ hr).trans ?_
    simp only [List.contains_eq_mem, Bool.not_eq_true', decide_eq_false_iff_not]
  · refine (getD_mkVec8 0 _ hr).trans ?_
    simp only [List.contains_eq_mem, Bool.not_eq_true', decide_eq_false_iff_not]

end decision

/-- What a withdrawal that counts does beside the arbiter itself. -/
theorem deadCount_does (s : State) (a : Nat) (y : Arb) :
    let t := (s.setArb a y).count (Reg.ARB_CNTk_DEAD_DEAD (arbSet a)) 1
    (t.get (Reg.ARB_CNTk_DEAD_DEAD (arbSet a)) = (s.get (Reg.ARB_CNTk_DEAD_DEAD (arbSet a)) + 1) % 2 ^ 32 ∧
      s.KeepsFields t [Reg.ARB_CNTk_DEAD_DEAD (arbSet a)] ∧ t = { s with fields := t.fields, arbs := t.arbs } ∧ ∀ b, b ≠ a → t.arb b = s.arb b) ∧
    t.arb a = y := by
  have honly : (s.setArb a y).FieldsAlone ((s.setArb a y).count (Reg.ARB_CNTk_DEAD_DEAD (arbSet a)) 1) := ⟨_, rfl⟩
  exact ⟨⟨State.get_put_eq, State.KeepsFields.setArb (a := a) (x := y) ((keeps_refl _ _).put (List.mem_singleton_self _)), honly.arbs,
    fun b hb => honly.arb_other hb⟩, honly.arb_same⟩

/-- Settles O52: each command of an arbiter by the lemma of its case. The queue of requests and what makes one eligible are the model's
(log entries 59 and 84). -/
theorem arbiterGrants : Obligations.ArbiterGrants := by
  unfold Obligations.ArbiterGrants
  intro s hs
  refine ⟨arbiterBeat_clause hs, fun arb rs => ⟨arbiterDecision_stands, fun hn hr => ⟨fun hids => ?_, fun w q hw hq => ?_⟩⟩,
    fun arb => ⟨grantWithdraw_none hs, fun g hn => ?_, fun g hn hr => ⟨fun hl => ?_, fun hl hlock => ?_, fun hl hlock => ?_⟩⟩,
    arbNextWrite_takes s, fun set => ⟨fun h => arbTableActivate_stays hs h, fun hne h0 => ?_, fun tb j v => ⟨arbTableWrite_locked s set tb j v,
      fun huse hnew hj => arbTableWrite_slots v huse hnew hj, fun huse hnew hj hv => arbTableWrite_base v huse hnew hj hv⟩⟩⟩
  · refine ⟨_, arbiterDecision_nobody rs hs hn hr hids, ?_⟩
    dsimp only
    rw [State.arb_setArb, if_pos rfl]
    exact ⟨hn, rfl, rfl, fun r hr => getD_mkVec8 0 _ hr⟩
  · intro locked l bySlot rank byRank slot hwin
    have hwinner : s.arbWinner arb (s.arb arb) (requesters arb (s.contenders arb rs)) = some (w, slot) := by
      obtain ⟨rfl, h1, hbest⟩ | ⟨rfl, h1, hbest⟩ := hwin
      · exact arbWinner_slot hw h1 hbest
      · exact arbWinner_rank hw h1 hbest
    exact arbiterDecision_does rs hs hn hr hwinner hq
  · obtain ⟨hdead, harb⟩ := deadCount_does s arb { (s.arb arb).undo arb g with next := none }
    refine ⟨_, grantWithdraw_next hs hn, hdead, ?_, ?_⟩
    · exact ⟨fun r hr => (congrArg (Arb.creditOf · r) harb).trans (undo_gives _ arb g hr).1,
        fun r hr => (congrArg (Arb.ageOf · r) harb).trans (undo_gives _ arb g hr).2⟩
    · rw [harb]
      exact ⟨rfl, rfl⟩
  · obtain ⟨hdead, harb⟩ := deadCount_does s arb { (s.arb arb).undo arb g with run := none }
    refine ⟨_, (grantWithdraw_run hs hn hr).trans (congrArg _ (if_pos hl)), hdead, ?_, ?_⟩
    · exact ⟨fun r hr => (congrArg (Arb.creditOf · r) harb).trans (undo_gives _ arb g hr).1,
        fun r hr => (congrArg (Arb.ageOf · r) harb).trans (undo_gives _ arb g hr).2⟩
    · rw [harb]
  · obtain ⟨hdead, harb⟩ := deadCount_does s arb { s.arb arb with run := none }
    exact ⟨_, (grantWithdraw_run hs hn hr).trans (congrArg _ ((if_neg hl).trans (if_pos hlock))), hdead, harb⟩
  · exact (grantWithdraw_run hs hn hr).trans (congrArg _ ((if_neg hl).trans (if_neg (Bool.eq_false_iff.mp hlock))))
  · have heq := clearCredits_eq (setArbs set) { s with arbUse := mapSet 0 s.arbUse set (s.get (Reg.ARB_ACTIVE_SET_k set)) }
    have huse : ∀ k, State.arbTable (State.clearCredits { s with arbUse := mapSet 0 s.arbUse set (s.get (Reg.ARB_ACTIVE_SET_k set)) } (setArbs set)) k =
        if k = set.val then s.get (Reg.ARB_ACTIVE_SET_k set) else s.arbTable k := fun k => by
      rw [heq]
      exact mapGet_set ..
    refine ⟨_, arbTableActivate_takes hs hne h0, ?_, ?_, fun k hk => ?_, fun a => clearCredits_arb _ a _⟩
    · rw [heq]
    · rw [huse, if_pos rfl]
    · rw [huse, if_neg hk]

end Sys2Proof.Machine
end

section
/-! The JTAG port and the debug space (R438 to R440): what an instruction shifts out, what an access reads, writes and counts, and from them O56. -/

namespace Sys2Proof.Machine

open Sys2Proof

/-! ## Public instructions (R438) -/

/-- A public instruction leaves the port as it says, ends an access to the debug space, and changes nothing else. -/
theorem jtagPublic_does (s : State) (j : Jtag) :
    (s.jtagPublic j).jtag = j ∧ (s.jtagPublic j).get Reg.SEC_DBG_JTAG_ACTIVE = 0 ∧ s.KeepsFields (s.jtagPublic j) [Reg.SEC_DBG_JTAG_ACTIVE] ∧
    s.jtagPublic j = { s with fields := (s.jtagPublic j).fields, jtag := (s.jtagPublic j).jtag } :=
  ⟨rfl, State.get_put_eq, State.KeepsFields.put (t := { s with jtag := j }) (keeps_refl s _) (List.mem_singleton_self _), rfl⟩

/-! ## What a write to a chamber's debug space changes (R439) -/

theorem only_setWhole (s : State) (n off v : Nat) : s.OnlyChamber (s.setWhole off v) n := by
  have hfold : ∀ (l : List FieldDesc) (t : State), s.OnlyChamber t n → s.OnlyChamber (l.foldl (fun s d => s.putField off d (d.part v)) t) n := by
    intro l
    induction l with
    | nil => exact fun _ h => h
    | cons d l ih => exact fun t h => ih _ (h.put _ _)
  unfold State.setWhole
  split
  · exact hfold _ s (only_refl s n)
  · exact only_refl s n

/-- Every item of a chamber's debug space is written in that chamber, or in register fields. -/
theorem only_debugItems (s : State) (n : Nat) : ∀ d ∈ s.debugItems n, ∀ i v, s.OnlyChamber (d.set i v) n := by
  have hset : ∀ c : Chamber, s.OnlyChamber (s.setCh n c) n := (only_refl s n).setCh
  unfold State.debugItems
  extract_lets c put half
  intro d hd i v
  simp only [List.mem_cons, List.not_mem_nil, or_false] at hd
  rcases hd with rfl | rfl | rfl | rfl | rfl | rfl | rfl | rfl | rfl | rfl | rfl | rfl
  · exact (only_refl s n).put _ _
  · exact hset _
  · exact hset _
  · exact hset _
  · exact hset _
  · exact hset _
  · exact hset _
  · exact hset _
  · exact hset _
  · exact hset _
  · exact hset _
  · exact only_setWhole s n _ v

theorem only_setDebugByte (s : State) (n off : Nat) (b : Byte) : s.OnlyChamber (s.setDebugByte n off b) n := by
  unfold State.setDebugByte
  split
  next d o he =>
    split
    · exact only_debugItems s n d (findItem_mem he) _ _
    · exact only_refl s n
  next => exact only_refl s n

theorem only_setDebugBytes (n : Nat) (bs : List Byte) : ∀ (s : State) (off : Nat), s.OnlyChamber (s.setDebugBytes n off bs) n := by
  induction bs with
  | nil => exact fun s _ => only_refl s n
  | cons b bs ih => exact fun s off => (only_setDebugByte s n off b).trans (ih _ _)

/-! ## An access to the debug space (R439) -/

theorem debugAccess_open {s : State} {addr : BitVec 48} (w : Option Word) (h : addr.toNat / 2 ^ 40 < 0x10 ∨ 0x2C ≤ addr.toNat / 2 ^ 40) :
    s.debugAccess addr.toNat w = (Config.freeWord s.freeCount, { s with freeCount := s.freeCount + 1 }) := by
  have hu : bits addr.toNat 47 40 = addr.toNat / 2 ^ 40 := by
    have := addr.isLt
    rw [bits]
    omega
  rw [State.debugAccess, hu]
  exact if_neg (by omega)

section chamber

variable {s : State} {addr : BitVec 48} (h1 : 0x10 ≤ addr.toNat / 2 ^ 40) (h2 : addr.toNat / 2 ^ 40 < 0x2C)

include h1 h2

theorem debugAccess_chamber (w : Option Word) : s.debugAccess addr.toNat w =
    if s.chState (addr.toNat / 2 ^ 40 - 0x10) = 1 ∨ s.chState (addr.toNat / 2 ^ 40 - 0x10) = 4 then
      match w with
      | some v => (v, s.setDebugBytes (addr.toNat / 2 ^ 40 - 0x10) (addr.toNat % 2 ^ 40) (leBytes 8 v.toNat))
      | none => (BitVec.ofNat 64 (leNat ((List.range 8).map fun i => s.debugByte (addr.toNat / 2 ^ 40 - 0x10) (addr.toNat % 2 ^ 40 + i))), s)
    else (0, s.violCh (addr.toNat / 2 ^ 40 - 0x10) 0 0) := by
  have hu : bits addr.toNat 47 40 = addr.toNat / 2 ^ 40 := by
    have := addr.isLt
    rw [bits]
    omega
  have ho : bits addr.toNat 39 0 = addr.toNat % 2 ^ 40 := by rw [bits, Nat.pow_zero, Nat.div_one]
  rw [State.debugAccess, hu, ho]
  exact if_pos ⟨h1, h2⟩

end chamber

/-- An access of an address gives a word and a state to the JTAG port, beside the port's own state. -/
def State.GivesJtag (s v : State) (addr : BitVec 48) (w : Option Word) (x : Word) : Prop :=
  Does (.jtagPrivateAccess addr w) s fun t => t.jtag = { s.jtag with out := x.toNat, extest := false } ∧
    t.get Reg.SEC_DBG_JTAG_ACTIVE = 1 ∧ v.KeepsFields t [Reg.SEC_DBG_JTAG_ACTIVE] ∧ t = { v with fields := t.fields, jtag := t.jtag }

/-- An access of the address in SEC_DBG_ADDR gives a word and a state to the window, beside the window's own registers. -/
def State.GivesWindow (s v : State) (addr : BitVec 48) (w : Option Word) (x : Word) : Prop :=
  addr.toNat = s.get Reg.SEC_DBG_ADDR_ADDR → Does (.debugDataAccess w) s fun t =>
    t.get Reg.SEC_DBG_ADDR_ADDR = (addr.toNat + 8) % 2 ^ 48 ∧ t.get Reg.SEC_DBG_DATA_DATA = x.toNat ∧ (w = none → t.hostReply = (leBytes 8 x.toNat, false)) ∧
    v.KeepsFields t [Reg.SEC_DBG_ADDR_ADDR, Reg.SEC_DBG_DATA_DATA] ∧ t = { v with fields := t.fields, hostReply := t.hostReply }

section access

variable {s v : State} {addr : BitVec 48} {w : Option Word} {x : Word} (hrun : s.InRun) (hopen : s.get Reg.SEC_DBG_CLOSED = 0)
  (ha : s.debugAccess addr.toNat w = (x, v))

include hrun hopen ha

theorem jtagPrivateAccess_gives (hj : v.jtag = s.jtag) : s.GivesJtag v addr w x := by
  have hex : exec (.jtagPrivateAccess addr w) s =
      .next (({ v with jtag := { v.jtag with out := x.toNat, extest := false } } : State).put Reg.SEC_DBG_JTAG_ACTIVE 1) := by
    refine congrArg Host.Outcome.next ((if_neg (by simp [State.flag, hopen])).trans ?_)
    rw [wake_run hrun, ha]
  exact ⟨_, hex, by rw [← hj]; rfl, State.get_put_eq, State.KeepsFields.put (t := { v with jtag := { v.jtag with out := x.toNat, extest := false } })
    (keeps_refl v _) (List.mem_singleton_self _), rfl⟩

theorem debugDataAccess_gives : s.GivesWindow v addr w x := by
  intro haddr
  have hex : exec (.debugDataAccess w) s = .next (
      let t := v.puts [(Reg.SEC_DBG_ADDR_ADDR, addr.toNat + 8), (Reg.SEC_DBG_DATA_DATA, x.toNat)]
      if w.isNone then t.reply (leBytes 8 x.toNat) false else t) := by
    refine congrArg Host.Outcome.next ((if_neg (by simp [State.flag, hopen])).trans ?_)
    rw [wake_run hrun, ← haddr]
    dsimp only
    rw [ha]
  have hput : v.KeepsFields (v.puts [(Reg.SEC_DBG_ADDR_ADDR, addr.toNat + 8), (Reg.SEC_DBG_DATA_DATA, x.toNat)])
      [Reg.SEC_DBG_ADDR_ADDR, Reg.SEC_DBG_DATA_DATA] := (keeps_refl v _).puts _ (by simp)
  have hnext : (v.puts [(Reg.SEC_DBG_ADDR_ADDR, addr.toNat + 8), (Reg.SEC_DBG_DATA_DATA, x.toNat)]).get Reg.SEC_DBG_ADDR_ADDR =
      (addr.toNat + 8) % 2 ^ 48 := (State.get_put_ne (by decide)).trans State.get_put_eq
  have hdata : (v.puts [(Reg.SEC_DBG_ADDR_ADDR, addr.toNat + 8), (Reg.SEC_DBG_DATA_DATA, x.toNat)]).get Reg.SEC_DBG_DATA_DATA = x.toNat :=
    State.get_put_eq.trans (Nat.mod_eq_of_lt x.isLt)
  refine ⟨_, hex, ?_⟩
  cases w with
  | none => exact ⟨hnext, hdata, fun _ => rfl, hput, rfl⟩
  | some w => exact ⟨hnext, hdata, fun hw => absurd hw (Option.some_ne_none w), hput, rfl⟩

end access

/-! ## Debug closed (R440) -/

section closed

variable {s : State} (hclosed : s.get Reg.SEC_DBG_CLOSED = 1)

include hclosed

theorem jtagPrivateAccess_closed (addr : BitVec 48) (w : Option Word) :
    exec (.jtagPrivateAccess addr w) s = .next { s with jtag := { s.jtag with out := 0, extest := false } } :=
  congrArg Host.Outcome.next (if_pos (by simp [State.flag, hclosed]))

theorem debugDataAccess_closed (w : Option Word) :
    exec (.debugDataAccess w) s = .next (if w.isNone then (s.violGlb 4 4 0x6C00050).reply (zeroBytes 8) false else s.violGlb 4 4 0x6C00050) :=
  congrArg Host.Outcome.next (if_pos (by simp [State.flag, hclosed]))

end closed

/-- Settles O56: the port's instructions one by one, and an access to the debug space by the unit it names. What the units beside the chambers
read as, and that a write to them changes the count of free values alone, is the model's choice (log entry 66). -/
theorem scanAndDebug : Obligations.ScanAndDebug := by
  unfold Obligations.ScanAndDebug
  intro s hrun scan
  refine ⟨fun tdi => ⟨_, rfl, jtagPublic_does s _⟩, ⟨_, rfl, jtagPublic_does s _⟩,
    fun pins preload => ⟨⟨_, rfl, jtagPublic_does s _⟩, ⟨_, rfl, jtagPublic_does s _⟩⟩, fun hclosed => ?_, fun hopen addr w => ?_⟩
  · have hcount := counts_violGlb s 4 4 0x6C00050 (by decide) (by decide)
    exact ⟨fun addr w => jtagPrivateAccess_closed hclosed addr w, fun v => ⟨_, debugDataAccess_closed hclosed _, hcount⟩,
      ⟨_, debugDataAccess_closed hclosed _, _, hcount, rfl⟩⟩
  · intro unit off n viaJtag window
    have gives : ∀ {x : Word} {v : State}, s.debugAccess addr.toNat w = (x, v) → v.jtag = s.jtag → viaJtag v x ∧ window v x := fun ha hj =>
      ⟨jtagPrivateAccess_gives hrun hopen ha hj, debugDataAccess_gives hrun hopen ha⟩
    refine ⟨?_, fun h1 h2 hi hh => ?_, fun h1 h2 hst => ⟨?_, ?_⟩⟩
    · rintro hunit _ rfl
      exact gives (debugAccess_open w hunit) rfl
    · refine ⟨_, counts_violCh s n 0 0 (Nat.two_pow_pos _), gives ?_ (by rw [State.violCh, violate_eq])⟩
      rw [debugAccess_chamber h1 h2, if_neg (not_or.mpr ⟨hi, hh⟩)]
    · rintro rfl
      refine gives ?_ rfl
      rw [debugAccess_chamber h1 h2, if_pos hst]
    · rintro x rfl
      have honly := only_setDebugBytes n (leBytes 8 x.toNat) s off
      refine ⟨_, rfl, honly, gives ?_ (by rw [honly.1])⟩
      rw [debugAccess_chamber h1 h2, if_pos hst]

end Sys2Proof.Machine
end

section
/-! Causes of a cold reset, and the cold boot (R429 to R431, R445 to R450, R459, R460, R465): what each part of a boot leaves alone, and from
them O57. -/

namespace Sys2Proof.Machine

open Sys2Proof

/-! ## Causes (R445, R446, R449, R459, R460, R465) -/

/-- THERMTRIP_N driven or let go. -/
def State.withTrip (s : State) (b : Bool) : State := { s with tripped := b }

/-- THERMTRIP_N may be as it likes: the rest of a cold reset is as it was. -/
theorem State.ColdReset.withTrip {s t : State} {cause rail : Nat} (h : s.ColdReset t cause rail) (b : Bool) :
    s.ColdReset (t.withTrip b) cause rail := by
  obtain ⟨heq, hpins, hrest⟩ := h
  refine ⟨?_, hpins, hrest⟩
  rw [State.withTrip]
  conv_lhs => rw [heq]

/-- The level of VDD_CORE is one of the things that a cold reset keeps as it finds them. -/
theorem coldReset_level (s : State) (mv cause rail : Nat) : s.ColdReset (State.coldReset { s with vddMv := mv } cause rail) cause rail :=
  coldReset_does { s with vddMv := mv } cause rail

theorem coldReset_tripped_eq (s : State) (cause rail : Nat) : (s.coldReset cause rail).tripped = s.tripped := by rw [coldReset_steps, puts_eq]; rfl

theorem coldReset_vddMv (s : State) (cause rail : Nat) : (s.coldReset cause rail).vddMv = s.vddMv := by rw [coldReset_steps, puts_eq]; rfl

/-- A cold reset that leaves THERMTRIP_N in a given state. -/
theorem coldReset_withTrip (s : State) (cause rail : Nat) (b : Bool) : s.ColdReset ((s.coldReset cause rail).withTrip b) cause rail ∧
    ((s.coldReset cause rail).withTrip b).tripped = b ∧ ((s.coldReset cause rail).withTrip b).vddMv = s.vddMv := by
  have hmv := coldReset_vddMv s cause rail
  have hreset := (coldReset_does s cause rail).withTrip b
  generalize s.coldReset cause rail = t at hmv hreset ⊢
  exact ⟨hreset, rfl, hmv⟩

/-! ## What parts of a boot leave alone -/

/-- What boot has set of the state beside registers stays, and register fields outside a set of keys read as before. -/
def State.Boots (P : Nat → Prop) (s t : State) : Prop :=
  t.inReset = s.inReset ∧ t.rstLatch = s.rstLatch ∧ t.memActive = s.memActive ∧ t.keyBad = s.keyBad ∧ t.image = s.image ∧
  ∀ f : FieldRef, ¬P f.key → t.get f = s.get f

/-- Keys outside SEC_BOOT and PCR_RST_CAUSE. -/
def BootKey (k : Nat) : Prop := k / 64 ≠ 0x6C00000 ∧ k / 64 ≠ 0x6400008

/-- Keys outside the chambers' blocks, GLB_CHMAP, GLB_ROLE, MBX_CTL, SEC_BOOT and PCR_RST_CAUSE. -/
def LateKey (k : Nat) : Prop :=
  BootKey k ∧ k / 64 ≠ 0x8 ∧ k / 64 ≠ 0x10 ∧ k / 64 ≠ 0x5400080 ∧ ¬(0x1000000 ≤ k / 64 ∧ k / 64 < 0x2C00000)

section frame

variable {P : Nat → Prop} {s t u : State}

theorem State.Boots.refl (P : Nat → Prop) (s : State) : State.Boots P s s := ⟨rfl, rfl, rfl, rfl, rfl, fun _ _ => rfl⟩

theorem State.Boots.trans (h : State.Boots P s t) (k : State.Boots P t u) : State.Boots P s u := by
  obtain ⟨h1, h2, h3, h4, h5, h6⟩ := h
  obtain ⟨k1, k2, k3, k4, k5, k6⟩ := k
  exact ⟨k1.trans h1, k2.trans h2, k3.trans h3, k4.trans h4, k5.trans h5, fun f hf => (k6 f hf).trans (h6 f hf)⟩

theorem State.Boots.mono {Q : Nat → Prop} (h : State.Boots P s t) (hpq : ∀ k, P k → Q k) : State.Boots Q s t := by
  obtain ⟨h1, h2, h3, h4, h5, h6⟩ := h
  exact ⟨h1, h2, h3, h4, h5, fun f hf => h6 f fun hp => hf (hpq _ hp)⟩

theorem State.Boots.get (h : State.Boots P s t) {f : FieldRef} (hf : ¬P f.key) : t.get f = s.get f := h.2.2.2.2.2 f hf

theorem boots_put {f : FieldRef} (v : Nat) (h : P f.key) : State.Boots P s (s.put f v) :=
  ⟨rfl, rfl, rfl, rfl, rfl, fun _ hg => State.get_put_ne fun he => hg (he ▸ h)⟩

theorem boots_blow {f : FieldRef} (v : Nat) (h : P f.key) : State.Boots P s (s.blow f v) :=
  ⟨rfl, rfl, rfl, rfl, rfl, fun g hg => by rw [blow_get, if_neg]; exact fun he => hg (he ▸ h)⟩

theorem boots_ite {p : Prop} [Decidable p] (ht : State.Boots P s t) (hu : State.Boots P s u) : State.Boots P s (if p then t else u) := by
  split <;> assumption

theorem boots_foldl {α : Type} {f : State → α → State} {l : List α} (hf : ∀ x ∈ l, ∀ s, State.Boots P s (f s x)) :
    State.Boots P s (l.foldl f s) := by
  induction l generalizing s with
  | nil => exact .refl P s
  | cons x l ih => exact (hf x List.mem_cons_self s).trans (ih fun y hy => hf y (List.mem_cons_of_mem _ hy))

/-- States alike in all but fields and what boot does not set, whose fields outside a set read alike. -/
theorem State.Moved.boots (h : s.Moved t) (hf : ∀ f : FieldRef, ¬P f.key → t.get f = s.get f) : State.Boots P s t := by
  refine ⟨?_, ?_, ?_, ?_, ?_, hf⟩ <;> rw [h]

theorem State.Serves.boots (h : State.Serves P s t) : State.Boots P s t := by
  refine ⟨?_, ?_, ?_, ?_, ?_, fun f hf => h.get hf⟩ <;> rw [h.2]

theorem boots_panelEvent {f : FieldRef} (i : Nat) (h : P f.key) : State.Boots P s (s.panelEvent f i) := by
  obtain ⟨hkeep, F, I, heq⟩ := panelEvent_ok s f i
  refine ⟨?_, ?_, ?_, ?_, ?_, fun g hg => hkeep g ?_⟩
  · rw [heq]
  · rw [heq]
  · rw [heq]
  · rw [heq]
  · rw [heq]
  · rw [List.map_singleton, List.mem_singleton]
    exact fun he => hg (he ▸ h)

end frame

theorem lateKey_off {k : Nat} (h : 0x2C00000 ≤ k / 64) (h1 : k / 64 ≠ 0x6C00000) (h2 : k / 64 ≠ 0x6400008) (h3 : k / 64 ≠ 0x5400080) : LateKey k :=
  ⟨⟨h1, h2⟩, by omega, by omega, h3, by omega⟩

theorem access_late {k : Nat} (h : AccessKey k) : LateKey k := by
  simp only [AccessKey, LogKeys, Reg.FLS_DIRECT_COUNT_key, Reg.FLS_ELIDED_COUNT_key, Reg.FLS_STATUS_FULL_key, Reg.HST_SF_BISNP_key,
    Reg.HLC_CLAIM_STAT_FORCED_key] at h
  unfold LateKey BootKey
  omega

/-! ## Chambers retired at boot (R431) -/

theorem boots_fuseRetired (s : State) {n : Nat} (hn : n < 28) : State.Boots BootKey s (s.fuseRetired n) :=
  ((boots_blow _ (by rw [BootKey, Reg.CHn_STATUS_STATE_key]; omega)).trans (boots_blow _ ⟨by decide, by decide⟩)).trans (boots_blow _ ⟨by decide, by decide⟩)

theorem boots_logErr (s : State) (e : LogEntry) : State.Boots LateKey s (s.logErr e) := (serves_logErr s e).boots.mono fun _ => access_late

theorem boots_logRetired (s : State) (n : Nat) : State.Boots BootKey s (s.logRetired n) := (boots_logErr s _).mono fun _ h => h.1

theorem boots_replaceChamber (s : State) {n p : Nat} (hn : n < 28) (hp : p < 28) : State.Boots BootKey s (s.replaceChamber n p) := by
  refine (moved_replaceChamber s n p).boots fun f hf => ?_
  have hoff : f.key / 64 = 0x6C00000 ∨ f.key / 64 = 0x6400008 := by
    rw [BootKey] at hf
    omega
  have hblock : (s.blockTaken n p).get f = (s.mapsMoved n p).get f := by
    rw [State.blockTaken, copyRegions_get _ _ _ (.inr (by rw [chBlock]; omega)), resetRange_get _ _ (.inr (by rw [chBlock]; omega))]
  have hmaps : State.Boots BootKey s (s.mapsMoved n p) := (boots_fuseRetired s hn).trans (boots_blow _ ⟨by decide, by decide⟩)
  rw [replaceChamber_get, if_neg (by rw [Reg.CHn_STATUS_RETIRE_PENDING_key]; omega), if_neg (by rw [Reg.CHn_STATUS_STATE_key]; omega),
    if_neg (by rw [Reg.CHn_STATUS_STATE_key]; omega), if_neg (by rw [Reg.CHn_STATUS_LOGICAL_key]; omega),
    if_neg (by rw [Reg.CHn_STATUS_LOGICAL_key]; omega), hblock, hmaps.get hf]

/-- Of the candidates tested each is one of the list. -/
theorem testCandidates_mem (failed : BitVec 28) (l : List Nat) :
    (∀ q ∈ (testCandidates failed l).1, q ∈ l) ∧ ∀ p, (testCandidates failed l).2 = some p → p ∈ l := by
  induction l with
  | nil => exact ⟨fun _ h => h, fun _ h => nomatch h⟩
  | cons q l ih =>
    rw [testCandidates]
    split
    · refine ⟨fun x hx => ?_, fun p hp => List.mem_cons_of_mem _ (ih.2 p hp)⟩
      obtain rfl | hx := List.mem_cons.mp hx
      · exact List.mem_cons_self
      · exact List.mem_cons_of_mem _ (ih.1 x hx)
    · refine ⟨fun _ h => absurd h List.not_mem_nil, fun p hp => ?_⟩
      obtain rfl := Option.some.inj hp
      exact List.mem_cons_self

theorem boots_bootRetire (s : State) (failed : BitVec 28) {n : Nat} (hn : n < 28) : State.Boots BootKey s (s.bootRetire failed n) := by
  have hlt : ∀ q ∈ s.spares, q < 28 := fun q hq => (spares_mem.mp hq).1
  obtain ⟨hbad, hok⟩ := testCandidates_mem failed s.spares
  rw [State.bootRetire]
  generalize testCandidates failed s.spares = r at hbad hok
  obtain ⟨bad, ok⟩ := r
  have hfuse : State.Boots BootKey s (bad.foldl State.fuseRetired s) := boots_foldl fun q hq u => boots_fuseRetired u (hlt q (hbad q hq))
  have hlog : ∀ u, State.Boots BootKey u (bad.foldl State.logRetired u) := fun u => boots_foldl fun q _ u => boots_logRetired u q
  cases ok with
  | some p =>
    exact ((hfuse.trans (boots_replaceChamber _ hn (hlt p (hok p rfl)))).trans (boots_logRetired _ n)).trans (hlog _)
  | none =>
    dsimp only
    split
    · exact ((hfuse.trans (boots_fuseRetired _ hn)).trans (boots_logRetired _ n)).trans (hlog _)
    · refine (hfuse.trans ?_).trans (hlog _)
      have hput := boots_put (P := BootKey) (s := { bad.foldl State.fuseRetired s with devFailed := true }) (f := Reg.CHn_STATUS_RETIRE_PENDING n) 1
        (by rw [BootKey, Reg.CHn_STATUS_RETIRE_PENDING_key]; omega)
      exact State.Boots.trans (t := State.put { bad.foldl State.fuseRetired s with devFailed := true } (Reg.CHn_STATUS_RETIRE_PENDING n) 1) hput
        ((boots_logErr _ _).mono fun _ h => h.1)

/-! ## Slots (R473, R474) -/

theorem boots_setSlot (s : State) {m st : Nat} (hm : m < 6) (hst : st < 8) : State.Boots LateKey s (s.setSlot m st) := by
  obtain ⟨-, hkeep, F, I, P, heq⟩ := setSlot_ok s m st hm hst
  refine ⟨?_, ?_, ?_, ?_, ?_, fun f hf => hkeep f fun hk => hf ?_⟩
  · rw [heq]
  · rw [heq]
  · rw [heq]
  · rw [heq]
  · rw [heq]
  · simp only [List.map_cons, List.map_nil, List.mem_cons, List.not_mem_nil, or_false, Reg.BMCm_STATE_STATE_key, Reg.BMCm_STATE_CHANNELS_key,
      Reg.SVC_EVENT_SLOT_STATE_key] at hk
    exact lateKey_off (by omega) (by omega) (by omega) (by omega)

theorem boots_resetRange (s : State) (k : ResetKind) {lo hi : Nat} {P : Nat → Prop} (h : ∀ x, lo ≤ x / 64 → x / 64 < hi → P x) :
    State.Boots P s (s.resetRange k lo hi) :=
  ⟨rfl, rfl, rfl, rfl, rfl, fun f hf => resetRange_get s k (by
    by_contra hc
    exact hf (h _ (by omega) (by omega)))⟩

theorem boots_closeOn (s : State) {m : Nat} (hm : m < 6) : State.Boots LateKey s (s.closeOn m) := by
  have hreset : State.Boots LateKey s (s.resetCartridge m) := (boots_setSlot s hm (by decide)).trans
    (State.Boots.trans (boots_resetRange _ .cartridge fun x h1 h2 => lateKey_off (by omega) (by omega) (by omega) (by omega))
      ⟨rfl, rfl, rfl, rfl, rfl, fun _ _ => rfl⟩)
  refine ((hreset.trans (boots_put _ ?_)).trans (boots_setSlot _ hm (by decide))).trans (boots_setSlot _ hm (by decide))
  rw [Reg.SVC_SLOTm_ADD_FAIL_key]
  exact lateKey_off (by omega) (by omega) (by omega) (by omega)

theorem boots_bootSlots (s : State) : State.Boots LateKey s s.bootSlots :=
  boots_foldl fun m hm u => boots_ite (boots_closeOn u (by simp only [slotList, List.mem_cons, List.not_mem_nil, or_false] at hm; omega)) (.refl _ u)

/-! ## Chambers and ports -/

theorem foldl_put_eq (F : Nat → FieldRef) (v : Nat → Nat) (l : List Nat) : ∀ s : State,
    l.foldl (fun s n => s.put (F n) (v n)) s = s.puts (l.map fun n => (F n, v n)) := by
  induction l with
  | nil => exact fun _ => rfl
  | cons n l ih => exact fun s => ih _

/-- The chambers that a boot brings into service. -/
def State.bootOn (s : State) : List Nat :=
  let on := (List.range 28).filter fun n => bit (s.get Reg.GLB_CHMAP_ENABLED) n
  if s.flag Reg.GLB_ROLE_KEEPER then on.take 1 else on

theorem bootChambers_eq (s : State) :
    s.bootChambers = s.puts ((List.range 28).map fun n => (Reg.CHn_STATUS_STATE n, b2n (s.bootOn.contains n))) := foldl_put_eq _ _ _ s

theorem bootChambers_state (s : State) {n : Nat} (hn : n < 28) : s.bootChambers.chState n = b2n (s.bootOn.contains n) := by
  have hapart : (((List.range 28).map fun n => (Reg.CHn_STATUS_STATE n, b2n (s.bootOn.contains n))).map (·.1)).Pairwise fun f g => f.key ≠ g.key := by
    rw [List.map_map, List.pairwise_map]
    refine List.nodup_range.imp fun hne => ?_
    simp only [Function.comp, Reg.CHn_STATUS_STATE_key]
    omega
  have := puts_get _ hapart s (Reg.CHn_STATUS_STATE n, b2n (s.bootOn.contains n)) (List.mem_map_of_mem (List.mem_range.mpr hn))
  rw [bootChambers_eq]
  refine this.trans ?_
  cases s.bootOn.contains n <;> rfl

theorem boots_bootChambers (s : State) : State.Boots (fun k => 0x1000000 ≤ k / 64 ∧ k / 64 < 0x2C00000) s s.bootChambers :=
  boots_foldl fun n hn u => boots_put _ (by
    have := List.mem_range.mp hn
    rw [Reg.CHn_STATUS_STATE_key]
    omega)

/-- The first of the numbers below 28 with a property is the one below which none has it. -/
theorem mem_take_one_filter {f : Nat → Bool} {n : Nat} (hn : n < 28) :
    n ∈ ((List.range 28).filter f).take 1 ↔ f n = true ∧ ∀ m < n, f m = false := by
  by_cases hf : f n = true
  · obtain ⟨k, hk⟩ := filter_range_split f hn hf
    rw [hk]
    cases hlow : (List.range n).filter f with
    | nil =>
      rw [List.filter_eq_nil_iff] at hlow
      refine ⟨fun _ => ⟨hf, fun m hm => Bool.eq_false_iff.mpr (hlow m (List.mem_range.mpr hm))⟩, fun _ => List.mem_cons_self⟩
    | cons x l =>
      obtain ⟨hx, hfx⟩ := List.mem_filter.mp (hlow ▸ List.mem_cons_self : x ∈ (List.range n).filter f)
      have hlt := List.mem_range.mp hx
      refine ⟨fun h => ?_, fun h => absurd (h.2 x hlt) (Bool.not_eq_false _ ▸ hfx)⟩
      obtain rfl := List.mem_singleton.mp h
      exact absurd hlt (Nat.lt_irrefl n)
  · exact ⟨fun h => absurd (List.mem_filter.mp (List.mem_of_mem_take h)).2 hf, fun h => absurd h.1 hf⟩

/-- A chamber is brought into service where it is enabled, and on a keeper where no lower one is. -/
theorem mem_bootOn (s : State) {n : Nat} (hn : n < 28) : n ∈ s.bootOn ↔ bit (s.get Reg.GLB_CHMAP_ENABLED) n = true ∧
    (s.get Reg.GLB_ROLE_KEEPER ≠ 1 ∨ ∀ m < n, bit (s.get Reg.GLB_CHMAP_ENABLED) m = false) := by
  have hall : n ∈ (List.range 28).filter (fun n => bit (s.get Reg.GLB_CHMAP_ENABLED) n) ↔ bit (s.get Reg.GLB_CHMAP_ENABLED) n = true := by simp [hn]
  rw [State.bootOn]
  by_cases hk : s.get Reg.GLB_ROLE_KEEPER = 1
  · rw [if_pos (by rw [flag_eq, hk]; rfl), mem_take_one_filter hn]
    simp [hk]
  · rw [if_neg (by simp [flag_eq, hk]), hall]
    simp [hk]

theorem boots_bootPorts (s : State) : State.Boots LateKey s s.bootPorts :=
  boots_foldl fun n hn u => boots_ite (boots_put _ (by
    have := List.mem_range.mp hn
    rw [Reg.HGPn_STATUS_STATE_key]
    exact lateKey_off (by omega) (by omega) (by omega) (by omega))) (.refl _ u)

theorem boots_copyLibrary (s : State) (b : Nat) : State.Boots LateKey s (s.copyLibrary b) := by
  unfold State.copyLibrary
  dsimp only
  split
  · exact (serves_write ..).boots.mono fun _ => access_late
  · exact .refl _ s

theorem boots_setTwin (s : State) (st : Nat) : State.Boots LateKey s (s.setTwin st) :=
  boots_ite (.refl _ s) ((boots_put _ (lateKey_off (by decide) (by decide) (by decide) (by decide))).trans
    (boots_panelEvent _ (lateKey_off (by decide) (by decide) (by decide) (by decide))))

/-! ## The image is taken (R429) -/

/-- A field has been written, with a value that no reset value hides. -/
def State.Written (s : State) (f : FieldRef) (v : Nat) : Prop := mapFind s.fields f.key = some v

section written

variable {s : State} {f g : FieldRef} {v w : Nat}

theorem State.Written.get (h : s.Written f v) : s.get f = v := by rw [State.get, h]; rfl

theorem written_put (s : State) (f : FieldRef) (v : Nat) : (s.put f v).Written f (v % 2 ^ f.w) := by
  rw [State.Written, State.put, mapFind_insert, if_pos rfl]

theorem State.Written.put (h : s.Written f v) (hne : f.key ≠ g.key) : (s.put g w).Written f v := by
  rw [State.Written, State.put, mapFind_insert, if_neg hne]
  exact h

theorem State.Written.ite {t : State} {p : Prop} [Decidable p] (h : s.Written f v) (k : t.Written f v) : (if p then s else t).Written f v := by
  split <;> assumption

end written

/-- The fields that taking an image writes. -/
def imageFields : List FieldRef := [Reg.SEC_BOOT_BANK, Reg.SEC_BOOT_IMG_VERSION, Reg.SEC_BOOT_IMG_SVN, Reg.SEC_SVN_MIN, Reg.SEC_DBG_CLOSED]

theorem written_imageFuses {s : State} {f : FieldRef} {v : Nat} (h : s.Written f v) (h1 : f.key ≠ Reg.SEC_SVN_MIN.key)
    (h2 : f.key ≠ Reg.SEC_DBG_CLOSED.key) (ws : List Nat) : (s.imageFuses ws).Written f v := by
  have hsvn : ∀ p : Prop, [Decidable p] → (if p then s.blow Reg.SEC_SVN_MIN (hdrSvn ws) else s).Written f v := fun p _ => .ite (h.put h1) h
  unfold State.imageFuses
  exact .ite ((hsvn _).put h2) (hsvn _)

theorem imageFuses_rest (s : State) (ws : List Nat) : (s.imageFuses ws).inReset = s.inReset ∧ (s.imageFuses ws).rstLatch = s.rstLatch ∧
    (s.imageFuses ws).image = s.image := by
  unfold State.imageFuses
  dsimp only
  split <;> split <;> exact ⟨rfl, rfl, rfl⟩

/-- The image's values in force, beside what Lantern keeps of the image. -/
def State.imageInForce (s : State) (i : BootInfo) (m : Map Nat) : State := { s with booted := i, image := m }

theorem written_imageInForce {s : State} {f : FieldRef} {v : Nat} (h : s.Written f v) (i : BootInfo) (m : Map Nat) : (s.imageInForce i m).Written f v := h

theorem takeImage_eq (s : State) (b : Nat) : ∃ v w i ws, s.takeImage b =
    ((((s.put Reg.SEC_BOOT_BANK b).put Reg.SEC_BOOT_IMG_VERSION v).put Reg.SEC_BOOT_IMG_SVN w).imageInForce i (imageValues (s.bankReader b))).imageFuses ws :=
  ⟨_, _, _, _, rfl⟩

/-- An image taken: SEC_BOOT shows its bank, its values are the reset values, and a field that boot has written keeps its value. -/
theorem takeImage_does (s : State) (b : Nat) :
    (s.takeImage b).inReset = s.inReset ∧ (s.takeImage b).rstLatch = s.rstLatch ∧ (s.takeImage b).image = imageValues (s.bankReader b) ∧
    (s.takeImage b).get Reg.SEC_BOOT_BANK = b % 2 ∧
    ∀ f v, s.Written f v → f.key ∉ imageFields.map FieldRef.key → (s.takeImage b).get f = v := by
  obtain ⟨v, w, i, ws, heq⟩ := takeImage_eq s b
  rw [heq]
  generalize imageValues (s.bankReader b) = m
  obtain ⟨h1, h2, h3⟩ := imageFuses_rest ((((s.put Reg.SEC_BOOT_BANK b).put Reg.SEC_BOOT_IMG_VERSION v).put Reg.SEC_BOOT_IMG_SVN w).imageInForce i m) ws
  refine ⟨h1.trans rfl, h2.trans rfl, h3.trans rfl, ?_, fun f x h hf => ?_⟩
  · have hbank := ((written_put s Reg.SEC_BOOT_BANK b).put (g := Reg.SEC_BOOT_IMG_VERSION) (w := v) (by decide)).put
      (g := Reg.SEC_BOOT_IMG_SVN) (w := w) (by decide)
    exact (written_imageFuses (written_imageInForce hbank i m) (by decide) (by decide) _).get
  · simp only [imageFields, List.map_cons, List.map_nil, List.mem_cons, List.not_mem_nil, or_false, not_or] at hf
    obtain ⟨h1, h2, h3, h4, h5⟩ := hf
    exact (written_imageFuses (written_imageInForce (((h.put h1).put h2).put h3) i m) h4 h5 _).get

/-! ## Steps 5 to 8 (R431) -/

/-- The enabled chambers that fail their test retired. -/
def State.bootTested (s : State) (c : BootCheck) : State :=
  ((List.range 28).filter fun n => bit (s.get Reg.GLB_CHMAP_ENABLED) n && bit c.failed.toNat n).foldl (State.bootRetire c.failed) s

/-- The arbiters with the slot sets of ARB_ACTIVE in use. -/
def State.bootArbs (s : State) : State :=
  { s with arbUse := (List.range 10).foldl (fun m k => mapSet 0 m k (s.get (Reg.ARB_ACTIVE_SET_k k))) [] }

/-- Chambers, ports and arbiters brought up. -/
def State.bootUnits (s : State) (c : BootCheck) : State := (s.bootTested c).bootChambers.bootPorts.bootArbs

/-- The units up and the library copied. -/
def State.bootLoaded (s : State) (b : Nat) (c : BootCheck) : State := (s.bootUnits c).copyLibrary b

/-- In service, with memory active. -/
def State.bootService (s : State) (leaf : Nat) (c : BootCheck) : State :=
  { s.puts [(Reg.SEC_ATT_TOP_NEXT, leaf), (Reg.MBX_CTL_STATE, 2)] with memActive := true, keyBad := !c.keysOk }

/-- What follows once the image is taken. -/
def State.bootTaken (s : State) (b : Nat) (c : BootCheck) : State :=
  let u := (s.bootLoaded b c).bootService (s.bootUnits c).nextLeaf c
  (if u.isTwin then u.setTwin 1 else u).bootSlots

theorem bootFrom_eq (s : State) (b : Nat) (c : BootCheck) : s.bootFrom b c = (s.takeImage b).bootTaken b c := rfl

theorem boots_bootTested (s : State) (c : BootCheck) : State.Boots BootKey s (s.bootTested c) :=
  boots_foldl fun _ hn u => boots_bootRetire u c.failed (List.mem_range.mp (List.mem_filter.mp hn).1)

theorem boots_bootArbs (s : State) : State.Boots LateKey s s.bootArbs := ⟨rfl, rfl, rfl, rfl, rfl, fun _ _ => rfl⟩

theorem boots_bootLoaded (s : State) (b : Nat) (c : BootCheck) : State.Boots LateKey (s.bootTested c).bootChambers (s.bootLoaded b c) := by
  rw [State.bootLoaded, State.bootUnits]
  exact ((boots_bootPorts _).trans (boots_bootArbs _)).trans (boots_copyLibrary _ b)

theorem boots_bootTaken (s : State) (b : Nat) (c : BootCheck) : State.Boots LateKey ((s.bootLoaded b c).bootService (s.bootUnits c).nextLeaf c) (s.bootTaken b c) := by
  unfold State.bootTaken
  exact (boots_ite (boots_setTwin _ 1) (.refl _ _)).trans (boots_bootSlots _)

/-- A field that neither the last steps nor MBX_CTL and the next top leaf are, reads as when the chambers came up. -/
theorem bootTaken_late (s : State) (b : Nat) (c : BootCheck) {f : FieldRef} (hf : ¬LateKey f.key) (h1 : f.key ≠ Reg.MBX_CTL_STATE.key)
    (h2 : f.key ≠ Reg.SEC_ATT_TOP_NEXT.key) : (s.bootTaken b c).get f = (s.bootTested c).bootChambers.get f := by
  have hactive : ((s.bootLoaded b c).bootService (s.bootUnits c).nextLeaf c).get f = (s.bootLoaded b c).get f := (State.get_put_ne h1).trans (State.get_put_ne h2)
  rw [(boots_bootTaken s b c).get hf, hactive, (boots_bootLoaded s b c).get hf]

/-- A field of SEC_BOOT or PCR_RST_CAUSE reads as when the image was taken. -/
theorem bootTaken_early (s : State) (b : Nat) (c : BootCheck) {f : FieldRef} (hf : f.key / 64 = 0x6C00000 ∨ f.key / 64 = 0x6400008) :
    (s.bootTaken b c).get f = s.get f := by
  have hboot : ¬BootKey f.key := by
    rw [BootKey]
    omega
  rw [bootTaken_late s b c (fun h => hboot h.1) (by rw [Reg.MBX_CTL_STATE_key]; omega) (by rw [Reg.SEC_ATT_TOP_NEXT_key]; omega),
    (boots_bootChambers _).get (by omega), (boots_bootTested s c).get hboot]

/-- With every chamber passing its test none is retired. -/
theorem bootTested_none (s : State) {c : BootCheck} (h : c.failed = 0) : s.bootTested c = s := by
  have hnil : (List.range 28).filter (fun n => bit (s.get Reg.GLB_CHMAP_ENABLED) n && bit c.failed.toNat n) = [] :=
    List.filter_eq_nil_iff.mpr fun n _ => by simp [h, bit]
  rw [State.bootTested, hnil]
  rfl

theorem bootTaken_chambers (s : State) (b : Nat) (c : BootCheck) {n : Nat} (hn : n < 28) : (s.bootTaken b c).chState n =
    if bit ((s.bootTaken b c).get Reg.GLB_CHMAP_ENABLED) n = true ∧ ((s.bootTaken b c).get Reg.GLB_ROLE_KEEPER ≠ 1 ∨
      ∀ m < n, bit ((s.bootTaken b c).get Reg.GLB_CHMAP_ENABLED) m = false) then 1 else 0 := by
  have hmap : (s.bootTaken b c).get Reg.GLB_CHMAP_ENABLED = (s.bootTested c).get Reg.GLB_CHMAP_ENABLED :=
    (bootTaken_late s b c (fun h => h.2.1 rfl) (by decide) (by decide)).trans ((boots_bootChambers _).get (by decide))
  have hrole : (s.bootTaken b c).get Reg.GLB_ROLE_KEEPER = (s.bootTested c).get Reg.GLB_ROLE_KEEPER :=
    (bootTaken_late s b c (fun h => h.2.2.1 rfl) (by decide) (by decide)).trans ((boots_bootChambers _).get (by decide))
  have hstate : (s.bootTaken b c).chState n = (s.bootTested c).bootChambers.chState n := by
    refine bootTaken_late s b c (fun h => h.2.2.2.2 ?_) ?_ ?_
    · rw [Reg.CHn_STATUS_STATE_key]; omega
    · rw [Reg.CHn_STATUS_STATE_key, Reg.MBX_CTL_STATE_key]; omega
    · rw [Reg.CHn_STATUS_STATE_key, Reg.SEC_ATT_TOP_NEXT_key]; omega
  rw [hstate, bootChambers_state _ hn, hmap, hrole, List.contains_eq_mem]
  simp only [← mem_bootOn _ hn]
  split
  next h => rw [decide_eq_true h]; rfl
  next h => rw [decide_eq_false h]; rfl

theorem bootTaken_mailbox (s : State) (b : Nat) (c : BootCheck) : (s.bootTaken b c).get Reg.MBX_CTL_STATE = 2 :=
  ((boots_bootTaken s b c).get fun h => h.2.2.2.1 rfl).trans State.get_put_eq

/-- What the boot of a bank leaves beside registers. -/
theorem bootTaken_rest (s : State) (b : Nat) (c : BootCheck) :
    (s.bootTaken b c).inReset = s.inReset ∧ (s.bootTaken b c).rstLatch = s.rstLatch ∧ (s.bootTaken b c).memActive = true ∧
    (s.bootTaken b c).keyBad = !c.keysOk ∧ (s.bootTaken b c).image = s.image := by
  obtain ⟨t1, t2, -, -, t5, -⟩ := ((boots_bootTested s c).mono (Q := fun _ => True) fun _ _ => trivial).trans
    (((boots_bootChambers _).mono fun _ _ => trivial).trans ((boots_bootLoaded s b c).mono fun _ _ => trivial))
  obtain ⟨a1, a2, a3, a4, a5, -⟩ := boots_bootTaken s b c
  exact ⟨a1.trans t1, a2.trans t2, a3, a4, a5.trans t5⟩

/-! ## The cold boot (R430, R431) -/

/-- Boot starts out of reset with the latched cause shown. -/
theorem bootStart_does {s : State} (h : s.inReset = true) : s.bootStart.inReset = false ∧ s.bootStart.rstLatch = none ∧
    ∀ x, s.rstLatch = some x → s.bootStart.Written Reg.PCR_RST_CAUSE_CAUSE (x.1 % 16) ∧ s.bootStart.Written Reg.PCR_RST_CAUSE_RAIL (x.2 % 16) := by
  have hlatch : ∀ x, s.rstLatch = some x → (s.coldReset 1 0).rstLatch = some x := fun x hx => by
    rw [coldReset_steps, puts_eq, State.resetKept]
    simp only [h, hx, Option.isSome_some, Bool.and_self, if_true]
  rw [State.bootStart]
  generalize s.coldReset 1 0 = u at hlatch ⊢
  rcases hcr : u.rstLatch.getD (1, 0) with ⟨c, r⟩
  refine ⟨rfl, rfl, fun x hx => ?_⟩
  rw [hlatch x hx] at hcr
  obtain rfl := hcr
  exact ⟨((written_put _ Reg.PCR_RST_CAUSE_CAUSE c).put (by decide)).put (by decide), (written_put _ Reg.PCR_RST_CAUSE_RAIL r).put (by decide)⟩

theorem recover_does (u : State) (a b : Nat) : (u.recover a b).inReset = u.inReset ∧ (u.recover a b).get Reg.SEC_BOOT_RECOVERY = 1 ∧
    (u.recover a b).get Reg.MBX_CTL_STATE = 1 ∧ (u.recover a b).get Reg.SEC_BOOT_CAUSE_SEL = a % 16 ∧ (u.recover a b).get Reg.SEC_BOOT_CAUSE_ALT = b % 16 ∧
    u.OnlyFields (u.recover a b) [Reg.SEC_BOOT_RECOVERY, Reg.MBX_CTL_STATE, Reg.SEC_BOOT_CAUSE_SEL, Reg.SEC_BOOT_CAUSE_ALT] := by
  have hget := puts_get [(Reg.SEC_BOOT_CAUSE_SEL, a), (Reg.SEC_BOOT_CAUSE_ALT, b), (Reg.SEC_BOOT_RECOVERY, 1), (Reg.MBX_CTL_STATE, 1)] (by simp) u
  exact ⟨rfl, hget (Reg.SEC_BOOT_RECOVERY, 1) (by simp), hget (Reg.MBX_CTL_STATE, 1) (by simp), hget (Reg.SEC_BOOT_CAUSE_SEL, a) (by simp),
    hget (Reg.SEC_BOOT_CAUSE_ALT, b) (by simp), rfl, (keeps_refl u _).puts _ (by simp)⟩

/-- A bank booted from, beside the two fields that a fallback writes. -/
theorem bootFrom_does {s : State} (b : Nat) (c : BootCheck) (h1 : s.inReset = false) (h2 : s.rstLatch = none) :
    (s.bootFrom b c).inReset = false ∧ (s.bootFrom b c).rstLatch = none ∧ (s.bootFrom b c).memActive = true ∧ (s.bootFrom b c).keyBad = !c.keysOk ∧
    (s.bootFrom b c).get Reg.MBX_CTL_STATE = 2 ∧ (s.bootFrom b c).get Reg.SEC_BOOT_BANK = b % 2 ∧
    (s.bootFrom b c).image = imageValues (s.bankReader b) ∧
    (∀ f v, s.Written f v → f.key ∉ imageFields.map FieldRef.key → f.key / 64 = 0x6C00000 ∨ f.key / 64 = 0x6400008 → (s.bootFrom b c).get f = v) ∧
    ∀ n < 28, (s.bootFrom b c).chState n = if bit ((s.bootFrom b c).get Reg.GLB_CHMAP_ENABLED) n = true ∧
      ((s.bootFrom b c).get Reg.GLB_ROLE_KEEPER ≠ 1 ∨ ∀ m < n, bit ((s.bootFrom b c).get Reg.GLB_CHMAP_ENABLED) m = false) then 1 else 0 := by
  obtain ⟨i1, i2, i3, i4, i5⟩ := takeImage_does s b
  rw [bootFrom_eq]
  obtain ⟨b1, b2, b3, b4, b5⟩ := bootTaken_rest (s.takeImage b) b c
  exact ⟨b1.trans (i1.trans h1), b2.trans (i2.trans h2), b3, b4, bootTaken_mailbox _ b c, (bootTaken_early _ b c (by decide)).trans i4, b5.trans i3,
    fun f v hw hf hk => (bootTaken_early _ b c hk).trans (i5 f v hw hf), fun n hn => bootTaken_chambers _ b c hn⟩

/-- Settles O57. That one command does the whole boot is log entry 65's choice. -/
theorem coldResets : Obligations.ColdResets := by
  unfold Obligations.ColdResets
  intro s
  refine ⟨⟨_, rfl, coldReset_withTrip s 1 0 false⟩, ⟨_, rfl, rfl, rfl, _, (coldReset_withTrip s 1 0 false).1, rfl⟩, ⟨_, rfl, coldReset_withTrip s 2 0 false⟩,
    ⟨_, rfl, coldReset_does s 5 0, coldReset_tripped_eq s 5 0, coldReset_vddMv s 5 0⟩,
    fun r => ⟨fun h => congrArg Host.Outcome.next (if_neg (by omega)), fun h1 h8 =>
      ⟨_, congrArg Host.Outcome.next (if_pos ⟨h1, h8⟩), coldReset_does s 4 _, coldReset_tripped_eq s 4 _, coldReset_vddMv s 4 _⟩⟩,
    fun mv => ⟨fun h => congrArg Host.Outcome.next (if_neg (by omega)), fun h =>
      ⟨_, congrArg Host.Outcome.next (if_pos h), coldReset_level s _ 3 0, coldReset_tripped_eq _ 3 0, coldReset_vddMv _ 3 0⟩⟩,
    fun logic dram => ⟨fun h1 h2 => congrArg Host.Outcome.next (if_neg (by omega)), fun h =>
      ⟨_, congrArg Host.Outcome.next (if_pos (by omega)), coldReset_withTrip s 6 0 true⟩⟩,
    fun c => ⟨fun h => congrArg Host.Outcome.next (if_neg (by rcases h with h | h <;> simp [h])), fun hr ht => ?_⟩⟩
  have hexec : exec (.coldBoot c) s = .next ((s.fitFlash c.fitted).bootStart.bootVerified c) :=
    congrArg Host.Outcome.next (if_pos (by simp [hr, ht]))
  obtain ⟨u1, u2, u3⟩ := bootStart_does (s := s.fitFlash c.fitted) hr
  intro u check sel
  have hcause : ∀ x, s.rstLatch = some x → u.Written Reg.PCR_RST_CAUSE_CAUSE (x.1 % 16) ∧ u.Written Reg.PCR_RST_CAUSE_RAIL (x.2 % 16) := u3
  change u.inReset = false at u1
  change u.rstLatch = none at u2
  change exec (.coldBoot c) s = .next (u.bootVerified c) at hexec
  clear_value u
  refine ⟨fun h1 h2 => ⟨_, hexec.trans (congrArg Host.Outcome.next ((if_neg h1).trans (if_neg h2))), ?_⟩, fun b hb => ?_⟩
  · obtain ⟨r1, r2, r3, r4, r5, r6⟩ := recover_does u (check sel) (check (1 - sel))
    exact ⟨r1.trans u1, r2, r3, r4, r5, r6⟩
  · rcases hb with ⟨rfl, hsel⟩ | ⟨rfl, hsel, hother⟩
    · obtain ⟨t1, t2, t3, t4, t5, t6, t7, t8, t9⟩ := bootFrom_does sel c u1 u2
      exact ⟨_, hexec.trans (congrArg Host.Outcome.next (if_pos hsel)), t1, t2, t3, t4, t5, t6, t7,
        fun x hx => ⟨t8 _ _ (hcause x hx).1 (by decide) (by decide), t8 _ _ (hcause x hx).2 (by decide) (by decide)⟩,
        fun h => absurd hsel h, fun _ => t9⟩
    · obtain ⟨t1, t2, t3, t4, t5, t6, t7, t8, t9⟩ :=
        bootFrom_does (s := (u.put Reg.SEC_BOOT_FALLBACK 1).put Reg.SEC_BOOT_CAUSE_SEL (check sel)) (1 - sel) c u1 u2
      refine ⟨_, hexec.trans (congrArg Host.Outcome.next ((if_neg hsel).trans (if_pos hother))), t1, t2, t3, t4, t5, t6, t7,
        fun x hx => ⟨t8 _ _ (((hcause x hx).1.put (by decide)).put (by decide)) (by decide) (by decide),
          t8 _ _ (((hcause x hx).2.put (by decide)).put (by decide)) (by decide) (by decide)⟩,
        fun _ => ⟨t8 _ _ ((written_put u Reg.SEC_BOOT_FALLBACK 1).put (by decide)) (by decide) (by decide),
          t8 _ _ (written_put _ Reg.SEC_BOOT_CAUSE_SEL _) (by decide) (by decide)⟩, fun _ => t9⟩

end Sys2Proof.Machine
end

section
/-! Brownout Hold, the power states and the governor (R453 to R458, R461 to R464): what is done to every chamber, to every port in Keep, to the
duties and to the limits, and from them O58. -/

namespace Sys2Proof.Machine

open Sys2Proof

/-! ## One thing done to every chamber -/

/-- A change of one chamber alone and of its STATE: `A` gives its new STATE and `B` its new state beside registers. -/
def PerChamber (f : State → Nat → State) (A : Nat → Chamber → Nat) (B : Nat → Chamber → Chamber) : Prop :=
  ∀ (s : State) (n : Nat), f s n = { s with fields := (f s n).fields, chambers := (f s n).chambers } ∧
    s.KeepsFields (f s n) [Reg.CHn_STATUS_STATE n] ∧ (f s n).chState n = A (s.chState n) (s.ch n) ∧ (f s n).ch n = B (s.chState n) (s.ch n) ∧
    ∀ m, m ≠ n → (f s n).ch m = s.ch m

theorem stateKey_ne {m n : Nat} (h : m ≠ n) : (Reg.CHn_STATUS_STATE m).key ≠ (Reg.CHn_STATUS_STATE n).key := by
  rw [Reg.CHn_STATUS_STATE_key, Reg.CHn_STATUS_STATE_key]
  omega

/-- The chambers of a list each changed, and nothing else. -/
def State.AllChambers (s t : State) (l : List Nat) (A : Nat → Chamber → Nat) (B : Nat → Chamber → Chamber) : Prop :=
  t = { s with fields := t.fields, chambers := t.chambers } ∧ s.KeepsFields t (l.map Reg.CHn_STATUS_STATE) ∧
  ∀ n, (n ∈ l → t.chState n = A (s.chState n) (s.ch n) ∧ t.ch n = B (s.chState n) (s.ch n)) ∧ (n ∉ l → t.chState n = s.chState n ∧ t.ch n = s.ch n)

theorem eq_chambers_trans {s t u : State} (h : t = { s with fields := t.fields, chambers := t.chambers })
    (k : u = { t with fields := u.fields, chambers := u.chambers }) : u = { s with fields := u.fields, chambers := u.chambers } :=
  k.trans (by rw [h])

theorem allChambers_foldl {f : State → Nat → State} {A : Nat → Chamber → Nat} {B : Nat → Chamber → Chamber} (h : PerChamber f A B) {l : List Nat}
    (hl : l.Nodup) : ∀ s : State, s.AllChambers (l.foldl f s) l A B := by
  induction l with
  | nil => exact fun s => ⟨rfl, fun _ _ => rfl, fun n => ⟨fun hn => absurd hn List.not_mem_nil, fun _ => ⟨rfl, rfl⟩⟩⟩
  | cons m l ih =>
    intro s
    obtain ⟨hm, hl⟩ := List.nodup_cons.mp hl
    obtain ⟨heq, hkeep, hstate, hch, hrest⟩ := h s m
    obtain ⟨teq, tkeep, tall⟩ := ih hl (f s m)
    have hother : ∀ n, n ≠ m → (f s m).chState n = s.chState n := fun n hn => hkeep _ fun hk => stateKey_ne hn (List.mem_singleton.mp hk)
    refine ⟨eq_chambers_trans heq teq, (hkeep.mono fun g hg => ?_).trans (tkeep.mono fun g hg => List.mem_cons_of_mem _ hg),
      fun n => ⟨fun hn => ?_, fun hn => ?_⟩⟩
    · rw [List.mem_singleton.mp hg]
      exact List.mem_cons_self
    · obtain rfl | hn := List.mem_cons.mp hn
      · obtain ⟨h1, h2⟩ := (tall n).2 hm
        exact ⟨h1.trans hstate, h2.trans hch⟩
      · have hne : n ≠ m := fun e => hm (e ▸ hn)
        obtain ⟨h1, h2⟩ := (tall n).1 hn
        rw [hother n hne, hrest n hne] at h1 h2
        exact ⟨h1, h2⟩
    · obtain ⟨hne, hn⟩ := not_or.mp (List.mem_cons.not.mp hn)
      obtain ⟨h1, h2⟩ := (tall n).2 hn
      exact ⟨h1.trans (hother n hne), h2.trans (hrest n hne)⟩

section all

variable {s t : State} {A : Nat → Chamber → Nat} {B : Nat → Chamber → Chamber} (h : s.AllChambers t (List.range 28) A B)

include h

theorem State.AllChambers.state {n : Nat} (hn : n < 28) : t.chState n = A (s.chState n) (s.ch n) := ((h.2.2 n).1 (List.mem_range.mpr hn)).1

theorem State.AllChambers.chamber {n : Nat} (hn : n < 28) : t.ch n = B (s.chState n) (s.ch n) := ((h.2.2 n).1 (List.mem_range.mpr hn)).2

/-- A field outside the chambers' blocks is as it was. -/
theorem State.AllChambers.get {f : FieldRef} (hf : f.key / 64 < 0x1000000 ∨ 0x2C00000 ≤ f.key / 64) : t.get f = s.get f :=
  h.2.1 f fun hk => by
    simp only [List.map_map, List.mem_map, List.mem_range, Function.comp, Reg.CHn_STATUS_STATE_key] at hk
    obtain ⟨n, hn, hk⟩ := hk
    omega

end all

/-- A STATE written and the chamber changed, where a condition on its STATE holds. -/
theorem perChamber_ite (P : Nat → Prop) [DecidablePred P] (V : Nat → Chamber → Nat) (G : Nat → Chamber → Chamber) :
    PerChamber (fun s n => if P (s.chState n) then (s.put (Reg.CHn_STATUS_STATE n) (V (s.chState n) (s.ch n))).modCh n (G (s.chState n)) else s)
      (fun st c => if P st then V st c % 8 else st) (fun st c => if P st then G st c else c) := by
  intro s n
  by_cases hp : P (s.chState n)
  · simp only [if_pos hp]
    refine ⟨rfl, ((keeps_refl s _).put (List.mem_singleton_self _)).of_fields rfl rfl rfl, State.get_put_eq, ?_, fun m hm => ?_⟩
    · rw [ch_modCh_eq, State.ch_put]
    · rw [ch_modCh, if_neg hm, State.ch_put]
  · simp only [if_neg hp]
    exact ⟨trivial, keeps_refl s _, trivial, trivial, fun _ _ => trivial⟩

/-- A change of the chamber beside registers may come first. -/
theorem PerChamber.after {f : State → Nat → State} {A : Nat → Chamber → Nat} {B : Nat → Chamber → Chamber} (h : PerChamber f A B)
    (F : Chamber → Chamber) : PerChamber (fun s n => f (s.modCh n F) n) (fun st c => A st (F c)) (fun st c => B st (F c)) := by
  intro s n
  obtain ⟨heq, hkeep, hstate, hch, hrest⟩ := h (s.modCh n F) n
  rw [ch_modCh_eq] at hstate hch
  refine ⟨eq_chambers_trans rfl heq, ((keeps_refl s _).of_fields rfl rfl rfl).trans hkeep, hstate, hch, fun m hm => (hrest m hm).trans ?_⟩
  rw [ch_modCh, if_neg hm]

/-- A chamber whose waits have been lengthened by a Hold (R461). -/
def Chamber.waitsLonger (d : Nat) (c : Chamber) : Chamber := { c with waitSince := c.waitSince.map fun w => { w with since := w.since + d } }

theorem perChamber_hold : PerChamber State.holdChamber (fun st _ => if st = 2 then 5 else st)
    (fun st c => if st = 2 then { c with savedState := 2 } else c) :=
  perChamber_ite (· = 2) (fun _ _ => 5) (fun _ c => { c with savedState := 2 })

theorem perChamber_unhold (d : Nat) : PerChamber (State.unholdChamber d) (fun st c => if st = 5 then c.savedState % 8 else st)
    (fun st c => if st = 5 then { c.waitsLonger d with savedState := 0 } else c.waitsLonger d) :=
  (perChamber_ite (· = 5) (fun _ c => c.savedState) (fun _ c => { c with savedState := 0 })).after (Chamber.waitsLonger d)

theorem perChamber_wake : PerChamber State.wakeChamber (fun st c => if st = 6 then c.savedState % 8 else st)
    (fun st c => if st = 6 then { c with savedState := 0 } else c) :=
  perChamber_ite (· = 6) (fun _ c => c.savedState) (fun _ c => { c with savedState := 0 })

/-- An idle or halted chamber reports DOZE (R453). -/
def State.restChamber (s : State) (n : Nat) : State :=
  if s.chState n = 1 ∨ s.chState n = 4 then
    let old := s.chState n
    (s.put (Reg.CHn_STATUS_STATE n) 6).modCh n fun c => { c with savedState := old }
  else s

theorem perChamber_rest : PerChamber State.restChamber (fun st _ => if st = 1 ∨ st = 4 then 6 else st)
    (fun st c => if st = 1 ∨ st = 4 then { c with savedState := st } else c) :=
  perChamber_ite (fun st => st = 1 ∨ st = 4) (fun _ _ => 6) (fun st c => { c with savedState := st })

/-! ## Brownout Hold (R456 to R458, R461) -/

theorem sixteenRecent_iff (s : State) : s.sixteenRecent = true ↔ ∃ c, s.dips[15]? = some c ∧ s.cycle - c < 1700000000 := by
  unfold State.sixteenRecent
  cases s.dips[15]? with
  | none => simp
  | some c =>
    simp only [Option.some.injEq, exists_eq_left', decide_eq_true_eq]
    rfl

/-- A dip: every running chamber is held, and nothing else of the device. -/
def State.dip (s : State) (mv : Nat) : State :=
  (List.range 28).foldl State.holdChamber
    (State.put { s with vddMv := mv, holdSince := s.cycle, dips := (s.cycle :: s.dips).take 16 } Reg.PCR_PSTATE_HOLD 1)

theorem dip_all (s : State) (mv : Nat) :
    State.AllChambers (State.put { s with vddMv := mv, holdSince := s.cycle, dips := (s.cycle :: s.dips).take 16 } Reg.PCR_PSTATE_HOLD 1) (s.dip mv)
      (List.range 28) (fun st _ => if st = 2 then 5 else st) (fun st c => if st = 2 then { c with savedState := 2 } else c) :=
  allChambers_foldl perChamber_hold List.nodup_range _

theorem dip_state (s : State) (mv : Nat) {n : Nat} (hn : n < 28) : (s.dip mv).chState n = if s.chState n = 2 then 5 else s.chState n := by
  refine ((dip_all s mv).state hn).trans ?_
  have hkey : (Reg.CHn_STATUS_STATE n).key ≠ Reg.PCR_PSTATE_HOLD.key := by rw [Reg.CHn_STATUS_STATE_key, Reg.PCR_PSTATE_HOLD_key]; omega
  have hput : ∀ u : State, (u.put Reg.PCR_PSTATE_HOLD 1).chState n = u.chState n := fun u => State.get_put_ne hkey
  rw [hput]
  rfl

theorem dip_get (s : State) (mv : Nat) {f : FieldRef} (hf : f.key / 64 < 0x1000000 ∨ 0x2C00000 ≤ f.key / 64) (hne : f.key ≠ Reg.PCR_PSTATE_HOLD.key) :
    (s.dip mv).get f = s.get f := ((dip_all s mv).get hf).trans (State.get_put_ne hne)

theorem dip_held (s : State) (mv : Nat) : (s.dip mv).get Reg.PCR_PSTATE_HOLD = 1 := ((dip_all s mv).get (by decide)).trans State.get_put_eq

theorem dip_eq (s : State) (mv : Nat) : s.dip mv = { s with
    fields := (s.dip mv).fields, chambers := (s.dip mv).chambers, vddMv := mv, holdSince := s.cycle, dips := (s.cycle :: s.dips).take 16 } :=
  (dip_all s mv).1

theorem dipStart_high (s : State) {mv : BitVec 16} (h : 705 ≤ mv.toNat) : exec (.dipStart mv) s = .next s :=
  congrArg Host.Outcome.next (if_pos h)

theorem dipStart_held {s : State} {mv : BitVec 16} (h : mv.toNat < 705) (hs : s.held = true) :
    exec (.dipStart mv) s = .next { s with vddMv := mv.toNat } :=
  congrArg Host.Outcome.next ((if_neg (Nat.not_le.mpr h)).trans (if_pos hs))

theorem dipStart_holds {s : State} {mv : BitVec 16} (h : mv.toNat < 705) (hs : s.held = false) :
    exec (.dipStart mv) s = .next (if s.sixteenRecent then ((s.dip mv.toNat).put Reg.PCR_BROWN_COUNT_LATCHED 1).logErr { sev := 3, kind := 14, source := 14 }
      else s.dip mv.toNat) := by
  change execDipStart mv s = _
  rw [execDipStart, if_neg (Nat.not_le.mpr h : ¬warnMv ≤ mv.toNat), if_neg (by rw [hs]; decide)]
  rfl

/-- Hold is latched, besides. -/
theorem latchHold_does (u : State) (e : LogEntry) :
    let t := (u.put Reg.PCR_BROWN_COUNT_LATCHED 1).logErr e
    t.get Reg.PCR_BROWN_COUNT_LATCHED = 1 ∧ t.get Reg.ERR_STATUS_WRITTEN = (u.get Reg.ERR_STATUS_WRITTEN + 1) % 2 ^ 32 ∧
    t.get Reg.PCR_PSTATE_HOLD = u.get Reg.PCR_PSTATE_HOLD ∧ (∀ n < 28, t.chState n = u.chState n) ∧ t = { u with fields := t.fields, irq := t.irq } := by
  refine ⟨(logErr_get (by decide)).trans State.get_put_eq, ?_, ?_, fun n hn => ?_, logErr_eq _ _⟩
  · rw [logErr_written, State.get_put_ne (by decide)]
  · rw [logErr_get (by decide), State.get_put_ne (by decide)]
  · refine (logErr_get ?_).trans (State.get_put_ne ?_)
    · rw [Reg.CHn_STATUS_STATE_key]; omega
    · rw [Reg.CHn_STATUS_STATE_key, Reg.PCR_BROWN_COUNT_LATCHED_key]; omega

theorem dipStart_does {s : State} {mv : BitVec 16} (h : mv.toNat < 705) (hs : s.held = false) : Does (.dipStart mv) s fun t =>
    let latch := ∃ c, s.dips[15]? = some c ∧ s.cycle - c < 1700000000
    t.held = true ∧ t.vddMv = mv.toNat ∧ t.holdSince = s.cycle ∧ t.dips = (s.cycle :: s.dips).take 16 ∧
    (∀ n < 28, t.chState n = if s.chState n = 2 then 5 else s.chState n) ∧
    (latch → t.get Reg.PCR_BROWN_COUNT_LATCHED = 1 ∧ t.get Reg.ERR_STATUS_WRITTEN = (s.get Reg.ERR_STATUS_WRITTEN + 1) % 2 ^ 32) ∧
    (¬latch → t.get Reg.PCR_BROWN_COUNT_LATCHED = s.get Reg.PCR_BROWN_COUNT_LATCHED ∧ t.irq = s.irq) ∧
    t = { s with fields := t.fields, chambers := t.chambers, irq := t.irq, vddMv := t.vddMv, holdSince := t.holdSince, dips := t.dips } := by
  refine ⟨_, dipStart_holds h hs, ?_⟩
  have heq := dip_eq s mv.toNat
  have hstate := fun n => dip_state s mv.toNat (n := n)
  beta_reduce
  intro latch
  have hlatch : s.sixteenRecent = true ↔ latch := sixteenRecent_iff s
  by_cases hl : latch
  · rw [if_pos (hlatch.mpr hl)]
    obtain ⟨h1, h2, h3, h4, h5⟩ := latchHold_does (s.dip mv.toNat) { sev := 3, kind := 14, source := 14 }
    rw [dip_held] at h3
    rw [dip_get s _ (by decide) (by decide)] at h2
    generalize ((s.dip mv.toNat).put Reg.PCR_BROWN_COUNT_LATCHED 1).logErr { sev := 3, kind := 14, source := 14 } = t at h1 h2 h3 h4 h5 ⊢
    rw [heq] at h5
    refine ⟨by rw [State.held, flag_eq, h3]; rfl, by rw [h5], by rw [h5], by rw [h5], fun n hn => (h4 n hn).trans (hstate n hn), fun _ => ⟨h1, h2⟩,
      fun hc => absurd hl hc, ?_⟩
    conv_lhs => rw [h5]
    rw [h5]
  · rw [if_neg fun hc => hl (hlatch.mp hc)]
    have hheld := dip_held s mv.toNat
    have hget := dip_get s mv.toNat (f := Reg.PCR_BROWN_COUNT_LATCHED) (by decide) (by decide)
    generalize s.dip mv.toNat = t at heq hstate hheld hget ⊢
    refine ⟨by rw [State.held, flag_eq, hheld]; rfl, by rw [heq], by rw [heq], by rw [heq], hstate, fun hc => absurd hc hl,
      fun _ => ⟨hget, by rw [heq]⟩, ?_⟩
    conv_lhs => rw [heq]
    rw [heq]

/-- Every chamber as at the beginning of a Hold (R457, R461). -/
def State.Back (s t : State) : Prop :=
  t.held = false ∧ t.mem = s.mem ∧ ∀ n < 28, t.chState n = (if s.chState n = 5 then (s.ch n).savedState % 8 else s.chState n) ∧
    (t.ch n).waitSince = (s.ch n).waitSince.map fun w => { w with since := w.since + (s.cycle - s.holdSince) }

/-- Chambers let go by the end of a Hold. -/
def State.unheld (s : State) : State := (List.range 28).foldl (State.unholdChamber (s.cycle - s.holdSince)) (s.put Reg.PCR_PSTATE_HOLD 0)

theorem unheld_all (s : State) : (s.put Reg.PCR_PSTATE_HOLD 0).AllChambers s.unheld (List.range 28) (fun st c => if st = 5 then c.savedState % 8 else st)
    (fun st c => if st = 5 then { c.waitsLonger (s.cycle - s.holdSince) with savedState := 0 } else c.waitsLonger (s.cycle - s.holdSince)) :=
  allChambers_foldl (perChamber_unhold _) List.nodup_range _

section afterHold

variable (u : State) (d : Nat)

/-- Nothing waits for the end of a Hold any more, and times are lengthened by it. -/
def State.afterHold : State := State.shiftTimes { u with deferred := [] } d

theorem afterHold_get (f : FieldRef) : (u.afterHold d).get f = u.get f := rfl
theorem afterHold_ch (n : Nat) : (u.afterHold d).ch n = u.ch n := rfl
theorem afterHold_mem : (u.afterHold d).mem = u.mem := rfl
theorem afterHold_dips : (u.afterHold d).dips = u.dips := rfl

end afterHold

theorem resume_eq {s : State} (h : s.deferred = []) :
    s.resume = s.unheld.afterHold (s.cycle - s.holdSince) := by
  unfold State.resume
  rw [h]
  rfl

theorem chState_put_pcr {s : State} {f : FieldRef} (hf : f.key / 64 < 0x1000000 ∨ 0x2C00000 ≤ f.key / 64) (v : Nat) {n : Nat} (hn : n < 28) :
    (s.put f v).chState n = s.chState n := State.get_put_ne (by rw [Reg.CHn_STATUS_STATE_key]; omega)

theorem resume_does {s : State} (h : s.deferred = []) : s.Back s.resume ∧ s.resume.dips = s.dips ∧
    ∀ f : FieldRef, f.key / 64 < 0x1000000 ∨ 0x2C00000 ≤ f.key / 64 → f.key ≠ Reg.PCR_PSTATE_HOLD.key → s.resume.get f = s.get f := by
  have hall := unheld_all s
  have hget : ∀ f : FieldRef, s.resume.get f = s.unheld.get f := fun f => by rw [resume_eq h, afterHold_get]
  have hch : ∀ n, s.resume.ch n = s.unheld.ch n := fun n => by rw [resume_eq h, afterHold_ch]
  refine ⟨⟨?_, ?_, fun n hn => ⟨?_, ?_⟩⟩, ?_, fun f hf hne => ?_⟩
  · rw [State.held, flag_eq, hget, hall.get (by decide), State.get_put_eq]
    rfl
  · rw [resume_eq h, afterHold_mem, hall.1, State.put_mem]
  · refine ((hget _).trans (hall.state hn)).trans ?_
    rw [chState_put_pcr (by decide) 0 hn, State.ch_put]
  · rw [hch, hall.chamber hn, State.ch_put]
    split <;> rfl
  · rw [resume_eq h, afterHold_dips, hall.1, State.put_dips]
  · rw [hget, hall.get hf, State.get_put_ne hne]

/-- What a Hold's end puts back depends on chambers, memory and times alone. -/
theorem State.Back.of_same {s u t : State} (h : u.Back t) (hmem : u.mem = s.mem) (hcycle : u.cycle = s.cycle) (hsince : u.holdSince = s.holdSince)
    (hch : ∀ n < 28, u.chState n = s.chState n ∧ u.ch n = s.ch n) : s.Back t := by
  obtain ⟨h1, h2, h3⟩ := h
  refine ⟨h1, h2.trans hmem, fun n hn => ?_⟩
  obtain ⟨e1, e2⟩ := hch n hn
  have := h3 n hn
  rwa [e1, e2, hcycle, hsince] at this

section dipEnd

variable {s : State} {minMv mv : BitVec 16}

theorem dipEnd_quiet (h : s.held = false ∨ mv.toNat ≤ 720) : exec (.dipEnd minMv mv) s = .next s := by
  refine congrArg Host.Outcome.next (if_pos ?_)
  rw [Bool.or_eq_true, Bool.not_eq_true', decide_eq_true_eq]
  exact h

/-- A dip that ends: its lowest level is kept. -/
def State.dipOver (s : State) (minMv mv : Nat) : State := { s.put Reg.PCR_BROWN_COUNT_MIN_MV minMv with vddMv := mv }

theorem dipEnd_ends (h : s.held = true) (hmv : 720 < mv.toNat) : exec (.dipEnd minMv mv) s =
    .next (if (s.dipOver minMv.toNat mv.toNat).flag Reg.PCR_BROWN_COUNT_LATCHED then s.dipOver minMv.toNat mv.toNat
      else ((s.dipOver minMv.toNat mv.toNat).countSat Reg.PCR_BROWN_COUNT_COUNT 1).resume) := by
  refine congrArg Host.Outcome.next (if_neg ?_)
  rw [Bool.or_eq_true, Bool.not_eq_true', decide_eq_true_eq, h]
  exact not_or.mpr ⟨by decide, Nat.not_le.mpr hmv⟩

theorem dipOver_latched (s : State) (a b : Nat) :
    (s.dipOver a b).flag Reg.PCR_BROWN_COUNT_LATCHED = true ↔ s.get Reg.PCR_BROWN_COUNT_LATCHED = 1 := by
  have hget : (s.dipOver a b).get Reg.PCR_BROWN_COUNT_LATCHED = s.get Reg.PCR_BROWN_COUNT_LATCHED :=
    State.get_put_ne (s := s) (f := Reg.PCR_BROWN_COUNT_MIN_MV) (by decide)
  rw [flag_eq, hget, beq_iff_eq]

theorem dipEnd_latched (h : s.held = true) (hmv : 720 < mv.toNat) (hl : s.get Reg.PCR_BROWN_COUNT_LATCHED = 1) : Does (.dipEnd minMv mv) s fun t =>
    t.get Reg.PCR_BROWN_COUNT_MIN_MV = minMv.toNat ∧ s.KeepsFields t [Reg.PCR_BROWN_COUNT_MIN_MV] ∧ t = { s with fields := t.fields, vddMv := mv.toNat } := by
  refine ⟨_, (dipEnd_ends h hmv).trans (congrArg Host.Outcome.next (if_pos ((dipOver_latched s _ _).mpr hl))), ?_, ?_, rfl⟩
  · exact (State.get_put_eq (s := s) (f := Reg.PCR_BROWN_COUNT_MIN_MV)).trans (Nat.mod_eq_of_lt minMv.isLt)
  · exact ((keeps_refl s _).put (List.mem_singleton_self _)).of_fields rfl rfl rfl

theorem dipEnd_resumes (h : s.held = true) (hmv : 720 < mv.toNat) (hl : ¬s.get Reg.PCR_BROWN_COUNT_LATCHED = 1) (hd : s.deferred = []) :
    Does (.dipEnd minMv mv) s fun t => s.Back t ∧ t.get Reg.PCR_BROWN_COUNT_MIN_MV = minMv.toNat ∧
      t.get Reg.PCR_BROWN_COUNT_COUNT = min (s.get Reg.PCR_BROWN_COUNT_COUNT + 1) (2 ^ 32 - 1) := by
  refine ⟨_, (dipEnd_ends h hmv).trans (congrArg Host.Outcome.next (if_neg fun hc => hl ((dipOver_latched s _ _).mp hc))), ?_⟩
  obtain ⟨hback, -, hget⟩ := resume_does (s := (s.dipOver minMv.toNat mv.toNat).countSat Reg.PCR_BROWN_COUNT_COUNT 1) hd
  refine ⟨hback.of_same rfl rfl rfl fun n hn => ⟨?_, rfl⟩, ?_, ?_⟩
  · exact (chState_put_pcr (by decide) _ hn).trans (chState_put_pcr (s := s) (f := Reg.PCR_BROWN_COUNT_MIN_MV) (by decide) _ hn)
  · rw [hget _ (by decide) (by decide)]
    exact (State.get_put_ne (by decide)).trans ((State.get_put_eq (s := s) (f := Reg.PCR_BROWN_COUNT_MIN_MV)).trans (Nat.mod_eq_of_lt minMv.isLt))
  · have hcount : (s.dipOver minMv.toNat mv.toNat).get Reg.PCR_BROWN_COUNT_COUNT = s.get Reg.PCR_BROWN_COUNT_COUNT :=
      State.get_put_ne (s := s) (f := Reg.PCR_BROWN_COUNT_MIN_MV) (by decide)
    rw [hget _ (by decide) (by decide), get_countSat, hcount]
    rfl

end dipEnd

theorem mayRelease_iff (s : State) : s.mayRelease = true ↔ s.get Reg.PCR_BROWN_COUNT_LATCHED = 1 ∧ 720 < s.vddMv := by
  rw [State.mayRelease, flag_eq, Bool.and_eq_true, beq_iff_eq, decide_eq_true_eq]
  rfl

theorem brownRelease_refused {s : State} (h : ¬(s.get Reg.PCR_BROWN_COUNT_LATCHED = 1 ∧ 720 < s.vddMv)) :
    Does .brownRelease s fun t => s.CountsGlobalViol t 0 0 0x6400020 :=
  ⟨_, congrArg Host.Outcome.next (if_neg fun hc => h ((mayRelease_iff s).mp hc)), counts_violGlb s 0 0 0x6400020 (by decide) (by decide)⟩

theorem brownRelease_resumes {s : State} (h : s.get Reg.PCR_BROWN_COUNT_LATCHED = 1) (hmv : 720 < s.vddMv) (hd : s.deferred = []) :
    Does .brownRelease s fun t => s.Back t ∧ t.dips = [] ∧ t.get Reg.PCR_BROWN_COUNT_LATCHED = 0 := by
  refine ⟨_, congrArg Host.Outcome.next (if_pos ((mayRelease_iff s).mpr ⟨h, hmv⟩)), ?_⟩
  obtain ⟨hback, hdips, hget⟩ := resume_does (s := State.put { s with dips := [] } Reg.PCR_BROWN_COUNT_LATCHED 0) hd
  refine ⟨hback.of_same rfl rfl rfl fun n hn => ⟨chState_put_pcr (by decide) _ hn, rfl⟩, hdips, ?_⟩
  exact (hget _ (by decide) (by decide)).trans State.get_put_eq

/-! ## Doze and Keep (R453 to R455) -/

/-- Every chamber as before Doze or Keep. -/
def State.Wakes (s t : State) : Prop :=
  t.get Reg.PCR_PSTATE_STATE = 0 ∧ t.mem = s.mem ∧ ∀ n < 28, t.chState n = if s.chState n = 6 then (s.ch n).savedState % 8 else s.chState n

/-- Chambers that Doze and Keep leave. -/
def State.awakened (s : State) : State :=
  (List.range 28).foldl State.wakeChamber (State.put { s with dozeIdle := 0, keepIdle := 0 } Reg.PCR_PSTATE_STATE 0)

theorem awakened_wakes (s : State) : s.Wakes s.awakened := by
  have hall : (State.put { s with dozeIdle := 0, keepIdle := 0 } Reg.PCR_PSTATE_STATE 0).AllChambers s.awakened (List.range 28) _ _ :=
    allChambers_foldl perChamber_wake List.nodup_range _
  refine ⟨(hall.get (by decide)).trans State.get_put_eq, ?_, fun n hn => ?_⟩
  · rw [hall.1, State.put_mem]
  · rw [hall.state hn, chState_put_pcr (by decide) _ hn, State.ch_put]
    rfl

theorem wakePorts_keep (l : List Nat) (hl : ∀ n ∈ l, n < 8) : ∀ s : State, (l.foldl State.wakePort s).mem = s.mem ∧
    ∀ f : FieldRef, (∀ n < 8, f.key ≠ (Reg.HGPn_STATUS_STATE n).key) → (l.foldl State.wakePort s).get f = s.get f := by
  induction l with
  | nil => exact fun s => ⟨rfl, fun _ _ => rfl⟩
  | cons m l ih =>
    intro s
    obtain ⟨hmem, hget⟩ := ih (fun n hn => hl n (List.mem_cons_of_mem _ hn)) (s.wakePort m)
    have hm := hl m List.mem_cons_self
    refine ⟨hmem.trans ?_, fun f hf => (hget f hf).trans ?_⟩
    · unfold State.wakePort
      split <;> rfl
    · unfold State.wakePort
      split
      · exact State.get_put_ne (hf m hm)
      · rfl

theorem toRun_wakes (s : State) : s.Wakes s.toRun := by
  have hchambers := awakened_wakes s
  have hports := wakePorts_keep (List.range 8) (fun n hn => List.mem_range.mp hn) s.awakened
  have heq : s.toRun = if (s.get Reg.PCR_PSTATE_STATE == 2) = true then (List.range 8).foldl State.wakePort s.awakened else s.awakened := rfl
  rw [heq]
  generalize s.awakened = u at hchambers hports ⊢
  obtain ⟨h1, h2, h3⟩ := hchambers
  obtain ⟨hmem, hget⟩ := hports
  split
  · refine ⟨(hget _ fun n hn => ?_).trans h1, hmem.trans h2, fun n hn => (hget _ fun m hm => ?_).trans (h3 n hn)⟩
    · rw [Reg.PCR_PSTATE_STATE_key, Reg.HGPn_STATUS_STATE_key]; omega
    · rw [Reg.CHn_STATUS_STATE_key, Reg.HGPn_STATUS_STATE_key]; omega
  · exact ⟨h1, h2, h3⟩

theorem wake_asleep {s : State} (h : s.get Reg.PCR_PSTATE_STATE ≠ 0) (hs : s.held = false) : s.wake = s.toRun :=
  (if_neg h).trans (if_neg fun hc => absurd (hc.symm.trans hs) (by decide))

theorem wake_held {s : State} (h : s.get Reg.PCR_PSTATE_STATE ≠ 0) (hs : s.held = true) : s.wake = { s with deferred := s.deferred ++ [.wake] } :=
  (if_neg h).trans (if_pos hs)

/-- Every idle or halted chamber reports DOZE. -/
def State.Rests (s t : State) : Prop := ∀ n < 28, t.chState n = if s.chState n = 1 ∨ s.chState n = 4 then 6 else s.chState n

/-- The chambers rest in a power state. -/
def State.rested (s : State) (st : Nat) : State := (List.range 28).foldl State.restChamber (s.put Reg.PCR_PSTATE_STATE st)

theorem rested_all (s : State) (st : Nat) : (s.put Reg.PCR_PSTATE_STATE st).AllChambers (s.rested st) (List.range 28)
    (fun st _ => if st = 1 ∨ st = 4 then 6 else st) (fun st c => if st = 1 ∨ st = 4 then { c with savedState := st } else c) :=
  allChambers_foldl perChamber_rest List.nodup_range _

theorem rested_does (s : State) (st : Nat) : (s.rested st).get Reg.PCR_PSTATE_STATE = st % 4 ∧ s.Rests (s.rested st) ∧
    s.rested st = { s with fields := (s.rested st).fields, chambers := (s.rested st).chambers } := by
  have hall := rested_all s st
  refine ⟨(hall.get (by decide)).trans State.get_put_eq, fun n hn => ?_, hall.1⟩
  rw [hall.state hn, chState_put_pcr (by decide) _ hn]

theorem enterPower_doze (s : State) : s.enterPower 1 = s.rested 1 := rfl

/-- A port reset and its arbiter cleared. -/
def State.downPort (s : State) (n : Nat) : State := (s.resetPort n).clearArb (96 + n)

theorem enterPower_keep (s : State) : s.enterPower 2 = (List.range 8).foldl State.downPort (s.rested 2) := rfl

/-! ## Ports in Keep (R455) -/

/-- Keys of the error log, of a port's losses and of its sent payload. -/
def PortKeys (k : Nat) : Prop :=
  LogKeys k ∨ ∃ m < 8, k = (Reg.HGPn_LOST_HOPS m).key ∨ k = (Reg.HGPn_LOST_ROUTE m).key ∨ k = (Reg.HGPn_PAYLOAD_TX_MIB m).key

/-- Packets routed, sent or lost where no collective job is in progress: chambers and arbiters stay. -/
def State.PortWork (s t : State) : Prop := State.Within PortKeys s t ∧ t.chambers = s.chambers ∧ t.arbs = s.arbs ∧ t.cuJobs = s.cuJobs

section portWork

variable {s t u : State}

theorem State.PortWork.refl (s : State) : s.PortWork s := ⟨.refl _ s, rfl, rfl, rfl⟩

theorem State.PortWork.trans (h : s.PortWork t) (k : t.PortWork u) : s.PortWork u := by
  obtain ⟨h1, h2, h3, h4⟩ := h
  obtain ⟨k1, k2, k3, k4⟩ := k
  exact ⟨h1.trans k1, k2.trans h2, k3.trans h3, k4.trans h4⟩

theorem portWork_count {f : FieldRef} (v : Nat) (h : PortKeys f.key) : s.PortWork (s.count f v) := ⟨within_count h, rfl, rfl, rfl⟩

theorem portWork_setPort (n : Nat) (p : Port) : s.PortWork (s.setPort n p) := ⟨within_setPort, rfl, rfl, rfl⟩

theorem portWork_oweCredit (n vl : Nat) : s.PortWork (s.oweCredit n vl) := portWork_setPort _ _

theorem portWork_logErr (e : LogEntry) : s.PortWork (s.logErr e) :=
  ⟨(within_logErr_log e).mono fun _ => .inl, by rw [logErr_eq], by rw [logErr_eq], by rw [logErr_eq]⟩

theorem portWork_lost (l : List Packet) : s.PortWork { s with lost := l } := ⟨within_lost, rfl, rfl, rfl⟩

theorem portWork_foldl {α : Type} {f : State → α → State} {l : List α} (h : ∀ (s : State) x, x ∈ l → s.cuJobs = [] → s.PortWork (f s x)) :
    ∀ {s : State}, s.cuJobs = [] → s.PortWork (l.foldl f s) := by
  induction l with
  | nil => exact fun _ => .refl _
  | cons x l ih =>
    intro s hs
    have hx := h s x List.mem_cons_self hs
    exact hx.trans (ih (fun s y hy => h s y (List.mem_cons_of_mem _ hy)) (hx.2.2.2.trans hs))

variable (hs : s.cuJobs = [])

include hs

theorem checkCuJob_none (id : Nat) : s.checkCuJob id = s := by
  unfold State.checkCuJob
  rw [hs]
  exact ite_self s

theorem portWork_endTx (x : Nat) : s.PortWork (s.endTx x) := by
  unfold State.endTx
  split
  · rw [checkCuJob_none (by exact hs)]
    exact ⟨⟨rfl, rfl, fun _ _ => rfl⟩, rfl, rfl, rfl⟩
  · exact .refl s

theorem portWork_losePacket {m : Nat} (hm : m < 8) (hops : Bool) (k : Packet) : s.PortWork (s.losePacket m hops k) := by
  unfold State.losePacket
  extract_lets s1 s2 s3
  have h1 : s.PortWork s1 := portWork_count _ (.inr ⟨m, hm, by cases hops with | true => exact .inl rfl | false => exact .inr (.inl rfl)⟩)
  have h3 : s.PortWork s3 := (h1.trans (portWork_logErr _)).trans (portWork_lost _)
  clear_value s3
  have hnone : s3.cuJobs = [] := h3.2.2.2.trans hs
  split
  · split
    next x _ =>
      have hmod : s3.PortWork (s3.modCuJob x.job fun j => { j with lost := true }) :=
        ⟨⟨rfl, rfl, fun _ _ => rfl⟩, rfl, rfl, by rw [State.modCuJob, hnone]; rfl⟩
      exact (h3.trans hmod).trans (portWork_endTx (hmod.2.2.2.trans hnone) _)
    · exact h3
  · exact h3

theorem portWork_loseVia (k : Packet) (i : Option Nat) : s.PortWork (s.loseVia k i) := by
  unfold State.loseVia
  extract_lets u m
  have hu : s.PortWork u := by
    unfold u
    split
    · exact portWork_oweCredit _ _
    · exact .refl s
  have hp : ((List.range 8).find? fun n => bit m n).getD 0 < 8 := by
    cases hf : (List.range 8).find? fun n => bit m n with
    | none => decide
    | some x => exact List.mem_range.mp (List.mem_of_find?_eq_some hf)
  exact hu.trans (portWork_losePacket (hu.2.2.2.trans hs) hp false k)

theorem portWork_placeAgain (e : Packet × Option Nat) : s.PortWork (s.placeAgain e) := by
  unfold State.placeAgain
  split
  · exact portWork_setPort _ _
  · exact portWork_loseVia hs _ _

theorem portWork_loseIngress {n : Nat} (hn : n < 8) : s.PortWork (s.loseIngress n) :=
  portWork_foldl (fun u m _ hu => (portWork_setPort (s := u) m _).trans
    (portWork_foldl (fun _ e _ hv => portWork_losePacket hv hn false e.1) (by exact hu))) hs

theorem portWork_pump {m : Nat} (hm : m < 8) : s.PortWork (s.pump m) := by
  unfold State.pump
  extract_lets p
  generalize pumpWaiting s.held p.waiting [] { p with waiting := [] } [] = r
  obtain ⟨w, q, freed⟩ := r
  dsimp only
  have hcount : ∀ (r : Port) v, s.PortWork ((s.setPort m r).count (Reg.HGPn_PAYLOAD_TX_MIB m) v) := fun r v =>
    (portWork_setPort m r).trans (portWork_count v (.inr ⟨m, hm, .inr (.inr rfl)⟩))
  refine (hcount _ _).trans (portWork_foldl (fun u e _ _ => ?_) hs)
  split
  · exact portWork_oweCredit _ _
  · exact .refl u

theorem portWork_reroute {n : Nat} (hn : n < 8) : s.PortWork (s.reroute n) := by
  unfold State.reroute
  extract_lets s1 p pkts q s2
  have h2 : s.PortWork s2 := (portWork_loseIngress hs hn).trans (portWork_setPort _ _)
  clear_value s2
  have h3 : s.PortWork (pkts.reverse.foldl State.placeAgain s2) :=
    h2.trans (portWork_foldl (fun _ e _ hu => portWork_placeAgain hu e) (h2.2.2.2.trans hs))
  exact h3.trans (portWork_foldl (fun _ m hm hu => portWork_pump hu (List.mem_range.mp hm)) (h3.2.2.2.trans hs))

end portWork

/-- Keys that the reset of a port may write: those of its traffic, and its STATUS. -/
def ResetPortKeys (n k : Nat) : Prop := PortKeys k ∨ k / 64 = 0x4000008 + 0x40000 * n

/-- A field outside a port's STATUS that no traffic counts in. -/
theorem not_resetPortKeys {n k : Nat} (hstatus : k / 64 ≠ 0x4000008 + 0x40000 * n) (hlog : k < 0x6800000 * 64 ∨ 0x6820000 * 64 ≤ k)
    (hlost : ∀ m < 8, k / 64 ≠ 0x4000018 + 0x40000 * m ∧ k / 64 ≠ 0x4000020 + 0x40000 * m) : ¬ResetPortKeys n k := by
  rintro ((hl | ⟨m, hm, hk⟩) | hk)
  · rw [LogKeys] at hl
    omega
  · have := hlost m hm
    rw [Reg.HGPn_LOST_HOPS_key, Reg.HGPn_LOST_ROUTE_key, Reg.HGPn_PAYLOAD_TX_MIB_key] at hk
    omega
  · exact hstatus hk

section downPort

variable {s : State} {n : Nat} (hs : s.cuJobs = []) (hn : n < 8) (hkeep : s.get Reg.PCR_PSTATE_STATE = 2)

/-- A port dropped, its STATUS at reset. -/
def State.dropPort (s : State) (n : Nat) : State :=
  let u := ((s.put (Reg.HGPn_STATUS_STATE n) 0).reroute n).puts [(Reg.HGPn_STATUS_PEER_NODE n, 0), (Reg.HGPn_STATUS_PEER_PORT n, 0),
    (Reg.HGPn_STATUS_CAUSE n, 0), (Reg.HGPn_STATUS_HIGH_LANES n, 0)]
  u.setPort n { u.port n with fails := 0, errs := false }

theorem resetPort_eq (s : State) (n : Nat) : s.resetPort n =
    if (s.dropPort n).flag (Reg.HGPn_CFG_ENABLE n) && (s.dropPort n).get (Reg.HGPn_CFG_REACH n) != 3 && !(s.dropPort n).portOff n then
      (s.dropPort n).put (Reg.HGPn_STATUS_STATE n) 1 else s.dropPort n := by
  unfold State.resetPort State.dropPort
  rfl

include hs hn

theorem dropPort_within : State.Within (ResetPortKeys n) s (s.dropPort n) ∧ (s.dropPort n).chambers = s.chambers ∧ (s.dropPort n).arbs = s.arbs ∧
    (s.dropPort n).cuJobs = [] := by
  obtain ⟨h1, h2, h3, h4⟩ := portWork_reroute (s := s.put (Reg.HGPn_STATUS_STATE n) 0) hs hn
  have hstart : State.Within (ResetPortKeys n) s (s.put (Reg.HGPn_STATUS_STATE n) 0) := within_put (.inr (by rw [Reg.HGPn_STATUS_STATE_key]; omega))
  rw [State.dropPort]
  generalize (s.put (Reg.HGPn_STATUS_STATE n) 0).reroute n = u at h1 h2 h3 h4 ⊢
  refine ⟨(hstart.trans (h1.mono fun _ => .inl)).trans ((within_puts fun e he => .inr ?_).trans within_setPort), h2, h3, h4.trans hs⟩
  simp only [List.mem_cons, List.not_mem_nil, or_false] at he
  obtain rfl | rfl | rfl | rfl := he
  · show (Reg.HGPn_STATUS_PEER_NODE n).key / 64 = _
    rw [Reg.HGPn_STATUS_PEER_NODE_key]; omega
  · show (Reg.HGPn_STATUS_PEER_PORT n).key / 64 = _
    rw [Reg.HGPn_STATUS_PEER_PORT_key]; omega
  · show (Reg.HGPn_STATUS_CAUSE n).key / 64 = _
    rw [Reg.HGPn_STATUS_CAUSE_key]; omega
  · show (Reg.HGPn_STATUS_HIGH_LANES n).key / 64 = _
    rw [Reg.HGPn_STATUS_HIGH_LANES_key]; omega

theorem dropPort_state : (s.dropPort n).get (Reg.HGPn_STATUS_STATE n) = 0 := by
  obtain ⟨h1, -, -, -⟩ := portWork_reroute (s := s.put (Reg.HGPn_STATUS_STATE n) 0) hs hn
  have hget : ((s.put (Reg.HGPn_STATUS_STATE n) 0).reroute n).get (Reg.HGPn_STATUS_STATE n) = 0 := by
    rw [h1.get, State.get_put_eq]
    · exact Nat.zero_mod _
    · refine fun hk => not_resetPortKeys (n := 8) ?_ ?_ (fun m hm => ?_) (.inl hk) <;> rw [Reg.HGPn_STATUS_STATE_key] <;> omega
  rw [State.dropPort]
  generalize (s.put (Reg.HGPn_STATUS_STATE n) 0).reroute n = u at hget ⊢
  refine Eq.trans ?_ hget
  refine (State.get_put_ne ?_).trans ((State.get_put_ne ?_).trans ((State.get_put_ne ?_).trans (State.get_put_ne ?_)))
  · rw [Reg.HGPn_STATUS_STATE_key, Reg.HGPn_STATUS_HIGH_LANES_key]; omega
  · rw [Reg.HGPn_STATUS_STATE_key, Reg.HGPn_STATUS_CAUSE_key]; omega
  · rw [Reg.HGPn_STATUS_STATE_key, Reg.HGPn_STATUS_PEER_PORT_key]; omega
  · rw [Reg.HGPn_STATUS_STATE_key, Reg.HGPn_STATUS_PEER_NODE_key]; omega

theorem dropPort_power : (s.dropPort n).get Reg.PCR_PSTATE_STATE = s.get Reg.PCR_PSTATE_STATE := by
  refine (dropPort_within hs hn).1.get (not_resetPortKeys ?_ (by decide) fun m hm => ⟨?_, ?_⟩) <;> rw [Reg.PCR_PSTATE_STATE_key] <;> omega

include hkeep

/-- In Keep a port that is reset stays off. -/
theorem downPort_eq : s.downPort n = (s.dropPort n).clearArb (96 + n) := by
  have hoff : (s.dropPort n).portOff n = true := by
    simp [State.portOff, dropPort_power hs hn, hkeep]
  rw [State.downPort, resetPort_eq, hoff, Bool.not_true, Bool.and_false, if_neg Bool.false_ne_true]

theorem downPort_does : (s.downPort n).cuJobs = [] ∧ (s.downPort n).get Reg.PCR_PSTATE_STATE = 2 ∧
    (∀ m < 28, (s.downPort n).chState m = s.chState m) ∧ (s.downPort n).get (Reg.HGPn_STATUS_STATE n) = 0 ∧
    (∀ m < 8, m ≠ n → (s.downPort n).get (Reg.HGPn_STATUS_STATE m) = s.get (Reg.HGPn_STATUS_STATE m)) ∧
    ∀ a, (s.downPort n).arb a =
      if a = 96 + n then { s.arb a with credit := Vector.replicate 8 0, age := Vector.replicate 8 0 } else s.arb a := by
  obtain ⟨hwithin, -, harbs, hjobs⟩ := dropPort_within hs hn
  have hstate := dropPort_state hs hn
  have hpower := dropPort_power hs hn
  rw [downPort_eq hs hn hkeep]
  generalize s.dropPort n = u at hwithin harbs hjobs hstate hpower ⊢
  have harb : ∀ a, u.arb a = s.arb a := fun a => by rw [State.arb, harbs]; rfl
  refine ⟨hjobs, hpower.trans hkeep, fun m hm => hwithin.get (not_resetPortKeys ?_ ?_ fun j hj => ⟨?_, ?_⟩), hstate,
    fun m hm hne => hwithin.get (not_resetPortKeys ?_ ?_ fun j hj => ⟨?_, ?_⟩), fun a => ?_⟩
  iterate 4 rw [Reg.CHn_STATUS_STATE_key]; omega
  iterate 4 rw [Reg.HGPn_STATUS_STATE_key]; omega
  rw [State.clearArb, State.arb_setArb, harb, harb]
  split
  next h => rw [h]
  next => rfl

end downPort

/-- Ports reset in Keep, each once. -/
theorem downPorts_does {l : List Nat} (hl : l.Nodup) (h8 : ∀ n ∈ l, n < 8) : ∀ {s : State}, s.cuJobs = [] → s.get Reg.PCR_PSTATE_STATE = 2 →
    (l.foldl State.downPort s).get Reg.PCR_PSTATE_STATE = 2 ∧ (∀ m < 28, (l.foldl State.downPort s).chState m = s.chState m) ∧
    ∀ n < 8, (n ∈ l → (l.foldl State.downPort s).get (Reg.HGPn_STATUS_STATE n) = 0 ∧
        ((l.foldl State.downPort s).arb (96 + n)).credit = Vector.replicate 8 0 ∧ ((l.foldl State.downPort s).arb (96 + n)).age = Vector.replicate 8 0) ∧
      (n ∉ l → (l.foldl State.downPort s).get (Reg.HGPn_STATUS_STATE n) = s.get (Reg.HGPn_STATUS_STATE n) ∧
        (l.foldl State.downPort s).arb (96 + n) = s.arb (96 + n)) := by
  induction l with
  | nil => exact fun _ hk => ⟨hk, fun _ _ => rfl, fun n _ => ⟨fun hn => absurd hn List.not_mem_nil, fun _ => ⟨rfl, rfl⟩⟩⟩
  | cons p l ih =>
    intro s hs hk
    obtain ⟨hp, hl⟩ := List.nodup_cons.mp hl
    obtain ⟨hjobs, hkeep, hch, hstate, hother, harb⟩ := downPort_does hs (h8 p List.mem_cons_self) hk
    rw [List.foldl_cons]
    generalize s.downPort p = u at hjobs hkeep hch hstate hother harb ⊢
    obtain ⟨tkeep, tch, tports⟩ := ih hl (fun n hn => h8 n (List.mem_cons_of_mem _ hn)) hjobs hkeep
    refine ⟨tkeep, fun m hm => (tch m hm).trans (hch m hm), fun n h8n => ⟨fun hn => ?_, fun hn => ?_⟩⟩
    · obtain rfl | hn := List.mem_cons.mp hn
      · obtain ⟨h1, h2⟩ := (tports n h8n).2 hp
        rw [h1, h2, hstate, harb, if_pos rfl]
        exact ⟨rfl, rfl, rfl⟩
      · exact (tports n h8n).1 hn
    · obtain ⟨hne, hn⟩ := not_or.mp (List.mem_cons.not.mp hn)
      obtain ⟨h1, h2⟩ := (tports n h8n).2 hn
      exact ⟨h1.trans (hother n h8n hne), h2.trans ((harb _).trans (if_neg (by omega)))⟩

theorem mayKeep_jobs {s : State} (h : s.mayKeep = true) : s.cuJobs = [] := by
  simp only [State.mayKeep, Bool.and_eq_true, List.isEmpty_iff] at h
  tauto

theorem enterPower_keep_does {s : State} (h : s.mayKeep = true) : (s.enterPower 2).get Reg.PCR_PSTATE_STATE = 2 ∧ s.Rests (s.enterPower 2) ∧
    ∀ n < 8, (s.enterPower 2).get (Reg.HGPn_STATUS_STATE n) = 0 ∧ ((s.enterPower 2).arb (96 + n)).credit = Vector.replicate 8 0 ∧
      ((s.enterPower 2).arb (96 + n)).age = Vector.replicate 8 0 := by
  obtain ⟨hstate, hrest, heq⟩ := rested_does s 2
  rw [enterPower_keep]
  generalize s.rested 2 = u at hstate hrest heq ⊢
  have hnone : s.cuJobs = [] := mayKeep_jobs h
  have hjobs : u.cuJobs = [] := by
    rw [heq]
    exact hnone
  obtain ⟨h1, h2, h3⟩ := downPorts_does List.nodup_range (fun n hn => List.mem_range.mp hn) hjobs hstate
  exact ⟨h1, fun n hn => (h2 n hn).trans (hrest n hn), fun n hn => (h3 n hn).1 (List.mem_range.mpr hn)⟩

section power

variable {s : State}

theorem dozeEntry_if (s : State) : exec .dozeEntry s = .next (if (s.get Reg.PCR_PSTATE_REQ = 1 ∨ s.get Reg.PCR_PSTATE_REQ = 2) ∧
    s.get Reg.PCR_PSTATE_STATE = 0 ∧ s.inReset = false ∧ s.mayDoze = true ∧ s.get Reg.PCR_PSTATE_IDLE_US * 1700 ≤ s.dozeIdle then s.enterOrDefer 1 else s) := by
  change execDozeEntry s = _
  rw [execDozeEntry]
  simp only [Bool.not_eq_true', State.idleCycles]

theorem keepEntry_if (s : State) : exec .keepEntry s = .next (if s.get Reg.PCR_PSTATE_REQ = 2 ∧ s.get Reg.PCR_PSTATE_STATE ≠ 2 ∧ s.inReset = false ∧
    s.mayKeep = true ∧ s.get Reg.PCR_PSTATE_IDLE_US * 1700 ≤ s.keepIdle then s.enterOrDefer 2 else s) := by
  change execKeepEntry s = _
  rw [execKeepEntry]
  simp only [Bool.not_eq_true', State.idleCycles]

theorem enterOrDefer_held (st : Nat) (h : s.held = true) : s.enterOrDefer st = { s with deferred := s.deferred ++ [.pstate st] } := if_pos h

theorem enterOrDefer_run (st : Nat) (h : s.held = false) : s.enterOrDefer st = s.enterPower st :=
  if_neg fun hc => absurd (hc.symm.trans h) (by decide)

theorem State.Wakes.of_same {u t : State} (h : u.Wakes t) (hmem : u.mem = s.mem) (hch : ∀ n < 28, u.chState n = s.chState n ∧ u.ch n = s.ch n) :
    s.Wakes t := by
  obtain ⟨h1, h2, h3⟩ := h
  refine ⟨h1, h2.trans hmem, fun n hn => ?_⟩
  obtain ⟨e1, e2⟩ := hch n hn
  have := h3 n hn
  rwa [e1, e2] at this

theorem putReq_does (s : State) (r : BitVec 2) : (s.put Reg.PCR_PSTATE_REQ r.toNat).get Reg.PCR_PSTATE_REQ = r.toNat ∧
    s.OnlyFields (s.put Reg.PCR_PSTATE_REQ r.toNat) [Reg.PCR_PSTATE_REQ] :=
  ⟨State.get_put_eq.trans (Nat.mod_eq_of_lt r.isLt), rfl, (keeps_refl s _).put (List.mem_singleton_self _)⟩

theorem putReq_power (s : State) (v : Nat) : (s.put Reg.PCR_PSTATE_REQ v).get Reg.PCR_PSTATE_STATE = s.get Reg.PCR_PSTATE_STATE :=
  State.get_put_ne (by decide)

theorem pstateRequest_quiet {r : BitVec 2} (h : r = 1 ∨ r = 2 ∨ r = 0 ∧ s.get Reg.PCR_PSTATE_STATE = 0) :
    exec (.pstateRequest r) s = .next (s.put Reg.PCR_PSTATE_REQ r.toNat) := by
  obtain rfl | rfl | ⟨rfl, h⟩ := h
  · rfl
  · rfl
  · exact congrArg Host.Outcome.next (if_pos ((putReq_power s 0).trans h))

theorem pstateRequest_wakes (h : s.get Reg.PCR_PSTATE_STATE ≠ 0) (hs : s.held = false) : Does (.pstateRequest 0) s fun t =>
    t.get Reg.PCR_PSTATE_REQ = 0 ∧ s.Wakes t := by
  have hheld : (s.put Reg.PCR_PSTATE_REQ 0).held = false := by
    rw [State.held, flag_eq, State.get_put_ne (by decide)]
    exact hs
  have hwake := wake_asleep (s := s.put Reg.PCR_PSTATE_REQ 0) (by rwa [putReq_power]) hheld
  have hkeep : (s.put Reg.PCR_PSTATE_REQ 0).toRun.get Reg.PCR_PSTATE_REQ = (s.put Reg.PCR_PSTATE_REQ 0).get Reg.PCR_PSTATE_REQ := by
    refine within_toRun.get ?_
    rintro (hk | ⟨m, hm, hk⟩ | ⟨m, hm, hk⟩)
    · exact absurd hk (by decide)
    · rw [Reg.PCR_PSTATE_REQ_key, Reg.CHn_STATUS_STATE_key] at hk; omega
    · rw [Reg.PCR_PSTATE_REQ_key, Reg.HGPn_STATUS_STATE_key] at hk; omega
  exact ⟨_, congrArg Host.Outcome.next hwake, hkeep.trans State.get_put_eq,
    (toRun_wakes _).of_same rfl fun n hn => ⟨chState_put_pcr (by decide) _ hn, rfl⟩⟩

theorem pstateRequest_counted (h : s.get Reg.PCR_PSTATE_STATE = 0) : Does (.pstateRequest 3) s fun t =>
    ∃ v : State, v.get Reg.PCR_PSTATE_REQ = 3 ∧ s.OnlyFields v [Reg.PCR_PSTATE_REQ] ∧ v.CountsGlobalViol t 0 0 0x6400010 := by
  obtain ⟨h1, h2⟩ := putReq_does s 3
  have hcounts := counts_violGlb (s.put Reg.PCR_PSTATE_REQ 3) 0 0 0x6400010 (by decide) (by decide)
  have hpower : ((s.put Reg.PCR_PSTATE_REQ 3).violGlb 0 0 0x6400010).get Reg.PCR_PSTATE_STATE = 0 :=
    ((keeps_refl _ _).violGlb (fs := globalViolFields) (fun _ hf => hf) _ (by decide)).trans ((putReq_power s 3).trans h)
  exact ⟨_, congrArg Host.Outcome.next (if_pos hpower), s.put Reg.PCR_PSTATE_REQ 3, h1, h2, hcounts⟩

end power

/-! ## The governor (R463, R464) -/

section duty

variable (u : State) (ha : u.get Reg.PCR_GOV_STAT_DUTY_A ≤ 64) (hh : u.get Reg.PCR_GOV_STAT_DUTY_H ≤ 64)

/-- The two duties of a state. -/
def State.Duties (t : State) (x y : Nat) : Prop := t.get Reg.PCR_GOV_STAT_DUTY_A = x ∧ t.get Reg.PCR_GOV_STAT_DUTY_H = y

/-- Fields of the duties and the state beside registers are all that changes. -/
def State.DutyOnly (t : State) : Prop := u.OnlyFields t [Reg.PCR_GOV_STAT_DUTY_A, Reg.PCR_GOV_STAT_DUTY_H]

theorem dutyOnly_refl : u.DutyOnly u := ⟨rfl, keeps_refl u _⟩

theorem dutyOnly_putA (v : Nat) : u.DutyOnly (u.put Reg.PCR_GOV_STAT_DUTY_A v) := ⟨rfl, (keeps_refl u _).put (by simp)⟩

theorem dutyOnly_putH (v : Nat) : u.DutyOnly (u.put Reg.PCR_GOV_STAT_DUTY_H v) := ⟨rfl, (keeps_refl u _).put (by simp)⟩

theorem duties_putA {v : Nat} (hv : v ≤ 64) : State.Duties (u.put Reg.PCR_GOV_STAT_DUTY_A v) v (u.get Reg.PCR_GOV_STAT_DUTY_H) :=
  ⟨State.get_put_eq.trans (Nat.mod_eq_of_lt (lt_of_le_of_lt hv (by decide))), State.get_put_ne (by decide)⟩

theorem duties_putH {v : Nat} (hv : v ≤ 64) : State.Duties (u.put Reg.PCR_GOV_STAT_DUTY_H v) (u.get Reg.PCR_GOV_STAT_DUTY_A) v :=
  ⟨State.get_put_ne (by decide), State.get_put_eq.trans (Nat.mod_eq_of_lt (lt_of_le_of_lt hv (by decide)))⟩

include ha hh

/-- DUTY_A falls before DUTY_H. -/
theorem lowerDuty_aFirst : u.DutyOnly (u.lowerDuty false) ∧ (u.lowerDuty false).Duties
    (if 8 < u.get Reg.PCR_GOV_STAT_DUTY_A then u.get Reg.PCR_GOV_STAT_DUTY_A - 1 else u.get Reg.PCR_GOV_STAT_DUTY_A)
    (if u.get Reg.PCR_GOV_STAT_DUTY_A ≤ 8 ∧ 8 < u.get Reg.PCR_GOV_STAT_DUTY_H then u.get Reg.PCR_GOV_STAT_DUTY_H - 1
      else u.get Reg.PCR_GOV_STAT_DUTY_H) := by
  unfold State.lowerDuty
  dsimp only
  by_cases h8 : 8 < u.get Reg.PCR_GOV_STAT_DUTY_A
  · rw [if_neg (by simp; omega), if_pos h8, if_pos h8, if_neg (by omega)]
    exact ⟨dutyOnly_putA u _, duties_putA u (by omega)⟩
  · by_cases hh8 : 8 < u.get Reg.PCR_GOV_STAT_DUTY_H
    · rw [if_pos ⟨.inr (Nat.not_lt.mp h8), hh8⟩, if_neg h8, if_pos ⟨Nat.not_lt.mp h8, hh8⟩]
      exact ⟨dutyOnly_putH u _, duties_putH u (by omega)⟩
    · rw [if_neg fun hc => hh8 hc.2, if_neg h8, if_neg h8, if_neg fun hc => hh8 hc.2]
      exact ⟨dutyOnly_refl u, rfl, rfl⟩

/-- DUTY_H falls before DUTY_A. -/
theorem lowerDuty_hFirst : u.DutyOnly (u.lowerDuty true) ∧ (u.lowerDuty true).Duties
    (if u.get Reg.PCR_GOV_STAT_DUTY_H ≤ 8 ∧ 8 < u.get Reg.PCR_GOV_STAT_DUTY_A then u.get Reg.PCR_GOV_STAT_DUTY_A - 1
      else u.get Reg.PCR_GOV_STAT_DUTY_A)
    (if 8 < u.get Reg.PCR_GOV_STAT_DUTY_H then u.get Reg.PCR_GOV_STAT_DUTY_H - 1 else u.get Reg.PCR_GOV_STAT_DUTY_H) := by
  unfold State.lowerDuty
  dsimp only
  by_cases hh8 : 8 < u.get Reg.PCR_GOV_STAT_DUTY_H
  · rw [if_pos ⟨.inl rfl, hh8⟩, if_neg (by omega), if_pos hh8]
    exact ⟨dutyOnly_putH u _, duties_putH u (by omega)⟩
  · by_cases h8 : 8 < u.get Reg.PCR_GOV_STAT_DUTY_A
    · rw [if_neg fun hc => hh8 hc.2, if_pos h8, if_pos ⟨Nat.not_lt.mp hh8, h8⟩, if_neg hh8]
      exact ⟨dutyOnly_putA u _, duties_putA u (by omega)⟩
    · rw [if_neg fun hc => hh8 hc.2, if_neg h8, if_neg fun hc => h8 hc.2, if_neg hh8]
      exact ⟨dutyOnly_refl u, rfl, rfl⟩

/-- DUTY_H rises before DUTY_A. -/
theorem raiseDuty_hFirst : u.DutyOnly (u.raiseDuty false) ∧ (u.raiseDuty false).Duties
    (if 64 ≤ u.get Reg.PCR_GOV_STAT_DUTY_H ∧ u.get Reg.PCR_GOV_STAT_DUTY_A < 64 then u.get Reg.PCR_GOV_STAT_DUTY_A + 1
      else u.get Reg.PCR_GOV_STAT_DUTY_A)
    (if u.get Reg.PCR_GOV_STAT_DUTY_H < 64 then u.get Reg.PCR_GOV_STAT_DUTY_H + 1 else u.get Reg.PCR_GOV_STAT_DUTY_H) := by
  unfold State.raiseDuty
  dsimp only
  by_cases hh64 : u.get Reg.PCR_GOV_STAT_DUTY_H < 64
  · rw [if_neg (by simp; omega), if_pos hh64, if_neg (by omega), if_pos hh64]
    exact ⟨dutyOnly_putH u _, duties_putH u (by omega)⟩
  · by_cases h64 : u.get Reg.PCR_GOV_STAT_DUTY_A < 64
    · rw [if_pos ⟨.inr (Nat.not_lt.mp hh64), h64⟩, if_pos ⟨Nat.not_lt.mp hh64, h64⟩, if_neg hh64]
      exact ⟨dutyOnly_putA u _, duties_putA u (by omega)⟩
    · rw [if_neg fun hc => h64 hc.2, if_neg hh64, if_neg fun hc => h64 hc.2, if_neg hh64]
      exact ⟨dutyOnly_refl u, rfl, rfl⟩

/-- DUTY_A rises before DUTY_H. -/
theorem raiseDuty_aFirst : u.DutyOnly (u.raiseDuty true) ∧ (u.raiseDuty true).Duties
    (if u.get Reg.PCR_GOV_STAT_DUTY_A < 64 then u.get Reg.PCR_GOV_STAT_DUTY_A + 1 else u.get Reg.PCR_GOV_STAT_DUTY_A)
    (if 64 ≤ u.get Reg.PCR_GOV_STAT_DUTY_A ∧ u.get Reg.PCR_GOV_STAT_DUTY_H < 64 then u.get Reg.PCR_GOV_STAT_DUTY_H + 1
      else u.get Reg.PCR_GOV_STAT_DUTY_H) := by
  unfold State.raiseDuty
  dsimp only
  by_cases h64 : u.get Reg.PCR_GOV_STAT_DUTY_A < 64
  · rw [if_pos ⟨.inl rfl, h64⟩, if_pos h64, if_neg (by omega)]
    exact ⟨dutyOnly_putA u _, duties_putA u (by omega)⟩
  · by_cases hh64 : u.get Reg.PCR_GOV_STAT_DUTY_H < 64
    · rw [if_neg fun hc => h64 hc.2, if_pos hh64, if_neg h64, if_pos ⟨Nat.not_lt.mp h64, hh64⟩]
      exact ⟨dutyOnly_putH u _, duties_putH u (by omega)⟩
    · rw [if_neg fun hc => h64 hc.2, if_neg hh64, if_neg h64, if_neg fun hc => hh64 hc.2]
      exact ⟨dutyOnly_refl u, rfl, rfl⟩

end duty

/-! ### The limits judged -/

/-- A number whose bits are five truth values. -/
def limiterOf (f : Nat → Bool) : Nat := (List.range 5).foldl (fun x i => x + b2n (f i) * 2 ^ i) 0

theorem bit_limiterOf (f : Nat → Bool) {i : Nat} (hi : i < 5) : bit (limiterOf f % 2 ^ 5) i = f i := by
  have hall : ∀ a b c d e : Bool, ∀ i : Fin 5,
      bit ((0 + b2n a * 2 ^ 0 + b2n b * 2 ^ 1 + b2n c * 2 ^ 2 + b2n d * 2 ^ 3 + b2n e * 2 ^ 4) % 2 ^ 5) i = [a, b, c, d, e].getD i false := by decide
  refine (hall (f 0) (f 1) (f 2) (f 3) (f 4) ⟨i, hi⟩).trans ?_
  match i, hi with
  | 0, _ => rfl
  | 1, _ => rfl
  | 2, _ => rfl
  | 3, _ => rfl
  | 4, _ => rfl

theorem limiterOf_pos (f : Nat → Bool) : limiterOf f ≠ 0 ↔ (f 4 || (f 0 || f 1 || f 2 || f 3)) = true := by
  have hall : ∀ a b c d e : Bool, 0 + b2n a * 2 ^ 0 + b2n b * 2 ^ 1 + b2n c * 2 ^ 2 + b2n d * 2 ^ 3 + b2n e * 2 ^ 4 ≠ 0 ↔
      (e || (a || b || c || d)) = true := by decide
  exact hall (f 0) (f 1) (f 2) (f 3) (f 4)

/-- A limit, by its place in PCR_GOV_STAT.LIMITER, is exceeded. -/
def State.overLimit (s : State) (g : GovSample) (i : Nat) : Bool := (((s.judge g)[i]?).map (·.above)).getD false

/-- Every figure is well below its limit. -/
def State.allEasy (s : State) (g : GovSample) : Bool := (s.judge g).all (·.below)

theorem allEasy_iff (s : State) (g : GovSample) : s.allEasy g = true ↔
    100 * g.pl1.toNat ≤ 98 * (1000 * s.get Reg.PCR_GOV_CFG_PL1_W) ∧ 100 * g.pl2.toNat ≤ 98 * (1000 * s.get Reg.PCR_GOV_CFG_PL2_W) ∧
    100 * g.icc.toNat ≤ 98 * (1000 * s.get Reg.PCR_GOV_CFG_ICC_A) ∧ s.iccSeen = false ∧
    g.logic.toNat + 32 ≤ 16 * s.get Reg.PCR_THERM_CFG_LOGIC_TGT ∧ g.dram.toNat + 32 ≤ 16 * s.get Reg.PCR_THERM_CFG_DRAM_TGT := by
  simp only [State.allEasy, State.judge, judgeFigure, judgeTemp, List.all_cons, List.all_nil, Bool.and_eq_true, decide_eq_true_eq, Bool.not_eq_true',
    and_true, and_assoc]

theorem overLimit_other (s : State) (g : GovSample) : (s.overLimit g 0 || s.overLimit g 1 || s.overLimit g 2 || s.overLimit g 3) = true ↔
    1000 * s.get Reg.PCR_GOV_CFG_PL1_W < g.pl1.toNat ∨ 1000 * s.get Reg.PCR_GOV_CFG_PL2_W < g.pl2.toNat ∨
    (1000 * s.get Reg.PCR_GOV_CFG_ICC_A < g.icc.toNat ∨ s.iccSeen = true) ∨ 16 * s.get Reg.PCR_THERM_CFG_LOGIC_TGT < g.logic.toNat := by
  simp only [State.overLimit, State.judge, judgeFigure, judgeTemp, List.getElem?_cons_zero, List.getElem?_cons_succ, Option.map_some, Option.getD_some,
    Bool.or_eq_true, decide_eq_true_eq, or_assoc]

/-- What an interval measures is recorded. -/
def State.measured (s : State) (g : GovSample) : State :=
  { s.puts [(Reg.PCR_GOV_STAT_POWER_W, g.power.toNat / 1000), (Reg.PCR_GOV_STAT_LIMITER, limiterOf (s.overLimit g)),
      (Reg.PCR_TEMP_LOGIC_DEG, g.logic.toNat), (Reg.PCR_TEMP_DRAM_DEG, g.dram.toNat)] with iccSeen := false }

/-- The duties after an interval. -/
def State.governed (u : State) (passed : Nat → Bool) (easy : Bool) : State :=
  if limiterOf passed ≠ 0 then u.lowerFor (passed 4) (passed 0 || passed 1 || passed 2 || passed 3) else if easy then u.raiseDuty u.govDram else u

theorem governorInterval_eq (s : State) (g : GovSample) :
    exec (.governorInterval g) s = .next ((s.measured g).governed (s.overLimit g) (s.allEasy g)) := rfl

theorem measured_does (s : State) (g : GovSample) :
    (s.measured g).get Reg.PCR_GOV_STAT_POWER_W = g.power.toNat / 1000 % 2 ^ 16 ∧
    (s.measured g).get Reg.PCR_GOV_STAT_LIMITER = limiterOf (s.overLimit g) % 2 ^ 5 ∧ (s.measured g).get Reg.PCR_TEMP_LOGIC_DEG = g.logic.toNat ∧
    (s.measured g).get Reg.PCR_TEMP_DRAM_DEG = g.dram.toNat ∧
    s.KeepsFields (s.measured g) [Reg.PCR_GOV_STAT_POWER_W, Reg.PCR_GOV_STAT_LIMITER, Reg.PCR_TEMP_LOGIC_DEG, Reg.PCR_TEMP_DRAM_DEG] ∧
    s.measured g = { s with fields := (s.measured g).fields, iccSeen := false } := by
  have hget := puts_get [(Reg.PCR_GOV_STAT_POWER_W, g.power.toNat / 1000), (Reg.PCR_GOV_STAT_LIMITER, limiterOf (s.overLimit g)),
      (Reg.PCR_TEMP_LOGIC_DEG, g.logic.toNat), (Reg.PCR_TEMP_DRAM_DEG, g.dram.toNat)] (by simp) s
  refine ⟨hget _ List.mem_cons_self, hget _ (List.mem_cons_of_mem _ List.mem_cons_self),
    (hget (Reg.PCR_TEMP_LOGIC_DEG, _) (by simp)).trans (Nat.mod_eq_of_lt g.logic.isLt),
    (hget (Reg.PCR_TEMP_DRAM_DEG, _) (by simp)).trans (Nat.mod_eq_of_lt g.dram.isLt), ?_, rfl⟩
  exact ((keeps_refl s _).puts _ (by simp)).of_fields rfl rfl rfl

section governed

variable {u : State} {passed : Nat → Bool} {easy : Bool}

/-- An interval changes the duties, which of them goes first, and the count of free values. -/
def State.Regulates (u t : State) : Prop :=
  u.KeepsFields t [Reg.PCR_GOV_STAT_DUTY_A, Reg.PCR_GOV_STAT_DUTY_H] ∧
  t = { u with fields := t.fields, freeCount := t.freeCount, govDram := t.govDram }

/-- A change of the duties, from a state that differs in its count of free values, with a mark of which goes first. -/
theorem State.DutyOnly.regulates {t : State} {n : Nat} (h : State.DutyOnly { u with freeCount := n } t) (b : Bool) :
    u.Regulates { t with govDram := b } := by
  obtain ⟨heq, hkeep⟩ := h
  refine ⟨hkeep, ?_⟩
  rw [heq]

theorem governed_lowers (h : limiterOf passed ≠ 0) : u.governed passed easy = u.lowerFor (passed 4) (passed 0 || passed 1 || passed 2 || passed 3) := if_pos h

theorem governed_easy (h : ¬limiterOf passed ≠ 0) (he : easy = true) : u.governed passed easy = u.raiseDuty u.govDram := (if_neg h).trans (if_pos he)

theorem governed_stays (h : ¬limiterOf passed ≠ 0) (he : ¬easy = true) : u.governed passed easy = u := (if_neg h).trans (if_neg he)

theorem lowerFor_one {dram other : Bool} (h : (dram && other) = false) : u.lowerFor dram other = { u.lowerDuty dram with govDram := dram } :=
  if_neg (by rw [h]; decide)

/-- With both limits exceeded a free value says which duty goes first (R464). -/
theorem lowerFor_both : ∃ b n, u.lowerFor true true = { State.lowerDuty { u with freeCount := n } b with govDram := b } := ⟨_, _, rfl⟩

variable (ha : u.get Reg.PCR_GOV_STAT_DUTY_A ≤ 64) (hh : u.get Reg.PCR_GOV_STAT_DUTY_H ≤ 64)

include ha hh

theorem lowerDuty_only (b : Bool) : u.DutyOnly (u.lowerDuty b) := by
  cases b with
  | false => exact (lowerDuty_aFirst u ha hh).1
  | true => exact (lowerDuty_hFirst u ha hh).1

theorem raiseDuty_only (b : Bool) : u.DutyOnly (u.raiseDuty b) := by
  cases b with
  | false => exact (raiseDuty_hFirst u ha hh).1
  | true => exact (raiseDuty_aFirst u ha hh).1

theorem governed_regulates : u.Regulates (u.governed passed easy) := by
  by_cases h : limiterOf passed ≠ 0
  · rw [governed_lowers h]
    by_cases hb : (passed 4 && (passed 0 || passed 1 || passed 2 || passed 3)) = true
    · obtain ⟨hdram, hother⟩ := Bool.and_eq_true_iff.mp hb
      rw [hdram, hother]
      obtain ⟨b, n, heq⟩ := lowerFor_both (u := u)
      rw [heq]
      exact (lowerDuty_only (u := { u with freeCount := n }) ha hh b).regulates b
    · rw [lowerFor_one (Bool.eq_false_iff.mpr hb)]
      exact (lowerDuty_only ha hh _).regulates _
  · by_cases he : easy = true
    · rw [governed_easy h he]
      obtain ⟨heq, hkeep⟩ := raiseDuty_only ha hh u.govDram
      refine ⟨hkeep, ?_⟩
      conv_lhs => rw [heq]
      rw [heq]
    · rw [governed_stays h he]
      exact ⟨keeps_refl u _, rfl⟩

omit ha hh in
theorem duties_govDram {t : State} {x y : Nat} (h : t.Duties x y) (b : Bool) : State.Duties { t with govDram := b } x y := h

/-- DUTY_A first, for a limit that is no DRAM temperature. -/
theorem governed_other (ho : (passed 0 || passed 1 || passed 2 || passed 3) = true) (hd : passed 4 = false) :
    (u.governed passed easy).Duties
      (if 8 < u.get Reg.PCR_GOV_STAT_DUTY_A then u.get Reg.PCR_GOV_STAT_DUTY_A - 1 else u.get Reg.PCR_GOV_STAT_DUTY_A)
      (if u.get Reg.PCR_GOV_STAT_DUTY_A ≤ 8 ∧ 8 < u.get Reg.PCR_GOV_STAT_DUTY_H then u.get Reg.PCR_GOV_STAT_DUTY_H - 1
        else u.get Reg.PCR_GOV_STAT_DUTY_H) ∧ (u.governed passed easy).govDram = false := by
  rw [governed_lowers ((limiterOf_pos passed).mpr (by rw [ho, Bool.or_true])), hd, lowerFor_one rfl]
  exact ⟨(lowerDuty_aFirst u ha hh).2, rfl⟩

/-- DUTY_H first, for a DRAM temperature alone. -/
theorem governed_hot (ho : (passed 0 || passed 1 || passed 2 || passed 3) = false) (hd : passed 4 = true) :
    (u.governed passed easy).Duties
      (if u.get Reg.PCR_GOV_STAT_DUTY_H ≤ 8 ∧ 8 < u.get Reg.PCR_GOV_STAT_DUTY_A then u.get Reg.PCR_GOV_STAT_DUTY_A - 1
        else u.get Reg.PCR_GOV_STAT_DUTY_A)
      (if 8 < u.get Reg.PCR_GOV_STAT_DUTY_H then u.get Reg.PCR_GOV_STAT_DUTY_H - 1 else u.get Reg.PCR_GOV_STAT_DUTY_H) ∧
    (u.governed passed easy).govDram = true := by
  rw [governed_lowers ((limiterOf_pos passed).mpr (by rw [hd, Bool.true_or])), hd, ho, lowerFor_one rfl]
  exact ⟨(lowerDuty_hFirst u ha hh).2, rfl⟩

/-- Either first where both limits are exceeded. -/
theorem governed_both (ho : (passed 0 || passed 1 || passed 2 || passed 3) = true) (hd : passed 4 = true) :
    (u.governed passed easy).Duties
      (if 8 < u.get Reg.PCR_GOV_STAT_DUTY_A then u.get Reg.PCR_GOV_STAT_DUTY_A - 1 else u.get Reg.PCR_GOV_STAT_DUTY_A)
      (if u.get Reg.PCR_GOV_STAT_DUTY_A ≤ 8 ∧ 8 < u.get Reg.PCR_GOV_STAT_DUTY_H then u.get Reg.PCR_GOV_STAT_DUTY_H - 1
        else u.get Reg.PCR_GOV_STAT_DUTY_H) ∨
    (u.governed passed easy).Duties
      (if u.get Reg.PCR_GOV_STAT_DUTY_H ≤ 8 ∧ 8 < u.get Reg.PCR_GOV_STAT_DUTY_A then u.get Reg.PCR_GOV_STAT_DUTY_A - 1
        else u.get Reg.PCR_GOV_STAT_DUTY_A)
      (if 8 < u.get Reg.PCR_GOV_STAT_DUTY_H then u.get Reg.PCR_GOV_STAT_DUTY_H - 1 else u.get Reg.PCR_GOV_STAT_DUTY_H) := by
  obtain ⟨b, n, heq⟩ := lowerFor_both (u := u)
  rw [governed_lowers ((limiterOf_pos passed).mpr (by rw [hd, Bool.true_or])), hd, ho, heq]
  cases b with
  | false => exact .inl (lowerDuty_aFirst { u with freeCount := n } ha hh).2
  | true => exact .inr (lowerDuty_hFirst { u with freeCount := n } ha hh).2

end governed

theorem limiterOf_zero {f : Nat → Bool} (h : (f 0 || f 1 || f 2 || f 3) = false) (hd : f 4 = false) : ¬limiterOf f ≠ 0 := fun hc => by
  have := (limiterOf_pos f).mp hc
  rw [h, hd] at this
  exact absurd this (by decide)

/-- A figure well below its limit exceeds none. -/
theorem allEasy_below {s : State} {g : GovSample} (h : s.allEasy g = true) :
    (s.overLimit g 0 || s.overLimit g 1 || s.overLimit g 2 || s.overLimit g 3) = false ∧ s.overLimit g 4 = false := by
  obtain ⟨h0, h1, h2, hseen, h3, h4⟩ := (allEasy_iff s g).mp h
  refine ⟨Bool.eq_false_iff.mpr fun hc => ?_, decide_eq_false (by omega)⟩
  obtain hc | hc | (hc | hc) | hc := (overLimit_other s g).mp hc
  · omega
  · omega
  · omega
  · exact absurd (hc.symm.trans hseen) (by decide)
  · omega

theorem governorInterval_does (s : State) (g : GovSample) :
    let a := s.get Reg.PCR_GOV_STAT_DUTY_A
    let h := s.get Reg.PCR_GOV_STAT_DUTY_H
    let icc := s.get Reg.PCR_GOV_CFG_ICC_A
    let above : List (Nat × Prop) := [(0, 1000 * s.get Reg.PCR_GOV_CFG_PL1_W < g.pl1.toNat), (1, 1000 * s.get Reg.PCR_GOV_CFG_PL2_W < g.pl2.toNat),
      (2, 1000 * icc < g.icc.toNat ∨ s.iccSeen = true), (3, 16 * s.get Reg.PCR_THERM_CFG_LOGIC_TGT < g.logic.toNat),
      (4, 16 * s.get Reg.PCR_THERM_CFG_DRAM_TGT < g.dram.toNat)]
    let hot := 16 * s.get Reg.PCR_THERM_CFG_DRAM_TGT < g.dram.toNat
    let other := ∃ x ∈ above, x.1 ≠ 4 ∧ x.2
    let easy := 100 * g.pl1.toNat ≤ 98 * (1000 * s.get Reg.PCR_GOV_CFG_PL1_W) ∧ 100 * g.pl2.toNat ≤ 98 * (1000 * s.get Reg.PCR_GOV_CFG_PL2_W) ∧
      100 * g.icc.toNat ≤ 98 * (1000 * icc) ∧ s.iccSeen = false ∧ g.logic.toNat + 32 ≤ 16 * s.get Reg.PCR_THERM_CFG_LOGIC_TGT ∧
      g.dram.toNat + 32 ≤ 16 * s.get Reg.PCR_THERM_CFG_DRAM_TGT
    let duty := fun (t : State) (x y : Nat) => t.get Reg.PCR_GOV_STAT_DUTY_A = x ∧ t.get Reg.PCR_GOV_STAT_DUTY_H = y
    let aFirst := fun t : State => duty t (if 8 < a then a - 1 else a) (if a ≤ 8 ∧ 8 < h then h - 1 else h)
    let hFirst := fun t : State => duty t (if h ≤ 8 ∧ 8 < a then a - 1 else a) (if 8 < h then h - 1 else h)
    a ≤ 64 → h ≤ 64 → Does (.governorInterval g) s fun t =>
      (∀ x ∈ above, bit (t.get Reg.PCR_GOV_STAT_LIMITER) x.1 = true ↔ x.2) ∧ t.get Reg.PCR_GOV_STAT_POWER_W = g.power.toNat / 1000 % 2 ^ 16 ∧
      t.get Reg.PCR_TEMP_LOGIC_DEG = g.logic.toNat ∧ t.get Reg.PCR_TEMP_DRAM_DEG = g.dram.toNat ∧ t.iccSeen = false ∧
      (other → ¬hot → aFirst t ∧ t.govDram = false) ∧ (¬other → hot → hFirst t ∧ t.govDram = true) ∧ (other → hot → aFirst t ∨ hFirst t) ∧
      (¬other → ¬hot → ¬easy → duty t a h) ∧
      (easy → s.govDram = false → duty t (if 64 ≤ h ∧ a < 64 then a + 1 else a) (if h < 64 then h + 1 else h)) ∧
      (easy → s.govDram = true → duty t (if a < 64 then a + 1 else a) (if 64 ≤ a ∧ h < 64 then h + 1 else h)) ∧
      s.KeepsFields t [Reg.PCR_GOV_STAT_POWER_W, Reg.PCR_GOV_STAT_LIMITER, Reg.PCR_TEMP_LOGIC_DEG, Reg.PCR_TEMP_DRAM_DEG, Reg.PCR_GOV_STAT_DUTY_A,
        Reg.PCR_GOV_STAT_DUTY_H] ∧ t = { s with fields := t.fields, freeCount := t.freeCount, iccSeen := false, govDram := t.govDram } := by
  intro a h icc above hot other easy duty aFirst hFirst ha hh
  have hother : other ↔ (s.overLimit g 0 || s.overLimit g 1 || s.overLimit g 2 || s.overLimit g 3) = true := by
    rw [overLimit_other]
    simp [other, above, icc, List.exists_mem_cons_iff]
  have hhot : hot ↔ s.overLimit g 4 = true := decide_eq_true_iff.symm
  have heasy : easy ↔ s.allEasy g = true := (allEasy_iff s g).symm
  have habove : ∀ x ∈ above, x.1 < 5 ∧ (s.overLimit g x.1 = true ↔ x.2) := by
    simp only [above, List.forall_mem_cons, List.not_mem_nil, false_imp_iff, implies_true, and_true]
    refine ⟨⟨by omega, decide_eq_true_iff⟩, ⟨by omega, decide_eq_true_iff⟩, ⟨by omega, ?_⟩, ⟨by omega, decide_eq_true_iff⟩, by omega, decide_eq_true_iff⟩
    exact (iff_of_eq (Bool.or_eq_true _ _)).trans (or_congr decide_eq_true_iff .rfl)
  refine ⟨_, governorInterval_eq s g, ?_⟩
  obtain ⟨mpower, mlim, mlogic, mdram, mkeep, meq⟩ := measured_does s g
  have mdrop : (s.measured g).govDram = s.govDram := by rw [meq]
  have mseen : (s.measured g).iccSeen = false := by rw [meq]
  have hma : (s.measured g).get Reg.PCR_GOV_STAT_DUTY_A = a := mkeep _ (by decide)
  have hmh : (s.measured g).get Reg.PCR_GOV_STAT_DUTY_H = h := mkeep _ (by decide)
  generalize s.measured g = u at *
  have hua : u.get Reg.PCR_GOV_STAT_DUTY_A ≤ 64 := hma.trans_le ha
  have huh : u.get Reg.PCR_GOV_STAT_DUTY_H ≤ 64 := hmh.trans_le hh
  obtain ⟨hkeep, heq⟩ := governed_regulates (passed := s.overLimit g) (easy := s.allEasy g) hua huh
  have hquiet : ¬other → ¬hot → ¬limiterOf (s.overLimit g) ≠ 0 := fun ho hd =>
    limiterOf_zero (Bool.eq_false_iff.mpr fun hc => ho (hother.mpr hc)) (Bool.eq_false_iff.mpr fun hc => hd (hhot.mpr hc))
  have heasyQuiet : easy → ¬limiterOf (s.overLimit g) ≠ 0 := fun he => limiterOf_zero (allEasy_below (heasy.mp he)).1 (allEasy_below (heasy.mp he)).2
  refine ⟨fun x hx => ?_, (hkeep _ (by decide)).trans mpower, (hkeep _ (by decide)).trans mlogic, (hkeep _ (by decide)).trans mdram, ?_,
    fun ho hd => ?_, fun ho hd => ?_, fun ho hd => ?_, fun ho hd he => ?_, fun he hg => ?_, fun he hg => ?_, ?_, ?_⟩
  · obtain ⟨h5, hiff⟩ := habove x hx
    rw [hkeep _ (by decide), mlim, bit_limiterOf _ h5]
    exact hiff
  · rw [heq]
    exact mseen
  · have := governed_other (easy := s.allEasy g) hua huh (hother.mp ho) (Bool.eq_false_iff.mpr fun hc => hd (hhot.mpr hc))
    rwa [hma, hmh] at this
  · have := governed_hot (easy := s.allEasy g) hua huh (Bool.eq_false_iff.mpr fun hc => ho (hother.mpr hc)) (hhot.mp hd)
    rwa [hma, hmh] at this
  · have := governed_both (easy := s.allEasy g) hua huh (hother.mp ho) (hhot.mp hd)
    rwa [hma, hmh] at this
  · rw [governed_stays (hquiet ho hd) fun hc => he (heasy.mpr hc)]
    exact ⟨hma, hmh⟩
  · have := (raiseDuty_hFirst u hua huh).2
    rw [governed_easy (heasyQuiet he) (heasy.mp he), mdrop, hg]
    rwa [hma, hmh] at this
  · have := (raiseDuty_aFirst u hua huh).2
    rw [governed_easy (heasyQuiet he) (heasy.mp he), mdrop, hg]
    rwa [hma, hmh] at this
  · exact (mkeep.mono fun _ hf => List.mem_append_left [Reg.PCR_GOV_STAT_DUTY_A, Reg.PCR_GOV_STAT_DUTY_H] hf).trans
      (hkeep.mono fun _ hf => List.mem_append_right [Reg.PCR_GOV_STAT_POWER_W, Reg.PCR_GOV_STAT_LIMITER, Reg.PCR_TEMP_LOGIC_DEG, Reg.PCR_TEMP_DRAM_DEG] hf)
  · conv_lhs => rw [heq]
    rw [meq]

theorem iccExcess_quiet {s : State} {ma : BitVec 24} (h : ma.toNat ≤ 1000 * s.get Reg.PCR_GOV_CFG_ICC_A) : exec (.iccExcess ma) s = .next s :=
  congrArg Host.Outcome.next (if_neg (Nat.not_lt.mpr h))

theorem iccExcess_lowers {s : State} {ma : BitVec 24} (h : 1000 * s.get Reg.PCR_GOV_CFG_ICC_A < ma.toNat) (ha : s.get Reg.PCR_GOV_STAT_DUTY_A ≤ 64) :
    Does (.iccExcess ma) s fun t => t.get Reg.PCR_GOV_STAT_DUTY_A = max 8 (s.get Reg.PCR_GOV_STAT_DUTY_A - 8) ∧
      s.KeepsFields t [Reg.PCR_GOV_STAT_DUTY_A] ∧ t = { s with fields := t.fields, iccSeen := true, govDram := false } := by
  refine ⟨_, congrArg Host.Outcome.next (if_pos h), ?_, ?_, rfl⟩
  · exact (State.get_put_eq (s := s)).trans (Nat.mod_eq_of_lt (lt_of_le_of_lt (b := 64) (by omega) (by decide)))
  · exact ((keeps_refl s _).put (List.mem_singleton_self _)).of_fields rfl rfl rfl

/-! ## Limits written (R462) -/

/-- The fields of PCR_GOV_CFG with their parts of a word. -/
def powerLimits (w : Nat) : List (FieldRef × Nat) :=
  [(Reg.PCR_GOV_CFG_TAU_MS, w / 2 ^ 48 % 2 ^ 16), (Reg.PCR_GOV_CFG_ICC_A, w / 2 ^ 32 % 2 ^ 16), (Reg.PCR_GOV_CFG_PL2_W, w / 2 ^ 16 % 2 ^ 16),
    (Reg.PCR_GOV_CFG_PL1_W, w / 2 ^ 0 % 2 ^ 16)]

/-- The fields of PCR_THERM_CFG with their parts of a word. -/
def thermLimits (w : Nat) : List (FieldRef × Nat) :=
  [(Reg.PCR_THERM_CFG_DRAM_TGT, w / 2 ^ 8 % 2 ^ 8), (Reg.PCR_THERM_CFG_LOGIC_TGT, w / 2 ^ 0 % 2 ^ 8)]

theorem takeWord_power (s : State) (w : Nat) : s.takeWord 0x6400028 w = s.puts (powerLimits w) := rfl

theorem takeWord_therm (s : State) (w : Nat) : s.takeWord 0x6400038 w = s.puts (thermLimits w) := rfl

/-- A word of RW fields alone breaks nothing of R8. -/
theorem plainWrite_power (s : State) {w : Nat} (h : w < 2 ^ 64) : s.plainWrite 0 0x6400028 w = s.puts (powerLimits w) := by
  refine (plainWrite_good (r := (regAt 0x6400028).get rfl) rfl (badWrite_rw (by decide) ?_)).trans (takeWord_power s w)
  show w ≤ 0 + w / 2 ^ 48 % 2 ^ 16 * 2 ^ 48 + w / 2 ^ 32 % 2 ^ 16 * 2 ^ 32 + w / 2 ^ 16 % 2 ^ 16 * 2 ^ 16 + w / 2 ^ 0 % 2 ^ 16 * 2 ^ 0
  omega

theorem plainWrite_therm (s : State) {w : Nat} (h : w < 2 ^ 16) : s.plainWrite 0 0x6400038 w = s.puts (thermLimits w) := by
  refine (plainWrite_good (r := (regAt 0x6400038).get rfl) rfl (badWrite_rw (by decide) ?_)).trans (takeWord_therm s w)
  show w ≤ 0 + w / 2 ^ 8 % 2 ^ 8 * 2 ^ 8 + w / 2 ^ 0 % 2 ^ 8 * 2 ^ 0
  omega

/-- A field of a word replaced: the bits below and above it stay. -/
theorem setBits_parts (x : Nat) {hi lo : Nat} (h : lo ≤ hi + 1) (v : Nat) : setBits x hi lo v % 2 ^ lo = x % 2 ^ lo ∧
    setBits x hi lo v / 2 ^ lo % 2 ^ (hi + 1 - lo) = v % 2 ^ (hi + 1 - lo) ∧ setBits x hi lo v / 2 ^ (hi + 1) = x / 2 ^ (hi + 1) := by
  have hsplit : 2 ^ (hi + 1) = 2 ^ lo * 2 ^ (hi + 1 - lo) := by rw [← Nat.pow_add, Nat.add_sub_cancel' h]
  unfold setBits bits
  rw [hsplit, ← Nat.div_div_eq_div_mul, ← Nat.div_div_eq_div_mul]
  have hm : 0 < 2 ^ lo := Nat.two_pow_pos lo
  have hV : v % 2 ^ (hi + 1 - lo) < 2 ^ (hi + 1 - lo) := Nat.mod_lt _ (Nat.two_pow_pos _)
  have hx := Nat.div_add_mod x (2 ^ lo)
  have hq := Nat.div_add_mod (x / 2 ^ lo) (2 ^ (hi + 1 - lo))
  generalize v % 2 ^ (hi + 1 - lo) = V at hV ⊢
  generalize 2 ^ (hi + 1 - lo) = n at hV hq ⊢
  have hr : x % 2 ^ lo < 2 ^ lo := Nat.mod_lt _ hm
  generalize x % 2 ^ lo = r at hr hx ⊢
  generalize x / 2 ^ lo / n = q at hq ⊢
  generalize x / 2 ^ lo % n = B at hq ⊢
  generalize 2 ^ lo = m at hm hr hx hq ⊢
  have hy : x - B * m + V * m = r + m * (V + n * q) := by
    rw [← hx, ← hq]
    rw [Nat.mul_add, Nat.mul_add, Nat.mul_comm B m, Nat.mul_comm V m]
    omega
  rw [hy]
  have hdiv : (r + m * (V + n * q)) / m = V + n * q := by rw [Nat.add_mul_div_left _ _ hm, Nat.div_eq_of_lt hr, Nat.zero_add]
  refine ⟨?_, ?_, ?_⟩
  · rw [Nat.add_mul_mod_self_left, Nat.mod_eq_of_lt hr]
  · rw [hdiv, Nat.add_mul_mod_self_left, Nat.mod_eq_of_lt hV]
  · rw [hdiv, Nat.add_mul_div_left _ _ (Nat.zero_lt_of_lt hV), Nat.div_eq_of_lt hV, Nat.zero_add]

/-- A word's limits cut to their ceilings. -/
theorem clampWord_power (w : Nat) :
    let c := clampWord w (govCeilings false)
    c % 2 ^ 16 = min (w % 2 ^ 16) 850 ∧ c / 2 ^ 16 % 2 ^ 16 = min (w / 2 ^ 16 % 2 ^ 16) 1000 ∧
    c / 2 ^ 32 % 2 ^ 16 = min (w / 2 ^ 32 % 2 ^ 16) 1100 ∧ c / 2 ^ 48 = w / 2 ^ 48 := by
  simp only [govCeilings, clampWord, Bool.false_eq_true, if_false]
  have h1 := setBits_parts w (hi := 47) (lo := 32) (by decide) (min (bits w 47 32) 1100)
  have hb1 : bits w 47 32 = w / 2 ^ 32 % 2 ^ 16 := rfl
  generalize setBits w 47 32 (min (bits w 47 32) 1100) = x at h1 ⊢
  have h2 := setBits_parts x (hi := 31) (lo := 16) (by decide) (min (bits x 31 16) 1000)
  have hb2 : bits x 31 16 = x / 2 ^ 16 % 2 ^ 16 := rfl
  generalize setBits x 31 16 (min (bits x 31 16) 1000) = y at h2 ⊢
  have h3 := setBits_parts y (hi := 15) (lo := 0) (by decide) (min (bits y 15 0) 850)
  have hb3 : bits y 15 0 = y / 2 ^ 0 % 2 ^ 16 := rfl
  generalize setBits y 15 0 (min (bits y 15 0) 850) = c at h3 ⊢
  rw [hb1] at h1
  rw [hb2] at h2
  rw [hb3] at h3
  omega

theorem clampWord_therm (w : Nat) :
    let c := clampWord w (govCeilings true)
    c % 2 ^ 8 = min (w % 2 ^ 8) 100 ∧ c / 2 ^ 8 % 2 ^ 8 = min (w / 2 ^ 8 % 2 ^ 8) 95 ∧ c / 2 ^ 16 = w / 2 ^ 16 := by
  simp only [govCeilings, clampWord, if_true]
  have h1 := setBits_parts w (hi := 15) (lo := 8) (by decide) (min (bits w 15 8) 95)
  have hb1 : bits w 15 8 = w / 2 ^ 8 % 2 ^ 8 := rfl
  generalize setBits w 15 8 (min (bits w 15 8) 95) = x at h1 ⊢
  have h2 := setBits_parts x (hi := 7) (lo := 0) (by decide) (min (bits x 7 0) 100)
  have hb2 : bits x 7 0 = x / 2 ^ 0 % 2 ^ 8 := rfl
  generalize setBits x 7 0 (min (bits x 7 0) 100) = c at h2 ⊢
  rw [hb1] at h1
  rw [hb2] at h2
  omega

/-- Fields read alike after the same writes where they read alike before. -/
theorem puts_get_congr (l : List (FieldRef × Nat)) : ∀ {s t : State} {f : FieldRef}, t.get f = s.get f → (t.puts l).get f = (s.puts l).get f := by
  induction l with
  | nil => exact fun h => h
  | cons e l ih =>
    intro s t f h
    refine ih (s := s.put e.1 e.2) (t := t.put e.1 e.2) ?_
    rw [State.get_put, State.get_put, h]

theorem puts_get_apart (s : State) {l : List (FieldRef × Nat)} {g : FieldRef} (h : ∀ e ∈ l, g.key ≠ e.1.key) : (s.puts l).get g = s.get g := by
  refine (keeps_refl s (l.map (·.1))).puts l (fun e he => List.mem_map_of_mem he) g fun hm => ?_
  obtain ⟨f, hf, hk⟩ := List.mem_map.mp hm
  obtain ⟨e, he, rfl⟩ := List.mem_map.mp hf
  exact h e he hk.symm

/-- Writes of fields that no violation is recorded in may come before a violation or after it. -/
theorem State.CountsGlobalViol.puts {s t : State} {agent kind addr : Nat} (h : s.CountsGlobalViol t agent kind addr) {l : List (FieldRef × Nat)}
    (hl : ∀ g ∈ globalViolFields, ∀ e ∈ l, g.key ≠ e.1.key) : (s.puts l).CountsGlobalViol (t.puts l) agent kind addr := by
  obtain ⟨hcount, hout, hin, hat, heq⟩ := h
  have hs : ∀ g ∈ globalViolFields, (s.puts l).get g = s.get g := fun g hg => puts_get_apart s (hl g hg)
  have ht : ∀ g ∈ globalViolFields, (t.puts l).get g = t.get g := fun g hg => puts_get_apart t (hl g hg)
  have hviolAt : ∀ u : State, (u.puts l).violAt = u.violAt := fun u => by rw [puts_eq]
  have hcycle : (s.puts l).cycle = s.cycle := by rw [puts_eq]
  have hrank : (s.puts l).Outranked 0 Reg.GLB_VIOL_LAST_VALID Reg.GLB_VIOL_LAST_KIND kind ↔
      s.Outranked 0 Reg.GLB_VIOL_LAST_VALID Reg.GLB_VIOL_LAST_KIND kind := by
    rw [State.Outranked, State.Outranked, hs _ (by simp [globalViolFields]), hs _ (by simp [globalViolFields]), hviolAt, hcycle]
  refine ⟨?_, fun ho f hf => puts_get_congr l (hout (hrank.mp ho) f hf), fun ho => ?_, fun k => ?_, ?_⟩
  · rw [hs _ (by simp [globalViolFields]), ht _ (by simp [globalViolFields])]
    exact hcount
  · obtain ⟨h1, h2, h3, h4⟩ := hin fun hc => ho (hrank.mpr hc)
    refine ⟨(ht _ (by simp [globalViolFields])).trans h1, (ht _ (by simp [globalViolFields])).trans h2, fun e he => ?_,
      fun f hf => puts_get_congr l (h4 f hf)⟩
    refine (ht _ ?_).trans (h3 e he)
    simp only [List.mem_cons, List.not_mem_nil, or_false] at he
    obtain rfl | rfl := he <;> simp [globalViolFields]
  · rw [hviolAt, hviolAt, hcycle]
    exact hat k
  · rw [puts_eq t, puts_eq s, heq]

/-- The four limits of PCR_GOV_CFG as a written word leaves them. -/
theorem powerLimits_does (s : State) (w : Nat) :
    let t := s.puts (powerLimits (clampWord w (govCeilings false)))
    t.get Reg.PCR_GOV_CFG_PL1_W = min (w % 2 ^ 16) 850 ∧ t.get Reg.PCR_GOV_CFG_PL2_W = min (w / 2 ^ 16 % 2 ^ 16) 1000 ∧
    t.get Reg.PCR_GOV_CFG_ICC_A = min (w / 2 ^ 32 % 2 ^ 16) 1100 ∧ t.get Reg.PCR_GOV_CFG_TAU_MS = w / 2 ^ 48 % 2 ^ 16 ∧
    s.OnlyFields t [Reg.PCR_GOV_CFG_PL1_W, Reg.PCR_GOV_CFG_PL2_W, Reg.PCR_GOV_CFG_ICC_A, Reg.PCR_GOV_CFG_TAU_MS] := by
  obtain ⟨h1, h2, h3, h4⟩ := clampWord_power w
  generalize clampWord w (govCeilings false) = c at h1 h2 h3 h4 ⊢
  have hget := puts_get (powerLimits c) (by simp [powerLimits]) s
  simp only [powerLimits, List.forall_mem_cons, List.not_mem_nil, false_imp_iff, implies_true, and_true] at hget
  obtain ⟨htau, hicc, hpl2, hpl1⟩ := hget
  have hw : ∀ x : Nat, x % 2 ^ 16 % 2 ^ 16 = x % 2 ^ 16 := fun x => Nat.mod_mod x _
  refine ⟨hpl1.trans ((hw _).trans ?_), hpl2.trans ((hw _).trans h2), hicc.trans ((hw _).trans h3), htau.trans ((hw _).trans (by rw [h4])), puts_eq s _,
    (keeps_refl s _).puts _ (by simp [powerLimits])⟩
  rwa [Nat.pow_zero, Nat.div_one]

/-- The two targets of PCR_THERM_CFG as a written word leaves them. -/
theorem thermLimits_does (s : State) (w : Nat) :
    let t := s.puts (thermLimits (clampWord w (govCeilings true)))
    t.get Reg.PCR_THERM_CFG_LOGIC_TGT = min (w % 2 ^ 8) 100 ∧ t.get Reg.PCR_THERM_CFG_DRAM_TGT = min (w / 2 ^ 8 % 2 ^ 8) 95 ∧
    s.OnlyFields t [Reg.PCR_THERM_CFG_LOGIC_TGT, Reg.PCR_THERM_CFG_DRAM_TGT] := by
  obtain ⟨h1, h2, -⟩ := clampWord_therm w
  generalize clampWord w (govCeilings true) = c at h1 h2 ⊢
  have hget := puts_get (thermLimits c) (by simp [thermLimits]) s
  simp only [thermLimits, List.forall_mem_cons, List.not_mem_nil, false_imp_iff, implies_true, and_true] at hget
  obtain ⟨hdram, hlogic⟩ := hget
  have hw : ∀ x : Nat, x % 2 ^ 8 % 2 ^ 8 = x % 2 ^ 8 := fun x => Nat.mod_mod x _
  refine ⟨hlogic.trans ((hw _).trans ?_), hdram.trans ((hw _).trans h2), puts_eq s _, (keeps_refl s _).puts _ (by simp [thermLimits])⟩
  rwa [Nat.pow_zero, Nat.div_one]

theorem govLimitWrite_power_fits {s : State} {v : Word} (h : clampWord v.toNat (govCeilings false) = v.toNat) :
    exec (.govLimitWrite false v) s = .next (s.puts (powerLimits (clampWord v.toNat (govCeilings false)))) := by
  refine congrArg Host.Outcome.next ((if_pos h).trans ?_)
  rw [h]
  exact plainWrite_power s v.isLt

theorem govLimitWrite_power_cut {s : State} {v : Word} (h : clampWord v.toNat (govCeilings false) ≠ v.toNat) :
    exec (.govLimitWrite false v) s = .next ((s.violGlb 0 0 0x6400028).puts (powerLimits (clampWord v.toNat (govCeilings false)))) :=
  congrArg Host.Outcome.next ((if_neg h).trans (takeWord_power _ _))

theorem govLimitWrite_therm_fits {s : State} {v : Word} (h : clampWord v.toNat (govCeilings true) = v.toNat) (hv : v.toNat < 2 ^ 16) :
    exec (.govLimitWrite true v) s = .next (s.puts (thermLimits (clampWord v.toNat (govCeilings true)))) := by
  refine congrArg Host.Outcome.next ((if_pos h).trans ?_)
  rw [h]
  exact plainWrite_therm s hv

theorem govLimitWrite_therm_cut {s : State} {v : Word} (h : clampWord v.toNat (govCeilings true) ≠ v.toNat) :
    exec (.govLimitWrite true v) s = .next ((s.violGlb 0 0 0x6400038).puts (thermLimits (clampWord v.toNat (govCeilings true)))) :=
  congrArg Host.Outcome.next ((if_neg h).trans (takeWord_therm _ _))

theorem powerLimits_apart (w : Nat) : ∀ g ∈ globalViolFields, ∀ e ∈ powerLimits w, g.key ≠ e.1.key := by
  simp only [globalViolFields, powerLimits, List.forall_mem_cons, List.not_mem_nil, false_imp_iff, implies_true, and_true]
  decide

theorem thermLimits_apart (w : Nat) : ∀ g ∈ globalViolFields, ∀ e ∈ thermLimits w, g.key ≠ e.1.key := by
  simp only [globalViolFields, thermLimits, List.forall_mem_cons, List.not_mem_nil, false_imp_iff, implies_true, and_true]
  decide

/-- Settles O58. That a dip which begins in Hold only moves the level is log entry 68's choice, and which duty falls first where a DRAM temperature
and another limit are exceeded is a free value by log entry 67; the dip that latches Hold is the one less than a second after the sixteenth
before it. -/
theorem powerAndGovernor : Obligations.PowerAndGovernor := by
  unfold Obligations.PowerAndGovernor
  refine ⟨fun s mv => ⟨dipStart_high s, dipStart_held, dipStart_does⟩, fun s => ?_, fun s => ?_, fun s => ?_⟩
  · intro latched back
    exact ⟨fun minMv mv => ⟨dipEnd_quiet, dipEnd_latched, dipEnd_resumes⟩, brownRelease_refused, brownRelease_resumes⟩
  · intro idle req st dozes keeps rests wakes
    refine ⟨fun h => (dozeEntry_if s).trans (congrArg Host.Outcome.next (if_neg h)),
      fun h hs => (dozeEntry_if s).trans (congrArg Host.Outcome.next ((if_pos h).trans (enterOrDefer_held 1 hs))),
      fun h hs => ⟨_, (dozeEntry_if s).trans (congrArg Host.Outcome.next ((if_pos h).trans (enterOrDefer_run 1 hs))), rested_does s 1⟩,
      fun h => (keepEntry_if s).trans (congrArg Host.Outcome.next (if_neg h)),
      fun h hs => (keepEntry_if s).trans (congrArg Host.Outcome.next ((if_pos h).trans (enterOrDefer_held 2 hs))),
      fun h hs => ⟨_, (keepEntry_if s).trans (congrArg Host.Outcome.next ((if_pos h).trans (enterOrDefer_run 2 hs))), enterPower_keep_does h.2.2.2.1⟩,
      fun h => congrArg Host.Outcome.next (if_pos h), fun h hs => congrArg Host.Outcome.next (wake_held h hs),
      fun h hs => ⟨_, congrArg Host.Outcome.next (wake_asleep h hs), toRun_wakes s⟩, fun r => ⟨fun hr => ?_, fun hr h hs => ?_, fun hr h => ?_⟩⟩
    · exact ⟨_, pstateRequest_quiet hr, putReq_does s r⟩
    · subst hr
      exact pstateRequest_wakes h hs
    · subst hr
      exact pstateRequest_counted h
  · intro a h icc
    refine ⟨governorInterval_does s, fun ma => ⟨iccExcess_quiet, iccExcess_lowers⟩, fun v => ?_⟩
    intro power temp fits cool
    obtain ⟨p1, p2, p3, p4⟩ := clampWord_power v.toNat
    obtain ⟨q1, q2, q3⟩ := clampWord_therm v.toNat
    have hv : v.toNat < 2 ^ 64 := v.isLt
    have hpower : power (s.puts (powerLimits (clampWord v.toNat (govCeilings false)))) := by
      obtain ⟨h1, h2, h3, h4, h5⟩ := powerLimits_does s v.toNat
      exact ⟨h1, h2, h3, h4.trans (Nat.mod_eq_of_lt (by omega)), h5⟩
    refine ⟨fun hf => ⟨_, govLimitWrite_power_fits ?_, hpower⟩, fun hf => ⟨_, govLimitWrite_power_cut ?_, _, hpower, ?_⟩,
      fun hc => ⟨_, govLimitWrite_therm_fits ?_ ?_, thermLimits_does s v.toNat⟩,
      fun hc ht => ⟨_, govLimitWrite_therm_cut ?_, _, thermLimits_does s v.toNat, ?_⟩⟩
    · obtain ⟨f1, f2, f3⟩ := hf
      omega
    · exact fun hc => hf ⟨by omega, by omega, by omega⟩
    · exact (counts_violGlb s 0 0 0x6400028 (by decide) (by decide)).puts (powerLimits_apart _)
    · obtain ⟨c1, c2⟩ := hc
      omega
    · obtain ⟨c1, c2⟩ := hc
      omega
    · omega
    · exact (counts_violGlb s 0 0 0x6400038 (by decide) (by decide)).puts (thermLimits_apart _)

end Sys2Proof.Machine
end

section
/-! The work ledger (R402 to R409): the start, the operation and the completion of a record, and from them O54. -/

namespace Sys2Proof.Machine

open Sys2Proof

/-! ## A record starts (R404, R406, R409) -/

section start

variable {s : State} {ws : List Nat} {op : Nat} {f : State → LedgerRec → State}

theorem ledger_waits (h : s.nextStarts ws = false) : s.ledger op ws f = s := by
  unfold State.ledger
  rw [h]
  rfl

theorem ledger_starts (h : s.nextStarts ws = true) (hop : recBits ws 0 7 0 = op) : s.ledger op ws f = s.startRec ws f :=
  if_pos (by rw [h, hop]; simp)

theorem startRec_fenced (h : bit (ws.getD 0 0) 8 = true) (hb : s.ledgerBad = true) : s.startRec ws f = s.countStart.endRec (s.recOf ws) 0x14 :=
  if_pos (by rw [h, hb]; rfl)

theorem startRec_bad (h : bit (ws.getD 0 0) 8 = false ∨ s.ledgerBad = false) (hb : recBad ws s.started = true) :
    s.startRec ws f = s.countStart.endRec (s.recOf ws) 0x10 := by
  refine (if_neg fun hc => ?_).trans (if_pos hb)
  obtain ⟨h1, h2⟩ := Bool.and_eq_true_iff.mp hc
  obtain h | h := h
  · exact absurd (h.symm.trans h1) (by decide)
  · exact absurd (h.symm.trans h2) (by decide)

/-- A good record's operation is carried out. -/
theorem ledger_good (h : s.GoodRecord op ws) : s.ledger op ws f = f s (s.recOf ws) := by
  obtain ⟨hstart, hop, hgood, hfence⟩ := h
  have hnot : ¬(bit (ws.getD 0 0) 8 && s.ledgerBad) = true := fun hc => by
    obtain ⟨h1, h2⟩ := Bool.and_eq_true_iff.mp hc
    exact absurd ((hfence h1).symm.trans h2) (by decide)
  rw [ledger_starts hstart hop]
  exact (if_neg hnot).trans (if_neg (by rw [hgood]; decide))

theorem started_countStart (s : State) : s.Started s.countStart := ⟨rfl, State.get_put_eq⟩

/-- A record that ends as it starts. -/
theorem endRec_does (s : State) (r : LedgerRec) (status : Nat) : s.Started (s.countStart.endRec r status) ∧
    (s.countStart.endRec r status).endedRecs = s.endedRecs ++ [{ r with status := status }] ∧
    s.KeepsFields (s.countStart.endRec r status) [Reg.HST_LEDGER_POS_STARTED] ∧
    s.countStart.endRec r status = { s with
      fields := (s.countStart.endRec r status).fields, started := s.started + 1, endedRecs := (s.countStart.endRec r status).endedRecs } :=
  ⟨started_countStart s, rfl, ((keeps_refl s _).of_fields (u := { s with started := s.started + 1 }) rfl rfl rfl).put (List.mem_singleton_self _), rfl⟩

end start

/-! ## STEP (R405, R406) -/

section step

variable {s : State} {rec : List Word} (h : s.GoodRecord 1 (recNats rec))

include h

theorem ledgerStep_keeper (hk : s.get Reg.GLB_ROLE_KEEPER = 1) :
    exec (.ledgerStep rec) s = .next (s.countStart.endRec (s.recOf (recNats rec)) 0x11) :=
  congrArg Host.Outcome.next ((ledger_good h).trans (if_pos (by rw [flag_eq, hk]; rfl)))

theorem ledgerStep_waits (hk : s.get Reg.GLB_ROLE_KEEPER = 0)
    (hw : s.stepQueue ≠ [] ∨ s.get Reg.TWN_STATE_STATE = 5 ∨ s.get Reg.TWN_STATE_STATE = 6) : exec (.ledgerStep rec) s = .next s :=
  congrArg Host.Outcome.next ((ledger_good h).trans ((if_neg (by rw [flag_eq, hk]; decide)).trans (if_pos hw)))

/-- On a worker the step joins Traverse's queue. -/
theorem ledgerStep_queues (hr : s.InRun) (hk : s.get Reg.GLB_ROLE_KEEPER = 0) (hq : s.stepQueue = []) (h5 : s.get Reg.TWN_STATE_STATE ≠ 5)
    (h6 : s.get Reg.TWN_STATE_STATE ≠ 6) : Does (.ledgerStep rec) s fun t => s.Started t ∧ s.KeepsFields t [Reg.HST_LEDGER_POS_STARTED] ∧
      t = { s with fields := t.fields, started := s.started + 1, openRecs := s.openRecs ++ [s.recOf (recNats rec)]
                   stepQueue := [⟨s.attachments, s.started, recBits (recNats rec) 2 47 0, recBits (recNats rec) 3 31 0⟩] } := by
  have hwake : s.countStart.wake = s.countStart := if_pos ((State.get_put_ne (by decide)).trans hr.1)
  refine ⟨_, congrArg Host.Outcome.next ((ledger_good h).trans ((if_neg (by rw [flag_eq, hk]; decide)).trans
    (if_neg (by rintro (hc | hc | hc) <;> contradiction)))), ?_⟩
  dsimp only
  rw [hwake]
  have hnone : s.countStart.stepQueue = [] := hq
  rw [hnone]
  exact ⟨started_countStart s, (endRec_does s (s.recOf (recNats rec)) 0).2.2.1, rfl⟩

end step

/-! ## WRITE (R405) -/

theorem gotFrame_get {s : State} {w : FrameWait} {f : FieldRef} (hf : f.key ≠ Reg.FLS_STATUS_FULL.key) : (s.gotFrame w).get f = s.get f := by
  unfold State.gotFrame
  split
  · exact (settleFull_eq { s with frameWaits := s.frameWaits.filter (· != w) }).2 f fun hm => hf (List.mem_singleton.mp hm)
  · rfl

/-- A count of the host's bytes is no field of an access. -/
theorem serves_copyCount {s t : State} (h : State.Serves AccessKey s t) :
    t.get Reg.HST_COPY_IN_COUNT = s.get Reg.HST_COPY_IN_COUNT ∧ t.get Reg.HST_COPY_OUT_COUNT = s.get Reg.HST_COPY_OUT_COUNT :=
  ⟨h.get (not_access (by decide) (by decide) (by decide) (by decide)), h.get (not_access (by decide) (by decide) (by decide) (by decide))⟩

theorem recBad_len {ws : List Nat} {k : Nat} (h : recBad ws k = false) : recBits ws 0 23 16 ≤ 192 := by
  simp only [recBad, Bool.or_eq_false_iff, decide_eq_false_iff_not, Nat.not_lt] at h
  exact h.1.2

/-- The payload of a WRITE record. -/
def writePayload (ws : List Nat) : List Byte := ((wordsToBytes (ws.drop 8)) ++ zeroBytes 192).take (recBits ws 0 23 16)

theorem writePayload_length {ws : List Nat} (h : recBits ws 0 23 16 ≤ 192) : (writePayload ws).length = recBits ws 0 23 16 := by
  rw [writePayload, List.length_take, List.length_append, zeroBytes, List.length_replicate]
  omega

/-- Bytes of a record written, counted, and the record ended. -/
def State.writeDone (t : State) (n : Nat) (r : LedgerRec) : State := ((t.gotFrame .ledger).count Reg.HST_COPY_IN_COUNT n).countStart.endRec r 1

theorem ledgerWrite_written {s t : State} {rec : List Word} {n : Nat} (h : s.GoodRecord 2 (recNats rec))
    (ht : State.lanternWrite 3 s (recBits (recNats rec) 2 47 0) (writePayload (recNats rec)) = (false, n, t)) :
    exec (.ledgerWrite rec) s = .next (t.writeDone n (s.recOf (recNats rec))) := by
  unfold writePayload at ht
  have haddr : (s.recOf (recNats rec)).addr = recBits (recNats rec) 2 47 0 := rfl
  change execLedgerWrite rec s = _
  rw [execLedgerWrite, ledger_good h]
  dsimp only
  rw [haddr, ht]
  rfl

theorem writeDone_does (t : State) (n : Nat) (r : LedgerRec) : t.Started (t.writeDone n r) ∧
    (t.writeDone n r).endedRecs = t.endedRecs ++ [{ r with status := 1 }] ∧ (t.writeDone n r).mem = t.mem ∧ (t.writeDone n r).chambers = t.chambers ∧
    (t.writeDone n r).get Reg.HST_COPY_IN_COUNT = (t.get Reg.HST_COPY_IN_COUNT + n) % 2 ^ 64 := by
  have hget := gotFrame_get (s := t) (w := .ledger) (f := Reg.HST_COPY_IN_COUNT) (by decide)
  have heq := gotFrame_eq t .ledger
  unfold State.writeDone
  generalize t.gotFrame .ledger = u at hget heq ⊢
  obtain ⟨h1, h2⟩ := started_countStart (u.count Reg.HST_COPY_IN_COUNT n)
  have hstarted : (u.count Reg.HST_COPY_IN_COUNT n).started = t.started := by rw [heq]; rfl
  rw [hstarted] at h1 h2
  refine ⟨⟨h1, h2⟩, ?_, ?_, ?_, ?_⟩
  · show u.endedRecs ++ _ = _
    rw [heq]
  · show u.mem = _
    rw [heq]
  · show u.chambers = _
    rw [heq]
  · refine Eq.trans (State.get_put_ne (by decide)) (Eq.trans State.get_put_eq ?_)
    rw [hget]
    rfl

theorem ledgerWrite_does {s : State} {rec : List Word} (h : s.GoodRecord 2 (recNats rec)) (hlen : 0 < recBits (recNats rec) 0 23 16)
    (hgran : recBits (recNats rec) 2 47 0 % 256 + recBits (recNats rec) 0 23 16 ≤ 256) (hw : s.Writable (recBits (recNats rec) 2 47 0))
    (hc : s.cachedLines (granuleOf (recBits (recNats rec) 2 47 0)) = []) : Does (.ledgerWrite rec) s fun t =>
      s.Started t ∧ s.Stores t (recBits (recNats rec) 2 47 0) (writePayload (recNats rec)) ∧
      t.endedRecs = s.endedRecs ++ [{ s.recOf (recNats rec) with status := 1 }] ∧
      t.get Reg.HST_COPY_IN_COUNT = (s.get Reg.HST_COPY_IN_COUNT + recBits (recNats rec) 0 23 16) % 2 ^ 64 ∧ t.chambers = s.chambers := by
  have hdlen := writePayload_length (recBad_len h.2.2.1)
  have hserves := serves_lanternWrite 3 s (recBits (recNats rec) 2 47 0) (writePayload (recNats rec))
  obtain ⟨t, ht, hst, hch⟩ := lanternWrite_ok 2 hw hc (List.ne_nil_of_length_pos (hdlen.symm ▸ hlen)) (hdlen.symm ▸ hgran)
  rw [ht] at hserves
  rw [hdlen] at ht
  dsimp only at hserves
  have hstarted : t.started = s.started := by rw [hserves.2]
  have hended : t.endedRecs = s.endedRecs := by rw [hserves.2]
  obtain ⟨d1, d2, d3, d4, d5⟩ := writeDone_does t (recBits (recNats rec) 0 23 16) (s.recOf (recNats rec))
  rw [State.Started, hstarted] at d1
  refine ⟨_, ledgerWrite_written h ht, d1, fun b => ?_, d2.trans (by rw [hended]), d5.trans (by rw [(serves_copyCount hserves).1]), d4.trans hch⟩
  rw [d3]
  exact hst b

/-! ## Copies (R405, R409) -/

theorem startCopy_starts {s : State} {op : Nat} {ws : List Nat} (h : s.GoodRecord op ws) : s.startCopy op ws =
    { s.countStart with openRecs := s.openRecs ++ [s.recOf ws] } := ledger_good h

theorem copyIn_starts {s : State} {rec : List Word} (h : s.GoodRecord 3 (recNats rec)) (hne : rec ≠ []) : exec (.copyIn rec []) s =
    .next { s.countStart with openRecs := s.openRecs ++ [s.recOf (recNats rec)] } :=
  congrArg Host.Outcome.next ((if_neg hne).trans (startCopy_starts h))

theorem copyOut_starts {s : State} {rec : List Word} (h : s.GoodRecord 4 (recNats rec)) (hne : rec ≠ []) : exec (.copyOut rec 0) s =
    .next { s.countStart with openRecs := s.openRecs ++ [s.recOf (recNats rec)] } :=
  congrArg Host.Outcome.next ((if_neg hne).trans (startCopy_starts h))

/-- A running copy's record replaced: it stays open, or ends with its last byte. -/
theorem putCopy_does (s : State) (r : LedgerRec) :
    s.putCopy r = { s with openRecs := (s.putCopy r).openRecs, endedRecs := (s.putCopy r).endedRecs } ∧
    (r.copied < r.bytes → (s.putCopy r).endedRecs = s.endedRecs ∧
      (s.putCopy r).openRecs = s.openRecs.map fun x => if x.gen = r.gen ∧ x.k = r.k then r else x) ∧
    (r.bytes ≤ r.copied → (s.putCopy r).endedRecs = s.endedRecs ++ [{ r with status := if r.poison then 0x12 else 1 }] ∧
      (s.putCopy r).openRecs = s.openRecs.filter fun x => !(x.gen == r.gen && x.k == r.k)) := by
  unfold State.putCopy
  by_cases h : r.bytes ≤ r.copied
  · rw [if_pos h]
    exact ⟨rfl, fun hc => absurd hc (Nat.not_lt.mpr h), fun _ => ⟨rfl, rfl⟩⟩
  · rw [if_neg h]
    refine ⟨rfl, fun _ => ⟨rfl, ?_⟩, fun hc => absurd hc h⟩
    simp only [Bool.and_eq_true, beq_iff_eq]

theorem fitBytes_length (n : Nat) (bs : List Byte) : (fitBytes n bs).length = n := by
  rw [fitBytes, List.length_take, List.length_append, zeroBytes, List.length_replicate]
  omega

/-- A piece of a copy that has been written: its bytes are counted, and the copy goes on or ends. -/
def State.pieceDone (t : State) (k : Nat) (r : LedgerRec) : State := ((t.gotFrame .ledger).count Reg.HST_COPY_IN_COUNT k).putCopy r

theorem copyInPiece_written {s t : State} {r : LedgerRec} {p : CopyPiece} (hp : p.poison = false)
    (ht : ((s.enterBank (r.addr + r.copied)).backInvalidate (granuleOf (r.addr + r.copied)) (wholeGranule (r.addr + r.copied)
        (fitBytes (min (256 - (r.addr + r.copied) % 256) (r.bytes - r.copied)) p.bytes))).writeIn 3 false (r.addr + r.copied)
          (fitBytes (min (256 - (r.addr + r.copied) % 256) (r.bytes - r.copied)) p.bytes) = (.done, t)) :
    s.copyInPiece r p = t.pieceDone (min (256 - (r.addr + r.copied) % 256) (r.bytes - r.copied))
      { r with copied := r.copied + min (256 - (r.addr + r.copied) % 256) (r.bytes - r.copied) } := by
  unfold State.copyInPiece
  dsimp only
  rw [hp, if_neg Bool.false_ne_true, ht, Bool.or_false]
  rfl

theorem pieceDone_does (t : State) (k : Nat) (r : LedgerRec) : (t.pieceDone k r).mem = t.mem ∧ (t.pieceDone k r).chambers = t.chambers ∧
    (t.pieceDone k r).get Reg.HST_COPY_IN_COUNT = (t.get Reg.HST_COPY_IN_COUNT + k) % 2 ^ 64 ∧
    (r.copied < r.bytes → (t.pieceDone k r).endedRecs = t.endedRecs ∧
      (t.pieceDone k r).openRecs = t.openRecs.map fun x => if x.gen = r.gen ∧ x.k = r.k then r else x) ∧
    (r.bytes ≤ r.copied → (t.pieceDone k r).endedRecs = t.endedRecs ++ [{ r with status := if r.poison then 0x12 else 1 }] ∧
      (t.pieceDone k r).openRecs = t.openRecs.filter fun x => !(x.gen == r.gen && x.k == r.k)) := by
  have hget := gotFrame_get (s := t) (w := .ledger) (f := Reg.HST_COPY_IN_COUNT) (by decide)
  have heq := gotFrame_eq t .ledger
  unfold State.pieceDone
  generalize t.gotFrame .ledger = u at hget heq ⊢
  obtain ⟨h1, h2, h3⟩ := putCopy_does (u.count Reg.HST_COPY_IN_COUNT k) r
  have hopen : (u.count Reg.HST_COPY_IN_COUNT k).openRecs = t.openRecs := by rw [heq]; rfl
  have hended : (u.count Reg.HST_COPY_IN_COUNT k).endedRecs = t.endedRecs := by rw [heq]; rfl
  rw [hopen, hended] at h2 h3
  refine ⟨?_, ?_, ?_, h2, h3⟩
  · rw [h1, heq]
    rfl
  · rw [h1, heq]
    rfl
  · rw [h1]
    refine (State.get_put_eq (s := u) (f := Reg.HST_COPY_IN_COUNT)).trans ?_
    rw [hget]
    rfl

section copyPiece

variable {s : State} {r : LedgerRec}

theorem copyIn_piece {p : CopyPiece} (hr : s.openRecs.find? (fun x => x.op == 3) = some r) : exec (.copyIn [] [p]) s = .next (s.copyInPiece r p) := by
  change execCopyIn [] [p] s = _
  have hrun : s.runningCopy 3 = some r := hr
  rw [execCopyIn, if_pos rfl, State.copyInPieces, hrun]
  rfl

theorem copyInPiece_does {p : CopyPiece} {a k : Nat} (hr : s.openRecs.find? (fun x => x.op == 3) = some r) (ha : a = r.addr + r.copied)
    (hk : k = min (256 - a % 256) (r.bytes - r.copied)) (hpos : 0 < k) (hp : p.poison = false) (hw : s.Writable a)
    (hc : s.cachedLines (granuleOf a) = []) : Does (.copyIn [] [p]) s fun t =>
      let q := { r with copied := r.copied + k }
      s.Stores t a (fitBytes k p.bytes) ∧ t.get Reg.HST_COPY_IN_COUNT = (s.get Reg.HST_COPY_IN_COUNT + k) % 2 ^ 64 ∧ t.chambers = s.chambers ∧
      (r.copied + k < r.bytes → t.endedRecs = s.endedRecs ∧ t.openRecs = s.openRecs.map fun x => if x.gen = r.gen ∧ x.k = r.k then q else x) ∧
      (r.bytes ≤ r.copied + k → t.endedRecs = s.endedRecs ++ [{ q with status := if r.poison then 0x12 else 1 }] ∧
        t.openRecs = s.openRecs.filter fun x => !(x.gen == r.gen && x.k == r.k)) := by
  subst ha
  have hbytes : fitBytes k p.bytes ≠ [] := List.ne_nil_of_length_pos (by rwa [fitBytes_length])
  have hserves := ((serves_enterBank s (r.addr + r.copied)).trans (serves_backInvalidate _ (granuleOf (r.addr + r.copied))
    (wholeGranule (r.addr + r.copied) (fitBytes k p.bytes)))).trans (serves_writeIn _ 3 false (r.addr + r.copied) (fitBytes k p.bytes))
  obtain ⟨t, ht, -, -, hst⟩ := unitWrite_ok hw hc hbytes 3 (wholeGranule (r.addr + r.copied) (fitBytes k p.bytes))
  rw [ht] at hserves
  dsimp only at hserves
  have hpiece := (copyIn_piece hr).trans (congrArg Host.Outcome.next (copyInPiece_written hp (hk ▸ ht)))
  rw [← hk] at hpiece
  obtain ⟨d1, d2, d3, d4, d5⟩ := pieceDone_does t k { r with copied := r.copied + k }
  have hopen : t.openRecs = s.openRecs := by rw [hserves.2]
  have hended : t.endedRecs = s.endedRecs := by rw [hserves.2]
  have hch : t.chambers = s.chambers := by rw [hserves.2]
  rw [hopen, hended] at d4 d5
  refine ⟨_, hpiece, fun b => ?_, d3.trans (by rw [(serves_copyCount hserves).1]), d2.trans hch, d4, d5⟩
  rw [d1, hst b, enterBank_mem]

/-- A unit reads bytes that lie in one granule. -/
theorem read_inGranule {a n : Nat} (h : s.Readable a) (hn : 0 < n) (hg : a % 256 + n ≤ 256) : ∃ t, s.read a n = (memRead s.mem a n, false, t) ∧ s.Looks t := by
  obtain ⟨t, ht, hl⟩ := readIn_bytes h n
  refine ⟨t, ?_, hl⟩
  have hk : min n (256 - a % 256) = n := by omega
  have hfuel : ∀ f, State.readFuel f t (a + n) 0 = ([], false, t) := fun f => by
    cases f with
    | zero => rfl
    | succ f => rfl
  rw [State.read, State.readFuel, if_neg (by omega)]
  dsimp only
  rw [hk, ht]
  dsimp only
  rw [Nat.sub_self, hfuel, List.append_nil]
  rfl

end copyPiece

theorem copyOut_line {s : State} {r : LedgerRec} (hr : s.openRecs.find? (fun x => x.op == 4) = some r) :
    exec (.copyOut [] 1) s = .next (s.copyOutLine r) := by
  change execCopyOut [] 1 s = _
  have hrun : s.runningCopy 4 = some r := hr
  rw [execCopyOut, if_pos rfl, show (1 : BitVec 16).toNat = 0 + 1 from rfl, State.copyOutLines, hrun]
  rfl

/-- A line of a copy that has been read, and goes to host memory. -/
def State.lineDone (t : State) (r : LedgerRec) (bs : List Byte) : State :=
  (State.count { t with hostWrites := t.hostWrites ++ [⟨r.haddr + r.copied, bs, false⟩] } Reg.HST_COPY_OUT_COUNT 64).putCopy
    { r with copied := r.copied + 64 }

theorem copyOutLine_read {s t : State} {r : LedgerRec} {bs : List Byte} (ht : s.read (r.addr + r.copied) 64 = (bs, false, t)) :
    s.copyOutLine r = t.lineDone r bs := by
  unfold State.copyOutLine
  rw [ht]
  dsimp only
  rw [Bool.or_false]
  rfl

theorem copyOutLine_does {s : State} {r : LedgerRec} {a : Nat} (hr : s.openRecs.find? (fun x => x.op == 4) = some r) (ha : a = r.addr + r.copied)
    (hg : a % 256 + 64 ≤ 256) (hread : s.Readable a) : Does (.copyOut [] 1) s fun t =>
      let q := { r with copied := r.copied + 64 }
      t.hostWrites = s.hostWrites ++ [⟨r.haddr + r.copied, memRead s.mem a 64, false⟩] ∧ t.mem = s.mem ∧ t.chambers = s.chambers ∧
      t.get Reg.HST_COPY_OUT_COUNT = (s.get Reg.HST_COPY_OUT_COUNT + 64) % 2 ^ 64 ∧
      (r.copied + 64 < r.bytes → t.endedRecs = s.endedRecs ∧ t.openRecs = s.openRecs.map fun x => if x.gen = r.gen ∧ x.k = r.k then q else x) ∧
      (r.bytes ≤ r.copied + 64 → t.endedRecs = s.endedRecs ++ [{ q with status := if r.poison then 0x12 else 1 }] ∧
        t.openRecs = s.openRecs.filter fun x => !(x.gen == r.gen && x.k == r.k)) := by
  subst ha
  obtain ⟨t, ht, hl⟩ := read_inGranule hread (by decide : 0 < 64) hg
  have hserves := serves_read (s := s) (r.addr + r.copied) 64
  rw [ht] at hserves
  dsimp only at hserves
  refine ⟨_, (copyOut_line hr).trans (congrArg Host.Outcome.next (copyOutLine_read ht)), ?_⟩
  have heq := hl.2
  have hcount := (serves_copyCount hserves).2
  obtain ⟨h1, h2, h3⟩ := putCopy_does
    (State.count { t with hostWrites := t.hostWrites ++ [⟨r.haddr + r.copied, memRead s.mem (r.addr + r.copied) 64, false⟩] } Reg.HST_COPY_OUT_COUNT 64)
    { r with copied := r.copied + 64 }
  have hopen : t.openRecs = s.openRecs := by rw [heq]
  have hended : t.endedRecs = s.endedRecs := by rw [heq]
  refine ⟨?_, ?_, ?_, ?_, fun h => (h2 h).imp (fun h => h.trans hended) fun h => h.trans (hopen ▸ rfl),
    fun h => (h3 h).imp (fun h => h.trans (hended ▸ rfl)) fun h => h.trans (hopen ▸ rfl)⟩
  · rw [State.lineDone, h1]
    show t.hostWrites ++ _ = _
    rw [heq]
  · rw [State.lineDone, h1]
    show t.mem = _
    rw [heq]
  · rw [State.lineDone, h1]
    show t.chambers = _
    rw [heq]
  · rw [State.lineDone, h1]
    refine (State.get_put_eq (s := { t with hostWrites := t.hostWrites ++ [⟨r.haddr + r.copied, memRead s.mem (r.addr + r.copied) 64, false⟩] })
      (f := Reg.HST_COPY_OUT_COUNT)).trans ?_
    show (t.get Reg.HST_COPY_OUT_COUNT + 64) % 2 ^ 64 = _
    rw [hcount]

/-! ## Completion (R407) -/

theorem tryIrq_eq (s : State) : s.tryIrq = { s with irq := s.tryIrq.irq, irqWait := s.tryIrq.irqWait, irqAt := s.tryIrq.irqAt } := by
  unfold State.tryIrq
  extract_lets free
  split <;> rfl

/-- A single completion that is held is written where it may be. -/
theorem flushCmpl_one {u : State} {c : Completion} (hd : u.detaching = false) (hc : u.heldCmpl = [c]) :
    u.flushCmpl = (if u.mayComplete then u.writeCmpl c [] else u).tryIrq := by
  have hheld : State.writeHeld u.heldCmpl.length u = if u.mayComplete then u.writeCmpl c [] else u := by
    rw [hc]
    show State.writeHeld (0 + 1) u = _
    rw [State.writeHeld, hc]
    rfl
  unfold State.flushCmpl
  rw [hheld, finishDetach_none]
  rw [tryIrq_eq]
  split
  · exact hd
  · exact hd

section complete

variable {s : State} {r : LedgerRec} {rs : List LedgerRec}

/-- The post of a record that ended OK. -/
def State.recPost (s : State) (r : LedgerRec) : State := if r.post && r.status == 1 then s.postSig r.sig r.set r.value else s

theorem recPost_does (hr : s.InRun) : s.recPost r = { s with fields := (s.recPost r).fields } ∧
    s.KeepsFields (s.recPost r) [Reg.GLB_SIGn_VALUE r.sig] ∧
    ∀ k < 4096, (s.recPost r).sig k = if (r.post = true ∧ r.status = 1) ∧ k = r.sig then (if r.set then r.value else s.sig k + r.value) % 2 ^ 64 else s.sig k := by
  have hpost : s.postSig r.sig r.set r.value = s.put (Reg.GLB_SIGn_VALUE r.sig) (if r.set then r.value else s.sig r.sig + r.value) := by
    unfold State.postSig
    rw [wake_run hr, ite_self]
  unfold State.recPost
  by_cases hp : r.post = true ∧ r.status = 1
  · rw [if_pos (by simp [hp]), hpost]
    refine ⟨rfl, (keeps_refl s _).put (List.mem_singleton_self _), fun k hk => ?_⟩
    by_cases he : k = r.sig
    · subst he
      exact State.get_put_eq.trans (if_pos ⟨hp, rfl⟩).symm
    · exact (State.get_put_ne fun hc => he (sig_key_inj.mp hc)).trans (if_neg fun hc => he hc.2).symm
  · rw [if_neg (by simpa using hp)]
    exact ⟨rfl, keeps_refl s _, fun k _ => (if_neg fun hc => hp hc.1).symm⟩

/-- A record completed, with no completion held before. -/
theorem completeRec_does (hr : s.InRun) (hs : r.sig < 4096) (hc : s.heldCmpl = []) :
    s.KeepsFields (s.completeRec r rs) [Reg.GLB_SIGn_VALUE r.sig] ∧
    (∀ k < 4096, (s.completeRec r rs).sig k =
      if (r.post = true ∧ r.status = 1) ∧ k = r.sig then (if r.set then r.value else s.sig k + r.value) % 2 ^ 64 else s.sig k) ∧
    s.completeRec r rs = { s with
      fields := (s.completeRec r rs).fields, endedRecs := rs, heldCmpl := [⟨r, s.get Reg.ERR_STATUS_WRITTEN⟩]
      ledgerBad := s.ledgerBad || (r.status != 1 && r.gen == s.attachments) } := by
  obtain ⟨heq, hkeep, hsig⟩ := recPost_does (s := { s with endedRecs := rs }) (r := r) hr
  have hstep : s.completeRec r rs = { State.recPost { s with endedRecs := rs } r with
      heldCmpl := (State.recPost { s with endedRecs := rs } r).heldCmpl ++ [⟨r, (State.recPost { s with endedRecs := rs } r).get Reg.ERR_STATUS_WRITTEN⟩]
      ledgerBad := (State.recPost { s with endedRecs := rs } r).ledgerBad ||
        (r.status != 1 && r.gen == (State.recPost { s with endedRecs := rs } r).attachments) } := rfl
  have herr : (State.recPost { s with endedRecs := rs } r).get Reg.ERR_STATUS_WRITTEN = s.get Reg.ERR_STATUS_WRITTEN := by
    refine hkeep _ fun hk => ?_
    rw [List.map_singleton, List.mem_singleton, Reg.ERR_STATUS_WRITTEN_key, Reg.GLB_SIGn_VALUE_key] at hk
    omega
  rw [hstep]
  generalize State.recPost { s with endedRecs := rs } r = u at heq hkeep hsig herr ⊢
  refine ⟨hkeep, hsig, ?_⟩
  rw [herr]
  conv_lhs => rw [heq]
  rw [hc]
  rfl

/-- What a completion's place and words depend on. -/
theorem mayComplete_congr {t : State} (hget : ∀ f ∈ [Reg.HST_LINK_STATE, Reg.MBX_CTL_STATE, Reg.HST_CMPL_BASE_LOG2], t.get f = s.get f)
    (hcount : t.cmplCount = s.cmplCount) (hhead : t.cmplHead = s.cmplHead) : t.mayComplete = s.mayComplete := by
  rw [State.mayComplete, State.mayComplete, State.linkUp, State.linkUp, hget _ (by simp), hget _ (by simp), hget _ (by simp), hcount, hhead]

theorem cmplWords_congr {t : State} (hlog : t.get Reg.HST_CMPL_BASE_LOG2 = s.get Reg.HST_CMPL_BASE_LOG2) (hcount : t.cmplCount = s.cmplCount)
    (hgen : t.attachments = s.attachments) (c : Completion) : t.cmplWords c = s.cmplWords c := by
  rw [State.cmplWords, State.cmplWords, hlog, hcount, hgen]

theorem recordComplete_does (hr : s.InRun) (hd : s.detaching = false) (hc : s.heldCmpl = []) (he : s.endedRecs = r :: rs) (hs : r.sig < 4096) :
    let c : Completion := ⟨r, s.get Reg.ERR_STATUS_WRITTEN⟩
    let posts := r.post = true ∧ r.status = 1
    Does .recordComplete s fun t => t.endedRecs = rs ∧ t.mem = s.mem ∧ t.chambers = s.chambers ∧
      t.ledgerBad = (s.ledgerBad || (r.status != 1 && r.gen == s.attachments)) ∧
      (∀ k < 4096, t.sig k = if posts ∧ k = r.sig then (if r.set then r.value else s.sig k + r.value) % 2 ^ 64 else s.sig k) ∧
      (s.mayComplete = false → t.heldCmpl = [c] ∧ t.hostWrites = s.hostWrites ∧ t.cmplCount = s.cmplCount) ∧
      (s.mayComplete = true → t.heldCmpl = [] ∧ t.cmplCount = s.cmplCount + 1 ∧ t.hostWrites = s.hostWrites ++
        [⟨s.get Reg.HST_CMPL_BASE_ADDR + 64 * (s.cmplCount % 2 ^ s.get Reg.HST_CMPL_BASE_LOG2), wordsToBytes (s.cmplWords c), false⟩]) := by
  intro c posts
  have hexec : exec .recordComplete s = .next (s.completeRec r rs).flushCmpl := by
    change execRecordComplete s = _
    rw [execRecordComplete, he]
  obtain ⟨hkeep, hsig, heq⟩ := completeRec_does (rs := rs) hr hs hc
  generalize s.completeRec r rs = u at hexec hkeep hsig heq
  have hget : ∀ f : FieldRef, f.key < 0x80000 * 64 ∨ 0x90000 * 64 ≤ f.key → u.get f = s.get f := fun f hf => hkeep f fun hk => by
    rw [List.map_singleton, List.mem_singleton, Reg.GLB_SIGn_VALUE_key] at hk
    omega
  have hcount : u.cmplCount = s.cmplCount := by rw [heq]
  have hmay : u.mayComplete = s.mayComplete := mayComplete_congr
    (by simp only [List.forall_mem_cons, List.not_mem_nil, false_imp_iff, implies_true, and_true]
        exact ⟨hget _ (by decide), hget _ (by decide), hget _ (by decide)⟩) hcount (by rw [heq])
  have hwords : u.cmplWords c = s.cmplWords c := cmplWords_congr (hget _ (by decide)) hcount (by rw [heq]) c
  rw [flushCmpl_one (c := c) (by rw [heq]; exact hd) (by rw [heq])] at hexec
  refine ⟨_, hexec, ?_⟩
  rw [tryIrq_eq, hmay]
  cases hm : s.mayComplete with
  | false =>
    rw [if_neg Bool.false_ne_true]
    exact ⟨by rw [heq], by rw [heq], by rw [heq], by rw [heq], hsig, fun _ => ⟨by rw [heq], by rw [heq], hcount⟩, fun h => absurd h (by decide)⟩
  | true =>
    rw [if_pos rfl]
    refine ⟨?_, ?_, ?_, ?_, hsig, fun h => absurd h (by decide), fun _ => ⟨rfl, ?_, ?_⟩⟩
    · show u.endedRecs = _
      rw [heq]
    · show u.mem = _
      rw [heq]
    · show u.chambers = _
      rw [heq]
    · show u.ledgerBad = _
      rw [heq]
    · show u.cmplCount + 1 = _
      rw [hcount]
    · show u.hostWrites ++ [⟨u.get Reg.HST_CMPL_BASE_ADDR + 64 * (u.cmplCount % 2 ^ u.get Reg.HST_CMPL_BASE_LOG2), wordsToBytes (u.cmplWords c), false⟩] = _
      rw [hwords, hcount, hget _ (by decide), hget _ (by decide), heq]

theorem recordComplete_none (hd : s.detaching = false) (hc : s.heldCmpl = []) (he : s.endedRecs = []) (hi : s.irqWait = false) :
    exec .recordComplete s = .next s := by
  change execRecordComplete s = _
  rw [execRecordComplete, he]
  exact congrArg Host.Outcome.next ((flushCmpl_quiet hc hi).trans (finishDetach_none hd))

theorem doorbell_open {tail head : Word} (ho : s.get Reg.HST_LINK_STATE = 2 ∧ s.get Reg.MBX_CTL_STATE = 3) (hd : s.detaching = false)
    (hc : s.heldCmpl = []) (hi : s.irqWait = false) : exec (.doorbellWake tail head) s = .next { s with ledgerTail := tail.toNat, cmplHead := head.toNat } := by
  refine congrArg Host.Outcome.next ((if_pos ?_).trans ?_)
  · simp [State.linkUp, ho]
  · exact (flushCmpl_quiet (s := { s with ledgerTail := tail.toNat, cmplHead := head.toNat }) hc hi).trans (finishDetach_none hd)

theorem doorbell_closed {tail head : Word} (ho : ¬(s.get Reg.HST_LINK_STATE = 2 ∧ s.get Reg.MBX_CTL_STATE = 3)) :
    exec (.doorbellWake tail head) s = .next s := by
  refine congrArg Host.Outcome.next (if_neg ?_)
  simpa [State.linkUp] using ho

end complete

/-- Settles O54. How often the device reads the doorbell line and the order among records that end are the choices of log entry 61. -/
theorem ledgerRecords : Obligations.LedgerRecords := by
  unfold Obligations.LedgerRecords
  intro s hr
  refine ⟨fun rec => ?_, fun _ _ _ _ => copyInPiece_does, fun _ _ => copyOutLine_does,
    fun hd hc => ⟨recordComplete_none hd hc, fun _ _ he => recordComplete_does hr hd hc he⟩,
    fun tail head => ⟨doorbell_closed, doorbell_open⟩⟩
  intro ws r a len ends
  have hends : ∀ {c : Instr} {status : Nat}, exec c s = .next (s.countStart.endRec r status) → ends c status := fun {_ status} h => ⟨_, h, endRec_does s r status⟩
  have hledger : ∀ c ∈ [(Instr.ledgerNop rec, 0), (.ledgerStep rec, 1), (.ledgerWrite rec, 2)], ∃ f, exec c.1 s = .next (s.ledger c.2 ws f) := by
    simp only [List.forall_mem_cons, List.not_mem_nil, false_imp_iff, implies_true, and_true]
    exact ⟨⟨_, rfl⟩, ⟨_, rfl⟩, ⟨_, rfl⟩⟩
  refine ⟨fun c hc => ?_, fun h => hends (congrArg Host.Outcome.next (ledger_good h)), fun h => ?_, fun h hlen hg hw hcl => ?_, fun h hne => ?_,
    fun h hne => ?_⟩
  · obtain ⟨f, hf⟩ := hledger c hc
    refine ⟨fun h => by rw [hf, ledger_waits h], fun h hop hb hbad => hends ?_, fun h hop hb hbad => hends ?_⟩
    · rw [hf, ledger_starts h hop, startRec_fenced hb hbad]
    · rw [hf, ledger_starts h hop, startRec_bad hb hbad]
  · exact ⟨fun hk => hends (ledgerStep_keeper h hk), ledgerStep_waits h, ledgerStep_queues h hr⟩
  · exact ledgerWrite_does h hlen hg hw hcl
  · exact ⟨_, copyIn_starts h hne, started_countStart s, (endRec_does s r 0).2.2.1, rfl⟩
  · exact ⟨_, copyOut_starts h hne, started_countStart s, (endRec_does s r 0).2.2.1, rfl⟩

end Sys2Proof.Machine
end

section
/-! O53 fails: a UIO write is merged line by line, and each line is checked anew, so that a seal which begins inside the granule drops part of it. -/

namespace Sys2Proof.Machine

open Sys2Proof

/-- A device in Run with its link up, as after reset but for a landing region over the first pages, the frame of page 0, and the staging of an
image update from 0x40 to 0x80. -/
def sealedLanding : State :=
  { State.reset with
    fields := [(Reg.GLB_ID_LAYERS.key, 12), (Reg.HST_LINK_STATE.key, 2), (Reg.HST_CFG_INGEST_MODE.key, 1), ((Reg.HST_LANDi_BASE_ADDR 0).key, 0),
      ((Reg.HST_LANDi_CFG_PAGES 0).key, 1), ((Reg.HST_LANDi_CFG_SIG 0).key, 9), ((Reg.HST_LANDi_CFG_WR 0).key, 1),
      ((Reg.HST_LANDi_CFG_VALID 0).key, 1), (Reg.PCR_PSTATE_STATE.key, 0), (Reg.PCR_PSTATE_HOLD.key, 0), (Reg.TWN_STATE_STATE.key, 0)]
    memActive := true, pages := [(0, .bonded 0)], staging := some ⟨0x40, 64⟩ }

theorem sealedLanding_inRun : sealedLanding.InRun := by
  constructor
  · decide
  · decide

theorem sealedLanding_open : sealedLanding.HostOpen := by
  constructor
  · decide
  · rfl

theorem sealedLanding_region : sealedLanding.uioRegion true 0x3F 2 = some 0 := by decide

theorem sealedLanding_unclaimed : sealedLanding.claimedIn 0x3F 2 = [] := by decide

theorem sealedLanding_writable : sealedLanding.Writable 0x3F := by
  refine ⟨?_, ?_, ?_, ?_, ?_⟩
  · decide
  · decide
  · decide
  · decide
  · decide

/-- The write of two bytes from 0x3F on stores the first alone: the second lies behind the seal. -/
theorem sealedLanding_written : ∃ t, exec (.uioWrite 0x3F [1, 1]) sealedLanding = .next t ∧ memByte t.mem 0x40 = 0 := by
  refine ⟨_, rfl, ?_⟩
  decide +kernel

/-- Refutes O53: in `sealedLanding` a UIO write of two bytes lies in one granule, and its first address may be written, yet its second byte is not
stored. A write of the host's side goes line by line (R400, R411), and the second line is sealed (R433). No update stages its image from inside a
granule, but the statement is of every state. -/
theorem not_hostMemory : ¬Obligations.HostMemory := by
  intro h
  obtain ⟨-, -, -, -, -, huio⟩ := h sealedLanding sealedLanding_inRun
  obtain ⟨-, hopen⟩ := huio 0x3F [1, 1] 0
  obtain ⟨-, -, -, hwrite, -⟩ := hopen sealedLanding_open
  obtain ⟨t, ht, hstores, -⟩ := hwrite 0 sealedLanding_region sealedLanding_unclaimed rfl (by decide) (by decide) sealedLanding_writable (by decide)
  obtain ⟨u, hu, hbyte⟩ := sealedLanding_written
  obtain rfl : u = t := Host.Outcome.next.inj (hu.symm.trans ht)
  have hstored := hstores 0x40
  rw [hbyte, if_pos (by decide)] at hstored
  exact absurd hstored (by decide)

end Sys2Proof.Machine
end

section
/-! The service panel (R467 to R476): a pin and its event, what a press, a latch and a cartridge do, and from them O59. -/

namespace Sys2Proof.Machine

open Sys2Proof

/-! ## A pin of the panel and its event -/

/-- A pin of the panel takes a value and raises a bit of SVC_EVENT (R467). -/
def State.pin (s : State) (f : FieldRef) (v : Nat) (e : FieldRef) (i : Nat) : State := (s.put f v).panelEvent e i

/-- A state differs from another in the panel's registers and in interrupts alone. -/
def State.OnlyPanel (s t : State) : Prop :=
  t = { s with fields := t.fields, irq := t.irq } ∧ ∀ f : FieldRef, f.key < 0x6000000 * 64 ∨ 0x6000040 * 64 ≤ f.key → t.get f = s.get f

theorem bit_testBit (x i : Nat) : bit x i = x.testBit i := by
  rw [bit, Nat.testBit_eq_decide_div_mod_eq]
  rfl

theorem panelEvent_bit (s : State) {e : FieldRef} {i : Nat} (hi : i < e.w) : bit ((s.panelEvent e i).get e) i = true := by
  unfold State.panelEvent
  split
  · assumption
  · next h =>
    have hget : ((s.put e (s.get e + 2 ^ i)).raiseIrq 3).get e = (2 ^ i + s.get e) % 2 ^ e.w := by
      rw [Nat.add_comm]
      exact State.get_put_eq
    rw [bit_testBit, Bool.not_eq_true] at h
    rw [hget, bit_testBit, Nat.testBit_mod_two_pow, Nat.testBit_two_pow_add_eq, h, decide_eq_true hi]
    rfl

section
variable (s : State) {f e : FieldRef} {i v : Nat}

theorem pin_ok (hne : f.key ≠ e.key) (hv : v % 2 ^ f.w = v) (hi : i < e.w) : let u := s.pin f v e i
    u.get f = v ∧ bit (u.get e) i = true ∧ s.KeepsFields u [f, e] ∧ u = { s with fields := u.fields, irq := u.irq } := by
  intro u
  obtain ⟨hkeep, F, I, heq⟩ := panelEvent_ok (s.put f v) e i
  refine ⟨(hkeep f ?_).trans (State.get_put_eq.trans hv), panelEvent_bit _ hi, ((keeps_refl s _).put (by simp)).trans (hkeep.mono (by simp)), ?_⟩
  · rw [List.map_singleton, List.mem_singleton]
    exact hne
  · simp only [u, State.pin]
    rw [heq]
    rfl

theorem pin_panel (hf : 0x6000000 * 64 ≤ f.key ∧ f.key < 0x6000040 * 64) (he : 0x6000000 * 64 ≤ e.key ∧ e.key < 0x6000040 * 64)
    (hne : f.key ≠ e.key) (hv : v % 2 ^ f.w = v) (hi : i < e.w) : s.OnlyPanel (s.pin f v e i) := by
  obtain ⟨-, -, hkeep, heq⟩ := pin_ok s hne hv hi
  refine ⟨heq, fun g hg => hkeep g ?_⟩
  simp only [List.map_cons, List.map_nil, List.mem_cons, List.not_mem_nil, or_false]
  omega

end

section
variable {s u : State} (h : s.OnlyPanel u)
include h

theorem State.OnlyPanel.run (hs : s.InRun) : u.InRun := by
  refine ⟨(h.2 _ (by decide)).trans hs.1, ?_⟩
  rw [State.held, flag_eq, h.2 _ (by decide)]
  exact hs.2

theorem State.OnlyPanel.slotState {k : Nat} (hk : k < 6) : u.slotState k = s.slotState k := h.2 _ (by rw [Reg.BMCm_STATE_STATE_key]; omega)

theorem State.OnlyPanel.draining : u.draining = s.draining :=
  List.find?_congr fun k hk => by
    have h6 : k < 6 := by
      simp only [slotList, List.mem_cons, List.not_mem_nil, or_false] at hk
      omega
    rw [h.slotState h6]

theorem State.OnlyPanel.freeCart {k : Nat} (hk : k < 6) : u.freeCart k = s.freeCart k := by
  have hkind : u.slotFrames k = s.slotFrames k := by
    rw [State.slotFrames, h.2 _ (by rw [Reg.BMCm_STATE_KIND_key]; omega)]
    rfl
  have hused : u.usedFrames = s.usedFrames := by rw [h.1]; rfl
  rw [State.freeCart, h.slotState hk, hkind, hused]
  rfl

theorem State.OnlyPanel.freeCarts : u.freeCarts = s.freeCarts := by
  rw [State.freeCarts, State.freeCarts, List.map_congr_left fun k hk => h.freeCart (by
    simp only [slotList, List.mem_cons, List.not_mem_nil, or_false] at hk
    omega)]

theorem State.OnlyPanel.freeBonded : u.freeBonded = s.freeBonded := by
  have hused : u.usedFrames = s.usedFrames := by rw [h.1]; rfl
  rw [State.freeBonded, hused, State.bondedPages, h.2 _ (by decide)]
  rfl

theorem State.OnlyPanel.drainReason {m : Nat} (hm : m < 6) : u.drainReason m = s.drainReason m := by
  have hpin : (u.objects.any fun o => o.pin && u.objOnSlot o m) = s.objects.any fun o => o.pin && s.objOnSlot o m := by rw [h.1]; rfl
  have hheld : u.heldOn m = s.heldOn m := by rw [h.1]; rfl
  rw [State.drainReason, h.slotState hm, h.draining, hpin, h.freeBonded, h.freeCarts, h.freeCart hm, hheld, h.2 _ (by decide)]
  rfl

end

/-! ## Slots -/

section
variable (s : State) {m st : Nat}

/-- A slot that takes another state has power where it is ADDING, IN_SERVICE or DRAINING. -/
theorem setSlot_power (hne : s.slotState m ≠ st) : mapGet false (s.setSlot m st).slotPower m = (decide (2 ≤ st) && decide (st ≤ 4)) := by
  unfold State.setSlot
  rw [if_neg hne]
  dsimp only
  generalize hx : State.mk .. = x
  have hpower : x.slotPower = mapSet false s.slotPower m (decide (2 ≤ st) && decide (st ≤ 4)) := by rw [← hx]
  obtain ⟨-, F, I, heq⟩ := panelEvent_ok ((if st = 3 ∨ st = 4 then x else x.put (Reg.BMCm_STATE_CHANNELS m) 0).put (Reg.BMCm_STATE_STATE m) st)
    Reg.SVC_EVENT_SLOT_STATE m
  rw [heq]
  have hput : ((if st = 3 ∨ st = 4 then x else x.put (Reg.BMCm_STATE_CHANNELS m) 0).put (Reg.BMCm_STATE_STATE m) st).slotPower = x.slotPower := by
    split <;> rfl
  rw [hput, hpower, mapGet_set, if_pos rfl]

/-- What a change of a slot's state leaves. -/
def slotFields (m : Nat) : List FieldRef := [Reg.BMCm_STATE_STATE m, Reg.BMCm_STATE_CHANNELS m, Reg.SVC_EVENT_SLOT_STATE]

theorem setSlot_rel (hm : m < 6) (hst : st < 8) : let t := s.setSlot m st
    t.slotState m = st ∧ s.KeepsFields t (slotFields m) ∧ t = { s with fields := t.fields, irq := t.irq, slotPower := t.slotPower } := by
  intro t
  obtain ⟨h, hkeep, F, I, P, heq⟩ := setSlot_ok s m st hm hst
  refine ⟨h, hkeep, ?_⟩
  simp only [t]
  rw [heq]

end

/-! ## States that differ in little -/

section
variable {s u t : State} (hu : u = { s with fields := u.fields, irq := u.irq })
include hu

theorem panel_code (ht : t = { u with fields := t.fields, slotCode := t.slotCode }) :
    t = { s with fields := t.fields, irq := t.irq, slotCode := t.slotCode } := by
  have hirq : t.irq = u.irq := by rw [ht]
  conv_lhs => rw [ht, hu]
  rw [hirq]

theorem panel_power (ht : t = { u with fields := t.fields, irq := t.irq, slotPower := t.slotPower }) :
    t = { s with fields := t.fields, irq := t.irq, slotPower := t.slotPower } := by
  conv_lhs => rw [ht, hu]

theorem panel_reset (ht : t = { u with fields := t.fields, irq := t.irq, slotPower := t.slotPower, arbs := t.arbs }) :
    t = { s with fields := t.fields, irq := t.irq, slotPower := t.slotPower, arbs := t.arbs } := by
  conv_lhs => rw [ht, hu]

end

/-! ## What a press does (R471) -/

section
variable (u : State) {m c : Nat}

theorem acceptDrain_press (hm : m < 6) : let t := u.acceptDrain m none (some c)
    t.slotState m = 4 ∧ t.drainPress = some c ∧ t.drainCmd = none ∧ t.get Reg.FLS_DRAIN_SLOT = m ∧ t.chambers = u.chambers ∧ t.objects = u.objects ∧
    t.pages = u.pages ∧ u.KeepsFields t [Reg.FLS_DRAIN_SLOT, Reg.BMCm_STATE_STATE m, Reg.SVC_EVENT_SLOT_STATE] := by
  intro t
  obtain ⟨hst, -, hslot, hkeep, heq⟩ := startDrain_rel u hm none
  have ht : t = { { u.startDrain m none with drainPress := some c } with moves := t.moves } :=
    (decides_settle { u.startDrain m none with drainPress := some c }).1
  have hget : ∀ f, t.get f = (u.startDrain m none).get f := fun f => by rw [ht]; rfl
  generalize u.startDrain m none = x at *
  refine ⟨(hget _).trans hst, by rw [ht], ?_, (hget _).trans hslot, ?_, ?_, ?_, fun f hf => (hget f).trans (hkeep f hf)⟩
  · rw [ht, heq]
  · rw [ht, heq]
  · rw [ht, heq]
  · rw [ht, heq]

theorem cancelDrain_press (hm : m < 6) (hd : u.drainCmd = none) : let t := u.cancelDrain m false
    t.slotState m = 3 ∧ t.drainPress = none ∧ t.chambers = u.chambers ∧ t.objects = u.objects ∧ t.pages = u.pages ∧
    u.KeepsFields t [Reg.BMCm_STATE_STATE m, Reg.SVC_EVENT_SLOT_STATE] := by
  intro t
  obtain ⟨hst, -, hkeep, heq⟩ := cancelled_rel u hm
  have hcmd : ((u.abortMoves fun v => v.kind == .relocation).setSlot m 3).drainCmd = none := by
    obtain ⟨-, -, F, I, P, hx⟩ := setSlot_ok (u.abortMoves fun v => v.kind == .relocation) m 3 hm (by decide)
    rw [hx]
    exact hd
  have hsettle : t = (u.cancelled m).settle := congrArg State.settle (endDrainCmd_none hcmd 6)
  have ht : t = { u.cancelled m with moves := t.moves } := by
    rw [hsettle]
    exact (decides_settle (u.cancelled m)).1
  have hget : ∀ f, t.get f = (u.cancelled m).get f := fun f => by rw [ht]; rfl
  clear_value t
  generalize u.cancelled m = x at *
  refine ⟨(hget _).trans hst, ?_, ?_, ?_, ?_, fun f hf => (hget f).trans (hkeep f hf)⟩
  · rw [ht, heq]
  · rw [ht, heq]
  · rw [ht, heq]
  · rw [ht, heq]

theorem refusePress_rel (hm : m < 6) (hc : c ≤ 4) : let t := u.refusePress m c
    t.get (Reg.SVC_SLOTm_REFUSED m) = c ∧ mapGet 0 t.slotCode m = c ∧ t.get Reg.FLS_DRAIN_REASON = c ∧
    u.KeepsFields t [Reg.FLS_DRAIN_REASON, Reg.FLS_DRAIN_SLOT, Reg.SVC_SLOTm_REFUSED m] ∧ t = { u with fields := t.fields, slotCode := t.slotCode } := by
  intro t
  obtain ⟨heq, hreason, -, -, hkeep⟩ := refuseDrain_records u hm hc
  have hrefused : t.get (Reg.SVC_SLOTm_REFUSED m) = c := State.get_put_eq.trans (Nat.mod_eq_of_lt (show c < 2 ^ 4 by omega))
  have hlast : t.get Reg.FLS_DRAIN_REASON = c := (State.get_put_ne (by simp; omega)).trans hreason
  have hkeeps : u.KeepsFields t [Reg.FLS_DRAIN_REASON, Reg.FLS_DRAIN_SLOT, Reg.SVC_SLOTm_REFUSED m] := (hkeep.mono (by simp)).put (by simp)
  refine ⟨hrefused, ?_, hlast, hkeeps, ?_⟩
  · exact (mapGet_set ..).trans (if_pos rfl)
  · simp only [t, State.refusePress]
    rw [heq]
    rfl

theorem drainReason_le (u : State) (m : Nat) : u.drainReason m ≤ 4 := by
  unfold State.drainReason
  split_ifs <;> decide

end

/-! ## A cartridge reset (R446, R472, R473) -/

/-- The state in which a slot's cartridge has been reset and no add has failed. -/
def State.emptied (s : State) (m : Nat) : State := (s.resetCartridge m).put (Reg.SVC_SLOTm_ADD_FAIL m) 0

/-- What is outside a slot's cartridge registers, its ADD_FAIL and the event of slot states. -/
def OffSlot (m k : Nat) : Prop :=
  (k / 64 < 0x5800000 + 0x40000 * m ∨ 0x5840000 + 0x40000 * m ≤ k / 64) ∧ k ≠ (Reg.SVC_SLOTm_ADD_FAIL m).key ∧ k ≠ Reg.SVC_EVENT_SLOT_STATE.key

theorem mapFind_filter_or {α : Type} (m : Map α) (p : Nat → Bool) (k : Nat) :
    mapFind (m.filter fun e => p e.1) k = mapFind m k ∨ mapFind (m.filter fun e => p e.1) k = none := by
  rw [mapFind_filter]
  split
  · exact .inl rfl
  · exact .inr rfl

/-- A field in a range that is reset reads as before, or as after reset. -/
theorem resetRange_reads (s : State) (k : ResetKind) (lo hi : Nat) (f : FieldRef) :
    (s.resetRange k lo hi).get f = s.get f ∨ (s.resetRange k lo hi).get f = s.resetOf f.key := by
  have hfind : mapFind (s.resetRange k lo hi).fields f.key = mapFind s.fields f.key ∨ mapFind (s.resetRange k lo hi).fields f.key = none :=
    mapFind_filter_or s.fields (fun x => decide (x / 64 < lo) || decide (hi ≤ x / 64) ||
      (match fieldOfKey x with
        | some d => d.keeps k
        | none => true)) f.key
  unfold State.get
  rw [resetOf_resetRange]
  obtain h | h := hfind
  · exact .inl (by rw [h])
  · exact .inr (by rw [h]; rfl)

theorem emptied_rel (s : State) {m : Nat} (hm : m < 6) : let t := s.emptied m
    (t.arb (104 + m)).credit = Vector.replicate 8 0 ∧ (t.arb (104 + m)).age = Vector.replicate 8 0 ∧ t.get (Reg.SVC_SLOTm_ADD_FAIL m) = 0 ∧
    t = { s with fields := t.fields, irq := t.irq, slotPower := t.slotPower, arbs := t.arbs } ∧
    (s.resetOf (Reg.BMCm_STATE_STATE m).key = 0 → t.slotState m = 0) ∧ ∀ f : FieldRef, OffSlot m f.key → t.get f = s.get f := by
  intro t
  obtain ⟨hst, hkeep, heq⟩ := setSlot_rel s hm (st := 0) (by decide)
  have harb : t.arb (104 + m) = { (s.setSlot m 0).arb (104 + m) with credit := Vector.replicate 8 0, age := Vector.replicate 8 0 } :=
    (State.arb_setArb ..).trans (if_pos rfl)
  have hreset : (s.setSlot m 0).resetOf (Reg.BMCm_STATE_STATE m).key = s.resetOf (Reg.BMCm_STATE_STATE m).key := by
    rw [heq]
    rfl
  refine ⟨by rw [harb], by rw [harb], State.get_put_eq.trans (Nat.zero_mod _), ?_, fun hz => ?_, fun f hf => ?_⟩
  · simp only [t, State.emptied, State.resetCartridge]
    rw [heq]
    rfl
  · refine (State.get_put_ne (by simp; omega)).trans ?_
    obtain h | h := resetRange_reads (s.setSlot m 0) .cartridge (0x5800000 + 0x40000 * m) (0x5840000 + 0x40000 * m) (Reg.BMCm_STATE_STATE m)
    · exact h.trans hst
    · exact h.trans (hreset.trans hz)
  · obtain ⟨hoff, hadd, hevent⟩ := hf
    refine (State.get_put_ne hadd).trans ((resetRange_get _ _ hoff).trans (hkeep f ?_))
    simp only [slotFields, List.map_cons, List.map_nil, List.mem_cons, List.not_mem_nil, or_false, Reg.BMCm_STATE_STATE_key,
      Reg.BMCm_STATE_CHANNELS_key]
    rw [not_or, not_or]
    exact ⟨by omega, by omega, hevent⟩

/-- A closing latch leaves the reset cartridge's slot ADDING, with power (R473). -/
theorem closeOn_rel (s : State) {m : Nat} (hm : m < 6) : let t := s.closeOn m
    t.slotState m = 2 ∧ mapGet false t.slotPower m = true ∧ (s.emptied m).KeepsFields t (slotFields m) ∧
    t = { s.emptied m with fields := t.fields, irq := t.irq, slotPower := t.slotPower } := by
  intro t
  obtain ⟨hpresent, hkeep, heq⟩ := setSlot_rel (s.emptied m) hm (st := 1) (by decide)
  obtain ⟨hadding, hkeep', heq'⟩ := setSlot_rel ((s.emptied m).setSlot m 1) hm (st := 2) (by decide)
  have ht : t = ((s.emptied m).setSlot m 1).setSlot m 2 := rfl
  rw [ht]
  refine ⟨hadding, setSlot_power _ (by rw [hpresent]; decide), hkeep.trans hkeep', ?_⟩
  conv_lhs => rw [heq']
  rw [heq]

/-! ## The loss of a cartridge in service (R264, R472) -/

theorem logLoss_get (s : State) (objs : List Obj) (lone : List Nat) {f : FieldRef} (hf : f.key < 0x6800000 * 64 ∨ 0x6820000 * 64 ≤ f.key) :
    (s.logLoss objs lone).get f = s.get f := by
  have hfold : ∀ (l : List Obj) (u : State),
      (l.foldl (fun s o => s.logErr { sev := 1, kind := 5, source := 9, addr := o.base, obj := o.id }) u).get f = u.get f := by
    intro l
    induction l with
    | nil => exact fun _ => rfl
    | cons o l ih => exact fun u => (ih _).trans (logErr_get hf)
  unfold State.logLoss
  split
  · exact logErr_get hf
  · dsimp only
    split
    · exact hfold objs s
    · exact (logErr_get hf).trans (hfold objs s)

theorem loseCartridge_get {s : State} {m : Nat} (hm : m < 6) (hd : s.drainCmd = none) (hmv : ∀ v ∈ s.moves, v.started = false) {f : FieldRef}
    (hf : f.key < 0x6800000 * 64 ∨ 0x6820000 * 64 ≤ f.key) (hslot : f.key ∉ (slotFields m).map FieldRef.key)
    (hpoison : f.key ≠ (Reg.BMCm_ERR_POISONED m).key) : (s.loseCartridge m).get f = s.get f := by
  obtain ⟨objs, lone, heq⟩ := loseCartridge_eq (m := m) hmv
  obtain ⟨-, -, hx⟩ := lossFails_rel (s := s) hm objs lone
  have hcmd : (s.lossFails m objs lone).drainCmd = none := by
    rw [hx, (lossPages_rel s m).1]
    exact hd
  have hpages : (s.lossPages m).get f = s.get f := by
    rw [(lossPages_rel s m).1]
    rfl
  have hfails : (s.lossFails m objs lone).get f = s.get f :=
    (logLoss_get _ objs lone hf).trans (((setSlot_rel _ hm (by decide)).2.1 f hslot).trans ((State.get_put_ne hpoison).trans hpages))
  rw [heq, endDrainCmd_none hcmd]
  generalize s.lossFails m objs lone = x at hfails
  refine ((keeps_settle (fs := [])) f List.not_mem_nil).trans ?_
  split
  · exact hfails
  · exact hfails

/-! ## Slot buttons -/

/-- A pin shows a value, and its bit of SVC_EVENT is set. -/
def State.Shows (t : State) (f : FieldRef) (v : Nat) (e : FieldRef) (i : Nat) : Prop := t.get f = v ∧ bit (t.get e) i = true

/-- The state in which the press of a slot's button has been seen. -/
def State.pressSeen (s : State) (m : Nat) : State := s.pin (Reg.SVC_SLOTm_BUTTON m) 1 Reg.SVC_EVENT_SLOT_BTN m

section
variable {s : State} {m : Fin 6}

theorem pressSeen_ok (s : State) (m : Fin 6) : (s.pressSeen m).Shows (Reg.SVC_SLOTm_BUTTON m) 1 Reg.SVC_EVENT_SLOT_BTN m ∧ s.OnlyPanel (s.pressSeen m) := by
  have hm := m.isLt
  have hne : (Reg.SVC_SLOTm_BUTTON m).key ≠ Reg.SVC_EVENT_SLOT_BTN.key := by
    rw [Reg.SVC_SLOTm_BUTTON_key, Reg.SVC_EVENT_SLOT_BTN_key]
    omega
  obtain ⟨hpin, hevent, -⟩ := pin_ok s (f := Reg.SVC_SLOTm_BUTTON m) (e := Reg.SVC_EVENT_SLOT_BTN) (i := m.val) (v := 1) hne rfl hm
  refine ⟨⟨hpin, hevent⟩, pin_panel s ?_ ⟨by decide, by decide⟩ hne rfl hm⟩
  rw [Reg.SVC_SLOTm_BUTTON_key]
  omega

/-- The button and its event stay seen where a state's further fields are none of the two. -/
theorem pressSeen_stays {t : State} {fs : List FieldRef} (hk : (s.pressSeen m).KeepsFields t fs)
    (hfs : (Reg.SVC_SLOTm_BUTTON m).key ∉ fs.map FieldRef.key ∧ Reg.SVC_EVENT_SLOT_BTN.key ∉ fs.map FieldRef.key) :
    t.Shows (Reg.SVC_SLOTm_BUTTON m) 1 Reg.SVC_EVENT_SLOT_BTN m := by
  obtain ⟨hpin, hevent⟩ := (pressSeen_ok s m).1
  exact ⟨(hk _ hfs.1).trans hpin, by rw [hk _ hfs.2]; exact hevent⟩

theorem exec_press (hs : s.InRun) (hb : s.get (Reg.SVC_SLOTm_BUTTON m) ≠ 1) :
    exec (.slotButtonPress m) s = .next ((s.pressSeen m).pressSlot m) := by
  refine congrArg Host.Outcome.next ((if_neg ?_).trans ?_)
  · rw [flag_eq, beq_iff_eq]
    exact hb
  · exact congrArg (State.pressSlot · m.val) (wake_run ((pressSeen_ok s m).2.run hs))

variable (hs : s.InRun) (hb : s.get (Reg.SVC_SLOTm_BUTTON m) ≠ 1)
include hs hb

theorem press_drains (h3 : s.slotState m = 3) (hr : s.drainReason m = 0) : Does (.slotButtonPress m) s fun t =>
    t.Shows (Reg.SVC_SLOTm_BUTTON m) 1 Reg.SVC_EVENT_SLOT_BTN m ∧ t.slotState m = 4 ∧ t.drainPress = some s.cycle ∧ t.drainCmd = none ∧
    t.get Reg.FLS_DRAIN_SLOT = m.val ∧ t.chambers = s.chambers ∧ t.objects = s.objects ∧ t.pages = s.pages := by
  obtain ⟨-, hu⟩ := pressSeen_ok s m
  have hslot := (hu.slotState m.isLt).trans h3
  have hreason := (hu.drainReason m.isLt).trans hr
  obtain ⟨hst, hpress, hcmd, hdrain, hch, hobj, hpages, hkeep⟩ := acceptDrain_press (s.pressSeen m) (c := (s.pressSeen m).cycle) m.isLt
  refine ⟨_, (exec_press hs hb).trans (congrArg _ ((if_pos hslot).trans (if_pos hreason))), pressSeen_stays hkeep ?_, hst, ?_, hcmd, hdrain, ?_, ?_, ?_⟩
  · simp
    omega
  · rw [hpress, hu.1]
  · rw [hch, hu.1]
  · rw [hobj, hu.1]
  · rw [hpages, hu.1]

/-- What a refused press leaves (R469, R471). -/
theorem press_refusal {c : Nat} (hc : c ≤ 4) (he : (s.pressSeen m).pressSlot m = (s.pressSeen m).refusePress m c) :
    Does (.slotButtonPress m) s fun t => t.Shows (Reg.SVC_SLOTm_BUTTON m) 1 Reg.SVC_EVENT_SLOT_BTN m ∧ t.get (Reg.SVC_SLOTm_REFUSED m) = c ∧
      mapGet 0 t.slotCode m = c ∧ t.get Reg.FLS_DRAIN_REASON = c ∧ t = { s with fields := t.fields, irq := t.irq, slotCode := t.slotCode } := by
  obtain ⟨-, hu⟩ := pressSeen_ok s m
  obtain ⟨hrefused, hcode, hreason, hkeep, heq⟩ := refusePress_rel (s.pressSeen m) m.isLt hc
  refine ⟨_, (exec_press hs hb).trans (congrArg _ he), pressSeen_stays hkeep ?_, hrefused, hcode, hreason, ?_⟩
  · simp
    omega
  · exact panel_code hu.1 heq

theorem press_refused {c : Nat} (h3 : s.slotState m = 3) (hr : s.drainReason m = c) (hc : c ≠ 0) :
    Does (.slotButtonPress m) s fun t => t.Shows (Reg.SVC_SLOTm_BUTTON m) 1 Reg.SVC_EVENT_SLOT_BTN m ∧ t.get (Reg.SVC_SLOTm_REFUSED m) = c ∧
      mapGet 0 t.slotCode m = c ∧ t.get Reg.FLS_DRAIN_REASON = c ∧ t = { s with fields := t.fields, irq := t.irq, slotCode := t.slotCode } := by
  obtain ⟨-, hu⟩ := pressSeen_ok s m
  have hreason : (s.pressSeen m).drainReason m = c := (hu.drainReason m.isLt).trans hr
  refine press_refusal hs hb (hr ▸ drainReason_le s m) ((if_pos ((hu.slotState m.isLt).trans h3)).trans ((if_neg ?_).trans ?_))
  · rw [hreason]
    exact hc
  · rw [hreason]

theorem press_cancels {c : Nat} (h4 : s.slotState m = 4) (hp : s.drainPress = some c) (hc : s.cycle - c ≤ 8500000000) (hd : s.drainCmd = none) :
    Does (.slotButtonPress m) s fun t => t.Shows (Reg.SVC_SLOTm_BUTTON m) 1 Reg.SVC_EVENT_SLOT_BTN m ∧ t.slotState m = 3 ∧ t.drainPress = none ∧
      t.chambers = s.chambers ∧ t.objects = s.objects ∧ t.pages = s.pages := by
  obtain ⟨-, hu⟩ := pressSeen_ok s m
  have hst : (s.pressSeen m).slotState m = 4 := (hu.slotState m.isLt).trans h4
  have hrecent : (s.pressSeen m).recent (s.pressSeen m).drainPress = true := by
    rw [hu.1]
    show s.recent s.drainPress = true
    rw [hp]
    exact decide_eq_true hc
  obtain ⟨h3, hpress, hch, hobj, hpages, hkeep⟩ := cancelDrain_press (s.pressSeen m) m.isLt (by rw [hu.1]; exact hd)
  refine ⟨_, (exec_press hs hb).trans (congrArg _ ((if_neg (by omega)).trans ((if_pos hst).trans (if_pos hrecent)))), pressSeen_stays hkeep ?_, h3,
    hpress, ?_, ?_, ?_⟩
  · simp
    omega
  · rw [hch, hu.1]
  · rw [hobj, hu.1]
  · rw [hpages, hu.1]

theorem press_late (h4 : s.slotState m = 4) (hp : ∀ c, s.drainPress = some c → 8500000000 < s.cycle - c) :
    Does (.slotButtonPress m) s fun t => t.Shows (Reg.SVC_SLOTm_BUTTON m) 1 Reg.SVC_EVENT_SLOT_BTN m ∧ t = { s with fields := t.fields, irq := t.irq } := by
  obtain ⟨hshows, hu⟩ := pressSeen_ok s m
  have hst : (s.pressSeen m).slotState m = 4 := (hu.slotState m.isLt).trans h4
  have hrecent : ¬(s.pressSeen m).recent (s.pressSeen m).drainPress = true := by
    rw [hu.1]
    show ¬s.recent s.drainPress = true
    unfold State.recent
    split
    · next c hc =>
      rw [decide_eq_true_eq, Nat.not_le]
      exact hp c hc
    · exact Bool.false_ne_true
  exact ⟨_, (exec_press hs hb).trans (congrArg _ ((if_neg (by omega)).trans ((if_pos hst).trans (if_neg hrecent)))), hshows, hu.1⟩

theorem press_adds (h15 : s.slotState m = 1 ∨ s.slotState m = 5) (hv : 2 ≤ s.get Reg.MBX_CTL_STATE) :
    Does (.slotButtonPress m) s fun t => t.Shows (Reg.SVC_SLOTm_BUTTON m) 1 Reg.SVC_EVENT_SLOT_BTN m ∧ t.slotState m = 2 ∧
      mapGet false t.slotPower m = true ∧ t = { s with fields := t.fields, irq := t.irq, slotPower := t.slotPower } := by
  obtain ⟨-, hu⟩ := pressSeen_ok s m
  have hst : (s.pressSeen m).slotState m = s.slotState m := hu.slotState m.isLt
  have hservice : (s.pressSeen m).inService = true := decide_eq_true (by rw [hu.2 _ (by decide)]; exact hv)
  obtain ⟨h2, hkeep, heq⟩ := setSlot_rel (s.pressSeen m) m.isLt (st := 2) (by decide)
  refine ⟨_, (exec_press hs hb).trans (congrArg _ ((if_neg (by omega)).trans ((if_neg (by omega)).trans (if_pos ⟨by rw [hst]; exact h15, hservice⟩)))),
    pressSeen_stays hkeep ?_, h2, setSlot_power _ (by omega), panel_power hu.1 heq⟩
  simp [slotFields]
  omega

theorem press_elsewhere (h : s.slotState m = 0 ∨ s.slotState m = 2 ∨ s.slotState m = 6 ∨
    ((s.slotState m = 1 ∨ s.slotState m = 5) ∧ ¬2 ≤ s.get Reg.MBX_CTL_STATE)) :
    Does (.slotButtonPress m) s fun t => t.Shows (Reg.SVC_SLOTm_BUTTON m) 1 Reg.SVC_EVENT_SLOT_BTN m ∧ t.get (Reg.SVC_SLOTm_REFUSED m) = 4 ∧
      mapGet 0 t.slotCode m = 4 ∧ t.get Reg.FLS_DRAIN_REASON = 4 ∧ t = { s with fields := t.fields, irq := t.irq, slotCode := t.slotCode } := by
  obtain ⟨-, hu⟩ := pressSeen_ok s m
  have hst : (s.pressSeen m).slotState m = s.slotState m := hu.slotState m.isLt
  refine press_refusal hs hb (by decide) ((if_neg (by omega)).trans ((if_neg (by omega)).trans (if_neg ?_)))
  rw [State.inService, hu.2 _ (by decide), decide_eq_true_eq]
  omega

end

/-! ## Latches and cartridges (R472, R473) -/

/-- The cartridge of a slot has been reset, and of what a press leaves nothing else differs. -/
def State.SlotReset (s t : State) (m : Nat) : Prop :=
  (t.arb (104 + m)).credit = Vector.replicate 8 0 ∧ (t.arb (104 + m)).age = Vector.replicate 8 0 ∧ t.get (Reg.SVC_SLOTm_ADD_FAIL m) = 0 ∧
  t = { s with fields := t.fields, irq := t.irq, slotPower := t.slotPower, arbs := t.arbs }

section
variable {s u : State} {m : Nat} (hm : m < 6) (hu : s.OnlyPanel u)
include hm hu

theorem emptied_reset : s.SlotReset (u.emptied m) m := by
  obtain ⟨hcredit, hage, hadd, heq, -⟩ := emptied_rel u hm
  exact ⟨hcredit, hage, hadd, panel_reset hu.1 heq⟩

theorem emptied_state (hz : s.resetOf (Reg.BMCm_STATE_STATE m).key = 0) : (u.emptied m).slotState m = 0 := by
  obtain ⟨-, -, -, -, hst, -⟩ := emptied_rel u hm
  refine hst ?_
  rw [hu.1]
  exact hz

theorem closeOn_reset : s.SlotReset (u.closeOn m) m := by
  obtain ⟨hcredit, hage, hadd, heq⟩ := emptied_reset hm hu
  obtain ⟨-, -, hkeep, hclose⟩ := closeOn_rel u hm
  have harb : (u.closeOn m).arbs = (u.emptied m).arbs := by rw [hclose]
  have hget : (u.closeOn m).arb (104 + m) = (u.emptied m).arb (104 + m) := congrArg (mapGet Arb.reset · (104 + m)) harb
  refine ⟨by rw [hget]; exact hcredit, by rw [hget]; exact hage, (hkeep _ ?_).trans hadd, ?_⟩
  · simp [slotFields]
    omega
  · rw [harb]
    conv_lhs => rw [hclose, heq]

omit hm hu in
theorem openOn_empty {d : Deferred} (h0 : u.slotState m = 0) : u.openOn m d = u := (if_neg (by omega)).trans (if_pos h0)

omit hm in
theorem openOn_resets {d : Deferred} (hs : s.InRun) (h0 : u.slotState m ≠ 0) (h3 : u.slotState m ≠ 3) (h4 : u.slotState m ≠ 4) :
    u.openOn m d = u.emptied m :=
  (if_neg (by omega)).trans ((if_neg h0).trans (if_neg (by rw [(hu.run hs).2]; exact Bool.false_ne_true)))

omit hm hu in
theorem openOn_loses {d : Deferred} (h : u.slotState m = 3 ∨ u.slotState m = 4) : u.openOn m d = u.loseCartridge m := if_pos h

/-- A cartridge lost in service: its slot has FAILED, objects and chambers stay, and so do pins and the latch's event. -/
theorem openOn_lost {d : Deferred} (h : s.slotState m = 3 ∨ s.slotState m = 4) (hd : s.drainCmd = none) (hmv : ∀ v ∈ s.moves, v.started = false) :
    let t := u.openOn m d
    t.slotState m = 6 ∧ t.objects = s.objects ∧ t.chambers = s.chambers ∧
    ∀ f : FieldRef, 0x6000000 * 64 ≤ f.key → f.key < 0x6000040 * 64 → f.key ≠ Reg.SVC_EVENT_SLOT_STATE.key → t.get f = u.get f := by
  intro t
  have hcmd : u.drainCmd = none := by rw [hu.1]; exact hd
  have hmoves : ∀ v ∈ u.moves, v.started = false := by rw [hu.1]; exact hmv
  have ht : t = u.loseCartridge m := openOn_loses (by rw [hu.slotState hm]; exact h)
  obtain ⟨h6, -, heq⟩ := loseCartridge_rel hm hcmd hmoves
  rw [ht]
  refine ⟨h6, ?_, ?_, fun f hlo hhi hne => loseCartridge_get hm hcmd hmoves (by omega) ?_ (by rw [Reg.BMCm_ERR_POISONED_key]; omega)⟩
  · rw [heq, (lossPages_rel u m).1, hu.1]
    rfl
  · rw [heq, (lossPages_rel u m).1, hu.1]
    rfl
  · simp only [slotFields, List.map_cons, List.map_nil, List.mem_cons, List.not_mem_nil, or_false, not_or, Reg.BMCm_STATE_STATE_key,
      Reg.BMCm_STATE_CHANNELS_key]
    exact ⟨by omega, by omega, hne⟩

end

/-- The state in which a slot's latch has been seen to move. -/
def State.latchSeen (s : State) (m v : Nat) : State := s.pin (Reg.SVC_SLOTm_LATCH m) v Reg.SVC_EVENT_SLOT_LATCH m

/-- The state in which a slot's cartridge has been seen to leave. -/
def State.goneSeen (s : State) (m : Nat) : State := s.put (Reg.SVC_SLOTm_PRESENT m) 0

section
variable {s : State} {m : Fin 6} {v : Nat}

theorem latchSeen_ok (s : State) (m : Fin 6) (hv : v < 2) :
    (s.latchSeen m v).Shows (Reg.SVC_SLOTm_LATCH m) v Reg.SVC_EVENT_SLOT_LATCH m ∧ s.OnlyPanel (s.latchSeen m v) := by
  have hm := m.isLt
  have hne : (Reg.SVC_SLOTm_LATCH m).key ≠ Reg.SVC_EVENT_SLOT_LATCH.key := by
    rw [Reg.SVC_SLOTm_LATCH_key, Reg.SVC_EVENT_SLOT_LATCH_key]
    omega
  have hv' : v % 2 ^ (Reg.SVC_SLOTm_LATCH m).w = v := Nat.mod_eq_of_lt hv
  obtain ⟨hpin, hevent, -⟩ := pin_ok s (f := Reg.SVC_SLOTm_LATCH m) (e := Reg.SVC_EVENT_SLOT_LATCH) (i := m.val) (v := v) hne hv' hm
  refine ⟨⟨hpin, hevent⟩, pin_panel s ?_ ⟨by decide, by decide⟩ hne hv' hm⟩
  rw [Reg.SVC_SLOTm_LATCH_key]
  omega

theorem latchSeen_stays {t : State} (hv : v < 2) (hf : t.get (Reg.SVC_SLOTm_LATCH m) = (s.latchSeen m v).get (Reg.SVC_SLOTm_LATCH m))
    (he : t.get Reg.SVC_EVENT_SLOT_LATCH = (s.latchSeen m v).get Reg.SVC_EVENT_SLOT_LATCH) :
    t.Shows (Reg.SVC_SLOTm_LATCH m) v Reg.SVC_EVENT_SLOT_LATCH m := by
  obtain ⟨hpin, hevent⟩ := (latchSeen_ok s m hv).1
  exact ⟨hf.trans hpin, by rw [he]; exact hevent⟩

theorem latch_offSlot (m : Fin 6) : OffSlot m (Reg.SVC_SLOTm_LATCH m).key ∧ OffSlot m Reg.SVC_EVENT_SLOT_LATCH.key := by
  have hm := m.isLt
  unfold OffSlot
  rw [Reg.SVC_SLOTm_LATCH_key, Reg.SVC_SLOTm_ADD_FAIL_key, Reg.SVC_EVENT_SLOT_LATCH_key, Reg.SVC_EVENT_SLOT_STATE_key]
  omega

theorem emptied_shows (hv : v < 2) : ((s.latchSeen m v).emptied m).Shows (Reg.SVC_SLOTm_LATCH m) v Reg.SVC_EVENT_SLOT_LATCH m := by
  obtain ⟨-, -, -, -, -, hget⟩ := emptied_rel (s.latchSeen m v) m.isLt
  exact latchSeen_stays hv (hget _ (latch_offSlot m).1) (hget _ (latch_offSlot m).2)

theorem goneSeen_ok (s : State) (m : Fin 6) : s.OnlyPanel (s.goneSeen m) := by
  have hm := m.isLt
  refine ⟨rfl, fun f hf => State.get_put_ne ?_⟩
  rw [Reg.SVC_SLOTm_PRESENT_key]
  omega

theorem goneSeen_get (s : State) (m : Fin 6) : (s.goneSeen m).get (Reg.SVC_SLOTm_PRESENT m) = 0 := State.get_put_eq.trans (Nat.zero_mod _)

theorem goneSeen_only (s : State) (m : Fin 6) : s.OnlyFields (s.goneSeen m) [Reg.SVC_SLOTm_PRESENT m] := ⟨rfl, (keeps_refl s _).put (by simp)⟩

theorem exec_latchClose (hs : s.InRun) (hl : s.get (Reg.SVC_SLOTm_LATCH m) ≠ 1) : exec (.latchClose m) s = .next
    (if s.get (Reg.SVC_SLOTm_PRESENT m) = 1 ∧ 2 ≤ s.get Reg.MBX_CTL_STATE then (s.latchSeen m 1).closeOn m else s.latchSeen m 1) := by
  have hm := m.isLt
  obtain ⟨-, hu⟩ := latchSeen_ok s m (v := 1) (by decide)
  have hpresent : (s.latchSeen m 1).get (Reg.SVC_SLOTm_PRESENT m) = s.get (Reg.SVC_SLOTm_PRESENT m) := by
    refine (pin_ok s (f := Reg.SVC_SLOTm_LATCH m) (e := Reg.SVC_EVENT_SLOT_LATCH) (i := m.val) (v := 1) ?_ rfl hm).2.2.1 _ ?_
    · rw [Reg.SVC_SLOTm_LATCH_key, Reg.SVC_EVENT_SLOT_LATCH_key]
      omega
    · simp
      omega
  have hwake := wake_run (hu.run hs)
  have hheld := (hu.run hs).2
  have hcond : ((s.latchSeen m 1).flag (Reg.SVC_SLOTm_PRESENT m) && (s.latchSeen m 1).inService) = true ↔
      s.get (Reg.SVC_SLOTm_PRESENT m) = 1 ∧ 2 ≤ s.get Reg.MBX_CTL_STATE := by
    rw [Bool.and_eq_true, flag_eq, beq_iff_eq, hpresent, State.inService, decide_eq_true_eq, hu.2 _ (by decide)]
  refine congrArg Host.Outcome.next ((if_neg ?_).trans ?_)
  · rw [flag_eq, beq_iff_eq]
    exact hl
  · change (if ((s.latchSeen m 1).wake.flag _ && (s.latchSeen m 1).wake.inService) = true then
      (if (s.latchSeen m 1).wake.held = true then _ else (s.latchSeen m 1).wake.closeOn m) else (s.latchSeen m 1).wake) = _
    rw [hwake]
    refine if_congr hcond ?_ rfl
    rw [hheld]
    rfl

theorem exec_latchOpen (hs : s.InRun) (hl : s.get (Reg.SVC_SLOTm_LATCH m) = 1) :
    exec (.latchOpen m) s = .next ((s.latchSeen m 0).openOn m (.latchOpen m)) := by
  obtain ⟨-, hu⟩ := latchSeen_ok s m (v := 0) (by decide)
  refine congrArg Host.Outcome.next ((if_pos ?_).trans ?_)
  · rw [flag_eq, beq_iff_eq]
    exact hl
  · exact congrArg (State.openOn · m.val (.latchOpen m)) (wake_run (hu.run hs))

theorem exec_removed (hs : s.InRun) (hp : s.get (Reg.SVC_SLOTm_PRESENT m) = 1) : exec (.cartridgeRemoved m) s = .next
    (if s.get (Reg.SVC_SLOTm_LATCH m) = 1 then (s.goneSeen m).openOn m (.removed m) else s.goneSeen m) := by
  have hlatch : (s.goneSeen m).get (Reg.SVC_SLOTm_LATCH m) = s.get (Reg.SVC_SLOTm_LATCH m) := State.get_put_ne (by simp)
  refine congrArg Host.Outcome.next ((if_pos ?_).trans (if_congr ?_ ?_ rfl))
  · rw [flag_eq, beq_iff_eq]
    exact hp
  · rw [← hlatch, flag_eq, beq_iff_eq]
    rfl
  · exact congrArg (State.openOn · m.val (.removed m)) (wake_run ((goneSeen_ok s m).run hs))

end

/-! ## Adding a cartridge (R261, R473, R474) -/

section
variable {s : State} {m : Fin 6} (hs : s.InRun)
include hs

/-- The cartridge whose add completes, of a kind (R261, R473). -/
def State.added (s : State) (m : Nat) (c128 : Bool) : State :=
  ((s.puts [(Reg.BMCm_STATE_KIND m, b2n c128), (Reg.SVC_SLOTm_ADD_FAIL m, 0)]).setSlot m 3).put (Reg.BMCm_STATE_CHANNELS m) 8

omit hs in
theorem added_ok (s : State) (m : Fin 6) (c128 : Bool) (h2 : s.slotState m = 2) : let t := s.added m c128
    t.slotState m = 3 ∧ (∀ k < 6, k ≠ m.val → t.slotState k = s.slotState k) ∧ t.get (Reg.BMCm_STATE_KIND m) = b2n c128 ∧
    t.get (Reg.BMCm_STATE_CHANNELS m) = 8 ∧ t.get (Reg.SVC_SLOTm_ADD_FAIL m) = 0 ∧ mapGet false t.slotPower m = true ∧
    t = { s with fields := t.fields, irq := t.irq, slotPower := t.slotPower } := by
  intro t
  have hm := m.isLt
  let x := s.puts [(Reg.BMCm_STATE_KIND m, b2n c128), (Reg.SVC_SLOTm_ADD_FAIL m, 0)]
  have hstate : ∀ k < 6, x.slotState k = s.slotState k := fun k hk =>
    (State.get_put_ne (by simp; omega)).trans (State.get_put_ne (by simp; omega))
  have hkind : x.get (Reg.BMCm_STATE_KIND m) = b2n c128 := by
    refine (State.get_put_ne (by simp; omega)).trans (State.get_put_eq.trans ?_)
    cases c128 <;> rfl
  have hadd : x.get (Reg.SVC_SLOTm_ADD_FAIL m) = 0 := State.get_put_eq.trans (Nat.zero_mod _)
  have hx : x = { s with fields := x.fields } := rfl
  have ht : t = (x.setSlot m 3).put (Reg.BMCm_STATE_CHANNELS m) 8 := rfl
  obtain ⟨h3, hkeep, heq⟩ := setSlot_rel x hm (st := 3) (by decide)
  have hpower : mapGet false (x.setSlot m 3).slotPower m = true := setSlot_power x (by rw [hstate m hm, h2]; decide)
  have hother : ∀ k < 6, k ≠ m.val → (x.setSlot m 3).slotState k = x.slotState k := fun k hk hne => setSlot_other hm hk hne (by decide)
  rw [ht]
  generalize x.setSlot m 3 = y at *
  refine ⟨(State.get_put_ne (by simp)).trans h3, fun k hk hne => ?_, ?_, State.get_put_eq, ?_, hpower, ?_⟩
  · exact (State.get_put_ne (by simp; omega)).trans ((hother k hk hne).trans (hstate k hk))
  · exact (State.get_put_ne (by simp)).trans ((hkeep _ (by simp [slotFields]; omega)).trans hkind)
  · exact (State.get_put_ne (by simp; omega)).trans ((hkeep _ (by simp [slotFields]; omega)).trans hadd)
  · conv_lhs => rw [heq, hx]
    rfl

theorem adding_or (h2 : s.slotState m = 2) : ¬(s.held || s.slotState m != 2) = true := by
  rw [hs.2, h2]
  decide

omit hs in
theorem adding_not (h2 : s.slotState m ≠ 2) : (s.held || s.slotState m != 2) = true := by
  rw [Bool.or_eq_true, bne_iff_ne]
  exact .inr h2

theorem exec_addComplete (h2 : s.slotState m = 2) (hcalm : s.Calm) (c128 : Bool) :
    exec (.cartridgeAddComplete m c128) s = .next (s.added m c128) := by
  refine congrArg Host.Outcome.next ((if_neg (adding_or hs h2)).trans (settle_calm ?_))
  obtain ⟨h3, hother, -, -, -, -, heq⟩ := added_ok s m c128 h2
  obtain ⟨hslots, hmoves⟩ := hcalm
  change (s.added m c128).Calm
  refine ⟨fun k hk => ?_, ?_⟩
  · by_cases hkm : k = m.val
    · rw [hkm, h3]
      decide
    · rw [hother k hk hkm]
      exact hslots k hk
  · rw [heq]
    exact hmoves

theorem addFail_does (h2 : s.slotState m = 2) (cause : Fin 4) : Does (.cartridgeAddFail m cause) s fun t => t.slotState m = 1 ∧
    t.get (Reg.SVC_SLOTm_ADD_FAIL m) = cause.val + 1 ∧ mapGet false t.slotPower m = false ∧
    t = { s with fields := t.fields, irq := t.irq, slotPower := t.slotPower } := by
  have hm := m.isLt
  have hc : cause.val + 1 < 2 ^ 4 := by omega
  have hstate : (s.put (Reg.SVC_SLOTm_ADD_FAIL m) (cause.val + 1)).slotState m = 2 := (State.get_put_ne (by simp; omega)).trans h2
  obtain ⟨h1, hkeep, heq⟩ := setSlot_rel (s.put (Reg.SVC_SLOTm_ADD_FAIL m) (cause.val + 1)) hm (st := 1) (by decide)
  refine ⟨_, congrArg Host.Outcome.next (if_neg (adding_or hs h2)), h1, ?_, setSlot_power _ (by omega), panel_power rfl heq⟩
  exact (hkeep _ (by simp [slotFields]; omega)).trans (State.get_put_eq.trans (Nat.mod_eq_of_lt hc))

end

/-! ## The device button (R475, R476) -/

theorem setTwin_rel (s : State) {st : Nat} (hst : st < 8) : let t := s.setTwin st
    t.get Reg.TWN_STATE_STATE = st ∧ s.KeepsFields t [Reg.TWN_STATE_STATE, Reg.SVC_EVENT_TWIN] ∧ t = { s with fields := t.fields, irq := t.irq } := by
  intro t
  by_cases h : s.twinState = st
  · have ht : t = s := if_pos h
    rw [ht]
    exact ⟨h, keeps_refl s _, rfl⟩
  · have ht : t = s.pin Reg.TWN_STATE_STATE st Reg.SVC_EVENT_TWIN 0 := if_neg h
    obtain ⟨hget, -, hkeep, heq⟩ := pin_ok s (f := Reg.TWN_STATE_STATE) (e := Reg.SVC_EVENT_TWIN) (i := 0) (v := st) (by decide)
      (Nat.mod_eq_of_lt hst) (by decide)
    rw [ht]
    exact ⟨hget, hkeep, heq⟩

/-- The state in which the press of the device's button has been seen. -/
def State.devSeen (s : State) : State := s.pin Reg.SVC_DEV_BUTTON 1 Reg.SVC_EVENT_DEV_BTN 0

/-- The device's button is down, and its event raised. -/
def State.DevShows (t : State) : Prop := t.get Reg.SVC_DEV_BUTTON = 1 ∧ t.get Reg.SVC_EVENT_DEV_BTN = 1

theorem panelEvent_single (s : State) {e : FieldRef} (hw : e.w = 1) (h1 : s.get e ≤ 1) : (s.panelEvent e 0).get e = 1 := by
  unfold State.panelEvent
  split
  · next h =>
    rw [bit, Nat.pow_zero, Nat.div_one, beq_iff_eq] at h
    omega
  · next h =>
    rw [bit, Nat.pow_zero, Nat.div_one, beq_iff_eq] at h
    have h0 : s.get e = 0 := by omega
    rw [h0]
    exact State.get_put_eq.trans (by rw [hw]; rfl)

section
variable {s : State} {pp ph : Bool}

theorem devSeen_ok (h1 : s.get Reg.SVC_EVENT_DEV_BTN ≤ 1) : s.devSeen.DevShows ∧ s.OnlyPanel s.devSeen := by
  obtain ⟨hpin, -⟩ := pin_ok s (f := Reg.SVC_DEV_BUTTON) (e := Reg.SVC_EVENT_DEV_BTN) (i := 0) (v := 1) (by decide) rfl (by decide)
  exact ⟨⟨hpin, panelEvent_single _ rfl ((State.get_put_ne (by decide)).trans_le h1)⟩,
    pin_panel s ⟨by decide, by decide⟩ ⟨by decide, by decide⟩ (by decide) rfl (by decide)⟩

/-- The button's own fields stay seen where a state's further fields are none of the two. -/
theorem devSeen_stays {t : State} {fs : List FieldRef} (h1 : s.get Reg.SVC_EVENT_DEV_BTN ≤ 1) (hk : s.devSeen.KeepsFields t fs)
    (hfs : Reg.SVC_DEV_BUTTON.key ∉ fs.map FieldRef.key ∧ Reg.SVC_EVENT_DEV_BTN.key ∉ fs.map FieldRef.key) : t.DevShows := by
  obtain ⟨hpin, hevent⟩ := (devSeen_ok h1).1
  exact ⟨(hk _ hfs.1).trans hpin, (hk _ hfs.2).trans hevent⟩

/-- A handover that a side asked for can still be taken back: within five seconds, and before its final mark (R475). -/
def State.TakesBack (s : State) : Prop :=
  s.get Reg.TWN_STATE_STATE = 5 ∧ (∃ c, s.handPress = some c ∧ s.cycle - c ≤ 8500000000) ∧ s.handMark = false

theorem recent_iff (s : State) (p : Option Nat) : s.recent p = true ↔ ∃ c, p = some c ∧ s.cycle - c ≤ 8500000000 := by
  cases p with
  | none => simp [State.recent]
  | some c =>
    rw [State.recent, decide_eq_true_eq]
    exact ⟨fun h => ⟨c, rfl, h⟩, fun ⟨d, hd, h⟩ => by rw [Option.some.inj hd]; exact h⟩

theorem takesBack_iff (s : State) : s.TakesBack ↔ s.get Reg.TWN_STATE_STATE = 5 ∧ s.recent s.handPress = true ∧ s.handMark = false := by
  rw [recent_iff]
  rfl

variable (hs : s.InRun) (hb : s.get Reg.SVC_DEV_BUTTON ≠ 1) (h1 : s.get Reg.SVC_EVENT_DEV_BTN ≤ 1)
include hs hb h1

theorem exec_devPress : exec (.deviceButtonPress pp ph) s = .next (if s.get Reg.GLB_ROLE_TWIN ≠ 1 then s.devSeen
    else if s.get Reg.TWN_STATE_STATE = 5 ∧ s.recent s.handPress = true ∧ s.handMark = false then { s.devSeen.setTwin 2 with handPress := none }
    else s.devSeen.askHandover pp ph) := by
  obtain ⟨-, hu⟩ := devSeen_ok h1
  have htwin : (!s.devSeen.isTwin) = true ↔ s.get Reg.GLB_ROLE_TWIN ≠ 1 := by
    rw [Bool.not_eq_true', State.isTwin, flag_eq, hu.2 _ (by decide), beq_eq_false_iff_ne]
  have hback : (s.devSeen.twinState = 5 ∧ s.devSeen.recent s.devSeen.handPress = true ∧ (!s.devSeen.handMark) = true) ↔
      s.get Reg.TWN_STATE_STATE = 5 ∧ s.recent s.handPress = true ∧ s.handMark = false := by
    rw [State.twinState, hu.2 _ (by decide), Bool.not_eq_true', hu.1]
    rfl
  refine congrArg Host.Outcome.next ((if_neg ?_).trans ?_)
  · rw [flag_eq, beq_iff_eq]
    exact hb
  · change (if (!s.devSeen.wake.isTwin) = true then s.devSeen.wake
      else if s.devSeen.wake.twinState = 5 ∧ s.devSeen.wake.recent s.devSeen.wake.handPress = true ∧ (!s.devSeen.wake.handMark) = true then
        { s.devSeen.wake.setTwin 2 with handPress := none } else s.devSeen.wake.askHandover pp ph) = _
    rw [wake_run (hu.run hs)]
    exact if_congr htwin rfl (if_congr hback rfl rfl)

omit hs hb in
theorem devSeen_reason (htwin : s.get Reg.GLB_ROLE_TWIN = 1) : s.devSeen.handoverReason pp ph =
    if s.get Reg.GLB_ROLE_ALONE = 1 then 2 else if pp = false ∨ ph = true then 3 else if s.get Reg.TWN_STATE_STATE ≠ 2 then 4 else 0 := by
  obtain ⟨-, hu⟩ := devSeen_ok h1
  unfold State.handoverReason
  rw [State.isTwin, flag_eq, flag_eq, State.twinState, hu.2 _ (by decide), hu.2 _ (by decide), hu.2 _ (by decide), htwin]
  refine (if_neg (by decide)).trans (if_congr beq_iff_eq rfl (if_congr ?_ rfl rfl))
  rw [Bool.or_eq_true, Bool.not_eq_true']

theorem devPress_denied {c : Nat} (htwin : s.get Reg.GLB_ROLE_TWIN = 1) (hback : ¬s.TakesBack) (hr : s.devSeen.handoverReason pp ph = c) (h0 : c ≠ 0)
    (hc : c < 16) : Does (.deviceButtonPress pp ph) s fun t =>
      t.DevShows ∧ t.get Reg.SVC_DEV_REFUSED = c ∧ t.devCode = c ∧ t.get Reg.TWN_STATE_STATE = s.get Reg.TWN_STATE_STATE := by
  obtain ⟨-, hu⟩ := devSeen_ok h1
  have hask : s.devSeen.askHandover pp ph = { s.devSeen.put Reg.SVC_DEV_REFUSED c with devCode := c } := by
    refine (if_neg (by rw [hr]; exact h0)).trans ?_
    rw [hr]
  refine ⟨_, (exec_devPress hs hb h1).trans (congrArg _ ((if_neg (not_not.mpr htwin)).trans ((if_neg ((takesBack_iff s).not.mp hback)).trans hask))), ?_,
    State.get_put_eq.trans (Nat.mod_eq_of_lt hc), rfl, (State.get_put_ne (by decide)).trans (hu.2 _ (by decide))⟩
  have hput : s.devSeen.KeepsFields (s.devSeen.put Reg.SVC_DEV_REFUSED c) [Reg.SVC_DEV_REFUSED] := (keeps_refl _ _).put (by simp)
  exact devSeen_stays h1 hput ⟨by decide, by decide⟩

theorem devPress_asks (htwin : s.get Reg.GLB_ROLE_TWIN = 1) (halone : s.get Reg.GLB_ROLE_ALONE ≠ 1) (hp : pp = true) (hh : ph = false)
    (h2 : s.get Reg.TWN_STATE_STATE = 2) : Does (.deviceButtonPress pp ph) s fun t =>
      t.DevShows ∧ t.get Reg.TWN_STATE_STATE = 5 ∧ t.handPress = some s.cycle ∧ t.handMark = false := by
  obtain ⟨-, hu⟩ := devSeen_ok h1
  have hback : ¬s.TakesBack := fun h => by
    have h5 := h.1
    omega
  have hreason : s.devSeen.handoverReason pp ph = 0 := by
    rw [devSeen_reason h1 htwin, if_neg halone, if_neg (by rw [hp, hh]; decide), if_neg (not_not.mpr h2)]
  obtain ⟨h5, hkeep, -⟩ := setTwin_rel s.devSeen (st := 5) (by decide)
  refine ⟨_, (exec_devPress hs hb h1).trans (congrArg _ ((if_neg (not_not.mpr htwin)).trans ((if_neg ((takesBack_iff s).not.mp hback)).trans (if_pos hreason)))),
    devSeen_stays h1 hkeep ⟨by decide, by decide⟩, h5, ?_, rfl⟩
  exact congrArg some (by rw [hu.1])

theorem devPress_back (htwin : s.get Reg.GLB_ROLE_TWIN = 1) (hback : s.TakesBack) : Does (.deviceButtonPress pp ph) s fun t =>
    t.DevShows ∧ t.get Reg.TWN_STATE_STATE = 2 ∧ t.handPress = none := by
  obtain ⟨h2, hkeep, -⟩ := setTwin_rel s.devSeen (st := 2) (by decide)
  exact ⟨_, (exec_devPress hs hb h1).trans (congrArg _ ((if_neg (not_not.mpr htwin)).trans (if_pos ((takesBack_iff s).mp hback)))),
    devSeen_stays h1 hkeep ⟨by decide, by decide⟩, h2, rfl⟩

theorem devPress_single (htwin : s.get Reg.GLB_ROLE_TWIN ≠ 1) : Does (.deviceButtonPress pp ph) s fun t =>
    t.DevShows ∧ t = { s with fields := t.fields, irq := t.irq } := by
  obtain ⟨hshows, hu⟩ := devSeen_ok h1
  exact ⟨_, (exec_devPress hs hb h1).trans (congrArg _ (if_pos htwin)), hshows, hu.1⟩

end

/-! ## Releases and patterns (R467, R468) -/

theorem buttonRelease_slot (s : State) (m : Fin 6) : Does (.buttonRelease (Fin.castSucc m)) s fun t =>
    t.get (Reg.SVC_SLOTm_BUTTON m) = 0 ∧ s.OnlyFields t [Reg.SVC_SLOTm_BUTTON m] :=
  ⟨_, congrArg Host.Outcome.next (if_neg (Fin.castSucc_lt_last m).ne), State.get_put_eq.trans (Nat.zero_mod _), rfl, (keeps_refl s _).put (by simp)⟩

theorem codePatternEnd_slot (s : State) (m : Fin 6) : Does (.codePatternEnd (Fin.castSucc m)) s fun t =>
    mapGet 0 t.slotCode m = 0 ∧ t = { s with slotCode := t.slotCode } ∧ ∀ k, k ≠ m.val → mapGet 0 t.slotCode k = mapGet 0 s.slotCode k :=
  ⟨_, congrArg Host.Outcome.next (if_neg (Fin.castSucc_lt_last m).ne), (mapGet_set 0 s.slotCode m.val m.val 0).trans (if_pos rfl), rfl,
    fun k hk => (mapGet_set 0 s.slotCode m.val k 0).trans (if_neg hk)⟩

/-! ## O59 -/

section
variable {s : State} (hs : s.InRun) (m : Fin 6)
include hs

/-- A latch that closes on a cartridge resets it and begins its add (R473). -/
theorem latchClose_adds (hl : s.get (Reg.SVC_SLOTm_LATCH m) ≠ 1) (hp : s.get (Reg.SVC_SLOTm_PRESENT m) = 1) (hv : 2 ≤ s.get Reg.MBX_CTL_STATE) :
    Does (.latchClose m) s fun t => t.Shows (Reg.SVC_SLOTm_LATCH m) 1 Reg.SVC_EVENT_SLOT_LATCH m ∧ s.SlotReset t m ∧ t.slotState m = 2 ∧
      mapGet false t.slotPower m = true := by
  have hm := m.isLt
  obtain ⟨-, hu⟩ := latchSeen_ok s m (v := 1) (by decide)
  obtain ⟨h2, hpower, hkeep, -⟩ := closeOn_rel (s.latchSeen m 1) hm
  obtain ⟨hpin, hevent⟩ := emptied_shows (s := s) (m := m) (v := 1) (by decide)
  refine ⟨_, (exec_latchClose hs hl).trans (congrArg _ (if_pos ⟨hp, hv⟩)), ⟨(hkeep _ ?_).trans hpin, ?_⟩, closeOn_reset hm hu, h2, hpower⟩
  · simp [slotFields]
    omega
  · rw [hkeep _ (by simp [slotFields]; omega)]
    exact hevent

theorem latchOpen_empties (hl : s.get (Reg.SVC_SLOTm_LATCH m) = 1) (h0 : s.slotState m ≠ 0) (h3 : s.slotState m ≠ 3) (h4 : s.slotState m ≠ 4) :
    Does (.latchOpen m) s fun t => t.Shows (Reg.SVC_SLOTm_LATCH m) 0 Reg.SVC_EVENT_SLOT_LATCH m ∧ s.SlotReset t m ∧
      (s.resetOf (Reg.BMCm_STATE_STATE m).key = 0 → t.slotState m = 0) := by
  obtain ⟨-, hu⟩ := latchSeen_ok s m (v := 0) (by decide)
  have hst := hu.slotState m.isLt
  exact ⟨_, (exec_latchOpen hs hl).trans (congrArg _ (openOn_resets hu hs (hst.trans_ne h0) (hst.trans_ne h3) (hst.trans_ne h4))),
    emptied_shows (by decide), emptied_reset m.isLt hu, emptied_state m.isLt hu⟩

theorem latchOpen_loses (hl : s.get (Reg.SVC_SLOTm_LATCH m) = 1) (h : s.slotState m = 3 ∨ s.slotState m = 4) (hd : s.drainCmd = none)
    (hmv : ∀ v ∈ s.moves, v.started = false) : Does (.latchOpen m) s fun t =>
      t.Shows (Reg.SVC_SLOTm_LATCH m) 0 Reg.SVC_EVENT_SLOT_LATCH m ∧ t.slotState m = 6 ∧ t.objects = s.objects ∧ t.chambers = s.chambers := by
  have hm := m.isLt
  obtain ⟨-, hu⟩ := latchSeen_ok s m (v := 0) (by decide)
  obtain ⟨h6, hobj, hch, hget⟩ := openOn_lost (d := .latchOpen m) hm hu h hd hmv
  refine ⟨_, exec_latchOpen hs hl, latchSeen_stays (by decide) (hget _ ?_ ?_ ?_) (hget _ (by decide) (by decide) (by decide)), h6, hobj, hch⟩
  · rw [Reg.SVC_SLOTm_LATCH_key]
    omega
  · rw [Reg.SVC_SLOTm_LATCH_key]
    omega
  · rw [Reg.SVC_SLOTm_LATCH_key, Reg.SVC_EVENT_SLOT_STATE_key]
    omega

theorem removed_empties (hp : s.get (Reg.SVC_SLOTm_PRESENT m) = 1) (hl : s.get (Reg.SVC_SLOTm_LATCH m) = 1) (h0 : s.slotState m ≠ 0)
    (h3 : s.slotState m ≠ 3) (h4 : s.slotState m ≠ 4) : Does (.cartridgeRemoved m) s fun t =>
      t.get (Reg.SVC_SLOTm_PRESENT m) = 0 ∧ s.SlotReset t m ∧ (s.resetOf (Reg.BMCm_STATE_STATE m).key = 0 → t.slotState m = 0) := by
  have hm := m.isLt
  have hu := goneSeen_ok s m
  have hst := hu.slotState hm
  obtain ⟨-, -, -, -, -, hget⟩ := emptied_rel (s.goneSeen m) hm
  refine ⟨_, (exec_removed hs hp).trans (congrArg _ ((if_pos hl).trans (openOn_resets hu hs (hst.trans_ne h0) (hst.trans_ne h3) (hst.trans_ne h4)))),
    (hget _ ?_).trans (goneSeen_get s m), emptied_reset hm hu, emptied_state hm hu⟩
  unfold OffSlot
  rw [Reg.SVC_SLOTm_PRESENT_key, Reg.SVC_SLOTm_ADD_FAIL_key, Reg.SVC_EVENT_SLOT_STATE_key]
  omega

theorem removed_loses (hp : s.get (Reg.SVC_SLOTm_PRESENT m) = 1) (hl : s.get (Reg.SVC_SLOTm_LATCH m) = 1) (h : s.slotState m = 3 ∨ s.slotState m = 4)
    (hd : s.drainCmd = none) (hmv : ∀ v ∈ s.moves, v.started = false) : Does (.cartridgeRemoved m) s fun t =>
      t.get (Reg.SVC_SLOTm_PRESENT m) = 0 ∧ t.slotState m = 6 ∧ t.objects = s.objects := by
  have hm := m.isLt
  obtain ⟨h6, hobj, -, hget⟩ := openOn_lost (d := .removed m) hm (goneSeen_ok s m) h hd hmv
  refine ⟨_, (exec_removed hs hp).trans (congrArg _ (if_pos hl)), (hget _ ?_ ?_ ?_).trans (goneSeen_get s m), h6, hobj⟩
  · rw [Reg.SVC_SLOTm_PRESENT_key]
    omega
  · rw [Reg.SVC_SLOTm_PRESENT_key]
    omega
  · rw [Reg.SVC_SLOTm_PRESENT_key, Reg.SVC_EVENT_SLOT_STATE_key]
    omega

theorem removed_only (hp : s.get (Reg.SVC_SLOTm_PRESENT m) = 1) (h : s.get (Reg.SVC_SLOTm_LATCH m) ≠ 1 ∨ s.slotState m = 0) :
    Does (.cartridgeRemoved m) s fun t => t.get (Reg.SVC_SLOTm_PRESENT m) = 0 ∧ s.OnlyFields t [Reg.SVC_SLOTm_PRESENT m] := by
  refine ⟨_, (exec_removed hs hp).trans (congrArg _ ?_), goneSeen_get s m, goneSeen_only s m⟩
  split
  · next hl => exact openOn_empty (((goneSeen_ok s m).slotState m.isLt).trans (h.resolve_left (not_not.mpr hl)))
  · rfl

end

/-- Settles O59: every event of the panel sets its pin and its bit of SVC_EVENT first, and acts as the slot's state, or the twin's, decides. The
five seconds are 8.5 * 10^9 cycles of ACLK. -/
theorem servicePanel : Obligations.ServicePanel := by
  intro s m hs st shown pressed refused service reset empties press
  refine ⟨fun hb => ?_, fun hb => ⟨fun h3 hr => press_drains hs hb h3 hr, fun c h3 hr hc => press_refused hs hb h3 hr hc,
      fun c h4 hp hc hd => press_cancels hs hb h4 hp hc hd, fun h4 hp => press_late hs hb h4 hp, fun h15 hv => press_adds hs hb h15 hv,
      fun h => press_elsewhere hs hb h⟩, buttonRelease_slot s m, ⟨_, rfl, State.get_put_eq, rfl, (keeps_refl s _).put (by simp)⟩,
    codePatternEnd_slot s m, rfl, ⟨_, rfl, State.get_put_eq, rfl, (keeps_refl s _).put (by simp)⟩, ?_, fun c128 cause => ⟨fun h2 => ⟨?_, ?_⟩,
      fun h2 hcalm => ?_, fun h2 => addFail_does hs h2 cause⟩, ?_⟩
  · exact congrArg Host.Outcome.next (if_pos (by rw [flag_eq, hb]; rfl))
  · intro latch there closed opened lost
    refine ⟨fun hl => ?_, fun hl hnot => ?_, fun hl hp hv => latchClose_adds hs m hl hp hv, fun hl => ?_, fun hl h0 => ?_,
      fun hl h0 h3 h4 => latchOpen_empties hs m hl h0 h3 h4, fun hl ⟨h, hd, hmv⟩ => latchOpen_loses hs m hl h hd hmv, fun hp => ?_,
      fun hp h => removed_only hs m hp h, fun hp hl h0 h3 h4 => removed_empties hs m hp hl h0 h3 h4,
      fun hp hl ⟨h, hd, hmv⟩ => removed_loses hs m hp hl h hd hmv⟩
    · exact congrArg Host.Outcome.next (if_pos (by rw [flag_eq, beq_iff_eq]; exact hl))
    · obtain ⟨hshows, hu⟩ := latchSeen_ok s m (v := 1) (by decide)
      exact ⟨_, (exec_latchClose hs hl).trans (congrArg _ (if_neg hnot)), hshows, hu.1⟩
    · exact congrArg Host.Outcome.next (if_neg (by rw [flag_eq, beq_iff_eq]; exact hl))
    · obtain ⟨hshows, hu⟩ := latchSeen_ok s m (v := 0) (by decide)
      exact ⟨_, (exec_latchOpen hs hl).trans (congrArg _ (openOn_empty ((hu.slotState m.isLt).trans h0))), hshows, hu.1⟩
    · exact congrArg Host.Outcome.next (if_neg (by rw [flag_eq, beq_iff_eq]; exact hp))
  · exact congrArg Host.Outcome.next (if_pos (adding_not h2))
  · exact congrArg Host.Outcome.next (if_pos (adding_not h2))
  · obtain ⟨h3, -, hkind, hchannels, hadd, hpower, heq⟩ := added_ok s m c128 h2
    exact ⟨_, exec_addComplete hs h2 hcalm c128, h3, hkind, hchannels, hadd, hpower, heq⟩
  · intro pp ph twn dev takesBack denied
    refine ⟨fun hb => congrArg Host.Outcome.next (if_pos (by rw [flag_eq, hb]; rfl)), fun hb h1 => ⟨fun ht => devPress_single hs hb h1 ht, fun ht =>
      ⟨fun hback => devPress_back hs hb h1 ht hback, fun hback ha => devPress_denied hs hb h1 ht hback ?_ (by decide) (by decide),
        fun hback ha h => devPress_denied hs hb h1 ht hback ?_ (by decide) (by decide),
        fun hback ha hp hh h2 => devPress_denied hs hb h1 ht hback ?_ (by decide) (by decide),
        fun ha hp hh h2 => devPress_asks hs hb h1 ht ha hp hh h2⟩⟩⟩
    · rw [devSeen_reason h1 ht, if_pos ha]
    · rw [devSeen_reason h1 ht, if_neg ha, if_pos h]
    · rw [devSeen_reason h1 ht, if_neg ha, if_neg (by rw [hp, hh]; decide), if_pos h2]

end Sys2Proof.Machine
end

section
/-! O60 fails: a packet lost as the ports go down may end a collective job, whose DONE_SIG is posted wherever its number leads. -/

namespace Sys2Proof.Machine

open Sys2Proof

/-- The signal number whose word would lie at TWN_STATE. -/
def strayNumber : Nat := (0x7000010 - 0x80000) / 8

theorem strayNumber_key : (Reg.GLB_SIGn_VALUE strayNumber).key = Reg.TWN_STATE_STATE.key := by decide

/-- A packet of this device's own transfer. -/
def strayPacket : Packet := { Packet.blank .write with src := 0xFF, dst := 1 }

/-- A side in Run that hands over, its final mark sent, as after reset but for Halgar port 0, which is UP8 and on which a packet waits: the last
of a transfer of a job whose DONE_SIG has a number past the 4096 signals. -/
def strayJob : State :=
  { State.reset with
    fields := [((Reg.HGPn_STATUS_STATE 0).key, 2), (Reg.PCR_PSTATE_STATE.key, 0), (Reg.PCR_PSTATE_HOLD.key, 0), (Reg.TWN_STATE_STATE.key, 5)]
    handMark := true, tx := [⟨0, 0, 1, false, 0, 0, 1, 0, []⟩], cuJobs := [⟨0, 0, none, some strayNumber, 0, false, false, false⟩]
    ports := [(0, { Port.reset with waiting := [(strayPacket, none)] })] }

theorem strayJob_inRun : strayJob.InRun := by
  constructor
  · decide
  · decide

/-- The post lands on the state that the handover has just entered. -/
theorem strayJob_after : ∃ t, exec .handoverComplete strayJob = .next t ∧ t.get Reg.TWN_STATE_STATE = 7 := by
  refine ⟨_, rfl, ?_⟩
  decide +kernel

/-- Refutes O60: as the handover of `strayJob` completes, the loss of port 0's packet (R338) ends its job, and the post of DONE_SIG counts up the
field at its number's place, which is TWN_STATE.STATE: HANDED becomes FENCED. DONE_SIG has 12 bits in a record, so no job of the device's own making
bears such a number, but the statement is of every state. -/
theorem not_twinEngine : ¬Obligations.TwinEngine := by
  intro h
  obtain ⟨-, -, -, -, -, -, -, -, -, -, -, -, hcomplete, -⟩ := h strayJob strayJob_inRun
  obtain ⟨t, ht, h6, -⟩ := hcomplete (by decide) rfl
  obtain ⟨u, hu, h7⟩ := strayJob_after
  obtain rfl : u = t := Host.Outcome.next.inj (hu.symm.trans ht)
  rw [h7] at h6
  cases h6

end Sys2Proof.Machine
end

section
/-! The keeper service on a device that is no twin (R305, R314 to R320): its table, its updates and its publications, and from them O49. -/

namespace Sys2Proof.Machine

open Sys2Proof

/-! ## The service's state -/

/-- Keys of the keeper service's registers. -/
def KprKey (k : Nat) : Prop := 0x400 * 64 ≤ k ∧ k < 0x418 * 64

theorem kprOf_setKpr (s : State) (peer : Bool) (k : Option Keeper) : (s.setKpr peer k).kprOf peer = k := by cases peer <;> rfl

theorem kprOf_setKpr_other (s : State) (peer : Bool) (k : Option Keeper) : (s.setKpr peer k).kprOf (!peer) = s.kprOf (!peer) := by cases peer <;> rfl

theorem setKpr_rel (s : State) (peer : Bool) (k : Option Keeper) :
    s.setKpr peer k = { s with kpr := (s.setKpr peer k).kpr, kprPeer := (s.setKpr peer k).kprPeer } := by cases peer <;> rfl

section
variable {s : State}

/-- Only a twin has a service record. -/
theorem kprRecord_single (h : s.get Reg.GLB_ROLE_TWIN = 0) : s.kprRecord = s := if_neg (by rw [flag_eq, h]; decide)

theorem kprState_single (h : s.get Reg.GLB_ROLE_TWIN = 0) (st : Nat) : s.kprState st = s.put Reg.GLB_KPR_STATE_STATE st :=
  kprRecord_single ((State.get_put_ne (by decide)).trans h)

theorem putKprCtl_single (h : s.get Reg.GLB_ROLE_TWIN = 0) (fresh : Bool) (table : Nat) :
    s.putKprCtl fresh table = s.puts [(Reg.GLB_KPR_CTL_FRESH, b2n fresh), (Reg.GLB_KPR_CTL_TABLE, table)] := by
  unfold State.putKprCtl
  dsimp only
  split
  · rfl
  · exact kprRecord_single ((State.get_put_ne (by decide)).trans ((State.get_put_ne (by decide)).trans h))

theorem serves_readKeeper (a version : Nat) (mode : KprMode) : State.Serves AccessKey s (s.readKeeper a version mode).2.2 := by
  have hheader := serves_read s a 64
  have hentries := fun n => serves_read (s.read a 64).2.2 (a + 64) n
  unfold State.readKeeper
  generalize s.read a 64 = r at hheader hentries
  obtain ⟨hb, p, u⟩ := r
  dsimp only at hheader hentries ⊢
  specialize hentries (64 * (recBits (recWords hb 8) 0 10 8 + 1))
  generalize u.read (a + 64) (64 * (recBits (recWords hb 8) 0 10 8 + 1)) = e at hentries ⊢
  obtain ⟨eb, q, v⟩ := e
  exact hheader.trans hentries

/-! ## The posts of a version (R315, R316) -/

theorem get_lostPackets (u : State) (l : List Packet) (f : FieldRef) : ({ u with lost := l } : State).get f = u.get f := rfl

/-- A lost post leaves the service's registers as they are. -/
theorem losePacket_kpr (n : Nat) {k : Packet} (hk : k.kind = .post) {f : FieldRef} (hf : KprKey f.key) : (s.losePacket n false k).get f = s.get f := by
  have hne : f.key ≠ (Reg.HGPn_LOST_ROUTE n).key := by
    have := hf.2
    rw [Reg.HGPn_LOST_ROUTE_key]
    omega
  have hlog : f.key < 0x6800000 * 64 ∨ 0x6820000 * 64 ≤ f.key := .inl (Nat.lt_trans hf.2 (by decide))
  unfold State.losePacket
  extract_lets s1 s2 s3
  have h1 : s1.get f = s.get f := State.get_put_ne hne
  have h2 : s2.get f = s1.get f := logErr_get hlog
  have h3 : s3.get f = s.get f := (get_lostPackets s2 _ f).trans (h2.trans h1)
  clear_value s3
  rw [hk, if_neg (by simp)]
  exact h3

/-- A packet put on a port leaves them too. -/
theorem pump_kpr (n : Nat) (p : Port) {f : FieldRef} (hf : KprKey f.key) : ((s.setPort n p).pump n).get f = s.get f := by
  have hsends : s.Sends ((s.setPort n p).pump n) := (sends_setPort n p).trans (sends_pump n)
  refine hsends.1.get ?_
  rintro ⟨m, hm⟩
  rw [Reg.HGPn_PAYLOAD_TX_MIB_key] at hm
  have := hf.2
  omega

theorem postTo_kpr (h : s.get Reg.PCR_PSTATE_STATE = 0) {sig : Nat} (dev cc : Nat) (v : Word) {f : FieldRef} (hf : KprKey f.key) :
    (s.postTo dev cc sig false v).get f = s.get f := by
  have hpost : ∀ n v, (s.postSig n false v).get f = s.get f := fun n v => by
    rw [get_post h]
    refine State.get_put_ne ?_
    rw [Reg.GLB_SIGn_VALUE_key]
    have := hf.2
    omega
  unfold State.postTo State.send
  split
  · exact hpost sig _
  · split
    · exact hpost _ _
    · unfold State.sendVia State.sendOver
      split
      · exact pump_kpr _ _ hf
      · exact losePacket_kpr _ rfl hf

/-- A version's signal. -/
def Keeper.versig (k : Keeper) : Nat := recBits k.header 2 43 32

theorem versig_lt (k : Keeper) : k.versig < 4096 := recBits_lt _ 2 43 32

/-- One worker's post of a version. -/
def State.postOne (k : Keeper) (s : State) (w : List Nat) : State := s.postTo (recBits w 0 7 0) (recBits k.header 2 49 48) k.versig false 1

theorem postVersig_eq (s : State) (k : Keeper) : s.postVersig k = k.entries.foldl (State.postOne k) s := rfl

theorem postOnes_rel (k : Keeper) (l : List (List Nat)) : ∀ {s : State}, s.get Reg.PCR_PSTATE_STATE = 0 →
    s.Posts (l.foldl (State.postOne k) s) ∧ ∀ f : FieldRef, KprKey f.key → (l.foldl (State.postOne k) s).get f = s.get f := by
  induction l with
  | nil => exact fun _ => ⟨⟨rfl, rfl⟩, fun _ _ => rfl⟩
  | cons w l ih =>
    intro s hs
    have hone : s.Posts (s.postOne k w) := posts_postTo hs (versig_lt k) _ _ _
    obtain ⟨hposts, hget⟩ := ih (hone.2.trans hs)
    exact ⟨hone.trans hposts, fun f hf => (hget f hf).trans (postTo_kpr hs _ _ _ hf)⟩

/-- A post to this device itself counts its signal up. -/
theorem postOne_here {k : Keeper} {w : List Nat} (hw : recBits w 0 7 0 = 0xFF) (hs : s.get Reg.PCR_PSTATE_STATE = 0) :
    (s.postOne k w).sig k.versig = (s.sig k.versig + 1) % 2 ^ 64 ∧ (s.postOne k w).get Reg.PCR_PSTATE_STATE = 0 := by
  refine ⟨?_, (posts_postTo hs (versig_lt k) _ _ _).2.trans hs⟩
  have hone : s.postOne k w = s.put (Reg.GLB_SIGn_VALUE k.versig) (s.sig k.versig + 1) := (if_pos hw).trans (get_post hs)
  rw [hone]
  exact State.get_put_eq

theorem postOnes_sig {k : Keeper} {l : List (List Nat)} (hl : ∀ w ∈ l, recBits w 0 7 0 = 0xFF) : ∀ {s : State}, s.get Reg.PCR_PSTATE_STATE = 0 →
    s.sig k.versig < 2 ^ 64 → (l.foldl (State.postOne k) s).sig k.versig = (s.sig k.versig + l.length) % 2 ^ 64 := by
  induction l with
  | nil => exact fun _ hlt => (Nat.mod_eq_of_lt hlt).symm
  | cons w l ih =>
    intro s hs hlt
    obtain ⟨hsig, hrun⟩ := postOne_here (hl w List.mem_cons_self) hs
    rw [List.foldl_cons, ih (fun x hx => hl x (List.mem_cons_of_mem _ hx)) hrun (by rw [hsig]; exact Nat.mod_lt _ (by decide)), hsig, List.length_cons]
    omega

/-- The signal of a version whose workers are all this device: the first post cuts its word to 64 bits. -/
theorem postVersig_sig {k : Keeper} (hs : s.get Reg.PCR_PSTATE_STATE = 0) (hne : k.entries ≠ []) (hl : ∀ w ∈ k.entries, recBits w 0 7 0 = 0xFF) :
    (s.postVersig k).sig k.versig = (s.sig k.versig + k.entries.length) % 2 ^ 64 := by
  obtain ⟨w, l, he⟩ := List.exists_cons_of_ne_nil hne
  rw [postVersig_eq, he]
  rw [he] at hl
  obtain ⟨hsig, hrun⟩ := postOne_here (hl w List.mem_cons_self) hs
  rw [List.foldl_cons, postOnes_sig (fun x hx => hl x (List.mem_cons_of_mem _ hx)) hrun (by rw [hsig]; exact Nat.mod_lt _ (by decide)), hsig,
    List.length_cons]
  omega

end

/-! ## Start and stop (R315, R318, R320) -/

/-- The state once a table is read: STAMP0 is known unless it came poisoned. -/
def State.stamped (u : State) (k : Keeper) (bad : Bool) : State := if bad then u else { u with kprStamp0 := k.stamp0 }

theorem stamped_rel (u : State) (k : Keeper) (bad : Bool) :
    u.stamped k bad = { u with kprStamp0 := if bad then u.kprStamp0 else k.stamp0 } := by cases bad <;> rfl

theorem stamped_get (u : State) (k : Keeper) (bad : Bool) (f : FieldRef) : (u.stamped k bad).get f = u.get f := by cases bad <;> rfl

section
variable {s u : State} {k : Keeper} {bad : Bool}

/-- A service of a device that is no twin starts: the table is read, and decides (R315). -/
theorem kprStart_eq (hr : s.readKeeper (s.get Reg.GLB_KPR_CTL_TABLE / 64 * 64) 0 .copy = (k, bad, u)) (htw : u.get Reg.GLB_ROLE_TWIN = 0) :
    s.kprStart = if bad = true ∨ k.ok = false then ((u.stamped k bad).puts [(Reg.GLB_KPR_LAST_CAUSE, 1), (Reg.GLB_KPR_LAST_TABLE, 0)]).kprState 3
      else if s.get Reg.GLB_KPR_CTL_FRESH = 1 then ({ u.stamped k bad with kpr := some { k with version := k.stamp0 } } : State).kprState 1
      else ((({ u.stamped k bad with kpr := some { k with version := k.stamp0, mode := .run } } : State).put Reg.GLB_KPR_STATE_VERSION k.stamp0).kprState 2).postVersig
        { k with version := k.stamp0 } := by
  have hsingle : (u.stamped k bad).flag Reg.GLB_ROLE_TWIN = false := by
    rw [flag_eq, stamped_get, htw]
    rfl
  unfold State.kprStart
  dsimp only
  rw [hr]
  dsimp only
  rw [← State.stamped, hsingle, Bool.false_and, Bool.or_false]
  refine if_congr ?_ rfl (if_congr ?_ rfl rfl)
  · rw [Bool.or_eq_true, Bool.not_eq_true']
  · rw [flag_eq, beq_iff_eq]

variable (hs : s.InRun) (hkeeper : s.get Reg.GLB_ROLE_KEEPER = 1) (htwin : s.get Reg.GLB_ROLE_TWIN = 0)

/-- GLB_KPR_CTL as a START writes it. -/
def State.ctlWritten (s : State) (fresh : Bool) (table : BitVec 48) : State :=
  s.puts [(Reg.GLB_KPR_CTL_FRESH, b2n fresh), (Reg.GLB_KPR_CTL_TABLE, table.toNat)]

theorem ctlWritten_get (s : State) (fresh : Bool) (table : BitVec 48) {f : FieldRef} (hf : f.key ≠ Reg.GLB_KPR_CTL_FRESH.key)
    (ht : f.key ≠ Reg.GLB_KPR_CTL_TABLE.key) : (s.ctlWritten fresh table).get f = s.get f := (State.get_put_ne ht).trans (State.get_put_ne hf)

section
variable {fresh : Bool} {table : BitVec 48}
  (hr : (s.ctlWritten fresh table).readKeeper (table.toNat / 64 * 64) 0 .copy = (k, bad, u))

include htwin hr in
/-- The table's reading leaves the role. -/
theorem tableRead_twin : u.get Reg.GLB_ROLE_TWIN = 0 := by
  have hserves := serves_readKeeper (s := s.ctlWritten fresh table) (table.toNat / 64 * 64) 0 .copy
  rw [hr] at hserves
  exact (hserves.get (not_access (by decide) (by decide) (by decide) (by decide))).trans ((ctlWritten_get s fresh table (by decide) (by decide)).trans htwin)

include hs hr in
theorem tableRead_power : u.get Reg.PCR_PSTATE_STATE = 0 := by
  have hserves := serves_readKeeper (s := s.ctlWritten fresh table) (table.toNat / 64 * 64) 0 .copy
  rw [hr] at hserves
  exact (hserves.get (not_access (by decide) (by decide) (by decide) (by decide))).trans ((ctlWritten_get s fresh table (by decide) (by decide)).trans hs.1)

include hkeeper htwin hr in
theorem exec_keeperStart (hst : s.get Reg.GLB_KPR_STATE_STATE = 0 ∨ s.get Reg.GLB_KPR_STATE_STATE = 3) : exec (.keeperStart fresh table) s = .next
    (if bad = true ∨ k.ok = false then ((u.stamped k bad).puts [(Reg.GLB_KPR_LAST_CAUSE, 1), (Reg.GLB_KPR_LAST_TABLE, 0)]).kprState 3
      else if fresh = true then ({ u.stamped k bad with kpr := some { k with version := k.stamp0 } } : State).kprState 1
      else ((({ u.stamped k bad with kpr := some { k with version := k.stamp0, mode := .run } } : State).put Reg.GLB_KPR_STATE_VERSION k.stamp0).kprState 2).postVersig
        { k with version := k.stamp0 }) := by
  have htable : (s.ctlWritten fresh table).get Reg.GLB_KPR_CTL_TABLE = table.toNat := State.get_put_eq.trans (Nat.mod_eq_of_lt table.isLt)
  have hfresh : (s.ctlWritten fresh table).get Reg.GLB_KPR_CTL_FRESH = b2n fresh := by
    refine (State.get_put_ne (by decide)).trans (State.get_put_eq.trans ?_)
    cases fresh <;> rfl
  have hstate : (s.ctlWritten fresh table).get Reg.GLB_KPR_STATE_STATE = s.get Reg.GLB_KPR_STATE_STATE := ctlWritten_get s fresh table (by decide) (by decide)
  have hstart := kprStart_eq (s := s.ctlWritten fresh table) (by rw [htable]; exact hr) (tableRead_twin htwin hr)
  have hif : (s.ctlWritten fresh table).get Reg.GLB_KPR_CTL_FRESH = 1 ↔ fresh = true := by
    rw [hfresh]
    cases fresh <;> decide
  change Host.Outcome.next (s.writeKprCtl 0 true false fresh table.toNat) = _
  unfold State.writeKprCtl
  rw [if_neg (by rw [flag_eq, hkeeper]; decide), if_neg (by omega), putKprCtl_single htwin]
  refine congrArg Host.Outcome.next ((if_pos ?_).trans (hstart.trans (if_congr Iff.rfl rfl (if_congr hif rfl rfl))))
  rw [if_neg Bool.false_ne_true]
  change (true && ((s.ctlWritten fresh table).get Reg.GLB_KPR_STATE_STATE == 0 || (s.ctlWritten fresh table).get Reg.GLB_KPR_STATE_STATE == 3)) = true
  rw [hstate, Bool.true_and, Bool.or_eq_true, beq_iff_eq, beq_iff_eq]
  exact hst

end

/-- What a refused table leaves (R315, R318). -/
theorem startFails_rel (htw : u.get Reg.GLB_ROLE_TWIN = 0) : let t := ((u.stamped k bad).puts [(Reg.GLB_KPR_LAST_CAUSE, 1), (Reg.GLB_KPR_LAST_TABLE, 0)]).kprState 3
    t.get Reg.GLB_KPR_STATE_STATE = 3 ∧ t.get Reg.GLB_KPR_LAST_CAUSE = 1 ∧ t.get Reg.GLB_KPR_LAST_TABLE = 0 ∧
    u.KeepsFields t [Reg.GLB_KPR_STATE_STATE, Reg.GLB_KPR_LAST_CAUSE, Reg.GLB_KPR_LAST_TABLE] ∧
    t = { u with fields := t.fields, kprStamp0 := if bad then u.kprStamp0 else k.stamp0 } := by
  intro t
  have ht : t = ((u.stamped k bad).puts [(Reg.GLB_KPR_LAST_CAUSE, 1), (Reg.GLB_KPR_LAST_TABLE, 0)]).put Reg.GLB_KPR_STATE_STATE 3 :=
    kprState_single ((State.get_put_ne (by decide)).trans ((State.get_put_ne (by decide)).trans ((stamped_get u k bad _).trans htw))) 3
  have hkeep : u.KeepsFields (u.stamped k bad) [Reg.GLB_KPR_STATE_STATE, Reg.GLB_KPR_LAST_CAUSE, Reg.GLB_KPR_LAST_TABLE] := fun f _ => stamped_get u k bad f
  rw [ht]
  refine ⟨State.get_put_eq, (State.get_put_ne (by decide)).trans ((State.get_put_ne (by decide)).trans State.get_put_eq),
    (State.get_put_ne (by decide)).trans State.get_put_eq, (hkeep.puts _ (by simp)).put (by simp), ?_⟩
  rw [stamped_rel]
  rfl

/-- What a fresh start leaves: COPY (R315). -/
theorem startCopies_rel (htw : u.get Reg.GLB_ROLE_TWIN = 0) (hb : bad = false) :
    let t := ({ u.stamped k bad with kpr := some { k with version := k.stamp0 } } : State).kprState 1
    t.get Reg.GLB_KPR_STATE_STATE = 1 ∧ u.KeepsFields t [Reg.GLB_KPR_STATE_STATE] ∧
    t = { u with fields := t.fields, kprStamp0 := k.stamp0, kpr := some { k with version := k.stamp0 } } := by
  intro t
  subst hb
  have ht : t = ({ u.stamped k false with kpr := some { k with version := k.stamp0 } } : State).put Reg.GLB_KPR_STATE_STATE 1 := kprState_single (by exact htw) 1
  rw [ht]
  exact ⟨State.get_put_eq, ((keeps_refl u _).of_fields rfl rfl rfl).put (by simp), rfl⟩

/-- What a start from checkpoints leaves: RUN, and VERSION posted (R315). -/
theorem startRuns_rel (htw : u.get Reg.GLB_ROLE_TWIN = 0) (hp : u.get Reg.PCR_PSTATE_STATE = 0) (hb : bad = false) :
    let t := ((({ u.stamped k bad with kpr := some { k with version := k.stamp0, mode := .run } } : State).put Reg.GLB_KPR_STATE_VERSION k.stamp0).kprState 2).postVersig
      { k with version := k.stamp0 }
    t.get Reg.GLB_KPR_STATE_STATE = 2 ∧ t.get Reg.GLB_KPR_STATE_VERSION = k.stamp0 % 2 ^ 32 ∧ t.mem = u.mem ∧ t.chambers = u.chambers ∧
    t.kpr = some { k with version := k.stamp0, mode := .run } := by
  subst hb
  let v : State := ({ u.stamped k false with kpr := some { k with version := k.stamp0, mode := .run } } : State).put Reg.GLB_KPR_STATE_VERSION k.stamp0
  have hv : v.get Reg.GLB_ROLE_TWIN = 0 := (State.get_put_ne (by decide)).trans htw
  have hrun : (v.put Reg.GLB_KPR_STATE_STATE 2).get Reg.PCR_PSTATE_STATE = 0 := (State.get_put_ne (by decide)).trans ((State.get_put_ne (by decide)).trans hp)
  intro t
  have ht : t = (v.put Reg.GLB_KPR_STATE_STATE 2).postVersig { k with version := k.stamp0 } :=
    congrArg (State.postVersig · { k with version := k.stamp0 }) (kprState_single hv 2)
  obtain ⟨⟨heq, -⟩, hget⟩ := postOnes_rel { k with version := k.stamp0 } k.entries hrun
  rw [ht, postVersig_eq]
  refine ⟨(hget _ ⟨by decide, by decide⟩).trans State.get_put_eq,
    (hget _ ⟨by decide, by decide⟩).trans ((State.get_put_ne (by decide)).trans State.get_put_eq), ?_, ?_, ?_⟩
  · rw [heq]
    rfl
  · rw [heq]
    rfl
  · rw [heq]
    rfl

include hkeeper in
theorem start_locked (h2 : s.get Reg.GLB_KPR_STATE_STATE = 2) (fresh : Bool) (table : BitVec 48) :
    Does (.keeperStart fresh table) s fun t => s.CountsGlobalViol t 0 3 0x400 := by
  refine ⟨_, congrArg Host.Outcome.next ((if_neg ?_).trans ((if_pos h2).trans (if_neg Bool.false_ne_true))), counts_violGlb s 0 3 0x400 (by decide) (by decide)⟩
  rw [flag_eq, hkeeper]
  decide

theorem worker_counted (h0 : s.get Reg.GLB_ROLE_KEEPER = 0) (agent : Nat) (start stop fresh : Bool) (table : Nat) :
    s.writeKprCtl agent start stop fresh table = s.violGlb agent 0 0x400 := if_pos (by rw [flag_eq, h0]; rfl)

include hkeeper in
theorem exec_keeperStop (h2 : s.get Reg.GLB_KPR_STATE_STATE = 2) : exec .keeperStop s = .next (if s.kprJobRuns then
      { s with kpr := s.kpr.map fun k => { k with stopping := true }, kprPeer := s.kprPeer.map fun k => { k with stopping := true } }
    else s.kprOff) :=
  congrArg Host.Outcome.next ((if_neg (by rw [flag_eq, hkeeper]; decide)).trans ((if_pos h2).trans ((if_pos rfl).trans (if_neg (by omega)))))

include htwin in
theorem kprOff_rel : let t := s.kprOff
    t.get Reg.GLB_KPR_STATE_STATE = 0 ∧ s.KeepsFields t [Reg.GLB_KPR_STATE_STATE] ∧ t = { s with fields := t.fields, kpr := none, kprPeer := none } := by
  intro t
  have ht : t = ({ s with kpr := none, kprPeer := none } : State).put Reg.GLB_KPR_STATE_STATE 0 := kprState_single (by exact htwin) 0
  rw [ht]
  exact ⟨State.get_put_eq, ((keeps_refl s _).of_fields rfl rfl rfl).put (by simp), rfl⟩

end

/-! ## A worker's stages (R305, R316) -/

section
variable {s : State} {peer : Bool} {i : Fin 8} {k : Keeper} {w : KprWorker}

theorem exec_keeperUpdate (hk : s.kprOf peer = some k) (hw : k.workers[i.val]? = some w) : exec (.keeperUpdate peer i) s = .next (s.kprWork peer k i w) := by
  change execKeeperUpdate peer i s = _
  unfold execKeeperUpdate
  rw [hk]
  dsimp only
  rw [hw]

/-- GLB_KPR_LAST as a failed update or send writes it. -/
def State.failNoted (s : State) (peer : Bool) (k : Keeper) (cause worker : Nat) : State :=
  s.puts [(Reg.GLB_KPR_LAST_STAMP, k.version), (Reg.GLB_KPR_LAST_TABLE, b2n peer), (Reg.GLB_KPR_LAST_WORKER, worker), (Reg.GLB_KPR_LAST_CAUSE, cause)]

theorem failNoted_last (s : State) (peer : Bool) (k : Keeper) {cause : Nat} (hc : cause < 4) (i : Fin 8) : let u := s.failNoted peer k cause i
    u.get Reg.GLB_KPR_LAST_STAMP = k.version % 2 ^ 32 ∧ u.get Reg.GLB_KPR_LAST_CAUSE = cause ∧ u.get Reg.GLB_KPR_LAST_TABLE = b2n peer ∧
    u.get Reg.GLB_KPR_LAST_WORKER = i.val := by
  refine ⟨(State.get_put_ne (by decide)).trans ((State.get_put_ne (by decide)).trans ((State.get_put_ne (by decide)).trans State.get_put_eq)),
    State.get_put_eq.trans (Nat.mod_eq_of_lt (Nat.lt_trans hc (by decide))),
    (State.get_put_ne (by decide)).trans ((State.get_put_ne (by decide)).trans (State.get_put_eq.trans ?_)),
    (State.get_put_ne (by decide)).trans (State.get_put_eq.trans (Nat.mod_eq_of_lt i.isLt))⟩
  cases peer <;> rfl

theorem failNoted_get (s : State) (peer : Bool) (k : Keeper) (cause worker : Nat) {f : FieldRef} (hf : ¬KprKey f.key) :
    (s.failNoted peer k cause worker).get f = s.get f := by
  have hne : ∀ g : FieldRef, KprKey g.key → f.key ≠ g.key := fun g hg he => hf (he ▸ hg)
  exact (State.get_put_ne (hne _ ⟨by decide, by decide⟩)).trans ((State.get_put_ne (hne _ ⟨by decide, by decide⟩)).trans
    ((State.get_put_ne (hne _ ⟨by decide, by decide⟩)).trans (State.get_put_ne (hne _ ⟨by decide, by decide⟩))))

/-- Both tables are given up. -/
def State.noTables (s : State) : State := { s with kpr := none, kprPeer := none }

theorem noTables_get (s : State) (f : FieldRef) : s.noTables.get f = s.get f := rfl

/-- Both tables are given up, and the service has FAILED. -/
def State.failEnds (s : State) (e : LogEntry) : State := (s.logErr e).noTables.put Reg.GLB_KPR_STATE_STATE 3

theorem failEnds_rel (u : State) (e : LogEntry) : (u.failEnds e).get Reg.GLB_KPR_STATE_STATE = 3 ∧
    (∀ f : FieldRef, f.key < 0x6800000 * 64 → f.key ≠ Reg.GLB_KPR_STATE_STATE.key → (u.failEnds e).get f = u.get f) ∧
    (u.failEnds e).kpr = none ∧ (u.failEnds e).kprPeer = none ∧ (u.failEnds e).mem = u.mem ∧
    (u.failEnds e).get Reg.ERR_STATUS_WRITTEN = (u.get Reg.ERR_STATUS_WRITTEN + 1) % 2 ^ 32 := by
  refine ⟨State.get_put_eq, fun f hf hne => (State.get_put_ne hne).trans ((noTables_get _ f).trans (logErr_get (.inl hf))), rfl, rfl, ?_,
    (State.get_put_ne (by decide)).trans ((noTables_get _ _).trans (logErr_written u e))⟩
  have hmem : (u.logErr e).mem = u.mem := by rw [logErr_eq]
  exact hmem

theorem kprFail_eq (htwin : s.get Reg.GLB_ROLE_TWIN = 0) (peer : Bool) (k : Keeper) (cause i : Nat) : s.kprFail peer k cause i =
    (s.failNoted peer k cause i).failEnds { sev := 2, kind := 13, source := 11, stamp := k.version, unit := i, detail := cause } := by
  have htw := (failNoted_get s peer k cause i (f := Reg.GLB_ROLE_TWIN) fun h => absurd h.1 (by decide)).trans htwin
  change ((s.failNoted peer k cause i).logErr _).noTables.kprState 3 = _
  generalize s.failNoted peer k cause i = u at htw ⊢
  exact kprState_single ((noTables_get _ _).trans ((logErr_get (by decide)).trans htw)) 3

/-- What a failed update or send leaves (R318). -/
theorem kprFail_rel (htwin : s.get Reg.GLB_ROLE_TWIN = 0) (peer : Bool) (k : Keeper) {cause : Nat} (hc : cause < 4) (i : Fin 8) :
    let t := s.kprFail peer k cause i
    t.get Reg.GLB_KPR_STATE_STATE = 3 ∧ t.get Reg.GLB_KPR_LAST_STAMP = k.version % 2 ^ 32 ∧ t.get Reg.GLB_KPR_LAST_CAUSE = cause ∧
    t.get Reg.GLB_KPR_LAST_TABLE = b2n peer ∧ t.get Reg.GLB_KPR_LAST_WORKER = i.val ∧ t.kpr = none ∧ t.kprPeer = none ∧ t.mem = s.mem ∧
    t.get Reg.ERR_STATUS_WRITTEN = (s.get Reg.ERR_STATUS_WRITTEN + 1) % 2 ^ 32 := by
  obtain ⟨hstamp, hcause, htable, hworker⟩ := failNoted_last s peer k hc i
  have hwritten := failNoted_get s peer k cause i (f := Reg.ERR_STATUS_WRITTEN) fun h => absurd h.2 (by decide)
  have hmem : (s.failNoted peer k cause i).mem = s.mem := rfl
  intro t
  have ht : t = _ := kprFail_eq htwin peer k cause i
  rw [ht]
  generalize s.failNoted peer k cause i = u at hstamp hcause htable hworker hwritten hmem ⊢
  obtain ⟨h3, hget, hown, hpeer, hm, hlog⟩ := failEnds_rel u { sev := 2, kind := 13, source := 11, stamp := k.version, unit := i.val, detail := cause }
  exact ⟨h3, (hget _ (by decide) (by decide)).trans hstamp, (hget _ (by decide) (by decide)).trans hcause, (hget _ (by decide) (by decide)).trans htable,
    (hget _ (by decide) (by decide)).trans hworker, hown, hpeer, hm.trans hmem, by rw [hlog, hwritten]⟩

/-- A table's worker takes another stage. -/
theorem setWorker_eq (k : Keeper) (i : Nat) (x : KprWorker) : k.setWorker i x = { k with workers := k.workers.set i x } := rfl

theorem kprMayBegin_single (htwn : s.get Reg.TWN_STATE_STATE = 0) (hstop : k.stopping = false) : s.kprMayBegin k = true := by
  unfold State.kprMayBegin
  rw [htwn, hstop]
  rfl

section
variable (hstop : k.stopping = false) (htwn : s.get Reg.TWN_STATE_STATE = 0)

include hstop htwn in
theorem kprWork_gradient (h0 : w.stage = 0) (hrun : k.mode = .run) : s.kprWork peer k i w =
    if s.sigAtLeast (recBits k.header 2 11 0 + i) (k.delta + 1) then
      (if recBits (k.entry i) 0 32 32 = 1 then s.submitPrefetch (recBits (k.entry i) 0 31 16) (recBits k.header 3 31 0) else s).setKpr peer
        (some (k.setWorker i ⟨1, 0, none⟩))
    else s := by
  unfold State.kprWork
  rw [h0]
  dsimp only
  rw [kprMayBegin_single htwn hstop, if_neg (by decide), if_neg (by rw [hrun]; decide)]
  rfl

include hstop in
theorem kprWork_hold (h1 : w.stage = 1) : s.kprWork peer k i w =
    if s.sigAtLeast (recBits k.header 2 27 16) (k.nw * k.delta) then s.kprStartJob peer k i else s := by
  unfold State.kprWork
  rw [h1]
  dsimp only
  rw [hstop]
  rfl

include hstop in
theorem kprWork_update (h2 : w.stage = 2) (hc : w.chamber = none) : s.kprWork peer k i w =
    match mapFind s.hlcDone w.token with
    | none => s
    | some st => if st ≠ 1 then s.kprFail peer k 2 i else if k.mode = .weight then s.setKpr peer (some (k.setWorker i ⟨4, 0, none⟩)) else s.kprSend peer k i := by
  have hend : s.kprJobEnd w = (mapFind s.hlcDone w.token).map (· == 1) := by
    unfold State.kprJobEnd
    rw [hc]
  unfold State.kprWork
  rw [h2]
  dsimp only
  rw [hend, hstop]
  cases mapFind s.hlcDone w.token with
  | none => rfl
  | some st =>
    refine (if_neg Bool.false_ne_true).trans (if_congr ?_ rfl rfl)
    rw [Bool.not_eq_true', beq_eq_false_iff_ne]

theorem kprWork_send (h3 : w.stage = 3) : s.kprWork peer k i w =
    match mapFind s.cuDone w.token with
    | none => s
    | some st => if st = 1 then s.setKpr peer (some (k.setWorker i ⟨4, 0, none⟩)) else s.kprFail peer k 3 i := by
  unfold State.kprWork
  rw [h3]
  rfl

end

theorem submitPrefetch_rel (s : State) (obj us : Nat) : s.Submits (s.submitPrefetch obj us) [[5 + obj % 2 ^ 16 * 2 ^ 16, 0, 0, (s.nowUs + us) % 2 ^ 48, 0, 0, 0, 0]] ∧
    s.submitPrefetch obj us = { s with tokens := (s.submitPrefetch obj us).tokens, flsQueue := (s.submitPrefetch obj us).flsQueue } :=
  ⟨(submits_one s _).1, (submits_one s _).2⟩

/-- The update of a worker on the helictites. -/
theorem kprStartJob_hlc (hs : s.InRun) (h0 : recBits k.header 0 12 12 = 0) {ws : List Nat} {u : State} (hr : s.kprHlcWords k i = (ws, u)) :
    s.kprStartJob peer k i = ({ u with tokens := u.tokens + 1, hlcQueue := u.hlcQueue ++ [⟨u.tokens + 1, ws, u.hlcPosted⟩] } : State).setKpr peer
      (some (k.setWorker i ⟨2, u.tokens + 1, none⟩)) := by
  unfold State.kprStartJob
  rw [if_neg (by omega), wake_run hs, hr]
  rfl

/-- A worker's send: its staging buffer stamped, and a PUT of it in the internal queue (R316). -/
def Keeper.putRecord (k : Keeper) (i : Nat) : List Nat :=
  [1 + recBits k.header 2 49 48 * 2 ^ 6 + 1 * 2 ^ 8 + 1 * 2 ^ 12 + recBits (k.entry i) 0 7 0 * 2 ^ 16,
    recBits (k.entry i) 2 47 0 + k.sends % 2 * recBits (k.entry i) 3 47 0,
    if k.sends % 2 = 0 then recBits (k.entry i) 4 47 0 else recBits (k.entry i) 5 47 0, recBits (k.entry i) 3 47 0, 0, 0, 0, 0]

/-- The state in which a worker's staging buffer is stamped with the version sent. -/
def State.stagingStamped (s : State) (k : Keeper) (i : Nat) : State :=
  (s.write 3 (recBits (k.entry i) 2 47 0 + k.sends % 2 * recBits (k.entry i) 3 47 0) (leBytes 4 k.sends ++ zeroBytes 252)).2

/-- A PUT joins the internal queue for a worker. -/
def State.putQueued (s : State) (peer : Bool) (k : Keeper) (i : Nat) : State :=
  ({ s with tokens := s.tokens + 1, cuQueue := s.cuQueue ++ [⟨s.tokens + 1, k.putRecord i, 0⟩] } : State).setKpr peer
    (some (k.setWorker i ⟨3, s.tokens + 1, none⟩))

theorem putQueued_rel (s : State) (peer : Bool) (k : Keeper) (i : Nat) : let t := s.putQueued peer k i
    t.kprOf peer = some (k.setWorker i ⟨3, s.tokens + 1, none⟩) ∧ t.mem = s.mem ∧ t.cuQueue = s.cuQueue ++ [⟨s.tokens + 1, k.putRecord i, 0⟩] := by
  cases peer <;> exact ⟨rfl, rfl, rfl⟩

theorem kprSend_eq (s : State) (peer : Bool) (k : Keeper) (i : Nat) : s.kprSend peer k i = (s.stagingStamped k i).putQueued peer k i := rfl

theorem kprSend_rel (s : State) (peer : Bool) (k : Keeper) (i : Nat) : let t := s.kprSend peer k i
    t.kprOf peer = some (k.setWorker i ⟨3, s.tokens + 1, none⟩) ∧ t.mem = (s.stagingStamped k i).mem ∧
    t.cuQueue = s.cuQueue ++ [⟨s.tokens + 1, k.putRecord i, 0⟩] := by
  have hserves : State.Serves AccessKey s (s.stagingStamped k i) := serves_write s _ _ _
  have htokens : (s.stagingStamped k i).tokens = s.tokens := by rw [hserves.2]
  have hqueue : (s.stagingStamped k i).cuQueue = s.cuQueue := by rw [hserves.2]
  intro t
  have ht : t = (s.stagingStamped k i).putQueued peer k i := kprSend_eq s peer k i
  rw [ht, ← htokens, ← hqueue]
  exact putQueued_rel (s.stagingStamped k i) peer k i

end

/-! ## Publication (R315, R316) -/

/-- VERSION, and RUN after a fresh start, of the device's own table alone. -/
theorem kprAdvance_rel {s : State} (htwin : s.get Reg.GLB_ROLE_TWIN = 0) (peer : Bool) (k : Keeper) : let v := s.kprAdvance peer k
    v = { s with fields := v.fields } ∧ s.KeepsFields v [Reg.GLB_KPR_STATE_VERSION, Reg.GLB_KPR_STATE_STATE] ∧
    (peer = false → v.get Reg.GLB_KPR_STATE_VERSION = k.sends % 2 ^ 32 ∧ (k.mode = .copy → v.get Reg.GLB_KPR_STATE_STATE = 2)) ∧
    (peer = true → v = s) := by
  intro v
  have hput : (s.put Reg.GLB_KPR_STATE_VERSION k.sends).get Reg.GLB_ROLE_TWIN = 0 := (State.get_put_ne (by decide)).trans htwin
  cases peer with
  | true => exact ⟨rfl, keeps_refl s _, fun h => absurd h (by decide), fun _ => rfl⟩
  | false =>
    have hv : v = if k.mode = .copy then (s.put Reg.GLB_KPR_STATE_VERSION k.sends).put Reg.GLB_KPR_STATE_STATE 2
        else s.put Reg.GLB_KPR_STATE_VERSION k.sends :=
      (if_neg Bool.false_ne_true).trans (if_congr Iff.rfl (kprState_single hput 2) (kprRecord_single hput))
    have hkeep : s.KeepsFields (s.put Reg.GLB_KPR_STATE_VERSION k.sends) [Reg.GLB_KPR_STATE_VERSION, Reg.GLB_KPR_STATE_STATE] :=
      (keeps_refl s _).put (by simp)
    rw [hv]
    split
    · exact ⟨rfl, hkeep.put (by simp), fun _ => ⟨(State.get_put_ne (by decide)).trans State.get_put_eq, fun _ => State.get_put_eq⟩, fun h => absurd h (by decide)⟩
    · next hne => exact ⟨rfl, hkeep, fun _ => ⟨State.get_put_eq, fun h => absurd h hne⟩, fun h => absurd h (by decide)⟩

section
variable {s : State} {peer : Bool} {k : Keeper} (hk : s.kprOf peer = some k) (hstop : k.stopping = false) (hmark : k.mark = none)
include hk

theorem publish_waits (hw : ∃ w ∈ k.workers, w.stage ≠ 4) : exec (.keeperPublish peer) s = .next s := by
  change execKeeperPublish peer s = _
  unfold execKeeperPublish
  rw [hk]
  dsimp only
  refine congrArg Host.Outcome.next (if_pos ?_)
  have hall : k.workers.all (fun w => w.stage == 4) = false := by
    rw [List.all_eq_false]
    obtain ⟨w, hw, h4⟩ := hw
    exact ⟨w, hw, by rw [beq_iff_eq]; exact h4⟩
  rw [hall, Bool.not_false, Bool.or_true]

include hstop hmark in
theorem exec_keeperPublish (htwin : s.get Reg.GLB_ROLE_TWIN = 0) (hw : ∀ w ∈ k.workers, w.stage = 4) : exec (.keeperPublish peer) s = .next
    (if k.mode = .weight then s.setKpr peer (some { k with mode := .run, workers := k.workers.map fun _ => KprWorker.fresh })
      else (s.kprAdvance peer k).kprPost peer k) := by
  have hall : k.workers.all (fun w => w.stage == 4) = true := by
    rw [List.all_eq_true]
    exact fun w hm => by rw [hw w hm]; rfl
  have hadvance : (s.kprAdvance peer k).twinCommits = false := by
    obtain ⟨-, hkeep, -⟩ := kprAdvance_rel htwin peer k
    unfold State.twinCommits
    rw [flag_eq, hkeep _ (by decide), htwin]
    rfl
  change execKeeperPublish peer s = _
  unfold execKeeperPublish
  rw [hk]
  dsimp only
  rw [hall, hstop, hmark, hadvance]
  rfl

end

section
variable {s : State}

/-- What the post of a version leaves. -/
theorem kprPost_rel {v : State} (hp : v.get Reg.PCR_PSTATE_STATE = 0) (peer : Bool) (k : Keeper) : let t := v.kprPost peer k
    t.kprOf peer = some k.next ∧ t.mem = v.mem ∧ t.chambers = v.chambers ∧ (∀ f : FieldRef, KprKey f.key → t.get f = v.get f) ∧
    (k.entries ≠ [] → (∀ w ∈ k.entries, recBits w 0 7 0 = 0xFF) → t.sig k.versig = (v.sig k.versig + k.entries.length) % 2 ^ 64) := by
  intro t
  have ht : t = (v.setKpr peer (some k.next)).postVersig k := rfl
  have hrest : (v.setKpr peer (some k.next)).kprOf peer = some k.next ∧ (v.setKpr peer (some k.next)).mem = v.mem ∧
      (v.setKpr peer (some k.next)).chambers = v.chambers ∧ ∀ f, (v.setKpr peer (some k.next)).get f = v.get f := by
    cases peer <;> exact ⟨rfl, rfl, rfl, fun _ => rfl⟩
  obtain ⟨hof, hmem, hch, hfields⟩ := hrest
  rw [ht]
  generalize v.setKpr peer (some k.next) = x at hof hmem hch hfields ⊢
  have hx : x.get Reg.PCR_PSTATE_STATE = 0 := (hfields _).trans hp
  obtain ⟨⟨heq, -⟩, hget⟩ := postOnes_rel k k.entries hx
  rw [postVersig_eq]
  refine ⟨?_, ?_, ?_, fun f hf => (hget f hf).trans (hfields f), fun hne hl => ?_⟩
  · rw [← hof, heq]
    rfl
  · rw [heq]
    exact hmem
  · rw [heq]
    exact hch
  · rw [← postVersig_eq, postVersig_sig hx hne hl]
    have hsig : x.sig k.versig = v.sig k.versig := hfields _
    rw [hsig]

/-- What a publication leaves (R315, R316). -/
theorem publication_rel (hs : s.InRun) (htwin : s.get Reg.GLB_ROLE_TWIN = 0) (peer : Bool) (k : Keeper) : let t := (s.kprAdvance peer k).kprPost peer k
    t.kprOf peer = some k.next ∧ t.mem = s.mem ∧ t.chambers = s.chambers ∧
    (peer = false → t.get Reg.GLB_KPR_STATE_VERSION = k.sends % 2 ^ 32 ∧ (k.mode = .copy → t.get Reg.GLB_KPR_STATE_STATE = 2)) ∧
    (peer = true → t.get Reg.GLB_KPR_STATE_VERSION = s.get Reg.GLB_KPR_STATE_VERSION) ∧
    (k.entries ≠ [] → (∀ w ∈ k.entries, recBits w 0 7 0 = 0xFF) → t.sig k.versig = (s.sig k.versig + k.entries.length) % 2 ^ 64) := by
  obtain ⟨heq, hkeep, hown, hpeer⟩ := kprAdvance_rel htwin peer k
  have hsig : (s.kprAdvance peer k).sig k.versig = s.sig k.versig :=
    hkeep _ (by
      have := versig_lt k
      simp
      omega)
  generalize s.kprAdvance peer k = v at heq hkeep hown hpeer hsig ⊢
  obtain ⟨hof, hmem, hch, hget, hposted⟩ := kprPost_rel (v := v) ((hkeep _ (by decide)).trans hs.1) peer k
  refine ⟨hof, hmem.trans (by rw [heq]), hch.trans (by rw [heq]), fun h => ⟨(hget _ ⟨by decide, by decide⟩).trans (hown h).1,
    fun hc => (hget _ ⟨by decide, by decide⟩).trans ((hown h).2 hc)⟩, fun h => (hget _ ⟨by decide, by decide⟩).trans (by rw [hpeer h]), fun hne hl => ?_⟩
  rw [hposted hne hl, hsig]

end

/-! ## O49 -/

section
variable {s : State} (hs : s.InRun) (htwin : s.get Reg.GLB_ROLE_TWIN = 0)
include htwin

theorem update_fails {peer : Bool} {i : Fin 8} {k : Keeper} {cause : Nat} (hc : cause < 4)
    (he : exec (.keeperUpdate peer i) s = .next (s.kprFail peer k cause i)) : Does (.keeperUpdate peer i) s fun t =>
      t.get Reg.GLB_KPR_STATE_STATE = 3 ∧ t.get Reg.GLB_KPR_LAST_STAMP = k.version % 2 ^ 32 ∧ t.get Reg.GLB_KPR_LAST_CAUSE = cause ∧
      t.get Reg.GLB_KPR_LAST_TABLE = b2n peer ∧ t.get Reg.GLB_KPR_LAST_WORKER = i.val ∧ t.kpr = none ∧ t.kprPeer = none ∧ t.mem = s.mem ∧
      t.get Reg.ERR_STATUS_WRITTEN = (s.get Reg.ERR_STATUS_WRITTEN + 1) % 2 ^ 32 := ⟨_, he, kprFail_rel htwin peer k hc i⟩

omit htwin in
/-- A table replaced in a state that has queued commands. -/
theorem setKpr_queued {u : State} {T : Nat} {Q : List QueuedJob} (hu : u = { s with tokens := T, flsQueue := Q }) (peer : Bool) (x : Option Keeper) :
    let t := u.setKpr peer x
    t.kprOf (!peer) = s.kprOf (!peer) ∧ t = { s with kpr := t.kpr, kprPeer := t.kprPeer, tokens := t.tokens, flsQueue := t.flsQueue } := by
  subst hu
  cases peer <;> exact ⟨rfl, rfl⟩

omit htwin in
/-- A gradient that has come: the worker waits for the version hold, its state prefetched where its entry asks for it (R316). -/
theorem gradient_does {peer : Bool} {i : Fin 8} {k : Keeper} {w : KprWorker} (hk : s.kprOf peer = some k) (hw : k.workers[i.val]? = some w)
    (hstop : k.stopping = false) (htwn : s.get Reg.TWN_STATE_STATE = 0) (h0 : w.stage = 0) (hrun : k.mode = .run)
    (ha : s.sigAtLeast (recBits k.header 2 11 0 + i.val) (k.delta + 1) = true) : Does (.keeperUpdate peer i) s fun t =>
      t.kprOf peer = some (k.setWorker i ⟨1, 0, none⟩) ∧ t.kprOf (!peer) = s.kprOf (!peer) ∧
      t = { s with kpr := t.kpr, kprPeer := t.kprPeer, tokens := t.tokens, flsQueue := t.flsQueue } ∧
      s.Submits t (if recBits (k.entry i.val) 0 32 32 = 1 then
        [[5 + recBits (k.entry i.val) 0 31 16 % 2 ^ 16 * 2 ^ 16, 0, 0, (s.nowUs + recBits k.header 3 31 0) % 2 ^ 48, 0, 0, 0, 0]] else []) := by
  have he := (exec_keeperUpdate hk hw).trans (congrArg _ ((kprWork_gradient hstop htwn h0 hrun).trans (if_pos ha)))
  have hsub : ∀ (u : State) x l, s.Submits u l → s.Submits (u.setKpr peer x) l := fun u x l h => by cases peer <;> exact h
  have hrest : ∃ T Q, (if recBits (k.entry i) 0 32 32 = 1 then s.submitPrefetch (recBits (k.entry i) 0 31 16) (recBits k.header 3 31 0) else s) =
      { s with tokens := T, flsQueue := Q } := by
    split
    · exact ⟨_, _, (submitPrefetch_rel s _ _).2⟩
    · exact ⟨s.tokens, s.flsQueue, rfl⟩
  obtain ⟨T, Q, hu⟩ := hrest
  obtain ⟨hother, heq⟩ := setKpr_queued hu peer (some (k.setWorker i ⟨1, 0, none⟩))
  refine ⟨_, he, kprOf_setKpr _ _ _, hother, heq, ?_⟩
  split
  · exact hsub _ _ _ (submitPrefetch_rel s _ _).1
  · exact hsub _ _ _ (submits_refl s)

end

/-- Settles O49: START and STOP as GLB_KPR_CTL takes them, a worker by its stage, and a publication that posts VERSIG after VERSION has advanced.
STAMP0 is that of the table last read, a refused one's too (log entry 54); an update on the helictites names every layer and shaft (log entry 53). -/
theorem keeperService : Obligations.KeeperService := by
  intro s hs
  have hviol : s.CountsGlobalViol (s.violGlb 0 0 0x400) 0 0 0x400 := counts_violGlb s 0 0 0x400 (by decide) (by decide)
  refine ⟨fun h0 => ⟨fun fresh table => ⟨_, congrArg Host.Outcome.next (worker_counted h0 0 true false fresh table.toNat), hviol⟩,
    _, congrArg Host.Outcome.next (worker_counted h0 0 false true _ _), hviol⟩, fun hkeeper htwin =>
    ⟨fun fresh table k bad u hst hr => ?_, fun h2 => start_locked hkeeper h2, fun h2 hjob => ?_, fun h2 hjob => ?_, fun peer i k w hk hw hstop htwn => ?_,
      fun peer k hk hstop hmark => ⟨publish_waits hk, fun hw => ?_⟩⟩⟩
  · have he := exec_keeperStart hkeeper htwin hr hst
    have htw := tableRead_twin htwin hr
    refine ⟨fun hbad => ⟨_, he.trans (congrArg _ (if_pos hbad)), startFails_rel htw⟩, fun hb hok hf => ?_, fun hb hok hf => ?_⟩
    · exact ⟨_, he.trans (congrArg _ ((if_neg (by simp [hb, hok])).trans (if_pos hf))), startCopies_rel htw hb⟩
    · exact ⟨_, he.trans (congrArg _ ((if_neg (by simp [hb, hok])).trans (if_neg (by simp [hf])))), startRuns_rel htw (tableRead_power hs hr) hb⟩
  · exact ⟨_, (exec_keeperStop hkeeper h2).trans (congrArg _ (if_neg (by rw [hjob]; exact Bool.false_ne_true))), kprOff_rel htwin⟩
  · exact (exec_keeperStop hkeeper h2).trans (congrArg _ (if_pos hjob))
  · intro goes fails arrived allowed
    have he := exec_keeperUpdate (s := s) hk hw
    refine ⟨fun h0 hrun ha => ?_, fun h0 hrun ha => gradient_does hk hw hstop htwn h0 hrun ha, fun h1 ha => ?_, fun h1 ha hunit ws u hr => ?_,
      fun h2 hc => ⟨fun hnone => ?_, fun st hsome hst => ?_, fun hsome hm => ?_, fun hsome hm => ?_⟩, fun h3 => ⟨fun st hsome hst => ?_, fun hsome => ?_⟩⟩
    · exact he.trans (congrArg _ ((kprWork_gradient hstop htwn h0 hrun).trans (if_neg (ne_true_of_eq_false ha))))
    · exact he.trans (congrArg _ ((kprWork_hold hstop h1).trans (if_neg (ne_true_of_eq_false ha))))
    · exact he.trans (congrArg _ ((kprWork_hold hstop h1).trans ((if_pos ha).trans (kprStartJob_hlc hs hunit hr))))
    · rw [he, kprWork_update hstop h2 hc, hnone]
    · refine update_fails htwin (by decide) (he.trans (congrArg _ ?_))
      rw [kprWork_update hstop h2 hc, hsome]
      exact if_pos hst
    · rw [he, kprWork_update hstop h2 hc, hsome]
      exact congrArg _ ((if_neg (not_not.mpr rfl)).trans (if_pos hm))
    · have hsend : s.kprWork peer k i w = s.kprSend peer k i := by
        rw [kprWork_update hstop h2 hc, hsome]
        exact (if_neg (not_not.mpr rfl)).trans (if_neg hm)
      exact ⟨_, he.trans (congrArg _ hsend), kprSend_rel s peer k i⟩
    · refine update_fails htwin (by decide) (he.trans (congrArg _ ?_))
      rw [kprWork_send h3, hsome]
      exact if_neg hst
    · rw [he, kprWork_send h3, hsome]
      exact congrArg _ (if_pos rfl)
  · have he := exec_keeperPublish hk hstop hmark htwin hw
    refine ⟨fun hm => he.trans (congrArg _ (if_pos hm)), fun hm => ⟨_, he.trans (congrArg _ (if_neg hm)), ?_⟩⟩
    obtain ⟨hof, hmem, hch, hown, hpeer, hsig⟩ := publication_rel hs htwin peer k
    exact ⟨hof, hmem, hch, hown, hpeer, fun v hv hne hl => hv ▸ hsig hne hl⟩

end Sys2Proof.Machine
end
